-- ==== Sys2Proof/Word.lean ====
section
/-!
DEFINITION. The words of the CW6480 and the shape of a register field: 32-bit registers (R5), access types (R8),
and a field as its place in a register. The plainest arithmetic on them; nothing here acts on the machine's state.
-/

namespace Sys2Proof

/-- A register or an instruction word: 32 bits (R5). -/
abbrev Word := BitVec 32

/-- An engine's general register: 64 bits (R241). -/
abbrev DWord := BitVec 64

/-- A byte of a store. -/
abbrev Byte := BitVec 8

/-- The register access types of R8. -/
inductive Access where
  | rw | ro | wo | w1c | w1s | rc | rwl
  deriving DecidableEq, Repr, Inhabited

/-- A field of a register: its register's address (R37), its lowest bit, its width, its access type (R8), its reset
value (R7), the strides of its register's indices, and, for a field that repeats inside its register, the step between
the copies and their number. -/
structure Field where
  reg   : Nat
  lo    : Nat
  width : Nat
  acc   : Access
  rst   : Nat
  dims  : List Nat
  step  : Nat
  cnt   : Nat
  deriving DecidableEq, Repr, Inhabited

/-- A register: its address, stride and count of each index, and its fields. -/
structure RegDesc where
  reg    : Nat
  dims   : List (Nat × Nat)
  fields : List Field
  deriving DecidableEq, Repr, Inhabited

/-- Field `f` of the register with index `n`. -/
def Field.i (f : Field) (n : Nat) : Field := { f with reg := f.reg + n * f.dims.headD 0 }

/-- Field `f` of the register with the indices `n` and `m`. -/
def Field.ij (f : Field) (n m : Nat) : Field :=
  { f with reg := f.reg + n * f.dims.headD 0 + m * f.dims.tail.headD 0 }

/-- Field `f` of the register with the indices `n`, `m` and `l`. -/
def Field.ijk (f : Field) (n m l : Nat) : Field :=
  { f with reg := f.reg + n * f.dims.headD 0 + m * f.dims.tail.headD 0 + l * f.dims.tail.tail.headD 0 }

/-- Copy `j` of a field that repeats inside its register. -/
def Field.sub (f : Field) (j : Nat) : Field := { f with lo := f.lo + j * f.step }

/-- The hamlet window of hamlet `h` (R35). -/
def hamletBase (h : Nat) : Nat := 0x10000000 + h * 0x1000000

/-- Field `f` of a hamlet block, in the window of hamlet `h` (R36). -/
def Field.h (f : Field) (h : Nat) : Field := { f with reg := hamletBase h + f.reg }

/-- Field `f` of the STO register set of store `k`: hamlet `k` for 0 to 7, the Reeve SRAM (set at 0x0800 of SYS) for 8,
the host-port buffer (set at 0x0800 of LNK) for 9 (R286). -/
def Field.st (f : Field) (k : Nat) : Field :=
  if k < 8 then f.h k
  else if k = 8 then { f with reg := f.reg - 0x8E0000 + 0x04000800 }
  else { f with reg := f.reg - 0x8E0000 + 0x040A0800 }

/-- The value of a field in a register word. -/
def getBits (f : Field) (w : Word) : Nat := (w.toNat / 2 ^ f.lo) % 2 ^ f.width

/-- A register word with one field replaced by the low bits of `v`. -/
def setBits (f : Field) (w : Word) (v : Nat) : Word :=
  BitVec.ofNat 32 (w.toNat % 2 ^ f.lo + (v % 2 ^ f.width) * 2 ^ f.lo
    + w.toNat / 2 ^ (f.lo + f.width) * 2 ^ (f.lo + f.width))

/-- `v` read as a two's complement number of `n` bits. -/
def signed (n v : Nat) : Int := if v % 2 ^ n < 2 ^ (n - 1) then (v % 2 ^ n : Nat) else ((v % 2 ^ n : Nat) : Int) - (2 ^ n : Nat)

/-- The `n`-bit two's complement pattern of an integer. -/
def unsigned (n : Nat) (v : Int) : Nat := (v % ((2 ^ n : Nat) : Int)).toNat

/-- Saturation of an integer into the `n`-bit two's complement range. -/
def clampS (n : Nat) (v : Int) : Int :=
  max (-((2 ^ (n - 1) : Nat) : Int)) (min (((2 ^ (n - 1) : Nat) : Int) - 1) v)

/-- Bit `n` of a natural number. -/
def bitOf (v n : Nat) : Bool := v / 2 ^ n % 2 = 1

/-- 1 for true, 0 for false. -/
def b2n (b : Bool) : Nat := if b then 1 else 0

/-- `a` rounded up to a multiple of `n`. -/
def roundUp (a n : Nat) : Nat := (a + n - 1) / n * n

end Sys2Proof
end

