-- ==== Sys2Proof/Syntax.lean ====
section
/-!
DEFINITION. The commands and events that act on the CW6480: a register access, a message of the baseband, an operation
of an engine, an instant that arrives, an edge on a pin. One constructor for each row of spec/opcode_table.json.
Operand `r` is the requester of an access, `h` a hamlet, `k` a path in a hamlet, `e` an engine (0 to 7 a hamlet engine, 8 the Reeve), `v`
the word written, `due` an instant the environment fixes.
-/

namespace Sys2Proof

/-- A requester of an access (R47): `id` is coded as REQ of SYS_BADACC_INFO (0 to 7 engine of the hamlet, 8 to 15 its
DMA, 16 the Reeve, 17 the gateway) and `priv` as PRIV (0 task, 1 kernel, 2 machine, 3 DMA or gateway). -/
structure Req where
  id   : Nat
  priv : Nat
  deriving DecidableEq, Repr, Inhabited

/-- One compressed PRB of layer data (R88): 12 I and 12 Q mantissas and the exponent. -/
structure PrbData where
  i : List Int
  q : List Int
  e : Nat
  deriving DecidableEq, Repr, Inhabited

/-- A symbol by its frame number modulo 256, subframe, slot and symbol (R56). -/
structure SymId where
  frame : Nat
  sub   : Nat
  slot  : Nat
  sym   : Nat
  deriving DecidableEq, Repr, Inhabited

/-- A slot by its frame number modulo 256, subframe and slot (R56). -/
structure SlotId where
  frame : Nat
  sub   : Nat
  slot  : Nat
  deriving DecidableEq, Repr, Inhabited

/-- The slot that a symbol lies in. -/
def SymId.slotId (y : SymId) : SlotId := ⟨y.frame, y.sub, y.slot⟩

/-- A symbol of a slot. -/
def SlotId.symbol (x : SlotId) (n : Nat) : SymId := ⟨x.frame, x.sub, x.slot, n⟩

/-- What the common header, the flow and SEQ_ID of an inbound eCPRI message say (R190, R191, R193). -/
structure Hdr where
  flow : Nat
  rev  : Nat
  cat  : Nat
  size : Nat
  seq  : Nat
  deriving DecidableEq, Repr, Inhabited

/-- Codes of the RX ADCs (R121): for each of the 64 elements, successive samples from the ADC sample numbered `first` on, counted from device time 0. -/
structure RxSamples where
  first : Nat
  adc   : List (List Int)
  deriving DecidableEq, Repr, Inhabited

/-- What a combining instant finds (R137): the codes of the RX ADCs over the symbol, and the hamlets (a bit each) whose partial sums are complete. -/
structure UlInput where
  codes    : RxSamples
  complete : Nat
  deriving DecidableEq, Repr, Inhabited

/-- What a training frame received on a position carries (R175), its control and its status field, and `eq`, what the part's own equaliser of that position asks in the
control field of its answer. -/
structure TrainFields where
  control : Word
  status  : Word
  eq      : Word
  deriving DecidableEq, Repr, Inhabited

/-- The phase of training whose limit is overrun (R174): the direction and the failure code of the phase. -/
structure TrainPhase where
  tx   : Bool
  code : Fin 8
  deriving DecidableEq, Repr, Inhabited

/-- A broadcast command of the Tally chain as a hop delivers it (R238): from the upstream or the downstream hop, its OP. -/
structure HopCmd where
  up : Bool
  op : Nat
  deriving DecidableEq, Repr, Inhabited

/-- A fault fan-out of the Tally chain as a hop delivers it (R238): from the upstream or the downstream hop, the sender's address. -/
structure HopFan where
  up   : Bool
  addr : Nat
  deriving DecidableEq, Repr, Inhabited

/-- The commands and events of the part: one constructor for each row of spec/opcode_table.json, in its order. -/
inductive Instr where
  /-- R8. A write to a register that has no row of its own stores or acts under its access type, its lock and its own checks. -/
  | registerWrite (r : Req) (a : Nat) (v : Word)
  /-- R8. A read of an RC field returns its value and then clears it, unless an event coincides with the read. -/
  | counterReadClear (r : Req) (a : Nat) (events : Nat)
  /-- R49. A write of LOCK makes every RW-L field of the block read-only until the block's next reset. -/
  | blockLock (r : Req) (a : Nat) (v : Word)
  /-- R53. A write of GO to LNK_CAR_COMMIT judges the held carrier definitions under R55 and either refuses the commit or holds it for a frame boundary. -/
  | carrierCommitGo (r : Req) (v : Word)
  /-- R53. At the first frame boundary at least 100 µs after GO, the held carrier, TXC, RXC and LNK carrier settings take effect together. -/
  | carrierCommitTakeEffect
  /-- R58. A real-time control message with section descriptors is checked and its descriptors are accepted or rejected whole. -/
  | rtcMessage (m : Hdr) (words : List Word) (t : Nat)
  /-- R69. A KIND 1 message writes its vectors into bank SLOT mod 2 of every hamlet, or is rejected whole if outside its window or range. -/
  | explicitWeightMessage (m : Hdr) (words : List Word) (t : Nat)
  /-- R70. At the air start of the slot before a bank's next use, all validity bits of that bank are cleared. -/
  | weightBankClear (bank : Fin 2)
  /-- R70. A change of REFCAR takes effect at the next frame boundary and clears both banks' validity bits. -/
  | weightRefcarChange
  /-- R66. A write of GO to BFM_COMMIT_CTRL makes the beam commit pending, or refuses it and sets REFUSED. -/
  | bfmCommitGo (r : Req) (h : Fin 8) (v : Word)
  /-- R65. At the commit instant the committed entries change for every later symbol and the background copy of the shadow into the slice starts. -/
  | bfmCommitInstant (h : Fin 8)
  /-- R67. When the copy ends, BUSY clears, DONE is set and notification 0xFFF0 is posted to the engine. -/
  | bfmCopyDone (h : Fin 8)
  /-- R67. A new BFM_BASES value takes effect at the next symbol boundary of the lowest-numbered defined carrier. -/
  | bfmBasesTakeEffect (h : Fin 8)
  /-- R484. A write to LNK_ULC_CFG changes the hamlet mask; setting a hamlet's bit re-admits it and clears ISOh, unless its isolation is still running. -/
  | hmaskWrite (r : Req) (v : Word)
  /-- R73. At the next frame boundary after its HMASK bit is set, a hamlet rejoins the uplink combination and receives downlink layers. -/
  | hamletRejoin (h : Fin 8)
  /-- R80. A write of COMMIT starts the check of the free slot-table buffer, or is ignored when a commit is pending. -/
  | slotTableCommit (r : Req) (h : Fin 8) (v : Word)
  /-- R80. When the commit check ends, the commit is either refused with ERR set or made pending for a frame boundary. -/
  | slotTableCheckEnd (h : Fin 8)
  /-- R80. At the first frame boundary at least 100 µs after the check, the slot-table buffers swap. -/
  | slotTableSwap (h : Fin 8)
  /-- R79. 100 µs before a slot's air start, the sequencer reads and checks the slot's entry. -/
  | slotEntryLatch (h : Fin 8) (late : Bool)
  /-- R78. At its action time a PINS action drives the slot-table-owned pins that are not in PINMASK. -/
  | slotActionPins (h : Fin 8)
  /-- R153. At its action time an ORx-trigger action triggers the named capture set. -/
  | slotActionOrxTrigger (h : Fin 8)
  /-- R78. At its action time an engine-event action posts its code to the event notification queue. -/
  | slotActionEngineEvent (h : Fin 8)
  /-- R83. LEAD ticks before each REFNUM symbol, the PINMASK pins take the pattern of that symbol's gain state. -/
  | gainStatePins (h : Fin 8)
  /-- R81. A write of GO to SLT_EDIT requests a copy of the stage into the active buffer, or is refused. -/
  | sltEditGo (r : Req) (h : Fin 8) (v : Word)
  /-- R81. The sequencer copies the stage into the active buffer as one burst, ordered against its latches. -/
  | sltEditCopy (h : Fin 8)
  /-- R82. A change of ENABLE takes effect at the first frame boundary at least 100 µs after the write. -/
  | sltEnableTakeEffect (h : Fin 8)
  /-- R84. A claim write to FEP_CLAIM takes the named unowned or lower-ranked pins and refuses the pins held by higher-ranked owners. -/
  | fepClaim (r : Req) (h : Fin 8) (v : Word)
  /-- R84. A release write to FEP_CLAIM frees the named pins held by OWNER, and those pins return to SAFE. -/
  | fepRelease (r : Req) (h : Fin 8) (v : Word)
  /-- R84. A write to FEP_SAFE changes the level of every unowned pin at once. -/
  | fepSafeWrite (r : Req) (h : Fin 8) (v : Word)
  /-- R85. A write to FEP_GPIO drives the GPIO-owned pins within 1 µs. -/
  | fepGpioWrite (r : Req) (h : Fin 8) (v : Word)
  /-- R192. A downlink IQ data message is checked and stored in the DL partition, or discarded and counted. -/
  | dlIqMessage (m : Hdr) (words : List Word) (t : Nat)
  /-- R89. At a symbol's data deadline the host port distributes the layer data and zeroes any PRB whose data has not arrived. -/
  | dlDataDeadline (car : Fin 8) (x : SlotId) (sym : Nat)
  /-- R102. A write to TXC_FSWAP requests a coefficient-bank swap for the named carriers at a WHEN instant. -/
  | txFilterSwapRequest (r : Req) (h : Fin 8) (v : Word)
  /-- R102. At the WHEN instant a pending filter swap changes the carrier's active bank. -/
  | filterSwap (rx : Bool) (h n : Fin 8)
  /-- R102. A WHEN 2 swap that finds no suitable symbol within 10 ms takes place at the next half-subframe boundary and sets LATE. -/
  | filterSwapFallback (rx : Bool) (h n : Fin 8)
  /-- R131. A write to RXC_FSWAP requests a receive coefficient-bank swap, with WHEN 2 at an off or downlink symbol. -/
  | rxFilterSwapRequest (r : Req) (h : Fin 8) (v : Word)
  /-- R108. A write of GO to TXC_CFR_SWAP requests a pulse-bank swap. -/
  | cfrSwapRequest (r : Req) (h : Fin 8) (v : Word)
  /-- R108. At the WHEN instant the pulse bank changes for all eight paths at a sample boundary. -/
  | cfrPulseSwap (h : Fin 8) (late : Bool)
  /-- R111. A write to DPD_SWAPk becomes pending, is held behind a running fade, or replaces an earlier request. -/
  | dpdSwapRequest (r : Req) (h k : Fin 8) (v : Word)
  /-- R110. At its WHEN instant, or at the end of the previous fade, a DPD swap starts its cross-fade to the other bank. -/
  | dpdFadeStart (h k : Fin 8) (late : Bool)
  /-- R110. When α reaches 1, the fade ends, DONE is set and notification 0xFFF4 is posted. -/
  | dpdFadeEnd (h k : Fin 8)
  /-- R104. At a half-subframe boundary, pending changes of ATT, DLY, PHASE, IFS, CFR, DPD EN, gain compensation and backoff take effect. -/
  | halfSubframeSettings (h : Fin 8)
  /-- R105. At the half-subframe boundary after a MUTE change, the path's mute gain starts its ramp. -/
  | muteRampStart (h k : Fin 8)
  /-- R105. When the mute gain reaches 0 or 1, the ramp ends and MUTED is updated. -/
  | muteRampEnd (h k : Fin 8)
  /-- R106. A safety ramp takes all eight paths of the hamlet to zero code over 100 µs and sets SAFE and MUTE. -/
  | safetyRamp (h : Fin 8) (t : Nat)
  /-- R106. When the safety ramp reaches zero, the paths send zero code until the safety state ends. -/
  | safetyRampEnd (h : Fin 8)
  /-- R114. After 64 cycles of forced zero code, the DAC clock is gated off without a runt pulse. -/
  | dacClockGate (h : Fin 8)
  /-- R114. At the first half-subframe boundary at least 10 µs after realignment, transmit data resumes and UNLOCKED clears. -/
  | txDataResume (h : Fin 8)
  /-- R142. From the first symbol whose FFT window begins at least 10 µs after realignment, the hamlet contributes to the uplink again. -/
  | rxContributionResume (h : Fin 8)
  /-- R124. An input beyond the ADC range is clipped, counted, marked in the uplink and raises notice 0x422 on the first rise. -/
  | rxOverrange (h k : Fin 8) (t0 n peak : Nat)
  /-- R137. At the fixed combining instant, the host port sums the partial beams of the contributing hamlets, compresses them and stages the uplink messages. -/
  | ulCombine (car : Fin 8) (y : SymId) (u : UlInput)
  /-- R139. At slot air start plus START, an occasion begins on its extractor, or is dropped and counted. -/
  | prachOccasionStart (j : Fin 16) (frame : Nat)
  /-- R138. After LEN samples the occasion's blocks are completed, combined and sent. -/
  | prachOccasionEnd (x : Fin 4) (u : RxSamples)
  /-- R141. A write to an LNK_PRA register takes effect at the first frame boundary at least 100 µs after the write. -/
  | prachSettingsTakeEffect
  /-- R150. A claim write to ORX_CLAIM takes the ORx and its switch pins atomically, pre-empting a lower-ranked owner, or is refused whole. -/
  | orxClaim (r : Req) (h : Fin 8) (v : Word)
  /-- R150. A release write to ORX_CLAIM frees the ORx and its switch pins, which return to SAFE. -/
  | orxRelease (r : Req) (h : Fin 8) (v : Word)
  /-- R150. Within 20 µs of a successful claim the ORx is powered and READY rises. -/
  | orxReady (h : Fin 8) (t : Nat)
  /-- R148. A write to ORX_NCO_FREQ takes effect at the next sample, or is held until the running capture ends. -/
  | orxNcoWrite (r : Req) (h : Fin 8) (v : Word)
  /-- R153. A write of GO to ORX_TRIG triggers the capture set at the first tick at least 0.5 µs later. -/
  | orxTriggerGo (r : Req) (h : Fin 8) (v : Word)
  /-- R153. A write of STOP to ORX_TRIG ends the running capture at the next group boundary. -/
  | orxStop (r : Req) (h : Fin 8) (v : Word)
  /-- R154. At the trigger instant T a capture starts, moving the switch pins if needed, or the trigger is refused with a reason. -/
  | captureTrigger (h : Fin 8)
  /-- R152. SETTLE ticks after T, the first capture sample is taken and SETTLING clears. -/
  | captureSettled (h : Fin 8)
  /-- R155. A completed group of eight samples, with its reference group, is written to the ring, where hold or overwrite policy and a held LEN change act. -/
  | captureGroup (h : Fin 8) (first : Nat) (adc : List Int)
  /-- R165. At the first group boundary with RESUME free groups, a paused capture resumes and queues a resume message. -/
  | deepFlowResume (h : Fin 8)
  /-- R159. A capture ends at a group boundary with an END code, and its record is queued and notification 0xFFF2 is posted. -/
  | captureEnd (h : Fin 8) (fifoFull : Bool)
  /-- R160. A write to ORX_CREC_NEXT discards the head capture record. -/
  | captureRecordNext (r : Req) (h : Fin 8) (v : Word)
  /-- R149. An ORx ADC clip is counted, sets OVR and marks the capture record and deep-flow message. -/
  | orxClip (h : Fin 8) (n : Nat)
  /-- R163. When the flow holds credits, a deep-flow data, pause, resume, gap or end message is copied to staging and sent. -/
  | deepFlowMessage (h : Fin 8)
  /-- R174. A write of EN in LNK_CTRL starts training of both directions, or with EN 0 idles the lanes. -/
  | linkEnable (r : Req) (v : Word)
  /-- R174. A write of RETRAIN restarts training of both directions. -/
  | linkRetrain (r : Req) (v : Word)
  /-- R175. A received training frame carries tap requests, precoding and READY, which the transmitter applies. -/
  | trainingFrame (p : Fin 9) (f : TrainFields) (t : Nat)
  /-- R174. A training phase that overruns its limit ends training with FAILED and the phase's code. -/
  | trainingPhaseTimeout (p : TrainPhase) (t : Nat)
  /-- R174. When FEC lock completes, the direction is UP with its lane assignment, seven-lane mode and precoding. -/
  | trainingComplete (tx : Bool) (skew t : Nat)
  /-- R174. While EN is 1, a failed link retries training every 100 ms. -/
  | trainingRetry
  /-- R179. A received codeword is decoded and its cells, ACK, NAK and credit returns are processed, or it is counted as uncorrectable. -/
  | codewordReceived (low : List (List Nat)) (d8 : List Nat) (t : Nat)
  /-- R186. If the ACK has not advanced for the replay timeout, the transmitter replays from the oldest unacknowledged cell. -/
  | replayTimeout
  /-- R184. Each outbound codeword is filled with cells from the highest-ranked ready flows and a link-control field. -/
  | codewordTransmit
  /-- R201. A received LM_OP 1 request schedules the switch of the failed lane's stream to the spare at codeword LM_TGT. -/
  | lmSubstituteDataLane (arg tgt : Nat)
  /-- R201. A received LM_OP 2 confirms that the substitution's target codeword decoded. -/
  | lmSubstitutionDone (arg : Nat)
  /-- R202. A received LM_OP 3 moves the forwarded clock to the named position and retrains the direction. -/
  | lmSubstituteClockLane (arg : Nat)
  /-- R203. A received LM_OP 4 retrains the direction, in seven-lane mode when no spare is usable. -/
  | lmRetrain
  /-- R206. A received LM_OP 5 is answered with L1 accept or refuse. -/
  | lmL1Request (tgt : Nat)
  /-- R206. A received LM_OP 6 lets both sides stop codewords at LM_TGT. -/
  | lmL1Accept (tgt : Nat)
  /-- R206. A received LM_OP 7 leaves the link in L0. -/
  | lmL1Refuse
  /-- R206. At LM_TGT both sides stop sending codewords and the data lanes go to electrical idle. -/
  | l1Entry
  /-- R206. A side leaves L1 by resuming codewords with a marker pair, and the other side follows. -/
  | l1Exit (t : Nat)
  /-- R206. In L2 a forwarded clock appearing on CK starts training. -/
  | l2ClockDetect (t : Nat)
  /-- R200. A data position is declared failed, and substitution or retraining is requested. -/
  | laneFailure (p : Fin 9) (t : Nat)
  /-- R200. Loss of the forwarded clock for 1 µs declares the clock failed and sends LM_OP 3. -/
  | clockLaneFailure (t : Nat)
  /-- R201. At codeword LM_TGT the failed lane's stream moves to the spare at both ends. -/
  | substitutionSwitch (tx : Bool)
  /-- R204. A failure not repaired within 25 µs retrains the direction. -/
  | substitutionTimeout
  /-- R204. With no decoded codeword in either direction for 100 µs, both ends return to training. -/
  | linkSilenceTimeout
  /-- R191. An inbound Generic Data Transfer message on flows 3 to 7 is delivered to the Reeve and posts the flow's arrival signal. -/
  | genericDataMessage (m : Hdr) (payload : List Nat)
  /-- R194. An inbound eCPRI type 5 message is stamped and answered with a one-step response or request. -/
  | oneWayDelayMessage (m : Hdr) (id action t : Nat)
  /-- R215. An inbound IEEE 1588 message on flow 0 is stamped and placed in the TIM_L0 receive ring. -/
  | ptpMessageRx (bytes : List Nat) (t : Nat)
  /-- R215. A transmit-ring record on flow 0 is sent and rewritten with its egress stamp. -/
  | l0MessageTx
  /-- R196. A Remote Reset request is answered and scheduled when RRST is 1, or discarded with notice 0x414. -/
  | remoteResetRequest (m : Hdr) (id op : Nat) (vendor : List Nat)
  /-- R196. 100 µs after the response, the requested device or hamlet reset is performed. -/
  | remoteResetExecute
  /-- R195. A partner acknowledgement of type 0x01 stops the resending of that fault indication. -/
  | eventAck (m : Hdr) (id : Nat)
  /-- R195. A synchronisation request is answered with type 0x04, the active faults and type 0x05. -/
  | eventSyncRequest (m : Hdr) (id : Nat)
  /-- R195. An unacknowledged fault indication is sent again every 10 ms, at most 3 times. -/
  | eventIndicationResend
  /-- R197. A Remote Memory Access request is checked and performed in order, and answered with a response or a failure. -/
  | rmaRequest (m : Hdr) (id op low elem addr len : Nat) (data : List Nat)
  /-- R336. Loss of Lanied PLL lock idles every transmit position, sets LOL and raises fault 0x413. -/
  | laniedPllLossOfLock
  /-- R336. At relock the part retrains both link directions. -/
  | laniedPllLock (t : Nat)
  /-- R209. A read of TIM_NOW_NS latches the seconds and fraction registers. -/
  | timNowRead (r : Req)
  /-- R210. A new FNOFF takes effect at the first whole second at least 100 µs after the write. -/
  | fnoffTakeEffect
  /-- R211. A write to TIM_UTC sets CUR at once and sets or cancels a pending change to NEXT. -/
  | timUtcWrite (r : Req) (v : Word)
  /-- R211. At the first whole second at or after AT, CUR takes NEXT and PEND clears. -/
  | utcOffsetChange
  /-- R212. A rising edge at PPS_IN is stamped into TIM_CAP0 and sets PPSNEW. -/
  | ppsEdge (t : Nat)
  /-- R216. A frame received on the management port is checked, stamped and placed in the receive ring, or discarded and counted. -/
  | mgpFrameRx (header body crc : List Nat) (t : Nat)
  /-- R215. A management-port transmit record is sent and rewritten with its egress stamp. -/
  | mgpFrameTx (t : Nat)
  /-- R218. A change of the management port's LINK makes source 1 stale or available. -/
  | mgpLinkChange (link refok : Bool)
  /-- R218. A time source with no measurement for 4 s, or three missing SYNC pulses, turns stale, and HOLD follows if it was selected. -/
  | sourceStale (n : Fin 5)
  /-- R220. A write to TIM_MEAS_CTRL commits a measurement, which is judged under R220 or R223. -/
  | measurementCommit (r : Req) (v : Word)
  /-- R221. At the first 10 ms boundary at least 2 ms after a scheduled step, device time is stepped and the datapath is realigned. -/
  | timeStep
  /-- R222. A write of EN to TIM_VCXO claims the bias channel as VCXO-servo owner, or is refused. -/
  | vcxoEnable (r : Req) (v : Word)
  /-- R261. An action from SCHED crosses into the event unit once the queue has room, or is judged late. -/
  | schedActionQueued (h : Fin 8)
  /-- R224. At its instant a kind 1 action drives the GPIO-owned pins named in its mask. -/
  | eventActionPins (h : Fin 8)
  /-- R224. At its instant a kind 2 action triggers the named capture set. -/
  | eventActionOrxTrigger (h : Fin 8)
  /-- R224. At its instant a kind 3 action posts its code to the notification queue. -/
  | eventActionEngineEvent (h : Fin 8)
  /-- R224. At its instant a kind 4 action triggers the named DMA channel. -/
  | eventActionDmaTrigger (h : Fin 8)
  /-- R227. A write to a timer's registers claims, changes or releases the timer, or is refused when from a non-owner. -/
  | evtTimerWrite (r : Req) (h : Fin 8) (n : Fin 4) (per : Bool) (v : Word)
  /-- R227. At each instant of its sequence a running timer acts as an engine event or DMA trigger. -/
  | eventTimerFire (h : Fin 8) (n : Fin 4)
  /-- R275. A read of ENG_EVQ returns and removes the head notification. -/
  | engEvqRead (r : Req) (h : Fin 8)
  /-- R488. A read of SYS_EVQ returns and removes the head Reeve notification. -/
  | sysEvqRead (r : Req)
  /-- R228. Every 32 s the calendar adds or omits oscillator cycles to correct its rate. -/
  | calendarCompensation (t : Nat)
  /-- R228. With no oscillator edge for 4 ms, the calendar stops, VALID clears and OSCFAIL is set. -/
  | calendarOscFail (t : Nat)
  /-- R229. A write of SYNC schedules the calendar load, or is refused while STEPPED is 0. -/
  | calendarSyncWrite (r : Req) (v : Word)
  /-- R229. At the first whole second at least 1 ms after SYNC, the calendar loads device time and VALID is set. -/
  | calendarLoad
  /-- R231. A Tally window is received and checked, and the hop goes up or down on runs of good or bad windows. -/
  | tallyWindow (up : Bool) (body : List Nat) (crc : Nat)
  /-- R232. Each completed 256-cycle average updates the hop delay and sets VALID. -/
  | hopDelayAverage (trips : List Nat)
  /-- R233. At each frame boundary a head or aligned follower drives a SYNCOUT pulse, preceded by a TIME message. -/
  | syncoutPulse
  /-- R234. A SYNC edge with a TIME message is stamped and its offset is committed as a source 4 measurement. -/
  | tallySyncEdge (t : Nat) (time : Option (Nat × Nat))
  /-- R234. Every 250 µs the follower slews the timebase phase by at most one fine step, adding or omitting a tick at the adjuster's limits. -/
  | followerSlew
  /-- R236. Command ENUM starts enumeration from the head with retained addresses. -/
  | tlyEnum (r : Req)
  /-- R236. Command ENUMF starts enumeration with forced fresh addresses. -/
  | tlyEnumf (r : Req)
  /-- R238. Command MUTE starts the safety ramp in every hamlet of every device at its target. -/
  | tlyMute (r : Req)
  /-- R238. Command COMMIT applies pending chain-wide beam and slot-table commits at its target. -/
  | tlyCommit (r : Req)
  /-- R235. Command STEPAUTH sets AUTH in every device at its target. -/
  | tlyStepauth (r : Req)
  /-- R238. A broadcast command received from a hop is counted, passed on and scheduled, or marked LATECMD when its target has passed. -/
  | tallyCommandReceived (c : HopCmd) (sec ns : Nat)
  /-- R238. At the target instant the device applies the command's MUTE, COMMIT or STEPAUTH. -/
  | tallyCommandTarget
  /-- R238. A received fault fan-out is recorded, raises notice 0x446 and with FANACT starts the safety ramp. -/
  | fanoutReceived (f : HopFan)
  /-- R236. A received enumeration token assigns or keeps the device's address and is passed downstream. -/
  | enumToken (next : Nat) (force : Bool)
  /-- R236. A device whose downstream hop is not up within 1 ms of the token becomes LAST and returns the count. -/
  | enumLastTimeout
  /-- R237. The census list is gathered and broadcast, and each device stores it and checks for duplicate addresses. -/
  | census (list : List Nat)
  /-- R256. Adds two registers and sets Z N C V. -/
  | add (e : Fin 9) (rd ra rb : Fin 32)
  /-- R256. Subtracts two registers and sets Z N C V. -/
  | sub (e : Fin 9) (rd ra rb : Fin 32)
  /-- R256. Adds two registers and the carry. -/
  | addc (e : Fin 9) (rd ra rb : Fin 32)
  /-- R256. Subtracts two registers with borrow. -/
  | subc (e : Fin 9) (rd ra rb : Fin 32)
  /-- R256. Bitwise AND of two registers. -/
  | and (e : Fin 9) (rd ra rb : Fin 32)
  /-- R256. Bitwise OR of two registers. -/
  | or (e : Fin 9) (rd ra rb : Fin 32)
  /-- R256. Bitwise XOR of two registers. -/
  | xor (e : Fin 9) (rd ra rb : Fin 32)
  /-- R256. Logical left shift by a register amount. -/
  | sll (e : Fin 9) (rd ra rb : Fin 32)
  /-- R256. Logical right shift by a register amount. -/
  | srl (e : Fin 9) (rd ra rb : Fin 32)
  /-- R256. Arithmetic right shift by a register amount. -/
  | sra (e : Fin 9) (rd ra rb : Fin 32)
  /-- R256. Logical left shift by an immediate count. -/
  | slli (e : Fin 9) (rd ra rb : Fin 32)
  /-- R256. Logical right shift by an immediate count. -/
  | srli (e : Fin 9) (rd ra rb : Fin 32)
  /-- R256. Arithmetic right shift by an immediate count. -/
  | srai (e : Fin 9) (rd ra rb : Fin 32)
  /-- R256. Signed set-less-than. -/
  | slt (e : Fin 9) (rd ra rb : Fin 32)
  /-- R256. Unsigned set-less-than. -/
  | sltu (e : Fin 9) (rd ra rb : Fin 32)
  /-- R256. Low 32 bits of a product. -/
  | mul (e : Fin 9) (rd ra rb : Fin 32)
  /-- R256. Signed high 32 bits of a product. -/
  | mulh (e : Fin 9) (rd ra rb : Fin 32)
  /-- R256. Unsigned high 32 bits of a product. -/
  | mulhu (e : Fin 9) (rd ra rb : Fin 32)
  /-- R256. Signed minimum of two registers. -/
  | min (e : Fin 9) (rd ra rb : Fin 32)
  /-- R256. Signed maximum of two registers. -/
  | max (e : Fin 9) (rd ra rb : Fin 32)
  /-- R256. Saturating absolute value. -/
  | abs (e : Fin 9) (rd ra : Fin 32)
  /-- R256. Counts leading zeros. -/
  | clz (e : Fin 9) (rd ra : Fin 32)
  /-- R256. Jumps to a register address after one delay slot. -/
  | jr (e : Fin 9) (ra : Fin 32)
  /-- R256. Jumps to a register address and links. -/
  | jalr (e : Fin 9) (rd ra : Fin 32)
  /-- R256. Adds a sign-extended immediate. -/
  | addi (e : Fin 9) (rd ra : Fin 32) (imm : BitVec 16)
  /-- R256. Set-less-than against an immediate. -/
  | slti (e : Fin 9) (rd ra : Fin 32) (imm : BitVec 16)
  /-- R256. AND with a zero-extended immediate. -/
  | andi (e : Fin 9) (rd ra : Fin 32) (imm : BitVec 16)
  /-- R256. OR with a zero-extended immediate. -/
  | ori (e : Fin 9) (rd ra : Fin 32) (imm : BitVec 16)
  /-- R256. XOR with a zero-extended immediate. -/
  | xori (e : Fin 9) (rd ra : Fin 32) (imm : BitVec 16)
  /-- R256. Loads an immediate into the upper half. -/
  | lui (e : Fin 9) (rd ra : Fin 32) (imm : BitVec 16)
  /-- R256. Branches if equal. -/
  | beq (e : Fin 9) (ra rb : Fin 32) (off : BitVec 16)
  /-- R256. Branches if not equal. -/
  | bne (e : Fin 9) (ra rb : Fin 32) (off : BitVec 16)
  /-- R256. Branches if signed less. -/
  | blt (e : Fin 9) (ra rb : Fin 32) (off : BitVec 16)
  /-- R256. Branches if signed greater or equal. -/
  | bge (e : Fin 9) (ra rb : Fin 32) (off : BitVec 16)
  /-- R256. Branches if unsigned less. -/
  | bltu (e : Fin 9) (ra rb : Fin 32) (off : BitVec 16)
  /-- R256. Branches if unsigned greater or equal. -/
  | bgeu (e : Fin 9) (ra rb : Fin 32) (off : BitVec 16)
  /-- R256. Jumps to a PC-relative target. -/
  | j (e : Fin 9) (off : BitVec 26)
  /-- R256. Jumps and links in g31. -/
  | jal (e : Fin 9) (off : BitVec 26)
  /-- R249. Loads sign-extended from memory in one of four addressing modes, visible after the load delay. -/
  | ld (e : Fin 9) (rt : Fin 32) (an : Fin 8) (am sz : Fin 4) (imm : BitVec 14)
  /-- R249. Loads zero-extended from memory. -/
  | ldu (e : Fin 9) (rt : Fin 32) (an : Fin 8) (am sz : Fin 4) (imm : BitVec 14)
  /-- R249. Stores to memory as a posted write. -/
  | st (e : Fin 9) (rt : Fin 32) (an : Fin 8) (am sz : Fin 4) (imm : BitVec 14)
  /-- R256. Sets an address, offset or length register. -/
  | seta (e : Fin 9) (an : Fin 8) (sel : Fin 4) (ra : Fin 32) (imm : BitVec 16)
  /-- R256. Reads an address, offset or length register. -/
  | geta (e : Fin 9) (an : Fin 8) (sel : Fin 4) (rd : Fin 32) (imm : BitVec 16)
  /-- R256. Adds an immediate to an address, offset or length register. -/
  | adda (e : Fin 9) (an : Fin 8) (sel : Fin 4) (ra : Fin 32) (imm : BitVec 16)
  /-- R257. Complex multiply-accumulate into an accumulator. -/
  | cmac (e : Fin 9) (acc : Fin 4) (ra rb : Fin 32)
  /-- R257. Complex multiply-accumulate with the conjugate of rb. -/
  | cmacc (e : Fin 9) (acc : Fin 4) (ra rb : Fin 32)
  /-- R256. Dual real multiply-accumulate. -/
  | dmac (e : Fin 9) (acc : Fin 4) (ra rb : Fin 32)
  /-- R257. Sets an accumulator to a complex product. -/
  | cmul (e : Fin 9) (acc : Fin 4) (ra rb : Fin 32)
  /-- R256. Clears an accumulator. -/
  | clracc (e : Fin 9) (acc : Fin 4)
  /-- R257. Extracts a rounded, saturated complex word from an accumulator. -/
  | ext (e : Fin 9) (acc : Fin 4) (sh rd : Fin 32)
  /-- R257. Extracts the rounded real half to 32 bits. -/
  | extr (e : Fin 9) (acc : Fin 4) (sh rd : Fin 32)
  /-- R257. Moves part of an accumulator to a register. -/
  | mfacc (e : Fin 9) (acc : Fin 4) (part rd : Fin 32)
  /-- R257. Moves a register into part of an accumulator. -/
  | mtacc (e : Fin 9) (acc : Fin 4) (part ra : Fin 32)
  /-- R258. Streaming multiply-accumulate over a count of elements, resumable through RSM. -/
  | smac (e : Fin 9) (acc : Fin 4) (ax ay : Fin 8) (rc : Fin 32) (cut : Nat)
  /-- R258. Streaming conjugate multiply-accumulate. -/
  | smacc (e : Fin 9) (acc : Fin 4) (ax ay : Fin 8) (rc : Fin 32) (cut : Nat)
  /-- R259. Streaming search for the largest element and its index. -/
  | smax (e : Fin 9) (rd : Fin 32) (ax ay : Fin 8) (rc : Fin 32) (mode : Fin 16) (cut : Nat)
  /-- R259. Streaming search for the smallest element and its index. -/
  | smin (e : Fin 9) (rd : Fin 32) (ax ay : Fin 8) (rc : Fin 32) (mode : Fin 16) (cut : Nat)
  /-- R256. Reads the tick within the second and the seconds modulo 8. -/
  | rdt (e : Fin 9) (rd : Fin 32)
  /-- R261. Waits until device time reaches the named tick. -/
  | waitt (e : Fin 9) (rd ra rb : Fin 32)
  /-- R261. When the tick is reached the wait ends and rd is written. -/
  | waittEnd (e : Fin 9) (t : Nat)
  /-- R261. Sends one action to the event unit, stalling while the queue is full. -/
  | sched (e : Fin 9) (rd ra rb : Fin 32)
  /-- R260. Orders loads before later loads. -/
  | fenceR (e : Fin 9)
  /-- R260. Makes every earlier store visible before later stores. -/
  | fenceW (e : Fin 9)
  /-- R260. Orders loads and stores on both sides. -/
  | fenceRw (e : Fin 9)
  /-- R260. Completes every register and strict access before any later access. -/
  | fenceIo (e : Fin 9)
  /-- R260. Orders stores and DMA writes against the hamlet's DMA channels and datapath. -/
  | fenceDma (e : Fin 9)
  /-- R263. Raises exception code 10 with its immediate. -/
  | trap (e : Fin 9) (rd ra : Fin 32) (imm : BitVec 16)
  /-- R263. On the Reeve, raises exception code 12 into machine mode. -/
  | mtrap (e : Fin 9)
  /-- R263. Raises exception code 11. -/
  | brk (e : Fin 9)
  /-- R268. Returns from the current level or exception. -/
  | ret (e : Fin 9)
  /-- R270. Reads a control register. -/
  | mfc (e : Fin 9) (rd : Fin 32) (csr : BitVec 10)
  /-- R270. Writes a control register. -/
  | mtc (e : Fin 9) (rd : Fin 32) (csr : BitVec 10)
  /-- R262. Starts a requested power entry, or idles until an enabled interrupt is pending. -/
  | wait (e : Fin 9) (rd : Fin 32)
  /-- R273. Invalidates the TLB entries matching an address and ASID. -/
  | tlbi (e : Fin 9) (ra rb : Fin 32)
  /-- R273. Invalidates the non-global TLB entries of an ASID. -/
  | tlbia (e : Fin 9) (ra : Fin 32)
  /-- R273. Invalidates every TLB entry. -/
  | tlbiall (e : Fin 9)
  /-- R264. A late error response to a posted store raises the imprecise code 9 at the next boundary or fence. -/
  | storeBusError (e : Fin 9)
  /-- R267. At a quiet boundary an enabled pending interrupt above the current level is taken into its shadow bank and vector. -/
  | interruptEntry (e : Fin 9) (urgent : Bool)
  /-- R275. A write of RUN starts a halted engine at ENTRY, or is ignored or refused. -/
  | engRun (r : Req) (h : Fin 8) (v : Word)
  /-- R275. A write of HALT stops the engine at its next quiet boundary with STATE 0. -/
  | engHalt (r : Req) (h : Fin 8) (v : Word)
  /-- R282. The scrubber reads and corrects the next granule of its pass, ending a pass with PASSDONE. -/
  | scrubGranule (k : Fin 10)
  /-- R283. The repair unit starts copying a candidate row into the lowest free spare of its bank, or marks the bank without spare. -/
  | rowRepair (k : Fin 10)
  /-- R283. When the copy ends the row is remapped, recorded in STO_REPAIRn and notice 0x430 is raised. -/
  | rowRemap (k : Fin 10)
  /-- R285. A software write to STO_REPAIRn is accepted only from the Reeve while the engine is halted and the arbiter drained. -/
  | stoRepairWrite (r : Req) (k : Fin 10) (n : Fin 256) (v : Word)
  /-- R286. A write of ARM makes the next whole-word write to the address store inverted bits. -/
  | stoInjectArm (r : Req) (k : Fin 10) (v : Word)
  /-- R292. A write of FREEZE stops or resumes new grants at every bank of the hamlet. -/
  | arbFreeze (r : Req) (h : Fin 8) (v : Word)
  /-- R292. When every bank is idle under FREEZE, DRAINED rises. -/
  | arbDrained (h : Fin 8)
  /-- R291. When the hamlet rail falls below 0.68 V or FORCEFB is set, the arbiter enters fall-back and counts it. -/
  | arbFallbackEntry (h : Fin 8) (t : Nat)
  /-- R291. After the rail has been above 0.70 V for 10 µs, fall-back ends. -/
  | arbFallbackExit (h : Fin 8) (t : Nat)
  /-- R301. A read of LCK_n acquires the lock if free and returns acquired, acquired broken, busy or already held. -/
  | lockAcquire (r : Req) (h : Fin 8) (n : Fin 32)
  /-- R301. A write of RELEASE by the owner frees the lock. -/
  | lockRelease (r : Req) (h : Fin 8) (n : Fin 32) (v : Word)
  /-- R304. A Reeve write to LCK_FREE frees the named locks as broken. -/
  | lockFree (r : Req) (h : Fin 8) (v : Word)
  /-- R321. A write of GO starts a stopped channel at its head descriptor, or is refused with GOREF. -/
  | dmaGo (r : Req) (h c : Fin 8) (v : Word)
  /-- R321. A write of ABORT stops the channel at the next transfer boundary, or at once when suspended or halted. -/
  | dmaAbort (r : Req) (h c : Fin 8) (v : Word)
  /-- R321. A write of RESUME continues a suspended or halted channel from its resume point. -/
  | dmaResume (r : Req) (h c : Fin 8) (v : Word)
  /-- R316. A write of STRIG adds one edge trigger to the channel. -/
  | dmaStrig (r : Req) (h c : Fin 8) (v : Word)
  /-- R324. Setting STOPALL stops every channel and refuses GO while it is set. -/
  | dmaStopall (r : Req) (h : Fin 8) (v : Word)
  /-- R316. An edge trigger from its source adds to PENDTRG, or is lost and counted when PENDTRG is at 255. -/
  | dmaEdgeTrigger
  /-- R317. The capture-ring request is asserted or withdrawn as the fill crosses the watermark or the capture ends. -/
  | dmaRingRequest (h c : Fin 8)
  /-- R318. The channel reads a descriptor, checks it and starts its work, or halts on an error or fetch limit. -/
  | dmaDescriptorFetch (h c : Fin 8)
  /-- R310. One read or write transfer of up to 64 bytes completes, advancing the indices and the ring pointer. -/
  | dmaTransfer (h c : Fin 8) (write : Bool)
  /-- R323. An error response to a posted write halts the channel with CODE 4 once its outstanding writes have ended. -/
  | dmaWriteError (h c : Fin 8)
  /-- R318. When every write of a descriptor has its response, DONE and the completion trigger are given for CPL and the chain continues or stops. -/
  | dmaDescriptorComplete (h c : Fin 8)
  /-- R329. Four REFIN cycles without an edge switch the reference tree to holdover, unlock the PLLs and raise fault 0x440. -/
  | refinLoss (t : Nat)
  /-- R329. After 1 ms of continuous edges, the tree returns to REFIN at a tick boundary. -/
  | refinRequalified (t : Nat)
  /-- R333. A write of ACQ starts a converter PLL acquisition, dropping a held lock, or fails at once without a valid band. -/
  | pllAcq (r : Req) (h : Fin 8) (v : Word)
  /-- R333. When the phase error stays in the window for N cycles, lock is declared. -/
  | pllLockDeclared (h : Fin 8) (t : Nat)
  /-- R333. An attempt without lock in 1 ms fails, and the third failure sets FAILED and raises fault 0x424. -/
  | pllAcqTimeout (h : Fin 8)
  /-- R334. A phase error outside the window for 4 cycles clears LOCK, forces the paths to zero and starts reacquisition when AUTO is 1. -/
  | pllLossOfLock (h : Fin 8) (t : Nat)
  /-- R334. A run of 1 to 3 cycles outside the window is counted as a slip. -/
  | pllSlip (h : Fin 8)
  /-- R334. A tuning voltage outside 150 to 850 mV while locked sets MARGIN and raises notice 0x425. -/
  | pllTuningMargin (h : Fin 8) (mv t : Nat)
  /-- R334. A write that clears EN of PLL_CTRL gates the outputs and drops any held lock without reporting a loss. -/
  | pllDisable (r : Req) (h : Fin 8) (v : Word)
  /-- R335. At the first whole millisecond at least 2 µs after lock, dividers and sample counters align and ALIGNED is set. -/
  | pllAlign (h : Fin 8)
  /-- R337. An accepted CLKOUT write stops the output low and restarts it at the new setting within 2 µs. -/
  | clkoutReconfigure (r : Req) (n : Fin 4) (div : Bool) (v : Word)
  /-- R337. With ALIGN the divider restarts at the next whole millisecond with a rising edge. -/
  | clkoutAlign (n : Fin 4)
  /-- R340. A Stile crystal that does not start within 1 ms sets XOFAIL, raises notice 0x474 and leaves Stile in Sleep. -/
  | stileXoFail (t : Nat)
  /-- R346. A write of VSET ramps the hamlet rail to the new setting at 10 mV per µs. -/
  | ldoVsetWrite (r : Req) (h : Fin 8) (v : Word)
  /-- R350. A write of ENTER for a halted engine starts the hamlet's entry to RETAIN or OFF. -/
  | hamletEnter (r : Req) (v : Word)
  /-- R353. After the point of no return the hamlet reaches RETAIN or OFF. -/
  | hamletEntryComplete (h : Fin 8) (t : Nat)
  /-- R354. A write of WAKE starts the wake sequence of a hamlet in RETAIN or OFF. -/
  | hamletWakeWrite (r : Req) (v : Word)
  /-- R355. The woken domain becomes ready and performs the stalled accesses in arrival order. -/
  | hamletWakeReady (h : Fin 8) (t : Nat)
  /-- R357. A domain not ready within 2 ms of its wake completes stalled accesses with errors, sets WFAILh and raises fault 0x435. -/
  | hamletWakeFail (h : Fin 8)
  /-- R359. When the calendar seconds equal the alarm, the part asserts WAKE_OUT and sets ALARM_HIT. -/
  | calendarAlarm (t : Nat)
  /-- R359. A held wake asserts WAKE_OUT once the rails have fallen or 10 ms have passed. -/
  | wakeHoldExpiry
  /-- R360. A wake sequencer step passes and the next begins, and after the last the Reeve boots. -/
  | wakeStepPass (t : Nat)
  /-- R360. A wake step that times out is retried with a doubled timeout, and after the third try the part falls back. -/
  | wakeStepTimeout (t : Nat)
  /-- R361. A write of VALID to HTH_WAKEREC clears the record and releases its FAULT_L cause. -/
  | wakerecClear (r : Req) (v : Word)
  /-- R452. A rail entering or leaving its range holds or releases the part's reset and readiness. -/
  | supplyChange (rail : Fin 9) (ok : Bool) (t : Nat)
  /-- R381. At each PERIOD boundary a fixed housekeeping round starts, or the start is skipped and counted. -/
  | hkRoundStart
  /-- R377. 64 modulator periods after conversion start the coarse result is written. -/
  | hkCoarseReady (v : Nat)
  /-- R377. The fine result ends a conversion, writing results and flags, and the multiplexer moves to the next entry. -/
  | hkConversionEnd (v : Nat) (over_ : Option Bool)
  /-- R385. After 5 µs without modulator overload the recovery window closes. -/
  | hkRecoveryClose (t : Nat)
  /-- R380. The external reference buffer settles and the waiting entry begins its settling. -/
  | hkRefReady (t : Nat)
  /-- R380. An external reference not ready within 200 µs completes the entry without conversion and sets REFERR. -/
  | hkRefTimeout
  /-- R380. After 1 ms without selection the external reference buffer powers down. -/
  | hkRefPowerdown
  /-- R381. The round's last conversion ends the round and its results serve the thermal supervisor and other consumers. -/
  | hkRoundEnd
  /-- R383. A write of GO starts the user sequence under MODE, or is ignored with GOREF. -/
  | hkSeqGo (r : Req) (v : Word)
  /-- R383. A write of STOP ends the user sequence after the entry in progress. -/
  | hkSeqStop (r : Req) (v : Word)
  /-- R383. At each SPER boundary in MODE 2 a pass starts, or is skipped and counted. -/
  | hkSeqPeriodicStart
  /-- R384. A read of HKA_RESn latches HKA_RSTn for a consistent pair. -/
  | hkResRead (r : Req) (n : Fin 32)
  /-- R386. Every 64 s in KEEP and LISTEN the monitor ADC converts VBAT and temperature and sets VBLOW below the limit. -/
  | hearthMonitorConversion (mv : Nat) (temp : Int) (t : Nat)
  /-- R370. At the first frame boundary at least 100 µs after application, layers above SHEDL stop being computed. -/
  | shedTakeEffect
  /-- R370. Every ROTP ms, at a half-subframe boundary, the muted group of paths moves on. -/
  | rotationStep (h : Fin 8)
  /-- R371. From t0 + 100 µs each bias channel steps towards its clear code by SDSTEP per µs. -/
  | orderlyStopBias
  /-- R371. When every hamlet is OFF, the stop completes, records the shutdown, sets SDLATCH and asserts FAULT_L. -/
  | orderlyStopComplete
  /-- R372. An orderly stop not complete by t0 + 1 ms, or a zone 5 °C above SHUTDOWN, cuts every hamlet and leaves the device in KEEP. -/
  | hardCut
  /-- R373. A write of REARM clears SDLATCH and the thermal record when no zone is in SHUTDOWN. -/
  | thmRearm (r : Req) (v : Word)
  /-- R368. A write of UNPIN lifts the pin of the named zones. -/
  | thmUnpin (r : Req) (v : Word)
  /-- R395. A write to CODE drives the code, starts or retargets a ramp, stops a sine, or is refused. -/
  | biasCodeWrite (r : Req) (c : Fin 32) (v : Word)
  /-- R389. A write to MODE takes effect only at the clear code with no owner, and otherwise is refused. -/
  | biasModeWrite (r : Req) (c : Fin 32) (v : Word)
  /-- R393. Every INTV µs the slew limiter moves the output by STEP towards its target. -/
  | biasSlewStep (c : Fin 32)
  /-- R395. A write of sine EN = 1 moves the channel to OFFSET and starts the sine, waits behind a ramp, or is refused. -/
  | biasSineEnable (r : Req) (c : Fin 32) (v : Word)
  /-- R395. A write of sine EN = 0 stops the sine at the end of its half-cycle or cancels a waiting start. -/
  | biasSineDisable (r : Req) (c : Fin 32) (v : Word)
  /-- R395. When the output reaches OFFSET, sample 0 of the waiting sine is driven and the owner becomes sine. -/
  | biasSineStart (c : Fin 32)
  /-- R395. At the end of the half-cycle after a disable the channel drives OFFSET and has no owner. -/
  | biasSineHalfCycleEnd (c : Fin 32)
  /-- R391. BIAS_CLR_L asserted forces every channel to its clear code and releases every owner. -/
  | biasClrAssert (t : Nat)
  /-- R391. BIAS_CLR_L released lets CODE writes be accepted again, with channels held at their clear codes. -/
  | biasClrRelease (t : Nat)
  /-- R399. A write of GO to CAL_REQs starts a calibration request, or refuses it or ends it at once with code 3 or 6. -/
  | calGo (r : Req) (n : Fin 9) (v : Word)
  /-- R404. A write of STOP ends the running request with code 7, or in L mode with DONE after an applied estimate. -/
  | calStop (r : Req) (n : Fin 9) (v : Word)
  /-- R401. In G mode a 4 µs calibration step runs in an off symbol with the path disconnected. -/
  | calGuardStep (h : Fin 8) (t : Nat)
  /-- R402. A calibration run ends and is compared with earlier runs under the repeat-agreement check. -/
  | calRunEnd (n : Fin 9) (vals : List Int) (worn : List (Nat × Nat)) (t : Nat)
  /-- R401. Every 50 ms in L mode an interleave estimate is formed and applied if it passes its checks. -/
  | calLiveEstimate (h : Fin 8) (vals : List Int) (worn : List (Nat × Nat)) (level : Bool) (t : Nat)
  /-- R402. A request not ended within TMO ms ends with code 1, or in L mode sets FAIL. -/
  | calTimeout (n : Fin 9)
  /-- R401. A lost precondition, PLL lock, isolation or power entry ends a running request with code 4. -/
  | calPreconditionLost (n : Fin 9)
  /-- R403. A request ends with DONE or FAIL, applies its corrections, and interrupts the Reeve. -/
  | calRequestEnd (n : Fin 9)
  /-- R403. A spare is switched in on a path in service at its next silent symbol, or at a half-subframe boundary with LATE. -/
  | calSubstitution (h : Fin 8)
  /-- R408. A write of GO to BIST_CMD starts a test of a hamlet or schedules one for the Reeve, or is refused. -/
  | bistGo (r : Req) (v : Word)
  /-- R410. After the last pattern the logic signature is compared and LPASS or LFAIL is set. -/
  | bistLogicEnd (sig : BitVec 64) (t : Nat)
  /-- R411. A March pass ends, repairing failing rows and running the second pass, or setting MPASS or MFAIL. -/
  | bistMemoryPassEnd (rows spares : List (Nat × Nat)) (sig : BitVec 64) (t : Nat)
  /-- R412. The test ends with hamlet reset, CAL reload, restore list and FREEZE clear, raising fault 0x437 on failure. -/
  | bistEnd (t : Nat)
  /-- R488. A read of BIST_STAT ends the Reeve's BIST interrupt source. -/
  | bistStatRead (r : Req)
  /-- R418. A write of EN in WCH_CTRL powers the Watch, or with EN 0 stops it and ends a sweep. -/
  | watchEnable (r : Req) (v : Word)
  /-- R418. Within 200 µs of EN the Watch's ADC and tuner run and READY rises. -/
  | watchReady (t : Nat)
  /-- R417. The front-end gain changes by up to 1 dB per ms to keep the ADC peak near −6 dBFS. -/
  | watchAgcStep (up : Bool) (level t : Nat)
  /-- R417. A clipped Watch sample is counted, sets OVR and marks the sweep entry in progress. -/
  | watchClip (n : Nat)
  /-- R419. A decoded RDS group updates PI, PS, AF and CT and is delivered raw as GMASK selects. -/
  | rdsGroup (n : Fin 2) (blocks : List Nat) (good corr offE : Nat) (af : Option (List Nat)) (t : Nat)
  /-- R421. A decoded DAB FIG updates EId and is delivered raw as MASK selects. -/
  | dabFig (sel : Fin 6) (bytes afs : List Nat) (t : Nat)
  /-- R422. A DVB SI section that passes its CRC is delivered and updates TSID and ONID. -/
  | dvbSection (sel : Fin 6) (bytes : List Nat) (crcOk : Bool) (t : Nat)
  /-- R421. A change of DMOD or WCH_DIG_FREQ restarts acquisition, clears decoded fields and abandons any AF try. -/
  | dmodWrite (r : Req) (freq : Bool) (v : Word)
  /-- R424. A write to an FM channel's FREQ abandons any AF try and tunes to the written value. -/
  | fmFreqWrite (r : Req) (n : Fin 2) (v : Word)
  /-- R423. Each second the channel compares Q with QTH and starts trying candidates after DWELL seconds below. -/
  | afQualityCheck (n : Fin 3) (q rssi mer : Nat)
  /-- R423. A candidate's synchronisation, identity and quality wait ends, switching to it or trying the next and finally failing back. -/
  | afCandidateResult (n : Fin 3) (sync : Bool) (ident q : Nat)
  /-- R425. A broadcast-time item latches its UTC and reference-instant stamp, sets BTNEW and VALID and posts event line 3. -/
  | broadcastTimeItem (src : Fin 4) (utc ms lto t : Nat)
  /-- R426. A read of WCH_BT_UTC latches the other broadcast-time registers and clears BTNEW. -/
  | btUtcRead (r : Req)
  /-- R427. A write of GO starts a sweep from entry 0, or ends it at once with END 3 when the ORx is not owned. -/
  | sweepGo (r : Req) (v : Word)
  /-- R427. A write of STOP ends the sweep at once with END 1, the entry in progress getting PART. -/
  | sweepStop (r : Req) (v : Word)
  /-- R427. An entry that has gathered its dwell writes its level, sets HIT when above threshold and starts the next entry or ends the sweep. -/
  | sweepEntryEnd (level t : Nat)
  /-- R428. An entry not complete within 10 × DWELL ms ends with PART over the samples it has. -/
  | sweepEntryTimeout (level : Option Nat)
  /-- R429. A queued Watch record is sent as a type 3 message when the flow holds credits. -/
  | watchRecordSend
  /-- R437. Command SLEEP moves Stile to Sleep, cancelling a latched or running transmission. -/
  | stileSleep (r : Req)
  /-- R437. Command STANDBY moves Stile to Standby, cancelling a latched or running transmission. -/
  | stileStandby (r : Req)
  /-- R437. Command SYNTH moves Stile to Synth, calibrating the VCO band from Standby. -/
  | stileSynth (r : Req)
  /-- R437. Command RX moves Stile to receive, or is refused while a TX is latched. -/
  | stileRx (r : Req)
  /-- R438. Command TX sends the transmit buffer, latching until lock or being refused under R439. -/
  | stileTx (r : Req)
  /-- R437. A Stile transition through crystal start, Standby or Synth settling completes. -/
  | stileStateReached (t : Nat)
  /-- R438. When the synthesiser locks, a latched transmission starts. -/
  | stileSynthLock (t : Nat)
  /-- R438. A latched TX without lock when TX_WAIT expires is aborted with LASTRES 2. -/
  | stileTxWaitTimeout
  /-- R440. After a packet is sent the radio moves to TXNEXT. -/
  | stilePacketSent (t : Nat)
  /-- R441. A detected preamble chooses the aerial and settles the AGC. -/
  | stilePreambleDetect (rssi0 rssi1 : Int) (t : Nat)
  /-- R442. At sync detection the AGC freezes, SYNCD is set and the frequency estimate is applied. -/
  | stileSyncDetect (off rssi : Int) (t : Nat)
  /-- R436. A received packet is checked and filtered and delivered to a buffer with the Stile interrupt, or discarded and counted. -/
  | stilePacketRx (bytes : List Nat) (lqi evm t : Nat)
  /-- R440. RX without sync for RXTO ms returns to Standby. -/
  | stileRxTimeout
  /-- R446. Every sniff period Bell listens for 0.5 ms and stays on if it finds a preamble. -/
  | bellSniff (found : Bool) (t : Nat)
  /-- R446. With no start byte within one period plus 30 ms, Bell sleeps and counts it. -/
  | bellStartTimeout
  /-- R447. A received wake frame is checked and matched against the unicast and group codes. -/
  | bellFrame (code chk : BitVec 16) (t : Nat)
  /-- R449. Within 10 ms of the match the Hearth answer ends, HEARTH clears and Stile sleeps. -/
  | hearthAnswerEnd (t : Nat)
  /-- R453. RESET_L low holds every block outside the Hearth domain in reset. -/
  | resetLAssert (t : Nat)
  /-- R453. At the end of a device reset the straps are sampled, WAKE_OUT is asserted and the wake sequencer runs. -/
  | resetEnd (straps : BitVec 8) (t : Nat)
  /-- R453. Hearth power-up from the absence of both backup supplies resets the HTH and BEL fields and the counters. -/
  | hearthPowerUp (t : Nat)
  /-- R455. A write of DEV to SYS_RST causes a device reset 10 µs later. -/
  | sysRstDev (r : Req) (v : Word)
  /-- R453. A device reset from any source holds the part in reset and records its cause. -/
  | deviceReset
  /-- R471. A write of REEVE to SYS_RST, or a Reeve double fault with REEVERST, halts and reloads the Reeve while the hamlets run. -/
  | reeveRestart (r : Req) (v : Word)
  /-- R459. When a Reeve image's payload has been read and accepted, the boot ROM protects it and jumps to ENTRY. -/
  | bootImageAccepted (slot : Fin 3) (img : List Nat) (t : Nat)
  /-- R461. With no image accepted, the boot ROM records the failure and asserts FAULT_L. -/
  | bootFailure (result : Fin 8) (t : Nat)
  /-- R461. Every 60 s after a failed boot the boot ROM retries the sources. -/
  | bootRetry
  /-- R459. With no image within 10 s of UP on the Lanied link, the boot ROM retrains and waits again. -/
  | bootLinkTimeout (t : Nat)
  /-- R462. Command VERIFY checks an image and copies and protects it in a hamlet or Reeve SRAM. -/
  | agtVerify (r : Req) (arg : BitVec 8)
  /-- R462. Command RELEASE removes a hamlet's image protection and clears AGT_HIMGh. -/
  | agtRelease (r : Req) (arg : BitVec 8)
  /-- R464. Command ADVANCE raises the Hearth anti-rollback counter. -/
  | agtAdvance (r : Req) (arg : BitVec 8)
  /-- R464. Command BURN raises the fuse counter to the Hearth counter. -/
  | agtBurn (r : Req) (arg : BitVec 8)
  /-- R462. Command REVOKE burns a key slot's revocation fuse. -/
  | agtRevoke (r : Req) (arg : BitVec 8)
  /-- R462. Command PROGKEY fuses a key hash into an empty slot. -/
  | agtProgkey (r : Req) (arg : BitVec 8)
  /-- R465. Command LCSADV advances the lifecycle, effective at the next device reset. -/
  | agtLcsadv (r : Req) (arg : BitVec 8)
  /-- R466. Command ATTEST writes a signed attestation report with the given nonce. -/
  | agtAttest (r : Req) (arg : BitVec 8)
  /-- R462. Command IDKEY writes the identity public key. -/
  | agtIdkey (r : Req) (arg : BitVec 8)
  /-- R462. Command CERT writes the identity certificate and its length. -/
  | agtCert (r : Req) (arg : BitVec 8)
  /-- R467. Command SOPEN answers a HELLO with a signed ACCEPT and opens a session. -/
  | agtSopen (r : Req) (arg : BitVec 8)
  /-- R468. Command SRECV authenticates and opens a session record or the handset's key. -/
  | agtSrecv (r : Req) (arg : BitVec 8)
  /-- R468. Command SSEND seals a record, or with ARG 1 authorises the handset key. -/
  | agtSsend (r : Req) (arg : BitVec 8)
  /-- R468. Command SCLOSE closes the session and erases its keys. -/
  | agtSclose (r : Req) (arg : BitVec 8)
  /-- R462. When an Agate command ends, DONE and RESULT are set and the Reeve is interrupted. -/
  | agateCommandEnd (fuses t : Nat)
  /-- R468. A session without an accepted record for 60 s closes and its keys are erased. -/
  | sessionTimeout
  /-- R470. A machine-level write of PREF or CONFIRM starts or ends a trial boot of a slot. -/
  | bootRecordWrite (r : Req) (v : Word)
  /-- R477. OP 1 clears ACTIVE of a log entry and sends its cease indication. -/
  | fltCease (r : Req) (arg : BitVec 8)
  /-- R479. OP 2 ends the current recovery and makes the head of the queue current. -/
  | fltEndRecovery (r : Req) (arg : BitVec 8)
  /-- R482. OP 3 requests isolation of a hamlet. -/
  | fltIsolate (r : Req) (arg : BitVec 8)
  /-- R485. OP 4 runs a safety clear of one hamlet or of every hamlet. -/
  | fltSafetyClear (r : Req) (arg : BitVec 8)
  /-- R475. OP 5 raises the program fault described in FLT_SWF and FLT_SWINFO. -/
  | fltRaiseSoftware (r : Req) (arg : BitVec 8)
  /-- R485. OP 6 ends the safety state of a hamlet that is not isolated, or of every such hamlet. -/
  | fltEndSafety (r : Req) (arg : BitVec 8)
  /-- R483. Isolation freezes the hamlet, stops its engine and DMA, clears HMASK, starts the safety ramp and cancels pending work. -/
  | isolationStart (h : Fin 8)
  /-- R483. When the safety ramp completes, the bias channels clear, pins go SAFE, claims and the ORx are released and engine locks are freed broken. -/
  | isolationAfterRamp (h : Fin 8)
  /-- R483. When the deep flow has ended, ISOh is set and notice 0x438 is raised. -/
  | isolationComplete (h : Fin 8)
  /-- R487. When the link returns to UP, the waiting event indications are sent oldest first. -/
  | eventIndicationFlush
  /-- R231. A Tally window that is expected in its 4 µs cycle but does not arrive counts as missing, and after 8 bad or missing windows the hop goes down. -/
  | tallyWindowMissed (up : Bool)
  /-- R420. An FM channel gains or loses RDS group and block synchronisation, which sets or clears SYNC and makes Q 0 while unsynchronised. -/
  | rdsSynchronisation (n : Fin 2) (on : Bool)
  /-- R421. The digital demodulator gains or loses lock on its DAB or DVB signal, which sets or clears LOCK of WCH_DIG_STAT. -/
  | demodulatorLock (on : Bool)
  /-- R504. An IEEE 1149.1 operation clocked on TCK reads IDCODE, or drives or samples the boundary register and EXTEST pulses on the balls. -/
  | testAccessPortOperation (op : Fin 7) (cells : List (Nat × Bool)) (seen : List Bool)
  deriving DecidableEq, Repr

end Sys2Proof
end

