-- ==== Sys2Proof/Decode.lean ====
section
/-!
DEFINITION. The words of the opcode table, and the words of the engines. The part is a block: the table gives its rows no bits, because its commands are register accesses,
messages, events and instants, and none of them is spelled by a word of the table. The words that an engine fetches from memory (R247, R248, R256) spell the commands that stand for its
instructions.
-/

namespace Sys2Proof

/-- The command that a word spells by the table's bits: no row of the table gives bits, so no word spells one. -/
def decodeTableWord (_nbits _w : Nat) : Option Instr := none

/-! ### The instruction words of the engines (R247, R256) -/

/-- The `n` bits of a word from bit `lo` on. -/
def wField (w lo n : Nat) : Nat := w / 2 ^ lo % 2 ^ n

/-- The register that five bits from bit `lo` on name. -/
def wReg (w lo : Nat) : Fin 32 := Fin.ofNat 32 (wField w lo 5)

/-- The three bits from bit `lo` on. -/
def w3 (w lo : Nat) : Fin 8 := Fin.ofNat 8 (wField w lo 3)

/-- The two bits from bit `lo` on. -/
def w2 (w lo : Nat) : Fin 4 := Fin.ofNat 4 (wField w lo 2)

/-- Format R, OP 0x00: rd, ra, rb, FN. -/
def wimakoR (e : Fin 9) (w : Nat) : Option Instr :=
  let rd := wReg w 21
  let ra := wReg w 16
  let rb := wReg w 11
  match wField w 0 11 with
  | 0x001 => some (.add e rd ra rb)
  | 0x002 => some (.sub e rd ra rb)
  | 0x015 => some (.addc e rd ra rb)
  | 0x016 => some (.subc e rd ra rb)
  | 0x003 => some (.and e rd ra rb)
  | 0x004 => some (.or e rd ra rb)
  | 0x005 => some (.xor e rd ra rb)
  | 0x006 => some (.sll e rd ra rb)
  | 0x007 => some (.srl e rd ra rb)
  | 0x008 => some (.sra e rd ra rb)
  | 0x009 => some (.slli e rd ra rb)
  | 0x00A => some (.srli e rd ra rb)
  | 0x00B => some (.srai e rd ra rb)
  | 0x00C => some (.slt e rd ra rb)
  | 0x00D => some (.sltu e rd ra rb)
  | 0x00E => some (.mul e rd ra rb)
  | 0x00F => some (.mulh e rd ra rb)
  | 0x010 => some (.mulhu e rd ra rb)
  | 0x011 => some (.min e rd ra rb)
  | 0x012 => some (.max e rd ra rb)
  | 0x013 => some (.abs e rd ra)
  | 0x014 => some (.clz e rd ra)
  | 0x020 => some (.jr e ra)
  | 0x021 => some (.jalr e rd ra)
  | _ => none

/-- Format X, OP 0x18: FN, acc, ra, rb, sh or part, rd. -/
def wimakoX (e : Fin 9) (w : Nat) : Option Instr :=
  let acc := w2 w 20
  let ra := wReg w 15
  let rb := wReg w 10
  let sh := wReg w 5
  let rd := wReg w 0
  match wField w 22 4 with
  | 0 => some (.cmac e acc ra rb)
  | 1 => some (.cmacc e acc ra rb)
  | 2 => some (.dmac e acc ra rb)
  | 3 => some (.cmul e acc ra rb)
  | 4 => some (.clracc e acc)
  | 5 => some (.ext e acc sh rd)
  | 6 => some (.extr e acc sh rd)
  | 7 => some (.mfacc e acc sh rd)
  | 8 => some (.mtacc e acc sh ra)
  | _ => none

/-- Format S, OP 0x19: FN, acc, rd, ax, ay, rc, MODE. The number of elements after which an exception or interrupt cuts the instruction short is no part of the word. -/
def wimakoS (e : Fin 9) (w : Nat) : Option Instr :=
  let acc := w2 w 20
  let rd := wReg w 15
  let ax := w3 w 12
  let ay := w3 w 9
  let rc := wReg w 4
  let mode : Fin 16 := Fin.ofNat 16 (wField w 0 4)
  match wField w 22 4 with
  | 0 => some (.smac e acc ax ay rc 0)
  | 1 => some (.smacc e acc ax ay rc 0)
  | 2 => some (.smax e rd ax ay rc mode 0)
  | 3 => some (.smin e rd ax ay rc mode 0)
  | _ => none

/-- OP 0x1C in format R: time. -/
def wimakoT (e : Fin 9) (w : Nat) : Option Instr :=
  match wField w 0 11 with
  | 0 => some (.rdt e (wReg w 21))
  | 1 => some (.waitt e (wReg w 21) (wReg w 16) (wReg w 11))
  | 2 => some (.sched e (wReg w 21) (wReg w 16) (wReg w 11))
  | _ => none

/-- OP 0x3E in format Y: the fences. -/
def wimakoF (e : Fin 9) (w : Nat) : Option Instr :=
  match wField w 0 11 with
  | 1 => some (.fenceR e)
  | 2 => some (.fenceW e)
  | 3 => some (.fenceRw e)
  | 4 => some (.fenceIo e)
  | 5 => some (.fenceDma e)
  | _ => none

/-- OP 0x3F in format Y: rd, CSR or ra and rb, FN. -/
def wimakoY (e : Fin 9) (w : Nat) : Option Instr :=
  let rd := wReg w 21
  let csr := BitVec.ofNat 10 (wField w 11 10)
  match wField w 0 11 with
  | 1 => some (.ret e)
  | 2 => some (.mfc e rd csr)
  | 3 => some (.mtc e rd csr)
  | 4 => some (.wait e rd)
  | 5 => some (.tlbi e (wReg w 16) (wReg w 11))
  | 6 => some (.tlbia e (wReg w 16))
  | 7 => some (.tlbiall e)
  | 8 => some (.mtrap e)
  | 9 => some (.brk e)
  | _ => none

/-- The instruction that a word spells at engine `e` (R247, R256); none for an OP or FN that the instruction list does not have, the word 0 among them (R248). A field that must be
zero is an operand here, judged by the instruction's meaning; a field for which the list states nothing is not read (log 136). -/
def wimakoDecode (e : Fin 9) (w : Nat) : Option Instr :=
  let rd := wReg w 21
  let ra := wReg w 16
  let imm := BitVec.ofNat 16 (wField w 0 16)
  let off := BitVec.ofNat 26 (wField w 0 26)
  match wField w 26 6 with
  | 0x00 => wimakoR e w
  | 0x01 => some (.addi e rd ra imm)
  | 0x02 => some (.andi e rd ra imm)
  | 0x03 => some (.ori e rd ra imm)
  | 0x04 => some (.xori e rd ra imm)
  | 0x05 => some (.lui e rd ra imm)
  | 0x06 => some (.slti e rd ra imm)
  | 0x08 => some (.beq e rd ra imm)
  | 0x09 => some (.bne e rd ra imm)
  | 0x0A => some (.blt e rd ra imm)
  | 0x0B => some (.bge e rd ra imm)
  | 0x0C => some (.bltu e rd ra imm)
  | 0x0D => some (.bgeu e rd ra imm)
  | 0x0E => some (.j e off)
  | 0x0F => some (.jal e off)
  | 0x10 => some (.ld e rd (w3 w 18) (w2 w 16) (w2 w 14) (BitVec.ofNat 14 (wField w 0 14)))
  | 0x11 => some (.ldu e rd (w3 w 18) (w2 w 16) (w2 w 14) (BitVec.ofNat 14 (wField w 0 14)))
  | 0x12 => some (.st e rd (w3 w 18) (w2 w 16) (w2 w 14) (BitVec.ofNat 14 (wField w 0 14)))
  | 0x14 => some (.seta e (w3 w 23) (w2 w 21) ra imm)
  | 0x15 => some (.geta e (w3 w 23) (w2 w 21) ra imm)
  | 0x16 => some (.adda e (w3 w 23) (w2 w 21) ra imm)
  | 0x18 => wimakoX e w
  | 0x19 => wimakoS e w
  | 0x1C => wimakoT e w
  | 0x3D => some (.trap e rd ra imm)
  | 0x3E => wimakoF e w
  | 0x3F => wimakoY e w
  | _ => none

/-- Is a fetched word an instruction (R248)? -/
def wimakoWord (e : Fin 9) (w : Nat) : Bool := (wimakoDecode e w).isSome

end Sys2Proof
end

