-- ==== Sys2Proof/Machine/Operands.lean ====
section
/-!
DEFINITION. The operand and number formats of the signal paths and of the link: convergent rounding and saturation, the
compressed PRB, subcarrier bins, prefix and window lengths, PAM4 levels, Q1.15 gains.
-/

namespace Sys2Proof.Machine

/-! ### Rounding (R87, R120) -/

/-- `n / d` rounded convergently: to the nearest integer, ties to even. -/
def roundEven (n : Int) (d : Nat) : Int :=
  let q := n / (d : Int)
  let r := 2 * (n % (d : Int))
  if r < d then q else if (d : Int) < r then q + 1 else if q % 2 = 0 then q else q + 1

/-- A rounded value in `w` bits, and whether it saturated. -/
def roundSat (w : Nat) (n : Int) (d : Nat) : Int × Bool :=
  let v := roundEven n d
  (clampS w v, clampS w v != v)

/-- `w1 * w2` of two complex numbers. -/
def cmul (a b : Int × Int) : Int × Int := (a.1 * b.1 - a.2 * b.2, a.1 * b.2 + a.2 * b.1)

/-- Sum of two complex numbers. -/
def cadd (a b : Int × Int) : Int × Int := (a.1 + b.1, a.2 + b.2)

/-! ### Bit strings, most significant bit first -/

/-- Fields (value, width) joined into a bit string: its number and its length. -/
def packBits (l : List (Nat × Nat)) : Nat × Nat :=
  l.foldl (fun p f => (p.1 * 2 ^ f.2 + f.1 % 2 ^ f.2, p.2 + f.2)) (0, 0)

/-- A bit string as 32-bit words, completed with zero bits. -/
def toWords (p : Nat × Nat) : List Nat :=
  let n := (p.2 + 31) / 32
  let v := p.1 * 2 ^ (32 * n - p.2)
  (List.range n).map fun i => v / 2 ^ (32 * (n - 1 - i)) % 2 ^ 32

/-- Bits `pos` to `pos + w - 1` of a string of `total` bits. -/
def sliceBits (v total pos w : Nat) : Nat := v / 2 ^ (total - pos - w) % 2 ^ w

/-- The number that words spell. -/
def wordsNat (ws : List Word) : Nat := ws.foldl (fun n w => n * 2 ^ 32 + w.toNat) 0

/-! ### Compressed PRBs (R88, R134) -/

/-- PRB `p` of a packed payload with mantissas of `mw` bits: I and Q of each subcarrier in turn, then E (log 21). -/
def unpackPrb (v total mw p : Nat) : PrbData :=
  let base := p * (24 * mw + 4)
  { i := (List.range 12).map fun k => signed mw (sliceBits v total (base + 2 * k * mw) mw),
    q := (List.range 12).map fun k => signed mw (sliceBits v total (base + (2 * k + 1) * mw) mw),
    e := sliceBits v total (base + 24 * mw) 4 }

/-- Words that `n` PRBs of `mw` bits take (R134, R192). -/
def prbWords (mw n : Nat) : Nat := (n * (24 * mw + 4) + 31) / 32

/-- The smallest exponent for which every mantissa fits in `mw` bits, searched from `e` up to 15. -/
def bfpExp (mw : Nat) (vs : List Int) : Nat → Nat → Nat
  | 0, e => e
  | n + 1, e =>
    if vs.all (fun v => clampS mw (roundEven v (2 ^ e)) == roundEven v (2 ^ e)) then e else bfpExp mw vs n (e + 1)

/-- Twelve complex values of 16 bits, compressed: 24 mantissas of `mw` bits and E, as bit fields (R134). -/
def compress (mw : Nat) (vs : List (Int × Int)) : List (Nat × Nat) :=
  let e := bfpExp mw (vs.flatMap fun v => [v.1, v.2]) 15 0
  (vs.flatMap fun v => [(unsigned mw (roundEven v.1 (2 ^ e)), mw), (unsigned mw (roundEven v.2 (2 ^ e)), mw)]) ++ [(e, 4)]

/-! ### The iFFT and the FFT (R92 to R96, R132) -/

/-- N of an FFT size code (R92). -/
def fftN (fftsz : Nat) : Nat := 128 * 2 ^ fftsz

/-- The signed bin index of subcarrier `k` (R93): an LTE carrier leaves bin 0 unused. -/
def binOf (lte : Bool) (nrb k : Nat) : Int :=
  if lte && 6 * nrb ≤ k then (k : Int) - 6 * nrb + 1 else (k : Int) - 6 * nrb

/-- The iFFT bin of subcarrier `k` (R93). -/
def binIndex (lte : Bool) (nrb n k : Nat) : Nat := (binOf lte nrb k % (n : Int)).toNat

/-- N_CP of a symbol (R95): `sym` counts within the subframe. -/
def cpLen (num : Nat) (ecp : Bool) (n sym : Nat) : Nat :=
  if ecp then 512 * n / 2048
  else if sym % (7 * 2 ^ num) = 0 then 144 * n / 2048 + 16 * 2 ^ num * n / 2048 else 144 * n / 2048

/-- The window length W of a WIN code (R96). -/
def winLen (win n : Nat) : Nat :=
  if win = 1 then n / 512 else if win = 2 then n / 256 else if win = 3 then n / 128 else if win = 4 then n / 64 else 0

/-- SHIFT as applied: 13 to 15 act as 12 (R93, R133). -/
def shiftOf (v : Nat) : Nat := min v 12

/-- The FFT window advance in samples (R132). -/
def cpAdvance (cpoffs num : Nat) (ecp : Bool) (n : Nat) : Nat := cpoffs * cpLen num ecp n 1 / 16

/-! ### Predistortion (R109) -/

/-- T, the number of terms of the memory polynomial. -/
def dpdTerms (k m l : Nat) : Nat := k * m + 2 * (k - 1) * m * l

/-- The coefficient index of a_km. -/
def dpdA (m kk mm : Nat) : Nat := kk * m + mm

/-- The coefficient index of b_kml. -/
def dpdB (k m l kk mm ll : Nat) : Nat := k * m + ((kk - 1) * m + mm) * l + (ll - 1)

/-- The coefficient index of c_kml. -/
def dpdC (k m l kk mm ll : Nat) : Nat := dpdB k m l kk mm ll + (k - 1) * m * l

/-! ### PAM4 (R173) -/

/-- The level of a pair of bits, the first the more significant. -/
def gray (b1 b0 : Bool) : Nat := if b1 then (if b0 then 2 else 3) else (if b0 then 1 else 0)

/-- The precoded levels of a sequence, from the precoder state `p`. -/
def precode (p : Nat) : List Nat → List Nat
  | [] => []
  | g :: t => (g + 4 - p) % 4 :: precode ((g + 4 - p) % 4) t

/-- The levels a receiver recovers from precoded ones. -/
def unprecode (p : Nat) : List Nat → List Nat
  | [] => []
  | x :: t => (x + p) % 4 :: unprecode x t

/-- The marker of logical lane `l` (R178). -/
def laneMarker (l : Nat) : Nat := 0xC5A396F03A5C690F ^^^ (l * 0x1111111111111111)

/-- The logical lane and the place on it of PAM4 symbol `j` of a codeword (R177). -/
def laneOf (seven : Bool) (j : Nat) : Nat × Nat := if seven then (j % 7, j / 7) else (j % 8, j / 8)

end Sys2Proof.Machine
end

