-- ==== Sys2Proof/Machine/Regs.lean ====
section
/-!
DEFINITION. The register map: every functional register of the 33 register blocks, its place (R35, R36, R37), and
every field of it with its bits, its access type (R8) and its reset value (R7), as the register tables of spec/ give them.
`Reg.X` is the address of register X: absolute for a global block, the offset in the hamlet window for a hamlet block.
`Fld.X_F` is field F of register X. A register that exists n times has its strides in `dims`.
Where a table gives a reset value as "fuse", "strap", "retention" or by a rule on the index, the constant here says 0 and
`specialReset` (Machine/Ops.lean) or the state itself supplies the value.
-/

namespace Sys2Proof.Machine

namespace Reg
-- 02_address_map.md, R47
abbrev SYS_BADACC_ADDR : Nat := 0x4000040
abbrev SYS_BADACC_INFO : Nat := 0x4000044
abbrev SYS_BADACC_CNT : Nat := 0x4000048
-- 02_address_map.md, R52
abbrev SYS_PART : Nat := 0x4000010
abbrev SYS_STEP : Nat := 0x4000014
abbrev SYS_UID_LO : Nat := 0x4000018
abbrev SYS_UID_HI : Nat := 0x400001C
-- 03_beams_and_timeline.md, R53
abbrev LNK_CAR_CFGn : Nat := 0x40A0400
abbrev LNK_CAR_COMMIT : Nat := 0x40A0420
-- 03_beams_and_timeline.md, R61
abbrev LNK_RTC_REJ : Nat := 0x40A0430
abbrev LNK_RTC_CNTn : Nat := 0x40A0440
-- 03_beams_and_timeline.md, R67
abbrev BFM_BASES : Nat := 0x850010
abbrev BFM_COMMIT_RANGE : Nat := 0x850020
abbrev BFM_COMMIT_AT : Nat := 0x850024
abbrev BFM_COMMIT_CTRL : Nat := 0x850028
abbrev BFM_COMMIT_STAT : Nat := 0x85002C
abbrev BFM_EXPn : Nat := 0x851000
abbrev BFM_SEXPn : Nat := 0x852000
-- 03_beams_and_timeline.md, R70
abbrev LNK_WCFG : Nat := 0x40A0468
-- 03_beams_and_timeline.md, R74
abbrev LNK_ULC_CFG : Nat := 0x40A0460
abbrev LNK_ULC_STAT : Nat := 0x40A0464
-- 03_beams_and_timeline.md, R82
abbrev SLT_CFG : Nat := 0x860010
abbrev SLT_CTRL : Nat := 0x860014
abbrev SLT_STAT : Nat := 0x860018
abbrev SLT_EDIT : Nat := 0x860020
abbrev SLT_POS : Nat := 0x86001C
abbrev SLT_CNT : Nat := 0x860024
abbrev SLT_STAGEn : Nat := 0x860100
-- 03_beams_and_timeline.md, R83
abbrev SLT_GAINCFG : Nat := 0x860030
abbrev SLT_GAINPAT : Nat := 0x860034
-- 03_beams_and_timeline.md, R84
abbrev FEP_SAFE : Nat := 0x8D0010
abbrev FEP_CLAIM : Nat := 0x8D0014
abbrev FEP_CLAIM_STAT : Nat := 0x8D0018
abbrev FEP_OWNn : Nat := 0x8D0020
abbrev FEP_GPIO : Nat := 0x8D0028
abbrev FEP_LEVEL : Nat := 0x8D002C
-- 04_transmit_chain.md, R91
abbrev LNK_DL_CFG : Nat := 0x40A0480
abbrev LNK_DL_STAT : Nat := 0x40A0484
abbrev LNK_DL_CNTn : Nat := 0x40A0490
abbrev LNK_DL_CARn : Nat := 0x40A04B0
-- 04_transmit_chain.md, R99
abbrev TXC_NCO_FREQ : Nat := 0x870010
abbrev TXC_CARn : Nat := 0x870020
abbrev TXC_CNCOn : Nat := 0x870040
-- 04_transmit_chain.md, R103
abbrev TXC_FSWAP : Nat := 0x870060
abbrev TXC_FSTAT : Nat := 0x870064
abbrev TXC_COEF : Nat := 0x872000
-- 04_transmit_chain.md, R106
abbrev TXC_PATHk : Nat := 0x870080
abbrev TXC_TRIMk : Nat := 0x8700A0
-- 04_transmit_chain.md, R108
abbrev TXC_CFR_CFG : Nat := 0x8700C0
abbrev TXC_CFR_CLIP : Nat := 0x8700C4
abbrev TXC_CFR_SWAP : Nat := 0x8700C8
abbrev TXC_CFR_STAT : Nat := 0x8700CC
abbrev TXC_PULSE : Nat := 0x874000
-- 04_transmit_chain.md, R112
abbrev DPD_CFG : Nat := 0x8A0010
abbrev DPD_SWAPk : Nat := 0x8A0020
abbrev DPD_STATk : Nat := 0x8A0040
abbrev DPD_COEF : Nat := 0x8A4000
-- 04_transmit_chain.md, R113
abbrev TXC_CTRL : Nat := 0x870014
-- 04_transmit_chain.md, R115
abbrev TXC_STAT : Nat := 0x870100
abbrev TXC_UNLOCK_CNT : Nat := 0x870104
abbrev TXC_SATSRC : Nat := 0x870108
abbrev TXC_SATk : Nat := 0x8700E0
abbrev TXC_CLIPk : Nat := 0x870110
-- 05_receive_chain.md, R127
abbrev RXC_NCO_FREQ : Nat := 0x880010
abbrev RXC_CTRL : Nat := 0x880014
abbrev RXC_CNCOn : Nat := 0x880040
-- 05_receive_chain.md, R129
abbrev RXC_GCOMPk_g : Nat := 0x8800C0
abbrev RXC_TRIMk : Nat := 0x8800A0
-- 05_receive_chain.md, R131
abbrev RXC_FSWAP : Nat := 0x880060
abbrev RXC_FSTAT : Nat := 0x880064
abbrev RXC_COEF : Nat := 0x882000
-- 05_receive_chain.md, R133
abbrev RXC_CARn : Nat := 0x880020
-- 05_receive_chain.md, R137
abbrev LNK_UL_CARn : Nat := 0x40A04D0
abbrev LNK_UL_CNTn : Nat := 0x40A04F0
-- 05_receive_chain.md, R141
abbrev LNK_PRA_CFGm : Nat := 0x40A0510
abbrev LNK_PRA_BEAMm_i : Nat := 0x40A0520
abbrev LNK_PRA_TIMEm : Nat := 0x40A0540
abbrev LNK_PRA_LENm : Nat := 0x40A0550
abbrev LNK_PRA_OCCj : Nat := 0x40A0560
-- 05_receive_chain.md, R142
abbrev RXC_STAT : Nat := 0x880200
abbrev RXC_UNLOCK_CNT : Nat := 0x880204
abbrev RXC_OVRk : Nat := 0x880210
abbrev RXC_SATk : Nat := 0x880230
abbrev RXC_PEAKk : Nat := 0x880250
-- 06_observation_and_dpd.md, R149
abbrev ORX_NCO_FREQ : Nat := 0x890010
-- 06_observation_and_dpd.md, R152
abbrev ORX_SW : Nat := 0x890014
abbrev ORX_SWPAT : Nat := 0x890018
abbrev ORX_CLAIM : Nat := 0x890020
-- 06_observation_and_dpd.md, R157
abbrev ORX_CSETn : Nat := 0x890040
abbrev ORX_TRIG : Nat := 0x890024
-- 06_observation_and_dpd.md, R158
abbrev ORX_RING : Nat := 0x89001C
-- 06_observation_and_dpd.md, R160
abbrev ORX_CREC_POS : Nat := 0x8900A0
abbrev ORX_CREC_LEN : Nat := 0x8900A4
abbrev ORX_CREC_T0 : Nat := 0x8900A8
abbrev ORX_CREC_T1 : Nat := 0x8900AC
abbrev ORX_CREC_NEXT : Nat := 0x8900B0
-- 06_observation_and_dpd.md, R168
abbrev ORX_DF : Nat := 0x8900C0
abbrev ORX_DFSTAT : Nat := 0x8900C4
abbrev ORX_STAT : Nat := 0x890028
abbrev ORX_CNTn : Nat := 0x890080
-- 07_lanied_link.md, R175
abbrev LNK_CTRL : Nat := 0x40A0010
abbrev LNK_STAT : Nat := 0x40A0014
abbrev LNK_CAP : Nat := 0x40A0018
-- 07_lanied_link.md, R188
abbrev LNK_FLOWf_CFG : Nat := 0x40A2000
abbrev LNK_FLOWf_STAT : Nat := 0x40A2004
-- 07_lanied_link.md, R189
abbrev LNK_PARTn : Nat := 0x40A05C0
-- 07_lanied_link.md, R198
abbrev LNK_GWn_BASE : Nat := 0x40A0600
abbrev LNK_GWn_LIM : Nat := 0x40A0604
abbrev LNK_GWn_CTRL : Nat := 0x40A0608
-- 07_lanied_link.md, R205
abbrev LNK_LANEMAP_TX : Nat := 0x40A0020
abbrev LNK_LANEMAP_RX : Nat := 0x40A0024
abbrev LNK_AUXMAP : Nat := 0x40A0028
abbrev LNK_PLANEn : Nat := 0x40A0040
-- 07_lanied_link.md, R206
abbrev LNK_CNTn : Nat := 0x40A0100
-- 08_time_and_tally.md, R209
abbrev TIM_NOW_NS : Nat := 0x4080010
abbrev TIM_NOW_SLO : Nat := 0x4080014
abbrev TIM_NOW_SHI : Nat := 0x4080018
-- 08_time_and_tally.md, R211
abbrev TIM_UTC : Nat := 0x4080020
abbrev TIM_UTC_AT : Nat := 0x4080024
abbrev TIM_FRAME : Nat := 0x4080028
-- 08_time_and_tally.md, R215
abbrev TIM_L0RX : Nat := 0x4080140
abbrev TIM_L0TX : Nat := 0x4080144
abbrev MGP_RXRING : Nat := 0x40B0020
abbrev MGP_TXRING : Nat := 0x40B0024
abbrev TIM_L0RXP : Nat := 0x4080148
abbrev TIM_L0TXP : Nat := 0x408014C
abbrev MGP_RXPTR : Nat := 0x40B0028
abbrev MGP_TXPTR : Nat := 0x40B002C
-- 08_time_and_tally.md, R216
abbrev MGP_CFG : Nat := 0x40B0010
abbrev MGP_STAT : Nat := 0x40B0014
abbrev MGP_CNTn : Nat := 0x40B0040
-- 08_time_and_tally.md, R223
abbrev TIM_CFG : Nat := 0x4080030
abbrev TIM_JUMP : Nat := 0x4080034
abbrev TIM_WBOUND : Nat := 0x4080038
abbrev TIM_MEAS_NS : Nat := 0x4080040
abbrev TIM_MEAS_SEC : Nat := 0x4080044
abbrev TIM_MEAS_CTRL : Nat := 0x4080048
abbrev TIM_STEPCTL : Nat := 0x408004C
abbrev TIM_STAT : Nat := 0x4080050
abbrev TIM_SRCSTAT : Nat := 0x4080054
abbrev TIM_OFFS : Nat := 0x4080058
abbrev TIM_HOLDSEC : Nat := 0x408005C
abbrev TIM_VCXO : Nat := 0x4080060
abbrev TIM_VCXO_CAL : Nat := 0x4080064
abbrev TIM_STEER : Nat := 0x4080068
abbrev TIM_TCOMPn : Nat := 0x4080070
abbrev TIM_ASYMp : Nat := 0x40800B0
abbrev TIM_CNTn : Nat := 0x4080100
abbrev TIM_CAPq_NS : Nat := 0x40800C0
abbrev TIM_CAPq_SLO : Nat := 0x40800C4
abbrev TIM_CAPq_SHI : Nat := 0x40800C8
-- 08_time_and_tally.md, R227
abbrev EVT_STAT : Nat := 0x8B0014
abbrev EVT_CNTn : Nat := 0x8B0018
abbrev EVT_TMRn_CFG : Nat := 0x8B0040
abbrev EVT_TMRn_PER : Nat := 0x8B0044
-- 08_time_and_tally.md, R229
abbrev HTH_CAL_LO : Nat := 0x4100010
abbrev HTH_CAL_HI : Nat := 0x4100014
abbrev HTH_CAL_CTRL : Nat := 0x4100018
abbrev HTH_XCOMP : Nat := 0x410001C
-- 08_time_and_tally.md, R239
abbrev TLY_CFG : Nat := 0x4090010
abbrev TLY_STAT : Nat := 0x4090014
abbrev TLY_HOP : Nat := 0x4090018
abbrev TLY_CMD : Nat := 0x409001C
abbrev TLY_CMD_NS : Nat := 0x4090020
abbrev TLY_CMD_SEC : Nat := 0x4090024
abbrev TLY_CENSUSn : Nat := 0x4090040
abbrev TLY_CNTn : Nat := 0x4090080
-- 09_wimako_engines.md, R271
abbrev MMU_CTXn : Nat := 0x810100
-- 09_wimako_engines.md, R275
abbrev ENG_CTRL : Nat := 0x800010
abbrev ENG_ENTRY : Nat := 0x800014
abbrev ENG_STAT : Nat := 0x800018
abbrev ENG_PC : Nat := 0x80001C
abbrev ENG_IRQCFG : Nat := 0x800020
abbrev ENG_IPEND : Nat := 0x800024
abbrev ENG_SWI : Nat := 0x800028
abbrev ENG_EVQ : Nat := 0x800030
-- 10_hamlet_memory.md, R281
abbrev STO_CE_ADDR : Nat := 0x8E0020
abbrev STO_UE_ADDR : Nat := 0x8E0028
abbrev STO_CE_INFO : Nat := 0x8E0024
abbrev STO_UE_INFO : Nat := 0x8E002C
abbrev STO_CNTn : Nat := 0x8E0040
-- 10_hamlet_memory.md, R286
abbrev STO_CFG : Nat := 0x8E0010
abbrev STO_STAT : Nat := 0x8E0014
abbrev STO_SPAREOUT : Nat := 0x8E0018
abbrev STO_REPAIRn : Nat := 0x8E0100
abbrev STO_INJ_ADDR : Nat := 0x8E0030
abbrev STO_INJ : Nat := 0x8E0034
-- 10_hamlet_memory.md, R293
abbrev ARB_CFG : Nat := 0x830010
abbrev ARB_CTRL : Nat := 0x830014
abbrev ARB_STAT : Nat := 0x830018
abbrev ARB_CNTn : Nat := 0x830020
-- 10_hamlet_memory.md, R304
abbrev LCK_n : Nat := 0x840100
abbrev LCK_HELD : Nat := 0x840010
abbrev LCK_BROKEN : Nat := 0x840014
abbrev LCK_FREE : Nat := 0x840018
-- 11_dma.md, R324
abbrev DMA_CTRL : Nat := 0x820010
abbrev DMA_IRQ : Nat := 0x820014
abbrev DMA_IRQEN : Nat := 0x820018
abbrev DMA_CNTn : Nat := 0x820020
abbrev DMA_CHn_CFG : Nat := 0x820100
abbrev DMA_CHn_DESC : Nat := 0x820104
abbrev DMA_CHn_CUR : Nat := 0x820110
abbrev DMA_CHn_FDESC : Nat := 0x820120
abbrev DMA_CHn_CTRL : Nat := 0x820108
abbrev DMA_CHn_STAT : Nat := 0x82010C
abbrev DMA_CHn_LOOP0 : Nat := 0x820114
abbrev DMA_CHn_LOOP1 : Nat := 0x820118
abbrev DMA_CHn_FADDR : Nat := 0x82011C
abbrev DMA_CHn_RBASE : Nat := 0x820124
abbrev DMA_CHn_RLEN : Nat := 0x820128
abbrev DMA_CHn_RPTR : Nat := 0x82012C
abbrev DMA_CHn_WM : Nat := 0x820130
-- 12_clocks.md, R330
abbrev CLK_REF : Nat := 0x4020010
abbrev CLK_PHADJ : Nat := 0x4020014
-- 12_clocks.md, R335
abbrev PLL_CTRL : Nat := 0x8C0010
abbrev PLL_CFG : Nat := 0x8C0014
abbrev PLL_STAT : Nat := 0x8C0018
abbrev PLL_FORCE : Nat := 0x8C001C
abbrev PLL_CNTn : Nat := 0x8C0040
abbrev PLL_BANDn : Nat := 0x8C0100
-- 12_clocks.md, R336
abbrev CLK_LPLL : Nat := 0x4020018
abbrev CLK_UPLL : Nat := 0x402001C
-- 12_clocks.md, R339
abbrev CLK_OUTn_CFG : Nat := 0x4020040
abbrev CLK_OUTn_DIV : Nat := 0x4020044
-- 13_power_states.md, R346
abbrev PWR_HLDOh : Nat := 0x4010040
-- 13_power_states.md, R362
abbrev PWR_MODE : Nat := 0x4010010
abbrev PWR_HCTRL : Nat := 0x4010014
abbrev PWR_STAT : Nat := 0x4010018
abbrev PWR_HSTATE : Nat := 0x401001C
abbrev PWR_REFUSER : Nat := 0x4010020
abbrev PWR_REFUSE_CNT : Nat := 0x4010024
abbrev PWR_HRSTh : Nat := 0x4010080
abbrev HTH_WAKEREC : Nat := 0x4100020
abbrev HTH_ALARM : Nat := 0x4100024
abbrev HTH_WAKECFG : Nat := 0x4100028
-- 14_thermal.md, R374
abbrev THM_LIMIT : Nat := 0x4030010
abbrev THM_HYST : Nat := 0x4030014
abbrev THM_SDCFG : Nat := 0x4030018
abbrev THM_STAT : Nat := 0x403001C
abbrev THM_CTRL : Nat := 0x4030020
abbrev THM_CNTn : Nat := 0x4030030
abbrev THM_ZONEz : Nat := 0x4030040
abbrev THM_ACTz : Nat := 0x4030080
abbrev THM_SENSn : Nat := 0x4030100
abbrev HTH_THMREC : Nat := 0x410002C
-- 15_housekeeping_and_bias.md, R386
abbrev HKA_ROUND : Nat := 0x4040010
abbrev HKA_STAT : Nat := 0x4040014
abbrev HKA_SEQCTL : Nat := 0x4040020
abbrev HKA_XT : Nat := 0x4040030
abbrev HKA_CNTn : Nat := 0x4040040
abbrev HKA_SUPn : Nat := 0x4040080
abbrev HKA_SEQn : Nat := 0x4040100
abbrev HKA_RESn : Nat := 0x4040200
abbrev HKA_RSTn : Nat := 0x4040204
abbrev HTH_MON_CFG : Nat := 0x4100030
abbrev HTH_MON_VAL : Nat := 0x4100034
-- 15_housekeeping_and_bias.md, R395
abbrev BDA_CTRL : Nat := 0x4050010
abbrev BDA_CHc_CODE : Nat := 0x4050100
abbrev BDA_CHc_CLR : Nat := 0x4050108
abbrev BDA_CHc_CFG : Nat := 0x4050104
abbrev BDA_CHc_SINE : Nat := 0x405010C
abbrev BDA_CHc_SAMP : Nat := 0x4050110
abbrev BDA_CHc_STAT : Nat := 0x4050114
-- 16_calibration_and_repair.md, R398
abbrev CAL_CFG : Nat := 0x4060010
abbrev CAL_REFSTAT : Nat := 0x4060014
-- 16_calibration_and_repair.md, R404
abbrev CAL_REQs : Nat := 0x4060100
abbrev CAL_PARs : Nat := 0x4060104
abbrev CAL_STATs : Nat := 0x4060108
abbrev CAL_CNTn : Nat := 0x4060040
-- 16_calibration_and_repair.md, R407
abbrev CAL_PATHe : Nat := 0x4060400
abbrev CAL_ORXh : Nat := 0x4060500
abbrev CAL_BIASc : Nat := 0x4060580
-- 16_calibration_and_repair.md, R413
abbrev BIST_CMD : Nat := 0x4110010
abbrev BIST_PATS : Nat := 0x4110014
abbrev BIST_SEED_LO : Nat := 0x4110018
abbrev BIST_SEED_HI : Nat := 0x411001C
abbrev BIST_EXPL_LO : Nat := 0x4110020
abbrev BIST_EXPL_HI : Nat := 0x4110024
abbrev BIST_EXPM_LO : Nat := 0x4110028
abbrev BIST_EXPM_HI : Nat := 0x411002C
abbrev BIST_SIGL_LO : Nat := 0x4110030
abbrev BIST_SIGL_HI : Nat := 0x4110034
abbrev BIST_SIGM_LO : Nat := 0x4110038
abbrev BIST_SIGM_HI : Nat := 0x411003C
abbrev BIST_STAT : Nat := 0x4110040
abbrev BIST_FAILn : Nat := 0x4110080
-- 17_watch_receiver.md, R431
abbrev WCH_CTRL : Nat := 0x40C0010
abbrev WCH_STAT : Nat := 0x40C0014
abbrev WCH_CNTn : Nat := 0x40C0040
abbrev WCH_FMn_CFG : Nat := 0x40C0100
abbrev WCH_FMn_FREQ : Nat := 0x40C0104
abbrev WCH_FMn_STAT : Nat := 0x40C0108
abbrev WCH_FMn_PI : Nat := 0x40C010C
abbrev WCH_FMn_PS0 : Nat := 0x40C0110
abbrev WCH_FMn_PS1 : Nat := 0x40C0114
abbrev WCH_FMn_UAF0 : Nat := 0x40C0118
abbrev WCH_FMn_UAF1 : Nat := 0x40C011C
abbrev WCH_DIG_CFG : Nat := 0x40C0200
abbrev WCH_DIG_FREQ : Nat := 0x40C0204
abbrev WCH_DIG_STAT : Nat := 0x40C0208
abbrev WCH_DIG_ID : Nat := 0x40C020C
abbrev WCH_BT_CFG : Nat := 0x40C0300
abbrev WCH_BT_UTC : Nat := 0x40C0304
abbrev WCH_BT_MS : Nat := 0x40C0308
abbrev WCH_BT_NS : Nat := 0x40C030C
abbrev WCH_BT_SEC : Nat := 0x40C0310
abbrev WCH_SW_CFG : Nat := 0x40C0400
abbrev WCH_SW_STAT : Nat := 0x40C0404
abbrev WCH_SWn_FREQ : Nat := 0x40C0500
abbrev WCH_SWn_CFG : Nat := 0x40C0504
abbrev WCH_SWn_THR : Nat := 0x40C0508
abbrev WCH_SWn_RES : Nat := 0x40C050C
-- 18_stile_and_bell.md, R450
abbrev STL_CFG : Nat := 0x40D0010
abbrev STL_FREQ : Nat := 0x40D0014
abbrev STL_PKT : Nat := 0x40D0018
abbrev STL_SYNC : Nat := 0x40D001C
abbrev STL_CMD : Nat := 0x40D0020
abbrev STL_SEQ : Nat := 0x40D0024
abbrev STL_STAT : Nat := 0x40D0028
abbrev STL_TXBUF : Nat := 0x40D0100
abbrev STL_RXBUF : Nat := 0x40D0400
abbrev STL_RXb_INFO : Nat := 0x40D0040
abbrev STL_RXb_QUAL : Nat := 0x40D0044
abbrev STL_CNTn : Nat := 0x40D0060
abbrev BEL_CFG : Nat := 0x40E0010
abbrev BEL_GRPn : Nat := 0x40E0014
abbrev BEL_ANS : Nat := 0x40E0024
abbrev BEL_ASYNC : Nat := 0x40E0028
abbrev BEL_STAT : Nat := 0x40E002C
abbrev BEL_CNTn : Nat := 0x40E0040
-- 19_startup_and_trust.md, R455
abbrev SYS_RSTCAUSE : Nat := 0x4000020
abbrev SYS_RST : Nat := 0x4000024
-- 19_startup_and_trust.md, R463
abbrev AGT_LCS : Nat := 0x40F0010
abbrev AGT_ARB : Nat := 0x40F0014
abbrev AGT_CMD : Nat := 0x40F0020
abbrev AGT_SRC : Nat := 0x40F0024
abbrev AGT_DST : Nat := 0x40F0028
abbrev AGT_LEN : Nat := 0x40F002C
abbrev AGT_STAT : Nat := 0x40F0030
abbrev AGT_HIMGh : Nat := 0x40F0040
-- 19_startup_and_trust.md, R468
abbrev AGT_SESS : Nat := 0x40F0070
-- 20_faults_and_availability.md, R478
abbrev FLT_LOGn_W0 : Nat := 0x4070400
abbrev FLT_LOGn_W1 : Nat := 0x4070404
abbrev FLT_LOGn_W2 : Nat := 0x4070408
abbrev FLT_LOGn_W3 : Nat := 0x407040C
abbrev FLT_LOGn_W4 : Nat := 0x4070410
abbrev FLT_LOGn_W5 : Nat := 0x4070414
-- 20_faults_and_availability.md, R488
abbrev SYS_IRQCFG : Nat := 0x4000080
abbrev SYS_IPEND : Nat := 0x4000084
abbrev SYS_SWI : Nat := 0x4000088
abbrev SYS_EVQ : Nat := 0x400008C
abbrev FLT_CFG : Nat := 0x4070010
abbrev FLT_CTRL : Nat := 0x4070014
abbrev FLT_SWF : Nat := 0x4070024
abbrev FLT_SWINFO : Nat := 0x4070028
abbrev FLT_STAT : Nat := 0x4070018
abbrev FLT_RCV : Nat := 0x407001C
abbrev FLT_CNTn : Nat := 0x4070040
end Reg

namespace Fld
-- 02_address_map.md, R47
def SYS_BADACC_ADDR_ADDR : Field := ⟨0x4000040, 0, 32, .ro, 0x0, [], 0, 1⟩
def SYS_BADACC_INFO_VALID : Field := ⟨0x4000044, 31, 1, .w1c, 0x0, [], 0, 1⟩
def SYS_BADACC_INFO_REASON : Field := ⟨0x4000044, 13, 3, .ro, 0x0, [], 0, 1⟩
def SYS_BADACC_INFO_WRITE : Field := ⟨0x4000044, 12, 1, .ro, 0x0, [], 0, 1⟩
def SYS_BADACC_INFO_SIZE : Field := ⟨0x4000044, 10, 2, .ro, 0x0, [], 0, 1⟩
def SYS_BADACC_INFO_PRIV : Field := ⟨0x4000044, 8, 2, .ro, 0x0, [], 0, 1⟩
def SYS_BADACC_INFO_REQ : Field := ⟨0x4000044, 0, 5, .ro, 0x0, [], 0, 1⟩
def SYS_BADACC_CNT_COUNT : Field := ⟨0x4000048, 0, 32, .rc, 0x0, [], 0, 1⟩
-- 02_address_map.md, R52
def SYS_PART_PART : Field := ⟨0x4000010, 16, 16, .ro, 0x6480, [], 0, 1⟩
def SYS_PART_FAMILY : Field := ⟨0x4000010, 8, 8, .ro, 0xC7, [], 0, 1⟩
def SYS_STEP_GRADE_X : Field := ⟨0x4000014, 16, 1, .ro, 0x0, [], 0, 1⟩
def SYS_STEP_BASE : Field := ⟨0x4000014, 8, 8, .ro, 0x42, [], 0, 1⟩
def SYS_STEP_METAL : Field := ⟨0x4000014, 0, 8, .ro, 0x1, [], 0, 1⟩
def SYS_UID_LO_UID : Field := ⟨0x4000018, 0, 32, .ro, 0x0, [], 0, 1⟩
def SYS_UID_HI_UID : Field := ⟨0x400001C, 0, 32, .ro, 0x0, [], 0, 1⟩
-- 03_beams_and_timeline.md, R53
def LNK_CAR_CFGn_EN : Field := ⟨0x40A0400, 31, 1, .rw, 0x0, [4], 0, 1⟩
def LNK_CAR_CFGn_FDD : Field := ⟨0x40A0400, 30, 1, .rw, 0x0, [4], 0, 1⟩
def LNK_CAR_CFGn_NUM : Field := ⟨0x40A0400, 26, 2, .rw, 0x0, [4], 0, 1⟩
def LNK_CAR_CFGn_LTE : Field := ⟨0x40A0400, 25, 1, .rw, 0x0, [4], 0, 1⟩
def LNK_CAR_CFGn_ECP : Field := ⟨0x40A0400, 24, 1, .rw, 0x0, [4], 0, 1⟩
def LNK_CAR_CFGn_DLL : Field := ⟨0x40A0400, 20, 4, .rw, 0x0, [4], 0, 1⟩
def LNK_CAR_CFGn_ULB : Field := ⟨0x40A0400, 16, 4, .rw, 0x0, [4], 0, 1⟩
def LNK_CAR_CFGn_NRB : Field := ⟨0x40A0400, 0, 9, .rw, 0x0, [4], 0, 1⟩
def LNK_CAR_COMMIT_REFUSED : Field := ⟨0x40A0420, 1, 1, .w1c, 0x0, [], 0, 1⟩
def LNK_CAR_COMMIT_GO : Field := ⟨0x40A0420, 0, 1, .w1s, 0x0, [], 0, 1⟩
-- 03_beams_and_timeline.md, R61
def LNK_RTC_REJ_VALID : Field := ⟨0x40A0430, 31, 1, .w1c, 0x0, [], 0, 1⟩
def LNK_RTC_REJ_REASON : Field := ⟨0x40A0430, 27, 4, .ro, 0x0, [], 0, 1⟩
def LNK_RTC_REJ_DIR : Field := ⟨0x40A0430, 26, 1, .ro, 0x0, [], 0, 1⟩
def LNK_RTC_REJ_CARRIER : Field := ⟨0x40A0430, 23, 3, .ro, 0x0, [], 0, 1⟩
def LNK_RTC_REJ_SECTION_ID : Field := ⟨0x40A0430, 0, 12, .ro, 0x0, [], 0, 1⟩
def LNK_RTC_CNTn_COUNT : Field := ⟨0x40A0440, 0, 32, .rc, 0x0, [4], 0, 1⟩
-- 03_beams_and_timeline.md, R67
def BFM_BASES_WBANK1 : Field := ⟨0x850010, 24, 6, .rwl, 0x1A, [], 0, 1⟩
def BFM_BASES_WBANK0 : Field := ⟨0x850010, 16, 6, .rwl, 0x14, [], 0, 1⟩
def BFM_BASES_SHADOW : Field := ⟨0x850010, 8, 6, .rwl, 0x8, [], 0, 1⟩
def BFM_BASES_SLICE : Field := ⟨0x850010, 0, 6, .rwl, 0x10, [], 0, 1⟩
def BFM_COMMIT_RANGE_COUNT : Field := ⟨0x850020, 16, 14, .rw, 0x0, [], 0, 1⟩
def BFM_COMMIT_RANGE_FIRST : Field := ⟨0x850020, 0, 13, .rw, 0x0, [], 0, 1⟩
def BFM_COMMIT_AT_FRAME : Field := ⟨0x850024, 16, 8, .rw, 0x0, [], 0, 1⟩
def BFM_COMMIT_AT_SUBFRAME : Field := ⟨0x850024, 12, 4, .rw, 0x0, [], 0, 1⟩
def BFM_COMMIT_AT_SLOT : Field := ⟨0x850024, 8, 4, .rw, 0x0, [], 0, 1⟩
def BFM_COMMIT_AT_SYM : Field := ⟨0x850024, 0, 4, .rw, 0x0, [], 0, 1⟩
def BFM_COMMIT_CTRL_CAR : Field := ⟨0x850028, 8, 3, .rw, 0x0, [], 0, 1⟩
def BFM_COMMIT_CTRL_WHEN : Field := ⟨0x850028, 4, 2, .rw, 0x0, [], 0, 1⟩
def BFM_COMMIT_CTRL_GO : Field := ⟨0x850028, 0, 1, .w1s, 0x0, [], 0, 1⟩
def BFM_COMMIT_STAT_CANCEL : Field := ⟨0x85002C, 4, 1, .w1c, 0x0, [], 0, 1⟩
def BFM_COMMIT_STAT_REFUSED : Field := ⟨0x85002C, 3, 1, .w1c, 0x0, [], 0, 1⟩
def BFM_COMMIT_STAT_DONE : Field := ⟨0x85002C, 2, 1, .w1c, 0x0, [], 0, 1⟩
def BFM_COMMIT_STAT_BUSY : Field := ⟨0x85002C, 1, 1, .ro, 0x0, [], 0, 1⟩
def BFM_COMMIT_STAT_PEND : Field := ⟨0x85002C, 0, 1, .ro, 0x0, [], 0, 1⟩
def BFM_EXPn_EXP : Field := ⟨0x851000, 0, 4, .ro, 0x0, [4], 4, 8⟩
def BFM_SEXPn_EXP : Field := ⟨0x852000, 0, 4, .rw, 0x0, [4], 4, 8⟩
-- 03_beams_and_timeline.md, R70
def LNK_WCFG_EN : Field := ⟨0x40A0468, 3, 1, .rw, 0x0, [], 0, 1⟩
def LNK_WCFG_REFCAR : Field := ⟨0x40A0468, 0, 3, .rw, 0x0, [], 0, 1⟩
-- 03_beams_and_timeline.md, R74
def LNK_ULC_CFG_ELEM_FLOW : Field := ⟨0x40A0460, 24, 8, .rw, 0x8, [], 0, 1⟩
def LNK_ULC_CFG_SHIFT : Field := ⟨0x40A0460, 20, 4, .rw, 0x3, [], 0, 1⟩
def LNK_ULC_CFG_RENORM : Field := ⟨0x40A0460, 8, 1, .rw, 0x1, [], 0, 1⟩
def LNK_ULC_CFG_HMASK : Field := ⟨0x40A0460, 0, 8, .rw, 0x0, [], 0, 1⟩
def LNK_ULC_STAT_FACTOR : Field := ⟨0x40A0464, 16, 16, .ro, 0x1000, [], 0, 1⟩
def LNK_ULC_STAT_ELEMS : Field := ⟨0x40A0464, 8, 7, .ro, 0x40, [], 0, 1⟩
def LNK_ULC_STAT_CONTRIB : Field := ⟨0x40A0464, 0, 8, .ro, 0xFF, [], 0, 1⟩
-- 03_beams_and_timeline.md, R82
def SLT_CFG_BASE_B : Field := ⟨0x860010, 24, 6, .rw, 0xF, [], 0, 1⟩
def SLT_CFG_BASE_A : Field := ⟨0x860010, 16, 6, .rw, 0xE, [], 0, 1⟩
def SLT_CFG_FRAMES : Field := ⟨0x860010, 4, 3, .rw, 0x0, [], 0, 1⟩
def SLT_CFG_REFNUM : Field := ⟨0x860010, 0, 2, .rw, 0x1, [], 0, 1⟩
def SLT_CTRL_CHAIN : Field := ⟨0x860014, 2, 1, .rw, 0x0, [], 0, 1⟩
def SLT_CTRL_COMMIT : Field := ⟨0x860014, 1, 1, .w1s, 0x0, [], 0, 1⟩
def SLT_CTRL_ENABLE : Field := ⟨0x860014, 0, 1, .rw, 0x0, [], 0, 1⟩
def SLT_STAT_ERR_ENTRY : Field := ⟨0x860018, 22, 10, .ro, 0x0, [], 0, 1⟩
def SLT_STAT_ERR_CODE : Field := ⟨0x860018, 18, 4, .ro, 0x0, [], 0, 1⟩
def SLT_STAT_CHAINMISS : Field := ⟨0x860018, 6, 1, .w1c, 0x0, [], 0, 1⟩
def SLT_STAT_BADLATCH : Field := ⟨0x860018, 5, 1, .w1c, 0x0, [], 0, 1⟩
def SLT_STAT_ERR : Field := ⟨0x860018, 4, 1, .w1c, 0x0, [], 0, 1⟩
def SLT_STAT_CHECKING : Field := ⟨0x860018, 3, 1, .ro, 0x0, [], 0, 1⟩
def SLT_STAT_PEND : Field := ⟨0x860018, 2, 1, .ro, 0x0, [], 0, 1⟩
def SLT_STAT_ACTIVE : Field := ⟨0x860018, 0, 1, .ro, 0x0, [], 0, 1⟩
def SLT_EDIT_GO : Field := ⟨0x860020, 31, 1, .w1s, 0x0, [], 0, 1⟩
def SLT_EDIT_BUSY : Field := ⟨0x860020, 30, 1, .ro, 0x0, [], 0, 1⟩
def SLT_EDIT_REFUSED : Field := ⟨0x860020, 29, 1, .w1c, 0x0, [], 0, 1⟩
def SLT_EDIT_IDX : Field := ⟨0x860020, 0, 10, .rw, 0x0, [], 0, 1⟩
def SLT_POS_ENTRY : Field := ⟨0x86001C, 0, 10, .ro, 0x0, [], 0, 1⟩
def SLT_CNT_COUNT : Field := ⟨0x860024, 0, 32, .rc, 0x0, [], 0, 1⟩
def SLT_STAGEn_WORD : Field := ⟨0x860100, 0, 32, .rw, 0x0, [4], 0, 1⟩
-- 03_beams_and_timeline.md, R83
def SLT_GAINCFG_LEAD : Field := ⟨0x860030, 16, 12, .rw, 0x0, [], 0, 1⟩
def SLT_GAINCFG_PINMASK : Field := ⟨0x860030, 0, 12, .rw, 0x0, [], 0, 1⟩
def SLT_GAINPAT_G : Field := ⟨0x860034, 0, 4, .rw, 0x0, [], 4, 4⟩
-- 03_beams_and_timeline.md, R84
def FEP_SAFE_SAFE : Field := ⟨0x8D0010, 0, 12, .rwl, 0x0, [], 0, 1⟩
def FEP_CLAIM_RELEASE : Field := ⟨0x8D0014, 31, 1, .wo, 0x0, [], 0, 1⟩
def FEP_CLAIM_OWNER : Field := ⟨0x8D0014, 28, 3, .wo, 0x0, [], 0, 1⟩
def FEP_CLAIM_MASK : Field := ⟨0x8D0014, 0, 12, .wo, 0x0, [], 0, 1⟩
def FEP_CLAIM_STAT_PREEMPTED : Field := ⟨0x8D0018, 16, 12, .w1c, 0x0, [], 0, 1⟩
def FEP_CLAIM_STAT_REFUSED : Field := ⟨0x8D0018, 0, 12, .w1c, 0x0, [], 0, 1⟩
def FEP_OWNn_OWN : Field := ⟨0x8D0020, 0, 3, .ro, 0x0, [4], 3, 8⟩
def FEP_GPIO_LEVEL : Field := ⟨0x8D0028, 0, 12, .rw, 0x0, [], 0, 1⟩
def FEP_LEVEL_LEVEL : Field := ⟨0x8D002C, 0, 12, .ro, 0x0, [], 0, 1⟩
-- 04_transmit_chain.md, R91
def LNK_DL_CFG_EARLY : Field := ⟨0x40A0480, 0, 8, .rw, 0xFA, [], 0, 1⟩
def LNK_DL_STAT_LATE : Field := ⟨0x40A0484, 0, 8, .w1c, 0x0, [], 0, 1⟩
def LNK_DL_CNTn_COUNT : Field := ⟨0x40A0490, 0, 32, .rc, 0x0, [4], 0, 1⟩
def LNK_DL_CARn_FFTSZ : Field := ⟨0x40A04B0, 8, 3, .rw, 0x5, [4], 0, 1⟩
def LNK_DL_CARn_MW : Field := ⟨0x40A04B0, 0, 5, .rw, 0x9, [4], 0, 1⟩
-- 04_transmit_chain.md, R99
def TXC_NCO_FREQ_PEND : Field := ⟨0x870010, 31, 1, .ro, 0x0, [], 0, 1⟩
def TXC_NCO_FREQ_FREQ : Field := ⟨0x870010, 0, 24, .rw, 0x0, [], 0, 1⟩
def TXC_CARn_PHC : Field := ⟨0x870020, 12, 1, .rw, 0x1, [4], 0, 1⟩
def TXC_CARn_WIN : Field := ⟨0x870020, 8, 3, .rw, 0x0, [4], 0, 1⟩
def TXC_CARn_SHIFT : Field := ⟨0x870020, 4, 4, .rw, 0x6, [4], 0, 1⟩
def TXC_CARn_FFTSZ : Field := ⟨0x870020, 0, 3, .rw, 0x5, [4], 0, 1⟩
def TXC_CNCOn_PEND : Field := ⟨0x870040, 31, 1, .ro, 0x0, [4], 0, 1⟩
def TXC_CNCOn_OFFS : Field := ⟨0x870040, 0, 21, .rw, 0x0, [4], 0, 1⟩
-- 04_transmit_chain.md, R103
def TXC_FSWAP_WHEN : Field := ⟨0x870060, 8, 2, .wo, 0x0, [], 0, 1⟩
def TXC_FSWAP_CARMASK : Field := ⟨0x870060, 0, 8, .wo, 0x0, [], 0, 1⟩
def TXC_FSTAT_LATE : Field := ⟨0x870064, 25, 1, .w1c, 0x0, [], 0, 1⟩
def TXC_FSTAT_WRREF : Field := ⟨0x870064, 24, 1, .w1c, 0x0, [], 0, 1⟩
def TXC_FSTAT_COLLAPSED : Field := ⟨0x870064, 16, 8, .w1c, 0x0, [], 0, 1⟩
def TXC_FSTAT_PEND : Field := ⟨0x870064, 8, 8, .ro, 0x0, [], 0, 1⟩
def TXC_FSTAT_ACTIVE : Field := ⟨0x870064, 0, 8, .ro, 0x0, [], 0, 1⟩
def TXC_COEF_COEF : Field := ⟨0x872000, 0, 18, .rw, 0x0, [1024, 512, 4], 0, 1⟩
-- 04_transmit_chain.md, R106
def TXC_PATHk_MUTE : Field := ⟨0x870080, 31, 1, .rw, 0x1, [4], 0, 1⟩
def TXC_PATHk_RAMP : Field := ⟨0x870080, 24, 7, .rw, 0x0, [4], 0, 1⟩
def TXC_PATHk_ATT : Field := ⟨0x870080, 0, 8, .rw, 0x0, [4], 0, 1⟩
def TXC_TRIMk_DLY : Field := ⟨0x8700A0, 16, 13, .rw, 0x0, [4], 0, 1⟩
def TXC_TRIMk_PHASE : Field := ⟨0x8700A0, 0, 16, .rw, 0x0, [4], 0, 1⟩
-- 04_transmit_chain.md, R108
def TXC_CFR_CFG_EN : Field := ⟨0x8700C0, 31, 1, .rw, 0x0, [], 0, 1⟩
def TXC_CFR_CFG_ITER : Field := ⟨0x8700C0, 26, 2, .rw, 0x2, [], 0, 1⟩
def TXC_CFR_CFG_SPACE : Field := ⟨0x8700C0, 16, 6, .rw, 0x10, [], 0, 1⟩
def TXC_CFR_CFG_THRESH : Field := ⟨0x8700C0, 0, 16, .rw, 0x8000, [], 0, 1⟩
def TXC_CFR_CLIP_CLIP : Field := ⟨0x8700C4, 0, 16, .rw, 0xFFFF, [], 0, 1⟩
def TXC_CFR_SWAP_WHEN : Field := ⟨0x8700C8, 8, 2, .wo, 0x0, [], 0, 1⟩
def TXC_CFR_SWAP_GO : Field := ⟨0x8700C8, 0, 1, .wo, 0x0, [], 0, 1⟩
def TXC_CFR_STAT_LATE : Field := ⟨0x8700CC, 4, 1, .w1c, 0x0, [], 0, 1⟩
def TXC_CFR_STAT_WRREF : Field := ⟨0x8700CC, 3, 1, .w1c, 0x0, [], 0, 1⟩
def TXC_CFR_STAT_COLLAPSED : Field := ⟨0x8700CC, 2, 1, .w1c, 0x0, [], 0, 1⟩
def TXC_CFR_STAT_PEND : Field := ⟨0x8700CC, 1, 1, .ro, 0x0, [], 0, 1⟩
def TXC_CFR_STAT_ACTIVE : Field := ⟨0x8700CC, 0, 1, .ro, 0x0, [], 0, 1⟩
def TXC_PULSE_Q : Field := ⟨0x874000, 16, 16, .rw, 0x0, [1024, 4], 0, 1⟩
def TXC_PULSE_I : Field := ⟨0x874000, 0, 16, .rw, 0x0, [1024, 4], 0, 1⟩
-- 04_transmit_chain.md, R112
def DPD_CFG_EN : Field := ⟨0x8A0010, 16, 8, .rw, 0x0, [], 0, 1⟩
def DPD_CFG_K : Field := ⟨0x8A0010, 8, 4, .rw, 0x5, [], 0, 1⟩
def DPD_CFG_MM1 : Field := ⟨0x8A0010, 4, 3, .rw, 0x3, [], 0, 1⟩
def DPD_CFG_L : Field := ⟨0x8A0010, 0, 2, .rw, 0x0, [], 0, 1⟩
def DPD_SWAPk_XF : Field := ⟨0x8A0020, 4, 4, .wo, 0x0, [4], 0, 1⟩
def DPD_SWAPk_WHEN : Field := ⟨0x8A0020, 0, 2, .wo, 0x0, [4], 0, 1⟩
def DPD_STATk_LATE : Field := ⟨0x8A0040, 7, 1, .w1c, 0x0, [4], 0, 1⟩
def DPD_STATk_DONE : Field := ⟨0x8A0040, 6, 1, .w1c, 0x0, [4], 0, 1⟩
def DPD_STATk_WRREF : Field := ⟨0x8A0040, 5, 1, .w1c, 0x0, [4], 0, 1⟩
def DPD_STATk_COLLAPSED : Field := ⟨0x8A0040, 4, 1, .w1c, 0x0, [4], 0, 1⟩
def DPD_STATk_HELD : Field := ⟨0x8A0040, 3, 1, .ro, 0x0, [4], 0, 1⟩
def DPD_STATk_PEND : Field := ⟨0x8A0040, 2, 1, .ro, 0x0, [4], 0, 1⟩
def DPD_STATk_XF : Field := ⟨0x8A0040, 1, 1, .ro, 0x0, [4], 0, 1⟩
def DPD_STATk_ACTIVE : Field := ⟨0x8A0040, 0, 1, .ro, 0x0, [4], 0, 1⟩
def DPD_COEF_Q : Field := ⟨0x8A4000, 16, 16, .rw, 0x0, [2048, 1024, 4], 0, 1⟩
def DPD_COEF_I : Field := ⟨0x8A4000, 0, 16, .rw, 0x0, [2048, 1024, 4], 0, 1⟩
-- 04_transmit_chain.md, R113
def TXC_CTRL_IFS : Field := ⟨0x870014, 4, 4, .rw, 0x8, [], 0, 1⟩
def TXC_CTRL_INVSINC : Field := ⟨0x870014, 1, 1, .rw, 0x1, [], 0, 1⟩
-- 04_transmit_chain.md, R115
def TXC_STAT_MUTED : Field := ⟨0x870100, 24, 8, .ro, 0xFF, [], 0, 1⟩
def TXC_STAT_SAT : Field := ⟨0x870100, 16, 8, .w1c, 0x0, [], 0, 1⟩
def TXC_STAT_CARDIS : Field := ⟨0x870100, 8, 8, .ro, 0x0, [], 0, 1⟩
def TXC_STAT_UNLOCK : Field := ⟨0x870100, 3, 1, .w1c, 0x0, [], 0, 1⟩
def TXC_STAT_UNLOCKED : Field := ⟨0x870100, 2, 1, .ro, 0x0, [], 0, 1⟩
def TXC_STAT_CFGERR : Field := ⟨0x870100, 1, 1, .w1c, 0x0, [], 0, 1⟩
def TXC_STAT_SAFE : Field := ⟨0x870100, 0, 1, .ro, 0x0, [], 0, 1⟩
def TXC_UNLOCK_CNT_COUNT : Field := ⟨0x870104, 0, 32, .rc, 0x0, [], 0, 1⟩
def TXC_SATSRC_STAGE : Field := ⟨0x870108, 0, 7, .w1c, 0x0, [], 0, 1⟩
def TXC_SATk_COUNT : Field := ⟨0x8700E0, 0, 32, .rc, 0x0, [4], 0, 1⟩
def TXC_CLIPk_COUNT : Field := ⟨0x870110, 0, 32, .rc, 0x0, [4], 0, 1⟩
-- 05_receive_chain.md, R127
def RXC_NCO_FREQ_PEND : Field := ⟨0x880010, 31, 1, .ro, 0x0, [], 0, 1⟩
def RXC_NCO_FREQ_FREQ : Field := ⟨0x880010, 0, 24, .rw, 0x0, [], 0, 1⟩
def RXC_CTRL_ZONE : Field := ⟨0x880014, 8, 2, .ro, 0x0, [], 0, 1⟩
def RXC_CTRL_NBMARK : Field := ⟨0x880014, 0, 1, .rw, 0x0, [], 0, 1⟩
def RXC_CNCOn_PEND : Field := ⟨0x880040, 31, 1, .ro, 0x0, [4], 0, 1⟩
def RXC_CNCOn_OFFS : Field := ⟨0x880040, 0, 21, .rw, 0x0, [4], 0, 1⟩
-- 05_receive_chain.md, R129
def RXC_GCOMPk_g_PHASE : Field := ⟨0x8800C0, 16, 16, .rw, 0x0, [16, 4], 0, 1⟩
def RXC_GCOMPk_g_GAIN : Field := ⟨0x8800C0, 0, 16, .rw, 0x4000, [16, 4], 0, 1⟩
def RXC_TRIMk_EN : Field := ⟨0x8800A0, 31, 1, .rw, 0x1, [4], 0, 1⟩
def RXC_TRIMk_DLY : Field := ⟨0x8800A0, 16, 13, .rw, 0x0, [4], 0, 1⟩
def RXC_TRIMk_PHASE : Field := ⟨0x8800A0, 0, 16, .rw, 0x0, [4], 0, 1⟩
-- 05_receive_chain.md, R131
def RXC_FSWAP_WHEN : Field := ⟨0x880060, 8, 2, .wo, 0x0, [], 0, 1⟩
def RXC_FSWAP_CARMASK : Field := ⟨0x880060, 0, 8, .wo, 0x0, [], 0, 1⟩
def RXC_FSTAT_LATE : Field := ⟨0x880064, 25, 1, .w1c, 0x0, [], 0, 1⟩
def RXC_FSTAT_WRREF : Field := ⟨0x880064, 24, 1, .w1c, 0x0, [], 0, 1⟩
def RXC_FSTAT_COLLAPSED : Field := ⟨0x880064, 16, 8, .w1c, 0x0, [], 0, 1⟩
def RXC_FSTAT_PEND : Field := ⟨0x880064, 8, 8, .ro, 0x0, [], 0, 1⟩
def RXC_FSTAT_ACTIVE : Field := ⟨0x880064, 0, 8, .ro, 0x0, [], 0, 1⟩
def RXC_COEF_COEF : Field := ⟨0x882000, 0, 18, .rw, 0x0, [1024, 512, 4], 0, 1⟩
-- 05_receive_chain.md, R133
def RXC_CARn_PHC : Field := ⟨0x880020, 12, 1, .rw, 0x1, [4], 0, 1⟩
def RXC_CARn_CPOFFS : Field := ⟨0x880020, 8, 4, .rw, 0x8, [4], 0, 1⟩
def RXC_CARn_SHIFT : Field := ⟨0x880020, 4, 4, .rw, 0x6, [4], 0, 1⟩
def RXC_CARn_FFTSZ : Field := ⟨0x880020, 0, 3, .rw, 0x5, [4], 0, 1⟩
-- 05_receive_chain.md, R137
def LNK_UL_CARn_FLOW : Field := ⟨0x40A04D0, 24, 8, .rw, 0x0, [4], 0, 1⟩
def LNK_UL_CARn_FFTSZ : Field := ⟨0x40A04D0, 8, 3, .rw, 0x5, [4], 0, 1⟩
def LNK_UL_CARn_MW : Field := ⟨0x40A04D0, 0, 5, .rw, 0x9, [4], 0, 1⟩
def LNK_UL_CNTn_COUNT : Field := ⟨0x40A04F0, 0, 32, .rc, 0x0, [4], 0, 1⟩
-- 05_receive_chain.md, R141
def LNK_PRA_CFGm_EN : Field := ⟨0x40A0510, 31, 1, .rw, 0x0, [4], 0, 1⟩
def LNK_PRA_CFGm_CARRIER : Field := ⟨0x40A0510, 28, 3, .rw, 0x0, [4], 0, 1⟩
def LNK_PRA_CFGm_RATE : Field := ⟨0x40A0510, 25, 3, .rw, 0x0, [4], 0, 1⟩
def LNK_PRA_CFGm_OFFS : Field := ⟨0x40A0510, 0, 22, .rw, 0x0, [4], 0, 1⟩
def LNK_PRA_BEAMm_i_ENB : Field := ⟨0x40A0520, 31, 1, .rw, 0x0, [8, 4], 0, 1⟩
def LNK_PRA_BEAMm_i_ENTRYB : Field := ⟨0x40A0520, 16, 13, .rw, 0x0, [8, 4], 0, 1⟩
def LNK_PRA_BEAMm_i_ENA : Field := ⟨0x40A0520, 15, 1, .rw, 0x0, [8, 4], 0, 1⟩
def LNK_PRA_BEAMm_i_ENTRYA : Field := ⟨0x40A0520, 0, 13, .rw, 0x0, [8, 4], 0, 1⟩
def LNK_PRA_TIMEm_FLOW : Field := ⟨0x40A0540, 24, 8, .rw, 0x0, [4], 0, 1⟩
def LNK_PRA_TIMEm_START : Field := ⟨0x40A0540, 0, 24, .rw, 0x0, [4], 0, 1⟩
def LNK_PRA_LENm_LEN : Field := ⟨0x40A0550, 0, 16, .rw, 0x0, [4], 0, 1⟩
def LNK_PRA_OCCj_EN : Field := ⟨0x40A0560, 31, 1, .rw, 0x0, [4], 0, 1⟩
def LNK_PRA_OCCj_EXT : Field := ⟨0x40A0560, 26, 2, .rw, 0x0, [4], 0, 1⟩
def LNK_PRA_OCCj_PERIOD : Field := ⟨0x40A0560, 23, 3, .rw, 0x0, [4], 0, 1⟩
def LNK_PRA_OCCj_PHASE : Field := ⟨0x40A0560, 19, 4, .rw, 0x0, [4], 0, 1⟩
def LNK_PRA_OCCj_SLOT : Field := ⟨0x40A0560, 0, 7, .rw, 0x0, [4], 0, 1⟩
-- 05_receive_chain.md, R142
def RXC_STAT_OVR : Field := ⟨0x880200, 24, 8, .w1c, 0x0, [], 0, 1⟩
def RXC_STAT_SAT : Field := ⟨0x880200, 16, 8, .w1c, 0x0, [], 0, 1⟩
def RXC_STAT_CARDIS : Field := ⟨0x880200, 8, 8, .ro, 0x0, [], 0, 1⟩
def RXC_STAT_UNLOCK : Field := ⟨0x880200, 3, 1, .w1c, 0x0, [], 0, 1⟩
def RXC_STAT_UNLOCKED : Field := ⟨0x880200, 2, 1, .ro, 0x0, [], 0, 1⟩
def RXC_STAT_CFGERR : Field := ⟨0x880200, 1, 1, .w1c, 0x0, [], 0, 1⟩
def RXC_UNLOCK_CNT_COUNT : Field := ⟨0x880204, 0, 32, .rc, 0x0, [], 0, 1⟩
def RXC_OVRk_COUNT : Field := ⟨0x880210, 0, 32, .rc, 0x0, [4], 0, 1⟩
def RXC_SATk_COUNT : Field := ⟨0x880230, 0, 32, .rc, 0x0, [4], 0, 1⟩
def RXC_PEAKk_PEAK : Field := ⟨0x880250, 0, 12, .rc, 0x0, [4], 0, 1⟩
-- 06_observation_and_dpd.md, R149
def ORX_NCO_FREQ_PEND : Field := ⟨0x890010, 31, 1, .ro, 0x0, [], 0, 1⟩
def ORX_NCO_FREQ_FREQ : Field := ⟨0x890010, 0, 24, .rw, 0x0, [], 0, 1⟩
-- 06_observation_and_dpd.md, R152
def ORX_SW_WPAT : Field := ⟨0x890014, 28, 4, .rw, 0x0, [], 0, 1⟩
def ORX_SW_SETTLE : Field := ⟨0x890014, 16, 12, .rw, 0x0, [], 0, 1⟩
def ORX_SW_PINMASK : Field := ⟨0x890014, 0, 12, .rw, 0x0, [], 0, 1⟩
def ORX_SWPAT_P : Field := ⟨0x890018, 0, 4, .rw, 0x0, [], 4, 8⟩
def ORX_CLAIM_RELEASE : Field := ⟨0x890020, 31, 1, .wo, 0x0, [], 0, 1⟩
def ORX_CLAIM_OWNER : Field := ⟨0x890020, 28, 3, .wo, 0x0, [], 0, 1⟩
-- 06_observation_and_dpd.md, R157
def ORX_CSETn_LEN : Field := ⟨0x890040, 16, 16, .rw, 0x0, [4], 0, 1⟩
def ORX_CSETn_RDLY : Field := ⟨0x890040, 6, 10, .rw, 0x0, [4], 0, 1⟩
def ORX_CSETn_REFSEL : Field := ⟨0x890040, 4, 2, .rw, 0x0, [4], 0, 1⟩
def ORX_CSETn_MODE : Field := ⟨0x890040, 3, 1, .rw, 0x0, [4], 0, 1⟩
def ORX_CSETn_PATH : Field := ⟨0x890040, 0, 3, .rw, 0x0, [4], 0, 1⟩
def ORX_TRIG_GO : Field := ⟨0x890024, 31, 1, .wo, 0x0, [], 0, 1⟩
def ORX_TRIG_STOP : Field := ⟨0x890024, 30, 1, .wo, 0x0, [], 0, 1⟩
def ORX_TRIG_SET : Field := ⟨0x890024, 0, 4, .wo, 0x0, [], 0, 1⟩
-- 06_observation_and_dpd.md, R158
def ORX_RING_PEND : Field := ⟨0x89001C, 31, 1, .ro, 0x0, [], 0, 1⟩
def ORX_RING_BASE : Field := ⟨0x89001C, 24, 6, .rw, 0x20, [], 0, 1⟩
def ORX_RING_LEN : Field := ⟨0x89001C, 0, 18, .rw, 0x9248, [], 0, 1⟩
-- 06_observation_and_dpd.md, R160
def ORX_CREC_POS_SET : Field := ⟨0x8900A0, 28, 4, .ro, 0x0, [], 0, 1⟩
def ORX_CREC_POS_POS : Field := ⟨0x8900A0, 0, 18, .ro, 0x0, [], 0, 1⟩
def ORX_CREC_LEN_VALID : Field := ⟨0x8900A4, 31, 1, .ro, 0x0, [], 0, 1⟩
def ORX_CREC_LEN_OVR : Field := ⟨0x8900A4, 30, 1, .ro, 0x0, [], 0, 1⟩
def ORX_CREC_LEN_END : Field := ⟨0x8900A4, 27, 3, .ro, 0x0, [], 0, 1⟩
def ORX_CREC_LEN_PATH : Field := ⟨0x8900A4, 24, 3, .ro, 0x0, [], 0, 1⟩
def ORX_CREC_LEN_REFSEL : Field := ⟨0x8900A4, 22, 2, .ro, 0x0, [], 0, 1⟩
def ORX_CREC_LEN_NGRP : Field := ⟨0x8900A4, 0, 20, .ro, 0x0, [], 0, 1⟩
def ORX_CREC_T0_IDX : Field := ⟨0x8900A8, 0, 32, .ro, 0x0, [], 0, 1⟩
def ORX_CREC_T1_SEC : Field := ⟨0x8900AC, 16, 16, .ro, 0x0, [], 0, 1⟩
def ORX_CREC_T1_IDX32 : Field := ⟨0x8900AC, 0, 1, .ro, 0x0, [], 0, 1⟩
def ORX_CREC_NEXT_ANY : Field := ⟨0x8900B0, 0, 32, .wo, 0x0, [], 0, 1⟩
-- 06_observation_and_dpd.md, R168
def ORX_DF_EN : Field := ⟨0x8900C0, 31, 1, .rw, 0x0, [], 0, 1⟩
def ORX_DF_POLICY : Field := ⟨0x8900C0, 30, 1, .rw, 0x0, [], 0, 1⟩
def ORX_DF_FLOW : Field := ⟨0x8900C0, 16, 8, .rw, 0x0, [], 0, 1⟩
def ORX_DF_RESUME : Field := ⟨0x8900C0, 0, 16, .rw, 0x1000, [], 0, 1⟩
def ORX_DFSTAT_PAUSED : Field := ⟨0x8900C4, 31, 1, .ro, 0x0, [], 0, 1⟩
def ORX_DFSTAT_UNSENT : Field := ⟨0x8900C4, 0, 18, .ro, 0x0, [], 0, 1⟩
def ORX_STAT_OWNER : Field := ⟨0x890028, 29, 3, .ro, 0x0, [], 0, 1⟩
def ORX_STAT_READY : Field := ⟨0x890028, 28, 1, .ro, 0x0, [], 0, 1⟩
def ORX_STAT_RUN : Field := ⟨0x890028, 27, 1, .ro, 0x0, [], 0, 1⟩
def ORX_STAT_SETTLING : Field := ⟨0x890028, 26, 1, .ro, 0x0, [], 0, 1⟩
def ORX_STAT_LASTREF : Field := ⟨0x890028, 16, 4, .ro, 0x0, [], 0, 1⟩
def ORX_STAT_TRIGREF : Field := ⟨0x890028, 6, 1, .w1c, 0x0, [], 0, 1⟩
def ORX_STAT_INCOMPLETE : Field := ⟨0x890028, 5, 1, .w1c, 0x0, [], 0, 1⟩
def ORX_STAT_OVR : Field := ⟨0x890028, 4, 1, .w1c, 0x0, [], 0, 1⟩
def ORX_STAT_PREEMPTED : Field := ⟨0x890028, 3, 1, .w1c, 0x0, [], 0, 1⟩
def ORX_STAT_RECLOST : Field := ⟨0x890028, 2, 1, .w1c, 0x0, [], 0, 1⟩
def ORX_STAT_UNLK : Field := ⟨0x890028, 1, 1, .w1c, 0x0, [], 0, 1⟩
def ORX_CNTn_COUNT : Field := ⟨0x890080, 0, 32, .rc, 0x0, [4], 0, 1⟩
-- 07_lanied_link.md, R175
def LNK_CTRL_RRST : Field := ⟨0x40A0010, 31, 1, .rwl, 0x0, [], 0, 1⟩
def LNK_CTRL_REPLAY_TO : Field := ⟨0x40A0010, 16, 4, .rw, 0x5, [], 0, 1⟩
def LNK_CTRL_PWRREQ : Field := ⟨0x40A0010, 10, 2, .rw, 0x0, [], 0, 1⟩
def LNK_CTRL_PREC_ALLOW : Field := ⟨0x40A0010, 8, 1, .rw, 0x1, [], 0, 1⟩
def LNK_CTRL_RETRAIN : Field := ⟨0x40A0010, 1, 1, .w1s, 0x0, [], 0, 1⟩
def LNK_CTRL_EN : Field := ⟨0x40A0010, 0, 1, .rw, 0x0, [], 0, 1⟩
def LNK_STAT_STATE : Field := ⟨0x40A0014, 28, 4, .ro, 0x0, [], 0, 1⟩
def LNK_STAT_FAILCODE : Field := ⟨0x40A0014, 24, 4, .ro, 0x0, [], 0, 1⟩
def LNK_STAT_PREC_TX : Field := ⟨0x40A0014, 23, 1, .ro, 0x0, [], 0, 1⟩
def LNK_STAT_PREC_RX : Field := ⟨0x40A0014, 22, 1, .ro, 0x0, [], 0, 1⟩
def LNK_STAT_SEVEN_TX : Field := ⟨0x40A0014, 21, 1, .ro, 0x0, [], 0, 1⟩
def LNK_STAT_SEVEN_RX : Field := ⟨0x40A0014, 20, 1, .ro, 0x0, [], 0, 1⟩
def LNK_CAP_CAP_RX : Field := ⟨0x40A0018, 16, 16, .ro, 0x0, [], 0, 1⟩
def LNK_CAP_CAP_TX : Field := ⟨0x40A0018, 0, 16, .ro, 0x0, [], 0, 1⟩
-- 07_lanied_link.md, R188
def LNK_FLOWf_CFG_EN : Field := ⟨0x40A2000, 31, 1, .rw, 0x0, [8], 0, 1⟩
def LNK_FLOWf_CFG_CLASS : Field := ⟨0x40A2000, 29, 2, .rw, 0x0, [8], 0, 1⟩
def LNK_FLOWf_CFG_DEEP : Field := ⟨0x40A2000, 28, 1, .rw, 0x0, [8], 0, 1⟩
def LNK_FLOWf_CFG_REL : Field := ⟨0x40A2000, 27, 1, .rw, 0x0, [8], 0, 1⟩
def LNK_FLOWf_CFG_RXQ : Field := ⟨0x40A2000, 0, 16, .rw, 0x0, [8], 0, 1⟩
def LNK_FLOWf_STAT_CREDIT : Field := ⟨0x40A2004, 16, 16, .ro, 0x0, [8], 0, 1⟩
def LNK_FLOWf_STAT_STAGED : Field := ⟨0x40A2004, 0, 16, .ro, 0x0, [8], 0, 1⟩
-- 07_lanied_link.md, R189
def LNK_PARTn_BASE : Field := ⟨0x40A05C0, 16, 7, .rw, 0x0, [4], 0, 1⟩
def LNK_PARTn_SIZE : Field := ⟨0x40A05C0, 0, 8, .rw, 0x0, [4], 0, 1⟩
-- 07_lanied_link.md, R198
def LNK_GWn_BASE_PAGE : Field := ⟨0x40A0600, 12, 20, .rwl, 0x0, [16], 0, 1⟩
def LNK_GWn_LIM_PAGE : Field := ⟨0x40A0604, 12, 20, .rwl, 0x0, [16], 0, 1⟩
def LNK_GWn_CTRL_WR : Field := ⟨0x40A0608, 2, 1, .rwl, 0x0, [16], 0, 1⟩
def LNK_GWn_CTRL_RD : Field := ⟨0x40A0608, 1, 1, .rwl, 0x0, [16], 0, 1⟩
def LNK_GWn_CTRL_EN : Field := ⟨0x40A0608, 0, 1, .rwl, 0x0, [16], 0, 1⟩
-- 07_lanied_link.md, R205
def LNK_LANEMAP_TX_LANE : Field := ⟨0x40A0020, 0, 4, .ro, 0x0, [], 4, 8⟩
def LNK_LANEMAP_RX_LANE : Field := ⟨0x40A0024, 0, 4, .ro, 0x0, [], 4, 8⟩
def LNK_AUXMAP_SPARE_RX : Field := ⟨0x40A0028, 12, 4, .ro, 0x8, [], 0, 1⟩
def LNK_AUXMAP_SPARE_TX : Field := ⟨0x40A0028, 8, 4, .ro, 0x8, [], 0, 1⟩
def LNK_AUXMAP_CLK_RX : Field := ⟨0x40A0028, 4, 4, .ro, 0x9, [], 0, 1⟩
def LNK_AUXMAP_CLK_TX : Field := ⟨0x40A0028, 0, 4, .ro, 0x9, [], 0, 1⟩
def LNK_PLANEn_FAILED : Field := ⟨0x40A0040, 31, 1, .ro, 0x0, [4], 0, 1⟩
def LNK_PLANEn_CDR : Field := ⟨0x40A0040, 30, 1, .ro, 0x0, [4], 0, 1⟩
def LNK_PLANEn_MARK : Field := ⟨0x40A0040, 29, 1, .ro, 0x0, [4], 0, 1⟩
def LNK_PLANEn_EYE : Field := ⟨0x40A0040, 16, 8, .ro, 0x0, [4], 0, 1⟩
def LNK_PLANEn_SERR : Field := ⟨0x40A0040, 0, 16, .rc, 0x0, [4], 0, 1⟩
-- 07_lanied_link.md, R206
def LNK_CNTn_COUNT : Field := ⟨0x40A0100, 0, 32, .rc, 0x0, [4], 0, 1⟩
-- 08_time_and_tally.md, R209
def TIM_NOW_NS_NS : Field := ⟨0x4080010, 0, 32, .ro, 0x0, [], 0, 1⟩
def TIM_NOW_SLO_SEC : Field := ⟨0x4080014, 0, 32, .ro, 0x0, [], 0, 1⟩
def TIM_NOW_SHI_FRAC : Field := ⟨0x4080018, 16, 16, .ro, 0x0, [], 0, 1⟩
def TIM_NOW_SHI_SECHI : Field := ⟨0x4080018, 0, 16, .ro, 0x0, [], 0, 1⟩
-- 08_time_and_tally.md, R211
def TIM_UTC_PEND : Field := ⟨0x4080020, 31, 1, .ro, 0x0, [], 0, 1⟩
def TIM_UTC_NEXT : Field := ⟨0x4080020, 16, 8, .rw, 0x0, [], 0, 1⟩
def TIM_UTC_CUR : Field := ⟨0x4080020, 0, 8, .rw, 0x0, [], 0, 1⟩
def TIM_UTC_AT_AT : Field := ⟨0x4080024, 0, 32, .rw, 0x0, [], 0, 1⟩
def TIM_FRAME_FNOFF : Field := ⟨0x4080028, 0, 10, .rw, 0x0, [], 0, 1⟩
-- 08_time_and_tally.md, R215
def TIM_L0RX_BASE : Field := ⟨0x4080140, 12, 20, .rw, 0x0, [], 0, 1⟩
def TIM_L0RX_SIZE : Field := ⟨0x4080140, 8, 4, .rw, 0x0, [], 0, 1⟩
def TIM_L0TX_BASE : Field := ⟨0x4080144, 12, 20, .rw, 0x0, [], 0, 1⟩
def TIM_L0TX_SIZE : Field := ⟨0x4080144, 8, 4, .rw, 0x0, [], 0, 1⟩
def MGP_RXRING_BASE : Field := ⟨0x40B0020, 12, 20, .rw, 0x0, [], 0, 1⟩
def MGP_RXRING_SIZE : Field := ⟨0x40B0020, 8, 4, .rw, 0x0, [], 0, 1⟩
def MGP_TXRING_BASE : Field := ⟨0x40B0024, 12, 20, .rw, 0x0, [], 0, 1⟩
def MGP_TXRING_SIZE : Field := ⟨0x40B0024, 8, 4, .rw, 0x0, [], 0, 1⟩
def TIM_L0RXP_HW : Field := ⟨0x4080148, 16, 16, .ro, 0x0, [], 0, 1⟩
def TIM_L0RXP_SW : Field := ⟨0x4080148, 0, 16, .rw, 0x0, [], 0, 1⟩
def TIM_L0TXP_HW : Field := ⟨0x408014C, 16, 16, .ro, 0x0, [], 0, 1⟩
def TIM_L0TXP_SW : Field := ⟨0x408014C, 0, 16, .rw, 0x0, [], 0, 1⟩
def MGP_RXPTR_HW : Field := ⟨0x40B0028, 16, 16, .ro, 0x0, [], 0, 1⟩
def MGP_RXPTR_SW : Field := ⟨0x40B0028, 0, 16, .rw, 0x0, [], 0, 1⟩
def MGP_TXPTR_HW : Field := ⟨0x40B002C, 16, 16, .ro, 0x0, [], 0, 1⟩
def MGP_TXPTR_SW : Field := ⟨0x40B002C, 0, 16, .rw, 0x0, [], 0, 1⟩
-- 08_time_and_tally.md, R216
def MGP_CFG_EN : Field := ⟨0x40B0010, 31, 1, .rw, 0x0, [], 0, 1⟩
def MGP_CFG_MODE : Field := ⟨0x40B0010, 30, 1, .rw, 0x0, [], 0, 1⟩
def MGP_CFG_AN : Field := ⟨0x40B0010, 29, 1, .rw, 0x1, [], 0, 1⟩
def MGP_CFG_DOMAIN : Field := ⟨0x40B0010, 8, 8, .rw, 0x0, [], 0, 1⟩
def MGP_CFG_UDP : Field := ⟨0x40B0010, 1, 1, .rw, 0x1, [], 0, 1⟩
def MGP_CFG_L2 : Field := ⟨0x40B0010, 0, 1, .rw, 0x1, [], 0, 1⟩
def MGP_STAT_LINK : Field := ⟨0x40B0014, 31, 1, .ro, 0x0, [], 0, 1⟩
def MGP_STAT_REFOK : Field := ⟨0x40B0014, 30, 1, .ro, 0x0, [], 0, 1⟩
def MGP_CNTn_COUNT : Field := ⟨0x40B0040, 0, 32, .rc, 0x0, [4], 0, 1⟩
-- 08_time_and_tally.md, R223
def TIM_CFG_SRCEN : Field := ⟨0x4080030, 8, 5, .rw, 0x0, [], 0, 1⟩
def TIM_CFG_SEL : Field := ⟨0x4080030, 0, 3, .rw, 0x7, [], 0, 1⟩
def TIM_JUMP_THRESH : Field := ⟨0x4080034, 0, 32, .rw, 0x3E8, [], 0, 1⟩
def TIM_WBOUND_BOUND : Field := ⟨0x4080038, 0, 17, .rw, 0x7D0, [], 0, 1⟩
def TIM_MEAS_NS_NS : Field := ⟨0x4080040, 0, 32, .rw, 0x0, [], 0, 1⟩
def TIM_MEAS_SEC_SEC : Field := ⟨0x4080044, 0, 32, .rw, 0x0, [], 0, 1⟩
def TIM_MEAS_CTRL_INIT : Field := ⟨0x4080048, 10, 1, .wo, 0x0, [], 0, 1⟩
def TIM_MEAS_CTRL_STEP : Field := ⟨0x4080048, 9, 1, .wo, 0x0, [], 0, 1⟩
def TIM_MEAS_CTRL_SRC : Field := ⟨0x4080048, 0, 3, .wo, 0x0, [], 0, 1⟩
def TIM_STEPCTL_AUTH : Field := ⟨0x408004C, 0, 1, .rw, 0x0, [], 0, 1⟩
def TIM_STAT_STATE : Field := ⟨0x4080050, 28, 4, .ro, 0x0, [], 0, 1⟩
def TIM_STAT_LASTRES : Field := ⟨0x4080050, 25, 3, .ro, 0x0, [], 0, 1⟩
def TIM_STAT_STEPPED : Field := ⟨0x4080050, 7, 1, .ro, 0x0, [], 0, 1⟩
def TIM_STAT_PEND : Field := ⟨0x4080050, 6, 1, .ro, 0x0, [], 0, 1⟩
def TIM_STAT_INSANE : Field := ⟨0x4080050, 5, 1, .w1c, 0x0, [], 0, 1⟩
def TIM_STAT_JUMPREF : Field := ⟨0x4080050, 4, 1, .w1c, 0x0, [], 0, 1⟩
def TIM_STAT_PPSNEW : Field := ⟨0x4080050, 3, 1, .w1c, 0x0, [], 0, 1⟩
def TIM_STAT_SYNCNEW : Field := ⟨0x4080050, 2, 1, .w1c, 0x0, [], 0, 1⟩
def TIM_SRCSTAT_STALE : Field := ⟨0x4080054, 3, 1, .ro, 0x1, [], 4, 5⟩
def TIM_SRCSTAT_SUSPECT : Field := ⟨0x4080054, 2, 1, .ro, 0x0, [], 4, 5⟩
def TIM_SRCSTAT_GOOD : Field := ⟨0x4080054, 0, 2, .ro, 0x0, [], 4, 5⟩
def TIM_OFFS_OFFS : Field := ⟨0x4080058, 0, 32, .ro, 0x0, [], 0, 1⟩
def TIM_HOLDSEC_HOLDSEC : Field := ⟨0x408005C, 0, 32, .ro, 0x0, [], 0, 1⟩
def TIM_VCXO_EN : Field := ⟨0x4080060, 31, 1, .rw, 0x0, [], 0, 1⟩
def TIM_VCXO_TSRC : Field := ⟨0x4080060, 8, 6, .rw, 0x3F, [], 0, 1⟩
def TIM_VCXO_CH : Field := ⟨0x4080060, 0, 5, .rw, 0x0, [], 0, 1⟩
def TIM_VCXO_CAL_CENTRE : Field := ⟨0x4080064, 16, 14, .rw, 0x2000, [], 0, 1⟩
def TIM_VCXO_CAL_GAIN : Field := ⟨0x4080064, 0, 16, .rw, 0x100, [], 0, 1⟩
def TIM_STEER_STEER : Field := ⟨0x4080068, 0, 32, .rw, 0x0, [], 0, 1⟩
def TIM_TCOMPn_CORR : Field := ⟨0x4080070, 0, 16, .rw, 0x0, [4], 0, 1⟩
def TIM_ASYMp_ASYM : Field := ⟨0x40800B0, 0, 32, .rw, 0x0, [4], 0, 1⟩
def TIM_CNTn_COUNT : Field := ⟨0x4080100, 0, 32, .rc, 0x0, [4], 0, 1⟩
def TIM_CAPq_NS_NS : Field := ⟨0x40800C0, 0, 32, .ro, 0x0, [16], 0, 1⟩
def TIM_CAPq_SLO_SEC : Field := ⟨0x40800C4, 0, 32, .ro, 0x0, [16], 0, 1⟩
def TIM_CAPq_SHI_FRAC : Field := ⟨0x40800C8, 16, 16, .ro, 0x0, [16], 0, 1⟩
def TIM_CAPq_SHI_SECHI : Field := ⟨0x40800C8, 0, 16, .ro, 0x0, [16], 0, 1⟩
-- 08_time_and_tally.md, R227
def EVT_STAT_DEPTH : Field := ⟨0x8B0014, 24, 7, .ro, 0x0, [], 0, 1⟩
def EVT_STAT_LATE : Field := ⟨0x8B0014, 1, 1, .w1c, 0x0, [], 0, 1⟩
def EVT_STAT_NOTIFLOST : Field := ⟨0x8B0014, 0, 1, .w1c, 0x0, [], 0, 1⟩
def EVT_CNTn_COUNT : Field := ⟨0x8B0018, 0, 32, .rc, 0x0, [4], 0, 1⟩
def EVT_TMRn_CFG_EN : Field := ⟨0x8B0040, 31, 1, .rw, 0x0, [8], 0, 1⟩
def EVT_TMRn_CFG_OWNER : Field := ⟨0x8B0040, 28, 2, .ro, 0x0, [8], 0, 1⟩
def EVT_TMRn_CFG_KIND : Field := ⟨0x8B0040, 24, 4, .rw, 0x3, [8], 0, 1⟩
def EVT_TMRn_CFG_ARG : Field := ⟨0x8B0040, 16, 8, .rw, 0x0, [8], 0, 1⟩
def EVT_TMRn_PER_PERIOD : Field := ⟨0x8B0044, 0, 32, .rw, 0x78000, [8], 0, 1⟩
-- 08_time_and_tally.md, R229
def HTH_CAL_LO_SEC : Field := ⟨0x4100010, 0, 32, .ro, 0x0, [], 0, 1⟩
def HTH_CAL_HI_SUB : Field := ⟨0x4100014, 17, 15, .ro, 0x0, [], 0, 1⟩
def HTH_CAL_HI_SECHI : Field := ⟨0x4100014, 0, 16, .ro, 0x0, [], 0, 1⟩
def HTH_CAL_CTRL_VALID : Field := ⟨0x4100018, 31, 1, .ro, 0x0, [], 0, 1⟩
def HTH_CAL_CTRL_OSCFAIL : Field := ⟨0x4100018, 30, 1, .w1c, 0x0, [], 0, 1⟩
def HTH_CAL_CTRL_SYNCPEND : Field := ⟨0x4100018, 1, 1, .ro, 0x0, [], 0, 1⟩
def HTH_CAL_CTRL_SYNC : Field := ⟨0x4100018, 0, 1, .w1s, 0x0, [], 0, 1⟩
def HTH_XCOMP_T0 : Field := ⟨0x410001C, 24, 8, .rw, 0x19, [], 0, 1⟩
def HTH_XCOMP_K : Field := ⟨0x410001C, 16, 8, .rw, 0x88, [], 0, 1⟩
def HTH_XCOMP_OFFS : Field := ⟨0x410001C, 0, 16, .rw, 0x0, [], 0, 1⟩
-- 08_time_and_tally.md, R239
def TLY_CFG_EN : Field := ⟨0x4090010, 31, 1, .rw, 0x0, [], 0, 1⟩
def TLY_CFG_FANACT : Field := ⟨0x4090010, 27, 1, .rw, 0x1, [], 0, 1⟩
def TLY_CFG_FANSEND : Field := ⟨0x4090010, 26, 1, .rw, 0x1, [], 0, 1⟩
def TLY_STAT_HEAD : Field := ⟨0x4090014, 31, 1, .ro, 0x0, [], 0, 1⟩
def TLY_STAT_BASE : Field := ⟨0x4090014, 28, 3, .ro, 0x0, [], 0, 1⟩
def TLY_STAT_UPLINK : Field := ⟨0x4090014, 27, 1, .ro, 0x0, [], 0, 1⟩
def TLY_STAT_DNLINK : Field := ⟨0x4090014, 26, 1, .ro, 0x0, [], 0, 1⟩
def TLY_STAT_ALIGNED : Field := ⟨0x4090014, 25, 1, .ro, 0x0, [], 0, 1⟩
def TLY_STAT_LAST : Field := ⟨0x4090014, 24, 1, .ro, 0x0, [], 0, 1⟩
def TLY_STAT_ADDR : Field := ⟨0x4090014, 16, 8, .ro, 0x0, [], 0, 1⟩
def TLY_STAT_POS : Field := ⟨0x4090014, 11, 5, .ro, 0x0, [], 0, 1⟩
def TLY_STAT_DUP : Field := ⟨0x4090014, 7, 1, .w1c, 0x0, [], 0, 1⟩
def TLY_STAT_NOADDR : Field := ⟨0x4090014, 6, 1, .w1c, 0x0, [], 0, 1⟩
def TLY_STAT_LATECMD : Field := ⟨0x4090014, 5, 1, .w1c, 0x0, [], 0, 1⟩
def TLY_STAT_RETAINED : Field := ⟨0x4090014, 4, 1, .ro, 0x0, [], 0, 1⟩
def TLY_STAT_ENUMDONE : Field := ⟨0x4090014, 3, 1, .ro, 0x0, [], 0, 1⟩
def TLY_STAT_CMDREF : Field := ⟨0x4090014, 2, 1, .w1c, 0x0, [], 0, 1⟩
def TLY_HOP_VALID : Field := ⟨0x4090018, 31, 1, .ro, 0x0, [], 0, 1⟩
def TLY_HOP_DELAY : Field := ⟨0x4090018, 0, 18, .ro, 0x0, [], 0, 1⟩
def TLY_CMD_OP : Field := ⟨0x409001C, 28, 4, .wo, 0x0, [], 0, 1⟩
def TLY_CMD_NS_NS : Field := ⟨0x4090020, 0, 32, .rw, 0x0, [], 0, 1⟩
def TLY_CMD_SEC_SEC : Field := ⟨0x4090024, 0, 16, .rw, 0x0, [], 0, 1⟩
def TLY_CENSUSn_ADDR : Field := ⟨0x4090040, 0, 8, .ro, 0xFF, [4], 8, 4⟩
def TLY_CNTn_COUNT : Field := ⟨0x4090080, 0, 32, .rc, 0x0, [4], 0, 1⟩
-- 09_wimako_engines.md, R271
def MMU_CTXn_PTB : Field := ⟨0x810100, 12, 20, .rw, 0x0, [4], 0, 1⟩
def MMU_CTXn_EN : Field := ⟨0x810100, 8, 1, .rw, 0x0, [4], 0, 1⟩
def MMU_CTXn_ASID : Field := ⟨0x810100, 0, 8, .rw, 0x0, [4], 0, 1⟩
-- 09_wimako_engines.md, R275
def ENG_CTRL_HALT : Field := ⟨0x800010, 1, 1, .w1s, 0x0, [], 0, 1⟩
def ENG_CTRL_RUN : Field := ⟨0x800010, 0, 1, .w1s, 0x0, [], 0, 1⟩
def ENG_ENTRY_PC : Field := ⟨0x800014, 2, 30, .rw, 0x0, [], 0, 1⟩
def ENG_STAT_STATE : Field := ⟨0x800018, 30, 2, .ro, 0x0, [], 0, 1⟩
def ENG_STAT_LVL : Field := ⟨0x800018, 8, 2, .ro, 0x0, [], 0, 1⟩
def ENG_STAT_EVQ : Field := ⟨0x800018, 0, 6, .ro, 0x0, [], 0, 1⟩
def ENG_PC_PC : Field := ⟨0x80001C, 0, 32, .ro, 0x0, [], 0, 1⟩
def ENG_IRQCFG_LVL : Field := ⟨0x800020, 0, 2, .rw, 0x0, [], 2, 5⟩
def ENG_IPEND_PENDs : Field := ⟨0x800024, 0, 5, .ro, 0x0, [], 0, 1⟩
def ENG_SWI_DOOR : Field := ⟨0x800028, 1, 1, .rw, 0x0, [], 0, 1⟩
def ENG_SWI_SOFT : Field := ⟨0x800028, 0, 1, .rw, 0x0, [], 0, 1⟩
def ENG_EVQ_VALID : Field := ⟨0x800030, 31, 1, .rc, 0x0, [], 0, 1⟩
def ENG_EVQ_CODE : Field := ⟨0x800030, 0, 16, .rc, 0x0, [], 0, 1⟩
-- 10_hamlet_memory.md, R281
def STO_CE_ADDR_ADDR : Field := ⟨0x8E0020, 3, 29, .ro, 0x0, [], 0, 1⟩
def STO_UE_ADDR_ADDR : Field := ⟨0x8E0028, 3, 29, .ro, 0x0, [], 0, 1⟩
def STO_CE_INFO_VALID : Field := ⟨0x8E0024, 31, 1, .w1c, 0x0, [], 0, 1⟩
def STO_CE_INFO_REQ : Field := ⟨0x8E0024, 26, 5, .ro, 0x0, [], 0, 1⟩
def STO_CE_INFO_FETCH : Field := ⟨0x8E0024, 25, 1, .ro, 0x0, [], 0, 1⟩
def STO_CE_INFO_CLASS : Field := ⟨0x8E0024, 23, 2, .ro, 0x0, [], 0, 1⟩
def STO_CE_INFO_SYN : Field := ⟨0x8E0024, 0, 16, .ro, 0x0, [], 0, 1⟩
def STO_UE_INFO_VALID : Field := ⟨0x8E002C, 31, 1, .w1c, 0x0, [], 0, 1⟩
def STO_UE_INFO_REQ : Field := ⟨0x8E002C, 26, 5, .ro, 0x0, [], 0, 1⟩
def STO_UE_INFO_FETCH : Field := ⟨0x8E002C, 25, 1, .ro, 0x0, [], 0, 1⟩
def STO_UE_INFO_CLASS : Field := ⟨0x8E002C, 23, 2, .ro, 0x0, [], 0, 1⟩
def STO_UE_INFO_SYN : Field := ⟨0x8E002C, 0, 16, .ro, 0x0, [], 0, 1⟩
def STO_CNTn_COUNT : Field := ⟨0x8E0040, 0, 32, .rc, 0x0, [4], 0, 1⟩
-- 10_hamlet_memory.md, R286
def STO_CFG_SCRUB : Field := ⟨0x8E0010, 31, 1, .rw, 0x1, [], 0, 1⟩
def STO_CFG_AUTOREP : Field := ⟨0x8E0010, 30, 1, .rw, 0x1, [], 0, 1⟩
def STO_CFG_PERIOD : Field := ⟨0x8E0010, 0, 16, .rw, 0xE10, [], 0, 1⟩
def STO_STAT_TABFULL : Field := ⟨0x8E0014, 2, 1, .w1c, 0x0, [], 0, 1⟩
def STO_STAT_REPBUSY : Field := ⟨0x8E0014, 1, 1, .ro, 0x0, [], 0, 1⟩
def STO_STAT_PASSDONE : Field := ⟨0x8E0014, 0, 1, .w1c, 0x0, [], 0, 1⟩
def STO_SPAREOUT_OUT : Field := ⟨0x8E0018, 0, 32, .ro, 0x0, [], 0, 1⟩
def STO_REPAIRn_VALID : Field := ⟨0x8E0100, 31, 1, .rwl, 0x0, [4], 0, 1⟩
def STO_REPAIRn_FAILED : Field := ⟨0x8E0100, 30, 1, .ro, 0x0, [4], 0, 1⟩
def STO_REPAIRn_ROW : Field := ⟨0x8E0100, 0, 10, .rwl, 0x0, [4], 0, 1⟩
def STO_INJ_ADDR_ADDR : Field := ⟨0x8E0030, 3, 29, .rw, 0x0, [], 0, 1⟩
def STO_INJ_ARM : Field := ⟨0x8E0034, 31, 1, .rw, 0x0, [], 0, 1⟩
def STO_INJ_BIT1 : Field := ⟨0x8E0034, 8, 7, .rw, 0x7F, [], 0, 1⟩
def STO_INJ_BIT0 : Field := ⟨0x8E0034, 0, 7, .rw, 0x7F, [], 0, 1⟩
-- 10_hamlet_memory.md, R293
def ARB_CFG_FORCEFB : Field := ⟨0x830010, 31, 1, .rw, 0x0, [], 0, 1⟩
def ARB_CFG_QUOTA : Field := ⟨0x830010, 0, 5, .rw, 0xC, [], 0, 1⟩
def ARB_CTRL_FREEZE : Field := ⟨0x830014, 0, 1, .rw, 0x0, [], 0, 1⟩
def ARB_STAT_FB : Field := ⟨0x830018, 31, 1, .ro, 0x0, [], 0, 1⟩
def ARB_STAT_DRAINED : Field := ⟨0x830018, 30, 1, .ro, 0x0, [], 0, 1⟩
def ARB_STAT_MASKED : Field := ⟨0x830018, 16, 7, .ro, 0x0, [], 0, 1⟩
def ARB_STAT_QMASK : Field := ⟨0x830018, 0, 16, .ro, 0x0, [], 0, 1⟩
def ARB_CNTn_COUNT : Field := ⟨0x830020, 0, 32, .rc, 0x0, [4], 0, 1⟩
-- 10_hamlet_memory.md, R304
def LCK_n_RESULT : Field := ⟨0x840100, 30, 2, .ro, 0x0, [4], 0, 1⟩
def LCK_n_BROKEN : Field := ⟨0x840100, 8, 1, .ro, 0x0, [4], 0, 1⟩
def LCK_n_OWNER : Field := ⟨0x840100, 4, 3, .ro, 0x0, [4], 0, 1⟩
def LCK_n_RELEASE : Field := ⟨0x840100, 0, 1, .wo, 0x0, [4], 0, 1⟩
def LCK_HELD_HELD : Field := ⟨0x840010, 0, 32, .ro, 0x0, [], 0, 1⟩
def LCK_BROKEN_BROKEN : Field := ⟨0x840014, 0, 32, .w1c, 0x0, [], 0, 1⟩
def LCK_FREE_FREE : Field := ⟨0x840018, 0, 32, .wo, 0x0, [], 0, 1⟩
-- 11_dma.md, R324
def DMA_CTRL_ALLSTOP : Field := ⟨0x820010, 31, 1, .ro, 0x1, [], 0, 1⟩
def DMA_CTRL_STOPALL : Field := ⟨0x820010, 0, 1, .rw, 0x0, [], 0, 1⟩
def DMA_IRQ_ERR : Field := ⟨0x820014, 8, 8, .w1c, 0x0, [], 0, 1⟩
def DMA_IRQ_DONE : Field := ⟨0x820014, 0, 8, .w1c, 0x0, [], 0, 1⟩
def DMA_IRQEN_ERR : Field := ⟨0x820018, 8, 8, .rw, 0x0, [], 0, 1⟩
def DMA_IRQEN_DONE : Field := ⟨0x820018, 0, 8, .rw, 0x0, [], 0, 1⟩
def DMA_CNTn_COUNT : Field := ⟨0x820020, 0, 32, .rc, 0x0, [4], 0, 1⟩
def DMA_CHn_CFG_TE : Field := ⟨0x820100, 31, 1, .rw, 0x0, [64], 0, 1⟩
def DMA_CHn_CFG_CTX : Field := ⟨0x820100, 24, 4, .rw, 0x0, [64], 0, 1⟩
def DMA_CHn_CFG_PRIO : Field := ⟨0x820100, 22, 2, .rw, 0x0, [64], 0, 1⟩
def DMA_CHn_CFG_TRIG : Field := ⟨0x820100, 19, 3, .rw, 0x0, [64], 0, 1⟩
def DMA_CHn_CFG_TARG : Field := ⟨0x820100, 16, 3, .rw, 0x0, [64], 0, 1⟩
def DMA_CHn_CFG_FLIMIT : Field := ⟨0x820100, 0, 16, .rw, 0x1000, [64], 0, 1⟩
def DMA_CHn_DESC_ADDR : Field := ⟨0x820104, 5, 27, .rw, 0x0, [64], 0, 1⟩
def DMA_CHn_CUR_ADDR : Field := ⟨0x820110, 5, 27, .ro, 0x0, [64], 0, 1⟩
def DMA_CHn_FDESC_ADDR : Field := ⟨0x820120, 5, 27, .ro, 0x0, [64], 0, 1⟩
def DMA_CHn_CTRL_GO : Field := ⟨0x820108, 31, 1, .wo, 0x0, [64], 0, 1⟩
def DMA_CHn_CTRL_ABORT : Field := ⟨0x820108, 30, 1, .wo, 0x0, [64], 0, 1⟩
def DMA_CHn_CTRL_RESUME : Field := ⟨0x820108, 29, 1, .wo, 0x0, [64], 0, 1⟩
def DMA_CHn_CTRL_STRIG : Field := ⟨0x820108, 28, 1, .wo, 0x0, [64], 0, 1⟩
def DMA_CHn_STAT_STATE : Field := ⟨0x82010C, 29, 3, .ro, 0x0, [64], 0, 1⟩
def DMA_CHn_STAT_CODE : Field := ⟨0x82010C, 25, 4, .ro, 0x0, [64], 0, 1⟩
def DMA_CHn_STAT_DIR : Field := ⟨0x82010C, 24, 1, .ro, 0x0, [64], 0, 1⟩
def DMA_CHn_STAT_FINFO : Field := ⟨0x82010C, 22, 2, .ro, 0x0, [64], 0, 1⟩
def DMA_CHn_STAT_GOREF : Field := ⟨0x82010C, 21, 1, .w1c, 0x0, [64], 0, 1⟩
def DMA_CHn_STAT_TRGLOST : Field := ⟨0x82010C, 20, 1, .w1c, 0x0, [64], 0, 1⟩
def DMA_CHn_STAT_RINGOVR : Field := ⟨0x82010C, 19, 1, .w1c, 0x0, [64], 0, 1⟩
def DMA_CHn_STAT_PENDTRG : Field := ⟨0x82010C, 8, 8, .ro, 0x0, [64], 0, 1⟩
def DMA_CHn_LOOP0_I1 : Field := ⟨0x820114, 16, 16, .ro, 0x0, [64], 0, 1⟩
def DMA_CHn_LOOP0_I0 : Field := ⟨0x820114, 0, 16, .ro, 0x0, [64], 0, 1⟩
def DMA_CHn_LOOP1_OFF : Field := ⟨0x820118, 16, 3, .ro, 0x0, [64], 0, 1⟩
def DMA_CHn_LOOP1_I2 : Field := ⟨0x820118, 0, 16, .ro, 0x0, [64], 0, 1⟩
def DMA_CHn_FADDR_ADDR : Field := ⟨0x82011C, 0, 32, .ro, 0x0, [64], 0, 1⟩
def DMA_CHn_RBASE_ADDR : Field := ⟨0x820124, 0, 32, .rw, 0x0, [64], 0, 1⟩
def DMA_CHn_RLEN_PEND : Field := ⟨0x820128, 31, 1, .ro, 0x0, [64], 0, 1⟩
def DMA_CHn_RLEN_LEN : Field := ⟨0x820128, 0, 24, .rw, 0x0, [64], 0, 1⟩
def DMA_CHn_RPTR_ADDR : Field := ⟨0x82012C, 0, 32, .rw, 0x0, [64], 0, 1⟩
def DMA_CHn_WM_WM : Field := ⟨0x820130, 0, 24, .rw, 0x1000, [64], 0, 1⟩
-- 12_clocks.md, R330
def CLK_REF_PRESENT : Field := ⟨0x4020010, 31, 1, .ro, 0x0, [], 0, 1⟩
def CLK_REF_REFLOST : Field := ⟨0x4020010, 30, 1, .w1c, 0x0, [], 0, 1⟩
def CLK_REF_MULT : Field := ⟨0x4020010, 24, 2, .ro, 0x0, [], 0, 1⟩
def CLK_PHADJ_PHASE : Field := ⟨0x4020014, 0, 12, .ro, 0x0, [], 0, 1⟩
-- 12_clocks.md, R335
def PLL_CTRL_ACQ : Field := ⟨0x8C0010, 31, 1, .w1s, 0x0, [], 0, 1⟩
def PLL_CTRL_AUTO : Field := ⟨0x8C0010, 30, 1, .rw, 0x1, [], 0, 1⟩
def PLL_CTRL_EN : Field := ⟨0x8C0010, 0, 1, .rw, 0x0, [], 0, 1⟩
def PLL_CFG_WIN : Field := ⟨0x8C0014, 8, 4, .rw, 0x5, [], 0, 1⟩
def PLL_CFG_NSEL : Field := ⟨0x8C0014, 0, 4, .rw, 0x6, [], 0, 1⟩
def PLL_STAT_LOCK : Field := ⟨0x8C0018, 31, 1, .ro, 0x0, [], 0, 1⟩
def PLL_STAT_ALIGNED : Field := ⟨0x8C0018, 30, 1, .ro, 0x0, [], 0, 1⟩
def PLL_STAT_ACQUIRING : Field := ⟨0x8C0018, 29, 1, .ro, 0x0, [], 0, 1⟩
def PLL_STAT_FAILED : Field := ⟨0x8C0018, 28, 1, .ro, 0x0, [], 0, 1⟩
def PLL_STAT_NOBAND : Field := ⟨0x8C0018, 27, 1, .w1c, 0x0, [], 0, 1⟩
def PLL_STAT_LOL : Field := ⟨0x8C0018, 26, 1, .w1c, 0x0, [], 0, 1⟩
def PLL_STAT_MARGIN : Field := ⟨0x8C0018, 25, 1, .w1c, 0x0, [], 0, 1⟩
def PLL_STAT_IDX : Field := ⟨0x8C0018, 16, 6, .ro, 0x0, [], 0, 1⟩
def PLL_STAT_BAND : Field := ⟨0x8C0018, 8, 8, .ro, 0x0, [], 0, 1⟩
def PLL_STAT_TEMP : Field := ⟨0x8C0018, 0, 8, .ro, 0x0, [], 0, 1⟩
def PLL_FORCE_EN : Field := ⟨0x8C001C, 31, 1, .rw, 0x0, [], 0, 1⟩
def PLL_FORCE_VTUNE : Field := ⟨0x8C001C, 16, 10, .ro, 0x0, [], 0, 1⟩
def PLL_FORCE_CODE : Field := ⟨0x8C001C, 0, 8, .rw, 0x0, [], 0, 1⟩
def PLL_CNTn_COUNT : Field := ⟨0x8C0040, 0, 32, .rc, 0x0, [4], 0, 1⟩
def PLL_BANDn_VALID : Field := ⟨0x8C0100, 31, 1, .rw, 0x0, [4], 0, 1⟩
def PLL_BANDn_CODE : Field := ⟨0x8C0100, 0, 8, .rw, 0x0, [4], 0, 1⟩
-- 12_clocks.md, R336
def CLK_LPLL_LOCK : Field := ⟨0x4020018, 31, 1, .ro, 0x0, [], 0, 1⟩
def CLK_LPLL_LOL : Field := ⟨0x4020018, 30, 1, .w1c, 0x0, [], 0, 1⟩
def CLK_LPLL_HOLDOVER : Field := ⟨0x4020018, 0, 1, .ro, 0x0, [], 0, 1⟩
def CLK_UPLL_LOCK : Field := ⟨0x402001C, 31, 1, .ro, 0x0, [], 0, 1⟩
def CLK_UPLL_LOL : Field := ⟨0x402001C, 30, 1, .w1c, 0x0, [], 0, 1⟩
def CLK_UPLL_HOLDOVER : Field := ⟨0x402001C, 0, 1, .ro, 0x0, [], 0, 1⟩
-- 12_clocks.md, R339
def CLK_OUTn_CFG_EN : Field := ⟨0x4020040, 31, 1, .rw, 0x0, [16], 0, 1⟩
def CLK_OUTn_CFG_MODE : Field := ⟨0x4020040, 30, 1, .rw, 0x0, [16], 0, 1⟩
def CLK_OUTn_CFG_ALIGN : Field := ⟨0x4020040, 29, 1, .rw, 0x0, [16], 0, 1⟩
def CLK_OUTn_CFG_SSMODE : Field := ⟨0x4020040, 27, 2, .rw, 0x0, [16], 0, 1⟩
def CLK_OUTn_CFG_SSDEPTH : Field := ⟨0x4020040, 20, 4, .rw, 0x0, [16], 0, 1⟩
def CLK_OUTn_CFG_SSRATE : Field := ⟨0x4020040, 12, 4, .rw, 0x0, [16], 0, 1⟩
def CLK_OUTn_DIV_DIVI : Field := ⟨0x4020044, 20, 10, .rw, 0x30, [16], 0, 1⟩
def CLK_OUTn_DIV_DIVF : Field := ⟨0x4020044, 0, 20, .rw, 0x0, [16], 0, 1⟩
-- 13_power_states.md, R346
def PWR_HLDOh_VNOW : Field := ⟨0x4010040, 16, 8, .ro, 0xF, [4], 0, 1⟩
def PWR_HLDOh_VSET : Field := ⟨0x4010040, 0, 8, .rw, 0xF, [4], 0, 1⟩
-- 13_power_states.md, R362
def PWR_MODE_DEV : Field := ⟨0x4010010, 16, 3, .rw, 0x0, [], 0, 1⟩
def PWR_MODE_HTGT : Field := ⟨0x4010010, 0, 2, .rw, 0x0, [], 2, 8⟩
def PWR_HCTRL_ABORTED : Field := ⟨0x4010014, 16, 8, .w1c, 0x0, [], 0, 1⟩
def PWR_HCTRL_WAKE : Field := ⟨0x4010014, 8, 8, .wo, 0x0, [], 0, 1⟩
def PWR_HCTRL_ENTER : Field := ⟨0x4010014, 0, 8, .wo, 0x0, [], 0, 1⟩
def PWR_STAT_DEVSTATE : Field := ⟨0x4010018, 29, 3, .ro, 0x2, [], 0, 1⟩
def PWR_STAT_ENTERING : Field := ⟨0x4010018, 28, 1, .ro, 0x0, [], 0, 1⟩
def PWR_STAT_RSTERR : Field := ⟨0x4010018, 0, 8, .w1c, 0x0, [], 0, 1⟩
def PWR_HSTATE_WFAIL : Field := ⟨0x401001C, 3, 1, .w1c, 0x0, [], 4, 8⟩
def PWR_HSTATE_BUSY : Field := ⟨0x401001C, 2, 1, .ro, 0x0, [], 4, 8⟩
def PWR_HSTATE_STATE : Field := ⟨0x401001C, 0, 2, .ro, 0x0, [], 4, 8⟩
def PWR_REFUSER_VALID : Field := ⟨0x4010020, 31, 1, .w1c, 0x0, [], 0, 1⟩
def PWR_REFUSER_TARGET : Field := ⟨0x4010020, 24, 3, .ro, 0x0, [], 0, 1⟩
def PWR_REFUSER_HAMLET : Field := ⟨0x4010020, 16, 3, .ro, 0x0, [], 0, 1⟩
def PWR_REFUSER_ID : Field := ⟨0x4010020, 0, 8, .ro, 0x0, [], 0, 1⟩
def PWR_REFUSE_CNT_COUNT : Field := ⟨0x4010024, 0, 32, .rc, 0x0, [], 0, 1⟩
def PWR_HRSTh_ADDR : Field := ⟨0x4010080, 8, 24, .rw, 0x0, [4], 0, 1⟩
def PWR_HRSTh_COUNT : Field := ⟨0x4010080, 0, 8, .rw, 0x0, [4], 0, 1⟩
def HTH_WAKEREC_VALID : Field := ⟨0x4100020, 31, 1, .w1c, 0x0, [], 0, 1⟩
def HTH_WAKEREC_FELL : Field := ⟨0x4100020, 8, 2, .ro, 0x0, [], 0, 1⟩
def HTH_WAKEREC_TRY : Field := ⟨0x4100020, 4, 2, .ro, 0x0, [], 0, 1⟩
def HTH_WAKEREC_STEP : Field := ⟨0x4100020, 0, 4, .ro, 0x0, [], 0, 1⟩
def HTH_ALARM_SEC : Field := ⟨0x4100024, 0, 32, .rw, 0x0, [], 0, 1⟩
def HTH_WAKECFG_ALARM_HIT : Field := ⟨0x4100028, 1, 1, .w1c, 0x0, [], 0, 1⟩
def HTH_WAKECFG_ALARM_EN : Field := ⟨0x4100028, 0, 1, .rw, 0x0, [], 0, 1⟩
-- 14_thermal.md, R374
def THM_LIMIT_SHUTDOWN : Field := ⟨0x4030010, 16, 8, .rwl, 0x7D, [], 0, 1⟩
def THM_LIMIT_THROTTLE : Field := ⟨0x4030010, 8, 8, .rwl, 0x73, [], 0, 1⟩
def THM_LIMIT_WARN : Field := ⟨0x4030010, 0, 8, .rwl, 0x69, [], 0, 1⟩
def THM_HYST_HSD : Field := ⟨0x4030014, 8, 4, .rwl, 0xA, [], 0, 1⟩
def THM_HYST_HTH : Field := ⟨0x4030014, 4, 4, .rwl, 0x5, [], 0, 1⟩
def THM_HYST_HWN : Field := ⟨0x4030014, 0, 4, .rwl, 0x3, [], 0, 1⟩
def THM_SDCFG_SDSTEP : Field := ⟨0x4030018, 0, 8, .rwl, 0x20, [], 0, 1⟩
def THM_STAT_SDLATCH : Field := ⟨0x403001C, 31, 1, .ro, 0x0, [], 0, 1⟩
def THM_STAT_STOPPING : Field := ⟨0x403001C, 30, 1, .ro, 0x0, [], 0, 1⟩
def THM_STAT_PINNED : Field := ⟨0x403001C, 18, 9, .ro, 0x0, [], 0, 1⟩
def THM_STAT_THROT : Field := ⟨0x403001C, 9, 9, .ro, 0x0, [], 0, 1⟩
def THM_STAT_WARNZ : Field := ⟨0x403001C, 0, 9, .ro, 0x0, [], 0, 1⟩
def THM_CTRL_REARM : Field := ⟨0x4030020, 31, 1, .wo, 0x0, [], 0, 1⟩
def THM_CTRL_UNPIN : Field := ⟨0x4030020, 0, 9, .wo, 0x0, [], 0, 1⟩
def THM_CNTn_COUNT : Field := ⟨0x4030030, 0, 32, .rc, 0x0, [4], 0, 1⟩
def THM_ZONEz_MAX : Field := ⟨0x4030040, 16, 12, .ro, 0x0, [4], 0, 1⟩
def THM_ZONEz_HOT : Field := ⟨0x4030040, 0, 7, .ro, 0x0, [4], 0, 1⟩
def THM_ACTz_LDO : Field := ⟨0x4030080, 31, 1, .rw, 0x0, [4], 0, 1⟩
def THM_ACTz_BO : Field := ⟨0x4030080, 30, 1, .rw, 0x0, [4], 0, 1⟩
def THM_ACTz_SHED : Field := ⟨0x4030080, 29, 1, .rw, 0x0, [4], 0, 1⟩
def THM_ACTz_ROT : Field := ⟨0x4030080, 28, 1, .rw, 0x0, [4], 0, 1⟩
def THM_ACTz_LDOSET : Field := ⟨0x4030080, 23, 5, .rw, 0x5, [4], 0, 1⟩
def THM_ACTz_BOSTEP : Field := ⟨0x4030080, 16, 4, .rw, 0x6, [4], 0, 1⟩
def THM_ACTz_SHEDL : Field := ⟨0x4030080, 12, 4, .rw, 0x7, [4], 0, 1⟩
def THM_ACTz_ROTN : Field := ⟨0x4030080, 10, 2, .rw, 0x0, [4], 0, 1⟩
def THM_ACTz_ROTP : Field := ⟨0x4030080, 0, 8, .rw, 0xA, [4], 0, 1⟩
def THM_SENSn_SUSPECT : Field := ⟨0x4030100, 31, 1, .ro, 0x0, [4], 0, 1⟩
def THM_SENSn_FAILED : Field := ⟨0x4030100, 30, 1, .ro, 0x0, [4], 0, 1⟩
def THM_SENSn_ABSENT : Field := ⟨0x4030100, 29, 1, .ro, 0x1, [4], 0, 1⟩
def THM_SENSn_EFF : Field := ⟨0x4030100, 16, 12, .ro, 0x0, [4], 0, 1⟩
def THM_SENSn_RAW : Field := ⟨0x4030100, 0, 12, .ro, 0x0, [4], 0, 1⟩
def HTH_THMREC_VALID : Field := ⟨0x410002C, 31, 1, .w1c, 0x0, [], 0, 1⟩
def HTH_THMREC_HARD : Field := ⟨0x410002C, 30, 1, .ro, 0x0, [], 0, 1⟩
def HTH_THMREC_SENSOR : Field := ⟨0x410002C, 16, 7, .ro, 0x0, [], 0, 1⟩
def HTH_THMREC_TEMP : Field := ⟨0x410002C, 0, 12, .ro, 0x0, [], 0, 1⟩
-- 15_housekeeping_and_bias.md, R386
def HKA_ROUND_PERIOD : Field := ⟨0x4040010, 16, 6, .rwl, 0x4, [], 0, 1⟩
def HKA_ROUND_FRS : Field := ⟨0x4040010, 8, 8, .rwl, 0x2, [], 0, 1⟩
def HKA_ROUND_FRD : Field := ⟨0x4040010, 0, 3, .rwl, 0x0, [], 0, 1⟩
def HKA_STAT_SEQRUN : Field := ⟨0x4040014, 31, 1, .ro, 0x0, [], 0, 1⟩
def HKA_STAT_SEQDONE : Field := ⟨0x4040014, 30, 1, .w1c, 0x0, [], 0, 1⟩
def HKA_STAT_GOREF : Field := ⟨0x4040014, 29, 1, .w1c, 0x0, [], 0, 1⟩
def HKA_STAT_OVERRUN : Field := ⟨0x4040014, 28, 1, .w1c, 0x0, [], 0, 1⟩
def HKA_STAT_ROUND : Field := ⟨0x4040014, 27, 1, .ro, 0x0, [], 0, 1⟩
def HKA_STAT_REFRDY : Field := ⟨0x4040014, 24, 3, .ro, 0x5, [], 0, 1⟩
def HKA_STAT_ENTRY : Field := ⟨0x4040014, 8, 5, .ro, 0x0, [], 0, 1⟩
def HKA_SEQCTL_GO : Field := ⟨0x4040020, 31, 1, .wo, 0x0, [], 0, 1⟩
def HKA_SEQCTL_STOP : Field := ⟨0x4040020, 30, 1, .wo, 0x0, [], 0, 1⟩
def HKA_SEQCTL_MODE : Field := ⟨0x4040020, 28, 2, .rw, 0x0, [], 0, 1⟩
def HKA_SEQCTL_SPER : Field := ⟨0x4040020, 8, 8, .rw, 0x1, [], 0, 1⟩
def HKA_SEQCTL_LEN : Field := ⟨0x4040020, 0, 6, .rw, 0x20, [], 0, 1⟩
def HKA_XT_XOFF : Field := ⟨0x4040030, 16, 16, .rw, 0x0, [], 0, 1⟩
def HKA_XT_XSLOPE : Field := ⟨0x4040030, 0, 16, .rw, 0x2710, [], 0, 1⟩
def HKA_CNTn_COUNT : Field := ⟨0x4040040, 0, 32, .rc, 0x0, [4], 0, 1⟩
def HKA_SUPn_OVR : Field := ⟨0x4040080, 31, 1, .ro, 0x0, [4], 0, 1⟩
def HKA_SUPn_VAL : Field := ⟨0x4040080, 0, 16, .ro, 0x0, [4], 0, 1⟩
def HKA_SEQn_EN : Field := ⟨0x4040100, 31, 1, .rw, 0x0, [4], 0, 1⟩
def HKA_SEQn_REF : Field := ⟨0x4040100, 24, 2, .rw, 0x0, [4], 0, 1⟩
def HKA_SEQn_SETTLE : Field := ⟨0x4040100, 16, 8, .rw, 0x2, [4], 0, 1⟩
def HKA_SEQn_OSR : Field := ⟨0x4040100, 8, 3, .rw, 0x1, [4], 0, 1⟩
def HKA_SEQn_CH : Field := ⟨0x4040100, 0, 8, .rw, 0x0, [4], 0, 1⟩
def HKA_RESn_COARSE : Field := ⟨0x4040200, 16, 16, .ro, 0x0, [8], 0, 1⟩
def HKA_RESn_FINE : Field := ⟨0x4040200, 0, 16, .ro, 0x0, [8], 0, 1⟩
def HKA_RSTn_NEW : Field := ⟨0x4040204, 31, 1, .rc, 0x0, [8], 0, 1⟩
def HKA_RSTn_OVR : Field := ⟨0x4040204, 30, 1, .ro, 0x0, [8], 0, 1⟩
def HKA_RSTn_REC : Field := ⟨0x4040204, 29, 1, .ro, 0x0, [8], 0, 1⟩
def HKA_RSTn_UNAV : Field := ⟨0x4040204, 28, 1, .ro, 0x0, [8], 0, 1⟩
def HKA_RSTn_REFERR : Field := ⟨0x4040204, 27, 1, .ro, 0x0, [8], 0, 1⟩
def HKA_RSTn_PASS : Field := ⟨0x4040204, 16, 8, .ro, 0x0, [8], 0, 1⟩
def HTH_MON_CFG_VBLOW : Field := ⟨0x4100030, 31, 1, .w1c, 0x0, [], 0, 1⟩
def HTH_MON_CFG_VBLIM : Field := ⟨0x4100030, 0, 8, .rw, 0x28, [], 0, 1⟩
def HTH_MON_VAL_VBAT : Field := ⟨0x4100034, 16, 16, .ro, 0x0, [], 0, 1⟩
def HTH_MON_VAL_TEMP : Field := ⟨0x4100034, 0, 12, .ro, 0x0, [], 0, 1⟩
-- 15_housekeeping_and_bias.md, R395
def BDA_CTRL_CLRPIN : Field := ⟨0x4050010, 31, 1, .ro, 0x0, [], 0, 1⟩
def BDA_CHc_CODE_CODE : Field := ⟨0x4050100, 0, 14, .rw, 0x0, [32], 0, 1⟩
def BDA_CHc_CLR_CODE : Field := ⟨0x4050108, 0, 14, .rwl, 0x0, [32], 0, 1⟩
def BDA_CHc_CFG_MODE : Field := ⟨0x4050104, 31, 1, .rw, 0x0, [32], 0, 1⟩
def BDA_CHc_CFG_SLEN : Field := ⟨0x4050104, 30, 1, .rw, 0x0, [32], 0, 1⟩
def BDA_CHc_CFG_STEPM1 : Field := ⟨0x4050104, 16, 12, .rw, 0x0, [32], 0, 1⟩
def BDA_CHc_CFG_INTV : Field := ⟨0x4050104, 0, 10, .rw, 0x1, [32], 0, 1⟩
def BDA_CHc_SINE_EN : Field := ⟨0x405010C, 31, 1, .rw, 0x0, [32], 0, 1⟩
def BDA_CHc_SINE_FTW : Field := ⟨0x405010C, 0, 19, .rw, 0x1, [32], 0, 1⟩
def BDA_CHc_SAMP_AMP : Field := ⟨0x4050110, 16, 13, .rw, 0x0, [32], 0, 1⟩
def BDA_CHc_SAMP_OFFSET : Field := ⟨0x4050110, 0, 14, .rw, 0x0, [32], 0, 1⟩
def BDA_CHc_STAT_OWNER : Field := ⟨0x4050114, 30, 2, .ro, 0x0, [32], 0, 1⟩
def BDA_CHc_STAT_FLOAT : Field := ⟨0x4050114, 29, 1, .ro, 0x1, [32], 0, 1⟩
def BDA_CHc_STAT_CLRD : Field := ⟨0x4050114, 28, 1, .ro, 0x1, [32], 0, 1⟩
def BDA_CHc_STAT_SINEWAIT : Field := ⟨0x4050114, 27, 1, .ro, 0x0, [32], 0, 1⟩
def BDA_CHc_STAT_BUSY : Field := ⟨0x4050114, 26, 1, .w1c, 0x0, [32], 0, 1⟩
def BDA_CHc_STAT_SAT : Field := ⟨0x4050114, 25, 1, .w1c, 0x0, [32], 0, 1⟩
def BDA_CHc_STAT_OUT : Field := ⟨0x4050114, 0, 14, .ro, 0x0, [32], 0, 1⟩
-- 16_calibration_and_repair.md, R398
def CAL_CFG_SRC : Field := ⟨0x4060010, 0, 1, .rwl, 0x0, [], 0, 1⟩
def CAL_REFSTAT_VALID : Field := ⟨0x4060014, 31, 1, .ro, 0x0, [], 0, 1⟩
def CAL_REFSTAT_NOREF : Field := ⟨0x4060014, 30, 1, .ro, 0x0, [], 0, 1⟩
def CAL_REFSTAT_VAL : Field := ⟨0x4060014, 0, 16, .ro, 0x0, [], 0, 1⟩
-- 16_calibration_and_repair.md, R404
def CAL_REQs_GO : Field := ⟨0x4060100, 31, 1, .w1s, 0x0, [32], 0, 1⟩
def CAL_REQs_STOP : Field := ⟨0x4060100, 30, 1, .wo, 0x0, [32], 0, 1⟩
def CAL_REQs_MODE : Field := ⟨0x4060100, 28, 2, .rw, 0x0, [32], 0, 1⟩
def CAL_REQs_CHECK : Field := ⟨0x4060100, 26, 2, .rw, 0x1, [32], 0, 1⟩
def CAL_REQs_MASK : Field := ⟨0x4060100, 16, 8, .rw, 0xFF, [32], 0, 1⟩
def CAL_REQs_KIND : Field := ⟨0x4060100, 0, 8, .rw, 0x0, [32], 0, 1⟩
def CAL_PARs_TMO : Field := ⟨0x4060104, 16, 16, .rw, 0x64, [32], 0, 1⟩
def CAL_PARs_TOL : Field := ⟨0x4060104, 0, 16, .rw, 0x4, [32], 0, 1⟩
def CAL_STATs_BUSY : Field := ⟨0x4060108, 31, 1, .ro, 0x0, [32], 0, 1⟩
def CAL_STATs_DONE : Field := ⟨0x4060108, 30, 1, .w1c, 0x0, [32], 0, 1⟩
def CAL_STATs_FAIL : Field := ⟨0x4060108, 29, 1, .w1c, 0x0, [32], 0, 1⟩
def CAL_STATs_REFUSED : Field := ⟨0x4060108, 28, 1, .w1c, 0x0, [32], 0, 1⟩
def CAL_STATs_LATE : Field := ⟨0x4060108, 27, 1, .w1c, 0x0, [32], 0, 1⟩
def CAL_STATs_CODE : Field := ⟨0x4060108, 24, 3, .ro, 0x0, [32], 0, 1⟩
def CAL_STATs_RUNS : Field := ⟨0x4060108, 16, 4, .ro, 0x0, [32], 0, 1⟩
def CAL_STATs_KIND : Field := ⟨0x4060108, 0, 8, .ro, 0x0, [32], 0, 1⟩
def CAL_CNTn_COUNT : Field := ⟨0x4060040, 0, 32, .rc, 0x0, [4], 0, 1⟩
-- 16_calibration_and_repair.md, R407
def CAL_PATHe_DACDEG : Field := ⟨0x4060400, 31, 1, .ro, 0x0, [4], 0, 1⟩
def CAL_PATHe_ADCDEG : Field := ⟨0x4060400, 30, 1, .ro, 0x0, [4], 0, 1⟩
def CAL_PATHe_DACSP : Field := ⟨0x4060400, 8, 3, .ro, 0x0, [4], 0, 1⟩
def CAL_PATHe_ADCSP : Field := ⟨0x4060400, 0, 2, .ro, 0x0, [4], 0, 1⟩
def CAL_ORXh_ADCDEG : Field := ⟨0x4060500, 30, 1, .ro, 0x0, [4], 0, 1⟩
def CAL_ORXh_ADCSP : Field := ⟨0x4060500, 0, 2, .ro, 0x0, [4], 0, 1⟩
def CAL_BIASc_DEG : Field := ⟨0x4060580, 31, 1, .ro, 0x0, [4], 0, 1⟩
def CAL_BIASc_SEGSP : Field := ⟨0x4060580, 0, 3, .ro, 0x0, [4], 0, 1⟩
-- 16_calibration_and_repair.md, R413
def BIST_CMD_GO : Field := ⟨0x4110010, 31, 1, .w1s, 0x0, [], 0, 1⟩
def BIST_CMD_NEXTBOOT : Field := ⟨0x4110010, 30, 1, .rw, 0x0, [], 0, 1⟩
def BIST_CMD_REPAIR : Field := ⟨0x4110010, 29, 1, .rw, 0x0, [], 0, 1⟩
def BIST_CMD_KIND : Field := ⟨0x4110010, 8, 2, .rw, 0x0, [], 0, 1⟩
def BIST_CMD_TARGET : Field := ⟨0x4110010, 0, 4, .rw, 0x0, [], 0, 1⟩
def BIST_PATS_PATS : Field := ⟨0x4110014, 0, 32, .rw, 0x10000, [], 0, 1⟩
def BIST_SEED_LO_VAL : Field := ⟨0x4110018, 0, 32, .rw, 0x0, [], 0, 1⟩
def BIST_SEED_HI_VAL : Field := ⟨0x411001C, 0, 32, .rw, 0x0, [], 0, 1⟩
def BIST_EXPL_LO_VAL : Field := ⟨0x4110020, 0, 32, .rw, 0x0, [], 0, 1⟩
def BIST_EXPL_HI_VAL : Field := ⟨0x4110024, 0, 32, .rw, 0x0, [], 0, 1⟩
def BIST_EXPM_LO_VAL : Field := ⟨0x4110028, 0, 32, .rw, 0x0, [], 0, 1⟩
def BIST_EXPM_HI_VAL : Field := ⟨0x411002C, 0, 32, .rw, 0x0, [], 0, 1⟩
def BIST_SIGL_LO_VAL : Field := ⟨0x4110030, 0, 32, .ro, 0x0, [], 0, 1⟩
def BIST_SIGL_HI_VAL : Field := ⟨0x4110034, 0, 32, .ro, 0x0, [], 0, 1⟩
def BIST_SIGM_LO_VAL : Field := ⟨0x4110038, 0, 32, .ro, 0x0, [], 0, 1⟩
def BIST_SIGM_HI_VAL : Field := ⟨0x411003C, 0, 32, .ro, 0x0, [], 0, 1⟩
def BIST_STAT_BUSY : Field := ⟨0x4110040, 31, 1, .ro, 0x0, [], 0, 1⟩
def BIST_STAT_PHASE : Field := ⟨0x4110040, 28, 3, .ro, 0x0, [], 0, 1⟩
def BIST_STAT_LPASS : Field := ⟨0x4110040, 27, 1, .ro, 0x0, [], 0, 1⟩
def BIST_STAT_LFAIL : Field := ⟨0x4110040, 26, 1, .ro, 0x0, [], 0, 1⟩
def BIST_STAT_MPASS : Field := ⟨0x4110040, 25, 1, .ro, 0x0, [], 0, 1⟩
def BIST_STAT_MFAIL : Field := ⟨0x4110040, 24, 1, .ro, 0x0, [], 0, 1⟩
def BIST_STAT_REFUSED : Field := ⟨0x4110040, 23, 1, .w1c, 0x0, [], 0, 1⟩
def BIST_STAT_ABORT : Field := ⟨0x4110040, 22, 1, .w1c, 0x0, [], 0, 1⟩
def BIST_STAT_NOSPARE : Field := ⟨0x4110040, 21, 1, .ro, 0x0, [], 0, 1⟩
def BIST_STAT_NFAIL : Field := ⟨0x4110040, 16, 5, .ro, 0x0, [], 0, 1⟩
def BIST_STAT_TARGET : Field := ⟨0x4110040, 0, 4, .ro, 0x0, [], 0, 1⟩
def BIST_FAILn_VALID : Field := ⟨0x4110080, 31, 1, .ro, 0x0, [4], 0, 1⟩
def BIST_FAILn_REPAIRED : Field := ⟨0x4110080, 30, 1, .ro, 0x0, [4], 0, 1⟩
def BIST_FAILn_BANK : Field := ⟨0x4110080, 16, 4, .ro, 0x0, [4], 0, 1⟩
def BIST_FAILn_ROW : Field := ⟨0x4110080, 0, 10, .ro, 0x0, [4], 0, 1⟩
-- 17_watch_receiver.md, R431
def WCH_CTRL_EN : Field := ⟨0x40C0010, 31, 1, .rw, 0x0, [], 0, 1⟩
def WCH_CTRL_DMOD : Field := ⟨0x40C0010, 26, 2, .rw, 0x0, [], 0, 1⟩
def WCH_CTRL_FLOW : Field := ⟨0x40C0010, 16, 8, .rw, 0x7, [], 0, 1⟩
def WCH_CTRL_BTREC : Field := ⟨0x40C0010, 1, 1, .rw, 0x0, [], 0, 1⟩
def WCH_CTRL_SWREC : Field := ⟨0x40C0010, 0, 1, .rw, 0x1, [], 0, 1⟩
def WCH_STAT_READY : Field := ⟨0x40C0014, 31, 1, .ro, 0x0, [], 0, 1⟩
def WCH_STAT_OVR : Field := ⟨0x40C0014, 30, 1, .w1c, 0x0, [], 0, 1⟩
def WCH_STAT_SDLOST : Field := ⟨0x40C0014, 29, 1, .w1c, 0x0, [], 0, 1⟩
def WCH_STAT_GAIN : Field := ⟨0x40C0014, 16, 5, .ro, 0x0, [], 0, 1⟩
def WCH_CNTn_COUNT : Field := ⟨0x40C0040, 0, 32, .rc, 0x0, [4], 0, 1⟩
def WCH_FMn_CFG_EN : Field := ⟨0x40C0100, 31, 1, .rw, 0x0, [32], 0, 1⟩
def WCH_FMn_CFG_RBDS : Field := ⟨0x40C0100, 30, 1, .rw, 0x0, [32], 0, 1⟩
def WCH_FMn_CFG_AFEN : Field := ⟨0x40C0100, 29, 1, .rw, 0x0, [32], 0, 1⟩
def WCH_FMn_CFG_USERAF : Field := ⟨0x40C0100, 28, 1, .rw, 0x0, [32], 0, 1⟩
def WCH_FMn_CFG_GMASK : Field := ⟨0x40C0100, 24, 4, .rw, 0x0, [32], 0, 1⟩
def WCH_FMn_CFG_QTH : Field := ⟨0x40C0100, 16, 8, .rw, 0x32, [32], 0, 1⟩
def WCH_FMn_CFG_DWELL : Field := ⟨0x40C0100, 8, 8, .rw, 0x5, [32], 0, 1⟩
def WCH_FMn_FREQ_FREQ : Field := ⟨0x40C0104, 0, 14, .rw, 0x2710, [32], 0, 1⟩
def WCH_FMn_STAT_SYNC : Field := ⟨0x40C0108, 31, 1, .ro, 0x0, [32], 0, 1⟩
def WCH_FMn_STAT_AFTRY : Field := ⟨0x40C0108, 30, 1, .ro, 0x0, [32], 0, 1⟩
def WCH_FMn_STAT_AFFAIL : Field := ⟨0x40C0108, 29, 1, .w1c, 0x0, [32], 0, 1⟩
def WCH_FMn_STAT_AFSW : Field := ⟨0x40C0108, 28, 1, .w1c, 0x0, [32], 0, 1⟩
def WCH_FMn_STAT_RSSI : Field := ⟨0x40C0108, 16, 8, .ro, 0x80, [32], 0, 1⟩
def WCH_FMn_STAT_Q : Field := ⟨0x40C0108, 8, 8, .ro, 0x0, [32], 0, 1⟩
def WCH_FMn_STAT_AFN : Field := ⟨0x40C0108, 0, 5, .ro, 0x0, [32], 0, 1⟩
def WCH_FMn_PI_VALID : Field := ⟨0x40C010C, 31, 1, .ro, 0x0, [32], 0, 1⟩
def WCH_FMn_PI_PI : Field := ⟨0x40C010C, 0, 16, .ro, 0x0, [32], 0, 1⟩
def WCH_FMn_PS0_CH : Field := ⟨0x40C0110, 0, 8, .ro, 0x0, [32], 8, 4⟩
def WCH_FMn_PS0_VALID : Field := ⟨0x40C0110, 31, 1, .ro, 0x0, [32], 0, 1⟩
def WCH_FMn_PS1_CH : Field := ⟨0x40C0114, 0, 8, .ro, 0x0, [32], 8, 4⟩
def WCH_FMn_UAF0_AFB : Field := ⟨0x40C0118, 16, 16, .rw, 0x0, [32], 0, 1⟩
def WCH_FMn_UAF0_AFA : Field := ⟨0x40C0118, 0, 16, .rw, 0x0, [32], 0, 1⟩
def WCH_FMn_UAF1_AFB : Field := ⟨0x40C011C, 16, 16, .rw, 0x0, [32], 0, 1⟩
def WCH_FMn_UAF1_AFA : Field := ⟨0x40C011C, 0, 16, .rw, 0x0, [32], 0, 1⟩
def WCH_DIG_CFG_AFEN : Field := ⟨0x40C0200, 29, 1, .rw, 0x0, [], 0, 1⟩
def WCH_DIG_CFG_QTH : Field := ⟨0x40C0200, 16, 8, .rw, 0x32, [], 0, 1⟩
def WCH_DIG_CFG_DWELL : Field := ⟨0x40C0200, 8, 8, .rw, 0x5, [], 0, 1⟩
def WCH_DIG_CFG_BW : Field := ⟨0x40C0200, 6, 2, .rw, 0x2, [], 0, 1⟩
def WCH_DIG_CFG_MASK : Field := ⟨0x40C0200, 0, 6, .rw, 0x0, [], 0, 1⟩
def WCH_DIG_FREQ_PLP : Field := ⟨0x40C0204, 24, 8, .rw, 0x0, [], 0, 1⟩
def WCH_DIG_FREQ_FREQ : Field := ⟨0x40C0204, 0, 24, .rw, 0x2B110, [], 0, 1⟩
def WCH_DIG_STAT_LOCK : Field := ⟨0x40C0208, 31, 1, .ro, 0x0, [], 0, 1⟩
def WCH_DIG_STAT_AFTRY : Field := ⟨0x40C0208, 30, 1, .ro, 0x0, [], 0, 1⟩
def WCH_DIG_STAT_AFFAIL : Field := ⟨0x40C0208, 29, 1, .w1c, 0x0, [], 0, 1⟩
def WCH_DIG_STAT_AFSW : Field := ⟨0x40C0208, 28, 1, .w1c, 0x0, [], 0, 1⟩
def WCH_DIG_STAT_IDVAL : Field := ⟨0x40C0208, 27, 1, .ro, 0x0, [], 0, 1⟩
def WCH_DIG_STAT_RSSI : Field := ⟨0x40C0208, 16, 8, .ro, 0x80, [], 0, 1⟩
def WCH_DIG_STAT_Q : Field := ⟨0x40C0208, 8, 8, .ro, 0x0, [], 0, 1⟩
def WCH_DIG_STAT_MER : Field := ⟨0x40C0208, 0, 8, .ro, 0x0, [], 0, 1⟩
def WCH_DIG_ID_ONID : Field := ⟨0x40C020C, 16, 16, .ro, 0x0, [], 0, 1⟩
def WCH_DIG_ID_ID : Field := ⟨0x40C020C, 0, 16, .ro, 0x0, [], 0, 1⟩
def WCH_BT_CFG_TSRC : Field := ⟨0x40C0300, 0, 2, .rw, 0x0, [], 0, 1⟩
def WCH_BT_UTC_UTC : Field := ⟨0x40C0304, 0, 32, .ro, 0x0, [], 0, 1⟩
def WCH_BT_MS_VALID : Field := ⟨0x40C0308, 31, 1, .ro, 0x0, [], 0, 1⟩
def WCH_BT_MS_BTNEW : Field := ⟨0x40C0308, 30, 1, .ro, 0x0, [], 0, 1⟩
def WCH_BT_MS_SRC : Field := ⟨0x40C0308, 24, 2, .ro, 0x0, [], 0, 1⟩
def WCH_BT_MS_LTO : Field := ⟨0x40C0308, 16, 8, .ro, 0x0, [], 0, 1⟩
def WCH_BT_MS_MS : Field := ⟨0x40C0308, 0, 10, .ro, 0x0, [], 0, 1⟩
def WCH_BT_NS_VAL : Field := ⟨0x40C030C, 0, 32, .ro, 0x0, [], 0, 1⟩
def WCH_BT_SEC_VAL : Field := ⟨0x40C0310, 0, 32, .ro, 0x0, [], 0, 1⟩
def WCH_SW_CFG_GO : Field := ⟨0x40C0400, 31, 1, .w1s, 0x0, [], 0, 1⟩
def WCH_SW_CFG_STOP : Field := ⟨0x40C0400, 30, 1, .wo, 0x0, [], 0, 1⟩
def WCH_SW_CFG_SRC : Field := ⟨0x40C0400, 29, 1, .rw, 0x0, [], 0, 1⟩
def WCH_SW_CFG_GATE : Field := ⟨0x40C0400, 28, 1, .rw, 0x0, [], 0, 1⟩
def WCH_SW_CFG_REPEAT : Field := ⟨0x40C0400, 27, 1, .rw, 0x0, [], 0, 1⟩
def WCH_SW_CFG_HAM : Field := ⟨0x40C0400, 24, 3, .rw, 0x0, [], 0, 1⟩
def WCH_SW_CFG_LENM1 : Field := ⟨0x40C0400, 0, 6, .rw, 0x0, [], 0, 1⟩
def WCH_SW_STAT_BUSY : Field := ⟨0x40C0404, 31, 1, .ro, 0x0, [], 0, 1⟩
def WCH_SW_STAT_DONE : Field := ⟨0x40C0404, 30, 1, .w1c, 0x0, [], 0, 1⟩
def WCH_SW_STAT_HIT : Field := ⟨0x40C0404, 29, 1, .w1c, 0x0, [], 0, 1⟩
def WCH_SW_STAT_END : Field := ⟨0x40C0404, 24, 3, .ro, 0x0, [], 0, 1⟩
def WCH_SW_STAT_ENTRY : Field := ⟨0x40C0404, 0, 6, .ro, 0x0, [], 0, 1⟩
def WCH_SWn_FREQ_FREQ : Field := ⟨0x40C0500, 0, 24, .rw, 0x0, [16], 0, 1⟩
def WCH_SWn_CFG_KIND : Field := ⟨0x40C0504, 30, 2, .rw, 0x0, [16], 0, 1⟩
def WCH_SWn_CFG_BW : Field := ⟨0x40C0504, 16, 12, .rw, 0x0, [16], 0, 1⟩
def WCH_SWn_CFG_DWELL : Field := ⟨0x40C0504, 0, 8, .rw, 0x1, [16], 0, 1⟩
def WCH_SWn_THR_EN : Field := ⟨0x40C0508, 31, 1, .rw, 0x0, [16], 0, 1⟩
def WCH_SWn_THR_THR : Field := ⟨0x40C0508, 0, 16, .rw, 0x0, [16], 0, 1⟩
def WCH_SWn_RES_VALID : Field := ⟨0x40C050C, 31, 1, .ro, 0x0, [16], 0, 1⟩
def WCH_SWn_RES_HIT : Field := ⟨0x40C050C, 30, 1, .ro, 0x0, [16], 0, 1⟩
def WCH_SWn_RES_PART : Field := ⟨0x40C050C, 29, 1, .ro, 0x0, [16], 0, 1⟩
def WCH_SWn_RES_PREEMPT : Field := ⟨0x40C050C, 28, 1, .ro, 0x0, [16], 0, 1⟩
def WCH_SWn_RES_OVR : Field := ⟨0x40C050C, 27, 1, .ro, 0x0, [16], 0, 1⟩
def WCH_SWn_RES_SKIP : Field := ⟨0x40C050C, 26, 1, .ro, 0x0, [16], 0, 1⟩
def WCH_SWn_RES_AGCX : Field := ⟨0x40C050C, 25, 1, .ro, 0x0, [16], 0, 1⟩
def WCH_SWn_RES_LEVEL : Field := ⟨0x40C050C, 0, 16, .ro, 0x0, [16], 0, 1⟩
-- 18_stile_and_bell.md, R450
def STL_CFG_MOD : Field := ⟨0x40D0010, 31, 1, .rw, 0x0, [], 0, 1⟩
def STL_CFG_DIV : Field := ⟨0x40D0010, 30, 1, .rw, 0x1, [], 0, 1⟩
def STL_CFG_FOFB : Field := ⟨0x40D0010, 29, 1, .rw, 0x1, [], 0, 1⟩
def STL_CFG_WHITEN : Field := ⟨0x40D0010, 28, 1, .rw, 0x0, [], 0, 1⟩
def STL_CFG_PROMISC : Field := ⟨0x40D0010, 27, 1, .rw, 0x0, [], 0, 1⟩
def STL_CFG_DEV : Field := ⟨0x40D0010, 12, 12, .rw, 0xFA, [], 0, 1⟩
def STL_CFG_SRATE : Field := ⟨0x40D0010, 0, 12, .rw, 0x1F4, [], 0, 1⟩
def STL_FREQ_PEND : Field := ⟨0x40D0014, 31, 1, .ro, 0x0, [], 0, 1⟩
def STL_FREQ_FREQ : Field := ⟨0x40D0014, 0, 26, .rw, 0x21656A5, [], 0, 1⟩
def STL_PKT_PRELEN : Field := ⟨0x40D0018, 24, 8, .rw, 0x20, [], 0, 1⟩
def STL_PKT_PWR : Field := ⟨0x40D0018, 16, 6, .rw, 0x28, [], 0, 1⟩
def STL_PKT_RXANT : Field := ⟨0x40D0018, 1, 1, .rw, 0x0, [], 0, 1⟩
def STL_PKT_TXANT : Field := ⟨0x40D0018, 0, 1, .rw, 0x0, [], 0, 1⟩
def STL_SYNC_SYNC : Field := ⟨0x40D001C, 0, 32, .rw, 0x93B42D1E, [], 0, 1⟩
def STL_CMD_CMD : Field := ⟨0x40D0020, 0, 4, .wo, 0x0, [], 0, 1⟩
def STL_SEQ_TXNEXT : Field := ⟨0x40D0024, 30, 2, .rw, 0x0, [], 0, 1⟩
def STL_SEQ_RXNEXT : Field := ⟨0x40D0024, 28, 2, .rw, 0x0, [], 0, 1⟩
def STL_SEQ_TXWAIT : Field := ⟨0x40D0024, 16, 10, .rw, 0xC8, [], 0, 1⟩
def STL_SEQ_RXTO : Field := ⟨0x40D0024, 0, 16, .rw, 0x0, [], 0, 1⟩
def STL_STAT_STATE : Field := ⟨0x40D0028, 29, 3, .ro, 0x0, [], 0, 1⟩
def STL_STAT_LATCHED : Field := ⟨0x40D0028, 28, 1, .ro, 0x0, [], 0, 1⟩
def STL_STAT_HEARTH : Field := ⟨0x40D0028, 27, 1, .ro, 0x0, [], 0, 1⟩
def STL_STAT_XOFAIL : Field := ⟨0x40D0028, 26, 1, .w1c, 0x0, [], 0, 1⟩
def STL_STAT_EXCH : Field := ⟨0x40D0028, 25, 1, .ro, 0x0, [], 0, 1⟩
def STL_STAT_SYNCD : Field := ⟨0x40D0028, 24, 1, .ro, 0x0, [], 0, 1⟩
def STL_STAT_LASTRES : Field := ⟨0x40D0028, 16, 4, .ro, 0x0, [], 0, 1⟩
def STL_STAT_FOFF : Field := ⟨0x40D0028, 0, 16, .ro, 0x0, [], 0, 1⟩
def STL_TXBUF_WORD : Field := ⟨0x40D0100, 0, 32, .rw, 0x0, [4], 0, 1⟩
def STL_RXBUF_WORD : Field := ⟨0x40D0400, 0, 32, .ro, 0x0, [512, 4], 0, 1⟩
def STL_RXb_INFO_FULL : Field := ⟨0x40D0040, 31, 1, .w1c, 0x0, [8], 0, 1⟩
def STL_RXb_INFO_ANT : Field := ⟨0x40D0040, 30, 1, .ro, 0x0, [8], 0, 1⟩
def STL_RXb_INFO_RSSI : Field := ⟨0x40D0040, 16, 8, .ro, 0x0, [8], 0, 1⟩
def STL_RXb_INFO_FOFF : Field := ⟨0x40D0040, 0, 16, .ro, 0x0, [8], 0, 1⟩
def STL_RXb_QUAL_LQI : Field := ⟨0x40D0044, 24, 8, .ro, 0x0, [8], 0, 1⟩
def STL_RXb_QUAL_EVM : Field := ⟨0x40D0044, 0, 16, .ro, 0x0, [8], 0, 1⟩
def STL_CNTn_COUNT : Field := ⟨0x40D0060, 0, 32, .rc, 0x0, [4], 0, 1⟩
def BEL_CFG_EN : Field := ⟨0x40E0010, 31, 1, .rw, 0x0, [], 0, 1⟩
def BEL_CFG_UEN : Field := ⟨0x40E0010, 30, 1, .rw, 0x1, [], 0, 1⟩
def BEL_CFG_ANS : Field := ⟨0x40E0010, 29, 1, .rw, 0x1, [], 0, 1⟩
def BEL_CFG_ANT : Field := ⟨0x40E0010, 28, 1, .rw, 0x0, [], 0, 1⟩
def BEL_CFG_PER : Field := ⟨0x40E0010, 25, 3, .rw, 0x3, [], 0, 1⟩
def BEL_CFG_UPRE : Field := ⟨0x40E0010, 16, 8, .rw, 0xB0, [], 0, 1⟩
def BEL_CFG_FREQ : Field := ⟨0x40E0010, 0, 14, .rw, 0x21EB, [], 0, 1⟩
def BEL_GRPn_EN : Field := ⟨0x40E0014, 31, 1, .rw, 0x0, [4], 0, 1⟩
def BEL_GRPn_CODE : Field := ⟨0x40E0014, 0, 16, .rw, 0x0, [4], 0, 1⟩
def BEL_ANS_PWR : Field := ⟨0x40E0024, 16, 6, .rw, 0x28, [], 0, 1⟩
def BEL_ASYNC_ASYNC : Field := ⟨0x40E0028, 0, 32, .rw, 0x93B42D1E, [], 0, 1⟩
def BEL_STAT_MATCH : Field := ⟨0x40E002C, 31, 1, .w1c, 0x0, [], 0, 1⟩
def BEL_STAT_ANSWERED : Field := ⟨0x40E002C, 30, 1, .w1c, 0x0, [], 0, 1⟩
def BEL_STAT_NOANS : Field := ⟨0x40E002C, 29, 1, .w1c, 0x0, [], 0, 1⟩
def BEL_STAT_SRC : Field := ⟨0x40E002C, 24, 3, .ro, 0x0, [], 0, 1⟩
def BEL_STAT_CODE : Field := ⟨0x40E002C, 0, 16, .ro, 0x0, [], 0, 1⟩
def BEL_CNTn_COUNT : Field := ⟨0x40E0040, 0, 32, .rc, 0x0, [4], 0, 1⟩
-- 19_startup_and_trust.md, R455
def SYS_RSTCAUSE_REEVE : Field := ⟨0x4000020, 6, 1, .w1c, 0x0, [], 0, 1⟩
def SYS_RSTCAUSE_HARDCUT : Field := ⟨0x4000020, 5, 1, .w1c, 0x0, [], 0, 1⟩
def SYS_RSTCAUSE_WAKE : Field := ⟨0x4000020, 4, 1, .w1c, 0x0, [], 0, 1⟩
def SYS_RSTCAUSE_SOFT : Field := ⟨0x4000020, 3, 1, .w1c, 0x0, [], 0, 1⟩
def SYS_RSTCAUSE_REMOTE : Field := ⟨0x4000020, 2, 1, .w1c, 0x0, [], 0, 1⟩
def SYS_RSTCAUSE_PIN : Field := ⟨0x4000020, 1, 1, .w1c, 0x0, [], 0, 1⟩
def SYS_RSTCAUSE_POR : Field := ⟨0x4000020, 0, 1, .w1c, 0x0, [], 0, 1⟩
def SYS_RST_REEVE : Field := ⟨0x4000024, 1, 1, .wo, 0x0, [], 0, 1⟩
def SYS_RST_DEV : Field := ⟨0x4000024, 0, 1, .wo, 0x0, [], 0, 1⟩
-- 19_startup_and_trust.md, R463
def AGT_LCS_LCS : Field := ⟨0x40F0010, 29, 3, .ro, 0x0, [], 0, 1⟩
def AGT_LCS_DEBUG : Field := ⟨0x40F0010, 28, 1, .ro, 0x0, [], 0, 1⟩
def AGT_LCS_PKEY : Field := ⟨0x40F0010, 27, 1, .ro, 0x0, [], 0, 1⟩
def AGT_LCS_REVOKED : Field := ⟨0x40F0010, 4, 4, .ro, 0x0, [], 0, 1⟩
def AGT_LCS_PROG : Field := ⟨0x40F0010, 0, 4, .ro, 0x0, [], 0, 1⟩
def AGT_ARB_FLOOR : Field := ⟨0x40F0014, 16, 7, .ro, 0x0, [], 0, 1⟩
def AGT_ARB_HEARTH : Field := ⟨0x40F0014, 8, 7, .ro, 0x0, [], 0, 1⟩
def AGT_ARB_FUSE : Field := ⟨0x40F0014, 0, 7, .ro, 0x0, [], 0, 1⟩
def AGT_CMD_GO : Field := ⟨0x40F0020, 31, 1, .w1s, 0x0, [], 0, 1⟩
def AGT_CMD_ARG : Field := ⟨0x40F0020, 16, 8, .rw, 0x0, [], 0, 1⟩
def AGT_CMD_OP : Field := ⟨0x40F0020, 0, 8, .rw, 0x0, [], 0, 1⟩
def AGT_SRC_ADDR : Field := ⟨0x40F0024, 0, 32, .rw, 0x0, [], 0, 1⟩
def AGT_DST_ADDR : Field := ⟨0x40F0028, 0, 32, .rw, 0x0, [], 0, 1⟩
def AGT_LEN_LEN : Field := ⟨0x40F002C, 0, 32, .rw, 0x0, [], 0, 1⟩
def AGT_STAT_BUSY : Field := ⟨0x40F0030, 31, 1, .ro, 0x0, [], 0, 1⟩
def AGT_STAT_DONE : Field := ⟨0x40F0030, 30, 1, .w1c, 0x0, [], 0, 1⟩
def AGT_STAT_OP : Field := ⟨0x40F0030, 16, 8, .ro, 0x0, [], 0, 1⟩
def AGT_STAT_RESULT : Field := ⟨0x40F0030, 0, 4, .ro, 0x0, [], 0, 1⟩
def AGT_HIMGh_VALID : Field := ⟨0x40F0040, 31, 1, .ro, 0x0, [4], 0, 1⟩
def AGT_HIMGh_SLOT : Field := ⟨0x40F0040, 24, 2, .ro, 0x0, [4], 0, 1⟩
def AGT_HIMGh_SVN : Field := ⟨0x40F0040, 16, 7, .ro, 0x0, [4], 0, 1⟩
def AGT_HIMGh_VERSION : Field := ⟨0x40F0040, 0, 16, .ro, 0x0, [4], 0, 1⟩
-- 19_startup_and_trust.md, R468
def AGT_SESS_OPEN : Field := ⟨0x40F0070, 31, 1, .ro, 0x0, [], 0, 1⟩
def AGT_SESS_PENDAUTH : Field := ⟨0x40F0070, 30, 1, .ro, 0x0, [], 0, 1⟩
def AGT_SESS_AUTH : Field := ⟨0x40F0070, 29, 1, .ro, 0x0, [], 0, 1⟩
def AGT_SESS_FAILS : Field := ⟨0x40F0070, 24, 2, .ro, 0x0, [], 0, 1⟩
def AGT_SESS_PEER : Field := ⟨0x40F0070, 16, 8, .ro, 0x0, [], 0, 1⟩
def AGT_SESS_SID : Field := ⟨0x40F0070, 0, 16, .ro, 0x0, [], 0, 1⟩
-- 20_faults_and_availability.md, R478
def FLT_LOGn_W0_SEV : Field := ⟨0x4070400, 30, 2, .ro, 0x0, [32], 0, 1⟩
def FLT_LOGn_W0_ACTIVE : Field := ⟨0x4070400, 29, 1, .ro, 0x0, [32], 0, 1⟩
def FLT_LOGn_W0_ESC : Field := ⟨0x4070400, 28, 1, .ro, 0x0, [32], 0, 1⟩
def FLT_LOGn_W0_ELEM : Field := ⟨0x4070400, 16, 8, .ro, 0x0, [32], 0, 1⟩
def FLT_LOGn_W0_NUM : Field := ⟨0x4070400, 0, 12, .ro, 0x0, [32], 0, 1⟩
def FLT_LOGn_W1_INFO : Field := ⟨0x4070404, 0, 32, .ro, 0x0, [32], 0, 1⟩
def FLT_LOGn_W2_SEC : Field := ⟨0x4070408, 0, 32, .ro, 0x0, [32], 0, 1⟩
def FLT_LOGn_W3_NS : Field := ⟨0x407040C, 0, 32, .ro, 0x0, [32], 0, 1⟩
def FLT_LOGn_W4_SEQ : Field := ⟨0x4070410, 16, 16, .ro, 0x0, [32], 0, 1⟩
def FLT_LOGn_W4_REPEAT : Field := ⟨0x4070410, 0, 16, .ro, 0x0, [32], 0, 1⟩
def FLT_LOGn_W5_BOOT : Field := ⟨0x4070414, 16, 16, .ro, 0x0, [32], 0, 1⟩
-- 20_faults_and_availability.md, R488
def SYS_IRQCFG_LVL : Field := ⟨0x4000080, 0, 2, .rw, 0x0, [], 2, 11⟩
def SYS_IPEND_PEND : Field := ⟨0x4000084, 0, 11, .ro, 0x0, [], 0, 1⟩
def SYS_SWI_SOFT : Field := ⟨0x4000088, 0, 1, .rw, 0x0, [], 0, 1⟩
def SYS_EVQ_VALID : Field := ⟨0x400008C, 31, 1, .rc, 0x0, [], 0, 1⟩
def SYS_EVQ_CODE : Field := ⟨0x400008C, 0, 16, .rc, 0x0, [], 0, 1⟩
def FLT_CFG_NOTEI : Field := ⟨0x4070010, 31, 1, .rw, 0x0, [], 0, 1⟩
def FLT_CFG_REEVERST : Field := ⟨0x4070010, 30, 1, .rwl, 0x1, [], 0, 1⟩
def FLT_CTRL_OP : Field := ⟨0x4070014, 28, 4, .wo, 0x0, [], 0, 1⟩
def FLT_CTRL_ARG : Field := ⟨0x4070014, 0, 8, .wo, 0x0, [], 0, 1⟩
def FLT_SWF_SEV : Field := ⟨0x4070024, 30, 2, .rw, 0x0, [], 0, 1⟩
def FLT_SWF_ELEM : Field := ⟨0x4070024, 16, 8, .rw, 0xFF, [], 0, 1⟩
def FLT_SWF_NUM : Field := ⟨0x4070024, 0, 12, .rw, 0xE00, [], 0, 1⟩
def FLT_SWINFO_INFO : Field := ⟨0x4070028, 0, 32, .rw, 0x0, [], 0, 1⟩
def FLT_STAT_FAULTL : Field := ⟨0x4070018, 31, 1, .ro, 0x0, [], 0, 1⟩
def FLT_STAT_CAUSE : Field := ⟨0x4070018, 25, 6, .ro, 0x0, [], 0, 1⟩
def FLT_STAT_ISO : Field := ⟨0x4070018, 16, 8, .ro, 0x0, [], 0, 1⟩
def FLT_STAT_QDEPTH : Field := ⟨0x4070018, 8, 4, .ro, 0x0, [], 0, 1⟩
def FLT_RCV_BUSY : Field := ⟨0x407001C, 31, 1, .ro, 0x0, [], 0, 1⟩
def FLT_RCV_NEW : Field := ⟨0x407001C, 30, 1, .w1c, 0x0, [], 0, 1⟩
def FLT_RCV_PREEMPTED : Field := ⟨0x407001C, 29, 1, .w1c, 0x0, [], 0, 1⟩
def FLT_RCV_SEV : Field := ⟨0x407001C, 27, 2, .ro, 0x0, [], 0, 1⟩
def FLT_RCV_ELEM : Field := ⟨0x407001C, 16, 8, .ro, 0x0, [], 0, 1⟩
def FLT_RCV_IDX : Field := ⟨0x407001C, 0, 5, .ro, 0x0, [], 0, 1⟩
def FLT_CNTn_COUNT : Field := ⟨0x4070040, 0, 32, .rc, 0x0, [4], 0, 1⟩
end Fld

/-- The registers of block SYS, from the register tables of spec/. -/
def regsSYS : List RegDesc := [
  ⟨Reg.SYS_BADACC_ADDR, [], [Fld.SYS_BADACC_ADDR_ADDR]⟩,
  ⟨Reg.SYS_BADACC_INFO, [], [Fld.SYS_BADACC_INFO_VALID, Fld.SYS_BADACC_INFO_REASON, Fld.SYS_BADACC_INFO_WRITE, Fld.SYS_BADACC_INFO_SIZE, Fld.SYS_BADACC_INFO_PRIV, Fld.SYS_BADACC_INFO_REQ]⟩,
  ⟨Reg.SYS_BADACC_CNT, [], [Fld.SYS_BADACC_CNT_COUNT]⟩,
  ⟨Reg.SYS_PART, [], [Fld.SYS_PART_PART, Fld.SYS_PART_FAMILY]⟩,
  ⟨Reg.SYS_STEP, [], [Fld.SYS_STEP_GRADE_X, Fld.SYS_STEP_BASE, Fld.SYS_STEP_METAL]⟩,
  ⟨Reg.SYS_UID_LO, [], [Fld.SYS_UID_LO_UID]⟩,
  ⟨Reg.SYS_UID_HI, [], [Fld.SYS_UID_HI_UID]⟩,
  ⟨Reg.SYS_RSTCAUSE, [], [Fld.SYS_RSTCAUSE_REEVE, Fld.SYS_RSTCAUSE_HARDCUT, Fld.SYS_RSTCAUSE_WAKE, Fld.SYS_RSTCAUSE_SOFT, Fld.SYS_RSTCAUSE_REMOTE, Fld.SYS_RSTCAUSE_PIN, Fld.SYS_RSTCAUSE_POR]⟩,
  ⟨Reg.SYS_RST, [], [Fld.SYS_RST_REEVE, Fld.SYS_RST_DEV]⟩,
  ⟨Reg.SYS_IRQCFG, [], [Fld.SYS_IRQCFG_LVL]⟩,
  ⟨Reg.SYS_IPEND, [], [Fld.SYS_IPEND_PEND]⟩,
  ⟨Reg.SYS_SWI, [], [Fld.SYS_SWI_SOFT]⟩,
  ⟨Reg.SYS_EVQ, [], [Fld.SYS_EVQ_VALID, Fld.SYS_EVQ_CODE]⟩]

/-- The registers of block PWR, from the register tables of spec/. -/
def regsPWR : List RegDesc := [
  ⟨Reg.PWR_HLDOh, [(4, 8)], [Fld.PWR_HLDOh_VNOW, Fld.PWR_HLDOh_VSET]⟩,
  ⟨Reg.PWR_MODE, [], [Fld.PWR_MODE_DEV, Fld.PWR_MODE_HTGT]⟩,
  ⟨Reg.PWR_HCTRL, [], [Fld.PWR_HCTRL_ABORTED, Fld.PWR_HCTRL_WAKE, Fld.PWR_HCTRL_ENTER]⟩,
  ⟨Reg.PWR_STAT, [], [Fld.PWR_STAT_DEVSTATE, Fld.PWR_STAT_ENTERING, Fld.PWR_STAT_RSTERR]⟩,
  ⟨Reg.PWR_HSTATE, [], [Fld.PWR_HSTATE_WFAIL, Fld.PWR_HSTATE_BUSY, Fld.PWR_HSTATE_STATE]⟩,
  ⟨Reg.PWR_REFUSER, [], [Fld.PWR_REFUSER_VALID, Fld.PWR_REFUSER_TARGET, Fld.PWR_REFUSER_HAMLET, Fld.PWR_REFUSER_ID]⟩,
  ⟨Reg.PWR_REFUSE_CNT, [], [Fld.PWR_REFUSE_CNT_COUNT]⟩,
  ⟨Reg.PWR_HRSTh, [(4, 8)], [Fld.PWR_HRSTh_ADDR, Fld.PWR_HRSTh_COUNT]⟩]

/-- The registers of block CLK, from the register tables of spec/. -/
def regsCLK : List RegDesc := [
  ⟨Reg.CLK_REF, [], [Fld.CLK_REF_PRESENT, Fld.CLK_REF_REFLOST, Fld.CLK_REF_MULT]⟩,
  ⟨Reg.CLK_PHADJ, [], [Fld.CLK_PHADJ_PHASE]⟩,
  ⟨Reg.CLK_LPLL, [], [Fld.CLK_LPLL_LOCK, Fld.CLK_LPLL_LOL, Fld.CLK_LPLL_HOLDOVER]⟩,
  ⟨Reg.CLK_UPLL, [], [Fld.CLK_UPLL_LOCK, Fld.CLK_UPLL_LOL, Fld.CLK_UPLL_HOLDOVER]⟩,
  ⟨Reg.CLK_OUTn_CFG, [(16, 4)], [Fld.CLK_OUTn_CFG_EN, Fld.CLK_OUTn_CFG_MODE, Fld.CLK_OUTn_CFG_ALIGN, Fld.CLK_OUTn_CFG_SSMODE, Fld.CLK_OUTn_CFG_SSDEPTH, Fld.CLK_OUTn_CFG_SSRATE]⟩,
  ⟨Reg.CLK_OUTn_DIV, [(16, 4)], [Fld.CLK_OUTn_DIV_DIVI, Fld.CLK_OUTn_DIV_DIVF]⟩]

/-- The registers of block THM, from the register tables of spec/. -/
def regsTHM : List RegDesc := [
  ⟨Reg.THM_LIMIT, [], [Fld.THM_LIMIT_SHUTDOWN, Fld.THM_LIMIT_THROTTLE, Fld.THM_LIMIT_WARN]⟩,
  ⟨Reg.THM_HYST, [], [Fld.THM_HYST_HSD, Fld.THM_HYST_HTH, Fld.THM_HYST_HWN]⟩,
  ⟨Reg.THM_SDCFG, [], [Fld.THM_SDCFG_SDSTEP]⟩,
  ⟨Reg.THM_STAT, [], [Fld.THM_STAT_SDLATCH, Fld.THM_STAT_STOPPING, Fld.THM_STAT_PINNED, Fld.THM_STAT_THROT, Fld.THM_STAT_WARNZ]⟩,
  ⟨Reg.THM_CTRL, [], [Fld.THM_CTRL_REARM, Fld.THM_CTRL_UNPIN]⟩,
  ⟨Reg.THM_CNTn, [(4, 3)], [Fld.THM_CNTn_COUNT]⟩,
  ⟨Reg.THM_ZONEz, [(4, 9)], [Fld.THM_ZONEz_MAX, Fld.THM_ZONEz_HOT]⟩,
  ⟨Reg.THM_ACTz, [(4, 9)], [Fld.THM_ACTz_LDO, Fld.THM_ACTz_BO, Fld.THM_ACTz_SHED, Fld.THM_ACTz_ROT, Fld.THM_ACTz_LDOSET, Fld.THM_ACTz_BOSTEP, Fld.THM_ACTz_SHEDL, Fld.THM_ACTz_ROTN, Fld.THM_ACTz_ROTP]⟩,
  ⟨Reg.THM_SENSn, [(4, 84)], [Fld.THM_SENSn_SUSPECT, Fld.THM_SENSn_FAILED, Fld.THM_SENSn_ABSENT, Fld.THM_SENSn_EFF, Fld.THM_SENSn_RAW]⟩]

/-- The registers of block HKA, from the register tables of spec/. -/
def regsHKA : List RegDesc := [
  ⟨Reg.HKA_ROUND, [], [Fld.HKA_ROUND_PERIOD, Fld.HKA_ROUND_FRS, Fld.HKA_ROUND_FRD]⟩,
  ⟨Reg.HKA_STAT, [], [Fld.HKA_STAT_SEQRUN, Fld.HKA_STAT_SEQDONE, Fld.HKA_STAT_GOREF, Fld.HKA_STAT_OVERRUN, Fld.HKA_STAT_ROUND, Fld.HKA_STAT_REFRDY, Fld.HKA_STAT_ENTRY]⟩,
  ⟨Reg.HKA_SEQCTL, [], [Fld.HKA_SEQCTL_GO, Fld.HKA_SEQCTL_STOP, Fld.HKA_SEQCTL_MODE, Fld.HKA_SEQCTL_SPER, Fld.HKA_SEQCTL_LEN]⟩,
  ⟨Reg.HKA_XT, [], [Fld.HKA_XT_XOFF, Fld.HKA_XT_XSLOPE]⟩,
  ⟨Reg.HKA_CNTn, [(4, 5)], [Fld.HKA_CNTn_COUNT]⟩,
  ⟨Reg.HKA_SUPn, [(4, 18)], [Fld.HKA_SUPn_OVR, Fld.HKA_SUPn_VAL]⟩,
  ⟨Reg.HKA_SEQn, [(4, 32)], [Fld.HKA_SEQn_EN, Fld.HKA_SEQn_REF, Fld.HKA_SEQn_SETTLE, Fld.HKA_SEQn_OSR, Fld.HKA_SEQn_CH]⟩,
  ⟨Reg.HKA_RESn, [(8, 32)], [Fld.HKA_RESn_COARSE, Fld.HKA_RESn_FINE]⟩,
  ⟨Reg.HKA_RSTn, [(8, 32)], [Fld.HKA_RSTn_NEW, Fld.HKA_RSTn_OVR, Fld.HKA_RSTn_REC, Fld.HKA_RSTn_UNAV, Fld.HKA_RSTn_REFERR, Fld.HKA_RSTn_PASS]⟩]

/-- The registers of block BDA, from the register tables of spec/. -/
def regsBDA : List RegDesc := [
  ⟨Reg.BDA_CTRL, [], [Fld.BDA_CTRL_CLRPIN]⟩,
  ⟨Reg.BDA_CHc_CODE, [(32, 32)], [Fld.BDA_CHc_CODE_CODE]⟩,
  ⟨Reg.BDA_CHc_CLR, [(32, 32)], [Fld.BDA_CHc_CLR_CODE]⟩,
  ⟨Reg.BDA_CHc_CFG, [(32, 32)], [Fld.BDA_CHc_CFG_MODE, Fld.BDA_CHc_CFG_SLEN, Fld.BDA_CHc_CFG_STEPM1, Fld.BDA_CHc_CFG_INTV]⟩,
  ⟨Reg.BDA_CHc_SINE, [(32, 32)], [Fld.BDA_CHc_SINE_EN, Fld.BDA_CHc_SINE_FTW]⟩,
  ⟨Reg.BDA_CHc_SAMP, [(32, 32)], [Fld.BDA_CHc_SAMP_AMP, Fld.BDA_CHc_SAMP_OFFSET]⟩,
  ⟨Reg.BDA_CHc_STAT, [(32, 32)], [Fld.BDA_CHc_STAT_OWNER, Fld.BDA_CHc_STAT_FLOAT, Fld.BDA_CHc_STAT_CLRD, Fld.BDA_CHc_STAT_SINEWAIT, Fld.BDA_CHc_STAT_BUSY, Fld.BDA_CHc_STAT_SAT, Fld.BDA_CHc_STAT_OUT]⟩]

/-- The registers of block CAL, from the register tables of spec/. -/
def regsCAL : List RegDesc := [
  ⟨Reg.CAL_CFG, [], [Fld.CAL_CFG_SRC]⟩,
  ⟨Reg.CAL_REFSTAT, [], [Fld.CAL_REFSTAT_VALID, Fld.CAL_REFSTAT_NOREF, Fld.CAL_REFSTAT_VAL]⟩,
  ⟨Reg.CAL_REQs, [(32, 9)], [Fld.CAL_REQs_GO, Fld.CAL_REQs_STOP, Fld.CAL_REQs_MODE, Fld.CAL_REQs_CHECK, Fld.CAL_REQs_MASK, Fld.CAL_REQs_KIND]⟩,
  ⟨Reg.CAL_PARs, [(32, 9)], [Fld.CAL_PARs_TMO, Fld.CAL_PARs_TOL]⟩,
  ⟨Reg.CAL_STATs, [(32, 9)], [Fld.CAL_STATs_BUSY, Fld.CAL_STATs_DONE, Fld.CAL_STATs_FAIL, Fld.CAL_STATs_REFUSED, Fld.CAL_STATs_LATE, Fld.CAL_STATs_CODE, Fld.CAL_STATs_RUNS, Fld.CAL_STATs_KIND]⟩,
  ⟨Reg.CAL_CNTn, [(4, 4)], [Fld.CAL_CNTn_COUNT]⟩,
  ⟨Reg.CAL_PATHe, [(4, 64)], [Fld.CAL_PATHe_DACDEG, Fld.CAL_PATHe_ADCDEG, Fld.CAL_PATHe_DACSP, Fld.CAL_PATHe_ADCSP]⟩,
  ⟨Reg.CAL_ORXh, [(4, 8)], [Fld.CAL_ORXh_ADCDEG, Fld.CAL_ORXh_ADCSP]⟩,
  ⟨Reg.CAL_BIASc, [(4, 32)], [Fld.CAL_BIASc_DEG, Fld.CAL_BIASc_SEGSP]⟩]

/-- The registers of block FLT, from the register tables of spec/. -/
def regsFLT : List RegDesc := [
  ⟨Reg.FLT_LOGn_W0, [(32, 32)], [Fld.FLT_LOGn_W0_SEV, Fld.FLT_LOGn_W0_ACTIVE, Fld.FLT_LOGn_W0_ESC, Fld.FLT_LOGn_W0_ELEM, Fld.FLT_LOGn_W0_NUM]⟩,
  ⟨Reg.FLT_LOGn_W1, [(32, 32)], [Fld.FLT_LOGn_W1_INFO]⟩,
  ⟨Reg.FLT_LOGn_W2, [(32, 32)], [Fld.FLT_LOGn_W2_SEC]⟩,
  ⟨Reg.FLT_LOGn_W3, [(32, 32)], [Fld.FLT_LOGn_W3_NS]⟩,
  ⟨Reg.FLT_LOGn_W4, [(32, 32)], [Fld.FLT_LOGn_W4_SEQ, Fld.FLT_LOGn_W4_REPEAT]⟩,
  ⟨Reg.FLT_LOGn_W5, [(32, 32)], [Fld.FLT_LOGn_W5_BOOT]⟩,
  ⟨Reg.FLT_CFG, [], [Fld.FLT_CFG_NOTEI, Fld.FLT_CFG_REEVERST]⟩,
  ⟨Reg.FLT_CTRL, [], [Fld.FLT_CTRL_OP, Fld.FLT_CTRL_ARG]⟩,
  ⟨Reg.FLT_SWF, [], [Fld.FLT_SWF_SEV, Fld.FLT_SWF_ELEM, Fld.FLT_SWF_NUM]⟩,
  ⟨Reg.FLT_SWINFO, [], [Fld.FLT_SWINFO_INFO]⟩,
  ⟨Reg.FLT_STAT, [], [Fld.FLT_STAT_FAULTL, Fld.FLT_STAT_CAUSE, Fld.FLT_STAT_ISO, Fld.FLT_STAT_QDEPTH]⟩,
  ⟨Reg.FLT_RCV, [], [Fld.FLT_RCV_BUSY, Fld.FLT_RCV_NEW, Fld.FLT_RCV_PREEMPTED, Fld.FLT_RCV_SEV, Fld.FLT_RCV_ELEM, Fld.FLT_RCV_IDX]⟩,
  ⟨Reg.FLT_CNTn, [(4, 5)], [Fld.FLT_CNTn_COUNT]⟩]

/-- The registers of block TIM, from the register tables of spec/. -/
def regsTIM : List RegDesc := [
  ⟨Reg.TIM_NOW_NS, [], [Fld.TIM_NOW_NS_NS]⟩,
  ⟨Reg.TIM_NOW_SLO, [], [Fld.TIM_NOW_SLO_SEC]⟩,
  ⟨Reg.TIM_NOW_SHI, [], [Fld.TIM_NOW_SHI_FRAC, Fld.TIM_NOW_SHI_SECHI]⟩,
  ⟨Reg.TIM_UTC, [], [Fld.TIM_UTC_PEND, Fld.TIM_UTC_NEXT, Fld.TIM_UTC_CUR]⟩,
  ⟨Reg.TIM_UTC_AT, [], [Fld.TIM_UTC_AT_AT]⟩,
  ⟨Reg.TIM_FRAME, [], [Fld.TIM_FRAME_FNOFF]⟩,
  ⟨Reg.TIM_L0RX, [], [Fld.TIM_L0RX_BASE, Fld.TIM_L0RX_SIZE]⟩,
  ⟨Reg.TIM_L0TX, [], [Fld.TIM_L0TX_BASE, Fld.TIM_L0TX_SIZE]⟩,
  ⟨Reg.TIM_L0RXP, [], [Fld.TIM_L0RXP_HW, Fld.TIM_L0RXP_SW]⟩,
  ⟨Reg.TIM_L0TXP, [], [Fld.TIM_L0TXP_HW, Fld.TIM_L0TXP_SW]⟩,
  ⟨Reg.TIM_CFG, [], [Fld.TIM_CFG_SRCEN, Fld.TIM_CFG_SEL]⟩,
  ⟨Reg.TIM_JUMP, [], [Fld.TIM_JUMP_THRESH]⟩,
  ⟨Reg.TIM_WBOUND, [], [Fld.TIM_WBOUND_BOUND]⟩,
  ⟨Reg.TIM_MEAS_NS, [], [Fld.TIM_MEAS_NS_NS]⟩,
  ⟨Reg.TIM_MEAS_SEC, [], [Fld.TIM_MEAS_SEC_SEC]⟩,
  ⟨Reg.TIM_MEAS_CTRL, [], [Fld.TIM_MEAS_CTRL_INIT, Fld.TIM_MEAS_CTRL_STEP, Fld.TIM_MEAS_CTRL_SRC]⟩,
  ⟨Reg.TIM_STEPCTL, [], [Fld.TIM_STEPCTL_AUTH]⟩,
  ⟨Reg.TIM_STAT, [], [Fld.TIM_STAT_STATE, Fld.TIM_STAT_LASTRES, Fld.TIM_STAT_STEPPED, Fld.TIM_STAT_PEND, Fld.TIM_STAT_INSANE, Fld.TIM_STAT_JUMPREF, Fld.TIM_STAT_PPSNEW, Fld.TIM_STAT_SYNCNEW]⟩,
  ⟨Reg.TIM_SRCSTAT, [], [Fld.TIM_SRCSTAT_STALE, Fld.TIM_SRCSTAT_SUSPECT, Fld.TIM_SRCSTAT_GOOD]⟩,
  ⟨Reg.TIM_OFFS, [], [Fld.TIM_OFFS_OFFS]⟩,
  ⟨Reg.TIM_HOLDSEC, [], [Fld.TIM_HOLDSEC_HOLDSEC]⟩,
  ⟨Reg.TIM_VCXO, [], [Fld.TIM_VCXO_EN, Fld.TIM_VCXO_TSRC, Fld.TIM_VCXO_CH]⟩,
  ⟨Reg.TIM_VCXO_CAL, [], [Fld.TIM_VCXO_CAL_CENTRE, Fld.TIM_VCXO_CAL_GAIN]⟩,
  ⟨Reg.TIM_STEER, [], [Fld.TIM_STEER_STEER]⟩,
  ⟨Reg.TIM_TCOMPn, [(4, 16)], [Fld.TIM_TCOMPn_CORR]⟩,
  ⟨Reg.TIM_ASYMp, [(4, 4)], [Fld.TIM_ASYMp_ASYM]⟩,
  ⟨Reg.TIM_CNTn, [(4, 6)], [Fld.TIM_CNTn_COUNT]⟩,
  ⟨Reg.TIM_CAPq_NS, [(16, 2)], [Fld.TIM_CAPq_NS_NS]⟩,
  ⟨Reg.TIM_CAPq_SLO, [(16, 2)], [Fld.TIM_CAPq_SLO_SEC]⟩,
  ⟨Reg.TIM_CAPq_SHI, [(16, 2)], [Fld.TIM_CAPq_SHI_FRAC, Fld.TIM_CAPq_SHI_SECHI]⟩]

/-- The registers of block TLY, from the register tables of spec/. -/
def regsTLY : List RegDesc := [
  ⟨Reg.TLY_CFG, [], [Fld.TLY_CFG_EN, Fld.TLY_CFG_FANACT, Fld.TLY_CFG_FANSEND]⟩,
  ⟨Reg.TLY_STAT, [], [Fld.TLY_STAT_HEAD, Fld.TLY_STAT_BASE, Fld.TLY_STAT_UPLINK, Fld.TLY_STAT_DNLINK, Fld.TLY_STAT_ALIGNED, Fld.TLY_STAT_LAST, Fld.TLY_STAT_ADDR, Fld.TLY_STAT_POS, Fld.TLY_STAT_DUP, Fld.TLY_STAT_NOADDR, Fld.TLY_STAT_LATECMD, Fld.TLY_STAT_RETAINED, Fld.TLY_STAT_ENUMDONE, Fld.TLY_STAT_CMDREF]⟩,
  ⟨Reg.TLY_HOP, [], [Fld.TLY_HOP_VALID, Fld.TLY_HOP_DELAY]⟩,
  ⟨Reg.TLY_CMD, [], [Fld.TLY_CMD_OP]⟩,
  ⟨Reg.TLY_CMD_NS, [], [Fld.TLY_CMD_NS_NS]⟩,
  ⟨Reg.TLY_CMD_SEC, [], [Fld.TLY_CMD_SEC_SEC]⟩,
  ⟨Reg.TLY_CENSUSn, [(4, 8)], [Fld.TLY_CENSUSn_ADDR]⟩,
  ⟨Reg.TLY_CNTn, [(4, 4)], [Fld.TLY_CNTn_COUNT]⟩]

/-- The registers of block LNK, from the register tables of spec/. -/
def regsLNK : List RegDesc := [
  ⟨Reg.LNK_CAR_CFGn, [(4, 8)], [Fld.LNK_CAR_CFGn_EN, Fld.LNK_CAR_CFGn_FDD, Fld.LNK_CAR_CFGn_NUM, Fld.LNK_CAR_CFGn_LTE, Fld.LNK_CAR_CFGn_ECP, Fld.LNK_CAR_CFGn_DLL, Fld.LNK_CAR_CFGn_ULB, Fld.LNK_CAR_CFGn_NRB]⟩,
  ⟨Reg.LNK_CAR_COMMIT, [], [Fld.LNK_CAR_COMMIT_REFUSED, Fld.LNK_CAR_COMMIT_GO]⟩,
  ⟨Reg.LNK_RTC_REJ, [], [Fld.LNK_RTC_REJ_VALID, Fld.LNK_RTC_REJ_REASON, Fld.LNK_RTC_REJ_DIR, Fld.LNK_RTC_REJ_CARRIER, Fld.LNK_RTC_REJ_SECTION_ID]⟩,
  ⟨Reg.LNK_RTC_CNTn, [(4, 7)], [Fld.LNK_RTC_CNTn_COUNT]⟩,
  ⟨Reg.LNK_WCFG, [], [Fld.LNK_WCFG_EN, Fld.LNK_WCFG_REFCAR]⟩,
  ⟨Reg.LNK_ULC_CFG, [], [Fld.LNK_ULC_CFG_ELEM_FLOW, Fld.LNK_ULC_CFG_SHIFT, Fld.LNK_ULC_CFG_RENORM, Fld.LNK_ULC_CFG_HMASK]⟩,
  ⟨Reg.LNK_ULC_STAT, [], [Fld.LNK_ULC_STAT_FACTOR, Fld.LNK_ULC_STAT_ELEMS, Fld.LNK_ULC_STAT_CONTRIB]⟩,
  ⟨Reg.LNK_DL_CFG, [], [Fld.LNK_DL_CFG_EARLY]⟩,
  ⟨Reg.LNK_DL_STAT, [], [Fld.LNK_DL_STAT_LATE]⟩,
  ⟨Reg.LNK_DL_CNTn, [(4, 6)], [Fld.LNK_DL_CNTn_COUNT]⟩,
  ⟨Reg.LNK_DL_CARn, [(4, 8)], [Fld.LNK_DL_CARn_FFTSZ, Fld.LNK_DL_CARn_MW]⟩,
  ⟨Reg.LNK_UL_CARn, [(4, 8)], [Fld.LNK_UL_CARn_FLOW, Fld.LNK_UL_CARn_FFTSZ, Fld.LNK_UL_CARn_MW]⟩,
  ⟨Reg.LNK_UL_CNTn, [(4, 5)], [Fld.LNK_UL_CNTn_COUNT]⟩,
  ⟨Reg.LNK_PRA_CFGm, [(4, 4)], [Fld.LNK_PRA_CFGm_EN, Fld.LNK_PRA_CFGm_CARRIER, Fld.LNK_PRA_CFGm_RATE, Fld.LNK_PRA_CFGm_OFFS]⟩,
  ⟨Reg.LNK_PRA_BEAMm_i, [(8, 4), (4, 2)], [Fld.LNK_PRA_BEAMm_i_ENB, Fld.LNK_PRA_BEAMm_i_ENTRYB, Fld.LNK_PRA_BEAMm_i_ENA, Fld.LNK_PRA_BEAMm_i_ENTRYA]⟩,
  ⟨Reg.LNK_PRA_TIMEm, [(4, 4)], [Fld.LNK_PRA_TIMEm_FLOW, Fld.LNK_PRA_TIMEm_START]⟩,
  ⟨Reg.LNK_PRA_LENm, [(4, 4)], [Fld.LNK_PRA_LENm_LEN]⟩,
  ⟨Reg.LNK_PRA_OCCj, [(4, 16)], [Fld.LNK_PRA_OCCj_EN, Fld.LNK_PRA_OCCj_EXT, Fld.LNK_PRA_OCCj_PERIOD, Fld.LNK_PRA_OCCj_PHASE, Fld.LNK_PRA_OCCj_SLOT]⟩,
  ⟨Reg.LNK_CTRL, [], [Fld.LNK_CTRL_RRST, Fld.LNK_CTRL_REPLAY_TO, Fld.LNK_CTRL_PWRREQ, Fld.LNK_CTRL_PREC_ALLOW, Fld.LNK_CTRL_RETRAIN, Fld.LNK_CTRL_EN]⟩,
  ⟨Reg.LNK_STAT, [], [Fld.LNK_STAT_STATE, Fld.LNK_STAT_FAILCODE, Fld.LNK_STAT_PREC_TX, Fld.LNK_STAT_PREC_RX, Fld.LNK_STAT_SEVEN_TX, Fld.LNK_STAT_SEVEN_RX]⟩,
  ⟨Reg.LNK_CAP, [], [Fld.LNK_CAP_CAP_RX, Fld.LNK_CAP_CAP_TX]⟩,
  ⟨Reg.LNK_FLOWf_CFG, [(8, 256)], [Fld.LNK_FLOWf_CFG_EN, Fld.LNK_FLOWf_CFG_CLASS, Fld.LNK_FLOWf_CFG_DEEP, Fld.LNK_FLOWf_CFG_REL, Fld.LNK_FLOWf_CFG_RXQ]⟩,
  ⟨Reg.LNK_FLOWf_STAT, [(8, 256)], [Fld.LNK_FLOWf_STAT_CREDIT, Fld.LNK_FLOWf_STAT_STAGED]⟩,
  ⟨Reg.LNK_PARTn, [(4, 4)], [Fld.LNK_PARTn_BASE, Fld.LNK_PARTn_SIZE]⟩,
  ⟨Reg.LNK_GWn_BASE, [(16, 8)], [Fld.LNK_GWn_BASE_PAGE]⟩,
  ⟨Reg.LNK_GWn_LIM, [(16, 8)], [Fld.LNK_GWn_LIM_PAGE]⟩,
  ⟨Reg.LNK_GWn_CTRL, [(16, 8)], [Fld.LNK_GWn_CTRL_WR, Fld.LNK_GWn_CTRL_RD, Fld.LNK_GWn_CTRL_EN]⟩,
  ⟨Reg.LNK_LANEMAP_TX, [], [Fld.LNK_LANEMAP_TX_LANE]⟩,
  ⟨Reg.LNK_LANEMAP_RX, [], [Fld.LNK_LANEMAP_RX_LANE]⟩,
  ⟨Reg.LNK_AUXMAP, [], [Fld.LNK_AUXMAP_SPARE_RX, Fld.LNK_AUXMAP_SPARE_TX, Fld.LNK_AUXMAP_CLK_RX, Fld.LNK_AUXMAP_CLK_TX]⟩,
  ⟨Reg.LNK_PLANEn, [(4, 10)], [Fld.LNK_PLANEn_FAILED, Fld.LNK_PLANEn_CDR, Fld.LNK_PLANEn_MARK, Fld.LNK_PLANEn_EYE, Fld.LNK_PLANEn_SERR]⟩,
  ⟨Reg.LNK_CNTn, [(4, 12)], [Fld.LNK_CNTn_COUNT]⟩]

/-- The registers of block MGP, from the register tables of spec/. -/
def regsMGP : List RegDesc := [
  ⟨Reg.MGP_RXRING, [], [Fld.MGP_RXRING_BASE, Fld.MGP_RXRING_SIZE]⟩,
  ⟨Reg.MGP_TXRING, [], [Fld.MGP_TXRING_BASE, Fld.MGP_TXRING_SIZE]⟩,
  ⟨Reg.MGP_RXPTR, [], [Fld.MGP_RXPTR_HW, Fld.MGP_RXPTR_SW]⟩,
  ⟨Reg.MGP_TXPTR, [], [Fld.MGP_TXPTR_HW, Fld.MGP_TXPTR_SW]⟩,
  ⟨Reg.MGP_CFG, [], [Fld.MGP_CFG_EN, Fld.MGP_CFG_MODE, Fld.MGP_CFG_AN, Fld.MGP_CFG_DOMAIN, Fld.MGP_CFG_UDP, Fld.MGP_CFG_L2]⟩,
  ⟨Reg.MGP_STAT, [], [Fld.MGP_STAT_LINK, Fld.MGP_STAT_REFOK]⟩,
  ⟨Reg.MGP_CNTn, [(4, 4)], [Fld.MGP_CNTn_COUNT]⟩]

/-- The registers of block WCH, from the register tables of spec/. -/
def regsWCH : List RegDesc := [
  ⟨Reg.WCH_CTRL, [], [Fld.WCH_CTRL_EN, Fld.WCH_CTRL_DMOD, Fld.WCH_CTRL_FLOW, Fld.WCH_CTRL_BTREC, Fld.WCH_CTRL_SWREC]⟩,
  ⟨Reg.WCH_STAT, [], [Fld.WCH_STAT_READY, Fld.WCH_STAT_OVR, Fld.WCH_STAT_SDLOST, Fld.WCH_STAT_GAIN]⟩,
  ⟨Reg.WCH_CNTn, [(4, 5)], [Fld.WCH_CNTn_COUNT]⟩,
  ⟨Reg.WCH_FMn_CFG, [(32, 2)], [Fld.WCH_FMn_CFG_EN, Fld.WCH_FMn_CFG_RBDS, Fld.WCH_FMn_CFG_AFEN, Fld.WCH_FMn_CFG_USERAF, Fld.WCH_FMn_CFG_GMASK, Fld.WCH_FMn_CFG_QTH, Fld.WCH_FMn_CFG_DWELL]⟩,
  ⟨Reg.WCH_FMn_FREQ, [(32, 2)], [Fld.WCH_FMn_FREQ_FREQ]⟩,
  ⟨Reg.WCH_FMn_STAT, [(32, 2)], [Fld.WCH_FMn_STAT_SYNC, Fld.WCH_FMn_STAT_AFTRY, Fld.WCH_FMn_STAT_AFFAIL, Fld.WCH_FMn_STAT_AFSW, Fld.WCH_FMn_STAT_RSSI, Fld.WCH_FMn_STAT_Q, Fld.WCH_FMn_STAT_AFN]⟩,
  ⟨Reg.WCH_FMn_PI, [(32, 2)], [Fld.WCH_FMn_PI_VALID, Fld.WCH_FMn_PI_PI]⟩,
  ⟨Reg.WCH_FMn_PS0, [(32, 2)], [Fld.WCH_FMn_PS0_CH, Fld.WCH_FMn_PS0_VALID]⟩,
  ⟨Reg.WCH_FMn_PS1, [(32, 2)], [Fld.WCH_FMn_PS1_CH]⟩,
  ⟨Reg.WCH_FMn_UAF0, [(32, 2)], [Fld.WCH_FMn_UAF0_AFB, Fld.WCH_FMn_UAF0_AFA]⟩,
  ⟨Reg.WCH_FMn_UAF1, [(32, 2)], [Fld.WCH_FMn_UAF1_AFB, Fld.WCH_FMn_UAF1_AFA]⟩,
  ⟨Reg.WCH_DIG_CFG, [], [Fld.WCH_DIG_CFG_AFEN, Fld.WCH_DIG_CFG_QTH, Fld.WCH_DIG_CFG_DWELL, Fld.WCH_DIG_CFG_BW, Fld.WCH_DIG_CFG_MASK]⟩,
  ⟨Reg.WCH_DIG_FREQ, [], [Fld.WCH_DIG_FREQ_PLP, Fld.WCH_DIG_FREQ_FREQ]⟩,
  ⟨Reg.WCH_DIG_STAT, [], [Fld.WCH_DIG_STAT_LOCK, Fld.WCH_DIG_STAT_AFTRY, Fld.WCH_DIG_STAT_AFFAIL, Fld.WCH_DIG_STAT_AFSW, Fld.WCH_DIG_STAT_IDVAL, Fld.WCH_DIG_STAT_RSSI, Fld.WCH_DIG_STAT_Q, Fld.WCH_DIG_STAT_MER]⟩,
  ⟨Reg.WCH_DIG_ID, [], [Fld.WCH_DIG_ID_ONID, Fld.WCH_DIG_ID_ID]⟩,
  ⟨Reg.WCH_BT_CFG, [], [Fld.WCH_BT_CFG_TSRC]⟩,
  ⟨Reg.WCH_BT_UTC, [], [Fld.WCH_BT_UTC_UTC]⟩,
  ⟨Reg.WCH_BT_MS, [], [Fld.WCH_BT_MS_VALID, Fld.WCH_BT_MS_BTNEW, Fld.WCH_BT_MS_SRC, Fld.WCH_BT_MS_LTO, Fld.WCH_BT_MS_MS]⟩,
  ⟨Reg.WCH_BT_NS, [], [Fld.WCH_BT_NS_VAL]⟩,
  ⟨Reg.WCH_BT_SEC, [], [Fld.WCH_BT_SEC_VAL]⟩,
  ⟨Reg.WCH_SW_CFG, [], [Fld.WCH_SW_CFG_GO, Fld.WCH_SW_CFG_STOP, Fld.WCH_SW_CFG_SRC, Fld.WCH_SW_CFG_GATE, Fld.WCH_SW_CFG_REPEAT, Fld.WCH_SW_CFG_HAM, Fld.WCH_SW_CFG_LENM1]⟩,
  ⟨Reg.WCH_SW_STAT, [], [Fld.WCH_SW_STAT_BUSY, Fld.WCH_SW_STAT_DONE, Fld.WCH_SW_STAT_HIT, Fld.WCH_SW_STAT_END, Fld.WCH_SW_STAT_ENTRY]⟩,
  ⟨Reg.WCH_SWn_FREQ, [(16, 64)], [Fld.WCH_SWn_FREQ_FREQ]⟩,
  ⟨Reg.WCH_SWn_CFG, [(16, 64)], [Fld.WCH_SWn_CFG_KIND, Fld.WCH_SWn_CFG_BW, Fld.WCH_SWn_CFG_DWELL]⟩,
  ⟨Reg.WCH_SWn_THR, [(16, 64)], [Fld.WCH_SWn_THR_EN, Fld.WCH_SWn_THR_THR]⟩,
  ⟨Reg.WCH_SWn_RES, [(16, 64)], [Fld.WCH_SWn_RES_VALID, Fld.WCH_SWn_RES_HIT, Fld.WCH_SWn_RES_PART, Fld.WCH_SWn_RES_PREEMPT, Fld.WCH_SWn_RES_OVR, Fld.WCH_SWn_RES_SKIP, Fld.WCH_SWn_RES_AGCX, Fld.WCH_SWn_RES_LEVEL]⟩]

/-- The registers of block STL, from the register tables of spec/. -/
def regsSTL : List RegDesc := [
  ⟨Reg.STL_CFG, [], [Fld.STL_CFG_MOD, Fld.STL_CFG_DIV, Fld.STL_CFG_FOFB, Fld.STL_CFG_WHITEN, Fld.STL_CFG_PROMISC, Fld.STL_CFG_DEV, Fld.STL_CFG_SRATE]⟩,
  ⟨Reg.STL_FREQ, [], [Fld.STL_FREQ_PEND, Fld.STL_FREQ_FREQ]⟩,
  ⟨Reg.STL_PKT, [], [Fld.STL_PKT_PRELEN, Fld.STL_PKT_PWR, Fld.STL_PKT_RXANT, Fld.STL_PKT_TXANT]⟩,
  ⟨Reg.STL_SYNC, [], [Fld.STL_SYNC_SYNC]⟩,
  ⟨Reg.STL_CMD, [], [Fld.STL_CMD_CMD]⟩,
  ⟨Reg.STL_SEQ, [], [Fld.STL_SEQ_TXNEXT, Fld.STL_SEQ_RXNEXT, Fld.STL_SEQ_TXWAIT, Fld.STL_SEQ_RXTO]⟩,
  ⟨Reg.STL_STAT, [], [Fld.STL_STAT_STATE, Fld.STL_STAT_LATCHED, Fld.STL_STAT_HEARTH, Fld.STL_STAT_XOFAIL, Fld.STL_STAT_EXCH, Fld.STL_STAT_SYNCD, Fld.STL_STAT_LASTRES, Fld.STL_STAT_FOFF]⟩,
  ⟨Reg.STL_TXBUF, [(4, 65)], [Fld.STL_TXBUF_WORD]⟩,
  ⟨Reg.STL_RXBUF, [(512, 2), (4, 65)], [Fld.STL_RXBUF_WORD]⟩,
  ⟨Reg.STL_RXb_INFO, [(8, 2)], [Fld.STL_RXb_INFO_FULL, Fld.STL_RXb_INFO_ANT, Fld.STL_RXb_INFO_RSSI, Fld.STL_RXb_INFO_FOFF]⟩,
  ⟨Reg.STL_RXb_QUAL, [(8, 2)], [Fld.STL_RXb_QUAL_LQI, Fld.STL_RXb_QUAL_EVM]⟩,
  ⟨Reg.STL_CNTn, [(4, 6)], [Fld.STL_CNTn_COUNT]⟩]

/-- The registers of block BEL, from the register tables of spec/. -/
def regsBEL : List RegDesc := [
  ⟨Reg.BEL_CFG, [], [Fld.BEL_CFG_EN, Fld.BEL_CFG_UEN, Fld.BEL_CFG_ANS, Fld.BEL_CFG_ANT, Fld.BEL_CFG_PER, Fld.BEL_CFG_UPRE, Fld.BEL_CFG_FREQ]⟩,
  ⟨Reg.BEL_GRPn, [(4, 4)], [Fld.BEL_GRPn_EN, Fld.BEL_GRPn_CODE]⟩,
  ⟨Reg.BEL_ANS, [], [Fld.BEL_ANS_PWR]⟩,
  ⟨Reg.BEL_ASYNC, [], [Fld.BEL_ASYNC_ASYNC]⟩,
  ⟨Reg.BEL_STAT, [], [Fld.BEL_STAT_MATCH, Fld.BEL_STAT_ANSWERED, Fld.BEL_STAT_NOANS, Fld.BEL_STAT_SRC, Fld.BEL_STAT_CODE]⟩,
  ⟨Reg.BEL_CNTn, [(4, 3)], [Fld.BEL_CNTn_COUNT]⟩]

/-- The registers of block AGT, from the register tables of spec/. -/
def regsAGT : List RegDesc := [
  ⟨Reg.AGT_LCS, [], [Fld.AGT_LCS_LCS, Fld.AGT_LCS_DEBUG, Fld.AGT_LCS_PKEY, Fld.AGT_LCS_REVOKED, Fld.AGT_LCS_PROG]⟩,
  ⟨Reg.AGT_ARB, [], [Fld.AGT_ARB_FLOOR, Fld.AGT_ARB_HEARTH, Fld.AGT_ARB_FUSE]⟩,
  ⟨Reg.AGT_CMD, [], [Fld.AGT_CMD_GO, Fld.AGT_CMD_ARG, Fld.AGT_CMD_OP]⟩,
  ⟨Reg.AGT_SRC, [], [Fld.AGT_SRC_ADDR]⟩,
  ⟨Reg.AGT_DST, [], [Fld.AGT_DST_ADDR]⟩,
  ⟨Reg.AGT_LEN, [], [Fld.AGT_LEN_LEN]⟩,
  ⟨Reg.AGT_STAT, [], [Fld.AGT_STAT_BUSY, Fld.AGT_STAT_DONE, Fld.AGT_STAT_OP, Fld.AGT_STAT_RESULT]⟩,
  ⟨Reg.AGT_HIMGh, [(4, 9)], [Fld.AGT_HIMGh_VALID, Fld.AGT_HIMGh_SLOT, Fld.AGT_HIMGh_SVN, Fld.AGT_HIMGh_VERSION]⟩,
  ⟨Reg.AGT_SESS, [], [Fld.AGT_SESS_OPEN, Fld.AGT_SESS_PENDAUTH, Fld.AGT_SESS_AUTH, Fld.AGT_SESS_FAILS, Fld.AGT_SESS_PEER, Fld.AGT_SESS_SID]⟩]

/-- The registers of block HTH, from the register tables of spec/. -/
def regsHTH : List RegDesc := [
  ⟨Reg.HTH_CAL_LO, [], [Fld.HTH_CAL_LO_SEC]⟩,
  ⟨Reg.HTH_CAL_HI, [], [Fld.HTH_CAL_HI_SUB, Fld.HTH_CAL_HI_SECHI]⟩,
  ⟨Reg.HTH_CAL_CTRL, [], [Fld.HTH_CAL_CTRL_VALID, Fld.HTH_CAL_CTRL_OSCFAIL, Fld.HTH_CAL_CTRL_SYNCPEND, Fld.HTH_CAL_CTRL_SYNC]⟩,
  ⟨Reg.HTH_XCOMP, [], [Fld.HTH_XCOMP_T0, Fld.HTH_XCOMP_K, Fld.HTH_XCOMP_OFFS]⟩,
  ⟨Reg.HTH_WAKEREC, [], [Fld.HTH_WAKEREC_VALID, Fld.HTH_WAKEREC_FELL, Fld.HTH_WAKEREC_TRY, Fld.HTH_WAKEREC_STEP]⟩,
  ⟨Reg.HTH_ALARM, [], [Fld.HTH_ALARM_SEC]⟩,
  ⟨Reg.HTH_WAKECFG, [], [Fld.HTH_WAKECFG_ALARM_HIT, Fld.HTH_WAKECFG_ALARM_EN]⟩,
  ⟨Reg.HTH_THMREC, [], [Fld.HTH_THMREC_VALID, Fld.HTH_THMREC_HARD, Fld.HTH_THMREC_SENSOR, Fld.HTH_THMREC_TEMP]⟩,
  ⟨Reg.HTH_MON_CFG, [], [Fld.HTH_MON_CFG_VBLOW, Fld.HTH_MON_CFG_VBLIM]⟩,
  ⟨Reg.HTH_MON_VAL, [], [Fld.HTH_MON_VAL_VBAT, Fld.HTH_MON_VAL_TEMP]⟩]

/-- The registers of block BIST, from the register tables of spec/. -/
def regsBIST : List RegDesc := [
  ⟨Reg.BIST_CMD, [], [Fld.BIST_CMD_GO, Fld.BIST_CMD_NEXTBOOT, Fld.BIST_CMD_REPAIR, Fld.BIST_CMD_KIND, Fld.BIST_CMD_TARGET]⟩,
  ⟨Reg.BIST_PATS, [], [Fld.BIST_PATS_PATS]⟩,
  ⟨Reg.BIST_SEED_LO, [], [Fld.BIST_SEED_LO_VAL]⟩,
  ⟨Reg.BIST_SEED_HI, [], [Fld.BIST_SEED_HI_VAL]⟩,
  ⟨Reg.BIST_EXPL_LO, [], [Fld.BIST_EXPL_LO_VAL]⟩,
  ⟨Reg.BIST_EXPL_HI, [], [Fld.BIST_EXPL_HI_VAL]⟩,
  ⟨Reg.BIST_EXPM_LO, [], [Fld.BIST_EXPM_LO_VAL]⟩,
  ⟨Reg.BIST_EXPM_HI, [], [Fld.BIST_EXPM_HI_VAL]⟩,
  ⟨Reg.BIST_SIGL_LO, [], [Fld.BIST_SIGL_LO_VAL]⟩,
  ⟨Reg.BIST_SIGL_HI, [], [Fld.BIST_SIGL_HI_VAL]⟩,
  ⟨Reg.BIST_SIGM_LO, [], [Fld.BIST_SIGM_LO_VAL]⟩,
  ⟨Reg.BIST_SIGM_HI, [], [Fld.BIST_SIGM_HI_VAL]⟩,
  ⟨Reg.BIST_STAT, [], [Fld.BIST_STAT_BUSY, Fld.BIST_STAT_PHASE, Fld.BIST_STAT_LPASS, Fld.BIST_STAT_LFAIL, Fld.BIST_STAT_MPASS, Fld.BIST_STAT_MFAIL, Fld.BIST_STAT_REFUSED, Fld.BIST_STAT_ABORT, Fld.BIST_STAT_NOSPARE, Fld.BIST_STAT_NFAIL, Fld.BIST_STAT_TARGET]⟩,
  ⟨Reg.BIST_FAILn, [(4, 16)], [Fld.BIST_FAILn_VALID, Fld.BIST_FAILn_REPAIRED, Fld.BIST_FAILn_BANK, Fld.BIST_FAILn_ROW]⟩]

/-- The registers of block ENG, from the register tables of spec/. -/
def regsENG : List RegDesc := [
  ⟨Reg.ENG_CTRL, [], [Fld.ENG_CTRL_HALT, Fld.ENG_CTRL_RUN]⟩,
  ⟨Reg.ENG_ENTRY, [], [Fld.ENG_ENTRY_PC]⟩,
  ⟨Reg.ENG_STAT, [], [Fld.ENG_STAT_STATE, Fld.ENG_STAT_LVL, Fld.ENG_STAT_EVQ]⟩,
  ⟨Reg.ENG_PC, [], [Fld.ENG_PC_PC]⟩,
  ⟨Reg.ENG_IRQCFG, [], [Fld.ENG_IRQCFG_LVL]⟩,
  ⟨Reg.ENG_IPEND, [], [Fld.ENG_IPEND_PENDs]⟩,
  ⟨Reg.ENG_SWI, [], [Fld.ENG_SWI_DOOR, Fld.ENG_SWI_SOFT]⟩,
  ⟨Reg.ENG_EVQ, [], [Fld.ENG_EVQ_VALID, Fld.ENG_EVQ_CODE]⟩]

/-- The registers of block MMU, from the register tables of spec/. -/
def regsMMU : List RegDesc := [
  ⟨Reg.MMU_CTXn, [(4, 16)], [Fld.MMU_CTXn_PTB, Fld.MMU_CTXn_EN, Fld.MMU_CTXn_ASID]⟩]

/-- The registers of block DMA, from the register tables of spec/. -/
def regsDMA : List RegDesc := [
  ⟨Reg.DMA_CTRL, [], [Fld.DMA_CTRL_ALLSTOP, Fld.DMA_CTRL_STOPALL]⟩,
  ⟨Reg.DMA_IRQ, [], [Fld.DMA_IRQ_ERR, Fld.DMA_IRQ_DONE]⟩,
  ⟨Reg.DMA_IRQEN, [], [Fld.DMA_IRQEN_ERR, Fld.DMA_IRQEN_DONE]⟩,
  ⟨Reg.DMA_CNTn, [(4, 4)], [Fld.DMA_CNTn_COUNT]⟩,
  ⟨Reg.DMA_CHn_CFG, [(64, 8)], [Fld.DMA_CHn_CFG_TE, Fld.DMA_CHn_CFG_CTX, Fld.DMA_CHn_CFG_PRIO, Fld.DMA_CHn_CFG_TRIG, Fld.DMA_CHn_CFG_TARG, Fld.DMA_CHn_CFG_FLIMIT]⟩,
  ⟨Reg.DMA_CHn_DESC, [(64, 8)], [Fld.DMA_CHn_DESC_ADDR]⟩,
  ⟨Reg.DMA_CHn_CUR, [(64, 8)], [Fld.DMA_CHn_CUR_ADDR]⟩,
  ⟨Reg.DMA_CHn_FDESC, [(64, 8)], [Fld.DMA_CHn_FDESC_ADDR]⟩,
  ⟨Reg.DMA_CHn_CTRL, [(64, 8)], [Fld.DMA_CHn_CTRL_GO, Fld.DMA_CHn_CTRL_ABORT, Fld.DMA_CHn_CTRL_RESUME, Fld.DMA_CHn_CTRL_STRIG]⟩,
  ⟨Reg.DMA_CHn_STAT, [(64, 8)], [Fld.DMA_CHn_STAT_STATE, Fld.DMA_CHn_STAT_CODE, Fld.DMA_CHn_STAT_DIR, Fld.DMA_CHn_STAT_FINFO, Fld.DMA_CHn_STAT_GOREF, Fld.DMA_CHn_STAT_TRGLOST, Fld.DMA_CHn_STAT_RINGOVR, Fld.DMA_CHn_STAT_PENDTRG]⟩,
  ⟨Reg.DMA_CHn_LOOP0, [(64, 8)], [Fld.DMA_CHn_LOOP0_I1, Fld.DMA_CHn_LOOP0_I0]⟩,
  ⟨Reg.DMA_CHn_LOOP1, [(64, 8)], [Fld.DMA_CHn_LOOP1_OFF, Fld.DMA_CHn_LOOP1_I2]⟩,
  ⟨Reg.DMA_CHn_FADDR, [(64, 8)], [Fld.DMA_CHn_FADDR_ADDR]⟩,
  ⟨Reg.DMA_CHn_RBASE, [(64, 8)], [Fld.DMA_CHn_RBASE_ADDR]⟩,
  ⟨Reg.DMA_CHn_RLEN, [(64, 8)], [Fld.DMA_CHn_RLEN_PEND, Fld.DMA_CHn_RLEN_LEN]⟩,
  ⟨Reg.DMA_CHn_RPTR, [(64, 8)], [Fld.DMA_CHn_RPTR_ADDR]⟩,
  ⟨Reg.DMA_CHn_WM, [(64, 8)], [Fld.DMA_CHn_WM_WM]⟩]

/-- The registers of block ARB, from the register tables of spec/. -/
def regsARB : List RegDesc := [
  ⟨Reg.ARB_CFG, [], [Fld.ARB_CFG_FORCEFB, Fld.ARB_CFG_QUOTA]⟩,
  ⟨Reg.ARB_CTRL, [], [Fld.ARB_CTRL_FREEZE]⟩,
  ⟨Reg.ARB_STAT, [], [Fld.ARB_STAT_FB, Fld.ARB_STAT_DRAINED, Fld.ARB_STAT_MASKED, Fld.ARB_STAT_QMASK]⟩,
  ⟨Reg.ARB_CNTn, [(4, 4)], [Fld.ARB_CNTn_COUNT]⟩]

/-- The registers of block LCK, from the register tables of spec/. -/
def regsLCK : List RegDesc := [
  ⟨Reg.LCK_n, [(4, 32)], [Fld.LCK_n_RESULT, Fld.LCK_n_BROKEN, Fld.LCK_n_OWNER, Fld.LCK_n_RELEASE]⟩,
  ⟨Reg.LCK_HELD, [], [Fld.LCK_HELD_HELD]⟩,
  ⟨Reg.LCK_BROKEN, [], [Fld.LCK_BROKEN_BROKEN]⟩,
  ⟨Reg.LCK_FREE, [], [Fld.LCK_FREE_FREE]⟩]

/-- The registers of block BFM, from the register tables of spec/. -/
def regsBFM : List RegDesc := [
  ⟨Reg.BFM_BASES, [], [Fld.BFM_BASES_WBANK1, Fld.BFM_BASES_WBANK0, Fld.BFM_BASES_SHADOW, Fld.BFM_BASES_SLICE]⟩,
  ⟨Reg.BFM_COMMIT_RANGE, [], [Fld.BFM_COMMIT_RANGE_COUNT, Fld.BFM_COMMIT_RANGE_FIRST]⟩,
  ⟨Reg.BFM_COMMIT_AT, [], [Fld.BFM_COMMIT_AT_FRAME, Fld.BFM_COMMIT_AT_SUBFRAME, Fld.BFM_COMMIT_AT_SLOT, Fld.BFM_COMMIT_AT_SYM]⟩,
  ⟨Reg.BFM_COMMIT_CTRL, [], [Fld.BFM_COMMIT_CTRL_CAR, Fld.BFM_COMMIT_CTRL_WHEN, Fld.BFM_COMMIT_CTRL_GO]⟩,
  ⟨Reg.BFM_COMMIT_STAT, [], [Fld.BFM_COMMIT_STAT_CANCEL, Fld.BFM_COMMIT_STAT_REFUSED, Fld.BFM_COMMIT_STAT_DONE, Fld.BFM_COMMIT_STAT_BUSY, Fld.BFM_COMMIT_STAT_PEND]⟩,
  ⟨Reg.BFM_EXPn, [(4, 1024)], [Fld.BFM_EXPn_EXP]⟩,
  ⟨Reg.BFM_SEXPn, [(4, 1024)], [Fld.BFM_SEXPn_EXP]⟩]

/-- The registers of block SLT, from the register tables of spec/. -/
def regsSLT : List RegDesc := [
  ⟨Reg.SLT_CFG, [], [Fld.SLT_CFG_BASE_B, Fld.SLT_CFG_BASE_A, Fld.SLT_CFG_FRAMES, Fld.SLT_CFG_REFNUM]⟩,
  ⟨Reg.SLT_CTRL, [], [Fld.SLT_CTRL_CHAIN, Fld.SLT_CTRL_COMMIT, Fld.SLT_CTRL_ENABLE]⟩,
  ⟨Reg.SLT_STAT, [], [Fld.SLT_STAT_ERR_ENTRY, Fld.SLT_STAT_ERR_CODE, Fld.SLT_STAT_CHAINMISS, Fld.SLT_STAT_BADLATCH, Fld.SLT_STAT_ERR, Fld.SLT_STAT_CHECKING, Fld.SLT_STAT_PEND, Fld.SLT_STAT_ACTIVE]⟩,
  ⟨Reg.SLT_EDIT, [], [Fld.SLT_EDIT_GO, Fld.SLT_EDIT_BUSY, Fld.SLT_EDIT_REFUSED, Fld.SLT_EDIT_IDX]⟩,
  ⟨Reg.SLT_POS, [], [Fld.SLT_POS_ENTRY]⟩,
  ⟨Reg.SLT_CNT, [], [Fld.SLT_CNT_COUNT]⟩,
  ⟨Reg.SLT_STAGEn, [(4, 24)], [Fld.SLT_STAGEn_WORD]⟩,
  ⟨Reg.SLT_GAINCFG, [], [Fld.SLT_GAINCFG_LEAD, Fld.SLT_GAINCFG_PINMASK]⟩,
  ⟨Reg.SLT_GAINPAT, [], [Fld.SLT_GAINPAT_G]⟩]

/-- The registers of block TXC, from the register tables of spec/. -/
def regsTXC : List RegDesc := [
  ⟨Reg.TXC_NCO_FREQ, [], [Fld.TXC_NCO_FREQ_PEND, Fld.TXC_NCO_FREQ_FREQ]⟩,
  ⟨Reg.TXC_CARn, [(4, 8)], [Fld.TXC_CARn_PHC, Fld.TXC_CARn_WIN, Fld.TXC_CARn_SHIFT, Fld.TXC_CARn_FFTSZ]⟩,
  ⟨Reg.TXC_CNCOn, [(4, 8)], [Fld.TXC_CNCOn_PEND, Fld.TXC_CNCOn_OFFS]⟩,
  ⟨Reg.TXC_FSWAP, [], [Fld.TXC_FSWAP_WHEN, Fld.TXC_FSWAP_CARMASK]⟩,
  ⟨Reg.TXC_FSTAT, [], [Fld.TXC_FSTAT_LATE, Fld.TXC_FSTAT_WRREF, Fld.TXC_FSTAT_COLLAPSED, Fld.TXC_FSTAT_PEND, Fld.TXC_FSTAT_ACTIVE]⟩,
  ⟨Reg.TXC_COEF, [(1024, 8), (512, 2), (4, 97)], [Fld.TXC_COEF_COEF]⟩,
  ⟨Reg.TXC_PATHk, [(4, 8)], [Fld.TXC_PATHk_MUTE, Fld.TXC_PATHk_RAMP, Fld.TXC_PATHk_ATT]⟩,
  ⟨Reg.TXC_TRIMk, [(4, 8)], [Fld.TXC_TRIMk_DLY, Fld.TXC_TRIMk_PHASE]⟩,
  ⟨Reg.TXC_CFR_CFG, [], [Fld.TXC_CFR_CFG_EN, Fld.TXC_CFR_CFG_ITER, Fld.TXC_CFR_CFG_SPACE, Fld.TXC_CFR_CFG_THRESH]⟩,
  ⟨Reg.TXC_CFR_CLIP, [], [Fld.TXC_CFR_CLIP_CLIP]⟩,
  ⟨Reg.TXC_CFR_SWAP, [], [Fld.TXC_CFR_SWAP_WHEN, Fld.TXC_CFR_SWAP_GO]⟩,
  ⟨Reg.TXC_CFR_STAT, [], [Fld.TXC_CFR_STAT_LATE, Fld.TXC_CFR_STAT_WRREF, Fld.TXC_CFR_STAT_COLLAPSED, Fld.TXC_CFR_STAT_PEND, Fld.TXC_CFR_STAT_ACTIVE]⟩,
  ⟨Reg.TXC_PULSE, [(1024, 2), (4, 255)], [Fld.TXC_PULSE_Q, Fld.TXC_PULSE_I]⟩,
  ⟨Reg.TXC_CTRL, [], [Fld.TXC_CTRL_IFS, Fld.TXC_CTRL_INVSINC]⟩,
  ⟨Reg.TXC_STAT, [], [Fld.TXC_STAT_MUTED, Fld.TXC_STAT_SAT, Fld.TXC_STAT_CARDIS, Fld.TXC_STAT_UNLOCK, Fld.TXC_STAT_UNLOCKED, Fld.TXC_STAT_CFGERR, Fld.TXC_STAT_SAFE]⟩,
  ⟨Reg.TXC_UNLOCK_CNT, [], [Fld.TXC_UNLOCK_CNT_COUNT]⟩,
  ⟨Reg.TXC_SATSRC, [], [Fld.TXC_SATSRC_STAGE]⟩,
  ⟨Reg.TXC_SATk, [(4, 8)], [Fld.TXC_SATk_COUNT]⟩,
  ⟨Reg.TXC_CLIPk, [(4, 8)], [Fld.TXC_CLIPk_COUNT]⟩]

/-- The registers of block RXC, from the register tables of spec/. -/
def regsRXC : List RegDesc := [
  ⟨Reg.RXC_NCO_FREQ, [], [Fld.RXC_NCO_FREQ_PEND, Fld.RXC_NCO_FREQ_FREQ]⟩,
  ⟨Reg.RXC_CTRL, [], [Fld.RXC_CTRL_ZONE, Fld.RXC_CTRL_NBMARK]⟩,
  ⟨Reg.RXC_CNCOn, [(4, 8)], [Fld.RXC_CNCOn_PEND, Fld.RXC_CNCOn_OFFS]⟩,
  ⟨Reg.RXC_GCOMPk_g, [(16, 8), (4, 4)], [Fld.RXC_GCOMPk_g_PHASE, Fld.RXC_GCOMPk_g_GAIN]⟩,
  ⟨Reg.RXC_TRIMk, [(4, 8)], [Fld.RXC_TRIMk_EN, Fld.RXC_TRIMk_DLY, Fld.RXC_TRIMk_PHASE]⟩,
  ⟨Reg.RXC_FSWAP, [], [Fld.RXC_FSWAP_WHEN, Fld.RXC_FSWAP_CARMASK]⟩,
  ⟨Reg.RXC_FSTAT, [], [Fld.RXC_FSTAT_LATE, Fld.RXC_FSTAT_WRREF, Fld.RXC_FSTAT_COLLAPSED, Fld.RXC_FSTAT_PEND, Fld.RXC_FSTAT_ACTIVE]⟩,
  ⟨Reg.RXC_COEF, [(1024, 8), (512, 2), (4, 97)], [Fld.RXC_COEF_COEF]⟩,
  ⟨Reg.RXC_CARn, [(4, 8)], [Fld.RXC_CARn_PHC, Fld.RXC_CARn_CPOFFS, Fld.RXC_CARn_SHIFT, Fld.RXC_CARn_FFTSZ]⟩,
  ⟨Reg.RXC_STAT, [], [Fld.RXC_STAT_OVR, Fld.RXC_STAT_SAT, Fld.RXC_STAT_CARDIS, Fld.RXC_STAT_UNLOCK, Fld.RXC_STAT_UNLOCKED, Fld.RXC_STAT_CFGERR]⟩,
  ⟨Reg.RXC_UNLOCK_CNT, [], [Fld.RXC_UNLOCK_CNT_COUNT]⟩,
  ⟨Reg.RXC_OVRk, [(4, 8)], [Fld.RXC_OVRk_COUNT]⟩,
  ⟨Reg.RXC_SATk, [(4, 8)], [Fld.RXC_SATk_COUNT]⟩,
  ⟨Reg.RXC_PEAKk, [(4, 8)], [Fld.RXC_PEAKk_PEAK]⟩]

/-- The registers of block ORX, from the register tables of spec/. -/
def regsORX : List RegDesc := [
  ⟨Reg.ORX_NCO_FREQ, [], [Fld.ORX_NCO_FREQ_PEND, Fld.ORX_NCO_FREQ_FREQ]⟩,
  ⟨Reg.ORX_SW, [], [Fld.ORX_SW_WPAT, Fld.ORX_SW_SETTLE, Fld.ORX_SW_PINMASK]⟩,
  ⟨Reg.ORX_SWPAT, [], [Fld.ORX_SWPAT_P]⟩,
  ⟨Reg.ORX_CLAIM, [], [Fld.ORX_CLAIM_RELEASE, Fld.ORX_CLAIM_OWNER]⟩,
  ⟨Reg.ORX_CSETn, [(4, 16)], [Fld.ORX_CSETn_LEN, Fld.ORX_CSETn_RDLY, Fld.ORX_CSETn_REFSEL, Fld.ORX_CSETn_MODE, Fld.ORX_CSETn_PATH]⟩,
  ⟨Reg.ORX_TRIG, [], [Fld.ORX_TRIG_GO, Fld.ORX_TRIG_STOP, Fld.ORX_TRIG_SET]⟩,
  ⟨Reg.ORX_RING, [], [Fld.ORX_RING_PEND, Fld.ORX_RING_BASE, Fld.ORX_RING_LEN]⟩,
  ⟨Reg.ORX_CREC_POS, [], [Fld.ORX_CREC_POS_SET, Fld.ORX_CREC_POS_POS]⟩,
  ⟨Reg.ORX_CREC_LEN, [], [Fld.ORX_CREC_LEN_VALID, Fld.ORX_CREC_LEN_OVR, Fld.ORX_CREC_LEN_END, Fld.ORX_CREC_LEN_PATH, Fld.ORX_CREC_LEN_REFSEL, Fld.ORX_CREC_LEN_NGRP]⟩,
  ⟨Reg.ORX_CREC_T0, [], [Fld.ORX_CREC_T0_IDX]⟩,
  ⟨Reg.ORX_CREC_T1, [], [Fld.ORX_CREC_T1_SEC, Fld.ORX_CREC_T1_IDX32]⟩,
  ⟨Reg.ORX_CREC_NEXT, [], [Fld.ORX_CREC_NEXT_ANY]⟩,
  ⟨Reg.ORX_DF, [], [Fld.ORX_DF_EN, Fld.ORX_DF_POLICY, Fld.ORX_DF_FLOW, Fld.ORX_DF_RESUME]⟩,
  ⟨Reg.ORX_DFSTAT, [], [Fld.ORX_DFSTAT_PAUSED, Fld.ORX_DFSTAT_UNSENT]⟩,
  ⟨Reg.ORX_STAT, [], [Fld.ORX_STAT_OWNER, Fld.ORX_STAT_READY, Fld.ORX_STAT_RUN, Fld.ORX_STAT_SETTLING, Fld.ORX_STAT_LASTREF, Fld.ORX_STAT_TRIGREF, Fld.ORX_STAT_INCOMPLETE, Fld.ORX_STAT_OVR, Fld.ORX_STAT_PREEMPTED, Fld.ORX_STAT_RECLOST, Fld.ORX_STAT_UNLK]⟩,
  ⟨Reg.ORX_CNTn, [(4, 6)], [Fld.ORX_CNTn_COUNT]⟩]

/-- The registers of block DPD, from the register tables of spec/. -/
def regsDPD : List RegDesc := [
  ⟨Reg.DPD_CFG, [], [Fld.DPD_CFG_EN, Fld.DPD_CFG_K, Fld.DPD_CFG_MM1, Fld.DPD_CFG_L]⟩,
  ⟨Reg.DPD_SWAPk, [(4, 8)], [Fld.DPD_SWAPk_XF, Fld.DPD_SWAPk_WHEN]⟩,
  ⟨Reg.DPD_STATk, [(4, 8)], [Fld.DPD_STATk_LATE, Fld.DPD_STATk_DONE, Fld.DPD_STATk_WRREF, Fld.DPD_STATk_COLLAPSED, Fld.DPD_STATk_HELD, Fld.DPD_STATk_PEND, Fld.DPD_STATk_XF, Fld.DPD_STATk_ACTIVE]⟩,
  ⟨Reg.DPD_COEF, [(2048, 8), (1024, 2), (4, 128)], [Fld.DPD_COEF_Q, Fld.DPD_COEF_I]⟩]

/-- The registers of block EVT, from the register tables of spec/. -/
def regsEVT : List RegDesc := [
  ⟨Reg.EVT_STAT, [], [Fld.EVT_STAT_DEPTH, Fld.EVT_STAT_LATE, Fld.EVT_STAT_NOTIFLOST]⟩,
  ⟨Reg.EVT_CNTn, [(4, 2)], [Fld.EVT_CNTn_COUNT]⟩,
  ⟨Reg.EVT_TMRn_CFG, [(8, 4)], [Fld.EVT_TMRn_CFG_EN, Fld.EVT_TMRn_CFG_OWNER, Fld.EVT_TMRn_CFG_KIND, Fld.EVT_TMRn_CFG_ARG]⟩,
  ⟨Reg.EVT_TMRn_PER, [(8, 4)], [Fld.EVT_TMRn_PER_PERIOD]⟩]

/-- The registers of block PLL, from the register tables of spec/. -/
def regsPLL : List RegDesc := [
  ⟨Reg.PLL_CTRL, [], [Fld.PLL_CTRL_ACQ, Fld.PLL_CTRL_AUTO, Fld.PLL_CTRL_EN]⟩,
  ⟨Reg.PLL_CFG, [], [Fld.PLL_CFG_WIN, Fld.PLL_CFG_NSEL]⟩,
  ⟨Reg.PLL_STAT, [], [Fld.PLL_STAT_LOCK, Fld.PLL_STAT_ALIGNED, Fld.PLL_STAT_ACQUIRING, Fld.PLL_STAT_FAILED, Fld.PLL_STAT_NOBAND, Fld.PLL_STAT_LOL, Fld.PLL_STAT_MARGIN, Fld.PLL_STAT_IDX, Fld.PLL_STAT_BAND, Fld.PLL_STAT_TEMP]⟩,
  ⟨Reg.PLL_FORCE, [], [Fld.PLL_FORCE_EN, Fld.PLL_FORCE_VTUNE, Fld.PLL_FORCE_CODE]⟩,
  ⟨Reg.PLL_CNTn, [(4, 3)], [Fld.PLL_CNTn_COUNT]⟩,
  ⟨Reg.PLL_BANDn, [(4, 64)], [Fld.PLL_BANDn_VALID, Fld.PLL_BANDn_CODE]⟩]

/-- The registers of block FEP, from the register tables of spec/. -/
def regsFEP : List RegDesc := [
  ⟨Reg.FEP_SAFE, [], [Fld.FEP_SAFE_SAFE]⟩,
  ⟨Reg.FEP_CLAIM, [], [Fld.FEP_CLAIM_RELEASE, Fld.FEP_CLAIM_OWNER, Fld.FEP_CLAIM_MASK]⟩,
  ⟨Reg.FEP_CLAIM_STAT, [], [Fld.FEP_CLAIM_STAT_PREEMPTED, Fld.FEP_CLAIM_STAT_REFUSED]⟩,
  ⟨Reg.FEP_OWNn, [(4, 2)], [Fld.FEP_OWNn_OWN]⟩,
  ⟨Reg.FEP_GPIO, [], [Fld.FEP_GPIO_LEVEL]⟩,
  ⟨Reg.FEP_LEVEL, [], [Fld.FEP_LEVEL_LEVEL]⟩]

/-- The registers of block STO, from the register tables of spec/. -/
def regsSTO : List RegDesc := [
  ⟨Reg.STO_CE_ADDR, [], [Fld.STO_CE_ADDR_ADDR]⟩,
  ⟨Reg.STO_UE_ADDR, [], [Fld.STO_UE_ADDR_ADDR]⟩,
  ⟨Reg.STO_CE_INFO, [], [Fld.STO_CE_INFO_VALID, Fld.STO_CE_INFO_REQ, Fld.STO_CE_INFO_FETCH, Fld.STO_CE_INFO_CLASS, Fld.STO_CE_INFO_SYN]⟩,
  ⟨Reg.STO_UE_INFO, [], [Fld.STO_UE_INFO_VALID, Fld.STO_UE_INFO_REQ, Fld.STO_UE_INFO_FETCH, Fld.STO_UE_INFO_CLASS, Fld.STO_UE_INFO_SYN]⟩,
  ⟨Reg.STO_CNTn, [(4, 6)], [Fld.STO_CNTn_COUNT]⟩,
  ⟨Reg.STO_CFG, [], [Fld.STO_CFG_SCRUB, Fld.STO_CFG_AUTOREP, Fld.STO_CFG_PERIOD]⟩,
  ⟨Reg.STO_STAT, [], [Fld.STO_STAT_TABFULL, Fld.STO_STAT_REPBUSY, Fld.STO_STAT_PASSDONE]⟩,
  ⟨Reg.STO_SPAREOUT, [], [Fld.STO_SPAREOUT_OUT]⟩,
  ⟨Reg.STO_REPAIRn, [(4, 128)], [Fld.STO_REPAIRn_VALID, Fld.STO_REPAIRn_FAILED, Fld.STO_REPAIRn_ROW]⟩,
  ⟨Reg.STO_INJ_ADDR, [], [Fld.STO_INJ_ADDR_ADDR]⟩,
  ⟨Reg.STO_INJ, [], [Fld.STO_INJ_ARM, Fld.STO_INJ_BIT1, Fld.STO_INJ_BIT0]⟩]

end Sys2Proof.Machine
end

