-- ==== Sys2Proof/Config.lean ====
section
/-!
DEFINITION. What an implementation fixes and the free values: constants with no body, so that nothing in Lean can
evaluate them or prove a value of them. Each has a row of the assumption log.
-/

namespace Sys2Proof

/-- The fuse contents of one die (R51, R52, R463): what Ohmash test and provisioning have burnt. -/
structure Fuses where
  gradeX   : Bool
  uid      : Nat
  lcs      : Nat
  debug    : Bool
  pkey     : Bool
  prog     : Nat
  revoked  : Nat
  arb      : Nat
  keyHash  : List Nat
  deriving DecidableEq, Repr, Inhabited

/-- The fuses of this die as it left Ohmash test: a free value per die (R51, R52, R463). -/
opaque Config.fuses : Fuses

/-- The die serial number (R52): any 64-bit value but 0 and all ones. -/
def Config.uid : Nat := 1 + Config.fuses.uid % (2 ^ 64 - 2)

/-- A value the spec leaves open: the `n`-th such value drawn by this machine. -/
opaque Config.freeValue : Nat → Nat

/-- The place of the binary point in the 40-bit accumulators of R62, which states the width alone. -/
opaque Config.accFrac : Nat

/-! The taps of the fixed filters, in units of 2^-30: the spec gives their rates, delays, passbands and stopbands, not the taps. -/

/-- Tap of half-band interpolator `i` (R100). -/
opaque Config.halfBandUp : Nat → Nat → Int

/-- Tap of half-band decimator `i` (R130). -/
opaque Config.halfBandDown : Nat → Nat → Int

/-- Tap of a phase of the 9/4 resampler (R100). -/
opaque Config.resampleUpTap : Nat → Nat → Int

/-- Tap of a phase of the 4/9 resampler (R130). -/
opaque Config.resampleDownTap : Nat → Nat → Int

/-- Tap of the fine-delay interpolator for a delay in fine steps (R104, R129). -/
opaque Config.fineTap : Int → Nat → Int

/-- Tap of the half-band filter before the predistorter (R109). -/
opaque Config.dpdHalfTap : Nat → Int

/-- Tap of the interpolation by 4 before the RF DAC (R113). -/
opaque Config.rfTap : Nat → Int

/-- Tap of the inverse-sinc correction about an RF NCO frequency in kHz (R113). -/
opaque Config.sincTap : Nat → Nat → Int

/-- Tap of the decimation by 4 behind an RF ADC (R120). -/
opaque Config.adcTap : Nat → Int

/-- Tap of the decimation by 4 behind an ORx ADC (R147). -/
opaque Config.orxTap : Nat → Int

/-- Tap of a PRACH extractor's decimation by 2^d (R138). -/
opaque Config.prachTap : Nat → Nat → Int

/-- The start state of the PRBS13Q pattern of a data position (R175, R178): the spec names the pattern, not its phase. -/
opaque Config.prbsStart : Nat → Nat

/-- The (80,64) DEC-TED syndrome of a word with these inverted bits (R278): the spec states the classes, not the matrix. -/
opaque Config.syndrome : List Nat → Nat

/-- FREE VALUE (log 120): the class in which a word with more than three bits in error reads (R278 guarantees no detection there). -/
opaque Config.beyondCode : Nat → List Nat → Nat

/-- FREE VALUE (log 120): the word that the code delivers where it takes an error of more than three bits for a correctable one. -/
opaque Config.beyondWord : Nat → List Nat → Nat

/-- FREE VALUE (log 124): the temperature coefficient of the internal references, in 10^-9 per 0.125 degrees, that the fused test data of this die give with a die-centre
reading (R374, R398): the spec names the two sources and states no value. -/
opaque Config.refCoef : Int → Int

/-- Tap of the 23-tap half-band filter of the fine chain of the HKADC, in units of 2^-30 (R376): the spec gives its length, not its taps. -/
opaque Config.hkTap : Nat → Int

/-- The place of the binary point in the 24-bit partial sums of R71, which states the width alone. -/
opaque Config.partialFrac : Nat

/-- TYPE of the window that carries a Tally message of a kind (R231): the spec gives no codes. -/
opaque Config.tallyType : Nat → Nat

/-- The payload bytes of a Tally message of a kind with its arguments (R231): the spec gives no layout. -/
opaque Config.tallyPayload : Nat → List Nat → List Nat

/-- The message that a window's TYPE and payload carry, if any (R231). -/
opaque Config.tallyRead : Nat → List Nat → Option (Nat × List Nat)

/-- The notification number of the event indication that R72 sends when the number of contributing hamlets changes: no table
states it. -/
opaque Config.elementsNumber : Nat

/-- The number of the event indication that R370 sends when throttle actions are applied or removed: no table states it. -/
opaque Config.actionNumber : Nat

/-- The additional information of that indication, of the zone and the action mask (R370): their places are not stated. -/
opaque Config.actionInfo : Nat → Nat → Nat

/-- The notification number of the event indication that R221 sends at a step of device time: no table states it. -/
opaque Config.stepNumber : Nat

/-- The bytes of the Reeve boot ROM (R35), which the spec does not give. -/
opaque Config.bootRom : Nat → Nat

/-- The word of translation context slot `n` of the Reeve: R271 places the slots in the hamlets' MMU blocks and names no register for the Reeve's. -/
opaque Config.reeveSlot : Nat → Word

/-! The cryptographic functions that Agate uses (R456 to R468), uninterpreted: SHA-384, ECDSA and ECDH over P-384, AES key wrap, AES-256-GCM, HKDF, and what
only this die holds. A number below is a secret that Agate has drawn. -/

/-- SHA-384 of some bytes. -/
opaque Config.sha384 : List Nat → List Nat

/-- Does a signature verify under a public key over a digest? -/
opaque Config.ecdsaOk : List Nat → List Nat → List Nat → Bool

/-- The identity key's signature over a digest; ECDSA is randomised by a drawn number. -/
opaque Config.identSign : List Nat → Nat → List Nat

/-- The identity public key (R466). -/
opaque Config.identKey : List Nat

/-- The identity certificate (R466). -/
opaque Config.identCert : List Nat

/-- The content key that a wrapped key holds under this part's product key, if it unwraps (R460). -/
opaque Config.unwrapKey : List Nat → Option (List Nat)

/-- AES-256-GCM opened: key, IV, additional data, ciphertext, tag. -/
opaque Config.gcmOpen : List Nat → List Nat → List Nat → List Nat → List Nat → Option (List Nat)

/-- AES-256-GCM sealed: key, IV, additional data, plaintext; ciphertext and tag. -/
opaque Config.gcmSeal : List Nat → List Nat → List Nat → List Nat → List Nat × List Nat

/-- The public key of an ephemeral secret (R467). -/
opaque Config.ephPub : Nat → List Nat

/-- The 72 bytes that HKDF yields from an ephemeral secret, the peer's public key and the salt (R467). -/
opaque Config.sessionKeys : Nat → List Nat → List Nat → List Nat

end Sys2Proof
end

