-- ==== Sys2Proof/Machine/State.lean ====
section
/-!
DEFINITION. The state of the CW6480 as plain data: the register files, the stores, and what the spec gives each block
beside its registers. Times are in units of 1/56,623,104 ns (log 1): a tick of R14 is 115,200,000 units, a fine step
28,125 units, 2^-16 ns is 864 units.
-/

namespace Sys2Proof.Machine

/-- Why the machine stops with a fault. -/
inductive Fault where
  /-- A command names a unit that the part does not have. No command raises it: every operand that names a unit has a type that admits the part's units
  alone. Safe: it could only stop. -/
  | noSuchUnit
  deriving DecidableEq, Repr

/-- Why a command has no meaning. -/
inductive Refusal where
  /-- The command has no meaning in this model. No command raises it: every row of the table has its meaning. Safe: it could only stop. -/
  | notModelled (mnemonic : String)
  deriving DecidableEq, Repr

/-- A register file: (address, word) pairs, addresses strictly rising, no entry equal to its reset value. -/
abbrev RegFile := List (Nat × Word)

/-- What the last access returned to its requester: an error response or not, and the data read (R43, R45, R51). -/
structure Resp where
  err  : Bool := false
  data : Nat := 0
  deriving DecidableEq, Repr, Inhabited

/-- What leaves the part: a Lanied codeword (its nine cells of 66 bytes, its link-control field of 48 bytes, whether it belongs to a marker
pair, the levels on each physical position that carries a stream, 9 for CK), a training frame's levels on a data position, a Tally message handed to its hops, a Tally window's characters (bit 8 set for K28.5 and K28.0), an MGP frame, a Stile packet, a pulse on SYNCOUT, a boundary-scan value, a lane event, the forwarded clock of a position alone (R206). -/
inductive Out where
  | codeword (cells : List (List Nat)) (lc : List Nat) (marker : Bool) (lanes : List (Nat × List Nat))
  | training (position : Nat) (levels : List Nat)
  | tally (op : Nat) (args : List Nat)
  | window (up : Bool) (chars : List Nat)
  | frame (words : List Nat)
  | stile (args : List Int) (bytes : List Nat) (syms : List Int)
  | syncout (due : Nat)
  | tdo (bits : Nat)
  | lane (code : Nat) (args : List Nat)
  | forwarded (position : Nat)
  deriving DecidableEq, Repr

/-- An event indication that waits for the link (R487). -/
structure Indic where
  raised : Bool
  num  : Nat
  elem : Nat
  info : Nat
  entry : Nat
  deriving DecidableEq, Repr, Inhabited

/-- The fault manager beside its registers (R477 to R487). `pinSafe` says that the pins of a hamlet are forced to SAFE (R84). -/
structure Flt where
  queue    : List Nat := []
  age      : Vector Nat 32 := Vector.replicate 32 0
  count    : Nat := 0
  sent     : Vector Bool 32 := Vector.replicate 32 false
  waiting  : List Indic := []
  evq      : List Nat := []
  isoStep  : Vector Nat 8 := Vector.replicate 8 0
  isoCause : Vector Nat 8 := Vector.replicate 8 0
  isoDue   : Vector Nat 8 := Vector.replicate 8 0
  bootFail : Bool := false
  reeveBist : Bool := false
  badStrap : Bool := false
  pinSafe  : Vector Bool 8 := Vector.replicate 8 false
  deriving DecidableEq, Repr

/-- An access that waits for a hamlet domain to wake (R42, R354); `va` is its address before translation. Size code 4 marks a gateway request. -/
structure Stalled where
  req   : Req
  addr  : Nat
  size  : Nat
  write : Bool
  data  : Nat
  va    : Nat
  deriving DecidableEq, Repr, Inhabited

/-- An error in a store word (R278, R286): its 8-byte word's address, the inverted bits of its 80 and, from 80 on, the folded word-address bits in which its place of
writing differs from its place of reading; or poison. -/
structure EccErr where
  word   : Nat
  bits   : List Nat
  poison : Bool
  deriving DecidableEq, Repr, Inhabited

/-- A pending bank swap (R102, R110). -/
structure SwapReq where
  whenCode : Nat
  due      : Nat
  xf       : Nat
  deriving DecidableEq, Repr, Inhabited

/-- A pending carrier commit (R53): its frame boundary, the held registers taken at GO, the registers written since. -/
structure CarPend where
  due   : Nat
  vals  : RegFile
  dirty : List Nat
  deriving DecidableEq, Repr, Inhabited

/-- An accepted section descriptor (R57, R60); `wrong` says that it was counted as naming a symbol of the wrong direction (R61). -/
structure Desc where
  car     : Nat
  dir     : Nat
  layer   : Nat
  frame   : Nat
  sub     : Nat
  slot    : Nat
  startSym : Nat
  numSym  : Nat
  startPrb : Nat
  numPrb  : Nat
  wsrc    : Nat
  prbg    : Nat
  wref    : Nat
  atten   : Nat
  secId   : Nat
  endAt   : Nat
  wrong   : Bool := false
  deriving DecidableEq, Repr, Inhabited

/-- A vector that was rewritten after its bank was cleared (R70): its bank, its index, its 64 weights as they were. -/
structure OldVec where
  bank : Nat
  vec  : Nat
  w    : List Nat
  deriving DecidableEq, Repr, Inhabited

/-- The pending store of descriptors and the explicit weights (R60, R70). `valid` lists (bank, vector); a symbol whose air start lies before
`cleared` of a bank still uses `prev` and `old`, the copy that the prefetch of R27 holds; `held` are the vectors that wait at a frozen store (R292). -/
structure Rtc where
  descs   : List Desc := []
  valid   : List (Nat × Nat) := []
  cleared : Vector Nat 2 := Vector.replicate 2 0
  prev    : List (Nat × Nat) := []
  old     : List OldVec := []
  held    : List OldVec := []
  deriving DecidableEq, Repr

/-- A beam commit outstanding in a hamlet (R66). `due` is none while a WHEN 2 commit waits for the chain. -/
structure BfmPend where
  first : Nat
  count : Nat
  whenCode : Nat
  car   : Nat
  due   : Option Nat
  deriving DecidableEq, Repr, Inhabited

/-- A beam entry as it was before a commit (R63): its index, its 8 weights, its exponent, and the instant of the commit that replaced it. -/
structure OldBeam where
  entry : Nat
  w     : List Nat
  exp   : Nat
  till  : Nat
  deriving DecidableEq, Repr, Inhabited

/-- A hamlet's beam block beside its registers: the commit that waits or copies, the entries that the commits replaced (R63), the due instant of new
bases and the bases that recent changes replaced, each with its instant (R63, R67), the writes to the shadow exponents that wait for the copy (R65), and the intervals of FREEZE, which empty the weight prefetch (R27, R292): those that
have ended and the start of the present one. -/
structure Bfm where
  pend     : Option BfmPend := none
  copying  : Option BfmPend := none
  old      : List OldBeam := []
  basesDue : Option Nat := none
  was      : List (Nat × Word) := []
  stalled  : List Stalled := []
  frozen   : List (Nat × Nat) := []
  frozenAt : Nat := 0
  deriving DecidableEq, Repr, Inhabited

/-- A latched slot-table entry (R79, R83). `words` is empty for an entry that is not executed. -/
structure Latched where
  slotAt  : Nat
  entry   : Nat
  num     : Nat
  words   : List Word
  next    : Nat
  lead    : Nat
  pinmask : Nat
  gainpat : Nat
  gainSym : Nat
  deriving DecidableEq, Repr, Inhabited

/-- The slot-table sequencer beside its registers (R80 to R82). `enables` lists the changes of ENABLE that wait for their frame boundaries, oldest first. -/
structure Slt where
  checking  : Bool := false
  swapDue   : Option Nat := none
  checkEnd  : Nat := 0
  enables   : List (Nat × Bool) := []
  edit      : Option Nat := none
  cfgTaken  : Word := 0
  latched   : List Latched := []
  deriving DecidableEq, Repr, Inhabited

/-- The downlink data held for one carrier, layer, symbol and PRB (R88, R89). -/
structure DlCell where
  car : Nat
  layer : Nat
  sym : SymId
  prb : Nat
  data : PrbData
  deriving DecidableEq, Repr, Inhabited

/-- A beamformer output: element, iFFT bin (R93), and the value in Q3.15 (R62). -/
structure YVal where
  e   : Nat
  bin : Nat
  i   : Int
  q   : Int
  deriving DecidableEq, Repr, Inhabited

/-- A formed symbol: its carrier, air start, N, prefix length, window length, SHIFT, PHC and centre frequency in kHz of hamlet 0 to 7 (R92 to R96), the end of its
prefix in ticks of the subframe, the code of its rate (R100), its iFFT inputs, and what they are formed from: its name, the carrier's definition, its layer data, the
hamlets that form it, those whose weight prefetch was empty (R27), the elements whose beamformer output saturated, one entry for each time, and whether its
saturations have been counted. -/
structure TxSymbol where
  car   : Nat := 0
  air   : Nat := 0
  n     : Nat := 0
  ncp   : Nat := 0
  win   : List Nat := []
  shift : List Nat := []
  phc   : List Bool := []
  f0    : List Int := []
  ref   : Nat := 0
  rate  : Nat := 0
  y     : List YVal := []
  sid   : SymId := default
  cfg   : Word := 0
  cells : List (DlCell × Desc) := []
  hs    : List (Fin 8) := []
  dry   : List (Fin 8) := []
  sat   : List Nat := []
  counted : Bool := false
  deriving DecidableEq, Repr, Inhabited

/-- The downlink side of the host port: the partition's cells, the symbols formed within the last 3 ms, the newest first (R89, R62), and the ball instant up to
which the path stages' saturated and clipped samples are counted (R115). -/
structure Dl where
  cells : List DlCell := []
  syms  : List TxSymbol := []
  done  : Nat := 0
  deriving DecidableEq, Repr

/-- A mute-gain ramp of one path (R105): from a gain in 1/65,536 at `start`, to `target`, over `len` units; MUTE as in force, and the changes of MUTE that wait
for their boundaries. -/
structure Mute where
  gain    : Nat := 0
  target  : Nat := 0
  start   : Nat := 0
  len     : Nat := 0
  ramping : Bool := false
  muted   : Bool := true
  pend    : List (Nat × Bool) := []
  deriving DecidableEq, Repr, Inhabited

/-- A DPD path's requests, running fade, and the recent fades, newest first: start, length, incoming bank (R110, R111). -/
structure Dpd where
  pend    : Option SwapReq := none
  held    : Option SwapReq := none
  fadeEnd : Option Nat := none
  fades   : List (Nat × Nat × Nat) := []
  deriving DecidableEq, Repr, Inhabited

/-- A written setting that waits for its half-subframe boundary (R104): the boundary, the register and its word. -/
structure SetPend where
  due  : Nat
  addr : Nat
  word : Word
  deriving DecidableEq, Repr, Inhabited

/-- A hamlet's transmit side beside its registers: CFR swap, settings that wait for a half-subframe boundary, safety
ramp end, forced zero code, DAC clock gate, resume instant (R102 to R114). `quiet` says that lock was dropped deliberately, `counted` is the end of the last slot
that was counted for its forced samples; `was` holds the settings that recent boundaries replaced, each with its boundary, `boWas` so the backoff steps (R370). -/
structure Tx where
  cfr       : Option SwapReq := none
  sets      : List SetPend := []
  rampEnd   : Option Nat := none
  forced    : Bool := false
  forcedAt  : Nat := 0
  quiet     : Bool := false
  counted   : Nat := 0
  dacGated  : Bool := false
  resumeDue : Option Nat := none
  was       : List SetPend := []
  boWas     : List (Nat × Nat) := []
  deriving DecidableEq, Repr, Inhabited

/-- An overrange mark of a path (R125): the ball instants of the first and the last clipped sample. -/
structure Mark where
  path : Nat
  t0   : Nat
  t1   : Nat
  deriving DecidableEq, Repr, Inhabited

/-- A hamlet's receive side beside its registers: overrange marks, whether its samples are forced to zero and since when, the earlier such intervals (R142), the
instant from which it contributes again, and the ball instant up to which its path stages' saturations are counted (R120). `quiet` and `counted` are as in `Tx`. -/
structure Rx where
  marks     : List Mark := []
  forced    : Bool := false
  zeroFrom  : Nat := 0
  zeros     : List (Nat × Nat) := []
  quiet     : Bool := false
  counted   : Nat := 0
  resumeDue : Option Nat := none
  done      : Nat := 0
  deriving DecidableEq, Repr, Inhabited

/-- A running PRACH occasion (R139): the settings it began with (R141), its first sample's instant, its name, and how many messages' blocks each beam has sent. -/
structure Occasion where
  cfg   : Word
  beams : List Word
  time  : Word
  len   : Nat
  start : Nat
  frame : Nat
  slot  : Nat
  sent  : Nat := 0
  deriving DecidableEq, Repr, Inhabited

/-- A cell of a flow (R180): its flags, its sequence number on a reliable flow, and its 64 payload bytes. -/
structure Cell where
  flow : Nat
  som  : Bool
  eom  : Bool
  rseq : Nat
  data : List Nat
  deriving DecidableEq, Repr, Inhabited

/-- A message of a flow. -/
structure FlowMsg where
  flow  : Nat
  bytes : List Nat
  deriving DecidableEq, Repr, Inhabited

/-- A fault indication that the partner has not acknowledged (R195): its Event ID, its bytes, how often it was sent again, and
when the next repeat is due. -/
structure IndSent where
  id    : Nat
  bytes : List Nat
  tries : Nat
  due   : Nat
  deriving DecidableEq, Repr, Inhabited

/-- A Remote Memory Access request that waits for a hamlet domain (R42, R197): its ID, read/write code, Element ID, address, length, data. -/
structure RmaReq where
  id   : Nat
  op   : Nat
  elem : Nat
  addr : Nat
  len  : Nat
  data : List Nat
  deriving DecidableEq, Repr, Inhabited

/-- The host port's message side (R180 to R195): outbound cells staged in order, messages whose producer stalls (R188), inbound
messages delivered and not yet taken, the numbers of R186, R193 and R195, and the gateway requests that wait for a wake. -/
structure Port where
  staged   : List Cell := []
  waiting  : List FlowMsg := []
  inbox    : List FlowMsg := []
  rseqTx   : List (Nat × Nat) := []
  msgCount : List (Nat × Nat) := []
  seqIn    : List (Nat × Nat) := []
  eventId  : Nat := 0
  unacked  : List IndSent := []
  lastN    : Nat := 8
  rma      : List RmaReq := []
  deriving DecidableEq, Repr

/-- One direction of the Lanied link (R171 to R178): up, its capacity when last up, symbols sent on a lane since the first codeword after
training, the number and the start instant of its next codeword, the precoder state p(-1) of each logical lane and of the spare (R173), and while it trains
its phase of R174 (1 clock, 2 lane lock, 3 equalisation, 4 deskew, 5 FEC lock), the instant at which that began, and the codewords decoded in a row since. -/
structure LinkDir where
  up   : Bool := false
  cap  : Nat := 0
  syms : Nat := 0
  cseq : Nat := 0
  next : Nat := 0
  pre  : List Nat := List.replicate 9 0
  phase : Nat := 0
  since : Nat := 0
  fec  : Nat := 0
  deriving DecidableEq, Repr, Inhabited

/-- An inbound message in reassembly (R180, R187); `bad` says that it is discarded. -/
structure Partial where
  flow  : Nat
  bytes : List Nat
  bad   : Bool
  deriving DecidableEq, Repr, Inhabited

/-- A lane-management message to send (R181): in how many more codewords. -/
structure LmReq where
  op   : Nat
  arg  : Nat
  tgt  : Nat
  left : Nat
  deriving DecidableEq, Repr, Inhabited

/-- A data-lane substitution (R201): positions, target codeword, the instant of the failure, whether the stream has moved, and whether it has been
counted (R205). -/
structure Subst where
  failed : Nat
  spare  : Nat
  tgt    : Nat
  at0    : Nat
  moved  : Bool
  counted : Bool := false
  deriving DecidableEq, Repr, Inhabited

/-- The Lanied link beside its registers: taps of the transmit positions in 1/40 of full swing (pre, main, post) and their status
codes, what the partner's frames ask per position (PREC, PRECACK, READY), the positions heard and those the part reported READY, the instants of the training's
start and of the last frame, the codewords lost in a row, the lane-management bytes last acted on (R181), replay (R186), reassembly, granted credits (R185), lost codewords,
lane management (R200 to R204), L1 (R206), remote resets (R196), the messages delivered to the Reeve, whether a training repairs a lane failure (R200), the codeword before
the oldest one lost whose replay has not ended, with the codewords left until it has (R186), the last ACK taken (R186), and of each logical lane the markers missing or wrong in a row and the bit errors of the last one (R200). -/
structure Lnk where
  tx       : LinkDir := {}
  rx       : LinkDir := {}
  retryDue : Option Nat := none
  taps     : Vector (Int × Int × Int) 9 := Vector.replicate 9 (0, 36, -4)
  tapStat  : Vector (Nat × Nat × Nat) 9 := Vector.replicate 9 (0, 0, 0)
  prec     : Vector Bool 9 := Vector.replicate 9 false
  precAck  : Vector Bool 9 := Vector.replicate 9 false
  farReady : Vector Bool 9 := Vector.replicate 9 false
  heard    : Vector Bool 9 := Vector.replicate 9 false
  nearReady : Vector Bool 9 := Vector.replicate 9 false
  trainAt  : Nat := 0
  frameAt  : Nat := 0
  runLost  : Nat := 0
  lmSeen   : Option (List Nat) := none
  unacked  : List (Nat × Cell) := []
  replay   : List (Nat × Cell) := []
  lastNak  : Option Nat := none
  ackAt    : Nat := 0
  partials : List Partial := []
  rseqRx   : List (Nat × Nat) := []
  grants   : List (Nat × Nat) := []
  nak      : Option (Nat × Nat) := none
  lossRun  : Bool := false
  lastOk   : Nat := 0
  lastDecode : Nat := 0
  lm       : List LmReq := []
  subRx    : Option Subst := none
  subTx    : Option Subst := none
  failedAt : List Nat := []
  rr       : List (Nat × Nat) := []
  timing   : Bool := false
  l1       : Option Nat := none
  l1Seen   : Option Nat := none
  resets   : List (Nat × Nat) := []
  toReeve  : List FlowMsg := []
  repair   : Bool := false
  hold     : Option (Nat × Nat) := none
  lastAck  : Nat := 65535
  badMarks : Vector Nat 9 := Vector.replicate 9 0
  markErr  : Vector Nat 9 := Vector.replicate 9 0
  deriving DecidableEq, Repr

/-- An action queued in an event unit (R224): its instant, its kind and its argument. -/
structure EvAct where
  at0  : Nat
  kind : Nat
  arg  : Nat
  deriving DecidableEq, Repr, Inhabited

/-- A hamlet's event unit beside its registers (R224 to R227): queued actions in queue order, the operands of an action on its way in from SCHED
(time registers and argument), T1 of each timer and the instant after which it fires next. -/
structure Evu where
  q     : List EvAct := []
  cross : Option (Nat × Nat × Nat) := none
  tmr   : Vector (Nat × Nat) 4 := Vector.replicate 4 (0, 0)
  deriving DecidableEq, Repr, Inhabited

/-- The time block beside its registers (R208 to R234): the due instants of FNOFF and of a step with its offset in time units and whether it
is a load, the stamps of PPS_IN and SYNC, the instant of each source's last measurement, the last SYNC edge with a TIME message, the start of HOLD,
consecutive offsets within 50 ps, the offset the follower still slews and the instant of its last slew, requests that wait for their follow-up (R194), and SUSPECT and
GOOD of source 5, which has no bits in `TIM_SRCSTAT` (R217, R220). -/
structure Tim where
  fnoffDue : Option Nat := none
  step     : Option (Nat × Int × Bool) := none
  caps     : Vector Nat 2 := Vector.replicate 2 0
  meas     : Vector Nat 4 := Vector.replicate 4 0
  syncAt   : Nat := 0
  holdAt   : Nat := 0
  near     : Nat := 0
  slew     : Int := 0
  slewAt   : Nat := 0
  owd      : List (Nat × Nat) := []
  sus5     : Bool := false
  good5    : Nat := 0
  deriving DecidableEq, Repr

/-- The Tally block beside its registers (R231 to R238): runs of good and of bad windows (upstream, downstream), the last SYNCOUT pulse, commands
that wait for their target (OP, instant), the token that waits for the downstream hop (its NEXT, its FORCE flag, the 1 ms limit), the messages that each hop still has
to send with the windows left for each, the message last acted on from each hop with the windows in which a copy of it is ignored (R238), and the instant that
the last TIME message named (R234), whether SYNCOUT runs (R233), and the device's place in the census of its own token (R237). -/
structure Tly where
  good   : Nat × Nat := (0, 0)
  bad    : Nat × Nat := (0, 0)
  pulse  : Nat := 0
  cmds   : List (Nat × Nat) := []
  token  : Option (Nat × Bool × Nat) := none
  outUp  : List (Nat × List Nat × Nat) := []
  outDn  : List (Nat × List Nat × Nat) := []
  seenUp : Option ((Nat × List Nat) × Nat) := none
  seenDn : Option ((Nat × List Nat) × Nat) := none
  time   : Option (Nat × Nat) := none
  running : Bool := false
  place  : Option Nat := none
  deriving DecidableEq, Repr

/-- A hamlet's converter PLL beside its registers (R331 to R335): when an alignment is due, failed attempts in a row, the end of the
running attempt, whether it holds a forced band, WIN and NSEL taken at the acquisition; `off` says that a write that cleared EN dropped lock (R334). -/
structure Pll where
  alignDue : Option Nat := none
  tries    : Nat := 0
  acqDue   : Option Nat := none
  forced   : Bool := false
  win      : Nat := 5
  nsel     : Nat := 6
  off      : Bool := false
  deriving DecidableEq, Repr, Inhabited

/-- A running or settling capture (R152 to R159). `sample` counts the samples from the first to the next group, those not captured under
hold included; `ending` is the END code that a cause has set. -/
structure Capture where
  set     : Nat
  path    : Nat
  refsel  : Nat
  oneShot : Bool
  len     : Nat
  pos     : Nat
  count   : Nat := 0
  first   : Nat
  settle  : Option Nat := none
  sample  : Nat := 0
  clipped : Bool := false
  grpClip : Bool := false
  ending  : Option Nat := none
  paused  : Option Nat := none
  stream  : Bool := false
  opens   : Bool := true
  rdly    : Nat := 0
  deriving DecidableEq, Repr, Inhabited

/-- A capture record (R160). -/
structure CapRec where
  pos  : Word
  len  : Word
  t0   : Word
  t1   : Word
  deriving DecidableEq, Repr, Inhabited

/-- One item of a deep flow in its order (R163 to R167): an unsent group (KIND 0) at a ring position, or a queued message of another
KIND. `at0` is the instant of its sample. -/
structure DeepItem where
  kind   : Nat
  at0    : Nat
  arg    : Nat
  pos    : Nat
  path   : Nat
  refsel : Nat
  ovr    : Bool
  opens  : Bool
  deriving DecidableEq, Repr, Inhabited

/-- A group in the ORx capture FIFO (R27): its address in the ring, its 224 bits, whether it is the last one before the capture ends or pauses, and whether the
deep flow carries it. -/
structure CapGroup where
  addr   : Nat
  bits   : Nat
  last   : Bool
  stream : Bool
  deriving DecidableEq, Repr, Inhabited

/-- A hamlet's observation receiver beside its registers (R150 to R167): triggers that wait for T, the capture, the ring's write position, bytes
written in all, queued records, the deep flow's items and sequence number, samples discarded since the last sent, the capture FIFO of R27, and the
lower half of a store word whose upper half belongs to the next group, with the address of that word (R279). -/
structure Orx where
  trigs   : List (Nat × Nat) := []
  cap     : Option Capture := none
  wpos    : Nat := 0
  written : Nat := 0
  recs    : List CapRec := []
  items   : List DeepItem := []
  seq     : Nat := 0
  lost    : Nat := 0
  fifo    : List CapGroup := []
  half    : Nat := 0
  opened  : Option Nat := none
  deriving DecidableEq, Repr, Inhabited

/-- A Watch FM channel beside its registers (R419, R420, R423): PI under adoption, PS segments, the method A list, the try, the last 64 blocks. -/
structure FmChan where
  piNew  : Nat := 0
  piRun  : Nat := 0
  segs   : Nat := 0
  ps     : List Nat := List.replicate 8 0
  afs    : List Nat := []
  tries  : List Nat := []
  low    : Nat := 0
  blocks : List Bool := []
  deriving DecidableEq, Repr, Inhabited

/-- A broadcast-time item (R425). -/
structure BtItem where
  src : Nat
  utc : Nat
  ms  : Nat
  lto : Nat
  t   : Nat
  deriving DecidableEq, Repr, Inhabited

/-- The Watch receiver beside its registers (R416 to R431): channels 0 and 1 are FM, 2 the digital demodulator; the record queue; the running
entry's start and that of its dwell, gain changes and clipping; the last broadcast-time item; the earliest instant of the next change of gain. -/
structure Wch where
  chan   : Vector FmChan 3 := Vector.replicate 3 {}
  queue  : List (List Nat) := []
  start  : Nat := 0
  dwell  : Nat := 0
  agc    : Nat := 0
  clip   : Bool := false
  bt     : BtItem := ⟨0, 0, 0, 0, 0⟩
  agcAt  : Nat := 0
  deriving DecidableEq, Repr

/-- Half of an accumulator pair: real and imaginary, each a 40-bit two's complement number (R241, R243). -/
structure Acc where
  re : Int := 0
  im : Int := 0
  deriving DecidableEq, Repr, Inhabited

/-- What each execution level has of its own (R246): g16 to g31, a4 to a7, m4 to m7, l4 to l7, acc2, acc3, FLG. `lin` holds the
length that the last post-modify of each register used, `lw` whether l has been written since (R251). -/
structure EngBank where
  g   : Vector Word 16 := Vector.replicate 16 0
  a   : Vector Word 4 := Vector.replicate 4 0
  m   : Vector Word 4 := Vector.replicate 4 0
  l   : Vector (BitVec 24) 4 := Vector.replicate 4 0
  lin : Vector (BitVec 24) 4 := Vector.replicate 4 0
  lw  : Vector Bool 4 := Vector.replicate 4 false
  acc : Vector Acc 2 := Vector.replicate 2 {}
  flg : BitVec 16 := 0
  deriving DecidableEq, Repr, Inhabited

/-- A result on its way to a register (R252): a general register, an address, offset or length register (SEL of R247), a whole
accumulator, one part of an accumulator (R257). -/
inductive EngWrite where
  | g (n : Fin 32) (v : Word)
  | x (sel : Fin 3) (n : Fin 8) (v : Word)
  | acc (n : Fin 4) (v : Acc)
  | part (n : Fin 4) (p : Nat) (v : Word)
  deriving DecidableEq, Repr

/-- What a RET restores (R268): the fields of STATUS and whether a machine exception is being handled. -/
structure Status where
  te    : Bool
  exc   : Bool
  priv  : Nat
  ppriv : Nat
  lvl   : Fin 3
  ie1   : Bool
  ie2   : Bool
  mexc  : Bool
  deriving DecidableEq, Repr, Inhabited

/-- The branch whose delay slot comes next (R254): its address, where it goes, the register that it wrote with its old value, and for a RET the status
before it (R263: after an exception in the slot the branch has had no effect). -/
structure Slot where
  addr   : Nat
  target : Nat
  link   : Option (Fin 32 × Word) := none
  undo   : Option Status := none
  deriving DecidableEq, Repr, Inhabited

/-- Why an engine waits (R261, R262): a device time, an interrupt, a low-power state; the time or the entry, and rd. -/
inductive EngWait where
  | time (due : Nat) (rd : Fin 32)
  | idle
  | power (rd : Fin 32)
  deriving DecidableEq, Repr

/-- A TLB entry (R272, R273): virtual page and physical page in 4 KiB units, the low byte of its level-2 entry, ASID. -/
structure TlbEnt where
  vpage : Nat
  ppage : Nat
  low   : Nat
  asid  : Nat
  deriving DecidableEq, Repr, Inhabited

/-- One Wimako engine (R241): the registers common to the levels, the three banks, the control registers of R270 under their names, the
writes on their way (with the instructions left), the delay slot, TLB (newest first, a hole for each entry replaced or invalidated),
the stores whose error response has not been taken (R264), and what it waits for. `state` is STATE of `ENG_STAT`; `mexc` says that a
machine exception is being handled (R265). -/
structure Eng where
  state  : Nat := 0
  pc     : Nat := 0
  halted : Nat := 0
  g      : Vector Word 16 := Vector.replicate 16 0
  a      : Vector Word 4 := Vector.replicate 4 0
  m      : Vector Word 4 := Vector.replicate 4 0
  l      : Vector (BitVec 24) 4 := Vector.replicate 4 0
  lin    : Vector (BitVec 24) 4 := Vector.replicate 4 0
  lw     : Vector Bool 4 := Vector.replicate 4 false
  acc    : Vector Acc 2 := Vector.replicate 2 {}
  bank   : Vector EngBank 3 := Vector.replicate 3 {}
  te     : Bool := false
  exc    : Bool := false
  priv   : Nat := 1
  ppriv  : Nat := 0
  lvl    : Fin 3 := 0
  ie1    : Bool := false
  ie2    : Bool := false
  cause  : Word := 0
  badva  : Word := 0
  epc    : Vector Word 3 := Vector.replicate 3 0
  sstat  : Vector Word 2 := Vector.replicate 2 0
  vbase  : Word := 0
  ctx    : Fin 16 := 0
  rsm    : Vector Word 3 := Vector.replicate 3 0
  scr    : Vector Word 4 := Vector.replicate 4 0
  epcm   : Word := 0
  sstatm : Word := 0
  mexc   : Bool := false
  writes : List (Nat × EngWrite) := []
  slot   : Option Slot := none
  tlb    : List (Option TlbEnt) := []
  bad    : List Nat := []
  wait   : Option EngWait := none
  deriving DecidableEq, Repr, Inhabited

/-- A row copy of the repair unit (R283): the row, its spare, and the words that were uncorrectable. -/
structure RowCopy where
  bank  : Nat
  row   : Nat
  spare : Nat
  bad   : List Nat
  deriving DecidableEq, Repr, Inhabited

/-- The arbiter of one bank (R288 to R291): the requesters that wait (0 datapath read, 1 capture write, 2 engine instruction, 3 engine data, 4 DMA, 5 host port,
6 Reeve, 7 the scrubber), those whose grant is decided and not yet used, the last one granted of each class, and the grants of the present window, in all and of the
high class. -/
structure Bank where
  waiting : List Nat := []
  due     : List Nat := []
  lastHigh : Nat := 0
  lastLow : Nat := 0
  grants  : Nat := 0
  high    : Nat := 0
  deriving DecidableEq, Repr, Inhabited

/-- Cells of a bank that serve no row now (R277, R283): a spare that no remap uses, or the row that one replaces. `place` is the spare's number, or 8 + the row; `row` is the
row under whose addresses the words were written; the 32 words, and their errors by word of the row. -/
structure Hidden where
  bank  : Nat
  place : Nat
  row   : Nat
  words : List Nat
  errs  : List EccErr
  deriving DecidableEq, Repr, Inhabited

/-- A store beside its registers (R282, R283, R288): the scrub pass, when it began, the next granule of the pass and since when it waits, the table of rows with a Single
error and the pass of the error, the candidates that wait, the copy that runs, the cells that serve no row, and the arbiters of the banks that have served a request. -/
structure Sto where
  pass  : Nat := 0
  passAt : Option Nat := none
  pos   : Nat := 0
  scrubAt : Option Nat := none
  table : List (Nat × Nat) := []
  cands : List (Nat × Nat) := []
  copy  : Option RowCopy := none
  hidden : List Hidden := []
  banks : List (Nat × Bank) := []
  deriving DecidableEq, Repr, Inhabited

/-- A DMA channel beside its registers (R307 to R323): the descriptor in hand, descriptors fetched since GO, RING of the head, the bytes read
and written of the descriptor, the bytes that wait (the last of them byte `rp` - 1) and whether they came from register space, the byte at which the triggered unit ends, the
address of the descriptor to fetch, a held ring length, a write that failed (its byte, its address), the written bytes of the capture ring that were read or skipped and whether the overrun was counted,
whether ABORT or STOPALL (2 or 3) waits for the boundary. -/
structure DmaCh where
  desc    : List Word := []
  fetched : Nat := 0
  ring    : Bool := false
  rp      : Nat := 0
  wp      : Nat := 0
  buf     : List Nat := []
  regs    : Bool := false
  unitEnd : Nat := 0
  next    : Nat := 0
  rlen    : Option Nat := none
  failed  : Option (Nat × Nat) := none
  taken   : Int := 0
  ovr     : Bool := false
  ending  : Nat := 0
  deriving DecidableEq, Repr, Inhabited

/-- The entry of a hamlet domain past the point of no return (R351): its target, whether the PLL was locked, whether the engine's WAIT asked for
it, and whether a wake is held (R352). -/
structure Entry where
  target : Nat
  locked : Bool
  held   : Bool
  at0    : Nat
  deriving DecidableEq, Repr, Inhabited

/-- A hamlet's power side beside its registers (R346, R354): the entry, the instant of the wake, whether the PLL was locked at the entry to
RETAIN, whether its engine waits for the wake, the rail's ramp (from mV, since), and whether the rail holds the arbiter in fall-back (R291). -/
structure HPow where
  entry  : Option Entry := none
  wakeAt : Option Nat := none
  locked : Bool := false
  rampMv : Nat := 750
  low    : Bool := false
  rampAt : Nat := 0
  deriving DecidableEq, Repr, Inhabited

/-- The device's power side beside its registers (R358 to R361): 0 running, 1 KEEP, 2 LISTEN; WAKE_OUT and the instant of its last fall; a
wake that is held; the wake sequencer's step and its try; the supplies out of range (R345, bit order of the table); whether the Hearth domain
is powered (R22); `unpassed` says that a wake record's FAULT_L still waits for a wake that passes every step, `refOff` that the part fell back to STANDBY and holds
REFIN-dependent blocks off (R361). -/
structure Pow where
  down    : Nat := 0
  wakeOut : Bool := true
  outAt   : Nat := 0
  held    : Bool := false
  step    : Nat := 1
  try_    : Nat := 1
  stepAt  : Nat := 0
  left    : Nat := 0
  rails   : Nat := 0
  hearth  : Bool := true
  unpassed : Bool := false
  refOff  : Bool := false
  deriving DecidableEq, Repr, Inhabited

/-- A CLKOUT output beside its registers (R337): when it restarts, and whether with a rising edge at a whole millisecond. -/
structure ClkOut where
  restart : Option Nat := none
  aligned : Bool := false
  deriving DecidableEq, Repr, Inhabited

/-- The thermal supervisor's view of one zone beside its registers (R366 to R370): for WARN, THROTTLE and SHUTDOWN the rounds above T, the
rounds below T - H, asserted or not, and the sensors that pin it; the actions applied (0: none). -/
structure ThmZone where
  above : Vector Nat 3 := Vector.replicate 3 0
  below : Vector Nat 3 := Vector.replicate 3 0
  on    : Vector Bool 3 := Vector.replicate 3 false
  pins  : Vector (List Nat) 3 := Vector.replicate 3 []
  acts  : Word := 0
  deriving DecidableEq, Repr, Inhabited

/-- The running rotation of a hamlet (R370): the first path of the muted group, the paths of a group, the next boundary, whether it ends there. -/
structure Rot where
  first : Nat
  size  : Nat
  due   : Nat
  stop  : Bool
  deriving DecidableEq, Repr, Inhabited

/-- The thermal supervisor beside its registers: rounds in which each sensor lay far from or near its neighbours, those of the latter since its last failing reading, the zones, the start of the orderly
stop, a hard cut decided, and what they record (sensor, value), the SHED level in force (above 15: none), the boundaries that wait with their levels, oldest first, the last boundary with
the level before it, the sensors that have been read since reset, BO steps in force and the boundaries that wait with their steps, rotations. -/
structure Thm where
  far     : Vector Nat 84 := Vector.replicate 84 0
  near    : Vector Nat 84 := Vector.replicate 84 0
  good    : Vector Nat 84 := Vector.replicate 84 0
  zone    : Vector ThmZone 9 := Vector.replicate 9 {}
  stopAt  : Option Nat := none
  hard    : Bool := false
  cause   : Nat × Nat := (0, 0)
  steps   : Nat := 0
  shed    : Nat := 16
  shedDue : List (Nat × Nat) := []
  shedWas : Nat × Nat := (0, 16)
  seen    : Vector Bool 84 := Vector.replicate 84 false
  bo      : Vector Nat 8 := Vector.replicate 8 0
  boDue   : Vector (List (Nat × Nat)) 8 := Vector.replicate 8 []
  rot     : Vector (Option Rot) 8 := Vector.replicate 8 none
  deriving DecidableEq, Repr

/-- A conversion of the HKADC (R377): of the fixed round or of user entry `n`; its channel, filter setting and settling time; whether nothing is converted
(R379), whether it waits for the external reference; when it began, when its conversion started, whether a result touched the recovery window. -/
structure HkConv where
  fixed : Bool
  n     : Nat
  ch    : Nat
  osr   : Nat
  wait  : Bool
  unav  : Bool
  begun : Nat
  start : Nat
  mark  : Bool
  deriving DecidableEq, Repr, Inhabited

/-- The HKADC beside its registers (R376 to R385): the channels left of the fixed round, the last round start, whether a round waits for a user entry, the sensors
read in the round (number, reading, error), TSRC's code of the round with its overrange, the conversion, the next user entry (33: no pass), pass number, the last periodic start,
STOP pending, the last conversion overranged, the recovery window, when the external reference was selected last, the latched words of `HKA_RSTn`. -/
structure Hk where
  round   : List Nat := []
  inRound : Bool := false
  next    : Nat := 0
  waiting : Bool := false
  temps   : List (Nat × Nat × Bool) := []
  tsrc    : Option (Nat × Bool) := none
  conv    : Option HkConv := none
  pos     : Nat := 33
  pass    : Nat := 0
  perDue  : Nat := 0
  stop    : Bool := false
  ovr     : Bool := false
  recov   : Bool := false
  extAt   : Option Nat := none
  latch   : List (Nat × Word) := []
  deriving DecidableEq, Repr

/-- A running sine (R394): the instant and phase of sample 0 of the present word, FTW, AMP and OFFSET in force, AMP and OFFSET that wait for the
phase to pass 0, whether it stops at the end of its half-cycle. -/
structure Sine where
  t0   : Nat
  ph0  : Nat
  ftw  : Nat
  amp  : Nat
  off  : Nat
  wait : Option (Nat × Nat)
  stop : Option Nat
  deriving DecidableEq, Repr, Inhabited

/-- A bias channel beside its registers (R390 to R395): the target of the ramp, its next step, whether it is on its way to OFFSET for a sine, the sine. -/
structure Bias where
  goal  : Nat := 0
  step  : Option Nat := none
  start : Bool := false
  sine  : Option Sine := none
  deriving DecidableEq, Repr, Inhabited

/-- A running calibration request (R399 to R404): kind, mode, checks, mask, the instant of GO, the correction values of its runs (newest first), the units
beyond their trim in the last run (MASK bit, unit in the element), guard steps made since the last run, the last L-mode estimate, the instant of the last
applied one and of the last one formed, whether one was applied, a precondition lost, the code it ends with and the values it applies. -/
structure CalReq where
  kind  : Nat
  mode  : Nat
  check : Nat
  mask  : Nat
  go    : Nat
  runs  : List (List Int) := []
  worn  : List (Nat × Nat) := []
  steps : Nat := 0
  est   : Option (List Int) := none
  last  : Nat := 0
  estAt : Nat := 0
  any   : Bool := false
  lost  : Bool := false
  code  : Nat := 0
  vals  : Option (List Int) := none
  deriving DecidableEq, Repr, Inhabited

/-- A substitution that waits for its symbol (R403): slot, kind, MASK bit, the request's end. -/
structure CalSub where
  slot : Nat
  kind : Nat
  bit  : Nat
  at0  : Nat
  deriving DecidableEq, Repr, Inhabited

/-- The CAL block beside its registers: requests, corrections in force by 256 * slot + kind, corrections that wait for a half-subframe boundary (its instant,
the key, the values), substitutions, kind 0x01 has ended once, the trim of the references and its goal in millionths, and their temperature coefficient in 10^-9 per
0.125 degrees with the die-centre reading at which it was formed (R398). -/
structure Cal where
  req   : Vector (Option CalReq) 9 := Vector.replicate 9 none
  trims : List (Nat × List Int) := []
  next  : List (Nat × Nat × List Int) := []
  subs  : List CalSub := []
  ended : Bool := false
  trim  : Int := 0
  goal  : Int := 0
  coef  : Option (Int × Int) := none
  deriving DecidableEq, Repr

/-- A running BIST (R408): target, KIND, REPAIR; `irq` is source 4 of R488; whether a stop has ended it (R409). -/
structure Bist where
  target : Option Nat := none
  kind   : Nat := 0
  repair : Bool := false
  irq    : Bool := false
  stopped : Bool := false
  deriving DecidableEq, Repr, Inhabited

/-- The Stile radio beside its registers (R433 to R443): the state it moves to, the instant at which it entered Synth from Standby while the synthesiser is not
locked, whether it is locked, the packet being sent (FREQ, correction, PWR, aerial, preamble symbols; sync word and the bytes after it), the start of the RX timeout,
whether it has expired in a reception, FREQ and CFG in force, the next receive buffer, the aerial of the last delivered packet and of the packet in reception, the
correction before that packet, its estimate and RSSI. -/
structure Stl where
  goal    : Nat := 0
  entered : Option Nat := none
  lock    : Bool := false
  packet  : List Int × List Nat := ([], [])
  rxAt    : Nat := 0
  late    : Bool := false
  freq    : Nat := 0x21656A5
  cfg     : Word := 0x600FA1F4
  buf     : Nat := 0
  ant     : Nat := 0
  sel     : Nat := 0
  held    : Int := 0
  est     : Int := 0
  rssi    : Int := 0
  deriving DecidableEq, Repr, Inhabited

/-- The Bell receiver beside its registers (R446, R448): whether it listens, when a sniff that found the preamble began, the match whose Hearth answer runs. -/
structure Bel where
  on     : Bool := false
  since  : Option Nat := none
  answer : Option Nat := none
  deriving DecidableEq, Repr, Inhabited

/-- An Agate command under way (R462). -/
structure AgtCmd where
  op  : Nat
  arg : Nat
  src : Nat
  dst : Nat
  len : Nat
  deriving DecidableEq, Repr, Inhabited

/-- A protected image (R462): its first address, length, entry, digest. -/
structure Prot where
  lo     : Nat
  len    : Nat
  entry  : Nat
  digest : List Nat
  deriving DecidableEq, Repr, Inhabited

/-- A service session (R467, R468): the instant of its last accepted record, its last SEQ received, the transcript hash, the 72 bytes of key and salt, the SEQ of
the next record sent, and whether the first record is still to come. -/
structure Sess where
  at0   : Nat
  seq   : Option Nat
  hash  : List Nat
  keys  : List Nat
  out   : Nat
  first : Bool
  deriving DecidableEq, Repr, Inhabited

/-- Agate beside its registers: the command, the protected images (8: the Reeve), fuses burnt since manufacture beside those of `Config.fuses` (revoked slots, key
hashes, counter, lifecycle steps), the lifecycle steps that count since the last device reset, the session. -/
structure Agt where
  cmd     : Option AgtCmd := none
  prot    : Vector (Option Prot) 9 := Vector.replicate 9 none
  revoked : List Nat := []
  keys    : List (Nat × List Nat) := []
  burnt   : Nat := 0
  steps   : Nat := 0
  shown   : Nat := 0
  sess    : Option Sess := none
  deriving DecidableEq, Repr

/-- Start-up beside its registers (R453 to R461): RESET_L, the straps as sampled (BOOTSRC, CHAIN_HEAD, BASE, REFSEL) and as they stand, a device reset due, the
Reeve's boot under way, the slots that have failed in it, when the sources are tried next, whether the part is held in reset. -/
structure Boot where
  resetL  : Bool := true
  inReset : Bool := false
  straps  : Nat := 0
  devDue  : Option Nat := none
  booting : Bool := false
  failed  : List Nat := []
  retry   : Option Nat := none
  upAt    : Nat := 0
  rom     : Bool := false
  deriving DecidableEq, Repr, Inhabited

/-- The calendar (R228): its count in 1/32,768 s at an instant of oscillator time with the part of a count that had passed then, whether it runs, the remainder carried in
10^-9 cycles, a load that waits for its second, HTH_CAL_HI as latched. -/
structure Calendar where
  count : Nat := 0
  at0   : Nat := 0
  part  : Nat := 0
  runs  : Bool := true
  rest  : Int := 0
  syncAt : Option Nat := none
  hi    : Option Word := none
  deriving DecidableEq, Repr, Inhabited

/-- The test access port (R504): the instruction, the boundary register's update stage, EXTEST in force. -/
structure Tap where
  ir   : Nat := 0
  bsr  : List (Nat × Bool) := []
  ext  : Bool := false
  deriving DecidableEq, Repr, Inhabited

/-- The rejoin boundary of a hamlet that has not been ACTIVE since its domain was OFF or in RETAIN (R349): none is known yet. -/
abbrev notActive : Nat := 1237940039285380274899124224

/-- The machine. -/
structure State where
  /-- Device time (R13). -/
  now     : Nat := 0
  /-- The registers as written or shown (R5 to R8). -/
  regs    : RegFile := []
  /-- The values in force of double-buffered settings (R28). -/
  eff     : RegFile := []
  /-- The bytes of the stores (R35, R36). -/
  mem     : List (Nat × Byte) := []
  /-- The store words that hold an error (R278). -/
  ecc     : List EccErr := []
  /-- The response of the last access. -/
  resp    : Resp := {}
  /-- What has left the part, newest first. -/
  out     : List Out := []
  /-- The model's own counter of free values drawn. -/
  free    : Nat := 0
  flt     : Flt := {}
  /-- The event notification queue of each hamlet engine (R27). -/
  evq     : Vector (List Nat) 8 := Vector.replicate 8 []
  /-- Accesses that wait for a hamlet domain, in arrival order (R354). -/
  stalled : List Stalled := []
  carPend : Option CarPend := none
  /-- The registers in force before each recent carrier commit, newest first (R53, R127). -/
  carWas  : List (Nat × RegFile) := []
  refcarDue : Option Nat := none
  rtc     : Rtc := {}
  bfm     : Vector Bfm 8 := Vector.replicate 8 {}
  /-- The boundary at which a hamlet enters service (R73, R349); in `notActive` it has not been ACTIVE since its domain was OFF or in RETAIN. -/
  rejoin  : Vector (Option Nat) 8 := Vector.replicate 8 (some notActive)
  slt     : Vector Slt 8 := Vector.replicate 8 {}
  dl      : Dl := {}
  tx      : Vector Tx 8 := Vector.replicate 8 {}
  txSwap  : Vector (Option SwapReq) 64 := Vector.replicate 64 none
  rxSwap  : Vector (Option SwapReq) 64 := Vector.replicate 64 none
  mute    : Vector Mute 64 := Vector.replicate 64 {}
  dpd     : Vector Dpd 64 := Vector.replicate 64 {}
  rx      : Vector Rx 8 := Vector.replicate 8 {}
  /-- The running occasion of each PRACH extractor, and the frame boundaries that written PRACH settings wait for (R141). -/
  prach   : Vector (Option Occasion) 4 := Vector.replicate 4 none
  /-- The occasions whose last samples are still on their way while a later one runs, oldest first (R139, R140, R143). -/
  prachOld : Vector (List Occasion) 4 := Vector.replicate 4 []
  praSets : List SetPend := []
  port    : Port := {}
  lnk     : Lnk := {}
  orx     : Vector Orx 8 := Vector.replicate 8 {}
  wch     : Wch := {}
  evu     : Vector Evu 8 := Vector.replicate 8 {}
  tim     : Tim := {}
  tly     : Tly := {}
  pll     : Vector Pll 8 := Vector.replicate 8 {}
  /-- Engines 0 to 7 of the hamlets, 8 the Reeve (R241). -/
  eng     : Vector Eng 9 := Vector.replicate 9 {}
  /-- Stores 0 to 7 of the hamlets, 8 the Reeve SRAM, 9 the host-port buffer (R277, R287). -/
  sto     : Vector Sto 10 := Vector.replicate 10 {}
  dma     : Vector DmaCh 64 := Vector.replicate 64 {}
  /-- The channel that each DMA engine served last (R325). -/
  dmaPtr  : Vector Nat 8 := Vector.replicate 8 7
  hpow    : Vector HPow 8 := Vector.replicate 8 {}
  pow     : Pow := {}
  clkOut  : Vector ClkOut 4 := Vector.replicate 4 {}
  thm     : Thm := {}
  hk      : Hk := {}
  bias    : Vector Bias 32 := Vector.replicate 32 {}
  cal     : Cal := {}
  bist    : Bist := {}
  stl     : Stl := {}
  bel     : Bel := {}
  agt     : Agt := {}
  boot    : Boot := {}
  calen   : Calendar := {}
  tap     : Tap := {}
  /-- Edge triggers posted to DMA channels and not yet delivered (R315): TRIG code, hamlet (8 for all), argument. -/
  edges   : List (Nat × Nat × Nat) := []
  /-- The commands that wait, first in, first out. -/
  pending : List Instr := []
  deriving DecidableEq, Repr

/-- The machine right after reset: every register at its reset value (the register files list nothing), the stores
with nothing listed, every hamlet domain OFF (R348, R362), WAKE_OUT asserted and the wake sequencer at step 0x1 (R453). -/
def State.reset : State := {}

end Sys2Proof.Machine
end

