-- ==== Sys2Proof/Machine/Ops.lean ====
section
/-!
DEFINITION. The named operations over the machine: the register map's lookup, the register files, the stores, time,
messages and notifications, and raising a fault as one shared operation.
-/

namespace Sys2Proof.Machine

/-! ### Time (R13, R14, R210) -/

/-- One event tick (R14) in time units. -/
abbrev tickU : Nat := 115200000
/-- One fine step (R14). -/
abbrev fineU : Nat := 28125
/-- 2^-16 ns (R13). -/
abbrev fracU : Nat := 864
/-- One nanosecond. -/
abbrev nsU : Nat := 56623104
/-- One microsecond. -/
abbrev usU : Nat := 56623104000
/-- One millisecond. -/
abbrev msU : Nat := 56623104000000
/-- One second. -/
abbrev secU : Nat := 56623104000000000
/-- One half-subframe (R102). -/
abbrev halfU : Nat := 28311552000000
/-- One frame, 10 ms (R210). -/
abbrev frameU : Nat := 566231040000000
/-- One ORx sample at 4,423.68 MS/s, a ninth of a tick. -/
abbrev orxU : Nat := 12800000

/-- Seconds of device time (R13). -/
def secOf (t : Nat) : Nat := t / secU

/-- The device time that an instant shows (R208): device time advances only on the event tick. -/
def shown (t : Nat) : Nat := t / tickU * tickU

/-- Nanoseconds of an instant within its second. -/
def nsOf (t : Nat) : Nat := t % secU / nsU

/-- Fraction of a nanosecond of device time, in 2^-16 ns. -/
def fracOf (t : Nat) : Nat := t % nsU / fracU

/-- The first multiple of `step` at or after `t`. -/
def nextMult (t step : Nat) : Nat := (t + step - 1) / step * step

/-- The first multiple of `step` after `t`. -/
def nextAfter (t step : Nat) : Nat := (t / step + 1) * step

/-- The first frame boundary at least 100 us after `t` (R53, R80, R82). -/
def frameAfter100 (t : Nat) : Nat := nextMult (t + 100 * usU) frameU

/-- The first half-subframe boundary at least 2 us after `t` (R102, WHEN = 1). -/
def halfAfter2 (t : Nat) : Nat := nextMult (t + 2 * usU) halfU

/-! ### The register map -/

/-- The hamlet whose window holds an address (R35). -/
def hamletOf (a : Nat) : Option (Fin 8) :=
  if 0x10000000 ≤ a ∧ a < 0x18000000 then some (Fin.ofNat 8 ((a - 0x10000000) / 0x1000000)) else none

/-- An address as the register map names it: inside its hamlet window, or absolute. -/
def localAddr (a : Nat) : Nat := if 0x10000000 ≤ a then a % 0x1000000 else a

/-- The lock field of the block at `base` (R48). -/
def lockField (base : Nat) : Field := ⟨base + 0xFFFC, 0, 1, .w1s, 0, [], 0, 1⟩

/-- The 128 words of the retention store (R469). -/
def retField : Field := ⟨0x04100200, 0, 32, .rw, 0, [4], 0, 1⟩

/-- The STO register set moved to another base: the sets of the Reeve SRAM and the host-port buffer (R286). -/
def storeRegs (base rows : Nat) : List RegDesc :=
  regsSTO.map fun d => ⟨d.reg - 0x8E0000 + base, (if d.reg = Reg.STO_REPAIRn then [(4, rows)] else d.dims),
    d.fields.map fun f => { f with reg := f.reg - 0x8E0000 + base }⟩

/-- The registers of the block that holds a local address (R37). -/
def blockRegs (la : Nat) : List RegDesc :=
  match la / 0x10000 with
  | 0x400 => regsSYS ++ storeRegs 0x04000800 128
  | 0x401 => regsPWR | 0x402 => regsCLK | 0x403 => regsTHM | 0x404 => regsHKA | 0x405 => regsBDA
  | 0x406 => regsCAL | 0x407 => regsFLT | 0x408 => regsTIM | 0x409 => regsTLY
  | 0x40A => regsLNK ++ storeRegs 0x040A0800 256
  | 0x40B => regsMGP | 0x40C => regsWCH | 0x40D => regsSTL | 0x40E => regsBEL | 0x40F => regsAGT
  | 0x410 => regsHTH ++ [⟨0x04100200, [(4, 128)], [retField]⟩]
  | 0x411 => regsBIST
  | 0x80 => regsENG | 0x81 => regsMMU | 0x82 => regsDMA | 0x83 => regsARB | 0x84 => regsLCK | 0x85 => regsBFM
  | 0x86 => regsSLT | 0x87 => regsTXC | 0x88 => regsRXC | 0x89 => regsORX | 0x8A => regsDPD | 0x8B => regsEVT
  | 0x8C => regsPLL | 0x8D => regsFEP | 0x8E => regsSTO
  | _ => []

/-- Is there a register block at a local address (R35, R36)? -/
def inBlock (la : Nat) : Bool :=
  (0x04000000 ≤ la && la < 0x04120000) || (0x800000 ≤ la && la < 0x8F0000)

/-- Does an offset from a register's first address name one of its copies? -/
def coversOff : List (Nat × Nat) → Nat → Bool
  | [], d => d = 0
  | (st, n) :: t, d => d / st < n && coversOff t (d % st)

/-- Does a register description name this local address? -/
def covers (d : RegDesc) (la : Nat) : Bool := d.reg ≤ la && coversOff d.dims (la - d.reg)

/-- The register at an address, if the map has one. -/
def descOf (a : Nat) : Option RegDesc :=
  let la := localAddr a
  if la % 0x10000 = 0xFFFC && inBlock la then some ⟨la, [], [lockField (la - 0xFFFC)]⟩
  else (blockRegs la).find? fun d => covers d la

/-- The bits of a field's reset value, all copies. -/
def fieldReset (f : Field) : Nat :=
  (List.range f.cnt).foldl (fun n j => n + f.rst * 2 ^ (f.lo + j * f.step)) 0

/-- The reset values that a table gives by a rule on the index (R137, R141, R168, R182, R188, R189, R205, R112). -/
def specialReset (a : Nat) : Nat :=
  let la := localAddr a
  let h := match hamletOf a with | some h => h.val | none => 0
  if Reg.LNK_FLOWf_CFG ≤ la ∧ la < Reg.LNK_FLOWf_CFG + 0x800 ∧ la % 8 = 0 then
    let f := (la - Reg.LNK_FLOWf_CFG) / 8
    let cls := if f = 0 then 0 else if f ≤ 3 then 1 else if f ≤ 7 then 3 else 2
    b2n (f ≤ 0x1B || (0x20 ≤ f && f ≤ 0x27)) * 2 ^ 31 + cls * 2 ^ 29
      + b2n (0x20 ≤ f && f ≤ 0x27) * 2 ^ 28 + b2n (1 ≤ f && f ≤ 7) * 2 ^ 27
      + (if 4 ≤ f ∧ f ≤ 7 then 0x40 else 0)
  else if Reg.LNK_UL_CARn ≤ la ∧ la < Reg.LNK_UL_CARn + 32 then (0x10 + (la - Reg.LNK_UL_CARn) / 4) * 2 ^ 24
  else if Reg.LNK_PRA_TIMEm ≤ la ∧ la < Reg.LNK_PRA_TIMEm + 16 then (0x18 + (la - Reg.LNK_PRA_TIMEm) / 4) * 2 ^ 24
  else if la = Reg.ORX_DF then (0x20 + h) * 2 ^ 16
  else if la = Reg.LNK_PARTn then 0x0000006C
  else if la = Reg.LNK_PARTn + 4 then 0x006C000F
  else if la = Reg.LNK_PARTn + 8 then 0x007B0003
  else if la = Reg.LNK_PARTn + 12 then 0x007E0002
  else if la = 0x04100200 then 0xFF
  else if la = Reg.TLY_STAT then 0x00FF0000
  else if la = Reg.LNK_LANEMAP_TX ∨ la = Reg.LNK_LANEMAP_RX then 0x76543210
  else if Reg.DPD_COEF ≤ la ∧ la < Reg.DPD_COEF + 0x4000 ∧ la % 0x400 = 0 then 0x4000
  else 0

/-- What a register reads after reset (R7): the tables' values. -/
def regReset (a : Nat) : Word :=
  match descOf a with
  | none => 0#32
  | some d => BitVec.ofNat 32 (d.fields.foldl (fun n f => n + fieldReset f) 0 + specialReset a)

/-! ### Register files -/

/-- The word a register file holds at an address. -/
def rfRead (l : RegFile) (a : Nat) : Word :=
  match l.find? (fun p => p.1 == a) with
  | some p => p.2
  | none => regReset a

/-- A pair put into its place in a rising list. -/
def rfInsert (l : RegFile) (a : Nat) (v : Word) : RegFile :=
  match l with
  | [] => [(a, v)]
  | p :: t => if a < p.1 then (a, v) :: p :: t else p :: rfInsert t a v

/-- A register file with one word written; an entry equal to its reset value is not kept. -/
def rfWrite (l : RegFile) (a : Nat) (v : Word) : RegFile :=
  let l' := l.filter fun p => p.1 != a
  if v = regReset a then l' else rfInsert l' a v

/-- The part of `dst` outside `p` together with the part of `src` inside it. -/
def rfMerge (p : Nat → Bool) (src dst : RegFile) : RegFile :=
  (src.filter fun c => p c.1).foldl (fun l c => rfInsert l c.1 c.2) (dst.filter fun c => !p c.1)

/-- The canonical form of a register file. -/
abbrev rfWf (l : RegFile) : Prop := l.Pairwise (fun p q => p.1 < q.1) ∧ ∀ p ∈ l, p.2 ≠ regReset p.1

/-- The word shown at a register address. -/
def State.rd (s : State) (a : Nat) : Word := rfRead s.regs a
/-- Writes the word shown at a register address. -/
def State.wr (s : State) (a : Nat) (v : Word) : State := { s with regs := rfWrite s.regs a v }
/-- The value of a field as shown. -/
def State.get (s : State) (f : Field) : Nat := getBits f (s.rd f.reg)
/-- Is a field's value other than 0? -/
def State.flag (s : State) (f : Field) : Bool := s.get f != 0
/-- Writes a field as shown. -/
def State.put (s : State) (f : Field) (v : Nat) : State := s.wr f.reg (setBits f (s.rd f.reg) v)
/-- ORs bits into a field. -/
def State.orF (s : State) (f : Field) (v : Nat) : State := s.put f (s.get f ||| v)
/-- Sets bit `n` of a field. -/
def State.setBit (s : State) (f : Field) (n : Nat) : State := s.orF f (2 ^ n)
/-- Clears bit `n` of a field. -/
def State.clrBit (s : State) (f : Field) (n : Nat) : State :=
  s.put f (if bitOf (s.get f) n then s.get f - 2 ^ n else s.get f)
/-- Bit `n` of a field. -/
def State.bit (s : State) (f : Field) (n : Nat) : Bool := bitOf (s.get f) n
/-- Adds to a counter field, which saturates at its largest value. -/
def State.add (s : State) (f : Field) (n : Nat) : State := s.put f (min (s.get f + n) (2 ^ f.width - 1))
/-- Adds one to a counter. -/
def State.inc (s : State) (f : Field) : State := s.add f 1
/-- The word in force of a double-buffered register. -/
def State.erd (s : State) (a : Nat) : Word := rfRead s.eff a
/-- The value in force of a field. -/
def State.eget (s : State) (f : Field) : Nat := getBits f (s.erd f.reg)
/-- Puts a word in force. -/
def State.ewr (s : State) (a : Nat) (v : Word) : State := { s with eff := rfWrite s.eff a v }
/-- Puts a field's value in force. -/
def State.eput (s : State) (f : Field) (v : Nat) : State := s.ewr f.reg (setBits f (s.erd f.reg) v)
/-- Puts the shown word of a register in force. -/
def State.take (s : State) (a : Nat) : State := s.ewr a (s.rd a)

/-- The registers of a region return to their reset values (R7). -/
def State.resetRegs (s : State) (p : Nat → Bool) : State :=
  { s with regs := s.regs.filter (fun c => !p c.1), eff := s.eff.filter (fun c => !p c.1) }

/-! ### The stores -/

/-- Is an address in a store: Reeve SRAM, host-port buffer or a hamlet store (R35, R36)? -/
def inStore (a : Nat) : Bool :=
  (0x00100000 ≤ a && a < 0x00300000) || (0x08000000 ≤ a && a < 0x08800000)
    || (0x10000000 ≤ a && a < 0x18000000 && a % 0x1000000 < 0x300000)

/-- One byte of a store; a byte that nothing has written reads as 0 (log 5). -/
def memRead (m : List (Nat × Byte)) (a : Nat) : Byte :=
  match m.find? (fun p => p.1 == a) with
  | some p => p.2
  | none => 0#8

/-- A pair put into its place in a rising list of bytes. -/
def memInsert (m : List (Nat × Byte)) (a : Nat) (v : Byte) : List (Nat × Byte) :=
  match m with
  | [] => [(a, v)]
  | p :: t => if a < p.1 then (a, v) :: p :: t else p :: memInsert t a v

/-- A store with one byte written; a byte equal to what an unlisted address reads as is not kept. -/
def memWrite (m : List (Nat × Byte)) (a : Nat) (v : Byte) : List (Nat × Byte) :=
  let m' := m.filter fun p => p.1 != a
  if v = 0#8 then m' else memInsert m' a v

/-- The canonical form of the stores. -/
abbrev Memory.wf (m : List (Nat × Byte)) : Prop := m.Pairwise (fun p q => p.1 < q.1) ∧ ∀ p ∈ m, p.2 ≠ 0#8

/-- `n` bytes at `a`, little-endian (R5). -/
def State.memLE (s : State) (a n : Nat) : Nat :=
  (List.range n).foldr (fun i acc => acc * 256 + (memRead s.mem (a + i)).toNat) 0

/-- The store of an address: 0 to 7 the hamlets', 8 the Reeve SRAM, 9 the host-port buffer (R277, R287). -/
def storeOf (a : Nat) : Nat :=
  match hamletOf a with
  | some h => h.val
  | none => if a < 0x08000000 then 8 else 9

/-- The word of `a` in a store whose injector is armed for it (R286), and the bits that it inverts. -/
def State.injectBits (s : State) (a n : Nat) : Option EccErr :=
  let k := storeOf a
  let w := s.get (Fld.STO_INJ_ADDR_ADDR.st k) * 8
  if s.flag (Fld.STO_INJ_ARM.st k) && decide (a ≤ w) && decide (w + 8 ≤ a + n) then
    some ⟨w, ([s.get (Fld.STO_INJ_BIT0.st k), s.get (Fld.STO_INJ_BIT1.st k)].filter (· < 80)).eraseDups, false⟩
  else none

/-- Writes `n` bytes at `a`, little-endian. A word written whole gets new check bits (R279), with the bits of an armed injection inverted (R286). -/
def State.putLE (s : State) (a n v : Nat) : State :=
  let inj := s.injectBits a n
  let s := { s with
    mem := (List.range n).foldl (fun m i => memWrite m (a + i) (BitVec.ofNat 8 (v / 256 ^ i))) s.mem
    ecc := s.ecc.filter fun e => !(decide (a ≤ e.word) && decide (e.word + 8 ≤ a + n)) }
  match inj with
  | none => s
  | some e => { s.put (Fld.STO_INJ_ARM.st (storeOf a)) 0 with ecc := if e.bits.isEmpty then s.ecc else e :: s.ecc }

/-- A 32-bit word of a store. -/
def State.mem32 (s : State) (a : Nat) : Word := BitVec.ofNat 32 (s.memLE a 4)

/-- The class in which a word with this error reads (R278): 0 clean, 1 Single, 2 Double, 3 Triple, 4 Address, 5 Poisoned. Beyond three bits detection is not
guaranteed: the class is a free one (log 120). -/
def EccErr.cls (e : EccErr) : Nat :=
  let folded := (e.bits.filter (80 ≤ ·)).length
  if e.poison then 5
  else if e.bits.length = 0 then 0
  else if e.bits.length = 1 then (if folded = 1 then 4 else 1)
  else if e.bits.length = 2 ∧ folded = 0 then 2
  else if e.bits.length ≤ 3 then 3
  else Config.beyondCode e.word e.bits % 4

/-- Does a word with this error deliver no data (R278)? -/
def EccErr.lost (e : EccErr) : Bool := 3 ≤ e.cls

/-- Does a read of `n` bytes meet an uncorrected word (R278)? -/
def State.uncorrected (s : State) (a n : Nat) : Bool :=
  s.ecc.any fun e => e.lost && decide (e.word < a + n) && decide (a < e.word + 8)

/-- An error put into its place in a list that rises in its words. -/
def eccInsert (e : EccErr) : List EccErr → List EccErr
  | [] => [e]
  | x :: t => if e.word < x.word then e :: x :: t else x :: eccInsert e t

/-- The errors of the words of a span, in ascending address order (R281). -/
def State.errsIn (s : State) (a n : Nat) : List EccErr :=
  (s.ecc.filter fun e => decide (e.word < a + n) && decide (a < e.word + 8)).foldr eccInsert []

/-- The store addresses of a region return to the unlisted value. -/
def State.clearMem (s : State) (p : Nat → Bool) : State := { s with mem := s.mem.filter fun c => !p c.1 }

/-! ### Domains, messages, notifications -/

/-- The state of hamlet domain `h` (R348): 0 OFF, 1 RETAIN, 2 IDLE, 3 ACTIVE. -/
def State.hstate (s : State) (h : Nat) : Nat := s.get (Fld.PWR_HSTATE_STATE.sub h)

/-- Sets the state of hamlet domain `h`. -/
def State.setHstate (s : State) (h v : Nat) : State := s.put (Fld.PWR_HSTATE_STATE.sub h) v

/-- Something leaves the part. -/
def State.emit (s : State) (o : Out) : State := { s with out := o :: s.out }

/-- The next free value (a value the spec leaves open), the counter advanced. -/
def State.drawn (s : State) : Nat × State := (Config.freeValue s.free, { s with free := s.free + 1 })

/-- Time moves on to an instant, never back. -/
def State.at (s : State) (t : Nat) : State := { s with now := max s.now t }

/-- Is the Lanied link UP (R175)? -/
def State.linkUp (s : State) : Bool := s.get Fld.LNK_STAT_STATE == 2

/-- The value of a key in a list of pairs, 0 if absent. -/
def aget (l : List (Nat × Nat)) (k : Nat) : Nat :=
  match l.find? (fun p => p.1 == k) with
  | some p => p.2
  | none => 0

/-- A list of pairs with the value of one key set. -/
def aset (l : List (Nat × Nat)) (k v : Nat) : List (Nat × Nat) := (k, v) :: l.filter fun p => p.1 != k

/-! ### Outbound messages of the host port (R180, R183, R188, R189, R193) -/

/-- Bytes of a number, most significant first. -/
def beBytes (n v : Nat) : List Nat := (List.range n).map fun i => v / 256 ^ (n - 1 - i) % 256

/-- The number that bytes spell, most significant first. -/
def beNat (l : List Nat) : Nat := l.foldl (fun n b => n * 256 + b % 256) 0

/-- The partition of a flow's outbound cells (R189): 1 UL, 2 DF, 3 BULK. -/
def State.flowPart (s : State) (f : Nat) : Nat :=
  if s.flag (Fld.LNK_FLOWf_CFG_DEEP.i f) then 2 else if s.get (Fld.LNK_FLOWf_CFG_CLASS.i f) = 2 then 1 else 3

/-- Does a message of a flow wait for staging space, so that the flow's producers stall (R188)? -/
def State.flowWaits (s : State) (f : Nat) : Bool := s.port.waiting.any fun m => m.flow == f

/-- The link leaves L1 (R206): codewords resume with a marker pair, the capacities come back. -/
def State.leaveL1 (s : State) : State :=
  if s.get Fld.LNK_STAT_STATE = 3 then
    let l := s.lnk
    let s := (s.put Fld.LNK_CAP_CAP_TX l.tx.cap).put Fld.LNK_CAP_CAP_RX l.rx.cap
    State.put { s with lnk := { l with
      tx := { l.tx with syms := 0, next := s.now }
      rx := { l.rx with syms := 0 }
      lastDecode := s.now
      l1Seen := none } } Fld.LNK_STAT_STATE 2
  else s

/-- The 64-byte cells that the BULK partition holds: staged and unacknowledged ones, and the inbound messages not yet taken (R189). -/
def State.bulkUsed (s : State) : Nat :=
  (s.port.staged.filter fun c => s.flowPart c.flow == 3).length + s.lnk.unacked.length
    + ((s.port.inbox.filter fun m => s.flowPart m.flow == 3).map fun m => (m.bytes.length + 63) / 64).sum

/-- Is there staging space for `n` more cells of a flow (R188, R189)? DF is divided equally among the deep flows. -/
def State.room (s : State) (f n : Nat) : Bool :=
  let p := s.flowPart f
  let size := s.get (Fld.LNK_PARTn_SIZE.i p) * 65536
  if p = 2 then ((s.port.staged.filter fun c => c.flow == f).length + n) * 64 ≤ size / 8
  else ((if p = 3 then s.bulkUsed else (s.port.staged.filter fun c => s.flowPart c.flow == p).length) + n) * 64 ≤ size

/-- The cells of a message: 64 bytes each, the last padded with zeros; `k` is the first RSEQ of a reliable flow (R180, R186). -/
def cellsOf (f : Nat) (rel : Bool) (k n : Nat) (bytes : List Nat) : List Cell :=
  (List.range n).map fun i =>
    let d := (bytes.drop (64 * i)).take 64
    { flow := f, som := i == 0, eom := i + 1 == n, rseq := if rel then (k + i) % 64 else 0,
      data := d ++ List.replicate (64 - d.length) 0 }

/-- A message takes its staging space; in L1 the part leaves L1 by itself (R206). -/
def State.stageNow (s : State) (f : Nat) (bytes : List Nat) : State :=
  let s := s.leaveL1
  let n := (bytes.length + 63) / 64
  let rel := s.flag (Fld.LNK_FLOWf_CFG_REL.i f)
  let cs := cellsOf f rel (aget s.port.rseqTx f) n bytes
  let s := { s with port := { s.port with
    staged := s.port.staged ++ cs
    rseqTx := if rel then aset s.port.rseqTx f ((aget s.port.rseqTx f + n) % 64) else s.port.rseqTx } }
  s.put (Fld.LNK_FLOWf_STAT_STAGED.i f) (s.get (Fld.LNK_FLOWf_STAT_STAGED.i f) + n)

/-- Are the cells of a flow lost: it is not reliable, and the outbound direction is down (R205)? -/
def State.cellsLost (s : State) (f : Nat) : Bool :=
  !s.linkUp && !s.lnk.tx.up && s.get Fld.LNK_STAT_STATE != 3 && !s.flag (Fld.LNK_FLOWf_CFG_REL.i f)

/-- Is a message of `n` bytes sent on a flow, now or when its producer's stall ends: it is neither discarded nor lost (R183, R188, R205)? -/
def State.sends (s : State) (f n : Nat) : Bool :=
  s.flag (Fld.LNK_FLOWf_CFG_EN.i f) && !s.cellsLost f && ((s.room f ((n + 63) / 64) && !s.flowWaits f) || s.flowPart f != 1)

/-- A message is staged on a flow: discarded and counted on a disabled flow (R183) or, on a user-plane flow, for want of space; any
other producer waits for space (R188). While the outbound direction is down the cells of a flow that is not reliable are lost (R205). -/
def State.stage (s : State) (f : Nat) (bytes : List Nat) : State :=
  if !s.flag (Fld.LNK_FLOWf_CFG_EN.i f) then s.inc (Fld.LNK_CNTn_COUNT.i 8)
  else if s.cellsLost f then s
  else if s.room f ((bytes.length + 63) / 64) && !s.flowWaits f then s.stageNow f bytes
  else if s.flowPart f = 1 then s.inc (Fld.LNK_CNTn_COUNT.i 8)
  else { s with port := { s.port with waiting := s.port.waiting ++ [⟨f, bytes⟩] } }

/-- An eCPRI message (R190): revision 1, C = 0, its type and its payload size. -/
def ecpri (type : Nat) (payload : List Nat) : List Nat := [0x10, type] ++ beBytes 2 payload.length ++ payload

/-- A message of the part with PC_ID and SEQ_ID: the flow's message count goes into SEQ_ID (R193; two bytes each, for type 3 too, log 57). -/
def State.sendSeq (s : State) (f type : Nat) (bytes : List Nat) : State :=
  let n := aget s.port.msgCount f
  let s := { s with port := { s.port with msgCount := aset s.port.msgCount f ((n + 1) % 256) } }
  s.stage f (ecpri type ([f % 256, 0, n % 256, 0x80] ++ bytes))

/-- An IQ data message of the part (R193). -/
def State.sendIq (s : State) (f : Nat) (words : List Nat) : State := s.sendSeq f 0 (words.flatMap (beBytes 4))

/-- Posts a code to hamlet `h`'s event notification queue of 32: a code that finds it full is discarded and counted,
and NOTIFLOST raises an urgent interrupt (R27, R227, R266). -/
def State.notify (s : State) (h : Fin 8) (code : Nat) : State :=
  if s.evq[h].length < 32 then { s with evq := s.evq.set h (s.evq[h] ++ [code]) }
  else (s.put (Fld.EVT_STAT_NOTIFLOST.h h) 1).inc ((Fld.EVT_CNTn_COUNT.i 1).h h)

/-- Posts a code to the Reeve's queue (R488). -/
def State.notifyReeve (s : State) (code : Nat) : State :=
  if s.flt.evq.length < 32 then { s with flt := { s.flt with evq := s.flt.evq ++ [code] } }
  else s.inc (Fld.FLT_CNTn_COUNT.i 4)

/-- Posts an edge trigger to the DMA channels (R315): TRIG code, hamlet (8 for every hamlet), argument. -/
def State.postEdge (s : State) (trig h arg : Nat) : State := { s with edges := s.edges ++ [(trig, h, arg)] }

/-! ### Front-end pins (R84) -/

/-- The owner of pin `j` of hamlet `h`. -/
def State.pinOwner (s : State) (h : Fin 8) (j : Nat) : Nat :=
  s.get (((Fld.FEP_OWNn_OWN.i (j / 8)).sub (j % 8)).h h)

/-- Records the owner of pin `j`. -/
def State.setPinOwner (s : State) (h : Fin 8) (j o : Nat) : State :=
  s.put (((Fld.FEP_OWNn_OWN.i (j / 8)).sub (j % 8)).h h) o

/-- The pins of hamlet `h` whose owner is `o`, as a mask. -/
def State.pinsOf (s : State) (h : Fin 8) (o : Nat) : Nat :=
  (List.range 12).foldl (fun m j => if s.pinOwner h j = o then m + 2 ^ j else m) 0

/-- Drives the pins of `mask` to the bits of `v`; the others keep their level. While isolation, a safety clear or a shutdown forces the pins, every one
drives SAFE (R84); under test every pin holds its level (R409). -/
def State.drivePins (s : State) (h : Fin 8) (mask v : Nat) : State :=
  let mask := if s.bist.target = some h.val then 0 else mask
  let v := if s.flt.pinSafe[h] then s.get (Fld.FEP_SAFE_SAFE.h h) else v
  let old := s.get (Fld.FEP_LEVEL_LEVEL.h h)
  s.put (Fld.FEP_LEVEL_LEVEL.h h) ((List.range 12).foldl
    (fun m j => m + (if bitOf mask j then b2n (bitOf v j) else b2n (bitOf old j)) * 2 ^ j) 0)

/-- Spreads the low bits of `pat` over the set bits of `mask`, in ascending order (R83, R151, R152). -/
def spread (mask pat : Nat) : Nat :=
  ((List.range 12).foldl (fun (p : Nat × Nat) j =>
    if bitOf mask j then (p.1 + b2n (bitOf pat p.2) * 2 ^ j, p.2 + 1) else p) (0, 0)).1

/-- Releases the named pins: they have no owner and drive SAFE (R84). -/
def State.releasePins (s : State) (h : Fin 8) (mask : Nat) : State :=
  ((List.range 12).foldl (fun s j => if bitOf mask j then s.setPinOwner h j 0 else s) s).drivePins h mask
    (s.get (Fld.FEP_SAFE_SAFE.h h))

/-- Isolation, a safety clear or a shutdown: every claim is released, and every pin is forced to SAFE until the hamlet leaves that state (R84). -/
def State.forcePins (s : State) (h : Fin 8) : State :=
  let s := s.releasePins h 0xFFF
  { s with flt := { s.flt with pinSafe := s.flt.pinSafe.set h true } }

/-- The hamlet leaves the state in which its pins are forced: a pin that GPIO owns drives its LEVEL, one that the Watch owns WPAT; the others stay at SAFE until their
owner drives them (R84). -/
def State.unforcePins (s : State) (h : Fin 8) : State :=
  if s.flt.pinSafe[h] then
    let s := { s with flt := { s.flt with pinSafe := s.flt.pinSafe.set h false } }
    let s := s.drivePins h (s.pinsOf h 4) (s.get (Fld.FEP_GPIO_LEVEL.h h))
    s.drivePins h (s.pinsOf h 3) (spread (s.get (Fld.ORX_SW_PINMASK.h h)) (s.get (Fld.ORX_SW_WPAT.h h)))
  else s

/-! ### Arbitration (R288 to R292) -/

/-- The next of a class in round robin (R184, R288): the least above the last one served, else the least. -/
def roundRobin (last : Nat) (l : List Nat) : Option Nat :=
  let least (l : List Nat) : Option Nat := l.foldl (fun (m : Option Nat) f => some (match m with | none => f | some x => min x f)) none
  match least (l.filter fun f => decide (last < f)) with
  | some f => some f
  | none => least l

/-- The requester of an access (R288) from its code: engines 0 to 7, DMA 8 to 15, the Reeve 16, the datapath 18, the capture write 22 (the model's own); any
other is the host port. -/
def requesterOf (req : Nat) (fetch : Bool) : Nat :=
  if req < 8 then (if fetch then 2 else 3) else if req < 16 then 4 else if req = 16 then 6 else if req = 18 then 0 else if req = 22 then 1 else 5

/-- The high-class grants of a window: 0 acts as 1, 17 to 31 as 16 (R289). -/
def quotaOf (v : Nat) : Nat := max 1 (min v 16)

/-- One requester's grant is decided: its class's pointer moves past it, the window counts it, and ends with its 16th grant. -/
def Bank.grant (b : Bank) (i : Nat) (high : Bool) : Bank :=
  let n := b.grants + 1
  let k := b.high + b2n high
  { waiting := b.waiting.filter fun x => x != i
    due := b.due ++ [i]
    lastHigh := if high then i else b.lastHigh
    lastLow := if high then b.lastLow else i
    grants := if n = 16 then 0 else n
    high := if n = 16 then 0 else k }

/-- The arbiter's decision among the requests that wait (R288, R289): the high class first, up to its quota in a window; a window in which only masked
requesters wait ends. With no quota (`q` none) there is one class (R287). The flag says that this grant reached the quota. -/
def Bank.decide (b : Bank) (q : Option Nat) : Option (Bank × Bool) :=
  match q with
  | none => (roundRobin b.lastLow b.waiting).map fun i => (b.grant i false, false)
  | some q =>
    let hi := b.waiting.filter fun i => Decidable.decide (i < 2)
    let lo := b.waiting.filter fun i => Decidable.decide (2 ≤ i)
    let b := if lo.isEmpty && !hi.isEmpty && Decidable.decide (q ≤ b.high) then { b with grants := 0, high := 0 } else b
    if !hi.isEmpty && Decidable.decide (b.high < q) then (roundRobin b.lastHigh hi).map fun i => (b.grant i true, b.high + 1 == q)
    else (roundRobin b.lastLow lo).map fun i => (b.grant i false, false)

/-- The arbiter of bank `b` of store `k`. -/
def State.bank (s : State) (k : Fin 10) (b : Nat) : Bank :=
  match s.sto[k].banks.find? fun p => p.1 == b with
  | some p => p.2
  | none => {}

/-- The arbiter of bank `b` of store `k` changed. -/
def State.setBank (s : State) (k : Fin 10) (b : Nat) (x : Bank) : State :=
  { s with sto := s.sto.set k { s.sto[k] with banks := (b, x) :: s.sto[k].banks.filter fun p => p.1 != b } }

/-- A request waits at a bank (R288, R292), unless its grant is decided already. -/
def State.request (s : State) (k : Fin 10) (b i : Nat) : State :=
  let x := s.bank k b
  if x.waiting.contains i || x.due.contains i then s else s.setBank k b { x with waiting := x.waiting ++ [i] }

/-- One decision at bank `b` of store `k`; a window in which the quota is reached is counted. -/
def State.decideAt (s : State) (k : Fin 10) (b : Nat) : State :=
  let q := if k.val < 8 then some (quotaOf (s.get (Fld.ARB_CFG_QUOTA.h k.val))) else none
  match (s.bank k b).decide q with
  | none => s
  | some (x, reached) =>
    let s := s.setBank k b x
    if reached then s.inc ((Fld.ARB_CNTn_COUNT.i 0).h k.val) else s

/-- Decisions at bank `b` of store `k`, at most `n`, until requester `i` has its grant; the grants of those before it stay decided until they use them (R288). -/
def State.arbitrate (k : Fin 10) (b i : Nat) : Nat → State → State
  | 0, s => s
  | n + 1, s => if (s.bank k b).due.contains i then s else State.arbitrate k b i n (s.decideAt k b)

/-- A requester uses its grant at a bank: its transfer takes place. In fall-back the grant for the transfer after next is decided at its first beat (R291). -/
def State.useGrant (s : State) (k : Fin 10) (b i : Nat) : State :=
  let x := s.bank k b
  let s := s.setBank k b { x with due := x.due.filter fun j => j != i }
  if k.val < 8 && s.flag (Fld.ARB_STAT_FB.h k.val) then s.decideAt k b else s

/-- The granules of a span of store `k` by bank (R277). -/
def banksOf (k a n : Nat) : List Nat :=
  (List.range ((a + n - 1) / 64 - a / 64 + 1)).map fun i => (a / 64 + i) % (if k = 9 then 32 else 16)

/-- Requester `i` reaches a span of store `k`: at each bank its request waits (`grant` false), or it is granted and takes place (R288). -/
def State.reach (s : State) (k : Fin 10) (i a n : Nat) (grant : Bool) : State :=
  (banksOf k a n).foldl (fun s b =>
    let s := s.request k b i
    if grant then (State.arbitrate k b i (s.bank k b).waiting.length s).useGrant k b i else s) s

/-- An access to a span of a store by the requester of a code (R288). The scrubber takes an idle bank and the repair unit precedes every requester (R282, R283): they
ask for no grant. -/
def State.access (s : State) (req : Nat) (fetch : Bool) (a n : Nat) (grant : Bool) : State :=
  if req = 20 ∨ req = 21 then s
  else s.reach (Fin.ofNat 10 (storeOf a)) (requesterOf req fetch) a n grant

/-- Requesters of store `k` are masked by their sideband (R293): their requests at every bank are removed, each counted in `ARB_CNTn`, n = 3; a decided grant of theirs
is not used, counted with n = 1 (R291). -/
def State.maskRequesters (s : State) (k : Fin 10) (is : List Nat) : State :=
  let n1 := (s.sto[k].banks.map fun p => (p.2.due.filter fun i => is.contains i).length).sum
  let n3 := (s.sto[k].banks.map fun p => (p.2.waiting.filter fun i => is.contains i).length).sum
  let s := { s with sto := s.sto.set k { s.sto[k] with banks := s.sto[k].banks.map fun p =>
    (p.1, { p.2 with due := p.2.due.filter (fun i => !is.contains i), waiting := p.2.waiting.filter fun i => !is.contains i }) } }
  if k.val < 8 then (s.add ((Fld.ARB_CNTn_COUNT.i 1).h k.val) n1).add ((Fld.ARB_CNTn_COUNT.i 3).h k.val) n3 else s

/-- The Reeve is masked at every store (R293, R471). -/
def State.maskReeve (s : State) : State := (List.finRange 10).foldl (fun s k => s.maskRequesters k [6]) s

/-- `ARB_STAT`.QMASK (R289): the banks at which the high class has had its quota in the window that runs. -/
def State.quotaMask (s : State) (k : Fin 10) : Nat :=
  let q := quotaOf (s.get (Fld.ARB_CFG_QUOTA.h k.val))
  s.sto[k].banks.foldl (fun n p => if p.1 < 16 ∧ q ≤ p.2.high then n + 2 ^ p.1 else n) 0

/-- A bank under FREEZE (R292): a decided grant is discarded, its request stays pending. -/
def Bank.discard (b : Bank) : Bank := { b with due := [], waiting := b.waiting ++ b.due.filter fun i => !b.waiting.contains i }

/-- FREEZE of hamlet `h` is set (R292). -/
def State.freeze (s : State) (h : Fin 8) : State :=
  if s.flag (Fld.ARB_CTRL_FREEZE.h h) then s
  else
    let k : Fin 10 := ⟨h.val, by omega⟩
    { s.put (Fld.ARB_CTRL_FREEZE.h h) 1 with
      bfm := s.bfm.set h { s.bfm[h] with frozenAt := s.now }
      sto := s.sto.set k { s.sto[k] with banks := s.sto[k].banks.map fun p => (p.1, p.2.discard) } }

/-- FREEZE of hamlet `h` clears, and DRAINED falls (R292); the requests that wait are granted again from then on; the interval is kept while a symbol on air can
still ask for it. -/
def State.thaw (s : State) (h : Fin 8) : State :=
  if s.flag (Fld.ARB_CTRL_FREEZE.h h) then
    let b := s.bfm[h]
    { (s.put (Fld.ARB_CTRL_FREEZE.h h) 0).put (Fld.ARB_STAT_DRAINED.h h) 0 with
      bfm := s.bfm.set h { b with frozen := (b.frozenAt, s.now) :: b.frozen.filter fun i => decide (s.now < i.2 + 40 * msU) } }
  else s

/-- Has the weight prefetch of hamlet `h` run empty at `t` (R27, R292): was FREEZE 1 from `t0`, when the prefetch last took weights, to `t`? -/
def State.starved (s : State) (h : Fin 8) (t0 t : Nat) : Bool :=
  (s.flag (Fld.ARB_CTRL_FREEZE.h h) && decide (s.bfm[h].frozenAt ≤ t0))
    || s.bfm[h].frozen.any fun i => decide (i.1 ≤ t0) && decide (t ≤ i.2)

/-- The running capture of hamlet `h` gets its END code; the first cause stands (R159). -/
def State.endCapture (s : State) (h : Fin 8) (code : Nat) : State :=
  match s.orx[h].cap with
  | none => s
  | some c => if c.ending.isSome then s
    else { s with orx := s.orx.set h { s.orx[h] with cap := some { c with ending := some code } } }

/-! ### Step 2 of isolation (R483), also the start of a safety clear (R485) -/

/-- The mute gain of a path at an instant, in 1/65,536: linear in amplitude during a ramp (R105). -/
def Mute.gainAt (m : Mute) (t : Nat) : Nat :=
  if !m.ramping || m.len = 0 then m.gain
  else
    let d := min (t - m.start) m.len
    if m.gain ≤ m.target then m.gain + (m.target - m.gain) * d / m.len else m.gain - (m.gain - m.target) * d / m.len

/-- A safety ramp of hamlet `h` starts (R106): MUTE reads 1, the mute gain of every path runs from its present value to 0 in 100 us; at its end
SAFE reads 1. -/
def State.safetyRamp (s : State) (h : Fin 8) : State :=
  let s := (List.range 8).foldl (fun s k => s.put ((Fld.TXC_PATHk_MUTE.i k).h h) 1) s
  { s with
    mute := s.mute.mapFinIdx fun i m _ => if i / 8 = h.val then
      { gain := m.gainAt s.now, target := 0, start := s.now, len := 100 * usU, ramping := true, muted := true, pend := [] } else m
    tx := s.tx.set h { s.tx[h] with rampEnd := some (s.now + 100 * usU) } }

/-- Cancels the pending beam commit of hamlet `h`: CANCEL is set, GO reads 0, the slice is unchanged (R66). -/
def State.cancelBeam (s : State) (h : Fin 8) : State :=
  match s.bfm[h].pend with
  | none => s
  | some _ =>
    let s := { s with bfm := s.bfm.set h { s.bfm[h] with pend := none } }
    ((s.put (Fld.BFM_COMMIT_STAT_PEND.h h) 0).put (Fld.BFM_COMMIT_STAT_CANCEL.h h) 1).put (Fld.BFM_COMMIT_CTRL_GO.h h) 0

/-- Cancels every PEND and HELD filter, pulse and DPD request of hamlet `h`; a running fade goes on (R112). -/
def State.cancelSwaps (s : State) (h : Fin 8) : State :=
  let s := { s with
    txSwap := s.txSwap.mapFinIdx fun i x _ => if i / 8 = h.val then none else x
    rxSwap := s.rxSwap.mapFinIdx fun i x _ => if i / 8 = h.val then none else x
    dpd := s.dpd.mapFinIdx fun i x _ => if i / 8 = h.val then { x with pend := none, held := none } else x
    tx := s.tx.set h { s.tx[h] with cfr := none } }
  let s := ((s.put (Fld.TXC_FSTAT_PEND.h h) 0).put (Fld.RXC_FSTAT_PEND.h h) 0).put (Fld.TXC_CFR_STAT_PEND.h h) 0
  (List.range 8).foldl (fun s k => (s.put ((Fld.DPD_STATk_PEND.i k).h h) 0).put ((Fld.DPD_STATk_HELD.i k).h h) 0) s

/-- Releases the event-unit timers of hamlet `h` (R227). -/
def State.releaseTimers (s : State) (h : Fin 8) : State :=
  (List.range 4).foldl (fun s n => (s.put ((Fld.EVT_TMRn_CFG_EN.i n).h h) 0).put ((Fld.EVT_TMRn_CFG_OWNER.i n).h h) 0) s

/-- Cancels a pending slot-table commit of hamlet `h` (R483 step 2: pending commits are cancelled). -/
def State.cancelSlot (s : State) (h : Fin 8) : State :=
  ({ s with slt := s.slt.set h { s.slt[h] with checking := false, swapDue := none } }.put (Fld.SLT_STAT_PEND.h h) 0).put
    (Fld.SLT_STAT_CHECKING.h h) 0

/-- A running calibration request of hamlet `h` of one of these kinds has lost its precondition (R401); `CAL_PRECONDITION_LOST` ends it. -/
def State.loseCal (s : State) (h : Fin 8) (kinds : Nat → Bool) : State :=
  match s.cal.req[h.val] with
  | some q => if kinds q.kind then { s with cal := { s.cal with req := s.cal.req.set h.val (some { q with lost := true }) } } else s
  | none => s

/-- The precondition of a foreground calibration of a kind on unit `k` of hamlet `h` is lost (R401). -/
def State.loseUnit (s : State) (h : Fin 8) (kind k : Nat) : State :=
  match s.cal.req[h.val] with
  | some q => if q.mode = 0 ∧ q.kind = kind ∧ bitOf q.mask k then { s with cal := { s.cal with req := s.cal.req.set h.val (some { q with lost := true }) } } else s
  | none => s

/-- Step 2 of R483 without HMASK: the ramp, pending commits and swaps cancelled, timers released, a calibration ended (R401). -/
def State.safetyStep2 (s : State) (h : Fin 8) : State :=
  (((((s.safetyRamp h).cancelBeam h).cancelSlot h).cancelSwaps h).releaseTimers h).loseCal h fun _ => true

/-- Does a request of kind 0x08 run on bias channel `c` (R400)? -/
def State.calOnBias (s : State) (c : Fin 32) : Bool :=
  match s.cal.req[c.val / 4]'(by omega) with
  | some q => q.kind == 8 && bitOf q.mask (c.val % 4)
  | none => false

/-- Does a request of kind 0x07 run on hamlet `h` (R400)? -/
def State.calOnOrx (s : State) (h : Fin 8) : Bool :=
  match s.cal.req[h.val] with
  | some q => q.kind == 7
  | none => false

/-- The safety clear of one hamlet (R485): for a running domain steps 2 to 4 begin; in RETAIN or OFF the claims, timers and
pending work go without waking it, and RETAIN keeps the safety state for its wake. -/
def State.safetyClear (s : State) (h : Fin 8) : State :=
  if 2 ≤ s.hstate h then
    let s := s.safetyStep2 h
    if s.flt.isoStep[h] = 0 then
      { s with flt := { s.flt with isoStep := s.flt.isoStep.set h 5, isoDue := s.flt.isoDue.set h (s.now + 100 * usU) } }
    else s
  else
    let s := ((((s.cancelBeam h).cancelSlot h).cancelSwaps h).releaseTimers h).forcePins h
    let s := s.put (Fld.ORX_STAT_OWNER.h h) 0
    if s.hstate h = 1 then
      let s := { s with mute := s.mute.mapFinIdx fun i m _ => if i / 8 = h.val then {} else m }
      (List.range 8).foldl (fun s k => s.put ((Fld.TXC_PATHk_MUTE.i k).h h) 1) (s.put (Fld.TXC_STAT_SAFE.h h) 1)
    else s

/-- The safety clear of every hamlet. -/
def State.safetyClearAll (s : State) : State := (List.finRange 8).foldl (fun s h => s.safetyClear h) s

/-! ### Raising a fault (R474 to R487) -/

/-- A Tally message is handed to the upstream hop, the downstream hop or both, for a number of consecutive windows (R231, R238). -/
def State.tallySend (s : State) (up dn : Bool) (op : Nat) (args : List Nat) (copies : Nat) : State :=
  let s := s.emit (.tally op args)
  { s with tly := { s.tly with
    outUp := if up then s.tly.outUp ++ [(op, args, copies)] else s.tly.outUp
    outDn := if dn then s.tly.outDn ++ [(op, args, copies)] else s.tly.outDn } }

/-- The severity of a catalogue number (R475): 0 notice, 1 degrade, 2 isolate, 3 stop. -/
def severityOf (num : Nat) : Nat :=
  if num ∈ [0x411, 0x412, 0x413, 0x424, 0x431, 0x432, 0x435, 0x440, 0x444, 0x451, 0x462, 0x463, 0x470, 0x471] then 1
  else if num ∈ [0x434, 0x437] then 2
  else if num = 0x452 then 3
  else 0

/-- The payload of an Event Indication message (R195): Event ID, event type, number of entries, and for each its Element ID, raise
or cease with the number, and the additional information (the places of the fields are those of eCPRI 2.0, log 20). -/
def eventBytes (id type : Nat) (es : List Indic) : List Nat :=
  [id % 256, type, 0, es.length] ++ es.flatMap fun e =>
    beBytes 2 e.elem ++ beBytes 2 (b2n (!e.raised) * 4096 + e.num % 4096) ++ beBytes 4 e.info

/-- Sends one fault indication on flow 2; it waits for its acknowledgement, its first repeat due 10 ms later (R195). -/
def State.sendInd (s : State) (i : Indic) : State :=
  let id := s.port.eventId
  let b := ecpri 7 (eventBytes id 0 [i])
  let s := { s with port := { s.port with
    eventId := (id + 1) % 256
    unacked := s.port.unacked ++ [IndSent.mk id b 0 (s.now + 10 * msU)] } }
  s.stage 2 b

/-- Sends a fault indication, or holds it while the link is not UP, earlier ones still wait or flow 2 has no space (R188); a 33rd waiting one discards the
oldest (R487). -/
def State.indicate (s : State) (i : Indic) : State :=
  if s.linkUp && s.flt.waiting.isEmpty && !s.flowWaits 2 then s.sendInd i
  else
    let w := s.flt.waiting ++ [i]
    { s with flt := { s.flt with waiting := if 32 < w.length then w.tail else w } }

/-- A notification on flow 2, event type 0x02 (R195): sent at once, not repeated; lost while the link is not UP. -/
def State.notifyLink (s : State) (num elem info : Nat) : State :=
  if s.linkUp then
    let id := s.port.eventId
    State.stage { s with port := { s.port with eventId := (id + 1) % 256 } } 2 (ecpri 7 (eventBytes id 2 [(⟨true, num, elem, info, 0⟩ : Indic)]))
  else s

/-- The log entry that is active with this number and element (R477). -/
def State.activeEntry (s : State) (num elem : Nat) : Option (Fin 32) :=
  (List.finRange 32).find? fun n => s.flag (Fld.FLT_LOGn_W0_ACTIVE.i n) && s.get (Fld.FLT_LOGn_W0_NUM.i n) == num
    && s.get (Fld.FLT_LOGn_W0_ELEM.i n) == elem

/-- The entry of a list with the least key. -/
def leastBy (key : Fin 32 → Nat) : List (Fin 32) → Option (Fin 32)
  | [] => none
  | n :: t => match leastBy key t with
    | none => some n
    | some m => if key m < key n then some m else some n

/-- The entry a new fault takes (R477): the oldest inactive one, else the oldest of the lowest severity among the
entries that no recovery holds. The flag says that an active entry is overwritten. -/
def State.newEntry (s : State) : Fin 32 × Bool :=
  let idle : List (Fin 32) := (List.finRange 32).filter fun n => !s.flag (Fld.FLT_LOGn_W0_ACTIVE.i n)
  match leastBy (fun n => s.flt.age[n]) idle with
  | some n => (n, false)
  | none =>
    let free : List (Fin 32) := (List.finRange 32).filter fun n =>
      !(s.flt.queue.contains n.val) && !(s.flag Fld.FLT_RCV_BUSY && s.get Fld.FLT_RCV_IDX == n.val)
    let low := free.foldl (fun m n => min m (s.get (Fld.FLT_LOGn_W0_SEV.i n))) 3
    match leastBy (fun n => s.flt.age[n]) (free.filter fun n => s.get (Fld.FLT_LOGn_W0_SEV.i n) == low) with
    | some n => (n, true)
    | none => (0, true)

/-- Copies log entry `n` to the Hearth breadcrumb with the lowest SEQ, or to the one that holds this SEQ (R478). -/
def State.breadcrumb (s : State) (n : Fin 32) : State :=
  let w (k : Nat) : Word := s.rd (Reg.FLT_LOGn_W0 + 0x20 * n + 4 * k)
  let at4 (j : Fin 8) : Nat := 0x04100240 + 24 * j
  let seqOf (j : Fin 8) : Nat := (s.rd (at4 j + 16)).toNat / 65536
  let same := (List.finRange 8).find? fun j =>
    (s.rd (at4 j + 16)).toNat / 65536 == (w 4).toNat / 65536 && s.rd (at4 j + 20) == w 5
  let j := match same with
    | some j => j
    | none => (List.finRange 8).foldl (fun m j => if seqOf j < seqOf m then j else m) 0
  (List.range 6).foldl (fun s k => s.wr (at4 j + 4 * k) (w k)) s

/-- Entry `n` becomes the current recovery (R479). -/
def State.setCurrent (s : State) (n : Nat) (sev elem : Nat) : State :=
  ((((s.put Fld.FLT_RCV_BUSY 1).put Fld.FLT_RCV_NEW 1).put Fld.FLT_RCV_SEV sev).put Fld.FLT_RCV_ELEM elem).put
    Fld.FLT_RCV_IDX n

/-- A list without the last of its elements that `p` marks. -/
def dropLastOf (p : Nat → Bool) : List Nat → List Nat
  | [] => []
  | n :: t => if p n && !t.any p then t else n :: dropLastOf p t

/-- The recovery queue keeps at most 8 entries: the last entry of the lowest severity goes, counted (R480). -/
def State.trimQueue (s : State) : State :=
  if s.flt.queue.length ≤ 8 then s
  else
    let sev (n : Nat) := s.get (Fld.FLT_LOGn_W0_SEV.i n)
    let low := s.flt.queue.foldl (fun m n => min m (sev n)) 3
    { s with flt := { s.flt with queue := dropLastOf (fun n => sev n == low) s.flt.queue } }.inc (Fld.FLT_CNTn_COUNT.i 2)

/-- Isolation of hamlet `h` is requested (R482): ignored while ISOh is 1 or isolation runs; a domain in OFF or RETAIN
takes the steps that need no domain at once, and `ISOLATION_COMPLETE` follows; otherwise `ISOLATION_START` follows. -/
def State.requestIsolation (s : State) (h : Fin 8) (cause : Nat) : State :=
  if s.bit Fld.FLT_STAT_ISO h || (s.flt.isoStep[h] != 0 && s.flt.isoStep[h] != 5) then s
  else if 2 ≤ s.hstate h then
    { s with flt := { s.flt with
      isoStep := s.flt.isoStep.set h 1
      isoCause := s.flt.isoCause.set h cause
      isoDue := s.flt.isoDue.set h s.now } }
  else
    let s := (s.clrBit Fld.LNK_ULC_CFG_HMASK h).forcePins h
    let s := s.put (Fld.ORX_STAT_OWNER.h h) 0
    { s with flt := { s.flt with
      isoStep := s.flt.isoStep.set h 3
      isoCause := s.flt.isoCause.set h cause
      isoDue := s.flt.isoDue.set h s.now } }

/-- A new entry of degrade or higher severity asks for recovery (R479, R480). -/
def State.askRecovery (s : State) (n : Fin 32) (num sev elem : Nat) : State :=
  if !s.flag Fld.FLT_RCV_BUSY then s.setCurrent n sev elem
  else
    let ci := s.get Fld.FLT_RCV_IDX
    let ce := s.get Fld.FLT_RCV_ELEM
    if ce = elem ∧ elem < 8 ∧ sev ≠ 3 then
      let s := ((s.put Fld.FLT_RCV_SEV 2).put Fld.FLT_RCV_NEW 1).inc (Fld.FLT_CNTn_COUNT.i 3)
      let s := (s.put (Fld.FLT_LOGn_W0_ESC.i ci) 1).put (Fld.FLT_LOGn_W0_ESC.i n) 1
      ((s.breadcrumb (Fin.ofNat 32 ci)).breadcrumb n).requestIsolation (Fin.ofNat 8 elem) num
    else if s.get Fld.FLT_RCV_SEV < sev then
      ({ s with flt := { s.flt with queue := ci :: s.flt.queue } }.trimQueue.setCurrent n sev elem).put
        Fld.FLT_RCV_PREEMPTED 1
    else { s with flt := { s.flt with queue := s.flt.queue ++ [n.val] } }.trimQueue

/-- The hardware action of a severity (R474): isolation of its hamlet, or the safety clear of every hamlet with the
Tally fan-out (R238). -/
def State.faultAction (s : State) (num sev elem : Nat) : State :=
  if sev = 2 then (if elem < 8 then s.requestIsolation (Fin.ofNat 8 elem) num else s)
  else if sev = 3 then
    let s := s.safetyClearAll
    if s.flag Fld.TLY_CFG_EN && s.flag Fld.TLY_CFG_FANSEND then s.tallySend true true 6 [s.get Fld.TLY_STAT_ADDR] 3 else s
  else s

/-- The words W0 to W5 of a new log entry (R477, R478): W5 holds the boot counter of the retention store. -/
def State.entryWords (s : State) (num sev elem info : Nat) : List Word :=
  [BitVec.ofNat 32 (sev * 0x40000000 + 0x20000000 + elem % 256 * 65536 + num % 4096), BitVec.ofNat 32 info,
   BitVec.ofNat 32 (secOf s.now), BitVec.ofNat 32 (nsOf s.now), BitVec.ofNat 32 (s.flt.count % 65536 * 65536),
   BitVec.ofNat 32 ((s.rd 0x04100204).toNat % 65536 * 65536)]

/-- Writes consecutive registers. -/
def State.wrAll (s : State) (a : Nat) : List Word → State
  | [] => s
  | w :: t => (s.wr a w).wrAll (a + 4) t

/-- A new fault takes log entry `n`; `send` says whether its raise is indicated. -/
def State.takeEntry (s : State) (n : Fin 32) (num sev elem info : Nat) (send : Bool) : State :=
  let s := s.wrAll (Reg.FLT_LOGn_W0 + 0x20 * n.val) (s.entryWords num sev elem info)
  { s with flt := { s.flt with
      age := s.flt.age.set n (s.flt.count + 1)
      count := s.flt.count + 1
      sent := s.flt.sent.set n send } }

/-- A new fault: its entry, breadcrumb, indication, recovery and hardware action (R474, R477 to R482, R487). -/
def State.newFault (s : State) (num sev elem info : Nat) (ind : Bool) : State :=
  let n := s.newEntry.1
  let s := if s.newEntry.2 then s.inc (Fld.FLT_CNTn_COUNT.i 1) else s
  let send := decide (1 ≤ sev) || ind || s.flag Fld.FLT_CFG_NOTEI
  let s := s.takeEntry n num sev elem info send
  let s := if 1 ≤ sev then s.breadcrumb n else s
  let s := if send then s.indicate ⟨true, num, elem, info, n⟩ else s
  let s := if 1 ≤ sev then s.askRecovery n num sev elem else s
  s.faultAction num sev elem

/-- A counted fault goes to the active entry that holds it, where it counts as a repeat, or takes a new entry. -/
def State.enterFault (s : State) (o : Option (Fin 32)) (num sev elem info : Nat) (ind : Bool) : State :=
  match o with
  | some n => s.inc (Fld.FLT_LOGn_W4_REPEAT.i n)
  | none => s.newFault num sev elem info ind

/-- A fault is raised (R477): a repeat of an active entry counts there and does nothing else; any other takes a new
entry. `ind` asks for an indication whatever NOTEI says. -/
def State.raiseSev (s : State) (num sev elem info : Nat) (ind : Bool) : State :=
  (s.inc (Fld.FLT_CNTn_COUNT.i 0)).enterFault ((s.inc (Fld.FLT_CNTn_COUNT.i 0)).activeEntry num elem) num sev elem info ind

/-- A catalogue fault is raised with the severity of R475. Element 0xFF is the device. -/
def State.raise (s : State) (num elem info : Nat) : State := s.raiseSev num (severityOf num) elem info false

/-- A catalogue fault whose every occurrence is indicated (R205, R369): one that repeats an active entry is indicated again, with what it says now. -/
def State.raiseSend (s : State) (num elem info : Nat) : State :=
  match s.activeEntry num elem with
  | some n => (s.raise num elem info).indicate ⟨true, num, elem, info, n⟩
  | none => s.raiseSev num (severityOf num) elem info true

/-! ### The store code (R278 to R286) -/

/-- Bank and row of a store address (R277, R287). -/
def bankRow (a : Nat) : Nat × Nat :=
  match storeOf a with
  | 9 => (a / 64 % 32, a / 8192 % 1024)
  | 8 => (a / 64 % 16, a / 4096 % 512)
  | _ => (a / 64 % 16, a / 4096 % 1024)

/-- The element of the faults of a store (R475). -/
def storeElem (k : Nat) : Nat := if k < 8 then k else 0xFF

/-- Changes what a store holds beside its registers. -/
def State.setSto (s : State) (k : Nat) (x : Sto) : State := { s with sto := s.sto.set (Fin.ofNat 10 k) x }

/-- Captures an error in one of the two pairs of a store (R281), under the rule of R47; an uncorrected one raises 0x431. -/
def State.captureErr (s : State) (k : Nat) (ue : Bool) (req cls : Nat) (fetch : Bool) (e : EccErr) : State :=
  let valid := if ue then Fld.STO_UE_INFO_VALID.st k else Fld.STO_CE_INFO_VALID.st k
  let addr := if ue then (Fld.STO_UE_ADDR_ADDR.st k).reg else (Fld.STO_CE_ADDR_ADDR.st k).reg
  if s.flag valid then s
  else
    let info := 2 ^ 31 + req % 32 * 2 ^ 26 + b2n fetch * 2 ^ 25 + cls * 2 ^ 23
      + Config.syndrome (if e.poison then [80] else e.bits) % 65536
    let s := (s.wr addr (BitVec.ofNat 32 e.word)).wr valid.reg (BitVec.ofNat 32 info)
    if ue then s.raise 0x431 (storeElem k) info else s

/-- A row becomes a repair candidate (R283); with AUTOREP = 0 nothing more is done. -/
def State.candidate (s : State) (k : Nat) (r : Nat × Nat) : State :=
  let x := s.sto[Fin.ofNat 10 k]
  let busy := match x.copy with | some c => c.bank == r.1 && c.row == r.2 | none => false
  if !s.flag (Fld.STO_CFG_AUTOREP.st k) || busy || x.cands.contains r then s
  else s.setSto k { x with cands := x.cands ++ [r] }

/-- A Single error enters the table of rows (R283): an error in a second scrub pass makes the row a candidate; a full table drops its oldest
entry and sets TABFULL. -/
def State.noteSingle (s : State) (k : Nat) (r : Nat × Nat) : State :=
  let x := s.sto[Fin.ofNat 10 k]
  let key := r.1 * 1024 + r.2
  match x.table.find? (fun p => p.1 == key) with
  | some p => if p.2 = x.pass then s
    else (s.setSto k { x with table := x.table.filter fun q => q.1 != key }).candidate k r
  | none =>
    if x.table.length < 16 then s.setSto k { x with table := x.table ++ [(key, x.pass)] }
    else (s.setSto k { x with table := x.table.tail ++ [(key, x.pass)] }).put (Fld.STO_STAT_TABFULL.st k) 1

/-- One read of a word that holds an error (R278, R280, R281, R283): counted and captured; a Single or Double error is corrected and written back. A word that reads
as correctable beyond the code's reach takes a free value. -/
def State.readErr (s : State) (req : Nat) (fetch : Bool) (e : EccErr) : State :=
  let k := storeOf e.word
  let r := bankRow e.word
  let fixed (s : State) : State :=
    let s := { s with ecc := s.ecc.filter fun x => x.word != e.word }
    if e.bits.length ≤ 2 then s else s.putLE e.word 8 (Config.beyondWord e.word e.bits)
  match e.cls with
  | 0 => s
  | 1 => (((fixed s).inc ((Fld.STO_CNTn_COUNT.i 0).st k)).captureErr k false req 1 fetch e).noteSingle k r
  | 2 => (((fixed s).inc ((Fld.STO_CNTn_COUNT.i 1).st k)).captureErr k false req 2 fetch e).candidate k r
  | 4 => (s.inc ((Fld.STO_CNTn_COUNT.i 3).st k)).captureErr k true req 2 fetch e
  | n => (s.inc ((Fld.STO_CNTn_COUNT.i 2).st k)).captureErr k true req (if n = 3 then 1 else 3) fetch e

/-- A read of `n` bytes at `a` by a requester: granted (R288); what its decoding finds is recorded; the answer says whether a word is uncorrected. -/
def State.checkRead (s : State) (req : Nat) (fetch : Bool) (a n : Nat) : State × Bool :=
  let s := s.access req fetch a n true
  ((s.errsIn a n).foldl (fun s e => s.readErr req fetch e) s, s.uncorrected a n)

/-- A write of `n` bytes at `a` by a requester: granted (R288); a word written in part is read, decoded and merged first (R279); an uncorrected word takes
nothing and draws an error. -/
def State.checkWrite (s : State) (req a n v : Nat) : State × Bool :=
  let s := s.access req false a n true
  let es := (s.errsIn a n).filter fun e => !(decide (a ≤ e.word) && decide (e.word + 8 ≤ a + n))
  let s1 := es.foldl (fun s e => s.readErr req false e) s
  if es.any EccErr.lost then (s1, true) else (s1.putLE a n v, false)

/-- A word is written with the poison pattern (R284). -/
def State.poison (s : State) (w : Nat) : State :=
  { s with ecc := ⟨w, [], true⟩ :: s.ecc.filter fun e => e.word != w }

/-! ### Locks (R301 to R304) -/

/-- Lock `n` of hamlet `h` is freed broken (R302): BROKEN, its bit of `LCK_BROKEN`, notice 0x433, notification 0xFFF5 to the Reeve. -/
def State.breakLock (s : State) (h : Fin 8) (n : Nat) : State :=
  let s := (s.put ((Fld.LCK_n_OWNER.i n).h h) 0).put ((Fld.LCK_n_BROKEN.i n).h h) 1
  let s := (s.clrBit (Fld.LCK_HELD_HELD.h h) n).setBit (Fld.LCK_BROKEN_BROKEN.h h) n
  (s.raise 0x433 h (s.get (Fld.LCK_BROKEN_BROKEN.h h))).notifyReeve 0xFFF5

/-- Every lock of hamlet `h` whose owner's code is in `owners` is freed broken. -/
def State.breakLocks (s : State) (h : Fin 8) (owners : List Nat) : State :=
  (List.range 32).foldl (fun s n => if owners.contains (s.get ((Fld.LCK_n_OWNER.i n).h h)) then s.breakLock h n else s) s

/-- Every lock of every hamlet with such an owner (R302): the Reeve's, the gateway's. -/
def State.breakAllLocks (s : State) (owners : List Nat) : State :=
  (List.finRange 8).foldl (fun s h => s.breakLocks h owners) s

/-! ### Engines and channels that are stopped from outside -/

/-- Changes engine `e`. -/
def State.setEng (s : State) (e : Fin 9) (x : Eng) : State := { s with eng := s.eng.set e x }

/-- The engine of hamlet `h`. -/
def hEng (h : Fin 8) : Fin 9 := ⟨h.val, by omega⟩

/-- Engine `e` halts with a STATE (R265, R275): `ENG_PC` keeps `pc`, a wait ends. -/
def State.haltEng (s : State) (e : Fin 9) (state pc : Nat) : State :=
  s.setEng e { s.eng[e] with state := state, halted := pc, pc := pc, wait := none }

/-- The address at which engine `e` would continue (R275, R263): a branch whose slot is next begins again. -/
def Eng.resumeAt (x : Eng) : Nat :=
  match x.slot with
  | some b => b.addr
  | none => x.pc

/-- Changes channel `c` of hamlet `h`. -/
def State.setDma (s : State) (h c : Fin 8) (x : DmaCh) : State := { s with dma := s.dma.set (8 * h.val + c.val) x (by omega) }

/-- Channel `c` of hamlet `h`. -/
def State.dmaCh (s : State) (h c : Fin 8) : DmaCh := s.dma[8 * h.val + c.val]'(by omega)

/-- A channel stops with a CODE (R321): STOPPED, ALLSTOP when all eight are; the resume point is discarded. -/
def State.stopDma (s : State) (h c : Fin 8) (code : Nat) : State :=
  let s := (s.put ((Fld.DMA_CHn_STAT_STATE.i c).h h) 0).put ((Fld.DMA_CHn_STAT_CODE.i c).h h) code
  let s := s.setDma h c { s.dmaCh h c with buf := [], failed := none, ending := 0 }
  let all := (List.range 8).all fun n => s.get ((Fld.DMA_CHn_STAT_STATE.i n).h h) == 0
  s.put (Fld.DMA_CTRL_ALLSTOP.h h) (b2n all)

/-- ABORT or STOPALL reaches a channel (R321, R324): at once when suspended or halted, else at the next transfer boundary; the
model's transfers are whole, so the boundary is now, unless a failed write still waits (R323). -/
def State.endDma (s : State) (h c : Fin 8) (code : Nat) : State :=
  let st := s.get ((Fld.DMA_CHn_STAT_STATE.i c).h h)
  if st = 0 then (if code = 2 then s.put ((Fld.DMA_CHn_STAT_PENDTRG.i c).h h) 0 else s)
  else
    let s := s.put ((Fld.DMA_CHn_STAT_PENDTRG.i c).h h) 0
    if (s.dmaCh h c).failed.isSome then s.setDma h c { s.dmaCh h c with ending := code } else s.stopDma h c code

/-- STOPALL is set (R324): every channel of hamlet `h` stops. -/
def State.stopAllDma (s : State) (h : Fin 8) : State :=
  (List.finRange 8).foldl (fun s c => s.endDma h c 3) (s.put (Fld.DMA_CTRL_STOPALL.h h) 1)

/-! ### Time sources (R218, R222) -/

/-- The part enters HOLD: counted, notice 0x442 with the source (R222). -/
def State.enterHold (s : State) : State :=
  if s.get Fld.TIM_STAT_STATE = 2 then s
  else
    let s := (s.put Fld.TIM_STAT_STATE 2).inc (Fld.TIM_CNTn_COUNT.i 4)
    State.raise { s with tim := { s.tim with holdAt := s.now } } 0x442 0xFF (s.get Fld.TIM_CFG_SEL)

/-- Source `n` turns stale, counted; HOLD follows if it is selected (R218). -/
def State.sourceStale (s : State) (n : Nat) : State :=
  if s.flag (Fld.TIM_SRCSTAT_STALE.sub n) then s
  else
    let s := (s.put (Fld.TIM_SRCSTAT_STALE.sub n) 1).inc (Fld.TIM_CNTn_COUNT.i 5)
    if s.get Fld.TIM_CFG_SEL = n then s.enterHold else s

/-! ### Bad accesses (R47) -/

/-- A bad access is captured, or only counted while VALID is 1 (R47). -/
def State.badAccess (s : State) (r : Req) (a size : Nat) (write : Bool) (reason : Nat) : State :=
  let s := s.inc Fld.SYS_BADACC_CNT_COUNT
  if s.flag Fld.SYS_BADACC_INFO_VALID then s
  else
    let info := 2 ^ 31 + reason * 2 ^ 13 + b2n write * 2 ^ 12 + size * 2 ^ 10 + r.priv % 4 * 2 ^ 8 + r.id % 32
    let s := (s.wr Reg.SYS_BADACC_ADDR (BitVec.ofNat 32 a)).wr Reg.SYS_BADACC_INFO (BitVec.ofNat 32 info)
    s.raise 0x400 0xFF info

/-- The access ends without an error response. -/
def State.ok (s : State) : State := { s with resp := { err := false, data := 0 } }
/-- The access ends with an error response and returns zero. -/
def State.err (s : State) : State := { s with resp := { err := true, data := 0 } }

/-- A write that its target refuses or ignores completes without an error response and is recorded with reason 4. -/
def State.refuse4 (s : State) (r : Req) (a : Nat) : State := (s.badAccess r a 2 true 4).ok

/-! ### Who may reach what (R18, R40, R41, R43, R45, R46, R49, R198) -/

/-- The outcome of the checks on an access. -/
inductive Verdict where
  | ok
  | zero
  | bad (reason : Nat) (err : Bool)
  | stall (h : Fin 8)
  | fail
  deriving DecidableEq, Repr

/-- Does one enabled gateway window that grants the direction hold this byte (R198)? -/
def State.inWindow (s : State) (a : Nat) (write : Bool) : Bool :=
  (List.range 8).any fun n =>
    s.flag (Fld.LNK_GWn_CTRL_EN.i n) && (if write then s.flag (Fld.LNK_GWn_CTRL_WR.i n) else s.flag (Fld.LNK_GWn_CTRL_RD.i n))
      && decide (s.get (Fld.LNK_GWn_BASE_PAGE.i n) ≤ a / 4096) && decide (a / 4096 ≤ s.get (Fld.LNK_GWn_LIM_PAGE.i n))

/-- The reach rules of R18, R41 and R301 (no DMA access to the LCK block). -/
def inReach (r : Req) (a : Nat) (write : Bool) : Bool :=
  if r.id < 16 then
    (0x08000000 ≤ a && a < 0x08800000) || (hamletOf a == some (Fin.ofNat 8 (r.id % 8)) && !(8 ≤ r.id && a % 0x1000000 / 0x10000 == 0x84))
  else if r.id = 17 then
    !((a < 0x00040000) || (0x00100000 ≤ a && a < 0x00300000) || (0x040F0000 ≤ a && a < 0x04110000)
      || (write && 0x04000000 ≤ a && a < 0x04120000))
  else true

/-- Is an address in register space? -/
def inRegs (a : Nat) : Bool :=
  (0x04000000 ≤ a && a < 0x04120000) ||
    (0x10000000 ≤ a && a < 0x18000000 && 0x800000 ≤ a % 0x1000000 && a % 0x1000000 < 0x8F0000)

/-- Is an address reserved (R35, R36, R48): outside every listed range, or a register offset that no register has? -/
def reserved (a : Nat) : Bool :=
  if inRegs a then a % 0x10000 / 4 * 4 != 0 && (descOf (a / 4 * 4)).isNone
  else !(inStore a) && !(a < 0x00040000)

/-- Is every rail needed in STANDBY within range (R345)? Bits of `rails` are set out of range: core, conv, clk, link, RF, IO, AUX, VSTBY, VBAT. -/
def State.railsOk (s : State) : Bool := Nat.land s.pow.rails 0x6D == 0

/-- Is everything outside the Hearth domain off or held in reset: in a device reset, in KEEP and LISTEN, or for a rail needed in STANDBY (R358, R452, R453)? -/
def State.dark (s : State) : Bool := s.boot.inReset || s.pow.down != 0 || (s.pow.step == 1 && !s.railsOk)

/-- Is the block of an address held in reset (R51): the HTH and BEL blocks while the Hearth domain is unpowered (R22, R23), every other one while
the part is held in reset or dark? -/
def State.blockDown (s : State) (a : Nat) : Bool :=
  if 0x040E0000 ≤ a ∧ a < 0x04110000 ∧ ¬ (0x040F0000 ≤ a ∧ a < 0x04100000) then !s.pow.hearth
  else s.dark

/-- The checks on one access of 2^size bytes, in the order of R46; a block that is held in reset answers no access (R51). -/
def State.check (s : State) (r : Req) (a size : Nat) (write : Bool) : Verdict :=
  if !inReach r a write then .bad 1 true
  else if r.id = 17 && !s.inWindow a write then .bad 5 true
  else if s.blockDown a then .bad 1 true
  else
    let gate := match hamletOf a with
      | none => none
      | some h =>
        if s.bist.target = some h.val then some (Verdict.bad 1 true)
        else if s.flag (Fld.PWR_HSTATE_WFAIL.sub h) then some Verdict.fail
        else if s.flag Fld.THM_STAT_SDLATCH && s.hstate h < 2 then some Verdict.fail
        else if s.hstate h < 2 || s.flag (Fld.PWR_HSTATE_BUSY.sub h) then some (Verdict.stall h) else none
    match gate with
    | some x => x
    | none =>
      if reserved a then (if write then .bad 0 false else .zero)
      else if inRegs a && size < 2 then .bad 2 true
      else if write && a < 0x00040000 then .bad 3 true
      else .ok

/-- A wake of hamlet domain `h` (R352, R354): held while the domain enters a lower state, one sequence for several wakes, none while WAKE_FAIL or the shutdown
latch refuses it (R357, R373). BUSY reads 1 from then on. -/
def State.startWake (s : State) (h : Fin 8) : State :=
  let x := s.hpow[h]
  match x.entry with
  | some e => { s with hpow := s.hpow.set h { x with entry := some { e with held := true } } }
  | none =>
    if 2 ≤ s.hstate h || x.wakeAt.isSome || s.flag (Fld.PWR_HSTATE_WFAIL.sub h) || s.flag Fld.THM_STAT_SDLATCH then s
    else { s.put (Fld.PWR_HSTATE_BUSY.sub h) 1 with hpow := s.hpow.set h { x with wakeAt := some s.now } }

/-- A register write through the bridge: the checks, then the register's own effect. -/
def regCmd (r : Req) (a : Nat) (v : Word) (act : State → State) (s : State) : State :=
  match s.check r a 2 true with
  | .ok => act s.ok
  | .zero => s.ok
  | .bad reason e =>
    let s := s.badAccess r a 2 true reason
    if e then s.err else s.ok
  | .stall h => { s.startWake h with stalled := s.stalled ++ [⟨r, a, 2, true, v.toNat, a⟩] }
  | .fail => s.err

/-- A register read through the bridge: the checks, then the read's data and effect. -/
def readCmd (r : Req) (a : Nat) (act : State → Nat × State) (s : State) : State :=
  match s.check r a 2 false with
  | .ok =>
    let x := act s
    { x.2 with resp := { err := false, data := x.1 } }
  | .zero => s.ok
  | .bad reason _ => (s.badAccess r a 2 false reason).err
  | .stall h => { s.startWake h with stalled := s.stalled ++ [⟨r, a, 2, false, 0, a⟩] }
  | .fail => s.err

/-! ### Generic register access (R8, R50) -/

/-- Is the block of an address locked (R48)? -/
def State.locked (s : State) (a : Nat) : Bool := (s.rd (a / 0x10000 * 0x10000 + 0xFFFC)).getLsbD 0

/-- One copy of a field after a write, by its access type. -/
def fieldWrite (locked : Bool) (f : Field) (new old : Word) : Word :=
  match f.acc with
  | .rw => setBits f old (getBits f new)
  | .rwl => if locked then old else setBits f old (getBits f new)
  | .w1c => setBits f old (getBits f old &&& (2 ^ f.width - 1 - getBits f new))
  | .w1s => setBits f old (getBits f old ||| getBits f new)
  | .ro | .wo | .rc => old

/-- A register word after a write: every field by its access type (R8). -/
def wordWrite (locked : Bool) (d : RegDesc) (new old : Word) : Word :=
  d.fields.foldl (fun w f => (List.range f.cnt).foldl (fun w j => fieldWrite locked (f.sub j) new w) w) old

/-- Does a write to a locked block name an RW-L field's register with a changed value (R50)? -/
def lockRefused (d : RegDesc) : Bool := d.fields.any fun f => f.acc = .rwl

/-- The effect of a write on a register that only stores: each field by its access type; a write to RW-L fields of a locked block is
recorded with reason 4 and the other fields take their values (R50). -/
def State.storeReg (s : State) (r : Req) (a : Nat) (v : Word) : State :=
  match descOf a with
  | none => s
  | some d =>
    let l := s.locked a
    let s := if l && lockRefused d then s.badAccess r a 2 true 4 else s
    s.wr a (wordWrite l d v (s.rd a))

/-- Reading a register clears its RC fields (R8); an event in the same access leaves its count (`events`). -/
def State.clearRC (s : State) (a events : Nat) : State :=
  match descOf a with
  | none => s
  | some d => d.fields.foldl (fun s f => if f.acc = .rc then
      s.put { f with reg := a } (min events (2 ^ f.width - 1)) else s) s

end Sys2Proof.Machine
end

