-- ==== Sys2Proof/Machine/Bias.lean ====
section
/-!
DEFINITION. The bias DACs (R388 to R395) and the VCXO servo that drives one of them (R222): codes and clear codes, the slew limiter, the sine
generator, ownership.
-/

namespace Sys2Proof.Machine

/-! ### The sine generator (R394) -/

/-- One sample of the sine generator: 300 periods of F0. -/
abbrev sineU : Nat := 34560000000

/-- The quarter-wave table T (R394). -/
def sineTable : List Int :=
  [101, 302, 503, 704, 905, 1106, 1307, 1507, 1708, 1909, 2110, 2310, 2511, 2711, 2911, 3112] ++
  [3312, 3512, 3712, 3911, 4111, 4310, 4509, 4708, 4907, 5106, 5305, 5503, 5701, 5899, 6096, 6294] ++
  [6491, 6688, 6885, 7081, 7277, 7473, 7669, 7864, 8059, 8254, 8448, 8642, 8836, 9030, 9223, 9416] ++
  [9608, 9800, 9992, 10183, 10374, 10564, 10754, 10944, 11133, 11322, 11511, 11699, 11886, 12074, 12260, 12446] ++
  [12632, 12817, 13002, 13187, 13370, 13554, 13736, 13919, 14101, 14282, 14462, 14643, 14822, 15001, 15180, 15358] ++
  [15535, 15712, 15888, 16063, 16238, 16413, 16586, 16759, 16932, 17104, 17275, 17445, 17615, 17784, 17953, 18121] ++
  [18288, 18454, 18620, 18785, 18950, 19113, 19276, 19438, 19600, 19761, 19921, 20080, 20238, 20396, 20553, 20709] ++
  [20865, 21019, 21173, 21326, 21479, 21630, 21781, 21930, 22079, 22227, 22375, 22521, 22667, 22812, 22956, 23099] ++
  [23241, 23382, 23522, 23662, 23801, 23938, 24075, 24211, 24346, 24480, 24613, 24746, 24877, 25007, 25137, 25265] ++
  [25393, 25519, 25645, 25770, 25893, 26016, 26138, 26259, 26378, 26497, 26615, 26732, 26848, 26962, 27076, 27189] ++
  [27300, 27411, 27521, 27629, 27737, 27843, 27949, 28053, 28157, 28259, 28360, 28460, 28560, 28658, 28755, 28850] ++
  [28945, 29039, 29131, 29223, 29313, 29403, 29491, 29578, 29664, 29749, 29832, 29915, 29997, 30077, 30156, 30234] ++
  [30311, 30387, 30462, 30535, 30607, 30679, 30749, 30818, 30885, 30952, 31017, 31082, 31145, 31206, 31267, 31327] ++
  [31385, 31442, 31498, 31553, 31607, 31659, 31710, 31760, 31809, 31857, 31903, 31949, 31993, 32036, 32077, 32118] ++
  [32157, 32195, 32232, 32267, 32302, 32335, 32367, 32397, 32427, 32455, 32482, 32508, 32533, 32556, 32578, 32599] ++
  [32619, 32637, 32655, 32671, 32685, 32699, 32711, 32722, 32732, 32741, 32748, 32755, 32759, 32763, 32766, 32767]

/-- The sample S at a phase (R394). -/
def sineOf (ph : Nat) : Int :=
  let i := ph / 2 ^ 14 % 256
  match ph / 2 ^ 22 % 4 with
  | 0 => sineTable.getD i 0
  | 1 => sineTable.getD (255 - i) 0
  | 2 => -sineTable.getD i 0
  | _ => -sineTable.getD (255 - i) 0

/-- The code of sample `k` of a running sine, and whether it was clamped; AMP and OFFSET change once the phase has passed 0. -/
def Sine.sample (x : Sine) (k : Nat) : Nat × Bool :=
  let ph := x.ph0 + k * x.ftw
  let w := if 2 ^ 24 ≤ ph then x.wait.getD (x.amp, x.off) else (x.amp, x.off)
  let v := roundEven ((w.2 : Int) * 32768 + (w.1 : Int) * sineOf ph) 32768
  ((max 0 (min 16383 v)).toNat, decide (v < 0) || decide (16383 < v))

/-- The sample in force at an instant. -/
def Sine.index (x : Sine) (t : Nat) : Nat := (t - x.t0) / sineU

/-- The sine counted afresh from the sample in force at `t`. -/
def Sine.norm (x : Sine) (t : Nat) : Sine :=
  let k := x.index t
  let ph := x.ph0 + k * x.ftw
  let w := if 2 ^ 24 ≤ ph then x.wait.getD (x.amp, x.off) else (x.amp, x.off)
  { x with t0 := x.t0 + k * sineU, ph0 := ph % 2 ^ 24, amp := w.1, off := w.2, wait := if 2 ^ 24 ≤ ph then none else x.wait }

/-- Was a sample clamped since the one at `t0`, up to `t` (R394)? The samples repeat after at most 2^24. -/
def Sine.clamped (x : Sine) (t : Nat) : Bool :=
  (List.range (min (x.index t) (2 ^ 25))).any fun j => (x.sample (j + 1)).2

/-- The instant after the last sample of the half-cycle in progress at `t` (R395). -/
def Sine.halfEnd (x : Sine) (t : Nat) : Nat :=
  let y := x.norm t
  let left := 2 ^ 23 - y.ph0 % 2 ^ 23
  y.t0 + (left + y.ftw - 1) / y.ftw * sineU

/-! ### Channels -/

/-- The address of register `reg` of channel `c`. -/
def biasReg (reg : Nat) (c : Fin 32) : Nat := reg + 32 * c

/-- The hamlet of channel `c` (R388). -/
def biasHamlet (c : Fin 32) : Fin 8 := ⟨c.val / 4, by omega⟩

/-- Changes what channel `c` holds beside its registers. -/
def State.setBias (s : State) (c : Fin 32) (x : Bias) : State := { s with bias := s.bias.set c x }

/-- The owner of channel `c` (R395). -/
def State.biasOwner (s : State) (c : Fin 32) : Nat := s.get (Fld.BDA_CHc_STAT_OWNER.i c)

/-- The code at the ball. -/
def State.biasOut (s : State) (c : Fin 32) : Nat :=
  match s.bias[c].sine with
  | some x => (x.sample (x.index s.now)).1
  | none => s.get (Fld.BDA_CHc_STAT_OUT.i c)

/-- What channel `c` puts on its ball (R388, R392): nothing while it floats, else whether it is a current, and its size as 2.5 V x code or 2 mA x code, in 1/16,384 uV
or 1/16,384 uA. -/
def State.biasBall (s : State) (c : Fin 32) : Option (Bool × Nat) :=
  if s.flag (Fld.BDA_CHc_STAT_FLOAT.i c) then none
  else if s.flag (Fld.BDA_CHc_CFG_MODE.i c) then some (true, 2000 * s.biasOut c)
  else some (false, 2500000 * s.biasOut c)

/-- Is the channel away from its clear code, slewing, in its sine or owned (voter 0x06 of R352)? -/
def State.biasBusy (s : State) (c : Fin 32) : Bool :=
  s.biasOut c != s.get (Fld.BDA_CHc_CLR_CODE.i c) || s.biasOwner c != 0 || s.flag (Fld.BDA_CHc_STAT_SINEWAIT.i c)

/-- Does the domain of channel `c` run (R392)? -/
def State.biasUp (s : State) (c : Fin 32) : Bool := decide (2 ≤ s.hstate (c / 4))

/-- FTW as it acts (R394). -/
def State.biasFtw (s : State) (c : Fin 32) : Nat := max 1 (min 512000 (s.get (Fld.BDA_CHc_SINE_FTW.i c)))

/-- The step interval of the slew limiter (R393). -/
def State.biasIntv (s : State) (c : Fin 32) : Nat := max 1 (min 1000 (s.get (Fld.BDA_CHc_CFG_INTV.i c))) * usU

/-- The owner, and with it whether the channel still counts as held at its clear code. -/
def setOwner (c : Fin 32) (o : Nat) (s : State) : State := s.put (Fld.BDA_CHc_STAT_OWNER.i c) o

/-- The output moves to a code: by a ramp of the slew limiter, or at once (R390, R393); the owner of the ramp is `o`, the owner afterwards 0. -/
def moveTo (c : Fin 32) (goal : Nat) (ramp : Bool) (s : State) : State :=
  if ramp && s.get (Fld.BDA_CHc_STAT_OUT.i c) != goal then
    setOwner c 1 (s.setBias c { s.bias[c] with goal := goal, step := some (s.now + s.biasIntv c), start := false, sine := none })
  else
    setOwner c 0 ((s.put (Fld.BDA_CHc_STAT_OUT.i c) goal).setBias c { s.bias[c] with goal := goal, step := none, start := false, sine := none })

/-- A waiting sine moves its channel to OFFSET (R395): by a ramp when SLEN is 1; `step` then holds the instant of the next step, or of the arrival. A channel that was
forced to its clear code stays there until an accepted write to CODE (R391). -/
def toOffset (c : Fin 32) (s : State) : State :=
  let off := s.get (Fld.BDA_CHc_SAMP_OFFSET.i c)
  if s.flag (Fld.BDA_CHc_STAT_CLRD.i c) then s
  else if s.flag (Fld.BDA_CHc_CFG_SLEN.i c) && s.get (Fld.BDA_CHc_STAT_OUT.i c) != off then
    setOwner c 1 (s.setBias c { s.bias[c] with goal := off, step := some (s.now + s.biasIntv c), start := true })
  else
    (s.put (Fld.BDA_CHc_STAT_OUT.i c) off).setBias c { s.bias[c] with goal := off, step := some s.now, start := true }

/-- The sine of channel `c` starts with sample 0 (R395). -/
def startSine (c : Fin 32) (t : Nat) (s : State) : State :=
  let x : Sine := ⟨t, 0, s.biasFtw c, s.get (Fld.BDA_CHc_SAMP_AMP.i c), s.get (Fld.BDA_CHc_SAMP_OFFSET.i c), none, none⟩
  let s := (setOwner c 2 (s.put (Fld.BDA_CHc_STAT_SINEWAIT.i c) 0)).setBias c { s.bias[c] with step := none, start := false, sine := some x }
  if (x.sample 0).2 then s.put (Fld.BDA_CHc_STAT_SAT.i c) 1 else s

/-- Has a waiting sine reached OFFSET (R395)? The instant of the arrival. -/
def State.sineArrived (s : State) (c : Fin 32) : Option Nat :=
  if s.flag (Fld.BDA_CHc_STAT_SINEWAIT.i c) && s.bias[c].start && s.get (Fld.BDA_CHc_STAT_OUT.i c) == s.bias[c].goal then s.bias[c].step else none

/-- A sine that has arrived starts before anything else acts on its channel. -/
def settleSine (c : Fin 32) (s : State) : State :=
  match s.sineArrived c with
  | some t => startSine c t s
  | none => s

/-- The samples up to now have their effect on SAT, and the sine is counted from the present sample. -/
def foldSine (c : Fin 32) (s : State) : State :=
  match s.bias[c].sine with
  | none => s
  | some x =>
    let s := if x.clamped s.now then s.put (Fld.BDA_CHc_STAT_SAT.i c) 1 else s
    s.setBias c { s.bias[c] with sine := some (x.norm s.now) }

/-- The sine stops at the present sample and EN clears (R395, CODE write). -/
def stopSine (c : Fin 32) (s : State) : State :=
  match s.bias[c].sine with
  | none => s
  | some _ =>
    let s := foldSine c s
    let s := (s.put (Fld.BDA_CHc_STAT_OUT.i c) (s.biasOut c)).put (Fld.BDA_CHc_SINE_EN.i c) 0
    setOwner c 0 (s.setBias c { s.bias[c] with sine := none })

/-- BIAS_SINE_START (R395). -/
def execBiasSineStart (c : Fin 32) (s : State) : Host.Outcome State Fault Refusal :=
  .next (match s.sineArrived c with
    | some t => startSine c t (s.at t)
    | none => s)

/-- BIAS_SLEW_STEP (R393): one step of STEP towards the target, the last one exactly on it; then the owner is released or a waiting sine moves on. -/
def execBiasSlewStep (c : Fin 32) (s : State) : Host.Outcome State Fault Refusal :=
  .next (
    let out := s.get (Fld.BDA_CHc_STAT_OUT.i c)
    let goal := s.bias[c].goal
    match s.bias[c].step with
    | none => s
    | some t =>
      if (s.sineArrived c).isSome then s
      else
        let s := s.at t
        let n := s.get (Fld.BDA_CHc_CFG_STEPM1.i c) + 1
        let next := if out < goal then min goal (out + n) else max goal (out - n)
        let s := s.put (Fld.BDA_CHc_STAT_OUT.i c) next
        if next ≠ goal then s.setBias c { s.bias[c] with step := some (t + s.biasIntv c) }
        else if s.bias[c].start then s.setBias c { s.bias[c] with step := some t }
        else
          let s := s.setBias c { s.bias[c] with step := none }
          let s := if s.biasOwner c = 1 then setOwner c 0 s else s
          if s.flag (Fld.BDA_CHc_STAT_SINEWAIT.i c) then toOffset c s else s)

/-- BIAS_SINE_HALF_CYCLE_END (R395): the channel drives OFFSET, CODE takes OFFSET, the owner becomes none. -/
def execBiasSineHalfCycleEnd (c : Fin 32) (s : State) : Host.Outcome State Fault Refusal :=
  .next (match s.bias[c].sine with
    | none => s
    | some x => match x.stop with
      | none => s
      | some t =>
        let s := s.at t
        let s := if x.clamped (t - sineU) then s.put (Fld.BDA_CHc_STAT_SAT.i c) 1 else s
        let off := s.get (Fld.BDA_CHc_SAMP_OFFSET.i c)
        let s := (s.put (Fld.BDA_CHc_STAT_OUT.i c) off).put (Fld.BDA_CHc_CODE_CODE.i c) off
        setOwner c 0 (s.setBias c { s.bias[c] with goal := off, sine := none }))

/-! ### Clear codes (R391, R392) -/

/-- A forced clear of channel `c` (R391). -/
def forceClear (s : State) (c : Fin 32) : State :=
  let s := foldSine c s
  let s := if s.biasOwner c = 3 then s.put Fld.TIM_VCXO_EN 0 else s
  let clr := s.get (Fld.BDA_CHc_CLR_CODE.i c)
  let s := ((s.put (Fld.BDA_CHc_STAT_OUT.i c) clr).put (Fld.BDA_CHc_SINE_EN.i c) 0).put (Fld.BDA_CHc_STAT_SINEWAIT.i c) 0
  let s := s.setBias c { goal := clr, step := none, start := false, sine := none }
  (setOwner c 0 s).put (Fld.BDA_CHc_STAT_CLRD.i c) 1

/-- The four channels of hamlet `h`. -/
def biasOf (h : Fin 8) : List (Fin 32) := (List.finRange 32).filter fun c => c.val / 4 == h.val

/-- A forced clear of the channels of hamlet `h`. -/
def clearBias (h : Fin 8) (s : State) : State := (biasOf h).foldl forceClear s

/-- A forced clear of all 32 channels. -/
def clearAllBias (s : State) : State := (List.finRange 32).foldl forceClear s

/-- The channels of hamlet `h` float or drive as its domain goes OFF or comes up from OFF (R392). -/
def biasDomain (h : Fin 8) (up : Bool) (s : State) : State :=
  (biasOf h).foldl (fun s c =>
    let s := (forceClear s c).put (Fld.BDA_CHc_STAT_FLOAT.i c) (b2n (!up))
    if up then s.put (Fld.BDA_CHc_CODE_CODE.i c) (s.get (Fld.BDA_CHc_CLR_CODE.i c)) else s) s

/-- BIAS_CLR_ASSERT (R391): BIAS_CLR_L is asserted at `t`. -/
def execBiasClrAssert (t : Nat) (s : State) : Host.Outcome State Fault Refusal :=
  .next (clearAllBias ((s.at t).put Fld.BDA_CTRL_CLRPIN 1))

/-- BIAS_CLR_RELEASE (R391): the channels stay at their clear codes. -/
def execBiasClrRelease (t : Nat) (s : State) : Host.Outcome State Fault Refusal := .next ((s.at t).put Fld.BDA_CTRL_CLRPIN 0)

/-! ### Register writes (R389 to R395) -/

/-- A write is refused as busy (R395): ignored, BUSY set, recorded with reason 4. -/
def biasRefused (r : Req) (a : Nat) (c : Fin 32) (s : State) : State := (s.refuse4 r a).put (Fld.BDA_CHc_STAT_BUSY.i c) 1

/-- Are writes of CODE and sine EN ignored (R391, R392)? -/
def State.biasShut (s : State) (c : Fin 32) : Bool := s.flag Fld.BDA_CTRL_CLRPIN || !s.biasUp c

/-- A write to `BDA_CHc_CODE` (R390, R391, R395): a sine that waits follows once the channel has no owner. -/
def biasCodeWrite (r : Req) (c : Fin 32) (v : Word) (s : State) : State :=
  let a := biasReg Reg.BDA_CHc_CODE c
  let s := settleSine c s
  if s.biasShut c then s.refuse4 r a
  else if s.biasOwner c = 3 ∨ s.calOnBias c then biasRefused r a c s
  else
    let slewing := s.biasOwner c = 1
    let s := stopSine c ((s.storeReg r a v).put (Fld.BDA_CHc_STAT_CLRD.i c) 0)
    let s := moveTo c (getBits Fld.BDA_CHc_CODE_CODE v) (slewing || s.flag (Fld.BDA_CHc_CFG_SLEN.i c)) s
    if s.flag (Fld.BDA_CHc_STAT_SINEWAIT.i c) && s.biasOwner c == 0 then toOffset c s else s

/-- BIAS_CODE_WRITE (R395). -/
def execBiasCodeWrite (r : Req) (c : Fin 32) (v : Word) (s : State) : Host.Outcome State Fault Refusal :=
  .next (regCmd r (biasReg Reg.BDA_CHc_CODE c) v (biasCodeWrite r c v) s)

/-- A write to `BDA_CHc_CFG` (R389, R393): MODE changes only at the clear code with no owner. -/
def biasCfgWrite (r : Req) (c : Fin 32) (v : Word) (s : State) : State :=
  let a := biasReg Reg.BDA_CHc_CFG c
  let s := settleSine c s
  let old := s.get (Fld.BDA_CHc_CFG_MODE.i c)
  if getBits Fld.BDA_CHc_CFG_MODE v = old then s.storeReg r a v
  else if s.biasOut c = s.get (Fld.BDA_CHc_CLR_CODE.i c) ∧ s.biasOwner c = 0 ∧ !s.calOnBias c then s.storeReg r a v
  else biasRefused r a c ((s.storeReg r a v).put (Fld.BDA_CHc_CFG_MODE.i c) old)

/-- BIAS_MODE_WRITE (R389). -/
def execBiasModeWrite (r : Req) (c : Fin 32) (v : Word) (s : State) : Host.Outcome State Fault Refusal :=
  .next (regCmd r (biasReg Reg.BDA_CHc_CFG c) v (biasCfgWrite r c v) s)

/-- The running sine takes FTW at its next sample, with the phase continuous; a stop moves with it (R394). -/
def retuneSine (c : Fin 32) (s : State) : State :=
  match s.bias[c].sine with
  | none => s
  | some _ =>
    let s := foldSine c s
    match s.bias[c].sine with
    | none => s
    | some x =>
      let y := { x with ftw := s.biasFtw c }
      s.setBias c { s.bias[c] with sine := some { y with stop := x.stop.map fun _ => y.halfEnd s.now } }

/-- Sine EN changes to 1 (R395). -/
def sineOn (c : Fin 32) (s : State) : State :=
  match s.bias[c].sine with
  | some x => s.setBias c { s.bias[c] with sine := some { x with stop := none } }
  | none =>
    let s := s.put (Fld.BDA_CHc_STAT_SINEWAIT.i c) 1
    if s.biasOwner c = 1 then s else toOffset c s

/-- Sine EN changes to 0 (R395): a running sine stops after its half-cycle, a waiting start is cancelled. -/
def sineOff (c : Fin 32) (s : State) : State :=
  match s.bias[c].sine with
  | some x => s.setBias c { s.bias[c] with sine := some { x with stop := some (x.halfEnd s.now) } }
  | none => (s.put (Fld.BDA_CHc_STAT_SINEWAIT.i c) 0).setBias c { s.bias[c] with start := false }

/-- A write to `BDA_CHc_SINE` (R391, R392, R394, R395): one that is refused is ignored whole. -/
def biasSineWrite (r : Req) (c : Fin 32) (v : Word) (s : State) : State :=
  let a := biasReg Reg.BDA_CHc_SINE c
  let s := settleSine c s
  let was := s.flag (Fld.BDA_CHc_SINE_EN.i c)
  let en := v.getLsbD 31
  if en != was && s.biasShut c then s.refuse4 r a
  else if en != was && (s.calOnBias c || (en && s.biasOwner c == 3)) then biasRefused r a c s
  else
    let s := retuneSine c (s.storeReg r a v)
    if en = was then s else if en then sineOn c s else sineOff c s

/-- BIAS_SINE_ENABLE (R395): the write that sets EN. -/
def execBiasSineEnable (r : Req) (c : Fin 32) (v : Word) (s : State) : Host.Outcome State Fault Refusal :=
  .next (regCmd r (biasReg Reg.BDA_CHc_SINE c) (v ||| 0x80000000#32) (biasSineWrite r c (v ||| 0x80000000#32)) s)

/-- BIAS_SINE_DISABLE (R395): the write that clears EN. -/
def execBiasSineDisable (r : Req) (c : Fin 32) (v : Word) (s : State) : Host.Outcome State Fault Refusal :=
  .next (regCmd r (biasReg Reg.BDA_CHc_SINE c) (v &&& 0x7FFFFFFF#32) (biasSineWrite r c (v &&& 0x7FFFFFFF#32)) s)

/-- A write to `BDA_CHc_SAMP` (R394): a running sine takes AMP and OFFSET when its phase passes 0. -/
def biasSampWrite (r : Req) (c : Fin 32) (v : Word) (s : State) : State :=
  let s := foldSine c ((settleSine c s).storeReg r (biasReg Reg.BDA_CHc_SAMP c) v)
  match s.bias[c].sine with
  | none => s
  | some x => s.setBias c { s.bias[c] with
      sine := some { x with wait := some (s.get (Fld.BDA_CHc_SAMP_AMP.i c), s.get (Fld.BDA_CHc_SAMP_OFFSET.i c)) } }

/-- A write to `BDA_CHc_CLR` (R391, R401): it never moves the output; a foreground calibration of the channel loses its precondition when OUT is no longer CLRCODE. -/
def biasClrWrite (r : Req) (c : Fin 32) (v : Word) (s : State) : State :=
  let s := s.storeReg r (biasReg Reg.BDA_CHc_CLR c) v
  if s.biasOut c = s.get (Fld.BDA_CHc_CLR_CODE.i c) then s else s.loseUnit (biasHamlet c) 8 (c.val % 4)

/-- A write to `BDA_CHc_STAT`: its W1C bits, after the samples up to now have set SAT. -/
def biasStatWrite (r : Req) (c : Fin 32) (v : Word) (s : State) : State :=
  (foldSine c (settleSine c s)).storeReg r (biasReg Reg.BDA_CHc_STAT c) v

/-- `BDA_CHc_STAT` as a read shows it: OUT and SAT of a running sine at this instant. -/
def State.biasStat (s : State) (c : Fin 32) : Word :=
  let s := foldSine c (settleSine c s)
  setBits (Fld.BDA_CHc_STAT_OUT.i c) (s.rd (biasReg Reg.BDA_CHc_STAT c)) (s.biasOut c)

/-! ### The VCXO servo (R222) -/

/-- The channel of the servo. -/
def State.vcxoCh (s : State) : Fin 32 := Fin.ofNat 32 (s.get Fld.TIM_VCXO_CH)

/-- The servo's claim ends: the output holds its last code (R395). -/
def vcxoRelease (s : State) : State :=
  let c := s.vcxoCh
  if s.biasOwner c = 3 then setOwner c 0 (s.setBias c { s.bias[c] with step := none }) else s

/-- A write to `TIM_VCXO` (R222, R395): EN claims channel CH, or the write is refused and ignored; another CH under EN releases the first. -/
def vcxoWrite (r : Req) (v : Word) (s : State) : State :=
  let en := v.getLsbD 31
  let ch : Fin 32 := Fin.ofNat 32 (getBits Fld.TIM_VCXO_CH v)
  let was := s.flag Fld.TIM_VCXO_EN
  if en && s.flag Fld.TLY_CFG_EN && !s.flag Fld.TLY_STAT_HEAD then s.refuse4 r Reg.TIM_VCXO
  else if en && was && ch = s.vcxoCh then s.storeReg r Reg.TIM_VCXO v
  else if !en then (if was then vcxoRelease s else s).storeReg r Reg.TIM_VCXO v
  else
    let s := settleSine ch s
    if s.biasOwner ch = 0 && !s.flag (Fld.BDA_CHc_STAT_SINEWAIT.i ch) then
      (setOwner ch 3 ((if was then vcxoRelease s else s).storeReg r Reg.TIM_VCXO v)).loseUnit (biasHamlet ch) 8 (ch.val % 4)
    else biasRefused r Reg.TIM_VCXO ch s

/-- VCXO_ENABLE (R222). -/
def execVcxoEnable (r : Req) (v : Word) (s : State) : Host.Outcome State Fault Refusal := .next (regCmd r Reg.TIM_VCXO v (vcxoWrite r v) s)

/-- The correction of the table `TIM_TCOMPn` at a temperature in 0.125 degrees, in 1/800 ppb (R222). -/
def State.tcomp (s : State) (t : Int) : Int :=
  let c (n : Nat) : Int := signed 16 (s.get (Fld.TIM_TCOMPn_CORR.i n))
  let x := (max 0 (min 1200 (t + 320))).toNat
  if 1200 ≤ x then c 15 * 80 else c (x / 80) * 80 + (c (x / 80 + 1) - c (x / 80)) * ((x % 80 : Nat) : Int)

/-- The servo renews its code at a housekeeping round, through the slew limiter (R222); `t` is the temperature of TSRC. A channel forced to its clear code stays there until
an accepted write to CODE (R391). With GAIN = 0 the rule states no
code: it is a free value. -/
def vcxoRenew (t : Int) (s : State) : State :=
  let c := s.vcxoCh
  if !s.flag Fld.TIM_VCXO_EN || s.biasOwner c != 3 || s.biasShut c || s.flag (Fld.BDA_CHc_STAT_CLRD.i c) then s
  else
    let gain := signed 16 (s.get Fld.TIM_VCXO_CAL_GAIN)
    let num := signed 32 (s.get Fld.TIM_STEER_STEER) * 800 + s.tcomp t * 256
    let x := s.drawn
    let s := if gain = 0 then x.2 else s
    let q : Int := if gain = 0 then (x.1 : Int) else if 0 < gain then roundEven num (800 * gain.toNat) else roundEven (-num) (800 * (-gain).toNat)
    let code := (max 0 (min 16383 ((s.get Fld.TIM_VCXO_CAL_CENTRE : Int) + q))).toNat
    if code = s.get (Fld.BDA_CHc_STAT_OUT.i c) then s.setBias c { s.bias[c] with goal := code, step := none }
    else s.setBias c { s.bias[c] with goal := code, step := some (s.now + s.biasIntv c), start := false }

end Sys2Proof.Machine
end

