-- ==== Sys2Proof/Machine/Lanes.lean ====
section
/-!
DEFINITION. What the lanes of the Lanied link carry (R172 to R178): the RS(544,514) code, the order of its bits, striping, precoding, markers, the
forwarded clock, the stream of an unused spare and the training frame.
-/

namespace Sys2Proof.Machine

/-! ### Bits -/

/-- The low `n` bits of a number, most significant first. -/
def bitsMsb (n v : Nat) : List Bool := (List.range n).map fun i => bitOf v (n - 1 - i)

/-- The number that bits spell, most significant first. -/
def natMsb (l : List Bool) : Nat := l.foldl (fun n b => n * 2 + b2n b) 0

/-- The first `k` groups of `n` elements of a list. -/
def groupsOf {α : Type} (n : Nat) : Nat → List α → List (List α)
  | 0, _ => []
  | k + 1, l => l.take n :: groupsOf n k (l.drop n)

/-- The PAM4 levels of bits taken in pairs (R173). -/
def levelsOf : List Bool → List Nat
  | b1 :: b0 :: t => gray b1 b0 :: levelsOf t
  | _ => []

/-- The bits of PAM4 levels (R173). -/
def bitsOfLevels (l : List Nat) : List Bool :=
  l.flatMap fun g => [decide (2 ≤ g % 4), g % 4 == 1 || g % 4 == 2]

/-! ### RS(544,514) over GF(2^10) (R176): field polynomial x^10 + x^3 + 1 and generator with the roots a^0 to a^29, of IEEE 802.3 (PRESUMED, log 56) -/

/-- The product by the field's element x. -/
def gfDouble (a : Nat) : Nat := if a * 2 < 1024 then a * 2 else (a * 2) ^^^ 0x409

/-- The product of two field elements. -/
def gfMul (a b : Nat) : Nat :=
  (List.range 10).foldl (fun acc i => gfDouble acc ^^^ (if bitOf b (9 - i) then a else 0)) 0

/-- The power of x. -/
def gfExp : Nat → Nat
  | 0 => 1
  | n + 1 => gfDouble (gfExp n)

/-- The inverse of a field element, its power 1,022; 0 for 0. -/
def gfInv (a : Nat) : Nat :=
  ((List.range 9).foldl (fun (p : Nat × Nat) _ => (gfMul p.1 p.1, gfMul p.2 (gfMul p.1 p.1))) (a, 1)).2

/-- A polynomial's value; the coefficient of the highest power first. -/
def gfEval (l : List Nat) (x : Nat) : Nat := l.foldl (fun acc c => gfMul acc x ^^^ c) 0

/-- The generator polynomial without its leading 1, highest power first. -/
def rsGen : List Nat :=
  ((List.range 30).foldl (fun (p : List Nat) j => List.zipWith (· ^^^ ·) (p ++ [0]) (0 :: p.map (gfMul (gfExp j)))) [1]).tail

/-- One message symbol enters the division by the generator. -/
def rsShift (g r : List Nat) (m : Nat) : List Nat :=
  List.zipWith (fun x c => x ^^^ gfMul (m ^^^ r.headD 0) c) (r.tail ++ [0]) g

/-- The 544 symbols of a codeword: the message, then its 30 parity symbols. -/
def rsEncode (msg : List Nat) : List Nat := msg ++ msg.foldl (rsShift rsGen) (List.replicate 30 0)

/-- The 30 syndromes of a received word. -/
def rsSyndromes (w : List Nat) : List Nat := (List.range 30).map fun j => gfEval w (gfExp j)

/-- The state of the search for the error locator: locator and previous one (lowest power first), length, shift and previous discrepancy. -/
structure Locator where
  c : List Nat
  b : List Nat
  l : Nat
  m : Nat
  d : Nat
  deriving DecidableEq, Repr

/-- Two polynomials added, lowest power first. -/
def polyAdd : List Nat → List Nat → List Nat
  | [], q => q
  | p, [] => p
  | a :: p, b :: q => (a ^^^ b) :: polyAdd p q

/-- One step of the search with syndrome `n`. -/
def locate (syn : List Nat) (x : Locator) (n : Nat) : Locator :=
  let d := (List.range (x.l + 1)).foldl (fun acc i => acc ^^^ gfMul (x.c.getD i 0) (syn.getD (n - i) 0)) 0
  if d = 0 then { x with m := x.m + 1 }
  else
    let c := polyAdd x.c (List.replicate x.m 0 ++ x.b.map (gfMul (gfMul d (gfInv x.d))))
    if 2 * x.l ≤ n then ⟨c, x.c, n + 1 - x.l, 1, d⟩ else { x with c := c, m := x.m + 1 }

/-- The error locator of 30 syndromes. -/
def locator (syn : List Nat) : Locator := (List.range 30).foldl (locate syn) ⟨[1], [1], 0, 1, 1⟩

/-- The value of the error at power `i`. -/
def errorAt (syn c : List Nat) (i : Nat) : Nat :=
  let x := gfExp (i % 1023)
  let inv := gfInv x
  let omega := (List.range 30).map fun k => (List.range (k + 1)).foldl (fun acc j => acc ^^^ gfMul (c.getD j 0) (syn.getD (k - j) 0)) 0
  let odd := (List.range c.length).map fun k => if k % 2 = 1 then c.getD k 0 else 0
  gfMul (gfMul x (gfEval omega.reverse inv)) (gfInv (gfEval odd.tail.reverse inv))

/-- A received word corrected: the codeword that differs from it in at most 15 symbols, if there is one (R179). -/
def rsDecode (w : List Nat) : Option (List Nat) :=
  let syn := rsSyndromes w
  if syn.all (· == 0) then some w
  else
    let x := locator syn
    let y := w.mapIdx fun k a =>
      let i := 543 - k
      if gfEval x.c.reverse (gfInv (gfExp i)) = 0 then a ^^^ errorAt syn x.c i else a
    let diff := ((List.zip w y).filter fun p => p.1 != p.2).length
    if (rsSyndromes y).all (· == 0) && decide (diff ≤ 15) then some y else none

/-! ### Codewords on lanes (R173, R176, R177) -/

/-- The 544 symbols of a codeword of 642 message bytes. -/
def codewordSymbols (bytes : List Nat) : List Nat :=
  rsEncode ((groupsOf 10 514 (bytes.flatMap (bitsMsb 8) ++ List.replicate 4 false)).map natMsb)

/-- The PAM4 levels of a codeword in transmit order, extended by three of level 0 in seven-lane mode. -/
def codewordLevels (seven : Bool) (syms : List Nat) : List Nat :=
  levelsOf (syms.flatMap (bitsMsb 10)) ++ (if seven then [0, 0, 0] else [])

/-- Symbols per lane of a codeword (R177). -/
def cwSyms (seven : Bool) : Nat := if seven then 389 else 340

/-- The levels of each logical lane. -/
def stripe (seven : Bool) (levels : List Nat) : List (List Nat) :=
  let n := if seven then 7 else 8
  let a := levels.toArray
  (List.range n).map fun l => (List.range (cwSyms seven)).map fun k => a.getD (k * n + l) 0

/-- The levels of a codeword in transmit order from those of each logical lane. -/
def unstripe (seven : Bool) (lanes : List (List Nat)) : List Nat :=
  (List.range 2720).map fun j => (lanes.getD (laneOf seven j).1 []).getD (laneOf seven j).2 0

/-- The symbols of a codeword from its levels in transmit order. -/
def symbolsOf (levels : List Nat) : List Nat := (groupsOf 10 544 (bitsOfLevels levels)).map natMsb

/-- The 642 message bytes of corrected symbols. -/
def messageBytes (syms : List Nat) : List Nat :=
  (groupsOf 8 642 ((syms.take 514).flatMap (bitsMsb 10))).map natMsb

/-- A received codeword decoded: its message bytes, if it can be corrected, whether it had errors, and the corrected symbol errors of each logical lane (R179): a
symbol error counts for each lane that carried a wrong PAM4 symbol of it (log 51). -/
def decodeLanes (seven : Bool) (lanes : List (List Nat)) : Option (List Nat × List Nat) :=
  let got := unstripe seven lanes
  (rsDecode (symbolsOf got)).map fun y =>
    let sent := levelsOf (y.flatMap (bitsMsb 10))
    let wrong := ((List.zip got sent).zipIdx.filter fun p => p.1.1 % 4 != p.1.2).map fun p => (laneOf seven p.2).1
    (messageBytes y, (List.range 8).map fun l => (wrong.filter (· == l)).length)

/-! ### Markers, spare, clock, training frames (R172, R175, R178) -/

/-- Is the codeword that begins after `syms` symbols of each lane the first of a marker pair, or the second (R178)? -/
def inPair (len syms : Nat) : Option Bool :=
  if syms % 65536 < len then some false
  else if len ≤ syms ∧ (syms - len) % 65536 < len then some true
  else none

/-- The link-control bytes of a marker codeword (R178): the first 32 link-control symbols of each lane over the pair carry its marker. -/
def markerBytes (seven second : Bool) : List Nat :=
  let lanes := if seven then 7 else 8
  let idx (j : Nat) : Nat := ((List.range (j - 2376)).filter fun i => (2376 + i) % lanes == j % lanes).length
  let per (l : Nat) : Nat := ((List.range 192).filter fun i => (2376 + i) % lanes == l).length
  let sym (i : Nat) : Nat :=
    let j := 2376 + i
    let l := (laneOf seven j).1
    let k := idx j + (if second then per l else 0)
    if k < 32 then laneMarker l / 4 ^ (31 - k) % 4 else 0
  (List.range 48).map fun b => (List.range 4).foldl (fun n i => n * 4 + sym (4 * b + i)) 0

/-- `n` bits of PRBS13 from a state of 13 bits: 1 + x + x^2 + x^12 + x^13 of IEEE 802.3 clause 120 (PRESUMED, log 56). -/
def prbs13 : Nat → Nat → List Bool
  | 0, _ => []
  | n + 1, r =>
    let b := (bitOf r 0 != bitOf r 1) != (bitOf r 11 != bitOf r 12)
    b :: prbs13 n (r * 2 % 8192 + b2n b)

/-- `n` symbols of PRBS13Q from symbol `k` on; the start state is a free value. -/
def prbs13q (p k n : Nat) : List Nat :=
  (levelsOf (prbs13 (2 * (k % 8191 + n)) (1 + Config.prbsStart p % 8191))).drop (k % 8191)

/-- The levels of a marker's `n` symbols from symbol `k` on. -/
def markerLevels (l k n : Nat) : List Nat := ((levelsOf (bitsMsb 64 (laneMarker l))).drop k).take n

/-- The stream of an unused spare over one codeword of eight-lane mode that begins after `syms` symbols: PRBS13Q, its marker pair with LMK_8 (R178). -/
def spareLevels (syms : Nat) : List Nat :=
  let x := prbs13q 8 syms 340
  match inPair 340 syms with
  | some false => x.take 297 ++ markerLevels 8 0 24 ++ x.drop 321
  | some true => x.take 297 ++ markerLevels 8 24 8 ++ x.drop 305
  | none => x

/-- The forwarded clock over `n` symbols after `syms` symbols: 3, 0, 3, 0 (R172). -/
def clockLevels (syms n : Nat) : List Nat := (List.range n).map fun i => if (syms + i) % 2 = 0 then 3 else 0

/-- The 1,360 levels of a training frame of position `p` (R175). -/
def trainingLevels (p control status : Nat) : List Nat :=
  let word (w : Nat) : List Nat := (bitsMsb 32 w).map fun b => if b then 3 else 0
  markerLevels p 0 32 ++ word control ++ word status ++ prbs13q p 0 1264

end Sys2Proof.Machine
end

