-- ==== Sys2Proof/Machine/Dsp.lean ====
section
/-!
DEFINITION. The arithmetic of the sample stages (R87, R120): exact complex numbers in scaled integers, the exponential and the powers of
ten that the rules name, and the shapes of the filters. Taps that the spec does not give are free values of Config; a stage rounds
once, to its output format.
-/

namespace Sys2Proof.Machine

/-- A complex number in some scaled integer unit. -/
abbrev Cx : Type := Int × Int

/-- A stage's input or output: a value for each sample number, counted from device time 0. -/
abbrev Sig : Type := Int → Cx

/-- One unit of the exponential, of powers of ten and of square roots: 2^-60. -/
abbrev unitQ : Int := 1152921504606846976

/-- Pi in units of 2^-60. -/
abbrev piQ : Int := 3622009729038561421

/-- One unit of a free tap: 2^-30. -/
abbrev tapQ : Int := 1073741824

/-- The sum of a series whose term `k` + 1 is term `k` times -x^2 / (a (a + 1)), `a` counting up by two. -/
def series : Nat → Int → Int → Int → Int
  | 0, _, _, _ => 0
  | n + 1, t, x2, a => t + series n (-(t * x2) / (unitQ * a * (a + 1))) x2 (a + 2)

/-- e^(j 2 pi n / d) in units of 2^-60, by its series about the nearest whole turn. DEDUCED (log 42): R93 to R133 name the exponential itself. -/
def cis (n : Int) (d : Nat) : Cx :=
  let r := n % (d : Int)
  let r := if (d : Int) < 2 * r then r - d else r
  let x := 2 * piQ * r / (d : Int)
  let x2 := x * x / unitQ
  (series 24 unitQ x2 1, series 24 x x2 2)

/-- The bits of the greatest `m` of at most `k` + 1 bits, from `m` up, with m^d * p at most `lim`. -/
def rootBits (d p lim : Nat) : Nat → Nat → Nat
  | 0, m => if (m + 1) ^ d * p ≤ lim then m + 1 else m
  | k + 1, m => rootBits d p lim k (if (m + 2 ^ (k + 1)) ^ d * p ≤ lim then m + 2 ^ (k + 1) else m)

/-- 10^(-a / d) in units of 2^-60, rounded down. -/
def tenth (a d : Nat) : Int := (rootBits d (10 ^ a) (2 ^ (60 * d)) 60 0 : Nat)

/-- The magnitude of a complex number in units of 2^-40 of its own. -/
def magQ (z : Cx) : Int := (Nat.sqrt ((z.1 * z.1 + z.2 * z.2).toNat * 2 ^ 80) : Nat)

/-- A complex number times an integer. -/
def cscale (g : Int) (z : Cx) : Cx := (g * z.1, g * z.2)

/-- A sum of complex numbers. -/
def csum (l : List Cx) : Cx := l.foldl cadd (0, 0)

/-- Both components rounded and saturated to `w` bits, and whether the sample saturated (R87, R120). -/
def roundCx (w : Nat) (z : Cx) (d : Nat) : Cx × Bool :=
  let a := roundSat w z.1 d
  let b := roundSat w z.2 d
  ((a.1, b.1), a.2 || b.2)

/-- A filter of `n` taps whose tap `r` is its timing reference. -/
def fir (tap : Nat → Int) (n r : Nat) (x : Sig) (m : Int) : Cx :=
  csum ((List.range n).map fun j => cscale (tap j) (x (m - j + r)))

/-- The input of an interpolation by `p`: zeros between the samples. -/
def stuff (p : Nat) (x : Sig) (m : Int) : Cx := if m % p = 0 then x (m / p) else (0, 0)

/-- `h` half-band interpolators, each by 2 (R100): 25 taps each, whose delay of 6 input samples gives T_CHAN its second term. -/
def halfUps : Nat → Sig → Sig
  | 0, x => x
  | h + 1, x => halfUps h (fir (Config.halfBandUp h) 25 12 (stuff 2 x))

/-- `h` half-band decimators, each by 2 (R130). -/
def halfDowns : Nat → Sig → Sig
  | 0, x => x
  | h + 1, x => halfDowns h fun m => fir (Config.halfBandDown h) 25 12 x (2 * m)

/-- The 9/4 polyphase resampler from 983.04 MS/s to 2,211.84 MS/s (R100): its delay is 16 output samples. -/
def resampleUp (x : Sig) (c : Int) : Cx :=
  csum ((List.range 16).map fun j => cscale (Config.resampleUpTap (4 * c % 9).toNat j) (x (4 * c / 9 + 7 - j)))

/-- The 4/9 polyphase resampler from 2,211.84 MS/s to 983.04 MS/s (R130): its delay is 16 input samples. -/
def resampleDown (x : Sig) (q : Int) : Cx :=
  csum ((List.range 34).map fun j => cscale (Config.resampleDownTap (9 * q % 4).toNat j) (x (9 * q / 4 + 17 - j)))

/-- The fine-delay interpolator (R104, R129): a delay of `dly` fine steps beyond its 16 composite samples. -/
def fineDelay (dly : Int) (x : Sig) (c : Int) : Cx :=
  fir (Config.fineTap dly) 33 16 x c

end Sys2Proof.Machine
end

