-- ==== Sys2Proof/Machine/Timeline.lean ====
section
/-!
DEFINITION. The timeline of carriers, slots and symbols (R53, R54, R95, R210), and the deadlines that follow from it
(R59, R116, R143).
-/

namespace Sys2Proof.Machine

/-- A carrier definition (R53), read from a register word. -/
structure Car where
  en  : Bool
  fdd : Bool
  num : Nat
  lte : Bool
  ecp : Bool
  dll : Nat
  ulb : Nat
  nrb : Nat
  deriving DecidableEq, Repr, Inhabited

/-- The fields of `LNK_CAR_CFGn` (R53). -/
def carOf (w : Word) : Car :=
  { en := getBits Fld.LNK_CAR_CFGn_EN w = 1, fdd := getBits Fld.LNK_CAR_CFGn_FDD w = 1,
    num := getBits Fld.LNK_CAR_CFGn_NUM w, lte := getBits Fld.LNK_CAR_CFGn_LTE w = 1,
    ecp := getBits Fld.LNK_CAR_CFGn_ECP w = 1, dll := getBits Fld.LNK_CAR_CFGn_DLL w,
    ulb := getBits Fld.LNK_CAR_CFGn_ULB w, nrb := getBits Fld.LNK_CAR_CFGn_NRB w }

/-- Carrier `n` in force. -/
def State.car (s : State) (n : Nat) : Car := carOf (s.erd (Reg.LNK_CAR_CFGn + 4 * n))

/-- Carrier `n` as held for the next commit. -/
def State.carHeld (s : State) (n : Nat) : Car := carOf (s.rd (Reg.LNK_CAR_CFGn + 4 * n))

/-- Subcarrier spacing in Hz (R54). -/
def Car.hz (c : Car) : Nat := 15000 * 2 ^ c.num

/-- Symbols of a slot with and without the extended prefix (R54). -/
def symsOf (ecp : Bool) : Nat := if ecp then 12 else 14

/-- Symbols per slot (R54). -/
def Car.syms (c : Car) : Nat := symsOf c.ecp

/-- Slots per subframe (R54). -/
def slotsPerSub (num : Nat) : Nat := 2 ^ num

/-- The largest NRB of a carrier's row of R54. -/
def Car.maxNrb (c : Car) : Nat :=
  if c.lte then 100 else if c.num = 0 then 270 else if c.num = 1 then 273 else 264

/-- Is the carrier's field combination inside the table of R54 (R55)? -/
def Car.valid (c : Car) : Bool :=
  1 ≤ c.nrb && c.nrb ≤ c.maxNrb && !(c.lte && c.num != 0) && !(c.ecp && c.num != 2)

/-- The start of the `n`-th symbol of a subframe in ticks (R95): the first symbol of each 0.5 ms is 256 ticks longer,
except with the extended prefix. -/
def symTicks (num : Nat) (ecp : Bool) (n : Nat) : Nat :=
  let per := if ecp then 6 * 2 ^ num else 7 * 2 ^ num
  let len := if ecp then 40960 / 2 ^ num else 35072 / 2 ^ num
  n / per * 245760 + n % per * len + (if !ecp && n % per != 0 then 256 else 0)

/-- The start of slot `slot` of a subframe in ticks: that of its first symbol (R95, R210). -/
def slotStart (num : Nat) (ecp : Bool) (slot : Nat) : Nat := symTicks num ecp (slot * symsOf ecp)

/-- The length of slot `slot` of a subframe in ticks. -/
def slotLen (num : Nat) (ecp : Bool) (slot : Nat) : Nat := slotStart num ecp (slot + 1) - slotStart num ecp slot

/-- The slot that holds an instant, within its subframe. -/
def slotIn (num : Nat) (ecp : Bool) (t : Nat) : Nat :=
  ((List.range (slotsPerSub num - 1)).filter fun n => decide (slotStart num ecp (n + 1) * tickU ≤ t % msU)).length

/-- The air start of the slot that holds an instant. -/
def slotBegin (num : Nat) (ecp : Bool) (t : Nat) : Nat := t / msU * msU + slotStart num ecp (slotIn num ecp t) * tickU

/-- The air start of the slot after the one that holds an instant. -/
def slotNext (num : Nat) (ecp : Bool) (t : Nat) : Nat := t / msU * msU + slotStart num ecp (slotIn num ecp t + 1) * tickU

/-- The first air start of a slot at or after an instant. -/
def slotFrom (num : Nat) (ecp : Bool) (t : Nat) : Nat := if slotBegin num ecp t = t then t else slotNext num ecp t

/-- The air start of the slot before the one that begins at `t`. -/
def slotBefore (num : Nat) (ecp : Bool) (t : Nat) : Nat := slotBegin num ecp (t - 1)

/-- The start of symbol `sym` of a slot, in ticks after the slot's start; `sym` may be the number of symbols per slot,
which names the slot's end. -/
def symInSlot (num : Nat) (ecp : Bool) (slot sym : Nat) : Nat :=
  symTicks num ecp (slot * symsOf ecp + sym) - slotStart num ecp slot

/-- The frame number (R210). -/
def State.frameNo (s : State) : Nat := (s.now / frameU + s.eget Fld.TIM_FRAME_FNOFF) % 1024

/-- The start of the frame with number `f` modulo 256 that lies nearest to now. -/
def State.frameAt (s : State) (f : Nat) : Nat :=
  let d := (f + 256 - s.frameNo % 256) % 256
  if d < 128 then (s.now / frameU + d) * frameU else (s.now / frameU + d - 256) * frameU

/-- The air start of a named symbol of a carrier (R59). -/
def State.airStart (s : State) (c : Car) (y : SymId) : Nat :=
  s.frameAt y.frame + y.sub * msU + symTicks c.num c.ecp (y.slot * c.syms + y.sym) * tickU

/-- The next symbol boundary of a carrier after an instant (R66). -/
def nextSymbol (c : Car) (t : Nat) : Nat :=
  let base := t / msU * msU
  let starts := (List.range (c.syms * slotsPerSub c.num + 1)).map fun n => base + symTicks c.num c.ecp n * tickU
  match starts.find? (fun x => t < x) with
  | some x => x
  | none => base + msU

/-- The next occurrence after now of a symbol named with a frame number modulo 256 (R66, WHEN = 1). None when the
numerology has no such symbol. -/
def State.nextNamed (s : State) (c : Car) (y : SymId) : Option Nat :=
  if y.sub < 10 ∧ y.slot < slotsPerSub c.num ∧ y.sym < c.syms then
    let d := (y.frame + 256 - s.frameNo % 256) % 256
    let off := y.sub * msU + symTicks c.num c.ecp (y.slot * c.syms + y.sym) * tickU
    let t := (s.now / frameU + d) * frameU + off
    some (if s.now < t then t else t + 256 * frameU)
  else none

/-- log2 of 491.52 MS/s over r, for an FFT size code and a spacing (R100): r = 128 * 2^fftsz * 15 kHz * 2^num. -/
def rateH (fftsz num : Nat) : Nat := 8 - fftsz - num

/-- Does an FFT size keep R92 for a carrier: r from 7.68 to 491.52 MS/s, and NRB * 12 at most 0.82 N? -/
def fftValid (fftsz : Nat) (c : Car) : Bool :=
  fftsz ≤ 5 && 2 ≤ fftsz + c.num && fftsz + c.num ≤ 8 && c.nrb * 1200 ≤ 82 * (128 * 2 ^ fftsz)

/-- T_DL of R116. -/
def tDl (fftsz num : Nat) : Nat :=
  4200 * nsU + 64 * 2 ^ fftsz * tickU + (30 * 2 ^ rateH fftsz num - 6) * tickU + 7234 * nsU / 1000 + 120 * nsU

/-- T_DL of carrier `n` in force, from FFTSZ of `LNK_DL_CARn` (R116). -/
def State.tDlOf (s : State) (n : Nat) : Nat := tDl (s.eget (Fld.LNK_DL_CARn_FFTSZ.i n)) (s.car n).num

/-- Does the reference numerology use 12-symbol slots: a defined carrier of that spacing with the extended prefix? -/
def State.refEcp (s : State) (num : Nat) : Bool :=
  (List.range 8).any fun n => (s.car n).en && (s.car n).num == num && (s.car n).ecp

/-- Carrier `n` as it is in force at an instant: a carrier commit due by then counts. -/
def State.carAt (s : State) (n t : Nat) : Car :=
  match s.carPend with
  | some p => if p.due ≤ t then carOf (rfRead p.vals (Reg.LNK_CAR_CFGn + 4 * n)) else s.car n
  | none => s.car n

/-- The duplex mode of the carriers in force at an instant (R77): none with no carrier defined, else FDD or not. A
carrier commit due by then counts. -/
def State.duplexAt (s : State) (t : Nat) : Option Bool :=
  match ((List.range 8).map fun n => s.carAt n t).find? (fun c => c.en) with
  | some c => some c.fdd
  | none => none

/-- Is any carrier in force? -/
def State.anyCar (s : State) : Bool := (List.range 8).any fun n => (s.car n).en

/-- Is hamlet `h` in service for the host port (R72, R349): its HMASK bit set, neither OFF nor RETAIN, and past its rejoin boundary? -/
def State.inService (s : State) (h : Fin 8) : Bool :=
  s.bit Fld.LNK_ULC_CFG_HMASK h && decide (2 ≤ s.hstate h) && (s.rejoin[h]).isNone

/-- The start of symbol `n` of a latched entry's slot. -/
def Latched.symStart (l : Latched) (ecp : Bool) (n : Nat) : Nat :=
  l.slotAt + symInSlot l.num ecp (slotIn l.num ecp l.slotAt) n * tickU

/-- The symbol of a latched entry's slot that holds an instant. -/
def Latched.symAt (l : Latched) (ecp : Bool) (t : Nat) : Option Nat :=
  (List.range (symsOf ecp)).find? fun n => decide (l.symStart ecp n ≤ t) && decide (t < l.symStart ecp (n + 1))

/-- The slot-table code of a symbol of a latched entry that starts at `t` (R76): 0 off, 1 downlink, 2 uplink, 3 both. -/
def Latched.codeAt (l : Latched) (ecp : Bool) (t : Nat) : Option Nat :=
  match l.symAt ecp t with
  | none => none
  | some n => match l.words with
    | [] => some 0
    | w :: _ => some (w.toNat / 4 ^ n % 4)

/-- The slot-table direction of some latched entries over an interval (R76): a symbol of another numerology has a direction only
if its whole duration lies within symbols whose code includes it. With no latched entry the code is off. -/
def State.dirIn (s : State) (ls : List Latched) (dir t0 t1 : Nat) : Bool :=
  ls.any (fun l => match l.codeAt (s.refEcp l.num) t0 with | some c => c / 2 ^ dir % 2 = 1 | none => false)
    && ls.all (fun l =>
      (List.range (symsOf (s.refEcp l.num))).all fun n =>
        let a := l.symStart (s.refEcp l.num) n
        let b := l.symStart (s.refEcp l.num) (n + 1)
        if a < t1 && t0 < b then (match l.words with | [] => false | w :: _ => w.toNat / 4 ^ n % 4 / 2 ^ dir % 2 = 1)
        else true)

/-- The SHED level that the actions of all zones ask for: the smallest SHEDL, 16 for none (R370). -/
def State.shedNext (s : State) : Nat :=
  s.thm.zone.toList.foldl (fun m z => if getBits Fld.THM_ACTz_SHED z.acts = 1 then min m (getBits Fld.THM_ACTz_SHEDL z.acts) else m) 16

/-- The highest layer or beam index that is computed at an instant (R370). -/
def State.shedLevel (s : State) (t : Nat) : Nat :=
  if t < s.thm.shedWas.1 then s.thm.shedWas.2
  else s.thm.shedDue.foldl (fun m x => if x.1 ≤ t then x.2 else m) s.thm.shed

/-- Does the converter clock of hamlet `h` stand still: not locked, gated, or its sample counters not aligned (R335, R343)? A setting carried across by double buffering, a
swap, a fade and a mute ramp then wait for the first boundary after the clock resumes. -/
def State.clockStops (s : State) (h : Fin 8) : Bool := !s.flag (Fld.PLL_STAT_ALIGNED.h h)

/-- The backoff steps that the actions ask of hamlet `h` (R370): its own zone's and zone 8's. -/
def State.boSteps (s : State) (h : Fin 8) : Nat :=
  let one (w : Word) : Nat := if getBits Fld.THM_ACTz_BO w = 1 then getBits Fld.THM_ACTz_BOSTEP w else 0
  one (s.thm.zone[h.val]).acts + one (s.thm.zone[8]).acts

/-- Is path `k` of hamlet `h` in the muted group of a rotation (R370)? -/
def State.rotMuted (s : State) (h : Fin 8) (k : Nat) : Bool :=
  match s.thm.rot[h] with
  | some x => decide (x.first ≤ k) && decide (k < x.first + x.size)
  | none => false

/-- The direction in the latched entries of hamlet `h`. -/
def State.dirOver (s : State) (h : Fin 8) (dir t0 t1 : Nat) : Bool := s.dirIn s.slt[h].latched dir t0 t1

/-- The air start of the first REFNUM symbol after `t0`, and within 10 ms of it, whose latched code leaves direction `dir` (0 downlink,
1 uplink) out (R102, R131). -/
def State.silentAfter (s : State) (h : Fin 8) (dir t0 : Nat) : Option Nat :=
  let cand : List Nat := s.slt[h].latched.flatMap fun l =>
    let ecp := s.refEcp l.num
    (List.range (symsOf ecp)).filterMap fun n =>
      let t := l.symStart ecp n
      let c := match l.words with | [] => 0 | w :: _ => w.toNat / 4 ^ n % 4
      if t0 < t ∧ t ≤ t0 + 10 * msU ∧ c / 2 ^ dir % 2 = 0 then some t else none
  cand.foldl (fun (m : Option Nat) t => match m with | none => some t | some x => some (min x t)) none

/-! ### Forced samples while the converter PLL is unlocked (R114, R142) -/

/-- The number of the REFNUM slot of hamlet `h` that holds an instant, counted from device time 0. -/
def State.slotNo (s : State) (h : Fin 8) (t : Nat) : Nat :=
  let num := s.eget (Fld.SLT_CFG_REFNUM.h h)
  t / msU * slotsPerSub num + slotIn num (s.refEcp num) t

/-- The slots of hamlet `h` up to `t` that hold a sample forced since `from_` and end after `counted`, the end of the last slot counted. -/
def State.forcedSlots (s : State) (h : Fin 8) (from_ counted t : Nat) : Nat :=
  if t < counted then 0 else s.slotNo h t + 1 - s.slotNo h (max from_ counted)

/-- The end of the REFNUM slot of hamlet `h` that holds an instant. -/
def State.slotEnd (s : State) (h : Fin 8) (t : Nat) : Nat :=
  let num := s.eget (Fld.SLT_CFG_REFNUM.h h)
  slotNext num (s.refEcp num) t

/-- The start of the REFNUM slot of hamlet `h` that holds an instant. -/
def State.slotStartOf (s : State) (h : Fin 8) (t : Nat) : Nat :=
  let num := s.eget (Fld.SLT_CFG_REFNUM.h h)
  slotBegin num (s.refEcp num) t

/-- The slots up to `t` that hold a forced transmit sample are counted, each once (R114). -/
def State.countTx (s : State) (h : Fin 8) (t : Nat) : State :=
  let x := s.tx[h]
  if x.forced && !x.quiet then
    { s.add (Fld.TXC_UNLOCK_CNT_COUNT.h h) (s.forcedSlots h x.forcedAt x.counted t) with
      tx := s.tx.set h { x with counted := max x.counted (s.slotEnd h t) } }
  else s

/-- The slots up to `t` that hold a forced receive sample are counted, each once (R142). -/
def State.countRx (s : State) (h : Fin 8) (t : Nat) : State :=
  let x := s.rx[h]
  if x.forced && !x.quiet then
    { s.add (Fld.RXC_UNLOCK_CNT_COUNT.h h) (s.forcedSlots h x.zeroFrom x.counted t) with
      rx := s.rx.set h { x with counted := max x.counted (s.slotEnd h t) } }
  else s

/-- The transmit paths of hamlet `h` are forced to zero code (R114): UNLOCKED is set; the slots are counted unless lock was dropped deliberately (R334, `quiet`). -/
def State.forceTx (s : State) (h : Fin 8) (quiet : Bool) : State :=
  let s := (s.countTx h s.now).put (Fld.TXC_STAT_UNLOCKED.h h) 1
  let x := s.tx[h]
  let skip := if x.forced && x.quiet then s.slotStartOf h s.now else 0
  let x' : Tx := { x with
    forced := true
    forcedAt := if x.forced then x.forcedAt else s.now
    quiet := quiet
    counted := max x.counted skip
    resumeDue := none }
  State.countTx { s with tx := s.tx.set h x' } h s.now

/-- The receive paths of hamlet `h` are forced to zero samples (R142). -/
def State.forceRx (s : State) (h : Fin 8) (quiet : Bool) : State :=
  let s := (s.countRx h s.now).put (Fld.RXC_STAT_UNLOCKED.h h) 1
  let x := s.rx[h]
  let skip := if x.forced && x.quiet then s.slotStartOf h s.now else 0
  let x' : Rx := { x with
    forced := true
    zeroFrom := if x.forced then x.zeroFrom else s.now
    quiet := quiet
    counted := max x.counted skip
    resumeDue := none }
  State.countRx { s with rx := s.rx.set h x' } h s.now

/-- The paths of hamlet `h` are forced to zero in both directions. -/
def State.forceZero (s : State) (h : Fin 8) (quiet : Bool) : State := (s.forceTx h quiet).forceRx h quiet

/-- A calendar brought to an instant, its passed part of a count kept, and counted from another instant on. -/
def Calendar.rebase (c : Calendar) (now at0 : Nat) : Calendar :=
  if c.runs then
    let e := now - c.at0 + c.part
    { c with count := c.count + e * 32768 / secU, part := e % (secU / 32768), at0 }
  else { c with at0 }

end Sys2Proof.Machine
end

