-- ==== Sys2Proof/Machine/Messages.lean ====
section
/-!
DEFINITION. What the host port does with every inbound message before its type's own meaning (R183, R187, R190, R191, R193).
-/

namespace Sys2Proof.Machine

/-- May a message of this type come in on this flow (R191)? -/
def State.typeOnFlow (s : State) (type f : Nat) : Bool :=
  let cls := s.get (Fld.LNK_FLOWf_CFG_CLASS.i f)
  if type = 0 then cls == 2 && !s.flag (Fld.LNK_FLOWf_CFG_DEEP.i f)
  else if type = 2 then cls == 1 && decide (8 ≤ f)
  else if type = 3 then decide (3 ≤ f) && decide (f ≤ 7)
  else if type = 4 then f == 1
  else if type = 5 then f == 0
  else if type = 6 || type = 7 then f == 2
  else false

/-- The checks on the common header and SEQ_ID of a message of `n` bytes after that header. -/
def State.hdrOk (s : State) (m : Hdr) (type n : Nat) : Bool :=
  (type == 5 || (m.rev == 1 && m.cat == 0 && m.size == n)) && n + 4 ≤ 32768 && s.typeOnFlow type m.flow
    && ((type != 0 && type != 2) || m.seq % 256 == 0x80)

/-- A break in the sequence of SEQ_ID byte 0 is counted; the message is accepted (R193). -/
def State.takeSeq (s : State) (m : Hdr) : State :=
  let want := aget s.port.seqIn m.flow
  let s := if want != 0 && want % 256 != m.seq / 256 % 256 then s.inc (Fld.LNK_CNTn_COUNT.i 10) else s
  { s with port := { s.port with seqIn := aset s.port.seqIn m.flow (m.seq / 256 % 256 + 1) } }

/-- A list without the first message of a flow. -/
def dropFlow (f : Nat) : List FlowMsg → List FlowMsg
  | [] => []
  | m :: t => if m.flow = f then t else m :: dropFlow f t

/-- An accepted message posts its flow's arrival signal (R191), which reaches DMA channels for flows 4 to 7 (R315). -/
def State.arrive (s : State) (f : Nat) : State := if 4 ≤ f ∧ f ≤ 7 then s.postEdge 4 8 (f - 4) else s

/-- An inbound message of a type: discarded and counted on a disabled flow (n = 5, one for each cell) or when its header, flow or SEQ_ID does
not fit (n = 6); else `act` is done. -/
def takeMsg (m : Hdr) (type n : Nat) (act : State → State) (s : State) : State :=
  let s := { s with port := { s.port with inbox := dropFlow m.flow s.port.inbox } }
  if !s.flag (Fld.LNK_FLOWf_CFG_EN.i m.flow) then s.add (Fld.LNK_CNTn_COUNT.i 5) ((n + 67) / 64)
  else if !s.hdrOk m type n then s.inc (Fld.LNK_CNTn_COUNT.i 6)
  else act ((if type = 0 || type = 2 then s.takeSeq m else s).arrive m.flow)

/-! ### Answers of the gateway (R197) -/

/-- The payload of a Remote Memory Access message: ID, access and request/response code, Element ID, 48-bit address, length, data (log 20). -/
def rmaBytes (q : RmaReq) (kind len : Nat) (data : List Nat) : List Nat :=
  [q.id % 256, q.op % 16 * 16 + kind] ++ beBytes 2 q.elem ++ beBytes 6 q.addr ++ beBytes 2 len ++ data

/-- A request that fails is counted, and answered with a failure and its reason where it asks for a response; the low bits of the failure's word are not stated
(a free value). -/
def rmaFail (q : RmaReq) (reason : Nat) (s : State) : State :=
  let s := s.inc (Fld.LNK_CNTn_COUNT.i 9)
  if 2 ≤ q.op then s
  else
    let x := s.drawn
    x.2.stage 1 (ecpri 4 (rmaBytes q 2 4 (beBytes 4 (reason * 2 ^ 24 + x.1 % 2 ^ 24))))

/-- A request that was performed is answered; a write without response is not. -/
def rmaDone (q : RmaReq) (data : List Nat) (s : State) : State :=
  if 2 ≤ q.op then s else s.stage 1 (ecpri 4 (rmaBytes q 1 q.len data))

/-- A list without the first waiting request at an address. -/
def dropRma (a : Nat) : List RmaReq → List RmaReq
  | [] => []
  | q :: t => if q.addr = a then t else q :: dropRma a t

/-- The waiting request at an address ends with a failure, reason 10 (R357). -/
def failRma (a : Nat) (s : State) : State :=
  match s.port.rma.find? (fun q => q.addr == a) with
  | none => s
  | some q => rmaFail q 10 { s with port := { s.port with rma := dropRma a s.port.rma } }

end Sys2Proof.Machine
end

