-- ==== Sys2Proof/Machine/Store.lean ====
section
/-!
DEFINITION. The stores, their arbiters and the locks (R277 to R304): scrubbing, row repair, error injection, freeze and fall-back, and
the 32 locks of a hamlet.
-/

namespace Sys2Proof.Machine

/-! ### Scrubbing and repair (R282 to R285, R287) -/

/-- The first address of a store and its size in bytes (R35, R36). -/
def storeSpan (k : Nat) : Nat × Nat :=
  if k < 8 then (hamletBase k, 0x300000) else if k = 8 then (0x00100000, 0x200000) else (0x08000000, 0x800000)

/-- May a store grant its scrubber and repair unit a bank: its domain runs and its arbiter is not frozen (R292, R293)? -/
def State.storeRuns (s : State) (k : Nat) : Bool :=
  if k < 8 then decide (2 ≤ s.hstate k) && !s.flag (Fld.ARB_CTRL_FREEZE.h k) else true

/-- The length of a scrub pass (R282): PERIOD seconds, at least 60. -/
def State.scrubPeriod (s : State) (k : Fin 10) : Nat := max 60 (s.get (Fld.STO_CFG_PERIOD.st k)) * secU

/-- The bank of a granule of store `k`, and whether requests wait there (R282). -/
def State.granuleWaits (s : State) (k : Fin 10) (a : Nat) : Bool :=
  let x := s.bank k (bankRow a).1
  !x.waiting.isEmpty || !x.due.isEmpty

/-- Granule `p` of the pass is read, decoded and recorded; the last one ends the pass (R282). -/
def scrubOne (k : Fin 10) (s : State) : State :=
  let p := s.sto[k].pos
  let s := (s.checkRead 20 false ((storeSpan k).1 + 64 * p) 64).1
  let s := s.setSto k { s.sto[k] with scrubAt := none, pos := if 64 * (p + 1) < (storeSpan k).2 then p + 1 else 0 }
  if 64 * (p + 1) < (storeSpan k).2 then s
  else ((s.setSto k { s.sto[k] with pass := s.sto[k].pass + 1 }).put (Fld.STO_STAT_PASSDONE.st k) 1).inc ((Fld.STO_CNTn_COUNT.i 5).st k)

/-- A pass begins PERIOD after the last one began (R282). -/
def scrubStart (k : Fin 10) (s : State) : State :=
  if s.sto[k].pos ≠ 0 ∨ s.sto[k].scrubAt.isSome then s
  else
    let s := match s.sto[k].passAt with
      | none => s
      | some t => s.at (t + s.scrubPeriod k)
    s.setSto k { s.sto[k] with passAt := some s.now }

/-- SCRUB_GRANULE (R282): the next granule of the pass is read, in ascending address order. While a requester waits at its bank it waits too; after 100 us it asks the
arbiter in the low class. -/
def execScrubGranule (k : Fin 10) (s : State) : Host.Outcome State Fault Refusal :=
  .next (if s.flag (Fld.STO_CFG_SCRUB.st k) && s.storeRuns k then
      let s := scrubStart k s
      let a := (storeSpan k).1 + 64 * s.sto[k].pos
      if s.granuleWaits k a then
        match s.sto[k].scrubAt with
        | none => s.setSto k { s.sto[k] with scrubAt := some s.now }
        | some t => if s.now < t + 100 * usU then s else scrubOne k (s.reach k 7 a 64 true)
      else scrubOne k s
    else s)

/-- The words of a row (R277): four granules of 8 words, one bank. -/
def rowWords (k bank row : Nat) : List Nat :=
  let rowBytes := if k = 9 then 8192 else 4096
  let base := if k = 8 then row % 256 * 4096 + (if row < 256 then 0x00200000 else 0x00100000) else (storeSpan k).1 + row * rowBytes
  let step := if k = 9 then 2048 else 1024
  (List.range 4).flatMap fun g => (List.range 8).map fun w => base + g * step + bank * 64 + w * 8

/-! ### Spares (R277, R278, R283) -/

/-- The rows of a bank of store `k` (R277, R287). -/
def rowsOf (k : Nat) : Nat := if k < 8 then 768 else if k = 8 then 512 else 1024

/-- Does spare `n` of a bank replace a row? -/
def State.spareFor (s : State) (k bank row n : Nat) : Bool :=
  s.flag ((Fld.STO_REPAIRn_VALID.i (8 * bank + n)).st k) && s.get ((Fld.STO_REPAIRn_ROW.i (8 * bank + n)).st k) == row

/-- The cells that serve a row (R283): the lowest spare that replaces it and has not failed, else the lowest that replaces it, else the row itself; as `place` of `Hidden`. -/
def State.servedBy (s : State) (k bank row : Nat) : Nat :=
  match (List.range 8).find? fun n => s.spareFor k bank row n && !s.flag ((Fld.STO_REPAIRn_FAILED.i (8 * bank + n)).st k) with
  | some n => n
  | none => ((List.range 8).find? fun n => s.spareFor k bank row n).getD (8 + row)

/-- The word-address bits in which two addresses differ (R278), as bits 80 to 98 of a code word. -/
def foldedBits (w v : Nat) : List Nat := ((List.range 19).filter fun i => bitOf (w / 8) i != bitOf (v / 8) i).map (80 + ·)

/-- The bits that are in one of two lists only. -/
def oddBits (l m : List Nat) : List Nat := l.filter (fun i => !m.contains i) ++ m.filter fun i => !l.contains i

/-- The served contents of a row, as the cells at `place` hold them. -/
def State.hideRow (s : State) (k bank row place : Nat) : State :=
  let ws := rowWords k bank row
  let x := s.sto[Fin.ofNat 10 k]
  s.setSto k { x with hidden := ⟨bank, place, row, ws.map fun w => s.memLE w 8, s.ecc.filter fun e => ws.contains e.word⟩
    :: x.hidden.filter fun y => !(y.bank == bank && y.place == place) }

/-- Writes the words of a row, in address order of the list, without a check. -/
def State.putWords (s : State) : List Nat → List Nat → State
  | w :: ws, v :: vs => State.putWords { s with
      mem := (List.range 8).foldl (fun m i => memWrite m (w + i) (BitVec.ofNat 8 (v / 256 ^ i))) s.mem } ws vs
  | _, _ => s

/-- The cells at `place` come to serve a row: their words, with the errors that they hold and the folded bits in which the addresses differ (R278). Cells that
nothing has written read 0, in no error (log 5). -/
def State.serveRow (s : State) (k bank row place : Nat) : State :=
  let ws := rowWords k bank row
  let x := s.sto[Fin.ofNat 10 k]
  let clear := { s with ecc := s.ecc.filter fun e => !ws.contains e.word }
  match x.hidden.find? fun y => y.bank == bank && y.place == place with
  | none => clear.putWords ws (List.replicate 32 0)
  | some y =>
    let errs := (ws.zip (rowWords k bank y.row)).filterMap fun p =>
      let e := (y.errs.find? fun e => e.word == p.2).getD ⟨p.2, [], false⟩
      let bits := oddBits e.bits (foldedBits p.1 p.2)
      if e.poison || !bits.isEmpty then some (⟨p.1, bits, e.poison⟩ : EccErr) else none
    let s := clear.putWords ws y.words
    State.setSto { s with ecc := errs ++ s.ecc } k { x with hidden := x.hidden.filter fun z => !(z.bank == bank && z.place == place) }

/-- The remaps of a bank change by `act` (R277, R285): each of the rows concerned takes the contents of the cells that serve it from then on. -/
def remapped (k bank : Nat) (rows : List Nat) (act : State → State) (s : State) : State :=
  let t := act s
  let moved := ((rows.filter (· < rowsOf k)).eraseDups).filter fun row => s.servedBy k bank row != t.servedBy k bank row
  let t := moved.foldl (fun t row => t.hideRow k bank row (s.servedBy k bank row)) t
  moved.foldl (fun t row => t.serveRow k bank row (t.servedBy k bank row)) t

/-- Does a write to a span meet the row that the repair unit copies, so that it stalls until the remap (R283)? -/
def State.rowBusy (s : State) (a n : Nat) : Bool :=
  match s.sto[Fin.ofNat 10 (storeOf a)].copy with
  | none => false
  | some c => (rowWords (storeOf a) c.bank c.row).any fun w => decide (w < a + n) && decide (a < w + 8)

/-- The lowest free spare of a bank: neither in use nor failed (R283). -/
def State.freeSpare (s : State) (k bank : Nat) : Option Nat :=
  (List.range 8).find? fun n =>
    !s.flag ((Fld.STO_REPAIRn_VALID.i (8 * bank + n)).st k) && !s.flag ((Fld.STO_REPAIRn_FAILED.i (8 * bank + n)).st k)

/-- ROW_REPAIR (R283, R284): the oldest candidate's copy into the lowest free spare starts, its words read through the code; a bank without a free
spare is marked, and 0x432 is raised once for it. -/
def execRowRepair (k : Fin 10) (s : State) : Host.Outcome State Fault Refusal :=
  .next (match s.sto[k].cands with
    | [] => s
    | (bank, row) :: rest =>
      if s.sto[k].copy.isSome || !s.storeRuns k then s
      else
        let s := s.setSto k { s.sto[k] with cands := rest }
        match s.freeSpare k bank with
        | none => if s.bit (Fld.STO_SPAREOUT_OUT.st k) bank then s
          else (s.setBit (Fld.STO_SPAREOUT_OUT.st k) bank).raise 0x432 (storeElem k) bank
        | some n =>
          let bad := (rowWords k bank row).filter fun w => s.uncorrected w 8
          let s := (rowWords k bank row).foldl (fun s w => (s.checkRead 21 false w 8).1) s
          (s.setSto k { s.sto[k] with copy := some ⟨bank, row, n, bad⟩ }).put (Fld.STO_STAT_REPBUSY.st k) 1)

/-- The remap of a copied row (R283, R284): the spare holds the row's words, those that could not be read poisoned; the cells that served it keep theirs; a spare
that held the row has failed. -/
def remapRow (k : Nat) (c : RowCopy) (s : State) : State :=
  let s := s.hideRow k c.bank c.row (s.servedBy k c.bank c.row)
  let x := s.sto[Fin.ofNat 10 k]
  let s := s.setSto k { x with copy := none, hidden := x.hidden.filter fun y => !(y.bank == c.bank && y.place == c.spare) }
  let s := (List.range 8).foldl (fun s n =>
    if s.spareFor k c.bank c.row n then s.put ((Fld.STO_REPAIRn_FAILED.i (8 * c.bank + n)).st k) 1 else s) s
  let s := c.bad.foldl (fun s w => s.poison w) s
  (s.put ((Fld.STO_REPAIRn_ROW.i (8 * c.bank + c.spare)).st k) c.row).put ((Fld.STO_REPAIRn_VALID.i (8 * c.bank + c.spare)).st k) 1

/-- The end of a copy (R283): the row is remapped, recorded and counted, notice 0x430. -/
def endCopy (k : Nat) (s : State) : State :=
  match s.sto[Fin.ofNat 10 k].copy with
  | none => s
  | some c =>
    let s := remapRow k c s
    ((s.inc ((Fld.STO_CNTn_COUNT.i 4).st k)).put (Fld.STO_STAT_REPBUSY.st k) 0).raise 0x430 (storeElem k) (c.bank * 65536 + c.row)

/-- A software write to a repair register (R285): the Reeve alone, for a hamlet's store while its engine is halted and its arbiter drained. -/
def repairWrite (r : Req) (k n : Nat) (v : Word) (s : State) : State :=
  let a := ((Fld.STO_REPAIRn_VALID.i n).st k).reg
  let open_ := decide (8 ≤ k) || ((s.eng[Fin.ofNat 9 k].state == 0 || s.eng[Fin.ofNat 9 k].state == 3) && s.flag (Fld.ARB_STAT_DRAINED.h k))
  if r.id = 16 ∧ open_ then
    remapped k (n / 8) [s.get ((Fld.STO_REPAIRn_ROW.i n).st k), getBits Fld.STO_REPAIRn_ROW v] (fun s => s.storeReg r a v) s
  else s.refuse4 r a

/-- STO_REPAIR_WRITE (R285). -/
def execStoRepairWrite (r : Req) (k : Fin 10) (n : Fin 256) (v : Word) (s : State) : Host.Outcome State Fault Refusal :=
  .next (regCmd r ((Fld.STO_REPAIRn_VALID.i n).st k).reg v (repairWrite r k n v) s)

/-- A write to the injector of a store (R286): the Reeve, or the hamlet's engine at kernel level. -/
def injectWrite (r : Req) (k a : Nat) (v : Word) (s : State) : State :=
  if r.id = 16 ∨ (r.id = k ∧ k < 8 ∧ 1 ≤ r.priv) then s.storeReg r a v else s.refuse4 r a

/-- STO_INJECT_ARM (R286). -/
def execStoInjectArm (r : Req) (k : Fin 10) (v : Word) (s : State) : Host.Outcome State Fault Refusal :=
  .next (regCmd r (Fld.STO_INJ_ARM.st k).reg v (injectWrite r k (Fld.STO_INJ_ARM.st k).reg v) s)

/-! ### The arbiter (R291, R292, R346) -/

/-- The setting of a VSET or VNOW code in mV. -/
def railCode (c : Nat) : Nat := 600 + 10 * c

/-- The code the hamlet rail targets (R346, R370): VSET, or the lower LDOSET of an LDO action in force on the hamlet. -/
def State.railTarget (s : State) (h : Fin 8) : Nat :=
  let cap (w : Word) (n : Nat) : Nat := if getBits Fld.THM_ACTz_LDO w = 1 then min n (getBits Fld.THM_ACTz_LDOSET w) else n
  cap (s.thm.zone[h.val]).acts (cap (s.thm.zone[8]).acts (s.get (Fld.PWR_HLDOh_VSET.i h)))

/-- The hamlet rail at an instant, in units of 1/1000 mV: a ramp of 10 mV per us from where the last change found it; 0.50 V in RETAIN, 0 in OFF
(R346, R348). -/
def State.railUv (s : State) (h : Fin 8) (t : Nat) : Nat :=
  if s.hstate h = 0 then 0
  else if s.hstate h = 1 then 500000
  else
    let x := s.hpow[h]
    let target := railCode (s.railTarget h) * 1000
    let d := (t - x.rampAt) * 10000 / usU
    let from_ := x.rampMv * 1000
    if from_ ≤ target then min target (from_ + d) else max target (from_ - d)

/-- Fall-back comes into force and is counted, if it is not in force already (R291). -/
def arbFallback (h : Fin 8) (s : State) : State :=
  if s.flag (Fld.ARB_STAT_FB.h h) then s else (s.put (Fld.ARB_STAT_FB.h h) 1).inc ((Fld.ARB_CNTn_COUNT.i 2).h h)

/-- A write to `ARB_CFG` (R291): fall-back is in force while FORCEFB is 1 or the rail holds it. -/
def arbCfgWrite (r : Req) (h : Fin 8) (v : Word) (s : State) : State :=
  let s := s.storeReg r (hamletBase h + Reg.ARB_CFG) v
  if s.flag (Fld.ARB_CFG_FORCEFB.h h) then arbFallback h s
  else if s.hpow[h].low then s else s.put (Fld.ARB_STAT_FB.h h) 0

/-- ARB_FALLBACK_ENTRY (R291): the first decision after the rail has fallen below 0.68 V, at `t`, or with FORCEFB set. -/
def execArbFallbackEntry (h : Fin 8) (t : Nat) (s : State) : Host.Outcome State Fault Refusal :=
  .next (
    let s := s.at t
    if 2 ≤ s.hstate h ∧ s.railUv h s.now < 680000 then
      arbFallback h { s with hpow := s.hpow.set h { s.hpow[h] with low := true } }
    else if s.flag (Fld.ARB_CFG_FORCEFB.h h) then arbFallback h s else s)

/-- ARB_FALLBACK_EXIT (R291): the rail has been above 0.70 V for 10 us. -/
def execArbFallbackExit (h : Fin 8) (t : Nat) (s : State) : Host.Outcome State Fault Refusal :=
  .next (
    let s := s.at t
    if s.hpow[h].low && decide (700000 < s.railUv h s.now) && decide (700000 < s.railUv h (s.now - 10 * usU)) then
      let s := { s with hpow := s.hpow.set h { s.hpow[h] with low := false } }
      if s.flag (Fld.ARB_CFG_FORCEFB.h h) then s else s.put (Fld.ARB_STAT_FB.h h) 0
    else s)

/-- A write of FREEZE (R292): the Reeve alone; DRAINED falls when FREEZE clears. -/
def freezeWrite (r : Req) (h : Fin 8) (v : Word) (s : State) : State :=
  if r.id = 16 then (if getBits Fld.ARB_CTRL_FREEZE v = 1 then s.freeze h else s.thaw h)
  else s.refuse4 r (hamletBase h + Reg.ARB_CTRL)

/-- ARB_DRAINED (R292): under FREEZE every bank is idle. -/
def execArbDrained (h : Fin 8) (s : State) : Host.Outcome State Fault Refusal :=
  .next (if s.flag (Fld.ARB_CTRL_FREEZE.h h) then s.put (Fld.ARB_STAT_DRAINED.h h) 1 else s)

/-! ### Locks (R301 to R304) -/

/-- The owner code of a requester (R301): 1 to 3 the hamlet engine at its level, 4 the Reeve, 5 the gateway. -/
def State.lockOwner (s : State) (r : Req) (h : Fin 8) : Nat :=
  if r.id = 16 then 4 else if r.id = 17 then 5 else 1 + s.eng[hEng h].lvl.val

/-- A read of a lock (R301): acquires it when free; RESULT, BROKEN and OWNER as they stand after the read. -/
def lockRead (r : Req) (h : Fin 8) (n : Fin 32) (s : State) : Nat × State :=
  let me := s.lockOwner r h
  let o := s.get ((Fld.LCK_n_OWNER.i n).h h)
  if o = 0 then
    let b := s.get ((Fld.LCK_n_BROKEN.i n).h h)
    let s := ((s.put ((Fld.LCK_n_OWNER.i n).h h) me).put ((Fld.LCK_n_BROKEN.i n).h h) 0).setBit (Fld.LCK_HELD_HELD.h h) n
    (b * 2 ^ 30 + me * 16, s)
  else ((if o = me then 3 else 2) * 2 ^ 30 + o * 16, s)

/-- LOCK_ACQUIRE (R301). -/
def execLockAcquire (r : Req) (h : Fin 8) (n : Fin 32) (s : State) : Host.Outcome State Fault Refusal :=
  .next (readCmd r (hamletBase h + Reg.LCK_n + 4 * n) (lockRead r h n) s)

/-- A write to a lock (R301): RELEASE by its owner frees it; by another it is recorded with reason 4. -/
def lockWrite (r : Req) (h : Fin 8) (n : Fin 32) (v : Word) (s : State) : State :=
  if !v.getLsbD 0 then s
  else if s.get ((Fld.LCK_n_OWNER.i n).h h) = s.lockOwner r h then
    (s.put ((Fld.LCK_n_OWNER.i n).h h) 0).clrBit (Fld.LCK_HELD_HELD.h h) n
  else s.refuse4 r (hamletBase h + Reg.LCK_n + 4 * n)

/-- LOCK_RELEASE (R301). -/
def execLockRelease (r : Req) (h : Fin 8) (n : Fin 32) (v : Word) (s : State) : Host.Outcome State Fault Refusal :=
  .next (regCmd r (hamletBase h + Reg.LCK_n + 4 * n) v (lockWrite r h n v) s)

/-- A write to `LCK_FREE` (R304): the Reeve frees the named locks that are held, each broken. -/
def lockFreeWrite (r : Req) (h : Fin 8) (v : Word) (s : State) : State :=
  if r.id = 16 then
    (List.range 32).foldl (fun s n => if v.getLsbD n && s.get ((Fld.LCK_n_OWNER.i n).h h) != 0 then s.breakLock h n else s) s
  else s.refuse4 r (hamletBase h + Reg.LCK_FREE)

/-- LOCK_FREE (R304). -/
def execLockFree (r : Req) (h : Fin 8) (v : Word) (s : State) : Host.Outcome State Fault Refusal :=
  .next (regCmd r (hamletBase h + Reg.LCK_FREE) v (lockFreeWrite r h v) s)

end Sys2Proof.Machine
end

