-- ==== Sys2Proof/Machine/Beams.lean ====
section
/-!
DEFINITION. Beamforming control (R53 to R74): the carrier commit, control messages, explicit weights, beam commits, the hamlet mask.
-/

namespace Sys2Proof.Machine

/-! ### Carrier commit (R53, R55) -/

/-- Is an address one of the carrier registers that a commit takes (R53)? -/
def carrierReg (a : Nat) : Bool :=
  let la := localAddr a
  let inArr (b : Nat) := b ≤ la && la < b + 32
  inArr Reg.LNK_CAR_CFGn || inArr Reg.LNK_DL_CARn || inArr Reg.LNK_UL_CARn || la == Reg.TXC_NCO_FREQ
    || inArr Reg.TXC_CNCOn || inArr Reg.TXC_CARn || la == Reg.RXC_NCO_FREQ || inArr Reg.RXC_CNCOn || inArr Reg.RXC_CARn

/-- The commit limits of R55 over the carriers with EN = 1. -/
def carriersAllowed (cs : List Car) : Bool :=
  let on := cs.filter (·.en)
  let sum (f : Car → Nat) := (on.map f).sum
  sum (fun c => (c.dll + 1) * c.nrb * 12 * c.hz) ≤ 12800000000
    && sum (fun c => (c.ulb + 1) * c.nrb * 12 * c.hz) ≤ 12800000000
    && sum (fun c => c.nrb * 12 * c.hz) ≤ 800000000
    && on.all Car.valid && (on.all (·.fdd) || on.all (fun c => !c.fdd))

/-- The effect of a write to `LNK_CAR_COMMIT` (R53): REFUSED clears where written 1; GO judges the held definitions and holds
them for the first frame boundary at least 100 us later, or refuses them; GO while GO reads 1 is ignored and recorded. -/
def carrierCommit (r : Req) (v : Word) (s : State) : State :=
  let s := if getBits Fld.LNK_CAR_COMMIT_REFUSED v = 1 then s.put Fld.LNK_CAR_COMMIT_REFUSED 0 else s
  if getBits Fld.LNK_CAR_COMMIT_GO v = 0 then s
  else if s.flag Fld.LNK_CAR_COMMIT_GO then s.refuse4 r Reg.LNK_CAR_COMMIT
  else if carriersAllowed ((List.range 8).map s.carHeld) then
    { s.put Fld.LNK_CAR_COMMIT_GO 1 with
      carPend := some ⟨frameAfter100 s.now, s.regs.filter (fun c => carrierReg c.1), []⟩ }
  else (s.put Fld.LNK_CAR_COMMIT_REFUSED 1).raise 0x417 0xFF 0

/-- CARRIER_COMMIT_GO (R53, R55). -/
def execCarrierCommitGo (r : Req) (v : Word) (s : State) : Host.Outcome State Fault Refusal :=
  .next (regCmd r Reg.LNK_CAR_COMMIT v (carrierCommit r v) s)

/-- A write to one of the carrier registers (R53, R99, R127): it is stored; where the register has a PEND bit it reads
1; while GO reads 1 it belongs to the following commit. -/
def carrierRegWrite (r : Req) (a : Nat) (v : Word) (s : State) : State :=
  let s := s.storeReg r a v
  let la := localAddr a
  let s := if la == Reg.TXC_NCO_FREQ || la == Reg.RXC_NCO_FREQ || (Reg.TXC_CNCOn ≤ la && la < Reg.TXC_CNCOn + 32)
      || (Reg.RXC_CNCOn ≤ la && la < Reg.RXC_CNCOn + 32) then s.wr a (s.rd a ||| 0x80000000#32) else s
  match s.carPend with
  | some p => { s with carPend := some { p with dirty := a :: p.dirty } }
  | none => s

/-! ### Real-time control messages (R56 to R61, R74) -/

/-- A rejected descriptor or weight message is counted and captured as R47 captures (R58). -/
def rtcReject (reason dir car secId cnt : Nat) (s : State) : State :=
  let s := s.inc (Fld.LNK_RTC_CNTn_COUNT.i cnt)
  if s.flag Fld.LNK_RTC_REJ_VALID then s
  else
    let w := 2 ^ 31 + reason * 2 ^ 27 + dir * 2 ^ 26 + car * 2 ^ 23 + secId
    (s.wr Reg.LNK_RTC_REJ (BitVec.ofNat 32 w)).raise 0x415 0xFF w

/-- The descriptor that three words spell under a message header (R56, R57). -/
def descOfWords (s : State) (hdr w0 w1 w2 : Nat) : Desc :=
  let car := hdr / 2 ^ 24 % 8
  let c := s.car car
  let y : SymId := ⟨hdr / 65536 % 256, hdr / 4096 % 16, hdr / 256 % 16, 0⟩
  let ss := w0 / 128 % 16
  let ns := w0 / 8 % 16
  { car := car, dir := hdr / 2 ^ 27 % 2, layer := w0 / 65536 % 16, frame := y.frame, sub := y.sub, slot := y.slot,
    startSym := ss, numSym := ns, startPrb := w1 / 2 ^ 23, numPrb := w1 / 2 ^ 14 % 512, wsrc := w0 / 2 ^ 14 % 4,
    prbg := w0 / 2048 % 8, wref := w1 % 2 ^ 14, atten := w2 / 2 ^ 24, secId := w0 / 2 ^ 20,
    endAt := s.airStart c { y with sym := ss + ns } }

/-- Is a carrier defined in a direction (R53, R511)? Direction 0 is downlink. -/
def State.carDefined (s : State) (n dir : Nat) : Bool :=
  let c := s.car n
  let mw := if dir = 0 then s.eget (Fld.LNK_DL_CARn_MW.i n) else s.eget (Fld.LNK_UL_CARn_MW.i n)
  let f := if dir = 0 then s.eget (Fld.LNK_DL_CARn_FFTSZ.i n) else s.eget (Fld.LNK_UL_CARn_FFTSZ.i n)
  c.en && 8 ≤ mw && mw ≤ 16 && fftValid f c

/-- Do two descriptors name a common carrier, direction, layer, slot, symbol and PRB (R61)? -/
def Desc.overlaps (d e : Desc) : Bool :=
  d.car == e.car && d.dir == e.dir && d.layer == e.layer && d.frame == e.frame && d.sub == e.sub && d.slot == e.slot
    && d.startSym < e.startSym + e.numSym && e.startSym < d.startSym + d.numSym
    && d.startPrb < e.startPrb + e.numPrb && e.startPrb < d.startPrb + d.numPrb

/-- The symbols of one slot of a carrier that element mode covers, with one more descriptor (R74). -/
def elemSyms (ds : List Desc) (d : Desc) : Nat :=
  ((List.range 14).filter fun n => (d :: ds).any fun e => e.wsrc = 3 && e.car == d.car && e.frame == d.frame && e.sub == d.sub
    && e.slot == d.slot && e.startSym ≤ n && n < e.startSym + e.numSym).length

/-- Has carrier `c` the reference numerology (R68)? DEDUCED: the spacing and the cyclic prefix, which R54 makes one row of its table, are compared, and
an LTE carrier counts as 15 kHz with the normal prefix (log 30). -/
def Car.sameNum (c ref : Car) : Bool := ref.en && ref.num == c.num && ref.ecp == c.ecp

/-- The reason a descriptor is rejected, or 0 (R58, R59, R60, R74). `w0`, `w2` carry the reserved bits. DESIGN CHOICE (log 31): of several reasons the
first in the order of REASON is recorded; PRBG 5 to 7 counts as reserved (8), SUBFRAME above 9 or SLOT beyond the subframe as a symbol range (4). -/
def descReason (s : State) (d : Desc) (w0 w2 : Nat) : Nat :=
  let c := s.car d.car
  let ref := s.car (s.eget Fld.LNK_WCFG_REFCAR)
  let air := s.airStart c ⟨d.frame, d.sub, d.slot, d.startSym⟩
  let close := if d.dir = 0 then air - s.tDlOf d.car - 10 * usU else air - 20 * usU
  if !s.carDefined d.car d.dir then 2
  else if (if d.dir = 0 then c.dll else c.ulb) < d.layer then 3
  else if 9 < d.sub ∨ slotsPerSub c.num ≤ d.slot ∨ d.numSym = 0 ∨ c.syms < d.startSym + d.numSym then 4
  else if d.numPrb = 0 ∨ c.nrb < d.startPrb + d.numPrb then 5
  else if (d.wsrc = 0 ∧ 8191 < d.wref) ∨ (d.wsrc = 1 ∧ 12287 < d.wref) then 6
  else if (d.wsrc = 3 ∧ d.dir = 0) ∨ (d.wsrc = 1 ∧ ¬c.sameNum ref) then 7
  else if w0 % 8 ≠ 0 ∨ w2 % 2 ^ 24 ≠ 0 ∨ (d.wsrc = 1 ∧ 4 < d.prbg) then 8
  else if close < s.now then 9
  else if s.now + msU < air then 10
  else if 4096 ≤ (s.rtc.descs.filter fun e => s.now < e.endAt).length then 11
  else if d.wsrc = 3 ∧ 4 < elemSyms s.rtc.descs d then 14
  else 0

/-- One descriptor is accepted or rejected whole; an accepted one that overlaps an earlier one is counted, and one whose
slot-table direction excludes its own is counted (R58, R61). -/
def takeDesc (hdr : Nat) (w0 w1 w2 : Nat) (s : State) : State :=
  let d := descOfWords s hdr w0 w1 w2
  let reason := if hdr / 2 ^ 28 ≠ 1 then 1 else descReason s d w0 w2
  if reason ≠ 0 then rtcReject reason d.dir d.car d.secId 0 s
  else
    let s := if s.rtc.descs.any (fun e => e.overlaps d) then s.inc (Fld.LNK_RTC_CNTn_COUNT.i 1) else s
    { s with rtc := { s.rtc with descs := (s.rtc.descs.filter fun e => s.now < e.endAt + msU) ++ [d] } }

/-- The descriptors of a message body, three words each. -/
def takeDescs (hdr : Nat) : List Word → State → State
  | w0 :: w1 :: w2 :: t, s => takeDescs hdr t (takeDesc hdr w0.toNat w1.toNat w2.toNat s)
  | _, s => s

/-- The slot of a frame in the reference numerology that a header names (R68). -/
def refSlot (num hdr : Nat) : Nat := hdr / 4096 % 16 * slotsPerSub num + hdr / 256 % 16

/-- The hamlets that take explicit weights: those in service (R349). -/
def State.weightHamlets (s : State) : List (Fin 8) := (List.finRange 8).filter s.inService

/-- `BFM_BASES` as it stands for an access at `t` (R67): a change that waits counts from the instant at which it takes effect. -/
def State.basesAt (s : State) (h : Fin 8) (t : Nat) : Word :=
  match s.bfm[h].basesDue with
  | some d => if d ≤ t then s.rd (hamletBase h + Reg.BFM_BASES) else s.erd (hamletBase h + Reg.BFM_BASES)
  | none => s.erd (hamletBase h + Reg.BFM_BASES)

/-- `BFM_BASES` as it was for a symbol with air start `air` (R63, R67): the word that the first later change replaced, else the one at that instant. -/
def State.basesFor (s : State) (h : Fin 8) (air : Nat) : Word :=
  match (s.bfm[h].was.filter fun p => decide (air < p.1)).foldl (fun (m : Option (Nat × Word)) p => match m with
      | none => some p
      | some q => if p.1 < q.1 then some p else some q) none with
  | some p => p.2
  | none => s.basesAt h air

/-- The base of an explicit-weight bank in hamlet `h` that a `BFM_BASES` word gives (R67, R68). -/
def bankBase (h : Fin 8) (bank : Nat) (w : Word) : Nat :=
  hamletBase h + (if bank = 0 then getBits Fld.BFM_BASES_WBANK0 w else getBits Fld.BFM_BASES_WBANK1 w) * 65536

/-- The base of the beam shadow or slice in hamlet `h` that a `BFM_BASES` word gives (R64, R65, R67). -/
def beamBase (h : Fin 8) (shadow : Bool) (w : Word) : Nat :=
  hamletBase h + (if shadow then getBits Fld.BFM_BASES_SHADOW w else getBits Fld.BFM_BASES_SLICE w) * 65536

/-- Writes vector `vec` of a bank: weights 8h to 8h+7 into hamlet h, I in the low half (R64, R69). -/
def writeVector (bank vec : Nat) (ws : List Word) (s : State) : State :=
  s.weightHamlets.foldl (fun s (h : Fin 8) =>
    let base := bankBase h bank (s.basesAt h s.now)
    (s.access 19 false (base + 32 * vec) 32 true).putLE (base + 32 * vec) 32 ((List.range 8).foldl (fun n k =>
      let w := (ws.getD (8 * h + k) 0#32).toNat
      n + (w / 65536 + w % 65536 * 65536) * 2 ^ (32 * k)) 0)) s

/-- The address of weight `k` of a vector of a bank in hamlet `h`, for a symbol with air start `air`. -/
def State.vectorAddr (s : State) (h : Fin 8) (bank vec k air : Nat) : Nat := bankBase h bank (s.basesFor h air) + 32 * vec + 4 * k

/-- Before a vector is rewritten for a later slot, the copy that symbols on air use is kept (R70). -/
def keepVector (bank vec : Nat) (s : State) : State :=
  if s.rtc.prev.contains (bank, vec) && !s.rtc.old.any (fun o => o.bank == bank && o.vec == vec) then
    let w := (List.finRange 8).flatMap fun (h : Fin 8) => (List.range 8).map fun k => s.memLE (s.vectorAddr h bank vec k s.now) 4
    { s with rtc := { s.rtc with old := ⟨bank, vec, w⟩ :: s.rtc.old } }
  else s

/-- Does the write of a vector wait: for a frozen arbiter of a hamlet in service, or for the copy of a row (R283, R292)? -/
def State.vectorWaits (s : State) (bank vec : Nat) : Bool :=
  s.weightHamlets.any fun h => s.flag (Fld.ARB_CTRL_FREEZE.h h) || s.rowBusy (s.vectorAddr h bank vec 0 s.now) 32

/-- A vector is written in all in-service hamlets and becomes valid in its bank (R70). -/
def putVector (bank vec : Nat) (ws : List Word) (s : State) : State :=
  let s := writeVector bank vec ws (keepVector bank vec s)
  if s.rtc.valid.contains (bank, vec) then s else { s with rtc := { s.rtc with valid := (bank, vec) :: s.rtc.valid } }

/-- A vector that waits at the arbiters (R292): it is not written, and stays invalid, until they grant it. -/
def holdVector (bank vec : Nat) (ws : List Word) (s : State) : State :=
  let s := s.weightHamlets.foldl (fun s (h : Fin 8) => s.access 19 false (s.vectorAddr h bank vec 0 s.now) 32 false) s
  { s with rtc := { s.rtc with held := s.rtc.held ++ [⟨bank, vec, ws.map BitVec.toNat⟩] } }

/-- The vectors of a KIND 1 body, 64 words each, from vector `vec`; each becomes valid in its bank (R70), or waits (R292). -/
def writeVectors (bank : Nat) : Nat → Nat → List Word → State → State
  | 0, _, _, s => s
  | n + 1, vec, ws, s =>
    writeVectors bank n (vec + 1) (ws.drop 64)
      (if s.rtc.held.isEmpty && !s.vectorWaits bank vec then putVector bank vec (ws.take 64) s else holdVector bank vec (ws.take 64) s)

/-- The vectors that wait are written, in their order, up to one that waits on (R292). -/
def releaseVectors : List OldVec → State → State
  | [], s => s
  | v :: t, s =>
    if s.vectorWaits v.bank v.vec then s
    else releaseVectors t (putVector v.bank v.vec (v.w.map (BitVec.ofNat 32)) { s with rtc := { s.rtc with held := t } })

/-- The reason a KIND 1 message is rejected whole, or 0 (R58, R69); `b` is its second word. DESIGN CHOICE (log 32): EN = 0 is recorded with 13, an
undefined reference carrier with 2. -/
def weightReason (s : State) (hdr b : Nat) : Nat :=
  let rc := s.eget Fld.LNK_WCFG_REFCAR
  let c := s.car rc
  let slotAt := s.airStart c ⟨hdr / 65536 % 256, hdr / 4096 % 16, hdr / 256 % 16, 0⟩
  if hdr / 2 ^ 28 ≠ 1 then 1
  else if s.get Fld.LNK_WCFG_EN = 0 then 13
  else if !c.en then 2
  else if 12288 < b / 2 ^ 18 + (b / 4096 % 64 + 1) then 6
  else if b % 4096 ≠ 0 then 8
  else if 9 < hdr / 4096 % 16 ∨ slotsPerSub c.num ≤ hdr / 256 % 16 ∨ s.now < slotBefore c.num c.ecp slotAt
      ∨ slotAt - s.tDlOf rc - 10 * usU < s.now then 12
  else 0

/-- A KIND 1 message (R69): rejected whole outside its window or range, or with EN = 0; else its vectors are written. DESIGN CHOICE (log 33): the bank is
that of R68, the slot of the frame modulo 2, where SLOT of a 15 kHz carrier, which is always 0, would name bank 0 alone. -/
def weightMessage (hdr : Nat) (body : List Word) (s : State) : State :=
  let b := (body.headD 0#32).toNat
  let reason := weightReason s hdr b
  if reason ≠ 0 then rtcReject reason (hdr / 2 ^ 27 % 2) (hdr / 2 ^ 24 % 8) 0 4 s
  else writeVectors (refSlot (s.car (s.eget Fld.LNK_WCFG_REFCAR)).num hdr % 2) (b / 4096 % 64 + 1) (b / 2 ^ 18) body.tail (releaseVectors s.rtc.held s)

/-- A real-time control message's payload (R56): KIND 0 descriptors, KIND 1 explicit weights, others rejected. A body whose length
does not match its header is counted as a malformed message in `LNK_CNTn`, n = 6 (R190). -/
def rtcMessage (words : List Word) (s : State) : State :=
  match words with
  | [] => s.inc (Fld.LNK_CNTn_COUNT.i 6)
  | w :: body =>
    let hdr := w.toNat
    if hdr / 64 % 4 = 0 then
      if body.length = 3 * (hdr % 64 + 1) then takeDescs hdr body s else s.inc (Fld.LNK_CNTn_COUNT.i 6)
    else if hdr / 64 % 4 = 1 then
      if body.length = 1 + 64 * ((body.headD 0#32).toNat / 4096 % 64 + 1) then weightMessage hdr body s
      else s.inc (Fld.LNK_CNTn_COUNT.i 6)
    else rtcReject (if hdr / 2 ^ 28 ≠ 1 then 1 else 13) (hdr / 2 ^ 27 % 2) (hdr / 2 ^ 24 % 8) 0 0 s

/-- RTC_MESSAGE (R56 to R61): a message whose last word arrives at `t`. -/
def execRtcMessage (m : Hdr) (words : List Word) (t : Nat) (s : State) : Host.Outcome State Fault Refusal :=
  .next (takeMsg m 2 (4 + 4 * words.length) (rtcMessage words) (s.at t))

/-- EXPLICIT_WEIGHT_MESSAGE (R69): a message whose last word arrives at `t`. -/
def execExplicitWeightMessage (m : Hdr) (words : List Word) (t : Nat) (s : State) : Host.Outcome State Fault Refusal :=
  .next (takeMsg m 2 (4 + 4 * words.length) (rtcMessage words) (s.at t))

/-- All validity bits of a bank clear; symbols already on air keep the bank as it stands (R70). A vector that still waits to be written is given up (log 121). -/
def clearBank (b : Fin 2) (s : State) : State :=
  { s with rtc := { s.rtc with
    valid := s.rtc.valid.filter (fun p => p.1 != b.val)
    cleared := s.rtc.cleared.set b s.now
    prev := s.rtc.prev.filter (fun p => p.1 != b.val) ++ s.rtc.valid.filter (fun p => p.1 == b.val)
    old := s.rtc.old.filter fun o => o.bank != b.val
    held := s.rtc.held.filter fun o => o.bank != b.val } }

/-- The number within its frame of the slot of a carrier that begins at `t`. -/
def slotOfFrame (c : Car) (t : Nat) : Nat := t % frameU / msU * slotsPerSub c.num + slotIn c.num c.ecp t

/-- The next instant at which a bank ceases to be in use (R70): the next air start of a reference slot whose successor uses the bank. None without a
reference carrier. -/
def State.bankFree (s : State) (bank : Fin 2) : Option Nat :=
  let c := s.car (s.eget Fld.LNK_WCFG_REFCAR)
  let t := slotFrom c.num c.ecp (max s.now (s.rtc.cleared[bank] + 1))
  if !c.en then none
  else if (slotOfFrame c t + 1) % 2 = bank.val then some t else some (slotNext c.num c.ecp t)

/-- WEIGHT_BANK_CLEAR (R70): at the air start of the slot before the bank's next use its validity bits clear. -/
def execWeightBankClear (bank : Fin 2) (s : State) : Host.Outcome State Fault Refusal :=
  .next (match s.bankFree bank with
    | none => s
    | some t => clearBank bank (s.at t))

/-- A write to `LNK_WCFG` (R70): EN stores at once, a change of REFCAR waits for the next frame boundary. -/
def wcfgWrite (r : Req) (v : Word) (s : State) : State :=
  let s' := s.storeReg r Reg.LNK_WCFG v
  if s'.get Fld.LNK_WCFG_REFCAR = s.get Fld.LNK_WCFG_REFCAR then s' else { s' with refcarDue := some (nextAfter s.now frameU) }

/-! ### The beam table (R64 to R67) -/

/-- A datapath region of a hamlet store: first byte and length, in the store (R38, R39). -/
abbrev Region := Nat × Nat

/-- Do two regions overlap? -/
def Region.meets (p q : Region) : Bool := p.1 < q.1 + q.2 && q.1 < p.1 + p.2

/-- Are regions inside the 3 MiB store and free of overlap (R39)? -/
def regionsOk : List Region → Bool
  | [] => true
  | p :: t => p.1 + p.2 ≤ 0x300000 && t.all (fun q => !p.meets q) && regionsOk t

/-- The four beam regions that a `BFM_BASES` word gives. -/
def beamRegions (w : Word) : List Region :=
  [(getBits Fld.BFM_BASES_SLICE w * 65536, 0x40000), (getBits Fld.BFM_BASES_SHADOW w * 65536, 0x40000),
   (getBits Fld.BFM_BASES_WBANK0 w * 65536, 0x60000), (getBits Fld.BFM_BASES_WBANK1 w * 65536, 0x60000)]

/-- The slot-table buffers that an `SLT_CFG` word gives. -/
def slotRegions (w : Word) : List Region :=
  [(getBits Fld.SLT_CFG_BASE_A w * 65536, 0x10000), (getBits Fld.SLT_CFG_BASE_B w * 65536, 0x10000)]

/-- The capture ring that an `ORX_RING` word gives: LEN groups of 28 bytes (R155, R158). -/
def ringRegion (w : Word) : List Region := [(getBits Fld.ORX_RING_BASE w * 65536, getBits Fld.ORX_RING_LEN w * 28)]

/-! The bases as they will stand at an instant (R39): a change that waits counts from the instant at which it takes effect. -/

/-- `SLT_CFG` at `t`. -/
def State.sltCfgAt (s : State) (h : Fin 8) (t : Nat) : Word :=
  match s.slt[h].swapDue with
  | some d => if d ≤ t then s.slt[h].cfgTaken else s.erd (hamletBase h + Reg.SLT_CFG)
  | none => s.erd (hamletBase h + Reg.SLT_CFG)

/-- The instant of the ring's next wrap in the running capture of hamlet `h` (R158), if it reaches one. -/
def State.ringWrap (s : State) (h : Fin 8) : Option Nat :=
  let left := s.eget (Fld.ORX_RING_LEN.h h) - s.orx[h].wpos
  match s.orx[h].cap with
  | none => none
  | some c =>
    let mult := if c.refsel = 0 then 1 else 2
    let n := (left + mult - 1) / mult
    if c.oneShot && decide (c.len < c.count + n) then none else some (c.first + (c.sample + 8 * n) * orxU)

/-- `ORX_RING` at `t`: a held LEN counts from the wrap on. -/
def State.ringAt (s : State) (h : Fin 8) (t : Nat) : Word :=
  let w := s.rd (hamletBase h + Reg.ORX_RING)
  let old := setBits Fld.ORX_RING_LEN w (s.eget (Fld.ORX_RING_LEN.h h))
  if getBits Fld.ORX_RING_PEND w = 0 then old
  else match s.ringWrap h with
    | some d => if d ≤ t then w else old
    | none => if s.now + secU ≤ t then w else old

/-- A rejected base write: recorded with reason 4 and notice 0x475 raised (R39). -/
def rejectBase (r : Req) (h : Fin 8) (a : Nat) (s : State) : State := ((s.badAccess r a 2 true 4).raise 0x475 h 0).ok

/-- A write to `BFM_BASES` (R39, R67): ignored and recorded while a commit is PEND or BUSY; ignored, recorded and
noticed when a region would break R39; else held for the next symbol boundary of the lowest-numbered defined carrier, or in
force at once with no carrier. -/
def bfmBasesWrite (r : Req) (h : Fin 8) (v : Word) (s : State) : State :=
  let a := hamletBase h + Reg.BFM_BASES
  if s.flag (Fld.BFM_COMMIT_STAT_PEND.h h) || s.flag (Fld.BFM_COMMIT_STAT_BUSY.h h) then s.refuse4 r a
  else
    let s1 := s.storeReg r a v
    let due := ((List.range 8).find? fun n => (s.car n).en).map fun n => nextSymbol (s.car n) s.now
    let t := due.getD s.now
    if regionsOk (beamRegions (s1.rd a) ++ slotRegions (s.sltCfgAt h t) ++ ringRegion (s.ringAt h t)) then
      match due with
      | none => s1.take a
      | some d => { s1 with bfm := s1.bfm.set h { s1.bfm[h] with basesDue := some d } }
    else rejectBase r h a s

/-- The commit instant that WHEN selects (R66); none while it waits for the chain or names no symbol. With CAR undefined
there is no boundary and the commit takes effect at once (log 12). -/
def bfmDue (s : State) (h : Fin 8) (whenCode car : Nat) : Option Nat :=
  let c := s.car car
  let w := s.rd (hamletBase h + Reg.BFM_COMMIT_AT)
  if whenCode = 0 then some (if c.en then nextSymbol c s.now else s.now)
  else if whenCode = 1 then
    if c.en then s.nextNamed c ⟨getBits Fld.BFM_COMMIT_AT_FRAME w, getBits Fld.BFM_COMMIT_AT_SUBFRAME w,
      getBits Fld.BFM_COMMIT_AT_SLOT w, getBits Fld.BFM_COMMIT_AT_SYM w⟩ else some s.now
  else none

/-- A write to `BFM_COMMIT_CTRL` (R66): CAR and WHEN store; GO makes a commit pending or is refused. -/
def bfmCommitGo (r : Req) (h : Fin 8) (v : Word) (s : State) : State :=
  let s := s.storeReg r (hamletBase h + Reg.BFM_COMMIT_CTRL) (v &&& 0xFFFFFFFE#32)
  if getBits Fld.BFM_COMMIT_CTRL_GO v = 0 then s
  else
    let first := s.get (Fld.BFM_COMMIT_RANGE_FIRST.h h)
    let count := s.get (Fld.BFM_COMMIT_RANGE_COUNT.h h)
    let wc := getBits Fld.BFM_COMMIT_CTRL_WHEN v
    let car := getBits Fld.BFM_COMMIT_CTRL_CAR v
    if s.flag (Fld.BFM_COMMIT_STAT_PEND.h h) || s.flag (Fld.BFM_COMMIT_STAT_BUSY.h h) || count == 0
        || decide (8192 < first + count) || wc == 3 then s.put (Fld.BFM_COMMIT_STAT_REFUSED.h h) 1
    else
      let s := (s.put (Fld.BFM_COMMIT_STAT_PEND.h h) 1).put (Fld.BFM_COMMIT_CTRL_GO.h h) 1
      { s with bfm := s.bfm.set h { s.bfm[h] with pend := some ⟨first, count, wc, car, bfmDue s h wc car⟩ } }

/-- BFM_COMMIT_GO (R66). -/
def execBfmCommitGo (r : Req) (h : Fin 8) (v : Word) (s : State) : Host.Outcome State Fault Refusal :=
  .next (regCmd r (hamletBase h + Reg.BFM_COMMIT_CTRL) v (bfmCommitGo r h v) s)

/-- The entries of a commit's range as the slice holds them until the commit's instant (R63). -/
def sliceEntries (h : Fin 8) (p : BfmPend) (till : Nat) (s : State) : List OldBeam :=
  let sl := beamBase h false (s.basesAt h till)
  (List.range p.count).map fun n =>
    { entry := p.first + n, w := (List.range 8).map fun k => s.memLE (sl + 32 * (p.first + n) + 4 * k) 4,
      exp := s.get (((Fld.BFM_EXPn_EXP.i ((p.first + n) / 8)).sub ((p.first + n) % 8)).h h), till := till }

/-- Copies the committed entries of the shadow and its exponents into the slice (R65); a word that reads uncorrected is written poisoned (R280). -/
def copyBeams (h : Fin 8) (p : BfmPend) (s : State) : State :=
  let sh := beamBase h true (s.basesAt h s.now)
  let sl := beamBase h false (s.basesAt h s.now)
  (List.range p.count).foldl (fun s n =>
    let i := p.first + n
    let s := (List.range 4).foldl (fun s k =>
      let c := s.checkRead 18 false (sh + 32 * i + 8 * k) 8
      if c.2 then c.1.poison (sl + 32 * i + 8 * k)
      else c.1.putLE (sl + 32 * i + 8 * k) 8 (c.1.memLE (sh + 32 * i + 8 * k) 8)) s
    s.put (((Fld.BFM_EXPn_EXP.i (i / 8)).sub (i % 8)).h h) (s.get (((Fld.BFM_SEXPn_EXP.i (i / 8)).sub (i % 8)).h h))) s

/-- Is an address a shadow exponent register (R67)? -/
def sexpReg (a : Nat) : Bool := decide (Reg.BFM_SEXPn ≤ localAddr a) && decide (localAddr a < Reg.BFM_SEXPn + 4096)

/-- The copy of a commit ends (R65, R67): BUSY clears, DONE is set, 0xFFF0 is posted. -/
def endBeamCopy (h : Fin 8) (p : BfmPend) (s : State) : State :=
  let s := ((copyBeams h p s).put (Fld.BFM_COMMIT_STAT_BUSY.h h) 0).put (Fld.BFM_COMMIT_STAT_DONE.h h) 1
  let s := s.notify h 0xFFF0
  { s with bfm := s.bfm.set h { s.bfm[h] with copying := none } }

/-- Does a beam copy wait: for a frozen arbiter, or for the copy of a row of the slice (R283, R292)? -/
def State.copyWaits (s : State) (h : Fin 8) : Bool :=
  s.flag (Fld.ARB_CTRL_FREEZE.h h) || (match s.bfm[h].copying with
    | none => false
    | some p => s.rowBusy (beamBase h false (s.basesAt h s.now) + 32 * p.first) (32 * p.count))

/-- Does a store write to the shadow fall inside a range being copied, so that it stalls at the arbiter (R65)? -/
def State.shadowBusy (s : State) (h : Fin 8) (a : Nat) : Bool :=
  match s.bfm[h].copying with
  | none => false
  | some p =>
    let sh := beamBase h true (s.basesAt h s.now)
    decide (sh + 32 * p.first ≤ a) && decide (a < sh + 32 * (p.first + p.count))

/-- Does a write to a shadow exponent register name an entry of a range being copied, so that it stalls with the rest of the shadow (R65)? -/
def State.sexpBusy (s : State) (h : Fin 8) (a : Nat) : Bool :=
  match s.bfm[h].copying with
  | none => false
  | some p =>
    let n := (localAddr a - Reg.BFM_SEXPn) / 4 * 8
    sexpReg a && decide (p.first < n + 8) && decide (n < p.first + p.count)

/-- Does a commit's range hold entry `i`? -/
def BfmPend.holds (p : BfmPend) (i : Nat) : Bool := decide (p.first ≤ i) && decide (i < p.first + p.count)

/-- Entry `i` as it was for a symbol with air start `air`, if a commit after that instant has replaced it: the copy that the first such commit kept (R63). -/
def State.oldBeam (s : State) (h : Fin 8) (i air : Nat) : Option OldBeam :=
  (s.bfm[h].old.filter fun o => o.entry == i && decide (air < o.till)).foldl (fun m o => match m with
    | none => some o
    | some x => if o.till < x.till then some o else some x) none

/-- Where the weights of entry `i` stand for a symbol with air start `air` (R63, R65): none for the kept copy of what a later
commit replaced, else the shadow or the slice. -/
def State.beamSource (s : State) (h : Fin 8) (i air : Nat) : Option Bool :=
  let b := s.bfm[h]
  let dueBy := match b.pend with
    | some p => (match p.due with | some d => decide (d ≤ air) && p.holds i | none => false)
    | none => false
  let copying := match b.copying with | some p => p.holds i | none => false
  if (s.oldBeam h i air).isSome then none
  else if dueBy then some true
  else some copying

/-- Weight `k` of beam entry `i` in hamlet `h` for a symbol with air start `air`, Q1.15 components (R63, R64). -/
def State.beamWeight (s : State) (h : Fin 8) (i k air : Nat) : Int × Int :=
  let w := match s.beamSource h i air with
    | none => (match s.oldBeam h i air with | some o => o.w.getD k 0 | none => 0)
    | some sh =>
      s.memLE (beamBase h sh (s.basesFor h air) + 32 * i + 4 * k) 4
  (signed 16 (w % 65536), signed 16 (w / 65536))

/-- The gain exponent of beam entry `i` for a symbol with air start `air` (R63, R64). -/
def State.beamExp (s : State) (h : Fin 8) (i air : Nat) : Nat :=
  match s.beamSource h i air with
  | none => (match s.oldBeam h i air with | some o => o.exp | none => 0)
  | some true => s.get (((Fld.BFM_SEXPn_EXP.i (i / 8)).sub (i % 8)).h h)
  | some false => s.get (((Fld.BFM_EXPn_EXP.i (i / 8)).sub (i % 8)).h h)

/-- Is an explicit vector valid for a symbol with air start `air` (R70)? A change of REFCAR that waits clears both banks at its frame boundary. -/
def State.vectorValid (s : State) (bank : Fin 2) (vec air : Nat) : Bool :=
  if (match s.refcarDue with | some d => decide (d ≤ air) | none => false) then false
  else if air < s.rtc.cleared[bank] then s.rtc.prev.contains (bank.val, vec) else s.rtc.valid.contains (bank.val, vec)

/-- Weight `k` of explicit vector `vec` of a bank in hamlet `h` for a symbol with air start `air` (R64, R70). -/
def State.explicitWeight (s : State) (h : Fin 8) (bank : Fin 2) (vec k air : Nat) : Int × Int :=
  let cur := s.memLE (s.vectorAddr h bank vec k air) 4
  let w := if air < s.rtc.cleared[bank] then
      (match s.rtc.old.find? (fun o => o.bank == bank.val && o.vec == vec) with
        | some o => o.w.getD (8 * h + k) 0
        | none => cur)
    else cur
  (signed 16 (w % 65536), signed 16 (w / 65536))

/-! ### Governing descriptors (R61, R68) -/

/-- Does a descriptor cover a symbol with air start `air`? -/
def Desc.coversSym (d : Desc) (y : SymId) (air : Nat) : Bool :=
  d.frame == y.frame && d.sub == y.sub && d.slot == y.slot && d.startSym ≤ y.sym && y.sym < d.startSym + d.numSym
    && air < d.endAt && d.endAt ≤ air + 2 * msU

/-- The descriptor that governs a PRB of a layer or beam output: the covering one accepted last (R61). -/
def State.governing (s : State) (car dir layer : Nat) (y : SymId) (air prb : Nat) : Option Desc :=
  (s.rtc.descs.reverse).find? fun d => d.car == car && d.dir == dir && d.layer == layer && d.coversSym y air
    && d.startPrb ≤ prb && prb < d.startPrb + d.numPrb

/-- The PRB group of a descriptor that holds a PRB (R68). -/
def Desc.group (d : Desc) (prb : Nat) : Nat := (prb - d.startPrb) / 2 ^ d.prbg

/-- The bank of a symbol's slot (R68). -/
def bankOf (num : Nat) (y : SymId) : Fin 2 := Fin.ofNat 2 (y.sub * slotsPerSub num + y.slot)

/-- Where the eight weights of a descriptor's PRB group stand in hamlet `h`, if a store holds them. -/
def State.weightSpan (s : State) (h : Fin 8) (d : Desc) (num : Nat) (y : SymId) (air prb : Nat) : Option Nat :=
  if d.wsrc = 0 then
    (s.beamSource h d.wref air).map fun sh => beamBase h sh (s.basesFor h air) + 32 * d.wref
  else if d.wsrc = 1 ∧ s.vectorValid (bankOf num y) (d.wref + d.group prb) air then
    some (s.vectorAddr h (bankOf num y) (d.wref + d.group prb) 0 air)
  else none

/-- Does the weight read of a PRB group meet an uncorrected word (R280)? -/
def State.weightError (s : State) (h : Fin 8) (d : Desc) (num : Nat) (y : SymId) (air prb : Nat) : Bool :=
  match s.weightSpan h d num y air prb with
  | some a => s.uncorrected a 32
  | none => false

/-- The weight reads of a symbol are decoded (R278, R280): what they find is recorded, and the groups that meet an uncorrected word are counted as
empty weight prefetches. -/
def noteWeights (hs : List (Fin 8)) (ds : List (Desc × Nat)) (num : Nat) (y : SymId) (air : Nat) (s : State) : State :=
  let bad := (ds.filter fun x => hs.any fun h => s.weightError h x.1 num y air x.2).map fun x => (x.1.layer, x.1.startPrb, x.1.group x.2)
  let spans := (hs.flatMap fun h => ds.filterMap fun x => s.weightSpan h x.1 num y air x.2).eraseDups
  (spans.foldl (fun s a => (s.checkRead 18 false a 32).1) s).add (Fld.LNK_RTC_CNTn_COUNT.i 5) bad.eraseDups.length

/-- The weight of element `k` of hamlet `h` and the gain exponent that a descriptor gives at a PRB; none for zero weights (R57, R62,
R70, R280). -/
def State.descWeight (s : State) (h : Fin 8) (k : Nat) (d : Desc) (num : Nat) (y : SymId) (air prb : Nat) : Option ((Int × Int) × Nat) :=
  if s.weightError h d num y air prb then none
  else if d.wsrc = 0 then some (s.beamWeight h d.wref k air, s.beamExp h d.wref air)
  else if d.wsrc = 1 then
    if s.vectorValid (bankOf num y) (d.wref + d.group prb) air then
      some (s.explicitWeight h (bankOf num y) (d.wref + d.group prb) k air, 0)
    else none
  else none

/-- Descriptors that cover a symbol whose slot-table direction excludes theirs are counted once (R61). -/
def wrongDir (car dir : Nat) (y : SymId) (air : Nat) (s : State) : State :=
  let hit (d : Desc) : Bool := d.car == car && d.dir == dir && d.coversSym y air && !d.wrong
  let n := (s.rtc.descs.filter hit).length
  let ds := s.rtc.descs.map fun (d : Desc) => if hit d then { d with wrong := true } else d
  { s.add (Fld.LNK_RTC_CNTn_COUNT.i 2) n with rtc := { s.rtc with descs := ds } }

/-! ### The hamlet mask (R72, R73, R484) -/

/-- The safety state of hamlet `h` ends (R106, R485): SAFE clears and the pins are its owners' again; MUTE stays 1, so the paths stay at zero code. While the
ramp or a safety clear still runs, its sequence goes on and the state stands at its end (log 34). -/
def endSafety (s : State) (h : Fin 8) : State :=
  if s.tx[h].rampEnd.isSome || s.flt.isoStep[h] != 0 then s
  else (if s.hstate h = 0 then s else s.put (Fld.TXC_STAT_SAFE.h h) 0).unforcePins h

/-- Sets HMASK bit `h`: re-admission clears ISOh and ends the safety state, and the hamlet rejoins at the next frame
boundary (R73, R106, R484), or when it has become ACTIVE (R349). -/
def admitHamlet (h : Fin 8) (s : State) : State :=
  let s := endSafety (s.clrBit Fld.FLT_STAT_ISO h) h
  match s.rejoin[h] with
  | some d => if notActive / 2 ≤ d then s else { s with rejoin := s.rejoin.set h (some (nextAfter s.now frameU)) }
  | none => { s with rejoin := s.rejoin.set h (some (nextAfter s.now frameU)) }

/-- A write to `LNK_ULC_CFG` (R484): each newly set bit of HMASK re-admits its hamlet, but for a hamlet whose isolation
is still running, whose bit stays 0 and which is recorded with reason 4. -/
def hmaskWrite (r : Req) (v : Word) (s : State) : State :=
  let old := s.get Fld.LNK_ULC_CFG_HMASK
  let s1 := s.storeReg r Reg.LNK_ULC_CFG v
  (List.finRange 8).foldl (fun s (h : Fin 8) =>
    if bitOf (getBits Fld.LNK_ULC_CFG_HMASK v) h && !bitOf old h then
      if 1 ≤ s.flt.isoStep[h] && s.flt.isoStep[h] ≤ 4 then (s.clrBit Fld.LNK_ULC_CFG_HMASK h).refuse4 r Reg.LNK_ULC_CFG
      else admitHamlet h s
    else s) s1

/-- HMASK_WRITE (R73, R484). -/
def execHmaskWrite (r : Req) (v : Word) (s : State) : Host.Outcome State Fault Refusal :=
  .next (regCmd r Reg.LNK_ULC_CFG v (hmaskWrite r v) s)

/-- HAMLET_REJOIN (R73, R349): the boundary at which the hamlet rejoins arrives. -/
def execHamletRejoin (h : Fin 8) (s : State) : Host.Outcome State Fault Refusal :=
  .next (match s.rejoin[h] with
    | none => s
    | some d => if notActive / 2 ≤ d then s else { s.at d with rejoin := s.rejoin.set h none })

end Sys2Proof.Machine
end

