-- ==== Sys2Proof/Machine/Slots.lean ====
section
/-!
DEFINITION. The slot-table sequencer and the front-end pins (R75 to R85).
-/

namespace Sys2Proof.Machine

/-- One slot-table action (R76, R78). -/
structure Action where
  type  : Nat
  sym   : Nat
  rsv   : Nat
  ticks : Int
  fine  : Nat
  arg   : Nat
  deriving DecidableEq, Repr, Inhabited

/-- The action that two words spell. -/
def actionOf (a b : Word) : Action :=
  let a := a.toNat
  let b := b.toNat
  { type := a / 2 ^ 28, sym := a / 2 ^ 24 % 16, rsv := a / 2 ^ 20 % 16, ticks := signed 20 (a % 2 ^ 20),
    fine := b / 2 ^ 20, arg := b % 2 ^ 20 }

/-- The actions of an entry: NACT of them (R76). -/
def actionsOf (ws : List Word) : List Action :=
  let n := (ws.headD 0#32).toNat / 2 ^ 28
  (List.range (min n 11)).map fun i => actionOf (ws.getD (2 + 2 * i) 0#32) (ws.getD (3 + 2 * i) 0#32)

/-- An action's time in fine steps after the slot's start (R78). -/
def Action.time (x : Action) (num : Nat) (ecp : Bool) (slot : Nat) : Int :=
  ((symInSlot num ecp slot x.sym : Int) + x.ticks) * 4096 + x.fine

/-- Are the times of a list non-decreasing? -/
def rising : List Int → Bool
  | [] => true
  | [_] => true
  | a :: b :: t => a ≤ b && rising (b :: t)

/-- Are the distinct times of a list at least 2 ticks apart (R78)? -/
def spaced : List Int → Bool
  | [] => true
  | a :: t => t.all (fun b => a == b || 8192 ≤ (b - a).natAbs) && spaced t

/-- The PINS times of an entry, which count as changes of every pin outside PINMASK (R78). -/
def pinTimes (ws : List Word) (num : Nat) (ecp : Bool) (slot pinmask : Nat) : List Int :=
  if pinmask % 4096 = 4095 then []
  else ((actionsOf ws).filter fun x => x.type == 1).map fun x => x.time num ecp slot

/-- Does an entry hold a symbol code that a duplex mode does not allow (R77)? With no carrier every code is allowed. -/
def dirmapBad (ws : List Word) (ecp : Bool) : Option Bool → Bool
  | none => false
  | some fdd => (List.range (symsOf ecp)).any fun n =>
      let c := (ws.headD 0#32).toNat / 4 ^ n % 4
      if fdd then c == 1 || c == 2 else c == 3

/-- The first check that an entry fails, as ERR_CODE, or 0 (R76, R77, R78, R79, R153). `slot` is its slot within the
subframe, `nextWs` the entry that follows it, `duplex` the duplex mode of the carriers in force. -/
def entryError (ws nextWs : List Word) (num : Nat) (ecp : Bool) (slot nextSlot pinmask : Nat) (duplex : Option Bool) : Nat :=
  let w0 := (ws.headD 0#32).toNat
  let w1 := (ws.getD 1 0#32).toNat
  let acts := actionsOf ws
  let live := acts.filter fun x => x.type != 0
  let times := live.map fun x => x.time num ecp slot
  let lim : Int := (slotLen num ecp slot : Int) * 4096
  let pins := pinTimes ws num ecp slot pinmask
  let after := (pinTimes nextWs num ecp nextSlot pinmask).map fun t => t + lim
  if 11 < w0 / 2 ^ 28 then 1
  else if acts.any (fun x => 3 < x.type) then 2
  else if live.any (fun x => symsOf ecp ≤ x.sym) || times.any (fun t => t < -100663296 || lim < t) then 3
  else if !rising times then 4
  else if !(spaced pins && pins.all fun a => after.all fun b => a == b || 8192 ≤ (b - a).natAbs) then 5
  else if w1 / 2 ^ 28 ≠ 0 || live.any (fun x => x.rsv != 0) || live.any (fun x => x.type == 2 && 16 ≤ x.arg) then 6
  else if dirmapBad ws ecp duplex then 9
  else 0

/-- The 24 words of an entry in a buffer. -/
def State.entryWordsAt (s : State) (base entry : Nat) : List Word :=
  (List.range 24).map fun n => s.mem32 (base + 96 * entry + 4 * n)

/-- Slots per frame of a numerology. -/
def slotsPerFrame (num : Nat) : Nat := 10 * slotsPerSub num

/-- The number of entries of a pattern (R75). -/
def patternLen (cfg : Word) : Nat := 2 ^ getBits Fld.SLT_CFG_FRAMES cfg * slotsPerFrame (getBits Fld.SLT_CFG_REFNUM cfg)

/-- The base of a buffer: 0 is A, 1 is B. -/
def bufferBase (h : Fin 8) (cfg : Word) (b : Nat) : Nat :=
  hamletBase h + (if b = 0 then getBits Fld.SLT_CFG_BASE_A cfg else getBits Fld.SLT_CFG_BASE_B cfg) * 65536

/-- The instant at which a commit that is checked now swaps (R80); with CHAIN = 1 none is known, and everything that waits is taken as in force (R77). -/
def State.swapBy (s : State) (h : Fin 8) : Nat := if s.flag (Fld.SLT_CTRL_CHAIN.h h) then s.now + 2 ^ 80 else frameAfter100 s.now

/-- The commit check over the free buffer (R80): ERR_ENTRY and ERR_CODE of the first failure, or none. DEDUCED (log 35): an entry that reads uncorrected has not
been checked, so it refuses the commit, with the code that R79 gives such a read. The check reads each entry through the store code (R280). -/
def slotCheck (s : State) (h : Fin 8) (cfg : Word) : State × Option (Nat × Nat) :=
  let num := getBits Fld.SLT_CFG_REFNUM cfg
  let ecp := s.refEcp num
  let n := patternLen cfg
  let free := bufferBase h cfg (1 - s.get (Fld.SLT_STAT_ACTIVE.h h))
  let t := s.swapBy h
  let dup := s.duplexAt t
  let pm := s.get (Fld.SLT_GAINCFG_PINMASK.h h)
  if 6 < getBits Fld.SLT_CFG_FRAMES cfg ∨ 640 < n then (s, some (0, 7))
  else if !regionsOk (slotRegions cfg ++ beamRegions (s.basesAt h t) ++ ringRegion (s.ringAt h t)) then (s, some (0, 8))
  else
    (List.range n).foldl (fun (acc : State × Option (Nat × Nat)) e => match acc.2 with
      | some _ => acc
      | none =>
        let x := acc.1.checkRead 18 false (free + 96 * e) 96
        if x.2 then (x.1, some (e, 10))
        else
          let c := entryError (x.1.entryWordsAt free e) (x.1.entryWordsAt free ((e + 1) % n)) num ecp
            (e % slotsPerSub num) ((e + 1) % slotsPerSub num) pm dup
          (x.1, if c = 0 then none else some (e, c))) (s, none)

/-- Records a slot-table failure: ERR_ENTRY, ERR_CODE and notice 0x427 with `SLT_STAT` (R79, R80, R475). -/
def slotFail (h : Fin 8) (entry code : Nat) (s : State) : State :=
  let s := (s.put (Fld.SLT_STAT_ERR_ENTRY.h h) entry).put (Fld.SLT_STAT_ERR_CODE.h h) code
  s.raise 0x427 h (s.rd (hamletBase h + Reg.SLT_STAT)).toNat

/-- A write to `SLT_CTRL` (R80, R82): CHAIN stores; a change of ENABLE waits for its frame boundary; COMMIT starts the
check of the free buffer unless a commit is checking or pending. DESIGN CHOICE (log 36): COMMIT, as GO of `SLT_EDIT`, has acted when the write ends and reads 0. -/
def sltCtrlWrite (r : Req) (h : Fin 8) (v : Word) (s : State) : State :=
  let old := s.get (Fld.SLT_CTRL_ENABLE.h h)
  let s := s.storeReg r (hamletBase h + Reg.SLT_CTRL) (v &&& 0xFFFFFFFD#32)
  let s := if s.get (Fld.SLT_CTRL_ENABLE.h h) = old then s
    else { s with slt := s.slt.set h { s.slt[h] with
      enables := s.slt[h].enables ++ [(frameAfter100 s.now, s.flag (Fld.SLT_CTRL_ENABLE.h h))] } }
  if getBits Fld.SLT_CTRL_COMMIT v = 0 || s.flag (Fld.SLT_STAT_PEND.h h) || s.flag (Fld.SLT_STAT_CHECKING.h h) then s
  else
    let s := s.put (Fld.SLT_STAT_CHECKING.h h) 1
    { s with slt := s.slt.set h { s.slt[h] with checking := true, cfgTaken := s.rd (hamletBase h + Reg.SLT_CFG) } }

/-- SLOT_TABLE_COMMIT (R80). -/
def execSlotTableCommit (r : Req) (h : Fin 8) (v : Word) (s : State) : Host.Outcome State Fault Refusal :=
  .next (regCmd r (hamletBase h + Reg.SLT_CTRL) v (sltCtrlWrite r h v) s)

/-- SLOT_TABLE_CHECK_END (R80): the commit is refused with ERR, or pends for its frame boundary; with CHAIN = 1 it waits
for the chain-wide command. Under FREEZE its reads wait, and it goes on (R292). -/
def execSlotTableCheckEnd (h : Fin 8) (s : State) : Host.Outcome State Fault Refusal :=
  .next (if !s.slt[h].checking || s.flag (Fld.ARB_CTRL_FREEZE.h h) then s
    else
      let res := slotCheck s h s.slt[h].cfgTaken
      let s := res.1
      let s := s.put (Fld.SLT_STAT_CHECKING.h h) 0
      let s := { s with slt := s.slt.set h { s.slt[h] with checking := false, checkEnd := s.now } }
      match res.2 with
      | some (e, c) => slotFail h e c (s.put (Fld.SLT_STAT_ERR.h h) 1)
      | none =>
        let s := s.put (Fld.SLT_STAT_PEND.h h) 1
        if s.flag (Fld.SLT_CTRL_CHAIN.h h) then s
        else { s with slt := s.slt.set h { s.slt[h] with swapDue := some (frameAfter100 s.now) } })

/-- SLOT_TABLE_SWAP (R80): at its frame boundary the buffers swap and the committed fields are in force; the slots of the old pattern that hold forced samples are counted
first (R114, R142). -/
def execSlotTableSwap (h : Fin 8) (s : State) : Host.Outcome State Fault Refusal :=
  .next (match s.slt[h].swapDue with
    | none => s
    | some d =>
      let s := (((s.at d).countTx h (d - 1)).countRx h (d - 1)).ewr (hamletBase h + Reg.SLT_CFG) s.slt[h].cfgTaken
      let s := (s.put (Fld.SLT_STAT_ACTIVE.h h) (1 - s.get (Fld.SLT_STAT_ACTIVE.h h))).put (Fld.SLT_STAT_PEND.h h) 0
      { s with slt := s.slt.set h { s.slt[h] with swapDue := none } })

/-- The pattern that governs a slot that starts at `t`: `SLT_CFG` in force and the active buffer, or those of a swap due by
then (R80). -/
def State.patternAt (s : State) (h : Fin 8) (t : Nat) : Word × Nat :=
  let act := s.get (Fld.SLT_STAT_ACTIVE.h h)
  match s.slt[h].swapDue with
  | some d => if d ≤ t then (s.slt[h].cfgTaken, 1 - act) else (s.erd (hamletBase h + Reg.SLT_CFG), act)
  | none => (s.erd (hamletBase h + Reg.SLT_CFG), act)

/-- Does the sequencer run for a slot that starts at `t` (R82)? -/
def State.seqRuns (s : State) (h : Fin 8) (t : Nat) : Bool :=
  (s.slt[h].enables.filter fun p => decide (p.1 ≤ t)).foldl (fun _ p => p.2) (s.eget (Fld.SLT_CTRL_ENABLE.h h) == 1)

/-- The air start of the next slot to latch: the first slot of REFNUM at least 100 us ahead that is not latched yet. -/
def State.nextSlotAt (s : State) (h : Fin 8) : Nat :=
  let num := s.eget (Fld.SLT_CFG_REFNUM.h h)
  let t := s.slt[h].latched.foldl (fun m l => max m (l.slotAt + 1)) (s.now + 100 * usU)
  slotFrom num (s.refEcp num) t

/-- The entry index of a slot (R75). -/
def State.entryIndex (s : State) (cfg : Word) (t : Nat) : Nat :=
  let num := getBits Fld.SLT_CFG_REFNUM cfg
  let f := (t / frameU + s.eget Fld.TIM_FRAME_FNOFF) % 1024
  f % 2 ^ getBits Fld.SLT_CFG_FRAMES cfg * slotsPerFrame num + t % frameU / msU * slotsPerSub num + slotIn num (s.refEcp num) t

/-- Does a running sweep gate its samples by the entries of hamlet `h`, and need those of a slot (R428)? -/
def State.gateNeeds (s : State) (h : Fin 8) (slotAt : Nat) : Bool :=
  s.flag Fld.WCH_SW_STAT_BUSY && s.flag Fld.WCH_SW_CFG_GATE && s.get Fld.WCH_SW_CFG_HAM == h.val && decide (s.wch.dwell ≤ slotAt + msU)

/-- Latches one slot's entry (R79, R83): the entry is read and checked; a good entry runs from the latched copy with LEAD, PINMASK
and the gain patterns as they stand; a bad or late one leaves its slot off, and BADLATCH, the count and notice 0x427 say so. -/
def latchSlot (h : Fin 8) (late : Bool) (s : State) : State :=
  let t := s.nextSlotAt h
  let s := s.at (t - 100 * usU)
  if !s.seqRuns h t then s
  else
    let (cfg, buf) := s.patternAt h t
    let num := getBits Fld.SLT_CFG_REFNUM cfg
    let base := bufferBase h cfg buf
    let n := patternLen cfg
    let e := s.entryIndex cfg t
    let pm := s.get (Fld.SLT_GAINCFG_PINMASK.h h)
    let rd := if late then (s, false) else s.checkRead 18 false (base + 96 * e) 96
    let s := rd.1
    let ws := s.entryWordsAt base e
    let code := if late || rd.2 then 10
      else entryError ws (s.entryWordsAt base ((e + 1) % n)) num (s.refEcp num)
        (e % slotsPerSub num) ((e + 1) % slotsPerSub num) pm (s.duplexAt t)
    let l : Latched := ⟨t, e, num, if code = 0 then ws else [], 0, s.get (Fld.SLT_GAINCFG_LEAD.h h), pm,
      (s.rd (hamletBase h + Reg.SLT_GAINPAT)).toNat, 0⟩
    let keep := s.slt[h].latched.filter fun x => decide (s.now < x.slotAt + 50 * msU) || s.gateNeeds h x.slotAt
    let s := { s with slt := s.slt.set h { s.slt[h] with latched := keep ++ [l] } }
    if code = 0 then s
    else slotFail h e code ((s.inc (Fld.SLT_CNT_COUNT.h h)).put (Fld.SLT_STAT_BADLATCH.h h) 1)

/-- SLOT_ENTRY_LATCH (R79): `late` says that the burst completed too late, for example under FREEZE. -/
def execSlotEntryLatch (h : Fin 8) (late : Bool) (s : State) : Host.Outcome State Fault Refusal := .next (latchSlot h late s)

/-- The next action to run of a latched entry, past actions of TYPE 0: its index and itself. -/
def Latched.nextAction (l : Latched) : Option (Nat × Action) :=
  let acts := actionsOf l.words
  (List.range acts.length).findSome? fun i =>
    match acts[i]? with
    | some x => if l.next ≤ i && x.type != 0 then some (i, x) else none
    | none => none

/-- The instant of an action of a latched entry (R78). -/
def Latched.actionAt (l : Latched) (ecp : Bool) (x : Action) : Nat :=
  ((l.slotAt : Int) + x.time l.num ecp (slotIn l.num ecp l.slotAt) * fineU).toNat

/-- The action that runs next: of the next actions of the latched entries the earliest, at equal times that of the earlier entry, so that the later one governs
(R78). -/
def State.firstDue (s : State) : List Latched → Option (Latched × Nat × Action)
  | [] => none
  | l :: t => match l.nextAction, s.firstDue t with
    | none, r => r
    | some (i, x), none => some (l, i, x)
    | some (i, x), some (m, j, y) =>
      if m.actionAt (s.refEcp m.num) y < l.actionAt (s.refEcp l.num) x then some (m, j, y) else some (l, i, x)

/-- Marks an action of a latched entry as run. -/
def actionRun (h : Fin 8) (l : Latched) (i : Nat) (s : State) : State :=
  let ls := s.slt[h].latched.map fun (m : Latched) => if m.slotAt = l.slotAt then { m with next := i + 1 } else m
  { s with slt := s.slt.set h { s.slt[h] with latched := ls } }

/-- `SLT_POS` (R82): the entry that executes in the slot in progress; while none executes, the one that did last (log 37). -/
def State.sltPos (s : State) (h : Fin 8) : Nat :=
  ((s.slt[h].latched.filter fun l => decide (l.slotAt ≤ s.now) && !l.words.isEmpty).foldl (fun (m : Nat × Nat) l =>
    if m.1 ≤ l.slotAt then (l.slotAt, l.entry) else m) (0, 0)).2

/-- Runs the next action of hamlet `h` if it is of the given type: time moves to its instant and `act` gets its
argument and its latched entry. -/
def runAction (h : Fin 8) (type : Nat) (act : Nat → Latched → State → State) (s : State) : State :=
  match s.firstDue s.slt[h].latched with
  | none => s
  | some (l, i, x) =>
    if x.type = type then act x.arg l (actionRun h l i (s.at (l.actionAt (s.refEcp l.num) x))) else s

/-- SLOT_ACTION_PINS (R78): the pins that the slot table owns and PINMASK does not name take the action's levels. -/
def execSlotActionPins (h : Fin 8) (s : State) : Host.Outcome State Fault Refusal :=
  .next (runAction h 1 (fun arg l s => s.drivePins h (s.pinsOf h 1 &&& (4095 - l.pinmask % 4096)) arg) s)

/-- SLOT_ACTION_ORX_TRIGGER (R76, R153): the set is triggered with T the action time. -/
def execSlotActionOrxTrigger (h : Fin 8) (s : State) : Host.Outcome State Fault Refusal :=
  .next (runAction h 2 (fun arg _ s => { s with orx := s.orx.set h { s.orx[h] with trigs := s.orx[h].trigs ++ [(s.now, arg % 16)] } }) s)

/-- SLOT_ACTION_ENGINE_EVENT (R78): the code is posted to the event notification queue. -/
def execSlotActionEngineEvent (h : Fin 8) (s : State) : Host.Outcome State Fault Refusal :=
  .next (runAction h 3 (fun arg _ s => s.notify h (arg % 65536)) s)

/-- The next gain-state instant of a latched entry: the symbol and the instant LEAD ticks before its air start (R83). -/
def Latched.gainAt (l : Latched) (ecp : Bool) : Nat :=
  l.symStart ecp l.gainSym - l.lead * tickU

/-- The first latched entry whose gain states are not all applied. -/
def firstGain (syms : Latched → Nat) : List Latched → Option Latched
  | [] => none
  | l :: t => if l.words ≠ [] ∧ l.gainSym < syms l then some l else firstGain syms t

/-- GAIN_STATE_PINS (R83): LEAD ticks before the next REFNUM symbol the PINMASK pins that the slot table owns take the pattern of
its gain state. -/
def execGainStatePins (h : Fin 8) (s : State) : Host.Outcome State Fault Refusal :=
  .next (match firstGain (fun l => symsOf (s.refEcp l.num)) s.slt[h].latched with
    | none => s
    | some l =>
      let s := s.at (l.gainAt (s.refEcp l.num))
      let g := (l.words.getD 1 0#32).toNat / 4 ^ l.gainSym % 4
      let s := s.drivePins h (s.pinsOf h 1 &&& l.pinmask) (spread l.pinmask (l.gainpat / 16 ^ g % 16))
      let ls := s.slt[h].latched.map fun (m : Latched) =>
        if m.slotAt = l.slotAt then { m with gainSym := m.gainSym + 1 } else m
      { s with slt := s.slt.set h { s.slt[h] with latched := ls } })

/-- A write to `SLT_EDIT` (R81): REFUSED clears where written 1, IDX stores; GO requests a copy, or is refused while BUSY,
and refused and recorded for an index outside the pattern in force. -/
def sltEditWrite (r : Req) (h : Fin 8) (v : Word) (s : State) : State :=
  let a := hamletBase h + Reg.SLT_EDIT
  let s := s.storeReg r a (v &&& 0x7FFFFFFF#32)
  if getBits Fld.SLT_EDIT_GO v = 0 then s
  else if s.flag (Fld.SLT_EDIT_BUSY.h h) then s.put (Fld.SLT_EDIT_REFUSED.h h) 1
  else
    let idx := getBits Fld.SLT_EDIT_IDX v
    if 639 < idx ∨ patternLen (s.erd (hamletBase h + Reg.SLT_CFG)) ≤ idx then (s.put (Fld.SLT_EDIT_REFUSED.h h) 1).refuse4 r a
    else { s.put (Fld.SLT_EDIT_BUSY.h h) 1 with slt := s.slt.set h { s.slt[h] with edit := some idx } }

/-- SLT_EDIT_GO (R81). -/
def execSltEditGo (r : Req) (h : Fin 8) (v : Word) (s : State) : Host.Outcome State Fault Refusal :=
  .next (regCmd r (hamletBase h + Reg.SLT_EDIT) v (sltEditWrite r h v) s)

/-- SLT_EDIT_COPY (R81): the stage is copied into the active buffer as one burst, once neither FREEZE nor the copy of its row holds it (R283, R292). -/
def execSltEditCopy (h : Fin 8) (s : State) : Host.Outcome State Fault Refusal :=
  .next (match s.slt[h].edit with
    | none => s
    | some idx =>
      let base := bufferBase h (s.erd (hamletBase h + Reg.SLT_CFG)) (s.get (Fld.SLT_STAT_ACTIVE.h h)) + 96 * idx
      if s.flag (Fld.ARB_CTRL_FREEZE.h h) || s.rowBusy base 96 then s else
      let s := (s.checkWrite 18 base 96 ((List.range 24).foldl (fun v n => v + s.get ((Fld.SLT_STAGEn_WORD.i n).h h) * 2 ^ (32 * n)) 0)).1
      { s.put (Fld.SLT_EDIT_BUSY.h h) 0 with slt := s.slt.set h { s.slt[h] with edit := none } })

/-- SLT_ENABLE_TAKE_EFFECT (R82): at its frame boundary the oldest waiting change of ENABLE is in force; disabled, no latched entry of a later slot runs. -/
def execSltEnableTakeEffect (h : Fin 8) (s : State) : Host.Outcome State Fault Refusal :=
  .next (match s.slt[h].enables with
    | [] => s
    | (d, v) :: rest =>
      let s := (s.at d).eput (Fld.SLT_CTRL_ENABLE.h h) (b2n v)
      let keep := if v then s.slt[h].latched else s.slt[h].latched.filter fun l => decide (l.slotAt < d)
      { s with slt := s.slt.set h { s.slt[h] with enables := rest, latched := keep } })

/-- A write to `SLT_GAINCFG` (R83): naming more than 4 pins makes it ignored and recorded with reason 4. -/
def gainCfgWrite (r : Req) (h : Fin 8) (v : Word) (s : State) : State :=
  let a := hamletBase h + Reg.SLT_GAINCFG
  if 4 < ((List.range 12).filter fun j => bitOf v.toNat j).length then s.refuse4 r a else s.storeReg r a v

/-! ### Front-end pins (R84, R85) -/

/-- The levels pin `mask` drives when newly taken by an owner (R84): GPIO its LEVEL, the Watch WPAT; the slot table and the DPD
keep the level driven before. DESIGN CHOICE (log 38): a pin that the Watch takes by `FEP_CLAIM` and PINMASK of `ORX_SW` does not name has no bit of WPAT and
drives 0. -/
def takenLevels (h : Fin 8) (owner mask : Nat) (s : State) : State :=
  if owner = 4 then s.drivePins h mask (s.get (Fld.FEP_GPIO_LEVEL.h h))
  else if owner = 3 then
    let pm := s.get (Fld.ORX_SW_PINMASK.h h)
    s.drivePins h mask (spread pm (s.get (Fld.ORX_SW_WPAT.h h)))
  else s

/-- A claim of pins (R84): unowned and lower-ranked pins are taken, higher-ranked ones refused; a pre-empting claim posts
0xFFF1; a slot-table claim that takes a switch pin from the DPD ends its capture with code 4 (R159). -/
def claimPins (h : Fin 8) (owner mask : Nat) (s : State) : State :=
  let own (j : Nat) := s.pinOwner h j
  let sel (p : Nat → Bool) := (List.range 12).foldl (fun m j => if bitOf mask j && p j then m + 2 ^ j else m) 0
  let taken := sel fun j => own j == 0 || owner < own j
  let preempted := sel fun j => own j != 0 && owner < own j
  let refused := sel fun j => own j != 0 && own j < owner
  let lost := sel (fun j => own j == 2 && owner == 1 && s.bit (Fld.ORX_SW_PINMASK.h h) j) != 0
  let s := (List.range 12).foldl (fun s j => if bitOf taken j then s.setPinOwner h j owner else s) s
  let s := takenLevels h owner taken s
  let s := s.orF (Fld.FEP_CLAIM_STAT_REFUSED.h h) refused
  let s := if lost then s.endCapture h 4 else s
  if preempted = 0 then s else (s.orF (Fld.FEP_CLAIM_STAT_PREEMPTED.h h) preempted).notify h 0xFFF1

/-- A write to `FEP_CLAIM` (R84): a claim or a release by OWNER; an OWNER other than 1 to 4 makes it ignored. -/
def fepClaimWrite (h : Fin 8) (v : Word) (s : State) : State :=
  let owner := getBits Fld.FEP_CLAIM_OWNER v
  let mask := getBits Fld.FEP_CLAIM_MASK v
  if owner = 0 ∨ 4 < owner then s
  else if getBits Fld.FEP_CLAIM_RELEASE v = 1 then s.releasePins h (mask &&& s.pinsOf h owner)
  else claimPins h owner mask s

/-- FEP_CLAIM (R84). -/
def execFepClaim (r : Req) (h : Fin 8) (v : Word) (s : State) : Host.Outcome State Fault Refusal :=
  .next (regCmd r (hamletBase h + Reg.FEP_CLAIM) v (fepClaimWrite h v) s)

/-- FEP_RELEASE (R84): the same register with RELEASE set. -/
def execFepRelease (r : Req) (h : Fin 8) (v : Word) (s : State) : Host.Outcome State Fault Refusal :=
  .next (regCmd r (hamletBase h + Reg.FEP_CLAIM) (v ||| 0x80000000#32) (fepClaimWrite h (v ||| 0x80000000#32)) s)

/-- A write to `FEP_SAFE` (R84): the unowned pins, and in a forced SAFE state every pin, take their new levels at once. -/
def fepSafeWrite (r : Req) (h : Fin 8) (v : Word) (s : State) : State :=
  let s := s.storeReg r (hamletBase h + Reg.FEP_SAFE) v
  s.drivePins h (if s.flt.pinSafe[h] then 0xFFF else s.pinsOf h 0) (s.get (Fld.FEP_SAFE_SAFE.h h))

/-- FEP_SAFE_WRITE (R84). -/
def execFepSafeWrite (r : Req) (h : Fin 8) (v : Word) (s : State) : Host.Outcome State Fault Refusal :=
  .next (regCmd r (hamletBase h + Reg.FEP_SAFE) v (fepSafeWrite r h v) s)

/-- A write to `FEP_GPIO` (R84, R85): the GPIO-owned pins take their new levels. -/
def fepGpioWrite (r : Req) (h : Fin 8) (v : Word) (s : State) : State :=
  let s := s.storeReg r (hamletBase h + Reg.FEP_GPIO) v
  s.drivePins h (s.pinsOf h 4) (s.get (Fld.FEP_GPIO_LEVEL.h h))

/-- FEP_GPIO_WRITE (R85). -/
def execFepGpioWrite (r : Req) (h : Fin 8) (v : Word) (s : State) : Host.Outcome State Fault Refusal :=
  .next (regCmd r (hamletBase h + Reg.FEP_GPIO) v (fepGpioWrite r h v) s)

end Sys2Proof.Machine
end

