-- ==== Sys2Proof/Machine/TxChain.lean ====
section
/-!
DEFINITION. The samples of the transmit chain (R87, R92 to R101, R104 to R113, R116, R118): for every path, what each stage puts out
for a sample number, from the symbols formed and the settings in force. Every sample is named by the instant at which it reaches the balls, so that the
group delay of R116 from the iFFT output to the balls, T_CHAN + T_BACK + DLY, is taken out of every stage but the fine delay (R98, R118).
-/

namespace Sys2Proof.Machine

/-- The 64-entry index of carrier or path `n` of hamlet `h`. -/
def idx64 (h : Fin 8) (n : Nat) : Fin 64 := Fin.ofNat 64 (8 * h + n % 8)

/-- One composite sample period, 1 / 2,211.84 MHz (R87). -/
abbrev compU : Nat := 25600000
/-- One RF DAC sample period, 1 / 17,694.72 MHz (R87). -/
abbrev dacU : Nat := 3200000

/-! ### Settings at an instant -/

/-- The word that a register of hamlet `h` had before the first boundary after `t` that replaced it, if one did; of several changes at one boundary the first one
replaced it. -/
def State.replacedAfter (s : State) (h : Fin 8) (a t : Nat) : Option Word :=
  (s.tx[h].was.foldl (fun (m : Option SetPend) x =>
    if x.addr = a ∧ t < x.due then (match m with
      | some y => if x.due ≤ y.due then some x else m
      | none => some x) else m) none).map (·.word)

/-- The word of a half-subframe setting of hamlet `h` that is in force at `t` (R104): a boundary splits no sample. -/
def State.settingAt (s : State) (h : Fin 8) (a t : Nat) : Word :=
  match s.replacedAfter h a t with
  | some w => w
  | none => ((s.tx[h].sets.foldl (fun (m : Option SetPend) x =>
      if x.addr = a ∧ x.due ≤ t then (match m with
        | some y => if y.due ≤ x.due then some x else m
        | none => some x) else m) none).map (·.word)).getD (s.erd a)

/-- A field of such a setting at `t`. -/
def State.fieldAt (s : State) (h : Fin 8) (f : Field) (t : Nat) : Nat := getBits f (s.settingAt h f.reg t)

/-- A field of a status register of hamlet `h` as it was at `t`. -/
def State.statusAt (s : State) (h : Fin 8) (f : Field) (t : Nat) : Nat :=
  getBits f ((s.replacedAfter h f.reg t).getD (s.rd f.reg))

/-- The word of a register that changes at `d` is kept for the samples before `d`, for 5 ms. -/
def State.keepWas (s : State) (h : Fin 8) (a : Nat) (w : Word) (d : Nat) : State :=
  { s with tx := s.tx.set h { s.tx[h] with was := ⟨d, a, w⟩ :: s.tx[h].was.filter fun x => decide (d < x.due + 5 * msU) } }

/-- The backoff steps of hamlet `h` in force at `t` (R370): those that the first boundary after `t` replaced, else those of the last waiting boundary by then. -/
def State.boAt (s : State) (h : Fin 8) (t : Nat) : Nat :=
  match s.tx[h].boWas.foldl (fun (m : Option (Nat × Nat)) x =>
    if t < x.1 then (match m with
      | some y => if x.1 ≤ y.1 then some x else m
      | none => some x) else m) none with
  | some x => x.2
  | none => s.thm.boDue[h].foldl (fun m x => if x.1 ≤ t then x.2 else m) s.thm.bo[h]

/-- Tap `j` of the channeliser of a carrier (R100, R103, R130): the bank that is active at `t`. -/
def State.chanTap (s : State) (rx : Bool) (h : Fin 8) (car t j : Nat) : Int :=
  let b := if rx then b2n (bitOf (s.statusAt h (Fld.RXC_FSTAT_ACTIVE.h h) t) car)
    else b2n (bitOf (s.statusAt h (Fld.TXC_FSTAT_ACTIVE.h h) t) car)
  signed 18 (s.get ((if rx then Fld.RXC_COEF_COEF else Fld.TXC_COEF_COEF).ijk car b j |>.h h))

/-! ### iFFT, phase term, prefix and window (R93 to R97) -/

/-- Output `i` of the iFFT of element `e`, rounded once to Q1.15 (R93), and whether it saturated. -/
def TxSymbol.ifft (x : TxSymbol) (e : Nat) (i : Int) : Cx × Bool :=
  roundCx 16 (csum ((x.y.filter fun v => v.e == e).map fun v => cmul (v.i, v.q) (cis (v.bin * i) x.n))) (2 ^ 60 * 2 ^ x.shift.getD (e / 8) 0)

/-- The phase term of TS 38.211 clause 5.4 for hamlet `h`: e^(-j 2 pi f0 (t_start + N_CP)), with the times counted from the subframe's start (R94). -/
def TxSymbol.phasor (x : TxSymbol) (h : Nat) : Cx :=
  if x.phc.getD h false then cis (-(x.f0.getD h 0 * x.ref)) 491520 else (unitQ, 0)

/-- The window w(j) in units of 2^-60 (R96). -/
def window (ncp n w : Nat) (j : Int) : Int :=
  if j < w then (unitQ - (cis (2 * j + 1) (4 * w)).1) / 2
  else if (ncp + n : Nat) ≤ j then (unitQ + (cis (2 * (j - (ncp + n : Nat)) + 1) (4 * w)).1) / 2
  else unitQ

/-- Sample `j` of the N_CP + N + W samples of a symbol (R95, R96): the prefix copies the last N_CP samples of the iFFT output, and the W samples after
the end are sent whatever follows (R97). In units of 2^-120 of the iFFT's. -/
def TxSymbol.sample (x : TxSymbol) (e : Nat) (j : Int) : Cx :=
  let w := x.win.getD (e / 8) 0
  if 0 ≤ j ∧ j < (x.ncp + x.n + w : Nat) then
    cscale (window x.ncp x.n w j) (cmul (x.phasor (e / 8)) (x.ifft e ((j - x.ncp) % (x.n : Int))).1)
  else (0, 0)

/-- Sample `m` at rate r of a carrier for element 8 h + k: the sum of the symbols and tails that hold it, Q1.15 (R96). -/
def State.txBase (s : State) (h : Fin 8) (k car : Nat) (m : Int) : Cx × Bool :=
  roundCx 16 (csum ((s.dl.syms.filter fun x => x.car == car).map fun x =>
    x.sample (8 * h + k) (m - (x.air / (2 ^ x.rate * tickU) : Nat)))) (2 ^ 120)

/-! ### Channeliser and carrier sum (R98, R100, R101, R104) -/

/-- The ball instant of sample `m` of a rate whose period is `u`. -/
def ballAt (u : Nat) (m : Int) : Nat := (m * u).toNat

/-- Composite sample `c` of a carrier on a path: programmable FIR about tap 48, half-bands, resampler, channel NCO with the phase 2 pi OFFS t, rounded
once to Q3.15. A bank swap falls between two samples of the FIR's input (R102). -/
def State.txChannel (s : State) (h : Fin 8) (k car : Nat) (c : Int) : Cx × Bool :=
  let r := rateH (s.eget (Fld.LNK_DL_CARn_FFTSZ.i car)) (s.car car).num
  let x : Sig := stuff 2 fun m => (s.txBase h k car m).1
  let f : Sig := fun m => fir (s.chanTap false h car (ballAt (2 ^ r * tickU) (m / 2))) 97 48 x m
  let offs := signed 21 (s.eget (Fld.TXC_CNCOn_OFFS.i car |>.h h))
  roundCx 18 (cmul (cis (offs * c) 2211840) (resampleUp (halfUps r f) c)) (2 ^ (16 + 30 * r + 30 + 60))

/-- The carriers whose symbols may reach the paths of hamlet `h`: defined, enabled, with a symbol formed. -/
def State.txCars (s : State) (h : Fin 8) : List Nat :=
  (List.range 8).filter fun n => (s.car n).en && !s.bit (Fld.TXC_STAT_CARDIS.h h) n && s.dl.syms.any fun x => x.car == n

/-- Composite sample `c` of the carrier sum of a path, Q3.15 (R104). -/
def State.txSum (s : State) (h : Fin 8) (k : Nat) (c : Int) : Cx × Bool :=
  roundCx 18 (csum ((s.txCars h).map fun n => (s.txChannel h k n c).1)) 1

/-! ### Gain, mute, fine delay and phase trim (R104, R105) -/

/-- The gain of a path at `t` in units of 2^-76: ATT and the thermal backoff of 0.5 dB steps (R370), then the mute gain. -/
def State.pathGain (s : State) (h k : Fin 8) (t : Nat) : Int :=
  tenth (s.fieldAt h ((Fld.TXC_PATHk_ATT.i k).h h) t + 4 * s.boAt h t) 160 * (s.mute[idx64 h k]).gainAt t

/-- Composite sample `c` of a path after gain, mute, fine delay by DLY and rotation by PHASE, Q1.15 (R104). -/
def State.txTrim (s : State) (h k : Fin 8) (c : Int) : Cx × Bool :=
  let t := ballAt compU c
  let x : Sig := fun c => cscale (s.pathGain h k (ballAt compU c)) (s.txSum h k c).1
  let d := signed 13 (s.fieldAt h ((Fld.TXC_TRIMk_DLY.i k).h h) t)
  let p := s.fieldAt h ((Fld.TXC_TRIMk_PHASE.i k).h h) t
  roundCx 16 (cmul (cis p 65536) (fineDelay d x c)) (2 ^ (76 + 30 + 60))

/-! ### Crest-factor reduction (R107, R108) -/

/-- The square of a sample's magnitude against a UQ0.16 threshold: is |z| greater? -/
def exceeds (z : Cx) (thr : Nat) : Bool := decide ((thr * thr : Nat) < 4 * (z.1 * z.1 + z.2 * z.2))

/-- Is sample `c` a local maximum of magnitude above the threshold (R107)? DESIGN CHOICE (log 125): the rule does not say whether a sample equal to a neighbour is
one; here it is. -/
def isPeak (x : Sig) (thr : Nat) (c : Int) : Bool :=
  let m (c : Int) : Int := (x c).1 * (x c).1 + (x c).2 * (x c).2
  exceeds (x c) thr && decide (m (c - 1) ≤ m c) && decide (m (c + 1) ≤ m c)

/-- Is the peak at `c` accepted: no peak closer than `space` samples is larger, nor an equal one earlier (R107)? DEDUCED (log 43): each pair is judged by
itself. -/
def peakKept (x : Sig) (thr space : Nat) (c : Int) : Bool :=
  let m (c : Int) : Int := (x c).1 * (x c).1 + (x c).2 * (x c).2
  isPeak x thr c && (List.range (space - 1)).all fun i =>
    let a := c - (i + 1 : Nat)
    let b := c + (i + 1 : Nat)
    !(isPeak x thr a && decide (m c ≤ m a)) && !(isPeak x thr b && decide (m c < m b))

/-- One pass of peak cancellation, rounded once to Q1.15: every accepted peak p takes away the pulse scaled by p (|p| - THRESH) / |p|. -/
def cfrPass (pulse : Nat → Cx) (thr space : Nat) (x : Sig) (c : Int) : Cx × Bool :=
  let cut := csum ((List.range 255).map fun (n : Nat) =>
    let p := c - n + 127
    if peakKept x thr space p then
      let g := magQ (x p)
      cscale ((g - (thr * 2 ^ 39 : Nat)) * 2 ^ 60 / g) (cmul (pulse n) (x p))
    else (0, 0))
  roundCx 16 ((x c).1 * 2 ^ 75 - cut.1, (x c).2 * 2 ^ 75 - cut.2) (2 ^ 75)

/-- `n` passes of peak cancellation. -/
def cfrPasses (pulse : Nat → Cx) (thr space : Nat) : Nat → Sig → Sig
  | 0, x => x
  | n + 1, x => cfrPasses pulse thr space n fun c => (cfrPass pulse thr space x c).1

/-- The active pulse bank of hamlet `h` at `t`. -/
def State.pulseAt (s : State) (h : Fin 8) (t n : Nat) : Cx :=
  let b := s.statusAt h (Fld.TXC_CFR_STAT_ACTIVE.h h) t
  (signed 16 (s.get ((Fld.TXC_PULSE_I.ij b n).h h)), signed 16 (s.get ((Fld.TXC_PULSE_Q.ij b n).h h)))

/-- Passes of crest-factor reduction at `t`: 0 with EN = 0; ITER = 0 acts as 1. -/
def State.cfrIter (s : State) (h : Fin 8) (t : Nat) : Nat :=
  if s.fieldAt h (Fld.TXC_CFR_CFG_EN.h h) t = 0 then 0 else max 1 (s.fieldAt h (Fld.TXC_CFR_CFG_ITER.h h) t)

/-- Composite sample `c` after `n` passes. -/
def State.txCfr (s : State) (h k : Fin 8) (n : Nat) (c : Int) : Cx :=
  let t := ballAt compU c
  let space := max 8 (s.fieldAt h (Fld.TXC_CFR_CFG_SPACE.h h) t)
  cfrPasses (s.pulseAt h t) (s.fieldAt h (Fld.TXC_CFR_CFG_THRESH.h h) t) space n (fun c => (s.txTrim h k c).1) c

/-- Composite sample `c` after the last pass and the clipper, and whether it was clipped (R107): magnitude CLIP, the phase kept. -/
def State.txClip (s : State) (h k : Fin 8) (c : Int) : Cx × Bool :=
  let t := ballAt compU c
  let z := s.txCfr h k (s.cfrIter h t) c
  let clip := s.fieldAt h (Fld.TXC_CFR_CLIP_CLIP.h h) t
  if exceeds z clip then ((roundCx 16 (cscale (clip * 2 ^ 39 : Nat) z) (magQ z).toNat).1, true) else (z, false)

/-! ### Interpolation by 2 and predistortion (R109, R110) -/

/-- Sample `n` at 4,423.68 MS/s of the predistorter's input x(n), in units of 2^-45 (R109): one half-band interpolation, inside the stage. -/
def State.dpdIn (s : State) (h k : Fin 8) (n : Int) : Cx :=
  fir Config.dpdHalfTap 193 96 (stuff 2 fun c => (s.txClip h k c).1) n

/-- |z|^k relative to full scale, for z in units of 2^-45, in units of 2^-40. -/
def powMag (z : Cx) : Nat → Int
  | 0 => 1099511627776
  | k + 1 => powMag z k * (Nat.sqrt (z.1 * z.1 + z.2 * z.2).toNat : Nat) / 2 ^ 45

/-- Coefficient `i` of a DPD bank of a path, Q2.14 (R109). -/
def State.dpdCoef (s : State) (h k : Fin 8) (bank i : Nat) : Cx :=
  (signed 16 (s.get ((Fld.DPD_COEF_I.ijk k bank i).h h)), signed 16 (s.get ((Fld.DPD_COEF_Q.ijk k bank i).h h)))

/-- The generalised memory polynomial of one bank at sample `n`, in units of 2^-99 (R109). -/
def State.gmp (s : State) (h k : Fin 8) (bank : Nat) (x : Sig) (n : Int) : Cx :=
  let kk := s.get (Fld.DPD_CFG_K.h h)
  let mm := s.get (Fld.DPD_CFG_MM1.h h) + 1
  let ll := s.get (Fld.DPD_CFG_L.h h)
  let term (i : Nat) (z : Cx) (g : Int) : Cx := cscale g (cmul (s.dpdCoef h k bank i) z)
  csum ((List.range kk).flatMap fun o => (List.range mm).flatMap fun m =>
    term (dpdA mm o m) (x (n - m)) (powMag (x (n - m)) o) ::
      (if o = 0 then [] else (List.range ll).flatMap fun i =>
        let l := i + 1
        [term (dpdB kk mm ll o m l) (x (n - m)) (powMag (x (n - m - l)) o), term (dpdC kk mm ll o m l) (x (n - m)) (powMag (x (n - m + l)) o)]))

/-- The fade that runs at `t`, and the bank that is active without one (R110): a fade is its start, its length and its incoming bank. -/
def Dpd.fadeAt (d : Dpd) (active t : Nat) : Option (Nat × Nat × Nat) × Nat :=
  match d.fades.find? fun f => decide (f.1 ≤ t) with
  | some f => (if t < f.1 + f.2.1 then some f else none, f.2.2)
  | none => (none, match d.fades.getLast? with
    | some f => 1 - f.2.2
    | none => active)

/-- Sample `n` at 4,423.68 MS/s of the predistorter's output y(n), Q1.15, rounded once (R109, R110): the input itself with EN = 0; during a fade
y_old + alpha (y_new - y_old), alpha rising linearly from 0 to 1. -/
def State.dpdOut (s : State) (h k : Fin 8) (n : Int) : Cx × Bool :=
  let t := ballAt orxU n
  let x : Sig := s.dpdIn h k
  if bitOf (s.fieldAt h (Fld.DPD_CFG_EN.h h) t) k then
    match (s.dpd[idx64 h k]).fadeAt (s.get ((Fld.DPD_STATk_ACTIVE.i k).h h)) t with
    | (none, b) => roundCx 16 (s.gmp h k b x n) (2 ^ 84)
    | (some f, b) =>
      let old := s.gmp h k (1 - b) x n
      let new := s.gmp h k b x n
      let a : Int := (t - f.1 : Nat)
      roundCx 16 (cadd (cscale ((f.2.1 : Int) - a) old) (cscale a new)) (2 ^ 84 * f.2.1)
  else roundCx 16 (x n) (2 ^ 30)

/-! ### Interpolation by 4, RF NCO and DAC (R98, R113, R114) -/

/-- Is hamlet `h` forced to zero code at `t` (R114)? -/
def State.txForced (s : State) (h : Fin 8) (t : Nat) : Bool := s.tx[h].forced && decide (s.tx[h].forcedAt ≤ t)

/-- RF DAC sample `n` of a path: interpolation by 4, the inverse-sinc correction about the RF NCO where INVSINC is 1, and the real code
Re(z e^(j 2 pi f t)), with magnitude 1.0 at 32,767; zero code while it is forced (R113, R114). -/
def State.dacCode (s : State) (h k : Fin 8) (n : Int) : Int × Bool :=
  let t := ballAt dacU n
  if s.txForced h t then (0, false)
  else
    let up : Sig := fir Config.rfTap 129 64 (stuff 4 fun m => (s.dpdOut h k m).1)
    let z := if s.fieldAt h (Fld.TXC_CTRL_INVSINC.h h) t = 1 then
        fir (Config.sincTap (s.eget (Fld.TXC_NCO_FREQ_FREQ.h h))) 129 64 up n
      else cscale tapQ (up n)
    let v := (cmul (cis (s.eget (Fld.TXC_NCO_FREQ_FREQ.h h) * n) 17694720) z).1 * 32767
    let c := roundEven v (2 ^ (15 + 30 + 30 + 60))
    (max (-32767) (min 32767 c), decide (c < -32767 ∨ 32767 < c))

/-- The instant at which DAC sample `n` of a path is at the balls (R118): its own instant, and DLY of the fine delay is in its value. The full-scale current
is 20 mA + 1.25 mA IFS (R113), here in units of 10 uA. -/
def State.dacCurrent (s : State) (h k : Fin 8) (n : Int) : Int :=
  (s.dacCode h k n).1 * (2000 + 125 * s.fieldAt h (Fld.TXC_CTRL_IFS.h h) (ballAt dacU n)) / 32767

/-- The group delay of a sample from the iFFT output to the balls, T_CHAN + T_BACK + DLY (R116). -/
def State.txDelay (s : State) (h k : Fin 8) (car t : Nat) : Int :=
  (30 * 2 ^ rateH (s.eget (Fld.LNK_DL_CARn_FFTSZ.i car)) (s.car car).num - 6) * tickU + 7234 * nsU / 1000 + 120 * nsU
    + signed 13 (s.fieldAt h ((Fld.TXC_TRIMk_DLY.i k).h h) t) * 28125

/-! ### Saturated and clipped samples (R87, R107, R115) -/

/-- The sample numbers of a rate with period `u` whose ball instants lie from `a` up to `b`. -/
def samplesIn (u a b : Nat) : List Int := (List.range ((b + u - 1) / u - (a + u - 1) / u)).map fun i => ((a + u - 1) / u + i : Nat)

/-- How many samples of a stage saturated, of some sample numbers. -/
def satCount (f : Int → Bool) (l : List Int) : Nat := (l.filter f).length

/-- The saturated samples of a path between two instants, for each stage from 1 (iFFT, prefix and window) to 6 (interpolation and NCO), and its clipped
samples. -/
def State.txCounts (s : State) (h k : Fin 8) (a b : Nat) : List Nat × Nat :=
  let comp := samplesIn compU a b
  let base (n : Nat) : List Int := samplesIn (2 ^ rateH (s.eget (Fld.LNK_DL_CARn_FFTSZ.i n)) (s.car n).num * tickU) a b
  let cars := s.txCars h
  ([ (cars.map fun n => satCount (fun m => (s.txBase h k n m).2) (base n)).sum,
     (cars.map fun n => satCount (fun c => (s.txChannel h k n c).2) comp).sum + satCount (fun c => (s.txSum h k c).2) comp,
     satCount (fun c => (s.txTrim h k c).2) comp,
     ((List.range 3).map fun i => satCount (fun c => decide (i < s.cfrIter h (ballAt compU c))
       && (cfrPass (s.pulseAt h (ballAt compU c)) (s.fieldAt h (Fld.TXC_CFR_CFG_THRESH.h h) (ballAt compU c))
         (max 8 (s.fieldAt h (Fld.TXC_CFR_CFG_SPACE.h h) (ballAt compU c))) (s.txCfr h k i) c).2) comp).sum,
     satCount (fun n => (s.dpdOut h k n).2) (samplesIn orxU a b),
     satCount (fun n => (s.dacCode h k n).2) (samplesIn dacU a b) ],
   satCount (fun c => (s.txClip h k c).2) comp)

end Sys2Proof.Machine
end

