-- ==== Sys2Proof/Machine/Tx.lean ====
section
/-!
DEFINITION. The transmit chain (R87 to R116), and the instant at which a carrier commit takes effect (R53, R99, R127, R511).
-/

namespace Sys2Proof.Machine

/-! ### The commit's take-effect instant -/

/-- Does a carrier's band, centred at `f` kHz, lie within `lo` to `hi` kHz? Edges are `f` plus and minus NRB * 6 subcarriers. -/
def Car.bandIn (c : Car) (f : Int) (lo hi : Int) : Bool :=
  let half : Int := (c.nrb * 6 * c.hz : Nat)
  decide (lo * 1000 ≤ f * 1000 - half) && decide (f * 1000 + half ≤ hi * 1000)

/-- Is carrier `n` disabled for transmission in hamlet `h` (R99)? -/
def State.txDisabled (s : State) (h : Fin 8) (n : Nat) : Bool :=
  let c := s.car n
  let f := s.eget (Fld.TXC_CARn_FFTSZ.i n |>.h h)
  let nco : Int := s.eget (Fld.TXC_NCO_FREQ_FREQ.h h)
  let ctr := nco + signed 21 (s.eget (Fld.TXC_CNCOn_OFFS.i n |>.h h))
  !fftValid f c || decide (4 < s.eget (Fld.TXC_CARn_WIN.i n |>.h h)) || f != s.eget (Fld.LNK_DL_CARn_FFTSZ.i n)
    || !c.bandIn ctr 600000 8400000 || !c.bandIn ctr (nco - 800000) (nco + 800000)

/-- The Nyquist zone of a receive frequency in kHz (R122): 0 none, 1, 2. -/
def zoneOf (f : Nat) : Nat :=
  if 600000 ≤ f ∧ f ≤ 4373680 then 1 else if 4473680 ≤ f ∧ f ≤ 8400000 then 2 else 0

/-- Is carrier `n` disabled for reception in hamlet `h` (R122, R127)? CPOFFS has four bits and cannot exceed 15. -/
def State.rxDisabled (s : State) (h : Fin 8) (n : Nat) : Bool :=
  let c := s.car n
  let f := s.eget (Fld.RXC_CARn_FFTSZ.i n |>.h h)
  let fr := s.eget (Fld.RXC_NCO_FREQ_FREQ.h h)
  let ctr := (fr : Int) + signed 21 (s.eget (Fld.RXC_CNCOn_OFFS.i n |>.h h))
  let z := zoneOf fr
  !fftValid f c || f != s.eget (Fld.LNK_UL_CARn_FFTSZ.i n) || !c.bandIn ctr 600000 8400000
    || !c.bandIn ctr ((fr : Int) - 800000) ((fr : Int) + 800000) || z == 0
    || !(if z = 1 then c.bandIn ctr 600000 4373680 else c.bandIn ctr 4473680 8400000)

/-- The defined carriers for which `p` holds, as a mask. -/
def State.carMask (s : State) (p : Nat → Bool) : Nat :=
  (List.range 8).foldl (fun m n => if (s.car n).en && p n then m + 2 ^ n else m) 0

/-- A hamlet's checks at a commit (R99, R127): CARDIS in both directions, ZONE, CFGERR, and notice 0x420. -/
def commitHamlet (h : Fin 8) (s : State) : State :=
  let tx := s.carMask (s.txDisabled h)
  let rx := s.carMask (s.rxDisabled h)
  let keep (s : State) (f : Field) : State := s.keepWas h f.reg (s.rd f.reg) s.now
  let s := keep (keep s (Fld.TXC_STAT_CARDIS.h h)) (Fld.RXC_STAT_CARDIS.h h)
  let s := ((s.put (Fld.TXC_STAT_CARDIS.h h) tx).put (Fld.RXC_STAT_CARDIS.h h) rx).put (Fld.RXC_CTRL_ZONE.h h)
    (zoneOf (s.eget (Fld.RXC_NCO_FREQ_FREQ.h h)))
  let s := if tx = 0 then s else s.put (Fld.TXC_STAT_CFGERR.h h) 1
  let s := if rx = 0 then s else s.put (Fld.RXC_STAT_CFGERR.h h) 1
  if tx = 0 ∧ rx = 0 then s else s.raise 0x420 h (tx + rx * 256)

/-- The host port's check of one carrier and direction at a commit: notice 0x416 for one left undefined (R511). -/
def commitLnk (n dir : Nat) (s : State) : State :=
  if (s.car n).en && !s.carDefined n dir then s.raise 0x416 0xFF (n + 256 * dir) else s

/-- PEND clears in the NCO registers whose written value the commit took (R99, R127). -/
def clearNcoPend (h : Fin 8) (dirty : List Nat) (s : State) : State :=
  let regs := [Reg.TXC_NCO_FREQ, Reg.RXC_NCO_FREQ] ++ (List.range 8).flatMap fun n => [Reg.TXC_CNCOn + 4 * n, Reg.RXC_CNCOn + 4 * n]
  regs.foldl (fun s a => let a := hamletBase h + a
    if dirty.contains a then s else s.wr a (s.rd a &&& 0x7FFFFFFF#32)) s

/-- The hamlets whose domain runs, so that its registers exist (R42, R348). -/
def State.awake (s : State) : List (Fin 8) := (List.finRange 8).filter fun h => 2 ≤ s.hstate h

/-- The held data of a carrier that is undefined in the downlink is discarded (R511). -/
def dropUndefined (s : State) : State := { s with dl := { s.dl with cells := s.dl.cells.filter fun d => s.carDefined d.car 0 } }

/-! ### Downlink data (R88 to R91, R192) -/

/-- A write to `LNK_DL_CFG` (R90): an EARLY outside 10 to 250 makes it ignored and recorded with reason 4. -/
def dlCfgWrite (r : Req) (v : Word) (s : State) : State :=
  if getBits Fld.LNK_DL_CFG_EARLY v < 10 ∨ 250 < getBits Fld.LNK_DL_CFG_EARLY v then s.refuse4 r Reg.LNK_DL_CFG
  else s.storeReg r Reg.LNK_DL_CFG v

/-- The length of a symbol of a carrier. -/
def Car.symLen (c : Car) (y : SymId) : Nat :=
  (symInSlot c.num c.ecp y.slot (y.sym + 1) - symInSlot c.num c.ecp y.slot y.sym) * tickU

/-- The entries that govern hamlet `h` over an interval: latched ones, and for slots that are not latched yet what the active buffer
holds now (R91). -/
def State.plannedEntries (s : State) (h : Fin 8) (t0 t1 : Nat) : List Latched :=
  let num := s.eget (Fld.SLT_CFG_REFNUM.h h)
  let ecp := s.refEcp num
  let base := t0 / msU * msU
  let starts := (List.range (((t1 - base) / msU + 1) * slotsPerSub num)).map fun i =>
    base + i / slotsPerSub num * msU + slotStart num ecp (i % slotsPerSub num) * tickU
  (starts.filter fun t => decide (slotBegin num ecp t0 ≤ t) && decide (t < t1)).map fun t =>
    match s.slt[h].latched.find? (fun l => l.slotAt == t) with
    | some l => l
    | none =>
      let (cfg, buf) := s.patternAt h t
      let e := s.entryIndex cfg t
      let ws := if s.seqRuns h t then s.entryWordsAt (bufferBase h cfg buf + 96 * e) e else []
      ⟨t, e, getBits Fld.SLT_CFG_REFNUM cfg, ws, 0, 0, 0, 0, 0⟩

/-- Is a symbol downlink for the host port: in the slot table of at least one hamlet in service (R91)? -/
def State.isDownlink (s : State) (t0 t1 : Nat) : Bool :=
  s.weightHamlets.any fun h => s.dirIn (s.plannedEntries h t0 t1) 0 t0 t1

/-- The bits of the DL partition that the held data takes (R90): each PRB 24 * MW + 4. -/
def State.dlBits (s : State) : Nat :=
  (s.dl.cells.map fun c => 24 * s.eget (Fld.LNK_DL_CARn_MW.i c.car) + 4).sum

/-- The symbol that a downlink IQ message names (R192). -/
def dlSym (w0 : Nat) : SymId := ⟨w0 / 65536 % 256, w0 / 4096 % 16, w0 / 256 % 16, w0 / 16 % 16⟩

/-- What becomes of a downlink IQ message's data (R192, R89 to R91, R370, R511): 0 it is held; 1 an undefined carrier, 2 a malformed message, 3 late, 4 early,
5 a symbol that is not downlink, 6 a shed layer, 7 no room. -/
def dlFate (s : State) (ws : List Word) : Nat :=
  let w0 := (ws.getD 0 0#32).toNat
  let w1 := (ws.getD 1 0#32).toNat
  let n := w0 / 2 ^ 24 % 8
  let c := s.car n
  let y := dlSym w0
  let start := w1 / 2 ^ 23
  let num := w1 / 2 ^ 14 % 512
  let layer := w1 / 1024 % 16
  let mw := s.eget (Fld.LNK_DL_CARn_MW.i n)
  let air := s.airStart c y
  let dead := air - s.tDlOf n
  if !s.carDefined n 0 then 1
  else if w0 / 2 ^ 28 ≠ 1 ∨ w0 / 2 ^ 27 % 2 ≠ 0 ∨ w0 % 16 ≠ 0 ∨ w1 % 1024 ≠ 0 ∨ 9 < y.sub ∨ slotsPerSub c.num ≤ y.slot
      ∨ c.syms ≤ y.sym ∨ c.dll < layer ∨ c.nrb < start + num ∨ ws.length ≠ 2 + prbWords mw num then 2
  else if dead < s.now then 3
  else if s.now + s.get Fld.LNK_DL_CFG_EARLY * usU < dead then 4
  else if !s.isDownlink air (air + c.symLen y) then 5
  else if s.shedLevel air < layer then 6
  else if s.get (Fld.LNK_PARTn_SIZE.i 0) * 524288 < s.dlBits + num * (24 * mw + 4) then 7
  else 0

/-- The PRBs that a downlink IQ message carries, decompressed (R88, R192). -/
def dlCells (s : State) (ws : List Word) : List DlCell :=
  let w0 := (ws.getD 0 0#32).toNat
  let w1 := (ws.getD 1 0#32).toNat
  let n := w0 / 2 ^ 24 % 8
  let body := ws.drop 2
  let v := wordsNat body
  (List.range (w1 / 2 ^ 14 % 512)).map fun p =>
    DlCell.mk n (w1 / 1024 % 16) (dlSym w0) (w1 / 2 ^ 23 + p) (unpackPrb v (32 * body.length) (s.eget (Fld.LNK_DL_CARn_MW.i n)) p)

/-- A downlink IQ message: held, replacing what was held for the same PRBs, or discarded and counted by its fate; a shed layer is not counted (R370). -/
def dlIqMessage (ws : List Word) (s : State) : State :=
  let cells := dlCells s ws
  match dlFate s ws with
  | 0 => { s with dl := { s.dl with
      cells := (s.dl.cells.filter fun d => !cells.any fun e => d.car == e.car && d.layer == e.layer && d.sym == e.sym && d.prb == e.prb) ++ cells } }
  | 1 => s.inc (Fld.LNK_DL_CNTn_COUNT.i 5)
  | 2 => s.inc (Fld.LNK_CNTn_COUNT.i 6)
  | 3 => s.inc (Fld.LNK_DL_CNTn_COUNT.i 1)
  | 4 => s.inc (Fld.LNK_DL_CNTn_COUNT.i 2)
  | 5 => s.add (Fld.LNK_DL_CNTn_COUNT.i 4) ((ws.getD 1 0#32).toNat / 2 ^ 14 % 512)
  | 7 => s.inc (Fld.LNK_DL_CNTn_COUNT.i 3)
  | _ => s

/-- DL_IQ_MESSAGE (R192): a message that arrives at `t`. -/
def execDlIqMessage (m : Hdr) (words : List Word) (t : Nat) (s : State) : Host.Outcome State Fault Refusal :=
  .next (takeMsg m 0 (4 + 4 * words.length) (dlIqMessage words) (s.at t))

/-! ### The data deadline (R61, R62, R87, R89, R93 to R96, R107, R115) -/

/-- Saturated samples of path `k` of hamlet `h` at a stage: the counter, SAT, the stage, and notice 0x421 when the first SAT bit
rises (R115). -/
def txSaturated (h : Fin 8) (k stage n : Nat) (s : State) : State :=
  if n = 0 then s
  else
    let old := s.get (Fld.TXC_STAT_SAT.h h)
    let s := ((s.add ((Fld.TXC_SATk_COUNT.i k).h h) n).setBit (Fld.TXC_STAT_SAT.h h) k).setBit (Fld.TXC_SATSRC_STAGE.h h) stage
    if old = 0 then s.raise 0x421 h (2 ^ k) else s

/-- The iFFT outputs of a symbol that saturated are counted for their elements (R87, R93). -/
def countIfft (x : TxSymbol) (s : State) : State :=
  (x.y.map fun v => v.e).eraseDups.foldl (fun s e =>
    txSaturated (Fin.ofNat 8 (e / 8)) (e % 8) 1 ((List.range x.n).filter fun i => (x.ifft e i).2).length s) s

/-- The beamformer's saturations of a symbol are counted for their elements (R62, R115). -/
def countSat (sat : List Nat) (s : State) : State :=
  (List.range 64).foldl (fun s e =>
    txSaturated (Fin.ofNat 8 (e / 8)) (e % 8) 0 (sat.filter fun x => x == e).length s) s

/-- The symbols on air by now are final (R63): the saturations of the beamformer and of the iFFT that formed them are counted, each once. -/
def countSymbols (s : State) : State :=
  let fresh (x : TxSymbol) : Bool := !x.counted && decide (x.air ≤ s.now)
  let xs := s.dl.syms.filter fresh
  let s := { s with dl := { s.dl with syms := s.dl.syms.map fun x => if fresh x then { x with counted := true } else x } }
  xs.reverse.foldl (fun s x => countIfft x (countSat x.sat s)) s

/-- The samples of the stages after the beamformer whose ball instants have passed since the last count are counted where they saturated or were clipped (R107,
R115): in a hamlet whose paths are forced to zero code, those up to the instant at which that began. DESIGN CHOICE (log 44): the count is brought up to date at each data
deadline, before each change of what it rests on, and at each access to the registers that show it. -/
def State.txRun (s : State) : State :=
  let a := s.dl.done
  let b := s.now
  let s := countSymbols { s with dl := { s.dl with done := max a b } }
  if s.dl.syms.isEmpty then s
  else (List.finRange 8).foldl (fun s (h : Fin 8) =>
    let b := if s.tx[h].forced then min b s.tx[h].forcedAt else b
    (List.finRange 8).foldl (fun s (k : Fin 8) =>
      let c := s.txCounts h k a b
      let s := ((List.range 6).foldl (fun s i => txSaturated h k (i + 1) (c.1.getD i 0) s) s)
      s.add ((Fld.TXC_CLIPk_COUNT.i k).h h) c.2) s) s

/-- The commit's instant: the samples before it are counted under the settings that they had, the registers taken at GO are in force, those before are kept for the symbols
that end at the boundary, the held data of a carrier that is left undefined in the downlink is discarded (R511), and every check of R99, R127 and R511 runs. -/
def carriersTakeEffect (p : CarPend) (s : State) : State :=
  let s := (s.at p.due).txRun
  let was := (s.now, s.eff) :: s.carWas.filter fun x => decide (s.now < x.1 + 100 * msU)
  let s := { s with eff := rfMerge carrierReg p.vals s.eff, carPend := none, carWas := was }.put Fld.LNK_CAR_COMMIT_GO 0
  let s := s.awake.foldl (fun s h => clearNcoPend h p.dirty s) s
  let s := dropUndefined s
  let s := (List.range 8).foldl (fun s n => commitLnk n 1 (commitLnk n 0 s)) s
  s.awake.foldl (fun s h => commitHamlet h s) s

/-- CARRIER_COMMIT_TAKE_EFFECT (R53, R99, R127, R511). -/
def execCarrierCommitTakeEffect (s : State) : Host.Outcome State Fault Refusal :=
  .next (match s.carPend with
    | none => s
    | some p => carriersTakeEffect p s)

/-- One layer's contribution to element `k` at a resource element (R62), in units of 2^-105 of full scale: the attenuation of 0.25 dB steps times the
weight times the decompressed value, scaled by 2^(15-E). -/
def layerTerm (atten : Nat) (w : Int × Int) (e : Nat) (x : PrbData) (sc : Nat) : Int × Int :=
  cscale (tenth atten 80 * (2 ^ x.e * 2 ^ (15 - e) : Nat)) (cmul w (x.i.getD sc 0, x.q.getD sc 0))

/-- A term added to a 40-bit accumulator, which rounds it convergently to its own place and saturates (R62, R87). -/
def accumulate (acc : Int) (z : Int) : Int := clampS 40 (acc + roundEven (z * (2 ^ Config.accFrac : Nat)) (2 ^ 105))

/-- Does hamlet `h` form this carrier's symbol: in service, its carrier enabled, the symbol downlink in its latched table (R73, R76, R99)? -/
def State.forms (s : State) (h : Fin 8) (car : Nat) (t0 t1 : Nat) : Bool :=
  s.inService h && !s.bit (Fld.TXC_STAT_CARDIS.h h) car && s.dirOver h 0 t0 t1

/-- The air start of the symbol two before the one that begins at `t`: the prefetch takes a symbol's weights while it has room for two (R27). -/
def Car.twoBefore (c : Car) (t : Nat) : Nat :=
  let before (t : Nat) : Nat :=
    let base := (t - 1) / msU * msU
    ((List.range (c.syms * slotsPerSub c.num)).filter fun n => decide (base + symTicks c.num c.ecp n * tickU < t)).foldl
      (fun m n => max m (base + symTicks c.num c.ecp n * tickU)) base
  before (before t)

/-- Is the weight prefetch of hamlet `h` empty when a downlink symbol is formed, at the deadline now (R27)? -/
def State.dlStarved (s : State) (h : Fin 8) (c : Car) (air : Nat) : Bool := s.starved h (c.twoBefore air - (air - s.now)) s.now

/-- The value of element `k` of hamlet `h` at subcarrier `sc` of a PRB, and whether it saturated (R62, R87). An empty weight
prefetch (`dry`) gives zero weights (R27). -/
def formElement (s : State) (h : Fin 8) (dry : Bool) (k : Nat) (cells : List (DlCell × Desc)) (c : Car) (y : SymId) (air prb sc : Nat) :
    (Int × Bool) × (Int × Bool) :=
  let z := (cells.filter fun x => x.1.prb == prb).foldl (fun (acc : Int × Int) x =>
    match s.descWeight h k x.2 c.num y air prb with
    | none => acc
    | some (w, e) =>
      let p := layerTerm x.2.atten w e x.1.data sc
      (accumulate acc.1 p.1, accumulate acc.2 p.2)) (0, 0)
  let z := if dry then (0, 0) else z
  (roundSat 18 (z.1 * 32768) (2 ^ Config.accFrac), roundSat 18 (z.2 * 32768) (2 ^ Config.accFrac))

/-- The iFFT inputs of one hamlet, with a mark where a component saturated (R62, R93). -/
def formHamlet (s : State) (h : Fin 8) (dry : Bool) (cells : List (DlCell × Desc)) (c : Car) (n : Nat) (y : SymId) (air : Nat) : List (YVal × Bool) :=
  let prbs := (cells.map fun x => x.1.prb).eraseDups
  (List.range 8).flatMap fun k => prbs.flatMap fun p => (List.range 12).map fun sc =>
    let v := formElement s h dry k cells c y air p sc
    (⟨8 * h + k, binIndex c.lte c.nrb n (12 * p + sc), v.1.1, v.2.1⟩, v.1.2 || v.2.2)

/-- A symbol's iFFT inputs in hamlet `h` as the weights in force now give them, and its saturated values (R62, R63). -/
def TxSymbol.weigh (s : State) (h : Fin 8) (x : TxSymbol) : TxSymbol :=
  if x.hs.contains h then
    let ys := formHamlet s h (x.dry.contains h) x.cells (carOf x.cfg) x.n x.sid x.air
    { x with
      y := (x.y.filter fun v => v.e / 8 != h.val) ++ ys.map fun v => v.1
      sat := (x.sat.filter fun e => e / 8 != h.val) ++ (ys.filter fun v => v.2).map fun v => v.1.e }
  else x

/-- What a change of the weights in hamlet `h` at `d` does to the symbols formed before it (R63): those whose air start lies at or after `d` take the new ones. -/
def reweigh (h : Fin 8) (d : Nat) (s : State) : State :=
  { s with dl := { s.dl with syms := s.dl.syms.map fun x => if d ≤ x.air && !x.counted then x.weigh s h else x } }

/-- The PRB-symbols of layer data whose descriptor gives an invalid vector, by group (R70). -/
def badGroups (s : State) (cells : List (DlCell × Desc)) (num : Nat) (y : SymId) (air : Nat) : Nat :=
  ((cells.filter fun x => x.2.wsrc == 1 && !s.vectorValid (bankOf num y) (x.2.wref + x.2.group x.1.prb) air).map fun x =>
    (x.1.layer, x.2.startPrb, x.2.group x.1.prb)).eraseDups.length

/-- The symbol that the hamlets form from its layer data (R62, R92 to R96). DESIGN CHOICE (log 126): the spec does not say which settings a symbol takes whose data deadline
lies before a commit's frame boundary and whose air start lies at or after it; here it takes those in force at the deadline. Its weights are those at its air start (R63). -/
def formSymbol (car : Nat) (c : Car) (y : SymId) (air t1 : Nat) (cells : List (DlCell × Desc)) (s : State) : State :=
  let n := fftN (s.eget (Fld.LNK_DL_CARn_FFTSZ.i car))
  let hs := (List.finRange 8).filter fun h => s.forms h car air t1
  let dry := hs.filter fun h => s.dlStarved h c air
  let ys := hs.flatMap fun h => formHamlet s h (dry.contains h) cells c n y air
  let frozen := !dry.isEmpty
  let s := if frozen then s.add (Fld.LNK_RTC_CNTn_COUNT.i 5) (cells.map fun x => x.1.prb).eraseDups.length
    else noteWeights hs (cells.map fun x => (x.2, x.1.prb)) c.num y air s
  let s := s.add (Fld.LNK_RTC_CNTn_COUNT.i 6) (badGroups s cells c.num y air)
  let field (f : Field) : List Nat := (List.finRange 8).map fun (h : Fin 8) => s.eget ((f.i car).h h)
  let ncp := cpLen c.num c.ecp n (y.slot * c.syms + y.sym)
  let rate := rateH (s.eget (Fld.LNK_DL_CARn_FFTSZ.i car)) c.num
  let sym : TxSymbol := {
    car := car
    air := air
    n := n
    ncp := ncp
    win := (field Fld.TXC_CARn_WIN).map fun w => winLen w n
    shift := (field Fld.TXC_CARn_SHIFT).map shiftOf
    phc := (field Fld.TXC_CARn_PHC).map fun p => p == 1 && !c.lte
    f0 := (List.finRange 8).map fun (h : Fin 8) =>
      (s.eget (Fld.TXC_NCO_FREQ_FREQ.h h) : Int) + signed 21 (s.eget (Fld.TXC_CNCOn_OFFS.i car |>.h h))
    ref := air % msU / tickU + ncp * 2 ^ rate
    rate := rate
    y := ys.map fun x => x.1
    sid := y
    cfg := s.erd (Reg.LNK_CAR_CFGn + 4 * car)
    cells := cells
    hs := hs
    dry := dry
    sat := (ys.filter fun x => x.2).map fun x => x.1.e }
  { s with dl := { s.dl with syms := sym :: s.dl.syms.filter fun x => decide (s.now < x.air + 3 * msU) } }

/-- The data deadline of a symbol (R89): the held data is distributed, missing PRBs are zero and counted, LATE and notice 0x418; data of a symbol
that is not downlink is discarded and counted (R91), layers above SHEDL are discarded uncounted (R370). -/
def dlDeadline (car : Nat) (y : SymId) (s : State) : State :=
  let c := s.car car
  let air := s.airStart c y
  let t1 := air + c.symLen y
  let s := (s.at (air - s.tDlOf car)).txRun
  let top := min c.dll (s.shedLevel air)
  let mine := s.dl.cells.filter fun d => d.car == car && d.sym == y && d.layer ≤ s.shedLevel air
  let s := { s with dl := { s.dl with cells := s.dl.cells.filter fun d => !(d.car == car && d.sym == y) } }
  if !s.isDownlink air t1 then wrongDir car 0 y air (s.add (Fld.LNK_DL_CNTn_COUNT.i 4) mine.length)
  else
    let missing := (top + 1) * c.nrb - (mine.filter fun d => d.layer ≤ top).length
    let late := s.get Fld.LNK_DL_STAT_LATE
    let s := s.add (Fld.LNK_DL_CNTn_COUNT.i 0) missing
    let s := if missing = 0 ∨ bitOf late car then s
      else let s := s.setBit Fld.LNK_DL_STAT_LATE car
        s.raise 0x418 0xFF (s.rd Reg.LNK_DL_STAT).toNat
    let gov := mine.map fun d => (d, s.governing car 0 d.layer y air d.prb)
    let s := s.add (Fld.LNK_RTC_CNTn_COUNT.i 3) (gov.filter fun x => x.2.isNone).length
    let cells : List (DlCell × Desc) := gov.filterMap fun x => match x.2 with | some d => some (x.1, d) | none => none
    formSymbol car c y air t1 cells s

/-- DL_DATA_DEADLINE (R89): at the deadline of symbol `sym` of a slot. A carrier that is undefined in the downlink has no
deadline. -/
def execDlDataDeadline (car : Fin 8) (x : SlotId) (sym : Nat) (s : State) : Host.Outcome State Fault Refusal :=
  .next (if s.carDefined car 0 then dlDeadline car (x.symbol sym) s else s)

/-! ### Changes of the weights (R63, R65, R67, R70) -/

/-- BFM_COMMIT_INSTANT (R63, R65): from the commit instant on, symbols use the shadow of the committed entries, and the
copy runs: PEND clears and BUSY is set. What the commit replaces is kept while a symbol or an occasion that began before it can still be combined. -/
def execBfmCommitInstant (h : Fin 8) (s : State) : Host.Outcome State Fault Refusal :=
  .next (match s.bfm[h].pend with
    | none => s
    | some p => match p.due with
      | none => s
      | some d =>
        let s := (((s.at d).put (Fld.BFM_COMMIT_STAT_PEND.h h) 0).put (Fld.BFM_COMMIT_STAT_BUSY.h h) 1).put (Fld.BFM_COMMIT_CTRL_GO.h h) 0
        let old := s.bfm[h].old.filter fun o => decide (s.now < o.till + 100 * msU)
        reweigh h d { s with bfm := s.bfm.set h { s.bfm[h] with pend := none, copying := some p, old := sliceEntries h p d s ++ old } })

/-- BFM_BASES_TAKE_EFFECT (R67). -/
def execBfmBasesTakeEffect (h : Fin 8) (s : State) : Host.Outcome State Fault Refusal :=
  .next (match s.bfm[h].basesDue with
    | none => s
    | some d =>
      let a := hamletBase h + Reg.BFM_BASES
      let was := (d, s.erd a) :: s.bfm[h].was.filter fun p => decide (d < p.1 + 100 * msU)
      reweigh h d { (s.at d).take a with bfm := s.bfm.set h { s.bfm[h] with basesDue := none, was := was } })

/-- WEIGHT_REFCAR_CHANGE (R70): at the frame boundary REFCAR takes effect and both banks' bits clear. -/
def execWeightRefcarChange (s : State) : Host.Outcome State Fault Refusal :=
  .next (match s.refcarDue with
    | none => s
    | some d => (List.finRange 8).foldl (fun s h => reweigh h d s)
        (clearBank 1 (clearBank 0 { (s.at d).take Reg.LNK_WCFG with refcarDue := none })))

/-! ### Bank swaps (R102, R103, R108, R131) -/

/-- The request that a WHEN code makes now: 0.5 us ahead, the next half-subframe boundary at least 2 us ahead, or (WHEN 2) a silent symbol after
now. -/
def State.swapReq (s : State) (whenCode xf : Nat) : SwapReq :=
  ⟨whenCode, if whenCode = 0 then s.now + 28311552000 else if whenCode = 1 then halfAfter2 s.now else s.now, xf⟩

/-- The instant of a pending request: `late` asks for the fall-back of WHEN 2, the first half-subframe boundary when no silent symbol began
within 10 ms (R102). -/
def State.swapAt (s : State) (h : Fin 8) (dir : Nat) (q : SwapReq) (late : Bool) : Option Nat :=
  if q.whenCode ≠ 2 then (if late then none else some q.due)
  else match s.silentAfter h dir q.due with
    | some t => if late then none else some t
    | none => if late then some (nextMult (q.due + 10 * msU) halfU) else none

/-- A write to `TXC_FSWAP` or `RXC_FSWAP` (R102, R103, R131): WHEN 3 makes it ignored; each named carrier gets a request, which replaces
a pending one and sets COLLAPSED. -/
def fswapWrite (rx : Bool) (h : Fin 8) (v : Word) (s : State) : State :=
  let wc := getBits Fld.TXC_FSWAP_WHEN v
  let mask := getBits Fld.TXC_FSWAP_CARMASK v
  let pend := if rx then Fld.RXC_FSTAT_PEND.h h else Fld.TXC_FSTAT_PEND.h h
  let coll := if rx then Fld.RXC_FSTAT_COLLAPSED.h h else Fld.TXC_FSTAT_COLLAPSED.h h
  if wc = 3 then s
  else (List.range 8).foldl (fun s n =>
    if bitOf mask n then
      let s := if s.bit pend n then s.setBit coll n else s
      let s := s.setBit pend n
      let q := some (s.swapReq wc 0)
      if rx then { s with rxSwap := s.rxSwap.set (idx64 h n) q } else { s with txSwap := s.txSwap.set (idx64 h n) q }
    else s) s

/-- TX_FILTER_SWAP_REQUEST (R102, R103). -/
def execTxFilterSwapRequest (r : Req) (h : Fin 8) (v : Word) (s : State) : Host.Outcome State Fault Refusal :=
  .next (regCmd r (hamletBase h + Reg.TXC_FSWAP) v (fswapWrite false h v) s)

/-- RX_FILTER_SWAP_REQUEST (R131). -/
def execRxFilterSwapRequest (r : Req) (h : Fin 8) (v : Word) (s : State) : Host.Outcome State Fault Refusal :=
  .next (regCmd r (hamletBase h + Reg.RXC_FSWAP) v (fswapWrite true h v) s)

/-- A pending filter swap takes place: the carrier's active bank changes (R102); it waits while the converter clock stands still (R343). -/
def filterSwap (rx : Bool) (h n : Fin 8) (late : Bool) (s : State) : State :=
  if s.clockStops h then s
  else match (if rx then s.rxSwap[idx64 h n] else s.txSwap[idx64 h n]) with
  | none => s
  | some q => match s.swapAt h (b2n rx) q late with
    | none => s
    | some t =>
      let act := if rx then Fld.RXC_FSTAT_ACTIVE.h h else Fld.TXC_FSTAT_ACTIVE.h h
      let pend := if rx then Fld.RXC_FSTAT_PEND.h h else Fld.TXC_FSTAT_PEND.h h
      let lf := if rx then Fld.RXC_FSTAT_LATE.h h else Fld.TXC_FSTAT_LATE.h h
      let s := ((s.at t).keepWas h act.reg (s.rd act.reg) t).clrBit pend n
      let s := if s.bit act n then s.clrBit act n else s.setBit act n
      let s := if late then s.put lf 1 else s
      if rx then { s with rxSwap := s.rxSwap.set (idx64 h n) none } else { s with txSwap := s.txSwap.set (idx64 h n) none }

/-- FILTER_SWAP (R102, R131). -/
def execFilterSwap (rx : Bool) (h n : Fin 8) (s : State) : Host.Outcome State Fault Refusal := .next (filterSwap rx h n false s)

/-- FILTER_SWAP_FALLBACK (R102). -/
def execFilterSwapFallback (rx : Bool) (h n : Fin 8) (s : State) : Host.Outcome State Fault Refusal := .next (filterSwap rx h n true s)

/-- A write to a channeliser coefficient (R103, R131): refused for the active bank and for the bank that a pending swap will make active. -/
def filterCoefWrite (rx : Bool) (r : Req) (h : Fin 8) (a : Nat) (v : Word) (s : State) : State :=
  let off := (localAddr a) % 0x10000 - 0x2000
  let c := off / 0x400
  let b := off / 0x200 % 2
  let act := if rx then Fld.RXC_FSTAT_ACTIVE.h h else Fld.TXC_FSTAT_ACTIVE.h h
  let pend := if rx then Fld.RXC_FSTAT_PEND.h h else Fld.TXC_FSTAT_PEND.h h
  let wr := if rx then Fld.RXC_FSTAT_WRREF.h h else Fld.TXC_FSTAT_WRREF.h h
  if b2n (s.bit act c) = b || s.bit pend c then (s.put wr 1).refuse4 r a else s.storeReg r a v

/-- A write to `TXC_CFR_SWAP` (R108). -/
def cfrSwapWrite (h : Fin 8) (v : Word) (s : State) : State :=
  if getBits Fld.TXC_CFR_SWAP_GO v = 0 ∨ getBits Fld.TXC_CFR_SWAP_WHEN v = 3 then s
  else
    let s := if s.flag (Fld.TXC_CFR_STAT_PEND.h h) then s.put (Fld.TXC_CFR_STAT_COLLAPSED.h h) 1 else s
    let s := s.put (Fld.TXC_CFR_STAT_PEND.h h) 1
    { s with tx := s.tx.set h { s.tx[h] with cfr := some (s.swapReq (getBits Fld.TXC_CFR_SWAP_WHEN v) 0) } }

/-- CFR_SWAP_REQUEST (R108). -/
def execCfrSwapRequest (r : Req) (h : Fin 8) (v : Word) (s : State) : Host.Outcome State Fault Refusal :=
  .next (regCmd r (hamletBase h + Reg.TXC_CFR_SWAP) v (cfrSwapWrite h v) s)

/-- CFR_PULSE_SWAP (R108, R343): at its instant (`late`: at the fall-back of WHEN 2) the pulse bank changes for all eight paths. -/
def execCfrPulseSwap (h : Fin 8) (late : Bool) (s : State) : Host.Outcome State Fault Refusal :=
  .next (if s.clockStops h then s else match s.tx[h].cfr with
    | none => s
    | some q => match s.swapAt h 0 q late with
      | none => s
      | some t =>
        let a := (Fld.TXC_CFR_STAT_ACTIVE.h h).reg
        let s := (((s.at t).keepWas h a (s.rd a) t).put (Fld.TXC_CFR_STAT_PEND.h h) 0).put (Fld.TXC_CFR_STAT_ACTIVE.h h)
          (1 - s.get (Fld.TXC_CFR_STAT_ACTIVE.h h))
        let s := if late then s.put (Fld.TXC_CFR_STAT_LATE.h h) 1 else s
        { s with tx := s.tx.set h { s.tx[h] with cfr := none } })

/-- A write to a pulse tap (R108). -/
def pulseWrite (r : Req) (h : Fin 8) (a : Nat) (v : Word) (s : State) : State :=
  let b := ((localAddr a) % 0x10000 - 0x4000) / 0x400
  if s.get (Fld.TXC_CFR_STAT_ACTIVE.h h) = b ∨ s.flag (Fld.TXC_CFR_STAT_PEND.h h) then (s.put (Fld.TXC_CFR_STAT_WRREF.h h) 1).refuse4 r a
  else s.storeReg r a v

/-! ### Predistortion (R109 to R112) -/

/-- A write to `DPD_CFG` (R109): a change of K, M or L while EN is not 0, or to more than 128 terms, is ignored and recorded with
reason 4; EN of the same write is applied, at its half-subframe boundary. DESIGN CHOICE (log 39): so is a change to K = 0 or K above 9, which R109 excludes
without saying what the write does. -/
def dpdCfgWrite (r : Req) (h : Fin 8) (v : Word) (s : State) : State :=
  let a := hamletBase h + Reg.DPD_CFG
  let k := getBits Fld.DPD_CFG_K v
  let kml (w : Word) := (getBits Fld.DPD_CFG_K w, getBits Fld.DPD_CFG_MM1 w, getBits Fld.DPD_CFG_L w)
  let bad := kml v != kml (s.rd a) && (s.flag (Fld.DPD_CFG_EN.h h) || k == 0 || decide (9 < k)
    || decide (128 < dpdTerms k (getBits Fld.DPD_CFG_MM1 v + 1) (getBits Fld.DPD_CFG_L v)))
  let s1 := if bad then (s.put (Fld.DPD_CFG_EN.h h) (getBits Fld.DPD_CFG_EN v)).refuse4 r a else s.storeReg r a v
  { s1 with tx := s1.tx.set h { s1.tx[h] with sets := s1.tx[h].sets ++ [⟨halfAfter2 s1.now, a, s1.rd a⟩] } }

/-- The samples of a cross-fade (R110). -/
def fadeLen (xf : Nat) : Nat := if xf = 0 then 0 else 2 ^ (min xf 12 + 8) * orxU

/-- A write to `DPD_SWAPk` (R111): pending with no fade running, held behind one; a later request replaces an earlier one. -/
def dpdSwapWrite (h k : Fin 8) (v : Word) (s : State) : State :=
  let wc := getBits Fld.DPD_SWAPk_WHEN v
  let q := some (s.swapReq wc (getBits Fld.DPD_SWAPk_XF v))
  let i := idx64 h k
  if wc = 3 then s
  else if s.flag ((Fld.DPD_STATk_XF.i k).h h) then
    let s := if s.flag ((Fld.DPD_STATk_HELD.i k).h h) then s.put ((Fld.DPD_STATk_COLLAPSED.i k).h h) 1 else s
    { s.put ((Fld.DPD_STATk_HELD.i k).h h) 1 with dpd := s.dpd.set i { s.dpd[i] with held := q } }
  else
    let s := if s.flag ((Fld.DPD_STATk_PEND.i k).h h) then s.put ((Fld.DPD_STATk_COLLAPSED.i k).h h) 1 else s
    { s.put ((Fld.DPD_STATk_PEND.i k).h h) 1 with dpd := s.dpd.set i { s.dpd[i] with pend := q } }

/-- DPD_SWAP_REQUEST (R111). -/
def execDpdSwapRequest (r : Req) (h k : Fin 8) (v : Word) (s : State) : Host.Outcome State Fault Refusal :=
  .next (regCmd r (hamletBase h + Reg.DPD_SWAPk + 4 * k) v (dpdSwapWrite h k v) s)

/-- A fade starts now (R110): ACTIVE names the incoming bank, XF reads 1 until its end. With XF = 0 the banks change between two samples; DESIGN CHOICE
(log 40): that fade of no length ends at once, so DONE is set and 0xFFF4 is posted. -/
def fadeStart (h k : Fin 8) (xf : Nat) (late : Bool) (s : State) : State :=
  let i := idx64 h k
  let s := (s.put ((Fld.DPD_STATk_ACTIVE.i k).h h) (1 - s.get ((Fld.DPD_STATk_ACTIVE.i k).h h))).put ((Fld.DPD_STATk_PEND.i k).h h) 0
  let s := if late then s.put ((Fld.DPD_STATk_LATE.i k).h h) 1 else s
  let fades := (s.now, fadeLen xf, s.get ((Fld.DPD_STATk_ACTIVE.i k).h h)) :: s.dpd[i].fades.filter fun f => decide (s.now < f.1 + 5 * msU)
  if xf = 0 then ({ s with dpd := s.dpd.set i { s.dpd[i] with pend := none, fades := fades } }.put ((Fld.DPD_STATk_DONE.i k).h h) 1).notify h 0xFFF4
  else { s.put ((Fld.DPD_STATk_XF.i k).h h) 1 with
    dpd := s.dpd.set i { s.dpd[i] with pend := none, fadeEnd := some (s.now + fadeLen xf), fades := fades } }

/-- DPD_FADE_START (R110, R343): `late` says that it is the fall-back of WHEN 2. -/
def execDpdFadeStart (h k : Fin 8) (late : Bool) (s : State) : Host.Outcome State Fault Refusal :=
  .next (if s.clockStops h then s else match s.dpd[idx64 h k].pend with
    | none => s
    | some q => match s.swapAt h 0 q late with
      | none => s
      | some t => fadeStart h k q.xf late (s.at t))

/-- A held request becomes a new request at this sample: with WHEN 0 its fade starts at once (R111). -/
def releaseHeld (h k : Fin 8) (s : State) : State :=
  let i := idx64 h k
  match s.dpd[i].held with
  | none => s
  | some q =>
    let s := { s.put ((Fld.DPD_STATk_HELD.i k).h h) 0 with dpd := s.dpd.set i { s.dpd[i] with held := none } }
    if q.whenCode = 0 then fadeStart h k q.xf false s
    else { s.put ((Fld.DPD_STATk_PEND.i k).h h) 1 with
      dpd := s.dpd.set i { s.dpd[i] with pend := some (s.swapReq q.whenCode q.xf) } }

/-- DPD_FADE_END (R110, R111): DONE is set and 0xFFF4 is posted; a held request follows. -/
def execDpdFadeEnd (h k : Fin 8) (s : State) : Host.Outcome State Fault Refusal :=
  .next (match s.dpd[idx64 h k].fadeEnd with
    | none => s
    | some t =>
      let s := ((s.at t).put ((Fld.DPD_STATk_XF.i k).h h) 0).put ((Fld.DPD_STATk_DONE.i k).h h) 1
      let i := idx64 h k
      releaseHeld h k ({ s with dpd := s.dpd.set i { s.dpd[i] with fadeEnd := none } }.notify h 0xFFF4))

/-- A write to a DPD coefficient (R112): refused for the active bank, the outgoing bank of a fade, and the bank a pending request will
make active. -/
def dpdCoefWrite (r : Req) (h : Fin 8) (a : Nat) (v : Word) (s : State) : State :=
  let off := (localAddr a) % 0x10000 - 0x4000
  let k := off / 0x800
  let b := off / 0x400 % 2
  if s.get ((Fld.DPD_STATk_ACTIVE.i k).h h) = b ∨ s.flag ((Fld.DPD_STATk_XF.i k).h h) ∨ s.flag ((Fld.DPD_STATk_PEND.i k).h h) then
    (s.put ((Fld.DPD_STATk_WRREF.i k).h h) 1).refuse4 r a
  else s.storeReg r a v

/-! ### Settings of the half-subframe boundary and the mute ramps (R104 to R106, R108, R113, R128, R129) -/

/-- A write to a setting that takes effect at a half-subframe boundary (R104, R108, R113, R128, R129). EN of a receive path that is set ends the precondition of a
calibration of it (R400, R401). -/
def halfSetWrite (r : Req) (h : Fin 8) (a : Nat) (v : Word) (s : State) : State :=
  let s := s.storeReg r a v
  let s := (List.finRange 8).foldl (fun s (k : Fin 8) =>
    if a = ((Fld.RXC_TRIMk_EN.i k).h h).reg ∧ s.flag ((Fld.RXC_TRIMk_EN.i k).h h) then s.loseUnit h 6 k else s) s
  { s with tx := s.tx.set h { s.tx[h] with sets := s.tx[h].sets ++ [⟨halfAfter2 s.now, a, s.rd a⟩] } }

/-- Is hamlet `h` in the safety state, or its safety ramp running (R106)? -/
def State.inSafety (s : State) (h : Fin 8) : Bool := s.flag (Fld.TXC_STAT_SAFE.h h) || s.tx[h].rampEnd.isSome

/-- A write to `TXC_PATHk` (R104 to R106): ATT waits for its boundary; a change of MUTE starts a ramp at the boundary, in place of one
that waits for the same boundary, and from the request of a safety ramp on MUTE stays 1. -/
def pathWrite (r : Req) (h k : Fin 8) (v : Word) (s : State) : State :=
  let safe := s.inSafety h
  let old := s.get ((Fld.TXC_PATHk_MUTE.i k).h h)
  let s := halfSetWrite r h (hamletBase h + Reg.TXC_PATHk + 4 * k) (if safe then v ||| 0x80000000#32 else v) s
  let i := idx64 h k
  if s.get ((Fld.TXC_PATHk_MUTE.i k).h h) = old then s
  else { s with mute := s.mute.set i { s.mute[i] with
    pend := (s.mute[i].pend.filter fun p => p.1 != halfAfter2 s.now) ++ [(halfAfter2 s.now, s.flag ((Fld.TXC_PATHk_MUTE.i k).h h))] } }

/-- The corrections of hamlet `h` that wait for the boundary `d` come into force (R403). -/
def takeCal (h : Fin 8) (d : Nat) (s : State) : State :=
  let mine (c : Nat × Nat × List Int) : Bool := c.1 == d && c.2.1 / 256 == h.val
  { s with cal := { s.cal with
    trims := (s.cal.next.filter mine).foldl (fun l c => (c.2.1, c.2.2) :: l.filter fun x => x.1 != c.2.1) s.cal.trims
    next := s.cal.next.filter fun c => !mine c } }

/-- The backoff steps that wait for the boundary `d` come into force (R370). -/
def takeBackoff (h : Fin 8) (d : Nat) (s : State) : State :=
  match s.thm.boDue[h].filter fun x => x.1 == d with
  | [] => s
  | x :: t =>
    let n := (t.getLast?.getD x).2
    let was := (d, s.thm.bo[h]) :: s.tx[h].boWas.filter fun x => decide (d < x.1 + 5 * msU)
    { s with
      thm := { s.thm with bo := s.thm.bo.set h n, boDue := s.thm.boDue.set h (s.thm.boDue[h].filter fun x => x.1 != d) }
      tx := s.tx.set h { s.tx[h] with boWas := was } }

/-- HALF_SUBFRAME_SETTINGS (R102, R104, R108, R109, R113, R128, R129, R343, R370, R403): at the earliest boundary that a written setting, the thermal backoff or
a calibration correction waits for, every setting of that boundary is in force; while the converter clock stands still they wait on. -/
def execHalfSubframeSettings (h : Fin 8) (s : State) : Host.Outcome State Fault Refusal :=
  .next (if s.clockStops h then s else match (s.tx[h].sets.map fun y => y.due) ++ (s.thm.boDue[h].map fun x => x.1) ++ (s.cal.next.filter fun c => c.2.1 / 256 == h.val).map fun c => c.1 with
    | [] => s
    | x :: t =>
      let d := t.foldl min x
      let ys := s.tx[h].sets
      let s := ys.foldl (fun s y => if y.due = d then (s.keepWas h y.addr (s.erd y.addr) d).ewr y.addr y.word else s) (s.at d)
      takeBackoff h d (takeCal h d { s with tx := s.tx.set h { s.tx[h] with sets := ys.filter fun y => y.due != d } }))

/-- The mute gain of a path reaches its target (R105). -/
def muteReached (h k : Fin 8) (s : State) : State :=
  let i := idx64 h k
  let m := s.mute[i]
  let s := { s with mute := s.mute.set i { m with gain := m.target, ramping := false } }
  if m.target = 0 then s.setBit (Fld.TXC_STAT_MUTED.h h) k else (s.clrBit (Fld.TXC_STAT_MUTED.h h) k).loseUnit h 4 k

/-- The mute gain of a path starts its ramp at `d` from the present gain over RAMP us (R105): to 0 while MUTE in force is 1 or a rotation mutes the path (R370).
MUTED falls unless the gain is 0 and stays 0. -/
def rampNow (h k : Fin 8) (d : Nat) (s : State) : State :=
  let i := idx64 h k
  let m := s.mute[i]
  let g := m.gainAt d
  let tgt : Nat := if m.muted || s.rotMuted h k then 0 else 65536
  let len := min (s.get ((Fld.TXC_PATHk_RAMP.i k).h h)) 100 * usU
  let s := { s with mute := s.mute.set i { m with gain := g, target := tgt, start := d, len := len, ramping := true } }
  if len = 0 then muteReached h k s
  else if g = 0 ∧ tgt = 0 then s
  else (s.clrBit (Fld.TXC_STAT_MUTED.h h) k).loseUnit h 4 k

/-- MUTE_RAMP_START (R105, R343): the ramp of the oldest waiting change starts from the present gain over RAMP us; RAMP = 0 steps. -/
def execMuteRampStart (h k : Fin 8) (s : State) : Host.Outcome State Fault Refusal :=
  .next (if s.clockStops h then s else match s.mute[idx64 h k].pend with
    | [] => s
    | (d, v) :: rest =>
      let i := idx64 h k
      rampNow h k d { s.at d with mute := s.mute.set i { s.mute[i] with muted := v, pend := rest } })

/-- MUTE_RAMP_END (R105). -/
def execMuteRampEnd (h k : Fin 8) (s : State) : Host.Outcome State Fault Refusal :=
  .next (let m := s.mute[idx64 h k]
    if m.ramping && (s.tx[h].rampEnd).isNone then muteReached h k (s.at (m.start + m.len)) else s)

/-- SAFETY_RAMP (R106): a request at `t` starts the safety ramp of a running hamlet. -/
def execSafetyRamp (h : Fin 8) (t : Nat) (s : State) : Host.Outcome State Fault Refusal :=
  .next (if 2 ≤ s.hstate h then (s.at t).safetyRamp h else s)

/-- SAFETY_RAMP_END (R106): every path sends zero code, and SAFE reads 1. -/
def execSafetyRampEnd (h : Fin 8) (s : State) : Host.Outcome State Fault Refusal :=
  .next (match s.tx[h].rampEnd with
    | none => s
    | some d =>
      let s := (List.finRange 8).foldl (fun s k => muteReached h k s) ((s.at d).put (Fld.TXC_STAT_SAFE.h h) 1)
      { s with tx := s.tx.set h { s.tx[h] with rampEnd := none } })

/-! ### While the converter PLL is unlocked (R114) -/

/-- DAC_CLOCK_GATE (R114): after 64 cycles of zero code the DAC clock is gated off. -/
def execDacClockGate (h : Fin 8) (s : State) : Host.Outcome State Fault Refusal :=
  .next (if s.tx[h].forced && !s.tx[h].dacGated && s.tx[h].resumeDue.isNone then
      let s := s.at (s.tx[h].forcedAt + 64 * 3200000)
      { s with tx := s.tx.set h { s.tx[h] with dacGated := true } }
    else s)

/-- TX_DATA_RESUME (R114): at the half-subframe boundary data resumes and UNLOCKED reads 0; the slots that held forced samples are
counted. -/
def execTxDataResume (h : Fin 8) (s : State) : Host.Outcome State Fault Refusal :=
  .next (match s.tx[h].resumeDue with
    | none => s
    | some d =>
      let s := (((s.at d).txRun).countTx h (d - 1)).put (Fld.TXC_STAT_UNLOCKED.h h) 0
      { s with tx := s.tx.set h { s.tx[h] with forced := false, quiet := false, dacGated := false, resumeDue := none } })

end Sys2Proof.Machine
end

