-- ==== Sys2Proof/Machine/RxChain.lean ====
section
/-!
DEFINITION. The samples of the receive chain (R120 to R133, R138, R145): for every path, what each stage puts out for a sample number, from the
codes of its ADC. Every sample is named by its ball instant, so that the group delay of R143, T_FRONT + T_CHAN + DLY, is taken out of every stage but the fine delay.
-/

namespace Sys2Proof.Machine

/-- One RF ADC sample period, 1 / 8,847.36 MHz (R121). -/
abbrev adcU : Nat := 6400000

/-- Does an interval of forced zero samples of hamlet `h` meet the interval from `w0` up to `w1` (R142)? -/
def State.zeroIn (s : State) (h : Fin 8) (w0 w1 : Nat) : Bool :=
  (s.rx[h].forced && decide (s.rx[h].zeroFrom < w1)) || s.rx[h].zeros.any fun z => decide (z.1 < w1) && decide (w0 < z.2)

/-! ### The settings of a carrier commit at an instant (R53, R127) -/

/-- The machine under the carrier settings that a commit replaced (R127). -/
def State.under (s : State) (was : RegFile) : State :=
  { s with eff := was.foldl (fun l c => if carrierReg c.1 then rfWrite l c.1 c.2 else l) (s.eff.filter fun c => !carrierReg c.1) }

/-- The machine with the settings in force of `s`. -/
def State.settingsOf (t s : State) : State := { t with eff := s.eff }

/-- The machine with the commit's settings as they were at `t`: of the commits that took effect later, the first one's predecessors. -/
def State.asAt (s : State) (t : Nat) : State :=
  match s.carWas.foldl (fun (m : Option (Nat × RegFile)) e => if t < e.1 then some e else m) none with
  | some e => s.under e.2
  | none => s

/-- The machine with the commit's settings as they were at the air start of a symbol (R127): a commit whose boundary lies after it has no part in it. -/
def State.symView (s : State) (car : Nat) (y : SymId) : State :=
  match s.carWas.foldl (fun (m : Option (Nat × RegFile)) e =>
      if s.airStart (carOf (rfRead e.2 (Reg.LNK_CAR_CFGn + 4 * car))) y < e.1 then some e else m) none with
  | some e => s.under e.2
  | none => s

/-- The interval from `a` up to `b`, cut at the commits that took effect in it, with the machine as it was in each part. -/
def State.parts (s : State) (a b : Nat) : List (State × Nat × Nat) :=
  let cuts := (s.carWas.map fun e => e.1).reverse.filter fun d => decide (a < d) && decide (d < b)
  ((a :: cuts).zip (cuts ++ [b])).map fun p => (s.asAt p.1, p.1, p.2)

/-- Is carrier `n` disabled for reception in hamlet `h` at `t` (R127)? -/
def State.rxOff (s : State) (h : Fin 8) (n t : Nat) : Bool := bitOf (s.statusAt h (Fld.RXC_STAT_CARDIS.h h) t) n

/-- The gain state of hamlet `h` at an instant (R83, R128): that of the latched REFNUM symbol that holds it. -/
def State.gainState (s : State) (h : Fin 8) (t : Nat) : Nat :=
  ((s.slt[h].latched.filterMap fun l =>
    (l.symAt (s.refEcp l.num) t).map fun n => (l.words.getD 1 0#32).toNat / 4 ^ n % 4).head?).getD 0

/-- Does the gain state change inside a window? -/
def State.gainMixed (s : State) (h : Fin 8) (w0 w1 : Nat) : Bool :=
  s.slt[h].latched.any fun l =>
    let ecp := s.refEcp l.num
    (List.range (symsOf ecp)).any fun n =>
      let t := l.symStart ecp n
      decide (w0 < t) && decide (t < w1) && s.gainState h t != s.gainState h w0

/-- ADC sample `i` of element `e`: 12 bits, -2,047 to +2,047 (R120, R121, R124). -/
def adcCode (u : RxSamples) (e : Nat) (i : Int) : Int :=
  if i < u.first then 0 else max (-2047) (min 2047 ((u.adc.getD e []).getD (i - u.first).toNat 0))

/-- Composite sample `c` of a path after the RF NCO and the decimation by 4, Q1.15: a real input of peak code A has magnitude A / 2,048 (R121). The NCO's
phase is -2 pi FREQ t (R126): in zone 2 too, where it takes the image that stands upright at the balls, which is the correction of R122. Zero while it
is forced (R142). -/
def State.rxMix (s : State) (u : RxSamples) (h : Fin 8) (k : Nat) (c : Int) : Cx × Bool :=
  let t := ballAt compU c
  if s.zeroIn h t (t + 1) then ((0, 0), false)
  else
    let f : Int := s.eget (Fld.RXC_NCO_FREQ_FREQ.h h)
    let x : Sig := fun i => cscale (32 * adcCode u (8 * h + k) i) (cis (-(f * i)) 8847360)
    roundCx 16 (fir Config.adcTap 193 96 x (4 * c)) (2 ^ 90)

/-- Composite sample `c` after the gain-state compensation GAIN e^(j PHASE 2 pi / 65,536) of the gain state at its instant, Q3.15 (R128). -/
def State.rxGain (s : State) (u : RxSamples) (h : Fin 8) (k : Nat) (c : Int) : Cx × Bool :=
  let t := ballAt compU c
  let a := (Fld.RXC_GCOMPk_g_GAIN.ij k (s.gainState h t)).h h
  let w := s.settingAt h a.reg t
  roundCx 18 (cscale (getBits Fld.RXC_GCOMPk_g_GAIN w) (cmul (cis (getBits Fld.RXC_GCOMPk_g_PHASE w) 65536) (s.rxMix u h k c).1)) (2 ^ 74)

/-- Composite sample `c` after the fine delay by DLY and the rotation by PHASE, Q3.15; zero with EN = 0 (R129). -/
def State.rxTrim (s : State) (u : RxSamples) (h : Fin 8) (k : Nat) (c : Int) : Cx × Bool :=
  let w := s.settingAt h ((Fld.RXC_TRIMk_EN.i k).h h).reg (ballAt compU c)
  if getBits Fld.RXC_TRIMk_EN w = 0 then ((0, 0), false)
  else roundCx 18 (cmul (cis (getBits Fld.RXC_TRIMk_PHASE w) 65536)
    (fineDelay (signed 13 (getBits Fld.RXC_TRIMk_DLY w)) (fun c => (s.rxGain u h k c).1) c)) (2 ^ 90)

/-- Sample `m` at rate r of carrier `car` on a path: channel NCO with the phase -2 pi OFFS t, resampler, half-bands, programmable FIR about tap 48 from the
active bank, rounded once to Q3.15 (R126, R130, R131). -/
def State.rxChannel (s : State) (u : RxSamples) (h : Fin 8) (k car : Nat) (m : Int) : Cx × Bool :=
  let r := rateH (s.eget (Fld.LNK_UL_CARn_FFTSZ.i car)) (s.car car).num
  let offs := signed 21 (s.eget (Fld.RXC_CNCOn_OFFS.i car |>.h h))
  let x : Sig := fun c => cmul (cis (-(offs * c)) 2211840) (s.rxTrim u h k c).1
  roundCx 18 (fir (s.chanTap true h car (ballAt (2 ^ r * tickU) m)) 97 48 (halfDowns r (resampleDown x)) (2 * m)) (2 ^ (60 + 30 + 30 * r + 16))

/-- The FFT window of a symbol in hamlet `h` (R132): its first instant and its end. -/
def State.fftWindow (s : State) (h : Fin 8) (n : Nat) (c : Car) (y : SymId) (air : Nat) : Nat × Nat :=
  let fz := s.eget (Fld.LNK_UL_CARn_FFTSZ.i n)
  let len := fftN fz
  let dur := 2 ^ rateH fz c.num * tickU
  let cp := cpLen c.num c.ecp len (y.slot * c.syms + y.sym)
  let adv := cpAdvance (s.eget ((Fld.RXC_CARn_CPOFFS.i n).h h)) c.num c.ecp len
  let w0 := air + (cp - adv) * dur
  (w0, w0 + len * dur)

/-- The value of a subcarrier of an uplink symbol on a path, Q3.15, rounded once (R132, R133): the sum over the FFT window, 2^-SHIFT, the rotation of the window's
advance, and with PHC on an NR carrier the phase term of TS 38.211 removed. -/
def State.rxBin (s : State) (u : RxSamples) (h : Fin 8) (k car : Nat) (c : Car) (y : SymId) (air re : Nat) : Cx × Bool :=
  let fz := s.eget (Fld.LNK_UL_CARn_FFTSZ.i car)
  let n := fftN fz
  let r := rateH fz c.num
  let b := binOf c.lte c.nrb re
  let adv := cpAdvance (s.eget ((Fld.RXC_CARn_CPOFFS.i car).h h)) c.num c.ecp n
  let m0 : Int := ((s.fftWindow h car c y air).1 / (2 ^ r * tickU) : Nat)
  let sum := csum ((List.range n).map fun (i : Nat) => cmul (cis (-(b * i)) n) (s.rxChannel u h k car (m0 + i)).1)
  let f0 := (s.eget (Fld.RXC_NCO_FREQ_FREQ.h h) : Int) + signed 21 (s.eget (Fld.RXC_CNCOn_OFFS.i car |>.h h))
  let start := air % msU / tickU + cpLen c.num c.ecp n (y.slot * c.syms + y.sym) * 2 ^ r
  let ph := if s.eget ((Fld.RXC_CARn_PHC.i car).h h) = 1 && !c.lte then cis (f0 * start) 491520 else (unitQ, 0)
  roundCx 18 (cmul ph (cmul (cis (b * adv) n) sum)) (2 ^ 180 * 2 ^ shiftOf (s.eget ((Fld.RXC_CARn_SHIFT.i car).h h)))

/-- Sample `i` of a PRACH occasion on a path (R138): the carrier's channeliser output from the occasion's first sample on, mixed by OFFS * 125 Hz with phase zero there, decimated
to r_P, Q3.15. DESIGN CHOICE (log 45): the first channeliser sample at or after the occasion's start is sample 0. -/
def State.praSample (s : State) (u : RxSamples) (h : Fin 8) (k car rate offs start : Nat) (i : Int) : Cx × Bool :=
  let r := rateH (s.eget (Fld.LNK_UL_CARn_FFTSZ.i car)) (s.car car).num
  let p := 2 ^ r * tickU
  let m0 : Int := ((start + p - 1) / p : Nat)
  let d := 8 - r - rate
  let x : Sig := fun m => cmul (cis (-(signed 22 offs * m * (2 ^ r : Nat))) 3932160) (s.rxChannel u h k car (m0 + m)).1
  roundCx 18 (fir (Config.prachTap d) (64 * 2 ^ d + 1) (32 * 2 ^ d) x (i * (2 ^ d : Nat))) (2 ^ 90)

/-! ### Saturated samples (R120) -/

/-- The saturated composite samples of a path between two instants: the stages of the RF NCO, the gain compensation, the fine delay. -/
def State.rxPathSat (s : State) (u : RxSamples) (h : Fin 8) (k a b : Nat) : Nat :=
  let l := samplesIn compU a b
  satCount (fun c => (s.rxMix u h k c).2) l + satCount (fun c => (s.rxGain u h k c).2) l + satCount (fun c => (s.rxTrim u h k c).2) l

/-- The saturated channeliser samples of a carrier on a path between two instants. -/
def State.rxChanSat (s : State) (u : RxSamples) (h : Fin 8) (k car a b : Nat) : Nat :=
  satCount (fun m => (s.rxChannel u h k car m).2)
    (samplesIn (2 ^ rateH (s.eget (Fld.LNK_UL_CARn_FFTSZ.i car)) (s.car car).num * tickU) a b)

end Sys2Proof.Machine
end

