-- ==== Sys2Proof/Machine/Rx.lean ====
section
/-!
DEFINITION. The receive chain: overrange marks, the uplink combine and its messages, PRACH extraction, and the return after an
unlock (R71 to R74, R120 to R143).
-/

namespace Sys2Proof.Machine

/-! ### Overrange (R124, R125) -/

/-- RX_OVERRANGE (R124, R125): a run of `n` clipped samples on path `k` whose first lies at `t0` (a sample lasts an 18th of a tick), and
the largest magnitude seen; `n` = 0 only reports a magnitude. With NBMARK the neighbours are marked too. -/
def execRxOverrange (h k : Fin 8) (t0 n peak : Nat) (s : State) : Host.Outcome State Fault Refusal :=
  .next (let s := s.at t0
    let pk := (Fld.RXC_PEAKk_PEAK.i k).h h
    let s := s.put pk (max (s.get pk) (if n = 0 then min peak 2047 else 2047))
    if n = 0 then s
    else
      let t1 := t0 + (n - 1) * adcU + 10 * nsU
      let paths := if s.flag (Fld.RXC_CTRL_NBMARK.h h) then [k.val, k.val + 1, k.val - 1].filter (fun j => j < 8) else [k.val]
      let ms := (s.rx[h].marks.filter fun m => s.now < m.t1 + 5 * frameU) ++ paths.eraseDups.map fun j => Mark.mk j t0 t1
      let old := s.get (Fld.RXC_STAT_OVR.h h)
      let s := { s with rx := s.rx.set h { s.rx[h] with marks := ms } }
      let s := (s.add ((Fld.RXC_OVRk_COUNT.i k).h h) n).setBit (Fld.RXC_STAT_OVR.h h) k
      if old = 0 then s.raise 0x422 h (2 ^ k.val) else s)

/-! ### The uplink combine (R71, R72, R132 to R137) -/

/-- T_CHAN of R116 and R143. -/
def tChan (fftsz num : Nat) : Nat := (30 * 2 ^ rateH fftsz num - 6) * tickU + 7234 * nsU / 1000

/-- The combining instant after a symbol's air end: T_FRONT, T_CHAN and T_FFT (R137, R143). -/
def tCombine (fftsz num : Nat) : Nat := 60 * nsU + tChan fftsz num + 200 * nsU + 64 * 2 ^ fftsz * tickU

/-- Is a sample of path `k` of hamlet `h` marked among those of period `dur` from `w0` up to `w1`, with the carrier's margin (R125)? -/
def State.marked (s : State) (h : Fin 8) (k d dur w0 w1 : Nat) : Bool :=
  s.rx[h].marks.any fun m => m.path == k && decide (m.t0 + dur ≤ w1 + d) && decide (w0 ≤ m.t1 + d)

/-- Is path `k` of hamlet `h` enabled in reception at an instant (R129)? -/
def State.rxOn (s : State) (h : Fin 8) (k t : Nat) : Bool := s.fieldAt h ((Fld.RXC_TRIMk_EN.i k).h h) t == 1

/-- r_e of a subcarrier of a symbol (R71, R133): the FFT output of element 8 h + k. -/
def State.rOf (s : State) (u : RxSamples) (h : Fin 8) (k car : Nat) (c : Car) (y : SymId) (air re : Nat) : Int × Int :=
  (s.rxBin u h k car c y air re).1

/-- Is the weight prefetch of hamlet `h` empty at the start of an uplink symbol (R27)? -/
def State.ulStarved (s : State) (h : Fin 8) (c : Car) (air : Nat) : Bool := s.starved h (c.twoBefore air) air

/-- A weighted sum with 30 fractional bits and its exponent, as a 24-bit partial sum (R71). -/
def partialOf (z : Int × Int) (e : Nat) : Int × Int :=
  let r (v : Int) := (roundSat 24 (v * (2 ^ Config.partialFrac : Nat)) (2 ^ (30 + e))).1
  (r z.1, r z.2)

/-- The partial beam sum of hamlet `h` at a subcarrier (R71); zero weights while its prefetch is empty (R27). -/
def State.partialSum (s : State) (u : RxSamples) (h : Fin 8) (d : Desc) (car : Nat) (c : Car) (y : SymId) (air prb sc : Nat) : Int × Int :=
  if s.ulStarved h c air then (0, 0)
  else
    let z := (List.range 8).foldl (fun (acc : (Int × Int) × Nat) k => match s.descWeight h k d c.num y air prb with
      | none => acc
      | some (w, e) => (cadd acc.1 (cmul w (s.rOf u h k car c y air (12 * prb + sc))), e)) ((0, 0), 0)
    partialOf z.1 z.2

/-- F in UQ4.12 for `n` contributing hamlets (R72). -/
def State.factor (s : State) (n : Nat) : Nat :=
  if s.flag Fld.LNK_ULC_CFG_RENORM then (roundEven 32768 n).toNat else 4096

/-- The host-port sum of partial sums: 16 bits a component, and how many components saturated (R71, R120). -/
def State.hostSum (s : State) (f : Nat) (ps : List (Int × Int)) : (Int × Int) × Nat :=
  let z := ps.foldl cadd (0, 0)
  let d := 4096 * 2 ^ s.get Fld.LNK_ULC_CFG_SHIFT * 2 ^ Config.partialFrac
  let a := roundSat 16 (z.1 * (f * 32768 : Nat)) d
  let b := roundSat 16 (z.2 * (f * 32768 : Nat)) d
  ((a.1, b.1), b2n a.2 + b2n b.2)

/-- One PRB of an uplink message: its key (what splits a run), its number, its twelve values, its saturated components. -/
structure UlPrb where
  desc : Desc
  zw   : Bool
  prb  : Nat
  vals : List (Int × Int)
  sat  : Nat
  deriving DecidableEq, Repr, Inhabited

/-- Runs of contiguous PRBs with one governing descriptor and one ZW (R136). -/
def runsOf : List UlPrb → List (List UlPrb)
  | [] => []
  | p :: t => match runsOf t with
    | (q :: r) :: rest =>
      if p.prb + 1 = q.prb ∧ p.desc = q.desc ∧ p.zw = q.zw then (p :: q :: r) :: rest else [p] :: (q :: r) :: rest
    | rest => [p] :: rest

/-- Word 0 of an uplink message (R135). -/
def ulWord0 (car : Nat) (y : SymId) (type : Nat) : Nat :=
  0x18000000 + car * 2 ^ 24 + y.frame % 256 * 65536 + y.sub * 4096 + y.slot * 256 + y.sym * 16 + type * 4

/-- What word 2 of an uplink message says (R135). -/
structure UlFlags where
  degr : Bool := false
  zw : Bool := false
  unlk : Bool := false
  sat : Bool := false
  notul : Bool := false
  gmix : Bool := false
  pdis : Bool := false
  gstate : Nat := 0
  ovrn : Nat := 0
  elems : Nat := 0
  mw : Nat := 8
  deriving DecidableEq, Repr, Inhabited

/-- Word 2 of an uplink message (R135). -/
def UlFlags.word (f : UlFlags) : Nat :=
  b2n f.degr * 2 ^ 31 + b2n (f.ovrn != 0) * 2 ^ 30 + b2n f.zw * 2 ^ 29 + b2n f.unlk * 2 ^ 28 + b2n f.sat * 2 ^ 27
    + b2n f.notul * 2 ^ 26 + b2n f.gmix * 2 ^ 25 + b2n f.pdis * 2 ^ 24 + f.gstate * 2 ^ 22 + f.ovrn * 2 ^ 15 + f.elems * 256
    + (f.mw - 8) * 16

/-- An uplink message is staged; one that is sent with DEGR or OVR is counted (R135 to R137). -/
def sendUl (flow w0 w1 : Nat) (f : UlFlags) (blocks : List (List (Int × Int))) (s : State) : State :=
  let body := toWords (packBits (blocks.flatMap fun b => compress f.mw b))
  let sent := s.sends flow (20 + 4 * body.length)
  let s := if f.degr && sent then s.inc (Fld.LNK_UL_CNTn_COUNT.i 1) else s
  let s := if f.ovrn != 0 && sent then s.inc (Fld.LNK_UL_CNTn_COUNT.i 2) else s
  s.sendIq flow ([w0, w1, f.word] ++ body)

/-- The hamlets that could contribute to a symbol: in service, carrier enabled, uplink in their latched table (R72, R76, R127). -/
def State.ulHamlets (s : State) (car t0 t1 : Nat) : List (Fin 8) :=
  (List.finRange 8).filter fun h => s.inService h && !s.rxOff h car t0 && s.dirOver h 1 t0 t1

/-- The PRBs of beam output `b` of a symbol, summed over the contributing hamlets (R71). -/
def beamPrbs (s : State) (u : RxSamples) (car : Nat) (c : Car) (y : SymId) (air : Nat) (hs : List (Fin 8)) (f b : Nat) : List UlPrb :=
  (List.range c.nrb).filterMap fun p => match s.governing car 1 b y air p with
    | none => none
    | some d =>
      if d.wsrc = 3 then none
      else
        let zw := d.wsrc == 1 && !s.vectorValid (bankOf c.num y) (d.wref + d.group p) air
        let vs := (List.range 12).map fun sc => s.hostSum f (hs.map fun h => s.partialSum u h d car c y air p sc)
        some { desc := d, zw := zw, prb := p, vals := vs.map (·.1), sat := (vs.map (·.2)).sum }

/-- The PRBs that element mode sends of element `k` of hamlet `h`: rounded to Q1.15 with saturation (R74, R133). -/
def elementPrbs (s : State) (u : RxSamples) (car : Nat) (c : Car) (y : SymId) (air : Nat) (h : Fin 8) (k : Nat) : List UlPrb :=
  (List.range c.nrb).filterMap fun p =>
    match (List.range (c.ulb + 1)).findSome? (fun b => match s.governing car 1 b y air p with
      | some d => if d.wsrc = 3 then some d else none
      | none => none) with
    | none => none
    | some d =>
      let vs := (List.range 12).map fun sc =>
        let r := s.rOf u h k car c y air (12 * p + sc)
        ((clampS 16 r.1, clampS 16 r.2), b2n (clampS 16 r.1 != r.1) + b2n (clampS 16 r.2 != r.2))
      some { desc := d, zw := false, prb := p, vals := vs.map (·.1), sat := (vs.map (·.2)).sum }

/-- Word 1 of a beam or element message (R135). -/
def ulWord1 (run : List UlPrb) (beam elem : Nat) : Nat :=
  (run.headD default).prb * 2 ^ 23 + run.length * 2 ^ 14 + beam * 1024 + elem * 16

/-- The messages of one beam output (R136). -/
def sendBeam (flow w0 b : Nat) (f : UlFlags) (prbs : List UlPrb) (s : State) : State :=
  (runsOf prbs).foldl (fun s run =>
    let n := (run.map (·.sat)).sum
    sendUl flow w0 (ulWord1 run b 0) { f with zw := (run.headD default).zw, sat := n != 0 } (run.map (·.vals))
      (s.add (Fld.LNK_UL_CNTn_COUNT.i 0) n)) s

/-- The messages of one element (R74, R136). -/
def sendElement (flow w0 e : Nat) (f : UlFlags) (prbs : List UlPrb) (s : State) : State :=
  (runsOf prbs).foldl (fun s run =>
    sendUl flow w0 (ulWord1 run 0 e) { f with sat := (run.map (·.sat)).sum != 0 } (run.map (·.vals)) s) s

/-- Saturated samples of path `k` of hamlet `h` in the per-path and per-element stages are counted; notice 0x421 when a hamlet's first SAT bit rises
(R120, R475). -/
def rxSaturated (h : Fin 8) (k n : Nat) (s : State) : State :=
  if n = 0 then s
  else
    let old := s.get (Fld.RXC_STAT_SAT.h h)
    let s := (s.add ((Fld.RXC_SATk_COUNT.i k).h h) n).setBit (Fld.RXC_STAT_SAT.h h) k
    if old = 0 then s.raise 0x421 h (2 ^ k) else s

/-- The saturated samples of a path between two instants: of its path stages, and of the channeliser of each carrier, whose filters see T_CHAN past a sample (R120). -/
def State.rxSats (s : State) (u : RxSamples) (h : Fin 8) (k a b : Nat) : Nat :=
  ((s.parts a b).map fun p => p.1.rxPathSat u h k p.2.1 p.2.2).sum
    + ((List.range 8).map fun n =>
        let d := tChan (s.eget (Fld.LNK_UL_CARn_FFTSZ.i n)) (s.car n).num
        ((s.parts (a - d) (b - d)).map fun p =>
          if p.1.carDefined n 1 && !s.rxOff h n p.2.1 then p.1.rxChanSat u h k n p.2.1 p.2.2 else 0).sum).sum

/-- The saturated samples of the path stages and of the channelisers among some ADC samples are counted, each once, whatever the direction of the symbols they lie in
(R120). -/
def rxRun (u : RxSamples) (s : State) : State :=
  let b := (u.first + (u.adc.map List.length).foldl max 0) * adcU
  (List.finRange 8).foldl (fun (s : State) (h : Fin 8) =>
    let a := max s.rx[h].done (u.first * adcU)
    let s : State := { s with rx := s.rx.set h { s.rx[h] with done := max s.rx[h].done b } }
    if 2 ≤ s.hstate h then (List.range 8).foldl (fun s k => rxSaturated h k (s.rxSats u h k a b) s) s else s) s

/-- The saturated FFT outputs of a symbol are counted, in every hamlet whose domain runs and that receives the carrier (R120). -/
def rxSymbolSat (u : RxSamples) (car : Nat) (c : Car) (y : SymId) (air : Nat) (s : State) : State :=
  (s.awake.filter fun h => !s.rxOff h car air).foldl (fun s h => (List.range 8).foldl (fun s k =>
    rxSaturated h k ((List.range (12 * c.nrb)).filter fun re => (s.rxBin u h k car c y air re).2).length s) s) s

/-- The state of the last combined symbol: FACTOR, ELEMS, CONTRIB; a change of N is indicated with the new element count (R72). -/
def noteN (n : Nat) (mask f : Nat) (s : State) : State :=
  let s := if n = 0 then s else
    ((s.put Fld.LNK_ULC_STAT_FACTOR f).put Fld.LNK_ULC_STAT_ELEMS (8 * n)).put Fld.LNK_ULC_STAT_CONTRIB mask
  if s.port.lastN = n then s
  else { s with port := { s.port with lastN := n } }.notifyLink Config.elementsNumber 0xFF (8 * n)

/-- The groups of uplink PRBs that used an invalid vector (R70). -/
def ulBadGroups (beams : List (Nat × List UlPrb)) : Nat :=
  (beams.flatMap fun b => (b.2.filter (·.zw)).map fun p => (b.1, p.desc.startPrb, p.desc.group p.prb)).eraseDups.length

/-- The fields of word 2 that a symbol's messages share. DESIGN CHOICE (log 46): GSTATE is that of the first contributing hamlet; R135 gives one field, and the states of the hamlets
may differ. -/
def ulFlags (s : State) (hs : List (Fin 8)) (unlk : Bool) (marks : Nat) (car : Nat) (c : Car) (y : SymId) (air : Nat) : UlFlags :=
  let h := hs.headD 0
  let w := s.fftWindow h car c y air
  { degr := decide (hs.length < 8)
    unlk := unlk
    gstate := s.gainState h w.1
    gmix := hs.any (fun h => s.gainMixed h (s.fftWindow h car c y air).1 (s.fftWindow h car c y air).2)
    ovrn := marks
    elems := 8 * hs.length
    mw := s.eget (Fld.LNK_UL_CARn_MW.i car) }

/-- Is element `k` of hamlet `h` marked in its FFT window (R125)? -/
def State.elemMarked (s : State) (car : Nat) (c : Car) (y : SymId) (air : Nat) (h : Fin 8) (k : Nat) : Bool :=
  let w := s.fftWindow h car c y air
  let fz := s.eget (Fld.LNK_UL_CARn_FFTSZ.i car)
  s.marked h k (tChan fz c.num) (2 ^ rateH fz c.num * tickU) w.1 w.2

/-- The beam outputs of a symbol are sent (R71, R72, R136), those above SHEDL are not computed (R370). -/
def sendBeams (u : RxSamples) (car : Nat) (c : Car) (y : SymId) (air : Nat) (hs : List (Fin 8)) (unlk : Bool) (s : State) : State :=
  let n := hs.length
  let f := s.factor n
  let beams := (List.range (min c.ulb (s.shedLevel air) + 1)).map fun b => (b, beamPrbs s u car c y air hs f b)
  if beams.all (fun b => b.2.isEmpty) then s
  else
    let s := noteN n (hs.foldl (fun m h => m + 2 ^ h.val) 0) f s
    if n = 0 then s
    else
      let marks := (hs.flatMap fun h => (List.range 8).filter fun k => s.elemMarked car c y air h k).length
      let fl := ulFlags s hs unlk marks car c y air
      let s := s.add (Fld.LNK_RTC_CNTn_COUNT.i 6) (ulBadGroups beams)
      let s := if hs.any (fun h => s.ulStarved h c air) then
          s.add (Fld.LNK_RTC_CNTn_COUNT.i 5) (beams.map fun b => b.2.length).sum
        else noteWeights hs (beams.flatMap fun b => b.2.map fun p => (p.desc, p.prb)) c.num y air s
      beams.foldl (fun s b => sendBeam (s.eget (Fld.LNK_UL_CARn_FLOW.i car)) (ulWord0 car y 0) b.1 fl b.2 s) s

/-- The element-mode messages of a symbol (R74). -/
def sendElements (u : RxSamples) (car : Nat) (c : Car) (y : SymId) (air : Nat) (hs : List (Fin 8)) (unlk : Bool) (s : State) : State :=
  hs.foldl (fun s h => (List.range 8).foldl (fun s k =>
    let w := s.fftWindow h car c y air
    let f : UlFlags :=
      { degr := decide (hs.length < 8)
        unlk := unlk
        pdis := !s.rxOn h k w.1
        gstate := s.gainState h w.1
        gmix := s.gainMixed h w.1 w.2
        ovrn := b2n (s.elemMarked car c y air h k)
        elems := 8
        mw := s.eget (Fld.LNK_UL_CARn_MW.i car) }
    sendElement (s.get Fld.LNK_ULC_CFG_ELEM_FLOW + h) (ulWord0 car y 1) (8 * h + k) f (elementPrbs s u car c y air h k) s) s) s

/-- The combine of one symbol under the settings in force at its air start (R137): hamlets that are not complete, or whose FFT window holds a forced sample (R142), are
left out and counted. -/
def combineNow (car : Nat) (y : SymId) (u : RxSamples) (complete : Nat) (s : State) : State :=
  let c := s.car car
  let air := s.airStart c y
  let t1 := air + c.symLen y
  let s := rxSymbolSat u car c y air s
  let may := s.ulHamlets car air t1
  if !(s.weightHamlets.any fun h => s.dirOver h 1 air t1) then wrongDir car 1 y air s
  else
    let zero (h : Fin 8) : Bool := let w := s.fftWindow h car c y air
      s.zeroIn h w.1 w.2
    let hs : List (Fin 8) := may.filter fun (h : Fin 8) => bitOf complete h && !zero h
    let s := s.add (Fld.LNK_UL_CNTn_COUNT.i 4) (may.length - hs.length)
    let unlk := may.any zero
    sendElements u car c y air hs unlk (sendBeams u car c y air hs unlk s)

/-- The combine of one symbol at its fixed instant (R137). A commit that took effect after the symbol's air start has no part in it (R127); the registers in force stay as they
are. DESIGN CHOICE (log 123): the samples past a commit's boundary that the filters of the last symbol before it reach take that symbol's settings. -/
def ulCombine (car : Nat) (y : SymId) (u : RxSamples) (complete : Nat) (s : State) : State :=
  let v := s.symView car y
  let c := v.car car
  let s := rxRun u (s.at (v.airStart c y + c.symLen y + tCombine (v.eget (Fld.LNK_UL_CARn_FFTSZ.i car)) c.num))
  (combineNow car y u complete (s.settingsOf v)).settingsOf s

/-- UL_COMBINE (R137): `u` is what the instant finds. A carrier that was
undefined in the uplink sends nothing (R511). -/
def execUlCombine (car : Fin 8) (y : SymId) (u : UlInput) (s : State) : Host.Outcome State Fault Refusal :=
  .next (if (s.symView car y).carDefined car 1 then ulCombine car y u.codes u.complete s else s)

/-! ### PRACH (R138 to R141) -/

/-- A write to an `LNK_PRA_` register (R141): it waits for the first frame boundary at least 100 us ahead. -/
def praWrite (r : Req) (a : Nat) (v : Word) (s : State) : State :=
  let s := s.storeReg r a v
  { s with praSets := s.praSets ++ [⟨frameAfter100 s.now, a, s.rd a⟩] }

/-- PRACH_SETTINGS_TAKE_EFFECT (R141). -/
def execPrachSettingsTakeEffect (s : State) : Host.Outcome State Fault Refusal :=
  .next (match s.praSets with
    | [] => s
    | x :: t =>
      let d := t.foldl (fun m y => min m y.due) x.due
      let s := (x :: t).foldl (fun s y => if y.due = d then s.ewr y.addr y.word else s) (s.at d)
      { s with praSets := (x :: t).filter fun y => y.due != d })

/-- RATE as applied: 6 and 7 act as 5 (R141). -/
def praRate (cfg : Word) : Nat := min (getBits Fld.LNK_PRA_CFGm_RATE cfg) 5

/-- The enabled PRACH beams of an occasion: beam number and table entry (R138, R141). -/
def praBeams (ws : List Word) : List (Nat × Nat) :=
  (List.range 2).flatMap fun i =>
    let w := ws.getD i 0#32
    (if getBits Fld.LNK_PRA_BEAMm_i_ENA w = 1 then [(2 * i, getBits Fld.LNK_PRA_BEAMm_i_ENTRYA w)] else [])
      ++ (if getBits Fld.LNK_PRA_BEAMm_i_ENB w = 1 then [(2 * i + 1, getBits Fld.LNK_PRA_BEAMm_i_ENTRYB w)] else [])

/-- The extractor that entry `j` of the occasion table names. -/
def State.praExt (s : State) (j : Fin 16) : Fin 4 := Fin.ofNat 4 (getBits Fld.LNK_PRA_OCCj_EXT (s.erd (Reg.LNK_PRA_OCCj + 4 * j)))

/-- Does entry `j` of the occasion table name an occasion in a frame (R139)? DESIGN CHOICE (log 127): a SLOT that the frame of the carrier's numerology does not have names
no occasion, and nothing is counted. -/
def State.praNamed (s : State) (j : Fin 16) (frame : Nat) : Bool :=
  let e := s.erd (Reg.LNK_PRA_OCCj + 4 * j)
  let cfg := s.erd (Reg.LNK_PRA_CFGm + 4 * (s.praExt j).val)
  getBits Fld.LNK_PRA_OCCj_EN e != 0 && getBits Fld.LNK_PRA_CFGm_EN cfg != 0
    && decide (getBits Fld.LNK_PRA_OCCj_SLOT e < slotsPerFrame (s.car (getBits Fld.LNK_PRA_CFGm_CARRIER cfg)).num)
    && frame % 2 ^ min (getBits Fld.LNK_PRA_OCCj_PERIOD e) 4 == getBits Fld.LNK_PRA_OCCj_PHASE e

/-- The occasion that entry `j` names in a frame, with the settings in force. -/
def State.praOccasion (s : State) (j : Fin 16) (frame : Nat) : Occasion :=
  let e := s.erd (Reg.LNK_PRA_OCCj + 4 * j)
  let m := (s.praExt j).val
  let cfg := s.erd (Reg.LNK_PRA_CFGm + 4 * m)
  let slot := getBits Fld.LNK_PRA_OCCj_SLOT e
  let time := s.erd (Reg.LNK_PRA_TIMEm + 4 * m)
  { cfg := cfg
    beams := [s.erd (Reg.LNK_PRA_BEAMm_i + 8 * m), s.erd (Reg.LNK_PRA_BEAMm_i + 8 * m + 4)]
    time := time
    len := s.eget (Fld.LNK_PRA_LENm_LEN.i m)
    start := s.airStart (s.car (getBits Fld.LNK_PRA_CFGm_CARRIER cfg))
        ⟨frame % 256, slot / slotsPerSub (s.car (getBits Fld.LNK_PRA_CFGm_CARRIER cfg)).num,
          slot % slotsPerSub (s.car (getBits Fld.LNK_PRA_CFGm_CARRIER cfg)).num, 0⟩
      + getBits Fld.LNK_PRA_TIMEm_START time * tickU
    frame := frame % 256
    slot := slot }

/-- The period of an occasion's samples: 256 / 2^RATE ticks. -/
def Occasion.period (o : Occasion) : Nat := 256 / 2 ^ praRate o.cfg * tickU

/-- The instant of sample `i` of an occasion. -/
def Occasion.sampleAt (o : Occasion) (i : Nat) : Nat := o.start + i * o.period

/-- Does extractor `x` run at `t` (R140): an occasion's samples are not all taken? -/
def State.praBusy (s : State) (x : Fin 4) (t : Nat) : Bool :=
  match s.prach[x] with
  | some o => decide (t < o.sampleAt o.len)
  | none => false

/-- Is an occasion dropped (R139 to R141): its extractor still runs, its carrier is undefined in the uplink or below the extractor's rate, no beam is enabled, or it
has no samples? -/
def State.praDropped (s : State) (x : Fin 4) (o : Occasion) : Bool :=
  let n := getBits Fld.LNK_PRA_CFGm_CARRIER o.cfg
  let hr := rateH (s.eget (Fld.LNK_UL_CARn_FFTSZ.i n)) (s.car n).num
  s.praBusy x o.start || !s.carDefined n 1 || decide (491520 / 2 ^ hr < 1920 * 2 ^ praRate o.cfg) || (praBeams o.beams).isEmpty || o.len == 0

/-- PRACH_OCCASION_START (R139, R140): entry `j` of the occasion table in a frame: the occasion begins on its extractor, or is dropped and
counted. -/
def execPrachOccasionStart (j : Fin 16) (frame : Nat) (s : State) : Host.Outcome State Fault Refusal :=
  .next (let o := s.praOccasion j frame
    if !s.praNamed j frame then s
    else if s.praDropped (s.praExt j) o then (s.at o.start).inc (Fld.LNK_UL_CNTn_COUNT.i 3)
    else
      let x := s.praExt j
      { s.at o.start with prach := s.prach.set x (some o), prachOld := s.prachOld.set x (s.prachOld[x] ++ (s.prach[x]).toList) })

/-- Does an instant lie in an uplink symbol of a carrier, for the host port (R76, R140)? -/
def State.uplinkAt (s : State) (c : Car) (t : Nat) : Bool :=
  let base := t / msU * msU
  let starts := (List.range (c.syms * slotsPerSub c.num)).map fun n => base + symTicks c.num c.ecp n * tickU
  let t0 := (starts.filter fun x => x ≤ t).foldl max base
  let t1 := ((starts.filter fun x => t < x).head?).getD (base + msU)
  s.weightHamlets.any fun h => s.dirOver h 1 t0 t1

/-- Sample `j` of an occasion from element 8 h + k (R138), under the carrier settings at its instant (R127). -/
def State.praOf (s : State) (u : RxSamples) (o : Occasion) (h : Fin 8) (k j : Nat) : Cx × Bool :=
  (s.asAt (o.sampleAt j)).praSample u h k (getBits Fld.LNK_PRA_CFGm_CARRIER o.cfg) (praRate o.cfg) (getBits Fld.LNK_PRA_CFGm_OFFS o.cfg) o.start j

/-- One block of a PRACH beam: the sums of 12 samples over the hamlets that hold no forced sample in it (R138, R140, R142). DESIGN CHOICE (log 47): the beam-table
weights and exponents are those in force at the occasion's start, for all its samples; R63 speaks of symbols alone. DESIGN CHOICE (log 128): a block to which no hamlet
contributes is sent with zero samples and ELEMS 0, where F of R72 is undefined. -/
def praBlock (s : State) (o : Occasion) (entry : Nat) (u : RxSamples) (hs : List (Fin 8)) (b : Nat) :
    List ((Int × Int) × Nat) :=
  let c := s.car (getBits Fld.LNK_PRA_CFGm_CARRIER o.cfg)
  let f := s.factor hs.length
  (List.range 12).map fun i =>
    let j := 12 * b + i
    if o.len ≤ j || !s.uplinkAt c (o.sampleAt j) || hs.isEmpty then ((0, 0), 0)
    else s.hostSum f (hs.map fun h =>
      let z := (List.range 8).foldl (fun acc k => cadd acc (cmul (s.beamWeight h entry k o.start) (s.praOf u o h k j).1)) (0, 0)
      partialOf z (s.beamExp h entry o.start))

/-- The instants from the first sample of block `b` of an occasion to the end of its last one; the zero samples that fill up the last block (R138) have none. -/
def Occasion.span (o : Occasion) (b : Nat) : Nat × Nat := (o.sampleAt (12 * b), o.sampleAt (min (12 * b + 12) o.len - 1))

/-- The hamlets that a block of an occasion could have (R72, R127): in service, with the carrier enabled. -/
def praMay (s : State) (o : Occasion) (b : Nat) : List (Fin 8) :=
  (List.finRange 8).filter fun h => s.inService h && !s.rxOff h (getBits Fld.LNK_PRA_CFGm_CARRIER o.cfg) (o.span b).1

/-- Does a block of an occasion hold a forced sample of hamlet `h` (R142)? -/
def praForced (s : State) (o : Occasion) (b : Nat) (h : Fin 8) : Bool := s.zeroIn h (o.span b).1 ((o.span b).2 + 1)

/-- The hamlets that contribute to block `b` of an occasion (R72, R127, R142). -/
def praHamlets (s : State) (o : Occasion) (b : Nat) : List (Fin 8) := (praMay s o b).filter fun h => !praForced s o b h

/-- The elements (hamlet, path) that contribute to a run of blocks and are marked in one of them (R125). -/
def praMarks (s : State) (o : Occasion) (b0 nb : Nat) : List (Fin 8 × Nat) :=
  let n := getBits Fld.LNK_PRA_CFGm_CARRIER o.cfg
  let d := tChan (s.eget (Fld.LNK_UL_CARn_FFTSZ.i n)) (s.car n).num
  ((List.range nb).flatMap fun i => (praHamlets s o (b0 + i)).flatMap fun h => ((List.range 8).filter fun k =>
    s.marked h k d o.period (o.span (b0 + i)).1 ((o.span (b0 + i)).2 + o.period)).map fun k => (h, k)).eraseDups

/-- The flags of a PRACH message of the blocks `b0` to `b0 + nb - 1` (R135). DESIGN CHOICE (log 48): where the blocks have different numbers of contributing
hamlets, ELEMS is of the block with the fewest and DEGR says that some block had fewer than 8. GSTATE is that of the first contributing hamlet (log 46). -/
def praFlags (s : State) (o : Occasion) (b0 nb : Nat) (sat : Bool) : UlFlags :=
  let n := getBits Fld.LNK_PRA_CFGm_CARRIER o.cfg
  let c := s.car n
  let least := (List.range nb).foldl (fun m i => min m (praHamlets s o (b0 + i)).length) 8
  let js := (List.range (12 * nb)).filter fun i => 12 * b0 + i < o.len
  { degr := decide (least < 8)
    unlk := (List.range nb).any (fun i => (praMay s o (b0 + i)).any fun h => praForced s o (b0 + i) h)
    sat := sat
    notul := js.any (fun i => !s.uplinkAt c (o.sampleAt (12 * b0 + i)))
    gstate := s.gainState ((praHamlets s o b0).headD 0) (o.span b0).1
    gmix := (List.range nb).any (fun i => (praHamlets s o (b0 + i)).any fun h =>
      s.gainMixed h (o.span (b0 + i)).1 ((o.span (b0 + i)).2 + o.period))
    ovrn := (praMarks s o b0 nb).length
    elems := 8 * least
    mw := s.eget (Fld.LNK_UL_CARn_MW.i n) }

/-- Message `m` of one PRACH beam: its up to 64 blocks (R136). -/
def sendPrach (x : Fin 4) (o : Occasion) (u : RxSamples) (m : Nat) (beam : Nat × Nat) (s : State) : State :=
  let n := getBits Fld.LNK_PRA_CFGm_CARRIER o.cfg
  let c := s.car n
  let nb := min 64 ((o.len + 11) / 12 - 64 * m)
  let bs := (List.range nb).map fun i => praBlock s o beam.2 u (praHamlets s o (64 * m + i)) (64 * m + i)
  let sat := (bs.flatMap fun b => b.map (·.2)).sum
  let fl := praFlags s o (64 * m) nb (sat != 0)
  let y : SymId := ⟨o.frame, o.slot / slotsPerSub c.num, o.slot % slotsPerSub c.num, 0⟩
  let w1 := 64 * m * 65536 + (nb - 1) * 1024 + x * 256 + beam.1 * 64
  sendUl (getBits Fld.LNK_PRA_TIMEm_FLOW o.time) (ulWord0 n y 2) w1 fl (bs.map fun b => b.map (·.1))
    (s.add (Fld.LNK_UL_CNTn_COUNT.i 0) sat)

/-- The saturated extractor samples of message `m` of an occasion are counted for their paths, in every hamlet whose domain runs and that receives the carrier (R120). -/
def praSaturated (o : Occasion) (u : RxSamples) (m : Nat) (s : State) : State :=
  let n := getBits Fld.LNK_PRA_CFGm_CARRIER o.cfg
  s.awake.foldl (fun s h => (List.range 8).foldl (fun s k =>
    rxSaturated h k ((List.range (min 768 (o.len - 768 * m))).filter fun i =>
      !s.rxOff h n (o.sampleAt (768 * m + i)) && (s.praOf u o h k (768 * m + i)).2).length s) s) s

/-- The instant at which message `m` of an occasion is formed: T_FRONT, T_CHAN and 32 / r_P after the ball instant of its last sample, by which every overrange that
marks it is known (R125, R143). -/
def State.praReady (s : State) (o : Occasion) (m : Nat) : Nat :=
  let n := getBits Fld.LNK_PRA_CFGm_CARRIER o.cfg
  o.sampleAt (min o.len (768 * (m + 1)) - 1) + 60 * nsU + tChan (s.eget (Fld.LNK_UL_CARn_FFTSZ.i n)) (s.car n).num + 32 * o.period

/-- PRACH_OCCASION_END (R136, R138, R143): the next up to 64 blocks of an occasion are complete, and are combined and sent for every enabled beam; the occasion ends with its
last ones. An earlier occasion comes before the one that runs. `u` holds the codes of the RX ADCs. DESIGN CHOICE (log 49): one command for each message's blocks, so that
every message keeps the bound of R143. -/
def execPrachOccasionEnd (x : Fin 4) (u : RxSamples) (s : State) : Host.Outcome State Fault Refusal :=
  .next (match s.prachOld[x] ++ (s.prach[x]).toList with
    | [] => s
    | o :: _ =>
      let m := o.sent
      let next := if o.len ≤ 768 * (m + 1) then [] else [{ o with sent := m + 1 }]
      let s := rxRun u (s.at (s.praReady o m))
      let s := match s.prachOld[x] with
        | [] => { s with prach := s.prach.set x next.head? }
        | _ :: t => { s with prachOld := s.prachOld.set x (next ++ t) }
      if s.carDefined (getBits Fld.LNK_PRA_CFGm_CARRIER o.cfg) 1 then
        (praBeams o.beams).foldl (fun s b => sendPrach x o u m b s) (praSaturated o u m s)
      else s)

/-! ### The return after an unlock (R142) -/

/-- RX_CONTRIBUTION_RESUME (R142): FFT windows that begin at least 10 us after realignment hold no forced sample; UNLOCKED reads 0; the slots
that held forced samples are counted. -/
def execRxContributionResume (h : Fin 8) (s : State) : Host.Outcome State Fault Refusal :=
  .next (match s.rx[h].resumeDue with
    | none => s
    | some d =>
      let s := ((s.at d).countRx h (d - 1)).put (Fld.RXC_STAT_UNLOCKED.h h) 0
      let x := s.rx[h]
      let zs := (x.zeroFrom, d) :: x.zeros.filter fun z => decide (s.now < z.2 + 50 * msU)
      { s with rx := s.rx.set h { x with forced := false, zeros := zs, quiet := false, resumeDue := none } })

end Sys2Proof.Machine
end

