-- ==== Sys2Proof/Machine/Watch.lean ====
section
/-!
DEFINITION. The Watch receiver (R416 to R431): channels, alternative frequencies, broadcast time, sweeps and records.
-/

namespace Sys2Proof.Machine

/-! ### Records (R429) -/

/-- The bytes of a Watch record: four header words and the body. -/
def recordBytes (src t freq : Nat) (body : List Nat) : List Nat :=
  beBytes 4 (0x10000000 + src * 2 ^ 24 + body.length % 65536) ++ beBytes 4 (nsOf t) ++ beBytes 4 (secOf t)
    ++ beBytes 4 (freq % 2 ^ 24) ++ body

/-- Queues a record in the 32 KiB queue and posts event line 2; a record that finds it full is discarded, counted, and SDLOST raises notice 0x473 as it
rises. With FLOW outside 4 to 7 nothing is queued or counted (R429, R430). -/
def queueRecord (src t freq : Nat) (body : List Nat) (s : State) : State :=
  let f := s.get Fld.WCH_CTRL_FLOW
  let b := recordBytes src t freq body
  if f < 4 ∨ 7 < f then s
  else if 32768 < (s.wch.queue.map List.length).sum + b.length then
    let old := s.get Fld.WCH_STAT_SDLOST
    let s := (s.inc (Fld.WCH_CNTn_COUNT.i 1)).put Fld.WCH_STAT_SDLOST 1
    if old = 0 then s.raise 0x473 0xFF (s.rd Reg.WCH_STAT).toNat else s
  else State.postEdge { s with wch := { s.wch with queue := s.wch.queue ++ [b] } } 5 8 2

/-- May a credit-controlled flow begin a message of `n` bytes: credits for every cell of it, beside those already staged (R185)? -/
def State.creditFor (s : State) (f n : Nat) : Bool :=
  decide (s.get (Fld.LNK_FLOWf_STAT_STAGED.i f) + (n + 63) / 64 ≤ s.get (Fld.LNK_FLOWf_STAT_CREDIT.i f))
    && s.room f ((n + 63) / 64) && !s.flowWaits f

/-- WATCH_RECORD_SEND (R429): the oldest record goes as a type 3 message when the flow holds credits for it. -/
def execWatchRecordSend (s : State) : Host.Outcome State Fault Refusal :=
  .next (match s.wch.queue with
    | [] => s
    | b :: t =>
      let f := s.get Fld.WCH_CTRL_FLOW
      if 4 ≤ f && f ≤ 7 && s.flag (Fld.LNK_FLOWf_CFG_EN.i f) && !s.cellsLost f && s.creditFor f (8 + b.length) then
        State.sendSeq { s with wch := { s.wch with queue := t } } f 3 b
      else s)

/-! ### Power and front end (R416 to R418) -/

/-- Does a frequency in kHz lie in one of the three bands of R416? -/
def inBands (f : Nat) : Bool :=
  (65000 ≤ f && f ≤ 108000) || (174000 ≤ f && f ≤ 240000) || (470000 ≤ f && f ≤ 862000)

/-- The sweep ends (R427, R430): END, DONE, event line 0. -/
def endSweep (code : Nat) (s : State) : State :=
  let s := ((s.put Fld.WCH_SW_STAT_END code).put Fld.WCH_SW_STAT_DONE 1).put Fld.WCH_SW_STAT_BUSY 0
  (s.put Fld.WCH_SW_CFG_GO 0).postEdge 5 8 0

/-- The running entry writes its result (R427, R428): `level` none when it holds no samples; a hit is reported; a completed entry queues
its record when SWREC is 1. -/
def writeEntry (flags : Nat) (level : Option Nat) (s : State) : State :=
  let n := s.get Fld.WCH_SW_STAT_ENTRY
  let a := Reg.WCH_SWn_RES + 16 * n
  let lv := (level.getD 0x8000) % 65536
  let hit := level.isSome && s.flag (Fld.WCH_SWn_THR_EN.i n)
    && decide (signed 16 (s.get (Fld.WCH_SWn_THR_THR.i n)) < signed 16 lv)
  let w := 2 ^ 31 + b2n hit * 2 ^ 30 + flags + b2n s.wch.clip * 2 ^ 27 + lv
  let s := s.wr a (BitVec.ofNat 32 w)
  let s := if bitOf flags 29 then s.inc (Fld.WCH_CNTn_COUNT.i 2) else s
  let s := if hit then ((s.put Fld.WCH_SW_STAT_HIT 1).postEdge 5 8 1).notifyReeve 0xFFF6 else s
  if s.flag Fld.WCH_CTRL_SWREC then
    queueRecord 4 s.now (s.get (Fld.WCH_SWn_FREQ_FREQ.i n))
      (beBytes 4 (s.rd (Reg.WCH_SWn_FREQ + 16 * n)).toNat ++ beBytes 4 (s.rd (Reg.WCH_SWn_CFG + 16 * n)).toNat ++ beBytes 4 w) s
  else s

/-- The time from `t0` to `t1` in which the gate of hamlet `h` is open, slot by slot (R428): within 0.5 us of the ends of a REFNUM symbol it is shut, and in a symbol whose
latched code is neither off nor uplink. A slot that has no latched entry counts as off. -/
def State.gateOpen (s : State) (h : Fin 8) (t0 t1 : Nat) : Nat → Nat → Nat
  | 0, _ => 0
  | fuel + 1, t =>
    if t1 ≤ t then 0
    else
      let num := s.eget (Fld.SLT_CFG_REFNUM.h h)
      let ecp := s.refEcp num
      let words := ((s.slt[h].latched.find? fun l => l.slotAt == t).map Latched.words).getD []
      let gap (n : Nat) : Nat :=
        let code : Nat := match words with | [] => 0 | w :: _ => w.toNat / 4 ^ n % 4
        let a := t + symInSlot num ecp (slotIn num ecp t) n * tickU + usU / 2
        let b := t + symInSlot num ecp (slotIn num ecp t) (n + 1) * tickU - usU / 2
        if code % 2 = 0 then min b t1 - max a t0 else 0
      ((List.range (symsOf ecp)).map gap).sum + State.gateOpen s h t0 t1 fuel (slotNext num ecp t)

/-- The samples that the running entry has gathered at an instant, as time (R427, R428): since its dwell began, all of it or what the gate lets through. -/
def State.gathered (s : State) (t : Nat) : Nat :=
  let h : Fin 8 := Fin.ofNat 8 (s.get Fld.WCH_SW_CFG_HAM)
  if s.flag Fld.WCH_SW_CFG_GATE then
    let num := s.eget (Fld.SLT_CFG_REFNUM.h h)
    let first := slotBegin num (s.refEcp num) s.wch.dwell
    s.gateOpen h s.wch.dwell t ((t - first) / (120 * usU) + 2) first
  else t - s.wch.dwell

/-- A running sweep is cut short: the entry in progress gets PART (and `extra`) over the samples it has, whose level is a free value (none without samples, R428), and
the sweep ends (R418, R427, R431). -/
def cutSweep (extra code : Nat) (s : State) : State :=
  if s.flag Fld.WCH_SW_STAT_BUSY then
    let d := s.drawn
    endSweep code (writeEntry (2 ^ 29 + extra) (if s.gathered s.now = 0 then none else some d.1) d.2)
  else s

/-- The ORx of hamlet `h` no longer belongs to the Watch: a sweep through it is pre-empted (R431). -/
def sweepLost (h : Fin 8) (s : State) : State :=
  if s.flag Fld.WCH_SW_CFG_SRC && s.get Fld.WCH_SW_CFG_HAM == h.val then cutSweep (2 ^ 28) 2 s else s

/-- The digital demodulator restarts acquisition: every decoded field clears (R421), and a try is abandoned (R424). AFFAIL, AFSW and RSSI are not decoded and stay. -/
def digRestart (s : State) : State :=
  let s := (s.wr Reg.WCH_DIG_ID 0).wr Reg.WCH_DIG_STAT (s.rd Reg.WCH_DIG_STAT &&& 0x30FF0000#32)
  { s with wch := { s.wch with chan := s.wch.chan.set 2 {} } }

/-- Channel `n` with its hidden state changed. -/
def State.setChan (s : State) (n : Fin 3) (c : FmChan) : State := { s with wch := { s.wch with chan := s.wch.chan.set n c } }

/-- A channel that has stopped: its tries, its blocks and what it counts are gone. -/
def FmChan.stopped (c : FmChan) : FmChan := { c with tries := [], blocks := [], low := 0, piRun := 0 }

/-- An FM channel stops (R418, R420): no synchronisation, Q is 0, its try ends. -/
def stopFm (n : Fin 2) (s : State) : State :=
  let s := ((s.put (Fld.WCH_FMn_STAT_SYNC.i n) 0).put (Fld.WCH_FMn_STAT_Q.i n) 0).put (Fld.WCH_FMn_STAT_AFTRY.i n) 0
  s.setChan n.castSucc s.wch.chan[n.castSucc].stopped

/-- Every demodulator stops (R418). -/
def stopDemods (s : State) : State :=
  let s := ((stopFm 1 (stopFm 0 s)).put Fld.WCH_DIG_STAT_LOCK 0).put Fld.WCH_DIG_STAT_AFTRY 0
  s.setChan 2 s.wch.chan[2].stopped

/-- A write to an FM channel's CFG (R419): EN = 0 stops the channel. -/
def fmCfgWrite (r : Req) (n : Fin 2) (v : Word) (s : State) : State :=
  let s := s.storeReg r (Reg.WCH_FMn_CFG + 32 * n) v
  if s.flag (Fld.WCH_FMn_CFG_EN.i n) then s else stopFm n s

/-- A write to `WCH_CTRL` (R418, R421, R424): EN powers the Watch, EN = 0 stops it; a change of DMOD restarts the demodulator, and so does the write while it tries a candidate. -/
def wchCtrlWrite (r : Req) (v : Word) (s : State) : State :=
  let old := s.rd Reg.WCH_CTRL
  let s := s.storeReg r Reg.WCH_CTRL v
  let s := if getBits Fld.WCH_CTRL_DMOD old = getBits Fld.WCH_CTRL_DMOD v && !s.flag Fld.WCH_DIG_STAT_AFTRY then s else digRestart s
  if getBits Fld.WCH_CTRL_EN old = 1 ∧ getBits Fld.WCH_CTRL_EN v = 0 then cutSweep 0 1 (stopDemods (s.put Fld.WCH_STAT_READY 0)) else s

/-- WATCH_ENABLE (R418). -/
def execWatchEnable (r : Req) (v : Word) (s : State) : Host.Outcome State Fault Refusal :=
  .next (regCmd r Reg.WCH_CTRL v (wchCtrlWrite r v) s)

/-- WATCH_READY (R418): within 200 us of EN. -/
def execWatchReady (t : Nat) (s : State) : Host.Outcome State Fault Refusal :=
  .next (if s.flag Fld.WCH_CTRL_EN && !s.dark then (s.at t).put Fld.WCH_STAT_READY 1 else s)

/-- A write to `WCH_DIG_FREQ` (R416, R421, R424): a frequency outside the bands is ignored and recorded; any other restarts acquisition. -/
def digFreqWrite (r : Req) (v : Word) (s : State) : State :=
  if !inBands (getBits Fld.WCH_DIG_FREQ_FREQ v) then s.refuse4 r Reg.WCH_DIG_FREQ
  else
    let s' := s.storeReg r Reg.WCH_DIG_FREQ v
    if s'.rd Reg.WCH_DIG_FREQ = s.rd Reg.WCH_DIG_FREQ && !s.flag Fld.WCH_DIG_STAT_AFTRY then s' else digRestart s'

/-- DMOD_WRITE (R421): a write to `WCH_CTRL`, or with `freq` to `WCH_DIG_FREQ`. -/
def execDmodWrite (r : Req) (freq : Bool) (v : Word) (s : State) : Host.Outcome State Fault Refusal :=
  .next (if freq then regCmd r Reg.WCH_DIG_FREQ v (digFreqWrite r v) s else regCmd r Reg.WCH_CTRL v (wchCtrlWrite r v) s)

/-! ### FM and RDS (R419, R420, R424) -/

/-- A write to an FM channel's FREQ (R419, R424): outside 65.00 to 108.00 MHz it is ignored and recorded; otherwise a try is abandoned. -/
def fmFreqWrite (r : Req) (n : Fin 2) (v : Word) (s : State) : State :=
  let a := Reg.WCH_FMn_FREQ + 32 * n
  let f := getBits Fld.WCH_FMn_FREQ_FREQ v
  if f < 6500 ∨ 10800 < f then s.refuse4 r a
  else
    let c := s.wch.chan[n.castSucc]
    State.setChan ((s.storeReg r a v).put (Fld.WCH_FMn_STAT_AFTRY.i n) 0) n.castSucc { c with tries := [], low := 0 }

/-- FM_FREQ_WRITE (R424). -/
def execFmFreqWrite (r : Req) (n : Fin 2) (v : Word) (s : State) : Host.Outcome State Fault Refusal :=
  .next (regCmd r (Reg.WCH_FMn_FREQ + 32 * n) v (fmFreqWrite r n v) s)

/-- Q of a channel: the good blocks among the last 64, in percent rounded down (R420). -/
def qualityOf (l : List Bool) : Nat := (l.filter id).length * 100 / 64

/-- PI is adopted after 4 consecutive good groups that carry the new value; PS clears with it (R419). -/
def takePi (n : Fin 2) (v : Nat) (s : State) : State :=
  let i := n.castSucc
  let c := s.wch.chan[i]
  let cur := s.flag (Fld.WCH_FMn_PI_VALID.i n) && s.get (Fld.WCH_FMn_PI_PI.i n) == v
  if cur then s.setChan i { c with piRun := 0 }
  else
    let k := if c.piRun ≠ 0 ∧ c.piNew = v then c.piRun + 1 else 1
    if k < 4 then s.setChan i { c with piNew := v, piRun := k }
    else
      let s := s.wr (Reg.WCH_FMn_PI + 32 * n) (BitVec.ofNat 32 (2 ^ 31 + v))
      let s := (s.wr (Reg.WCH_FMn_PS0 + 32 * n) 0).wr (Reg.WCH_FMn_PS1 + 32 * n) 0
      s.setChan i { c with piRun := 0, segs := 0 }

/-- A PS segment of a group 0A or 0B: two characters of block D (R419). -/
def takePs (n : Fin 2) (seg d : Nat) (s : State) : State :=
  let i := n.castSucc
  let c := s.wch.chan[i]
  let ps := (c.ps.set (2 * seg) (d / 256 % 128)).set (2 * seg + 1) (d % 128)
  let segs := c.segs ||| 2 ^ seg
  let s := s.setChan i { c with ps := ps, segs := segs }
  if segs ≠ 15 then s
  else
    let w (b : Nat) := (List.range 4).foldl (fun m j => m + ps.getD (b + j) 0 * 256 ^ j) 0
    (s.wr (Reg.WCH_FMn_PS0 + 32 * n) (BitVec.ofNat 32 (2 ^ 31 + w 0))).wr (Reg.WCH_FMn_PS1 + 32 * n) (BitVec.ofNat 32 (w 4))

/-- The raw delivery bit of an RDS group by its type and version (R419): 0A, 0B, 4A, 8A. -/
def groupBit (b : Nat) : Option Nat :=
  let k := b / 2048 % 32
  if k = 0 then some 0 else if k = 1 then some 1 else if k = 8 then some 2 else if k = 16 then some 3 else none

/-- A good group's decoding and raw delivery (R419, R429): a PS segment counts under the PI adopted. -/
def takeGroup (n : Fin 2) (bl : List Nat) (good corr : Nat) (af : Option (List Nat)) (t : Nat) (s : State) : State :=
  let b := bl.getD 1 0
  let s := takePi n (bl.getD 0 0 % 65536) s
  let s := if b / 4096 % 16 = 0 ∧ bitOf good 3 ∧ s.flag (Fld.WCH_FMn_PI_VALID.i n) ∧ s.get (Fld.WCH_FMn_PI_PI.i n) = bl.getD 0 0 % 65536 then takePs n (b % 4) (bl.getD 3 0) s else s
  let s := match af with
    | some l => if b / 2048 % 32 = 0 then
        State.setChan (s.put (Fld.WCH_FMn_STAT_AFN.i n) (min l.length 25)) n.castSucc
          { s.wch.chan[n.castSucc] with afs := l.take 25 }
      else s
    | none => s
  match groupBit b with
  | some k => if s.bit (Fld.WCH_FMn_CFG_GMASK.i n) k then
      queueRecord n t (10 * s.get (Fld.WCH_FMn_FREQ_FREQ.i n))
        ((List.range 4).flatMap (fun j => beBytes 2 (bl.getD j 0)) ++ [corr % 16, 0, 0, 0]) s
    else s
  | none => s

/-- RDS_GROUP (R419, R420): four blocks of which `good` are good, `corr` corrected and `offE` carry offset word E; `af` is a method A list that the
group completes; `t` is the group's reference instant. Only a synchronised channel that tries no candidate delivers or decodes. -/
def execRdsGroup (n : Fin 2) (blocks : List Nat) (good corr offE : Nat) (af : Option (List Nat)) (t : Nat) (s : State) :
    Host.Outcome State Fault Refusal :=
  .next (if s.flag (Fld.WCH_FMn_CFG_EN.i n) && s.flag (Fld.WCH_FMn_STAT_SYNC.i n) then
      let s := s.at t
      let ok := if s.flag (Fld.WCH_FMn_CFG_RBDS.i n) then good else good &&& (15 - offE % 16)
      let i := n.castSucc
      let c := s.wch.chan[i]
      let bs := (c.blocks ++ (List.range 4).map (fun j => bitOf ok j))
      let bs := bs.drop (bs.length - 64)
      let s := State.setChan (s.put (Fld.WCH_FMn_STAT_Q.i n) (qualityOf bs)) i { c with blocks := bs }
      if s.flag (Fld.WCH_FMn_STAT_AFTRY.i n) || !(bitOf ok 0 && bitOf ok 1) then s else takeGroup n blocks ok corr af t s
    else s)

/-- RDS_SYNCHRONISATION (R420): SYNC follows; without it Q is 0. -/
def execRdsSynchronisation (n : Fin 2) (on : Bool) (s : State) : Host.Outcome State Fault Refusal :=
  .next (let s := s.put (Fld.WCH_FMn_STAT_SYNC.i n) (b2n (on && s.flag (Fld.WCH_FMn_CFG_EN.i n) && s.flag Fld.WCH_STAT_READY))
    if on then s
    else State.setChan (s.put (Fld.WCH_FMn_STAT_Q.i n) 0) n.castSucc { s.wch.chan[n.castSucc] with blocks := [], piRun := 0 })

/-! ### The digital demodulator (R421, R422) -/

/-- DEMODULATOR_LOCK (R421). -/
def execDemodulatorLock (on : Bool) (s : State) : Host.Outcome State Fault Refusal :=
  .next (s.put Fld.WCH_DIG_STAT_LOCK (b2n (on && s.get Fld.WCH_CTRL_DMOD != 0 && s.flag Fld.WCH_STAT_READY)))

/-- The EId of FIG 0/0 (R421, R423): the frequencies of FIG 0/21 are for the present EId. -/
def takeEid (eid : Nat) (s : State) : State :=
  let s := if s.get Fld.WCH_DIG_ID_ID = eid then s else s.setChan 2 { s.wch.chan[2] with afs := [] }
  (s.wr Reg.WCH_DIG_ID (BitVec.ofNat 32 eid)).put Fld.WCH_DIG_STAT_IDVAL 1

/-- DAB_FIG (R421): FIG `sel` of 0/0, 0/2, 0/10, 0/21, 1/0, 1/1 with its bytes (header, type byte, data); `afs` are the frequencies of FIG 0/21
for the present EId, in kHz. -/
def execDabFig (sel : Fin 6) (bytes : List Nat) (afs : List Nat) (t : Nat) (s : State) : Host.Outcome State Fault Refusal :=
  .next (if s.get Fld.WCH_CTRL_DMOD = 1 ∧ s.flag Fld.WCH_DIG_STAT_LOCK ∧ ¬ s.flag Fld.WCH_DIG_STAT_AFTRY then
      let s := s.at t
      let s := if sel = 0 then takeEid (beNat ((bytes.drop 2).take 2)) s
        else if sel = 3 then s.setChan 2 { s.wch.chan[2] with afs := afs } else s
      if s.bit Fld.WCH_DIG_CFG_MASK sel then queueRecord 2 t (s.get Fld.WCH_DIG_FREQ_FREQ) bytes s else s
    else s)

/-- DVB_SECTION (R422): a section of table `sel` (NIT actual, NIT other, SDT actual, SDT other, TDT, TOT) that passed its CRC or carries none. -/
def execDvbSection (sel : Fin 6) (bytes : List Nat) (crcOk : Bool) (t : Nat) (s : State) : Host.Outcome State Fault Refusal :=
  .next (if 2 ≤ s.get Fld.WCH_CTRL_DMOD && s.flag Fld.WCH_DIG_STAT_LOCK && crcOk then
      let s := s.at t
      let s := if sel = 2 then
          (s.wr Reg.WCH_DIG_ID (BitVec.ofNat 32 (beNat ((bytes.drop 8).take 2) * 65536 + beNat ((bytes.drop 3).take 2)))).put
            Fld.WCH_DIG_STAT_IDVAL 1
        else s
      if s.bit Fld.WCH_DIG_CFG_MASK sel then queueRecord 3 t (s.get Fld.WCH_DIG_FREQ_FREQ) bytes s else s
    else s)

/-! ### Alternative frequencies (R423) -/

/-- The registers of a channel for alternative frequencies, FM channel or demodulator: AFEN, QTH, DWELL, AFTRY, AFFAIL, AFSW, Q, RSSI. -/
structure AfRegs where
  afen : Field
  qth : Field
  dwell : Field
  try_ : Field
  fail : Field
  sw : Field
  q : Field
  rssi : Field

/-- The registers of channel `n`. -/
def afRegs (n : Fin 3) : AfRegs :=
  if n = 2 then ⟨Fld.WCH_DIG_CFG_AFEN, Fld.WCH_DIG_CFG_QTH, Fld.WCH_DIG_CFG_DWELL, Fld.WCH_DIG_STAT_AFTRY, Fld.WCH_DIG_STAT_AFFAIL,
    Fld.WCH_DIG_STAT_AFSW, Fld.WCH_DIG_STAT_Q, Fld.WCH_DIG_STAT_RSSI⟩
  else ⟨Fld.WCH_FMn_CFG_AFEN.i n, Fld.WCH_FMn_CFG_QTH.i n, Fld.WCH_FMn_CFG_DWELL.i n, Fld.WCH_FMn_STAT_AFTRY.i n,
    Fld.WCH_FMn_STAT_AFFAIL.i n, Fld.WCH_FMn_STAT_AFSW.i n, Fld.WCH_FMn_STAT_Q.i n, Fld.WCH_FMn_STAT_RSSI.i n⟩

/-- The frequency register's value of a channel, in its own units. -/
def State.chanFreq (s : State) (n : Fin 3) : Nat :=
  if n = 2 then s.get Fld.WCH_DIG_FREQ_FREQ else s.get (Fld.WCH_FMn_FREQ_FREQ.i n)

/-- The candidates of a channel (R416, R423): for FM the user's four or the method A list, for DAB those of FIG 0/21; empty entries, the present frequency and those
that the channel's frequency register refuses are skipped. -/
def State.candidates (s : State) (n : Fin 3) : List Nat :=
  let raw := if n ≠ 2 ∧ s.flag (Fld.WCH_FMn_CFG_USERAF.i n) then
      [s.get (Fld.WCH_FMn_UAF0_AFA.i n), s.get (Fld.WCH_FMn_UAF0_AFB.i n), s.get (Fld.WCH_FMn_UAF1_AFA.i n),
        s.get (Fld.WCH_FMn_UAF1_AFB.i n)]
    else s.wch.chan[n].afs
  raw.filter fun f => f != 0 && f != s.chanFreq n && (if n = 2 then inBands f else 6500 ≤ f && f ≤ 10800)

/-- No candidate passed: the channel is back on its frequency (R423). -/
def afFailed (n : Fin 3) (s : State) : State :=
  let f := afRegs n
  State.setChan (((s.put f.try_ 0).put f.fail 1).inc (Fld.WCH_CNTn_COUNT.i 4)) n { s.wch.chan[n] with tries := [], low := 0 }

/-- Does the Watch receiver run (R23, R361, R418): READY, in a supplied device with REFIN? -/
def State.watchRuns (s : State) : Bool := s.flag Fld.WCH_STAT_READY && !s.dark && !s.pow.refOff

/-- AF_QUALITY_CHECK (R423): each second a channel of a running Watch compares Q with QTH. `q` is the demodulator's measured quality (an FM channel's own Q stands),
`rssi` and `mer` what it reports. -/
def execAfQualityCheck (n : Fin 3) (q rssi mer : Nat) (s : State) : Host.Outcome State Fault Refusal :=
  .next (if !s.watchRuns || (n != 2 && !s.flag (Fld.WCH_FMn_CFG_EN.i n)) then s else
    let f := afRegs n
    let s := s.put f.rssi rssi
    let s := if n = 2 then (s.put f.q (min q 100)).put Fld.WCH_DIG_STAT_MER (if s.get Fld.WCH_CTRL_DMOD = 1 then 0 else mer) else s
    let c := s.wch.chan[n]
    if !s.flag f.afen || s.flag f.try_ || (n == 2 && s.get Fld.WCH_CTRL_DMOD != 1) then s
    else if s.get f.qth ≤ s.get f.q then s.setChan n { c with low := 0 }
    else if c.low + 1 < max 1 (s.get f.dwell) then s.setChan n { c with low := c.low + 1 }
    else match s.candidates n with
      | [] => afFailed n s
      | l => State.setChan (s.put f.try_ 1) n { c with tries := l, low := 0 })

/-- Blocks of which `q` percent are good: the 64 over which a candidate was measured (R420, R423). -/
def blocksOf (q : Nat) : List Bool := (List.range 64).map fun i => decide (100 * i < 64 * q)

/-- AF_CANDIDATE_RESULT (R423): the candidate in turn synchronised or not, carried identity `ident` and quality `q`. It passes with the original identity and
Q at least QTH. -/
def execAfCandidateResult (n : Fin 3) (sync : Bool) (ident q : Nat) (s : State) : Host.Outcome State Fault Refusal :=
  .next (let f := afRegs n
    match s.wch.chan[n].tries with
    | [] => s
    | x :: t =>
      let me := if n = 2 then s.get Fld.WCH_DIG_ID_ID else s.get (Fld.WCH_FMn_PI_PI.i n)
      if sync && ident == me && decide (s.get f.qth ≤ q) then
        let k := if n = 2 then 1 else 10
        let old := s.chanFreq n
        let s := if n = 2 then s.put Fld.WCH_DIG_FREQ_FREQ x else s.put (Fld.WCH_FMn_FREQ_FREQ.i n) x
        let s := (((s.put f.sw 1).put f.try_ 0).put f.q (min q 100)).inc (Fld.WCH_CNTn_COUNT.i 3)
        queueRecord 5 s.now (k * x) (beBytes 4 (k * old) ++ beBytes 4 (k * x)) (s.setChan n { s.wch.chan[n] with tries := [], low := 0, blocks := blocksOf q })
      else if t.isEmpty then afFailed n s
      else s.setChan n { s.wch.chan[n] with tries := t })

/-! ### Broadcast time (R425, R426) -/

/-- The `WCH_BT_MS` word of an item. -/
def btMs (b : BtItem) : Nat := 3 * 2 ^ 30 + b.src * 2 ^ 24 + b.lto % 256 * 65536 + b.ms % 1024

/-- Does a source of broadcast time run: FM channel 0 or 1 synchronised, the demodulator locked to DAB, or to DVB (R425)? -/
def State.btRuns (s : State) (src : Nat) : Bool :=
  if src < 2 then s.flag (Fld.WCH_FMn_CFG_EN.i src) && s.flag (Fld.WCH_FMn_STAT_SYNC.i src)
  else s.flag Fld.WCH_DIG_STAT_LOCK && (if src = 2 then s.get Fld.WCH_CTRL_DMOD == 1 else decide (2 ≤ s.get Fld.WCH_CTRL_DMOD))

/-- BROADCAST_TIME_ITEM (R425): an item of source `src` (0, 1 CT; 2 FIG 0/10; 3 TDT or TOT) names a UTC; `t` is the device time of its reference instant.
A channel that tries candidates delivers none (R424). MS comes from FIG 0/10 alone, which gives no local time offset. -/
def execBroadcastTimeItem (src : Fin 4) (utc ms lto t : Nat) (s : State) : Host.Outcome State Fault Refusal :=
  .next (let trying := if src.val < 2 then s.flag (Fld.WCH_FMn_STAT_AFTRY.i src) else s.flag Fld.WCH_DIG_STAT_AFTRY
    if s.get Fld.WCH_BT_CFG_TSRC ≠ src.val ∨ trying ∨ !s.btRuns src then s
    else
      let b : BtItem := ⟨src, utc % 2 ^ 32, if src = 2 then ms else 0, if src = 2 then 0 else lto, t⟩
      let s := { s.at t with wch := { s.wch with bt := b } }
      let s := (((s.put Fld.WCH_BT_MS_BTNEW 1).put Fld.WCH_BT_MS_VALID 1).put Fld.WCH_BT_UTC_UTC utc).postEdge 5 8 3
      if s.flag Fld.WCH_CTRL_BTREC then
        let f := if src.val < 2 then 10 * s.get (Fld.WCH_FMn_FREQ_FREQ.i src) else s.get Fld.WCH_DIG_FREQ_FREQ
        queueRecord 6 t f (beBytes 4 utc ++ beBytes 4 (btMs b) ++ beBytes 4 (nsOf t) ++ beBytes 4 (secOf t)) s
      else s)

/-- A read of `WCH_BT_UTC` latches the other three registers and clears BTNEW (R426). VALID stays as it is. -/
def btUtcRead (s : State) : State :=
  let b := s.wch.bt
  let v := s.get Fld.WCH_BT_MS_VALID
  let s := s.wr Reg.WCH_BT_MS (BitVec.ofNat 32 (v * 2 ^ 31 + btMs b % 2 ^ 30))
  (s.put Fld.WCH_BT_NS_VAL (nsOf b.t)).put Fld.WCH_BT_SEC_VAL (secOf b.t)

/-- BT_UTC_READ (R426). -/
def execBtUtcRead (r : Req) (s : State) : Host.Outcome State Fault Refusal :=
  .next (match s.check r Reg.WCH_BT_UTC 2 false with
    | .ok => { btUtcRead s with resp := { err := false, data := (s.rd Reg.WCH_BT_UTC).toNat } }
    | .bad reason _ => (s.badAccess r Reg.WCH_BT_UTC 2 false reason).err
    | _ => s.ok)

/-! ### The sweep (R427, R428, R431) -/

/-- Is entry `n` of the sweep skipped (R427, R431)? -/
def State.skips (s : State) (n : Nat) : Bool :=
  let f := s.get (Fld.WCH_SWn_FREQ_FREQ.i n)
  let bw := s.get (Fld.WCH_SWn_CFG_BW.i n)
  let nco := s.eget (Fld.ORX_NCO_FREQ_FREQ.h (Fin.ofNat 8 (s.get Fld.WCH_SW_CFG_HAM)))
  decide (2 ≤ s.get (Fld.WCH_SWn_CFG_KIND.i n)) || bw == 0 || decide (800 < bw)
    || (if s.flag Fld.WCH_SW_CFG_SRC then
        decide (f < 600000) || decide (8400000 < f) || decide (2 * (nco + 1750000) < 2 * f + 25 * bw)
          || decide (2 * f + 3500000 < 2 * nco + 25 * bw)
      else !inBands f)

/-- The sweep goes on at entry `n`: skipped entries take no time; past the last entry it ends, and with REPEAT starts again. The bound covers two
passes; a repeated sweep of skipped entries alone stays at entry 0 (log 24). -/
def advanceSweep : Nat → Nat → State → State
  | 0, _, s => s
  | fuel + 1, n, s =>
    if s.get Fld.WCH_SW_CFG_LENM1 < n then
      let s := endSweep 0 s
      if s.flag Fld.WCH_SW_CFG_REPEAT then advanceSweep fuel 0 (s.put Fld.WCH_SW_STAT_BUSY 1) else s
    else if s.skips n then
      advanceSweep fuel (n + 1) ((s.put Fld.WCH_SW_STAT_ENTRY n).wr (Reg.WCH_SWn_RES + 16 * n) 0x84008000)
    else { s.put Fld.WCH_SW_STAT_ENTRY n with wch := { s.wch with start := s.now, dwell := s.now, agc := 0, clip := false } }

/-- DWELL of the running entry (R427): 0 acts as 1. -/
def State.dwellOf (s : State) : Nat := max 1 (s.get (Fld.WCH_SWn_CFG_DWELL.i (s.get Fld.WCH_SW_STAT_ENTRY))) * msU

/-- The running entry completes, and the sweep goes on. -/
def completeEntry (flags : Nat) (level : Option Nat) (s : State) : State :=
  let s := writeEntry flags level s
  advanceSweep 130 (s.get Fld.WCH_SW_STAT_ENTRY + 1) s

/-- GO starts a sweep: results clear; while EN stops the Watch it ends at once with END 1 (R418), with SRC = 1 and an ORx the Watch does not own with END 3 (R427, R431). -/
def startSweep (s : State) : State :=
  let s := (List.range 64).foldl (fun s n => s.wr (Reg.WCH_SWn_RES + 16 * n) 0) s
  let s := (s.put Fld.WCH_SW_STAT_BUSY 1).put Fld.WCH_SW_STAT_ENTRY 0
  let h := Fin.ofNat 8 (s.get Fld.WCH_SW_CFG_HAM)
  if !s.flag Fld.WCH_CTRL_EN then endSweep 1 s
  else if s.flag Fld.WCH_SW_CFG_SRC && s.get (Fld.ORX_STAT_OWNER.h h) != 3 then endSweep 3 s else advanceSweep 130 0 s

/-- A write to `WCH_SW_CFG` (R427): STOP ends the sweep; a GO while BUSY is ignored and recorded. -/
def sweepWrite (r : Req) (v : Word) (s : State) : State :=
  let busy := s.flag Fld.WCH_SW_STAT_BUSY
  let go := getBits Fld.WCH_SW_CFG_GO v = 1
  let s := s.storeReg r Reg.WCH_SW_CFG (v &&& 0x7FFFFFFF#32)
  let s := if getBits Fld.WCH_SW_CFG_STOP v = 1 then cutSweep 0 1 s else s
  if !go then s
  else if busy then s.refuse4 r Reg.WCH_SW_CFG
  else startSweep s

/-- SWEEP_GO (R427). -/
def execSweepGo (r : Req) (v : Word) (s : State) : Host.Outcome State Fault Refusal :=
  .next (regCmd r Reg.WCH_SW_CFG v (sweepWrite r v) s)

/-- SWEEP_STOP (R427): the same register with STOP set. -/
def execSweepStop (r : Req) (v : Word) (s : State) : Host.Outcome State Fault Refusal :=
  .next (regCmd r Reg.WCH_SW_CFG (v ||| 0x40000000#32) (sweepWrite r (v ||| 0x40000000#32)) s)

/-- SWEEP_ENTRY_END (R427, R428): the running entry has gathered its dwell at `t`; its level is `level` (dBm, 0.25 dB, 16 bits). An entry that has not goes on. -/
def execSweepEntryEnd (level t : Nat) (s : State) : Host.Outcome State Fault Refusal :=
  .next (if s.flag Fld.WCH_SW_STAT_BUSY && decide (s.dwellOf ≤ s.gathered (max s.now t)) then completeEntry 0 (some level) (s.at t) else s)

/-- SWEEP_ENTRY_TIMEOUT (R428): an entry that has not gathered its dwell 10 * DWELL ms after its start ends with PART, over the samples it has, if any. -/
def execSweepEntryTimeout (level : Option Nat) (s : State) : Host.Outcome State Fault Refusal :=
  .next (
    let t := s.wch.start + 10 * s.dwellOf
    let n := s.gathered t
    if s.flag Fld.WCH_SW_STAT_BUSY && decide (n < s.dwellOf) then completeEntry (2 ^ 29) (if n = 0 then none else level) (s.at t) else s)

/-- WATCH_AGC_STEP (R417, R427): the gain of a running Watch moves by 1 dB at `t`, at least 1 ms after its last change; at the end of its range it stays. A running entry of WATCH_IN starts its dwell again at the first change and completes with
AGCX at the second, over its samples' `level`. -/
def execWatchAgcStep (up : Bool) (level t : Nat) (s : State) : Host.Outcome State Fault Refusal :=
  .next (
    let g := s.get Fld.WCH_STAT_GAIN
    let g' := if up then min 30 (g + 1) else g - 1
    if !s.watchRuns || decide (max s.now t < s.wch.agcAt) || g' == g then s
    else
      let s := (s.at t).put Fld.WCH_STAT_GAIN g'
      let s : State := { s with wch := { s.wch with agcAt := s.now + msU } }
      if s.flag Fld.WCH_SW_STAT_BUSY && !s.flag Fld.WCH_SW_CFG_SRC then
        if s.wch.agc = 0 then { s with wch := { s.wch with agc := 1, dwell := s.now } }
        else completeEntry (2 ^ 25) (some level) s
      else s)

/-- WATCH_CLIP (R417): `n` clipped samples of a running Watch. -/
def execWatchClip (n : Nat) (s : State) : Host.Outcome State Fault Refusal :=
  .next (if n = 0 ∨ !s.watchRuns then s
    else
      let old := s.get Fld.WCH_STAT_OVR
      let s := (s.add (Fld.WCH_CNTn_COUNT.i 0) n).put Fld.WCH_STAT_OVR 1
      let s := if s.flag Fld.WCH_SW_STAT_BUSY && !s.flag Fld.WCH_SW_CFG_SRC then { s with wch := { s.wch with clip := true } } else s
      if old = 0 then s.raise 0x473 0xFF (s.rd Reg.WCH_STAT).toNat else s)

end Sys2Proof.Machine
end

