-- ==== Sys2Proof/Machine/Orx.lean ====
section
/-!
DEFINITION. The observation receivers (R147 to R168): claims, the switch, captures, the ring, records and deep flows.
-/

namespace Sys2Proof.Machine

/-- The ORx of hamlet `h` with its hidden state changed. -/
def State.setOrx (s : State) (h : Fin 8) (o : Orx) : State := { s with orx := s.orx.set h o }

/-- The index of an instant (R157): 4,423.68 MS/s sample periods since the last whole second. -/
def sampleIndex (t : Nat) : Nat := t % secU / orxU

/-! ### Ownership (R150, R151) -/

/-- The ORx of hamlet `h` and its switch pins become free (R150): the pins return to SAFE, a capture ends with `code`, a sweep through the ORx ends. -/
def orxFree (h : Fin 8) (code : Nat) (s : State) : State :=
  let o := s.get (Fld.ORX_STAT_OWNER.h h)
  if o = 0 then s
  else
    let s := s.endCapture h code
    let s := (s.put (Fld.ORX_STAT_OWNER.h h) 0).put (Fld.ORX_STAT_READY.h h) 0
    let s := s.releasePins h (s.get (Fld.ORX_SW_PINMASK.h h) &&& s.pinsOf h o)
    if o = 3 then sweepLost h s else s

/-- The owners that a claim by `owner` would pre-empt, of the ORx or of a switch pin. -/
def State.orxHolders (s : State) (h : Fin 8) (owner : Nat) : List Nat :=
  let pm := s.get (Fld.ORX_SW_PINMASK.h h)
  [3, 4].filter fun o => decide (owner < o) && (s.get (Fld.ORX_STAT_OWNER.h h) == o || (pm &&& s.pinsOf h o) != 0)

/-- An accepted claim: the ORx and its switch pins are taken and lower-ranked holders pre-empted; a pre-empted Watch is told through the Reeve (R150, R510), and the Watch
drives WPAT (R151). -/
def orxTake (h : Fin 8) (owner : Nat) (s : State) : State :=
  let pm := s.get (Fld.ORX_SW_PINMASK.h h)
  let pre := s.orxHolders h owner
  let lost := s.get (Fld.ORX_STAT_OWNER.h h) == 3
  let s := claimPins h owner pm (s.put (Fld.ORX_STAT_OWNER.h h) owner)
  let s := if pre = [] then s else (s.put (Fld.ORX_STAT_PREEMPTED.h h) 1).inc ((Fld.ORX_CNTn_COUNT.i 5).h h)
  let s := if pre.contains 3 then s.notifyReeve 0xFFF3 else s
  if lost then sweepLost h s else s

/-- A write to `ORX_CLAIM` (R150): OWNER 3 is the Reeve's alone; a claim against an equal or higher rank is refused whole. -/
def orxClaimWrite (r : Req) (h : Fin 8) (v : Word) (s : State) : State :=
  let a := hamletBase h + Reg.ORX_CLAIM
  let owner := getBits Fld.ORX_CLAIM_OWNER v
  let cur := s.get (Fld.ORX_STAT_OWNER.h h)
  let pm := s.get (Fld.ORX_SW_PINMASK.h h)
  if s.calOnOrx h then s.refuse4 r a
  else if owner ≠ 2 ∧ owner ≠ 3 then s
  else if owner = 3 ∧ r.id ≠ 16 then s.refuse4 r a
  else if getBits Fld.ORX_CLAIM_RELEASE v = 1 then (if cur = owner then orxFree h 3 s else s)
  else if (cur ≠ 0 ∧ cur ≤ owner) ∨ (List.range 12).any (fun j => bitOf pm j && s.pinOwner h j != 0 && decide (s.pinOwner h j ≤ owner)) then
    s.refuse4 r a
  else orxTake h owner s

/-- ORX_CLAIM (R150). -/
def execOrxClaim (r : Req) (h : Fin 8) (v : Word) (s : State) : Host.Outcome State Fault Refusal :=
  .next (regCmd r (hamletBase h + Reg.ORX_CLAIM) v (orxClaimWrite r h v) s)

/-- ORX_RELEASE (R150): the same register with RELEASE set. -/
def execOrxRelease (r : Req) (h : Fin 8) (v : Word) (s : State) : Host.Outcome State Fault Refusal :=
  .next (regCmd r (hamletBase h + Reg.ORX_CLAIM) (v ||| 0x80000000#32) (orxClaimWrite r h (v ||| 0x80000000#32)) s)

/-- ORX_READY (R150): within 20 us of the claim, at `t`. -/
def execOrxReady (h : Fin 8) (t : Nat) (s : State) : Host.Outcome State Fault Refusal :=
  .next (if s.get (Fld.ORX_STAT_OWNER.h h) = 0 then s else (s.at t).put (Fld.ORX_STAT_READY.h h) 1)

/-! ### Settings (R148, R152, R158, R163) -/

/-- A write to `ORX_NCO_FREQ` (R148, R151): out of range, or from the engine while the Watch owns the ORx, it is ignored and recorded; held while
a capture runs. DESIGN CHOICE (log 129): a capture that is only settling counts as running here. -/
def orxNcoWrite (r : Req) (h : Fin 8) (v : Word) (s : State) : State :=
  let a := hamletBase h + Reg.ORX_NCO_FREQ
  let f := getBits Fld.ORX_NCO_FREQ_FREQ v
  if f < 600000 ∨ 8400000 < f ∨ (s.get (Fld.ORX_STAT_OWNER.h h) = 3 ∧ r.id = h.val) then s.refuse4 r a
  else
    let s := s.storeReg r a v
    if s.orx[h].cap.isSome then s.put (Fld.ORX_NCO_FREQ_PEND.h h) 1 else s.eput (Fld.ORX_NCO_FREQ_FREQ.h h) f

/-- ORX_NCO_WRITE (R148). -/
def execOrxNcoWrite (r : Req) (h : Fin 8) (v : Word) (s : State) : Host.Outcome State Fault Refusal :=
  .next (regCmd r (hamletBase h + Reg.ORX_NCO_FREQ) v (orxNcoWrite r h v) s)

/-- A write to `ORX_SW` (R152): only while the ORx is unowned, and naming at most 4 pins. -/
def orxSwWrite (r : Req) (h : Fin 8) (v : Word) (s : State) : State :=
  let a := hamletBase h + Reg.ORX_SW
  if s.get (Fld.ORX_STAT_OWNER.h h) ≠ 0 ∨ 4 < ((List.range 12).filter fun j => bitOf v.toNat j).length then s.refuse4 r a
  else s.storeReg r a v

/-- A new ring length takes effect; a write position beyond its end returns to group 0 (R158). DESIGN CHOICE (log 130): the unsent groups of a deep flow stay where they lie,
queued and counted. -/
def takeRingLen (h : Fin 8) (s : State) : State :=
  let len := s.get (Fld.ORX_RING_LEN.h h)
  let s := (s.eput (Fld.ORX_RING_LEN.h h) len).put (Fld.ORX_RING_PEND.h h) 0
  if len ≤ s.orx[h].wpos then s.setOrx h { s.orx[h] with wpos := 0 } else s

/-- A write to `ORX_RING` (R39, R158): a change of BASE while a capture runs or the deep flow is enabled, or a region that breaks R39, makes it ignored;
LEN is held while a capture runs. DESIGN CHOICE (log 129): a settling capture counts as running, and a write refused for its BASE is ignored whole. R39 is judged against the regions that stand when the new ones take effect. -/
def orxRingWrite (r : Req) (h : Fin 8) (v : Word) (s : State) : State :=
  let a := hamletBase h + Reg.ORX_RING
  let v := v &&& 0xFFFFFFFE#32
  let t := if s.orx[h].cap.isSome then (s.ringWrap h).getD (s.now + secU) else s.now
  let busy := s.orx[h].cap.isSome || s.flag (Fld.ORX_DF_EN.h h) || s.eget (Fld.ORX_DF_EN.h h) == 1
  if getBits Fld.ORX_RING_BASE v ≠ s.get (Fld.ORX_RING_BASE.h h) ∧ busy then s.refuse4 r a
  else if regionsOk (ringRegion v ++ beamRegions (s.basesAt h t) ++ slotRegions (s.sltCfgAt h t)) then
    let s := s.storeReg r a v
    if s.orx[h].cap.isSome then s.put (Fld.ORX_RING_PEND.h h) 1 else takeRingLen h s
  else rejectBase r h a s

/-- A write to `ORX_DF` (R163): EN = 1 only for a flow with the deep-flow attribute of the bulk or user-plane class. -/
def orxDfWrite (r : Req) (h : Fin 8) (v : Word) (s : State) : State :=
  let a := hamletBase h + Reg.ORX_DF
  let f := getBits Fld.ORX_DF_FLOW v
  let cls := s.get (Fld.LNK_FLOWf_CFG_CLASS.i f)
  if getBits Fld.ORX_DF_EN v = 1 ∧ ¬ (8 ≤ f ∧ s.flag (Fld.LNK_FLOWf_CFG_DEEP.i f) ∧ (cls = 2 ∨ cls = 3)) then s.refuse4 r a
  else s.storeReg r a v

/-! ### Triggers (R153, R154) -/

/-- A write to `ORX_TRIG` (R153): STOP ends the running capture at the next group boundary, GO triggers SET at the first tick at least 0.5 us later. -/
def orxTrigWrite (h : Fin 8) (v : Word) (s : State) : State :=
  let s := if getBits Fld.ORX_TRIG_STOP v = 1 then s.endCapture h 1 else s
  if getBits Fld.ORX_TRIG_GO v = 0 then s
  else s.setOrx h { s.orx[h] with trigs := s.orx[h].trigs ++ [(nextMult (s.now + usU / 2) tickU, getBits Fld.ORX_TRIG_SET v)] }

/-- ORX_TRIGGER_GO (R153). -/
def execOrxTriggerGo (r : Req) (h : Fin 8) (v : Word) (s : State) : Host.Outcome State Fault Refusal :=
  .next (regCmd r (hamletBase h + Reg.ORX_TRIG) (v ||| 0x80000000#32) (orxTrigWrite h (v ||| 0x80000000#32)) s)

/-- ORX_STOP (R153). -/
def execOrxStop (r : Req) (h : Fin 8) (v : Word) (s : State) : Host.Outcome State Fault Refusal :=
  .next (regCmd r (hamletBase h + Reg.ORX_TRIG) (v ||| 0x40000000#32) (orxTrigWrite h (v ||| 0x40000000#32)) s)

/-- The earliest trigger of a list, and the others in order. -/
def popTrig : List (Nat × Nat) → Option ((Nat × Nat) × List (Nat × Nat))
  | [] => none
  | p :: t => match popTrig t with
    | none => some (p, [])
    | some (q, u) => if q.1 < p.1 then some (q, p :: u) else some (p, t)

/-- The refusal reason of a trigger of set `n` (R154), the first that holds in the rule's order, or 0. DESIGN CHOICE (log 131): LEN = 0 refuses every trigger of a set
(reason 4), a continuous set's too, as the table of R157 has it. -/
def State.trigReason (s : State) (h : Fin 8) (n : Nat) : Nat :=
  let len := s.get ((Fld.ORX_CSETn_LEN.i n).h h)
  let ref := s.get ((Fld.ORX_CSETn_REFSEL.i n).h h)
  let mult := if ref = 1 ∨ ref = 2 then 2 else 1
  let pm := s.get (Fld.ORX_SW_PINMASK.h h)
  if s.orx[h].cap.isSome then 1
  else if s.get (Fld.ORX_STAT_OWNER.h h) ≠ 2 then 2
  else if pm &&& s.pinsOf h 2 ≠ pm then 3
  else if len = 0 ∨ (s.get ((Fld.ORX_CSETn_MODE.i n).h h) = 0 ∧ s.eget (Fld.ORX_RING_LEN.h h) < len * mult) then 4
  else if !s.flag (Fld.PLL_STAT_LOCK.h h) || !s.flag (Fld.PLL_STAT_ALIGNED.h h) then 5
  else if !s.flag (Fld.ORX_STAT_READY.h h) then 6
  else 0

/-- EN of `ORX_DF` is in force from an accepted trigger on; with EN = 0 the groups not sent are given up (R163). DESIGN CHOICE (log 132): so are the
queued pause, resume and end messages. -/
def takeDeepEn (h : Fin 8) (s : State) : State :=
  let en := s.get (Fld.ORX_DF_EN.h h)
  let s := s.eput (Fld.ORX_DF_EN.h h) en
  if en = 1 then s else (s.setOrx h { s.orx[h] with items := [], lost := 0 }).put (Fld.ORX_DFSTAT_UNSENT.h h) 0

/-- The ring's write position moves on by one group, wrapping; a held LEN takes effect at the wrap (R158). -/
def nextGroup (h : Fin 8) (s : State) : State :=
  let o := s.orx[h]
  if o.wpos + 1 < s.eget (Fld.ORX_RING_LEN.h h) then s.setOrx h { o with wpos := o.wpos + 1 }
  else
    let s := s.setOrx h { o with wpos := 0 }
    if s.flag (Fld.ORX_RING_PEND.h h) then takeRingLen h s else s

/-- A field of channel `c` of the DMA engine of hamlet `h`. -/
def dmaF (f : Field) (h c : Fin 8) : Field := (f.i c).h h

/-- STATE of a channel. -/
def State.dmaSt (s : State) (h c : Fin 8) : Nat := s.get (dmaF Fld.DMA_CHn_STAT_STATE h c)

/-- The capture ring's fill as seen from a channel's RPTR (R317). -/
def State.ringFill (s : State) (h c : Fin 8) : Nat := ((s.orx[h].written : Int) - (s.dmaCh h c).taken).toNat

/-- The capture ring has overrun the channel (R317): RINGOVR, counted once, and the fill is RLEN. -/
def dmaOverrun (h c : Fin 8) (s : State) : State :=
  let x := s.dmaCh h c
  let len := s.get (dmaF Fld.DMA_CHn_RLEN_LEN h c)
  if s.ringFill h c ≤ len then s
  else
    let s := s.put (dmaF Fld.DMA_CHn_STAT_RINGOVR h c) 1
    let s := if x.ovr then s else s.inc ((Fld.DMA_CNTn_COUNT.i 2).h h)
    s.setDma h c { x with taken := (s.orx[h].written : Int) - len, ovr := true }

/-- A group of the ring has been written, or left out (log 50): the channels that read the ring see it, and one that is overrun learns it at this write (R317). -/
def wroteGroup (h : Fin 8) (s : State) : State :=
  let s := s.setOrx h { s.orx[h] with written := s.orx[h].written + 28 }
  (List.finRange 8).foldl (fun s c =>
    if s.get (dmaF Fld.DMA_CHn_CFG_TRIG h c) = 3 ∧ s.dmaSt h c ≠ 0 then dmaOverrun h c s else s) s

/-- An accepted trigger of set `n` (R152, R155): the switch pins change if they do not hold the path's pattern, and the first sample waits for SETTLE. DESIGN CHOICE (log 50): a
capture with a reference that finds the write position at an odd group leaves that group out, since a pair never straddles the wrap (R158). -/
def startCapture (h : Fin 8) (n : Nat) (s : State) : State :=
  let s := takeDeepEn h s
  let pm := s.get (Fld.ORX_SW_PINMASK.h h)
  let path := s.get ((Fld.ORX_CSETn_PATH.i n).h h)
  let ref := s.get ((Fld.ORX_CSETn_REFSEL.i n).h h)
  let lv := spread pm (s.get ((Fld.ORX_SWPAT_P.sub path).h h))
  let moved := (s.get (Fld.FEP_LEVEL_LEVEL.h h) &&& pm) != lv
  let settle := if moved then s.get (Fld.ORX_SW_SETTLE.h h) else 0
  let first := nextMult (s.now + settle * tickU) orxU
  let odd := (ref = 1 ∨ ref = 2) ∧ s.orx[h].wpos % 2 = 1
  let s := if odd then wroteGroup h (nextGroup h s) else s
  let c : Capture := {
    set := n
    path := path
    refsel := if ref = 3 then 0 else ref
    oneShot := s.get ((Fld.ORX_CSETn_MODE.i n).h h) == 0
    len := s.get ((Fld.ORX_CSETn_LEN.i n).h h)
    pos := s.orx[h].wpos
    rdly := s.get ((Fld.ORX_CSETn_RDLY.i n).h h)
    first := first
    settle := if settle = 0 then none else some first
    stream := s.eget (Fld.ORX_DF_EN.h h) == 1 }
  let s := if moved then s.drivePins h pm lv else s
  let s := if settle = 0 then s.put (Fld.ORX_STAT_RUN.h h) 1 else s.put (Fld.ORX_STAT_SETTLING.h h) 1
  s.setOrx h { s.orx[h] with cap := some c }

/-- CAPTURE_TRIGGER (R154): at T of the earliest trigger a capture starts, or the trigger is refused and counted. -/
def execCaptureTrigger (h : Fin 8) (s : State) : Host.Outcome State Fault Refusal :=
  .next (match popTrig s.orx[h].trigs with
    | none => s
    | some ((t, n), rest) =>
      let s := State.at (s.setOrx h { s.orx[h] with trigs := rest }) t
      let e := s.trigReason h n
      if e = 0 then startCapture h n s
      else ((s.inc ((Fld.ORX_CNTn_COUNT.i 0).h h)).put (Fld.ORX_STAT_TRIGREF.h h) 1).put (Fld.ORX_STAT_LASTREF.h h) e)

/-- CAPTURE_SETTLED (R152): SETTLE ticks after T the first sample is taken. -/
def execCaptureSettled (h : Fin 8) (s : State) : Host.Outcome State Fault Refusal :=
  .next (match s.orx[h].cap with
    | none => s
    | some c => match c.settle with
      | none => s
      | some t =>
        let s := ((s.at t).put (Fld.ORX_STAT_SETTLING.h h) 0).put (Fld.ORX_STAT_RUN.h h) 1
        s.setOrx h { s.orx[h] with cap := some { c with settle := none } })

/-! ### Groups (R155, R156, R158, R165, R166) -/

/-- A complex value as 28 bits: I in the lower 14, Q in the upper 14 (R156). -/
def packSample (z : Cx) : Nat := unsigned 14 z.1 + 2 ^ 14 * unsigned 14 z.2

/-- ORx sample `n` of hamlet `h`, counted from device time 0, from the codes of its ADC (R147, R148): mixed with the phase -2 pi FREQ t at its ball instant, decimated by 4,
rounded once to Q1.13; a full-scale code A has magnitude A / 2,048. `adc` holds the codes from ADC sample `first` on. -/
def State.orxSample (s : State) (h : Fin 8) (first : Nat) (adc : List Int) (n : Int) : Nat :=
  let f : Int := s.eget (Fld.ORX_NCO_FREQ_FREQ.h h)
  let code (i : Int) : Int := if i < first then 0 else max (-2047) (min 2047 (adc.getD (i - first).toNat 0))
  let x : Sig := fun i => cscale (8 * code i) (cis (-(f * i)) 17694720)
  packSample (roundCx 14 (fir Config.orxTap 193 96 x (4 * n)) (2 ^ 90)).1

/-- The reference sample whose TX ball instant is sample `n` at 4,423.68 MS/s (R155, R161): the predistorter's input x(n) of the path for REFSEL = 1, its output y(n)
for 2, rounded convergently to Q1.13. -/
def State.refSample (s : State) (h : Fin 8) (path refsel : Nat) (n : Int) : Nat :=
  let k : Fin 8 := Fin.ofNat 8 path
  packSample (if refsel = 1 then (roundCx 14 (s.dpdIn h k n) (2 ^ 32)).1 else (roundCx 14 (s.dpdOut h k n).1 4).1)

/-- The 224 bits of a group: sample j in bits 28 j to 28 j + 27 (R156). -/
def groupBits (l : List Nat) : Nat := (List.range 8).foldl (fun n j => n + l.getD j 0 % 2 ^ 28 * 2 ^ (28 * j)) 0

/-- The groups that the ORx capture FIFO of 8 KiB holds: four bytes a sample (R27, R159). -/
abbrev fifoGroups : Nat := 256

/-- Does a capture write to the store wait: for a frozen arbiter, or for the copy of a row (R283, R292)? -/
def State.captureWaits (s : State) (h : Fin 8) (a : Nat) : Bool := s.flag (Fld.ARB_CTRL_FREEZE.h h) || s.rowBusy (a - 4) 32

/-- The word whose upper half no group follows is written, that half as zero (R279). -/
def closeHalf (h : Fin 8) (s : State) : State :=
  match s.orx[h].opened with
  | some a => (s.access 22 false a 8 true).putLE a 8 s.orx[h].half
  | none => s

/-- The capture unit writes one group, whole words only (R279): a group at an even position ends in half a word, which waits for the next group. -/
def writeGroup (h : Fin 8) (g : CapGroup) (s : State) : State :=
  let o := s.orx[h]
  let s := if g.addr % 8 = 0 then
      ((s.access 22 false g.addr 24 true).putLE g.addr 24 (g.bits % 2 ^ 192)).setOrx h { o with half := g.bits / 2 ^ 192 % 2 ^ 32, opened := some (g.addr + 24) }
    else
      let low := if o.opened = some (g.addr - 4) then o.half else 0
      ((s.access 22 false (g.addr - 4) 32 true).putLE (g.addr - 4) 32 (low + g.bits * 2 ^ 32)).setOrx h { o with opened := none }
  wroteGroup h (if g.last then closeHalf h s else s)

/-- The capture FIFO drains into the store, in its order, up to a group whose write waits (R26, R292). -/
def drainGroups (h : Fin 8) : List CapGroup → State → State
  | [], s => s.setOrx h { s.orx[h] with fifo := [] }
  | g :: t, s =>
    if s.captureWaits h g.addr then (s.access 22 false g.addr 28 false).setOrx h { s.orx[h] with fifo := g :: t }
    else drainGroups h t (writeGroup h g s)

/-- Groups of the ring that one unsent item holds: two with a reference. -/
def DeepItem.groups (d : DeepItem) : Nat := if d.kind ≠ 0 then 0 else if d.refsel = 0 then 1 else 2

/-- A list without its first unsent group, and that group. -/
def dropGroup : List DeepItem → Option (DeepItem × List DeepItem)
  | [] => none
  | d :: t => if d.kind = 0 then some (d, t) else match dropGroup t with
    | some (x, u) => some (x, d :: u)
    | none => none

/-- Shows how many groups of the ring are unsent: those written and not yet sent (R163). -/
def showUnsent (h : Fin 8) (s : State) : State :=
  s.put (Fld.ORX_DFSTAT_UNSENT.h h) ((s.orx[h].items.map DeepItem.groups).sum - (s.orx[h].fifo.filter fun g => g.stream).length)

/-- The capture FIFO of hamlet `h` drains as far as the arbiter lets it. -/
def drainFifo (h : Fin 8) (s : State) : State := if s.orx[h].fifo.isEmpty then s else showUnsent h (drainGroups h s.orx[h].fifo s)

/-- No group follows the last one for now: the half word that it left is closed, behind the groups that wait. -/
def closeGroups (h : Fin 8) (s : State) : State :=
  let o := s.orx[h]
  match o.fifo.getLast? with
  | some g => s.setOrx h { o with fifo := o.fifo.dropLast ++ [{ g with last := true }] }
  | none => closeHalf h s

/-- One group goes to the ring's write position by way of the capture FIFO (R27, R158). -/
def putGroup (h : Fin 8) (stream : Bool) (l : List Nat) (s : State) : State :=
  if s.eget (Fld.ORX_RING_LEN.h h) = 0 then s
  else
    let o := s.orx[h]
    let a := hamletBase h + s.get (Fld.ORX_RING_BASE.h h) * 65536 + 28 * o.wpos
    drainFifo h (nextGroup h (s.setOrx h { o with fifo := o.fifo ++ [⟨a, groupBits l, false, stream⟩] }))

/-- Discards the oldest unsent group, or pair, under overwrite (R166). DESIGN CHOICE (log 133): a pair counts as two groups in `ORX_CNTn`, n = 2. -/
def discardOldest (h : Fin 8) (s : State) : State :=
  match dropGroup s.orx[h].items with
  | none => s
  | some (d, rest) =>
    showUnsent h ((s.setOrx h { s.orx[h] with items := rest, lost := s.orx[h].lost + 8 }).add ((Fld.ORX_CNTn_COUNT.i 2).h h) d.groups)

/-- Is a capture complete: its LEN groups, or the group of a STOP? -/
def Capture.done (c : Capture) : Bool := c.oneShot && decide (c.len ≤ c.count)

/-- Does the capture still take groups: not settling, paused, complete, or ended by a cause of END codes 2 to 6? -/
def Capture.takes (c : Capture) : Bool :=
  c.settle.isNone && c.paused.isNone && !c.done && (c.ending.getD 0) < 2

/-- The groups a capture writes for each ORx group. -/
def Capture.mult (c : Capture) : Nat := if c.refsel = 0 then 1 else 2

/-- The capture pauses at a group boundary under hold (R165). -/
def pauseCapture (h : Fin 8) (c : Capture) (s : State) : State :=
  let t := c.first + c.sample * orxU
  let d : DeepItem := ⟨1, t, 1, 0, c.path, c.refsel, false, false⟩
  let s := closeGroups h s
  (s.setOrx h { s.orx[h] with cap := some { c with paused := some t, grpClip := false }, items := s.orx[h].items ++ [d] }).put (Fld.ORX_DFSTAT_PAUSED.h h) 1

/-- One captured group with its reference group goes to the ring, and to the deep flow's order. -/
def takeGroups (h : Fin 8) (c : Capture) (orx ref : List Nat) (s : State) : State :=
  let pos := s.orx[h].wpos
  let s := putGroup h c.stream orx s
  let s := if c.refsel = 0 then s else putGroup h c.stream ref s
  let n := c.count + 1
  let stop := c.ending == some 1
  let c' : Capture := { c with
    count := n
    sample := c.sample + 8
    clipped := c.clipped || c.grpClip
    grpClip := false
    opens := false
    oneShot := c.oneShot || stop
    len := if stop then n else c.len }
  let d : DeepItem := ⟨0, c.first + c.sample * orxU, 1, pos, c.path, c.refsel, c.grpClip, c.opens⟩
  let items := if c.stream then s.orx[h].items ++ [d] else s.orx[h].items
  showUnsent h (s.setOrx h { s.orx[h] with cap := some c', items := items })

/-- Does what the next group writes fall on an unsent group (R165, R166): the ring holds LEN unsent groups, a group left out at the start of a capture among them? -/
def State.ringFull (s : State) (h : Fin 8) (c : Capture) : Bool :=
  c.stream && s.orx[h].items.any fun d =>
    d.kind == 0 && decide (d.pos < s.orx[h].wpos + c.mult) && decide (s.orx[h].wpos < d.pos + d.groups)

/-- Discards under overwrite until the ring has room for what a group writes (R166): at most all its items. -/
def makeRoom (h : Fin 8) (c : Capture) : Nat → State → State
  | 0, s => s
  | n + 1, s => if s.ringFull h c then makeRoom h c n (discardOldest h s) else s

/-- Is the capture FIFO too full for what the next group writes (R27, R159)? -/
def State.fifoFull (s : State) (h : Fin 8) (c : Capture) : Bool := decide (fifoGroups < s.orx[h].fifo.length + c.mult)

/-- CAPTURE_GROUP (R155): the next eight ORx samples are complete, of the ADC's codes `adc` from its sample `first` on, and the reference samples that pair with
them: RDLY samples earlier at the TX balls. A group that finds the capture FIFO full is discarded, and the capture ends with END code 5 (R27). -/
def execCaptureGroup (h : Fin 8) (first : Nat) (adc : List Int) (s : State) : Host.Outcome State Fault Refusal :=
  .next (match s.orx[h].cap with
    | none => s
    | some c =>
      if !c.takes then s
      else
        let s := s.at (c.first + (c.sample + 8) * orxU)
        let full := s.ringFull h c
        if s.fifoFull h c then s.endCapture h 5
        else if full && !s.flag (Fld.ORX_DF_POLICY.h h) then pauseCapture h c s
        else
          let n0 : Int := ((c.first + c.sample * orxU) / orxU : Nat)
          let orx := (List.range 8).map fun (j : Nat) => s.orxSample h first adc (n0 + j)
          let ref := if c.refsel = 0 then [] else (List.range 8).map fun (j : Nat) => s.refSample h c.path c.refsel (n0 + j - c.rdly)
          takeGroups h c orx ref (if full then makeRoom h c s.orx[h].items.length s else s))

/-- ORX_CLIP (R149): `n` clipped samples; they mark the group that is being taken, if one is, and through it the record and the message. -/
def execOrxClip (h : Fin 8) (n : Nat) (s : State) : Host.Outcome State Fault Refusal :=
  .next (if n = 0 then s
    else
      let old := s.get (Fld.ORX_STAT_OVR.h h)
      let s := (s.add ((Fld.ORX_CNTn_COUNT.i 1).h h) n).put (Fld.ORX_STAT_OVR.h h) 1
      let s := match s.orx[h].cap with
        | some c => if c.settle.isNone && c.paused.isNone then
            s.setOrx h { s.orx[h] with cap := some { c with grpClip := true } } else s
        | none => s
      if old = 0 then s.raise 0x422 h (s.rd (hamletBase h + Reg.ORX_STAT)).toNat else s)

/-! ### The end of a capture, and records (R159, R160) -/

/-- Shows the head of the record FIFO. -/
def showRecord (h : Fin 8) (s : State) : State :=
  let b := hamletBase h
  let r : CapRec := s.orx[h].recs.headD ⟨0, 0, 0, 0⟩
  (((s.wr (b + Reg.ORX_CREC_POS) r.pos).wr (b + Reg.ORX_CREC_LEN) r.len).wr (b + Reg.ORX_CREC_T0) r.t0).wr (b + Reg.ORX_CREC_T1) r.t1

/-- The record of a capture that ended with a code. -/
def recordOf (c : Capture) (code : Nat) : CapRec :=
  let i := sampleIndex c.first
  ⟨BitVec.ofNat 32 (c.set * 2 ^ 28 + c.pos),
   BitVec.ofNat 32 (2 ^ 31 + b2n c.clipped * 2 ^ 30 + code * 2 ^ 27 + c.path * 2 ^ 24 + c.refsel * 2 ^ 22 + min c.count 0xFFFFF),
   BitVec.ofNat 32 i, BitVec.ofNat 32 (secOf c.first % 65536 * 65536 + i / 2 ^ 32)⟩

/-- Queues a record in the 4-entry FIFO; a full one loses its oldest (R160). -/
def queueCapRec (h : Fin 8) (r : CapRec) (s : State) : State :=
  let l := s.orx[h].recs
  let s := if 4 ≤ l.length then (s.put (Fld.ORX_STAT_RECLOST.h h) 1).inc ((Fld.ORX_CNTn_COUNT.i 4).h h) else s
  let l := if 4 ≤ l.length then l.tail else l
  showRecord h (s.setOrx h { s.orx[h] with recs := l ++ [r] })

/-- The capture ends with an END code (R159): a held NCO frequency takes effect, the record and its notification follow, and a deep flow gets its end item. -/
def finishCapture (h : Fin 8) (c : Capture) (code : Nat) (s : State) : State :=
  let t := c.first + c.sample * orxU
  let s := closeGroups h s
  let s := (s.put (Fld.ORX_STAT_RUN.h h) 0).put (Fld.ORX_STAT_SETTLING.h h) 0
  let s := match c.paused with
    | some p => (s.add ((Fld.ORX_CNTn_COUNT.i 3).h h) ((s.now - p) / orxU)).put (Fld.ORX_DFSTAT_PAUSED.h h) 0
    | none => s
  let e : DeepItem := ⟨4, t, code, 0, c.path, c.refsel, false, false⟩
  let s := s.setOrx h { s.orx[h] with cap := none, items := if c.stream then s.orx[h].items ++ [e] else s.orx[h].items }
  let s := (s.eput (Fld.ORX_NCO_FREQ_FREQ.h h) (s.get (Fld.ORX_NCO_FREQ_FREQ.h h))).put (Fld.ORX_NCO_FREQ_PEND.h h) 0
  let s := if 2 ≤ code then s.put (Fld.ORX_STAT_INCOMPLETE.h h) 1 else s
  let s := if code = 2 then s.put (Fld.ORX_STAT_UNLK.h h) 1 else s
  let s := if code = 5 then s.raise 0x426 h c.set else s
  (queueCapRec h (recordOf c code) s).notify h 0xFFF2

/-- CAPTURE_END (R159): `fifoFull` says that the capture FIFO filled (END 5); otherwise the capture's cause ends it, or its LEN groups are complete. -/
def execCaptureEnd (h : Fin 8) (fifoFull : Bool) (s : State) : Host.Outcome State Fault Refusal :=
  .next (match s.orx[h].cap with
    | none => s
    | some c => match c.ending with
      | some code => finishCapture h c code s
      | none => if c.done then finishCapture h c 0 s else if fifoFull && c.settle.isNone && s.fifoFull h c then finishCapture h c 5 s else s)

/-- CAPTURE_RECORD_NEXT (R160): any write discards the head record. -/
def orxNextWrite (h : Fin 8) (s : State) : State := showRecord h (s.setOrx h { s.orx[h] with recs := s.orx[h].recs.tail })

/-- CAPTURE_RECORD_NEXT (R160). -/
def execCaptureRecordNext (r : Req) (h : Fin 8) (v : Word) (s : State) : Host.Outcome State Fault Refusal :=
  .next (regCmd r (hamletBase h + Reg.ORX_CREC_NEXT) v (orxNextWrite h) s)

/-! ### Deep flows (R163 to R167) -/

/-- DEEP_FLOW_RESUME (R165): at the first group boundary with RESUME free groups the capture goes on and a resume message is queued. -/
def execDeepFlowResume (h : Fin 8) (s : State) : Host.Outcome State Fault Refusal :=
  .next (match s.orx[h].cap with
    | none => s
    | some c => match c.paused with
      | none => s
      | some p =>
        let need := max 64 (s.get (Fld.ORX_DF_RESUME.h h))
        if c.ending.isSome ∨ s.eget (Fld.ORX_RING_LEN.h h) < s.get (Fld.ORX_DFSTAT_UNSENT.h h) + need then s
        else
          let t := p + nextMult (s.now - p) (8 * orxU)
          let n := (t - p) / orxU
          let s := ((s.at t).add ((Fld.ORX_CNTn_COUNT.i 3).h h) n).put (Fld.ORX_DFSTAT_PAUSED.h h) 0
          let d : DeepItem := ⟨2, t, n, 0, c.path, c.refsel, false, false⟩
          s.setOrx h { s.orx[h] with cap := some { c with paused := none, sample := c.sample + n, opens := true, grpClip := false }, items := s.orx[h].items ++ [d] })

/-- The leading data items of a list that one message carries: at most `n`, up to the next that opens a message. -/
def runOfData : Nat → List DeepItem → List DeepItem
  | 0, _ => []
  | _, [] => []
  | n + 1, d :: t => if d.kind = 0 && !d.opens then d :: runOfData n t else []

/-- The address of an unsent item in the ring, and its bytes. -/
def State.itemSpan (s : State) (h : Fin 8) (d : DeepItem) : Nat × Nat :=
  (hamletBase h + s.get (Fld.ORX_RING_BASE.h h) * 65536 + 28 * d.pos, 28 * d.groups)

/-- The groups of an item as the 32-bit words that the message sends: the group and its reference group; the samples in an uncorrected word are zero (R280). -/
def State.itemWords (s : State) (h : Fin 8) (d : DeepItem) : List Nat :=
  let a := (s.itemSpan h d).1
  (List.range d.groups).flatMap fun g =>
    let b := a + 28 * g
    let v := s.memLE b 28
    let bits := groupBits ((List.range 8).map fun j => if s.uncorrected (b + 7 * j / 2) 4 then 0 else v / 2 ^ (28 * j) % 2 ^ 28)
    (List.range 7).map fun k => bits / 2 ^ (32 * k) % 2 ^ 32

/-- The host port's reads of some items: granted, decoded, recorded and written back (R280, R288). -/
def readItems (h : Fin 8) (ds : List DeepItem) (s : State) : State :=
  ds.foldl (fun s d => (s.checkRead 19 false (s.itemSpan h d).1 (s.itemSpan h d).2).1) s

/-- Sends a deep-flow message (R164): the four header words and the groups; none without credits for the whole of it. A link in L1 leaves it for the message (R206). -/
def sendDeep (h : Fin 8) (d : DeepItem) (arg : Nat) (ovr : Bool) (body : List Nat) (s : State) : Option State :=
  let f := s.get (Fld.ORX_DF_FLOW.h h)
  let i := sampleIndex d.at0
  if !s.cellsLost f && s.creditFor f (24 + 4 * body.length) then
    let w0 := 2 ^ 28 + d.kind * 2 ^ 24 + h * 2 ^ 21 + d.path * 2 ^ 18 + d.refsel * 2 ^ 16 + s.orx[h].seq
    let w1 := secOf d.at0 % 65536 * 65536 + b2n ovr * 2 ^ 15 + i / 2 ^ 32
    let s := s.setOrx h { s.orx[h] with seq := (s.orx[h].seq + 1) % 65536 }
    some (s.sendIq f ([w0, w1, i % 2 ^ 32, min arg 0xFFFFFFFF] ++ body))
  else none

/-- DEEP_FLOW_MESSAGE (R163 to R167): the next message of the deep flow goes when the flow holds credits for all of it: a gap message before the first data
after discards, the data of up to 64 ORx groups, or the queued pause, resume or end message. Data waits while its groups are still in the capture FIFO and while the
hamlet's arbiters are frozen (R292). -/
def execDeepFlowMessage (h : Fin 8) (s : State) : Host.Outcome State Fault Refusal :=
  .next (match s.orx[h].items with
    | [] => s
    | d :: t =>
      if d.kind ≠ 0 then
        (match sendDeep h d d.arg false [] s with
          | some s' => s'.setOrx h { s'.orx[h] with items := t }
          | none => s)
      else if s.orx[h].lost ≠ 0 then
        (match sendDeep h { d with kind := 3 } s.orx[h].lost false [] s with
          | some s' => s'.setOrx h { s'.orx[h] with lost := 0 }
          | none => s)
      else if s.flag (Fld.ARB_CTRL_FREEZE.h h) || s.orx[h].fifo.any (fun g => g.stream) then s
      else
        let run := d :: runOfData 63 t
        match sendDeep h d run.length (run.any fun x => x.ovr) (run.flatMap ((readItems h run s).itemWords h)) (readItems h run s) with
          | some s' => showUnsent h (s'.setOrx h { s'.orx[h] with items := t.drop (run.length - 1) })
          | none => s)

end Sys2Proof.Machine
end

