-- ==== Sys2Proof/Machine/Link.lean ====
section
/-!
DEFINITION. The Lanied link (R171 to R207, R336): training, codewords, cells, replay, credits, lane failures, power states, and the messages of
flows 2 to 7.
-/

namespace Sys2Proof.Machine

/-- One PAM4 symbol at 29.4912 GBd (R172), a sixtieth of a tick. -/
abbrev symbolU : Nat := 1920000

/-- The state with its link changed. -/
def State.setLnk (s : State) (l : Lnk) : State := { s with lnk := l }

/-- A list of pairs without those of one flow. -/
def dropKey (l : List (Nat × Nat)) (k : Nat) : List (Nat × Nat) := l.filter fun p => p.1 != k

/-- STATE changes; a link that is not UP makes source 0 stale (R218). -/
def setLink (v : Nat) (s : State) : State :=
  let s := s.put Fld.LNK_STAT_STATE v
  if v = 2 then s else s.sourceStale 0

/-! ### Training (R174, R175, R205) -/

/-- Retraining returns every credit count to zero (R185). -/
def clearCredits (s : State) : State :=
  let s := s.setLnk { s.lnk with grants := [] }
  (List.range 256).foldl (fun s f => if s.flag (Fld.LNK_FLOWf_STAT_CREDIT.i f) then s.put (Fld.LNK_FLOWf_STAT_CREDIT.i f) 0 else s) s

/-- Cells of flows that are not reliable leave the staging of a direction that is lost (R205). -/
def dropStaged (s : State) : State :=
  let lost := s.port.staged.filter fun c => !s.flag (Fld.LNK_FLOWf_CFG_REL.i c.flow)
  let s := { s with port := { s.port with staged := s.port.staged.filter fun c => s.flag (Fld.LNK_FLOWf_CFG_REL.i c.flow) } }
  lost.foldl (fun s c => s.put (Fld.LNK_FLOWf_STAT_STAGED.i c.flow) (s.get (Fld.LNK_FLOWf_STAT_STAGED.i c.flow) - 1)) s

/-- Messages of flows that are not reliable and are in reassembly when the receive direction is lost are discarded and counted (R187). -/
def dropPartials (s : State) : State :=
  let lost := s.lnk.partials.filter fun p => !s.flag (Fld.LNK_FLOWf_CFG_REL.i p.flow) && !p.bad
  let s := s.setLnk { s.lnk with partials := s.lnk.partials.filter fun p => s.flag (Fld.LNK_FLOWf_CFG_REL.i p.flow) }
  s.add (Fld.LNK_CNTn_COUNT.i 6) lost.length

/-- The transmit direction goes down. -/
def txDown (s : State) : State :=
  let s := dropStaged (s.put Fld.LNK_CAP_CAP_TX 0)
  s.setLnk { s.lnk with tx := { s.lnk.tx with up := false }, subTx := none, lm := [], timing := false,
                        farReady := Vector.replicate 9 false, prec := Vector.replicate 9 false }

/-- The receive direction goes down; its lost codewords are named by NAK when decoding resumes (R186, R200), the gateway's
locks are freed broken (R302). -/
def rxDown (s : State) : State :=
  let s := dropPartials (s.put Fld.LNK_CAP_CAP_RX 0)
  let s := if s.lnk.rx.up then s.breakAllLocks [5] else s
  let l := s.lnk
  let s := s.setLnk { l with rx := { l.rx with up := false }, subRx := none, failedAt := [], precAck := Vector.replicate 9 false,
                             nak := if l.rx.up then (if l.lossRun then l.nak else some (l.rx.cseq, 64)) else l.nak,
                             hold := if l.rx.up then some ((l.hold.map Prod.fst).getD ((l.rx.cseq + 65535) % 65536), 64) else l.hold,
                             lossRun := l.rx.up || l.lossRun }
  (List.range 10).foldl (fun s n => (s.put (Fld.LNK_PLANEn_CDR.i n) 0).put (Fld.LNK_PLANEn_MARK.i n) 0) s

/-- How many positions may carry data: the forwarded clock takes one when it has left CK (R202). -/
def State.dataPositions (s : State) (tx : Bool) : Nat := if (if tx then s.get Fld.LNK_AUXMAP_CLK_TX else s.get Fld.LNK_AUXMAP_CLK_RX) < 9 then 8 else 9

/-- The control field of the part's own training frame (R175): what its equaliser asks, PREC as PREC_ALLOW allows. -/
def controlField (eq : Word) (allow : Bool) : Nat :=
  5 * 2 ^ 28 + eq.toNat / 2 ^ 22 % 64 * 2 ^ 22 + b2n allow * 2 ^ 21 + eq.toNat / 2 ^ 19 % 2 * 2 ^ 19 + eq.toNat / 2 ^ 20 % 2 * 2 ^ 20

/-- The status field of the part's own training frame on a position (R175): the tap replies, and PRECACK when every position heard asks for precoding. -/
def statusField (stat : Nat × Nat × Nat) (ack : Bool) : Nat :=
  10 * 2 ^ 28 + stat.1 * 2 ^ 26 + stat.2.1 * 2 ^ 24 + stat.2.2 * 2 ^ 22 + b2n ack * 2 ^ 21

/-- Are all positions heard marked in `ready`? -/
def allReady (heard ready : Vector Bool 9) : Bool := (List.finRange 9).all fun n => !heard[n] || ready[n]

/-- What the equaliser of a position asks when no frame has just come: hold, with READY as it stands. -/
def State.asksOf (s : State) (q : Fin 9) : Word := if s.lnk.nearReady[q] then 0x80000#32 else 0#32

/-- The part's training frame on a position (R175). -/
def State.frameOf (s : State) (q : Fin 9) (eq : Word) : List Nat :=
  trainingLevels q (controlField eq (s.flag Fld.LNK_CTRL_PREC_ALLOW)) (statusField s.lnk.tapStat[q] (allReady s.lnk.heard s.lnk.prec))

/-- While the transmit direction trains, its next training frame goes out on every data position (R175); none without the Lanied PLL's clock (R336). -/
def sendFrames (asks : Fin 9 → Word) (s : State) : State :=
  if s.lnk.tx.up || decide (4 ≤ s.lnk.tx.phase) || !s.flag Fld.CLK_LPLL_LOCK then s
  else ((List.finRange 9).filter fun (q : Fin 9) => q.val != s.get Fld.LNK_AUXMAP_CLK_TX).foldl (fun (s : State) (q : Fin 9) => s.emit (.training q (s.frameOf q (asks q)))) s

/-- Training of the named directions starts (R174): STATE is TRAIN, every credit count zero, and the transmit positions carry training frames. -/
def startTraining (tx rx : Bool) (s : State) : State :=
  let s := if tx then txDown s else s
  let s := if rx then rxDown s else s
  let s := clearCredits ((setLink 1 s).put Fld.LNK_CTRL_RETRAIN 0)
  let l := s.lnk
  let s := s.setLnk { l with
    retryDue := none
    l1 := none
    trainAt := s.now
    frameAt := s.now
    heard := Vector.replicate 9 false
    nearReady := Vector.replicate 9 false
    tx := if tx then { l.tx with phase := 1, since := s.now } else l.tx
    rx := if rx then { l.rx with phase := 1, since := s.now } else l.rx }
  if tx then sendFrames s.asksOf s else s

/-- A substitution or a retrain is counted once and raises notice 0x410 (R205). -/
def laneReport (s : State) : State := (s.inc (Fld.LNK_CNTn_COUNT.i 11)).raise 0x410 0xFF (s.rd Reg.LNK_AUXMAP).toNat

/-- The named directions retrain, counted and reported. -/
def retrain (tx rx : Bool) (s : State) : State := laneReport (startTraining tx rx s)

/-- The link goes down: every lane idle (R175, EN = 0). -/
def linkDown (s : State) : State :=
  let s := clearCredits (rxDown (txDown s))
  setLink 0 (s.setLnk { s.lnk with retryDue := none, l1 := none })

/-- The power state that PWRREQ requests (R206): L1 by LM_OP 5 with a target codeword the spec does not fix; L2 at once; L0 by leaving L1, or L2 with training. -/
def powerRequest (s : State) : State :=
  let p := s.get Fld.LNK_CTRL_PWRREQ
  let st := s.get Fld.LNK_STAT_STATE
  if p = 1 ∧ st = 2 then
    let d := s.drawn
    d.2.setLnk { d.2.lnk with lm := d.2.lnk.lm ++ [⟨5, 0, d.1 % 65536, 16⟩] }
  else if p = 2 ∧ (st = 2 ∨ st = 3) then setLink 4 (clearCredits (rxDown (txDown s)))
  else if p ≠ 2 ∧ st = 4 then startTraining true true s
  else if p ≠ 1 ∧ st = 3 then s.leaveL1
  else s

/-- A write to `LNK_CTRL` (R174, R175, R206). -/
def lnkCtrlWrite (r : Req) (v : Word) (s : State) : State :=
  let old := s.rd Reg.LNK_CTRL
  let s := s.storeReg r Reg.LNK_CTRL v
  let en := s.flag Fld.LNK_CTRL_EN
  let s := if !en then (if getBits Fld.LNK_CTRL_EN old = 1 then linkDown s else s)
    else if getBits Fld.LNK_CTRL_EN old = 0 then startTraining true true s
    else if s.flag Fld.LNK_CTRL_RETRAIN then retrain true true s
    else s
  if en && s.get Fld.LNK_CTRL_PWRREQ != getBits Fld.LNK_CTRL_PWRREQ old then powerRequest s else s

/-- LINK_ENABLE (R174): a write to `LNK_CTRL`. -/
def execLinkEnable (r : Req) (v : Word) (s : State) : Host.Outcome State Fault Refusal :=
  .next (regCmd r Reg.LNK_CTRL v (lnkCtrlWrite r v) s)

/-- LINK_RETRAIN (R174): the same register with RETRAIN set. -/
def execLinkRetrain (r : Req) (v : Word) (s : State) : Host.Outcome State Fault Refusal :=
  .next (regCmd r Reg.LNK_CTRL (v ||| 2#32) (lnkCtrlWrite r (v ||| 2#32)) s)

/-- One tap after a request (1 increment, 2 decrement), and its status code (R175): 0 not updated, 1 updated, 2 at limit. -/
def tapStep (req : Nat) (lo hi v : Int) : Int × Nat :=
  if req = 1 then (if v + 1 ≤ hi then (v + 1, 1) else (v, 2))
  else if req = 2 then (if lo ≤ v - 1 then (v - 1, 1) else (v, 2))
  else (v, 0)

/-- The three taps after a control field, and their status codes: the pre-cursor from -0.25 to 0, the post-cursor from -0.40 to 0, the main tap from
0.50 to the remaining swing. -/
def tapsAfter (c : Nat) (t : Int × Int × Int) : (Int × Int × Int) × (Nat × Nat × Nat) :=
  let pre := tapStep (c / 2 ^ 26 % 4) (-10) 0 t.1
  let post := tapStep (c / 2 ^ 22 % 4) (-16) 0 t.2.2
  let rest : Int := 40 + pre.1 + post.1
  let main := tapStep (c / 2 ^ 24 % 4) 20 rest (min t.2.1 rest)
  ((pre.1, main.1, post.1), (pre.2, main.2, post.2))

/-- The positions from which training frames have been received. -/
def heardCount (heard : Vector Bool 9) : Nat := ((List.finRange 9).filter fun n => heard[n]).length

/-- A direction's phase after a training frame at `t` (R174): a frame shows the clock locked; lane lock ends when every one of its `all` data positions is heard or, with at least
seven heard, at its limit, the others being excluded; when every position heard is READY, deskew begins. DEDUCED (log 53). -/
def LinkDir.framed (d : LinkDir) (all : Nat) (heard ready : Vector Bool 9) (t : Nat) : LinkDir :=
  if d.up || d.phase == 0 then d
  else
    let d := if d.phase = 1 then { d with phase := 2, since := t } else d
    let d := if d.phase = 2 ∧ all ≤ heardCount heard then { d with phase := 3, since := t }
      else if d.phase = 2 ∧ 7 ≤ heardCount heard ∧ d.since + 100 * usU ≤ t then { d with phase := 3, since := d.since + 100 * usU }
      else d
    if d.phase = 3 ∧ allReady heard ready = true then { d with phase := 4, since := t } else d

/-- The usable positions of a direction in ascending order (R174): those READY, without the clock's. -/
def State.usable (s : State) (tx : Bool) : List Nat :=
  let clk := if tx then s.get Fld.LNK_AUXMAP_CLK_TX else s.get Fld.LNK_AUXMAP_CLK_RX
  ((List.finRange 9).filter fun n => n.val != clk && (if tx then s.lnk.farReady[n] else s.lnk.nearReady[n])).map fun n => n.val

/-- Does a direction with these positions use precoding (R175): every one of them asks for it, and on receive PREC_ALLOW lets it? -/
def State.precodes (s : State) (tx : Bool) (pos : List Nat) : Bool :=
  let asked (v : Vector Bool 9) : Bool := (List.finRange 9).all fun n => !(pos.contains n.val) || v[n]
  if tx then asked s.lnk.prec else asked s.lnk.precAck && s.flag Fld.LNK_CTRL_PREC_ALLOW

/-- The lane map of usable positions in ascending order (R174): eight lanes, or seven with 0xF for the eighth. -/
def laneMap (pos : List Nat) : Nat :=
  (List.range 8).foldl (fun n j => n + pos.getD j 15 * 16 ^ j) 0

/-- The lanes of a direction are assigned (R174, R203): lane map, spare, seven-lane mode, precoding. -/
def assignLanes (tx : Bool) (s : State) : State :=
  let pos := s.usable tx
  let seven := b2n (pos.length == 7)
  let prec := b2n (s.precodes tx pos)
  let spare := pos.getD 8 15
  let map := BitVec.ofNat 32 (laneMap pos)
  if tx then
    (((s.put Fld.LNK_STAT_SEVEN_TX seven).put Fld.LNK_STAT_PREC_TX prec).put Fld.LNK_AUXMAP_SPARE_TX spare).wr Reg.LNK_LANEMAP_TX map
  else (((s.put Fld.LNK_STAT_SEVEN_RX seven).put Fld.LNK_STAT_PREC_RX prec).put Fld.LNK_AUXMAP_SPARE_RX spare).wr Reg.LNK_LANEMAP_RX map

/-- A direction that has begun deskew starts its codewords (R174, R178): lanes assigned, symbols counted from here. -/
def startCodewords (tx : Bool) (s : State) : State :=
  let d (x : LinkDir) : LinkDir := { x with syms := 0, next := s.now, pre := List.replicate 9 0, fec := 0 }
  (assignLanes tx s).setLnk (if tx then { s.lnk with tx := d s.lnk.tx } else { s.lnk with rx := d s.lnk.rx })

/-- TRAINING_FRAME (R175): at `t` a frame is received on position `p`, and the part's own next frames go out, with what its equaliser asks on `p`. INIT received sets the preset,
whose main tap the spec does not state. Without the Lanied PLL the transmit direction goes no further (R336). -/
def execTrainingFrame (p : Fin 9) (f : TrainFields) (t : Nat) (s : State) : Host.Outcome State Fault Refusal :=
  .next (let c := f.control.toNat
    let st := f.status.toNat
    if s.get Fld.LNK_STAT_STATE ≠ 1 ∨ c / 2 ^ 28 ≠ 5 ∨ st / 2 ^ 28 ≠ 10 then s
    else
      let s := s.at t
      let d := s.drawn
      let l := if bitOf c 20 then d.2.lnk else s.lnk
      let res := if bitOf c 20 then (((0 : Int), ((20 + d.1 % 17 : Nat) : Int), (-4 : Int)), ((1 : Nat), (1 : Nat), (1 : Nat)))
        else tapsAfter c s.lnk.taps[p]
      let s := if bitOf c 20 then d.2 else s
      let heard := l.heard.set p true
      let prec := l.prec.set p (bitOf c 21)
      let far := l.farReady.set p (bitOf c 19)
      let near := l.nearReady.set p (bitOf f.eq.toNat 19)
      let lock := s.flag Fld.CLK_LPLL_LOCK
      let x : LinkDir := if lock then l.tx.framed (s.dataPositions true) heard far s.now else l.tx
      let y := l.rx.framed (s.dataPositions false) heard near s.now
      let s := s.setLnk { l with
        taps := l.taps.set p res.1
        tapStat := l.tapStat.set p res.2
        prec := prec
        precAck := l.precAck.set p (bitOf st 21)
        heard := heard
        farReady := far
        nearReady := near
        frameAt := s.now }
      let s := sendFrames (fun q => if q = p then f.eq else s.asksOf q) s
      let s := s.setLnk { s.lnk with tx := x, rx := y }
      let s := if l.tx.phase < 4 ∧ x.phase = 4 then startCodewords true s else s
      if l.rx.phase < 4 ∧ y.phase = 4 then startCodewords false s else s)

/-- Training fails with a code (R174, R205): the link is FAILED, a degrade fault is raised, a retry follows after 100 ms. -/
def trainingFailed (code : Nat) (s : State) : State :=
  let s := setLink 5 (rxDown (txDown s))
  let s := s.put Fld.LNK_STAT_FAILCODE code
  State.raise (s.setLnk { s.lnk with retryDue := some (s.now + 100 * msU), repair := false }) 0x412 0xFF code

/-- Has a direction overrun the limit of the phase with this failure code at `t` (R174)? Code 6 is found when training completes. -/
def Lnk.overran (l : Lnk) (tx : Bool) (code t : Nat) : Bool :=
  let d := if tx then l.tx else l.rx
  let past (n : Nat) : Bool := decide (d.since + n ≤ t)
  !d.up && (if code = 1 then d.phase == 1 && past (50 * usU)
    else if code = 2 then d.phase == 2 && past (100 * usU) && decide (heardCount l.heard < 7)
    else if code = 3 then (d.phase == 3 && past (1500 * usU)) || (d.phase == 2 && past (1600 * usU) && decide (7 ≤ heardCount l.heard))
    else if code = 4 ∨ code = 5 then d.phase == code && past (200 * usU)
    else if code = 7 then decide (max l.trainAt l.frameAt + 10 * msU ≤ t)
    else false)

/-- TRAINING_PHASE_TIMEOUT (R174): a direction has overrun the limit of a phase at `t`. -/
def execTrainingPhaseTimeout (p : TrainPhase) (t : Nat) (s : State) : Host.Outcome State Fault Refusal :=
  .next (if s.get Fld.LNK_STAT_STATE = 1 ∧ s.lnk.overran p.tx p.code (max s.now t) = true then trainingFailed p.code (s.at t) else s)

/-- TRAINING_RETRY (R174): 100 ms after a failure training starts again while EN is 1. -/
def execTrainingRetry (s : State) : Host.Outcome State Fault Refusal :=
  .next (match s.lnk.retryDue with
    | none => s
    | some d => if s.flag Fld.LNK_CTRL_EN then startTraining true true (s.at d) else s)

/-- A direction is UP with its usable positions (R174, R203, R205): lanes, spare, seven-lane mode, precoding and capacity; a change of capacity
raises 0x411, indicated each time. The power state that PWRREQ requests is asked for as the link becomes UP (R206); the boot ROM's wait for an image begins (R459). -/
def directionUp (tx : Bool) (s : State) : State :=
  let pos := s.usable tx
  let cap := if pos.length = 7 then 3493 else 3997
  let s := assignLanes tx s
  let l := s.lnk
  let last := if tx then l.tx.cap else l.rx.cap
  let old := if last = 0 then 3997 else last
  let s := if tx then
      (s.put Fld.LNK_CAP_CAP_TX cap).setLnk { l with tx := { l.tx with up := true, cap := cap, phase := 0 } }
    else
      let s := (s.put Fld.LNK_CAP_CAP_RX cap).setLnk
        { l with rx := { l.rx with up := true, cap := cap, phase := 0 }, lastDecode := s.now, runLost := 0, lmSeen := none,
                 repair := false, badMarks := Vector.replicate 9 0, markErr := Vector.replicate 9 0 }
      let clk := s.get Fld.LNK_AUXMAP_CLK_RX
      (List.range 9).foldl (fun s n => ((s.put (Fld.LNK_PLANEn_FAILED.i n) (b2n (!(pos.contains n) && n != clk))).put
        (Fld.LNK_PLANEn_CDR.i n) (b2n (pos.contains n))).put (Fld.LNK_PLANEn_MARK.i n) (b2n (pos.contains n))) s
  let both := s.lnk.tx.up && s.lnk.rx.up
  let s := if both then State.put (s.setLnk { s.lnk with ackAt := s.now, lastDecode := s.now }) Fld.LNK_STAT_STATE 2 else s
  let s := if old ≠ cap then s.raiseSend 0x411 0xFF (s.rd Reg.LNK_CAP).toNat else s
  if both then powerRequest { s with boot := { s.boot with upAt := s.now } } else s

/-- TRAINING_COMPLETE (R174): FEC lock completes at `t`, 64 consecutive codewords decoded, or sent for the partner to decode. The transmit direction uses the positions for which the
partner reported READY, the receive direction those for which the part did; the clock position is none of them, and fewer than seven fail training with code 6. Lanes whose
markers arrive more than 192 UI apart (`skew`) end it with code 4 (R178). -/
def execTrainingComplete (tx : Bool) (skew t : Nat) (s : State) : Host.Outcome State Fault Refusal :=
  .next (let d := if tx then s.lnk.tx else s.lnk.rx
    if s.get Fld.LNK_STAT_STATE ≠ 1 ∨ d.up = true ∨ d.phase < 4 then s
    else if !tx && decide (192 < skew) then trainingFailed 4 (s.at t)
    else if (s.usable tx).length < 7 then trainingFailed 6 (s.at t)
    else if d.phase = 5 ∧ 64 ≤ d.fec ∧ (tx = true → s.flag Fld.CLK_LPLL_LOCK = true) then directionUp tx (s.at t)
    else s)

/-! ### Cells in (R180, R183, R185, R186, R187) -/

/-- Is a flow credit-controlled (R185)? -/
def State.controlled (s : State) (f : Nat) : Bool := s.get (Fld.LNK_FLOWf_CFG_CLASS.i f) == 3 || s.flag (Fld.LNK_FLOWf_CFG_DEEP.i f)

/-- The message of a flow in reassembly. -/
def State.partialOf (s : State) (f : Nat) : Option Partial := s.lnk.partials.find? fun p => p.flow == f

/-- Sets or removes the message of a flow in reassembly. -/
def State.setPartial (s : State) (f : Nat) (p : Option Partial) : State :=
  s.setLnk { s.lnk with partials := (s.lnk.partials.filter fun q => q.flow != f) ++ p.toList }

/-- Is there inbound space for a message of `n` bytes (R189)? User-plane messages go on to their own partition. -/
def State.inSpace (s : State) (f n : Nat) : Bool :=
  s.flowPart f != 3 ||
    decide (s.bulkUsed * 64 + n ≤ s.get (Fld.LNK_PARTn_SIZE.i 3) * 65536)

/-- Is a whole message of a type that no flow takes: 1, or 8 to 255 (R191)? A timing message behind its shim is none of them (R194). -/
def typeNever (f : Nat) (b : List Nat) : Bool :=
  let type := b.getD 1 0 % 256
  !(f == 0 && b.getD 0 0 % 256 / 16 == 15) && (type == 1 || decide (8 ≤ type))

/-- The last cell of a message: a good one is delivered, or discarded and counted for its type (R191) or for want of space. -/
def endMessage (p : Partial) (s : State) : State :=
  let s := s.setPartial p.flow none
  if p.bad then s
  else if typeNever p.flow p.bytes then s.inc (Fld.LNK_CNTn_COUNT.i 6)
  else if s.inSpace p.flow p.bytes.length then
    { s with port := { s.port with inbox := s.port.inbox ++ [⟨p.flow, p.bytes⟩] } }
  else s.inc (Fld.LNK_CNTn_COUNT.i 7)

/-- A cell joins its message (R180, R185, R187). -/
def joinCell (c : Cell) (credit : Bool) (s : State) : State :=
  let old := s.partialOf c.flow
  let mk (p : Partial) (s : State) : State := if c.eom then endMessage p s else s.setPartial c.flow (some p)
  if c.som then
    let s := match old with
      | some p => if p.bad then s else s.inc (Fld.LNK_CNTn_COUNT.i 6)
      | none => s
    mk ⟨c.flow, c.data, !credit⟩ (if credit then s else s.inc (Fld.LNK_CNTn_COUNT.i 7))
  else match old with
    | none => mk ⟨c.flow, [], true⟩ (s.inc (Fld.LNK_CNTn_COUNT.i 6))
    | some p => mk { p with bytes := p.bytes ++ c.data, bad := p.bad || !credit }
        (if credit || p.bad then s else s.inc (Fld.LNK_CNTn_COUNT.i 7))

/-- A cell of a decoded codeword (R183, R185, R186). -/
def receiveCell (s : State) (c : Cell) : State :=
  if !s.flag (Fld.LNK_FLOWf_CFG_EN.i c.flow) then s.inc (Fld.LNK_CNTn_COUNT.i 5)
  else
    let rel := s.flag (Fld.LNK_FLOWf_CFG_REL.i c.flow)
    let want := aget s.lnk.rseqRx c.flow
    if rel && c.rseq != want then s.inc (Fld.LNK_CNTn_COUNT.i 4)
    else
      let s := if rel then s.setLnk { s.lnk with rseqRx := aset s.lnk.rseqRx c.flow ((want + 1) % 64) } else s
      let ctl := s.controlled c.flow
      let g := aget s.lnk.grants c.flow
      let s := if ctl then s.setLnk { s.lnk with grants := aset s.lnk.grants c.flow (g - 1) } else s
      joinCell c (!ctl || g != 0) s

/-- The cell that 66 bytes spell; none for an idle cell (R180). -/
def cellOf (b : List Nat) : Option Cell :=
  let f := b.getD 0 0 % 256
  let x := b.getD 1 0 % 256
  if f = 0 ∧ x = 0x3F then none
  else some ⟨f, bitOf x 7, bitOf x 6, x % 64, (b.drop 2).take 64⟩

/-- The 66 bytes of a cell. -/
def Cell.bytes (c : Cell) : List Nat := [c.flow, b2n c.som * 128 + b2n c.eom * 64 + c.rseq] ++ c.data

/-- An idle cell's bytes. -/
def idleBytes : List Nat := [0, 0x3F] ++ List.replicate 64 0

/-! ### Lane management (R181, R201 to R203, R206) -/

/-- A request to the partner joins the lane-management queue; requests go in 16 codewords (R181). -/
def sendLm (op arg tgt : Nat) (s : State) : State :=
  s.setLnk { s.lnk with lm := s.lnk.lm ++ [⟨op, arg, tgt, if op ∈ [1, 3, 4, 5] then 16 else 1⟩] }

/-- Does a lane map use a position? -/
def usesPos (map pos : Nat) : Bool := (List.range 8).any fun j => map / 16 ^ j % 16 == pos

/-- A lane map with one position replaced. -/
def replacePos (map old new : Nat) : Nat :=
  (List.range 8).foldl (fun n j => n + (if map / 16 ^ j % 16 = old then new else map / 16 ^ j % 16) * 16 ^ j) 0

/-- A request to move a data lane to the spare is taken (R201): at least 64 codewords before its target. -/
def lmSubstitute (arg tgt : Nat) (s : State) : State :=
  let failed := arg / 16 % 16
  let spare := arg % 16
  let ahead := (tgt + 65536 - s.lnk.tx.cseq) % 65536
  if s.lnk.tx.up && decide (64 ≤ ahead) && decide (ahead < 32768) && usesPos (s.rd Reg.LNK_LANEMAP_TX).toNat failed
      && spare == s.get Fld.LNK_AUXMAP_SPARE_TX && spare != 15 then
    s.setLnk { s.lnk with subTx := some ⟨failed, spare, tgt % 65536, s.now, false, false⟩ }
  else match s.lnk.subTx with
    | some u => if s.lnk.tx.up && decide (64 ≤ ahead) && decide (ahead < 32768) && u.failed == failed && u.spare == spare then
        s.setLnk { s.lnk with subTx := some { u with tgt := tgt % 65536 } } else s
    | none => s

/-- The partner decoded the target codeword (R201). -/
def lmDone (arg : Nat) (s : State) : State :=
  match s.lnk.subTx with
  | some u => if u.moved && u.failed == arg / 16 % 16 then s.setLnk { s.lnk with subTx := none } else s
  | none => s

/-- The forwarded clock moves at once and the transmit direction retrains (R202). -/
def lmClock (arg : Nat) (s : State) : State :=
  let p := arg % 16
  if !s.lnk.tx.up || decide (9 < p) || s.get Fld.LNK_AUXMAP_CLK_TX == p then s
  else
    let s := s.put Fld.LNK_AUXMAP_CLK_TX p
    let s := if s.get Fld.LNK_AUXMAP_SPARE_TX = p then s.put Fld.LNK_AUXMAP_SPARE_TX 15 else s
    retrain true false s

/-- The transmit direction retrains at the partner's request (R203). -/
def lmRetrain (s : State) : State := if s.lnk.tx.up then retrain true false s else s

/-- A request for L1 (R206): answered with refuse while cells are staged, reliable cells unacknowledged, or a user-plane flow enabled; else with accept. -/
def lmL1 (tgt : Nat) (s : State) : State :=
  if !s.linkUp || s.lnk.l1Seen == some tgt then s
  else
    let busy := !s.port.staged.isEmpty || !s.lnk.unacked.isEmpty
      || (List.range 256).any (fun f => s.flag (Fld.LNK_FLOWf_CFG_EN.i f) && s.get (Fld.LNK_FLOWf_CFG_CLASS.i f) == 2)
    let s := s.setLnk { s.lnk with l1Seen := some tgt }
    if busy then sendLm 7 0 tgt s else sendLm 6 0 tgt (s.setLnk { s.lnk with l1 := some tgt })

/-- The partner accepts L1 (R206). -/
def lmAccept (tgt : Nat) (s : State) : State :=
  if s.linkUp && s.get Fld.LNK_CTRL_PWRREQ == 1 then s.setLnk { s.lnk with l1 := some tgt } else s

/-- The partner refuses L1 (R206): the link stays in L0. -/
def lmRefuse (s : State) : State := s.setLnk { s.lnk with lm := s.lnk.lm.filter fun q => q.op != 5 }

/-- A lane-management message does what it asks (R181). -/
def doLm (op arg tgt : Nat) (s : State) : State :=
  if op = 1 then lmSubstitute arg tgt s
  else if op = 2 then lmDone arg s
  else if op = 3 then lmClock arg s
  else if op = 4 then lmRetrain s
  else if op = 5 then lmL1 tgt s
  else if op = 6 then lmAccept tgt s
  else if op = 7 then lmRefuse s
  else s

/-- The four lane-management bytes of a decoded codeword: the part acts on the first copy and ignores the others (R181). -/
def takeLmBytes (lc : List Nat) (s : State) : State :=
  let b := lc.take 4
  let op := lc.getD 0 0 % 256
  if op / 16 ≠ 1 ∨ op % 16 = 0 then s.setLnk { s.lnk with lmSeen := none }
  else if s.lnk.lmSeen = some b then s
  else doLm (op % 16) (lc.getD 1 0 % 256) (beNat ((lc.drop 2).take 2)) (s.setLnk { s.lnk with lmSeen := some b })

/-- At codeword `n` the stream of a direction's failed lane moves to the spare, if `n` is the substitution's target (R201); a substitution is counted and reported
once (R205). -/
def switchLane (tx : Bool) (n : Nat) (s : State) : State :=
  match (if tx then s.lnk.subTx else s.lnk.subRx) with
  | none => s
  | some u =>
    if u.moved || u.tgt != n then s
    else
      let map := if tx then Reg.LNK_LANEMAP_TX else Reg.LNK_LANEMAP_RX
      let s := (s.wr map (BitVec.ofNat 32 (replacePos (s.rd map).toNat u.failed u.spare))).put
        (if tx then Fld.LNK_AUXMAP_SPARE_TX else Fld.LNK_AUXMAP_SPARE_RX) 15
      let u' := { u with moved := true, counted := true }
      let s := s.setLnk (if tx then { s.lnk with subTx := some u' } else { s.lnk with subRx := some u' })
      if u.counted then s else laneReport s

/-! ### Codewords (R176 to R181, R184 to R186) -/

/-- Is codeword `a` at or after codeword `b`, modulo 65,536? -/
def cseqGe (a b : Nat) : Bool := decide ((a + 65536 - b % 65536) % 65536 < 32768)

/-- An ACK covers the cells of every codeword up to it; one that advances restarts the replay timeout (R186). -/
def takeAck (ack : Nat) (s : State) : State :=
  let l := s.lnk
  s.setLnk { l with
    unacked := l.unacked.filter fun p => !cseqGe ack p.1
    replay := l.replay.filter fun p => !cseqGe ack p.1
    ackAt := if ack ≠ l.lastAck ∧ cseqGe ack l.lastAck = true then s.now else l.ackAt
    lastAck := ack }

/-- Of the unacknowledged cells those that `sel` names go again, beside those of a replay that still runs, in their original order; each is counted as it joins the replay
(R186). -/
def startReplay (sel : Nat × Cell → Bool) (s : State) : State :=
  let l := s.lnk
  let new := l.unacked.filter fun p => sel p && !l.replay.contains p
  State.add (s.setLnk { l with replay := l.unacked.filter fun p => sel p || l.replay.contains p }) (Fld.LNK_CNTn_COUNT.i 3) new.length

/-- A NAK: a new one starts the replay. -/
def takeNak (nak : Option Nat) (s : State) : State :=
  if nak = s.lnk.lastNak then s
  else
    let s := s.setLnk { s.lnk with lastNak := nak }
    match nak with
    | none => s
    | some k => startReplay (fun p => cseqGe p.1 k) s

/-- Credit returns (R181, R185): added to CREDIT, which saturates. While the outbound direction trains, its credits stay zero (R205). -/
def takeCredits (lc : List Nat) (s : State) : State :=
  if !s.lnk.tx.up then s else
  (List.range 9).foldl (fun s i =>
    let b := (lc.drop (12 + 4 * i)).take 4
    if b.all (fun x => x == 0) then s else s.add (Fld.LNK_FLOWf_STAT_CREDIT.i (b.getD 0 0 % 256)) (beNat ((b.drop 1).take 2))) s

/-- The link-control field of a decoded codeword outside marker pairs (R181, R186). -/
def takeControl (lc : List Nat) (s : State) : State :=
  let flags := lc.getD 10 0
  let s := if bitOf flags 6 then takeAck (beNat ((lc.drop 6).take 2)) s else s
  takeLmBytes lc (takeCredits lc (takeNak (if bitOf flags 7 then some (beNat ((lc.drop 8).take 2)) else none) s))

/-- Codewords already lost in the present run are those of a failure now declared: they count in n = 2 instead of n = 1 (R200, log 55). -/
def moveLost (s : State) : State :=
  let k := min s.lnk.runLost (s.get (Fld.LNK_CNTn_COUNT.i 1))
  let s := (s.put (Fld.LNK_CNTn_COUNT.i 1) (s.get (Fld.LNK_CNTn_COUNT.i 1) - k)).add (Fld.LNK_CNTn_COUNT.i 2) s.lnk.runLost
  s.setLnk { s.lnk with runLost := 0 }

/-- The receive direction retrains to repair a failure, the partner told by LM_OP 4 (R203, R204). -/
def rxRetrain (arg : Nat) (s : State) : State :=
  let s := retrain false true s
  let s := s.setLnk { s.lnk with repair := true }
  if s.lnk.tx.up then sendLm 4 arg 0 s else s

/-- Data position `p` is declared failed (R200, R201, R203, R204): the spare takes its lane at a target 1,024 codewords on, or the direction retrains. -/
def failLane (p : Fin 9) (s : State) : State :=
  let s := ((s.put (Fld.LNK_PLANEn_FAILED.i p) 1).put (Fld.LNK_PLANEn_CDR.i p) 0).put (Fld.LNK_PLANEn_MARK.i p) 0
  let spare := s.get Fld.LNK_AUXMAP_SPARE_RX
  let uses := usesPos (s.rd Reg.LNK_LANEMAP_RX).toNat p
  let recent := s.lnk.failedAt.any fun x => decide (s.now < x + 25 * usU)
  let pendingSpare := match s.lnk.subRx with | some u => u.spare == p.val | none => false
  if !s.lnk.rx.up then s
  else if !uses && spare != p.val && !pendingSpare then s
  else
    let s := s.setLnk { s.lnk with failedAt := [s.now] }
    if pendingSpare || recent then rxRetrain (p * 16) (moveLost s)
    else if spare = p.val then s.put Fld.LNK_AUXMAP_SPARE_RX 15
    else if spare = 15 ∨ s.lnk.subRx.isSome ∨ !s.lnk.tx.up then rxRetrain (p * 16) (moveLost s)
    else
      let s := moveLost s
      let tgt := (s.lnk.lastOk + 1024) % 65536
      let s := s.setLnk { s.lnk with subRx := some ⟨p, spare, tgt, s.now, false, false⟩ }
      sendLm 1 (p * 16 + spare) tgt s

/-- The messages in reassembly on flows that are not reliable are broken by a lost codeword, discarded and counted (R187, log 80). -/
def breakPartials (s : State) : State :=
  let hit (p : Partial) : Bool := !s.flag (Fld.LNK_FLOWf_CFG_REL.i p.flow) && !p.bad
  State.add (s.setLnk { s.lnk with partials := s.lnk.partials.map fun p => if hit p then { p with bad := true } else p }) (Fld.LNK_CNTn_COUNT.i 6)
    (s.lnk.partials.filter hit).length

/-- A codeword number `n` is lost (R179, R186, R187, R200, R201): counted, named by NAK; ACK stays below the oldest loss whose replay has not ended; a substitution whose target it
was is asked for again. -/
def loseCodeword (n : Nat) (s : State) : State :=
  let s := breakPartials s
  let l := s.lnk
  let s := s.inc (Fld.LNK_CNTn_COUNT.i (if l.subRx.isSome then 2 else 1))
  let s := s.setLnk { l with runLost := if l.subRx.isSome then 0 else l.runLost + 1, nak := if l.lossRun && l.nak.isSome then l.nak else some (n, 64),
                             hold := some ((l.hold.map Prod.fst).getD ((n + 65535) % 65536), 64), lossRun := true }
  match l.subRx with
  | some u => if u.tgt = n then
      let u' := { u with tgt := (n + 1024) % 65536, moved := false }
      s.setLnk { s.lnk with subRx := some u', lm := s.lnk.lm ++ [⟨1, u.failed * 16 + u.spare, u'.tgt, 16⟩] }
    else s
  | none => s

/-- A codeword number `n` is decoded (R179, R181, R186, R201); `corr` are the corrected symbol errors of each logical lane. -/
def decodeCodeword (n : Nat) (marker : Bool) (b corr : List Nat) (s : State) : State :=
  let s := if corr.sum = 0 then s else s.inc (Fld.LNK_CNTn_COUNT.i 0)
  let map := (s.rd Reg.LNK_LANEMAP_RX).toNat
  let s := (List.range 8).foldl (fun s j => s.add (Fld.LNK_PLANEn_SERR.i (map / 16 ^ j % 16 % 9)) (corr.getD j 0)) s
  let lc := b.drop 594
  let n := if marker then n else beNat ((lc.drop 4).take 2)
  let l := s.lnk
  let less (x : Option (Nat × Nat)) : Option (Nat × Nat) := x.bind fun p => if p.2 ≤ 1 then none else some (p.1, p.2 - 1)
  let s := s.setLnk { l with nak := less l.nak, hold := less l.hold, lossRun := false, runLost := 0, lastOk := n, lastDecode := s.now, rx := { l.rx with cseq := (n + 1) % 65536 } }
  let s := match s.lnk.subRx with
    | some u => if u.moved then
        s.setLnk { s.lnk with subRx := none, lm := s.lnk.lm ++ [⟨2, u.failed * 16 + u.spare, u.tgt, 1⟩] } else s
    | none => s
  let s := if marker then s else takeControl lc s
  ((List.range 9).filterMap fun i => cellOf ((b.drop (66 * i)).take 66)).foldl receiveCell s

/-- The levels of each logical lane that the receiver recovers from those of the physical positions: lane map and precoding (R173, R174). -/
def State.rxLanes (s : State) (lanes : List (List Nat)) : List (List Nat) :=
  let map := (s.rd Reg.LNK_LANEMAP_RX).toNat
  (List.range 8).map fun j =>
    let x := lanes.getD (map / 16 ^ j % 16) []
    if s.flag Fld.LNK_STAT_PREC_RX then unprecode (s.lnk.rx.pre.getD j 0) x else x

/-- The codeword that levels on the physical positions spell (R176, R177, R179). -/
def State.rxDecode (s : State) (lanes : List (List Nat)) : Option (List Nat × List Nat) :=
  decodeLanes (s.flag Fld.LNK_STAT_SEVEN_RX) (s.rxLanes lanes)

/-- The levels of the positions D0 to D8, from those of D0 to D7 and those of D8. -/
def positions (low : List (List Nat)) (d8 : List Nat) : List (List Nat) := (List.range 8).map (fun j => low.getD j []) ++ [d8]

/-- The position of logical lane `j`, or of the spare for `j` = 8; 15 for none. -/
def State.rxPosition (s : State) (j : Nat) : Nat :=
  if j = 8 then s.get Fld.LNK_AUXMAP_SPARE_RX else (s.rd Reg.LNK_LANEMAP_RX).toNat / 16 ^ j % 16

/-- The receive direction after a codeword of these levels (R173, R178): its symbols counted, the precoder state of each lane kept. -/
def pastCodeword (lanes : List (List Nat)) (s : State) : State :=
  let l := s.lnk
  s.setLnk { l with rx := { l.rx with
    syms := l.rx.syms + cwSyms (s.flag Fld.LNK_STAT_SEVEN_RX)
    cseq := (l.rx.cseq + 1) % 65536
    pre := (List.range 9).map fun j => (lanes.getD (s.rxPosition j) []).getLastD 0 } }

/-- The bits in which the marker symbols of a lane in one codeword of a marker pair differ from its marker (R178, R200). -/
def markErrors (seven second : Bool) (lane : Nat) (x : List Nat) : Nat :=
  let c := (List.range 192).filterMap fun i =>
    if (laneOf seven (2376 + i)).1 = lane % 8 then some (x.getD (laneOf seven (2376 + i)).2 0) else none
  let m := markerLevels lane (if second then c.length else 0) (if second then 32 - c.length else c.length)
  ((List.zip (bitsOfLevels c) (bitsOfLevels m)).filter fun p => p.1 != p.2).length

/-- The markers of a pair are judged, of the spare too (R200): the second of two in a row that is missing or has more than 8 bit errors fails its position. -/
def checkMarkers (second : Bool) (lanes : List (List Nat)) (s : State) : State :=
  let seven := s.flag Fld.LNK_STAT_SEVEN_RX
  let used : List (Fin 9) := (List.finRange 9).filter fun (j : Fin 9) => s.rxPosition j.val < 9
  let errs (j : Fin 9) : Nat :=
    let x := lanes.getD (s.rxPosition j.val) []
    markErrors seven second j.val (if s.flag Fld.LNK_STAT_PREC_RX then unprecode (s.lnk.rx.pre.getD j.val 0) x else x)
  let l := s.lnk
  if !second then s.setLnk { l with markErr := used.foldl (fun (v : Vector Nat 9) (j : Fin 9) => v.set j (errs j)) l.markErr }
  else
    let bad := used.foldl (fun (v : Vector Nat 9) (j : Fin 9) => v.set j (if 8 < l.markErr[j] + errs j then l.badMarks[j] + 1 else 0)) l.badMarks
    let gone := (used.filter fun j => 2 ≤ bad[j]).map fun j => Fin.ofNat 9 (s.rxPosition j.val)
    let gone := gone.filter fun p => !s.flag (Fld.LNK_PLANEn_FAILED.i p.val)
    gone.foldl (fun s p => failLane p s) (s.setLnk { l with badMarks := bad })

/-- A codeword of a direction that trains (R174): the first that decodes ends deskew, and the codewords decoded in a row are counted for FEC lock; their cells are lost (R205). -/
def trainCodeword (lanes : List (List Nat)) (s : State) : State :=
  let s' := pastCodeword lanes s
  let x := s'.lnk.rx
  match s.rxDecode lanes with
  | none => s'.setLnk { s'.lnk with rx := { x with fec := 0 } }
  | some b =>
    let marker := (inPair (cwSyms (s.flag Fld.LNK_STAT_SEVEN_RX)) s.lnk.rx.syms).isSome
    let n := if marker then s.lnk.rx.cseq else beNat (((b.1.drop 594).drop 4).take 2)
    s'.setLnk { s'.lnk with
      lastOk := n
      rx := { x with cseq := (n + 1) % 65536, fec := x.fec + 1, phase := 5, since := if x.phase = 4 then s.now else x.since } }

/-- CODEWORD_RECEIVED (R179): the levels received on the positions D0 to D7 and on D8 over one codeword, deskewed, that begins at `t`. A codeword that arrives while a lane or
clock failure waits for its retraining is lost to it (R200). -/
def execCodewordReceived (low : List (List Nat)) (d8 : List Nat) (t : Nat) (s : State) : Host.Outcome State Fault Refusal :=
  .next (let lanes := positions low d8
    if s.get Fld.LNK_STAT_STATE = 3 then s
    else if s.lnk.rx.up then
      let n := s.lnk.rx.cseq
      let s := switchLane false n (s.at t)
      let pair := inPair (cwSyms (s.flag Fld.LNK_STAT_SEVEN_RX)) s.lnk.rx.syms
      let s' := match pair with
        | some second => checkMarkers second lanes s
        | none => s
      let s' := if s'.lnk.rx.up then pastCodeword lanes s' else s'
      match s.rxDecode lanes with
      | none => loseCodeword n s'
      | some b => decodeCodeword n pair.isSome b.1 b.2 s'
    else if s.get Fld.LNK_STAT_STATE = 1 ∧ 4 ≤ s.lnk.rx.phase then trainCodeword lanes (s.at t)
    else if s.get Fld.LNK_STAT_STATE = 1 ∧ s.lnk.repair = true ∧ s.lnk.rx.phase = 1 then
      State.inc (s.setLnk { s.lnk with rx := { s.lnk.rx with cseq := (s.lnk.rx.cseq + 1) % 65536 } }) (Fld.LNK_CNTn_COUNT.i 2)
    else s)

/-- REPLAY_TIMEOUT (R186): the ACK has not advanced for 10 us * REPLAY_TO; every unacknowledged cell goes again. -/
def execReplayTimeout (s : State) : Host.Outcome State Fault Refusal :=
  .next (if s.lnk.unacked.isEmpty then s
    else
      let due := s.lnk.ackAt + 10 * max 1 (s.get Fld.LNK_CTRL_REPLAY_TO) * usU
      let s := s.at due
      startReplay (fun _ => true) (s.setLnk { s.lnk with ackAt := s.now }))

/-- The rank of a flow's cells (R184). -/
def State.flowRank (s : State) (f : Nat) : Nat :=
  let c := s.get (Fld.LNK_FLOWf_CFG_CLASS.i f)
  if c = 0 then 0 else if c = 1 then 1 else if c = 3 then 4 else if s.flag (Fld.LNK_FLOWf_CFG_DEEP.i f) then 3 else 2

/-- The cells of the message at the head of a list, up to its EOM. -/
def messageCells : List Cell → Nat
  | [] => 0
  | c :: t => if c.eom then 1 else 1 + messageCells t

/-- May the flow's next staged cell leave (R185, R186)? -/
def State.ready (s : State) (f : Nat) : Bool :=
  match s.port.staged.filter fun c => c.flow == f with
  | [] => false
  | c :: t =>
    let cr := s.get (Fld.LNK_FLOWf_STAT_CREDIT.i f)
    (!s.controlled f || (if c.som then decide (messageCells (c :: t) ≤ cr) else decide (0 < cr)))
      && (!s.flag (Fld.LNK_FLOWf_CFG_REL.i f)
        || (decide ((s.lnk.unacked.filter fun p => p.2.flow == f).length < 32)
          && decide ((s.lnk.unacked.length + 1) * 64 ≤ s.get (Fld.LNK_PARTn_SIZE.i 3) * 65536)))

/-- A list without the first element that `p` marks. -/
def eraseFirst {α : Type} (p : α → Bool) : List α → List α
  | [] => []
  | a :: t => if p a then t else a :: eraseFirst p t

/-- Sends the first staged cell of a flow in codeword `n`; the first reliable one that is unacknowledged starts the replay timeout (R186). -/
def sendNew (n f : Nat) (s : State) : List Nat × State :=
  match s.port.staged.find? fun c => c.flow == f with
  | none => (idleBytes, s)
  | some c =>
    let s := { s with port := { s.port with staged := eraseFirst (fun (x : Cell) => x.flow == f) s.port.staged } }
    let s := s.put (Fld.LNK_FLOWf_STAT_STAGED.i f) (s.get (Fld.LNK_FLOWf_STAT_STAGED.i f) - 1)
    let s := if s.controlled f then s.put (Fld.LNK_FLOWf_STAT_CREDIT.i f) (s.get (Fld.LNK_FLOWf_STAT_CREDIT.i f) - 1) else s
    let l := s.lnk
    let rel := s.flag (Fld.LNK_FLOWf_CFG_REL.i f)
    let un := if rel then l.unacked ++ [(n, c)] else l.unacked
    (c.bytes, s.setLnk { l with unacked := un, ackAt := if rel && l.unacked.isEmpty then s.now else l.ackAt, rr := aset l.rr (s.flowRank f) f, timing := if f = 0 then !c.eom else l.timing })

/-- Sends a replayed cell again in codeword `n`. -/
def sendAgain (n : Nat) (p : Nat × Cell) (s : State) : List Nat × State :=
  let l := s.lnk
  (p.2.bytes, s.setLnk { l with replay := eraseFirst (fun q => q == p) l.replay, unacked := l.unacked.map fun q => if q = p then (n, p.2) else q })

/-- Fills one cell slot (R184, R194): rank by rank, replayed cells before new ones, round robin within a rank; a timing message keeps its slots. -/
def fillSlot (n : Nat) (s : State) : List Nat × State :=
  let flows := (s.port.staged.map fun c => c.flow).dedup.filter s.ready
  let pick (r : Nat) : Option (List Nat × State) :=
    match s.lnk.replay.find? fun p => s.flowRank p.2.flow == r with
    | some p => some (sendAgain n p s)
    | none =>
      let fs := flows.filter fun f => s.flowRank f == r
      let f := if r = 0 && s.lnk.timing && fs.contains 0 then some 0 else roundRobin (aget s.lnk.rr r) fs
      f.map fun f => sendNew n f s
  ((List.range 5).findSome? pick).getD (idleBytes, s)

/-- Fills `k` slots of codeword `n`. -/
def fillSlots (n : Nat) : Nat → State → List (List Nat) × State
  | 0, s => ([], s)
  | k + 1, s =>
    let a := fillSlot n s
    let b := fillSlots n k a.2
    (a.1 :: b.1, b.2)

/-- Credits the part may grant on an inbound flow (R185): RXQ less those granted and the cells that still hold space. -/
def State.grantOf (s : State) (f : Nat) : Nat :=
  let held := ((s.port.inbox.filter fun m => m.flow == f).map fun m => (m.bytes.length + 63) / 64).sum
    + ((s.lnk.partials.filter fun p => p.flow == f).map fun p => (p.bytes.length + 63) / 64).sum
  if s.controlled f && s.flag (Fld.LNK_FLOWf_CFG_EN.i f) then
    s.get (Fld.LNK_FLOWf_CFG_RXQ.i f) - aget s.lnk.grants f - held else 0

/-- The nine credit returns of a codeword: the lowest flows with credit to grant; none while the inbound direction trains (R205). -/
def grantCredits (s : State) : List Nat × State :=
  if !s.lnk.rx.up then (List.replicate 36 0, s) else
  let fs := ((List.range 256).filter fun f => s.grantOf f != 0).take 9
  let bytes := fs.flatMap fun f => [f] ++ beBytes 2 (s.grantOf f) ++ [0]
  let g := fs.foldl (fun g f => aset g f (aget g f + s.grantOf f)) s.lnk.grants
  (bytes ++ List.replicate (36 - bytes.length) 0, s.setLnk { s.lnk with grants := g })

/-- The lane-management bytes of a codeword, and the requests left (R181). -/
def takeLm (l : List LmReq) : List Nat × List LmReq :=
  match l with
  | [] => ([0x10, 0, 0, 0], [])
  | q :: t => ([0x10 + q.op, q.arg] ++ beBytes 2 q.tgt, if q.left ≤ 1 then t else { q with left := q.left - 1 } :: t)

/-- The link-control field of codeword `n` (R181, R186). -/
def controlBytes (n : Nat) (s : State) : List Nat × State :=
  let lm := takeLm s.lnk.lm
  let cr := grantCredits (s.setLnk { s.lnk with lm := lm.2 })
  let ack := (s.lnk.hold.map Prod.fst).getD s.lnk.lastOk
  let nak := match s.lnk.nak with | some (k, _) => k | none => 0
  let flags := b2n s.lnk.nak.isSome * 128 + b2n s.lnk.rx.up * 64
  (lm.1 ++ beBytes 2 n ++ beBytes 2 ack ++ beBytes 2 nak ++ [flags, 0] ++ cr.1, cr.2)

/-- Waiting messages take the staging space that has freed, in order within a flow (R188). -/
def stageWaiting (s : State) : State :=
  s.port.waiting.foldl (fun s m =>
    if s.port.waiting.any (fun x => x.flow == m.flow) && s.room m.flow ((m.bytes.length + 63) / 64)
        && (s.port.waiting.find? fun x => x.flow == m.flow) == some m then
      State.stageNow { s with port := { s.port with waiting := eraseFirst (fun x => x == m) s.port.waiting } } m.flow m.bytes
    else s) s

/-- The streams of the transmit lanes over one codeword: logical lanes and the spare precoded where precoding is in force (R173, R177, R178), each with its precoder
state, and the forwarded clock. -/
def State.txLanes (s : State) (bytes : List Nat) : List (Nat × List Nat) × List Nat :=
  let seven := s.flag Fld.LNK_STAT_SEVEN_TX
  let d := s.lnk.tx
  let map := (s.rd Reg.LNK_LANEMAP_TX).toNat
  let spare := s.get Fld.LNK_AUXMAP_SPARE_TX
  let code (j : Nat) (x : List Nat) : List Nat := if s.flag Fld.LNK_STAT_PREC_TX then precode (d.pre.getD j 0) x else x
  let data := (stripe seven (codewordLevels seven (codewordSymbols bytes))).mapIdx fun j x => (map / 16 ^ j % 16, code j x)
  let extra := if spare < 9 then [(spare, code 8 (spareLevels d.syms))] else []
  (data ++ extra ++ [(s.get Fld.LNK_AUXMAP_CLK_TX, clockLevels d.syms (cwSyms seven))],
    (List.range 8).map (fun j => (data.getD j (0, [])).2.getLastD 0) ++ [(extra.getD 0 (0, [])).2.getLastD 0])

/-- Does the transmit direction send codewords: it is up and not in L1, or it trains and has reached deskew (R174, R206, R336)? -/
def State.sendsCodewords (s : State) : Bool :=
  if s.lnk.tx.up then s.get Fld.LNK_STAT_STATE != 3 && s.lnk.l1 != some s.lnk.tx.cseq
  else s.get Fld.LNK_STAT_STATE == 1 && decide (4 ≤ s.lnk.tx.phase) && s.flag Fld.CLK_LPLL_LOCK

/-- CODEWORD_TRANSMIT (R184): the next outbound codeword, on the lane clock of R177; none from an agreed L1 target on (R206). A direction that trains sends idle cells. -/
def execCodewordTransmit (s : State) : Host.Outcome State Fault Refusal :=
  .next (if !s.sendsCodewords then s
    else
      let n := s.lnk.tx.cseq
      let s := switchLane true n (s.at s.lnk.tx.next)
      let l := s.lnk
      let len := cwSyms (s.flag Fld.LNK_STAT_SEVEN_TX)
      let cells := if l.tx.up then fillSlots n 9 s else (List.replicate 9 idleBytes, s)
      let lc := match inPair len l.tx.syms with
        | some second => (markerBytes (s.flag Fld.LNK_STAT_SEVEN_TX) second, cells.2)
        | none => controlBytes n cells.2
      let lanes := s.txLanes (cells.1.flatten ++ lc.1)
      let s := lc.2
      let tx : LinkDir := { s.lnk.tx with
        syms := l.tx.syms + len
        cseq := (n + 1) % 65536
        next := l.tx.next + len * symbolU
        pre := lanes.2
        phase := if l.tx.up then 0 else 5
        fec := if l.tx.up then 0 else l.tx.fec + 1 }
      let s := s.setLnk { s.lnk with tx := tx }
      stageWaiting (s.emit (.codeword cells.1 lc.1 (inPair len l.tx.syms).isSome lanes.1)))

/-! ### Lane management and lane failures (R200 to R205) -/

/-- LM_SUBSTITUTE_DATA_LANE (R201). -/
def execLmSubstituteDataLane (arg tgt : Nat) (s : State) : Host.Outcome State Fault Refusal := .next (lmSubstitute arg tgt s)

/-- LM_SUBSTITUTION_DONE (R201). -/
def execLmSubstitutionDone (arg : Nat) (s : State) : Host.Outcome State Fault Refusal := .next (lmDone arg s)

/-- LM_SUBSTITUTE_CLOCK_LANE (R202). -/
def execLmSubstituteClockLane (arg : Nat) (s : State) : Host.Outcome State Fault Refusal := .next (lmClock arg s)

/-- LM_RETRAIN (R203). -/
def execLmRetrain (s : State) : Host.Outcome State Fault Refusal := .next (lmRetrain s)

/-- LM_L1_REQUEST (R206). -/
def execLmL1Request (tgt : Nat) (s : State) : Host.Outcome State Fault Refusal := .next (lmL1 tgt s)

/-- LM_L1_ACCEPT (R206). -/
def execLmL1Accept (tgt : Nat) (s : State) : Host.Outcome State Fault Refusal := .next (lmAccept tgt s)

/-- LM_L1_REFUSE (R206). -/
def execLmL1Refuse (s : State) : Host.Outcome State Fault Refusal := .next (lmRefuse s)

/-- LANE_FAILURE (R200): the signal or the clock recovery of data position `p` has been lost for 1 us at `t`. -/
def execLaneFailure (p : Fin 9) (t : Nat) (s : State) : Host.Outcome State Fault Refusal := .next (failLane p (s.at t))

/-- CLOCK_LANE_FAILURE (R200, R202): the forwarded clock is lost for 1 us at `t`: the spare, or else the highest usable data position, takes it, and the
direction retrains. -/
def execClockLaneFailure (t : Nat) (s : State) : Host.Outcome State Fault Refusal :=
  .next (let s := s.at t
    let clk := s.get Fld.LNK_AUXMAP_CLK_RX
    let s := s.put (Fld.LNK_PLANEn_FAILED.i clk) 1
    if !s.lnk.rx.up then s
    else
      let s := moveLost s
      let spare := s.get Fld.LNK_AUXMAP_SPARE_RX
      let map := (s.rd Reg.LNK_LANEMAP_RX).toNat
      let high := (List.range 9).foldl (fun m p => if usesPos map p then p else m) 0
      let new := if spare = 15 then high else spare
      let up := s.lnk.tx.up
      let s := retrain false true ((s.put Fld.LNK_AUXMAP_CLK_RX new).put Fld.LNK_AUXMAP_SPARE_RX 15)
      let s := s.setLnk { s.lnk with repair := true }
      if up then sendLm 3 (clk * 16 + new) 0 s else s)

/-- SUBSTITUTION_SWITCH (R201): the direction's next codeword is LM_TGT, and the failed lane's stream moves to the spare. -/
def execSubstitutionSwitch (tx : Bool) (s : State) : Host.Outcome State Fault Refusal :=
  .next (switchLane tx (if tx then s.lnk.tx.cseq else s.lnk.rx.cseq) s)

/-- SUBSTITUTION_TIMEOUT (R201, R204): 25 us after the failure without repair the direction retrains. -/
def execSubstitutionTimeout (s : State) : Host.Outcome State Fault Refusal :=
  .next (match s.lnk.subRx with
    | none => s
    | some u => rxRetrain (u.failed * 16) (s.at (u.at0 + 25 * usU)))

/-- LINK_SILENCE_TIMEOUT (R204): no decoded codeword for 100 us: both directions return to training. -/
def execLinkSilenceTimeout (s : State) : Host.Outcome State Fault Refusal :=
  .next (if s.get Fld.LNK_STAT_STATE = 2 then retrain true true (s.at (s.lnk.lastDecode + 100 * usU)) else s)

/-! ### Link power states (R206) -/

/-- L1_ENTRY (R206): at LM_TGT both sides stop sending codewords; the forwarded clock runs alone, the capacities read 0 (R175), and the gateway's locks are freed broken, since STATE
leaves UP (R302). -/
def execL1Entry (s : State) : Host.Outcome State Fault Refusal :=
  .next (if s.linkUp && s.lnk.l1 == some s.lnk.tx.cseq then
      let s := (setLink 3 (((s.put Fld.LNK_CAP_CAP_TX 0).put Fld.LNK_CAP_CAP_RX 0).setLnk { s.lnk with l1 := none })).breakAllLocks [5]
      s.emit (.forwarded (s.get Fld.LNK_AUXMAP_CLK_TX))
    else s)

/-- L1_EXIT (R206): codewords resume at `t` with a marker pair. -/
def execL1Exit (t : Nat) (s : State) : Host.Outcome State Fault Refusal :=
  .next (if s.get Fld.LNK_STAT_STATE = 3 then (s.at t).leaveL1 else s)

/-- L2_CLOCK_DETECT (R206): a forwarded clock on CK starts training. -/
def execL2ClockDetect (t : Nat) (s : State) : Host.Outcome State Fault Refusal :=
  .next (if s.get Fld.LNK_STAT_STATE = 4 then startTraining true true (s.at t) else s)

/-! ### The Lanied PLL (R336) -/

/-- The Lanied PLL loses lock (R336): LOL, degrade 0x413, every transmit position idle, whatever STATE; the link trains again at relock. -/
def lpllLost (s : State) : State :=
  if !s.flag Fld.CLK_LPLL_LOCK then s
  else
    let s := ((s.put Fld.CLK_LPLL_LOCK 0).put Fld.CLK_LPLL_LOL 1).raise 0x413 0xFF 0
    if s.lnk.tx.up || s.get Fld.LNK_STAT_STATE == 1 then startTraining true false s else s

/-- The Lanied PLL locks (R336): an enabled link retrains both directions, as RETRAIN does. -/
def lpllLocked (s : State) : State :=
  let s := s.put Fld.CLK_LPLL_LOCK 1
  if s.flag Fld.LNK_CTRL_EN && s.get Fld.LNK_STAT_STATE != 0 then retrain true true s else s

/-- LANIED_PLL_LOSS_OF_LOCK (R336). -/
def execLaniedPllLossOfLock (s : State) : Host.Outcome State Fault Refusal := .next (lpllLost s)

/-- LANIED_PLL_LOCK (R336, R361): lock is declared at `t`, unless a fall-back of the wake holds the blocks off that depend on REFIN. -/
def execLaniedPllLock (t : Nat) (s : State) : Host.Outcome State Fault Refusal := .next (if s.pow.refOff then s else lpllLocked (s.at t))

/-! ### Settings (R183, R189) -/

/-- Does an enabled deep flow or a producer of the receive chain use a flow? -/
def State.flowUsed (s : State) (f : Nat) : Bool :=
  (List.finRange 8).any (fun h => (s.flag (Fld.ORX_DF_EN.h h) || s.eget (Fld.ORX_DF_EN.h h) == 1) && s.get (Fld.ORX_DF_FLOW.h h) == f)
    || (List.range 8).any (fun n => (s.car n).en && s.get (Fld.LNK_UL_CARn_FLOW.i n) == f)
    || (List.range 4).any (fun m => s.flag (Fld.LNK_PRA_CFGm_EN.i m) && s.get (Fld.LNK_PRA_TIMEm_FLOW.i m) == f)
    || (s.anyCar && decide (s.get Fld.LNK_ULC_CFG_ELEM_FLOW ≤ f) && decide (f < s.get Fld.LNK_ULC_CFG_ELEM_FLOW + 8))

/-- A write to `LNK_FLOWf_CFG` (R182, R183). -/
def flowCfgWrite (r : Req) (f : Nat) (v : Word) (s : State) : State :=
  let a := Reg.LNK_FLOWf_CFG + 8 * f
  let old := s.rd a
  let cls := getBits Fld.LNK_FLOWf_CFG_CLASS v
  let deep := getBits Fld.LNK_FLOWf_CFG_DEEP v = 1
  let rel := getBits Fld.LNK_FLOWf_CFG_REL v = 1
  let moved := (old ^^^ v).toNat / 2 ^ 27 % 16 ≠ 0
  if f < 8 then s
  else if (rel ∧ (cls = 0 ∨ cls = 2 ∨ deep)) ∨ (deep ∧ cls < 2)
      ∨ (moved ∧ (s.get (Fld.LNK_FLOWf_STAT_STAGED.i f) ≠ 0 ∨ s.flowUsed f)) then s.refuse4 r a
  else s.storeReg r a v

/-- A write to `LNK_PARTn` (R189): only while DOWN, inside the buffer, and without overlap. -/
def partWrite (r : Req) (n : Fin 4) (v : Word) (s : State) : State :=
  let a := Reg.LNK_PARTn + 4 * n
  let part (w : Word) : Nat × Nat := (getBits Fld.LNK_PARTn_BASE w, getBits Fld.LNK_PARTn_SIZE w)
  let p := part v
  let others := ((List.finRange 4).filter fun m => m != n).map fun m => part (s.rd (Reg.LNK_PARTn + 4 * m.val))
  if s.get Fld.LNK_STAT_STATE ≠ 0 ∨ p.2 = 0 ∨ 128 < p.1 + p.2 ∨ others.any (fun q => decide (p.1 < q.1 + q.2) && decide (q.1 < p.1 + p.2)) then
    s.refuse4 r a
  else s.storeReg r a v

/-! ### Messages of flows 2 to 7 (R191, R195, R196) -/

/-- GENERIC_DATA_MESSAGE (R191): the data behind PC_ID and SEQ_ID (log 57) is delivered to the Reeve; its arrival signal is posted. -/
def execGenericDataMessage (m : Hdr) (payload : List Nat) (s : State) : Host.Outcome State Fault Refusal :=
  .next (takeMsg m 3 (4 + payload.length) (fun s => s.setLnk { s.lnk with toReeve := s.lnk.toReeve ++ [⟨m.flow, payload⟩] }) s)

/-- A Remote Reset request (R196): Reset ID, code op and vendor data. -/
def takeReset (id op : Nat) (vendor : List Nat) (s : State) : State :=
  let d := beNat vendor
  let target := if d = 0 then some 8 else if 16 ≤ d ∧ d < 24 then some (d - 16) else none
  if op ≠ 1 then s.inc (Fld.LNK_CNTn_COUNT.i 6)
  else match target with
    | some g => if s.flag Fld.LNK_CTRL_RRST ∧ vendor.length = 4 then
        State.stage (s.setLnk { s.lnk with resets := s.lnk.resets ++ [(g, s.now + 100 * usU)] }) 2 (ecpri 6 (beBytes 2 id ++ [2]))
      else (s.inc (Fld.LNK_CNTn_COUNT.i 6)).raise 0x414 0xFF (d % 2 ^ 32)
    | none => (s.inc (Fld.LNK_CNTn_COUNT.i 6)).raise 0x414 0xFF (d % 2 ^ 32)

/-- REMOTE_RESET_REQUEST (R196). -/
def execRemoteResetRequest (m : Hdr) (id op : Nat) (vendor : List Nat) (s : State) : Host.Outcome State Fault Refusal :=
  .next (takeMsg m 6 (3 + vendor.length) (takeReset id op vendor) s)

/-- EVENT_ACK (R195): the indication with this Event ID is acknowledged. -/
def execEventAck (m : Hdr) (id : Nat) (s : State) : Host.Outcome State Fault Refusal :=
  .next (takeMsg m 7 4 (fun s => { s with port := { s.port with unacked := s.port.unacked.filter fun (x : IndSent) => x.id != id } }) s)

/-- EVENT_SYNC_REQUEST (R195): answered with type 0x04, the active faults, and type 0x05. -/
def execEventSyncRequest (m : Hdr) (id : Nat) (s : State) : Host.Outcome State Fault Refusal :=
  .next (takeMsg m 7 4 (fun s =>
    let s := s.stage 2 (ecpri 7 (eventBytes id 4 []))
    let s := (List.range 32).foldl (fun s n => if s.flag (Fld.FLT_LOGn_W0_ACTIVE.i n) then
        s.sendInd ⟨true, s.get (Fld.FLT_LOGn_W0_NUM.i n), s.get (Fld.FLT_LOGn_W0_ELEM.i n), (s.rd (Reg.FLT_LOGn_W0 + 0x20 * n + 4)).toNat, n⟩ else s) s
    s.stage 2 (ecpri 7 (eventBytes id 5 []))) s)

/-- The unacknowledged indication whose repeat is due first. -/
def firstDueInd : List IndSent → Option IndSent
  | [] => none
  | i :: t => match firstDueInd t with
    | none => some i
    | some j => if j.due < i.due then some j else some i

/-- EVENT_INDICATION_RESEND (R195): sent again every 10 ms, at most 3 times. -/
def execEventIndicationResend (s : State) : Host.Outcome State Fault Refusal :=
  .next (match firstDueInd s.port.unacked with
    | none => s
    | some i =>
      let s := s.at i.due
      let i' := { i with tries := i.tries + 1, due := i.due + 10 * msU }
      let l := s.port.unacked.filter fun x => x != i
      State.stage { s with port := { s.port with unacked := if i.tries + 1 < 3 then l ++ [i'] else l } } 2 i.bytes)

/-- EVENT_INDICATION_FLUSH (R487): with the link UP the waiting indications go, oldest first, while flow 2 has space (R188). -/
def execEventIndicationFlush (s : State) : Host.Outcome State Fault Refusal :=
  .next (if s.linkUp then s.flt.waiting.foldl (fun s i => s.indicate i) { s with flt := { s.flt with waiting := [] } } else s)

end Sys2Proof.Machine
end

