-- ==== Sys2Proof/Machine/Time.lean ====
section
/-!
DEFINITION. Device time (R208 to R227): reading it, time-stamps, the timing messages and their rings, the judging of measurements, steps, the event unit
and its timers, and the notification queues.
-/

namespace Sys2Proof.Machine

/-- The state with its time block changed. -/
def State.setTim (s : State) (x : Tim) : State := { s with tim := x }

/-! ### Reading and numbering (R209, R210, R211) -/

/-- The SLO and SHI words of an instant. -/
def secWords (t : Nat) : Word × Word :=
  (BitVec.ofNat 32 (secOf t), BitVec.ofNat 32 (fracOf t * 65536 + secOf t / 2 ^ 32 % 65536))

/-- A read of `TIM_NOW_NS` latches the other two registers: the device time shown at the tick (R208, R209). -/
def nowRead (s : State) : Nat × State :=
  let t := shown s.now
  let w := secWords t
  let s := (s.wr Reg.TIM_NOW_SLO w.1).wr Reg.TIM_NOW_SHI w.2
  (nsOf t, s.wr Reg.TIM_NOW_NS (BitVec.ofNat 32 (nsOf t)))

/-- TIM_NOW_READ (R209). -/
def execTimNowRead (r : Req) (s : State) : Host.Outcome State Fault Refusal := .next (readCmd r Reg.TIM_NOW_NS nowRead s)

/-- A write to `TIM_FRAME` (R210): FNOFF waits for the first whole second at least 100 us later. -/
def timFrameWrite (r : Req) (v : Word) (s : State) : State :=
  let s := s.storeReg r Reg.TIM_FRAME v
  s.setTim { s.tim with fnoffDue := some (nextMult (s.now + 100 * usU) secU) }

/-- FNOFF_TAKE_EFFECT (R210). -/
def execFnoffTakeEffect (s : State) : Host.Outcome State Fault Refusal :=
  .next (match s.tim.fnoffDue with
    | none => s
    | some d => ((s.at d).take Reg.TIM_FRAME).setTim { s.tim with fnoffDue := none })

/-- A write to `TIM_UTC` (R211): CUR takes its value at once; PEND says whether NEXT differs. -/
def timUtcWrite (r : Req) (v : Word) (s : State) : State :=
  let s := s.storeReg r Reg.TIM_UTC v
  s.put Fld.TIM_UTC_PEND (b2n (s.get Fld.TIM_UTC_NEXT != s.get Fld.TIM_UTC_CUR))

/-- TIM_UTC_WRITE (R211). -/
def execTimUtcWrite (r : Req) (v : Word) (s : State) : Host.Outcome State Fault Refusal :=
  .next (regCmd r Reg.TIM_UTC v (timUtcWrite r v) s)

/-- The whole second at which a pending change of CUR happens (R211): the first after now whose number, less AT modulo 2^32, lies below 2^31. -/
def utcSecond (now atSec : Nat) : Nat :=
  let s0 := now / secU + 1
  let d := (s0 + 2 ^ 32 - atSec % 2 ^ 32) % 2 ^ 32
  if d < 2 ^ 31 then s0 else s0 + (2 ^ 32 - d)

/-- UTC_OFFSET_CHANGE (R211). -/
def execUtcOffsetChange (s : State) : Host.Outcome State Fault Refusal :=
  .next (if s.flag Fld.TIM_UTC_PEND then
      let s := s.at (utcSecond s.now (s.get Fld.TIM_UTC_AT_AT) * secU)
      (s.put Fld.TIM_UTC_CUR (s.get Fld.TIM_UTC_NEXT)).put Fld.TIM_UTC_PEND 0
    else s)

/-! ### Stamps and rings (R212 to R216) -/

/-- The ingress stamp of port `p` for a ball instant: less ASYM, to 2^-16 ns (R213). -/
def State.stamp (s : State) (p t : Nat) : Nat :=
  (((t : Int) - signed 32 (s.get (Fld.TIM_ASYMp_ASYM.i p)) * fracU).toNat) / fracU * fracU

/-- An edge stamped into `TIM_CAPq`. -/
def takeCap (q : Fin 2) (stamp : Nat) (s : State) : State :=
  let s := s.setTim { s.tim with caps := s.tim.caps.set q stamp }
  s.put (Fld.TIM_CAPq_NS_NS.i q) (nsOf stamp)

/-- PPS_EDGE (R212): a rising edge at the ball at `t`. -/
def execPpsEdge (t : Nat) (s : State) : Host.Outcome State Fault Refusal :=
  .next (let s := s.at t
    (takeCap 0 (s.stamp 2 t) s).put Fld.TIM_STAT_PPSNEW 1)

/-- A read of `TIM_CAPq_NS` latches the other two registers and clears PPSNEW or SYNCNEW. -/
def capRead (q : Fin 2) (s : State) : Nat × State :=
  let t := s.tim.caps[q]
  let w := secWords t
  let s := (s.wr (Reg.TIM_CAPq_SLO + 16 * q) w.1).wr (Reg.TIM_CAPq_SHI + 16 * q) w.2
  (s.get (Fld.TIM_CAPq_NS_NS.i q), if q = 0 then s.put Fld.TIM_STAT_PPSNEW 0 else s.put Fld.TIM_STAT_SYNCNEW 0)

/-- A ring of Reeve SRAM (R215): its registers. -/
structure RingRegs where
  base : Field
  size : Field
  hw   : Field
  sw   : Field

/-- The four rings. -/
def l0Rx : RingRegs := ⟨Fld.TIM_L0RX_BASE, Fld.TIM_L0RX_SIZE, Fld.TIM_L0RXP_HW, Fld.TIM_L0RXP_SW⟩
/-- The transmit ring of flow 0. -/
def l0Tx : RingRegs := ⟨Fld.TIM_L0TX_BASE, Fld.TIM_L0TX_SIZE, Fld.TIM_L0TXP_HW, Fld.TIM_L0TXP_SW⟩
/-- The receive ring of the management port. -/
def mgpRx : RingRegs := ⟨Fld.MGP_RXRING_BASE, Fld.MGP_RXRING_SIZE, Fld.MGP_RXPTR_HW, Fld.MGP_RXPTR_SW⟩
/-- The transmit ring of the management port. -/
def mgpTx : RingRegs := ⟨Fld.MGP_TXRING_BASE, Fld.MGP_TXRING_SIZE, Fld.MGP_TXPTR_HW, Fld.MGP_TXPTR_SW⟩

/-- The 64-byte units of a ring: 2^SIZE pages of 4 KiB, SIZE at most 8. -/
def State.ringUnits (s : State) (g : RingRegs) : Nat := 64 * 2 ^ min (s.get g.size) 8

/-- The address of byte `i` after unit `u` of a ring, wrapping; a place outside Reeve SRAM has none. -/
def State.ringAddr (s : State) (g : RingRegs) (u i : Nat) : Option Nat :=
  let a := s.get g.base * 4096 + (u * 64 + i) % (s.ringUnits g * 64)
  if 0x00100000 ≤ a ∧ a < 0x00300000 then some a else none

/-- Writes bytes into a ring from byte `i` after unit `u`. -/
def ringPut (g : RingRegs) (u : Nat) : Nat → List Nat → State → State
  | _, [], s => s
  | i, b :: t, s => ringPut g u (i + 1) t (match s.ringAddr g u i with | some a => s.putLE a 1 b | none => s)

/-- `n` bytes of a ring. -/
def ringGet (s : State) (g : RingRegs) (u i n : Nat) : List Nat :=
  (List.range n).map fun j => match s.ringAddr g u (i + j) with | some a => s.memLE a 1 | none => 0

/-- Bytes of a number, least significant first. -/
def leBytes (n v : Nat) : List Nat := (List.range n).map fun i => v / 256 ^ i % 256

/-- The stamp words of a record header: nanoseconds, seconds, fraction and STAMPED (R215). -/
def stampBytes (t : Nat) (stamped : Bool) : List Nat :=
  leBytes 4 (nsOf t) ++ leBytes 4 (secOf t) ++ leBytes 4 (fracOf t * 65536 + b2n stamped * 32768)

/-- A receive record goes into its ring; false when the ring has no room. HW = SW reads as empty, so one unit stays free. -/
def ringRecord (g : RingRegs) (bytes : List Nat) (t : Nat) (stamped : Bool) (s : State) : Bool × State :=
  let n := s.ringUnits g
  let hw := s.get g.hw % n
  let k := (16 + bytes.length + 63) / 64
  if (hw + n - s.get g.sw % n) % n + k < n then
    (true, (ringPut g hw 0 (leBytes 4 bytes.length ++ stampBytes t stamped ++ bytes ++ List.replicate (64 * k - 16 - bytes.length) 0) s).put
      g.hw ((hw + k) % n))
  else (false, s)

/-- The record that waits in a transmit ring: its unit and its message. -/
def ringNext (s : State) (g : RingRegs) : Option (Nat × List Nat) :=
  let n := s.ringUnits g
  let hw := s.get g.hw % n
  if hw = s.get g.sw % n then none
  else
    let len := (ringGet s g hw 0 2).getD 0 0 + 256 * (ringGet s g hw 0 2).getD 1 0
    some (hw, ringGet s g hw 16 len)

/-- A sent record is rewritten with its egress stamp, and the ring moves on. -/
def ringSent (g : RingRegs) (u len t : Nat) (s : State) : State :=
  let k := (16 + len + 63) / 64
  (ringPut g u 4 (stampBytes t true) s).put g.hw ((u + k) % s.ringUnits g)

/-- Is an IEEE 1588 message an event message: message type 0 to 7? -/
def ptpEvent (b : List Nat) : Bool := b.getD 0 0 % 16 < 8

/-- A one-step event message with its egress instant (R214): whole nanoseconds in originTimestamp, the remainder added to correctionField. -/
def ptpPatch (t : Nat) (b : List Nat) : List Nat :=
  if ptpEvent b then
    let corr := (beNat ((b.drop 8).take 8) + fracOf t) % 2 ^ 64
    b.take 8 ++ beBytes 8 corr ++ (b.drop 16).take 18 ++ beBytes 6 (secOf t) ++ beBytes 4 (nsOf t) ++ b.drop 44
  else b

/-- PTP_MESSAGE_RX (R215): an IEEE 1588 message on flow 0, its first symbol at the balls at `t`. -/
def execPtpMessageRx (bytes : List Nat) (t : Nat) (s : State) : Host.Outcome State Fault Refusal :=
  .next (let s := s.at t
    let s := { s with port := { s.port with inbox := dropFlow 0 s.port.inbox } }
    let x := ringRecord l0Rx bytes (s.stamp 0 t) (ptpEvent bytes) s
    if x.1 then x.2 else s.inc (Fld.LNK_CNTn_COUNT.i 7))

/-- The instant at which a message staged now on flow 0 begins to leave: its codeword's first symbol (R212). -/
def State.egressAt (s : State) : Nat :=
  let n := (s.port.staged.filter fun c => s.flowRank c.flow == 0).length
  s.lnk.tx.next + n / 9 * (cwSyms (s.flag Fld.LNK_STAT_SEVEN_TX) * symbolU)

/-- L0_MESSAGE_TX (R215): the next transmit-ring record goes on flow 0 behind its shim word, and is rewritten with its egress stamp. -/
def execL0MessageTx (s : State) : Host.Outcome State Fault Refusal :=
  .next (if !s.linkUp then s
    else match ringNext s l0Tx with
      | none => s
      | some (u, b) =>
        let t := s.egressAt
        let s := s.stage 0 (beBytes 4 (0xF0000000 + b.length % 65536) ++ ptpPatch t b)
        ringSent l0Tx u b.length t s)

/-- An eCPRI type 5 message of the part: Measurement ID, Action Type, Timestamp, Compensation 0 (R194, R214). -/
def owdBytes (id action t : Nat) : List Nat :=
  ecpri 5 ([id % 256, action] ++ beBytes 6 (secOf t) ++ beBytes 4 (nsOf t) ++ beBytes 8 0)

/-- ONE_WAY_DELAY_MESSAGE (R194): action 0x00, or 0x01 followed by 0x05, is answered with 0x02 carrying the request's ingress stamp; 0x03 and 0x04 with a request
0x00 carrying its own egress stamp. -/
def execOneWayDelayMessage (m : Hdr) (id action t : Nat) (s : State) : Host.Outcome State Fault Refusal :=
  .next (takeMsg m 5 20 (fun s =>
    let stamp := s.stamp 0 t
    let id := id % 256
    if action = 0 then s.stage 0 (owdBytes id 2 stamp)
    else if action = 1 then s.setTim { s.tim with owd := aset s.tim.owd id stamp }
    else if action = 5 then
      (if s.tim.owd.any (fun p => p.1 == id) then
        State.stage (s.setTim { s.tim with owd := s.tim.owd.filter fun p => p.1 != id }) 0 (owdBytes id 2 (aget s.tim.owd id))
      else s)
    else if action = 3 ∨ action = 4 then s.stage 0 (owdBytes id 0 s.egressAt)
    else s) (s.at t))

/-- Where the IEEE 1588 message of a frame begins, if the frame is one that the port recognises (R214, R216). -/
def State.ptpOffset (s : State) (b : List Nat) : Option Nat :=
  let ty := beNat ((b.drop 12).take 2)
  let ihl := b.getD 14 0 % 16 * 4
  let port := beNat ((b.drop (14 + ihl + 2)).take 2)
  if ty = 0x88F7 then (if s.flag Fld.MGP_CFG_L2 then some 14 else none)
  else if ty = 0x0800 ∧ b.getD 23 0 = 17 ∧ (port = 319 ∨ port = 320) then (if s.flag Fld.MGP_CFG_UDP then some (14 + ihl + 8) else none)
  else none

/-- The CRC-32 of IEEE 802.3 (PRESUMED, log 58), its four bytes in transmit order. -/
def fcs (bytes : List Nat) : List Nat :=
  let r := bytes.foldl (fun c b => (List.range 8).foldl (fun c _ => if c % 2 = 1 then (c / 2) ^^^ 0xEDB88320 else c / 2) (c ^^^ b % 256)) 0xFFFFFFFF
  leBytes 4 (r ^^^ 0xFFFFFFFF)

/-- MGP_FRAME_RX (R216): a frame received at `t`: header, body and FCS; the record holds it without the FCS. -/
def execMgpFrameRx (header body crc : List Nat) (t : Nat) (s : State) : Host.Outcome State Fault Refusal :=
  .next (if !s.flag Fld.MGP_CFG_EN then s
    else
      let s := s.at t
      let bytes := header ++ body
      if bytes.length < 60 || 1518 < bytes.length || crc != fcs bytes then s.inc (Fld.MGP_CNTn_COUNT.i 1)
      else
        let ptp := (s.ptpOffset bytes).map fun o => bytes.drop o
        let other := match ptp with
          | some p => p.getD 4 0 != s.get Fld.MGP_CFG_DOMAIN
          | none => false
        if other then s
        else
          let x := ringRecord mgpRx bytes (s.stamp 1 t) ((ptp.map ptpEvent).getD false) s
          if x.1 then x.2.inc (Fld.MGP_CNTn_COUNT.i 0) else s.inc (Fld.MGP_CNTn_COUNT.i 2))

/-- MGP_FRAME_TX (R215, R216): the next transmit-ring record leaves at `t` with its FCS and is rewritten with its egress stamp. -/
def execMgpFrameTx (t : Nat) (s : State) : Host.Outcome State Fault Refusal :=
  .next (if s.flag Fld.MGP_CFG_EN && s.flag Fld.MGP_STAT_LINK then
      (match ringNext s mgpTx with
        | none => s
        | some (u, b) =>
          let s := s.at t
          let b' := match s.ptpOffset b with
            | some o => b.take o ++ ptpPatch t (b.drop o)
            | none => b
          ringSent mgpTx u b.length t ((s.emit (.frame (b' ++ fcs b'))).inc (Fld.MGP_CNTn_COUNT.i 3)))
    else s)

/-- MGP_LINK_CHANGE (R216, R218): LINK and REFOK; source 1 is stale while LINK is 0. -/
def execMgpLinkChange (link refok : Bool) (s : State) : Host.Outcome State Fault Refusal :=
  .next (let s := (s.put Fld.MGP_STAT_LINK (b2n link)).put Fld.MGP_STAT_REFOK (b2n refok)
    if link then s else s.sourceStale 1)

/-! ### Sources (R217, R218) -/

/-- Is the part a Tally follower (R217)? -/
def State.follower (s : State) : Bool := s.flag Fld.TLY_CFG_EN && !s.flag Fld.TLY_STAT_HEAD

/-- A write to `TIM_CFG` (R217): SRCEN stores; a SEL that R217 refuses is ignored and recorded. -/
def timCfgWrite (r : Req) (v : Word) (s : State) : State :=
  let sel := getBits Fld.TIM_CFG_SEL v
  let en := getBits Fld.TIM_CFG_SRCEN v
  let ok := sel == 7 || (sel < 5 && sel != 3 && bitOf en sel && !s.flag (Fld.TIM_SRCSTAT_STALE.sub sel)
    && !s.flag (Fld.TIM_SRCSTAT_SUSPECT.sub sel) && (!s.follower || sel == 4))
  let s := s.put Fld.TIM_CFG_SRCEN en
  if ok then s.put Fld.TIM_CFG_SEL sel else s.refuse4 r Reg.TIM_CFG

/-- SOURCE_STALE (R218): sources 0 to 3 after 4 s without a measurement, source 4 when 30 ms + 1 us have passed since the last SYNC edge with a TIME
message. -/
def execSourceStale (n : Fin 5) (s : State) : Host.Outcome State Fault Refusal :=
  .next (if s.flag (Fld.TIM_SRCSTAT_STALE.sub n) then s
    else if h : n.val < 4 then (s.at (s.tim.meas[n.val] + 4 * secU)).sourceStale n
    else (s.at (s.tim.syncAt + 30 * msU + usU)).sourceStale n)

/-! ### Judging a measurement (R219, R220, R223) -/

/-- THRESH in time units: between 50 ns and 10^9 ns. -/
def State.thresh (s : State) : Nat := max 50 (min 1000000000 (s.get Fld.TIM_JUMP_THRESH)) * nsU

/-- Is source `n` suspect? Source 5 has no bit in a register. -/
def State.suspect (s : State) (n : Nat) : Bool := if n < 5 then s.flag (Fld.TIM_SRCSTAT_SUSPECT.sub n) else s.tim.sus5

/-- Consecutive measurements of source `n` within THRESH while it is suspect. -/
def State.goodCount (s : State) (n : Nat) : Nat := if n < 5 then s.get (Fld.TIM_SRCSTAT_GOOD.sub n) else s.tim.good5

/-- SUSPECT and GOOD of source `n` are set. -/
def setSuspect (n : Nat) (sus : Bool) (good : Nat) (s : State) : State :=
  if n < 5 then (s.put (Fld.TIM_SRCSTAT_SUSPECT.sub n) (b2n sus)).put (Fld.TIM_SRCSTAT_GOOD.sub n) good
  else s.setTim { s.tim with sus5 := sus, good5 := good }

/-- Is the port of source `n` up (R218)? Sources 0 and 1 stay stale while theirs is down. -/
def State.portUp (s : State) (n : Nat) : Bool := if n = 0 then s.linkUp else if n = 1 then s.flag Fld.MGP_STAT_LINK else true

/-- Case 7: the measurement is accepted. -/
def acceptMeas (src : Nat) (off : Int) (s : State) : State :=
  let s := (s.put Fld.TIM_OFFS_OFFS (unsigned 32 (clampS 32 (off.tdiv nsU)))).put Fld.TIM_STAT_LASTRES 0
  let s := if src < 5 ∧ s.portUp src = true then s.put (Fld.TIM_SRCSTAT_STALE.sub src) 0 else s
  if s.get Fld.TIM_STAT_STATE = 2 ∧ s.get Fld.TIM_CFG_SEL = src then s.put Fld.TIM_STAT_STATE (s.get Fld.TIM_STAT_STEPPED) else s

/-- Case 5: the jump is refused. -/
def refuseJump (src : Nat) (s : State) : State :=
  let s := ((s.put Fld.TIM_STAT_JUMPREF 1).inc (Fld.TIM_CNTn_COUNT.i 0)).put Fld.TIM_STAT_LASTRES 2
  let s := setSuspect src true 0 s
  let s := s.raiseSev 0x441 (severityOf 0x441) 0xFF src true
  if s.get Fld.TIM_CFG_SEL = src then s.enterHold else s

/-- Cases 5 to 7 of R220. -/
def judgeRest (src : Nat) (off : Int) (step init : Bool) (s : State) : State :=
  if s.flag Fld.TIM_STAT_STEPPED && decide (s.thresh < off.natAbs) then refuseJump src s
  else if step || init then (s.inc (Fld.TIM_CNTn_COUNT.i 1)).put Fld.TIM_STAT_LASTRES 3
  else acceptMeas src off s

/-- A measurement of source 3 (R223). -/
def judgeWatch (off : Int) (s : State) : State :=
  let bound := max 10 (min 120000 (s.get Fld.TIM_WBOUND_BOUND)) * msU
  if off.natAbs ≤ bound then s.put Fld.TIM_STAT_LASTRES 4
  else
    let s := ((s.put Fld.TIM_STAT_INSANE 1).inc (Fld.TIM_CNTn_COUNT.i 2)).put Fld.TIM_STAT_LASTRES 5
    let num := if s.get Fld.TIM_STAT_STATE = 2 then 0x444 else 0x443
    s.raiseSev num (severityOf num) 0xFF (s.rd Reg.TIM_OFFS).toNat true

/-- Case 3: a step is scheduled (R221). -/
def scheduleStep (src : Nat) (off : Int) (load : Bool) (s : State) : State :=
  let s := ((s.put Fld.TIM_STAT_PEND 1).put Fld.TIM_STAT_LASTRES 1)
  let s := setSuspect src false (s.goodCount src) s
  s.setTim { s.tim with step := some (nextMult (s.now + 2 * msU) (10 * msU), off, load) }

/-- A committed measurement is judged (R220); the offset is in time units. -/
def judge (src : Nat) (off : Int) (step init : Bool) (s : State) : State :=
  let s := if h : src < 4 then s.setTim { s.tim with meas := s.tim.meas.set src s.now } else s
  let open_ := !s.flag Fld.TIM_STAT_STEPPED || s.flag Fld.TIM_STEPCTL_AUTH
  if src < 5 ∧ ¬ s.bit Fld.TIM_CFG_SRCEN src then s.put Fld.TIM_STAT_LASTRES 6
  else if src = 3 then judgeWatch off s
  else if step && open_ && s.flag Fld.TIM_STAT_PEND then (s.inc (Fld.TIM_CNTn_COUNT.i 1)).put Fld.TIM_STAT_LASTRES 3
  else if step && open_ then scheduleStep src off (init && !s.flag Fld.TIM_STAT_STEPPED) s
  else if s.suspect src then
    (if off.natAbs ≤ s.thresh then
      let g := s.goodCount src
      if g = 3 then acceptMeas src off (setSuspect src false 0 s)
      else (setSuspect src true (g + 1) s).put Fld.TIM_STAT_LASTRES 7
    else (setSuspect src true 0 s).put Fld.TIM_STAT_LASTRES 2)
  else judgeRest src off step init s

/-- A write to `TIM_MEAS_CTRL` (R219, R220): SRC 4, 6 and 7 make it ignored. -/
def measWrite (v : Word) (s : State) : State :=
  let src := getBits Fld.TIM_MEAS_CTRL_SRC v
  let off : Int := (signed 32 (s.get Fld.TIM_MEAS_SEC_SEC) * 1000000000 + signed 32 (s.get Fld.TIM_MEAS_NS_NS)) * nsU
  if src = 4 ∨ 5 < src then s
  else judge src off (getBits Fld.TIM_MEAS_CTRL_STEP v = 1) (getBits Fld.TIM_MEAS_CTRL_INIT v = 1) s

/-- MEASUREMENT_COMMIT (R220). -/
def execMeasurementCommit (r : Req) (v : Word) (s : State) : Host.Outcome State Fault Refusal :=
  .next (regCmd r Reg.TIM_MEAS_CTRL v (measWrite v) s)

/-- A write to `TIM_STEPCTL`: only by the Reeve at kernel or machine level. -/
def stepCtlWrite (r : Req) (v : Word) (s : State) : State :=
  if r.id = 16 ∧ (r.priv = 1 ∨ r.priv = 2) then s.storeReg r Reg.TIM_STEPCTL v else s.refuse4 r Reg.TIM_STEPCTL

/-- A write to `TIM_STEER` (R222): ignored and recorded in HOLD. -/
def steerWrite (r : Req) (v : Word) (s : State) : State :=
  if s.get Fld.TIM_STAT_STATE = 2 then s.refuse4 r Reg.TIM_STEER else s.storeReg r Reg.TIM_STEER v

/-- HOLDSEC as a read shows it: whole seconds in the present HOLD (R222). -/
def State.holdSec (s : State) : Nat :=
  if s.get Fld.TIM_STAT_STATE = 2 then min ((s.now - s.tim.holdAt) / secU) (2 ^ 32 - 1) else 0

/-! ### The event unit (R224 to R227, R261) -/

/-- The event unit of hamlet `h` changed; DEPTH shows its queue. -/
def State.setEvu (s : State) (h : Fin 8) (x : Evu) : State :=
  State.put { s with evu := s.evu.set h x } (Fld.EVT_STAT_DEPTH.h h) x.q.length

/-- An action is discarded as late (R225). -/
def lateAction (h : Fin 8) (s : State) : State :=
  ((s.inc ((Fld.EVT_CNTn_COUNT.i 0).h h)).put (Fld.EVT_STAT_LATE.h h) 1).notify h 0xFFFE

/-- The instant that SEC modulo 8, TICK and FINE name: the one within 4 s either side of now (R224). -/
def namedInstant (now sec8 tick fine : Nat) : Int :=
  let t : Int := (((now / (8 * secU) * 8 + sec8) * secU + tick * tickU + fine * fineU : Nat) : Int)
  let d : Int := t - now
  if d < -(4 * secU : Nat) then t + (8 * secU : Nat) else if ((4 * secU : Nat) : Int) ≤ d then t - (8 * secU : Nat) else t

/-- An action crosses into the event unit (R225, R261): queued, or late. `ra` and `rb` are the time operand's registers. -/
def crossAction (h : Fin 8) (ra rb arg : Nat) (s : State) : State :=
  let kind := rb / 2 ^ 24 % 8
  let t := namedInstant s.now (rb / 2 ^ 29 % 8) ra (rb / 4096 % 4096)
  if kind = 0 ∨ 4 < kind ∨ 491519999 < ra ∨ (kind = 3 ∧ 0xFFF0 ≤ arg % 65536) ∨ t < (s.now + 100 * nsU : Nat) then lateAction h s
  else s.setEvu h { s.evu[h] with q := s.evu[h].q ++ [⟨t.toNat, kind, arg⟩] }

/-- SCHED_ACTION_QUEUED (R261): the action that SCHED handed over crosses once the queue of 64 has room. -/
def execSchedActionQueued (h : Fin 8) (s : State) : Host.Outcome State Fault Refusal :=
  .next (match s.evu[h].cross with
    | none => s
    | some (ra, rb, arg) =>
      if 64 ≤ s.evu[h].q.length then s
      else crossAction h ra rb arg (s.setEvu h { s.evu[h] with cross := none }))

/-- The next action of a queue: the earliest, at equal instants the one queued first, so that the later governs (R226). -/
def firstAct : List EvAct → Option EvAct
  | [] => none
  | a :: t => match firstAct t with
    | none => some a
    | some b => if b.at0 < a.at0 then some b else some a

/-- Carries out the next action of hamlet `h` if it is of a kind: time moves to its instant. -/
def runEvent (h : Fin 8) (kind : Nat) (act : Nat → State → State) (s : State) : State :=
  match firstAct s.evu[h].q with
  | none => s
  | some a => if a.kind = kind then act a.arg ((s.setEvu h { s.evu[h] with q := eraseFirst (fun x => x == a) s.evu[h].q }).at a.at0) else s

/-- EVENT_ACTION_PINS (R224). -/
def execEventActionPins (h : Fin 8) (s : State) : Host.Outcome State Fault Refusal :=
  .next (runEvent h 1 (fun arg s => s.drivePins h (s.pinsOf h 4 &&& (arg / 65536 % 4096)) (arg % 4096)) s)

/-- EVENT_ACTION_ORX_TRIGGER (R224, R153): T is the scheduled instant. -/
def execEventActionOrxTrigger (h : Fin 8) (s : State) : Host.Outcome State Fault Refusal :=
  .next (runEvent h 2 (fun arg s => s.setOrx h { s.orx[h] with trigs := s.orx[h].trigs ++ [(s.now, arg % 16)] }) s)

/-- EVENT_ACTION_ENGINE_EVENT (R224). -/
def execEventActionEngineEvent (h : Fin 8) (s : State) : Host.Outcome State Fault Refusal :=
  .next (runEvent h 3 (fun arg s => s.notify h (arg % 65536)) s)

/-- EVENT_ACTION_DMA_TRIGGER (R224, R315). -/
def execEventActionDmaTrigger (h : Fin 8) (s : State) : Host.Outcome State Fault Refusal :=
  .next (runEvent h 4 (fun arg s => s.postEdge 1 h (arg % 8)) s)

/-- Who may own a timer (R227): 1 the hamlet's engine, 2 the Reeve, 0 nobody else. -/
def timerRole (r : Req) (h : Fin 8) : Nat := if r.id = h.val then 1 else if r.id = 16 then 2 else 0

/-- A write to a timer's CFG or PER register (R227). -/
def timerWrite (r : Req) (h : Fin 8) (n : Fin 4) (per : Bool) (v : Word) (s : State) : State :=
  let a := hamletBase h + (if per then Reg.EVT_TMRn_PER else Reg.EVT_TMRn_CFG) + 8 * n
  let own := s.get ((Fld.EVT_TMRn_CFG_OWNER.i n).h h)
  let me := timerRole r h
  if me = 0 ∨ (own ≠ 0 ∧ own ≠ me) then s.refuse4 r a
  else
    let s := s.storeReg r a v
    if per then s
    else
      let en := s.flag ((Fld.EVT_TMRn_CFG_EN.i n).h h)
      if en && own == 0 then
        (s.put ((Fld.EVT_TMRn_CFG_OWNER.i n).h h) me).setEvu h { s.evu[h] with tmr := s.evu[h].tmr.set n (nextAfter s.now msU, 0) }
      else if en then s else s.put ((Fld.EVT_TMRn_CFG_OWNER.i n).h h) 0

/-- EVT_TIMER_WRITE (R227). -/
def execEvtTimerWrite (r : Req) (h : Fin 8) (n : Fin 4) (per : Bool) (v : Word) (s : State) : Host.Outcome State Fault Refusal :=
  .next (regCmd r (hamletBase h + (if per then Reg.EVT_TMRn_PER else Reg.EVT_TMRn_CFG) + 8 * n) v (timerWrite r h n per v) s)

/-- The period of a timer in time units; values below 64 ticks act as 64. -/
def State.timerPeriod (s : State) (h : Fin 8) (n : Fin 4) : Nat := max 64 (s.get ((Fld.EVT_TMRn_PER_PERIOD.i n).h h)) * tickU

/-- The next instant of a timer: the first of T1 + n * PERIOD after `last` (R227). -/
def nextFire (t1 last p : Nat) : Nat := if last < t1 then t1 else t1 + ((last - t1) / p + 1) * p

/-- EVENT_TIMER_FIRE (R227). -/
def execEventTimerFire (h : Fin 8) (n : Fin 4) (s : State) : Host.Outcome State Fault Refusal :=
  .next (if s.flag ((Fld.EVT_TMRn_CFG_EN.i n).h h) then
      let x := s.evu[h].tmr[n]
      let t := nextFire x.1 x.2 (s.timerPeriod h n)
      let arg := s.get ((Fld.EVT_TMRn_CFG_ARG.i n).h h)
      let s := (s.at t).setEvu h { s.evu[h] with tmr := s.evu[h].tmr.set n (x.1, t) }
      if s.get ((Fld.EVT_TMRn_CFG_KIND.i n).h h) = 4 then s.postEdge 1 h (arg % 8) else s.notify h (0xFE00 + arg)
    else s)

/-- A read of `ENG_EVQ` returns and removes the head notification (R275). -/
def evqRead (h : Fin 8) (s : State) : Nat × State :=
  match s.evq[h] with
  | [] => (0, s)
  | c :: t => (2 ^ 31 + c % 65536, { s with evq := s.evq.set h t })

/-- ENG_EVQ_READ (R275). -/
def execEngEvqRead (r : Req) (h : Fin 8) (s : State) : Host.Outcome State Fault Refusal :=
  .next (readCmd r (hamletBase h + Reg.ENG_EVQ) (evqRead h) s)

/-- A read of `SYS_EVQ` returns and removes the Reeve's head notification (R488). -/
def sysEvqRead (s : State) : Nat × State :=
  match s.flt.evq with
  | [] => (0, s)
  | c :: t => (2 ^ 31 + c % 65536, { s with flt := { s.flt with evq := t } })

/-- SYS_EVQ_READ (R488). -/
def execSysEvqRead (r : Req) (s : State) : Host.Outcome State Fault Refusal := .next (readCmd r Reg.SYS_EVQ sysEvqRead s)

/-! ### The step (R221, R330) -/

/-- The timebase moves by `k` fine steps of the adjuster, which holds -2,048 to 2,047 (R330). -/
def movePhase (k : Int) (s : State) : State :=
  s.put Fld.CLK_PHADJ_PHASE (unsigned 12 (signed 12 (s.get Fld.CLK_PHADJ_PHASE) + k))

/-- An instant moved by an offset. -/
def shiftBy (d : Int) (t : Nat) : Nat := ((t : Int) + d).toNat

/-- Running intervals keep their length when device time steps: their instants move with it. -/
def shiftIntervals (d : Int) (s : State) : State :=
  let f := shiftBy d
  { s with
    mute := s.mute.map fun (m : Mute) => { m with start := f m.start }
    slt := s.slt.map fun (x : Slt) => { x with checkEnd := f x.checkEnd }
    dpd := s.dpd.map fun (x : Dpd) => { x with fadeEnd := x.fadeEnd.map f, fades := x.fades.map fun p => (f p.1, p.2) }
    tx := s.tx.map fun (x : Tx) => { x with
      rampEnd := x.rampEnd.map f
      forcedAt := f x.forcedAt
      counted := f x.counted
      resumeDue := none
      was := x.was.map fun (y : SetPend) => { y with due := f y.due }
      boWas := x.boWas.map fun y => (f y.1, y.2) }
    rx := s.rx.map fun (x : Rx) => { x with
      marks := x.marks.map fun (m : Mark) => { m with t0 := f m.t0, t1 := f m.t1 }
      zeroFrom := f x.zeroFrom
      zeros := x.zeros.map fun z => (f z.1, f z.2)
      counted := f x.counted
      resumeDue := none
      done := f x.done }
    bfm := s.bfm.map fun (x : Bfm) => { x with
      old := x.old.map fun (o : OldBeam) => { o with till := f o.till }
      was := x.was.map fun p => (f p.1, p.2)
      frozen := x.frozen.map fun i => (f i.1, f i.2)
      frozenAt := f x.frozenAt }
    rtc := { s.rtc with
      descs := s.rtc.descs.map fun (x : Desc) => { x with endAt := f x.endAt }
      cleared := s.rtc.cleared.map f }
    carWas := s.carWas.map fun p => (f p.1, p.2)
    prach := s.prach.map fun (x : Option Occasion) => x.map fun (o : Occasion) => { o with start := f o.start }
    prachOld := s.prachOld.map fun (l : List Occasion) => l.map fun (o : Occasion) => { o with start := f o.start }
    sto := s.sto.map fun (x : Sto) => { x with passAt := x.passAt.map f, scrubAt := x.scrubAt.map f }
    dl := { s.dl with syms := s.dl.syms.map fun (x : TxSymbol) => { x with air := f x.air }, done := f s.dl.done }
    flt := { s.flt with isoDue := s.flt.isoDue.map f }
    port := { s.port with unacked := s.port.unacked.map fun (x : IndSent) => { x with due := f x.due } }
    lnk := { s.lnk with
      tx := { s.lnk.tx with next := f s.lnk.tx.next, since := f s.lnk.tx.since }
      rx := { s.lnk.rx with since := f s.lnk.rx.since }
      trainAt := f s.lnk.trainAt
      frameAt := f s.lnk.frameAt
      retryDue := s.lnk.retryDue.map f
      ackAt := f s.lnk.ackAt
      lastDecode := f s.lnk.lastDecode
      failedAt := s.lnk.failedAt.map f
      resets := s.lnk.resets.map fun p => (p.1, f p.2) }
    tly := { s.tly with token := s.tly.token.map fun x => (x.1, x.2.1, f x.2.2) }
    wch := { s.wch with start := f s.wch.start, dwell := f s.wch.dwell, agcAt := f s.wch.agcAt }
    pll := s.pll.map fun (x : Pll) => { x with acqDue := x.acqDue.map f }
    tim := { s.tim with meas := s.tim.meas.map f, syncAt := f s.tim.syncAt, holdAt := f s.tim.holdAt }
    hpow := s.hpow.map fun (x : HPow) => { x with
      entry := x.entry.map fun (e : Entry) => { e with at0 := f e.at0 }
      wakeAt := x.wakeAt.map f
      rampAt := f x.rampAt }
    pow := { s.pow with outAt := f s.pow.outAt, stepAt := f s.pow.stepAt }
    thm := { s.thm with stopAt := s.thm.stopAt.map f, shedWas := (f s.thm.shedWas.1, s.thm.shedWas.2) }
    hk := { s.hk with extAt := s.hk.extAt.map f }
    bias := s.bias.map fun (x : Bias) => { x with
      step := x.step.map f
      sine := x.sine.map fun (w : Sine) => { w with t0 := f w.t0, stop := w.stop.map f } }
    cal := { s.cal with req := s.cal.req.map fun (x : Option CalReq) => x.map fun (q : CalReq) => { q with go := f q.go, last := f q.last, estAt := f q.estAt } }
    stl := { s.stl with entered := s.stl.entered.map f, rxAt := f s.stl.rxAt }
    bel := { s.bel with since := s.bel.since.map f, answer := s.bel.answer.map f }
    agt := { s.agt with sess := s.agt.sess.map fun (x : Sess) => { x with at0 := f x.at0 } }
    boot := { s.boot with devDue := s.boot.devDue.map f, retry := s.boot.retry.map f, upAt := f s.boot.upAt }
    calen := s.calen.rebase s.now (f s.now) }

/-- Hamlet `h` realigns its sample counters (R221, R335): ALIGNED clears, samples are zero until the realignment at the next whole millisecond at least
2 us on, and the resumption of R114 and R142. -/
def realign (h : Fin 8) (s : State) : State :=
  if !s.flag (Fld.PLL_STAT_LOCK.h h) then s
  else
    let s := (s.put (Fld.PLL_STAT_ALIGNED.h h) 0).forceZero h false
    let s := if s.hstate h = 3 then s.setHstate h 2 else s
    { s with pll := s.pll.set h { s.pll[h] with alignDue := some (nextMult (s.now + 2 * usU) msU) } }

/-- The datapath at a step in hamlet `h`: realignment, the end of a capture with END code 2, latched slot-table entries given up. -/
def stepHamlet (s : State) (h : Fin 8) : State :=
  let s := realign h s
  let s := match s.orx[h].cap with
    | some c => finishCapture h c 2 s
    | none => s
  { s with slt := s.slt.set h { s.slt[h] with latched := [] } }

/-- The event unit of hamlet `h` at a step (R226, R227): actions whose instants have passed are late; timers go on at the first instant of their
sequence at least 100 ns after the step. -/
def stepEvents (s : State) (h : Fin 8) : State :=
  let x := s.evu[h]
  let gone := x.q.filter fun a => decide (a.at0 < s.now)
  let s := s.setEvu h { x with
    q := x.q.filter fun a => decide (s.now ≤ a.at0)
    tmr := x.tmr.map fun p => (p.1, s.now + 100 * nsU - 1) }
  gone.foldl (fun s _ => lateAction h s) s

/-- What is left of a descriptor at a step now: its symbols whose air start precedes the step (R221). -/
def Desc.upTo (s : State) (d : Desc) : Option Desc :=
  let air (i : Nat) : Nat := s.airStart (s.car d.car) ⟨d.frame, d.sub, d.slot, i⟩
  let n := ((List.range d.numSym).filter fun i => decide (air (d.startSym + i) < s.now)).length
  if n = d.numSym then some d else if n = 0 then none else some { d with numSym := n, endAt := air (d.startSym + n) }

/-- The host port discards every descriptor, explicit-weight vector and downlink data item for symbols whose air start follows a step now (R221), formed symbols too. The bank
of the last reference slot before the step stays for the symbols already on air; the other's vectors are for the slot to come. -/
def stepDiscard (s : State) : State :=
  let c := s.car (s.eget Fld.LNK_WCFG_REFCAR)
  let b : Fin 2 := Fin.ofNat 2 (slotOfFrame c (slotBegin c.num c.ecp (s.now - 1)))
  let s := if s.rtc.cleared[b] = s.now then s else clearBank b s
  { s with
    rtc := { s.rtc with descs := s.rtc.descs.filterMap (Desc.upTo s), valid := [], held := [] }
    dl := { s.dl with
      cells := s.dl.cells.filter fun d => decide (s.airStart (s.car d.car) d.sym < s.now)
      syms := s.dl.syms.filter fun y => decide (y.air < s.now) } }

/-- Device time steps by an offset (R221): whole ticks, and the remainder in fine steps by the phase adjuster; then the datapath and the event units, in the
rule's order. -/
def applyStep (off : Int) (load : Bool) (s : State) : State :=
  let ticks := (off + tickU / 2).fdiv tickU
  let fine := (off - ticks * tickU + fineU / 2).fdiv fineU
  let d := ticks * tickU + fine * fineU
  let s := movePhase fine (shiftIntervals d (stepDiscard s))
  let s := { s with now := shiftBy d s.now }
  let s := if load then s else s.put Fld.TIM_STAT_STEPPED 1
  let s := if s.get Fld.TIM_STAT_STATE = 2 then s else s.put Fld.TIM_STAT_STATE (s.get Fld.TIM_STAT_STEPPED)
  let s := ((s.put Fld.TIM_STEPCTL_AUTH 0).put Fld.TIM_STAT_PEND 0).inc (Fld.TIM_CNTn_COUNT.i 3)
  let s := (s.put Fld.TLY_STAT_ALIGNED 0).put Fld.WCH_BT_MS_VALID 0
  let s := { s with tly := { s.tly with pulse := if s.tly.pulse = 0 then 0 else s.now, running := false } }
  let s := s.setTim { s.tim with
    step := none
    near := 0
    slew := 0
    fnoffDue := s.tim.fnoffDue.map fun t => if t < s.now then nextMult s.now secU else t }
  let s := (List.finRange 8).foldl stepHamlet (s.notifyLink Config.stepNumber 0xFF 0)
  (List.finRange 8).foldl stepEvents s

/-- TIME_STEP (R221): the scheduled step happens at its instant. -/
def execTimeStep (s : State) : Host.Outcome State Fault Refusal :=
  .next (match s.tim.step with
    | none => s
    | some (t, off, load) => applyStep off load (s.at t))

end Sys2Proof.Machine
end

