-- ==== Sys2Proof/Machine/Clocks.lean ====
section
/-!
DEFINITION. Clocks and PLLs (R327 to R340): the reference, the converter PLLs, the CLKOUT dividers, the Stile crystal.
-/

namespace Sys2Proof.Machine

/-! ### Converter PLLs (R331 to R335) -/

/-- Changes the PLL of hamlet `h`. -/
def State.setPll (s : State) (h : Fin 8) (x : Pll) : State := { s with pll := s.pll.set h x }

/-- An acquisition ends (R333): ACQ and ACQUIRING read 0. -/
def endAcq (h : Fin 8) (s : State) : State :=
  ((s.put (Fld.PLL_CTRL_ACQ.h h) 0).put (Fld.PLL_STAT_ACQUIRING.h h) 0).setPll h { s.pll[h] with acqDue := none, forced := false }

/-- LOCK and ALIGNED fall (R334): the paths are forced to zero and the capture ends with END code 2 (R142, R148, R159); an ACTIVE domain becomes
IDLE (R348). `quiet` drops lock deliberately: nothing is counted. -/
def dropLock (h : Fin 8) (quiet : Bool) (s : State) : State :=
  if !s.flag (Fld.PLL_STAT_LOCK.h h) then s
  else
    let s := (s.put (Fld.PLL_STAT_LOCK.h h) 0).put (Fld.PLL_STAT_ALIGNED.h h) 0
    let s := (((s.setPll h { s.pll[h] with alignDue := none }).forceZero h quiet).endCapture h 2).loseCal h fun k => k == 4 || k == 6 || k == 7
    if s.hstate h = 3 then s.setHstate h 2 else s

/-- The band-table index for a temperature in 0.125 degrees (R332). -/
def bandIndex (t : Int) : Nat := (min 63 (max 0 ((t + 320).fdiv 24))).toNat

/-- The nearest VALID entry of the band table, the lower one on a tie (R332). -/
def State.nearestBand (s : State) (h : Fin 8) (i : Nat) : Option Nat :=
  let dist (n : Nat) : Nat := if n ≤ i then i - n else n - i
  (List.range 64).foldl (fun (m : Option Nat) n =>
    if !s.flag ((Fld.PLL_BANDn_VALID.i n).h h) then m
    else match m with
      | none => some n
      | some k => if dist n < dist k then some n else m) none

/-- FAILED is set and 0x424 is raised; the PLL waits for ACQ (R332, R333). -/
def pllFailed (h : Fin 8) (s : State) : State :=
  let s := (endAcq h s).put (Fld.PLL_STAT_FAILED.h h) 1
  s.raise 0x424 h (s.rd (hamletBase h + Reg.PLL_STAT)).toNat

/-- The band of an attempt (R332, R333): the nearest valid one, or none is valid and the attempt fails at once. -/
def attemptBand (h : Fin 8) (t : Nat) (n : Option Nat) (s : State) : State :=
  match n with
  | none => pllFailed h ((s.put (Fld.PLL_STAT_NOBAND.h h) 1).inc ((Fld.PLL_CNTn_COUNT.i 2).h h))
  | some n =>
    let s := (s.put (Fld.PLL_STAT_IDX.h h) n).put (Fld.PLL_STAT_BAND.h h) (s.get ((Fld.PLL_BANDn_CODE.i n).h h))
    s.setPll h { s.pll[h] with
      acqDue := some (t + msU)
      win := min 10 (s.get (Fld.PLL_CFG_WIN.h h))
      nsel := min 12 (s.get (Fld.PLL_CFG_NSEL.h h)) }

/-- One attempt begins at `t` (R332, R333): T is the effective value of the hamlet's PLL sensor; the nearest valid band, or a failure at once; a
forced band has no limit. -/
def beginAttempt (h : Fin 8) (t : Nat) (s : State) : State :=
  let temp := signed 12 (s.get (Fld.THM_SENSn_EFF.i (10 * h.val + 8)))
  let s := ((s.put (Fld.PLL_STAT_ACQUIRING.h h) 1).put (Fld.PLL_CTRL_ACQ.h h) 1).put (Fld.PLL_STAT_TEMP.h h) (unsigned 8 (temp.fdiv 8))
  if s.flag (Fld.PLL_FORCE_EN.h h) then
    (s.put (Fld.PLL_STAT_BAND.h h) (s.get (Fld.PLL_FORCE_CODE.h h))).setPll h { s.pll[h] with acqDue := none, forced := true }
  else
    attemptBand h t (s.nearestBand h (bandIndex temp)) s

/-- An acquisition starts (R333): FAILED clears, the attempts are counted afresh; a calibration of the band table loses its precondition (R401). -/
def startAcq (h : Fin 8) (s : State) : State :=
  if !s.flag (Fld.PLL_CTRL_EN.h h) then s
  else (beginAttempt h s.now ((s.put (Fld.PLL_STAT_FAILED.h h) 0).setPll h { s.pll[h] with tries := 0 })).loseCal h fun k => k == 3

/-- A write to `PLL_CTRL` (R333, R334). -/
def pllCtrlWrite (r : Req) (h : Fin 8) (v : Word) (s : State) : State :=
  let a := hamletBase h + Reg.PLL_CTRL
  let was := s.flag (Fld.PLL_CTRL_EN.h h)
  let s := s.storeReg r a (v &&& 0x7FFFFFFF#32)
  let en := s.flag (Fld.PLL_CTRL_EN.h h)
  let off := s.flag (Fld.PLL_STAT_LOCK.h h)
  let s := if was && !en then
      let s := (dropLock h true (endAcq h s)).loseCal h fun k => k == 3
      s.setPll h { s.pll[h] with off := s.pll[h].off || off }
    else s
  if !v.getLsbD 31 then s
  else if !en then s.refuse4 r a
  else if s.pll[h].forced then s
  else startAcq h (dropLock h true s)

/-- PLL_ACQ (R333). -/
def execPllAcq (r : Req) (h : Fin 8) (v : Word) (s : State) : Host.Outcome State Fault Refusal :=
  .next (regCmd r (hamletBase h + Reg.PLL_CTRL) v (pllCtrlWrite r h v) s)

/-- PLL_DISABLE (R334): the write that clears EN. -/
def execPllDisable (r : Req) (h : Fin 8) (v : Word) (s : State) : Host.Outcome State Fault Refusal :=
  .next (regCmd r (hamletBase h + Reg.PLL_CTRL) v (pllCtrlWrite r h v) s)

/-- A write to `PLL_FORCE` (R333): during a forced acquisition CODE moves the band at once, and clearing EN ends it. -/
def pllForceWrite (r : Req) (h : Fin 8) (v : Word) (s : State) : State :=
  let s := s.storeReg r (hamletBase h + Reg.PLL_FORCE) v
  if !s.pll[h].forced then s
  else if s.flag (Fld.PLL_FORCE_EN.h h) then s.put (Fld.PLL_STAT_BAND.h h) (s.get (Fld.PLL_FORCE_CODE.h h))
  else endAcq h s

/-- PLL_LOCK_DECLARED (R333, R335): lock is declared at `t` within the attempt's 1 ms; the alignment is due at the first whole millisecond at least 2 us
later. After a write that cleared EN, UNLOCKED reads 0 from the lock on (R334). Without REFIN after a fall-back of the wake none locks (R361). -/
def execPllLockDeclared (h : Fin 8) (t : Nat) (s : State) : Host.Outcome State Fault Refusal :=
  .next (match s.pll[h].acqDue with
    | none => s
    | some d =>
      if s.pow.refOff then s else
      let s := endAcq h ((s.at (min t d)).put (Fld.PLL_STAT_LOCK.h h) 1)
      let s := if s.pll[h].off then (s.put (Fld.TXC_STAT_UNLOCKED.h h) 0).put (Fld.RXC_STAT_UNLOCKED.h h) 0 else s
      s.setPll h { s.pll[h] with tries := 0, off := false, alignDue := some (nextMult (s.now + 2 * usU) msU) })

/-- PLL_ACQ_TIMEOUT (R333): the attempt's 1 ms has run out; the third failure in a row sets FAILED. -/
def execPllAcqTimeout (h : Fin 8) (s : State) : Host.Outcome State Fault Refusal :=
  .next (match s.pll[h].acqDue with
    | none => s
    | some d =>
      let s := (s.at d).inc ((Fld.PLL_CNTn_COUNT.i 2).h h)
      let s := s.setPll h { s.pll[h] with tries := s.pll[h].tries + 1 }
      if 3 ≤ s.pll[h].tries then pllFailed h s else beginAttempt h d s)

/-- A loss of lock (R334, R114, R142): LOL, UNLOCK, one count, one notice 0x423 with its indication for both chains; AUTO reacquires. -/
def loseLock (h : Fin 8) (s : State) : State :=
  if !s.flag (Fld.PLL_STAT_LOCK.h h) then s
  else
    let s := ((dropLock h false s).put (Fld.PLL_STAT_LOL.h h) 1).inc ((Fld.PLL_CNTn_COUNT.i 0).h h)
    let s := (s.put (Fld.TXC_STAT_UNLOCK.h h) 1).put (Fld.RXC_STAT_UNLOCK.h h) 1
    let s := s.raiseSev 0x423 0 h 0 true
    if s.flag (Fld.PLL_CTRL_AUTO.h h) then startAcq h s else s

/-- PLL_LOSS_OF_LOCK (R334): at `t` the phase error has been outside the window for 4 cycles. -/
def execPllLossOfLock (h : Fin 8) (t : Nat) (s : State) : Host.Outcome State Fault Refusal := .next (loseLock h (s.at t))

/-- PLL_SLIP (R334). -/
def execPllSlip (h : Fin 8) (s : State) : Host.Outcome State Fault Refusal :=
  .next (if s.flag (Fld.PLL_STAT_LOCK.h h) then s.inc ((Fld.PLL_CNTn_COUNT.i 1).h h) else s)

/-- PLL_TUNING_MARGIN (R333, R334): the tuning voltage reads `mv` at `t`; outside 150 to 850 mV while locked it sets MARGIN and raises 0x425, and
a forced acquisition shows it in VTUNE. -/
def execPllTuningMargin (h : Fin 8) (mv t : Nat) (s : State) : Host.Outcome State Fault Refusal :=
  .next (
    let s := (s.at t).put (Fld.PLL_FORCE_VTUNE.h h) mv
    if s.flag (Fld.PLL_STAT_LOCK.h h) && (decide (mv < 150) || decide (850 < mv)) then
      let s := s.put (Fld.PLL_STAT_MARGIN.h h) 1
      s.raise 0x425 h (s.rd (hamletBase h + Reg.PLL_STAT)).toNat
    else s)

/-- The instant at which a change that waited at `due` takes effect when the converter clock resumes at `d`: the first half-subframe boundary after that (R343). -/
def resumeDue (d due : Nat) : Nat := if due ≤ d then nextAfter d halfU else due

/-- A swap request that waited while the converter clock stood still (R343): one for a boundary takes the next boundary, one for an instant that has passed acts at once. -/
def SwapReq.resumed (q : SwapReq) (d : Nat) : SwapReq := { q with due := if q.whenCode = 1 then resumeDue d q.due else max d q.due }

/-- What waited for the converter clock of hamlet `h` gets its instants anew as the clock resumes at `d` (R343): settings, corrections, backoff, mute ramps, swaps and fades. -/
def resumeClock (h : Fin 8) (d : Nat) (s : State) : State :=
  let mine (i : Nat) : Bool := i / 8 == h.val
  let swap (q : Option SwapReq) : Option SwapReq := q.map fun x => x.resumed d
  { s with
    tx := s.tx.set h { s.tx[h] with
      sets := s.tx[h].sets.map fun y => { y with due := resumeDue d y.due }
      cfr := swap s.tx[h].cfr }
    cal := { s.cal with next := s.cal.next.map fun c => if c.2.1 / 256 == h.val then (resumeDue d c.1, c.2) else c }
    thm := { s.thm with boDue := s.thm.boDue.set h (s.thm.boDue[h].map fun x => (resumeDue d x.1, x.2)) }
    mute := s.mute.mapFinIdx fun i m _ => if mine i then { m with pend := m.pend.map fun x => (resumeDue d x.1, x.2) } else m
    txSwap := s.txSwap.mapFinIdx fun i q _ => if mine i then swap q else q
    rxSwap := s.rxSwap.mapFinIdx fun i q _ => if mine i then swap q else q
    dpd := s.dpd.mapFinIdx fun i x _ => if mine i then { x with pend := swap x.pend } else x }

/-- PLL_ALIGN (R335, R343): at its whole millisecond ALIGNED is set; the DAC clock is gated on with zero code, the paths resume under R114 and R142, an IDLE domain becomes ACTIVE, a hamlet that
had been OFF or in RETAIN returns to service at the first frame boundary (R348, R349), and what waited for the clock gets its boundary. -/
def execPllAlign (h : Fin 8) (s : State) : Host.Outcome State Fault Refusal :=
  .next (match s.pll[h].alignDue with
    | none => s
    | some d =>
      let s := ((s.at d).put (Fld.PLL_STAT_ALIGNED.h h) 1).setPll h { s.pll[h] with alignDue := none }
      let s := if s.tx[h].forced ∧ s.bist.target ≠ some h.val then
          { s with tx := s.tx.set h { s.tx[h] with dacGated := false, resumeDue := some (nextMult (s.now + 10 * usU) halfU) } }
        else s
      let s := if s.rx[h].forced ∧ s.bist.target ≠ some h.val then { s with rx := s.rx.set h { s.rx[h] with resumeDue := some (s.now + 10 * usU) } } else s
      let s := resumeClock h s.now (if s.hstate h = 2 then s.setHstate h 3 else s)
      match s.rejoin[h] with
      | some b => if notActive / 2 ≤ b then { s with rejoin := s.rejoin.set h (some (nextMult s.now frameU)) } else s
      | none => s)

/-! ### The reference (R329, R336) -/

/-- REFIN_LOSS (R329): at `t` four REFIN cycles have passed without an edge. -/
def execRefinLoss (t : Nat) (s : State) : Host.Outcome State Fault Refusal :=
  .next (
    let s := s.at t
    if !s.flag Fld.CLK_REF_PRESENT then s
    else
      let s := ((s.put Fld.CLK_REF_PRESENT 0).put Fld.CLK_REF_REFLOST 1).put Fld.CLK_UPLL_HOLDOVER 1
      let s := (lpllLost s).raise 0x440 0xFF 0
      (List.finRange 8).foldl (fun s h => loseLock h s) s)

/-- REFIN_REQUALIFIED (R329): after 1 ms of edges the tree returns to REFIN at a tick boundary; the utility PLL relocks and the Lanied PLL locks
again. -/
def execRefinRequalified (t : Nat) (s : State) : Host.Outcome State Fault Refusal :=
  .next (
    let s := s.at (nextMult t tickU)
    if s.flag Fld.CLK_REF_PRESENT || s.pow.refOff then s
    else
      let s := ((s.put Fld.CLK_REF_PRESENT 1).put Fld.CLK_UPLL_HOLDOVER 0).put Fld.CLK_UPLL_LOCK 1
      if s.flag Fld.CLK_LPLL_LOCK then s else lpllLocked s)

/-! ### CLKOUT (R337, R338) -/

/-- The rate of the spread's triangle in Hz (R338): 30 kHz + 0.5 kHz * SSRATE, 7 to 15 as 6. -/
def spreadRate (cfg : Word) : Nat := 30000 + 500 * min 6 (getBits Fld.CLK_OUTn_CFG_SSRATE cfg)

/-- The lower and upper end of the frequency under spread, in 1/800 of f (R338): downward by 0.25 % a step, centred by 0.125 %; SSDEPTH 8 to 15 as 7, SSMODE 3 as 0. -/
def spreadRange (cfg : Word) : Nat × Nat :=
  let d := min 7 (getBits Fld.CLK_OUTn_CFG_SSDEPTH cfg) + 1
  match getBits Fld.CLK_OUTn_CFG_SSMODE cfg with
  | 1 => (800 - 2 * d, 800)
  | 2 => (800 - d, 800 + d)
  | _ => (800, 800)

/-- The frequency under spread, `t` after a trough of the triangle, in 1/(800 * secU) of f (R338; log 135: the phase of the triangle is not stated). -/
def spreadAt (cfg : Word) (t : Nat) : Nat :=
  let r := spreadRange cfg
  let x := t * spreadRate cfg % secU
  r.1 * secU + (r.2 - r.1) * min (2 * x) (2 * (secU - x))

/-- The frequency of a running CLKOUT pin, `t` after a trough of its spread, as a fraction of Hz (R337, R338); none while the output stands low. -/
def State.clkOutFreq (s : State) (n : Fin 4) (t : Nat) : Option (Nat × Nat) :=
  let cfg := s.rd (Reg.CLK_OUTn_CFG + 16 * n)
  let div := s.rd (Reg.CLK_OUTn_DIV + 16 * n)
  if getBits Fld.CLK_OUTn_CFG_EN cfg = 0 || s.clkOut[n].restart.isSome then none
  else some (5898240000 * 1048576 * spreadAt cfg t, (getBits Fld.CLK_OUTn_DIV_DIVI div * 1048576 + getBits Fld.CLK_OUTn_DIV_DIVF div) * 800 * secU)

/-- Does a CLKOUT setting stay within the limits of R337: DIVI from 8 to 589, the output with the upper extreme of a centred spread at most 750 MHz
(LVDS) or 250 MHz (CMOS)? -/
def clkOutAllowed (cfg div : Word) : Bool :=
  let divi := getBits Fld.CLK_OUTn_DIV_DIVI div
  let den := divi * 1048576 + getBits Fld.CLK_OUTn_DIV_DIVF div
  let limit := if getBits Fld.CLK_OUTn_CFG_MODE cfg = 1 then 250000000 else 750000000
  decide (8 ≤ divi) && decide (divi ≤ 589) && decide (5898240000 * 1048576 * (spreadRange cfg).2 ≤ limit * den * 800)

/-- A write to a CLKOUT register (R337): outside the limits it is recorded with reason 4; an accepted write while EN is 1 stops and restarts the
output, aligned to the next whole millisecond where ALIGN asks for it. -/
def clkOutWrite (r : Req) (n : Fin 4) (div : Bool) (v : Word) (s : State) : State :=
  let ca := Reg.CLK_OUTn_CFG + 16 * n
  let da := Reg.CLK_OUTn_DIV + 16 * n
  let a := if div then da else ca
  let s1 := s.storeReg r a v
  if !clkOutAllowed (s1.rd ca) (s1.rd da) then s.refuse4 r a
  else
    let cfg := s1.rd ca
    let align := getBits Fld.CLK_OUTn_CFG_ALIGN cfg = 1 ∧ (getBits Fld.CLK_OUTn_CFG_SSMODE cfg = 0 ∨ getBits Fld.CLK_OUTn_CFG_SSMODE cfg = 3)
      ∧ getBits Fld.CLK_OUTn_DIV_DIVF (s1.rd da) = 0
    let x : ClkOut := if getBits Fld.CLK_OUTn_CFG_EN cfg = 0 then {}
      else if align then ⟨some (nextAfter s.now msU), true⟩ else {}
    { s1 with clkOut := s1.clkOut.set n x }

/-- CLKOUT_RECONFIGURE (R337): a write to `CLK_OUTn_DIV` or `CLK_OUTn_CFG`. -/
def execClkoutReconfigure (r : Req) (n : Fin 4) (div : Bool) (v : Word) (s : State) : Host.Outcome State Fault Refusal :=
  .next (regCmd r ((if div then Reg.CLK_OUTn_DIV else Reg.CLK_OUTn_CFG) + 16 * n) v (clkOutWrite r n div v) s)

/-- CLKOUT_ALIGN (R337): at the whole millisecond the divider restarts with a rising edge. -/
def execClkoutAlign (n : Fin 4) (s : State) : Host.Outcome State Fault Refusal :=
  .next (match s.clkOut[n].restart with
    | none => s
    | some d => { s.at d with clkOut := s.clkOut.set n ⟨none, true⟩ })

/-- STILE_XO_FAIL (R340, R438, R445, R448): no oscillation within 1 ms of a request: XOFAIL, notice 0x474, Sleep; a latched TX is aborted with LASTRES 4. The request is a
command's, the Hearth answer's, which is then not sent, or, from Sleep in STANDBY, that of Bell's tuning before an entry to LISTEN, which keeps the last tuning. -/
def execStileXoFail (t : Nat) (s : State) : Host.Outcome State Fault Refusal :=
  .next (
    let s := s.at t
    let failed (s : State) : State := ((s.put Fld.STL_STAT_XOFAIL 1).put Fld.STL_STAT_STATE 0).raise 0x474 0xFF 0
    if s.bel.answer.isSome then
      let s := { s with bel := { s.bel with answer := none } }
      if s.pow.down = 0 then failed s else s
    else if s.get Fld.STL_STAT_STATE = 0 ∧ s.pow.down = 0 then failed s
    else if s.get Fld.STL_STAT_STATE ≠ 5 then s
    else
      let s := failed s
      let s := { s with stl := { s.stl with goal := 0, entered := none, lock := false } }
      if s.flag Fld.STL_STAT_LATCHED then
        ((s.put Fld.STL_STAT_LATCHED 0).put Fld.STL_STAT_LASTRES 4).inc (Fld.STL_CNTn_COUNT.i 5)
      else s)

end Sys2Proof.Machine
end

