-- ==== Sys2Proof/Machine/EngCore.lean ====
section
/-!
DEFINITION. The register side of a Wimako engine (R241 to R254): banks, writes on their way, the delay slot, STATUS, and the retirement
of an instruction.
-/

namespace Sys2Proof.Machine

/-! ### Registers and banks (R241, R246) -/

/-- The bank of the current level. -/
def Eng.bk (x : Eng) : EngBank := x.bank[x.lvl]

/-- The bank of the current level changed. -/
def Eng.setBk (x : Eng) (b : EngBank) : Eng := { x with bank := x.bank.set x.lvl b }

/-- A general register; g0 reads as zero (R241). -/
def Eng.getG (x : Eng) (n : Fin 32) : Word :=
  if n.val = 0 then 0 else if h : n.val < 16 then x.g[n.val] else x.bk.g[n.val - 16]'(by omega)

/-- A general register written; writes to g0 are discarded (R241). -/
def Eng.setG (x : Eng) (n : Fin 32) (v : Word) : Eng :=
  if n.val = 0 then x else if h : n.val < 16 then { x with g := x.g.set n.val v }
  else x.setBk { x.bk with g := x.bk.g.set (n.val - 16) v (by omega) }

/-- Address register `n`. -/
def Eng.getA (x : Eng) (n : Fin 8) : Word := if h : n.val < 4 then x.a[n.val] else x.bk.a[n.val - 4]'(by omega)

/-- Address register `n` written. -/
def Eng.setA (x : Eng) (n : Fin 8) (v : Word) : Eng :=
  if h : n.val < 4 then { x with a := x.a.set n.val v } else x.setBk { x.bk with a := x.bk.a.set (n.val - 4) v (by omega) }

/-- Offset register `n`. -/
def Eng.getM (x : Eng) (n : Fin 8) : Word := if h : n.val < 4 then x.m[n.val] else x.bk.m[n.val - 4]'(by omega)

/-- Offset register `n` written. -/
def Eng.setM (x : Eng) (n : Fin 8) (v : Word) : Eng :=
  if h : n.val < 4 then { x with m := x.m.set n.val v } else x.setBk { x.bk with m := x.bk.m.set (n.val - 4) v (by omega) }

/-- Length register `n`. -/
def Eng.getL (x : Eng) (n : Fin 8) : BitVec 24 := if h : n.val < 4 then x.l[n.val] else x.bk.l[n.val - 4]'(by omega)

/-- Has length register `n` been written since the last post-modify of its address register (R251)? -/
def Eng.getLw (x : Eng) (n : Fin 8) : Bool := if h : n.val < 4 then x.lw[n.val] else x.bk.lw[n.val - 4]'(by omega)

/-- That mark set. -/
def Eng.setLw (x : Eng) (n : Fin 8) (v : Bool) : Eng :=
  if h : n.val < 4 then { x with lw := x.lw.set n.val v } else x.setBk { x.bk with lw := x.bk.lw.set (n.val - 4) v (by omega) }

/-- Length register `n` written. -/
def Eng.setL (x : Eng) (n : Fin 8) (v : BitVec 24) : Eng :=
  Eng.setLw (if h : n.val < 4 then { x with l := x.l.set n.val v } else x.setBk { x.bk with l := x.bk.l.set (n.val - 4) v (by omega) }) n true

/-- The length that the last circular post-modify of register `n` used (R251). -/
def Eng.getLin (x : Eng) (n : Fin 8) : BitVec 24 := if h : n.val < 4 then x.lin[n.val] else x.bk.lin[n.val - 4]'(by omega)

/-- That length set. -/
def Eng.setLin (x : Eng) (n : Fin 8) (v : BitVec 24) : Eng :=
  if h : n.val < 4 then { x with lin := x.lin.set n.val v } else x.setBk { x.bk with lin := x.bk.lin.set (n.val - 4) v (by omega) }

/-- The register that SEL names (R247): a_n, m_n or l_n. -/
def Eng.getX (x : Eng) (sel : Fin 3) (n : Fin 8) : Word :=
  match sel with
  | 0 => x.getA n
  | 1 => x.getM n
  | 2 => (x.getL n).setWidth 32

/-- The register that SEL names, written. -/
def Eng.setX (x : Eng) (sel : Fin 3) (n : Fin 8) (v : Word) : Eng :=
  match sel with
  | 0 => x.setA n v
  | 1 => x.setM n v
  | 2 => x.setL n (v.setWidth 24)

/-- Accumulator `n`. -/
def Eng.getAcc (x : Eng) (n : Fin 4) : Acc := if h : n.val < 2 then x.acc[n.val] else x.bk.acc[n.val - 2]'(by omega)

/-- Accumulator `n` written. -/
def Eng.setAcc (x : Eng) (n : Fin 4) (v : Acc) : Eng :=
  if h : n.val < 2 then { x with acc := x.acc.set n.val v } else x.setBk { x.bk with acc := x.bk.acc.set (n.val - 2) v (by omega) }

/-- FLG of the current level. -/
def Eng.flg (x : Eng) : BitVec 16 := x.bk.flg

/-- FLG of the current level written. -/
def Eng.setFlg (x : Eng) (v : BitVec 16) : Eng := x.setBk { x.bk with flg := v }

/-! ### Parts of an accumulator (R257) -/

/-- Part `p` of an accumulator as MFACC moves it. -/
def Acc.part (a : Acc) (p : Nat) : Word :=
  let re := unsigned 40 a.re
  let im := unsigned 40 a.im
  if p = 0 then BitVec.ofNat 32 re
  else if p = 1 then BitVec.ofNat 32 im
  else BitVec.ofNat 32 (re / 2 ^ 32 + im / 2 ^ 32 * 256)

/-- An accumulator with part `p` replaced, as MTACC does. -/
def Acc.setPart (a : Acc) (p : Nat) (v : Word) : Acc :=
  let re := unsigned 40 a.re
  let im := unsigned 40 a.im
  if p = 0 then { a with re := signed 40 (re / 2 ^ 32 * 2 ^ 32 + v.toNat) }
  else if p = 1 then { a with im := signed 40 (im / 2 ^ 32 * 2 ^ 32 + v.toNat) }
  else ⟨signed 40 (re % 2 ^ 32 + v.toNat % 256 * 2 ^ 32), signed 40 (im % 2 ^ 32 + v.toNat / 256 % 256 * 2 ^ 32)⟩

/-! ### The exposed pipeline (R252, R253) -/

/-- One write lands. -/
def Eng.land (x : Eng) : EngWrite → Eng
  | .g n v => x.setG n v
  | .x sel n v => x.setX sel n v
  | .acc n v => x.setAcc n v
  | .part n p v => x.setAcc n ((x.getAcc n).setPart p v)

/-- An instruction retires with its writes, each with its delay D: what is due lands in program order, the rest comes one instruction nearer
(R252, R253). -/
def Eng.tick (x : Eng) (new : List (Nat × EngWrite)) : Eng :=
  let ws := x.writes ++ new
  ((ws.filter fun w => w.1 == 0).foldl (fun x w => x.land w.2) { x with
    writes := (ws.filter fun w => w.1 != 0).map fun w => (w.1 - 1, w.2) })

/-- Outstanding writes drain (R255, R267): in the order in which they would land. -/
def Eng.drain (x : Eng) : Eng :=
  (List.range 4).foldl (fun y k => (x.writes.filter fun w => w.1 == k).foldl (fun y w => y.land w.2) y) { x with writes := [] }

/-- The PC after an instruction: the branch's target after a delay slot (R254), else the next word. -/
def Eng.step1 (x : Eng) : Eng :=
  match x.slot with
  | some b => { x with pc := b.target, slot := none }
  | none => { x with pc := (x.pc + 4) % 2 ^ 32 }

/-! ### STATUS (R270) -/

/-- The fields of STATUS as they stand. -/
def Eng.status (x : Eng) : Status := ⟨x.te, x.exc, x.priv, x.ppriv, x.lvl, x.ie1, x.ie2, x.mexc⟩

/-- STATUS restored. -/
def Eng.setStatus (x : Eng) (v : Status) : Eng :=
  { x with te := v.te, exc := v.exc, priv := v.priv, ppriv := v.ppriv, lvl := v.lvl, ie1 := v.ie1, ie2 := v.ie2, mexc := v.mexc }

/-- The word of STATUS. -/
def Status.word (v : Status) : Word :=
  BitVec.ofNat 32 (b2n v.te * 2 ^ 15 + b2n v.exc * 2 ^ 14 + v.priv % 4 * 2 ^ 12 + v.ppriv % 4 * 2 ^ 10 + v.lvl.val * 2 ^ 8
    + b2n v.ie2 * 4 + b2n v.ie1 * 2)

/-! ### Leaving a wait (R262) -/

/-- A WAIT ends: rd takes `v`, and the instruction retires. -/
def Eng.endWait (x : Eng) (rd : Fin 32) (v : Word) : Eng := ({ x with wait := none }.tick [(0, .g rd v)]).step1

end Sys2Proof.Machine
end

