-- ==== Sys2Proof/Machine/Power.lean ====
section
/-!
DEFINITION. Power domains (R345 to R358): the hamlet rails, the votes and the entry of a hamlet to RETAIN or OFF, its wake up to the point at which the
domain is accessible, hamlet reset, and the entry of the device to KEEP or LISTEN.
-/

namespace Sys2Proof.Machine

/-! ### The hamlet rail (R346) -/

/-- Changes the power side of hamlet `h`. -/
def State.setHpow (s : State) (h : Fin 8) (x : HPow) : State := { s with hpow := s.hpow.set h x }

/-- The rail ramps from where it is now; `act` changes its target. -/
def reramp (h : Fin 8) (act : State → State) (s : State) : State :=
  let mv := s.railUv h s.now / 1000
  let s := act s
  s.setHpow h { s.hpow[h] with rampMv := mv, rampAt := s.now }

/-- A write to `PWR_HLDOh` (R346): VSET from 5 to 20. -/
def vsetWrite (r : Req) (h : Fin 8) (v : Word) (s : State) : State :=
  let a := Reg.PWR_HLDOh + 4 * h
  let x := getBits Fld.PWR_HLDOh_VSET v
  if x < 5 ∨ 20 < x then s.refuse4 r a else reramp h (fun s => s.storeReg r a v) s

/-- LDO_VSET_WRITE (R346). -/
def execLdoVsetWrite (r : Req) (h : Fin 8) (v : Word) (s : State) : Host.Outcome State Fault Refusal :=
  .next (regCmd r (Reg.PWR_HLDOh + 4 * h) v (vsetWrite r h v) s)

/-! ### Hamlet reset and power-off (R7, R285, R302, R348) -/

/-- What hamlet `h` holds outside its registers and its store returns to its reset value. DESIGN CHOICE (log 138): a fade that runs ends with its registers, without DONE or
0xFFF4 (R7, R112). -/
def clearHamlet (h : Fin 8) (s : State) : State :=
  { s with
    evq := s.evq.set h []
    bfm := s.bfm.set h {}
    slt := s.slt.set h {}
    tx := s.tx.set h {}
    rx := s.rx.set h {}
    orx := s.orx.set h {}
    evu := s.evu.set h {}
    pll := s.pll.set h {}
    txSwap := s.txSwap.mapFinIdx fun i x _ => if i / 8 = h.val then none else x
    rxSwap := s.rxSwap.mapFinIdx fun i x _ => if i / 8 = h.val then none else x
    mute := s.mute.mapFinIdx fun i x _ => if i / 8 = h.val then {} else x
    dpd := s.dpd.mapFinIdx fun i x _ => if i / 8 = h.val then {} else x
    dma := s.dma.mapFinIdx fun i x _ => if i / 8 = h.val then {} else x
    dmaPtr := s.dmaPtr.set h 7
    eng := s.eng.set (hEng h) {}
    edges := s.edges.filter fun e => e.2.1 != h.val }

/-- Is an address in the window of hamlet `h`? -/
def inHamlet (h : Fin 8) (a : Nat) : Bool := hamletOf a == some h

/-- The paths of hamlet `h` carry nothing until its converter PLL is aligned (R30); UNLOCKED keeps its reset value, since no lock has been lost (R7, R114). -/
def darkHamlet (h : Fin 8) (s : State) : State :=
  let s := ((s.forceZero h true).put (Fld.TXC_STAT_UNLOCKED.h h) 0).put (Fld.RXC_STAT_UNLOCKED.h h) 0
  { s with flt := { s.flt with pinSafe := s.flt.pinSafe.set h (s.bit Fld.FLT_STAT_ISO h) } }

/-- Agate's protection of hamlet `h`'s program ends and `AGT_HIMGh` clears (R462). -/
def unprotect (h : Fin 9) (s : State) : State :=
  { s.wr (Reg.AGT_HIMGh + 4 * h) 0#32 with agt := { s.agt with prot := s.agt.prot.set h none } }

/-- Hamlet reset (R7, R285, R293, R302, R324, R462): every register of the hamlet at its reset value but `STO_REPAIRn`; the locks held at that moment are freed broken, and stay
so; the requests of the hamlet's own requesters are removed; the store keeps its contents; the engine is halted. -/
def hamletReset (h : Fin 8) (s : State) : State :=
  let broken := s.rd (Fld.LCK_HELD_HELD.h h).reg
  let s := (s.breakLocks h [1, 2, 3, 4, 5]).maskRequesters ⟨h.val, by omega⟩ [0, 1, 2, 3, 4]
  let keep (a : Nat) : Bool := decide (hamletBase h + Reg.STO_REPAIRn ≤ a) && decide (a < hamletBase h + Reg.STO_REPAIRn + 512)
  let s := clearHamlet h (s.resetRegs fun a => inHamlet h a && !keep a)
  let s := (List.range 32).foldl (fun s n => if broken.getLsbD n then s.put ((Fld.LCK_n_BROKEN.i n).h h) 1 else s)
    (s.wr (Fld.LCK_BROKEN_BROKEN.h h).reg broken)
  let s := if s.hstate h = 3 then s.setHstate h 2 else s
  darkHamlet h (unprotect ⟨h.val, by omega⟩ s)

/-- The contents of hamlet `h` are lost (R348): registers, store, engine. The locks of the engine have been freed broken (R353). -/
def loseHamlet (h : Fin 8) (s : State) : State :=
  let s := (s.breakLocks h [1, 2, 3, 4, 5]).loseCal h fun _ => true
  let s := clearHamlet h ((s.resetRegs (inHamlet h)).clearMem (inHamlet h))
  let s := { s with
    ecc := s.ecc.filter fun e => !inHamlet h e.word
    sto := s.sto.set h.val {} (by omega)
    hpow := s.hpow.set h {}
    rejoin := s.rejoin.set h (some notActive) }
  biasDomain h false (unprotect ⟨h.val, by omega⟩ ((s.put (Fld.PWR_HSTATE_BUSY.sub h) 0).setHstate h 0))

/-! ### The votes (R351, R352) -/

/-- Is a channel of the DMA engine not STOPPED? -/
def State.dmaBusy (s : State) (h : Fin 8) : Bool := (List.range 8).any fun c => s.get ((Fld.DMA_CHn_STAT_STATE.i c).h h) != 0

/-- Is a filter, pulse or DPD swap of hamlet `h` PEND, HELD or fading, or a path not muted (voter 0x05)? -/
def State.txBusy (s : State) (h : Fin 8) : Bool :=
  s.get (Fld.TXC_STAT_MUTED.h h) != 0xFF || s.get (Fld.TXC_FSTAT_PEND.h h) != 0 || s.flag (Fld.TXC_CFR_STAT_PEND.h h)
    || (List.range 8).any fun k => s.flag ((Fld.DPD_STATk_PEND.i k).h h) || s.flag ((Fld.DPD_STATk_HELD.i k).h h)
      || (s.dpd[idx64 h k]).fadeEnd.isSome

/-- The first voter of a hamlet entry that refuses, in the order of the table of R352; none when all quiesce. A supervisor's request that stands refuses first. In RETAIN every
voter is quiesced already. -/
def State.hamletVote (s : State) (h : Fin 8) (off : Bool) : Option Nat :=
  if s.flt.isoStep[h] != 0 || s.flag Fld.THM_STAT_STOPPING then some 0x3F
  else if s.hstate h < 2 then none
  else if s.flag (Fld.SLT_CTRL_ENABLE.h h) || s.flag (Fld.SLT_STAT_PEND.h h) || s.flag (Fld.SLT_STAT_CHECKING.h h) then some 1
  else if !s.evu[h].q.isEmpty || s.evu[h].cross.isSome || (List.range 4).any (fun n => s.flag ((Fld.EVT_TMRn_CFG_EN.i n).h h)) then some 2
  else if off && s.dmaBusy h then some 3
  else if s.get (Fld.ORX_STAT_OWNER.h h) != 0 then some 4
  else if s.txBusy h then some 5
  else if (biasOf h).any s.biasBusy then some 6
  else if (List.range 32).any (fun n => 4 ≤ s.get ((Fld.LCK_n_OWNER.i n).h h)) then some 7
  else if s.flag (Fld.STO_STAT_REPBUSY.h h) then some 9
  else none

/-- A refusal is counted and captured under the rule of R47 (R351). -/
def refuseEntry (target h id : Nat) (s : State) : State :=
  let s := s.inc Fld.PWR_REFUSE_CNT_COUNT
  if s.flag Fld.PWR_REFUSER_VALID then s
  else s.wr Reg.PWR_REFUSER (BitVec.ofNat 32 (2 ^ 31 + target * 2 ^ 24 + h * 2 ^ 16 + id))

/-- The entry of hamlet `h` to RETAIN (1) or OFF (2) starts (R350, R351). Past the point of no return the PLL is down and BUSY reads 1; a refusal by a voter
after the PLL's turn makes the PLL acquire again if it was locked. The flag says that the entry proceeds. -/
def enterHamlet (h : Fin 8) (target : Nat) (s : State) : State × Bool :=
  let locked := s.flag (Fld.PLL_STAT_LOCK.h h)
  let down (s : State) : State := dropLock h true (if s.flag (Fld.PLL_STAT_ACQUIRING.h h) then endAcq h s else s)
  match s.hamletVote h (target == 2) with
  | some id =>
    let s := if id = 9 then (if locked then startAcq h (down s) else s) else s
    (refuseEntry target h id s, false)
  | none =>
    let s := ((down s).put (Fld.PWR_HSTATE_BUSY.sub h) 1).loseCal h fun _ => true
    ({ s with
       hpow := s.hpow.set h { s.hpow[h] with entry := some ⟨target, locked, false, s.now⟩ }
       rejoin := s.rejoin.set h (some notActive) }, true)

/-- The target that HTGTh names: 1 RETAIN, 2 OFF, 0 none. -/
def State.htgt (s : State) (h : Fin 8) : Nat := s.get (Fld.PWR_MODE_HTGT.sub h) % 3

/-- ENTER for hamlet `h` (R350): for a halted engine the entry starts, from RETAIN to OFF too; for a running one the write is recorded with reason 4. A wake of the hamlet in the
same write arrives before the point of no return: it aborts the entry (R352, log 97). -/
def enterBit (r : Req) (wake : Bool) (s : State) (h : Fin 8) : State :=
  if s.eng[hEng h].state != 0 && s.eng[hEng h].state != 3 then s.refuse4 r Reg.PWR_HCTRL
  else if s.htgt h = 0 || s.hstate h = 0 || (s.hstate h = 1 && s.htgt h = 1) || s.flag (Fld.PWR_HSTATE_BUSY.sub h) then s
  else
    let x := if wake then (refuseEntry (s.htgt h) h 0x3E s, false) else enterHamlet h (s.htgt h) s
    if x.2 then x.1 else x.1.setBit Fld.PWR_HCTRL_ABORTED h

/-- A write to `PWR_HCTRL` (R350, R354). -/
def hctrlWrite (r : Req) (v : Word) (s : State) : State :=
  let s := s.storeReg r Reg.PWR_HCTRL v
  let s := ((List.finRange 8).filter fun (h : Fin 8) => v.getLsbD h.val).foldl (fun s h => enterBit r (v.getLsbD (8 + h.val)) s h) s
  ((List.finRange 8).filter fun (h : Fin 8) => v.getLsbD (8 + h.val)).foldl (fun s h => s.startWake h) s

/-- HAMLET_ENTER (R350). -/
def execHamletEnter (r : Req) (v : Word) (s : State) : Host.Outcome State Fault Refusal :=
  .next (regCmd r Reg.PWR_HCTRL v (hctrlWrite r v) s)

/-- HAMLET_WAKE_WRITE (R354). -/
def execHamletWakeWrite (r : Req) (v : Word) (s : State) : Host.Outcome State Fault Refusal :=
  .next (regCmd r Reg.PWR_HCTRL v (hctrlWrite r v) s)

/-- The rail no longer holds fall-back in force (R291). -/
def fallbackEnds (h : Fin 8) (s : State) : State := if s.flag (Fld.ARB_CFG_FORCEFB.h h) then s else s.put (Fld.ARB_STAT_FB.h h) 0

/-- HAMLET_ENTRY_COMPLETE (R348, R353, R392): RETAIN or OFF is reached, in RETAIN the pins drive SAFE and a bias channel that is away from its clear code takes it; a held wake takes effect (R352). -/
def execHamletEntryComplete (h : Fin 8) (t : Nat) (s : State) : Host.Outcome State Fault Refusal :=
  .next (match s.hpow[h].entry with
    | none => s
    | some e =>
      let s := s.at (min t (e.at0 + (if e.target = 1 then 20 else 30) * usU))
      let s :=
        if e.target = 1 then
          let s := ((s.put (Fld.PWR_HSTATE_BUSY.sub h) 0).setHstate h 1).drivePins h 0xFFF (s.get (Fld.FEP_SAFE_SAFE.h h))
          let s := ((biasOf h).filter s.biasBusy).foldl forceClear s
          fallbackEnds h (s.setHpow h { s.hpow[h] with entry := none, locked := e.locked, low := false })
        else loseHamlet h s
      if e.held then s.startWake h else s)

/-! ### The wake of a hamlet (R354 to R357) -/

/-- The pins that GPIO owns take their levels again (R348). -/
def ownedLevels (h : Fin 8) (s : State) : State := s.drivePins h (s.pinsOf h 4) (s.get (Fld.FEP_GPIO_LEVEL.h h))

/-- The engine's WAIT ends with `v` in its register (R262, R353). -/
def endPowerWait (e : Fin 9) (v : Word) (s : State) : State :=
  let x := s.eng[e]
  match x.wait with
  | some (.power rd) => s.setEng e (x.endWait rd v)
  | _ => s

/-- Domain `h` is accessible and in IDLE: BUSY falls, the rail stands at its target. -/
def domainUp (h : Fin 8) (s : State) : State :=
  let s := fallbackEnds h ((s.put (Fld.PWR_HSTATE_BUSY.sub h) 0).setHstate h 2)
  s.setHpow h { s.hpow[h] with entry := none, wakeAt := none, rampMv := railCode (s.railTarget h), rampAt := s.now, low := false }

/-- The stalled accesses of domain `h`, and the others. -/
def splitStalled (h : Fin 8) (s : State) : List Stalled × State :=
  (s.stalled.filter fun x => inHamlet h x.addr, { s with stalled := s.stalled.filter fun x => !inHamlet h x.addr })

/-- A stalled access ends with an error response (R357): a posted store of an engine reports it later (R264), the gateway's access has reason 10. -/
def failStalled (s : State) (x : Stalled) : State :=
  if x.req.id < 8 then (if x.write then s.setEng (Fin.ofNat 9 x.req.id) { s.eng[Fin.ofNat 9 x.req.id] with bad := s.eng[Fin.ofNat 9 x.req.id].bad ++ [x.va] } else s).err
  else if x.req.id = 16 then (if x.write then s.setEng 8 { s.eng[8] with bad := s.eng[8].bad ++ [x.va] } else s).err
  else if x.req.id = 17 then failRma x.addr s
  else s.err

/-- HAMLET_WAKE_FAIL (R357): 2 ms after the wake the domain is not ready: stalled accesses end with errors, WFAILh, the domain stays OFF, fault 0x435. -/
def execHamletWakeFail (h : Fin 8) (s : State) : Host.Outcome State Fault Refusal :=
  .next (match s.hpow[h].wakeAt with
    | none => s
    | some w =>
      let x := splitStalled h (s.at (w + 2 * msU))
      let s := loseHamlet h (x.1.foldl failStalled x.2)
      (s.put (Fld.PWR_HSTATE_WFAIL.sub h) 1).raise 0x435 h 0)

/-! ### Device states (R347, R350 to R352, R358) -/

/-- DEVSTATE as derived from the blocks (R347). -/
def State.devState (s : State) : Nat :=
  if (List.finRange 8).all (fun h => decide (s.hstate h < 2)) then 2
  else if s.anyCar && (List.finRange 8).any (fun h => s.hstate h == 3) then 4 else 3

/-- Can a wake code of the Bell receiver match (R447)? -/
def State.bellEnabled (s : State) : Bool :=
  (s.flag Fld.BEL_CFG_UEN && (s.rd 0x04100200).toNat % 256 != 0xFF) || (List.range 4).any fun n => s.flag (Fld.BEL_GRPn_EN.i n)

/-- The calendar's count in 1/32,768 s (R228). -/
def State.calendar (s : State) : Nat :=
  if s.calen.runs then s.calen.count + (s.now - s.calen.at0 + s.calen.part) * 32768 / secU else s.calen.count

/-- The seconds of the calendar, modulo 2^48. -/
def State.calSec (s : State) : Nat := s.calendar / 32768 % 2 ^ 48

/-- Does the calendar stand at an enabled alarm, a wake source (R352, R359)? -/
def State.alarmNow (s : State) : Bool :=
  s.flag Fld.HTH_WAKECFG_ALARM_EN && s.flag Fld.HTH_CAL_CTRL_VALID
    && s.calSec % 2 ^ 32 == s.get Fld.HTH_ALARM_SEC

/-- The first voter of a device entry that refuses (R352); a supervisor's request that stands, and a wake source, refuse before the rest. -/
def State.deviceVote (s : State) (listen : Bool) : Option Nat :=
  let link := s.get Fld.LNK_STAT_STATE
  match (List.finRange 8).find? (fun (h : Fin 8) => decide (2 ≤ s.hstate h) || s.flag (Fld.PWR_HSTATE_BUSY.sub h)) with
  | some h => some (0x20 + h.val)
  | none =>
    if s.flag Fld.THM_STAT_STOPPING || (List.finRange 8).any (fun (h : Fin 8) => s.flt.isoStep[h] != 0) then some 0x3F
    else if s.alarmNow then some 0x3E
    else if link ≠ 0 ∧ link ≠ 4 ∧ link ≠ 5 then some 0x30
    else if s.flag Fld.MGP_CFG_EN then some 0x31
    else if s.flag Fld.WCH_SW_STAT_BUSY then some 0x32
    else if s.get Fld.STL_STAT_STATE ≠ 0 then some 0x33
    else if s.flag Fld.TLY_CFG_EN && s.flag Fld.TLY_STAT_DNLINK then some 0x34
    else if (List.finRange 32).any s.biasBusy then some 0x36
    else if s.flag Fld.TIM_STAT_PEND || s.flag Fld.HTH_CAL_CTRL_SYNCPEND then some 0x37
    else if listen && !s.bellEnabled then some 0x38
    else none

/-- Does the Hearth domain hold the register at an address (R22, R51, R450, R455)? -/
def hearthReg (a : Nat) : Bool :=
  (0x04100000 ≤ a && a < 0x04110000) || (0x040E0000 ≤ a && a < 0x040F0000) || a == Reg.SYS_RSTCAUSE

/-- Device time starts from 0 (R7, R209): what the Hearth domain and the boundary hold keeps its distance from the present instant; what has passed counts from it. -/
def zeroTime (s : State) : State :=
  { s with
    now := 0
    calen := s.calen.rebase s.now 0
    pow := { s.pow with outAt := s.pow.outAt - s.now, stepAt := s.pow.stepAt - s.now }
    bel := { s.bel with since := s.bel.since.map (· - s.now), answer := s.bel.answer.map (· - s.now) }
    boot := { s.boot with upAt := s.boot.upAt - s.now } }

/-- A device reset (R453): every block outside the Hearth domain at its reset values; the Hearth domain, the fuses, the test port and the boundary to the
outside keep theirs. The anti-rollback counter of the Hearth domain reads in `AGT_ARB`, the retained chain address
in `TLY_STAT` (R239). Device time is 0 (R7, R209). -/
def deviceReset (s : State) : State :=
  let hearth := s.get Fld.AGT_ARB_HEARTH
  let z := State.reset
  let t : State := { z with
    now := s.now
    regs := s.regs.filter fun p => hearthReg p.1
    out := s.out
    free := s.free
    pow := s.pow
    bel := s.bel
    agt := { s.agt with cmd := none, prot := z.agt.prot, sess := none, steps := 0, shown := s.agt.shown + s.agt.steps }
    boot := { s.boot with devDue := none, booting := false, failed := [], retry := none, rom := false }
    calen := s.calen
    tap := s.tap
    flt := { z.flt with bootFail := s.flt.bootFail, reeveBist := s.flt.reeveBist, badStrap := s.flt.badStrap }
    pending := s.pending }
  zeroTime ((t.put Fld.AGT_ARB_HEARTH hearth).put Fld.TLY_STAT_ADDR ((s.rd 0x04100200).toNat % 256))

/-- The device leaves STANDBY for KEEP (1) or LISTEN (2) (R358): the Reeve stops, every block outside the Hearth domain loses its state, WAKE_OUT is deasserted, and in
LISTEN the Bell receiver starts if it is enabled. -/
def goDark (down : Nat) (s : State) : State :=
  let s := deviceReset s
  { s with
    pow := { s.pow with down := down, wakeOut := false, outAt := s.now, held := false, step := 0 }
    bel := { s.bel with on := down == 2 && s.flag Fld.BEL_CFG_EN, since := none } }

/-- The Reeve's WAIT with DEV set (R350, R351): the refuser, or none when the entry proceeds. -/
def enterDevice (target : Nat) (s : State) : State × Bool :=
  match s.deviceVote (target == 2) with
  | some id => (refuseEntry (2 + target) 0 id s, false)
  | none => (goDark target s, true)

end Sys2Proof.Machine
end

