-- ==== Sys2Proof/Machine/Thermal.lean ====
section
/-!
DEFINITION. Thermal supervision (R364 to R374): the judgement of one housekeeping round, the throttle actions, the orderly stop and the hard cut.
-/

namespace Sys2Proof.Machine

/-! ### Sensors and zones (R364 to R366) -/

/-- The zone of a sensor (R364). -/
def zoneOfSensor (n : Nat) : Fin 9 := Fin.ofNat 9 (min 8 (n / 10))

/-- The sensors of a zone. -/
def zoneSensors (z : Fin 9) : List Nat := if z.val = 8 then [80, 81, 82, 83] else (List.range 10).map fun j => 10 * z.val + j

/-- The physical neighbours of a sensor (R366). -/
def neighbours (n : Nat) : List Nat :=
  let b := n / 10 * 10
  if n = 83 then [80, 81, 82] ++ (List.range 8).map fun h => 10 * h + 9
  else if 80 ≤ n then [80, 81, 82, 83].filter (· != n)
  else match n % 10 with
    | 8 => [b + 9, b + 3, b + 4]
    | 9 => [b + 8, b + 3, b + 4]
    | j => (if j = 0 then [] else [n - 1]) ++ (if j = 7 then [] else [n + 1]) ++ [b + 9]

/-- The last reading of a sensor, in 0.125 degrees. -/
def State.sensRaw (s : State) (n : Nat) : Int := signed 12 (s.get (Fld.THM_SENSn_RAW.i n))

/-- The effective value of a sensor, in 0.125 degrees. -/
def State.sensEff (s : State) (n : Nat) : Int := signed 12 (s.get (Fld.THM_SENSn_EFF.i n))

/-- Is a sensor ABSENT? -/
def State.absent (s : State) (n : Nat) : Bool := s.flag (Fld.THM_SENSn_ABSENT.i n)

/-- Is a sensor SUSPECT or FAILED? -/
def State.sensBad (s : State) (n : Nat) : Bool := s.flag (Fld.THM_SENSn_SUSPECT.i n) || s.flag (Fld.THM_SENSn_FAILED.i n)

/-- The readings of a sensor's eligible neighbours (R366). -/
def State.eligible (s : State) (n : Nat) : List Int :=
  ((neighbours n).filter fun m => !s.absent m && !s.sensBad m).map s.sensRaw

/-- A number put into its place in a rising list. -/
def sortInsert (x : Int) : List Int → List Int
  | [] => [x]
  | y :: t => if x ≤ y then x :: y :: t else y :: sortInsert x t

/-- Twice the median of a list (R366). -/
def median2 (l : List Int) : Int :=
  let l := l.foldl (fun m x => sortInsert x m) []
  let n := l.length
  if n % 2 = 1 then 2 * l.getD (n / 2) 0 else l.getD (n / 2 - 1) 0 + l.getD (n / 2) 0

/-- Changes the supervisor. -/
def State.setThm (s : State) (x : Thm) : State := { s with thm := x }

/-- The failure check of a reading (R366 step 1). -/
def State.readingFails (s : State) (n : Nat) (v : Int) (err : Bool) : Bool :=
  err || decide (v < -440) || decide (1400 < v) || ((s.thm.seen.toList.getD n false) && decide (120 < (v - s.sensRaw n).natAbs))

/-- Step 1 for one sensor: its reading, or ABSENT. -/
def stepReading (temps : List (Nat × Nat × Bool)) (s : State) (n : Fin 84) : State :=
  match temps.find? (fun r => r.1 == n.val) with
  | none => s.put (Fld.THM_SENSn_ABSENT.i n) 1
  | some r =>
    let fails := s.readingFails n (signed 12 r.2.1) r.2.2
    let s := (s.put (Fld.THM_SENSn_ABSENT.i n) 0).put (Fld.THM_SENSn_RAW.i n) r.2.1
    let s := if fails then s.put (Fld.THM_SENSn_FAILED.i n) 1 else s
    s.setThm { s.thm with seen := s.thm.seen.set n true, good := if fails then s.thm.good.set n 0 else s.thm.good }

/-- Step 2 for one sensor that was read: the neighbour check against `els`, the eligible readings of the round. Rounds near its neighbours clear SUSPECT; those
since its last failing reading clear FAILED. -/
def stepNeighbour (s : State) (n : Fin 84) (fails : Bool) (els : List Int) : State :=
  if els.length < 2 then s
  else if 128 < (2 * s.sensRaw n - median2 els).natAbs then
    let s := s.setThm { s.thm with far := s.thm.far.set n (min 4 (s.thm.far[n] + 1)), near := s.thm.near.set n 0, good := s.thm.good.set n 0 }
    if 4 ≤ s.thm.far[n] then s.put (Fld.THM_SENSn_SUSPECT.i n) 1 else s
  else
    let s := s.setThm { s.thm with
      far := s.thm.far.set n 0
      near := s.thm.near.set n (min 16 (s.thm.near[n] + 1))
      good := if fails then s.thm.good else s.thm.good.set n (min 16 (s.thm.good[n] + 1)) }
    let s := if 16 ≤ s.thm.near[n] then s.put (Fld.THM_SENSn_SUSPECT.i n) 0 else s
    if 16 ≤ s.thm.good[n] then s.put (Fld.THM_SENSn_FAILED.i n) 0 else s

/-- Step 3 for one sensor: its reading, or the substitute from its neighbours; none when it has no eligible neighbour. -/
def State.ownEff (s : State) (n : Nat) : Option Int :=
  if !s.sensBad n then some (s.sensRaw n)
  else match s.eligible n with
    | [] => none
    | x :: t => some (t.foldl max x + 24)

/-- Step 3 for one sensor, with the substitute from its zone; none keeps the value of the previous round. -/
def State.newEff (s : State) (n : Nat) : Option Int :=
  match s.ownEff n with
  | some v => some v
  | none =>
    match ((zoneSensors (zoneOfSensor n)).filter fun m => m != n && !s.absent m).filterMap s.ownEff with
    | [] => none
    | x :: t => some (t.foldl max x + 24)

/-- Steps 1 to 3 of a round; the answer lists the sensors that turned SUSPECT or FAILED. -/
def judgeSensors (temps : List (Nat × Nat × Bool)) (s : State) : State × List Nat :=
  let all := List.finRange 84
  let s1 := all.foldl (stepReading temps) s
  let live : List (Fin 84) := all.filter fun (n : Fin 84) => !s1.absent n.val
  let failing (n : Fin 84) : Bool := match temps.find? (fun r => r.1 == n.val) with
    | some r => s.readingFails n (signed 12 r.2.1) r.2.2
    | none => true
  let s2 := live.foldl (fun x n => stepNeighbour x n (failing n) (s1.eligible n)) s1
  let s3 := live.foldl (fun x n => match s2.newEff n with
    | some v => x.put (Fld.THM_SENSn_EFF.i n) (unsigned 12 v)
    | none => x) s2
  let turned := live.filter fun (n : Fin 84) => (s2.flag (Fld.THM_SENSn_SUSPECT.i n) && !s.flag (Fld.THM_SENSn_SUSPECT.i n))
    || (s2.flag (Fld.THM_SENSn_FAILED.i n) && !s.flag (Fld.THM_SENSn_FAILED.i n))
  (s3, turned.map fun n => n.val)

/-- Step 4: the value of a zone and the sensor that gave it, if any of its sensors is not ABSENT. -/
def State.zoneMax (s : State) (z : Fin 9) : Option (Int × Nat) :=
  ((zoneSensors z).filter fun n => !s.absent n).foldl (fun (m : Option (Int × Nat)) n =>
    match m with
    | none => some (s.sensEff n, n)
    | some x => if x.1 < s.sensEff n then some (s.sensEff n, n) else m) none

/-! ### Thresholds (R367, R368) -/

/-- The limit and the hysteresis of a threshold, in 0.125 degrees: 0 WARN, 1 THROTTLE, 2 SHUTDOWN. -/
def State.thmLimit (s : State) (k : Fin 3) : Int × Int :=
  match k with
  | 0 => (8 * s.get Fld.THM_LIMIT_WARN, 8 * s.get Fld.THM_HYST_HWN)
  | 1 => (8 * s.get Fld.THM_LIMIT_THROTTLE, 8 * s.get Fld.THM_HYST_HTH)
  | 2 => (8 * s.get Fld.THM_LIMIT_SHUTDOWN, 8 * max 1 (s.get Fld.THM_HYST_HSD))

/-- Changes a zone of the supervisor. -/
def State.setZone (s : State) (z : Fin 9) (x : ThmZone) : State := s.setThm { s.thm with zone := s.thm.zone.set z x }

/-- The pins of a zone's asserted thresholds take the sensors that turned bad, and lose those that have recovered (R368). -/
def pinZone (turned : List Nat) (z : Fin 9) (s : State) : State :=
  let x := s.thm.zone[z]
  let mine := turned.filter fun n => zoneOfSensor n == z
  let pins := x.pins.mapFinIdx fun k l _ => ((if x.on.toList.getD k false then l ++ mine else l).filter s.sensBad).eraseDups
  let s := s.setZone z { x with pins := pins }
  s.put Fld.THM_STAT_PINNED ((List.finRange 9).foldl (fun m y => m + b2n (s.thm.zone[y].pins.toList.any fun l => !l.isEmpty) * 2 ^ y.val) 0)

/-- The clear count restarts when a pin has lifted (R368): `was` says that it was pinned. -/
def judgeThreshold (v : Int) (was : Bool) (lim : Int × Int) (k : Fin 3) (x : ThmZone) : ThmZone :=
  if !x.on[k] then
    if lim.1 < v then
      if 3 ≤ x.above[k] + 1 then { x with above := x.above.set k 0, below := x.below.set k 0, on := x.on.set k true }
      else { x with above := x.above.set k (x.above[k] + 1) }
    else { x with above := x.above.set k 0 }
  else if was || !x.pins[k].isEmpty then { x with below := x.below.set k 0 }
  else if v < lim.1 - lim.2 then
    if 8 ≤ x.below[k] + 1 then { x with above := x.above.set k 0, below := x.below.set k 0, on := x.on.set k false }
    else { x with below := x.below.set k (x.below[k] + 1) }
  else { x with below := x.below.set k 0 }

/-! ### Throttle actions (R370) -/

/-- The hamlets on which the actions of a zone act. -/
def zoneHamlets (z : Fin 9) : List (Fin 8) := (List.finRange 8).filter fun h => z.val = 8 || z.val == h.val

/-- The rotation that the actions ask of hamlet `h`: its own zone's, else zone 8's. -/
def State.rotWord (s : State) (h : Fin 8) : Option Word :=
  [(s.thm.zone[h.val]).acts, (s.thm.zone[8]).acts].find? fun w => getBits Fld.THM_ACTz_ROT w = 1

/-- The paths of a rotation's group (R370). -/
def rotSize (a : Word) : Nat := [1, 2, 4, 4].getD (getBits Fld.THM_ACTz_ROTN a) 1

/-- What follows when the actions of a zone change: rails ramp, backoff, shedding and rotation get their boundaries, each after those that already wait, and the
change is indicated. -/
def changeActs (z : Fin 9) (acts : Word) (s : State) : State :=
  let old := s.thm.zone[z].acts
  let s := (zoneHamlets z).foldl (fun s h => reramp h (fun s => s) s) s
  let s := s.setZone z { s.thm.zone[z] with acts := acts }
  let w := old ||| acts
  let s := (zoneHamlets z).foldl (fun s h =>
    let s := if getBits Fld.THM_ACTz_BO w = 1 then s.setThm { s.thm with boDue := s.thm.boDue.set h (s.thm.boDue[h] ++ [(halfAfter2 s.now, s.boSteps h)]) } else s
    match s.rotWord h, s.thm.rot[h] with
    | some a, none => s.setThm { s.thm with rot := s.thm.rot.set h (some ⟨8, rotSize a, nextAfter s.now halfU, false⟩) }
    | none, some r => s.setThm { s.thm with rot := s.thm.rot.set h (some { r with due := nextAfter s.now halfU, stop := true }) }
    | _, _ => s) s
  let s := if getBits Fld.THM_ACTz_SHED w = 1 then s.setThm { s.thm with shedDue := s.thm.shedDue ++ [(frameAfter100 s.now, s.shedNext)] } else s
  if w.toNat / 2 ^ 28 = 0 then s else s.notifyLink Config.actionNumber 0xFF (Config.actionInfo z (w.toNat / 2 ^ 28))

/-- The armed actions of a zone are applied (R370). -/
def applyActs (z : Fin 9) (s : State) : State := changeActs z (s.rd (Reg.THM_ACTz + 4 * z)) s

/-- Isolation removes the actions of its hamlet's zone (R370). -/
def removeActs (h : Fin 8) (s : State) : State := changeActs ⟨h.val, by omega⟩ 0#32 s

/-- SHED_TAKE_EFFECT (R370): at the oldest frame boundary that waits, the level of the last change for it comes into force. -/
def execShedTakeEffect (s : State) : Host.Outcome State Fault Refusal :=
  .next (match s.thm.shedDue with
    | [] => s
    | x :: t =>
      let s := s.at x.1
      let n := ((t.filter fun y => y.1 == x.1).getLast?.getD x).2
      s.setThm { s.thm with shedWas := (x.1, s.thm.shed), shed := n, shedDue := t.filter fun y => y.1 != x.1 })

/-- ROTATION_STEP (R370): at its half-subframe boundary the next group is muted and the last one unmuted, each path with its RAMP; a removed action only
unmutes, and one applied again before that boundary starts there at path 0. In the safety state the gains stay at 0. -/
def execRotationStep (h : Fin 8) (s : State) : Host.Outcome State Fault Refusal :=
  .next (match s.thm.rot[h] with
    | none => s
    | some x =>
      let s := s.at x.due
      let per := match s.rotWord h with | some a => max 1 (getBits Fld.THM_ACTz_ROTP a) * msU | none => msU
      let next : Option Rot := if x.stop then (s.rotWord h).map fun a => ⟨0, rotSize a, x.due + per, false⟩ else some { x with first := if x.first = 8 then 0 else (x.first + x.size) % 8, due := x.due + per }
      let moved := (List.finRange 8).filter fun (k : Fin 8) =>
        s.rotMuted h k != (match next with | some y => decide (y.first ≤ k.val) && decide (k.val < y.first + y.size) | none => false)
      let s := s.setThm { s.thm with rot := s.thm.rot.set h next }
      if s.hstate h < 2 || s.inSafety h then s else moved.foldl (fun s k => rampNow h k x.due s) s)

/-! ### Orderly stop and hard cut (R371, R372) -/

/-- The word of `HTH_THMREC` for a decision. -/
def thmRec (hard : Bool) (cause : Nat × Nat) : Nat := 2 ^ 31 + b2n hard * 2 ^ 30 + cause.1 % 128 * 65536 + cause.2 % 4096

/-- A running BIST is ended when a stop begins (R409). -/
def stopBist (s : State) : State :=
  match s.bist.target with
  | some _ => { (s.put Fld.BIST_STAT_ABORT 1).put Fld.BIST_STAT_PHASE 4 with bist := { s.bist with stopped := true } }
  | none => s

/-- A zone asserts SHUTDOWN (R369, R371 step 1): fault 0x452 is raised, and unless a stop runs the orderly stop begins: the safety clear of every hamlet and the
fan-out, also where the raise only repeats an active entry; STOPALL is set in every DMA block; a running BIST is ended (R409). The record of a hard cut stands. -/
def beginStop (cause : Nat × Nat) (s : State) : State :=
  let info := thmRec false cause
  if s.flag Fld.THM_STAT_STOPPING then s.raise 0x452 0xFF info
  else
    let again := (s.activeEntry 0x452 0xFF).isSome
    let s := (s.put Fld.THM_STAT_STOPPING 1).setThm { s.thm with stopAt := some s.now, cause := if s.thm.hard then s.thm.cause else cause, steps := 0 }
    let s := s.raise 0x452 0xFF info
    let s := if again then s.faultAction 0x452 3 0xFF else s
    let s := (List.finRange 8).foldl (fun s h => s.stopAllDma h) s
    stopBist s

/-- The channels leave their slew, sine or servo (R371 step 2). -/
def leaveOwners (s : State) : State :=
  (List.finRange 32).foldl (fun s c =>
    let s := stopSine c (settleSine c s)
    let s := if s.biasOwner c = 3 then s.put Fld.TIM_VCXO_EN 0 else s
    setOwner c 0 (((s.put (Fld.BDA_CHc_SINE_EN.i c) 0).put (Fld.BDA_CHc_STAT_SINEWAIT.i c) 0).setBias c { s.bias[c] with step := none, start := false, sine := none })) s

/-- One step of every channel towards its clear code. -/
def stepClear (s : State) : State :=
  let n := max 1 (s.get Fld.THM_SDCFG_SDSTEP)
  (List.finRange 32).foldl (fun s (c : Fin 32) =>
    let out := s.get (Fld.BDA_CHc_STAT_OUT.i c)
    let clr := s.get (Fld.BDA_CHc_CLR_CODE.i c)
    if s.biasUp c then s.put (Fld.BDA_CHc_STAT_OUT.i c) (if out < clr then min clr (out + n) else max clr (out - n)) else s) s

/-- ORDERLY_STOP_BIAS (R371 steps 2, 3): at t0 + 100 us the owners are left, then one step each us; a hamlet whose channels have arrived goes to OFF. -/
def execOrderlyStopBias (s : State) : Host.Outcome State Fault Refusal :=
  .next (match s.thm.stopAt with
    | none => s
    | some t0 =>
      let n := s.thm.steps
      let s := s.at (t0 + (100 + n) * usU)
      let s := if n = 0 then leaveOwners s else stepClear s
      let s := s.setThm { s.thm with steps := n + 1 }
      (List.finRange 8).foldl (fun s (h : Fin 8) =>
        if s.hstate h = 0 || (2 ≤ s.hstate h && (biasOf h).any s.biasBusy) then s else loseHamlet h s) s)

/-- ORDERLY_STOP_COMPLETE (R371, R373): every hamlet is OFF: STOPPING clears, counted and recorded, SDLATCH is set; a wake under way is refused. -/
def execOrderlyStopComplete (s : State) : Host.Outcome State Fault Refusal :=
  .next (if s.thm.stopAt.isSome && (List.finRange 8).all (fun h => s.hstate h == 0) then
      let s := (s.put Fld.THM_STAT_STOPPING 0).inc (Fld.THM_CNTn_COUNT.i 2)
      let s := (s.wr Reg.HTH_THMREC (BitVec.ofNat 32 (thmRec false s.thm.cause))).put Fld.THM_STAT_SDLATCH 1
      let s := s.setThm { s.thm with stopAt := none, steps := 0 }
      (List.finRange 8).foldl (fun s h =>
        let x := splitStalled h s
        let s := x.1.foldl failStalled x.2
        (s.put (Fld.PWR_HSTATE_BUSY.sub h) 0).setHpow h {}) s
    else s)

/-- HARD_CUT (R372): a zone above SHUTDOWN + 5 degrees, or an orderly stop that is not complete 1 ms after its start: recorded with HARD = 1, the device is left in
KEEP. -/
def execHardCut (s : State) : Host.Outcome State Fault Refusal :=
  .next (
    let cut (s : State) : State := goDark 1 (s.wr Reg.HTH_THMREC (BitVec.ofNat 32 (thmRec true s.thm.cause)))
    if s.thm.hard then cut s
    else match s.thm.stopAt with
      | none => s
      | some t0 => cut (s.at (t0 + msU)))

/-! ### One round (R366 to R369, R398) -/

/-- The thresholds of a zone are updated and THROTTLE and WARN shown; the answer lists the changes as (threshold, asserted). -/
def judgeZone (turned : List Nat) (z : Fin 9) (s : State) : State × List (Nat × Bool) :=
  match s.zoneMax z with
  | none => (pinZone turned z s, [])
  | some m =>
    let was := s.thm.zone[z].pins.map fun l => !l.isEmpty
    let s := (s.put (Fld.THM_ZONEz_MAX.i z) (unsigned 12 m.1)).put (Fld.THM_ZONEz_HOT.i z) m.2
    let s := pinZone turned z s
    let x := s.thm.zone[z]
    let y := (List.finRange 3).foldl (fun y k => judgeThreshold m.1 was[k] (s.thmLimit k) k y) x
    let s := s.setZone z y
    let s := if y.on[0] then s.setBit Fld.THM_STAT_WARNZ z else s.clrBit Fld.THM_STAT_WARNZ z
    let s := if y.on[1] then s.setBit Fld.THM_STAT_THROT z else s.clrBit Fld.THM_STAT_THROT z
    (s, ((List.finRange 3).filter fun k => y.on[k] != x.on[k]).map fun k => (k.val, y.on[k]))

/-- A cease indication of WARN or THROTTLE (R369). -/
def ceaseZone (num : Nat) (z : Nat) (s : State) : State := s.indicate ⟨false, num, 0xFF, z, 0⟩

/-- What a round reports (R369), the faults in the order of R481: `ch` lists (zone, threshold, asserted). -/
def reportRound (ch : List (Fin 9 × Nat × Bool)) (turned : List Nat) (s : State) : State :=
  let pick (k : Nat) (on : Bool) : List (Fin 9) := (ch.filter fun c => c.2.1 == k && c.2.2 == on).map fun c => c.1
  let s := (pick 2 true).foldl (fun s z => beginStop (s.get (Fld.THM_ZONEz_HOT.i z), s.get (Fld.THM_ZONEz_MAX.i z)) s) s
  let s := (pick 1 true).foldl (fun s z => applyActs z ((s.raiseSend 0x451 0xFF z.val).inc (Fld.THM_CNTn_COUNT.i 1))) s
  let s := (pick 0 true).foldl (fun s z => s.raiseSend 0x450 0xFF z.val) s
  let s := turned.foldl (fun s n => (s.raise 0x453 0xFF n).inc (Fld.THM_CNTn_COUNT.i 0)) s
  let s := (pick 1 false).foldl (fun s z => ceaseZone 0x451 z.val (changeActs z 0#32 s)) s
  (pick 0 false).foldl (fun s z => ceaseZone 0x450 z.val s) s

/-- The hottest zone strictly above SHUTDOWN + 5 degrees decides a hard cut (R366 step 5, R372). -/
def hardCheck (s : State) : State :=
  let lim : Int := 8 * (s.get Fld.THM_LIMIT_SHUTDOWN + 5)
  let hot := ((List.finRange 9).filterMap s.zoneMax).filter fun m => decide (lim < m.1)
  match hot with
  | [] => s
  | x :: t =>
    let m := t.foldl (fun m y => if m.1 < y.1 then y else m) x
    s.setThm { s.thm with hard := true, cause := (m.2, unsigned 12 m.1) }

/-- What the trim of the internal references moves to, in millionths (R374, R398): its goal, with the temperature coefficient for the die centre's distance from the
reading at which the coefficient was formed. -/
def State.trimGoal (s : State) : Int :=
  match s.cal.coef with
  | none => s.cal.goal
  | some c => s.cal.goal + (c.1 * (s.sensEff 83 - c.2)).fdiv 1000

/-- The trim of the internal references moves towards its goal by at most 0.01 % a round (R374, R398). -/
def trimStep (s : State) : State :=
  let d := s.trimGoal - s.cal.trim
  { s with cal := { s.cal with trim := s.cal.trim + max (-100) (min 100 d) } }

/-- The supervisor's work on the readings of a round, in the order of R366. -/
def thermalRound (temps : List (Nat × Nat × Bool)) (s : State) : State :=
  let x := judgeSensors temps s
  let s := hardCheck x.1
  let r := (List.finRange 9).foldl (fun (p : State × List (Fin 9 × Nat × Bool)) z =>
    let y := judgeZone x.2 z p.1
    (y.1, p.2 ++ y.2.map fun c => (z, c.1, c.2))) (s, [])
  reportRound r.2 x.2 r.1

/-! ### Register writes (R366 to R373) -/

/-- A write to `THM_LIMIT`: WARN < THROTTLE < SHUTDOWN ≤ 135. -/
def thmLimitWrite (r : Req) (v : Word) (s : State) : State :=
  let w := getBits Fld.THM_LIMIT_WARN v
  let t := getBits Fld.THM_LIMIT_THROTTLE v
  let d := getBits Fld.THM_LIMIT_SHUTDOWN v
  if w < t ∧ t < d ∧ d ≤ 135 then s.storeReg r Reg.THM_LIMIT v else s.refuse4 r Reg.THM_LIMIT

/-- The clear counts of a zone's pinned thresholds restart as UNPIN lifts their pins (R368). -/
def unpinned (x : ThmZone) : ThmZone :=
  { x with pins := Vector.replicate 3 [], below := x.below.mapFinIdx fun k n h => if x.pins[k].isEmpty then n else 0 }

/-- A write to `THM_CTRL` (R368, R373): UNPIN lifts pins; REARM is accepted only while no zone is in SHUTDOWN. -/
def thmCtrlWrite (r : Req) (v : Word) (s : State) : State :=
  let s := (List.finRange 9).foldl (fun s (z : Fin 9) => if v.getLsbD z.val then
      (s.setZone z (unpinned s.thm.zone[z])).clrBit Fld.THM_STAT_PINNED z else s) s
  if !v.getLsbD 31 then s
  else if (List.finRange 9).any fun z => s.thm.zone[z].on[2] then s.refuse4 r Reg.THM_CTRL
  else (s.put Fld.THM_STAT_SDLATCH 0).put Fld.HTH_THMREC_VALID 0

/-- THM_REARM (R373). -/
def execThmRearm (r : Req) (v : Word) (s : State) : Host.Outcome State Fault Refusal := .next (regCmd r Reg.THM_CTRL v (thmCtrlWrite r v) s)

/-- THM_UNPIN (R368). -/
def execThmUnpin (r : Req) (v : Word) (s : State) : Host.Outcome State Fault Refusal := .next (regCmd r Reg.THM_CTRL v (thmCtrlWrite r v) s)

end Sys2Proof.Machine
end

