-- ==== Sys2Proof/Machine/Housekeeping.lean ====
section
/-!
DEFINITION. The housekeeping ADC (R376 to R385): the fixed round, the user sequence, references, overrange.
-/

namespace Sys2Proof.Machine

/-- One modulator period: 8 periods of F0 (R376). -/
abbrev modU : Nat := 921600000

/-- Changes the HKADC. -/
def State.setHk (s : State) (x : Hk) : State := { s with hk := x }

/-- Do the blocks on the reference tree run: neither KEEP nor LISTEN, no reset, the wake sequencer done, with REFIN (R361)? -/
def State.running (s : State) : Bool := s.pow.down == 0 && s.pow.step == 0 && !s.boot.inReset && !s.pow.refOff

/-! ### The converter (R376, R377) -/

/-- The code of an input, in the units of the reference `ref` (R376, R385): 65,536 times their ratio, rounded convergently and clamped to the end codes. -/
def hkCode (input : Int) (ref : Nat) : Nat := (max 0 (min 65535 (roundEven (65536 * input) ref))).toNat

/-- The coarse chain (R376, R377): the sinc1 filter over the first 64 samples of the modulator, each a code. -/
def coarseOf (x : Nat → Int) : Int := roundEven (((List.range 64).map x).sum) 64

/-- The number of ways in which three numbers below `d` have the sum `j`: the weights of a sinc3 filter. -/
def sinc3Weight (d j : Nat) : Int :=
  let c (n : Nat) : Int := if n ≤ j then (((j - n + 2) * (j - n + 1) / 2 : Nat) : Int) else 0
  c 0 - 3 * c d + 3 * c (2 * d)

/-- Output `m` of the sinc3 filter that decimates by `d` (R376), times d^3. -/
def sinc3At (d : Nat) (x : Nat → Int) (m : Nat) : Int :=
  ((List.range (3 * d - 2)).map fun j => if j < (m + 1) * d then sinc3Weight d j * x ((m + 1) * d - 1 - j) else 0).sum

/-- The fine chain (R376, R377): the 23 taps of the half-band filter over the outputs 3 to 25 of the sinc3 filter, whose span is 25 D - 2 samples; the word length is
reduced once, at the end (log 134). -/
def fineOf (d : Nat) (x : Nat → Int) : Int :=
  roundEven (((List.range 23).map fun k => Config.hkTap k * sinc3At d x (25 - k)).sum) (2 ^ 30 * d ^ 3)

/-- D of the fine filter (R378). -/
def hkD (osr : Nat) : Nat := 16 * 2 ^ min osr 6

/-- Is a channel one of the table of R379, and does its sensor have a domain that runs (R365, R379)? -/
def State.channelThere (s : State) (ch : Nat) : Bool :=
  if ch < 0x32 then true
  else if 0x40 ≤ ch ∧ ch < 0x94 then (if ch - 0x40 < 80 then decide (2 ≤ s.hstate ((ch - 0x40) / 10)) else true)
  else false

/-- Does the external reference supply a user entry, and is it ready (R380)? -/
def State.extReady (s : State) : Bool := bitOf (s.get Fld.HKA_STAT_REFRDY) 1

/-- An entry begins at `now` (R377, R380, R385): after an overrange it settles 5 us longer. -/
def beginEntry (fixed : Bool) (n ch osr settle : Nat) (ext : Bool) (s : State) : State :=
  let unav := !s.channelThere ch
  let wait := ext && !unav && !s.extReady
  let extra := if s.hk.ovr then 5 else 0
  let c : HkConv := ⟨fixed, n, ch, osr, wait, unav, s.now, s.now + (settle + extra) * usU, false⟩
  s.setHk { s.hk with conv := some c, ovr := if unav then s.hk.ovr else false, extAt := if ext && !unav then some s.now else s.hk.extAt }

/-- Entries per pass (R383). -/
def State.seqLen (s : State) : Nat := max 1 (min 32 (s.get Fld.HKA_SEQCTL_LEN))

/-- The next enabled user entry at or after `k` (R383). -/
def State.nextUser (s : State) (k : Nat) : Option Nat :=
  (List.range s.seqLen).find? fun n => decide (k ≤ n) && s.flag (Fld.HKA_SEQn_EN.i n)

/-- MODE of the sequence; 3 acts as 0. -/
def State.seqMode (s : State) : Nat := s.get Fld.HKA_SEQCTL_MODE % 3

/-- A pass ends (R383): SEQDONE; MODE 1 goes on, MODE 2 waits for its next start, MODE 0 or a STOP ends the sequence. -/
def endPass (stopped : Bool) (s : State) : State :=
  let s := (s.put Fld.HKA_STAT_SEQDONE 1).setHk { s.hk with pos := 33, pass := s.hk.pass + 1, stop := false }
  if stopped || s.seqMode = 0 then s.put Fld.HKA_STAT_SEQRUN 0
  else if s.seqMode = 1 then s.setHk { s.hk with pos := 0 } else s

/-- The user entry with the number that the pass has reached begins. -/
def beginUser (n : Nat) (s : State) : State :=
  let ref := s.get (Fld.HKA_SEQn_REF.i n)
  let s := (s.put Fld.HKA_STAT_ENTRY n).setHk { s.hk with pos := n }
  beginEntry false n (s.get (Fld.HKA_SEQn_CH.i n)) (s.get (Fld.HKA_SEQn_OSR.i n)) (s.get (Fld.HKA_SEQn_SETTLE.i n)) (ref == 1) s

/-- The user sequence takes the free converter (R383): its next entry, or the end of the pass. -/
def takeUser (s : State) : State :=
  if 33 ≤ s.hk.pos then s
  else match s.nextUser s.hk.pos with
    | some n => beginUser n s
    | none =>
      let s := endPass false s
      if 33 ≤ s.hk.pos then s
      else match s.nextUser 0 with
        | some n => beginUser n s
        | none => s

/-- The channels of a fixed round, in its order (R381). -/
def State.roundChannels (s : State) : List Nat :=
  let tsrc := s.get Fld.TIM_VCXO_TSRC
  (List.range 17).map (· + 0x21) ++ (if s.flag Fld.TIM_VCXO_EN && decide (tsrc < 32) then [tsrc] else [])
    ++ (List.range 84).map (· + 0x40)

/-- The converter goes on (R377, R381, R383): the next entry of the round, whose end waits for `HK_ROUND_END`, else the user sequence. -/
def nextEntry (s : State) : State :=
  let s := s.setHk { s.hk with conv := none }
  if s.hk.inRound then
    match s.hk.round.dropWhile (fun ch => !s.channelThere ch) with
    | [] => s.setHk { s.hk with round := [] }
    | ch :: t => beginEntry true 0 ch (s.eget Fld.HKA_ROUND_FRD) (s.eget Fld.HKA_ROUND_FRS) false (s.setHk { s.hk with round := t })
  else takeUser s

/-- A fixed round begins; `HKA_ROUND` is in force from here (R382), and no input of TSRC has been read. -/
def beginRound (s : State) : State :=
  let s := (s.put Fld.HKA_STAT_ROUND 1).take Reg.HKA_ROUND
  nextEntry (s.setHk { s.hk with inRound := true, waiting := false, round := s.roundChannels, temps := [], tsrc := none })

/-- A device entry that is aborted after the turn of voter 0x35 restarts the fixed round from its first entry (R351, R352). -/
def restartRound (id : Nat) (s : State) : State :=
  if 0x35 < id ∧ s.hk.inRound then s.setHk { s.hk with round := s.roundChannels, temps := [], tsrc := none } else s

/-- HK_ROUND_START (R381, R382): at a whole multiple of PERIOD ms; with a round in progress it is skipped and counted, with a user entry converting the round
waits for the entry's end. -/
def execHkRoundStart (s : State) : Host.Outcome State Fault Refusal :=
  .next (if !s.running then s
    else
      let d := nextMult (max s.now (s.hk.next + 1)) (max 1 (s.eget Fld.HKA_ROUND_PERIOD) * msU)
      let s := (s.at d).setHk { s.hk with next := d }
      if s.hk.inRound || s.hk.waiting then (s.inc (Fld.HKA_CNTn_COUNT.i 1)).put Fld.HKA_STAT_OVERRUN 1
      else if s.hk.conv.isSome then s.setHk { s.hk with waiting := true }
      else beginRound s)

/-- The coarse result of the entry that converts is written, clamped to the end code (R377, R384, R385); `v` is what the coarse chain gives (`coarseOf`). -/
def execHkCoarseReady (v : Nat) (s : State) : Host.Outcome State Fault Refusal :=
  .next (match s.hk.conv with
    | none => s
    | some c =>
      if c.wait || c.unav then s
      else
        let s := s.at (c.start + 64 * modU)
        let s := if s.hk.recov then s.setHk { s.hk with conv := some { c with mark := true } } else s
        if c.fixed then s else s.put (Fld.HKA_RESn_COARSE.i c.n) (min 65535 v))

/-- A reading of a supply channel in mV (R379, R381). -/
def supplyMv (ch code : Nat) : Nat :=
  let den := if ch = 0x25 ∨ ch = 0x26 then 32768 else if 0x27 ≤ ch ∧ ch ≤ 0x29 then 16384 else 65536
  (roundEven (code * 2500 : Nat) den).toNat

/-- The result of a fixed-round entry (R381). -/
def fixedResult (c : HkConv) (v : Nat) (ovr : Bool) (s : State) : State :=
  if 0x40 ≤ c.ch then s.setHk { s.hk with temps := s.hk.temps ++ [(c.ch - 0x40, v % 4096, ovr)] }
  else if 0x21 ≤ c.ch then
    (s.put (Fld.HKA_SUPn_OVR.i (c.ch - 0x21)) (b2n ovr)).put (Fld.HKA_SUPn_VAL.i (c.ch - 0x21)) (supplyMv c.ch v)
  else s.setHk { s.hk with tsrc := some (v, ovr) }

/-- FINE and the flags of a user entry are written together and NEW is set (R384). -/
def userResult (c : HkConv) (v : Nat) (ovr mark unav referr : Bool) (s : State) : State :=
  let s := if unav || referr then s.put (Fld.HKA_RESn_COARSE.i c.n) 0 else s
  let w := 2 ^ 31 + b2n ovr * 2 ^ 30 + b2n mark * 2 ^ 29 + b2n unav * 2 ^ 28 + b2n referr * 2 ^ 27 + s.hk.pass % 256 * 65536
  ((s.put (Fld.HKA_RESn_FINE.i c.n) v).wr (Reg.HKA_RSTn + 8 * c.n) (BitVec.ofNat 32 w)).setHk { s.hk with pos := c.n + 1 }

/-- An entry is done: a STOP ends the sequence after a user entry, and the last entry ends its pass (R383); a waiting round begins, else the converter goes on. -/
def entryDone (user : Bool) (s : State) : State :=
  let s := s.setHk { s.hk with conv := none }
  let s := if user && s.hk.stop then endPass true s
    else if user && (s.nextUser s.hk.pos).isNone then endPass false s else s
  if s.hk.waiting then beginRound s else nextEntry s

/-- HK_CONVERSION_END (R377, R379, R381, R384, R385): the fine result `v` in the channel's result form (from the code that `fineOf` gives), or an overrange at one end (`over`: at the upper end?). -/
def execHkConversionEnd (v : Nat) (over_ : Option Bool) (s : State) : Host.Outcome State Fault Refusal :=
  .next (match s.hk.conv with
    | none => s
    | some c =>
      if c.wait then s
      else if c.unav then
        entryDone true (userResult c 0 false false true false (s.at (c.begun + usU / 10)))
      else
        let s := s.at (c.start + 26 * hkD c.osr * modU)
        let mark := c.mark || s.hk.recov
        let ovr := over_.isSome
        let v := match over_ with | none => v | some true => 0xFFFF | some false => 0
        let s := if ovr then (s.inc (Fld.HKA_CNTn_COUNT.i 2)).setHk { s.hk with ovr := true, recov := true } else s
        entryDone (!c.fixed) (if c.fixed then fixedResult c v ovr s else userResult c v ovr mark false false s))

/-- HK_RECOVERY_CLOSE (R385): at `t` the modulator has shown no overload for 5 us; a conversion that had begun by then carries REC. -/
def execHkRecoveryClose (t : Nat) (s : State) : Host.Outcome State Fault Refusal :=
  .next (let s := s.at t
    let touched := s.hk.recov && (match s.hk.conv with | some c => decide (c.start < s.now) && !c.wait | none => false)
    s.setHk { s.hk with
      recov := false
      conv := s.hk.conv.map fun (c : HkConv) => { c with mark := c.mark || touched } })

/-- HK_REF_READY (R380): the external reference's buffer has settled at `t`; the waiting entry begins its settling time. -/
def execHkRefReady (t : Nat) (s : State) : Host.Outcome State Fault Refusal :=
  .next (if s.hk.extAt.isNone then s
    else
      let s := (s.at t).put Fld.HKA_STAT_REFRDY (s.get Fld.HKA_STAT_REFRDY ||| 2)
      s.setHk { s.hk with conv := s.hk.conv.map fun (c : HkConv) =>
        if c.wait then { c with wait := false, start := s.now + (c.start - c.begun) } else c })

/-- HK_REF_TIMEOUT (R380): 200 us without the reference: the entry completes without converting; notice 0x472 when REFERR rises. -/
def execHkRefTimeout (s : State) : Host.Outcome State Fault Refusal :=
  .next (match s.hk.conv with
    | none => s
    | some c =>
      if !c.wait then s
      else
        let s := (s.at (c.begun + 200 * usU)).inc (Fld.HKA_CNTn_COUNT.i 3)
        let s := if s.flag (Fld.HKA_RSTn_REFERR.i c.n) then s else s.raise 0x472 0xFF c.n
        entryDone true (userResult c 0 false false false true s))

/-- HK_REF_POWERDOWN (R380): 1 ms in which no entry has selected the external reference. -/
def execHkRefPowerdown (s : State) : Host.Outcome State Fault Refusal :=
  .next (match s.hk.extAt with
    | none => s
    | some a =>
      if (match s.hk.conv with | some c => c.wait | none => false) then s
      else ((s.at (a + msU)).put Fld.HKA_STAT_REFRDY (s.get Fld.HKA_STAT_REFRDY &&& 5)).setHk { s.hk with extAt := none })

/-- The temperature of an external TSRC (R222, table of `HKA_XT`), in 0.125 degrees. -/
def State.extTemp (s : State) (code : Nat) : Int :=
  let num := (code * 2500000 : Nat) - signed 16 (s.get Fld.HKA_XT_XOFF) * 1000 * 65536
  roundEven (8 * num) (65536 * max 1 (s.get Fld.HKA_XT_XSLOPE))

/-- The temperature of TSRC at the end of a round, in 0.125 degrees, with its overrange (R222, R381): of the external input that the round has converted, else of the die centre;
none when TSRC names an input that the round did not convert. -/
def State.tsrcReading (s : State) : Option (Int × Bool) :=
  if s.get Fld.TIM_VCXO_TSRC < 32 then s.hk.tsrc.map fun x => (s.extTemp x.1, x.2) else some (s.sensEff 83, false)

/-- VBAT of a converter: below VBLIM it sets VBLOW (R386). -/
def noteVbat (mv : Nat) (s : State) : State :=
  let s := s.put Fld.HTH_MON_VAL_VBAT mv
  if mv < 1600 + 10 * s.get Fld.HTH_MON_CFG_VBLIM then s.put Fld.HTH_MON_CFG_VBLOW 1 else s

/-- HK_ROUND_END (R222, R366, R374, R381, R386, R398): the round's readings serve the supervisor and the other consumers. -/
def execHkRoundEnd (s : State) : Host.Outcome State Fault Refusal :=
  .next (if !s.hk.inRound || s.hk.conv.isSome || !s.hk.round.isEmpty then s
    else
      let temps := s.hk.temps
      let s := (s.put Fld.HKA_STAT_ROUND 0).inc (Fld.HKA_CNTn_COUNT.i 0)
      let s := noteVbat (s.get (Fld.HKA_SUPn_VAL.i 8)) (s.setHk { s.hk with inRound := false, temps := [] })
      let s := trimStep (thermalRound temps s)
      takeUser (match s.tsrcReading with
        | none => s
        | some x => vcxoRenew x.1 ((s.put (Fld.HKA_SUPn_OVR.i 17) (b2n x.2)).put (Fld.HKA_SUPn_VAL.i 17) (unsigned 16 x.1))))

/-! ### The user sequence (R383, R384) -/

/-- A write to `HKA_SEQCTL` (R383). -/
def seqctlWrite (r : Req) (v : Word) (s : State) : State :=
  let s := s.storeReg r Reg.HKA_SEQCTL v
  let run := s.flag Fld.HKA_STAT_SEQRUN
  let user := match s.hk.conv with | some c => !c.fixed | none => false
  let s := if !v.getLsbD 30 || !run then s
    else if user then s.setHk { s.hk with stop := true }
    else if s.hk.pos < 33 then endPass true s
    else s.put Fld.HKA_STAT_SEQRUN 0
  if !v.getLsbD 31 then s
  else if s.flag Fld.HKA_STAT_SEQRUN then s.put Fld.HKA_STAT_GOREF 1
  else
    let s := s.put Fld.HKA_STAT_SEQRUN 1
    if s.seqMode = 2 then s.setHk { s.hk with perDue := s.now }
    else
      let s := s.setHk { s.hk with pos := 0 }
      if s.hk.conv.isSome || s.hk.inRound then s else takeUser s

/-- HK_SEQ_GO (R383). -/
def execHkSeqGo (r : Req) (v : Word) (s : State) : Host.Outcome State Fault Refusal := .next (regCmd r Reg.HKA_SEQCTL v (seqctlWrite r v) s)

/-- HK_SEQ_STOP (R383). -/
def execHkSeqStop (r : Req) (v : Word) (s : State) : Host.Outcome State Fault Refusal := .next (regCmd r Reg.HKA_SEQCTL v (seqctlWrite r v) s)

/-- HK_SEQ_PERIODIC_START (R383): in MODE 2 a pass starts at a whole multiple of SPER ms, or is skipped and counted. -/
def execHkSeqPeriodicStart (s : State) : Host.Outcome State Fault Refusal :=
  .next (if !s.flag Fld.HKA_STAT_SEQRUN || s.seqMode != 2 then s
    else
      let d := nextMult (max s.now (s.hk.perDue + 1)) (max 1 (s.get Fld.HKA_SEQCTL_SPER) * msU)
      let s := (s.at d).setHk { s.hk with perDue := d }
      if s.hk.pos < 33 then s.inc (Fld.HKA_CNTn_COUNT.i 4)
      else
        let s := s.setHk { s.hk with pos := 0 }
        if s.hk.conv.isSome || s.hk.inRound then s else takeUser s)

/-- A read of `HKA_RESn` latches `HKA_RSTn` (R384). -/
def resRead (n : Fin 32) (s : State) : Nat × State :=
  ((s.rd (Reg.HKA_RESn + 8 * n)).toNat, s.setHk { s.hk with latch := (n.val, s.rd (Reg.HKA_RSTn + 8 * n)) :: s.hk.latch.filter fun l => l.1 != n.val })

/-- A read of `HKA_RSTn`: the latched word if `HKA_RESn` was read before; NEW stays set when a result came since, or comes in the same access (`events`; R8, R384). -/
def rstRead (n : Fin 32) (events : Nat) (s : State) : Nat × State :=
  let w := s.rd (Reg.HKA_RSTn + 8 * n)
  let l := ((s.hk.latch.find? fun l => l.1 == n.val).map fun l => l.2).getD w
  let s := s.setHk { s.hk with latch := s.hk.latch.filter fun l => l.1 != n.val }
  (l.toNat, if l = w then s.put (Fld.HKA_RSTn_NEW.i n) (min 1 events) else s)

/-- HK_RES_READ (R384). -/
def execHkResRead (r : Req) (n : Fin 32) (s : State) : Host.Outcome State Fault Refusal :=
  .next (readCmd r (Reg.HKA_RESn + 8 * n) (resRead n) s)

end Sys2Proof.Machine
end

