-- ==== Sys2Proof/Machine/Hearth.lean ====
section
/-!
DEFINITION. The Hearth domain's calendar (R228, R229, R359) and its monitor ADC (R386).
-/

namespace Sys2Proof.Machine

/-- Changes the calendar. -/
def State.setCalen (s : State) (x : Calendar) : State := { s with calen := x }

/-- The word `HTH_CAL_HI` shows: the fraction and seconds bits 47:32. -/
def State.calHi (s : State) : Nat := s.calendar % 32768 * 2 ^ 17 + s.calSec / 2 ^ 32

/-- A read of `HTH_CAL_LO` latches `HTH_CAL_HI` (R229). -/
def calLoRead (s : State) : Nat × State :=
  (s.calSec % 2 ^ 32, s.setCalen { s.calen with hi := some (BitVec.ofNat 32 s.calHi) })

/-- A read of `HTH_CAL_HI`: the latched word, before any latch the present one. -/
def calHiRead (s : State) : Nat := match s.calen.hi with | some w => w.toNat | none => s.calHi

/-- The temperature that compensates the crystal, in 0.125 degrees (R228, R374): the Hearth monitor's in KEEP and LISTEN, else the die centre's. -/
def State.calTemp (s : State) : Int :=
  if s.pow.down = 0 then s.sensEff 83 else signed 12 (s.get Fld.HTH_MON_VAL_TEMP)

/-- CALENDAR_COMPENSATION (R228): at `t`, 32 s after the last, whole oscillator cycles are omitted (a fast crystal) or added, and the remainder carried. The
error is OFFS - K (T - T0)^2 with OFFS in 0.01 ppm and K in 0.25 ppb per square degree; in 32 s the oscillator makes 2^20 cycles. -/
def execCalendarCompensation (t : Nat) (s : State) : Host.Outcome State Fault Refusal :=
  .next (let s := s.at t
    if !s.calen.runs then s
    else
      let d := s.calTemp - 8 * signed 8 (s.get Fld.HTH_XCOMP_T0)
      let e := 4096 * (2560 * signed 16 (s.get Fld.HTH_XCOMP_OFFS) - (s.get Fld.HTH_XCOMP_K : Int) * d * d)
      let sum := s.calen.rest + e
      let n := sum.tdiv 1000000000
      let c := s.calen.rebase s.now s.now
      s.setCalen { c with count := ((c.count : Int) - n).toNat, rest := sum - n * 1000000000 })

/-- CALENDAR_OSC_FAIL (R228, R341): 4 ms without an edge: the calendar stops, VALID clears, OSCFAIL is set; a Bell receiver that listens stops. -/
def execCalendarOscFail (t : Nat) (s : State) : Host.Outcome State Fault Refusal :=
  .next (let s := s.at t
    let s := s.setCalen { s.calen with count := s.calendar, at0 := s.now, part := 0, runs := false }
    let s := { s with bel := { s.bel with since := none } }
    (s.put Fld.HTH_CAL_CTRL_VALID 0).put Fld.HTH_CAL_CTRL_OSCFAIL 1)

/-- A write to `HTH_CAL_CTRL` (R229): SYNC is refused while STEPPED is 0. -/
def calCtrlWrite (r : Req) (v : Word) (s : State) : State :=
  let s := s.storeReg r Reg.HTH_CAL_CTRL (v &&& 0xFFFFFFFE#32)
  if !v.getLsbD 0 then s
  else if !s.flag Fld.TIM_STAT_STEPPED then s.refuse4 r Reg.HTH_CAL_CTRL
  else ((s.put Fld.HTH_CAL_CTRL_SYNC 1).put Fld.HTH_CAL_CTRL_SYNCPEND 1).setCalen { s.calen with syncAt := some (nextMult (s.now + msU) secU) }

/-- CALENDAR_SYNC_WRITE (R229). -/
def execCalendarSyncWrite (r : Req) (v : Word) (s : State) : Host.Outcome State Fault Refusal :=
  .next (regCmd r Reg.HTH_CAL_CTRL v (calCtrlWrite r v) s)

/-- CALENDAR_LOAD (R228, R229): the calendar takes device time, runs again if it had stopped, and VALID is set. -/
def execCalendarLoad (s : State) : Host.Outcome State Fault Refusal :=
  .next (match s.calen.syncAt with
    | none => s
    | some d =>
      let s := s.at d
      let s := s.setCalen { s.calen with count := secOf s.now * 32768, at0 := s.now, part := 0, runs := true, syncAt := none }
      (((s.put Fld.HTH_CAL_CTRL_VALID 1).put Fld.HTH_CAL_CTRL_OSCFAIL 0).put Fld.HTH_CAL_CTRL_SYNCPEND 0).put Fld.HTH_CAL_CTRL_SYNC 0)

/-- HEARTH_MONITOR_CONVERSION (R386): in KEEP and LISTEN, at `t`, VBAT in mV and the Hearth temperature in 0.125 degrees. -/
def execHearthMonitorConversion (mv : Nat) (temp : Int) (t : Nat) (s : State) : Host.Outcome State Fault Refusal :=
  .next (if s.pow.down = 0 ∨ ¬ s.pow.hearth then s else noteVbat mv ((s.at t).put Fld.HTH_MON_VAL_TEMP (unsigned 12 temp)))

/-! ### Wakes of the device (R359) -/

/-- The sampled straps show in the registers (R327, R454): `boot.straps` holds REFSEL in bits 1:0, CHAIN_HEAD in bit 2, BASE in bits 5:3, BOOTSRC in
bits 7:6. An invalid strap keeps the part in reset with FAULT_L asserted. -/
def sampleStraps (s : State) : State :=
  let x := s.boot.straps
  let bad := x % 4 == 3 || x / 64 % 4 == 3
  let s := ((s.put Fld.CLK_REF_MULT (x % 4)).put Fld.TLY_STAT_HEAD (x / 4 % 2)).put Fld.TLY_STAT_BASE (x / 8 % 8)
  { s with
    flt := { s.flt with badStrap := bad }
    boot := { s.boot with inReset := bad } }

/-- WAKE_OUT is asserted (R359, R360, R453): a wake is a device reset; the wake sequencer runs from step 0x1. -/
def wakeNow (s : State) : State :=
  let s := sampleStraps (deviceReset (s.put Fld.SYS_RSTCAUSE_WAKE 1))
  { s with
    pow := { s.pow with left := s.pow.down, down := 0, wakeOut := true, held := false, step := 1, try_ := 1, stepAt := s.now, refOff := false }
    bel := { s.bel with on := false, since := none } }

/-- A wake source of the Hearth domain acts in KEEP or LISTEN (R359): it is held within 10 ms of the fall of WAKE_OUT. -/
def wakeDevice (s : State) : State :=
  if s.pow.down = 0 then s
  else if s.now < s.pow.outAt + 10 * msU then { s with pow := { s.pow with held := true } }
  else wakeNow s

/-- CALENDAR_ALARM (R359): at `t` the calendar's seconds equal SEC. -/
def execCalendarAlarm (t : Nat) (s : State) : Host.Outcome State Fault Refusal :=
  .next (let s := s.at t
    if s.pow.down != 0 && s.flag Fld.HTH_WAKECFG_ALARM_EN && s.flag Fld.HTH_CAL_CTRL_VALID
        && s.calSec % 2 ^ 32 == s.get Fld.HTH_ALARM_SEC then wakeDevice (s.put Fld.HTH_WAKECFG_ALARM_HIT 1)
    else s)

/-- WAKE_HOLD_EXPIRY (R359): the held wake asserts WAKE_OUT once the rails needed in STANDBY have fallen, or 10 ms after the fall of WAKE_OUT. -/
def execWakeHoldExpiry (s : State) : Host.Outcome State Fault Refusal :=
  .next (if !s.pow.held then s
    else
      let fallen := s.pow.rails % 128 &&& 0x6D == 0x6D
      wakeNow (if fallen then s else s.at (s.pow.outAt + 10 * msU)))

end Sys2Proof.Machine
end

