-- ==== Sys2Proof/Machine/Calibration.lean ====
section
/-!
DEFINITION. Calibration (R397 to R407) and built-in self-test (R408 to R413): requests, their runs and checks, substitutions; a test up to its last pass.
-/

namespace Sys2Proof.Machine

/-! ### Calibration requests (R397 to R404) -/

/-- Changes the CAL block. -/
def State.setCal (s : State) (x : Cal) : State := { s with cal := x }

/-- The request of slot `n`. -/
def State.calReq (s : State) (n : Fin 9) : Option CalReq := s.cal.req[n]

/-- Puts a request into slot `n`. -/
def State.setReq (s : State) (n : Fin 9) (q : Option CalReq) : State := s.setCal { s.cal with req := s.cal.req.set n q }

/-- The hamlet of a slot; slot 8 has none of its own. -/
def calHamlet (n : Fin 9) : Fin 8 := Fin.ofNat 8 n

/-- Is a kind allowed in a slot, in a mode (R400)? -/
def calAllowed (n : Fin 9) (kind mode : Nat) : Bool :=
  if n = 8 then (kind == 1 || kind == 2) && mode == 0
  else match kind with
    | 4 => decide (mode ≤ 1)
    | 6 => decide (mode ≤ 2)
    | 3 | 7 | 8 => mode == 0
    | _ => false

/-- Does a kind need the converter PLL (R401)? -/
def calNeedsPll (kind : Nat) : Bool := kind == 4 || kind == 6 || kind == 7

/-- The foreground precondition of the table of R400. -/
def State.calPre (s : State) (h : Fin 8) (kind mask : Nat) : Bool :=
  match kind with
  | 3 => s.flag (Fld.PLL_CTRL_EN.h h) && !s.flag (Fld.PLL_STAT_LOCK.h h) && !s.flag (Fld.PLL_STAT_ACQUIRING.h h)
  | 4 => (List.range 8).all fun k => !bitOf mask k || s.bit (Fld.TXC_STAT_MUTED.h h) k
  | 6 => (List.range 8).all fun k => !bitOf mask k || !s.flag ((Fld.RXC_TRIMk_EN.i k).h h)
  | 7 => s.get (Fld.ORX_STAT_OWNER.h h) == 0
  | 8 => (biasOf h).all fun c => !bitOf mask (c.val % 4)
      || (s.biasOut c == s.get (Fld.BDA_CHc_CLR_CODE.i c) && s.biasOwner c == 0)
  | _ => true

/-- Does hamlet `h` let a request of a kind run: its domain up, the PLL locked where the kind needs it, and in F mode the precondition (R400, R401)? -/
def State.calRuns (s : State) (h : Fin 8) (kind mode mask : Nat) : Bool :=
  decide (2 ≤ s.hstate h) && !s.flag (Fld.PWR_HSTATE_BUSY.sub h) && (!calNeedsPll kind || s.flag (Fld.PLL_STAT_LOCK.h h))
    && (mode != 0 || s.calPre h kind mask)

/-- A request of slot `n` ends with a code (R404): DONE or FAIL, the count, and for a failure notice 0x460. -/
def endCal (n : Fin 9) (kind code : Nat) (s : State) : State :=
  let s := (s.setReq n none).setCal { s.cal with req := s.cal.req.set n none, ended := s.cal.ended || (kind == 1 && (s.calReq n).isSome) }
  let s := ((s.put (Fld.CAL_STATs_BUSY.i n) 0).put (Fld.CAL_REQs_GO.i n) 0).put (Fld.CAL_STATs_CODE.i n) code
  if code = 0 then (s.put (Fld.CAL_STATs_DONE.i n) 1).inc (Fld.CAL_CNTn_COUNT.i 0)
  else
    let s := (s.put (Fld.CAL_STATs_FAIL.i n) 1).inc (Fld.CAL_CNTn_COUNT.i 1)
    s.raise 0x460 0xFF (s.rd (Reg.CAL_STATs + 32 * n)).toNat

/-- Has a running request of slot `n` lost what it needs (R401): by an isolation, a safety clear, an entry, a loss of lock or a precondition lost, whether or not it has
come back? -/
def State.calLost (s : State) (n : Fin 9) (q : CalReq) : Bool :=
  q.lost || (decide (n.val < 8) && !s.calRuns (calHamlet n) q.kind q.mode q.mask)

/-- GO in an idle slot (R399 to R401): the request starts, or ends at once with code 3 or 6. -/
def calGo (n : Fin 9) (s : State) : State :=
  let kind := s.get (Fld.CAL_REQs_KIND.i n)
  let mode := s.get (Fld.CAL_REQs_MODE.i n)
  let mask := s.get (Fld.CAL_REQs_MASK.i n)
  let s := (s.put (Fld.CAL_STATs_KIND.i n) kind).put (Fld.CAL_STATs_RUNS.i n) 0
  if !calAllowed n kind mode || mask == 0 || (n.val < 8 && (s.bist.target == some n.val || !s.calRuns (calHamlet n) kind mode mask)) then
    endCal n kind 3 s
  else if kind != 1 && !s.cal.ended then endCal n kind 6 s
  else
    let q : CalReq := { kind := kind, mode := mode, check := s.get (Fld.CAL_REQs_CHECK.i n), mask := mask, go := s.now, last := s.now, estAt := s.now }
    ((s.setReq n (some q)).put (Fld.CAL_STATs_BUSY.i n) 1).put (Fld.CAL_REQs_GO.i n) 1

/-- STOP for a running request (R401, R404): code 7, in L mode DONE when an estimate has been applied; a request that has lost what it needs ends with code 4. -/
def calStop (n : Fin 9) (s : State) : State :=
  match s.calReq n with
  | none => s
  | some q => if s.calLost n q then endCal n q.kind 4 s else endCal n q.kind (if q.mode = 2 ∧ q.any then 0 else 7) s

/-- A write to `CAL_REQs` (R399, R404). -/
def calReqWrite (r : Req) (n : Fin 9) (v : Word) (s : State) : State :=
  let busy := (s.calReq n).isSome
  let s := s.storeReg r (Reg.CAL_REQs + 32 * n) (v &&& 0x7FFFFFFF#32)
  let s := if v.getLsbD 30 then calStop n s else s
  if !v.getLsbD 31 then s
  else if busy then s.put (Fld.CAL_STATs_REFUSED.i n) 1
  else calGo n s

/-- CAL_GO (R399). -/
def execCalGo (r : Req) (n : Fin 9) (v : Word) (s : State) : Host.Outcome State Fault Refusal :=
  .next (regCmd r (Reg.CAL_REQs + 32 * n) (v ||| 0x80000000#32) (calReqWrite r n (v ||| 0x80000000#32)) s)

/-- CAL_STOP (R404). -/
def execCalStop (r : Req) (n : Fin 9) (v : Word) (s : State) : Host.Outcome State Fault Refusal :=
  .next (regCmd r (Reg.CAL_REQs + 32 * n) (v ||| 0x40000000#32) (calReqWrite r n (v ||| 0x40000000#32)) s)

/-! ### Guard steps, runs, estimates (R401, R402) -/

/-- Does an interval lie in the window of one off symbol of the latched slot-table entries (R401): 0.5 us inside each end? -/
def State.offWindow (s : State) (h : Fin 8) (t0 t1 : Nat) : Bool :=
  s.slt[h].latched.any fun l =>
    let ecp := s.refEcp l.num
    (List.range (symsOf ecp)).any fun n =>
      let a := l.symStart ecp n
      let b := l.symStart ecp (n + 1)
      (match l.words with | [] => true | w :: _ => w.toNat / 4 ^ n % 4 == 0)
        && decide (a + usU / 2 ≤ t0) && decide (t1 + usU / 2 ≤ b)

/-- CAL_GUARD_STEP (R401): 4 us of work from `t` on, in G mode, inside an off symbol. -/
def execCalGuardStep (h : Fin 8) (t : Nat) (s : State) : Host.Outcome State Fault Refusal :=
  .next (let n : Fin 9 := ⟨h.val, by omega⟩
    match s.calReq n with
    | none => s
    | some q =>
      let t := max t s.now
      if q.mode = 1 ∧ s.offWindow h t (t + 4 * usU) then (s.at (t + 4 * usU)).setReq n (some { q with steps := q.steps + 1 }) else s)

/-- The guard steps that one run of a kind needs (R401): 1.5 ms a TX path, 4 ms an RX path. -/
def guardNeed (q : CalReq) : Nat := (if q.kind = 4 then 375 else 1000) * ((List.range 8).filter fun k => bitOf q.mask k).length

/-- Do two runs agree (R402): every pair of values within TOL? -/
def calAgree (tol : Nat) (a b : List Int) : Bool := a.length == b.length && (a.zip b).all fun p => decide ((p.1 - p.2).natAbs ≤ tol)

/-- The mean of two runs, rounded convergently (R402). -/
def calMean (a b : List Int) : List Int := (a.zip b).map fun p => roundEven (p.1 + p.2) 2

/-- What the runs of a request give (R402), newest first: the values to apply, a disagreement (code 2), or another run. -/
def calJudge (check tol : Nat) (runs : List (List Int)) : Option (List Int) × Nat :=
  match runs with
  | [] => (none, 0)
  | [a] => if 2 ≤ check then (none, 0) else (some a, 0)
  | [b, a] => if check < 2 then (some b, 0) else if calAgree tol b a then (some (calMean b a), 0) else (none, 0)
  | c :: b :: a :: _ =>
    if check < 2 then (some c, 0)
    else if calAgree tol c b then (some (calMean c b), 0)
    else if calAgree tol c a then (some (calMean c a), 0) else (none, 2)

/-- CAL_RUN_END (R402): a run of every named unit ends at `t`, with the correction values it found (for kind 0x01 the reference in the units of VAL; for kind
0x03 the 64 band codes) and the units beyond their trim (MASK bit, unit). A G run ends once its steps are made; a run that ends after the timeout comes too late, and a request that has
lost what it needs ends with code 4 (R401). -/
def execCalRunEnd (n : Fin 9) (vals : List Int) (worn : List (Nat × Nat)) (t : Nat) (s : State) : Host.Outcome State Fault Refusal :=
  .next (match s.calReq n with
    | none => s
    | some q =>
      let tmo := q.go + max 1 (s.get (Fld.CAL_PARs_TMO.i n)) * msU
      if s.calLost n q then endCal n q.kind 4 s
      else if q.mode = 2 ∨ q.vals.isSome ∨ q.code ≠ 0 ∨ (q.mode = 1 ∧ q.steps < guardNeed q) then s
      else if q.check ≠ 2 ∧ tmo < max s.now t then endCal n q.kind 1 (s.at tmo)
      else
        let s := (s.at t).inc (Fld.CAL_STATs_RUNS.i n)
        let runs := vals :: q.runs
        let x := calJudge q.check (s.get (Fld.CAL_PARs_TOL.i n)) runs
        s.setReq n (some { q with runs := runs, worn := worn, steps := 0, vals := x.1, code := x.2 }))

/-- The spares in use of the element that MASK bit `j` of a slot names, its number of spares, its DEG bit, and the unit's number for INFO (R405, R407). -/
def calElem (n : Fin 9) (kind j : Nat) : Field × Nat × Field × Nat :=
  match kind with
  | 4 => (Fld.CAL_PATHe_DACSP.i (8 * n + j), 6, Fld.CAL_PATHe_DACDEG.i (8 * n + j), 8 * n + j)
  | 6 => (Fld.CAL_PATHe_ADCSP.i (8 * n + j), 2, Fld.CAL_PATHe_ADCDEG.i (8 * n + j), 8 * n + j)
  | 7 => (Fld.CAL_ORXh_ADCSP.i n, 2, Fld.CAL_ORXh_ADCDEG.i n, n)
  | _ => (Fld.CAL_BIASc_SEGSP.i (4 * n + j % 4), 4, Fld.CAL_BIASc_DEG.i (4 * n + j % 4), 4 * n + j % 4)

/-- A spare is switched in (R405). -/
def calSwitch (n : Fin 9) (kind j : Nat) (s : State) : State :=
  let x := calElem n kind j
  ((s.put x.1 (min x.2.1 (s.get x.1 + 1))).inc (Fld.CAL_CNTn_COUNT.i 2)).raise 0x461 0xFF x.2.2.2

/-- One unit beyond its trim (R403, R405, R406): a spare at once in F mode, a substitution that waits in G and L mode; without a spare the element is degraded.
The flag says that a unit found no spare. -/
def calWorn (n : Fin 9) (kind mode : Nat) (p : State × Bool) (w : Nat × Nat) : State × Bool :=
  let s := p.1
  let x := calElem n kind w.1
  let waiting := (s.cal.subs.filter fun y => (calElem (Fin.ofNat 9 y.slot) y.kind y.bit).1 == x.1).length
  if s.get x.1 + waiting < x.2.1 then
    if mode = 0 then (calSwitch n kind w.1 s, p.2)
    else (s.setCal { s.cal with subs := s.cal.subs ++ [⟨n, kind, w.1, s.now⟩] }, p.2)
  else (((s.put x.2.2.1 1).inc (Fld.CAL_CNTn_COUNT.i 3)).raise 0x462 0xFF x.2.2.2, true)

/-- The corrections of a request take effect: at once in F mode, at the next half-subframe boundary in G and L mode (R403). -/
def calApply (n : Fin 9) (q : CalReq) (vals : List Int) (s : State) : State :=
  let key := 256 * n.val + q.kind
  if q.mode = 0 then s.setCal { s.cal with trims := (key, vals) :: s.cal.trims.filter fun x => x.1 != key }
  else s.setCal { s.cal with next := s.cal.next ++ [(halfAfter2 s.now, key, vals)] }

/-- The reference trim (R398): within 2 % of nominal VALID, VAL and the trim's goal in millionths, which a change of at most 0.01 % reaches at once; the first success since reset
forms the temperature coefficient from the fused test data and the die-centre reading. Otherwise NOREF, the references return to their untrimmed values, 0x463 and code 6. -/
def calReference (v : Int) (s : State) : State × Nat :=
  let nom : Int := if s.flag Fld.CAL_CFG_SRC then 25000 else 40000
  if (v - nom).natAbs * 50 ≤ nom.toNat then
    let s := ((s.put Fld.CAL_REFSTAT_VALID 1).put Fld.CAL_REFSTAT_NOREF 0).put Fld.CAL_REFSTAT_VAL v.toNat
    let die := s.sensEff 83
    let s := s.setCal { s.cal with goal := (v - nom) * 1000000 / nom, coef := some (s.cal.coef.getD (Config.refCoef die, die)) }
    (if (s.trimGoal - s.cal.trim).natAbs ≤ 100 then s.setCal { s.cal with trim := s.trimGoal } else s, 0)
  else
    let s := ((s.put Fld.CAL_REFSTAT_VALID 0).put Fld.CAL_REFSTAT_NOREF 1).setCal { s.cal with goal := 0 }
    (s.raise 0x463 0xFF (s.rd Reg.CAL_REFSTAT).toNat, 6)

/-- The 64 entries of the band table are filled (R400, R332). -/
def calBands (h : Fin 8) (vals : List Int) (s : State) : State :=
  (List.range 64).foldl (fun s n => (s.put ((Fld.PLL_BANDn_CODE.i n).h h) (vals.getD n 0).toNat).put ((Fld.PLL_BANDn_VALID.i n).h h) 1) s

/-- CAL_REQUEST_END (R403, R404): a request whose runs are done takes effect and ends; one that has lost what it needs applies nothing (R401). -/
def execCalRequestEnd (n : Fin 9) (s : State) : Host.Outcome State Fault Refusal :=
  .next (match s.calReq n with
    | none => s
    | some q =>
      if s.calLost n q then endCal n q.kind 4 s
      else if q.code ≠ 0 then endCal n q.kind q.code s
      else match q.vals with
        | none => s
        | some vals =>
          if q.kind = 1 then
            let x := calReference (vals.getD 0 0) s
            endCal n 1 x.2 x.1
          else
            let s := if q.kind = 3 then calBands (calHamlet n) vals s else calApply n q vals s
            let x := if 4 ≤ q.kind then q.worn.foldl (calWorn n q.kind q.mode) (s, false) else (s, false)
            endCal n q.kind (if x.2 then 5 else 0) x.1)

/-- CAL_LIVE_ESTIMATE (R401, R402): at `t`, at the earliest 50 ms after the last one, an estimate of a request in L mode; `level` says that the signal was strong enough. With repeat
agreement it is applied only if it agrees with the previous one. -/
def execCalLiveEstimate (h : Fin 8) (vals : List Int) (worn : List (Nat × Nat)) (level : Bool) (t : Nat) (s : State) : Host.Outcome State Fault Refusal :=
  .next (let n : Fin 9 := ⟨h.val, by omega⟩
    match s.calReq n with
    | none => s
    | some q =>
      if s.calLost n q then endCal n q.kind 4 s
      else if q.mode ≠ 2 ∨ !level then s
      else
        let s := (s.at (max t (q.estAt + 50 * msU))).inc (Fld.CAL_STATs_RUNS.i n)
        let q := { q with estAt := s.now }
        let good := decide (q.check < 2) || (match q.est with | some e => calAgree (s.get (Fld.CAL_PARs_TOL.i n)) vals e | none => false)
        if good then
          let s := calApply n q vals (s.setReq n (some { q with est := some vals, last := s.now, any := true }))
          (worn.foldl (calWorn n q.kind 2) (s, false)).1
        else s.setReq n (some { q with est := some vals }))

/-- CAL_TIMEOUT (R402): TMO ms after GO the request ends with code 1; in L mode, with no estimate applied in TMO ms, FAIL is set with code 1 and it goes on. -/
def execCalTimeout (n : Fin 9) (s : State) : Host.Outcome State Fault Refusal :=
  .next (match s.calReq n with
    | none => s
    | some q =>
      if s.calLost n q then endCal n q.kind 4 s
      else if q.check = 2 then s
      else
        let tmo := max 1 (s.get (Fld.CAL_PARs_TMO.i n)) * msU
        if q.mode = 2 then
          let s := s.at (q.last + tmo)
          ((s.setReq n (some { q with last := s.now })).put (Fld.CAL_STATs_FAIL.i n) 1).put (Fld.CAL_STATs_CODE.i n) 1
        else endCal n q.kind 1 (s.at (q.go + tmo)))

/-- CAL_PRECONDITION_LOST (R401): a request whose precondition, PLL lock or domain is lost, or whose hamlet was isolated or cleared, ends with code 4. -/
def execCalPreconditionLost (n : Fin 9) (s : State) : Host.Outcome State Fault Refusal :=
  .next (match s.calReq n with
    | none => s
    | some q => if s.calLost n q then endCal n q.kind 4 s else s)

/-- CAL_SUBSTITUTION (R403): the oldest substitution of hamlet `h` that waits takes place at the air start of the next symbol silent for its path; with none
within 10 ms at the next half-subframe boundary, with LATE. -/
def execCalSubstitution (h : Fin 8) (s : State) : Host.Outcome State Fault Refusal :=
  .next (let n : Fin 9 := ⟨h.val, by omega⟩
    match s.cal.subs.find? fun x => x.slot == h.val with
    | none => s
    | some x =>
      let s := s.setCal { s.cal with subs := s.cal.subs.erase x }
      match s.silentAfter h (if x.kind = 4 then 0 else 1) x.at0 with
      | some t => calSwitch n x.kind x.bit (s.at t)
      | none => (calSwitch n x.kind x.bit (s.at (nextMult (x.at0 + 10 * msU) halfU))).put (Fld.CAL_STATs_LATE.i n) 1)

/-! ### Built-in self-test (R408 to R413) -/

/-- Changes the BIST block. -/
def State.setBist (s : State) (x : Bist) : State := { s with bist := x }

/-- May a test of hamlet `h` start (R408)? -/
def State.bistReady (s : State) (h : Fin 8) : Bool :=
  !s.bit Fld.LNK_ULC_CFG_HMASK h && (s.eng[hEng h].state == 0 || s.eng[hEng h].state == 3) && s.flag (Fld.DMA_CTRL_ALLSTOP.h h)
    && s.flag (Fld.ARB_STAT_DRAINED.h h) && s.get (Fld.ORX_STAT_OWNER.h h) == 0 && decide (2 ≤ s.hstate h)
    && !s.flag (Fld.PWR_HSTATE_BUSY.sub h) && !s.flag (Fld.CAL_STATs_BUSY.i h)

/-- The registers that a request for the next boot stores in the retention store, in the order in which the model keeps them (R413). -/
def bistKept : List Nat :=
  [Reg.BIST_CMD, Reg.BIST_PATS, Reg.BIST_SEED_LO, Reg.BIST_SEED_HI, Reg.BIST_EXPL_LO, Reg.BIST_EXPL_HI, Reg.BIST_EXPM_LO, Reg.BIST_EXPM_HI]

/-- The retention words of a request for the next boot (R413, R469); the first one is 0 when there is none. -/
abbrev bistRet : Nat := 0x04100220

/-- The flags of the last test clear at each accepted GO (R408). -/
def bistFlagsClear (s : State) : State :=
  [Fld.BIST_STAT_LPASS, Fld.BIST_STAT_LFAIL, Fld.BIST_STAT_MPASS, Fld.BIST_STAT_MFAIL, Fld.BIST_STAT_NOSPARE, Fld.BIST_STAT_NFAIL].foldl (fun s f => s.put f 0) s

/-- A test of a target begins (R408, R410, R411): flags and captures of the last test clear. -/
def bistStart (target kind : Nat) (repair : Bool) (s : State) : State :=
  let s := bistFlagsClear s
  let s := (List.range 16).foldl (fun s n => s.wr (Reg.BIST_FAILn + 4 * n) 0#32) s
  let s := ((s.put Fld.BIST_STAT_BUSY 1).put Fld.BIST_CMD_GO 1).put Fld.BIST_STAT_TARGET target
  (s.put Fld.BIST_STAT_PHASE (if kind = 1 then 2 else 1)).setBist ⟨some target, kind, repair, s.bist.irq, false⟩

/-- A write to `BIST_CMD` (R408, R409, R413): GO starts a hamlet's test, its TX paths sending zero code, stores the Reeve's for the next boot, or is refused. -/
def bistCmdWrite (r : Req) (v : Word) (s : State) : State :=
  let busy := s.flag Fld.BIST_STAT_BUSY
  let s := s.storeReg r Reg.BIST_CMD (v &&& 0x7FFFFFFF#32)
  if !v.getLsbD 31 then s
  else
    let target := getBits Fld.BIST_CMD_TARGET v
    let kind := getBits Fld.BIST_CMD_KIND v
    let next := v.getLsbD 30
    let good := !busy && kind != 3 && (if target < 8 then !next && s.bistReady (Fin.ofNat 8 target) else target == 8 && next)
    if !good then (s.put Fld.BIST_STAT_REFUSED 1).refuse4 r Reg.BIST_CMD
    else if target < 8 then bistStart target kind (v.getLsbD 29) (s.forceZero (Fin.ofNat 8 target) true)
    else (bistFlagsClear s).wrAll bistRet (bistKept.map fun a => if a = Reg.BIST_CMD then v else s.rd a)

/-- BIST_GO (R408). -/
def execBistGo (r : Req) (v : Word) (s : State) : Host.Outcome State Fault Refusal :=
  .next (regCmd r Reg.BIST_CMD (v ||| 0x80000000#32) (bistCmdWrite r (v ||| 0x80000000#32)) s)

/-- A 64-bit value of a pair of BIST registers. -/
def State.bistPair (s : State) (lo : Nat) : Nat := (s.rd lo).toNat + (s.rd (lo + 4)).toNat * 2 ^ 32

/-- BIST_LOGIC_END (R410): the signature after the last pattern is compared; memory BIST or the ending follows. -/
def execBistLogicEnd (sig : BitVec 64) (t : Nat) (s : State) : Host.Outcome State Fault Refusal :=
  .next (if s.get Fld.BIST_STAT_PHASE ≠ 1 then s
    else
      let s := (s.at t).wrAll Reg.BIST_SIGL_LO [BitVec.ofNat 32 sig.toNat, BitVec.ofNat 32 (sig.toNat / 2 ^ 32)]
      let good := s.bistPair Reg.BIST_EXPL_LO == sig.toNat
      let s := (s.put Fld.BIST_STAT_LPASS (b2n good)).put Fld.BIST_STAT_LFAIL (b2n (!good))
      s.put Fld.BIST_STAT_PHASE (if s.bist.kind = 2 then 2 else 4))

/-- The store under test: of a hamlet, or the Reeve SRAM (R411, R413). -/
def State.bistStore (s : State) : Nat := s.bist.target.getD 0

/-- A failing row gets the lowest free spare of its bank (R411); a spare that served it has failed. The flag says whether it got one. -/
def bistRepair (k bank row : Nat) (s : State) : State × Bool :=
  let s := (List.range 8).foldl (fun s n =>
    if s.flag ((Fld.STO_REPAIRn_VALID.i (8 * bank + n)).st k) && s.get ((Fld.STO_REPAIRn_ROW.i (8 * bank + n)).st k) == row then
      s.put ((Fld.STO_REPAIRn_FAILED.i (8 * bank + n)).st k) 1 else s) s
  match s.freeSpare k bank with
  | none => (s.put Fld.BIST_STAT_NOSPARE 1, false)
  | some n => ((s.put ((Fld.STO_REPAIRn_ROW.i (8 * bank + n)).st k) row).put ((Fld.STO_REPAIRn_VALID.i (8 * bank + n)).st k) 1, true)

/-- One failing row of pass 1 (R411): counted, captured while a `BIST_FAILn` is free, repaired with REPAIR = 1. -/
def bistRow (s : State) (r : Nat × Nat) : State :=
  let n := s.get Fld.BIST_STAT_NFAIL
  let x := if s.bist.repair then bistRepair s.bistStore r.1 r.2 s else (s, false)
  let s := x.1.inc Fld.BIST_STAT_NFAIL
  if n < 16 then s.wr (Reg.BIST_FAILn + 4 * n) (BitVec.ofNat 32 (2 ^ 31 + b2n x.2 * 2 ^ 30 + r.1 % 16 * 65536 + r.2 % 1024)) else s

/-- A failing spare is marked FAILED and not reused (R411). -/
def bistSpare (s : State) (r : Nat × Nat) : State := s.put ((Fld.STO_REPAIRn_FAILED.i (8 * r.1 + r.2 % 8)).st s.bistStore) 1

/-- Every word of the store under test, its spare rows among them, is zero with valid check bits (R411). -/
def bistClear (s : State) : State :=
  let k := s.bistStore
  { s.clearMem fun a => storeOf a == k with
    ecc := s.ecc.filter fun e => storeOf e.word != k
    sto := s.sto.mapFinIdx fun i x _ => if i = k then { x with hidden := [] } else x }

/-- BIST_MEMORY_PASS_END (R411): pass 1 with its failing rows and failing spares (bank, row or spare), or pass 2, ends with a signature. With rows repaired a second
pass follows; the signature of the last pass is compared. -/
def execBistMemoryPassEnd (rows spares : List (Nat × Nat)) (sig : BitVec 64) (t : Nat) (s : State) : Host.Outcome State Fault Refusal :=
  .next (
    let ph := s.get Fld.BIST_STAT_PHASE
    if ph ≠ 2 ∧ ph ≠ 3 then s
    else
      let s := bistClear (s.at t)
      let s := if ph = 2 then rows.foldl bistRow (spares.foldl bistSpare s) else s
      if ph = 2 ∧ s.bist.repair ∧ rows ≠ [] then s.put Fld.BIST_STAT_PHASE 3
      else
        let s := s.wrAll Reg.BIST_SIGM_LO [BitVec.ofNat 32 sig.toNat, BitVec.ofNat 32 (sig.toNat / 2 ^ 32)]
        let good := s.bistPair Reg.BIST_EXPM_LO == sig.toNat
        ((s.put Fld.BIST_STAT_MPASS (b2n good)).put Fld.BIST_STAT_MFAIL (b2n (!good))).put Fld.BIST_STAT_PHASE 4)

/-- A read of `BIST_STAT` ends the BIST interrupt (R488). -/
def bistStatRead (s : State) : Nat × State := ((s.rd Reg.BIST_STAT).toNat, s.setBist { s.bist with irq := false })

/-- BIST_STAT_READ (R488). -/
def execBistStatRead (r : Req) (s : State) : Host.Outcome State Fault Refusal := .next (readCmd r Reg.BIST_STAT bistStatRead s)

end Sys2Proof.Machine
end

