-- ==== Sys2Proof/Machine/Tally.lean ====
section
/-!
DEFINITION. The Tally chain (R230 to R238): windows and hops, following the chain, enumeration, census and broadcast commands. What the chain
carries is handed to its hops as `Out.tally op args`: OP of `TLY_CMD` for a broadcast command, 6 for a fan-out, 7 for a token, 8 for the census list that the head
broadcasts, 9 for a TIME message, 10 for the count, 11 for the census on its way down, 12 for its list on the way back; and leaves in windows, `Out.window`.
-/

namespace Sys2Proof.Machine

/-- The state with its Tally block changed. -/
def State.setTly (s : State) (x : Tly) : State := { s with tly := x }

/-! ### Windows (R231, R232) -/

/-- Enumeration begins at the head (R236): its retained address, or 32 * BASE, and the token. -/
def startEnum (force : Bool) (s : State) : State :=
  let kept := (s.rd 0x04100200).toNat % 256
  let fresh := force || kept == 255
  let a := if fresh then 32 * s.get Fld.TLY_STAT_BASE else kept
  let s := (s.put Fld.TLY_STAT_ADDR a).put Fld.TLY_STAT_RETAINED (b2n !fresh)
  let s := s.wr 0x04100200 (BitVec.ofNat 32 a)
  let s := s.setTly { s.tly with token := some (a + 1, force, s.now + msU) }
  let s := s.put Fld.TLY_STAT_LAST 0
  if s.flag Fld.TLY_STAT_DNLINK then s.tallySend false true 7 [a + 1, b2n force] 1 else s

/-- A hop comes up after 16 consecutive good windows; the head's downstream hop starts enumeration (R231, R236). With its upstream hop up again a follower drives SYNCOUT only
once it is ALIGNED (R233). -/
def hopUp (up : Bool) (s : State) : State :=
  if up then (s.put Fld.TLY_STAT_UPLINK 1).setTly { s.tly with running := false }
  else
    let s := s.put Fld.TLY_STAT_DNLINK 1
    if s.flag Fld.TLY_STAT_HEAD then startEnum false s
    else match s.tly.token with
      | some (n, f, due) => if s.now ≤ due then State.tallySend ((s.put Fld.TLY_STAT_LAST 0).setTly { s.tly with token := none }) false true 7 [n, b2n f] 1 else s
      | none => s

/-- A hop goes down after 8 consecutive bad or missing windows, counted (R231); the upstream hop's VALID and ALIGNED fall with it, and a SYNCOUT
that runs goes on (R232, R234). -/
def hopDown (up : Bool) (s : State) : State :=
  let s := s.inc (Fld.TLY_CNTn_COUNT.i 1)
  if up then
    let s := s.setTly { s.tly with running := s.flag Fld.TLY_STAT_ALIGNED }
    let s := ((s.put Fld.TLY_STAT_UPLINK 0).put Fld.TLY_HOP_VALID 0).put Fld.TLY_STAT_ALIGNED 0
    s.setTim { s.tim with near := 0, slew := 0 }
  else s.put Fld.TLY_STAT_DNLINK 0

/-- A good window on a hop. -/
def goodWindow (up : Bool) (s : State) : State :=
  let g := (if up then s.tly.good.1 else s.tly.good.2) + 1
  let s := s.setTly (if up then { s.tly with good := (g, s.tly.good.2), bad := (0, s.tly.bad.2) }
    else { s.tly with good := (s.tly.good.1, g), bad := (s.tly.bad.1, 0) })
  if g = 16 && !(if up then s.flag Fld.TLY_STAT_UPLINK else s.flag Fld.TLY_STAT_DNLINK) then hopUp up s else s

/-- A bad or missing window on a hop. -/
def badWindow (up : Bool) (s : State) : State :=
  let b := (if up then s.tly.bad.1 else s.tly.bad.2) + 1
  let was := if up then s.flag Fld.TLY_STAT_UPLINK else s.flag Fld.TLY_STAT_DNLINK
  let s := s.setTly (if up then { s.tly with good := (0, s.tly.good.2), bad := (b, s.tly.bad.2) }
    else { s.tly with good := (s.tly.good.1, 0), bad := (s.tly.bad.1, b) })
  if b = 8 && was then hopDown up s else s

/-- The CRC-16 of a window (R231): polynomial 0x1021, initial value 0xFFFF, over TYPE to the payload. -/
def crc16 (bytes : List Nat) : Nat :=
  bytes.foldl (fun c b => (List.range 8).foldl (fun c i =>
    let top := bitOf c 15 != bitOf b (7 - i)
    if top then (c * 2 % 65536) ^^^ 0x1021 else c * 2 % 65536) c) 0xFFFF

/-- The 44 characters of a window (R231): K28.5, TYPE, LEN, the payload, the CRC and K28.0 fill; TYPE and the payload of a message are free values. -/
def windowChars (op : Nat) (args : List Nat) : List Nat :=
  let pay := ((Config.tallyPayload op args).take 39).map (· % 256)
  let body := [Config.tallyType op % 256, pay.length] ++ pay
  [0x1BC] ++ body ++ beBytes 2 (crc16 body) ++ List.replicate (39 - pay.length) 0x11C

/-- A hop sends its next window: the oldest message it still has to send, or none (R231). -/
def sendWindow (up : Bool) (s : State) : State :=
  match (if up then s.tly.outUp else s.tly.outDn) with
  | [] => s.emit (.window up (windowChars 0 []))
  | (op, args, n) :: t =>
    let q := if n ≤ 1 then t else (op, args, n - 1) :: t
    State.emit (s.setTly (if up then { s.tly with outUp := q } else { s.tly with outDn := q })) (.window up (windowChars op args))

/-- TALLY_WINDOW_MISSED (R231): a cycle in which the window of a hop does not arrive; in the downstream hop's cycle the part has sent its own. -/
def execTallyWindowMissed (up : Bool) (s : State) : Host.Outcome State Fault Refusal :=
  .next (if s.flag Fld.TLY_CFG_EN then badWindow up (if up then s else sendWindow false s) else s)

/-- The hop delay d (R232), in fine steps: half of the average round trip less 2.000 us; the round trips are in time units. -/
def hopDelay (trips : List Nat) : Nat := (trips.sum - trips.length * (2 * usU)) / (2 * trips.length * fineU)

/-- HOP_DELAY_AVERAGE (R232): the round trips of 256 cycles of the upstream hop, from the stamps of the commas. -/
def execHopDelayAverage (trips : List Nat) (s : State) : Host.Outcome State Fault Refusal :=
  .next (if s.flag Fld.TLY_STAT_UPLINK && trips.length == 256 then (s.put Fld.TLY_HOP_DELAY (hopDelay trips)).put Fld.TLY_HOP_VALID 1 else s)

/-! ### SYNC (R233, R234) -/

/-- SYNCOUT_PULSE (R233): at the next frame boundary, the TIME message before it. While its upstream hop is down a follower keeps a SYNCOUT that it drove and marks HOLD (R234). -/
def execSyncoutPulse (s : State) : Host.Outcome State Fault Refusal :=
  .next (let t := nextMult (max s.now (s.tly.pulse + 1)) frameU
    let head := s.flag Fld.TLY_STAT_HEAD
    if s.flag Fld.TLY_CFG_EN && (if head then s.flag Fld.TIM_STAT_STEPPED else s.flag Fld.TLY_STAT_ALIGNED || !s.flag Fld.TLY_STAT_UPLINK && s.tly.running) then
      let hold := s.get Fld.TIM_STAT_STATE == 2 || (!head && !s.flag Fld.TLY_STAT_UPLINK)
      let args := [secOf t % 2 ^ 48, nsOf t, b2n hold]
      let s := State.at (s.setTly { s.tly with pulse := t }) t
      ((s.emit (.tally 9 args)).emit (.window false (windowChars 9 args))).emit (.syncout t)
    else s)

/-- The follower's bookkeeping of one offset (R234): what it slews, and ALIGNED at two consecutive offsets within 50 ps. -/
def followOffset (off : Int) (s : State) : State :=
  let near := if off.natAbs ≤ nsU / 20 then s.tim.near + 1 else 0
  let accepted := s.get Fld.TIM_STAT_LASTRES = 0
  let s := s.setTim { s.tim with near := near, slew := if accepted then off else s.tim.slew, slewAt := if s.tim.slew = 0 then s.now else s.tim.slewAt }
  if 2 ≤ near then s.put Fld.TLY_STAT_ALIGNED 1 else s

/-- TALLY_SYNC_EDGE (R234): an edge at TLY_SYNCIN at `t`; `time` is the instant that its TIME message names (seconds, nanoseconds), if it
has one beside that of the last window. -/
def execTallySyncEdge (t : Nat) (time : Option (Nat × Nat)) (s : State) : Host.Outcome State Fault Refusal :=
  .next (let s := s.at t
    let stamp := s.stamp 3 t
    let said := s.tly.time
    let s := State.setTly ((takeCap 1 stamp s).put Fld.TIM_STAT_SYNCNEW 1) { s.tly with time := none }
    match time <|> said with
    | none => s
    | some (sec, ns) =>
      if !s.follower then s
      else
        let off : Int := ((sec * secU + ns * nsU + s.get Fld.TLY_HOP_DELAY * fineU : Nat) : Int) - stamp
        let s := s.setTim { s.tim with syncAt := stamp }
        followOffset off (judge 4 off (!s.flag Fld.TIM_STAT_STEPPED || s.flag Fld.TIM_STEPCTL_AUTH) false s))

/-- FOLLOWER_SLEW (R234, R330): 250 us after the last, the phase moves one fine step towards zero offset. -/
def execFollowerSlew (s : State) : Host.Outcome State Fault Refusal :=
  .next (if s.tim.slew.natAbs < fineU then s
    else
      let k : Int := if 0 < s.tim.slew then 1 else -1
      let s := s.at (s.tim.slewAt + 250 * usU)
      let s := movePhase k s
      let s := s.setTim { s.tim with slew := s.tim.slew - k * fineU, slewAt := s.now }
      { s with now := shiftBy (k * fineU) s.now })

/-! ### Enumeration and census (R236, R237) -/

/-- A token arrives (R236): the device keeps its retained address or takes NEXT, and passes the token on; with no address to take it has 255. -/
def takeToken (next : Nat) (force : Bool) (s : State) : State :=
  let pass (a : Nat) (s : State) : State :=
    let s := s.put Fld.TLY_STAT_LAST 0
    if s.flag Fld.TLY_STAT_DNLINK then s.tallySend false true 7 [a + 1, b2n force] 1
    else s.setTly { s.tly with token := some (a + 1, force, s.now + msU) }
  (let kept := (s.rd 0x04100200).toNat % 256
    let fresh := force || kept == 255
    if !s.flag Fld.TLY_CFG_EN then s
    else if fresh && decide (255 ≤ next) then
      let s := ((s.put Fld.TLY_STAT_ADDR 255).put Fld.TLY_STAT_NOADDR 1).put Fld.TLY_STAT_RETAINED 0
      pass 255 (s.raise 0x445 0xFF (s.rd Reg.TLY_STAT).toNat)
    else
      let a := if fresh then next else kept
      let s := ((s.put Fld.TLY_STAT_ADDR a).put Fld.TLY_STAT_RETAINED (b2n !fresh)).wr 0x04100200 (BitVec.ofNat 32 a)
      pass a s)

/-- ENUM_TOKEN (R236). -/
def execEnumToken (next : Nat) (force : Bool) (s : State) : Host.Outcome State Fault Refusal := .next (takeToken next force s)

/-- ENUM_LAST_TIMEOUT (R236): the downstream hop is not up within 1 ms of the token: the device is LAST and returns the count. -/
def execEnumLastTimeout (s : State) : Host.Outcome State Fault Refusal :=
  .next (match s.tly.token with
    | none => s
    | some (_, _, due) =>
      if s.flag Fld.TLY_STAT_DNLINK then s.setTly { s.tly with token := none }
      else
        let s := State.at (s.setTly { s.tly with token := none }) due
        (s.put Fld.TLY_STAT_LAST 1).tallySend true false 10 [1] 1)

/-- The count of devices comes back from downstream (R236): passed on upstream with this device in it; at the head enumeration is over, and the census goes down
(R237). -/
def takeCount (n : Nat) (s : State) : State :=
  if s.flag Fld.TLY_STAT_HEAD then (s.setTly { s.tly with place := some 0 }).tallySend false true 11 [s.get Fld.TLY_STAT_ADDR] 1
  else s.tallySend true false 10 [n + 1] 1

/-- The census on its way down (R237): this device appends its address, at its own position; the last returns the list. -/
def gatherCensus (list : List Nat) (s : State) : State :=
  let l := list ++ [s.get Fld.TLY_STAT_ADDR]
  let s := s.setTly { s.tly with place := some list.length }
  if s.flag Fld.TLY_STAT_LAST then s.tallySend true false 12 l 1 else s.tallySend false true 11 l 1

/-- The census list that the head broadcasts (R237): the addresses by position, stored with POS and passed on; an own address that occurs more than once sets DUP. -/
def takeCensus (list : List Nat) (s : State) : State :=
  (if !s.flag Fld.TLY_CFG_EN then s
    else
      let a := s.get Fld.TLY_STAT_ADDR
      let s := (List.range 32).foldl (fun s i => s.put ((Fld.TLY_CENSUSn_ADDR.i (i / 4)).sub (i % 4)) (list.getD i 255)) s
      let s := (s.put Fld.TLY_STAT_ENUMDONE 1).tallySend false true 8 list 1
      let s := match s.tly.place <|> list.findIdx? (fun x => x == a) with
        | some p => s.put Fld.TLY_STAT_POS p
        | none => s
      if 2 ≤ (list.filter fun x => x == a).length ∧ a ≠ 255 then
        let s := s.put Fld.TLY_STAT_DUP 1
        s.raiseSev 0x445 (severityOf 0x445) 0xFF (s.rd Reg.TLY_STAT).toNat true
      else s)

/-- CENSUS (R237). -/
def execCensus (list : List Nat) (s : State) : Host.Outcome State Fault Refusal := .next (takeCensus list s)

/-- The census list comes back to the head, which broadcasts it (R237). -/
def returnCensus (list : List Nat) (s : State) : State :=
  if s.flag Fld.TLY_STAT_HEAD then takeCensus list s else s.tallySend true false 12 list 1

/-! ### Broadcast commands (R235, R238) -/

/-- The target at the origin: the one occurrence of the seconds modulo 65,536 between 250 us and 4 s after the write. -/
def originTarget (now sec ns : Nat) : Option Nat :=
  let cand : List Nat := (List.range 6).filterMap fun k =>
    let x := now / secU + k
    let t := x * secU + ns * nsU
    if x % 65536 = sec % 65536 ∧ now + 250 * usU ≤ t ∧ t ≤ now + 4 * secU then some t else none
  if 999999999 < ns then none else cand.head?

/-- The target at a receiver: the occurrence nearest to now. -/
def nearestTarget (now sec ns : Nat) : Int :=
  let s := now / secU
  let t : Int := ((s + (sec % 65536 + 65536 - s % 65536) % 65536) * secU + ns * nsU : Nat)
  let u := t - (65536 * secU : Nat)
  if t - now ≤ now - u then t else u

/-- A chain-wide COMMIT for the instant `t` arrives in hamlet `h` (R66, R77, R80, R86): a beam commit with WHEN = 2 that is pending gets its symbol
boundary. A pending slot-table commit with CHAIN = 1 gets its frame boundary, or CHAINMISS when that lies less than 100 us after the check ended, or is refused
with ERR_CODE 9 when an entry breaks the duplex mode in force there. -/
def chainCommit (t : Nat) (s : State) (h : Fin 8) : State :=
  let s := match s.bfm[h].pend with
    | some p => if p.whenCode = 2 ∧ p.due = none then
        let c := s.carAt p.car t
        let due := if c.en then nextSymbol c (t - 1) else t
        { s with bfm := s.bfm.set h { s.bfm[h] with pend := some { p with due := some due } } }
      else s
    | none => s
  if s.flag (Fld.SLT_STAT_PEND.h h) && s.flag (Fld.SLT_CTRL_CHAIN.h h) && s.slt[h].swapDue.isNone then
    let b := nextMult t frameU
    let cfg := s.slt[h].cfgTaken
    let ecp := s.refEcp (getBits Fld.SLT_CFG_REFNUM cfg)
    let free := bufferBase h cfg (1 - s.get (Fld.SLT_STAT_ACTIVE.h h))
    if b < s.slt[h].checkEnd + 100 * usU then
      let s := s.put (Fld.SLT_STAT_CHAINMISS.h h) 1
      s.raise 0x427 h (s.rd (hamletBase h + Reg.SLT_STAT)).toNat
    else match (List.range (patternLen cfg)).find? (fun e => dirmapBad (s.entryWordsAt free e) ecp (s.duplexAt b)) with
      | some e => slotFail h e 9 ((s.put (Fld.SLT_STAT_PEND.h h) 0).put (Fld.SLT_STAT_ERR.h h) 1)
      | none => { s with slt := s.slt.set h { s.slt[h] with swapDue := some b } }
  else s

/-- A command waits for its target `t`; a COMMIT is matched with the pending commits at once (R86). -/
def waitTarget (op t : Nat) (s : State) : State :=
  let s := s.setTly { s.tly with cmds := s.tly.cmds ++ [(op, t)] }
  if op = 4 then (List.finRange 8).foldl (chainCommit t) s else s

/-- A write to `TLY_CMD` (R238): the command goes in both directions and waits for its target here; without a target in the window it is refused. -/
def tlyCmdWrite (r : Req) (v : Word) (s : State) : State :=
  let op := getBits Fld.TLY_CMD_OP v
  let sec := s.get Fld.TLY_CMD_SEC_SEC
  let ns := s.get Fld.TLY_CMD_NS_NS
  let send (args : List Nat) (s : State) : State := if s.flag Fld.TLY_CFG_EN then s.tallySend true true op args 3 else s
  if op = 1 ∨ op = 2 then
    let s := send [] s
    if s.flag Fld.TLY_CFG_EN && s.flag Fld.TLY_STAT_HEAD then startEnum (op == 2) s else s
  else if 3 ≤ op ∧ op ≤ 5 then
    match originTarget s.now sec ns with
    | none => (s.put Fld.TLY_STAT_CMDREF 1).refuse4 r Reg.TLY_CMD
    | some t => send [sec, ns] (waitTarget op t s)
  else s

/-- A command register write with OP `op`. -/
def tlyCmd (op : Nat) (r : Req) (s : State) : State :=
  regCmd r Reg.TLY_CMD (BitVec.ofNat 32 (op * 2 ^ 28)) (tlyCmdWrite r (BitVec.ofNat 32 (op * 2 ^ 28))) s

/-- TLY_ENUM (R236). -/
def execTlyEnum (r : Req) (s : State) : Host.Outcome State Fault Refusal := .next (tlyCmd 1 r s)
/-- TLY_ENUMF (R236). -/
def execTlyEnumf (r : Req) (s : State) : Host.Outcome State Fault Refusal := .next (tlyCmd 2 r s)
/-- TLY_MUTE (R238). -/
def execTlyMute (r : Req) (s : State) : Host.Outcome State Fault Refusal := .next (tlyCmd 3 r s)
/-- TLY_COMMIT (R238). -/
def execTlyCommit (r : Req) (s : State) : Host.Outcome State Fault Refusal := .next (tlyCmd 4 r s)
/-- TLY_STEPAUTH (R235). -/
def execTlyStepauth (r : Req) (s : State) : Host.Outcome State Fault Refusal := .next (tlyCmd 5 r s)

/-- The first good copy of a broadcast command from a hop (R238): counted, passed on, and scheduled, or late. -/
def takeCommand (up : Bool) (op sec ns : Nat) (s : State) : State :=
  (if !s.flag Fld.TLY_CFG_EN || op == 0 || decide (5 < op) then s
    else
      let s := s.inc (Fld.TLY_CNTn_COUNT.i 2)
      let s := s.tallySend (!up) up op (if op ≤ 2 then [] else [sec, ns]) 3
      if op ≤ 2 then (if s.flag Fld.TLY_STAT_HEAD then startEnum (op == 2) s else s)
      else
        let t := nearestTarget s.now sec ns
        if t < s.now then
          let s := (s.put Fld.TLY_STAT_LATECMD 1).inc (Fld.TLY_CNTn_COUNT.i 3)
          s.raise 0x445 0xFF (s.rd Reg.TLY_STAT).toNat
        else waitTarget op t.toNat s)

/-- TALLY_COMMAND_RECEIVED (R238). -/
def execTallyCommandReceived (c : HopCmd) (sec ns : Nat) (s : State) : Host.Outcome State Fault Refusal := .next (takeCommand c.up c.op sec ns s)

/-- The safety ramp starts in every hamlet whose domain runs (R106, R238). -/
def rampAll (s : State) : State := (List.finRange 8).foldl (fun (s : State) (h : Fin 8) => if 2 ≤ s.hstate h then s.safetyRamp h else s) s

/-- TALLY_COMMAND_TARGET (R235, R238): the earliest waiting command is applied at its target; the commits that a COMMIT found take effect at their own
boundaries (R86). -/
def execTallyCommandTarget (s : State) : Host.Outcome State Fault Refusal :=
  .next (match popTrig (s.tly.cmds.map fun p => (p.2, p.1)) with
    | none => s
    | some ((t, op), rest) =>
      let s := State.at (s.setTly { s.tly with cmds := rest.map fun p => (p.2, p.1) }) t
      if op = 3 then rampAll s
      else if op = 4 then s
      else s.put Fld.TIM_STEPCTL_AUTH 1)

/-- A fault fan-out from a hop (R238): recorded as notice 0x446 with the sender's address, passed on; with FANACT the safety ramp starts at once. -/
def takeFanout (up : Bool) (addr : Nat) (s : State) : State :=
  if !s.flag Fld.TLY_CFG_EN then s
  else
    let s := ((s.inc (Fld.TLY_CNTn_COUNT.i 2)).tallySend (!up) up 6 [addr] 3).raise 0x446 0xFF (addr % 256)
    if s.flag Fld.TLY_CFG_FANACT then rampAll s else s

/-- FANOUT_RECEIVED (R238). -/
def execFanoutReceived (f : HopFan) (s : State) : Host.Outcome State Fault Refusal := .next (takeFanout f.up f.addr s)

/-! ### The message of a window (R231, R234, R236 to R238) -/

/-- What a Tally message from a hop does. -/
def doTally (up : Bool) (op : Nat) (args : List Nat) (s : State) : State :=
  let a := args.getD 0 0
  if 1 ≤ op ∧ op ≤ 5 then takeCommand up op a (args.getD 1 0) s
  else if op = 6 then takeFanout up a s
  else if op = 7 then takeToken a (args.getD 1 0 != 0) s
  else if op = 8 then takeCensus args s
  else if op = 9 then s.setTly { s.tly with time := some (a, args.getD 1 0) }
  else if op = 10 then takeCount a s
  else if op = 11 then gatherCensus args s
  else if op = 12 then returnCensus args s
  else s

/-- The message of a good window: of the copies in three consecutive windows the first is acted on (R238). -/
def takeTally (up : Bool) (body : List Nat) (s : State) : State :=
  let old := if up then s.tly.seenUp else s.tly.seenDn
  let keep (x : Option ((Nat × List Nat) × Nat)) (s : State) : State :=
    s.setTly (if up then { s.tly with seenUp := x } else { s.tly with seenDn := x })
  let aged := old.bind fun x => if x.2 ≤ 1 then none else some (x.1, x.2 - 1)
  match Config.tallyRead (body.getD 0 0) (body.drop 2) with
  | none => keep aged s
  | some m => match old with
    | some (o, _) => if o = m then keep aged s else doTally up m.1 m.2 (keep (some (m, 2)) s)
    | none => doTally up m.1 m.2 (keep (some (m, 2)) s)

/-- TALLY_WINDOW (R231): a window of a hop with TYPE, LEN and payload (`body`) and its CRC; a bad one is discarded and counted. The part answers a downstream window with
an upstream one; before an upstream window it has sent the downstream one of the cycle. -/
def execTallyWindow (up : Bool) (body : List Nat) (crc : Nat) (s : State) : Host.Outcome State Fault Refusal :=
  .next (if !s.flag Fld.TLY_CFG_EN then s
    else
      let s := sendWindow up s
      if crc16 body = crc ∧ body.getD 1 0 ≤ 39 ∧ body.length = 2 + body.getD 1 0 then takeTally up body (goodWindow up s)
      else badWindow up (s.inc (Fld.TLY_CNTn_COUNT.i 0)))

/-- A write to `TLY_CFG` (R230, R218): as EN is set the 30 ms limit of source 4 begins. -/
def tlyCfgWrite (r : Req) (v : Word) (s : State) : State :=
  let old := s.flag Fld.TLY_CFG_EN
  let s := s.storeReg r Reg.TLY_CFG v
  if !old && s.flag Fld.TLY_CFG_EN then s.setTim { s.tim with syncAt := s.now } else s

end Sys2Proof.Machine
end

