-- ==== Sys2Proof/Machine/Stile.lean ====
section
/-!
DEFINITION. The Stile radio (R433 to R444) and the Bell receiver (R445 to R450).
-/

namespace Sys2Proof.Machine

/-! ### Packets (R434, R435, R444) -/

/-- The PN9 sequence of R435, as bytes, most significant bit first. -/
def pn9 (n : Nat) : List Nat :=
  ((List.range n).foldl (fun (p : Nat × List Nat) _ =>
    let x := (List.range 8).foldl (fun (q : Nat × Nat) _ =>
      let b := q.1 % 2
      (q.1 / 2 + (b + q.1 / 32) % 2 * 256, q.2 * 2 + b)) (p.1, 0)
    (x.1, p.2 ++ [x.2])) (0x1FF, [])).2

/-- Bytes with the whitening of R435 applied or removed. -/
def whiten (on : Bool) (l : List Nat) : List Nat := if on then (l.zip (pn9 l.length)).map fun p => Nat.xor p.1 p.2 else l

/-- Changes the radio. -/
def State.setStl (s : State) (x : Stl) : State := { s with stl := x }

/-- Header, payload and CRC of a packet (R435). -/
def packetBytes (l : List Nat) : List Nat := l ++ beBytes 2 (crc16 l)

/-- Bytes that words hold, most significant byte first. -/
def wordBytes (l : List Word) : List Nat := l.flatMap fun w => beBytes 4 w.toNat

/-- The bits of bytes, most significant first (R435). -/
def bitsOfBytes (l : List Nat) : List Nat := l.flatMap fun b => (List.range 8).map fun i => b / 2 ^ (7 - i) % 2

/-- Bits in 2-GFSK, in thirds of DEV (R434). -/
def gfsk2 (l : List Nat) : List Int := l.map fun b => if b = 1 then 3 else -3

/-- Bits in 4-GFSK, in pairs with the first bit more significant, in thirds of DEV (R434). -/
def gfsk4 : List Nat → List Int
  | a :: b :: t => (if a = 0 then (if b = 1 then 3 else 1) else if b = 0 then -1 else -3) :: gfsk4 t
  | _ => []

/-- The symbols of a transmission in thirds of DEV (R434, R435): the preamble and the sync word in 2-GFSK, the rest in MOD. `args` holds the frequency word, the
correction, the power, the aerial, the preamble length, MOD, DEV and the symbol rate. -/
def stileSymbols (args : List Int) (bytes : List Nat) : List Int :=
  gfsk2 ((List.range (args.getD 4 0).toNat).map fun i => i % 2) ++ gfsk2 (bitsOfBytes (bytes.take 4))
    ++ (if args.getD 5 0 = 1 then gfsk4 else gfsk2) (bitsOfBytes (bytes.drop 4))

/-- A transmission leaves the aerial. -/
def State.radiate (s : State) (args : List Int) (bytes : List Nat) : State := s.emit (.stile args bytes (stileSymbols args bytes))

/-- The least number of preamble symbols (R441). -/
def minPre (cfg : Word) : Nat := if getBits Fld.STL_CFG_DIV cfg = 1 then 24 else 16

/-- The packet that a transmission takes from the transmit buffer, with the settings in force (R433 to R435, R441, R442). -/
def State.txPacket (s : State) : List Int × List Nat :=
  let cfg := s.stl.cfg
  let words := (List.range 65).map fun w => s.rd (Reg.STL_TXBUF + 4 * w)
  let len := (words.headD 0#32).toNat % 256
  let ant := if s.flag Fld.STL_STAT_EXCH && getBits Fld.STL_CFG_DIV cfg == 1 then s.stl.ant else s.get Fld.STL_PKT_TXANT
  ([s.stl.freq, signed 16 (s.get Fld.STL_STAT_FOFF), min 48 (s.get Fld.STL_PKT_PWR), ant, max (minPre cfg) (s.get Fld.STL_PKT_PRELEN),
      getBits Fld.STL_CFG_MOD cfg, getBits Fld.STL_CFG_DEV cfg, getBits Fld.STL_CFG_SRATE cfg],
    beBytes 4 (s.get Fld.STL_SYNC_SYNC) ++ whiten (getBits Fld.STL_CFG_WHITEN cfg == 1) (packetBytes ((wordBytes words).take (4 + len))))

/-- The payload of a status answer (R444): what the Hearth domain keeps and who answers (0 Hearth, 1 boot ROM). -/
def State.statusWords (s : State) (agent : Nat) : List Word :=
  [s.rd Reg.HTH_WAKEREC, s.rd Reg.HTH_THMREC, s.rd Reg.HTH_MON_VAL, BitVec.ofNat 32 s.calSec, s.rd 0x04100204,
   BitVec.ofNat 32 (agent * 2 ^ 24 + (s.rd 0x04100200).toNat % 256 * 65536)]

/-! ### States and commands (R437 to R440) -/

/-- Moves STATE. -/
def stlState (n : Nat) (s : State) : State := s.put Fld.STL_STAT_STATE n

/-- The exchange ends and its correction is cleared (R442). -/
def endExchange (s : State) : State := (s.put Fld.STL_STAT_EXCH 0).put Fld.STL_STAT_FOFF 0

/-- The radio stands in Sleep (0) or Standby (1). -/
def stlDown (n : Nat) (s : State) : State :=
  let s := endExchange (((stlState n s).put Fld.STL_STAT_LATCHED 0).put Fld.STL_STAT_SYNCD 0)
  s.setStl { s.stl with goal := n, entered := none, lock := false, late := false }

/-- Synth is entered from Standby: written settings take effect, the band calibration and the lock begin (R433, R437, R438). -/
def enterSynth (s : State) : State :=
  let s := (stlState 2 s).put Fld.STL_FREQ_PEND 0
  s.setStl { s.stl with entered := some s.now, lock := false, freq := s.get Fld.STL_FREQ_FREQ, cfg := s.rd Reg.STL_CFG }

/-- RX is reached (R440). -/
def enterRx (s : State) : State := (stlState 3 s).setStl { s.stl with rxAt := s.now, late := false, goal := 3 }

/-- A transmission starts (R435). -/
def startTx (s : State) : State :=
  let s := (stlState 4 s).put Fld.STL_STAT_LATCHED 0
  s.setStl { s.stl with goal := 4, packet := s.txPacket }

/-- Does a transmission run, or is it on its way with the synthesiser locked? -/
def State.stlSending (s : State) : Bool := s.get Fld.STL_STAT_STATE == 4 || (s.stl.lock && s.get Fld.STL_STAT_STATE == 2 && s.stl.goal == 4)

/-- LASTRES of a command. -/
def stlRes (n : Nat) (s : State) : State := s.put Fld.STL_STAT_LASTRES n

/-- A refused command (R439). -/
def stlRefuse (n : Nat) (s : State) : State := (stlRes n s).inc (Fld.STL_CNTn_COUNT.i 5)

/-- The radio leaves for a locked state from Synth, RX or TX, through Synth. -/
def fromSynth (goal : Nat) (s : State) : State := ((stlState 2 s).put Fld.STL_STAT_SYNCD 0).setStl { s.stl with goal := goal }

/-- Command SYNTH, RX or TX moves the radio (R437, R438); a TX before the lock is latched. -/
def stlMove (goal : Nat) (s : State) : State :=
  let tx (s : State) : State := if goal = 4 then s.put Fld.STL_STAT_LATCHED 1 else s
  match s.get Fld.STL_STAT_STATE with
  | 0 => tx ((stlState 5 s).setStl { s.stl with goal := goal })
  | 5 => tx (s.setStl { s.stl with goal := if s.flag Fld.STL_STAT_LATCHED then 4 else goal })
  | 1 => tx (enterSynth (s.setStl { s.stl with goal := goal }))
  | 4 => s.setStl { s.stl with goal := goal }
  | 3 => if goal = 3 then s else fromSynth goal s
  | _ =>
    if s.flag Fld.STL_STAT_LATCHED then s
    else if s.stl.lock then s.setStl { s.stl with goal := if s.stl.goal = 4 then 4 else goal } else tx (s.setStl { s.stl with goal := goal })

/-- A write to `STL_CMD` (R437 to R439, R449). -/
def stlCmdWrite (v : Word) (s : State) : State :=
  let latched := s.flag Fld.STL_STAT_LATCHED
  if s.bel.answer.isSome then stlRefuse 6 s
  else match getBits Fld.STL_CMD_CMD v with
    | 1 | 2 =>
      let n := getBits Fld.STL_CMD_CMD v - 1
      let cut := latched || s.stlSending
      let s := if n = 0 then stlDown 0 s
        else if s.get Fld.STL_STAT_STATE = 0 ∨ s.get Fld.STL_STAT_STATE = 5 then
          (((stlState 5 s).put Fld.STL_STAT_LATCHED 0)).setStl { s.stl with goal := 1 }
        else stlDown 1 s
      stlRes (if cut then 5 else 0) s
    | 3 => stlRes 0 (stlMove 2 s)
    | 4 => if latched then stlRefuse 1 s else stlRes 0 (stlMove 3 s)
    | 5 =>
      if latched || s.stlSending then stlRefuse 1 s
      else if s.flag Fld.STL_STAT_SYNCD then stlRefuse 3 s
      else stlRes 0 (stlMove 4 s)
    | _ => stlRes 7 s

/-- A command's write. -/
def stlCommand (r : Req) (n : Nat) (s : State) : Host.Outcome State Fault Refusal :=
  .next (regCmd r Reg.STL_CMD (BitVec.ofNat 32 n) (stlCmdWrite (BitVec.ofNat 32 n)) s)

/-- STILE_SLEEP (R437, R439). -/
def execStileSleep (r : Req) (s : State) : Host.Outcome State Fault Refusal := stlCommand r 1 s
/-- STILE_STANDBY (R437, R439). -/
def execStileStandby (r : Req) (s : State) : Host.Outcome State Fault Refusal := stlCommand r 2 s
/-- STILE_SYNTH (R437). -/
def execStileSynth (r : Req) (s : State) : Host.Outcome State Fault Refusal := stlCommand r 3 s
/-- STILE_RX (R437, R439). -/
def execStileRx (r : Req) (s : State) : Host.Outcome State Fault Refusal := stlCommand r 4 s
/-- STILE_TX (R438, R439). -/
def execStileTx (r : Req) (s : State) : Host.Outcome State Fault Refusal := stlCommand r 5 s

/-- A write to `STL_FREQ` (R433, R442): inside the bands it waits for the next entry to Synth and ends the exchange. -/
def stlFreqWrite (r : Req) (v : Word) (s : State) : State :=
  let f := getBits Fld.STL_FREQ_FREQ v * 26
  let mhz (n : Nat) := n * 2 ^ 20
  if (mhz 863 ≤ f ∧ f ≤ mhz 870) ∨ (mhz 902 ≤ f ∧ f ≤ mhz 928) then
    endExchange ((s.storeReg r Reg.STL_FREQ v).put Fld.STL_FREQ_PEND 1)
  else s.refuse4 r Reg.STL_FREQ

/-- A write to `STL_CFG` (R433): DEV and SRATE in range, or the write is ignored. -/
def stlCfgWrite (r : Req) (v : Word) (s : State) : State :=
  let dev := getBits Fld.STL_CFG_DEV v
  let rate := getBits Fld.STL_CFG_SRATE v
  if 20 ≤ dev ∧ dev ≤ 4000 ∧ 125 ≤ rate ∧ rate ≤ 4000 then (s.storeReg r Reg.STL_CFG v).put Fld.STL_FREQ_PEND 1
  else s.refuse4 r Reg.STL_CFG

/-- The synthesiser locks: a latched transmission starts (R438). -/
def stlLock (s : State) : State :=
  let s := s.setStl { s.stl with lock := true, entered := none }
  if s.flag Fld.STL_STAT_LATCHED then startTx s else s

/-- STILE_STATE_REACHED (R437): at `t` the crystal runs, the synthesiser locks, or RX or TX is reached. -/
def execStileStateReached (t : Nat) (s : State) : Host.Outcome State Fault Refusal :=
  .next (let s := s.at t
    match s.get Fld.STL_STAT_STATE with
    | 5 =>
      let s := stlState 1 s
      if 2 ≤ s.stl.goal then enterSynth s else s
    | 2 =>
      if !s.stl.lock then stlLock s
      else if s.stl.goal = 3 then enterRx s
      else if s.stl.goal = 4 then startTx s else s
    | _ => s)

/-- STILE_SYNTH_LOCK (R438). -/
def execStileSynthLock (t : Nat) (s : State) : Host.Outcome State Fault Refusal :=
  .next (if s.get Fld.STL_STAT_STATE = 2 ∧ !s.stl.lock then stlLock (s.at t) else s)

/-- STILE_TX_WAIT_TIMEOUT (R438): TX_WAIT after the entry to Synth without a lock: the TX is aborted with LASTRES 2, the radio returns to Standby. -/
def execStileTxWaitTimeout (s : State) : Host.Outcome State Fault Refusal :=
  .next (match s.stl.entered with
    | none => s
    | some e =>
      if !s.flag Fld.STL_STAT_LATCHED then s
      else stlRefuse 2 (stlDown 1 (s.at (e + max 20 (min 1000 (s.get Fld.STL_SEQ_TXWAIT)) * usU))))

/-- The radio goes on after a packet: 0 Standby, 1 Synth, 2 RX (R440). -/
def stlNext (n : Nat) (s : State) : State :=
  match n with
  | 1 => fromSynth 2 s
  | 2 => if s.get Fld.STL_STAT_STATE = 3 then enterRx s else fromSynth 3 s
  | _ => stlDown 1 s

/-- STILE_PACKET_SENT (R440): the packet has left; a command given meanwhile acts in place of TXNEXT. -/
def execStilePacketSent (t : Nat) (s : State) : Host.Outcome State Fault Refusal :=
  .next (if s.get Fld.STL_STAT_STATE ≠ 4 then s
    else
      let s := ((s.at t).radiate s.stl.packet.1 s.stl.packet.2).inc (Fld.STL_CNTn_COUNT.i 0)
      stlNext (match s.stl.goal with | 2 => 1 | 3 => 2 | _ => s.get Fld.STL_SEQ_TXNEXT) s)

/-! ### Reception (R436, R440 to R443) -/

/-- STILE_PREAMBLE_DETECT (R441): with diversity the aerial with the higher RSSI (dBm), aerial 0 on equal values; else RXANT. -/
def execStilePreambleDetect (rssi0 rssi1 : Int) (t : Nat) (s : State) : Host.Outcome State Fault Refusal :=
  .next (if s.get Fld.STL_STAT_STATE ≠ 3 ∨ s.flag Fld.STL_STAT_SYNCD then s
    else
      let s := s.at t
      let ant := if getBits Fld.STL_CFG_DIV s.stl.cfg = 1 then (if rssi0 < rssi1 then 1 else 0) else s.get Fld.STL_PKT_RXANT
      s.setStl { s.stl with sel := ant, rssi := if ant = 1 then rssi1 else rssi0 })

/-- STILE_SYNC_DETECT (R441, R442): the AGC freezes, SYNCD is set, and the estimate of the offset (10 Hz) within the capture range is added to the correction; `rssi`
is measured on the chosen aerial. -/
def execStileSyncDetect (off rssi : Int) (t : Nat) (s : State) : Host.Outcome State Fault Refusal :=
  .next (
    let lim := min (5 * getBits Fld.STL_CFG_SRATE s.stl.cfg) 6000
    if s.get Fld.STL_STAT_STATE ≠ 3 ∨ s.flag Fld.STL_STAT_SYNCD ∨ lim < off.natAbs then s
    else
      let s := (s.at t).put Fld.STL_STAT_SYNCD 1
      let old := signed 16 (s.get Fld.STL_STAT_FOFF)
      let s := s.setStl { s.stl with held := old, est := off, rssi := rssi, rxAt := s.now }
      s.put Fld.STL_STAT_FOFF (unsigned 16 (clampS 16 (old + off))))

/-- A packet's bytes as words, the last padded with zeros. -/
def packWords (l : List Nat) : List Word :=
  (List.range ((l.length + 3) / 4)).map fun i =>
    let d := (l.drop (4 * i)).take 4
    BitVec.ofNat 32 (beNat (d ++ List.replicate (4 - d.length) 0))

/-- A packet is delivered to the next receive buffer, or counted if it is still FULL (R436, R443). The flag says that it was delivered. -/
def stlDeliver (body : List Nat) (lqi evm : Nat) (s : State) : State × Bool :=
  let b := s.stl.buf
  if s.flag (Fld.STL_RXb_INFO_FULL.i b) then (s.inc (Fld.STL_CNTn_COUNT.i 4), false)
  else
    let s := s.wrAll (Reg.STL_RXBUF + 512 * b) (packWords body)
    let info := 2 ^ 31 + s.stl.sel % 2 * 2 ^ 30 + unsigned 8 s.stl.rssi * 65536 + unsigned 16 s.stl.est
    let s := (s.wr (Reg.STL_RXb_INFO + 8 * b) (BitVec.ofNat 32 info)).wr (Reg.STL_RXb_QUAL + 8 * b) (BitVec.ofNat 32 (lqi % 256 * 2 ^ 24 + evm % 65536))
    ((s.inc (Fld.STL_CNTn_COUNT.i 1)).setStl { s.stl with buf := 1 - b, ant := s.stl.sel }, true)

/-- The boot ROM's answer to a status request while it holds the Reeve (R361, R444): it frees the buffer and sends a status answer. -/
def romAnswer (b : Nat) (src : Nat) (s : State) : State :=
  let body := [src % 256, s.get Fld.TLY_STAT_ADDR % 256, 0x20, 24] ++ wordBytes (s.statusWords 1)
  let args := s.txPacket.1
  let bytes := beBytes 4 (s.get Fld.STL_SYNC_SYNC) ++ whiten (getBits Fld.STL_CFG_WHITEN s.stl.cfg == 1) (packetBytes body)
  ((s.put (Fld.STL_RXb_INFO_FULL.i b) 0).radiate args bytes).inc (Fld.STL_CNTn_COUNT.i 0)

/-- STILE_PACKET_RX (R435, R436, R440, R442, R443): the bytes received after the sync word, with EVM and the number of symbols whose soft decision lies in the inner half,
from which LQI follows. -/
def execStilePacketRx (bytes : List Nat) (inner evm t : Nat) (s : State) : Host.Outcome State Fault Refusal :=
  .next (if s.get Fld.STL_STAT_STATE ≠ 3 ∨ !s.flag Fld.STL_STAT_SYNCD then s
    else
      let s := (s.at t).put Fld.STL_STAT_SYNCD 0
      let s := s.setStl { s.stl with rxAt := s.now }
      let raw := whiten (getBits Fld.STL_CFG_WHITEN s.stl.cfg == 1) bytes
      let body := raw.take (4 + raw.getD 3 0)
      let good := decide (body.length + 2 ≤ raw.length) && beNat ((raw.drop body.length).take 2) == crc16 body && decide (4 ≤ body.length)
      let stay (s : State) : State := if s.stl.late then stlDown 1 s else s
      if !good then
        stay ((s.inc (Fld.STL_CNTn_COUNT.i 2)).put Fld.STL_STAT_FOFF (unsigned 16 s.stl.held))
      else
        let s := if getBits Fld.STL_CFG_FOFB s.stl.cfg = 1 then s.put Fld.STL_STAT_EXCH 1 else s.put Fld.STL_STAT_FOFF (unsigned 16 s.stl.held)
        let addr := s.get Fld.TLY_STAT_ADDR
        let dst := body.getD 0 0
        let accept := dst == 0xFF || (addr != 0xFF && (dst == addr || getBits Fld.STL_CFG_PROMISC s.stl.cfg == 1))
        if !accept then stay (s.inc (Fld.STL_CNTn_COUNT.i 3))
        else
          let b := s.stl.buf
          let total := (body.length + 2) * (if getBits Fld.STL_CFG_MOD s.stl.cfg = 1 then 4 else 8)
          let x := stlDeliver body (255 * min inner total / total) evm s
          if !x.2 then stay x.1
          else
            let s := if s.boot.rom && body.getD 2 0 / 16 == 1 && body.length == 4 then romAnswer b (body.getD 1 0) x.1 else x.1
            stlNext (match s.get Fld.STL_SEQ_RXNEXT with | 1 => 0 | 2 => 1 | _ => 2) s)

/-- STILE_RX_TIMEOUT (R440): RXTO ms in RX without a sync return the radio to Standby; a packet in reception is completed first. -/
def execStileRxTimeout (s : State) : Host.Outcome State Fault Refusal :=
  .next (
    let to_ := s.get Fld.STL_SEQ_RXTO
    if s.get Fld.STL_STAT_STATE ≠ 3 ∨ to_ = 0 then s
    else
      let s := s.at (s.stl.rxAt + to_ * msU)
      if s.flag Fld.STL_STAT_SYNCD then s.setStl { s.stl with late := true } else stlDown 1 s)

/-! ### The Bell receiver (R445 to R450) -/

/-- Changes the receiver. -/
def State.setBel (s : State) (x : Bel) : State := { s with bel := x }

/-- A write to `BEL_CFG` (R445): a FREQ outside the bands is ignored and recorded. -/
def belCfgWrite (r : Req) (v : Word) (s : State) : State :=
  let f := getBits Fld.BEL_CFG_FREQ v
  if (8630 ≤ f ∧ f ≤ 8700) ∨ (9020 ≤ f ∧ f ≤ 9280) then s.storeReg r Reg.BEL_CFG v
  else (s.storeReg r Reg.BEL_CFG (setBits Fld.BEL_CFG_FREQ v (s.get Fld.BEL_CFG_FREQ))).refuse4 r Reg.BEL_CFG

/-- The sniff period (R446): 31.25 ms * 2^PER. -/
def State.sniffU (s : State) : Nat := msU / 4 * 125 * 2 ^ (min 5 (s.get Fld.BEL_CFG_PER))

/-- BELL_SNIFF (R23, R446): a sniff at `t`, in LISTEN with VBAT or VSTBY present, EN and a running Hearth crystal; one that finds the preamble keeps the receiver on. -/
def execBellSniff (found : Bool) (t : Nat) (s : State) : Host.Outcome State Fault Refusal :=
  .next (if s.pow.down = 2 ∧ s.pow.hearth ∧ s.bel.on ∧ s.bel.since = none ∧ s.calen.runs then
      let s := s.at t
      if found then s.setBel { s.bel with since := some s.now } else s
    else s)

/-- BELL_START_TIMEOUT (R446): no start byte within one period + 30 ms. -/
def execBellStartTimeout (s : State) : Host.Outcome State Fault Refusal :=
  .next (match s.bel.since with
    | none => s
    | some d => let s := s.at (d + s.sniffU + 30 * msU)
      (s.setBel { s.bel with since := none }).inc (Fld.BEL_CNTn_COUNT.i 0))

/-- Which wake code a CODE matches (R447): SRC of `BEL_STAT`. -/
def State.bellMatch (s : State) (code : Nat) : Option Nat :=
  let addr := (s.rd 0x04100200).toNat % 256
  if s.flag Fld.BEL_CFG_UEN && addr != 0xFF && code == s.get Fld.BEL_CFG_UPRE * 256 + addr then some 0
  else ((List.range 4).find? fun n => s.flag (Fld.BEL_GRPn_EN.i n) && s.get (Fld.BEL_GRPn_CODE.i n) == code).map fun n => 4 + n

/-- BELL_FRAME (R446 to R448): CODE and its check word end at `t`. At a match the receiver stops, WAKE_OUT is asserted subject to the hold of R359, and with VSTBY present
and ANS the Hearth answer begins. -/
def execBellFrame (code chk : BitVec 16) (t : Nat) (s : State) : Host.Outcome State Fault Refusal :=
  .next (match s.bel.since with
    | none => s
    | some _ =>
      let s := s.at t
      let s := s.setBel { s.bel with since := none }
      if chk ≠ ~~~code then s.inc (Fld.BEL_CNTn_COUNT.i 1)
      else match s.bellMatch code.toNat with
        | none => s.inc (Fld.BEL_CNTn_COUNT.i 2)
        | some src =>
          let vstby := !bitOf s.pow.rails 7
          let s := ((s.put Fld.BEL_STAT_MATCH 1).put Fld.BEL_STAT_SRC src).put Fld.BEL_STAT_CODE code.toNat
          let s := if vstby then s else s.put Fld.BEL_STAT_NOANS 1
          let s := s.setBel { s.bel with on := false, answer := if vstby && s.flag Fld.BEL_CFG_ANS then some s.now else none }
          wakeDevice s)

/-- The Stile frequency word nearest to Bell's frequency (R448). -/
def State.bellWord (s : State) : Nat := (s.get Fld.BEL_CFG_FREQ * 2 ^ 20 * 2 + 260) / 520

/-- HEARTH_ANSWER_END (R444, R448, R449): the answer has been sent within 10 ms of the match: ANSWERED is set, Stile sleeps. -/
def execHearthAnswerEnd (t : Nat) (s : State) : Host.Outcome State Fault Refusal :=
  .next (match s.bel.answer with
    | none => s
    | some d =>
      let s := s.at (min t (d + 10 * msU))
      let body := [0xFF, (s.rd 0x04100200).toNat % 256, 0x20, 24] ++ wordBytes (s.statusWords 0)
      let args : List Int := [s.bellWord, 0, min 48 (s.get Fld.BEL_ANS_PWR), s.get Fld.BEL_CFG_ANT, 32, 0, 250, 500]
      let s := s.radiate args (beBytes 4 (s.get Fld.BEL_ASYNC_ASYNC) ++ packetBytes body)
      (s.put Fld.BEL_STAT_ANSWERED 1).setBel { s.bel with answer := none })

end Sys2Proof.Machine
end

