-- ==== Sys2Proof/Machine/Agate.lean ====
section
/-!
DEFINITION. Agate, the root of trust (R456 to R468): images and their checks, the commands, fuses and lifecycle, attestation, service sessions.
-/

namespace Sys2Proof.Machine

/-! ### Fuses and lifecycle (R463 to R465) -/

/-- Changes Agate. -/
def State.setAgt (s : State) (x : Agt) : State := { s with agt := x }

/-- The lifecycle state in force (R465): 0 MANUFACTURE, 1 PROVISIONED, 2 DEPLOYED, 3 RETURN. -/
def State.lcs (s : State) : Nat := min 3 (Config.fuses.lcs + s.agt.shown)

/-- Does key slot `n` hold a hash? -/
def State.slotProg (s : State) (n : Nat) : Bool := bitOf Config.fuses.prog n || s.agt.keys.any fun k => k.1 == n

/-- Is key slot `n` revoked? -/
def State.slotRevoked (s : State) (n : Nat) : Bool := bitOf Config.fuses.revoked n || s.agt.revoked.contains n

/-- The hash fused in slot `n`. -/
def State.slotHash (s : State) (n : Nat) : List Nat :=
  match s.agt.keys.find? fun k => k.1 == n with
  | some k => k.2
  | none => beBytes 48 (Config.fuses.keyHash.getD n 0)

/-- The fuse counter (R464). -/
def State.fuseCount (s : State) : Nat := min 64 (Config.fuses.arb + s.agt.burnt)

/-- FLOOR (R464). -/
def State.svnFloor (s : State) : Nat := max s.fuseCount (s.get Fld.AGT_ARB_HEARTH)

/-- `AGT_LCS` as it reads. -/
def State.lcsWord (s : State) : Nat :=
  let bits (p : Nat → Bool) : Nat := (List.range 4).foldl (fun m n => m + b2n (p n) * 2 ^ n) 0
  s.lcs * 2 ^ 29 + b2n (s.lcs == 0 || s.lcs == 3) * 2 ^ 28 + b2n Config.fuses.pkey * 2 ^ 27 + bits s.slotRevoked * 16 + bits s.slotProg

/-- `AGT_ARB` as it reads. -/
def State.arbWord (s : State) : Nat := s.svnFloor * 65536 + s.get Fld.AGT_ARB_HEARTH * 256 + s.fuseCount

/-! ### Images (R456, R457, R460) -/

/-- The bytes of a store. -/
def State.bytesAt (s : State) (a n : Nat) : List Nat := (List.range n).map fun i => (memRead s.mem (a + i)).toNat

/-- Bytes written to a store by Agate or the boot ROM, with new check bits. -/
def State.putBytes (s : State) (a : Nat) (l : List Nat) : State :=
  { s with
    mem := (l.foldl (fun (p : List (Nat × Byte) × Nat) b => (memWrite p.1 p.2 (BitVec.ofNat 8 b), p.2 + 1)) (s.mem, a)).1
    ecc := s.ecc.filter fun e => !(decide (a ≤ e.word) && decide (e.word + 8 ≤ a + l.length)) }

/-- A little-endian field of a header. -/
def hdrNat (l : List Nat) (off n : Nat) : Nat := ((l.drop off).take n).foldr (fun b acc => acc * 256 + b) 0

/-- The bytes of a field. -/
def hdrBytes (l : List Nat) (off n : Nat) : List Nat := (l.drop off).take n

/-- Is a reserved field zero? -/
def hdrZero (l : List Nat) (off n : Nat) : Bool := (hdrBytes l off n).all (· == 0)

/-- TYPE of a header. -/
def imgType (l : List Nat) : Nat := hdrNat l 4 1
/-- LEN of a header. -/
def imgLen (l : List Nat) : Nat := hdrNat l 0x18 4
/-- LOAD of a header. -/
def imgLoad (l : List Nat) : Nat := hdrNat l 0x10 4
/-- ENTRY of a header. -/
def imgEntry (l : List Nat) : Nat := hdrNat l 0x14 4
/-- SVN of a header. -/
def imgSvn (l : List Nat) : Nat := hdrNat l 8 1

/-- Check 1 of R457: MAGIC, TYPE, the reserved fields, LEN and LOAD within the limits. -/
def imgFormOk (l : List Nat) : Bool :=
  let len := imgLen l
  let load := imgLoad l
  let inside := decide (load ≤ imgEntry l) && decide (imgEntry l < load + len)
  hdrNat l 0 4 == 0xA6A7E001 && hdrNat l 6 2 < 4 && hdrNat l 5 1 < 4 && imgSvn l ≤ 64
    && hdrZero l 9 3 && hdrZero l 0x1D 3 && hdrZero l 0x5C 4 && hdrZero l 0x98 104 && hdrZero l 0x160 64 && len % 16 == 0
    && match imgType l with
      | 1 => len ≤ 0x100000 && 0x00100000 ≤ load && load + len ≤ 0x00300000 && inside && hdrNat l 0x1C 1 == 0
      | 2 => len ≤ 0x100000 && load + len ≤ 0x300000 && inside
      | 3 => len ≤ 0x40000 && load == 0 && imgEntry l == 0 && hdrNat l 0x1C 1 == 0
      | 4 => len == 16 && load == 0 && imgEntry l == 0 && hdrNat l 0x1C 1 == 0
      | _ => false

/-- The plaintext of a payload (R460): decrypted when ENC = 1. -/
def State.imgPlain (s : State) (l payload : List Nat) : Option (List Nat) :=
  if hdrNat l 6 2 % 2 = 0 then some payload
  else if !Config.fuses.pkey || s.lcs == 3 then none
  else match Config.unwrapKey (hdrBytes l 0x60 40) with
    | none => none
    | some key => Config.gcmOpen key (hdrBytes l 0x50 12) (hdrBytes l 0 0x1A0) payload (hdrBytes l 0x88 16)

/-- Checks 2 to 6 of R457 on a header, for hamlet `h` of a TYPE 2 image; 0 when all pass. -/
def State.imgHeader (s : State) (l : List Nat) (h : Nat) : Nat :=
  let slot := hdrNat l 5 1
  let pub := hdrBytes l 0x100 96
  if !s.slotProg slot || s.slotRevoked slot then 2
  else if Config.sha384 pub != s.slotHash slot then 3
  else if !Config.ecdsaOk pub (Config.sha384 (hdrBytes l 0 0x1A0)) (hdrBytes l 0x1A0 96) then 4
  else if imgSvn l < s.svnFloor then 5
  else if (hdrNat l 6 2 / 2 % 2 == 1 && !(s.lcs == 0 || s.lcs == 3)) || (imgType l == 2 && !bitOf (hdrNat l 0x1C 1) h) then 7
  else 0

/-- All checks of R457: the result code, and the payload in plaintext when it is 0. -/
def State.imgCheck (s : State) (l payload : List Nat) (type h : Nat) : Nat × List Nat :=
  if !(imgFormOk l && imgType l == type) then (1, [])
  else match s.imgHeader l h with
    | 0 => match s.imgPlain l payload with
      | none => (6, [])
      | some p => if Config.sha384 p == hdrBytes l 0x20 48 && p.length == imgLen l then (0, p) else (6, [])
    | n => (n, [])

/-- The word of `AGT_HIMGh` for an accepted image. -/
def himgWord (l : List Nat) : Word :=
  BitVec.ofNat 32 (2 ^ 31 + hdrNat l 5 1 % 4 * 2 ^ 24 + imgSvn l % 128 * 65536 + hdrNat l 12 4 % 65536)

/-- An accepted image at `base` is protected in place (R462). -/
def protectImage (h : Fin 9) (l : List Nat) (base : Nat) (s : State) : State :=
  (s.wr (Reg.AGT_HIMGh + 4 * h) (himgWord l)).setAgt { s.agt with
    prot := s.agt.prot.set h (some ⟨base + imgLoad l, imgLen l, base + imgEntry l, hdrBytes l 0x20 48⟩) }

/-- Does a write of `n` bytes meet a protected range (R462)? -/
def State.protectedAt (s : State) (a n : Nat) : Bool :=
  s.agt.prot.toList.any fun p => match p with | some p => decide (p.lo < a + n) && decide (a < p.lo + p.len) | none => false

/-! ### Sessions (R467, R468) -/

/-- The session closes and its keys are erased. -/
def closeSession (s : State) : State := (s.wr Reg.AGT_SESS 0#32).setAgt { s.agt with sess := none }

/-- A refused record (R468): the third in a row closes the session. -/
def refuseRecord (s : State) : State :=
  let n := s.get Fld.AGT_SESS_FAILS + 1
  if n = 3 then closeSession s else s.put Fld.AGT_SESS_FAILS n

/-- SID of the open session, as bytes. -/
def State.sidBytes (s : State) : List Nat := beBytes 2 (s.get Fld.AGT_SESS_SID)

/-- The IV of a record (R467): the direction's salt, 4 zero bytes, SEQ. -/
def sessIv (x : Sess) (toPart : Bool) (seq : Nat) : List Nat :=
  (x.keys.drop (if toPart then 64 else 68)).take 4 ++ [0, 0, 0, 0] ++ beBytes 4 seq

/-- The key of a direction. -/
def sessKey (x : Sess) (toPart : Bool) : List Nat := (x.keys.drop (if toPart then 0 else 32)).take 32

/-- SOPEN (R467, R468): the packet at SRC is a HELLO; the ACCEPT packet is written to DST. -/
def sessOpen (c : AgtCmd) (s : State) : State × Nat :=
  let pkt := s.bytesAt c.src (min c.len 260)
  let hello := pkt.drop 4
  let idle := match s.agt.sess with | some x => decide (x.at0 + 60 * secU ≤ s.now) | none => true
  if s.lcs = 3 then (s, 8)
  else if !idle || hello.length != 116 || hello.take 4 != [1, 1, 0, 0] || pkt.getD 2 0 / 16 != 3 then (s, 11)
  else
    let d0 := s.drawn
    let d1 := d0.2.drawn
    let d2 := d1.2.drawn
    let d3 := d2.2.drawn
    let s := d3.2
    let nonceD := beBytes 16 d1.1
    let head := [1, 1] ++ beBytes 2 d0.1 ++ nonceD ++ Config.ephPub d2.1
    let peer := pkt.getD 1 0
    let me := s.get Fld.TLY_STAT_ADDR
    let hash := Config.sha384 (hello ++ head ++ [peer, me])
    let accept := [peer, me, 0x40, 212] ++ head ++ Config.identSign hash d3.1
    let keys := Config.sessionKeys d2.1 (hello.drop 20) ((hello.drop 4).take 16 ++ nonceD)
    let s := (s.putBytes c.dst accept).wr Reg.AGT_LEN (BitVec.ofNat 32 accept.length)
    let s := s.wr Reg.AGT_SESS (BitVec.ofNat 32 (2 ^ 31 + peer % 256 * 65536 + d0.1 % 65536))
    (s.setAgt { s.agt with sess := some ⟨s.now, none, hash, keys, 0, true⟩ }, 0)

/-- The plaintext of a record or CLOSE packet, if its SID, SEQ and tag are right (R467, R468), with SEQ. -/
def State.sessPlain (s : State) (x : Sess) (pkt : List Nat) : Option (Nat × List Nat) :=
  let body := pkt.drop 4
  let seq := beNat ((body.drop 2).take 4)
  let ct := (body.drop 6).take (body.length - 22)
  let tag := body.drop (body.length - 16)
  let newer := match x.seq with | some n => decide (n < seq) | none => true
  let ty := pkt.getD 2 0 / 16
  if (ty != 5 && ty != 6) || body.length < 22 || body.take 2 != s.sidBytes || !newer then none
  else (Config.gcmOpen (sessKey x true) (sessIv x true seq) (pkt.take 4 ++ body.take 6) ct tag).map fun p => (seq, p)

/-- SRECV (R468): the packet at SRC is a record or CLOSE; plaintext, or at the first record the hash of the handset's key, goes to DST. -/
def sessRecv (c : AgtCmd) (s : State) : State × Nat :=
  match s.agt.sess with
  | none => (s, 11)
  | some x =>
    let pkt := s.bytesAt c.src (min c.len 260)
    match s.sessPlain x pkt with
    | none => (refuseRecord s, 11)
    | some (seq, p) =>
      let ok (s : State) : State := (s.put Fld.AGT_SESS_FAILS 0).setAgt { s.agt with sess := some { x with at0 := s.now, seq := some seq, first := false } }
      if pkt.getD 2 0 / 16 = 6 then (if p.isEmpty then (closeSession s, 0) else (refuseRecord s, 11))
      else if x.first then
        let key := (p.drop 1).take 96
        if p.length = 193 ∧ p.getD 0 0 = 1 ∧ Config.ecdsaOk key x.hash (p.drop 97) then
          let s := (s.putBytes c.dst (Config.sha384 key)).wr Reg.AGT_LEN 48#32
          ((ok s).put Fld.AGT_SESS_PENDAUTH 1, 0)
        else (refuseRecord s, 11)
      else if s.flag Fld.AGT_SESS_AUTH then (ok ((s.putBytes c.dst p).wr Reg.AGT_LEN (BitVec.ofNat 32 p.length)), 0)
      else (ok (s.wr Reg.AGT_LEN 0#32), 0)

/-- SSEND (R468): ARG 1 authorises the handset's key; otherwise the LEN bytes at SRC are sealed into a record packet at DST. -/
def sessSend (c : AgtCmd) (s : State) : State × Nat :=
  match s.agt.sess with
  | none => (s, 11)
  | some x =>
    if c.arg = 1 then
      if s.flag Fld.AGT_SESS_PENDAUTH then ((s.put Fld.AGT_SESS_PENDAUTH 0).put Fld.AGT_SESS_AUTH 1, 0) else (s, 11)
    else if !s.flag Fld.AGT_SESS_AUTH || 217 < c.len then (s, 11)
    else
      let head := [s.get Fld.AGT_SESS_PEER, s.get Fld.TLY_STAT_ADDR, 0x50, 22 + c.len]
      let aad := head ++ s.sidBytes ++ beBytes 4 x.out
      let y := Config.gcmSeal (sessKey x false) (sessIv x false x.out) aad (s.bytesAt c.src c.len)
      let pkt := aad ++ y.1 ++ y.2
      let s := (s.putBytes c.dst pkt).wr Reg.AGT_LEN (BitVec.ofNat 32 pkt.length)
      (s.setAgt { s.agt with sess := some { x with out := x.out + 1 } }, 0)

/-- SESSION_TIMEOUT (R468): 60 s without an accepted record. -/
def execSessionTimeout (s : State) : Host.Outcome State Fault Refusal :=
  .next (match s.agt.sess with
    | none => s
    | some x => closeSession (s.at (x.at0 + 60 * secU)))

/-! ### Commands (R462) -/

/-- Do `n` bytes lie in Reeve SRAM or the host-port buffer (R462)? -/
def agtArea (a n : Nat) : Bool := (0x00100000 ≤ a && a + n ≤ 0x00300000) || (0x08000000 ≤ a && a + n ≤ 0x08800000)

/-- The engine of hamlet `h` is halted: STATE 0 or 3. -/
def State.engHalted (s : State) (h : Fin 8) : Bool := s.eng[hEng h].state == 0 || s.eng[hEng h].state == 3

/-- A VERIFY that fails a check leaves its destination with unspecified contents (R457, R462): free bytes. -/
def spoil (a n : Nat) (s : State) : State := s.drawn.2.putBytes a (beBytes n s.drawn.1)

/-- VERIFY (R462). -/
def agtVerify (c : AgtCmd) (s : State) : State × Nat :=
  let l := s.bytesAt c.src 512
  let h : Fin 8 := Fin.ofNat 8 c.arg
  if !agtArea c.src 512 then (s, 9)
  else if !imgFormOk l || imgType l == 1 || imgType l == 4 || (imgType l == 2 && 8 ≤ c.arg) then (s, 1)
  else if !agtArea c.src (512 + imgLen l) then (s, 9)
  else
    let payload := s.bytesAt (c.src + 512) (imgLen l)
    if imgType l = 2 then
      if !(s.engHalted h && decide (2 ≤ s.hstate h) && !s.flag (Fld.PWR_HSTATE_BUSY.sub h) && (s.agt.prot[h.val]).isNone) then (s, 8)
      else
        let x := s.imgCheck l payload 2 h
        let dst := hamletBase h + imgLoad l
        if x.1 = 0 then (protectImage ⟨h.val, by omega⟩ l (hamletBase h) (s.putBytes dst x.2), 0)
        else (spoil dst (imgLen l) s, x.1)
    else if !(0x00100000 ≤ c.dst && c.dst + imgLen l ≤ 0x00300000) then (s, 9)
    else
      let x := s.imgCheck l payload 3 0
      if x.1 = 0 then (s.putBytes c.dst x.2, 0)
      else (spoil c.dst (imgLen l) s, x.1)

/-- A fuse that does not read back programmed (R463): 0x470, result 10. -/
def fuseFailed (c : AgtCmd) (s : State) : State × Nat := (s.raise 0x470 0xFF c.op, 10)

/-- The transition of DEPLOYED to RETURN needs a TYPE 4 image for this die (R465); its stores are cleared first. -/
def agtReturn (c : AgtCmd) (s : State) : State × Nat :=
  if !agtArea c.src 528 then (s, 9)
  else
    let l := s.bytesAt c.src 512
    let x := s.imgCheck l (s.bytesAt (c.src + 512) 16) 4 0
    if x.1 ≠ 0 then (s, x.1)
    else if x.2 ≠ (beBytes 8 Config.uid).reverse ++ List.replicate 8 0 then (s, 7)
    else ({ s.clearMem (fun _ => true) with ecc := [], sto := s.sto.map fun x => { x with hidden := [] } }, 0)

/-- LCSADV (R465): `n` fuses could be programmed. -/
def agtAdvance (c : AgtCmd) (n : Nat) (s : State) : State × Nat :=
  let burn (s : State) : State × Nat :=
    if n = 0 then fuseFailed c s else (s.setAgt { s.agt with steps := s.agt.steps + 1 }, 0)
  if s.agt.steps ≠ 0 then (s, 7)
  else match s.lcs with
    | 0 => if (List.range 4).any s.slotProg then burn s else (s, 7)
    | 1 => burn s
    | 2 =>
      let x := agtReturn c s
      if x.2 = 0 then burn x.1 else x
    | _ => (s, 7)

/-- The attestation report of R466 without its signature. -/
def State.report (s : State) (nonce : List Nat) : List Nat :=
  let le (n v : Nat) : List Nat := (beBytes n v).reverse
  let digest (h : Fin 9) : List Nat := match s.agt.prot[h] with | some p => p.digest | none => List.replicate 48 0
  le 4 0xA6A7A701 ++ [s.lcs, s.fuseCount, s.get Fld.AGT_ARB_HEARTH, 0] ++ le 4 (s.rd 0x04100204).toNat
    ++ le 4 (s.rd Reg.SYS_RSTCAUSE).toNat ++ le 8 Config.uid ++ le 8 (secOf s.now % 2 ^ 48) ++ le 4 (nsOf s.now)
    ++ List.replicate 12 0 ++ nonce ++ digest 8 ++ le 4 (s.rd (Reg.AGT_HIMGh + 32)).toNat ++ List.replicate 12 0
    ++ ((List.finRange 8).flatMap fun (h : Fin 8) => digest ⟨h.val, by omega⟩)
    ++ ((List.range 8).flatMap fun h => le 2 ((s.rd (Reg.AGT_HIMGh + 4 * h)).toNat / 65536))

/-- What a command does, and its RESULT (R462); `n` fuses could be programmed (R463). -/
def agtAct (c : AgtCmd) (n : Nat) (s : State) : State × Nat :=
  let n := if bitOf s.pow.rails 6 then 0 else n
  let h : Fin 8 := Fin.ofNat 8 c.arg
  match c.op with
  | 0x01 => agtVerify c s
  | 0x02 => if 8 ≤ c.arg then (s, 1) else if s.engHalted h then (unprotect ⟨h.val, by omega⟩ s, 0) else (s, 8)
  | 0x03 => if s.get Fld.AGT_ARB_HEARTH < c.arg ∧ c.arg ≤ 64 then (s.put Fld.AGT_ARB_HEARTH c.arg, 0) else (s, 8)
  | 0x04 =>
    if s.lcs = 1 ∨ s.lcs = 2 then
      let need := s.get Fld.AGT_ARB_HEARTH - s.fuseCount
      let s := s.setAgt { s.agt with burnt := s.agt.burnt + min n need }
      if n < need then fuseFailed c s else (s, 0)
    else (s, 8)
  | 0x05 =>
    if 4 ≤ c.arg then (s, 1)
    else if !((List.range 4).any fun k => k != c.arg && s.slotProg k && !s.slotRevoked k) then (s, 8)
    else if n = 0 then fuseFailed c s
    else (s.setAgt { s.agt with revoked := if s.agt.revoked.contains c.arg then s.agt.revoked else c.arg :: s.agt.revoked }, 0)
  | 0x06 =>
    if 4 ≤ c.arg then (s, 1)
    else if !agtArea c.src 48 then (s, 9)
    else if 2 ≤ s.lcs || s.slotProg c.arg then (s, 8)
    else if n = 0 then fuseFailed c s
    else (s.setAgt { s.agt with keys := (c.arg, s.bytesAt c.src 48) :: s.agt.keys }, 0)
  | 0x07 => agtAdvance c n s
  | 0x08 =>
    if s.lcs = 3 then (s, 8)
    else if !agtArea c.src 32 || !agtArea c.dst 640 then (s, 9)
    else
      let body := s.report (s.bytesAt c.src 32)
      let x := s.drawn
      (x.2.putBytes c.dst (body ++ Config.identSign (Config.sha384 body) x.1), 0)
  | 0x09 => if s.lcs = 3 then (s, 8) else if !agtArea c.dst 96 then (s, 9) else (s.putBytes c.dst (Config.identKey.take 96), 0)
  | 0x0A =>
    let cert := Config.identCert.take 1024
    if s.lcs = 3 then (s, 8) else if !agtArea c.dst cert.length then (s, 9)
    else ((s.putBytes c.dst cert).wr Reg.AGT_LEN (BitVec.ofNat 32 cert.length), 0)
  | 0x0B => if !agtArea c.src c.len || !agtArea c.dst 216 then (s, 9) else sessOpen c s
  | 0x0C => if !agtArea c.src c.len || !agtArea c.dst 256 then (s, 9) else sessRecv c s
  | 0x0D => if c.arg != 1 && (!agtArea c.src c.len || !agtArea c.dst 260) then (s, 9) else sessSend c s
  | 0x0E => if s.agt.sess.isSome then (closeSession s, 0) else (s, 11)
  | _ => (s, 1)

/-- A write to a register of the AGT block: the Reeve in machine mode alone. -/
def agtWrite (r : Req) (a : Nat) (act : State → State) (s : State) : State := if r.id = 16 ∧ r.priv = 2 then act s else s.refuse4 r a

/-- A write to `AGT_CMD` (R462): ignored and recorded while a command runs; GO takes SRC, DST and LEN. -/
def agtCmdWrite (r : Req) (v : Word) (s : State) : State :=
  agtWrite r Reg.AGT_CMD (fun s =>
    if s.flag Fld.AGT_STAT_BUSY then s.refuse4 r Reg.AGT_CMD
    else
      let s := s.storeReg r Reg.AGT_CMD v
      if !v.getLsbD 31 then s
      else
        let op := getBits Fld.AGT_CMD_OP v
        let c : AgtCmd := ⟨op, getBits Fld.AGT_CMD_ARG v, s.get Fld.AGT_SRC_ADDR, s.get Fld.AGT_DST_ADDR, s.get Fld.AGT_LEN_LEN⟩
        ((s.put Fld.AGT_STAT_BUSY 1).put Fld.AGT_STAT_OP op).setAgt { s.agt with cmd := some c }) s

/-- A command's write: GO, OP and ARG. -/
def agtCommand (r : Req) (op : Nat) (arg : BitVec 8) (s : State) : Host.Outcome State Fault Refusal :=
  let v := BitVec.ofNat 32 (2 ^ 31 + arg.toNat * 65536 + op)
  .next (regCmd r Reg.AGT_CMD v (agtCmdWrite r v) s)

/-- AGT_VERIFY (R462). -/
def execAgtVerify (r : Req) (arg : BitVec 8) (s : State) : Host.Outcome State Fault Refusal := agtCommand r 0x01 arg s
/-- AGT_RELEASE (R462). -/
def execAgtRelease (r : Req) (arg : BitVec 8) (s : State) : Host.Outcome State Fault Refusal := agtCommand r 0x02 arg s
/-- AGT_ADVANCE (R462, R464). -/
def execAgtAdvance (r : Req) (arg : BitVec 8) (s : State) : Host.Outcome State Fault Refusal := agtCommand r 0x03 arg s
/-- AGT_BURN (R462, R464). -/
def execAgtBurn (r : Req) (arg : BitVec 8) (s : State) : Host.Outcome State Fault Refusal := agtCommand r 0x04 arg s
/-- AGT_REVOKE (R462). -/
def execAgtRevoke (r : Req) (arg : BitVec 8) (s : State) : Host.Outcome State Fault Refusal := agtCommand r 0x05 arg s
/-- AGT_PROGKEY (R462). -/
def execAgtProgkey (r : Req) (arg : BitVec 8) (s : State) : Host.Outcome State Fault Refusal := agtCommand r 0x06 arg s
/-- AGT_LCSADV (R465). -/
def execAgtLcsadv (r : Req) (arg : BitVec 8) (s : State) : Host.Outcome State Fault Refusal := agtCommand r 0x07 arg s
/-- AGT_ATTEST (R466). -/
def execAgtAttest (r : Req) (arg : BitVec 8) (s : State) : Host.Outcome State Fault Refusal := agtCommand r 0x08 arg s
/-- AGT_IDKEY (R462). -/
def execAgtIdkey (r : Req) (arg : BitVec 8) (s : State) : Host.Outcome State Fault Refusal := agtCommand r 0x09 arg s
/-- AGT_CERT (R462). -/
def execAgtCert (r : Req) (arg : BitVec 8) (s : State) : Host.Outcome State Fault Refusal := agtCommand r 0x0A arg s
/-- AGT_SOPEN (R467). -/
def execAgtSopen (r : Req) (arg : BitVec 8) (s : State) : Host.Outcome State Fault Refusal := agtCommand r 0x0B arg s
/-- AGT_SRECV (R468). -/
def execAgtSrecv (r : Req) (arg : BitVec 8) (s : State) : Host.Outcome State Fault Refusal := agtCommand r 0x0C arg s
/-- AGT_SSEND (R468). -/
def execAgtSsend (r : Req) (arg : BitVec 8) (s : State) : Host.Outcome State Fault Refusal := agtCommand r 0x0D arg s
/-- AGT_SCLOSE (R468). -/
def execAgtSclose (r : Req) (arg : BitVec 8) (s : State) : Host.Outcome State Fault Refusal := agtCommand r 0x0E arg s

/-- Does a copy into a frozen hamlet store keep the command waiting (R292, R472)? -/
def State.agtStalled (s : State) (c : AgtCmd) : Bool :=
  c.op == 1 && decide (c.arg < 8) && imgType (s.bytesAt c.src 512) == 2 && s.flag (Fld.ARB_CTRL_FREEZE.h c.arg)

/-- AGATE_COMMAND_END (R462, R463): the command's action, DONE and RESULT; `fuses` says how many fuses read back programmed. A copy into a frozen store
waits. -/
def execAgateCommandEnd (fuses t : Nat) (s : State) : Host.Outcome State Fault Refusal :=
  .next (match s.agt.cmd with
    | none => s
    | some c =>
      if s.agtStalled c then s
      else
        let x := agtAct c fuses (s.at t)
        let s := x.1.setAgt { x.1.agt with cmd := none }
        ((((s.put Fld.AGT_STAT_BUSY 0).put Fld.AGT_CMD_GO 0).put Fld.AGT_STAT_DONE 1).put Fld.AGT_STAT_RESULT x.2))

end Sys2Proof.Machine
end

