-- ==== Sys2Proof/Machine/Boot.lean ====
section
/-!
DEFINITION. Start-up (R452 to R461, R469 to R471): supplies, reset and straps, the wake sequencer (R360, R361), the boot ROM, the boot record, the restart of the
Reeve, remote resets (R196).
-/

namespace Sys2Proof.Machine

/-! ### The boot ROM (R459, R461, R470) -/

/-- Changes start-up. -/
def State.setBoot (s : State) (x : Boot) : State := { s with boot := x }

/-- Changes the device's power side. -/
def State.setPow (s : State) (x : Pow) : State := { s with pow := x }

/-- BOOTSRC as sampled (R454). -/
def State.bootSrc (s : State) : Nat := s.boot.straps / 64 % 4

/-- The boot record's address (R469). -/
abbrev bootRec : Nat := 0x04100208

/-- The boot ROM trains the Lanied link (R459) and waits for an image from now on; a link that trains, is UP or in L1, as at a restart of the Reeve, goes on running (R471). -/
def bootLink (s : State) : State :=
  let s := s.setBoot { s.boot with upAt := s.now }
  let st := s.get Fld.LNK_STAT_STATE
  if 1 ≤ st && st ≤ 3 then s else startTraining true true (s.put Fld.LNK_CTRL_EN 1)

/-- Step 3 of R459: the sources are tried, the flash first unless BOOTSRC names the link alone. -/
def startLoad (s : State) : State :=
  let s := s.setBoot { s.boot with booting := true, failed := [], retry := none, upAt := s.now }
  if s.bootSrc = 1 then bootLink s else s

/-- Step 2 of R459: the boot counter, and the trial of R470. -/
def bootCount (s : State) : State :=
  let n := (s.rd 0x04100204).toNat
  let s := s.wr 0x04100204 (BitVec.ofNat 32 (min (n + 1) 0xFFFFFFFF))
  let r := (s.rd bootRec).toNat
  let s :=
    if !bitOf r 7 then s
    else
      let tries := r / 16 % 8 + 1
      if 3 ≤ tries then s.wr bootRec (BitVec.ofNat 32 (r / 512 * 512 + (1 - r / 256 % 2) * 256 + r % 16))
      else s.wr bootRec (BitVec.ofNat 32 (r / 128 * 128 + tries * 16 + r % 16))
  startLoad s

/-- Step 1 of R459: a Reeve BIST that the retention store asks for runs first (R413). -/
def bootStart (s : State) : State :=
  let c := s.rd bistRet
  if !c.getLsbD 31 then bootCount s
  else
    let s := (bistKept.zipIdx.foldl (fun s p => s.wr p.1 (s.rd (bistRet + 4 * p.2))) s).wr Reg.BIST_CMD (c &&& 0x7FFFFFFF#32)
    bistStart 8 (getBits Fld.BIST_CMD_KIND c) (getBits Fld.BIST_CMD_REPAIR c == 1) s

/-- The Reeve starts at an address in machine mode with translation off (R459). -/
def startReeve (pc : Nat) (s : State) : State := s.setEng 8 { state := 1, pc := pc, priv := 2 }

/-- The source of the next try (R459): flash slot PREF, the other slot, the link (2), as BOOTSRC names them and in that order. -/
def State.bootNext (s : State) : Option Nat :=
  let pref := (s.rd bootRec).toNat / 256 % 2
  ((if s.bootSrc = 1 then [] else [pref, 1 - pref]) ++ (if s.bootSrc = 0 then [] else [2]))[s.boot.failed.length]?

/-- A try has failed (R459): the link is trained when its turn comes. -/
def bootTryFailed (slot : Nat) (s : State) : State :=
  let s := s.setBoot { s.boot with failed := s.boot.failed ++ [slot] }
  if s.bootNext = some 2 then bootLink s else s

/-- BOOT_IMAGE_ACCEPTED (R459): an image of slot 0 or 1 of the flash, or (2) of the messages on flow 4, has been read. When every check of R457 passes it is copied to
LOAD, protected, recorded and started; else the try has failed with its result. An image of a source whose turn it is not is not read. -/
def execBootImageAccepted (slot : Fin 3) (img : List Nat) (t : Nat) (s : State) : Host.Outcome State Fault Refusal :=
  .next (if !s.boot.booting || s.bootNext != some slot.val then s
    else
      let s := s.at t
      let img := if slot = 2 then (s.lnk.toReeve.filter fun m => m.flow == 4).flatMap fun m => m.bytes else img
      let s := if slot = 2 then s.setLnk { s.lnk with toReeve := s.lnk.toReeve.filter fun m => m.flow != 4 } else s
      let l := img.take 512
      let x := s.imgCheck l ((img.drop 512).take (imgLen l)) 1 0
      let r := (s.rd bootRec).toNat
      if x.1 ≠ 0 then
        bootTryFailed slot (s.wr bootRec (BitVec.ofNat 32 (r / 8 * 8 + x.1 % 8)))
      else
        let s := protectImage 8 l 0 (s.putBytes (imgLoad l) x.2)
        let s := s.wr bootRec (BitVec.ofNat 32 (2 ^ 31 + r / 16 % 2 ^ 27 * 16 + slot.val % 2 * 8 + r % 8))
        startReeve (imgEntry l) (s.setBoot { s.boot with booting := false, rom := false, retry := none }))

/-- BOOT_FAILURE (R461): no image was accepted: the last result stands in the boot record, FAULT_L is asserted, the boot ROM stays in STANDBY and retries after 60 s.
The operand is the result where no header could be read; after a failed try the record holds it. -/
def execBootFailure (result : Fin 8) (t : Nat) (s : State) : Host.Outcome State Fault Refusal :=
  .next (if !s.boot.booting then s
    else
      let s := s.at t
      let r := (s.rd bootRec).toNat
      let s := s.wr bootRec (BitVec.ofNat 32 (2 ^ 31 + r / 8 % 2 ^ 28 * 8 + (if s.boot.failed.isEmpty then result.val else r % 8)))
      { s.setBoot { s.boot with booting := false, rom := true, retry := some (s.now + 60 * secU) } with flt := { s.flt with bootFail := true } })

/-- BOOT_RETRY (R461): every 60 s the sources are tried again. -/
def execBootRetry (s : State) : Host.Outcome State Fault Refusal :=
  .next (match s.boot.retry with
    | none => s
    | some d => startLoad (s.at d))

/-- BOOT_LINK_TIMEOUT (R459): by `t` no image has begun within 10 s of UP, or of the turn of a link that was UP: the link retrains. -/
def execBootLinkTimeout (t : Nat) (s : State) : Host.Outcome State Fault Refusal :=
  .next (
    let due := s.boot.upAt + 10 * secU
    if s.boot.booting && s.linkUp && s.bootNext == some 2 && decide (due ≤ max s.now t) && !(s.lnk.toReeve.any fun m => m.flow == 4) then
      retrain true true (s.at due)
    else s)

/-- A write to the retention store (R469, R470): the program area, and by the Reeve at machine level PREF and CONFIRM of the boot record. -/
def retentionWrite (r : Req) (a : Nat) (v : Word) (s : State) : State :=
  if 0x04100300 ≤ a then s.wr a v
  else if a = bootRec ∧ r.id = 16 ∧ r.priv = 2 then
    let x := (s.rd bootRec).toNat
    let trial := bitOf x 7
    if v = 0#32 ∧ !trial then { s.wr bootRec 0#32 with flt := { s.flt with bootFail := s.flt.bootFail && (s.boot.booting || s.boot.rom) } }
    else if v.getLsbD 7 then s.wr bootRec (BitVec.ofNat 32 (x / 512 * 512 + v.toNat / 256 % 2 * 256 + 128 + x % 16))
    else if trial then s.wr bootRec (BitVec.ofNat 32 (x / 256 * 256 + x % 16))
    else s.wr bootRec (BitVec.ofNat 32 (x / 512 * 512 + v.toNat / 256 % 2 * 256 + x % 256))
  else s.refuse4 r a

/-- BOOT_RECORD_WRITE (R470). -/
def execBootRecordWrite (r : Req) (v : Word) (s : State) : Host.Outcome State Fault Refusal := .next (regCmd r bootRec v (retentionWrite r bootRec v) s)

/-! ### The wake sequencer (R360, R361) -/

/-- The instant at which the running step times out (R360): 2, 5 or 1 ms after it began, doubled at each further try. -/
def State.stepLimit (s : State) : Nat := s.pow.stepAt + [0, 2, 5, 1].getD s.pow.step 0 * 2 ^ (s.pow.try_ - 1) * msU

/-- WAKE_STEP_PASS (R360): the step that runs passes at `t`, before its limit; after the last the Reeve boots. At the boot after a hard cut SDLATCH and HARDCUT are set (R373, R455). -/
def execWakeStepPass (t : Nat) (s : State) : Host.Outcome State Fault Refusal :=
  .next (if s.boot.inReset || decide (s.stepLimit < max s.now t) then s
    else match s.pow.step with
      | 1 => if s.railsOk then (s.at t).setPow { s.pow with step := 2, try_ := 1, stepAt := max s.now t } else s
      | 2 => if s.flag Fld.CLK_REF_PRESENT then (s.at t).setPow { s.pow with step := 3, try_ := 1, stepAt := max s.now t } else s
      | 3 =>
        let s := ((s.at t).put Fld.CLK_UPLL_LOCK 1).setPow { s.pow with step := 0, try_ := 0, unpassed := false, refOff := false }
        let hard := s.flag Fld.HTH_THMREC_VALID && s.flag Fld.HTH_THMREC_HARD
        bootStart (if hard then (s.put Fld.SYS_RSTCAUSE_HARDCUT 1).put Fld.THM_STAT_SDLATCH 1 else s)
      | _ => s)

/-- WAKE_STEP_TIMEOUT (R360, R361): a step times out at its limit; the third time the part falls back, records it in `HTH_WAKEREC` and asserts FAULT_L. In STANDBY the boot ROM
runs and REFIN-dependent blocks are held off. -/
def execWakeStepTimeout (t : Nat) (s : State) : Host.Outcome State Fault Refusal :=
  .next (if s.boot.inReset || s.pow.step == 0 || decide (max s.now t < s.stepLimit) then s
    else
      let s := s.at s.stepLimit
      if s.pow.try_ < 3 then s.setPow { s.pow with try_ := s.pow.try_ + 1, stepAt := s.now }
      else
        let step := s.pow.step
        let fell := if 2 ≤ step then 2 else if s.pow.left = 2 then 1 else 0
        let s := s.wr Reg.HTH_WAKEREC (BitVec.ofNat 32 (2 ^ 31 + fell * 256 + s.pow.try_ * 16 + step))
        let s := s.setPow { s.pow with unpassed := true }
        if fell = 2 then (s.setPow { s.pow with step := 0, try_ := 0, refOff := true }).setBoot { s.boot with rom := true }
        else goDark (fell + 1) s)

/-- A write to `HTH_WAKEREC` (R361, R461): VALID clears; with it a boot failure's cause once a boot has succeeded. -/
def wakerecWrite (r : Req) (v : Word) (s : State) : State :=
  let s := s.storeReg r Reg.HTH_WAKEREC v
  if v.getLsbD 31 && !s.boot.booting && !s.boot.rom then { s with flt := { s.flt with bootFail := false } } else s

/-- WAKEREC_CLEAR (R361). -/
def execWakerecClear (r : Req) (v : Word) (s : State) : Host.Outcome State Fault Refusal :=
  .next (regCmd r Reg.HTH_WAKEREC (v ||| 0x80000000#32) (wakerecWrite r (v ||| 0x80000000#32)) s)

/-! ### Supplies, reset and straps (R452 to R455) -/

/-- A device reset begins: the part is held in reset. -/
def holdReset (cause : Field) (s : State) : State :=
  let s := deviceReset (s.put cause 1)
  (s.setBoot { s.boot with inReset := true }).setPow { s.pow with down := 0, held := false, step := 0, try_ := 0, refOff := false }

/-- The part loses both Hearth supplies (R22, R347): it is OFF. Nothing runs; the registers of the Hearth domain, the calendar, the Bell receiver and the anti-rollback counter
are lost, and FAULT_L and WAKE_OUT are not driven (R345). -/
def loseHearth (s : State) : State :=
  let s := deviceReset s
  { (s.put Fld.AGT_ARB_HEARTH 0).resetRegs hearthReg with
    calen := { at0 := s.now, runs := false }
    bel := {}
    boot := { s.boot with inReset := true }
    pow := { s.pow with hearth := false, held := false, wakeOut := false, down := 0, step := 0, try_ := 0, unpassed := false, refOff := false } }

/-- SUPPLY_CHANGE (R22, R345, R347, R452): a rail enters or leaves its range; without VSTBY and VBAT the part is OFF; without a rail needed in STANDBY
a part that runs is held in reset, at step 0x1. Of the rails needed in READY and ACTIVE alone the spec gives no effect (log 122). -/
def execSupplyChange (rail : Fin 9) (ok : Bool) (t : Nat) (s : State) : Host.Outcome State Fault Refusal :=
  .next (let s := s.at t
    let had := bitOf s.pow.rails rail
    let s := s.setPow { s.pow with rails := if ok then (if had then s.pow.rails - 2 ^ rail.val else s.pow.rails) else Nat.lor s.pow.rails (2 ^ rail.val) }
    let s := if bitOf s.pow.rails 7 && bitOf s.pow.rails 8 && s.pow.hearth then loseHearth s else s
    if s.pow.down = 0 && !s.boot.inReset && !s.railsOk && s.pow.step != 1 then
      let s := sampleStraps (deviceReset s)
      s.setPow { s.pow with step := 1, try_ := 1, stepAt := s.now, wakeOut := true, left := 0 }
    else s)

/-- RESET_L_ASSERT (R453). -/
def execResetLAssert (t : Nat) (s : State) : Host.Outcome State Fault Refusal :=
  .next (let s := holdReset Fld.SYS_RSTCAUSE_PIN (s.at t)
    s.setBoot { s.boot with resetL := false })

/-- RESET_END (R7, R453, R454): with RESET_L high the reset ends, device time starts from 0, the straps are sampled, WAKE_OUT is asserted and the sequencer runs from step 0x1. A
part that is OFF stays so (R347). -/
def execResetEnd (straps : BitVec 8) (t : Nat) (s : State) : Host.Outcome State Fault Refusal :=
  .next (if !s.boot.inReset || !s.pow.hearth then s
    else
      let s := zeroTime (s.at t)
      let s := sampleStraps (s.setBoot { s.boot with resetL := true, straps := straps.toNat })
      if s.boot.inReset then s else s.setPow { s.pow with wakeOut := true, step := 1, try_ := 1, stepAt := s.now, left := 0 })

/-- HEARTH_POWER_UP (R22, R51, R450, R453, R464): from the absence of VSTBY and VBAT, once either is within range; the Hearth domain too takes its reset values. A Hearth
domain that is powered already loses nothing. -/
def execHearthPowerUp (t : Nat) (s : State) : Host.Outcome State Fault Refusal :=
  .next (if s.pow.hearth || (bitOf s.pow.rails 7 && bitOf s.pow.rails 8) then s
    else
    let s := s.at t
    let z := State.reset
    let s : State := { z with
      out := s.out
      free := s.free
      agt := { z.agt with revoked := s.agt.revoked, keys := s.agt.keys, burnt := s.agt.burnt, shown := s.agt.shown + s.agt.steps }
      boot := { z.boot with resetL := s.boot.resetL, inReset := true }
      pow := { z.pow with rails := s.pow.rails, step := 0, try_ := 0 }
      tap := s.tap
      pending := s.pending }
    s.put Fld.SYS_RSTCAUSE_POR 1)

/-- A hamlet's or the whole part's remote reset, and a write of DEV, have their instants (R196, R455). -/
def sysRstWrite (r : Req) (reeve : State → State) (v : Word) (s : State) : State :=
  if r.id = 16 ∧ r.priv = 2 then
    let s := if v.getLsbD 0 then s.setBoot { s.boot with devDue := some (s.now + 10 * usU) } else s
    if v.getLsbD 1 then reeve s else s
  else s.refuse4 r Reg.SYS_RST

/-- The Reeve restarts (R293, R302, R468, R471): it halts, its requests at the stores are removed, its protection goes, its locks are freed broken, a session closes; the boot ROM goes on at step 3. -/
def reeveRestart (s : State) : State :=
  let s := s.put Fld.SYS_RSTCAUSE_REEVE 1
  let s := closeSession (unprotect 8 s)
  startLoad (((s.setEng 8 {}).maskReeve).breakAllLocks [4])

/-- SYS_RST_DEV (R455). -/
def execSysRstDev (r : Req) (v : Word) (s : State) : Host.Outcome State Fault Refusal :=
  .next (regCmd r Reg.SYS_RST (v ||| 1#32) (sysRstWrite r reeveRestart (v ||| 1#32)) s)

/-- REEVE_RESTART (R471): the write of REEVE. -/
def execReeveRestart (r : Req) (v : Word) (s : State) : Host.Outcome State Fault Refusal :=
  .next (regCmd r Reg.SYS_RST (v ||| 2#32) (sysRstWrite r reeveRestart (v ||| 2#32)) s)

/-- DEVICE_RESET (R453, R455): the device reset that DEV of `SYS_RST` asked for takes place. -/
def execDeviceReset (s : State) : Host.Outcome State Fault Refusal :=
  .next (match s.boot.devDue with
    | none => s
    | some d => holdReset Fld.SYS_RSTCAUSE_SOFT (s.at d))

/-- REMOTE_RESET_EXECUTE (R196): the oldest accepted request takes effect: of a hamlet, or of the device. -/
def execRemoteResetExecute (s : State) : Host.Outcome State Fault Refusal :=
  .next (match s.lnk.resets with
    | [] => s
    | (g, d) :: rest =>
      let s := (s.at d).setLnk { s.lnk with resets := rest }
      if g < 8 then (if 2 ≤ s.hstate g then hamletReset (Fin.ofNat 8 g) s else s)
      else holdReset Fld.SYS_RSTCAUSE_REMOTE s)

end Sys2Proof.Machine
end

