-- ==== Sys2Proof/Machine/Faults.lean ====
section
/-!
DEFINITION. The fault manager's operations and isolation (R477 to R487). Raising a fault stands in Ops.
-/

namespace Sys2Proof.Machine

/-- OP 1 (R477, R487): the entry ceases; its cease indication follows if its raise was sent. -/
def faultCease (n : Fin 32) (s : State) : State :=
  if !s.flag (Fld.FLT_LOGn_W0_ACTIVE.i n) then s
  else
    let s := s.put (Fld.FLT_LOGn_W0_ACTIVE.i n) 0
    if s.flt.sent[n] then
      s.indicate ⟨false, s.get (Fld.FLT_LOGn_W0_NUM.i n), s.get (Fld.FLT_LOGn_W0_ELEM.i n), (s.rd (Reg.FLT_LOGn_W0 + 0x20 * n + 4)).toNat, n⟩
    else s

/-- OP 2 (R479): the recovery ends; the head of the queue becomes current, at the severity in force when it left. -/
def endRecovery (s : State) : State :=
  if !s.flag Fld.FLT_RCV_BUSY then s
  else match s.flt.queue with
    | [] => s.put Fld.FLT_RCV_BUSY 0
    | n :: t =>
      let sev := s.get (Fld.FLT_LOGn_W0_SEV.i n)
      let sev := if s.flag (Fld.FLT_LOGn_W0_ESC.i n) then max 2 sev else sev
      State.setCurrent { s with flt := { s.flt with queue := t } } n sev (s.get (Fld.FLT_LOGn_W0_ELEM.i n))

/-- Is hamlet `h` isolated, or its isolation running (R484, R485)? -/
def State.isolated (s : State) (h : Fin 8) : Bool := s.bit Fld.FLT_STAT_ISO h || (1 ≤ s.flt.isoStep[h] && s.flt.isoStep[h] ≤ 4)

/-- A write to `FLT_CTRL` (R477, R479, R482, R475, R485). -/
def fltCtrlWrite (r : Req) (v : Word) (s : State) : State :=
  let arg := getBits Fld.FLT_CTRL_ARG v
  let h : Fin 8 := Fin.ofNat 8 arg
  match getBits Fld.FLT_CTRL_OP v with
  | 1 => if 32 ≤ arg then s.refuse4 r Reg.FLT_CTRL else faultCease (Fin.ofNat 32 arg) s
  | 2 => endRecovery s
  | 3 => if 8 ≤ arg then s.refuse4 r Reg.FLT_CTRL else s.requestIsolation h 0
  | 4 => if 9 ≤ arg then s.refuse4 r Reg.FLT_CTRL else if arg = 8 then s.safetyClearAll else s.safetyClear h
  | 5 =>
    let num := s.get Fld.FLT_SWF_NUM
    if num < 0xE00 then s.refuse4 r Reg.FLT_CTRL
    else s.raiseSev num (s.get Fld.FLT_SWF_SEV) (s.get Fld.FLT_SWF_ELEM) (s.get Fld.FLT_SWINFO_INFO) false
  | 6 =>
    if 9 ≤ arg then s.refuse4 r Reg.FLT_CTRL
    else if arg = 8 then (List.finRange 8).foldl (fun s h => if s.isolated h then s else endSafety s h) s
    else if s.isolated h then s.refuse4 r Reg.FLT_CTRL else endSafety s h
  | _ => s

/-- An operation's write. -/
def faultOp (r : Req) (op : Nat) (arg : BitVec 8) (s : State) : Host.Outcome State Fault Refusal :=
  let v := BitVec.ofNat 32 (op * 2 ^ 28 + arg.toNat)
  .next (regCmd r Reg.FLT_CTRL v (fltCtrlWrite r v) s)

/-- FLT_CEASE (R477). -/
def execFltCease (r : Req) (arg : BitVec 8) (s : State) : Host.Outcome State Fault Refusal := faultOp r 1 arg s
/-- FLT_END_RECOVERY (R479). -/
def execFltEndRecovery (r : Req) (arg : BitVec 8) (s : State) : Host.Outcome State Fault Refusal := faultOp r 2 arg s
/-- FLT_ISOLATE (R482). -/
def execFltIsolate (r : Req) (arg : BitVec 8) (s : State) : Host.Outcome State Fault Refusal := faultOp r 3 arg s
/-- FLT_SAFETY_CLEAR (R485). -/
def execFltSafetyClear (r : Req) (arg : BitVec 8) (s : State) : Host.Outcome State Fault Refusal := faultOp r 4 arg s
/-- FLT_RAISE_SOFTWARE (R475). -/
def execFltRaiseSoftware (r : Req) (arg : BitVec 8) (s : State) : Host.Outcome State Fault Refusal := faultOp r 5 arg s
/-- FLT_END_SAFETY (R485). -/
def execFltEndSafety (r : Req) (arg : BitVec 8) (s : State) : Host.Outcome State Fault Refusal := faultOp r 6 arg s

/-! ### Isolation (R483) -/

/-- Moves the isolation of hamlet `h` to a step. -/
def setIso (h : Fin 8) (n : Nat) (s : State) : State := { s with flt := { s.flt with isoStep := s.flt.isoStep.set h n } }

/-- ISOLATION_START (R483 steps 1 and 2; R293, R370): FREEZE, the engine stops before its next instruction and an access it has waiting is removed, STOPALL, HMASK bit h clears, the safety ramp starts, pending
work is cancelled, throttle actions of the hamlet end. -/
def execIsolationStart (h : Fin 8) (s : State) : Host.Outcome State Fault Refusal :=
  .next (if s.flt.isoStep[h] ≠ 1 then s
    else
      let s := s.freeze h
      let x := s.eng[hEng h]
      let s := (if x.state = 3 then s else s.haltEng (hEng h) 0 x.resumeAt).maskRequesters ⟨h.val, by omega⟩ [2, 3]
      let s := (s.stopAllDma h).clrBit Fld.LNK_ULC_CFG_HMASK h
      setIso h 2 (removeActs h (s.safetyStep2 h)))

/-- ISOLATION_AFTER_RAMP (R483 steps 3 and 4, R485): the ramp is complete; the bias channels take their clear codes (in the safety clear of an orderly stop they move by
R371 instead, R391), pins, claims and the ORx are released; for an isolation the engine's locks are freed broken. -/
def execIsolationAfterRamp (h : Fin 8) (s : State) : Host.Outcome State Fault Refusal :=
  .next (
    let n := s.flt.isoStep[h]
    if (n ≠ 2 ∧ n ≠ 5) ∨ s.tx[h].rampEnd.isSome then s
    else
      let s := (orxFree h 6 (if n = 5 ∧ s.flag Fld.THM_STAT_STOPPING then s else clearBias h s)).forcePins h
      if n = 5 then setIso h 0 s else setIso h 3 (s.breakLocks h [1, 2, 3]))

/-- The deep flow of an isolated hamlet ends (R167): its end message goes if it is next and the flow holds credit. A domain
in OFF or RETAIN keeps what it holds, since only the steps that need no domain run (R482). -/
def endDeepFlow (h : Fin 8) (s : State) : State :=
  if s.hstate h < 2 then s else
  let s := match s.orx[h].cap with | some c => finishCapture h c 6 s | none => s
  let s := match s.orx[h].items with
    | [d] => if d.kind = 4 then (sendDeep h d d.arg false [] s).getD s else s
    | _ => s
  showUnsent h (s.setOrx h { s.orx[h] with items := [], lost := 0 })

/-- ISOLATION_COMPLETE (R483 step 5): ISOh is set, notice 0x438 with the fault that caused it; the throttle actions of a hamlet in OFF or RETAIN end here (R370). -/
def execIsolationComplete (h : Fin 8) (s : State) : Host.Outcome State Fault Refusal :=
  .next (if s.flt.isoStep[h] ≠ 3 then s
    else
      let cause := s.flt.isoCause[h]
      let s := if s.hstate h < 2 then removeActs h s else s
      ((setIso h 0 (endDeepFlow h s)).setBit Fld.FLT_STAT_ISO h).raise 0x438 h cause)

end Sys2Proof.Machine
end

