-- ==== Sys2Proof/Machine/Flags.lean ====
section
/-!
DEFINITION. The flags: FLG of an engine (R244) and how an operation sets it (R256), and the status and interrupt words that the part derives from
its blocks (R265, R266, R275, R315, R486, R488).
-/

namespace Sys2Proof.Machine

/-! ### FLG (R244) -/

/-- One bit of FLG set or cleared. -/
def flgPut (f : BitVec 16) (n : Nat) (b : Bool) : BitVec 16 :=
  if b then f ||| (1#16 <<< n) else f &&& ~~~(1#16 <<< n)

/-- Z and N from a result (R244). -/
def flgZN (f : BitVec 16) (v : Word) : BitVec 16 := flgPut (flgPut f 0 (v == 0#32)) 1 v.msb

/-- Z, N, C and V from a result, a carry and an overflow (R244). -/
def flgZNCV (f : BitVec 16) (v : Word) (c o : Bool) : BitVec 16 := flgPut (flgPut (flgZN f v) 2 c) 3 o

/-- A sticky bit: set where `b`, else kept (R244). -/
def flgStick (f : BitVec 16) (n : Nat) (b : Bool) : BitVec 16 := if b then flgPut f n true else f

/-- A sum with a carry in: the word, the carry out, the signed overflow (R244, R256). -/
def addc (a b : Word) (c : Bool) : Word × Bool × Bool :=
  let w := a + b + BitVec.ofNat 32 (b2n c)
  (w, decide (2 ^ 32 ≤ a.toNat + b.toNat + b2n c), a.msb == b.msb && w.msb != a.msb)

/-- A difference as a sum: C is 1 when no borrow occurred (R244). -/
def subc (a b : Word) (c : Bool) : Word × Bool × Bool := addc a (~~~b) c

/-! ### Interrupt sources (R266, R275, R488) -/

/-- The level that a 2-bit routing code gives: 0 none, 1 interrupt, 2 or 3 urgent. -/
def irqLevel (code : Nat) : Nat := min 2 code

/-- `ENG_IPEND` of hamlet `h`: queue not empty, DMA channel event, doorbell, software, corrected-memory-error notice (R275). -/
def State.engIpend (s : State) (h : Fin 8) : Nat :=
  b2n (!s.evq[h].isEmpty)
    + b2n ((s.rd (Fld.DMA_IRQ_DONE.h h).reg &&& s.rd (Fld.DMA_IRQEN_DONE.h h).reg) != 0#32) * 2
    + s.get (Fld.ENG_SWI_DOOR.h h) * 4 + s.get (Fld.ENG_SWI_SOFT.h h) * 8 + s.get (Fld.STO_CE_INFO_VALID.st h) * 16

/-- `SYS_IPEND` (R488). -/
def State.sysIpend (s : State) : Nat :=
  let cal := (List.range 9).any fun n => s.flag (Fld.CAL_STATs_DONE.i n) || s.flag (Fld.CAL_STATs_FAIL.i n)
  s.get Fld.FLT_RCV_NEW + b2n (!s.flt.evq.isEmpty) * 2 + s.get Fld.HKA_STAT_SEQDONE * 4 + b2n cal * 8 + b2n s.bist.irq * 16
    + s.get Fld.AGT_STAT_DONE * 32 + b2n (s.flag (Fld.STL_RXb_INFO_FULL.i 0) || s.flag (Fld.STL_RXb_INFO_FULL.i 1)) * 64
    + b2n (s.flag Fld.WCH_SW_STAT_DONE || s.flag Fld.WCH_SW_STAT_HIT) * 128
    + b2n (s.flag (Fld.STO_CE_INFO_VALID.st 8) || s.flag (Fld.STO_CE_INFO_VALID.st 9)) * 256
    + b2n (s.lnk.toReeve.any fun m => m.flow == 3) * 512 + s.get Fld.SYS_SWI_SOFT * 1024

/-- Is a source of level `l` pending at engine `e` (R266)? An overflow of a hamlet's notification queue is always urgent. -/
def State.irqPending (s : State) (e : Fin 9) (l : Nat) : Bool :=
  if h : e.val < 8 then
    let k : Fin 8 := ⟨e.val, h⟩
    (List.range 5).any (fun n => bitOf (s.engIpend k) n && irqLevel (s.get ((Fld.ENG_IRQCFG_LVL.sub n).h k)) == l)
      || (l == 2 && s.flag (Fld.EVT_STAT_NOTIFLOST.h k))
  else (List.range 11).any fun n => bitOf s.sysIpend n && irqLevel (s.get (Fld.SYS_IRQCFG_LVL.sub n)) == l

/-- May an interrupt of level `l` be taken at engine `e`, apart from the boundary (R267): pending, enabled, above the current level? -/
def State.irqReady (s : State) (e : Fin 9) (l : Nat) : Bool :=
  let x := s.eng[e]
  s.irqPending e l && (if l = 2 then x.ie2 else l == 1 && x.ie1) && decide (x.lvl.val < l)

/-! ### Status words -/

/-- `ENG_STAT` of hamlet `h` (R275): STATE 2 while it waits. -/
def State.engStat (s : State) (h : Fin 8) : Nat :=
  let x := s.eng[hEng h]
  (if x.state = 1 && x.wait.isSome then 2 else x.state % 4) * 2 ^ 30 + x.lvl.val * 2 ^ 8 + s.evq[h].length % 64

/-- The causes of FAULT_L (R486), as CAUSE shows them: the wake record stands until VALID is cleared and a later wake has passed every step (R361). -/
def State.faultCause (s : State) : Nat :=
  let active := (List.range 32).any fun n => s.flag (Fld.FLT_LOGn_W0_ACTIVE.i n) && decide (1 ≤ s.get (Fld.FLT_LOGn_W0_SEV.i n))
  b2n active * 32 + s.get Fld.THM_STAT_SDLATCH * 16 + b2n (s.flag Fld.HTH_WAKEREC_VALID || s.pow.unpassed) * 8 + b2n s.flt.bootFail * 4 + b2n s.flt.reeveBist * 2

/-- `FLT_STAT` (R486). -/
def State.fltStat (s : State) : Nat :=
  b2n (s.faultCause != 0) * 2 ^ 31 + s.faultCause * 2 ^ 25 + s.get Fld.FLT_STAT_ISO * 2 ^ 16 + min 8 s.flt.queue.length * 2 ^ 8

/-- Is FAULT_L asserted (R486)? In KEEP and LISTEN the Hearth domain asserts it for a wake record or a recorded hard cut (R361, R372). -/
def State.faultL (s : State) : Bool :=
  s.flt.badStrap || s.faultCause != 0 || (s.pow.down != 0 && s.flag Fld.HTH_THMREC_VALID && s.flag Fld.HTH_THMREC_HARD)

/-- What FAULT_L drives, none where it is not driven: in OFF (R345, R347). -/
def State.faultPin (s : State) : Option Bool := if s.pow.hearth then some s.faultL else none

/-- What WAKE_OUT drives, none where it is not driven (R345, R347). -/
def State.wakePin (s : State) : Option Bool := if s.pow.hearth then some s.pow.wakeOut else none

/-- What front-end pin `j` of hamlet `h` drives: none while its domain is OFF, before it is up, and below STANDBY, where it floats (R348, R362). -/
def State.frontPin (s : State) (h : Fin 8) (j : Nat) : Option Bool :=
  if s.hstate h = 0 || s.dark then none else some (bitOf (s.get (Fld.FEP_LEVEL_LEVEL.h h)) j)

end Sys2Proof.Machine
end

