-- ==== Sys2Proof/Machine/Units.lean ====
section
/-!
DEFINITION. The registers of the ENG and DMA blocks (R275, R306, R313 to R324), and the LOCK registers (R49).
-/

namespace Sys2Proof.Machine

/-! ### The engine control block (R275) -/

/-- Is engine `e` at a quiet boundary (R267): no delay slot and no delay window open, or waiting? -/
def Eng.quiet (x : Eng) : Bool := (x.slot.isNone && x.writes.isEmpty) || x.wait.isSome

/-- The engine of hamlet `h` halts by HALT (R275, R302): STATE 0, `ENG_PC` the first instruction not retired, its locks freed broken. -/
def haltNow (h : Fin 8) (s : State) : State :=
  let s := s.setEng (hEng h) (s.eng[hEng h]).drain
  ((s.haltEng (hEng h) 0 (s.eng[hEng h]).resumeAt).breakLocks h [1, 2, 3]).put (Fld.ENG_CTRL_HALT.h h) 0

/-- HALT reads 1 until the next quiet boundary; there the engine halts. -/
def haltIfQuiet (h : Fin 8) (s : State) : State :=
  if s.flag (Fld.ENG_CTRL_HALT.h h) && (s.eng[hEng h]).quiet then haltNow h s else s

/-- Has Agate accepted an image of hamlet `h` that holds this address (R462)? -/
def State.entryAccepted (s : State) (h : Fin 8) (entry : Nat) : Bool :=
  match s.agt.prot[h.val]'(by omega) with
  | some p => decide (p.lo ≤ entry) && decide (entry < p.lo + p.len) && s.flag (Fld.AGT_HIMGh_VALID.i h)
  | none => false

/-- The engine of hamlet `h` starts at an address: kernel, base level, no translation, no interrupts (R275). -/
def startEngine (h : Fin 8) (entry : Nat) (s : State) : State :=
  s.setEng (hEng h) { s.eng[hEng h] with
    state := 1, pc := entry, te := false, priv := 1, lvl := 0, ie1 := false, ie2 := false, writes := [], slot := none, wait := none }

/-- RUN of a halted engine (R275, R462): refused unless Agate has accepted an image that holds ENTRY; else it starts at ENTRY. -/
def engRun (r : Req) (h : Fin 8) (s : State) : State :=
  let entry := s.get (Fld.ENG_ENTRY_PC.h h) * 4
  if s.entryAccepted h entry then startEngine h entry s else s.refuse4 r (hamletBase h + Reg.ENG_CTRL)

/-- A write to `ENG_CTRL` (R275): the Reeve alone. -/
def engCtrlWrite (r : Req) (h : Fin 8) (v : Word) (s : State) : State :=
  let a := hamletBase h + Reg.ENG_CTRL
  let st := s.eng[hEng h].state
  if r.id ≠ 16 then s.refuse4 r a
  else
    let s1 := if v.getLsbD 1 && st == 1 then haltIfQuiet h (s.put (Fld.ENG_CTRL_HALT.h h) 1) else s
    if v.getLsbD 0 then (if st = 3 then s1.refuse4 r a else if st = 0 then engRun r h s1 else s1) else s1

/-- A write to `ENG_ENTRY` (R275): the Reeve alone. -/
def engEntryWrite (r : Req) (h : Fin 8) (v : Word) (s : State) : State :=
  if r.id = 16 then s.storeReg r (hamletBase h + Reg.ENG_ENTRY) v else s.refuse4 r (hamletBase h + Reg.ENG_ENTRY)

/-- A write to `ENG_SWI` (R275): only the Reeve writes 1 to DOOR; a write of 1 by another leaves DOOR and is recorded with reason 4. -/
def engSwiWrite (r : Req) (h : Fin 8) (v : Word) (s : State) : State :=
  let a := hamletBase h + Reg.ENG_SWI
  if v.getLsbD 1 && r.id != 16 then
    (s.storeReg r a ((v &&& 0xFFFFFFFD#32) ||| (s.rd a &&& 2#32))).refuse4 r a
  else s.storeReg r a v

/-! ### The DMA block (R306, R314, R316, R321, R324) -/

/-- May this requester write the DMA block (R306)? -/
def dmaWriter (r : Req) (h : Fin 8) : Bool := r.id == 16 || (r.id == h.val && r.priv == 1)

/-- Sets STATE of a channel. -/
def State.setDmaSt (s : State) (h c : Fin 8) (v : Nat) : State := s.put (dmaF Fld.DMA_CHn_STAT_STATE h c) v

/-- Is a channel paced by edges (R315)? -/
def edgePaced (trig : Nat) : Bool := trig == 1 || trig == 2 || trig == 4 || trig == 5

/-- The elements of the loops and the element size of a descriptor (R307, R308). -/
def dCnt (w : List Word) (n : Nat) : Nat :=
  1 + (if n = 0 then (w.getD 2 0).toNat % 65536 else if n = 1 then (w.getD 2 0).toNat / 65536 else (w.getD 3 0).toNat / 65536)

/-- SIZE in bytes. -/
def dSize (w : List Word) : Nat := 2 ^ ((w.getD 3 0).toNat / 2 ^ 14 % 4)

/-- The bytes a descriptor moves. -/
def dTotal (w : List Word) : Nat := dSize w * (dCnt w 0 * (dCnt w 1 * dCnt w 2))

/-- The bytes of one UNIT (R307, R316). -/
def dUnit (w : List Word) : Nat :=
  let u := (w.getD 3 0).toNat / 2 ^ 10 % 4
  if u = 1 then dSize w * dCnt w 0 else if u = 2 then dSize w * (dCnt w 0 * dCnt w 1) else dTotal w

/-- Is the capture-ring request asserted (R317)? -/
def State.ringRequest (s : State) (h c : Fin 8) : Bool :=
  let f := s.ringFill h c
  decide (s.get (dmaF Fld.DMA_CHn_WM_WM h c) ≤ f) || (decide (0 < f) && !s.flag (Fld.ORX_STAT_RUN.h h))

/-- The channel has its descriptor or has ended a unit: it takes a trigger and goes on with the next UNIT, or waits (R316, R317). -/
def dmaPace (h c : Fin 8) (s : State) : State :=
  let x := s.dmaCh h c
  let trig := s.get (dmaF Fld.DMA_CHn_CFG_TRIG h c)
  if x.desc.isEmpty || x.wp < x.unitEnd || dTotal x.desc ≤ x.wp then s
  else if edgePaced trig then
    let n := s.get (dmaF Fld.DMA_CHn_STAT_PENDTRG h c)
    if n = 0 then s.setDmaSt h c 2
    else (((s.put (dmaF Fld.DMA_CHn_STAT_PENDTRG h c) (n - 1)).setDmaSt h c 1).setDma h c { x with
      unitEnd := min (dTotal x.desc) (x.unitEnd + dUnit x.desc) })
  else if trig = 3 then
    (s.setDma h c { x with unitEnd := dTotal x.desc }).setDmaSt h c (if s.ringRequest h c then 1 else 2)
  else (s.setDma h c { x with unitEnd := dTotal x.desc }).setDmaSt h c 1

/-- An edge trigger reaches a channel (R316). -/
def dmaTrigger (h c : Fin 8) (s : State) : State :=
  if s.dmaSt h c = 0 then s
  else
    let n := s.get (dmaF Fld.DMA_CHn_STAT_PENDTRG h c)
    if n = 255 then (s.put (dmaF Fld.DMA_CHn_STAT_TRGLOST h c) 1).inc ((Fld.DMA_CNTn_COUNT.i 0).h h)
    else
      let s := s.put (dmaF Fld.DMA_CHn_STAT_PENDTRG h c) (n + 1)
      if s.dmaSt h c = 2 then dmaPace h c s else s

/-- GO (R316, R317, R321, R324): a stopped channel starts at its head; else GOREF. -/
def dmaGo (h c : Fin 8) (s : State) : State :=
  if s.dmaSt h c ≠ 0 ∨ s.flag (Fld.DMA_CTRL_STOPALL.h h) then s.put (dmaF Fld.DMA_CHn_STAT_GOREF h c) 1
  else
    let rlen := s.get (dmaF Fld.DMA_CHn_RLEN_LEN h c)
    let off : Int := (28 * s.orx[h].wpos : Nat) - (28 * s.orx[h].fifo.length : Nat) - (s.get (dmaF Fld.DMA_CHn_RPTR_ADDR h c) : Int) + s.get (dmaF Fld.DMA_CHn_RBASE_ADDR h c)
    let fill : Int := if rlen = 0 then 0 else off % (rlen : Int)
    let s := ((s.put (dmaF Fld.DMA_CHn_STAT_PENDTRG h c) 0).setDmaSt h c 1).put (dmaF Fld.DMA_CHn_STAT_CODE h c) 0
    let s := s.put (Fld.DMA_CTRL_ALLSTOP.h h) 0
    s.setDma h c { next := s.get (dmaF Fld.DMA_CHn_DESC_ADDR h c) * 32, rlen := (s.dmaCh h c).rlen, taken := s.orx[h].written - fill }

/-- The source byte from which the destination bytes at and after byte `n` of a descriptor are formed (R312). -/
def srcFrom (w : List Word) (n : Nat) : Nat :=
  let m := (w.getD 3 0).toNat / 2 ^ 12 % 4
  if m = 0 then n else if m = 3 then n / 2 * 2 else n / dSize w * dSize w

/-- Bytes read beyond the resume point are discarded and read again (R322); a word of register space is kept, so that no fault discards it (R311). -/
def DmaCh.rewind (x : DmaCh) : DmaCh :=
  if x.regs then { x with failed := none } else { x with buf := [], rp := min x.rp (srcFrom x.desc x.wp), failed := none }

/-- RESUME (R321): a suspended or halted channel continues from its resume point; elsewhere it is ignored. -/
def dmaResume (h c : Fin 8) (s : State) : State :=
  if s.dmaSt h c = 3 ∨ s.dmaSt h c = 4 then (s.setDmaSt h c 1).put (dmaF Fld.DMA_CHn_STAT_CODE h c) 0 else s

/-- STRIG (R316): on a channel with edge pacing one edge trigger. -/
def dmaStrig (h c : Fin 8) (s : State) : State :=
  if edgePaced (s.get (dmaF Fld.DMA_CHn_CFG_TRIG h c)) then dmaTrigger h c s else s

/-- A write to `DMA_CHn_CTRL` (R321): its four commands, in the order ABORT, RESUME, GO, STRIG. -/
def dmaCtrlWrite (h c : Fin 8) (v : Word) (s : State) : State :=
  let s := if v.getLsbD 30 then s.endDma h c 2 else s
  let s := if v.getLsbD 29 then dmaResume h c s else s
  let s := if v.getLsbD 31 then dmaGo h c s else s
  if v.getLsbD 28 then dmaStrig h c s else s

/-- A write to `DMA_CTRL` (R306, R324): STOPALL by the Reeve alone. -/
def dmaStopallWrite (r : Req) (h : Fin 8) (v : Word) (s : State) : State :=
  if r.id ≠ 16 then s.refuse4 r (hamletBase h + Reg.DMA_CTRL)
  else if v.getLsbD 0 then s.stopAllDma h else s.put (Fld.DMA_CTRL_STOPALL.h h) 0

/-- A write to `DMA_CHn_RLEN` (R314): a multiple of 8, at once while STOPPED, else held. -/
def dmaRlenWrite (r : Req) (h c : Fin 8) (a : Nat) (v : Word) (s : State) : State :=
  let n := v.toNat % 2 ^ 24
  if n % 8 ≠ 0 then s.refuse4 r a
  else if s.dmaSt h c = 0 then
    ((s.put (dmaF Fld.DMA_CHn_RLEN_LEN h c) n).put (dmaF Fld.DMA_CHn_RLEN_PEND h c) 0).setDma h c { s.dmaCh h c with rlen := none }
  else (s.put (dmaF Fld.DMA_CHn_RLEN_PEND h c) 1).setDma h c { s.dmaCh h c with rlen := some n }

/-- A write to the DMA block (R306, R314, R315, R321). -/
def dmaWrite (r : Req) (h : Fin 8) (a : Nat) (v : Word) (s : State) : State :=
  let la := localAddr a
  if !dmaWriter r h then s.refuse4 r a
  else if la = Reg.DMA_CTRL then dmaStopallWrite r h v s
  else if la < Reg.DMA_CHn_CFG then s.storeReg r a v
  else
    let c : Fin 8 := Fin.ofNat 8 ((la - Reg.DMA_CHn_CFG) / 64)
    let off := (la - Reg.DMA_CHn_CFG) % 64
    let stopped := s.dmaSt h c == 0
    if off = 0 then (if stopped && v.toNat / 2 ^ 19 % 8 < 6 then s.storeReg r a v else s.refuse4 r a)
    else if off = 4 ∨ off = 0x24 ∨ off = 0x2C then (if stopped then s.storeReg r a v else s.refuse4 r a)
    else if off = 8 then dmaCtrlWrite h c v s
    else if off = 0x28 then dmaRlenWrite r h c a v s
    else s.storeReg r a v

/-- `DMA_CHn_LOOP0` and `DMA_CHn_LOOP1` (R322): the indices and the byte offset of the first destination byte not yet written. -/
def State.dmaLoop (s : State) (h c : Fin 8) : Nat × Nat :=
  let x := s.dmaCh h c
  let el := x.wp / dSize x.desc
  (el / dCnt x.desc 0 % dCnt x.desc 1 * 65536 + el % dCnt x.desc 0,
   x.wp % dSize x.desc * 65536 + el / (dCnt x.desc 0 * dCnt x.desc 1))

/-! ### LOCK (R49) -/

/-- A write to a LOCK register (R49): the Reeve at kernel or machine level, and for a hamlet block the hamlet's engine at kernel level. -/
def lockRegWrite (r : Req) (a : Nat) (v : Word) (s : State) : State :=
  let own := match hamletOf a with | some h => r.id == h.val && r.priv == 1 | none => false
  if (r.id == 16 && (r.priv == 1 || r.priv == 2)) || own then s.storeReg r a v else s.refuse4 r a

end Sys2Proof.Machine
end

