-- ==== Sys2Proof/Machine/Bus.lean ====
section
/-!
DEFINITION. The register bridge and the memory map as a requester reaches them (R8, R35 to R52): the effect of a write and of a read of every register,
and one access of 1, 2, 4 or 8 bytes. RMA_REQUEST (R197).
-/

namespace Sys2Proof.Machine

/-- The index of an address in an array of registers. -/
def arrIdx (la base stride cnt : Nat) : Option Nat :=
  if base ≤ la ∧ (la - base) % stride = 0 ∧ (la - base) / stride < cnt then some ((la - base) / stride) else none

/-- Is an address inside a span of registers? -/
def inSpan (la base len : Nat) : Bool := base ≤ la && la < base + len

/-! ### Writes -/

/-- A write to an STO register set (R285, R286): `la` is its address as in a hamlet's STO block. -/
def stoWrite (r : Req) (k la a : Nat) (v : Word) (s : State) : State :=
  if inSpan la Reg.STO_REPAIRn 1024 then repairWrite r k ((la - Reg.STO_REPAIRn) / 4) v s
  else if la = Reg.STO_INJ ∨ la = Reg.STO_INJ_ADDR then injectWrite r k a v s
  else s.storeReg r a v

/-- A write to the SYS block. -/
def sysWrite (r : Req) (a : Nat) (v : Word) (s : State) : State :=
  if a = Reg.SYS_RST then sysRstWrite r reeveRestart v s
  else if inSpan a 0x04000800 0x800 then stoWrite r 8 (a - 0x04000800 + 0x8E0000) a v s
  else s.storeReg r a v

/-- A write to the PWR block. -/
def pwrWrite (r : Req) (a : Nat) (v : Word) (s : State) : State :=
  match arrIdx a Reg.PWR_HLDOh 4 8 with
  | some h => vsetWrite r (Fin.ofNat 8 h) v s
  | none => if a = Reg.PWR_HCTRL then hctrlWrite r v s else s.storeReg r a v

/-- A write to the CLK block. -/
def clkWrite (r : Req) (a : Nat) (v : Word) (s : State) : State :=
  match arrIdx a Reg.CLK_OUTn_CFG 16 4, arrIdx a Reg.CLK_OUTn_DIV 16 4 with
  | some n, _ => clkOutWrite r (Fin.ofNat 4 n) false v s
  | none, some n => clkOutWrite r (Fin.ofNat 4 n) true v s
  | none, none => s.storeReg r a v

/-- A write to the THM block. -/
def thmWrite (r : Req) (a : Nat) (v : Word) (s : State) : State :=
  if a = Reg.THM_LIMIT then thmLimitWrite r v s else if a = Reg.THM_CTRL then thmCtrlWrite r v s else s.storeReg r a v

/-- A write to the BDA block. -/
def bdaWrite (r : Req) (a : Nat) (v : Word) (s : State) : State :=
  if inSpan a Reg.BDA_CHc_CODE 1024 then
    let c : Fin 32 := Fin.ofNat 32 ((a - Reg.BDA_CHc_CODE) / 32)
    let off := (a - Reg.BDA_CHc_CODE) % 32
    if off = 0 then biasCodeWrite r c v s
    else if off = 4 then biasCfgWrite r c v s
    else if off = 12 then biasSineWrite r c v s
    else if off = 8 then biasClrWrite r c v s
    else if off = 16 then biasSampWrite r c v s
    else if off = 20 then biasStatWrite r c v s
    else s.storeReg r a v
  else s.storeReg r a v

/-- A write to the TIM block. -/
def timWrite (r : Req) (a : Nat) (v : Word) (s : State) : State :=
  if a = Reg.TIM_UTC then timUtcWrite r v s
  else if a = Reg.TIM_FRAME then timFrameWrite r v s
  else if a = Reg.TIM_CFG then timCfgWrite r v s
  else if a = Reg.TIM_MEAS_CTRL then measWrite v s
  else if a = Reg.TIM_STEPCTL then stepCtlWrite r v s
  else if a = Reg.TIM_VCXO then vcxoWrite r v s
  else if a = Reg.TIM_STEER then steerWrite r v s
  else s.storeReg r a v

/-- A write to the TLY block. -/
def tlyWrite (r : Req) (a : Nat) (v : Word) (s : State) : State :=
  if a = Reg.TLY_CFG then tlyCfgWrite r v s else if a = Reg.TLY_CMD then tlyCmdWrite r v s else s.storeReg r a v

/-- A write to the LNK block. -/
def lnkWrite (r : Req) (a : Nat) (v : Word) (s : State) : State :=
  if carrierReg a then carrierRegWrite r a v s
  else if a = Reg.LNK_CAR_COMMIT then carrierCommit r v s
  else if a = Reg.LNK_WCFG then wcfgWrite r v s
  else if a = Reg.LNK_ULC_CFG then hmaskWrite r v s
  else if a = Reg.LNK_DL_CFG then dlCfgWrite r v s
  else if inSpan a Reg.LNK_PRA_CFGm 0x90 then praWrite r a v s
  else if a = Reg.LNK_CTRL then lnkCtrlWrite r v s
  else if inSpan a 0x040A0800 0x800 then stoWrite r 9 (a - 0x040A0800 + 0x8E0000) a v s
  else match arrIdx a Reg.LNK_FLOWf_CFG 8 256, arrIdx a Reg.LNK_PARTn 4 4 with
    | some f, _ => flowCfgWrite r f v s
    | none, some n => partWrite r (Fin.ofNat 4 n) v s
    | none, none => s.storeReg r a v

/-- A write to the WCH block. -/
def wchWrite (r : Req) (a : Nat) (v : Word) (s : State) : State :=
  if a = Reg.WCH_CTRL then wchCtrlWrite r v s
  else if a = Reg.WCH_DIG_FREQ then digFreqWrite r v s
  else if a = Reg.WCH_SW_CFG then sweepWrite r v s
  else match arrIdx a Reg.WCH_FMn_FREQ 32 2, arrIdx a Reg.WCH_FMn_CFG 32 2 with
    | some n, _ => fmFreqWrite r (Fin.ofNat 2 n) v s
    | none, some n => fmCfgWrite r (Fin.ofNat 2 n) v s
    | none, none => s.storeReg r a v

/-- A write to the STL block. -/
def stlWrite (r : Req) (a : Nat) (v : Word) (s : State) : State :=
  if a = Reg.STL_CMD then stlCmdWrite v s
  else if a = Reg.STL_FREQ then stlFreqWrite r v s
  else if a = Reg.STL_CFG then stlCfgWrite r v s
  else s.storeReg r a v

/-- A write to the HTH block. -/
def hthWrite (r : Req) (a : Nat) (v : Word) (s : State) : State :=
  if a = Reg.HTH_CAL_CTRL then calCtrlWrite r v s
  else if a = Reg.HTH_WAKEREC then wakerecWrite r v s
  else if inSpan a 0x04100200 512 then retentionWrite r a v s
  else s.storeReg r a v

/-- A write to a global block. -/
def globalWrite (r : Req) (a : Nat) (v : Word) (s : State) : State :=
  match a / 0x10000 with
  | 0x400 => sysWrite r a v s
  | 0x401 => pwrWrite r a v s
  | 0x402 => clkWrite r a v s
  | 0x403 => thmWrite r a v s
  | 0x404 => if a = Reg.HKA_SEQCTL then seqctlWrite r v s else s.storeReg r a v
  | 0x405 => bdaWrite r a v s
  | 0x406 => match arrIdx a Reg.CAL_REQs 32 9 with
    | some n => calReqWrite r (Fin.ofNat 9 n) v s
    | none => s.storeReg r a v
  | 0x407 => if a = Reg.FLT_CTRL then fltCtrlWrite r v s else s.storeReg r a v
  | 0x408 => timWrite r a v s
  | 0x409 => tlyWrite r a v s
  | 0x40A => lnkWrite r a v s
  | 0x40C => wchWrite r a v s
  | 0x40D => stlWrite r a v s
  | 0x40E => if a = Reg.BEL_CFG then belCfgWrite r v s else s.storeReg r a v
  | 0x40F => if a = Reg.AGT_CMD then agtCmdWrite r v s else agtWrite r a (fun s => s.storeReg r a v) s
  | 0x410 => hthWrite r a v s
  | 0x411 => if a = Reg.BIST_CMD then bistCmdWrite r v s else s.storeReg r a v
  | _ => s.storeReg r a v

/-- A write to the TXC block. CLIP is in force from the write on (R107). -/
def txcWrite (r : Req) (h : Fin 8) (a la : Nat) (v : Word) (s : State) : State :=
  if carrierReg a then carrierRegWrite r a v s
  else if la = Reg.TXC_FSWAP then fswapWrite false h v s
  else if la = Reg.TXC_CFR_SWAP then cfrSwapWrite h v s
  else if inSpan la Reg.TXC_COEF 0x2000 then filterCoefWrite false r h a v s
  else if inSpan la Reg.TXC_PULSE 0x800 then pulseWrite r h a v s
  else if la = Reg.TXC_CFR_CLIP then ((s.keepWas h a (s.erd a) s.now).storeReg r a v).take a
  else if la = Reg.TXC_CFR_CFG ∨ la = Reg.TXC_CTRL ∨ inSpan la Reg.TXC_TRIMk 32 then halfSetWrite r h a v s
  else match arrIdx la Reg.TXC_PATHk 4 8 with
    | some k => pathWrite r h (Fin.ofNat 8 k) v s
    | none => s.storeReg r a v

/-- A write to the RXC block. -/
def rxcWrite (r : Req) (h : Fin 8) (a la : Nat) (v : Word) (s : State) : State :=
  if carrierReg a then carrierRegWrite r a v s
  else if la = Reg.RXC_FSWAP then fswapWrite true h v s
  else if inSpan la Reg.RXC_COEF 0x2000 then filterCoefWrite true r h a v s
  else if inSpan la Reg.RXC_TRIMk 32 ∨ inSpan la Reg.RXC_GCOMPk_g 0x80 then halfSetWrite r h a v s
  else s.storeReg r a v

/-- A write to the ORX block. -/
def orxWrite (r : Req) (h : Fin 8) (a la : Nat) (v : Word) (s : State) : State :=
  if la = Reg.ORX_NCO_FREQ then orxNcoWrite r h v s
  else if la = Reg.ORX_SW then orxSwWrite r h v s
  else if la = Reg.ORX_CLAIM then orxClaimWrite r h v s
  else if la = Reg.ORX_TRIG then orxTrigWrite h v s
  else if la = Reg.ORX_RING then orxRingWrite r h v s
  else if la = Reg.ORX_CREC_NEXT then orxNextWrite h s
  else if la = Reg.ORX_DF then orxDfWrite r h v s
  else s.storeReg r a v

/-- A write to the DPD block. -/
def dpdWrite (r : Req) (h : Fin 8) (a la : Nat) (v : Word) (s : State) : State :=
  if la = Reg.DPD_CFG then dpdCfgWrite r h v s
  else if inSpan la Reg.DPD_COEF 0x4000 then dpdCoefWrite r h a v s
  else match arrIdx la Reg.DPD_SWAPk 4 8 with
    | some k => dpdSwapWrite h (Fin.ofNat 8 k) v s
    | none => s.storeReg r a v

/-- A write to the SLT and FEP blocks. -/
def sltWrite (r : Req) (h : Fin 8) (a la : Nat) (v : Word) (s : State) : State :=
  if la = Reg.SLT_CTRL then sltCtrlWrite r h v s
  else if la = Reg.SLT_EDIT then sltEditWrite r h v s
  else if la = Reg.SLT_GAINCFG then gainCfgWrite r h v s
  else if la = Reg.FEP_CLAIM then fepClaimWrite h v s
  else if la = Reg.FEP_SAFE then fepSafeWrite r h v s
  else if la = Reg.FEP_GPIO then fepGpioWrite r h v s
  else s.storeReg r a v

/-- A write to the LCK block (R301, R304). -/
def lckWrite (r : Req) (h : Fin 8) (a la : Nat) (v : Word) (s : State) : State :=
  match arrIdx la Reg.LCK_n 4 32 with
  | some n => lockWrite r h (Fin.ofNat 32 n) v s
  | none => if la = Reg.LCK_FREE then lockFreeWrite r h v s else s.storeReg r a v

/-- A write to the EVT block (R227). -/
def evtWrite (r : Req) (h : Fin 8) (a la : Nat) (v : Word) (s : State) : State :=
  match arrIdx la Reg.EVT_TMRn_CFG 8 4, arrIdx la Reg.EVT_TMRn_PER 8 4 with
  | some n, _ => timerWrite r h (Fin.ofNat 4 n) false v s
  | none, some n => timerWrite r h (Fin.ofNat 4 n) true v s
  | none, none => s.storeReg r a v

/-- The counts that a register shows are brought up to date before it is read or written: slots with forced samples (R114, R142), saturated and clipped transmit samples (R107,
R115). -/
def upToDate (h : Fin 8) (la : Nat) (s : State) : State :=
  if la = Reg.TXC_UNLOCK_CNT then s.countTx h s.now
  else if la = Reg.RXC_UNLOCK_CNT then s.countRx h s.now
  else if la = Reg.TXC_STAT ∨ la = Reg.TXC_SATSRC ∨ inSpan la Reg.TXC_SATk 32 ∨ inSpan la Reg.TXC_CLIPk 32 then s.txRun
  else s

/-- A write to a block of hamlet `h`. -/
def hamletWrite (r : Req) (h : Fin 8) (a la : Nat) (v : Word) (s : State) : State :=
  let s := upToDate h la s
  match la / 0x10000 with
  | 0x80 => if la = Reg.ENG_CTRL then engCtrlWrite r h v s
    else if la = Reg.ENG_ENTRY then engEntryWrite r h v s
    else if la = Reg.ENG_SWI then engSwiWrite r h v s
    else s.storeReg r a v
  | 0x82 => dmaWrite r h a v s
  | 0x83 => if la = Reg.ARB_CFG then arbCfgWrite r h v s else if la = Reg.ARB_CTRL then freezeWrite r h v s else s.storeReg r a v
  | 0x84 => lckWrite r h a la v s
  | 0x85 => if la = Reg.BFM_BASES then bfmBasesWrite r h v s
    else if la = Reg.BFM_COMMIT_CTRL then bfmCommitGo r h v s
    else if s.sexpBusy h a then
      { s with bfm := s.bfm.set h { s.bfm[h] with stalled := s.bfm[h].stalled ++ [⟨r, a, 2, true, v.toNat, a⟩] } }
    else s.storeReg r a v
  | 0x86 => sltWrite r h a la v s
  | 0x87 => txcWrite r h a la v s
  | 0x88 => rxcWrite r h a la v s
  | 0x89 => orxWrite r h a la v s
  | 0x8A => dpdWrite r h a la v s
  | 0x8B => evtWrite r h a la v s
  | 0x8C => if la = Reg.PLL_CTRL then pllCtrlWrite r h v s else if la = Reg.PLL_FORCE then pllForceWrite r h v s else s.storeReg r a v
  | 0x8D => sltWrite r h a la v s
  | 0x8E => stoWrite r h.val la a v s
  | _ => s.storeReg r a v

/-- The effect of a write of one 32-bit word to a register that exists (R8): its block's meaning, or storing by access type. An identity register takes no write; a requester
that may not write its block at all is recorded there too (R306). -/
def regWrite (r : Req) (a : Nat) (v : Word) (s : State) : State :=
  if a % 0x10000 = 0xFFFC then lockRegWrite r a v s
  else if a % 0x10000 = 0 then
    let barred := match hamletOf a with
      | some h => localAddr a / 0x10000 == 0x82 && !dmaWriter r h
      | none => a / 0x10000 == 0x40F && !(r.id == 16 && r.priv == 2)
    if barred then s.refuse4 r a else s
  else match hamletOf a with
    | some h => hamletWrite r h a (localAddr a) v s
    | none => globalWrite r a v s

/-! ### Reads -/

/-- The identity register of a block (R37, R48). -/
def idWord (a : Nat) : Nat :=
  match hamletOf a with
  | some h => (localAddr a / 0x10000 - 0x80 + 0x21) * 2 ^ 24 + h.val * 2 ^ 16 + 0x100
  | none => (a / 0x10000 - 0x400 + 1) * 2 ^ 24 + 0xFF * 2 ^ 16 + 0x100

/-- A register as stored; its RC fields clear. -/
def plainRead (a events : Nat) (s : State) : Nat × State := ((s.rd a).toNat, s.clearRC a events)

/-- `PWR_HLDOh` (R346): VNOW is the rail now, 0 in OFF and RETAIN. -/
def State.hldoWord (s : State) (h : Fin 8) : Nat :=
  let vnow := if s.hstate h < 2 then 0 else (s.railUv h s.now / 1000 - 600) / 10
  (setBits Fld.PWR_HLDOh_VNOW (s.rd (Reg.PWR_HLDOh + 4 * h)) vnow).toNat

/-- A read of a global block. -/
def globalRead (a events : Nat) (s : State) : Nat × State :=
  if a = Reg.SYS_STEP then ((s.rd a).toNat + b2n Config.fuses.gradeX * 2 ^ 16, s)
  else if a = Reg.SYS_UID_LO then (Config.uid % 2 ^ 32, s)
  else if a = Reg.SYS_UID_HI then (Config.uid / 2 ^ 32 % 2 ^ 32, s)
  else if a = Reg.SYS_IPEND then (s.sysIpend, s)
  else if a = Reg.SYS_EVQ then sysEvqRead s
  else if a = Reg.PWR_STAT then (s.devState * 2 ^ 29 + s.get Fld.PWR_STAT_RSTERR, s)
  else if inSpan a Reg.PWR_HLDOh 32 then (s.hldoWord (Fin.ofNat 8 ((a - Reg.PWR_HLDOh) / 4)), s)
  else if inSpan a Reg.HKA_RESn 256 then
    let n : Fin 32 := Fin.ofNat 32 ((a - Reg.HKA_RESn) / 8)
    if a % 8 = 0 then resRead n s else rstRead n events s
  else if inSpan a Reg.BDA_CHc_CODE 1024 && (a - Reg.BDA_CHc_CODE) % 32 == 20 then
    ((s.biasStat (Fin.ofNat 32 ((a - Reg.BDA_CHc_CODE) / 32))).toNat, s)
  else if a = Reg.FLT_STAT then (s.fltStat, s)
  else if a = Reg.TIM_NOW_NS then nowRead s
  else if a = Reg.TIM_HOLDSEC then (s.holdSec, s)
  else if a = Reg.TIM_CAPq_NS then capRead 0 s
  else if a = Reg.TIM_CAPq_NS + 16 then capRead 1 s
  else if inSpan a Reg.LNK_PLANEn 40 && getBits Fld.LNK_PLANEn_CDR (s.rd a) == 1 then
    let x := s.drawn
    ((setBits Fld.LNK_PLANEn_EYE (s.rd a) x.1).toNat, x.2.clearRC a events)
  else if a = Reg.WCH_BT_UTC then
    let s := btUtcRead s
    ((s.rd a).toNat, s)
  else if a = Reg.STL_STAT then ((s.rd a).toNat + b2n s.bel.answer.isSome * 2 ^ 27, s)
  else if a = Reg.AGT_LCS then (s.lcsWord, s)
  else if a = Reg.AGT_ARB then (s.arbWord, s)
  else if a = Reg.HTH_CAL_LO then calLoRead s
  else if a = Reg.HTH_CAL_HI then (calHiRead s, s)
  else if a = 0x0410020C then ((s.rd Reg.HTH_WAKEREC).toNat, s)
  else if a = 0x04100210 then ((s.rd Reg.HTH_THMREC).toNat, s)
  else if a = Reg.BIST_STAT then bistStatRead s
  else plainRead a events s

/-- A read of a block of hamlet `h`. -/
def hamletRead (r : Req) (h : Fin 8) (a la events : Nat) (s : State) : Nat × State :=
  let s := upToDate h la s
  if la = Reg.SLT_POS then (s.sltPos h, s)
  else if la = Reg.ENG_STAT then (s.engStat h, s)
  else if la = Reg.ENG_PC then (s.eng[hEng h].halted, s)
  else if la = Reg.ENG_IPEND then (s.engIpend h, s)
  else if la = Reg.ENG_EVQ then evqRead h s
  else if la / 0x10000 = 0x82 ∧ Reg.DMA_CHn_CFG ≤ la ∧ (la - Reg.DMA_CHn_CFG) % 64 = 0x14 then
    ((s.dmaLoop h (Fin.ofNat 8 ((la - Reg.DMA_CHn_CFG) / 64))).1 % 2 ^ 32, s)
  else if la / 0x10000 = 0x82 ∧ Reg.DMA_CHn_CFG ≤ la ∧ (la - Reg.DMA_CHn_CFG) % 64 = 0x18 then
    ((s.dmaLoop h (Fin.ofNat 8 ((la - Reg.DMA_CHn_CFG) / 64))).2 % 2 ^ 32, s)
  else if la = Reg.ARB_STAT then
    ((s.rd a).toNat + s.quotaMask ⟨h.val, by omega⟩, s)
  else match arrIdx la Reg.LCK_n 4 32 with
    | some n => lockRead r h (Fin.ofNat 32 n) s
    | none => plainRead a events s

/-- The data and the effect of a read of one 32-bit register (R8); `events` is what an RC counter counted in the same access. -/
def regRead (r : Req) (a events : Nat) (s : State) : Nat × State :=
  if a % 0x10000 = 0 then (idWord a, s)
  else match hamletOf a with
    | some h => hamletRead r h a (localAddr a) events s
    | none => globalRead a events s

/-! ### One access (R18, R35, R42 to R47, R278, R292, R354, R462) -/

/-- How an access ends: with data, with an error response, or it waits. -/
inductive BusRes where
  | data (v : Nat)
  | err
  | stall
  deriving DecidableEq, Repr

/-- Is the store of an address frozen, so that a request waits (R292)? -/
def State.frozen (s : State) (a : Nat) : Bool :=
  match hamletOf a with
  | some h => s.flag (Fld.ARB_CTRL_FREEZE.h h)
  | none => false

/-- One read of 2^size bytes, at most 32 bits in register space. -/
def readOne (r : Req) (fetch : Bool) (a size : Nat) (s : State) : BusRes × State :=
  match s.check r a size false with
  | .ok =>
    if inRegs a then
      let x := regRead r a 0 s
      (.data (x.1 % 2 ^ 32), x.2)
    else if a < 0x00040000 then
      (.data ((List.range (2 ^ size)).foldr (fun i acc => acc * 256 + Config.bootRom (a + i) % 256) 0), s)
    else if s.frozen a then (.stall, s.access r.id fetch a (2 ^ size) false)
    else
      let x := s.checkRead r.id fetch a (2 ^ size)
      if x.2 then (.err, x.1) else (.data (x.1.memLE a (2 ^ size)), x.1)
  | .zero => (.data 0, s)
  | .bad reason _ => (.err, s.badAccess r a size false reason)
  | .stall h => (.stall, s.startWake h)
  | .fail => (.err, s)

/-- Has a store write of `n` bytes to wait: at a frozen arbiter (R292), for the copy of a beam shadow (R65), or for the copy of its row (R283)? -/
def State.writeWaits (s : State) (a n : Nat) : Bool :=
  s.frozen a || s.rowBusy a n || (match hamletOf a with | some h => s.shadowBusy h a | none => false)

/-- A store write of 2^size bytes: refused in a protected range (R462), kept waiting where the arbiter holds it. -/
def storeWrite (r : Req) (a size v : Nat) (s : State) : BusRes × State :=
  if s.protectedAt a (2 ^ size) then (.err, s.badAccess r a size true 4)
  else if s.writeWaits a (2 ^ size) then (.stall, s.access r.id false a (2 ^ size) false)
  else
    let x := s.checkWrite r.id a (2 ^ size) v
    (if x.2 then .err else .data 0, x.1)

/-- Does a register write wait for the copy of a beam shadow (R65)? -/
def State.regWaits (s : State) (a : Nat) : Bool :=
  match hamletOf a with
  | some h => s.sexpBusy h a
  | none => false

/-- Does a 64-bit access to register space split into its halves (R43, R44): it is in reach and in a window, and its block answers? -/
def State.splits (s : State) (r : Req) (a size : Nat) (write : Bool) : Bool :=
  inRegs a && size == 3 && (match s.check r a 3 write with
    | .ok | .zero => true
    | .bad reason _ => reason == 0
    | _ => false)

/-- A read of 2^size bytes at a naturally aligned address. In register space a 64-bit read is two 32-bit reads, the lower address first (R44). -/
def busRead (r : Req) (fetch : Bool) (a size : Nat) (s : State) : BusRes × State :=
  if s.splits r a size false then
    match readOne r fetch a 2 s with
    | (.data lo, s) =>
      match readOne r fetch (a + 4) 2 s with
      | (.data hi, s) => (.data (lo + hi * 2 ^ 32), s)
      | x => x
    | x => x
  else readOne r fetch a size s

/-- One write of 2^size bytes, at most 32 bits in register space. -/
def writeOne (r : Req) (a size v : Nat) (s : State) : BusRes × State :=
  match s.check r a size true with
  | .ok =>
    if inRegs a then (if s.regWaits a then (.stall, s) else (.data 0, regWrite r a (BitVec.ofNat 32 v) s))
    else storeWrite r a size v s
  | .zero => (.data 0, s)
  | .bad reason e => (if e then .err else .data 0, s.badAccess r a size true reason)
  | .stall h => (.stall, s.startWake h)
  | .fail => (.err, s)

/-- A write of 2^size bytes at a naturally aligned address. In register space a 64-bit write is two 32-bit writes, the lower address first (R44). -/
def busWrite (r : Req) (a size v : Nat) (s : State) : BusRes × State :=
  if s.splits r a size true then
    match writeOne r a 2 (v % 2 ^ 32) s with
    | (.data _, s) => writeOne r (a + 4) 2 (v / 2 ^ 32) s
    | x => x
  else writeOne r a size v s

/-! ### The gateway (R31, R45, R197, R198) -/

/-- The naturally aligned accesses of a span: address and size code, each the largest that fits. -/
def splitSpan : Nat → Nat → Nat → List (Nat × Nat)
  | 0, _, _ => []
  | fuel + 1, a, n =>
    if n = 0 then []
    else
      let size := if inRegs a then (if a % 8 = 0 ∧ 8 ≤ n then 3 else 2)
        else if a % 8 = 0 ∧ 8 ≤ n then 3 else if a % 4 = 0 ∧ 4 ≤ n then 2 else if a % 2 = 0 ∧ 2 ≤ n then 1 else 0
      (a, size) :: splitSpan fuel (a + 2 ^ size) (n - 2 ^ size)

/-- The gateway as a requester. -/
abbrev gateway : Req := ⟨17, 3⟩

/-- The first access of a request that fails a check, with its reason, in the order of R46: reach and windows come before the size rule of register space; a
reserved write is no failure (R43). DESIGN CHOICE (log 139): a request refused for a start or length that is no multiple of 4 shows its start address and SIZE 2 (R45). -/
def State.rmaRefusal (s : State) (write : Bool) (l : List (Nat × Nat)) (a n : Nat) : Option (Nat × Nat × Nat) :=
  l.findSome? fun x =>
    match s.check gateway x.1 x.2 write with
    | .bad reason true => some (x.1, x.2, reason)
    | _ =>
      if inRegs x.1 && !reserved x.1 && (a % 4 != 0 || n % 4 != 0) then some (a, 2, 2)
      else if write && s.protectedAt x.1 (2 ^ x.2) then some (x.1, x.2, 4) else none

/-- Performs the reads of a request in ascending order; none after an error response. -/
def rmaReads : List (Nat × Nat) → State → Option (List Nat) × State
  | [], s => (some [], s)
  | x :: t, s =>
    match busRead gateway false x.1 x.2 s with
    | (.data v, s) =>
      let y := rmaReads t s
      (y.1.map fun l => (List.range (2 ^ x.2)).map (fun i => v / 256 ^ i % 256) ++ l, y.2)
    | (_, s) => (none, s)

/-- Performs the writes of a request in ascending order, up to an error response; the flag says that none came. -/
def rmaWrites : List (Nat × Nat) → List Nat → State → Bool × State
  | [], _, s => (true, s)
  | x :: t, d, s =>
    match busWrite gateway x.1 x.2 ((d.take (2 ^ x.2)).foldr (fun b acc => acc * 256 + b % 256) 0) s with
    | (.data _, s) => rmaWrites t (d.drop (2 ^ x.2)) s
    | (_, s) => (false, s)

/-- A request whose checks passed is performed and answered; an error response from the target is reason 10. -/
def rmaPerform (q : RmaReq) (s : State) : State :=
  let l := splitSpan (q.len + 1) q.addr q.len
  if q.op = 0 then
    match rmaReads l s with
    | (some d, s) => rmaDone q d s
    | (none, s) => rmaFail q 10 s
  else
    match rmaWrites l q.data s with
    | (true, s) => rmaDone q [] s
    | (false, s) => rmaFail q 10 s

/-- The hamlet that a request has to wake first (R42). -/
def State.rmaSleeps (s : State) (write : Bool) (l : List (Nat × Nat)) : Option (Fin 8 × Nat) :=
  l.findSome? fun x => match s.check gateway x.1 x.2 write with | .stall h => some (h, x.1) | _ => none

/-- Does a request have to wait, so that none of it is performed yet: for a frozen store (R292) or, a write, for the copy of a beam shadow or of a row (R65, R283)? -/
def State.rmaHeld (s : State) (write : Bool) (addr len : Nat) : Bool :=
  (splitSpan (min len 4096 + 1) addr (min len 4096)).any fun x =>
    if inStore x.1 then (if write then s.writeWaits x.1 (2 ^ x.2) else s.frozen x.1) else write && inRegs x.1 && (s.regWaits x.1 || s.regWaits (x.1 + 4))

/-- A Remote Memory Access request (R197): malformed, too long, refused whole by a check, waiting for its hamlet's wake, or performed. A request for a store
under FREEZE waits: it is not taken. -/
def rmaRequest (q : RmaReq) (low : Nat) (s : State) : State :=
  let l := splitSpan (q.len + 1) q.addr q.len
  let write := q.op != 0
  if 2 < q.op ∨ low ≠ 0 ∨ 2 ^ 32 ≤ q.addr ∨ q.len = 0 ∨ (write ∧ q.len ≤ 4096 ∧ q.data.length ≠ q.len) then
    rmaFail { q with op := if low ≠ 0 then 2 else q.op } 8 s
  else if 4096 < q.len then rmaFail q 9 s
  else match s.rmaRefusal write l q.addr q.len with
    | some x => rmaFail q x.2.2 (s.badAccess gateway x.1 x.2.1 write x.2.2)
    | none => match s.rmaSleeps write l with
      | some x => State.startWake { s with
          stalled := s.stalled ++ [⟨gateway, q.addr, 4, write, 0, q.addr⟩]
          port := { s.port with rma := s.port.rma ++ [q] } } x.1
      | none => rmaPerform q s


/-- Is the gateway busy with an earlier request (R199): one waits for a wake, a response of it for staging space (R188), or a write of it for a beam copy (R65)? -/
def State.rmaBusy (s : State) : Bool :=
  !s.port.rma.isEmpty || s.flowWaits 1 || (List.finRange 8).any fun h => s.bfm[h].stalled.any fun x => x.req == gateway

/-- RMA_REQUEST (R197): the message at the head of flow 1 is taken; while the gateway cannot start it, it stays where it is. -/
def execRmaRequest (m : Hdr) (id op low elem addr len : Nat) (data : List Nat) (s : State) : Host.Outcome State Fault Refusal :=
  .next (if s.rmaBusy then s
    else if s.rmaHeld (op != 0) addr len then (if inStore addr then s.access gateway.id false addr (min len 4096) false else s)
    else takeMsg m 4 (12 + data.length) (rmaRequest ⟨id, op, elem, addr, len, data⟩ low) s)

/-! ### Accesses that waited (R42, R65, R283, R292, R354) -/

/-- An access that waited is performed (R42, R354): a gateway request is taken up again, whole; an error response reaches its requester; what has to wait on stays in its
place in the order. -/
def performStalled (s : State) (x : Stalled) : State :=
  if x.size = 4 then
    match s.port.rma.find? (fun q => q.addr == x.addr) with
    | none => s
    | some q =>
      if s.rmaHeld (q.op != 0) q.addr q.len then { s with stalled := s.stalled ++ [x] }
      else rmaPerform q { s with port := { s.port with rma := dropRma x.addr s.port.rma } }
  else
    let y := if x.write then busWrite x.req x.addr x.size x.data s else busRead x.req false x.addr x.size s
    match y.1 with
    | .data v => { y.2 with resp := { err := false, data := v } }
    | .err => failStalled y.2 x
    | .stall => { y.2 with stalled := y.2.stalled ++ [x] }

/-- The waiting accesses of hamlet `h` are performed in arrival order. -/
def wakeReady (h : Fin 8) (s : State) : State :=
  let x := splitStalled h s
  x.1.foldl performStalled x.2

/-- The writes to the shadow exponents of hamlet `h` that waited for the copy (R65), then the accesses that an arbiter held, are performed once nothing holds them; none
while the domain sleeps. -/
def releaseWaiting (h : Fin 8) (s : State) : State :=
  let w := s.bfm[h].stalled
  let s := { s with bfm := s.bfm.set h { s.bfm[h] with stalled := [] } }
  let s := w.foldl (fun s x => regWrite x.req x.addr (BitVec.ofNat 32 x.data) s) s
  if s.stalled.isEmpty || s.hstate h < 2 || s.flag (Fld.PWR_HSTATE_BUSY.sub h) then s else wakeReady h s

/-- A write to `ARB_CTRL` that cleared FREEZE lets go on what it held (R292). -/
def thawed (a : Nat) (s : State) : State :=
  match hamletOf a with
  | some h => if localAddr a = Reg.ARB_CTRL ∧ ¬ s.flag (Fld.ARB_CTRL_FREEZE.h h) then drainFifo h (releaseVectors s.rtc.held (releaseWaiting h s)) else s
  | none => s

end Sys2Proof.Machine
end

