-- ==== Sys2Proof/Machine/EngMem.lean ====
section
/-!
DEFINITION. What an engine does with the machine (R245, R249 to R255, R258, R263 to R265, R271 to R273): translation, loads and stores, taking an exception, double
fault, the boundary after an instruction, and address post-modification.
-/

namespace Sys2Proof.Machine

/-! ### Translation (R271 to R273) -/

/-- The word of context slot `n` of engine `e`. -/
def State.slotWord (s : State) (e : Fin 9) (n : Nat) : Word :=
  if e.val < 8 then s.rd (hamletBase e + Reg.MMU_CTXn + 4 * n) else Config.reeveSlot n

/-- How a translation ends: a physical address, a page fault with INFO, no U, a bus error at a table address, or it waits. -/
inductive Xlat where
  | ok (pa : Nat)
  | page (info : Nat)
  | priv
  | walk (ta : Nat)
  | stall
  deriving DecidableEq, Repr

/-- Does a TLB entry match a virtual page under an ASID (R273)? -/
def TlbEnt.matches (t : TlbEnt) (vp asid : Nat) : Bool :=
  (if bitOf t.low 7 then t.vpage / 16 == vp / 16 else t.vpage == vp) && (bitOf t.low 5 || t.asid == asid)

/-- What an entry gives an access (R272): `kind` 0 is a fetch, 1 a load, 2 a store; `user` says task level. -/
def TlbEnt.access (t : TlbEnt) (kind : Nat) (user : Bool) (va : Nat) : Xlat :=
  if user && !bitOf t.low 4 then .priv
  else if !bitOf t.low (if kind = 0 then 3 else kind) then .page 1
  else .ok (if bitOf t.low 7 then t.ppage / 16 * 65536 + va % 65536 else t.ppage * 4096 + va % 4096)

/-- A read of a table word (R272), at the instruction port for a fetch (R288): one that draws an error response is captured with the untranslated address of the access
whose translation fails (R47). -/
def tableRead (r : Req) (fetch : Bool) (ta va : Nat) (s : State) : BusRes × State :=
  let x := busRead r fetch ta 2 s
  (x.1, if !s.flag Fld.SYS_BADACC_INFO_VALID && x.2.flag Fld.SYS_BADACC_INFO_VALID then x.2.wr Reg.SYS_BADACC_ADDR (BitVec.ofNat 32 va) else x.2)

/-- The two-level walk (R272): the entry, or how it fails. -/
def walk (r : Req) (fetch : Bool) (w : Word) (va : Nat) (s : State) : (Xlat ⊕ TlbEnt) × State :=
  let a1 := w.toNat / 4096 * 4096 + va / 2 ^ 22 % 1024 * 4
  match tableRead r fetch a1 va s with
  | (.err, s) => (.inl (.walk a1), s)
  | (.stall, s) => (.inl .stall, s)
  | (.data l1, s) =>
    if l1 % 4096 ≠ 1 then (.inl (.page 2), s)
    else
      let a2 := l1 / 4096 * 4096 + va / 4096 % 1024 * 4
      match tableRead r fetch a2 va s with
      | (.err, s) => (.inl (.walk a2), s)
      | (.stall, s) => (.inl .stall, s)
      | (.data l2, s) =>
        if l2 % 2 = 0 ∨ l2 / 256 % 16 ≠ 0 ∨ (bitOf l2 7 ∧ l2 / 4096 % 16 ≠ 0) then (.inl (.page 0), s)
        else (.inr ⟨va / 4096 % 2 ^ 20, l2 / 4096 % 2 ^ 20, l2 % 256, w.toNat % 256⟩, s)

/-- Translation through context slot `ctx` of engine `e` (R271 to R273): the TLB, then a walk, whose entry fills it. -/
def translate (r : Req) (e : Fin 9) (ctx kind : Nat) (user : Bool) (va : Nat) (s : State) : Xlat × State :=
  let w := s.slotWord e ctx
  match s.eng[e].tlb.find? (fun o => match o with | some t => t.matches (va / 4096) (w.toNat % 256) | none => false) with
  | some (some t) => (t.access kind user va, s)
  | _ =>
    if !w.getLsbD 8 then (.page 2, s)
    else match walk r (kind == 0) w va s with
      | (.inl x, s) => (x, s)
      | (.inr t, s) => (t.access kind user va, s.setEng e { s.eng[e] with tlb := (some t :: s.eng[e].tlb).take 64 })

/-- The address of an engine's access at a STATUS (R245, R270, R271): physical with TE = 0 and in machine mode. -/
def engXlat (e : Fin 9) (st : Status) (kind va : Nat) (s : State) : Xlat × State :=
  if !st.te || st.priv == 2 then (.ok va, s)
  else translate ⟨if e.val < 8 then e.val else 16, st.priv⟩ e s.eng[e].ctx.val kind (st.priv == 0) va s

/-! ### Accesses (R43, R249, R263, R264) -/

/-- How an engine's access ends: its data, an exception with INFO and BADVA, or it waits. -/
inductive Got where
  | ok (v : Nat)
  | exc (code info badva : Nat)
  | stall
  deriving DecidableEq, Repr

/-- The exception of a failed translation; `code` is that of its page fault. -/
def Xlat.got (code va : Nat) : Xlat → Got
  | .ok pa => .ok pa
  | .page i => .exc code i va
  | .priv => .exc 2 0 va
  | .walk ta => .exc 13 0 ta
  | .stall => .stall

/-- The requester that engine `e` is at a STATUS (R47). -/
def engReq (e : Fin 9) (st : Status) : Req := ⟨if e.val < 8 then e.val else 16, st.priv⟩

/-- Has a store of engine `e` been accepted and not yet been performed: at a sleeping hamlet (R42), or at a shadow exponent under copy (R65)? -/
def State.storesWait (s : State) (e : Fin 9) : Bool :=
  let own (x : Stalled) : Bool := x.write && x.req.id == (if e.val < 8 then e.val else 16)
  s.stalled.any own || (List.finRange 8).any fun h => s.bfm[h].stalled.any own

/-- Is an address a lock (R301)? -/
def isLock (a : Nat) : Bool := (hamletOf a).isSome && decide (Reg.LCK_n ≤ localAddr a) && decide (localAddr a < Reg.LCK_n + 128)

/-- What holds back a data access of engine `e` at a physical address: an earlier store of its own that is not performed yet comes first (R296, R299); a lock access acts as
FENCE.RW before it, so a store error that has arrived is taken there, code 9 (R264, R303). -/
def engHold (e : Fin 9) (pa : Nat) (s : State) : Option Got :=
  if s.storesWait e then some .stall
  else if isLock pa && !s.eng[e].bad.isEmpty then some (.exc 9 0 0) else none

/-- A read of 2^size bytes by engine `e`: alignment, translation, the access. `kind` 0 is a fetch (codes 4 and 7), 1 a load (5 and 8). -/
def engRead (e : Fin 9) (st : Status) (kind va size : Nat) (s : State) : Got × State :=
  if va % 2 ^ size ≠ 0 then (.exc 3 0 va, s)
  else
    let x := engXlat e st kind va s
    match x.1.got (if kind = 0 then 4 else 5) va with
    | .ok pa => match if kind = 0 then none else engHold e pa x.2 with
      | some g => (g, x.2)
      | none => match busRead (engReq e st) (kind == 0) pa size x.2 with
        | (.data v, s) => (.ok v, s)
        | (.err, s) => (.exc (if kind = 0 then 7 else 8) 0 va, s)
        | (.stall, s) => (.stall, s)
    | g => (g, x.2)

/-- A posted store (R264): an error response is kept for code 9; a store to a sleeping hamlet waits there while the engine goes on (R42, R354); one that the arbiter holds waits with
its engine (R65, R283, R292). -/
def postStore (e : Fin 9) (st : Status) (va pa size v : Nat) (s : State) : Got × State :=
  match s.check (engReq e st) pa size true with
  | .stall h => (.ok 0, State.startWake { s with stalled := s.stalled ++ [⟨engReq e st, pa, size, true, v, va⟩] } h)
  | _ => match busWrite (engReq e st) pa size v s with
    | (.data _, s) => (.ok 0, thawed pa s)
    | (.err, s) => (.ok 0, s.setEng e { s.eng[e] with bad := s.eng[e].bad ++ [va] })
    | (.stall, s) => (.stall, s)

/-- A store of 2^size bytes by engine `e`. -/
def engStore (e : Fin 9) (st : Status) (va size v : Nat) (s : State) : Got × State :=
  if va % 2 ^ size ≠ 0 then (.exc 3 0 va, s)
  else
    let x := engXlat e st 2 va s
    match x.1.got 6 va with
    | .ok pa => match engHold e pa x.2 with
      | some g => (g, x.2)
      | none => postStore e st va pa size v x.2
    | g => (g, x.2)

/-! ### Exceptions (R263 to R265) -/

/-- A branch whose slot faults has had no effect (R263): its link register and, for a RET, its status are as before. -/
def Eng.undoSlot (x : Eng) : Eng :=
  match x.slot with
  | none => x
  | some b =>
    let x := match b.link with | some l => x.setG l.1 l.2 | none => x
    let x := match b.undo with | some st => x.setStatus st | none => x
    { x with slot := none }

/-- A double fault (R265, R302): the engine halts at once with STATE 3 and `ENG_PC`, 0x434 or 0x471 is raised, its locks are freed broken; the Reeve
restarts by itself if REEVERST is 1 (R471, R476). -/
def doubleFault (e : Fin 9) (pc : Nat) (s : State) : State :=
  let s := s.haltEng e 3 pc
  if h : e.val < 8 then (s.raise 0x434 e.val pc).breakLocks ⟨e.val, h⟩ [1, 2, 3]
  else
    let s := (s.raise 0x471 0xFF pc).breakAllLocks [4]
    if s.flag Fld.FLT_CFG_REEVERST then reeveRestart s else s

/-- CAUSE of an exception (R270). -/
def causeWord (imprecise ds : Bool) (code info : Nat) : Word :=
  BitVec.ofNat 32 (b2n imprecise * 2 ^ 31 + b2n ds * 2 ^ 30 + code % 32 * 65536 + info % 65536)

/-- An exception enters its handler at base level (R263): writes drain, the PC, the privilege and the cause are saved, EXC is set, and the handler is fetched from
VBASE, or for code 12 and in machine mode from VBASE + 0x300 with EPCM and SSTATM as save registers. -/
def Eng.enterExc (x : Eng) (code pc : Nat) (cause : Word) (badva : Option Nat) : Eng :=
  let st := x.status
  let x := x.drain
  let x := { x with cause := cause, badva := (match badva with | some a => BitVec.ofNat 32 a | none => x.badva), exc := true, wait := none }
  if code = 12 ∨ st.priv = 2 then
    { x with epcm := BitVec.ofNat 32 pc, sstatm := st.word, priv := 2, mexc := true, pc := (x.vbase.toNat + 0x300) % 2 ^ 32 }
  else { x with epc := x.epc.set 0 (BitVec.ofNat 32 pc), ppriv := st.priv, priv := 1, pc := x.vbase.toNat }

/-- An exception of engine `e` is taken (R263, R265): `pc` is the PC it saves outside a delay slot. -/
def takeExc (e : Fin 9) (code info : Nat) (badva : Option Nat) (pc : Nat) (imprecise : Bool) (s : State) : State :=
  let x := s.eng[e]
  let ds := x.slot.isSome
  let pc := match x.slot with | some b => b.addr | none => pc
  let x := x.undoSlot
  let s := s.setEng e x
  if x.exc || decide (0 < x.lvl.val) || x.mexc then doubleFault e pc s
  else s.setEng e (x.enterExc code pc (causeWord imprecise ds code info) badva)

/-- An illegal instruction (R248). -/
def illegal (e : Fin 9) (s : State) : State := takeExc e 1 0 none s.eng[e].pc false s

/-- Code 9 (R264): the oldest store error is taken at the present instruction, imprecise. -/
def takeBad (e : Fin 9) (b : Nat) (rest : List Nat) (s : State) : State :=
  takeExc e 9 0 (some b) s.eng[e].pc true (s.setEng e { s.eng[e] with bad := rest })

/-- The exception of an access at the present instruction; code 9 is that of an earlier store (R303). -/
def accessExc (e : Fin 9) (code info badva : Nat) (s : State) : State :=
  match s.eng[e].bad with
  | b :: t => if code = 9 then takeBad e b t s else takeExc e code info (some badva) s.eng[e].pc false s
  | [] => takeExc e code info (some badva) s.eng[e].pc false s

/-! ### The instruction boundary -/

/-- After an instruction: a jump target that is not aligned raises code 3 with the target saved (R263); a pending HALT acts at a quiet boundary (R275). -/
def settle (e : Fin 9) (s : State) : State :=
  let s := if s.eng[e].pc % 4 ≠ 0 then takeExc e 3 0 (some s.eng[e].pc) s.eng[e].pc false s else s
  if h : e.val < 8 then haltIfQuiet ⟨e.val, h⟩ s else s

/-- An instruction retires with its writes; `act` is what it changes at once. -/
def retire (e : Fin 9) (ws : List (Nat × EngWrite)) (act : Eng → Eng) (s : State) : State :=
  s.setEng e (((act s.eng[e]).tick ws).step1)

/-- The status under which the next instruction is fetched: in the slot of a RET that before it. -/
def Eng.fetchStatus (x : Eng) : Status :=
  match x.slot with
  | some b => b.undo.getD x.status
  | none => x.status

/-- The fetch of the instruction at the PC (R263: codes 3, 4, 7, and 2 or 13 of its translation). -/
def engFetch (e : Fin 9) (s : State) : Got × State := engRead e s.eng[e].fetchStatus 0 s.eng[e].pc 2 s

/-- Does engine `e` execute: running and not waiting? -/
def Eng.runs (x : Eng) : Bool := x.state == 1 && x.wait.isNone

/-- Engine `e` executes the instruction at its PC: fetch, effect, boundary. A halted or waiting engine executes nothing. A fetched word that spells no instruction is illegal, the
word 0 among them (R248); of one that does, the command says which it is and with which operands (log 137). -/
def engStep (e : Fin 9) (act : State → State) (s : State) : State :=
  if !s.eng[e].runs then s
  else match engFetch e s with
    | (.ok w, s) => settle e (if wimakoWord e w then act s else illegal e s)
    | (.exc c i b, s) => settle e (accessExc e c i b s)
    | (.stall, s) => s

/-- An instruction marked K (R245): code 2 at task level. -/
def kernelOnly (e : Fin 9) (act : State → State) (s : State) : State :=
  if s.eng[e].priv = 0 then takeExc e 2 0 none s.eng[e].pc false s else act s

/-! ### Post-modification (R249 to R251) -/

/-- The smallest k with 2^k at least n, for lengths below 2^24. -/
def ceilLog2 (n : Nat) : Nat := ((List.range 25).find? fun k => decide (n ≤ 2 ^ k)).getD 24

/-- An instruction updates a_n at once: a write to a_n of an earlier instruction that lands in the same moment is governed by it (R253). -/
def Eng.governA (x : Eng) (n : Fin 8) : Eng :=
  { x with writes := x.writes.filter fun w => !(w.1 == 0 && (match w.2 with | .x sel m _ => sel == 0 && m == n | _ => false)) }

/-- The circular post-modify of a_n (R250, R251): base and offset by the length used last, the new length in the modulo, TRUNCn where the offset lies beyond a
length that has been written since. -/
def Eng.circMod (x : Eng) (n : Fin 8) : Eng :=
  let l := (x.getL n).toNat
  let old := (x.getLin n).toNat
  let k := ceilLog2 (if old = 0 then l else old)
  let a := (x.getA n).toNat
  let o := a % 2 ^ k
  let off := ((o : Int) + (x.getM n).toInt) % (l : Int)
  let x := if x.getLw n ∧ l ≤ o then x.setFlg (flgPut x.flg (8 + n.val) true) else x
  (x.setA n (BitVec.ofNat 32 (a - o + off.toNat))).setLin n (BitVec.ofNat 24 l)

/-- A post-modify of a_n: circular where asked and l_n is not 0 (R249). Either way the length in l_n is the one used last from then on (R251: DEDUCED). -/
def Eng.postMod (x : Eng) (n : Fin 8) (circ : Bool) : Eng :=
  ((if circ && x.getL n != 0 then x.circMod n else (x.setA n (x.getA n + x.getM n)).setLin n (x.getL n)).setLw n false).governA n

end Sys2Proof.Machine
end

