-- ==== Sys2Proof/Machine/Alu.lean ====
section
/-!
DEFINITION. The integer instructions of the engines (R256): one meaning per instruction over the shared operations `aluOp` and `aluKeep`.
-/

namespace Sys2Proof.Machine

/-- An instruction that writes `rd` at once and sets FLG. `f` gives the result and the new FLG from the engine as it stands. -/
def aluOp (e : Fin 9) (rd : Fin 32) (f : Eng → Word × BitVec 16) (s : State) : State :=
  engStep e (fun s => retire e [(0, .g rd (f s.eng[e]).1)] (fun x => x.setFlg (f s.eng[e]).2) s) s

/-- A result marked Z N. -/
def aluZN (e : Fin 9) (rd : Fin 32) (f : Eng → Word) (s : State) : State :=
  aluOp e rd (fun x => (f x, flgZN x.flg (f x))) s

/-- A result marked Z N C V: a word, a carry, an overflow. -/
def aluZNCV (e : Fin 9) (rd : Fin 32) (f : Eng → Word × Bool × Bool) (s : State) : State :=
  aluOp e rd (fun x => ((f x).1, flgZNCV x.flg (f x).1 (f x).2.1 (f x).2.2)) s

/-- A result that sets no flag. -/
def aluKeep (e : Fin 9) (rd : Fin 32) (f : Eng → Word) (s : State) : State := aluOp e rd (fun x => (f x, x.flg)) s

/-- 1 or 0 as a word. -/
def boolWord (b : Bool) : Word := BitVec.ofNat 32 (b2n b)

/-- The carry flag. -/
def Eng.carry (x : Eng) : Bool := x.flg.getLsbD 2

/-- The shift count in bits 4:0 of a register. -/
def Eng.count (x : Eng) (r : Fin 32) : Nat := (x.getG r).toNat % 32

/-- The saturating absolute value (R256). -/
def absSat (a : Word) : Word := if a = 0x80000000#32 then 0x7FFFFFFF#32 else if a.msb then -a else a

/-- Leading zeros of a word. -/
def clz (a : Word) : Nat := ((List.range 32).find? fun k => a.getLsbD (31 - k)).getD 32

/-- The high word of a product. -/
def mulHigh (p : Int) : Word := BitVec.ofInt 32 (p / 2 ^ 32)

/-- ADD. -/
def execAdd (e : Fin 9) (rd ra rb : Fin 32) (s : State) : Host.Outcome State Fault Refusal :=
  .next (aluZNCV e rd (fun x => addc (x.getG ra) (x.getG rb) false) s)

/-- SUB. -/
def execSub (e : Fin 9) (rd ra rb : Fin 32) (s : State) : Host.Outcome State Fault Refusal :=
  .next (aluZNCV e rd (fun x => subc (x.getG ra) (x.getG rb) true) s)

/-- ADDC: ra + rb + C. -/
def execAddc (e : Fin 9) (rd ra rb : Fin 32) (s : State) : Host.Outcome State Fault Refusal :=
  .next (aluZNCV e rd (fun x => addc (x.getG ra) (x.getG rb) x.carry) s)

/-- The difference of SUBC (R256: rd := ra - rb - C) with its carry and overflow. -/
def subcFlag (a b : Word) (c : Bool) : Word × Bool × Bool :=
  let w := a - b - boolWord c
  (w, decide (b.toNat + b2n c ≤ a.toNat), decide (w.toInt ≠ a.toInt - b.toInt - b2n c))

/-- SUBC: ra - rb - C, as the table writes it. -/
def execSubc (e : Fin 9) (rd ra rb : Fin 32) (s : State) : Host.Outcome State Fault Refusal :=
  .next (aluZNCV e rd (fun x => subcFlag (x.getG ra) (x.getG rb) x.carry) s)

/-- AND. -/
def execAnd (e : Fin 9) (rd ra rb : Fin 32) (s : State) : Host.Outcome State Fault Refusal :=
  .next (aluZN e rd (fun x => x.getG ra &&& x.getG rb) s)

/-- OR. -/
def execOr (e : Fin 9) (rd ra rb : Fin 32) (s : State) : Host.Outcome State Fault Refusal :=
  .next (aluZN e rd (fun x => x.getG ra ||| x.getG rb) s)

/-- XOR. -/
def execXor (e : Fin 9) (rd ra rb : Fin 32) (s : State) : Host.Outcome State Fault Refusal :=
  .next (aluZN e rd (fun x => x.getG ra ^^^ x.getG rb) s)

/-- SLL. -/
def execSll (e : Fin 9) (rd ra rb : Fin 32) (s : State) : Host.Outcome State Fault Refusal :=
  .next (aluZN e rd (fun x => x.getG ra <<< x.count rb) s)

/-- SRL. -/
def execSrl (e : Fin 9) (rd ra rb : Fin 32) (s : State) : Host.Outcome State Fault Refusal :=
  .next (aluZN e rd (fun x => x.getG ra >>> x.count rb) s)

/-- SRA. -/
def execSra (e : Fin 9) (rd ra rb : Fin 32) (s : State) : Host.Outcome State Fault Refusal :=
  .next (aluZN e rd (fun x => (x.getG ra).sshiftRight (x.count rb)) s)

/-- SLLI: the rb field is the count. -/
def execSlli (e : Fin 9) (rd ra rb : Fin 32) (s : State) : Host.Outcome State Fault Refusal :=
  .next (aluZN e rd (fun x => x.getG ra <<< rb.val) s)

/-- SRLI. -/
def execSrli (e : Fin 9) (rd ra rb : Fin 32) (s : State) : Host.Outcome State Fault Refusal :=
  .next (aluZN e rd (fun x => x.getG ra >>> rb.val) s)

/-- SRAI. -/
def execSrai (e : Fin 9) (rd ra rb : Fin 32) (s : State) : Host.Outcome State Fault Refusal :=
  .next (aluZN e rd (fun x => (x.getG ra).sshiftRight rb.val) s)

/-- SLT. -/
def execSlt (e : Fin 9) (rd ra rb : Fin 32) (s : State) : Host.Outcome State Fault Refusal :=
  .next (aluKeep e rd (fun x => boolWord ((x.getG ra).slt (x.getG rb))) s)

/-- SLTU. -/
def execSltu (e : Fin 9) (rd ra rb : Fin 32) (s : State) : Host.Outcome State Fault Refusal :=
  .next (aluKeep e rd (fun x => boolWord ((x.getG ra).ult (x.getG rb))) s)

/-- MUL: the low 32 bits. -/
def execMul (e : Fin 9) (rd ra rb : Fin 32) (s : State) : Host.Outcome State Fault Refusal :=
  .next (aluZN e rd (fun x => x.getG ra * x.getG rb) s)

/-- MULH: the signed high 32 bits. -/
def execMulh (e : Fin 9) (rd ra rb : Fin 32) (s : State) : Host.Outcome State Fault Refusal :=
  .next (aluZN e rd (fun x => mulHigh ((x.getG ra).toInt * (x.getG rb).toInt)) s)

/-- MULHU: the unsigned high 32 bits. -/
def execMulhu (e : Fin 9) (rd ra rb : Fin 32) (s : State) : Host.Outcome State Fault Refusal :=
  .next (aluZN e rd (fun x => mulHigh (((x.getG ra).toNat * (x.getG rb).toNat : Nat) : Int)) s)

/-- MIN: signed. -/
def execMin (e : Fin 9) (rd ra rb : Fin 32) (s : State) : Host.Outcome State Fault Refusal :=
  .next (aluKeep e rd (fun x => if (x.getG rb).slt (x.getG ra) then x.getG rb else x.getG ra) s)

/-- MAX: signed. -/
def execMax (e : Fin 9) (rd ra rb : Fin 32) (s : State) : Host.Outcome State Fault Refusal :=
  .next (aluKeep e rd (fun x => if (x.getG ra).slt (x.getG rb) then x.getG rb else x.getG ra) s)

/-- ABS. -/
def execAbs (e : Fin 9) (rd ra : Fin 32) (s : State) : Host.Outcome State Fault Refusal :=
  .next (aluZN e rd (fun x => absSat (x.getG ra)) s)

/-- CLZ. -/
def execClz (e : Fin 9) (rd ra : Fin 32) (s : State) : Host.Outcome State Fault Refusal :=
  .next (aluZN e rd (fun x => BitVec.ofNat 32 (clz (x.getG ra))) s)

/-- ADDI: the immediate sign-extended (R247). -/
def execAddi (e : Fin 9) (rd ra : Fin 32) (imm : BitVec 16) (s : State) : Host.Outcome State Fault Refusal :=
  .next (aluZNCV e rd (fun x => addc (x.getG ra) (imm.signExtend 32) false) s)

/-- SLTI. -/
def execSlti (e : Fin 9) (rd ra : Fin 32) (imm : BitVec 16) (s : State) : Host.Outcome State Fault Refusal :=
  .next (aluKeep e rd (fun x => boolWord ((x.getG ra).slt (imm.signExtend 32))) s)

/-- ANDI: the immediate zero-extended. -/
def execAndi (e : Fin 9) (rd ra : Fin 32) (imm : BitVec 16) (s : State) : Host.Outcome State Fault Refusal :=
  .next (aluZN e rd (fun x => x.getG ra &&& imm.setWidth 32) s)

/-- ORI. -/
def execOri (e : Fin 9) (rd ra : Fin 32) (imm : BitVec 16) (s : State) : Host.Outcome State Fault Refusal :=
  .next (aluZN e rd (fun x => x.getG ra ||| imm.setWidth 32) s)

/-- XORI. -/
def execXori (e : Fin 9) (rd ra : Fin 32) (imm : BitVec 16) (s : State) : Host.Outcome State Fault Refusal :=
  .next (aluZN e rd (fun x => x.getG ra ^^^ imm.setWidth 32) s)

/-- LUI: illegal unless its ra field is 0 (R248, R256). -/
def execLui (e : Fin 9) (rd ra : Fin 32) (imm : BitVec 16) (s : State) : Host.Outcome State Fault Refusal :=
  .next (if ra.val ≠ 0 then engStep e (illegal e) s else aluKeep e rd (fun _ => imm.setWidth 32 <<< 16) s)

end Sys2Proof.Machine
end

