-- ==== Sys2Proof/Machine/Branch.lean ====
section
/-!
DEFINITION. Branches and jumps of the engines (R254, R256, R263): each is followed by one delay slot.
-/

namespace Sys2Proof.Machine

/-- A branch or jump (R254): illegal in a delay slot (R248); else the link register takes the branch's address + 8, the slot comes next, and then the target. The
register's old value is kept for an exception in the slot (R263). -/
def branchTo (e : Fin 9) (target : Nat) (link : Option (Fin 32)) (s : State) : State :=
  let x := s.eng[e]
  if x.slot.isSome then illegal e s
  else
    let y := x.tick []
    let z := match link with | some rd => y.setG rd (BitVec.ofNat 32 (x.pc + 8)) | none => y
    s.setEng e { z with
      slot := some { addr := x.pc, target := target % 2 ^ 32, link := link.map fun rd => (rd, y.getG rd) }
      pc := (x.pc + 4) % 2 ^ 32 }

/-- The target of an offset (R247): the branch's address + 4 + 4 * off. -/
def relTarget (pc : Nat) (off : Int) : Nat := (((pc : Int) + 4 + 4 * off) % 2 ^ 32).toNat

/-- A conditional branch: not taken it goes on after its slot. -/
def condBranch (e : Fin 9) (off : BitVec 16) (c : Eng → Bool) (s : State) : State :=
  engStep e (fun s => branchTo e (relTarget s.eng[e].pc (if c s.eng[e] then off.toInt else 1)) none s) s

/-- JR. -/
def execJr (e : Fin 9) (ra : Fin 32) (s : State) : Host.Outcome State Fault Refusal :=
  .next (engStep e (fun s => branchTo e (s.eng[e].getG ra).toNat none s) s)

/-- JALR: illegal where ra equals rd (R248). -/
def execJalr (e : Fin 9) (rd ra : Fin 32) (s : State) : Host.Outcome State Fault Refusal :=
  .next (engStep e (fun s => if rd = ra then illegal e s else branchTo e (s.eng[e].getG ra).toNat (some rd) s) s)

/-- BEQ. -/
def execBeq (e : Fin 9) (ra rb : Fin 32) (off : BitVec 16) (s : State) : Host.Outcome State Fault Refusal :=
  .next (condBranch e off (fun x => x.getG ra == x.getG rb) s)

/-- BNE. -/
def execBne (e : Fin 9) (ra rb : Fin 32) (off : BitVec 16) (s : State) : Host.Outcome State Fault Refusal :=
  .next (condBranch e off (fun x => x.getG ra != x.getG rb) s)

/-- BLT. -/
def execBlt (e : Fin 9) (ra rb : Fin 32) (off : BitVec 16) (s : State) : Host.Outcome State Fault Refusal :=
  .next (condBranch e off (fun x => (x.getG ra).slt (x.getG rb)) s)

/-- BGE. -/
def execBge (e : Fin 9) (ra rb : Fin 32) (off : BitVec 16) (s : State) : Host.Outcome State Fault Refusal :=
  .next (condBranch e off (fun x => !(x.getG ra).slt (x.getG rb)) s)

/-- BLTU. -/
def execBltu (e : Fin 9) (ra rb : Fin 32) (off : BitVec 16) (s : State) : Host.Outcome State Fault Refusal :=
  .next (condBranch e off (fun x => (x.getG ra).ult (x.getG rb)) s)

/-- BGEU. -/
def execBgeu (e : Fin 9) (ra rb : Fin 32) (off : BitVec 16) (s : State) : Host.Outcome State Fault Refusal :=
  .next (condBranch e off (fun x => !(x.getG ra).ult (x.getG rb)) s)

/-- J. -/
def execJ (e : Fin 9) (off : BitVec 26) (s : State) : Host.Outcome State Fault Refusal :=
  .next (engStep e (fun s => branchTo e (relTarget s.eng[e].pc off.toInt) none s) s)

/-- JAL: the link register is g31. -/
def execJal (e : Fin 9) (off : BitVec 26) (s : State) : Host.Outcome State Fault Refusal :=
  .next (engStep e (fun s => branchTo e (relTarget s.eng[e].pc off.toInt) (some 31) s) s)

end Sys2Proof.Machine
end

