-- ==== Sys2Proof/Machine/Complex.lean ====
section
/-!
DEFINITION. Complex arithmetic of the engines (R243, R256, R257) and the streaming instructions (R258, R259).
-/

namespace Sys2Proof.Machine

/-! ### Products and accumulators (R243, R257) -/

/-- The two halves of a complex word (R243): I in bits 15:0, Q in bits 31:16. -/
def cword (w : Word) : Int × Int := (signed 16 w.toNat, signed 16 (w.toNat / 65536))

/-- The conjugate. -/
def conj (a : Int × Int) : Int × Int := (a.1, -a.2)

/-- A sum in an accumulator: each half saturates at 40 bits; the flag says that one did (R243). -/
def Acc.addSat (a : Acc) (p : Int × Int) : Acc × Bool :=
  let re := a.re + p.1
  let im := a.im + p.2
  (⟨clampS 40 re, clampS 40 im⟩, clampS 40 re != re || clampS 40 im != im)

/-- An accumulating instruction (R252: delay 3): the product is added to the accumulator as it reads now, AOV is set by saturation. -/
def accOp (e : Fin 9) (acc : Fin 4) (p : Eng → Int × Int) (s : State) : State :=
  engStep e (fun s =>
    let r := (s.eng[e].getAcc acc).addSat (p s.eng[e])
    retire e [(3, .acc acc r.1)] (fun x => x.setFlg (flgStick x.flg 5 r.2)) s) s

/-- CMAC. -/
def execCmac (e : Fin 9) (acc : Fin 4) (ra rb : Fin 32) (s : State) : Host.Outcome State Fault Refusal :=
  .next (accOp e acc (fun x => cmul (cword (x.getG ra)) (cword (x.getG rb))) s)

/-- CMACC: with conj(rb). -/
def execCmacc (e : Fin 9) (acc : Fin 4) (ra rb : Fin 32) (s : State) : Host.Outcome State Fault Refusal :=
  .next (accOp e acc (fun x => cmul (cword (x.getG ra)) (conj (cword (x.getG rb)))) s)

/-- DMAC: two real products. -/
def execDmac (e : Fin 9) (acc : Fin 4) (ra rb : Fin 32) (s : State) : Host.Outcome State Fault Refusal :=
  .next (accOp e acc (fun x => ((cword (x.getG ra)).1 * (cword (x.getG rb)).1, (cword (x.getG ra)).2 * (cword (x.getG rb)).2)) s)

/-- CMUL: the accumulator takes the product. -/
def execCmul (e : Fin 9) (acc : Fin 4) (ra rb : Fin 32) (s : State) : Host.Outcome State Fault Refusal :=
  .next (engStep e (fun s =>
    let p := cmul (cword (s.eng[e].getG ra)) (cword (s.eng[e].getG rb))
    retire e [(3, .acc acc ⟨p.1, p.2⟩)] id s) s)

/-- CLRACC. -/
def execClracc (e : Fin 9) (acc : Fin 4) (s : State) : Host.Outcome State Fault Refusal :=
  .next (engStep e (retire e [(3, .acc acc ⟨0, 0⟩)] id) s)

/-- The complex word that EXT extracts (R257): each half shifted, rounded convergently and saturated to 16 bits; the flag says that one saturated. -/
def Acc.ext (a : Acc) (sh : Nat) : Word × Bool :=
  let i := roundSat 16 a.re (2 ^ sh)
  let q := roundSat 16 a.im (2 ^ sh)
  (BitVec.ofNat 32 (unsigned 16 i.1 + unsigned 16 q.1 * 65536), i.2 || q.2)

/-- The real half that EXTR extracts, saturated to 32 bits (R257). -/
def Acc.extr (a : Acc) (sh : Nat) : Word × Bool :=
  let i := roundSat 32 a.re (2 ^ sh)
  (BitVec.ofInt 32 i.1, i.2)

/-- An extraction: rd at once, SAT sticky. -/
def extOp (e : Fin 9) (rd : Fin 32) (f : Eng → Word × Bool) (s : State) : State :=
  engStep e (fun s => retire e [(0, .g rd (f s.eng[e]).1)] (fun x => x.setFlg (flgStick x.flg 4 (f s.eng[e]).2)) s) s

/-- EXT. -/
def execExt (e : Fin 9) (acc : Fin 4) (sh rd : Fin 32) (s : State) : Host.Outcome State Fault Refusal :=
  .next (extOp e rd (fun x => (x.getAcc acc).ext sh.val) s)

/-- EXTR. -/
def execExtr (e : Fin 9) (acc : Fin 4) (sh rd : Fin 32) (s : State) : Host.Outcome State Fault Refusal :=
  .next (extOp e rd (fun x => (x.getAcc acc).extr sh.val) s)

/-- MFACC (R257): parts 3 to 31 are illegal. -/
def execMfacc (e : Fin 9) (acc : Fin 4) (part rd : Fin 32) (s : State) : Host.Outcome State Fault Refusal :=
  .next (engStep e (fun s => if 2 < part.val then illegal e s
    else retire e [(2, .g rd ((s.eng[e].getAcc acc).part part.val))] id s) s)

/-- MTACC (R257). -/
def execMtacc (e : Fin 9) (acc : Fin 4) (part ra : Fin 32) (s : State) : Host.Outcome State Fault Refusal :=
  .next (engStep e (fun s => if 2 < part.val then illegal e s
    else retire e [(3, .part acc part.val (s.eng[e].getG ra))] id s) s)

/-! ### Streaming (R258, R259) -/

/-- How a run of elements ends: all done, an exception, or an access that has to wait. -/
inductive RunEnd where
  | done
  | exc (code info badva : Nat)
  | stall
  deriving DecidableEq, Repr

/-- The word of one stream: read at a_n, then a_n is post-modified, circularly when l_n is not 0 (R258). The engine as it was stands where the read fails. -/
def streamRead (e : Fin 9) (n : Fin 8) (s : State) : Got × State :=
  match engRead e s.eng[e].status 1 (s.eng[e].getA n).toNat 2 s with
  | (.ok v, s) => (.ok v, s.setEng e (s.eng[e].postMod n true))
  | x => x

/-- One element: x, and y where there is one. An element that fails has no effect on the address registers. -/
def streamElem (e : Fin 9) (ax : Fin 8) (ay : Option (Fin 8)) (s : State) : Got × Nat × State :=
  let x0 := s.eng[e]
  match streamRead e ax s, ay with
  | (.ok x, s), none => (.ok x, 0, s)
  | (.ok x, s), some n =>
    match streamRead e n s with
    | (.ok y, s) => (.ok x, y, s)
    | (g, s) => (g, 0, s.setEng e { s.eng[e] with a := x0.a, bank := x0.bank, lin := x0.lin, lw := x0.lw, writes := x0.writes })
  | (g, s), _ => (g, 0, s)

/-- Runs elements: `f` takes the words of element `j` into what the instruction gathers. -/
def streamRun {α : Type} (e : Fin 9) (ax : Fin 8) (ay : Option (Fin 8)) (f : Nat → Nat → Nat → α → α) :
    Nat → Nat → α → State → Nat × α × RunEnd × State
  | 0, j, acc, s => (j, acc, .done, s)
  | n + 1, j, acc, s =>
    match streamElem e ax ay s with
    | (.ok x, y, s) => streamRun e ax ay f n (j + 1) (f j x y acc) s
    | (.exc c i b, _, s) => (j, acc, .exc c i b, s)
    | (.stall, _, s) => (j, acc, .stall, s)

/-- The resume register of the current level. -/
def Eng.rsmNow (x : Eng) : Word := x.rsm[x.lvl]

/-- The resume register of the current level set. -/
def Eng.setRsm (x : Eng) (w : Word) : Eng := { x with rsm := x.rsm.set x.lvl w }

/-- TAG of an instruction at an address (R258). -/
def rsmTag (pc : Nat) : Nat := pc / 4 % 128

/-- The element with which a streaming instruction starts (R258): DONE where the resume register is ACTIVE with its TAG, else 0. -/
def Eng.streamFrom (x : Eng) : Nat :=
  let w := x.rsmNow.toNat
  if 2 ^ 31 ≤ w ∧ w / 2 ^ 24 % 128 = rsmTag x.pc then w % 2 ^ 24 else 0

/-- The count (R258). -/
def Eng.streamCount (x : Eng) (rc : Fin 32) : Nat := min 16777215 (x.getG rc).toNat

/-- May a streaming instruction end at an element boundary: an interrupt or HALT arrives there (R267, R275), not between a branch and its slot? -/
def State.mayCut (s : State) (e : Fin 9) : Bool :=
  s.eng[e].slot.isNone && (s.irqReady e 1 || s.irqReady e 2 || (decide (e.val < 8) && s.flag (Fld.ENG_CTRL_HALT.h e.val)))

/-- The progress that an interrupted streaming instruction leaves (R258, R274): outstanding writes drain, what it gathered stands, DONE = j. -/
def Eng.leaveStream (x : Eng) (j : Nat) (keep : Eng → Eng) : Eng :=
  (keep x.drain).setRsm (BitVec.ofNat 32 (2 ^ 31 + rsmTag x.pc * 2 ^ 24 + j % 2 ^ 24))

/-- A streaming instruction (R258): elements up to the count, or up to `cut` of them where an interrupt or HALT then arrives. `none_` gives
the writes of a count of 0, `fin` those of the complete instruction, `keep` what stands after a part of it. -/
def streamOp {α : Type} (e : Fin 9) (ax : Fin 8) (ay : Option (Fin 8)) (rc : Fin 32) (cut : Nat) (init : Eng → Nat → α)
    (f : Nat → Nat → Nat → α → α) (none_ : List (Nat × EngWrite)) (fin : α → List (Nat × EngWrite)) (flags : α → Eng → Eng)
    (keep : α → Eng → Eng) (s : State) : State :=
  let x := s.eng[e]
  let count := x.streamCount rc
  let from_ := x.streamFrom
  let want := count - from_
  let n := if s.mayCut e then min cut want else want
  match streamRun e ax ay f n from_ (init x from_) s with
  | (j, a, .done, s1) =>
    if count ≤ j then
      retire e (if from_ < count then fin a else if count = 0 then none_ else []) (fun x => (flags a x).setRsm 0#32) s1
    else s1.setEng e (flags a (s1.eng[e].leaveStream j (if j = from_ then id else keep a)))
  | (j, a, .exc c i b, s1) => accessExc e c i b (s1.setEng e (flags a (s1.eng[e].leaveStream j (if j = from_ then id else keep a))))
  | (_, _, .stall, s1) => s1.setEng e { s1.eng[e] with a := x.a, bank := x.bank, lin := x.lin, lw := x.lw, writes := x.writes }

/-- The streaming multiply-accumulate: the accumulator and whether it saturated. -/
def smacOp (e : Fin 9) (acc : Fin 4) (ax ay : Fin 8) (rc : Fin 32) (cj : Bool) (cut : Nat) (s : State) : State :=
  streamOp e ax (some ay) rc cut (fun x _ => ((x.getAcc acc, false) : Acc × Bool))
    (fun _ x y a =>
      let r := a.1.addSat (cmul (cword (BitVec.ofNat 32 x)) ((if cj then conj else id) (cword (BitVec.ofNat 32 y))))
      (r.1, a.2 || r.2))
    [] (fun a => [(3, .acc acc a.1)])
    (fun a x => x.setFlg (flgStick x.flg 5 a.2))
    (fun a x => x.setAcc acc a.1) s

/-- SMAC. -/
def execSmac (e : Fin 9) (acc : Fin 4) (ax ay : Fin 8) (rc : Fin 32) (cut : Nat) (s : State) : Host.Outcome State Fault Refusal :=
  .next (engStep e (smacOp e acc ax ay rc false cut) s)

/-- SMACC: with conj(y). -/
def execSmacc (e : Fin 9) (acc : Fin 4) (ax ay : Fin 8) (rc : Fin 32) (cut : Nat) (s : State) : Host.Outcome State Fault Refusal :=
  .next (engStep e (smacOp e acc ax ay rc true cut) s)

/-- The value of an element in a search (R259): its power in MODE 0, a signed word in MODE 1. -/
def searchVal (mode x : Nat) : Int :=
  if mode = 0 then
    let c := cword (BitVec.ofNat 32 x)
    c.1 * c.1 + c.2 * c.2
  else signed 32 x

/-- A search as it stands: the value of the pair's first word as MODE reads it, the index. -/
def searchOp (e : Fin 9) (rd : Fin 32) (ax ay : Fin 8) (rc : Fin 32) (mode : Fin 16) (better : Int → Int → Bool) (cut : Nat) (s : State) : State :=
  if rd.val % 2 = 1 ∨ ay.val ≠ 0 ∨ 1 < mode.val then illegal e s
  else
    let rd1 : Fin 32 := Fin.ofNat 32 (rd.val + 1)
    let asWord (v : Int) : Word := BitVec.ofInt 32 v
    streamOp e ax none rc cut
      (fun x j => ((if j = 0 then (0, 0) else
        ((if mode.val = 0 then ((x.getG rd).toNat : Int) else (x.getG rd).toInt), (x.getG rd1).toNat)) : Int × Nat))
      (fun j x _ a => if j = 0 then (searchVal mode.val x, 0) else if better (searchVal mode.val x) a.1 then (searchVal mode.val x, j) else a)
      [(2, .g rd 0#32), (2, .g rd1 0xFFFFFFFF#32)]
      (fun a => [(2, .g rd (asWord a.1)), (2, .g rd1 (BitVec.ofNat 32 a.2))])
      (fun _ x => x)
      (fun a x => (x.setG rd (asWord a.1)).setG rd1 (BitVec.ofNat 32 a.2)) s

/-- SMAX: replaced only by a strictly greater value. -/
def execSmax (e : Fin 9) (rd : Fin 32) (ax ay : Fin 8) (rc : Fin 32) (mode : Fin 16) (cut : Nat) (s : State) : Host.Outcome State Fault Refusal :=
  .next (engStep e (searchOp e rd ax ay rc mode (fun v b => decide (b < v)) cut) s)

/-- SMIN: replaced only by a strictly smaller value. -/
def execSmin (e : Fin 9) (rd : Fin 32) (ax ay : Fin 8) (rc : Fin 32) (mode : Fin 16) (cut : Nat) (s : State) : Host.Outcome State Fault Refusal :=
  .next (engStep e (searchOp e rd ax ay rc mode (fun v b => decide (v < b)) cut) s)

end Sys2Proof.Machine
end

