-- ==== Sys2Proof/Machine/Dma.lean ====
section
/-!
DEFINITION. The DMA channels (R305 to R325): commands, triggers, descriptors, transfers, suspensions and halts.
-/

namespace Sys2Proof.Machine

/-! ### Where a byte of a descriptor lies (R308, R313) -/

/-- A 16-bit stride. -/
def strideOf (v : Nat) : Int := (BitVec.ofNat 16 v).toInt

/-- Is a side of the descriptor the channel's ring? `dst` names the destination. -/
def dRing (w : List Word) (dst : Bool) : Bool := (w.getD 3 0).getLsbD (if dst then 8 else 9)

/-- The stride of loop `n` on a side. -/
def dStride (w : List Word) (dst : Bool) (n : Nat) : Int :=
  strideOf ((w.getD (4 + n) 0).toNat / (if dst then 1 else 65536) % 65536)

/-- The address of byte `n` by the loops (R308). -/
def loopAddr (w : List Word) (dst : Bool) (n : Nat) : Nat :=
  let k := n / dSize w
  let i0 : Int := (k % dCnt w 0 : Nat)
  let i1 : Int := (k / dCnt w 0 % dCnt w 1 : Nat)
  let i2 : Int := (k / (dCnt w 0 * dCnt w 1) : Nat)
  (((((w.getD (if dst then 1 else 0) 0).toNat : Nat) : Int)
    + (dSize w : Int) * (i0 * dStride w dst 0 + i1 * dStride w dst 1 + i2 * dStride w dst 2)
    + ((n % dSize w : Nat) : Int)) % (2 ^ 32 : Int)).toNat

/-- The bytes from RPTR to the next wrap: RPTR returns to RBASE when it reaches RBASE + RLEN (R313). -/
def State.ringLeft (s : State) (h c : Fin 8) : Nat :=
  let d := (s.get (dmaF Fld.DMA_CHn_RBASE_ADDR h c) + s.get (dmaF Fld.DMA_CHn_RLEN_LEN h c) + 2 ^ 32
    - s.get (dmaF Fld.DMA_CHn_RPTR_ADDR h c)) % 2 ^ 32
  if d = 0 then 2 ^ 32 else d

/-- The ring address of byte `n` of the descriptor, RPTR being that of the first unwritten byte, and the bytes from it to the next wrap. -/
def State.ringByte (s : State) (h c : Fin 8) (n : Nat) : Nat × Nat :=
  let wp := (s.dmaCh h c).wp
  let base := s.get (dmaF Fld.DMA_CHn_RBASE_ADDR h c)
  let len := s.get (dmaF Fld.DMA_CHn_RLEN_LEN h c)
  let p := s.get (dmaF Fld.DMA_CHn_RPTR_ADDR h c)
  let d := s.ringLeft h c
  if n < wp then
    let o := wp - n
    if base ≤ p ∧ p < base + o then ((p + len + 2 ^ 32 - o) % 2 ^ 32, o - (p - base)) else ((p + 2 ^ 32 - o) % 2 ^ 32, d + o)
  else if n - wp < d then ((p + (n - wp)) % 2 ^ 32, d - (n - wp))
  else
    let l := (s.dmaCh h c).rlen.getD len
    let l := if l = 0 then 2 ^ 32 else l
    ((base + (n - wp - d) % l) % 2 ^ 32, l - (n - wp - d) % l)

/-- The address of byte `n` on a side and the bytes left in its run (R310): a run stays inside loop 0 and ends at a ring's wrap. -/
def State.dmaByte (s : State) (h c : Fin 8) (dst : Bool) (n : Nat) : Nat × Nat :=
  let w := (s.dmaCh h c).desc
  let i0 := n / dSize w % dCnt w 0
  let joined (d : Bool) : Bool := dRing w d || dStride w d 0 == 1
  let run := (if joined false && joined true then (dCnt w 0 - i0) * dSize w else dSize w) - n % dSize w
  let ringRun := if dRing w false || dRing w true then min run (s.ringByte h c n).2 else run
  (if dRing w dst then (s.ringByte h c n).1 else loopAddr w dst n, ringRun)

/-- The source byte that becomes destination byte `n` (R312). -/
def swapIdx (w : List Word) (n : Nat) : Nat :=
  let size := dSize w
  let b := n % size
  let m := (w.getD 3 0).toNat / 2 ^ 12 % 4
  n - b + (if size = 1 ∨ m = 0 then b
    else if m = 1 then size - 1 - b
    else if m = 2 then (size / 2 - 1 - b / 2) * 2 + b % 2
    else if b % 2 = 0 then b + 1 else b - 1)

/-- The accesses of one transfer of at most `n` bytes at a physical address (R310, R311): one narrow access, or 8-byte accesses within a 64-byte granule; in register
space one word, or the narrow access that draws an error there. -/
def transferOf (a n : Nat) : List (Nat × Nat) :=
  if n = 0 then []
  else if !inRegs a && a % 8 == 0 && decide (8 ≤ n) then (List.range (min (n / 8) ((64 - a % 64) / 8))).map fun i => (a + 8 * i, 3)
  else if a % 4 = 0 ∧ 4 ≤ n then [(a, 2)]
  else if a % 2 = 0 ∧ 2 ≤ n then [(a, 1)]
  else [(a, 0)]

/-! ### Accesses (R305) -/

/-- Channel `c` of hamlet `h` as a requester (R305). -/
abbrev dmaReq (h : Fin 8) : Req := ⟨8 + h.val, 3⟩

/-- The translation of a channel's access: physical with TE = 0, else through slot CTX of the hamlet's MMU, U and X ignored. -/
def dmaXlat (h c : Fin 8) (write : Bool) (va : Nat) (s : State) : Xlat × State :=
  if s.flag (dmaF Fld.DMA_CHn_CFG_TE h c) then
    translate (dmaReq h) (hEng h) (s.get (dmaF Fld.DMA_CHn_CFG_CTX h c)) (if write then 2 else 1) false va s
  else (.ok va, s)

/-- Does the hamlet's domain hold its channels: asleep, entering a lower state, or waking (R350)? -/
def State.dmaHeld (s : State) (h : Fin 8) : Bool := s.hstate h < 2 || s.flag (Fld.PWR_HSTATE_BUSY.sub h)

/-- The bytes of a read's data, lowest address first. -/
def bytesLE (n v : Nat) : List Nat := (List.range n).map fun i => v / 256 ^ i % 256

/-- Reads accesses in order up to one that fails or has to wait, which is not presented unless it is the first: the bytes, what the first answered. -/
def dmaReads (r : Req) : List (Nat × Nat) → State → List Nat × BusRes × State
  | [], s => ([], .data 0, s)
  | x :: t, s =>
    match busRead r false x.1 x.2 s with
    | (.data v, s1) =>
      let y := dmaReads r t s1
      match y.2.1 with
      | .data _ => (bytesLE (2 ^ x.2) v ++ y.1, .data 0, y.2.2)
      | _ => (bytesLE (2 ^ x.2) v, .data 0, s1)
    | (e, s1) => ([], e, s1)

/-- Reads every access of a list, which is one transfer: all its bytes, or how the first failure answered. -/
def dmaReadAll (r : Req) : List (Nat × Nat) → State → List Nat × BusRes × State
  | [], s => ([], .data 0, s)
  | x :: t, s =>
    match busRead r false x.1 x.2 s with
    | (.data v, s) =>
      let y := dmaReadAll r t s
      (bytesLE (2 ^ x.2) v ++ y.1, y.2)
    | (e, s) => ([], e, s)

/-! ### Whose turn it is (R325) -/

/-- Does a channel wait for the capture-ring request (R317)? -/
def State.ringWaits (s : State) (h c : Fin 8) : Bool :=
  s.get (dmaF Fld.DMA_CHn_CFG_TRIG h c) == 3 && !s.ringRequest h c

/-- The bytes at which a channel with level pacing has to stop reading: those that the capture unit has written (R317). -/
def State.dmaLimit (s : State) (h c : Fin 8) : Nat :=
  let x := s.dmaCh h c
  if s.get (dmaF Fld.DMA_CHn_CFG_TRIG h c) = 3 then min x.unitEnd (x.wp + s.ringFill h c) else x.unitEnd

/-- The accesses of the next write transfer, each with its first byte, up to the first whose bytes have not been read. -/
def takeReady (w : List Word) (rp : Nat) : Nat → List (Nat × Nat) → List (Nat × Nat × Nat)
  | _, [] => []
  | n, x :: t =>
    if (List.range (2 ^ x.2)).all fun i => swapIdx w (n + i) < rp then (n, x.1, x.2) :: takeReady w rp (n + 2 ^ x.2) t else []

/-- The accesses of a tail at a physical address: the bytes that have been read and do not fill an 8-byte access, where no more can be read now. -/
def State.dmaTail (s : State) (h c : Fin 8) (pa : Nat) : List (Nat × Nat × Nat) :=
  let x := s.dmaCh h c
  let m := ((List.range (min 8 (min (x.unitEnd - x.wp) (s.dmaByte h c true x.wp).2))).takeWhile fun i => swapIdx x.desc (x.wp + i) < x.rp).length
  takeReady x.desc x.rp x.wp (transferOf pa m)

/-- The accesses of the next write transfer at a physical address whose bytes have been read; a word of register space is written by itself, before the next is read (R311). -/
def State.dmaReady (s : State) (h c : Fin 8) (pa : Nat) : List (Nat × Nat × Nat) :=
  let x := s.dmaCh h c
  if x.regs then s.dmaTail h c pa
  else takeReady x.desc x.rp x.wp (transferOf pa (min (x.unitEnd - x.wp) (s.dmaByte h c true x.wp).2))

/-- Is any byte read and not written ready to be written? -/
def State.dmaPendingWrite (s : State) (h c : Fin 8) : Bool :=
  let x := s.dmaCh h c
  let va := (s.dmaByte h c true x.wp).1
  let pa := match (dmaXlat h c true va s).1 with | .ok pa => pa | _ => va
  decide (x.wp < x.unitEnd) && !(s.dmaReady h c pa).isEmpty

/-- Does a channel have a read transfer to issue: a descriptor to fetch, or bytes of its source to read? A read in register space waits for the writes of the bytes
before it (R311). -/
def State.dmaReadWork (s : State) (h c : Fin 8) : Bool :=
  let x := s.dmaCh h c
  s.dmaSt h c == 1 && x.failed.isNone &&
    (x.desc.isEmpty || (decide (x.wp < dTotal x.desc) && !s.ringWaits h c && decide (0 < min (s.dmaByte h c false x.rp).2 (s.dmaLimit h c - x.rp))
      && !(x.regs && s.dmaPendingWrite h c)))

/-- Does a channel have a write transfer to issue: bytes that are ready, or a tail? -/
def State.dmaWriteWork (s : State) (h c : Fin 8) : Bool :=
  let x := s.dmaCh h c
  s.dmaSt h c == 1 && x.failed.isNone && !x.desc.isEmpty && decide (x.wp < dTotal x.desc) && !s.ringWaits h c &&
    (s.dmaPendingWrite h c || (decide (s.dmaLimit h c ≤ x.rp) && !(s.dmaTail h c (s.dmaByte h c true x.wp).1).isEmpty))

/-- The channel that the engine of hamlet `h` takes for its next read or write (R325): the highest PRIO that has work, in round robin by channel. -/
def State.dmaTurn (s : State) (h : Fin 8) (write : Bool) : Option (Fin 8) :=
  let work := (List.finRange 8).filter fun c => if write then s.dmaWriteWork h c else s.dmaReadWork h c
  let prio (c : Fin 8) : Nat := s.get (dmaF Fld.DMA_CHn_CFG_PRIO h c)
  let top := work.foldl (fun n c => max n (prio c)) 0
  (roundRobin s.dmaPtr[h] ((work.filter fun c => prio c == top).map Fin.val)).map (Fin.ofNat 8)

/-- The pointer moves past the channel served (R325). -/
def State.dmaServed (s : State) (h c : Fin 8) : State := { s with dmaPtr := s.dmaPtr.set h c.val }

/-! ### Suspension and halt (R321 to R323) -/

/-- A channel enters SUSPENDED (3) or HALTED (4) with a CODE: FDESC and ERR; CODES 4 and 5 are counted, a halt raises notice 0x428. -/
def dmaStop (h c : Fin 8) (st code : Nat) (s : State) : State :=
  let s := s.setDma h c (s.dmaCh h c).rewind
  let s := (s.setDmaSt h c st).put (dmaF Fld.DMA_CHn_STAT_CODE h c) code
  let s := s.put (dmaF Fld.DMA_CHn_FDESC_ADDR h c) (s.get (dmaF Fld.DMA_CHn_CUR_ADDR h c))
  let s := s.setBit (Fld.DMA_IRQ_ERR.h h) c.val
  let s := if code = 4 ∨ code = 5 then s.inc ((Fld.DMA_CNTn_COUNT.i 3).h h) else s
  if st = 4 then s.raise 0x428 h.val c.val else s

/-- Records the failing access: its untranslated address and its direction. -/
def dmaFault (h c : Fin 8) (write : Bool) (va : Nat) (s : State) : State :=
  (s.put (dmaF Fld.DMA_CHn_FADDR_ADDR h c) va).put (dmaF Fld.DMA_CHn_STAT_DIR h c) (b2n write)

/-- A translation fault suspends the channel (R322): CODE 8 or 9 with FINFO. -/
def dmaSuspend (h c : Fin 8) (write : Bool) (code va info : Nat) (s : State) : State :=
  dmaStop h c 3 code ((dmaFault h c write va s).put (dmaF Fld.DMA_CHn_STAT_FINFO h c) info)

/-- An error response halts the channel (R323): CODE 4 or 5. -/
def dmaHalt (h c : Fin 8) (write : Bool) (code va : Nat) (s : State) : State := dmaStop h c 4 code (dmaFault h c write va s)

/-! ### Descriptors (R307, R309, R318 to R320) -/

/-- Is a descriptor in error (R309)? -/
def descError (w : List Word) (rlen : Nat) : Bool :=
  (w.getD 3 0).toNat % 256 != 0 || (w.getD 7 0).toNat % 4 != 0 || (w.getD 3 0).toNat / 2 ^ 10 % 4 == 3
    || (dRing w false && dRing w true) || ((dRing w false || dRing w true) && rlen == 0)

/-- The eight little-endian words of 32 bytes. -/
def wordsOf (b : List Nat) : List Word :=
  (List.range 8).map fun i => BitVec.ofNat 32 ((List.range 4).foldr (fun j acc => acc * 256 + b.getD (4 * i + j) 0) 0)

/-- A descriptor has been read: it is refused with CODE 6, or the channel starts on it. -/
def dmaDescriptor (h c : Fin 8) (w : List Word) (s : State) : State :=
  let x := s.dmaCh h c
  let s := s.put (dmaF Fld.DMA_CHn_CUR_ADDR h c) (x.next / 32)
  if descError w (s.get (dmaF Fld.DMA_CHn_RLEN_LEN h c)) then dmaStop h c 4 6 s
  else dmaPace h c (s.setDma h c { x with
    desc := w
    fetched := x.fetched + 1
    ring := if x.fetched = 0 then (w.getD 7 0).getLsbD 4 else x.ring
    rp := 0
    wp := 0
    buf := []
    regs := false
    unitEnd := 0 })

/-- DMA_DESCRIPTOR_FETCH (R307, R309, R318, R319): an ACTIVE channel with no descriptor in hand reads one in its turn. -/
def dmaFetch (h c : Fin 8) (s : State) : State :=
  let x := s.dmaCh h c
  if s.dmaSt h c ≠ 1 ∨ !x.desc.isEmpty ∨ s.dmaHeld h ∨ s.dmaTurn h false ≠ some c then s
  else
    let here (s : State) : State := (s.dmaServed h c).put (dmaF Fld.DMA_CHn_CUR_ADDR h c) (x.next / 32)
    let t := dmaXlat h c false x.next s
    match t.1 with
    | .ok pa =>
      let l := if inRegs pa then (List.range 8).map (fun i => (pa + 4 * i, 2)) else (List.range 4).map fun i => (pa + 8 * i, 3)
      let y := dmaReadAll (dmaReq h) l t.2
      match y.2.1 with
      | .data _ => dmaDescriptor h c (wordsOf y.1) (y.2.2.dmaServed h c)
      | .err => dmaHalt h c false 5 x.next (here y.2.2)
      | .stall => y.2.2
    | .page info => dmaSuspend h c false 9 x.next info (here t.2)
    | .priv => s
    | .walk _ => dmaHalt h c false 5 x.next (here t.2)
    | .stall => s

/-- DMA_DESCRIPTOR_COMPLETE (R318 to R320): every byte is written; DONE and the trigger for CPL; then the chain ends, halts at its limit, or goes on. -/
def dmaComplete (h c : Fin 8) (s : State) : State :=
  let x := s.dmaCh h c
  if s.dmaSt h c ≠ 1 ∨ x.desc.isEmpty ∨ x.failed.isSome ∨ x.wp ≠ dTotal x.desc then s
  else
    let w7 := x.desc.getD 7 0
    let s := if w7.getLsbD 2 then (s.setBit (Fld.DMA_IRQ_DONE.h h) c.val).postEdge 2 h.val c.val else s
    let s := s.setDma h c { x with desc := [], next := w7.toNat / 32 * 32, rp := 0, wp := 0, buf := [], regs := false, unitEnd := 0 }
    if w7.getLsbD 3 then s.stopDma h c 1
    else if !x.ring && decide (max 1 (s.get (dmaF Fld.DMA_CHn_CFG_FLIMIT h c)) ≤ x.fetched) then
      (dmaStop h c 4 7 s).put (dmaF Fld.DMA_CHn_FDESC_ADDR h c) (w7.toNat / 32)
    else s

/-! ### Transfers (R310 to R313, R316, R317) -/

/-- A byte of the funnel. -/
def DmaCh.byteAt (x : DmaCh) (n : Nat) : Nat := x.buf.getD (n + x.buf.length - x.rp) 0

/-- The data of an access of 2^size bytes that begins at destination byte `n`. -/
def DmaCh.dataAt (x : DmaCh) (n size : Nat) : Nat :=
  (List.range (2 ^ size)).foldr (fun i acc => acc * 256 + x.byteAt (swapIdx x.desc (n + i)) % 256) 0

/-- The posted writes of one transfer: the first byte that failed, and the first byte of the write that has to wait, behind which none is issued. -/
def dmaWrites (r : Req) (x : DmaCh) : List (Nat × Nat × Nat) → State → Option Nat × Option Nat × State
  | [], s => (none, none, s)
  | (n, a, size) :: t, s =>
    match busWrite r a size (x.dataAt n size) s with
    | (.stall, s) => (none, some n, s)
    | (.err, s) => let y := dmaWrites r x t s; (some n, y.2)
    | (.data _, s) => dmaWrites r x t s

/-- RPTR moves past `n` written bytes (R313, R314): at the wrap it returns to RBASE and a held length takes effect. -/
def moveRing (h c : Fin 8) (n : Nat) (s : State) : State :=
  if n < s.ringLeft h c then
    s.put (dmaF Fld.DMA_CHn_RPTR_ADDR h c) ((s.get (dmaF Fld.DMA_CHn_RPTR_ADDR h c) + n) % 2 ^ 32)
  else
    let x := s.dmaCh h c
    let s := s.put (dmaF Fld.DMA_CHn_RPTR_ADDR h c) (s.get (dmaF Fld.DMA_CHn_RBASE_ADDR h c))
    match x.rlen with
    | some l => ((s.put (dmaF Fld.DMA_CHn_RLEN_LEN h c) l).put (dmaF Fld.DMA_CHn_RLEN_PEND h c) 0).setDma h c { x with rlen := none }
    | none => s

/-- The destination bytes up to byte `m` are written: the funnel, RPTR and the fill move on, and the pacing of a unit that has ended. -/
def dmaWritten (h c : Fin 8) (m : Nat) (failed : Option (Nat × Nat)) (s : State) : State :=
  let x := s.dmaCh h c
  let n := m - x.wp
  let s := if dRing x.desc false || dRing x.desc true then moveRing h c n s else s
  let x := s.dmaCh h c
  let keep := x.rp - srcFrom x.desc m
  let buf := x.buf.drop (x.buf.length - keep)
  let s := s.setDma h c { x with
    wp := m
    buf := buf
    regs := x.regs && !buf.isEmpty
    failed := failed
    taken := if dRing x.desc false then x.taken + n else x.taken
    ovr := if dRing x.desc false && decide (0 < n) then false else x.ovr }
  if failed.isSome then s else dmaPace h c s

/-- One write transfer: the accesses that `acc` gives at the physical address, as posted writes; a write that has to wait stays pending at its arbiter and is issued again
(R292). -/
def dmaWriteWith (acc : Nat → List (Nat × Nat × Nat)) (h c : Fin 8) (s : State) : State :=
  let x := s.dmaCh h c
  let va := (s.dmaByte h c true x.wp).1
  let t := dmaXlat h c true va s
  match t.1 with
  | .ok pa =>
    let l := acc pa
    let y := dmaWrites (dmaReq h) x l t.2
    let u := y.2.2.dmaServed h c
    match y.1, y.2.1 with
    | some n, _ => dmaWritten h c n (some (n, (va + (n - x.wp)) % 2 ^ 32)) u
    | none, some n => if n = x.wp then y.2.2 else dmaWritten h c n none u
    | none, none => dmaWritten h c (x.wp + l.foldl (fun n p => n + 2 ^ p.2.2) 0) none u
  | .page info => dmaSuspend h c true 8 va info (t.2.dmaServed h c)
  | .priv => s
  | .walk _ => dmaHalt h c true 4 va (t.2.dmaServed h c)
  | .stall => s

/-- Writes the tail; without one, `act`. -/
def dmaFlush (h c : Fin 8) (act : State → State) (s : State) : State :=
  if (s.dmaTail h c (s.dmaByte h c true (s.dmaCh h c).wp).1).isEmpty then act s else dmaWriteWith (s.dmaTail h c) h c s

/-- One write transfer: the bytes that are ready, or the tail where the source gives no more now. -/
def dmaWriteTransfer (h c : Fin 8) (s : State) : State :=
  if s.dmaPendingWrite h c then dmaWriteWith (s.dmaReady h c) h c s
  else if s.dmaLimit h c ≤ (s.dmaCh h c).rp then dmaFlush h c id s
  else s

/-- One read transfer: the next bytes of the source go into the funnel. A read that has to wait stays pending at its arbiter (R292). A read that fails is presented when every byte read before it is written, so that its first
byte is the resume point (R323). -/
def dmaReadTransfer (h c : Fin 8) (s : State) : State :=
  let x := s.dmaCh h c
  let b := s.dmaByte h c false x.rp
  let n := min b.2 (s.dmaLimit h c - x.rp)
  let halt (t : State) : State := if s.dmaPendingWrite h c then s else dmaFlush h c (fun _ => dmaHalt h c false 4 b.1 (t.dmaServed h c)) s
  if n = 0 then s
  else
    let t := dmaXlat h c false b.1 s
    match t.1 with
    | .ok pa =>
      if (x.regs || inRegs pa) && s.dmaPendingWrite h c then s
      else
        let y := dmaReads (dmaReq h) (transferOf pa n) t.2
        match y.2.1 with
        | .stall => y.2.2
        | .err => halt y.2.2
        | .data _ => (y.2.2.dmaServed h c).setDma h c { x with buf := x.buf ++ y.1, rp := x.rp + y.1.length, regs := x.regs || inRegs pa }
    | .page info => dmaSuspend h c false 8 b.1 info (t.2.dmaServed h c)
    | .priv => s
    | .walk _ => halt t.2
    | .stall => s

/-- DMA_TRANSFER (R310, R311, R317, R325): one transfer of an ACTIVE channel that has a descriptor, in its turn; none without the capture-ring request, none while a
failed write waits. -/
def dmaTransfer (h c : Fin 8) (write : Bool) (s : State) : State :=
  let x := s.dmaCh h c
  if s.dmaSt h c ≠ 1 ∨ x.desc.isEmpty ∨ x.failed.isSome ∨ s.dmaHeld h ∨ dTotal x.desc ≤ x.wp then s
  else if s.ringWaits h c then s.setDmaSt h c 2
  else if s.dmaTurn h write ≠ some c then s
  else if write then dmaWriteTransfer h c s
  else dmaReadTransfer h c s

/-- DMA_WRITE_ERROR (R323, R321): a write has failed and the others have their responses; a pending ABORT or STOPALL then stops the channel. -/
def dmaWriteError (h c : Fin 8) (s : State) : State :=
  let x := s.dmaCh h c
  match x.failed with
  | none => s
  | some f =>
    let s := dmaHalt h c true 4 f.2 s
    if x.ending ≠ 0 then s.stopDma h c x.ending else s

/-! ### Triggers (R315 to R317) -/

/-- One channel's part of an edge trigger: source, hamlet (8: every hamlet), argument. -/
def edgeTo (trig hm arg : Nat) (h c : Fin 8) (s : State) : State :=
  let mine := s.get (dmaF Fld.DMA_CHn_CFG_TRIG h c) == trig
  if hm ≠ 8 ∧ hm ≠ h.val then s
  else if trig = 1 then
    (if arg % 8 = c.val then (if mine then dmaTrigger h c s else s.inc ((Fld.DMA_CNTn_COUNT.i 1).h h)) else s)
  else if mine && s.get (dmaF Fld.DMA_CHn_CFG_TARG h c) == arg then dmaTrigger h c s
  else s

/-- DMA_EDGE_TRIGGER: the oldest trigger reaches its channels. -/
def dmaEdge (s : State) : State :=
  match s.edges with
  | [] => s
  | (trig, hm, arg) :: t =>
    (List.finRange 8).foldl (fun s h => (List.finRange 8).foldl (fun s c => edgeTo trig hm arg h c s) s) { s with edges := t }

/-- DMA_RING_REQUEST (R317): the request as the fill and the capture now give it; an overrun has been noted at the write that caused it. -/
def dmaRingRequest (h c : Fin 8) (s : State) : State :=
  if s.get (dmaF Fld.DMA_CHn_CFG_TRIG h c) ≠ 3 ∨ s.dmaSt h c = 0 then s
  else
    if (s.dmaCh h c).desc.isEmpty then s
    else if s.dmaSt h c = 2 ∧ s.ringRequest h c then s.setDmaSt h c 1
    else if s.dmaSt h c = 1 ∧ !s.ringRequest h c ∧ (s.dmaCh h c).wp < dTotal (s.dmaCh h c).desc then s.setDmaSt h c 2
    else s

/-! ### The commands -/

/-- The address of `DMA_CHn_CTRL`. -/
abbrev dmaCtrlAddr (h c : Fin 8) : Nat := hamletBase h + Reg.DMA_CHn_CTRL + 64 * c.val

/-- DMA_GO (R321): a write of GO. -/
def execDmaGo (r : Req) (h c : Fin 8) (v : Word) (s : State) : Host.Outcome State Fault Refusal :=
  .next (regCmd r (dmaCtrlAddr h c) (v ||| 0x80000000#32) (dmaWrite r h (dmaCtrlAddr h c) (v ||| 0x80000000#32)) s)

/-- DMA_ABORT (R321): a write of ABORT. -/
def execDmaAbort (r : Req) (h c : Fin 8) (v : Word) (s : State) : Host.Outcome State Fault Refusal :=
  .next (regCmd r (dmaCtrlAddr h c) (v ||| 0x40000000#32) (dmaWrite r h (dmaCtrlAddr h c) (v ||| 0x40000000#32)) s)

/-- DMA_RESUME (R321): a write of RESUME. -/
def execDmaResume (r : Req) (h c : Fin 8) (v : Word) (s : State) : Host.Outcome State Fault Refusal :=
  .next (regCmd r (dmaCtrlAddr h c) (v ||| 0x20000000#32) (dmaWrite r h (dmaCtrlAddr h c) (v ||| 0x20000000#32)) s)

/-- DMA_STRIG (R316): a write of STRIG. -/
def execDmaStrig (r : Req) (h c : Fin 8) (v : Word) (s : State) : Host.Outcome State Fault Refusal :=
  .next (regCmd r (dmaCtrlAddr h c) (v ||| 0x10000000#32) (dmaWrite r h (dmaCtrlAddr h c) (v ||| 0x10000000#32)) s)

/-- DMA_STOPALL (R324): a write of STOPALL. -/
def execDmaStopall (r : Req) (h : Fin 8) (v : Word) (s : State) : Host.Outcome State Fault Refusal :=
  .next (regCmd r (hamletBase h + Reg.DMA_CTRL) (v ||| 1#32) (dmaWrite r h (hamletBase h + Reg.DMA_CTRL) (v ||| 1#32)) s)

/-- DMA_EDGE_TRIGGER (R316). -/
def execDmaEdgeTrigger (s : State) : Host.Outcome State Fault Refusal := .next (dmaEdge s)

/-- DMA_RING_REQUEST (R317). -/
def execDmaRingRequest (h c : Fin 8) (s : State) : Host.Outcome State Fault Refusal := .next (dmaRingRequest h c s)

/-- DMA_DESCRIPTOR_FETCH (R318). -/
def execDmaDescriptorFetch (h c : Fin 8) (s : State) : Host.Outcome State Fault Refusal := .next (dmaFetch h c s)

/-- DMA_TRANSFER (R310). -/
def execDmaTransfer (h c : Fin 8) (write : Bool) (s : State) : Host.Outcome State Fault Refusal := .next (dmaTransfer h c write s)

/-- DMA_WRITE_ERROR (R323). -/
def execDmaWriteError (h c : Fin 8) (s : State) : Host.Outcome State Fault Refusal := .next (dmaWriteError h c s)

/-- DMA_DESCRIPTOR_COMPLETE (R318). -/
def execDmaDescriptorComplete (h c : Fin 8) (s : State) : Host.Outcome State Fault Refusal := .next (dmaComplete h c s)

end Sys2Proof.Machine
end

