-- ==== Sys2Proof/Machine/System.lean ====
section
/-!
DEFINITION. Time, power, fence, trap, return and control-register instructions of the engines (R244, R256, R260 to R270, R273, R275), interrupt entry,
and the start and stop of an engine.
-/

namespace Sys2Proof.Machine

/-! ### Time (R256, R261) -/

/-- RDT: the tick within the second, and the seconds modulo 8 in bits 31:29; an odd rd is illegal (R242). -/
def execRdt (e : Fin 9) (rd : Fin 32) (s : State) : Host.Outcome State Fault Refusal :=
  .next (engStep e (fun s => if rd.val % 2 = 1 then illegal e s
    else retire e [(2, .g rd (BitVec.ofNat 32 (s.now % secU / tickU))),
      (2, .g (Fin.ofNat 32 (rd.val + 1)) (BitVec.ofNat 32 (secOf s.now % 8 * 2 ^ 29)))] id s) s)

/-- WAITT: rd := 2 for a TICK out of range, 1 where the instant has passed; else the engine waits. -/
def execWaitt (e : Fin 9) (rd ra rb : Fin 32) (s : State) : Host.Outcome State Fault Refusal :=
  .next (engStep e (fun s =>
    let x := s.eng[e]
    let tick := (x.getG ra).toNat
    let t := namedInstant s.now ((x.getG rb).toNat / 2 ^ 29) tick 0
    if 491519999 < tick then retire e [(0, .g rd 2#32)] id s
    else if t ≤ s.now then retire e [(0, .g rd 1#32)] id s
    else s.setEng e { x with wait := some (.time t.toNat rd) }) s)

/-- WAITT_END (R261): within 20 ns of the tick the wait ends with rd = 0. -/
def execWaittEnd (e : Fin 9) (t : Nat) (s : State) : Host.Outcome State Fault Refusal :=
  .next (match s.eng[e].wait with
    | some (.time due rd) =>
      if s.eng[e].state = 1 then settle e ((s.at (max due (min t (due + 20 * nsU)))).setEng e (s.eng[e].endWait rd 0#32)) else s
    | _ => s)

/-- SCHED (R261): hands one action to the hamlet's event unit; stalls while its queue is full. The Reeve has no event unit: nothing is queued there. -/
def schedOp (e : Fin 9) (rd ra rb : Fin 32) (s : State) : State :=
  let x := s.eng[e]
  if h : e.val < 8 then
    let k : Fin 8 := ⟨e.val, h⟩
    if 64 ≤ s.evu[k].q.length ∨ s.evu[k].cross.isSome then s
    else retire e [] id (s.setEvu k { s.evu[k] with cross := some ((x.getG ra).toNat, (x.getG rb).toNat, (x.getG rd).toNat) })
  else retire e [] id s

/-- SCHED. -/
def execSched (e : Fin 9) (rd ra rb : Fin 32) (s : State) : Host.Outcome State Fault Refusal :=
  .next (engStep e (kernelOnly e (schedOp e rd ra rb)) s)

/-! ### Fences (R260, R264) -/

/-- A fence that waits for stores (R260): while one of them is accepted but not performed the fence does not retire; an error response that has arrived is taken there. The
machine performs every other access in order. -/
def fenceStores (e : Fin 9) (s : State) : State :=
  if s.storesWait e then s
  else match s.eng[e].bad with
    | b :: t => takeBad e b t s
    | [] => retire e [] id s

/-- FENCE.R: every earlier load has its value. -/
def execFenceR (e : Fin 9) (s : State) : Host.Outcome State Fault Refusal := .next (engStep e (retire e [] id) s)

/-- FENCE.W. -/
def execFenceW (e : Fin 9) (s : State) : Host.Outcome State Fault Refusal := .next (engStep e (fenceStores e) s)

/-- FENCE.RW. -/
def execFenceRw (e : Fin 9) (s : State) : Host.Outcome State Fault Refusal := .next (engStep e (fenceStores e) s)

/-- FENCE.IO. -/
def execFenceIo (e : Fin 9) (s : State) : Host.Outcome State Fault Refusal := .next (engStep e (fenceStores e) s)

/-- FENCE.DMA: illegal on the Reeve (R248). -/
def execFenceDma (e : Fin 9) (s : State) : Host.Outcome State Fault Refusal :=
  .next (engStep e (fun s => if e.val < 8 then fenceStores e s else illegal e s) s)

/-- Is the engine at an instruction boundary: executing or idle, not in a wait for a time or a wake? -/
def Eng.atBoundary (x : Eng) : Bool :=
  x.state == 1 && (match x.wait with
    | none => true
    | some .idle => true
    | some (.time _ _) => false
    | some (.power _) => false)

/-- STORE_BUS_ERROR (R264): the response arrives; code 9 is taken at this instruction boundary. An engine that waits for a time or a wake is at no boundary. -/
def execStoreBusError (e : Fin 9) (s : State) : Host.Outcome State Fault Refusal :=
  .next (match s.eng[e].bad with
    | [] => s
    | b :: t =>
      if s.eng[e].atBoundary then settle e (takeBad e b t s) else s)

/-! ### Traps (R263) -/

/-- TRAP: illegal unless its rd and ra fields are 0; code 10 with imm, the PC saved is the next instruction's. -/
def execTrap (e : Fin 9) (rd ra : Fin 32) (imm : BitVec 16) (s : State) : Host.Outcome State Fault Refusal :=
  .next (engStep e (fun s => if rd.val ≠ 0 ∨ ra.val ≠ 0 then illegal e s
    else takeExc e 10 imm.toNat none ((s.eng[e].pc + 4) % 2 ^ 32) false s) s)

/-- MTRAP: on the Reeve code 12 into machine mode; a hamlet engine may not execute it (R245: code 2). The format has no imm16: INFO is a free value. -/
def execMtrap (e : Fin 9) (s : State) : Host.Outcome State Fault Refusal :=
  .next (engStep e (fun s => if e.val < 8 then takeExc e 2 0 none s.eng[e].pc false s
    else takeExc e 12 s.drawn.1 none ((s.eng[e].pc + 4) % 2 ^ 32) false s.drawn.2) s)

/-- BRK: code 11. -/
def execBrk (e : Fin 9) (s : State) : Host.Outcome State Fault Refusal :=
  .next (engStep e (fun s => takeExc e 11 0 none s.eng[e].pc false s) s)

/-! ### Return (R268) -/

/-- The privilege that a field names: machine exists on the Reeve alone; a value that names none is replaced by a free one. -/
def privOf (e : Fin 9) (v draw : Nat) : Nat := if v < 2 ∨ (v = 2 ∧ 8 ≤ e.val) then v else draw % 2

/-- The STATUS that a save register restores. -/
def statusOf (e : Fin 9) (w : Word) (draw : Nat) : Status :=
  let n := w.toNat
  ⟨bitOf n 15, bitOf n 14, privOf e (n / 2 ^ 12 % 4) draw, n / 2 ^ 10 % 4,
    if h : n / 2 ^ 8 % 4 < 3 then ⟨n / 2 ^ 8 % 4, h⟩ else Fin.ofNat 3 draw, bitOf n 1, bitOf n 2, false⟩

/-- What RET restores and where it goes (R268): a level above base its SSTAT and EPC, machine mode SSTATM and EPCM, base level PPRIV and EPC0. -/
def retTarget (e : Fin 9) (x : Eng) (draw : Nat) : Status × Nat :=
  if x.lvl = 1 then ({ statusOf e x.sstat[0] draw with mexc := x.mexc }, x.epc[1].toNat)
  else if x.lvl = 2 then ({ statusOf e x.sstat[1] draw with mexc := x.mexc }, x.epc[2].toNat)
  else if x.priv = 2 then (statusOf e x.sstatm draw, x.epcm.toNat)
  else ({ x.status with priv := privOf e x.ppriv draw, exc := false }, x.epc[0].toNat)

/-- RET: a branch with a delay slot that executes in the returning context. -/
def retOp (e : Fin 9) (s : State) : State :=
  let x := s.eng[e]
  if x.slot.isSome then illegal e s
  else
    let d := s.drawn
    let r := retTarget e x d.1
    let y := if x.lvl = 0 then x.tick [] else x.drain
    d.2.setEng e { y.setStatus r.1 with
      slot := some { addr := x.pc, target := r.2, undo := some x.status }
      pc := (x.pc + 4) % 2 ^ 32 }

/-- RET. -/
def execRet (e : Fin 9) (s : State) : Host.Outcome State Fault Refusal := .next (engStep e (kernelOnly e (retOp e)) s)

/-! ### Control registers (R270) -/

/-- The lowest privilege that may reach a CSR; none for a number that the engine does not have. -/
def csrPriv (e : Fin 9) (n : Nat) : Option Nat :=
  if n = 0 ∨ n = 0x0E then some 0
  else if n < 0x0E ∨ (0x10 ≤ n ∧ n < 0x14) then some 1
  else if (n = 0x20 ∨ n = 0x21) ∧ 8 ≤ e.val then some 2
  else none

/-- The value of a CSR. -/
def csrRead (e : Fin 9) (x : Eng) (n : Nat) : Word :=
  match n with
  | 0x000 => x.flg.setWidth 32
  | 0x001 => x.status.word
  | 0x002 => x.cause
  | 0x003 => x.badva
  | 0x004 => x.epc[0]
  | 0x005 => x.epc[1]
  | 0x006 => x.epc[2]
  | 0x007 => x.sstat[0]
  | 0x008 => x.sstat[1]
  | 0x009 => x.vbase
  | 0x00A => BitVec.ofNat 32 x.ctx.val
  | 0x00B => x.rsm[0]
  | 0x00C => x.rsm[1]
  | 0x00D => x.rsm[2]
  | 0x00E => BitVec.ofNat 32 e.val
  | 0x010 => x.scr[0]
  | 0x011 => x.scr[1]
  | 0x012 => x.scr[2]
  | 0x013 => x.scr[3]
  | 0x020 => x.epcm
  | _ => x.sstatm

/-- A CSR written: read-only fields keep their values. -/
def csrWrite (x : Eng) (n : Nat) (v : Word) : Eng :=
  match n with
  | 0x000 => x.setFlg (v.setWidth 16 &&& 0xFF3F#16)
  | 0x001 => { x with te := v.getLsbD 15, exc := v.getLsbD 14, ppriv := v.toNat / 2 ^ 10 % 4, ie2 := v.getLsbD 2, ie1 := v.getLsbD 1 }
  | 0x004 => { x with epc := x.epc.set 0 v }
  | 0x005 => { x with epc := x.epc.set 1 v }
  | 0x006 => { x with epc := x.epc.set 2 v }
  | 0x007 => { x with sstat := x.sstat.set 0 v }
  | 0x008 => { x with sstat := x.sstat.set 1 v }
  | 0x009 => { x with vbase := v &&& 0xFFFFF000#32 }
  | 0x00A => { x with ctx := Fin.ofNat 16 v.toNat }
  | 0x00B => { x with rsm := x.rsm.set 0 v }
  | 0x00C => { x with rsm := x.rsm.set 1 v }
  | 0x00D => { x with rsm := x.rsm.set 2 v }
  | 0x010 => { x with scr := x.scr.set 0 v }
  | 0x011 => { x with scr := x.scr.set 1 v }
  | 0x012 => { x with scr := x.scr.set 2 v }
  | 0x013 => { x with scr := x.scr.set 3 v }
  | 0x020 => { x with epcm := v }
  | 0x021 => { x with sstatm := v }
  | _ => x

/-- The checks on a CSR access: code 1 for an undefined number, code 2 below its privilege. -/
def csrOp (e : Fin 9) (n : Nat) (act : State → State) (s : State) : State :=
  match csrPriv e n with
  | none => illegal e s
  | some p => if s.eng[e].priv < p then takeExc e 2 0 none s.eng[e].pc false s else act s

/-- MFC. -/
def execMfc (e : Fin 9) (rd : Fin 32) (csr : BitVec 10) (s : State) : Host.Outcome State Fault Refusal :=
  .next (engStep e (csrOp e csr.toNat (fun s => retire e [(0, .g rd (csrRead e s.eng[e] csr.toNat))] id s)) s)

/-- MTC. -/
def execMtc (e : Fin 9) (rd : Fin 32) (csr : BitVec 10) (s : State) : Host.Outcome State Fault Refusal :=
  .next (engStep e (csrOp e csr.toNat (fun s => retire e [] (fun x => csrWrite x csr.toNat (x.getG rd)) s)) s)

/-! ### WAIT (R262, R350) -/

/-- A WAIT without an entry: rd := 2, and the engine idles until an interrupt is taken. -/
def waitIdle (e : Fin 9) (rd : Fin 32) (s : State) : State :=
  let s := retire e [(0, .g rd 2#32)] id s
  s.setEng e { s.eng[e] with wait := some .idle }

/-- WAIT: an entry that the mode bits request starts, or is refused with rd = 1; without one the engine idles. -/
def waitOp (e : Fin 9) (rd : Fin 32) (s : State) : State :=
  if h : e.val < 8 then
    let k : Fin 8 := ⟨e.val, h⟩
    if s.htgt k = 0 then waitIdle e rd s
    else
      let x := enterHamlet k (s.htgt k) s
      if x.2 then x.1.setEng e { x.1.eng[e] with wait := some (.power rd) } else retire e [(0, .g rd 1#32)] id x.1
  else
    let d := s.get Fld.PWR_MODE_DEV
    if d = 1 ∨ d = 2 then
      let x := enterDevice d s
      if x.2 then x.1 else retire e [(0, .g rd 1#32)] id (restartRound ((s.deviceVote (d == 2)).getD 0) x.1)
    else waitIdle e rd s

/-- WAIT. -/
def execWait (e : Fin 9) (rd : Fin 32) (s : State) : Host.Outcome State Fault Refusal :=
  .next (engStep e (kernelOnly e (waitOp e rd)) s)

/-! ### The TLB (R273) -/

/-- Invalidates the entries that `p` marks, once every earlier store is visible to the walker (R273). -/
def tlbOp (e : Fin 9) (p : TlbEnt → Bool) (s : State) : State :=
  if s.storesWait e then s else retire e [] (fun x => { x with tlb := x.tlb.map fun o => match o with | some t => if p t then none else some t | none => none }) s

/-- TLBI. -/
def execTlbi (e : Fin 9) (ra rb : Fin 32) (s : State) : Host.Outcome State Fault Refusal :=
  .next (engStep e (kernelOnly e (fun s =>
    let x := s.eng[e]
    tlbOp e (fun t => t.matches ((x.getG ra).toNat / 4096) ((x.getG rb).toNat % 256)) s)) s)

/-- TLBIA. -/
def execTlbia (e : Fin 9) (ra : Fin 32) (s : State) : Host.Outcome State Fault Refusal :=
  .next (engStep e (kernelOnly e (fun s =>
    tlbOp e (fun t => !bitOf t.low 5 && t.asid == (s.eng[e].getG ra).toNat) s)) s)

/-- TLBIALL. -/
def execTlbiall (e : Fin 9) (s : State) : Host.Outcome State Fault Refusal :=
  .next (engStep e (kernelOnly e (tlbOp e fun _ => true)) s)

/-! ### Interrupt entry (R267) -/

/-- The entry of level `l`: writes drain into the interrupted bank, EPC and SSTAT take the PC and STATUS, the level's bank becomes current. -/
def Eng.enterIrq (x : Eng) (e l : Nat) (hl : l = 1 ∨ l = 2) : Eng :=
  let x := x.drain
  { x with
    epc := x.epc.set l (BitVec.ofNat 32 x.pc) (by omega)
    sstat := x.sstat.set (l - 1) x.status.word (by omega)
    lvl := ⟨l, by omega⟩
    priv := if e < 8 then 1 else 2
    wait := none
    pc := (x.vbase.toNat + 0x100 * l) % 2 ^ 32 }

/-- May an interrupt of level `l` be taken at this boundary: ready, no slot next, no delay window open outside a wait, not in a power state? -/
def State.irqTaken (s : State) (e : Fin 9) (l : Nat) : Bool :=
  let x := s.eng[e]
  x.state == 1 && s.irqReady e l && x.slot.isNone && x.quiet && (match x.wait with | some (.power _) => false | _ => true)

/-- INTERRUPT_ENTRY (R267). -/
def execInterruptEntry (e : Fin 9) (urgent : Bool) (s : State) : Host.Outcome State Fault Refusal :=
  .next (if urgent then (if s.irqTaken e 2 then settle e (s.setEng e (s.eng[e].enterIrq e.val 2 (by omega))) else s)
    else (if s.irqTaken e 1 then settle e (s.setEng e (s.eng[e].enterIrq e.val 1 (by omega))) else s))

/-! ### Start and stop (R275) -/

/-- ENG_RUN (R275): a write of RUN. -/
def execEngRun (r : Req) (h : Fin 8) (v : Word) (s : State) : Host.Outcome State Fault Refusal :=
  .next (regCmd r (hamletBase h + Reg.ENG_CTRL) (v ||| 1#32) (engCtrlWrite r h (v ||| 1#32)) s)

/-- ENG_HALT (R275): a write of HALT. -/
def execEngHalt (r : Req) (h : Fin 8) (v : Word) (s : State) : Host.Outcome State Fault Refusal :=
  .next (regCmd r (hamletBase h + Reg.ENG_CTRL) (v ||| 2#32) (engCtrlWrite r h (v ||| 2#32)) s)

end Sys2Proof.Machine
end

