-- ==== Sys2Proof/Machine/Control.lean ====
section
/-!
DEFINITION. The register bridge's own commands (R8, R49), and what needs the whole register map: the ready instant of a hamlet's wake (R354 to R356) and the end
of a built-in self-test (R412, R413).
-/

namespace Sys2Proof.Machine

/-! ### Registers (R8, R49) -/

/-- REGISTER_WRITE (R8). -/
def execRegisterWrite (r : Req) (a : Nat) (v : Word) (s : State) : Host.Outcome State Fault Refusal :=
  .next (regCmd r a v (fun s => thawed a (regWrite r a v s)) s)

/-- ARB_FREEZE (R292): a write of `ARB_CTRL`; what FREEZE held goes on when it clears. -/
def execArbFreeze (r : Req) (h : Fin 8) (v : Word) (s : State) : Host.Outcome State Fault Refusal :=
  .next (regCmd r (hamletBase h + Reg.ARB_CTRL) v (fun s => thawed (hamletBase h + Reg.ARB_CTRL) (freezeWrite r h v s)) s)

/-- BFM_COPY_DONE (R65, R67): the slice holds the committed entries, BUSY clears, DONE is set, 0xFFF0 is posted, and the writes that waited at the arbiter are performed. While
FREEZE is 1, or the repair unit copies a row of the slice, the copy goes no further (R283, R292). -/
def execBfmCopyDone (h : Fin 8) (s : State) : Host.Outcome State Fault Refusal :=
  .next (if s.copyWaits h then s else match s.bfm[h].copying with
    | none => s
    | some p => releaseWaiting h (endBeamCopy h p s))

/-- ROW_REMAP (R283, R284): the copy ends; the writes to the row that waited are performed. -/
def execRowRemap (k : Fin 10) (s : State) : Host.Outcome State Fault Refusal :=
  .next (let t := endCopy k s
    let t := if hk : k.val < 8 then drainFifo ⟨k.val, hk⟩ (releaseWaiting ⟨k.val, hk⟩ t) else t
    releaseVectors t.rtc.held t)

/-- COUNTER_READ_CLEAR (R8): `events` is what the counter counted in the same access. -/
def execCounterReadClear (r : Req) (a events : Nat) (s : State) : Host.Outcome State Fault Refusal :=
  .next (readCmd r a (regRead r a events) s)

/-- The LOCK register of the block that holds an address (R48). -/
def lockAddr (a : Nat) : Nat := a / 0x10000 * 0x10000 + 0xFFFC

/-- BLOCK_LOCK (R49): a write of LOCK. -/
def execBlockLock (r : Req) (a : Nat) (v : Word) (s : State) : Host.Outcome State Fault Refusal :=
  .next (regCmd r (lockAddr a) (v ||| 1#32) (lockRegWrite r (lockAddr a) (v ||| 1#32)) s)

/-! ### The restore list (R356) -/

/-- The Reeve as a requester in machine mode. -/
abbrev reeveReq : Req := ⟨16, 2⟩

/-- The list ends early at entry `k`: RSTERR, notice 0x436. -/
def restoreEnds (h : Fin 8) (k : Nat) (s : State) : State := (s.setBit Fld.PWR_STAT_RSTERR h.val).raise 0x436 h.val k

/-- Whether a write was done, beside the state after it. -/
def writeDone : BusRes × State → Bool × State
  | (.data _, s) => (true, s)
  | (_, s) => (false, s)

/-- Entry `k` of the list, a Reeve write; false where the offset is bad, the write is answered with an error or the entry cannot be read. -/
def restoreEntry (h : Fin 8) (base k : Nat) (s : State) : Bool × State :=
  let a := base + 8 * k
  let x := s.checkRead 16 false a 8
  let off := (x.1.memLE a 4) % 2 ^ 24
  if x.2 || !inRegs (hamletBase h + off) then (false, x.1)
  else writeDone (busWrite reeveReq (hamletBase h + off) 2 (x.1.memLE (a + 4) 4) x.1)

/-- The entries of the list from entry `k` on; one that cannot be applied ends it. -/
def restoreFrom (h : Fin 8) (base : Nat) : Nat → Nat → State → State
  | 0, _, s => s
  | n + 1, k, s =>
    let y := restoreEntry h base k s
    if y.1 then restoreFrom h base n (k + 1) y.2 else restoreEnds h k y.2

/-- The restore list of hamlet `h` is applied under FREEZE, which then clears. -/
def restoreList (h : Fin 8) (s : State) : State :=
  let t := (restoreFrom h (s.get (Fld.PWR_HRSTh_ADDR.i h) * 256) (s.get (Fld.PWR_HRSTh_COUNT.i h)) 0
    ((s.freeze h).put (Fld.ARB_STAT_DRAINED.h h) 1)).thaw h
  releaseVectors t.rtc.held t

/-! ### A wake becomes ready (R354, R355) -/

/-- The wake from RETAIN: registers and store are accessible, the engine goes on after its WAIT, the PLL acquires if it was locked. -/
def wakeRetained (h : Fin 8) (s : State) : State :=
  let locked := s.hpow[h].locked
  let s := endPowerWait (hEng h) 0#32 (ownedLevels h (domainUp h s))
  wakeReady h (if locked then startAcq h s else s)

/-- The wake from OFF, up to the start of the acquisition with the restored band table. -/
def wakeRestore (h : Fin 8) (s : State) : State :=
  let s := biasDomain h true (darkHamlet h (domainUp h s))
  startAcq h ((restoreList h s).put (Fld.PLL_CTRL_EN.h h) 1)

/-- The wake from OFF after its restore: ready when lock is declared; a PLL that does not acquire leaves the wake to its 2 ms (R357). -/
def wakeAtLock (h : Fin 8) (w : Option Nat) (s : State) : State :=
  match s.pll[h].acqDue with
  | none => ((s.put (Fld.PWR_HSTATE_BUSY.sub h) 1).setHstate h 0).setHpow h { s.hpow[h] with wakeAt := w }
  | some _ =>
    let s := endAcq h (s.put (Fld.PLL_STAT_LOCK.h h) 1)
    wakeReady h (s.setPll h { s.pll[h] with tries := 0, alignDue := some (nextMult (s.now + 2 * usU) msU) })

/-- The wake from OFF (R354, R357). -/
def wakeFromOff (h : Fin 8) (s : State) : State := wakeAtLock h s.hpow[h].wakeAt (wakeRestore h s)

/-- HAMLET_WAKE_READY (R355): at `t`, within 2 ms of the wake. -/
def execHamletWakeReady (h : Fin 8) (t : Nat) (s : State) : Host.Outcome State Fault Refusal :=
  .next (match s.hpow[h].wakeAt with
    | none => s
    | some w =>
      let s := s.at (min t (w + 2 * msU))
      if s.hstate h = 1 then wakeRetained h s else wakeFromOff h s)

/-! ### The end of a built-in self-test (R412, R413) -/

/-- Has the test that ends failed or been stopped? -/
def State.bistBad (s : State) : Bool := s.flag Fld.BIST_STAT_LFAIL || s.flag Fld.BIST_STAT_MFAIL || s.bist.stopped

/-- BUSY, PHASE and GO clear. -/
def bistIdle (s : State) : State :=
  let s := ((s.put Fld.BIST_STAT_BUSY 0).put Fld.BIST_STAT_PHASE 0).put Fld.BIST_CMD_GO 0
  s.setBist { s.bist with target := none }

/-- A hamlet test ends (R412): hamlet reset, the restore list, FREEZE clear, then the interrupt; a test that did not pass isolates the hamlet. -/
def bistHamletEnd (h : Fin 8) (s : State) : State :=
  let s := hamletReset h (s.setBist { s.bist with target := none })
  let s := bistIdle (restoreList h s)
  let bad := s.bistBad
  let s := s.setBist { s.bist with irq := true }
  if bad then s.raise 0x437 h.val (s.rd Reg.BIST_STAT).toNat else s

/-- The test of the Reeve ends (R413): the request clears; a passed test lets the boot go on, a failed one starts no firmware and is recorded. -/
def bistReeveEnd (s : State) : State :=
  let s := bistIdle (s.wrAll bistRet (List.replicate 8 0#32))
  if s.bistBad then { s.wr (bistRet + 4) (s.rd Reg.BIST_STAT) with flt := { s.flt with reeveBist := true } } else bootCount s

/-- BIST_END (R412, R413): the ending of a test that has run its phases or was stopped. -/
def execBistEnd (t : Nat) (s : State) : Host.Outcome State Fault Refusal :=
  .next (if s.get Fld.BIST_STAT_PHASE ≠ 4 then s
    else
      let s := s.at t
      match s.bist.target with
      | none => bistIdle s
      | some k => if k < 8 then bistHamletEnd (Fin.ofNat 8 k) s else bistReeveEnd s)

end Sys2Proof.Machine
end

