-- ==== Sys2Proof/Machine/LoadStore.lean ====
section
/-!
DEFINITION. Loads, stores and the address registers of the engines (R242, R247, R249 to R253, R256).
-/

namespace Sys2Proof.Machine

/-- The second register of a pair (R242). -/
def pairOf (r : Fin 32) : Fin 32 := Fin.ofNat 32 (r.val + 1)

/-- The address of a load or store (R249): none for an encoding that is illegal (a non-zero field that must be zero with AM = 1). IMM14 is read as signed. -/
def Eng.memAddr (x : Eng) (an : Fin 8) (am sz : Fin 4) (imm : BitVec 14) : Option Nat :=
  let size := 2 ^ sz.val
  if am.val = 0 then some (((x.getA an).toNat + imm.toInt * (size : Nat)) % 2 ^ 32).toNat
  else if am.val = 1 then
    if imm.toNat % 512 ≠ 0 then none
    else some (((x.getA an).toNat + (x.getG (Fin.ofNat 32 (imm.toNat / 512))).toNat * size) % 2 ^ 32)
  else some (x.getA an).toNat

/-- The address register after the access (R249, R253). -/
def Eng.afterAccess (x : Eng) (an : Fin 8) (am : Fin 4) : Eng :=
  if am.val = 2 then x.postMod an false else if am.val = 3 then x.postMod an true else x

/-- Is a load or store illegal (R242, R248)? -/
def memIllegal (x : Eng) (rt : Fin 32) (an : Fin 8) (am sz : Fin 4) (imm : BitVec 14) : Bool :=
  (sz.val == 3 && rt.val % 2 == 1) || (x.memAddr an am sz imm).isNone

/-- The register writes of a load (R252: delay 2): 8 and 16 bits extended, 64 bits into a pair. -/
def loadWrites (rt : Fin 32) (sz : Fin 4) (sext : Bool) (v : Nat) : List (Nat × EngWrite) :=
  let n := 8 * 2 ^ sz.val
  if sz.val = 3 then [(2, .g rt (BitVec.ofNat 32 v)), (2, .g (pairOf rt) (BitVec.ofNat 32 (v / 2 ^ 32)))]
  else [(2, .g rt (if sext then BitVec.ofInt 32 (signed n v) else BitVec.ofNat 32 (v % 2 ^ n)))]

/-- A load: nothing changes where it is illegal, faults or has to wait. -/
def loadOp (e : Fin 9) (rt : Fin 32) (an : Fin 8) (am sz : Fin 4) (imm : BitVec 14) (sext : Bool) (s : State) : State :=
  let x := s.eng[e]
  if memIllegal x rt an am sz imm then illegal e s
  else match engRead e x.status 1 ((x.memAddr an am sz imm).getD 0) sz.val s with
    | (.ok v, s) => retire e (loadWrites rt sz sext v) (fun x => x.afterAccess an am) s
    | (.exc c i b, s) => accessExc e c i b s
    | (.stall, s) => s

/-- The value that a store writes. -/
def Eng.storeVal (x : Eng) (rt : Fin 32) (sz : Fin 4) : Nat :=
  if sz.val = 3 then (x.getG rt).toNat + (x.getG (pairOf rt)).toNat * 2 ^ 32 else (x.getG rt).toNat % 2 ^ (8 * 2 ^ sz.val)

/-- LD (R249, R256). -/
def execLd (e : Fin 9) (rt : Fin 32) (an : Fin 8) (am sz : Fin 4) (imm : BitVec 14) (s : State) : Host.Outcome State Fault Refusal :=
  .next (engStep e (loadOp e rt an am sz imm true) s)

/-- LDU: as LD, zero-extended. -/
def execLdu (e : Fin 9) (rt : Fin 32) (an : Fin 8) (am sz : Fin 4) (imm : BitVec 14) (s : State) : Host.Outcome State Fault Refusal :=
  .next (engStep e (loadOp e rt an am sz imm false) s)

/-- A store (R249, R264). -/
def storeOp (e : Fin 9) (rt : Fin 32) (an : Fin 8) (am sz : Fin 4) (imm : BitVec 14) (s : State) : State :=
  let x := s.eng[e]
  if memIllegal x rt an am sz imm then illegal e s
  else match engStore e x.status ((x.memAddr an am sz imm).getD 0) sz.val (x.storeVal rt sz) s with
    | (.ok _, s) => retire e [] (fun x => x.afterAccess an am) s
    | (.exc c i b, s) => accessExc e c i b s
    | (.stall, s) => s

/-- ST (R249, R264). -/
def execSt (e : Fin 9) (rt : Fin 32) (an : Fin 8) (am sz : Fin 4) (imm : BitVec 14) (s : State) : Host.Outcome State Fault Refusal :=
  .next (engStep e (storeOp e rt an am sz imm) s)

/-- The register class that SEL names; none for SEL = 3, which is illegal (R247, R248). -/
def selOf (sel : Fin 4) : Option (Fin 3) := if h : sel.val < 3 then some ⟨sel.val, h⟩ else none

/-- SETA: x_n := ra + imm, delay 1. -/
def execSeta (e : Fin 9) (an : Fin 8) (sel : Fin 4) (ra : Fin 32) (imm : BitVec 16) (s : State) : Host.Outcome State Fault Refusal :=
  .next (engStep e (fun s => match selOf sel with
    | none => illegal e s
    | some k => retire e [(1, .x k an (s.eng[e].getG ra + imm.signExtend 32))] id s) s)

/-- GETA: rd := x_n; illegal unless imm is 0. -/
def execGeta (e : Fin 9) (an : Fin 8) (sel : Fin 4) (rd : Fin 32) (imm : BitVec 16) (s : State) : Host.Outcome State Fault Refusal :=
  .next (engStep e (fun s => match selOf sel with
    | none => illegal e s
    | some k => if imm ≠ 0#16 then illegal e s else retire e [(0, .g rd (s.eng[e].getX k an))] id s) s)

/-- ADDA: x_n := x_n + imm, delay 1; illegal unless its ra field is 0. -/
def execAdda (e : Fin 9) (an : Fin 8) (sel : Fin 4) (ra : Fin 32) (imm : BitVec 16) (s : State) : Host.Outcome State Fault Refusal :=
  .next (engStep e (fun s => match selOf sel with
    | none => illegal e s
    | some k => if ra.val ≠ 0 then illegal e s else retire e [(1, .x k an (s.eng[e].getX k an + imm.signExtend 32))] id s) s)

end Sys2Proof.Machine
end

