-- ==== Sys2Proof/Machine/TestPort.lean ====
section
/-!
DEFINITION. The IEEE 1149.1 test access port (R504).
-/

namespace Sys2Proof.Machine

/-- A boundary register's values as one number, its first cell in bit 0. -/
def scanOut (l : List Bool) : Nat := l.foldr (fun b n => n * 2 + b2n b) 0

/-- TEST_ACCESS_PORT_OPERATION (R504): `op` 0 IDCODE; 1 SAMPLE; 2 PRELOAD; 3 EXTEST; 4 EXTEST_PULSE; 5 EXTEST_TRAIN; 6 test-logic reset. `cells` are the boundary
cells written, `seen` the levels captured at the balls. The port needs VDD_IO, VDD_CORE_IN and VDD_LINK. -/
def execTestAccessPortOperation (op : Fin 7) (cells : List (Nat × Bool)) (seen : List Bool) (s : State) : Host.Outcome State Fault Refusal :=
  .next (if Nat.land s.pow.rails 0x29 != 0 then s
    else
      let s : State := { s with tap := { s.tap with ir := if op = 6 then 0 else op.val } }
      match op with
      | 0 => s.emit (.tdo 0x16480B47)
      | 1 => s.emit (.tdo (scanOut seen))
      | 2 => { s with tap := { s.tap with bsr := cells } }
      | 3 => State.emit { s with tap := { s.tap with bsr := cells, ext := true } } (.tdo (scanOut seen))
      | 4 => State.emit { s with tap := { s.tap with bsr := cells, ext := true } } (.lane 4 (cells.map fun c => 2 * c.1 + b2n c.2))
      | 5 => State.emit { s with tap := { s.tap with bsr := cells, ext := true } } (.lane 5 (cells.map fun c => 2 * c.1 + b2n c.2))
      | _ => { s with tap := { s.tap with ext := false } })

end Sys2Proof.Machine
end

