-- ==== Sys2Proof/Machine/Dispatch.lean ====
section
/-!
DEFINITION. The dispatch: one arm for each command, a direct call of its meaning.
-/

namespace Sys2Proof.Machine

def exec (i : Instr) (s : State) : Host.Outcome State Fault Refusal :=
  match i with
  | .registerWrite r a v => Sys2Proof.Machine.execRegisterWrite r a v s
  | .counterReadClear r a events => Sys2Proof.Machine.execCounterReadClear r a events s
  | .blockLock r a v => Sys2Proof.Machine.execBlockLock r a v s
  | .carrierCommitGo r v => Sys2Proof.Machine.execCarrierCommitGo r v s
  | .carrierCommitTakeEffect => Sys2Proof.Machine.execCarrierCommitTakeEffect s
  | .rtcMessage m words t => Sys2Proof.Machine.execRtcMessage m words t s
  | .explicitWeightMessage m words t => Sys2Proof.Machine.execExplicitWeightMessage m words t s
  | .weightBankClear bank => Sys2Proof.Machine.execWeightBankClear bank s
  | .weightRefcarChange => Sys2Proof.Machine.execWeightRefcarChange s
  | .bfmCommitGo r h v => Sys2Proof.Machine.execBfmCommitGo r h v s
  | .bfmCommitInstant h => Sys2Proof.Machine.execBfmCommitInstant h s
  | .bfmCopyDone h => Sys2Proof.Machine.execBfmCopyDone h s
  | .bfmBasesTakeEffect h => Sys2Proof.Machine.execBfmBasesTakeEffect h s
  | .hmaskWrite r v => Sys2Proof.Machine.execHmaskWrite r v s
  | .hamletRejoin h => Sys2Proof.Machine.execHamletRejoin h s
  | .slotTableCommit r h v => Sys2Proof.Machine.execSlotTableCommit r h v s
  | .slotTableCheckEnd h => Sys2Proof.Machine.execSlotTableCheckEnd h s
  | .slotTableSwap h => Sys2Proof.Machine.execSlotTableSwap h s
  | .slotEntryLatch h late => Sys2Proof.Machine.execSlotEntryLatch h late s
  | .slotActionPins h => Sys2Proof.Machine.execSlotActionPins h s
  | .slotActionOrxTrigger h => Sys2Proof.Machine.execSlotActionOrxTrigger h s
  | .slotActionEngineEvent h => Sys2Proof.Machine.execSlotActionEngineEvent h s
  | .gainStatePins h => Sys2Proof.Machine.execGainStatePins h s
  | .sltEditGo r h v => Sys2Proof.Machine.execSltEditGo r h v s
  | .sltEditCopy h => Sys2Proof.Machine.execSltEditCopy h s
  | .sltEnableTakeEffect h => Sys2Proof.Machine.execSltEnableTakeEffect h s
  | .fepClaim r h v => Sys2Proof.Machine.execFepClaim r h v s
  | .fepRelease r h v => Sys2Proof.Machine.execFepRelease r h v s
  | .fepSafeWrite r h v => Sys2Proof.Machine.execFepSafeWrite r h v s
  | .fepGpioWrite r h v => Sys2Proof.Machine.execFepGpioWrite r h v s
  | .dlIqMessage m words t => Sys2Proof.Machine.execDlIqMessage m words t s
  | .dlDataDeadline car x sym => Sys2Proof.Machine.execDlDataDeadline car x sym s
  | .txFilterSwapRequest r h v => Sys2Proof.Machine.execTxFilterSwapRequest r h v s
  | .filterSwap rx h n => Sys2Proof.Machine.execFilterSwap rx h n s
  | .filterSwapFallback rx h n => Sys2Proof.Machine.execFilterSwapFallback rx h n s
  | .rxFilterSwapRequest r h v => Sys2Proof.Machine.execRxFilterSwapRequest r h v s
  | .cfrSwapRequest r h v => Sys2Proof.Machine.execCfrSwapRequest r h v s
  | .cfrPulseSwap h late => Sys2Proof.Machine.execCfrPulseSwap h late s
  | .dpdSwapRequest r h k v => Sys2Proof.Machine.execDpdSwapRequest r h k v s
  | .dpdFadeStart h k late => Sys2Proof.Machine.execDpdFadeStart h k late s
  | .dpdFadeEnd h k => Sys2Proof.Machine.execDpdFadeEnd h k s
  | .halfSubframeSettings h => Sys2Proof.Machine.execHalfSubframeSettings h s
  | .muteRampStart h k => Sys2Proof.Machine.execMuteRampStart h k s
  | .muteRampEnd h k => Sys2Proof.Machine.execMuteRampEnd h k s
  | .safetyRamp h t => Sys2Proof.Machine.execSafetyRamp h t s
  | .safetyRampEnd h => Sys2Proof.Machine.execSafetyRampEnd h s
  | .dacClockGate h => Sys2Proof.Machine.execDacClockGate h s
  | .txDataResume h => Sys2Proof.Machine.execTxDataResume h s
  | .rxContributionResume h => Sys2Proof.Machine.execRxContributionResume h s
  | .rxOverrange h k t0 n peak => Sys2Proof.Machine.execRxOverrange h k t0 n peak s
  | .ulCombine car y u => Sys2Proof.Machine.execUlCombine car y u s
  | .prachOccasionStart j frame => Sys2Proof.Machine.execPrachOccasionStart j frame s
  | .prachOccasionEnd x u => Sys2Proof.Machine.execPrachOccasionEnd x u s
  | .prachSettingsTakeEffect => Sys2Proof.Machine.execPrachSettingsTakeEffect s
  | .orxClaim r h v => Sys2Proof.Machine.execOrxClaim r h v s
  | .orxRelease r h v => Sys2Proof.Machine.execOrxRelease r h v s
  | .orxReady h t => Sys2Proof.Machine.execOrxReady h t s
  | .orxNcoWrite r h v => Sys2Proof.Machine.execOrxNcoWrite r h v s
  | .orxTriggerGo r h v => Sys2Proof.Machine.execOrxTriggerGo r h v s
  | .orxStop r h v => Sys2Proof.Machine.execOrxStop r h v s
  | .captureTrigger h => Sys2Proof.Machine.execCaptureTrigger h s
  | .captureSettled h => Sys2Proof.Machine.execCaptureSettled h s
  | .captureGroup h first adc => Sys2Proof.Machine.execCaptureGroup h first adc s
  | .deepFlowResume h => Sys2Proof.Machine.execDeepFlowResume h s
  | .captureEnd h fifoFull => Sys2Proof.Machine.execCaptureEnd h fifoFull s
  | .captureRecordNext r h v => Sys2Proof.Machine.execCaptureRecordNext r h v s
  | .orxClip h n => Sys2Proof.Machine.execOrxClip h n s
  | .deepFlowMessage h => Sys2Proof.Machine.execDeepFlowMessage h s
  | .linkEnable r v => Sys2Proof.Machine.execLinkEnable r v s
  | .linkRetrain r v => Sys2Proof.Machine.execLinkRetrain r v s
  | .trainingFrame p f t => Sys2Proof.Machine.execTrainingFrame p f t s
  | .trainingPhaseTimeout p t => Sys2Proof.Machine.execTrainingPhaseTimeout p t s
  | .trainingComplete tx skew t => Sys2Proof.Machine.execTrainingComplete tx skew t s
  | .trainingRetry => Sys2Proof.Machine.execTrainingRetry s
  | .codewordReceived low d8 t => Sys2Proof.Machine.execCodewordReceived low d8 t s
  | .replayTimeout => Sys2Proof.Machine.execReplayTimeout s
  | .codewordTransmit => Sys2Proof.Machine.execCodewordTransmit s
  | .lmSubstituteDataLane arg tgt => Sys2Proof.Machine.execLmSubstituteDataLane arg tgt s
  | .lmSubstitutionDone arg => Sys2Proof.Machine.execLmSubstitutionDone arg s
  | .lmSubstituteClockLane arg => Sys2Proof.Machine.execLmSubstituteClockLane arg s
  | .lmRetrain => Sys2Proof.Machine.execLmRetrain s
  | .lmL1Request tgt => Sys2Proof.Machine.execLmL1Request tgt s
  | .lmL1Accept tgt => Sys2Proof.Machine.execLmL1Accept tgt s
  | .lmL1Refuse => Sys2Proof.Machine.execLmL1Refuse s
  | .l1Entry => Sys2Proof.Machine.execL1Entry s
  | .l1Exit t => Sys2Proof.Machine.execL1Exit t s
  | .l2ClockDetect t => Sys2Proof.Machine.execL2ClockDetect t s
  | .laneFailure p t => Sys2Proof.Machine.execLaneFailure p t s
  | .clockLaneFailure t => Sys2Proof.Machine.execClockLaneFailure t s
  | .substitutionSwitch tx => Sys2Proof.Machine.execSubstitutionSwitch tx s
  | .substitutionTimeout => Sys2Proof.Machine.execSubstitutionTimeout s
  | .linkSilenceTimeout => Sys2Proof.Machine.execLinkSilenceTimeout s
  | .genericDataMessage m payload => Sys2Proof.Machine.execGenericDataMessage m payload s
  | .oneWayDelayMessage m id action t => Sys2Proof.Machine.execOneWayDelayMessage m id action t s
  | .ptpMessageRx bytes t => Sys2Proof.Machine.execPtpMessageRx bytes t s
  | .l0MessageTx => Sys2Proof.Machine.execL0MessageTx s
  | .remoteResetRequest m id op vendor => Sys2Proof.Machine.execRemoteResetRequest m id op vendor s
  | .remoteResetExecute => Sys2Proof.Machine.execRemoteResetExecute s
  | .eventAck m id => Sys2Proof.Machine.execEventAck m id s
  | .eventSyncRequest m id => Sys2Proof.Machine.execEventSyncRequest m id s
  | .eventIndicationResend => Sys2Proof.Machine.execEventIndicationResend s
  | .rmaRequest m id op low elem addr len data => Sys2Proof.Machine.execRmaRequest m id op low elem addr len data s
  | .laniedPllLossOfLock => Sys2Proof.Machine.execLaniedPllLossOfLock s
  | .laniedPllLock t => Sys2Proof.Machine.execLaniedPllLock t s
  | .timNowRead r => Sys2Proof.Machine.execTimNowRead r s
  | .fnoffTakeEffect => Sys2Proof.Machine.execFnoffTakeEffect s
  | .timUtcWrite r v => Sys2Proof.Machine.execTimUtcWrite r v s
  | .utcOffsetChange => Sys2Proof.Machine.execUtcOffsetChange s
  | .ppsEdge t => Sys2Proof.Machine.execPpsEdge t s
  | .mgpFrameRx header body crc t => Sys2Proof.Machine.execMgpFrameRx header body crc t s
  | .mgpFrameTx t => Sys2Proof.Machine.execMgpFrameTx t s
  | .mgpLinkChange link refok => Sys2Proof.Machine.execMgpLinkChange link refok s
  | .sourceStale n => Sys2Proof.Machine.execSourceStale n s
  | .measurementCommit r v => Sys2Proof.Machine.execMeasurementCommit r v s
  | .timeStep => Sys2Proof.Machine.execTimeStep s
  | .vcxoEnable r v => Sys2Proof.Machine.execVcxoEnable r v s
  | .schedActionQueued h => Sys2Proof.Machine.execSchedActionQueued h s
  | .eventActionPins h => Sys2Proof.Machine.execEventActionPins h s
  | .eventActionOrxTrigger h => Sys2Proof.Machine.execEventActionOrxTrigger h s
  | .eventActionEngineEvent h => Sys2Proof.Machine.execEventActionEngineEvent h s
  | .eventActionDmaTrigger h => Sys2Proof.Machine.execEventActionDmaTrigger h s
  | .evtTimerWrite r h n per v => Sys2Proof.Machine.execEvtTimerWrite r h n per v s
  | .eventTimerFire h n => Sys2Proof.Machine.execEventTimerFire h n s
  | .engEvqRead r h => Sys2Proof.Machine.execEngEvqRead r h s
  | .sysEvqRead r => Sys2Proof.Machine.execSysEvqRead r s
  | .calendarCompensation t => Sys2Proof.Machine.execCalendarCompensation t s
  | .calendarOscFail t => Sys2Proof.Machine.execCalendarOscFail t s
  | .calendarSyncWrite r v => Sys2Proof.Machine.execCalendarSyncWrite r v s
  | .calendarLoad => Sys2Proof.Machine.execCalendarLoad s
  | .tallyWindow up body crc => Sys2Proof.Machine.execTallyWindow up body crc s
  | .hopDelayAverage trips => Sys2Proof.Machine.execHopDelayAverage trips s
  | .syncoutPulse => Sys2Proof.Machine.execSyncoutPulse s
  | .tallySyncEdge t time => Sys2Proof.Machine.execTallySyncEdge t time s
  | .followerSlew => Sys2Proof.Machine.execFollowerSlew s
  | .tlyEnum r => Sys2Proof.Machine.execTlyEnum r s
  | .tlyEnumf r => Sys2Proof.Machine.execTlyEnumf r s
  | .tlyMute r => Sys2Proof.Machine.execTlyMute r s
  | .tlyCommit r => Sys2Proof.Machine.execTlyCommit r s
  | .tlyStepauth r => Sys2Proof.Machine.execTlyStepauth r s
  | .tallyCommandReceived c sec ns => Sys2Proof.Machine.execTallyCommandReceived c sec ns s
  | .tallyCommandTarget => Sys2Proof.Machine.execTallyCommandTarget s
  | .fanoutReceived f => Sys2Proof.Machine.execFanoutReceived f s
  | .enumToken next force => Sys2Proof.Machine.execEnumToken next force s
  | .enumLastTimeout => Sys2Proof.Machine.execEnumLastTimeout s
  | .census list => Sys2Proof.Machine.execCensus list s
  | .add e rd ra rb => Sys2Proof.Machine.execAdd e rd ra rb s
  | .sub e rd ra rb => Sys2Proof.Machine.execSub e rd ra rb s
  | .addc e rd ra rb => Sys2Proof.Machine.execAddc e rd ra rb s
  | .subc e rd ra rb => Sys2Proof.Machine.execSubc e rd ra rb s
  | .and e rd ra rb => Sys2Proof.Machine.execAnd e rd ra rb s
  | .or e rd ra rb => Sys2Proof.Machine.execOr e rd ra rb s
  | .xor e rd ra rb => Sys2Proof.Machine.execXor e rd ra rb s
  | .sll e rd ra rb => Sys2Proof.Machine.execSll e rd ra rb s
  | .srl e rd ra rb => Sys2Proof.Machine.execSrl e rd ra rb s
  | .sra e rd ra rb => Sys2Proof.Machine.execSra e rd ra rb s
  | .slli e rd ra rb => Sys2Proof.Machine.execSlli e rd ra rb s
  | .srli e rd ra rb => Sys2Proof.Machine.execSrli e rd ra rb s
  | .srai e rd ra rb => Sys2Proof.Machine.execSrai e rd ra rb s
  | .slt e rd ra rb => Sys2Proof.Machine.execSlt e rd ra rb s
  | .sltu e rd ra rb => Sys2Proof.Machine.execSltu e rd ra rb s
  | .mul e rd ra rb => Sys2Proof.Machine.execMul e rd ra rb s
  | .mulh e rd ra rb => Sys2Proof.Machine.execMulh e rd ra rb s
  | .mulhu e rd ra rb => Sys2Proof.Machine.execMulhu e rd ra rb s
  | .min e rd ra rb => Sys2Proof.Machine.execMin e rd ra rb s
  | .max e rd ra rb => Sys2Proof.Machine.execMax e rd ra rb s
  | .abs e rd ra => Sys2Proof.Machine.execAbs e rd ra s
  | .clz e rd ra => Sys2Proof.Machine.execClz e rd ra s
  | .jr e ra => Sys2Proof.Machine.execJr e ra s
  | .jalr e rd ra => Sys2Proof.Machine.execJalr e rd ra s
  | .addi e rd ra imm => Sys2Proof.Machine.execAddi e rd ra imm s
  | .slti e rd ra imm => Sys2Proof.Machine.execSlti e rd ra imm s
  | .andi e rd ra imm => Sys2Proof.Machine.execAndi e rd ra imm s
  | .ori e rd ra imm => Sys2Proof.Machine.execOri e rd ra imm s
  | .xori e rd ra imm => Sys2Proof.Machine.execXori e rd ra imm s
  | .lui e rd ra imm => Sys2Proof.Machine.execLui e rd ra imm s
  | .beq e ra rb off => Sys2Proof.Machine.execBeq e ra rb off s
  | .bne e ra rb off => Sys2Proof.Machine.execBne e ra rb off s
  | .blt e ra rb off => Sys2Proof.Machine.execBlt e ra rb off s
  | .bge e ra rb off => Sys2Proof.Machine.execBge e ra rb off s
  | .bltu e ra rb off => Sys2Proof.Machine.execBltu e ra rb off s
  | .bgeu e ra rb off => Sys2Proof.Machine.execBgeu e ra rb off s
  | .j e off => Sys2Proof.Machine.execJ e off s
  | .jal e off => Sys2Proof.Machine.execJal e off s
  | .ld e rt an am sz imm => Sys2Proof.Machine.execLd e rt an am sz imm s
  | .ldu e rt an am sz imm => Sys2Proof.Machine.execLdu e rt an am sz imm s
  | .st e rt an am sz imm => Sys2Proof.Machine.execSt e rt an am sz imm s
  | .seta e an sel ra imm => Sys2Proof.Machine.execSeta e an sel ra imm s
  | .geta e an sel rd imm => Sys2Proof.Machine.execGeta e an sel rd imm s
  | .adda e an sel ra imm => Sys2Proof.Machine.execAdda e an sel ra imm s
  | .cmac e acc ra rb => Sys2Proof.Machine.execCmac e acc ra rb s
  | .cmacc e acc ra rb => Sys2Proof.Machine.execCmacc e acc ra rb s
  | .dmac e acc ra rb => Sys2Proof.Machine.execDmac e acc ra rb s
  | .cmul e acc ra rb => Sys2Proof.Machine.execCmul e acc ra rb s
  | .clracc e acc => Sys2Proof.Machine.execClracc e acc s
  | .ext e acc sh rd => Sys2Proof.Machine.execExt e acc sh rd s
  | .extr e acc sh rd => Sys2Proof.Machine.execExtr e acc sh rd s
  | .mfacc e acc part rd => Sys2Proof.Machine.execMfacc e acc part rd s
  | .mtacc e acc part ra => Sys2Proof.Machine.execMtacc e acc part ra s
  | .smac e acc ax ay rc cut => Sys2Proof.Machine.execSmac e acc ax ay rc cut s
  | .smacc e acc ax ay rc cut => Sys2Proof.Machine.execSmacc e acc ax ay rc cut s
  | .smax e rd ax ay rc mode cut => Sys2Proof.Machine.execSmax e rd ax ay rc mode cut s
  | .smin e rd ax ay rc mode cut => Sys2Proof.Machine.execSmin e rd ax ay rc mode cut s
  | .rdt e rd => Sys2Proof.Machine.execRdt e rd s
  | .waitt e rd ra rb => Sys2Proof.Machine.execWaitt e rd ra rb s
  | .waittEnd e t => Sys2Proof.Machine.execWaittEnd e t s
  | .sched e rd ra rb => Sys2Proof.Machine.execSched e rd ra rb s
  | .fenceR e => Sys2Proof.Machine.execFenceR e s
  | .fenceW e => Sys2Proof.Machine.execFenceW e s
  | .fenceRw e => Sys2Proof.Machine.execFenceRw e s
  | .fenceIo e => Sys2Proof.Machine.execFenceIo e s
  | .fenceDma e => Sys2Proof.Machine.execFenceDma e s
  | .trap e rd ra imm => Sys2Proof.Machine.execTrap e rd ra imm s
  | .mtrap e => Sys2Proof.Machine.execMtrap e s
  | .brk e => Sys2Proof.Machine.execBrk e s
  | .ret e => Sys2Proof.Machine.execRet e s
  | .mfc e rd csr => Sys2Proof.Machine.execMfc e rd csr s
  | .mtc e rd csr => Sys2Proof.Machine.execMtc e rd csr s
  | .wait e rd => Sys2Proof.Machine.execWait e rd s
  | .tlbi e ra rb => Sys2Proof.Machine.execTlbi e ra rb s
  | .tlbia e ra => Sys2Proof.Machine.execTlbia e ra s
  | .tlbiall e => Sys2Proof.Machine.execTlbiall e s
  | .storeBusError e => Sys2Proof.Machine.execStoreBusError e s
  | .interruptEntry e urgent => Sys2Proof.Machine.execInterruptEntry e urgent s
  | .engRun r h v => Sys2Proof.Machine.execEngRun r h v s
  | .engHalt r h v => Sys2Proof.Machine.execEngHalt r h v s
  | .scrubGranule k => Sys2Proof.Machine.execScrubGranule k s
  | .rowRepair k => Sys2Proof.Machine.execRowRepair k s
  | .rowRemap k => Sys2Proof.Machine.execRowRemap k s
  | .stoRepairWrite r k n v => Sys2Proof.Machine.execStoRepairWrite r k n v s
  | .stoInjectArm r k v => Sys2Proof.Machine.execStoInjectArm r k v s
  | .arbFreeze r h v => Sys2Proof.Machine.execArbFreeze r h v s
  | .arbDrained h => Sys2Proof.Machine.execArbDrained h s
  | .arbFallbackEntry h t => Sys2Proof.Machine.execArbFallbackEntry h t s
  | .arbFallbackExit h t => Sys2Proof.Machine.execArbFallbackExit h t s
  | .lockAcquire r h n => Sys2Proof.Machine.execLockAcquire r h n s
  | .lockRelease r h n v => Sys2Proof.Machine.execLockRelease r h n v s
  | .lockFree r h v => Sys2Proof.Machine.execLockFree r h v s
  | .dmaGo r h c v => Sys2Proof.Machine.execDmaGo r h c v s
  | .dmaAbort r h c v => Sys2Proof.Machine.execDmaAbort r h c v s
  | .dmaResume r h c v => Sys2Proof.Machine.execDmaResume r h c v s
  | .dmaStrig r h c v => Sys2Proof.Machine.execDmaStrig r h c v s
  | .dmaStopall r h v => Sys2Proof.Machine.execDmaStopall r h v s
  | .dmaEdgeTrigger => Sys2Proof.Machine.execDmaEdgeTrigger s
  | .dmaRingRequest h c => Sys2Proof.Machine.execDmaRingRequest h c s
  | .dmaDescriptorFetch h c => Sys2Proof.Machine.execDmaDescriptorFetch h c s
  | .dmaTransfer h c write => Sys2Proof.Machine.execDmaTransfer h c write s
  | .dmaWriteError h c => Sys2Proof.Machine.execDmaWriteError h c s
  | .dmaDescriptorComplete h c => Sys2Proof.Machine.execDmaDescriptorComplete h c s
  | .refinLoss t => Sys2Proof.Machine.execRefinLoss t s
  | .refinRequalified t => Sys2Proof.Machine.execRefinRequalified t s
  | .pllAcq r h v => Sys2Proof.Machine.execPllAcq r h v s
  | .pllLockDeclared h t => Sys2Proof.Machine.execPllLockDeclared h t s
  | .pllAcqTimeout h => Sys2Proof.Machine.execPllAcqTimeout h s
  | .pllLossOfLock h t => Sys2Proof.Machine.execPllLossOfLock h t s
  | .pllSlip h => Sys2Proof.Machine.execPllSlip h s
  | .pllTuningMargin h mv t => Sys2Proof.Machine.execPllTuningMargin h mv t s
  | .pllDisable r h v => Sys2Proof.Machine.execPllDisable r h v s
  | .pllAlign h => Sys2Proof.Machine.execPllAlign h s
  | .clkoutReconfigure r n div v => Sys2Proof.Machine.execClkoutReconfigure r n div v s
  | .clkoutAlign n => Sys2Proof.Machine.execClkoutAlign n s
  | .stileXoFail t => Sys2Proof.Machine.execStileXoFail t s
  | .ldoVsetWrite r h v => Sys2Proof.Machine.execLdoVsetWrite r h v s
  | .hamletEnter r v => Sys2Proof.Machine.execHamletEnter r v s
  | .hamletEntryComplete h t => Sys2Proof.Machine.execHamletEntryComplete h t s
  | .hamletWakeWrite r v => Sys2Proof.Machine.execHamletWakeWrite r v s
  | .hamletWakeReady h t => Sys2Proof.Machine.execHamletWakeReady h t s
  | .hamletWakeFail h => Sys2Proof.Machine.execHamletWakeFail h s
  | .calendarAlarm t => Sys2Proof.Machine.execCalendarAlarm t s
  | .wakeHoldExpiry => Sys2Proof.Machine.execWakeHoldExpiry s
  | .wakeStepPass t => Sys2Proof.Machine.execWakeStepPass t s
  | .wakeStepTimeout t => Sys2Proof.Machine.execWakeStepTimeout t s
  | .wakerecClear r v => Sys2Proof.Machine.execWakerecClear r v s
  | .supplyChange rail ok t => Sys2Proof.Machine.execSupplyChange rail ok t s
  | .hkRoundStart => Sys2Proof.Machine.execHkRoundStart s
  | .hkCoarseReady v => Sys2Proof.Machine.execHkCoarseReady v s
  | .hkConversionEnd v over_ => Sys2Proof.Machine.execHkConversionEnd v over_ s
  | .hkRecoveryClose t => Sys2Proof.Machine.execHkRecoveryClose t s
  | .hkRefReady t => Sys2Proof.Machine.execHkRefReady t s
  | .hkRefTimeout => Sys2Proof.Machine.execHkRefTimeout s
  | .hkRefPowerdown => Sys2Proof.Machine.execHkRefPowerdown s
  | .hkRoundEnd => Sys2Proof.Machine.execHkRoundEnd s
  | .hkSeqGo r v => Sys2Proof.Machine.execHkSeqGo r v s
  | .hkSeqStop r v => Sys2Proof.Machine.execHkSeqStop r v s
  | .hkSeqPeriodicStart => Sys2Proof.Machine.execHkSeqPeriodicStart s
  | .hkResRead r n => Sys2Proof.Machine.execHkResRead r n s
  | .hearthMonitorConversion mv temp t => Sys2Proof.Machine.execHearthMonitorConversion mv temp t s
  | .shedTakeEffect => Sys2Proof.Machine.execShedTakeEffect s
  | .rotationStep h => Sys2Proof.Machine.execRotationStep h s
  | .orderlyStopBias => Sys2Proof.Machine.execOrderlyStopBias s
  | .orderlyStopComplete => Sys2Proof.Machine.execOrderlyStopComplete s
  | .hardCut => Sys2Proof.Machine.execHardCut s
  | .thmRearm r v => Sys2Proof.Machine.execThmRearm r v s
  | .thmUnpin r v => Sys2Proof.Machine.execThmUnpin r v s
  | .biasCodeWrite r c v => Sys2Proof.Machine.execBiasCodeWrite r c v s
  | .biasModeWrite r c v => Sys2Proof.Machine.execBiasModeWrite r c v s
  | .biasSlewStep c => Sys2Proof.Machine.execBiasSlewStep c s
  | .biasSineEnable r c v => Sys2Proof.Machine.execBiasSineEnable r c v s
  | .biasSineDisable r c v => Sys2Proof.Machine.execBiasSineDisable r c v s
  | .biasSineStart c => Sys2Proof.Machine.execBiasSineStart c s
  | .biasSineHalfCycleEnd c => Sys2Proof.Machine.execBiasSineHalfCycleEnd c s
  | .biasClrAssert t => Sys2Proof.Machine.execBiasClrAssert t s
  | .biasClrRelease t => Sys2Proof.Machine.execBiasClrRelease t s
  | .calGo r n v => Sys2Proof.Machine.execCalGo r n v s
  | .calStop r n v => Sys2Proof.Machine.execCalStop r n v s
  | .calGuardStep h t => Sys2Proof.Machine.execCalGuardStep h t s
  | .calRunEnd n vals worn t => Sys2Proof.Machine.execCalRunEnd n vals worn t s
  | .calLiveEstimate h vals worn level t => Sys2Proof.Machine.execCalLiveEstimate h vals worn level t s
  | .calTimeout n => Sys2Proof.Machine.execCalTimeout n s
  | .calPreconditionLost n => Sys2Proof.Machine.execCalPreconditionLost n s
  | .calRequestEnd n => Sys2Proof.Machine.execCalRequestEnd n s
  | .calSubstitution h => Sys2Proof.Machine.execCalSubstitution h s
  | .bistGo r v => Sys2Proof.Machine.execBistGo r v s
  | .bistLogicEnd sig t => Sys2Proof.Machine.execBistLogicEnd sig t s
  | .bistMemoryPassEnd rows spares sig t => Sys2Proof.Machine.execBistMemoryPassEnd rows spares sig t s
  | .bistEnd t => Sys2Proof.Machine.execBistEnd t s
  | .bistStatRead r => Sys2Proof.Machine.execBistStatRead r s
  | .watchEnable r v => Sys2Proof.Machine.execWatchEnable r v s
  | .watchReady t => Sys2Proof.Machine.execWatchReady t s
  | .watchAgcStep up level t => Sys2Proof.Machine.execWatchAgcStep up level t s
  | .watchClip n => Sys2Proof.Machine.execWatchClip n s
  | .rdsGroup n blocks good corr offE af t => Sys2Proof.Machine.execRdsGroup n blocks good corr offE af t s
  | .dabFig sel bytes afs t => Sys2Proof.Machine.execDabFig sel bytes afs t s
  | .dvbSection sel bytes crcOk t => Sys2Proof.Machine.execDvbSection sel bytes crcOk t s
  | .dmodWrite r freq v => Sys2Proof.Machine.execDmodWrite r freq v s
  | .fmFreqWrite r n v => Sys2Proof.Machine.execFmFreqWrite r n v s
  | .afQualityCheck n q rssi mer => Sys2Proof.Machine.execAfQualityCheck n q rssi mer s
  | .afCandidateResult n sync ident q => Sys2Proof.Machine.execAfCandidateResult n sync ident q s
  | .broadcastTimeItem src utc ms lto t => Sys2Proof.Machine.execBroadcastTimeItem src utc ms lto t s
  | .btUtcRead r => Sys2Proof.Machine.execBtUtcRead r s
  | .sweepGo r v => Sys2Proof.Machine.execSweepGo r v s
  | .sweepStop r v => Sys2Proof.Machine.execSweepStop r v s
  | .sweepEntryEnd level t => Sys2Proof.Machine.execSweepEntryEnd level t s
  | .sweepEntryTimeout level => Sys2Proof.Machine.execSweepEntryTimeout level s
  | .watchRecordSend => Sys2Proof.Machine.execWatchRecordSend s
  | .stileSleep r => Sys2Proof.Machine.execStileSleep r s
  | .stileStandby r => Sys2Proof.Machine.execStileStandby r s
  | .stileSynth r => Sys2Proof.Machine.execStileSynth r s
  | .stileRx r => Sys2Proof.Machine.execStileRx r s
  | .stileTx r => Sys2Proof.Machine.execStileTx r s
  | .stileStateReached t => Sys2Proof.Machine.execStileStateReached t s
  | .stileSynthLock t => Sys2Proof.Machine.execStileSynthLock t s
  | .stileTxWaitTimeout => Sys2Proof.Machine.execStileTxWaitTimeout s
  | .stilePacketSent t => Sys2Proof.Machine.execStilePacketSent t s
  | .stilePreambleDetect rssi0 rssi1 t => Sys2Proof.Machine.execStilePreambleDetect rssi0 rssi1 t s
  | .stileSyncDetect off rssi t => Sys2Proof.Machine.execStileSyncDetect off rssi t s
  | .stilePacketRx bytes lqi evm t => Sys2Proof.Machine.execStilePacketRx bytes lqi evm t s
  | .stileRxTimeout => Sys2Proof.Machine.execStileRxTimeout s
  | .bellSniff found t => Sys2Proof.Machine.execBellSniff found t s
  | .bellStartTimeout => Sys2Proof.Machine.execBellStartTimeout s
  | .bellFrame code chk t => Sys2Proof.Machine.execBellFrame code chk t s
  | .hearthAnswerEnd t => Sys2Proof.Machine.execHearthAnswerEnd t s
  | .resetLAssert t => Sys2Proof.Machine.execResetLAssert t s
  | .resetEnd straps t => Sys2Proof.Machine.execResetEnd straps t s
  | .hearthPowerUp t => Sys2Proof.Machine.execHearthPowerUp t s
  | .sysRstDev r v => Sys2Proof.Machine.execSysRstDev r v s
  | .deviceReset => Sys2Proof.Machine.execDeviceReset s
  | .reeveRestart r v => Sys2Proof.Machine.execReeveRestart r v s
  | .bootImageAccepted slot img t => Sys2Proof.Machine.execBootImageAccepted slot img t s
  | .bootFailure result t => Sys2Proof.Machine.execBootFailure result t s
  | .bootRetry => Sys2Proof.Machine.execBootRetry s
  | .bootLinkTimeout t => Sys2Proof.Machine.execBootLinkTimeout t s
  | .agtVerify r arg => Sys2Proof.Machine.execAgtVerify r arg s
  | .agtRelease r arg => Sys2Proof.Machine.execAgtRelease r arg s
  | .agtAdvance r arg => Sys2Proof.Machine.execAgtAdvance r arg s
  | .agtBurn r arg => Sys2Proof.Machine.execAgtBurn r arg s
  | .agtRevoke r arg => Sys2Proof.Machine.execAgtRevoke r arg s
  | .agtProgkey r arg => Sys2Proof.Machine.execAgtProgkey r arg s
  | .agtLcsadv r arg => Sys2Proof.Machine.execAgtLcsadv r arg s
  | .agtAttest r arg => Sys2Proof.Machine.execAgtAttest r arg s
  | .agtIdkey r arg => Sys2Proof.Machine.execAgtIdkey r arg s
  | .agtCert r arg => Sys2Proof.Machine.execAgtCert r arg s
  | .agtSopen r arg => Sys2Proof.Machine.execAgtSopen r arg s
  | .agtSrecv r arg => Sys2Proof.Machine.execAgtSrecv r arg s
  | .agtSsend r arg => Sys2Proof.Machine.execAgtSsend r arg s
  | .agtSclose r arg => Sys2Proof.Machine.execAgtSclose r arg s
  | .agateCommandEnd fuses t => Sys2Proof.Machine.execAgateCommandEnd fuses t s
  | .sessionTimeout => Sys2Proof.Machine.execSessionTimeout s
  | .bootRecordWrite r v => Sys2Proof.Machine.execBootRecordWrite r v s
  | .fltCease r arg => Sys2Proof.Machine.execFltCease r arg s
  | .fltEndRecovery r arg => Sys2Proof.Machine.execFltEndRecovery r arg s
  | .fltIsolate r arg => Sys2Proof.Machine.execFltIsolate r arg s
  | .fltSafetyClear r arg => Sys2Proof.Machine.execFltSafetyClear r arg s
  | .fltRaiseSoftware r arg => Sys2Proof.Machine.execFltRaiseSoftware r arg s
  | .fltEndSafety r arg => Sys2Proof.Machine.execFltEndSafety r arg s
  | .isolationStart h => Sys2Proof.Machine.execIsolationStart h s
  | .isolationAfterRamp h => Sys2Proof.Machine.execIsolationAfterRamp h s
  | .isolationComplete h => Sys2Proof.Machine.execIsolationComplete h s
  | .eventIndicationFlush => Sys2Proof.Machine.execEventIndicationFlush s
  | .tallyWindowMissed up => Sys2Proof.Machine.execTallyWindowMissed up s
  | .rdsSynchronisation n on => Sys2Proof.Machine.execRdsSynchronisation n on s
  | .demodulatorLock on => Sys2Proof.Machine.execDemodulatorLock on s
  | .testAccessPortOperation op cells seen => Sys2Proof.Machine.execTestAccessPortOperation op cells seen s

end Sys2Proof.Machine
end

