-- ==== Sys2Proof/Safety.lean ====
section
/-!
DEFINITION. What every state of a run keeps (the register files and the stores stay in their canonical form), and the words in which the statements speak of a command that completes and of what it leaves alone.
-/

namespace Sys2Proof.Machine

/-- The carrier values that wait for a commit (R53) are a register file in canonical form. -/
def State.heldWf (s : State) : Prop := ∀ p, s.carPend = some p → rfWf p.vals

/-- The machine's files are in canonical form: the registers as shown, the settings in force, the carrier values held, the stores. Equal contents are then equal data. -/
structure State.canonical (s : State) : Prop where
  regs : rfWf s.regs
  eff  : rfWf s.eff
  held : s.heldWf
  mem  : Memory.wf s.mem

/-- The command answers a next state, of which `Q` holds. -/
def Gives (c : Instr) (s : State) (Q : State → Prop) : Prop := ∃ t, exec c s = .next t ∧ Q t

/-- The part accepts requester `r`'s write to the register at `a`: it passes every check of R46. -/
abbrev Takes (s : State) (r : Req) (a : Nat) : Prop := s.check r a 2 true = .ok

/-- Every byte of every store reads as before. -/
def SameMem (s t : State) : Prop := ∀ a, memRead t.mem a = memRead s.mem a

/-- Every register as shown reads as before, but for those in `l`. -/
def SameRegs (l : List Nat) (s t : State) : Prop := ∀ a, a ∉ l → t.rd a = s.rd a

/-! ### Engines -/

/-- Engine `e` is about to execute the instruction at its PC, from `u`: it runs and waits for nothing, the fetch answers a word that spells an instruction (R245, R248, R263), the address after the instruction
is aligned (R263) and no HALT is pending (R275), so that nothing but the instruction happens. -/
structure Executes (e : Fin 9) (s u : State) : Prop where
  runs  : s.eng[e].runs = true
  fetch : ∃ w, engFetch e s = (.ok w, u) ∧ wimakoWord e w = true
  next  : u.eng[e].step1.pc % 4 = 0
  calm  : ∀ h : Fin 8, hEng h = e → u.get (Fld.ENG_CTRL_HALT.h h) = 0

/-- FLG after a result marked Z N (R244): Z and N from the result, every other bit as before. -/
def FlagsZN (f g : BitVec 16) (v : Word) : Prop := g.getLsbD 0 = (v == 0#32) ∧ g.getLsbD 1 = v.msb ∧ ∀ k, 2 ≤ k → g.getLsbD k = f.getLsbD k

/-- FLG after a result marked Z N C V (R244). -/
def FlagsZNCV (f g : BitVec 16) (v : Word) (c o : Prop) : Prop :=
  g.getLsbD 0 = (v == 0#32) ∧ g.getLsbD 1 = v.msb ∧ (g.getLsbD 2 = true ↔ c) ∧ (g.getLsbD 3 = true ↔ o) ∧ ∀ k, 4 ≤ k → g.getLsbD k = f.getLsbD k

/-- FLG after an operation that sets sticky bit `n` where `b` holds and changes no other bit (R244). -/
def FlagStick (f g : BitVec 16) (n : Nat) (b : Prop) : Prop := (g.getLsbD n = true ↔ f.getLsbD n = true ∨ b) ∧ ∀ k, k ≠ n → g.getLsbD k = f.getLsbD k

/-- Only engine `e` differs. -/
def OnlyEngine (e : Fin 9) (u t : State) : Prop := t = { u with eng := t.eng } ∧ ∀ k : Fin 9, k ≠ e → t.eng[k] = u.eng[k]

/-- Engine `e` stands at base level, in no exception and in no delay slot, so that an exception is no double fault (R265). -/
structure AtBase (e : Fin 9) (u : State) : Prop where
  exc  : u.eng[e].exc = false
  mexc : u.eng[e].mexc = false
  lvl  : u.eng[e].lvl = 0
  slot : u.eng[e].slot = none

/-- Engine `e` has taken an exception of base level at the kernel (R263): PC and privilege are saved, EXC is set, CAUSE holds the code and INFO, outstanding writes have drained,
and the handler at VBASE comes next. -/
structure Taken (e : Fin 9) (code info pc : Nat) (u t : State) : Prop where
  entry  : t.eng[e].pc = u.eng[e].vbase.toNat
  epc    : t.eng[e].epc[0] = BitVec.ofNat 32 pc
  ppriv  : t.eng[e].ppriv = u.eng[e].priv
  priv   : t.eng[e].priv = 1
  exc    : t.eng[e].exc = true
  cause  : t.eng[e].cause = BitVec.ofNat 32 (code * 65536 + info)
  writes : t.eng[e].writes = []
  badva  : t.eng[e].badva = u.eng[e].badva
  rest   : OnlyEngine e u t

/-- `t` is `u` but for the arbitration of the accesses made (R288, R289): the banks' own state, and the count of quota windows of a hamlet's arbiter. -/
structure BanksOnly (u t : State) : Prop where
  rest  : t = { u with sto := t.sto, regs := t.regs }
  banks : ∀ k : Fin 10, t.sto[k] = { u.sto[k] with banks := t.sto[k].banks }
  regs  : ∀ a, (∀ h : Fin 8, a ≠ ((Fld.ARB_CNTn_COUNT.i 0).h h).reg) → t.rd a = u.rd a

/-- A plain access by a requester at an address: it passes every check (R46), lies in a store and not in register space or the boot ROM, the store is not frozen (R291), and no
stored word is in error (R279). -/
structure Plain (s : State) (r : Req) (a size : Nat) (write : Bool) : Prop where
  taken : s.check r a size write = .ok
  store : inRegs a = false ∧ 0x40000 ≤ a
  free  : s.frozen a = false
  clean : s.ecc = []

/-- The `n` bytes from `a`, the first the least significant (R5). -/
def Holds (m : List Host.Cell) (a n v : Nat) : Prop := v < 256 ^ n ∧ ∀ k < n, (memRead m (a + k)).toNat = v / 256 ^ k % 256

end Sys2Proof.Machine
end

