-- ==== Sys2Proof/Certificates/Slice0/Obligations.lean ====
section
/-!
DEFINITION. The statements about the block, one for each family of commands and each kind of state, and those about every command and every step.
-/

open Sys2Proof Sys2Proof.Machine

/-- A step runs the command at the front of the queue with the queue's rest: for every command and every state, step is exec of the command. -/
def Obligations.StepRunsFront : Prop :=
  ∀ (c : Instr) (q : List Instr) (s : State), step { s with pending := c :: q } = exec c { s with pending := q }

/-- On an empty queue the block idles for one tick of device time and nothing else changes: the model's choice (log 1), for the spec gives the part a clock and no command
for it. -/
def Obligations.IdleTick : Prop :=
  ∀ s : State, s.pending = [] → step s = .next { s with now := s.now + tickU }

/-- Every command completes: from every state it answers a next state, which leaves the queue alone, adds to what has left the part and never takes a drawn value back. -/
def Obligations.CommandsComplete : Prop :=
  ∀ (c : Instr) (s : State), ∃ t, exec c s = .next t ∧ t.pending = s.pending ∧ (∃ l, t.out = l ++ s.out) ∧ s.free ≤ t.free

/-- Every step keeps the files canonical: the registers as shown, the settings in force, the carriers held and the stores (so that equal contents are equal data). -/
def Obligations.KeepsCanonical : Prop :=
  ∀ s t : State, s.canonical → step s = .next t → t.canonical

/-- The machine right after reset: its files are canonical and its queue is empty, every hamlet domain is OFF (R348), no engine runs (R275), and registers of every kind of
block hold the reset values of their tables. That a byte of a store reads 0 before it is written is the model's choice (log 5). -/
def Obligations.ResetState : Prop :=
  State.reset.canonical ∧ State.reset.pending = [] ∧ State.reset.out = [] ∧ (∀ a, memRead State.reset.mem a = 0#8)
  ∧ (∀ h : Fin 8, State.reset.hstate h = 0 ∧ State.reset.get (Fld.ENG_STAT_STATE.h h) = 0 ∧ State.reset.get (Fld.BFM_COMMIT_STAT_PEND.h h) = 0)
  ∧ (∀ e : Fin 9, State.reset.eng[e].runs = false)
  ∧ State.reset.rd Reg.LNK_FLOWf_CFG = 0x80000000#32 ∧ State.reset.get Fld.WCH_FMn_FREQ_FREQ = 0x2710 ∧ State.reset.get Fld.THM_LIMIT_WARN = 0x69
  ∧ State.reset.get Fld.SYS_BADACC_INFO_VALID = 0 ∧ State.reset.get Fld.TIM_STAT_STATE = 0 ∧ State.reset.boot.inReset = false

/-- The hamlet window (R36): its first 3 MiB are hamlet h's store, offsets 0x800000 to 0x8EFFFF are its 15 register blocks of 64 KiB, each with its identity register, and
every other offset is reserved. -/
def Obligations.AddressMap : Prop :=
  ∀ (h : Fin 8) (o : Nat), o < 0x1000000 →
    let a := 0x10000000 + 0x1000000 * h.val + o
    hamletOf a = some h ∧ (o < 0x300000 → inStore a = true ∧ storeOf a = h ∧ inRegs a = false ∧ reserved a = false)
    ∧ (0x800000 ≤ o → o < 0x8F0000 → inRegs a = true ∧ inStore a = false ∧ (o % 0x10000 = 0 → reserved a = false))
    ∧ (0x300000 ≤ o → o < 0x800000 → inRegs a = false ∧ inStore a = false ∧ reserved a = true)
    ∧ (0x8F0000 ≤ o → inRegs a = false ∧ inStore a = false ∧ reserved a = true)

/-- Who may write the DMA block (R306): a write that the register bridge passes on, by any requester but the hamlet's engine at kernel level and the Reeve, changes nothing
but the record of a bad access with reason 4, whether or not the capture register is free, and so does a write of STOPALL (offset 0x10) by the engine; the Reeve's takes effect.
Completes (the conclusion is the next state of exec, under conditions on the state and the operands alone): registerWrite. -/
def Obligations.DmaWriters : Prop :=
  (∀ (s : State) (r : Req) (h : Fin 8) (o : Nat) (v : Word), o < 0x10000 → Takes s r (hamletBase h + 0x820000 + o) → r.id ≠ 16 →
    (r.id ≠ h.val ∨ r.priv ≠ 1 ∨ o = 0x10) →
    (s.get Fld.SYS_BADACC_INFO_VALID = 1 → Gives (.registerWrite r (hamletBase h + 0x820000 + o) v) s fun t =>
      t = { s with resp := { err := false, data := 0 }, regs := t.regs } ∧ SameRegs [Reg.SYS_BADACC_CNT] s t
      ∧ t.get Fld.SYS_BADACC_CNT_COUNT = min (s.get Fld.SYS_BADACC_CNT_COUNT + 1) (2 ^ 32 - 1))
    ∧ (s.get Fld.SYS_BADACC_INFO_VALID = 0 → Gives (.registerWrite r (hamletBase h + 0x820000 + o) v) s fun t =>
      t = { s with resp := { err := false, data := 0 }, regs := t.regs, out := t.out, flt := t.flt, port := t.port, lnk := t.lnk }
      ∧ t.get Fld.SYS_BADACC_CNT_COUNT = min (s.get Fld.SYS_BADACC_CNT_COUNT + 1) (2 ^ 32 - 1) ∧ t.get Fld.SYS_BADACC_INFO_VALID = 1
      ∧ t.get Fld.SYS_BADACC_INFO_REASON = 4 ∧ t.get Fld.SYS_BADACC_INFO_WRITE = 1 ∧ t.get Fld.SYS_BADACC_ADDR_ADDR = hamletBase h + 0x820000 + o))
  ∧ (∀ (s : State) (r : Req) (h : Fin 8) (v : Word), Takes s r (hamletBase h + Reg.DMA_CTRL) →
    r.id = 16 → s.get (Fld.DMA_CTRL_STOPALL.h h) = 1 → v.getLsbD 0 = false → Gives (.registerWrite r (hamletBase h + Reg.DMA_CTRL) v) s fun t =>
      t.get (Fld.DMA_CTRL_STOPALL.h h) = 0 ∧ t = { s with resp := { err := false, data := 0 }, regs := t.regs } ∧ SameRegs [hamletBase h + Reg.DMA_CTRL] s t)

/-- Quality of an FM channel (R420): after a group, Q is the percentage of good blocks among the last 64, rounded down, where a block counts as good by the group's flags;
an unsynchronised channel takes no group, and the end of synchronisation sets Q to 0.
Completes (the conclusion is the next state of exec, under conditions on the state and the operands alone): rdsGroup, rdsSynchronisation. -/
def Obligations.FmQuality : Prop :=
  (∀ (s : State) (n : Fin 2) (bl : List Nat) (good corr offE t0 : Nat), s.get (Fld.WCH_FMn_CFG_EN.i n) = 1 → s.get (Fld.WCH_FMn_STAT_SYNC.i n) = 1 →
    s.get (Fld.WCH_FMn_CFG_RBDS.i n) = 1 → s.get (Fld.WCH_FMn_STAT_AFTRY.i n) = 1 → s.wch.chan[n.castSucc].blocks.length = 64 →
    let last : List Bool := s.wch.chan[n.castSucc].blocks.drop 4 ++ [good.testBit 0, good.testBit 1, good.testBit 2, good.testBit 3]
    Gives (.rdsGroup n bl good corr offE none t0) s fun t => t.get (Fld.WCH_FMn_STAT_Q.i n) = 100 * last.count true / 64 ∧ t.wch.chan[n.castSucc].blocks = last)
  ∧ (∀ (s : State) (n : Fin 2) (bl : List Nat) (good corr offE t0 : Nat) (af : Option (List Nat)), s.get (Fld.WCH_FMn_STAT_SYNC.i n) = 0 →
    exec (.rdsGroup n bl good corr offE af t0) s = .next s)
  ∧ (∀ (s : State) (n : Fin 2), Gives (.rdsSynchronisation n false) s fun t => t.get (Fld.WCH_FMn_STAT_SYNC.i n) = 0 ∧ t.get (Fld.WCH_FMn_STAT_Q.i n) = 0
    ∧ t.wch.chan[n.castSucc].blocks = [] ∧ SameRegs [(Fld.WCH_FMn_STAT_SYNC.i n).reg] s t)

/-- CARRIER_COMMIT_GO holds the definitions as they stand (R53) where the limits of R55 allow them and no commit waits, and leaves the stores and the settings in force
alone; CARRIER_COMMIT_TAKE_EFFECT puts the held values in force at their frame boundary (R53).
Completes (the conclusion is the next state of exec, under conditions on the state and the operands alone): carrierCommitGo, carrierCommitTakeEffect. -/
def Obligations.CarrierCommit : Prop :=
  (∀ (s : State) (r : Req) (v : Word), Takes s r Reg.LNK_CAR_COMMIT → getBits Fld.LNK_CAR_COMMIT_GO v = 1 → getBits Fld.LNK_CAR_COMMIT_REFUSED v = 0 →
    s.get Fld.LNK_CAR_COMMIT_GO = 0 → carriersAllowed ((List.range 8).map s.carHeld) = true →
    Gives (.carrierCommitGo r v) s fun t => t.get Fld.LNK_CAR_COMMIT_GO = 1
      ∧ t = { s with resp := { err := false, data := 0 }, regs := t.regs, carPend := some ⟨frameAfter100 s.now, s.regs.filter (fun c => carrierReg c.1), []⟩ }
      ∧ SameRegs [Reg.LNK_CAR_COMMIT] s t)
  ∧ (∀ (s : State) (r : Req) (v : Word), Takes s r Reg.LNK_CAR_COMMIT → getBits Fld.LNK_CAR_COMMIT_GO v = 1 → getBits Fld.LNK_CAR_COMMIT_REFUSED v = 0 →
    s.get Fld.LNK_CAR_COMMIT_GO = 0 → carriersAllowed ((List.range 8).map s.carHeld) = false →
    Gives (.carrierCommitGo r v) s fun t => t.carPend = s.carPend ∧ t.eff = s.eff ∧ t.mem = s.mem)
  ∧ (∀ (s : State) (p : CarPend), s.carPend = some p →
    Gives .carrierCommitTakeEffect s fun t => t.carPend = none ∧ t.eff = rfMerge carrierReg p.vals s.eff ∧ t.now = max s.now p.due ∧ t.mem = s.mem)

/-- Control messages: a descriptor that no check of R58 rejects joins the list last (R61); a KIND 1 message that none rejects makes its vectors valid in its slot's bank
(R69, R70), unless the arbiter of a hamlet in service is frozen, where they wait (R292); a message on a disabled flow changes no descriptor, no vector and no store (R183).
Completes (the conclusion is the next state of exec, under conditions on the state and the operands alone): rtcMessage, explicitWeightMessage. -/
def Obligations.ControlMessages : Prop :=
  (∀ (s : State) (m : Hdr) (w w0 w1 w2 : Word) (t0 : Nat), s.get (Fld.LNK_FLOWf_CFG_EN.i m.flow) ≠ 0 → s.hdrOk m 2 20 = true →
    w.toNat / 2 ^ 28 = 1 → w.toNat % 256 = 0 →
    let u := (State.takeSeq { s.at t0 with port := { s.port with inbox := dropFlow m.flow s.port.inbox } } m).arrive m.flow
    let d := descOfWords u w.toNat w0.toNat w1.toNat w2.toNat
    descReason u d w0.toNat w2.toNat = 0 →
    Gives (.rtcMessage m [w, w0, w1, w2] t0) s fun t => t.rtc.descs = (s.rtc.descs.filter fun e => max s.now t0 < e.endAt + msU) ++ [d]
      ∧ t.mem = s.mem ∧ t.eff = s.eff ∧ t.now = max s.now t0)
  ∧ (∀ (s : State) (m : Hdr) (w b : Word) (ws : List Word) (t0 : Nat), s.get (Fld.LNK_FLOWf_CFG_EN.i m.flow) ≠ 0 →
    s.hdrOk m 2 (12 + 4 * ws.length) = true → w.toNat / 64 % 4 = 1 → ws.length = 64 * (b.toNat / 4096 % 64 + 1) →
    weightReason ((State.takeSeq { s.at t0 with port := { s.port with inbox := dropFlow m.flow s.port.inbox } } m).arrive m.flow) w.toNat b.toNat = 0 →
    s.rtc.held = [] → (∀ h : Fin 8, s.get (Fld.ARB_CTRL_FREEZE.h h) = 0) → (∀ k : Fin 10, s.sto[k].copy = none) →
    Gives (.explicitWeightMessage m (w :: b :: ws) t0) s fun t => (∀ k < b.toNat / 4096 % 64 + 1,
      (refSlot (s.car (s.eget Fld.LNK_WCFG_REFCAR)).num w.toNat % 2, b.toNat / 2 ^ 18 + k) ∈ t.rtc.valid) ∧ t.rtc.descs = s.rtc.descs ∧ t.eff = s.eff)
  ∧ (∀ (s : State) (m : Hdr) (w b : Word) (ws : List Word) (t0 : Nat) (h : Fin 8), s.get (Fld.LNK_FLOWf_CFG_EN.i m.flow) ≠ 0 →
    s.hdrOk m 2 (12 + 4 * ws.length) = true → w.toNat / 64 % 4 = 1 →
    let u := (State.takeSeq { s.at t0 with port := { s.port with inbox := dropFlow m.flow s.port.inbox } } m).arrive m.flow
    weightReason u w.toNat b.toNat = 0 → s.rtc.held = [] → u.inService h = true → s.get (Fld.ARB_CTRL_FREEZE.h h) = 1 →
    Gives (.explicitWeightMessage m (w :: b :: ws) t0) s fun t => t.rtc.held.length = b.toNat / 4096 % 64 + 1 ∧ t.rtc.valid = s.rtc.valid
      ∧ t.rtc.descs = s.rtc.descs ∧ t.mem = s.mem ∧ t.eff = s.eff)
  ∧ (∀ (s : State) (m : Hdr) (ws : List Word) (t0 : Nat), s.get (Fld.LNK_FLOWf_CFG_EN.i m.flow) = 0 →
    Gives (.rtcMessage m ws t0) s (fun t => t.rtc = s.rtc ∧ t.mem = s.mem ∧ t.eff = s.eff)
    ∧ Gives (.explicitWeightMessage m ws t0) s (fun t => t.rtc = s.rtc ∧ t.mem = s.mem ∧ t.eff = s.eff))

/-- The banks of explicit weights (R70): at the air start of the slot before its next use a bank loses every validity bit, and the
other bank none; at its frame boundary a new REFCAR takes effect and both banks
clear, for the symbols already formed that start then or later too.
The beam commit (R63, R65, R66): GO makes it pending with its instant; at the instant PEND clears and BUSY is set, and symbols formed before it keep their weights
where their air starts come before it (R63); when the copy is done BUSY clears and DONE is set; a frozen arbiter holds the copy (R292).
The hamlet mask (R73, R484): a write that re-admits a hamlet whose isolation does not run lets it rejoin at the next frame boundary; at that boundary it is back.
Completes (the conclusion is the next state of exec, under conditions on the state and the operands alone): weightBankClear, weightRefcarChange,
bfmCommitGo, bfmCommitInstant, bfmCopyDone, bfmBasesTakeEffect, hmaskWrite, hamletRejoin. -/
def Obligations.BeamControl : Prop :=
  ((∀ (s : State) (b : Fin 2) (t0 : Nat), s.bankFree b = some t0 →
    Gives (.weightBankClear b) s fun t => t.rtc.valid = s.rtc.valid.filter (fun p => p.1 != b.val)
      ∧ t.rtc.cleared = s.rtc.cleared.set b (max s.now t0) ∧ t = { s with now := max s.now t0, rtc := t.rtc } ∧ t.rtc.descs = s.rtc.descs)
  ∧ (∀ (s : State) (b : Fin 2), s.bankFree b = none → exec (.weightBankClear b) s = .next s)
  ∧ (∀ (s : State) (d : Nat), s.refcarDue = some d →
    Gives .weightRefcarChange s fun t => t.eget Fld.LNK_WCFG_REFCAR = s.get Fld.LNK_WCFG_REFCAR ∧ t.refcarDue = none
      ∧ (∀ p ∈ t.rtc.valid, p.1 ≠ 0 ∧ p.1 ≠ 1) ∧ (∀ x ∈ s.dl.syms, x.air < d → x ∈ t.dl.syms)
      ∧ t = { s with now := max s.now d, eff := t.eff, rtc := t.rtc, refcarDue := none, dl := { s.dl with syms := t.dl.syms } }))
  ∧ ((∀ (s : State) (r : Req) (h : Fin 8) (v : Word), Takes s r (hamletBase h + Reg.BFM_COMMIT_CTRL) → getBits Fld.BFM_COMMIT_CTRL_GO v = 1 →
    getBits Fld.BFM_COMMIT_CTRL_WHEN v ≠ 3 → s.get (Fld.BFM_COMMIT_STAT_PEND.h h) = 0 → s.get (Fld.BFM_COMMIT_STAT_BUSY.h h) = 0 →
    s.get (Fld.BFM_COMMIT_RANGE_COUNT.h h) ≠ 0 → s.get (Fld.BFM_COMMIT_RANGE_FIRST.h h) + s.get (Fld.BFM_COMMIT_RANGE_COUNT.h h) ≤ 8192 →
    Gives (.bfmCommitGo r h v) s fun t => t.get (Fld.BFM_COMMIT_STAT_PEND.h h) = 1
      ∧ (∃ p, t.bfm[h].pend = some p ∧ p.first = s.get (Fld.BFM_COMMIT_RANGE_FIRST.h h) ∧ p.count = s.get (Fld.BFM_COMMIT_RANGE_COUNT.h h))
      ∧ t = { s with resp := { err := false, data := 0 }, regs := t.regs, bfm := t.bfm })
  ∧ (∀ (s : State) (h : Fin 8) (p : BfmPend) (d : Nat), s.bfm[h].pend = some p → p.due = some d →
    Gives (.bfmCommitInstant h) s fun t => t.get (Fld.BFM_COMMIT_STAT_PEND.h h) = 0 ∧ t.get (Fld.BFM_COMMIT_STAT_BUSY.h h) = 1
      ∧ t.bfm[h].copying = some p ∧ t.bfm[h].pend = none ∧ (∀ x ∈ s.dl.syms, x.air < d → x ∈ t.dl.syms)
      ∧ t = { s with now := max s.now d, regs := t.regs, bfm := t.bfm, dl := { s.dl with syms := t.dl.syms } }
      ∧ SameRegs [hamletBase h + Reg.BFM_COMMIT_STAT, hamletBase h + Reg.BFM_COMMIT_CTRL] s t)
  ∧ (∀ (s : State) (h : Fin 8) (p : BfmPend), s.bfm[h].copying = some p → s.bfm[h].stalled = [] → s.stalled = [] → s.copyWaits h = false →
    Gives (.bfmCopyDone h) s fun t => t.get (Fld.BFM_COMMIT_STAT_BUSY.h h) = 0 ∧ t.get (Fld.BFM_COMMIT_STAT_DONE.h h) = 1 ∧ t.bfm[h].copying = none)
  ∧ (∀ (s : State) (h : Fin 8), s.get (Fld.ARB_CTRL_FREEZE.h h) = 1 → exec (.bfmCopyDone h) s = .next s)
  ∧ (∀ (s : State) (h : Fin 8) (d : Nat), s.bfm[h].basesDue = some d →
    Gives (.bfmBasesTakeEffect h) s fun t => t.erd (hamletBase h + Reg.BFM_BASES) = s.rd (hamletBase h + Reg.BFM_BASES)
      ∧ (∀ a, a ≠ hamletBase h + Reg.BFM_BASES → t.erd a = s.erd a) ∧ t.bfm[h].basesDue = none
      ∧ t = { s with now := max s.now d, eff := t.eff, bfm := t.bfm, dl := { s.dl with syms := t.dl.syms } }))
  ∧ ((∀ (s : State) (r : Req) (v : Word) (h : Fin 8), Takes s r Reg.LNK_ULC_CFG → (∀ k : Fin 8, s.flt.isoStep[k] = 0 ∨ 5 ≤ s.flt.isoStep[k]) →
    bitOf (getBits Fld.LNK_ULC_CFG_HMASK v) h = true → bitOf (s.get Fld.LNK_ULC_CFG_HMASK) h = false → s.rejoin[h] = none →
    Gives (.hmaskWrite r v) s fun t => t.rejoin[h] = some (nextAfter s.now frameU) ∧ t.get Fld.LNK_ULC_CFG_HMASK = getBits Fld.LNK_ULC_CFG_HMASK v
      ∧ t = { s with resp := { err := false, data := 0 }, regs := t.regs, rejoin := t.rejoin })
  ∧ (∀ (s : State) (h : Fin 8) (d : Nat), s.rejoin[h] = some d → d < notActive / 2 →
    exec (.hamletRejoin h) s = .next { s with now := max s.now d, rejoin := s.rejoin.set h none }))

/-- The slot table (R80, R82): COMMIT starts the check of the free buffer; a check that passes makes the swap pending; under FREEZE it waits (R292); at its frame boundary the buffers swap and the
configuration that was checked is in force; a change of ENABLE takes effect at its frame boundary.
A slot's entry is latched (R79): while the sequencer runs for the next slot, its latched entry joins the list, whether the burst was in time or late.
Completes (the conclusion is the next state of exec, under conditions on the state and the operands alone): slotTableCommit, slotTableCheckEnd,
slotTableSwap, sltEnableTakeEffect, slotEntryLatch. -/
def Obligations.SlotTable : Prop :=
  ((∀ (s : State) (r : Req) (h : Fin 8) (v : Word), Takes s r (hamletBase h + Reg.SLT_CTRL) → getBits Fld.SLT_CTRL_COMMIT v = 1 →
    s.get (Fld.SLT_STAT_PEND.h h) = 0 → s.get (Fld.SLT_STAT_CHECKING.h h) = 0 →
    Gives (.slotTableCommit r h v) s fun t => t.get (Fld.SLT_STAT_CHECKING.h h) = 1 ∧ t.slt[h].checking = true
      ∧ t.slt[h].cfgTaken = s.rd (hamletBase h + Reg.SLT_CFG) ∧ t = { s with resp := { err := false, data := 0 }, regs := t.regs, slt := t.slt })
  ∧ (∀ (s : State) (h : Fin 8), s.slt[h].checking = true → s.get (Fld.ARB_CTRL_FREEZE.h h) = 0 → (slotCheck s h s.slt[h].cfgTaken).2 = none →
    Gives (.slotTableCheckEnd h) s fun t => t.get (Fld.SLT_STAT_CHECKING.h h) = 0 ∧ t.get (Fld.SLT_STAT_PEND.h h) = 1 ∧ t.slt[h].checking = false
      ∧ (s.get (Fld.SLT_CTRL_CHAIN.h h) = 0 → t.slt[h].swapDue = some (frameAfter100 s.now))
      ∧ t = { (slotCheck s h s.slt[h].cfgTaken).1 with regs := t.regs, slt := t.slt } ∧ t.now = s.now ∧ t.eff = s.eff)
  ∧ (∀ (s : State) (h : Fin 8) (x : Nat × Nat), s.slt[h].checking = true → s.get (Fld.ARB_CTRL_FREEZE.h h) = 0 → (slotCheck s h s.slt[h].cfgTaken).2 = some x →
    Gives (.slotTableCheckEnd h) s fun t => t.slt[h].checking = false ∧ t.slt[h].swapDue = s.slt[h].swapDue
      ∧ t.mem = (slotCheck s h s.slt[h].cfgTaken).1.mem ∧ t.eff = s.eff)
  ∧ (∀ (s : State) (h : Fin 8) (d : Nat), s.slt[h].swapDue = some d →
    Gives (.slotTableSwap h) s fun t => t.erd (hamletBase h + Reg.SLT_CFG) = s.slt[h].cfgTaken
      ∧ t.get (Fld.SLT_STAT_ACTIVE.h h) = 1 - s.get (Fld.SLT_STAT_ACTIVE.h h) ∧ t.get (Fld.SLT_STAT_PEND.h h) = 0 ∧ t.slt[h].swapDue = none
      ∧ t = { s with now := max s.now d, regs := t.regs, eff := t.eff, slt := t.slt, tx := t.tx, rx := t.rx })
  ∧ (∀ (s : State) (h : Fin 8) (d : Nat) (v : Bool) (l : List (Nat × Bool)), s.slt[h].enables = (d, v) :: l →
    Gives (.sltEnableTakeEffect h) s fun t => t.eget (Fld.SLT_CTRL_ENABLE.h h) = b2n v ∧ t.slt[h].enables = l
      ∧ (v = false → ∀ e ∈ t.slt[h].latched, e.slotAt < d) ∧ t = { s with now := max s.now d, eff := t.eff, slt := t.slt })
  ∧ (∀ (s : State) (h : Fin 8), s.get (Fld.ARB_CTRL_FREEZE.h h) = 1 → exec (.slotTableCheckEnd h) s = .next s))
  ∧ (∀ (s : State) (h : Fin 8) (late : Bool), s.seqRuns h (s.nextSlotAt h) = true →
    Gives (.slotEntryLatch h late) s fun t => (∃ l ∈ t.slt[h].latched, l.slotAt = s.nextSlotAt h) ∧ t.now = max s.now (s.nextSlotAt h - 100 * usU)
      ∧ (s.ecc = [] → t.mem = s.mem) ∧ t.eff = s.eff)

/-- The actions of a latched entry (R78, R83, R84, R153): each runs at its own instant; PINS drives the pins that the slot table owns and PINMASK does not name, a
trigger reaches the sampler with its instant, an engine event is posted, and the gain-state pins take their pattern.
The slot-table edit (R81): GO for an index of the pattern in force sets BUSY; the copy writes the stage's 24 words into the entry of the active buffer, and no
other byte; a frozen arbiter holds it (R292).
Completes (the conclusion is the next state of exec, under conditions on the state and the operands alone): slotActionPins, slotActionOrxTrigger,
slotActionEngineEvent, gainStatePins, sltEditGo, sltEditCopy. -/
def Obligations.SlotActions : Prop :=
  ((∀ (s : State) (h : Fin 8) (l : Latched) (i : Nat) (x : Action), s.firstDue s.slt[h].latched = some (l, i, x) → x.type = 1 →
    Gives (.slotActionPins h) s fun t => t.get (Fld.FEP_LEVEL_LEVEL.h h)
        = (s.drivePins h (s.pinsOf h 1 &&& (4095 - l.pinmask % 4096)) x.arg).get (Fld.FEP_LEVEL_LEVEL.h h)
      ∧ t = { s with now := max s.now (l.actionAt (s.refEcp l.num) x), regs := t.regs, slt := t.slt }
      ∧ SameRegs [hamletBase h + Reg.FEP_LEVEL] s t)
  ∧ (∀ (s : State) (h : Fin 8) (l : Latched) (i : Nat) (x : Action), s.firstDue s.slt[h].latched = some (l, i, x) → x.type = 2 →
    Gives (.slotActionOrxTrigger h) s fun t => t.orx[h].trigs = s.orx[h].trigs ++ [(max s.now (l.actionAt (s.refEcp l.num) x), x.arg % 16)]
      ∧ t = { s with now := max s.now (l.actionAt (s.refEcp l.num) x), slt := t.slt, orx := t.orx })
  ∧ (∀ (s : State) (h : Fin 8) (l : Latched) (i : Nat) (x : Action), s.firstDue s.slt[h].latched = some (l, i, x) → x.type = 3 → s.evq[h].length < 32 →
    Gives (.slotActionEngineEvent h) s fun t => t.evq[h] = s.evq[h] ++ [x.arg % 65536]
      ∧ t = { s with now := max s.now (l.actionAt (s.refEcp l.num) x), slt := t.slt, evq := t.evq })
  ∧ (∀ (s : State) (h : Fin 8) (l : Latched), firstGain (fun l => symsOf (s.refEcp l.num)) s.slt[h].latched = some l →
    Gives (.gainStatePins h) s fun t => t.get (Fld.FEP_LEVEL_LEVEL.h h)
        = (s.drivePins h (s.pinsOf h 1 &&& l.pinmask) (spread l.pinmask (l.gainpat / 16 ^ ((l.words.getD 1 0#32).toNat / 4 ^ l.gainSym % 4) % 16))).get
            (Fld.FEP_LEVEL_LEVEL.h h)
      ∧ t = { s with now := max s.now (l.gainAt (s.refEcp l.num)), regs := t.regs, slt := t.slt }
      ∧ SameRegs [hamletBase h + Reg.FEP_LEVEL] s t))
  ∧ ((∀ (s : State) (r : Req) (h : Fin 8) (v : Word), Takes s r (hamletBase h + Reg.SLT_EDIT) → getBits Fld.SLT_EDIT_GO v = 1 → s.get (Fld.SLT_EDIT_BUSY.h h) = 0 →
    getBits Fld.SLT_EDIT_IDX v ≤ 639 → getBits Fld.SLT_EDIT_IDX v < patternLen (s.erd (hamletBase h + Reg.SLT_CFG)) →
    Gives (.sltEditGo r h v) s fun t => t.get (Fld.SLT_EDIT_BUSY.h h) = 1 ∧ t.slt[h].edit = some (getBits Fld.SLT_EDIT_IDX v)
      ∧ t = { s with resp := { err := false, data := 0 }, regs := t.regs, slt := t.slt } ∧ SameRegs [hamletBase h + Reg.SLT_EDIT] s t)
  ∧ (∀ (s : State) (h : Fin 8) (idx : Nat), s.slt[h].edit = some idx → s.get (Fld.ARB_CTRL_FREEZE.h h) = 0 →
    s.rowBusy (bufferBase h (s.erd (hamletBase h + Reg.SLT_CFG)) (s.get (Fld.SLT_STAT_ACTIVE.h h)) + 96 * idx) 96 = false →
    Gives (.sltEditCopy h) s fun t =>
      let base := bufferBase h (s.erd (hamletBase h + Reg.SLT_CFG)) (s.get (Fld.SLT_STAT_ACTIVE.h h)) + 96 * idx
      t.get (Fld.SLT_EDIT_BUSY.h h) = 0 ∧ t.slt[h].edit = none
      ∧ (∀ n < 24, ∀ k < 4, memRead t.mem (base + 4 * n + k) = BitVec.ofNat 8 (s.get ((Fld.SLT_STAGEn_WORD.i n).h h) / 256 ^ k))
      ∧ (∀ a, a < base ∨ base + 96 ≤ a → memRead t.mem a = memRead s.mem a))
  ∧ (∀ (s : State) (h : Fin 8), s.get (Fld.ARB_CTRL_FREEZE.h h) = 1 → exec (.sltEditCopy h) s = .next s))

/-- Driving pins (R84, R409): a pin of the mask takes its bit, and SAFE's bit while the pins of the hamlet are forced; any other pin, and every pin of a hamlet under test, keeps its
level.
The front-end pins (R84, R85): a claim takes the pins of its mask that are unowned or lower-ranked and no other; a release frees the pins of its mask that its owner
holds; the unowned pins follow SAFE and the pins of the GPIO follow its LEVEL at once.
Completes (the conclusion is the next state of exec, under conditions on the state and the operands alone): fepClaim, fepRelease, fepSafeWrite,
fepGpioWrite. -/
def Obligations.FrontEndPins : Prop :=
  (∀ (s : State) (h : Fin 8) (mask v j : Nat), j < 12 →
    bitOf ((s.drivePins h mask v).get (Fld.FEP_LEVEL_LEVEL.h h)) j = if bitOf mask j = true ∧ s.bist.target ≠ some h.val
      then bitOf (if s.flt.pinSafe[h] = true then s.get (Fld.FEP_SAFE_SAFE.h h) else v) j else bitOf (s.get (Fld.FEP_LEVEL_LEVEL.h h)) j)
  ∧ ((∀ (s : State) (r : Req) (h : Fin 8) (v : Word) (j : Nat), Takes s r (hamletBase h + Reg.FEP_CLAIM) → 1 ≤ getBits Fld.FEP_CLAIM_OWNER v →
    getBits Fld.FEP_CLAIM_OWNER v ≤ 4 → getBits Fld.FEP_CLAIM_RELEASE v = 0 → j < 12 →
    Gives (.fepClaim r h v) s fun t => t.pinOwner h j
        = (if bitOf (getBits Fld.FEP_CLAIM_MASK v) j ∧ (s.pinOwner h j = 0 ∨ getBits Fld.FEP_CLAIM_OWNER v < s.pinOwner h j)
            then getBits Fld.FEP_CLAIM_OWNER v else s.pinOwner h j)
      ∧ t = { s with resp := { err := false, data := 0 }, regs := t.regs, orx := t.orx, evq := t.evq })
  ∧ (∀ (s : State) (r : Req) (h : Fin 8) (v : Word) (j : Nat), Takes s r (hamletBase h + Reg.FEP_CLAIM) → 1 ≤ getBits Fld.FEP_CLAIM_OWNER v →
    getBits Fld.FEP_CLAIM_OWNER v ≤ 4 → j < 12 →
    Gives (.fepRelease r h v) s fun t => t.pinOwner h j
        = (if bitOf (getBits Fld.FEP_CLAIM_MASK v) j ∧ s.pinOwner h j = getBits Fld.FEP_CLAIM_OWNER v then 0 else s.pinOwner h j)
      ∧ t = { s with resp := { err := false, data := 0 }, regs := t.regs })
  ∧ (∀ (s : State) (r : Req) (h : Fin 8) (v : Word), Takes s r (hamletBase h + Reg.FEP_SAFE) → s.locked (hamletBase h + Reg.FEP_SAFE) = false →
    Gives (.fepSafeWrite r h v) s fun t => t.get (Fld.FEP_SAFE_SAFE.h h) = getBits Fld.FEP_SAFE_SAFE v
      ∧ t.get (Fld.FEP_LEVEL_LEVEL.h h) = (s.drivePins h (if s.flt.pinSafe[h] then 0xFFF else s.pinsOf h 0)
        (getBits Fld.FEP_SAFE_SAFE v)).get (Fld.FEP_LEVEL_LEVEL.h h)
      ∧ t = { s with resp := { err := false, data := 0 }, regs := t.regs })
  ∧ (∀ (s : State) (r : Req) (h : Fin 8) (v : Word), Takes s r (hamletBase h + Reg.FEP_GPIO) →
    Gives (.fepGpioWrite r h v) s fun t => t.get (Fld.FEP_GPIO_LEVEL.h h) = getBits Fld.FEP_GPIO_LEVEL v
      ∧ t.get (Fld.FEP_LEVEL_LEVEL.h h) = (s.drivePins h (s.pinsOf h 4) (getBits Fld.FEP_GPIO_LEVEL v)).get (Fld.FEP_LEVEL_LEVEL.h h)
      ∧ t = { s with resp := { err := false, data := 0 }, regs := t.regs }))

/-- Downlink data (R89 to R91, R192): a message that meets no cause for discarding is held, in place of what was held for its PRBs, until its symbol's deadline; the deadline
takes the symbol's data out of the store at its fixed instant.
Completes (the conclusion is the next state of exec, under conditions on the state and the operands alone): dlIqMessage, dlDataDeadline. -/
def Obligations.DownlinkData : Prop :=
  (∀ (s : State) (m : Hdr) (ws : List Word) (t0 : Nat), s.get (Fld.LNK_FLOWf_CFG_EN.i m.flow) ≠ 0 → s.hdrOk m 0 (4 + 4 * ws.length) = true →
    dlFate ((State.takeSeq { s.at t0 with port := { s.port with inbox := dropFlow m.flow s.port.inbox } } m).arrive m.flow) ws = 0 →
    Gives (.dlIqMessage m ws t0) s fun t => (∀ d ∈ dlCells s ws, d ∈ t.dl.cells)
      ∧ (∀ d, d ∈ t.dl.cells ↔ d ∈ dlCells s ws ∨ d ∈ s.dl.cells ∧ ∀ e ∈ dlCells s ws, ¬(d.car = e.car ∧ d.layer = e.layer ∧ d.sym = e.sym ∧ d.prb = e.prb))
      ∧ t.mem = s.mem ∧ t.eff = s.eff ∧ t.now = max s.now t0)
  ∧ (∀ (s : State) (car : Fin 8) (y : SymId), s.carDefined car 0 = true →
    Gives (.dlDataDeadline car y.slotId y.sym) s fun t => t.dl.cells = (s.dl.cells.filter fun d => !(d.car == car.val && d.sym == y))
      ∧ t.now = max s.now (s.airStart (s.car car) y - s.tDlOf car) ∧ (s.ecc = [] → t.mem = s.mem) ∧ t.eff = s.eff)

/-- The filter banks (R102, R103, R131): a request names its carriers' swaps and sets PEND; the swap, at its instant, changes the active bank of one carrier and clears its
PEND, whether it takes place in a silent symbol or at the fall-back; while the converter clock stands still it waits (R343).
Completes (the conclusion is the next state of exec, under conditions on the state and the operands alone): txFilterSwapRequest, rxFilterSwapRequest,
filterSwapFallback, filterSwap. -/
def Obligations.FilterBanks : Prop :=
  (∀ (s : State) (r : Req) (h n : Fin 8) (v : Word), Takes s r (hamletBase h + Reg.TXC_FSWAP) → getBits Fld.TXC_FSWAP_WHEN v ≠ 3 →
    bitOf (getBits Fld.TXC_FSWAP_CARMASK v) n = true →
    Gives (.txFilterSwapRequest r h v) s fun t => t.txSwap[idx64 h n] = some (s.swapReq (getBits Fld.TXC_FSWAP_WHEN v) 0)
      ∧ t.bit (Fld.TXC_FSTAT_PEND.h h) n = true ∧ t = { s with resp := { err := false, data := 0 }, regs := t.regs, txSwap := t.txSwap }
      ∧ SameRegs [hamletBase h + Reg.TXC_FSTAT] s t)
  ∧ (∀ (s : State) (r : Req) (h n : Fin 8) (v : Word), Takes s r (hamletBase h + Reg.RXC_FSWAP) → getBits Fld.TXC_FSWAP_WHEN v ≠ 3 →
    bitOf (getBits Fld.TXC_FSWAP_CARMASK v) n = true →
    Gives (.rxFilterSwapRequest r h v) s fun t => t.rxSwap[idx64 h n] = some (s.swapReq (getBits Fld.TXC_FSWAP_WHEN v) 0)
      ∧ t.bit (Fld.RXC_FSTAT_PEND.h h) n = true ∧ t = { s with resp := { err := false, data := 0 }, regs := t.regs, rxSwap := t.rxSwap }
      ∧ SameRegs [hamletBase h + Reg.RXC_FSTAT] s t)
  ∧ (∀ (s : State) (h n : Fin 8) (q : SwapReq) (t0 : Nat) (late : Bool), s.txSwap[idx64 h n] = some q → s.swapAt h 0 q late = some t0 → s.clockStops h = false →
    Gives (if late then .filterSwapFallback false h n else .filterSwap false h n) s fun t =>
      t.bit (Fld.TXC_FSTAT_ACTIVE.h h) n = !s.bit (Fld.TXC_FSTAT_ACTIVE.h h) n ∧ t.bit (Fld.TXC_FSTAT_PEND.h h) n = false
      ∧ t = { s with now := max s.now t0, regs := t.regs, txSwap := s.txSwap.set (idx64 h n) none, tx := s.tx.set h { s.tx[h] with was := t.tx[h].was } } ∧ SameRegs [hamletBase h + Reg.TXC_FSTAT] s t)
  ∧ (∀ (s : State) (h n : Fin 8) (q : SwapReq) (t0 : Nat) (late : Bool), s.rxSwap[idx64 h n] = some q → s.swapAt h 1 q late = some t0 → s.clockStops h = false →
    Gives (if late then .filterSwapFallback true h n else .filterSwap true h n) s fun t =>
      t.bit (Fld.RXC_FSTAT_ACTIVE.h h) n = !s.bit (Fld.RXC_FSTAT_ACTIVE.h h) n ∧ t.bit (Fld.RXC_FSTAT_PEND.h h) n = false
      ∧ t = { s with now := max s.now t0, regs := t.regs, rxSwap := s.rxSwap.set (idx64 h n) none, tx := s.tx.set h { s.tx[h] with was := t.tx[h].was } } ∧ SameRegs [hamletBase h + Reg.RXC_FSTAT] s t)
  ∧ (∀ (s : State) (rx : Bool) (h n : Fin 8), s.clockStops h = true →
    exec (.filterSwap rx h n) s = .next s ∧ exec (.filterSwapFallback rx h n) s = .next s)

/-- The pulse bank and the predistorter (R108, R110, R111): a request pends with its instant, or is held behind a running fade; at the instant the active bank changes; a
fade ends with DONE, one of no length at once (log 40); while the converter clock stands still they wait (R343).
Completes (the conclusion is the next state of exec, under conditions on the state and the operands alone): cfrSwapRequest, cfrPulseSwap, dpdSwapRequest,
dpdFadeStart, dpdFadeEnd. -/
def Obligations.PulseAndPredistorter : Prop :=
  (∀ (s : State) (r : Req) (h : Fin 8) (v : Word), Takes s r (hamletBase h + Reg.TXC_CFR_SWAP) → getBits Fld.TXC_CFR_SWAP_GO v = 1 →
    getBits Fld.TXC_CFR_SWAP_WHEN v ≠ 3 →
    Gives (.cfrSwapRequest r h v) s fun t => t.get (Fld.TXC_CFR_STAT_PEND.h h) = 1 ∧ t.tx[h].cfr = some (s.swapReq (getBits Fld.TXC_CFR_SWAP_WHEN v) 0)
      ∧ t = { s with resp := { err := false, data := 0 }, regs := t.regs, tx := t.tx })
  ∧ (∀ (s : State) (h : Fin 8) (q : SwapReq) (t0 : Nat) (late : Bool), s.tx[h].cfr = some q → s.swapAt h 0 q late = some t0 → s.clockStops h = false →
    Gives (.cfrPulseSwap h late) s fun t => t.get (Fld.TXC_CFR_STAT_ACTIVE.h h) = 1 - s.get (Fld.TXC_CFR_STAT_ACTIVE.h h)
      ∧ t.get (Fld.TXC_CFR_STAT_PEND.h h) = 0 ∧ t.tx[h].cfr = none ∧ t = { s with now := max s.now t0, regs := t.regs, tx := t.tx })
  ∧ (∀ (s : State) (r : Req) (h k : Fin 8) (v : Word), Takes s r (hamletBase h + Reg.DPD_SWAPk + 4 * k) → getBits Fld.DPD_SWAPk_WHEN v ≠ 3 →
    Gives (.dpdSwapRequest r h k v) s fun t =>
      (s.get ((Fld.DPD_STATk_XF.i k).h h) = 0 → t.get ((Fld.DPD_STATk_PEND.i k).h h) = 1
        ∧ t.dpd[idx64 h k].pend = some (s.swapReq (getBits Fld.DPD_SWAPk_WHEN v) (getBits Fld.DPD_SWAPk_XF v)))
      ∧ (s.get ((Fld.DPD_STATk_XF.i k).h h) ≠ 0 → t.get ((Fld.DPD_STATk_HELD.i k).h h) = 1
        ∧ t.dpd[idx64 h k].held = some (s.swapReq (getBits Fld.DPD_SWAPk_WHEN v) (getBits Fld.DPD_SWAPk_XF v)))
      ∧ t = { s with resp := { err := false, data := 0 }, regs := t.regs, dpd := t.dpd } ∧ SameRegs [hamletBase h + Reg.DPD_STATk + 4 * k] s t)
  ∧ (∀ (s : State) (h k : Fin 8) (q : SwapReq) (t0 : Nat) (late : Bool), s.dpd[idx64 h k].pend = some q → s.swapAt h 0 q late = some t0 → s.clockStops h = false → q.xf ≠ 0 →
    Gives (.dpdFadeStart h k late) s fun t => t.get ((Fld.DPD_STATk_ACTIVE.i k).h h) = 1 - s.get ((Fld.DPD_STATk_ACTIVE.i k).h h)
      ∧ t.get ((Fld.DPD_STATk_XF.i k).h h) = 1 ∧ t.get ((Fld.DPD_STATk_PEND.i k).h h) = 0
      ∧ t.dpd[idx64 h k].pend = none ∧ t.dpd[idx64 h k].fadeEnd = some (max s.now t0 + fadeLen q.xf)
      ∧ t = { s with now := max s.now t0, regs := t.regs, dpd := t.dpd } ∧ SameRegs [hamletBase h + Reg.DPD_STATk + 4 * k] s t)
  ∧ (∀ (s : State) (h k : Fin 8) (d : Nat), s.dpd[idx64 h k].fadeEnd = some d → s.dpd[idx64 h k].held = none → s.evq[h].length < 32 →
    Gives (.dpdFadeEnd h k) s fun t => t.get ((Fld.DPD_STATk_XF.i k).h h) = 0 ∧ t.get ((Fld.DPD_STATk_DONE.i k).h h) = 1
      ∧ t.dpd[idx64 h k].fadeEnd = none ∧ t.evq[h] = s.evq[h] ++ [0xFFF4]
      ∧ t = { s with now := max s.now d, regs := t.regs, dpd := t.dpd, evq := t.evq } ∧ SameRegs [hamletBase h + Reg.DPD_STATk + 4 * k] s t)
  ∧ (∀ (s : State) (h k : Fin 8) (q : SwapReq) (t0 : Nat) (late : Bool), s.dpd[idx64 h k].pend = some q → s.swapAt h 0 q late = some t0 → s.clockStops h = false →
    q.xf = 0 → s.evq[h].length < 32 →
    Gives (.dpdFadeStart h k late) s fun t => t.get ((Fld.DPD_STATk_ACTIVE.i k).h h) = 1 - s.get ((Fld.DPD_STATk_ACTIVE.i k).h h)
      ∧ t.get ((Fld.DPD_STATk_XF.i k).h h) = s.get ((Fld.DPD_STATk_XF.i k).h h) ∧ t.get ((Fld.DPD_STATk_DONE.i k).h h) = 1 ∧ t.dpd[idx64 h k].pend = none
      ∧ t.evq[h] = s.evq[h] ++ [0xFFF4] ∧ t = { s with now := max s.now t0, regs := t.regs, dpd := t.dpd, evq := t.evq })
  ∧ (∀ (s : State) (h k : Fin 8) (late : Bool), s.clockStops h = true → exec (.cfrPulseSwap h late) s = .next s ∧ exec (.dpdFadeStart h k late) s = .next s)

/-- The half-subframe boundary and the mute ramps (R104 to R106): a written setting is in force from its boundary on; a ramp starts from the present gain, ends at its
target, and the safety ramp mutes every path of its hamlet and of no other, and SAFE reads 1 at its end; while the converter clock stands still, settings and
ramps wait (R343).
While and after the converter PLL is unlocked (R114, R142): the DAC clock is gated after 64 cycles of zero code; at the boundary data resumes and UNLOCKED reads 0, in
both directions.
Completes (the conclusion is the next state of exec, under conditions on the state and the operands alone): halfSubframeSettings, muteRampStart,
muteRampEnd, safetyRamp, safetyRampEnd, dacClockGate, txDataResume, rxContributionResume. -/
def Obligations.SettingsAndMute : Prop :=
  ((∀ (s : State) (h : Fin 8) (x : Nat) (l : List Nat), s.clockStops h = false → (s.tx[h].sets.map fun y => y.due) ++ (s.thm.boDue[h].map fun x => x.1)
      ++ (s.cal.next.filter fun c => c.2.1 / 256 == h.val).map (fun c => c.1) = x :: l →
    Gives (.halfSubframeSettings h) s fun t => t.now = max s.now (l.foldl min x) ∧ t.tx[h].sets = (s.tx[h].sets.filter fun y => y.due != l.foldl min x)
      ∧ t.eff = s.tx[h].sets.foldl (fun e y => if y.due = l.foldl min x then rfWrite e y.addr y.word else e) s.eff
      ∧ t = { s with now := t.now, eff := t.eff, tx := t.tx, cal := t.cal, thm := t.thm })
  ∧ (∀ (s : State) (h k : Fin 8) (d : Nat) (v : Bool) (l : List (Nat × Bool)), s.mute[idx64 h k].pend = (d, v) :: l → s.clockStops h = false → s.get ((Fld.TXC_PATHk_RAMP.i k).h h) ≠ 0 →
    let target := if v || s.rotMuted h k then 0 else 65536
    Gives (.muteRampStart h k) s fun t => t.mute[idx64 h k] = ⟨s.mute[idx64 h k].gainAt d, target, d, min (s.get ((Fld.TXC_PATHk_RAMP.i k).h h)) 100 * usU, true, v, l⟩
      ∧ t.bit (Fld.TXC_STAT_MUTED.h h) k = (s.bit (Fld.TXC_STAT_MUTED.h h) k && decide (s.mute[idx64 h k].gainAt d = 0 ∧ target = 0))
      ∧ t = { s with now := max s.now d, regs := t.regs, mute := t.mute, cal := t.cal } ∧ SameRegs [hamletBase h + Reg.TXC_STAT] s t)
  ∧ (∀ (s : State) (h k : Fin 8), s.mute[idx64 h k].ramping = true → s.tx[h].rampEnd = none →
    Gives (.muteRampEnd h k) s fun t => t.mute[idx64 h k].gain = s.mute[idx64 h k].target ∧ t.mute[idx64 h k].ramping = false
      ∧ t.bit (Fld.TXC_STAT_MUTED.h h) k = decide (s.mute[idx64 h k].target = 0)
      ∧ t = { s with now := max s.now (s.mute[idx64 h k].start + s.mute[idx64 h k].len), regs := t.regs, mute := t.mute, cal := t.cal })
  ∧ (∀ (s : State) (h : Fin 8) (t0 : Nat), 2 ≤ s.hstate h →
    Gives (.safetyRamp h t0) s fun t => t.get (Fld.TXC_STAT_SAFE.h h) = s.get (Fld.TXC_STAT_SAFE.h h) ∧ (∀ k : Fin 8, t.get ((Fld.TXC_PATHk_MUTE.i k).h h) = 1)
      ∧ (∀ k : Fin 8, t.mute[idx64 h k] = ⟨s.mute[idx64 h k].gainAt (max s.now t0), 0, max s.now t0, 100 * usU, true, true, []⟩)
      ∧ (∀ g k : Fin 8, g ≠ h → t.mute[idx64 g k] = s.mute[idx64 g k]) ∧ t.tx[h].rampEnd = some (max s.now t0 + 100 * usU)
      ∧ t = { s with now := max s.now t0, regs := t.regs, mute := t.mute, tx := t.tx })
  ∧ (∀ (s : State) (h : Fin 8) (d : Nat), s.tx[h].rampEnd = some d →
    Gives (.safetyRampEnd h) s fun t => t.get (Fld.TXC_STAT_SAFE.h h) = 1 ∧ (∀ k : Fin 8, t.mute[idx64 h k].gain = s.mute[idx64 h k].target ∧ t.mute[idx64 h k].ramping = false)
      ∧ t.tx[h].rampEnd = none ∧ t = { s with now := max s.now d, regs := t.regs, mute := t.mute, tx := t.tx, cal := t.cal })
  ∧ (∀ (s : State) (h k : Fin 8), s.clockStops h = true → exec (.halfSubframeSettings h) s = .next s ∧ exec (.muteRampStart h k) s = .next s))
  ∧ ((∀ (s : State) (h : Fin 8), s.tx[h].forced = true → s.tx[h].dacGated = false → s.tx[h].resumeDue = none →
    exec (.dacClockGate h) s = .next { s with now := max s.now (s.tx[h].forcedAt + 64 * 3200000), tx := s.tx.set h { s.tx[h] with dacGated := true } })
  ∧ (∀ (s : State) (h : Fin 8) (d : Nat), s.tx[h].resumeDue = some d →
    Gives (.txDataResume h) s fun t => t.get (Fld.TXC_STAT_UNLOCKED.h h) = 0 ∧ t.tx[h].forced = false ∧ t.tx[h].dacGated = false ∧ t.tx[h].resumeDue = none
      ∧ (s.dl.syms = [] → t = { s with now := max s.now d, regs := t.regs, tx := t.tx, dl := { s.dl with done := max s.dl.done (max s.now d) } }
        ∧ SameRegs [hamletBase h + Reg.TXC_STAT, hamletBase h + Reg.TXC_UNLOCK_CNT] s t))
  ∧ (∀ (s : State) (h : Fin 8) (d : Nat), s.rx[h].resumeDue = some d →
    Gives (.rxContributionResume h) s fun t => t.get (Fld.RXC_STAT_UNLOCKED.h h) = 0 ∧ t.rx[h].forced = false
      ∧ (s.rx[h].zeroFrom, d) ∈ t.rx[h].zeros ∧ t.rx[h].resumeDue = none
      ∧ t = { s with now := max s.now d, regs := t.regs, rx := t.rx } ∧ SameRegs [hamletBase h + Reg.RXC_STAT, hamletBase h + Reg.RXC_UNLOCK_CNT] s t))

/-- Reception (R124, R125, R137): an overrange run marks its path from its first clipped sample on and leaves every store alone; the combine of a symbol takes place at its
fixed instant, under the settings of its air start (R127), and counts the hamlets that it leaves out; an undefined carrier has none (R511).
PRACH (R138 to R141): a named occasion that nothing drops begins on its extractor with the settings in force; its messages go as their blocks are complete, and the last frees the extractor,
an occasion that waits for its last ones going first; the
settings of the earliest boundary come into force together.
Completes (the conclusion is the next state of exec, under conditions on the state and the operands alone): rxOverrange, ulCombine, prachOccasionStart,
prachOccasionEnd, prachSettingsTakeEffect. -/
def Obligations.Reception : Prop :=
  ((∀ (s : State) (h k : Fin 8) (t0 n peak : Nat), n ≠ 0 →
    Gives (.rxOverrange h k t0 n peak) s fun t => (∃ m ∈ t.rx[h].marks, m = ⟨k.val, t0, t0 + (n - 1) * adcU + 10 * nsU⟩)
      ∧ (∀ g : Fin 8, g ≠ h → t.rx[g] = s.rx[g]) ∧ t.now = max s.now t0 ∧ t.mem = s.mem ∧ t.eff = s.eff)
  ∧ (∀ (s : State) (h k : Fin 8) (t0 peak : Nat),
    Gives (.rxOverrange h k t0 0 peak) s fun t => t.get ((Fld.RXC_PEAKk_PEAK.i k).h h) = max (s.get ((Fld.RXC_PEAKk_PEAK.i k).h h)) (min peak 2047)
      ∧ t = { s with now := max s.now t0, regs := t.regs } ∧ SameRegs [hamletBase h + Reg.RXC_PEAKk + 4 * k] s t)
  ∧ (∀ (s : State) (car : Fin 8) (y : SymId) (u : RxSamples) (complete : Nat), (s.symView car y).carDefined car 1 = true →
    Gives (.ulCombine car y ⟨u, complete⟩) s fun t =>
      let v := s.symView car y
      let c := v.car car
      let air := v.airStart c y
      let t1 := max s.now (air + c.symLen y + tCombine (v.eget (Fld.LNK_UL_CARn_FFTSZ.i car)) c.num)
      let w := rxSymbolSat u car c y air { rxRun u (s.at t1) with eff := v.eff }
      t.now = t1 ∧ (s.ecc = [] → t.mem = s.mem) ∧ t.eff = s.eff
      ∧ (w.weightHamlets.any (fun h => w.dirOver h 1 air (air + c.symLen y)) = true →
        t.get (Fld.LNK_UL_CNTn_COUNT.i 4) = min (s.get (Fld.LNK_UL_CNTn_COUNT.i 4) + ((w.ulHamlets car air (air + c.symLen y)).filter fun (h : Fin 8) =>
          !bitOf complete h || w.zeroIn h (w.fftWindow h car c y air).1 (w.fftWindow h car c y air).2).length) (2 ^ Fld.LNK_UL_CNTn_COUNT.width - 1)))
  ∧ (∀ (s : State) (car : Fin 8) (y : SymId) (u : RxSamples) (complete : Nat), (s.symView car y).carDefined car 1 = false →
    exec (.ulCombine car y ⟨u, complete⟩) s = .next s))
  ∧ ((∀ (s : State) (j : Fin 16) (frame : Nat), s.praNamed j frame = true → s.praDropped (s.praExt j) (s.praOccasion j frame) = false →
    exec (.prachOccasionStart j frame) s = .next
      { s with now := max s.now (s.praOccasion j frame).start, prach := s.prach.set (s.praExt j) (some (s.praOccasion j frame)),
               prachOld := s.prachOld.set (s.praExt j) (s.prachOld[s.praExt j] ++ (s.prach[s.praExt j]).toList) })
  ∧ (∀ (s : State) (j : Fin 16) (frame : Nat), s.praNamed j frame = true → s.praDropped (s.praExt j) (s.praOccasion j frame) = true →
    Gives (.prachOccasionStart j frame) s fun t => t = { s with now := max s.now (s.praOccasion j frame).start, regs := t.regs }
      ∧ t.get (Fld.LNK_UL_CNTn_COUNT.i 3) = min (s.get (Fld.LNK_UL_CNTn_COUNT.i 3) + 1) (2 ^ Fld.LNK_UL_CNTn_COUNT.width - 1))
  ∧ (∀ (s : State) (x : Fin 4) (u : RxSamples) (o : Occasion), s.prach[x] = some o → s.prachOld[x] = [] → o.len ≤ 768 * (o.sent + 1) →
    Gives (.prachOccasionEnd x u) s fun t => t.prach[x] = none ∧ t.prachOld[x] = [] ∧ t.now = max s.now (s.praReady o o.sent) ∧ t.mem = s.mem ∧ t.eff = s.eff)
  ∧ (∀ (s : State) (x : Fin 4) (u : RxSamples) (o : Occasion), s.prach[x] = some o → s.prachOld[x] = [] → 768 * (o.sent + 1) < o.len →
    Gives (.prachOccasionEnd x u) s fun t => t.prach[x] = some { o with sent := o.sent + 1 } ∧ t.prachOld[x] = [] ∧ t.now = max s.now (s.praReady o o.sent)
      ∧ t.mem = s.mem ∧ t.eff = s.eff)
  ∧ (∀ (s : State) (p : SetPend) (l : List SetPend), s.praSets = p :: l →
    Gives .prachSettingsTakeEffect s fun t => t.praSets = ((p :: l).filter fun y => y.due != l.foldl (fun m y => min m y.due) p.due)
      ∧ t.eff = (p :: l).foldl (fun e y => if y.due = l.foldl (fun m y => min m y.due) p.due then rfWrite e y.addr y.word else e) s.eff
      ∧ t = { s with now := max s.now (l.foldl (fun m y => min m y.due) p.due), eff := t.eff, praSets := t.praSets })
  ∧ (∀ (s : State) (x : Fin 4) (u : RxSamples) (o : Occasion) (l : List Occasion), s.prachOld[x] = o :: l →
    Gives (.prachOccasionEnd x u) s fun t => t.prach[x] = s.prach[x]
      ∧ t.prachOld[x] = (if o.len ≤ 768 * (o.sent + 1) then l else { o with sent := o.sent + 1 } :: l) ∧ t.now = max s.now (s.praReady o o.sent)
      ∧ t.mem = s.mem ∧ t.eff = s.eff)
  ∧ (∀ (s : State) (j : Fin 16) (frame : Nat), s.praNamed j frame = false → exec (.prachOccasionStart j frame) s = .next s))

/-- Ownership of an observation receiver (R148, R150): a claim of a free receiver with free pins takes it and its switch pins; a release by its owner frees it; READY follows
the claim; a frequency in range is in force at once, or held while a capture runs.
Triggers (R152 to R154): GO queues a trigger at the first tick at least 0.5 us later; STOP marks the running capture with END code 1; at the trigger's instant the
capture of its set starts, or LASTREF gives the reason it is refused.
Completes (the conclusion is the next state of exec, under conditions on the state and the operands alone): orxClaim, orxRelease, orxReady, orxNcoWrite,
orxTriggerGo, orxStop, captureTrigger, captureSettled. -/
def Obligations.OrxOwnership : Prop :=
  ((∀ (s : State) (r : Req) (h : Fin 8) (v : Word), Takes s r (hamletBase h + Reg.ORX_CLAIM) → s.calOnOrx h = false →
    (getBits Fld.ORX_CLAIM_OWNER v = 2 ∨ getBits Fld.ORX_CLAIM_OWNER v = 3 ∧ r.id = 16) → getBits Fld.ORX_CLAIM_RELEASE v = 0 →
    s.get (Fld.ORX_STAT_OWNER.h h) = 0 → (∀ j < 12, bitOf (s.get (Fld.ORX_SW_PINMASK.h h)) j = true → s.pinOwner h j = 0) →
    Gives (.orxClaim r h v) s fun t => t.get (Fld.ORX_STAT_OWNER.h h) = getBits Fld.ORX_CLAIM_OWNER v
      ∧ (∀ j < 12, bitOf (s.get (Fld.ORX_SW_PINMASK.h h)) j = true → t.pinOwner h j = getBits Fld.ORX_CLAIM_OWNER v) ∧ t.mem = s.mem ∧ t.eff = s.eff)
  ∧ (∀ (s : State) (r : Req) (h : Fin 8) (v : Word), Takes s r (hamletBase h + Reg.ORX_CLAIM) → s.calOnOrx h = false →
    (getBits Fld.ORX_CLAIM_OWNER v = 2 ∨ getBits Fld.ORX_CLAIM_OWNER v = 3 ∧ r.id = 16) → s.get (Fld.ORX_STAT_OWNER.h h) = getBits Fld.ORX_CLAIM_OWNER v →
    Gives (.orxRelease r h v) s fun t => t.get (Fld.ORX_STAT_OWNER.h h) = 0 ∧ t.get (Fld.ORX_STAT_READY.h h) = 0 ∧ t.mem = s.mem ∧ t.eff = s.eff)
  ∧ (∀ (s : State) (h : Fin 8) (t0 : Nat), s.get (Fld.ORX_STAT_OWNER.h h) ≠ 0 →
    Gives (.orxReady h t0) s fun t => t.get (Fld.ORX_STAT_READY.h h) = 1 ∧ t = { s with now := max s.now t0, regs := t.regs }
      ∧ SameRegs [hamletBase h + Reg.ORX_STAT] s t)
  ∧ (∀ (s : State) (r : Req) (h : Fin 8) (v : Word), Takes s r (hamletBase h + Reg.ORX_NCO_FREQ) → 600000 ≤ getBits Fld.ORX_NCO_FREQ_FREQ v →
    getBits Fld.ORX_NCO_FREQ_FREQ v ≤ 8400000 → ¬(s.get (Fld.ORX_STAT_OWNER.h h) = 3 ∧ r.id = h.val) →
    Gives (.orxNcoWrite r h v) s fun t => t.get (Fld.ORX_NCO_FREQ_FREQ.h h) = getBits Fld.ORX_NCO_FREQ_FREQ v
      ∧ (s.orx[h].cap = none → t.eget (Fld.ORX_NCO_FREQ_FREQ.h h) = getBits Fld.ORX_NCO_FREQ_FREQ v)
      ∧ (s.orx[h].cap ≠ none → t.eff = s.eff ∧ t.get (Fld.ORX_NCO_FREQ_PEND.h h) = 1)
      ∧ t = { s with resp := { err := false, data := 0 }, regs := t.regs, eff := t.eff } ∧ SameRegs [hamletBase h + Reg.ORX_NCO_FREQ] s t))
  ∧ ((∀ (s : State) (r : Req) (h : Fin 8) (v : Word), Takes s r (hamletBase h + Reg.ORX_TRIG) →
    Gives (.orxTriggerGo r h v) s fun t => t.orx[h].trigs = s.orx[h].trigs ++ [(nextMult (s.now + usU / 2) tickU, getBits Fld.ORX_TRIG_SET v)]
      ∧ t = { s with resp := { err := false, data := 0 }, orx := t.orx })
  ∧ (∀ (s : State) (r : Req) (h : Fin 8) (v : Word) (c : Capture), Takes s r (hamletBase h + Reg.ORX_TRIG) → s.orx[h].cap = some c → c.ending = none →
    Gives (.orxStop r h v) s fun t => t.orx[h].cap = some { c with ending := some 1 } ∧ t = { s with resp := { err := false, data := 0 }, orx := t.orx })
  ∧ (∀ (s : State) (h : Fin 8) (t0 n : Nat) (rest : List (Nat × Nat)), popTrig s.orx[h].trigs = some ((t0, n), rest) →
    let u := State.at (s.setOrx h { s.orx[h] with trigs := rest }) t0
    (u.trigReason h n = 0 → Gives (.captureTrigger h) s fun t => (∃ c, t.orx[h].cap = some c ∧ c.set = n
        ∧ c.path = s.get ((Fld.ORX_CSETn_PATH.i n).h h) ∧ c.len = s.get ((Fld.ORX_CSETn_LEN.i n).h h)) ∧ t.orx[h].trigs = rest
        ∧ t = { s with now := max s.now t0, regs := t.regs, eff := t.eff, orx := t.orx, dma := t.dma })
    ∧ (u.trigReason h n ≠ 0 → Gives (.captureTrigger h) s fun t => t.get (Fld.ORX_STAT_LASTREF.h h) = u.trigReason h n ∧ t.get (Fld.ORX_STAT_TRIGREF.h h) = 1
        ∧ t.orx[h].cap = s.orx[h].cap ∧ t.orx[h].trigs = rest ∧ t = { s with now := max s.now t0, regs := t.regs, orx := t.orx }))
  ∧ (∀ (s : State) (h : Fin 8) (c : Capture) (t0 : Nat), s.orx[h].cap = some c → c.settle = some t0 →
    Gives (.captureSettled h) s fun t => t.get (Fld.ORX_STAT_SETTLING.h h) = 0 ∧ t.get (Fld.ORX_STAT_RUN.h h) = 1
      ∧ t.orx[h].cap = some { c with settle := none } ∧ t = { s with now := max s.now t0, regs := t.regs, orx := t.orx }
      ∧ SameRegs [hamletBase h + Reg.ORX_STAT] s t))

/-- A captured group (R155, R156, R158): its 28 bytes go to the ring's write position, with a reference the reference group to the next, in whole words (R279), so that the last half word
of a group at an even position waits for the next group, and no other byte changes. Under FREEZE the groups wait in the capture FIFO (R292); a group that finds the FIFO full ends the
capture with END code 5 (R27).
The end of a capture and its record (R149, R159, R160, R163 to R165): a capture that ends leaves its record last in the FIFO, the oldest of four going; a write of
CREC_NEXT discards the head; the half word that its last group left is closed; a message leaves when its flow has the credits for it; a paused capture goes on when the ring has room.
Completes (the conclusion is the next state of exec, under conditions on the state and the operands alone): captureGroup, captureEnd, captureRecordNext,
orxClip, deepFlowMessage, deepFlowResume. -/
def Obligations.Captures : Prop :=
  ((∀ (s : State) (h : Fin 8) (first : Nat) (adc : List Int) (c : Capture), s.orx[h].cap = some c → c.takes = true →
    s.ringFull h c = false → s.orx[h].fifo = [] → s.get (Fld.ARB_CTRL_FREEZE.h h) = 0 → (∀ k : Fin 10, s.sto[k].copy = none) → 2 ≤ s.eget (Fld.ORX_RING_LEN.h h) →
    Gives (.captureGroup h first adc) s fun t =>
      let a := hamletBase h + s.get (Fld.ORX_RING_BASE.h h) * 65536 + 28 * s.orx[h].wpos
      let n : Int := ((c.first + c.sample * orxU) / orxU : Nat)
      let g := groupBits ((List.range 8).map fun (j : Nat) => s.orxSample h first adc (n + j))
      let r := groupBits ((List.range 8).map fun (j : Nat) => s.refSample h c.path c.refsel (n + j - c.rdly))
      (∃ d, t.orx[h].cap = some d ∧ d.count = c.count + 1 ∧ d.sample = c.sample + 8) ∧ t.orx[h].fifo = [] ∧ t.now = max s.now (c.first + (c.sample + 8) * orxU)
      ∧ (c.refsel = 0 → s.orx[h].wpos % 2 = 0 → t.memLE a 24 = g % 2 ^ 192 ∧ t.orx[h].half = g / 2 ^ 192 ∧ t.orx[h].opened = some (a + 24)
        ∧ ∀ x, x < a ∨ a + 24 ≤ x → memRead t.mem x = memRead s.mem x)
      ∧ (c.refsel = 0 → s.orx[h].wpos % 2 = 1 → t.memLE (a - 4) 32 = ((if s.orx[h].opened = some (a - 4) then s.orx[h].half else 0) + g * 2 ^ 32) % 2 ^ 256
        ∧ t.orx[h].opened = none ∧ ∀ x, x < a - 4 ∨ a + 28 ≤ x → memRead t.mem x = memRead s.mem x)
      ∧ (c.refsel ≠ 0 → s.orx[h].wpos % 2 = 0 → s.orx[h].wpos + 1 < s.eget (Fld.ORX_RING_LEN.h h) → t.memLE a 28 = g ∧ t.memLE (a + 28) 28 = r
        ∧ ∀ x, x < a ∨ a + 56 ≤ x → memRead t.mem x = memRead s.mem x))
  ∧ (∀ (s : State) (h : Fin 8) (first : Nat) (adc : List Int) (c : Capture), s.orx[h].cap = some c → c.takes = true →
    s.ringFull h c = false → s.fifoFull h c = false → s.get (Fld.ARB_CTRL_FREEZE.h h) = 1 → 2 ≤ s.eget (Fld.ORX_RING_LEN.h h) →
    Gives (.captureGroup h first adc) s fun t => t.orx[h].fifo.length = s.orx[h].fifo.length + c.mult ∧ t.mem = s.mem
      ∧ (∃ d, t.orx[h].cap = some d ∧ d.count = c.count + 1 ∧ d.sample = c.sample + 8) ∧ t.now = max s.now (c.first + (c.sample + 8) * orxU))
  ∧ (∀ (s : State) (h : Fin 8) (first : Nat) (adc : List Int) (c : Capture), s.orx[h].cap = some c → c.takes = true → c.ending = none → s.fifoFull h c = true →
    Gives (.captureGroup h first adc) s fun t => t.orx[h].cap = some { c with ending := some 5 } ∧ t.mem = s.mem))
  ∧ ((∀ (s : State) (h : Fin 8) (full : Bool) (c : Capture) (code : Nat), s.orx[h].cap = some c → c.ending = some code →
    Gives (.captureEnd h full) s fun t => t.orx[h].cap = none ∧ t.orx[h].recs = (if 4 ≤ s.orx[h].recs.length then s.orx[h].recs.tail else s.orx[h].recs) ++ [recordOf c code]
      ∧ (∀ w, s.orx[h].opened = some w → s.orx[h].fifo = [] → t.memLE w 8 = s.orx[h].half % 2 ^ 64)
      ∧ (∀ a, (∀ w, s.orx[h].opened = some w → a < w ∨ w + 8 ≤ a) → memRead t.mem a = memRead s.mem a) ∧ t.now = s.now)
  ∧ (∀ (s : State) (h : Fin 8) (full : Bool) (c : Capture), s.orx[h].cap = some c → c.ending = none → c.done = true →
    Gives (.captureEnd h full) s fun t => t.orx[h].cap = none ∧ t.orx[h].recs = (if 4 ≤ s.orx[h].recs.length then s.orx[h].recs.tail else s.orx[h].recs) ++ [recordOf c 0]
      ∧ (∀ a, (∀ w, s.orx[h].opened = some w → a < w ∨ w + 8 ≤ a) → memRead t.mem a = memRead s.mem a) ∧ t.now = s.now)
  ∧ (∀ (s : State) (r : Req) (h : Fin 8) (v : Word), Takes s r (hamletBase h + Reg.ORX_CREC_NEXT) →
    Gives (.captureRecordNext r h v) s fun t => t.orx[h].recs = s.orx[h].recs.tail ∧ t = { s with resp := { err := false, data := 0 }, regs := t.regs, orx := t.orx }
      ∧ SameRegs [hamletBase h + Reg.ORX_CREC_POS, hamletBase h + Reg.ORX_CREC_LEN, hamletBase h + Reg.ORX_CREC_T0, hamletBase h + Reg.ORX_CREC_T1] s t)
  ∧ (∀ (s : State) (h : Fin 8) (n : Nat), n ≠ 0 → s.get (Fld.ORX_STAT_OVR.h h) = 1 →
    Gives (.orxClip h n) s fun t => t.get ((Fld.ORX_CNTn_COUNT.i 1).h h) = min (s.get ((Fld.ORX_CNTn_COUNT.i 1).h h) + n) (2 ^ Fld.ORX_CNTn_COUNT.width - 1)
      ∧ t.get (Fld.ORX_STAT_OVR.h h) = 1 ∧ t = { s with regs := t.regs, orx := t.orx })
  ∧ (∀ (s : State) (h : Fin 8) (n : Nat), n ≠ 0 → s.get (Fld.ORX_STAT_OVR.h h) = 0 →
    Gives (.orxClip h n) s fun t => t.mem = s.mem ∧ t.eff = s.eff ∧ t.now = s.now
      ∧ (∀ c, s.orx[h].cap = some c → c.settle = none → c.paused = none → t.orx[h].cap = some { c with grpClip := true }))
  ∧ (∀ (s : State) (h : Fin 8) (d : DeepItem) (l : List DeepItem), s.orx[h].items = d :: l → d.kind ≠ 0 → (sendDeep h d d.arg false [] s).isSome = true →
    Gives (.deepFlowMessage h) s fun t => t.orx[h].items = l ∧ t.mem = s.mem ∧ t.now = s.now)
  ∧ (∀ (s : State) (h : Fin 8) (c : Capture) (p : Nat), s.orx[h].cap = some c → c.paused = some p → c.ending = none →
    s.get (Fld.ORX_DFSTAT_UNSENT.h h) + max 64 (s.get (Fld.ORX_DF_RESUME.h h)) ≤ s.eget (Fld.ORX_RING_LEN.h h) →
    Gives (.deepFlowResume h) s fun t => t.get (Fld.ORX_DFSTAT_PAUSED.h h) = 0
      ∧ (∃ d, t.orx[h].cap = some d ∧ d.paused = none ∧ d.opens = true ∧ d.sample = c.sample + (p + nextMult (s.now - p) (8 * orxU) - p) / orxU)
      ∧ t = { s with now := t.now, regs := t.regs, orx := t.orx })
  ∧ (∀ (s : State) (h : Fin 8) (c : Capture), s.orx[h].cap = some c → c.ending = none → c.done = false → c.settle = none → s.fifoFull h c = true →
    Gives (.captureEnd h true) s fun t => t.orx[h].cap = none
      ∧ t.orx[h].recs = (if 4 ≤ s.orx[h].recs.length then s.orx[h].recs.tail else s.orx[h].recs) ++ [recordOf c 5])
  ∧ (∀ (s : State) (h : Fin 8) (d : DeepItem) (l : List DeepItem), s.orx[h].items = d :: l → d.kind = 0 → s.orx[h].lost = 0 → s.get (Fld.ARB_CTRL_FREEZE.h h) = 0 →
    (s.orx[h].fifo.any fun g => g.stream) = false →
    let run := d :: runOfData 63 l
    (sendDeep h d run.length (run.any fun x => x.ovr) (run.flatMap ((readItems h run s).itemWords h)) (readItems h run s)).isSome = true →
    Gives (.deepFlowMessage h) s fun t => t.orx[h].items = l.drop (run.length - 1) ∧ t.now = s.now))

/-- Link training (R174, R175, R205): EN and RETRAIN start the training of both directions; a training frame moves its lane's taps as its control field asks; an overrun phase
ends in FAILED with its code and a retry 100 ms later; 64 codewords in a row bring a direction up at its capacity.
Completes (the conclusion is the next state of exec, under conditions on the state and the operands alone): linkEnable, linkRetrain, trainingFrame,
trainingPhaseTimeout, trainingComplete, trainingRetry. -/
def Obligations.LinkTraining : Prop :=
  (∀ (s : State) (r : Req) (v : Word), Takes s r Reg.LNK_CTRL → getBits Fld.LNK_CTRL_EN v = 1 → s.get Fld.LNK_CTRL_EN = 0 →
    Gives (.linkEnable r v) s fun t => t.get Fld.LNK_STAT_STATE = 1 ∧ t.lnk.tx.up = false ∧ t.lnk.rx.up = false ∧ t.mem = s.mem ∧ t.eff = s.eff)
  ∧ (∀ (s : State) (r : Req) (v : Word), Takes s r Reg.LNK_CTRL → getBits Fld.LNK_CTRL_EN v = 1 → s.get Fld.LNK_CTRL_EN = 1 →
    getBits Fld.LNK_CTRL_PWRREQ v = s.get Fld.LNK_CTRL_PWRREQ →
    Gives (.linkRetrain r v) s fun t => t.get Fld.LNK_STAT_STATE = 1 ∧ t.lnk.tx.up = false ∧ t.lnk.rx.up = false ∧ t.mem = s.mem ∧ t.eff = s.eff)
  ∧ (∀ (s : State) (p : Fin 9) (c st eq : Word) (t0 : Nat), s.get Fld.LNK_STAT_STATE = 1 → c.toNat / 2 ^ 28 = 5 → st.toNat / 2 ^ 28 = 10 → bitOf c.toNat 20 = false →
    Gives (.trainingFrame p ⟨c, st, eq⟩ t0) s fun t => t.lnk.taps[p] = (tapsAfter c.toNat s.lnk.taps[p]).1 ∧ t.lnk.prec[p] = bitOf c.toNat 21
      ∧ t.lnk.farReady[p] = bitOf c.toNat 19 ∧ t.lnk.nearReady[p] = bitOf eq.toNat 19 ∧ (∀ q : Fin 9, q ≠ p → t.lnk.taps[q] = s.lnk.taps[q])
      ∧ (s.lnk.tx.up = false → s.lnk.tx.phase < 4 → s.get Fld.CLK_LPLL_LOCK = 1 → p.val ≠ s.get Fld.LNK_AUXMAP_CLK_TX → ∃ lv, .training p lv ∈ t.out)
      ∧ (s.lnk.rx.up = false → s.lnk.rx.phase = 1 → 2 ≤ t.lnk.rx.phase) ∧ (∃ l, t.out = l ++ s.out)
      ∧ t = { s with now := max s.now t0, regs := t.regs, out := t.out, lnk := t.lnk })
  ∧ (∀ (s : State) (p : Fin 9) (c st eq : Word) (t0 : Nat), s.get Fld.LNK_STAT_STATE = 1 → c.toNat / 2 ^ 28 = 5 → st.toNat / 2 ^ 28 = 10 → bitOf c.toNat 20 = true →
    Gives (.trainingFrame p ⟨c, st, eq⟩ t0) s fun t => t.lnk.prec[p] = bitOf c.toNat 21 ∧ t.lnk.farReady[p] = bitOf c.toNat 19 ∧ t.lnk.nearReady[p] = bitOf eq.toNat 19
      ∧ t.lnk.tapStat[p] = (1, 1, 1)
      ∧ (s.lnk.tx.up = false → s.lnk.tx.phase < 4 → s.get Fld.CLK_LPLL_LOCK = 1 → p.val ≠ s.get Fld.LNK_AUXMAP_CLK_TX → ∃ lv, .training p lv ∈ t.out)
      ∧ (∃ l, t.out = l ++ s.out) ∧ t = { s with now := max s.now t0, regs := t.regs, out := t.out, free := s.free + 1, lnk := t.lnk })
  ∧ (∀ (s : State) (tx : Bool) (code : Fin 8) (t0 : Nat), s.get Fld.LNK_STAT_STATE = 1 → s.lnk.overran tx code (max s.now t0) = true →
    Gives (.trainingPhaseTimeout ⟨tx, code⟩ t0) s fun t => t.get Fld.LNK_STAT_STATE = 5 ∧ t.get Fld.LNK_STAT_FAILCODE = code.val
      ∧ t.lnk.retryDue = some (max s.now t0 + 100 * msU) ∧ t.now = max s.now t0 ∧ t.mem = s.mem)
  ∧ (∀ (s : State) (skew t0 : Nat), s.get Fld.LNK_STAT_STATE = 1 → s.lnk.tx.up = false → s.lnk.tx.phase = 5 → 64 ≤ s.lnk.tx.fec →
    s.get Fld.CLK_LPLL_LOCK = 1 → s.get Fld.LNK_CTRL_PWRREQ ≠ 2 →
    7 ≤ ((List.finRange 9).filter fun (n : Fin 9) => n.val != s.get Fld.LNK_AUXMAP_CLK_TX && s.lnk.farReady[n]).length →
    Gives (.trainingComplete true skew t0) s fun t => t.lnk.tx.up = true ∧ t.get Fld.LNK_CAP_CAP_TX =
        (if ((List.finRange 9).filter fun (n : Fin 9) => n.val != s.get Fld.LNK_AUXMAP_CLK_TX && s.lnk.farReady[n]).length = 7 then 3493 else 3997)
      ∧ (s.lnk.rx.up = true → t.get Fld.LNK_STAT_STATE = 2) ∧ t.now = max s.now t0 ∧ t.mem = s.mem)
  ∧ (∀ (s : State) (skew t0 : Nat), s.get Fld.LNK_STAT_STATE = 1 → s.lnk.rx.up = false → s.lnk.rx.phase = 5 → 64 ≤ s.lnk.rx.fec → skew ≤ 192 →
    s.get Fld.LNK_CTRL_PWRREQ ≠ 2 →
    7 ≤ ((List.finRange 9).filter fun (n : Fin 9) => n.val != s.get Fld.LNK_AUXMAP_CLK_RX && s.lnk.nearReady[n]).length →
    Gives (.trainingComplete false skew t0) s fun t => t.lnk.rx.up = true ∧ t.get Fld.LNK_CAP_CAP_RX =
        (if ((List.finRange 9).filter fun (n : Fin 9) => n.val != s.get Fld.LNK_AUXMAP_CLK_RX && s.lnk.nearReady[n]).length = 7 then 3493 else 3997)
      ∧ (s.lnk.tx.up = true → t.get Fld.LNK_STAT_STATE = 2) ∧ t.now = max s.now t0 ∧ t.mem = s.mem)
  ∧ (∀ (s : State) (skew t0 : Nat), s.get Fld.LNK_STAT_STATE = 1 → s.lnk.rx.up = false → 4 ≤ s.lnk.rx.phase → 192 < skew →
    Gives (.trainingComplete false skew t0) s fun t => t.get Fld.LNK_STAT_STATE = 5 ∧ t.get Fld.LNK_STAT_FAILCODE = 4
      ∧ t.lnk.retryDue = some (max s.now t0 + 100 * msU) ∧ t.mem = s.mem)
  ∧ (∀ (s : State) (d : Nat), s.lnk.retryDue = some d → s.get Fld.LNK_CTRL_EN = 1 →
    Gives .trainingRetry s fun t => t.get Fld.LNK_STAT_STATE = 1 ∧ t.lnk.retryDue = none ∧ t.now = max s.now d ∧ t.mem = s.mem)
  ∧ (∀ (s : State) (tx : Bool) (skew t0 : Nat), s.get Fld.LNK_STAT_STATE = 1 → (if tx then s.lnk.tx else s.lnk.rx).up = false →
    4 ≤ (if tx then s.lnk.tx else s.lnk.rx).phase → skew ≤ 192 → (s.usable tx).length < 7 →
    Gives (.trainingComplete tx skew t0) s fun t => t.get Fld.LNK_STAT_STATE = 5 ∧ t.get Fld.LNK_STAT_FAILCODE = 6
      ∧ t.lnk.retryDue = some (max s.now t0 + 100 * msU) ∧ t.mem = s.mem)

/-- Codewords (R177, R179, R186): the receive count moves on with each one, lost or decoded; a replay timeout sends every unacknowledged cell again; a transmitted codeword
leaves the part and moves the transmit count on; a direction that trains sends idle cells (R205).
Completes (the conclusion is the next state of exec, under conditions on the state and the operands alone): codewordReceived, replayTimeout,
codewordTransmit. -/
def Obligations.Codewords : Prop :=
  (∀ (s : State) (low : List (List Nat)) (d8 : List Nat) (t0 : Nat), s.lnk.rx.up = true → s.get Fld.LNK_STAT_STATE ≠ 3 →
    let u := switchLane false s.lnk.rx.cseq (s.at t0)
    let lanes := positions low d8
    Gives (.codewordReceived low d8 t0) s fun t =>
      (u.rxDecode lanes = none → t.lnk.lossRun = true ∧ t.mem = s.mem ∧ t.eff = s.eff
        ∧ (inPair (cwSyms (u.flag Fld.LNK_STAT_SEVEN_RX)) u.lnk.rx.syms = none →
          t.lnk.rx.cseq = (s.lnk.rx.cseq + 1) % 65536 ∧ t = { u with regs := t.regs, lnk := t.lnk }))
      ∧ (∀ b : List Nat × List Nat, u.rxDecode lanes = some b →
        t.lnk.lossRun = false ∧ t.lnk.lastDecode = max s.now t0 ∧ t.mem = s.mem ∧ t.eff = s.eff
        ∧ (inPair (cwSyms (u.flag Fld.LNK_STAT_SEVEN_RX)) u.lnk.rx.syms = none → b.1.getD 594 0 % 16 = 0 →
          t = { u with regs := t.regs, lnk := t.lnk, port := t.port })))
  ∧ (∀ s : State, s.lnk.unacked ≠ [] →
    Gives .replayTimeout s fun t => t.lnk.replay = s.lnk.unacked ∧ t.now = max s.now (s.lnk.ackAt + 10 * max 1 (s.get Fld.LNK_CTRL_REPLAY_TO) * usU)
      ∧ t.lnk.ackAt = t.now ∧ t = { s with now := t.now, regs := t.regs, lnk := t.lnk })
  ∧ (∀ s : State, s.lnk.tx.up = true → s.get Fld.LNK_STAT_STATE ≠ 3 → s.lnk.l1 ≠ some s.lnk.tx.cseq →
    Gives .codewordTransmit s fun t => t.lnk.tx.cseq = (s.lnk.tx.cseq + 1) % 65536 ∧ t.now = max s.now s.lnk.tx.next
      ∧ t.lnk.tx.next = s.lnk.tx.next + cwSyms (s.flag Fld.LNK_STAT_SEVEN_TX) * symbolU ∧ (∃ cells lc mk lanes, .codeword cells lc mk lanes ∈ t.out) ∧ t.mem = s.mem)
  ∧ (∀ s : State, s.lnk.tx.up = false → s.get Fld.LNK_STAT_STATE = 1 → 4 ≤ s.lnk.tx.phase → s.get Fld.CLK_LPLL_LOCK = 1 →
    Gives .codewordTransmit s fun t => t.lnk.tx.phase = 5 ∧ t.lnk.tx.fec = s.lnk.tx.fec + 1 ∧ t.lnk.tx.cseq = (s.lnk.tx.cseq + 1) % 65536 ∧ t.now = max s.now s.lnk.tx.next
      ∧ (∃ lc mk lanes, .codeword (List.replicate 9 idleBytes) lc mk lanes ∈ t.out) ∧ t.mem = s.mem)

/-- Lane management and lane failures (R200 to R205): a substitution is accepted at least 64 codewords ahead, moves its lane at the target, and is done when the partner says
so; a failure without a spare, a clock failure, a silence and a retrain request train their direction afresh.
Link power states and the Lanied PLL (R206, R336): L1 is granted only while nothing waits; at its target the link is in L1; it leaves L1 for UP and L2 for training; a
lost lock is shown and a lock clears it.
Completes (the conclusion is the next state of exec, under conditions on the state and the operands alone): lmSubstituteDataLane, lmSubstitutionDone,
lmSubstituteClockLane, lmRetrain, laneFailure, clockLaneFailure, substitutionSwitch, substitutionTimeout, linkSilenceTimeout, lmL1Request, lmL1Accept,
lmL1Refuse, l1Entry, l1Exit, l2ClockDetect, laniedPllLossOfLock, laniedPllLock. -/
def Obligations.LinkLanesAndPower : Prop :=
  ((∀ (s : State) (arg tgt : Nat), s.lnk.tx.up = true → 64 ≤ (tgt + 65536 - s.lnk.tx.cseq) % 65536 → (tgt + 65536 - s.lnk.tx.cseq) % 65536 < 32768 →
    usesPos (s.rd Reg.LNK_LANEMAP_TX).toNat (arg / 16 % 16) = true → arg % 16 = s.get Fld.LNK_AUXMAP_SPARE_TX → arg % 16 ≠ 15 →
    exec (.lmSubstituteDataLane arg tgt) s = .next (s.setLnk { s.lnk with subTx := some ⟨arg / 16 % 16, arg % 16, tgt % 65536, s.now, false, false⟩ }))
  ∧ (∀ (s : State) (arg : Nat) (u : Subst), s.lnk.subTx = some u → u.moved = true → u.failed = arg / 16 % 16 →
    exec (.lmSubstitutionDone arg) s = .next (s.setLnk { s.lnk with subTx := none }))
  ∧ (∀ (s : State) (arg : Nat), s.lnk.tx.up = true → arg % 16 ≤ 9 → s.get Fld.LNK_AUXMAP_CLK_TX ≠ arg % 16 →
    Gives (.lmSubstituteClockLane arg) s fun t => t.get Fld.LNK_AUXMAP_CLK_TX = arg % 16 ∧ t.get Fld.LNK_STAT_STATE = 1 ∧ t.lnk.tx.up = false ∧ t.mem = s.mem)
  ∧ (∀ s : State, s.lnk.tx.up = true →
    Gives .lmRetrain s fun t => t.get Fld.LNK_STAT_STATE = 1 ∧ t.lnk.tx.up = false ∧ t.lnk.rx.up = s.lnk.rx.up ∧ t.mem = s.mem)
  ∧ (∀ (s : State) (p : Fin 9) (t0 : Nat), s.lnk.rx.up = true → s.lnk.tx.up = true → s.get Fld.LNK_AUXMAP_SPARE_RX ≠ p.val →
    s.get Fld.LNK_AUXMAP_SPARE_RX ≠ 15 → usesPos (s.rd Reg.LNK_LANEMAP_RX).toNat p = true → s.lnk.subRx = none → s.lnk.failedAt = [] →
    Gives (.laneFailure p t0) s fun t => t.get (Fld.LNK_PLANEn_FAILED.i p) = 1
      ∧ t.lnk.subRx = some ⟨p.val, s.get Fld.LNK_AUXMAP_SPARE_RX, (s.lnk.lastOk + 1024) % 65536, max s.now t0, false, false⟩
      ∧ t = { s with now := max s.now t0, regs := t.regs, lnk := t.lnk } ∧ SameRegs [(Fld.LNK_PLANEn_FAILED.i p).reg, Reg.LNK_CNTn + 4, Reg.LNK_CNTn + 8] s t)
  ∧ (∀ (s : State) (p : Fin 9) (t0 : Nat), s.lnk.rx.up = true → s.get Fld.LNK_AUXMAP_SPARE_RX = 15 → usesPos (s.rd Reg.LNK_LANEMAP_RX).toNat p = true →
    Gives (.laneFailure p t0) s fun t => t.get Fld.LNK_STAT_STATE = 1 ∧ t.lnk.rx.up = false ∧ t.now = max s.now t0 ∧ t.mem = s.mem)
  ∧ (∀ (s : State) (t0 : Nat), s.lnk.rx.up = true → s.get Fld.LNK_AUXMAP_SPARE_RX ≠ 15 →
    Gives (.clockLaneFailure t0) s fun t => t.get Fld.LNK_AUXMAP_CLK_RX = s.get Fld.LNK_AUXMAP_SPARE_RX ∧ t.get Fld.LNK_STAT_STATE = 1
      ∧ t.lnk.rx.up = false ∧ t.now = max s.now t0 ∧ t.mem = s.mem)
  ∧ (∀ (s : State) (u : Subst), s.lnk.subTx = some u → u.moved = false → u.tgt = s.lnk.tx.cseq →
    Gives (.substitutionSwitch true) s fun t => t.rd Reg.LNK_LANEMAP_TX = BitVec.ofNat 32 (replacePos (s.rd Reg.LNK_LANEMAP_TX).toNat u.failed u.spare)
      ∧ t.get Fld.LNK_AUXMAP_SPARE_TX = 15 ∧ t.lnk.subTx = some { u with moved := true, counted := true } ∧ t.mem = s.mem)
  ∧ (∀ (s : State) (u : Subst), s.lnk.subRx = some u → u.moved = false → u.tgt = s.lnk.rx.cseq →
    Gives (.substitutionSwitch false) s fun t => t.rd Reg.LNK_LANEMAP_RX = BitVec.ofNat 32 (replacePos (s.rd Reg.LNK_LANEMAP_RX).toNat u.failed u.spare)
      ∧ t.get Fld.LNK_AUXMAP_SPARE_RX = 15 ∧ t.lnk.subRx = some { u with moved := true, counted := true } ∧ t.mem = s.mem)
  ∧ (∀ (s : State) (u : Subst), s.lnk.subRx = some u →
    Gives .substitutionTimeout s fun t => t.get Fld.LNK_STAT_STATE = 1 ∧ t.lnk.rx.up = false ∧ t.now = max s.now (u.at0 + 25 * usU) ∧ t.mem = s.mem)
  ∧ (∀ s : State, s.get Fld.LNK_STAT_STATE = 2 →
    Gives .linkSilenceTimeout s fun t => t.get Fld.LNK_STAT_STATE = 1 ∧ t.lnk.tx.up = false ∧ t.lnk.rx.up = false
      ∧ t.now = max s.now (s.lnk.lastDecode + 100 * usU) ∧ t.mem = s.mem))
  ∧ ((∀ (s : State) (tgt : Nat), s.linkUp = true → s.lnk.l1Seen ≠ some tgt → s.port.staged = [] → s.lnk.unacked = [] →
    ((List.range 256).any fun f => s.flag (Fld.LNK_FLOWf_CFG_EN.i f) && s.get (Fld.LNK_FLOWf_CFG_CLASS.i f) == 2) = false →
    Gives (.lmL1Request tgt) s fun t => t.lnk.l1 = some tgt ∧ t.lnk.l1Seen = some tgt ∧ t = { s with lnk := t.lnk })
  ∧ (∀ (s : State) (tgt : Nat), s.linkUp = true → s.lnk.l1Seen ≠ some tgt → (s.port.staged ≠ [] ∨ s.lnk.unacked ≠ []) →
    Gives (.lmL1Request tgt) s fun t => t.lnk.l1 = s.lnk.l1 ∧ t.lnk.l1Seen = some tgt ∧ t = { s with lnk := t.lnk })
  ∧ (∀ (s : State) (tgt : Nat), s.linkUp = true → s.get Fld.LNK_CTRL_PWRREQ = 1 →
    exec (.lmL1Accept tgt) s = .next (s.setLnk { s.lnk with l1 := some tgt }))
  ∧ (∀ s : State, Gives .lmL1Refuse s fun t => (∀ q ∈ t.lnk.lm, q.op ≠ 5) ∧ t.lnk.l1 = s.lnk.l1 ∧ t = { s with lnk := t.lnk })
  ∧ (∀ s : State, s.linkUp = true → s.lnk.l1 = some s.lnk.tx.cseq →
    Gives .l1Entry s fun t => t.get Fld.LNK_STAT_STATE = 3 ∧ t.rd Reg.LNK_CAP = 0#32 ∧ t.lnk.l1 = none ∧ t.mem = s.mem ∧ t.now = s.now)
  ∧ (∀ (s : State) (t0 : Nat), s.get Fld.LNK_STAT_STATE = 3 →
    Gives (.l1Exit t0) s fun t => t.get Fld.LNK_STAT_STATE = 2 ∧ t.lnk.tx.syms = 0 ∧ t.lnk.rx.syms = 0
      ∧ t = { s with now := max s.now t0, regs := t.regs, lnk := t.lnk } ∧ SameRegs [Reg.LNK_STAT, Reg.LNK_CAP] s t)
  ∧ (∀ (s : State) (t0 : Nat), s.get Fld.LNK_STAT_STATE = 4 →
    Gives (.l2ClockDetect t0) s fun t => t.get Fld.LNK_STAT_STATE = 1 ∧ t.now = max s.now t0 ∧ t.mem = s.mem)
  ∧ (∀ s : State, s.get Fld.CLK_LPLL_LOCK = 1 →
    Gives .laniedPllLossOfLock s fun t => t.get Fld.CLK_LPLL_LOCK = 0 ∧ t.get Fld.CLK_LPLL_LOL = 1 ∧ t.lnk.tx.up = false ∧ t.mem = s.mem)
  ∧ (∀ (s : State) (t0 : Nat), s.pow.refOff = false → Gives (.laniedPllLock t0) s fun t => t.get Fld.CLK_LPLL_LOCK = 1 ∧ t.now = max s.now t0 ∧ t.mem = s.mem))

/-- Messages of flows 2 to 7 (R191, R195, R196): a generic message reaches the Reeve; a remote reset that LNK_CTRL allows is due 100 us later; an acknowledgement ends the
wait of its indication; an unacknowledged indication is sent again 10 ms after the last.
Completes (the conclusion is the next state of exec, under conditions on the state and the operands alone): genericDataMessage, remoteResetRequest,
eventAck, eventSyncRequest, eventIndicationResend. -/
def Obligations.LinkMessages : Prop :=
  (∀ (s : State) (m : Hdr) (p : List Nat), s.get (Fld.LNK_FLOWf_CFG_EN.i m.flow) ≠ 0 → s.hdrOk m 3 (4 + p.length) = true →
    Gives (.genericDataMessage m p) s fun t => t.lnk.toReeve = s.lnk.toReeve ++ [⟨m.flow, p⟩] ∧ t.mem = s.mem ∧ t.regs = s.regs ∧ t.eff = s.eff)
  ∧ (∀ (s : State) (m : Hdr) (id : Nat) (vendor : List Nat), s.get (Fld.LNK_FLOWf_CFG_EN.i m.flow) ≠ 0 → s.hdrOk m 6 (3 + vendor.length) = true →
    vendor.length = 4 → beNat vendor = 0 → s.get Fld.LNK_CTRL_RRST = 1 →
    Gives (.remoteResetRequest m id 1 vendor) s fun t => t.lnk.resets = s.lnk.resets ++ [(8, s.now + 100 * usU)] ∧ t.mem = s.mem ∧ t.eff = s.eff)
  ∧ (∀ (s : State) (m : Hdr) (id : Nat), s.get (Fld.LNK_FLOWf_CFG_EN.i m.flow) ≠ 0 → s.hdrOk m 7 4 = true →
    Gives (.eventAck m id) s fun t => t.port.unacked = (s.port.unacked.filter fun x => x.id != id) ∧ t.mem = s.mem ∧ t.regs = s.regs)
  ∧ (∀ (s : State) (m : Hdr) (id : Nat), s.get (Fld.LNK_FLOWf_CFG_EN.i m.flow) ≠ 0 → s.hdrOk m 7 4 = true →
    Gives (.eventSyncRequest m id) s fun t => t.mem = s.mem ∧ t.eff = s.eff ∧ t.now = s.now ∧ (s.get Fld.LNK_STAT_STATE ≠ 3 → t.lnk = s.lnk)
      ∧ ((∀ n, n < 32 → s.flag (Fld.FLT_LOGn_W0_ACTIVE.i n) = false) →
        t = (({ s with port := { s.port with inbox := dropFlow m.flow s.port.inbox } } : State).stage 2 (ecpri 7 (eventBytes id 4 []))).stage 2 (ecpri 7 (eventBytes id 5 []))))
  ∧ (∀ (s : State) (i : IndSent), firstDueInd s.port.unacked = some i →
    Gives .eventIndicationResend s fun t => t.now = max s.now i.due ∧ t.port.unacked = (s.port.unacked.filter fun x => x != i)
        ++ (if i.tries + 1 < 3 then [{ i with tries := i.tries + 1, due := i.due + 10 * msU }] else []) ∧ t.mem = s.mem ∧ (s.get Fld.LNK_STAT_STATE ≠ 3 → t.lnk = s.lnk))

/-- Device time and its numbering (R209 to R212): a read of TIM_NOW_NS latches the other two registers; a written frame offset and a pending UTC offset take effect at their
second; a write of TIM_UTC sets PEND where NEXT differs from CUR; a PPS edge is stamped.
Completes (the conclusion is the next state of exec, under conditions on the state and the operands alone): timNowRead, fnoffTakeEffect, timUtcWrite,
utcOffsetChange, ppsEdge. -/
def Obligations.TimeReading : Prop :=
  (∀ (s : State) (r : Req), s.check r Reg.TIM_NOW_NS 2 false = .ok →
    Gives (.timNowRead r) s fun t => t.resp = { err := false, data := nsOf (shown s.now) } ∧ t.rd Reg.TIM_NOW_SLO = (secWords (shown s.now)).1
      ∧ t.rd Reg.TIM_NOW_SHI = (secWords (shown s.now)).2 ∧ t = { s with resp := t.resp, regs := t.regs }
      ∧ SameRegs [Reg.TIM_NOW_SLO, Reg.TIM_NOW_SHI, Reg.TIM_NOW_NS] s t)
  ∧ (∀ (s : State) (d : Nat), s.tim.fnoffDue = some d →
    Gives .fnoffTakeEffect s fun t => t.erd Reg.TIM_FRAME = s.rd Reg.TIM_FRAME ∧ (∀ a, a ≠ Reg.TIM_FRAME → t.erd a = s.erd a)
      ∧ t = { s with now := max s.now d, eff := t.eff, tim := { s.tim with fnoffDue := none } })
  ∧ (∀ (s : State) (r : Req) (v : Word), Takes s r Reg.TIM_UTC →
    Gives (.timUtcWrite r v) s fun t => t.get Fld.TIM_UTC_NEXT = getBits Fld.TIM_UTC_NEXT v ∧ t.get Fld.TIM_UTC_CUR = getBits Fld.TIM_UTC_CUR v
      ∧ t.get Fld.TIM_UTC_PEND = b2n (getBits Fld.TIM_UTC_NEXT v != getBits Fld.TIM_UTC_CUR v)
      ∧ t = { s with resp := { err := false, data := 0 }, regs := t.regs } ∧ SameRegs [Reg.TIM_UTC] s t)
  ∧ (∀ s : State, s.get Fld.TIM_UTC_PEND = 1 →
    Gives .utcOffsetChange s fun t => t.get Fld.TIM_UTC_CUR = s.get Fld.TIM_UTC_NEXT ∧ t.get Fld.TIM_UTC_NEXT = s.get Fld.TIM_UTC_NEXT
      ∧ t.get Fld.TIM_UTC_PEND = 0 ∧ t = { s with now := max s.now (utcSecond s.now (s.get Fld.TIM_UTC_AT_AT) * secU), regs := t.regs }
      ∧ SameRegs [Reg.TIM_UTC] s t)
  ∧ (∀ (s : State) (t0 : Nat),
    Gives (.ppsEdge t0) s fun t => t.tim.caps[0] = s.stamp 2 t0 ∧ t.get (Fld.TIM_CAPq_NS_NS.i 0) = nsOf (s.stamp 2 t0) ∧ t.get Fld.TIM_STAT_PPSNEW = 1
      ∧ t = { s with now := max s.now t0, regs := t.regs, tim := { s.tim with caps := s.tim.caps.set 0 (s.stamp 2 t0) } }
      ∧ SameRegs [Reg.TIM_CAPq_NS, Reg.TIM_STAT] s t)

/-- The timing messages and their rings (R194, R212 to R216): a message or frame that finds room is written into its ring and HW moves on, one that does not is counted; the
next record of a transmit ring leaves and HW moves on; no byte outside the ring changes; a one-way delay message is answered with its stamp.
Completes (the conclusion is the next state of exec, under conditions on the state and the operands alone): ptpMessageRx, l0MessageTx, oneWayDelayMessage,
mgpFrameRx, mgpFrameTx. -/
def Obligations.TimingMessages : Prop :=
  (∀ (s : State) (bytes : List Nat) (t0 : Nat),
    let n := s.ringUnits l0Rx
    let k := (16 + bytes.length + 63) / 64
    let hw := s.get Fld.TIM_L0RXP_HW % n
    let lo := s.get Fld.TIM_L0RX_BASE * 4096
    ((hw + n - s.get Fld.TIM_L0RXP_SW % n) % n + k < n → Gives (.ptpMessageRx bytes t0) s fun t => t.get Fld.TIM_L0RXP_HW = (hw + k) % n
      ∧ t.now = max s.now t0 ∧ t.eff = s.eff ∧ (∀ b, b < lo ∨ lo + n * 64 ≤ b → memRead t.mem b = memRead s.mem b))
    ∧ (n ≤ (hw + n - s.get Fld.TIM_L0RXP_SW % n) % n + k → Gives (.ptpMessageRx bytes t0) s fun t => SameMem s t ∧ t.now = max s.now t0
      ∧ t.get (Fld.LNK_CNTn_COUNT.i 7) = min (s.get (Fld.LNK_CNTn_COUNT.i 7) + 1) (2 ^ Fld.LNK_CNTn_COUNT.width - 1)
      ∧ SameRegs [(Fld.LNK_CNTn_COUNT.i 7).reg] s t))
  ∧ (∀ (s : State) (u : Nat) (b : List Nat), s.linkUp = true → ringNext s l0Tx = some (u, b) →
    Gives .l0MessageTx s fun t => t.get Fld.TIM_L0TXP_HW = (u + (16 + b.length + 63) / 64) % s.ringUnits l0Tx ∧ t.now = s.now ∧ t.eff = s.eff
      ∧ (∀ x, x < s.get Fld.TIM_L0TX_BASE * 4096 ∨ s.get Fld.TIM_L0TX_BASE * 4096 + s.ringUnits l0Tx * 64 ≤ x → memRead t.mem x = memRead s.mem x))
  ∧ (∀ (s : State) (m : Hdr) (id t0 : Nat), s.get (Fld.LNK_FLOWf_CFG_EN.i m.flow) ≠ 0 → s.hdrOk m 5 20 = true →
    let u := { s.at t0 with port := { s.port with inbox := dropFlow m.flow s.port.inbox } }
    exec (.oneWayDelayMessage m id 0 t0) s = .next (State.stage (u.arrive m.flow) 0 (owdBytes (id % 256) 2 (s.stamp 0 t0)))
    ∧ exec (.oneWayDelayMessage m id 1 t0) s = .next ((u.arrive m.flow).setTim { s.tim with owd := aset s.tim.owd (id % 256) (s.stamp 0 t0) })
    ∧ exec (.oneWayDelayMessage m id 3 t0) s = .next (State.stage (u.arrive m.flow) 0 (owdBytes (id % 256) 0 s.egressAt)))
  ∧ (∀ (s : State) (header body crc : List Nat) (t0 : Nat), s.get Fld.MGP_CFG_EN = 1 →
    (header ++ body).length < 60 ∨ 1518 < (header ++ body).length ∨ crc ≠ fcs (header ++ body) →
    exec (.mgpFrameRx header body crc t0) s = .next ((s.at t0).inc (Fld.MGP_CNTn_COUNT.i 1)))
  ∧ (∀ (s : State) (header body : List Nat) (t0 : Nat), s.get Fld.MGP_CFG_EN = 1 → 60 ≤ (header ++ body).length → (header ++ body).length ≤ 1518 →
    s.ptpOffset (header ++ body) = none →
    let bytes := header ++ body
    let n := s.ringUnits mgpRx
    let k := (16 + bytes.length + 63) / 64
    let hw := s.get Fld.MGP_RXPTR_HW % n
    let lo := s.get Fld.MGP_RXRING_BASE * 4096
    ((hw + n - s.get Fld.MGP_RXPTR_SW % n) % n + k < n → Gives (.mgpFrameRx header body (fcs bytes) t0) s fun t => t.get Fld.MGP_RXPTR_HW = (hw + k) % n
      ∧ t.get (Fld.MGP_CNTn_COUNT.i 0) = min (s.get (Fld.MGP_CNTn_COUNT.i 0) + 1) (2 ^ 32 - 1) ∧ t.now = max s.now t0 ∧ t.eff = s.eff
      ∧ (∀ b, b < lo ∨ lo + n * 64 ≤ b → memRead t.mem b = memRead s.mem b))
    ∧ (n ≤ (hw + n - s.get Fld.MGP_RXPTR_SW % n) % n + k → exec (.mgpFrameRx header body (fcs bytes) t0) s = .next ((s.at t0).inc (Fld.MGP_CNTn_COUNT.i 2))))
  ∧ (∀ (s : State) (u t0 : Nat) (b : List Nat), s.get Fld.MGP_CFG_EN = 1 → s.get Fld.MGP_STAT_LINK = 1 → ringNext s mgpTx = some (u, b) →
    Gives (.mgpFrameTx t0) s fun t => t.get Fld.MGP_TXPTR_HW = (u + (16 + b.length + 63) / 64) % s.ringUnits mgpTx ∧ t.now = max s.now t0 ∧ t.eff = s.eff
      ∧ t.get (Fld.MGP_CNTn_COUNT.i 3) = min (s.get (Fld.MGP_CNTn_COUNT.i 3) + 1) (2 ^ 32 - 1) ∧ (∃ f, t.out = .frame f :: s.out)
      ∧ (∀ x, x < s.get Fld.MGP_TXRING_BASE * 4096 ∨ s.get Fld.MGP_TXRING_BASE * 4096 + s.ringUnits mgpTx * 64 ≤ x → memRead t.mem x = memRead s.mem x))

/-- Time sources and measurements (R218 to R223): a source that is not selected turns stale and is counted; a measurement of a source that is not enabled is not judged; one
within the limit is accepted; one beyond it is refused as a jump; a step that is allowed is scheduled, and at its instant device time moves, PEND and AUTH clear.
Completes (the conclusion is the next state of exec, under conditions on the state and the operands alone): mgpLinkChange, sourceStale, measurementCommit,
timeStep. -/
def Obligations.TimeSources : Prop :=
  (∀ (s : State) (refok : Bool),
    Gives (.mgpLinkChange true refok) s fun t => t.get Fld.MGP_STAT_LINK = 1 ∧ t.get Fld.MGP_STAT_REFOK = b2n refok ∧ t = { s with regs := t.regs }
      ∧ SameRegs [Reg.MGP_STAT] s t)
  ∧ (∀ (s : State) (refok : Bool), Gives (.mgpLinkChange false refok) s fun t => t.get Fld.MGP_STAT_LINK = 0 ∧ t.get (Fld.TIM_SRCSTAT_STALE.sub 1) = 1 ∧ t.mem = s.mem)
  ∧ (∀ (s : State) (n : Fin 5), s.get (Fld.TIM_SRCSTAT_STALE.sub n) = 0 → s.get Fld.TIM_CFG_SEL ≠ n.val →
    Gives (.sourceStale n) s fun t => t.get (Fld.TIM_SRCSTAT_STALE.sub n) = 1
      ∧ t.get (Fld.TIM_CNTn_COUNT.i 5) = min (s.get (Fld.TIM_CNTn_COUNT.i 5) + 1) (2 ^ 32 - 1) ∧ t = { s with now := t.now, regs := t.regs }
      ∧ SameRegs [Reg.TIM_SRCSTAT, (Fld.TIM_CNTn_COUNT.i 5).reg] s t)
  ∧ (∀ (s : State) (r : Req) (v : Word), Takes s r Reg.TIM_MEAS_CTRL →
    let src := getBits Fld.TIM_MEAS_CTRL_SRC v
    let off : Int := (signed 32 (s.get Fld.TIM_MEAS_SEC_SEC) * 1000000000 + signed 32 (s.get Fld.TIM_MEAS_NS_NS)) * nsU
    (src < 3 → s.bit Fld.TIM_CFG_SRCEN src = false → Gives (.measurementCommit r v) s fun t => t.get Fld.TIM_STAT_LASTRES = 6 ∧ t.mem = s.mem
      ∧ SameRegs [Reg.TIM_STAT] s t)
    ∧ (src < 3 → s.bit Fld.TIM_CFG_SRCEN src = true → getBits Fld.TIM_MEAS_CTRL_STEP v = 0 → getBits Fld.TIM_MEAS_CTRL_INIT v = 0 →
      s.get (Fld.TIM_SRCSTAT_SUSPECT.sub src) = 0 → off.natAbs ≤ s.thresh → Gives (.measurementCommit r v) s fun t => t.get Fld.TIM_STAT_LASTRES = 0
        ∧ t.get Fld.TIM_OFFS_OFFS = unsigned 32 (clampS 32 (off.tdiv nsU)) ∧ t.get (Fld.TIM_SRCSTAT_STALE.sub src) = (if s.portUp src = true then 0 else s.get (Fld.TIM_SRCSTAT_STALE.sub src))
        ∧ t.mem = s.mem ∧ SameRegs [Reg.TIM_STAT, Reg.TIM_OFFS, Reg.TIM_SRCSTAT] s t)
    ∧ (src < 3 → s.bit Fld.TIM_CFG_SRCEN src = true → getBits Fld.TIM_MEAS_CTRL_STEP v = 0 → s.get (Fld.TIM_SRCSTAT_SUSPECT.sub src) = 0 →
      s.get Fld.TIM_STAT_STEPPED = 1 → s.thresh < off.natAbs → Gives (.measurementCommit r v) s fun t => t.get Fld.TIM_STAT_LASTRES = 2
        ∧ t.get Fld.TIM_STAT_JUMPREF = 1 ∧ t.get (Fld.TIM_SRCSTAT_SUSPECT.sub src) = 1 ∧ t.rd Reg.TIM_OFFS = s.rd Reg.TIM_OFFS ∧ t.mem = s.mem)
    ∧ (src < 3 → s.bit Fld.TIM_CFG_SRCEN src = true → getBits Fld.TIM_MEAS_CTRL_STEP v = 1 → s.get Fld.TIM_STAT_PEND = 0 →
      (s.get Fld.TIM_STAT_STEPPED = 0 ∨ s.get Fld.TIM_STEPCTL_AUTH = 1) → Gives (.measurementCommit r v) s fun t => t.get Fld.TIM_STAT_LASTRES = 1
        ∧ t.get Fld.TIM_STAT_PEND = 1 ∧ (∃ l, t.tim.step = some (nextMult (s.now + 2 * msU) (10 * msU), off, l)) ∧ t.mem = s.mem
        ∧ SameRegs [Reg.TIM_STAT, Reg.TIM_SRCSTAT] s t))
  ∧ (∀ (s : State) (t0 : Nat) (off : Int) (load : Bool), s.tim.step = some (t0, off, load) →
    let ticks := (off + tickU / 2).fdiv tickU
    let fine := (off - ticks * tickU + fineU / 2).fdiv fineU
    Gives .timeStep s fun t => (t.now : Int) = max 0 (max s.now t0 + (ticks * tickU + fine * fineU)) ∧ t.tim.step = none ∧ t.get Fld.TIM_STAT_PEND = 0
      ∧ t.get Fld.TIM_STEPCTL_AUTH = 0 ∧ (load = false → t.get Fld.TIM_STAT_STEPPED = 1) ∧ t.rtc.valid = []
      ∧ ∀ d ∈ t.dl.cells, (s.at t0).airStart (s.car d.car) d.sym < max s.now t0)

/-- The event unit (R224 to R227, R261, R275, R488): an action in time joins its hamlet's queue, a late one does not; at its instant it drives its pins, triggers its
capture set, posts its event or its DMA trigger; a timer that is free takes the owner that enables it and fires with its kind; a read of a notification queue returns and
removes its head.
Completes (the conclusion is the next state of exec, under conditions on the state and the operands alone): schedActionQueued, eventActionPins,
eventActionOrxTrigger, eventActionEngineEvent, eventActionDmaTrigger, evtTimerWrite, eventTimerFire, engEvqRead, sysEvqRead. -/
def Obligations.EventUnit : Prop :=
  (∀ (s : State) (h : Fin 8) (ra rb arg : Nat), s.evu[h].cross = some (ra, rb, arg) → s.evu[h].q.length < 64 →
    let kind := rb / 2 ^ 24 % 8
    let t0 := namedInstant s.now (rb / 2 ^ 29 % 8) ra (rb / 4096 % 4096)
    (1 ≤ kind → kind ≤ 4 → ra ≤ 491519999 → (kind = 3 → arg % 65536 < 0xFFF0) → ((s.now + 100 * nsU : Nat) : Int) ≤ t0 →
      Gives (.schedActionQueued h) s fun t => t.evu[h].q = s.evu[h].q ++ [⟨t0.toNat, kind, arg⟩] ∧ t.evu[h].cross = none
        ∧ t.get (Fld.EVT_STAT_DEPTH.h h) = s.evu[h].q.length + 1 ∧ t = { s with regs := t.regs, evu := t.evu } ∧ SameRegs [hamletBase h + Reg.EVT_STAT] s t)
    ∧ (t0 < ((s.now + 100 * nsU : Nat) : Int) → Gives (.schedActionQueued h) s fun t => t.evu[h].q = s.evu[h].q ∧ t.evu[h].cross = none
        ∧ t.get (Fld.EVT_STAT_LATE.h h) = 1 ∧ t = { s with regs := t.regs, evu := t.evu, evq := t.evq }))
  ∧ (∀ (s : State) (h : Fin 8) (a : EvAct), firstAct s.evu[h].q = some a → a.kind = 1 →
    Gives (.eventActionPins h) s fun t => (∀ j < 12, bitOf (t.get (Fld.FEP_LEVEL_LEVEL.h h)) j =
        if s.pinOwner h j = 4 ∧ bitOf (a.arg / 65536) j = true ∧ s.bist.target ≠ some h.val
          then bitOf (if s.flt.pinSafe[h] = true then s.get (Fld.FEP_SAFE_SAFE.h h) else a.arg) j else bitOf (s.get (Fld.FEP_LEVEL_LEVEL.h h)) j)
      ∧ t.evu[h].q = eraseFirst (fun x => x == a) s.evu[h].q ∧ t = { s with now := max s.now a.at0, regs := t.regs, evu := t.evu }
      ∧ SameRegs [hamletBase h + Reg.FEP_LEVEL, hamletBase h + Reg.EVT_STAT] s t)
  ∧ (∀ (s : State) (h : Fin 8) (a : EvAct), firstAct s.evu[h].q = some a → a.kind = 2 →
    Gives (.eventActionOrxTrigger h) s fun t => t.orx[h].trigs = s.orx[h].trigs ++ [(max s.now a.at0, a.arg % 16)]
      ∧ t = { s with now := max s.now a.at0, regs := t.regs, evu := t.evu, orx := t.orx } ∧ SameRegs [hamletBase h + Reg.EVT_STAT] s t)
  ∧ (∀ (s : State) (h : Fin 8) (a : EvAct), firstAct s.evu[h].q = some a → a.kind = 3 → s.evq[h].length < 32 →
    Gives (.eventActionEngineEvent h) s fun t => t.evq[h] = s.evq[h] ++ [a.arg % 65536]
      ∧ t = { s with now := max s.now a.at0, regs := t.regs, evu := t.evu, evq := t.evq } ∧ SameRegs [hamletBase h + Reg.EVT_STAT] s t)
  ∧ (∀ (s : State) (h : Fin 8) (a : EvAct), firstAct s.evu[h].q = some a → a.kind = 4 →
    Gives (.eventActionDmaTrigger h) s fun t => t.edges = s.edges ++ [(1, h.val, a.arg % 8)]
      ∧ t = { s with now := max s.now a.at0, regs := t.regs, evu := t.evu, edges := t.edges } ∧ SameRegs [hamletBase h + Reg.EVT_STAT] s t)
  ∧ (∀ (s : State) (r : Req) (h : Fin 8) (n : Fin 4) (v : Word), Takes s r (hamletBase h + Reg.EVT_TMRn_CFG + 8 * n) → (r.id = h.val ∨ r.id = 16) →
    s.get ((Fld.EVT_TMRn_CFG_OWNER.i n).h h) = 0 → getBits Fld.EVT_TMRn_CFG_EN v = 1 →
    Gives (.evtTimerWrite r h n false v) s fun t => t.get ((Fld.EVT_TMRn_CFG_OWNER.i n).h h) = (if r.id = h.val then 1 else 2)
      ∧ t.get ((Fld.EVT_TMRn_CFG_EN.i n).h h) = 1 ∧ t.get ((Fld.EVT_TMRn_CFG_KIND.i n).h h) = getBits Fld.EVT_TMRn_CFG_KIND v
      ∧ t.get ((Fld.EVT_TMRn_CFG_ARG.i n).h h) = getBits Fld.EVT_TMRn_CFG_ARG v ∧ t.evu[h].tmr[n] = (nextAfter s.now msU, 0)
      ∧ t = { s with resp := { err := false, data := 0 }, regs := t.regs, evu := t.evu })
  ∧ (∀ (s : State) (h : Fin 8) (n : Fin 4), s.get ((Fld.EVT_TMRn_CFG_EN.i n).h h) = 1 →
    let x := s.evu[h].tmr[n]
    let t0 := nextFire x.1 x.2 (s.timerPeriod h n)
    let arg := s.get ((Fld.EVT_TMRn_CFG_ARG.i n).h h)
    Gives (.eventTimerFire h n) s fun t => t.now = max s.now t0 ∧ t.evu[h].tmr[n] = (x.1, t0) ∧ t.mem = s.mem
      ∧ (s.get ((Fld.EVT_TMRn_CFG_KIND.i n).h h) = 4 → t.edges = s.edges ++ [(1, h.val, arg % 8)] ∧ t.evq = s.evq)
      ∧ (s.get ((Fld.EVT_TMRn_CFG_KIND.i n).h h) ≠ 4 → s.evq[h].length < 32 → t.evq[h] = s.evq[h] ++ [0xFE00 + arg] ∧ t.edges = s.edges))
  ∧ (∀ (s : State) (r : Req) (h : Fin 8) (c : Nat) (l : List Nat), s.check r (hamletBase h + Reg.ENG_EVQ) 2 false = .ok → s.evq[h] = c :: l →
    exec (.engEvqRead r h) s = .next { s with evq := s.evq.set h l, resp := { err := false, data := 2 ^ 31 + c % 65536 } })
  ∧ (∀ (s : State) (r : Req) (c : Nat) (l : List Nat), s.check r Reg.SYS_EVQ 2 false = .ok → s.flt.evq = c :: l →
    exec (.sysEvqRead r) s = .next { s with flt := { s.flt with evq := l }, resp := { err := false, data := 2 ^ 31 + c % 65536 } })

/-- The Tally hops (R231 to R234): a window with a right CRC and length is good and its message is taken, any other is bad and counted; the sixteenth consecutive good window
brings a hop up and the eighth bad one takes it down; an average over 256 cycles is the hop's delay; the pulse leaves with its TIME message; an edge is stamped; a slew moves the phase and the time by one fine step.
Completes (the conclusion is the next state of exec, under conditions on the state and the operands alone): tallyWindow, tallyWindowMissed,
hopDelayAverage, syncoutPulse, tallySyncEdge, followerSlew. -/
def Obligations.TallyHops : Prop :=
  (∀ (s : State) (up : Bool) (body : List Nat), s.get Fld.TLY_CFG_EN = 1 → body.length = 2 + body.getD 1 0 → body.getD 1 0 ≤ 39 →
    exec (.tallyWindow up body (crc16 body)) s = .next (takeTally up body (goodWindow up (sendWindow up s))))
  ∧ (∀ (s : State) (up : Bool) (body : List Nat) (crc : Nat), s.get Fld.TLY_CFG_EN = 1 → crc16 body ≠ crc ∨ body.length ≠ 2 + body.getD 1 0 ∨ 39 < body.getD 1 0 →
    exec (.tallyWindow up body crc) s = .next (badWindow up ((sendWindow up s).inc (Fld.TLY_CNTn_COUNT.i 0))))
  ∧ (∀ s : State,
    (s.tly.good.1 = 15 → s.get Fld.TLY_STAT_UPLINK = 0 → let t := goodWindow true s
      t.get Fld.TLY_STAT_UPLINK = 1 ∧ t.tly.good.1 = 16 ∧ t.tly.bad.1 = 0 ∧ t = { s with regs := t.regs, tly := t.tly } ∧ SameRegs [Reg.TLY_STAT] s t)
    ∧ (s.tly.good.1 ≠ 15 → goodWindow true s = s.setTly { s.tly with good := (s.tly.good.1 + 1, s.tly.good.2), bad := (0, s.tly.bad.2) })
    ∧ (s.tly.good.2 ≠ 15 → goodWindow false s = s.setTly { s.tly with good := (s.tly.good.1, s.tly.good.2 + 1), bad := (s.tly.bad.1, 0) }))
  ∧ (∀ s : State, s.get Fld.TLY_CFG_EN = 1 →
    (s.tly.bad.1 = 7 → s.get Fld.TLY_STAT_UPLINK = 1 → Gives (.tallyWindowMissed true) s fun t => t.get Fld.TLY_STAT_UPLINK = 0 ∧ t.get Fld.TLY_HOP_VALID = 0
      ∧ t.get Fld.TLY_STAT_ALIGNED = 0 ∧ t.tly.good.1 = 0 ∧ t.tly.bad.1 = 8 ∧ t = { s with regs := t.regs, tly := t.tly, tim := t.tim }
      ∧ SameRegs [Reg.TLY_STAT, Reg.TLY_HOP, (Fld.TLY_CNTn_COUNT.i 1).reg] s t)
    ∧ (s.tly.bad.1 ≠ 7 → exec (.tallyWindowMissed true) s = .next (s.setTly { s.tly with good := (0, s.tly.good.2), bad := (s.tly.bad.1 + 1, s.tly.bad.2) }))
    ∧ (s.tly.bad.2 = 7 → s.get Fld.TLY_STAT_DNLINK = 1 → Gives (.tallyWindowMissed false) s fun t => t.get Fld.TLY_STAT_DNLINK = 0
      ∧ t.get Fld.TLY_STAT_UPLINK = s.get Fld.TLY_STAT_UPLINK ∧ (∃ l, t.out = .window false l :: s.out) ∧ t = { s with regs := t.regs, tly := t.tly, out := t.out }))
  ∧ (∀ (s : State) (trips : List Nat), s.get Fld.TLY_STAT_UPLINK = 1 → trips.length = 256 →
    Gives (.hopDelayAverage trips) s fun t => t.get Fld.TLY_HOP_DELAY = hopDelay trips % 2 ^ Fld.TLY_HOP_DELAY.width ∧ t.get Fld.TLY_HOP_VALID = 1
      ∧ t = { s with regs := t.regs } ∧ SameRegs [Reg.TLY_HOP] s t)
  ∧ (∀ s : State, s.get Fld.TLY_CFG_EN = 1 → s.get Fld.TLY_STAT_HEAD = 1 → s.get Fld.TIM_STAT_STEPPED = 1 →
    let t0 := nextMult (max s.now (s.tly.pulse + 1)) frameU
    let args := [secOf t0 % 2 ^ 48, nsOf t0, b2n (s.get Fld.TIM_STAT_STATE == 2)]
    exec .syncoutPulse s = .next { s with now := max s.now t0, tly := { s.tly with pulse := t0 },
                                          out := .syncout t0 :: .window false (windowChars 9 args) :: .tally 9 args :: s.out })
  ∧ (∀ (s : State) (t0 : Nat), s.tly.time = none →
    Gives (.tallySyncEdge t0 none) s fun t => t.tim.caps[1] = s.stamp 3 t0 ∧ t.get (Fld.TIM_CAPq_NS_NS.i 1) = nsOf (s.stamp 3 t0) ∧ t.get Fld.TIM_STAT_SYNCNEW = 1
      ∧ t = { s with now := max s.now t0, regs := t.regs, tim := t.tim })
  ∧ (∀ (s : State) (t0 sec ns : Nat), s.follower = true →
    Gives (.tallySyncEdge t0 (some (sec, ns))) s fun t => t.tim.caps[1] = s.stamp 3 t0 ∧ t.tim.syncAt = s.stamp 3 t0 ∧ t.get Fld.TIM_STAT_SYNCNEW = 1
      ∧ t.now = max s.now t0 ∧ t.mem = s.mem ∧ t.eff = s.eff)
  ∧ (∀ s : State, fineU ≤ s.tim.slew →
    Gives .followerSlew s fun t => t.tim.slew = s.tim.slew - fineU ∧ t.now = max s.now (s.tim.slewAt + 250 * usU) + fineU
      ∧ t.get Fld.CLK_PHADJ_PHASE = unsigned 12 (signed 12 (s.get Fld.CLK_PHADJ_PHASE) + 1) ∧ t = { s with now := t.now, regs := t.regs, tim := t.tim }
      ∧ SameRegs [Reg.CLK_PHADJ] s t)

/-- Enumeration and census (R236, R237): the head's command restarts it; a token gives the device its address, or 255 where none is left; a device whose downstream hop stays
down is the last; a census sets POS and ENUMDONE, and DUP where the own address stands in it twice.
Broadcast commands (R235, R238): MUTE, COMMIT and STEPAUTH wait for their target here and go on along the chain, or are refused without one; a received copy is counted
and scheduled, or late; at its target MUTE starts the ramps and STEPAUTH authorises one step; a fan-out is passed on.
Completes (the conclusion is the next state of exec, under conditions on the state and the operands alone): tlyEnum, tlyEnumf, enumToken, enumLastTimeout,
census, tlyMute, tlyCommit, tlyStepauth, tallyCommandReceived, tallyCommandTarget, fanoutReceived. -/
def Obligations.TallyCommands : Prop :=
  ((∀ (s : State) (r : Req), Takes s r Reg.TLY_CMD → s.get Fld.TLY_CFG_EN = 1 → s.get Fld.TLY_STAT_HEAD = 1 →
    (Gives (.tlyEnum r) s fun t => t.get Fld.TLY_STAT_ADDR = (if (s.rd 0x04100200).toNat % 256 = 255 then 32 * s.get Fld.TLY_STAT_BASE else (s.rd 0x04100200).toNat % 256)
      ∧ t = { s with resp := { err := false, data := 0 }, regs := t.regs, tly := t.tly, out := t.out } ∧ SameRegs [Reg.TLY_STAT, 0x04100200] s t)
    ∧ (Gives (.tlyEnumf r) s fun t => t.get Fld.TLY_STAT_ADDR = 32 * s.get Fld.TLY_STAT_BASE ∧ t.get Fld.TLY_STAT_RETAINED = 0
      ∧ t = { s with resp := { err := false, data := 0 }, regs := t.regs, tly := t.tly, out := t.out } ∧ SameRegs [Reg.TLY_STAT, 0x04100200] s t))
  ∧ (∀ (s : State) (n : Nat), s.get Fld.TLY_CFG_EN = 1 → n < 255 →
    Gives (.enumToken n true) s fun t => t.get Fld.TLY_STAT_ADDR = n ∧ t.get Fld.TLY_STAT_RETAINED = 0 ∧ t.rd 0x04100200 = BitVec.ofNat 32 n
      ∧ (s.get Fld.TLY_STAT_DNLINK = 1 → t.out = .tally 7 [n + 1, 1] :: s.out) ∧ (s.get Fld.TLY_STAT_DNLINK = 0 → t.tly.token = some (n + 1, true, s.now + msU))
      ∧ t = { s with regs := t.regs, tly := t.tly, out := t.out } ∧ SameRegs [Reg.TLY_STAT, 0x04100200] s t)
  ∧ (∀ (s : State) (n : Nat), s.get Fld.TLY_CFG_EN = 1 → 255 ≤ n →
    Gives (.enumToken n true) s fun t => t.get Fld.TLY_STAT_ADDR = 255 ∧ t.get Fld.TLY_STAT_NOADDR = 1 ∧ t.rd 0x04100200 = s.rd 0x04100200 ∧ t.mem = s.mem)
  ∧ (∀ (s : State) (n due : Nat) (f : Bool), s.tly.token = some (n, f, due) → s.get Fld.TLY_STAT_DNLINK = 0 →
    Gives .enumLastTimeout s fun t => t.get Fld.TLY_STAT_LAST = 1 ∧ t.tly.token = none
      ∧ t = { s with now := max s.now due, regs := t.regs, tly := t.tly, out := .tally 10 [1] :: s.out } ∧ SameRegs [Reg.TLY_STAT] s t)
  ∧ (∀ (s : State) (l : List Nat), s.get Fld.TLY_CFG_EN = 1 → s.get Fld.TLY_STAT_ADDR ≠ 255 →
    Gives (.census l) s fun t => t.get Fld.TLY_STAT_ENUMDONE = 1 ∧ (∀ p < 32, l.findIdx? (fun x => x == s.get Fld.TLY_STAT_ADDR) = some p → t.get Fld.TLY_STAT_POS = p)
      ∧ (2 ≤ (l.filter fun x => x == s.get Fld.TLY_STAT_ADDR).length → t.get Fld.TLY_STAT_DUP = 1) ∧ t.mem = s.mem ∧ t.eff = s.eff ∧ t.now = s.now))
  ∧ ((∀ (s : State) (r : Req) (t0 : Nat), Takes s r Reg.TLY_CMD → originTarget s.now (s.get Fld.TLY_CMD_SEC_SEC) (s.get Fld.TLY_CMD_NS_NS) = some t0 →
    s.get Fld.TLY_CFG_EN = 1 →
    let args := [s.get Fld.TLY_CMD_SEC_SEC, s.get Fld.TLY_CMD_NS_NS]
    (Gives (.tlyMute r) s fun t => t.tly.cmds = s.tly.cmds ++ [(3, t0)] ∧ t = { s.ok with tly := t.tly, out := .tally 3 args :: s.out })
    ∧ (Gives (.tlyCommit r) s fun t => t.tly.cmds = s.tly.cmds ++ [(4, t0)] ∧ (∃ l, t.out = .tally 4 args :: l) ∧ t.mem = s.mem ∧ t.eff = s.eff ∧ t.now = s.now)
    ∧ (Gives (.tlyStepauth r) s fun t => t.tly.cmds = s.tly.cmds ++ [(5, t0)] ∧ t = { s.ok with tly := t.tly, out := .tally 5 args :: s.out }))
  ∧ (∀ (s : State) (r : Req), Takes s r Reg.TLY_CMD → originTarget s.now (s.get Fld.TLY_CMD_SEC_SEC) (s.get Fld.TLY_CMD_NS_NS) = none →
    ∀ c : Instr, c = .tlyMute r ∨ c = .tlyCommit r ∨ c = .tlyStepauth r → Gives c s fun t => t.get Fld.TLY_STAT_CMDREF = 1 ∧ t.tly = s.tly ∧ t.mem = s.mem)
  ∧ (∀ (s : State) (up : Bool) (op sec ns : Nat), s.get Fld.TLY_CFG_EN = 1 → 3 ≤ op → op ≤ 5 →
    ((s.now : Int) ≤ nearestTarget s.now sec ns → Gives (.tallyCommandReceived ⟨up, op⟩ sec ns) s fun t =>
      t.tly.cmds = s.tly.cmds ++ [(op, (nearestTarget s.now sec ns).toNat)] ∧ t.mem = s.mem ∧ t.eff = s.eff ∧ t.now = s.now
      ∧ t.get (Fld.TLY_CNTn_COUNT.i 2) = min (s.get (Fld.TLY_CNTn_COUNT.i 2) + 1) (2 ^ 32 - 1)
      ∧ (op ≠ 4 → t = { s with regs := t.regs, tly := t.tly, out := .tally op [sec, ns] :: s.out } ∧ SameRegs [(Fld.TLY_CNTn_COUNT.i 2).reg] s t))
    ∧ (nearestTarget s.now sec ns < s.now → Gives (.tallyCommandReceived ⟨up, op⟩ sec ns) s fun t => t.get Fld.TLY_STAT_LATECMD = 1 ∧ t.tly.cmds = s.tly.cmds ∧ t.mem = s.mem))
  ∧ (∀ (s : State) (t0 : Nat) (op : Nat) (rest : List (Nat × Nat)), popTrig (s.tly.cmds.map fun p => (p.2, p.1)) = some ((t0, op), rest) →
    Gives .tallyCommandTarget s fun t => t.tly.cmds = rest.map (fun p => (p.2, p.1)) ∧ t.now = max s.now t0 ∧ t.mem = s.mem
      ∧ (op = 5 → t.get Fld.TIM_STEPCTL_AUTH = 1)
      ∧ (op = 3 → ∀ h : Fin 8, 2 ≤ s.hstate h → t.tx[h].rampEnd = some (max s.now t0 + 100 * usU) ∧ ∀ k : Fin 8, t.get ((Fld.TXC_PATHk_MUTE.i k).h h) = 1))
  ∧ (∀ (s : State) (up : Bool) (a : Nat), s.get Fld.TLY_CFG_EN = 1 →
    Gives (.fanoutReceived ⟨up, a⟩) s fun t => Out.tally 6 [a] ∈ t.out ∧ t.mem = s.mem ∧ t.now = s.now
      ∧ (s.get Fld.TLY_CFG_FANACT = 1 → ∀ h : Fin 8, 2 ≤ s.hstate h → t.tx[h].rampEnd = some (s.now + 100 * usU) ∧ ∀ k : Fin 8, t.get ((Fld.TXC_PATHk_MUTE.i k).h h) = 1)))

/-- Scrubbing and row repair (R282 to R285): a granule is read and the pass goes on, or ends after the last; the oldest candidate's copy starts into a free spare; its end puts
the spare in the row's place; a repair register takes a write of the Reeve alone.
Completes (the conclusion is the next state of exec, under conditions on the state and the operands alone): scrubGranule, rowRepair, rowRemap,
stoRepairWrite, stoInjectArm. -/
def Obligations.ScrubAndRepair : Prop :=
  (∀ (s : State) (k : Fin 10), s.get (Fld.STO_CFG_SCRUB.st k) = 1 → s.storeRuns k = true → s.ecc = [] → s.sto[k].pos ≠ 0 →
    (s.granuleWaits k ((storeSpan k).1 + 64 * s.sto[k].pos) = false → 64 * (s.sto[k].pos + 1) < (storeSpan k).2 →
      exec (.scrubGranule k) s = .next (s.setSto k { s.sto[k] with scrubAt := none, pos := s.sto[k].pos + 1 }))
    ∧ (s.granuleWaits k ((storeSpan k).1 + 64 * s.sto[k].pos) = false → (storeSpan k).2 ≤ 64 * (s.sto[k].pos + 1) →
      Gives (.scrubGranule k) s fun t => t.sto[k].pos = 0 ∧ t.sto[k].pass = s.sto[k].pass + 1
        ∧ t.get (Fld.STO_STAT_PASSDONE.st k) = 1 ∧ t = { s with regs := t.regs, sto := t.sto }))
  ∧ (∀ (s : State) (k : Fin 10) (bank row n : Nat) (rest : List (Nat × Nat)), s.sto[k].cands = (bank, row) :: rest → s.sto[k].copy = none → s.storeRuns k = true →
    s.freeSpare k bank = some n → s.ecc = [] →
    Gives (.rowRepair k) s fun t => t.sto[k].copy = some ⟨bank, row, n, []⟩ ∧ t.sto[k].cands = rest ∧ t.get (Fld.STO_STAT_REPBUSY.st k) = 1
      ∧ t = { s with regs := t.regs, sto := t.sto } ∧ SameRegs [(Fld.STO_STAT_REPBUSY.st k).reg] s t)
  ∧ (∀ (s : State) (k : Fin 10) (bank row : Nat) (rest : List (Nat × Nat)), s.sto[k].cands = (bank, row) :: rest → s.sto[k].copy = none → s.storeRuns k = true →
    s.freeSpare k bank = none → Gives (.rowRepair k) s fun t => t.sto[k].copy = none ∧ t.sto[k].cands = rest ∧ t.mem = s.mem ∧ t.now = s.now)
  ∧ (∀ (s : State) (k : Fin 10) (c : RowCopy), s.sto[k].copy = some c → c.bad = [] → c.bank < 32 → c.spare < 8 → c.row < 1024 →
    s.rtc.held = [] → s.stalled = [] → (∀ h : Fin 8, s.bfm[h].stalled = [] ∧ s.orx[h].fifo = []) →
    Gives (.rowRemap k) s fun t => t.sto[k].copy = none ∧ t.mem = s.mem ∧ t.ecc = s.ecc ∧ t.now = s.now
      ∧ (8 ≤ k.val → t.get ((Fld.STO_REPAIRn_VALID.i (8 * c.bank + c.spare)).st k) = 1 ∧ t.get (Fld.STO_STAT_REPBUSY.st k) = 0))
  ∧ (∀ (s : State) (r : Req) (k : Fin 10) (n : Fin 256) (v : Word), Takes s r ((Fld.STO_REPAIRn_VALID.i n).st k).reg →
    let a := ((Fld.STO_REPAIRn_VALID.i n).st k).reg
    (r.id = 16 → (∀ h : Fin 8, h.val = k.val → (s.eng[hEng h].state = 0 ∨ s.eng[hEng h].state = 3) ∧ s.get (Fld.ARB_STAT_DRAINED.h h) = 1) → s.locked a = false →
      Gives (.stoRepairWrite r k n v) s fun t => t.get ((Fld.STO_REPAIRn_VALID.i n).st k) = getBits Fld.STO_REPAIRn_VALID v
      ∧ t.get ((Fld.STO_REPAIRn_ROW.i n).st k) = getBits Fld.STO_REPAIRn_ROW v ∧ t = { s with resp := { err := false, data := 0 }, regs := t.regs, mem := t.mem, ecc := t.ecc, sto := t.sto } ∧ SameRegs [a] s t
      ∧ (∀ b, (∀ w ∈ rowWords k (n / 8) (s.get ((Fld.STO_REPAIRn_ROW.i n).st k)) ++ rowWords k (n / 8) (getBits Fld.STO_REPAIRn_ROW v), b < w ∨ w + 8 ≤ b) →
        memRead t.mem b = memRead s.mem b))
    ∧ (r.id ≠ 16 → Gives (.stoRepairWrite r k n v) s fun t => t.rd a = s.rd a ∧ t.mem = s.mem ∧ t.sto = s.sto))
  ∧ (∀ (s : State) (r : Req) (k : Fin 10) (v : Word), Takes s r (Fld.STO_INJ_ARM.st k).reg → r.id = 16 →
    Gives (.stoInjectArm r k v) s fun t => t.get (Fld.STO_INJ_ARM.st k) = getBits Fld.STO_INJ_ARM v ∧ t.mem = s.mem ∧ t.ecc = s.ecc ∧ t.sto = s.sto)
  ∧ (∀ (s : State) (k : Fin 10) (t0 : Nat), s.get (Fld.STO_CFG_SCRUB.st k) = 1 → s.storeRuns k = true → s.ecc = [] → s.sto[k].pos = 0 → s.sto[k].scrubAt = none →
    s.sto[k].passAt = some t0 → s.granuleWaits k (storeSpan k).1 = false →
    let t1 := max s.now (t0 + max 60 (s.get (Fld.STO_CFG_PERIOD.st k)) * secU)
    exec (.scrubGranule k) s = .next ((s.at t1).setSto k { s.sto[k] with passAt := some t1, pos := 1 }))
  ∧ (∀ (s : State) (k : Fin 10), s.get (Fld.STO_CFG_SCRUB.st k) = 1 → s.storeRuns k = true → s.sto[k].pos ≠ 0 →
    s.granuleWaits k ((storeSpan k).1 + 64 * s.sto[k].pos) = true → s.sto[k].scrubAt = none →
    exec (.scrubGranule k) s = .next (s.setSto k { s.sto[k] with scrubAt := some s.now }))

/-- The arbiter (R291, R292): the Reeve's write sets FREEZE, and DRAINED follows when the banks are idle; fall-back comes into force with FORCEFB or a low rail, and is
counted once; it ends when the rail has recovered and FORCEFB is 0.
Locks (R301, R302, R304): a read of a free lock gives it to its reader, a read of a held one changes nothing; its owner's release frees it, another's is recorded; the
Reeve's LCK_FREE frees a held lock as broken.
Completes (the conclusion is the next state of exec, under conditions on the state and the operands alone): arbFreeze, arbDrained, arbFallbackEntry,
arbFallbackExit, lockAcquire, lockRelease, lockFree. -/
def Obligations.ArbiterAndLocks : Prop :=
  ((∀ (s : State) (r : Req) (h : Fin 8) (v : Word), Takes s r (hamletBase h + Reg.ARB_CTRL) → r.id = 16 →
    Gives (.arbFreeze r h v) s fun t => t.get (Fld.ARB_CTRL_FREEZE.h h) = getBits Fld.ARB_CTRL_FREEZE v
      ∧ (getBits Fld.ARB_CTRL_FREEZE v = 0 → s.get (Fld.ARB_CTRL_FREEZE.h h) = 1 → t.get (Fld.ARB_STAT_DRAINED.h h) = 0)
      ∧ (getBits Fld.ARB_CTRL_FREEZE v = 1 ∨ s.rtc.held = [] ∧ s.stalled = [] ∧ s.bfm[h].stalled = [] ∧ s.orx[h].fifo = [] →
        t = { s with resp := { err := false, data := 0 }, regs := t.regs, bfm := t.bfm, sto := t.sto }
        ∧ SameRegs [hamletBase h + Reg.ARB_CTRL, hamletBase h + Reg.ARB_STAT, ((Fld.ARB_CNTn_COUNT.i 0).h h).reg] s t))
  ∧ (∀ (s : State) (h : Fin 8), s.get (Fld.ARB_CTRL_FREEZE.h h) = 1 →
    Gives (.arbDrained h) s fun t => t.get (Fld.ARB_STAT_DRAINED.h h) = 1 ∧ t.get (Fld.ARB_STAT_FB.h h) = s.get (Fld.ARB_STAT_FB.h h)
      ∧ t = { s with regs := t.regs } ∧ SameRegs [hamletBase h + Reg.ARB_STAT] s t)
  ∧ (∀ (s : State) (h : Fin 8) (t0 : Nat), s.get (Fld.ARB_CFG_FORCEFB.h h) = 1 →
    Gives (.arbFallbackEntry h t0) s fun t => t.get (Fld.ARB_STAT_FB.h h) = 1 ∧ t.now = max s.now t0
      ∧ t.get ((Fld.ARB_CNTn_COUNT.i 2).h h) = (if s.get (Fld.ARB_STAT_FB.h h) = 1 then s.get ((Fld.ARB_CNTn_COUNT.i 2).h h)
          else min (s.get ((Fld.ARB_CNTn_COUNT.i 2).h h) + 1) (2 ^ 32 - 1))
      ∧ t = { s with now := t.now, regs := t.regs, hpow := t.hpow } ∧ SameRegs [hamletBase h + Reg.ARB_STAT, ((Fld.ARB_CNTn_COUNT.i 2).h h).reg] s t)
  ∧ (∀ (s : State) (h : Fin 8) (t0 : Nat), s.hpow[h].low = true → s.get (Fld.ARB_CFG_FORCEFB.h h) = 0 → 700000 < s.railUv h (max s.now t0) →
    700000 < s.railUv h (max s.now t0 - 10 * usU) →
    Gives (.arbFallbackExit h t0) s fun t => t.get (Fld.ARB_STAT_FB.h h) = 0 ∧ t.hpow[h].low = false ∧ t = { s with now := max s.now t0, regs := t.regs, hpow := t.hpow }
      ∧ SameRegs [hamletBase h + Reg.ARB_STAT] s t))
  ∧ ((∀ (s : State) (r : Req) (h : Fin 8) (n : Fin 32), s.check r (hamletBase h + Reg.LCK_n + 4 * n) 2 false = .ok →
    (s.get ((Fld.LCK_n_OWNER.i n).h h) = 0 → Gives (.lockAcquire r h n) s fun t => t.get ((Fld.LCK_n_OWNER.i n).h h) = s.lockOwner r h
      ∧ t.get ((Fld.LCK_n_BROKEN.i n).h h) = 0 ∧ bitOf (t.get (Fld.LCK_HELD_HELD.h h)) n = true
      ∧ t.resp = { err := false, data := s.get ((Fld.LCK_n_BROKEN.i n).h h) * 2 ^ 30 + s.lockOwner r h * 16 } ∧ t = { s with resp := t.resp, regs := t.regs }
      ∧ SameRegs [hamletBase h + Reg.LCK_n + 4 * n, hamletBase h + Reg.LCK_HELD] s t)
    ∧ (s.get ((Fld.LCK_n_OWNER.i n).h h) ≠ 0 → exec (.lockAcquire r h n) s = .next { s with resp := { err := false, data := (if s.get ((Fld.LCK_n_OWNER.i n).h h) = s.lockOwner r h then 3 else 2) * 2 ^ 30 + s.get ((Fld.LCK_n_OWNER.i n).h h) * 16 } }))
  ∧ (∀ (s : State) (r : Req) (h : Fin 8) (n : Fin 32) (v : Word), Takes s r (hamletBase h + Reg.LCK_n + 4 * n) → getBits Fld.LCK_n_RELEASE v = 1 →
    (s.get ((Fld.LCK_n_OWNER.i n).h h) = s.lockOwner r h → Gives (.lockRelease r h n v) s fun t => t.get ((Fld.LCK_n_OWNER.i n).h h) = 0
      ∧ bitOf (t.get (Fld.LCK_HELD_HELD.h h)) n = false ∧ t = { s with resp := { err := false, data := 0 }, regs := t.regs }
      ∧ SameRegs [hamletBase h + Reg.LCK_n + 4 * n, hamletBase h + Reg.LCK_HELD] s t)
    ∧ (s.get ((Fld.LCK_n_OWNER.i n).h h) ≠ s.lockOwner r h → Gives (.lockRelease r h n v) s fun t => t.mem = s.mem ∧ t.eng = s.eng
      ∧ t.get Fld.SYS_BADACC_CNT_COUNT = min (s.get Fld.SYS_BADACC_CNT_COUNT + 1) (2 ^ Fld.SYS_BADACC_CNT_COUNT.width - 1)))
  ∧ (∀ (s : State) (r : Req) (h : Fin 8) (n : Fin 32), Takes s r (hamletBase h + Reg.LCK_FREE) → r.id = 16 → s.get ((Fld.LCK_n_OWNER.i n).h h) ≠ 0 →
    exec (.lockFree r h (BitVec.ofNat 32 (2 ^ n.val))) s = .next (s.ok.breakLock h n)))

/-- The reference and the outputs (R329, R336 to R338, R340): a loss of REFIN puts the utility PLL into holdover; its return locks both PLLs again; a CLKOUT setting within its
limits is stored and one outside them is not; a divider restarts at its millisecond; a crystal that does not start sends the Stile radio to Sleep.
Converter PLLs (R332 to R335): ACQ begins an attempt in the nearest valid band; a declared lock is aligned at its millisecond; the third failed attempt ends the
acquisition; clearing EN drops lock; a lost lock stays lost until the next attempt ends; slips are counted; the margin is watched while locked.
Completes (the conclusion is the next state of exec, under conditions on the state and the operands alone): refinLoss, refinRequalified, clkoutReconfigure,
clkoutAlign, stileXoFail, pllAcq, pllDisable, pllLockDeclared, pllAcqTimeout, pllLossOfLock, pllSlip, pllTuningMargin, pllAlign. -/
def Obligations.ClocksAndPlls : Prop :=
  ((∀ (s : State) (t0 : Nat), s.get Fld.CLK_REF_PRESENT = 1 →
    Gives (.refinLoss t0) s fun t => t.get Fld.CLK_REF_PRESENT = 0 ∧ t.get Fld.CLK_REF_REFLOST = 1 ∧ t.get Fld.CLK_UPLL_HOLDOVER = 1
      ∧ t.get Fld.CLK_LPLL_LOCK = 0 ∧ t.now = max s.now t0)
  ∧ (∀ (s : State) (t0 : Nat), s.get Fld.CLK_REF_PRESENT = 0 → s.pow.refOff = false →
    Gives (.refinRequalified t0) s fun t => t.get Fld.CLK_REF_PRESENT = 1 ∧ t.get Fld.CLK_UPLL_HOLDOVER = 0 ∧ t.get Fld.CLK_UPLL_LOCK = 1
      ∧ t.get Fld.CLK_LPLL_LOCK = 1 ∧ t.now = max s.now (nextMult t0 tickU))
  ∧ (∀ (s : State) (r : Req) (n : Fin 4) (v : Word), Takes s r (Reg.CLK_OUTn_CFG + 16 * n) →
    let u := s.ok.storeReg r (Reg.CLK_OUTn_CFG + 16 * n) v
    (clkOutAllowed (u.rd (Reg.CLK_OUTn_CFG + 16 * n)) (u.rd (Reg.CLK_OUTn_DIV + 16 * n)) = true →
      Gives (.clkoutReconfigure r n false v) s fun t => t.get (Fld.CLK_OUTn_CFG_EN.i n) = getBits Fld.CLK_OUTn_CFG_EN v
        ∧ t = { s with resp := { err := false, data := 0 }, regs := t.regs, clkOut := t.clkOut } ∧ SameRegs [Reg.CLK_OUTn_CFG + 16 * n] s t)
    ∧ (clkOutAllowed (u.rd (Reg.CLK_OUTn_CFG + 16 * n)) (u.rd (Reg.CLK_OUTn_DIV + 16 * n)) = false →
      Gives (.clkoutReconfigure r n false v) s fun t => t.rd (Reg.CLK_OUTn_CFG + 16 * n) = s.rd (Reg.CLK_OUTn_CFG + 16 * n) ∧ t.clkOut = s.clkOut))
  ∧ (∀ (s : State) (n : Fin 4) (d : Nat), s.clkOut[n].restart = some d →
    exec (.clkoutAlign n) s = .next { s with now := max s.now d, clkOut := s.clkOut.set n ⟨none, true⟩ })
  ∧ (∀ (s : State) (t0 : Nat), s.get Fld.STL_STAT_STATE = 5 → s.get Fld.STL_STAT_LATCHED = 0 → s.bel.answer = none →
    Gives (.stileXoFail t0) s fun t => t.get Fld.STL_STAT_STATE = 0 ∧ t.get Fld.STL_STAT_XOFAIL = 1 ∧ t.stl.lock = false ∧ t.now = max s.now t0 ∧ t.mem = s.mem)
  ∧ (∀ (s : State) (t0 : Nat), s.bel.answer ≠ none → s.pow.down ≠ 0 →
    exec (.stileXoFail t0) s = .next { s with now := max s.now t0, bel := { s.bel with answer := none } }))
  ∧ ((∀ (s : State) (r : Req) (h : Fin 8) (v : Word) (n : Nat), Takes s r (hamletBase h + Reg.PLL_CTRL) → v.getLsbD 31 = true → getBits Fld.PLL_CTRL_EN v = 1 →
    s.pll[h].forced = false → s.get (Fld.PLL_STAT_LOCK.h h) = 0 → s.get (Fld.PLL_FORCE_EN.h h) = 0 →
    s.nearestBand h (bandIndex (signed 12 (s.get (Fld.THM_SENSn_EFF.i (10 * h.val + 8))))) = some n →
    Gives (.pllAcq r h v) s fun t => t.get (Fld.PLL_STAT_ACQUIRING.h h) = 1 ∧ t.get (Fld.PLL_STAT_BAND.h h) = s.get ((Fld.PLL_BANDn_CODE.i n).h h)
      ∧ t.get (Fld.PLL_STAT_FAILED.h h) = 0 ∧ t.pll[h].acqDue = some (s.now + msU) ∧ t.pll[h].tries = 0
      ∧ t = { s with resp := { err := false, data := 0 }, regs := t.regs, pll := t.pll }
      ∧ SameRegs [hamletBase h + Reg.PLL_CTRL, hamletBase h + Reg.PLL_STAT] s t)
  ∧ (∀ (s : State) (r : Req) (h : Fin 8) (v : Word), Takes s r (hamletBase h + Reg.PLL_CTRL) → v.getLsbD 31 = false → getBits Fld.PLL_CTRL_EN v = 0 →
    s.get (Fld.PLL_CTRL_EN.h h) = 1 →
    Gives (.pllDisable r h v) s fun t => t.get (Fld.PLL_CTRL_EN.h h) = 0 ∧ t.get (Fld.PLL_STAT_LOCK.h h) = 0 ∧ t.get (Fld.PLL_STAT_ACQUIRING.h h) = 0
      ∧ t.pll[h].acqDue = none ∧ t.now = s.now ∧ t.mem = s.mem ∧ t.eff = s.eff)
  ∧ (∀ (s : State) (h : Fin 8) (t0 d : Nat), s.pll[h].acqDue = some d → s.pow.refOff = false →
    Gives (.pllLockDeclared h t0) s fun t => t.get (Fld.PLL_STAT_LOCK.h h) = 1 ∧ t.get (Fld.PLL_STAT_ACQUIRING.h h) = 0 ∧ t.get (Fld.PLL_CTRL_ACQ.h h) = 0
      ∧ t.pll[h].alignDue = some (nextMult (max s.now (min t0 d) + 2 * usU) msU) ∧ t.pll[h].acqDue = none
      ∧ t = { s with now := max s.now (min t0 d), regs := t.regs, pll := t.pll }
      ∧ SameRegs [hamletBase h + Reg.PLL_CTRL, hamletBase h + Reg.PLL_STAT, (Fld.TXC_STAT_UNLOCKED.h h).reg, (Fld.RXC_STAT_UNLOCKED.h h).reg] s t)
  ∧ (∀ (s : State) (h : Fin 8) (d n : Nat), s.pll[h].acqDue = some d → s.pll[h].tries < 2 → s.get (Fld.PLL_FORCE_EN.h h) = 0 →
    s.nearestBand h (bandIndex (signed 12 (s.get (Fld.THM_SENSn_EFF.i (10 * h.val + 8))))) = some n →
    Gives (.pllAcqTimeout h) s fun t => t.pll[h].acqDue = some (d + msU) ∧ t.pll[h].tries = s.pll[h].tries + 1 ∧ t.get (Fld.PLL_STAT_ACQUIRING.h h) = 1
      ∧ t.get ((Fld.PLL_CNTn_COUNT.i 2).h h) = min (s.get ((Fld.PLL_CNTn_COUNT.i 2).h h) + 1) (2 ^ 32 - 1)
      ∧ t = { s with now := max s.now d, regs := t.regs, pll := t.pll })
  ∧ (∀ (s : State) (h : Fin 8) (d : Nat), s.pll[h].acqDue = some d → 2 ≤ s.pll[h].tries →
    Gives (.pllAcqTimeout h) s fun t => t.pll[h].acqDue = none ∧ t.now = max s.now d ∧ t.mem = s.mem)
  ∧ (∀ (s : State) (h : Fin 8) (t0 : Nat), s.get (Fld.PLL_STAT_LOCK.h h) = 1 →
    Gives (.pllLossOfLock h t0) s fun t => t.get (Fld.PLL_STAT_LOCK.h h) = 0 ∧ t.pll[h].alignDue = none ∧ t.tx[h].forced = true ∧ t.now = max s.now t0 ∧ t.mem = s.mem)
  ∧ (∀ (s : State) (h : Fin 8), s.get (Fld.PLL_STAT_LOCK.h h) = 1 → exec (.pllSlip h) s = .next (s.inc ((Fld.PLL_CNTn_COUNT.i 1).h h)))
  ∧ (∀ (s : State) (h : Fin 8) (mv t0 : Nat),
    let u := (s.at t0).put (Fld.PLL_FORCE_VTUNE.h h) mv
    let w := u.put (Fld.PLL_STAT_MARGIN.h h) 1
    (s.get (Fld.PLL_STAT_LOCK.h h) = 0 ∨ (150 ≤ mv ∧ mv ≤ 850) → exec (.pllTuningMargin h mv t0) s = .next u)
    ∧ (s.get (Fld.PLL_STAT_LOCK.h h) = 1 → mv < 150 ∨ 850 < mv →
      exec (.pllTuningMargin h mv t0) s = .next (w.raise 0x425 h (w.rd (hamletBase h + Reg.PLL_STAT)).toNat)))
  ∧ (∀ (s : State) (h : Fin 8) (d : Nat), s.pll[h].alignDue = some d →
    Gives (.pllAlign h) s fun t => t.get (Fld.PLL_STAT_ALIGNED.h h) = 1 ∧ t.pll[h].alignDue = none ∧ (s.hstate h = 2 → t.hstate h = 3)
      ∧ (s.bist.target ≠ some h.val → s.tx[h].forced = true → t.tx[h].resumeDue = some (nextMult (max s.now d + 10 * usU) halfU) ∧ t.tx[h].dacGated = false)
      ∧ (s.bist.target ≠ some h.val → s.rx[h].forced = true → t.rx[h].resumeDue = some (max s.now d + 10 * usU))
      ∧ t = { s with now := max s.now d, regs := t.regs, pll := t.pll, tx := t.tx, rx := t.rx, rejoin := t.rejoin, cal := t.cal, thm := t.thm, mute := t.mute, txSwap := t.txSwap, rxSwap := t.rxSwap, dpd := t.dpd }
      ∧ SameRegs [hamletBase h + Reg.PLL_STAT, Reg.PWR_HSTATE] s t))

/-- Bias channels (R389 to R393): a code acts at once or by the slew limiter; a step of the ramp moves by STEP, the last one exactly onto the target; MODE changes at the clear
code alone; BIAS_CLR_L clears every channel.
Completes (the conclusion is the next state of exec, under conditions on the state and the operands alone): biasCodeWrite, biasModeWrite, biasSlewStep,
biasClrAssert, biasClrRelease. -/
def Obligations.BiasCodes : Prop :=
  (∀ (s : State) (r : Req) (c : Fin 32) (v : Word), Takes s r (Reg.BDA_CHc_CODE + 32 * c) → s.get Fld.BDA_CTRL_CLRPIN = 0 → 2 ≤ s.hstate (c / 4) →
    s.get (Fld.BDA_CHc_STAT_OWNER.i c) = 0 → s.get (Fld.BDA_CHc_STAT_SINEWAIT.i c) = 0 → s.bias[c].sine = none → s.calOnBias c = false →
    let n := getBits Fld.BDA_CHc_CODE_CODE v
    (s.get (Fld.BDA_CHc_CFG_SLEN.i c) = 0 → Gives (.biasCodeWrite r c v) s fun t => t.get (Fld.BDA_CHc_STAT_OUT.i c) = n ∧ t.get (Fld.BDA_CHc_CODE_CODE.i c) = n
      ∧ t.get (Fld.BDA_CHc_STAT_OWNER.i c) = 0 ∧ t.get (Fld.BDA_CHc_STAT_CLRD.i c) = 0 ∧ t = { s with resp := { err := false, data := 0 }, regs := t.regs, bias := t.bias }
      ∧ SameRegs [Reg.BDA_CHc_CODE + 32 * c, Reg.BDA_CHc_STAT + 32 * c] s t)
    ∧ (s.get (Fld.BDA_CHc_CFG_SLEN.i c) = 1 → s.get (Fld.BDA_CHc_STAT_OUT.i c) ≠ n → Gives (.biasCodeWrite r c v) s fun t =>
      t.get (Fld.BDA_CHc_STAT_OUT.i c) = s.get (Fld.BDA_CHc_STAT_OUT.i c) ∧ t.get (Fld.BDA_CHc_CODE_CODE.i c) = n ∧ t.get (Fld.BDA_CHc_STAT_OWNER.i c) = 1
      ∧ t.bias[c].goal = n ∧ t.bias[c].step = some (s.now + max 1 (min 1000 (s.get (Fld.BDA_CHc_CFG_INTV.i c))) * usU)
      ∧ t = { s with resp := { err := false, data := 0 }, regs := t.regs, bias := t.bias }))
  ∧ (∀ (s : State) (r : Req) (c : Fin 32) (v : Word), Takes s r (Reg.BDA_CHc_CODE + 32 * c) → s.get Fld.BDA_CTRL_CLRPIN = 1 → s.get (Fld.BDA_CHc_STAT_SINEWAIT.i c) = 0 →
    Gives (.biasCodeWrite r c v) s fun t => t.rd (Reg.BDA_CHc_CODE + 32 * c) = s.rd (Reg.BDA_CHc_CODE + 32 * c)
      ∧ t.rd (Reg.BDA_CHc_STAT + 32 * c) = s.rd (Reg.BDA_CHc_STAT + 32 * c) ∧ t.bias = s.bias)
  ∧ (∀ (s : State) (r : Req) (c : Fin 32) (v : Word), Takes s r (Reg.BDA_CHc_CFG + 32 * c) → s.get (Fld.BDA_CHc_STAT_SINEWAIT.i c) = 0 → s.bias[c].sine = none →
    s.calOnBias c = false → s.get (Fld.BDA_CHc_STAT_OUT.i c) = s.get (Fld.BDA_CHc_CLR_CODE.i c) → s.get (Fld.BDA_CHc_STAT_OWNER.i c) = 0 →
    Gives (.biasModeWrite r c v) s fun t => t.get (Fld.BDA_CHc_CFG_MODE.i c) = getBits Fld.BDA_CHc_CFG_MODE v
      ∧ t.get (Fld.BDA_CHc_CFG_SLEN.i c) = getBits Fld.BDA_CHc_CFG_SLEN v ∧ t = { s with resp := { err := false, data := 0 }, regs := t.regs }
      ∧ SameRegs [Reg.BDA_CHc_CFG + 32 * c] s t)
  ∧ (∀ (s : State) (r : Req) (c : Fin 32) (v : Word), Takes s r (Reg.BDA_CHc_CFG + 32 * c) → s.get (Fld.BDA_CHc_STAT_SINEWAIT.i c) = 0 → s.bias[c].sine = none →
    s.get (Fld.BDA_CHc_STAT_OUT.i c) ≠ s.get (Fld.BDA_CHc_CLR_CODE.i c) → getBits Fld.BDA_CHc_CFG_MODE v ≠ s.get (Fld.BDA_CHc_CFG_MODE.i c) →
    Gives (.biasModeWrite r c v) s fun t => t.get (Fld.BDA_CHc_CFG_MODE.i c) = s.get (Fld.BDA_CHc_CFG_MODE.i c) ∧ t.get (Fld.BDA_CHc_STAT_BUSY.i c) = 1 ∧ t.bias = s.bias)
  ∧ (∀ (s : State) (c : Fin 32) (t0 : Nat), s.bias[c].step = some t0 → s.get (Fld.BDA_CHc_STAT_SINEWAIT.i c) = 0 → s.bias[c].start = false → s.bias[c].goal < 2 ^ 14 →
    let out := s.get (Fld.BDA_CHc_STAT_OUT.i c)
    let n := s.get (Fld.BDA_CHc_CFG_STEPM1.i c) + 1
    let next := if out < s.bias[c].goal then min s.bias[c].goal (out + n) else max s.bias[c].goal (out - n)
    (next ≠ s.bias[c].goal → Gives (.biasSlewStep c) s fun t => t.get (Fld.BDA_CHc_STAT_OUT.i c) = next
      ∧ t.bias[c].step = some (t0 + max 1 (min 1000 (s.get (Fld.BDA_CHc_CFG_INTV.i c))) * usU) ∧ t.get (Fld.BDA_CHc_STAT_OWNER.i c) = s.get (Fld.BDA_CHc_STAT_OWNER.i c)
      ∧ t = { s with now := max s.now t0, regs := t.regs, bias := t.bias } ∧ SameRegs [Reg.BDA_CHc_STAT + 32 * c] s t)
    ∧ (next = s.bias[c].goal → Gives (.biasSlewStep c) s fun t => t.get (Fld.BDA_CHc_STAT_OUT.i c) = s.bias[c].goal ∧ t.bias[c].step = none
      ∧ (s.get (Fld.BDA_CHc_STAT_OWNER.i c) = 1 → t.get (Fld.BDA_CHc_STAT_OWNER.i c) = 0)
      ∧ t = { s with now := max s.now t0, regs := t.regs, bias := t.bias } ∧ SameRegs [Reg.BDA_CHc_STAT + 32 * c] s t))
  ∧ (∀ (s : State) (t0 : Nat),
    Gives (.biasClrAssert t0) s fun t => t.get Fld.BDA_CTRL_CLRPIN = 1 ∧ t.now = max s.now t0 ∧ t.mem = s.mem
      ∧ (∀ c : Fin 32, t.get (Fld.BDA_CHc_STAT_OUT.i c) = s.get (Fld.BDA_CHc_CLR_CODE.i c) ∧ t.get (Fld.BDA_CHc_STAT_CLRD.i c) = 1
        ∧ t.get (Fld.BDA_CHc_STAT_OWNER.i c) = 0 ∧ t.get (Fld.BDA_CHc_SINE_EN.i c) = 0 ∧ t.bias[c].sine = none))
  ∧ (∀ (s : State) (t0 : Nat), exec (.biasClrRelease t0) s = .next ((s.at t0).put Fld.BDA_CTRL_CLRPIN 0))

/-- The sine generator and the servo's claim (R222, R394, R395): EN moves the channel to OFFSET; the sine starts there with sample 0; EN = 0 stops it at the end of its
half-cycle, with OFFSET at the ball and in CODE; the servo claims a free channel and is refused to a follower.
Completes (the conclusion is the next state of exec, under conditions on the state and the operands alone): biasSineEnable, biasSineStart, biasSineDisable,
biasSineHalfCycleEnd, vcxoEnable. -/
def Obligations.BiasSine : Prop :=
  (∀ (s : State) (r : Req) (c : Fin 32) (v : Word), Takes s r (Reg.BDA_CHc_SINE + 32 * c) → s.get Fld.BDA_CTRL_CLRPIN = 0 → 2 ≤ s.hstate (c / 4) →
    s.get (Fld.BDA_CHc_STAT_OWNER.i c) = 0 → s.get (Fld.BDA_CHc_STAT_SINEWAIT.i c) = 0 → s.bias[c].sine = none → s.calOnBias c = false →
    s.get (Fld.BDA_CHc_SINE_EN.i c) = 0 → s.get (Fld.BDA_CHc_CFG_SLEN.i c) = 0 → s.get (Fld.BDA_CHc_STAT_CLRD.i c) = 0 →
    Gives (.biasSineEnable r c v) s fun t => t.get (Fld.BDA_CHc_SINE_EN.i c) = 1 ∧ t.get (Fld.BDA_CHc_SINE_FTW.i c) = getBits Fld.BDA_CHc_SINE_FTW v
      ∧ t.get (Fld.BDA_CHc_STAT_SINEWAIT.i c) = 1 ∧ t.get (Fld.BDA_CHc_STAT_OUT.i c) = s.get (Fld.BDA_CHc_SAMP_OFFSET.i c) ∧ t.bias[c].start = true
      ∧ t.bias[c].step = some s.now ∧ t = { s with resp := { err := false, data := 0 }, regs := t.regs, bias := t.bias }
      ∧ SameRegs [Reg.BDA_CHc_SINE + 32 * c, Reg.BDA_CHc_STAT + 32 * c] s t)
  ∧ (∀ (s : State) (c : Fin 32) (t0 : Nat), s.get (Fld.BDA_CHc_STAT_SINEWAIT.i c) = 1 → s.bias[c].start = true →
    s.get (Fld.BDA_CHc_STAT_OUT.i c) = s.bias[c].goal → s.bias[c].step = some t0 →
    Gives (.biasSineStart c) s fun t => t.get (Fld.BDA_CHc_STAT_OWNER.i c) = 2 ∧ t.get (Fld.BDA_CHc_STAT_SINEWAIT.i c) = 0
      ∧ t.bias[c].sine = some ⟨t0, 0, s.biasFtw c, s.get (Fld.BDA_CHc_SAMP_AMP.i c), s.get (Fld.BDA_CHc_SAMP_OFFSET.i c), none, none⟩
      ∧ t = { s with now := max s.now t0, regs := t.regs, bias := t.bias } ∧ SameRegs [Reg.BDA_CHc_STAT + 32 * c] s t)
  ∧ (∀ (s : State) (r : Req) (c : Fin 32) (v : Word), Takes s r (Reg.BDA_CHc_SINE + 32 * c) → s.get Fld.BDA_CTRL_CLRPIN = 0 → 2 ≤ s.hstate (c / 4) →
    s.calOnBias c = false → s.get (Fld.BDA_CHc_SINE_EN.i c) = 1 → s.sineArrived c = none →
    (s.bias[c].sine ≠ none → Gives (.biasSineDisable r c v) s fun t => t.get (Fld.BDA_CHc_SINE_EN.i c) = 0 ∧ (∃ x, t.bias[c].sine = some x ∧ x.stop.isSome = true)
      ∧ t = { s with resp := { err := false, data := 0 }, regs := t.regs, bias := t.bias } ∧ SameRegs [Reg.BDA_CHc_SINE + 32 * c, Reg.BDA_CHc_STAT + 32 * c] s t)
    ∧ (s.bias[c].sine = none → Gives (.biasSineDisable r c v) s fun t => t.get (Fld.BDA_CHc_SINE_EN.i c) = 0 ∧ t.get (Fld.BDA_CHc_STAT_SINEWAIT.i c) = 0
      ∧ t.bias[c].start = false ∧ t.bias[c].sine = none ∧ t = { s with resp := { err := false, data := 0 }, regs := t.regs, bias := t.bias }
      ∧ SameRegs [Reg.BDA_CHc_SINE + 32 * c, Reg.BDA_CHc_STAT + 32 * c] s t))
  ∧ (∀ (s : State) (c : Fin 32) (x : Sine) (t0 : Nat), s.bias[c].sine = some x → x.stop = some t0 →
    Gives (.biasSineHalfCycleEnd c) s fun t => t.get (Fld.BDA_CHc_STAT_OUT.i c) = s.get (Fld.BDA_CHc_SAMP_OFFSET.i c)
      ∧ t.get (Fld.BDA_CHc_CODE_CODE.i c) = s.get (Fld.BDA_CHc_SAMP_OFFSET.i c) ∧ t.get (Fld.BDA_CHc_STAT_OWNER.i c) = 0 ∧ t.bias[c].sine = none
      ∧ t = { s with now := max s.now t0, regs := t.regs, bias := t.bias } ∧ SameRegs [Reg.BDA_CHc_CODE + 32 * c, Reg.BDA_CHc_STAT + 32 * c] s t)
  ∧ (∀ (s : State) (r : Req) (v : Word), Takes s r Reg.TIM_VCXO → v.getLsbD 31 = true →
    let c : Fin 32 := Fin.ofNat 32 (getBits Fld.TIM_VCXO_CH v)
    ((s.get Fld.TLY_CFG_EN = 0 ∨ s.get Fld.TLY_STAT_HEAD = 1) → s.get Fld.TIM_VCXO_EN = 0 → s.get (Fld.BDA_CHc_STAT_OWNER.i c) = 0 →
      s.get (Fld.BDA_CHc_STAT_SINEWAIT.i c) = 0 → Gives (.vcxoEnable r v) s fun t => t.get (Fld.BDA_CHc_STAT_OWNER.i c) = 3 ∧ t.get Fld.TIM_VCXO_EN = 1
        ∧ t.get Fld.TIM_VCXO_CH = c.val ∧ t = { s with resp := { err := false, data := 0 }, regs := t.regs, cal := t.cal } ∧ SameRegs [Reg.TIM_VCXO, Reg.BDA_CHc_STAT + 32 * c] s t)
    ∧ (s.get Fld.TLY_CFG_EN = 1 → s.get Fld.TLY_STAT_HEAD = 0 → Gives (.vcxoEnable r v) s fun t => t.rd Reg.TIM_VCXO = s.rd Reg.TIM_VCXO ∧ t.bias = s.bias))
  ∧ (∀ (s : State) (r : Req) (c : Fin 32) (v : Word), Takes s r (Reg.BDA_CHc_SINE + 32 * c) → s.get Fld.BDA_CTRL_CLRPIN = 0 → 2 ≤ s.hstate (c / 4) →
    s.get (Fld.BDA_CHc_STAT_OWNER.i c) = 0 → s.get (Fld.BDA_CHc_STAT_SINEWAIT.i c) = 0 → s.bias[c].sine = none → s.calOnBias c = false →
    s.get (Fld.BDA_CHc_SINE_EN.i c) = 0 → s.get (Fld.BDA_CHc_STAT_CLRD.i c) = 1 →
    Gives (.biasSineEnable r c v) s fun t => t.get (Fld.BDA_CHc_STAT_OUT.i c) = s.get (Fld.BDA_CHc_STAT_OUT.i c) ∧ t.get (Fld.BDA_CHc_STAT_SINEWAIT.i c) = 1
      ∧ t.get (Fld.BDA_CHc_STAT_CLRD.i c) = 1 ∧ t = { s with resp := { err := false, data := 0 }, regs := t.regs })

/-- Hamlet domains (R346, R348, R350 to R357): VSET takes 5 to 20 and the rail ramps from where it is; ENTER starts an entry that no voter refuses, or is aborted and counted;
in RETAIN the pins drive SAFE and the bias channels their clear codes, in OFF the engine and the store are lost; a wake sets BUSY; one that is not ready after 2 ms leaves the domain OFF with WFAIL.
The wake of a hamlet (R354 to R356): from RETAIN the domain is accessible again in IDLE; from OFF it is ready once its PLL has acquired, and not before.
Completes (the conclusion is the next state of exec, under conditions on the state and the operands alone): ldoVsetWrite, hamletEnter, hamletWakeWrite,
hamletEntryComplete, hamletWakeFail, hamletWakeReady. -/
def Obligations.HamletDomains : Prop :=
  ((∀ (s : State) (r : Req) (h : Fin 8) (v : Word), Takes s r (Reg.PWR_HLDOh + 4 * h) →
    (5 ≤ getBits Fld.PWR_HLDOh_VSET v → getBits Fld.PWR_HLDOh_VSET v ≤ 20 → Gives (.ldoVsetWrite r h v) s fun t =>
      t.get (Fld.PWR_HLDOh_VSET.i h) = getBits Fld.PWR_HLDOh_VSET v ∧ t.hpow[h] = { s.hpow[h] with rampMv := s.railUv h s.now / 1000, rampAt := s.now }
      ∧ t = { s with resp := { err := false, data := 0 }, regs := t.regs, hpow := t.hpow } ∧ SameRegs [Reg.PWR_HLDOh + 4 * h] s t)
    ∧ (getBits Fld.PWR_HLDOh_VSET v < 5 ∨ 20 < getBits Fld.PWR_HLDOh_VSET v → Gives (.ldoVsetWrite r h v) s fun t =>
      t.rd (Reg.PWR_HLDOh + 4 * h) = s.rd (Reg.PWR_HLDOh + 4 * h) ∧ t.hpow = s.hpow))
  ∧ (∀ (s : State) (r : Req) (h : Fin 8), Takes s r Reg.PWR_HCTRL → (s.eng[hEng h].state = 0 ∨ s.eng[hEng h].state = 3) → s.htgt h ≠ 0 → 2 ≤ s.hstate h →
    s.get (Fld.PWR_HSTATE_BUSY.sub h) = 0 →
    (s.hamletVote h (s.htgt h == 2) = none → Gives (.hamletEnter r (BitVec.ofNat 32 (2 ^ h.val))) s fun t => t.get (Fld.PWR_HSTATE_BUSY.sub h) = 1
      ∧ t.hpow[h].entry = some ⟨s.htgt h, s.flag (Fld.PLL_STAT_LOCK.h h), false, s.now⟩ ∧ t.rejoin[h] = some notActive ∧ t.now = s.now ∧ t.mem = s.mem)
    ∧ (∀ id, s.hamletVote h (s.htgt h == 2) = some id → id ≠ 9 → Gives (.hamletEnter r (BitVec.ofNat 32 (2 ^ h.val))) s fun t =>
      bitOf (t.get Fld.PWR_HCTRL_ABORTED) h = true ∧ t.get Fld.PWR_REFUSE_CNT_COUNT = min (s.get Fld.PWR_REFUSE_CNT_COUNT + 1) (2 ^ 32 - 1)
      ∧ (s.get Fld.PWR_REFUSER_VALID = 0 → t.get Fld.PWR_REFUSER_ID = id % 256 ∧ t.get Fld.PWR_REFUSER_HAMLET = h.val ∧ t.get Fld.PWR_REFUSER_VALID = 1)
      ∧ t = { s with resp := { err := false, data := 0 }, regs := t.regs } ∧ SameRegs [Reg.PWR_HCTRL, Reg.PWR_REFUSE_CNT, Reg.PWR_REFUSER] s t))
  ∧ (∀ (s : State) (r : Req) (h : Fin 8), Takes s r Reg.PWR_HCTRL → s.hstate h < 2 → s.hpow[h].entry = none → s.hpow[h].wakeAt = none →
    s.get (Fld.PWR_HSTATE_WFAIL.sub h) = 0 → s.get Fld.THM_STAT_SDLATCH = 0 →
    Gives (.hamletWakeWrite r (BitVec.ofNat 32 (2 ^ (8 + h.val)))) s fun t => t.get (Fld.PWR_HSTATE_BUSY.sub h) = 1 ∧ t.hpow[h].wakeAt = some s.now
      ∧ t = { s with resp := { err := false, data := 0 }, regs := t.regs, hpow := t.hpow } ∧ SameRegs [Reg.PWR_HSTATE] s t)
  ∧ (∀ (s : State) (h : Fin 8) (e : Entry) (t0 : Nat), s.hpow[h].entry = some e → e.held = false →
    (e.target = 1 → Gives (.hamletEntryComplete h t0) s fun t => t.hstate h = 1 ∧ t.get (Fld.PWR_HSTATE_BUSY.sub h) = 0
      ∧ t.get (Fld.FEP_LEVEL_LEVEL.h h) = s.get (Fld.FEP_SAFE_SAFE.h h) ∧ t.hpow[h].entry = none ∧ (∀ c ∈ biasOf h, t.biasOut c = s.get (Fld.BDA_CHc_CLR_CODE.i c))
      ∧ ((∀ c ∈ biasOf h, (s.at (min t0 (e.at0 + 20 * usU))).biasBusy c = false) →
        t = { s with now := max s.now (min t0 (e.at0 + 20 * usU)), regs := t.regs, hpow := t.hpow }
        ∧ SameRegs [Reg.PWR_HSTATE, hamletBase h + Reg.FEP_LEVEL, hamletBase h + Reg.ARB_STAT] s t))
    ∧ (e.target ≠ 1 → Gives (.hamletEntryComplete h t0) s fun t => t.hstate h = 0 ∧ t.get (Fld.PWR_HSTATE_BUSY.sub h) = 0 ∧ t.eng[hEng h] = {}
      ∧ (∀ a, inHamlet h a = true → memRead t.mem a = 0#8) ∧ (∀ a, inHamlet h a = false → memRead t.mem a = memRead s.mem a)
      ∧ t.now = max s.now (min t0 (e.at0 + 30 * usU))))
  ∧ (∀ (s : State) (h : Fin 8) (w : Nat), s.hpow[h].wakeAt = some w →
    Gives (.hamletWakeFail h) s fun t => t.get (Fld.PWR_HSTATE_WFAIL.sub h) = 1 ∧ t.hstate h = 0 ∧ t.hpow[h] = {} ∧ t.now = max s.now (w + 2 * msU)
      ∧ (∀ a, inHamlet h a = false → memRead t.mem a = memRead s.mem a)))
  ∧ ((∀ (s : State) (h : Fin 8) (w t0 : Nat), s.hpow[h].wakeAt = some w → s.hstate h = 1 → (∀ x ∈ s.stalled, inHamlet h x.addr = false) →
    Gives (.hamletWakeReady h t0) s fun t => t.hstate h = 2 ∧ t.get (Fld.PWR_HSTATE_BUSY.sub h) = 0 ∧ t.hpow[h].wakeAt = none
      ∧ t.stalled = s.stalled ∧ t.mem = s.mem ∧ t.now = max s.now (min t0 (w + 2 * msU)))
  ∧ (∀ (s : State) (h : Fin 8) (w t0 : Nat), s.hpow[h].wakeAt = some w → s.hstate h ≠ 1 →
    let u := wakeRestore h (s.at (min t0 (w + 2 * msU)))
    (u.pll[h].acqDue = none → Gives (.hamletWakeReady h t0) s fun t => t.hstate h = 0 ∧ t.get (Fld.PWR_HSTATE_BUSY.sub h) = 1 ∧ t.hpow[h].wakeAt = some w)
    ∧ (u.pll[h].acqDue ≠ none → (∀ x ∈ u.stalled, inHamlet h x.addr = false) → Gives (.hamletWakeReady h t0) s fun t =>
      t.get (Fld.PLL_STAT_LOCK.h h) = 1 ∧ t.get (Fld.PLL_STAT_ACQUIRING.h h) = 0 ∧ t.pll[h].alignDue = some (nextMult (u.now + 2 * usU) msU) ∧ t.now = u.now)))

/-- The calendar and the wakes of the Hearth domain (R228, R229, R359, R386): whole cycles are omitted or added and the remainder is carried; a failed oscillator stops the
calendar; SYNC loads it from stepped device time at a whole second; a wake within 10 ms of the fall of WAKE_OUT is held; a held wake is a device reset with WAKE_OUT.
Completes (the conclusion is the next state of exec, under conditions on the state and the operands alone): calendarCompensation, calendarOscFail,
calendarSyncWrite, calendarLoad, hearthMonitorConversion, calendarAlarm, wakeHoldExpiry. -/
def Obligations.Calendar : Prop :=
  (∀ (s : State) (t0 : Nat),
    let u := s.at t0
    let d := u.calTemp - 8 * signed 8 (s.get Fld.HTH_XCOMP_T0)
    let sum := s.calen.rest + 4096 * (2560 * signed 16 (s.get Fld.HTH_XCOMP_OFFS) - (s.get Fld.HTH_XCOMP_K : Int) * d * d)
    (s.calen.runs = false → exec (.calendarCompensation t0) s = .next u)
    ∧ (s.calen.runs = true → Gives (.calendarCompensation t0) s fun t => t.calen.count = ((u.calendar : Int) - sum.tdiv 1000000000).toNat
      ∧ t.calen.rest = sum - sum.tdiv 1000000000 * 1000000000 ∧ t.calen.at0 = max s.now t0 ∧ t = { s with now := max s.now t0, calen := t.calen }))
  ∧ (∀ (s : State) (t0 : Nat),
    Gives (.calendarOscFail t0) s fun t => t.get Fld.HTH_CAL_CTRL_VALID = 0 ∧ t.get Fld.HTH_CAL_CTRL_OSCFAIL = 1 ∧ t.calen.runs = false
      ∧ t.calen.count = (s.at t0).calendar ∧ t = { s with now := max s.now t0, regs := t.regs, calen := t.calen, bel := { s.bel with since := none } } ∧ SameRegs [Reg.HTH_CAL_CTRL] s t)
  ∧ (∀ (s : State) (r : Req) (v : Word), Takes s r Reg.HTH_CAL_CTRL → v.getLsbD 0 = true →
    (s.get Fld.TIM_STAT_STEPPED = 1 → Gives (.calendarSyncWrite r v) s fun t => t.get Fld.HTH_CAL_CTRL_SYNC = 1 ∧ t.get Fld.HTH_CAL_CTRL_SYNCPEND = 1
      ∧ t.calen = { s.calen with syncAt := some (nextMult (s.now + msU) secU) } ∧ t = { s with resp := { err := false, data := 0 }, regs := t.regs, calen := t.calen }
      ∧ SameRegs [Reg.HTH_CAL_CTRL] s t)
    ∧ (s.get Fld.TIM_STAT_STEPPED = 0 → Gives (.calendarSyncWrite r v) s fun t => t.get Fld.HTH_CAL_CTRL_SYNCPEND = s.get Fld.HTH_CAL_CTRL_SYNCPEND ∧ t.calen = s.calen))
  ∧ (∀ (s : State) (d : Nat), s.calen.syncAt = some d →
    Gives .calendarLoad s fun t => t.calen.count = secOf (max s.now d) * 32768 ∧ t.calen.runs = true ∧ t.calen.syncAt = none ∧ t.get Fld.HTH_CAL_CTRL_VALID = 1
      ∧ t.get Fld.HTH_CAL_CTRL_SYNC = 0 ∧ t.get Fld.HTH_CAL_CTRL_SYNCPEND = 0 ∧ t = { s with now := max s.now d, regs := t.regs, calen := t.calen }
      ∧ SameRegs [Reg.HTH_CAL_CTRL] s t)
  ∧ (∀ (s : State) (mv t0 : Nat) (temp : Int), (s.pow.down = 0 ∨ s.pow.hearth = false → exec (.hearthMonitorConversion mv temp t0) s = .next s)
    ∧ (s.pow.down ≠ 0 → s.pow.hearth = true → Gives (.hearthMonitorConversion mv temp t0) s fun t => t.get Fld.HTH_MON_VAL_TEMP = unsigned 12 temp ∧ t.now = max s.now t0 ∧ t.mem = s.mem))
  ∧ (∀ (s : State) (t0 : Nat), s.pow.down ≠ 0 → s.get Fld.HTH_WAKECFG_ALARM_EN = 1 → s.get Fld.HTH_CAL_CTRL_VALID = 1 →
    (s.at t0).calSec % 2 ^ 32 = s.get Fld.HTH_ALARM_SEC →
    (max s.now t0 < s.pow.outAt + 10 * msU → Gives (.calendarAlarm t0) s fun t => t.pow.held = true ∧ t.get Fld.HTH_WAKECFG_ALARM_HIT = 1
      ∧ t = { s with now := max s.now t0, regs := t.regs, pow := { s.pow with held := true } } ∧ SameRegs [Reg.HTH_WAKECFG] s t)
    ∧ (s.pow.outAt + 10 * msU ≤ max s.now t0 → Gives (.calendarAlarm t0) s fun t => t.pow.wakeOut = true ∧ t.pow.down = 0 ∧ t.pow.step = 1
      ∧ t.get Fld.HTH_WAKECFG_ALARM_HIT = 1 ∧ t.get Fld.SYS_RSTCAUSE_WAKE = 1 ∧ t.mem = []))
  ∧ (∀ s : State, s.pow.held = true →
    Gives .wakeHoldExpiry s fun t => t.pow.wakeOut = true ∧ t.pow.down = 0 ∧ t.pow.held = false ∧ t.pow.step = 1 ∧ t.get Fld.SYS_RSTCAUSE_WAKE = 1 ∧ t.mem = [])

/-- Thermal actions and stops (R368, R370 to R373): shedding takes effect at its boundary; a rotation moves its muted group on; the orderly stop leaves every owner and steps
the channels towards their clear codes; with every hamlet OFF it is recorded and latched; a hard cut leaves the device in KEEP; REARM clears the latch only while no zone
is in SHUTDOWN; UNPIN lifts the pins of its zones.
Completes (the conclusion is the next state of exec, under conditions on the state and the operands alone): shedTakeEffect, rotationStep, orderlyStopBias,
orderlyStopComplete, hardCut, thmRearm, thmUnpin. -/
def Obligations.ThermalActions : Prop :=
  (∀ (s : State) (x : Nat × Nat) (l : List (Nat × Nat)), s.thm.shedDue = x :: l →
    Gives .shedTakeEffect s fun t => t = { s with now := max s.now x.1, thm := { s.thm with shedWas := (x.1, s.thm.shed), shed := t.thm.shed, shedDue := l.filter fun y => y.1 != x.1 } }
      ∧ ((∀ y ∈ l, y.1 ≠ x.1) → t.thm.shed = x.2) ∧ (∀ m y n, l = m ++ y :: n → y.1 = x.1 → (∀ z ∈ n, z.1 ≠ x.1) → t.thm.shed = y.2))
  ∧ (∀ (s : State) (h : Fin 8) (x : Rot), s.thm.rot[h] = some x →
    let per := match s.rotWord h with | some a => max 1 (getBits Fld.THM_ACTz_ROTP a) * msU | none => msU
    Gives (.rotationStep h) s fun t => (x.stop = false → t.thm.rot[h] = some { x with first := if x.first = 8 then 0 else (x.first + x.size) % 8, due := x.due + per })
      ∧ (x.stop = true → s.rotWord h = none → t.thm.rot[h] = none) ∧ (∀ a, x.stop = true → s.rotWord h = some a → t.thm.rot[h] = some ⟨0, rotSize a, x.due + per, false⟩)
      ∧ t.now = max s.now x.due ∧ t.mem = s.mem ∧ t.eff = s.eff
      ∧ (s.get (Fld.TXC_STAT_SAFE.h h) = 1 → t = { s with now := t.now, thm := t.thm }))
  ∧ (∀ (s : State) (t0 : Nat), s.thm.stopAt = some t0 →
    (s.thm.steps = 0 → Gives .orderlyStopBias s fun t => t.now = max s.now (t0 + 100 * usU) ∧ t.thm.steps = 1
      ∧ (∀ c : Fin 32, t.get (Fld.BDA_CHc_STAT_OWNER.i c) = 0 ∧ t.get (Fld.BDA_CHc_SINE_EN.i c) = 0 ∧ t.bias[c].sine = none))
    ∧ (s.thm.steps ≠ 0 → Gives .orderlyStopBias s fun t => t.now = max s.now (t0 + (100 + s.thm.steps) * usU) ∧ t.thm.steps = s.thm.steps + 1
      ∧ (∀ c : Fin 32, s.biasUp c = true → s.bias[c].sine = none →
        let out := s.get (Fld.BDA_CHc_STAT_OUT.i c)
        let clr := s.get (Fld.BDA_CHc_CLR_CODE.i c)
        let n := max 1 (s.get Fld.THM_SDCFG_SDSTEP)
        let next := if out < clr then min clr (out + n) else max clr (out - n)
        next ≠ clr → t.get (Fld.BDA_CHc_STAT_OUT.i c) = next)))
  ∧ (∀ s : State, s.thm.stopAt ≠ none → (∀ h : Fin 8, s.hstate h = 0) →
    Gives .orderlyStopComplete s fun t => t.get Fld.THM_STAT_STOPPING = 0 ∧ t.get Fld.THM_STAT_SDLATCH = 1 ∧ t.thm.stopAt = none
      ∧ t.rd Reg.HTH_THMREC = BitVec.ofNat 32 (thmRec false s.thm.cause) ∧ (∀ h : Fin 8, t.get (Fld.PWR_HSTATE_BUSY.sub h) = 0)
      ∧ t.get (Fld.THM_CNTn_COUNT.i 2) = min (s.get (Fld.THM_CNTn_COUNT.i 2) + 1) (2 ^ 32 - 1) ∧ t.mem = s.mem ∧ t.now = s.now)
  ∧ (∀ s : State, s.thm.hard = true ∨ s.thm.stopAt ≠ none →
    Gives .hardCut s fun t => t.pow.down = 1 ∧ t.pow.wakeOut = false ∧ t.get Fld.HTH_THMREC_HARD = 1 ∧ t.get Fld.HTH_THMREC_VALID = 1 ∧ t.mem = []
      ∧ (∀ e : Fin 9, t.eng[e] = {}))
  ∧ (∀ (s : State) (r : Req), Takes s r Reg.THM_CTRL →
    ((∀ z : Fin 9, s.thm.zone[z].on[2] = false) → Gives (.thmRearm r 0x80000000#32) s fun t => t.get Fld.THM_STAT_SDLATCH = 0 ∧ t.get Fld.HTH_THMREC_VALID = 0
      ∧ t = { s with resp := { err := false, data := 0 }, regs := t.regs } ∧ SameRegs [Reg.THM_STAT, Reg.HTH_THMREC] s t)
    ∧ ((∃ z : Fin 9, s.thm.zone[z].on[2] = true) → Gives (.thmRearm r 0x80000000#32) s fun t => t.get Fld.THM_STAT_SDLATCH = s.get Fld.THM_STAT_SDLATCH
      ∧ t.get Fld.HTH_THMREC_VALID = s.get Fld.HTH_THMREC_VALID ∧ t.thm = s.thm))
  ∧ (∀ (s : State) (r : Req) (z : Fin 9), Takes s r Reg.THM_CTRL →
    Gives (.thmUnpin r (BitVec.ofNat 32 (2 ^ z.val))) s fun t => bitOf (t.get Fld.THM_STAT_PINNED) z = false ∧ t.thm.zone[z].pins = Vector.replicate 3 []
      ∧ (∀ y : Fin 9, y ≠ z → t.thm.zone[y] = s.thm.zone[y]) ∧ t = { s with resp := { err := false, data := 0 }, regs := t.regs, thm := t.thm } ∧ SameRegs [Reg.THM_STAT] s t)

/-- The fixed round of the housekeeping ADC (R380 to R382, R385): a round begins at its multiple of PERIOD, waits for a user entry, or is skipped and counted; readings of
temperature sensors join the round; the round's end is counted and serves its consumers; the external reference becomes ready, times out, powers down.
The user sequence (R377, R383 to R385): a coarse and a fine result of an entry appear with NEW; an overrange reads as an end of the range and opens the recovery window;
GO starts the sequence or is refused while it runs; STOP ends it; a periodic start begins a pass or is counted; a read of a result latches its status.
Completes (the conclusion is the next state of exec, under conditions on the state and the operands alone): hkRoundStart, hkConversionEnd, hkRoundEnd,
hkRecoveryClose, hkRefReady, hkRefTimeout, hkRefPowerdown, hkCoarseReady, hkSeqGo, hkSeqStop, hkSeqPeriodicStart, hkResRead. -/
def Obligations.Housekeeping : Prop :=
  ((∀ s : State, s.running = true →
    let d := nextMult (max s.now (s.hk.next + 1)) (max 1 (s.eget Fld.HKA_ROUND_PERIOD) * msU)
    (s.hk.inRound = true ∨ s.hk.waiting = true → Gives .hkRoundStart s fun t => t.get Fld.HKA_STAT_OVERRUN = 1
      ∧ t.get (Fld.HKA_CNTn_COUNT.i 1) = min (s.get (Fld.HKA_CNTn_COUNT.i 1) + 1) (2 ^ 32 - 1)
      ∧ t = { s with now := max s.now d, regs := t.regs, hk := { s.hk with next := d } } ∧ SameRegs [(Fld.HKA_CNTn_COUNT.i 1).reg, Reg.HKA_STAT] s t)
    ∧ (s.hk.inRound = false → s.hk.waiting = false → s.hk.conv ≠ none →
      exec .hkRoundStart s = .next { s with now := max s.now d, hk := { s.hk with next := d, waiting := true } })
    ∧ (s.hk.inRound = false → s.hk.waiting = false → s.hk.conv = none → Gives .hkRoundStart s fun t => t.get Fld.HKA_STAT_ROUND = 1 ∧ t.hk.inRound = true
      ∧ t.hk.temps = [] ∧ t.hk.next = d ∧ t.erd Reg.HKA_ROUND = s.rd Reg.HKA_ROUND ∧ t = { s with now := max s.now d, regs := t.regs, eff := t.eff, hk := t.hk }
      ∧ SameRegs [Reg.HKA_STAT] s t))
  ∧ (∀ (s : State) (c : HkConv) (v : Nat), s.hk.conv = some c → c.wait = false → c.unav = false → c.fixed = true → 0x40 ≤ c.ch → s.hk.waiting = false →
    Gives (.hkConversionEnd v none) s fun t => t.hk.temps = s.hk.temps ++ [(c.ch - 0x40, v % 4096, false)] ∧ t.now = max s.now (c.start + 26 * hkD c.osr * modU)
      ∧ t = { s with now := t.now, regs := t.regs, hk := t.hk })
  ∧ (∀ s : State, s.hk.inRound = true → s.hk.conv = none → s.hk.round = [] →
    Gives .hkRoundEnd s fun t => t.get Fld.HKA_STAT_ROUND = 0 ∧ t.hk.inRound = false
      ∧ t.get (Fld.HKA_CNTn_COUNT.i 0) = min (s.get (Fld.HKA_CNTn_COUNT.i 0) + 1) (2 ^ 32 - 1) ∧ t.now = s.now)
  ∧ (∀ (s : State) (t0 : Nat), s.hk.recov = true → s.hk.conv = none →
    exec (.hkRecoveryClose t0) s = .next { s with now := max s.now t0, hk := { s.hk with recov := false } })
  ∧ (∀ (s : State) (t0 : Nat), s.hk.extAt ≠ none →
    Gives (.hkRefReady t0) s fun t => bitOf (t.get Fld.HKA_STAT_REFRDY) 1 = true
      ∧ (∀ c, s.hk.conv = some c → c.wait = true → t.hk.conv = some { c with wait := false, start := max s.now t0 + (c.start - c.begun) })
      ∧ t = { s with now := max s.now t0, regs := t.regs, hk := { s.hk with conv := t.hk.conv } } ∧ SameRegs [Reg.HKA_STAT] s t)
  ∧ (∀ (s : State) (c : HkConv), s.hk.conv = some c → c.wait = true → c.n < 32 →
    Gives .hkRefTimeout s fun t => t.get (Fld.HKA_CNTn_COUNT.i 3) = min (s.get (Fld.HKA_CNTn_COUNT.i 3) + 1) (2 ^ 32 - 1)
      ∧ t.get (Fld.HKA_RSTn_REFERR.i c.n) = 1 ∧ t.get (Fld.HKA_RESn_FINE.i c.n) = 0 ∧ t.now = max s.now (c.begun + 200 * usU) ∧ t.mem = s.mem)
  ∧ (∀ (s : State) (a : Nat), s.hk.extAt = some a → s.hk.conv = none →
    Gives .hkRefPowerdown s fun t => bitOf (t.get Fld.HKA_STAT_REFRDY) 1 = false ∧ t = { s with now := max s.now (a + msU), regs := t.regs, hk := { s.hk with extAt := none } }
      ∧ SameRegs [Reg.HKA_STAT] s t))
  ∧ ((∀ (s : State) (c : HkConv) (v : Nat), s.hk.conv = some c → c.wait = false → c.unav = false → c.fixed = false → v < 2 ^ 16 → c.n < 32 →
    Gives (.hkCoarseReady v) s fun t => t.get (Fld.HKA_RESn_COARSE.i c.n) = v ∧ t.now = max s.now (c.start + 64 * modU)
      ∧ t = { s with now := t.now, regs := t.regs, hk := t.hk } ∧ SameRegs [(Fld.HKA_RESn_COARSE.i c.n).reg] s t)
  ∧ (∀ (s : State) (c : HkConv) (v : Nat), s.hk.conv = some c → c.wait = false → c.unav = false → c.fixed = false → v < 2 ^ 16 → c.n < 32 →
    Gives (.hkConversionEnd v none) s fun t => t.get (Fld.HKA_RESn_FINE.i c.n) = v ∧ t.get (Fld.HKA_RSTn_NEW.i c.n) = 1 ∧ t.get (Fld.HKA_RSTn_OVR.i c.n) = 0
      ∧ t.now = max s.now (c.start + 26 * hkD c.osr * modU) ∧ t.mem = s.mem)
  ∧ (∀ (s : State) (c : HkConv) (v : Nat) (up : Bool), s.hk.conv = some c → c.wait = false → c.unav = false → c.fixed = false → c.n < 32 →
    Gives (.hkConversionEnd v (some up)) s fun t => t.get (Fld.HKA_RESn_FINE.i c.n) = (if up then 0xFFFF else 0) ∧ t.get (Fld.HKA_RSTn_NEW.i c.n) = 1
      ∧ t.get (Fld.HKA_RSTn_OVR.i c.n) = 1 ∧ t.hk.recov = true ∧ t.get (Fld.HKA_CNTn_COUNT.i 2) = min (s.get (Fld.HKA_CNTn_COUNT.i 2) + 1) (2 ^ 32 - 1) ∧ t.mem = s.mem)
  ∧ (∀ (s : State) (r : Req) (v : Word), Takes s r Reg.HKA_SEQCTL → v.getLsbD 31 = true → v.getLsbD 30 = false →
    (s.get Fld.HKA_STAT_SEQRUN = 1 → Gives (.hkSeqGo r v) s fun t => t.get Fld.HKA_STAT_GOREF = 1 ∧ t.get Fld.HKA_STAT_SEQRUN = 1
      ∧ t.get Fld.HKA_SEQCTL_LEN = getBits Fld.HKA_SEQCTL_LEN v ∧ t = { s with resp := { err := false, data := 0 }, regs := t.regs }
      ∧ SameRegs [Reg.HKA_SEQCTL, Reg.HKA_STAT] s t)
    ∧ (s.get Fld.HKA_STAT_SEQRUN = 0 → getBits Fld.HKA_SEQCTL_MODE v ≠ 2 → s.hk.conv ≠ none ∨ s.hk.inRound = true → Gives (.hkSeqGo r v) s fun t =>
      t.get Fld.HKA_STAT_SEQRUN = 1 ∧ t.hk = { s.hk with pos := 0 } ∧ t.get Fld.HKA_SEQCTL_LEN = getBits Fld.HKA_SEQCTL_LEN v
      ∧ t = { s with resp := { err := false, data := 0 }, regs := t.regs, hk := t.hk } ∧ SameRegs [Reg.HKA_SEQCTL, Reg.HKA_STAT] s t)
    ∧ (s.get Fld.HKA_STAT_SEQRUN = 0 → getBits Fld.HKA_SEQCTL_MODE v = 2 → Gives (.hkSeqGo r v) s fun t =>
      t.get Fld.HKA_STAT_SEQRUN = 1 ∧ t.hk = { s.hk with perDue := s.now } ∧ t = { s with resp := { err := false, data := 0 }, regs := t.regs, hk := t.hk }))
  ∧ (∀ (s : State) (r : Req) (v : Word), Takes s r Reg.HKA_SEQCTL → v.getLsbD 31 = false → v.getLsbD 30 = true → s.get Fld.HKA_STAT_SEQRUN = 1 →
    (∀ c, s.hk.conv = some c → c.fixed = false → Gives (.hkSeqStop r v) s fun t => t.hk = { s.hk with stop := true }
      ∧ t = { s with resp := { err := false, data := 0 }, regs := t.regs, hk := t.hk } ∧ SameRegs [Reg.HKA_SEQCTL] s t)
    ∧ (s.hk.conv = none → 33 ≤ s.hk.pos → Gives (.hkSeqStop r v) s fun t => t.get Fld.HKA_STAT_SEQRUN = 0 ∧ t.hk = s.hk
      ∧ t = { s with resp := { err := false, data := 0 }, regs := t.regs } ∧ SameRegs [Reg.HKA_SEQCTL, Reg.HKA_STAT] s t))
  ∧ (∀ s : State, s.get Fld.HKA_STAT_SEQRUN = 1 → s.get Fld.HKA_SEQCTL_MODE = 2 →
    let d := nextMult (max s.now (s.hk.perDue + 1)) (max 1 (s.get Fld.HKA_SEQCTL_SPER) * msU)
    (s.hk.pos < 33 → Gives .hkSeqPeriodicStart s fun t => t.get (Fld.HKA_CNTn_COUNT.i 4) = min (s.get (Fld.HKA_CNTn_COUNT.i 4) + 1) (2 ^ 32 - 1)
      ∧ t = { s with now := max s.now d, regs := t.regs, hk := { s.hk with perDue := d } } ∧ SameRegs [(Fld.HKA_CNTn_COUNT.i 4).reg] s t)
    ∧ (33 ≤ s.hk.pos → s.hk.conv ≠ none → exec .hkSeqPeriodicStart s = .next { s with now := max s.now d, hk := { s.hk with perDue := d, pos := 0 } }))
  ∧ (∀ (s : State) (r : Req) (n : Fin 32), s.check r (Reg.HKA_RESn + 8 * n) 2 false = .ok →
    exec (.hkResRead r n) s = .next { s with resp := { err := false, data := (s.rd (Reg.HKA_RESn + 8 * n)).toNat }, hk := { s.hk with latch := (n.val, s.rd (Reg.HKA_RSTn + 8 * n)) :: s.hk.latch.filter fun l => l.1 != n.val } }))

/-- Calibration requests (R399 to R404): GO in a busy slot is refused, a kind or mode that the slot does not allow ends with code 3, else the request starts; a run is counted
and kept; STOP, the time limit and a lost precondition end it with their codes; its end applies its values.
Completes (the conclusion is the next state of exec, under conditions on the state and the operands alone): calGo, calStop, calGuardStep, calRunEnd,
calRequestEnd, calLiveEstimate, calTimeout, calPreconditionLost, calSubstitution. -/
def Obligations.CalibrationRequests : Prop :=
  (∀ (s : State) (r : Req) (n : Fin 9) (v : Word), Takes s r (Reg.CAL_REQs + 32 * n) → v.getLsbD 30 = false →
    let kind := getBits Fld.CAL_REQs_KIND v
    let mode := getBits Fld.CAL_REQs_MODE v
    let mask := getBits Fld.CAL_REQs_MASK v
    (s.calReq n ≠ none → Gives (.calGo r n v) s fun t => t.get (Fld.CAL_STATs_REFUSED.i n) = 1 ∧ t.cal = s.cal
      ∧ t = { s with resp := { err := false, data := 0 }, regs := t.regs } ∧ SameRegs [Reg.CAL_REQs + 32 * n, Reg.CAL_STATs + 32 * n] s t)
    ∧ (s.calReq n = none → (calAllowed n kind mode = false ∨ mask = 0) → Gives (.calGo r n v) s fun t => t.get (Fld.CAL_STATs_CODE.i n) = 3
      ∧ t.get (Fld.CAL_STATs_FAIL.i n) = 1 ∧ t.get (Fld.CAL_STATs_BUSY.i n) = 0 ∧ t.mem = s.mem ∧ t.now = s.now)
    ∧ (s.calReq n = none → calAllowed n kind mode = true → mask ≠ 0 → (n.val < 8 → s.bist.target ≠ some n.val ∧ s.calRuns (calHamlet n) kind mode mask = true) →
      (kind = 1 ∨ s.cal.ended = true) → Gives (.calGo r n v) s fun t => t.get (Fld.CAL_STATs_BUSY.i n) = 1 ∧ t.get (Fld.CAL_STATs_KIND.i n) = kind
        ∧ t.get (Fld.CAL_STATs_RUNS.i n) = 0 ∧ (∃ q, t.calReq n = some q ∧ q.kind = kind ∧ q.mode = mode ∧ q.mask = mask ∧ q.go = s.now ∧ q.runs = [])
        ∧ t = { s with resp := { err := false, data := 0 }, regs := t.regs, cal := t.cal } ∧ SameRegs [Reg.CAL_REQs + 32 * n, Reg.CAL_STATs + 32 * n] s t))
  ∧ (∀ (s : State) (r : Req) (n : Fin 9) (v : Word) (q : CalReq), Takes s r (Reg.CAL_REQs + 32 * n) → v.getLsbD 31 = false → s.calReq n = some q → s.calLost n q = false →
    (q.mode = 2 → q.any = true → Gives (.calStop r n v) s fun t => t.get (Fld.CAL_STATs_DONE.i n) = 1 ∧ t.get (Fld.CAL_STATs_BUSY.i n) = 0 ∧ t.calReq n = none)
    ∧ (q.mode ≠ 2 ∨ q.any = false → Gives (.calStop r n v) s fun t => t.get (Fld.CAL_STATs_CODE.i n) = 7 ∧ t.get (Fld.CAL_STATs_FAIL.i n) = 1
      ∧ t.get (Fld.CAL_STATs_BUSY.i n) = 0 ∧ t.mem = s.mem))
  ∧ (∀ (s : State) (h : Fin 8) (q : CalReq) (t0 : Nat), s.calReq ⟨h.val, by omega⟩ = some q → q.mode = 1 → s.offWindow h (max t0 s.now) (max t0 s.now + 4 * usU) = true →
    exec (.calGuardStep h t0) s = .next ((s.at (max t0 s.now + 4 * usU)).setReq ⟨h.val, by omega⟩ (some { q with steps := q.steps + 1 })))
  ∧ (∀ (s : State) (n : Fin 9) (q : CalReq) (vals : List Int) (worn : List (Nat × Nat)) (t0 : Nat), s.calReq n = some q → q.mode = 0 → q.vals = none → q.code = 0 → s.calLost n q = false →
    max s.now t0 ≤ q.go + max 1 (s.get (Fld.CAL_PARs_TMO.i n)) * msU →
    Gives (.calRunEnd n vals worn t0) s fun t => t.get (Fld.CAL_STATs_RUNS.i n) = min (s.get (Fld.CAL_STATs_RUNS.i n) + 1) 15
      ∧ (∃ x, t.calReq n = some x ∧ x.runs = vals :: q.runs ∧ (q.check < 2 → x.vals = some vals)) ∧ t = { s with now := max s.now t0, regs := t.regs, cal := t.cal }
      ∧ SameRegs [Reg.CAL_STATs + 32 * n] s t)
  ∧ (∀ (s : State) (n : Fin 9) (q : CalReq) (vals : List Int) (worn : List (Nat × Nat)) (t0 : Nat), s.calReq n = some q → q.mode = 0 → q.vals = none → q.code = 0 → s.calLost n q = false →
    q.check ≠ 2 → q.go + max 1 (s.get (Fld.CAL_PARs_TMO.i n)) * msU < max s.now t0 →
    Gives (.calRunEnd n vals worn t0) s fun t => t.get (Fld.CAL_STATs_CODE.i n) = 1 ∧ t.get (Fld.CAL_STATs_BUSY.i n) = 0 ∧ t.mem = s.mem)
  ∧ (∀ (s : State) (n : Fin 9) (q : CalReq), s.calReq n = some q → s.calLost n q = false →
    (q.code ≠ 0 → q.code < 8 → Gives (.calRequestEnd n) s fun t => t.get (Fld.CAL_STATs_CODE.i n) = q.code ∧ t.get (Fld.CAL_STATs_BUSY.i n) = 0 ∧ t.mem = s.mem)
    ∧ (∀ vals, q.code = 0 → q.vals = some vals → q.kind = 6 → q.mode = 0 → q.worn = [] → Gives (.calRequestEnd n) s fun t => t.get (Fld.CAL_STATs_DONE.i n) = 1
      ∧ t.get (Fld.CAL_STATs_CODE.i n) = 0 ∧ t.calReq n = none ∧ (256 * n.val + 6, vals) ∈ t.cal.trims ∧ t = { s with regs := t.regs, cal := t.cal }
      ∧ SameRegs [Reg.CAL_REQs + 32 * n, Reg.CAL_STATs + 32 * n, Reg.CAL_CNTn] s t)
    ∧ (∀ v l, q.code = 0 → q.vals = some (v :: l) → q.kind = 1 → (v - (if s.get Fld.CAL_CFG_SRC = 1 then 25000 else 40000)).natAbs * 50 ≤ (if s.get Fld.CAL_CFG_SRC = 1 then 25000 else 40000) →
      Gives (.calRequestEnd n) s fun t => t.get Fld.CAL_REFSTAT_VALID = 1 ∧ t.get Fld.CAL_REFSTAT_NOREF = 0 ∧ (t.get Fld.CAL_REFSTAT_VAL : Int) = v
        ∧ t.get (Fld.CAL_STATs_DONE.i n) = 1 ∧ t.cal.ended = true ∧ t = { s with regs := t.regs, cal := t.cal }))
  ∧ (∀ (s : State) (h : Fin 8) (q : CalReq) (vals : List Int) (t0 : Nat), s.calReq ⟨h.val, by omega⟩ = some q → q.mode = 2 → q.check < 2 →
    s.calLost ⟨h.val, by omega⟩ q = false → let t1 := max s.now (max t0 (q.estAt + 50 * msU))
    Gives (.calLiveEstimate h vals [] true t0) s fun t => (∃ x, t.calReq ⟨h.val, by omega⟩ = some x ∧ x.any = true ∧ x.last = t1 ∧ x.estAt = t1 ∧ x.est = some vals)
      ∧ t.get (Fld.CAL_STATs_RUNS.i h) = min (s.get (Fld.CAL_STATs_RUNS.i h) + 1) 15 ∧ t = { s with now := t1, regs := t.regs, cal := t.cal })
  ∧ (∀ (s : State) (n : Fin 9) (q : CalReq), s.calReq n = some q → q.check ≠ 2 → s.calLost n q = false →
    let tmo := max 1 (s.get (Fld.CAL_PARs_TMO.i n)) * msU
    (q.mode ≠ 2 → Gives (.calTimeout n) s fun t => t.get (Fld.CAL_STATs_CODE.i n) = 1 ∧ t.get (Fld.CAL_STATs_FAIL.i n) = 1 ∧ t.get (Fld.CAL_STATs_BUSY.i n) = 0
      ∧ t.now = max s.now (q.go + tmo) ∧ t.mem = s.mem)
    ∧ (q.mode = 2 → Gives (.calTimeout n) s fun t => t.get (Fld.CAL_STATs_CODE.i n) = 1 ∧ t.get (Fld.CAL_STATs_FAIL.i n) = 1
      ∧ t.get (Fld.CAL_STATs_BUSY.i n) = s.get (Fld.CAL_STATs_BUSY.i n) ∧ t.calReq n = some { q with last := max s.now (q.last + tmo) }
      ∧ t = { s with now := max s.now (q.last + tmo), regs := t.regs, cal := t.cal } ∧ SameRegs [Reg.CAL_STATs + 32 * n] s t))
  ∧ (∀ (s : State) (n : Fin 9) (q : CalReq), s.calReq n = some q → s.calLost n q = true →
    (Gives (.calPreconditionLost n) s fun t => t.get (Fld.CAL_STATs_CODE.i n) = 4 ∧ t.get (Fld.CAL_STATs_BUSY.i n) = 0 ∧ t.mem = s.mem ∧ t.now = s.now)
    ∧ (Gives (.calRequestEnd n) s fun t => t.get (Fld.CAL_STATs_CODE.i n) = 4 ∧ t.get (Fld.CAL_STATs_BUSY.i n) = 0 ∧ t.cal.trims = s.cal.trims ∧ t.mem = s.mem))
  ∧ (∀ (s : State) (h : Fin 8) (x : CalSub) (t0 : Nat), (s.cal.subs.find? fun y => y.slot == h.val) = some x → s.silentAfter h (if x.kind = 4 then 0 else 1) x.at0 = some t0 →
    exec (.calSubstitution h) s = .next (calSwitch ⟨h.val, by omega⟩ x.kind x.bit (State.at (s.setCal { s.cal with subs := s.cal.subs.erase x }) t0)))

/-- Built-in self-test (R408, R410 to R413): GO starts the test of a hamlet that is ready and is refused otherwise; signatures are compared with the expected ones; memory BIST
leaves its store zero; the ending clears BUSY; a read of BIST_STAT ends the interrupt.
The test access port (R504): with its supplies in range IDCODE answers 0x16480B47, SAMPLE the captured levels, PRELOAD fills the boundary register, EXTEST puts it in
force, test-logic reset takes it out of force; without them nothing happens.
Completes (the conclusion is the next state of exec, under conditions on the state and the operands alone): bistGo, bistLogicEnd, bistMemoryPassEnd,
bistEnd, bistStatRead, testAccessPortOperation. -/
def Obligations.DeviceTests : Prop :=
  ((∀ (s : State) (r : Req) (h : Fin 8) (v : Word), Takes s r Reg.BIST_CMD → v.getLsbD 30 = false → getBits Fld.BIST_CMD_TARGET v = h.val → s.get Fld.BIST_STAT_BUSY = 0 →
    (getBits Fld.BIST_CMD_KIND v ≠ 3 → s.bistReady h = true → Gives (.bistGo r v) s fun t => t.get Fld.BIST_STAT_BUSY = 1 ∧ t.get Fld.BIST_STAT_TARGET = h.val
      ∧ t.get Fld.BIST_STAT_PHASE = (if getBits Fld.BIST_CMD_KIND v = 1 then 2 else 1) ∧ t.get Fld.BIST_STAT_NFAIL = 0 ∧ t.bist.target = some h.val ∧ t.tx[h].forced = true ∧ t.rx[h].forced = true
      ∧ t = { s with resp := { err := false, data := 0 }, regs := t.regs, bist := t.bist, tx := t.tx, rx := t.rx })
    ∧ (getBits Fld.BIST_CMD_KIND v = 3 ∨ s.bistReady h = false → Gives (.bistGo r v) s fun t => t.get Fld.BIST_STAT_REFUSED = 1 ∧ t.get Fld.BIST_STAT_BUSY = 0
      ∧ t.bist = s.bist ∧ t.mem = s.mem))
  ∧ (∀ (s : State) (sig : BitVec 64) (t0 : Nat), s.get Fld.BIST_STAT_PHASE = 1 →
    Gives (.bistLogicEnd sig t0) s fun t => t.get Fld.BIST_STAT_LPASS = b2n (s.bistPair Reg.BIST_EXPL_LO == sig.toNat)
      ∧ t.get Fld.BIST_STAT_LFAIL = b2n (!(s.bistPair Reg.BIST_EXPL_LO == sig.toNat)) ∧ t.get Fld.BIST_STAT_PHASE = (if s.bist.kind = 2 then 2 else 4)
      ∧ t.bistPair Reg.BIST_SIGL_LO = sig.toNat ∧ t = { s with now := max s.now t0, regs := t.regs }
      ∧ SameRegs [Reg.BIST_SIGL_LO, Reg.BIST_SIGL_HI, Reg.BIST_STAT] s t)
  ∧ (∀ (s : State) (sig : BitVec 64) (rows spares : List (Nat × Nat)) (t0 : Nat), (s.get Fld.BIST_STAT_PHASE = 3 ∨ s.get Fld.BIST_STAT_PHASE = 2 ∧ rows = [] ∧ spares = []) →
    Gives (.bistMemoryPassEnd rows spares sig t0) s fun t => t.get Fld.BIST_STAT_MPASS = b2n (s.bistPair Reg.BIST_EXPM_LO == sig.toNat)
      ∧ t.get Fld.BIST_STAT_MFAIL = b2n (!(s.bistPair Reg.BIST_EXPM_LO == sig.toNat)) ∧ t.get Fld.BIST_STAT_PHASE = 4
      ∧ (∀ a, memRead t.mem a = if storeOf a = s.bistStore then 0#8 else memRead s.mem a) ∧ t = { s with now := max s.now t0, regs := t.regs, mem := t.mem, ecc := t.ecc }
      ∧ SameRegs [Reg.BIST_SIGM_LO, Reg.BIST_SIGM_HI, Reg.BIST_STAT] s t)
  ∧ (∀ (s : State) (t0 : Nat), s.get Fld.BIST_STAT_PHASE = 4 → s.bist.target = none →
    Gives (.bistEnd t0) s fun t => t.get Fld.BIST_STAT_BUSY = 0 ∧ t.get Fld.BIST_STAT_PHASE = 0 ∧ t.get Fld.BIST_CMD_GO = 0
      ∧ t = { s with now := max s.now t0, regs := t.regs } ∧ SameRegs [Reg.BIST_STAT, Reg.BIST_CMD] s t)
  ∧ (∀ (s : State) (t0 k : Nat), s.get Fld.BIST_STAT_PHASE = 4 → s.bist.target = some k → k < 8 → s.bistBad = false →
    Gives (.bistEnd t0) s fun t => t.bist.irq = true ∧ t.bist.target = none ∧ t.get Fld.BIST_STAT_BUSY = 0 ∧ t.now = max s.now t0)
  ∧ (∀ (s : State) (r : Req), s.check r Reg.BIST_STAT 2 false = .ok →
    exec (.bistStatRead r) s = .next { s with resp := { err := false, data := (s.rd Reg.BIST_STAT).toNat }, bist := { s.bist with irq := false } }))
  ∧ (∀ (s : State) (cells : List (Nat × Bool)) (seen : List Bool),
    (Nat.land s.pow.rails 0x29 ≠ 0 → ∀ op, exec (.testAccessPortOperation op cells seen) s = .next s)
    ∧ (Nat.land s.pow.rails 0x29 = 0 →
      exec (.testAccessPortOperation 0 cells seen) s = .next { s with tap := { s.tap with ir := 0 }, out := .tdo 0x16480B47 :: s.out }
      ∧ exec (.testAccessPortOperation 1 cells seen) s = .next { s with tap := { s.tap with ir := 1 }, out := .tdo (scanOut seen) :: s.out }
      ∧ exec (.testAccessPortOperation 2 cells seen) s = .next { s with tap := { s.tap with ir := 2, bsr := cells } }
      ∧ exec (.testAccessPortOperation 3 cells seen) s = .next { s with tap := { ir := 3, bsr := cells, ext := true }, out := .tdo (scanOut seen) :: s.out }
      ∧ (∃ l, exec (.testAccessPortOperation 4 cells seen) s = .next { s with tap := { ir := 4, bsr := cells, ext := true }, out := .lane 4 l :: s.out })
      ∧ (∃ l, exec (.testAccessPortOperation 5 cells seen) s = .next { s with tap := { ir := 5, bsr := cells, ext := true }, out := .lane 5 l :: s.out })
      ∧ exec (.testAccessPortOperation 6 cells seen) s = .next { s with tap := { s.tap with ir := 0, ext := false } }))

/-- The register bridge (R8, R18, R41, R42, R46 to R50): a taken write stores each field by its access type; a write out of reach ends with an error and is captured with
reason 1; one to a sleeping hamlet waits and wakes it; one to a locked RW-L field leaves it; a counter reads and clears, keeping what it counts in the same access; LOCK
locks its block.
Completes (the conclusion is the next state of exec, under conditions on the state and the operands alone): registerWrite, counterReadClear, blockLock. -/
def Obligations.RegisterBridge : Prop :=
  (∀ (s : State) (r : Req) (a : Nat) (v : Word) (d : RegDesc), Takes s r a → (a / 0x10000 = 0x411 ∧ a ≠ Reg.BIST_CMD ∨ a / 0x10000 = 0x40B) →
    a % 0x10000 ≠ 0 → a % 0x10000 ≠ 0xFFFC → descOf a = some d → s.locked a = false →
    exec (.registerWrite r a v) s = .next (s.ok.wr a (wordWrite false d v (s.rd a))))
  ∧ (∀ (s : State) (r : Req) (a : Nat) (v : Word), inReach r a true = false →
    Gives (.registerWrite r a v) s fun t => t.resp = { err := true, data := 0 } ∧ t.mem = s.mem ∧ t.eng = s.eng
      ∧ t.get Fld.SYS_BADACC_CNT_COUNT = min (s.get Fld.SYS_BADACC_CNT_COUNT + 1) (2 ^ Fld.SYS_BADACC_CNT_COUNT.width - 1)
      ∧ (s.get Fld.SYS_BADACC_INFO_VALID = 0 → t.rd Reg.SYS_BADACC_ADDR = BitVec.ofNat 32 a
        ∧ t.rd Reg.SYS_BADACC_INFO = BitVec.ofNat 32 (2 ^ 31 + 1 * 2 ^ 13 + 2 ^ 12 + 2 * 2 ^ 10 + r.priv % 4 * 2 ^ 8 + r.id % 32))
      ∧ (s.get Fld.SYS_BADACC_INFO_VALID = 1 → t = { s with resp := t.resp, regs := t.regs } ∧ SameRegs [Reg.SYS_BADACC_CNT] s t))
  ∧ (∀ (s : State) (r : Req) (a : Nat) (v : Word) (h : Fin 8), inReach r a true = true → r.id ≠ 17 → hamletOf a = some h → s.bist.target ≠ some h.val →
    s.get (Fld.PWR_HSTATE_WFAIL.sub h) = 0 → s.get Fld.THM_STAT_SDLATCH = 0 → s.hstate h < 2 → s.hpow[h].entry = none → s.hpow[h].wakeAt = none →
    Gives (.registerWrite r a v) s fun t => t.stalled = s.stalled ++ [⟨r, a, 2, true, v.toNat, a⟩] ∧ t.get (Fld.PWR_HSTATE_BUSY.sub h) = 1
      ∧ t.hpow[h].wakeAt = some s.now ∧ t = { s with regs := t.regs, stalled := t.stalled, hpow := t.hpow } ∧ SameRegs [Reg.PWR_HSTATE] s t)
  ∧ (∀ (s : State) (r : Req) (v : Word), Takes s r Reg.THM_HYST → s.locked Reg.THM_HYST = true →
    Gives (.registerWrite r Reg.THM_HYST v) s fun t => t.rd Reg.THM_HYST = s.rd Reg.THM_HYST ∧ t.mem = s.mem
      ∧ t.get Fld.SYS_BADACC_CNT_COUNT = min (s.get Fld.SYS_BADACC_CNT_COUNT + 1) (2 ^ Fld.SYS_BADACC_CNT_COUNT.width - 1))
  ∧ (∀ (s : State) (r : Req) (k : Fin 6) (n : Nat), s.check r (Reg.TIM_CNTn + 4 * k) 2 false = .ok →
    Gives (.counterReadClear r (Reg.TIM_CNTn + 4 * k) n) s fun t => t.resp = { err := false, data := s.get (Fld.TIM_CNTn_COUNT.i k) }
      ∧ t.get (Fld.TIM_CNTn_COUNT.i k) = min n (2 ^ 32 - 1) ∧ t = { s with resp := t.resp, regs := t.regs } ∧ SameRegs [Reg.TIM_CNTn + 4 * k] s t)
  ∧ (∀ (s : State) (r : Req) (a : Nat) (v : Word), Takes s r (a / 0x10000 * 0x10000 + 0xFFFC) → r.id = 16 → (r.priv = 1 ∨ r.priv = 2) →
    Gives (.blockLock r a v) s fun t => t.locked a = true ∧ t = { s with resp := { err := false, data := 0 }, regs := t.regs }
      ∧ SameRegs [a / 0x10000 * 0x10000 + 0xFFFC] s t)

/-- Gateway requests (R197): a request for a frozen store waits; a malformed one fails with reason 8, one of more than 4,096 bytes with reason 9; one that passes every check
is performed.
Completes (the conclusion is the next state of exec, under conditions on the state and the operands alone): rmaRequest. -/
def Obligations.GatewayRequests : Prop :=
  ∀ (s : State) (m : Hdr) (id op low elem addr len : Nat) (data : List Nat), s.get (Fld.LNK_FLOWf_CFG_EN.i m.flow) ≠ 0 → s.hdrOk m 4 (12 + data.length) = true →
    let q : RmaReq := ⟨id, op, elem, addr, len, data⟩
    let u := { s with port := { s.port with inbox := dropFlow m.flow s.port.inbox } }
    let l := splitSpan (len + 1) addr len
    (s.rmaBusy = true → exec (.rmaRequest m id op low elem addr len data) s = .next s)
    ∧ (s.rmaBusy = false → s.rmaHeld (op != 0) addr len = true → exec (.rmaRequest m id op low elem addr len data) s =
      .next (if inStore addr then s.access gateway.id false addr (min len 4096) false else s))
    ∧ (s.rmaBusy = false → s.rmaHeld (op != 0) addr len = false → len = 0 → low = 0 → exec (.rmaRequest m id op low elem addr len data) s = .next (rmaFail q 8 u))
    ∧ (s.rmaBusy = false → s.rmaHeld (op != 0) addr len = false → op ≤ 2 → low = 0 → addr < 2 ^ 32 → 4096 < len → exec (.rmaRequest m id op low elem addr len data) s = .next (rmaFail q 9 u))
    ∧ (s.rmaBusy = false → s.rmaHeld (op != 0) addr len = false → op = 0 → low = 0 → addr < 2 ^ 32 → 1 ≤ len → len ≤ 4096 → u.rmaRefusal false l addr len = none → u.rmaSleeps false l = none →
      exec (.rmaRequest m id op low elem addr len data) s = .next (rmaPerform q u))
    ∧ (s.rmaBusy = false → s.rmaHeld (op != 0) addr len = false → op = 1 → low = 0 → addr < 2 ^ 32 → 1 ≤ len → len ≤ 4096 → data.length = len → u.rmaRefusal true l addr len = none →
      u.rmaSleeps true l = none → exec (.rmaRequest m id op low elem addr len data) s = .next (rmaPerform q u))

/-- The wake sequencer, reset and supplies (R345, R360, R361, R452 to R455): a step passes to the next when its condition holds; a third timeout is recorded and falls back;
RESET_L holds the part in reset with every block outside the Hearth domain at its reset values; its end samples the straps and starts the sequencer.
Completes (the conclusion is the next state of exec, under conditions on the state and the operands alone): wakeStepPass, wakeStepTimeout, wakerecClear,
supplyChange, resetLAssert, resetEnd, hearthPowerUp. -/
def Obligations.StartUp : Prop :=
  (∀ (s : State) (t0 : Nat), s.boot.inReset = false → max s.now t0 ≤ s.stepLimit →
    (s.pow.step = 1 → s.railsOk = true → exec (.wakeStepPass t0) s = .next { s with now := max s.now t0, pow := { s.pow with step := 2, try_ := 1, stepAt := max s.now t0 } })
    ∧ (s.pow.step = 2 → s.get Fld.CLK_REF_PRESENT = 1 → exec (.wakeStepPass t0) s = .next { s with now := max s.now t0, pow := { s.pow with step := 3, try_ := 1, stepAt := max s.now t0 } })
    ∧ (s.pow.step = 3 → Gives (.wakeStepPass t0) s fun t => t.pow = { s.pow with step := 0, try_ := 0, unpassed := false, refOff := false } ∧ t.get Fld.CLK_UPLL_LOCK = 1 ∧ t.now = max s.now t0
      ∧ (s.get Fld.HTH_THMREC_VALID = 1 → s.get Fld.HTH_THMREC_HARD = 1 → t.get Fld.SYS_RSTCAUSE_HARDCUT = 1 ∧ t.get Fld.THM_STAT_SDLATCH = 1)))
  ∧ (∀ (s : State) (t0 : Nat), s.boot.inReset = false → s.pow.step ≠ 0 → s.stepLimit ≤ max s.now t0 →
    (s.pow.try_ < 3 → exec (.wakeStepTimeout t0) s =
      .next { s with now := max s.now s.stepLimit, pow := { s.pow with try_ := s.pow.try_ + 1, stepAt := max s.now s.stepLimit } })
    ∧ (s.pow.try_ = 3 → s.pow.step < 16 → Gives (.wakeStepTimeout t0) s fun t => t.get Fld.HTH_WAKEREC_VALID = 1 ∧ t.get Fld.HTH_WAKEREC_STEP = s.pow.step
      ∧ t.get Fld.HTH_WAKEREC_TRY = 3 ∧ (s.pow.step = 1 → t.pow.wakeOut = false ∧ t.mem = []) ∧ (2 ≤ s.pow.step → t.boot.rom = true ∧ t.pow.step = 0 ∧ t.mem = s.mem)))
  ∧ (∀ (s : State) (r : Req) (v : Word), Takes s r Reg.HTH_WAKEREC → s.boot.booting = false → s.boot.rom = false →
    Gives (.wakerecClear r v) s fun t => t.get Fld.HTH_WAKEREC_VALID = 0 ∧ t.flt = { s.flt with bootFail := false }
      ∧ t = { s with resp := { err := false, data := 0 }, regs := t.regs, flt := t.flt } ∧ SameRegs [Reg.HTH_WAKEREC] s t)
  ∧ (∀ (s : State) (rail : Fin 9) (t0 : Nat), bitOf s.pow.rails rail = true → s.pow.hearth = false ∨ Nat.land (s.pow.rails - 2 ^ rail.val) 0x180 ≠ 0x180 → (s.pow.down ≠ 0 ∨ s.boot.inReset = true ∨ s.pow.step = 1 ∨ Nat.land (s.pow.rails - 2 ^ rail.val) 0x6D = 0) →
    exec (.supplyChange rail true t0) s = .next { s with now := max s.now t0, pow := { s.pow with rails := s.pow.rails - 2 ^ rail.val } })
  ∧ (∀ (s : State) (rail : Fin 9) (t0 : Nat), s.pow.hearth = false ∨ Nat.land (Nat.lor s.pow.rails (2 ^ rail.val)) 0x180 ≠ 0x180 → s.pow.down = 0 → s.boot.inReset = false → s.pow.step ≠ 1 → Nat.land (Nat.lor s.pow.rails (2 ^ rail.val)) 0x6D ≠ 0 →
    Gives (.supplyChange rail false t0) s fun t => t.pow.step = 1 ∧ t.pow.try_ = 1 ∧ t.mem = [] ∧ (∀ e : Fin 9, t.eng[e] = {}) ∧ t.now = 0)
  ∧ (∀ (s : State) (t0 : Nat),
    Gives (.resetLAssert t0) s fun t => t.boot.inReset = true ∧ t.boot.resetL = false ∧ t.get Fld.SYS_RSTCAUSE_PIN = 1 ∧ t.mem = [] ∧ t.eff = []
      ∧ (∀ e : Fin 9, t.eng[e] = {}) ∧ (∀ a, hearthReg a = false → a ≠ Reg.AGT_ARB → a ≠ Reg.TLY_STAT → t.rd a = regReset a) ∧ t.now = 0
      ∧ (∀ a, hearthReg a = true → a ≠ Reg.SYS_RSTCAUSE → t.rd a = s.rd a))
  ∧ (∀ (s : State) (x : BitVec 8) (t0 : Nat), s.boot.inReset = true → s.pow.hearth = true → x.toNat % 4 ≠ 3 → x.toNat / 64 ≠ 3 →
    Gives (.resetEnd x t0) s fun t => t.boot.inReset = false ∧ t.boot.straps = x.toNat ∧ t.pow.wakeOut = true ∧ t.pow.step = 1 ∧ t.pow.try_ = 1
      ∧ t.get Fld.CLK_REF_MULT = x.toNat % 4 ∧ t.get Fld.TLY_STAT_HEAD = x.toNat / 4 % 2 ∧ t.get Fld.TLY_STAT_BASE = x.toNat / 8 % 8
      ∧ t = { s with now := 0, regs := t.regs, flt := t.flt, boot := t.boot, pow := t.pow, calen := t.calen, bel := t.bel } ∧ SameRegs [Reg.CLK_REF, Reg.TLY_STAT] s t)
  ∧ (∀ (s : State) (t0 : Nat), (s.pow.hearth = true ∨ Nat.land s.pow.rails 0x180 = 0x180 → exec (.hearthPowerUp t0) s = .next s) ∧ (s.pow.hearth = false → bitOf s.pow.rails 7 = false ∨ bitOf s.pow.rails 8 = false →
    Gives (.hearthPowerUp t0) s fun t => t.boot.inReset = true ∧ t.get Fld.SYS_RSTCAUSE_POR = 1 ∧ t.mem = [] ∧ t.eff = []
      ∧ (∀ a, a ≠ Reg.SYS_RSTCAUSE → t.rd a = regReset a) ∧ t.agt.revoked = s.agt.revoked ∧ t.agt.keys = s.agt.keys ∧ t.agt.burnt = s.agt.burnt))

/-- Resets by software and the boot of the Reeve (R196, R453, R455, R459, R461, R469 to R471): DEV gets its instant and the device reset follows; REEVE ends the program's
protection and tries the sources; an accepted image starts the Reeve in machine mode at its entry; a failure is retried after 60 s.
Completes (the conclusion is the next state of exec, under conditions on the state and the operands alone): sysRstDev, reeveRestart, deviceReset,
remoteResetExecute, bootImageAccepted, bootFailure, bootRetry, bootLinkTimeout, bootRecordWrite. -/
def Obligations.SoftwareResetsAndBoot : Prop :=
  (∀ (s : State) (r : Req) (v : Word), Takes s r Reg.SYS_RST → r.id = 16 → r.priv = 2 →
    (v.getLsbD 1 = false → exec (.sysRstDev r v) s = .next { s with resp := { err := false, data := 0 }, boot := { s.boot with devDue := some (s.now + 10 * usU) } })
    ∧ (v.getLsbD 0 = false → Gives (.reeveRestart r v) s fun t => t.get Fld.SYS_RSTCAUSE_REEVE = 1 ∧ t.eng[8] = {} ∧ t.agt.prot[8] = none ∧ t.agt.sess = none
      ∧ t.boot.booting = true ∧ t.boot.upAt = s.now ∧ t.mem = s.mem))
  ∧ (∀ (s : State) (d : Nat), s.boot.devDue = some d →
    Gives .deviceReset s fun t => t.boot.inReset = true ∧ t.boot.devDue = none ∧ t.get Fld.SYS_RSTCAUSE_SOFT = 1 ∧ t.mem = [] ∧ t.now = 0)
  ∧ (∀ (s : State) (g d : Nat) (rest : List (Nat × Nat)), s.lnk.resets = (g, d) :: rest →
    (8 ≤ g → Gives .remoteResetExecute s fun t => t.boot.inReset = true ∧ t.get Fld.SYS_RSTCAUSE_REMOTE = 1 ∧ t.mem = [] ∧ t.now = 0)
    ∧ (∀ h : Fin 8, g = h.val → 2 ≤ s.hstate h → Gives .remoteResetExecute s fun t => t.lnk.resets = rest ∧ t.eng[hEng h] = {} ∧ t.mem = s.mem ∧ t.now = max s.now d)
    ∧ (g < 8 → s.hstate g < 2 → exec .remoteResetExecute s = .next { s with now := max s.now d, lnk := { s.lnk with resets := rest } }))
  ∧ (∀ (s : State) (slot : Fin 3) (img : List Nat) (t0 : Nat), s.boot.booting = true → slot.val < 2 → s.bootNext = some slot.val →
    let x := (s.at t0).imgCheck (img.take 512) ((img.drop 512).take (imgLen (img.take 512))) 1 0
    Gives (.bootImageAccepted slot img t0) s fun t => if x.1 = 0 then
        t.eng[8] = { state := 1, pc := imgEntry (img.take 512), priv := 2 } ∧ t.boot.booting = false
          ∧ (∃ p, t.agt.prot[8] = some p ∧ p.lo = imgLoad (img.take 512) ∧ p.len = imgLen (img.take 512)) ∧ t.now = max s.now t0
      else t.boot.failed = s.boot.failed ++ [slot.val] ∧ (t.rd bootRec).toNat % 8 = x.1 % 8 ∧ t.eng = s.eng ∧ t.mem = s.mem ∧ (s.bootSrc = 0 → SameRegs [bootRec] s t))
  ∧ (∀ (s : State) (res : Fin 8) (t0 : Nat), s.boot.booting = true →
    Gives (.bootFailure res t0) s fun t => t.boot.retry = some (max s.now t0 + 60 * secU) ∧ t.boot.booting = false ∧ t.boot.rom = true ∧ t.flt.bootFail = true
      ∧ (t.rd bootRec).toNat % 8 = (if s.boot.failed = [] then res.val else (s.rd bootRec).toNat % 8) ∧ t = { s with now := max s.now t0, regs := t.regs, boot := t.boot, flt := t.flt } ∧ SameRegs [bootRec] s t)
  ∧ (∀ (s : State) (d : Nat), s.boot.retry = some d →
    Gives .bootRetry s fun t => t.boot.booting = true ∧ t.boot.failed = [] ∧ t.boot.retry = none ∧ t.now = max s.now d ∧ t.mem = s.mem)
  ∧ (∀ (s : State) (t0 : Nat), s.boot.booting = true → s.linkUp = true → s.bootNext = some 2 → s.boot.upAt + 10 * secU ≤ max s.now t0 → (∀ m ∈ s.lnk.toReeve, m.flow ≠ 4) →
    Gives (.bootLinkTimeout t0) s fun t => t.get Fld.LNK_STAT_STATE = 1 ∧ t.lnk.tx.up = false ∧ t.lnk.rx.up = false ∧ t.now = max s.now (s.boot.upAt + 10 * secU) ∧ t.mem = s.mem)
  ∧ (∀ (s : State) (r : Req) (v : Word), Takes s r bootRec → r.id = 16 → r.priv = 2 →
    (v.getLsbD 7 = true → Gives (.bootRecordWrite r v) s fun t => bitOf (t.rd bootRec).toNat 7 = true ∧ bitOf (t.rd bootRec).toNat 8 = v.getLsbD 8
      ∧ t = { s with resp := { err := false, data := 0 }, regs := t.regs } ∧ SameRegs [bootRec] s t)
    ∧ (v.getLsbD 7 = false → bitOf (s.rd bootRec).toNat 7 = true → Gives (.bootRecordWrite r v) s fun t => bitOf (t.rd bootRec).toNat 7 = false
      ∧ (t.rd bootRec).toNat / 256 = (s.rd bootRec).toNat / 256 ∧ t = { s with resp := { err := false, data := 0 }, regs := t.regs } ∧ SameRegs [bootRec] s t))

/-- The fault manager (R475, R477, R479, R482, R485, R487): a cease clears ACTIVE; the end of a recovery takes the next of the queue or ends; isolation of a running hamlet is
requested; a software fault is raised with its number from 0xE00 on; the safety state of a hamlet that is not isolated ends; waiting indications go when the link is UP.
Completes (the conclusion is the next state of exec, under conditions on the state and the operands alone): fltCease, fltEndRecovery, fltIsolate,
fltSafetyClear, fltRaiseSoftware, fltEndSafety, eventIndicationFlush. -/
def Obligations.FaultManager : Prop :=
  (∀ (s : State) (r : Req) (x : BitVec 8), Takes s r Reg.FLT_CTRL →
    (∀ n : Fin 32, x.toNat = n.val → s.get (Fld.FLT_LOGn_W0_ACTIVE.i n) = 1 → s.flt.sent[n] = false → Gives (.fltCease r x) s fun t =>
      t.get (Fld.FLT_LOGn_W0_ACTIVE.i n) = 0 ∧ t = { s with resp := { err := false, data := 0 }, regs := t.regs } ∧ SameRegs [(Fld.FLT_LOGn_W0_ACTIVE.i n).reg] s t)
    ∧ (∀ n : Fin 32, x.toNat = n.val → s.get (Fld.FLT_LOGn_W0_ACTIVE.i n) = 0 → exec (.fltCease r x) s = .next s.ok)
    ∧ (32 ≤ x.toNat → Gives (.fltCease r x) s fun t => t.get Fld.SYS_BADACC_CNT_COUNT = min (s.get Fld.SYS_BADACC_CNT_COUNT + 1) (2 ^ 32 - 1) ∧ t.mem = s.mem)
    ∧ (s.get Fld.FLT_RCV_BUSY = 1 → s.flt.queue = [] → Gives (.fltEndRecovery r x) s fun t => t.get Fld.FLT_RCV_BUSY = 0
      ∧ t = { s with resp := { err := false, data := 0 }, regs := t.regs } ∧ SameRegs [Reg.FLT_RCV] s t)
    ∧ (∀ n l, s.get Fld.FLT_RCV_BUSY = 1 → s.flt.queue = n :: l → n < 32 → Gives (.fltEndRecovery r x) s fun t => t.get Fld.FLT_RCV_BUSY = 1 ∧ t.get Fld.FLT_RCV_NEW = 1
      ∧ t.get Fld.FLT_RCV_IDX = n ∧ t.get Fld.FLT_RCV_ELEM = s.get (Fld.FLT_LOGn_W0_ELEM.i n) ∧ t.flt = { s.flt with queue := l }
      ∧ t = { s with resp := { err := false, data := 0 }, regs := t.regs, flt := t.flt } ∧ SameRegs [Reg.FLT_RCV] s t)
    ∧ (∀ h : Fin 8, x.toNat = h.val → bitOf (s.get Fld.FLT_STAT_ISO) h = false → (s.flt.isoStep[h] = 0 ∨ s.flt.isoStep[h] = 5) → 2 ≤ s.hstate h →
      Gives (.fltIsolate r x) s fun t => t.flt.isoStep[h] = 1 ∧ t.flt.isoCause[h] = 0 ∧ t = { s with resp := { err := false, data := 0 }, flt := t.flt })
    ∧ (∀ h : Fin 8, x.toNat = h.val → 2 ≤ s.hstate h → s.flt.isoStep[h] = 0 → Gives (.fltSafetyClear r x) s fun t => (∀ k : Fin 8, t.get ((Fld.TXC_PATHk_MUTE.i k).h h) = 1)
      ∧ t.tx[h].rampEnd = some (s.now + 100 * usU) ∧ t.flt.isoStep[h] = 5 ∧ t.flt.isoDue[h] = s.now + 100 * usU)
    ∧ (0xE00 ≤ s.get Fld.FLT_SWF_NUM → exec (.fltRaiseSoftware r x) s =
      .next (s.ok.raiseSev (s.get Fld.FLT_SWF_NUM) (s.get Fld.FLT_SWF_SEV) (s.get Fld.FLT_SWF_ELEM) (s.get Fld.FLT_SWINFO_INFO) false))
    ∧ (s.get Fld.FLT_SWF_NUM < 0xE00 → Gives (.fltRaiseSoftware r x) s fun t => t.get Fld.SYS_BADACC_CNT_COUNT = min (s.get Fld.SYS_BADACC_CNT_COUNT + 1) (2 ^ 32 - 1)
      ∧ t.mem = s.mem)
    ∧ (∀ h : Fin 8, x.toNat = h.val → s.isolated h = false → s.hstate h ≠ 0 → s.tx[h].rampEnd = none → s.flt.isoStep[h] = 0 → Gives (.fltEndSafety r x) s fun t => t.get (Fld.TXC_STAT_SAFE.h h) = 0
      ∧ t = { s with resp := { err := false, data := 0 }, regs := t.regs, flt := { s.flt with pinSafe := s.flt.pinSafe.set h false } }
      ∧ SameRegs [(Fld.TXC_STAT_SAFE.h h).reg, (Fld.FEP_LEVEL_LEVEL.h h).reg] s t)
    ∧ (∀ h : Fin 8, x.toNat = h.val → s.isolated h = false → s.tx[h].rampEnd ≠ none ∨ s.flt.isoStep[h] ≠ 0 → exec (.fltEndSafety r x) s = .next { s with resp := { err := false, data := 0 } }))
  ∧ (∀ (s : State) (i : Indic), s.flt.waiting = [i] →
    (s.linkUp = true → exec .eventIndicationFlush s = .next ({ s with flt := { s.flt with waiting := [] } }.sendInd i))
    ∧ (s.linkUp = false → exec .eventIndicationFlush s = .next s))

/-- Isolation (R483 to R485): it begins with FREEZE, a stopped engine, a cleared HMASK bit and the safety ramp; after the ramp the bias channels are at their clear codes; it
ends with ISO set and notice 0x438.
Completes (the conclusion is the next state of exec, under conditions on the state and the operands alone): isolationStart, isolationAfterRamp,
isolationComplete. -/
def Obligations.Isolation : Prop :=
  (∀ (s : State) (h : Fin 8), s.flt.isoStep[h] = 1 →
    Gives (.isolationStart h) s fun t => t.get (Fld.ARB_CTRL_FREEZE.h h) = 1 ∧ t.flt.isoStep[h] = 2 ∧ bitOf (t.get Fld.LNK_ULC_CFG_HMASK) h = false
      ∧ (t.eng[hEng h].state = 0 ∨ t.eng[hEng h].state = 3) ∧ t.get (Fld.DMA_CTRL_STOPALL.h h) = 1 ∧ t.now = s.now)
  ∧ (∀ (s : State) (h : Fin 8), (s.flt.isoStep[h] = 2 ∨ s.flt.isoStep[h] = 5) → s.tx[h].rampEnd = none →
    Gives (.isolationAfterRamp h) s fun t => t.flt.isoStep[h] = (if s.flt.isoStep[h] = 2 then 3 else 0)
      ∧ (∀ c : Fin 32, c.val / 4 = h.val → t.get (Fld.BDA_CHc_STAT_OUT.i c) = s.get (Fld.BDA_CHc_CLR_CODE.i c) ∧ t.bias[c].sine = none) ∧ t.now = s.now)
  ∧ (∀ (s : State) (h : Fin 8), s.flt.isoStep[h] = 3 →
    let u := (setIso h 0 (endDeepFlow h (if s.hstate h < 2 then removeActs h s else s))).setBit Fld.FLT_STAT_ISO h
    exec (.isolationComplete h) s = .next (u.raise 0x438 h s.flt.isoCause[h]) ∧ u.flt.isoStep[h] = 0 ∧ bitOf (u.get Fld.FLT_STAT_ISO) h = true)

/-- Agate's commands (R462): GO by the Reeve in machine mode takes OP, ARG, SRC, DST and LEN and sets BUSY; while one runs, and from any other requester, the write changes
nothing of Agate.
The end of an Agate command (R462 to R465, R468): BUSY clears and DONE is set with the action's result; RELEASE ends the protection of a halted hamlet's image; ADVANCE
raises the Hearth counter; REVOKE needs another key that is left; a session ends 60 s after its last accepted record.
Completes (the conclusion is the next state of exec, under conditions on the state and the operands alone): agtVerify, agtRelease, agtAdvance, agtBurn,
agtRevoke, agtProgkey, agtLcsadv, agtAttest, agtIdkey, agtCert, agtSopen, agtSrecv, agtSsend, agtSclose, agateCommandEnd, sessionTimeout. -/
def Obligations.AgateServices : Prop :=
  (∀ (s : State) (r : Req) (x : BitVec 8) (c : Instr) (op : Nat), Takes s r Reg.AGT_CMD →
    (c, op) ∈ [(Instr.agtVerify r x, 1), (.agtRelease r x, 2), (.agtAdvance r x, 3), (.agtBurn r x, 4), (.agtRevoke r x, 5), (.agtProgkey r x, 6), (.agtLcsadv r x, 7),
      (.agtAttest r x, 8), (.agtIdkey r x, 9), (.agtCert r x, 10), (.agtSopen r x, 11), (.agtSrecv r x, 12), (.agtSsend r x, 13), (.agtSclose r x, 14)] →
    (r.id = 16 → r.priv = 2 → s.get Fld.AGT_STAT_BUSY = 0 → Gives c s fun t => t.get Fld.AGT_STAT_BUSY = 1 ∧ t.get Fld.AGT_STAT_OP = op ∧ t.get Fld.AGT_CMD_GO = 1
      ∧ t.get Fld.AGT_CMD_OP = op ∧ t.get Fld.AGT_CMD_ARG = x.toNat
      ∧ t.agt = { s.agt with cmd := some ⟨op, x.toNat, s.get Fld.AGT_SRC_ADDR, s.get Fld.AGT_DST_ADDR, s.get Fld.AGT_LEN_LEN⟩ }
      ∧ t = { s with resp := { err := false, data := 0 }, regs := t.regs, agt := t.agt } ∧ SameRegs [Reg.AGT_CMD, Reg.AGT_STAT] s t)
    ∧ (r.id ≠ 16 ∨ r.priv ≠ 2 ∨ s.get Fld.AGT_STAT_BUSY = 1 → Gives c s fun t => t.agt = s.agt ∧ t.rd Reg.AGT_CMD = s.rd Reg.AGT_CMD
      ∧ t.rd Reg.AGT_STAT = s.rd Reg.AGT_STAT ∧ t.mem = s.mem ∧ t.get Fld.SYS_BADACC_CNT_COUNT = min (s.get Fld.SYS_BADACC_CNT_COUNT + 1) (2 ^ 32 - 1)))
  ∧ ((∀ (s : State) (c : AgtCmd) (n t0 : Nat), s.agt.cmd = some c → s.agtStalled c = false →
    Gives (.agateCommandEnd n t0) s fun t => t.get Fld.AGT_STAT_BUSY = 0 ∧ t.get Fld.AGT_STAT_DONE = 1 ∧ t.get Fld.AGT_CMD_GO = 0 ∧ t.agt.cmd = none
      ∧ t.get Fld.AGT_STAT_RESULT = (agtAct c n (s.at t0)).2 ∧ t.now = max s.now t0)
  ∧ (∀ (s : State) (c : AgtCmd) (n t0 : Nat) (h : Fin 8), s.agt.cmd = some c → c.op = 2 → c.arg = h.val → s.engHalted h = true →
    Gives (.agateCommandEnd n t0) s fun t => t.get Fld.AGT_STAT_RESULT = 0 ∧ t.agt.prot[h.val] = none ∧ t.rd (Reg.AGT_HIMGh + 4 * h) = 0#32
      ∧ t = { s with now := max s.now t0, regs := t.regs, agt := t.agt } ∧ SameRegs [Reg.AGT_HIMGh + 4 * h, Reg.AGT_CMD, Reg.AGT_STAT] s t)
  ∧ (∀ (s : State) (c : AgtCmd) (n t0 : Nat), s.agt.cmd = some c → c.op = 3 →
    (s.get Fld.AGT_ARB_HEARTH < c.arg → c.arg ≤ 64 → Gives (.agateCommandEnd n t0) s fun t => t.get Fld.AGT_STAT_RESULT = 0 ∧ t.get Fld.AGT_ARB_HEARTH = c.arg
      ∧ t = { s with now := max s.now t0, regs := t.regs, agt := { s.agt with cmd := none } })
    ∧ (c.arg ≤ s.get Fld.AGT_ARB_HEARTH ∨ 64 < c.arg → Gives (.agateCommandEnd n t0) s fun t => t.get Fld.AGT_STAT_RESULT = 8
      ∧ t.get Fld.AGT_ARB_HEARTH = s.get Fld.AGT_ARB_HEARTH ∧ t = { s with now := max s.now t0, regs := t.regs, agt := { s.agt with cmd := none } }))
  ∧ (∀ (s : State) (c : AgtCmd) (n t0 : Nat), s.agt.cmd = some c → c.op = 5 → c.arg < 4 → (∀ k < 4, k ≠ c.arg → s.slotProg k = true → s.slotRevoked k = true) →
    Gives (.agateCommandEnd n t0) s fun t => t.get Fld.AGT_STAT_RESULT = 8 ∧ t.agt.revoked = s.agt.revoked)
  ∧ (∀ (s : State) (x : Sess), s.agt.sess = some x →
    Gives .sessionTimeout s fun t => t.agt.sess = none ∧ t.rd Reg.AGT_SESS = 0#32
      ∧ t = { s with now := max s.now (x.at0 + 60 * secU), regs := t.regs, agt := { s.agt with sess := none } } ∧ SameRegs [Reg.AGT_SESS] s t))

/-- The exposed pipeline (R241, R252 to R254): g0 reads 0; a register is written in the bank of its level alone; a write with delay D + 1 comes one instruction nearer as the
next retires; of the writes that land together the last governs; the PC goes on to the next word, or to the branch's target after a delay slot. -/
def Obligations.EnginePipeline : Prop :=
  (∀ (x : Eng) (v : Word), x.getG 0 = 0 ∧ x.setG 0 v = x)
  ∧ (∀ (x : Eng) (n m : Fin 32) (v : Word), n ≠ 0 → (x.setG n v).getG n = v ∧ (m ≠ n → (x.setG n v).getG m = x.getG m))
  ∧ (∀ (x : Eng) (n : Fin 32) (v : Word) (l : Fin 3), l ≠ x.lvl → (x.setG n v).bank[l] = x.bank[l])
  ∧ (∀ (x : Eng) (n : Fin 32), n.val < 16 → ∀ l : Fin 3, ({ x with lvl := l } : Eng).getG n = x.getG n)
  ∧ (∀ (x : Eng) (new : List (Nat × EngWrite)), (∀ w ∈ x.writes ++ new, w.1 ≠ 0) →
    x.tick new = { x with writes := (x.writes ++ new).map fun w => (w.1 - 1, w.2) })
  ∧ (∀ (x : Eng) (n : Fin 32) (v : Word), n ≠ 0 → (x.tick [(0, .g n v)]).getG n = v)
  ∧ (∀ (x : Eng) (n : Fin 32) (v : Word), n ≠ 0 → x.writes = [(0, .g n v)] → (x.tick []).getG n = v ∧ (x.tick []).writes = [])
  ∧ (∀ (e : Fin 9) (u : State) (ws : List (Nat × EngWrite)) (act : Eng → Eng), OnlyEngine e u (retire e ws act u))
  ∧ (∀ (e : Fin 9) (u : State) (n : Fin 32) (v : Word), n ≠ 0 → (retire e [(0, .g n v)] id u).eng[e].getG n = v
    ∧ (u.eng[e].slot = none → (retire e [(0, .g n v)] id u).eng[e].pc = (u.eng[e].pc + 4) % 2 ^ 32)
    ∧ (∀ b, u.eng[e].slot = some b → (retire e [(0, .g n v)] id u).eng[e].pc = b.target ∧ (retire e [(0, .g n v)] id u).eng[e].slot = none)
    ∧ (u.eng[e].writes = [] → ∀ m, m ≠ n → (retire e [(0, .g n v)] id u).eng[e].getG m = u.eng[e].getG m))

/-- The integer instructions (R244, R247, R256): the result of each, and FLG as its row of the list says.
Completes (the conclusion is the next state of exec, under conditions on the state and the operands alone): add, sub, addc, subc, addi, and, or, xor, andi,
ori, xori, sll, srl, sra, slli, srli, srai, mul, mulh, mulhu, abs, clz, slt, sltu, slti, min, max, lui. -/
def Obligations.IntegerInstructions : Prop :=
  ∀ (e : Fin 9) (s u : State), Executes e s u → ∀ (rd ra rb : Fin 32) (imm : BitVec 16),
    let x := u.eng[e]
    let a := x.getG ra
    let b := x.getG rb
    let sx := imm.signExtend 32
    let zx := imm.setWidth 32
    let c := if x.flg.getLsbD 2 then 1 else 0
    let gives (i : Instr) (v : Word) (f : BitVec 16 → Prop) : Prop := ∃ g, f g ∧ exec i s = .next (retire e [(0, .g rd v)] (fun x => x.setFlg g) u)
    let zn (i : Instr) (v : Word) : Prop := gives i v fun g => FlagsZN x.flg g v
    let znAll (i : Instr) (p : Word → Prop) : Prop := ∃ v, p v ∧ zn i v
    let keep (i : Instr) (v : Word) : Prop := exec i s = .next (retire e [(0, .g rd v)] id u)
    let bit (p : Prop) (w : Word) : Prop := (p → w = 1#32) ∧ (¬p → w = 0#32)
    gives (.add e rd ra rb) (a + b) (fun g => FlagsZNCV x.flg g (a + b) (2 ^ 32 ≤ a.toNat + b.toNat) ((a + b).toInt ≠ a.toInt + b.toInt))
    ∧ gives (.sub e rd ra rb) (a - b) (fun g => FlagsZNCV x.flg g (a - b) (b.toNat ≤ a.toNat) ((a - b).toInt ≠ a.toInt - b.toInt))
    ∧ gives (.addc e rd ra rb) (a + b + BitVec.ofNat 32 c)
      (fun g => FlagsZNCV x.flg g (a + b + BitVec.ofNat 32 c) (2 ^ 32 ≤ a.toNat + b.toNat + c) ((a + b + BitVec.ofNat 32 c).toInt ≠ a.toInt + b.toInt + c))
    ∧ gives (.subc e rd ra rb) (a - b - BitVec.ofNat 32 c)
      (fun g => FlagsZNCV x.flg g (a - b - BitVec.ofNat 32 c) (b.toNat + c ≤ a.toNat) ((a - b - BitVec.ofNat 32 c).toInt ≠ a.toInt - b.toInt - c))
    ∧ gives (.addi e rd ra imm) (a + sx) (fun g => FlagsZNCV x.flg g (a + sx) (2 ^ 32 ≤ a.toNat + sx.toNat) ((a + sx).toInt ≠ a.toInt + imm.toInt))
    ∧ zn (.and e rd ra rb) (a &&& b) ∧ zn (.or e rd ra rb) (a ||| b) ∧ zn (.xor e rd ra rb) (a ^^^ b)
    ∧ zn (.andi e rd ra imm) (a &&& zx) ∧ zn (.ori e rd ra imm) (a ||| zx) ∧ zn (.xori e rd ra imm) (a ^^^ zx)
    ∧ zn (.sll e rd ra rb) (a <<< (b.toNat % 32)) ∧ zn (.srl e rd ra rb) (a >>> (b.toNat % 32)) ∧ zn (.sra e rd ra rb) (a.sshiftRight (b.toNat % 32))
    ∧ zn (.slli e rd ra rb) (a <<< rb.val) ∧ zn (.srli e rd ra rb) (a >>> rb.val) ∧ zn (.srai e rd ra rb) (a.sshiftRight rb.val)
    ∧ zn (.mul e rd ra rb) (a * b) ∧ zn (.mulh e rd ra rb) (BitVec.ofInt 32 (a.toInt * b.toInt / 2 ^ 32))
    ∧ zn (.mulhu e rd ra rb) (BitVec.ofNat 32 (a.toNat * b.toNat / 2 ^ 32))
    ∧ znAll (.abs e rd ra) (fun v => v.toInt = min (2 ^ 31 - 1) |a.toInt|)
    ∧ znAll (.clz e rd ra) (fun v => v.toNat ≤ 32 ∧ (∀ k, 32 - v.toNat ≤ k → a.getLsbD k = false) ∧ (v.toNat < 32 → a.getLsbD (31 - v.toNat) = true))
    ∧ (∃ v, keep (.slt e rd ra rb) v ∧ bit (a.toInt < b.toInt) v) ∧ (∃ v, keep (.sltu e rd ra rb) v ∧ bit (a.toNat < b.toNat) v)
    ∧ (∃ v, keep (.slti e rd ra imm) v ∧ bit (a.toInt < imm.toInt) v)
    ∧ (∃ v, keep (.min e rd ra rb) v ∧ v.toInt = Min.min a.toInt b.toInt) ∧ (∃ v, keep (.max e rd ra rb) v ∧ v.toInt = Max.max a.toInt b.toInt)
    ∧ (ra = 0 → keep (.lui e rd ra imm) (zx <<< 16))

/-- Branches and jumps (R247, R254, R256): outside a delay slot each is followed by its slot, then by its target: PC + 4 + 4 * off, a register, or past the slot where it is
not taken; JALR and JAL write the address + 8 to the link register, and nothing else changes.
Completes (the conclusion is the next state of exec, under conditions on the state and the operands alone): beq, bne, blt, bge, bltu, bgeu, j, jal, jr,
jalr. -/
def Obligations.BranchesAndJumps : Prop :=
  ∀ (e : Fin 9) (s u : State), Executes e s u → u.eng[e].slot = none → ∀ (rd ra rb : Fin 32) (off : BitVec 16) (far : BitVec 26),
    let x := u.eng[e]
    let a := x.getG ra
    let b := x.getG rb
    let rel (n : Int) (t : Nat) : Prop := t < 2 ^ 32 ∧ (t : Int) = ((x.pc : Int) + 4 + 4 * n) % 2 ^ 32
    let goes (i : Instr) (to_ : Nat → Prop) (link : Option (Fin 32)) : Prop := Gives i s fun t => OnlyEngine e u t ∧ t.eng[e].pc = (x.pc + 4) % 2 ^ 32
      ∧ (∃ q, t.eng[e].slot = some q ∧ q.addr = x.pc ∧ to_ q.target ∧ q.undo = none) ∧ t.eng[e].flg = x.flg ∧ t.eng[e].status = x.status
      ∧ (∀ l, link = some l → l ≠ 0 → t.eng[e].getG l = BitVec.ofNat 32 (x.pc + 8))
      ∧ (x.writes = [] → ∀ r, link ≠ some r → t.eng[e].getG r = x.getG r)
    let cond (i : Instr) (p : Prop) : Prop := goes i (fun t => (p → rel off.toInt t) ∧ (¬p → rel 1 t)) none
    cond (.beq e ra rb off) (a = b) ∧ cond (.bne e ra rb off) (a ≠ b) ∧ cond (.blt e ra rb off) (a.toInt < b.toInt) ∧ cond (.bge e ra rb off) (b.toInt ≤ a.toInt)
    ∧ cond (.bltu e ra rb off) (a.toNat < b.toNat) ∧ cond (.bgeu e ra rb off) (b.toNat ≤ a.toNat)
    ∧ goes (.j e far) (rel far.toInt) none ∧ goes (.jal e far) (rel far.toInt) (some 31)
    ∧ goes (.jr e ra) (fun t => t = a.toNat) none ∧ (ra ≠ rd → goes (.jalr e rd ra) (fun t => t = a.toNat) (some rd))

/-- Loads, stores and address registers (R242, R247, R249, R252, R256): the addressing modes; a load's value, extended, lands with delay 2, a 64-bit load's in a pair; a store
writes the low bytes of its register and no other byte; SETA and ADDA land with delay 1, GETA at once.
Completes (the conclusion is the next state of exec, under conditions on the state and the operands alone): ld, ldu, st, seta, geta, adda. -/
def Obligations.LoadsAndStores : Prop :=
  ∀ (e : Fin 9) (s u : State), Executes e s u → (u.eng[e].te = false ∨ u.eng[e].priv = 2) → u.storesWait e = false →
    (∀ (rt : Fin 32) (an : Fin 8) (am sz : Fin 4) (imm : BitVec 14) (va : Nat),
      let x := u.eng[e]
      let n : Nat := 2 ^ sz.val
      let r := engReq e x.status
      let after (y : Eng) : Eng := if am = 2 then y.postMod an false else if am = 3 then y.postMod an true else y
      (am = 0 → (va : Int) = ((x.getA an).toNat + imm.toInt * (n : Int)) % 2 ^ 32) →
      (am = 1 → imm.toNat % 512 = 0 ∧ va = ((x.getA an).toNat + (x.getG (Fin.ofNat 32 (imm.toNat / 512))).toNat * n) % 2 ^ 32) →
      (2 ≤ am.val → va = (x.getA an).toNat) → va % n = 0 → (sz = 3 → rt.val % 2 = 0) →
      (∀ v, Plain u r va sz.val false → Holds u.mem va n v →
        (sz = 0 → Gives (.ld e rt an am sz imm) s (BanksOnly (retire e [(2, .g rt ((BitVec.ofNat 8 v).signExtend 32))] after u))
          ∧ Gives (.ldu e rt an am sz imm) s (BanksOnly (retire e [(2, .g rt ((BitVec.ofNat 8 v).setWidth 32))] after u)))
        ∧ (sz = 1 → Gives (.ld e rt an am sz imm) s (BanksOnly (retire e [(2, .g rt ((BitVec.ofNat 16 v).signExtend 32))] after u))
          ∧ Gives (.ldu e rt an am sz imm) s (BanksOnly (retire e [(2, .g rt ((BitVec.ofNat 16 v).setWidth 32))] after u)))
        ∧ (sz = 2 → Gives (.ld e rt an am sz imm) s (BanksOnly (retire e [(2, .g rt (BitVec.ofNat 32 v))] after u))
          ∧ Gives (.ldu e rt an am sz imm) s (BanksOnly (retire e [(2, .g rt (BitVec.ofNat 32 v))] after u)))
        ∧ (sz = 3 →
          let ws : List (Nat × EngWrite) := [(2, .g rt (BitVec.ofNat 32 v)), (2, .g (Fin.ofNat 32 (rt.val + 1)) (BitVec.ofNat 32 (v / 2 ^ 32)))]
          Gives (.ld e rt an am sz imm) s (BanksOnly (retire e ws after u)) ∧ Gives (.ldu e rt an am sz imm) s (BanksOnly (retire e ws after u))))
      ∧ (Plain u r va sz.val true → u.protectedAt va n = false → u.writeWaits va n = false →
        Gives (.st e rt an am sz imm) s fun t => t.eng = (retire e [] after u).eng
          ∧ (∀ k < n, memRead t.mem (va + k) = BitVec.ofNat 8 (if k < 4 then (x.getG rt).toNat / 256 ^ k else (x.getG (Fin.ofNat 32 (rt.val + 1))).toNat / 256 ^ (k - 4)))
          ∧ (∀ a, a < va ∨ va + n ≤ a → memRead t.mem a = memRead u.mem a) ∧ BanksOnly { u with eng := t.eng, mem := t.mem } t))
    ∧ (∀ (an : Fin 8) (sel : Fin 4) (k : Fin 3) (r : Fin 32) (imm : BitVec 16), sel.val = k.val →
      exec (.seta e an sel r imm) s = .next (retire e [(1, .x k an (u.eng[e].getG r + imm.signExtend 32))] id u)
      ∧ exec (.geta e an sel r 0) s = .next (retire e [(0, .g r (u.eng[e].getX k an))] id u)
      ∧ exec (.adda e an sel 0 imm) s = .next (retire e [(1, .x k an (u.eng[e].getX k an + imm.signExtend 32))] id u))

/-- Complex arithmetic (R243, R252, R257): products are added to the accumulator halves, which saturate at 40 bits and set AOV; EXT and EXTR shift, round to even and saturate,
setting SAT; MFACC and MTACC move the parts.
Streaming (R258, R259): over plain memory with a stride of one word, an uninterrupted SMAC or SMACC adds the products of all its elements in turn; SMAX and SMIN give the
first greatest or least element and its index; a count of 0 performs no element; RSM is cleared.
Completes (the conclusion is the next state of exec, under conditions on the state and the operands alone): cmac, cmacc, dmac, cmul, clracc, ext, extr,
mfacc, mtacc, smac, smacc, smax, smin. -/
def Obligations.ComplexArithmetic : Prop :=
  ((∀ (e : Fin 9) (s u : State), Executes e s u → ∀ (acc : Fin 4) (ra rb rd sh part : Fin 32),
    let x := u.eng[e]
    let half (w : Word) (k : Nat) : Int := (w.extractLsb' k 16).toInt
    let aI := half (x.getG ra) 0
    let aQ := half (x.getG ra) 16
    let bI := half (x.getG rb) 0
    let bQ := half (x.getG rb) 16
    let A := x.getAcc acc
    let sat (w : Nat) (n : Int) : Int := max (-(2 ^ (w - 1))) (min (2 ^ (w - 1) - 1) n)
    let adds (i : Instr) (re im : Int) : Prop := ∃ g, FlagStick x.flg g 5 (sat 40 (A.re + re) ≠ A.re + re ∨ sat 40 (A.im + im) ≠ A.im + im)
      ∧ exec i s = .next (retire e [(3, .acc acc ⟨sat 40 (A.re + re), sat 40 (A.im + im)⟩)] (fun x => x.setFlg g) u)
    let even (v : Int) (n : Int) : Prop := |2 * (n * 2 ^ sh.val - v)| ≤ 2 ^ sh.val ∧ (|2 * (n * 2 ^ sh.val - v)| = 2 ^ sh.val → n % 2 = 0)
    adds (.cmac e acc ra rb) (aI * bI - aQ * bQ) (aI * bQ + aQ * bI) ∧ adds (.cmacc e acc ra rb) (aI * bI + aQ * bQ) (aQ * bI - aI * bQ)
    ∧ adds (.dmac e acc ra rb) (aI * bI) (aQ * bQ)
    ∧ exec (.cmul e acc ra rb) s = .next (retire e [(3, .acc acc ⟨aI * bI - aQ * bQ, aI * bQ + aQ * bI⟩)] id u)
    ∧ exec (.clracc e acc) s = .next (retire e [(3, .acc acc ⟨0, 0⟩)] id u)
    ∧ (∃ (i q : Int) (g : BitVec 16), even A.re i ∧ even A.im q ∧ FlagStick x.flg g 4 (sat 16 i ≠ i ∨ sat 16 q ≠ q)
      ∧ exec (.ext e acc sh rd) s = .next (retire e [(0, .g rd (BitVec.ofInt 16 (sat 16 q) ++ BitVec.ofInt 16 (sat 16 i)))] (fun x => x.setFlg g) u))
    ∧ (∃ (i : Int) (g : BitVec 16), even A.re i ∧ FlagStick x.flg g 4 (sat 32 i ≠ i)
      ∧ exec (.extr e acc sh rd) s = .next (retire e [(0, .g rd (BitVec.ofInt 32 (sat 32 i)))] (fun x => x.setFlg g) u))
    ∧ (part = 0 → exec (.mfacc e acc part rd) s = .next (retire e [(2, .g rd (BitVec.ofInt 32 A.re))] id u))
    ∧ (part = 1 → exec (.mfacc e acc part rd) s = .next (retire e [(2, .g rd (BitVec.ofInt 32 A.im))] id u))
    ∧ (part = 2 → exec (.mfacc e acc part rd) s =
      .next (retire e [(2, .g rd ((BitVec.ofInt 8 (A.im / 2 ^ 32) ++ BitVec.ofInt 8 (A.re / 2 ^ 32)).setWidth 32))] id u))
    ∧ (part.val ≤ 2 → exec (.mtacc e acc part ra) s = .next (retire e [(3, .part acc part.val (x.getG ra))] id u)))
  ∧ (∀ (A : Acc) (p : Nat) (v : Word), p ≤ 2 → -(2 ^ 39) ≤ A.re → A.re < 2 ^ 39 → -(2 ^ 39) ≤ A.im → A.im < 2 ^ 39 →
    (A.setPart p v).part p = (if p = 2 then v &&& 0xFFFF#32 else v) ∧ (∀ q ≤ 2, q ≠ p → (A.setPart p v).part q = A.part q)))
  ∧ (∀ (e : Fin 9) (s u : State), Executes e s u → (u.eng[e].te = false ∨ u.eng[e].priv = 2) → u.storesWait e = false → u.mayCut e = false → u.eng[e].rsmNow.msb = false →
    (∀ (acc : Fin 4) (ax ay : Fin 8) (rc rd : Fin 32) (mode : Fin 16) (cut : Nat), u.eng[e].getG rc = 0 → rd.val % 2 = 0 → mode.val ≤ 1 →
      let clr (x : Eng) : Eng := x.setRsm 0#32
      let ws : List (Nat × EngWrite) := [(2, .g rd 0), (2, .g (Fin.ofNat 32 (rd.val + 1)) 0xFFFFFFFF#32)]
      exec (.smac e acc ax ay rc cut) s = .next (retire e [] clr u) ∧ exec (.smacc e acc ax ay rc cut) s = .next (retire e [] clr u)
      ∧ exec (.smax e rd ax 0 rc mode cut) s = .next (retire e ws clr u) ∧ exec (.smin e rd ax 0 rc mode cut) s = .next (retire e ws clr u))
    ∧ (∀ (acc : Fin 4) (ax ay : Fin 8) (rc : Fin 32) (cut N : Nat) (X Y : Nat → Word), N = (u.eng[e].getG rc).toNat → 0 < N → N < 2 ^ 24 → ax ≠ ay →
      (∀ n : Fin 8, n = ax ∨ n = ay → u.eng[e].getM n = 4 ∧ u.eng[e].getL n = 0 ∧ (u.eng[e].getA n).toNat % 4 = 0 ∧ (u.eng[e].getA n).toNat + 4 * N < 2 ^ 32) →
      (∀ j < N, ∀ n : Fin 8, n = ax ∨ n = ay → Plain u (engReq e u.eng[e].status) ((u.eng[e].getA n).toNat + 4 * j) 2 false
        ∧ Holds u.mem ((u.eng[e].getA n).toNat + 4 * j) 4 (if n = ax then X j else Y j).toNat) →
      let sat (n : Int) : Int := max (-(2 ^ 39)) (min (2 ^ 39 - 1) n)
      let half (w : Word) (k : Nat) : Int := (w.extractLsb' k 16).toInt
      let sum (sg : Int) : Acc := (List.range N).foldl (fun (A : Acc) j =>
        ⟨sat (A.re + (half (X j) 0 * half (Y j) 0 - sg * (half (X j) 16 * half (Y j) 16))), sat (A.im + (sg * (half (X j) 0 * half (Y j) 16) + half (X j) 16 * half (Y j) 0))⟩)
        (u.eng[e].getAcc acc)
      let go (n : Fin 8) (x : Eng) : Eng := (((x.setA n (x.getA n + BitVec.ofNat 32 (4 * N))).setLin n 0).setLw n false).governA n
      let moved (x : Eng) : Eng := (go ay (go ax x)).setRsm 0#32
      (∃ g, (∀ k, k ≠ 5 → g.getLsbD k = u.eng[e].flg.getLsbD k) ∧
        Gives (.smac e acc ax ay rc cut) s (BanksOnly (retire e [(3, .acc acc (sum 1))] (fun x => (moved x).setFlg g) u)))
      ∧ (∃ g, (∀ k, k ≠ 5 → g.getLsbD k = u.eng[e].flg.getLsbD k) ∧
        Gives (.smacc e acc ax ay rc cut) s (BanksOnly (retire e [(3, .acc acc (sum (-1)))] (fun x => (moved x).setFlg g) u))))
    ∧ (∀ (rd rc : Fin 32) (ax : Fin 8) (cut N : Nat) (X : Nat → Word), N = (u.eng[e].getG rc).toNat → 0 < N → N < 2 ^ 24 → rd.val % 2 = 0 →
      u.eng[e].getM ax = 4 → u.eng[e].getL ax = 0 → (u.eng[e].getA ax).toNat % 4 = 0 → (u.eng[e].getA ax).toNat + 4 * N < 2 ^ 32 →
      (∀ j < N, Plain u (engReq e u.eng[e].status) ((u.eng[e].getA ax).toNat + 4 * j) 2 false ∧ Holds u.mem ((u.eng[e].getA ax).toNat + 4 * j) 4 (X j).toNat) →
      let half (w : Word) (k : Nat) : Int := (w.extractLsb' k 16).toInt
      let val (mode : Fin 16) (j : Nat) : Int := if mode = 0 then half (X j) 0 ^ 2 + half (X j) 16 ^ 2 else (X j).toInt
      let moved (x : Eng) : Eng := ((((x.setA ax (x.getA ax + BitVec.ofNat 32 (4 * N))).setLin ax 0).setLw ax false).governA ax).setRsm 0#32
      let ws (mode : Fin 16) (k : Nat) : List (Nat × EngWrite) := [(2, .g rd (BitVec.ofInt 32 (val mode k))), (2, .g (Fin.ofNat 32 (rd.val + 1)) (BitVec.ofNat 32 k))]
      ∀ mode : Fin 16, mode.val ≤ 1 →
        (∃ k < N, (∀ j < N, val mode j ≤ val mode k) ∧ (∀ j < k, val mode j < val mode k) ∧ Gives (.smax e rd ax 0 rc mode cut) s (BanksOnly (retire e (ws mode k) moved u)))
        ∧ (∃ k < N, (∀ j < N, val mode k ≤ val mode j) ∧ (∀ j < k, val mode k < val mode j)
          ∧ Gives (.smin e rd ax 0 rc mode cut) s (BanksOnly (retire e (ws mode k) moved u)))))

/-- Exceptions (R245, R248, R263, R265): at base level TRAP, BRK, an illegal instruction and a privileged one at task level enter the handler at VBASE with their codes; MTRAP
enters machine mode; inside a handler the same is a double fault, which halts the engine with STATE 3;
a fetched word that the instruction list does not have takes code 1 whatever else is asked (R248; six commands stand for all, log 137).
Completes (the conclusion is the next state of exec, under conditions on the state and the operands alone): trap, brk, mtrap, lui, jalr, seta, geta, adda,
ld, ldu, st, mfacc, mtacc, smax, smin, rdt, fenceDma, sched, ret, wait, tlbi, tlbia, tlbiall, or, cmac, j, fenceW. -/
def Obligations.EngineExceptions : Prop :=
  (∀ (e : Fin 9) (s u : State), Executes e s u → AtBase e u → u.eng[e].vbase.toNat % 4096 = 0 → u.eng[e].priv ≠ 2 →
    let x := u.eng[e]
    let takes (i : Instr) (code info pc : Nat) : Prop := Gives i s fun t => Taken e code info pc u t
    (∀ imm, takes (.trap e 0 0 imm) 10 imm.toNat ((x.pc + 4) % 2 ^ 32)) ∧ takes (.brk e) 11 0 x.pc ∧ (e.val < 8 → takes (.mtrap e) 2 0 x.pc)
    ∧ (∀ rd ra imm, rd ≠ 0 ∨ ra ≠ 0 → takes (.trap e rd ra imm) 1 0 x.pc) ∧ (∀ rd ra imm, ra ≠ 0 → takes (.lui e rd ra imm) 1 0 x.pc)
    ∧ (∀ r, takes (.jalr e r r) 1 0 x.pc) ∧ (∀ an ra imm, takes (.seta e an 3 ra imm) 1 0 x.pc)
    ∧ (∀ an sel rd imm, imm ≠ 0 → takes (.geta e an sel rd imm) 1 0 x.pc) ∧ (∀ an sel ra imm, ra ≠ 0 → takes (.adda e an sel ra imm) 1 0 x.pc)
    ∧ (∀ rt an am imm, rt.val % 2 = 1 → takes (.ld e rt an am 3 imm) 1 0 x.pc ∧ takes (.ldu e rt an am 3 imm) 1 0 x.pc ∧ takes (.st e rt an am 3 imm) 1 0 x.pc)
    ∧ (∀ rt an sz imm, imm.toNat % 512 ≠ 0 → takes (.ld e rt an 1 sz imm) 1 0 x.pc ∧ takes (.ldu e rt an 1 sz imm) 1 0 x.pc ∧ takes (.st e rt an 1 sz imm) 1 0 x.pc)
    ∧ (∀ acc part r, 2 < part.val → takes (.mfacc e acc part r) 1 0 x.pc ∧ takes (.mtacc e acc part r) 1 0 x.pc)
    ∧ (∀ rd ax ay rc mode cut, rd.val % 2 = 1 ∨ ay ≠ 0 ∨ 1 < mode.val → takes (.smax e rd ax ay rc mode cut) 1 0 x.pc ∧ takes (.smin e rd ax ay rc mode cut) 1 0 x.pc)
    ∧ (∀ rd, rd.val % 2 = 1 → takes (.rdt e rd) 1 0 x.pc) ∧ (8 ≤ e.val → takes (.fenceDma e) 1 0 x.pc)
    ∧ (x.priv = 0 → ∀ rd ra rb, takes (.sched e rd ra rb) 2 0 x.pc ∧ takes (.ret e) 2 0 x.pc ∧ takes (.wait e rd) 2 0 x.pc ∧ takes (.tlbi e ra rb) 2 0 x.pc
      ∧ takes (.tlbia e ra) 2 0 x.pc ∧ takes (.tlbiall e) 2 0 x.pc))
  ∧ (∀ (s u : State), Executes 8 s u → AtBase 8 u → u.eng[8].vbase.toNat % 4096 = 0 → u.eng[8].vbase.toNat + 0x300 < 2 ^ 32 →
    Gives (.mtrap 8) s fun t => t.eng[8].pc = u.eng[8].vbase.toNat + 0x300 ∧ t.eng[8].epcm = BitVec.ofNat 32 (u.eng[8].pc + 4) ∧ t.eng[8].sstatm = u.eng[8].status.word
      ∧ t.eng[8].priv = 2 ∧ t.eng[8].exc = true ∧ t.eng[8].epc = u.eng[8].epc ∧ t.eng[8].cause.toNat / 65536 = 12 ∧ t.mem = u.mem ∧ (∀ k : Fin 9, k ≠ 8 → t.eng[k] = u.eng[k]))
  ∧ (∀ (h : Fin 8) (s u : State), Executes (hEng h) s u → u.eng[hEng h].slot = none → (u.eng[hEng h].exc = true ∨ u.eng[hEng h].lvl ≠ 0) →
    let t := doubleFault (hEng h) u.eng[hEng h].pc u
    exec (.brk (hEng h)) s = .next (settle (hEng h) t) ∧ t.eng[hEng h].state = 3 ∧ t.eng[hEng h].halted = u.eng[hEng h].pc ∧ t.mem = u.mem
      ∧ (∀ k : Fin 9, k ≠ hEng h → t.eng[k] = u.eng[k]))
  ∧ (∀ (e : Fin 9) (s u : State) (w : Nat), s.eng[e].runs = true → engFetch e s = (.ok w, u) → wimakoWord e w = false →
    (∀ h : Fin 8, hEng h = e → u.get (Fld.ENG_CTRL_HALT.h h) = 0) → AtBase e u → u.eng[e].vbase.toNat % 4096 = 0 → u.eng[e].priv ≠ 2 →
    let takes (i : Instr) : Prop := Gives i s fun t => Taken e 1 0 u.eng[e].pc u t
    (∀ rd ra rb, takes (.or e rd ra rb)) ∧ (∀ rt an am sz imm, takes (.st e rt an am sz imm)) ∧ (∀ acc ra rb, takes (.cmac e acc ra rb)) ∧ (∀ off, takes (.j e off)) ∧ takes (.fenceW e) ∧ takes (.ret e))

/-- Time, fences and WAIT (R256, R260 to R262, R264): RDT reads the tick and the seconds modulo 8; WAITT answers 2 for a tick out of range, 1 for an instant that has passed,
and else waits; SCHED hands its action over; a fence without a store error retires, with one it takes code 9; WAIT starts the entry requested, is refused with 1, or idles.
Control registers, the TLB, RET, interrupt entry, start and stop of an engine (R267, R268, R270, R273, R275): MFC reads and MTC writes what the level may reach; a TLB
invalidation removes the entries it names; RET goes to the saved PC with the saved status after its slot; an interrupt saves PC and STATUS and enters its level.
Completes (the conclusion is the next state of exec, under conditions on the state and the operands alone): rdt, waitt, sched, fenceR, fenceW, fenceRw,
fenceIo, fenceDma, wait, waittEnd, storeBusError, mfc, mtc, tlbiall, tlbia, tlbi, ret, interruptEntry, engRun, engHalt. -/
def Obligations.EngineControl : Prop :=
  ((∀ (e : Fin 9) (s u : State), Executes e s u → ∀ (rd ra rb : Fin 32),
    let x := u.eng[e]
    let T := namedInstant u.now ((x.getG rb).toNat / 2 ^ 29) (x.getG ra).toNat 0
    (rd.val % 2 = 0 → exec (.rdt e rd) s = .next (retire e [(2, .g rd (BitVec.ofNat 32 (u.now % secU / tickU))),
      (2, .g (Fin.ofNat 32 (rd.val + 1)) (BitVec.ofNat 32 (u.now / secU % 8 * 2 ^ 29)))] id u))
    ∧ (491520000 ≤ (x.getG ra).toNat → exec (.waitt e rd ra rb) s = .next (retire e [(0, .g rd 2#32)] id u))
    ∧ ((x.getG ra).toNat < 491520000 → T ≤ u.now → exec (.waitt e rd ra rb) s = .next (retire e [(0, .g rd 1#32)] id u))
    ∧ ((x.getG ra).toNat < 491520000 → (u.now : Int) < T → x.pc % 4 = 0 → exec (.waitt e rd ra rb) s = .next (u.setEng e { x with wait := some (.time T.toNat rd) }))
    ∧ (x.priv ≠ 0 → 8 ≤ e.val → exec (.sched e rd ra rb) s = .next (retire e [] id u))
    ∧ (x.priv ≠ 0 → ∀ h : Fin 8, hEng h = e → u.evu[h].q.length < 64 → u.evu[h].cross = none → Gives (.sched e rd ra rb) s fun t =>
      t.evu[h] = { u.evu[h] with cross := some ((x.getG ra).toNat, (x.getG rb).toNat, (x.getG rd).toNat) } ∧ t.eng = (retire e [] id u).eng
      ∧ t = { u with eng := t.eng, evu := t.evu })
    ∧ exec (.fenceR e) s = .next (retire e [] id u)
    ∧ (u.storesWait e = false → x.bad = [] → exec (.fenceW e) s = .next (retire e [] id u) ∧ exec (.fenceRw e) s = .next (retire e [] id u) ∧ exec (.fenceIo e) s = .next (retire e [] id u)
      ∧ (e.val < 8 → exec (.fenceDma e) s = .next (retire e [] id u)))
    ∧ (∀ b l, u.storesWait e = false → x.bad = b :: l → AtBase e u → x.vbase.toNat % 4096 = 0 → x.priv ≠ 2 → ∀ i ∈ [Instr.fenceW e, .fenceRw e, .fenceIo e], Gives i s fun t =>
      t.eng[e].bad = l ∧ t.eng[e].badva = BitVec.ofNat 32 b ∧ t.eng[e].cause = 0x80090000#32 ∧ t.eng[e].pc = x.vbase.toNat ∧ t.eng[e].epc[0] = BitVec.ofNat 32 x.pc
      ∧ OnlyEngine e u t)
    ∧ (x.priv ≠ 0 → ∀ h : Fin 8, hEng h = e →
      (u.htgt h = 0 → Gives (.wait e rd) s fun t => t.eng[e] = { (retire e [(0, .g rd 2#32)] id u).eng[e] with wait := some .idle } ∧ OnlyEngine e u t)
      ∧ (u.htgt h ≠ 0 → u.hamletVote h (u.htgt h == 2) = none →
        let v := (enterHamlet h (u.htgt h) u).1
        exec (.wait e rd) s = .next (settle e (v.setEng e { x with wait := some (.power rd) })) ∧ v.get (Fld.PWR_HSTATE_BUSY.sub h) = 1
        ∧ v.hpow[h].entry = some ⟨u.htgt h, u.flag (Fld.PLL_STAT_LOCK.h h), false, u.now⟩ ∧ v.mem = u.mem)
      ∧ (∀ id_, u.htgt h ≠ 0 → u.hamletVote h (u.htgt h == 2) = some id_ → id_ ≠ 9 → Gives (.wait e rd) s fun t => t.eng = (retire e [(0, .g rd 1#32)] id u).eng
        ∧ t.hpow = u.hpow ∧ t.get Fld.PWR_REFUSE_CNT_COUNT = min (u.get Fld.PWR_REFUSE_CNT_COUNT + 1) (2 ^ 32 - 1) ∧ t.mem = u.mem))
    ∧ (x.priv ≠ 0 → 8 ≤ e.val → u.get Fld.PWR_MODE_DEV = 0 → Gives (.wait e rd) s fun t =>
      t.eng[e] = { (retire e [(0, .g rd 2#32)] id u).eng[e] with wait := some .idle } ∧ OnlyEngine e u t))
  ∧ (∀ (e : Fin 9) (s : State) (due t0 : Nat) (rd : Fin 32), s.eng[e].wait = some (.time due rd) → s.eng[e].state = 1 → s.eng[e].step1.pc % 4 = 0 →
    (∀ h : Fin 8, hEng h = e → s.get (Fld.ENG_CTRL_HALT.h h) = 0) →
    Gives (.waittEnd e t0) s fun t => t.now = max s.now (max due (min t0 (due + 20 * nsU))) ∧ t.eng[e].wait = none ∧ (rd ≠ 0 → t.eng[e].getG rd = 0)
      ∧ t.eng[e].pc = s.eng[e].step1.pc ∧ t = { s with now := t.now, eng := t.eng } ∧ (∀ k : Fin 9, k ≠ e → t.eng[k] = s.eng[k]))
  ∧ (∀ (e : Fin 9) (s : State) (b : Nat) (l : List Nat), s.eng[e].bad = b :: l → s.eng[e].atBoundary = true → AtBase e s → s.eng[e].vbase.toNat % 4096 = 0 → s.eng[e].priv ≠ 2 →
    (∀ h : Fin 8, hEng h = e → s.get (Fld.ENG_CTRL_HALT.h h) = 0) →
    Gives (.storeBusError e) s fun t => t.eng[e].bad = l ∧ t.eng[e].badva = BitVec.ofNat 32 b ∧ t.eng[e].cause = 0x80090000#32 ∧ t.eng[e].pc = s.eng[e].vbase.toNat
      ∧ t.eng[e].epc[0] = BitVec.ofNat 32 s.eng[e].pc ∧ t.eng[e].wait = none ∧ OnlyEngine e s t)
  ∧ (∀ (e : Fin 9) (s u : State), Executes e s u → u.storesWait e = true → u.eng[e].pc % 4 = 0 →
    exec (.fenceW e) s = .next u ∧ exec (.fenceRw e) s = .next u ∧ exec (.fenceIo e) s = .next u))
  ∧ ((∀ (e : Fin 9) (s u : State), Executes e s u → ∀ (rd ra rb : Fin 32) (csr : BitVec 10),
    let x := u.eng[e]
    let clears (i : Instr) (p : TlbEnt → Prop) : Prop := Gives i s fun t => OnlyEngine e u t ∧ t.eng[e].pc = x.step1.pc ∧ t.eng[e].tlb.length = x.tlb.length
      ∧ ∀ (n : Nat) (o : TlbEnt), x.tlb[n]? = some (some o) → (p o → t.eng[e].tlb[n]? = some none) ∧ (¬p o → t.eng[e].tlb[n]? = some (some o))
    (∀ p, csrPriv e csr.toNat = some p → p ≤ x.priv → exec (.mfc e rd csr) s = .next (retire e [(0, .g rd (csrRead e x csr.toNat))] id u)
      ∧ exec (.mtc e rd csr) s = .next (retire e [] (fun y => csrWrite y csr.toNat (x.getG rd)) u))
    ∧ (AtBase e u → x.vbase.toNat % 4096 = 0 → x.priv ≠ 2 →
      (csrPriv e csr.toNat = none → Gives (.mfc e rd csr) s (Taken e 1 0 x.pc u) ∧ Gives (.mtc e rd csr) s (Taken e 1 0 x.pc u))
      ∧ (∀ p, csrPriv e csr.toNat = some p → x.priv < p → Gives (.mfc e rd csr) s (Taken e 2 0 x.pc u) ∧ Gives (.mtc e rd csr) s (Taken e 2 0 x.pc u)))
    ∧ (x.priv ≠ 0 → clears (.tlbiall e) (fun _ => True) ∧ clears (.tlbia e ra) (fun o => bitOf o.low 5 = false ∧ o.asid = (x.getG ra).toNat)
      ∧ clears (.tlbi e ra rb) (fun o => (if bitOf o.low 7 then o.vpage / 16 = (x.getG ra).toNat / 65536 else o.vpage = (x.getG ra).toNat / 4096)
        ∧ (bitOf o.low 5 = true ∨ o.asid = (x.getG rb).toNat % 256)))
    ∧ (x.slot = none → x.priv = 1 → x.lvl = 0 → x.ppriv ≤ 1 → Gives (.ret e) s fun t => t.eng[e].priv = x.ppriv ∧ t.eng[e].exc = false ∧ t.eng[e].lvl = 0
      ∧ t.eng[e].pc = (x.pc + 4) % 2 ^ 32 ∧ (∃ q, t.eng[e].slot = some q ∧ q.addr = x.pc ∧ q.target = x.epc[0].toNat)
      ∧ t = { u with eng := t.eng, free := t.free } ∧ (∀ k : Fin 9, k ≠ e → t.eng[k] = u.eng[k]))
    ∧ (∀ l : Fin 2, x.slot = none → x.priv = 1 → x.lvl.val = l.val + 1 → x.sstat[l].toNat / 2 ^ 12 % 4 ≤ 1 → x.sstat[l].toNat / 2 ^ 8 % 4 ≤ 2 → Gives (.ret e) s fun t =>
      t.eng[e].priv = x.sstat[l].toNat / 2 ^ 12 % 4 ∧ t.eng[e].lvl.val = x.sstat[l].toNat / 2 ^ 8 % 4 ∧ t.eng[e].te = x.sstat[l].getLsbD 15
      ∧ t.eng[e].exc = x.sstat[l].getLsbD 14 ∧ t.eng[e].ie2 = x.sstat[l].getLsbD 2 ∧ t.eng[e].ie1 = x.sstat[l].getLsbD 1 ∧ t.eng[e].writes = []
      ∧ t.eng[e].pc = (x.pc + 4) % 2 ^ 32 ∧ (∃ q, t.eng[e].slot = some q ∧ q.addr = x.pc ∧ q.target = (x.epc[l.val + 1]'(by omega)).toNat)))
  ∧ (∀ (e : Fin 9) (x : Eng) (n : Nat) (v : Word), (n ∈ [4, 5, 6, 7, 8, 0xB, 0xC, 0xD, 0x10, 0x11, 0x12, 0x13, 0x20, 0x21] → csrRead e (csrWrite x n v) n = v)
    ∧ (n ∈ [2, 3, 0xE] → csrWrite x n v = x) ∧ csrRead e (csrWrite x 0 v) 0 = v &&& 0xFF3F#32 ∧ csrRead e (csrWrite x 9 v) 9 = v &&& 0xFFFFF000#32
    ∧ csrRead e (csrWrite x 0xA v) 0xA = v &&& 15#32)
  ∧ (∀ (e : Fin 9) (s : State) (urgent : Bool), s.irqTaken e (if urgent then 2 else 1) = true → s.eng[e].vbase.toNat % 4096 = 0 →
    (∀ h : Fin 8, hEng h = e → s.get (Fld.ENG_CTRL_HALT.h h) = 0) →
    Gives (.interruptEntry e urgent) s fun t => t.eng[e].lvl = (if urgent then 2 else 1) ∧ t.eng[e].priv = (if e.val < 8 then 1 else 2)
      ∧ t.eng[e].pc = s.eng[e].vbase.toNat + (if urgent then 0x200 else 0x100) ∧ t.eng[e].wait = none ∧ t.eng[e].writes = []
      ∧ (if urgent then t.eng[e].epc[2] = BitVec.ofNat 32 s.eng[e].pc ∧ t.eng[e].sstat[1] = s.eng[e].status.word
        else t.eng[e].epc[1] = BitVec.ofNat 32 s.eng[e].pc ∧ t.eng[e].sstat[0] = s.eng[e].status.word) ∧ OnlyEngine e s t)
  ∧ (∀ (s : State) (r : Req) (h : Fin 8) (v : Word), Takes s r (hamletBase h + Reg.ENG_CTRL) → r.id = 16 →
    let e := hEng h
    let entry := 4 * s.get (Fld.ENG_ENTRY_PC.h h)
    (s.eng[e].state = 0 → s.entryAccepted h entry = true → exec (.engRun r h v) s = .next { s with resp := { err := false, data := 0 }, eng := s.eng.set e { s.eng[e] with state := 1, pc := entry, te := false, priv := 1, lvl := 0, ie1 := false, ie2 := false, writes := [], slot := none, wait := none } })
    ∧ (s.eng[e].state = 0 → s.entryAccepted h entry = false → Gives (.engRun r h v) s fun t => t.eng = s.eng ∧ t.mem = s.mem
      ∧ t.get Fld.SYS_BADACC_CNT_COUNT = min (s.get Fld.SYS_BADACC_CNT_COUNT + 1) (2 ^ 32 - 1))
    ∧ (s.eng[e].state = 1 → s.eng[e].quiet = false → Gives (.engHalt r h v) s fun t => t.get (Fld.ENG_CTRL_HALT.h h) = 1
      ∧ t = { s with resp := { err := false, data := 0 }, regs := t.regs } ∧ SameRegs [hamletBase h + Reg.ENG_CTRL] s t)
    ∧ (s.eng[e].state = 1 → s.eng[e].quiet = true → Gives (.engHalt r h v) s fun t => t.eng[e].state = 0 ∧ t.eng[e].halted = s.eng[e].resumeAt
      ∧ t.get (Fld.ENG_CTRL_HALT.h h) = 0 ∧ (∀ k : Fin 9, k ≠ e → t.eng[k] = s.eng[k]) ∧ t.mem = s.mem)))

/-- The DMA commands (R306, R316, R321, R324): GO starts a stopped channel at its head, and is noted in GOREF for any other; ABORT stops a channel with CODE 2; RESUME
continues a suspended or halted one; STRIG is one edge trigger; STOPALL, by the Reeve alone, stops every channel.
The DMA channels at work, with physical addresses (R307 to R312, R316 to R323): a descriptor is fetched and taken up; a read brings the next bytes, a write stores the next
destination bytes and no other; a complete descriptor ends the chain or gives way to the next; a trigger reaches its channel; a failed write halts; a translation fault suspends.
Completes (the conclusion is the next state of exec, under conditions on the state and the operands alone): dmaGo, dmaAbort, dmaResume, dmaStrig,
dmaStopall, dmaDescriptorFetch, dmaTransfer, dmaDescriptorComplete, dmaEdgeTrigger, dmaRingRequest, dmaWriteError. -/
def Obligations.DmaController : Prop :=
  ((∀ (s : State) (r : Req) (h c : Fin 8) (v : Word), Takes s r (dmaCtrlAddr h c) → (r.id = 16 ∨ (r.id = h.val ∧ r.priv = 1)) → v.toNat < 2 ^ 28 →
    let stat := hamletBase h + (Reg.DMA_CHn_STAT + 64 * c.val)
    (s.dmaSt h c = 0 → s.get (Fld.DMA_CTRL_STOPALL.h h) = 0 → Gives (.dmaGo r h c v) s fun t => t.dmaSt h c = 1 ∧ t.get (dmaF Fld.DMA_CHn_STAT_CODE h c) = 0
      ∧ t.get (dmaF Fld.DMA_CHn_STAT_PENDTRG h c) = 0 ∧ t.get (Fld.DMA_CTRL_ALLSTOP.h h) = 0 ∧ (t.dmaCh h c).next = 32 * s.get (dmaF Fld.DMA_CHn_DESC_ADDR h c)
      ∧ (t.dmaCh h c).desc = [] ∧ (t.dmaCh h c).fetched = 0 ∧ t = { s with resp := { err := false, data := 0 }, regs := t.regs, dma := t.dma }
      ∧ SameRegs [stat, hamletBase h + Reg.DMA_CTRL] s t)
    ∧ (s.dmaSt h c ≠ 0 ∨ s.get (Fld.DMA_CTRL_STOPALL.h h) = 1 → Gives (.dmaGo r h c v) s fun t => t.get (dmaF Fld.DMA_CHn_STAT_GOREF h c) = 1
      ∧ t.dmaSt h c = s.dmaSt h c ∧ t = { s with resp := { err := false, data := 0 }, regs := t.regs } ∧ SameRegs [stat] s t)
    ∧ (s.dmaSt h c ≠ 0 → (s.dmaCh h c).failed = none → Gives (.dmaAbort r h c v) s fun t => t.dmaSt h c = 0 ∧ t.get (dmaF Fld.DMA_CHn_STAT_CODE h c) = 2
      ∧ t.get (dmaF Fld.DMA_CHn_STAT_PENDTRG h c) = 0 ∧ t = { s with resp := { err := false, data := 0 }, regs := t.regs, dma := t.dma }
      ∧ SameRegs [stat, hamletBase h + Reg.DMA_CTRL] s t)
    ∧ (s.dmaSt h c = 0 → exec (.dmaAbort r h c v) s = .next s.ok)
    ∧ (s.dmaSt h c = 3 ∨ s.dmaSt h c = 4 → Gives (.dmaResume r h c v) s fun t => t.dmaSt h c = 1
      ∧ t = { s with resp := { err := false, data := 0 }, regs := t.regs } ∧ SameRegs [stat] s t)
    ∧ (s.dmaSt h c < 3 → exec (.dmaResume r h c v) s = .next s.ok)
    ∧ (edgePaced (s.get (dmaF Fld.DMA_CHn_CFG_TRIG h c)) = true → s.dmaSt h c ≠ 0 → s.dmaSt h c ≠ 2 → s.get (dmaF Fld.DMA_CHn_STAT_PENDTRG h c) < 255 →
      Gives (.dmaStrig r h c v) s fun t => t.get (dmaF Fld.DMA_CHn_STAT_PENDTRG h c) = s.get (dmaF Fld.DMA_CHn_STAT_PENDTRG h c) + 1 ∧ t.dmaSt h c = s.dmaSt h c
        ∧ t = { s with resp := { err := false, data := 0 }, regs := t.regs } ∧ SameRegs [stat] s t)
    ∧ (edgePaced (s.get (dmaF Fld.DMA_CHn_CFG_TRIG h c)) = false → exec (.dmaStrig r h c v) s = .next s.ok))
  ∧ (∀ (s : State) (r : Req) (h : Fin 8) (v : Word), Takes s r (hamletBase h + Reg.DMA_CTRL) →
    (r.id = 16 → (∀ c : Fin 8, (s.dmaCh h c).failed = none) → Gives (.dmaStopall r h v) s fun t => (∀ c : Fin 8, t.dmaSt h c = 0)
      ∧ t.get (Fld.DMA_CTRL_STOPALL.h h) = 1 ∧ (∀ c : Fin 8, s.dmaSt h c ≠ 0 → t.get (dmaF Fld.DMA_CHn_STAT_CODE h c) = 3)
      ∧ t = { s with resp := { err := false, data := 0 }, regs := t.regs, dma := t.dma })
    ∧ (r.id ≠ 16 → Gives (.dmaStopall r h v) s fun t => t.dma = s.dma ∧ t.mem = s.mem
      ∧ t.get Fld.SYS_BADACC_CNT_COUNT = min (s.get Fld.SYS_BADACC_CNT_COUNT + 1) (2 ^ 32 - 1))))
  ∧ ((∀ (s : State) (h c : Fin 8),
    let x := s.dmaCh h c
    let r := dmaReq h
    s.dmaSt h c = 1 → s.dmaHeld h = false →
    (∀ W : List Word, s.dmaTurn h false = some c → x.desc = [] → s.get (dmaF Fld.DMA_CHn_CFG_TE h c) = 0 → W.length = 8 → x.next % 32 = 0 → x.next < 2 ^ 32 →
      (∀ k < 4, Plain s r (x.next + 8 * k) 3 false) → (∀ k < 8, Holds s.mem (x.next + 4 * k) 4 (W.getD k 0).toNat) →
      descError W (s.get (dmaF Fld.DMA_CHn_RLEN_LEN h c)) = false → s.get (dmaF Fld.DMA_CHn_CFG_TRIG h c) = 0 →
      Gives (.dmaDescriptorFetch h c) s fun t => (t.dmaCh h c).desc = W ∧ (t.dmaCh h c).fetched = x.fetched + 1 ∧ (t.dmaCh h c).rp = 0 ∧ (t.dmaCh h c).wp = 0
        ∧ (t.dmaCh h c).unitEnd = dTotal W ∧ t.dmaSt h c = 1 ∧ t.get (dmaF Fld.DMA_CHn_CUR_ADDR h c) = x.next / 32
        ∧ t = { s with regs := t.regs, dma := t.dma, dmaPtr := s.dmaPtr.set h c.val, sto := t.sto })
    ∧ (∀ (info : Nat) (u : State), s.dmaTurn h false = some c → x.desc = [] → dmaXlat h c false x.next s = (.page info, u) → u.regs = s.regs → info < 4 → x.next % 32 = 0 → x.next < 2 ^ 32 →
      Gives (.dmaDescriptorFetch h c) s fun t => t.dmaSt h c = 3 ∧ t.get (dmaF Fld.DMA_CHn_STAT_CODE h c) = 9 ∧ t.get (dmaF Fld.DMA_CHn_STAT_FINFO h c) = info
        ∧ t.get (dmaF Fld.DMA_CHn_STAT_DIR h c) = 0 ∧ t.get (dmaF Fld.DMA_CHn_FADDR_ADDR h c) = x.next
        ∧ bitOf (t.get (Fld.DMA_IRQ_ERR.h h)) c = true ∧ t.mem = u.mem)
    ∧ (∀ size : Nat, s.dmaTurn h false = some c → x.desc ≠ [] → x.failed = none → x.wp < dTotal x.desc → s.get (dmaF Fld.DMA_CHn_CFG_TE h c) = 0 → s.get (dmaF Fld.DMA_CHn_CFG_TRIG h c) ≠ 3 → x.regs = false →
      let b := s.dmaByte h c false x.rp
      let n := min b.2 (s.dmaLimit h c - x.rp)
      0 < n → transferOf b.1 n = [(b.1, size)] → Plain s r b.1 size false →
      Gives (.dmaTransfer h c false) s fun t => t.dmaCh h c = { x with buf := x.buf ++ (List.range (2 ^ size)).map (fun i => (memRead s.mem (b.1 + i)).toNat), rp := x.rp + 2 ^ size }
        ∧ BanksOnly { s with dma := t.dma, dmaPtr := s.dmaPtr.set h c.val } t ∧ (∀ d : Fin 8, d ≠ c → t.dmaCh h d = s.dmaCh h d))
    ∧ (∀ size : Nat, s.dmaTurn h true = some c → x.desc ≠ [] → x.failed = none → x.wp < dTotal x.desc → s.get (dmaF Fld.DMA_CHn_CFG_TE h c) = 0 → s.get (dmaF Fld.DMA_CHn_CFG_TRIG h c) ≠ 3 →
      let b := s.dmaByte h c true x.wp
      x.wp < x.unitEnd → s.dmaReady h c b.1 = [(x.wp, b.1, size)] → Plain s r b.1 size true → s.protectedAt b.1 (2 ^ size) = false →
      s.writeWaits b.1 (2 ^ size) = false →
      Gives (.dmaTransfer h c true) s fun t => (t.dmaCh h c).wp = x.wp + 2 ^ size
        ∧ (∀ i < 2 ^ size, memRead t.mem (b.1 + i) = BitVec.ofNat 8 (x.byteAt (swapIdx x.desc (x.wp + i))))
        ∧ (∀ a, a < b.1 ∨ b.1 + 2 ^ size ≤ a → memRead t.mem a = memRead s.mem a) ∧ t.eng = s.eng ∧ t.now = s.now))
  ∧ (∀ (s : State) (h c : Fin 8),
    let x := s.dmaCh h c
    let w7 := x.desc.getD 7 0
    s.dmaSt h c = 1 → x.desc ≠ [] → x.failed = none → x.wp = dTotal x.desc →
    (w7.getLsbD 3 = true → Gives (.dmaDescriptorComplete h c) s fun t => t.dmaSt h c = 0 ∧ t.get (dmaF Fld.DMA_CHn_STAT_CODE h c) = 1 ∧ (t.dmaCh h c).desc = []
      ∧ (w7.getLsbD 2 = true → bitOf (t.get (Fld.DMA_IRQ_DONE.h h)) c = true ∧ t.edges = s.edges ++ [(2, h.val, c.val)])
      ∧ t = { s with regs := t.regs, dma := t.dma, edges := t.edges })
    ∧ (w7.getLsbD 3 = false → (x.ring = true ∨ x.fetched < max 1 (s.get (dmaF Fld.DMA_CHn_CFG_FLIMIT h c))) → Gives (.dmaDescriptorComplete h c) s fun t =>
      t.dmaSt h c = 1 ∧ (t.dmaCh h c).desc = [] ∧ (t.dmaCh h c).next = w7.toNat / 32 * 32 ∧ (t.dmaCh h c).fetched = x.fetched
      ∧ t = { s with regs := t.regs, dma := t.dma, edges := t.edges }))
  ∧ (∀ s : State, s.edges = [] → exec .dmaEdgeTrigger s = .next s)
  ∧ (∀ (s : State) (h c : Fin 8) (arg : Nat) (l : List (Nat × Nat × Nat)), s.edges = (2, h.val, arg) :: l → s.get (dmaF Fld.DMA_CHn_CFG_TRIG h c) = 2 →
    s.get (dmaF Fld.DMA_CHn_CFG_TARG h c) = arg → s.dmaSt h c = 1 → s.get (dmaF Fld.DMA_CHn_STAT_PENDTRG h c) < 255 →
    Gives .dmaEdgeTrigger s fun t => t.edges = l ∧ t.get (dmaF Fld.DMA_CHn_STAT_PENDTRG h c) = s.get (dmaF Fld.DMA_CHn_STAT_PENDTRG h c) + 1 ∧ t.dmaSt h c = 1 ∧ t.mem = s.mem)
  ∧ (∀ (s : State) (h c : Fin 8), s.get (dmaF Fld.DMA_CHn_CFG_TRIG h c) = 3 → (s.dmaCh h c).desc ≠ [] → s.ringFill h c ≤ s.get (dmaF Fld.DMA_CHn_RLEN_LEN h c) →
    (s.dmaSt h c = 2 → s.ringRequest h c = true → Gives (.dmaRingRequest h c) s fun t => t.dmaSt h c = 1 ∧ t = { s with regs := t.regs })
    ∧ (s.dmaSt h c = 1 → s.ringRequest h c = false → (s.dmaCh h c).wp < dTotal (s.dmaCh h c).desc → Gives (.dmaRingRequest h c) s fun t => t.dmaSt h c = 2 ∧ t = { s with regs := t.regs }))
  ∧ (∀ (s : State) (h c : Fin 8), ((s.dmaCh h c).failed = none → exec (.dmaWriteError h c) s = .next s)
    ∧ (∀ f, (s.dmaCh h c).failed = some f → (s.dmaCh h c).ending = 0 → exec (.dmaWriteError h c) s = .next (dmaHalt h c true 4 f.2 s))
    ∧ (∀ f, (s.dmaCh h c).failed = some f → (s.dmaCh h c).ending ≠ 0 → (s.dmaCh h c).ending < 4 → Gives (.dmaWriteError h c) s fun t => t.dmaSt h c = 0
      ∧ t.get (dmaF Fld.DMA_CHn_STAT_CODE h c) = (s.dmaCh h c).ending ∧ (t.dmaCh h c).failed = none ∧ (t.dmaCh h c).ending = 0 ∧ t.mem = s.mem)))

/-- The Stile radio's commands and states (R437 to R440, R449): each command's state and LASTRES; a command that its state forbids is refused and counted; a latched
transmission starts with the lock or is aborted after TX_WAIT; a packet that has left is counted and TXNEXT followed.
Reception by Stile and Bell (R436, R440 to R444, R446 to R449): the aerial chosen, the sync's correction, a good packet in the next free buffer, a bad one counted, the
return to Standby after RXTO; Bell's sniff, its time-out, a wake code that matches or is counted, the Hearth answer.
Completes (the conclusion is the next state of exec, under conditions on the state and the operands alone): stileSleep, stileStandby, stileSynth, stileRx,
stileTx, stileStateReached, stileSynthLock, stileTxWaitTimeout, stilePacketSent, stilePreambleDetect, stileSyncDetect, stilePacketRx, stileRxTimeout,
bellSniff, bellStartTimeout, bellFrame, hearthAnswerEnd. -/
def Obligations.StileAndBell : Prop :=
  ((∀ (s : State) (r : Req), Takes s r Reg.STL_CMD → s.bel.answer = none →
    let ok (t : State) : Prop := t.get Fld.STL_STAT_LASTRES = 0
    let only (t : State) (l : List Nat) : Prop := t = { s with resp := { err := false, data := 0 }, regs := t.regs, stl := t.stl } ∧ SameRegs l s t
    let refused (t : State) (n : Nat) : Prop := t.get Fld.STL_STAT_LASTRES = n ∧ t.get Fld.STL_STAT_STATE = s.get Fld.STL_STAT_STATE
      ∧ t.get (Fld.STL_CNTn_COUNT.i 5) = min (s.get (Fld.STL_CNTn_COUNT.i 5) + 1) (2 ^ 32 - 1)
      ∧ t = { s with resp := { err := false, data := 0 }, regs := t.regs } ∧ SameRegs [Reg.STL_STAT, (Fld.STL_CNTn_COUNT.i 5).reg] s t
    Gives (.stileSleep r) s (fun t => t.get Fld.STL_STAT_STATE = 0 ∧ t.get Fld.STL_STAT_LATCHED = 0 ∧ t.get Fld.STL_STAT_SYNCD = 0 ∧ t.get Fld.STL_STAT_EXCH = 0
      ∧ t.get Fld.STL_STAT_FOFF = 0 ∧ t.stl.lock = false ∧ t.get Fld.STL_STAT_LASTRES = (if s.get Fld.STL_STAT_LATCHED = 1 ∨ s.stlSending = true then 5 else 0)
      ∧ only t [Reg.STL_STAT])
    ∧ (s.get Fld.STL_STAT_STATE ≠ 0 → s.get Fld.STL_STAT_STATE ≠ 5 → Gives (.stileStandby r) s fun t => t.get Fld.STL_STAT_STATE = 1 ∧ t.stl.lock = false
      ∧ t.get Fld.STL_STAT_LASTRES = (if s.get Fld.STL_STAT_LATCHED = 1 ∨ s.stlSending = true then 5 else 0) ∧ only t [Reg.STL_STAT])
    ∧ (s.get Fld.STL_STAT_STATE = 0 → s.get Fld.STL_STAT_LATCHED = 0 → Gives (.stileStandby r) s fun t => t.get Fld.STL_STAT_STATE = 5 ∧ t.stl = { s.stl with goal := 1 } ∧ ok t ∧ only t [Reg.STL_STAT])
    ∧ (s.get Fld.STL_STAT_STATE = 1 → Gives (.stileSynth r) s fun t => t.get Fld.STL_STAT_STATE = 2 ∧ t.get Fld.STL_FREQ_PEND = 0
      ∧ t.stl = { s.stl with goal := 2, entered := some s.now, lock := false, freq := s.get Fld.STL_FREQ_FREQ, cfg := s.rd Reg.STL_CFG } ∧ ok t
      ∧ only t [Reg.STL_STAT, Reg.STL_FREQ])
    ∧ (s.get Fld.STL_STAT_STATE = 2 → s.get Fld.STL_STAT_LATCHED = 0 → s.stl.lock = true → s.stl.goal ≠ 4 → Gives (.stileRx r) s fun t =>
      t.get Fld.STL_STAT_STATE = 2 ∧ t.stl = { s.stl with goal := 3 } ∧ ok t ∧ only t [Reg.STL_STAT])
    ∧ (s.get Fld.STL_STAT_LATCHED = 1 → Gives (.stileRx r) s (fun t => refused t 1) ∧ Gives (.stileTx r) s fun t => refused t 1)
    ∧ (s.stlSending = true → Gives (.stileTx r) s fun t => refused t 1)
    ∧ (s.get Fld.STL_STAT_LATCHED = 0 → s.stlSending = false → s.get Fld.STL_STAT_SYNCD = 1 → Gives (.stileTx r) s fun t => refused t 3)
    ∧ (s.get Fld.STL_STAT_STATE = 1 → s.get Fld.STL_STAT_LATCHED = 0 → s.get Fld.STL_STAT_SYNCD = 0 → Gives (.stileTx r) s fun t => t.get Fld.STL_STAT_STATE = 2
      ∧ t.get Fld.STL_STAT_LATCHED = 1 ∧ t.stl.goal = 4 ∧ t.stl.lock = false ∧ t.stl.entered = some s.now ∧ ok t ∧ only t [Reg.STL_STAT, Reg.STL_FREQ]))
  ∧ (∀ (s : State) (r : Req), Takes s r Reg.STL_CMD → s.bel.answer ≠ none → ∀ i ∈ [Instr.stileSleep r, .stileStandby r, .stileSynth r, .stileRx r, .stileTx r],
    Gives i s fun t => t.get Fld.STL_STAT_LASTRES = 6 ∧ t.stl = s.stl)
  ∧ (∀ (s : State) (t0 : Nat), let frame (t : State) : Prop := t = { s with now := max s.now t0, regs := t.regs, stl := t.stl } ∧ SameRegs [Reg.STL_STAT] s t
    (s.get Fld.STL_STAT_STATE = 5 → s.stl.goal < 2 → Gives (.stileStateReached t0) s fun t => t.get Fld.STL_STAT_STATE = 1 ∧ t.stl = s.stl ∧ frame t)
    ∧ (s.get Fld.STL_STAT_STATE = 2 → s.stl.lock = true → s.stl.goal = 3 → Gives (.stileStateReached t0) s fun t => t.get Fld.STL_STAT_STATE = 3
      ∧ t.stl = { s.stl with rxAt := max s.now t0, late := false } ∧ frame t)
    ∧ (s.get Fld.STL_STAT_STATE = 2 → s.stl.lock = false → s.get Fld.STL_STAT_LATCHED = 0 →
      Gives (.stileSynthLock t0) s (fun t => t.stl = { s.stl with lock := true, entered := none } ∧ frame t)
      ∧ Gives (.stileStateReached t0) s fun t => t.stl = { s.stl with lock := true, entered := none } ∧ frame t)
    ∧ (s.get Fld.STL_STAT_STATE = 2 → s.stl.lock = false → s.get Fld.STL_STAT_LATCHED = 1 → Gives (.stileSynthLock t0) s fun t => t.get Fld.STL_STAT_STATE = 4
      ∧ t.get Fld.STL_STAT_LATCHED = 0 ∧ t.stl.lock = true ∧ frame t))
  ∧ (∀ (s : State) (d : Nat), s.stl.entered = some d → s.get Fld.STL_STAT_LATCHED = 1 → Gives .stileTxWaitTimeout s fun t => t.get Fld.STL_STAT_STATE = 1
    ∧ t.get Fld.STL_STAT_LATCHED = 0 ∧ t.get Fld.STL_STAT_LASTRES = 2 ∧ t.now = max s.now (d + max 20 (min 1000 (s.get Fld.STL_SEQ_TXWAIT)) * usU)
    ∧ t.get (Fld.STL_CNTn_COUNT.i 5) = min (s.get (Fld.STL_CNTn_COUNT.i 5) + 1) (2 ^ 32 - 1) ∧ t = { s with now := t.now, regs := t.regs, stl := t.stl })
  ∧ (∀ (s : State) (t0 : Nat), s.get Fld.STL_STAT_STATE = 4 → s.stl.goal = 4 → Gives (.stilePacketSent t0) s fun t => t.out = .stile s.stl.packet.1 s.stl.packet.2 (stileSymbols s.stl.packet.1 s.stl.packet.2) :: s.out
    ∧ t.get (Fld.STL_CNTn_COUNT.i 0) = min (s.get (Fld.STL_CNTn_COUNT.i 0) + 1) (2 ^ 32 - 1)
    ∧ (s.get Fld.STL_SEQ_TXNEXT = 0 → t.get Fld.STL_STAT_STATE = 1) ∧ (s.get Fld.STL_SEQ_TXNEXT = 1 → t.get Fld.STL_STAT_STATE = 2 ∧ t.stl.goal = 2)
    ∧ (s.get Fld.STL_SEQ_TXNEXT = 2 → t.get Fld.STL_STAT_STATE = 2 ∧ t.stl.goal = 3) ∧ t = { s with now := max s.now t0, out := t.out, regs := t.regs, stl := t.stl }))
  ∧ ((∀ (s : State) (a b : Int) (t0 : Nat), s.get Fld.STL_STAT_STATE = 3 → s.get Fld.STL_STAT_SYNCD = 0 →
    let ant := if getBits Fld.STL_CFG_DIV s.stl.cfg = 1 then (if a < b then 1 else 0) else s.get Fld.STL_PKT_RXANT
    exec (.stilePreambleDetect a b t0) s = .next { s with now := max s.now t0, stl := { s.stl with sel := ant, rssi := if ant = 1 then b else a } })
  ∧ (∀ (s : State) (off rssi : Int) (t0 : Nat), s.get Fld.STL_STAT_STATE = 3 → s.get Fld.STL_STAT_SYNCD = 0 →
    (off.natAbs ≤ min (5 * getBits Fld.STL_CFG_SRATE s.stl.cfg) 6000 → Gives (.stileSyncDetect off rssi t0) s fun t => t.get Fld.STL_STAT_SYNCD = 1
      ∧ (-(2 ^ 15) ≤ signed 16 (s.get Fld.STL_STAT_FOFF) + off → signed 16 (s.get Fld.STL_STAT_FOFF) + off < 2 ^ 15 →
        signed 16 (t.get Fld.STL_STAT_FOFF) = signed 16 (s.get Fld.STL_STAT_FOFF) + off)
      ∧ t.stl = { s.stl with held := signed 16 (s.get Fld.STL_STAT_FOFF), est := off, rssi := rssi, rxAt := max s.now t0 }
      ∧ t = { s with now := max s.now t0, regs := t.regs, stl := t.stl } ∧ SameRegs [Reg.STL_STAT] s t)
    ∧ (min (5 * getBits Fld.STL_CFG_SRATE s.stl.cfg) 6000 < off.natAbs → exec (.stileSyncDetect off rssi t0) s = .next s))
  ∧ (∀ (s : State) (body : List Nat) (lqi evm t0 : Nat) (b : Fin 2), s.get Fld.STL_STAT_STATE = 3 → s.get Fld.STL_STAT_SYNCD = 1 →
    getBits Fld.STL_CFG_WHITEN s.stl.cfg = 0 → body.length = 4 + body.getD 3 0 → body.getD 3 0 < 256 → s.stl.buf = b.val → s.boot.rom = false →
    (body.getD 0 0 = s.get Fld.TLY_STAT_ADDR ∨ body.getD 0 0 = 0xFF) → (∀ x ∈ body, x < 256) →
    (s.get (Fld.STL_RXb_INFO_FULL.i b) = 0 → Gives (.stilePacketRx (body ++ beBytes 2 (crc16 body)) lqi evm t0) s fun t => t.get (Fld.STL_RXb_INFO_FULL.i b) = 1
      ∧ t.stl.buf = 1 - b.val ∧ t.get (Fld.STL_CNTn_COUNT.i 1) = min (s.get (Fld.STL_CNTn_COUNT.i 1) + 1) (2 ^ 32 - 1)
      ∧ (∀ i, i < body.length → (t.rd (Reg.STL_RXBUF + 512 * b + 4 * (i / 4))).toNat / 256 ^ (3 - i % 4) % 256 = body.getD i 0)
      ∧ t.get Fld.STL_STAT_SYNCD = 0 ∧ (s.get Fld.STL_SEQ_RXNEXT = 0 → t.get Fld.STL_STAT_STATE = 3) ∧ (s.get Fld.STL_SEQ_RXNEXT = 1 → t.get Fld.STL_STAT_STATE = 1)
      ∧ t = { s with now := max s.now t0, regs := t.regs, stl := t.stl })
    ∧ (s.get (Fld.STL_RXb_INFO_FULL.i b) = 1 → s.stl.late = false → Gives (.stilePacketRx (body ++ beBytes 2 (crc16 body)) lqi evm t0) s fun t => t.stl.buf = b.val
      ∧ t.get (Fld.STL_CNTn_COUNT.i 4) = min (s.get (Fld.STL_CNTn_COUNT.i 4) + 1) (2 ^ 32 - 1) ∧ (∀ i < 65, t.rd (Reg.STL_RXBUF + 512 * b + 4 * i) = s.rd (Reg.STL_RXBUF + 512 * b + 4 * i))))
  ∧ (∀ s : State, s.get Fld.STL_STAT_STATE = 3 → s.get Fld.STL_SEQ_RXTO ≠ 0 →
    (s.get Fld.STL_STAT_SYNCD = 0 → Gives .stileRxTimeout s fun t => t.get Fld.STL_STAT_STATE = 1 ∧ t.now = max s.now (s.stl.rxAt + s.get Fld.STL_SEQ_RXTO * msU)
      ∧ t = { s with now := t.now, regs := t.regs, stl := t.stl } ∧ SameRegs [Reg.STL_STAT] s t)
    ∧ (s.get Fld.STL_STAT_SYNCD = 1 → exec .stileRxTimeout s = .next { s with now := max s.now (s.stl.rxAt + s.get Fld.STL_SEQ_RXTO * msU), stl := { s.stl with late := true } }))
  ∧ (∀ (s : State) (t0 : Nat), s.pow.down = 2 → s.bel.on = true → s.bel.since = none → s.calen.runs = true → s.pow.hearth = true →
    exec (.bellSniff true t0) s = .next { s with now := max s.now t0, bel := { s.bel with since := some (max s.now t0) } }
    ∧ exec (.bellSniff false t0) s = .next { s with now := max s.now t0 })
  ∧ (∀ (s : State) (d : Nat), s.bel.since = some d → Gives .bellStartTimeout s fun t => t.bel = { s.bel with since := none }
    ∧ t.now = max s.now (d + s.sniffU + 30 * msU) ∧ t.get (Fld.BEL_CNTn_COUNT.i 0) = min (s.get (Fld.BEL_CNTn_COUNT.i 0) + 1) (2 ^ 32 - 1)
    ∧ t = { s with now := t.now, regs := t.regs, bel := t.bel })
  ∧ (∀ (s : State) (d : Nat) (code chk : BitVec 16) (t0 : Nat), s.bel.since = some d → s.pow.down ≠ 0 →
    (chk ≠ ~~~code → Gives (.bellFrame code chk t0) s fun t => t.bel = { s.bel with since := none } ∧ t.pow = s.pow
      ∧ t.get (Fld.BEL_CNTn_COUNT.i 1) = min (s.get (Fld.BEL_CNTn_COUNT.i 1) + 1) (2 ^ 32 - 1))
    ∧ (chk = ~~~code → s.bellMatch code.toNat = none → Gives (.bellFrame code chk t0) s fun t => t.bel = { s.bel with since := none } ∧ t.pow = s.pow
      ∧ t.get (Fld.BEL_CNTn_COUNT.i 2) = min (s.get (Fld.BEL_CNTn_COUNT.i 2) + 1) (2 ^ 32 - 1))
    ∧ (∀ src, chk = ~~~code → s.bellMatch code.toNat = some src → max s.now t0 < s.pow.outAt + 10 * msU → Gives (.bellFrame code chk t0) s fun t => t.pow.held = true
      ∧ t.bel.on = false ∧ t.bel.since = none ∧ t.get Fld.BEL_STAT_MATCH = 1 ∧ t.get Fld.BEL_STAT_CODE = code.toNat ∧ t.get Fld.BEL_STAT_SRC = src
      ∧ (s.get Fld.BEL_CFG_ANS = 1 → bitOf s.pow.rails 7 = false → t.bel.answer = some (max s.now t0)))
    ∧ (∀ src, chk = ~~~code → s.bellMatch code.toNat = some src → s.pow.outAt + 10 * msU ≤ max s.now t0 → Gives (.bellFrame code chk t0) s fun t =>
      t.pow.wakeOut = true ∧ t.pow.down = 0 ∧ t.pow.step = 1 ∧ t.get Fld.SYS_RSTCAUSE_WAKE = 1 ∧ t.mem = []))
  ∧ (∀ (s : State) (d t0 : Nat), s.bel.answer = some d → Gives (.hearthAnswerEnd t0) s fun t => t.get Fld.BEL_STAT_ANSWERED = 1 ∧ t.bel = { s.bel with answer := none }
    ∧ t.now = max s.now (min t0 (d + 10 * msU)) ∧ (∃ args bytes, t.out = .stile args bytes (stileSymbols args bytes) :: s.out)
    ∧ t = { s with now := t.now, out := t.out, regs := t.regs, bel := t.bel } ∧ SameRegs [Reg.BEL_STAT] s t))

/-- The Watch receiver (R416 to R422, R424, R429): EN = 0 clears READY and ends a sweep; READY within 200 us; the gain moves by 1 dB; clipping is counted; a frequency outside the
bands is refused; synchronisation and lock follow the demodulators; an RDS group, a FIG and a section are decoded and delivered as a record; the oldest record leaves on its flow.
Completes (the conclusion is the next state of exec, under conditions on the state and the operands alone): watchEnable, dmodWrite, fmFreqWrite,
watchReady, watchAgcStep, watchClip, rdsSynchronisation, demodulatorLock, rdsGroup, dabFig, dvbSection, watchRecordSend. -/
def Obligations.WatchReceiver : Prop :=
  (∀ (s : State) (r : Req) (v : Word), Takes s r Reg.WCH_CTRL → s.locked Reg.WCH_CTRL = false →
    (s.get Fld.WCH_CTRL_EN = 1 → getBits Fld.WCH_CTRL_EN v = 0 → s.get Fld.WCH_SW_STAT_BUSY = 0 → getBits Fld.WCH_CTRL_DMOD v = s.get Fld.WCH_CTRL_DMOD → s.get Fld.WCH_DIG_STAT_AFTRY = 0 →
      Gives (.watchEnable r v) s fun t => t.get Fld.WCH_STAT_READY = 0 ∧ t.get Fld.WCH_DIG_STAT_LOCK = 0 ∧ (∀ n : Fin 2, t.get (Fld.WCH_FMn_STAT_SYNC.i n) = 0
        ∧ t.get (Fld.WCH_FMn_STAT_Q.i n) = 0) ∧ t.wch.queue = s.wch.queue ∧ t = { s with resp := { err := false, data := 0 }, regs := t.regs, wch := t.wch })
    ∧ (s.get Fld.WCH_CTRL_EN = 0 → getBits Fld.WCH_CTRL_DMOD v = s.get Fld.WCH_CTRL_DMOD → s.get Fld.WCH_DIG_STAT_AFTRY = 0 → Gives (.watchEnable r v) s fun t =>
      t.get Fld.WCH_CTRL_EN = getBits Fld.WCH_CTRL_EN v ∧ t = { s with resp := { err := false, data := 0 }, regs := t.regs } ∧ SameRegs [Reg.WCH_CTRL] s t)
    ∧ (s.get Fld.WCH_CTRL_EN = getBits Fld.WCH_CTRL_EN v → getBits Fld.WCH_CTRL_DMOD v ≠ s.get Fld.WCH_CTRL_DMOD ∨ s.get Fld.WCH_DIG_STAT_AFTRY = 1 → Gives (.dmodWrite r false v) s fun t =>
      t.get Fld.WCH_CTRL_DMOD = getBits Fld.WCH_CTRL_DMOD v ∧ t.rd Reg.WCH_DIG_ID = 0 ∧ t.get Fld.WCH_DIG_STAT_LOCK = 0 ∧ t.get Fld.WCH_DIG_STAT_IDVAL = 0
      ∧ t.get Fld.WCH_DIG_STAT_AFTRY = 0 ∧ t.get Fld.WCH_DIG_STAT_Q = 0 ∧ t.get Fld.WCH_DIG_STAT_AFSW = s.get Fld.WCH_DIG_STAT_AFSW ∧ t.wch.chan = s.wch.chan.set 2 {} ∧ t = { s with resp := { err := false, data := 0 }, regs := t.regs, wch := t.wch }
      ∧ SameRegs [Reg.WCH_CTRL, Reg.WCH_DIG_ID, Reg.WCH_DIG_STAT] s t))
  ∧ (∀ (s : State) (r : Req) (v : Word), Takes s r Reg.WCH_DIG_FREQ → inBands (getBits Fld.WCH_DIG_FREQ_FREQ v) = false → Gives (.dmodWrite r true v) s fun t =>
    t.rd Reg.WCH_DIG_FREQ = s.rd Reg.WCH_DIG_FREQ ∧ t.wch = s.wch ∧ t.get Fld.SYS_BADACC_CNT_COUNT = min (s.get Fld.SYS_BADACC_CNT_COUNT + 1) (2 ^ 32 - 1))
  ∧ (∀ (s : State) (r : Req) (v : Word), Takes s r Reg.WCH_DIG_FREQ → s.locked Reg.WCH_DIG_FREQ = false → inBands (getBits Fld.WCH_DIG_FREQ_FREQ v) = true →
    Gives (.dmodWrite r true v) s fun t => t.get Fld.WCH_DIG_FREQ_FREQ = getBits Fld.WCH_DIG_FREQ_FREQ v
      ∧ t = { s with resp := { err := false, data := 0 }, regs := t.regs, wch := t.wch } ∧ SameRegs [Reg.WCH_DIG_FREQ, Reg.WCH_DIG_ID, Reg.WCH_DIG_STAT] s t)
  ∧ (∀ (s : State) (r : Req) (n : Fin 2) (v : Word), Takes s r (Reg.WCH_FMn_FREQ + 32 * n) → s.locked (Reg.WCH_FMn_FREQ + 32 * n) = false →
    let f := getBits Fld.WCH_FMn_FREQ_FREQ v
    (6500 ≤ f → f ≤ 10800 → Gives (.fmFreqWrite r n v) s fun t => t.get (Fld.WCH_FMn_FREQ_FREQ.i n) = f ∧ t.get (Fld.WCH_FMn_STAT_AFTRY.i n) = 0
      ∧ t.wch.chan[n.castSucc] = { s.wch.chan[n.castSucc] with tries := [], low := 0 } ∧ t = { s with resp := { err := false, data := 0 }, regs := t.regs, wch := t.wch }
      ∧ SameRegs [Reg.WCH_FMn_FREQ + 32 * n, (Fld.WCH_FMn_STAT_AFTRY.i n).reg] s t)
    ∧ (f < 6500 ∨ 10800 < f → Gives (.fmFreqWrite r n v) s fun t => t.rd (Reg.WCH_FMn_FREQ + 32 * n) = s.rd (Reg.WCH_FMn_FREQ + 32 * n) ∧ t.wch = s.wch
      ∧ t.get Fld.SYS_BADACC_CNT_COUNT = min (s.get Fld.SYS_BADACC_CNT_COUNT + 1) (2 ^ 32 - 1)))
  ∧ (∀ (s : State) (t0 : Nat), s.get Fld.WCH_CTRL_EN = 1 → s.dark = false → Gives (.watchReady t0) s fun t => t.get Fld.WCH_STAT_READY = 1
    ∧ t = { s with now := max s.now t0, regs := t.regs } ∧ SameRegs [Reg.WCH_STAT] s t)
  ∧ (∀ (s : State) (up : Bool) (level t0 : Nat), s.watchRuns = true → (up = true → s.get Fld.WCH_STAT_GAIN < 30) → (up = false → 0 < s.get Fld.WCH_STAT_GAIN) →
    let done : Wch := { s.wch with agcAt := max s.now t0 + msU }
    (max s.now t0 < s.wch.agcAt → exec (.watchAgcStep up level t0) s = .next s)
    ∧ (s.wch.agcAt ≤ max s.now t0 → s.get Fld.WCH_SW_STAT_BUSY = 0 ∨ s.get Fld.WCH_SW_CFG_SRC = 1 → Gives (.watchAgcStep up level t0) s fun t =>
      t.get Fld.WCH_STAT_GAIN = (if up then s.get Fld.WCH_STAT_GAIN + 1 else s.get Fld.WCH_STAT_GAIN - 1) ∧ t = { s with now := max s.now t0, regs := t.regs, wch := done }
      ∧ SameRegs [Reg.WCH_STAT] s t)
    ∧ (s.wch.agcAt ≤ max s.now t0 → s.get Fld.WCH_SW_STAT_BUSY = 1 → s.get Fld.WCH_SW_CFG_SRC = 0 → s.wch.agc = 0 → Gives (.watchAgcStep up level t0) s fun t =>
      t.wch = { done with agc := 1, dwell := max s.now t0 } ∧ t = { s with now := max s.now t0, regs := t.regs, wch := t.wch } ∧ SameRegs [Reg.WCH_STAT] s t))
  ∧ (∀ (s : State) (n : Nat), n ≠ 0 → s.watchRuns = true → s.get Fld.WCH_STAT_OVR = 1 → Gives (.watchClip n) s fun t =>
    t.get (Fld.WCH_CNTn_COUNT.i 0) = min (s.get (Fld.WCH_CNTn_COUNT.i 0) + n) (2 ^ 32 - 1) ∧ t.get Fld.WCH_STAT_OVR = 1
    ∧ t.wch.clip = (s.wch.clip || (s.get Fld.WCH_SW_STAT_BUSY == 1 && s.get Fld.WCH_SW_CFG_SRC == 0)) ∧ t = { s with regs := t.regs, wch := t.wch }
    ∧ SameRegs [(Fld.WCH_CNTn_COUNT.i 0).reg, Reg.WCH_STAT] s t)
  ∧ (∀ (s : State) (n : Fin 2), (s.get (Fld.WCH_FMn_CFG_EN.i n) = 1 → s.get Fld.WCH_STAT_READY = 1 → Gives (.rdsSynchronisation n true) s fun t =>
      t.get (Fld.WCH_FMn_STAT_SYNC.i n) = 1 ∧ t = { s with regs := t.regs } ∧ SameRegs [(Fld.WCH_FMn_STAT_SYNC.i n).reg] s t)
    ∧ Gives (.rdsSynchronisation n false) s fun t => t.get (Fld.WCH_FMn_STAT_SYNC.i n) = 0 ∧ t.get (Fld.WCH_FMn_STAT_Q.i n) = 0
      ∧ t = { s with regs := t.regs, wch := t.wch } ∧ SameRegs [(Fld.WCH_FMn_STAT_SYNC.i n).reg] s t)
  ∧ (∀ (s : State) (on : Bool), s.get Fld.WCH_CTRL_DMOD ≠ 0 → s.get Fld.WCH_STAT_READY = 1 → Gives (.demodulatorLock on) s fun t =>
    t.get Fld.WCH_DIG_STAT_LOCK = (if on then 1 else 0) ∧ t = { s with regs := t.regs } ∧ SameRegs [Reg.WCH_DIG_STAT] s t)
  ∧ (∀ (s : State) (n : Fin 2) (bl : List Nat) (good corr offE t0 : Nat), s.get (Fld.WCH_FMn_CFG_EN.i n) = 1 → s.get (Fld.WCH_FMn_STAT_SYNC.i n) = 1 →
    s.get (Fld.WCH_FMn_STAT_AFTRY.i n) = 1 → Gives (.rdsGroup n bl good corr offE none t0) s fun t => t.now = max s.now t0 ∧ t.wch.queue = s.wch.queue
      ∧ t.wch.chan[n.castSucc].blocks.length = min 64 (s.wch.chan[n.castSucc].blocks.length + 4)
      ∧ t = { s with now := t.now, regs := t.regs, wch := t.wch } ∧ SameRegs [(Fld.WCH_FMn_STAT_Q.i n).reg] s t)
  ∧ (∀ (s : State) (n : Fin 2) (pi b c d corr t0 : Nat), s.get (Fld.WCH_FMn_CFG_EN.i n) = 1 → s.get (Fld.WCH_FMn_STAT_SYNC.i n) = 1 →
    s.get (Fld.WCH_FMn_STAT_AFTRY.i n) = 0 → b / 4096 % 16 ≠ 0 → pi < 65536 →
    let x := s.wch.chan[n.castSucc]
    (s.get (Fld.WCH_FMn_CFG_GMASK.i n) = 0 → s.get (Fld.WCH_FMn_PI_PI.i n) ≠ pi → x.piRun = 3 → x.piNew = pi → Gives (.rdsGroup n [pi, b, c, d] 15 corr 0 none t0) s fun t =>
      t.get (Fld.WCH_FMn_PI_PI.i n) = pi ∧ t.get (Fld.WCH_FMn_PI_VALID.i n) = 1 ∧ t.rd (Reg.WCH_FMn_PS0 + 32 * n) = 0 ∧ t.wch.queue = s.wch.queue
      ∧ t = { s with now := max s.now t0, regs := t.regs, wch := t.wch })
    ∧ (let record := recordBytes n t0 (10 * s.get (Fld.WCH_FMn_FREQ_FREQ.i n)) (beBytes 2 pi ++ beBytes 2 b ++ beBytes 2 c ++ beBytes 2 d ++ [corr % 16, 0, 0, 0])
      b / 2048 % 32 = 8 → bitOf (s.get (Fld.WCH_FMn_CFG_GMASK.i n)) 2 = true → 4 ≤ s.get Fld.WCH_CTRL_FLOW → s.get Fld.WCH_CTRL_FLOW ≤ 7 →
      (s.wch.queue.map List.length).sum + record.length ≤ 32768 → Gives (.rdsGroup n [pi, b, c, d] 15 corr 0 none t0) s fun t => t.wch.queue = s.wch.queue ++ [record]
        ∧ t.edges = s.edges ++ [(5, 8, 2)] ∧ t = { s with now := max s.now t0, regs := t.regs, wch := t.wch, edges := t.edges }))
  ∧ (∀ (s : State) (sel : Fin 6) (bytes afs : List Nat) (t0 : Nat),
    let src := if s.get Fld.WCH_CTRL_DMOD = 1 then 2 else 3
    let record := recordBytes src t0 (s.get Fld.WCH_DIG_FREQ_FREQ) bytes
    s.get Fld.WCH_DIG_STAT_LOCK = 1 → s.get Fld.WCH_DIG_STAT_AFTRY = 0 → s.bit Fld.WCH_DIG_CFG_MASK sel = true → 4 ≤ s.get Fld.WCH_CTRL_FLOW → s.get Fld.WCH_CTRL_FLOW ≤ 7 →
    (s.wch.queue.map List.length).sum + record.length ≤ 32768 →
    let queued (t : State) : Prop := t.wch.queue = s.wch.queue ++ [record] ∧ t.edges = s.edges ++ [(5, 8, 2)] ∧ t.now = max s.now t0
    (s.get Fld.WCH_CTRL_DMOD = 1 → Gives (.dabFig sel bytes afs t0) s fun t => queued t ∧ (sel = 3 → t.wch.chan[2].afs = afs) ∧ (sel = 0 → t.get Fld.WCH_DIG_STAT_IDVAL = 1)
      ∧ t = { s with now := t.now, regs := t.regs, wch := t.wch, edges := t.edges } ∧ SameRegs [Reg.WCH_DIG_ID, Reg.WCH_DIG_STAT] s t)
    ∧ (2 ≤ s.get Fld.WCH_CTRL_DMOD → Gives (.dvbSection sel bytes true t0) s fun t => queued t ∧ (sel = 2 → t.get Fld.WCH_DIG_STAT_IDVAL = 1)
      ∧ t = { s with now := t.now, regs := t.regs, wch := t.wch, edges := t.edges } ∧ SameRegs [Reg.WCH_DIG_ID, Reg.WCH_DIG_STAT] s t)
    ∧ exec (.dvbSection sel bytes false t0) s = .next s)
  ∧ (∀ (s : State) (b : List Nat) (l : List (List Nat)), s.wch.queue = b :: l →
    let f := s.get Fld.WCH_CTRL_FLOW
    (4 ≤ f → f ≤ 7 → s.get (Fld.LNK_FLOWf_CFG_EN.i f) = 1 → s.linkUp = true → s.creditFor f (8 + b.length) = true →
      exec .watchRecordSend s = .next (State.sendSeq { s with wch := { s.wch with queue := l } } f 3 b))
    ∧ (s.linkUp = false → exec .watchRecordSend s = .next s))

/-- Alternative frequencies, broadcast time and the sweep (R423, R425 to R428, R431): a low Q is counted, and candidates are tried in turn; a candidate that passes is taken and
counted; the channel returns when none passes; a broadcast item is latched by a read; the sweep clears its results, writes each entry's, and ends with its code.
Completes (the conclusion is the next state of exec, under conditions on the state and the operands alone): afQualityCheck, afCandidateResult,
broadcastTimeItem, btUtcRead, sweepGo, sweepStop, sweepEntryEnd, sweepEntryTimeout. -/
def Obligations.WatchSearch : Prop :=
  (∀ (s : State) (n : Fin 3) (q rssi mer : Nat),
    let f := afRegs n
    n ≠ 2 → s.watchRuns = true → s.get (Fld.WCH_FMn_CFG_EN.i n) = 1 → s.get f.afen = 1 → s.get f.try_ = 0 →
    (s.get f.qth ≤ s.get f.q → Gives (.afQualityCheck n q rssi mer) s fun t => t.wch.chan[n].low = 0 ∧ t.wch.chan[n].tries = s.wch.chan[n].tries ∧ t.get f.try_ = 0
      ∧ t = { s with regs := t.regs, wch := t.wch } ∧ SameRegs [f.rssi.reg] s t)
    ∧ (s.get f.q < s.get f.qth → s.wch.chan[n].low + 1 < max 1 (s.get f.dwell) → Gives (.afQualityCheck n q rssi mer) s fun t => t.wch.chan[n].low = s.wch.chan[n].low + 1
      ∧ t.get f.try_ = 0 ∧ t = { s with regs := t.regs, wch := t.wch } ∧ SameRegs [f.rssi.reg] s t)
    ∧ (s.get f.q < s.get f.qth → max 1 (s.get f.dwell) ≤ s.wch.chan[n].low + 1 → s.candidates n ≠ [] → Gives (.afQualityCheck n q rssi mer) s fun t =>
      t.wch.chan[n].tries = s.candidates n ∧ t.wch.chan[n].low = 0 ∧ t.get f.try_ = 1 ∧ t = { s with regs := t.regs, wch := t.wch } ∧ SameRegs [f.rssi.reg] s t)
    ∧ (s.get f.q < s.get f.qth → max 1 (s.get f.dwell) ≤ s.wch.chan[n].low + 1 → s.candidates n = [] → Gives (.afQualityCheck n q rssi mer) s fun t =>
      t.get f.fail = 1 ∧ t.get f.try_ = 0 ∧ t.wch.chan[n].low = 0 ∧ t.get (Fld.WCH_CNTn_COUNT.i 4) = min (s.get (Fld.WCH_CNTn_COUNT.i 4) + 1) (2 ^ 32 - 1)))
  ∧ (∀ (s : State) (n : Fin 3) (sync : Bool) (ident q x : Nat) (l : List Nat), s.wch.chan[n].tries = x :: l →
    let f := afRegs n
    let me := if n = 2 then s.get Fld.WCH_DIG_ID_ID else s.get (Fld.WCH_FMn_PI_PI.i n)
    (sync = true → ident = me → s.get f.qth ≤ q → s.get Fld.WCH_CTRL_FLOW < 4 → Gives (.afCandidateResult n sync ident q) s fun t =>
      t.chanFreq n = x % (if n = 2 then 2 ^ 24 else 2 ^ 14) ∧ t.get f.sw = 1 ∧ t.get f.try_ = 0 ∧ t.get f.q = min q 100 ∧ t.wch.chan[n] = { s.wch.chan[n] with tries := [], low := 0, blocks := blocksOf q }
      ∧ t.get (Fld.WCH_CNTn_COUNT.i 3) = min (s.get (Fld.WCH_CNTn_COUNT.i 3) + 1) (2 ^ 32 - 1) ∧ t = { s with regs := t.regs, wch := t.wch })
    ∧ (sync = false ∨ ident ≠ me ∨ q < s.get f.qth → l ≠ [] → exec (.afCandidateResult n sync ident q) s =
      .next { s with wch := { s.wch with chan := s.wch.chan.set n { s.wch.chan[n] with tries := l } } })
    ∧ (sync = false ∨ ident ≠ me ∨ q < s.get f.qth → l = [] → Gives (.afCandidateResult n sync ident q) s fun t => t.chanFreq n = s.chanFreq n ∧ t.get f.fail = 1
      ∧ t.get f.try_ = 0 ∧ t.wch.chan[n].tries = [] ∧ t = { s with regs := t.regs, wch := t.wch }))
  ∧ (∀ (s : State) (src : Fin 4) (utc ms lto t0 : Nat), s.get Fld.WCH_BT_CFG_TSRC = src.val → s.get (Fld.WCH_FMn_STAT_AFTRY.i 0) = 0 → s.get (Fld.WCH_FMn_STAT_AFTRY.i 1) = 0 →
    s.get Fld.WCH_DIG_STAT_AFTRY = 0 → s.get Fld.WCH_CTRL_BTREC = 0 → s.btRuns src = true → Gives (.broadcastTimeItem src utc ms lto t0) s fun t =>
    t.get Fld.WCH_BT_UTC_UTC = utc % 2 ^ 32 ∧ t.get Fld.WCH_BT_MS_BTNEW = 1 ∧ t.get Fld.WCH_BT_MS_VALID = 1 ∧ t.wch.bt = ⟨src, utc % 2 ^ 32, if src = 2 then ms else 0, if src = 2 then 0 else lto, t0⟩ ∧ t.edges = s.edges ++ [(5, 8, 3)]
    ∧ t = { s with now := max s.now t0, regs := t.regs, wch := t.wch, edges := t.edges } ∧ SameRegs [Reg.WCH_BT_UTC, Reg.WCH_BT_MS] s t)
  ∧ (∀ (s : State) (r : Req), s.check r Reg.WCH_BT_UTC 2 false = .ok → Gives (.btUtcRead r) s fun t => t.resp = { err := false, data := (s.rd Reg.WCH_BT_UTC).toNat }
    ∧ t.get Fld.WCH_BT_MS_BTNEW = 0 ∧ t.get Fld.WCH_BT_MS_MS = s.wch.bt.ms % 1024 ∧ t.get Fld.WCH_BT_NS_VAL = nsOf s.wch.bt.t % 2 ^ 32 ∧ t.get Fld.WCH_BT_SEC_VAL = secOf s.wch.bt.t % 2 ^ 32
    ∧ t = { s with resp := t.resp, regs := t.regs } ∧ SameRegs [Reg.WCH_BT_MS, Reg.WCH_BT_NS, Reg.WCH_BT_SEC] s t)
  ∧ (∀ (s : State) (r : Req) (v : Word), Takes s r Reg.WCH_SW_CFG → s.locked Reg.WCH_SW_CFG = false →
    (s.get Fld.WCH_CTRL_EN = 1 → s.get Fld.WCH_SW_STAT_BUSY = 0 → getBits Fld.WCH_SW_CFG_GO v = 1 → getBits Fld.WCH_SW_CFG_STOP v = 0 → getBits Fld.WCH_SW_CFG_SRC v = 0 →
      inBands (s.get (Fld.WCH_SWn_FREQ_FREQ.i 0)) = true → s.get (Fld.WCH_SWn_CFG_KIND.i 0) < 2 → 1 ≤ s.get (Fld.WCH_SWn_CFG_BW.i 0) →
      s.get (Fld.WCH_SWn_CFG_BW.i 0) ≤ 800 → Gives (.sweepGo r v) s fun t => t.get Fld.WCH_SW_STAT_BUSY = 1 ∧ t.get Fld.WCH_SW_STAT_ENTRY = 0
        ∧ (∀ n : Fin 64, t.rd (Reg.WCH_SWn_RES + 16 * n) = 0) ∧ t.wch = { s.wch with start := s.now, dwell := s.now, agc := 0, clip := false }
        ∧ t = { s with resp := { err := false, data := 0 }, regs := t.regs, wch := t.wch })
    ∧ (s.get Fld.WCH_SW_STAT_BUSY = 1 → getBits Fld.WCH_SW_CFG_GO v = 1 → getBits Fld.WCH_SW_CFG_STOP v = 0 → Gives (.sweepGo r v) s fun t => t.wch = s.wch
      ∧ t.get Fld.WCH_SW_STAT_BUSY = 1 ∧ t.get Fld.SYS_BADACC_CNT_COUNT = min (s.get Fld.SYS_BADACC_CNT_COUNT + 1) (2 ^ 32 - 1))
    ∧ (s.get Fld.WCH_SW_STAT_BUSY = 1 → s.get Fld.WCH_CTRL_SWREC = 0 → s.get (Fld.WCH_SWn_THR_EN.i (s.get Fld.WCH_SW_STAT_ENTRY)) = 0 → getBits Fld.WCH_SW_CFG_GO v = 0 →
      Gives (.sweepStop r v) s fun t => t.get Fld.WCH_SW_STAT_BUSY = 0 ∧ t.get Fld.WCH_SW_STAT_DONE = 1 ∧ t.get Fld.WCH_SW_STAT_END = 1
        ∧ t.get (Fld.WCH_SWn_RES_PART.i (s.get Fld.WCH_SW_STAT_ENTRY)) = 1 ∧ t.get (Fld.WCH_SWn_RES_VALID.i (s.get Fld.WCH_SW_STAT_ENTRY)) = 1
        ∧ t.edges = s.edges ++ [(5, 8, 0)] ∧ t.wch = s.wch))
  ∧ (∀ (s : State) (level t0 : Nat), level < 2 ^ 16 → s.get Fld.WCH_SW_STAT_BUSY = 1 → s.get Fld.WCH_CTRL_SWREC = 0 → s.get Fld.WCH_SW_CFG_REPEAT = 0 →
    let n := s.get Fld.WCH_SW_STAT_ENTRY
    s.get (Fld.WCH_SWn_THR_EN.i n) = 0 → n = s.get Fld.WCH_SW_CFG_LENM1 →
    (s.dwellOf ≤ s.gathered (max s.now t0) → Gives (.sweepEntryEnd level t0) s fun t => t.get (Fld.WCH_SWn_RES_LEVEL.i n) = level ∧ t.get (Fld.WCH_SWn_RES_VALID.i n) = 1 ∧ t.get (Fld.WCH_SWn_RES_PART.i n) = 0
      ∧ t.get (Fld.WCH_SWn_RES_OVR.i n) = (if s.wch.clip then 1 else 0) ∧ t.get Fld.WCH_SW_STAT_BUSY = 0 ∧ t.get Fld.WCH_SW_STAT_DONE = 1 ∧ t.get Fld.WCH_SW_STAT_END = 0
      ∧ t.edges = s.edges ++ [(5, 8, 0)] ∧ t = { s with now := max s.now t0, regs := t.regs, edges := t.edges })
    ∧ (0 < s.gathered (s.wch.start + 10 * s.dwellOf) → s.gathered (s.wch.start + 10 * s.dwellOf) < s.dwellOf → Gives (.sweepEntryTimeout (some level)) s fun t => t.get (Fld.WCH_SWn_RES_LEVEL.i n) = level ∧ t.get (Fld.WCH_SWn_RES_PART.i n) = 1
      ∧ t.get Fld.WCH_SW_STAT_END = 0 ∧ t.now = max s.now (s.wch.start + 10 * s.dwellOf)
      ∧ t.get (Fld.WCH_CNTn_COUNT.i 2) = min (s.get (Fld.WCH_CNTn_COUNT.i 2) + 1) (2 ^ 32 - 1)))
end

