-- ==== Sys2Proof/Laws/Files.lean ====
section
/-!
SUPPORT. The laws of register files, of the stores and of register fields: what a read gives after a write, and that every operation on them keeps the canonical form.
-/

namespace Sys2Proof.Machine

/-! ### Sorted lists of pairs -/

theorem rfInsert_pairwise (l : RegFile) (a : Nat) (v : Word) (h : l.Pairwise (fun p q => p.1 < q.1)) (hn : ∀ p ∈ l, p.1 ≠ a) :
    (rfInsert l a v).Pairwise (fun p q => p.1 < q.1) := by
  induction l with
  | nil => simp [rfInsert]
  | cons p t ih =>
    rw [List.pairwise_cons] at h
    have hp : p.1 ≠ a := hn p (by simp)
    unfold rfInsert
    by_cases hlt : a < p.1
    · rw [if_pos hlt, List.pairwise_cons, List.pairwise_cons]
      refine ⟨?_, h⟩
      intro q hq
      rcases List.mem_cons.1 hq with rfl | hq
      · exact hlt
      · exact Nat.lt_trans hlt (h.1 q hq)
    · rw [if_neg hlt, List.pairwise_cons]
      refine ⟨?_, ih h.2 fun q hq => hn q (by simp [hq])⟩
      intro q hq
      have : q = (a, v) ∨ q ∈ t := by
        clear ih h hn hp hlt
        induction t with
        | nil => simpa [rfInsert] using hq
        | cons r t ih2 =>
          unfold rfInsert at hq
          split at hq
          · simpa using hq
          · rcases List.mem_cons.1 hq with rfl | hq
            · simp
            · rcases ih2 hq with h | h <;> simp [h]
      rcases this with rfl | hq
      · show p.1 < a; omega
      · exact h.1 q hq

theorem mem_rfInsert {l : RegFile} {a : Nat} {v : Word} {q : Nat × Word} : q ∈ rfInsert l a v ↔ q = (a, v) ∨ q ∈ l := by
  induction l with
  | nil => simp [rfInsert]
  | cons p t ih =>
    unfold rfInsert
    split
    · simp
    · rw [List.mem_cons, ih, List.mem_cons]; tauto

theorem rfWf_filter {l : RegFile} (p : Nat × Word → Bool) (h : rfWf l) : rfWf (l.filter p) :=
  ⟨h.1.filter p, fun q hq => h.2 q (List.mem_filter.1 hq).1⟩

theorem rfWf_insert {l : RegFile} {a : Nat} {v : Word} (h : rfWf l) (hn : ∀ p ∈ l, p.1 ≠ a) (hv : v ≠ regReset a) : rfWf (rfInsert l a v) :=
  ⟨rfInsert_pairwise l a v h.1 hn, fun q hq => by
    rcases mem_rfInsert.1 hq with rfl | hq
    · exact hv
    · exact h.2 q hq⟩

/-- A write keeps the canonical form of a register file. -/
theorem rfWf_write {l : RegFile} (a : Nat) (v : Word) (h : rfWf l) : rfWf (rfWrite l a v) := by
  unfold rfWrite
  split
  · exact rfWf_filter _ h
  · rename_i hv
    exact rfWf_insert (rfWf_filter _ h) (fun p hp => by simpa using (List.mem_filter.1 hp).2) hv

/-- Merging two canonical files keeps the form (R53). -/
theorem rfWf_merge (p : Nat → Bool) {src dst : RegFile} (hs : rfWf src) (hd : rfWf dst) : rfWf (rfMerge p src dst) := by
  unfold rfMerge
  have key : ∀ (l : RegFile) (d : RegFile), l.Pairwise (fun p q => p.1 < q.1) → (∀ q ∈ l, q.2 ≠ regReset q.1) → (∀ q ∈ l, ∀ r ∈ d, r.1 ≠ q.1) → rfWf d →
      rfWf (l.foldl (fun l c => rfInsert l c.1 c.2) d) := by
    intro l
    induction l with
    | nil => intro d _ _ _ h; exact h
    | cons c t ih =>
      intro d h1 h2 h3 h4
      rw [List.pairwise_cons] at h1
      refine ih _ h1.2 (fun q hq => h2 q (by simp [hq])) ?_ (rfWf_insert h4 (h3 c (by simp)) (h2 c (by simp)))
      intro q hq r hr
      rcases mem_rfInsert.1 hr with rfl | hr
      · exact Nat.ne_of_lt (h1.1 q hq)
      · exact h3 q (by simp [hq]) r hr
  have hf := rfWf_filter (fun c => p c.1) hs
  refine key _ _ hf.1 hf.2 ?_ (rfWf_filter _ hd)
  intro q hq r hr e
  have hq := (List.mem_filter.1 hq).2
  have hr := (List.mem_filter.1 hr).2
  rw [e] at hr
  simp [hq] at hr

theorem find_rfInsert {l : RegFile} {a : Nat} {v : Word} (hn : ∀ p ∈ l, p.1 ≠ a) (b : Nat) :
    (rfInsert l a v).find? (fun p => p.1 == b) = if b = a then some (a, v) else l.find? (fun p => p.1 == b) := by
  induction l with
  | nil =>
    simp only [rfInsert, List.find?]
    by_cases h : a = b
    · rw [if_pos h.symm, beq_iff_eq.2 h]
    · rw [if_neg (Ne.symm h), beq_eq_false_iff_ne.2 h]
  | cons p t ih =>
    have hp : p.1 ≠ a := hn p (by simp)
    unfold rfInsert
    split
    · rw [List.find?_cons]
      by_cases h : a = b
      · rw [if_pos h.symm, beq_iff_eq.2 h]
      · rw [if_neg (Ne.symm h), beq_eq_false_iff_ne.2 h]
    · rw [List.find?_cons, List.find?_cons, ih fun q hq => hn q (by simp [hq])]
      by_cases h : b = a
      · subst h; rw [beq_eq_false_iff_ne.2 hp, if_pos rfl]
      · rw [if_neg h, if_neg h]

theorem find_filter_ne (l : RegFile) {a b : Nat} (h : b ≠ a) : (l.filter fun p => p.1 != a).find? (fun p => p.1 == b) = l.find? fun p => p.1 == b := by
  rw [List.find?_filter]
  refine congrArg (fun f => l.find? f) (funext fun p => ?_)
  by_cases e : p.1 = b
  · simp [e, h]
  · simp [e]

theorem find_filter_eq (l : RegFile) (a : Nat) : (l.filter fun p => p.1 != a).find? (fun p => p.1 == a) = none := by
  rw [List.find?_filter, List.find?_eq_none]
  intro p _
  by_cases e : p.1 = a <;> simp [e]

/-- A register reads what was last written to it. -/
@[simp] theorem rfRead_write_same (l : RegFile) (a : Nat) (v : Word) : rfRead (rfWrite l a v) a = v := by
  unfold rfRead rfWrite
  by_cases h : v = regReset a
  · rw [if_pos h, find_filter_eq]; exact h.symm
  · rw [if_neg h, find_rfInsert fun p hp => by simpa using (List.mem_filter.1 hp).2]; simp

/-- A write leaves every other register alone. -/
theorem rfRead_write_ne (l : RegFile) {a b : Nat} (v : Word) (h : b ≠ a) : rfRead (rfWrite l a v) b = rfRead l b := by
  unfold rfRead rfWrite
  by_cases e : v = regReset a
  · rw [if_pos e, find_filter_ne l h]
  · rw [if_neg e, find_rfInsert fun p hp => by simpa using (List.mem_filter.1 hp).2, if_neg h, find_filter_ne l h]

/-! ### The stores -/

theorem mem_memInsert {l : List (Nat × Byte)} {a : Nat} {v : Byte} {q : Nat × Byte} : q ∈ memInsert l a v ↔ q = (a, v) ∨ q ∈ l := by
  induction l with
  | nil => simp [memInsert]
  | cons p t ih =>
    unfold memInsert
    split
    · simp
    · rw [List.mem_cons, ih, List.mem_cons]; tauto

theorem memInsert_pairwise (l : List (Nat × Byte)) (a : Nat) (v : Byte) (h : l.Pairwise (fun p q => p.1 < q.1)) (hn : ∀ p ∈ l, p.1 ≠ a) :
    (memInsert l a v).Pairwise (fun p q => p.1 < q.1) := by
  induction l with
  | nil => simp [memInsert]
  | cons p t ih =>
    rw [List.pairwise_cons] at h
    have hp : p.1 ≠ a := hn p (by simp)
    unfold memInsert
    by_cases hlt : a < p.1
    · rw [if_pos hlt, List.pairwise_cons, List.pairwise_cons]
      refine ⟨?_, h⟩
      intro q hq
      rcases List.mem_cons.1 hq with rfl | hq
      · exact hlt
      · exact Nat.lt_trans hlt (h.1 q hq)
    · rw [if_neg hlt, List.pairwise_cons]
      refine ⟨?_, ih h.2 fun q hq => hn q (by simp [hq])⟩
      intro q hq
      rcases mem_memInsert.1 hq with rfl | hq
      · show p.1 < a; omega
      · exact h.1 q hq

theorem memory_wf_filter {m : List (Nat × Byte)} (p : Nat × Byte → Bool) (h : Memory.wf m) : Memory.wf (m.filter p) :=
  ⟨h.1.filter p, fun q hq => h.2 q (List.mem_filter.1 hq).1⟩

/-- A write of one byte keeps the canonical form of the stores. -/
theorem memory_wf_write {m : List (Nat × Byte)} (a : Nat) (v : Byte) (h : Memory.wf m) : Memory.wf (memWrite m a v) := by
  unfold memWrite
  split
  · exact memory_wf_filter _ h
  · rename_i hv
    have hf := memory_wf_filter (fun p => p.1 != a) h
    refine ⟨memInsert_pairwise _ _ _ hf.1 fun p hp => by simpa using (List.mem_filter.1 hp).2, fun q hq => ?_⟩
    rcases mem_memInsert.1 hq with rfl | hq
    · exact hv
    · exact hf.2 q hq

theorem find_memInsert {l : List (Nat × Byte)} {a : Nat} {v : Byte} (hn : ∀ p ∈ l, p.1 ≠ a) (b : Nat) :
    (memInsert l a v).find? (fun p => p.1 == b) = if b = a then some (a, v) else l.find? (fun p => p.1 == b) := by
  induction l with
  | nil =>
    simp only [memInsert, List.find?]
    by_cases h : a = b
    · rw [if_pos h.symm, beq_iff_eq.2 h]
    · rw [if_neg (Ne.symm h), beq_eq_false_iff_ne.2 h]
  | cons p t ih =>
    have hp : p.1 ≠ a := hn p (by simp)
    unfold memInsert
    split
    · rw [List.find?_cons]
      by_cases h : a = b
      · rw [if_pos h.symm, beq_iff_eq.2 h]
      · rw [if_neg (Ne.symm h), beq_eq_false_iff_ne.2 h]
    · rw [List.find?_cons, List.find?_cons, ih fun q hq => hn q (by simp [hq])]
      by_cases h : b = a
      · subst h; rw [beq_eq_false_iff_ne.2 hp, if_pos rfl]
      · rw [if_neg h, if_neg h]

/-- A byte reads what was last written to it. -/
@[simp] theorem memRead_write_same (m : List (Nat × Byte)) (a : Nat) (v : Byte) : memRead (memWrite m a v) a = v := by
  unfold memRead memWrite
  by_cases h : v = 0#8
  · have : (m.filter fun p => p.1 != a).find? (fun p => p.1 == a) = none := by
      rw [List.find?_filter, List.find?_eq_none]
      intro p _
      by_cases e : p.1 = a <;> simp [e]
    rw [if_pos h, this]; exact h.symm
  · rw [if_neg h, find_memInsert fun p hp => by simpa using (List.mem_filter.1 hp).2]; simp

/-- A write of one byte leaves every other byte alone. -/
theorem memRead_write_ne (m : List (Nat × Byte)) {a b : Nat} (v : Byte) (h : b ≠ a) : memRead (memWrite m a v) b = memRead m b := by
  have hf : (m.filter fun p => p.1 != a).find? (fun p => p.1 == b) = m.find? fun p => p.1 == b := by
    rw [List.find?_filter]
    refine congrArg (fun f => m.find? f) (funext fun p => ?_)
    by_cases e : p.1 = b
    · simp [e, h]
    · simp [e]
  unfold memRead memWrite
  by_cases e : v = 0#8
  · rw [if_pos e, hf]
  · rw [if_neg e, find_memInsert fun p hp => by simpa using (List.mem_filter.1 hp).2, if_neg h, hf]

/-- The bytes that a write of `n` bytes at `a` leaves. -/
theorem memRead_putBytes (m : List (Nat × Byte)) (a n : Nat) (f : Nat → Byte) (b : Nat) :
    memRead ((List.range n).foldl (fun m i => memWrite m (a + i) (f i)) m) b = if a ≤ b ∧ b < a + n then f (b - a) else memRead m b := by
  induction n with
  | zero => simp
  | succ n ih =>
    rw [List.range_succ, List.foldl_append, List.foldl_cons, List.foldl_nil]
    by_cases h : b = a + n
    · subst h; simp
    · rw [memRead_write_ne _ _ h, ih]
      by_cases g : a ≤ b ∧ b < a + n
      · rw [if_pos g, if_pos ⟨g.1, by omega⟩]
      · rw [if_neg g, if_neg (by omega)]

theorem memory_wf_putBytes (a n : Nat) (f : Nat → Byte) {m : List (Nat × Byte)} (h : Memory.wf m) :
    Memory.wf ((List.range n).foldl (fun m i => memWrite m (a + i) (f i)) m) := by
  induction n with
  | zero => exact h
  | succ n ih =>
    rw [List.range_succ, List.foldl_append, List.foldl_cons, List.foldl_nil]
    exact memory_wf_write _ _ ih

/-! ### Fields of a word -/

theorem getBits_setBits_same (f : Field) (w : Word) (v : Nat) (hf : f.lo + f.width ≤ 32) : getBits f (setBits f w v) = v % 2 ^ f.width := by
  unfold getBits setBits
  have hlo := Nat.mod_lt w.toNat (Nat.two_pow_pos f.lo)
  have hv := Nat.mod_lt v (Nat.two_pow_pos f.width)
  have hw := w.isLt
  rw [BitVec.toNat_ofNat]
  have hpow : 2 ^ (f.lo + f.width) = 2 ^ f.lo * 2 ^ f.width := Nat.pow_add 2 f.lo f.width
  have h32 : (2 : Nat) ^ 32 = 2 ^ (f.lo + f.width) * 2 ^ (32 - (f.lo + f.width)) := by rw [← Nat.pow_add]; congr 1; omega
  have hq : w.toNat / 2 ^ (f.lo + f.width) < 2 ^ (32 - (f.lo + f.width)) := by
    rw [Nat.div_lt_iff_lt_mul (Nat.two_pow_pos _), Nat.mul_comm, ← h32]; exact hw
  have hsum : w.toNat % 2 ^ f.lo + v % 2 ^ f.width * 2 ^ f.lo < 2 ^ (f.lo + f.width) := by
    rw [hpow]
    have : v % 2 ^ f.width * 2 ^ f.lo + 2 ^ f.lo ≤ 2 ^ f.lo * 2 ^ f.width := by
      calc v % 2 ^ f.width * 2 ^ f.lo + 2 ^ f.lo = (v % 2 ^ f.width + 1) * 2 ^ f.lo := by ring
        _ ≤ 2 ^ f.width * 2 ^ f.lo := Nat.mul_le_mul_right _ hv
        _ = _ := Nat.mul_comm _ _
    omega
  have htot : w.toNat % 2 ^ f.lo + v % 2 ^ f.width * 2 ^ f.lo + w.toNat / 2 ^ (f.lo + f.width) * 2 ^ (f.lo + f.width) < 2 ^ 32 := by
    rw [h32]
    calc _ < 2 ^ (f.lo + f.width) + w.toNat / 2 ^ (f.lo + f.width) * 2 ^ (f.lo + f.width) := by omega
      _ = (w.toNat / 2 ^ (f.lo + f.width) + 1) * 2 ^ (f.lo + f.width) := by ring
      _ ≤ 2 ^ (32 - (f.lo + f.width)) * 2 ^ (f.lo + f.width) := Nat.mul_le_mul_right _ hq
      _ = _ := Nat.mul_comm _ _
  rw [Nat.mod_eq_of_lt htot]
  have e : w.toNat % 2 ^ f.lo + v % 2 ^ f.width * 2 ^ f.lo + w.toNat / 2 ^ (f.lo + f.width) * 2 ^ (f.lo + f.width)
      = w.toNat % 2 ^ f.lo + 2 ^ f.lo * (v % 2 ^ f.width + 2 ^ f.width * (w.toNat / 2 ^ (f.lo + f.width))) := by rw [hpow]; ring
  rw [e, Nat.add_mul_div_left _ _ (Nat.two_pow_pos _), Nat.div_eq_of_lt hlo, Nat.zero_add, Nat.add_mul_mod_self_left, Nat.mod_mod]

theorem setBits_toNat (f : Field) (w : Word) (v : Nat) (hf : f.lo + f.width ≤ 32) :
    (setBits f w v).toNat = w.toNat % 2 ^ f.lo + v % 2 ^ f.width * 2 ^ f.lo + w.toNat / 2 ^ (f.lo + f.width) * 2 ^ (f.lo + f.width) := by
  unfold setBits
  rw [BitVec.toNat_ofNat, Nat.mod_eq_of_lt]
  have hv := Nat.mod_lt v (Nat.two_pow_pos f.width)
  have hlo := Nat.mod_lt w.toNat (Nat.two_pow_pos f.lo)
  have hw := w.isLt
  have hpow : 2 ^ (f.lo + f.width) = 2 ^ f.lo * 2 ^ f.width := Nat.pow_add 2 f.lo f.width
  have h32 : (2 : Nat) ^ 32 = 2 ^ (f.lo + f.width) * 2 ^ (32 - (f.lo + f.width)) := by rw [← Nat.pow_add]; congr 1; omega
  have hq : w.toNat / 2 ^ (f.lo + f.width) < 2 ^ (32 - (f.lo + f.width)) := by
    rw [Nat.div_lt_iff_lt_mul (Nat.two_pow_pos _), Nat.mul_comm, ← h32]; exact hw
  have h1 : v % 2 ^ f.width * 2 ^ f.lo + 2 ^ f.lo ≤ 2 ^ (f.lo + f.width) := by
    rw [hpow]
    calc v % 2 ^ f.width * 2 ^ f.lo + 2 ^ f.lo = (v % 2 ^ f.width + 1) * 2 ^ f.lo := by ring
      _ ≤ 2 ^ f.width * 2 ^ f.lo := Nat.mul_le_mul_right _ hv
      _ = _ := Nat.mul_comm _ _
  calc _ < 2 ^ (f.lo + f.width) + w.toNat / 2 ^ (f.lo + f.width) * 2 ^ (f.lo + f.width) := by omega
    _ = (w.toNat / 2 ^ (f.lo + f.width) + 1) * 2 ^ (f.lo + f.width) := by ring
    _ ≤ 2 ^ (32 - (f.lo + f.width)) * 2 ^ (f.lo + f.width) := Nat.mul_le_mul_right _ hq
    _ = 2 ^ 32 := by rw [h32, Nat.mul_comm]

/-- A field replaced leaves the fields beside it alone. -/
theorem getBits_setBits_ne (f g : Field) (w : Word) (v : Nat) (hf : f.lo + f.width ≤ 32) (h : g.lo + g.width ≤ f.lo ∨ f.lo + f.width ≤ g.lo) :
    getBits g (setBits f w v) = getBits g w := by
  unfold getBits
  have key : ∀ i, g.lo ≤ i → i < g.lo + g.width → (setBits f w v).toNat.testBit i = w.toNat.testBit i := by
    intro i h1 h2
    rw [setBits_toNat f w v hf]
    have hlo := Nat.mod_lt w.toNat (Nat.two_pow_pos f.lo)
    have hv := Nat.mod_lt v (Nat.two_pow_pos f.width)
    have hpow : 2 ^ (f.lo + f.width) = 2 ^ f.lo * 2 ^ f.width := Nat.pow_add 2 f.lo f.width
    rcases h with h | h
    · have e : w.toNat % 2 ^ f.lo + v % 2 ^ f.width * 2 ^ f.lo + w.toNat / 2 ^ (f.lo + f.width) * 2 ^ (f.lo + f.width)
          = 2 ^ f.lo * (v % 2 ^ f.width + 2 ^ f.width * (w.toNat / 2 ^ (f.lo + f.width))) + w.toNat % 2 ^ f.lo := by rw [hpow]; ring
      rw [e, Nat.testBit_two_pow_mul_add _ hlo, if_pos (by omega), Nat.testBit_mod_two_pow]
      simp; intro; omega
    · have hs : w.toNat % 2 ^ f.lo + v % 2 ^ f.width * 2 ^ f.lo < 2 ^ (f.lo + f.width) := by
        rw [hpow]
        have : v % 2 ^ f.width * 2 ^ f.lo + 2 ^ f.lo ≤ 2 ^ f.lo * 2 ^ f.width := by
          calc v % 2 ^ f.width * 2 ^ f.lo + 2 ^ f.lo = (v % 2 ^ f.width + 1) * 2 ^ f.lo := by ring
            _ ≤ 2 ^ f.width * 2 ^ f.lo := Nat.mul_le_mul_right _ hv
            _ = _ := Nat.mul_comm _ _
        omega
      rw [Nat.add_comm, Nat.mul_comm (w.toNat / _), Nat.testBit_two_pow_mul_add _ hs, if_neg (by omega), Nat.testBit_div_two_pow]
      congr 1; omega
  apply Nat.eq_of_testBit_eq
  intro i
  rw [Nat.testBit_mod_two_pow, Nat.testBit_mod_two_pow, Nat.testBit_div_two_pow, Nat.testBit_div_two_pow]
  by_cases hi : i < g.width
  · rw [key (i + g.lo) (by omega) (by omega)]
  · simp [hi]

end Sys2Proof.Machine
end

