-- ==== Sys2Proof/Laws/State.lean ====
section
/-!
SUPPORT. What each small update of the state leaves: one lemma for each update and each field, so that no proof unfolds a record update; and the laws of reading a
register or a field after a write.
-/

namespace Sys2Proof.Machine

/-! ### `wr` -/

@[simp] theorem State.wr_now (s : State) (a : Nat) (v : Word) : (s.wr a v).now = s.now := rfl
@[simp] theorem State.wr_eff (s : State) (a : Nat) (v : Word) : (s.wr a v).eff = s.eff := rfl
@[simp] theorem State.wr_mem (s : State) (a : Nat) (v : Word) : (s.wr a v).mem = s.mem := rfl
@[simp] theorem State.wr_ecc (s : State) (a : Nat) (v : Word) : (s.wr a v).ecc = s.ecc := rfl
@[simp] theorem State.wr_resp (s : State) (a : Nat) (v : Word) : (s.wr a v).resp = s.resp := rfl
@[simp] theorem State.wr_out (s : State) (a : Nat) (v : Word) : (s.wr a v).out = s.out := rfl
@[simp] theorem State.wr_free (s : State) (a : Nat) (v : Word) : (s.wr a v).free = s.free := rfl
@[simp] theorem State.wr_flt (s : State) (a : Nat) (v : Word) : (s.wr a v).flt = s.flt := rfl
@[simp] theorem State.wr_evq (s : State) (a : Nat) (v : Word) : (s.wr a v).evq = s.evq := rfl
@[simp] theorem State.wr_stalled (s : State) (a : Nat) (v : Word) : (s.wr a v).stalled = s.stalled := rfl
@[simp] theorem State.wr_carPend (s : State) (a : Nat) (v : Word) : (s.wr a v).carPend = s.carPend := rfl
@[simp] theorem State.wr_carWas (s : State) (a : Nat) (v : Word) : (s.wr a v).carWas = s.carWas := rfl
@[simp] theorem State.wr_refcarDue (s : State) (a : Nat) (v : Word) : (s.wr a v).refcarDue = s.refcarDue := rfl
@[simp] theorem State.wr_rtc (s : State) (a : Nat) (v : Word) : (s.wr a v).rtc = s.rtc := rfl
@[simp] theorem State.wr_bfm (s : State) (a : Nat) (v : Word) : (s.wr a v).bfm = s.bfm := rfl
@[simp] theorem State.wr_rejoin (s : State) (a : Nat) (v : Word) : (s.wr a v).rejoin = s.rejoin := rfl
@[simp] theorem State.wr_slt (s : State) (a : Nat) (v : Word) : (s.wr a v).slt = s.slt := rfl
@[simp] theorem State.wr_dl (s : State) (a : Nat) (v : Word) : (s.wr a v).dl = s.dl := rfl
@[simp] theorem State.wr_tx (s : State) (a : Nat) (v : Word) : (s.wr a v).tx = s.tx := rfl
@[simp] theorem State.wr_txSwap (s : State) (a : Nat) (v : Word) : (s.wr a v).txSwap = s.txSwap := rfl
@[simp] theorem State.wr_rxSwap (s : State) (a : Nat) (v : Word) : (s.wr a v).rxSwap = s.rxSwap := rfl
@[simp] theorem State.wr_mute (s : State) (a : Nat) (v : Word) : (s.wr a v).mute = s.mute := rfl
@[simp] theorem State.wr_dpd (s : State) (a : Nat) (v : Word) : (s.wr a v).dpd = s.dpd := rfl
@[simp] theorem State.wr_rx (s : State) (a : Nat) (v : Word) : (s.wr a v).rx = s.rx := rfl
@[simp] theorem State.wr_prach (s : State) (a : Nat) (v : Word) : (s.wr a v).prach = s.prach := rfl
@[simp] theorem State.wr_prachOld (s : State) (a : Nat) (v : Word) : (s.wr a v).prachOld = s.prachOld := rfl
@[simp] theorem State.wr_praSets (s : State) (a : Nat) (v : Word) : (s.wr a v).praSets = s.praSets := rfl
@[simp] theorem State.wr_port (s : State) (a : Nat) (v : Word) : (s.wr a v).port = s.port := rfl
@[simp] theorem State.wr_lnk (s : State) (a : Nat) (v : Word) : (s.wr a v).lnk = s.lnk := rfl
@[simp] theorem State.wr_orx (s : State) (a : Nat) (v : Word) : (s.wr a v).orx = s.orx := rfl
@[simp] theorem State.wr_wch (s : State) (a : Nat) (v : Word) : (s.wr a v).wch = s.wch := rfl
@[simp] theorem State.wr_evu (s : State) (a : Nat) (v : Word) : (s.wr a v).evu = s.evu := rfl
@[simp] theorem State.wr_tim (s : State) (a : Nat) (v : Word) : (s.wr a v).tim = s.tim := rfl
@[simp] theorem State.wr_tly (s : State) (a : Nat) (v : Word) : (s.wr a v).tly = s.tly := rfl
@[simp] theorem State.wr_pll (s : State) (a : Nat) (v : Word) : (s.wr a v).pll = s.pll := rfl
@[simp] theorem State.wr_eng (s : State) (a : Nat) (v : Word) : (s.wr a v).eng = s.eng := rfl
@[simp] theorem State.wr_sto (s : State) (a : Nat) (v : Word) : (s.wr a v).sto = s.sto := rfl
@[simp] theorem State.wr_dma (s : State) (a : Nat) (v : Word) : (s.wr a v).dma = s.dma := rfl
@[simp] theorem State.wr_dmaPtr (s : State) (a : Nat) (v : Word) : (s.wr a v).dmaPtr = s.dmaPtr := rfl
@[simp] theorem State.wr_hpow (s : State) (a : Nat) (v : Word) : (s.wr a v).hpow = s.hpow := rfl
@[simp] theorem State.wr_pow (s : State) (a : Nat) (v : Word) : (s.wr a v).pow = s.pow := rfl
@[simp] theorem State.wr_clkOut (s : State) (a : Nat) (v : Word) : (s.wr a v).clkOut = s.clkOut := rfl
@[simp] theorem State.wr_thm (s : State) (a : Nat) (v : Word) : (s.wr a v).thm = s.thm := rfl
@[simp] theorem State.wr_hk (s : State) (a : Nat) (v : Word) : (s.wr a v).hk = s.hk := rfl
@[simp] theorem State.wr_bias (s : State) (a : Nat) (v : Word) : (s.wr a v).bias = s.bias := rfl
@[simp] theorem State.wr_cal (s : State) (a : Nat) (v : Word) : (s.wr a v).cal = s.cal := rfl
@[simp] theorem State.wr_bist (s : State) (a : Nat) (v : Word) : (s.wr a v).bist = s.bist := rfl
@[simp] theorem State.wr_stl (s : State) (a : Nat) (v : Word) : (s.wr a v).stl = s.stl := rfl
@[simp] theorem State.wr_bel (s : State) (a : Nat) (v : Word) : (s.wr a v).bel = s.bel := rfl
@[simp] theorem State.wr_agt (s : State) (a : Nat) (v : Word) : (s.wr a v).agt = s.agt := rfl
@[simp] theorem State.wr_boot (s : State) (a : Nat) (v : Word) : (s.wr a v).boot = s.boot := rfl
@[simp] theorem State.wr_calen (s : State) (a : Nat) (v : Word) : (s.wr a v).calen = s.calen := rfl
@[simp] theorem State.wr_tap (s : State) (a : Nat) (v : Word) : (s.wr a v).tap = s.tap := rfl
@[simp] theorem State.wr_edges (s : State) (a : Nat) (v : Word) : (s.wr a v).edges = s.edges := rfl
@[simp] theorem State.wr_pending (s : State) (a : Nat) (v : Word) : (s.wr a v).pending = s.pending := rfl

/-! ### `put` -/

@[simp] theorem State.put_now (s : State) (f : Field) (v : Nat) : (s.put f v).now = s.now := rfl
@[simp] theorem State.put_eff (s : State) (f : Field) (v : Nat) : (s.put f v).eff = s.eff := rfl
@[simp] theorem State.put_mem (s : State) (f : Field) (v : Nat) : (s.put f v).mem = s.mem := rfl
@[simp] theorem State.put_ecc (s : State) (f : Field) (v : Nat) : (s.put f v).ecc = s.ecc := rfl
@[simp] theorem State.put_resp (s : State) (f : Field) (v : Nat) : (s.put f v).resp = s.resp := rfl
@[simp] theorem State.put_out (s : State) (f : Field) (v : Nat) : (s.put f v).out = s.out := rfl
@[simp] theorem State.put_free (s : State) (f : Field) (v : Nat) : (s.put f v).free = s.free := rfl
@[simp] theorem State.put_flt (s : State) (f : Field) (v : Nat) : (s.put f v).flt = s.flt := rfl
@[simp] theorem State.put_evq (s : State) (f : Field) (v : Nat) : (s.put f v).evq = s.evq := rfl
@[simp] theorem State.put_stalled (s : State) (f : Field) (v : Nat) : (s.put f v).stalled = s.stalled := rfl
@[simp] theorem State.put_carPend (s : State) (f : Field) (v : Nat) : (s.put f v).carPend = s.carPend := rfl
@[simp] theorem State.put_carWas (s : State) (f : Field) (v : Nat) : (s.put f v).carWas = s.carWas := rfl
@[simp] theorem State.put_refcarDue (s : State) (f : Field) (v : Nat) : (s.put f v).refcarDue = s.refcarDue := rfl
@[simp] theorem State.put_rtc (s : State) (f : Field) (v : Nat) : (s.put f v).rtc = s.rtc := rfl
@[simp] theorem State.put_bfm (s : State) (f : Field) (v : Nat) : (s.put f v).bfm = s.bfm := rfl
@[simp] theorem State.put_rejoin (s : State) (f : Field) (v : Nat) : (s.put f v).rejoin = s.rejoin := rfl
@[simp] theorem State.put_slt (s : State) (f : Field) (v : Nat) : (s.put f v).slt = s.slt := rfl
@[simp] theorem State.put_dl (s : State) (f : Field) (v : Nat) : (s.put f v).dl = s.dl := rfl
@[simp] theorem State.put_tx (s : State) (f : Field) (v : Nat) : (s.put f v).tx = s.tx := rfl
@[simp] theorem State.put_txSwap (s : State) (f : Field) (v : Nat) : (s.put f v).txSwap = s.txSwap := rfl
@[simp] theorem State.put_rxSwap (s : State) (f : Field) (v : Nat) : (s.put f v).rxSwap = s.rxSwap := rfl
@[simp] theorem State.put_mute (s : State) (f : Field) (v : Nat) : (s.put f v).mute = s.mute := rfl
@[simp] theorem State.put_dpd (s : State) (f : Field) (v : Nat) : (s.put f v).dpd = s.dpd := rfl
@[simp] theorem State.put_rx (s : State) (f : Field) (v : Nat) : (s.put f v).rx = s.rx := rfl
@[simp] theorem State.put_prach (s : State) (f : Field) (v : Nat) : (s.put f v).prach = s.prach := rfl
@[simp] theorem State.put_prachOld (s : State) (f : Field) (v : Nat) : (s.put f v).prachOld = s.prachOld := rfl
@[simp] theorem State.put_praSets (s : State) (f : Field) (v : Nat) : (s.put f v).praSets = s.praSets := rfl
@[simp] theorem State.put_port (s : State) (f : Field) (v : Nat) : (s.put f v).port = s.port := rfl
@[simp] theorem State.put_lnk (s : State) (f : Field) (v : Nat) : (s.put f v).lnk = s.lnk := rfl
@[simp] theorem State.put_orx (s : State) (f : Field) (v : Nat) : (s.put f v).orx = s.orx := rfl
@[simp] theorem State.put_wch (s : State) (f : Field) (v : Nat) : (s.put f v).wch = s.wch := rfl
@[simp] theorem State.put_evu (s : State) (f : Field) (v : Nat) : (s.put f v).evu = s.evu := rfl
@[simp] theorem State.put_tim (s : State) (f : Field) (v : Nat) : (s.put f v).tim = s.tim := rfl
@[simp] theorem State.put_tly (s : State) (f : Field) (v : Nat) : (s.put f v).tly = s.tly := rfl
@[simp] theorem State.put_pll (s : State) (f : Field) (v : Nat) : (s.put f v).pll = s.pll := rfl
@[simp] theorem State.put_eng (s : State) (f : Field) (v : Nat) : (s.put f v).eng = s.eng := rfl
@[simp] theorem State.put_sto (s : State) (f : Field) (v : Nat) : (s.put f v).sto = s.sto := rfl
@[simp] theorem State.put_dma (s : State) (f : Field) (v : Nat) : (s.put f v).dma = s.dma := rfl
@[simp] theorem State.put_dmaPtr (s : State) (f : Field) (v : Nat) : (s.put f v).dmaPtr = s.dmaPtr := rfl
@[simp] theorem State.put_hpow (s : State) (f : Field) (v : Nat) : (s.put f v).hpow = s.hpow := rfl
@[simp] theorem State.put_pow (s : State) (f : Field) (v : Nat) : (s.put f v).pow = s.pow := rfl
@[simp] theorem State.put_clkOut (s : State) (f : Field) (v : Nat) : (s.put f v).clkOut = s.clkOut := rfl
@[simp] theorem State.put_thm (s : State) (f : Field) (v : Nat) : (s.put f v).thm = s.thm := rfl
@[simp] theorem State.put_hk (s : State) (f : Field) (v : Nat) : (s.put f v).hk = s.hk := rfl
@[simp] theorem State.put_bias (s : State) (f : Field) (v : Nat) : (s.put f v).bias = s.bias := rfl
@[simp] theorem State.put_cal (s : State) (f : Field) (v : Nat) : (s.put f v).cal = s.cal := rfl
@[simp] theorem State.put_bist (s : State) (f : Field) (v : Nat) : (s.put f v).bist = s.bist := rfl
@[simp] theorem State.put_stl (s : State) (f : Field) (v : Nat) : (s.put f v).stl = s.stl := rfl
@[simp] theorem State.put_bel (s : State) (f : Field) (v : Nat) : (s.put f v).bel = s.bel := rfl
@[simp] theorem State.put_agt (s : State) (f : Field) (v : Nat) : (s.put f v).agt = s.agt := rfl
@[simp] theorem State.put_boot (s : State) (f : Field) (v : Nat) : (s.put f v).boot = s.boot := rfl
@[simp] theorem State.put_calen (s : State) (f : Field) (v : Nat) : (s.put f v).calen = s.calen := rfl
@[simp] theorem State.put_tap (s : State) (f : Field) (v : Nat) : (s.put f v).tap = s.tap := rfl
@[simp] theorem State.put_edges (s : State) (f : Field) (v : Nat) : (s.put f v).edges = s.edges := rfl
@[simp] theorem State.put_pending (s : State) (f : Field) (v : Nat) : (s.put f v).pending = s.pending := rfl

/-! ### `ewr` -/

@[simp] theorem State.ewr_now (s : State) (a : Nat) (v : Word) : (s.ewr a v).now = s.now := rfl
@[simp] theorem State.ewr_regs (s : State) (a : Nat) (v : Word) : (s.ewr a v).regs = s.regs := rfl
@[simp] theorem State.ewr_mem (s : State) (a : Nat) (v : Word) : (s.ewr a v).mem = s.mem := rfl
@[simp] theorem State.ewr_ecc (s : State) (a : Nat) (v : Word) : (s.ewr a v).ecc = s.ecc := rfl
@[simp] theorem State.ewr_resp (s : State) (a : Nat) (v : Word) : (s.ewr a v).resp = s.resp := rfl
@[simp] theorem State.ewr_out (s : State) (a : Nat) (v : Word) : (s.ewr a v).out = s.out := rfl
@[simp] theorem State.ewr_free (s : State) (a : Nat) (v : Word) : (s.ewr a v).free = s.free := rfl
@[simp] theorem State.ewr_flt (s : State) (a : Nat) (v : Word) : (s.ewr a v).flt = s.flt := rfl
@[simp] theorem State.ewr_evq (s : State) (a : Nat) (v : Word) : (s.ewr a v).evq = s.evq := rfl
@[simp] theorem State.ewr_stalled (s : State) (a : Nat) (v : Word) : (s.ewr a v).stalled = s.stalled := rfl
@[simp] theorem State.ewr_carPend (s : State) (a : Nat) (v : Word) : (s.ewr a v).carPend = s.carPend := rfl
@[simp] theorem State.ewr_carWas (s : State) (a : Nat) (v : Word) : (s.ewr a v).carWas = s.carWas := rfl
@[simp] theorem State.ewr_refcarDue (s : State) (a : Nat) (v : Word) : (s.ewr a v).refcarDue = s.refcarDue := rfl
@[simp] theorem State.ewr_rtc (s : State) (a : Nat) (v : Word) : (s.ewr a v).rtc = s.rtc := rfl
@[simp] theorem State.ewr_bfm (s : State) (a : Nat) (v : Word) : (s.ewr a v).bfm = s.bfm := rfl
@[simp] theorem State.ewr_rejoin (s : State) (a : Nat) (v : Word) : (s.ewr a v).rejoin = s.rejoin := rfl
@[simp] theorem State.ewr_slt (s : State) (a : Nat) (v : Word) : (s.ewr a v).slt = s.slt := rfl
@[simp] theorem State.ewr_dl (s : State) (a : Nat) (v : Word) : (s.ewr a v).dl = s.dl := rfl
@[simp] theorem State.ewr_tx (s : State) (a : Nat) (v : Word) : (s.ewr a v).tx = s.tx := rfl
@[simp] theorem State.ewr_txSwap (s : State) (a : Nat) (v : Word) : (s.ewr a v).txSwap = s.txSwap := rfl
@[simp] theorem State.ewr_rxSwap (s : State) (a : Nat) (v : Word) : (s.ewr a v).rxSwap = s.rxSwap := rfl
@[simp] theorem State.ewr_mute (s : State) (a : Nat) (v : Word) : (s.ewr a v).mute = s.mute := rfl
@[simp] theorem State.ewr_dpd (s : State) (a : Nat) (v : Word) : (s.ewr a v).dpd = s.dpd := rfl
@[simp] theorem State.ewr_rx (s : State) (a : Nat) (v : Word) : (s.ewr a v).rx = s.rx := rfl
@[simp] theorem State.ewr_prach (s : State) (a : Nat) (v : Word) : (s.ewr a v).prach = s.prach := rfl
@[simp] theorem State.ewr_prachOld (s : State) (a : Nat) (v : Word) : (s.ewr a v).prachOld = s.prachOld := rfl
@[simp] theorem State.ewr_praSets (s : State) (a : Nat) (v : Word) : (s.ewr a v).praSets = s.praSets := rfl
@[simp] theorem State.ewr_port (s : State) (a : Nat) (v : Word) : (s.ewr a v).port = s.port := rfl
@[simp] theorem State.ewr_lnk (s : State) (a : Nat) (v : Word) : (s.ewr a v).lnk = s.lnk := rfl
@[simp] theorem State.ewr_orx (s : State) (a : Nat) (v : Word) : (s.ewr a v).orx = s.orx := rfl
@[simp] theorem State.ewr_wch (s : State) (a : Nat) (v : Word) : (s.ewr a v).wch = s.wch := rfl
@[simp] theorem State.ewr_evu (s : State) (a : Nat) (v : Word) : (s.ewr a v).evu = s.evu := rfl
@[simp] theorem State.ewr_tim (s : State) (a : Nat) (v : Word) : (s.ewr a v).tim = s.tim := rfl
@[simp] theorem State.ewr_tly (s : State) (a : Nat) (v : Word) : (s.ewr a v).tly = s.tly := rfl
@[simp] theorem State.ewr_pll (s : State) (a : Nat) (v : Word) : (s.ewr a v).pll = s.pll := rfl
@[simp] theorem State.ewr_eng (s : State) (a : Nat) (v : Word) : (s.ewr a v).eng = s.eng := rfl
@[simp] theorem State.ewr_sto (s : State) (a : Nat) (v : Word) : (s.ewr a v).sto = s.sto := rfl
@[simp] theorem State.ewr_dma (s : State) (a : Nat) (v : Word) : (s.ewr a v).dma = s.dma := rfl
@[simp] theorem State.ewr_dmaPtr (s : State) (a : Nat) (v : Word) : (s.ewr a v).dmaPtr = s.dmaPtr := rfl
@[simp] theorem State.ewr_hpow (s : State) (a : Nat) (v : Word) : (s.ewr a v).hpow = s.hpow := rfl
@[simp] theorem State.ewr_pow (s : State) (a : Nat) (v : Word) : (s.ewr a v).pow = s.pow := rfl
@[simp] theorem State.ewr_clkOut (s : State) (a : Nat) (v : Word) : (s.ewr a v).clkOut = s.clkOut := rfl
@[simp] theorem State.ewr_thm (s : State) (a : Nat) (v : Word) : (s.ewr a v).thm = s.thm := rfl
@[simp] theorem State.ewr_hk (s : State) (a : Nat) (v : Word) : (s.ewr a v).hk = s.hk := rfl
@[simp] theorem State.ewr_bias (s : State) (a : Nat) (v : Word) : (s.ewr a v).bias = s.bias := rfl
@[simp] theorem State.ewr_cal (s : State) (a : Nat) (v : Word) : (s.ewr a v).cal = s.cal := rfl
@[simp] theorem State.ewr_bist (s : State) (a : Nat) (v : Word) : (s.ewr a v).bist = s.bist := rfl
@[simp] theorem State.ewr_stl (s : State) (a : Nat) (v : Word) : (s.ewr a v).stl = s.stl := rfl
@[simp] theorem State.ewr_bel (s : State) (a : Nat) (v : Word) : (s.ewr a v).bel = s.bel := rfl
@[simp] theorem State.ewr_agt (s : State) (a : Nat) (v : Word) : (s.ewr a v).agt = s.agt := rfl
@[simp] theorem State.ewr_boot (s : State) (a : Nat) (v : Word) : (s.ewr a v).boot = s.boot := rfl
@[simp] theorem State.ewr_calen (s : State) (a : Nat) (v : Word) : (s.ewr a v).calen = s.calen := rfl
@[simp] theorem State.ewr_tap (s : State) (a : Nat) (v : Word) : (s.ewr a v).tap = s.tap := rfl
@[simp] theorem State.ewr_edges (s : State) (a : Nat) (v : Word) : (s.ewr a v).edges = s.edges := rfl
@[simp] theorem State.ewr_pending (s : State) (a : Nat) (v : Word) : (s.ewr a v).pending = s.pending := rfl

/-! ### `at` -/

@[simp] theorem State.at_regs (s : State) (t : Nat) : (s.at t).regs = s.regs := rfl
@[simp] theorem State.at_eff (s : State) (t : Nat) : (s.at t).eff = s.eff := rfl
@[simp] theorem State.at_mem (s : State) (t : Nat) : (s.at t).mem = s.mem := rfl
@[simp] theorem State.at_ecc (s : State) (t : Nat) : (s.at t).ecc = s.ecc := rfl
@[simp] theorem State.at_resp (s : State) (t : Nat) : (s.at t).resp = s.resp := rfl
@[simp] theorem State.at_out (s : State) (t : Nat) : (s.at t).out = s.out := rfl
@[simp] theorem State.at_free (s : State) (t : Nat) : (s.at t).free = s.free := rfl
@[simp] theorem State.at_flt (s : State) (t : Nat) : (s.at t).flt = s.flt := rfl
@[simp] theorem State.at_evq (s : State) (t : Nat) : (s.at t).evq = s.evq := rfl
@[simp] theorem State.at_stalled (s : State) (t : Nat) : (s.at t).stalled = s.stalled := rfl
@[simp] theorem State.at_carPend (s : State) (t : Nat) : (s.at t).carPend = s.carPend := rfl
@[simp] theorem State.at_carWas (s : State) (t : Nat) : (s.at t).carWas = s.carWas := rfl
@[simp] theorem State.at_refcarDue (s : State) (t : Nat) : (s.at t).refcarDue = s.refcarDue := rfl
@[simp] theorem State.at_rtc (s : State) (t : Nat) : (s.at t).rtc = s.rtc := rfl
@[simp] theorem State.at_bfm (s : State) (t : Nat) : (s.at t).bfm = s.bfm := rfl
@[simp] theorem State.at_rejoin (s : State) (t : Nat) : (s.at t).rejoin = s.rejoin := rfl
@[simp] theorem State.at_slt (s : State) (t : Nat) : (s.at t).slt = s.slt := rfl
@[simp] theorem State.at_dl (s : State) (t : Nat) : (s.at t).dl = s.dl := rfl
@[simp] theorem State.at_tx (s : State) (t : Nat) : (s.at t).tx = s.tx := rfl
@[simp] theorem State.at_txSwap (s : State) (t : Nat) : (s.at t).txSwap = s.txSwap := rfl
@[simp] theorem State.at_rxSwap (s : State) (t : Nat) : (s.at t).rxSwap = s.rxSwap := rfl
@[simp] theorem State.at_mute (s : State) (t : Nat) : (s.at t).mute = s.mute := rfl
@[simp] theorem State.at_dpd (s : State) (t : Nat) : (s.at t).dpd = s.dpd := rfl
@[simp] theorem State.at_rx (s : State) (t : Nat) : (s.at t).rx = s.rx := rfl
@[simp] theorem State.at_prach (s : State) (t : Nat) : (s.at t).prach = s.prach := rfl
@[simp] theorem State.at_prachOld (s : State) (t : Nat) : (s.at t).prachOld = s.prachOld := rfl
@[simp] theorem State.at_praSets (s : State) (t : Nat) : (s.at t).praSets = s.praSets := rfl
@[simp] theorem State.at_port (s : State) (t : Nat) : (s.at t).port = s.port := rfl
@[simp] theorem State.at_lnk (s : State) (t : Nat) : (s.at t).lnk = s.lnk := rfl
@[simp] theorem State.at_orx (s : State) (t : Nat) : (s.at t).orx = s.orx := rfl
@[simp] theorem State.at_wch (s : State) (t : Nat) : (s.at t).wch = s.wch := rfl
@[simp] theorem State.at_evu (s : State) (t : Nat) : (s.at t).evu = s.evu := rfl
@[simp] theorem State.at_tim (s : State) (t : Nat) : (s.at t).tim = s.tim := rfl
@[simp] theorem State.at_tly (s : State) (t : Nat) : (s.at t).tly = s.tly := rfl
@[simp] theorem State.at_pll (s : State) (t : Nat) : (s.at t).pll = s.pll := rfl
@[simp] theorem State.at_eng (s : State) (t : Nat) : (s.at t).eng = s.eng := rfl
@[simp] theorem State.at_sto (s : State) (t : Nat) : (s.at t).sto = s.sto := rfl
@[simp] theorem State.at_dma (s : State) (t : Nat) : (s.at t).dma = s.dma := rfl
@[simp] theorem State.at_dmaPtr (s : State) (t : Nat) : (s.at t).dmaPtr = s.dmaPtr := rfl
@[simp] theorem State.at_hpow (s : State) (t : Nat) : (s.at t).hpow = s.hpow := rfl
@[simp] theorem State.at_pow (s : State) (t : Nat) : (s.at t).pow = s.pow := rfl
@[simp] theorem State.at_clkOut (s : State) (t : Nat) : (s.at t).clkOut = s.clkOut := rfl
@[simp] theorem State.at_thm (s : State) (t : Nat) : (s.at t).thm = s.thm := rfl
@[simp] theorem State.at_hk (s : State) (t : Nat) : (s.at t).hk = s.hk := rfl
@[simp] theorem State.at_bias (s : State) (t : Nat) : (s.at t).bias = s.bias := rfl
@[simp] theorem State.at_cal (s : State) (t : Nat) : (s.at t).cal = s.cal := rfl
@[simp] theorem State.at_bist (s : State) (t : Nat) : (s.at t).bist = s.bist := rfl
@[simp] theorem State.at_stl (s : State) (t : Nat) : (s.at t).stl = s.stl := rfl
@[simp] theorem State.at_bel (s : State) (t : Nat) : (s.at t).bel = s.bel := rfl
@[simp] theorem State.at_agt (s : State) (t : Nat) : (s.at t).agt = s.agt := rfl
@[simp] theorem State.at_boot (s : State) (t : Nat) : (s.at t).boot = s.boot := rfl
@[simp] theorem State.at_calen (s : State) (t : Nat) : (s.at t).calen = s.calen := rfl
@[simp] theorem State.at_tap (s : State) (t : Nat) : (s.at t).tap = s.tap := rfl
@[simp] theorem State.at_edges (s : State) (t : Nat) : (s.at t).edges = s.edges := rfl
@[simp] theorem State.at_pending (s : State) (t : Nat) : (s.at t).pending = s.pending := rfl

/-! ### `emit` -/

@[simp] theorem State.emit_now (s : State) (o : Out) : (s.emit o).now = s.now := rfl
@[simp] theorem State.emit_regs (s : State) (o : Out) : (s.emit o).regs = s.regs := rfl
@[simp] theorem State.emit_eff (s : State) (o : Out) : (s.emit o).eff = s.eff := rfl
@[simp] theorem State.emit_mem (s : State) (o : Out) : (s.emit o).mem = s.mem := rfl
@[simp] theorem State.emit_ecc (s : State) (o : Out) : (s.emit o).ecc = s.ecc := rfl
@[simp] theorem State.emit_resp (s : State) (o : Out) : (s.emit o).resp = s.resp := rfl
@[simp] theorem State.emit_free (s : State) (o : Out) : (s.emit o).free = s.free := rfl
@[simp] theorem State.emit_flt (s : State) (o : Out) : (s.emit o).flt = s.flt := rfl
@[simp] theorem State.emit_evq (s : State) (o : Out) : (s.emit o).evq = s.evq := rfl
@[simp] theorem State.emit_stalled (s : State) (o : Out) : (s.emit o).stalled = s.stalled := rfl
@[simp] theorem State.emit_carPend (s : State) (o : Out) : (s.emit o).carPend = s.carPend := rfl
@[simp] theorem State.emit_carWas (s : State) (o : Out) : (s.emit o).carWas = s.carWas := rfl
@[simp] theorem State.emit_refcarDue (s : State) (o : Out) : (s.emit o).refcarDue = s.refcarDue := rfl
@[simp] theorem State.emit_rtc (s : State) (o : Out) : (s.emit o).rtc = s.rtc := rfl
@[simp] theorem State.emit_bfm (s : State) (o : Out) : (s.emit o).bfm = s.bfm := rfl
@[simp] theorem State.emit_rejoin (s : State) (o : Out) : (s.emit o).rejoin = s.rejoin := rfl
@[simp] theorem State.emit_slt (s : State) (o : Out) : (s.emit o).slt = s.slt := rfl
@[simp] theorem State.emit_dl (s : State) (o : Out) : (s.emit o).dl = s.dl := rfl
@[simp] theorem State.emit_tx (s : State) (o : Out) : (s.emit o).tx = s.tx := rfl
@[simp] theorem State.emit_txSwap (s : State) (o : Out) : (s.emit o).txSwap = s.txSwap := rfl
@[simp] theorem State.emit_rxSwap (s : State) (o : Out) : (s.emit o).rxSwap = s.rxSwap := rfl
@[simp] theorem State.emit_mute (s : State) (o : Out) : (s.emit o).mute = s.mute := rfl
@[simp] theorem State.emit_dpd (s : State) (o : Out) : (s.emit o).dpd = s.dpd := rfl
@[simp] theorem State.emit_rx (s : State) (o : Out) : (s.emit o).rx = s.rx := rfl
@[simp] theorem State.emit_prach (s : State) (o : Out) : (s.emit o).prach = s.prach := rfl
@[simp] theorem State.emit_prachOld (s : State) (o : Out) : (s.emit o).prachOld = s.prachOld := rfl
@[simp] theorem State.emit_praSets (s : State) (o : Out) : (s.emit o).praSets = s.praSets := rfl
@[simp] theorem State.emit_port (s : State) (o : Out) : (s.emit o).port = s.port := rfl
@[simp] theorem State.emit_lnk (s : State) (o : Out) : (s.emit o).lnk = s.lnk := rfl
@[simp] theorem State.emit_orx (s : State) (o : Out) : (s.emit o).orx = s.orx := rfl
@[simp] theorem State.emit_wch (s : State) (o : Out) : (s.emit o).wch = s.wch := rfl
@[simp] theorem State.emit_evu (s : State) (o : Out) : (s.emit o).evu = s.evu := rfl
@[simp] theorem State.emit_tim (s : State) (o : Out) : (s.emit o).tim = s.tim := rfl
@[simp] theorem State.emit_tly (s : State) (o : Out) : (s.emit o).tly = s.tly := rfl
@[simp] theorem State.emit_pll (s : State) (o : Out) : (s.emit o).pll = s.pll := rfl
@[simp] theorem State.emit_eng (s : State) (o : Out) : (s.emit o).eng = s.eng := rfl
@[simp] theorem State.emit_sto (s : State) (o : Out) : (s.emit o).sto = s.sto := rfl
@[simp] theorem State.emit_dma (s : State) (o : Out) : (s.emit o).dma = s.dma := rfl
@[simp] theorem State.emit_dmaPtr (s : State) (o : Out) : (s.emit o).dmaPtr = s.dmaPtr := rfl
@[simp] theorem State.emit_hpow (s : State) (o : Out) : (s.emit o).hpow = s.hpow := rfl
@[simp] theorem State.emit_pow (s : State) (o : Out) : (s.emit o).pow = s.pow := rfl
@[simp] theorem State.emit_clkOut (s : State) (o : Out) : (s.emit o).clkOut = s.clkOut := rfl
@[simp] theorem State.emit_thm (s : State) (o : Out) : (s.emit o).thm = s.thm := rfl
@[simp] theorem State.emit_hk (s : State) (o : Out) : (s.emit o).hk = s.hk := rfl
@[simp] theorem State.emit_bias (s : State) (o : Out) : (s.emit o).bias = s.bias := rfl
@[simp] theorem State.emit_cal (s : State) (o : Out) : (s.emit o).cal = s.cal := rfl
@[simp] theorem State.emit_bist (s : State) (o : Out) : (s.emit o).bist = s.bist := rfl
@[simp] theorem State.emit_stl (s : State) (o : Out) : (s.emit o).stl = s.stl := rfl
@[simp] theorem State.emit_bel (s : State) (o : Out) : (s.emit o).bel = s.bel := rfl
@[simp] theorem State.emit_agt (s : State) (o : Out) : (s.emit o).agt = s.agt := rfl
@[simp] theorem State.emit_boot (s : State) (o : Out) : (s.emit o).boot = s.boot := rfl
@[simp] theorem State.emit_calen (s : State) (o : Out) : (s.emit o).calen = s.calen := rfl
@[simp] theorem State.emit_tap (s : State) (o : Out) : (s.emit o).tap = s.tap := rfl
@[simp] theorem State.emit_edges (s : State) (o : Out) : (s.emit o).edges = s.edges := rfl
@[simp] theorem State.emit_pending (s : State) (o : Out) : (s.emit o).pending = s.pending := rfl

/-! ### `ok` -/

@[simp] theorem State.ok_now (s : State) : (s.ok).now = s.now := rfl
@[simp] theorem State.ok_regs (s : State) : (s.ok).regs = s.regs := rfl
@[simp] theorem State.ok_eff (s : State) : (s.ok).eff = s.eff := rfl
@[simp] theorem State.ok_mem (s : State) : (s.ok).mem = s.mem := rfl
@[simp] theorem State.ok_ecc (s : State) : (s.ok).ecc = s.ecc := rfl
@[simp] theorem State.ok_out (s : State) : (s.ok).out = s.out := rfl
@[simp] theorem State.ok_free (s : State) : (s.ok).free = s.free := rfl
@[simp] theorem State.ok_flt (s : State) : (s.ok).flt = s.flt := rfl
@[simp] theorem State.ok_evq (s : State) : (s.ok).evq = s.evq := rfl
@[simp] theorem State.ok_stalled (s : State) : (s.ok).stalled = s.stalled := rfl
@[simp] theorem State.ok_carPend (s : State) : (s.ok).carPend = s.carPend := rfl
@[simp] theorem State.ok_carWas (s : State) : (s.ok).carWas = s.carWas := rfl
@[simp] theorem State.ok_refcarDue (s : State) : (s.ok).refcarDue = s.refcarDue := rfl
@[simp] theorem State.ok_rtc (s : State) : (s.ok).rtc = s.rtc := rfl
@[simp] theorem State.ok_bfm (s : State) : (s.ok).bfm = s.bfm := rfl
@[simp] theorem State.ok_rejoin (s : State) : (s.ok).rejoin = s.rejoin := rfl
@[simp] theorem State.ok_slt (s : State) : (s.ok).slt = s.slt := rfl
@[simp] theorem State.ok_dl (s : State) : (s.ok).dl = s.dl := rfl
@[simp] theorem State.ok_tx (s : State) : (s.ok).tx = s.tx := rfl
@[simp] theorem State.ok_txSwap (s : State) : (s.ok).txSwap = s.txSwap := rfl
@[simp] theorem State.ok_rxSwap (s : State) : (s.ok).rxSwap = s.rxSwap := rfl
@[simp] theorem State.ok_mute (s : State) : (s.ok).mute = s.mute := rfl
@[simp] theorem State.ok_dpd (s : State) : (s.ok).dpd = s.dpd := rfl
@[simp] theorem State.ok_rx (s : State) : (s.ok).rx = s.rx := rfl
@[simp] theorem State.ok_prach (s : State) : (s.ok).prach = s.prach := rfl
@[simp] theorem State.ok_prachOld (s : State) : (s.ok).prachOld = s.prachOld := rfl
@[simp] theorem State.ok_praSets (s : State) : (s.ok).praSets = s.praSets := rfl
@[simp] theorem State.ok_port (s : State) : (s.ok).port = s.port := rfl
@[simp] theorem State.ok_lnk (s : State) : (s.ok).lnk = s.lnk := rfl
@[simp] theorem State.ok_orx (s : State) : (s.ok).orx = s.orx := rfl
@[simp] theorem State.ok_wch (s : State) : (s.ok).wch = s.wch := rfl
@[simp] theorem State.ok_evu (s : State) : (s.ok).evu = s.evu := rfl
@[simp] theorem State.ok_tim (s : State) : (s.ok).tim = s.tim := rfl
@[simp] theorem State.ok_tly (s : State) : (s.ok).tly = s.tly := rfl
@[simp] theorem State.ok_pll (s : State) : (s.ok).pll = s.pll := rfl
@[simp] theorem State.ok_eng (s : State) : (s.ok).eng = s.eng := rfl
@[simp] theorem State.ok_sto (s : State) : (s.ok).sto = s.sto := rfl
@[simp] theorem State.ok_dma (s : State) : (s.ok).dma = s.dma := rfl
@[simp] theorem State.ok_dmaPtr (s : State) : (s.ok).dmaPtr = s.dmaPtr := rfl
@[simp] theorem State.ok_hpow (s : State) : (s.ok).hpow = s.hpow := rfl
@[simp] theorem State.ok_pow (s : State) : (s.ok).pow = s.pow := rfl
@[simp] theorem State.ok_clkOut (s : State) : (s.ok).clkOut = s.clkOut := rfl
@[simp] theorem State.ok_thm (s : State) : (s.ok).thm = s.thm := rfl
@[simp] theorem State.ok_hk (s : State) : (s.ok).hk = s.hk := rfl
@[simp] theorem State.ok_bias (s : State) : (s.ok).bias = s.bias := rfl
@[simp] theorem State.ok_cal (s : State) : (s.ok).cal = s.cal := rfl
@[simp] theorem State.ok_bist (s : State) : (s.ok).bist = s.bist := rfl
@[simp] theorem State.ok_stl (s : State) : (s.ok).stl = s.stl := rfl
@[simp] theorem State.ok_bel (s : State) : (s.ok).bel = s.bel := rfl
@[simp] theorem State.ok_agt (s : State) : (s.ok).agt = s.agt := rfl
@[simp] theorem State.ok_boot (s : State) : (s.ok).boot = s.boot := rfl
@[simp] theorem State.ok_calen (s : State) : (s.ok).calen = s.calen := rfl
@[simp] theorem State.ok_tap (s : State) : (s.ok).tap = s.tap := rfl
@[simp] theorem State.ok_edges (s : State) : (s.ok).edges = s.edges := rfl
@[simp] theorem State.ok_pending (s : State) : (s.ok).pending = s.pending := rfl

/-! ### `err` -/

@[simp] theorem State.err_now (s : State) : (s.err).now = s.now := rfl
@[simp] theorem State.err_regs (s : State) : (s.err).regs = s.regs := rfl
@[simp] theorem State.err_eff (s : State) : (s.err).eff = s.eff := rfl
@[simp] theorem State.err_mem (s : State) : (s.err).mem = s.mem := rfl
@[simp] theorem State.err_ecc (s : State) : (s.err).ecc = s.ecc := rfl
@[simp] theorem State.err_out (s : State) : (s.err).out = s.out := rfl
@[simp] theorem State.err_free (s : State) : (s.err).free = s.free := rfl
@[simp] theorem State.err_flt (s : State) : (s.err).flt = s.flt := rfl
@[simp] theorem State.err_evq (s : State) : (s.err).evq = s.evq := rfl
@[simp] theorem State.err_stalled (s : State) : (s.err).stalled = s.stalled := rfl
@[simp] theorem State.err_carPend (s : State) : (s.err).carPend = s.carPend := rfl
@[simp] theorem State.err_carWas (s : State) : (s.err).carWas = s.carWas := rfl
@[simp] theorem State.err_refcarDue (s : State) : (s.err).refcarDue = s.refcarDue := rfl
@[simp] theorem State.err_rtc (s : State) : (s.err).rtc = s.rtc := rfl
@[simp] theorem State.err_bfm (s : State) : (s.err).bfm = s.bfm := rfl
@[simp] theorem State.err_rejoin (s : State) : (s.err).rejoin = s.rejoin := rfl
@[simp] theorem State.err_slt (s : State) : (s.err).slt = s.slt := rfl
@[simp] theorem State.err_dl (s : State) : (s.err).dl = s.dl := rfl
@[simp] theorem State.err_tx (s : State) : (s.err).tx = s.tx := rfl
@[simp] theorem State.err_txSwap (s : State) : (s.err).txSwap = s.txSwap := rfl
@[simp] theorem State.err_rxSwap (s : State) : (s.err).rxSwap = s.rxSwap := rfl
@[simp] theorem State.err_mute (s : State) : (s.err).mute = s.mute := rfl
@[simp] theorem State.err_dpd (s : State) : (s.err).dpd = s.dpd := rfl
@[simp] theorem State.err_rx (s : State) : (s.err).rx = s.rx := rfl
@[simp] theorem State.err_prach (s : State) : (s.err).prach = s.prach := rfl
@[simp] theorem State.err_prachOld (s : State) : (s.err).prachOld = s.prachOld := rfl
@[simp] theorem State.err_praSets (s : State) : (s.err).praSets = s.praSets := rfl
@[simp] theorem State.err_port (s : State) : (s.err).port = s.port := rfl
@[simp] theorem State.err_lnk (s : State) : (s.err).lnk = s.lnk := rfl
@[simp] theorem State.err_orx (s : State) : (s.err).orx = s.orx := rfl
@[simp] theorem State.err_wch (s : State) : (s.err).wch = s.wch := rfl
@[simp] theorem State.err_evu (s : State) : (s.err).evu = s.evu := rfl
@[simp] theorem State.err_tim (s : State) : (s.err).tim = s.tim := rfl
@[simp] theorem State.err_tly (s : State) : (s.err).tly = s.tly := rfl
@[simp] theorem State.err_pll (s : State) : (s.err).pll = s.pll := rfl
@[simp] theorem State.err_eng (s : State) : (s.err).eng = s.eng := rfl
@[simp] theorem State.err_sto (s : State) : (s.err).sto = s.sto := rfl
@[simp] theorem State.err_dma (s : State) : (s.err).dma = s.dma := rfl
@[simp] theorem State.err_dmaPtr (s : State) : (s.err).dmaPtr = s.dmaPtr := rfl
@[simp] theorem State.err_hpow (s : State) : (s.err).hpow = s.hpow := rfl
@[simp] theorem State.err_pow (s : State) : (s.err).pow = s.pow := rfl
@[simp] theorem State.err_clkOut (s : State) : (s.err).clkOut = s.clkOut := rfl
@[simp] theorem State.err_thm (s : State) : (s.err).thm = s.thm := rfl
@[simp] theorem State.err_hk (s : State) : (s.err).hk = s.hk := rfl
@[simp] theorem State.err_bias (s : State) : (s.err).bias = s.bias := rfl
@[simp] theorem State.err_cal (s : State) : (s.err).cal = s.cal := rfl
@[simp] theorem State.err_bist (s : State) : (s.err).bist = s.bist := rfl
@[simp] theorem State.err_stl (s : State) : (s.err).stl = s.stl := rfl
@[simp] theorem State.err_bel (s : State) : (s.err).bel = s.bel := rfl
@[simp] theorem State.err_agt (s : State) : (s.err).agt = s.agt := rfl
@[simp] theorem State.err_boot (s : State) : (s.err).boot = s.boot := rfl
@[simp] theorem State.err_calen (s : State) : (s.err).calen = s.calen := rfl
@[simp] theorem State.err_tap (s : State) : (s.err).tap = s.tap := rfl
@[simp] theorem State.err_edges (s : State) : (s.err).edges = s.edges := rfl
@[simp] theorem State.err_pending (s : State) : (s.err).pending = s.pending := rfl

/-! ### `setEng` -/

@[simp] theorem State.setEng_now (s : State) (e : Fin 9) (x : Eng) : (s.setEng e x).now = s.now := rfl
@[simp] theorem State.setEng_regs (s : State) (e : Fin 9) (x : Eng) : (s.setEng e x).regs = s.regs := rfl
@[simp] theorem State.setEng_eff (s : State) (e : Fin 9) (x : Eng) : (s.setEng e x).eff = s.eff := rfl
@[simp] theorem State.setEng_mem (s : State) (e : Fin 9) (x : Eng) : (s.setEng e x).mem = s.mem := rfl
@[simp] theorem State.setEng_ecc (s : State) (e : Fin 9) (x : Eng) : (s.setEng e x).ecc = s.ecc := rfl
@[simp] theorem State.setEng_resp (s : State) (e : Fin 9) (x : Eng) : (s.setEng e x).resp = s.resp := rfl
@[simp] theorem State.setEng_out (s : State) (e : Fin 9) (x : Eng) : (s.setEng e x).out = s.out := rfl
@[simp] theorem State.setEng_free (s : State) (e : Fin 9) (x : Eng) : (s.setEng e x).free = s.free := rfl
@[simp] theorem State.setEng_flt (s : State) (e : Fin 9) (x : Eng) : (s.setEng e x).flt = s.flt := rfl
@[simp] theorem State.setEng_evq (s : State) (e : Fin 9) (x : Eng) : (s.setEng e x).evq = s.evq := rfl
@[simp] theorem State.setEng_stalled (s : State) (e : Fin 9) (x : Eng) : (s.setEng e x).stalled = s.stalled := rfl
@[simp] theorem State.setEng_carPend (s : State) (e : Fin 9) (x : Eng) : (s.setEng e x).carPend = s.carPend := rfl
@[simp] theorem State.setEng_carWas (s : State) (e : Fin 9) (x : Eng) : (s.setEng e x).carWas = s.carWas := rfl
@[simp] theorem State.setEng_refcarDue (s : State) (e : Fin 9) (x : Eng) : (s.setEng e x).refcarDue = s.refcarDue := rfl
@[simp] theorem State.setEng_rtc (s : State) (e : Fin 9) (x : Eng) : (s.setEng e x).rtc = s.rtc := rfl
@[simp] theorem State.setEng_bfm (s : State) (e : Fin 9) (x : Eng) : (s.setEng e x).bfm = s.bfm := rfl
@[simp] theorem State.setEng_rejoin (s : State) (e : Fin 9) (x : Eng) : (s.setEng e x).rejoin = s.rejoin := rfl
@[simp] theorem State.setEng_slt (s : State) (e : Fin 9) (x : Eng) : (s.setEng e x).slt = s.slt := rfl
@[simp] theorem State.setEng_dl (s : State) (e : Fin 9) (x : Eng) : (s.setEng e x).dl = s.dl := rfl
@[simp] theorem State.setEng_tx (s : State) (e : Fin 9) (x : Eng) : (s.setEng e x).tx = s.tx := rfl
@[simp] theorem State.setEng_txSwap (s : State) (e : Fin 9) (x : Eng) : (s.setEng e x).txSwap = s.txSwap := rfl
@[simp] theorem State.setEng_rxSwap (s : State) (e : Fin 9) (x : Eng) : (s.setEng e x).rxSwap = s.rxSwap := rfl
@[simp] theorem State.setEng_mute (s : State) (e : Fin 9) (x : Eng) : (s.setEng e x).mute = s.mute := rfl
@[simp] theorem State.setEng_dpd (s : State) (e : Fin 9) (x : Eng) : (s.setEng e x).dpd = s.dpd := rfl
@[simp] theorem State.setEng_rx (s : State) (e : Fin 9) (x : Eng) : (s.setEng e x).rx = s.rx := rfl
@[simp] theorem State.setEng_prach (s : State) (e : Fin 9) (x : Eng) : (s.setEng e x).prach = s.prach := rfl
@[simp] theorem State.setEng_prachOld (s : State) (e : Fin 9) (x : Eng) : (s.setEng e x).prachOld = s.prachOld := rfl
@[simp] theorem State.setEng_praSets (s : State) (e : Fin 9) (x : Eng) : (s.setEng e x).praSets = s.praSets := rfl
@[simp] theorem State.setEng_port (s : State) (e : Fin 9) (x : Eng) : (s.setEng e x).port = s.port := rfl
@[simp] theorem State.setEng_lnk (s : State) (e : Fin 9) (x : Eng) : (s.setEng e x).lnk = s.lnk := rfl
@[simp] theorem State.setEng_orx (s : State) (e : Fin 9) (x : Eng) : (s.setEng e x).orx = s.orx := rfl
@[simp] theorem State.setEng_wch (s : State) (e : Fin 9) (x : Eng) : (s.setEng e x).wch = s.wch := rfl
@[simp] theorem State.setEng_evu (s : State) (e : Fin 9) (x : Eng) : (s.setEng e x).evu = s.evu := rfl
@[simp] theorem State.setEng_tim (s : State) (e : Fin 9) (x : Eng) : (s.setEng e x).tim = s.tim := rfl
@[simp] theorem State.setEng_tly (s : State) (e : Fin 9) (x : Eng) : (s.setEng e x).tly = s.tly := rfl
@[simp] theorem State.setEng_pll (s : State) (e : Fin 9) (x : Eng) : (s.setEng e x).pll = s.pll := rfl
@[simp] theorem State.setEng_sto (s : State) (e : Fin 9) (x : Eng) : (s.setEng e x).sto = s.sto := rfl
@[simp] theorem State.setEng_dma (s : State) (e : Fin 9) (x : Eng) : (s.setEng e x).dma = s.dma := rfl
@[simp] theorem State.setEng_dmaPtr (s : State) (e : Fin 9) (x : Eng) : (s.setEng e x).dmaPtr = s.dmaPtr := rfl
@[simp] theorem State.setEng_hpow (s : State) (e : Fin 9) (x : Eng) : (s.setEng e x).hpow = s.hpow := rfl
@[simp] theorem State.setEng_pow (s : State) (e : Fin 9) (x : Eng) : (s.setEng e x).pow = s.pow := rfl
@[simp] theorem State.setEng_clkOut (s : State) (e : Fin 9) (x : Eng) : (s.setEng e x).clkOut = s.clkOut := rfl
@[simp] theorem State.setEng_thm (s : State) (e : Fin 9) (x : Eng) : (s.setEng e x).thm = s.thm := rfl
@[simp] theorem State.setEng_hk (s : State) (e : Fin 9) (x : Eng) : (s.setEng e x).hk = s.hk := rfl
@[simp] theorem State.setEng_bias (s : State) (e : Fin 9) (x : Eng) : (s.setEng e x).bias = s.bias := rfl
@[simp] theorem State.setEng_cal (s : State) (e : Fin 9) (x : Eng) : (s.setEng e x).cal = s.cal := rfl
@[simp] theorem State.setEng_bist (s : State) (e : Fin 9) (x : Eng) : (s.setEng e x).bist = s.bist := rfl
@[simp] theorem State.setEng_stl (s : State) (e : Fin 9) (x : Eng) : (s.setEng e x).stl = s.stl := rfl
@[simp] theorem State.setEng_bel (s : State) (e : Fin 9) (x : Eng) : (s.setEng e x).bel = s.bel := rfl
@[simp] theorem State.setEng_agt (s : State) (e : Fin 9) (x : Eng) : (s.setEng e x).agt = s.agt := rfl
@[simp] theorem State.setEng_boot (s : State) (e : Fin 9) (x : Eng) : (s.setEng e x).boot = s.boot := rfl
@[simp] theorem State.setEng_calen (s : State) (e : Fin 9) (x : Eng) : (s.setEng e x).calen = s.calen := rfl
@[simp] theorem State.setEng_tap (s : State) (e : Fin 9) (x : Eng) : (s.setEng e x).tap = s.tap := rfl
@[simp] theorem State.setEng_edges (s : State) (e : Fin 9) (x : Eng) : (s.setEng e x).edges = s.edges := rfl
@[simp] theorem State.setEng_pending (s : State) (e : Fin 9) (x : Eng) : (s.setEng e x).pending = s.pending := rfl

/-! ### `setDma` -/

@[simp] theorem State.setDma_now (s : State) (h c : Fin 8) (x : DmaCh) : (s.setDma h c x).now = s.now := rfl
@[simp] theorem State.setDma_regs (s : State) (h c : Fin 8) (x : DmaCh) : (s.setDma h c x).regs = s.regs := rfl
@[simp] theorem State.setDma_eff (s : State) (h c : Fin 8) (x : DmaCh) : (s.setDma h c x).eff = s.eff := rfl
@[simp] theorem State.setDma_mem (s : State) (h c : Fin 8) (x : DmaCh) : (s.setDma h c x).mem = s.mem := rfl
@[simp] theorem State.setDma_ecc (s : State) (h c : Fin 8) (x : DmaCh) : (s.setDma h c x).ecc = s.ecc := rfl
@[simp] theorem State.setDma_resp (s : State) (h c : Fin 8) (x : DmaCh) : (s.setDma h c x).resp = s.resp := rfl
@[simp] theorem State.setDma_out (s : State) (h c : Fin 8) (x : DmaCh) : (s.setDma h c x).out = s.out := rfl
@[simp] theorem State.setDma_free (s : State) (h c : Fin 8) (x : DmaCh) : (s.setDma h c x).free = s.free := rfl
@[simp] theorem State.setDma_flt (s : State) (h c : Fin 8) (x : DmaCh) : (s.setDma h c x).flt = s.flt := rfl
@[simp] theorem State.setDma_evq (s : State) (h c : Fin 8) (x : DmaCh) : (s.setDma h c x).evq = s.evq := rfl
@[simp] theorem State.setDma_stalled (s : State) (h c : Fin 8) (x : DmaCh) : (s.setDma h c x).stalled = s.stalled := rfl
@[simp] theorem State.setDma_carPend (s : State) (h c : Fin 8) (x : DmaCh) : (s.setDma h c x).carPend = s.carPend := rfl
@[simp] theorem State.setDma_carWas (s : State) (h c : Fin 8) (x : DmaCh) : (s.setDma h c x).carWas = s.carWas := rfl
@[simp] theorem State.setDma_refcarDue (s : State) (h c : Fin 8) (x : DmaCh) : (s.setDma h c x).refcarDue = s.refcarDue := rfl
@[simp] theorem State.setDma_rtc (s : State) (h c : Fin 8) (x : DmaCh) : (s.setDma h c x).rtc = s.rtc := rfl
@[simp] theorem State.setDma_bfm (s : State) (h c : Fin 8) (x : DmaCh) : (s.setDma h c x).bfm = s.bfm := rfl
@[simp] theorem State.setDma_rejoin (s : State) (h c : Fin 8) (x : DmaCh) : (s.setDma h c x).rejoin = s.rejoin := rfl
@[simp] theorem State.setDma_slt (s : State) (h c : Fin 8) (x : DmaCh) : (s.setDma h c x).slt = s.slt := rfl
@[simp] theorem State.setDma_dl (s : State) (h c : Fin 8) (x : DmaCh) : (s.setDma h c x).dl = s.dl := rfl
@[simp] theorem State.setDma_tx (s : State) (h c : Fin 8) (x : DmaCh) : (s.setDma h c x).tx = s.tx := rfl
@[simp] theorem State.setDma_txSwap (s : State) (h c : Fin 8) (x : DmaCh) : (s.setDma h c x).txSwap = s.txSwap := rfl
@[simp] theorem State.setDma_rxSwap (s : State) (h c : Fin 8) (x : DmaCh) : (s.setDma h c x).rxSwap = s.rxSwap := rfl
@[simp] theorem State.setDma_mute (s : State) (h c : Fin 8) (x : DmaCh) : (s.setDma h c x).mute = s.mute := rfl
@[simp] theorem State.setDma_dpd (s : State) (h c : Fin 8) (x : DmaCh) : (s.setDma h c x).dpd = s.dpd := rfl
@[simp] theorem State.setDma_rx (s : State) (h c : Fin 8) (x : DmaCh) : (s.setDma h c x).rx = s.rx := rfl
@[simp] theorem State.setDma_prach (s : State) (h c : Fin 8) (x : DmaCh) : (s.setDma h c x).prach = s.prach := rfl
@[simp] theorem State.setDma_prachOld (s : State) (h c : Fin 8) (x : DmaCh) : (s.setDma h c x).prachOld = s.prachOld := rfl
@[simp] theorem State.setDma_praSets (s : State) (h c : Fin 8) (x : DmaCh) : (s.setDma h c x).praSets = s.praSets := rfl
@[simp] theorem State.setDma_port (s : State) (h c : Fin 8) (x : DmaCh) : (s.setDma h c x).port = s.port := rfl
@[simp] theorem State.setDma_lnk (s : State) (h c : Fin 8) (x : DmaCh) : (s.setDma h c x).lnk = s.lnk := rfl
@[simp] theorem State.setDma_orx (s : State) (h c : Fin 8) (x : DmaCh) : (s.setDma h c x).orx = s.orx := rfl
@[simp] theorem State.setDma_wch (s : State) (h c : Fin 8) (x : DmaCh) : (s.setDma h c x).wch = s.wch := rfl
@[simp] theorem State.setDma_evu (s : State) (h c : Fin 8) (x : DmaCh) : (s.setDma h c x).evu = s.evu := rfl
@[simp] theorem State.setDma_tim (s : State) (h c : Fin 8) (x : DmaCh) : (s.setDma h c x).tim = s.tim := rfl
@[simp] theorem State.setDma_tly (s : State) (h c : Fin 8) (x : DmaCh) : (s.setDma h c x).tly = s.tly := rfl
@[simp] theorem State.setDma_pll (s : State) (h c : Fin 8) (x : DmaCh) : (s.setDma h c x).pll = s.pll := rfl
@[simp] theorem State.setDma_eng (s : State) (h c : Fin 8) (x : DmaCh) : (s.setDma h c x).eng = s.eng := rfl
@[simp] theorem State.setDma_sto (s : State) (h c : Fin 8) (x : DmaCh) : (s.setDma h c x).sto = s.sto := rfl
@[simp] theorem State.setDma_dmaPtr (s : State) (h c : Fin 8) (x : DmaCh) : (s.setDma h c x).dmaPtr = s.dmaPtr := rfl
@[simp] theorem State.setDma_hpow (s : State) (h c : Fin 8) (x : DmaCh) : (s.setDma h c x).hpow = s.hpow := rfl
@[simp] theorem State.setDma_pow (s : State) (h c : Fin 8) (x : DmaCh) : (s.setDma h c x).pow = s.pow := rfl
@[simp] theorem State.setDma_clkOut (s : State) (h c : Fin 8) (x : DmaCh) : (s.setDma h c x).clkOut = s.clkOut := rfl
@[simp] theorem State.setDma_thm (s : State) (h c : Fin 8) (x : DmaCh) : (s.setDma h c x).thm = s.thm := rfl
@[simp] theorem State.setDma_hk (s : State) (h c : Fin 8) (x : DmaCh) : (s.setDma h c x).hk = s.hk := rfl
@[simp] theorem State.setDma_bias (s : State) (h c : Fin 8) (x : DmaCh) : (s.setDma h c x).bias = s.bias := rfl
@[simp] theorem State.setDma_cal (s : State) (h c : Fin 8) (x : DmaCh) : (s.setDma h c x).cal = s.cal := rfl
@[simp] theorem State.setDma_bist (s : State) (h c : Fin 8) (x : DmaCh) : (s.setDma h c x).bist = s.bist := rfl
@[simp] theorem State.setDma_stl (s : State) (h c : Fin 8) (x : DmaCh) : (s.setDma h c x).stl = s.stl := rfl
@[simp] theorem State.setDma_bel (s : State) (h c : Fin 8) (x : DmaCh) : (s.setDma h c x).bel = s.bel := rfl
@[simp] theorem State.setDma_agt (s : State) (h c : Fin 8) (x : DmaCh) : (s.setDma h c x).agt = s.agt := rfl
@[simp] theorem State.setDma_boot (s : State) (h c : Fin 8) (x : DmaCh) : (s.setDma h c x).boot = s.boot := rfl
@[simp] theorem State.setDma_calen (s : State) (h c : Fin 8) (x : DmaCh) : (s.setDma h c x).calen = s.calen := rfl
@[simp] theorem State.setDma_tap (s : State) (h c : Fin 8) (x : DmaCh) : (s.setDma h c x).tap = s.tap := rfl
@[simp] theorem State.setDma_edges (s : State) (h c : Fin 8) (x : DmaCh) : (s.setDma h c x).edges = s.edges := rfl
@[simp] theorem State.setDma_pending (s : State) (h c : Fin 8) (x : DmaCh) : (s.setDma h c x).pending = s.pending := rfl

/-! ### `setHpow` -/

@[simp] theorem State.setHpow_now (s : State) (h : Fin 8) (x : HPow) : (s.setHpow h x).now = s.now := rfl
@[simp] theorem State.setHpow_regs (s : State) (h : Fin 8) (x : HPow) : (s.setHpow h x).regs = s.regs := rfl
@[simp] theorem State.setHpow_eff (s : State) (h : Fin 8) (x : HPow) : (s.setHpow h x).eff = s.eff := rfl
@[simp] theorem State.setHpow_mem (s : State) (h : Fin 8) (x : HPow) : (s.setHpow h x).mem = s.mem := rfl
@[simp] theorem State.setHpow_ecc (s : State) (h : Fin 8) (x : HPow) : (s.setHpow h x).ecc = s.ecc := rfl
@[simp] theorem State.setHpow_resp (s : State) (h : Fin 8) (x : HPow) : (s.setHpow h x).resp = s.resp := rfl
@[simp] theorem State.setHpow_out (s : State) (h : Fin 8) (x : HPow) : (s.setHpow h x).out = s.out := rfl
@[simp] theorem State.setHpow_free (s : State) (h : Fin 8) (x : HPow) : (s.setHpow h x).free = s.free := rfl
@[simp] theorem State.setHpow_flt (s : State) (h : Fin 8) (x : HPow) : (s.setHpow h x).flt = s.flt := rfl
@[simp] theorem State.setHpow_evq (s : State) (h : Fin 8) (x : HPow) : (s.setHpow h x).evq = s.evq := rfl
@[simp] theorem State.setHpow_stalled (s : State) (h : Fin 8) (x : HPow) : (s.setHpow h x).stalled = s.stalled := rfl
@[simp] theorem State.setHpow_carPend (s : State) (h : Fin 8) (x : HPow) : (s.setHpow h x).carPend = s.carPend := rfl
@[simp] theorem State.setHpow_carWas (s : State) (h : Fin 8) (x : HPow) : (s.setHpow h x).carWas = s.carWas := rfl
@[simp] theorem State.setHpow_refcarDue (s : State) (h : Fin 8) (x : HPow) : (s.setHpow h x).refcarDue = s.refcarDue := rfl
@[simp] theorem State.setHpow_rtc (s : State) (h : Fin 8) (x : HPow) : (s.setHpow h x).rtc = s.rtc := rfl
@[simp] theorem State.setHpow_bfm (s : State) (h : Fin 8) (x : HPow) : (s.setHpow h x).bfm = s.bfm := rfl
@[simp] theorem State.setHpow_rejoin (s : State) (h : Fin 8) (x : HPow) : (s.setHpow h x).rejoin = s.rejoin := rfl
@[simp] theorem State.setHpow_slt (s : State) (h : Fin 8) (x : HPow) : (s.setHpow h x).slt = s.slt := rfl
@[simp] theorem State.setHpow_dl (s : State) (h : Fin 8) (x : HPow) : (s.setHpow h x).dl = s.dl := rfl
@[simp] theorem State.setHpow_tx (s : State) (h : Fin 8) (x : HPow) : (s.setHpow h x).tx = s.tx := rfl
@[simp] theorem State.setHpow_txSwap (s : State) (h : Fin 8) (x : HPow) : (s.setHpow h x).txSwap = s.txSwap := rfl
@[simp] theorem State.setHpow_rxSwap (s : State) (h : Fin 8) (x : HPow) : (s.setHpow h x).rxSwap = s.rxSwap := rfl
@[simp] theorem State.setHpow_mute (s : State) (h : Fin 8) (x : HPow) : (s.setHpow h x).mute = s.mute := rfl
@[simp] theorem State.setHpow_dpd (s : State) (h : Fin 8) (x : HPow) : (s.setHpow h x).dpd = s.dpd := rfl
@[simp] theorem State.setHpow_rx (s : State) (h : Fin 8) (x : HPow) : (s.setHpow h x).rx = s.rx := rfl
@[simp] theorem State.setHpow_prach (s : State) (h : Fin 8) (x : HPow) : (s.setHpow h x).prach = s.prach := rfl
@[simp] theorem State.setHpow_prachOld (s : State) (h : Fin 8) (x : HPow) : (s.setHpow h x).prachOld = s.prachOld := rfl
@[simp] theorem State.setHpow_praSets (s : State) (h : Fin 8) (x : HPow) : (s.setHpow h x).praSets = s.praSets := rfl
@[simp] theorem State.setHpow_port (s : State) (h : Fin 8) (x : HPow) : (s.setHpow h x).port = s.port := rfl
@[simp] theorem State.setHpow_lnk (s : State) (h : Fin 8) (x : HPow) : (s.setHpow h x).lnk = s.lnk := rfl
@[simp] theorem State.setHpow_orx (s : State) (h : Fin 8) (x : HPow) : (s.setHpow h x).orx = s.orx := rfl
@[simp] theorem State.setHpow_wch (s : State) (h : Fin 8) (x : HPow) : (s.setHpow h x).wch = s.wch := rfl
@[simp] theorem State.setHpow_evu (s : State) (h : Fin 8) (x : HPow) : (s.setHpow h x).evu = s.evu := rfl
@[simp] theorem State.setHpow_tim (s : State) (h : Fin 8) (x : HPow) : (s.setHpow h x).tim = s.tim := rfl
@[simp] theorem State.setHpow_tly (s : State) (h : Fin 8) (x : HPow) : (s.setHpow h x).tly = s.tly := rfl
@[simp] theorem State.setHpow_pll (s : State) (h : Fin 8) (x : HPow) : (s.setHpow h x).pll = s.pll := rfl
@[simp] theorem State.setHpow_eng (s : State) (h : Fin 8) (x : HPow) : (s.setHpow h x).eng = s.eng := rfl
@[simp] theorem State.setHpow_sto (s : State) (h : Fin 8) (x : HPow) : (s.setHpow h x).sto = s.sto := rfl
@[simp] theorem State.setHpow_dma (s : State) (h : Fin 8) (x : HPow) : (s.setHpow h x).dma = s.dma := rfl
@[simp] theorem State.setHpow_dmaPtr (s : State) (h : Fin 8) (x : HPow) : (s.setHpow h x).dmaPtr = s.dmaPtr := rfl
@[simp] theorem State.setHpow_pow (s : State) (h : Fin 8) (x : HPow) : (s.setHpow h x).pow = s.pow := rfl
@[simp] theorem State.setHpow_clkOut (s : State) (h : Fin 8) (x : HPow) : (s.setHpow h x).clkOut = s.clkOut := rfl
@[simp] theorem State.setHpow_thm (s : State) (h : Fin 8) (x : HPow) : (s.setHpow h x).thm = s.thm := rfl
@[simp] theorem State.setHpow_hk (s : State) (h : Fin 8) (x : HPow) : (s.setHpow h x).hk = s.hk := rfl
@[simp] theorem State.setHpow_bias (s : State) (h : Fin 8) (x : HPow) : (s.setHpow h x).bias = s.bias := rfl
@[simp] theorem State.setHpow_cal (s : State) (h : Fin 8) (x : HPow) : (s.setHpow h x).cal = s.cal := rfl
@[simp] theorem State.setHpow_bist (s : State) (h : Fin 8) (x : HPow) : (s.setHpow h x).bist = s.bist := rfl
@[simp] theorem State.setHpow_stl (s : State) (h : Fin 8) (x : HPow) : (s.setHpow h x).stl = s.stl := rfl
@[simp] theorem State.setHpow_bel (s : State) (h : Fin 8) (x : HPow) : (s.setHpow h x).bel = s.bel := rfl
@[simp] theorem State.setHpow_agt (s : State) (h : Fin 8) (x : HPow) : (s.setHpow h x).agt = s.agt := rfl
@[simp] theorem State.setHpow_boot (s : State) (h : Fin 8) (x : HPow) : (s.setHpow h x).boot = s.boot := rfl
@[simp] theorem State.setHpow_calen (s : State) (h : Fin 8) (x : HPow) : (s.setHpow h x).calen = s.calen := rfl
@[simp] theorem State.setHpow_tap (s : State) (h : Fin 8) (x : HPow) : (s.setHpow h x).tap = s.tap := rfl
@[simp] theorem State.setHpow_edges (s : State) (h : Fin 8) (x : HPow) : (s.setHpow h x).edges = s.edges := rfl
@[simp] theorem State.setHpow_pending (s : State) (h : Fin 8) (x : HPow) : (s.setHpow h x).pending = s.pending := rfl

/-! ### `postEdge` -/

@[simp] theorem State.postEdge_now (s : State) (trig h arg : Nat) : (s.postEdge trig h arg).now = s.now := rfl
@[simp] theorem State.postEdge_regs (s : State) (trig h arg : Nat) : (s.postEdge trig h arg).regs = s.regs := rfl
@[simp] theorem State.postEdge_eff (s : State) (trig h arg : Nat) : (s.postEdge trig h arg).eff = s.eff := rfl
@[simp] theorem State.postEdge_mem (s : State) (trig h arg : Nat) : (s.postEdge trig h arg).mem = s.mem := rfl
@[simp] theorem State.postEdge_ecc (s : State) (trig h arg : Nat) : (s.postEdge trig h arg).ecc = s.ecc := rfl
@[simp] theorem State.postEdge_resp (s : State) (trig h arg : Nat) : (s.postEdge trig h arg).resp = s.resp := rfl
@[simp] theorem State.postEdge_out (s : State) (trig h arg : Nat) : (s.postEdge trig h arg).out = s.out := rfl
@[simp] theorem State.postEdge_free (s : State) (trig h arg : Nat) : (s.postEdge trig h arg).free = s.free := rfl
@[simp] theorem State.postEdge_flt (s : State) (trig h arg : Nat) : (s.postEdge trig h arg).flt = s.flt := rfl
@[simp] theorem State.postEdge_evq (s : State) (trig h arg : Nat) : (s.postEdge trig h arg).evq = s.evq := rfl
@[simp] theorem State.postEdge_stalled (s : State) (trig h arg : Nat) : (s.postEdge trig h arg).stalled = s.stalled := rfl
@[simp] theorem State.postEdge_carPend (s : State) (trig h arg : Nat) : (s.postEdge trig h arg).carPend = s.carPend := rfl
@[simp] theorem State.postEdge_carWas (s : State) (trig h arg : Nat) : (s.postEdge trig h arg).carWas = s.carWas := rfl
@[simp] theorem State.postEdge_refcarDue (s : State) (trig h arg : Nat) : (s.postEdge trig h arg).refcarDue = s.refcarDue := rfl
@[simp] theorem State.postEdge_rtc (s : State) (trig h arg : Nat) : (s.postEdge trig h arg).rtc = s.rtc := rfl
@[simp] theorem State.postEdge_bfm (s : State) (trig h arg : Nat) : (s.postEdge trig h arg).bfm = s.bfm := rfl
@[simp] theorem State.postEdge_rejoin (s : State) (trig h arg : Nat) : (s.postEdge trig h arg).rejoin = s.rejoin := rfl
@[simp] theorem State.postEdge_slt (s : State) (trig h arg : Nat) : (s.postEdge trig h arg).slt = s.slt := rfl
@[simp] theorem State.postEdge_dl (s : State) (trig h arg : Nat) : (s.postEdge trig h arg).dl = s.dl := rfl
@[simp] theorem State.postEdge_tx (s : State) (trig h arg : Nat) : (s.postEdge trig h arg).tx = s.tx := rfl
@[simp] theorem State.postEdge_txSwap (s : State) (trig h arg : Nat) : (s.postEdge trig h arg).txSwap = s.txSwap := rfl
@[simp] theorem State.postEdge_rxSwap (s : State) (trig h arg : Nat) : (s.postEdge trig h arg).rxSwap = s.rxSwap := rfl
@[simp] theorem State.postEdge_mute (s : State) (trig h arg : Nat) : (s.postEdge trig h arg).mute = s.mute := rfl
@[simp] theorem State.postEdge_dpd (s : State) (trig h arg : Nat) : (s.postEdge trig h arg).dpd = s.dpd := rfl
@[simp] theorem State.postEdge_rx (s : State) (trig h arg : Nat) : (s.postEdge trig h arg).rx = s.rx := rfl
@[simp] theorem State.postEdge_prach (s : State) (trig h arg : Nat) : (s.postEdge trig h arg).prach = s.prach := rfl
@[simp] theorem State.postEdge_prachOld (s : State) (trig h arg : Nat) : (s.postEdge trig h arg).prachOld = s.prachOld := rfl
@[simp] theorem State.postEdge_praSets (s : State) (trig h arg : Nat) : (s.postEdge trig h arg).praSets = s.praSets := rfl
@[simp] theorem State.postEdge_port (s : State) (trig h arg : Nat) : (s.postEdge trig h arg).port = s.port := rfl
@[simp] theorem State.postEdge_lnk (s : State) (trig h arg : Nat) : (s.postEdge trig h arg).lnk = s.lnk := rfl
@[simp] theorem State.postEdge_orx (s : State) (trig h arg : Nat) : (s.postEdge trig h arg).orx = s.orx := rfl
@[simp] theorem State.postEdge_wch (s : State) (trig h arg : Nat) : (s.postEdge trig h arg).wch = s.wch := rfl
@[simp] theorem State.postEdge_evu (s : State) (trig h arg : Nat) : (s.postEdge trig h arg).evu = s.evu := rfl
@[simp] theorem State.postEdge_tim (s : State) (trig h arg : Nat) : (s.postEdge trig h arg).tim = s.tim := rfl
@[simp] theorem State.postEdge_tly (s : State) (trig h arg : Nat) : (s.postEdge trig h arg).tly = s.tly := rfl
@[simp] theorem State.postEdge_pll (s : State) (trig h arg : Nat) : (s.postEdge trig h arg).pll = s.pll := rfl
@[simp] theorem State.postEdge_eng (s : State) (trig h arg : Nat) : (s.postEdge trig h arg).eng = s.eng := rfl
@[simp] theorem State.postEdge_sto (s : State) (trig h arg : Nat) : (s.postEdge trig h arg).sto = s.sto := rfl
@[simp] theorem State.postEdge_dma (s : State) (trig h arg : Nat) : (s.postEdge trig h arg).dma = s.dma := rfl
@[simp] theorem State.postEdge_dmaPtr (s : State) (trig h arg : Nat) : (s.postEdge trig h arg).dmaPtr = s.dmaPtr := rfl
@[simp] theorem State.postEdge_hpow (s : State) (trig h arg : Nat) : (s.postEdge trig h arg).hpow = s.hpow := rfl
@[simp] theorem State.postEdge_pow (s : State) (trig h arg : Nat) : (s.postEdge trig h arg).pow = s.pow := rfl
@[simp] theorem State.postEdge_clkOut (s : State) (trig h arg : Nat) : (s.postEdge trig h arg).clkOut = s.clkOut := rfl
@[simp] theorem State.postEdge_thm (s : State) (trig h arg : Nat) : (s.postEdge trig h arg).thm = s.thm := rfl
@[simp] theorem State.postEdge_hk (s : State) (trig h arg : Nat) : (s.postEdge trig h arg).hk = s.hk := rfl
@[simp] theorem State.postEdge_bias (s : State) (trig h arg : Nat) : (s.postEdge trig h arg).bias = s.bias := rfl
@[simp] theorem State.postEdge_cal (s : State) (trig h arg : Nat) : (s.postEdge trig h arg).cal = s.cal := rfl
@[simp] theorem State.postEdge_bist (s : State) (trig h arg : Nat) : (s.postEdge trig h arg).bist = s.bist := rfl
@[simp] theorem State.postEdge_stl (s : State) (trig h arg : Nat) : (s.postEdge trig h arg).stl = s.stl := rfl
@[simp] theorem State.postEdge_bel (s : State) (trig h arg : Nat) : (s.postEdge trig h arg).bel = s.bel := rfl
@[simp] theorem State.postEdge_agt (s : State) (trig h arg : Nat) : (s.postEdge trig h arg).agt = s.agt := rfl
@[simp] theorem State.postEdge_boot (s : State) (trig h arg : Nat) : (s.postEdge trig h arg).boot = s.boot := rfl
@[simp] theorem State.postEdge_calen (s : State) (trig h arg : Nat) : (s.postEdge trig h arg).calen = s.calen := rfl
@[simp] theorem State.postEdge_tap (s : State) (trig h arg : Nat) : (s.postEdge trig h arg).tap = s.tap := rfl
@[simp] theorem State.postEdge_pending (s : State) (trig h arg : Nat) : (s.postEdge trig h arg).pending = s.pending := rfl

/-! ### `clearMem` -/

@[simp] theorem State.clearMem_now (s : State) (p : Nat → Bool) : (s.clearMem p).now = s.now := rfl
@[simp] theorem State.clearMem_regs (s : State) (p : Nat → Bool) : (s.clearMem p).regs = s.regs := rfl
@[simp] theorem State.clearMem_eff (s : State) (p : Nat → Bool) : (s.clearMem p).eff = s.eff := rfl
@[simp] theorem State.clearMem_ecc (s : State) (p : Nat → Bool) : (s.clearMem p).ecc = s.ecc := rfl
@[simp] theorem State.clearMem_resp (s : State) (p : Nat → Bool) : (s.clearMem p).resp = s.resp := rfl
@[simp] theorem State.clearMem_out (s : State) (p : Nat → Bool) : (s.clearMem p).out = s.out := rfl
@[simp] theorem State.clearMem_free (s : State) (p : Nat → Bool) : (s.clearMem p).free = s.free := rfl
@[simp] theorem State.clearMem_flt (s : State) (p : Nat → Bool) : (s.clearMem p).flt = s.flt := rfl
@[simp] theorem State.clearMem_evq (s : State) (p : Nat → Bool) : (s.clearMem p).evq = s.evq := rfl
@[simp] theorem State.clearMem_stalled (s : State) (p : Nat → Bool) : (s.clearMem p).stalled = s.stalled := rfl
@[simp] theorem State.clearMem_carPend (s : State) (p : Nat → Bool) : (s.clearMem p).carPend = s.carPend := rfl
@[simp] theorem State.clearMem_carWas (s : State) (p : Nat → Bool) : (s.clearMem p).carWas = s.carWas := rfl
@[simp] theorem State.clearMem_refcarDue (s : State) (p : Nat → Bool) : (s.clearMem p).refcarDue = s.refcarDue := rfl
@[simp] theorem State.clearMem_rtc (s : State) (p : Nat → Bool) : (s.clearMem p).rtc = s.rtc := rfl
@[simp] theorem State.clearMem_bfm (s : State) (p : Nat → Bool) : (s.clearMem p).bfm = s.bfm := rfl
@[simp] theorem State.clearMem_rejoin (s : State) (p : Nat → Bool) : (s.clearMem p).rejoin = s.rejoin := rfl
@[simp] theorem State.clearMem_slt (s : State) (p : Nat → Bool) : (s.clearMem p).slt = s.slt := rfl
@[simp] theorem State.clearMem_dl (s : State) (p : Nat → Bool) : (s.clearMem p).dl = s.dl := rfl
@[simp] theorem State.clearMem_tx (s : State) (p : Nat → Bool) : (s.clearMem p).tx = s.tx := rfl
@[simp] theorem State.clearMem_txSwap (s : State) (p : Nat → Bool) : (s.clearMem p).txSwap = s.txSwap := rfl
@[simp] theorem State.clearMem_rxSwap (s : State) (p : Nat → Bool) : (s.clearMem p).rxSwap = s.rxSwap := rfl
@[simp] theorem State.clearMem_mute (s : State) (p : Nat → Bool) : (s.clearMem p).mute = s.mute := rfl
@[simp] theorem State.clearMem_dpd (s : State) (p : Nat → Bool) : (s.clearMem p).dpd = s.dpd := rfl
@[simp] theorem State.clearMem_rx (s : State) (p : Nat → Bool) : (s.clearMem p).rx = s.rx := rfl
@[simp] theorem State.clearMem_prach (s : State) (p : Nat → Bool) : (s.clearMem p).prach = s.prach := rfl
@[simp] theorem State.clearMem_prachOld (s : State) (p : Nat → Bool) : (s.clearMem p).prachOld = s.prachOld := rfl
@[simp] theorem State.clearMem_praSets (s : State) (p : Nat → Bool) : (s.clearMem p).praSets = s.praSets := rfl
@[simp] theorem State.clearMem_port (s : State) (p : Nat → Bool) : (s.clearMem p).port = s.port := rfl
@[simp] theorem State.clearMem_lnk (s : State) (p : Nat → Bool) : (s.clearMem p).lnk = s.lnk := rfl
@[simp] theorem State.clearMem_orx (s : State) (p : Nat → Bool) : (s.clearMem p).orx = s.orx := rfl
@[simp] theorem State.clearMem_wch (s : State) (p : Nat → Bool) : (s.clearMem p).wch = s.wch := rfl
@[simp] theorem State.clearMem_evu (s : State) (p : Nat → Bool) : (s.clearMem p).evu = s.evu := rfl
@[simp] theorem State.clearMem_tim (s : State) (p : Nat → Bool) : (s.clearMem p).tim = s.tim := rfl
@[simp] theorem State.clearMem_tly (s : State) (p : Nat → Bool) : (s.clearMem p).tly = s.tly := rfl
@[simp] theorem State.clearMem_pll (s : State) (p : Nat → Bool) : (s.clearMem p).pll = s.pll := rfl
@[simp] theorem State.clearMem_eng (s : State) (p : Nat → Bool) : (s.clearMem p).eng = s.eng := rfl
@[simp] theorem State.clearMem_sto (s : State) (p : Nat → Bool) : (s.clearMem p).sto = s.sto := rfl
@[simp] theorem State.clearMem_dma (s : State) (p : Nat → Bool) : (s.clearMem p).dma = s.dma := rfl
@[simp] theorem State.clearMem_dmaPtr (s : State) (p : Nat → Bool) : (s.clearMem p).dmaPtr = s.dmaPtr := rfl
@[simp] theorem State.clearMem_hpow (s : State) (p : Nat → Bool) : (s.clearMem p).hpow = s.hpow := rfl
@[simp] theorem State.clearMem_pow (s : State) (p : Nat → Bool) : (s.clearMem p).pow = s.pow := rfl
@[simp] theorem State.clearMem_clkOut (s : State) (p : Nat → Bool) : (s.clearMem p).clkOut = s.clkOut := rfl
@[simp] theorem State.clearMem_thm (s : State) (p : Nat → Bool) : (s.clearMem p).thm = s.thm := rfl
@[simp] theorem State.clearMem_hk (s : State) (p : Nat → Bool) : (s.clearMem p).hk = s.hk := rfl
@[simp] theorem State.clearMem_bias (s : State) (p : Nat → Bool) : (s.clearMem p).bias = s.bias := rfl
@[simp] theorem State.clearMem_cal (s : State) (p : Nat → Bool) : (s.clearMem p).cal = s.cal := rfl
@[simp] theorem State.clearMem_bist (s : State) (p : Nat → Bool) : (s.clearMem p).bist = s.bist := rfl
@[simp] theorem State.clearMem_stl (s : State) (p : Nat → Bool) : (s.clearMem p).stl = s.stl := rfl
@[simp] theorem State.clearMem_bel (s : State) (p : Nat → Bool) : (s.clearMem p).bel = s.bel := rfl
@[simp] theorem State.clearMem_agt (s : State) (p : Nat → Bool) : (s.clearMem p).agt = s.agt := rfl
@[simp] theorem State.clearMem_boot (s : State) (p : Nat → Bool) : (s.clearMem p).boot = s.boot := rfl
@[simp] theorem State.clearMem_calen (s : State) (p : Nat → Bool) : (s.clearMem p).calen = s.calen := rfl
@[simp] theorem State.clearMem_tap (s : State) (p : Nat → Bool) : (s.clearMem p).tap = s.tap := rfl
@[simp] theorem State.clearMem_edges (s : State) (p : Nat → Bool) : (s.clearMem p).edges = s.edges := rfl
@[simp] theorem State.clearMem_pending (s : State) (p : Nat → Bool) : (s.clearMem p).pending = s.pending := rfl

/-! ### `inc` -/

@[simp] theorem State.inc_now (s : State) (f : Field) : (s.inc f).now = s.now := rfl
@[simp] theorem State.inc_eff (s : State) (f : Field) : (s.inc f).eff = s.eff := rfl
@[simp] theorem State.inc_mem (s : State) (f : Field) : (s.inc f).mem = s.mem := rfl
@[simp] theorem State.inc_ecc (s : State) (f : Field) : (s.inc f).ecc = s.ecc := rfl
@[simp] theorem State.inc_resp (s : State) (f : Field) : (s.inc f).resp = s.resp := rfl
@[simp] theorem State.inc_out (s : State) (f : Field) : (s.inc f).out = s.out := rfl
@[simp] theorem State.inc_free (s : State) (f : Field) : (s.inc f).free = s.free := rfl
@[simp] theorem State.inc_flt (s : State) (f : Field) : (s.inc f).flt = s.flt := rfl
@[simp] theorem State.inc_evq (s : State) (f : Field) : (s.inc f).evq = s.evq := rfl
@[simp] theorem State.inc_stalled (s : State) (f : Field) : (s.inc f).stalled = s.stalled := rfl
@[simp] theorem State.inc_carPend (s : State) (f : Field) : (s.inc f).carPend = s.carPend := rfl
@[simp] theorem State.inc_carWas (s : State) (f : Field) : (s.inc f).carWas = s.carWas := rfl
@[simp] theorem State.inc_refcarDue (s : State) (f : Field) : (s.inc f).refcarDue = s.refcarDue := rfl
@[simp] theorem State.inc_rtc (s : State) (f : Field) : (s.inc f).rtc = s.rtc := rfl
@[simp] theorem State.inc_bfm (s : State) (f : Field) : (s.inc f).bfm = s.bfm := rfl
@[simp] theorem State.inc_rejoin (s : State) (f : Field) : (s.inc f).rejoin = s.rejoin := rfl
@[simp] theorem State.inc_slt (s : State) (f : Field) : (s.inc f).slt = s.slt := rfl
@[simp] theorem State.inc_dl (s : State) (f : Field) : (s.inc f).dl = s.dl := rfl
@[simp] theorem State.inc_tx (s : State) (f : Field) : (s.inc f).tx = s.tx := rfl
@[simp] theorem State.inc_txSwap (s : State) (f : Field) : (s.inc f).txSwap = s.txSwap := rfl
@[simp] theorem State.inc_rxSwap (s : State) (f : Field) : (s.inc f).rxSwap = s.rxSwap := rfl
@[simp] theorem State.inc_mute (s : State) (f : Field) : (s.inc f).mute = s.mute := rfl
@[simp] theorem State.inc_dpd (s : State) (f : Field) : (s.inc f).dpd = s.dpd := rfl
@[simp] theorem State.inc_rx (s : State) (f : Field) : (s.inc f).rx = s.rx := rfl
@[simp] theorem State.inc_prach (s : State) (f : Field) : (s.inc f).prach = s.prach := rfl
@[simp] theorem State.inc_prachOld (s : State) (f : Field) : (s.inc f).prachOld = s.prachOld := rfl
@[simp] theorem State.inc_praSets (s : State) (f : Field) : (s.inc f).praSets = s.praSets := rfl
@[simp] theorem State.inc_port (s : State) (f : Field) : (s.inc f).port = s.port := rfl
@[simp] theorem State.inc_lnk (s : State) (f : Field) : (s.inc f).lnk = s.lnk := rfl
@[simp] theorem State.inc_orx (s : State) (f : Field) : (s.inc f).orx = s.orx := rfl
@[simp] theorem State.inc_wch (s : State) (f : Field) : (s.inc f).wch = s.wch := rfl
@[simp] theorem State.inc_evu (s : State) (f : Field) : (s.inc f).evu = s.evu := rfl
@[simp] theorem State.inc_tim (s : State) (f : Field) : (s.inc f).tim = s.tim := rfl
@[simp] theorem State.inc_tly (s : State) (f : Field) : (s.inc f).tly = s.tly := rfl
@[simp] theorem State.inc_pll (s : State) (f : Field) : (s.inc f).pll = s.pll := rfl
@[simp] theorem State.inc_eng (s : State) (f : Field) : (s.inc f).eng = s.eng := rfl
@[simp] theorem State.inc_sto (s : State) (f : Field) : (s.inc f).sto = s.sto := rfl
@[simp] theorem State.inc_dma (s : State) (f : Field) : (s.inc f).dma = s.dma := rfl
@[simp] theorem State.inc_dmaPtr (s : State) (f : Field) : (s.inc f).dmaPtr = s.dmaPtr := rfl
@[simp] theorem State.inc_hpow (s : State) (f : Field) : (s.inc f).hpow = s.hpow := rfl
@[simp] theorem State.inc_pow (s : State) (f : Field) : (s.inc f).pow = s.pow := rfl
@[simp] theorem State.inc_clkOut (s : State) (f : Field) : (s.inc f).clkOut = s.clkOut := rfl
@[simp] theorem State.inc_thm (s : State) (f : Field) : (s.inc f).thm = s.thm := rfl
@[simp] theorem State.inc_hk (s : State) (f : Field) : (s.inc f).hk = s.hk := rfl
@[simp] theorem State.inc_bias (s : State) (f : Field) : (s.inc f).bias = s.bias := rfl
@[simp] theorem State.inc_cal (s : State) (f : Field) : (s.inc f).cal = s.cal := rfl
@[simp] theorem State.inc_bist (s : State) (f : Field) : (s.inc f).bist = s.bist := rfl
@[simp] theorem State.inc_stl (s : State) (f : Field) : (s.inc f).stl = s.stl := rfl
@[simp] theorem State.inc_bel (s : State) (f : Field) : (s.inc f).bel = s.bel := rfl
@[simp] theorem State.inc_agt (s : State) (f : Field) : (s.inc f).agt = s.agt := rfl
@[simp] theorem State.inc_boot (s : State) (f : Field) : (s.inc f).boot = s.boot := rfl
@[simp] theorem State.inc_calen (s : State) (f : Field) : (s.inc f).calen = s.calen := rfl
@[simp] theorem State.inc_tap (s : State) (f : Field) : (s.inc f).tap = s.tap := rfl
@[simp] theorem State.inc_edges (s : State) (f : Field) : (s.inc f).edges = s.edges := rfl
@[simp] theorem State.inc_pending (s : State) (f : Field) : (s.inc f).pending = s.pending := rfl

/-! ### `add` -/

@[simp] theorem State.add_now (s : State) (f : Field) (n : Nat) : (s.add f n).now = s.now := rfl
@[simp] theorem State.add_eff (s : State) (f : Field) (n : Nat) : (s.add f n).eff = s.eff := rfl
@[simp] theorem State.add_mem (s : State) (f : Field) (n : Nat) : (s.add f n).mem = s.mem := rfl
@[simp] theorem State.add_ecc (s : State) (f : Field) (n : Nat) : (s.add f n).ecc = s.ecc := rfl
@[simp] theorem State.add_resp (s : State) (f : Field) (n : Nat) : (s.add f n).resp = s.resp := rfl
@[simp] theorem State.add_out (s : State) (f : Field) (n : Nat) : (s.add f n).out = s.out := rfl
@[simp] theorem State.add_free (s : State) (f : Field) (n : Nat) : (s.add f n).free = s.free := rfl
@[simp] theorem State.add_flt (s : State) (f : Field) (n : Nat) : (s.add f n).flt = s.flt := rfl
@[simp] theorem State.add_evq (s : State) (f : Field) (n : Nat) : (s.add f n).evq = s.evq := rfl
@[simp] theorem State.add_stalled (s : State) (f : Field) (n : Nat) : (s.add f n).stalled = s.stalled := rfl
@[simp] theorem State.add_carPend (s : State) (f : Field) (n : Nat) : (s.add f n).carPend = s.carPend := rfl
@[simp] theorem State.add_carWas (s : State) (f : Field) (n : Nat) : (s.add f n).carWas = s.carWas := rfl
@[simp] theorem State.add_refcarDue (s : State) (f : Field) (n : Nat) : (s.add f n).refcarDue = s.refcarDue := rfl
@[simp] theorem State.add_rtc (s : State) (f : Field) (n : Nat) : (s.add f n).rtc = s.rtc := rfl
@[simp] theorem State.add_bfm (s : State) (f : Field) (n : Nat) : (s.add f n).bfm = s.bfm := rfl
@[simp] theorem State.add_rejoin (s : State) (f : Field) (n : Nat) : (s.add f n).rejoin = s.rejoin := rfl
@[simp] theorem State.add_slt (s : State) (f : Field) (n : Nat) : (s.add f n).slt = s.slt := rfl
@[simp] theorem State.add_dl (s : State) (f : Field) (n : Nat) : (s.add f n).dl = s.dl := rfl
@[simp] theorem State.add_tx (s : State) (f : Field) (n : Nat) : (s.add f n).tx = s.tx := rfl
@[simp] theorem State.add_txSwap (s : State) (f : Field) (n : Nat) : (s.add f n).txSwap = s.txSwap := rfl
@[simp] theorem State.add_rxSwap (s : State) (f : Field) (n : Nat) : (s.add f n).rxSwap = s.rxSwap := rfl
@[simp] theorem State.add_mute (s : State) (f : Field) (n : Nat) : (s.add f n).mute = s.mute := rfl
@[simp] theorem State.add_dpd (s : State) (f : Field) (n : Nat) : (s.add f n).dpd = s.dpd := rfl
@[simp] theorem State.add_rx (s : State) (f : Field) (n : Nat) : (s.add f n).rx = s.rx := rfl
@[simp] theorem State.add_prach (s : State) (f : Field) (n : Nat) : (s.add f n).prach = s.prach := rfl
@[simp] theorem State.add_prachOld (s : State) (f : Field) (n : Nat) : (s.add f n).prachOld = s.prachOld := rfl
@[simp] theorem State.add_praSets (s : State) (f : Field) (n : Nat) : (s.add f n).praSets = s.praSets := rfl
@[simp] theorem State.add_port (s : State) (f : Field) (n : Nat) : (s.add f n).port = s.port := rfl
@[simp] theorem State.add_lnk (s : State) (f : Field) (n : Nat) : (s.add f n).lnk = s.lnk := rfl
@[simp] theorem State.add_orx (s : State) (f : Field) (n : Nat) : (s.add f n).orx = s.orx := rfl
@[simp] theorem State.add_wch (s : State) (f : Field) (n : Nat) : (s.add f n).wch = s.wch := rfl
@[simp] theorem State.add_evu (s : State) (f : Field) (n : Nat) : (s.add f n).evu = s.evu := rfl
@[simp] theorem State.add_tim (s : State) (f : Field) (n : Nat) : (s.add f n).tim = s.tim := rfl
@[simp] theorem State.add_tly (s : State) (f : Field) (n : Nat) : (s.add f n).tly = s.tly := rfl
@[simp] theorem State.add_pll (s : State) (f : Field) (n : Nat) : (s.add f n).pll = s.pll := rfl
@[simp] theorem State.add_eng (s : State) (f : Field) (n : Nat) : (s.add f n).eng = s.eng := rfl
@[simp] theorem State.add_sto (s : State) (f : Field) (n : Nat) : (s.add f n).sto = s.sto := rfl
@[simp] theorem State.add_dma (s : State) (f : Field) (n : Nat) : (s.add f n).dma = s.dma := rfl
@[simp] theorem State.add_dmaPtr (s : State) (f : Field) (n : Nat) : (s.add f n).dmaPtr = s.dmaPtr := rfl
@[simp] theorem State.add_hpow (s : State) (f : Field) (n : Nat) : (s.add f n).hpow = s.hpow := rfl
@[simp] theorem State.add_pow (s : State) (f : Field) (n : Nat) : (s.add f n).pow = s.pow := rfl
@[simp] theorem State.add_clkOut (s : State) (f : Field) (n : Nat) : (s.add f n).clkOut = s.clkOut := rfl
@[simp] theorem State.add_thm (s : State) (f : Field) (n : Nat) : (s.add f n).thm = s.thm := rfl
@[simp] theorem State.add_hk (s : State) (f : Field) (n : Nat) : (s.add f n).hk = s.hk := rfl
@[simp] theorem State.add_bias (s : State) (f : Field) (n : Nat) : (s.add f n).bias = s.bias := rfl
@[simp] theorem State.add_cal (s : State) (f : Field) (n : Nat) : (s.add f n).cal = s.cal := rfl
@[simp] theorem State.add_bist (s : State) (f : Field) (n : Nat) : (s.add f n).bist = s.bist := rfl
@[simp] theorem State.add_stl (s : State) (f : Field) (n : Nat) : (s.add f n).stl = s.stl := rfl
@[simp] theorem State.add_bel (s : State) (f : Field) (n : Nat) : (s.add f n).bel = s.bel := rfl
@[simp] theorem State.add_agt (s : State) (f : Field) (n : Nat) : (s.add f n).agt = s.agt := rfl
@[simp] theorem State.add_boot (s : State) (f : Field) (n : Nat) : (s.add f n).boot = s.boot := rfl
@[simp] theorem State.add_calen (s : State) (f : Field) (n : Nat) : (s.add f n).calen = s.calen := rfl
@[simp] theorem State.add_tap (s : State) (f : Field) (n : Nat) : (s.add f n).tap = s.tap := rfl
@[simp] theorem State.add_edges (s : State) (f : Field) (n : Nat) : (s.add f n).edges = s.edges := rfl
@[simp] theorem State.add_pending (s : State) (f : Field) (n : Nat) : (s.add f n).pending = s.pending := rfl

/-! ### `setBit` -/

@[simp] theorem State.setBit_now (s : State) (f : Field) (n : Nat) : (s.setBit f n).now = s.now := rfl
@[simp] theorem State.setBit_eff (s : State) (f : Field) (n : Nat) : (s.setBit f n).eff = s.eff := rfl
@[simp] theorem State.setBit_mem (s : State) (f : Field) (n : Nat) : (s.setBit f n).mem = s.mem := rfl
@[simp] theorem State.setBit_ecc (s : State) (f : Field) (n : Nat) : (s.setBit f n).ecc = s.ecc := rfl
@[simp] theorem State.setBit_resp (s : State) (f : Field) (n : Nat) : (s.setBit f n).resp = s.resp := rfl
@[simp] theorem State.setBit_out (s : State) (f : Field) (n : Nat) : (s.setBit f n).out = s.out := rfl
@[simp] theorem State.setBit_free (s : State) (f : Field) (n : Nat) : (s.setBit f n).free = s.free := rfl
@[simp] theorem State.setBit_flt (s : State) (f : Field) (n : Nat) : (s.setBit f n).flt = s.flt := rfl
@[simp] theorem State.setBit_evq (s : State) (f : Field) (n : Nat) : (s.setBit f n).evq = s.evq := rfl
@[simp] theorem State.setBit_stalled (s : State) (f : Field) (n : Nat) : (s.setBit f n).stalled = s.stalled := rfl
@[simp] theorem State.setBit_carPend (s : State) (f : Field) (n : Nat) : (s.setBit f n).carPend = s.carPend := rfl
@[simp] theorem State.setBit_carWas (s : State) (f : Field) (n : Nat) : (s.setBit f n).carWas = s.carWas := rfl
@[simp] theorem State.setBit_refcarDue (s : State) (f : Field) (n : Nat) : (s.setBit f n).refcarDue = s.refcarDue := rfl
@[simp] theorem State.setBit_rtc (s : State) (f : Field) (n : Nat) : (s.setBit f n).rtc = s.rtc := rfl
@[simp] theorem State.setBit_bfm (s : State) (f : Field) (n : Nat) : (s.setBit f n).bfm = s.bfm := rfl
@[simp] theorem State.setBit_rejoin (s : State) (f : Field) (n : Nat) : (s.setBit f n).rejoin = s.rejoin := rfl
@[simp] theorem State.setBit_slt (s : State) (f : Field) (n : Nat) : (s.setBit f n).slt = s.slt := rfl
@[simp] theorem State.setBit_dl (s : State) (f : Field) (n : Nat) : (s.setBit f n).dl = s.dl := rfl
@[simp] theorem State.setBit_tx (s : State) (f : Field) (n : Nat) : (s.setBit f n).tx = s.tx := rfl
@[simp] theorem State.setBit_txSwap (s : State) (f : Field) (n : Nat) : (s.setBit f n).txSwap = s.txSwap := rfl
@[simp] theorem State.setBit_rxSwap (s : State) (f : Field) (n : Nat) : (s.setBit f n).rxSwap = s.rxSwap := rfl
@[simp] theorem State.setBit_mute (s : State) (f : Field) (n : Nat) : (s.setBit f n).mute = s.mute := rfl
@[simp] theorem State.setBit_dpd (s : State) (f : Field) (n : Nat) : (s.setBit f n).dpd = s.dpd := rfl
@[simp] theorem State.setBit_rx (s : State) (f : Field) (n : Nat) : (s.setBit f n).rx = s.rx := rfl
@[simp] theorem State.setBit_prach (s : State) (f : Field) (n : Nat) : (s.setBit f n).prach = s.prach := rfl
@[simp] theorem State.setBit_prachOld (s : State) (f : Field) (n : Nat) : (s.setBit f n).prachOld = s.prachOld := rfl
@[simp] theorem State.setBit_praSets (s : State) (f : Field) (n : Nat) : (s.setBit f n).praSets = s.praSets := rfl
@[simp] theorem State.setBit_port (s : State) (f : Field) (n : Nat) : (s.setBit f n).port = s.port := rfl
@[simp] theorem State.setBit_lnk (s : State) (f : Field) (n : Nat) : (s.setBit f n).lnk = s.lnk := rfl
@[simp] theorem State.setBit_orx (s : State) (f : Field) (n : Nat) : (s.setBit f n).orx = s.orx := rfl
@[simp] theorem State.setBit_wch (s : State) (f : Field) (n : Nat) : (s.setBit f n).wch = s.wch := rfl
@[simp] theorem State.setBit_evu (s : State) (f : Field) (n : Nat) : (s.setBit f n).evu = s.evu := rfl
@[simp] theorem State.setBit_tim (s : State) (f : Field) (n : Nat) : (s.setBit f n).tim = s.tim := rfl
@[simp] theorem State.setBit_tly (s : State) (f : Field) (n : Nat) : (s.setBit f n).tly = s.tly := rfl
@[simp] theorem State.setBit_pll (s : State) (f : Field) (n : Nat) : (s.setBit f n).pll = s.pll := rfl
@[simp] theorem State.setBit_eng (s : State) (f : Field) (n : Nat) : (s.setBit f n).eng = s.eng := rfl
@[simp] theorem State.setBit_sto (s : State) (f : Field) (n : Nat) : (s.setBit f n).sto = s.sto := rfl
@[simp] theorem State.setBit_dma (s : State) (f : Field) (n : Nat) : (s.setBit f n).dma = s.dma := rfl
@[simp] theorem State.setBit_dmaPtr (s : State) (f : Field) (n : Nat) : (s.setBit f n).dmaPtr = s.dmaPtr := rfl
@[simp] theorem State.setBit_hpow (s : State) (f : Field) (n : Nat) : (s.setBit f n).hpow = s.hpow := rfl
@[simp] theorem State.setBit_pow (s : State) (f : Field) (n : Nat) : (s.setBit f n).pow = s.pow := rfl
@[simp] theorem State.setBit_clkOut (s : State) (f : Field) (n : Nat) : (s.setBit f n).clkOut = s.clkOut := rfl
@[simp] theorem State.setBit_thm (s : State) (f : Field) (n : Nat) : (s.setBit f n).thm = s.thm := rfl
@[simp] theorem State.setBit_hk (s : State) (f : Field) (n : Nat) : (s.setBit f n).hk = s.hk := rfl
@[simp] theorem State.setBit_bias (s : State) (f : Field) (n : Nat) : (s.setBit f n).bias = s.bias := rfl
@[simp] theorem State.setBit_cal (s : State) (f : Field) (n : Nat) : (s.setBit f n).cal = s.cal := rfl
@[simp] theorem State.setBit_bist (s : State) (f : Field) (n : Nat) : (s.setBit f n).bist = s.bist := rfl
@[simp] theorem State.setBit_stl (s : State) (f : Field) (n : Nat) : (s.setBit f n).stl = s.stl := rfl
@[simp] theorem State.setBit_bel (s : State) (f : Field) (n : Nat) : (s.setBit f n).bel = s.bel := rfl
@[simp] theorem State.setBit_agt (s : State) (f : Field) (n : Nat) : (s.setBit f n).agt = s.agt := rfl
@[simp] theorem State.setBit_boot (s : State) (f : Field) (n : Nat) : (s.setBit f n).boot = s.boot := rfl
@[simp] theorem State.setBit_calen (s : State) (f : Field) (n : Nat) : (s.setBit f n).calen = s.calen := rfl
@[simp] theorem State.setBit_tap (s : State) (f : Field) (n : Nat) : (s.setBit f n).tap = s.tap := rfl
@[simp] theorem State.setBit_edges (s : State) (f : Field) (n : Nat) : (s.setBit f n).edges = s.edges := rfl
@[simp] theorem State.setBit_pending (s : State) (f : Field) (n : Nat) : (s.setBit f n).pending = s.pending := rfl

/-! ### `clrBit` -/

@[simp] theorem State.clrBit_now (s : State) (f : Field) (n : Nat) : (s.clrBit f n).now = s.now := rfl
@[simp] theorem State.clrBit_eff (s : State) (f : Field) (n : Nat) : (s.clrBit f n).eff = s.eff := rfl
@[simp] theorem State.clrBit_mem (s : State) (f : Field) (n : Nat) : (s.clrBit f n).mem = s.mem := rfl
@[simp] theorem State.clrBit_ecc (s : State) (f : Field) (n : Nat) : (s.clrBit f n).ecc = s.ecc := rfl
@[simp] theorem State.clrBit_resp (s : State) (f : Field) (n : Nat) : (s.clrBit f n).resp = s.resp := rfl
@[simp] theorem State.clrBit_out (s : State) (f : Field) (n : Nat) : (s.clrBit f n).out = s.out := rfl
@[simp] theorem State.clrBit_free (s : State) (f : Field) (n : Nat) : (s.clrBit f n).free = s.free := rfl
@[simp] theorem State.clrBit_flt (s : State) (f : Field) (n : Nat) : (s.clrBit f n).flt = s.flt := rfl
@[simp] theorem State.clrBit_evq (s : State) (f : Field) (n : Nat) : (s.clrBit f n).evq = s.evq := rfl
@[simp] theorem State.clrBit_stalled (s : State) (f : Field) (n : Nat) : (s.clrBit f n).stalled = s.stalled := rfl
@[simp] theorem State.clrBit_carPend (s : State) (f : Field) (n : Nat) : (s.clrBit f n).carPend = s.carPend := rfl
@[simp] theorem State.clrBit_carWas (s : State) (f : Field) (n : Nat) : (s.clrBit f n).carWas = s.carWas := rfl
@[simp] theorem State.clrBit_refcarDue (s : State) (f : Field) (n : Nat) : (s.clrBit f n).refcarDue = s.refcarDue := rfl
@[simp] theorem State.clrBit_rtc (s : State) (f : Field) (n : Nat) : (s.clrBit f n).rtc = s.rtc := rfl
@[simp] theorem State.clrBit_bfm (s : State) (f : Field) (n : Nat) : (s.clrBit f n).bfm = s.bfm := rfl
@[simp] theorem State.clrBit_rejoin (s : State) (f : Field) (n : Nat) : (s.clrBit f n).rejoin = s.rejoin := rfl
@[simp] theorem State.clrBit_slt (s : State) (f : Field) (n : Nat) : (s.clrBit f n).slt = s.slt := rfl
@[simp] theorem State.clrBit_dl (s : State) (f : Field) (n : Nat) : (s.clrBit f n).dl = s.dl := rfl
@[simp] theorem State.clrBit_tx (s : State) (f : Field) (n : Nat) : (s.clrBit f n).tx = s.tx := rfl
@[simp] theorem State.clrBit_txSwap (s : State) (f : Field) (n : Nat) : (s.clrBit f n).txSwap = s.txSwap := rfl
@[simp] theorem State.clrBit_rxSwap (s : State) (f : Field) (n : Nat) : (s.clrBit f n).rxSwap = s.rxSwap := rfl
@[simp] theorem State.clrBit_mute (s : State) (f : Field) (n : Nat) : (s.clrBit f n).mute = s.mute := rfl
@[simp] theorem State.clrBit_dpd (s : State) (f : Field) (n : Nat) : (s.clrBit f n).dpd = s.dpd := rfl
@[simp] theorem State.clrBit_rx (s : State) (f : Field) (n : Nat) : (s.clrBit f n).rx = s.rx := rfl
@[simp] theorem State.clrBit_prach (s : State) (f : Field) (n : Nat) : (s.clrBit f n).prach = s.prach := rfl
@[simp] theorem State.clrBit_prachOld (s : State) (f : Field) (n : Nat) : (s.clrBit f n).prachOld = s.prachOld := rfl
@[simp] theorem State.clrBit_praSets (s : State) (f : Field) (n : Nat) : (s.clrBit f n).praSets = s.praSets := rfl
@[simp] theorem State.clrBit_port (s : State) (f : Field) (n : Nat) : (s.clrBit f n).port = s.port := rfl
@[simp] theorem State.clrBit_lnk (s : State) (f : Field) (n : Nat) : (s.clrBit f n).lnk = s.lnk := rfl
@[simp] theorem State.clrBit_orx (s : State) (f : Field) (n : Nat) : (s.clrBit f n).orx = s.orx := rfl
@[simp] theorem State.clrBit_wch (s : State) (f : Field) (n : Nat) : (s.clrBit f n).wch = s.wch := rfl
@[simp] theorem State.clrBit_evu (s : State) (f : Field) (n : Nat) : (s.clrBit f n).evu = s.evu := rfl
@[simp] theorem State.clrBit_tim (s : State) (f : Field) (n : Nat) : (s.clrBit f n).tim = s.tim := rfl
@[simp] theorem State.clrBit_tly (s : State) (f : Field) (n : Nat) : (s.clrBit f n).tly = s.tly := rfl
@[simp] theorem State.clrBit_pll (s : State) (f : Field) (n : Nat) : (s.clrBit f n).pll = s.pll := rfl
@[simp] theorem State.clrBit_eng (s : State) (f : Field) (n : Nat) : (s.clrBit f n).eng = s.eng := rfl
@[simp] theorem State.clrBit_sto (s : State) (f : Field) (n : Nat) : (s.clrBit f n).sto = s.sto := rfl
@[simp] theorem State.clrBit_dma (s : State) (f : Field) (n : Nat) : (s.clrBit f n).dma = s.dma := rfl
@[simp] theorem State.clrBit_dmaPtr (s : State) (f : Field) (n : Nat) : (s.clrBit f n).dmaPtr = s.dmaPtr := rfl
@[simp] theorem State.clrBit_hpow (s : State) (f : Field) (n : Nat) : (s.clrBit f n).hpow = s.hpow := rfl
@[simp] theorem State.clrBit_pow (s : State) (f : Field) (n : Nat) : (s.clrBit f n).pow = s.pow := rfl
@[simp] theorem State.clrBit_clkOut (s : State) (f : Field) (n : Nat) : (s.clrBit f n).clkOut = s.clkOut := rfl
@[simp] theorem State.clrBit_thm (s : State) (f : Field) (n : Nat) : (s.clrBit f n).thm = s.thm := rfl
@[simp] theorem State.clrBit_hk (s : State) (f : Field) (n : Nat) : (s.clrBit f n).hk = s.hk := rfl
@[simp] theorem State.clrBit_bias (s : State) (f : Field) (n : Nat) : (s.clrBit f n).bias = s.bias := rfl
@[simp] theorem State.clrBit_cal (s : State) (f : Field) (n : Nat) : (s.clrBit f n).cal = s.cal := rfl
@[simp] theorem State.clrBit_bist (s : State) (f : Field) (n : Nat) : (s.clrBit f n).bist = s.bist := rfl
@[simp] theorem State.clrBit_stl (s : State) (f : Field) (n : Nat) : (s.clrBit f n).stl = s.stl := rfl
@[simp] theorem State.clrBit_bel (s : State) (f : Field) (n : Nat) : (s.clrBit f n).bel = s.bel := rfl
@[simp] theorem State.clrBit_agt (s : State) (f : Field) (n : Nat) : (s.clrBit f n).agt = s.agt := rfl
@[simp] theorem State.clrBit_boot (s : State) (f : Field) (n : Nat) : (s.clrBit f n).boot = s.boot := rfl
@[simp] theorem State.clrBit_calen (s : State) (f : Field) (n : Nat) : (s.clrBit f n).calen = s.calen := rfl
@[simp] theorem State.clrBit_tap (s : State) (f : Field) (n : Nat) : (s.clrBit f n).tap = s.tap := rfl
@[simp] theorem State.clrBit_edges (s : State) (f : Field) (n : Nat) : (s.clrBit f n).edges = s.edges := rfl
@[simp] theorem State.clrBit_pending (s : State) (f : Field) (n : Nat) : (s.clrBit f n).pending = s.pending := rfl

/-! ### `idle` -/

@[simp] theorem State.idle_regs (s : State) : (s.idle).regs = s.regs := rfl
@[simp] theorem State.idle_eff (s : State) : (s.idle).eff = s.eff := rfl
@[simp] theorem State.idle_mem (s : State) : (s.idle).mem = s.mem := rfl
@[simp] theorem State.idle_ecc (s : State) : (s.idle).ecc = s.ecc := rfl
@[simp] theorem State.idle_resp (s : State) : (s.idle).resp = s.resp := rfl
@[simp] theorem State.idle_out (s : State) : (s.idle).out = s.out := rfl
@[simp] theorem State.idle_free (s : State) : (s.idle).free = s.free := rfl
@[simp] theorem State.idle_flt (s : State) : (s.idle).flt = s.flt := rfl
@[simp] theorem State.idle_evq (s : State) : (s.idle).evq = s.evq := rfl
@[simp] theorem State.idle_stalled (s : State) : (s.idle).stalled = s.stalled := rfl
@[simp] theorem State.idle_carPend (s : State) : (s.idle).carPend = s.carPend := rfl
@[simp] theorem State.idle_carWas (s : State) : (s.idle).carWas = s.carWas := rfl
@[simp] theorem State.idle_refcarDue (s : State) : (s.idle).refcarDue = s.refcarDue := rfl
@[simp] theorem State.idle_rtc (s : State) : (s.idle).rtc = s.rtc := rfl
@[simp] theorem State.idle_bfm (s : State) : (s.idle).bfm = s.bfm := rfl
@[simp] theorem State.idle_rejoin (s : State) : (s.idle).rejoin = s.rejoin := rfl
@[simp] theorem State.idle_slt (s : State) : (s.idle).slt = s.slt := rfl
@[simp] theorem State.idle_dl (s : State) : (s.idle).dl = s.dl := rfl
@[simp] theorem State.idle_tx (s : State) : (s.idle).tx = s.tx := rfl
@[simp] theorem State.idle_txSwap (s : State) : (s.idle).txSwap = s.txSwap := rfl
@[simp] theorem State.idle_rxSwap (s : State) : (s.idle).rxSwap = s.rxSwap := rfl
@[simp] theorem State.idle_mute (s : State) : (s.idle).mute = s.mute := rfl
@[simp] theorem State.idle_dpd (s : State) : (s.idle).dpd = s.dpd := rfl
@[simp] theorem State.idle_rx (s : State) : (s.idle).rx = s.rx := rfl
@[simp] theorem State.idle_prach (s : State) : (s.idle).prach = s.prach := rfl
@[simp] theorem State.idle_prachOld (s : State) : (s.idle).prachOld = s.prachOld := rfl
@[simp] theorem State.idle_praSets (s : State) : (s.idle).praSets = s.praSets := rfl
@[simp] theorem State.idle_port (s : State) : (s.idle).port = s.port := rfl
@[simp] theorem State.idle_lnk (s : State) : (s.idle).lnk = s.lnk := rfl
@[simp] theorem State.idle_orx (s : State) : (s.idle).orx = s.orx := rfl
@[simp] theorem State.idle_wch (s : State) : (s.idle).wch = s.wch := rfl
@[simp] theorem State.idle_evu (s : State) : (s.idle).evu = s.evu := rfl
@[simp] theorem State.idle_tim (s : State) : (s.idle).tim = s.tim := rfl
@[simp] theorem State.idle_tly (s : State) : (s.idle).tly = s.tly := rfl
@[simp] theorem State.idle_pll (s : State) : (s.idle).pll = s.pll := rfl
@[simp] theorem State.idle_eng (s : State) : (s.idle).eng = s.eng := rfl
@[simp] theorem State.idle_sto (s : State) : (s.idle).sto = s.sto := rfl
@[simp] theorem State.idle_dma (s : State) : (s.idle).dma = s.dma := rfl
@[simp] theorem State.idle_dmaPtr (s : State) : (s.idle).dmaPtr = s.dmaPtr := rfl
@[simp] theorem State.idle_hpow (s : State) : (s.idle).hpow = s.hpow := rfl
@[simp] theorem State.idle_pow (s : State) : (s.idle).pow = s.pow := rfl
@[simp] theorem State.idle_clkOut (s : State) : (s.idle).clkOut = s.clkOut := rfl
@[simp] theorem State.idle_thm (s : State) : (s.idle).thm = s.thm := rfl
@[simp] theorem State.idle_hk (s : State) : (s.idle).hk = s.hk := rfl
@[simp] theorem State.idle_bias (s : State) : (s.idle).bias = s.bias := rfl
@[simp] theorem State.idle_cal (s : State) : (s.idle).cal = s.cal := rfl
@[simp] theorem State.idle_bist (s : State) : (s.idle).bist = s.bist := rfl
@[simp] theorem State.idle_stl (s : State) : (s.idle).stl = s.stl := rfl
@[simp] theorem State.idle_bel (s : State) : (s.idle).bel = s.bel := rfl
@[simp] theorem State.idle_agt (s : State) : (s.idle).agt = s.agt := rfl
@[simp] theorem State.idle_boot (s : State) : (s.idle).boot = s.boot := rfl
@[simp] theorem State.idle_calen (s : State) : (s.idle).calen = s.calen := rfl
@[simp] theorem State.idle_tap (s : State) : (s.idle).tap = s.tap := rfl
@[simp] theorem State.idle_edges (s : State) : (s.idle).edges = s.edges := rfl
@[simp] theorem State.idle_pending (s : State) : (s.idle).pending = s.pending := rfl

/-! ### What the updates write -/

@[simp] theorem State.at_now (s : State) (t : Nat) : (s.at t).now = max s.now t := rfl
@[simp] theorem State.emit_out (s : State) (o : Out) : (s.emit o).out = o :: s.out := rfl
@[simp] theorem State.ok_resp (s : State) : s.ok.resp = { err := false, data := 0 } := rfl
@[simp] theorem State.err_resp (s : State) : s.err.resp = { err := true, data := 0 } := rfl
@[simp] theorem State.idle_now (s : State) : s.idle.now = s.now + tickU := rfl
@[simp] theorem State.setEng_eng (s : State) (e : Fin 9) (x : Eng) : (s.setEng e x).eng = s.eng.set e x := rfl
@[simp] theorem State.setEng_get (s : State) (e : Fin 9) (x : Eng) : (s.setEng e x).eng[e] = x := by
  simp [State.setEng]
theorem State.setEng_get_ne (s : State) {e k : Fin 9} (x : Eng) (h : k ≠ e) : (s.setEng e x).eng[k] = s.eng[k] := by
  have : e.val ≠ k.val := fun q => h (Fin.ext q.symm)
  simp [State.setEng, this]
@[simp] theorem State.setDma_get (s : State) (h c : Fin 8) (x : DmaCh) : (s.setDma h c x).dmaCh h c = x := by
  simp [State.setDma, State.dmaCh]
@[simp] theorem State.setHpow_get (s : State) (h : Fin 8) (x : HPow) : (s.setHpow h x).hpow[h] = x := by
  simp [State.setHpow]
theorem State.setHpow_get_ne (s : State) {h k : Fin 8} (x : HPow) (q : k ≠ h) : (s.setHpow h x).hpow[k] = s.hpow[k] := by
  have : h.val ≠ k.val := fun e => q (Fin.ext e.symm)
  simp [State.setHpow, this]

/-! ### Registers -/

@[simp] theorem State.rd_wr_same (s : State) (a : Nat) (v : Word) : (s.wr a v).rd a = v := rfRead_write_same _ _ _
theorem State.rd_wr_ne (s : State) {a b : Nat} (v : Word) (h : b ≠ a) : (s.wr a v).rd b = s.rd b := rfRead_write_ne _ _ h
@[simp] theorem State.erd_ewr_same (s : State) (a : Nat) (v : Word) : (s.ewr a v).erd a = v := rfRead_write_same _ _ _
theorem State.erd_ewr_ne (s : State) {a b : Nat} (v : Word) (h : b ≠ a) : (s.ewr a v).erd b = s.erd b := rfRead_write_ne _ _ h
@[simp] theorem State.erd_wr (s : State) (a b : Nat) (v : Word) : (s.wr a v).erd b = s.erd b := rfl
@[simp] theorem State.rd_ewr (s : State) (a b : Nat) (v : Word) : (s.ewr a v).rd b = s.rd b := rfl
@[simp] theorem State.erd_put (s : State) (f : Field) (v b : Nat) : (s.put f v).erd b = s.erd b := rfl
theorem State.rd_put_ne (s : State) {f : Field} {b : Nat} (v : Nat) (h : b ≠ f.reg) : (s.put f v).rd b = s.rd b := State.rd_wr_ne _ _ h
theorem State.rd_put_same (s : State) (f : Field) (v : Nat) : (s.put f v).rd f.reg = setBits f (s.rd f.reg) v := State.rd_wr_same _ _ _

/-- A register's word depends on the register file alone. -/
theorem State.rd_congr {s t : State} (h : t.regs = s.regs) (a : Nat) : t.rd a = s.rd a := by unfold State.rd; rw [h]
/-- A field's value depends on the register file alone. -/
theorem State.get_congr {s t : State} (h : t.regs = s.regs) (f : Field) : t.get f = s.get f := by unfold State.get; rw [State.rd_congr h]

/-- A field reads what was last put into it. -/
theorem State.get_put_same (s : State) (f : Field) (v : Nat) (hf : f.lo + f.width ≤ 32) : (s.put f v).get f = v % 2 ^ f.width := by
  unfold State.get State.put
  rw [State.rd_wr_same, getBits_setBits_same f _ v hf]

/-- A field put leaves the other registers alone. -/
theorem State.get_put_reg (s : State) {f g : Field} (v : Nat) (h : g.reg ≠ f.reg) : (s.put f v).get g = s.get g := by
  unfold State.get State.put
  rw [State.rd_wr_ne _ _ h]

/-- A field put leaves the fields beside it in its register alone. -/
theorem State.get_put_ne (s : State) {f g : Field} (v : Nat) (hf : f.lo + f.width ≤ 32) (h : g.lo + g.width ≤ f.lo ∨ f.lo + f.width ≤ g.lo) :
    (s.put f v).get g = s.get g := by
  by_cases hr : g.reg = f.reg
  · unfold State.get State.put
    rw [hr, State.rd_wr_same, getBits_setBits_ne f g _ v hf h]
  · exact State.get_put_reg s v hr

end Sys2Proof.Machine
end

