-- ==== Sys2Proof/Laws/Closed.lean ====
section
/-!
SUPPORT. Predicates on states that every operation of the part keeps. `Closed P` says that `P` is kept by the few operations that change the register files, the
stores, the held carrier values, what has left the part and the count of free values, and that it looks at nothing else but the queue. The files Keeps<X>.lean show, for
one definition after the other, that a closed predicate is kept by it; Sys2Proof/Laws/Instances.lean gives the predicates.
-/

namespace Sys2Proof.Machine

/-- A predicate that the primitive operations keep and that depends on nothing else. -/
structure Closed (P : State → Prop) : Prop where
  /-- It looks at these fields alone. -/
  congr : ∀ {s t : State}, t.regs = s.regs → t.eff = s.eff → t.mem = s.mem → t.out = s.out → t.free = s.free → t.carPend = s.carPend →
    t.pending = s.pending → P s → P t
  /-- A register as shown is written. -/
  wr : ∀ s a v, P s → P (s.wr a v)
  /-- A setting is put in force. -/
  ewr : ∀ s a v, P s → P (s.ewr a v)
  /-- Registers return to their reset values. -/
  resetRegs : ∀ s p, P s → P (s.resetRegs p)
  /-- The stores change, in canonical form if they were. -/
  mem : ∀ (s : State) m, P s → (Memory.wf s.mem → Memory.wf m) → P { s with mem := m }
  /-- The held carrier values change, in canonical form if all was. -/
  hold : ∀ (s : State) c, P s → (rfWf s.regs → s.heldWf → ∀ p, c = some p → rfWf p.vals) → P { s with carPend := c }
  /-- Carrier values that a state held are put in force. -/
  merge : ∀ (s u : State) q p, P s → P u → u.carPend = some p → P { s with eff := rfMerge q p.vals s.eff, carPend := none }
  /-- Something leaves the part. -/
  emit : ∀ s o, P s → P (s.emit o)
  /-- A free value is drawn. -/
  drawn : ∀ s : State, P s → P s.drawn.2
  /-- The settings that a commit replaced come back for one symbol. -/
  under : ∀ (s : State) w, P s → P (s.under w)
  /-- The settings in force of another state. -/
  settingsOf : ∀ s t : State, P s → P t → P (t.settingsOf s)
  /-- A device reset. -/
  device : ∀ s, P s → P (deviceReset s)
  /-- The Hearth domain powers up. -/
  hearth : ∀ t s u, P s → execHearthPowerUp t s = .next u → P u

section
variable {P : State → Prop}

/-- A record update of other fields. -/
theorem Closed.mk' (H : Closed P) {s : State} (hs : P s) (now : Nat) (ecc : List EccErr) (resp : Resp) (flt : Flt) (evq : Vector (List Nat) 8) (stalled : List Stalled) (carWas : List (Nat × RegFile)) (refcarDue : Option Nat) (rtc : Rtc) (bfm : Vector Bfm 8) (rejoin : Vector (Option Nat) 8) (slt : Vector Slt 8) (dl : Dl) (tx : Vector Tx 8) (txSwap : Vector (Option SwapReq) 64) (rxSwap : Vector (Option SwapReq) 64) (mute : Vector Mute 64) (dpd : Vector Dpd 64) (rx : Vector Rx 8) (prach : Vector (Option Occasion) 4) (prachOld : Vector (List Occasion) 4) (praSets : List SetPend) (port : Port) (lnk : Lnk) (orx : Vector Orx 8) (wch : Wch) (evu : Vector Evu 8) (tim : Tim) (tly : Tly) (pll : Vector Pll 8) (eng : Vector Eng 9) (sto : Vector Sto 10) (dma : Vector DmaCh 64) (dmaPtr : Vector Nat 8) (hpow : Vector HPow 8) (pow : Pow) (clkOut : Vector ClkOut 4) (thm : Thm) (hk : Hk) (bias : Vector Bias 32) (cal : Cal) (bist : Bist) (stl : Stl) (bel : Bel) (agt : Agt) (boot : Boot) (calen : Calendar) (tap : Tap) (edges : List (Nat × Nat × Nat)) : P ⟨now, s.regs, s.eff, s.mem, ecc, resp, s.out, s.free, flt, evq, stalled, s.carPend, carWas, refcarDue, rtc, bfm, rejoin, slt, dl, tx, txSwap, rxSwap, mute, dpd, rx, prach, prachOld, praSets, port, lnk, orx, wch, evu, tim, tly, pll, eng, sto, dma, dmaPtr, hpow, pow, clkOut, thm, hk, bias, cal, bist, stl, bel, agt, boot, calen, tap, edges, s.pending⟩ :=
  H.congr (s := s) rfl rfl rfl rfl rfl rfl rfl hs

/-- The same with other held carrier values. -/
theorem Closed.mkHold (H : Closed P) {s : State} (c : Option CarPend) (hs : P s) (hc : rfWf s.regs → s.heldWf → ∀ p, c = some p → rfWf p.vals) (now : Nat) (ecc : List EccErr) (resp : Resp) (flt : Flt) (evq : Vector (List Nat) 8) (stalled : List Stalled) (carWas : List (Nat × RegFile)) (refcarDue : Option Nat) (rtc : Rtc) (bfm : Vector Bfm 8) (rejoin : Vector (Option Nat) 8) (slt : Vector Slt 8) (dl : Dl) (tx : Vector Tx 8) (txSwap : Vector (Option SwapReq) 64) (rxSwap : Vector (Option SwapReq) 64) (mute : Vector Mute 64) (dpd : Vector Dpd 64) (rx : Vector Rx 8) (prach : Vector (Option Occasion) 4) (prachOld : Vector (List Occasion) 4) (praSets : List SetPend) (port : Port) (lnk : Lnk) (orx : Vector Orx 8) (wch : Wch) (evu : Vector Evu 8) (tim : Tim) (tly : Tly) (pll : Vector Pll 8) (eng : Vector Eng 9) (sto : Vector Sto 10) (dma : Vector DmaCh 64) (dmaPtr : Vector Nat 8) (hpow : Vector HPow 8) (pow : Pow) (clkOut : Vector ClkOut 4) (thm : Thm) (hk : Hk) (bias : Vector Bias 32) (cal : Cal) (bist : Bist) (stl : Stl) (bel : Bel) (agt : Agt) (boot : Boot) (calen : Calendar) (tap : Tap) (edges : List (Nat × Nat × Nat)) : P ⟨now, s.regs, s.eff, s.mem, ecc, resp, s.out, s.free, flt, evq, stalled, c, carWas, refcarDue, rtc, bfm, rejoin, slt, dl, tx, txSwap, rxSwap, mute, dpd, rx, prach, prachOld, praSets, port, lnk, orx, wch, evu, tim, tly, pll, eng, sto, dma, dmaPtr, hpow, pow, clkOut, thm, hk, bias, cal, bist, stl, bel, agt, boot, calen, tap, edges, s.pending⟩ :=
  H.congr (s := { s with carPend := c }) rfl rfl rfl rfl rfl rfl rfl (H.hold s c hs hc)

/-- The same where the held carrier values are put in force. -/
theorem Closed.mkMerge (H : Closed P) {s u : State} (q : Nat → Bool) (p : CarPend) (hs : P s) (hu : P u) (hp : u.carPend = some p) (now : Nat) (ecc : List EccErr) (resp : Resp) (flt : Flt) (evq : Vector (List Nat) 8) (stalled : List Stalled) (carWas : List (Nat × RegFile)) (refcarDue : Option Nat) (rtc : Rtc) (bfm : Vector Bfm 8) (rejoin : Vector (Option Nat) 8) (slt : Vector Slt 8) (dl : Dl) (tx : Vector Tx 8) (txSwap : Vector (Option SwapReq) 64) (rxSwap : Vector (Option SwapReq) 64) (mute : Vector Mute 64) (dpd : Vector Dpd 64) (rx : Vector Rx 8) (prach : Vector (Option Occasion) 4) (prachOld : Vector (List Occasion) 4) (praSets : List SetPend) (port : Port) (lnk : Lnk) (orx : Vector Orx 8) (wch : Wch) (evu : Vector Evu 8) (tim : Tim) (tly : Tly) (pll : Vector Pll 8) (eng : Vector Eng 9) (sto : Vector Sto 10) (dma : Vector DmaCh 64) (dmaPtr : Vector Nat 8) (hpow : Vector HPow 8) (pow : Pow) (clkOut : Vector ClkOut 4) (thm : Thm) (hk : Hk) (bias : Vector Bias 32) (cal : Cal) (bist : Bist) (stl : Stl) (bel : Bel) (agt : Agt) (boot : Boot) (calen : Calendar) (tap : Tap) (edges : List (Nat × Nat × Nat)) : P ⟨now, s.regs, rfMerge q p.vals s.eff, s.mem, ecc, resp, s.out, s.free, flt, evq, stalled, none, carWas, refcarDue, rtc, bfm, rejoin, slt, dl, tx, txSwap, rxSwap, mute, dpd, rx, prach, prachOld, praSets, port, lnk, orx, wch, evu, tim, tly, pll, eng, sto, dma, dmaPtr, hpow, pow, clkOut, thm, hk, bias, cal, bist, stl, bel, agt, boot, calen, tap, edges, s.pending⟩ :=
  H.congr (s := { s with eff := rfMerge q p.vals s.eff, carPend := none }) rfl rfl rfl rfl rfl rfl rfl (H.merge s u q p hs hu hp)

theorem ite_keeps {c : Prop} [Decidable c] {a b : State} (ha : c → P a) (hb : ¬c → P b) : P (if c then a else b) := by
  split
  · exact ha ‹_›
  · exact hb ‹_›

theorem dite_keeps {c : Prop} [Decidable c] {a : c → State} {b : ¬c → State} (ha : ∀ h, P (a h)) (hb : ∀ h, P (b h)) : P (if h : c then a h else b h) := by
  split
  · exact ha _
  · exact hb _

theorem ite_fst {α : Type} {c : Prop} [Decidable c] {a b : State × α} (ha : c → P a.1) (hb : ¬c → P b.1) : P (if c then a else b).1 := by
  split
  · exact ha ‹_›
  · exact hb ‹_›

theorem ite_snd {α : Type} {c : Prop} [Decidable c] {a b : α × State} (ha : c → P a.2) (hb : ¬c → P b.2) : P (if c then a else b).2 := by
  split
  · exact ha ‹_›
  · exact hb ‹_›

theorem ite_snd2 {α β : Type} {c : Prop} [Decidable c] {a b : α × β × State} (ha : c → P a.2.2) (hb : ¬c → P b.2.2) : P (if c then a else b).2.2 := by
  split
  · exact ha ‹_›
  · exact hb ‹_›

theorem ite_snd3 {α β γ : Type} {c : Prop} [Decidable c] {a b : α × β × γ × State} (ha : c → P a.2.2.2) (hb : ¬c → P b.2.2.2) :
    P (if c then a else b).2.2.2 := by
  split
  · exact ha ‹_›
  · exact hb ‹_›

theorem foldl_keeps {β : Type} {f : State → β → State} {l : List β} {s : State} (hf : ∀ s b, P s → P (f s b)) (hs : P s) : P (l.foldl f s) := by
  induction l generalizing s with
  | nil => exact hs
  | cons b t ih => exact ih (hf _ _ hs)

theorem foldl_fst {α β : Type} {f : State × α → β → State × α} {l : List β} {s : State × α} (hf : ∀ s b, P s.1 → P (f s b).1) (hs : P s.1) :
    P (l.foldl f s).1 := by
  induction l generalizing s with
  | nil => exact hs
  | cons b t ih => exact ih (hf _ _ hs)

theorem foldl_snd {α β : Type} {f : α × State → β → α × State} {l : List β} {s : α × State} (hf : ∀ s b, P s.2 → P (f s b).2) (hs : P s.2) :
    P (l.foldl f s).2 := by
  induction l generalizing s with
  | nil => exact hs
  | cons b t ih => exact ih (hf _ _ hs)

theorem snd_of_eq {α : Type} {x : α × State} {a : α} {s : State} (h : x = (a, s)) (hx : P x.2) : P s := by rw [h] at hx; exact hx

theorem fst_of_eq {α : Type} {x : State × α} {a : α} {s : State} (h : x = (s, a)) (hx : P x.1) : P s := by rw [h] at hx; exact hx

theorem snd2_of_eq {α β : Type} {x : α × β × State} {a : α} {b : β} {s : State} (h : x = (a, b, s)) (hx : P x.2.2) : P s := by rw [h] at hx; exact hx

theorem next_keeps {x : State} (h : P x) : ∀ t, (Host.Outcome.next x : Host.Outcome State Fault Refusal) = .next t → P t := by
  intro t e
  cases e
  exact h

theorem some_keeps {x : State} (h : P x) : ∀ t, some x = some t → P t := by
  intro t e
  cases e
  exact h

theorem none_keeps : ∀ t, (none : Option State) = some t → P t := by
  intro t e
  cases e

theorem ite_some_keeps {c : Prop} [Decidable c] {a b : Option State} (ha : c → ∀ t, a = some t → P t) (hb : ¬c → ∀ t, b = some t → P t) :
    ∀ t, (if c then a else b) = some t → P t := by
  split
  · exact ha ‹_›
  · exact hb ‹_›

theorem getD_keeps {x : Option State} {s : State} (hx : ∀ t, x = some t → P t) (hs : P s) : P (x.getD s) := by
  cases x with
  | none => exact hs
  | some t => exact hx t rfl

end

end Sys2Proof.Machine
end

