-- ==== Sys2Proof/Laws/Raise.lean ====
section
/-!
SUPPORT. What raising a fault can change (R474, R477 to R488): the fault log, what has left the part, the host port and a link in L1, the registers as shown, and for a severity above
degrade the state that a safety clear ends. Every other field is as before.
-/

namespace Sys2Proof.Machine

/-- A predicate on states that looks at no field of `regs, out, port, flt, lnk`. -/
abbrev QuietLow (P : State → Prop) : Prop := ∀ (s : State) (regs' : RegFile) (out' : List Out) (flt' : Flt) (port' : Port) (lnk' : Lnk), P s → P ⟨s.now, regs', s.eff, s.mem, s.ecc, s.resp, out', s.free, flt', s.evq, s.stalled, s.carPend, s.carWas, s.refcarDue, s.rtc, s.bfm, s.rejoin, s.slt, s.dl, s.tx, s.txSwap, s.rxSwap, s.mute, s.dpd, s.rx, s.prach, s.prachOld, s.praSets, port', lnk', s.orx, s.wch, s.evu, s.tim, s.tly, s.pll, s.eng, s.sto, s.dma, s.dmaPtr, s.hpow, s.pow, s.clkOut, s.thm, s.hk, s.bias, s.cal, s.bist, s.stl, s.bel, s.agt, s.boot, s.calen, s.tap, s.edges, s.pending⟩

theorem quietLow_State_wr {P : State → Prop} (H : QuietLow P) (s : State) (a : ℕ) (v : Word) (keep_s : P s) : P (State.wr s a v) := by
  unfold State.wr
  try dsimp only
  repeat' first
    | with_reducible assumption
    | with_reducible refine ite_keeps (fun _ => ?_) (fun _ => ?_)
    | with_reducible refine foldl_keeps (fun _ _ _ => ?_) ?_
    | split
    | dsimp only
    | with_reducible apply H

theorem quietLow_State_put {P : State → Prop} (H : QuietLow P) (s : State) (f : Field) (v : ℕ) (keep_s : P s) : P (State.put s f v) := by
  unfold State.put
  try dsimp only
  repeat' first
    | with_reducible assumption
    | with_reducible apply quietLow_State_wr H

theorem quietLow_State_clrBit {P : State → Prop} (H : QuietLow P) (s : State) (f : Field) (n : ℕ) (keep_s : P s) : P (State.clrBit s f n) := by
  unfold State.clrBit
  try dsimp only
  repeat' first
    | with_reducible assumption
    | with_reducible apply quietLow_State_put H

theorem quietLow_State_add {P : State → Prop} (H : QuietLow P) (s : State) (f : Field) (n : ℕ) (keep_s : P s) : P (State.add s f n) := by
  unfold State.add
  try dsimp only
  repeat' first
    | with_reducible assumption
    | with_reducible apply quietLow_State_put H

theorem quietLow_State_inc {P : State → Prop} (H : QuietLow P) (s : State) (f : Field) (keep_s : P s) : P (State.inc s f) := by
  unfold State.inc
  try dsimp only
  repeat' first
    | with_reducible assumption
    | with_reducible apply quietLow_State_add H

theorem quietLow_State_leaveL1 {P : State → Prop} (H : QuietLow P) (s : State) (keep_s : P s) : P (State.leaveL1 s) := by
  unfold State.leaveL1
  try dsimp only
  repeat' first
    | with_reducible assumption
    | with_reducible apply quietLow_State_put H
    | with_reducible refine ite_keeps (fun _ => ?_) (fun _ => ?_)
    | with_reducible refine foldl_keeps (fun _ _ _ => ?_) ?_
    | split
    | dsimp only
    | with_reducible apply H

theorem quietLow_State_stageNow {P : State → Prop} (H : QuietLow P) (s : State) (f : ℕ) (bytes : List ℕ) (keep_s : P s) : P (State.stageNow s f bytes) := by
  unfold State.stageNow
  try dsimp only
  repeat' first
    | with_reducible assumption
    | with_reducible apply quietLow_State_leaveL1 H
    | with_reducible apply quietLow_State_put H
    | with_reducible refine ite_keeps (fun _ => ?_) (fun _ => ?_)
    | with_reducible refine foldl_keeps (fun _ _ _ => ?_) ?_
    | split
    | dsimp only
    | with_reducible apply H

theorem quietLow_State_stage {P : State → Prop} (H : QuietLow P) (s : State) (f : ℕ) (bytes : List ℕ) (keep_s : P s) : P (State.stage s f bytes) := by
  unfold State.stage
  try dsimp only
  repeat' first
    | with_reducible assumption
    | with_reducible apply quietLow_State_inc H
    | with_reducible apply quietLow_State_stageNow H
    | with_reducible refine ite_keeps (fun _ => ?_) (fun _ => ?_)
    | with_reducible refine foldl_keeps (fun _ _ _ => ?_) ?_
    | split
    | dsimp only
    | with_reducible apply H

theorem quietLow_State_setPinOwner {P : State → Prop} (H : QuietLow P) (s : State) (h : Fin 8) (j : ℕ) (o : ℕ) (keep_s : P s) : P (State.setPinOwner s h j o) := by
  unfold State.setPinOwner
  try dsimp only
  repeat' first
    | with_reducible assumption
    | with_reducible apply quietLow_State_put H

theorem quietLow_State_drivePins {P : State → Prop} (H : QuietLow P) (s : State) (h : Fin 8) (mask : ℕ) (v : ℕ) (keep_s : P s) : P (State.drivePins s h mask v) := by
  unfold State.drivePins
  try dsimp only
  repeat' first
    | with_reducible assumption
    | with_reducible apply quietLow_State_put H

theorem quietLow_State_releasePins {P : State → Prop} (H : QuietLow P) (s : State) (h : Fin 8) (mask : ℕ) (keep_s : P s) : P (State.releasePins s h mask) := by
  unfold State.releasePins
  try dsimp only
  repeat' first
    | with_reducible assumption
    | with_reducible apply quietLow_State_drivePins H
    | with_reducible apply quietLow_State_setPinOwner H
    | with_reducible refine ite_keeps (fun _ => ?_) (fun _ => ?_)
    | with_reducible refine foldl_keeps (fun _ _ _ => ?_) ?_

theorem quietLow_State_forcePins {P : State → Prop} (H : QuietLow P) (s : State) (h : Fin 8) (keep_s : P s) : P (State.forcePins s h) := by
  unfold State.forcePins
  try dsimp only
  repeat' first
    | with_reducible assumption
    | with_reducible apply quietLow_State_releasePins H
    | with_reducible refine ite_keeps (fun _ => ?_) (fun _ => ?_)
    | with_reducible refine foldl_keeps (fun _ _ _ => ?_) ?_
    | split
    | dsimp only
    | with_reducible apply H

theorem quietLow_State_sendInd {P : State → Prop} (H : QuietLow P) (s : State) (i : Indic) (keep_s : P s) : P (State.sendInd s i) := by
  unfold State.sendInd
  try dsimp only
  repeat' first
    | with_reducible assumption
    | with_reducible apply quietLow_State_stage H
    | with_reducible refine ite_keeps (fun _ => ?_) (fun _ => ?_)
    | with_reducible refine foldl_keeps (fun _ _ _ => ?_) ?_
    | split
    | dsimp only
    | with_reducible apply H

theorem quietLow_State_indicate {P : State → Prop} (H : QuietLow P) (s : State) (i : Indic) (keep_s : P s) : P (State.indicate s i) := by
  unfold State.indicate
  try dsimp only
  repeat' first
    | with_reducible assumption
    | with_reducible apply quietLow_State_sendInd H
    | with_reducible refine ite_keeps (fun _ => ?_) (fun _ => ?_)
    | with_reducible refine foldl_keeps (fun _ _ _ => ?_) ?_
    | split
    | dsimp only
    | with_reducible apply H

theorem quietLow_State_breadcrumb {P : State → Prop} (H : QuietLow P) (s : State) (n : Fin 32) (keep_s : P s) : P (State.breadcrumb s n) := by
  unfold State.breadcrumb
  try dsimp only
  repeat' first
    | with_reducible assumption
    | with_reducible apply quietLow_State_wr H
    | with_reducible refine ite_keeps (fun _ => ?_) (fun _ => ?_)
    | with_reducible refine foldl_keeps (fun _ _ _ => ?_) ?_

theorem quietLow_State_setCurrent {P : State → Prop} (H : QuietLow P) (s : State) (n : ℕ) (sev : ℕ) (elem : ℕ) (keep_s : P s) : P (State.setCurrent s n sev elem) := by
  unfold State.setCurrent
  try dsimp only
  repeat' first
    | with_reducible assumption
    | with_reducible apply quietLow_State_put H

theorem quietLow_State_trimQueue {P : State → Prop} (H : QuietLow P) (s : State) (keep_s : P s) : P (State.trimQueue s) := by
  unfold State.trimQueue
  try dsimp only
  repeat' first
    | with_reducible assumption
    | with_reducible apply quietLow_State_inc H
    | with_reducible refine ite_keeps (fun _ => ?_) (fun _ => ?_)
    | with_reducible refine foldl_keeps (fun _ _ _ => ?_) ?_
    | split
    | dsimp only
    | with_reducible apply H

theorem quietLow_State_requestIsolation {P : State → Prop} (H : QuietLow P) (s : State) (h : Fin 8) (cause : ℕ) (keep_s : P s) : P (State.requestIsolation s h cause) := by
  unfold State.requestIsolation
  try dsimp only
  repeat' first
    | with_reducible assumption
    | with_reducible apply quietLow_State_forcePins H
    | with_reducible apply quietLow_State_clrBit H
    | with_reducible apply quietLow_State_put H
    | with_reducible refine ite_keeps (fun _ => ?_) (fun _ => ?_)
    | with_reducible refine foldl_keeps (fun _ _ _ => ?_) ?_
    | split
    | dsimp only
    | with_reducible apply H

theorem quietLow_State_askRecovery {P : State → Prop} (H : QuietLow P) (s : State) (n : Fin 32) (num : ℕ) (sev : ℕ) (elem : ℕ) (keep_s : P s) : P (State.askRecovery s n num sev elem) := by
  unfold State.askRecovery
  try dsimp only
  repeat' first
    | with_reducible assumption
    | with_reducible apply quietLow_State_setCurrent H
    | with_reducible apply quietLow_State_inc H
    | with_reducible apply quietLow_State_put H
    | with_reducible apply quietLow_State_requestIsolation H
    | with_reducible apply quietLow_State_breadcrumb H
    | with_reducible apply quietLow_State_trimQueue H
    | with_reducible refine ite_keeps (fun _ => ?_) (fun _ => ?_)
    | with_reducible refine foldl_keeps (fun _ _ _ => ?_) ?_
    | split
    | dsimp only
    | with_reducible apply H

theorem quietLow_State_wrAll {P : State → Prop} (H : QuietLow P) (s : State) (a : ℕ) (x2 : List Word) (keep_s : P s) : P (State.wrAll s a x2) := by
  induction x2 generalizing s a with
  | nil => exact keep_s
  | cons w t ih => exact ih _ _ (quietLow_State_wr H _ _ _ keep_s)

theorem quietLow_State_takeEntry {P : State → Prop} (H : QuietLow P) (s : State) (n : Fin 32) (num : ℕ) (sev : ℕ) (elem : ℕ) (info : ℕ) (send : Bool) (keep_s : P s) : P (State.takeEntry s n num sev elem info send) := by
  unfold State.takeEntry
  try dsimp only
  repeat' first
    | with_reducible assumption
    | with_reducible apply quietLow_State_wrAll H
    | with_reducible refine ite_keeps (fun _ => ?_) (fun _ => ?_)
    | with_reducible refine foldl_keeps (fun _ _ _ => ?_) ?_
    | split
    | dsimp only
    | with_reducible apply H

/-- A predicate on states that looks at no field of `regs, out, port, flt, lnk, tly, mute, tx, txSwap, rxSwap, dpd, bfm, slt, cal`. -/
abbrev Quiet (P : State → Prop) : Prop := ∀ (s : State) (regs' : RegFile) (out' : List Out) (flt' : Flt) (bfm' : Vector Bfm 8) (slt' : Vector Slt 8) (tx' : Vector Tx 8) (txSwap' : Vector (Option SwapReq) 64) (rxSwap' : Vector (Option SwapReq) 64) (mute' : Vector Mute 64) (dpd' : Vector Dpd 64) (port' : Port) (lnk' : Lnk) (tly' : Tly) (cal' : Cal), P s → P ⟨s.now, regs', s.eff, s.mem, s.ecc, s.resp, out', s.free, flt', s.evq, s.stalled, s.carPend, s.carWas, s.refcarDue, s.rtc, bfm', s.rejoin, slt', s.dl, tx', txSwap', rxSwap', mute', dpd', s.rx, s.prach, s.prachOld, s.praSets, port', lnk', s.orx, s.wch, s.evu, s.tim, tly', s.pll, s.eng, s.sto, s.dma, s.dmaPtr, s.hpow, s.pow, s.clkOut, s.thm, s.hk, s.bias, cal', s.bist, s.stl, s.bel, s.agt, s.boot, s.calen, s.tap, s.edges, s.pending⟩

theorem quiet_State_wr {P : State → Prop} (H : Quiet P) (s : State) (a : ℕ) (v : Word) (keep_s : P s) : P (State.wr s a v) := by
  unfold State.wr
  try dsimp only
  repeat' first
    | with_reducible assumption
    | with_reducible refine ite_keeps (fun _ => ?_) (fun _ => ?_)
    | with_reducible refine foldl_keeps (fun _ _ _ => ?_) ?_
    | split
    | dsimp only
    | with_reducible apply H

theorem quiet_State_put {P : State → Prop} (H : Quiet P) (s : State) (f : Field) (v : ℕ) (keep_s : P s) : P (State.put s f v) := by
  unfold State.put
  try dsimp only
  repeat' first
    | with_reducible assumption
    | with_reducible apply quiet_State_wr H

theorem quiet_State_clrBit {P : State → Prop} (H : Quiet P) (s : State) (f : Field) (n : ℕ) (keep_s : P s) : P (State.clrBit s f n) := by
  unfold State.clrBit
  try dsimp only
  repeat' first
    | with_reducible assumption
    | with_reducible apply quiet_State_put H

theorem quiet_State_add {P : State → Prop} (H : Quiet P) (s : State) (f : Field) (n : ℕ) (keep_s : P s) : P (State.add s f n) := by
  unfold State.add
  try dsimp only
  repeat' first
    | with_reducible assumption
    | with_reducible apply quiet_State_put H

theorem quiet_State_inc {P : State → Prop} (H : Quiet P) (s : State) (f : Field) (keep_s : P s) : P (State.inc s f) := by
  unfold State.inc
  try dsimp only
  repeat' first
    | with_reducible assumption
    | with_reducible apply quiet_State_add H

theorem quiet_State_emit {P : State → Prop} (H : Quiet P) (s : State) (o : Out) (keep_s : P s) : P (State.emit s o) := by
  unfold State.emit
  try dsimp only
  repeat' first
    | with_reducible assumption
    | with_reducible refine ite_keeps (fun _ => ?_) (fun _ => ?_)
    | with_reducible refine foldl_keeps (fun _ _ _ => ?_) ?_
    | split
    | dsimp only
    | with_reducible apply H

theorem quiet_State_leaveL1 {P : State → Prop} (H : Quiet P) (s : State) (keep_s : P s) : P (State.leaveL1 s) := by
  unfold State.leaveL1
  try dsimp only
  repeat' first
    | with_reducible assumption
    | with_reducible apply quiet_State_put H
    | with_reducible refine ite_keeps (fun _ => ?_) (fun _ => ?_)
    | with_reducible refine foldl_keeps (fun _ _ _ => ?_) ?_
    | split
    | dsimp only
    | with_reducible apply H

theorem quiet_State_stageNow {P : State → Prop} (H : Quiet P) (s : State) (f : ℕ) (bytes : List ℕ) (keep_s : P s) : P (State.stageNow s f bytes) := by
  unfold State.stageNow
  try dsimp only
  repeat' first
    | with_reducible assumption
    | with_reducible apply quiet_State_leaveL1 H
    | with_reducible apply quiet_State_put H
    | with_reducible refine ite_keeps (fun _ => ?_) (fun _ => ?_)
    | with_reducible refine foldl_keeps (fun _ _ _ => ?_) ?_
    | split
    | dsimp only
    | with_reducible apply H

theorem quiet_State_stage {P : State → Prop} (H : Quiet P) (s : State) (f : ℕ) (bytes : List ℕ) (keep_s : P s) : P (State.stage s f bytes) := by
  unfold State.stage
  try dsimp only
  repeat' first
    | with_reducible assumption
    | with_reducible apply quiet_State_inc H
    | with_reducible apply quiet_State_stageNow H
    | with_reducible refine ite_keeps (fun _ => ?_) (fun _ => ?_)
    | with_reducible refine foldl_keeps (fun _ _ _ => ?_) ?_
    | split
    | dsimp only
    | with_reducible apply H

theorem quiet_State_setPinOwner {P : State → Prop} (H : Quiet P) (s : State) (h : Fin 8) (j : ℕ) (o : ℕ) (keep_s : P s) : P (State.setPinOwner s h j o) := by
  unfold State.setPinOwner
  try dsimp only
  repeat' first
    | with_reducible assumption
    | with_reducible apply quiet_State_put H

theorem quiet_State_drivePins {P : State → Prop} (H : Quiet P) (s : State) (h : Fin 8) (mask : ℕ) (v : ℕ) (keep_s : P s) : P (State.drivePins s h mask v) := by
  unfold State.drivePins
  try dsimp only
  repeat' first
    | with_reducible assumption
    | with_reducible apply quiet_State_put H

theorem quiet_State_releasePins {P : State → Prop} (H : Quiet P) (s : State) (h : Fin 8) (mask : ℕ) (keep_s : P s) : P (State.releasePins s h mask) := by
  unfold State.releasePins
  try dsimp only
  repeat' first
    | with_reducible assumption
    | with_reducible apply quiet_State_drivePins H
    | with_reducible apply quiet_State_setPinOwner H
    | with_reducible refine ite_keeps (fun _ => ?_) (fun _ => ?_)
    | with_reducible refine foldl_keeps (fun _ _ _ => ?_) ?_

theorem quiet_State_forcePins {P : State → Prop} (H : Quiet P) (s : State) (h : Fin 8) (keep_s : P s) : P (State.forcePins s h) := by
  unfold State.forcePins
  try dsimp only
  repeat' first
    | with_reducible assumption
    | with_reducible apply quiet_State_releasePins H
    | with_reducible refine ite_keeps (fun _ => ?_) (fun _ => ?_)
    | with_reducible refine foldl_keeps (fun _ _ _ => ?_) ?_
    | split
    | dsimp only
    | with_reducible apply H

theorem quiet_State_safetyRamp {P : State → Prop} (H : Quiet P) (s : State) (h : Fin 8) (keep_s : P s) : P (State.safetyRamp s h) := by
  unfold State.safetyRamp
  try dsimp only
  repeat' first
    | with_reducible assumption
    | with_reducible apply quiet_State_put H
    | with_reducible refine ite_keeps (fun _ => ?_) (fun _ => ?_)
    | with_reducible refine foldl_keeps (fun _ _ _ => ?_) ?_
    | split
    | dsimp only
    | with_reducible apply H

theorem quiet_State_cancelBeam {P : State → Prop} (H : Quiet P) (s : State) (h : Fin 8) (keep_s : P s) : P (State.cancelBeam s h) := by
  unfold State.cancelBeam
  try dsimp only
  repeat' first
    | with_reducible assumption
    | with_reducible apply quiet_State_put H
    | with_reducible refine ite_keeps (fun _ => ?_) (fun _ => ?_)
    | with_reducible refine foldl_keeps (fun _ _ _ => ?_) ?_
    | split
    | dsimp only
    | with_reducible apply H

theorem quiet_State_cancelSwaps {P : State → Prop} (H : Quiet P) (s : State) (h : Fin 8) (keep_s : P s) : P (State.cancelSwaps s h) := by
  unfold State.cancelSwaps
  try dsimp only
  repeat' first
    | with_reducible assumption
    | with_reducible apply quiet_State_put H
    | with_reducible refine ite_keeps (fun _ => ?_) (fun _ => ?_)
    | with_reducible refine foldl_keeps (fun _ _ _ => ?_) ?_
    | split
    | dsimp only
    | with_reducible apply H

theorem quiet_State_releaseTimers {P : State → Prop} (H : Quiet P) (s : State) (h : Fin 8) (keep_s : P s) : P (State.releaseTimers s h) := by
  unfold State.releaseTimers
  try dsimp only
  repeat' first
    | with_reducible assumption
    | with_reducible apply quiet_State_put H
    | with_reducible refine ite_keeps (fun _ => ?_) (fun _ => ?_)
    | with_reducible refine foldl_keeps (fun _ _ _ => ?_) ?_

theorem quiet_State_cancelSlot {P : State → Prop} (H : Quiet P) (s : State) (h : Fin 8) (keep_s : P s) : P (State.cancelSlot s h) := by
  unfold State.cancelSlot
  try dsimp only
  repeat' first
    | with_reducible assumption
    | with_reducible apply quiet_State_put H
    | with_reducible refine ite_keeps (fun _ => ?_) (fun _ => ?_)
    | with_reducible refine foldl_keeps (fun _ _ _ => ?_) ?_
    | split
    | dsimp only
    | with_reducible apply H

theorem quiet_State_loseCal {P : State → Prop} (H : Quiet P) (s : State) (h : Fin 8) (kinds : ℕ → Bool) (keep_s : P s) : P (State.loseCal s h kinds) := by
  unfold State.loseCal
  try dsimp only
  repeat' first
    | with_reducible assumption
    | with_reducible refine ite_keeps (fun _ => ?_) (fun _ => ?_)
    | with_reducible refine foldl_keeps (fun _ _ _ => ?_) ?_
    | split
    | dsimp only
    | with_reducible apply H

theorem quiet_State_safetyStep2 {P : State → Prop} (H : Quiet P) (s : State) (h : Fin 8) (keep_s : P s) : P (State.safetyStep2 s h) := by
  unfold State.safetyStep2
  try dsimp only
  repeat' first
    | with_reducible assumption
    | with_reducible apply quiet_State_loseCal H
    | with_reducible apply quiet_State_releaseTimers H
    | with_reducible apply quiet_State_cancelSwaps H
    | with_reducible apply quiet_State_cancelSlot H
    | with_reducible apply quiet_State_cancelBeam H
    | with_reducible apply quiet_State_safetyRamp H

theorem quiet_State_safetyClear {P : State → Prop} (H : Quiet P) (s : State) (h : Fin 8) (keep_s : P s) : P (State.safetyClear s h) := by
  unfold State.safetyClear
  try dsimp only
  repeat' first
    | with_reducible assumption
    | with_reducible apply quiet_State_safetyStep2 H
    | with_reducible apply quiet_State_forcePins H
    | with_reducible apply quiet_State_releaseTimers H
    | with_reducible apply quiet_State_cancelSwaps H
    | with_reducible apply quiet_State_cancelSlot H
    | with_reducible apply quiet_State_cancelBeam H
    | with_reducible apply quiet_State_put H
    | with_reducible refine ite_keeps (fun _ => ?_) (fun _ => ?_)
    | with_reducible refine foldl_keeps (fun _ _ _ => ?_) ?_
    | split
    | dsimp only
    | with_reducible apply H

theorem quiet_State_safetyClearAll {P : State → Prop} (H : Quiet P) (s : State) (keep_s : P s) : P (State.safetyClearAll s) := by
  unfold State.safetyClearAll
  try dsimp only
  repeat' first
    | with_reducible assumption
    | with_reducible apply quiet_State_safetyClear H
    | with_reducible refine ite_keeps (fun _ => ?_) (fun _ => ?_)
    | with_reducible refine foldl_keeps (fun _ _ _ => ?_) ?_

theorem quiet_State_tallySend {P : State → Prop} (H : Quiet P) (s : State) (up : Bool) (dn : Bool) (op : ℕ) (args : List ℕ) (copies : ℕ) (keep_s : P s) : P (State.tallySend s up dn op args copies) := by
  unfold State.tallySend
  try dsimp only
  repeat' first
    | with_reducible assumption
    | with_reducible apply quiet_State_emit H
    | with_reducible refine ite_keeps (fun _ => ?_) (fun _ => ?_)
    | with_reducible refine foldl_keeps (fun _ _ _ => ?_) ?_
    | split
    | dsimp only
    | with_reducible apply H

theorem quiet_State_sendInd {P : State → Prop} (H : Quiet P) (s : State) (i : Indic) (keep_s : P s) : P (State.sendInd s i) := by
  unfold State.sendInd
  try dsimp only
  repeat' first
    | with_reducible assumption
    | with_reducible apply quiet_State_stage H
    | with_reducible refine ite_keeps (fun _ => ?_) (fun _ => ?_)
    | with_reducible refine foldl_keeps (fun _ _ _ => ?_) ?_
    | split
    | dsimp only
    | with_reducible apply H

theorem quiet_State_indicate {P : State → Prop} (H : Quiet P) (s : State) (i : Indic) (keep_s : P s) : P (State.indicate s i) := by
  unfold State.indicate
  try dsimp only
  repeat' first
    | with_reducible assumption
    | with_reducible apply quiet_State_sendInd H
    | with_reducible refine ite_keeps (fun _ => ?_) (fun _ => ?_)
    | with_reducible refine foldl_keeps (fun _ _ _ => ?_) ?_
    | split
    | dsimp only
    | with_reducible apply H

theorem quiet_State_breadcrumb {P : State → Prop} (H : Quiet P) (s : State) (n : Fin 32) (keep_s : P s) : P (State.breadcrumb s n) := by
  unfold State.breadcrumb
  try dsimp only
  repeat' first
    | with_reducible assumption
    | with_reducible apply quiet_State_wr H
    | with_reducible refine ite_keeps (fun _ => ?_) (fun _ => ?_)
    | with_reducible refine foldl_keeps (fun _ _ _ => ?_) ?_

theorem quiet_State_setCurrent {P : State → Prop} (H : Quiet P) (s : State) (n : ℕ) (sev : ℕ) (elem : ℕ) (keep_s : P s) : P (State.setCurrent s n sev elem) := by
  unfold State.setCurrent
  try dsimp only
  repeat' first
    | with_reducible assumption
    | with_reducible apply quiet_State_put H

theorem quiet_State_trimQueue {P : State → Prop} (H : Quiet P) (s : State) (keep_s : P s) : P (State.trimQueue s) := by
  unfold State.trimQueue
  try dsimp only
  repeat' first
    | with_reducible assumption
    | with_reducible apply quiet_State_inc H
    | with_reducible refine ite_keeps (fun _ => ?_) (fun _ => ?_)
    | with_reducible refine foldl_keeps (fun _ _ _ => ?_) ?_
    | split
    | dsimp only
    | with_reducible apply H

theorem quiet_State_requestIsolation {P : State → Prop} (H : Quiet P) (s : State) (h : Fin 8) (cause : ℕ) (keep_s : P s) : P (State.requestIsolation s h cause) := by
  unfold State.requestIsolation
  try dsimp only
  repeat' first
    | with_reducible assumption
    | with_reducible apply quiet_State_forcePins H
    | with_reducible apply quiet_State_clrBit H
    | with_reducible apply quiet_State_put H
    | with_reducible refine ite_keeps (fun _ => ?_) (fun _ => ?_)
    | with_reducible refine foldl_keeps (fun _ _ _ => ?_) ?_
    | split
    | dsimp only
    | with_reducible apply H

theorem quiet_State_askRecovery {P : State → Prop} (H : Quiet P) (s : State) (n : Fin 32) (num : ℕ) (sev : ℕ) (elem : ℕ) (keep_s : P s) : P (State.askRecovery s n num sev elem) := by
  unfold State.askRecovery
  try dsimp only
  repeat' first
    | with_reducible assumption
    | with_reducible apply quiet_State_setCurrent H
    | with_reducible apply quiet_State_inc H
    | with_reducible apply quiet_State_put H
    | with_reducible apply quiet_State_requestIsolation H
    | with_reducible apply quiet_State_breadcrumb H
    | with_reducible apply quiet_State_trimQueue H
    | with_reducible refine ite_keeps (fun _ => ?_) (fun _ => ?_)
    | with_reducible refine foldl_keeps (fun _ _ _ => ?_) ?_
    | split
    | dsimp only
    | with_reducible apply H

theorem quiet_State_faultAction {P : State → Prop} (H : Quiet P) (s : State) (num : ℕ) (sev : ℕ) (elem : ℕ) (keep_s : P s) : P (State.faultAction s num sev elem) := by
  unfold State.faultAction
  try dsimp only
  repeat' first
    | with_reducible assumption
    | with_reducible apply quiet_State_requestIsolation H
    | with_reducible apply quiet_State_safetyClearAll H
    | with_reducible apply quiet_State_tallySend H
    | with_reducible refine ite_keeps (fun _ => ?_) (fun _ => ?_)

theorem quiet_State_wrAll {P : State → Prop} (H : Quiet P) (s : State) (a : ℕ) (x2 : List Word) (keep_s : P s) : P (State.wrAll s a x2) := by
  induction x2 generalizing s a with
  | nil => exact keep_s
  | cons w t ih => exact ih _ _ (quiet_State_wr H _ _ _ keep_s)

theorem quiet_State_takeEntry {P : State → Prop} (H : Quiet P) (s : State) (n : Fin 32) (num : ℕ) (sev : ℕ) (elem : ℕ) (info : ℕ) (send : Bool) (keep_s : P s) : P (State.takeEntry s n num sev elem info send) := by
  unfold State.takeEntry
  try dsimp only
  repeat' first
    | with_reducible assumption
    | with_reducible apply quiet_State_wrAll H
    | with_reducible refine ite_keeps (fun _ => ?_) (fun _ => ?_)
    | with_reducible refine foldl_keeps (fun _ _ _ => ?_) ?_
    | split
    | dsimp only
    | with_reducible apply H

theorem quiet_State_newFault {P : State → Prop} (H : Quiet P) (s : State) (num : ℕ) (sev : ℕ) (elem : ℕ) (info : ℕ) (ind : Bool) (keep_s : P s) : P (State.newFault s num sev elem info ind) := by
  unfold State.newFault
  try dsimp only
  repeat' first
    | with_reducible assumption
    | with_reducible apply quiet_State_inc H
    | with_reducible apply quiet_State_takeEntry H
    | with_reducible apply quiet_State_breadcrumb H
    | with_reducible apply quiet_State_indicate H
    | with_reducible apply quiet_State_askRecovery H
    | with_reducible apply quiet_State_faultAction H
    | with_reducible refine ite_keeps (fun _ => ?_) (fun _ => ?_)

theorem quiet_State_enterFault {P : State → Prop} (H : Quiet P) (s : State) (o : Option (Fin 32)) (num : ℕ) (sev : ℕ) (elem : ℕ) (info : ℕ) (ind : Bool) (keep_s : P s) : P (State.enterFault s o num sev elem info ind) := by
  unfold State.enterFault
  try dsimp only
  repeat' first
    | with_reducible assumption
    | with_reducible apply quiet_State_inc H
    | with_reducible apply quiet_State_newFault H
    | with_reducible refine ite_keeps (fun _ => ?_) (fun _ => ?_)
    | with_reducible refine foldl_keeps (fun _ _ _ => ?_) ?_
    | split

theorem quiet_State_raiseSev {P : State → Prop} (H : Quiet P) (s : State) (num : ℕ) (sev : ℕ) (elem : ℕ) (info : ℕ) (ind : Bool) (keep_s : P s) : P (State.raiseSev s num sev elem info ind) := by
  unfold State.raiseSev
  try dsimp only
  repeat' first
    | with_reducible assumption
    | with_reducible apply quiet_State_enterFault H
    | with_reducible apply quiet_State_inc H

theorem quiet_State_raise {P : State → Prop} (H : Quiet P) (s : State) (num : ℕ) (elem : ℕ) (info : ℕ) (keep_s : P s) : P (State.raise s num elem info) := by
  unfold State.raise
  try dsimp only
  repeat' first
    | with_reducible assumption
    | with_reducible apply quiet_State_raiseSev H

/-- What an event of any severity can change. -/
theorem State.raise_frame (s : State) (num elem info : Nat) :
    ∃ regs' out' port' flt' lnk' tly' mute' tx' txSwap' rxSwap' dpd' bfm' slt' cal', s.raise num elem info = { s with regs := regs', out := out', port := port', flt := flt', lnk := lnk', tly := tly', mute := mute', tx := tx', txSwap := txSwap', rxSwap := rxSwap', dpd := dpd', bfm := bfm', slt := slt', cal := cal' } := by
  have H : Quiet (fun t => ∃ regs' out' port' flt' lnk' tly' mute' tx' txSwap' rxSwap' dpd' bfm' slt' cal', t = { s with regs := regs', out := out', port := port', flt := flt', lnk := lnk', tly := tly', mute := mute', tx := tx', txSwap := txSwap', rxSwap := rxSwap', dpd := dpd', bfm := bfm', slt := slt', cal := cal' }) := by
    rintro t regs1 out1 flt1 bfm1 slt1 tx1 txSwap1 rxSwap1 mute1 dpd1 port1 lnk1 tly1 cal1 ⟨_, _, _, _, _, _, _, _, _, _, _, _, _, _, rfl⟩
    exact ⟨_, _, _, _, _, _, _, _, _, _, _, _, _, _, rfl⟩
  exact quiet_State_raise H s num elem info ⟨_, _, _, _, _, _, _, _, _, _, _, _, _, _, rfl⟩

/-- The hardware has no action of its own on a severity below 2. -/
theorem State.faultAction_low (s : State) (num sev elem : Nat) (h : sev ≤ 1) : s.faultAction num sev elem = s := by
  unfold State.faultAction
  rw [if_neg (by omega), if_neg (by omega)]

theorem quietLow_State_newFault {P : State → Prop} (H : QuietLow P) (s : State) (num sev elem info : Nat) (ind : Bool) (h : sev ≤ 1) (keep_s : P s) : P (s.newFault num sev elem info ind) := by
  unfold State.newFault
  rw [State.faultAction_low _ _ _ _ h]
  repeat' first
    | with_reducible assumption
    | with_reducible apply quietLow_State_askRecovery H
    | with_reducible apply quietLow_State_indicate H
    | with_reducible apply quietLow_State_breadcrumb H
    | with_reducible apply quietLow_State_takeEntry H
    | with_reducible apply quietLow_State_inc H
    | with_reducible refine ite_keeps (fun _ => ?_) (fun _ => ?_)

theorem quietLow_State_enterFault {P : State → Prop} (H : QuietLow P) (s : State) (n : Option (Fin 32)) (num sev elem info : Nat) (ind : Bool) (h : sev ≤ 1) (keep_s : P s) : P (s.enterFault n num sev elem info ind) := by
  cases n with
  | none => exact quietLow_State_newFault H s num sev elem info ind h keep_s
  | some n => exact quietLow_State_inc H s _ keep_s

/-- What an event of severity 0 or 1 can change. -/
theorem State.raise_low (s : State) (num elem info : Nat) (h : severityOf num ≤ 1) :
    ∃ regs' out' port' flt' lnk', s.raise num elem info = { s with regs := regs', out := out', port := port', flt := flt', lnk := lnk' } := by
  have H : QuietLow (fun t => ∃ regs' out' port' flt' lnk', t = { s with regs := regs', out := out', port := port', flt := flt', lnk := lnk' }) := by
    rintro t regs1 out1 flt1 port1 lnk1 ⟨_, _, _, _, _, rfl⟩
    exact ⟨_, _, _, _, _, rfl⟩
  have e := quietLow_State_inc H s (Fld.FLT_CNTn_COUNT.i 0) ⟨_, _, _, _, _, rfl⟩
  unfold State.raise State.raiseSev
  exact quietLow_State_enterFault H (s.inc (Fld.FLT_CNTn_COUNT.i 0)) _ num (severityOf num) elem info false h e

@[simp] theorem State.raise_now (s : State) (num elem info : Nat) : (s.raise num elem info).now = s.now := by
  obtain ⟨_, _, _, _, _, _, _, _, _, _, _, _, _, _, h⟩ := s.raise_frame num elem info
  rw [h]

@[simp] theorem State.raise_eff (s : State) (num elem info : Nat) : (s.raise num elem info).eff = s.eff := by
  obtain ⟨_, _, _, _, _, _, _, _, _, _, _, _, _, _, h⟩ := s.raise_frame num elem info
  rw [h]

@[simp] theorem State.raise_mem (s : State) (num elem info : Nat) : (s.raise num elem info).mem = s.mem := by
  obtain ⟨_, _, _, _, _, _, _, _, _, _, _, _, _, _, h⟩ := s.raise_frame num elem info
  rw [h]

@[simp] theorem State.raise_ecc (s : State) (num elem info : Nat) : (s.raise num elem info).ecc = s.ecc := by
  obtain ⟨_, _, _, _, _, _, _, _, _, _, _, _, _, _, h⟩ := s.raise_frame num elem info
  rw [h]

@[simp] theorem State.raise_resp (s : State) (num elem info : Nat) : (s.raise num elem info).resp = s.resp := by
  obtain ⟨_, _, _, _, _, _, _, _, _, _, _, _, _, _, h⟩ := s.raise_frame num elem info
  rw [h]

@[simp] theorem State.raise_free (s : State) (num elem info : Nat) : (s.raise num elem info).free = s.free := by
  obtain ⟨_, _, _, _, _, _, _, _, _, _, _, _, _, _, h⟩ := s.raise_frame num elem info
  rw [h]

@[simp] theorem State.raise_evq (s : State) (num elem info : Nat) : (s.raise num elem info).evq = s.evq := by
  obtain ⟨_, _, _, _, _, _, _, _, _, _, _, _, _, _, h⟩ := s.raise_frame num elem info
  rw [h]

@[simp] theorem State.raise_stalled (s : State) (num elem info : Nat) : (s.raise num elem info).stalled = s.stalled := by
  obtain ⟨_, _, _, _, _, _, _, _, _, _, _, _, _, _, h⟩ := s.raise_frame num elem info
  rw [h]

@[simp] theorem State.raise_carPend (s : State) (num elem info : Nat) : (s.raise num elem info).carPend = s.carPend := by
  obtain ⟨_, _, _, _, _, _, _, _, _, _, _, _, _, _, h⟩ := s.raise_frame num elem info
  rw [h]

@[simp] theorem State.raise_carWas (s : State) (num elem info : Nat) : (s.raise num elem info).carWas = s.carWas := by
  obtain ⟨_, _, _, _, _, _, _, _, _, _, _, _, _, _, h⟩ := s.raise_frame num elem info
  rw [h]

@[simp] theorem State.raise_refcarDue (s : State) (num elem info : Nat) : (s.raise num elem info).refcarDue = s.refcarDue := by
  obtain ⟨_, _, _, _, _, _, _, _, _, _, _, _, _, _, h⟩ := s.raise_frame num elem info
  rw [h]

@[simp] theorem State.raise_rtc (s : State) (num elem info : Nat) : (s.raise num elem info).rtc = s.rtc := by
  obtain ⟨_, _, _, _, _, _, _, _, _, _, _, _, _, _, h⟩ := s.raise_frame num elem info
  rw [h]

@[simp] theorem State.raise_rejoin (s : State) (num elem info : Nat) : (s.raise num elem info).rejoin = s.rejoin := by
  obtain ⟨_, _, _, _, _, _, _, _, _, _, _, _, _, _, h⟩ := s.raise_frame num elem info
  rw [h]

@[simp] theorem State.raise_dl (s : State) (num elem info : Nat) : (s.raise num elem info).dl = s.dl := by
  obtain ⟨_, _, _, _, _, _, _, _, _, _, _, _, _, _, h⟩ := s.raise_frame num elem info
  rw [h]

@[simp] theorem State.raise_rx (s : State) (num elem info : Nat) : (s.raise num elem info).rx = s.rx := by
  obtain ⟨_, _, _, _, _, _, _, _, _, _, _, _, _, _, h⟩ := s.raise_frame num elem info
  rw [h]

@[simp] theorem State.raise_prach (s : State) (num elem info : Nat) : (s.raise num elem info).prach = s.prach := by
  obtain ⟨_, _, _, _, _, _, _, _, _, _, _, _, _, _, h⟩ := s.raise_frame num elem info
  rw [h]

@[simp] theorem State.raise_prachOld (s : State) (num elem info : Nat) : (s.raise num elem info).prachOld = s.prachOld := by
  obtain ⟨_, _, _, _, _, _, _, _, _, _, _, _, _, _, h⟩ := s.raise_frame num elem info
  rw [h]

@[simp] theorem State.raise_praSets (s : State) (num elem info : Nat) : (s.raise num elem info).praSets = s.praSets := by
  obtain ⟨_, _, _, _, _, _, _, _, _, _, _, _, _, _, h⟩ := s.raise_frame num elem info
  rw [h]

@[simp] theorem State.raise_orx (s : State) (num elem info : Nat) : (s.raise num elem info).orx = s.orx := by
  obtain ⟨_, _, _, _, _, _, _, _, _, _, _, _, _, _, h⟩ := s.raise_frame num elem info
  rw [h]

@[simp] theorem State.raise_wch (s : State) (num elem info : Nat) : (s.raise num elem info).wch = s.wch := by
  obtain ⟨_, _, _, _, _, _, _, _, _, _, _, _, _, _, h⟩ := s.raise_frame num elem info
  rw [h]

@[simp] theorem State.raise_evu (s : State) (num elem info : Nat) : (s.raise num elem info).evu = s.evu := by
  obtain ⟨_, _, _, _, _, _, _, _, _, _, _, _, _, _, h⟩ := s.raise_frame num elem info
  rw [h]

@[simp] theorem State.raise_tim (s : State) (num elem info : Nat) : (s.raise num elem info).tim = s.tim := by
  obtain ⟨_, _, _, _, _, _, _, _, _, _, _, _, _, _, h⟩ := s.raise_frame num elem info
  rw [h]

@[simp] theorem State.raise_pll (s : State) (num elem info : Nat) : (s.raise num elem info).pll = s.pll := by
  obtain ⟨_, _, _, _, _, _, _, _, _, _, _, _, _, _, h⟩ := s.raise_frame num elem info
  rw [h]

@[simp] theorem State.raise_eng (s : State) (num elem info : Nat) : (s.raise num elem info).eng = s.eng := by
  obtain ⟨_, _, _, _, _, _, _, _, _, _, _, _, _, _, h⟩ := s.raise_frame num elem info
  rw [h]

@[simp] theorem State.raise_sto (s : State) (num elem info : Nat) : (s.raise num elem info).sto = s.sto := by
  obtain ⟨_, _, _, _, _, _, _, _, _, _, _, _, _, _, h⟩ := s.raise_frame num elem info
  rw [h]

@[simp] theorem State.raise_dma (s : State) (num elem info : Nat) : (s.raise num elem info).dma = s.dma := by
  obtain ⟨_, _, _, _, _, _, _, _, _, _, _, _, _, _, h⟩ := s.raise_frame num elem info
  rw [h]

@[simp] theorem State.raise_dmaPtr (s : State) (num elem info : Nat) : (s.raise num elem info).dmaPtr = s.dmaPtr := by
  obtain ⟨_, _, _, _, _, _, _, _, _, _, _, _, _, _, h⟩ := s.raise_frame num elem info
  rw [h]

@[simp] theorem State.raise_hpow (s : State) (num elem info : Nat) : (s.raise num elem info).hpow = s.hpow := by
  obtain ⟨_, _, _, _, _, _, _, _, _, _, _, _, _, _, h⟩ := s.raise_frame num elem info
  rw [h]

@[simp] theorem State.raise_pow (s : State) (num elem info : Nat) : (s.raise num elem info).pow = s.pow := by
  obtain ⟨_, _, _, _, _, _, _, _, _, _, _, _, _, _, h⟩ := s.raise_frame num elem info
  rw [h]

@[simp] theorem State.raise_clkOut (s : State) (num elem info : Nat) : (s.raise num elem info).clkOut = s.clkOut := by
  obtain ⟨_, _, _, _, _, _, _, _, _, _, _, _, _, _, h⟩ := s.raise_frame num elem info
  rw [h]

@[simp] theorem State.raise_thm (s : State) (num elem info : Nat) : (s.raise num elem info).thm = s.thm := by
  obtain ⟨_, _, _, _, _, _, _, _, _, _, _, _, _, _, h⟩ := s.raise_frame num elem info
  rw [h]

@[simp] theorem State.raise_hk (s : State) (num elem info : Nat) : (s.raise num elem info).hk = s.hk := by
  obtain ⟨_, _, _, _, _, _, _, _, _, _, _, _, _, _, h⟩ := s.raise_frame num elem info
  rw [h]

@[simp] theorem State.raise_bias (s : State) (num elem info : Nat) : (s.raise num elem info).bias = s.bias := by
  obtain ⟨_, _, _, _, _, _, _, _, _, _, _, _, _, _, h⟩ := s.raise_frame num elem info
  rw [h]

@[simp] theorem State.raise_bist (s : State) (num elem info : Nat) : (s.raise num elem info).bist = s.bist := by
  obtain ⟨_, _, _, _, _, _, _, _, _, _, _, _, _, _, h⟩ := s.raise_frame num elem info
  rw [h]

@[simp] theorem State.raise_stl (s : State) (num elem info : Nat) : (s.raise num elem info).stl = s.stl := by
  obtain ⟨_, _, _, _, _, _, _, _, _, _, _, _, _, _, h⟩ := s.raise_frame num elem info
  rw [h]

@[simp] theorem State.raise_bel (s : State) (num elem info : Nat) : (s.raise num elem info).bel = s.bel := by
  obtain ⟨_, _, _, _, _, _, _, _, _, _, _, _, _, _, h⟩ := s.raise_frame num elem info
  rw [h]

@[simp] theorem State.raise_agt (s : State) (num elem info : Nat) : (s.raise num elem info).agt = s.agt := by
  obtain ⟨_, _, _, _, _, _, _, _, _, _, _, _, _, _, h⟩ := s.raise_frame num elem info
  rw [h]

@[simp] theorem State.raise_boot (s : State) (num elem info : Nat) : (s.raise num elem info).boot = s.boot := by
  obtain ⟨_, _, _, _, _, _, _, _, _, _, _, _, _, _, h⟩ := s.raise_frame num elem info
  rw [h]

@[simp] theorem State.raise_calen (s : State) (num elem info : Nat) : (s.raise num elem info).calen = s.calen := by
  obtain ⟨_, _, _, _, _, _, _, _, _, _, _, _, _, _, h⟩ := s.raise_frame num elem info
  rw [h]

@[simp] theorem State.raise_tap (s : State) (num elem info : Nat) : (s.raise num elem info).tap = s.tap := by
  obtain ⟨_, _, _, _, _, _, _, _, _, _, _, _, _, _, h⟩ := s.raise_frame num elem info
  rw [h]

@[simp] theorem State.raise_edges (s : State) (num elem info : Nat) : (s.raise num elem info).edges = s.edges := by
  obtain ⟨_, _, _, _, _, _, _, _, _, _, _, _, _, _, h⟩ := s.raise_frame num elem info
  rw [h]

@[simp] theorem State.raise_pending (s : State) (num elem info : Nat) : (s.raise num elem info).pending = s.pending := by
  obtain ⟨_, _, _, _, _, _, _, _, _, _, _, _, _, _, h⟩ := s.raise_frame num elem info
  rw [h]

theorem State.raise_low_tly (s : State) (num elem info : Nat) (h : severityOf num ≤ 1) : (s.raise num elem info).tly = s.tly := by
  obtain ⟨_, _, _, _, _, e⟩ := s.raise_low num elem info h
  rw [e]

theorem State.raise_low_mute (s : State) (num elem info : Nat) (h : severityOf num ≤ 1) : (s.raise num elem info).mute = s.mute := by
  obtain ⟨_, _, _, _, _, e⟩ := s.raise_low num elem info h
  rw [e]

theorem State.raise_low_tx (s : State) (num elem info : Nat) (h : severityOf num ≤ 1) : (s.raise num elem info).tx = s.tx := by
  obtain ⟨_, _, _, _, _, e⟩ := s.raise_low num elem info h
  rw [e]

theorem State.raise_low_txSwap (s : State) (num elem info : Nat) (h : severityOf num ≤ 1) : (s.raise num elem info).txSwap = s.txSwap := by
  obtain ⟨_, _, _, _, _, e⟩ := s.raise_low num elem info h
  rw [e]

theorem State.raise_low_rxSwap (s : State) (num elem info : Nat) (h : severityOf num ≤ 1) : (s.raise num elem info).rxSwap = s.rxSwap := by
  obtain ⟨_, _, _, _, _, e⟩ := s.raise_low num elem info h
  rw [e]

theorem State.raise_low_dpd (s : State) (num elem info : Nat) (h : severityOf num ≤ 1) : (s.raise num elem info).dpd = s.dpd := by
  obtain ⟨_, _, _, _, _, e⟩ := s.raise_low num elem info h
  rw [e]

theorem State.raise_low_bfm (s : State) (num elem info : Nat) (h : severityOf num ≤ 1) : (s.raise num elem info).bfm = s.bfm := by
  obtain ⟨_, _, _, _, _, e⟩ := s.raise_low num elem info h
  rw [e]

theorem State.raise_low_slt (s : State) (num elem info : Nat) (h : severityOf num ≤ 1) : (s.raise num elem info).slt = s.slt := by
  obtain ⟨_, _, _, _, _, e⟩ := s.raise_low num elem info h
  rw [e]

theorem State.raise_low_cal (s : State) (num elem info : Nat) (h : severityOf num ≤ 1) : (s.raise num elem info).cal = s.cal := by
  obtain ⟨_, _, _, _, _, e⟩ := s.raise_low num elem info h
  rw [e]

end Sys2Proof.Machine
end

