-- ==== Sys2Proof/Laws/Access.lean ====
section
/-!
SUPPORT. What an access through the register bridge does once its checks are passed (R8, R46, R50).
-/

namespace Sys2Proof.Machine

/-- A write that is taken does the register's own effect. -/
theorem regCmd_ok {r : Req} {a : Nat} {v : Word} {act : State → State} {s : State} (h : Takes s r a) : regCmd r a v act s = act s.ok := by
  unfold regCmd
  rw [h]

/-- A read that is taken answers its data. -/
theorem readCmd_ok {r : Req} {a : Nat} {act : State → Nat × State} {s : State} (h : s.check r a 2 false = .ok) :
    readCmd r a act s = { (act s).2 with resp := { err := false, data := (act s).1 } } := by
  unfold readCmd
  rw [h]

@[simp] theorem State.rd_ok (s : State) (a : Nat) : s.ok.rd a = s.rd a := rfl

@[simp] theorem State.get_ok (s : State) (f : Field) : s.ok.get f = s.get f := rfl

@[simp] theorem State.rd_at (s : State) (t a : Nat) : (s.at t).rd a = s.rd a := rfl

@[simp] theorem State.get_at (s : State) (t : Nat) (f : Field) : (s.at t).get f = s.get f := rfl

/-- A write to a register that only stores, in a block that is not locked: every field by its access type. -/
theorem State.storeReg_open {s : State} {r : Req} {a : Nat} {v : Word} {d : RegDesc} (hd : descOf a = some d) (hl : s.locked a = false) :
    s.storeReg r a v = s.wr a (wordWrite false d v (s.rd a)) := by
  unfold State.storeReg
  rw [hd]
  simp [hl]

/-- A command that answers a next state with the property gives it. -/
theorem Gives.of_eq {c : Instr} {s t : State} {Q : State → Prop} (h : exec c s = .next t) (hq : Q t) : Gives c s Q := ⟨t, h, hq⟩

/-- Memory that is the same data reads the same. -/
theorem SameMem.of_eq {s t : State} (h : t.mem = s.mem) : SameMem s t := fun a => by rw [h]

end Sys2Proof.Machine
end

