-- ==== Sys2Proof/Laws/KeepsOps.lean ====
section
/-!
SUPPORT. Closed predicates are kept by every operation of these files.
-/

namespace Sys2Proof.Machine

theorem keeps_State_wr {P : State → Prop} (H : Closed P) (s : State) (a : ℕ) (v : Word) (keep_s : P s) : P (State.wr s a v) := by
  exact H.wr _ _ _ keep_s

theorem keeps_State_put {P : State → Prop} (H : Closed P) (s : State) (f : Field) (v : ℕ) (keep_s : P s) : P (State.put s f v) := by
  unfold State.put
  try dsimp only
  repeat' first
    | with_reducible assumption
    | with_reducible apply keeps_State_wr H

theorem keeps_State_orF {P : State → Prop} (H : Closed P) (s : State) (f : Field) (v : ℕ) (keep_s : P s) : P (State.orF s f v) := by
  unfold State.orF
  try dsimp only
  repeat' first
    | with_reducible assumption
    | with_reducible apply keeps_State_put H

theorem keeps_State_setBit {P : State → Prop} (H : Closed P) (s : State) (f : Field) (n : ℕ) (keep_s : P s) : P (State.setBit s f n) := by
  unfold State.setBit
  try dsimp only
  repeat' first
    | with_reducible assumption
    | with_reducible apply keeps_State_orF H

theorem keeps_State_clrBit {P : State → Prop} (H : Closed P) (s : State) (f : Field) (n : ℕ) (keep_s : P s) : P (State.clrBit s f n) := by
  unfold State.clrBit
  try dsimp only
  repeat' first
    | with_reducible assumption
    | with_reducible apply keeps_State_put H

theorem keeps_State_add {P : State → Prop} (H : Closed P) (s : State) (f : Field) (n : ℕ) (keep_s : P s) : P (State.add s f n) := by
  unfold State.add
  try dsimp only
  repeat' first
    | with_reducible assumption
    | with_reducible apply keeps_State_put H

theorem keeps_State_inc {P : State → Prop} (H : Closed P) (s : State) (f : Field) (keep_s : P s) : P (State.inc s f) := by
  unfold State.inc
  try dsimp only
  repeat' first
    | with_reducible assumption
    | with_reducible apply keeps_State_add H

theorem keeps_State_ewr {P : State → Prop} (H : Closed P) (s : State) (a : ℕ) (v : Word) (keep_s : P s) : P (State.ewr s a v) := by
  exact H.ewr _ _ _ keep_s

theorem keeps_State_eput {P : State → Prop} (H : Closed P) (s : State) (f : Field) (v : ℕ) (keep_s : P s) : P (State.eput s f v) := by
  unfold State.eput
  try dsimp only
  repeat' first
    | with_reducible assumption
    | with_reducible apply keeps_State_ewr H

theorem keeps_State_take {P : State → Prop} (H : Closed P) (s : State) (a : ℕ) (keep_s : P s) : P (State.take s a) := by
  unfold State.take
  try dsimp only
  repeat' first
    | with_reducible assumption
    | with_reducible apply keeps_State_ewr H

theorem keeps_State_resetRegs {P : State → Prop} (H : Closed P) (s : State) (p : ℕ → Bool) (keep_s : P s) : P (State.resetRegs s p) := by
  exact H.resetRegs _ _ keep_s

theorem keeps_State_putLE {P : State → Prop} (H : Closed P) (s : State) (a : ℕ) (n : ℕ) (v : ℕ) (keep_s : P s) : P (State.putLE s a n v) := by
  have key : P { s with
      mem := (List.range n).foldl (fun m i => memWrite m (a + i) (BitVec.ofNat 8 (v / 256 ^ i))) s.mem
      ecc := s.ecc.filter fun e => !(decide (a ≤ e.word) && decide (e.word + 8 ≤ a + n)) } := by
    have h := H.mem s ((List.range n).foldl (fun m i => memWrite m (a + i) (BitVec.ofNat 8 (v / 256 ^ i))) s.mem) keep_s
      fun h => memory_wf_putBytes a n (fun i => BitVec.ofNat 8 (v / 256 ^ i)) h
    exact H.congr (s := { s with mem := _ }) rfl rfl rfl rfl rfl rfl rfl h
  unfold State.putLE
  dsimp only
  split
  · exact key
  · with_reducible apply H.mk'
    exact keeps_State_put H _ _ 0 key

theorem keeps_State_clearMem {P : State → Prop} (H : Closed P) (s : State) (p : ℕ → Bool) (keep_s : P s) : P (State.clearMem s p) := by
  exact H.mem _ _ keep_s fun h => memory_wf_filter _ h

theorem keeps_State_setHstate {P : State → Prop} (H : Closed P) (s : State) (h : ℕ) (v : ℕ) (keep_s : P s) : P (State.setHstate s h v) := by
  unfold State.setHstate
  try dsimp only
  repeat' first
    | with_reducible assumption
    | with_reducible apply keeps_State_put H

theorem keeps_State_emit {P : State → Prop} (H : Closed P) (s : State) (o : Out) (keep_s : P s) : P (State.emit s o) := by
  exact H.emit _ _ keep_s

theorem keeps_State_drawn_2 {P : State → Prop} (H : Closed P) (s : State) (keep_s : P s) : P (State.drawn s).2 := by
  exact H.drawn _ keep_s

theorem keeps_State_at {P : State → Prop} (H : Closed P) (s : State) (t : ℕ) (keep_s : P s) : P (State.at s t) := by
  unfold State.at
  try dsimp only
  repeat' first
    | with_reducible assumption
    | with_reducible refine ite_keeps (fun _ => ?_) (fun _ => ?_)
    | with_reducible refine foldl_keeps (fun _ _ _ => ?_) ?_
    | with_reducible refine dite_keeps (fun _ => ?_) (fun _ => ?_)
    | with_reducible refine ite_fst (fun _ => ?_) (fun _ => ?_)
    | with_reducible refine ite_snd (fun _ => ?_) (fun _ => ?_)
    | with_reducible refine ite_snd2 (fun _ => ?_) (fun _ => ?_)
    | with_reducible refine ite_snd3 (fun _ => ?_) (fun _ => ?_)
    | with_reducible refine foldl_fst (fun _ _ _ => ?_) ?_
    | with_reducible refine foldl_snd (fun _ _ _ => ?_) ?_
    | with_reducible refine snd_of_eq (by assumption) ?_
    | with_reducible refine fst_of_eq (by assumption) ?_
    | with_reducible refine snd2_of_eq (by assumption) ?_
    | with_reducible intro _ _
    | with_reducible intro _ _ _
    | split
    | dsimp only
    | with_reducible apply H.mk'

theorem keeps_State_leaveL1 {P : State → Prop} (H : Closed P) (s : State) (keep_s : P s) : P (State.leaveL1 s) := by
  unfold State.leaveL1
  try dsimp only
  repeat' first
    | with_reducible assumption
    | with_reducible apply keeps_State_put H
    | with_reducible refine ite_keeps (fun _ => ?_) (fun _ => ?_)
    | with_reducible refine foldl_keeps (fun _ _ _ => ?_) ?_
    | with_reducible refine dite_keeps (fun _ => ?_) (fun _ => ?_)
    | with_reducible refine ite_fst (fun _ => ?_) (fun _ => ?_)
    | with_reducible refine ite_snd (fun _ => ?_) (fun _ => ?_)
    | with_reducible refine ite_snd2 (fun _ => ?_) (fun _ => ?_)
    | with_reducible refine ite_snd3 (fun _ => ?_) (fun _ => ?_)
    | with_reducible refine foldl_fst (fun _ _ _ => ?_) ?_
    | with_reducible refine foldl_snd (fun _ _ _ => ?_) ?_
    | with_reducible refine snd_of_eq (by assumption) ?_
    | with_reducible refine fst_of_eq (by assumption) ?_
    | with_reducible refine snd2_of_eq (by assumption) ?_
    | with_reducible intro _ _
    | with_reducible intro _ _ _
    | split
    | dsimp only
    | with_reducible apply H.mk'

theorem keeps_State_stageNow {P : State → Prop} (H : Closed P) (s : State) (f : ℕ) (bytes : List ℕ) (keep_s : P s) : P (State.stageNow s f bytes) := by
  unfold State.stageNow
  try dsimp only
  repeat' first
    | with_reducible assumption
    | with_reducible apply keeps_State_leaveL1 H
    | with_reducible apply keeps_State_put H
    | with_reducible refine ite_keeps (fun _ => ?_) (fun _ => ?_)
    | with_reducible refine foldl_keeps (fun _ _ _ => ?_) ?_
    | with_reducible refine dite_keeps (fun _ => ?_) (fun _ => ?_)
    | with_reducible refine ite_fst (fun _ => ?_) (fun _ => ?_)
    | with_reducible refine ite_snd (fun _ => ?_) (fun _ => ?_)
    | with_reducible refine ite_snd2 (fun _ => ?_) (fun _ => ?_)
    | with_reducible refine ite_snd3 (fun _ => ?_) (fun _ => ?_)
    | with_reducible refine foldl_fst (fun _ _ _ => ?_) ?_
    | with_reducible refine foldl_snd (fun _ _ _ => ?_) ?_
    | with_reducible refine snd_of_eq (by assumption) ?_
    | with_reducible refine fst_of_eq (by assumption) ?_
    | with_reducible refine snd2_of_eq (by assumption) ?_
    | with_reducible intro _ _
    | with_reducible intro _ _ _
    | split
    | dsimp only
    | with_reducible apply H.mk'

theorem keeps_State_stage {P : State → Prop} (H : Closed P) (s : State) (f : ℕ) (bytes : List ℕ) (keep_s : P s) : P (State.stage s f bytes) := by
  unfold State.stage
  try dsimp only
  repeat' first
    | with_reducible assumption
    | with_reducible apply keeps_State_inc H
    | with_reducible apply keeps_State_stageNow H
    | with_reducible refine ite_keeps (fun _ => ?_) (fun _ => ?_)
    | with_reducible refine foldl_keeps (fun _ _ _ => ?_) ?_
    | with_reducible refine dite_keeps (fun _ => ?_) (fun _ => ?_)
    | with_reducible refine ite_fst (fun _ => ?_) (fun _ => ?_)
    | with_reducible refine ite_snd (fun _ => ?_) (fun _ => ?_)
    | with_reducible refine ite_snd2 (fun _ => ?_) (fun _ => ?_)
    | with_reducible refine ite_snd3 (fun _ => ?_) (fun _ => ?_)
    | with_reducible refine foldl_fst (fun _ _ _ => ?_) ?_
    | with_reducible refine foldl_snd (fun _ _ _ => ?_) ?_
    | with_reducible refine snd_of_eq (by assumption) ?_
    | with_reducible refine fst_of_eq (by assumption) ?_
    | with_reducible refine snd2_of_eq (by assumption) ?_
    | with_reducible intro _ _
    | with_reducible intro _ _ _
    | split
    | dsimp only
    | with_reducible apply H.mk'

theorem keeps_State_sendSeq {P : State → Prop} (H : Closed P) (s : State) (f : ℕ) (type : ℕ) (bytes : List ℕ) (keep_s : P s) : P (State.sendSeq s f type bytes) := by
  unfold State.sendSeq
  try dsimp only
  repeat' first
    | with_reducible assumption
    | with_reducible apply keeps_State_stage H
    | with_reducible refine ite_keeps (fun _ => ?_) (fun _ => ?_)
    | with_reducible refine foldl_keeps (fun _ _ _ => ?_) ?_
    | with_reducible refine dite_keeps (fun _ => ?_) (fun _ => ?_)
    | with_reducible refine ite_fst (fun _ => ?_) (fun _ => ?_)
    | with_reducible refine ite_snd (fun _ => ?_) (fun _ => ?_)
    | with_reducible refine ite_snd2 (fun _ => ?_) (fun _ => ?_)
    | with_reducible refine ite_snd3 (fun _ => ?_) (fun _ => ?_)
    | with_reducible refine foldl_fst (fun _ _ _ => ?_) ?_
    | with_reducible refine foldl_snd (fun _ _ _ => ?_) ?_
    | with_reducible refine snd_of_eq (by assumption) ?_
    | with_reducible refine fst_of_eq (by assumption) ?_
    | with_reducible refine snd2_of_eq (by assumption) ?_
    | with_reducible intro _ _
    | with_reducible intro _ _ _
    | split
    | dsimp only
    | with_reducible apply H.mk'

theorem keeps_State_sendIq {P : State → Prop} (H : Closed P) (s : State) (f : ℕ) (words : List ℕ) (keep_s : P s) : P (State.sendIq s f words) := by
  unfold State.sendIq
  try dsimp only
  repeat' first
    | with_reducible assumption
    | with_reducible apply keeps_State_sendSeq H

theorem keeps_State_notify {P : State → Prop} (H : Closed P) (s : State) (h : Fin 8) (code : ℕ) (keep_s : P s) : P (State.notify s h code) := by
  unfold State.notify
  try dsimp only
  repeat' first
    | with_reducible assumption
    | with_reducible apply keeps_State_inc H
    | with_reducible apply keeps_State_put H
    | with_reducible refine ite_keeps (fun _ => ?_) (fun _ => ?_)
    | with_reducible refine foldl_keeps (fun _ _ _ => ?_) ?_
    | with_reducible refine dite_keeps (fun _ => ?_) (fun _ => ?_)
    | with_reducible refine ite_fst (fun _ => ?_) (fun _ => ?_)
    | with_reducible refine ite_snd (fun _ => ?_) (fun _ => ?_)
    | with_reducible refine ite_snd2 (fun _ => ?_) (fun _ => ?_)
    | with_reducible refine ite_snd3 (fun _ => ?_) (fun _ => ?_)
    | with_reducible refine foldl_fst (fun _ _ _ => ?_) ?_
    | with_reducible refine foldl_snd (fun _ _ _ => ?_) ?_
    | with_reducible refine snd_of_eq (by assumption) ?_
    | with_reducible refine fst_of_eq (by assumption) ?_
    | with_reducible refine snd2_of_eq (by assumption) ?_
    | with_reducible intro _ _
    | with_reducible intro _ _ _
    | split
    | dsimp only
    | with_reducible apply H.mk'

theorem keeps_State_notifyReeve {P : State → Prop} (H : Closed P) (s : State) (code : ℕ) (keep_s : P s) : P (State.notifyReeve s code) := by
  unfold State.notifyReeve
  try dsimp only
  repeat' first
    | with_reducible assumption
    | with_reducible apply keeps_State_inc H
    | with_reducible refine ite_keeps (fun _ => ?_) (fun _ => ?_)
    | with_reducible refine foldl_keeps (fun _ _ _ => ?_) ?_
    | with_reducible refine dite_keeps (fun _ => ?_) (fun _ => ?_)
    | with_reducible refine ite_fst (fun _ => ?_) (fun _ => ?_)
    | with_reducible refine ite_snd (fun _ => ?_) (fun _ => ?_)
    | with_reducible refine ite_snd2 (fun _ => ?_) (fun _ => ?_)
    | with_reducible refine ite_snd3 (fun _ => ?_) (fun _ => ?_)
    | with_reducible refine foldl_fst (fun _ _ _ => ?_) ?_
    | with_reducible refine foldl_snd (fun _ _ _ => ?_) ?_
    | with_reducible refine snd_of_eq (by assumption) ?_
    | with_reducible refine fst_of_eq (by assumption) ?_
    | with_reducible refine snd2_of_eq (by assumption) ?_
    | with_reducible intro _ _
    | with_reducible intro _ _ _
    | split
    | dsimp only
    | with_reducible apply H.mk'

theorem keeps_State_postEdge {P : State → Prop} (H : Closed P) (s : State) (trig : ℕ) (h : ℕ) (arg : ℕ) (keep_s : P s) : P (State.postEdge s trig h arg) := by
  unfold State.postEdge
  try dsimp only
  repeat' first
    | with_reducible assumption
    | with_reducible refine ite_keeps (fun _ => ?_) (fun _ => ?_)
    | with_reducible refine foldl_keeps (fun _ _ _ => ?_) ?_
    | with_reducible refine dite_keeps (fun _ => ?_) (fun _ => ?_)
    | with_reducible refine ite_fst (fun _ => ?_) (fun _ => ?_)
    | with_reducible refine ite_snd (fun _ => ?_) (fun _ => ?_)
    | with_reducible refine ite_snd2 (fun _ => ?_) (fun _ => ?_)
    | with_reducible refine ite_snd3 (fun _ => ?_) (fun _ => ?_)
    | with_reducible refine foldl_fst (fun _ _ _ => ?_) ?_
    | with_reducible refine foldl_snd (fun _ _ _ => ?_) ?_
    | with_reducible refine snd_of_eq (by assumption) ?_
    | with_reducible refine fst_of_eq (by assumption) ?_
    | with_reducible refine snd2_of_eq (by assumption) ?_
    | with_reducible intro _ _
    | with_reducible intro _ _ _
    | split
    | dsimp only
    | with_reducible apply H.mk'

theorem keeps_State_setPinOwner {P : State → Prop} (H : Closed P) (s : State) (h : Fin 8) (j : ℕ) (o : ℕ) (keep_s : P s) : P (State.setPinOwner s h j o) := by
  unfold State.setPinOwner
  try dsimp only
  repeat' first
    | with_reducible assumption
    | with_reducible apply keeps_State_put H

theorem keeps_State_drivePins {P : State → Prop} (H : Closed P) (s : State) (h : Fin 8) (mask : ℕ) (v : ℕ) (keep_s : P s) : P (State.drivePins s h mask v) := by
  unfold State.drivePins
  try dsimp only
  repeat' first
    | with_reducible assumption
    | with_reducible apply keeps_State_put H

theorem keeps_State_releasePins {P : State → Prop} (H : Closed P) (s : State) (h : Fin 8) (mask : ℕ) (keep_s : P s) : P (State.releasePins s h mask) := by
  unfold State.releasePins
  try dsimp only
  repeat' first
    | with_reducible assumption
    | with_reducible apply keeps_State_drivePins H
    | with_reducible apply keeps_State_setPinOwner H
    | with_reducible refine ite_keeps (fun _ => ?_) (fun _ => ?_)
    | with_reducible refine foldl_keeps (fun _ _ _ => ?_) ?_

theorem keeps_State_forcePins {P : State → Prop} (H : Closed P) (s : State) (h : Fin 8) (keep_s : P s) : P (State.forcePins s h) := by
  unfold State.forcePins
  try dsimp only
  repeat' first
    | with_reducible assumption
    | with_reducible apply keeps_State_releasePins H
    | with_reducible refine ite_keeps (fun _ => ?_) (fun _ => ?_)
    | with_reducible refine foldl_keeps (fun _ _ _ => ?_) ?_
    | with_reducible refine dite_keeps (fun _ => ?_) (fun _ => ?_)
    | with_reducible refine ite_fst (fun _ => ?_) (fun _ => ?_)
    | with_reducible refine ite_snd (fun _ => ?_) (fun _ => ?_)
    | with_reducible refine ite_snd2 (fun _ => ?_) (fun _ => ?_)
    | with_reducible refine ite_snd3 (fun _ => ?_) (fun _ => ?_)
    | with_reducible refine foldl_fst (fun _ _ _ => ?_) ?_
    | with_reducible refine foldl_snd (fun _ _ _ => ?_) ?_
    | with_reducible refine snd_of_eq (by assumption) ?_
    | with_reducible refine fst_of_eq (by assumption) ?_
    | with_reducible refine snd2_of_eq (by assumption) ?_
    | with_reducible intro _ _
    | with_reducible intro _ _ _
    | split
    | dsimp only
    | with_reducible apply H.mk'

theorem keeps_State_unforcePins {P : State → Prop} (H : Closed P) (s : State) (h : Fin 8) (keep_s : P s) : P (State.unforcePins s h) := by
  unfold State.unforcePins
  try dsimp only
  repeat' first
    | with_reducible assumption
    | with_reducible apply keeps_State_drivePins H
    | with_reducible refine ite_keeps (fun _ => ?_) (fun _ => ?_)
    | with_reducible refine foldl_keeps (fun _ _ _ => ?_) ?_
    | with_reducible refine dite_keeps (fun _ => ?_) (fun _ => ?_)
    | with_reducible refine ite_fst (fun _ => ?_) (fun _ => ?_)
    | with_reducible refine ite_snd (fun _ => ?_) (fun _ => ?_)
    | with_reducible refine ite_snd2 (fun _ => ?_) (fun _ => ?_)
    | with_reducible refine ite_snd3 (fun _ => ?_) (fun _ => ?_)
    | with_reducible refine foldl_fst (fun _ _ _ => ?_) ?_
    | with_reducible refine foldl_snd (fun _ _ _ => ?_) ?_
    | with_reducible refine snd_of_eq (by assumption) ?_
    | with_reducible refine fst_of_eq (by assumption) ?_
    | with_reducible refine snd2_of_eq (by assumption) ?_
    | with_reducible intro _ _
    | with_reducible intro _ _ _
    | split
    | dsimp only
    | with_reducible apply H.mk'

theorem keeps_State_setBank {P : State → Prop} (H : Closed P) (s : State) (k : Fin 10) (b : ℕ) (x : Bank) (keep_s : P s) : P (State.setBank s k b x) := by
  unfold State.setBank
  try dsimp only
  repeat' first
    | with_reducible assumption
    | with_reducible refine ite_keeps (fun _ => ?_) (fun _ => ?_)
    | with_reducible refine foldl_keeps (fun _ _ _ => ?_) ?_
    | with_reducible refine dite_keeps (fun _ => ?_) (fun _ => ?_)
    | with_reducible refine ite_fst (fun _ => ?_) (fun _ => ?_)
    | with_reducible refine ite_snd (fun _ => ?_) (fun _ => ?_)
    | with_reducible refine ite_snd2 (fun _ => ?_) (fun _ => ?_)
    | with_reducible refine ite_snd3 (fun _ => ?_) (fun _ => ?_)
    | with_reducible refine foldl_fst (fun _ _ _ => ?_) ?_
    | with_reducible refine foldl_snd (fun _ _ _ => ?_) ?_
    | with_reducible refine snd_of_eq (by assumption) ?_
    | with_reducible refine fst_of_eq (by assumption) ?_
    | with_reducible refine snd2_of_eq (by assumption) ?_
    | with_reducible intro _ _
    | with_reducible intro _ _ _
    | split
    | dsimp only
    | with_reducible apply H.mk'

theorem keeps_State_request {P : State → Prop} (H : Closed P) (s : State) (k : Fin 10) (b : ℕ) (i : ℕ) (keep_s : P s) : P (State.request s k b i) := by
  unfold State.request
  try dsimp only
  repeat' first
    | with_reducible assumption
    | with_reducible apply keeps_State_setBank H
    | with_reducible refine ite_keeps (fun _ => ?_) (fun _ => ?_)

theorem keeps_State_decideAt {P : State → Prop} (H : Closed P) (s : State) (k : Fin 10) (b : ℕ) (keep_s : P s) : P (State.decideAt s k b) := by
  unfold State.decideAt
  try dsimp only
  repeat' first
    | with_reducible assumption
    | with_reducible apply keeps_State_setBank H
    | with_reducible apply keeps_State_inc H
    | with_reducible refine ite_keeps (fun _ => ?_) (fun _ => ?_)
    | with_reducible refine foldl_keeps (fun _ _ _ => ?_) ?_
    | with_reducible refine dite_keeps (fun _ => ?_) (fun _ => ?_)
    | with_reducible refine ite_fst (fun _ => ?_) (fun _ => ?_)
    | with_reducible refine ite_snd (fun _ => ?_) (fun _ => ?_)
    | with_reducible refine ite_snd2 (fun _ => ?_) (fun _ => ?_)
    | with_reducible refine ite_snd3 (fun _ => ?_) (fun _ => ?_)
    | with_reducible refine foldl_fst (fun _ _ _ => ?_) ?_
    | with_reducible refine foldl_snd (fun _ _ _ => ?_) ?_
    | with_reducible refine snd_of_eq (by assumption) ?_
    | with_reducible refine fst_of_eq (by assumption) ?_
    | with_reducible refine snd2_of_eq (by assumption) ?_
    | with_reducible intro _ _
    | with_reducible intro _ _ _
    | split

theorem keeps_State_arbitrate {P : State → Prop} (H : Closed P) (k : Fin 10) (b : ℕ) (i : ℕ) (x3 : ℕ) (x4 : State) (keep_x4 : P x4) : P (State.arbitrate k b i x3 x4) := by
  induction x3 generalizing x4 with
  | zero =>
    unfold State.arbitrate
    try dsimp only
    repeat' first
      | with_reducible assumption
  | succ n ih =>
    unfold State.arbitrate
    try dsimp only
    repeat' first
      | with_reducible assumption
      | with_reducible apply ih
      | with_reducible apply keeps_State_decideAt H
      | with_reducible refine ite_keeps (fun _ => ?_) (fun _ => ?_)

theorem keeps_State_useGrant {P : State → Prop} (H : Closed P) (s : State) (k : Fin 10) (b : ℕ) (i : ℕ) (keep_s : P s) : P (State.useGrant s k b i) := by
  unfold State.useGrant
  try dsimp only
  repeat' first
    | with_reducible assumption
    | with_reducible apply keeps_State_setBank H
    | with_reducible apply keeps_State_decideAt H
    | with_reducible refine ite_keeps (fun _ => ?_) (fun _ => ?_)

theorem keeps_State_reach {P : State → Prop} (H : Closed P) (s : State) (k : Fin 10) (i : ℕ) (a : ℕ) (n : ℕ) (grant : Bool) (keep_s : P s) : P (State.reach s k i a n grant) := by
  unfold State.reach
  try dsimp only
  repeat' first
    | with_reducible assumption
    | with_reducible apply keeps_State_request H
    | with_reducible apply keeps_State_useGrant H
    | with_reducible apply keeps_State_arbitrate H
    | with_reducible refine ite_keeps (fun _ => ?_) (fun _ => ?_)
    | with_reducible refine foldl_keeps (fun _ _ _ => ?_) ?_

theorem keeps_State_access {P : State → Prop} (H : Closed P) (s : State) (req : ℕ) (fetch : Bool) (a : ℕ) (n : ℕ) (grant : Bool) (keep_s : P s) : P (State.access s req fetch a n grant) := by
  unfold State.access
  try dsimp only
  repeat' first
    | with_reducible assumption
    | with_reducible apply keeps_State_reach H
    | with_reducible refine ite_keeps (fun _ => ?_) (fun _ => ?_)

theorem keeps_State_maskRequesters {P : State → Prop} (H : Closed P) (s : State) (k : Fin 10) (is : List ℕ) (keep_s : P s) : P (State.maskRequesters s k is) := by
  unfold State.maskRequesters
  try dsimp only
  repeat' first
    | with_reducible assumption
    | with_reducible apply keeps_State_add H
    | with_reducible refine ite_keeps (fun _ => ?_) (fun _ => ?_)
    | with_reducible refine foldl_keeps (fun _ _ _ => ?_) ?_
    | with_reducible refine dite_keeps (fun _ => ?_) (fun _ => ?_)
    | with_reducible refine ite_fst (fun _ => ?_) (fun _ => ?_)
    | with_reducible refine ite_snd (fun _ => ?_) (fun _ => ?_)
    | with_reducible refine ite_snd2 (fun _ => ?_) (fun _ => ?_)
    | with_reducible refine ite_snd3 (fun _ => ?_) (fun _ => ?_)
    | with_reducible refine foldl_fst (fun _ _ _ => ?_) ?_
    | with_reducible refine foldl_snd (fun _ _ _ => ?_) ?_
    | with_reducible refine snd_of_eq (by assumption) ?_
    | with_reducible refine fst_of_eq (by assumption) ?_
    | with_reducible refine snd2_of_eq (by assumption) ?_
    | with_reducible intro _ _
    | with_reducible intro _ _ _
    | split
    | dsimp only
    | with_reducible apply H.mk'

theorem keeps_State_maskReeve {P : State → Prop} (H : Closed P) (s : State) (keep_s : P s) : P (State.maskReeve s) := by
  unfold State.maskReeve
  try dsimp only
  repeat' first
    | with_reducible assumption
    | with_reducible apply keeps_State_maskRequesters H
    | with_reducible refine ite_keeps (fun _ => ?_) (fun _ => ?_)
    | with_reducible refine foldl_keeps (fun _ _ _ => ?_) ?_

theorem keeps_State_freeze {P : State → Prop} (H : Closed P) (s : State) (h : Fin 8) (keep_s : P s) : P (State.freeze s h) := by
  unfold State.freeze
  try dsimp only
  repeat' first
    | with_reducible assumption
    | with_reducible apply keeps_State_put H
    | with_reducible refine ite_keeps (fun _ => ?_) (fun _ => ?_)
    | with_reducible refine foldl_keeps (fun _ _ _ => ?_) ?_
    | with_reducible refine dite_keeps (fun _ => ?_) (fun _ => ?_)
    | with_reducible refine ite_fst (fun _ => ?_) (fun _ => ?_)
    | with_reducible refine ite_snd (fun _ => ?_) (fun _ => ?_)
    | with_reducible refine ite_snd2 (fun _ => ?_) (fun _ => ?_)
    | with_reducible refine ite_snd3 (fun _ => ?_) (fun _ => ?_)
    | with_reducible refine foldl_fst (fun _ _ _ => ?_) ?_
    | with_reducible refine foldl_snd (fun _ _ _ => ?_) ?_
    | with_reducible refine snd_of_eq (by assumption) ?_
    | with_reducible refine fst_of_eq (by assumption) ?_
    | with_reducible refine snd2_of_eq (by assumption) ?_
    | with_reducible intro _ _
    | with_reducible intro _ _ _
    | split
    | dsimp only
    | with_reducible apply H.mk'

theorem keeps_State_thaw {P : State → Prop} (H : Closed P) (s : State) (h : Fin 8) (keep_s : P s) : P (State.thaw s h) := by
  unfold State.thaw
  try dsimp only
  repeat' first
    | with_reducible assumption
    | with_reducible apply keeps_State_put H
    | with_reducible refine ite_keeps (fun _ => ?_) (fun _ => ?_)
    | with_reducible refine foldl_keeps (fun _ _ _ => ?_) ?_
    | with_reducible refine dite_keeps (fun _ => ?_) (fun _ => ?_)
    | with_reducible refine ite_fst (fun _ => ?_) (fun _ => ?_)
    | with_reducible refine ite_snd (fun _ => ?_) (fun _ => ?_)
    | with_reducible refine ite_snd2 (fun _ => ?_) (fun _ => ?_)
    | with_reducible refine ite_snd3 (fun _ => ?_) (fun _ => ?_)
    | with_reducible refine foldl_fst (fun _ _ _ => ?_) ?_
    | with_reducible refine foldl_snd (fun _ _ _ => ?_) ?_
    | with_reducible refine snd_of_eq (by assumption) ?_
    | with_reducible refine fst_of_eq (by assumption) ?_
    | with_reducible refine snd2_of_eq (by assumption) ?_
    | with_reducible intro _ _
    | with_reducible intro _ _ _
    | split
    | dsimp only
    | with_reducible apply H.mk'

theorem keeps_State_endCapture {P : State → Prop} (H : Closed P) (s : State) (h : Fin 8) (code : ℕ) (keep_s : P s) : P (State.endCapture s h code) := by
  unfold State.endCapture
  try dsimp only
  repeat' first
    | with_reducible assumption
    | with_reducible refine ite_keeps (fun _ => ?_) (fun _ => ?_)
    | with_reducible refine foldl_keeps (fun _ _ _ => ?_) ?_
    | with_reducible refine dite_keeps (fun _ => ?_) (fun _ => ?_)
    | with_reducible refine ite_fst (fun _ => ?_) (fun _ => ?_)
    | with_reducible refine ite_snd (fun _ => ?_) (fun _ => ?_)
    | with_reducible refine ite_snd2 (fun _ => ?_) (fun _ => ?_)
    | with_reducible refine ite_snd3 (fun _ => ?_) (fun _ => ?_)
    | with_reducible refine foldl_fst (fun _ _ _ => ?_) ?_
    | with_reducible refine foldl_snd (fun _ _ _ => ?_) ?_
    | with_reducible refine snd_of_eq (by assumption) ?_
    | with_reducible refine fst_of_eq (by assumption) ?_
    | with_reducible refine snd2_of_eq (by assumption) ?_
    | with_reducible intro _ _
    | with_reducible intro _ _ _
    | split
    | dsimp only
    | with_reducible apply H.mk'

theorem keeps_State_safetyRamp {P : State → Prop} (H : Closed P) (s : State) (h : Fin 8) (keep_s : P s) : P (State.safetyRamp s h) := by
  unfold State.safetyRamp
  try dsimp only
  repeat' first
    | with_reducible assumption
    | with_reducible apply keeps_State_put H
    | with_reducible refine ite_keeps (fun _ => ?_) (fun _ => ?_)
    | with_reducible refine foldl_keeps (fun _ _ _ => ?_) ?_
    | with_reducible refine dite_keeps (fun _ => ?_) (fun _ => ?_)
    | with_reducible refine ite_fst (fun _ => ?_) (fun _ => ?_)
    | with_reducible refine ite_snd (fun _ => ?_) (fun _ => ?_)
    | with_reducible refine ite_snd2 (fun _ => ?_) (fun _ => ?_)
    | with_reducible refine ite_snd3 (fun _ => ?_) (fun _ => ?_)
    | with_reducible refine foldl_fst (fun _ _ _ => ?_) ?_
    | with_reducible refine foldl_snd (fun _ _ _ => ?_) ?_
    | with_reducible refine snd_of_eq (by assumption) ?_
    | with_reducible refine fst_of_eq (by assumption) ?_
    | with_reducible refine snd2_of_eq (by assumption) ?_
    | with_reducible intro _ _
    | with_reducible intro _ _ _
    | split
    | dsimp only
    | with_reducible apply H.mk'

theorem keeps_State_cancelBeam {P : State → Prop} (H : Closed P) (s : State) (h : Fin 8) (keep_s : P s) : P (State.cancelBeam s h) := by
  unfold State.cancelBeam
  try dsimp only
  repeat' first
    | with_reducible assumption
    | with_reducible apply keeps_State_put H
    | with_reducible refine ite_keeps (fun _ => ?_) (fun _ => ?_)
    | with_reducible refine foldl_keeps (fun _ _ _ => ?_) ?_
    | with_reducible refine dite_keeps (fun _ => ?_) (fun _ => ?_)
    | with_reducible refine ite_fst (fun _ => ?_) (fun _ => ?_)
    | with_reducible refine ite_snd (fun _ => ?_) (fun _ => ?_)
    | with_reducible refine ite_snd2 (fun _ => ?_) (fun _ => ?_)
    | with_reducible refine ite_snd3 (fun _ => ?_) (fun _ => ?_)
    | with_reducible refine foldl_fst (fun _ _ _ => ?_) ?_
    | with_reducible refine foldl_snd (fun _ _ _ => ?_) ?_
    | with_reducible refine snd_of_eq (by assumption) ?_
    | with_reducible refine fst_of_eq (by assumption) ?_
    | with_reducible refine snd2_of_eq (by assumption) ?_
    | with_reducible intro _ _
    | with_reducible intro _ _ _
    | split
    | dsimp only
    | with_reducible apply H.mk'

theorem keeps_State_cancelSwaps {P : State → Prop} (H : Closed P) (s : State) (h : Fin 8) (keep_s : P s) : P (State.cancelSwaps s h) := by
  unfold State.cancelSwaps
  try dsimp only
  repeat' first
    | with_reducible assumption
    | with_reducible apply keeps_State_put H
    | with_reducible refine ite_keeps (fun _ => ?_) (fun _ => ?_)
    | with_reducible refine foldl_keeps (fun _ _ _ => ?_) ?_
    | with_reducible refine dite_keeps (fun _ => ?_) (fun _ => ?_)
    | with_reducible refine ite_fst (fun _ => ?_) (fun _ => ?_)
    | with_reducible refine ite_snd (fun _ => ?_) (fun _ => ?_)
    | with_reducible refine ite_snd2 (fun _ => ?_) (fun _ => ?_)
    | with_reducible refine ite_snd3 (fun _ => ?_) (fun _ => ?_)
    | with_reducible refine foldl_fst (fun _ _ _ => ?_) ?_
    | with_reducible refine foldl_snd (fun _ _ _ => ?_) ?_
    | with_reducible refine snd_of_eq (by assumption) ?_
    | with_reducible refine fst_of_eq (by assumption) ?_
    | with_reducible refine snd2_of_eq (by assumption) ?_
    | with_reducible intro _ _
    | with_reducible intro _ _ _
    | split
    | dsimp only
    | with_reducible apply H.mk'

theorem keeps_State_releaseTimers {P : State → Prop} (H : Closed P) (s : State) (h : Fin 8) (keep_s : P s) : P (State.releaseTimers s h) := by
  unfold State.releaseTimers
  try dsimp only
  repeat' first
    | with_reducible assumption
    | with_reducible apply keeps_State_put H
    | with_reducible refine ite_keeps (fun _ => ?_) (fun _ => ?_)
    | with_reducible refine foldl_keeps (fun _ _ _ => ?_) ?_

theorem keeps_State_cancelSlot {P : State → Prop} (H : Closed P) (s : State) (h : Fin 8) (keep_s : P s) : P (State.cancelSlot s h) := by
  unfold State.cancelSlot
  try dsimp only
  repeat' first
    | with_reducible assumption
    | with_reducible apply keeps_State_put H
    | with_reducible refine ite_keeps (fun _ => ?_) (fun _ => ?_)
    | with_reducible refine foldl_keeps (fun _ _ _ => ?_) ?_
    | with_reducible refine dite_keeps (fun _ => ?_) (fun _ => ?_)
    | with_reducible refine ite_fst (fun _ => ?_) (fun _ => ?_)
    | with_reducible refine ite_snd (fun _ => ?_) (fun _ => ?_)
    | with_reducible refine ite_snd2 (fun _ => ?_) (fun _ => ?_)
    | with_reducible refine ite_snd3 (fun _ => ?_) (fun _ => ?_)
    | with_reducible refine foldl_fst (fun _ _ _ => ?_) ?_
    | with_reducible refine foldl_snd (fun _ _ _ => ?_) ?_
    | with_reducible refine snd_of_eq (by assumption) ?_
    | with_reducible refine fst_of_eq (by assumption) ?_
    | with_reducible refine snd2_of_eq (by assumption) ?_
    | with_reducible intro _ _
    | with_reducible intro _ _ _
    | split
    | dsimp only
    | with_reducible apply H.mk'

theorem keeps_State_loseCal {P : State → Prop} (H : Closed P) (s : State) (h : Fin 8) (kinds : ℕ → Bool) (keep_s : P s) : P (State.loseCal s h kinds) := by
  unfold State.loseCal
  try dsimp only
  repeat' first
    | with_reducible assumption
    | with_reducible refine ite_keeps (fun _ => ?_) (fun _ => ?_)
    | with_reducible refine foldl_keeps (fun _ _ _ => ?_) ?_
    | with_reducible refine dite_keeps (fun _ => ?_) (fun _ => ?_)
    | with_reducible refine ite_fst (fun _ => ?_) (fun _ => ?_)
    | with_reducible refine ite_snd (fun _ => ?_) (fun _ => ?_)
    | with_reducible refine ite_snd2 (fun _ => ?_) (fun _ => ?_)
    | with_reducible refine ite_snd3 (fun _ => ?_) (fun _ => ?_)
    | with_reducible refine foldl_fst (fun _ _ _ => ?_) ?_
    | with_reducible refine foldl_snd (fun _ _ _ => ?_) ?_
    | with_reducible refine snd_of_eq (by assumption) ?_
    | with_reducible refine fst_of_eq (by assumption) ?_
    | with_reducible refine snd2_of_eq (by assumption) ?_
    | with_reducible intro _ _
    | with_reducible intro _ _ _
    | split
    | dsimp only
    | with_reducible apply H.mk'

theorem keeps_State_loseUnit {P : State → Prop} (H : Closed P) (s : State) (h : Fin 8) (kind : ℕ) (k : ℕ) (keep_s : P s) : P (State.loseUnit s h kind k) := by
  unfold State.loseUnit
  try dsimp only
  repeat' first
    | with_reducible assumption
    | with_reducible refine ite_keeps (fun _ => ?_) (fun _ => ?_)
    | with_reducible refine foldl_keeps (fun _ _ _ => ?_) ?_
    | with_reducible refine dite_keeps (fun _ => ?_) (fun _ => ?_)
    | with_reducible refine ite_fst (fun _ => ?_) (fun _ => ?_)
    | with_reducible refine ite_snd (fun _ => ?_) (fun _ => ?_)
    | with_reducible refine ite_snd2 (fun _ => ?_) (fun _ => ?_)
    | with_reducible refine ite_snd3 (fun _ => ?_) (fun _ => ?_)
    | with_reducible refine foldl_fst (fun _ _ _ => ?_) ?_
    | with_reducible refine foldl_snd (fun _ _ _ => ?_) ?_
    | with_reducible refine snd_of_eq (by assumption) ?_
    | with_reducible refine fst_of_eq (by assumption) ?_
    | with_reducible refine snd2_of_eq (by assumption) ?_
    | with_reducible intro _ _
    | with_reducible intro _ _ _
    | split
    | dsimp only
    | with_reducible apply H.mk'

theorem keeps_State_safetyStep2 {P : State → Prop} (H : Closed P) (s : State) (h : Fin 8) (keep_s : P s) : P (State.safetyStep2 s h) := by
  unfold State.safetyStep2
  try dsimp only
  repeat' first
    | with_reducible assumption
    | with_reducible apply keeps_State_loseCal H
    | with_reducible apply keeps_State_releaseTimers H
    | with_reducible apply keeps_State_cancelSwaps H
    | with_reducible apply keeps_State_cancelSlot H
    | with_reducible apply keeps_State_cancelBeam H
    | with_reducible apply keeps_State_safetyRamp H

theorem keeps_State_safetyClear {P : State → Prop} (H : Closed P) (s : State) (h : Fin 8) (keep_s : P s) : P (State.safetyClear s h) := by
  unfold State.safetyClear
  try dsimp only
  repeat' first
    | with_reducible assumption
    | with_reducible apply keeps_State_safetyStep2 H
    | with_reducible apply keeps_State_forcePins H
    | with_reducible apply keeps_State_releaseTimers H
    | with_reducible apply keeps_State_cancelSwaps H
    | with_reducible apply keeps_State_cancelSlot H
    | with_reducible apply keeps_State_cancelBeam H
    | with_reducible apply keeps_State_put H
    | with_reducible refine ite_keeps (fun _ => ?_) (fun _ => ?_)
    | with_reducible refine foldl_keeps (fun _ _ _ => ?_) ?_
    | with_reducible refine dite_keeps (fun _ => ?_) (fun _ => ?_)
    | with_reducible refine ite_fst (fun _ => ?_) (fun _ => ?_)
    | with_reducible refine ite_snd (fun _ => ?_) (fun _ => ?_)
    | with_reducible refine ite_snd2 (fun _ => ?_) (fun _ => ?_)
    | with_reducible refine ite_snd3 (fun _ => ?_) (fun _ => ?_)
    | with_reducible refine foldl_fst (fun _ _ _ => ?_) ?_
    | with_reducible refine foldl_snd (fun _ _ _ => ?_) ?_
    | with_reducible refine snd_of_eq (by assumption) ?_
    | with_reducible refine fst_of_eq (by assumption) ?_
    | with_reducible refine snd2_of_eq (by assumption) ?_
    | with_reducible intro _ _
    | with_reducible intro _ _ _
    | split
    | dsimp only
    | with_reducible apply H.mk'

theorem keeps_State_safetyClearAll {P : State → Prop} (H : Closed P) (s : State) (keep_s : P s) : P (State.safetyClearAll s) := by
  unfold State.safetyClearAll
  try dsimp only
  repeat' first
    | with_reducible assumption
    | with_reducible apply keeps_State_safetyClear H
    | with_reducible refine ite_keeps (fun _ => ?_) (fun _ => ?_)
    | with_reducible refine foldl_keeps (fun _ _ _ => ?_) ?_

theorem keeps_State_tallySend {P : State → Prop} (H : Closed P) (s : State) (up : Bool) (dn : Bool) (op : ℕ) (args : List ℕ) (copies : ℕ) (keep_s : P s) : P (State.tallySend s up dn op args copies) := by
  unfold State.tallySend
  try dsimp only
  repeat' first
    | with_reducible assumption
    | with_reducible apply keeps_State_emit H
    | with_reducible refine ite_keeps (fun _ => ?_) (fun _ => ?_)
    | with_reducible refine foldl_keeps (fun _ _ _ => ?_) ?_
    | with_reducible refine dite_keeps (fun _ => ?_) (fun _ => ?_)
    | with_reducible refine ite_fst (fun _ => ?_) (fun _ => ?_)
    | with_reducible refine ite_snd (fun _ => ?_) (fun _ => ?_)
    | with_reducible refine ite_snd2 (fun _ => ?_) (fun _ => ?_)
    | with_reducible refine ite_snd3 (fun _ => ?_) (fun _ => ?_)
    | with_reducible refine foldl_fst (fun _ _ _ => ?_) ?_
    | with_reducible refine foldl_snd (fun _ _ _ => ?_) ?_
    | with_reducible refine snd_of_eq (by assumption) ?_
    | with_reducible refine fst_of_eq (by assumption) ?_
    | with_reducible refine snd2_of_eq (by assumption) ?_
    | with_reducible intro _ _
    | with_reducible intro _ _ _
    | split
    | dsimp only
    | with_reducible apply H.mk'

theorem keeps_State_sendInd {P : State → Prop} (H : Closed P) (s : State) (i : Indic) (keep_s : P s) : P (State.sendInd s i) := by
  unfold State.sendInd
  try dsimp only
  repeat' first
    | with_reducible assumption
    | with_reducible apply keeps_State_stage H
    | with_reducible refine ite_keeps (fun _ => ?_) (fun _ => ?_)
    | with_reducible refine foldl_keeps (fun _ _ _ => ?_) ?_
    | with_reducible refine dite_keeps (fun _ => ?_) (fun _ => ?_)
    | with_reducible refine ite_fst (fun _ => ?_) (fun _ => ?_)
    | with_reducible refine ite_snd (fun _ => ?_) (fun _ => ?_)
    | with_reducible refine ite_snd2 (fun _ => ?_) (fun _ => ?_)
    | with_reducible refine ite_snd3 (fun _ => ?_) (fun _ => ?_)
    | with_reducible refine foldl_fst (fun _ _ _ => ?_) ?_
    | with_reducible refine foldl_snd (fun _ _ _ => ?_) ?_
    | with_reducible refine snd_of_eq (by assumption) ?_
    | with_reducible refine fst_of_eq (by assumption) ?_
    | with_reducible refine snd2_of_eq (by assumption) ?_
    | with_reducible intro _ _
    | with_reducible intro _ _ _
    | split
    | dsimp only
    | with_reducible apply H.mk'

theorem keeps_State_indicate {P : State → Prop} (H : Closed P) (s : State) (i : Indic) (keep_s : P s) : P (State.indicate s i) := by
  unfold State.indicate
  try dsimp only
  repeat' first
    | with_reducible assumption
    | with_reducible apply keeps_State_sendInd H
    | with_reducible refine ite_keeps (fun _ => ?_) (fun _ => ?_)
    | with_reducible refine foldl_keeps (fun _ _ _ => ?_) ?_
    | with_reducible refine dite_keeps (fun _ => ?_) (fun _ => ?_)
    | with_reducible refine ite_fst (fun _ => ?_) (fun _ => ?_)
    | with_reducible refine ite_snd (fun _ => ?_) (fun _ => ?_)
    | with_reducible refine ite_snd2 (fun _ => ?_) (fun _ => ?_)
    | with_reducible refine ite_snd3 (fun _ => ?_) (fun _ => ?_)
    | with_reducible refine foldl_fst (fun _ _ _ => ?_) ?_
    | with_reducible refine foldl_snd (fun _ _ _ => ?_) ?_
    | with_reducible refine snd_of_eq (by assumption) ?_
    | with_reducible refine fst_of_eq (by assumption) ?_
    | with_reducible refine snd2_of_eq (by assumption) ?_
    | with_reducible intro _ _
    | with_reducible intro _ _ _
    | split
    | dsimp only
    | with_reducible apply H.mk'

theorem keeps_State_notifyLink {P : State → Prop} (H : Closed P) (s : State) (num : ℕ) (elem : ℕ) (info : ℕ) (keep_s : P s) : P (State.notifyLink s num elem info) := by
  unfold State.notifyLink
  try dsimp only
  repeat' first
    | with_reducible assumption
    | with_reducible apply keeps_State_stage H
    | with_reducible refine ite_keeps (fun _ => ?_) (fun _ => ?_)
    | with_reducible refine foldl_keeps (fun _ _ _ => ?_) ?_
    | with_reducible refine dite_keeps (fun _ => ?_) (fun _ => ?_)
    | with_reducible refine ite_fst (fun _ => ?_) (fun _ => ?_)
    | with_reducible refine ite_snd (fun _ => ?_) (fun _ => ?_)
    | with_reducible refine ite_snd2 (fun _ => ?_) (fun _ => ?_)
    | with_reducible refine ite_snd3 (fun _ => ?_) (fun _ => ?_)
    | with_reducible refine foldl_fst (fun _ _ _ => ?_) ?_
    | with_reducible refine foldl_snd (fun _ _ _ => ?_) ?_
    | with_reducible refine snd_of_eq (by assumption) ?_
    | with_reducible refine fst_of_eq (by assumption) ?_
    | with_reducible refine snd2_of_eq (by assumption) ?_
    | with_reducible intro _ _
    | with_reducible intro _ _ _
    | split
    | dsimp only
    | with_reducible apply H.mk'

theorem keeps_State_breadcrumb {P : State → Prop} (H : Closed P) (s : State) (n : Fin 32) (keep_s : P s) : P (State.breadcrumb s n) := by
  unfold State.breadcrumb
  try dsimp only
  repeat' first
    | with_reducible assumption
    | with_reducible apply keeps_State_wr H
    | with_reducible refine ite_keeps (fun _ => ?_) (fun _ => ?_)
    | with_reducible refine foldl_keeps (fun _ _ _ => ?_) ?_

theorem keeps_State_setCurrent {P : State → Prop} (H : Closed P) (s : State) (n : ℕ) (sev : ℕ) (elem : ℕ) (keep_s : P s) : P (State.setCurrent s n sev elem) := by
  unfold State.setCurrent
  try dsimp only
  repeat' first
    | with_reducible assumption
    | with_reducible apply keeps_State_put H

theorem keeps_State_trimQueue {P : State → Prop} (H : Closed P) (s : State) (keep_s : P s) : P (State.trimQueue s) := by
  unfold State.trimQueue
  try dsimp only
  repeat' first
    | with_reducible assumption
    | with_reducible apply keeps_State_inc H
    | with_reducible refine ite_keeps (fun _ => ?_) (fun _ => ?_)
    | with_reducible refine foldl_keeps (fun _ _ _ => ?_) ?_
    | with_reducible refine dite_keeps (fun _ => ?_) (fun _ => ?_)
    | with_reducible refine ite_fst (fun _ => ?_) (fun _ => ?_)
    | with_reducible refine ite_snd (fun _ => ?_) (fun _ => ?_)
    | with_reducible refine ite_snd2 (fun _ => ?_) (fun _ => ?_)
    | with_reducible refine ite_snd3 (fun _ => ?_) (fun _ => ?_)
    | with_reducible refine foldl_fst (fun _ _ _ => ?_) ?_
    | with_reducible refine foldl_snd (fun _ _ _ => ?_) ?_
    | with_reducible refine snd_of_eq (by assumption) ?_
    | with_reducible refine fst_of_eq (by assumption) ?_
    | with_reducible refine snd2_of_eq (by assumption) ?_
    | with_reducible intro _ _
    | with_reducible intro _ _ _
    | split
    | dsimp only
    | with_reducible apply H.mk'

theorem keeps_State_requestIsolation {P : State → Prop} (H : Closed P) (s : State) (h : Fin 8) (cause : ℕ) (keep_s : P s) : P (State.requestIsolation s h cause) := by
  unfold State.requestIsolation
  try dsimp only
  repeat' first
    | with_reducible assumption
    | with_reducible apply keeps_State_forcePins H
    | with_reducible apply keeps_State_clrBit H
    | with_reducible apply keeps_State_put H
    | with_reducible refine ite_keeps (fun _ => ?_) (fun _ => ?_)
    | with_reducible refine foldl_keeps (fun _ _ _ => ?_) ?_
    | with_reducible refine dite_keeps (fun _ => ?_) (fun _ => ?_)
    | with_reducible refine ite_fst (fun _ => ?_) (fun _ => ?_)
    | with_reducible refine ite_snd (fun _ => ?_) (fun _ => ?_)
    | with_reducible refine ite_snd2 (fun _ => ?_) (fun _ => ?_)
    | with_reducible refine ite_snd3 (fun _ => ?_) (fun _ => ?_)
    | with_reducible refine foldl_fst (fun _ _ _ => ?_) ?_
    | with_reducible refine foldl_snd (fun _ _ _ => ?_) ?_
    | with_reducible refine snd_of_eq (by assumption) ?_
    | with_reducible refine fst_of_eq (by assumption) ?_
    | with_reducible refine snd2_of_eq (by assumption) ?_
    | with_reducible intro _ _
    | with_reducible intro _ _ _
    | split
    | dsimp only
    | with_reducible apply H.mk'

theorem keeps_State_askRecovery {P : State → Prop} (H : Closed P) (s : State) (n : Fin 32) (num : ℕ) (sev : ℕ) (elem : ℕ) (keep_s : P s) : P (State.askRecovery s n num sev elem) := by
  unfold State.askRecovery
  try dsimp only
  repeat' first
    | with_reducible assumption
    | with_reducible apply keeps_State_setCurrent H
    | with_reducible apply keeps_State_inc H
    | with_reducible apply keeps_State_put H
    | with_reducible apply keeps_State_requestIsolation H
    | with_reducible apply keeps_State_breadcrumb H
    | with_reducible apply keeps_State_trimQueue H
    | with_reducible refine ite_keeps (fun _ => ?_) (fun _ => ?_)
    | with_reducible refine foldl_keeps (fun _ _ _ => ?_) ?_
    | with_reducible refine dite_keeps (fun _ => ?_) (fun _ => ?_)
    | with_reducible refine ite_fst (fun _ => ?_) (fun _ => ?_)
    | with_reducible refine ite_snd (fun _ => ?_) (fun _ => ?_)
    | with_reducible refine ite_snd2 (fun _ => ?_) (fun _ => ?_)
    | with_reducible refine ite_snd3 (fun _ => ?_) (fun _ => ?_)
    | with_reducible refine foldl_fst (fun _ _ _ => ?_) ?_
    | with_reducible refine foldl_snd (fun _ _ _ => ?_) ?_
    | with_reducible refine snd_of_eq (by assumption) ?_
    | with_reducible refine fst_of_eq (by assumption) ?_
    | with_reducible refine snd2_of_eq (by assumption) ?_
    | with_reducible intro _ _
    | with_reducible intro _ _ _
    | split
    | dsimp only
    | with_reducible apply H.mk'

theorem keeps_State_faultAction {P : State → Prop} (H : Closed P) (s : State) (num : ℕ) (sev : ℕ) (elem : ℕ) (keep_s : P s) : P (State.faultAction s num sev elem) := by
  unfold State.faultAction
  try dsimp only
  repeat' first
    | with_reducible assumption
    | with_reducible apply keeps_State_requestIsolation H
    | with_reducible apply keeps_State_safetyClearAll H
    | with_reducible apply keeps_State_tallySend H
    | with_reducible refine ite_keeps (fun _ => ?_) (fun _ => ?_)

theorem keeps_State_wrAll {P : State → Prop} (H : Closed P) (s : State) (a : ℕ) (x2 : List Word) (keep_s : P s) : P (State.wrAll s a x2) := by
  induction x2 generalizing s a with
  | nil => exact keep_s
  | cons w t ih => exact ih _ _ (H.wr _ _ _ keep_s)

theorem keeps_State_takeEntry {P : State → Prop} (H : Closed P) (s : State) (n : Fin 32) (num : ℕ) (sev : ℕ) (elem : ℕ) (info : ℕ) (send : Bool) (keep_s : P s) : P (State.takeEntry s n num sev elem info send) := by
  unfold State.takeEntry
  try dsimp only
  repeat' first
    | with_reducible assumption
    | with_reducible apply keeps_State_wrAll H
    | with_reducible refine ite_keeps (fun _ => ?_) (fun _ => ?_)
    | with_reducible refine foldl_keeps (fun _ _ _ => ?_) ?_
    | with_reducible refine dite_keeps (fun _ => ?_) (fun _ => ?_)
    | with_reducible refine ite_fst (fun _ => ?_) (fun _ => ?_)
    | with_reducible refine ite_snd (fun _ => ?_) (fun _ => ?_)
    | with_reducible refine ite_snd2 (fun _ => ?_) (fun _ => ?_)
    | with_reducible refine ite_snd3 (fun _ => ?_) (fun _ => ?_)
    | with_reducible refine foldl_fst (fun _ _ _ => ?_) ?_
    | with_reducible refine foldl_snd (fun _ _ _ => ?_) ?_
    | with_reducible refine snd_of_eq (by assumption) ?_
    | with_reducible refine fst_of_eq (by assumption) ?_
    | with_reducible refine snd2_of_eq (by assumption) ?_
    | with_reducible intro _ _
    | with_reducible intro _ _ _
    | split
    | dsimp only
    | with_reducible apply H.mk'

theorem keeps_State_newFault {P : State → Prop} (H : Closed P) (s : State) (num : ℕ) (sev : ℕ) (elem : ℕ) (info : ℕ) (ind : Bool) (keep_s : P s) : P (State.newFault s num sev elem info ind) := by
  unfold State.newFault
  try dsimp only
  repeat' first
    | with_reducible assumption
    | with_reducible apply keeps_State_inc H
    | with_reducible apply keeps_State_takeEntry H
    | with_reducible apply keeps_State_breadcrumb H
    | with_reducible apply keeps_State_indicate H
    | with_reducible apply keeps_State_askRecovery H
    | with_reducible apply keeps_State_faultAction H
    | with_reducible refine ite_keeps (fun _ => ?_) (fun _ => ?_)

theorem keeps_State_enterFault {P : State → Prop} (H : Closed P) (s : State) (o : Option (Fin 32)) (num : ℕ) (sev : ℕ) (elem : ℕ) (info : ℕ) (ind : Bool) (keep_s : P s) : P (State.enterFault s o num sev elem info ind) := by
  unfold State.enterFault
  try dsimp only
  repeat' first
    | with_reducible assumption
    | with_reducible apply keeps_State_inc H
    | with_reducible apply keeps_State_newFault H
    | with_reducible refine ite_keeps (fun _ => ?_) (fun _ => ?_)
    | with_reducible refine foldl_keeps (fun _ _ _ => ?_) ?_
    | with_reducible refine dite_keeps (fun _ => ?_) (fun _ => ?_)
    | with_reducible refine ite_fst (fun _ => ?_) (fun _ => ?_)
    | with_reducible refine ite_snd (fun _ => ?_) (fun _ => ?_)
    | with_reducible refine ite_snd2 (fun _ => ?_) (fun _ => ?_)
    | with_reducible refine ite_snd3 (fun _ => ?_) (fun _ => ?_)
    | with_reducible refine foldl_fst (fun _ _ _ => ?_) ?_
    | with_reducible refine foldl_snd (fun _ _ _ => ?_) ?_
    | with_reducible refine snd_of_eq (by assumption) ?_
    | with_reducible refine fst_of_eq (by assumption) ?_
    | with_reducible refine snd2_of_eq (by assumption) ?_
    | with_reducible intro _ _
    | with_reducible intro _ _ _
    | split

theorem keeps_State_raiseSev {P : State → Prop} (H : Closed P) (s : State) (num : ℕ) (sev : ℕ) (elem : ℕ) (info : ℕ) (ind : Bool) (keep_s : P s) : P (State.raiseSev s num sev elem info ind) := by
  unfold State.raiseSev
  try dsimp only
  repeat' first
    | with_reducible assumption
    | with_reducible apply keeps_State_enterFault H
    | with_reducible apply keeps_State_inc H

theorem keeps_State_raise {P : State → Prop} (H : Closed P) (s : State) (num : ℕ) (elem : ℕ) (info : ℕ) (keep_s : P s) : P (State.raise s num elem info) := by
  unfold State.raise
  try dsimp only
  repeat' first
    | with_reducible assumption
    | with_reducible apply keeps_State_raiseSev H

theorem keeps_State_raiseSend {P : State → Prop} (H : Closed P) (s : State) (num : ℕ) (elem : ℕ) (info : ℕ) (keep_s : P s) : P (State.raiseSend s num elem info) := by
  unfold State.raiseSend
  try dsimp only
  repeat' first
    | with_reducible assumption
    | with_reducible apply keeps_State_indicate H
    | with_reducible apply keeps_State_raise H
    | with_reducible apply keeps_State_raiseSev H
    | with_reducible refine ite_keeps (fun _ => ?_) (fun _ => ?_)
    | with_reducible refine foldl_keeps (fun _ _ _ => ?_) ?_
    | with_reducible refine dite_keeps (fun _ => ?_) (fun _ => ?_)
    | with_reducible refine ite_fst (fun _ => ?_) (fun _ => ?_)
    | with_reducible refine ite_snd (fun _ => ?_) (fun _ => ?_)
    | with_reducible refine ite_snd2 (fun _ => ?_) (fun _ => ?_)
    | with_reducible refine ite_snd3 (fun _ => ?_) (fun _ => ?_)
    | with_reducible refine foldl_fst (fun _ _ _ => ?_) ?_
    | with_reducible refine foldl_snd (fun _ _ _ => ?_) ?_
    | with_reducible refine snd_of_eq (by assumption) ?_
    | with_reducible refine fst_of_eq (by assumption) ?_
    | with_reducible refine snd2_of_eq (by assumption) ?_
    | with_reducible intro _ _
    | with_reducible intro _ _ _
    | split

theorem keeps_State_setSto {P : State → Prop} (H : Closed P) (s : State) (k : ℕ) (x : Sto) (keep_s : P s) : P (State.setSto s k x) := by
  unfold State.setSto
  try dsimp only
  repeat' first
    | with_reducible assumption
    | with_reducible refine ite_keeps (fun _ => ?_) (fun _ => ?_)
    | with_reducible refine foldl_keeps (fun _ _ _ => ?_) ?_
    | with_reducible refine dite_keeps (fun _ => ?_) (fun _ => ?_)
    | with_reducible refine ite_fst (fun _ => ?_) (fun _ => ?_)
    | with_reducible refine ite_snd (fun _ => ?_) (fun _ => ?_)
    | with_reducible refine ite_snd2 (fun _ => ?_) (fun _ => ?_)
    | with_reducible refine ite_snd3 (fun _ => ?_) (fun _ => ?_)
    | with_reducible refine foldl_fst (fun _ _ _ => ?_) ?_
    | with_reducible refine foldl_snd (fun _ _ _ => ?_) ?_
    | with_reducible refine snd_of_eq (by assumption) ?_
    | with_reducible refine fst_of_eq (by assumption) ?_
    | with_reducible refine snd2_of_eq (by assumption) ?_
    | with_reducible intro _ _
    | with_reducible intro _ _ _
    | split
    | dsimp only
    | with_reducible apply H.mk'

theorem keeps_State_captureErr {P : State → Prop} (H : Closed P) (s : State) (k : ℕ) (ue : Bool) (req : ℕ) (cls : ℕ) (fetch : Bool) (e : EccErr) (keep_s : P s) : P (State.captureErr s k ue req cls fetch e) := by
  unfold State.captureErr
  try dsimp only
  repeat' first
    | with_reducible assumption
    | with_reducible apply keeps_State_wr H
    | with_reducible apply keeps_State_raise H
    | with_reducible refine ite_keeps (fun _ => ?_) (fun _ => ?_)

theorem keeps_State_candidate {P : State → Prop} (H : Closed P) (s : State) (k : ℕ) (r : ℕ × ℕ) (keep_s : P s) : P (State.candidate s k r) := by
  unfold State.candidate
  try dsimp only
  repeat' first
    | with_reducible assumption
    | with_reducible apply keeps_State_setSto H
    | with_reducible refine ite_keeps (fun _ => ?_) (fun _ => ?_)

theorem keeps_State_noteSingle {P : State → Prop} (H : Closed P) (s : State) (k : ℕ) (r : ℕ × ℕ) (keep_s : P s) : P (State.noteSingle s k r) := by
  unfold State.noteSingle
  try dsimp only
  repeat' first
    | with_reducible assumption
    | with_reducible apply keeps_State_candidate H
    | with_reducible apply keeps_State_setSto H
    | with_reducible apply keeps_State_put H
    | with_reducible refine ite_keeps (fun _ => ?_) (fun _ => ?_)
    | with_reducible refine foldl_keeps (fun _ _ _ => ?_) ?_
    | with_reducible refine dite_keeps (fun _ => ?_) (fun _ => ?_)
    | with_reducible refine ite_fst (fun _ => ?_) (fun _ => ?_)
    | with_reducible refine ite_snd (fun _ => ?_) (fun _ => ?_)
    | with_reducible refine ite_snd2 (fun _ => ?_) (fun _ => ?_)
    | with_reducible refine ite_snd3 (fun _ => ?_) (fun _ => ?_)
    | with_reducible refine foldl_fst (fun _ _ _ => ?_) ?_
    | with_reducible refine foldl_snd (fun _ _ _ => ?_) ?_
    | with_reducible refine snd_of_eq (by assumption) ?_
    | with_reducible refine fst_of_eq (by assumption) ?_
    | with_reducible refine snd2_of_eq (by assumption) ?_
    | with_reducible intro _ _
    | with_reducible intro _ _ _
    | split

theorem keeps_State_readErr {P : State → Prop} (H : Closed P) (s : State) (req : ℕ) (fetch : Bool) (e : EccErr) (keep_s : P s) : P (State.readErr s req fetch e) := by
  unfold State.readErr
  try dsimp only
  repeat' first
    | with_reducible assumption
    | with_reducible apply keeps_State_putLE H
    | with_reducible apply keeps_State_noteSingle H
    | with_reducible apply keeps_State_captureErr H
    | with_reducible apply keeps_State_inc H
    | with_reducible apply keeps_State_candidate H
    | with_reducible refine ite_keeps (fun _ => ?_) (fun _ => ?_)
    | with_reducible refine foldl_keeps (fun _ _ _ => ?_) ?_
    | with_reducible refine dite_keeps (fun _ => ?_) (fun _ => ?_)
    | with_reducible refine ite_fst (fun _ => ?_) (fun _ => ?_)
    | with_reducible refine ite_snd (fun _ => ?_) (fun _ => ?_)
    | with_reducible refine ite_snd2 (fun _ => ?_) (fun _ => ?_)
    | with_reducible refine ite_snd3 (fun _ => ?_) (fun _ => ?_)
    | with_reducible refine foldl_fst (fun _ _ _ => ?_) ?_
    | with_reducible refine foldl_snd (fun _ _ _ => ?_) ?_
    | with_reducible refine snd_of_eq (by assumption) ?_
    | with_reducible refine fst_of_eq (by assumption) ?_
    | with_reducible refine snd2_of_eq (by assumption) ?_
    | with_reducible intro _ _
    | with_reducible intro _ _ _
    | split
    | dsimp only
    | with_reducible apply H.mk'

theorem keeps_State_checkRead_1 {P : State → Prop} (H : Closed P) (s : State) (req : ℕ) (fetch : Bool) (a : ℕ) (n : ℕ) (keep_s : P s) : P (State.checkRead s req fetch a n).1 := by
  unfold State.checkRead
  try dsimp only
  repeat' first
    | with_reducible assumption
    | with_reducible apply keeps_State_access H
    | with_reducible apply keeps_State_readErr H
    | with_reducible refine ite_keeps (fun _ => ?_) (fun _ => ?_)
    | with_reducible refine foldl_keeps (fun _ _ _ => ?_) ?_

theorem keeps_State_checkWrite_1 {P : State → Prop} (H : Closed P) (s : State) (req : ℕ) (a : ℕ) (n : ℕ) (v : ℕ) (keep_s : P s) : P (State.checkWrite s req a n v).1 := by
  unfold State.checkWrite
  try dsimp only
  repeat' first
    | with_reducible assumption
    | with_reducible apply keeps_State_access H
    | with_reducible apply keeps_State_readErr H
    | with_reducible apply keeps_State_putLE H
    | with_reducible refine ite_keeps (fun _ => ?_) (fun _ => ?_)
    | with_reducible refine foldl_keeps (fun _ _ _ => ?_) ?_
    | with_reducible refine dite_keeps (fun _ => ?_) (fun _ => ?_)
    | with_reducible refine ite_fst (fun _ => ?_) (fun _ => ?_)

theorem keeps_State_poison {P : State → Prop} (H : Closed P) (s : State) (w : ℕ) (keep_s : P s) : P (State.poison s w) := by
  unfold State.poison
  try dsimp only
  repeat' first
    | with_reducible assumption
    | with_reducible refine ite_keeps (fun _ => ?_) (fun _ => ?_)
    | with_reducible refine foldl_keeps (fun _ _ _ => ?_) ?_
    | with_reducible refine dite_keeps (fun _ => ?_) (fun _ => ?_)
    | with_reducible refine ite_fst (fun _ => ?_) (fun _ => ?_)
    | with_reducible refine ite_snd (fun _ => ?_) (fun _ => ?_)
    | with_reducible refine ite_snd2 (fun _ => ?_) (fun _ => ?_)
    | with_reducible refine ite_snd3 (fun _ => ?_) (fun _ => ?_)
    | with_reducible refine foldl_fst (fun _ _ _ => ?_) ?_
    | with_reducible refine foldl_snd (fun _ _ _ => ?_) ?_
    | with_reducible refine snd_of_eq (by assumption) ?_
    | with_reducible refine fst_of_eq (by assumption) ?_
    | with_reducible refine snd2_of_eq (by assumption) ?_
    | with_reducible intro _ _
    | with_reducible intro _ _ _
    | split
    | dsimp only
    | with_reducible apply H.mk'

theorem keeps_State_breakLock {P : State → Prop} (H : Closed P) (s : State) (h : Fin 8) (n : ℕ) (keep_s : P s) : P (State.breakLock s h n) := by
  unfold State.breakLock
  try dsimp only
  repeat' first
    | with_reducible assumption
    | with_reducible apply keeps_State_put H
    | with_reducible apply keeps_State_setBit H
    | with_reducible apply keeps_State_clrBit H
    | with_reducible apply keeps_State_notifyReeve H
    | with_reducible apply keeps_State_raise H

theorem keeps_State_breakLocks {P : State → Prop} (H : Closed P) (s : State) (h : Fin 8) (owners : List ℕ) (keep_s : P s) : P (State.breakLocks s h owners) := by
  unfold State.breakLocks
  try dsimp only
  repeat' first
    | with_reducible assumption
    | with_reducible apply keeps_State_breakLock H
    | with_reducible refine ite_keeps (fun _ => ?_) (fun _ => ?_)
    | with_reducible refine foldl_keeps (fun _ _ _ => ?_) ?_

theorem keeps_State_breakAllLocks {P : State → Prop} (H : Closed P) (s : State) (owners : List ℕ) (keep_s : P s) : P (State.breakAllLocks s owners) := by
  unfold State.breakAllLocks
  try dsimp only
  repeat' first
    | with_reducible assumption
    | with_reducible apply keeps_State_breakLocks H
    | with_reducible refine ite_keeps (fun _ => ?_) (fun _ => ?_)
    | with_reducible refine foldl_keeps (fun _ _ _ => ?_) ?_

theorem keeps_State_setEng {P : State → Prop} (H : Closed P) (s : State) (e : Fin 9) (x : Eng) (keep_s : P s) : P (State.setEng s e x) := by
  unfold State.setEng
  try dsimp only
  repeat' first
    | with_reducible assumption
    | with_reducible refine ite_keeps (fun _ => ?_) (fun _ => ?_)
    | with_reducible refine foldl_keeps (fun _ _ _ => ?_) ?_
    | with_reducible refine dite_keeps (fun _ => ?_) (fun _ => ?_)
    | with_reducible refine ite_fst (fun _ => ?_) (fun _ => ?_)
    | with_reducible refine ite_snd (fun _ => ?_) (fun _ => ?_)
    | with_reducible refine ite_snd2 (fun _ => ?_) (fun _ => ?_)
    | with_reducible refine ite_snd3 (fun _ => ?_) (fun _ => ?_)
    | with_reducible refine foldl_fst (fun _ _ _ => ?_) ?_
    | with_reducible refine foldl_snd (fun _ _ _ => ?_) ?_
    | with_reducible refine snd_of_eq (by assumption) ?_
    | with_reducible refine fst_of_eq (by assumption) ?_
    | with_reducible refine snd2_of_eq (by assumption) ?_
    | with_reducible intro _ _
    | with_reducible intro _ _ _
    | split
    | dsimp only
    | with_reducible apply H.mk'

theorem keeps_State_haltEng {P : State → Prop} (H : Closed P) (s : State) (e : Fin 9) (state : ℕ) (pc : ℕ) (keep_s : P s) : P (State.haltEng s e state pc) := by
  unfold State.haltEng
  try dsimp only
  repeat' first
    | with_reducible assumption
    | with_reducible apply keeps_State_setEng H

theorem keeps_State_setDma {P : State → Prop} (H : Closed P) (s : State) (h : Fin 8) (c : Fin 8) (x : DmaCh) (keep_s : P s) : P (State.setDma s h c x) := by
  unfold State.setDma
  try dsimp only
  repeat' first
    | with_reducible assumption
    | with_reducible refine ite_keeps (fun _ => ?_) (fun _ => ?_)
    | with_reducible refine foldl_keeps (fun _ _ _ => ?_) ?_
    | with_reducible refine dite_keeps (fun _ => ?_) (fun _ => ?_)
    | with_reducible refine ite_fst (fun _ => ?_) (fun _ => ?_)
    | with_reducible refine ite_snd (fun _ => ?_) (fun _ => ?_)
    | with_reducible refine ite_snd2 (fun _ => ?_) (fun _ => ?_)
    | with_reducible refine ite_snd3 (fun _ => ?_) (fun _ => ?_)
    | with_reducible refine foldl_fst (fun _ _ _ => ?_) ?_
    | with_reducible refine foldl_snd (fun _ _ _ => ?_) ?_
    | with_reducible refine snd_of_eq (by assumption) ?_
    | with_reducible refine fst_of_eq (by assumption) ?_
    | with_reducible refine snd2_of_eq (by assumption) ?_
    | with_reducible intro _ _
    | with_reducible intro _ _ _
    | split
    | dsimp only
    | with_reducible apply H.mk'

theorem keeps_State_stopDma {P : State → Prop} (H : Closed P) (s : State) (h : Fin 8) (c : Fin 8) (code : ℕ) (keep_s : P s) : P (State.stopDma s h c code) := by
  unfold State.stopDma
  try dsimp only
  repeat' first
    | with_reducible assumption
    | with_reducible apply keeps_State_put H
    | with_reducible apply keeps_State_setDma H

theorem keeps_State_endDma {P : State → Prop} (H : Closed P) (s : State) (h : Fin 8) (c : Fin 8) (code : ℕ) (keep_s : P s) : P (State.endDma s h c code) := by
  unfold State.endDma
  try dsimp only
  repeat' first
    | with_reducible assumption
    | with_reducible apply keeps_State_put H
    | with_reducible apply keeps_State_setDma H
    | with_reducible apply keeps_State_stopDma H
    | with_reducible refine ite_keeps (fun _ => ?_) (fun _ => ?_)

theorem keeps_State_stopAllDma {P : State → Prop} (H : Closed P) (s : State) (h : Fin 8) (keep_s : P s) : P (State.stopAllDma s h) := by
  unfold State.stopAllDma
  try dsimp only
  repeat' first
    | with_reducible assumption
    | with_reducible apply keeps_State_endDma H
    | with_reducible apply keeps_State_put H
    | with_reducible refine ite_keeps (fun _ => ?_) (fun _ => ?_)
    | with_reducible refine foldl_keeps (fun _ _ _ => ?_) ?_

theorem keeps_State_enterHold {P : State → Prop} (H : Closed P) (s : State) (keep_s : P s) : P (State.enterHold s) := by
  unfold State.enterHold
  try dsimp only
  repeat' first
    | with_reducible assumption
    | with_reducible apply keeps_State_inc H
    | with_reducible apply keeps_State_put H
    | with_reducible apply keeps_State_raise H
    | with_reducible refine ite_keeps (fun _ => ?_) (fun _ => ?_)
    | with_reducible refine foldl_keeps (fun _ _ _ => ?_) ?_
    | with_reducible refine dite_keeps (fun _ => ?_) (fun _ => ?_)
    | with_reducible refine ite_fst (fun _ => ?_) (fun _ => ?_)
    | with_reducible refine ite_snd (fun _ => ?_) (fun _ => ?_)
    | with_reducible refine ite_snd2 (fun _ => ?_) (fun _ => ?_)
    | with_reducible refine ite_snd3 (fun _ => ?_) (fun _ => ?_)
    | with_reducible refine foldl_fst (fun _ _ _ => ?_) ?_
    | with_reducible refine foldl_snd (fun _ _ _ => ?_) ?_
    | with_reducible refine snd_of_eq (by assumption) ?_
    | with_reducible refine fst_of_eq (by assumption) ?_
    | with_reducible refine snd2_of_eq (by assumption) ?_
    | with_reducible intro _ _
    | with_reducible intro _ _ _
    | split
    | dsimp only
    | with_reducible apply H.mk'

theorem keeps_State_sourceStale {P : State → Prop} (H : Closed P) (s : State) (n : ℕ) (keep_s : P s) : P (State.sourceStale s n) := by
  unfold State.sourceStale
  try dsimp only
  repeat' first
    | with_reducible assumption
    | with_reducible apply keeps_State_inc H
    | with_reducible apply keeps_State_put H
    | with_reducible apply keeps_State_enterHold H
    | with_reducible refine ite_keeps (fun _ => ?_) (fun _ => ?_)

theorem keeps_State_badAccess {P : State → Prop} (H : Closed P) (s : State) (r : Req) (a : ℕ) (size : ℕ) (write : Bool) (reason : ℕ) (keep_s : P s) : P (State.badAccess s r a size write reason) := by
  unfold State.badAccess
  try dsimp only
  repeat' first
    | with_reducible assumption
    | with_reducible apply keeps_State_inc H
    | with_reducible apply keeps_State_wr H
    | with_reducible apply keeps_State_raise H
    | with_reducible refine ite_keeps (fun _ => ?_) (fun _ => ?_)

theorem keeps_State_ok {P : State → Prop} (H : Closed P) (s : State) (keep_s : P s) : P (State.ok s) := by
  unfold State.ok
  try dsimp only
  repeat' first
    | with_reducible assumption
    | with_reducible refine ite_keeps (fun _ => ?_) (fun _ => ?_)
    | with_reducible refine foldl_keeps (fun _ _ _ => ?_) ?_
    | with_reducible refine dite_keeps (fun _ => ?_) (fun _ => ?_)
    | with_reducible refine ite_fst (fun _ => ?_) (fun _ => ?_)
    | with_reducible refine ite_snd (fun _ => ?_) (fun _ => ?_)
    | with_reducible refine ite_snd2 (fun _ => ?_) (fun _ => ?_)
    | with_reducible refine ite_snd3 (fun _ => ?_) (fun _ => ?_)
    | with_reducible refine foldl_fst (fun _ _ _ => ?_) ?_
    | with_reducible refine foldl_snd (fun _ _ _ => ?_) ?_
    | with_reducible refine snd_of_eq (by assumption) ?_
    | with_reducible refine fst_of_eq (by assumption) ?_
    | with_reducible refine snd2_of_eq (by assumption) ?_
    | with_reducible intro _ _
    | with_reducible intro _ _ _
    | split
    | dsimp only
    | with_reducible apply H.mk'

theorem keeps_State_err {P : State → Prop} (H : Closed P) (s : State) (keep_s : P s) : P (State.err s) := by
  unfold State.err
  try dsimp only
  repeat' first
    | with_reducible assumption
    | with_reducible refine ite_keeps (fun _ => ?_) (fun _ => ?_)
    | with_reducible refine foldl_keeps (fun _ _ _ => ?_) ?_
    | with_reducible refine dite_keeps (fun _ => ?_) (fun _ => ?_)
    | with_reducible refine ite_fst (fun _ => ?_) (fun _ => ?_)
    | with_reducible refine ite_snd (fun _ => ?_) (fun _ => ?_)
    | with_reducible refine ite_snd2 (fun _ => ?_) (fun _ => ?_)
    | with_reducible refine ite_snd3 (fun _ => ?_) (fun _ => ?_)
    | with_reducible refine foldl_fst (fun _ _ _ => ?_) ?_
    | with_reducible refine foldl_snd (fun _ _ _ => ?_) ?_
    | with_reducible refine snd_of_eq (by assumption) ?_
    | with_reducible refine fst_of_eq (by assumption) ?_
    | with_reducible refine snd2_of_eq (by assumption) ?_
    | with_reducible intro _ _
    | with_reducible intro _ _ _
    | split
    | dsimp only
    | with_reducible apply H.mk'

theorem keeps_State_refuse4 {P : State → Prop} (H : Closed P) (s : State) (r : Req) (a : ℕ) (keep_s : P s) : P (State.refuse4 s r a) := by
  unfold State.refuse4
  try dsimp only
  repeat' first
    | with_reducible assumption
    | with_reducible apply keeps_State_ok H
    | with_reducible apply keeps_State_badAccess H

theorem keeps_State_startWake {P : State → Prop} (H : Closed P) (s : State) (h : Fin 8) (keep_s : P s) : P (State.startWake s h) := by
  unfold State.startWake
  try dsimp only
  repeat' first
    | with_reducible assumption
    | with_reducible apply keeps_State_put H
    | with_reducible refine ite_keeps (fun _ => ?_) (fun _ => ?_)
    | with_reducible refine foldl_keeps (fun _ _ _ => ?_) ?_
    | with_reducible refine dite_keeps (fun _ => ?_) (fun _ => ?_)
    | with_reducible refine ite_fst (fun _ => ?_) (fun _ => ?_)
    | with_reducible refine ite_snd (fun _ => ?_) (fun _ => ?_)
    | with_reducible refine ite_snd2 (fun _ => ?_) (fun _ => ?_)
    | with_reducible refine ite_snd3 (fun _ => ?_) (fun _ => ?_)
    | with_reducible refine foldl_fst (fun _ _ _ => ?_) ?_
    | with_reducible refine foldl_snd (fun _ _ _ => ?_) ?_
    | with_reducible refine snd_of_eq (by assumption) ?_
    | with_reducible refine fst_of_eq (by assumption) ?_
    | with_reducible refine snd2_of_eq (by assumption) ?_
    | with_reducible intro _ _
    | with_reducible intro _ _ _
    | split
    | dsimp only
    | with_reducible apply H.mk'

theorem keeps_regCmd {P : State → Prop} (H : Closed P) (r : Req) (a : ℕ) (v : Word) (act : State → State) (s : State) (keep_act : ∀ s0, P s0 → P (act s0)) (keep_s : P s) : P (regCmd r a v act s) := by
  unfold regCmd
  try dsimp only
  repeat' first
    | with_reducible assumption
    | with_reducible apply keep_act
    | with_reducible apply keeps_State_ok H
    | with_reducible apply keeps_State_badAccess H
    | with_reducible apply keeps_State_err H
    | with_reducible apply keeps_State_startWake H
    | with_reducible refine ite_keeps (fun _ => ?_) (fun _ => ?_)
    | with_reducible refine foldl_keeps (fun _ _ _ => ?_) ?_
    | with_reducible refine dite_keeps (fun _ => ?_) (fun _ => ?_)
    | with_reducible refine ite_fst (fun _ => ?_) (fun _ => ?_)
    | with_reducible refine ite_snd (fun _ => ?_) (fun _ => ?_)
    | with_reducible refine ite_snd2 (fun _ => ?_) (fun _ => ?_)
    | with_reducible refine ite_snd3 (fun _ => ?_) (fun _ => ?_)
    | with_reducible refine foldl_fst (fun _ _ _ => ?_) ?_
    | with_reducible refine foldl_snd (fun _ _ _ => ?_) ?_
    | with_reducible refine snd_of_eq (by assumption) ?_
    | with_reducible refine fst_of_eq (by assumption) ?_
    | with_reducible refine snd2_of_eq (by assumption) ?_
    | with_reducible intro _ _
    | with_reducible intro _ _ _
    | split
    | dsimp only
    | with_reducible apply H.mk'

theorem keeps_readCmd {P : State → Prop} (H : Closed P) (r : Req) (a : ℕ) (act : State → ℕ × State) (s : State) (keep_act : ∀ s0, P s0 → P (act s0).2) (keep_s : P s) : P (readCmd r a act s) := by
  unfold readCmd
  try dsimp only
  repeat' first
    | with_reducible assumption
    | with_reducible apply keep_act
    | with_reducible apply keeps_State_ok H
    | with_reducible apply keeps_State_err H
    | with_reducible apply keeps_State_badAccess H
    | with_reducible apply keeps_State_startWake H
    | with_reducible refine ite_keeps (fun _ => ?_) (fun _ => ?_)
    | with_reducible refine foldl_keeps (fun _ _ _ => ?_) ?_
    | with_reducible refine dite_keeps (fun _ => ?_) (fun _ => ?_)
    | with_reducible refine ite_fst (fun _ => ?_) (fun _ => ?_)
    | with_reducible refine ite_snd (fun _ => ?_) (fun _ => ?_)
    | with_reducible refine ite_snd2 (fun _ => ?_) (fun _ => ?_)
    | with_reducible refine ite_snd3 (fun _ => ?_) (fun _ => ?_)
    | with_reducible refine foldl_fst (fun _ _ _ => ?_) ?_
    | with_reducible refine foldl_snd (fun _ _ _ => ?_) ?_
    | with_reducible refine snd_of_eq (by assumption) ?_
    | with_reducible refine fst_of_eq (by assumption) ?_
    | with_reducible refine snd2_of_eq (by assumption) ?_
    | with_reducible intro _ _
    | with_reducible intro _ _ _
    | split
    | dsimp only
    | with_reducible apply H.mk'

theorem keeps_State_storeReg {P : State → Prop} (H : Closed P) (s : State) (r : Req) (a : ℕ) (v : Word) (keep_s : P s) : P (State.storeReg s r a v) := by
  unfold State.storeReg
  try dsimp only
  repeat' first
    | with_reducible assumption
    | with_reducible apply keeps_State_badAccess H
    | with_reducible apply keeps_State_wr H
    | with_reducible refine ite_keeps (fun _ => ?_) (fun _ => ?_)
    | with_reducible refine foldl_keeps (fun _ _ _ => ?_) ?_
    | with_reducible refine dite_keeps (fun _ => ?_) (fun _ => ?_)
    | with_reducible refine ite_fst (fun _ => ?_) (fun _ => ?_)
    | with_reducible refine ite_snd (fun _ => ?_) (fun _ => ?_)
    | with_reducible refine ite_snd2 (fun _ => ?_) (fun _ => ?_)
    | with_reducible refine ite_snd3 (fun _ => ?_) (fun _ => ?_)
    | with_reducible refine foldl_fst (fun _ _ _ => ?_) ?_
    | with_reducible refine foldl_snd (fun _ _ _ => ?_) ?_
    | with_reducible refine snd_of_eq (by assumption) ?_
    | with_reducible refine fst_of_eq (by assumption) ?_
    | with_reducible refine snd2_of_eq (by assumption) ?_
    | with_reducible intro _ _
    | with_reducible intro _ _ _
    | split

theorem keeps_State_clearRC {P : State → Prop} (H : Closed P) (s : State) (a : ℕ) (events : ℕ) (keep_s : P s) : P (State.clearRC s a events) := by
  unfold State.clearRC
  try dsimp only
  repeat' first
    | with_reducible assumption
    | with_reducible apply keeps_State_put H
    | with_reducible refine ite_keeps (fun _ => ?_) (fun _ => ?_)
    | with_reducible refine foldl_keeps (fun _ _ _ => ?_) ?_
    | with_reducible refine dite_keeps (fun _ => ?_) (fun _ => ?_)
    | with_reducible refine ite_fst (fun _ => ?_) (fun _ => ?_)
    | with_reducible refine ite_snd (fun _ => ?_) (fun _ => ?_)
    | with_reducible refine ite_snd2 (fun _ => ?_) (fun _ => ?_)
    | with_reducible refine ite_snd3 (fun _ => ?_) (fun _ => ?_)
    | with_reducible refine foldl_fst (fun _ _ _ => ?_) ?_
    | with_reducible refine foldl_snd (fun _ _ _ => ?_) ?_
    | with_reducible refine snd_of_eq (by assumption) ?_
    | with_reducible refine fst_of_eq (by assumption) ?_
    | with_reducible refine snd2_of_eq (by assumption) ?_
    | with_reducible intro _ _
    | with_reducible intro _ _ _
    | split

end Sys2Proof.Machine
end

