-- ==== Sys2Proof/Laws/KeepsStore.lean ====
section
/-!
SUPPORT. Closed predicates are kept by every operation of these files.
-/

namespace Sys2Proof.Machine

theorem keeps_scrubOne {P : State → Prop} (H : Closed P) (k : Fin 10) (s : State) (keep_s : P s) : P (scrubOne k s) := by
  unfold scrubOne
  try dsimp only
  repeat' first
    | with_reducible assumption
    | with_reducible apply keeps_State_checkRead_1 H
    | with_reducible apply keeps_State_setSto H
    | with_reducible apply keeps_State_inc H
    | with_reducible apply keeps_State_put H
    | with_reducible refine ite_keeps (fun _ => ?_) (fun _ => ?_)

theorem keeps_scrubStart {P : State → Prop} (H : Closed P) (k : Fin 10) (s : State) (keep_s : P s) : P (scrubStart k s) := by
  unfold scrubStart
  try dsimp only
  repeat' first
    | with_reducible assumption
    | with_reducible apply keeps_State_at H
    | with_reducible apply keeps_State_setSto H
    | with_reducible refine ite_keeps (fun _ => ?_) (fun _ => ?_)
    | with_reducible refine foldl_keeps (fun _ _ _ => ?_) ?_
    | with_reducible refine dite_keeps (fun _ => ?_) (fun _ => ?_)
    | with_reducible refine ite_fst (fun _ => ?_) (fun _ => ?_)
    | with_reducible refine ite_snd (fun _ => ?_) (fun _ => ?_)
    | with_reducible refine ite_snd2 (fun _ => ?_) (fun _ => ?_)
    | with_reducible refine ite_snd3 (fun _ => ?_) (fun _ => ?_)
    | with_reducible refine foldl_fst (fun _ _ _ => ?_) ?_
    | with_reducible refine foldl_snd (fun _ _ _ => ?_) ?_
    | with_reducible refine snd_of_eq (by assumption) ?_
    | with_reducible refine fst_of_eq (by assumption) ?_
    | with_reducible refine snd2_of_eq (by assumption) ?_
    | with_reducible intro _ _
    | with_reducible intro _ _ _
    | split

theorem keeps_execScrubGranule {P : State → Prop} (H : Closed P) (k : Fin 10) (s : State) (keep_s : P s) : ∀ s1, (execScrubGranule k s) = .next s1 → P s1 := by
  unfold execScrubGranule
  refine next_keeps ?_
  try dsimp only
  repeat' first
    | with_reducible assumption
    | with_reducible apply keeps_scrubStart H
    | with_reducible apply keeps_State_setSto H
    | with_reducible apply keeps_scrubOne H
    | with_reducible apply keeps_State_reach H
    | with_reducible refine ite_keeps (fun _ => ?_) (fun _ => ?_)
    | with_reducible refine foldl_keeps (fun _ _ _ => ?_) ?_
    | with_reducible refine dite_keeps (fun _ => ?_) (fun _ => ?_)
    | with_reducible refine ite_fst (fun _ => ?_) (fun _ => ?_)
    | with_reducible refine ite_snd (fun _ => ?_) (fun _ => ?_)
    | with_reducible refine ite_snd2 (fun _ => ?_) (fun _ => ?_)
    | with_reducible refine ite_snd3 (fun _ => ?_) (fun _ => ?_)
    | with_reducible refine foldl_fst (fun _ _ _ => ?_) ?_
    | with_reducible refine foldl_snd (fun _ _ _ => ?_) ?_
    | with_reducible refine snd_of_eq (by assumption) ?_
    | with_reducible refine fst_of_eq (by assumption) ?_
    | with_reducible refine snd2_of_eq (by assumption) ?_
    | with_reducible intro _ _
    | with_reducible intro _ _ _
    | split

theorem keeps_State_hideRow {P : State → Prop} (H : Closed P) (s : State) (k : ℕ) (bank : ℕ) (row : ℕ) (place : ℕ) (keep_s : P s) : P (State.hideRow s k bank row place) := by
  unfold State.hideRow
  try dsimp only
  repeat' first
    | with_reducible assumption
    | with_reducible apply keeps_State_setSto H

theorem keeps_State_putWords {P : State → Prop} (H : Closed P) (s : State) (x1 : List ℕ) (x2 : List ℕ) (keep_s : P s) : P (State.putWords s x1 x2) := by
  induction x1 generalizing s x2 with
  | nil => cases x2 <;> exact keep_s
  | cons w ws ih =>
    cases x2 with
    | nil => exact keep_s
    | cons v vs => exact ih _ _ (H.mem s _ keep_s fun h => memory_wf_putBytes w 8 (fun i => BitVec.ofNat 8 (v / 256 ^ i)) h)

theorem keeps_State_serveRow {P : State → Prop} (H : Closed P) (s : State) (k : ℕ) (bank : ℕ) (row : ℕ) (place : ℕ) (keep_s : P s) : P (State.serveRow s k bank row place) := by
  unfold State.serveRow
  try dsimp only
  repeat' first
    | with_reducible assumption
    | with_reducible apply keeps_State_putWords H
    | with_reducible apply keeps_State_setSto H
    | with_reducible refine ite_keeps (fun _ => ?_) (fun _ => ?_)
    | with_reducible refine foldl_keeps (fun _ _ _ => ?_) ?_
    | with_reducible refine dite_keeps (fun _ => ?_) (fun _ => ?_)
    | with_reducible refine ite_fst (fun _ => ?_) (fun _ => ?_)
    | with_reducible refine ite_snd (fun _ => ?_) (fun _ => ?_)
    | with_reducible refine ite_snd2 (fun _ => ?_) (fun _ => ?_)
    | with_reducible refine ite_snd3 (fun _ => ?_) (fun _ => ?_)
    | with_reducible refine foldl_fst (fun _ _ _ => ?_) ?_
    | with_reducible refine foldl_snd (fun _ _ _ => ?_) ?_
    | with_reducible refine snd_of_eq (by assumption) ?_
    | with_reducible refine fst_of_eq (by assumption) ?_
    | with_reducible refine snd2_of_eq (by assumption) ?_
    | with_reducible intro _ _
    | with_reducible intro _ _ _
    | split
    | dsimp only
    | with_reducible apply H.mk'

theorem keeps_remapped {P : State → Prop} (H : Closed P) (k : ℕ) (bank : ℕ) (rows : List ℕ) (act : State → State) (s : State) (keep_act : ∀ s0, P s0 → P (act s0)) (keep_s : P s) : P (remapped k bank rows act s) := by
  unfold remapped
  try dsimp only
  repeat' first
    | with_reducible assumption
    | with_reducible apply keep_act
    | with_reducible apply keeps_State_hideRow H
    | with_reducible apply keeps_State_serveRow H
    | with_reducible refine ite_keeps (fun _ => ?_) (fun _ => ?_)
    | with_reducible refine foldl_keeps (fun _ _ _ => ?_) ?_

theorem keeps_execRowRepair {P : State → Prop} (H : Closed P) (k : Fin 10) (s : State) (keep_s : P s) : ∀ s1, (execRowRepair k s) = .next s1 → P s1 := by
  unfold execRowRepair
  refine next_keeps ?_
  try dsimp only
  repeat' first
    | with_reducible assumption
    | with_reducible apply keeps_State_setSto H
    | with_reducible apply keeps_State_raise H
    | with_reducible apply keeps_State_setBit H
    | with_reducible apply keeps_State_checkRead_1 H
    | with_reducible apply keeps_State_put H
    | with_reducible refine ite_keeps (fun _ => ?_) (fun _ => ?_)
    | with_reducible refine foldl_keeps (fun _ _ _ => ?_) ?_
    | with_reducible refine dite_keeps (fun _ => ?_) (fun _ => ?_)
    | with_reducible refine ite_fst (fun _ => ?_) (fun _ => ?_)
    | with_reducible refine ite_snd (fun _ => ?_) (fun _ => ?_)
    | with_reducible refine ite_snd2 (fun _ => ?_) (fun _ => ?_)
    | with_reducible refine ite_snd3 (fun _ => ?_) (fun _ => ?_)
    | with_reducible refine foldl_fst (fun _ _ _ => ?_) ?_
    | with_reducible refine foldl_snd (fun _ _ _ => ?_) ?_
    | with_reducible refine snd_of_eq (by assumption) ?_
    | with_reducible refine fst_of_eq (by assumption) ?_
    | with_reducible refine snd2_of_eq (by assumption) ?_
    | with_reducible intro _ _
    | with_reducible intro _ _ _
    | split

theorem keeps_remapRow {P : State → Prop} (H : Closed P) (k : ℕ) (c : RowCopy) (s : State) (keep_s : P s) : P (remapRow k c s) := by
  unfold remapRow
  try dsimp only
  repeat' first
    | with_reducible assumption
    | with_reducible apply keeps_State_hideRow H
    | with_reducible apply keeps_State_setSto H
    | with_reducible apply keeps_State_put H
    | with_reducible apply keeps_State_poison H
    | with_reducible refine ite_keeps (fun _ => ?_) (fun _ => ?_)
    | with_reducible refine foldl_keeps (fun _ _ _ => ?_) ?_

theorem keeps_endCopy {P : State → Prop} (H : Closed P) (k : ℕ) (s : State) (keep_s : P s) : P (endCopy k s) := by
  unfold endCopy
  try dsimp only
  repeat' first
    | with_reducible assumption
    | with_reducible apply keeps_remapRow H
    | with_reducible apply keeps_State_raise H
    | with_reducible apply keeps_State_put H
    | with_reducible apply keeps_State_inc H
    | with_reducible refine ite_keeps (fun _ => ?_) (fun _ => ?_)
    | with_reducible refine foldl_keeps (fun _ _ _ => ?_) ?_
    | with_reducible refine dite_keeps (fun _ => ?_) (fun _ => ?_)
    | with_reducible refine ite_fst (fun _ => ?_) (fun _ => ?_)
    | with_reducible refine ite_snd (fun _ => ?_) (fun _ => ?_)
    | with_reducible refine ite_snd2 (fun _ => ?_) (fun _ => ?_)
    | with_reducible refine ite_snd3 (fun _ => ?_) (fun _ => ?_)
    | with_reducible refine foldl_fst (fun _ _ _ => ?_) ?_
    | with_reducible refine foldl_snd (fun _ _ _ => ?_) ?_
    | with_reducible refine snd_of_eq (by assumption) ?_
    | with_reducible refine fst_of_eq (by assumption) ?_
    | with_reducible refine snd2_of_eq (by assumption) ?_
    | with_reducible intro _ _
    | with_reducible intro _ _ _
    | split

theorem keeps_repairWrite {P : State → Prop} (H : Closed P) (r : Req) (k : ℕ) (n : ℕ) (v : Word) (s : State) (keep_s : P s) : P (repairWrite r k n v s) := by
  unfold repairWrite
  try dsimp only
  repeat' first
    | with_reducible assumption
    | with_reducible apply keeps_remapped H
    | with_reducible apply keeps_State_storeReg H
    | with_reducible apply keeps_State_refuse4 H
    | with_reducible refine ite_keeps (fun _ => ?_) (fun _ => ?_)
    | with_reducible refine foldl_keeps (fun _ _ _ => ?_) ?_
    | with_reducible refine dite_keeps (fun _ => ?_) (fun _ => ?_)
    | with_reducible refine ite_fst (fun _ => ?_) (fun _ => ?_)
    | with_reducible refine ite_snd (fun _ => ?_) (fun _ => ?_)
    | with_reducible refine ite_snd2 (fun _ => ?_) (fun _ => ?_)
    | with_reducible refine ite_snd3 (fun _ => ?_) (fun _ => ?_)
    | with_reducible refine foldl_fst (fun _ _ _ => ?_) ?_
    | with_reducible refine foldl_snd (fun _ _ _ => ?_) ?_
    | with_reducible refine snd_of_eq (by assumption) ?_
    | with_reducible refine fst_of_eq (by assumption) ?_
    | with_reducible refine snd2_of_eq (by assumption) ?_
    | with_reducible intro _ _

theorem keeps_execStoRepairWrite {P : State → Prop} (H : Closed P) (r : Req) (k : Fin 10) (n : Fin 256) (v : Word) (s : State) (keep_s : P s) : ∀ s1, (execStoRepairWrite r k n v s) = .next s1 → P s1 := by
  unfold execStoRepairWrite
  refine next_keeps ?_
  try dsimp only
  repeat' first
    | with_reducible assumption
    | with_reducible apply keeps_regCmd H
    | with_reducible apply keeps_repairWrite H

theorem keeps_injectWrite {P : State → Prop} (H : Closed P) (r : Req) (k : ℕ) (a : ℕ) (v : Word) (s : State) (keep_s : P s) : P (injectWrite r k a v s) := by
  unfold injectWrite
  try dsimp only
  repeat' first
    | with_reducible assumption
    | with_reducible apply keeps_State_storeReg H
    | with_reducible apply keeps_State_refuse4 H
    | with_reducible refine ite_keeps (fun _ => ?_) (fun _ => ?_)

theorem keeps_execStoInjectArm {P : State → Prop} (H : Closed P) (r : Req) (k : Fin 10) (v : Word) (s : State) (keep_s : P s) : ∀ s1, (execStoInjectArm r k v s) = .next s1 → P s1 := by
  unfold execStoInjectArm
  refine next_keeps ?_
  try dsimp only
  repeat' first
    | with_reducible assumption
    | with_reducible apply keeps_regCmd H
    | with_reducible apply keeps_injectWrite H

theorem keeps_arbFallback {P : State → Prop} (H : Closed P) (h : Fin 8) (s : State) (keep_s : P s) : P (arbFallback h s) := by
  unfold arbFallback
  try dsimp only
  repeat' first
    | with_reducible assumption
    | with_reducible apply keeps_State_inc H
    | with_reducible apply keeps_State_put H
    | with_reducible refine ite_keeps (fun _ => ?_) (fun _ => ?_)

theorem keeps_arbCfgWrite {P : State → Prop} (H : Closed P) (r : Req) (h : Fin 8) (v : Word) (s : State) (keep_s : P s) : P (arbCfgWrite r h v s) := by
  unfold arbCfgWrite
  try dsimp only
  repeat' first
    | with_reducible assumption
    | with_reducible apply keeps_State_storeReg H
    | with_reducible apply keeps_arbFallback H
    | with_reducible apply keeps_State_put H
    | with_reducible refine ite_keeps (fun _ => ?_) (fun _ => ?_)

theorem keeps_execArbFallbackEntry {P : State → Prop} (H : Closed P) (h : Fin 8) (t : ℕ) (s : State) (keep_s : P s) : ∀ s1, (execArbFallbackEntry h t s) = .next s1 → P s1 := by
  unfold execArbFallbackEntry
  refine next_keeps ?_
  try dsimp only
  repeat' first
    | with_reducible assumption
    | with_reducible apply keeps_State_at H
    | with_reducible apply keeps_arbFallback H
    | with_reducible refine ite_keeps (fun _ => ?_) (fun _ => ?_)
    | with_reducible refine foldl_keeps (fun _ _ _ => ?_) ?_
    | with_reducible refine dite_keeps (fun _ => ?_) (fun _ => ?_)
    | with_reducible refine ite_fst (fun _ => ?_) (fun _ => ?_)
    | with_reducible refine ite_snd (fun _ => ?_) (fun _ => ?_)
    | with_reducible refine ite_snd2 (fun _ => ?_) (fun _ => ?_)
    | with_reducible refine ite_snd3 (fun _ => ?_) (fun _ => ?_)
    | with_reducible refine foldl_fst (fun _ _ _ => ?_) ?_
    | with_reducible refine foldl_snd (fun _ _ _ => ?_) ?_
    | with_reducible refine snd_of_eq (by assumption) ?_
    | with_reducible refine fst_of_eq (by assumption) ?_
    | with_reducible refine snd2_of_eq (by assumption) ?_
    | with_reducible intro _ _
    | with_reducible intro _ _ _
    | split
    | dsimp only
    | with_reducible apply H.mk'

theorem keeps_execArbFallbackExit {P : State → Prop} (H : Closed P) (h : Fin 8) (t : ℕ) (s : State) (keep_s : P s) : ∀ s1, (execArbFallbackExit h t s) = .next s1 → P s1 := by
  unfold execArbFallbackExit
  refine next_keeps ?_
  try dsimp only
  repeat' first
    | with_reducible assumption
    | with_reducible apply keeps_State_at H
    | with_reducible apply keeps_State_put H
    | with_reducible refine ite_keeps (fun _ => ?_) (fun _ => ?_)
    | with_reducible refine foldl_keeps (fun _ _ _ => ?_) ?_
    | with_reducible refine dite_keeps (fun _ => ?_) (fun _ => ?_)
    | with_reducible refine ite_fst (fun _ => ?_) (fun _ => ?_)
    | with_reducible refine ite_snd (fun _ => ?_) (fun _ => ?_)
    | with_reducible refine ite_snd2 (fun _ => ?_) (fun _ => ?_)
    | with_reducible refine ite_snd3 (fun _ => ?_) (fun _ => ?_)
    | with_reducible refine foldl_fst (fun _ _ _ => ?_) ?_
    | with_reducible refine foldl_snd (fun _ _ _ => ?_) ?_
    | with_reducible refine snd_of_eq (by assumption) ?_
    | with_reducible refine fst_of_eq (by assumption) ?_
    | with_reducible refine snd2_of_eq (by assumption) ?_
    | with_reducible intro _ _
    | with_reducible intro _ _ _
    | split
    | dsimp only
    | with_reducible apply H.mk'

theorem keeps_freezeWrite {P : State → Prop} (H : Closed P) (r : Req) (h : Fin 8) (v : Word) (s : State) (keep_s : P s) : P (freezeWrite r h v s) := by
  unfold freezeWrite
  try dsimp only
  repeat' first
    | with_reducible assumption
    | with_reducible apply keeps_State_freeze H
    | with_reducible apply keeps_State_thaw H
    | with_reducible apply keeps_State_refuse4 H
    | with_reducible refine ite_keeps (fun _ => ?_) (fun _ => ?_)

theorem keeps_execArbDrained {P : State → Prop} (H : Closed P) (h : Fin 8) (s : State) (keep_s : P s) : ∀ s1, (execArbDrained h s) = .next s1 → P s1 := by
  unfold execArbDrained
  refine next_keeps ?_
  try dsimp only
  repeat' first
    | with_reducible assumption
    | with_reducible apply keeps_State_put H
    | with_reducible refine ite_keeps (fun _ => ?_) (fun _ => ?_)

theorem keeps_lockRead_2 {P : State → Prop} (H : Closed P) (r : Req) (h : Fin 8) (n : Fin 32) (s : State) (keep_s : P s) : P (lockRead r h n s).2 := by
  unfold lockRead
  try dsimp only
  repeat' first
    | with_reducible assumption
    | with_reducible apply keeps_State_setBit H
    | with_reducible apply keeps_State_put H
    | with_reducible refine ite_keeps (fun _ => ?_) (fun _ => ?_)
    | with_reducible refine foldl_keeps (fun _ _ _ => ?_) ?_
    | with_reducible refine dite_keeps (fun _ => ?_) (fun _ => ?_)
    | with_reducible refine ite_fst (fun _ => ?_) (fun _ => ?_)
    | with_reducible refine ite_snd (fun _ => ?_) (fun _ => ?_)

theorem keeps_execLockAcquire {P : State → Prop} (H : Closed P) (r : Req) (h : Fin 8) (n : Fin 32) (s : State) (keep_s : P s) : ∀ s1, (execLockAcquire r h n s) = .next s1 → P s1 := by
  unfold execLockAcquire
  refine next_keeps ?_
  try dsimp only
  repeat' first
    | with_reducible assumption
    | with_reducible apply keeps_readCmd H
    | with_reducible apply keeps_lockRead_2 H

theorem keeps_lockWrite {P : State → Prop} (H : Closed P) (r : Req) (h : Fin 8) (n : Fin 32) (v : Word) (s : State) (keep_s : P s) : P (lockWrite r h n v s) := by
  unfold lockWrite
  try dsimp only
  repeat' first
    | with_reducible assumption
    | with_reducible apply keeps_State_clrBit H
    | with_reducible apply keeps_State_put H
    | with_reducible apply keeps_State_refuse4 H
    | with_reducible refine ite_keeps (fun _ => ?_) (fun _ => ?_)

theorem keeps_execLockRelease {P : State → Prop} (H : Closed P) (r : Req) (h : Fin 8) (n : Fin 32) (v : Word) (s : State) (keep_s : P s) : ∀ s1, (execLockRelease r h n v s) = .next s1 → P s1 := by
  unfold execLockRelease
  refine next_keeps ?_
  try dsimp only
  repeat' first
    | with_reducible assumption
    | with_reducible apply keeps_regCmd H
    | with_reducible apply keeps_lockWrite H

theorem keeps_lockFreeWrite {P : State → Prop} (H : Closed P) (r : Req) (h : Fin 8) (v : Word) (s : State) (keep_s : P s) : P (lockFreeWrite r h v s) := by
  unfold lockFreeWrite
  try dsimp only
  repeat' first
    | with_reducible assumption
    | with_reducible apply keeps_State_breakLock H
    | with_reducible apply keeps_State_refuse4 H
    | with_reducible refine ite_keeps (fun _ => ?_) (fun _ => ?_)
    | with_reducible refine foldl_keeps (fun _ _ _ => ?_) ?_

theorem keeps_execLockFree {P : State → Prop} (H : Closed P) (r : Req) (h : Fin 8) (v : Word) (s : State) (keep_s : P s) : ∀ s1, (execLockFree r h v s) = .next s1 → P s1 := by
  unfold execLockFree
  refine next_keeps ?_
  try dsimp only
  repeat' first
    | with_reducible assumption
    | with_reducible apply keeps_regCmd H
    | with_reducible apply keeps_lockFreeWrite H

end Sys2Proof.Machine
end

