-- ==== Sys2Proof/Laws/KeepsTimeline.lean ====
section
/-!
SUPPORT. Closed predicates are kept by every operation of these files.
-/

namespace Sys2Proof.Machine

theorem keeps_State_countTx {P : State → Prop} (H : Closed P) (s : State) (h : Fin 8) (t : ℕ) (keep_s : P s) : P (State.countTx s h t) := by
  unfold State.countTx
  try dsimp only
  repeat' first
    | with_reducible assumption
    | with_reducible apply keeps_State_add H
    | with_reducible refine ite_keeps (fun _ => ?_) (fun _ => ?_)
    | with_reducible refine foldl_keeps (fun _ _ _ => ?_) ?_
    | with_reducible refine dite_keeps (fun _ => ?_) (fun _ => ?_)
    | with_reducible refine ite_fst (fun _ => ?_) (fun _ => ?_)
    | with_reducible refine ite_snd (fun _ => ?_) (fun _ => ?_)
    | with_reducible refine ite_snd2 (fun _ => ?_) (fun _ => ?_)
    | with_reducible refine ite_snd3 (fun _ => ?_) (fun _ => ?_)
    | with_reducible refine foldl_fst (fun _ _ _ => ?_) ?_
    | with_reducible refine foldl_snd (fun _ _ _ => ?_) ?_
    | with_reducible refine snd_of_eq (by assumption) ?_
    | with_reducible refine fst_of_eq (by assumption) ?_
    | with_reducible refine snd2_of_eq (by assumption) ?_
    | with_reducible intro _ _
    | with_reducible intro _ _ _
    | split
    | dsimp only
    | with_reducible apply H.mk'

theorem keeps_State_countRx {P : State → Prop} (H : Closed P) (s : State) (h : Fin 8) (t : ℕ) (keep_s : P s) : P (State.countRx s h t) := by
  unfold State.countRx
  try dsimp only
  repeat' first
    | with_reducible assumption
    | with_reducible apply keeps_State_add H
    | with_reducible refine ite_keeps (fun _ => ?_) (fun _ => ?_)
    | with_reducible refine foldl_keeps (fun _ _ _ => ?_) ?_
    | with_reducible refine dite_keeps (fun _ => ?_) (fun _ => ?_)
    | with_reducible refine ite_fst (fun _ => ?_) (fun _ => ?_)
    | with_reducible refine ite_snd (fun _ => ?_) (fun _ => ?_)
    | with_reducible refine ite_snd2 (fun _ => ?_) (fun _ => ?_)
    | with_reducible refine ite_snd3 (fun _ => ?_) (fun _ => ?_)
    | with_reducible refine foldl_fst (fun _ _ _ => ?_) ?_
    | with_reducible refine foldl_snd (fun _ _ _ => ?_) ?_
    | with_reducible refine snd_of_eq (by assumption) ?_
    | with_reducible refine fst_of_eq (by assumption) ?_
    | with_reducible refine snd2_of_eq (by assumption) ?_
    | with_reducible intro _ _
    | with_reducible intro _ _ _
    | split
    | dsimp only
    | with_reducible apply H.mk'

theorem keeps_State_forceTx {P : State → Prop} (H : Closed P) (s : State) (h : Fin 8) (quiet : Bool) (keep_s : P s) : P (State.forceTx s h quiet) := by
  unfold State.forceTx
  try dsimp only
  repeat' first
    | with_reducible assumption
    | with_reducible apply keeps_State_put H
    | with_reducible apply keeps_State_countTx H
    | with_reducible refine ite_keeps (fun _ => ?_) (fun _ => ?_)
    | with_reducible refine foldl_keeps (fun _ _ _ => ?_) ?_
    | with_reducible refine dite_keeps (fun _ => ?_) (fun _ => ?_)
    | with_reducible refine ite_fst (fun _ => ?_) (fun _ => ?_)
    | with_reducible refine ite_snd (fun _ => ?_) (fun _ => ?_)
    | with_reducible refine ite_snd2 (fun _ => ?_) (fun _ => ?_)
    | with_reducible refine ite_snd3 (fun _ => ?_) (fun _ => ?_)
    | with_reducible refine foldl_fst (fun _ _ _ => ?_) ?_
    | with_reducible refine foldl_snd (fun _ _ _ => ?_) ?_
    | with_reducible refine snd_of_eq (by assumption) ?_
    | with_reducible refine fst_of_eq (by assumption) ?_
    | with_reducible refine snd2_of_eq (by assumption) ?_
    | with_reducible intro _ _
    | with_reducible intro _ _ _
    | split
    | dsimp only
    | with_reducible apply H.mk'

theorem keeps_State_forceRx {P : State → Prop} (H : Closed P) (s : State) (h : Fin 8) (quiet : Bool) (keep_s : P s) : P (State.forceRx s h quiet) := by
  unfold State.forceRx
  try dsimp only
  repeat' first
    | with_reducible assumption
    | with_reducible apply keeps_State_put H
    | with_reducible apply keeps_State_countRx H
    | with_reducible refine ite_keeps (fun _ => ?_) (fun _ => ?_)
    | with_reducible refine foldl_keeps (fun _ _ _ => ?_) ?_
    | with_reducible refine dite_keeps (fun _ => ?_) (fun _ => ?_)
    | with_reducible refine ite_fst (fun _ => ?_) (fun _ => ?_)
    | with_reducible refine ite_snd (fun _ => ?_) (fun _ => ?_)
    | with_reducible refine ite_snd2 (fun _ => ?_) (fun _ => ?_)
    | with_reducible refine ite_snd3 (fun _ => ?_) (fun _ => ?_)
    | with_reducible refine foldl_fst (fun _ _ _ => ?_) ?_
    | with_reducible refine foldl_snd (fun _ _ _ => ?_) ?_
    | with_reducible refine snd_of_eq (by assumption) ?_
    | with_reducible refine fst_of_eq (by assumption) ?_
    | with_reducible refine snd2_of_eq (by assumption) ?_
    | with_reducible intro _ _
    | with_reducible intro _ _ _
    | split
    | dsimp only
    | with_reducible apply H.mk'

theorem keeps_State_forceZero {P : State → Prop} (H : Closed P) (s : State) (h : Fin 8) (quiet : Bool) (keep_s : P s) : P (State.forceZero s h quiet) := by
  unfold State.forceZero
  try dsimp only
  repeat' first
    | with_reducible assumption
    | with_reducible apply keeps_State_forceRx H
    | with_reducible apply keeps_State_forceTx H

end Sys2Proof.Machine
end

