-- ==== Sys2Proof/Laws/KeepsMessages.lean ====
section
/-!
SUPPORT. Closed predicates are kept by every operation of these files.
-/

namespace Sys2Proof.Machine

theorem keeps_State_takeSeq {P : State → Prop} (H : Closed P) (s : State) (m : Hdr) (keep_s : P s) : P (State.takeSeq s m) := by
  unfold State.takeSeq
  try dsimp only
  repeat' first
    | with_reducible assumption
    | with_reducible apply keeps_State_inc H
    | with_reducible refine ite_keeps (fun _ => ?_) (fun _ => ?_)
    | with_reducible refine foldl_keeps (fun _ _ _ => ?_) ?_
    | with_reducible refine dite_keeps (fun _ => ?_) (fun _ => ?_)
    | with_reducible refine ite_fst (fun _ => ?_) (fun _ => ?_)
    | with_reducible refine ite_snd (fun _ => ?_) (fun _ => ?_)
    | with_reducible refine ite_snd2 (fun _ => ?_) (fun _ => ?_)
    | with_reducible refine ite_snd3 (fun _ => ?_) (fun _ => ?_)
    | with_reducible refine foldl_fst (fun _ _ _ => ?_) ?_
    | with_reducible refine foldl_snd (fun _ _ _ => ?_) ?_
    | with_reducible refine snd_of_eq (by assumption) ?_
    | with_reducible refine fst_of_eq (by assumption) ?_
    | with_reducible refine snd2_of_eq (by assumption) ?_
    | with_reducible intro _ _
    | with_reducible intro _ _ _
    | split
    | dsimp only
    | with_reducible apply H.mk'

theorem keeps_State_arrive {P : State → Prop} (H : Closed P) (s : State) (f : ℕ) (keep_s : P s) : P (State.arrive s f) := by
  unfold State.arrive
  try dsimp only
  repeat' first
    | with_reducible assumption
    | with_reducible apply keeps_State_postEdge H
    | with_reducible refine ite_keeps (fun _ => ?_) (fun _ => ?_)

theorem keeps_takeMsg {P : State → Prop} (H : Closed P) (m : Hdr) (type : ℕ) (n : ℕ) (act : State → State) (s : State) (keep_act : ∀ s0, P s0 → P (act s0)) (keep_s : P s) : P (takeMsg m type n act s) := by
  unfold takeMsg
  try dsimp only
  repeat' first
    | with_reducible assumption
    | with_reducible apply keep_act
    | with_reducible apply keeps_State_add H
    | with_reducible apply keeps_State_inc H
    | with_reducible apply keeps_State_arrive H
    | with_reducible apply keeps_State_takeSeq H
    | with_reducible refine ite_keeps (fun _ => ?_) (fun _ => ?_)
    | with_reducible refine foldl_keeps (fun _ _ _ => ?_) ?_
    | with_reducible refine dite_keeps (fun _ => ?_) (fun _ => ?_)
    | with_reducible refine ite_fst (fun _ => ?_) (fun _ => ?_)
    | with_reducible refine ite_snd (fun _ => ?_) (fun _ => ?_)
    | with_reducible refine ite_snd2 (fun _ => ?_) (fun _ => ?_)
    | with_reducible refine ite_snd3 (fun _ => ?_) (fun _ => ?_)
    | with_reducible refine foldl_fst (fun _ _ _ => ?_) ?_
    | with_reducible refine foldl_snd (fun _ _ _ => ?_) ?_
    | with_reducible refine snd_of_eq (by assumption) ?_
    | with_reducible refine fst_of_eq (by assumption) ?_
    | with_reducible refine snd2_of_eq (by assumption) ?_
    | with_reducible intro _ _
    | with_reducible intro _ _ _
    | split
    | dsimp only
    | with_reducible apply H.mk'

theorem keeps_rmaFail {P : State → Prop} (H : Closed P) (q : RmaReq) (reason : ℕ) (s : State) (keep_s : P s) : P (rmaFail q reason s) := by
  unfold rmaFail
  try dsimp only
  repeat' first
    | with_reducible assumption
    | with_reducible apply keeps_State_inc H
    | with_reducible apply keeps_State_drawn_2 H
    | with_reducible apply keeps_State_stage H
    | with_reducible refine ite_keeps (fun _ => ?_) (fun _ => ?_)

theorem keeps_rmaDone {P : State → Prop} (H : Closed P) (q : RmaReq) (data : List ℕ) (s : State) (keep_s : P s) : P (rmaDone q data s) := by
  unfold rmaDone
  try dsimp only
  repeat' first
    | with_reducible assumption
    | with_reducible apply keeps_State_stage H
    | with_reducible refine ite_keeps (fun _ => ?_) (fun _ => ?_)

theorem keeps_failRma {P : State → Prop} (H : Closed P) (a : ℕ) (s : State) (keep_s : P s) : P (failRma a s) := by
  unfold failRma
  try dsimp only
  repeat' first
    | with_reducible assumption
    | with_reducible apply keeps_rmaFail H
    | with_reducible refine ite_keeps (fun _ => ?_) (fun _ => ?_)
    | with_reducible refine foldl_keeps (fun _ _ _ => ?_) ?_
    | with_reducible refine dite_keeps (fun _ => ?_) (fun _ => ?_)
    | with_reducible refine ite_fst (fun _ => ?_) (fun _ => ?_)
    | with_reducible refine ite_snd (fun _ => ?_) (fun _ => ?_)
    | with_reducible refine ite_snd2 (fun _ => ?_) (fun _ => ?_)
    | with_reducible refine ite_snd3 (fun _ => ?_) (fun _ => ?_)
    | with_reducible refine foldl_fst (fun _ _ _ => ?_) ?_
    | with_reducible refine foldl_snd (fun _ _ _ => ?_) ?_
    | with_reducible refine snd_of_eq (by assumption) ?_
    | with_reducible refine fst_of_eq (by assumption) ?_
    | with_reducible refine snd2_of_eq (by assumption) ?_
    | with_reducible intro _ _
    | with_reducible intro _ _ _
    | split
    | dsimp only
    | with_reducible apply H.mk'

end Sys2Proof.Machine
end

