-- ==== Sys2Proof/Laws/KeepsBeams.lean ====
section
/-!
SUPPORT. Closed predicates are kept by every operation of these files.
-/

namespace Sys2Proof.Machine

theorem keeps_carrierCommit {P : State → Prop} (H : Closed P) (r : Req) (v : Word) (s : State) (keep_s : P s) : P (carrierCommit r v s) := by
  unfold carrierCommit
  dsimp only
  refine ite_keeps (fun _ => ?_) (fun _ => ?_)
  · refine ite_keeps (fun _ => keeps_State_put H _ _ _ keep_s) (fun _ => keep_s)
  refine ite_keeps (fun _ => keeps_State_refuse4 H _ _ _ ?_) (fun _ => ?_)
  · refine ite_keeps (fun _ => keeps_State_put H _ _ _ keep_s) (fun _ => keep_s)
  refine ite_keeps (fun _ => ?_) (fun _ => ?_)
  · have hs := ite_keeps (c := getBits Fld.LNK_CAR_COMMIT_REFUSED v = 1) (fun _ => keeps_State_put H s Fld.LNK_CAR_COMMIT_REFUSED 0 keep_s) (fun _ => keep_s)
    generalize (if getBits Fld.LNK_CAR_COMMIT_REFUSED v = 1 then s.put Fld.LNK_CAR_COMMIT_REFUSED 0 else s) = u at hs ⊢
    refine H.congr (s := State.put { u with
        carPend := some ⟨frameAfter100 u.now, u.regs.filter (fun c => carrierReg c.1), []⟩ } Fld.LNK_CAR_COMMIT_GO 1)
      rfl rfl rfl rfl rfl rfl rfl (keeps_State_put H _ _ _ (H.hold u _ hs ?_))
    intro hr _ p hp
    cases hp
    exact rfWf_filter _ hr
  · refine keeps_State_raise H _ _ _ _ (keeps_State_put H _ _ _ ?_)
    refine ite_keeps (fun _ => keeps_State_put H _ _ _ keep_s) (fun _ => keep_s)

theorem keeps_execCarrierCommitGo {P : State → Prop} (H : Closed P) (r : Req) (v : Word) (s : State) (keep_s : P s) : ∀ s1, (execCarrierCommitGo r v s) = .next s1 → P s1 := by
  unfold execCarrierCommitGo
  refine next_keeps ?_
  try dsimp only
  repeat' first
    | with_reducible assumption
    | with_reducible apply keeps_regCmd H
    | with_reducible apply keeps_carrierCommit H

theorem keeps_carrierRegWrite {P : State → Prop} (H : Closed P) (r : Req) (a : ℕ) (v : Word) (s : State) (keep_s : P s) : P (carrierRegWrite r a v s) := by
  unfold carrierRegWrite
  dsimp only
  have hs := keeps_State_storeReg H s r a v keep_s
  generalize s.storeReg r a v = u at hs ⊢
  have hw : P (if localAddr a == Reg.TXC_NCO_FREQ || localAddr a == Reg.RXC_NCO_FREQ || (Reg.TXC_CNCOn ≤ localAddr a && localAddr a < Reg.TXC_CNCOn + 32)
      || (Reg.RXC_CNCOn ≤ localAddr a && localAddr a < Reg.RXC_CNCOn + 32) then u.wr a (u.rd a ||| 0x80000000#32) else u) :=
    ite_keeps (fun _ => keeps_State_wr H _ _ _ hs) (fun _ => hs)
  generalize (if localAddr a == Reg.TXC_NCO_FREQ || localAddr a == Reg.RXC_NCO_FREQ || (Reg.TXC_CNCOn ≤ localAddr a && localAddr a < Reg.TXC_CNCOn + 32)
      || (Reg.RXC_CNCOn ≤ localAddr a && localAddr a < Reg.RXC_CNCOn + 32) then u.wr a (u.rd a ||| 0x80000000#32) else u) = w at hw ⊢
  split
  · next p hp =>
    refine H.hold w _ hw fun _ hh q hq => ?_
    cases hq
    exact hh p hp
  · exact hw

theorem keeps_rtcReject {P : State → Prop} (H : Closed P) (reason : ℕ) (dir : ℕ) (car : ℕ) (secId : ℕ) (cnt : ℕ) (s : State) (keep_s : P s) : P (rtcReject reason dir car secId cnt s) := by
  unfold rtcReject
  try dsimp only
  repeat' first
    | with_reducible assumption
    | with_reducible apply keeps_State_inc H
    | with_reducible apply keeps_State_raise H
    | with_reducible apply keeps_State_wr H
    | with_reducible refine ite_keeps (fun _ => ?_) (fun _ => ?_)

theorem keeps_takeDesc {P : State → Prop} (H : Closed P) (hdr : ℕ) (w0 : ℕ) (w1 : ℕ) (w2 : ℕ) (s : State) (keep_s : P s) : P (takeDesc hdr w0 w1 w2 s) := by
  unfold takeDesc
  try dsimp only
  repeat' first
    | with_reducible assumption
    | with_reducible apply keeps_rtcReject H
    | with_reducible apply keeps_State_inc H
    | with_reducible refine ite_keeps (fun _ => ?_) (fun _ => ?_)
    | with_reducible refine foldl_keeps (fun _ _ _ => ?_) ?_
    | with_reducible refine dite_keeps (fun _ => ?_) (fun _ => ?_)
    | with_reducible refine ite_fst (fun _ => ?_) (fun _ => ?_)
    | with_reducible refine ite_snd (fun _ => ?_) (fun _ => ?_)
    | with_reducible refine ite_snd2 (fun _ => ?_) (fun _ => ?_)
    | with_reducible refine ite_snd3 (fun _ => ?_) (fun _ => ?_)
    | with_reducible refine foldl_fst (fun _ _ _ => ?_) ?_
    | with_reducible refine foldl_snd (fun _ _ _ => ?_) ?_
    | with_reducible refine snd_of_eq (by assumption) ?_
    | with_reducible refine fst_of_eq (by assumption) ?_
    | with_reducible refine snd2_of_eq (by assumption) ?_
    | with_reducible intro _ _
    | with_reducible intro _ _ _
    | split
    | dsimp only
    | with_reducible apply H.mk'

theorem keeps_takeDescs {P : State → Prop} (H : Closed P) (hdr : ℕ) (x1 : List Word) (x2 : State) (keep_x2 : P x2) : P (takeDescs hdr x1 x2) := by
  revert keep_x2
  fun_induction takeDescs hdr x1 x2 with
  | case1 w0 w1 w2 t s ih => exact fun hs => ih (keeps_takeDesc H _ _ _ _ _ hs)
  | case2 => exact id

theorem keeps_writeVector {P : State → Prop} (H : Closed P) (bank : ℕ) (vec : ℕ) (ws : List Word) (s : State) (keep_s : P s) : P (writeVector bank vec ws s) := by
  unfold writeVector
  try dsimp only
  repeat' first
    | with_reducible assumption
    | with_reducible apply keeps_State_putLE H
    | with_reducible apply keeps_State_access H
    | with_reducible refine ite_keeps (fun _ => ?_) (fun _ => ?_)
    | with_reducible refine foldl_keeps (fun _ _ _ => ?_) ?_

theorem keeps_keepVector {P : State → Prop} (H : Closed P) (bank : ℕ) (vec : ℕ) (s : State) (keep_s : P s) : P (keepVector bank vec s) := by
  unfold keepVector
  try dsimp only
  repeat' first
    | with_reducible assumption
    | with_reducible refine ite_keeps (fun _ => ?_) (fun _ => ?_)
    | with_reducible refine foldl_keeps (fun _ _ _ => ?_) ?_
    | with_reducible refine dite_keeps (fun _ => ?_) (fun _ => ?_)
    | with_reducible refine ite_fst (fun _ => ?_) (fun _ => ?_)
    | with_reducible refine ite_snd (fun _ => ?_) (fun _ => ?_)
    | with_reducible refine ite_snd2 (fun _ => ?_) (fun _ => ?_)
    | with_reducible refine ite_snd3 (fun _ => ?_) (fun _ => ?_)
    | with_reducible refine foldl_fst (fun _ _ _ => ?_) ?_
    | with_reducible refine foldl_snd (fun _ _ _ => ?_) ?_
    | with_reducible refine snd_of_eq (by assumption) ?_
    | with_reducible refine fst_of_eq (by assumption) ?_
    | with_reducible refine snd2_of_eq (by assumption) ?_
    | with_reducible intro _ _
    | with_reducible intro _ _ _
    | split
    | dsimp only
    | with_reducible apply H.mk'

theorem keeps_putVector {P : State → Prop} (H : Closed P) (bank : ℕ) (vec : ℕ) (ws : List Word) (s : State) (keep_s : P s) : P (putVector bank vec ws s) := by
  unfold putVector
  try dsimp only
  repeat' first
    | with_reducible assumption
    | with_reducible apply keeps_writeVector H
    | with_reducible apply keeps_keepVector H
    | with_reducible refine ite_keeps (fun _ => ?_) (fun _ => ?_)
    | with_reducible refine foldl_keeps (fun _ _ _ => ?_) ?_
    | with_reducible refine dite_keeps (fun _ => ?_) (fun _ => ?_)
    | with_reducible refine ite_fst (fun _ => ?_) (fun _ => ?_)
    | with_reducible refine ite_snd (fun _ => ?_) (fun _ => ?_)
    | with_reducible refine ite_snd2 (fun _ => ?_) (fun _ => ?_)
    | with_reducible refine ite_snd3 (fun _ => ?_) (fun _ => ?_)
    | with_reducible refine foldl_fst (fun _ _ _ => ?_) ?_
    | with_reducible refine foldl_snd (fun _ _ _ => ?_) ?_
    | with_reducible refine snd_of_eq (by assumption) ?_
    | with_reducible refine fst_of_eq (by assumption) ?_
    | with_reducible refine snd2_of_eq (by assumption) ?_
    | with_reducible intro _ _
    | with_reducible intro _ _ _
    | split
    | dsimp only
    | with_reducible apply H.mk'

theorem keeps_holdVector {P : State → Prop} (H : Closed P) (bank : ℕ) (vec : ℕ) (ws : List Word) (s : State) (keep_s : P s) : P (holdVector bank vec ws s) := by
  unfold holdVector
  try dsimp only
  repeat' first
    | with_reducible assumption
    | with_reducible apply keeps_State_access H
    | with_reducible refine ite_keeps (fun _ => ?_) (fun _ => ?_)
    | with_reducible refine foldl_keeps (fun _ _ _ => ?_) ?_
    | with_reducible refine dite_keeps (fun _ => ?_) (fun _ => ?_)
    | with_reducible refine ite_fst (fun _ => ?_) (fun _ => ?_)
    | with_reducible refine ite_snd (fun _ => ?_) (fun _ => ?_)
    | with_reducible refine ite_snd2 (fun _ => ?_) (fun _ => ?_)
    | with_reducible refine ite_snd3 (fun _ => ?_) (fun _ => ?_)
    | with_reducible refine foldl_fst (fun _ _ _ => ?_) ?_
    | with_reducible refine foldl_snd (fun _ _ _ => ?_) ?_
    | with_reducible refine snd_of_eq (by assumption) ?_
    | with_reducible refine fst_of_eq (by assumption) ?_
    | with_reducible refine snd2_of_eq (by assumption) ?_
    | with_reducible intro _ _
    | with_reducible intro _ _ _
    | split
    | dsimp only
    | with_reducible apply H.mk'

theorem keeps_writeVectors {P : State → Prop} (H : Closed P) (bank : ℕ) (x1 : ℕ) (x2 : ℕ) (x3 : List Word) (x4 : State) (keep_x4 : P x4) : P (writeVectors bank x1 x2 x3 x4) := by
  induction x1 generalizing x2 x3 x4 with
  | zero => exact keep_x4
  | succ k ih =>
    unfold writeVectors
    exact ih _ _ _ (ite_keeps (fun _ => keeps_putVector H _ _ _ _ keep_x4) (fun _ => keeps_holdVector H _ _ _ _ keep_x4))

theorem keeps_releaseVectors {P : State → Prop} (H : Closed P) (x0 : List OldVec) (x1 : State) (keep_x1 : P x1) : P (releaseVectors x0 x1) := by
  induction x0 generalizing x1 with
  | nil => exact keep_x1
  | cons v t ih =>
    unfold releaseVectors
    exact ite_keeps (fun _ => keep_x1) (fun _ => ih _ (keeps_putVector H _ _ _ _ (H.mk' keep_x1 ..)))

theorem keeps_weightMessage {P : State → Prop} (H : Closed P) (hdr : ℕ) (body : List Word) (s : State) (keep_s : P s) : P (weightMessage hdr body s) := by
  unfold weightMessage
  try dsimp only
  repeat' first
    | with_reducible assumption
    | with_reducible apply keeps_rtcReject H
    | with_reducible apply keeps_writeVectors H
    | with_reducible apply keeps_releaseVectors H
    | with_reducible refine ite_keeps (fun _ => ?_) (fun _ => ?_)

theorem keeps_rtcMessage {P : State → Prop} (H : Closed P) (words : List Word) (s : State) (keep_s : P s) : P (rtcMessage words s) := by
  unfold rtcMessage
  try dsimp only
  repeat' first
    | with_reducible assumption
    | with_reducible apply keeps_State_inc H
    | with_reducible apply keeps_takeDescs H
    | with_reducible apply keeps_weightMessage H
    | with_reducible apply keeps_rtcReject H
    | with_reducible refine ite_keeps (fun _ => ?_) (fun _ => ?_)
    | with_reducible refine foldl_keeps (fun _ _ _ => ?_) ?_
    | with_reducible refine dite_keeps (fun _ => ?_) (fun _ => ?_)
    | with_reducible refine ite_fst (fun _ => ?_) (fun _ => ?_)
    | with_reducible refine ite_snd (fun _ => ?_) (fun _ => ?_)
    | with_reducible refine ite_snd2 (fun _ => ?_) (fun _ => ?_)
    | with_reducible refine ite_snd3 (fun _ => ?_) (fun _ => ?_)
    | with_reducible refine foldl_fst (fun _ _ _ => ?_) ?_
    | with_reducible refine foldl_snd (fun _ _ _ => ?_) ?_
    | with_reducible refine snd_of_eq (by assumption) ?_
    | with_reducible refine fst_of_eq (by assumption) ?_
    | with_reducible refine snd2_of_eq (by assumption) ?_
    | with_reducible intro _ _
    | with_reducible intro _ _ _
    | split

theorem keeps_execRtcMessage {P : State → Prop} (H : Closed P) (m : Hdr) (words : List Word) (t : ℕ) (s : State) (keep_s : P s) : ∀ s1, (execRtcMessage m words t s) = .next s1 → P s1 := by
  unfold execRtcMessage
  refine next_keeps ?_
  try dsimp only
  repeat' first
    | with_reducible assumption
    | with_reducible apply keeps_takeMsg H
    | with_reducible apply keeps_rtcMessage H
    | with_reducible apply keeps_State_at H

theorem keeps_execExplicitWeightMessage {P : State → Prop} (H : Closed P) (m : Hdr) (words : List Word) (t : ℕ) (s : State) (keep_s : P s) : ∀ s1, (execExplicitWeightMessage m words t s) = .next s1 → P s1 := by
  unfold execExplicitWeightMessage
  refine next_keeps ?_
  try dsimp only
  repeat' first
    | with_reducible assumption
    | with_reducible apply keeps_takeMsg H
    | with_reducible apply keeps_rtcMessage H
    | with_reducible apply keeps_State_at H

theorem keeps_clearBank {P : State → Prop} (H : Closed P) (b : Fin 2) (s : State) (keep_s : P s) : P (clearBank b s) := by
  unfold clearBank
  try dsimp only
  repeat' first
    | with_reducible assumption
    | with_reducible refine ite_keeps (fun _ => ?_) (fun _ => ?_)
    | with_reducible refine foldl_keeps (fun _ _ _ => ?_) ?_
    | with_reducible refine dite_keeps (fun _ => ?_) (fun _ => ?_)
    | with_reducible refine ite_fst (fun _ => ?_) (fun _ => ?_)
    | with_reducible refine ite_snd (fun _ => ?_) (fun _ => ?_)
    | with_reducible refine ite_snd2 (fun _ => ?_) (fun _ => ?_)
    | with_reducible refine ite_snd3 (fun _ => ?_) (fun _ => ?_)
    | with_reducible refine foldl_fst (fun _ _ _ => ?_) ?_
    | with_reducible refine foldl_snd (fun _ _ _ => ?_) ?_
    | with_reducible refine snd_of_eq (by assumption) ?_
    | with_reducible refine fst_of_eq (by assumption) ?_
    | with_reducible refine snd2_of_eq (by assumption) ?_
    | with_reducible intro _ _
    | with_reducible intro _ _ _
    | split
    | dsimp only
    | with_reducible apply H.mk'

theorem keeps_execWeightBankClear {P : State → Prop} (H : Closed P) (bank : Fin 2) (s : State) (keep_s : P s) : ∀ s1, (execWeightBankClear bank s) = .next s1 → P s1 := by
  unfold execWeightBankClear
  refine next_keeps ?_
  try dsimp only
  repeat' first
    | with_reducible assumption
    | with_reducible apply keeps_clearBank H
    | with_reducible apply keeps_State_at H
    | with_reducible refine ite_keeps (fun _ => ?_) (fun _ => ?_)
    | with_reducible refine foldl_keeps (fun _ _ _ => ?_) ?_
    | with_reducible refine dite_keeps (fun _ => ?_) (fun _ => ?_)
    | with_reducible refine ite_fst (fun _ => ?_) (fun _ => ?_)
    | with_reducible refine ite_snd (fun _ => ?_) (fun _ => ?_)
    | with_reducible refine ite_snd2 (fun _ => ?_) (fun _ => ?_)
    | with_reducible refine ite_snd3 (fun _ => ?_) (fun _ => ?_)
    | with_reducible refine foldl_fst (fun _ _ _ => ?_) ?_
    | with_reducible refine foldl_snd (fun _ _ _ => ?_) ?_
    | with_reducible refine snd_of_eq (by assumption) ?_
    | with_reducible refine fst_of_eq (by assumption) ?_
    | with_reducible refine snd2_of_eq (by assumption) ?_
    | with_reducible intro _ _
    | with_reducible intro _ _ _
    | split

theorem keeps_wcfgWrite {P : State → Prop} (H : Closed P) (r : Req) (v : Word) (s : State) (keep_s : P s) : P (wcfgWrite r v s) := by
  unfold wcfgWrite
  try dsimp only
  repeat' first
    | with_reducible assumption
    | with_reducible apply keeps_State_storeReg H
    | with_reducible refine ite_keeps (fun _ => ?_) (fun _ => ?_)
    | with_reducible refine foldl_keeps (fun _ _ _ => ?_) ?_
    | with_reducible refine dite_keeps (fun _ => ?_) (fun _ => ?_)
    | with_reducible refine ite_fst (fun _ => ?_) (fun _ => ?_)
    | with_reducible refine ite_snd (fun _ => ?_) (fun _ => ?_)
    | with_reducible refine ite_snd2 (fun _ => ?_) (fun _ => ?_)
    | with_reducible refine ite_snd3 (fun _ => ?_) (fun _ => ?_)
    | with_reducible refine foldl_fst (fun _ _ _ => ?_) ?_
    | with_reducible refine foldl_snd (fun _ _ _ => ?_) ?_
    | with_reducible refine snd_of_eq (by assumption) ?_
    | with_reducible refine fst_of_eq (by assumption) ?_
    | with_reducible refine snd2_of_eq (by assumption) ?_
    | with_reducible intro _ _
    | with_reducible intro _ _ _
    | split
    | dsimp only
    | with_reducible apply H.mk'

theorem keeps_rejectBase {P : State → Prop} (H : Closed P) (r : Req) (h : Fin 8) (a : ℕ) (s : State) (keep_s : P s) : P (rejectBase r h a s) := by
  unfold rejectBase
  try dsimp only
  repeat' first
    | with_reducible assumption
    | with_reducible apply keeps_State_ok H
    | with_reducible apply keeps_State_raise H
    | with_reducible apply keeps_State_badAccess H

theorem keeps_bfmBasesWrite {P : State → Prop} (H : Closed P) (r : Req) (h : Fin 8) (v : Word) (s : State) (keep_s : P s) : P (bfmBasesWrite r h v s) := by
  unfold bfmBasesWrite
  try dsimp only
  repeat' first
    | with_reducible assumption
    | with_reducible apply keeps_State_refuse4 H
    | with_reducible apply keeps_State_storeReg H
    | with_reducible apply keeps_State_take H
    | with_reducible apply keeps_rejectBase H
    | with_reducible refine ite_keeps (fun _ => ?_) (fun _ => ?_)
    | with_reducible refine foldl_keeps (fun _ _ _ => ?_) ?_
    | with_reducible refine dite_keeps (fun _ => ?_) (fun _ => ?_)
    | with_reducible refine ite_fst (fun _ => ?_) (fun _ => ?_)
    | with_reducible refine ite_snd (fun _ => ?_) (fun _ => ?_)
    | with_reducible refine ite_snd2 (fun _ => ?_) (fun _ => ?_)
    | with_reducible refine ite_snd3 (fun _ => ?_) (fun _ => ?_)
    | with_reducible refine foldl_fst (fun _ _ _ => ?_) ?_
    | with_reducible refine foldl_snd (fun _ _ _ => ?_) ?_
    | with_reducible refine snd_of_eq (by assumption) ?_
    | with_reducible refine fst_of_eq (by assumption) ?_
    | with_reducible refine snd2_of_eq (by assumption) ?_
    | with_reducible intro _ _
    | with_reducible intro _ _ _
    | split
    | dsimp only
    | with_reducible apply H.mk'

theorem keeps_bfmCommitGo {P : State → Prop} (H : Closed P) (r : Req) (h : Fin 8) (v : Word) (s : State) (keep_s : P s) : P (bfmCommitGo r h v s) := by
  unfold bfmCommitGo
  try dsimp only
  repeat' first
    | with_reducible assumption
    | with_reducible apply keeps_State_storeReg H
    | with_reducible apply keeps_State_put H
    | with_reducible refine ite_keeps (fun _ => ?_) (fun _ => ?_)
    | with_reducible refine foldl_keeps (fun _ _ _ => ?_) ?_
    | with_reducible refine dite_keeps (fun _ => ?_) (fun _ => ?_)
    | with_reducible refine ite_fst (fun _ => ?_) (fun _ => ?_)
    | with_reducible refine ite_snd (fun _ => ?_) (fun _ => ?_)
    | with_reducible refine ite_snd2 (fun _ => ?_) (fun _ => ?_)
    | with_reducible refine ite_snd3 (fun _ => ?_) (fun _ => ?_)
    | with_reducible refine foldl_fst (fun _ _ _ => ?_) ?_
    | with_reducible refine foldl_snd (fun _ _ _ => ?_) ?_
    | with_reducible refine snd_of_eq (by assumption) ?_
    | with_reducible refine fst_of_eq (by assumption) ?_
    | with_reducible refine snd2_of_eq (by assumption) ?_
    | with_reducible intro _ _
    | with_reducible intro _ _ _
    | split
    | dsimp only
    | with_reducible apply H.mk'

theorem keeps_execBfmCommitGo {P : State → Prop} (H : Closed P) (r : Req) (h : Fin 8) (v : Word) (s : State) (keep_s : P s) : ∀ s1, (execBfmCommitGo r h v s) = .next s1 → P s1 := by
  unfold execBfmCommitGo
  refine next_keeps ?_
  try dsimp only
  repeat' first
    | with_reducible assumption
    | with_reducible apply keeps_regCmd H
    | with_reducible apply keeps_bfmCommitGo H

theorem keeps_copyBeams {P : State → Prop} (H : Closed P) (h : Fin 8) (p : BfmPend) (s : State) (keep_s : P s) : P (copyBeams h p s) := by
  unfold copyBeams
  try dsimp only
  repeat' first
    | with_reducible assumption
    | with_reducible apply keeps_State_checkRead_1 H
    | with_reducible apply keeps_State_poison H
    | with_reducible apply keeps_State_putLE H
    | with_reducible apply keeps_State_put H
    | with_reducible refine ite_keeps (fun _ => ?_) (fun _ => ?_)
    | with_reducible refine foldl_keeps (fun _ _ _ => ?_) ?_

theorem keeps_endBeamCopy {P : State → Prop} (H : Closed P) (h : Fin 8) (p : BfmPend) (s : State) (keep_s : P s) : P (endBeamCopy h p s) := by
  unfold endBeamCopy
  try dsimp only
  repeat' first
    | with_reducible assumption
    | with_reducible apply keeps_State_put H
    | with_reducible apply keeps_copyBeams H
    | with_reducible apply keeps_State_notify H
    | with_reducible refine ite_keeps (fun _ => ?_) (fun _ => ?_)
    | with_reducible refine foldl_keeps (fun _ _ _ => ?_) ?_
    | with_reducible refine dite_keeps (fun _ => ?_) (fun _ => ?_)
    | with_reducible refine ite_fst (fun _ => ?_) (fun _ => ?_)
    | with_reducible refine ite_snd (fun _ => ?_) (fun _ => ?_)
    | with_reducible refine ite_snd2 (fun _ => ?_) (fun _ => ?_)
    | with_reducible refine ite_snd3 (fun _ => ?_) (fun _ => ?_)
    | with_reducible refine foldl_fst (fun _ _ _ => ?_) ?_
    | with_reducible refine foldl_snd (fun _ _ _ => ?_) ?_
    | with_reducible refine snd_of_eq (by assumption) ?_
    | with_reducible refine fst_of_eq (by assumption) ?_
    | with_reducible refine snd2_of_eq (by assumption) ?_
    | with_reducible intro _ _
    | with_reducible intro _ _ _
    | split
    | dsimp only
    | with_reducible apply H.mk'

theorem keeps_noteWeights {P : State → Prop} (H : Closed P) (hs : List (Fin 8)) (ds : List (Desc × ℕ)) (num : ℕ) (y : SymId) (air : ℕ) (s : State) (keep_s : P s) : P (noteWeights hs ds num y air s) := by
  unfold noteWeights
  try dsimp only
  repeat' first
    | with_reducible assumption
    | with_reducible apply keeps_State_add H
    | with_reducible apply keeps_State_checkRead_1 H
    | with_reducible refine ite_keeps (fun _ => ?_) (fun _ => ?_)
    | with_reducible refine foldl_keeps (fun _ _ _ => ?_) ?_

theorem keeps_wrongDir {P : State → Prop} (H : Closed P) (car : ℕ) (dir : ℕ) (y : SymId) (air : ℕ) (s : State) (keep_s : P s) : P (wrongDir car dir y air s) := by
  unfold wrongDir
  try dsimp only
  repeat' first
    | with_reducible assumption
    | with_reducible apply keeps_State_add H
    | with_reducible refine ite_keeps (fun _ => ?_) (fun _ => ?_)
    | with_reducible refine foldl_keeps (fun _ _ _ => ?_) ?_
    | with_reducible refine dite_keeps (fun _ => ?_) (fun _ => ?_)
    | with_reducible refine ite_fst (fun _ => ?_) (fun _ => ?_)
    | with_reducible refine ite_snd (fun _ => ?_) (fun _ => ?_)
    | with_reducible refine ite_snd2 (fun _ => ?_) (fun _ => ?_)
    | with_reducible refine ite_snd3 (fun _ => ?_) (fun _ => ?_)
    | with_reducible refine foldl_fst (fun _ _ _ => ?_) ?_
    | with_reducible refine foldl_snd (fun _ _ _ => ?_) ?_
    | with_reducible refine snd_of_eq (by assumption) ?_
    | with_reducible refine fst_of_eq (by assumption) ?_
    | with_reducible refine snd2_of_eq (by assumption) ?_
    | with_reducible intro _ _
    | with_reducible intro _ _ _
    | split
    | dsimp only
    | with_reducible apply H.mk'

theorem keeps_endSafety {P : State → Prop} (H : Closed P) (s : State) (h : Fin 8) (keep_s : P s) : P (endSafety s h) := by
  unfold endSafety
  try dsimp only
  repeat' first
    | with_reducible assumption
    | with_reducible apply keeps_State_unforcePins H
    | with_reducible apply keeps_State_put H
    | with_reducible refine ite_keeps (fun _ => ?_) (fun _ => ?_)

theorem keeps_admitHamlet {P : State → Prop} (H : Closed P) (h : Fin 8) (s : State) (keep_s : P s) : P (admitHamlet h s) := by
  unfold admitHamlet
  try dsimp only
  repeat' first
    | with_reducible assumption
    | with_reducible apply keeps_endSafety H
    | with_reducible apply keeps_State_clrBit H
    | with_reducible refine ite_keeps (fun _ => ?_) (fun _ => ?_)
    | with_reducible refine foldl_keeps (fun _ _ _ => ?_) ?_
    | with_reducible refine dite_keeps (fun _ => ?_) (fun _ => ?_)
    | with_reducible refine ite_fst (fun _ => ?_) (fun _ => ?_)
    | with_reducible refine ite_snd (fun _ => ?_) (fun _ => ?_)
    | with_reducible refine ite_snd2 (fun _ => ?_) (fun _ => ?_)
    | with_reducible refine ite_snd3 (fun _ => ?_) (fun _ => ?_)
    | with_reducible refine foldl_fst (fun _ _ _ => ?_) ?_
    | with_reducible refine foldl_snd (fun _ _ _ => ?_) ?_
    | with_reducible refine snd_of_eq (by assumption) ?_
    | with_reducible refine fst_of_eq (by assumption) ?_
    | with_reducible refine snd2_of_eq (by assumption) ?_
    | with_reducible intro _ _
    | with_reducible intro _ _ _
    | split
    | dsimp only
    | with_reducible apply H.mk'

theorem keeps_hmaskWrite {P : State → Prop} (H : Closed P) (r : Req) (v : Word) (s : State) (keep_s : P s) : P (hmaskWrite r v s) := by
  unfold hmaskWrite
  try dsimp only
  repeat' first
    | with_reducible assumption
    | with_reducible apply keeps_State_storeReg H
    | with_reducible apply keeps_State_refuse4 H
    | with_reducible apply keeps_State_clrBit H
    | with_reducible apply keeps_admitHamlet H
    | with_reducible refine ite_keeps (fun _ => ?_) (fun _ => ?_)
    | with_reducible refine foldl_keeps (fun _ _ _ => ?_) ?_

theorem keeps_execHmaskWrite {P : State → Prop} (H : Closed P) (r : Req) (v : Word) (s : State) (keep_s : P s) : ∀ s1, (execHmaskWrite r v s) = .next s1 → P s1 := by
  unfold execHmaskWrite
  refine next_keeps ?_
  try dsimp only
  repeat' first
    | with_reducible assumption
    | with_reducible apply keeps_regCmd H
    | with_reducible apply keeps_hmaskWrite H

theorem keeps_execHamletRejoin {P : State → Prop} (H : Closed P) (h : Fin 8) (s : State) (keep_s : P s) : ∀ s1, (execHamletRejoin h s) = .next s1 → P s1 := by
  unfold execHamletRejoin
  refine next_keeps ?_
  try dsimp only
  repeat' first
    | with_reducible assumption
    | with_reducible apply keeps_State_at H
    | with_reducible refine ite_keeps (fun _ => ?_) (fun _ => ?_)
    | with_reducible refine foldl_keeps (fun _ _ _ => ?_) ?_
    | with_reducible refine dite_keeps (fun _ => ?_) (fun _ => ?_)
    | with_reducible refine ite_fst (fun _ => ?_) (fun _ => ?_)
    | with_reducible refine ite_snd (fun _ => ?_) (fun _ => ?_)
    | with_reducible refine ite_snd2 (fun _ => ?_) (fun _ => ?_)
    | with_reducible refine ite_snd3 (fun _ => ?_) (fun _ => ?_)
    | with_reducible refine foldl_fst (fun _ _ _ => ?_) ?_
    | with_reducible refine foldl_snd (fun _ _ _ => ?_) ?_
    | with_reducible refine snd_of_eq (by assumption) ?_
    | with_reducible refine fst_of_eq (by assumption) ?_
    | with_reducible refine snd2_of_eq (by assumption) ?_
    | with_reducible intro _ _
    | with_reducible intro _ _ _
    | split
    | dsimp only
    | with_reducible apply H.mk'

end Sys2Proof.Machine
end

