-- ==== Sys2Proof/Laws/KeepsSlots.lean ====
section
/-!
SUPPORT. Closed predicates are kept by every operation of these files.
-/

namespace Sys2Proof.Machine

theorem keeps_slotCheck_1 {P : State → Prop} (H : Closed P) (s : State) (h : Fin 8) (cfg : Word) (keep_s : P s) : P (slotCheck s h cfg).1 := by
  unfold slotCheck
  try dsimp only
  repeat' first
    | with_reducible assumption
    | with_reducible apply keeps_State_checkRead_1 H
    | with_reducible refine ite_keeps (fun _ => ?_) (fun _ => ?_)
    | with_reducible refine foldl_keeps (fun _ _ _ => ?_) ?_
    | with_reducible refine dite_keeps (fun _ => ?_) (fun _ => ?_)
    | with_reducible refine ite_fst (fun _ => ?_) (fun _ => ?_)
    | with_reducible refine ite_snd (fun _ => ?_) (fun _ => ?_)
    | with_reducible refine ite_snd2 (fun _ => ?_) (fun _ => ?_)
    | with_reducible refine ite_snd3 (fun _ => ?_) (fun _ => ?_)
    | with_reducible refine foldl_fst (fun _ _ _ => ?_) ?_
    | with_reducible refine foldl_snd (fun _ _ _ => ?_) ?_
    | with_reducible refine snd_of_eq (by assumption) ?_
    | with_reducible refine fst_of_eq (by assumption) ?_
    | with_reducible refine snd2_of_eq (by assumption) ?_
    | with_reducible intro _ _
    | with_reducible intro _ _ _
    | split

theorem keeps_slotFail {P : State → Prop} (H : Closed P) (h : Fin 8) (entry : ℕ) (code : ℕ) (s : State) (keep_s : P s) : P (slotFail h entry code s) := by
  unfold slotFail
  try dsimp only
  repeat' first
    | with_reducible assumption
    | with_reducible apply keeps_State_put H
    | with_reducible apply keeps_State_raise H

theorem keeps_sltCtrlWrite {P : State → Prop} (H : Closed P) (r : Req) (h : Fin 8) (v : Word) (s : State) (keep_s : P s) : P (sltCtrlWrite r h v s) := by
  unfold sltCtrlWrite
  dsimp only
  have hs := keeps_State_storeReg H s r (hamletBase h + Reg.SLT_CTRL) (v &&& 0xFFFFFFFD#32) keep_s
  generalize s.storeReg r (hamletBase h + Reg.SLT_CTRL) (v &&& 0xFFFFFFFD#32) = u at hs ⊢
  have hw : P (if u.get (Fld.SLT_CTRL_ENABLE.h h) = s.get (Fld.SLT_CTRL_ENABLE.h h) then u
      else { u with slt := u.slt.set h { u.slt[h] with
        enables := u.slt[h].enables ++ [(frameAfter100 u.now, u.flag (Fld.SLT_CTRL_ENABLE.h h))] } }) :=
    ite_keeps (fun _ => hs) (fun _ => H.mk' hs ..)
  generalize (if u.get (Fld.SLT_CTRL_ENABLE.h h) = s.get (Fld.SLT_CTRL_ENABLE.h h) then u
      else { u with slt := u.slt.set h { u.slt[h] with
        enables := u.slt[h].enables ++ [(frameAfter100 u.now, u.flag (Fld.SLT_CTRL_ENABLE.h h))] } }) = w at hw ⊢
  exact ite_keeps (fun _ => hw) (fun _ => H.mk' (keeps_State_put H _ _ _ hw) ..)

theorem keeps_execSlotTableCommit {P : State → Prop} (H : Closed P) (r : Req) (h : Fin 8) (v : Word) (s : State) (keep_s : P s) : ∀ s1, (execSlotTableCommit r h v s) = .next s1 → P s1 := by
  unfold execSlotTableCommit
  refine next_keeps ?_
  try dsimp only
  repeat' first
    | with_reducible assumption
    | with_reducible apply keeps_regCmd H
    | with_reducible apply keeps_sltCtrlWrite H

theorem keeps_execSlotTableCheckEnd {P : State → Prop} (H : Closed P) (h : Fin 8) (s : State) (keep_s : P s) : ∀ s1, (execSlotTableCheckEnd h s) = .next s1 → P s1 := by
  unfold execSlotTableCheckEnd
  refine next_keeps ?_
  try dsimp only
  repeat' first
    | with_reducible assumption
    | with_reducible apply keeps_slotCheck_1 H
    | with_reducible apply keeps_State_put H
    | with_reducible apply keeps_slotFail H
    | with_reducible refine ite_keeps (fun _ => ?_) (fun _ => ?_)
    | with_reducible refine foldl_keeps (fun _ _ _ => ?_) ?_
    | with_reducible refine dite_keeps (fun _ => ?_) (fun _ => ?_)
    | with_reducible refine ite_fst (fun _ => ?_) (fun _ => ?_)
    | with_reducible refine ite_snd (fun _ => ?_) (fun _ => ?_)
    | with_reducible refine ite_snd2 (fun _ => ?_) (fun _ => ?_)
    | with_reducible refine ite_snd3 (fun _ => ?_) (fun _ => ?_)
    | with_reducible refine foldl_fst (fun _ _ _ => ?_) ?_
    | with_reducible refine foldl_snd (fun _ _ _ => ?_) ?_
    | with_reducible refine snd_of_eq (by assumption) ?_
    | with_reducible refine fst_of_eq (by assumption) ?_
    | with_reducible refine snd2_of_eq (by assumption) ?_
    | with_reducible intro _ _
    | with_reducible intro _ _ _
    | split
    | dsimp only
    | with_reducible apply H.mk'

theorem keeps_execSlotTableSwap {P : State → Prop} (H : Closed P) (h : Fin 8) (s : State) (keep_s : P s) : ∀ s1, (execSlotTableSwap h s) = .next s1 → P s1 := by
  unfold execSlotTableSwap
  refine next_keeps ?_
  try dsimp only
  repeat' first
    | with_reducible assumption
    | with_reducible apply keeps_State_ewr H
    | with_reducible apply keeps_State_countRx H
    | with_reducible apply keeps_State_countTx H
    | with_reducible apply keeps_State_at H
    | with_reducible apply keeps_State_put H
    | with_reducible refine ite_keeps (fun _ => ?_) (fun _ => ?_)
    | with_reducible refine foldl_keeps (fun _ _ _ => ?_) ?_
    | with_reducible refine dite_keeps (fun _ => ?_) (fun _ => ?_)
    | with_reducible refine ite_fst (fun _ => ?_) (fun _ => ?_)
    | with_reducible refine ite_snd (fun _ => ?_) (fun _ => ?_)
    | with_reducible refine ite_snd2 (fun _ => ?_) (fun _ => ?_)
    | with_reducible refine ite_snd3 (fun _ => ?_) (fun _ => ?_)
    | with_reducible refine foldl_fst (fun _ _ _ => ?_) ?_
    | with_reducible refine foldl_snd (fun _ _ _ => ?_) ?_
    | with_reducible refine snd_of_eq (by assumption) ?_
    | with_reducible refine fst_of_eq (by assumption) ?_
    | with_reducible refine snd2_of_eq (by assumption) ?_
    | with_reducible intro _ _
    | with_reducible intro _ _ _
    | split
    | dsimp only
    | with_reducible apply H.mk'

theorem keeps_latchSlot {P : State → Prop} (H : Closed P) (h : Fin 8) (late : Bool) (s : State) (keep_s : P s) : P (latchSlot h late s) := by
  unfold latchSlot
  try dsimp only
  repeat' first
    | with_reducible assumption
    | with_reducible apply keeps_State_at H
    | with_reducible apply keeps_State_checkRead_1 H
    | with_reducible apply keeps_slotFail H
    | with_reducible apply keeps_State_put H
    | with_reducible apply keeps_State_inc H
    | with_reducible refine ite_keeps (fun _ => ?_) (fun _ => ?_)
    | with_reducible refine foldl_keeps (fun _ _ _ => ?_) ?_
    | with_reducible refine dite_keeps (fun _ => ?_) (fun _ => ?_)
    | with_reducible refine ite_fst (fun _ => ?_) (fun _ => ?_)
    | with_reducible refine ite_snd (fun _ => ?_) (fun _ => ?_)
    | with_reducible refine ite_snd2 (fun _ => ?_) (fun _ => ?_)
    | with_reducible refine ite_snd3 (fun _ => ?_) (fun _ => ?_)
    | with_reducible refine foldl_fst (fun _ _ _ => ?_) ?_
    | with_reducible refine foldl_snd (fun _ _ _ => ?_) ?_
    | with_reducible refine snd_of_eq (by assumption) ?_
    | with_reducible refine fst_of_eq (by assumption) ?_
    | with_reducible refine snd2_of_eq (by assumption) ?_
    | with_reducible intro _ _
    | with_reducible intro _ _ _
    | split
    | dsimp only
    | with_reducible apply H.mk'

theorem keeps_execSlotEntryLatch {P : State → Prop} (H : Closed P) (h : Fin 8) (late : Bool) (s : State) (keep_s : P s) : ∀ s1, (execSlotEntryLatch h late s) = .next s1 → P s1 := by
  unfold execSlotEntryLatch
  refine next_keeps ?_
  try dsimp only
  repeat' first
    | with_reducible assumption
    | with_reducible apply keeps_latchSlot H

theorem keeps_actionRun {P : State → Prop} (H : Closed P) (h : Fin 8) (l : Latched) (i : ℕ) (s : State) (keep_s : P s) : P (actionRun h l i s) := by
  unfold actionRun
  try dsimp only
  repeat' first
    | with_reducible assumption
    | with_reducible refine ite_keeps (fun _ => ?_) (fun _ => ?_)
    | with_reducible refine foldl_keeps (fun _ _ _ => ?_) ?_
    | with_reducible refine dite_keeps (fun _ => ?_) (fun _ => ?_)
    | with_reducible refine ite_fst (fun _ => ?_) (fun _ => ?_)
    | with_reducible refine ite_snd (fun _ => ?_) (fun _ => ?_)
    | with_reducible refine ite_snd2 (fun _ => ?_) (fun _ => ?_)
    | with_reducible refine ite_snd3 (fun _ => ?_) (fun _ => ?_)
    | with_reducible refine foldl_fst (fun _ _ _ => ?_) ?_
    | with_reducible refine foldl_snd (fun _ _ _ => ?_) ?_
    | with_reducible refine snd_of_eq (by assumption) ?_
    | with_reducible refine fst_of_eq (by assumption) ?_
    | with_reducible refine snd2_of_eq (by assumption) ?_
    | with_reducible intro _ _
    | with_reducible intro _ _ _
    | split
    | dsimp only
    | with_reducible apply H.mk'

theorem keeps_runAction {P : State → Prop} (H : Closed P) (h : Fin 8) (type : ℕ) (act : ℕ → Latched → State → State) (s : State) (keep_act : ∀ a0 a1 s2, P s2 → P (act a0 a1 s2)) (keep_s : P s) : P (runAction h type act s) := by
  unfold runAction
  try dsimp only
  repeat' first
    | with_reducible assumption
    | with_reducible apply keep_act
    | with_reducible apply keeps_actionRun H
    | with_reducible apply keeps_State_at H
    | with_reducible refine ite_keeps (fun _ => ?_) (fun _ => ?_)
    | with_reducible refine foldl_keeps (fun _ _ _ => ?_) ?_
    | with_reducible refine dite_keeps (fun _ => ?_) (fun _ => ?_)
    | with_reducible refine ite_fst (fun _ => ?_) (fun _ => ?_)
    | with_reducible refine ite_snd (fun _ => ?_) (fun _ => ?_)
    | with_reducible refine ite_snd2 (fun _ => ?_) (fun _ => ?_)
    | with_reducible refine ite_snd3 (fun _ => ?_) (fun _ => ?_)
    | with_reducible refine foldl_fst (fun _ _ _ => ?_) ?_
    | with_reducible refine foldl_snd (fun _ _ _ => ?_) ?_
    | with_reducible refine snd_of_eq (by assumption) ?_
    | with_reducible refine fst_of_eq (by assumption) ?_
    | with_reducible refine snd2_of_eq (by assumption) ?_
    | with_reducible intro _ _
    | with_reducible intro _ _ _
    | split

theorem keeps_execSlotActionPins {P : State → Prop} (H : Closed P) (h : Fin 8) (s : State) (keep_s : P s) : ∀ s1, (execSlotActionPins h s) = .next s1 → P s1 := by
  unfold execSlotActionPins
  refine next_keeps ?_
  try dsimp only
  repeat' first
    | with_reducible assumption
    | with_reducible apply keeps_runAction H
    | with_reducible apply keeps_State_drivePins H
    | with_reducible refine ite_keeps (fun _ => ?_) (fun _ => ?_)
    | with_reducible refine foldl_keeps (fun _ _ _ => ?_) ?_
    | with_reducible refine dite_keeps (fun _ => ?_) (fun _ => ?_)
    | with_reducible refine ite_fst (fun _ => ?_) (fun _ => ?_)
    | with_reducible refine ite_snd (fun _ => ?_) (fun _ => ?_)
    | with_reducible refine ite_snd2 (fun _ => ?_) (fun _ => ?_)
    | with_reducible refine ite_snd3 (fun _ => ?_) (fun _ => ?_)
    | with_reducible refine foldl_fst (fun _ _ _ => ?_) ?_
    | with_reducible refine foldl_snd (fun _ _ _ => ?_) ?_
    | with_reducible refine snd_of_eq (by assumption) ?_
    | with_reducible refine fst_of_eq (by assumption) ?_
    | with_reducible refine snd2_of_eq (by assumption) ?_
    | with_reducible intro _ _

theorem keeps_execSlotActionOrxTrigger {P : State → Prop} (H : Closed P) (h : Fin 8) (s : State) (keep_s : P s) : ∀ s1, (execSlotActionOrxTrigger h s) = .next s1 → P s1 := by
  unfold execSlotActionOrxTrigger
  refine next_keeps ?_
  try dsimp only
  repeat' first
    | with_reducible assumption
    | with_reducible apply keeps_runAction H
    | with_reducible refine ite_keeps (fun _ => ?_) (fun _ => ?_)
    | with_reducible refine foldl_keeps (fun _ _ _ => ?_) ?_
    | with_reducible refine dite_keeps (fun _ => ?_) (fun _ => ?_)
    | with_reducible refine ite_fst (fun _ => ?_) (fun _ => ?_)
    | with_reducible refine ite_snd (fun _ => ?_) (fun _ => ?_)
    | with_reducible refine ite_snd2 (fun _ => ?_) (fun _ => ?_)
    | with_reducible refine ite_snd3 (fun _ => ?_) (fun _ => ?_)
    | with_reducible refine foldl_fst (fun _ _ _ => ?_) ?_
    | with_reducible refine foldl_snd (fun _ _ _ => ?_) ?_
    | with_reducible refine snd_of_eq (by assumption) ?_
    | with_reducible refine fst_of_eq (by assumption) ?_
    | with_reducible refine snd2_of_eq (by assumption) ?_
    | with_reducible intro _ _
    | with_reducible intro _ _ _
    | split
    | dsimp only
    | with_reducible apply H.mk'

theorem keeps_execSlotActionEngineEvent {P : State → Prop} (H : Closed P) (h : Fin 8) (s : State) (keep_s : P s) : ∀ s1, (execSlotActionEngineEvent h s) = .next s1 → P s1 := by
  unfold execSlotActionEngineEvent
  refine next_keeps ?_
  try dsimp only
  repeat' first
    | with_reducible assumption
    | with_reducible apply keeps_runAction H
    | with_reducible apply keeps_State_notify H
    | with_reducible refine ite_keeps (fun _ => ?_) (fun _ => ?_)
    | with_reducible refine foldl_keeps (fun _ _ _ => ?_) ?_
    | with_reducible refine dite_keeps (fun _ => ?_) (fun _ => ?_)
    | with_reducible refine ite_fst (fun _ => ?_) (fun _ => ?_)
    | with_reducible refine ite_snd (fun _ => ?_) (fun _ => ?_)
    | with_reducible refine ite_snd2 (fun _ => ?_) (fun _ => ?_)
    | with_reducible refine ite_snd3 (fun _ => ?_) (fun _ => ?_)
    | with_reducible refine foldl_fst (fun _ _ _ => ?_) ?_
    | with_reducible refine foldl_snd (fun _ _ _ => ?_) ?_
    | with_reducible refine snd_of_eq (by assumption) ?_
    | with_reducible refine fst_of_eq (by assumption) ?_
    | with_reducible refine snd2_of_eq (by assumption) ?_
    | with_reducible intro _ _

theorem keeps_execGainStatePins {P : State → Prop} (H : Closed P) (h : Fin 8) (s : State) (keep_s : P s) : ∀ s1, (execGainStatePins h s) = .next s1 → P s1 := by
  unfold execGainStatePins
  refine next_keeps ?_
  try dsimp only
  repeat' first
    | with_reducible assumption
    | with_reducible apply keeps_State_at H
    | with_reducible apply keeps_State_drivePins H
    | with_reducible refine ite_keeps (fun _ => ?_) (fun _ => ?_)
    | with_reducible refine foldl_keeps (fun _ _ _ => ?_) ?_
    | with_reducible refine dite_keeps (fun _ => ?_) (fun _ => ?_)
    | with_reducible refine ite_fst (fun _ => ?_) (fun _ => ?_)
    | with_reducible refine ite_snd (fun _ => ?_) (fun _ => ?_)
    | with_reducible refine ite_snd2 (fun _ => ?_) (fun _ => ?_)
    | with_reducible refine ite_snd3 (fun _ => ?_) (fun _ => ?_)
    | with_reducible refine foldl_fst (fun _ _ _ => ?_) ?_
    | with_reducible refine foldl_snd (fun _ _ _ => ?_) ?_
    | with_reducible refine snd_of_eq (by assumption) ?_
    | with_reducible refine fst_of_eq (by assumption) ?_
    | with_reducible refine snd2_of_eq (by assumption) ?_
    | with_reducible intro _ _
    | with_reducible intro _ _ _
    | split
    | dsimp only
    | with_reducible apply H.mk'

theorem keeps_sltEditWrite {P : State → Prop} (H : Closed P) (r : Req) (h : Fin 8) (v : Word) (s : State) (keep_s : P s) : P (sltEditWrite r h v s) := by
  unfold sltEditWrite
  try dsimp only
  repeat' first
    | with_reducible assumption
    | with_reducible apply keeps_State_storeReg H
    | with_reducible apply keeps_State_put H
    | with_reducible apply keeps_State_refuse4 H
    | with_reducible refine ite_keeps (fun _ => ?_) (fun _ => ?_)
    | with_reducible refine foldl_keeps (fun _ _ _ => ?_) ?_
    | with_reducible refine dite_keeps (fun _ => ?_) (fun _ => ?_)
    | with_reducible refine ite_fst (fun _ => ?_) (fun _ => ?_)
    | with_reducible refine ite_snd (fun _ => ?_) (fun _ => ?_)
    | with_reducible refine ite_snd2 (fun _ => ?_) (fun _ => ?_)
    | with_reducible refine ite_snd3 (fun _ => ?_) (fun _ => ?_)
    | with_reducible refine foldl_fst (fun _ _ _ => ?_) ?_
    | with_reducible refine foldl_snd (fun _ _ _ => ?_) ?_
    | with_reducible refine snd_of_eq (by assumption) ?_
    | with_reducible refine fst_of_eq (by assumption) ?_
    | with_reducible refine snd2_of_eq (by assumption) ?_
    | with_reducible intro _ _
    | with_reducible intro _ _ _
    | split
    | dsimp only
    | with_reducible apply H.mk'

theorem keeps_execSltEditGo {P : State → Prop} (H : Closed P) (r : Req) (h : Fin 8) (v : Word) (s : State) (keep_s : P s) : ∀ s1, (execSltEditGo r h v s) = .next s1 → P s1 := by
  unfold execSltEditGo
  refine next_keeps ?_
  try dsimp only
  repeat' first
    | with_reducible assumption
    | with_reducible apply keeps_regCmd H
    | with_reducible apply keeps_sltEditWrite H

theorem keeps_execSltEditCopy {P : State → Prop} (H : Closed P) (h : Fin 8) (s : State) (keep_s : P s) : ∀ s1, (execSltEditCopy h s) = .next s1 → P s1 := by
  unfold execSltEditCopy
  refine next_keeps ?_
  try dsimp only
  repeat' first
    | with_reducible assumption
    | with_reducible apply keeps_State_checkWrite_1 H
    | with_reducible apply keeps_State_put H
    | with_reducible refine ite_keeps (fun _ => ?_) (fun _ => ?_)
    | with_reducible refine foldl_keeps (fun _ _ _ => ?_) ?_
    | with_reducible refine dite_keeps (fun _ => ?_) (fun _ => ?_)
    | with_reducible refine ite_fst (fun _ => ?_) (fun _ => ?_)
    | with_reducible refine ite_snd (fun _ => ?_) (fun _ => ?_)
    | with_reducible refine ite_snd2 (fun _ => ?_) (fun _ => ?_)
    | with_reducible refine ite_snd3 (fun _ => ?_) (fun _ => ?_)
    | with_reducible refine foldl_fst (fun _ _ _ => ?_) ?_
    | with_reducible refine foldl_snd (fun _ _ _ => ?_) ?_
    | with_reducible refine snd_of_eq (by assumption) ?_
    | with_reducible refine fst_of_eq (by assumption) ?_
    | with_reducible refine snd2_of_eq (by assumption) ?_
    | with_reducible intro _ _
    | with_reducible intro _ _ _
    | split
    | dsimp only
    | with_reducible apply H.mk'

theorem keeps_execSltEnableTakeEffect {P : State → Prop} (H : Closed P) (h : Fin 8) (s : State) (keep_s : P s) : ∀ s1, (execSltEnableTakeEffect h s) = .next s1 → P s1 := by
  unfold execSltEnableTakeEffect
  refine next_keeps ?_
  try dsimp only
  repeat' first
    | with_reducible assumption
    | with_reducible apply keeps_State_eput H
    | with_reducible apply keeps_State_at H
    | with_reducible refine ite_keeps (fun _ => ?_) (fun _ => ?_)
    | with_reducible refine foldl_keeps (fun _ _ _ => ?_) ?_
    | with_reducible refine dite_keeps (fun _ => ?_) (fun _ => ?_)
    | with_reducible refine ite_fst (fun _ => ?_) (fun _ => ?_)
    | with_reducible refine ite_snd (fun _ => ?_) (fun _ => ?_)
    | with_reducible refine ite_snd2 (fun _ => ?_) (fun _ => ?_)
    | with_reducible refine ite_snd3 (fun _ => ?_) (fun _ => ?_)
    | with_reducible refine foldl_fst (fun _ _ _ => ?_) ?_
    | with_reducible refine foldl_snd (fun _ _ _ => ?_) ?_
    | with_reducible refine snd_of_eq (by assumption) ?_
    | with_reducible refine fst_of_eq (by assumption) ?_
    | with_reducible refine snd2_of_eq (by assumption) ?_
    | with_reducible intro _ _
    | with_reducible intro _ _ _
    | split
    | dsimp only
    | with_reducible apply H.mk'

theorem keeps_gainCfgWrite {P : State → Prop} (H : Closed P) (r : Req) (h : Fin 8) (v : Word) (s : State) (keep_s : P s) : P (gainCfgWrite r h v s) := by
  unfold gainCfgWrite
  try dsimp only
  repeat' first
    | with_reducible assumption
    | with_reducible apply keeps_State_refuse4 H
    | with_reducible apply keeps_State_storeReg H
    | with_reducible refine ite_keeps (fun _ => ?_) (fun _ => ?_)

theorem keeps_takenLevels {P : State → Prop} (H : Closed P) (h : Fin 8) (owner : ℕ) (mask : ℕ) (s : State) (keep_s : P s) : P (takenLevels h owner mask s) := by
  unfold takenLevels
  try dsimp only
  repeat' first
    | with_reducible assumption
    | with_reducible apply keeps_State_drivePins H
    | with_reducible refine ite_keeps (fun _ => ?_) (fun _ => ?_)

theorem keeps_claimPins {P : State → Prop} (H : Closed P) (h : Fin 8) (owner : ℕ) (mask : ℕ) (s : State) (keep_s : P s) : P (claimPins h owner mask s) := by
  unfold claimPins
  try dsimp only
  repeat' first
    | with_reducible assumption
    | with_reducible apply keeps_State_setPinOwner H
    | with_reducible apply keeps_takenLevels H
    | with_reducible apply keeps_State_orF H
    | with_reducible apply keeps_State_endCapture H
    | with_reducible apply keeps_State_notify H
    | with_reducible refine ite_keeps (fun _ => ?_) (fun _ => ?_)
    | with_reducible refine foldl_keeps (fun _ _ _ => ?_) ?_

theorem keeps_fepClaimWrite {P : State → Prop} (H : Closed P) (h : Fin 8) (v : Word) (s : State) (keep_s : P s) : P (fepClaimWrite h v s) := by
  unfold fepClaimWrite
  try dsimp only
  repeat' first
    | with_reducible assumption
    | with_reducible apply keeps_State_releasePins H
    | with_reducible apply keeps_claimPins H
    | with_reducible refine ite_keeps (fun _ => ?_) (fun _ => ?_)

theorem keeps_execFepClaim {P : State → Prop} (H : Closed P) (r : Req) (h : Fin 8) (v : Word) (s : State) (keep_s : P s) : ∀ s1, (execFepClaim r h v s) = .next s1 → P s1 := by
  unfold execFepClaim
  refine next_keeps ?_
  try dsimp only
  repeat' first
    | with_reducible assumption
    | with_reducible apply keeps_regCmd H
    | with_reducible apply keeps_fepClaimWrite H

theorem keeps_execFepRelease {P : State → Prop} (H : Closed P) (r : Req) (h : Fin 8) (v : Word) (s : State) (keep_s : P s) : ∀ s1, (execFepRelease r h v s) = .next s1 → P s1 := by
  unfold execFepRelease
  refine next_keeps ?_
  try dsimp only
  repeat' first
    | with_reducible assumption
    | with_reducible apply keeps_regCmd H
    | with_reducible apply keeps_fepClaimWrite H

theorem keeps_fepSafeWrite {P : State → Prop} (H : Closed P) (r : Req) (h : Fin 8) (v : Word) (s : State) (keep_s : P s) : P (fepSafeWrite r h v s) := by
  unfold fepSafeWrite
  try dsimp only
  repeat' first
    | with_reducible assumption
    | with_reducible apply keeps_State_storeReg H
    | with_reducible apply keeps_State_drivePins H

theorem keeps_execFepSafeWrite {P : State → Prop} (H : Closed P) (r : Req) (h : Fin 8) (v : Word) (s : State) (keep_s : P s) : ∀ s1, (execFepSafeWrite r h v s) = .next s1 → P s1 := by
  unfold execFepSafeWrite
  refine next_keeps ?_
  try dsimp only
  repeat' first
    | with_reducible assumption
    | with_reducible apply keeps_regCmd H
    | with_reducible apply keeps_fepSafeWrite H

theorem keeps_fepGpioWrite {P : State → Prop} (H : Closed P) (r : Req) (h : Fin 8) (v : Word) (s : State) (keep_s : P s) : P (fepGpioWrite r h v s) := by
  unfold fepGpioWrite
  try dsimp only
  repeat' first
    | with_reducible assumption
    | with_reducible apply keeps_State_storeReg H
    | with_reducible apply keeps_State_drivePins H

theorem keeps_execFepGpioWrite {P : State → Prop} (H : Closed P) (r : Req) (h : Fin 8) (v : Word) (s : State) (keep_s : P s) : ∀ s1, (execFepGpioWrite r h v s) = .next s1 → P s1 := by
  unfold execFepGpioWrite
  refine next_keeps ?_
  try dsimp only
  repeat' first
    | with_reducible assumption
    | with_reducible apply keeps_regCmd H
    | with_reducible apply keeps_fepGpioWrite H

end Sys2Proof.Machine
end

