-- ==== Sys2Proof/Laws/KeepsTx.lean ====
section
/-!
SUPPORT. Closed predicates are kept by every operation of these files.
-/

namespace Sys2Proof.Machine

theorem keeps_commitHamlet {P : State → Prop} (H : Closed P) (h : Fin 8) (s : State) (keep_s : P s) : P (commitHamlet h s) := by
  unfold commitHamlet
  try dsimp only
  repeat' first
    | with_reducible assumption
    | with_reducible apply keeps_State_keepWas H
    | with_reducible apply keeps_State_put H
    | with_reducible apply keeps_State_raise H
    | with_reducible refine ite_keeps (fun _ => ?_) (fun _ => ?_)

theorem keeps_commitLnk {P : State → Prop} (H : Closed P) (n : ℕ) (dir : ℕ) (s : State) (keep_s : P s) : P (commitLnk n dir s) := by
  unfold commitLnk
  try dsimp only
  repeat' first
    | with_reducible assumption
    | with_reducible apply keeps_State_raise H
    | with_reducible refine ite_keeps (fun _ => ?_) (fun _ => ?_)

theorem keeps_clearNcoPend {P : State → Prop} (H : Closed P) (h : Fin 8) (dirty : List ℕ) (s : State) (keep_s : P s) : P (clearNcoPend h dirty s) := by
  unfold clearNcoPend
  try dsimp only
  repeat' first
    | with_reducible assumption
    | with_reducible apply keeps_State_wr H
    | with_reducible refine ite_keeps (fun _ => ?_) (fun _ => ?_)
    | with_reducible refine foldl_keeps (fun _ _ _ => ?_) ?_

theorem keeps_dropUndefined {P : State → Prop} (H : Closed P) (s : State) (keep_s : P s) : P (dropUndefined s) := by
  unfold dropUndefined
  try dsimp only
  repeat' first
    | with_reducible assumption
    | with_reducible refine ite_keeps (fun _ => ?_) (fun _ => ?_)
    | with_reducible refine foldl_keeps (fun _ _ _ => ?_) ?_
    | with_reducible refine dite_keeps (fun _ => ?_) (fun _ => ?_)
    | with_reducible refine ite_fst (fun _ => ?_) (fun _ => ?_)
    | with_reducible refine ite_snd (fun _ => ?_) (fun _ => ?_)
    | with_reducible refine ite_snd2 (fun _ => ?_) (fun _ => ?_)
    | with_reducible refine ite_snd3 (fun _ => ?_) (fun _ => ?_)
    | with_reducible refine foldl_fst (fun _ _ _ => ?_) ?_
    | with_reducible refine foldl_snd (fun _ _ _ => ?_) ?_
    | with_reducible refine snd_of_eq (by assumption) ?_
    | with_reducible refine fst_of_eq (by assumption) ?_
    | with_reducible refine snd2_of_eq (by assumption) ?_
    | with_reducible intro _ _
    | with_reducible intro _ _ _
    | split
    | dsimp only
    | with_reducible apply H.mk'

theorem keeps_dlCfgWrite {P : State → Prop} (H : Closed P) (r : Req) (v : Word) (s : State) (keep_s : P s) : P (dlCfgWrite r v s) := by
  unfold dlCfgWrite
  try dsimp only
  repeat' first
    | with_reducible assumption
    | with_reducible apply keeps_State_refuse4 H
    | with_reducible apply keeps_State_storeReg H
    | with_reducible refine ite_keeps (fun _ => ?_) (fun _ => ?_)

theorem keeps_dlIqMessage {P : State → Prop} (H : Closed P) (ws : List Word) (s : State) (keep_s : P s) : P (dlIqMessage ws s) := by
  unfold dlIqMessage
  try dsimp only
  repeat' first
    | with_reducible assumption
    | with_reducible apply keeps_State_inc H
    | with_reducible apply keeps_State_add H
    | with_reducible refine ite_keeps (fun _ => ?_) (fun _ => ?_)
    | with_reducible refine foldl_keeps (fun _ _ _ => ?_) ?_
    | with_reducible refine dite_keeps (fun _ => ?_) (fun _ => ?_)
    | with_reducible refine ite_fst (fun _ => ?_) (fun _ => ?_)
    | with_reducible refine ite_snd (fun _ => ?_) (fun _ => ?_)
    | with_reducible refine ite_snd2 (fun _ => ?_) (fun _ => ?_)
    | with_reducible refine ite_snd3 (fun _ => ?_) (fun _ => ?_)
    | with_reducible refine foldl_fst (fun _ _ _ => ?_) ?_
    | with_reducible refine foldl_snd (fun _ _ _ => ?_) ?_
    | with_reducible refine snd_of_eq (by assumption) ?_
    | with_reducible refine fst_of_eq (by assumption) ?_
    | with_reducible refine snd2_of_eq (by assumption) ?_
    | with_reducible intro _ _
    | with_reducible intro _ _ _
    | split
    | dsimp only
    | with_reducible apply H.mk'

theorem keeps_execDlIqMessage {P : State → Prop} (H : Closed P) (m : Hdr) (words : List Word) (t : ℕ) (s : State) (keep_s : P s) : ∀ s1, (execDlIqMessage m words t s) = .next s1 → P s1 := by
  unfold execDlIqMessage
  refine next_keeps ?_
  try dsimp only
  repeat' first
    | with_reducible assumption
    | with_reducible apply keeps_takeMsg H
    | with_reducible apply keeps_dlIqMessage H
    | with_reducible apply keeps_State_at H

theorem keeps_txSaturated {P : State → Prop} (H : Closed P) (h : Fin 8) (k : ℕ) (stage : ℕ) (n : ℕ) (s : State) (keep_s : P s) : P (txSaturated h k stage n s) := by
  unfold txSaturated
  try dsimp only
  repeat' first
    | with_reducible assumption
    | with_reducible apply keeps_State_setBit H
    | with_reducible apply keeps_State_add H
    | with_reducible apply keeps_State_raise H
    | with_reducible refine ite_keeps (fun _ => ?_) (fun _ => ?_)

theorem keeps_countIfft {P : State → Prop} (H : Closed P) (x : TxSymbol) (s : State) (keep_s : P s) : P (countIfft x s) := by
  unfold countIfft
  try dsimp only
  repeat' first
    | with_reducible assumption
    | with_reducible apply keeps_txSaturated H
    | with_reducible refine ite_keeps (fun _ => ?_) (fun _ => ?_)
    | with_reducible refine foldl_keeps (fun _ _ _ => ?_) ?_

theorem keeps_countSat {P : State → Prop} (H : Closed P) (sat : List ℕ) (s : State) (keep_s : P s) : P (countSat sat s) := by
  unfold countSat
  try dsimp only
  repeat' first
    | with_reducible assumption
    | with_reducible apply keeps_txSaturated H
    | with_reducible refine ite_keeps (fun _ => ?_) (fun _ => ?_)
    | with_reducible refine foldl_keeps (fun _ _ _ => ?_) ?_

theorem keeps_countSymbols {P : State → Prop} (H : Closed P) (s : State) (keep_s : P s) : P (countSymbols s) := by
  unfold countSymbols
  try dsimp only
  repeat' first
    | with_reducible assumption
    | with_reducible apply keeps_countIfft H
    | with_reducible apply keeps_countSat H
    | with_reducible refine ite_keeps (fun _ => ?_) (fun _ => ?_)
    | with_reducible refine foldl_keeps (fun _ _ _ => ?_) ?_
    | with_reducible refine dite_keeps (fun _ => ?_) (fun _ => ?_)
    | with_reducible refine ite_fst (fun _ => ?_) (fun _ => ?_)
    | with_reducible refine ite_snd (fun _ => ?_) (fun _ => ?_)
    | with_reducible refine ite_snd2 (fun _ => ?_) (fun _ => ?_)
    | with_reducible refine ite_snd3 (fun _ => ?_) (fun _ => ?_)
    | with_reducible refine foldl_fst (fun _ _ _ => ?_) ?_
    | with_reducible refine foldl_snd (fun _ _ _ => ?_) ?_
    | with_reducible refine snd_of_eq (by assumption) ?_
    | with_reducible refine fst_of_eq (by assumption) ?_
    | with_reducible refine snd2_of_eq (by assumption) ?_
    | with_reducible intro _ _
    | with_reducible intro _ _ _
    | split
    | dsimp only
    | with_reducible apply H.mk'

theorem keeps_State_txRun {P : State → Prop} (H : Closed P) (s : State) (keep_s : P s) : P (State.txRun s) := by
  unfold State.txRun
  try dsimp only
  repeat' first
    | with_reducible assumption
    | with_reducible apply keeps_countSymbols H
    | with_reducible apply keeps_txSaturated H
    | with_reducible apply keeps_State_add H
    | with_reducible refine ite_keeps (fun _ => ?_) (fun _ => ?_)
    | with_reducible refine foldl_keeps (fun _ _ _ => ?_) ?_
    | with_reducible refine dite_keeps (fun _ => ?_) (fun _ => ?_)
    | with_reducible refine ite_fst (fun _ => ?_) (fun _ => ?_)
    | with_reducible refine ite_snd (fun _ => ?_) (fun _ => ?_)
    | with_reducible refine ite_snd2 (fun _ => ?_) (fun _ => ?_)
    | with_reducible refine ite_snd3 (fun _ => ?_) (fun _ => ?_)
    | with_reducible refine foldl_fst (fun _ _ _ => ?_) ?_
    | with_reducible refine foldl_snd (fun _ _ _ => ?_) ?_
    | with_reducible refine snd_of_eq (by assumption) ?_
    | with_reducible refine fst_of_eq (by assumption) ?_
    | with_reducible refine snd2_of_eq (by assumption) ?_
    | with_reducible intro _ _
    | with_reducible intro _ _ _
    | split
    | dsimp only
    | with_reducible apply H.mk'

theorem keeps_carriersTakeEffect {P : State → Prop} (H : Closed P) (p : CarPend) (s : State) (keep_s : P s) (hp : s.carPend = some p) :
    P (carriersTakeEffect p s) := by
  unfold carriersTakeEffect
  dsimp only
  refine foldl_keeps (fun _ _ hs => keeps_commitHamlet H _ _ hs) (foldl_keeps (fun _ _ hs => ?_)
    (keeps_dropUndefined H _ (foldl_keeps (fun _ _ hs => keeps_clearNcoPend H _ _ _ hs) ?_)))
  · exact keeps_commitLnk H _ _ _ (keeps_commitLnk H _ _ _ hs)
  refine keeps_State_put H _ _ _ ?_
  exact H.mkMerge carrierReg p (keeps_State_txRun H _ (keeps_State_at H _ _ keep_s)) keep_s hp ..

theorem keeps_execCarrierCommitTakeEffect {P : State → Prop} (H : Closed P) (s : State) (keep_s : P s) :
    ∀ s1, execCarrierCommitTakeEffect s = .next s1 → P s1 := by
  unfold execCarrierCommitTakeEffect
  refine next_keeps ?_
  split
  · exact keep_s
  · exact keeps_carriersTakeEffect H _ s keep_s ‹_›

theorem keeps_reweigh {P : State → Prop} (H : Closed P) (h : Fin 8) (d : ℕ) (s : State) (keep_s : P s) : P (reweigh h d s) := by
  unfold reweigh
  try dsimp only
  repeat' first
    | with_reducible assumption
    | with_reducible refine ite_keeps (fun _ => ?_) (fun _ => ?_)
    | with_reducible refine foldl_keeps (fun _ _ _ => ?_) ?_
    | with_reducible refine dite_keeps (fun _ => ?_) (fun _ => ?_)
    | with_reducible refine ite_fst (fun _ => ?_) (fun _ => ?_)
    | with_reducible refine ite_snd (fun _ => ?_) (fun _ => ?_)
    | with_reducible refine ite_snd2 (fun _ => ?_) (fun _ => ?_)
    | with_reducible refine ite_snd3 (fun _ => ?_) (fun _ => ?_)
    | with_reducible refine foldl_fst (fun _ _ _ => ?_) ?_
    | with_reducible refine foldl_snd (fun _ _ _ => ?_) ?_
    | with_reducible refine snd_of_eq (by assumption) ?_
    | with_reducible refine fst_of_eq (by assumption) ?_
    | with_reducible refine snd2_of_eq (by assumption) ?_
    | with_reducible intro _ _
    | with_reducible intro _ _ _
    | split
    | dsimp only
    | with_reducible apply H.mk'

theorem keeps_formSymbol {P : State → Prop} (H : Closed P) (car : ℕ) (c : Car) (y : SymId) (air : ℕ) (t1 : ℕ) (cells : List (DlCell × Desc)) (s : State) (keep_s : P s) : P (formSymbol car c y air t1 cells s) := by
  unfold formSymbol
  try dsimp only
  repeat' first
    | with_reducible assumption
    | with_reducible apply keeps_State_add H
    | with_reducible apply keeps_noteWeights H
    | with_reducible refine ite_keeps (fun _ => ?_) (fun _ => ?_)
    | with_reducible refine foldl_keeps (fun _ _ _ => ?_) ?_
    | with_reducible refine dite_keeps (fun _ => ?_) (fun _ => ?_)
    | with_reducible refine ite_fst (fun _ => ?_) (fun _ => ?_)
    | with_reducible refine ite_snd (fun _ => ?_) (fun _ => ?_)
    | with_reducible refine ite_snd2 (fun _ => ?_) (fun _ => ?_)
    | with_reducible refine ite_snd3 (fun _ => ?_) (fun _ => ?_)
    | with_reducible refine foldl_fst (fun _ _ _ => ?_) ?_
    | with_reducible refine foldl_snd (fun _ _ _ => ?_) ?_
    | with_reducible refine snd_of_eq (by assumption) ?_
    | with_reducible refine fst_of_eq (by assumption) ?_
    | with_reducible refine snd2_of_eq (by assumption) ?_
    | with_reducible intro _ _
    | with_reducible intro _ _ _
    | split
    | dsimp only
    | with_reducible apply H.mk'

theorem keeps_dlDeadline {P : State → Prop} (H : Closed P) (car : ℕ) (y : SymId) (s : State) (keep_s : P s) : P (dlDeadline car y s) := by
  unfold dlDeadline
  try dsimp only
  repeat' first
    | with_reducible assumption
    | with_reducible apply keeps_State_txRun H
    | with_reducible apply keeps_State_at H
    | with_reducible apply keeps_wrongDir H
    | with_reducible apply keeps_State_add H
    | with_reducible apply keeps_State_setBit H
    | with_reducible apply keeps_State_raise H
    | with_reducible apply keeps_formSymbol H
    | with_reducible refine ite_keeps (fun _ => ?_) (fun _ => ?_)
    | with_reducible refine foldl_keeps (fun _ _ _ => ?_) ?_
    | with_reducible refine dite_keeps (fun _ => ?_) (fun _ => ?_)
    | with_reducible refine ite_fst (fun _ => ?_) (fun _ => ?_)
    | with_reducible refine ite_snd (fun _ => ?_) (fun _ => ?_)
    | with_reducible refine ite_snd2 (fun _ => ?_) (fun _ => ?_)
    | with_reducible refine ite_snd3 (fun _ => ?_) (fun _ => ?_)
    | with_reducible refine foldl_fst (fun _ _ _ => ?_) ?_
    | with_reducible refine foldl_snd (fun _ _ _ => ?_) ?_
    | with_reducible refine snd_of_eq (by assumption) ?_
    | with_reducible refine fst_of_eq (by assumption) ?_
    | with_reducible refine snd2_of_eq (by assumption) ?_
    | with_reducible intro _ _
    | with_reducible intro _ _ _
    | split
    | dsimp only
    | with_reducible apply H.mk'

theorem keeps_execDlDataDeadline {P : State → Prop} (H : Closed P) (car : Fin 8) (x : SlotId) (sym : ℕ) (s : State) (keep_s : P s) : ∀ s1, (execDlDataDeadline car x sym s) = .next s1 → P s1 := by
  unfold execDlDataDeadline
  refine next_keeps ?_
  try dsimp only
  repeat' first
    | with_reducible assumption
    | with_reducible apply keeps_dlDeadline H
    | with_reducible refine ite_keeps (fun _ => ?_) (fun _ => ?_)

theorem keeps_execBfmCommitInstant {P : State → Prop} (H : Closed P) (h : Fin 8) (s : State) (keep_s : P s) : ∀ s1, (execBfmCommitInstant h s) = .next s1 → P s1 := by
  unfold execBfmCommitInstant
  refine next_keeps ?_
  try dsimp only
  repeat' first
    | with_reducible assumption
    | with_reducible apply keeps_State_put H
    | with_reducible apply keeps_State_at H
    | with_reducible apply keeps_reweigh H
    | with_reducible refine ite_keeps (fun _ => ?_) (fun _ => ?_)
    | with_reducible refine foldl_keeps (fun _ _ _ => ?_) ?_
    | with_reducible refine dite_keeps (fun _ => ?_) (fun _ => ?_)
    | with_reducible refine ite_fst (fun _ => ?_) (fun _ => ?_)
    | with_reducible refine ite_snd (fun _ => ?_) (fun _ => ?_)
    | with_reducible refine ite_snd2 (fun _ => ?_) (fun _ => ?_)
    | with_reducible refine ite_snd3 (fun _ => ?_) (fun _ => ?_)
    | with_reducible refine foldl_fst (fun _ _ _ => ?_) ?_
    | with_reducible refine foldl_snd (fun _ _ _ => ?_) ?_
    | with_reducible refine snd_of_eq (by assumption) ?_
    | with_reducible refine fst_of_eq (by assumption) ?_
    | with_reducible refine snd2_of_eq (by assumption) ?_
    | with_reducible intro _ _
    | with_reducible intro _ _ _
    | split
    | dsimp only
    | with_reducible apply H.mk'

theorem keeps_execBfmBasesTakeEffect {P : State → Prop} (H : Closed P) (h : Fin 8) (s : State) (keep_s : P s) : ∀ s1, (execBfmBasesTakeEffect h s) = .next s1 → P s1 := by
  unfold execBfmBasesTakeEffect
  refine next_keeps ?_
  try dsimp only
  repeat' first
    | with_reducible assumption
    | with_reducible apply keeps_reweigh H
    | with_reducible apply keeps_State_take H
    | with_reducible apply keeps_State_at H
    | with_reducible refine ite_keeps (fun _ => ?_) (fun _ => ?_)
    | with_reducible refine foldl_keeps (fun _ _ _ => ?_) ?_
    | with_reducible refine dite_keeps (fun _ => ?_) (fun _ => ?_)
    | with_reducible refine ite_fst (fun _ => ?_) (fun _ => ?_)
    | with_reducible refine ite_snd (fun _ => ?_) (fun _ => ?_)
    | with_reducible refine ite_snd2 (fun _ => ?_) (fun _ => ?_)
    | with_reducible refine ite_snd3 (fun _ => ?_) (fun _ => ?_)
    | with_reducible refine foldl_fst (fun _ _ _ => ?_) ?_
    | with_reducible refine foldl_snd (fun _ _ _ => ?_) ?_
    | with_reducible refine snd_of_eq (by assumption) ?_
    | with_reducible refine fst_of_eq (by assumption) ?_
    | with_reducible refine snd2_of_eq (by assumption) ?_
    | with_reducible intro _ _
    | with_reducible intro _ _ _
    | split
    | dsimp only
    | with_reducible apply H.mk'

theorem keeps_execWeightRefcarChange {P : State → Prop} (H : Closed P) (s : State) (keep_s : P s) : ∀ s1, (execWeightRefcarChange s) = .next s1 → P s1 := by
  unfold execWeightRefcarChange
  refine next_keeps ?_
  try dsimp only
  repeat' first
    | with_reducible assumption
    | with_reducible apply keeps_reweigh H
    | with_reducible apply keeps_clearBank H
    | with_reducible apply keeps_State_take H
    | with_reducible apply keeps_State_at H
    | with_reducible refine ite_keeps (fun _ => ?_) (fun _ => ?_)
    | with_reducible refine foldl_keeps (fun _ _ _ => ?_) ?_
    | with_reducible refine dite_keeps (fun _ => ?_) (fun _ => ?_)
    | with_reducible refine ite_fst (fun _ => ?_) (fun _ => ?_)
    | with_reducible refine ite_snd (fun _ => ?_) (fun _ => ?_)
    | with_reducible refine ite_snd2 (fun _ => ?_) (fun _ => ?_)
    | with_reducible refine ite_snd3 (fun _ => ?_) (fun _ => ?_)
    | with_reducible refine foldl_fst (fun _ _ _ => ?_) ?_
    | with_reducible refine foldl_snd (fun _ _ _ => ?_) ?_
    | with_reducible refine snd_of_eq (by assumption) ?_
    | with_reducible refine fst_of_eq (by assumption) ?_
    | with_reducible refine snd2_of_eq (by assumption) ?_
    | with_reducible intro _ _
    | with_reducible intro _ _ _
    | split
    | dsimp only
    | with_reducible apply H.mk'

theorem keeps_fswapWrite {P : State → Prop} (H : Closed P) (rx : Bool) (h : Fin 8) (v : Word) (s : State) (keep_s : P s) : P (fswapWrite rx h v s) := by
  unfold fswapWrite
  try dsimp only
  repeat' first
    | with_reducible assumption
    | with_reducible apply keeps_State_setBit H
    | with_reducible refine ite_keeps (fun _ => ?_) (fun _ => ?_)
    | with_reducible refine foldl_keeps (fun _ _ _ => ?_) ?_
    | with_reducible refine dite_keeps (fun _ => ?_) (fun _ => ?_)
    | with_reducible refine ite_fst (fun _ => ?_) (fun _ => ?_)
    | with_reducible refine ite_snd (fun _ => ?_) (fun _ => ?_)
    | with_reducible refine ite_snd2 (fun _ => ?_) (fun _ => ?_)
    | with_reducible refine ite_snd3 (fun _ => ?_) (fun _ => ?_)
    | with_reducible refine foldl_fst (fun _ _ _ => ?_) ?_
    | with_reducible refine foldl_snd (fun _ _ _ => ?_) ?_
    | with_reducible refine snd_of_eq (by assumption) ?_
    | with_reducible refine fst_of_eq (by assumption) ?_
    | with_reducible refine snd2_of_eq (by assumption) ?_
    | with_reducible intro _ _
    | with_reducible intro _ _ _
    | split
    | dsimp only
    | with_reducible apply H.mk'

theorem keeps_execTxFilterSwapRequest {P : State → Prop} (H : Closed P) (r : Req) (h : Fin 8) (v : Word) (s : State) (keep_s : P s) : ∀ s1, (execTxFilterSwapRequest r h v s) = .next s1 → P s1 := by
  unfold execTxFilterSwapRequest
  refine next_keeps ?_
  try dsimp only
  repeat' first
    | with_reducible assumption
    | with_reducible apply keeps_regCmd H
    | with_reducible apply keeps_fswapWrite H

theorem keeps_execRxFilterSwapRequest {P : State → Prop} (H : Closed P) (r : Req) (h : Fin 8) (v : Word) (s : State) (keep_s : P s) : ∀ s1, (execRxFilterSwapRequest r h v s) = .next s1 → P s1 := by
  unfold execRxFilterSwapRequest
  refine next_keeps ?_
  try dsimp only
  repeat' first
    | with_reducible assumption
    | with_reducible apply keeps_regCmd H
    | with_reducible apply keeps_fswapWrite H

theorem keeps_filterSwap {P : State → Prop} (H : Closed P) (rx : Bool) (h : Fin 8) (n : Fin 8) (late : Bool) (s : State) (keep_s : P s) : P (filterSwap rx h n late s) := by
  unfold filterSwap
  try dsimp only
  repeat' first
    | with_reducible assumption
    | with_reducible apply keeps_State_clrBit H
    | with_reducible apply keeps_State_keepWas H
    | with_reducible apply keeps_State_at H
    | with_reducible apply keeps_State_setBit H
    | with_reducible apply keeps_State_put H
    | with_reducible refine ite_keeps (fun _ => ?_) (fun _ => ?_)
    | with_reducible refine foldl_keeps (fun _ _ _ => ?_) ?_
    | with_reducible refine dite_keeps (fun _ => ?_) (fun _ => ?_)
    | with_reducible refine ite_fst (fun _ => ?_) (fun _ => ?_)
    | with_reducible refine ite_snd (fun _ => ?_) (fun _ => ?_)
    | with_reducible refine ite_snd2 (fun _ => ?_) (fun _ => ?_)
    | with_reducible refine ite_snd3 (fun _ => ?_) (fun _ => ?_)
    | with_reducible refine foldl_fst (fun _ _ _ => ?_) ?_
    | with_reducible refine foldl_snd (fun _ _ _ => ?_) ?_
    | with_reducible refine snd_of_eq (by assumption) ?_
    | with_reducible refine fst_of_eq (by assumption) ?_
    | with_reducible refine snd2_of_eq (by assumption) ?_
    | with_reducible intro _ _
    | with_reducible intro _ _ _
    | split
    | dsimp only
    | with_reducible apply H.mk'

theorem keeps_execFilterSwap {P : State → Prop} (H : Closed P) (rx : Bool) (h : Fin 8) (n : Fin 8) (s : State) (keep_s : P s) : ∀ s1, (execFilterSwap rx h n s) = .next s1 → P s1 := by
  unfold execFilterSwap
  refine next_keeps ?_
  try dsimp only
  repeat' first
    | with_reducible assumption
    | with_reducible apply keeps_filterSwap H

theorem keeps_execFilterSwapFallback {P : State → Prop} (H : Closed P) (rx : Bool) (h : Fin 8) (n : Fin 8) (s : State) (keep_s : P s) : ∀ s1, (execFilterSwapFallback rx h n s) = .next s1 → P s1 := by
  unfold execFilterSwapFallback
  refine next_keeps ?_
  try dsimp only
  repeat' first
    | with_reducible assumption
    | with_reducible apply keeps_filterSwap H

theorem keeps_filterCoefWrite {P : State → Prop} (H : Closed P) (rx : Bool) (r : Req) (h : Fin 8) (a : ℕ) (v : Word) (s : State) (keep_s : P s) : P (filterCoefWrite rx r h a v s) := by
  unfold filterCoefWrite
  try dsimp only
  repeat' first
    | with_reducible assumption
    | with_reducible apply keeps_State_refuse4 H
    | with_reducible apply keeps_State_put H
    | with_reducible apply keeps_State_storeReg H
    | with_reducible refine ite_keeps (fun _ => ?_) (fun _ => ?_)

theorem keeps_cfrSwapWrite {P : State → Prop} (H : Closed P) (h : Fin 8) (v : Word) (s : State) (keep_s : P s) : P (cfrSwapWrite h v s) := by
  unfold cfrSwapWrite
  try dsimp only
  repeat' first
    | with_reducible assumption
    | with_reducible apply keeps_State_put H
    | with_reducible refine ite_keeps (fun _ => ?_) (fun _ => ?_)
    | with_reducible refine foldl_keeps (fun _ _ _ => ?_) ?_
    | with_reducible refine dite_keeps (fun _ => ?_) (fun _ => ?_)
    | with_reducible refine ite_fst (fun _ => ?_) (fun _ => ?_)
    | with_reducible refine ite_snd (fun _ => ?_) (fun _ => ?_)
    | with_reducible refine ite_snd2 (fun _ => ?_) (fun _ => ?_)
    | with_reducible refine ite_snd3 (fun _ => ?_) (fun _ => ?_)
    | with_reducible refine foldl_fst (fun _ _ _ => ?_) ?_
    | with_reducible refine foldl_snd (fun _ _ _ => ?_) ?_
    | with_reducible refine snd_of_eq (by assumption) ?_
    | with_reducible refine fst_of_eq (by assumption) ?_
    | with_reducible refine snd2_of_eq (by assumption) ?_
    | with_reducible intro _ _
    | with_reducible intro _ _ _
    | split
    | dsimp only
    | with_reducible apply H.mk'

theorem keeps_execCfrSwapRequest {P : State → Prop} (H : Closed P) (r : Req) (h : Fin 8) (v : Word) (s : State) (keep_s : P s) : ∀ s1, (execCfrSwapRequest r h v s) = .next s1 → P s1 := by
  unfold execCfrSwapRequest
  refine next_keeps ?_
  try dsimp only
  repeat' first
    | with_reducible assumption
    | with_reducible apply keeps_regCmd H
    | with_reducible apply keeps_cfrSwapWrite H

theorem keeps_execCfrPulseSwap {P : State → Prop} (H : Closed P) (h : Fin 8) (late : Bool) (s : State) (keep_s : P s) : ∀ s1, (execCfrPulseSwap h late s) = .next s1 → P s1 := by
  unfold execCfrPulseSwap
  refine next_keeps ?_
  try dsimp only
  repeat' first
    | with_reducible assumption
    | with_reducible apply keeps_State_put H
    | with_reducible apply keeps_State_keepWas H
    | with_reducible apply keeps_State_at H
    | with_reducible refine ite_keeps (fun _ => ?_) (fun _ => ?_)
    | with_reducible refine foldl_keeps (fun _ _ _ => ?_) ?_
    | with_reducible refine dite_keeps (fun _ => ?_) (fun _ => ?_)
    | with_reducible refine ite_fst (fun _ => ?_) (fun _ => ?_)
    | with_reducible refine ite_snd (fun _ => ?_) (fun _ => ?_)
    | with_reducible refine ite_snd2 (fun _ => ?_) (fun _ => ?_)
    | with_reducible refine ite_snd3 (fun _ => ?_) (fun _ => ?_)
    | with_reducible refine foldl_fst (fun _ _ _ => ?_) ?_
    | with_reducible refine foldl_snd (fun _ _ _ => ?_) ?_
    | with_reducible refine snd_of_eq (by assumption) ?_
    | with_reducible refine fst_of_eq (by assumption) ?_
    | with_reducible refine snd2_of_eq (by assumption) ?_
    | with_reducible intro _ _
    | with_reducible intro _ _ _
    | split
    | dsimp only
    | with_reducible apply H.mk'

theorem keeps_pulseWrite {P : State → Prop} (H : Closed P) (r : Req) (h : Fin 8) (a : ℕ) (v : Word) (s : State) (keep_s : P s) : P (pulseWrite r h a v s) := by
  unfold pulseWrite
  try dsimp only
  repeat' first
    | with_reducible assumption
    | with_reducible apply keeps_State_refuse4 H
    | with_reducible apply keeps_State_put H
    | with_reducible apply keeps_State_storeReg H
    | with_reducible refine ite_keeps (fun _ => ?_) (fun _ => ?_)

theorem keeps_dpdCfgWrite {P : State → Prop} (H : Closed P) (r : Req) (h : Fin 8) (v : Word) (s : State) (keep_s : P s) : P (dpdCfgWrite r h v s) := by
  have key : ∀ u : State, P u → P { u with tx := u.tx.set h { u.tx[h] with
      sets := u.tx[h].sets ++ [⟨halfAfter2 u.now, hamletBase h + Reg.DPD_CFG, u.rd (hamletBase h + Reg.DPD_CFG)⟩] } } :=
    fun u hu => H.mk' hu ..
  unfold dpdCfgWrite
  refine key _ ?_
  exact ite_keeps (fun _ => keeps_State_refuse4 H _ _ _ (keeps_State_put H _ _ _ keep_s)) (fun _ => keeps_State_storeReg H _ _ _ _ keep_s)

theorem keeps_dpdSwapWrite {P : State → Prop} (H : Closed P) (h : Fin 8) (k : Fin 8) (v : Word) (s : State) (keep_s : P s) : P (dpdSwapWrite h k v s) := by
  unfold dpdSwapWrite
  try dsimp only
  repeat' first
    | with_reducible assumption
    | with_reducible apply keeps_State_put H
    | with_reducible refine ite_keeps (fun _ => ?_) (fun _ => ?_)
    | with_reducible refine foldl_keeps (fun _ _ _ => ?_) ?_
    | with_reducible refine dite_keeps (fun _ => ?_) (fun _ => ?_)
    | with_reducible refine ite_fst (fun _ => ?_) (fun _ => ?_)
    | with_reducible refine ite_snd (fun _ => ?_) (fun _ => ?_)
    | with_reducible refine ite_snd2 (fun _ => ?_) (fun _ => ?_)
    | with_reducible refine ite_snd3 (fun _ => ?_) (fun _ => ?_)
    | with_reducible refine foldl_fst (fun _ _ _ => ?_) ?_
    | with_reducible refine foldl_snd (fun _ _ _ => ?_) ?_
    | with_reducible refine snd_of_eq (by assumption) ?_
    | with_reducible refine fst_of_eq (by assumption) ?_
    | with_reducible refine snd2_of_eq (by assumption) ?_
    | with_reducible intro _ _
    | with_reducible intro _ _ _
    | split
    | dsimp only
    | with_reducible apply H.mk'

theorem keeps_execDpdSwapRequest {P : State → Prop} (H : Closed P) (r : Req) (h : Fin 8) (k : Fin 8) (v : Word) (s : State) (keep_s : P s) : ∀ s1, (execDpdSwapRequest r h k v s) = .next s1 → P s1 := by
  unfold execDpdSwapRequest
  refine next_keeps ?_
  try dsimp only
  repeat' first
    | with_reducible assumption
    | with_reducible apply keeps_regCmd H
    | with_reducible apply keeps_dpdSwapWrite H

theorem keeps_fadeStart {P : State → Prop} (H : Closed P) (h : Fin 8) (k : Fin 8) (xf : ℕ) (late : Bool) (s : State) (keep_s : P s) : P (fadeStart h k xf late s) := by
  unfold fadeStart
  try dsimp only
  repeat' first
    | with_reducible assumption
    | with_reducible apply keeps_State_put H
    | with_reducible apply keeps_State_notify H
    | with_reducible refine ite_keeps (fun _ => ?_) (fun _ => ?_)
    | with_reducible refine foldl_keeps (fun _ _ _ => ?_) ?_
    | with_reducible refine dite_keeps (fun _ => ?_) (fun _ => ?_)
    | with_reducible refine ite_fst (fun _ => ?_) (fun _ => ?_)
    | with_reducible refine ite_snd (fun _ => ?_) (fun _ => ?_)
    | with_reducible refine ite_snd2 (fun _ => ?_) (fun _ => ?_)
    | with_reducible refine ite_snd3 (fun _ => ?_) (fun _ => ?_)
    | with_reducible refine foldl_fst (fun _ _ _ => ?_) ?_
    | with_reducible refine foldl_snd (fun _ _ _ => ?_) ?_
    | with_reducible refine snd_of_eq (by assumption) ?_
    | with_reducible refine fst_of_eq (by assumption) ?_
    | with_reducible refine snd2_of_eq (by assumption) ?_
    | with_reducible intro _ _
    | with_reducible intro _ _ _
    | split
    | dsimp only
    | with_reducible apply H.mk'

theorem keeps_execDpdFadeStart {P : State → Prop} (H : Closed P) (h : Fin 8) (k : Fin 8) (late : Bool) (s : State) (keep_s : P s) : ∀ s1, (execDpdFadeStart h k late s) = .next s1 → P s1 := by
  unfold execDpdFadeStart
  refine next_keeps ?_
  try dsimp only
  repeat' first
    | with_reducible assumption
    | with_reducible apply keeps_fadeStart H
    | with_reducible apply keeps_State_at H
    | with_reducible refine ite_keeps (fun _ => ?_) (fun _ => ?_)
    | with_reducible refine foldl_keeps (fun _ _ _ => ?_) ?_
    | with_reducible refine dite_keeps (fun _ => ?_) (fun _ => ?_)
    | with_reducible refine ite_fst (fun _ => ?_) (fun _ => ?_)
    | with_reducible refine ite_snd (fun _ => ?_) (fun _ => ?_)
    | with_reducible refine ite_snd2 (fun _ => ?_) (fun _ => ?_)
    | with_reducible refine ite_snd3 (fun _ => ?_) (fun _ => ?_)
    | with_reducible refine foldl_fst (fun _ _ _ => ?_) ?_
    | with_reducible refine foldl_snd (fun _ _ _ => ?_) ?_
    | with_reducible refine snd_of_eq (by assumption) ?_
    | with_reducible refine fst_of_eq (by assumption) ?_
    | with_reducible refine snd2_of_eq (by assumption) ?_
    | with_reducible intro _ _
    | with_reducible intro _ _ _
    | split

theorem keeps_releaseHeld {P : State → Prop} (H : Closed P) (h : Fin 8) (k : Fin 8) (s : State) (keep_s : P s) : P (releaseHeld h k s) := by
  unfold releaseHeld
  try dsimp only
  repeat' first
    | with_reducible assumption
    | with_reducible apply keeps_State_put H
    | with_reducible apply keeps_fadeStart H
    | with_reducible refine ite_keeps (fun _ => ?_) (fun _ => ?_)
    | with_reducible refine foldl_keeps (fun _ _ _ => ?_) ?_
    | with_reducible refine dite_keeps (fun _ => ?_) (fun _ => ?_)
    | with_reducible refine ite_fst (fun _ => ?_) (fun _ => ?_)
    | with_reducible refine ite_snd (fun _ => ?_) (fun _ => ?_)
    | with_reducible refine ite_snd2 (fun _ => ?_) (fun _ => ?_)
    | with_reducible refine ite_snd3 (fun _ => ?_) (fun _ => ?_)
    | with_reducible refine foldl_fst (fun _ _ _ => ?_) ?_
    | with_reducible refine foldl_snd (fun _ _ _ => ?_) ?_
    | with_reducible refine snd_of_eq (by assumption) ?_
    | with_reducible refine fst_of_eq (by assumption) ?_
    | with_reducible refine snd2_of_eq (by assumption) ?_
    | with_reducible intro _ _
    | with_reducible intro _ _ _
    | split
    | dsimp only
    | with_reducible apply H.mk'

theorem keeps_execDpdFadeEnd {P : State → Prop} (H : Closed P) (h : Fin 8) (k : Fin 8) (s : State) (keep_s : P s) : ∀ s1, (execDpdFadeEnd h k s) = .next s1 → P s1 := by
  unfold execDpdFadeEnd
  refine next_keeps ?_
  try dsimp only
  repeat' first
    | with_reducible assumption
    | with_reducible apply keeps_State_put H
    | with_reducible apply keeps_State_at H
    | with_reducible apply keeps_releaseHeld H
    | with_reducible apply keeps_State_notify H
    | with_reducible refine ite_keeps (fun _ => ?_) (fun _ => ?_)
    | with_reducible refine foldl_keeps (fun _ _ _ => ?_) ?_
    | with_reducible refine dite_keeps (fun _ => ?_) (fun _ => ?_)
    | with_reducible refine ite_fst (fun _ => ?_) (fun _ => ?_)
    | with_reducible refine ite_snd (fun _ => ?_) (fun _ => ?_)
    | with_reducible refine ite_snd2 (fun _ => ?_) (fun _ => ?_)
    | with_reducible refine ite_snd3 (fun _ => ?_) (fun _ => ?_)
    | with_reducible refine foldl_fst (fun _ _ _ => ?_) ?_
    | with_reducible refine foldl_snd (fun _ _ _ => ?_) ?_
    | with_reducible refine snd_of_eq (by assumption) ?_
    | with_reducible refine fst_of_eq (by assumption) ?_
    | with_reducible refine snd2_of_eq (by assumption) ?_
    | with_reducible intro _ _
    | with_reducible intro _ _ _
    | split
    | dsimp only
    | with_reducible apply H.mk'

theorem keeps_dpdCoefWrite {P : State → Prop} (H : Closed P) (r : Req) (h : Fin 8) (a : ℕ) (v : Word) (s : State) (keep_s : P s) : P (dpdCoefWrite r h a v s) := by
  unfold dpdCoefWrite
  try dsimp only
  repeat' first
    | with_reducible assumption
    | with_reducible apply keeps_State_refuse4 H
    | with_reducible apply keeps_State_put H
    | with_reducible apply keeps_State_storeReg H
    | with_reducible refine ite_keeps (fun _ => ?_) (fun _ => ?_)

theorem keeps_halfSetWrite {P : State → Prop} (H : Closed P) (r : Req) (h : Fin 8) (a : ℕ) (v : Word) (s : State) (keep_s : P s) : P (halfSetWrite r h a v s) := by
  unfold halfSetWrite
  try dsimp only
  repeat' first
    | with_reducible assumption
    | with_reducible apply keeps_State_storeReg H
    | with_reducible apply keeps_State_loseUnit H
    | with_reducible refine ite_keeps (fun _ => ?_) (fun _ => ?_)
    | with_reducible refine foldl_keeps (fun _ _ _ => ?_) ?_
    | with_reducible refine dite_keeps (fun _ => ?_) (fun _ => ?_)
    | with_reducible refine ite_fst (fun _ => ?_) (fun _ => ?_)
    | with_reducible refine ite_snd (fun _ => ?_) (fun _ => ?_)
    | with_reducible refine ite_snd2 (fun _ => ?_) (fun _ => ?_)
    | with_reducible refine ite_snd3 (fun _ => ?_) (fun _ => ?_)
    | with_reducible refine foldl_fst (fun _ _ _ => ?_) ?_
    | with_reducible refine foldl_snd (fun _ _ _ => ?_) ?_
    | with_reducible refine snd_of_eq (by assumption) ?_
    | with_reducible refine fst_of_eq (by assumption) ?_
    | with_reducible refine snd2_of_eq (by assumption) ?_
    | with_reducible intro _ _
    | with_reducible intro _ _ _
    | split
    | dsimp only
    | with_reducible apply H.mk'

theorem keeps_pathWrite {P : State → Prop} (H : Closed P) (r : Req) (h : Fin 8) (k : Fin 8) (v : Word) (s : State) (keep_s : P s) : P (pathWrite r h k v s) := by
  unfold pathWrite
  try dsimp only
  repeat' first
    | with_reducible assumption
    | with_reducible apply keeps_halfSetWrite H
    | with_reducible refine ite_keeps (fun _ => ?_) (fun _ => ?_)
    | with_reducible refine foldl_keeps (fun _ _ _ => ?_) ?_
    | with_reducible refine dite_keeps (fun _ => ?_) (fun _ => ?_)
    | with_reducible refine ite_fst (fun _ => ?_) (fun _ => ?_)
    | with_reducible refine ite_snd (fun _ => ?_) (fun _ => ?_)
    | with_reducible refine ite_snd2 (fun _ => ?_) (fun _ => ?_)
    | with_reducible refine ite_snd3 (fun _ => ?_) (fun _ => ?_)
    | with_reducible refine foldl_fst (fun _ _ _ => ?_) ?_
    | with_reducible refine foldl_snd (fun _ _ _ => ?_) ?_
    | with_reducible refine snd_of_eq (by assumption) ?_
    | with_reducible refine fst_of_eq (by assumption) ?_
    | with_reducible refine snd2_of_eq (by assumption) ?_
    | with_reducible intro _ _
    | with_reducible intro _ _ _
    | split
    | dsimp only
    | with_reducible apply H.mk'

theorem keeps_takeCal {P : State → Prop} (H : Closed P) (h : Fin 8) (d : ℕ) (s : State) (keep_s : P s) : P (takeCal h d s) := by
  unfold takeCal
  try dsimp only
  repeat' first
    | with_reducible assumption
    | with_reducible refine ite_keeps (fun _ => ?_) (fun _ => ?_)
    | with_reducible refine foldl_keeps (fun _ _ _ => ?_) ?_
    | with_reducible refine dite_keeps (fun _ => ?_) (fun _ => ?_)
    | with_reducible refine ite_fst (fun _ => ?_) (fun _ => ?_)
    | with_reducible refine ite_snd (fun _ => ?_) (fun _ => ?_)
    | with_reducible refine ite_snd2 (fun _ => ?_) (fun _ => ?_)
    | with_reducible refine ite_snd3 (fun _ => ?_) (fun _ => ?_)
    | with_reducible refine foldl_fst (fun _ _ _ => ?_) ?_
    | with_reducible refine foldl_snd (fun _ _ _ => ?_) ?_
    | with_reducible refine snd_of_eq (by assumption) ?_
    | with_reducible refine fst_of_eq (by assumption) ?_
    | with_reducible refine snd2_of_eq (by assumption) ?_
    | with_reducible intro _ _
    | with_reducible intro _ _ _
    | split
    | dsimp only
    | with_reducible apply H.mk'

theorem keeps_takeBackoff {P : State → Prop} (H : Closed P) (h : Fin 8) (d : ℕ) (s : State) (keep_s : P s) : P (takeBackoff h d s) := by
  unfold takeBackoff
  try dsimp only
  repeat' first
    | with_reducible assumption
    | with_reducible refine ite_keeps (fun _ => ?_) (fun _ => ?_)
    | with_reducible refine foldl_keeps (fun _ _ _ => ?_) ?_
    | with_reducible refine dite_keeps (fun _ => ?_) (fun _ => ?_)
    | with_reducible refine ite_fst (fun _ => ?_) (fun _ => ?_)
    | with_reducible refine ite_snd (fun _ => ?_) (fun _ => ?_)
    | with_reducible refine ite_snd2 (fun _ => ?_) (fun _ => ?_)
    | with_reducible refine ite_snd3 (fun _ => ?_) (fun _ => ?_)
    | with_reducible refine foldl_fst (fun _ _ _ => ?_) ?_
    | with_reducible refine foldl_snd (fun _ _ _ => ?_) ?_
    | with_reducible refine snd_of_eq (by assumption) ?_
    | with_reducible refine fst_of_eq (by assumption) ?_
    | with_reducible refine snd2_of_eq (by assumption) ?_
    | with_reducible intro _ _
    | with_reducible intro _ _ _
    | split
    | dsimp only
    | with_reducible apply H.mk'

theorem keeps_execHalfSubframeSettings {P : State → Prop} (H : Closed P) (h : Fin 8) (s : State) (keep_s : P s) : ∀ s1, (execHalfSubframeSettings h s) = .next s1 → P s1 := by
  unfold execHalfSubframeSettings
  refine next_keeps ?_
  try dsimp only
  repeat' first
    | with_reducible assumption
    | with_reducible apply keeps_State_ewr H
    | with_reducible apply keeps_State_keepWas H
    | with_reducible apply keeps_State_at H
    | with_reducible apply keeps_takeBackoff H
    | with_reducible apply keeps_takeCal H
    | with_reducible refine ite_keeps (fun _ => ?_) (fun _ => ?_)
    | with_reducible refine foldl_keeps (fun _ _ _ => ?_) ?_
    | with_reducible refine dite_keeps (fun _ => ?_) (fun _ => ?_)
    | with_reducible refine ite_fst (fun _ => ?_) (fun _ => ?_)
    | with_reducible refine ite_snd (fun _ => ?_) (fun _ => ?_)
    | with_reducible refine ite_snd2 (fun _ => ?_) (fun _ => ?_)
    | with_reducible refine ite_snd3 (fun _ => ?_) (fun _ => ?_)
    | with_reducible refine foldl_fst (fun _ _ _ => ?_) ?_
    | with_reducible refine foldl_snd (fun _ _ _ => ?_) ?_
    | with_reducible refine snd_of_eq (by assumption) ?_
    | with_reducible refine fst_of_eq (by assumption) ?_
    | with_reducible refine snd2_of_eq (by assumption) ?_
    | with_reducible intro _ _
    | with_reducible intro _ _ _
    | split
    | dsimp only
    | with_reducible apply H.mk'

theorem keeps_muteReached {P : State → Prop} (H : Closed P) (h : Fin 8) (k : Fin 8) (s : State) (keep_s : P s) : P (muteReached h k s) := by
  unfold muteReached
  try dsimp only
  repeat' first
    | with_reducible assumption
    | with_reducible apply keeps_State_setBit H
    | with_reducible apply keeps_State_loseUnit H
    | with_reducible apply keeps_State_clrBit H
    | with_reducible refine ite_keeps (fun _ => ?_) (fun _ => ?_)
    | with_reducible refine foldl_keeps (fun _ _ _ => ?_) ?_
    | with_reducible refine dite_keeps (fun _ => ?_) (fun _ => ?_)
    | with_reducible refine ite_fst (fun _ => ?_) (fun _ => ?_)
    | with_reducible refine ite_snd (fun _ => ?_) (fun _ => ?_)
    | with_reducible refine ite_snd2 (fun _ => ?_) (fun _ => ?_)
    | with_reducible refine ite_snd3 (fun _ => ?_) (fun _ => ?_)
    | with_reducible refine foldl_fst (fun _ _ _ => ?_) ?_
    | with_reducible refine foldl_snd (fun _ _ _ => ?_) ?_
    | with_reducible refine snd_of_eq (by assumption) ?_
    | with_reducible refine fst_of_eq (by assumption) ?_
    | with_reducible refine snd2_of_eq (by assumption) ?_
    | with_reducible intro _ _
    | with_reducible intro _ _ _
    | split
    | dsimp only
    | with_reducible apply H.mk'

theorem keeps_rampNow {P : State → Prop} (H : Closed P) (h : Fin 8) (k : Fin 8) (d : ℕ) (s : State) (keep_s : P s) : P (rampNow h k d s) := by
  unfold rampNow
  try dsimp only
  repeat' first
    | with_reducible assumption
    | with_reducible apply keeps_muteReached H
    | with_reducible apply keeps_State_loseUnit H
    | with_reducible apply keeps_State_clrBit H
    | with_reducible refine ite_keeps (fun _ => ?_) (fun _ => ?_)
    | with_reducible refine foldl_keeps (fun _ _ _ => ?_) ?_
    | with_reducible refine dite_keeps (fun _ => ?_) (fun _ => ?_)
    | with_reducible refine ite_fst (fun _ => ?_) (fun _ => ?_)
    | with_reducible refine ite_snd (fun _ => ?_) (fun _ => ?_)
    | with_reducible refine ite_snd2 (fun _ => ?_) (fun _ => ?_)
    | with_reducible refine ite_snd3 (fun _ => ?_) (fun _ => ?_)
    | with_reducible refine foldl_fst (fun _ _ _ => ?_) ?_
    | with_reducible refine foldl_snd (fun _ _ _ => ?_) ?_
    | with_reducible refine snd_of_eq (by assumption) ?_
    | with_reducible refine fst_of_eq (by assumption) ?_
    | with_reducible refine snd2_of_eq (by assumption) ?_
    | with_reducible intro _ _
    | with_reducible intro _ _ _
    | split
    | dsimp only
    | with_reducible apply H.mk'

theorem keeps_execMuteRampStart {P : State → Prop} (H : Closed P) (h : Fin 8) (k : Fin 8) (s : State) (keep_s : P s) : ∀ s1, (execMuteRampStart h k s) = .next s1 → P s1 := by
  unfold execMuteRampStart
  refine next_keeps ?_
  try dsimp only
  repeat' first
    | with_reducible assumption
    | with_reducible apply keeps_rampNow H
    | with_reducible apply keeps_State_at H
    | with_reducible refine ite_keeps (fun _ => ?_) (fun _ => ?_)
    | with_reducible refine foldl_keeps (fun _ _ _ => ?_) ?_
    | with_reducible refine dite_keeps (fun _ => ?_) (fun _ => ?_)
    | with_reducible refine ite_fst (fun _ => ?_) (fun _ => ?_)
    | with_reducible refine ite_snd (fun _ => ?_) (fun _ => ?_)
    | with_reducible refine ite_snd2 (fun _ => ?_) (fun _ => ?_)
    | with_reducible refine ite_snd3 (fun _ => ?_) (fun _ => ?_)
    | with_reducible refine foldl_fst (fun _ _ _ => ?_) ?_
    | with_reducible refine foldl_snd (fun _ _ _ => ?_) ?_
    | with_reducible refine snd_of_eq (by assumption) ?_
    | with_reducible refine fst_of_eq (by assumption) ?_
    | with_reducible refine snd2_of_eq (by assumption) ?_
    | with_reducible intro _ _
    | with_reducible intro _ _ _
    | split
    | dsimp only
    | with_reducible apply H.mk'

theorem keeps_execMuteRampEnd {P : State → Prop} (H : Closed P) (h : Fin 8) (k : Fin 8) (s : State) (keep_s : P s) : ∀ s1, (execMuteRampEnd h k s) = .next s1 → P s1 := by
  unfold execMuteRampEnd
  refine next_keeps ?_
  try dsimp only
  repeat' first
    | with_reducible assumption
    | with_reducible apply keeps_muteReached H
    | with_reducible apply keeps_State_at H
    | with_reducible refine ite_keeps (fun _ => ?_) (fun _ => ?_)

theorem keeps_execSafetyRamp {P : State → Prop} (H : Closed P) (h : Fin 8) (t : ℕ) (s : State) (keep_s : P s) : ∀ s1, (execSafetyRamp h t s) = .next s1 → P s1 := by
  unfold execSafetyRamp
  refine next_keeps ?_
  try dsimp only
  repeat' first
    | with_reducible assumption
    | with_reducible apply keeps_State_safetyRamp H
    | with_reducible apply keeps_State_at H
    | with_reducible refine ite_keeps (fun _ => ?_) (fun _ => ?_)

theorem keeps_execSafetyRampEnd {P : State → Prop} (H : Closed P) (h : Fin 8) (s : State) (keep_s : P s) : ∀ s1, (execSafetyRampEnd h s) = .next s1 → P s1 := by
  unfold execSafetyRampEnd
  refine next_keeps ?_
  try dsimp only
  repeat' first
    | with_reducible assumption
    | with_reducible apply keeps_muteReached H
    | with_reducible apply keeps_State_put H
    | with_reducible apply keeps_State_at H
    | with_reducible refine ite_keeps (fun _ => ?_) (fun _ => ?_)
    | with_reducible refine foldl_keeps (fun _ _ _ => ?_) ?_
    | with_reducible refine dite_keeps (fun _ => ?_) (fun _ => ?_)
    | with_reducible refine ite_fst (fun _ => ?_) (fun _ => ?_)
    | with_reducible refine ite_snd (fun _ => ?_) (fun _ => ?_)
    | with_reducible refine ite_snd2 (fun _ => ?_) (fun _ => ?_)
    | with_reducible refine ite_snd3 (fun _ => ?_) (fun _ => ?_)
    | with_reducible refine foldl_fst (fun _ _ _ => ?_) ?_
    | with_reducible refine foldl_snd (fun _ _ _ => ?_) ?_
    | with_reducible refine snd_of_eq (by assumption) ?_
    | with_reducible refine fst_of_eq (by assumption) ?_
    | with_reducible refine snd2_of_eq (by assumption) ?_
    | with_reducible intro _ _
    | with_reducible intro _ _ _
    | split
    | dsimp only
    | with_reducible apply H.mk'

theorem keeps_execDacClockGate {P : State → Prop} (H : Closed P) (h : Fin 8) (s : State) (keep_s : P s) : ∀ s1, (execDacClockGate h s) = .next s1 → P s1 := by
  unfold execDacClockGate
  refine next_keeps ?_
  try dsimp only
  repeat' first
    | with_reducible assumption
    | with_reducible apply keeps_State_at H
    | with_reducible refine ite_keeps (fun _ => ?_) (fun _ => ?_)
    | with_reducible refine foldl_keeps (fun _ _ _ => ?_) ?_
    | with_reducible refine dite_keeps (fun _ => ?_) (fun _ => ?_)
    | with_reducible refine ite_fst (fun _ => ?_) (fun _ => ?_)
    | with_reducible refine ite_snd (fun _ => ?_) (fun _ => ?_)
    | with_reducible refine ite_snd2 (fun _ => ?_) (fun _ => ?_)
    | with_reducible refine ite_snd3 (fun _ => ?_) (fun _ => ?_)
    | with_reducible refine foldl_fst (fun _ _ _ => ?_) ?_
    | with_reducible refine foldl_snd (fun _ _ _ => ?_) ?_
    | with_reducible refine snd_of_eq (by assumption) ?_
    | with_reducible refine fst_of_eq (by assumption) ?_
    | with_reducible refine snd2_of_eq (by assumption) ?_
    | with_reducible intro _ _
    | with_reducible intro _ _ _
    | split
    | dsimp only
    | with_reducible apply H.mk'

theorem keeps_execTxDataResume {P : State → Prop} (H : Closed P) (h : Fin 8) (s : State) (keep_s : P s) : ∀ s1, (execTxDataResume h s) = .next s1 → P s1 := by
  unfold execTxDataResume
  refine next_keeps ?_
  try dsimp only
  repeat' first
    | with_reducible assumption
    | with_reducible apply keeps_State_put H
    | with_reducible apply keeps_State_countTx H
    | with_reducible apply keeps_State_txRun H
    | with_reducible apply keeps_State_at H
    | with_reducible refine ite_keeps (fun _ => ?_) (fun _ => ?_)
    | with_reducible refine foldl_keeps (fun _ _ _ => ?_) ?_
    | with_reducible refine dite_keeps (fun _ => ?_) (fun _ => ?_)
    | with_reducible refine ite_fst (fun _ => ?_) (fun _ => ?_)
    | with_reducible refine ite_snd (fun _ => ?_) (fun _ => ?_)
    | with_reducible refine ite_snd2 (fun _ => ?_) (fun _ => ?_)
    | with_reducible refine ite_snd3 (fun _ => ?_) (fun _ => ?_)
    | with_reducible refine foldl_fst (fun _ _ _ => ?_) ?_
    | with_reducible refine foldl_snd (fun _ _ _ => ?_) ?_
    | with_reducible refine snd_of_eq (by assumption) ?_
    | with_reducible refine fst_of_eq (by assumption) ?_
    | with_reducible refine snd2_of_eq (by assumption) ?_
    | with_reducible intro _ _
    | with_reducible intro _ _ _
    | split
    | dsimp only
    | with_reducible apply H.mk'

end Sys2Proof.Machine
end

