-- ==== Sys2Proof/Laws/KeepsRxChain.lean ====
section
/-!
SUPPORT. Closed predicates are kept by every operation of these files.
-/

namespace Sys2Proof.Machine

theorem keeps_State_under {P : State → Prop} (H : Closed P) (s : State) (was : RegFile) (keep_s : P s) : P (State.under s was) := by
  exact H.under s was keep_s

theorem keeps_State_settingsOf {P : State → Prop} (H : Closed P) (t : State) (s : State) (keep_t : P t) (keep_s : P s) : P (State.settingsOf t s) := by
  exact H.settingsOf s t keep_s keep_t

theorem keeps_State_asAt {P : State → Prop} (H : Closed P) (s : State) (t : ℕ) (keep_s : P s) : P (State.asAt s t) := by
  unfold State.asAt
  try dsimp only
  repeat' first
    | with_reducible assumption
    | with_reducible apply keeps_State_under H
    | with_reducible refine ite_keeps (fun _ => ?_) (fun _ => ?_)
    | with_reducible refine foldl_keeps (fun _ _ _ => ?_) ?_
    | with_reducible refine dite_keeps (fun _ => ?_) (fun _ => ?_)
    | with_reducible refine ite_fst (fun _ => ?_) (fun _ => ?_)
    | with_reducible refine ite_snd (fun _ => ?_) (fun _ => ?_)
    | with_reducible refine ite_snd2 (fun _ => ?_) (fun _ => ?_)
    | with_reducible refine ite_snd3 (fun _ => ?_) (fun _ => ?_)
    | with_reducible refine foldl_fst (fun _ _ _ => ?_) ?_
    | with_reducible refine foldl_snd (fun _ _ _ => ?_) ?_
    | with_reducible refine snd_of_eq (by assumption) ?_
    | with_reducible refine fst_of_eq (by assumption) ?_
    | with_reducible refine snd2_of_eq (by assumption) ?_
    | with_reducible intro _ _
    | with_reducible intro _ _ _
    | split

theorem keeps_State_symView {P : State → Prop} (H : Closed P) (s : State) (car : ℕ) (y : SymId) (keep_s : P s) : P (State.symView s car y) := by
  unfold State.symView
  try dsimp only
  repeat' first
    | with_reducible assumption
    | with_reducible apply keeps_State_under H
    | with_reducible refine ite_keeps (fun _ => ?_) (fun _ => ?_)
    | with_reducible refine foldl_keeps (fun _ _ _ => ?_) ?_
    | with_reducible refine dite_keeps (fun _ => ?_) (fun _ => ?_)
    | with_reducible refine ite_fst (fun _ => ?_) (fun _ => ?_)
    | with_reducible refine ite_snd (fun _ => ?_) (fun _ => ?_)
    | with_reducible refine ite_snd2 (fun _ => ?_) (fun _ => ?_)
    | with_reducible refine ite_snd3 (fun _ => ?_) (fun _ => ?_)
    | with_reducible refine foldl_fst (fun _ _ _ => ?_) ?_
    | with_reducible refine foldl_snd (fun _ _ _ => ?_) ?_
    | with_reducible refine snd_of_eq (by assumption) ?_
    | with_reducible refine fst_of_eq (by assumption) ?_
    | with_reducible refine snd2_of_eq (by assumption) ?_
    | with_reducible intro _ _
    | with_reducible intro _ _ _
    | split

end Sys2Proof.Machine
end

