-- ==== Sys2Proof/Laws/KeepsRx.lean ====
section
/-!
SUPPORT. Closed predicates are kept by every operation of these files.
-/

namespace Sys2Proof.Machine

theorem keeps_execRxOverrange {P : State → Prop} (H : Closed P) (h : Fin 8) (k : Fin 8) (t0 : ℕ) (n : ℕ) (peak : ℕ) (s : State) (keep_s : P s) : ∀ s1, (execRxOverrange h k t0 n peak s) = .next s1 → P s1 := by
  unfold execRxOverrange
  refine next_keeps ?_
  try dsimp only
  repeat' first
    | with_reducible assumption
    | with_reducible apply keeps_State_at H
    | with_reducible apply keeps_State_put H
    | with_reducible apply keeps_State_setBit H
    | with_reducible apply keeps_State_add H
    | with_reducible apply keeps_State_raise H
    | with_reducible refine ite_keeps (fun _ => ?_) (fun _ => ?_)
    | with_reducible refine foldl_keeps (fun _ _ _ => ?_) ?_
    | with_reducible refine dite_keeps (fun _ => ?_) (fun _ => ?_)
    | with_reducible refine ite_fst (fun _ => ?_) (fun _ => ?_)
    | with_reducible refine ite_snd (fun _ => ?_) (fun _ => ?_)
    | with_reducible refine ite_snd2 (fun _ => ?_) (fun _ => ?_)
    | with_reducible refine ite_snd3 (fun _ => ?_) (fun _ => ?_)
    | with_reducible refine foldl_fst (fun _ _ _ => ?_) ?_
    | with_reducible refine foldl_snd (fun _ _ _ => ?_) ?_
    | with_reducible refine snd_of_eq (by assumption) ?_
    | with_reducible refine fst_of_eq (by assumption) ?_
    | with_reducible refine snd2_of_eq (by assumption) ?_
    | with_reducible intro _ _
    | with_reducible intro _ _ _
    | split
    | dsimp only
    | with_reducible apply H.mk'

theorem keeps_sendUl {P : State → Prop} (H : Closed P) (flow : ℕ) (w0 : ℕ) (w1 : ℕ) (f : UlFlags) (blocks : List (List (ℤ × ℤ))) (s : State) (keep_s : P s) : P (sendUl flow w0 w1 f blocks s) := by
  unfold sendUl
  try dsimp only
  repeat' first
    | with_reducible assumption
    | with_reducible apply keeps_State_inc H
    | with_reducible apply keeps_State_sendIq H
    | with_reducible refine ite_keeps (fun _ => ?_) (fun _ => ?_)

theorem keeps_sendBeam {P : State → Prop} (H : Closed P) (flow : ℕ) (w0 : ℕ) (b : ℕ) (f : UlFlags) (prbs : List UlPrb) (s : State) (keep_s : P s) : P (sendBeam flow w0 b f prbs s) := by
  unfold sendBeam
  try dsimp only
  repeat' first
    | with_reducible assumption
    | with_reducible apply keeps_sendUl H
    | with_reducible apply keeps_State_add H
    | with_reducible refine ite_keeps (fun _ => ?_) (fun _ => ?_)
    | with_reducible refine foldl_keeps (fun _ _ _ => ?_) ?_

theorem keeps_sendElement {P : State → Prop} (H : Closed P) (flow : ℕ) (w0 : ℕ) (e : ℕ) (f : UlFlags) (prbs : List UlPrb) (s : State) (keep_s : P s) : P (sendElement flow w0 e f prbs s) := by
  unfold sendElement
  try dsimp only
  repeat' first
    | with_reducible assumption
    | with_reducible apply keeps_sendUl H
    | with_reducible refine ite_keeps (fun _ => ?_) (fun _ => ?_)
    | with_reducible refine foldl_keeps (fun _ _ _ => ?_) ?_

theorem keeps_rxSaturated {P : State → Prop} (H : Closed P) (h : Fin 8) (k : ℕ) (n : ℕ) (s : State) (keep_s : P s) : P (rxSaturated h k n s) := by
  unfold rxSaturated
  try dsimp only
  repeat' first
    | with_reducible assumption
    | with_reducible apply keeps_State_setBit H
    | with_reducible apply keeps_State_add H
    | with_reducible apply keeps_State_raise H
    | with_reducible refine ite_keeps (fun _ => ?_) (fun _ => ?_)

theorem keeps_rxRun {P : State → Prop} (H : Closed P) (u : RxSamples) (s : State) (keep_s : P s) : P (rxRun u s) := by
  unfold rxRun
  try dsimp only
  repeat' first
    | with_reducible assumption
    | with_reducible apply keeps_rxSaturated H
    | with_reducible refine ite_keeps (fun _ => ?_) (fun _ => ?_)
    | with_reducible refine foldl_keeps (fun _ _ _ => ?_) ?_
    | with_reducible refine dite_keeps (fun _ => ?_) (fun _ => ?_)
    | with_reducible refine ite_fst (fun _ => ?_) (fun _ => ?_)
    | with_reducible refine ite_snd (fun _ => ?_) (fun _ => ?_)
    | with_reducible refine ite_snd2 (fun _ => ?_) (fun _ => ?_)
    | with_reducible refine ite_snd3 (fun _ => ?_) (fun _ => ?_)
    | with_reducible refine foldl_fst (fun _ _ _ => ?_) ?_
    | with_reducible refine foldl_snd (fun _ _ _ => ?_) ?_
    | with_reducible refine snd_of_eq (by assumption) ?_
    | with_reducible refine fst_of_eq (by assumption) ?_
    | with_reducible refine snd2_of_eq (by assumption) ?_
    | with_reducible intro _ _
    | with_reducible intro _ _ _
    | split
    | dsimp only
    | with_reducible apply H.mk'

theorem keeps_rxSymbolSat {P : State → Prop} (H : Closed P) (u : RxSamples) (car : ℕ) (c : Car) (y : SymId) (air : ℕ) (s : State) (keep_s : P s) : P (rxSymbolSat u car c y air s) := by
  unfold rxSymbolSat
  try dsimp only
  repeat' first
    | with_reducible assumption
    | with_reducible apply keeps_rxSaturated H
    | with_reducible refine ite_keeps (fun _ => ?_) (fun _ => ?_)
    | with_reducible refine foldl_keeps (fun _ _ _ => ?_) ?_

theorem keeps_noteN {P : State → Prop} (H : Closed P) (n : ℕ) (mask : ℕ) (f : ℕ) (s : State) (keep_s : P s) : P (noteN n mask f s) := by
  unfold noteN
  try dsimp only
  repeat' first
    | with_reducible assumption
    | with_reducible apply keeps_State_put H
    | with_reducible apply keeps_State_notifyLink H
    | with_reducible refine ite_keeps (fun _ => ?_) (fun _ => ?_)
    | with_reducible refine foldl_keeps (fun _ _ _ => ?_) ?_
    | with_reducible refine dite_keeps (fun _ => ?_) (fun _ => ?_)
    | with_reducible refine ite_fst (fun _ => ?_) (fun _ => ?_)
    | with_reducible refine ite_snd (fun _ => ?_) (fun _ => ?_)
    | with_reducible refine ite_snd2 (fun _ => ?_) (fun _ => ?_)
    | with_reducible refine ite_snd3 (fun _ => ?_) (fun _ => ?_)
    | with_reducible refine foldl_fst (fun _ _ _ => ?_) ?_
    | with_reducible refine foldl_snd (fun _ _ _ => ?_) ?_
    | with_reducible refine snd_of_eq (by assumption) ?_
    | with_reducible refine fst_of_eq (by assumption) ?_
    | with_reducible refine snd2_of_eq (by assumption) ?_
    | with_reducible intro _ _
    | with_reducible intro _ _ _
    | split
    | dsimp only
    | with_reducible apply H.mk'

theorem keeps_sendBeams {P : State → Prop} (H : Closed P) (u : RxSamples) (car : ℕ) (c : Car) (y : SymId) (air : ℕ) (hs : List (Fin 8)) (unlk : Bool) (s : State) (keep_s : P s) : P (sendBeams u car c y air hs unlk s) := by
  unfold sendBeams
  try dsimp only
  repeat' first
    | with_reducible assumption
    | with_reducible apply keeps_noteN H
    | with_reducible apply keeps_State_add H
    | with_reducible apply keeps_noteWeights H
    | with_reducible apply keeps_sendBeam H
    | with_reducible refine ite_keeps (fun _ => ?_) (fun _ => ?_)
    | with_reducible refine foldl_keeps (fun _ _ _ => ?_) ?_

theorem keeps_sendElements {P : State → Prop} (H : Closed P) (u : RxSamples) (car : ℕ) (c : Car) (y : SymId) (air : ℕ) (hs : List (Fin 8)) (unlk : Bool) (s : State) (keep_s : P s) : P (sendElements u car c y air hs unlk s) := by
  unfold sendElements
  try dsimp only
  repeat' first
    | with_reducible assumption
    | with_reducible apply keeps_sendElement H
    | with_reducible refine ite_keeps (fun _ => ?_) (fun _ => ?_)
    | with_reducible refine foldl_keeps (fun _ _ _ => ?_) ?_

theorem keeps_combineNow {P : State → Prop} (H : Closed P) (car : ℕ) (y : SymId) (u : RxSamples) (complete : ℕ) (s : State) (keep_s : P s) : P (combineNow car y u complete s) := by
  unfold combineNow
  try dsimp only
  repeat' first
    | with_reducible assumption
    | with_reducible apply keeps_rxSymbolSat H
    | with_reducible apply keeps_wrongDir H
    | with_reducible apply keeps_State_add H
    | with_reducible apply keeps_sendElements H
    | with_reducible apply keeps_sendBeams H
    | with_reducible refine ite_keeps (fun _ => ?_) (fun _ => ?_)

theorem keeps_ulCombine {P : State → Prop} (H : Closed P) (car : ℕ) (y : SymId) (u : RxSamples) (complete : ℕ) (s : State) (keep_s : P s) : P (ulCombine car y u complete s) := by
  unfold ulCombine
  try dsimp only
  repeat' first
    | with_reducible assumption
    | with_reducible apply keeps_State_symView H
    | with_reducible apply keeps_rxRun H
    | with_reducible apply keeps_State_at H
    | with_reducible apply keeps_State_settingsOf H
    | with_reducible apply keeps_combineNow H

theorem keeps_execUlCombine {P : State → Prop} (H : Closed P) (car : Fin 8) (y : SymId) (u : UlInput) (s : State) (keep_s : P s) : ∀ s1, (execUlCombine car y u s) = .next s1 → P s1 := by
  unfold execUlCombine
  refine next_keeps ?_
  try dsimp only
  repeat' first
    | with_reducible assumption
    | with_reducible apply keeps_State_symView H
    | with_reducible apply keeps_ulCombine H
    | with_reducible refine ite_keeps (fun _ => ?_) (fun _ => ?_)

theorem keeps_praWrite {P : State → Prop} (H : Closed P) (r : Req) (a : ℕ) (v : Word) (s : State) (keep_s : P s) : P (praWrite r a v s) := by
  unfold praWrite
  try dsimp only
  repeat' first
    | with_reducible assumption
    | with_reducible apply keeps_State_storeReg H
    | with_reducible refine ite_keeps (fun _ => ?_) (fun _ => ?_)
    | with_reducible refine foldl_keeps (fun _ _ _ => ?_) ?_
    | with_reducible refine dite_keeps (fun _ => ?_) (fun _ => ?_)
    | with_reducible refine ite_fst (fun _ => ?_) (fun _ => ?_)
    | with_reducible refine ite_snd (fun _ => ?_) (fun _ => ?_)
    | with_reducible refine ite_snd2 (fun _ => ?_) (fun _ => ?_)
    | with_reducible refine ite_snd3 (fun _ => ?_) (fun _ => ?_)
    | with_reducible refine foldl_fst (fun _ _ _ => ?_) ?_
    | with_reducible refine foldl_snd (fun _ _ _ => ?_) ?_
    | with_reducible refine snd_of_eq (by assumption) ?_
    | with_reducible refine fst_of_eq (by assumption) ?_
    | with_reducible refine snd2_of_eq (by assumption) ?_
    | with_reducible intro _ _
    | with_reducible intro _ _ _
    | split
    | dsimp only
    | with_reducible apply H.mk'

theorem keeps_execPrachSettingsTakeEffect {P : State → Prop} (H : Closed P) (s : State) (keep_s : P s) : ∀ s1, (execPrachSettingsTakeEffect s) = .next s1 → P s1 := by
  unfold execPrachSettingsTakeEffect
  refine next_keeps ?_
  try dsimp only
  repeat' first
    | with_reducible assumption
    | with_reducible apply keeps_State_ewr H
    | with_reducible apply keeps_State_at H
    | with_reducible refine ite_keeps (fun _ => ?_) (fun _ => ?_)
    | with_reducible refine foldl_keeps (fun _ _ _ => ?_) ?_
    | with_reducible refine dite_keeps (fun _ => ?_) (fun _ => ?_)
    | with_reducible refine ite_fst (fun _ => ?_) (fun _ => ?_)
    | with_reducible refine ite_snd (fun _ => ?_) (fun _ => ?_)
    | with_reducible refine ite_snd2 (fun _ => ?_) (fun _ => ?_)
    | with_reducible refine ite_snd3 (fun _ => ?_) (fun _ => ?_)
    | with_reducible refine foldl_fst (fun _ _ _ => ?_) ?_
    | with_reducible refine foldl_snd (fun _ _ _ => ?_) ?_
    | with_reducible refine snd_of_eq (by assumption) ?_
    | with_reducible refine fst_of_eq (by assumption) ?_
    | with_reducible refine snd2_of_eq (by assumption) ?_
    | with_reducible intro _ _
    | with_reducible intro _ _ _
    | split
    | dsimp only
    | with_reducible apply H.mk'

theorem keeps_execPrachOccasionStart {P : State → Prop} (H : Closed P) (j : Fin 16) (frame : ℕ) (s : State) (keep_s : P s) : ∀ s1, (execPrachOccasionStart j frame s) = .next s1 → P s1 := by
  unfold execPrachOccasionStart
  refine next_keeps ?_
  try dsimp only
  repeat' first
    | with_reducible assumption
    | with_reducible apply keeps_State_inc H
    | with_reducible apply keeps_State_at H
    | with_reducible refine ite_keeps (fun _ => ?_) (fun _ => ?_)
    | with_reducible refine foldl_keeps (fun _ _ _ => ?_) ?_
    | with_reducible refine dite_keeps (fun _ => ?_) (fun _ => ?_)
    | with_reducible refine ite_fst (fun _ => ?_) (fun _ => ?_)
    | with_reducible refine ite_snd (fun _ => ?_) (fun _ => ?_)
    | with_reducible refine ite_snd2 (fun _ => ?_) (fun _ => ?_)
    | with_reducible refine ite_snd3 (fun _ => ?_) (fun _ => ?_)
    | with_reducible refine foldl_fst (fun _ _ _ => ?_) ?_
    | with_reducible refine foldl_snd (fun _ _ _ => ?_) ?_
    | with_reducible refine snd_of_eq (by assumption) ?_
    | with_reducible refine fst_of_eq (by assumption) ?_
    | with_reducible refine snd2_of_eq (by assumption) ?_
    | with_reducible intro _ _
    | with_reducible intro _ _ _
    | split
    | dsimp only
    | with_reducible apply H.mk'

theorem keeps_sendPrach {P : State → Prop} (H : Closed P) (x : Fin 4) (o : Occasion) (u : RxSamples) (m : ℕ) (beam : ℕ × ℕ) (s : State) (keep_s : P s) : P (sendPrach x o u m beam s) := by
  unfold sendPrach
  try dsimp only
  repeat' first
    | with_reducible assumption
    | with_reducible apply keeps_sendUl H
    | with_reducible apply keeps_State_add H

theorem keeps_praSaturated {P : State → Prop} (H : Closed P) (o : Occasion) (u : RxSamples) (m : ℕ) (s : State) (keep_s : P s) : P (praSaturated o u m s) := by
  unfold praSaturated
  try dsimp only
  repeat' first
    | with_reducible assumption
    | with_reducible apply keeps_rxSaturated H
    | with_reducible refine ite_keeps (fun _ => ?_) (fun _ => ?_)
    | with_reducible refine foldl_keeps (fun _ _ _ => ?_) ?_

theorem keeps_execPrachOccasionEnd {P : State → Prop} (H : Closed P) (x : Fin 4) (u : RxSamples) (s : State) (keep_s : P s) : ∀ s1, (execPrachOccasionEnd x u s) = .next s1 → P s1 := by
  unfold execPrachOccasionEnd
  refine next_keeps ?_
  try dsimp only
  repeat' first
    | with_reducible assumption
    | with_reducible apply keeps_rxRun H
    | with_reducible apply keeps_State_at H
    | with_reducible apply keeps_sendPrach H
    | with_reducible apply keeps_praSaturated H
    | with_reducible refine ite_keeps (fun _ => ?_) (fun _ => ?_)
    | with_reducible refine foldl_keeps (fun _ _ _ => ?_) ?_
    | with_reducible refine dite_keeps (fun _ => ?_) (fun _ => ?_)
    | with_reducible refine ite_fst (fun _ => ?_) (fun _ => ?_)
    | with_reducible refine ite_snd (fun _ => ?_) (fun _ => ?_)
    | with_reducible refine ite_snd2 (fun _ => ?_) (fun _ => ?_)
    | with_reducible refine ite_snd3 (fun _ => ?_) (fun _ => ?_)
    | with_reducible refine foldl_fst (fun _ _ _ => ?_) ?_
    | with_reducible refine foldl_snd (fun _ _ _ => ?_) ?_
    | with_reducible refine snd_of_eq (by assumption) ?_
    | with_reducible refine fst_of_eq (by assumption) ?_
    | with_reducible refine snd2_of_eq (by assumption) ?_
    | with_reducible intro _ _
    | with_reducible intro _ _ _
    | split
    | dsimp only
    | with_reducible apply H.mk'

theorem keeps_execRxContributionResume {P : State → Prop} (H : Closed P) (h : Fin 8) (s : State) (keep_s : P s) : ∀ s1, (execRxContributionResume h s) = .next s1 → P s1 := by
  unfold execRxContributionResume
  refine next_keeps ?_
  try dsimp only
  repeat' first
    | with_reducible assumption
    | with_reducible apply keeps_State_put H
    | with_reducible apply keeps_State_countRx H
    | with_reducible apply keeps_State_at H
    | with_reducible refine ite_keeps (fun _ => ?_) (fun _ => ?_)
    | with_reducible refine foldl_keeps (fun _ _ _ => ?_) ?_
    | with_reducible refine dite_keeps (fun _ => ?_) (fun _ => ?_)
    | with_reducible refine ite_fst (fun _ => ?_) (fun _ => ?_)
    | with_reducible refine ite_snd (fun _ => ?_) (fun _ => ?_)
    | with_reducible refine ite_snd2 (fun _ => ?_) (fun _ => ?_)
    | with_reducible refine ite_snd3 (fun _ => ?_) (fun _ => ?_)
    | with_reducible refine foldl_fst (fun _ _ _ => ?_) ?_
    | with_reducible refine foldl_snd (fun _ _ _ => ?_) ?_
    | with_reducible refine snd_of_eq (by assumption) ?_
    | with_reducible refine fst_of_eq (by assumption) ?_
    | with_reducible refine snd2_of_eq (by assumption) ?_
    | with_reducible intro _ _
    | with_reducible intro _ _ _
    | split
    | dsimp only
    | with_reducible apply H.mk'

end Sys2Proof.Machine
end

