-- ==== Sys2Proof/Laws/KeepsOrx.lean ====
section
/-!
SUPPORT. Closed predicates are kept by every operation of these files.
-/

namespace Sys2Proof.Machine

theorem keeps_State_setOrx {P : State → Prop} (H : Closed P) (s : State) (h : Fin 8) (o : Orx) (keep_s : P s) : P (State.setOrx s h o) := by
  unfold State.setOrx
  try dsimp only
  repeat' first
    | with_reducible assumption
    | with_reducible refine ite_keeps (fun _ => ?_) (fun _ => ?_)
    | with_reducible refine foldl_keeps (fun _ _ _ => ?_) ?_
    | with_reducible refine dite_keeps (fun _ => ?_) (fun _ => ?_)
    | with_reducible refine ite_fst (fun _ => ?_) (fun _ => ?_)
    | with_reducible refine ite_snd (fun _ => ?_) (fun _ => ?_)
    | with_reducible refine ite_snd2 (fun _ => ?_) (fun _ => ?_)
    | with_reducible refine ite_snd3 (fun _ => ?_) (fun _ => ?_)
    | with_reducible refine foldl_fst (fun _ _ _ => ?_) ?_
    | with_reducible refine foldl_snd (fun _ _ _ => ?_) ?_
    | with_reducible refine snd_of_eq (by assumption) ?_
    | with_reducible refine fst_of_eq (by assumption) ?_
    | with_reducible refine snd2_of_eq (by assumption) ?_
    | with_reducible intro _ _
    | with_reducible intro _ _ _
    | split
    | dsimp only
    | with_reducible apply H.mk'

theorem keeps_orxFree {P : State → Prop} (H : Closed P) (h : Fin 8) (code : ℕ) (s : State) (keep_s : P s) : P (orxFree h code s) := by
  unfold orxFree
  try dsimp only
  repeat' first
    | with_reducible assumption
    | with_reducible apply keeps_State_endCapture H
    | with_reducible apply keeps_State_put H
    | with_reducible apply keeps_State_releasePins H
    | with_reducible apply keeps_sweepLost H
    | with_reducible refine ite_keeps (fun _ => ?_) (fun _ => ?_)

theorem keeps_orxTake {P : State → Prop} (H : Closed P) (h : Fin 8) (owner : ℕ) (s : State) (keep_s : P s) : P (orxTake h owner s) := by
  unfold orxTake
  try dsimp only
  repeat' first
    | with_reducible assumption
    | with_reducible apply keeps_claimPins H
    | with_reducible apply keeps_State_put H
    | with_reducible apply keeps_State_inc H
    | with_reducible apply keeps_State_notifyReeve H
    | with_reducible apply keeps_sweepLost H
    | with_reducible refine ite_keeps (fun _ => ?_) (fun _ => ?_)

theorem keeps_orxClaimWrite {P : State → Prop} (H : Closed P) (r : Req) (h : Fin 8) (v : Word) (s : State) (keep_s : P s) : P (orxClaimWrite r h v s) := by
  unfold orxClaimWrite
  try dsimp only
  repeat' first
    | with_reducible assumption
    | with_reducible apply keeps_State_refuse4 H
    | with_reducible apply keeps_orxFree H
    | with_reducible apply keeps_orxTake H
    | with_reducible refine ite_keeps (fun _ => ?_) (fun _ => ?_)

theorem keeps_execOrxClaim {P : State → Prop} (H : Closed P) (r : Req) (h : Fin 8) (v : Word) (s : State) (keep_s : P s) : ∀ s1, (execOrxClaim r h v s) = .next s1 → P s1 := by
  unfold execOrxClaim
  refine next_keeps ?_
  try dsimp only
  repeat' first
    | with_reducible assumption
    | with_reducible apply keeps_regCmd H
    | with_reducible apply keeps_orxClaimWrite H

theorem keeps_execOrxRelease {P : State → Prop} (H : Closed P) (r : Req) (h : Fin 8) (v : Word) (s : State) (keep_s : P s) : ∀ s1, (execOrxRelease r h v s) = .next s1 → P s1 := by
  unfold execOrxRelease
  refine next_keeps ?_
  try dsimp only
  repeat' first
    | with_reducible assumption
    | with_reducible apply keeps_regCmd H
    | with_reducible apply keeps_orxClaimWrite H

theorem keeps_execOrxReady {P : State → Prop} (H : Closed P) (h : Fin 8) (t : ℕ) (s : State) (keep_s : P s) : ∀ s1, (execOrxReady h t s) = .next s1 → P s1 := by
  unfold execOrxReady
  refine next_keeps ?_
  try dsimp only
  repeat' first
    | with_reducible assumption
    | with_reducible apply keeps_State_put H
    | with_reducible apply keeps_State_at H
    | with_reducible refine ite_keeps (fun _ => ?_) (fun _ => ?_)

theorem keeps_orxNcoWrite {P : State → Prop} (H : Closed P) (r : Req) (h : Fin 8) (v : Word) (s : State) (keep_s : P s) : P (orxNcoWrite r h v s) := by
  unfold orxNcoWrite
  try dsimp only
  repeat' first
    | with_reducible assumption
    | with_reducible apply keeps_State_refuse4 H
    | with_reducible apply keeps_State_storeReg H
    | with_reducible apply keeps_State_put H
    | with_reducible apply keeps_State_eput H
    | with_reducible refine ite_keeps (fun _ => ?_) (fun _ => ?_)

theorem keeps_execOrxNcoWrite {P : State → Prop} (H : Closed P) (r : Req) (h : Fin 8) (v : Word) (s : State) (keep_s : P s) : ∀ s1, (execOrxNcoWrite r h v s) = .next s1 → P s1 := by
  unfold execOrxNcoWrite
  refine next_keeps ?_
  try dsimp only
  repeat' first
    | with_reducible assumption
    | with_reducible apply keeps_regCmd H
    | with_reducible apply keeps_orxNcoWrite H

theorem keeps_orxSwWrite {P : State → Prop} (H : Closed P) (r : Req) (h : Fin 8) (v : Word) (s : State) (keep_s : P s) : P (orxSwWrite r h v s) := by
  unfold orxSwWrite
  try dsimp only
  repeat' first
    | with_reducible assumption
    | with_reducible apply keeps_State_refuse4 H
    | with_reducible apply keeps_State_storeReg H
    | with_reducible refine ite_keeps (fun _ => ?_) (fun _ => ?_)

theorem keeps_takeRingLen {P : State → Prop} (H : Closed P) (h : Fin 8) (s : State) (keep_s : P s) : P (takeRingLen h s) := by
  unfold takeRingLen
  try dsimp only
  repeat' first
    | with_reducible assumption
    | with_reducible apply keeps_State_put H
    | with_reducible apply keeps_State_eput H
    | with_reducible apply keeps_State_setOrx H
    | with_reducible refine ite_keeps (fun _ => ?_) (fun _ => ?_)

theorem keeps_orxRingWrite {P : State → Prop} (H : Closed P) (r : Req) (h : Fin 8) (v : Word) (s : State) (keep_s : P s) : P (orxRingWrite r h v s) := by
  unfold orxRingWrite
  try dsimp only
  repeat' first
    | with_reducible assumption
    | with_reducible apply keeps_State_refuse4 H
    | with_reducible apply keeps_State_storeReg H
    | with_reducible apply keeps_State_put H
    | with_reducible apply keeps_takeRingLen H
    | with_reducible apply keeps_rejectBase H
    | with_reducible refine ite_keeps (fun _ => ?_) (fun _ => ?_)

theorem keeps_orxDfWrite {P : State → Prop} (H : Closed P) (r : Req) (h : Fin 8) (v : Word) (s : State) (keep_s : P s) : P (orxDfWrite r h v s) := by
  unfold orxDfWrite
  try dsimp only
  repeat' first
    | with_reducible assumption
    | with_reducible apply keeps_State_refuse4 H
    | with_reducible apply keeps_State_storeReg H
    | with_reducible refine ite_keeps (fun _ => ?_) (fun _ => ?_)

theorem keeps_orxTrigWrite {P : State → Prop} (H : Closed P) (h : Fin 8) (v : Word) (s : State) (keep_s : P s) : P (orxTrigWrite h v s) := by
  unfold orxTrigWrite
  try dsimp only
  repeat' first
    | with_reducible assumption
    | with_reducible apply keeps_State_endCapture H
    | with_reducible apply keeps_State_setOrx H
    | with_reducible refine ite_keeps (fun _ => ?_) (fun _ => ?_)

theorem keeps_execOrxTriggerGo {P : State → Prop} (H : Closed P) (r : Req) (h : Fin 8) (v : Word) (s : State) (keep_s : P s) : ∀ s1, (execOrxTriggerGo r h v s) = .next s1 → P s1 := by
  unfold execOrxTriggerGo
  refine next_keeps ?_
  try dsimp only
  repeat' first
    | with_reducible assumption
    | with_reducible apply keeps_regCmd H
    | with_reducible apply keeps_orxTrigWrite H

theorem keeps_execOrxStop {P : State → Prop} (H : Closed P) (r : Req) (h : Fin 8) (v : Word) (s : State) (keep_s : P s) : ∀ s1, (execOrxStop r h v s) = .next s1 → P s1 := by
  unfold execOrxStop
  refine next_keeps ?_
  try dsimp only
  repeat' first
    | with_reducible assumption
    | with_reducible apply keeps_regCmd H
    | with_reducible apply keeps_orxTrigWrite H

theorem keeps_takeDeepEn {P : State → Prop} (H : Closed P) (h : Fin 8) (s : State) (keep_s : P s) : P (takeDeepEn h s) := by
  unfold takeDeepEn
  try dsimp only
  repeat' first
    | with_reducible assumption
    | with_reducible apply keeps_State_eput H
    | with_reducible apply keeps_State_put H
    | with_reducible apply keeps_State_setOrx H
    | with_reducible refine ite_keeps (fun _ => ?_) (fun _ => ?_)

theorem keeps_nextGroup {P : State → Prop} (H : Closed P) (h : Fin 8) (s : State) (keep_s : P s) : P (nextGroup h s) := by
  unfold nextGroup
  try dsimp only
  repeat' first
    | with_reducible assumption
    | with_reducible apply keeps_State_setOrx H
    | with_reducible apply keeps_takeRingLen H
    | with_reducible refine ite_keeps (fun _ => ?_) (fun _ => ?_)

theorem keeps_dmaOverrun {P : State → Prop} (H : Closed P) (h : Fin 8) (c : Fin 8) (s : State) (keep_s : P s) : P (dmaOverrun h c s) := by
  unfold dmaOverrun
  try dsimp only
  repeat' first
    | with_reducible assumption
    | with_reducible apply keeps_State_put H
    | with_reducible apply keeps_State_inc H
    | with_reducible apply keeps_State_setDma H
    | with_reducible refine ite_keeps (fun _ => ?_) (fun _ => ?_)

theorem keeps_wroteGroup {P : State → Prop} (H : Closed P) (h : Fin 8) (s : State) (keep_s : P s) : P (wroteGroup h s) := by
  unfold wroteGroup
  try dsimp only
  repeat' first
    | with_reducible assumption
    | with_reducible apply keeps_State_setOrx H
    | with_reducible apply keeps_dmaOverrun H
    | with_reducible refine ite_keeps (fun _ => ?_) (fun _ => ?_)
    | with_reducible refine foldl_keeps (fun _ _ _ => ?_) ?_

theorem keeps_startCapture {P : State → Prop} (H : Closed P) (h : Fin 8) (n : ℕ) (s : State) (keep_s : P s) : P (startCapture h n s) := by
  unfold startCapture
  try dsimp only
  repeat' first
    | with_reducible assumption
    | with_reducible apply keeps_takeDeepEn H
    | with_reducible apply keeps_wroteGroup H
    | with_reducible apply keeps_nextGroup H
    | with_reducible apply keeps_State_drivePins H
    | with_reducible apply keeps_State_put H
    | with_reducible apply keeps_State_setOrx H
    | with_reducible refine ite_keeps (fun _ => ?_) (fun _ => ?_)

theorem keeps_execCaptureTrigger {P : State → Prop} (H : Closed P) (h : Fin 8) (s : State) (keep_s : P s) : ∀ s1, (execCaptureTrigger h s) = .next s1 → P s1 := by
  unfold execCaptureTrigger
  refine next_keeps ?_
  try dsimp only
  repeat' first
    | with_reducible assumption
    | with_reducible apply keeps_State_at H
    | with_reducible apply keeps_State_setOrx H
    | with_reducible apply keeps_startCapture H
    | with_reducible apply keeps_State_put H
    | with_reducible apply keeps_State_inc H
    | with_reducible refine ite_keeps (fun _ => ?_) (fun _ => ?_)
    | with_reducible refine foldl_keeps (fun _ _ _ => ?_) ?_
    | with_reducible refine dite_keeps (fun _ => ?_) (fun _ => ?_)
    | with_reducible refine ite_fst (fun _ => ?_) (fun _ => ?_)
    | with_reducible refine ite_snd (fun _ => ?_) (fun _ => ?_)
    | with_reducible refine ite_snd2 (fun _ => ?_) (fun _ => ?_)
    | with_reducible refine ite_snd3 (fun _ => ?_) (fun _ => ?_)
    | with_reducible refine foldl_fst (fun _ _ _ => ?_) ?_
    | with_reducible refine foldl_snd (fun _ _ _ => ?_) ?_
    | with_reducible refine snd_of_eq (by assumption) ?_
    | with_reducible refine fst_of_eq (by assumption) ?_
    | with_reducible refine snd2_of_eq (by assumption) ?_
    | with_reducible intro _ _
    | with_reducible intro _ _ _
    | split

theorem keeps_execCaptureSettled {P : State → Prop} (H : Closed P) (h : Fin 8) (s : State) (keep_s : P s) : ∀ s1, (execCaptureSettled h s) = .next s1 → P s1 := by
  unfold execCaptureSettled
  refine next_keeps ?_
  try dsimp only
  repeat' first
    | with_reducible assumption
    | with_reducible apply keeps_State_put H
    | with_reducible apply keeps_State_at H
    | with_reducible apply keeps_State_setOrx H
    | with_reducible refine ite_keeps (fun _ => ?_) (fun _ => ?_)
    | with_reducible refine foldl_keeps (fun _ _ _ => ?_) ?_
    | with_reducible refine dite_keeps (fun _ => ?_) (fun _ => ?_)
    | with_reducible refine ite_fst (fun _ => ?_) (fun _ => ?_)
    | with_reducible refine ite_snd (fun _ => ?_) (fun _ => ?_)
    | with_reducible refine ite_snd2 (fun _ => ?_) (fun _ => ?_)
    | with_reducible refine ite_snd3 (fun _ => ?_) (fun _ => ?_)
    | with_reducible refine foldl_fst (fun _ _ _ => ?_) ?_
    | with_reducible refine foldl_snd (fun _ _ _ => ?_) ?_
    | with_reducible refine snd_of_eq (by assumption) ?_
    | with_reducible refine fst_of_eq (by assumption) ?_
    | with_reducible refine snd2_of_eq (by assumption) ?_
    | with_reducible intro _ _
    | with_reducible intro _ _ _
    | split

theorem keeps_closeHalf {P : State → Prop} (H : Closed P) (h : Fin 8) (s : State) (keep_s : P s) : P (closeHalf h s) := by
  unfold closeHalf
  try dsimp only
  repeat' first
    | with_reducible assumption
    | with_reducible apply keeps_State_putLE H
    | with_reducible apply keeps_State_access H
    | with_reducible refine ite_keeps (fun _ => ?_) (fun _ => ?_)
    | with_reducible refine foldl_keeps (fun _ _ _ => ?_) ?_
    | with_reducible refine dite_keeps (fun _ => ?_) (fun _ => ?_)
    | with_reducible refine ite_fst (fun _ => ?_) (fun _ => ?_)
    | with_reducible refine ite_snd (fun _ => ?_) (fun _ => ?_)
    | with_reducible refine ite_snd2 (fun _ => ?_) (fun _ => ?_)
    | with_reducible refine ite_snd3 (fun _ => ?_) (fun _ => ?_)
    | with_reducible refine foldl_fst (fun _ _ _ => ?_) ?_
    | with_reducible refine foldl_snd (fun _ _ _ => ?_) ?_
    | with_reducible refine snd_of_eq (by assumption) ?_
    | with_reducible refine fst_of_eq (by assumption) ?_
    | with_reducible refine snd2_of_eq (by assumption) ?_
    | with_reducible intro _ _
    | with_reducible intro _ _ _
    | split

theorem keeps_writeGroup {P : State → Prop} (H : Closed P) (h : Fin 8) (g : CapGroup) (s : State) (keep_s : P s) : P (writeGroup h g s) := by
  unfold writeGroup
  try dsimp only
  repeat' first
    | with_reducible assumption
    | with_reducible apply keeps_State_setOrx H
    | with_reducible apply keeps_State_putLE H
    | with_reducible apply keeps_State_access H
    | with_reducible apply keeps_wroteGroup H
    | with_reducible apply keeps_closeHalf H
    | with_reducible refine ite_keeps (fun _ => ?_) (fun _ => ?_)

theorem keeps_drainGroups {P : State → Prop} (H : Closed P) (h : Fin 8) (x1 : List CapGroup) (x2 : State) (keep_x2 : P x2) : P (drainGroups h x1 x2) := by
  induction x1 generalizing x2 with
  | nil => exact keeps_State_setOrx H _ _ _ keep_x2
  | cons g t ih =>
    unfold drainGroups
    exact ite_keeps (fun _ => keeps_State_setOrx H _ _ _ (keeps_State_access H _ _ _ _ _ _ keep_x2)) (fun _ => ih _ (keeps_writeGroup H _ _ _ keep_x2))

theorem keeps_showUnsent {P : State → Prop} (H : Closed P) (h : Fin 8) (s : State) (keep_s : P s) : P (showUnsent h s) := by
  unfold showUnsent
  try dsimp only
  repeat' first
    | with_reducible assumption
    | with_reducible apply keeps_State_put H

theorem keeps_drainFifo {P : State → Prop} (H : Closed P) (h : Fin 8) (s : State) (keep_s : P s) : P (drainFifo h s) := by
  unfold drainFifo
  try dsimp only
  repeat' first
    | with_reducible assumption
    | with_reducible apply keeps_showUnsent H
    | with_reducible apply keeps_drainGroups H
    | with_reducible refine ite_keeps (fun _ => ?_) (fun _ => ?_)

theorem keeps_closeGroups {P : State → Prop} (H : Closed P) (h : Fin 8) (s : State) (keep_s : P s) : P (closeGroups h s) := by
  unfold closeGroups
  try dsimp only
  repeat' first
    | with_reducible assumption
    | with_reducible apply keeps_State_setOrx H
    | with_reducible apply keeps_closeHalf H
    | with_reducible refine ite_keeps (fun _ => ?_) (fun _ => ?_)
    | with_reducible refine foldl_keeps (fun _ _ _ => ?_) ?_
    | with_reducible refine dite_keeps (fun _ => ?_) (fun _ => ?_)
    | with_reducible refine ite_fst (fun _ => ?_) (fun _ => ?_)
    | with_reducible refine ite_snd (fun _ => ?_) (fun _ => ?_)
    | with_reducible refine ite_snd2 (fun _ => ?_) (fun _ => ?_)
    | with_reducible refine ite_snd3 (fun _ => ?_) (fun _ => ?_)
    | with_reducible refine foldl_fst (fun _ _ _ => ?_) ?_
    | with_reducible refine foldl_snd (fun _ _ _ => ?_) ?_
    | with_reducible refine snd_of_eq (by assumption) ?_
    | with_reducible refine fst_of_eq (by assumption) ?_
    | with_reducible refine snd2_of_eq (by assumption) ?_
    | with_reducible intro _ _
    | with_reducible intro _ _ _
    | split

theorem keeps_putGroup {P : State → Prop} (H : Closed P) (h : Fin 8) (stream : Bool) (l : List ℕ) (s : State) (keep_s : P s) : P (putGroup h stream l s) := by
  unfold putGroup
  try dsimp only
  repeat' first
    | with_reducible assumption
    | with_reducible apply keeps_drainFifo H
    | with_reducible apply keeps_nextGroup H
    | with_reducible apply keeps_State_setOrx H
    | with_reducible refine ite_keeps (fun _ => ?_) (fun _ => ?_)

theorem keeps_discardOldest {P : State → Prop} (H : Closed P) (h : Fin 8) (s : State) (keep_s : P s) : P (discardOldest h s) := by
  unfold discardOldest
  try dsimp only
  repeat' first
    | with_reducible assumption
    | with_reducible apply keeps_showUnsent H
    | with_reducible apply keeps_State_add H
    | with_reducible apply keeps_State_setOrx H
    | with_reducible refine ite_keeps (fun _ => ?_) (fun _ => ?_)
    | with_reducible refine foldl_keeps (fun _ _ _ => ?_) ?_
    | with_reducible refine dite_keeps (fun _ => ?_) (fun _ => ?_)
    | with_reducible refine ite_fst (fun _ => ?_) (fun _ => ?_)
    | with_reducible refine ite_snd (fun _ => ?_) (fun _ => ?_)
    | with_reducible refine ite_snd2 (fun _ => ?_) (fun _ => ?_)
    | with_reducible refine ite_snd3 (fun _ => ?_) (fun _ => ?_)
    | with_reducible refine foldl_fst (fun _ _ _ => ?_) ?_
    | with_reducible refine foldl_snd (fun _ _ _ => ?_) ?_
    | with_reducible refine snd_of_eq (by assumption) ?_
    | with_reducible refine fst_of_eq (by assumption) ?_
    | with_reducible refine snd2_of_eq (by assumption) ?_
    | with_reducible intro _ _
    | with_reducible intro _ _ _
    | split

theorem keeps_pauseCapture {P : State → Prop} (H : Closed P) (h : Fin 8) (c : Capture) (s : State) (keep_s : P s) : P (pauseCapture h c s) := by
  unfold pauseCapture
  try dsimp only
  repeat' first
    | with_reducible assumption
    | with_reducible apply keeps_closeGroups H
    | with_reducible apply keeps_State_put H
    | with_reducible apply keeps_State_setOrx H

theorem keeps_takeGroups {P : State → Prop} (H : Closed P) (h : Fin 8) (c : Capture) (orx : List ℕ) (ref : List ℕ) (s : State) (keep_s : P s) : P (takeGroups h c orx ref s) := by
  unfold takeGroups
  try dsimp only
  repeat' first
    | with_reducible assumption
    | with_reducible apply keeps_putGroup H
    | with_reducible apply keeps_showUnsent H
    | with_reducible apply keeps_State_setOrx H
    | with_reducible refine ite_keeps (fun _ => ?_) (fun _ => ?_)

theorem keeps_makeRoom {P : State → Prop} (H : Closed P) (h : Fin 8) (c : Capture) (x2 : ℕ) (x3 : State) (keep_x3 : P x3) : P (makeRoom h c x2 x3) := by
  induction x2 generalizing x3 with
  | zero =>
    unfold makeRoom
    try dsimp only
    repeat' first
      | with_reducible assumption
  | succ n ih =>
    unfold makeRoom
    try dsimp only
    repeat' first
      | with_reducible assumption
      | with_reducible apply ih
      | with_reducible apply keeps_discardOldest H
      | with_reducible refine ite_keeps (fun _ => ?_) (fun _ => ?_)

theorem keeps_execCaptureGroup {P : State → Prop} (H : Closed P) (h : Fin 8) (first : ℕ) (adc : List ℤ) (s : State) (keep_s : P s) : ∀ s1, (execCaptureGroup h first adc s) = .next s1 → P s1 := by
  unfold execCaptureGroup
  refine next_keeps ?_
  try dsimp only
  repeat' first
    | with_reducible assumption
    | with_reducible apply keeps_State_at H
    | with_reducible apply keeps_State_endCapture H
    | with_reducible apply keeps_pauseCapture H
    | with_reducible apply keeps_takeGroups H
    | with_reducible apply keeps_makeRoom H
    | with_reducible refine ite_keeps (fun _ => ?_) (fun _ => ?_)
    | with_reducible refine foldl_keeps (fun _ _ _ => ?_) ?_
    | with_reducible refine dite_keeps (fun _ => ?_) (fun _ => ?_)
    | with_reducible refine ite_fst (fun _ => ?_) (fun _ => ?_)
    | with_reducible refine ite_snd (fun _ => ?_) (fun _ => ?_)
    | with_reducible refine ite_snd2 (fun _ => ?_) (fun _ => ?_)
    | with_reducible refine ite_snd3 (fun _ => ?_) (fun _ => ?_)
    | with_reducible refine foldl_fst (fun _ _ _ => ?_) ?_
    | with_reducible refine foldl_snd (fun _ _ _ => ?_) ?_
    | with_reducible refine snd_of_eq (by assumption) ?_
    | with_reducible refine fst_of_eq (by assumption) ?_
    | with_reducible refine snd2_of_eq (by assumption) ?_
    | with_reducible intro _ _
    | with_reducible intro _ _ _
    | split

theorem keeps_execOrxClip {P : State → Prop} (H : Closed P) (h : Fin 8) (n : ℕ) (s : State) (keep_s : P s) : ∀ s1, (execOrxClip h n s) = .next s1 → P s1 := by
  unfold execOrxClip
  refine next_keeps ?_
  try dsimp only
  repeat' first
    | with_reducible assumption
    | with_reducible apply keeps_State_put H
    | with_reducible apply keeps_State_add H
    | with_reducible apply keeps_State_setOrx H
    | with_reducible apply keeps_State_raise H
    | with_reducible refine ite_keeps (fun _ => ?_) (fun _ => ?_)
    | with_reducible refine foldl_keeps (fun _ _ _ => ?_) ?_
    | with_reducible refine dite_keeps (fun _ => ?_) (fun _ => ?_)
    | with_reducible refine ite_fst (fun _ => ?_) (fun _ => ?_)
    | with_reducible refine ite_snd (fun _ => ?_) (fun _ => ?_)
    | with_reducible refine ite_snd2 (fun _ => ?_) (fun _ => ?_)
    | with_reducible refine ite_snd3 (fun _ => ?_) (fun _ => ?_)
    | with_reducible refine foldl_fst (fun _ _ _ => ?_) ?_
    | with_reducible refine foldl_snd (fun _ _ _ => ?_) ?_
    | with_reducible refine snd_of_eq (by assumption) ?_
    | with_reducible refine fst_of_eq (by assumption) ?_
    | with_reducible refine snd2_of_eq (by assumption) ?_
    | with_reducible intro _ _
    | with_reducible intro _ _ _
    | split

theorem keeps_showRecord {P : State → Prop} (H : Closed P) (h : Fin 8) (s : State) (keep_s : P s) : P (showRecord h s) := by
  unfold showRecord
  try dsimp only
  repeat' first
    | with_reducible assumption
    | with_reducible apply keeps_State_wr H

theorem keeps_queueCapRec {P : State → Prop} (H : Closed P) (h : Fin 8) (r : CapRec) (s : State) (keep_s : P s) : P (queueCapRec h r s) := by
  unfold queueCapRec
  try dsimp only
  repeat' first
    | with_reducible assumption
    | with_reducible apply keeps_State_inc H
    | with_reducible apply keeps_State_put H
    | with_reducible apply keeps_showRecord H
    | with_reducible apply keeps_State_setOrx H
    | with_reducible refine ite_keeps (fun _ => ?_) (fun _ => ?_)

theorem keeps_finishCapture {P : State → Prop} (H : Closed P) (h : Fin 8) (c : Capture) (code : ℕ) (s : State) (keep_s : P s) : P (finishCapture h c code s) := by
  unfold finishCapture
  try dsimp only
  repeat' first
    | with_reducible assumption
    | with_reducible apply keeps_closeGroups H
    | with_reducible apply keeps_State_put H
    | with_reducible apply keeps_State_add H
    | with_reducible apply keeps_State_setOrx H
    | with_reducible apply keeps_State_eput H
    | with_reducible apply keeps_State_raise H
    | with_reducible apply keeps_State_notify H
    | with_reducible apply keeps_queueCapRec H
    | with_reducible refine ite_keeps (fun _ => ?_) (fun _ => ?_)
    | with_reducible refine foldl_keeps (fun _ _ _ => ?_) ?_
    | with_reducible refine dite_keeps (fun _ => ?_) (fun _ => ?_)
    | with_reducible refine ite_fst (fun _ => ?_) (fun _ => ?_)
    | with_reducible refine ite_snd (fun _ => ?_) (fun _ => ?_)
    | with_reducible refine ite_snd2 (fun _ => ?_) (fun _ => ?_)
    | with_reducible refine ite_snd3 (fun _ => ?_) (fun _ => ?_)
    | with_reducible refine foldl_fst (fun _ _ _ => ?_) ?_
    | with_reducible refine foldl_snd (fun _ _ _ => ?_) ?_
    | with_reducible refine snd_of_eq (by assumption) ?_
    | with_reducible refine fst_of_eq (by assumption) ?_
    | with_reducible refine snd2_of_eq (by assumption) ?_
    | with_reducible intro _ _
    | with_reducible intro _ _ _
    | split

theorem keeps_execCaptureEnd {P : State → Prop} (H : Closed P) (h : Fin 8) (fifoFull : Bool) (s : State) (keep_s : P s) : ∀ s1, (execCaptureEnd h fifoFull s) = .next s1 → P s1 := by
  unfold execCaptureEnd
  refine next_keeps ?_
  try dsimp only
  repeat' first
    | with_reducible assumption
    | with_reducible apply keeps_finishCapture H
    | with_reducible refine ite_keeps (fun _ => ?_) (fun _ => ?_)
    | with_reducible refine foldl_keeps (fun _ _ _ => ?_) ?_
    | with_reducible refine dite_keeps (fun _ => ?_) (fun _ => ?_)
    | with_reducible refine ite_fst (fun _ => ?_) (fun _ => ?_)
    | with_reducible refine ite_snd (fun _ => ?_) (fun _ => ?_)
    | with_reducible refine ite_snd2 (fun _ => ?_) (fun _ => ?_)
    | with_reducible refine ite_snd3 (fun _ => ?_) (fun _ => ?_)
    | with_reducible refine foldl_fst (fun _ _ _ => ?_) ?_
    | with_reducible refine foldl_snd (fun _ _ _ => ?_) ?_
    | with_reducible refine snd_of_eq (by assumption) ?_
    | with_reducible refine fst_of_eq (by assumption) ?_
    | with_reducible refine snd2_of_eq (by assumption) ?_
    | with_reducible intro _ _
    | with_reducible intro _ _ _
    | split

theorem keeps_orxNextWrite {P : State → Prop} (H : Closed P) (h : Fin 8) (s : State) (keep_s : P s) : P (orxNextWrite h s) := by
  unfold orxNextWrite
  try dsimp only
  repeat' first
    | with_reducible assumption
    | with_reducible apply keeps_showRecord H
    | with_reducible apply keeps_State_setOrx H

theorem keeps_execCaptureRecordNext {P : State → Prop} (H : Closed P) (r : Req) (h : Fin 8) (v : Word) (s : State) (keep_s : P s) : ∀ s1, (execCaptureRecordNext r h v s) = .next s1 → P s1 := by
  unfold execCaptureRecordNext
  refine next_keeps ?_
  try dsimp only
  repeat' first
    | with_reducible assumption
    | with_reducible apply keeps_regCmd H
    | with_reducible apply keeps_orxNextWrite H

theorem keeps_execDeepFlowResume {P : State → Prop} (H : Closed P) (h : Fin 8) (s : State) (keep_s : P s) : ∀ s1, (execDeepFlowResume h s) = .next s1 → P s1 := by
  unfold execDeepFlowResume
  refine next_keeps ?_
  try dsimp only
  repeat' first
    | with_reducible assumption
    | with_reducible apply keeps_State_put H
    | with_reducible apply keeps_State_add H
    | with_reducible apply keeps_State_at H
    | with_reducible apply keeps_State_setOrx H
    | with_reducible refine ite_keeps (fun _ => ?_) (fun _ => ?_)
    | with_reducible refine foldl_keeps (fun _ _ _ => ?_) ?_
    | with_reducible refine dite_keeps (fun _ => ?_) (fun _ => ?_)
    | with_reducible refine ite_fst (fun _ => ?_) (fun _ => ?_)
    | with_reducible refine ite_snd (fun _ => ?_) (fun _ => ?_)
    | with_reducible refine ite_snd2 (fun _ => ?_) (fun _ => ?_)
    | with_reducible refine ite_snd3 (fun _ => ?_) (fun _ => ?_)
    | with_reducible refine foldl_fst (fun _ _ _ => ?_) ?_
    | with_reducible refine foldl_snd (fun _ _ _ => ?_) ?_
    | with_reducible refine snd_of_eq (by assumption) ?_
    | with_reducible refine fst_of_eq (by assumption) ?_
    | with_reducible refine snd2_of_eq (by assumption) ?_
    | with_reducible intro _ _
    | with_reducible intro _ _ _
    | split

theorem keeps_readItems {P : State → Prop} (H : Closed P) (h : Fin 8) (ds : List DeepItem) (s : State) (keep_s : P s) : P (readItems h ds s) := by
  unfold readItems
  try dsimp only
  repeat' first
    | with_reducible assumption
    | with_reducible apply keeps_State_checkRead_1 H
    | with_reducible refine ite_keeps (fun _ => ?_) (fun _ => ?_)
    | with_reducible refine foldl_keeps (fun _ _ _ => ?_) ?_

theorem keeps_sendDeep {P : State → Prop} (H : Closed P) (h : Fin 8) (d : DeepItem) (arg : Nat) (ovr : Bool) (body : List Nat) (s : State) (keep_s : P s) :
    ∀ s1, sendDeep h d arg ovr body s = some s1 → P s1 := by
  unfold sendDeep
  dsimp only
  exact ite_some_keeps (fun _ => some_keeps (keeps_State_sendIq H _ _ _ (keeps_State_setOrx H _ _ _ keep_s))) (fun _ => none_keeps)

theorem keeps_execDeepFlowMessage {P : State → Prop} (H : Closed P) (h : Fin 8) (s : State) (keep_s : P s) :
    ∀ s1, execDeepFlowMessage h s = .next s1 → P s1 := by
  have key : ∀ (x : Option State) (f : State → State), (∀ t, x = some t → P t) → (∀ t, P t → P (f t)) → P (match x with | some s' => f s' | none => s) := by
    intro x f hx hf
    cases x with
    | none => exact keep_s
    | some t => exact hf t (hx t rfl)
  unfold execDeepFlowMessage
  refine next_keeps ?_
  generalize s.orx[h].items = l
  cases l with
  | nil => exact keep_s
  | cons d t =>
    refine ite_keeps (fun _ => ?_) (fun _ => ite_keeps (fun _ => ?_) (fun _ => ite_keeps (fun _ => keep_s) (fun _ => ?_)))
    · exact key _ (fun s' => s'.setOrx h { s'.orx[h] with items := t }) (keeps_sendDeep H _ _ _ _ _ s keep_s) fun _ ht => keeps_State_setOrx H _ _ _ ht
    · exact key _ (fun s' => s'.setOrx h { s'.orx[h] with lost := 0 }) (keeps_sendDeep H _ _ _ _ _ s keep_s) fun _ ht => keeps_State_setOrx H _ _ _ ht
    · exact key _ (fun s' => showUnsent h (s'.setOrx h { s'.orx[h] with items := t.drop ((d :: runOfData 63 t).length - 1) }))
        (keeps_sendDeep H _ _ _ _ _ _ (keeps_readItems H _ _ _ keep_s)) fun _ ht => keeps_showUnsent H _ _ (keeps_State_setOrx H _ _ _ ht)

end Sys2Proof.Machine
end

