-- ==== Sys2Proof/Laws/KeepsTally.lean ====
section
/-!
SUPPORT. Closed predicates are kept by every operation of these files.
-/

namespace Sys2Proof.Machine

theorem keeps_State_setTly {P : State → Prop} (H : Closed P) (s : State) (x : Tly) (keep_s : P s) : P (State.setTly s x) := by
  unfold State.setTly
  try dsimp only
  repeat' first
    | with_reducible assumption
    | with_reducible refine ite_keeps (fun _ => ?_) (fun _ => ?_)
    | with_reducible refine foldl_keeps (fun _ _ _ => ?_) ?_
    | with_reducible refine dite_keeps (fun _ => ?_) (fun _ => ?_)
    | with_reducible refine ite_fst (fun _ => ?_) (fun _ => ?_)
    | with_reducible refine ite_snd (fun _ => ?_) (fun _ => ?_)
    | with_reducible refine ite_snd2 (fun _ => ?_) (fun _ => ?_)
    | with_reducible refine ite_snd3 (fun _ => ?_) (fun _ => ?_)
    | with_reducible refine foldl_fst (fun _ _ _ => ?_) ?_
    | with_reducible refine foldl_snd (fun _ _ _ => ?_) ?_
    | with_reducible refine snd_of_eq (by assumption) ?_
    | with_reducible refine fst_of_eq (by assumption) ?_
    | with_reducible refine snd2_of_eq (by assumption) ?_
    | with_reducible intro _ _
    | with_reducible intro _ _ _
    | split
    | dsimp only
    | with_reducible apply H.mk'

theorem keeps_startEnum {P : State → Prop} (H : Closed P) (force : Bool) (s : State) (keep_s : P s) : P (startEnum force s) := by
  unfold startEnum
  try dsimp only
  repeat' first
    | with_reducible assumption
    | with_reducible apply keeps_State_put H
    | with_reducible apply keeps_State_wr H
    | with_reducible apply keeps_State_setTly H
    | with_reducible apply keeps_State_tallySend H
    | with_reducible refine ite_keeps (fun _ => ?_) (fun _ => ?_)

theorem keeps_hopUp {P : State → Prop} (H : Closed P) (up : Bool) (s : State) (keep_s : P s) : P (hopUp up s) := by
  unfold hopUp
  try dsimp only
  repeat' first
    | with_reducible assumption
    | with_reducible apply keeps_State_setTly H
    | with_reducible apply keeps_State_put H
    | with_reducible apply keeps_startEnum H
    | with_reducible apply keeps_State_tallySend H
    | with_reducible refine ite_keeps (fun _ => ?_) (fun _ => ?_)
    | with_reducible refine foldl_keeps (fun _ _ _ => ?_) ?_
    | with_reducible refine dite_keeps (fun _ => ?_) (fun _ => ?_)
    | with_reducible refine ite_fst (fun _ => ?_) (fun _ => ?_)
    | with_reducible refine ite_snd (fun _ => ?_) (fun _ => ?_)
    | with_reducible refine ite_snd2 (fun _ => ?_) (fun _ => ?_)
    | with_reducible refine ite_snd3 (fun _ => ?_) (fun _ => ?_)
    | with_reducible refine foldl_fst (fun _ _ _ => ?_) ?_
    | with_reducible refine foldl_snd (fun _ _ _ => ?_) ?_
    | with_reducible refine snd_of_eq (by assumption) ?_
    | with_reducible refine fst_of_eq (by assumption) ?_
    | with_reducible refine snd2_of_eq (by assumption) ?_
    | with_reducible intro _ _
    | with_reducible intro _ _ _
    | split

theorem keeps_hopDown {P : State → Prop} (H : Closed P) (up : Bool) (s : State) (keep_s : P s) : P (hopDown up s) := by
  unfold hopDown
  try dsimp only
  repeat' first
    | with_reducible assumption
    | with_reducible apply keeps_State_inc H
    | with_reducible apply keeps_State_setTly H
    | with_reducible apply keeps_State_put H
    | with_reducible apply keeps_State_setTim H
    | with_reducible refine ite_keeps (fun _ => ?_) (fun _ => ?_)

theorem keeps_goodWindow {P : State → Prop} (H : Closed P) (up : Bool) (s : State) (keep_s : P s) : P (goodWindow up s) := by
  unfold goodWindow
  try dsimp only
  repeat' first
    | with_reducible assumption
    | with_reducible apply keeps_State_setTly H
    | with_reducible apply keeps_hopUp H
    | with_reducible refine ite_keeps (fun _ => ?_) (fun _ => ?_)

theorem keeps_badWindow {P : State → Prop} (H : Closed P) (up : Bool) (s : State) (keep_s : P s) : P (badWindow up s) := by
  unfold badWindow
  try dsimp only
  repeat' first
    | with_reducible assumption
    | with_reducible apply keeps_State_setTly H
    | with_reducible apply keeps_hopDown H
    | with_reducible refine ite_keeps (fun _ => ?_) (fun _ => ?_)

theorem keeps_sendWindow {P : State → Prop} (H : Closed P) (up : Bool) (s : State) (keep_s : P s) : P (sendWindow up s) := by
  unfold sendWindow
  try dsimp only
  repeat' first
    | with_reducible assumption
    | with_reducible apply keeps_State_emit H
    | with_reducible apply keeps_State_setTly H
    | with_reducible refine ite_keeps (fun _ => ?_) (fun _ => ?_)
    | with_reducible refine foldl_keeps (fun _ _ _ => ?_) ?_
    | with_reducible refine dite_keeps (fun _ => ?_) (fun _ => ?_)
    | with_reducible refine ite_fst (fun _ => ?_) (fun _ => ?_)
    | with_reducible refine ite_snd (fun _ => ?_) (fun _ => ?_)
    | with_reducible refine ite_snd2 (fun _ => ?_) (fun _ => ?_)
    | with_reducible refine ite_snd3 (fun _ => ?_) (fun _ => ?_)
    | with_reducible refine foldl_fst (fun _ _ _ => ?_) ?_
    | with_reducible refine foldl_snd (fun _ _ _ => ?_) ?_
    | with_reducible refine snd_of_eq (by assumption) ?_
    | with_reducible refine fst_of_eq (by assumption) ?_
    | with_reducible refine snd2_of_eq (by assumption) ?_
    | with_reducible intro _ _
    | with_reducible intro _ _ _
    | split

theorem keeps_execTallyWindowMissed {P : State → Prop} (H : Closed P) (up : Bool) (s : State) (keep_s : P s) : ∀ s1, (execTallyWindowMissed up s) = .next s1 → P s1 := by
  unfold execTallyWindowMissed
  refine next_keeps ?_
  try dsimp only
  repeat' first
    | with_reducible assumption
    | with_reducible apply keeps_badWindow H
    | with_reducible apply keeps_sendWindow H
    | with_reducible refine ite_keeps (fun _ => ?_) (fun _ => ?_)

theorem keeps_execHopDelayAverage {P : State → Prop} (H : Closed P) (trips : List ℕ) (s : State) (keep_s : P s) : ∀ s1, (execHopDelayAverage trips s) = .next s1 → P s1 := by
  unfold execHopDelayAverage
  refine next_keeps ?_
  try dsimp only
  repeat' first
    | with_reducible assumption
    | with_reducible apply keeps_State_put H
    | with_reducible refine ite_keeps (fun _ => ?_) (fun _ => ?_)

theorem keeps_execSyncoutPulse {P : State → Prop} (H : Closed P) (s : State) (keep_s : P s) : ∀ s1, (execSyncoutPulse s) = .next s1 → P s1 := by
  unfold execSyncoutPulse
  refine next_keeps ?_
  try dsimp only
  repeat' first
    | with_reducible assumption
    | with_reducible apply keeps_State_at H
    | with_reducible apply keeps_State_setTly H
    | with_reducible apply keeps_State_emit H
    | with_reducible refine ite_keeps (fun _ => ?_) (fun _ => ?_)

theorem keeps_followOffset {P : State → Prop} (H : Closed P) (off : ℤ) (s : State) (keep_s : P s) : P (followOffset off s) := by
  unfold followOffset
  try dsimp only
  repeat' first
    | with_reducible assumption
    | with_reducible apply keeps_State_setTim H
    | with_reducible apply keeps_State_put H
    | with_reducible refine ite_keeps (fun _ => ?_) (fun _ => ?_)

theorem keeps_execTallySyncEdge {P : State → Prop} (H : Closed P) (t : ℕ) (time : Option (ℕ × ℕ)) (s : State) (keep_s : P s) : ∀ s1, (execTallySyncEdge t time s) = .next s1 → P s1 := by
  unfold execTallySyncEdge
  refine next_keeps ?_
  try dsimp only
  repeat' first
    | with_reducible assumption
    | with_reducible apply keeps_State_at H
    | with_reducible apply keeps_State_setTly H
    | with_reducible apply keeps_State_put H
    | with_reducible apply keeps_takeCap H
    | with_reducible apply keeps_State_setTim H
    | with_reducible apply keeps_followOffset H
    | with_reducible apply keeps_judge H
    | with_reducible refine ite_keeps (fun _ => ?_) (fun _ => ?_)
    | with_reducible refine foldl_keeps (fun _ _ _ => ?_) ?_
    | with_reducible refine dite_keeps (fun _ => ?_) (fun _ => ?_)
    | with_reducible refine ite_fst (fun _ => ?_) (fun _ => ?_)
    | with_reducible refine ite_snd (fun _ => ?_) (fun _ => ?_)
    | with_reducible refine ite_snd2 (fun _ => ?_) (fun _ => ?_)
    | with_reducible refine ite_snd3 (fun _ => ?_) (fun _ => ?_)
    | with_reducible refine foldl_fst (fun _ _ _ => ?_) ?_
    | with_reducible refine foldl_snd (fun _ _ _ => ?_) ?_
    | with_reducible refine snd_of_eq (by assumption) ?_
    | with_reducible refine fst_of_eq (by assumption) ?_
    | with_reducible refine snd2_of_eq (by assumption) ?_
    | with_reducible intro _ _
    | with_reducible intro _ _ _
    | split

theorem keeps_execFollowerSlew {P : State → Prop} (H : Closed P) (s : State) (keep_s : P s) : ∀ s1, (execFollowerSlew s) = .next s1 → P s1 := by
  unfold execFollowerSlew
  refine next_keeps ?_
  try dsimp only
  repeat' first
    | with_reducible assumption
    | with_reducible apply keeps_State_at H
    | with_reducible apply keeps_movePhase H
    | with_reducible apply keeps_State_setTim H
    | with_reducible refine ite_keeps (fun _ => ?_) (fun _ => ?_)
    | with_reducible refine foldl_keeps (fun _ _ _ => ?_) ?_
    | with_reducible refine dite_keeps (fun _ => ?_) (fun _ => ?_)
    | with_reducible refine ite_fst (fun _ => ?_) (fun _ => ?_)
    | with_reducible refine ite_snd (fun _ => ?_) (fun _ => ?_)
    | with_reducible refine ite_snd2 (fun _ => ?_) (fun _ => ?_)
    | with_reducible refine ite_snd3 (fun _ => ?_) (fun _ => ?_)
    | with_reducible refine foldl_fst (fun _ _ _ => ?_) ?_
    | with_reducible refine foldl_snd (fun _ _ _ => ?_) ?_
    | with_reducible refine snd_of_eq (by assumption) ?_
    | with_reducible refine fst_of_eq (by assumption) ?_
    | with_reducible refine snd2_of_eq (by assumption) ?_
    | with_reducible intro _ _
    | with_reducible intro _ _ _
    | split
    | dsimp only
    | with_reducible apply H.mk'

theorem keeps_takeToken {P : State → Prop} (H : Closed P) (next : ℕ) (force : Bool) (s : State) (keep_s : P s) : P (takeToken next force s) := by
  unfold takeToken
  try dsimp only
  repeat' first
    | with_reducible assumption
    | with_reducible apply keeps_State_put H
    | with_reducible apply keeps_State_tallySend H
    | with_reducible apply keeps_State_setTly H
    | with_reducible apply keeps_State_raise H
    | with_reducible apply keeps_State_wr H
    | with_reducible refine ite_keeps (fun _ => ?_) (fun _ => ?_)

theorem keeps_execEnumToken {P : State → Prop} (H : Closed P) (next : ℕ) (force : Bool) (s : State) (keep_s : P s) : ∀ s1, (execEnumToken next force s) = .next s1 → P s1 := by
  unfold execEnumToken
  refine next_keeps ?_
  try dsimp only
  repeat' first
    | with_reducible assumption
    | with_reducible apply keeps_takeToken H

theorem keeps_execEnumLastTimeout {P : State → Prop} (H : Closed P) (s : State) (keep_s : P s) : ∀ s1, (execEnumLastTimeout s) = .next s1 → P s1 := by
  unfold execEnumLastTimeout
  refine next_keeps ?_
  try dsimp only
  repeat' first
    | with_reducible assumption
    | with_reducible apply keeps_State_setTly H
    | with_reducible apply keeps_State_at H
    | with_reducible apply keeps_State_tallySend H
    | with_reducible apply keeps_State_put H
    | with_reducible refine ite_keeps (fun _ => ?_) (fun _ => ?_)
    | with_reducible refine foldl_keeps (fun _ _ _ => ?_) ?_
    | with_reducible refine dite_keeps (fun _ => ?_) (fun _ => ?_)
    | with_reducible refine ite_fst (fun _ => ?_) (fun _ => ?_)
    | with_reducible refine ite_snd (fun _ => ?_) (fun _ => ?_)
    | with_reducible refine ite_snd2 (fun _ => ?_) (fun _ => ?_)
    | with_reducible refine ite_snd3 (fun _ => ?_) (fun _ => ?_)
    | with_reducible refine foldl_fst (fun _ _ _ => ?_) ?_
    | with_reducible refine foldl_snd (fun _ _ _ => ?_) ?_
    | with_reducible refine snd_of_eq (by assumption) ?_
    | with_reducible refine fst_of_eq (by assumption) ?_
    | with_reducible refine snd2_of_eq (by assumption) ?_
    | with_reducible intro _ _
    | with_reducible intro _ _ _
    | split

theorem keeps_takeCount {P : State → Prop} (H : Closed P) (n : ℕ) (s : State) (keep_s : P s) : P (takeCount n s) := by
  unfold takeCount
  try dsimp only
  repeat' first
    | with_reducible assumption
    | with_reducible apply keeps_State_tallySend H
    | with_reducible apply keeps_State_setTly H
    | with_reducible refine ite_keeps (fun _ => ?_) (fun _ => ?_)

theorem keeps_gatherCensus {P : State → Prop} (H : Closed P) (list : List ℕ) (s : State) (keep_s : P s) : P (gatherCensus list s) := by
  unfold gatherCensus
  try dsimp only
  repeat' first
    | with_reducible assumption
    | with_reducible apply keeps_State_setTly H
    | with_reducible apply keeps_State_tallySend H
    | with_reducible refine ite_keeps (fun _ => ?_) (fun _ => ?_)

theorem keeps_takeCensus {P : State → Prop} (H : Closed P) (list : List ℕ) (s : State) (keep_s : P s) : P (takeCensus list s) := by
  unfold takeCensus
  try dsimp only
  repeat' first
    | with_reducible assumption
    | with_reducible apply keeps_State_put H
    | with_reducible apply keeps_State_tallySend H
    | with_reducible apply keeps_State_raiseSev H
    | with_reducible refine ite_keeps (fun _ => ?_) (fun _ => ?_)
    | with_reducible refine foldl_keeps (fun _ _ _ => ?_) ?_
    | with_reducible refine dite_keeps (fun _ => ?_) (fun _ => ?_)
    | with_reducible refine ite_fst (fun _ => ?_) (fun _ => ?_)
    | with_reducible refine ite_snd (fun _ => ?_) (fun _ => ?_)
    | with_reducible refine ite_snd2 (fun _ => ?_) (fun _ => ?_)
    | with_reducible refine ite_snd3 (fun _ => ?_) (fun _ => ?_)
    | with_reducible refine foldl_fst (fun _ _ _ => ?_) ?_
    | with_reducible refine foldl_snd (fun _ _ _ => ?_) ?_
    | with_reducible refine snd_of_eq (by assumption) ?_
    | with_reducible refine fst_of_eq (by assumption) ?_
    | with_reducible refine snd2_of_eq (by assumption) ?_
    | with_reducible intro _ _
    | with_reducible intro _ _ _
    | split

theorem keeps_execCensus {P : State → Prop} (H : Closed P) (list : List ℕ) (s : State) (keep_s : P s) : ∀ s1, (execCensus list s) = .next s1 → P s1 := by
  unfold execCensus
  refine next_keeps ?_
  try dsimp only
  repeat' first
    | with_reducible assumption
    | with_reducible apply keeps_takeCensus H

theorem keeps_returnCensus {P : State → Prop} (H : Closed P) (list : List ℕ) (s : State) (keep_s : P s) : P (returnCensus list s) := by
  unfold returnCensus
  try dsimp only
  repeat' first
    | with_reducible assumption
    | with_reducible apply keeps_takeCensus H
    | with_reducible apply keeps_State_tallySend H
    | with_reducible refine ite_keeps (fun _ => ?_) (fun _ => ?_)

theorem keeps_chainCommit {P : State → Prop} (H : Closed P) (t : ℕ) (s : State) (h : Fin 8) (keep_s : P s) : P (chainCommit t s h) := by
  unfold chainCommit
  try dsimp only
  repeat' first
    | with_reducible assumption
    | with_reducible apply keeps_State_put H
    | with_reducible apply keeps_State_raise H
    | with_reducible apply keeps_slotFail H
    | with_reducible refine ite_keeps (fun _ => ?_) (fun _ => ?_)
    | with_reducible refine foldl_keeps (fun _ _ _ => ?_) ?_
    | with_reducible refine dite_keeps (fun _ => ?_) (fun _ => ?_)
    | with_reducible refine ite_fst (fun _ => ?_) (fun _ => ?_)
    | with_reducible refine ite_snd (fun _ => ?_) (fun _ => ?_)
    | with_reducible refine ite_snd2 (fun _ => ?_) (fun _ => ?_)
    | with_reducible refine ite_snd3 (fun _ => ?_) (fun _ => ?_)
    | with_reducible refine foldl_fst (fun _ _ _ => ?_) ?_
    | with_reducible refine foldl_snd (fun _ _ _ => ?_) ?_
    | with_reducible refine snd_of_eq (by assumption) ?_
    | with_reducible refine fst_of_eq (by assumption) ?_
    | with_reducible refine snd2_of_eq (by assumption) ?_
    | with_reducible intro _ _
    | with_reducible intro _ _ _
    | split
    | dsimp only
    | with_reducible apply H.mk'

theorem keeps_waitTarget {P : State → Prop} (H : Closed P) (op : ℕ) (t : ℕ) (s : State) (keep_s : P s) : P (waitTarget op t s) := by
  unfold waitTarget
  try dsimp only
  repeat' first
    | with_reducible assumption
    | with_reducible apply keeps_State_setTly H
    | with_reducible apply keeps_chainCommit H
    | with_reducible refine ite_keeps (fun _ => ?_) (fun _ => ?_)
    | with_reducible refine foldl_keeps (fun _ _ _ => ?_) ?_

theorem keeps_tlyCmdWrite {P : State → Prop} (H : Closed P) (r : Req) (v : Word) (s : State) (keep_s : P s) : P (tlyCmdWrite r v s) := by
  unfold tlyCmdWrite
  try dsimp only
  repeat' first
    | with_reducible assumption
    | with_reducible apply keeps_State_tallySend H
    | with_reducible apply keeps_startEnum H
    | with_reducible apply keeps_State_refuse4 H
    | with_reducible apply keeps_State_put H
    | with_reducible apply keeps_waitTarget H
    | with_reducible refine ite_keeps (fun _ => ?_) (fun _ => ?_)
    | with_reducible refine foldl_keeps (fun _ _ _ => ?_) ?_
    | with_reducible refine dite_keeps (fun _ => ?_) (fun _ => ?_)
    | with_reducible refine ite_fst (fun _ => ?_) (fun _ => ?_)
    | with_reducible refine ite_snd (fun _ => ?_) (fun _ => ?_)
    | with_reducible refine ite_snd2 (fun _ => ?_) (fun _ => ?_)
    | with_reducible refine ite_snd3 (fun _ => ?_) (fun _ => ?_)
    | with_reducible refine foldl_fst (fun _ _ _ => ?_) ?_
    | with_reducible refine foldl_snd (fun _ _ _ => ?_) ?_
    | with_reducible refine snd_of_eq (by assumption) ?_
    | with_reducible refine fst_of_eq (by assumption) ?_
    | with_reducible refine snd2_of_eq (by assumption) ?_
    | with_reducible intro _ _
    | with_reducible intro _ _ _
    | split

theorem keeps_tlyCmd {P : State → Prop} (H : Closed P) (op : ℕ) (r : Req) (s : State) (keep_s : P s) : P (tlyCmd op r s) := by
  unfold tlyCmd
  try dsimp only
  repeat' first
    | with_reducible assumption
    | with_reducible apply keeps_regCmd H
    | with_reducible apply keeps_tlyCmdWrite H

theorem keeps_execTlyEnum {P : State → Prop} (H : Closed P) (r : Req) (s : State) (keep_s : P s) : ∀ s1, (execTlyEnum r s) = .next s1 → P s1 := by
  unfold execTlyEnum
  refine next_keeps ?_
  try dsimp only
  repeat' first
    | with_reducible assumption
    | with_reducible apply keeps_tlyCmd H

theorem keeps_execTlyEnumf {P : State → Prop} (H : Closed P) (r : Req) (s : State) (keep_s : P s) : ∀ s1, (execTlyEnumf r s) = .next s1 → P s1 := by
  unfold execTlyEnumf
  refine next_keeps ?_
  try dsimp only
  repeat' first
    | with_reducible assumption
    | with_reducible apply keeps_tlyCmd H

theorem keeps_execTlyMute {P : State → Prop} (H : Closed P) (r : Req) (s : State) (keep_s : P s) : ∀ s1, (execTlyMute r s) = .next s1 → P s1 := by
  unfold execTlyMute
  refine next_keeps ?_
  try dsimp only
  repeat' first
    | with_reducible assumption
    | with_reducible apply keeps_tlyCmd H

theorem keeps_execTlyCommit {P : State → Prop} (H : Closed P) (r : Req) (s : State) (keep_s : P s) : ∀ s1, (execTlyCommit r s) = .next s1 → P s1 := by
  unfold execTlyCommit
  refine next_keeps ?_
  try dsimp only
  repeat' first
    | with_reducible assumption
    | with_reducible apply keeps_tlyCmd H

theorem keeps_execTlyStepauth {P : State → Prop} (H : Closed P) (r : Req) (s : State) (keep_s : P s) : ∀ s1, (execTlyStepauth r s) = .next s1 → P s1 := by
  unfold execTlyStepauth
  refine next_keeps ?_
  try dsimp only
  repeat' first
    | with_reducible assumption
    | with_reducible apply keeps_tlyCmd H

theorem keeps_takeCommand {P : State → Prop} (H : Closed P) (up : Bool) (op : ℕ) (sec : ℕ) (ns : ℕ) (s : State) (keep_s : P s) : P (takeCommand up op sec ns s) := by
  unfold takeCommand
  try dsimp only
  repeat' first
    | with_reducible assumption
    | with_reducible apply keeps_State_inc H
    | with_reducible apply keeps_State_tallySend H
    | with_reducible apply keeps_startEnum H
    | with_reducible apply keeps_State_put H
    | with_reducible apply keeps_State_raise H
    | with_reducible apply keeps_waitTarget H
    | with_reducible refine ite_keeps (fun _ => ?_) (fun _ => ?_)

theorem keeps_execTallyCommandReceived {P : State → Prop} (H : Closed P) (c : HopCmd) (sec : ℕ) (ns : ℕ) (s : State) (keep_s : P s) : ∀ s1, (execTallyCommandReceived c sec ns s) = .next s1 → P s1 := by
  unfold execTallyCommandReceived
  refine next_keeps ?_
  try dsimp only
  repeat' first
    | with_reducible assumption
    | with_reducible apply keeps_takeCommand H

theorem keeps_rampAll {P : State → Prop} (H : Closed P) (s : State) (keep_s : P s) : P (rampAll s) := by
  unfold rampAll
  try dsimp only
  repeat' first
    | with_reducible assumption
    | with_reducible apply keeps_State_safetyRamp H
    | with_reducible refine ite_keeps (fun _ => ?_) (fun _ => ?_)
    | with_reducible refine foldl_keeps (fun _ _ _ => ?_) ?_

theorem keeps_execTallyCommandTarget {P : State → Prop} (H : Closed P) (s : State) (keep_s : P s) : ∀ s1, (execTallyCommandTarget s) = .next s1 → P s1 := by
  unfold execTallyCommandTarget
  refine next_keeps ?_
  try dsimp only
  repeat' first
    | with_reducible assumption
    | with_reducible apply keeps_State_at H
    | with_reducible apply keeps_State_setTly H
    | with_reducible apply keeps_rampAll H
    | with_reducible apply keeps_State_put H
    | with_reducible refine ite_keeps (fun _ => ?_) (fun _ => ?_)
    | with_reducible refine foldl_keeps (fun _ _ _ => ?_) ?_
    | with_reducible refine dite_keeps (fun _ => ?_) (fun _ => ?_)
    | with_reducible refine ite_fst (fun _ => ?_) (fun _ => ?_)
    | with_reducible refine ite_snd (fun _ => ?_) (fun _ => ?_)
    | with_reducible refine ite_snd2 (fun _ => ?_) (fun _ => ?_)
    | with_reducible refine ite_snd3 (fun _ => ?_) (fun _ => ?_)
    | with_reducible refine foldl_fst (fun _ _ _ => ?_) ?_
    | with_reducible refine foldl_snd (fun _ _ _ => ?_) ?_
    | with_reducible refine snd_of_eq (by assumption) ?_
    | with_reducible refine fst_of_eq (by assumption) ?_
    | with_reducible refine snd2_of_eq (by assumption) ?_
    | with_reducible intro _ _
    | with_reducible intro _ _ _
    | split

theorem keeps_takeFanout {P : State → Prop} (H : Closed P) (up : Bool) (addr : ℕ) (s : State) (keep_s : P s) : P (takeFanout up addr s) := by
  unfold takeFanout
  try dsimp only
  repeat' first
    | with_reducible assumption
    | with_reducible apply keeps_State_raise H
    | with_reducible apply keeps_State_tallySend H
    | with_reducible apply keeps_State_inc H
    | with_reducible apply keeps_rampAll H
    | with_reducible refine ite_keeps (fun _ => ?_) (fun _ => ?_)

theorem keeps_execFanoutReceived {P : State → Prop} (H : Closed P) (f : HopFan) (s : State) (keep_s : P s) : ∀ s1, (execFanoutReceived f s) = .next s1 → P s1 := by
  unfold execFanoutReceived
  refine next_keeps ?_
  try dsimp only
  repeat' first
    | with_reducible assumption
    | with_reducible apply keeps_takeFanout H

theorem keeps_doTally {P : State → Prop} (H : Closed P) (up : Bool) (op : ℕ) (args : List ℕ) (s : State) (keep_s : P s) : P (doTally up op args s) := by
  unfold doTally
  try dsimp only
  repeat' first
    | with_reducible assumption
    | with_reducible apply keeps_takeCommand H
    | with_reducible apply keeps_takeFanout H
    | with_reducible apply keeps_takeToken H
    | with_reducible apply keeps_takeCensus H
    | with_reducible apply keeps_State_setTly H
    | with_reducible apply keeps_takeCount H
    | with_reducible apply keeps_gatherCensus H
    | with_reducible apply keeps_returnCensus H
    | with_reducible refine ite_keeps (fun _ => ?_) (fun _ => ?_)

theorem keeps_takeTally {P : State → Prop} (H : Closed P) (up : Bool) (body : List ℕ) (s : State) (keep_s : P s) : P (takeTally up body s) := by
  unfold takeTally
  try dsimp only
  repeat' first
    | with_reducible assumption
    | with_reducible apply keeps_State_setTly H
    | with_reducible apply keeps_doTally H
    | with_reducible refine ite_keeps (fun _ => ?_) (fun _ => ?_)
    | with_reducible refine foldl_keeps (fun _ _ _ => ?_) ?_
    | with_reducible refine dite_keeps (fun _ => ?_) (fun _ => ?_)
    | with_reducible refine ite_fst (fun _ => ?_) (fun _ => ?_)
    | with_reducible refine ite_snd (fun _ => ?_) (fun _ => ?_)
    | with_reducible refine ite_snd2 (fun _ => ?_) (fun _ => ?_)
    | with_reducible refine ite_snd3 (fun _ => ?_) (fun _ => ?_)
    | with_reducible refine foldl_fst (fun _ _ _ => ?_) ?_
    | with_reducible refine foldl_snd (fun _ _ _ => ?_) ?_
    | with_reducible refine snd_of_eq (by assumption) ?_
    | with_reducible refine fst_of_eq (by assumption) ?_
    | with_reducible refine snd2_of_eq (by assumption) ?_
    | with_reducible intro _ _
    | with_reducible intro _ _ _
    | split

theorem keeps_execTallyWindow {P : State → Prop} (H : Closed P) (up : Bool) (body : List ℕ) (crc : ℕ) (s : State) (keep_s : P s) : ∀ s1, (execTallyWindow up body crc s) = .next s1 → P s1 := by
  unfold execTallyWindow
  refine next_keeps ?_
  try dsimp only
  repeat' first
    | with_reducible assumption
    | with_reducible apply keeps_sendWindow H
    | with_reducible apply keeps_takeTally H
    | with_reducible apply keeps_goodWindow H
    | with_reducible apply keeps_badWindow H
    | with_reducible apply keeps_State_inc H
    | with_reducible refine ite_keeps (fun _ => ?_) (fun _ => ?_)

theorem keeps_tlyCfgWrite {P : State → Prop} (H : Closed P) (r : Req) (v : Word) (s : State) (keep_s : P s) : P (tlyCfgWrite r v s) := by
  unfold tlyCfgWrite
  try dsimp only
  repeat' first
    | with_reducible assumption
    | with_reducible apply keeps_State_storeReg H
    | with_reducible apply keeps_State_setTim H
    | with_reducible refine ite_keeps (fun _ => ?_) (fun _ => ?_)

end Sys2Proof.Machine
end

