-- ==== Sys2Proof/Laws/KeepsClocks.lean ====
section
/-!
SUPPORT. Closed predicates are kept by every operation of these files.
-/

namespace Sys2Proof.Machine

theorem keeps_State_setPll {P : State → Prop} (H : Closed P) (s : State) (h : Fin 8) (x : Pll) (keep_s : P s) : P (State.setPll s h x) := by
  unfold State.setPll
  try dsimp only
  repeat' first
    | with_reducible assumption
    | with_reducible refine ite_keeps (fun _ => ?_) (fun _ => ?_)
    | with_reducible refine foldl_keeps (fun _ _ _ => ?_) ?_
    | with_reducible refine dite_keeps (fun _ => ?_) (fun _ => ?_)
    | with_reducible refine ite_fst (fun _ => ?_) (fun _ => ?_)
    | with_reducible refine ite_snd (fun _ => ?_) (fun _ => ?_)
    | with_reducible refine ite_snd2 (fun _ => ?_) (fun _ => ?_)
    | with_reducible refine ite_snd3 (fun _ => ?_) (fun _ => ?_)
    | with_reducible refine foldl_fst (fun _ _ _ => ?_) ?_
    | with_reducible refine foldl_snd (fun _ _ _ => ?_) ?_
    | with_reducible refine snd_of_eq (by assumption) ?_
    | with_reducible refine fst_of_eq (by assumption) ?_
    | with_reducible refine snd2_of_eq (by assumption) ?_
    | with_reducible intro _ _
    | with_reducible intro _ _ _
    | split
    | dsimp only
    | with_reducible apply H.mk'

theorem keeps_endAcq {P : State → Prop} (H : Closed P) (h : Fin 8) (s : State) (keep_s : P s) : P (endAcq h s) := by
  unfold endAcq
  try dsimp only
  repeat' first
    | with_reducible assumption
    | with_reducible apply keeps_State_setPll H
    | with_reducible apply keeps_State_put H

theorem keeps_dropLock {P : State → Prop} (H : Closed P) (h : Fin 8) (quiet : Bool) (s : State) (keep_s : P s) : P (dropLock h quiet s) := by
  unfold dropLock
  try dsimp only
  repeat' first
    | with_reducible assumption
    | with_reducible apply keeps_State_put H
    | with_reducible apply keeps_State_loseCal H
    | with_reducible apply keeps_State_endCapture H
    | with_reducible apply keeps_State_forceZero H
    | with_reducible apply keeps_State_setPll H
    | with_reducible apply keeps_State_setHstate H
    | with_reducible refine ite_keeps (fun _ => ?_) (fun _ => ?_)

theorem keeps_pllFailed {P : State → Prop} (H : Closed P) (h : Fin 8) (s : State) (keep_s : P s) : P (pllFailed h s) := by
  unfold pllFailed
  try dsimp only
  repeat' first
    | with_reducible assumption
    | with_reducible apply keeps_State_put H
    | with_reducible apply keeps_endAcq H
    | with_reducible apply keeps_State_raise H

theorem keeps_attemptBand {P : State → Prop} (H : Closed P) (h : Fin 8) (t : ℕ) (n : Option ℕ) (s : State) (keep_s : P s) : P (attemptBand h t n s) := by
  unfold attemptBand
  try dsimp only
  repeat' first
    | with_reducible assumption
    | with_reducible apply keeps_pllFailed H
    | with_reducible apply keeps_State_inc H
    | with_reducible apply keeps_State_put H
    | with_reducible apply keeps_State_setPll H
    | with_reducible refine ite_keeps (fun _ => ?_) (fun _ => ?_)
    | with_reducible refine foldl_keeps (fun _ _ _ => ?_) ?_
    | with_reducible refine dite_keeps (fun _ => ?_) (fun _ => ?_)
    | with_reducible refine ite_fst (fun _ => ?_) (fun _ => ?_)
    | with_reducible refine ite_snd (fun _ => ?_) (fun _ => ?_)
    | with_reducible refine ite_snd2 (fun _ => ?_) (fun _ => ?_)
    | with_reducible refine ite_snd3 (fun _ => ?_) (fun _ => ?_)
    | with_reducible refine foldl_fst (fun _ _ _ => ?_) ?_
    | with_reducible refine foldl_snd (fun _ _ _ => ?_) ?_
    | with_reducible refine snd_of_eq (by assumption) ?_
    | with_reducible refine fst_of_eq (by assumption) ?_
    | with_reducible refine snd2_of_eq (by assumption) ?_
    | with_reducible intro _ _
    | with_reducible intro _ _ _
    | split

theorem keeps_beginAttempt {P : State → Prop} (H : Closed P) (h : Fin 8) (t : ℕ) (s : State) (keep_s : P s) : P (beginAttempt h t s) := by
  unfold beginAttempt
  try dsimp only
  repeat' first
    | with_reducible assumption
    | with_reducible apply keeps_State_put H
    | with_reducible apply keeps_State_setPll H
    | with_reducible apply keeps_attemptBand H
    | with_reducible refine ite_keeps (fun _ => ?_) (fun _ => ?_)

theorem keeps_startAcq {P : State → Prop} (H : Closed P) (h : Fin 8) (s : State) (keep_s : P s) : P (startAcq h s) := by
  unfold startAcq
  try dsimp only
  repeat' first
    | with_reducible assumption
    | with_reducible apply keeps_State_loseCal H
    | with_reducible apply keeps_beginAttempt H
    | with_reducible apply keeps_State_setPll H
    | with_reducible apply keeps_State_put H
    | with_reducible refine ite_keeps (fun _ => ?_) (fun _ => ?_)

theorem keeps_pllCtrlWrite {P : State → Prop} (H : Closed P) (r : Req) (h : Fin 8) (v : Word) (s : State) (keep_s : P s) : P (pllCtrlWrite r h v s) := by
  unfold pllCtrlWrite
  try dsimp only
  repeat' first
    | with_reducible assumption
    | with_reducible apply keeps_State_storeReg H
    | with_reducible apply keeps_State_loseCal H
    | with_reducible apply keeps_dropLock H
    | with_reducible apply keeps_endAcq H
    | with_reducible apply keeps_State_setPll H
    | with_reducible apply keeps_State_refuse4 H
    | with_reducible apply keeps_startAcq H
    | with_reducible refine ite_keeps (fun _ => ?_) (fun _ => ?_)

theorem keeps_execPllAcq {P : State → Prop} (H : Closed P) (r : Req) (h : Fin 8) (v : Word) (s : State) (keep_s : P s) : ∀ s1, (execPllAcq r h v s) = .next s1 → P s1 := by
  unfold execPllAcq
  refine next_keeps ?_
  try dsimp only
  repeat' first
    | with_reducible assumption
    | with_reducible apply keeps_regCmd H
    | with_reducible apply keeps_pllCtrlWrite H

theorem keeps_execPllDisable {P : State → Prop} (H : Closed P) (r : Req) (h : Fin 8) (v : Word) (s : State) (keep_s : P s) : ∀ s1, (execPllDisable r h v s) = .next s1 → P s1 := by
  unfold execPllDisable
  refine next_keeps ?_
  try dsimp only
  repeat' first
    | with_reducible assumption
    | with_reducible apply keeps_regCmd H
    | with_reducible apply keeps_pllCtrlWrite H

theorem keeps_pllForceWrite {P : State → Prop} (H : Closed P) (r : Req) (h : Fin 8) (v : Word) (s : State) (keep_s : P s) : P (pllForceWrite r h v s) := by
  unfold pllForceWrite
  try dsimp only
  repeat' first
    | with_reducible assumption
    | with_reducible apply keeps_State_storeReg H
    | with_reducible apply keeps_State_put H
    | with_reducible apply keeps_endAcq H
    | with_reducible refine ite_keeps (fun _ => ?_) (fun _ => ?_)

theorem keeps_execPllLockDeclared {P : State → Prop} (H : Closed P) (h : Fin 8) (t : ℕ) (s : State) (keep_s : P s) : ∀ s1, (execPllLockDeclared h t s) = .next s1 → P s1 := by
  unfold execPllLockDeclared
  refine next_keeps ?_
  try dsimp only
  repeat' first
    | with_reducible assumption
    | with_reducible apply keeps_endAcq H
    | with_reducible apply keeps_State_put H
    | with_reducible apply keeps_State_at H
    | with_reducible apply keeps_State_setPll H
    | with_reducible refine ite_keeps (fun _ => ?_) (fun _ => ?_)
    | with_reducible refine foldl_keeps (fun _ _ _ => ?_) ?_
    | with_reducible refine dite_keeps (fun _ => ?_) (fun _ => ?_)
    | with_reducible refine ite_fst (fun _ => ?_) (fun _ => ?_)
    | with_reducible refine ite_snd (fun _ => ?_) (fun _ => ?_)
    | with_reducible refine ite_snd2 (fun _ => ?_) (fun _ => ?_)
    | with_reducible refine ite_snd3 (fun _ => ?_) (fun _ => ?_)
    | with_reducible refine foldl_fst (fun _ _ _ => ?_) ?_
    | with_reducible refine foldl_snd (fun _ _ _ => ?_) ?_
    | with_reducible refine snd_of_eq (by assumption) ?_
    | with_reducible refine fst_of_eq (by assumption) ?_
    | with_reducible refine snd2_of_eq (by assumption) ?_
    | with_reducible intro _ _
    | with_reducible intro _ _ _
    | split

theorem keeps_execPllAcqTimeout {P : State → Prop} (H : Closed P) (h : Fin 8) (s : State) (keep_s : P s) : ∀ s1, (execPllAcqTimeout h s) = .next s1 → P s1 := by
  unfold execPllAcqTimeout
  refine next_keeps ?_
  try dsimp only
  repeat' first
    | with_reducible assumption
    | with_reducible apply keeps_State_inc H
    | with_reducible apply keeps_State_at H
    | with_reducible apply keeps_State_setPll H
    | with_reducible apply keeps_pllFailed H
    | with_reducible apply keeps_beginAttempt H
    | with_reducible refine ite_keeps (fun _ => ?_) (fun _ => ?_)
    | with_reducible refine foldl_keeps (fun _ _ _ => ?_) ?_
    | with_reducible refine dite_keeps (fun _ => ?_) (fun _ => ?_)
    | with_reducible refine ite_fst (fun _ => ?_) (fun _ => ?_)
    | with_reducible refine ite_snd (fun _ => ?_) (fun _ => ?_)
    | with_reducible refine ite_snd2 (fun _ => ?_) (fun _ => ?_)
    | with_reducible refine ite_snd3 (fun _ => ?_) (fun _ => ?_)
    | with_reducible refine foldl_fst (fun _ _ _ => ?_) ?_
    | with_reducible refine foldl_snd (fun _ _ _ => ?_) ?_
    | with_reducible refine snd_of_eq (by assumption) ?_
    | with_reducible refine fst_of_eq (by assumption) ?_
    | with_reducible refine snd2_of_eq (by assumption) ?_
    | with_reducible intro _ _
    | with_reducible intro _ _ _
    | split

theorem keeps_loseLock {P : State → Prop} (H : Closed P) (h : Fin 8) (s : State) (keep_s : P s) : P (loseLock h s) := by
  unfold loseLock
  try dsimp only
  repeat' first
    | with_reducible assumption
    | with_reducible apply keeps_State_inc H
    | with_reducible apply keeps_State_put H
    | with_reducible apply keeps_dropLock H
    | with_reducible apply keeps_State_raiseSev H
    | with_reducible apply keeps_startAcq H
    | with_reducible refine ite_keeps (fun _ => ?_) (fun _ => ?_)

theorem keeps_execPllLossOfLock {P : State → Prop} (H : Closed P) (h : Fin 8) (t : ℕ) (s : State) (keep_s : P s) : ∀ s1, (execPllLossOfLock h t s) = .next s1 → P s1 := by
  unfold execPllLossOfLock
  refine next_keeps ?_
  try dsimp only
  repeat' first
    | with_reducible assumption
    | with_reducible apply keeps_loseLock H
    | with_reducible apply keeps_State_at H

theorem keeps_execPllSlip {P : State → Prop} (H : Closed P) (h : Fin 8) (s : State) (keep_s : P s) : ∀ s1, (execPllSlip h s) = .next s1 → P s1 := by
  unfold execPllSlip
  refine next_keeps ?_
  try dsimp only
  repeat' first
    | with_reducible assumption
    | with_reducible apply keeps_State_inc H
    | with_reducible refine ite_keeps (fun _ => ?_) (fun _ => ?_)

theorem keeps_execPllTuningMargin {P : State → Prop} (H : Closed P) (h : Fin 8) (mv : ℕ) (t : ℕ) (s : State) (keep_s : P s) : ∀ s1, (execPllTuningMargin h mv t s) = .next s1 → P s1 := by
  unfold execPllTuningMargin
  refine next_keeps ?_
  try dsimp only
  repeat' first
    | with_reducible assumption
    | with_reducible apply keeps_State_put H
    | with_reducible apply keeps_State_at H
    | with_reducible apply keeps_State_raise H
    | with_reducible refine ite_keeps (fun _ => ?_) (fun _ => ?_)

theorem keeps_resumeClock {P : State → Prop} (H : Closed P) (h : Fin 8) (d : ℕ) (s : State) (keep_s : P s) : P (resumeClock h d s) := by
  unfold resumeClock
  try dsimp only
  repeat' first
    | with_reducible assumption
    | with_reducible refine ite_keeps (fun _ => ?_) (fun _ => ?_)
    | with_reducible refine foldl_keeps (fun _ _ _ => ?_) ?_
    | with_reducible refine dite_keeps (fun _ => ?_) (fun _ => ?_)
    | with_reducible refine ite_fst (fun _ => ?_) (fun _ => ?_)
    | with_reducible refine ite_snd (fun _ => ?_) (fun _ => ?_)
    | with_reducible refine ite_snd2 (fun _ => ?_) (fun _ => ?_)
    | with_reducible refine ite_snd3 (fun _ => ?_) (fun _ => ?_)
    | with_reducible refine foldl_fst (fun _ _ _ => ?_) ?_
    | with_reducible refine foldl_snd (fun _ _ _ => ?_) ?_
    | with_reducible refine snd_of_eq (by assumption) ?_
    | with_reducible refine fst_of_eq (by assumption) ?_
    | with_reducible refine snd2_of_eq (by assumption) ?_
    | with_reducible intro _ _
    | with_reducible intro _ _ _
    | split
    | dsimp only
    | with_reducible apply H.mk'

theorem keeps_execPllAlign {P : State → Prop} (H : Closed P) (h : Fin 8) (s : State) (keep_s : P s) : ∀ s1, (execPllAlign h s) = .next s1 → P s1 := by
  unfold execPllAlign
  refine next_keeps ?_
  try dsimp only
  repeat' first
    | with_reducible assumption
    | with_reducible apply keeps_State_setPll H
    | with_reducible apply keeps_State_put H
    | with_reducible apply keeps_State_at H
    | with_reducible apply keeps_resumeClock H
    | with_reducible apply keeps_State_setHstate H
    | with_reducible refine ite_keeps (fun _ => ?_) (fun _ => ?_)
    | with_reducible refine foldl_keeps (fun _ _ _ => ?_) ?_
    | with_reducible refine dite_keeps (fun _ => ?_) (fun _ => ?_)
    | with_reducible refine ite_fst (fun _ => ?_) (fun _ => ?_)
    | with_reducible refine ite_snd (fun _ => ?_) (fun _ => ?_)
    | with_reducible refine ite_snd2 (fun _ => ?_) (fun _ => ?_)
    | with_reducible refine ite_snd3 (fun _ => ?_) (fun _ => ?_)
    | with_reducible refine foldl_fst (fun _ _ _ => ?_) ?_
    | with_reducible refine foldl_snd (fun _ _ _ => ?_) ?_
    | with_reducible refine snd_of_eq (by assumption) ?_
    | with_reducible refine fst_of_eq (by assumption) ?_
    | with_reducible refine snd2_of_eq (by assumption) ?_
    | with_reducible intro _ _
    | with_reducible intro _ _ _
    | split
    | dsimp only
    | with_reducible apply H.mk'

theorem keeps_execRefinLoss {P : State → Prop} (H : Closed P) (t : ℕ) (s : State) (keep_s : P s) : ∀ s1, (execRefinLoss t s) = .next s1 → P s1 := by
  unfold execRefinLoss
  refine next_keeps ?_
  try dsimp only
  repeat' first
    | with_reducible assumption
    | with_reducible apply keeps_State_at H
    | with_reducible apply keeps_State_put H
    | with_reducible apply keeps_State_raise H
    | with_reducible apply keeps_lpllLost H
    | with_reducible apply keeps_loseLock H
    | with_reducible refine ite_keeps (fun _ => ?_) (fun _ => ?_)
    | with_reducible refine foldl_keeps (fun _ _ _ => ?_) ?_

theorem keeps_execRefinRequalified {P : State → Prop} (H : Closed P) (t : ℕ) (s : State) (keep_s : P s) : ∀ s1, (execRefinRequalified t s) = .next s1 → P s1 := by
  unfold execRefinRequalified
  refine next_keeps ?_
  try dsimp only
  repeat' first
    | with_reducible assumption
    | with_reducible apply keeps_State_at H
    | with_reducible apply keeps_State_put H
    | with_reducible apply keeps_lpllLocked H
    | with_reducible refine ite_keeps (fun _ => ?_) (fun _ => ?_)

theorem keeps_clkOutWrite {P : State → Prop} (H : Closed P) (r : Req) (n : Fin 4) (div : Bool) (v : Word) (s : State) (keep_s : P s) : P (clkOutWrite r n div v s) := by
  unfold clkOutWrite
  try dsimp only
  repeat' first
    | with_reducible assumption
    | with_reducible apply keeps_State_storeReg H
    | with_reducible apply keeps_State_refuse4 H
    | with_reducible refine ite_keeps (fun _ => ?_) (fun _ => ?_)
    | with_reducible refine foldl_keeps (fun _ _ _ => ?_) ?_
    | with_reducible refine dite_keeps (fun _ => ?_) (fun _ => ?_)
    | with_reducible refine ite_fst (fun _ => ?_) (fun _ => ?_)
    | with_reducible refine ite_snd (fun _ => ?_) (fun _ => ?_)
    | with_reducible refine ite_snd2 (fun _ => ?_) (fun _ => ?_)
    | with_reducible refine ite_snd3 (fun _ => ?_) (fun _ => ?_)
    | with_reducible refine foldl_fst (fun _ _ _ => ?_) ?_
    | with_reducible refine foldl_snd (fun _ _ _ => ?_) ?_
    | with_reducible refine snd_of_eq (by assumption) ?_
    | with_reducible refine fst_of_eq (by assumption) ?_
    | with_reducible refine snd2_of_eq (by assumption) ?_
    | with_reducible intro _ _
    | with_reducible intro _ _ _
    | split
    | dsimp only
    | with_reducible apply H.mk'

theorem keeps_execClkoutReconfigure {P : State → Prop} (H : Closed P) (r : Req) (n : Fin 4) (div : Bool) (v : Word) (s : State) (keep_s : P s) : ∀ s1, (execClkoutReconfigure r n div v s) = .next s1 → P s1 := by
  unfold execClkoutReconfigure
  refine next_keeps ?_
  try dsimp only
  repeat' first
    | with_reducible assumption
    | with_reducible apply keeps_regCmd H
    | with_reducible apply keeps_clkOutWrite H

theorem keeps_execClkoutAlign {P : State → Prop} (H : Closed P) (n : Fin 4) (s : State) (keep_s : P s) : ∀ s1, (execClkoutAlign n s) = .next s1 → P s1 := by
  unfold execClkoutAlign
  refine next_keeps ?_
  try dsimp only
  repeat' first
    | with_reducible assumption
    | with_reducible apply keeps_State_at H
    | with_reducible refine ite_keeps (fun _ => ?_) (fun _ => ?_)
    | with_reducible refine foldl_keeps (fun _ _ _ => ?_) ?_
    | with_reducible refine dite_keeps (fun _ => ?_) (fun _ => ?_)
    | with_reducible refine ite_fst (fun _ => ?_) (fun _ => ?_)
    | with_reducible refine ite_snd (fun _ => ?_) (fun _ => ?_)
    | with_reducible refine ite_snd2 (fun _ => ?_) (fun _ => ?_)
    | with_reducible refine ite_snd3 (fun _ => ?_) (fun _ => ?_)
    | with_reducible refine foldl_fst (fun _ _ _ => ?_) ?_
    | with_reducible refine foldl_snd (fun _ _ _ => ?_) ?_
    | with_reducible refine snd_of_eq (by assumption) ?_
    | with_reducible refine fst_of_eq (by assumption) ?_
    | with_reducible refine snd2_of_eq (by assumption) ?_
    | with_reducible intro _ _
    | with_reducible intro _ _ _
    | split
    | dsimp only
    | with_reducible apply H.mk'

theorem keeps_execStileXoFail {P : State → Prop} (H : Closed P) (t : Nat) (s : State) (keep_s : P s) : ∀ s1, execStileXoFail t s = .next s1 → P s1 := by
  have key : ∀ (u : State) (failed : State → State), P u → (∀ x, P x → P (failed x)) → P (
      if u.bel.answer.isSome then
        (if u.pow.down = 0 then failed { u with bel := { u.bel with answer := none } } else { u with bel := { u.bel with answer := none } })
      else if u.get Fld.STL_STAT_STATE = 0 ∧ u.pow.down = 0 then failed u
      else if u.get Fld.STL_STAT_STATE ≠ 5 then u
      else
        if ({ failed u with stl := { (failed u).stl with goal := 0, entered := none, lock := false } } : State).flag Fld.STL_STAT_LATCHED then
          ((({ failed u with stl := { (failed u).stl with goal := 0, entered := none, lock := false } } : State).put Fld.STL_STAT_LATCHED 0).put
            Fld.STL_STAT_LASTRES 4).inc (Fld.STL_CNTn_COUNT.i 5)
        else { failed u with stl := { (failed u).stl with goal := 0, entered := none, lock := false } }) := by
    intro u failed hu hf
    have hx : P { failed u with stl := { (failed u).stl with goal := 0, entered := none, lock := false } } := H.mk' (hf u hu) ..
    exact ite_keeps (fun _ => ite_keeps (fun _ => hf _ (H.mk' hu ..)) (fun _ => H.mk' hu ..)) (fun _ => ite_keeps (fun _ => hf u hu) (fun _ => ite_keeps (fun _ => hu)
      (fun _ => ite_keeps (fun _ => keeps_State_inc H _ _ (keeps_State_put H _ _ _ (keeps_State_put H _ _ _ hx))) (fun _ => hx))))
  unfold execStileXoFail
  refine next_keeps ?_
  exact key (s.at t) (fun s => ((s.put Fld.STL_STAT_XOFAIL 1).put Fld.STL_STAT_STATE 0).raise 0x474 0xFF 0) (keeps_State_at H s t keep_s)
    fun x hx => keeps_State_raise H _ _ _ _ (keeps_State_put H _ _ _ (keeps_State_put H _ _ _ hx))

end Sys2Proof.Machine
end

