-- ==== Sys2Proof/Laws/KeepsBias.lean ====
section
/-!
SUPPORT. Closed predicates are kept by every operation of these files.
-/

namespace Sys2Proof.Machine

theorem keeps_State_setBias {P : State → Prop} (H : Closed P) (s : State) (c : Fin 32) (x : Bias) (keep_s : P s) : P (State.setBias s c x) := by
  unfold State.setBias
  try dsimp only
  repeat' first
    | with_reducible assumption
    | with_reducible refine ite_keeps (fun _ => ?_) (fun _ => ?_)
    | with_reducible refine foldl_keeps (fun _ _ _ => ?_) ?_
    | with_reducible refine dite_keeps (fun _ => ?_) (fun _ => ?_)
    | with_reducible refine ite_fst (fun _ => ?_) (fun _ => ?_)
    | with_reducible refine ite_snd (fun _ => ?_) (fun _ => ?_)
    | with_reducible refine ite_snd2 (fun _ => ?_) (fun _ => ?_)
    | with_reducible refine ite_snd3 (fun _ => ?_) (fun _ => ?_)
    | with_reducible refine foldl_fst (fun _ _ _ => ?_) ?_
    | with_reducible refine foldl_snd (fun _ _ _ => ?_) ?_
    | with_reducible refine snd_of_eq (by assumption) ?_
    | with_reducible refine fst_of_eq (by assumption) ?_
    | with_reducible refine snd2_of_eq (by assumption) ?_
    | with_reducible intro _ _
    | with_reducible intro _ _ _
    | split
    | dsimp only
    | with_reducible apply H.mk'

theorem keeps_setOwner {P : State → Prop} (H : Closed P) (c : Fin 32) (o : ℕ) (s : State) (keep_s : P s) : P (setOwner c o s) := by
  unfold setOwner
  try dsimp only
  repeat' first
    | with_reducible assumption
    | with_reducible apply keeps_State_put H

theorem keeps_moveTo {P : State → Prop} (H : Closed P) (c : Fin 32) (goal : ℕ) (ramp : Bool) (s : State) (keep_s : P s) : P (moveTo c goal ramp s) := by
  unfold moveTo
  try dsimp only
  repeat' first
    | with_reducible assumption
    | with_reducible apply keeps_setOwner H
    | with_reducible apply keeps_State_setBias H
    | with_reducible apply keeps_State_put H
    | with_reducible refine ite_keeps (fun _ => ?_) (fun _ => ?_)

theorem keeps_toOffset {P : State → Prop} (H : Closed P) (c : Fin 32) (s : State) (keep_s : P s) : P (toOffset c s) := by
  unfold toOffset
  try dsimp only
  repeat' first
    | with_reducible assumption
    | with_reducible apply keeps_setOwner H
    | with_reducible apply keeps_State_setBias H
    | with_reducible apply keeps_State_put H
    | with_reducible refine ite_keeps (fun _ => ?_) (fun _ => ?_)

theorem keeps_startSine {P : State → Prop} (H : Closed P) (c : Fin 32) (t : ℕ) (s : State) (keep_s : P s) : P (startSine c t s) := by
  unfold startSine
  try dsimp only
  repeat' first
    | with_reducible assumption
    | with_reducible apply keeps_State_setBias H
    | with_reducible apply keeps_setOwner H
    | with_reducible apply keeps_State_put H
    | with_reducible refine ite_keeps (fun _ => ?_) (fun _ => ?_)

theorem keeps_settleSine {P : State → Prop} (H : Closed P) (c : Fin 32) (s : State) (keep_s : P s) : P (settleSine c s) := by
  unfold settleSine
  try dsimp only
  repeat' first
    | with_reducible assumption
    | with_reducible apply keeps_startSine H
    | with_reducible refine ite_keeps (fun _ => ?_) (fun _ => ?_)
    | with_reducible refine foldl_keeps (fun _ _ _ => ?_) ?_
    | with_reducible refine dite_keeps (fun _ => ?_) (fun _ => ?_)
    | with_reducible refine ite_fst (fun _ => ?_) (fun _ => ?_)
    | with_reducible refine ite_snd (fun _ => ?_) (fun _ => ?_)
    | with_reducible refine ite_snd2 (fun _ => ?_) (fun _ => ?_)
    | with_reducible refine ite_snd3 (fun _ => ?_) (fun _ => ?_)
    | with_reducible refine foldl_fst (fun _ _ _ => ?_) ?_
    | with_reducible refine foldl_snd (fun _ _ _ => ?_) ?_
    | with_reducible refine snd_of_eq (by assumption) ?_
    | with_reducible refine fst_of_eq (by assumption) ?_
    | with_reducible refine snd2_of_eq (by assumption) ?_
    | with_reducible intro _ _
    | with_reducible intro _ _ _
    | split

theorem keeps_foldSine {P : State → Prop} (H : Closed P) (c : Fin 32) (s : State) (keep_s : P s) : P (foldSine c s) := by
  unfold foldSine
  try dsimp only
  repeat' first
    | with_reducible assumption
    | with_reducible apply keeps_State_put H
    | with_reducible apply keeps_State_setBias H
    | with_reducible refine ite_keeps (fun _ => ?_) (fun _ => ?_)
    | with_reducible refine foldl_keeps (fun _ _ _ => ?_) ?_
    | with_reducible refine dite_keeps (fun _ => ?_) (fun _ => ?_)
    | with_reducible refine ite_fst (fun _ => ?_) (fun _ => ?_)
    | with_reducible refine ite_snd (fun _ => ?_) (fun _ => ?_)
    | with_reducible refine ite_snd2 (fun _ => ?_) (fun _ => ?_)
    | with_reducible refine ite_snd3 (fun _ => ?_) (fun _ => ?_)
    | with_reducible refine foldl_fst (fun _ _ _ => ?_) ?_
    | with_reducible refine foldl_snd (fun _ _ _ => ?_) ?_
    | with_reducible refine snd_of_eq (by assumption) ?_
    | with_reducible refine fst_of_eq (by assumption) ?_
    | with_reducible refine snd2_of_eq (by assumption) ?_
    | with_reducible intro _ _
    | with_reducible intro _ _ _
    | split

theorem keeps_stopSine {P : State → Prop} (H : Closed P) (c : Fin 32) (s : State) (keep_s : P s) : P (stopSine c s) := by
  unfold stopSine
  try dsimp only
  repeat' first
    | with_reducible assumption
    | with_reducible apply keeps_foldSine H
    | with_reducible apply keeps_State_put H
    | with_reducible apply keeps_setOwner H
    | with_reducible apply keeps_State_setBias H
    | with_reducible refine ite_keeps (fun _ => ?_) (fun _ => ?_)
    | with_reducible refine foldl_keeps (fun _ _ _ => ?_) ?_
    | with_reducible refine dite_keeps (fun _ => ?_) (fun _ => ?_)
    | with_reducible refine ite_fst (fun _ => ?_) (fun _ => ?_)
    | with_reducible refine ite_snd (fun _ => ?_) (fun _ => ?_)
    | with_reducible refine ite_snd2 (fun _ => ?_) (fun _ => ?_)
    | with_reducible refine ite_snd3 (fun _ => ?_) (fun _ => ?_)
    | with_reducible refine foldl_fst (fun _ _ _ => ?_) ?_
    | with_reducible refine foldl_snd (fun _ _ _ => ?_) ?_
    | with_reducible refine snd_of_eq (by assumption) ?_
    | with_reducible refine fst_of_eq (by assumption) ?_
    | with_reducible refine snd2_of_eq (by assumption) ?_
    | with_reducible intro _ _
    | with_reducible intro _ _ _
    | split

theorem keeps_execBiasSineStart {P : State → Prop} (H : Closed P) (c : Fin 32) (s : State) (keep_s : P s) : ∀ s1, (execBiasSineStart c s) = .next s1 → P s1 := by
  unfold execBiasSineStart
  refine next_keeps ?_
  try dsimp only
  repeat' first
    | with_reducible assumption
    | with_reducible apply keeps_startSine H
    | with_reducible apply keeps_State_at H
    | with_reducible refine ite_keeps (fun _ => ?_) (fun _ => ?_)
    | with_reducible refine foldl_keeps (fun _ _ _ => ?_) ?_
    | with_reducible refine dite_keeps (fun _ => ?_) (fun _ => ?_)
    | with_reducible refine ite_fst (fun _ => ?_) (fun _ => ?_)
    | with_reducible refine ite_snd (fun _ => ?_) (fun _ => ?_)
    | with_reducible refine ite_snd2 (fun _ => ?_) (fun _ => ?_)
    | with_reducible refine ite_snd3 (fun _ => ?_) (fun _ => ?_)
    | with_reducible refine foldl_fst (fun _ _ _ => ?_) ?_
    | with_reducible refine foldl_snd (fun _ _ _ => ?_) ?_
    | with_reducible refine snd_of_eq (by assumption) ?_
    | with_reducible refine fst_of_eq (by assumption) ?_
    | with_reducible refine snd2_of_eq (by assumption) ?_
    | with_reducible intro _ _
    | with_reducible intro _ _ _
    | split

theorem keeps_execBiasSlewStep {P : State → Prop} (H : Closed P) (c : Fin 32) (s : State) (keep_s : P s) : ∀ s1, (execBiasSlewStep c s) = .next s1 → P s1 := by
  unfold execBiasSlewStep
  refine next_keeps ?_
  try dsimp only
  repeat' first
    | with_reducible assumption
    | with_reducible apply keeps_State_at H
    | with_reducible apply keeps_State_put H
    | with_reducible apply keeps_State_setBias H
    | with_reducible apply keeps_setOwner H
    | with_reducible apply keeps_toOffset H
    | with_reducible refine ite_keeps (fun _ => ?_) (fun _ => ?_)
    | with_reducible refine foldl_keeps (fun _ _ _ => ?_) ?_
    | with_reducible refine dite_keeps (fun _ => ?_) (fun _ => ?_)
    | with_reducible refine ite_fst (fun _ => ?_) (fun _ => ?_)
    | with_reducible refine ite_snd (fun _ => ?_) (fun _ => ?_)
    | with_reducible refine ite_snd2 (fun _ => ?_) (fun _ => ?_)
    | with_reducible refine ite_snd3 (fun _ => ?_) (fun _ => ?_)
    | with_reducible refine foldl_fst (fun _ _ _ => ?_) ?_
    | with_reducible refine foldl_snd (fun _ _ _ => ?_) ?_
    | with_reducible refine snd_of_eq (by assumption) ?_
    | with_reducible refine fst_of_eq (by assumption) ?_
    | with_reducible refine snd2_of_eq (by assumption) ?_
    | with_reducible intro _ _
    | with_reducible intro _ _ _
    | split

theorem keeps_execBiasSineHalfCycleEnd {P : State → Prop} (H : Closed P) (c : Fin 32) (s : State) (keep_s : P s) : ∀ s1, (execBiasSineHalfCycleEnd c s) = .next s1 → P s1 := by
  unfold execBiasSineHalfCycleEnd
  refine next_keeps ?_
  try dsimp only
  repeat' first
    | with_reducible assumption
    | with_reducible apply keeps_State_at H
    | with_reducible apply keeps_State_put H
    | with_reducible apply keeps_setOwner H
    | with_reducible apply keeps_State_setBias H
    | with_reducible refine ite_keeps (fun _ => ?_) (fun _ => ?_)
    | with_reducible refine foldl_keeps (fun _ _ _ => ?_) ?_
    | with_reducible refine dite_keeps (fun _ => ?_) (fun _ => ?_)
    | with_reducible refine ite_fst (fun _ => ?_) (fun _ => ?_)
    | with_reducible refine ite_snd (fun _ => ?_) (fun _ => ?_)
    | with_reducible refine ite_snd2 (fun _ => ?_) (fun _ => ?_)
    | with_reducible refine ite_snd3 (fun _ => ?_) (fun _ => ?_)
    | with_reducible refine foldl_fst (fun _ _ _ => ?_) ?_
    | with_reducible refine foldl_snd (fun _ _ _ => ?_) ?_
    | with_reducible refine snd_of_eq (by assumption) ?_
    | with_reducible refine fst_of_eq (by assumption) ?_
    | with_reducible refine snd2_of_eq (by assumption) ?_
    | with_reducible intro _ _
    | with_reducible intro _ _ _
    | split

theorem keeps_forceClear {P : State → Prop} (H : Closed P) (s : State) (c : Fin 32) (keep_s : P s) : P (forceClear s c) := by
  unfold forceClear
  try dsimp only
  repeat' first
    | with_reducible assumption
    | with_reducible apply keeps_foldSine H
    | with_reducible apply keeps_State_put H
    | with_reducible apply keeps_State_setBias H
    | with_reducible apply keeps_setOwner H
    | with_reducible refine ite_keeps (fun _ => ?_) (fun _ => ?_)

theorem keeps_clearBias {P : State → Prop} (H : Closed P) (h : Fin 8) (s : State) (keep_s : P s) : P (clearBias h s) := by
  unfold clearBias
  try dsimp only
  repeat' first
    | with_reducible assumption
    | with_reducible apply keeps_forceClear H
    | with_reducible refine ite_keeps (fun _ => ?_) (fun _ => ?_)
    | with_reducible refine foldl_keeps (fun _ _ _ => ?_) ?_

theorem keeps_clearAllBias {P : State → Prop} (H : Closed P) (s : State) (keep_s : P s) : P (clearAllBias s) := by
  unfold clearAllBias
  try dsimp only
  repeat' first
    | with_reducible assumption
    | with_reducible apply keeps_forceClear H
    | with_reducible refine ite_keeps (fun _ => ?_) (fun _ => ?_)
    | with_reducible refine foldl_keeps (fun _ _ _ => ?_) ?_

theorem keeps_biasDomain {P : State → Prop} (H : Closed P) (h : Fin 8) (up : Bool) (s : State) (keep_s : P s) : P (biasDomain h up s) := by
  unfold biasDomain
  try dsimp only
  repeat' first
    | with_reducible assumption
    | with_reducible apply keeps_State_put H
    | with_reducible apply keeps_forceClear H
    | with_reducible refine ite_keeps (fun _ => ?_) (fun _ => ?_)
    | with_reducible refine foldl_keeps (fun _ _ _ => ?_) ?_

theorem keeps_execBiasClrAssert {P : State → Prop} (H : Closed P) (t : ℕ) (s : State) (keep_s : P s) : ∀ s1, (execBiasClrAssert t s) = .next s1 → P s1 := by
  unfold execBiasClrAssert
  refine next_keeps ?_
  try dsimp only
  repeat' first
    | with_reducible assumption
    | with_reducible apply keeps_clearAllBias H
    | with_reducible apply keeps_State_put H
    | with_reducible apply keeps_State_at H

theorem keeps_execBiasClrRelease {P : State → Prop} (H : Closed P) (t : ℕ) (s : State) (keep_s : P s) : ∀ s1, (execBiasClrRelease t s) = .next s1 → P s1 := by
  unfold execBiasClrRelease
  refine next_keeps ?_
  try dsimp only
  repeat' first
    | with_reducible assumption
    | with_reducible apply keeps_State_put H
    | with_reducible apply keeps_State_at H

theorem keeps_biasRefused {P : State → Prop} (H : Closed P) (r : Req) (a : ℕ) (c : Fin 32) (s : State) (keep_s : P s) : P (biasRefused r a c s) := by
  unfold biasRefused
  try dsimp only
  repeat' first
    | with_reducible assumption
    | with_reducible apply keeps_State_put H
    | with_reducible apply keeps_State_refuse4 H

theorem keeps_biasCodeWrite {P : State → Prop} (H : Closed P) (r : Req) (c : Fin 32) (v : Word) (s : State) (keep_s : P s) : P (biasCodeWrite r c v s) := by
  unfold biasCodeWrite
  try dsimp only
  repeat' first
    | with_reducible assumption
    | with_reducible apply keeps_settleSine H
    | with_reducible apply keeps_State_refuse4 H
    | with_reducible apply keeps_biasRefused H
    | with_reducible apply keeps_stopSine H
    | with_reducible apply keeps_State_put H
    | with_reducible apply keeps_State_storeReg H
    | with_reducible apply keeps_moveTo H
    | with_reducible apply keeps_toOffset H
    | with_reducible refine ite_keeps (fun _ => ?_) (fun _ => ?_)

theorem keeps_execBiasCodeWrite {P : State → Prop} (H : Closed P) (r : Req) (c : Fin 32) (v : Word) (s : State) (keep_s : P s) : ∀ s1, (execBiasCodeWrite r c v s) = .next s1 → P s1 := by
  unfold execBiasCodeWrite
  refine next_keeps ?_
  try dsimp only
  repeat' first
    | with_reducible assumption
    | with_reducible apply keeps_regCmd H
    | with_reducible apply keeps_biasCodeWrite H

theorem keeps_biasCfgWrite {P : State → Prop} (H : Closed P) (r : Req) (c : Fin 32) (v : Word) (s : State) (keep_s : P s) : P (biasCfgWrite r c v s) := by
  unfold biasCfgWrite
  try dsimp only
  repeat' first
    | with_reducible assumption
    | with_reducible apply keeps_settleSine H
    | with_reducible apply keeps_State_storeReg H
    | with_reducible apply keeps_biasRefused H
    | with_reducible apply keeps_State_put H
    | with_reducible refine ite_keeps (fun _ => ?_) (fun _ => ?_)

theorem keeps_execBiasModeWrite {P : State → Prop} (H : Closed P) (r : Req) (c : Fin 32) (v : Word) (s : State) (keep_s : P s) : ∀ s1, (execBiasModeWrite r c v s) = .next s1 → P s1 := by
  unfold execBiasModeWrite
  refine next_keeps ?_
  try dsimp only
  repeat' first
    | with_reducible assumption
    | with_reducible apply keeps_regCmd H
    | with_reducible apply keeps_biasCfgWrite H

theorem keeps_retuneSine {P : State → Prop} (H : Closed P) (c : Fin 32) (s : State) (keep_s : P s) : P (retuneSine c s) := by
  unfold retuneSine
  try dsimp only
  repeat' first
    | with_reducible assumption
    | with_reducible apply keeps_foldSine H
    | with_reducible apply keeps_State_setBias H
    | with_reducible refine ite_keeps (fun _ => ?_) (fun _ => ?_)
    | with_reducible refine foldl_keeps (fun _ _ _ => ?_) ?_
    | with_reducible refine dite_keeps (fun _ => ?_) (fun _ => ?_)
    | with_reducible refine ite_fst (fun _ => ?_) (fun _ => ?_)
    | with_reducible refine ite_snd (fun _ => ?_) (fun _ => ?_)
    | with_reducible refine ite_snd2 (fun _ => ?_) (fun _ => ?_)
    | with_reducible refine ite_snd3 (fun _ => ?_) (fun _ => ?_)
    | with_reducible refine foldl_fst (fun _ _ _ => ?_) ?_
    | with_reducible refine foldl_snd (fun _ _ _ => ?_) ?_
    | with_reducible refine snd_of_eq (by assumption) ?_
    | with_reducible refine fst_of_eq (by assumption) ?_
    | with_reducible refine snd2_of_eq (by assumption) ?_
    | with_reducible intro _ _
    | with_reducible intro _ _ _
    | split

theorem keeps_sineOn {P : State → Prop} (H : Closed P) (c : Fin 32) (s : State) (keep_s : P s) : P (sineOn c s) := by
  unfold sineOn
  try dsimp only
  repeat' first
    | with_reducible assumption
    | with_reducible apply keeps_State_setBias H
    | with_reducible apply keeps_State_put H
    | with_reducible apply keeps_toOffset H
    | with_reducible refine ite_keeps (fun _ => ?_) (fun _ => ?_)
    | with_reducible refine foldl_keeps (fun _ _ _ => ?_) ?_
    | with_reducible refine dite_keeps (fun _ => ?_) (fun _ => ?_)
    | with_reducible refine ite_fst (fun _ => ?_) (fun _ => ?_)
    | with_reducible refine ite_snd (fun _ => ?_) (fun _ => ?_)
    | with_reducible refine ite_snd2 (fun _ => ?_) (fun _ => ?_)
    | with_reducible refine ite_snd3 (fun _ => ?_) (fun _ => ?_)
    | with_reducible refine foldl_fst (fun _ _ _ => ?_) ?_
    | with_reducible refine foldl_snd (fun _ _ _ => ?_) ?_
    | with_reducible refine snd_of_eq (by assumption) ?_
    | with_reducible refine fst_of_eq (by assumption) ?_
    | with_reducible refine snd2_of_eq (by assumption) ?_
    | with_reducible intro _ _
    | with_reducible intro _ _ _
    | split

theorem keeps_sineOff {P : State → Prop} (H : Closed P) (c : Fin 32) (s : State) (keep_s : P s) : P (sineOff c s) := by
  unfold sineOff
  try dsimp only
  repeat' first
    | with_reducible assumption
    | with_reducible apply keeps_State_setBias H
    | with_reducible apply keeps_State_put H
    | with_reducible refine ite_keeps (fun _ => ?_) (fun _ => ?_)
    | with_reducible refine foldl_keeps (fun _ _ _ => ?_) ?_
    | with_reducible refine dite_keeps (fun _ => ?_) (fun _ => ?_)
    | with_reducible refine ite_fst (fun _ => ?_) (fun _ => ?_)
    | with_reducible refine ite_snd (fun _ => ?_) (fun _ => ?_)
    | with_reducible refine ite_snd2 (fun _ => ?_) (fun _ => ?_)
    | with_reducible refine ite_snd3 (fun _ => ?_) (fun _ => ?_)
    | with_reducible refine foldl_fst (fun _ _ _ => ?_) ?_
    | with_reducible refine foldl_snd (fun _ _ _ => ?_) ?_
    | with_reducible refine snd_of_eq (by assumption) ?_
    | with_reducible refine fst_of_eq (by assumption) ?_
    | with_reducible refine snd2_of_eq (by assumption) ?_
    | with_reducible intro _ _
    | with_reducible intro _ _ _
    | split

theorem keeps_biasSineWrite {P : State → Prop} (H : Closed P) (r : Req) (c : Fin 32) (v : Word) (s : State) (keep_s : P s) : P (biasSineWrite r c v s) := by
  unfold biasSineWrite
  try dsimp only
  repeat' first
    | with_reducible assumption
    | with_reducible apply keeps_settleSine H
    | with_reducible apply keeps_State_refuse4 H
    | with_reducible apply keeps_biasRefused H
    | with_reducible apply keeps_retuneSine H
    | with_reducible apply keeps_State_storeReg H
    | with_reducible apply keeps_sineOn H
    | with_reducible apply keeps_sineOff H
    | with_reducible refine ite_keeps (fun _ => ?_) (fun _ => ?_)

theorem keeps_execBiasSineEnable {P : State → Prop} (H : Closed P) (r : Req) (c : Fin 32) (v : Word) (s : State) (keep_s : P s) : ∀ s1, (execBiasSineEnable r c v s) = .next s1 → P s1 := by
  unfold execBiasSineEnable
  refine next_keeps ?_
  try dsimp only
  repeat' first
    | with_reducible assumption
    | with_reducible apply keeps_regCmd H
    | with_reducible apply keeps_biasSineWrite H

theorem keeps_execBiasSineDisable {P : State → Prop} (H : Closed P) (r : Req) (c : Fin 32) (v : Word) (s : State) (keep_s : P s) : ∀ s1, (execBiasSineDisable r c v s) = .next s1 → P s1 := by
  unfold execBiasSineDisable
  refine next_keeps ?_
  try dsimp only
  repeat' first
    | with_reducible assumption
    | with_reducible apply keeps_regCmd H
    | with_reducible apply keeps_biasSineWrite H

theorem keeps_biasSampWrite {P : State → Prop} (H : Closed P) (r : Req) (c : Fin 32) (v : Word) (s : State) (keep_s : P s) : P (biasSampWrite r c v s) := by
  unfold biasSampWrite
  try dsimp only
  repeat' first
    | with_reducible assumption
    | with_reducible apply keeps_foldSine H
    | with_reducible apply keeps_State_storeReg H
    | with_reducible apply keeps_settleSine H
    | with_reducible apply keeps_State_setBias H
    | with_reducible refine ite_keeps (fun _ => ?_) (fun _ => ?_)
    | with_reducible refine foldl_keeps (fun _ _ _ => ?_) ?_
    | with_reducible refine dite_keeps (fun _ => ?_) (fun _ => ?_)
    | with_reducible refine ite_fst (fun _ => ?_) (fun _ => ?_)
    | with_reducible refine ite_snd (fun _ => ?_) (fun _ => ?_)
    | with_reducible refine ite_snd2 (fun _ => ?_) (fun _ => ?_)
    | with_reducible refine ite_snd3 (fun _ => ?_) (fun _ => ?_)
    | with_reducible refine foldl_fst (fun _ _ _ => ?_) ?_
    | with_reducible refine foldl_snd (fun _ _ _ => ?_) ?_
    | with_reducible refine snd_of_eq (by assumption) ?_
    | with_reducible refine fst_of_eq (by assumption) ?_
    | with_reducible refine snd2_of_eq (by assumption) ?_
    | with_reducible intro _ _
    | with_reducible intro _ _ _
    | split

theorem keeps_biasClrWrite {P : State → Prop} (H : Closed P) (r : Req) (c : Fin 32) (v : Word) (s : State) (keep_s : P s) : P (biasClrWrite r c v s) := by
  unfold biasClrWrite
  try dsimp only
  repeat' first
    | with_reducible assumption
    | with_reducible apply keeps_State_storeReg H
    | with_reducible apply keeps_State_loseUnit H
    | with_reducible refine ite_keeps (fun _ => ?_) (fun _ => ?_)

theorem keeps_biasStatWrite {P : State → Prop} (H : Closed P) (r : Req) (c : Fin 32) (v : Word) (s : State) (keep_s : P s) : P (biasStatWrite r c v s) := by
  unfold biasStatWrite
  try dsimp only
  repeat' first
    | with_reducible assumption
    | with_reducible apply keeps_State_storeReg H
    | with_reducible apply keeps_foldSine H
    | with_reducible apply keeps_settleSine H

theorem keeps_vcxoRelease {P : State → Prop} (H : Closed P) (s : State) (keep_s : P s) : P (vcxoRelease s) := by
  unfold vcxoRelease
  try dsimp only
  repeat' first
    | with_reducible assumption
    | with_reducible apply keeps_setOwner H
    | with_reducible apply keeps_State_setBias H
    | with_reducible refine ite_keeps (fun _ => ?_) (fun _ => ?_)

theorem keeps_vcxoWrite {P : State → Prop} (H : Closed P) (r : Req) (v : Word) (s : State) (keep_s : P s) : P (vcxoWrite r v s) := by
  unfold vcxoWrite
  try dsimp only
  repeat' first
    | with_reducible assumption
    | with_reducible apply keeps_State_refuse4 H
    | with_reducible apply keeps_State_storeReg H
    | with_reducible apply keeps_vcxoRelease H
    | with_reducible apply keeps_settleSine H
    | with_reducible apply keeps_State_loseUnit H
    | with_reducible apply keeps_setOwner H
    | with_reducible apply keeps_biasRefused H
    | with_reducible refine ite_keeps (fun _ => ?_) (fun _ => ?_)

theorem keeps_execVcxoEnable {P : State → Prop} (H : Closed P) (r : Req) (v : Word) (s : State) (keep_s : P s) : ∀ s1, (execVcxoEnable r v s) = .next s1 → P s1 := by
  unfold execVcxoEnable
  refine next_keeps ?_
  try dsimp only
  repeat' first
    | with_reducible assumption
    | with_reducible apply keeps_regCmd H
    | with_reducible apply keeps_vcxoWrite H

theorem keeps_vcxoRenew {P : State → Prop} (H : Closed P) (t : ℤ) (s : State) (keep_s : P s) : P (vcxoRenew t s) := by
  unfold vcxoRenew
  try dsimp only
  repeat' first
    | with_reducible assumption
    | with_reducible apply keeps_State_drawn_2 H
    | with_reducible apply keeps_State_setBias H
    | with_reducible refine ite_keeps (fun _ => ?_) (fun _ => ?_)

end Sys2Proof.Machine
end

