-- ==== Sys2Proof/Laws/KeepsThermal.lean ====
section
/-!
SUPPORT. Closed predicates are kept by every operation of these files.
-/

namespace Sys2Proof.Machine

theorem keeps_State_setThm {P : State → Prop} (H : Closed P) (s : State) (x : Thm) (keep_s : P s) : P (State.setThm s x) := by
  unfold State.setThm
  try dsimp only
  repeat' first
    | with_reducible assumption
    | with_reducible refine ite_keeps (fun _ => ?_) (fun _ => ?_)
    | with_reducible refine foldl_keeps (fun _ _ _ => ?_) ?_
    | with_reducible refine dite_keeps (fun _ => ?_) (fun _ => ?_)
    | with_reducible refine ite_fst (fun _ => ?_) (fun _ => ?_)
    | with_reducible refine ite_snd (fun _ => ?_) (fun _ => ?_)
    | with_reducible refine ite_snd2 (fun _ => ?_) (fun _ => ?_)
    | with_reducible refine ite_snd3 (fun _ => ?_) (fun _ => ?_)
    | with_reducible refine foldl_fst (fun _ _ _ => ?_) ?_
    | with_reducible refine foldl_snd (fun _ _ _ => ?_) ?_
    | with_reducible refine snd_of_eq (by assumption) ?_
    | with_reducible refine fst_of_eq (by assumption) ?_
    | with_reducible refine snd2_of_eq (by assumption) ?_
    | with_reducible intro _ _
    | with_reducible intro _ _ _
    | split
    | dsimp only
    | with_reducible apply H.mk'

theorem keeps_stepReading {P : State → Prop} (H : Closed P) (temps : List (ℕ × ℕ × Bool)) (s : State) (n : Fin 84) (keep_s : P s) : P (stepReading temps s n) := by
  unfold stepReading
  try dsimp only
  repeat' first
    | with_reducible assumption
    | with_reducible apply keeps_State_put H
    | with_reducible apply keeps_State_setThm H
    | with_reducible refine ite_keeps (fun _ => ?_) (fun _ => ?_)
    | with_reducible refine foldl_keeps (fun _ _ _ => ?_) ?_
    | with_reducible refine dite_keeps (fun _ => ?_) (fun _ => ?_)
    | with_reducible refine ite_fst (fun _ => ?_) (fun _ => ?_)
    | with_reducible refine ite_snd (fun _ => ?_) (fun _ => ?_)
    | with_reducible refine ite_snd2 (fun _ => ?_) (fun _ => ?_)
    | with_reducible refine ite_snd3 (fun _ => ?_) (fun _ => ?_)
    | with_reducible refine foldl_fst (fun _ _ _ => ?_) ?_
    | with_reducible refine foldl_snd (fun _ _ _ => ?_) ?_
    | with_reducible refine snd_of_eq (by assumption) ?_
    | with_reducible refine fst_of_eq (by assumption) ?_
    | with_reducible refine snd2_of_eq (by assumption) ?_
    | with_reducible intro _ _
    | with_reducible intro _ _ _
    | split

theorem keeps_stepNeighbour {P : State → Prop} (H : Closed P) (s : State) (n : Fin 84) (fails : Bool) (els : List ℤ) (keep_s : P s) : P (stepNeighbour s n fails els) := by
  unfold stepNeighbour
  try dsimp only
  repeat' first
    | with_reducible assumption
    | with_reducible apply keeps_State_setThm H
    | with_reducible apply keeps_State_put H
    | with_reducible refine ite_keeps (fun _ => ?_) (fun _ => ?_)

theorem keeps_judgeSensors_1 {P : State → Prop} (H : Closed P) (temps : List (ℕ × ℕ × Bool)) (s : State) (keep_s : P s) : P (judgeSensors temps s).1 := by
  unfold judgeSensors
  try dsimp only
  repeat' first
    | with_reducible assumption
    | with_reducible apply keeps_stepReading H
    | with_reducible apply keeps_stepNeighbour H
    | with_reducible apply keeps_State_put H
    | with_reducible refine ite_keeps (fun _ => ?_) (fun _ => ?_)
    | with_reducible refine foldl_keeps (fun _ _ _ => ?_) ?_
    | with_reducible refine dite_keeps (fun _ => ?_) (fun _ => ?_)
    | with_reducible refine ite_fst (fun _ => ?_) (fun _ => ?_)
    | with_reducible refine ite_snd (fun _ => ?_) (fun _ => ?_)
    | with_reducible refine ite_snd2 (fun _ => ?_) (fun _ => ?_)
    | with_reducible refine ite_snd3 (fun _ => ?_) (fun _ => ?_)
    | with_reducible refine foldl_fst (fun _ _ _ => ?_) ?_
    | with_reducible refine foldl_snd (fun _ _ _ => ?_) ?_
    | with_reducible refine snd_of_eq (by assumption) ?_
    | with_reducible refine fst_of_eq (by assumption) ?_
    | with_reducible refine snd2_of_eq (by assumption) ?_
    | with_reducible intro _ _
    | with_reducible intro _ _ _
    | split

theorem keeps_State_setZone {P : State → Prop} (H : Closed P) (s : State) (z : Fin 9) (x : ThmZone) (keep_s : P s) : P (State.setZone s z x) := by
  unfold State.setZone
  try dsimp only
  repeat' first
    | with_reducible assumption
    | with_reducible apply keeps_State_setThm H

theorem keeps_pinZone {P : State → Prop} (H : Closed P) (turned : List ℕ) (z : Fin 9) (s : State) (keep_s : P s) : P (pinZone turned z s) := by
  unfold pinZone
  try dsimp only
  repeat' first
    | with_reducible assumption
    | with_reducible apply keeps_State_setZone H
    | with_reducible apply keeps_State_put H

theorem keeps_changeActs {P : State → Prop} (H : Closed P) (z : Fin 9) (acts : Word) (s : State) (keep_s : P s) : P (changeActs z acts s) := by
  unfold changeActs
  try dsimp only
  repeat' first
    | with_reducible assumption
    | with_reducible apply keeps_reramp H
    | with_reducible apply keeps_State_setZone H
    | with_reducible apply keeps_State_setThm H
    | with_reducible apply keeps_State_notifyLink H
    | with_reducible refine ite_keeps (fun _ => ?_) (fun _ => ?_)
    | with_reducible refine foldl_keeps (fun _ _ _ => ?_) ?_
    | with_reducible refine dite_keeps (fun _ => ?_) (fun _ => ?_)
    | with_reducible refine ite_fst (fun _ => ?_) (fun _ => ?_)
    | with_reducible refine ite_snd (fun _ => ?_) (fun _ => ?_)
    | with_reducible refine ite_snd2 (fun _ => ?_) (fun _ => ?_)
    | with_reducible refine ite_snd3 (fun _ => ?_) (fun _ => ?_)
    | with_reducible refine foldl_fst (fun _ _ _ => ?_) ?_
    | with_reducible refine foldl_snd (fun _ _ _ => ?_) ?_
    | with_reducible refine snd_of_eq (by assumption) ?_
    | with_reducible refine fst_of_eq (by assumption) ?_
    | with_reducible refine snd2_of_eq (by assumption) ?_
    | with_reducible intro _ _
    | with_reducible intro _ _ _
    | split

theorem keeps_applyActs {P : State → Prop} (H : Closed P) (z : Fin 9) (s : State) (keep_s : P s) : P (applyActs z s) := by
  unfold applyActs
  try dsimp only
  repeat' first
    | with_reducible assumption
    | with_reducible apply keeps_changeActs H

theorem keeps_removeActs {P : State → Prop} (H : Closed P) (h : Fin 8) (s : State) (keep_s : P s) : P (removeActs h s) := by
  unfold removeActs
  try dsimp only
  repeat' first
    | with_reducible assumption
    | with_reducible apply keeps_changeActs H

theorem keeps_execShedTakeEffect {P : State → Prop} (H : Closed P) (s : State) (keep_s : P s) : ∀ s1, (execShedTakeEffect s) = .next s1 → P s1 := by
  unfold execShedTakeEffect
  refine next_keeps ?_
  try dsimp only
  repeat' first
    | with_reducible assumption
    | with_reducible apply keeps_State_at H
    | with_reducible apply keeps_State_setThm H
    | with_reducible refine ite_keeps (fun _ => ?_) (fun _ => ?_)
    | with_reducible refine foldl_keeps (fun _ _ _ => ?_) ?_
    | with_reducible refine dite_keeps (fun _ => ?_) (fun _ => ?_)
    | with_reducible refine ite_fst (fun _ => ?_) (fun _ => ?_)
    | with_reducible refine ite_snd (fun _ => ?_) (fun _ => ?_)
    | with_reducible refine ite_snd2 (fun _ => ?_) (fun _ => ?_)
    | with_reducible refine ite_snd3 (fun _ => ?_) (fun _ => ?_)
    | with_reducible refine foldl_fst (fun _ _ _ => ?_) ?_
    | with_reducible refine foldl_snd (fun _ _ _ => ?_) ?_
    | with_reducible refine snd_of_eq (by assumption) ?_
    | with_reducible refine fst_of_eq (by assumption) ?_
    | with_reducible refine snd2_of_eq (by assumption) ?_
    | with_reducible intro _ _
    | with_reducible intro _ _ _
    | split

theorem keeps_execRotationStep {P : State → Prop} (H : Closed P) (h : Fin 8) (s : State) (keep_s : P s) : ∀ s1, (execRotationStep h s) = .next s1 → P s1 := by
  unfold execRotationStep
  refine next_keeps ?_
  try dsimp only
  repeat' first
    | with_reducible assumption
    | with_reducible apply keeps_State_at H
    | with_reducible apply keeps_State_setThm H
    | with_reducible apply keeps_rampNow H
    | with_reducible refine ite_keeps (fun _ => ?_) (fun _ => ?_)
    | with_reducible refine foldl_keeps (fun _ _ _ => ?_) ?_
    | with_reducible refine dite_keeps (fun _ => ?_) (fun _ => ?_)
    | with_reducible refine ite_fst (fun _ => ?_) (fun _ => ?_)
    | with_reducible refine ite_snd (fun _ => ?_) (fun _ => ?_)
    | with_reducible refine ite_snd2 (fun _ => ?_) (fun _ => ?_)
    | with_reducible refine ite_snd3 (fun _ => ?_) (fun _ => ?_)
    | with_reducible refine foldl_fst (fun _ _ _ => ?_) ?_
    | with_reducible refine foldl_snd (fun _ _ _ => ?_) ?_
    | with_reducible refine snd_of_eq (by assumption) ?_
    | with_reducible refine fst_of_eq (by assumption) ?_
    | with_reducible refine snd2_of_eq (by assumption) ?_
    | with_reducible intro _ _
    | with_reducible intro _ _ _
    | split

theorem keeps_stopBist {P : State → Prop} (H : Closed P) (s : State) (keep_s : P s) : P (stopBist s) := by
  unfold stopBist
  try dsimp only
  repeat' first
    | with_reducible assumption
    | with_reducible apply keeps_State_put H
    | with_reducible refine ite_keeps (fun _ => ?_) (fun _ => ?_)
    | with_reducible refine foldl_keeps (fun _ _ _ => ?_) ?_
    | with_reducible refine dite_keeps (fun _ => ?_) (fun _ => ?_)
    | with_reducible refine ite_fst (fun _ => ?_) (fun _ => ?_)
    | with_reducible refine ite_snd (fun _ => ?_) (fun _ => ?_)
    | with_reducible refine ite_snd2 (fun _ => ?_) (fun _ => ?_)
    | with_reducible refine ite_snd3 (fun _ => ?_) (fun _ => ?_)
    | with_reducible refine foldl_fst (fun _ _ _ => ?_) ?_
    | with_reducible refine foldl_snd (fun _ _ _ => ?_) ?_
    | with_reducible refine snd_of_eq (by assumption) ?_
    | with_reducible refine fst_of_eq (by assumption) ?_
    | with_reducible refine snd2_of_eq (by assumption) ?_
    | with_reducible intro _ _
    | with_reducible intro _ _ _
    | split
    | dsimp only
    | with_reducible apply H.mk'

theorem keeps_beginStop {P : State → Prop} (H : Closed P) (cause : ℕ × ℕ) (s : State) (keep_s : P s) : P (beginStop cause s) := by
  unfold beginStop
  try dsimp only
  repeat' first
    | with_reducible assumption
    | with_reducible apply keeps_State_raise H
    | with_reducible apply keeps_State_setThm H
    | with_reducible apply keeps_State_put H
    | with_reducible apply keeps_State_faultAction H
    | with_reducible apply keeps_State_stopAllDma H
    | with_reducible apply keeps_stopBist H
    | with_reducible refine ite_keeps (fun _ => ?_) (fun _ => ?_)
    | with_reducible refine foldl_keeps (fun _ _ _ => ?_) ?_

theorem keeps_leaveOwners {P : State → Prop} (H : Closed P) (s : State) (keep_s : P s) : P (leaveOwners s) := by
  unfold leaveOwners
  try dsimp only
  repeat' first
    | with_reducible assumption
    | with_reducible apply keeps_stopSine H
    | with_reducible apply keeps_settleSine H
    | with_reducible apply keeps_State_put H
    | with_reducible apply keeps_setOwner H
    | with_reducible apply keeps_State_setBias H
    | with_reducible refine ite_keeps (fun _ => ?_) (fun _ => ?_)
    | with_reducible refine foldl_keeps (fun _ _ _ => ?_) ?_

theorem keeps_stepClear {P : State → Prop} (H : Closed P) (s : State) (keep_s : P s) : P (stepClear s) := by
  unfold stepClear
  try dsimp only
  repeat' first
    | with_reducible assumption
    | with_reducible apply keeps_State_put H
    | with_reducible refine ite_keeps (fun _ => ?_) (fun _ => ?_)
    | with_reducible refine foldl_keeps (fun _ _ _ => ?_) ?_

theorem keeps_execOrderlyStopBias {P : State → Prop} (H : Closed P) (s : State) (keep_s : P s) : ∀ s1, (execOrderlyStopBias s) = .next s1 → P s1 := by
  unfold execOrderlyStopBias
  refine next_keeps ?_
  try dsimp only
  repeat' first
    | with_reducible assumption
    | with_reducible apply keeps_State_at H
    | with_reducible apply keeps_leaveOwners H
    | with_reducible apply keeps_stepClear H
    | with_reducible apply keeps_State_setThm H
    | with_reducible apply keeps_loseHamlet H
    | with_reducible refine ite_keeps (fun _ => ?_) (fun _ => ?_)
    | with_reducible refine foldl_keeps (fun _ _ _ => ?_) ?_
    | with_reducible refine dite_keeps (fun _ => ?_) (fun _ => ?_)
    | with_reducible refine ite_fst (fun _ => ?_) (fun _ => ?_)
    | with_reducible refine ite_snd (fun _ => ?_) (fun _ => ?_)
    | with_reducible refine ite_snd2 (fun _ => ?_) (fun _ => ?_)
    | with_reducible refine ite_snd3 (fun _ => ?_) (fun _ => ?_)
    | with_reducible refine foldl_fst (fun _ _ _ => ?_) ?_
    | with_reducible refine foldl_snd (fun _ _ _ => ?_) ?_
    | with_reducible refine snd_of_eq (by assumption) ?_
    | with_reducible refine fst_of_eq (by assumption) ?_
    | with_reducible refine snd2_of_eq (by assumption) ?_
    | with_reducible intro _ _
    | with_reducible intro _ _ _
    | split

theorem keeps_execOrderlyStopComplete {P : State → Prop} (H : Closed P) (s : State) (keep_s : P s) : ∀ s1, (execOrderlyStopComplete s) = .next s1 → P s1 := by
  unfold execOrderlyStopComplete
  refine next_keeps ?_
  try dsimp only
  repeat' first
    | with_reducible assumption
    | with_reducible apply keeps_State_inc H
    | with_reducible apply keeps_State_put H
    | with_reducible apply keeps_State_wr H
    | with_reducible apply keeps_State_setThm H
    | with_reducible apply keeps_splitStalled_2 H
    | with_reducible apply keeps_failStalled H
    | with_reducible apply keeps_State_setHpow H
    | with_reducible refine ite_keeps (fun _ => ?_) (fun _ => ?_)
    | with_reducible refine foldl_keeps (fun _ _ _ => ?_) ?_

theorem keeps_execHardCut {P : State → Prop} (H : Closed P) (s : State) (keep_s : P s) : ∀ s1, (execHardCut s) = .next s1 → P s1 := by
  unfold execHardCut
  refine next_keeps ?_
  try dsimp only
  repeat' first
    | with_reducible assumption
    | with_reducible apply keeps_goDark H
    | with_reducible apply keeps_State_wr H
    | with_reducible apply keeps_State_at H
    | with_reducible refine ite_keeps (fun _ => ?_) (fun _ => ?_)
    | with_reducible refine foldl_keeps (fun _ _ _ => ?_) ?_
    | with_reducible refine dite_keeps (fun _ => ?_) (fun _ => ?_)
    | with_reducible refine ite_fst (fun _ => ?_) (fun _ => ?_)
    | with_reducible refine ite_snd (fun _ => ?_) (fun _ => ?_)
    | with_reducible refine ite_snd2 (fun _ => ?_) (fun _ => ?_)
    | with_reducible refine ite_snd3 (fun _ => ?_) (fun _ => ?_)
    | with_reducible refine foldl_fst (fun _ _ _ => ?_) ?_
    | with_reducible refine foldl_snd (fun _ _ _ => ?_) ?_
    | with_reducible refine snd_of_eq (by assumption) ?_
    | with_reducible refine fst_of_eq (by assumption) ?_
    | with_reducible refine snd2_of_eq (by assumption) ?_
    | with_reducible intro _ _
    | with_reducible intro _ _ _
    | split

theorem keeps_judgeZone_1 {P : State → Prop} (H : Closed P) (turned : List ℕ) (z : Fin 9) (s : State) (keep_s : P s) : P (judgeZone turned z s).1 := by
  unfold judgeZone
  try dsimp only
  repeat' first
    | with_reducible assumption
    | with_reducible apply keeps_pinZone H
    | with_reducible apply keeps_State_put H
    | with_reducible apply keeps_State_setZone H
    | with_reducible apply keeps_State_setBit H
    | with_reducible apply keeps_State_clrBit H
    | with_reducible refine ite_keeps (fun _ => ?_) (fun _ => ?_)
    | with_reducible refine foldl_keeps (fun _ _ _ => ?_) ?_
    | with_reducible refine dite_keeps (fun _ => ?_) (fun _ => ?_)
    | with_reducible refine ite_fst (fun _ => ?_) (fun _ => ?_)
    | with_reducible refine ite_snd (fun _ => ?_) (fun _ => ?_)
    | with_reducible refine ite_snd2 (fun _ => ?_) (fun _ => ?_)
    | with_reducible refine ite_snd3 (fun _ => ?_) (fun _ => ?_)
    | with_reducible refine foldl_fst (fun _ _ _ => ?_) ?_
    | with_reducible refine foldl_snd (fun _ _ _ => ?_) ?_
    | with_reducible refine snd_of_eq (by assumption) ?_
    | with_reducible refine fst_of_eq (by assumption) ?_
    | with_reducible refine snd2_of_eq (by assumption) ?_
    | with_reducible intro _ _
    | with_reducible intro _ _ _
    | split

theorem keeps_ceaseZone {P : State → Prop} (H : Closed P) (num : ℕ) (z : ℕ) (s : State) (keep_s : P s) : P (ceaseZone num z s) := by
  unfold ceaseZone
  try dsimp only
  repeat' first
    | with_reducible assumption
    | with_reducible apply keeps_State_indicate H

theorem keeps_reportRound {P : State → Prop} (H : Closed P) (ch : List (Fin 9 × ℕ × Bool)) (turned : List ℕ) (s : State) (keep_s : P s) : P (reportRound ch turned s) := by
  unfold reportRound
  try dsimp only
  repeat' first
    | with_reducible assumption
    | with_reducible apply keeps_beginStop H
    | with_reducible apply keeps_applyActs H
    | with_reducible apply keeps_State_inc H
    | with_reducible apply keeps_State_raiseSend H
    | with_reducible apply keeps_State_raise H
    | with_reducible apply keeps_ceaseZone H
    | with_reducible apply keeps_changeActs H
    | with_reducible refine ite_keeps (fun _ => ?_) (fun _ => ?_)
    | with_reducible refine foldl_keeps (fun _ _ _ => ?_) ?_

theorem keeps_hardCheck {P : State → Prop} (H : Closed P) (s : State) (keep_s : P s) : P (hardCheck s) := by
  unfold hardCheck
  try dsimp only
  repeat' first
    | with_reducible assumption
    | with_reducible apply keeps_State_setThm H
    | with_reducible refine ite_keeps (fun _ => ?_) (fun _ => ?_)
    | with_reducible refine foldl_keeps (fun _ _ _ => ?_) ?_
    | with_reducible refine dite_keeps (fun _ => ?_) (fun _ => ?_)
    | with_reducible refine ite_fst (fun _ => ?_) (fun _ => ?_)
    | with_reducible refine ite_snd (fun _ => ?_) (fun _ => ?_)
    | with_reducible refine ite_snd2 (fun _ => ?_) (fun _ => ?_)
    | with_reducible refine ite_snd3 (fun _ => ?_) (fun _ => ?_)
    | with_reducible refine foldl_fst (fun _ _ _ => ?_) ?_
    | with_reducible refine foldl_snd (fun _ _ _ => ?_) ?_
    | with_reducible refine snd_of_eq (by assumption) ?_
    | with_reducible refine fst_of_eq (by assumption) ?_
    | with_reducible refine snd2_of_eq (by assumption) ?_
    | with_reducible intro _ _
    | with_reducible intro _ _ _
    | split

theorem keeps_trimStep {P : State → Prop} (H : Closed P) (s : State) (keep_s : P s) : P (trimStep s) := by
  unfold trimStep
  try dsimp only
  repeat' first
    | with_reducible assumption
    | with_reducible refine ite_keeps (fun _ => ?_) (fun _ => ?_)
    | with_reducible refine foldl_keeps (fun _ _ _ => ?_) ?_
    | with_reducible refine dite_keeps (fun _ => ?_) (fun _ => ?_)
    | with_reducible refine ite_fst (fun _ => ?_) (fun _ => ?_)
    | with_reducible refine ite_snd (fun _ => ?_) (fun _ => ?_)
    | with_reducible refine ite_snd2 (fun _ => ?_) (fun _ => ?_)
    | with_reducible refine ite_snd3 (fun _ => ?_) (fun _ => ?_)
    | with_reducible refine foldl_fst (fun _ _ _ => ?_) ?_
    | with_reducible refine foldl_snd (fun _ _ _ => ?_) ?_
    | with_reducible refine snd_of_eq (by assumption) ?_
    | with_reducible refine fst_of_eq (by assumption) ?_
    | with_reducible refine snd2_of_eq (by assumption) ?_
    | with_reducible intro _ _
    | with_reducible intro _ _ _
    | split
    | dsimp only
    | with_reducible apply H.mk'

theorem keeps_thermalRound {P : State → Prop} (H : Closed P) (temps : List (ℕ × ℕ × Bool)) (s : State) (keep_s : P s) : P (thermalRound temps s) := by
  unfold thermalRound
  try dsimp only
  repeat' first
    | with_reducible assumption
    | with_reducible apply keeps_judgeSensors_1 H
    | with_reducible apply keeps_hardCheck H
    | with_reducible apply keeps_judgeZone_1 H
    | with_reducible apply keeps_reportRound H
    | with_reducible refine ite_keeps (fun _ => ?_) (fun _ => ?_)
    | with_reducible refine foldl_keeps (fun _ _ _ => ?_) ?_
    | with_reducible refine dite_keeps (fun _ => ?_) (fun _ => ?_)
    | with_reducible refine ite_fst (fun _ => ?_) (fun _ => ?_)
    | with_reducible refine ite_snd (fun _ => ?_) (fun _ => ?_)
    | with_reducible refine ite_snd2 (fun _ => ?_) (fun _ => ?_)
    | with_reducible refine ite_snd3 (fun _ => ?_) (fun _ => ?_)
    | with_reducible refine foldl_fst (fun _ _ _ => ?_) ?_

theorem keeps_thmLimitWrite {P : State → Prop} (H : Closed P) (r : Req) (v : Word) (s : State) (keep_s : P s) : P (thmLimitWrite r v s) := by
  unfold thmLimitWrite
  try dsimp only
  repeat' first
    | with_reducible assumption
    | with_reducible apply keeps_State_storeReg H
    | with_reducible apply keeps_State_refuse4 H
    | with_reducible refine ite_keeps (fun _ => ?_) (fun _ => ?_)

theorem keeps_thmCtrlWrite {P : State → Prop} (H : Closed P) (r : Req) (v : Word) (s : State) (keep_s : P s) : P (thmCtrlWrite r v s) := by
  unfold thmCtrlWrite
  try dsimp only
  repeat' first
    | with_reducible assumption
    | with_reducible apply keeps_State_clrBit H
    | with_reducible apply keeps_State_setZone H
    | with_reducible apply keeps_State_refuse4 H
    | with_reducible apply keeps_State_put H
    | with_reducible refine ite_keeps (fun _ => ?_) (fun _ => ?_)
    | with_reducible refine foldl_keeps (fun _ _ _ => ?_) ?_

theorem keeps_execThmRearm {P : State → Prop} (H : Closed P) (r : Req) (v : Word) (s : State) (keep_s : P s) : ∀ s1, (execThmRearm r v s) = .next s1 → P s1 := by
  unfold execThmRearm
  refine next_keeps ?_
  try dsimp only
  repeat' first
    | with_reducible assumption
    | with_reducible apply keeps_regCmd H
    | with_reducible apply keeps_thmCtrlWrite H

theorem keeps_execThmUnpin {P : State → Prop} (H : Closed P) (r : Req) (v : Word) (s : State) (keep_s : P s) : ∀ s1, (execThmUnpin r v s) = .next s1 → P s1 := by
  unfold execThmUnpin
  refine next_keeps ?_
  try dsimp only
  repeat' first
    | with_reducible assumption
    | with_reducible apply keeps_regCmd H
    | with_reducible apply keeps_thmCtrlWrite H

end Sys2Proof.Machine
end

