-- ==== Sys2Proof/Laws/KeepsHousekeeping.lean ====
section
/-!
SUPPORT. Closed predicates are kept by every operation of these files.
-/

namespace Sys2Proof.Machine

theorem keeps_State_setHk {P : State → Prop} (H : Closed P) (s : State) (x : Hk) (keep_s : P s) : P (State.setHk s x) := by
  unfold State.setHk
  try dsimp only
  repeat' first
    | with_reducible assumption
    | with_reducible refine ite_keeps (fun _ => ?_) (fun _ => ?_)
    | with_reducible refine foldl_keeps (fun _ _ _ => ?_) ?_
    | with_reducible refine dite_keeps (fun _ => ?_) (fun _ => ?_)
    | with_reducible refine ite_fst (fun _ => ?_) (fun _ => ?_)
    | with_reducible refine ite_snd (fun _ => ?_) (fun _ => ?_)
    | with_reducible refine ite_snd2 (fun _ => ?_) (fun _ => ?_)
    | with_reducible refine ite_snd3 (fun _ => ?_) (fun _ => ?_)
    | with_reducible refine foldl_fst (fun _ _ _ => ?_) ?_
    | with_reducible refine foldl_snd (fun _ _ _ => ?_) ?_
    | with_reducible refine snd_of_eq (by assumption) ?_
    | with_reducible refine fst_of_eq (by assumption) ?_
    | with_reducible refine snd2_of_eq (by assumption) ?_
    | with_reducible intro _ _
    | with_reducible intro _ _ _
    | split
    | dsimp only
    | with_reducible apply H.mk'

theorem keeps_beginEntry {P : State → Prop} (H : Closed P) (fixed : Bool) (n : ℕ) (ch : ℕ) (osr : ℕ) (settle : ℕ) (ext : Bool) (s : State) (keep_s : P s) : P (beginEntry fixed n ch osr settle ext s) := by
  unfold beginEntry
  try dsimp only
  repeat' first
    | with_reducible assumption
    | with_reducible apply keeps_State_setHk H

theorem keeps_endPass {P : State → Prop} (H : Closed P) (stopped : Bool) (s : State) (keep_s : P s) : P (endPass stopped s) := by
  unfold endPass
  try dsimp only
  repeat' first
    | with_reducible assumption
    | with_reducible apply keeps_State_setHk H
    | with_reducible apply keeps_State_put H
    | with_reducible refine ite_keeps (fun _ => ?_) (fun _ => ?_)

theorem keeps_beginUser {P : State → Prop} (H : Closed P) (n : ℕ) (s : State) (keep_s : P s) : P (beginUser n s) := by
  unfold beginUser
  try dsimp only
  repeat' first
    | with_reducible assumption
    | with_reducible apply keeps_State_setHk H
    | with_reducible apply keeps_State_put H
    | with_reducible apply keeps_beginEntry H

theorem keeps_takeUser {P : State → Prop} (H : Closed P) (s : State) (keep_s : P s) : P (takeUser s) := by
  unfold takeUser
  try dsimp only
  repeat' first
    | with_reducible assumption
    | with_reducible apply keeps_beginUser H
    | with_reducible apply keeps_endPass H
    | with_reducible refine ite_keeps (fun _ => ?_) (fun _ => ?_)
    | with_reducible refine foldl_keeps (fun _ _ _ => ?_) ?_
    | with_reducible refine dite_keeps (fun _ => ?_) (fun _ => ?_)
    | with_reducible refine ite_fst (fun _ => ?_) (fun _ => ?_)
    | with_reducible refine ite_snd (fun _ => ?_) (fun _ => ?_)
    | with_reducible refine ite_snd2 (fun _ => ?_) (fun _ => ?_)
    | with_reducible refine ite_snd3 (fun _ => ?_) (fun _ => ?_)
    | with_reducible refine foldl_fst (fun _ _ _ => ?_) ?_
    | with_reducible refine foldl_snd (fun _ _ _ => ?_) ?_
    | with_reducible refine snd_of_eq (by assumption) ?_
    | with_reducible refine fst_of_eq (by assumption) ?_
    | with_reducible refine snd2_of_eq (by assumption) ?_
    | with_reducible intro _ _
    | with_reducible intro _ _ _
    | split

theorem keeps_nextEntry {P : State → Prop} (H : Closed P) (s : State) (keep_s : P s) : P (nextEntry s) := by
  unfold nextEntry
  try dsimp only
  repeat' first
    | with_reducible assumption
    | with_reducible apply keeps_State_setHk H
    | with_reducible apply keeps_beginEntry H
    | with_reducible apply keeps_takeUser H
    | with_reducible refine ite_keeps (fun _ => ?_) (fun _ => ?_)
    | with_reducible refine foldl_keeps (fun _ _ _ => ?_) ?_
    | with_reducible refine dite_keeps (fun _ => ?_) (fun _ => ?_)
    | with_reducible refine ite_fst (fun _ => ?_) (fun _ => ?_)
    | with_reducible refine ite_snd (fun _ => ?_) (fun _ => ?_)
    | with_reducible refine ite_snd2 (fun _ => ?_) (fun _ => ?_)
    | with_reducible refine ite_snd3 (fun _ => ?_) (fun _ => ?_)
    | with_reducible refine foldl_fst (fun _ _ _ => ?_) ?_
    | with_reducible refine foldl_snd (fun _ _ _ => ?_) ?_
    | with_reducible refine snd_of_eq (by assumption) ?_
    | with_reducible refine fst_of_eq (by assumption) ?_
    | with_reducible refine snd2_of_eq (by assumption) ?_
    | with_reducible intro _ _
    | with_reducible intro _ _ _
    | split

theorem keeps_beginRound {P : State → Prop} (H : Closed P) (s : State) (keep_s : P s) : P (beginRound s) := by
  unfold beginRound
  try dsimp only
  repeat' first
    | with_reducible assumption
    | with_reducible apply keeps_State_take H
    | with_reducible apply keeps_State_put H
    | with_reducible apply keeps_nextEntry H
    | with_reducible apply keeps_State_setHk H

theorem keeps_restartRound {P : State → Prop} (H : Closed P) (id : ℕ) (s : State) (keep_s : P s) : P (restartRound id s) := by
  unfold restartRound
  try dsimp only
  repeat' first
    | with_reducible assumption
    | with_reducible apply keeps_State_setHk H
    | with_reducible refine ite_keeps (fun _ => ?_) (fun _ => ?_)

theorem keeps_execHkRoundStart {P : State → Prop} (H : Closed P) (s : State) (keep_s : P s) : ∀ s1, (execHkRoundStart s) = .next s1 → P s1 := by
  unfold execHkRoundStart
  refine next_keeps ?_
  try dsimp only
  repeat' first
    | with_reducible assumption
    | with_reducible apply keeps_State_setHk H
    | with_reducible apply keeps_State_at H
    | with_reducible apply keeps_State_put H
    | with_reducible apply keeps_State_inc H
    | with_reducible apply keeps_beginRound H
    | with_reducible refine ite_keeps (fun _ => ?_) (fun _ => ?_)

theorem keeps_execHkCoarseReady {P : State → Prop} (H : Closed P) (v : ℕ) (s : State) (keep_s : P s) : ∀ s1, (execHkCoarseReady v s) = .next s1 → P s1 := by
  unfold execHkCoarseReady
  refine next_keeps ?_
  try dsimp only
  repeat' first
    | with_reducible assumption
    | with_reducible apply keeps_State_at H
    | with_reducible apply keeps_State_setHk H
    | with_reducible apply keeps_State_put H
    | with_reducible refine ite_keeps (fun _ => ?_) (fun _ => ?_)
    | with_reducible refine foldl_keeps (fun _ _ _ => ?_) ?_
    | with_reducible refine dite_keeps (fun _ => ?_) (fun _ => ?_)
    | with_reducible refine ite_fst (fun _ => ?_) (fun _ => ?_)
    | with_reducible refine ite_snd (fun _ => ?_) (fun _ => ?_)
    | with_reducible refine ite_snd2 (fun _ => ?_) (fun _ => ?_)
    | with_reducible refine ite_snd3 (fun _ => ?_) (fun _ => ?_)
    | with_reducible refine foldl_fst (fun _ _ _ => ?_) ?_
    | with_reducible refine foldl_snd (fun _ _ _ => ?_) ?_
    | with_reducible refine snd_of_eq (by assumption) ?_
    | with_reducible refine fst_of_eq (by assumption) ?_
    | with_reducible refine snd2_of_eq (by assumption) ?_
    | with_reducible intro _ _
    | with_reducible intro _ _ _
    | split

theorem keeps_fixedResult {P : State → Prop} (H : Closed P) (c : HkConv) (v : ℕ) (ovr : Bool) (s : State) (keep_s : P s) : P (fixedResult c v ovr s) := by
  unfold fixedResult
  try dsimp only
  repeat' first
    | with_reducible assumption
    | with_reducible apply keeps_State_setHk H
    | with_reducible apply keeps_State_put H
    | with_reducible refine ite_keeps (fun _ => ?_) (fun _ => ?_)

theorem keeps_userResult {P : State → Prop} (H : Closed P) (c : HkConv) (v : ℕ) (ovr : Bool) (mark : Bool) (unav : Bool) (referr : Bool) (s : State) (keep_s : P s) : P (userResult c v ovr mark unav referr s) := by
  unfold userResult
  try dsimp only
  repeat' first
    | with_reducible assumption
    | with_reducible apply keeps_State_put H
    | with_reducible apply keeps_State_setHk H
    | with_reducible apply keeps_State_wr H
    | with_reducible refine ite_keeps (fun _ => ?_) (fun _ => ?_)

theorem keeps_entryDone {P : State → Prop} (H : Closed P) (user : Bool) (s : State) (keep_s : P s) : P (entryDone user s) := by
  unfold entryDone
  try dsimp only
  repeat' first
    | with_reducible assumption
    | with_reducible apply keeps_State_setHk H
    | with_reducible apply keeps_endPass H
    | with_reducible apply keeps_beginRound H
    | with_reducible apply keeps_nextEntry H
    | with_reducible refine ite_keeps (fun _ => ?_) (fun _ => ?_)

theorem keeps_execHkConversionEnd {P : State → Prop} (H : Closed P) (v : ℕ) (over_ : Option Bool) (s : State) (keep_s : P s) : ∀ s1, (execHkConversionEnd v over_ s) = .next s1 → P s1 := by
  unfold execHkConversionEnd
  refine next_keeps ?_
  try dsimp only
  repeat' first
    | with_reducible assumption
    | with_reducible apply keeps_entryDone H
    | with_reducible apply keeps_userResult H
    | with_reducible apply keeps_State_at H
    | with_reducible apply keeps_State_setHk H
    | with_reducible apply keeps_State_inc H
    | with_reducible apply keeps_fixedResult H
    | with_reducible refine ite_keeps (fun _ => ?_) (fun _ => ?_)
    | with_reducible refine foldl_keeps (fun _ _ _ => ?_) ?_
    | with_reducible refine dite_keeps (fun _ => ?_) (fun _ => ?_)
    | with_reducible refine ite_fst (fun _ => ?_) (fun _ => ?_)
    | with_reducible refine ite_snd (fun _ => ?_) (fun _ => ?_)
    | with_reducible refine ite_snd2 (fun _ => ?_) (fun _ => ?_)
    | with_reducible refine ite_snd3 (fun _ => ?_) (fun _ => ?_)
    | with_reducible refine foldl_fst (fun _ _ _ => ?_) ?_
    | with_reducible refine foldl_snd (fun _ _ _ => ?_) ?_
    | with_reducible refine snd_of_eq (by assumption) ?_
    | with_reducible refine fst_of_eq (by assumption) ?_
    | with_reducible refine snd2_of_eq (by assumption) ?_
    | with_reducible intro _ _
    | with_reducible intro _ _ _
    | split

theorem keeps_execHkRecoveryClose {P : State → Prop} (H : Closed P) (t : ℕ) (s : State) (keep_s : P s) : ∀ s1, (execHkRecoveryClose t s) = .next s1 → P s1 := by
  unfold execHkRecoveryClose
  refine next_keeps ?_
  try dsimp only
  repeat' first
    | with_reducible assumption
    | with_reducible apply keeps_State_at H
    | with_reducible apply keeps_State_setHk H

theorem keeps_execHkRefReady {P : State → Prop} (H : Closed P) (t : ℕ) (s : State) (keep_s : P s) : ∀ s1, (execHkRefReady t s) = .next s1 → P s1 := by
  unfold execHkRefReady
  refine next_keeps ?_
  try dsimp only
  repeat' first
    | with_reducible assumption
    | with_reducible apply keeps_State_put H
    | with_reducible apply keeps_State_at H
    | with_reducible apply keeps_State_setHk H
    | with_reducible refine ite_keeps (fun _ => ?_) (fun _ => ?_)

theorem keeps_execHkRefTimeout {P : State → Prop} (H : Closed P) (s : State) (keep_s : P s) : ∀ s1, (execHkRefTimeout s) = .next s1 → P s1 := by
  unfold execHkRefTimeout
  refine next_keeps ?_
  try dsimp only
  repeat' first
    | with_reducible assumption
    | with_reducible apply keeps_State_inc H
    | with_reducible apply keeps_State_at H
    | with_reducible apply keeps_State_raise H
    | with_reducible apply keeps_entryDone H
    | with_reducible apply keeps_userResult H
    | with_reducible refine ite_keeps (fun _ => ?_) (fun _ => ?_)
    | with_reducible refine foldl_keeps (fun _ _ _ => ?_) ?_
    | with_reducible refine dite_keeps (fun _ => ?_) (fun _ => ?_)
    | with_reducible refine ite_fst (fun _ => ?_) (fun _ => ?_)
    | with_reducible refine ite_snd (fun _ => ?_) (fun _ => ?_)
    | with_reducible refine ite_snd2 (fun _ => ?_) (fun _ => ?_)
    | with_reducible refine ite_snd3 (fun _ => ?_) (fun _ => ?_)
    | with_reducible refine foldl_fst (fun _ _ _ => ?_) ?_
    | with_reducible refine foldl_snd (fun _ _ _ => ?_) ?_
    | with_reducible refine snd_of_eq (by assumption) ?_
    | with_reducible refine fst_of_eq (by assumption) ?_
    | with_reducible refine snd2_of_eq (by assumption) ?_
    | with_reducible intro _ _
    | with_reducible intro _ _ _
    | split

theorem keeps_execHkRefPowerdown {P : State → Prop} (H : Closed P) (s : State) (keep_s : P s) : ∀ s1, (execHkRefPowerdown s) = .next s1 → P s1 := by
  unfold execHkRefPowerdown
  refine next_keeps ?_
  try dsimp only
  repeat' first
    | with_reducible assumption
    | with_reducible apply keeps_State_setHk H
    | with_reducible apply keeps_State_put H
    | with_reducible apply keeps_State_at H
    | with_reducible refine ite_keeps (fun _ => ?_) (fun _ => ?_)
    | with_reducible refine foldl_keeps (fun _ _ _ => ?_) ?_
    | with_reducible refine dite_keeps (fun _ => ?_) (fun _ => ?_)
    | with_reducible refine ite_fst (fun _ => ?_) (fun _ => ?_)
    | with_reducible refine ite_snd (fun _ => ?_) (fun _ => ?_)
    | with_reducible refine ite_snd2 (fun _ => ?_) (fun _ => ?_)
    | with_reducible refine ite_snd3 (fun _ => ?_) (fun _ => ?_)
    | with_reducible refine foldl_fst (fun _ _ _ => ?_) ?_
    | with_reducible refine foldl_snd (fun _ _ _ => ?_) ?_
    | with_reducible refine snd_of_eq (by assumption) ?_
    | with_reducible refine fst_of_eq (by assumption) ?_
    | with_reducible refine snd2_of_eq (by assumption) ?_
    | with_reducible intro _ _
    | with_reducible intro _ _ _
    | split

theorem keeps_noteVbat {P : State → Prop} (H : Closed P) (mv : ℕ) (s : State) (keep_s : P s) : P (noteVbat mv s) := by
  unfold noteVbat
  try dsimp only
  repeat' first
    | with_reducible assumption
    | with_reducible apply keeps_State_put H
    | with_reducible refine ite_keeps (fun _ => ?_) (fun _ => ?_)

theorem keeps_execHkRoundEnd {P : State → Prop} (H : Closed P) (s : State) (keep_s : P s) : ∀ s1, (execHkRoundEnd s) = .next s1 → P s1 := by
  unfold execHkRoundEnd
  refine next_keeps ?_
  try dsimp only
  repeat' first
    | with_reducible assumption
    | with_reducible apply keeps_State_inc H
    | with_reducible apply keeps_State_put H
    | with_reducible apply keeps_noteVbat H
    | with_reducible apply keeps_State_setHk H
    | with_reducible apply keeps_trimStep H
    | with_reducible apply keeps_thermalRound H
    | with_reducible apply keeps_takeUser H
    | with_reducible apply keeps_vcxoRenew H
    | with_reducible refine ite_keeps (fun _ => ?_) (fun _ => ?_)
    | with_reducible refine foldl_keeps (fun _ _ _ => ?_) ?_
    | with_reducible refine dite_keeps (fun _ => ?_) (fun _ => ?_)
    | with_reducible refine ite_fst (fun _ => ?_) (fun _ => ?_)
    | with_reducible refine ite_snd (fun _ => ?_) (fun _ => ?_)
    | with_reducible refine ite_snd2 (fun _ => ?_) (fun _ => ?_)
    | with_reducible refine ite_snd3 (fun _ => ?_) (fun _ => ?_)
    | with_reducible refine foldl_fst (fun _ _ _ => ?_) ?_
    | with_reducible refine foldl_snd (fun _ _ _ => ?_) ?_
    | with_reducible refine snd_of_eq (by assumption) ?_
    | with_reducible refine fst_of_eq (by assumption) ?_
    | with_reducible refine snd2_of_eq (by assumption) ?_
    | with_reducible intro _ _
    | with_reducible intro _ _ _
    | split

theorem keeps_seqctlWrite {P : State → Prop} (H : Closed P) (r : Req) (v : Word) (s : State) (keep_s : P s) : P (seqctlWrite r v s) := by
  unfold seqctlWrite
  try dsimp only
  repeat' first
    | with_reducible assumption
    | with_reducible apply keeps_State_storeReg H
    | with_reducible apply keeps_State_setHk H
    | with_reducible apply keeps_endPass H
    | with_reducible apply keeps_State_put H
    | with_reducible apply keeps_takeUser H
    | with_reducible refine ite_keeps (fun _ => ?_) (fun _ => ?_)

theorem keeps_execHkSeqGo {P : State → Prop} (H : Closed P) (r : Req) (v : Word) (s : State) (keep_s : P s) : ∀ s1, (execHkSeqGo r v s) = .next s1 → P s1 := by
  unfold execHkSeqGo
  refine next_keeps ?_
  try dsimp only
  repeat' first
    | with_reducible assumption
    | with_reducible apply keeps_regCmd H
    | with_reducible apply keeps_seqctlWrite H

theorem keeps_execHkSeqStop {P : State → Prop} (H : Closed P) (r : Req) (v : Word) (s : State) (keep_s : P s) : ∀ s1, (execHkSeqStop r v s) = .next s1 → P s1 := by
  unfold execHkSeqStop
  refine next_keeps ?_
  try dsimp only
  repeat' first
    | with_reducible assumption
    | with_reducible apply keeps_regCmd H
    | with_reducible apply keeps_seqctlWrite H

theorem keeps_execHkSeqPeriodicStart {P : State → Prop} (H : Closed P) (s : State) (keep_s : P s) : ∀ s1, (execHkSeqPeriodicStart s) = .next s1 → P s1 := by
  unfold execHkSeqPeriodicStart
  refine next_keeps ?_
  try dsimp only
  repeat' first
    | with_reducible assumption
    | with_reducible apply keeps_State_setHk H
    | with_reducible apply keeps_State_at H
    | with_reducible apply keeps_State_inc H
    | with_reducible apply keeps_takeUser H
    | with_reducible refine ite_keeps (fun _ => ?_) (fun _ => ?_)

theorem keeps_resRead_2 {P : State → Prop} (H : Closed P) (n : Fin 32) (s : State) (keep_s : P s) : P (resRead n s).2 := by
  unfold resRead
  try dsimp only
  repeat' first
    | with_reducible assumption
    | with_reducible apply keeps_State_setHk H

theorem keeps_rstRead_2 {P : State → Prop} (H : Closed P) (n : Fin 32) (events : ℕ) (s : State) (keep_s : P s) : P (rstRead n events s).2 := by
  unfold rstRead
  try dsimp only
  repeat' first
    | with_reducible assumption
    | with_reducible apply keeps_State_setHk H
    | with_reducible apply keeps_State_put H
    | with_reducible refine ite_keeps (fun _ => ?_) (fun _ => ?_)

theorem keeps_execHkResRead {P : State → Prop} (H : Closed P) (r : Req) (n : Fin 32) (s : State) (keep_s : P s) : ∀ s1, (execHkResRead r n s) = .next s1 → P s1 := by
  unfold execHkResRead
  refine next_keeps ?_
  try dsimp only
  repeat' first
    | with_reducible assumption
    | with_reducible apply keeps_readCmd H
    | with_reducible apply keeps_resRead_2 H

end Sys2Proof.Machine
end

