-- ==== Sys2Proof/Laws/KeepsStile.lean ====
section
/-!
SUPPORT. Closed predicates are kept by every operation of these files.
-/

namespace Sys2Proof.Machine

theorem keeps_State_setStl {P : State → Prop} (H : Closed P) (s : State) (x : Stl) (keep_s : P s) : P (State.setStl s x) := by
  unfold State.setStl
  try dsimp only
  repeat' first
    | with_reducible assumption
    | with_reducible refine ite_keeps (fun _ => ?_) (fun _ => ?_)
    | with_reducible refine foldl_keeps (fun _ _ _ => ?_) ?_
    | with_reducible refine dite_keeps (fun _ => ?_) (fun _ => ?_)
    | with_reducible refine ite_fst (fun _ => ?_) (fun _ => ?_)
    | with_reducible refine ite_snd (fun _ => ?_) (fun _ => ?_)
    | with_reducible refine ite_snd2 (fun _ => ?_) (fun _ => ?_)
    | with_reducible refine ite_snd3 (fun _ => ?_) (fun _ => ?_)
    | with_reducible refine foldl_fst (fun _ _ _ => ?_) ?_
    | with_reducible refine foldl_snd (fun _ _ _ => ?_) ?_
    | with_reducible refine snd_of_eq (by assumption) ?_
    | with_reducible refine fst_of_eq (by assumption) ?_
    | with_reducible refine snd2_of_eq (by assumption) ?_
    | with_reducible intro _ _
    | with_reducible intro _ _ _
    | split
    | dsimp only
    | with_reducible apply H.mk'

theorem keeps_State_radiate {P : State → Prop} (H : Closed P) (s : State) (args : List ℤ) (bytes : List ℕ) (keep_s : P s) : P (State.radiate s args bytes) := by
  unfold State.radiate
  try dsimp only
  repeat' first
    | with_reducible assumption
    | with_reducible apply keeps_State_emit H

theorem keeps_stlState {P : State → Prop} (H : Closed P) (n : ℕ) (s : State) (keep_s : P s) : P (stlState n s) := by
  unfold stlState
  try dsimp only
  repeat' first
    | with_reducible assumption
    | with_reducible apply keeps_State_put H

theorem keeps_endExchange {P : State → Prop} (H : Closed P) (s : State) (keep_s : P s) : P (endExchange s) := by
  unfold endExchange
  try dsimp only
  repeat' first
    | with_reducible assumption
    | with_reducible apply keeps_State_put H

theorem keeps_stlDown {P : State → Prop} (H : Closed P) (n : ℕ) (s : State) (keep_s : P s) : P (stlDown n s) := by
  unfold stlDown
  try dsimp only
  repeat' first
    | with_reducible assumption
    | with_reducible apply keeps_endExchange H
    | with_reducible apply keeps_State_put H
    | with_reducible apply keeps_stlState H
    | with_reducible apply keeps_State_setStl H

theorem keeps_enterSynth {P : State → Prop} (H : Closed P) (s : State) (keep_s : P s) : P (enterSynth s) := by
  unfold enterSynth
  try dsimp only
  repeat' first
    | with_reducible assumption
    | with_reducible apply keeps_State_put H
    | with_reducible apply keeps_stlState H
    | with_reducible apply keeps_State_setStl H

theorem keeps_enterRx {P : State → Prop} (H : Closed P) (s : State) (keep_s : P s) : P (enterRx s) := by
  unfold enterRx
  try dsimp only
  repeat' first
    | with_reducible assumption
    | with_reducible apply keeps_State_setStl H
    | with_reducible apply keeps_stlState H

theorem keeps_startTx {P : State → Prop} (H : Closed P) (s : State) (keep_s : P s) : P (startTx s) := by
  unfold startTx
  try dsimp only
  repeat' first
    | with_reducible assumption
    | with_reducible apply keeps_State_put H
    | with_reducible apply keeps_stlState H
    | with_reducible apply keeps_State_setStl H

theorem keeps_stlRes {P : State → Prop} (H : Closed P) (n : ℕ) (s : State) (keep_s : P s) : P (stlRes n s) := by
  unfold stlRes
  try dsimp only
  repeat' first
    | with_reducible assumption
    | with_reducible apply keeps_State_put H

theorem keeps_stlRefuse {P : State → Prop} (H : Closed P) (n : ℕ) (s : State) (keep_s : P s) : P (stlRefuse n s) := by
  unfold stlRefuse
  try dsimp only
  repeat' first
    | with_reducible assumption
    | with_reducible apply keeps_State_inc H
    | with_reducible apply keeps_stlRes H

theorem keeps_fromSynth {P : State → Prop} (H : Closed P) (goal : ℕ) (s : State) (keep_s : P s) : P (fromSynth goal s) := by
  unfold fromSynth
  try dsimp only
  repeat' first
    | with_reducible assumption
    | with_reducible apply keeps_State_setStl H
    | with_reducible apply keeps_State_put H
    | with_reducible apply keeps_stlState H

theorem keeps_stlMove {P : State → Prop} (H : Closed P) (goal : ℕ) (s : State) (keep_s : P s) : P (stlMove goal s) := by
  unfold stlMove
  try dsimp only
  repeat' first
    | with_reducible assumption
    | with_reducible apply keeps_State_put H
    | with_reducible apply keeps_State_setStl H
    | with_reducible apply keeps_stlState H
    | with_reducible apply keeps_enterSynth H
    | with_reducible apply keeps_fromSynth H
    | with_reducible refine ite_keeps (fun _ => ?_) (fun _ => ?_)
    | with_reducible refine foldl_keeps (fun _ _ _ => ?_) ?_
    | with_reducible refine dite_keeps (fun _ => ?_) (fun _ => ?_)
    | with_reducible refine ite_fst (fun _ => ?_) (fun _ => ?_)
    | with_reducible refine ite_snd (fun _ => ?_) (fun _ => ?_)
    | with_reducible refine ite_snd2 (fun _ => ?_) (fun _ => ?_)
    | with_reducible refine ite_snd3 (fun _ => ?_) (fun _ => ?_)
    | with_reducible refine foldl_fst (fun _ _ _ => ?_) ?_
    | with_reducible refine foldl_snd (fun _ _ _ => ?_) ?_
    | with_reducible refine snd_of_eq (by assumption) ?_
    | with_reducible refine fst_of_eq (by assumption) ?_
    | with_reducible refine snd2_of_eq (by assumption) ?_
    | with_reducible intro _ _
    | with_reducible intro _ _ _
    | split

theorem keeps_stlCmdWrite {P : State → Prop} (H : Closed P) (v : Word) (s : State) (keep_s : P s) : P (stlCmdWrite v s) := by
  unfold stlCmdWrite
  try dsimp only
  repeat' first
    | with_reducible assumption
    | with_reducible apply keeps_stlRefuse H
    | with_reducible apply keeps_stlDown H
    | with_reducible apply keeps_State_setStl H
    | with_reducible apply keeps_State_put H
    | with_reducible apply keeps_stlState H
    | with_reducible apply keeps_stlRes H
    | with_reducible apply keeps_stlMove H
    | with_reducible refine ite_keeps (fun _ => ?_) (fun _ => ?_)
    | with_reducible refine foldl_keeps (fun _ _ _ => ?_) ?_
    | with_reducible refine dite_keeps (fun _ => ?_) (fun _ => ?_)
    | with_reducible refine ite_fst (fun _ => ?_) (fun _ => ?_)
    | with_reducible refine ite_snd (fun _ => ?_) (fun _ => ?_)
    | with_reducible refine ite_snd2 (fun _ => ?_) (fun _ => ?_)
    | with_reducible refine ite_snd3 (fun _ => ?_) (fun _ => ?_)
    | with_reducible refine foldl_fst (fun _ _ _ => ?_) ?_
    | with_reducible refine foldl_snd (fun _ _ _ => ?_) ?_
    | with_reducible refine snd_of_eq (by assumption) ?_
    | with_reducible refine fst_of_eq (by assumption) ?_
    | with_reducible refine snd2_of_eq (by assumption) ?_
    | with_reducible intro _ _
    | with_reducible intro _ _ _
    | split

theorem keeps_stlCommand {P : State → Prop} (H : Closed P) (r : Req) (n : ℕ) (s : State) (keep_s : P s) : ∀ s1, (stlCommand r n s) = .next s1 → P s1 := by
  unfold stlCommand
  refine next_keeps ?_
  try dsimp only
  repeat' first
    | with_reducible assumption
    | with_reducible apply keeps_regCmd H
    | with_reducible apply keeps_stlCmdWrite H

theorem keeps_execStileSleep {P : State → Prop} (H : Closed P) (r : Req) (s : State) (keep_s : P s) : ∀ s1, (execStileSleep r s) = .next s1 → P s1 := by
  unfold execStileSleep
  apply keeps_stlCommand H
  assumption

theorem keeps_execStileStandby {P : State → Prop} (H : Closed P) (r : Req) (s : State) (keep_s : P s) : ∀ s1, (execStileStandby r s) = .next s1 → P s1 := by
  unfold execStileStandby
  apply keeps_stlCommand H
  assumption

theorem keeps_execStileSynth {P : State → Prop} (H : Closed P) (r : Req) (s : State) (keep_s : P s) : ∀ s1, (execStileSynth r s) = .next s1 → P s1 := by
  unfold execStileSynth
  apply keeps_stlCommand H
  assumption

theorem keeps_execStileRx {P : State → Prop} (H : Closed P) (r : Req) (s : State) (keep_s : P s) : ∀ s1, (execStileRx r s) = .next s1 → P s1 := by
  unfold execStileRx
  apply keeps_stlCommand H
  assumption

theorem keeps_execStileTx {P : State → Prop} (H : Closed P) (r : Req) (s : State) (keep_s : P s) : ∀ s1, (execStileTx r s) = .next s1 → P s1 := by
  unfold execStileTx
  apply keeps_stlCommand H
  assumption

theorem keeps_stlFreqWrite {P : State → Prop} (H : Closed P) (r : Req) (v : Word) (s : State) (keep_s : P s) : P (stlFreqWrite r v s) := by
  unfold stlFreqWrite
  try dsimp only
  repeat' first
    | with_reducible assumption
    | with_reducible apply keeps_endExchange H
    | with_reducible apply keeps_State_put H
    | with_reducible apply keeps_State_storeReg H
    | with_reducible apply keeps_State_refuse4 H
    | with_reducible refine ite_keeps (fun _ => ?_) (fun _ => ?_)

theorem keeps_stlCfgWrite {P : State → Prop} (H : Closed P) (r : Req) (v : Word) (s : State) (keep_s : P s) : P (stlCfgWrite r v s) := by
  unfold stlCfgWrite
  try dsimp only
  repeat' first
    | with_reducible assumption
    | with_reducible apply keeps_State_put H
    | with_reducible apply keeps_State_storeReg H
    | with_reducible apply keeps_State_refuse4 H
    | with_reducible refine ite_keeps (fun _ => ?_) (fun _ => ?_)

theorem keeps_stlLock {P : State → Prop} (H : Closed P) (s : State) (keep_s : P s) : P (stlLock s) := by
  unfold stlLock
  try dsimp only
  repeat' first
    | with_reducible assumption
    | with_reducible apply keeps_State_setStl H
    | with_reducible apply keeps_startTx H
    | with_reducible refine ite_keeps (fun _ => ?_) (fun _ => ?_)

theorem keeps_execStileStateReached {P : State → Prop} (H : Closed P) (t : ℕ) (s : State) (keep_s : P s) : ∀ s1, (execStileStateReached t s) = .next s1 → P s1 := by
  unfold execStileStateReached
  refine next_keeps ?_
  try dsimp only
  repeat' first
    | with_reducible assumption
    | with_reducible apply keeps_State_at H
    | with_reducible apply keeps_stlState H
    | with_reducible apply keeps_enterSynth H
    | with_reducible apply keeps_stlLock H
    | with_reducible apply keeps_enterRx H
    | with_reducible apply keeps_startTx H
    | with_reducible refine ite_keeps (fun _ => ?_) (fun _ => ?_)
    | with_reducible refine foldl_keeps (fun _ _ _ => ?_) ?_
    | with_reducible refine dite_keeps (fun _ => ?_) (fun _ => ?_)
    | with_reducible refine ite_fst (fun _ => ?_) (fun _ => ?_)
    | with_reducible refine ite_snd (fun _ => ?_) (fun _ => ?_)
    | with_reducible refine ite_snd2 (fun _ => ?_) (fun _ => ?_)
    | with_reducible refine ite_snd3 (fun _ => ?_) (fun _ => ?_)
    | with_reducible refine foldl_fst (fun _ _ _ => ?_) ?_
    | with_reducible refine foldl_snd (fun _ _ _ => ?_) ?_
    | with_reducible refine snd_of_eq (by assumption) ?_
    | with_reducible refine fst_of_eq (by assumption) ?_
    | with_reducible refine snd2_of_eq (by assumption) ?_
    | with_reducible intro _ _
    | with_reducible intro _ _ _
    | split

theorem keeps_execStileSynthLock {P : State → Prop} (H : Closed P) (t : ℕ) (s : State) (keep_s : P s) : ∀ s1, (execStileSynthLock t s) = .next s1 → P s1 := by
  unfold execStileSynthLock
  refine next_keeps ?_
  try dsimp only
  repeat' first
    | with_reducible assumption
    | with_reducible apply keeps_stlLock H
    | with_reducible apply keeps_State_at H
    | with_reducible refine ite_keeps (fun _ => ?_) (fun _ => ?_)

theorem keeps_execStileTxWaitTimeout {P : State → Prop} (H : Closed P) (s : State) (keep_s : P s) : ∀ s1, (execStileTxWaitTimeout s) = .next s1 → P s1 := by
  unfold execStileTxWaitTimeout
  refine next_keeps ?_
  try dsimp only
  repeat' first
    | with_reducible assumption
    | with_reducible apply keeps_stlRefuse H
    | with_reducible apply keeps_stlDown H
    | with_reducible apply keeps_State_at H
    | with_reducible refine ite_keeps (fun _ => ?_) (fun _ => ?_)
    | with_reducible refine foldl_keeps (fun _ _ _ => ?_) ?_
    | with_reducible refine dite_keeps (fun _ => ?_) (fun _ => ?_)
    | with_reducible refine ite_fst (fun _ => ?_) (fun _ => ?_)
    | with_reducible refine ite_snd (fun _ => ?_) (fun _ => ?_)
    | with_reducible refine ite_snd2 (fun _ => ?_) (fun _ => ?_)
    | with_reducible refine ite_snd3 (fun _ => ?_) (fun _ => ?_)
    | with_reducible refine foldl_fst (fun _ _ _ => ?_) ?_
    | with_reducible refine foldl_snd (fun _ _ _ => ?_) ?_
    | with_reducible refine snd_of_eq (by assumption) ?_
    | with_reducible refine fst_of_eq (by assumption) ?_
    | with_reducible refine snd2_of_eq (by assumption) ?_
    | with_reducible intro _ _
    | with_reducible intro _ _ _
    | split

theorem keeps_stlNext {P : State → Prop} (H : Closed P) (n : ℕ) (s : State) (keep_s : P s) : P (stlNext n s) := by
  unfold stlNext
  try dsimp only
  repeat' first
    | with_reducible assumption
    | with_reducible apply keeps_fromSynth H
    | with_reducible apply keeps_enterRx H
    | with_reducible apply keeps_stlDown H
    | with_reducible refine ite_keeps (fun _ => ?_) (fun _ => ?_)
    | with_reducible refine foldl_keeps (fun _ _ _ => ?_) ?_
    | with_reducible refine dite_keeps (fun _ => ?_) (fun _ => ?_)
    | with_reducible refine ite_fst (fun _ => ?_) (fun _ => ?_)
    | with_reducible refine ite_snd (fun _ => ?_) (fun _ => ?_)
    | with_reducible refine ite_snd2 (fun _ => ?_) (fun _ => ?_)
    | with_reducible refine ite_snd3 (fun _ => ?_) (fun _ => ?_)
    | with_reducible refine foldl_fst (fun _ _ _ => ?_) ?_
    | with_reducible refine foldl_snd (fun _ _ _ => ?_) ?_
    | with_reducible refine snd_of_eq (by assumption) ?_
    | with_reducible refine fst_of_eq (by assumption) ?_
    | with_reducible refine snd2_of_eq (by assumption) ?_
    | with_reducible intro _ _
    | with_reducible intro _ _ _
    | split

theorem keeps_execStilePacketSent {P : State → Prop} (H : Closed P) (t : ℕ) (s : State) (keep_s : P s) : ∀ s1, (execStilePacketSent t s) = .next s1 → P s1 := by
  unfold execStilePacketSent
  refine next_keeps ?_
  try dsimp only
  repeat' first
    | with_reducible assumption
    | with_reducible apply keeps_State_inc H
    | with_reducible apply keeps_State_radiate H
    | with_reducible apply keeps_State_at H
    | with_reducible apply keeps_stlNext H
    | with_reducible refine ite_keeps (fun _ => ?_) (fun _ => ?_)

theorem keeps_execStilePreambleDetect {P : State → Prop} (H : Closed P) (rssi0 : ℤ) (rssi1 : ℤ) (t : ℕ) (s : State) (keep_s : P s) : ∀ s1, (execStilePreambleDetect rssi0 rssi1 t s) = .next s1 → P s1 := by
  unfold execStilePreambleDetect
  refine next_keeps ?_
  try dsimp only
  repeat' first
    | with_reducible assumption
    | with_reducible apply keeps_State_at H
    | with_reducible apply keeps_State_setStl H
    | with_reducible refine ite_keeps (fun _ => ?_) (fun _ => ?_)

theorem keeps_execStileSyncDetect {P : State → Prop} (H : Closed P) (off : ℤ) (rssi : ℤ) (t : ℕ) (s : State) (keep_s : P s) : ∀ s1, (execStileSyncDetect off rssi t s) = .next s1 → P s1 := by
  unfold execStileSyncDetect
  refine next_keeps ?_
  try dsimp only
  repeat' first
    | with_reducible assumption
    | with_reducible apply keeps_State_put H
    | with_reducible apply keeps_State_at H
    | with_reducible apply keeps_State_setStl H
    | with_reducible refine ite_keeps (fun _ => ?_) (fun _ => ?_)

theorem keeps_stlDeliver_1 {P : State → Prop} (H : Closed P) (body : List ℕ) (lqi : ℕ) (evm : ℕ) (s : State) (keep_s : P s) : P (stlDeliver body lqi evm s).1 := by
  unfold stlDeliver
  try dsimp only
  repeat' first
    | with_reducible assumption
    | with_reducible apply keeps_State_inc H
    | with_reducible apply keeps_State_wrAll H
    | with_reducible apply keeps_State_wr H
    | with_reducible apply keeps_State_setStl H
    | with_reducible refine ite_keeps (fun _ => ?_) (fun _ => ?_)
    | with_reducible refine foldl_keeps (fun _ _ _ => ?_) ?_
    | with_reducible refine dite_keeps (fun _ => ?_) (fun _ => ?_)
    | with_reducible refine ite_fst (fun _ => ?_) (fun _ => ?_)

theorem keeps_romAnswer {P : State → Prop} (H : Closed P) (b : ℕ) (src : ℕ) (s : State) (keep_s : P s) : P (romAnswer b src s) := by
  unfold romAnswer
  try dsimp only
  repeat' first
    | with_reducible assumption
    | with_reducible apply keeps_State_inc H
    | with_reducible apply keeps_State_radiate H
    | with_reducible apply keeps_State_put H

theorem keeps_execStilePacketRx {P : State → Prop} (H : Closed P) (bytes : List ℕ) (inner : ℕ) (evm : ℕ) (t : ℕ) (s : State) (keep_s : P s) : ∀ s1, (execStilePacketRx bytes inner evm t s) = .next s1 → P s1 := by
  unfold execStilePacketRx
  refine next_keeps ?_
  try dsimp only
  repeat' first
    | with_reducible assumption
    | with_reducible apply keeps_State_put H
    | with_reducible apply keeps_State_at H
    | with_reducible apply keeps_State_setStl H
    | with_reducible apply keeps_stlDown H
    | with_reducible apply keeps_State_inc H
    | with_reducible apply keeps_stlDeliver_1 H
    | with_reducible apply keeps_romAnswer H
    | with_reducible apply keeps_stlNext H
    | with_reducible refine ite_keeps (fun _ => ?_) (fun _ => ?_)

theorem keeps_execStileRxTimeout {P : State → Prop} (H : Closed P) (s : State) (keep_s : P s) : ∀ s1, (execStileRxTimeout s) = .next s1 → P s1 := by
  unfold execStileRxTimeout
  refine next_keeps ?_
  try dsimp only
  repeat' first
    | with_reducible assumption
    | with_reducible apply keeps_State_at H
    | with_reducible apply keeps_State_setStl H
    | with_reducible apply keeps_stlDown H
    | with_reducible refine ite_keeps (fun _ => ?_) (fun _ => ?_)

theorem keeps_State_setBel {P : State → Prop} (H : Closed P) (s : State) (x : Bel) (keep_s : P s) : P (State.setBel s x) := by
  unfold State.setBel
  try dsimp only
  repeat' first
    | with_reducible assumption
    | with_reducible refine ite_keeps (fun _ => ?_) (fun _ => ?_)
    | with_reducible refine foldl_keeps (fun _ _ _ => ?_) ?_
    | with_reducible refine dite_keeps (fun _ => ?_) (fun _ => ?_)
    | with_reducible refine ite_fst (fun _ => ?_) (fun _ => ?_)
    | with_reducible refine ite_snd (fun _ => ?_) (fun _ => ?_)
    | with_reducible refine ite_snd2 (fun _ => ?_) (fun _ => ?_)
    | with_reducible refine ite_snd3 (fun _ => ?_) (fun _ => ?_)
    | with_reducible refine foldl_fst (fun _ _ _ => ?_) ?_
    | with_reducible refine foldl_snd (fun _ _ _ => ?_) ?_
    | with_reducible refine snd_of_eq (by assumption) ?_
    | with_reducible refine fst_of_eq (by assumption) ?_
    | with_reducible refine snd2_of_eq (by assumption) ?_
    | with_reducible intro _ _
    | with_reducible intro _ _ _
    | split
    | dsimp only
    | with_reducible apply H.mk'

theorem keeps_belCfgWrite {P : State → Prop} (H : Closed P) (r : Req) (v : Word) (s : State) (keep_s : P s) : P (belCfgWrite r v s) := by
  unfold belCfgWrite
  try dsimp only
  repeat' first
    | with_reducible assumption
    | with_reducible apply keeps_State_storeReg H
    | with_reducible apply keeps_State_refuse4 H
    | with_reducible refine ite_keeps (fun _ => ?_) (fun _ => ?_)

theorem keeps_execBellSniff {P : State → Prop} (H : Closed P) (found : Bool) (t : ℕ) (s : State) (keep_s : P s) : ∀ s1, (execBellSniff found t s) = .next s1 → P s1 := by
  unfold execBellSniff
  refine next_keeps ?_
  try dsimp only
  repeat' first
    | with_reducible assumption
    | with_reducible apply keeps_State_at H
    | with_reducible apply keeps_State_setBel H
    | with_reducible refine ite_keeps (fun _ => ?_) (fun _ => ?_)

theorem keeps_execBellStartTimeout {P : State → Prop} (H : Closed P) (s : State) (keep_s : P s) : ∀ s1, (execBellStartTimeout s) = .next s1 → P s1 := by
  unfold execBellStartTimeout
  refine next_keeps ?_
  try dsimp only
  repeat' first
    | with_reducible assumption
    | with_reducible apply keeps_State_at H
    | with_reducible apply keeps_State_inc H
    | with_reducible apply keeps_State_setBel H
    | with_reducible refine ite_keeps (fun _ => ?_) (fun _ => ?_)
    | with_reducible refine foldl_keeps (fun _ _ _ => ?_) ?_
    | with_reducible refine dite_keeps (fun _ => ?_) (fun _ => ?_)
    | with_reducible refine ite_fst (fun _ => ?_) (fun _ => ?_)
    | with_reducible refine ite_snd (fun _ => ?_) (fun _ => ?_)
    | with_reducible refine ite_snd2 (fun _ => ?_) (fun _ => ?_)
    | with_reducible refine ite_snd3 (fun _ => ?_) (fun _ => ?_)
    | with_reducible refine foldl_fst (fun _ _ _ => ?_) ?_
    | with_reducible refine foldl_snd (fun _ _ _ => ?_) ?_
    | with_reducible refine snd_of_eq (by assumption) ?_
    | with_reducible refine fst_of_eq (by assumption) ?_
    | with_reducible refine snd2_of_eq (by assumption) ?_
    | with_reducible intro _ _
    | with_reducible intro _ _ _
    | split

theorem keeps_execBellFrame {P : State → Prop} (H : Closed P) (code : BitVec 16) (chk : BitVec 16) (t : ℕ) (s : State) (keep_s : P s) : ∀ s1, (execBellFrame code chk t s) = .next s1 → P s1 := by
  unfold execBellFrame
  refine next_keeps ?_
  try dsimp only
  repeat' first
    | with_reducible assumption
    | with_reducible apply keeps_State_at H
    | with_reducible apply keeps_State_setBel H
    | with_reducible apply keeps_State_inc H
    | with_reducible apply keeps_State_put H
    | with_reducible apply keeps_wakeDevice H
    | with_reducible refine ite_keeps (fun _ => ?_) (fun _ => ?_)
    | with_reducible refine foldl_keeps (fun _ _ _ => ?_) ?_
    | with_reducible refine dite_keeps (fun _ => ?_) (fun _ => ?_)
    | with_reducible refine ite_fst (fun _ => ?_) (fun _ => ?_)
    | with_reducible refine ite_snd (fun _ => ?_) (fun _ => ?_)
    | with_reducible refine ite_snd2 (fun _ => ?_) (fun _ => ?_)
    | with_reducible refine ite_snd3 (fun _ => ?_) (fun _ => ?_)
    | with_reducible refine foldl_fst (fun _ _ _ => ?_) ?_
    | with_reducible refine foldl_snd (fun _ _ _ => ?_) ?_
    | with_reducible refine snd_of_eq (by assumption) ?_
    | with_reducible refine fst_of_eq (by assumption) ?_
    | with_reducible refine snd2_of_eq (by assumption) ?_
    | with_reducible intro _ _
    | with_reducible intro _ _ _
    | split

theorem keeps_execHearthAnswerEnd {P : State → Prop} (H : Closed P) (t : ℕ) (s : State) (keep_s : P s) : ∀ s1, (execHearthAnswerEnd t s) = .next s1 → P s1 := by
  unfold execHearthAnswerEnd
  refine next_keeps ?_
  try dsimp only
  repeat' first
    | with_reducible assumption
    | with_reducible apply keeps_State_at H
    | with_reducible apply keeps_State_radiate H
    | with_reducible apply keeps_State_setBel H
    | with_reducible apply keeps_State_put H
    | with_reducible refine ite_keeps (fun _ => ?_) (fun _ => ?_)
    | with_reducible refine foldl_keeps (fun _ _ _ => ?_) ?_
    | with_reducible refine dite_keeps (fun _ => ?_) (fun _ => ?_)
    | with_reducible refine ite_fst (fun _ => ?_) (fun _ => ?_)
    | with_reducible refine ite_snd (fun _ => ?_) (fun _ => ?_)
    | with_reducible refine ite_snd2 (fun _ => ?_) (fun _ => ?_)
    | with_reducible refine ite_snd3 (fun _ => ?_) (fun _ => ?_)
    | with_reducible refine foldl_fst (fun _ _ _ => ?_) ?_
    | with_reducible refine foldl_snd (fun _ _ _ => ?_) ?_
    | with_reducible refine snd_of_eq (by assumption) ?_
    | with_reducible refine fst_of_eq (by assumption) ?_
    | with_reducible refine snd2_of_eq (by assumption) ?_
    | with_reducible intro _ _
    | with_reducible intro _ _ _
    | split

end Sys2Proof.Machine
end

