-- ==== Sys2Proof/Laws/KeepsAgate.lean ====
section
/-!
SUPPORT. Closed predicates are kept by every operation of these files.
-/

namespace Sys2Proof.Machine

theorem keeps_State_setAgt {P : State → Prop} (H : Closed P) (s : Sys2Proof.Machine.State) (x : Sys2Proof.Machine.Agt) (keep_s : P s) : P (State.setAgt s x) := by
  unfold State.setAgt
  try dsimp only
  repeat' first
    | with_reducible assumption
    | with_reducible refine ite_keeps (fun _ => ?_) (fun _ => ?_)
    | with_reducible refine foldl_keeps (fun _ _ _ => ?_) ?_
    | with_reducible refine dite_keeps (fun _ => ?_) (fun _ => ?_)
    | with_reducible refine ite_fst (fun _ => ?_) (fun _ => ?_)
    | with_reducible refine ite_snd (fun _ => ?_) (fun _ => ?_)
    | with_reducible refine ite_snd2 (fun _ => ?_) (fun _ => ?_)
    | with_reducible refine ite_snd3 (fun _ => ?_) (fun _ => ?_)
    | with_reducible refine foldl_fst (fun _ _ _ => ?_) ?_
    | with_reducible refine foldl_snd (fun _ _ _ => ?_) ?_
    | with_reducible refine snd_of_eq (by assumption) ?_
    | with_reducible refine fst_of_eq (by assumption) ?_
    | with_reducible refine snd2_of_eq (by assumption) ?_
    | with_reducible intro _ _
    | with_reducible intro _ _ _
    | split
    | dsimp only
    | with_reducible apply H.mk'

theorem keeps_State_putBytes {P : State → Prop} (H : Closed P) (s : Sys2Proof.Machine.State) (a : ℕ) (l : List ℕ) (keep_s : P s) : P (State.putBytes s a l) := by
  have h := H.mem s ((l.foldl (fun (p : List (Nat × Byte) × Nat) b => (memWrite p.1 p.2 (BitVec.ofNat 8 b), p.2 + 1)) (s.mem, a)).1) keep_s ?_
  · exact H.congr (s := { s with mem := _ }) rfl rfl rfl rfl rfl rfl rfl h
  · generalize s.mem = m
    induction l generalizing m a with
    | nil => exact id
    | cons b t ih => exact fun hm => ih (a + 1) _ (memory_wf_write _ _ hm)

theorem keeps_protectImage {P : State → Prop} (H : Closed P) (h : Fin 9) (l : List ℕ) (base : ℕ) (s : Sys2Proof.Machine.State) (keep_s : P s) : P (protectImage h l base s) := by
  unfold protectImage
  try dsimp only
  repeat' first
    | with_reducible assumption
    | with_reducible apply keeps_State_setAgt H
    | with_reducible apply keeps_State_wr H
    | with_reducible refine ite_keeps (fun _ => ?_) (fun _ => ?_)
    | with_reducible refine foldl_keeps (fun _ _ _ => ?_) ?_
    | with_reducible refine dite_keeps (fun _ => ?_) (fun _ => ?_)
    | with_reducible refine ite_fst (fun _ => ?_) (fun _ => ?_)
    | with_reducible refine ite_snd (fun _ => ?_) (fun _ => ?_)
    | with_reducible refine ite_snd2 (fun _ => ?_) (fun _ => ?_)
    | with_reducible refine ite_snd3 (fun _ => ?_) (fun _ => ?_)
    | with_reducible refine foldl_fst (fun _ _ _ => ?_) ?_
    | with_reducible refine foldl_snd (fun _ _ _ => ?_) ?_
    | with_reducible refine snd_of_eq (by assumption) ?_
    | with_reducible refine fst_of_eq (by assumption) ?_
    | with_reducible refine snd2_of_eq (by assumption) ?_
    | with_reducible intro _ _
    | with_reducible intro _ _ _
    | split
    | dsimp only

theorem keeps_closeSession {P : State → Prop} (H : Closed P) (s : Sys2Proof.Machine.State) (keep_s : P s) : P (closeSession s) := by
  unfold closeSession
  try dsimp only
  repeat' first
    | with_reducible assumption
    | with_reducible apply keeps_State_setAgt H
    | with_reducible apply keeps_State_wr H
    | with_reducible refine ite_keeps (fun _ => ?_) (fun _ => ?_)
    | with_reducible refine foldl_keeps (fun _ _ _ => ?_) ?_
    | with_reducible refine dite_keeps (fun _ => ?_) (fun _ => ?_)
    | with_reducible refine ite_fst (fun _ => ?_) (fun _ => ?_)
    | with_reducible refine ite_snd (fun _ => ?_) (fun _ => ?_)
    | with_reducible refine ite_snd2 (fun _ => ?_) (fun _ => ?_)
    | with_reducible refine ite_snd3 (fun _ => ?_) (fun _ => ?_)
    | with_reducible refine foldl_fst (fun _ _ _ => ?_) ?_
    | with_reducible refine foldl_snd (fun _ _ _ => ?_) ?_
    | with_reducible refine snd_of_eq (by assumption) ?_
    | with_reducible refine fst_of_eq (by assumption) ?_
    | with_reducible refine snd2_of_eq (by assumption) ?_
    | with_reducible intro _ _
    | with_reducible intro _ _ _
    | split
    | dsimp only

theorem keeps_refuseRecord {P : State → Prop} (H : Closed P) (s : Sys2Proof.Machine.State) (keep_s : P s) : P (refuseRecord s) := by
  unfold refuseRecord
  try dsimp only
  repeat' first
    | with_reducible assumption
    | with_reducible apply keeps_closeSession H
    | with_reducible apply keeps_State_put H
    | with_reducible refine ite_keeps (fun _ => ?_) (fun _ => ?_)
    | with_reducible refine foldl_keeps (fun _ _ _ => ?_) ?_
    | with_reducible refine dite_keeps (fun _ => ?_) (fun _ => ?_)
    | with_reducible refine ite_fst (fun _ => ?_) (fun _ => ?_)
    | with_reducible refine ite_snd (fun _ => ?_) (fun _ => ?_)
    | with_reducible refine ite_snd2 (fun _ => ?_) (fun _ => ?_)
    | with_reducible refine ite_snd3 (fun _ => ?_) (fun _ => ?_)
    | with_reducible refine foldl_fst (fun _ _ _ => ?_) ?_
    | with_reducible refine foldl_snd (fun _ _ _ => ?_) ?_
    | with_reducible refine snd_of_eq (by assumption) ?_
    | with_reducible refine fst_of_eq (by assumption) ?_
    | with_reducible refine snd2_of_eq (by assumption) ?_
    | with_reducible intro _ _
    | with_reducible intro _ _ _
    | split
    | dsimp only

theorem keeps_sessOpen_1 {P : State → Prop} (H : Closed P) (c : Sys2Proof.Machine.AgtCmd) (s : Sys2Proof.Machine.State) (keep_s : P s) : P (sessOpen c s).1 := by
  unfold sessOpen
  try dsimp only
  repeat' first
    | with_reducible assumption
    | with_reducible apply keeps_State_drawn_2 H
    | with_reducible apply keeps_State_wr H
    | with_reducible apply keeps_State_putBytes H
    | with_reducible apply keeps_State_setAgt H
    | with_reducible refine ite_keeps (fun _ => ?_) (fun _ => ?_)
    | with_reducible refine foldl_keeps (fun _ _ _ => ?_) ?_
    | with_reducible refine dite_keeps (fun _ => ?_) (fun _ => ?_)
    | with_reducible refine ite_fst (fun _ => ?_) (fun _ => ?_)
    | with_reducible refine ite_snd (fun _ => ?_) (fun _ => ?_)
    | with_reducible refine ite_snd2 (fun _ => ?_) (fun _ => ?_)
    | with_reducible refine ite_snd3 (fun _ => ?_) (fun _ => ?_)
    | with_reducible refine foldl_fst (fun _ _ _ => ?_) ?_
    | with_reducible refine foldl_snd (fun _ _ _ => ?_) ?_
    | with_reducible refine snd_of_eq (by assumption) ?_
    | with_reducible refine fst_of_eq (by assumption) ?_
    | with_reducible refine snd2_of_eq (by assumption) ?_
    | with_reducible intro _ _
    | with_reducible intro _ _ _
    | split
    | dsimp only

theorem keeps_sessRecv_1 {P : State → Prop} (H : Closed P) (c : Sys2Proof.Machine.AgtCmd) (s : Sys2Proof.Machine.State) (keep_s : P s) : P (sessRecv c s).1 := by
  unfold sessRecv
  try dsimp only
  repeat' first
    | with_reducible assumption
    | with_reducible apply keeps_refuseRecord H
    | with_reducible apply keeps_State_setAgt H
    | with_reducible apply keeps_State_put H
    | with_reducible apply keeps_closeSession H
    | with_reducible apply keeps_State_wr H
    | with_reducible apply keeps_State_putBytes H
    | with_reducible refine ite_keeps (fun _ => ?_) (fun _ => ?_)
    | with_reducible refine foldl_keeps (fun _ _ _ => ?_) ?_
    | with_reducible refine dite_keeps (fun _ => ?_) (fun _ => ?_)
    | with_reducible refine ite_fst (fun _ => ?_) (fun _ => ?_)
    | with_reducible refine ite_snd (fun _ => ?_) (fun _ => ?_)
    | with_reducible refine ite_snd2 (fun _ => ?_) (fun _ => ?_)
    | with_reducible refine ite_snd3 (fun _ => ?_) (fun _ => ?_)
    | with_reducible refine foldl_fst (fun _ _ _ => ?_) ?_
    | with_reducible refine foldl_snd (fun _ _ _ => ?_) ?_
    | with_reducible refine snd_of_eq (by assumption) ?_
    | with_reducible refine fst_of_eq (by assumption) ?_
    | with_reducible refine snd2_of_eq (by assumption) ?_
    | with_reducible intro _ _
    | with_reducible intro _ _ _
    | split
    | dsimp only

theorem keeps_sessSend_1 {P : State → Prop} (H : Closed P) (c : Sys2Proof.Machine.AgtCmd) (s : Sys2Proof.Machine.State) (keep_s : P s) : P (sessSend c s).1 := by
  unfold sessSend
  try dsimp only
  repeat' first
    | with_reducible assumption
    | with_reducible apply keeps_State_put H
    | with_reducible apply keeps_State_wr H
    | with_reducible apply keeps_State_putBytes H
    | with_reducible apply keeps_State_setAgt H
    | with_reducible refine ite_keeps (fun _ => ?_) (fun _ => ?_)
    | with_reducible refine foldl_keeps (fun _ _ _ => ?_) ?_
    | with_reducible refine dite_keeps (fun _ => ?_) (fun _ => ?_)
    | with_reducible refine ite_fst (fun _ => ?_) (fun _ => ?_)
    | with_reducible refine ite_snd (fun _ => ?_) (fun _ => ?_)
    | with_reducible refine ite_snd2 (fun _ => ?_) (fun _ => ?_)
    | with_reducible refine ite_snd3 (fun _ => ?_) (fun _ => ?_)
    | with_reducible refine foldl_fst (fun _ _ _ => ?_) ?_
    | with_reducible refine foldl_snd (fun _ _ _ => ?_) ?_
    | with_reducible refine snd_of_eq (by assumption) ?_
    | with_reducible refine fst_of_eq (by assumption) ?_
    | with_reducible refine snd2_of_eq (by assumption) ?_
    | with_reducible intro _ _
    | with_reducible intro _ _ _
    | split
    | dsimp only

theorem keeps_execSessionTimeout {P : State → Prop} (H : Closed P) (s : Sys2Proof.Machine.State) (keep_s : P s) : ∀ s1, (execSessionTimeout s) = .next s1 → P s1 := by
  unfold execSessionTimeout
  refine next_keeps ?_
  try dsimp only
  repeat' first
    | with_reducible assumption
    | with_reducible apply keeps_closeSession H
    | with_reducible apply keeps_State_at H
    | with_reducible refine ite_keeps (fun _ => ?_) (fun _ => ?_)
    | with_reducible refine foldl_keeps (fun _ _ _ => ?_) ?_
    | with_reducible refine dite_keeps (fun _ => ?_) (fun _ => ?_)
    | with_reducible refine ite_fst (fun _ => ?_) (fun _ => ?_)
    | with_reducible refine ite_snd (fun _ => ?_) (fun _ => ?_)
    | with_reducible refine ite_snd2 (fun _ => ?_) (fun _ => ?_)
    | with_reducible refine ite_snd3 (fun _ => ?_) (fun _ => ?_)
    | with_reducible refine foldl_fst (fun _ _ _ => ?_) ?_
    | with_reducible refine foldl_snd (fun _ _ _ => ?_) ?_
    | with_reducible refine snd_of_eq (by assumption) ?_
    | with_reducible refine fst_of_eq (by assumption) ?_
    | with_reducible refine snd2_of_eq (by assumption) ?_
    | with_reducible intro _ _
    | with_reducible intro _ _ _
    | split
    | dsimp only

theorem keeps_spoil {P : State → Prop} (H : Closed P) (a : ℕ) (n : ℕ) (s : Sys2Proof.Machine.State) (keep_s : P s) : P (spoil a n s) := by
  unfold spoil
  try dsimp only
  repeat' first
    | with_reducible assumption
    | with_reducible apply keeps_State_putBytes H
    | with_reducible apply keeps_State_drawn_2 H
    | with_reducible refine ite_keeps (fun _ => ?_) (fun _ => ?_)
    | with_reducible refine foldl_keeps (fun _ _ _ => ?_) ?_
    | with_reducible refine dite_keeps (fun _ => ?_) (fun _ => ?_)
    | with_reducible refine ite_fst (fun _ => ?_) (fun _ => ?_)
    | with_reducible refine ite_snd (fun _ => ?_) (fun _ => ?_)
    | with_reducible refine ite_snd2 (fun _ => ?_) (fun _ => ?_)
    | with_reducible refine ite_snd3 (fun _ => ?_) (fun _ => ?_)
    | with_reducible refine foldl_fst (fun _ _ _ => ?_) ?_
    | with_reducible refine foldl_snd (fun _ _ _ => ?_) ?_
    | with_reducible refine snd_of_eq (by assumption) ?_
    | with_reducible refine fst_of_eq (by assumption) ?_
    | with_reducible refine snd2_of_eq (by assumption) ?_
    | with_reducible intro _ _
    | with_reducible intro _ _ _
    | split
    | dsimp only

theorem keeps_agtVerify_1 {P : State → Prop} (H : Closed P) (c : Sys2Proof.Machine.AgtCmd) (s : Sys2Proof.Machine.State) (keep_s : P s) : P (agtVerify c s).1 := by
  unfold agtVerify
  try dsimp only
  repeat' first
    | with_reducible assumption
    | with_reducible apply keeps_protectImage H
    | with_reducible apply keeps_State_putBytes H
    | with_reducible apply keeps_spoil H
    | with_reducible refine ite_keeps (fun _ => ?_) (fun _ => ?_)
    | with_reducible refine foldl_keeps (fun _ _ _ => ?_) ?_
    | with_reducible refine dite_keeps (fun _ => ?_) (fun _ => ?_)
    | with_reducible refine ite_fst (fun _ => ?_) (fun _ => ?_)
    | with_reducible refine ite_snd (fun _ => ?_) (fun _ => ?_)
    | with_reducible refine ite_snd2 (fun _ => ?_) (fun _ => ?_)
    | with_reducible refine ite_snd3 (fun _ => ?_) (fun _ => ?_)
    | with_reducible refine foldl_fst (fun _ _ _ => ?_) ?_
    | with_reducible refine foldl_snd (fun _ _ _ => ?_) ?_
    | with_reducible refine snd_of_eq (by assumption) ?_
    | with_reducible refine fst_of_eq (by assumption) ?_
    | with_reducible refine snd2_of_eq (by assumption) ?_
    | with_reducible intro _ _
    | with_reducible intro _ _ _
    | split
    | dsimp only

theorem keeps_fuseFailed_1 {P : State → Prop} (H : Closed P) (c : Sys2Proof.Machine.AgtCmd) (s : Sys2Proof.Machine.State) (keep_s : P s) : P (fuseFailed c s).1 := by
  unfold fuseFailed
  try dsimp only
  repeat' first
    | with_reducible assumption
    | with_reducible apply keeps_State_raise H
    | with_reducible refine ite_keeps (fun _ => ?_) (fun _ => ?_)
    | with_reducible refine foldl_keeps (fun _ _ _ => ?_) ?_
    | with_reducible refine dite_keeps (fun _ => ?_) (fun _ => ?_)
    | with_reducible refine ite_fst (fun _ => ?_) (fun _ => ?_)
    | with_reducible refine ite_snd (fun _ => ?_) (fun _ => ?_)
    | with_reducible refine ite_snd2 (fun _ => ?_) (fun _ => ?_)
    | with_reducible refine ite_snd3 (fun _ => ?_) (fun _ => ?_)
    | with_reducible refine foldl_fst (fun _ _ _ => ?_) ?_
    | with_reducible refine foldl_snd (fun _ _ _ => ?_) ?_
    | with_reducible refine snd_of_eq (by assumption) ?_
    | with_reducible refine fst_of_eq (by assumption) ?_
    | with_reducible refine snd2_of_eq (by assumption) ?_
    | with_reducible intro _ _
    | with_reducible intro _ _ _
    | split
    | dsimp only

theorem keeps_agtReturn_1 {P : State → Prop} (H : Closed P) (c : Sys2Proof.Machine.AgtCmd) (s : Sys2Proof.Machine.State) (keep_s : P s) : P (agtReturn c s).1 := by
  unfold agtReturn
  try dsimp only
  repeat' first
    | with_reducible assumption
    | with_reducible apply keeps_State_clearMem H
    | with_reducible refine ite_keeps (fun _ => ?_) (fun _ => ?_)
    | with_reducible refine foldl_keeps (fun _ _ _ => ?_) ?_
    | with_reducible refine dite_keeps (fun _ => ?_) (fun _ => ?_)
    | with_reducible refine ite_fst (fun _ => ?_) (fun _ => ?_)
    | with_reducible refine ite_snd (fun _ => ?_) (fun _ => ?_)
    | with_reducible refine ite_snd2 (fun _ => ?_) (fun _ => ?_)
    | with_reducible refine ite_snd3 (fun _ => ?_) (fun _ => ?_)
    | with_reducible refine foldl_fst (fun _ _ _ => ?_) ?_
    | with_reducible refine foldl_snd (fun _ _ _ => ?_) ?_
    | with_reducible refine snd_of_eq (by assumption) ?_
    | with_reducible refine fst_of_eq (by assumption) ?_
    | with_reducible refine snd2_of_eq (by assumption) ?_
    | with_reducible intro _ _
    | with_reducible intro _ _ _
    | split
    | dsimp only
    | with_reducible apply H.mk'

theorem keeps_agtAdvance_1 {P : State → Prop} (H : Closed P) (c : Sys2Proof.Machine.AgtCmd) (n : ℕ) (s : Sys2Proof.Machine.State) (keep_s : P s) : P (agtAdvance c n s).1 := by
  unfold agtAdvance
  try dsimp only
  repeat' first
    | with_reducible assumption
    | with_reducible apply keeps_fuseFailed_1 H
    | with_reducible apply keeps_State_setAgt H
    | with_reducible apply keeps_agtReturn_1 H
    | with_reducible refine ite_keeps (fun _ => ?_) (fun _ => ?_)
    | with_reducible refine foldl_keeps (fun _ _ _ => ?_) ?_
    | with_reducible refine dite_keeps (fun _ => ?_) (fun _ => ?_)
    | with_reducible refine ite_fst (fun _ => ?_) (fun _ => ?_)
    | with_reducible refine ite_snd (fun _ => ?_) (fun _ => ?_)
    | with_reducible refine ite_snd2 (fun _ => ?_) (fun _ => ?_)
    | with_reducible refine ite_snd3 (fun _ => ?_) (fun _ => ?_)
    | with_reducible refine foldl_fst (fun _ _ _ => ?_) ?_
    | with_reducible refine foldl_snd (fun _ _ _ => ?_) ?_
    | with_reducible refine snd_of_eq (by assumption) ?_
    | with_reducible refine fst_of_eq (by assumption) ?_
    | with_reducible refine snd2_of_eq (by assumption) ?_
    | with_reducible intro _ _
    | with_reducible intro _ _ _
    | split
    | dsimp only

theorem keeps_agtAct_1 {P : State → Prop} (H : Closed P) (c : Sys2Proof.Machine.AgtCmd) (n : ℕ) (s : Sys2Proof.Machine.State) (keep_s : P s) : P (agtAct c n s).1 := by
  unfold agtAct
  try dsimp only
  repeat' first
    | with_reducible assumption
    | with_reducible apply keeps_agtVerify_1 H
    | with_reducible apply keeps_unprotect H
    | with_reducible apply keeps_State_put H
    | with_reducible apply keeps_State_setAgt H
    | with_reducible apply keeps_fuseFailed_1 H
    | with_reducible apply keeps_agtAdvance_1 H
    | with_reducible apply keeps_State_drawn_2 H
    | with_reducible apply keeps_State_putBytes H
    | with_reducible apply keeps_State_wr H
    | with_reducible apply keeps_sessOpen_1 H
    | with_reducible apply keeps_sessRecv_1 H
    | with_reducible apply keeps_sessSend_1 H
    | with_reducible apply keeps_closeSession H
    | with_reducible refine ite_keeps (fun _ => ?_) (fun _ => ?_)
    | with_reducible refine foldl_keeps (fun _ _ _ => ?_) ?_
    | with_reducible refine dite_keeps (fun _ => ?_) (fun _ => ?_)
    | with_reducible refine ite_fst (fun _ => ?_) (fun _ => ?_)
    | with_reducible refine ite_snd (fun _ => ?_) (fun _ => ?_)
    | with_reducible refine ite_snd2 (fun _ => ?_) (fun _ => ?_)
    | with_reducible refine ite_snd3 (fun _ => ?_) (fun _ => ?_)
    | with_reducible refine foldl_fst (fun _ _ _ => ?_) ?_
    | with_reducible refine foldl_snd (fun _ _ _ => ?_) ?_
    | with_reducible refine snd_of_eq (by assumption) ?_
    | with_reducible refine fst_of_eq (by assumption) ?_
    | with_reducible refine snd2_of_eq (by assumption) ?_
    | with_reducible intro _ _
    | with_reducible intro _ _ _
    | split
    | dsimp only

theorem keeps_agtWrite {P : State → Prop} (H : Closed P) (r : Sys2Proof.Req) (a : ℕ) (act : Sys2Proof.Machine.State → Sys2Proof.Machine.State) (s : Sys2Proof.Machine.State) (keep_act : ∀ s0, P s0 → P (act s0)) (keep_s : P s) : P (agtWrite r a act s) := by
  unfold agtWrite
  try dsimp only
  repeat' first
    | with_reducible assumption
    | with_reducible apply keep_act
    | with_reducible apply keeps_State_refuse4 H
    | with_reducible refine ite_keeps (fun _ => ?_) (fun _ => ?_)
    | with_reducible refine foldl_keeps (fun _ _ _ => ?_) ?_
    | with_reducible refine dite_keeps (fun _ => ?_) (fun _ => ?_)
    | with_reducible refine ite_fst (fun _ => ?_) (fun _ => ?_)
    | with_reducible refine ite_snd (fun _ => ?_) (fun _ => ?_)
    | with_reducible refine ite_snd2 (fun _ => ?_) (fun _ => ?_)
    | with_reducible refine ite_snd3 (fun _ => ?_) (fun _ => ?_)
    | with_reducible refine foldl_fst (fun _ _ _ => ?_) ?_
    | with_reducible refine foldl_snd (fun _ _ _ => ?_) ?_
    | with_reducible refine snd_of_eq (by assumption) ?_
    | with_reducible refine fst_of_eq (by assumption) ?_
    | with_reducible refine snd2_of_eq (by assumption) ?_
    | with_reducible intro _ _
    | with_reducible intro _ _ _
    | split
    | dsimp only

theorem keeps_agtCmdWrite {P : State → Prop} (H : Closed P) (r : Sys2Proof.Req) (v : Sys2Proof.Word) (s : Sys2Proof.Machine.State) (keep_s : P s) : P (agtCmdWrite r v s) := by
  unfold agtCmdWrite
  try dsimp only
  repeat' first
    | with_reducible assumption
    | with_reducible apply keeps_agtWrite H
    | with_reducible apply keeps_State_refuse4 H
    | with_reducible apply keeps_State_storeReg H
    | with_reducible apply keeps_State_setAgt H
    | with_reducible apply keeps_State_put H
    | with_reducible refine ite_keeps (fun _ => ?_) (fun _ => ?_)
    | with_reducible refine foldl_keeps (fun _ _ _ => ?_) ?_
    | with_reducible refine dite_keeps (fun _ => ?_) (fun _ => ?_)
    | with_reducible refine ite_fst (fun _ => ?_) (fun _ => ?_)
    | with_reducible refine ite_snd (fun _ => ?_) (fun _ => ?_)
    | with_reducible refine ite_snd2 (fun _ => ?_) (fun _ => ?_)
    | with_reducible refine ite_snd3 (fun _ => ?_) (fun _ => ?_)
    | with_reducible refine foldl_fst (fun _ _ _ => ?_) ?_
    | with_reducible refine foldl_snd (fun _ _ _ => ?_) ?_
    | with_reducible refine snd_of_eq (by assumption) ?_
    | with_reducible refine fst_of_eq (by assumption) ?_
    | with_reducible refine snd2_of_eq (by assumption) ?_
    | with_reducible intro _ _
    | with_reducible intro _ _ _
    | split
    | dsimp only

theorem keeps_agtCommand {P : State → Prop} (H : Closed P) (r : Sys2Proof.Req) (op : ℕ) (arg : BitVec 8) (s : Sys2Proof.Machine.State) (keep_s : P s) : ∀ s1, (agtCommand r op arg s) = .next s1 → P s1 := by
  unfold agtCommand
  refine next_keeps ?_
  try dsimp only
  repeat' first
    | with_reducible assumption
    | with_reducible apply keeps_regCmd H
    | with_reducible apply keeps_agtCmdWrite H
    | with_reducible refine ite_keeps (fun _ => ?_) (fun _ => ?_)
    | with_reducible refine foldl_keeps (fun _ _ _ => ?_) ?_
    | with_reducible refine dite_keeps (fun _ => ?_) (fun _ => ?_)
    | with_reducible refine ite_fst (fun _ => ?_) (fun _ => ?_)
    | with_reducible refine ite_snd (fun _ => ?_) (fun _ => ?_)
    | with_reducible refine ite_snd2 (fun _ => ?_) (fun _ => ?_)
    | with_reducible refine ite_snd3 (fun _ => ?_) (fun _ => ?_)
    | with_reducible refine foldl_fst (fun _ _ _ => ?_) ?_
    | with_reducible refine foldl_snd (fun _ _ _ => ?_) ?_
    | with_reducible refine snd_of_eq (by assumption) ?_
    | with_reducible refine fst_of_eq (by assumption) ?_
    | with_reducible refine snd2_of_eq (by assumption) ?_
    | with_reducible intro _ _
    | with_reducible intro _ _ _
    | split
    | dsimp only

theorem keeps_execAgtVerify {P : State → Prop} (H : Closed P) (r : Sys2Proof.Req) (arg : BitVec 8) (s : Sys2Proof.Machine.State) (keep_s : P s) : ∀ s1, (execAgtVerify r arg s) = .next s1 → P s1 := by
  unfold execAgtVerify
  apply keeps_agtCommand H
  assumption

theorem keeps_execAgtRelease {P : State → Prop} (H : Closed P) (r : Sys2Proof.Req) (arg : BitVec 8) (s : Sys2Proof.Machine.State) (keep_s : P s) : ∀ s1, (execAgtRelease r arg s) = .next s1 → P s1 := by
  unfold execAgtRelease
  apply keeps_agtCommand H
  assumption

theorem keeps_execAgtAdvance {P : State → Prop} (H : Closed P) (r : Sys2Proof.Req) (arg : BitVec 8) (s : Sys2Proof.Machine.State) (keep_s : P s) : ∀ s1, (execAgtAdvance r arg s) = .next s1 → P s1 := by
  unfold execAgtAdvance
  apply keeps_agtCommand H
  assumption

theorem keeps_execAgtBurn {P : State → Prop} (H : Closed P) (r : Sys2Proof.Req) (arg : BitVec 8) (s : Sys2Proof.Machine.State) (keep_s : P s) : ∀ s1, (execAgtBurn r arg s) = .next s1 → P s1 := by
  unfold execAgtBurn
  apply keeps_agtCommand H
  assumption

theorem keeps_execAgtRevoke {P : State → Prop} (H : Closed P) (r : Sys2Proof.Req) (arg : BitVec 8) (s : Sys2Proof.Machine.State) (keep_s : P s) : ∀ s1, (execAgtRevoke r arg s) = .next s1 → P s1 := by
  unfold execAgtRevoke
  apply keeps_agtCommand H
  assumption

theorem keeps_execAgtProgkey {P : State → Prop} (H : Closed P) (r : Sys2Proof.Req) (arg : BitVec 8) (s : Sys2Proof.Machine.State) (keep_s : P s) : ∀ s1, (execAgtProgkey r arg s) = .next s1 → P s1 := by
  unfold execAgtProgkey
  apply keeps_agtCommand H
  assumption

theorem keeps_execAgtLcsadv {P : State → Prop} (H : Closed P) (r : Sys2Proof.Req) (arg : BitVec 8) (s : Sys2Proof.Machine.State) (keep_s : P s) : ∀ s1, (execAgtLcsadv r arg s) = .next s1 → P s1 := by
  unfold execAgtLcsadv
  apply keeps_agtCommand H
  assumption

theorem keeps_execAgtAttest {P : State → Prop} (H : Closed P) (r : Sys2Proof.Req) (arg : BitVec 8) (s : Sys2Proof.Machine.State) (keep_s : P s) : ∀ s1, (execAgtAttest r arg s) = .next s1 → P s1 := by
  unfold execAgtAttest
  apply keeps_agtCommand H
  assumption

theorem keeps_execAgtIdkey {P : State → Prop} (H : Closed P) (r : Sys2Proof.Req) (arg : BitVec 8) (s : Sys2Proof.Machine.State) (keep_s : P s) : ∀ s1, (execAgtIdkey r arg s) = .next s1 → P s1 := by
  unfold execAgtIdkey
  apply keeps_agtCommand H
  assumption

theorem keeps_execAgtCert {P : State → Prop} (H : Closed P) (r : Sys2Proof.Req) (arg : BitVec 8) (s : Sys2Proof.Machine.State) (keep_s : P s) : ∀ s1, (execAgtCert r arg s) = .next s1 → P s1 := by
  unfold execAgtCert
  apply keeps_agtCommand H
  assumption

theorem keeps_execAgtSopen {P : State → Prop} (H : Closed P) (r : Sys2Proof.Req) (arg : BitVec 8) (s : Sys2Proof.Machine.State) (keep_s : P s) : ∀ s1, (execAgtSopen r arg s) = .next s1 → P s1 := by
  unfold execAgtSopen
  apply keeps_agtCommand H
  assumption

theorem keeps_execAgtSrecv {P : State → Prop} (H : Closed P) (r : Sys2Proof.Req) (arg : BitVec 8) (s : Sys2Proof.Machine.State) (keep_s : P s) : ∀ s1, (execAgtSrecv r arg s) = .next s1 → P s1 := by
  unfold execAgtSrecv
  apply keeps_agtCommand H
  assumption

theorem keeps_execAgtSsend {P : State → Prop} (H : Closed P) (r : Sys2Proof.Req) (arg : BitVec 8) (s : Sys2Proof.Machine.State) (keep_s : P s) : ∀ s1, (execAgtSsend r arg s) = .next s1 → P s1 := by
  unfold execAgtSsend
  apply keeps_agtCommand H
  assumption

theorem keeps_execAgtSclose {P : State → Prop} (H : Closed P) (r : Sys2Proof.Req) (arg : BitVec 8) (s : Sys2Proof.Machine.State) (keep_s : P s) : ∀ s1, (execAgtSclose r arg s) = .next s1 → P s1 := by
  unfold execAgtSclose
  apply keeps_agtCommand H
  assumption

theorem keeps_execAgateCommandEnd {P : State → Prop} (H : Closed P) (fuses : ℕ) (t : ℕ) (s : Sys2Proof.Machine.State) (keep_s : P s) : ∀ s1, (execAgateCommandEnd fuses t s) = .next s1 → P s1 := by
  unfold execAgateCommandEnd
  refine next_keeps ?_
  try dsimp only
  repeat' first
    | with_reducible assumption
    | with_reducible apply keeps_agtAct_1 H
    | with_reducible apply keeps_State_at H
    | with_reducible apply keeps_State_setAgt H
    | with_reducible apply keeps_State_put H
    | with_reducible refine ite_keeps (fun _ => ?_) (fun _ => ?_)
    | with_reducible refine foldl_keeps (fun _ _ _ => ?_) ?_
    | with_reducible refine dite_keeps (fun _ => ?_) (fun _ => ?_)
    | with_reducible refine ite_fst (fun _ => ?_) (fun _ => ?_)
    | with_reducible refine ite_snd (fun _ => ?_) (fun _ => ?_)
    | with_reducible refine ite_snd2 (fun _ => ?_) (fun _ => ?_)
    | with_reducible refine ite_snd3 (fun _ => ?_) (fun _ => ?_)
    | with_reducible refine foldl_fst (fun _ _ _ => ?_) ?_
    | with_reducible refine foldl_snd (fun _ _ _ => ?_) ?_
    | with_reducible refine snd_of_eq (by assumption) ?_
    | with_reducible refine fst_of_eq (by assumption) ?_
    | with_reducible refine snd2_of_eq (by assumption) ?_
    | with_reducible intro _ _
    | with_reducible intro _ _ _
    | split
    | dsimp only

end Sys2Proof.Machine
end

