-- ==== Sys2Proof/Laws/KeepsFaults.lean ====
section
/-!
SUPPORT. Closed predicates are kept by every operation of these files.
-/

namespace Sys2Proof.Machine

theorem keeps_faultCease {P : State → Prop} (H : Closed P) (n : Fin 32) (s : State) (keep_s : P s) : P (faultCease n s) := by
  unfold faultCease
  try dsimp only
  repeat' first
    | with_reducible assumption
    | with_reducible apply keeps_State_put H
    | with_reducible apply keeps_State_indicate H
    | with_reducible refine ite_keeps (fun _ => ?_) (fun _ => ?_)

theorem keeps_endRecovery {P : State → Prop} (H : Closed P) (s : State) (keep_s : P s) : P (endRecovery s) := by
  unfold endRecovery
  try dsimp only
  repeat' first
    | with_reducible assumption
    | with_reducible apply keeps_State_put H
    | with_reducible apply keeps_State_setCurrent H
    | with_reducible refine ite_keeps (fun _ => ?_) (fun _ => ?_)
    | with_reducible refine foldl_keeps (fun _ _ _ => ?_) ?_
    | with_reducible refine dite_keeps (fun _ => ?_) (fun _ => ?_)
    | with_reducible refine ite_fst (fun _ => ?_) (fun _ => ?_)
    | with_reducible refine ite_snd (fun _ => ?_) (fun _ => ?_)
    | with_reducible refine ite_snd2 (fun _ => ?_) (fun _ => ?_)
    | with_reducible refine ite_snd3 (fun _ => ?_) (fun _ => ?_)
    | with_reducible refine foldl_fst (fun _ _ _ => ?_) ?_
    | with_reducible refine foldl_snd (fun _ _ _ => ?_) ?_
    | with_reducible refine snd_of_eq (by assumption) ?_
    | with_reducible refine fst_of_eq (by assumption) ?_
    | with_reducible refine snd2_of_eq (by assumption) ?_
    | with_reducible intro _ _
    | with_reducible intro _ _ _
    | split
    | dsimp only
    | with_reducible apply H.mk'

theorem keeps_fltCtrlWrite {P : State → Prop} (H : Closed P) (r : Req) (v : Word) (s : State) (keep_s : P s) : P (fltCtrlWrite r v s) := by
  unfold fltCtrlWrite
  try dsimp only
  repeat' first
    | with_reducible assumption
    | with_reducible apply keeps_State_refuse4 H
    | with_reducible apply keeps_faultCease H
    | with_reducible apply keeps_endRecovery H
    | with_reducible apply keeps_State_requestIsolation H
    | with_reducible apply keeps_State_safetyClearAll H
    | with_reducible apply keeps_State_safetyClear H
    | with_reducible apply keeps_State_raiseSev H
    | with_reducible apply keeps_endSafety H
    | with_reducible refine ite_keeps (fun _ => ?_) (fun _ => ?_)
    | with_reducible refine foldl_keeps (fun _ _ _ => ?_) ?_
    | with_reducible refine dite_keeps (fun _ => ?_) (fun _ => ?_)
    | with_reducible refine ite_fst (fun _ => ?_) (fun _ => ?_)
    | with_reducible refine ite_snd (fun _ => ?_) (fun _ => ?_)
    | with_reducible refine ite_snd2 (fun _ => ?_) (fun _ => ?_)
    | with_reducible refine ite_snd3 (fun _ => ?_) (fun _ => ?_)
    | with_reducible refine foldl_fst (fun _ _ _ => ?_) ?_
    | with_reducible refine foldl_snd (fun _ _ _ => ?_) ?_
    | with_reducible refine snd_of_eq (by assumption) ?_
    | with_reducible refine fst_of_eq (by assumption) ?_
    | with_reducible refine snd2_of_eq (by assumption) ?_
    | with_reducible intro _ _
    | with_reducible intro _ _ _
    | split

theorem keeps_faultOp {P : State → Prop} (H : Closed P) (r : Req) (op : ℕ) (arg : BitVec 8) (s : State) (keep_s : P s) : ∀ s1, (faultOp r op arg s) = .next s1 → P s1 := by
  unfold faultOp
  refine next_keeps ?_
  try dsimp only
  repeat' first
    | with_reducible assumption
    | with_reducible apply keeps_regCmd H
    | with_reducible apply keeps_fltCtrlWrite H

theorem keeps_execFltCease {P : State → Prop} (H : Closed P) (r : Req) (arg : BitVec 8) (s : State) (keep_s : P s) : ∀ s1, (execFltCease r arg s) = .next s1 → P s1 := by
  unfold execFltCease
  apply keeps_faultOp H
  assumption

theorem keeps_execFltEndRecovery {P : State → Prop} (H : Closed P) (r : Req) (arg : BitVec 8) (s : State) (keep_s : P s) : ∀ s1, (execFltEndRecovery r arg s) = .next s1 → P s1 := by
  unfold execFltEndRecovery
  apply keeps_faultOp H
  assumption

theorem keeps_execFltIsolate {P : State → Prop} (H : Closed P) (r : Req) (arg : BitVec 8) (s : State) (keep_s : P s) : ∀ s1, (execFltIsolate r arg s) = .next s1 → P s1 := by
  unfold execFltIsolate
  apply keeps_faultOp H
  assumption

theorem keeps_execFltSafetyClear {P : State → Prop} (H : Closed P) (r : Req) (arg : BitVec 8) (s : State) (keep_s : P s) : ∀ s1, (execFltSafetyClear r arg s) = .next s1 → P s1 := by
  unfold execFltSafetyClear
  apply keeps_faultOp H
  assumption

theorem keeps_execFltRaiseSoftware {P : State → Prop} (H : Closed P) (r : Req) (arg : BitVec 8) (s : State) (keep_s : P s) : ∀ s1, (execFltRaiseSoftware r arg s) = .next s1 → P s1 := by
  unfold execFltRaiseSoftware
  apply keeps_faultOp H
  assumption

theorem keeps_execFltEndSafety {P : State → Prop} (H : Closed P) (r : Req) (arg : BitVec 8) (s : State) (keep_s : P s) : ∀ s1, (execFltEndSafety r arg s) = .next s1 → P s1 := by
  unfold execFltEndSafety
  apply keeps_faultOp H
  assumption

theorem keeps_setIso {P : State → Prop} (H : Closed P) (h : Fin 8) (n : ℕ) (s : State) (keep_s : P s) : P (setIso h n s) := by
  unfold setIso
  try dsimp only
  repeat' first
    | with_reducible assumption
    | with_reducible refine ite_keeps (fun _ => ?_) (fun _ => ?_)
    | with_reducible refine foldl_keeps (fun _ _ _ => ?_) ?_
    | with_reducible refine dite_keeps (fun _ => ?_) (fun _ => ?_)
    | with_reducible refine ite_fst (fun _ => ?_) (fun _ => ?_)
    | with_reducible refine ite_snd (fun _ => ?_) (fun _ => ?_)
    | with_reducible refine ite_snd2 (fun _ => ?_) (fun _ => ?_)
    | with_reducible refine ite_snd3 (fun _ => ?_) (fun _ => ?_)
    | with_reducible refine foldl_fst (fun _ _ _ => ?_) ?_
    | with_reducible refine foldl_snd (fun _ _ _ => ?_) ?_
    | with_reducible refine snd_of_eq (by assumption) ?_
    | with_reducible refine fst_of_eq (by assumption) ?_
    | with_reducible refine snd2_of_eq (by assumption) ?_
    | with_reducible intro _ _
    | with_reducible intro _ _ _
    | split
    | dsimp only
    | with_reducible apply H.mk'

theorem keeps_execIsolationStart {P : State → Prop} (H : Closed P) (h : Fin 8) (s : State) (keep_s : P s) : ∀ s1, (execIsolationStart h s) = .next s1 → P s1 := by
  unfold execIsolationStart
  refine next_keeps ?_
  try dsimp only
  repeat' first
    | with_reducible assumption
    | with_reducible apply keeps_State_freeze H
    | with_reducible apply keeps_State_maskRequesters H
    | with_reducible apply keeps_State_haltEng H
    | with_reducible apply keeps_State_clrBit H
    | with_reducible apply keeps_State_stopAllDma H
    | with_reducible apply keeps_setIso H
    | with_reducible apply keeps_removeActs H
    | with_reducible apply keeps_State_safetyStep2 H
    | with_reducible refine ite_keeps (fun _ => ?_) (fun _ => ?_)

theorem keeps_execIsolationAfterRamp {P : State → Prop} (H : Closed P) (h : Fin 8) (s : State) (keep_s : P s) : ∀ s1, (execIsolationAfterRamp h s) = .next s1 → P s1 := by
  unfold execIsolationAfterRamp
  refine next_keeps ?_
  try dsimp only
  repeat' first
    | with_reducible assumption
    | with_reducible apply keeps_State_forcePins H
    | with_reducible apply keeps_orxFree H
    | with_reducible apply keeps_clearBias H
    | with_reducible apply keeps_setIso H
    | with_reducible apply keeps_State_breakLocks H
    | with_reducible refine ite_keeps (fun _ => ?_) (fun _ => ?_)

theorem keeps_endDeepFlow {P : State → Prop} (H : Closed P) (h : Fin 8) (s : State) (keep_s : P s) : P (endDeepFlow h s) := by
  have hw : P (match s.orx[h].cap with | some c => finishCapture h c 6 s | none => s) := by
    split
    · exact keeps_finishCapture H _ _ _ _ keep_s
    · exact keep_s
  have key : ∀ w : State, P w → P (showUnsent h ((match w.orx[h].items with
      | [d] => if d.kind = 4 then (sendDeep h d d.arg false [] w).getD w else w
      | _ => w).setOrx h { (match w.orx[h].items with
      | [d] => if d.kind = 4 then (sendDeep h d d.arg false [] w).getD w else w
      | _ => w).orx[h] with items := [], lost := 0 })) := by
    intro w hw
    refine keeps_showUnsent H _ _ (keeps_State_setOrx H _ _ _ ?_)
    split
    · exact ite_keeps (fun _ => getD_keeps (keeps_sendDeep H _ _ _ _ _ _ hw) hw) (fun _ => hw)
    · exact hw
  unfold endDeepFlow
  exact ite_keeps (fun _ => keep_s) (fun _ => key _ hw)

theorem keeps_execIsolationComplete {P : State → Prop} (H : Closed P) (h : Fin 8) (s : State) (keep_s : P s) : ∀ s1, (execIsolationComplete h s) = .next s1 → P s1 := by
  unfold execIsolationComplete
  refine next_keeps ?_
  try dsimp only
  repeat' first
    | with_reducible assumption
    | with_reducible apply keeps_removeActs H
    | with_reducible apply keeps_State_raise H
    | with_reducible apply keeps_State_setBit H
    | with_reducible apply keeps_setIso H
    | with_reducible apply keeps_endDeepFlow H
    | with_reducible refine ite_keeps (fun _ => ?_) (fun _ => ?_)

end Sys2Proof.Machine
end

