-- ==== Sys2Proof/Laws/KeepsUnits.lean ====
section
/-!
SUPPORT. Closed predicates are kept by every operation of these files.
-/

namespace Sys2Proof.Machine

theorem keeps_haltNow {P : State → Prop} (H : Closed P) (h : Fin 8) (s : State) (keep_s : P s) : P (haltNow h s) := by
  unfold haltNow
  try dsimp only
  repeat' first
    | with_reducible assumption
    | with_reducible apply keeps_State_setEng H
    | with_reducible apply keeps_State_put H
    | with_reducible apply keeps_State_breakLocks H
    | with_reducible apply keeps_State_haltEng H

theorem keeps_haltIfQuiet {P : State → Prop} (H : Closed P) (h : Fin 8) (s : State) (keep_s : P s) : P (haltIfQuiet h s) := by
  unfold haltIfQuiet
  try dsimp only
  repeat' first
    | with_reducible assumption
    | with_reducible apply keeps_haltNow H
    | with_reducible refine ite_keeps (fun _ => ?_) (fun _ => ?_)

theorem keeps_startEngine {P : State → Prop} (H : Closed P) (h : Fin 8) (entry : ℕ) (s : State) (keep_s : P s) : P (startEngine h entry s) := by
  unfold startEngine
  try dsimp only
  repeat' first
    | with_reducible assumption
    | with_reducible apply keeps_State_setEng H

theorem keeps_engRun {P : State → Prop} (H : Closed P) (r : Req) (h : Fin 8) (s : State) (keep_s : P s) : P (engRun r h s) := by
  unfold engRun
  try dsimp only
  repeat' first
    | with_reducible assumption
    | with_reducible apply keeps_startEngine H
    | with_reducible apply keeps_State_refuse4 H
    | with_reducible refine ite_keeps (fun _ => ?_) (fun _ => ?_)

theorem keeps_engCtrlWrite {P : State → Prop} (H : Closed P) (r : Req) (h : Fin 8) (v : Word) (s : State) (keep_s : P s) : P (engCtrlWrite r h v s) := by
  unfold engCtrlWrite
  try dsimp only
  repeat' first
    | with_reducible assumption
    | with_reducible apply keeps_State_refuse4 H
    | with_reducible apply keeps_haltIfQuiet H
    | with_reducible apply keeps_State_put H
    | with_reducible apply keeps_engRun H
    | with_reducible refine ite_keeps (fun _ => ?_) (fun _ => ?_)

theorem keeps_engEntryWrite {P : State → Prop} (H : Closed P) (r : Req) (h : Fin 8) (v : Word) (s : State) (keep_s : P s) : P (engEntryWrite r h v s) := by
  unfold engEntryWrite
  try dsimp only
  repeat' first
    | with_reducible assumption
    | with_reducible apply keeps_State_storeReg H
    | with_reducible apply keeps_State_refuse4 H
    | with_reducible refine ite_keeps (fun _ => ?_) (fun _ => ?_)

theorem keeps_engSwiWrite {P : State → Prop} (H : Closed P) (r : Req) (h : Fin 8) (v : Word) (s : State) (keep_s : P s) : P (engSwiWrite r h v s) := by
  unfold engSwiWrite
  try dsimp only
  repeat' first
    | with_reducible assumption
    | with_reducible apply keeps_State_refuse4 H
    | with_reducible apply keeps_State_storeReg H
    | with_reducible refine ite_keeps (fun _ => ?_) (fun _ => ?_)

theorem keeps_State_setDmaSt {P : State → Prop} (H : Closed P) (s : State) (h : Fin 8) (c : Fin 8) (v : ℕ) (keep_s : P s) : P (State.setDmaSt s h c v) := by
  unfold State.setDmaSt
  try dsimp only
  repeat' first
    | with_reducible assumption
    | with_reducible apply keeps_State_put H

theorem keeps_dmaPace {P : State → Prop} (H : Closed P) (h : Fin 8) (c : Fin 8) (s : State) (keep_s : P s) : P (dmaPace h c s) := by
  unfold dmaPace
  try dsimp only
  repeat' first
    | with_reducible assumption
    | with_reducible apply keeps_State_setDmaSt H
    | with_reducible apply keeps_State_setDma H
    | with_reducible apply keeps_State_put H
    | with_reducible refine ite_keeps (fun _ => ?_) (fun _ => ?_)

theorem keeps_dmaTrigger {P : State → Prop} (H : Closed P) (h : Fin 8) (c : Fin 8) (s : State) (keep_s : P s) : P (dmaTrigger h c s) := by
  unfold dmaTrigger
  try dsimp only
  repeat' first
    | with_reducible assumption
    | with_reducible apply keeps_State_inc H
    | with_reducible apply keeps_State_put H
    | with_reducible apply keeps_dmaPace H
    | with_reducible refine ite_keeps (fun _ => ?_) (fun _ => ?_)

theorem keeps_dmaGo {P : State → Prop} (H : Closed P) (h : Fin 8) (c : Fin 8) (s : State) (keep_s : P s) : P (dmaGo h c s) := by
  unfold dmaGo
  try dsimp only
  repeat' first
    | with_reducible assumption
    | with_reducible apply keeps_State_put H
    | with_reducible apply keeps_State_setDmaSt H
    | with_reducible apply keeps_State_setDma H
    | with_reducible refine ite_keeps (fun _ => ?_) (fun _ => ?_)

theorem keeps_dmaResume {P : State → Prop} (H : Closed P) (h : Fin 8) (c : Fin 8) (s : State) (keep_s : P s) : P (dmaResume h c s) := by
  unfold dmaResume
  try dsimp only
  repeat' first
    | with_reducible assumption
    | with_reducible apply keeps_State_put H
    | with_reducible apply keeps_State_setDmaSt H
    | with_reducible refine ite_keeps (fun _ => ?_) (fun _ => ?_)

theorem keeps_dmaStrig {P : State → Prop} (H : Closed P) (h : Fin 8) (c : Fin 8) (s : State) (keep_s : P s) : P (dmaStrig h c s) := by
  unfold dmaStrig
  try dsimp only
  repeat' first
    | with_reducible assumption
    | with_reducible apply keeps_dmaTrigger H
    | with_reducible refine ite_keeps (fun _ => ?_) (fun _ => ?_)

theorem keeps_dmaCtrlWrite {P : State → Prop} (H : Closed P) (h : Fin 8) (c : Fin 8) (v : Word) (s : State) (keep_s : P s) : P (dmaCtrlWrite h c v s) := by
  unfold dmaCtrlWrite
  try dsimp only
  repeat' first
    | with_reducible assumption
    | with_reducible apply keeps_State_endDma H
    | with_reducible apply keeps_dmaResume H
    | with_reducible apply keeps_dmaGo H
    | with_reducible apply keeps_dmaStrig H
    | with_reducible refine ite_keeps (fun _ => ?_) (fun _ => ?_)

theorem keeps_dmaStopallWrite {P : State → Prop} (H : Closed P) (r : Req) (h : Fin 8) (v : Word) (s : State) (keep_s : P s) : P (dmaStopallWrite r h v s) := by
  unfold dmaStopallWrite
  try dsimp only
  repeat' first
    | with_reducible assumption
    | with_reducible apply keeps_State_refuse4 H
    | with_reducible apply keeps_State_stopAllDma H
    | with_reducible apply keeps_State_put H
    | with_reducible refine ite_keeps (fun _ => ?_) (fun _ => ?_)

theorem keeps_dmaRlenWrite {P : State → Prop} (H : Closed P) (r : Req) (h : Fin 8) (c : Fin 8) (a : ℕ) (v : Word) (s : State) (keep_s : P s) : P (dmaRlenWrite r h c a v s) := by
  unfold dmaRlenWrite
  try dsimp only
  repeat' first
    | with_reducible assumption
    | with_reducible apply keeps_State_refuse4 H
    | with_reducible apply keeps_State_setDma H
    | with_reducible apply keeps_State_put H
    | with_reducible refine ite_keeps (fun _ => ?_) (fun _ => ?_)

theorem keeps_dmaWrite {P : State → Prop} (H : Closed P) (r : Req) (h : Fin 8) (a : ℕ) (v : Word) (s : State) (keep_s : P s) : P (dmaWrite r h a v s) := by
  unfold dmaWrite
  try dsimp only
  repeat' first
    | with_reducible assumption
    | with_reducible apply keeps_State_refuse4 H
    | with_reducible apply keeps_dmaStopallWrite H
    | with_reducible apply keeps_State_storeReg H
    | with_reducible apply keeps_dmaCtrlWrite H
    | with_reducible apply keeps_dmaRlenWrite H
    | with_reducible refine ite_keeps (fun _ => ?_) (fun _ => ?_)

theorem keeps_lockRegWrite {P : State → Prop} (H : Closed P) (r : Req) (a : ℕ) (v : Word) (s : State) (keep_s : P s) : P (lockRegWrite r a v s) := by
  unfold lockRegWrite
  try dsimp only
  repeat' first
    | with_reducible assumption
    | with_reducible apply keeps_State_storeReg H
    | with_reducible apply keeps_State_refuse4 H
    | with_reducible refine ite_keeps (fun _ => ?_) (fun _ => ?_)

end Sys2Proof.Machine
end

