-- ==== Sys2Proof/Laws/KeepsBus.lean ====
section
/-!
SUPPORT. Closed predicates are kept by every operation of these files.
-/

namespace Sys2Proof.Machine

theorem keeps_stoWrite {P : State → Prop} (H : Closed P) (r : Sys2Proof.Req) (k : ℕ) (la : ℕ) (a : ℕ) (v : Sys2Proof.Word) (s : Sys2Proof.Machine.State) (keep_s : P s) : P (stoWrite r k la a v s) := by
  unfold stoWrite
  try dsimp only
  repeat' first
    | with_reducible assumption
    | with_reducible apply keeps_repairWrite H
    | with_reducible apply keeps_injectWrite H
    | with_reducible apply keeps_State_storeReg H
    | with_reducible refine ite_keeps (fun _ => ?_) (fun _ => ?_)
    | with_reducible refine foldl_keeps (fun _ _ _ => ?_) ?_
    | with_reducible refine dite_keeps (fun _ => ?_) (fun _ => ?_)
    | with_reducible refine ite_fst (fun _ => ?_) (fun _ => ?_)
    | with_reducible refine ite_snd (fun _ => ?_) (fun _ => ?_)
    | with_reducible refine ite_snd2 (fun _ => ?_) (fun _ => ?_)
    | with_reducible refine ite_snd3 (fun _ => ?_) (fun _ => ?_)
    | with_reducible refine foldl_fst (fun _ _ _ => ?_) ?_
    | with_reducible refine foldl_snd (fun _ _ _ => ?_) ?_
    | with_reducible refine snd_of_eq (by assumption) ?_
    | with_reducible refine fst_of_eq (by assumption) ?_
    | with_reducible refine snd2_of_eq (by assumption) ?_
    | with_reducible intro _ _
    | with_reducible intro _ _ _
    | split
    | dsimp only

theorem keeps_sysWrite {P : State → Prop} (H : Closed P) (r : Sys2Proof.Req) (a : ℕ) (v : Sys2Proof.Word) (s : Sys2Proof.Machine.State) (keep_s : P s) : P (sysWrite r a v s) := by
  unfold sysWrite
  try dsimp only
  repeat' first
    | with_reducible assumption
    | with_reducible apply keeps_sysRstWrite H
    | with_reducible apply keeps_reeveRestart H
    | with_reducible apply keeps_stoWrite H
    | with_reducible apply keeps_State_storeReg H
    | with_reducible refine ite_keeps (fun _ => ?_) (fun _ => ?_)
    | with_reducible refine foldl_keeps (fun _ _ _ => ?_) ?_
    | with_reducible refine dite_keeps (fun _ => ?_) (fun _ => ?_)
    | with_reducible refine ite_fst (fun _ => ?_) (fun _ => ?_)
    | with_reducible refine ite_snd (fun _ => ?_) (fun _ => ?_)
    | with_reducible refine ite_snd2 (fun _ => ?_) (fun _ => ?_)
    | with_reducible refine ite_snd3 (fun _ => ?_) (fun _ => ?_)
    | with_reducible refine foldl_fst (fun _ _ _ => ?_) ?_
    | with_reducible refine foldl_snd (fun _ _ _ => ?_) ?_
    | with_reducible refine snd_of_eq (by assumption) ?_
    | with_reducible refine fst_of_eq (by assumption) ?_
    | with_reducible refine snd2_of_eq (by assumption) ?_
    | with_reducible intro _ _
    | with_reducible intro _ _ _
    | split
    | dsimp only

theorem keeps_pwrWrite {P : State → Prop} (H : Closed P) (r : Sys2Proof.Req) (a : ℕ) (v : Sys2Proof.Word) (s : Sys2Proof.Machine.State) (keep_s : P s) : P (pwrWrite r a v s) := by
  unfold pwrWrite
  try dsimp only
  repeat' first
    | with_reducible assumption
    | with_reducible apply keeps_vsetWrite H
    | with_reducible apply keeps_hctrlWrite H
    | with_reducible apply keeps_State_storeReg H
    | with_reducible refine ite_keeps (fun _ => ?_) (fun _ => ?_)
    | with_reducible refine foldl_keeps (fun _ _ _ => ?_) ?_
    | with_reducible refine dite_keeps (fun _ => ?_) (fun _ => ?_)
    | with_reducible refine ite_fst (fun _ => ?_) (fun _ => ?_)
    | with_reducible refine ite_snd (fun _ => ?_) (fun _ => ?_)
    | with_reducible refine ite_snd2 (fun _ => ?_) (fun _ => ?_)
    | with_reducible refine ite_snd3 (fun _ => ?_) (fun _ => ?_)
    | with_reducible refine foldl_fst (fun _ _ _ => ?_) ?_
    | with_reducible refine foldl_snd (fun _ _ _ => ?_) ?_
    | with_reducible refine snd_of_eq (by assumption) ?_
    | with_reducible refine fst_of_eq (by assumption) ?_
    | with_reducible refine snd2_of_eq (by assumption) ?_
    | with_reducible intro _ _
    | with_reducible intro _ _ _
    | split
    | dsimp only

theorem keeps_clkWrite {P : State → Prop} (H : Closed P) (r : Sys2Proof.Req) (a : ℕ) (v : Sys2Proof.Word) (s : Sys2Proof.Machine.State) (keep_s : P s) : P (clkWrite r a v s) := by
  unfold clkWrite
  try dsimp only
  repeat' first
    | with_reducible assumption
    | with_reducible apply keeps_clkOutWrite H
    | with_reducible apply keeps_State_storeReg H
    | with_reducible refine ite_keeps (fun _ => ?_) (fun _ => ?_)
    | with_reducible refine foldl_keeps (fun _ _ _ => ?_) ?_
    | with_reducible refine dite_keeps (fun _ => ?_) (fun _ => ?_)
    | with_reducible refine ite_fst (fun _ => ?_) (fun _ => ?_)
    | with_reducible refine ite_snd (fun _ => ?_) (fun _ => ?_)
    | with_reducible refine ite_snd2 (fun _ => ?_) (fun _ => ?_)
    | with_reducible refine ite_snd3 (fun _ => ?_) (fun _ => ?_)
    | with_reducible refine foldl_fst (fun _ _ _ => ?_) ?_
    | with_reducible refine foldl_snd (fun _ _ _ => ?_) ?_
    | with_reducible refine snd_of_eq (by assumption) ?_
    | with_reducible refine fst_of_eq (by assumption) ?_
    | with_reducible refine snd2_of_eq (by assumption) ?_
    | with_reducible intro _ _
    | with_reducible intro _ _ _
    | split
    | dsimp only

theorem keeps_thmWrite {P : State → Prop} (H : Closed P) (r : Sys2Proof.Req) (a : ℕ) (v : Sys2Proof.Word) (s : Sys2Proof.Machine.State) (keep_s : P s) : P (thmWrite r a v s) := by
  unfold thmWrite
  try dsimp only
  repeat' first
    | with_reducible assumption
    | with_reducible apply keeps_thmLimitWrite H
    | with_reducible apply keeps_thmCtrlWrite H
    | with_reducible apply keeps_State_storeReg H
    | with_reducible refine ite_keeps (fun _ => ?_) (fun _ => ?_)
    | with_reducible refine foldl_keeps (fun _ _ _ => ?_) ?_
    | with_reducible refine dite_keeps (fun _ => ?_) (fun _ => ?_)
    | with_reducible refine ite_fst (fun _ => ?_) (fun _ => ?_)
    | with_reducible refine ite_snd (fun _ => ?_) (fun _ => ?_)
    | with_reducible refine ite_snd2 (fun _ => ?_) (fun _ => ?_)
    | with_reducible refine ite_snd3 (fun _ => ?_) (fun _ => ?_)
    | with_reducible refine foldl_fst (fun _ _ _ => ?_) ?_
    | with_reducible refine foldl_snd (fun _ _ _ => ?_) ?_
    | with_reducible refine snd_of_eq (by assumption) ?_
    | with_reducible refine fst_of_eq (by assumption) ?_
    | with_reducible refine snd2_of_eq (by assumption) ?_
    | with_reducible intro _ _
    | with_reducible intro _ _ _
    | split
    | dsimp only

theorem keeps_bdaWrite {P : State → Prop} (H : Closed P) (r : Sys2Proof.Req) (a : ℕ) (v : Sys2Proof.Word) (s : Sys2Proof.Machine.State) (keep_s : P s) : P (bdaWrite r a v s) := by
  unfold bdaWrite
  try dsimp only
  repeat' first
    | with_reducible assumption
    | with_reducible apply keeps_biasCodeWrite H
    | with_reducible apply keeps_biasCfgWrite H
    | with_reducible apply keeps_biasSineWrite H
    | with_reducible apply keeps_biasClrWrite H
    | with_reducible apply keeps_biasSampWrite H
    | with_reducible apply keeps_biasStatWrite H
    | with_reducible apply keeps_State_storeReg H
    | with_reducible refine ite_keeps (fun _ => ?_) (fun _ => ?_)
    | with_reducible refine foldl_keeps (fun _ _ _ => ?_) ?_
    | with_reducible refine dite_keeps (fun _ => ?_) (fun _ => ?_)
    | with_reducible refine ite_fst (fun _ => ?_) (fun _ => ?_)
    | with_reducible refine ite_snd (fun _ => ?_) (fun _ => ?_)
    | with_reducible refine ite_snd2 (fun _ => ?_) (fun _ => ?_)
    | with_reducible refine ite_snd3 (fun _ => ?_) (fun _ => ?_)
    | with_reducible refine foldl_fst (fun _ _ _ => ?_) ?_
    | with_reducible refine foldl_snd (fun _ _ _ => ?_) ?_
    | with_reducible refine snd_of_eq (by assumption) ?_
    | with_reducible refine fst_of_eq (by assumption) ?_
    | with_reducible refine snd2_of_eq (by assumption) ?_
    | with_reducible intro _ _
    | with_reducible intro _ _ _
    | split
    | dsimp only

theorem keeps_timWrite {P : State → Prop} (H : Closed P) (r : Sys2Proof.Req) (a : ℕ) (v : Sys2Proof.Word) (s : Sys2Proof.Machine.State) (keep_s : P s) : P (timWrite r a v s) := by
  unfold timWrite
  try dsimp only
  repeat' first
    | with_reducible assumption
    | with_reducible apply keeps_timUtcWrite H
    | with_reducible apply keeps_timFrameWrite H
    | with_reducible apply keeps_timCfgWrite H
    | with_reducible apply keeps_measWrite H
    | with_reducible apply keeps_stepCtlWrite H
    | with_reducible apply keeps_vcxoWrite H
    | with_reducible apply keeps_steerWrite H
    | with_reducible apply keeps_State_storeReg H
    | with_reducible refine ite_keeps (fun _ => ?_) (fun _ => ?_)
    | with_reducible refine foldl_keeps (fun _ _ _ => ?_) ?_
    | with_reducible refine dite_keeps (fun _ => ?_) (fun _ => ?_)
    | with_reducible refine ite_fst (fun _ => ?_) (fun _ => ?_)
    | with_reducible refine ite_snd (fun _ => ?_) (fun _ => ?_)
    | with_reducible refine ite_snd2 (fun _ => ?_) (fun _ => ?_)
    | with_reducible refine ite_snd3 (fun _ => ?_) (fun _ => ?_)
    | with_reducible refine foldl_fst (fun _ _ _ => ?_) ?_
    | with_reducible refine foldl_snd (fun _ _ _ => ?_) ?_
    | with_reducible refine snd_of_eq (by assumption) ?_
    | with_reducible refine fst_of_eq (by assumption) ?_
    | with_reducible refine snd2_of_eq (by assumption) ?_
    | with_reducible intro _ _
    | with_reducible intro _ _ _
    | split
    | dsimp only

theorem keeps_tlyWrite {P : State → Prop} (H : Closed P) (r : Sys2Proof.Req) (a : ℕ) (v : Sys2Proof.Word) (s : Sys2Proof.Machine.State) (keep_s : P s) : P (tlyWrite r a v s) := by
  unfold tlyWrite
  try dsimp only
  repeat' first
    | with_reducible assumption
    | with_reducible apply keeps_tlyCfgWrite H
    | with_reducible apply keeps_tlyCmdWrite H
    | with_reducible apply keeps_State_storeReg H
    | with_reducible refine ite_keeps (fun _ => ?_) (fun _ => ?_)
    | with_reducible refine foldl_keeps (fun _ _ _ => ?_) ?_
    | with_reducible refine dite_keeps (fun _ => ?_) (fun _ => ?_)
    | with_reducible refine ite_fst (fun _ => ?_) (fun _ => ?_)
    | with_reducible refine ite_snd (fun _ => ?_) (fun _ => ?_)
    | with_reducible refine ite_snd2 (fun _ => ?_) (fun _ => ?_)
    | with_reducible refine ite_snd3 (fun _ => ?_) (fun _ => ?_)
    | with_reducible refine foldl_fst (fun _ _ _ => ?_) ?_
    | with_reducible refine foldl_snd (fun _ _ _ => ?_) ?_
    | with_reducible refine snd_of_eq (by assumption) ?_
    | with_reducible refine fst_of_eq (by assumption) ?_
    | with_reducible refine snd2_of_eq (by assumption) ?_
    | with_reducible intro _ _
    | with_reducible intro _ _ _
    | split
    | dsimp only

theorem keeps_lnkWrite {P : State → Prop} (H : Closed P) (r : Sys2Proof.Req) (a : ℕ) (v : Sys2Proof.Word) (s : Sys2Proof.Machine.State) (keep_s : P s) : P (lnkWrite r a v s) := by
  unfold lnkWrite
  try dsimp only
  repeat' first
    | with_reducible assumption
    | with_reducible apply keeps_carrierRegWrite H
    | with_reducible apply keeps_carrierCommit H
    | with_reducible apply keeps_wcfgWrite H
    | with_reducible apply keeps_hmaskWrite H
    | with_reducible apply keeps_dlCfgWrite H
    | with_reducible apply keeps_praWrite H
    | with_reducible apply keeps_lnkCtrlWrite H
    | with_reducible apply keeps_stoWrite H
    | with_reducible apply keeps_flowCfgWrite H
    | with_reducible apply keeps_partWrite H
    | with_reducible apply keeps_State_storeReg H
    | with_reducible refine ite_keeps (fun _ => ?_) (fun _ => ?_)
    | with_reducible refine foldl_keeps (fun _ _ _ => ?_) ?_
    | with_reducible refine dite_keeps (fun _ => ?_) (fun _ => ?_)
    | with_reducible refine ite_fst (fun _ => ?_) (fun _ => ?_)
    | with_reducible refine ite_snd (fun _ => ?_) (fun _ => ?_)
    | with_reducible refine ite_snd2 (fun _ => ?_) (fun _ => ?_)
    | with_reducible refine ite_snd3 (fun _ => ?_) (fun _ => ?_)
    | with_reducible refine foldl_fst (fun _ _ _ => ?_) ?_
    | with_reducible refine foldl_snd (fun _ _ _ => ?_) ?_
    | with_reducible refine snd_of_eq (by assumption) ?_
    | with_reducible refine fst_of_eq (by assumption) ?_
    | with_reducible refine snd2_of_eq (by assumption) ?_
    | with_reducible intro _ _
    | with_reducible intro _ _ _
    | split
    | dsimp only

theorem keeps_wchWrite {P : State → Prop} (H : Closed P) (r : Sys2Proof.Req) (a : ℕ) (v : Sys2Proof.Word) (s : Sys2Proof.Machine.State) (keep_s : P s) : P (wchWrite r a v s) := by
  unfold wchWrite
  try dsimp only
  repeat' first
    | with_reducible assumption
    | with_reducible apply keeps_wchCtrlWrite H
    | with_reducible apply keeps_digFreqWrite H
    | with_reducible apply keeps_sweepWrite H
    | with_reducible apply keeps_fmFreqWrite H
    | with_reducible apply keeps_fmCfgWrite H
    | with_reducible apply keeps_State_storeReg H
    | with_reducible refine ite_keeps (fun _ => ?_) (fun _ => ?_)
    | with_reducible refine foldl_keeps (fun _ _ _ => ?_) ?_
    | with_reducible refine dite_keeps (fun _ => ?_) (fun _ => ?_)
    | with_reducible refine ite_fst (fun _ => ?_) (fun _ => ?_)
    | with_reducible refine ite_snd (fun _ => ?_) (fun _ => ?_)
    | with_reducible refine ite_snd2 (fun _ => ?_) (fun _ => ?_)
    | with_reducible refine ite_snd3 (fun _ => ?_) (fun _ => ?_)
    | with_reducible refine foldl_fst (fun _ _ _ => ?_) ?_
    | with_reducible refine foldl_snd (fun _ _ _ => ?_) ?_
    | with_reducible refine snd_of_eq (by assumption) ?_
    | with_reducible refine fst_of_eq (by assumption) ?_
    | with_reducible refine snd2_of_eq (by assumption) ?_
    | with_reducible intro _ _
    | with_reducible intro _ _ _
    | split
    | dsimp only

theorem keeps_stlWrite {P : State → Prop} (H : Closed P) (r : Sys2Proof.Req) (a : ℕ) (v : Sys2Proof.Word) (s : Sys2Proof.Machine.State) (keep_s : P s) : P (stlWrite r a v s) := by
  unfold stlWrite
  try dsimp only
  repeat' first
    | with_reducible assumption
    | with_reducible apply keeps_stlCmdWrite H
    | with_reducible apply keeps_stlFreqWrite H
    | with_reducible apply keeps_stlCfgWrite H
    | with_reducible apply keeps_State_storeReg H
    | with_reducible refine ite_keeps (fun _ => ?_) (fun _ => ?_)
    | with_reducible refine foldl_keeps (fun _ _ _ => ?_) ?_
    | with_reducible refine dite_keeps (fun _ => ?_) (fun _ => ?_)
    | with_reducible refine ite_fst (fun _ => ?_) (fun _ => ?_)
    | with_reducible refine ite_snd (fun _ => ?_) (fun _ => ?_)
    | with_reducible refine ite_snd2 (fun _ => ?_) (fun _ => ?_)
    | with_reducible refine ite_snd3 (fun _ => ?_) (fun _ => ?_)
    | with_reducible refine foldl_fst (fun _ _ _ => ?_) ?_
    | with_reducible refine foldl_snd (fun _ _ _ => ?_) ?_
    | with_reducible refine snd_of_eq (by assumption) ?_
    | with_reducible refine fst_of_eq (by assumption) ?_
    | with_reducible refine snd2_of_eq (by assumption) ?_
    | with_reducible intro _ _
    | with_reducible intro _ _ _
    | split
    | dsimp only

theorem keeps_hthWrite {P : State → Prop} (H : Closed P) (r : Sys2Proof.Req) (a : ℕ) (v : Sys2Proof.Word) (s : Sys2Proof.Machine.State) (keep_s : P s) : P (hthWrite r a v s) := by
  unfold hthWrite
  try dsimp only
  repeat' first
    | with_reducible assumption
    | with_reducible apply keeps_calCtrlWrite H
    | with_reducible apply keeps_wakerecWrite H
    | with_reducible apply keeps_retentionWrite H
    | with_reducible apply keeps_State_storeReg H
    | with_reducible refine ite_keeps (fun _ => ?_) (fun _ => ?_)
    | with_reducible refine foldl_keeps (fun _ _ _ => ?_) ?_
    | with_reducible refine dite_keeps (fun _ => ?_) (fun _ => ?_)
    | with_reducible refine ite_fst (fun _ => ?_) (fun _ => ?_)
    | with_reducible refine ite_snd (fun _ => ?_) (fun _ => ?_)
    | with_reducible refine ite_snd2 (fun _ => ?_) (fun _ => ?_)
    | with_reducible refine ite_snd3 (fun _ => ?_) (fun _ => ?_)
    | with_reducible refine foldl_fst (fun _ _ _ => ?_) ?_
    | with_reducible refine foldl_snd (fun _ _ _ => ?_) ?_
    | with_reducible refine snd_of_eq (by assumption) ?_
    | with_reducible refine fst_of_eq (by assumption) ?_
    | with_reducible refine snd2_of_eq (by assumption) ?_
    | with_reducible intro _ _
    | with_reducible intro _ _ _
    | split
    | dsimp only

theorem keeps_globalWrite {P : State → Prop} (H : Closed P) (r : Sys2Proof.Req) (a : ℕ) (v : Sys2Proof.Word) (s : Sys2Proof.Machine.State) (keep_s : P s) : P (globalWrite r a v s) := by
  unfold globalWrite
  try dsimp only
  repeat' first
    | with_reducible assumption
    | with_reducible apply keeps_sysWrite H
    | with_reducible apply keeps_pwrWrite H
    | with_reducible apply keeps_clkWrite H
    | with_reducible apply keeps_thmWrite H
    | with_reducible apply keeps_seqctlWrite H
    | with_reducible apply keeps_State_storeReg H
    | with_reducible apply keeps_bdaWrite H
    | with_reducible apply keeps_calReqWrite H
    | with_reducible apply keeps_fltCtrlWrite H
    | with_reducible apply keeps_timWrite H
    | with_reducible apply keeps_tlyWrite H
    | with_reducible apply keeps_lnkWrite H
    | with_reducible apply keeps_wchWrite H
    | with_reducible apply keeps_stlWrite H
    | with_reducible apply keeps_belCfgWrite H
    | with_reducible apply keeps_agtCmdWrite H
    | with_reducible apply keeps_agtWrite H
    | with_reducible apply keeps_hthWrite H
    | with_reducible apply keeps_bistCmdWrite H
    | with_reducible refine ite_keeps (fun _ => ?_) (fun _ => ?_)
    | with_reducible refine foldl_keeps (fun _ _ _ => ?_) ?_
    | with_reducible refine dite_keeps (fun _ => ?_) (fun _ => ?_)
    | with_reducible refine ite_fst (fun _ => ?_) (fun _ => ?_)
    | with_reducible refine ite_snd (fun _ => ?_) (fun _ => ?_)
    | with_reducible refine ite_snd2 (fun _ => ?_) (fun _ => ?_)
    | with_reducible refine ite_snd3 (fun _ => ?_) (fun _ => ?_)
    | with_reducible refine foldl_fst (fun _ _ _ => ?_) ?_
    | with_reducible refine foldl_snd (fun _ _ _ => ?_) ?_
    | with_reducible refine snd_of_eq (by assumption) ?_
    | with_reducible refine fst_of_eq (by assumption) ?_
    | with_reducible refine snd2_of_eq (by assumption) ?_
    | with_reducible intro _ _
    | with_reducible intro _ _ _
    | split
    | dsimp only

theorem keeps_txcWrite {P : State → Prop} (H : Closed P) (r : Sys2Proof.Req) (h : Fin 8) (a : ℕ) (la : ℕ) (v : Sys2Proof.Word) (s : Sys2Proof.Machine.State) (keep_s : P s) : P (txcWrite r h a la v s) := by
  unfold txcWrite
  try dsimp only
  repeat' first
    | with_reducible assumption
    | with_reducible apply keeps_carrierRegWrite H
    | with_reducible apply keeps_fswapWrite H
    | with_reducible apply keeps_cfrSwapWrite H
    | with_reducible apply keeps_filterCoefWrite H
    | with_reducible apply keeps_pulseWrite H
    | with_reducible apply keeps_State_take H
    | with_reducible apply keeps_State_storeReg H
    | with_reducible apply keeps_State_keepWas H
    | with_reducible apply keeps_halfSetWrite H
    | with_reducible apply keeps_pathWrite H
    | with_reducible refine ite_keeps (fun _ => ?_) (fun _ => ?_)
    | with_reducible refine foldl_keeps (fun _ _ _ => ?_) ?_
    | with_reducible refine dite_keeps (fun _ => ?_) (fun _ => ?_)
    | with_reducible refine ite_fst (fun _ => ?_) (fun _ => ?_)
    | with_reducible refine ite_snd (fun _ => ?_) (fun _ => ?_)
    | with_reducible refine ite_snd2 (fun _ => ?_) (fun _ => ?_)
    | with_reducible refine ite_snd3 (fun _ => ?_) (fun _ => ?_)
    | with_reducible refine foldl_fst (fun _ _ _ => ?_) ?_
    | with_reducible refine foldl_snd (fun _ _ _ => ?_) ?_
    | with_reducible refine snd_of_eq (by assumption) ?_
    | with_reducible refine fst_of_eq (by assumption) ?_
    | with_reducible refine snd2_of_eq (by assumption) ?_
    | with_reducible intro _ _
    | with_reducible intro _ _ _
    | split
    | dsimp only

theorem keeps_rxcWrite {P : State → Prop} (H : Closed P) (r : Sys2Proof.Req) (h : Fin 8) (a : ℕ) (la : ℕ) (v : Sys2Proof.Word) (s : Sys2Proof.Machine.State) (keep_s : P s) : P (rxcWrite r h a la v s) := by
  unfold rxcWrite
  try dsimp only
  repeat' first
    | with_reducible assumption
    | with_reducible apply keeps_carrierRegWrite H
    | with_reducible apply keeps_fswapWrite H
    | with_reducible apply keeps_filterCoefWrite H
    | with_reducible apply keeps_halfSetWrite H
    | with_reducible apply keeps_State_storeReg H
    | with_reducible refine ite_keeps (fun _ => ?_) (fun _ => ?_)
    | with_reducible refine foldl_keeps (fun _ _ _ => ?_) ?_
    | with_reducible refine dite_keeps (fun _ => ?_) (fun _ => ?_)
    | with_reducible refine ite_fst (fun _ => ?_) (fun _ => ?_)
    | with_reducible refine ite_snd (fun _ => ?_) (fun _ => ?_)
    | with_reducible refine ite_snd2 (fun _ => ?_) (fun _ => ?_)
    | with_reducible refine ite_snd3 (fun _ => ?_) (fun _ => ?_)
    | with_reducible refine foldl_fst (fun _ _ _ => ?_) ?_
    | with_reducible refine foldl_snd (fun _ _ _ => ?_) ?_
    | with_reducible refine snd_of_eq (by assumption) ?_
    | with_reducible refine fst_of_eq (by assumption) ?_
    | with_reducible refine snd2_of_eq (by assumption) ?_
    | with_reducible intro _ _
    | with_reducible intro _ _ _
    | split
    | dsimp only

theorem keeps_orxWrite {P : State → Prop} (H : Closed P) (r : Sys2Proof.Req) (h : Fin 8) (a : ℕ) (la : ℕ) (v : Sys2Proof.Word) (s : Sys2Proof.Machine.State) (keep_s : P s) : P (orxWrite r h a la v s) := by
  unfold orxWrite
  try dsimp only
  repeat' first
    | with_reducible assumption
    | with_reducible apply keeps_orxNcoWrite H
    | with_reducible apply keeps_orxSwWrite H
    | with_reducible apply keeps_orxClaimWrite H
    | with_reducible apply keeps_orxTrigWrite H
    | with_reducible apply keeps_orxRingWrite H
    | with_reducible apply keeps_orxNextWrite H
    | with_reducible apply keeps_orxDfWrite H
    | with_reducible apply keeps_State_storeReg H
    | with_reducible refine ite_keeps (fun _ => ?_) (fun _ => ?_)
    | with_reducible refine foldl_keeps (fun _ _ _ => ?_) ?_
    | with_reducible refine dite_keeps (fun _ => ?_) (fun _ => ?_)
    | with_reducible refine ite_fst (fun _ => ?_) (fun _ => ?_)
    | with_reducible refine ite_snd (fun _ => ?_) (fun _ => ?_)
    | with_reducible refine ite_snd2 (fun _ => ?_) (fun _ => ?_)
    | with_reducible refine ite_snd3 (fun _ => ?_) (fun _ => ?_)
    | with_reducible refine foldl_fst (fun _ _ _ => ?_) ?_
    | with_reducible refine foldl_snd (fun _ _ _ => ?_) ?_
    | with_reducible refine snd_of_eq (by assumption) ?_
    | with_reducible refine fst_of_eq (by assumption) ?_
    | with_reducible refine snd2_of_eq (by assumption) ?_
    | with_reducible intro _ _
    | with_reducible intro _ _ _
    | split
    | dsimp only

theorem keeps_dpdWrite {P : State → Prop} (H : Closed P) (r : Sys2Proof.Req) (h : Fin 8) (a : ℕ) (la : ℕ) (v : Sys2Proof.Word) (s : Sys2Proof.Machine.State) (keep_s : P s) : P (dpdWrite r h a la v s) := by
  unfold dpdWrite
  try dsimp only
  repeat' first
    | with_reducible assumption
    | with_reducible apply keeps_dpdCfgWrite H
    | with_reducible apply keeps_dpdCoefWrite H
    | with_reducible apply keeps_dpdSwapWrite H
    | with_reducible apply keeps_State_storeReg H
    | with_reducible refine ite_keeps (fun _ => ?_) (fun _ => ?_)
    | with_reducible refine foldl_keeps (fun _ _ _ => ?_) ?_
    | with_reducible refine dite_keeps (fun _ => ?_) (fun _ => ?_)
    | with_reducible refine ite_fst (fun _ => ?_) (fun _ => ?_)
    | with_reducible refine ite_snd (fun _ => ?_) (fun _ => ?_)
    | with_reducible refine ite_snd2 (fun _ => ?_) (fun _ => ?_)
    | with_reducible refine ite_snd3 (fun _ => ?_) (fun _ => ?_)
    | with_reducible refine foldl_fst (fun _ _ _ => ?_) ?_
    | with_reducible refine foldl_snd (fun _ _ _ => ?_) ?_
    | with_reducible refine snd_of_eq (by assumption) ?_
    | with_reducible refine fst_of_eq (by assumption) ?_
    | with_reducible refine snd2_of_eq (by assumption) ?_
    | with_reducible intro _ _
    | with_reducible intro _ _ _
    | split
    | dsimp only

theorem keeps_sltWrite {P : State → Prop} (H : Closed P) (r : Sys2Proof.Req) (h : Fin 8) (a : ℕ) (la : ℕ) (v : Sys2Proof.Word) (s : Sys2Proof.Machine.State) (keep_s : P s) : P (sltWrite r h a la v s) := by
  unfold sltWrite
  try dsimp only
  repeat' first
    | with_reducible assumption
    | with_reducible apply keeps_sltCtrlWrite H
    | with_reducible apply keeps_sltEditWrite H
    | with_reducible apply keeps_gainCfgWrite H
    | with_reducible apply keeps_fepClaimWrite H
    | with_reducible apply keeps_fepSafeWrite H
    | with_reducible apply keeps_fepGpioWrite H
    | with_reducible apply keeps_State_storeReg H
    | with_reducible refine ite_keeps (fun _ => ?_) (fun _ => ?_)
    | with_reducible refine foldl_keeps (fun _ _ _ => ?_) ?_
    | with_reducible refine dite_keeps (fun _ => ?_) (fun _ => ?_)
    | with_reducible refine ite_fst (fun _ => ?_) (fun _ => ?_)
    | with_reducible refine ite_snd (fun _ => ?_) (fun _ => ?_)
    | with_reducible refine ite_snd2 (fun _ => ?_) (fun _ => ?_)
    | with_reducible refine ite_snd3 (fun _ => ?_) (fun _ => ?_)
    | with_reducible refine foldl_fst (fun _ _ _ => ?_) ?_
    | with_reducible refine foldl_snd (fun _ _ _ => ?_) ?_
    | with_reducible refine snd_of_eq (by assumption) ?_
    | with_reducible refine fst_of_eq (by assumption) ?_
    | with_reducible refine snd2_of_eq (by assumption) ?_
    | with_reducible intro _ _
    | with_reducible intro _ _ _
    | split
    | dsimp only

theorem keeps_lckWrite {P : State → Prop} (H : Closed P) (r : Sys2Proof.Req) (h : Fin 8) (a : ℕ) (la : ℕ) (v : Sys2Proof.Word) (s : Sys2Proof.Machine.State) (keep_s : P s) : P (lckWrite r h a la v s) := by
  unfold lckWrite
  try dsimp only
  repeat' first
    | with_reducible assumption
    | with_reducible apply keeps_lockWrite H
    | with_reducible apply keeps_lockFreeWrite H
    | with_reducible apply keeps_State_storeReg H
    | with_reducible refine ite_keeps (fun _ => ?_) (fun _ => ?_)
    | with_reducible refine foldl_keeps (fun _ _ _ => ?_) ?_
    | with_reducible refine dite_keeps (fun _ => ?_) (fun _ => ?_)
    | with_reducible refine ite_fst (fun _ => ?_) (fun _ => ?_)
    | with_reducible refine ite_snd (fun _ => ?_) (fun _ => ?_)
    | with_reducible refine ite_snd2 (fun _ => ?_) (fun _ => ?_)
    | with_reducible refine ite_snd3 (fun _ => ?_) (fun _ => ?_)
    | with_reducible refine foldl_fst (fun _ _ _ => ?_) ?_
    | with_reducible refine foldl_snd (fun _ _ _ => ?_) ?_
    | with_reducible refine snd_of_eq (by assumption) ?_
    | with_reducible refine fst_of_eq (by assumption) ?_
    | with_reducible refine snd2_of_eq (by assumption) ?_
    | with_reducible intro _ _
    | with_reducible intro _ _ _
    | split
    | dsimp only

theorem keeps_evtWrite {P : State → Prop} (H : Closed P) (r : Sys2Proof.Req) (h : Fin 8) (a : ℕ) (la : ℕ) (v : Sys2Proof.Word) (s : Sys2Proof.Machine.State) (keep_s : P s) : P (evtWrite r h a la v s) := by
  unfold evtWrite
  try dsimp only
  repeat' first
    | with_reducible assumption
    | with_reducible apply keeps_timerWrite H
    | with_reducible apply keeps_State_storeReg H
    | with_reducible refine ite_keeps (fun _ => ?_) (fun _ => ?_)
    | with_reducible refine foldl_keeps (fun _ _ _ => ?_) ?_
    | with_reducible refine dite_keeps (fun _ => ?_) (fun _ => ?_)
    | with_reducible refine ite_fst (fun _ => ?_) (fun _ => ?_)
    | with_reducible refine ite_snd (fun _ => ?_) (fun _ => ?_)
    | with_reducible refine ite_snd2 (fun _ => ?_) (fun _ => ?_)
    | with_reducible refine ite_snd3 (fun _ => ?_) (fun _ => ?_)
    | with_reducible refine foldl_fst (fun _ _ _ => ?_) ?_
    | with_reducible refine foldl_snd (fun _ _ _ => ?_) ?_
    | with_reducible refine snd_of_eq (by assumption) ?_
    | with_reducible refine fst_of_eq (by assumption) ?_
    | with_reducible refine snd2_of_eq (by assumption) ?_
    | with_reducible intro _ _
    | with_reducible intro _ _ _
    | split
    | dsimp only

theorem keeps_upToDate {P : State → Prop} (H : Closed P) (h : Fin 8) (la : ℕ) (s : Sys2Proof.Machine.State) (keep_s : P s) : P (upToDate h la s) := by
  unfold upToDate
  try dsimp only
  repeat' first
    | with_reducible assumption
    | with_reducible apply keeps_State_countTx H
    | with_reducible apply keeps_State_countRx H
    | with_reducible apply keeps_State_txRun H
    | with_reducible refine ite_keeps (fun _ => ?_) (fun _ => ?_)
    | with_reducible refine foldl_keeps (fun _ _ _ => ?_) ?_
    | with_reducible refine dite_keeps (fun _ => ?_) (fun _ => ?_)
    | with_reducible refine ite_fst (fun _ => ?_) (fun _ => ?_)
    | with_reducible refine ite_snd (fun _ => ?_) (fun _ => ?_)
    | with_reducible refine ite_snd2 (fun _ => ?_) (fun _ => ?_)
    | with_reducible refine ite_snd3 (fun _ => ?_) (fun _ => ?_)
    | with_reducible refine foldl_fst (fun _ _ _ => ?_) ?_
    | with_reducible refine foldl_snd (fun _ _ _ => ?_) ?_
    | with_reducible refine snd_of_eq (by assumption) ?_
    | with_reducible refine fst_of_eq (by assumption) ?_
    | with_reducible refine snd2_of_eq (by assumption) ?_
    | with_reducible intro _ _
    | with_reducible intro _ _ _
    | split
    | dsimp only

theorem keeps_hamletWrite {P : State → Prop} (H : Closed P) (r : Sys2Proof.Req) (h : Fin 8) (a : ℕ) (la : ℕ) (v : Sys2Proof.Word) (s : Sys2Proof.Machine.State) (keep_s : P s) : P (hamletWrite r h a la v s) := by
  unfold hamletWrite
  try dsimp only
  repeat' first
    | with_reducible assumption
    | with_reducible apply keeps_upToDate H
    | with_reducible apply keeps_engCtrlWrite H
    | with_reducible apply keeps_engEntryWrite H
    | with_reducible apply keeps_engSwiWrite H
    | with_reducible apply keeps_State_storeReg H
    | with_reducible apply keeps_dmaWrite H
    | with_reducible apply keeps_arbCfgWrite H
    | with_reducible apply keeps_freezeWrite H
    | with_reducible apply keeps_lckWrite H
    | with_reducible apply keeps_bfmBasesWrite H
    | with_reducible apply keeps_bfmCommitGo H
    | with_reducible apply keeps_sltWrite H
    | with_reducible apply keeps_txcWrite H
    | with_reducible apply keeps_rxcWrite H
    | with_reducible apply keeps_orxWrite H
    | with_reducible apply keeps_dpdWrite H
    | with_reducible apply keeps_evtWrite H
    | with_reducible apply keeps_pllCtrlWrite H
    | with_reducible apply keeps_pllForceWrite H
    | with_reducible apply keeps_stoWrite H
    | with_reducible refine ite_keeps (fun _ => ?_) (fun _ => ?_)
    | with_reducible refine foldl_keeps (fun _ _ _ => ?_) ?_
    | with_reducible refine dite_keeps (fun _ => ?_) (fun _ => ?_)
    | with_reducible refine ite_fst (fun _ => ?_) (fun _ => ?_)
    | with_reducible refine ite_snd (fun _ => ?_) (fun _ => ?_)
    | with_reducible refine ite_snd2 (fun _ => ?_) (fun _ => ?_)
    | with_reducible refine ite_snd3 (fun _ => ?_) (fun _ => ?_)
    | with_reducible refine foldl_fst (fun _ _ _ => ?_) ?_
    | with_reducible refine foldl_snd (fun _ _ _ => ?_) ?_
    | with_reducible refine snd_of_eq (by assumption) ?_
    | with_reducible refine fst_of_eq (by assumption) ?_
    | with_reducible refine snd2_of_eq (by assumption) ?_
    | with_reducible intro _ _
    | with_reducible intro _ _ _
    | split
    | dsimp only
    | with_reducible apply H.mk'

theorem keeps_regWrite {P : State → Prop} (H : Closed P) (r : Sys2Proof.Req) (a : ℕ) (v : Sys2Proof.Word) (s : Sys2Proof.Machine.State) (keep_s : P s) : P (regWrite r a v s) := by
  unfold regWrite
  try dsimp only
  repeat' first
    | with_reducible assumption
    | with_reducible apply keeps_lockRegWrite H
    | with_reducible apply keeps_State_refuse4 H
    | with_reducible apply keeps_hamletWrite H
    | with_reducible apply keeps_globalWrite H
    | with_reducible refine ite_keeps (fun _ => ?_) (fun _ => ?_)
    | with_reducible refine foldl_keeps (fun _ _ _ => ?_) ?_
    | with_reducible refine dite_keeps (fun _ => ?_) (fun _ => ?_)
    | with_reducible refine ite_fst (fun _ => ?_) (fun _ => ?_)
    | with_reducible refine ite_snd (fun _ => ?_) (fun _ => ?_)
    | with_reducible refine ite_snd2 (fun _ => ?_) (fun _ => ?_)
    | with_reducible refine ite_snd3 (fun _ => ?_) (fun _ => ?_)
    | with_reducible refine foldl_fst (fun _ _ _ => ?_) ?_
    | with_reducible refine foldl_snd (fun _ _ _ => ?_) ?_
    | with_reducible refine snd_of_eq (by assumption) ?_
    | with_reducible refine fst_of_eq (by assumption) ?_
    | with_reducible refine snd2_of_eq (by assumption) ?_
    | with_reducible intro _ _
    | with_reducible intro _ _ _
    | split
    | dsimp only

theorem keeps_plainRead_2 {P : State → Prop} (H : Closed P) (a : ℕ) (events : ℕ) (s : Sys2Proof.Machine.State) (keep_s : P s) : P (plainRead a events s).2 := by
  unfold plainRead
  try dsimp only
  repeat' first
    | with_reducible assumption
    | with_reducible apply keeps_State_clearRC H
    | with_reducible refine ite_keeps (fun _ => ?_) (fun _ => ?_)
    | with_reducible refine foldl_keeps (fun _ _ _ => ?_) ?_
    | with_reducible refine dite_keeps (fun _ => ?_) (fun _ => ?_)
    | with_reducible refine ite_fst (fun _ => ?_) (fun _ => ?_)
    | with_reducible refine ite_snd (fun _ => ?_) (fun _ => ?_)
    | with_reducible refine ite_snd2 (fun _ => ?_) (fun _ => ?_)
    | with_reducible refine ite_snd3 (fun _ => ?_) (fun _ => ?_)
    | with_reducible refine foldl_fst (fun _ _ _ => ?_) ?_
    | with_reducible refine foldl_snd (fun _ _ _ => ?_) ?_
    | with_reducible refine snd_of_eq (by assumption) ?_
    | with_reducible refine fst_of_eq (by assumption) ?_
    | with_reducible refine snd2_of_eq (by assumption) ?_
    | with_reducible intro _ _
    | with_reducible intro _ _ _
    | split
    | dsimp only

theorem keeps_globalRead_2 {P : State → Prop} (H : Closed P) (a : ℕ) (events : ℕ) (s : Sys2Proof.Machine.State) (keep_s : P s) : P (globalRead a events s).2 := by
  unfold globalRead
  try dsimp only
  repeat' first
    | with_reducible assumption
    | with_reducible apply keeps_sysEvqRead_2 H
    | with_reducible apply keeps_resRead_2 H
    | with_reducible apply keeps_rstRead_2 H
    | with_reducible apply keeps_nowRead_2 H
    | with_reducible apply keeps_capRead_2 H
    | with_reducible apply keeps_State_drawn_2 H
    | with_reducible apply keeps_State_clearRC H
    | with_reducible apply keeps_btUtcRead H
    | with_reducible apply keeps_calLoRead_2 H
    | with_reducible apply keeps_bistStatRead_2 H
    | with_reducible apply keeps_plainRead_2 H
    | with_reducible refine ite_keeps (fun _ => ?_) (fun _ => ?_)
    | with_reducible refine foldl_keeps (fun _ _ _ => ?_) ?_
    | with_reducible refine dite_keeps (fun _ => ?_) (fun _ => ?_)
    | with_reducible refine ite_fst (fun _ => ?_) (fun _ => ?_)
    | with_reducible refine ite_snd (fun _ => ?_) (fun _ => ?_)
    | with_reducible refine ite_snd2 (fun _ => ?_) (fun _ => ?_)
    | with_reducible refine ite_snd3 (fun _ => ?_) (fun _ => ?_)
    | with_reducible refine foldl_fst (fun _ _ _ => ?_) ?_
    | with_reducible refine foldl_snd (fun _ _ _ => ?_) ?_
    | with_reducible refine snd_of_eq (by assumption) ?_
    | with_reducible refine fst_of_eq (by assumption) ?_
    | with_reducible refine snd2_of_eq (by assumption) ?_
    | with_reducible intro _ _
    | with_reducible intro _ _ _
    | split
    | dsimp only

theorem keeps_hamletRead_2 {P : State → Prop} (H : Closed P) (r : Sys2Proof.Req) (h : Fin 8) (a : ℕ) (la : ℕ) (events : ℕ) (s : Sys2Proof.Machine.State) (keep_s : P s) : P (hamletRead r h a la events s).2 := by
  unfold hamletRead
  try dsimp only
  repeat' first
    | with_reducible assumption
    | with_reducible apply keeps_upToDate H
    | with_reducible apply keeps_evqRead_2 H
    | with_reducible apply keeps_lockRead_2 H
    | with_reducible apply keeps_plainRead_2 H
    | with_reducible refine ite_keeps (fun _ => ?_) (fun _ => ?_)
    | with_reducible refine foldl_keeps (fun _ _ _ => ?_) ?_
    | with_reducible refine dite_keeps (fun _ => ?_) (fun _ => ?_)
    | with_reducible refine ite_fst (fun _ => ?_) (fun _ => ?_)
    | with_reducible refine ite_snd (fun _ => ?_) (fun _ => ?_)
    | with_reducible refine ite_snd2 (fun _ => ?_) (fun _ => ?_)
    | with_reducible refine ite_snd3 (fun _ => ?_) (fun _ => ?_)
    | with_reducible refine foldl_fst (fun _ _ _ => ?_) ?_
    | with_reducible refine foldl_snd (fun _ _ _ => ?_) ?_
    | with_reducible refine snd_of_eq (by assumption) ?_
    | with_reducible refine fst_of_eq (by assumption) ?_
    | with_reducible refine snd2_of_eq (by assumption) ?_
    | with_reducible intro _ _
    | with_reducible intro _ _ _
    | split
    | dsimp only

theorem keeps_regRead_2 {P : State → Prop} (H : Closed P) (r : Sys2Proof.Req) (a : ℕ) (events : ℕ) (s : Sys2Proof.Machine.State) (keep_s : P s) : P (regRead r a events s).2 := by
  unfold regRead
  try dsimp only
  repeat' first
    | with_reducible assumption
    | with_reducible apply keeps_hamletRead_2 H
    | with_reducible apply keeps_globalRead_2 H
    | with_reducible refine ite_keeps (fun _ => ?_) (fun _ => ?_)
    | with_reducible refine foldl_keeps (fun _ _ _ => ?_) ?_
    | with_reducible refine dite_keeps (fun _ => ?_) (fun _ => ?_)
    | with_reducible refine ite_fst (fun _ => ?_) (fun _ => ?_)
    | with_reducible refine ite_snd (fun _ => ?_) (fun _ => ?_)
    | with_reducible refine ite_snd2 (fun _ => ?_) (fun _ => ?_)
    | with_reducible refine ite_snd3 (fun _ => ?_) (fun _ => ?_)
    | with_reducible refine foldl_fst (fun _ _ _ => ?_) ?_
    | with_reducible refine foldl_snd (fun _ _ _ => ?_) ?_
    | with_reducible refine snd_of_eq (by assumption) ?_
    | with_reducible refine fst_of_eq (by assumption) ?_
    | with_reducible refine snd2_of_eq (by assumption) ?_
    | with_reducible intro _ _
    | with_reducible intro _ _ _
    | split
    | dsimp only

theorem keeps_readOne_2 {P : State → Prop} (H : Closed P) (r : Sys2Proof.Req) (fetch : Bool) (a : ℕ) (size : ℕ) (s : Sys2Proof.Machine.State) (keep_s : P s) : P (readOne r fetch a size s).2 := by
  unfold readOne
  try dsimp only
  repeat' first
    | with_reducible assumption
    | with_reducible apply keeps_regRead_2 H
    | with_reducible apply keeps_State_access H
    | with_reducible apply keeps_State_checkRead_1 H
    | with_reducible apply keeps_State_badAccess H
    | with_reducible apply keeps_State_startWake H
    | with_reducible refine ite_keeps (fun _ => ?_) (fun _ => ?_)
    | with_reducible refine foldl_keeps (fun _ _ _ => ?_) ?_
    | with_reducible refine dite_keeps (fun _ => ?_) (fun _ => ?_)
    | with_reducible refine ite_fst (fun _ => ?_) (fun _ => ?_)
    | with_reducible refine ite_snd (fun _ => ?_) (fun _ => ?_)
    | with_reducible refine ite_snd2 (fun _ => ?_) (fun _ => ?_)
    | with_reducible refine ite_snd3 (fun _ => ?_) (fun _ => ?_)
    | with_reducible refine foldl_fst (fun _ _ _ => ?_) ?_
    | with_reducible refine foldl_snd (fun _ _ _ => ?_) ?_
    | with_reducible refine snd_of_eq (by assumption) ?_
    | with_reducible refine fst_of_eq (by assumption) ?_
    | with_reducible refine snd2_of_eq (by assumption) ?_
    | with_reducible intro _ _
    | with_reducible intro _ _ _
    | split
    | dsimp only

theorem keeps_storeWrite_2 {P : State → Prop} (H : Closed P) (r : Sys2Proof.Req) (a : ℕ) (size : ℕ) (v : ℕ) (s : Sys2Proof.Machine.State) (keep_s : P s) : P (storeWrite r a size v s).2 := by
  unfold storeWrite
  try dsimp only
  repeat' first
    | with_reducible assumption
    | with_reducible apply keeps_State_badAccess H
    | with_reducible apply keeps_State_access H
    | with_reducible apply keeps_State_checkWrite_1 H
    | with_reducible refine ite_keeps (fun _ => ?_) (fun _ => ?_)
    | with_reducible refine foldl_keeps (fun _ _ _ => ?_) ?_
    | with_reducible refine dite_keeps (fun _ => ?_) (fun _ => ?_)
    | with_reducible refine ite_fst (fun _ => ?_) (fun _ => ?_)
    | with_reducible refine ite_snd (fun _ => ?_) (fun _ => ?_)
    | with_reducible refine ite_snd2 (fun _ => ?_) (fun _ => ?_)
    | with_reducible refine ite_snd3 (fun _ => ?_) (fun _ => ?_)
    | with_reducible refine foldl_fst (fun _ _ _ => ?_) ?_
    | with_reducible refine foldl_snd (fun _ _ _ => ?_) ?_
    | with_reducible refine snd_of_eq (by assumption) ?_
    | with_reducible refine fst_of_eq (by assumption) ?_
    | with_reducible refine snd2_of_eq (by assumption) ?_
    | with_reducible intro _ _
    | with_reducible intro _ _ _
    | split
    | dsimp only

theorem keeps_busRead_2 {P : State → Prop} (H : Closed P) (r : Sys2Proof.Req) (fetch : Bool) (a : ℕ) (size : ℕ) (s : Sys2Proof.Machine.State) (keep_s : P s) : P (busRead r fetch a size s).2 := by
  unfold busRead
  try dsimp only
  repeat' first
    | with_reducible assumption
    | with_reducible apply keeps_readOne_2 H
    | with_reducible refine ite_keeps (fun _ => ?_) (fun _ => ?_)
    | with_reducible refine foldl_keeps (fun _ _ _ => ?_) ?_
    | with_reducible refine dite_keeps (fun _ => ?_) (fun _ => ?_)
    | with_reducible refine ite_fst (fun _ => ?_) (fun _ => ?_)
    | with_reducible refine ite_snd (fun _ => ?_) (fun _ => ?_)
    | with_reducible refine ite_snd2 (fun _ => ?_) (fun _ => ?_)
    | with_reducible refine ite_snd3 (fun _ => ?_) (fun _ => ?_)
    | with_reducible refine foldl_fst (fun _ _ _ => ?_) ?_
    | with_reducible refine foldl_snd (fun _ _ _ => ?_) ?_
    | with_reducible refine snd_of_eq (by assumption) ?_
    | with_reducible refine fst_of_eq (by assumption) ?_
    | with_reducible refine snd2_of_eq (by assumption) ?_
    | with_reducible intro _ _
    | with_reducible intro _ _ _
    | split
    | dsimp only

theorem keeps_writeOne_2 {P : State → Prop} (H : Closed P) (r : Sys2Proof.Req) (a : ℕ) (size : ℕ) (v : ℕ) (s : Sys2Proof.Machine.State) (keep_s : P s) : P (writeOne r a size v s).2 := by
  unfold writeOne
  try dsimp only
  repeat' first
    | with_reducible assumption
    | with_reducible apply keeps_regWrite H
    | with_reducible apply keeps_storeWrite_2 H
    | with_reducible apply keeps_State_badAccess H
    | with_reducible apply keeps_State_startWake H
    | with_reducible refine ite_keeps (fun _ => ?_) (fun _ => ?_)
    | with_reducible refine foldl_keeps (fun _ _ _ => ?_) ?_
    | with_reducible refine dite_keeps (fun _ => ?_) (fun _ => ?_)
    | with_reducible refine ite_fst (fun _ => ?_) (fun _ => ?_)
    | with_reducible refine ite_snd (fun _ => ?_) (fun _ => ?_)
    | with_reducible refine ite_snd2 (fun _ => ?_) (fun _ => ?_)
    | with_reducible refine ite_snd3 (fun _ => ?_) (fun _ => ?_)
    | with_reducible refine foldl_fst (fun _ _ _ => ?_) ?_
    | with_reducible refine foldl_snd (fun _ _ _ => ?_) ?_
    | with_reducible refine snd_of_eq (by assumption) ?_
    | with_reducible refine fst_of_eq (by assumption) ?_
    | with_reducible refine snd2_of_eq (by assumption) ?_
    | with_reducible intro _ _
    | with_reducible intro _ _ _
    | split
    | dsimp only

theorem keeps_busWrite_2 {P : State → Prop} (H : Closed P) (r : Sys2Proof.Req) (a : ℕ) (size : ℕ) (v : ℕ) (s : Sys2Proof.Machine.State) (keep_s : P s) : P (busWrite r a size v s).2 := by
  unfold busWrite
  try dsimp only
  repeat' first
    | with_reducible assumption
    | with_reducible apply keeps_writeOne_2 H
    | with_reducible refine ite_keeps (fun _ => ?_) (fun _ => ?_)
    | with_reducible refine foldl_keeps (fun _ _ _ => ?_) ?_
    | with_reducible refine dite_keeps (fun _ => ?_) (fun _ => ?_)
    | with_reducible refine ite_fst (fun _ => ?_) (fun _ => ?_)
    | with_reducible refine ite_snd (fun _ => ?_) (fun _ => ?_)
    | with_reducible refine ite_snd2 (fun _ => ?_) (fun _ => ?_)
    | with_reducible refine ite_snd3 (fun _ => ?_) (fun _ => ?_)
    | with_reducible refine foldl_fst (fun _ _ _ => ?_) ?_
    | with_reducible refine foldl_snd (fun _ _ _ => ?_) ?_
    | with_reducible refine snd_of_eq (by assumption) ?_
    | with_reducible refine fst_of_eq (by assumption) ?_
    | with_reducible refine snd2_of_eq (by assumption) ?_
    | with_reducible intro _ _
    | with_reducible intro _ _ _
    | split
    | dsimp only

theorem keeps_rmaReads_2 {P : State → Prop} (H : Closed P) (x0 : List (ℕ × ℕ)) (x1 : Sys2Proof.Machine.State) (keep_x1 : P x1) : P (rmaReads x0 x1).2 := by
  induction x0 generalizing x1 with
  | nil =>
    unfold rmaReads
    try dsimp only
    repeat' first
      | with_reducible assumption
      | with_reducible apply keeps_busRead_2 H
      | with_reducible refine ite_keeps (fun _ => ?_) (fun _ => ?_)
      | with_reducible refine foldl_keeps (fun _ _ _ => ?_) ?_
      | with_reducible refine dite_keeps (fun _ => ?_) (fun _ => ?_)
      | with_reducible refine ite_fst (fun _ => ?_) (fun _ => ?_)
      | with_reducible refine ite_snd (fun _ => ?_) (fun _ => ?_)
      | with_reducible refine ite_snd2 (fun _ => ?_) (fun _ => ?_)
      | with_reducible refine ite_snd3 (fun _ => ?_) (fun _ => ?_)
      | with_reducible refine foldl_fst (fun _ _ _ => ?_) ?_
      | with_reducible refine foldl_snd (fun _ _ _ => ?_) ?_
      | with_reducible refine snd_of_eq (by assumption) ?_
      | with_reducible refine fst_of_eq (by assumption) ?_
      | with_reducible refine snd2_of_eq (by assumption) ?_
      | with_reducible intro _ _
      | with_reducible intro _ _ _
      | split
      | dsimp only
  | cons b t ih =>
    unfold rmaReads
    try dsimp only
    repeat' first
      | with_reducible assumption
      | with_reducible apply ih
      | with_reducible apply keeps_busRead_2 H
      | with_reducible refine ite_keeps (fun _ => ?_) (fun _ => ?_)
      | with_reducible refine foldl_keeps (fun _ _ _ => ?_) ?_
      | with_reducible refine dite_keeps (fun _ => ?_) (fun _ => ?_)
      | with_reducible refine ite_fst (fun _ => ?_) (fun _ => ?_)
      | with_reducible refine ite_snd (fun _ => ?_) (fun _ => ?_)
      | with_reducible refine ite_snd2 (fun _ => ?_) (fun _ => ?_)
      | with_reducible refine ite_snd3 (fun _ => ?_) (fun _ => ?_)
      | with_reducible refine foldl_fst (fun _ _ _ => ?_) ?_
      | with_reducible refine foldl_snd (fun _ _ _ => ?_) ?_
      | with_reducible refine snd_of_eq (by assumption) ?_
      | with_reducible refine fst_of_eq (by assumption) ?_
      | with_reducible refine snd2_of_eq (by assumption) ?_
      | with_reducible intro _ _
      | with_reducible intro _ _ _
      | split
      | dsimp only

theorem keeps_rmaWrites_2 {P : State → Prop} (H : Closed P) (x0 : List (ℕ × ℕ)) (x1 : List ℕ) (x2 : Sys2Proof.Machine.State) (keep_x2 : P x2) : P (rmaWrites x0 x1 x2).2 := by
  induction x0 generalizing x1 x2 with
  | nil =>
    unfold rmaWrites
    try dsimp only
    repeat' first
      | with_reducible assumption
      | with_reducible apply keeps_busWrite_2 H
      | with_reducible refine ite_keeps (fun _ => ?_) (fun _ => ?_)
      | with_reducible refine foldl_keeps (fun _ _ _ => ?_) ?_
      | with_reducible refine dite_keeps (fun _ => ?_) (fun _ => ?_)
      | with_reducible refine ite_fst (fun _ => ?_) (fun _ => ?_)
      | with_reducible refine ite_snd (fun _ => ?_) (fun _ => ?_)
      | with_reducible refine ite_snd2 (fun _ => ?_) (fun _ => ?_)
      | with_reducible refine ite_snd3 (fun _ => ?_) (fun _ => ?_)
      | with_reducible refine foldl_fst (fun _ _ _ => ?_) ?_
      | with_reducible refine foldl_snd (fun _ _ _ => ?_) ?_
      | with_reducible refine snd_of_eq (by assumption) ?_
      | with_reducible refine fst_of_eq (by assumption) ?_
      | with_reducible refine snd2_of_eq (by assumption) ?_
      | with_reducible intro _ _
      | with_reducible intro _ _ _
      | split
      | dsimp only
  | cons b t ih =>
    unfold rmaWrites
    try dsimp only
    repeat' first
      | with_reducible assumption
      | with_reducible apply ih
      | with_reducible apply keeps_busWrite_2 H
      | with_reducible refine ite_keeps (fun _ => ?_) (fun _ => ?_)
      | with_reducible refine foldl_keeps (fun _ _ _ => ?_) ?_
      | with_reducible refine dite_keeps (fun _ => ?_) (fun _ => ?_)
      | with_reducible refine ite_fst (fun _ => ?_) (fun _ => ?_)
      | with_reducible refine ite_snd (fun _ => ?_) (fun _ => ?_)
      | with_reducible refine ite_snd2 (fun _ => ?_) (fun _ => ?_)
      | with_reducible refine ite_snd3 (fun _ => ?_) (fun _ => ?_)
      | with_reducible refine foldl_fst (fun _ _ _ => ?_) ?_
      | with_reducible refine foldl_snd (fun _ _ _ => ?_) ?_
      | with_reducible refine snd_of_eq (by assumption) ?_
      | with_reducible refine fst_of_eq (by assumption) ?_
      | with_reducible refine snd2_of_eq (by assumption) ?_
      | with_reducible intro _ _
      | with_reducible intro _ _ _
      | split
      | dsimp only

theorem keeps_rmaPerform {P : State → Prop} (H : Closed P) (q : Sys2Proof.Machine.RmaReq) (s : Sys2Proof.Machine.State) (keep_s : P s) : P (rmaPerform q s) := by
  unfold rmaPerform
  try dsimp only
  repeat' first
    | with_reducible assumption
    | with_reducible apply keeps_rmaReads_2 H
    | with_reducible apply keeps_rmaDone H
    | with_reducible apply keeps_rmaFail H
    | with_reducible apply keeps_rmaWrites_2 H
    | with_reducible refine ite_keeps (fun _ => ?_) (fun _ => ?_)
    | with_reducible refine foldl_keeps (fun _ _ _ => ?_) ?_
    | with_reducible refine dite_keeps (fun _ => ?_) (fun _ => ?_)
    | with_reducible refine ite_fst (fun _ => ?_) (fun _ => ?_)
    | with_reducible refine ite_snd (fun _ => ?_) (fun _ => ?_)
    | with_reducible refine ite_snd2 (fun _ => ?_) (fun _ => ?_)
    | with_reducible refine ite_snd3 (fun _ => ?_) (fun _ => ?_)
    | with_reducible refine foldl_fst (fun _ _ _ => ?_) ?_
    | with_reducible refine foldl_snd (fun _ _ _ => ?_) ?_
    | with_reducible refine snd_of_eq (by assumption) ?_
    | with_reducible refine fst_of_eq (by assumption) ?_
    | with_reducible refine snd2_of_eq (by assumption) ?_
    | with_reducible intro _ _
    | with_reducible intro _ _ _
    | split
    | dsimp only

theorem keeps_rmaRequest {P : State → Prop} (H : Closed P) (q : Sys2Proof.Machine.RmaReq) (low : ℕ) (s : Sys2Proof.Machine.State) (keep_s : P s) : P (rmaRequest q low s) := by
  unfold rmaRequest
  try dsimp only
  repeat' first
    | with_reducible assumption
    | with_reducible apply keeps_rmaFail H
    | with_reducible apply keeps_State_badAccess H
    | with_reducible apply keeps_State_startWake H
    | with_reducible apply keeps_rmaPerform H
    | with_reducible refine ite_keeps (fun _ => ?_) (fun _ => ?_)
    | with_reducible refine foldl_keeps (fun _ _ _ => ?_) ?_
    | with_reducible refine dite_keeps (fun _ => ?_) (fun _ => ?_)
    | with_reducible refine ite_fst (fun _ => ?_) (fun _ => ?_)
    | with_reducible refine ite_snd (fun _ => ?_) (fun _ => ?_)
    | with_reducible refine ite_snd2 (fun _ => ?_) (fun _ => ?_)
    | with_reducible refine ite_snd3 (fun _ => ?_) (fun _ => ?_)
    | with_reducible refine foldl_fst (fun _ _ _ => ?_) ?_
    | with_reducible refine foldl_snd (fun _ _ _ => ?_) ?_
    | with_reducible refine snd_of_eq (by assumption) ?_
    | with_reducible refine fst_of_eq (by assumption) ?_
    | with_reducible refine snd2_of_eq (by assumption) ?_
    | with_reducible intro _ _
    | with_reducible intro _ _ _
    | split
    | dsimp only
    | with_reducible apply H.mk'

theorem keeps_execRmaRequest {P : State → Prop} (H : Closed P) (m : Sys2Proof.Hdr) (id : ℕ) (op : ℕ) (low : ℕ) (elem : ℕ) (addr : ℕ) (len : ℕ) (data : List ℕ) (s : Sys2Proof.Machine.State) (keep_s : P s) : ∀ s1, (execRmaRequest m id op low elem addr len data s) = .next s1 → P s1 := by
  unfold execRmaRequest
  refine next_keeps ?_
  try dsimp only
  repeat' first
    | with_reducible assumption
    | with_reducible apply keeps_State_access H
    | with_reducible apply keeps_takeMsg H
    | with_reducible apply keeps_rmaRequest H
    | with_reducible refine ite_keeps (fun _ => ?_) (fun _ => ?_)
    | with_reducible refine foldl_keeps (fun _ _ _ => ?_) ?_
    | with_reducible refine dite_keeps (fun _ => ?_) (fun _ => ?_)
    | with_reducible refine ite_fst (fun _ => ?_) (fun _ => ?_)
    | with_reducible refine ite_snd (fun _ => ?_) (fun _ => ?_)
    | with_reducible refine ite_snd2 (fun _ => ?_) (fun _ => ?_)
    | with_reducible refine ite_snd3 (fun _ => ?_) (fun _ => ?_)
    | with_reducible refine foldl_fst (fun _ _ _ => ?_) ?_
    | with_reducible refine foldl_snd (fun _ _ _ => ?_) ?_
    | with_reducible refine snd_of_eq (by assumption) ?_
    | with_reducible refine fst_of_eq (by assumption) ?_
    | with_reducible refine snd2_of_eq (by assumption) ?_
    | with_reducible intro _ _
    | with_reducible intro _ _ _
    | split
    | dsimp only

theorem keeps_performStalled {P : State → Prop} (H : Closed P) (s : Sys2Proof.Machine.State) (x : Sys2Proof.Machine.Stalled) (keep_s : P s) : P (performStalled s x) := by
  unfold performStalled
  try dsimp only
  repeat' first
    | with_reducible assumption
    | with_reducible apply keeps_rmaPerform H
    | with_reducible apply keeps_busWrite_2 H
    | with_reducible apply keeps_busRead_2 H
    | with_reducible apply keeps_failStalled H
    | with_reducible refine ite_keeps (fun _ => ?_) (fun _ => ?_)
    | with_reducible refine foldl_keeps (fun _ _ _ => ?_) ?_
    | with_reducible refine dite_keeps (fun _ => ?_) (fun _ => ?_)
    | with_reducible refine ite_fst (fun _ => ?_) (fun _ => ?_)
    | with_reducible refine ite_snd (fun _ => ?_) (fun _ => ?_)
    | with_reducible refine ite_snd2 (fun _ => ?_) (fun _ => ?_)
    | with_reducible refine ite_snd3 (fun _ => ?_) (fun _ => ?_)
    | with_reducible refine foldl_fst (fun _ _ _ => ?_) ?_
    | with_reducible refine foldl_snd (fun _ _ _ => ?_) ?_
    | with_reducible refine snd_of_eq (by assumption) ?_
    | with_reducible refine fst_of_eq (by assumption) ?_
    | with_reducible refine snd2_of_eq (by assumption) ?_
    | with_reducible intro _ _
    | with_reducible intro _ _ _
    | split
    | dsimp only
    | with_reducible apply H.mk'

theorem keeps_wakeReady {P : State → Prop} (H : Closed P) (h : Fin 8) (s : Sys2Proof.Machine.State) (keep_s : P s) : P (wakeReady h s) := by
  unfold wakeReady
  try dsimp only
  repeat' first
    | with_reducible assumption
    | with_reducible apply keeps_splitStalled_2 H
    | with_reducible apply keeps_performStalled H
    | with_reducible refine ite_keeps (fun _ => ?_) (fun _ => ?_)
    | with_reducible refine foldl_keeps (fun _ _ _ => ?_) ?_
    | with_reducible refine dite_keeps (fun _ => ?_) (fun _ => ?_)
    | with_reducible refine ite_fst (fun _ => ?_) (fun _ => ?_)
    | with_reducible refine ite_snd (fun _ => ?_) (fun _ => ?_)
    | with_reducible refine ite_snd2 (fun _ => ?_) (fun _ => ?_)
    | with_reducible refine ite_snd3 (fun _ => ?_) (fun _ => ?_)
    | with_reducible refine foldl_fst (fun _ _ _ => ?_) ?_
    | with_reducible refine foldl_snd (fun _ _ _ => ?_) ?_
    | with_reducible refine snd_of_eq (by assumption) ?_
    | with_reducible refine fst_of_eq (by assumption) ?_
    | with_reducible refine snd2_of_eq (by assumption) ?_
    | with_reducible intro _ _
    | with_reducible intro _ _ _
    | split
    | dsimp only

theorem keeps_releaseWaiting {P : State → Prop} (H : Closed P) (h : Fin 8) (s : Sys2Proof.Machine.State) (keep_s : P s) : P (releaseWaiting h s) := by
  unfold releaseWaiting
  try dsimp only
  repeat' first
    | with_reducible assumption
    | with_reducible apply keeps_regWrite H
    | with_reducible apply keeps_wakeReady H
    | with_reducible refine ite_keeps (fun _ => ?_) (fun _ => ?_)
    | with_reducible refine foldl_keeps (fun _ _ _ => ?_) ?_
    | with_reducible refine dite_keeps (fun _ => ?_) (fun _ => ?_)
    | with_reducible refine ite_fst (fun _ => ?_) (fun _ => ?_)
    | with_reducible refine ite_snd (fun _ => ?_) (fun _ => ?_)
    | with_reducible refine ite_snd2 (fun _ => ?_) (fun _ => ?_)
    | with_reducible refine ite_snd3 (fun _ => ?_) (fun _ => ?_)
    | with_reducible refine foldl_fst (fun _ _ _ => ?_) ?_
    | with_reducible refine foldl_snd (fun _ _ _ => ?_) ?_
    | with_reducible refine snd_of_eq (by assumption) ?_
    | with_reducible refine fst_of_eq (by assumption) ?_
    | with_reducible refine snd2_of_eq (by assumption) ?_
    | with_reducible intro _ _
    | with_reducible intro _ _ _
    | split
    | dsimp only
    | with_reducible apply H.mk'

theorem keeps_thawed {P : State → Prop} (H : Closed P) (a : ℕ) (s : Sys2Proof.Machine.State) (keep_s : P s) : P (thawed a s) := by
  unfold thawed
  try dsimp only
  repeat' first
    | with_reducible assumption
    | with_reducible apply keeps_drainFifo H
    | with_reducible apply keeps_releaseVectors H
    | with_reducible apply keeps_releaseWaiting H
    | with_reducible refine ite_keeps (fun _ => ?_) (fun _ => ?_)
    | with_reducible refine foldl_keeps (fun _ _ _ => ?_) ?_
    | with_reducible refine dite_keeps (fun _ => ?_) (fun _ => ?_)
    | with_reducible refine ite_fst (fun _ => ?_) (fun _ => ?_)
    | with_reducible refine ite_snd (fun _ => ?_) (fun _ => ?_)
    | with_reducible refine ite_snd2 (fun _ => ?_) (fun _ => ?_)
    | with_reducible refine ite_snd3 (fun _ => ?_) (fun _ => ?_)
    | with_reducible refine foldl_fst (fun _ _ _ => ?_) ?_
    | with_reducible refine foldl_snd (fun _ _ _ => ?_) ?_
    | with_reducible refine snd_of_eq (by assumption) ?_
    | with_reducible refine fst_of_eq (by assumption) ?_
    | with_reducible refine snd2_of_eq (by assumption) ?_
    | with_reducible intro _ _
    | with_reducible intro _ _ _
    | split
    | dsimp only

end Sys2Proof.Machine
end

