-- ==== Sys2Proof/Laws/KeepsEngMem.lean ====
section
/-!
SUPPORT. Closed predicates are kept by every operation of these files.
-/

namespace Sys2Proof.Machine

theorem keeps_tableRead_2 {P : State → Prop} (H : Closed P) (r : Req) (fetch : Bool) (ta : ℕ) (va : ℕ) (s : State) (keep_s : P s) : P (tableRead r fetch ta va s).2 := by
  unfold tableRead
  try dsimp only
  repeat' first
    | with_reducible assumption
    | with_reducible apply keeps_busRead_2 H
    | with_reducible apply keeps_State_wr H
    | with_reducible refine ite_keeps (fun _ => ?_) (fun _ => ?_)

theorem keeps_walk_2 {P : State → Prop} (H : Closed P) (r : Req) (fetch : Bool) (w : Word) (va : ℕ) (s : State) (keep_s : P s) : P (walk r fetch w va s).2 := by
  unfold walk
  try dsimp only
  repeat' first
    | with_reducible assumption
    | with_reducible apply keeps_tableRead_2 H
    | with_reducible refine ite_keeps (fun _ => ?_) (fun _ => ?_)
    | with_reducible refine foldl_keeps (fun _ _ _ => ?_) ?_
    | with_reducible refine dite_keeps (fun _ => ?_) (fun _ => ?_)
    | with_reducible refine ite_fst (fun _ => ?_) (fun _ => ?_)
    | with_reducible refine ite_snd (fun _ => ?_) (fun _ => ?_)
    | with_reducible refine ite_snd2 (fun _ => ?_) (fun _ => ?_)
    | with_reducible refine ite_snd3 (fun _ => ?_) (fun _ => ?_)
    | with_reducible refine foldl_fst (fun _ _ _ => ?_) ?_
    | with_reducible refine foldl_snd (fun _ _ _ => ?_) ?_
    | with_reducible refine snd_of_eq (by assumption) ?_
    | with_reducible refine fst_of_eq (by assumption) ?_
    | with_reducible refine snd2_of_eq (by assumption) ?_
    | with_reducible intro _ _
    | with_reducible intro _ _ _
    | split

theorem keeps_translate_2 {P : State → Prop} (H : Closed P) (r : Req) (e : Fin 9) (ctx : ℕ) (kind : ℕ) (user : Bool) (va : ℕ) (s : State) (keep_s : P s) : P (translate r e ctx kind user va s).2 := by
  unfold translate
  try dsimp only
  repeat' first
    | with_reducible assumption
    | with_reducible apply keeps_walk_2 H
    | with_reducible apply keeps_State_setEng H
    | with_reducible refine ite_keeps (fun _ => ?_) (fun _ => ?_)
    | with_reducible refine foldl_keeps (fun _ _ _ => ?_) ?_
    | with_reducible refine dite_keeps (fun _ => ?_) (fun _ => ?_)
    | with_reducible refine ite_fst (fun _ => ?_) (fun _ => ?_)
    | with_reducible refine ite_snd (fun _ => ?_) (fun _ => ?_)
    | with_reducible refine ite_snd2 (fun _ => ?_) (fun _ => ?_)
    | with_reducible refine ite_snd3 (fun _ => ?_) (fun _ => ?_)
    | with_reducible refine foldl_fst (fun _ _ _ => ?_) ?_
    | with_reducible refine foldl_snd (fun _ _ _ => ?_) ?_
    | with_reducible refine snd_of_eq (by assumption) ?_
    | with_reducible refine fst_of_eq (by assumption) ?_
    | with_reducible refine snd2_of_eq (by assumption) ?_
    | with_reducible intro _ _
    | with_reducible intro _ _ _
    | split

theorem keeps_engXlat_2 {P : State → Prop} (H : Closed P) (e : Fin 9) (st : Status) (kind : ℕ) (va : ℕ) (s : State) (keep_s : P s) : P (engXlat e st kind va s).2 := by
  unfold engXlat
  try dsimp only
  repeat' first
    | with_reducible assumption
    | with_reducible apply keeps_translate_2 H
    | with_reducible refine ite_keeps (fun _ => ?_) (fun _ => ?_)
    | with_reducible refine foldl_keeps (fun _ _ _ => ?_) ?_
    | with_reducible refine dite_keeps (fun _ => ?_) (fun _ => ?_)
    | with_reducible refine ite_fst (fun _ => ?_) (fun _ => ?_)
    | with_reducible refine ite_snd (fun _ => ?_) (fun _ => ?_)

theorem keeps_engRead_2 {P : State → Prop} (H : Closed P) (e : Fin 9) (st : Status) (kind : ℕ) (va : ℕ) (size : ℕ) (s : State) (keep_s : P s) : P (engRead e st kind va size s).2 := by
  unfold engRead
  try dsimp only
  repeat' first
    | with_reducible assumption
    | with_reducible apply keeps_engXlat_2 H
    | with_reducible apply keeps_busRead_2 H
    | with_reducible refine ite_keeps (fun _ => ?_) (fun _ => ?_)
    | with_reducible refine foldl_keeps (fun _ _ _ => ?_) ?_
    | with_reducible refine dite_keeps (fun _ => ?_) (fun _ => ?_)
    | with_reducible refine ite_fst (fun _ => ?_) (fun _ => ?_)
    | with_reducible refine ite_snd (fun _ => ?_) (fun _ => ?_)
    | with_reducible refine ite_snd2 (fun _ => ?_) (fun _ => ?_)
    | with_reducible refine ite_snd3 (fun _ => ?_) (fun _ => ?_)
    | with_reducible refine foldl_fst (fun _ _ _ => ?_) ?_
    | with_reducible refine foldl_snd (fun _ _ _ => ?_) ?_
    | with_reducible refine snd_of_eq (by assumption) ?_
    | with_reducible refine fst_of_eq (by assumption) ?_
    | with_reducible refine snd2_of_eq (by assumption) ?_
    | with_reducible intro _ _
    | with_reducible intro _ _ _
    | split

theorem keeps_postStore_2 {P : State → Prop} (H : Closed P) (e : Fin 9) (st : Status) (va : ℕ) (pa : ℕ) (size : ℕ) (v : ℕ) (s : State) (keep_s : P s) : P (postStore e st va pa size v s).2 := by
  unfold postStore
  try dsimp only
  repeat' first
    | with_reducible assumption
    | with_reducible apply keeps_State_startWake H
    | with_reducible apply keeps_busWrite_2 H
    | with_reducible apply keeps_thawed H
    | with_reducible apply keeps_State_setEng H
    | with_reducible refine ite_keeps (fun _ => ?_) (fun _ => ?_)
    | with_reducible refine foldl_keeps (fun _ _ _ => ?_) ?_
    | with_reducible refine dite_keeps (fun _ => ?_) (fun _ => ?_)
    | with_reducible refine ite_fst (fun _ => ?_) (fun _ => ?_)
    | with_reducible refine ite_snd (fun _ => ?_) (fun _ => ?_)
    | with_reducible refine ite_snd2 (fun _ => ?_) (fun _ => ?_)
    | with_reducible refine ite_snd3 (fun _ => ?_) (fun _ => ?_)
    | with_reducible refine foldl_fst (fun _ _ _ => ?_) ?_
    | with_reducible refine foldl_snd (fun _ _ _ => ?_) ?_
    | with_reducible refine snd_of_eq (by assumption) ?_
    | with_reducible refine fst_of_eq (by assumption) ?_
    | with_reducible refine snd2_of_eq (by assumption) ?_
    | with_reducible intro _ _
    | with_reducible intro _ _ _
    | split
    | dsimp only
    | with_reducible apply H.mk'

theorem keeps_engStore_2 {P : State → Prop} (H : Closed P) (e : Fin 9) (st : Status) (va : ℕ) (size : ℕ) (v : ℕ) (s : State) (keep_s : P s) : P (engStore e st va size v s).2 := by
  unfold engStore
  try dsimp only
  repeat' first
    | with_reducible assumption
    | with_reducible apply keeps_engXlat_2 H
    | with_reducible apply keeps_postStore_2 H
    | with_reducible refine ite_keeps (fun _ => ?_) (fun _ => ?_)
    | with_reducible refine foldl_keeps (fun _ _ _ => ?_) ?_
    | with_reducible refine dite_keeps (fun _ => ?_) (fun _ => ?_)
    | with_reducible refine ite_fst (fun _ => ?_) (fun _ => ?_)
    | with_reducible refine ite_snd (fun _ => ?_) (fun _ => ?_)
    | with_reducible refine ite_snd2 (fun _ => ?_) (fun _ => ?_)
    | with_reducible refine ite_snd3 (fun _ => ?_) (fun _ => ?_)
    | with_reducible refine foldl_fst (fun _ _ _ => ?_) ?_
    | with_reducible refine foldl_snd (fun _ _ _ => ?_) ?_
    | with_reducible refine snd_of_eq (by assumption) ?_
    | with_reducible refine fst_of_eq (by assumption) ?_
    | with_reducible refine snd2_of_eq (by assumption) ?_
    | with_reducible intro _ _
    | with_reducible intro _ _ _
    | split

theorem keeps_doubleFault {P : State → Prop} (H : Closed P) (e : Fin 9) (pc : ℕ) (s : State) (keep_s : P s) : P (doubleFault e pc s) := by
  unfold doubleFault
  try dsimp only
  repeat' first
    | with_reducible assumption
    | with_reducible apply keeps_State_haltEng H
    | with_reducible apply keeps_State_breakLocks H
    | with_reducible apply keeps_State_raise H
    | with_reducible apply keeps_State_breakAllLocks H
    | with_reducible apply keeps_reeveRestart H
    | with_reducible refine ite_keeps (fun _ => ?_) (fun _ => ?_)
    | with_reducible refine foldl_keeps (fun _ _ _ => ?_) ?_
    | with_reducible refine dite_keeps (fun _ => ?_) (fun _ => ?_)

theorem keeps_takeExc {P : State → Prop} (H : Closed P) (e : Fin 9) (code : ℕ) (info : ℕ) (badva : Option ℕ) (pc : ℕ) (imprecise : Bool) (s : State) (keep_s : P s) : P (takeExc e code info badva pc imprecise s) := by
  unfold takeExc
  try dsimp only
  repeat' first
    | with_reducible assumption
    | with_reducible apply keeps_State_setEng H
    | with_reducible apply keeps_doubleFault H
    | with_reducible refine ite_keeps (fun _ => ?_) (fun _ => ?_)

theorem keeps_illegal {P : State → Prop} (H : Closed P) (e : Fin 9) (s : State) (keep_s : P s) : P (illegal e s) := by
  unfold illegal
  try dsimp only
  repeat' first
    | with_reducible assumption
    | with_reducible apply keeps_takeExc H

theorem keeps_takeBad {P : State → Prop} (H : Closed P) (e : Fin 9) (b : ℕ) (rest : List ℕ) (s : State) (keep_s : P s) : P (takeBad e b rest s) := by
  unfold takeBad
  try dsimp only
  repeat' first
    | with_reducible assumption
    | with_reducible apply keeps_takeExc H
    | with_reducible apply keeps_State_setEng H

theorem keeps_accessExc {P : State → Prop} (H : Closed P) (e : Fin 9) (code : ℕ) (info : ℕ) (badva : ℕ) (s : State) (keep_s : P s) : P (accessExc e code info badva s) := by
  unfold accessExc
  try dsimp only
  repeat' first
    | with_reducible assumption
    | with_reducible apply keeps_takeBad H
    | with_reducible apply keeps_takeExc H
    | with_reducible refine ite_keeps (fun _ => ?_) (fun _ => ?_)
    | with_reducible refine foldl_keeps (fun _ _ _ => ?_) ?_
    | with_reducible refine dite_keeps (fun _ => ?_) (fun _ => ?_)
    | with_reducible refine ite_fst (fun _ => ?_) (fun _ => ?_)
    | with_reducible refine ite_snd (fun _ => ?_) (fun _ => ?_)
    | with_reducible refine ite_snd2 (fun _ => ?_) (fun _ => ?_)
    | with_reducible refine ite_snd3 (fun _ => ?_) (fun _ => ?_)
    | with_reducible refine foldl_fst (fun _ _ _ => ?_) ?_
    | with_reducible refine foldl_snd (fun _ _ _ => ?_) ?_
    | with_reducible refine snd_of_eq (by assumption) ?_
    | with_reducible refine fst_of_eq (by assumption) ?_
    | with_reducible refine snd2_of_eq (by assumption) ?_
    | with_reducible intro _ _
    | with_reducible intro _ _ _
    | split

theorem keeps_settle {P : State → Prop} (H : Closed P) (e : Fin 9) (s : State) (keep_s : P s) : P (settle e s) := by
  unfold settle
  try dsimp only
  repeat' first
    | with_reducible assumption
    | with_reducible apply keeps_takeExc H
    | with_reducible apply keeps_haltIfQuiet H
    | with_reducible refine ite_keeps (fun _ => ?_) (fun _ => ?_)
    | with_reducible refine foldl_keeps (fun _ _ _ => ?_) ?_
    | with_reducible refine dite_keeps (fun _ => ?_) (fun _ => ?_)

theorem keeps_retire {P : State → Prop} (H : Closed P) (e : Fin 9) (ws : List (ℕ × EngWrite)) (act : Eng → Eng) (s : State) (keep_s : P s) : P (retire e ws act s) := by
  unfold retire
  try dsimp only
  repeat' first
    | with_reducible assumption
    | with_reducible apply keeps_State_setEng H

theorem keeps_engFetch_2 {P : State → Prop} (H : Closed P) (e : Fin 9) (s : State) (keep_s : P s) : P (engFetch e s).2 := by
  unfold engFetch
  try dsimp only
  repeat' first
    | with_reducible assumption
    | with_reducible apply keeps_engRead_2 H

theorem keeps_engStep {P : State → Prop} (H : Closed P) (e : Fin 9) (act : State → State) (s : State) (keep_act : ∀ s0, P s0 → P (act s0)) (keep_s : P s) : P (engStep e act s) := by
  unfold engStep
  try dsimp only
  repeat' first
    | with_reducible assumption
    | with_reducible apply keep_act
    | with_reducible apply keeps_engFetch_2 H
    | with_reducible apply keeps_settle H
    | with_reducible apply keeps_illegal H
    | with_reducible apply keeps_accessExc H
    | with_reducible refine ite_keeps (fun _ => ?_) (fun _ => ?_)
    | with_reducible refine foldl_keeps (fun _ _ _ => ?_) ?_
    | with_reducible refine dite_keeps (fun _ => ?_) (fun _ => ?_)
    | with_reducible refine ite_fst (fun _ => ?_) (fun _ => ?_)
    | with_reducible refine ite_snd (fun _ => ?_) (fun _ => ?_)
    | with_reducible refine ite_snd2 (fun _ => ?_) (fun _ => ?_)
    | with_reducible refine ite_snd3 (fun _ => ?_) (fun _ => ?_)
    | with_reducible refine foldl_fst (fun _ _ _ => ?_) ?_
    | with_reducible refine foldl_snd (fun _ _ _ => ?_) ?_
    | with_reducible refine snd_of_eq (by assumption) ?_
    | with_reducible refine fst_of_eq (by assumption) ?_
    | with_reducible refine snd2_of_eq (by assumption) ?_
    | with_reducible intro _ _
    | with_reducible intro _ _ _
    | split

theorem keeps_kernelOnly {P : State → Prop} (H : Closed P) (e : Fin 9) (act : State → State) (s : State) (keep_act : ∀ s0, P s0 → P (act s0)) (keep_s : P s) : P (kernelOnly e act s) := by
  unfold kernelOnly
  try dsimp only
  repeat' first
    | with_reducible assumption
    | with_reducible apply keep_act
    | with_reducible apply keeps_takeExc H
    | with_reducible refine ite_keeps (fun _ => ?_) (fun _ => ?_)

end Sys2Proof.Machine
end

