-- ==== Sys2Proof/Laws/KeepsAlu.lean ====
section
/-!
SUPPORT. Closed predicates are kept by every operation of these files.
-/

namespace Sys2Proof.Machine

theorem keeps_aluOp {P : State → Prop} (H : Closed P) (e : Fin 9) (rd : Fin 32) (f : Eng → Word × BitVec 16) (s : State) (keep_s : P s) : P (aluOp e rd f s) := by
  unfold aluOp
  try dsimp only
  repeat' first
    | with_reducible assumption
    | with_reducible apply keeps_engStep H
    | with_reducible apply keeps_retire H
    | with_reducible refine ite_keeps (fun _ => ?_) (fun _ => ?_)
    | with_reducible refine foldl_keeps (fun _ _ _ => ?_) ?_
    | with_reducible refine dite_keeps (fun _ => ?_) (fun _ => ?_)
    | with_reducible refine ite_fst (fun _ => ?_) (fun _ => ?_)
    | with_reducible refine ite_snd (fun _ => ?_) (fun _ => ?_)
    | with_reducible refine ite_snd2 (fun _ => ?_) (fun _ => ?_)
    | with_reducible refine ite_snd3 (fun _ => ?_) (fun _ => ?_)
    | with_reducible refine foldl_fst (fun _ _ _ => ?_) ?_
    | with_reducible refine foldl_snd (fun _ _ _ => ?_) ?_
    | with_reducible refine snd_of_eq (by assumption) ?_
    | with_reducible refine fst_of_eq (by assumption) ?_
    | with_reducible refine snd2_of_eq (by assumption) ?_
    | with_reducible intro _ _

theorem keeps_aluZN {P : State → Prop} (H : Closed P) (e : Fin 9) (rd : Fin 32) (f : Eng → Word) (s : State) (keep_s : P s) : P (aluZN e rd f s) := by
  unfold aluZN
  try dsimp only
  repeat' first
    | with_reducible assumption
    | with_reducible apply keeps_aluOp H

theorem keeps_aluZNCV {P : State → Prop} (H : Closed P) (e : Fin 9) (rd : Fin 32) (f : Eng → Word × Bool × Bool) (s : State) (keep_s : P s) : P (aluZNCV e rd f s) := by
  unfold aluZNCV
  try dsimp only
  repeat' first
    | with_reducible assumption
    | with_reducible apply keeps_aluOp H

theorem keeps_aluKeep {P : State → Prop} (H : Closed P) (e : Fin 9) (rd : Fin 32) (f : Eng → Word) (s : State) (keep_s : P s) : P (aluKeep e rd f s) := by
  unfold aluKeep
  try dsimp only
  repeat' first
    | with_reducible assumption
    | with_reducible apply keeps_aluOp H

theorem keeps_execAdd {P : State → Prop} (H : Closed P) (e : Fin 9) (rd : Fin 32) (ra : Fin 32) (rb : Fin 32) (s : State) (keep_s : P s) : ∀ s1, (execAdd e rd ra rb s) = .next s1 → P s1 := by
  unfold execAdd
  refine next_keeps ?_
  try dsimp only
  repeat' first
    | with_reducible assumption
    | with_reducible apply keeps_aluZNCV H

theorem keeps_execSub {P : State → Prop} (H : Closed P) (e : Fin 9) (rd : Fin 32) (ra : Fin 32) (rb : Fin 32) (s : State) (keep_s : P s) : ∀ s1, (execSub e rd ra rb s) = .next s1 → P s1 := by
  unfold execSub
  refine next_keeps ?_
  try dsimp only
  repeat' first
    | with_reducible assumption
    | with_reducible apply keeps_aluZNCV H

theorem keeps_execAddc {P : State → Prop} (H : Closed P) (e : Fin 9) (rd : Fin 32) (ra : Fin 32) (rb : Fin 32) (s : State) (keep_s : P s) : ∀ s1, (execAddc e rd ra rb s) = .next s1 → P s1 := by
  unfold execAddc
  refine next_keeps ?_
  try dsimp only
  repeat' first
    | with_reducible assumption
    | with_reducible apply keeps_aluZNCV H

theorem keeps_execSubc {P : State → Prop} (H : Closed P) (e : Fin 9) (rd : Fin 32) (ra : Fin 32) (rb : Fin 32) (s : State) (keep_s : P s) : ∀ s1, (execSubc e rd ra rb s) = .next s1 → P s1 := by
  unfold execSubc
  refine next_keeps ?_
  try dsimp only
  repeat' first
    | with_reducible assumption
    | with_reducible apply keeps_aluZNCV H

theorem keeps_execAnd {P : State → Prop} (H : Closed P) (e : Fin 9) (rd : Fin 32) (ra : Fin 32) (rb : Fin 32) (s : State) (keep_s : P s) : ∀ s1, (execAnd e rd ra rb s) = .next s1 → P s1 := by
  unfold execAnd
  refine next_keeps ?_
  try dsimp only
  repeat' first
    | with_reducible assumption
    | with_reducible apply keeps_aluZN H

theorem keeps_execOr {P : State → Prop} (H : Closed P) (e : Fin 9) (rd : Fin 32) (ra : Fin 32) (rb : Fin 32) (s : State) (keep_s : P s) : ∀ s1, (execOr e rd ra rb s) = .next s1 → P s1 := by
  unfold execOr
  refine next_keeps ?_
  try dsimp only
  repeat' first
    | with_reducible assumption
    | with_reducible apply keeps_aluZN H

theorem keeps_execXor {P : State → Prop} (H : Closed P) (e : Fin 9) (rd : Fin 32) (ra : Fin 32) (rb : Fin 32) (s : State) (keep_s : P s) : ∀ s1, (execXor e rd ra rb s) = .next s1 → P s1 := by
  unfold execXor
  refine next_keeps ?_
  try dsimp only
  repeat' first
    | with_reducible assumption
    | with_reducible apply keeps_aluZN H

theorem keeps_execSll {P : State → Prop} (H : Closed P) (e : Fin 9) (rd : Fin 32) (ra : Fin 32) (rb : Fin 32) (s : State) (keep_s : P s) : ∀ s1, (execSll e rd ra rb s) = .next s1 → P s1 := by
  unfold execSll
  refine next_keeps ?_
  try dsimp only
  repeat' first
    | with_reducible assumption
    | with_reducible apply keeps_aluZN H

theorem keeps_execSrl {P : State → Prop} (H : Closed P) (e : Fin 9) (rd : Fin 32) (ra : Fin 32) (rb : Fin 32) (s : State) (keep_s : P s) : ∀ s1, (execSrl e rd ra rb s) = .next s1 → P s1 := by
  unfold execSrl
  refine next_keeps ?_
  try dsimp only
  repeat' first
    | with_reducible assumption
    | with_reducible apply keeps_aluZN H

theorem keeps_execSra {P : State → Prop} (H : Closed P) (e : Fin 9) (rd : Fin 32) (ra : Fin 32) (rb : Fin 32) (s : State) (keep_s : P s) : ∀ s1, (execSra e rd ra rb s) = .next s1 → P s1 := by
  unfold execSra
  refine next_keeps ?_
  try dsimp only
  repeat' first
    | with_reducible assumption
    | with_reducible apply keeps_aluZN H

theorem keeps_execSlli {P : State → Prop} (H : Closed P) (e : Fin 9) (rd : Fin 32) (ra : Fin 32) (rb : Fin 32) (s : State) (keep_s : P s) : ∀ s1, (execSlli e rd ra rb s) = .next s1 → P s1 := by
  unfold execSlli
  refine next_keeps ?_
  try dsimp only
  repeat' first
    | with_reducible assumption
    | with_reducible apply keeps_aluZN H

theorem keeps_execSrli {P : State → Prop} (H : Closed P) (e : Fin 9) (rd : Fin 32) (ra : Fin 32) (rb : Fin 32) (s : State) (keep_s : P s) : ∀ s1, (execSrli e rd ra rb s) = .next s1 → P s1 := by
  unfold execSrli
  refine next_keeps ?_
  try dsimp only
  repeat' first
    | with_reducible assumption
    | with_reducible apply keeps_aluZN H

theorem keeps_execSrai {P : State → Prop} (H : Closed P) (e : Fin 9) (rd : Fin 32) (ra : Fin 32) (rb : Fin 32) (s : State) (keep_s : P s) : ∀ s1, (execSrai e rd ra rb s) = .next s1 → P s1 := by
  unfold execSrai
  refine next_keeps ?_
  try dsimp only
  repeat' first
    | with_reducible assumption
    | with_reducible apply keeps_aluZN H

theorem keeps_execSlt {P : State → Prop} (H : Closed P) (e : Fin 9) (rd : Fin 32) (ra : Fin 32) (rb : Fin 32) (s : State) (keep_s : P s) : ∀ s1, (execSlt e rd ra rb s) = .next s1 → P s1 := by
  unfold execSlt
  refine next_keeps ?_
  try dsimp only
  repeat' first
    | with_reducible assumption
    | with_reducible apply keeps_aluKeep H

theorem keeps_execSltu {P : State → Prop} (H : Closed P) (e : Fin 9) (rd : Fin 32) (ra : Fin 32) (rb : Fin 32) (s : State) (keep_s : P s) : ∀ s1, (execSltu e rd ra rb s) = .next s1 → P s1 := by
  unfold execSltu
  refine next_keeps ?_
  try dsimp only
  repeat' first
    | with_reducible assumption
    | with_reducible apply keeps_aluKeep H

theorem keeps_execMul {P : State → Prop} (H : Closed P) (e : Fin 9) (rd : Fin 32) (ra : Fin 32) (rb : Fin 32) (s : State) (keep_s : P s) : ∀ s1, (execMul e rd ra rb s) = .next s1 → P s1 := by
  unfold execMul
  refine next_keeps ?_
  try dsimp only
  repeat' first
    | with_reducible assumption
    | with_reducible apply keeps_aluZN H

theorem keeps_execMulh {P : State → Prop} (H : Closed P) (e : Fin 9) (rd : Fin 32) (ra : Fin 32) (rb : Fin 32) (s : State) (keep_s : P s) : ∀ s1, (execMulh e rd ra rb s) = .next s1 → P s1 := by
  unfold execMulh
  refine next_keeps ?_
  try dsimp only
  repeat' first
    | with_reducible assumption
    | with_reducible apply keeps_aluZN H

theorem keeps_execMulhu {P : State → Prop} (H : Closed P) (e : Fin 9) (rd : Fin 32) (ra : Fin 32) (rb : Fin 32) (s : State) (keep_s : P s) : ∀ s1, (execMulhu e rd ra rb s) = .next s1 → P s1 := by
  unfold execMulhu
  refine next_keeps ?_
  try dsimp only
  repeat' first
    | with_reducible assumption
    | with_reducible apply keeps_aluZN H

theorem keeps_execMin {P : State → Prop} (H : Closed P) (e : Fin 9) (rd : Fin 32) (ra : Fin 32) (rb : Fin 32) (s : State) (keep_s : P s) : ∀ s1, (execMin e rd ra rb s) = .next s1 → P s1 := by
  unfold execMin
  refine next_keeps ?_
  try dsimp only
  repeat' first
    | with_reducible assumption
    | with_reducible apply keeps_aluKeep H

theorem keeps_execMax {P : State → Prop} (H : Closed P) (e : Fin 9) (rd : Fin 32) (ra : Fin 32) (rb : Fin 32) (s : State) (keep_s : P s) : ∀ s1, (execMax e rd ra rb s) = .next s1 → P s1 := by
  unfold execMax
  refine next_keeps ?_
  try dsimp only
  repeat' first
    | with_reducible assumption
    | with_reducible apply keeps_aluKeep H

theorem keeps_execAbs {P : State → Prop} (H : Closed P) (e : Fin 9) (rd : Fin 32) (ra : Fin 32) (s : State) (keep_s : P s) : ∀ s1, (execAbs e rd ra s) = .next s1 → P s1 := by
  unfold execAbs
  refine next_keeps ?_
  try dsimp only
  repeat' first
    | with_reducible assumption
    | with_reducible apply keeps_aluZN H

theorem keeps_execClz {P : State → Prop} (H : Closed P) (e : Fin 9) (rd : Fin 32) (ra : Fin 32) (s : State) (keep_s : P s) : ∀ s1, (execClz e rd ra s) = .next s1 → P s1 := by
  unfold execClz
  refine next_keeps ?_
  try dsimp only
  repeat' first
    | with_reducible assumption
    | with_reducible apply keeps_aluZN H

theorem keeps_execAddi {P : State → Prop} (H : Closed P) (e : Fin 9) (rd : Fin 32) (ra : Fin 32) (imm : BitVec 16) (s : State) (keep_s : P s) : ∀ s1, (execAddi e rd ra imm s) = .next s1 → P s1 := by
  unfold execAddi
  refine next_keeps ?_
  try dsimp only
  repeat' first
    | with_reducible assumption
    | with_reducible apply keeps_aluZNCV H

theorem keeps_execSlti {P : State → Prop} (H : Closed P) (e : Fin 9) (rd : Fin 32) (ra : Fin 32) (imm : BitVec 16) (s : State) (keep_s : P s) : ∀ s1, (execSlti e rd ra imm s) = .next s1 → P s1 := by
  unfold execSlti
  refine next_keeps ?_
  try dsimp only
  repeat' first
    | with_reducible assumption
    | with_reducible apply keeps_aluKeep H

theorem keeps_execAndi {P : State → Prop} (H : Closed P) (e : Fin 9) (rd : Fin 32) (ra : Fin 32) (imm : BitVec 16) (s : State) (keep_s : P s) : ∀ s1, (execAndi e rd ra imm s) = .next s1 → P s1 := by
  unfold execAndi
  refine next_keeps ?_
  try dsimp only
  repeat' first
    | with_reducible assumption
    | with_reducible apply keeps_aluZN H

theorem keeps_execOri {P : State → Prop} (H : Closed P) (e : Fin 9) (rd : Fin 32) (ra : Fin 32) (imm : BitVec 16) (s : State) (keep_s : P s) : ∀ s1, (execOri e rd ra imm s) = .next s1 → P s1 := by
  unfold execOri
  refine next_keeps ?_
  try dsimp only
  repeat' first
    | with_reducible assumption
    | with_reducible apply keeps_aluZN H

theorem keeps_execXori {P : State → Prop} (H : Closed P) (e : Fin 9) (rd : Fin 32) (ra : Fin 32) (imm : BitVec 16) (s : State) (keep_s : P s) : ∀ s1, (execXori e rd ra imm s) = .next s1 → P s1 := by
  unfold execXori
  refine next_keeps ?_
  try dsimp only
  repeat' first
    | with_reducible assumption
    | with_reducible apply keeps_aluZN H

theorem keeps_execLui {P : State → Prop} (H : Closed P) (e : Fin 9) (rd : Fin 32) (ra : Fin 32) (imm : BitVec 16) (s : State) (keep_s : P s) : ∀ s1, (execLui e rd ra imm s) = .next s1 → P s1 := by
  unfold execLui
  refine next_keeps ?_
  try dsimp only
  repeat' first
    | with_reducible assumption
    | with_reducible apply keeps_engStep H
    | with_reducible apply keeps_illegal H
    | with_reducible apply keeps_aluKeep H
    | with_reducible refine ite_keeps (fun _ => ?_) (fun _ => ?_)

end Sys2Proof.Machine
end

