-- ==== Sys2Proof/Laws/KeepsBranch.lean ====
section
/-!
SUPPORT. Closed predicates are kept by every operation of these files.
-/

namespace Sys2Proof.Machine

theorem keeps_branchTo {P : State → Prop} (H : Closed P) (e : Fin 9) (target : ℕ) (link : Option (Fin 32)) (s : State) (keep_s : P s) : P (branchTo e target link s) := by
  unfold branchTo
  try dsimp only
  repeat' first
    | with_reducible assumption
    | with_reducible apply keeps_illegal H
    | with_reducible apply keeps_State_setEng H
    | with_reducible refine ite_keeps (fun _ => ?_) (fun _ => ?_)

theorem keeps_condBranch {P : State → Prop} (H : Closed P) (e : Fin 9) (off : BitVec 16) (c : Eng → Bool) (s : State) (keep_s : P s) : P (condBranch e off c s) := by
  unfold condBranch
  try dsimp only
  repeat' first
    | with_reducible assumption
    | with_reducible apply keeps_engStep H
    | with_reducible apply keeps_branchTo H
    | with_reducible refine ite_keeps (fun _ => ?_) (fun _ => ?_)
    | with_reducible refine foldl_keeps (fun _ _ _ => ?_) ?_
    | with_reducible refine dite_keeps (fun _ => ?_) (fun _ => ?_)
    | with_reducible refine ite_fst (fun _ => ?_) (fun _ => ?_)
    | with_reducible refine ite_snd (fun _ => ?_) (fun _ => ?_)
    | with_reducible refine ite_snd2 (fun _ => ?_) (fun _ => ?_)
    | with_reducible refine ite_snd3 (fun _ => ?_) (fun _ => ?_)
    | with_reducible refine foldl_fst (fun _ _ _ => ?_) ?_
    | with_reducible refine foldl_snd (fun _ _ _ => ?_) ?_
    | with_reducible refine snd_of_eq (by assumption) ?_
    | with_reducible refine fst_of_eq (by assumption) ?_
    | with_reducible refine snd2_of_eq (by assumption) ?_
    | with_reducible intro _ _

theorem keeps_execJr {P : State → Prop} (H : Closed P) (e : Fin 9) (ra : Fin 32) (s : State) (keep_s : P s) : ∀ s1, (execJr e ra s) = .next s1 → P s1 := by
  unfold execJr
  refine next_keeps ?_
  try dsimp only
  repeat' first
    | with_reducible assumption
    | with_reducible apply keeps_engStep H
    | with_reducible apply keeps_branchTo H
    | with_reducible refine ite_keeps (fun _ => ?_) (fun _ => ?_)
    | with_reducible refine foldl_keeps (fun _ _ _ => ?_) ?_
    | with_reducible refine dite_keeps (fun _ => ?_) (fun _ => ?_)
    | with_reducible refine ite_fst (fun _ => ?_) (fun _ => ?_)
    | with_reducible refine ite_snd (fun _ => ?_) (fun _ => ?_)
    | with_reducible refine ite_snd2 (fun _ => ?_) (fun _ => ?_)
    | with_reducible refine ite_snd3 (fun _ => ?_) (fun _ => ?_)
    | with_reducible refine foldl_fst (fun _ _ _ => ?_) ?_
    | with_reducible refine foldl_snd (fun _ _ _ => ?_) ?_
    | with_reducible refine snd_of_eq (by assumption) ?_
    | with_reducible refine fst_of_eq (by assumption) ?_
    | with_reducible refine snd2_of_eq (by assumption) ?_
    | with_reducible intro _ _

theorem keeps_execJalr {P : State → Prop} (H : Closed P) (e : Fin 9) (rd : Fin 32) (ra : Fin 32) (s : State) (keep_s : P s) : ∀ s1, (execJalr e rd ra s) = .next s1 → P s1 := by
  unfold execJalr
  refine next_keeps ?_
  try dsimp only
  repeat' first
    | with_reducible assumption
    | with_reducible apply keeps_engStep H
    | with_reducible apply keeps_illegal H
    | with_reducible apply keeps_branchTo H
    | with_reducible refine ite_keeps (fun _ => ?_) (fun _ => ?_)
    | with_reducible refine foldl_keeps (fun _ _ _ => ?_) ?_
    | with_reducible refine dite_keeps (fun _ => ?_) (fun _ => ?_)
    | with_reducible refine ite_fst (fun _ => ?_) (fun _ => ?_)
    | with_reducible refine ite_snd (fun _ => ?_) (fun _ => ?_)
    | with_reducible refine ite_snd2 (fun _ => ?_) (fun _ => ?_)
    | with_reducible refine ite_snd3 (fun _ => ?_) (fun _ => ?_)
    | with_reducible refine foldl_fst (fun _ _ _ => ?_) ?_
    | with_reducible refine foldl_snd (fun _ _ _ => ?_) ?_
    | with_reducible refine snd_of_eq (by assumption) ?_
    | with_reducible refine fst_of_eq (by assumption) ?_
    | with_reducible refine snd2_of_eq (by assumption) ?_
    | with_reducible intro _ _

theorem keeps_execBeq {P : State → Prop} (H : Closed P) (e : Fin 9) (ra : Fin 32) (rb : Fin 32) (off : BitVec 16) (s : State) (keep_s : P s) : ∀ s1, (execBeq e ra rb off s) = .next s1 → P s1 := by
  unfold execBeq
  refine next_keeps ?_
  try dsimp only
  repeat' first
    | with_reducible assumption
    | with_reducible apply keeps_condBranch H

theorem keeps_execBne {P : State → Prop} (H : Closed P) (e : Fin 9) (ra : Fin 32) (rb : Fin 32) (off : BitVec 16) (s : State) (keep_s : P s) : ∀ s1, (execBne e ra rb off s) = .next s1 → P s1 := by
  unfold execBne
  refine next_keeps ?_
  try dsimp only
  repeat' first
    | with_reducible assumption
    | with_reducible apply keeps_condBranch H

theorem keeps_execBlt {P : State → Prop} (H : Closed P) (e : Fin 9) (ra : Fin 32) (rb : Fin 32) (off : BitVec 16) (s : State) (keep_s : P s) : ∀ s1, (execBlt e ra rb off s) = .next s1 → P s1 := by
  unfold execBlt
  refine next_keeps ?_
  try dsimp only
  repeat' first
    | with_reducible assumption
    | with_reducible apply keeps_condBranch H

theorem keeps_execBge {P : State → Prop} (H : Closed P) (e : Fin 9) (ra : Fin 32) (rb : Fin 32) (off : BitVec 16) (s : State) (keep_s : P s) : ∀ s1, (execBge e ra rb off s) = .next s1 → P s1 := by
  unfold execBge
  refine next_keeps ?_
  try dsimp only
  repeat' first
    | with_reducible assumption
    | with_reducible apply keeps_condBranch H

theorem keeps_execBltu {P : State → Prop} (H : Closed P) (e : Fin 9) (ra : Fin 32) (rb : Fin 32) (off : BitVec 16) (s : State) (keep_s : P s) : ∀ s1, (execBltu e ra rb off s) = .next s1 → P s1 := by
  unfold execBltu
  refine next_keeps ?_
  try dsimp only
  repeat' first
    | with_reducible assumption
    | with_reducible apply keeps_condBranch H

theorem keeps_execBgeu {P : State → Prop} (H : Closed P) (e : Fin 9) (ra : Fin 32) (rb : Fin 32) (off : BitVec 16) (s : State) (keep_s : P s) : ∀ s1, (execBgeu e ra rb off s) = .next s1 → P s1 := by
  unfold execBgeu
  refine next_keeps ?_
  try dsimp only
  repeat' first
    | with_reducible assumption
    | with_reducible apply keeps_condBranch H

theorem keeps_execJ {P : State → Prop} (H : Closed P) (e : Fin 9) (off : BitVec 26) (s : State) (keep_s : P s) : ∀ s1, (execJ e off s) = .next s1 → P s1 := by
  unfold execJ
  refine next_keeps ?_
  try dsimp only
  repeat' first
    | with_reducible assumption
    | with_reducible apply keeps_engStep H
    | with_reducible apply keeps_branchTo H
    | with_reducible refine ite_keeps (fun _ => ?_) (fun _ => ?_)
    | with_reducible refine foldl_keeps (fun _ _ _ => ?_) ?_
    | with_reducible refine dite_keeps (fun _ => ?_) (fun _ => ?_)
    | with_reducible refine ite_fst (fun _ => ?_) (fun _ => ?_)
    | with_reducible refine ite_snd (fun _ => ?_) (fun _ => ?_)
    | with_reducible refine ite_snd2 (fun _ => ?_) (fun _ => ?_)
    | with_reducible refine ite_snd3 (fun _ => ?_) (fun _ => ?_)
    | with_reducible refine foldl_fst (fun _ _ _ => ?_) ?_
    | with_reducible refine foldl_snd (fun _ _ _ => ?_) ?_
    | with_reducible refine snd_of_eq (by assumption) ?_
    | with_reducible refine fst_of_eq (by assumption) ?_
    | with_reducible refine snd2_of_eq (by assumption) ?_
    | with_reducible intro _ _

theorem keeps_execJal {P : State → Prop} (H : Closed P) (e : Fin 9) (off : BitVec 26) (s : State) (keep_s : P s) : ∀ s1, (execJal e off s) = .next s1 → P s1 := by
  unfold execJal
  refine next_keeps ?_
  try dsimp only
  repeat' first
    | with_reducible assumption
    | with_reducible apply keeps_engStep H
    | with_reducible apply keeps_branchTo H
    | with_reducible refine ite_keeps (fun _ => ?_) (fun _ => ?_)
    | with_reducible refine foldl_keeps (fun _ _ _ => ?_) ?_
    | with_reducible refine dite_keeps (fun _ => ?_) (fun _ => ?_)
    | with_reducible refine ite_fst (fun _ => ?_) (fun _ => ?_)
    | with_reducible refine ite_snd (fun _ => ?_) (fun _ => ?_)
    | with_reducible refine ite_snd2 (fun _ => ?_) (fun _ => ?_)
    | with_reducible refine ite_snd3 (fun _ => ?_) (fun _ => ?_)
    | with_reducible refine foldl_fst (fun _ _ _ => ?_) ?_
    | with_reducible refine foldl_snd (fun _ _ _ => ?_) ?_
    | with_reducible refine snd_of_eq (by assumption) ?_
    | with_reducible refine fst_of_eq (by assumption) ?_
    | with_reducible refine snd2_of_eq (by assumption) ?_
    | with_reducible intro _ _

end Sys2Proof.Machine
end

