-- ==== Sys2Proof/Laws/KeepsLoadStore.lean ====
section
/-!
SUPPORT. Closed predicates are kept by every operation of these files.
-/

namespace Sys2Proof.Machine

theorem keeps_loadOp {P : State → Prop} (H : Closed P) (e : Fin 9) (rt : Fin 32) (an : Fin 8) (am : Fin 4) (sz : Fin 4) (imm : BitVec 14) (sext : Bool) (s : State) (keep_s : P s) : P (loadOp e rt an am sz imm sext s) := by
  unfold loadOp
  try dsimp only
  repeat' first
    | with_reducible assumption
    | with_reducible apply keeps_illegal H
    | with_reducible apply keeps_engRead_2 H
    | with_reducible apply keeps_retire H
    | with_reducible apply keeps_accessExc H
    | with_reducible refine ite_keeps (fun _ => ?_) (fun _ => ?_)
    | with_reducible refine foldl_keeps (fun _ _ _ => ?_) ?_
    | with_reducible refine dite_keeps (fun _ => ?_) (fun _ => ?_)
    | with_reducible refine ite_fst (fun _ => ?_) (fun _ => ?_)
    | with_reducible refine ite_snd (fun _ => ?_) (fun _ => ?_)
    | with_reducible refine ite_snd2 (fun _ => ?_) (fun _ => ?_)
    | with_reducible refine ite_snd3 (fun _ => ?_) (fun _ => ?_)
    | with_reducible refine foldl_fst (fun _ _ _ => ?_) ?_
    | with_reducible refine foldl_snd (fun _ _ _ => ?_) ?_
    | with_reducible refine snd_of_eq (by assumption) ?_
    | with_reducible refine fst_of_eq (by assumption) ?_
    | with_reducible refine snd2_of_eq (by assumption) ?_
    | with_reducible intro _ _
    | with_reducible intro _ _ _
    | split

theorem keeps_execLd {P : State → Prop} (H : Closed P) (e : Fin 9) (rt : Fin 32) (an : Fin 8) (am : Fin 4) (sz : Fin 4) (imm : BitVec 14) (s : State) (keep_s : P s) : ∀ s1, (execLd e rt an am sz imm s) = .next s1 → P s1 := by
  unfold execLd
  refine next_keeps ?_
  try dsimp only
  repeat' first
    | with_reducible assumption
    | with_reducible apply keeps_engStep H
    | with_reducible apply keeps_loadOp H

theorem keeps_execLdu {P : State → Prop} (H : Closed P) (e : Fin 9) (rt : Fin 32) (an : Fin 8) (am : Fin 4) (sz : Fin 4) (imm : BitVec 14) (s : State) (keep_s : P s) : ∀ s1, (execLdu e rt an am sz imm s) = .next s1 → P s1 := by
  unfold execLdu
  refine next_keeps ?_
  try dsimp only
  repeat' first
    | with_reducible assumption
    | with_reducible apply keeps_engStep H
    | with_reducible apply keeps_loadOp H

theorem keeps_storeOp {P : State → Prop} (H : Closed P) (e : Fin 9) (rt : Fin 32) (an : Fin 8) (am : Fin 4) (sz : Fin 4) (imm : BitVec 14) (s : State) (keep_s : P s) : P (storeOp e rt an am sz imm s) := by
  unfold storeOp
  try dsimp only
  repeat' first
    | with_reducible assumption
    | with_reducible apply keeps_illegal H
    | with_reducible apply keeps_engStore_2 H
    | with_reducible apply keeps_retire H
    | with_reducible apply keeps_accessExc H
    | with_reducible refine ite_keeps (fun _ => ?_) (fun _ => ?_)
    | with_reducible refine foldl_keeps (fun _ _ _ => ?_) ?_
    | with_reducible refine dite_keeps (fun _ => ?_) (fun _ => ?_)
    | with_reducible refine ite_fst (fun _ => ?_) (fun _ => ?_)
    | with_reducible refine ite_snd (fun _ => ?_) (fun _ => ?_)
    | with_reducible refine ite_snd2 (fun _ => ?_) (fun _ => ?_)
    | with_reducible refine ite_snd3 (fun _ => ?_) (fun _ => ?_)
    | with_reducible refine foldl_fst (fun _ _ _ => ?_) ?_
    | with_reducible refine foldl_snd (fun _ _ _ => ?_) ?_
    | with_reducible refine snd_of_eq (by assumption) ?_
    | with_reducible refine fst_of_eq (by assumption) ?_
    | with_reducible refine snd2_of_eq (by assumption) ?_
    | with_reducible intro _ _
    | with_reducible intro _ _ _
    | split

theorem keeps_execSt {P : State → Prop} (H : Closed P) (e : Fin 9) (rt : Fin 32) (an : Fin 8) (am : Fin 4) (sz : Fin 4) (imm : BitVec 14) (s : State) (keep_s : P s) : ∀ s1, (execSt e rt an am sz imm s) = .next s1 → P s1 := by
  unfold execSt
  refine next_keeps ?_
  try dsimp only
  repeat' first
    | with_reducible assumption
    | with_reducible apply keeps_engStep H
    | with_reducible apply keeps_storeOp H

theorem keeps_execSeta {P : State → Prop} (H : Closed P) (e : Fin 9) (an : Fin 8) (sel : Fin 4) (ra : Fin 32) (imm : BitVec 16) (s : State) (keep_s : P s) : ∀ s1, (execSeta e an sel ra imm s) = .next s1 → P s1 := by
  unfold execSeta
  refine next_keeps ?_
  try dsimp only
  repeat' first
    | with_reducible assumption
    | with_reducible apply keeps_engStep H
    | with_reducible apply keeps_illegal H
    | with_reducible apply keeps_retire H
    | with_reducible refine ite_keeps (fun _ => ?_) (fun _ => ?_)
    | with_reducible refine foldl_keeps (fun _ _ _ => ?_) ?_
    | with_reducible refine dite_keeps (fun _ => ?_) (fun _ => ?_)
    | with_reducible refine ite_fst (fun _ => ?_) (fun _ => ?_)
    | with_reducible refine ite_snd (fun _ => ?_) (fun _ => ?_)
    | with_reducible refine ite_snd2 (fun _ => ?_) (fun _ => ?_)
    | with_reducible refine ite_snd3 (fun _ => ?_) (fun _ => ?_)
    | with_reducible refine foldl_fst (fun _ _ _ => ?_) ?_
    | with_reducible refine foldl_snd (fun _ _ _ => ?_) ?_
    | with_reducible refine snd_of_eq (by assumption) ?_
    | with_reducible refine fst_of_eq (by assumption) ?_
    | with_reducible refine snd2_of_eq (by assumption) ?_
    | with_reducible intro _ _
    | with_reducible intro _ _ _
    | split

theorem keeps_execGeta {P : State → Prop} (H : Closed P) (e : Fin 9) (an : Fin 8) (sel : Fin 4) (rd : Fin 32) (imm : BitVec 16) (s : State) (keep_s : P s) : ∀ s1, (execGeta e an sel rd imm s) = .next s1 → P s1 := by
  unfold execGeta
  refine next_keeps ?_
  try dsimp only
  repeat' first
    | with_reducible assumption
    | with_reducible apply keeps_engStep H
    | with_reducible apply keeps_illegal H
    | with_reducible apply keeps_retire H
    | with_reducible refine ite_keeps (fun _ => ?_) (fun _ => ?_)
    | with_reducible refine foldl_keeps (fun _ _ _ => ?_) ?_
    | with_reducible refine dite_keeps (fun _ => ?_) (fun _ => ?_)
    | with_reducible refine ite_fst (fun _ => ?_) (fun _ => ?_)
    | with_reducible refine ite_snd (fun _ => ?_) (fun _ => ?_)
    | with_reducible refine ite_snd2 (fun _ => ?_) (fun _ => ?_)
    | with_reducible refine ite_snd3 (fun _ => ?_) (fun _ => ?_)
    | with_reducible refine foldl_fst (fun _ _ _ => ?_) ?_
    | with_reducible refine foldl_snd (fun _ _ _ => ?_) ?_
    | with_reducible refine snd_of_eq (by assumption) ?_
    | with_reducible refine fst_of_eq (by assumption) ?_
    | with_reducible refine snd2_of_eq (by assumption) ?_
    | with_reducible intro _ _
    | with_reducible intro _ _ _
    | split

theorem keeps_execAdda {P : State → Prop} (H : Closed P) (e : Fin 9) (an : Fin 8) (sel : Fin 4) (ra : Fin 32) (imm : BitVec 16) (s : State) (keep_s : P s) : ∀ s1, (execAdda e an sel ra imm s) = .next s1 → P s1 := by
  unfold execAdda
  refine next_keeps ?_
  try dsimp only
  repeat' first
    | with_reducible assumption
    | with_reducible apply keeps_engStep H
    | with_reducible apply keeps_illegal H
    | with_reducible apply keeps_retire H
    | with_reducible refine ite_keeps (fun _ => ?_) (fun _ => ?_)
    | with_reducible refine foldl_keeps (fun _ _ _ => ?_) ?_
    | with_reducible refine dite_keeps (fun _ => ?_) (fun _ => ?_)
    | with_reducible refine ite_fst (fun _ => ?_) (fun _ => ?_)
    | with_reducible refine ite_snd (fun _ => ?_) (fun _ => ?_)
    | with_reducible refine ite_snd2 (fun _ => ?_) (fun _ => ?_)
    | with_reducible refine ite_snd3 (fun _ => ?_) (fun _ => ?_)
    | with_reducible refine foldl_fst (fun _ _ _ => ?_) ?_
    | with_reducible refine foldl_snd (fun _ _ _ => ?_) ?_
    | with_reducible refine snd_of_eq (by assumption) ?_
    | with_reducible refine fst_of_eq (by assumption) ?_
    | with_reducible refine snd2_of_eq (by assumption) ?_
    | with_reducible intro _ _
    | with_reducible intro _ _ _
    | split

end Sys2Proof.Machine
end

