-- ==== Sys2Proof/Laws/KeepsComplex.lean ====
section
/-!
SUPPORT. Closed predicates are kept by every operation of these files.
-/

namespace Sys2Proof.Machine

theorem keeps_accOp {P : State → Prop} (H : Closed P) (e : Fin 9) (acc : Fin 4) (p : Eng → ℤ × ℤ) (s : State) (keep_s : P s) : P (accOp e acc p s) := by
  unfold accOp
  try dsimp only
  repeat' first
    | with_reducible assumption
    | with_reducible apply keeps_engStep H
    | with_reducible apply keeps_retire H
    | with_reducible refine ite_keeps (fun _ => ?_) (fun _ => ?_)
    | with_reducible refine foldl_keeps (fun _ _ _ => ?_) ?_
    | with_reducible refine dite_keeps (fun _ => ?_) (fun _ => ?_)
    | with_reducible refine ite_fst (fun _ => ?_) (fun _ => ?_)
    | with_reducible refine ite_snd (fun _ => ?_) (fun _ => ?_)
    | with_reducible refine ite_snd2 (fun _ => ?_) (fun _ => ?_)
    | with_reducible refine ite_snd3 (fun _ => ?_) (fun _ => ?_)
    | with_reducible refine foldl_fst (fun _ _ _ => ?_) ?_
    | with_reducible refine foldl_snd (fun _ _ _ => ?_) ?_
    | with_reducible refine snd_of_eq (by assumption) ?_
    | with_reducible refine fst_of_eq (by assumption) ?_
    | with_reducible refine snd2_of_eq (by assumption) ?_
    | with_reducible intro _ _

theorem keeps_execCmac {P : State → Prop} (H : Closed P) (e : Fin 9) (acc : Fin 4) (ra : Fin 32) (rb : Fin 32) (s : State) (keep_s : P s) : ∀ s1, (execCmac e acc ra rb s) = .next s1 → P s1 := by
  unfold execCmac
  refine next_keeps ?_
  try dsimp only
  repeat' first
    | with_reducible assumption
    | with_reducible apply keeps_accOp H

theorem keeps_execCmacc {P : State → Prop} (H : Closed P) (e : Fin 9) (acc : Fin 4) (ra : Fin 32) (rb : Fin 32) (s : State) (keep_s : P s) : ∀ s1, (execCmacc e acc ra rb s) = .next s1 → P s1 := by
  unfold execCmacc
  refine next_keeps ?_
  try dsimp only
  repeat' first
    | with_reducible assumption
    | with_reducible apply keeps_accOp H

theorem keeps_execDmac {P : State → Prop} (H : Closed P) (e : Fin 9) (acc : Fin 4) (ra : Fin 32) (rb : Fin 32) (s : State) (keep_s : P s) : ∀ s1, (execDmac e acc ra rb s) = .next s1 → P s1 := by
  unfold execDmac
  refine next_keeps ?_
  try dsimp only
  repeat' first
    | with_reducible assumption
    | with_reducible apply keeps_accOp H

theorem keeps_execCmul {P : State → Prop} (H : Closed P) (e : Fin 9) (acc : Fin 4) (ra : Fin 32) (rb : Fin 32) (s : State) (keep_s : P s) : ∀ s1, (execCmul e acc ra rb s) = .next s1 → P s1 := by
  unfold execCmul
  refine next_keeps ?_
  try dsimp only
  repeat' first
    | with_reducible assumption
    | with_reducible apply keeps_engStep H
    | with_reducible apply keeps_retire H
    | with_reducible refine ite_keeps (fun _ => ?_) (fun _ => ?_)
    | with_reducible refine foldl_keeps (fun _ _ _ => ?_) ?_
    | with_reducible refine dite_keeps (fun _ => ?_) (fun _ => ?_)
    | with_reducible refine ite_fst (fun _ => ?_) (fun _ => ?_)
    | with_reducible refine ite_snd (fun _ => ?_) (fun _ => ?_)
    | with_reducible refine ite_snd2 (fun _ => ?_) (fun _ => ?_)
    | with_reducible refine ite_snd3 (fun _ => ?_) (fun _ => ?_)
    | with_reducible refine foldl_fst (fun _ _ _ => ?_) ?_
    | with_reducible refine foldl_snd (fun _ _ _ => ?_) ?_
    | with_reducible refine snd_of_eq (by assumption) ?_
    | with_reducible refine fst_of_eq (by assumption) ?_
    | with_reducible refine snd2_of_eq (by assumption) ?_
    | with_reducible intro _ _

theorem keeps_execClracc {P : State → Prop} (H : Closed P) (e : Fin 9) (acc : Fin 4) (s : State) (keep_s : P s) : ∀ s1, (execClracc e acc s) = .next s1 → P s1 := by
  unfold execClracc
  refine next_keeps ?_
  try dsimp only
  repeat' first
    | with_reducible assumption
    | with_reducible apply keeps_engStep H
    | with_reducible apply keeps_retire H

theorem keeps_extOp {P : State → Prop} (H : Closed P) (e : Fin 9) (rd : Fin 32) (f : Eng → Word × Bool) (s : State) (keep_s : P s) : P (extOp e rd f s) := by
  unfold extOp
  try dsimp only
  repeat' first
    | with_reducible assumption
    | with_reducible apply keeps_engStep H
    | with_reducible apply keeps_retire H
    | with_reducible refine ite_keeps (fun _ => ?_) (fun _ => ?_)
    | with_reducible refine foldl_keeps (fun _ _ _ => ?_) ?_
    | with_reducible refine dite_keeps (fun _ => ?_) (fun _ => ?_)
    | with_reducible refine ite_fst (fun _ => ?_) (fun _ => ?_)
    | with_reducible refine ite_snd (fun _ => ?_) (fun _ => ?_)
    | with_reducible refine ite_snd2 (fun _ => ?_) (fun _ => ?_)
    | with_reducible refine ite_snd3 (fun _ => ?_) (fun _ => ?_)
    | with_reducible refine foldl_fst (fun _ _ _ => ?_) ?_
    | with_reducible refine foldl_snd (fun _ _ _ => ?_) ?_
    | with_reducible refine snd_of_eq (by assumption) ?_
    | with_reducible refine fst_of_eq (by assumption) ?_
    | with_reducible refine snd2_of_eq (by assumption) ?_
    | with_reducible intro _ _

theorem keeps_execExt {P : State → Prop} (H : Closed P) (e : Fin 9) (acc : Fin 4) (sh : Fin 32) (rd : Fin 32) (s : State) (keep_s : P s) : ∀ s1, (execExt e acc sh rd s) = .next s1 → P s1 := by
  unfold execExt
  refine next_keeps ?_
  try dsimp only
  repeat' first
    | with_reducible assumption
    | with_reducible apply keeps_extOp H

theorem keeps_execExtr {P : State → Prop} (H : Closed P) (e : Fin 9) (acc : Fin 4) (sh : Fin 32) (rd : Fin 32) (s : State) (keep_s : P s) : ∀ s1, (execExtr e acc sh rd s) = .next s1 → P s1 := by
  unfold execExtr
  refine next_keeps ?_
  try dsimp only
  repeat' first
    | with_reducible assumption
    | with_reducible apply keeps_extOp H

theorem keeps_execMfacc {P : State → Prop} (H : Closed P) (e : Fin 9) (acc : Fin 4) (part : Fin 32) (rd : Fin 32) (s : State) (keep_s : P s) : ∀ s1, (execMfacc e acc part rd s) = .next s1 → P s1 := by
  unfold execMfacc
  refine next_keeps ?_
  try dsimp only
  repeat' first
    | with_reducible assumption
    | with_reducible apply keeps_engStep H
    | with_reducible apply keeps_illegal H
    | with_reducible apply keeps_retire H
    | with_reducible refine ite_keeps (fun _ => ?_) (fun _ => ?_)
    | with_reducible refine foldl_keeps (fun _ _ _ => ?_) ?_
    | with_reducible refine dite_keeps (fun _ => ?_) (fun _ => ?_)
    | with_reducible refine ite_fst (fun _ => ?_) (fun _ => ?_)
    | with_reducible refine ite_snd (fun _ => ?_) (fun _ => ?_)
    | with_reducible refine ite_snd2 (fun _ => ?_) (fun _ => ?_)
    | with_reducible refine ite_snd3 (fun _ => ?_) (fun _ => ?_)
    | with_reducible refine foldl_fst (fun _ _ _ => ?_) ?_
    | with_reducible refine foldl_snd (fun _ _ _ => ?_) ?_
    | with_reducible refine snd_of_eq (by assumption) ?_
    | with_reducible refine fst_of_eq (by assumption) ?_
    | with_reducible refine snd2_of_eq (by assumption) ?_
    | with_reducible intro _ _

theorem keeps_execMtacc {P : State → Prop} (H : Closed P) (e : Fin 9) (acc : Fin 4) (part : Fin 32) (ra : Fin 32) (s : State) (keep_s : P s) : ∀ s1, (execMtacc e acc part ra s) = .next s1 → P s1 := by
  unfold execMtacc
  refine next_keeps ?_
  try dsimp only
  repeat' first
    | with_reducible assumption
    | with_reducible apply keeps_engStep H
    | with_reducible apply keeps_illegal H
    | with_reducible apply keeps_retire H
    | with_reducible refine ite_keeps (fun _ => ?_) (fun _ => ?_)
    | with_reducible refine foldl_keeps (fun _ _ _ => ?_) ?_
    | with_reducible refine dite_keeps (fun _ => ?_) (fun _ => ?_)
    | with_reducible refine ite_fst (fun _ => ?_) (fun _ => ?_)
    | with_reducible refine ite_snd (fun _ => ?_) (fun _ => ?_)
    | with_reducible refine ite_snd2 (fun _ => ?_) (fun _ => ?_)
    | with_reducible refine ite_snd3 (fun _ => ?_) (fun _ => ?_)
    | with_reducible refine foldl_fst (fun _ _ _ => ?_) ?_
    | with_reducible refine foldl_snd (fun _ _ _ => ?_) ?_
    | with_reducible refine snd_of_eq (by assumption) ?_
    | with_reducible refine fst_of_eq (by assumption) ?_
    | with_reducible refine snd2_of_eq (by assumption) ?_
    | with_reducible intro _ _

theorem keeps_streamRead_2 {P : State → Prop} (H : Closed P) (e : Fin 9) (n : Fin 8) (s : State) (keep_s : P s) : P (streamRead e n s).2 := by
  unfold streamRead
  try dsimp only
  repeat' first
    | with_reducible assumption
    | with_reducible apply keeps_engRead_2 H
    | with_reducible apply keeps_State_setEng H
    | with_reducible refine ite_keeps (fun _ => ?_) (fun _ => ?_)
    | with_reducible refine foldl_keeps (fun _ _ _ => ?_) ?_
    | with_reducible refine dite_keeps (fun _ => ?_) (fun _ => ?_)
    | with_reducible refine ite_fst (fun _ => ?_) (fun _ => ?_)
    | with_reducible refine ite_snd (fun _ => ?_) (fun _ => ?_)
    | with_reducible refine ite_snd2 (fun _ => ?_) (fun _ => ?_)
    | with_reducible refine ite_snd3 (fun _ => ?_) (fun _ => ?_)
    | with_reducible refine foldl_fst (fun _ _ _ => ?_) ?_
    | with_reducible refine foldl_snd (fun _ _ _ => ?_) ?_
    | with_reducible refine snd_of_eq (by assumption) ?_
    | with_reducible refine fst_of_eq (by assumption) ?_
    | with_reducible refine snd2_of_eq (by assumption) ?_
    | with_reducible intro _ _
    | with_reducible intro _ _ _
    | split

theorem keeps_streamElem_2_2 {P : State → Prop} (H : Closed P) (e : Fin 9) (ax : Fin 8) (ay : Option (Fin 8)) (s : State) (keep_s : P s) : P (streamElem e ax ay s).2.2 := by
  unfold streamElem
  try dsimp only
  repeat' first
    | with_reducible assumption
    | with_reducible apply keeps_streamRead_2 H
    | with_reducible apply keeps_State_setEng H
    | with_reducible refine ite_keeps (fun _ => ?_) (fun _ => ?_)
    | with_reducible refine foldl_keeps (fun _ _ _ => ?_) ?_
    | with_reducible refine dite_keeps (fun _ => ?_) (fun _ => ?_)
    | with_reducible refine ite_fst (fun _ => ?_) (fun _ => ?_)
    | with_reducible refine ite_snd (fun _ => ?_) (fun _ => ?_)
    | with_reducible refine ite_snd2 (fun _ => ?_) (fun _ => ?_)
    | with_reducible refine ite_snd3 (fun _ => ?_) (fun _ => ?_)
    | with_reducible refine foldl_fst (fun _ _ _ => ?_) ?_
    | with_reducible refine foldl_snd (fun _ _ _ => ?_) ?_
    | with_reducible refine snd_of_eq (by assumption) ?_
    | with_reducible refine fst_of_eq (by assumption) ?_
    | with_reducible refine snd2_of_eq (by assumption) ?_
    | with_reducible intro _ _
    | with_reducible intro _ _ _
    | split

theorem keeps_streamRun_2_2_2 {P : State → Prop} (H : Closed P) {α : Type} (e : Fin 9) (ax : Fin 8) (ay : Option (Fin 8)) (f : Nat → Nat → Nat → α → α)
    (n : Nat) (j : Nat) (acc : α) (s : State) (keep_s : P s) : P (streamRun e ax ay f n j acc s).2.2.2 := by
  induction n generalizing j acc s with
  | zero => exact keep_s
  | succ k ih =>
    have hs := keeps_streamElem_2_2 H e ax ay s keep_s
    unfold streamRun
    generalize streamElem e ax ay s = x at hs ⊢
    obtain ⟨a, b, c⟩ := x
    cases a with
    | ok y => exact ih _ _ _ hs
    | exc => exact hs
    | stall => exact hs

theorem keeps_streamOp {P : State → Prop} (H : Closed P) {α : Type} (e : Fin 9) (ax : Fin 8) (ay : Option (Fin 8)) (rc : Fin 32) (cut : Nat) (init : Eng → Nat → α)
    (f : Nat → Nat → Nat → α → α) (none_ : List (Nat × EngWrite)) (fin : α → List (Nat × EngWrite)) (flags : α → Eng → Eng)
    (keep : α → Eng → Eng) (s : State) (keep_s : P s) : P (streamOp e ax ay rc cut init f none_ fin flags keep s) := by
  unfold streamOp
  dsimp only
  generalize (if s.mayCut e then min cut (s.eng[e].streamCount rc - s.eng[e].streamFrom) else s.eng[e].streamCount rc - s.eng[e].streamFrom) = n
  have hs := keeps_streamRun_2_2_2 H e ax ay f n s.eng[e].streamFrom (init s.eng[e] s.eng[e].streamFrom) s keep_s
  generalize streamRun e ax ay f n s.eng[e].streamFrom (init s.eng[e] s.eng[e].streamFrom) s = x at hs ⊢
  obtain ⟨j, a, r, u⟩ := x
  cases r with
  | done => exact ite_keeps (fun _ => keeps_retire H _ _ _ _ hs) (fun _ => keeps_State_setEng H _ _ _ hs)
  | exc => exact keeps_accessExc H _ _ _ _ _ (keeps_State_setEng H _ _ _ hs)
  | stall => exact keeps_State_setEng H _ _ _ hs

theorem keeps_smacOp {P : State → Prop} (H : Closed P) (e : Fin 9) (acc : Fin 4) (ax : Fin 8) (ay : Fin 8) (rc : Fin 32) (cj : Bool) (cut : ℕ) (s : State) (keep_s : P s) : P (smacOp e acc ax ay rc cj cut s) := by
  unfold smacOp
  try dsimp only
  repeat' first
    | with_reducible assumption
    | with_reducible apply keeps_streamOp H

theorem keeps_execSmac {P : State → Prop} (H : Closed P) (e : Fin 9) (acc : Fin 4) (ax : Fin 8) (ay : Fin 8) (rc : Fin 32) (cut : ℕ) (s : State) (keep_s : P s) : ∀ s1, (execSmac e acc ax ay rc cut s) = .next s1 → P s1 := by
  unfold execSmac
  refine next_keeps ?_
  try dsimp only
  repeat' first
    | with_reducible assumption
    | with_reducible apply keeps_engStep H
    | with_reducible apply keeps_smacOp H

theorem keeps_execSmacc {P : State → Prop} (H : Closed P) (e : Fin 9) (acc : Fin 4) (ax : Fin 8) (ay : Fin 8) (rc : Fin 32) (cut : ℕ) (s : State) (keep_s : P s) : ∀ s1, (execSmacc e acc ax ay rc cut s) = .next s1 → P s1 := by
  unfold execSmacc
  refine next_keeps ?_
  try dsimp only
  repeat' first
    | with_reducible assumption
    | with_reducible apply keeps_engStep H
    | with_reducible apply keeps_smacOp H

theorem keeps_searchOp {P : State → Prop} (H : Closed P) (e : Fin 9) (rd : Fin 32) (ax : Fin 8) (ay : Fin 8) (rc : Fin 32) (mode : Fin 16) (better : ℤ → ℤ → Bool) (cut : ℕ) (s : State) (keep_s : P s) : P (searchOp e rd ax ay rc mode better cut s) := by
  unfold searchOp
  try dsimp only
  repeat' first
    | with_reducible assumption
    | with_reducible apply keeps_illegal H
    | with_reducible apply keeps_streamOp H
    | with_reducible refine ite_keeps (fun _ => ?_) (fun _ => ?_)

theorem keeps_execSmax {P : State → Prop} (H : Closed P) (e : Fin 9) (rd : Fin 32) (ax : Fin 8) (ay : Fin 8) (rc : Fin 32) (mode : Fin 16) (cut : ℕ) (s : State) (keep_s : P s) : ∀ s1, (execSmax e rd ax ay rc mode cut s) = .next s1 → P s1 := by
  unfold execSmax
  refine next_keeps ?_
  try dsimp only
  repeat' first
    | with_reducible assumption
    | with_reducible apply keeps_engStep H
    | with_reducible apply keeps_searchOp H

theorem keeps_execSmin {P : State → Prop} (H : Closed P) (e : Fin 9) (rd : Fin 32) (ax : Fin 8) (ay : Fin 8) (rc : Fin 32) (mode : Fin 16) (cut : ℕ) (s : State) (keep_s : P s) : ∀ s1, (execSmin e rd ax ay rc mode cut s) = .next s1 → P s1 := by
  unfold execSmin
  refine next_keeps ?_
  try dsimp only
  repeat' first
    | with_reducible assumption
    | with_reducible apply keeps_engStep H
    | with_reducible apply keeps_searchOp H

end Sys2Proof.Machine
end

