-- ==== Sys2Proof/Laws/KeepsDma.lean ====
section
/-!
SUPPORT. Closed predicates are kept by every operation of these files.
-/

namespace Sys2Proof.Machine

theorem keeps_dmaXlat_2 {P : State → Prop} (H : Closed P) (h : Fin 8) (c : Fin 8) (write : Bool) (va : ℕ) (s : State) (keep_s : P s) : P (dmaXlat h c write va s).2 := by
  unfold dmaXlat
  try dsimp only
  repeat' first
    | with_reducible assumption
    | with_reducible apply keeps_translate_2 H
    | with_reducible refine ite_keeps (fun _ => ?_) (fun _ => ?_)
    | with_reducible refine foldl_keeps (fun _ _ _ => ?_) ?_
    | with_reducible refine dite_keeps (fun _ => ?_) (fun _ => ?_)
    | with_reducible refine ite_fst (fun _ => ?_) (fun _ => ?_)
    | with_reducible refine ite_snd (fun _ => ?_) (fun _ => ?_)

theorem keeps_dmaReads_2_2 {P : State → Prop} (H : Closed P) (r : Req) (x1 : List (ℕ × ℕ)) (x2 : State) (keep_x2 : P x2) : P (dmaReads r x1 x2).2.2 := by
  induction x1 generalizing x2 with
  | nil =>
    unfold dmaReads
    try dsimp only
    repeat' first
      | with_reducible assumption
  | cons b t ih =>
    unfold dmaReads
    try dsimp only
    repeat' first
      | with_reducible assumption
      | with_reducible apply ih
      | with_reducible apply keeps_busRead_2 H
      | with_reducible refine ite_keeps (fun _ => ?_) (fun _ => ?_)
      | with_reducible refine foldl_keeps (fun _ _ _ => ?_) ?_
      | with_reducible refine dite_keeps (fun _ => ?_) (fun _ => ?_)
      | with_reducible refine ite_fst (fun _ => ?_) (fun _ => ?_)
      | with_reducible refine ite_snd (fun _ => ?_) (fun _ => ?_)
      | with_reducible refine ite_snd2 (fun _ => ?_) (fun _ => ?_)
      | with_reducible refine ite_snd3 (fun _ => ?_) (fun _ => ?_)
      | with_reducible refine foldl_fst (fun _ _ _ => ?_) ?_
      | with_reducible refine foldl_snd (fun _ _ _ => ?_) ?_
      | with_reducible refine snd_of_eq (by assumption) ?_
      | with_reducible refine fst_of_eq (by assumption) ?_
      | with_reducible refine snd2_of_eq (by assumption) ?_
      | with_reducible intro _ _
      | with_reducible intro _ _ _
      | split

theorem keeps_dmaReadAll_2_2 {P : State → Prop} (H : Closed P) (r : Req) (x1 : List (ℕ × ℕ)) (x2 : State) (keep_x2 : P x2) : P (dmaReadAll r x1 x2).2.2 := by
  induction x1 generalizing x2 with
  | nil =>
    unfold dmaReadAll
    try dsimp only
    repeat' first
      | with_reducible assumption
  | cons b t ih =>
    unfold dmaReadAll
    try dsimp only
    repeat' first
      | with_reducible assumption
      | with_reducible apply ih
      | with_reducible apply keeps_busRead_2 H
      | with_reducible refine ite_keeps (fun _ => ?_) (fun _ => ?_)
      | with_reducible refine foldl_keeps (fun _ _ _ => ?_) ?_
      | with_reducible refine dite_keeps (fun _ => ?_) (fun _ => ?_)
      | with_reducible refine ite_fst (fun _ => ?_) (fun _ => ?_)
      | with_reducible refine ite_snd (fun _ => ?_) (fun _ => ?_)
      | with_reducible refine ite_snd2 (fun _ => ?_) (fun _ => ?_)
      | with_reducible refine ite_snd3 (fun _ => ?_) (fun _ => ?_)
      | with_reducible refine foldl_fst (fun _ _ _ => ?_) ?_
      | with_reducible refine foldl_snd (fun _ _ _ => ?_) ?_
      | with_reducible refine snd_of_eq (by assumption) ?_
      | with_reducible refine fst_of_eq (by assumption) ?_
      | with_reducible refine snd2_of_eq (by assumption) ?_
      | with_reducible intro _ _
      | with_reducible intro _ _ _
      | split

theorem keeps_State_dmaServed {P : State → Prop} (H : Closed P) (s : State) (h : Fin 8) (c : Fin 8) (keep_s : P s) : P (State.dmaServed s h c) := by
  unfold State.dmaServed
  try dsimp only
  repeat' first
    | with_reducible assumption
    | with_reducible refine ite_keeps (fun _ => ?_) (fun _ => ?_)
    | with_reducible refine foldl_keeps (fun _ _ _ => ?_) ?_
    | with_reducible refine dite_keeps (fun _ => ?_) (fun _ => ?_)
    | with_reducible refine ite_fst (fun _ => ?_) (fun _ => ?_)
    | with_reducible refine ite_snd (fun _ => ?_) (fun _ => ?_)
    | with_reducible refine ite_snd2 (fun _ => ?_) (fun _ => ?_)
    | with_reducible refine ite_snd3 (fun _ => ?_) (fun _ => ?_)
    | with_reducible refine foldl_fst (fun _ _ _ => ?_) ?_
    | with_reducible refine foldl_snd (fun _ _ _ => ?_) ?_
    | with_reducible refine snd_of_eq (by assumption) ?_
    | with_reducible refine fst_of_eq (by assumption) ?_
    | with_reducible refine snd2_of_eq (by assumption) ?_
    | with_reducible intro _ _
    | with_reducible intro _ _ _
    | split
    | dsimp only
    | with_reducible apply H.mk'

theorem keeps_dmaStop {P : State → Prop} (H : Closed P) (h : Fin 8) (c : Fin 8) (st : ℕ) (code : ℕ) (s : State) (keep_s : P s) : P (dmaStop h c st code s) := by
  unfold dmaStop
  try dsimp only
  repeat' first
    | with_reducible assumption
    | with_reducible apply keeps_State_setDma H
    | with_reducible apply keeps_State_put H
    | with_reducible apply keeps_State_setDmaSt H
    | with_reducible apply keeps_State_setBit H
    | with_reducible apply keeps_State_inc H
    | with_reducible apply keeps_State_raise H
    | with_reducible refine ite_keeps (fun _ => ?_) (fun _ => ?_)

theorem keeps_dmaFault {P : State → Prop} (H : Closed P) (h : Fin 8) (c : Fin 8) (write : Bool) (va : ℕ) (s : State) (keep_s : P s) : P (dmaFault h c write va s) := by
  unfold dmaFault
  try dsimp only
  repeat' first
    | with_reducible assumption
    | with_reducible apply keeps_State_put H

theorem keeps_dmaSuspend {P : State → Prop} (H : Closed P) (h : Fin 8) (c : Fin 8) (write : Bool) (code : ℕ) (va : ℕ) (info : ℕ) (s : State) (keep_s : P s) : P (dmaSuspend h c write code va info s) := by
  unfold dmaSuspend
  try dsimp only
  repeat' first
    | with_reducible assumption
    | with_reducible apply keeps_dmaStop H
    | with_reducible apply keeps_State_put H
    | with_reducible apply keeps_dmaFault H

theorem keeps_dmaHalt {P : State → Prop} (H : Closed P) (h : Fin 8) (c : Fin 8) (write : Bool) (code : ℕ) (va : ℕ) (s : State) (keep_s : P s) : P (dmaHalt h c write code va s) := by
  unfold dmaHalt
  try dsimp only
  repeat' first
    | with_reducible assumption
    | with_reducible apply keeps_dmaStop H
    | with_reducible apply keeps_dmaFault H

theorem keeps_dmaDescriptor {P : State → Prop} (H : Closed P) (h : Fin 8) (c : Fin 8) (w : List Word) (s : State) (keep_s : P s) : P (dmaDescriptor h c w s) := by
  unfold dmaDescriptor
  try dsimp only
  repeat' first
    | with_reducible assumption
    | with_reducible apply keeps_State_put H
    | with_reducible apply keeps_dmaStop H
    | with_reducible apply keeps_dmaPace H
    | with_reducible apply keeps_State_setDma H
    | with_reducible refine ite_keeps (fun _ => ?_) (fun _ => ?_)

theorem keeps_dmaFetch {P : State → Prop} (H : Closed P) (h : Fin 8) (c : Fin 8) (s : State) (keep_s : P s) : P (dmaFetch h c s) := by
  unfold dmaFetch
  try dsimp only
  repeat' first
    | with_reducible assumption
    | with_reducible apply keeps_State_put H
    | with_reducible apply keeps_State_dmaServed H
    | with_reducible apply keeps_dmaXlat_2 H
    | with_reducible apply keeps_dmaReadAll_2_2 H
    | with_reducible apply keeps_dmaDescriptor H
    | with_reducible apply keeps_dmaHalt H
    | with_reducible apply keeps_dmaSuspend H
    | with_reducible refine ite_keeps (fun _ => ?_) (fun _ => ?_)
    | with_reducible refine foldl_keeps (fun _ _ _ => ?_) ?_
    | with_reducible refine dite_keeps (fun _ => ?_) (fun _ => ?_)
    | with_reducible refine ite_fst (fun _ => ?_) (fun _ => ?_)
    | with_reducible refine ite_snd (fun _ => ?_) (fun _ => ?_)
    | with_reducible refine ite_snd2 (fun _ => ?_) (fun _ => ?_)
    | with_reducible refine ite_snd3 (fun _ => ?_) (fun _ => ?_)
    | with_reducible refine foldl_fst (fun _ _ _ => ?_) ?_
    | with_reducible refine foldl_snd (fun _ _ _ => ?_) ?_
    | with_reducible refine snd_of_eq (by assumption) ?_
    | with_reducible refine fst_of_eq (by assumption) ?_
    | with_reducible refine snd2_of_eq (by assumption) ?_
    | with_reducible intro _ _
    | with_reducible intro _ _ _
    | split

theorem keeps_dmaComplete {P : State → Prop} (H : Closed P) (h : Fin 8) (c : Fin 8) (s : State) (keep_s : P s) : P (dmaComplete h c s) := by
  unfold dmaComplete
  try dsimp only
  repeat' first
    | with_reducible assumption
    | with_reducible apply keeps_State_postEdge H
    | with_reducible apply keeps_State_setBit H
    | with_reducible apply keeps_State_setDma H
    | with_reducible apply keeps_State_stopDma H
    | with_reducible apply keeps_State_put H
    | with_reducible apply keeps_dmaStop H
    | with_reducible refine ite_keeps (fun _ => ?_) (fun _ => ?_)

theorem keeps_dmaWrites_2_2 {P : State → Prop} (H : Closed P) (r : Req) (x : DmaCh) (x2 : List (ℕ × ℕ × ℕ)) (x3 : State) (keep_x3 : P x3) : P (dmaWrites r x x2 x3).2.2 := by
  induction x2 generalizing x3 with
  | nil =>
    unfold dmaWrites
    try dsimp only
    repeat' first
      | with_reducible assumption
  | cons b t ih =>
    unfold dmaWrites
    try dsimp only
    repeat' first
      | with_reducible assumption
      | with_reducible apply ih
      | with_reducible apply keeps_busWrite_2 H
      | with_reducible refine ite_keeps (fun _ => ?_) (fun _ => ?_)
      | with_reducible refine foldl_keeps (fun _ _ _ => ?_) ?_
      | with_reducible refine dite_keeps (fun _ => ?_) (fun _ => ?_)
      | with_reducible refine ite_fst (fun _ => ?_) (fun _ => ?_)
      | with_reducible refine ite_snd (fun _ => ?_) (fun _ => ?_)
      | with_reducible refine ite_snd2 (fun _ => ?_) (fun _ => ?_)
      | with_reducible refine ite_snd3 (fun _ => ?_) (fun _ => ?_)
      | with_reducible refine foldl_fst (fun _ _ _ => ?_) ?_
      | with_reducible refine foldl_snd (fun _ _ _ => ?_) ?_
      | with_reducible refine snd_of_eq (by assumption) ?_
      | with_reducible refine fst_of_eq (by assumption) ?_
      | with_reducible refine snd2_of_eq (by assumption) ?_
      | with_reducible intro _ _
      | with_reducible intro _ _ _
      | split

theorem keeps_moveRing {P : State → Prop} (H : Closed P) (h : Fin 8) (c : Fin 8) (n : ℕ) (s : State) (keep_s : P s) : P (moveRing h c n s) := by
  unfold moveRing
  try dsimp only
  repeat' first
    | with_reducible assumption
    | with_reducible apply keeps_State_put H
    | with_reducible apply keeps_State_setDma H
    | with_reducible refine ite_keeps (fun _ => ?_) (fun _ => ?_)
    | with_reducible refine foldl_keeps (fun _ _ _ => ?_) ?_
    | with_reducible refine dite_keeps (fun _ => ?_) (fun _ => ?_)
    | with_reducible refine ite_fst (fun _ => ?_) (fun _ => ?_)
    | with_reducible refine ite_snd (fun _ => ?_) (fun _ => ?_)
    | with_reducible refine ite_snd2 (fun _ => ?_) (fun _ => ?_)
    | with_reducible refine ite_snd3 (fun _ => ?_) (fun _ => ?_)
    | with_reducible refine foldl_fst (fun _ _ _ => ?_) ?_
    | with_reducible refine foldl_snd (fun _ _ _ => ?_) ?_
    | with_reducible refine snd_of_eq (by assumption) ?_
    | with_reducible refine fst_of_eq (by assumption) ?_
    | with_reducible refine snd2_of_eq (by assumption) ?_
    | with_reducible intro _ _
    | with_reducible intro _ _ _
    | split

theorem keeps_dmaWritten {P : State → Prop} (H : Closed P) (h : Fin 8) (c : Fin 8) (m : ℕ) (failed : Option (ℕ × ℕ)) (s : State) (keep_s : P s) : P (dmaWritten h c m failed s) := by
  unfold dmaWritten
  try dsimp only
  repeat' first
    | with_reducible assumption
    | with_reducible apply keeps_moveRing H
    | with_reducible apply keeps_State_setDma H
    | with_reducible apply keeps_dmaPace H
    | with_reducible refine ite_keeps (fun _ => ?_) (fun _ => ?_)

theorem keeps_dmaWriteWith {P : State → Prop} (H : Closed P) (acc : ℕ → List (ℕ × ℕ × ℕ)) (h : Fin 8) (c : Fin 8) (s : State) (keep_s : P s) : P (dmaWriteWith acc h c s) := by
  unfold dmaWriteWith
  try dsimp only
  repeat' first
    | with_reducible assumption
    | with_reducible apply keeps_dmaXlat_2 H
    | with_reducible apply keeps_dmaWrites_2_2 H
    | with_reducible apply keeps_State_dmaServed H
    | with_reducible apply keeps_dmaWritten H
    | with_reducible apply keeps_dmaSuspend H
    | with_reducible apply keeps_dmaHalt H
    | with_reducible refine ite_keeps (fun _ => ?_) (fun _ => ?_)
    | with_reducible refine foldl_keeps (fun _ _ _ => ?_) ?_
    | with_reducible refine dite_keeps (fun _ => ?_) (fun _ => ?_)
    | with_reducible refine ite_fst (fun _ => ?_) (fun _ => ?_)
    | with_reducible refine ite_snd (fun _ => ?_) (fun _ => ?_)
    | with_reducible refine ite_snd2 (fun _ => ?_) (fun _ => ?_)
    | with_reducible refine ite_snd3 (fun _ => ?_) (fun _ => ?_)
    | with_reducible refine foldl_fst (fun _ _ _ => ?_) ?_
    | with_reducible refine foldl_snd (fun _ _ _ => ?_) ?_
    | with_reducible refine snd_of_eq (by assumption) ?_
    | with_reducible refine fst_of_eq (by assumption) ?_
    | with_reducible refine snd2_of_eq (by assumption) ?_
    | with_reducible intro _ _
    | with_reducible intro _ _ _
    | split

theorem keeps_dmaFlush {P : State → Prop} (H : Closed P) (h : Fin 8) (c : Fin 8) (act : State → State) (s : State) (keep_act : ∀ s0, P s0 → P (act s0)) (keep_s : P s) : P (dmaFlush h c act s) := by
  unfold dmaFlush
  try dsimp only
  repeat' first
    | with_reducible assumption
    | with_reducible apply keep_act
    | with_reducible apply keeps_dmaWriteWith H
    | with_reducible refine ite_keeps (fun _ => ?_) (fun _ => ?_)

theorem keeps_dmaWriteTransfer {P : State → Prop} (H : Closed P) (h : Fin 8) (c : Fin 8) (s : State) (keep_s : P s) : P (dmaWriteTransfer h c s) := by
  unfold dmaWriteTransfer
  try dsimp only
  repeat' first
    | with_reducible assumption
    | with_reducible (exact fun _ h => h)
    | with_reducible (unfold id; assumption)
    | with_reducible apply keeps_dmaWriteWith H
    | with_reducible apply keeps_dmaFlush H
    | with_reducible refine ite_keeps (fun _ => ?_) (fun _ => ?_)
    | with_reducible refine foldl_keeps (fun _ _ _ => ?_) ?_
    | with_reducible refine dite_keeps (fun _ => ?_) (fun _ => ?_)
    | with_reducible refine ite_fst (fun _ => ?_) (fun _ => ?_)
    | with_reducible refine ite_snd (fun _ => ?_) (fun _ => ?_)
    | with_reducible refine ite_snd2 (fun _ => ?_) (fun _ => ?_)
    | with_reducible refine ite_snd3 (fun _ => ?_) (fun _ => ?_)
    | with_reducible refine foldl_fst (fun _ _ _ => ?_) ?_
    | with_reducible refine foldl_snd (fun _ _ _ => ?_) ?_
    | with_reducible refine snd_of_eq (by assumption) ?_
    | with_reducible refine fst_of_eq (by assumption) ?_
    | with_reducible refine snd2_of_eq (by assumption) ?_
    | with_reducible intro _ _

theorem keeps_dmaReadTransfer {P : State → Prop} (H : Closed P) (h : Fin 8) (c : Fin 8) (s : State) (keep_s : P s) : P (dmaReadTransfer h c s) := by
  unfold dmaReadTransfer
  try dsimp only
  repeat' first
    | with_reducible assumption
    | with_reducible apply keeps_dmaFlush H
    | with_reducible apply keeps_dmaHalt H
    | with_reducible apply keeps_State_dmaServed H
    | with_reducible apply keeps_dmaXlat_2 H
    | with_reducible apply keeps_dmaReads_2_2 H
    | with_reducible apply keeps_State_setDma H
    | with_reducible apply keeps_dmaSuspend H
    | with_reducible refine ite_keeps (fun _ => ?_) (fun _ => ?_)
    | with_reducible refine foldl_keeps (fun _ _ _ => ?_) ?_
    | with_reducible refine dite_keeps (fun _ => ?_) (fun _ => ?_)
    | with_reducible refine ite_fst (fun _ => ?_) (fun _ => ?_)
    | with_reducible refine ite_snd (fun _ => ?_) (fun _ => ?_)
    | with_reducible refine ite_snd2 (fun _ => ?_) (fun _ => ?_)
    | with_reducible refine ite_snd3 (fun _ => ?_) (fun _ => ?_)
    | with_reducible refine foldl_fst (fun _ _ _ => ?_) ?_
    | with_reducible refine foldl_snd (fun _ _ _ => ?_) ?_
    | with_reducible refine snd_of_eq (by assumption) ?_
    | with_reducible refine fst_of_eq (by assumption) ?_
    | with_reducible refine snd2_of_eq (by assumption) ?_
    | with_reducible intro _ _
    | with_reducible intro _ _ _
    | split

theorem keeps_dmaTransfer {P : State → Prop} (H : Closed P) (h : Fin 8) (c : Fin 8) (write : Bool) (s : State) (keep_s : P s) : P (dmaTransfer h c write s) := by
  unfold dmaTransfer
  try dsimp only
  repeat' first
    | with_reducible assumption
    | with_reducible apply keeps_State_setDmaSt H
    | with_reducible apply keeps_dmaWriteTransfer H
    | with_reducible apply keeps_dmaReadTransfer H
    | with_reducible refine ite_keeps (fun _ => ?_) (fun _ => ?_)

theorem keeps_dmaWriteError {P : State → Prop} (H : Closed P) (h : Fin 8) (c : Fin 8) (s : State) (keep_s : P s) : P (dmaWriteError h c s) := by
  unfold dmaWriteError
  try dsimp only
  repeat' first
    | with_reducible assumption
    | with_reducible apply keeps_dmaHalt H
    | with_reducible apply keeps_State_stopDma H
    | with_reducible refine ite_keeps (fun _ => ?_) (fun _ => ?_)
    | with_reducible refine foldl_keeps (fun _ _ _ => ?_) ?_
    | with_reducible refine dite_keeps (fun _ => ?_) (fun _ => ?_)
    | with_reducible refine ite_fst (fun _ => ?_) (fun _ => ?_)
    | with_reducible refine ite_snd (fun _ => ?_) (fun _ => ?_)
    | with_reducible refine ite_snd2 (fun _ => ?_) (fun _ => ?_)
    | with_reducible refine ite_snd3 (fun _ => ?_) (fun _ => ?_)
    | with_reducible refine foldl_fst (fun _ _ _ => ?_) ?_
    | with_reducible refine foldl_snd (fun _ _ _ => ?_) ?_
    | with_reducible refine snd_of_eq (by assumption) ?_
    | with_reducible refine fst_of_eq (by assumption) ?_
    | with_reducible refine snd2_of_eq (by assumption) ?_
    | with_reducible intro _ _
    | with_reducible intro _ _ _
    | split

theorem keeps_edgeTo {P : State → Prop} (H : Closed P) (trig : ℕ) (hm : ℕ) (arg : ℕ) (h : Fin 8) (c : Fin 8) (s : State) (keep_s : P s) : P (edgeTo trig hm arg h c s) := by
  unfold edgeTo
  try dsimp only
  repeat' first
    | with_reducible assumption
    | with_reducible apply keeps_dmaTrigger H
    | with_reducible apply keeps_State_inc H
    | with_reducible refine ite_keeps (fun _ => ?_) (fun _ => ?_)

theorem keeps_dmaEdge {P : State → Prop} (H : Closed P) (s : State) (keep_s : P s) : P (dmaEdge s) := by
  unfold dmaEdge
  try dsimp only
  repeat' first
    | with_reducible assumption
    | with_reducible apply keeps_edgeTo H
    | with_reducible refine ite_keeps (fun _ => ?_) (fun _ => ?_)
    | with_reducible refine foldl_keeps (fun _ _ _ => ?_) ?_
    | with_reducible refine dite_keeps (fun _ => ?_) (fun _ => ?_)
    | with_reducible refine ite_fst (fun _ => ?_) (fun _ => ?_)
    | with_reducible refine ite_snd (fun _ => ?_) (fun _ => ?_)
    | with_reducible refine ite_snd2 (fun _ => ?_) (fun _ => ?_)
    | with_reducible refine ite_snd3 (fun _ => ?_) (fun _ => ?_)
    | with_reducible refine foldl_fst (fun _ _ _ => ?_) ?_
    | with_reducible refine foldl_snd (fun _ _ _ => ?_) ?_
    | with_reducible refine snd_of_eq (by assumption) ?_
    | with_reducible refine fst_of_eq (by assumption) ?_
    | with_reducible refine snd2_of_eq (by assumption) ?_
    | with_reducible intro _ _
    | with_reducible intro _ _ _
    | split
    | dsimp only
    | with_reducible apply H.mk'

theorem keeps_dmaRingRequest {P : State → Prop} (H : Closed P) (h : Fin 8) (c : Fin 8) (s : State) (keep_s : P s) : P (dmaRingRequest h c s) := by
  unfold dmaRingRequest
  try dsimp only
  repeat' first
    | with_reducible assumption
    | with_reducible apply keeps_State_setDmaSt H
    | with_reducible refine ite_keeps (fun _ => ?_) (fun _ => ?_)

theorem keeps_execDmaGo {P : State → Prop} (H : Closed P) (r : Req) (h : Fin 8) (c : Fin 8) (v : Word) (s : State) (keep_s : P s) : ∀ s1, (execDmaGo r h c v s) = .next s1 → P s1 := by
  unfold execDmaGo
  refine next_keeps ?_
  try dsimp only
  repeat' first
    | with_reducible assumption
    | with_reducible apply keeps_regCmd H
    | with_reducible apply keeps_dmaWrite H

theorem keeps_execDmaAbort {P : State → Prop} (H : Closed P) (r : Req) (h : Fin 8) (c : Fin 8) (v : Word) (s : State) (keep_s : P s) : ∀ s1, (execDmaAbort r h c v s) = .next s1 → P s1 := by
  unfold execDmaAbort
  refine next_keeps ?_
  try dsimp only
  repeat' first
    | with_reducible assumption
    | with_reducible apply keeps_regCmd H
    | with_reducible apply keeps_dmaWrite H

theorem keeps_execDmaResume {P : State → Prop} (H : Closed P) (r : Req) (h : Fin 8) (c : Fin 8) (v : Word) (s : State) (keep_s : P s) : ∀ s1, (execDmaResume r h c v s) = .next s1 → P s1 := by
  unfold execDmaResume
  refine next_keeps ?_
  try dsimp only
  repeat' first
    | with_reducible assumption
    | with_reducible apply keeps_regCmd H
    | with_reducible apply keeps_dmaWrite H

theorem keeps_execDmaStrig {P : State → Prop} (H : Closed P) (r : Req) (h : Fin 8) (c : Fin 8) (v : Word) (s : State) (keep_s : P s) : ∀ s1, (execDmaStrig r h c v s) = .next s1 → P s1 := by
  unfold execDmaStrig
  refine next_keeps ?_
  try dsimp only
  repeat' first
    | with_reducible assumption
    | with_reducible apply keeps_regCmd H
    | with_reducible apply keeps_dmaWrite H

theorem keeps_execDmaStopall {P : State → Prop} (H : Closed P) (r : Req) (h : Fin 8) (v : Word) (s : State) (keep_s : P s) : ∀ s1, (execDmaStopall r h v s) = .next s1 → P s1 := by
  unfold execDmaStopall
  refine next_keeps ?_
  try dsimp only
  repeat' first
    | with_reducible assumption
    | with_reducible apply keeps_regCmd H
    | with_reducible apply keeps_dmaWrite H

theorem keeps_execDmaEdgeTrigger {P : State → Prop} (H : Closed P) (s : State) (keep_s : P s) : ∀ s1, (execDmaEdgeTrigger s) = .next s1 → P s1 := by
  unfold execDmaEdgeTrigger
  refine next_keeps ?_
  try dsimp only
  repeat' first
    | with_reducible assumption
    | with_reducible apply keeps_dmaEdge H

theorem keeps_execDmaRingRequest {P : State → Prop} (H : Closed P) (h : Fin 8) (c : Fin 8) (s : State) (keep_s : P s) : ∀ s1, (execDmaRingRequest h c s) = .next s1 → P s1 := by
  unfold execDmaRingRequest
  refine next_keeps ?_
  try dsimp only
  repeat' first
    | with_reducible assumption
    | with_reducible apply keeps_dmaRingRequest H

theorem keeps_execDmaDescriptorFetch {P : State → Prop} (H : Closed P) (h : Fin 8) (c : Fin 8) (s : State) (keep_s : P s) : ∀ s1, (execDmaDescriptorFetch h c s) = .next s1 → P s1 := by
  unfold execDmaDescriptorFetch
  refine next_keeps ?_
  try dsimp only
  repeat' first
    | with_reducible assumption
    | with_reducible apply keeps_dmaFetch H

theorem keeps_execDmaTransfer {P : State → Prop} (H : Closed P) (h : Fin 8) (c : Fin 8) (write : Bool) (s : State) (keep_s : P s) : ∀ s1, (execDmaTransfer h c write s) = .next s1 → P s1 := by
  unfold execDmaTransfer
  refine next_keeps ?_
  try dsimp only
  repeat' first
    | with_reducible assumption
    | with_reducible apply keeps_dmaTransfer H

theorem keeps_execDmaWriteError {P : State → Prop} (H : Closed P) (h : Fin 8) (c : Fin 8) (s : State) (keep_s : P s) : ∀ s1, (execDmaWriteError h c s) = .next s1 → P s1 := by
  unfold execDmaWriteError
  refine next_keeps ?_
  try dsimp only
  repeat' first
    | with_reducible assumption
    | with_reducible apply keeps_dmaWriteError H

theorem keeps_execDmaDescriptorComplete {P : State → Prop} (H : Closed P) (h : Fin 8) (c : Fin 8) (s : State) (keep_s : P s) : ∀ s1, (execDmaDescriptorComplete h c s) = .next s1 → P s1 := by
  unfold execDmaDescriptorComplete
  refine next_keeps ?_
  try dsimp only
  repeat' first
    | with_reducible assumption
    | with_reducible apply keeps_dmaComplete H

end Sys2Proof.Machine
end

