-- ==== Sys2Proof/Laws/KeepsControl.lean ====
section
/-!
SUPPORT. Closed predicates are kept by every operation of these files.
-/

namespace Sys2Proof.Machine

theorem keeps_execRegisterWrite {P : State → Prop} (H : Closed P) (r : Req) (a : ℕ) (v : Word) (s : State) (keep_s : P s) : ∀ s1, (execRegisterWrite r a v s) = .next s1 → P s1 := by
  unfold execRegisterWrite
  refine next_keeps ?_
  try dsimp only
  repeat' first
    | with_reducible assumption
    | with_reducible apply keeps_regCmd H
    | with_reducible apply keeps_thawed H
    | with_reducible apply keeps_regWrite H
    | with_reducible refine ite_keeps (fun _ => ?_) (fun _ => ?_)
    | with_reducible refine foldl_keeps (fun _ _ _ => ?_) ?_
    | with_reducible refine dite_keeps (fun _ => ?_) (fun _ => ?_)
    | with_reducible refine ite_fst (fun _ => ?_) (fun _ => ?_)
    | with_reducible refine ite_snd (fun _ => ?_) (fun _ => ?_)
    | with_reducible refine ite_snd2 (fun _ => ?_) (fun _ => ?_)
    | with_reducible refine ite_snd3 (fun _ => ?_) (fun _ => ?_)
    | with_reducible refine foldl_fst (fun _ _ _ => ?_) ?_
    | with_reducible refine foldl_snd (fun _ _ _ => ?_) ?_
    | with_reducible refine snd_of_eq (by assumption) ?_
    | with_reducible refine fst_of_eq (by assumption) ?_
    | with_reducible refine snd2_of_eq (by assumption) ?_
    | with_reducible intro _ _

theorem keeps_execArbFreeze {P : State → Prop} (H : Closed P) (r : Req) (h : Fin 8) (v : Word) (s : State) (keep_s : P s) : ∀ s1, (execArbFreeze r h v s) = .next s1 → P s1 := by
  unfold execArbFreeze
  refine next_keeps ?_
  try dsimp only
  repeat' first
    | with_reducible assumption
    | with_reducible apply keeps_regCmd H
    | with_reducible apply keeps_thawed H
    | with_reducible apply keeps_freezeWrite H
    | with_reducible refine ite_keeps (fun _ => ?_) (fun _ => ?_)
    | with_reducible refine foldl_keeps (fun _ _ _ => ?_) ?_
    | with_reducible refine dite_keeps (fun _ => ?_) (fun _ => ?_)
    | with_reducible refine ite_fst (fun _ => ?_) (fun _ => ?_)
    | with_reducible refine ite_snd (fun _ => ?_) (fun _ => ?_)
    | with_reducible refine ite_snd2 (fun _ => ?_) (fun _ => ?_)
    | with_reducible refine ite_snd3 (fun _ => ?_) (fun _ => ?_)
    | with_reducible refine foldl_fst (fun _ _ _ => ?_) ?_
    | with_reducible refine foldl_snd (fun _ _ _ => ?_) ?_
    | with_reducible refine snd_of_eq (by assumption) ?_
    | with_reducible refine fst_of_eq (by assumption) ?_
    | with_reducible refine snd2_of_eq (by assumption) ?_
    | with_reducible intro _ _

theorem keeps_execBfmCopyDone {P : State → Prop} (H : Closed P) (h : Fin 8) (s : State) (keep_s : P s) : ∀ s1, (execBfmCopyDone h s) = .next s1 → P s1 := by
  unfold execBfmCopyDone
  refine next_keeps ?_
  try dsimp only
  repeat' first
    | with_reducible assumption
    | with_reducible apply keeps_releaseWaiting H
    | with_reducible apply keeps_endBeamCopy H
    | with_reducible refine ite_keeps (fun _ => ?_) (fun _ => ?_)
    | with_reducible refine foldl_keeps (fun _ _ _ => ?_) ?_
    | with_reducible refine dite_keeps (fun _ => ?_) (fun _ => ?_)
    | with_reducible refine ite_fst (fun _ => ?_) (fun _ => ?_)
    | with_reducible refine ite_snd (fun _ => ?_) (fun _ => ?_)
    | with_reducible refine ite_snd2 (fun _ => ?_) (fun _ => ?_)
    | with_reducible refine ite_snd3 (fun _ => ?_) (fun _ => ?_)
    | with_reducible refine foldl_fst (fun _ _ _ => ?_) ?_
    | with_reducible refine foldl_snd (fun _ _ _ => ?_) ?_
    | with_reducible refine snd_of_eq (by assumption) ?_
    | with_reducible refine fst_of_eq (by assumption) ?_
    | with_reducible refine snd2_of_eq (by assumption) ?_
    | with_reducible intro _ _
    | with_reducible intro _ _ _
    | split

theorem keeps_execRowRemap {P : State → Prop} (H : Closed P) (k : Fin 10) (s : State) (keep_s : P s) : ∀ s1, (execRowRemap k s) = .next s1 → P s1 := by
  unfold execRowRemap
  refine next_keeps ?_
  try dsimp only
  repeat' first
    | with_reducible assumption
    | with_reducible apply keeps_endCopy H
    | with_reducible apply keeps_drainFifo H
    | with_reducible apply keeps_releaseWaiting H
    | with_reducible apply keeps_releaseVectors H
    | with_reducible refine ite_keeps (fun _ => ?_) (fun _ => ?_)
    | with_reducible refine foldl_keeps (fun _ _ _ => ?_) ?_
    | with_reducible refine dite_keeps (fun _ => ?_) (fun _ => ?_)

theorem keeps_execCounterReadClear {P : State → Prop} (H : Closed P) (r : Req) (a : ℕ) (events : ℕ) (s : State) (keep_s : P s) : ∀ s1, (execCounterReadClear r a events s) = .next s1 → P s1 := by
  unfold execCounterReadClear
  refine next_keeps ?_
  try dsimp only
  repeat' first
    | with_reducible assumption
    | with_reducible apply keeps_readCmd H
    | with_reducible apply keeps_regRead_2 H

theorem keeps_execBlockLock {P : State → Prop} (H : Closed P) (r : Req) (a : ℕ) (v : Word) (s : State) (keep_s : P s) : ∀ s1, (execBlockLock r a v s) = .next s1 → P s1 := by
  unfold execBlockLock
  refine next_keeps ?_
  try dsimp only
  repeat' first
    | with_reducible assumption
    | with_reducible apply keeps_regCmd H
    | with_reducible apply keeps_lockRegWrite H

theorem keeps_restoreEnds {P : State → Prop} (H : Closed P) (h : Fin 8) (k : ℕ) (s : State) (keep_s : P s) : P (restoreEnds h k s) := by
  unfold restoreEnds
  try dsimp only
  repeat' first
    | with_reducible assumption
    | with_reducible apply keeps_State_raise H
    | with_reducible apply keeps_State_setBit H

theorem keeps_writeDone_2 {P : State → Prop} (_ : Closed P) (x : BusRes × State) (keep_x : P x.2) : P (writeDone x).2 := by
  obtain ⟨r, s⟩ := x
  cases r <;> exact keep_x

theorem keeps_restoreEntry_2 {P : State → Prop} (H : Closed P) (h : Fin 8) (base : ℕ) (k : ℕ) (s : State) (keep_s : P s) : P (restoreEntry h base k s).2 := by
  unfold restoreEntry
  try dsimp only
  repeat' first
    | with_reducible assumption
    | with_reducible apply keeps_State_checkRead_1 H
    | with_reducible apply keeps_writeDone_2 H
    | with_reducible apply keeps_busWrite_2 H
    | with_reducible refine ite_keeps (fun _ => ?_) (fun _ => ?_)
    | with_reducible refine foldl_keeps (fun _ _ _ => ?_) ?_
    | with_reducible refine dite_keeps (fun _ => ?_) (fun _ => ?_)
    | with_reducible refine ite_fst (fun _ => ?_) (fun _ => ?_)
    | with_reducible refine ite_snd (fun _ => ?_) (fun _ => ?_)

theorem keeps_restoreFrom {P : State → Prop} (H : Closed P) (h : Fin 8) (base : ℕ) (x2 : ℕ) (x3 : ℕ) (x4 : State) (keep_x4 : P x4) : P (restoreFrom h base x2 x3 x4) := by
  induction x2 generalizing x3 x4 with
  | zero =>
    unfold restoreFrom
    try dsimp only
    repeat' first
      | with_reducible assumption
  | succ k ih =>
    unfold restoreFrom
    try dsimp only
    repeat' first
      | with_reducible assumption
      | with_reducible apply ih
      | with_reducible apply keeps_restoreEntry_2 H
      | with_reducible apply keeps_restoreEnds H
      | with_reducible refine ite_keeps (fun _ => ?_) (fun _ => ?_)

theorem keeps_restoreList {P : State → Prop} (H : Closed P) (h : Fin 8) (s : State) (keep_s : P s) : P (restoreList h s) := by
  unfold restoreList
  try dsimp only
  repeat' first
    | with_reducible assumption
    | with_reducible apply keeps_State_thaw H
    | with_reducible apply keeps_restoreFrom H
    | with_reducible apply keeps_State_put H
    | with_reducible apply keeps_State_freeze H
    | with_reducible apply keeps_releaseVectors H

theorem keeps_wakeRetained {P : State → Prop} (H : Closed P) (h : Fin 8) (s : State) (keep_s : P s) : P (wakeRetained h s) := by
  unfold wakeRetained
  try dsimp only
  repeat' first
    | with_reducible assumption
    | with_reducible apply keeps_endPowerWait H
    | with_reducible apply keeps_ownedLevels H
    | with_reducible apply keeps_domainUp H
    | with_reducible apply keeps_wakeReady H
    | with_reducible apply keeps_startAcq H
    | with_reducible refine ite_keeps (fun _ => ?_) (fun _ => ?_)

theorem keeps_wakeRestore {P : State → Prop} (H : Closed P) (h : Fin 8) (s : State) (keep_s : P s) : P (wakeRestore h s) := by
  unfold wakeRestore
  try dsimp only
  repeat' first
    | with_reducible assumption
    | with_reducible apply keeps_biasDomain H
    | with_reducible apply keeps_darkHamlet H
    | with_reducible apply keeps_domainUp H
    | with_reducible apply keeps_startAcq H
    | with_reducible apply keeps_State_put H
    | with_reducible apply keeps_restoreList H

theorem keeps_wakeAtLock {P : State → Prop} (H : Closed P) (h : Fin 8) (w : Option ℕ) (s : State) (keep_s : P s) : P (wakeAtLock h w s) := by
  unfold wakeAtLock
  try dsimp only
  repeat' first
    | with_reducible assumption
    | with_reducible apply keeps_State_setHpow H
    | with_reducible apply keeps_State_setHstate H
    | with_reducible apply keeps_State_put H
    | with_reducible apply keeps_endAcq H
    | with_reducible apply keeps_wakeReady H
    | with_reducible apply keeps_State_setPll H
    | with_reducible refine ite_keeps (fun _ => ?_) (fun _ => ?_)
    | with_reducible refine foldl_keeps (fun _ _ _ => ?_) ?_
    | with_reducible refine dite_keeps (fun _ => ?_) (fun _ => ?_)
    | with_reducible refine ite_fst (fun _ => ?_) (fun _ => ?_)
    | with_reducible refine ite_snd (fun _ => ?_) (fun _ => ?_)
    | with_reducible refine ite_snd2 (fun _ => ?_) (fun _ => ?_)
    | with_reducible refine ite_snd3 (fun _ => ?_) (fun _ => ?_)
    | with_reducible refine foldl_fst (fun _ _ _ => ?_) ?_
    | with_reducible refine foldl_snd (fun _ _ _ => ?_) ?_
    | with_reducible refine snd_of_eq (by assumption) ?_
    | with_reducible refine fst_of_eq (by assumption) ?_
    | with_reducible refine snd2_of_eq (by assumption) ?_
    | with_reducible intro _ _
    | with_reducible intro _ _ _
    | split

theorem keeps_wakeFromOff {P : State → Prop} (H : Closed P) (h : Fin 8) (s : State) (keep_s : P s) : P (wakeFromOff h s) := by
  unfold wakeFromOff
  try dsimp only
  repeat' first
    | with_reducible assumption
    | with_reducible apply keeps_wakeAtLock H
    | with_reducible apply keeps_wakeRestore H

theorem keeps_execHamletWakeReady {P : State → Prop} (H : Closed P) (h : Fin 8) (t : ℕ) (s : State) (keep_s : P s) : ∀ s1, (execHamletWakeReady h t s) = .next s1 → P s1 := by
  unfold execHamletWakeReady
  refine next_keeps ?_
  try dsimp only
  repeat' first
    | with_reducible assumption
    | with_reducible apply keeps_State_at H
    | with_reducible apply keeps_wakeRetained H
    | with_reducible apply keeps_wakeFromOff H
    | with_reducible refine ite_keeps (fun _ => ?_) (fun _ => ?_)
    | with_reducible refine foldl_keeps (fun _ _ _ => ?_) ?_
    | with_reducible refine dite_keeps (fun _ => ?_) (fun _ => ?_)
    | with_reducible refine ite_fst (fun _ => ?_) (fun _ => ?_)
    | with_reducible refine ite_snd (fun _ => ?_) (fun _ => ?_)
    | with_reducible refine ite_snd2 (fun _ => ?_) (fun _ => ?_)
    | with_reducible refine ite_snd3 (fun _ => ?_) (fun _ => ?_)
    | with_reducible refine foldl_fst (fun _ _ _ => ?_) ?_
    | with_reducible refine foldl_snd (fun _ _ _ => ?_) ?_
    | with_reducible refine snd_of_eq (by assumption) ?_
    | with_reducible refine fst_of_eq (by assumption) ?_
    | with_reducible refine snd2_of_eq (by assumption) ?_
    | with_reducible intro _ _
    | with_reducible intro _ _ _
    | split

theorem keeps_bistIdle {P : State → Prop} (H : Closed P) (s : State) (keep_s : P s) : P (bistIdle s) := by
  unfold bistIdle
  try dsimp only
  repeat' first
    | with_reducible assumption
    | with_reducible apply keeps_State_put H
    | with_reducible apply keeps_State_setBist H

theorem keeps_bistHamletEnd {P : State → Prop} (H : Closed P) (h : Fin 8) (s : State) (keep_s : P s) : P (bistHamletEnd h s) := by
  unfold bistHamletEnd
  try dsimp only
  repeat' first
    | with_reducible assumption
    | with_reducible apply keeps_hamletReset H
    | with_reducible apply keeps_State_setBist H
    | with_reducible apply keeps_bistIdle H
    | with_reducible apply keeps_restoreList H
    | with_reducible apply keeps_State_raise H
    | with_reducible refine ite_keeps (fun _ => ?_) (fun _ => ?_)

theorem keeps_bistReeveEnd {P : State → Prop} (H : Closed P) (s : State) (keep_s : P s) : P (bistReeveEnd s) := by
  unfold bistReeveEnd
  try dsimp only
  repeat' first
    | with_reducible assumption
    | with_reducible apply keeps_bistIdle H
    | with_reducible apply keeps_State_wrAll H
    | with_reducible apply keeps_State_wr H
    | with_reducible apply keeps_bootCount H
    | with_reducible refine ite_keeps (fun _ => ?_) (fun _ => ?_)
    | with_reducible refine foldl_keeps (fun _ _ _ => ?_) ?_
    | with_reducible refine dite_keeps (fun _ => ?_) (fun _ => ?_)
    | with_reducible refine ite_fst (fun _ => ?_) (fun _ => ?_)
    | with_reducible refine ite_snd (fun _ => ?_) (fun _ => ?_)
    | with_reducible refine ite_snd2 (fun _ => ?_) (fun _ => ?_)
    | with_reducible refine ite_snd3 (fun _ => ?_) (fun _ => ?_)
    | with_reducible refine foldl_fst (fun _ _ _ => ?_) ?_
    | with_reducible refine foldl_snd (fun _ _ _ => ?_) ?_
    | with_reducible refine snd_of_eq (by assumption) ?_
    | with_reducible refine fst_of_eq (by assumption) ?_
    | with_reducible refine snd2_of_eq (by assumption) ?_
    | with_reducible intro _ _
    | with_reducible intro _ _ _
    | split
    | dsimp only
    | with_reducible apply H.mk'

theorem keeps_execBistEnd {P : State → Prop} (H : Closed P) (t : ℕ) (s : State) (keep_s : P s) : ∀ s1, (execBistEnd t s) = .next s1 → P s1 := by
  unfold execBistEnd
  refine next_keeps ?_
  try dsimp only
  repeat' first
    | with_reducible assumption
    | with_reducible apply keeps_State_at H
    | with_reducible apply keeps_bistIdle H
    | with_reducible apply keeps_bistHamletEnd H
    | with_reducible apply keeps_bistReeveEnd H
    | with_reducible refine ite_keeps (fun _ => ?_) (fun _ => ?_)
    | with_reducible refine foldl_keeps (fun _ _ _ => ?_) ?_
    | with_reducible refine dite_keeps (fun _ => ?_) (fun _ => ?_)
    | with_reducible refine ite_fst (fun _ => ?_) (fun _ => ?_)
    | with_reducible refine ite_snd (fun _ => ?_) (fun _ => ?_)
    | with_reducible refine ite_snd2 (fun _ => ?_) (fun _ => ?_)
    | with_reducible refine ite_snd3 (fun _ => ?_) (fun _ => ?_)
    | with_reducible refine foldl_fst (fun _ _ _ => ?_) ?_
    | with_reducible refine foldl_snd (fun _ _ _ => ?_) ?_
    | with_reducible refine snd_of_eq (by assumption) ?_
    | with_reducible refine fst_of_eq (by assumption) ?_
    | with_reducible refine snd2_of_eq (by assumption) ?_
    | with_reducible intro _ _
    | with_reducible intro _ _ _
    | split

end Sys2Proof.Machine
end

