-- ==== Sys2Proof/Laws/KeepsExec.lean ====
section
/-!
SUPPORT. Every command keeps what the primitive operations keep.
-/

namespace Sys2Proof.Machine

/-- A closed predicate is kept by every command that answers a next state. -/
theorem keeps_exec {P : State → Prop} (H : Closed P) (i : Instr) (s t : State) (hs : P s) (h : exec i s = .next t) : P t := by
  cases i with
  | registerWrite => exact keeps_execRegisterWrite H _ _ _ _ hs _ h
  | counterReadClear => exact keeps_execCounterReadClear H _ _ _ _ hs _ h
  | blockLock => exact keeps_execBlockLock H _ _ _ _ hs _ h
  | carrierCommitGo => exact keeps_execCarrierCommitGo H _ _ _ hs _ h
  | carrierCommitTakeEffect => exact keeps_execCarrierCommitTakeEffect H _ hs _ h
  | rtcMessage => exact keeps_execRtcMessage H _ _ _ _ hs _ h
  | explicitWeightMessage => exact keeps_execExplicitWeightMessage H _ _ _ _ hs _ h
  | weightBankClear => exact keeps_execWeightBankClear H _ _ hs _ h
  | weightRefcarChange => exact keeps_execWeightRefcarChange H _ hs _ h
  | bfmCommitGo => exact keeps_execBfmCommitGo H _ _ _ _ hs _ h
  | bfmCommitInstant => exact keeps_execBfmCommitInstant H _ _ hs _ h
  | bfmCopyDone => exact keeps_execBfmCopyDone H _ _ hs _ h
  | bfmBasesTakeEffect => exact keeps_execBfmBasesTakeEffect H _ _ hs _ h
  | hmaskWrite => exact keeps_execHmaskWrite H _ _ _ hs _ h
  | hamletRejoin => exact keeps_execHamletRejoin H _ _ hs _ h
  | slotTableCommit => exact keeps_execSlotTableCommit H _ _ _ _ hs _ h
  | slotTableCheckEnd => exact keeps_execSlotTableCheckEnd H _ _ hs _ h
  | slotTableSwap => exact keeps_execSlotTableSwap H _ _ hs _ h
  | slotEntryLatch => exact keeps_execSlotEntryLatch H _ _ _ hs _ h
  | slotActionPins => exact keeps_execSlotActionPins H _ _ hs _ h
  | slotActionOrxTrigger => exact keeps_execSlotActionOrxTrigger H _ _ hs _ h
  | slotActionEngineEvent => exact keeps_execSlotActionEngineEvent H _ _ hs _ h
  | gainStatePins => exact keeps_execGainStatePins H _ _ hs _ h
  | sltEditGo => exact keeps_execSltEditGo H _ _ _ _ hs _ h
  | sltEditCopy => exact keeps_execSltEditCopy H _ _ hs _ h
  | sltEnableTakeEffect => exact keeps_execSltEnableTakeEffect H _ _ hs _ h
  | fepClaim => exact keeps_execFepClaim H _ _ _ _ hs _ h
  | fepRelease => exact keeps_execFepRelease H _ _ _ _ hs _ h
  | fepSafeWrite => exact keeps_execFepSafeWrite H _ _ _ _ hs _ h
  | fepGpioWrite => exact keeps_execFepGpioWrite H _ _ _ _ hs _ h
  | dlIqMessage => exact keeps_execDlIqMessage H _ _ _ _ hs _ h
  | dlDataDeadline => exact keeps_execDlDataDeadline H _ _ _ _ hs _ h
  | txFilterSwapRequest => exact keeps_execTxFilterSwapRequest H _ _ _ _ hs _ h
  | filterSwap => exact keeps_execFilterSwap H _ _ _ _ hs _ h
  | filterSwapFallback => exact keeps_execFilterSwapFallback H _ _ _ _ hs _ h
  | rxFilterSwapRequest => exact keeps_execRxFilterSwapRequest H _ _ _ _ hs _ h
  | cfrSwapRequest => exact keeps_execCfrSwapRequest H _ _ _ _ hs _ h
  | cfrPulseSwap => exact keeps_execCfrPulseSwap H _ _ _ hs _ h
  | dpdSwapRequest => exact keeps_execDpdSwapRequest H _ _ _ _ _ hs _ h
  | dpdFadeStart => exact keeps_execDpdFadeStart H _ _ _ _ hs _ h
  | dpdFadeEnd => exact keeps_execDpdFadeEnd H _ _ _ hs _ h
  | halfSubframeSettings => exact keeps_execHalfSubframeSettings H _ _ hs _ h
  | muteRampStart => exact keeps_execMuteRampStart H _ _ _ hs _ h
  | muteRampEnd => exact keeps_execMuteRampEnd H _ _ _ hs _ h
  | safetyRamp => exact keeps_execSafetyRamp H _ _ _ hs _ h
  | safetyRampEnd => exact keeps_execSafetyRampEnd H _ _ hs _ h
  | dacClockGate => exact keeps_execDacClockGate H _ _ hs _ h
  | txDataResume => exact keeps_execTxDataResume H _ _ hs _ h
  | rxContributionResume => exact keeps_execRxContributionResume H _ _ hs _ h
  | rxOverrange => exact keeps_execRxOverrange H _ _ _ _ _ _ hs _ h
  | ulCombine => exact keeps_execUlCombine H _ _ _ _ hs _ h
  | prachOccasionStart => exact keeps_execPrachOccasionStart H _ _ _ hs _ h
  | prachOccasionEnd => exact keeps_execPrachOccasionEnd H _ _ _ hs _ h
  | prachSettingsTakeEffect => exact keeps_execPrachSettingsTakeEffect H _ hs _ h
  | orxClaim => exact keeps_execOrxClaim H _ _ _ _ hs _ h
  | orxRelease => exact keeps_execOrxRelease H _ _ _ _ hs _ h
  | orxReady => exact keeps_execOrxReady H _ _ _ hs _ h
  | orxNcoWrite => exact keeps_execOrxNcoWrite H _ _ _ _ hs _ h
  | orxTriggerGo => exact keeps_execOrxTriggerGo H _ _ _ _ hs _ h
  | orxStop => exact keeps_execOrxStop H _ _ _ _ hs _ h
  | captureTrigger => exact keeps_execCaptureTrigger H _ _ hs _ h
  | captureSettled => exact keeps_execCaptureSettled H _ _ hs _ h
  | captureGroup => exact keeps_execCaptureGroup H _ _ _ _ hs _ h
  | deepFlowResume => exact keeps_execDeepFlowResume H _ _ hs _ h
  | captureEnd => exact keeps_execCaptureEnd H _ _ _ hs _ h
  | captureRecordNext => exact keeps_execCaptureRecordNext H _ _ _ _ hs _ h
  | orxClip => exact keeps_execOrxClip H _ _ _ hs _ h
  | deepFlowMessage => exact keeps_execDeepFlowMessage H _ _ hs _ h
  | linkEnable => exact keeps_execLinkEnable H _ _ _ hs _ h
  | linkRetrain => exact keeps_execLinkRetrain H _ _ _ hs _ h
  | trainingFrame => exact keeps_execTrainingFrame H _ _ _ _ hs _ h
  | trainingPhaseTimeout => exact keeps_execTrainingPhaseTimeout H _ _ _ hs _ h
  | trainingComplete => exact keeps_execTrainingComplete H _ _ _ _ hs _ h
  | trainingRetry => exact keeps_execTrainingRetry H _ hs _ h
  | codewordReceived a b c => exact keeps_execCodewordReceived H a b c s hs t h
  | replayTimeout => exact keeps_execReplayTimeout H _ hs _ h
  | codewordTransmit => exact keeps_execCodewordTransmit H _ hs _ h
  | lmSubstituteDataLane => exact keeps_execLmSubstituteDataLane H _ _ _ hs _ h
  | lmSubstitutionDone => exact keeps_execLmSubstitutionDone H _ _ hs _ h
  | lmSubstituteClockLane => exact keeps_execLmSubstituteClockLane H _ _ hs _ h
  | lmRetrain => exact keeps_execLmRetrain H _ hs _ h
  | lmL1Request => exact keeps_execLmL1Request H _ _ hs _ h
  | lmL1Accept => exact keeps_execLmL1Accept H _ _ hs _ h
  | lmL1Refuse => exact keeps_execLmL1Refuse H _ hs _ h
  | l1Entry => exact keeps_execL1Entry H _ hs _ h
  | l1Exit => exact keeps_execL1Exit H _ _ hs _ h
  | l2ClockDetect => exact keeps_execL2ClockDetect H _ _ hs _ h
  | laneFailure => exact keeps_execLaneFailure H _ _ _ hs _ h
  | clockLaneFailure => exact keeps_execClockLaneFailure H _ _ hs _ h
  | substitutionSwitch => exact keeps_execSubstitutionSwitch H _ _ hs _ h
  | substitutionTimeout => exact keeps_execSubstitutionTimeout H _ hs _ h
  | linkSilenceTimeout => exact keeps_execLinkSilenceTimeout H _ hs _ h
  | genericDataMessage => exact keeps_execGenericDataMessage H _ _ _ hs _ h
  | oneWayDelayMessage => exact keeps_execOneWayDelayMessage H _ _ _ _ _ hs _ h
  | ptpMessageRx => exact keeps_execPtpMessageRx H _ _ _ hs _ h
  | l0MessageTx => exact keeps_execL0MessageTx H _ hs _ h
  | remoteResetRequest => exact keeps_execRemoteResetRequest H _ _ _ _ _ hs _ h
  | remoteResetExecute => exact keeps_execRemoteResetExecute H _ hs _ h
  | eventAck => exact keeps_execEventAck H _ _ _ hs _ h
  | eventSyncRequest => exact keeps_execEventSyncRequest H _ _ _ hs _ h
  | eventIndicationResend => exact keeps_execEventIndicationResend H _ hs _ h
  | rmaRequest => exact keeps_execRmaRequest H _ _ _ _ _ _ _ _ _ hs _ h
  | laniedPllLossOfLock => exact keeps_execLaniedPllLossOfLock H _ hs _ h
  | laniedPllLock => exact keeps_execLaniedPllLock H _ _ hs _ h
  | timNowRead => exact keeps_execTimNowRead H _ _ hs _ h
  | fnoffTakeEffect => exact keeps_execFnoffTakeEffect H _ hs _ h
  | timUtcWrite => exact keeps_execTimUtcWrite H _ _ _ hs _ h
  | utcOffsetChange => exact keeps_execUtcOffsetChange H _ hs _ h
  | ppsEdge => exact keeps_execPpsEdge H _ _ hs _ h
  | mgpFrameRx => exact keeps_execMgpFrameRx H _ _ _ _ _ hs _ h
  | mgpFrameTx => exact keeps_execMgpFrameTx H _ _ hs _ h
  | mgpLinkChange => exact keeps_execMgpLinkChange H _ _ _ hs _ h
  | sourceStale => exact keeps_execSourceStale H _ _ hs _ h
  | measurementCommit => exact keeps_execMeasurementCommit H _ _ _ hs _ h
  | timeStep => exact keeps_execTimeStep H _ hs _ h
  | vcxoEnable => exact keeps_execVcxoEnable H _ _ _ hs _ h
  | schedActionQueued => exact keeps_execSchedActionQueued H _ _ hs _ h
  | eventActionPins => exact keeps_execEventActionPins H _ _ hs _ h
  | eventActionOrxTrigger => exact keeps_execEventActionOrxTrigger H _ _ hs _ h
  | eventActionEngineEvent => exact keeps_execEventActionEngineEvent H _ _ hs _ h
  | eventActionDmaTrigger => exact keeps_execEventActionDmaTrigger H _ _ hs _ h
  | evtTimerWrite => exact keeps_execEvtTimerWrite H _ _ _ _ _ _ hs _ h
  | eventTimerFire => exact keeps_execEventTimerFire H _ _ _ hs _ h
  | engEvqRead => exact keeps_execEngEvqRead H _ _ _ hs _ h
  | sysEvqRead => exact keeps_execSysEvqRead H _ _ hs _ h
  | calendarCompensation => exact keeps_execCalendarCompensation H _ _ hs _ h
  | calendarOscFail => exact keeps_execCalendarOscFail H _ _ hs _ h
  | calendarSyncWrite => exact keeps_execCalendarSyncWrite H _ _ _ hs _ h
  | calendarLoad => exact keeps_execCalendarLoad H _ hs _ h
  | tallyWindow => exact keeps_execTallyWindow H _ _ _ _ hs _ h
  | hopDelayAverage => exact keeps_execHopDelayAverage H _ _ hs _ h
  | syncoutPulse => exact keeps_execSyncoutPulse H _ hs _ h
  | tallySyncEdge => exact keeps_execTallySyncEdge H _ _ _ hs _ h
  | followerSlew => exact keeps_execFollowerSlew H _ hs _ h
  | tlyEnum => exact keeps_execTlyEnum H _ _ hs _ h
  | tlyEnumf => exact keeps_execTlyEnumf H _ _ hs _ h
  | tlyMute => exact keeps_execTlyMute H _ _ hs _ h
  | tlyCommit => exact keeps_execTlyCommit H _ _ hs _ h
  | tlyStepauth => exact keeps_execTlyStepauth H _ _ hs _ h
  | tallyCommandReceived => exact keeps_execTallyCommandReceived H _ _ _ _ hs _ h
  | tallyCommandTarget => exact keeps_execTallyCommandTarget H _ hs _ h
  | fanoutReceived => exact keeps_execFanoutReceived H _ _ hs _ h
  | enumToken => exact keeps_execEnumToken H _ _ _ hs _ h
  | enumLastTimeout => exact keeps_execEnumLastTimeout H _ hs _ h
  | census => exact keeps_execCensus H _ _ hs _ h
  | add => exact keeps_execAdd H _ _ _ _ _ hs _ h
  | sub => exact keeps_execSub H _ _ _ _ _ hs _ h
  | addc => exact keeps_execAddc H _ _ _ _ _ hs _ h
  | subc => exact keeps_execSubc H _ _ _ _ _ hs _ h
  | and => exact keeps_execAnd H _ _ _ _ _ hs _ h
  | or => exact keeps_execOr H _ _ _ _ _ hs _ h
  | xor => exact keeps_execXor H _ _ _ _ _ hs _ h
  | sll => exact keeps_execSll H _ _ _ _ _ hs _ h
  | srl => exact keeps_execSrl H _ _ _ _ _ hs _ h
  | sra => exact keeps_execSra H _ _ _ _ _ hs _ h
  | slli => exact keeps_execSlli H _ _ _ _ _ hs _ h
  | srli => exact keeps_execSrli H _ _ _ _ _ hs _ h
  | srai => exact keeps_execSrai H _ _ _ _ _ hs _ h
  | slt => exact keeps_execSlt H _ _ _ _ _ hs _ h
  | sltu => exact keeps_execSltu H _ _ _ _ _ hs _ h
  | mul => exact keeps_execMul H _ _ _ _ _ hs _ h
  | mulh => exact keeps_execMulh H _ _ _ _ _ hs _ h
  | mulhu => exact keeps_execMulhu H _ _ _ _ _ hs _ h
  | min => exact keeps_execMin H _ _ _ _ _ hs _ h
  | max => exact keeps_execMax H _ _ _ _ _ hs _ h
  | abs => exact keeps_execAbs H _ _ _ _ hs _ h
  | clz => exact keeps_execClz H _ _ _ _ hs _ h
  | jr => exact keeps_execJr H _ _ _ hs _ h
  | jalr => exact keeps_execJalr H _ _ _ _ hs _ h
  | addi => exact keeps_execAddi H _ _ _ _ _ hs _ h
  | slti => exact keeps_execSlti H _ _ _ _ _ hs _ h
  | andi => exact keeps_execAndi H _ _ _ _ _ hs _ h
  | ori => exact keeps_execOri H _ _ _ _ _ hs _ h
  | xori => exact keeps_execXori H _ _ _ _ _ hs _ h
  | lui => exact keeps_execLui H _ _ _ _ _ hs _ h
  | beq => exact keeps_execBeq H _ _ _ _ _ hs _ h
  | bne => exact keeps_execBne H _ _ _ _ _ hs _ h
  | blt => exact keeps_execBlt H _ _ _ _ _ hs _ h
  | bge => exact keeps_execBge H _ _ _ _ _ hs _ h
  | bltu => exact keeps_execBltu H _ _ _ _ _ hs _ h
  | bgeu => exact keeps_execBgeu H _ _ _ _ _ hs _ h
  | j => exact keeps_execJ H _ _ _ hs _ h
  | jal => exact keeps_execJal H _ _ _ hs _ h
  | ld => exact keeps_execLd H _ _ _ _ _ _ _ hs _ h
  | ldu => exact keeps_execLdu H _ _ _ _ _ _ _ hs _ h
  | st => exact keeps_execSt H _ _ _ _ _ _ _ hs _ h
  | seta => exact keeps_execSeta H _ _ _ _ _ _ hs _ h
  | geta => exact keeps_execGeta H _ _ _ _ _ _ hs _ h
  | adda => exact keeps_execAdda H _ _ _ _ _ _ hs _ h
  | cmac => exact keeps_execCmac H _ _ _ _ _ hs _ h
  | cmacc => exact keeps_execCmacc H _ _ _ _ _ hs _ h
  | dmac => exact keeps_execDmac H _ _ _ _ _ hs _ h
  | cmul => exact keeps_execCmul H _ _ _ _ _ hs _ h
  | clracc => exact keeps_execClracc H _ _ _ hs _ h
  | ext => exact keeps_execExt H _ _ _ _ _ hs _ h
  | extr => exact keeps_execExtr H _ _ _ _ _ hs _ h
  | mfacc => exact keeps_execMfacc H _ _ _ _ _ hs _ h
  | mtacc => exact keeps_execMtacc H _ _ _ _ _ hs _ h
  | smac => exact keeps_execSmac H _ _ _ _ _ _ _ hs _ h
  | smacc => exact keeps_execSmacc H _ _ _ _ _ _ _ hs _ h
  | smax => exact keeps_execSmax H _ _ _ _ _ _ _ _ hs _ h
  | smin => exact keeps_execSmin H _ _ _ _ _ _ _ _ hs _ h
  | rdt => exact keeps_execRdt H _ _ _ hs _ h
  | waitt => exact keeps_execWaitt H _ _ _ _ _ hs _ h
  | waittEnd => exact keeps_execWaittEnd H _ _ _ hs _ h
  | sched => exact keeps_execSched H _ _ _ _ _ hs _ h
  | fenceR => exact keeps_execFenceR H _ _ hs _ h
  | fenceW => exact keeps_execFenceW H _ _ hs _ h
  | fenceRw => exact keeps_execFenceRw H _ _ hs _ h
  | fenceIo => exact keeps_execFenceIo H _ _ hs _ h
  | fenceDma => exact keeps_execFenceDma H _ _ hs _ h
  | trap => exact keeps_execTrap H _ _ _ _ _ hs _ h
  | mtrap => exact keeps_execMtrap H _ _ hs _ h
  | brk => exact keeps_execBrk H _ _ hs _ h
  | ret => exact keeps_execRet H _ _ hs _ h
  | mfc => exact keeps_execMfc H _ _ _ _ hs _ h
  | mtc => exact keeps_execMtc H _ _ _ _ hs _ h
  | wait => exact keeps_execWait H _ _ _ hs _ h
  | tlbi => exact keeps_execTlbi H _ _ _ _ hs _ h
  | tlbia => exact keeps_execTlbia H _ _ _ hs _ h
  | tlbiall => exact keeps_execTlbiall H _ _ hs _ h
  | storeBusError => exact keeps_execStoreBusError H _ _ hs _ h
  | interruptEntry => exact keeps_execInterruptEntry H _ _ _ hs _ h
  | engRun => exact keeps_execEngRun H _ _ _ _ hs _ h
  | engHalt => exact keeps_execEngHalt H _ _ _ _ hs _ h
  | scrubGranule => exact keeps_execScrubGranule H _ _ hs _ h
  | rowRepair => exact keeps_execRowRepair H _ _ hs _ h
  | rowRemap => exact keeps_execRowRemap H _ _ hs _ h
  | stoRepairWrite => exact keeps_execStoRepairWrite H _ _ _ _ _ hs _ h
  | stoInjectArm => exact keeps_execStoInjectArm H _ _ _ _ hs _ h
  | arbFreeze => exact keeps_execArbFreeze H _ _ _ _ hs _ h
  | arbDrained => exact keeps_execArbDrained H _ _ hs _ h
  | arbFallbackEntry => exact keeps_execArbFallbackEntry H _ _ _ hs _ h
  | arbFallbackExit => exact keeps_execArbFallbackExit H _ _ _ hs _ h
  | lockAcquire => exact keeps_execLockAcquire H _ _ _ _ hs _ h
  | lockRelease => exact keeps_execLockRelease H _ _ _ _ _ hs _ h
  | lockFree => exact keeps_execLockFree H _ _ _ _ hs _ h
  | dmaGo => exact keeps_execDmaGo H _ _ _ _ _ hs _ h
  | dmaAbort => exact keeps_execDmaAbort H _ _ _ _ _ hs _ h
  | dmaResume => exact keeps_execDmaResume H _ _ _ _ _ hs _ h
  | dmaStrig => exact keeps_execDmaStrig H _ _ _ _ _ hs _ h
  | dmaStopall => exact keeps_execDmaStopall H _ _ _ _ hs _ h
  | dmaEdgeTrigger => exact keeps_execDmaEdgeTrigger H _ hs _ h
  | dmaRingRequest => exact keeps_execDmaRingRequest H _ _ _ hs _ h
  | dmaDescriptorFetch => exact keeps_execDmaDescriptorFetch H _ _ _ hs _ h
  | dmaTransfer => exact keeps_execDmaTransfer H _ _ _ _ hs _ h
  | dmaWriteError => exact keeps_execDmaWriteError H _ _ _ hs _ h
  | dmaDescriptorComplete => exact keeps_execDmaDescriptorComplete H _ _ _ hs _ h
  | refinLoss => exact keeps_execRefinLoss H _ _ hs _ h
  | refinRequalified => exact keeps_execRefinRequalified H _ _ hs _ h
  | pllAcq => exact keeps_execPllAcq H _ _ _ _ hs _ h
  | pllLockDeclared => exact keeps_execPllLockDeclared H _ _ _ hs _ h
  | pllAcqTimeout => exact keeps_execPllAcqTimeout H _ _ hs _ h
  | pllLossOfLock => exact keeps_execPllLossOfLock H _ _ _ hs _ h
  | pllSlip => exact keeps_execPllSlip H _ _ hs _ h
  | pllTuningMargin => exact keeps_execPllTuningMargin H _ _ _ _ hs _ h
  | pllDisable => exact keeps_execPllDisable H _ _ _ _ hs _ h
  | pllAlign => exact keeps_execPllAlign H _ _ hs _ h
  | clkoutReconfigure => exact keeps_execClkoutReconfigure H _ _ _ _ _ hs _ h
  | clkoutAlign => exact keeps_execClkoutAlign H _ _ hs _ h
  | stileXoFail => exact keeps_execStileXoFail H _ _ hs _ h
  | ldoVsetWrite => exact keeps_execLdoVsetWrite H _ _ _ _ hs _ h
  | hamletEnter => exact keeps_execHamletEnter H _ _ _ hs _ h
  | hamletEntryComplete => exact keeps_execHamletEntryComplete H _ _ _ hs _ h
  | hamletWakeWrite => exact keeps_execHamletWakeWrite H _ _ _ hs _ h
  | hamletWakeReady => exact keeps_execHamletWakeReady H _ _ _ hs _ h
  | hamletWakeFail => exact keeps_execHamletWakeFail H _ _ hs _ h
  | calendarAlarm => exact keeps_execCalendarAlarm H _ _ hs _ h
  | wakeHoldExpiry => exact keeps_execWakeHoldExpiry H _ hs _ h
  | wakeStepPass => exact keeps_execWakeStepPass H _ _ hs _ h
  | wakeStepTimeout => exact keeps_execWakeStepTimeout H _ _ hs _ h
  | wakerecClear => exact keeps_execWakerecClear H _ _ _ hs _ h
  | supplyChange => exact keeps_execSupplyChange H _ _ _ _ hs _ h
  | hkRoundStart => exact keeps_execHkRoundStart H _ hs _ h
  | hkCoarseReady => exact keeps_execHkCoarseReady H _ _ hs _ h
  | hkConversionEnd => exact keeps_execHkConversionEnd H _ _ _ hs _ h
  | hkRecoveryClose => exact keeps_execHkRecoveryClose H _ _ hs _ h
  | hkRefReady => exact keeps_execHkRefReady H _ _ hs _ h
  | hkRefTimeout => exact keeps_execHkRefTimeout H _ hs _ h
  | hkRefPowerdown => exact keeps_execHkRefPowerdown H _ hs _ h
  | hkRoundEnd => exact keeps_execHkRoundEnd H _ hs _ h
  | hkSeqGo => exact keeps_execHkSeqGo H _ _ _ hs _ h
  | hkSeqStop => exact keeps_execHkSeqStop H _ _ _ hs _ h
  | hkSeqPeriodicStart => exact keeps_execHkSeqPeriodicStart H _ hs _ h
  | hkResRead => exact keeps_execHkResRead H _ _ _ hs _ h
  | hearthMonitorConversion => exact keeps_execHearthMonitorConversion H _ _ _ _ hs _ h
  | shedTakeEffect => exact keeps_execShedTakeEffect H _ hs _ h
  | rotationStep => exact keeps_execRotationStep H _ _ hs _ h
  | orderlyStopBias => exact keeps_execOrderlyStopBias H _ hs _ h
  | orderlyStopComplete => exact keeps_execOrderlyStopComplete H _ hs _ h
  | hardCut => exact keeps_execHardCut H _ hs _ h
  | thmRearm => exact keeps_execThmRearm H _ _ _ hs _ h
  | thmUnpin => exact keeps_execThmUnpin H _ _ _ hs _ h
  | biasCodeWrite => exact keeps_execBiasCodeWrite H _ _ _ _ hs _ h
  | biasModeWrite => exact keeps_execBiasModeWrite H _ _ _ _ hs _ h
  | biasSlewStep => exact keeps_execBiasSlewStep H _ _ hs _ h
  | biasSineEnable => exact keeps_execBiasSineEnable H _ _ _ _ hs _ h
  | biasSineDisable => exact keeps_execBiasSineDisable H _ _ _ _ hs _ h
  | biasSineStart => exact keeps_execBiasSineStart H _ _ hs _ h
  | biasSineHalfCycleEnd => exact keeps_execBiasSineHalfCycleEnd H _ _ hs _ h
  | biasClrAssert => exact keeps_execBiasClrAssert H _ _ hs _ h
  | biasClrRelease => exact keeps_execBiasClrRelease H _ _ hs _ h
  | calGo => exact keeps_execCalGo H _ _ _ _ hs _ h
  | calStop => exact keeps_execCalStop H _ _ _ _ hs _ h
  | calGuardStep => exact keeps_execCalGuardStep H _ _ _ hs _ h
  | calRunEnd => exact keeps_execCalRunEnd H _ _ _ _ _ hs _ h
  | calLiveEstimate => exact keeps_execCalLiveEstimate H _ _ _ _ _ _ hs _ h
  | calTimeout => exact keeps_execCalTimeout H _ _ hs _ h
  | calPreconditionLost => exact keeps_execCalPreconditionLost H _ _ hs _ h
  | calRequestEnd => exact keeps_execCalRequestEnd H _ _ hs _ h
  | calSubstitution => exact keeps_execCalSubstitution H _ _ hs _ h
  | bistGo => exact keeps_execBistGo H _ _ _ hs _ h
  | bistLogicEnd => exact keeps_execBistLogicEnd H _ _ _ hs _ h
  | bistMemoryPassEnd => exact keeps_execBistMemoryPassEnd H _ _ _ _ _ hs _ h
  | bistEnd => exact keeps_execBistEnd H _ _ hs _ h
  | bistStatRead => exact keeps_execBistStatRead H _ _ hs _ h
  | watchEnable => exact keeps_execWatchEnable H _ _ _ hs _ h
  | watchReady => exact keeps_execWatchReady H _ _ hs _ h
  | watchAgcStep => exact keeps_execWatchAgcStep H _ _ _ _ hs _ h
  | watchClip => exact keeps_execWatchClip H _ _ hs _ h
  | rdsGroup => exact keeps_execRdsGroup H _ _ _ _ _ _ _ _ hs _ h
  | dabFig => exact keeps_execDabFig H _ _ _ _ _ hs _ h
  | dvbSection => exact keeps_execDvbSection H _ _ _ _ _ hs _ h
  | dmodWrite => exact keeps_execDmodWrite H _ _ _ _ hs _ h
  | fmFreqWrite => exact keeps_execFmFreqWrite H _ _ _ _ hs _ h
  | afQualityCheck => exact keeps_execAfQualityCheck H _ _ _ _ _ hs _ h
  | afCandidateResult => exact keeps_execAfCandidateResult H _ _ _ _ _ hs _ h
  | broadcastTimeItem => exact keeps_execBroadcastTimeItem H _ _ _ _ _ _ hs _ h
  | btUtcRead => exact keeps_execBtUtcRead H _ _ hs _ h
  | sweepGo => exact keeps_execSweepGo H _ _ _ hs _ h
  | sweepStop => exact keeps_execSweepStop H _ _ _ hs _ h
  | sweepEntryEnd => exact keeps_execSweepEntryEnd H _ _ _ hs _ h
  | sweepEntryTimeout => exact keeps_execSweepEntryTimeout H _ _ hs _ h
  | watchRecordSend => exact keeps_execWatchRecordSend H _ hs _ h
  | stileSleep => exact keeps_execStileSleep H _ _ hs _ h
  | stileStandby => exact keeps_execStileStandby H _ _ hs _ h
  | stileSynth => exact keeps_execStileSynth H _ _ hs _ h
  | stileRx => exact keeps_execStileRx H _ _ hs _ h
  | stileTx => exact keeps_execStileTx H _ _ hs _ h
  | stileStateReached => exact keeps_execStileStateReached H _ _ hs _ h
  | stileSynthLock => exact keeps_execStileSynthLock H _ _ hs _ h
  | stileTxWaitTimeout => exact keeps_execStileTxWaitTimeout H _ hs _ h
  | stilePacketSent => exact keeps_execStilePacketSent H _ _ hs _ h
  | stilePreambleDetect => exact keeps_execStilePreambleDetect H _ _ _ _ hs _ h
  | stileSyncDetect => exact keeps_execStileSyncDetect H _ _ _ _ hs _ h
  | stilePacketRx => exact keeps_execStilePacketRx H _ _ _ _ _ hs _ h
  | stileRxTimeout => exact keeps_execStileRxTimeout H _ hs _ h
  | bellSniff => exact keeps_execBellSniff H _ _ _ hs _ h
  | bellStartTimeout => exact keeps_execBellStartTimeout H _ hs _ h
  | bellFrame => exact keeps_execBellFrame H _ _ _ _ hs _ h
  | hearthAnswerEnd => exact keeps_execHearthAnswerEnd H _ _ hs _ h
  | resetLAssert => exact keeps_execResetLAssert H _ _ hs _ h
  | resetEnd => exact keeps_execResetEnd H _ _ _ hs _ h
  | hearthPowerUp => exact keeps_execHearthPowerUp H _ _ hs _ h
  | sysRstDev => exact keeps_execSysRstDev H _ _ _ hs _ h
  | deviceReset => exact keeps_execDeviceReset H _ hs _ h
  | reeveRestart => exact keeps_execReeveRestart H _ _ _ hs _ h
  | bootImageAccepted => exact keeps_execBootImageAccepted H _ _ _ _ hs _ h
  | bootFailure => exact keeps_execBootFailure H _ _ _ hs _ h
  | bootRetry => exact keeps_execBootRetry H _ hs _ h
  | bootLinkTimeout => exact keeps_execBootLinkTimeout H _ _ hs _ h
  | agtVerify => exact keeps_execAgtVerify H _ _ _ hs _ h
  | agtRelease => exact keeps_execAgtRelease H _ _ _ hs _ h
  | agtAdvance => exact keeps_execAgtAdvance H _ _ _ hs _ h
  | agtBurn => exact keeps_execAgtBurn H _ _ _ hs _ h
  | agtRevoke => exact keeps_execAgtRevoke H _ _ _ hs _ h
  | agtProgkey => exact keeps_execAgtProgkey H _ _ _ hs _ h
  | agtLcsadv => exact keeps_execAgtLcsadv H _ _ _ hs _ h
  | agtAttest => exact keeps_execAgtAttest H _ _ _ hs _ h
  | agtIdkey => exact keeps_execAgtIdkey H _ _ _ hs _ h
  | agtCert => exact keeps_execAgtCert H _ _ _ hs _ h
  | agtSopen => exact keeps_execAgtSopen H _ _ _ hs _ h
  | agtSrecv => exact keeps_execAgtSrecv H _ _ _ hs _ h
  | agtSsend => exact keeps_execAgtSsend H _ _ _ hs _ h
  | agtSclose => exact keeps_execAgtSclose H _ _ _ hs _ h
  | agateCommandEnd => exact keeps_execAgateCommandEnd H _ _ _ hs _ h
  | sessionTimeout => exact keeps_execSessionTimeout H _ hs _ h
  | bootRecordWrite => exact keeps_execBootRecordWrite H _ _ _ hs _ h
  | fltCease => exact keeps_execFltCease H _ _ _ hs _ h
  | fltEndRecovery => exact keeps_execFltEndRecovery H _ _ _ hs _ h
  | fltIsolate => exact keeps_execFltIsolate H _ _ _ hs _ h
  | fltSafetyClear => exact keeps_execFltSafetyClear H _ _ _ hs _ h
  | fltRaiseSoftware => exact keeps_execFltRaiseSoftware H _ _ _ hs _ h
  | fltEndSafety => exact keeps_execFltEndSafety H _ _ _ hs _ h
  | isolationStart => exact keeps_execIsolationStart H _ _ hs _ h
  | isolationAfterRamp => exact keeps_execIsolationAfterRamp H _ _ hs _ h
  | isolationComplete => exact keeps_execIsolationComplete H _ _ hs _ h
  | eventIndicationFlush => exact keeps_execEventIndicationFlush H _ hs _ h
  | tallyWindowMissed => exact keeps_execTallyWindowMissed H _ _ hs _ h
  | rdsSynchronisation => exact keeps_execRdsSynchronisation H _ _ _ hs _ h
  | demodulatorLock => exact keeps_execDemodulatorLock H _ _ hs _ h
  | testAccessPortOperation => exact keeps_execTestAccessPortOperation H _ _ _ _ hs _ h

end Sys2Proof.Machine
end

