-- ==== Sys2Proof/Laws/Instances.lean ====
section
/-!
SUPPORT. Closed predicates: the queue, the record of what has left the part, the count of free values drawn, the canonical form of the files.
-/

namespace Sys2Proof.Machine

theorem rfWf_nil : rfWf [] := by decide

/-- Writing the carrier registers of a file into another keeps the canonical form. -/
theorem rfWf_under (w : RegFile) {l : RegFile} (h : rfWf l) : rfWf (w.foldl (fun l c => if carrierReg c.1 then rfWrite l c.1 c.2 else l) l) := by
  induction w generalizing l with
  | nil => exact h
  | cons c t ih =>
    refine ih ?_
    dsimp only
    split
    · exact rfWf_write _ _ h
    · exact h

theorem memory_wf_nil : Memory.wf [] := by decide

/-- The start of device time at 0 leaves the queue, what has left the part, the count of free values and the files. -/
theorem zeroTime_frame (s : State) : (zeroTime s).pending = s.pending ∧ (zeroTime s).out = s.out ∧ (zeroTime s).free = s.free
    ∧ (zeroTime s).regs = s.regs ∧ (zeroTime s).eff = s.eff ∧ (zeroTime s).mem = s.mem ∧ (zeroTime s).carPend = s.carPend :=
  ⟨rfl, rfl, rfl, rfl, rfl, rfl, rfl⟩

theorem put_pending (s : State) (f : Field) (n : Nat) : (s.put f n).pending = s.pending := rfl

theorem put_out (s : State) (f : Field) (n : Nat) : (s.put f n).out = s.out := rfl

theorem put_free (s : State) (f : Field) (n : Nat) : (s.put f n).free = s.free := rfl

/-- A device reset keeps the queue, what has left the part and the count of free values. -/
theorem deviceReset_frame (s : State) : (deviceReset s).pending = s.pending ∧ (deviceReset s).out = s.out ∧ (deviceReset s).free = s.free := by
  unfold deviceReset
  exact ⟨(zeroTime_frame _).1.trans ((put_pending _ _ _).trans (put_pending _ _ _)), (zeroTime_frame _).2.1.trans ((put_out _ _ _).trans (put_out _ _ _)),
    (zeroTime_frame _).2.2.1.trans ((put_free _ _ _).trans (put_free _ _ _))⟩

/-- The queue is looked at by no command. -/
theorem closed_pending (q : List Instr) : Closed (fun t => t.pending = q) where
  congr := fun _ _ _ _ _ _ h hs => h.trans hs
  wr := fun _ _ _ h => h
  ewr := fun _ _ _ h => h
  resetRegs := fun _ _ h => h
  mem := fun _ _ h _ => h
  hold := fun _ _ h _ => h
  merge := fun _ _ _ _ h _ _ => h
  emit := fun _ _ h => h
  drawn := fun _ h => h
  under := fun _ _ h => h
  settingsOf := fun _ _ _ h => h
  device := fun s h => (deviceReset_frame s).1.trans h
  hearth := by
    intro t s u h e
    cases e
    dsimp only
    split
    · exact h
    · exact h

/-- What has left the part stays on record. -/
theorem closed_out (o : List Out) : Closed (fun t => ∃ l, t.out = l ++ o) where
  congr := fun _ _ _ ho _ _ _ hs => ho ▸ hs
  wr := fun _ _ _ h => h
  ewr := fun _ _ _ h => h
  resetRegs := fun _ _ h => h
  mem := fun _ _ h _ => h
  hold := fun _ _ h _ => h
  merge := fun _ _ _ _ h _ _ => h
  emit := fun s x ⟨l, h⟩ => ⟨x :: l, congrArg (x :: ·) h⟩
  drawn := fun _ h => h
  under := fun _ _ h => h
  settingsOf := fun _ _ _ h => h
  device := fun s ⟨l, h⟩ => ⟨l, (deviceReset_frame s).2.1.trans h⟩
  hearth := by
    intro t s u h e
    cases e
    dsimp only
    split
    · exact h
    · exact h

/-- The count of free values never goes back. -/
theorem closed_free (n : Nat) : Closed (fun t => n ≤ t.free) where
  congr := fun _ _ _ _ hf _ _ hs => hf ▸ hs
  wr := fun _ _ _ h => h
  ewr := fun _ _ _ h => h
  resetRegs := fun _ _ h => h
  mem := fun _ _ h _ => h
  hold := fun _ _ h _ => h
  merge := fun _ _ _ _ h _ _ => h
  emit := fun _ _ h => h
  drawn := fun _ h => Nat.le_succ_of_le h
  under := fun _ _ h => h
  settingsOf := fun _ _ _ h => h
  device := fun s h => Nat.le_trans h (Nat.le_of_eq (deviceReset_frame s).2.2.symm)
  hearth := by
    intro t s u h e
    cases e
    dsimp only
    split
    · exact h
    · exact h

/-- Writing a register as shown keeps the canonical form. -/
theorem canonical_wr (s : State) (a : Nat) (v : Word) (h : s.canonical) : (s.wr a v).canonical :=
  ⟨rfWf_write a v h.regs, h.eff, h.held, h.mem⟩

theorem canonical_put (s : State) (f : Field) (n : Nat) (h : s.canonical) : (s.put f n).canonical :=
  canonical_wr s _ _ h

theorem canonical_zeroTime (s : State) (h : s.canonical) : (zeroTime s).canonical :=
  ⟨h.regs, h.eff, h.held, h.mem⟩

/-- The register files and the stores stay in canonical form. -/
theorem closed_canonical : Closed State.canonical where
  congr := by
    intro s t hr he hm _ _ hc _ hs
    refine ⟨hr ▸ hs.regs, he ▸ hs.eff, ?_, hm ▸ hs.mem⟩
    intro p hp
    exact hs.held p (hc ▸ hp)
  wr := canonical_wr
  ewr := fun _ a v h => ⟨h.regs, rfWf_write a v h.eff, h.held, h.mem⟩
  resetRegs := fun _ _ h => ⟨rfWf_filter _ h.regs, rfWf_filter _ h.eff, h.held, h.mem⟩
  mem := fun _ _ h hm => ⟨h.regs, h.eff, h.held, hm h.mem⟩
  hold := fun _ _ h hc => ⟨h.regs, h.eff, hc h.regs h.held, h.mem⟩
  merge := fun _ _ q p h hu hp => ⟨h.regs, rfWf_merge q (hu.held p hp) h.eff, fun _ e => (nomatch e), h.mem⟩
  emit := fun _ _ h => ⟨h.regs, h.eff, h.held, h.mem⟩
  drawn := fun _ h => ⟨h.regs, h.eff, h.held, h.mem⟩
  under := fun _ w h => ⟨h.regs, rfWf_under w (rfWf_filter _ h.eff), h.held, h.mem⟩
  settingsOf := fun _ _ hs ht => ⟨ht.regs, hs.eff, ht.held, ht.mem⟩
  device := fun s h => by
    unfold deviceReset
    refine canonical_zeroTime _ (canonical_put _ _ _ (canonical_put _ _ _ ?_))
    exact ⟨rfWf_filter _ h.regs, rfWf_nil, fun _ e => (nomatch e), memory_wf_nil⟩
  hearth := by
    intro t s u h e
    unfold execHearthPowerUp at e
    cases e
    split
    · exact h
    · exact canonical_put _ _ _ ⟨rfWf_nil, rfWf_nil, fun _ e => (nomatch e), memory_wf_nil⟩

end Sys2Proof.Machine
end

