-- ==== Sys2Proof/Laws/RaiseRegs.lean ====
section
/-!
SUPPORT. The registers that raising a fault can write (R474, R477 to R488): the fault block, the breadcrumbs of the retention store, the counters and staging levels of
the host port, the state of a link that leaves L1, HMASK, and the hamlet windows. Every other register reads as before.
-/

namespace Sys2Proof.Machine

/-- The register addresses that raising a fault can write. -/
def raiseTouches (a : Nat) : Bool :=
  (decide (0x04070000 ≤ a) && decide (a < 0x04080000)) || (decide (0x04100240 ≤ a) && decide (a < 0x04100300)) || decide (0x10000000 ≤ a)
    || (decide (Reg.LNK_CNTn ≤ a) && decide (a < Reg.LNK_CNTn + 48)) || (decide (Reg.LNK_FLOWf_STAT ≤ a) && decide (a < Reg.LNK_FLOWf_STAT + 2048)) || a == Reg.LNK_ULC_CFG || a == Reg.LNK_STAT || a == Reg.LNK_CAP

/-- A predicate that looks at the registers alone, and at none that raising a fault can write. -/
structure RaiseKeeps (P : State → Prop) : Prop where
  congr : ∀ {s t : State}, t.regs = s.regs → P s → P t
  wr : ∀ s a v, raiseTouches a = true → P s → P (s.wr a v)

/-- A field's value fits its width. -/
theorem State.get_lt (s : State) (f : Field) : s.get f < 2 ^ f.width := Nat.mod_lt _ (Nat.two_pow_pos _)

theorem RaiseKeeps.mk' {P : State → Prop} (H : RaiseKeeps P) {s : State} (now' : Nat) (eff' : RegFile) (mem' : List (Nat × Byte)) (ecc' : List EccErr) (resp' : Resp) (out' : List Out) (free' : Nat) (flt' : Flt) (evq' : Vector (List Nat) 8) (stalled' : List Stalled) (carPend' : Option CarPend) (carWas' : List (Nat × RegFile)) (refcarDue' : Option Nat) (rtc' : Rtc) (bfm' : Vector Bfm 8) (rejoin' : Vector (Option Nat) 8) (slt' : Vector Slt 8) (dl' : Dl) (tx' : Vector Tx 8) (txSwap' : Vector (Option SwapReq) 64) (rxSwap' : Vector (Option SwapReq) 64) (mute' : Vector Mute 64) (dpd' : Vector Dpd 64) (rx' : Vector Rx 8) (prach' : Vector (Option Occasion) 4) (prachOld' : Vector (List Occasion) 4) (praSets' : List SetPend) (port' : Port) (lnk' : Lnk) (orx' : Vector Orx 8) (wch' : Wch) (evu' : Vector Evu 8) (tim' : Tim) (tly' : Tly) (pll' : Vector Pll 8) (eng' : Vector Eng 9) (sto' : Vector Sto 10) (dma' : Vector DmaCh 64) (dmaPtr' : Vector Nat 8) (hpow' : Vector HPow 8) (pow' : Pow) (clkOut' : Vector ClkOut 4) (thm' : Thm) (hk' : Hk) (bias' : Vector Bias 32) (cal' : Cal) (bist' : Bist) (stl' : Stl) (bel' : Bel) (agt' : Agt) (boot' : Boot) (calen' : Calendar) (tap' : Tap) (edges' : List (Nat × Nat × Nat)) (pending' : List Instr) (hs : P s) : P ⟨now', s.regs, eff', mem', ecc', resp', out', free', flt', evq', stalled', carPend', carWas', refcarDue', rtc', bfm', rejoin', slt', dl', tx', txSwap', rxSwap', mute', dpd', rx', prach', prachOld', praSets', port', lnk', orx', wch', evu', tim', tly', pll', eng', sto', dma', dmaPtr', hpow', pow', clkOut', thm', hk', bias', cal', bist', stl', bel', agt', boot', calen', tap', edges', pending'⟩ := H.congr (s := s) rfl hs

theorem raiseKeeps_State_wr {P : State → Prop} (H : RaiseKeeps P) (s : State) (a : ℕ) (v : Word) (keep_s : P s) (ht : raiseTouches a = true) : P (State.wr s a v) := by
  exact H.wr _ _ _ ht keep_s

theorem raiseKeeps_State_put {P : State → Prop} (H : RaiseKeeps P) (s : State) (f : Field) (v : ℕ) (keep_s : P s) (ht : raiseTouches f.reg = true) : P (State.put s f v) := by
  exact H.wr _ _ _ ht keep_s

theorem raiseKeeps_State_clrBit {P : State → Prop} (H : RaiseKeeps P) (s : State) (f : Field) (n : ℕ) (keep_s : P s) (ht : raiseTouches f.reg = true) : P (State.clrBit s f n) := by
  unfold State.clrBit
  exact raiseKeeps_State_put H _ _ _ keep_s ht

theorem raiseKeeps_State_add {P : State → Prop} (H : RaiseKeeps P) (s : State) (f : Field) (n : ℕ) (keep_s : P s) (ht : raiseTouches f.reg = true) : P (State.add s f n) := by
  unfold State.add
  exact raiseKeeps_State_put H _ _ _ keep_s ht

theorem raiseKeeps_State_inc {P : State → Prop} (H : RaiseKeeps P) (s : State) (f : Field) (keep_s : P s) (ht : raiseTouches f.reg = true) : P (State.inc s f) := by
  unfold State.inc
  exact raiseKeeps_State_add H _ _ _ keep_s ht

theorem raiseKeeps_State_emit {P : State → Prop} (H : RaiseKeeps P) (s : State) (o : Out) (keep_s : P s) : P (State.emit s o) := by
  unfold State.emit
  try dsimp only
  repeat' first
    | with_reducible assumption
    | with_reducible refine ite_keeps (fun _ => ?_) (fun _ => ?_)
    | with_reducible refine foldl_keeps (fun _ _ _ => ?_) ?_
    | split
    | with_reducible apply H.mk'

theorem raiseKeeps_State_leaveL1 {P : State → Prop} (H : RaiseKeeps P) (s : State) (keep_s : P s) : P (State.leaveL1 s) := by
  unfold State.leaveL1
  try dsimp only
  repeat' first
    | with_reducible assumption
    | with_reducible apply raiseKeeps_State_put H
    | with_reducible refine ite_keeps (fun _ => ?_) (fun _ => ?_)
    | with_reducible refine foldl_keeps (fun _ _ _ => ?_) ?_
    | split
    | with_reducible apply H.mk'
    | (simp [raiseTouches, Field.i, Field.h, Field.sub, hamletBase, Reg.LNK_CNTn, Reg.LNK_FLOWf_STAT, Reg.LNK_ULC_CFG, Reg.LNK_STAT, Reg.LNK_CAP, Reg.FLT_LOGn_W0, Fld.LNK_CAP_CAP_RX, Fld.LNK_CAP_CAP_TX, Fld.LNK_STAT_STATE]; try omega)

theorem raiseKeeps_State_stageNow {P : State → Prop} (H : RaiseKeeps P) (s : State) (f : ℕ) (bytes : List ℕ) (keep_s : P s) (hf : f < 256) : P (State.stageNow s f bytes) := by
  unfold State.stageNow
  try dsimp only
  repeat' first
    | with_reducible assumption
    | with_reducible apply raiseKeeps_State_leaveL1 H
    | with_reducible apply raiseKeeps_State_put H
    | with_reducible refine ite_keeps (fun _ => ?_) (fun _ => ?_)
    | with_reducible refine foldl_keeps (fun _ _ _ => ?_) ?_
    | split
    | with_reducible apply H.mk'
    | (simp [raiseTouches, Field.i, Field.h, Field.sub, hamletBase, Reg.LNK_CNTn, Reg.LNK_FLOWf_STAT, Reg.LNK_ULC_CFG, Reg.LNK_STAT, Reg.LNK_CAP, Reg.FLT_LOGn_W0, Fld.LNK_FLOWf_CFG_REL, Fld.LNK_FLOWf_STAT_STAGED]; try omega)

theorem raiseKeeps_State_stage {P : State → Prop} (H : RaiseKeeps P) (s : State) (f : ℕ) (bytes : List ℕ) (keep_s : P s) (hf : f < 256) : P (State.stage s f bytes) := by
  unfold State.stage
  try dsimp only
  repeat' first
    | with_reducible assumption
    | with_reducible apply raiseKeeps_State_inc H
    | with_reducible apply raiseKeeps_State_stageNow H
    | with_reducible refine ite_keeps (fun _ => ?_) (fun _ => ?_)
    | with_reducible refine foldl_keeps (fun _ _ _ => ?_) ?_
    | split
    | with_reducible apply H.mk'
    | (simp [raiseTouches, Field.i, Field.h, Field.sub, hamletBase, Reg.LNK_CNTn, Reg.LNK_FLOWf_STAT, Reg.LNK_ULC_CFG, Reg.LNK_STAT, Reg.LNK_CAP, Reg.FLT_LOGn_W0, Fld.LNK_CNTn_COUNT, Fld.LNK_FLOWf_CFG_EN]; try omega)

theorem raiseKeeps_State_setPinOwner {P : State → Prop} (H : RaiseKeeps P) (s : State) (h : Fin 8) (j : ℕ) (o : ℕ) (keep_s : P s) : P (State.setPinOwner s h j o) := by
  unfold State.setPinOwner
  try dsimp only
  repeat' first
    | with_reducible assumption
    | with_reducible apply raiseKeeps_State_put H
    | with_reducible refine ite_keeps (fun _ => ?_) (fun _ => ?_)
    | with_reducible refine foldl_keeps (fun _ _ _ => ?_) ?_
    | split
    | with_reducible apply H.mk'
    | (simp [raiseTouches, Field.i, Field.h, Field.sub, hamletBase, Reg.LNK_CNTn, Reg.LNK_FLOWf_STAT, Reg.LNK_ULC_CFG, Reg.LNK_STAT, Reg.LNK_CAP, Reg.FLT_LOGn_W0, Fld.FEP_OWNn_OWN]; try omega)

theorem raiseKeeps_State_drivePins {P : State → Prop} (H : RaiseKeeps P) (s : State) (h : Fin 8) (mask : ℕ) (v : ℕ) (keep_s : P s) : P (State.drivePins s h mask v) := by
  unfold State.drivePins
  try dsimp only
  repeat' first
    | with_reducible assumption
    | with_reducible apply raiseKeeps_State_put H
    | with_reducible refine ite_keeps (fun _ => ?_) (fun _ => ?_)
    | with_reducible refine foldl_keeps (fun _ _ _ => ?_) ?_
    | split
    | with_reducible apply H.mk'
    | (simp [raiseTouches, Field.i, Field.h, Field.sub, hamletBase, Reg.LNK_CNTn, Reg.LNK_FLOWf_STAT, Reg.LNK_ULC_CFG, Reg.LNK_STAT, Reg.LNK_CAP, Reg.FLT_LOGn_W0, Fld.FEP_LEVEL_LEVEL, Fld.FEP_SAFE_SAFE]; try omega)

theorem raiseKeeps_State_releasePins {P : State → Prop} (H : RaiseKeeps P) (s : State) (h : Fin 8) (mask : ℕ) (keep_s : P s) : P (State.releasePins s h mask) := by
  unfold State.releasePins
  try dsimp only
  repeat' first
    | with_reducible assumption
    | with_reducible apply raiseKeeps_State_drivePins H
    | with_reducible apply raiseKeeps_State_setPinOwner H
    | with_reducible refine ite_keeps (fun _ => ?_) (fun _ => ?_)
    | with_reducible refine foldl_keeps (fun _ _ _ => ?_) ?_

theorem raiseKeeps_State_forcePins {P : State → Prop} (H : RaiseKeeps P) (s : State) (h : Fin 8) (keep_s : P s) : P (State.forcePins s h) := by
  unfold State.forcePins
  try dsimp only
  repeat' first
    | with_reducible assumption
    | with_reducible apply raiseKeeps_State_releasePins H
    | with_reducible refine ite_keeps (fun _ => ?_) (fun _ => ?_)
    | with_reducible refine foldl_keeps (fun _ _ _ => ?_) ?_
    | split
    | with_reducible apply H.mk'

theorem raiseKeeps_State_safetyRamp {P : State → Prop} (H : RaiseKeeps P) (s : State) (h : Fin 8) (keep_s : P s) : P (State.safetyRamp s h) := by
  unfold State.safetyRamp
  try dsimp only
  repeat' first
    | with_reducible assumption
    | with_reducible apply raiseKeeps_State_put H
    | with_reducible refine ite_keeps (fun _ => ?_) (fun _ => ?_)
    | with_reducible refine foldl_keeps (fun _ _ _ => ?_) ?_
    | split
    | with_reducible apply H.mk'
    | (simp [raiseTouches, Field.i, Field.h, Field.sub, hamletBase, Reg.LNK_CNTn, Reg.LNK_FLOWf_STAT, Reg.LNK_ULC_CFG, Reg.LNK_STAT, Reg.LNK_CAP, Reg.FLT_LOGn_W0, Fld.TXC_PATHk_MUTE]; try omega)

theorem raiseKeeps_State_cancelBeam {P : State → Prop} (H : RaiseKeeps P) (s : State) (h : Fin 8) (keep_s : P s) : P (State.cancelBeam s h) := by
  unfold State.cancelBeam
  try dsimp only
  repeat' first
    | with_reducible assumption
    | with_reducible apply raiseKeeps_State_put H
    | with_reducible refine ite_keeps (fun _ => ?_) (fun _ => ?_)
    | with_reducible refine foldl_keeps (fun _ _ _ => ?_) ?_
    | split
    | with_reducible apply H.mk'
    | (simp [raiseTouches, Field.i, Field.h, Field.sub, hamletBase, Reg.LNK_CNTn, Reg.LNK_FLOWf_STAT, Reg.LNK_ULC_CFG, Reg.LNK_STAT, Reg.LNK_CAP, Reg.FLT_LOGn_W0, Fld.BFM_COMMIT_CTRL_GO, Fld.BFM_COMMIT_STAT_CANCEL, Fld.BFM_COMMIT_STAT_PEND]; try omega)

theorem raiseKeeps_State_cancelSwaps {P : State → Prop} (H : RaiseKeeps P) (s : State) (h : Fin 8) (keep_s : P s) : P (State.cancelSwaps s h) := by
  unfold State.cancelSwaps
  try dsimp only
  repeat' first
    | with_reducible assumption
    | with_reducible apply raiseKeeps_State_put H
    | with_reducible refine ite_keeps (fun _ => ?_) (fun _ => ?_)
    | with_reducible refine foldl_keeps (fun _ _ _ => ?_) ?_
    | split
    | with_reducible apply H.mk'
    | (simp [raiseTouches, Field.i, Field.h, Field.sub, hamletBase, Reg.LNK_CNTn, Reg.LNK_FLOWf_STAT, Reg.LNK_ULC_CFG, Reg.LNK_STAT, Reg.LNK_CAP, Reg.FLT_LOGn_W0, Fld.DPD_STATk_HELD, Fld.DPD_STATk_PEND, Fld.RXC_FSTAT_PEND, Fld.TXC_CFR_STAT_PEND, Fld.TXC_FSTAT_PEND]; try omega)

theorem raiseKeeps_State_releaseTimers {P : State → Prop} (H : RaiseKeeps P) (s : State) (h : Fin 8) (keep_s : P s) : P (State.releaseTimers s h) := by
  unfold State.releaseTimers
  try dsimp only
  repeat' first
    | with_reducible assumption
    | with_reducible apply raiseKeeps_State_put H
    | with_reducible refine ite_keeps (fun _ => ?_) (fun _ => ?_)
    | with_reducible refine foldl_keeps (fun _ _ _ => ?_) ?_
    | split
    | with_reducible apply H.mk'
    | (simp [raiseTouches, Field.i, Field.h, Field.sub, hamletBase, Reg.LNK_CNTn, Reg.LNK_FLOWf_STAT, Reg.LNK_ULC_CFG, Reg.LNK_STAT, Reg.LNK_CAP, Reg.FLT_LOGn_W0, Fld.EVT_TMRn_CFG_EN, Fld.EVT_TMRn_CFG_OWNER]; try omega)

theorem raiseKeeps_State_cancelSlot {P : State → Prop} (H : RaiseKeeps P) (s : State) (h : Fin 8) (keep_s : P s) : P (State.cancelSlot s h) := by
  unfold State.cancelSlot
  try dsimp only
  repeat' first
    | with_reducible assumption
    | with_reducible apply raiseKeeps_State_put H
    | with_reducible refine ite_keeps (fun _ => ?_) (fun _ => ?_)
    | with_reducible refine foldl_keeps (fun _ _ _ => ?_) ?_
    | split
    | with_reducible apply H.mk'
    | (simp [raiseTouches, Field.i, Field.h, Field.sub, hamletBase, Reg.LNK_CNTn, Reg.LNK_FLOWf_STAT, Reg.LNK_ULC_CFG, Reg.LNK_STAT, Reg.LNK_CAP, Reg.FLT_LOGn_W0, Fld.SLT_STAT_CHECKING, Fld.SLT_STAT_PEND]; try omega)

theorem raiseKeeps_State_loseCal {P : State → Prop} (H : RaiseKeeps P) (s : State) (h : Fin 8) (kinds : ℕ → Bool) (keep_s : P s) : P (State.loseCal s h kinds) := by
  unfold State.loseCal
  try dsimp only
  repeat' first
    | with_reducible assumption
    | with_reducible refine ite_keeps (fun _ => ?_) (fun _ => ?_)
    | with_reducible refine foldl_keeps (fun _ _ _ => ?_) ?_
    | split
    | with_reducible apply H.mk'

theorem raiseKeeps_State_safetyStep2 {P : State → Prop} (H : RaiseKeeps P) (s : State) (h : Fin 8) (keep_s : P s) : P (State.safetyStep2 s h) := by
  unfold State.safetyStep2
  try dsimp only
  repeat' first
    | with_reducible assumption
    | with_reducible apply raiseKeeps_State_loseCal H
    | with_reducible apply raiseKeeps_State_releaseTimers H
    | with_reducible apply raiseKeeps_State_cancelSwaps H
    | with_reducible apply raiseKeeps_State_cancelSlot H
    | with_reducible apply raiseKeeps_State_cancelBeam H
    | with_reducible apply raiseKeeps_State_safetyRamp H

theorem raiseKeeps_State_safetyClear {P : State → Prop} (H : RaiseKeeps P) (s : State) (h : Fin 8) (keep_s : P s) : P (State.safetyClear s h) := by
  unfold State.safetyClear
  try dsimp only
  repeat' first
    | with_reducible assumption
    | with_reducible apply raiseKeeps_State_safetyStep2 H
    | with_reducible apply raiseKeeps_State_forcePins H
    | with_reducible apply raiseKeeps_State_releaseTimers H
    | with_reducible apply raiseKeeps_State_cancelSwaps H
    | with_reducible apply raiseKeeps_State_cancelSlot H
    | with_reducible apply raiseKeeps_State_cancelBeam H
    | with_reducible apply raiseKeeps_State_put H
    | with_reducible refine ite_keeps (fun _ => ?_) (fun _ => ?_)
    | with_reducible refine foldl_keeps (fun _ _ _ => ?_) ?_
    | split
    | with_reducible apply H.mk'
    | (simp [raiseTouches, Field.i, Field.h, Field.sub, hamletBase, Reg.LNK_CNTn, Reg.LNK_FLOWf_STAT, Reg.LNK_ULC_CFG, Reg.LNK_STAT, Reg.LNK_CAP, Reg.FLT_LOGn_W0, Fld.ORX_STAT_OWNER, Fld.TXC_PATHk_MUTE, Fld.TXC_STAT_SAFE]; try omega)

theorem raiseKeeps_State_safetyClearAll {P : State → Prop} (H : RaiseKeeps P) (s : State) (keep_s : P s) : P (State.safetyClearAll s) := by
  unfold State.safetyClearAll
  try dsimp only
  repeat' first
    | with_reducible assumption
    | with_reducible apply raiseKeeps_State_safetyClear H
    | with_reducible refine ite_keeps (fun _ => ?_) (fun _ => ?_)
    | with_reducible refine foldl_keeps (fun _ _ _ => ?_) ?_

theorem raiseKeeps_State_tallySend {P : State → Prop} (H : RaiseKeeps P) (s : State) (up : Bool) (dn : Bool) (op : ℕ) (args : List ℕ) (copies : ℕ) (keep_s : P s) : P (State.tallySend s up dn op args copies) := by
  unfold State.tallySend
  try dsimp only
  repeat' first
    | with_reducible assumption
    | with_reducible apply raiseKeeps_State_emit H
    | with_reducible refine ite_keeps (fun _ => ?_) (fun _ => ?_)
    | with_reducible refine foldl_keeps (fun _ _ _ => ?_) ?_
    | split
    | with_reducible apply H.mk'

theorem raiseKeeps_State_sendInd {P : State → Prop} (H : RaiseKeeps P) (s : State) (i : Indic) (keep_s : P s) : P (State.sendInd s i) := by
  unfold State.sendInd
  try dsimp only
  repeat' first
    | with_reducible assumption
    | with_reducible apply raiseKeeps_State_stage H
    | with_reducible refine ite_keeps (fun _ => ?_) (fun _ => ?_)
    | with_reducible refine foldl_keeps (fun _ _ _ => ?_) ?_
    | split
    | with_reducible apply H.mk'
    | decide

theorem raiseKeeps_State_indicate {P : State → Prop} (H : RaiseKeeps P) (s : State) (i : Indic) (keep_s : P s) : P (State.indicate s i) := by
  unfold State.indicate
  try dsimp only
  repeat' first
    | with_reducible assumption
    | with_reducible apply raiseKeeps_State_sendInd H
    | with_reducible refine ite_keeps (fun _ => ?_) (fun _ => ?_)
    | with_reducible refine foldl_keeps (fun _ _ _ => ?_) ?_
    | split
    | with_reducible apply H.mk'

theorem raiseKeeps_State_breadcrumb {P : State → Prop} (H : RaiseKeeps P) (s : State) (n : Fin 32) (keep_s : P s) : P (State.breadcrumb s n) := by
  unfold State.breadcrumb
  dsimp only
  generalize (match List.find? _ (List.finRange 8) with | some j => j | none => _) = j
  simp only [show List.range 6 = [0, 1, 2, 3, 4, 5] from rfl, List.foldl]
  repeat' first
    | with_reducible assumption
    | with_reducible apply raiseKeeps_State_wr H
    | (simp [raiseTouches]; omega)

theorem raiseKeeps_State_setCurrent {P : State → Prop} (H : RaiseKeeps P) (s : State) (n : ℕ) (sev : ℕ) (elem : ℕ) (keep_s : P s) : P (State.setCurrent s n sev elem) := by
  unfold State.setCurrent
  try dsimp only
  repeat' first
    | with_reducible assumption
    | with_reducible apply raiseKeeps_State_put H
    | with_reducible refine ite_keeps (fun _ => ?_) (fun _ => ?_)
    | with_reducible refine foldl_keeps (fun _ _ _ => ?_) ?_
    | split
    | with_reducible apply H.mk'
    | (simp [raiseTouches, Field.i, Field.h, Field.sub, hamletBase, Reg.LNK_CNTn, Reg.LNK_FLOWf_STAT, Reg.LNK_ULC_CFG, Reg.LNK_STAT, Reg.LNK_CAP, Reg.FLT_LOGn_W0, Fld.FLT_RCV_BUSY, Fld.FLT_RCV_ELEM, Fld.FLT_RCV_IDX, Fld.FLT_RCV_NEW, Fld.FLT_RCV_SEV]; try omega)

theorem raiseKeeps_State_trimQueue {P : State → Prop} (H : RaiseKeeps P) (s : State) (keep_s : P s) : P (State.trimQueue s) := by
  unfold State.trimQueue
  try dsimp only
  repeat' first
    | with_reducible assumption
    | with_reducible apply raiseKeeps_State_inc H
    | with_reducible refine ite_keeps (fun _ => ?_) (fun _ => ?_)
    | with_reducible refine foldl_keeps (fun _ _ _ => ?_) ?_
    | split
    | with_reducible apply H.mk'
    | (simp [raiseTouches, Field.i, Field.h, Field.sub, hamletBase, Reg.LNK_CNTn, Reg.LNK_FLOWf_STAT, Reg.LNK_ULC_CFG, Reg.LNK_STAT, Reg.LNK_CAP, Reg.FLT_LOGn_W0, Fld.FLT_CNTn_COUNT, Fld.FLT_LOGn_W0_SEV]; try omega)

theorem raiseKeeps_State_requestIsolation {P : State → Prop} (H : RaiseKeeps P) (s : State) (h : Fin 8) (cause : ℕ) (keep_s : P s) : P (State.requestIsolation s h cause) := by
  unfold State.requestIsolation
  try dsimp only
  repeat' first
    | with_reducible assumption
    | with_reducible apply raiseKeeps_State_forcePins H
    | with_reducible apply raiseKeeps_State_clrBit H
    | with_reducible apply raiseKeeps_State_put H
    | with_reducible refine ite_keeps (fun _ => ?_) (fun _ => ?_)
    | with_reducible refine foldl_keeps (fun _ _ _ => ?_) ?_
    | split
    | with_reducible apply H.mk'
    | (simp [raiseTouches, Field.i, Field.h, Field.sub, hamletBase, Reg.LNK_CNTn, Reg.LNK_FLOWf_STAT, Reg.LNK_ULC_CFG, Reg.LNK_STAT, Reg.LNK_CAP, Reg.FLT_LOGn_W0, Fld.FLT_STAT_ISO, Fld.LNK_ULC_CFG_HMASK, Fld.ORX_STAT_OWNER]; try omega)

theorem raiseKeeps_State_askRecovery {P : State → Prop} (H : RaiseKeeps P) (s : State) (n : Fin 32) (num : ℕ) (sev : ℕ) (elem : ℕ) (keep_s : P s) : P (State.askRecovery s n num sev elem) := by
  have hci : s.get Fld.FLT_RCV_IDX < 32 := State.get_lt s Fld.FLT_RCV_IDX
  unfold State.askRecovery
  try dsimp only
  repeat' first
    | with_reducible assumption
    | with_reducible apply raiseKeeps_State_setCurrent H
    | with_reducible apply raiseKeeps_State_inc H
    | with_reducible apply raiseKeeps_State_put H
    | with_reducible apply raiseKeeps_State_requestIsolation H
    | with_reducible apply raiseKeeps_State_breadcrumb H
    | with_reducible apply raiseKeeps_State_trimQueue H
    | with_reducible refine ite_keeps (fun _ => ?_) (fun _ => ?_)
    | with_reducible refine foldl_keeps (fun _ _ _ => ?_) ?_
    | split
    | with_reducible apply H.mk'
    | (simp [raiseTouches, Field.i, Field.h, Field.sub, hamletBase, Reg.LNK_CNTn, Reg.LNK_FLOWf_STAT, Reg.LNK_ULC_CFG, Reg.LNK_STAT, Reg.LNK_CAP, Reg.FLT_LOGn_W0, Fld.FLT_CNTn_COUNT, Fld.FLT_LOGn_W0_ESC, Fld.FLT_RCV_BUSY, Fld.FLT_RCV_ELEM, Fld.FLT_RCV_NEW, Fld.FLT_RCV_PREEMPTED, Fld.FLT_RCV_SEV]; try omega)

theorem raiseKeeps_State_faultAction {P : State → Prop} (H : RaiseKeeps P) (s : State) (num : ℕ) (sev : ℕ) (elem : ℕ) (keep_s : P s) : P (State.faultAction s num sev elem) := by
  unfold State.faultAction
  try dsimp only
  repeat' first
    | with_reducible assumption
    | with_reducible apply raiseKeeps_State_requestIsolation H
    | with_reducible apply raiseKeeps_State_safetyClearAll H
    | with_reducible apply raiseKeeps_State_tallySend H
    | with_reducible refine ite_keeps (fun _ => ?_) (fun _ => ?_)

theorem raiseKeeps_State_wrAll {P : State → Prop} (H : RaiseKeeps P) (s : State) (a : ℕ) (x2 : List Word) (keep_s : P s) (ht : ∀ i < x2.length, raiseTouches (a + 4 * i) = true) : P (State.wrAll s a x2) := by
  induction x2 generalizing s a with
  | nil => exact keep_s
  | cons w t ih =>
    refine ih _ _ (H.wr _ _ _ (by simpa using ht 0 (by simp)) keep_s) fun i hi => ?_
    have := ht (i + 1) (by simpa using hi)
    rwa [show a + 4 * (i + 1) = a + 4 + 4 * i by omega] at this

theorem raiseKeeps_State_takeEntry {P : State → Prop} (H : RaiseKeeps P) (s : State) (n : Fin 32) (num : ℕ) (sev : ℕ) (elem : ℕ) (info : ℕ) (send : Bool) (keep_s : P s) : P (State.takeEntry s n num sev elem info send) := by
  unfold State.takeEntry
  dsimp only
  apply H.mk'
  refine raiseKeeps_State_wrAll H _ _ _ keep_s fun i hi => ?_
  have hi : i < 6 := hi
  simp [raiseTouches, Reg.FLT_LOGn_W0]
  omega

theorem raiseKeeps_State_newFault {P : State → Prop} (H : RaiseKeeps P) (s : State) (num : ℕ) (sev : ℕ) (elem : ℕ) (info : ℕ) (ind : Bool) (keep_s : P s) : P (State.newFault s num sev elem info ind) := by
  unfold State.newFault
  try dsimp only
  repeat' first
    | with_reducible assumption
    | with_reducible apply raiseKeeps_State_inc H
    | with_reducible apply raiseKeeps_State_takeEntry H
    | with_reducible apply raiseKeeps_State_breadcrumb H
    | with_reducible apply raiseKeeps_State_indicate H
    | with_reducible apply raiseKeeps_State_askRecovery H
    | with_reducible apply raiseKeeps_State_faultAction H
    | with_reducible refine ite_keeps (fun _ => ?_) (fun _ => ?_)
    | with_reducible refine foldl_keeps (fun _ _ _ => ?_) ?_
    | split
    | with_reducible apply H.mk'
    | (simp [raiseTouches, Field.i, Field.h, Field.sub, hamletBase, Reg.LNK_CNTn, Reg.LNK_FLOWf_STAT, Reg.LNK_ULC_CFG, Reg.LNK_STAT, Reg.LNK_CAP, Reg.FLT_LOGn_W0, Fld.FLT_CFG_NOTEI, Fld.FLT_CNTn_COUNT]; try omega)

theorem raiseKeeps_State_enterFault {P : State → Prop} (H : RaiseKeeps P) (s : State) (o : Option (Fin 32)) (num : ℕ) (sev : ℕ) (elem : ℕ) (info : ℕ) (ind : Bool) (keep_s : P s) : P (State.enterFault s o num sev elem info ind) := by
  unfold State.enterFault
  try dsimp only
  repeat' first
    | with_reducible assumption
    | with_reducible apply raiseKeeps_State_inc H
    | with_reducible apply raiseKeeps_State_newFault H
    | with_reducible refine ite_keeps (fun _ => ?_) (fun _ => ?_)
    | with_reducible refine foldl_keeps (fun _ _ _ => ?_) ?_
    | split
    | with_reducible apply H.mk'
    | (simp [raiseTouches, Field.i, Field.h, Field.sub, hamletBase, Reg.LNK_CNTn, Reg.LNK_FLOWf_STAT, Reg.LNK_ULC_CFG, Reg.LNK_STAT, Reg.LNK_CAP, Reg.FLT_LOGn_W0, Fld.FLT_LOGn_W4_REPEAT]; try omega)

theorem raiseKeeps_State_raiseSev {P : State → Prop} (H : RaiseKeeps P) (s : State) (num : ℕ) (sev : ℕ) (elem : ℕ) (info : ℕ) (ind : Bool) (keep_s : P s) : P (State.raiseSev s num sev elem info ind) := by
  unfold State.raiseSev
  try dsimp only
  repeat' first
    | with_reducible assumption
    | with_reducible apply raiseKeeps_State_enterFault H
    | with_reducible apply raiseKeeps_State_inc H
    | with_reducible refine ite_keeps (fun _ => ?_) (fun _ => ?_)
    | with_reducible refine foldl_keeps (fun _ _ _ => ?_) ?_
    | split
    | with_reducible apply H.mk'
    | (simp [raiseTouches, Field.i, Field.h, Field.sub, hamletBase, Reg.LNK_CNTn, Reg.LNK_FLOWf_STAT, Reg.LNK_ULC_CFG, Reg.LNK_STAT, Reg.LNK_CAP, Reg.FLT_LOGn_W0, Fld.FLT_CNTn_COUNT]; try omega)

theorem raiseKeeps_State_raise {P : State → Prop} (H : RaiseKeeps P) (s : State) (num : ℕ) (elem : ℕ) (info : ℕ) (keep_s : P s) : P (State.raise s num elem info) := by
  unfold State.raise
  try dsimp only
  repeat' first
    | with_reducible assumption
    | with_reducible apply raiseKeeps_State_raiseSev H

/-- A register that raising a fault cannot write reads as before. -/
theorem State.raise_rd (s : State) (num elem info : Nat) {a : Nat} (h : raiseTouches a = false) : (s.raise num elem info).rd a = s.rd a := by
  have H : RaiseKeeps (fun t => ∀ a, raiseTouches a = false → t.rd a = s.rd a) := by
    refine ⟨fun e hs a ha => (State.rd_congr e a).trans (hs a ha), fun t b v hb ht a ha => ?_⟩
    rw [State.rd_wr_ne t v (fun e => by rw [e, hb] at ha; cases ha)]
    exact ht a ha
  exact raiseKeeps_State_raise H s num elem info (fun _ _ => rfl) a h

/-- A field of a register that raising a fault cannot write reads as before. -/
theorem State.raise_get (s : State) (num elem info : Nat) {f : Field} (h : raiseTouches f.reg = false) : (s.raise num elem info).get f = s.get f := by
  unfold State.get
  rw [State.raise_rd s num elem info h]

end Sys2Proof.Machine
end

