-- ==== Sys2Proof/WellFormed.lean ====
section
/-!
DEFINITION. Which commands are well formed: a requester with a privilege it can have (R47), a register address that is a 32-bit word of the address space (R8, R35), the
fields of a message within their widths (R190, R191, R193, R197), the number of a symbol (R56), bytes that are bytes. Every other operand is within its range by its type.
-/

namespace Sys2Proof

/-- A requester of R47: an engine at task or kernel level, a DMA channel, the Reeve at any level, the gateway. -/
def Req.wf (r : Req) : Bool :=
  (decide (r.id < 8) && decide (r.priv < 2)) || (decide (8 ≤ r.id) && decide (r.id < 16) && r.priv == 3)
    || (r.id == 16 && decide (r.priv < 3)) || (r.id == 17 && r.priv == 3)

/-- The header fields of a message within their widths (R180, R190, R193). -/
def Hdr.wf (m : Hdr) : Bool :=
  decide (m.flow < 256) && decide (m.rev < 16) && decide (m.cat < 2) && decide (m.size < 65536) && decide (m.seq < 65536)

/-- The number of a symbol (R56): frame modulo 256, subframe, slot and symbol. -/
def SymId.wf (y : SymId) : Bool := decide (y.frame < 256) && decide (y.sub < 10) && decide (y.slot < 8) && decide (y.sym < 14)

/-- The address of a register. -/
def regAddrOk (a : Nat) : Bool := decide (a < 2 ^ 32) && a % 4 == 0

/-- A list of bytes. -/
def bytesOk (l : List Nat) : Bool := l.all fun b => decide (b < 256)

/-- Is a command well formed? -/
def Instr.wf : Instr → Bool
  | .registerWrite r a _ => r.wf && regAddrOk a
  | .counterReadClear r a _ => r.wf && regAddrOk a
  | .blockLock r a _ => r.wf && regAddrOk a
  | .carrierCommitGo r _ => r.wf
  | .carrierCommitTakeEffect => true
  | .rtcMessage m _ _ => m.wf
  | .explicitWeightMessage m _ _ => m.wf
  | .weightBankClear _ => true
  | .weightRefcarChange => true
  | .bfmCommitGo r _ _ => r.wf
  | .bfmCommitInstant _ => true
  | .bfmCopyDone _ => true
  | .bfmBasesTakeEffect _ => true
  | .hmaskWrite r _ => r.wf
  | .hamletRejoin _ => true
  | .slotTableCommit r _ _ => r.wf
  | .slotTableCheckEnd _ => true
  | .slotTableSwap _ => true
  | .slotEntryLatch _ _ => true
  | .slotActionPins _ => true
  | .slotActionOrxTrigger _ => true
  | .slotActionEngineEvent _ => true
  | .gainStatePins _ => true
  | .sltEditGo r _ _ => r.wf
  | .sltEditCopy _ => true
  | .sltEnableTakeEffect _ => true
  | .fepClaim r _ _ => r.wf
  | .fepRelease r _ _ => r.wf
  | .fepSafeWrite r _ _ => r.wf
  | .fepGpioWrite r _ _ => r.wf
  | .dlIqMessage m _ _ => m.wf
  | .dlDataDeadline _ x n => (x.symbol n).wf
  | .txFilterSwapRequest r _ _ => r.wf
  | .filterSwap _ _ _ => true
  | .filterSwapFallback _ _ _ => true
  | .rxFilterSwapRequest r _ _ => r.wf
  | .cfrSwapRequest r _ _ => r.wf
  | .cfrPulseSwap _ _ => true
  | .dpdSwapRequest r _ _ _ => r.wf
  | .dpdFadeStart _ _ _ => true
  | .dpdFadeEnd _ _ => true
  | .halfSubframeSettings _ => true
  | .muteRampStart _ _ => true
  | .muteRampEnd _ _ => true
  | .safetyRamp _ _ => true
  | .safetyRampEnd _ => true
  | .dacClockGate _ => true
  | .txDataResume _ => true
  | .rxContributionResume _ => true
  | .rxOverrange _ _ _ _ _ => true
  | .ulCombine _ y _ => y.wf
  | .prachOccasionStart _ _ => true
  | .prachOccasionEnd _ _ => true
  | .prachSettingsTakeEffect => true
  | .orxClaim r _ _ => r.wf
  | .orxRelease r _ _ => r.wf
  | .orxReady _ _ => true
  | .orxNcoWrite r _ _ => r.wf
  | .orxTriggerGo r _ _ => r.wf
  | .orxStop r _ _ => r.wf
  | .captureTrigger _ => true
  | .captureSettled _ => true
  | .captureGroup _ _ _ => true
  | .deepFlowResume _ => true
  | .captureEnd _ _ => true
  | .captureRecordNext r _ _ => r.wf
  | .orxClip _ _ => true
  | .deepFlowMessage _ => true
  | .linkEnable r _ => r.wf
  | .linkRetrain r _ => r.wf
  | .trainingFrame _ _ _ => true
  | .trainingPhaseTimeout _ _ => true
  | .trainingComplete _ _ _ => true
  | .trainingRetry => true
  | .codewordReceived low d8 _ => (d8 :: low).all (fun l => l.all (fun x => decide (x < 4)))
  | .replayTimeout => true
  | .codewordTransmit => true
  | .lmSubstituteDataLane _ _ => true
  | .lmSubstitutionDone _ => true
  | .lmSubstituteClockLane _ => true
  | .lmRetrain => true
  | .lmL1Request _ => true
  | .lmL1Accept _ => true
  | .lmL1Refuse => true
  | .l1Entry => true
  | .l1Exit _ => true
  | .l2ClockDetect _ => true
  | .laneFailure _ _ => true
  | .clockLaneFailure _ => true
  | .substitutionSwitch _ => true
  | .substitutionTimeout => true
  | .linkSilenceTimeout => true
  | .genericDataMessage m payload => m.wf && bytesOk payload
  | .oneWayDelayMessage m _ _ _ => m.wf
  | .ptpMessageRx bytes _ => bytesOk bytes
  | .l0MessageTx => true
  | .remoteResetRequest m _ _ vendor => m.wf && bytesOk vendor
  | .remoteResetExecute => true
  | .eventAck m _ => m.wf
  | .eventSyncRequest m _ => m.wf
  | .eventIndicationResend => true
  | .rmaRequest m id op low elem addr len data => m.wf && decide (id < 256) && decide (op < 16) && decide (low < 16) && decide (elem < 65536) && decide (addr < 2 ^ 48) && decide (len < 65536) && bytesOk data
  | .laniedPllLossOfLock => true
  | .laniedPllLock _ => true
  | .timNowRead r => r.wf
  | .fnoffTakeEffect => true
  | .timUtcWrite r _ => r.wf
  | .utcOffsetChange => true
  | .ppsEdge _ => true
  | .mgpFrameRx header body crc _ => bytesOk (header ++ body ++ crc)
  | .mgpFrameTx _ => true
  | .mgpLinkChange _ _ => true
  | .sourceStale _ => true
  | .measurementCommit r _ => r.wf
  | .timeStep => true
  | .vcxoEnable r _ => r.wf
  | .schedActionQueued _ => true
  | .eventActionPins _ => true
  | .eventActionOrxTrigger _ => true
  | .eventActionEngineEvent _ => true
  | .eventActionDmaTrigger _ => true
  | .evtTimerWrite r _ _ _ _ => r.wf
  | .eventTimerFire _ _ => true
  | .engEvqRead r _ => r.wf
  | .sysEvqRead r => r.wf
  | .calendarCompensation _ => true
  | .calendarOscFail _ => true
  | .calendarSyncWrite r _ => r.wf
  | .calendarLoad => true
  | .tallyWindow _ body _ => bytesOk body
  | .hopDelayAverage _ => true
  | .syncoutPulse => true
  | .tallySyncEdge _ _ => true
  | .followerSlew => true
  | .tlyEnum r => r.wf
  | .tlyEnumf r => r.wf
  | .tlyMute r => r.wf
  | .tlyCommit r => r.wf
  | .tlyStepauth r => r.wf
  | .tallyCommandReceived _ _ _ => true
  | .tallyCommandTarget => true
  | .fanoutReceived _ => true
  | .enumToken _ _ => true
  | .enumLastTimeout => true
  | .census _ => true
  | .add _ _ _ _ => true
  | .sub _ _ _ _ => true
  | .addc _ _ _ _ => true
  | .subc _ _ _ _ => true
  | .and _ _ _ _ => true
  | .or _ _ _ _ => true
  | .xor _ _ _ _ => true
  | .sll _ _ _ _ => true
  | .srl _ _ _ _ => true
  | .sra _ _ _ _ => true
  | .slli _ _ _ _ => true
  | .srli _ _ _ _ => true
  | .srai _ _ _ _ => true
  | .slt _ _ _ _ => true
  | .sltu _ _ _ _ => true
  | .mul _ _ _ _ => true
  | .mulh _ _ _ _ => true
  | .mulhu _ _ _ _ => true
  | .min _ _ _ _ => true
  | .max _ _ _ _ => true
  | .abs _ _ _ => true
  | .clz _ _ _ => true
  | .jr _ _ => true
  | .jalr _ _ _ => true
  | .addi _ _ _ _ => true
  | .slti _ _ _ _ => true
  | .andi _ _ _ _ => true
  | .ori _ _ _ _ => true
  | .xori _ _ _ _ => true
  | .lui _ _ _ _ => true
  | .beq _ _ _ _ => true
  | .bne _ _ _ _ => true
  | .blt _ _ _ _ => true
  | .bge _ _ _ _ => true
  | .bltu _ _ _ _ => true
  | .bgeu _ _ _ _ => true
  | .j _ _ => true
  | .jal _ _ => true
  | .ld _ _ _ _ _ _ => true
  | .ldu _ _ _ _ _ _ => true
  | .st _ _ _ _ _ _ => true
  | .seta _ _ _ _ _ => true
  | .geta _ _ _ _ _ => true
  | .adda _ _ _ _ _ => true
  | .cmac _ _ _ _ => true
  | .cmacc _ _ _ _ => true
  | .dmac _ _ _ _ => true
  | .cmul _ _ _ _ => true
  | .clracc _ _ => true
  | .ext _ _ _ _ => true
  | .extr _ _ _ _ => true
  | .mfacc _ _ _ _ => true
  | .mtacc _ _ _ _ => true
  | .smac _ _ _ _ _ _ => true
  | .smacc _ _ _ _ _ _ => true
  | .smax _ _ _ _ _ _ _ => true
  | .smin _ _ _ _ _ _ _ => true
  | .rdt _ _ => true
  | .waitt _ _ _ _ => true
  | .waittEnd _ _ => true
  | .sched _ _ _ _ => true
  | .fenceR _ => true
  | .fenceW _ => true
  | .fenceRw _ => true
  | .fenceIo _ => true
  | .fenceDma _ => true
  | .trap _ _ _ _ => true
  | .mtrap _ => true
  | .brk _ => true
  | .ret _ => true
  | .mfc _ _ _ => true
  | .mtc _ _ _ => true
  | .wait _ _ => true
  | .tlbi _ _ _ => true
  | .tlbia _ _ => true
  | .tlbiall _ => true
  | .storeBusError _ => true
  | .interruptEntry _ _ => true
  | .engRun r _ _ => r.wf
  | .engHalt r _ _ => r.wf
  | .scrubGranule _ => true
  | .rowRepair _ => true
  | .rowRemap _ => true
  | .stoRepairWrite r _ _ _ => r.wf
  | .stoInjectArm r _ _ => r.wf
  | .arbFreeze r _ _ => r.wf
  | .arbDrained _ => true
  | .arbFallbackEntry _ _ => true
  | .arbFallbackExit _ _ => true
  | .lockAcquire r _ _ => r.wf
  | .lockRelease r _ _ _ => r.wf
  | .lockFree r _ _ => r.wf
  | .dmaGo r _ _ _ => r.wf
  | .dmaAbort r _ _ _ => r.wf
  | .dmaResume r _ _ _ => r.wf
  | .dmaStrig r _ _ _ => r.wf
  | .dmaStopall r _ _ => r.wf
  | .dmaEdgeTrigger => true
  | .dmaRingRequest _ _ => true
  | .dmaDescriptorFetch _ _ => true
  | .dmaTransfer _ _ _ => true
  | .dmaWriteError _ _ => true
  | .dmaDescriptorComplete _ _ => true
  | .refinLoss _ => true
  | .refinRequalified _ => true
  | .pllAcq r _ _ => r.wf
  | .pllLockDeclared _ _ => true
  | .pllAcqTimeout _ => true
  | .pllLossOfLock _ _ => true
  | .pllSlip _ => true
  | .pllTuningMargin _ _ _ => true
  | .pllDisable r _ _ => r.wf
  | .pllAlign _ => true
  | .clkoutReconfigure r _ _ _ => r.wf
  | .clkoutAlign _ => true
  | .stileXoFail _ => true
  | .ldoVsetWrite r _ _ => r.wf
  | .hamletEnter r _ => r.wf
  | .hamletEntryComplete _ _ => true
  | .hamletWakeWrite r _ => r.wf
  | .hamletWakeReady _ _ => true
  | .hamletWakeFail _ => true
  | .calendarAlarm _ => true
  | .wakeHoldExpiry => true
  | .wakeStepPass _ => true
  | .wakeStepTimeout _ => true
  | .wakerecClear r _ => r.wf
  | .supplyChange _ _ _ => true
  | .hkRoundStart => true
  | .hkCoarseReady _ => true
  | .hkConversionEnd _ _ => true
  | .hkRecoveryClose _ => true
  | .hkRefReady _ => true
  | .hkRefTimeout => true
  | .hkRefPowerdown => true
  | .hkRoundEnd => true
  | .hkSeqGo r _ => r.wf
  | .hkSeqStop r _ => r.wf
  | .hkSeqPeriodicStart => true
  | .hkResRead r _ => r.wf
  | .hearthMonitorConversion _ _ _ => true
  | .shedTakeEffect => true
  | .rotationStep _ => true
  | .orderlyStopBias => true
  | .orderlyStopComplete => true
  | .hardCut => true
  | .thmRearm r _ => r.wf
  | .thmUnpin r _ => r.wf
  | .biasCodeWrite r _ _ => r.wf
  | .biasModeWrite r _ _ => r.wf
  | .biasSlewStep _ => true
  | .biasSineEnable r _ _ => r.wf
  | .biasSineDisable r _ _ => r.wf
  | .biasSineStart _ => true
  | .biasSineHalfCycleEnd _ => true
  | .biasClrAssert _ => true
  | .biasClrRelease _ => true
  | .calGo r _ _ => r.wf
  | .calStop r _ _ => r.wf
  | .calGuardStep _ _ => true
  | .calRunEnd _ _ _ _ => true
  | .calLiveEstimate _ _ _ _ _ => true
  | .calTimeout _ => true
  | .calPreconditionLost _ => true
  | .calRequestEnd _ => true
  | .calSubstitution _ => true
  | .bistGo r _ => r.wf
  | .bistLogicEnd _ _ => true
  | .bistMemoryPassEnd _ _ _ _ => true
  | .bistEnd _ => true
  | .bistStatRead r => r.wf
  | .watchEnable r _ => r.wf
  | .watchReady _ => true
  | .watchAgcStep _ _ _ => true
  | .watchClip _ => true
  | .rdsGroup _ _ _ _ _ _ _ => true
  | .dabFig _ bytes _ _ => bytesOk bytes
  | .dvbSection _ bytes _ _ => bytesOk bytes
  | .dmodWrite r _ _ => r.wf
  | .fmFreqWrite r _ _ => r.wf
  | .afQualityCheck _ _ _ _ => true
  | .afCandidateResult _ _ _ _ => true
  | .broadcastTimeItem _ _ _ _ _ => true
  | .btUtcRead r => r.wf
  | .sweepGo r _ => r.wf
  | .sweepStop r _ => r.wf
  | .sweepEntryEnd _ _ => true
  | .sweepEntryTimeout _ => true
  | .watchRecordSend => true
  | .stileSleep r => r.wf
  | .stileStandby r => r.wf
  | .stileSynth r => r.wf
  | .stileRx r => r.wf
  | .stileTx r => r.wf
  | .stileStateReached _ => true
  | .stileSynthLock _ => true
  | .stileTxWaitTimeout => true
  | .stilePacketSent _ => true
  | .stilePreambleDetect _ _ _ => true
  | .stileSyncDetect _ _ _ => true
  | .stilePacketRx bytes _ _ _ => bytesOk bytes
  | .stileRxTimeout => true
  | .bellSniff _ _ => true
  | .bellStartTimeout => true
  | .bellFrame _ _ _ => true
  | .hearthAnswerEnd _ => true
  | .resetLAssert _ => true
  | .resetEnd _ _ => true
  | .hearthPowerUp _ => true
  | .sysRstDev r _ => r.wf
  | .deviceReset => true
  | .reeveRestart r _ => r.wf
  | .bootImageAccepted _ img _ => bytesOk img
  | .bootFailure _ _ => true
  | .bootRetry => true
  | .bootLinkTimeout _ => true
  | .agtVerify r _ => r.wf
  | .agtRelease r _ => r.wf
  | .agtAdvance r _ => r.wf
  | .agtBurn r _ => r.wf
  | .agtRevoke r _ => r.wf
  | .agtProgkey r _ => r.wf
  | .agtLcsadv r _ => r.wf
  | .agtAttest r _ => r.wf
  | .agtIdkey r _ => r.wf
  | .agtCert r _ => r.wf
  | .agtSopen r _ => r.wf
  | .agtSrecv r _ => r.wf
  | .agtSsend r _ => r.wf
  | .agtSclose r _ => r.wf
  | .agateCommandEnd _ _ => true
  | .sessionTimeout => true
  | .bootRecordWrite r _ => r.wf
  | .fltCease r _ => r.wf
  | .fltEndRecovery r _ => r.wf
  | .fltIsolate r _ => r.wf
  | .fltSafetyClear r _ => r.wf
  | .fltRaiseSoftware r _ => r.wf
  | .fltEndSafety r _ => r.wf
  | .isolationStart _ => true
  | .isolationAfterRamp _ => true
  | .isolationComplete _ => true
  | .eventIndicationFlush => true
  | .tallyWindowMissed _ => true
  | .rdsSynchronisation _ _ => true
  | .demodulatorLock _ => true
  | .testAccessPortOperation _ _ _ => true

end Sys2Proof
end

