-- ==== Sys2Proof/Tests/Slice0.lean ====
section
/-!
SUPPORT. Tests: an ill-formed command for each check of WellFormed, which the check refuses; a few steps whose expected results are computed by hand from the manual;
and for each statement of Certificates/Slice0/Obligations.lean a state and operands that meet the hypotheses of each of its clauses. The rows of the table give no bits; the words tested here are
those that the engines fetch.
-/

namespace Sys2Proof.Machine

set_option maxRecDepth 20000
set_option Elab.async false

/-! ### WellFormed -/

theorem test_wf_requester : (Instr.carrierCommitGo ⟨18, 0⟩ 0).wf = false := by decide
theorem test_wf_privilege : (Instr.carrierCommitGo ⟨3, 2⟩ 0).wf = false ∧ (Instr.carrierCommitGo ⟨17, 1⟩ 0).wf = false := by decide
theorem test_wf_address : (Instr.registerWrite ⟨16, 2⟩ 0x04000002 0).wf = false ∧ (Instr.registerWrite ⟨16, 2⟩ (2 ^ 32) 0).wf = false := by decide
theorem test_wf_header : (Instr.eventAck ⟨256, 1, 0, 4, 0⟩ 0).wf = false ∧ (Instr.eventAck ⟨0, 16, 0, 4, 0⟩ 0).wf = false := by decide
theorem test_wf_symbol : (Instr.dlDataDeadline 0 ⟨0, 10, 0⟩ 0).wf = false ∧ (Instr.dlDataDeadline 0 ⟨0, 0, 0⟩ 14).wf = false := by decide
theorem test_wf_bytes : (Instr.ptpMessageRx [256] 0).wf = false := by decide
theorem test_wf_levels : (Instr.codewordReceived [] [4] 0).wf = false := by decide
theorem test_wf_rma : (Instr.rmaRequest ⟨1, 1, 0, 12, 0⟩ 0 16 0 0 0 4 []).wf = false := by decide
theorem test_wf_ok : (Instr.registerWrite ⟨16, 2⟩ 0x04000040 0).wf = true := by decide

/-! ### Helpers -/

/-- Engine `e` runs, with its PC in its own store at a NOP, `OR g0, g0, g0` (a hamlet's domain is ACTIVE). -/
def State.engReady (s : State) (e : Fin 9) : State :=
  let s := if e.val < 8 then s.put (Fld.PWR_HSTATE_STATE.sub e) 3 else s
  let b : Nat := if e.val < 8 then 0x10000000 + 0x1000000 * e.val + 0x100 else 0x100000
  { s with eng := s.eng.set e { s.eng[e] with state := 1, pc := b }, mem := memWrite s.mem b 4#8 }

/-- The word of carrier 0's configuration, written and in force. -/
def cell (n : Nat) (w : Nat) (s : State) : State :=
  (s.ewr (Reg.LNK_CAR_CFGn + 4 * n) (BitVec.ofNat 32 w)).wr (Reg.LNK_CAR_CFGn + 4 * n) (BitVec.ofNat 32 w)

/-- Carrier 0 is defined: NR at 15 kHz, TDD, 100 PRBs. -/
def cell0 (s : State) : State := cell 0 (2 ^ 31 + 100) s

/-- Hamlet `h` is ACTIVE and in service. -/
def served (h : Fin 8) (s : State) : State :=
  { (s.put (Fld.PWR_HSTATE_STATE.sub h) 3).put Fld.LNK_ULC_CFG_HMASK (s.get Fld.LNK_ULC_CFG_HMASK ||| 2 ^ h.val) with rejoin := s.rejoin.set h none }

/-- An entry of the slot table is latched for the slot that begins at `at0`. -/
def latch1 (h : Fin 8) (w : List Word) (at0 : Nat) (s : State) : State :=
  { s with slt := s.slt.set h { s.slt[h] with latched := [⟨at0, 0, 0, w, 0, 0, 0, 0, 0⟩] } }

/-! ### Steps -/

/-- R14: one tick is 1/491.52 MHz; 491,520,000 of them are a second. -/
theorem test_tick : 491520000 * tickU = secU := by decide

/-- R12: the worked case of the manual: element 43 is path 3 of hamlet H5. -/
theorem test_element : 43 / 8 = 5 ∧ 43 % 8 = 3 := by decide

/-- R157: an event tick is exactly 9 observation sample periods. -/
theorem test_orx_tick : tickU = 9 * orxU := by decide

/-- R34: `TIM_STEPCTL` is the Reeve's: a hamlet engine's write is turned away, recorded with reason 4 (R47). -/
theorem test_refused_write : (match exec (.registerWrite ⟨0, 1⟩ Reg.TIM_STEPCTL 1) State.reset with
    | .next t => t.get Fld.SYS_BADACC_CNT_COUNT
    | _ => 0) = 1 := by decide +kernel

/-- R244, R256: 0xFFFFFFFF + 1 is 0 with Z and C set, N and V clear. -/
theorem test_add_wraps : (match exec (.add 8 3 1 2) (let s := State.reset.engReady 8
    { s with eng := s.eng.set 8 ((s.eng[8].setG 1 0xFFFFFFFF#32).setG 2 1#32) }) with
    | .next t => t.eng[8].flg
    | _ => 0) = 5#16 := by decide +kernel

/-! ### Instruction words, put together by hand from the formats of R247 and the list of R256 -/

/-- R248: NOP is `OR g0, g0, g0`; the word 0, an FN and an OP that the list does not have spell nothing. -/
theorem test_word_nop : wimakoDecode 8 0x00000004 = some (.or 8 0 0 0) ∧ wimakoDecode 8 0 = none ∧ wimakoDecode 8 0x0000001F = none
    ∧ wimakoDecode 8 0x1C000000 = none := by decide +kernel

/-- Format R: `ADD g3, g1, g2` is 000000 00011 00001 00010 00000000001. -/
theorem test_word_r : wimakoDecode 0 0x00611001 = some (.add 0 3 1 2) := by decide +kernel

/-- Formats I and B: `ADDI g5, g6, 0x8001` is 000001 00101 00110 1000000000000001; `BEQ g2, g7, -1` is 001000 00010 00111 1111111111111111. -/
theorem test_word_ib : wimakoDecode 0 0x04A68001 = some (.addi 0 5 6 0x8001) ∧ wimakoDecode 0 0x2047FFFF = some (.beq 0 2 7 0xFFFF) := by decide +kernel

/-- Format J: `JAL 1` is 001111 and 26 bits. -/
theorem test_word_j : wimakoDecode 0 0x3C000001 = some (.jal 0 1) := by decide +kernel

/-- Formats M and A: `LD g4, a5` with AM 2 and SZ 1 is 010000 00100 101 10 01 and 14 zeros; `SETA m6 := g3 + 16` is 010100 110 01 00011 0000000000010000. -/
theorem test_word_ma : wimakoDecode 0 0x40964000 = some (.ld 0 4 5 2 1 0) ∧ wimakoDecode 0 0x53230010 = some (.seta 0 6 1 3 16) := by decide +kernel

/-- Formats X and S: `CMAC acc2, g1, g4` is 011000 0000 10 00001 00100 and ten zeros; `SMAX g9` over a3 with count g7 and MODE 1 is 011001 0010 00 01001 011 000 00111 0001. -/
theorem test_word_xs : wimakoDecode 0 0x60209000 = some (.cmac 0 2 1 4) ∧ wimakoDecode 0 0x6484B071 = some (.smax 0 9 3 0 7 1 0) := by decide +kernel

/-- Format Y: `MFC g1` of control register 0x105 is 111111 00001 0100000101 00000000010; `FENCE.W` is OP 0x3E, FN 2. -/
theorem test_word_y : wimakoDecode 0 0xFC282802 = some (.mfc 0 1 0x105) ∧ wimakoDecode 0 0xF8000002 = some (.fenceW 0) := by decide +kernel

/-! ### The hypotheses of the statements can be met

Each theorem names a statement, or a part of one, and holds one member for each of its clauses. -/

theorem plain_iff (s : State) (r : Req) (a size : Nat) (w : Bool) :
    Plain s r a size w ↔ s.check r a size w = .ok ∧ (inRegs a = false ∧ 0x40000 ≤ a) ∧ s.frozen a = false ∧ s.ecc = [] :=
  ⟨fun h => ⟨h.taken, h.store, h.free, h.clean⟩, fun h => ⟨h.1, h.2.1, h.2.2.1, h.2.2.2⟩⟩

theorem holds_iff (m : List Host.Cell) (a n v : Nat) :
    Holds m a n v ↔ v < 256 ^ n ∧ ∀ k < n, (memRead m (a + k)).toNat = v / 256 ^ k % 256 := Iff.rfl

theorem atBase_iff {e : Fin 9} {u : State} :
    AtBase e u ↔ u.eng[e].exc = false ∧ u.eng[e].mexc = false ∧ u.eng[e].lvl = 0 ∧ u.eng[e].slot = none :=
  ⟨fun ⟨a, b, c, d⟩ => ⟨a, b, c, d⟩, fun ⟨a, b, c, d⟩ => ⟨a, b, c, d⟩⟩

/-- An engine at a NOP, with its fetch allowed, executes. -/
theorem executes_nop {e : Fin 9} {s u : State} (h : s.eng[e].runs = true ∧ engFetch e s = (.ok 4, u) ∧ wimakoWord e 4 = true ∧ u.eng[e].step1.pc % 4 = 0
    ∧ ∀ h : Fin 8, hEng h = e → u.get (Fld.ENG_CTRL_HALT.h h) = 0) : Executes e s u :=
  ⟨h.1, ⟨4, h.2.1, h.2.2.1⟩, h.2.2.2.1, h.2.2.2.2⟩

theorem wit_CarrierCommit :
    (∃ s : State, ∃ r : Req, ∃ v : Word, Takes s r Reg.LNK_CAR_COMMIT ∧ getBits Fld.LNK_CAR_COMMIT_GO v = 1 ∧ getBits Fld.LNK_CAR_COMMIT_REFUSED v = 0 ∧ s.get Fld.LNK_CAR_COMMIT_GO = 0 ∧ carriersAllowed ((List.range 8).map s.carHeld) = true) ∧
    (∃ s : State, ∃ r : Req, ∃ v : Word, Takes s r Reg.LNK_CAR_COMMIT ∧ getBits Fld.LNK_CAR_COMMIT_GO v = 1 ∧ getBits Fld.LNK_CAR_COMMIT_REFUSED v = 0 ∧ s.get Fld.LNK_CAR_COMMIT_GO = 0 ∧ carriersAllowed ((List.range 8).map s.carHeld) = false) ∧
    (∃ s : State, ∃ p : CarPend, s.carPend = some p) :=
  ⟨
    ⟨(State.reset : State), (⟨16, 2⟩ : Req), ((setBits Fld.LNK_CAR_COMMIT_REFUSED (setBits Fld.LNK_CAR_COMMIT_GO (0 : Word) (1)) (0)) : Word), by decide +kernel⟩,
    ⟨((State.reset.wr Reg.LNK_CAR_CFGn (2 ^ 31)) : State), (⟨16, 2⟩ : Req), ((setBits Fld.LNK_CAR_COMMIT_REFUSED (setBits Fld.LNK_CAR_COMMIT_GO (0 : Word) (1)) (0)) : Word), by decide +kernel⟩,
    ⟨(((fun (s : State) => ({ s with carPend := some (default : CarPend) } : State)) State.reset) : State), (default : CarPend), by decide +kernel⟩⟩

theorem wit_ControlMessages :
    (∃ s : State, ∃ m : Hdr, ∃ w : Word, ∃ w0 : Word, ∃ w1 : Word, ∃ w2 : Word, ∃ t0 : Nat, ∃ u, u = ((State.takeSeq { s.at t0 with port := { s.port with inbox := dropFlow m.flow s.port.inbox } } m).arrive m.flow) ∧ ∃ d, d = (descOfWords u w.toNat w0.toNat w1.toNat w2.toNat) ∧ s.get (Fld.LNK_FLOWf_CFG_EN.i m.flow) ≠ 0 ∧ s.hdrOk m 2 20 = true ∧ w.toNat / 2 ^ 28 = 1 ∧ w.toNat % 256 = 0 ∧ descReason u d w0.toNat w2.toNat = 0) ∧
    (∃ s : State, ∃ m : Hdr, ∃ w : Word, ∃ b : Word, ∃ ws : List Word, ∃ t0 : Nat, s.get (Fld.LNK_FLOWf_CFG_EN.i m.flow) ≠ 0 ∧ s.hdrOk m 2 (12 + 4 * ws.length) = true ∧ w.toNat / 64 % 4 = 1 ∧ ws.length = 64 * (b.toNat / 4096 % 64 + 1) ∧ weightReason ((State.takeSeq { s.at t0 with port := { s.port with inbox := dropFlow m.flow s.port.inbox } } m).arrive m.flow) w.toNat b.toNat = 0 ∧ s.rtc.held = [] ∧ ((∀ h : Fin 8, s.get (Fld.ARB_CTRL_FREEZE.h h) = 0)) ∧ ((∀ k : Fin 10, s.sto[k].copy = none))) ∧
    (∃ s : State, ∃ m : Hdr, ∃ w : Word, ∃ b : Word, ∃ ws : List Word, ∃ t0 : Nat, ∃ h : Fin 8, ∃ u, u = ((State.takeSeq { s.at t0 with port := { s.port with inbox := dropFlow m.flow s.port.inbox } } m).arrive m.flow) ∧ s.get (Fld.LNK_FLOWf_CFG_EN.i m.flow) ≠ 0 ∧ s.hdrOk m 2 (12 + 4 * ws.length) = true ∧ w.toNat / 64 % 4 = 1 ∧ weightReason u w.toNat b.toNat = 0 ∧ s.rtc.held = [] ∧ u.inService h = true ∧ s.get (Fld.ARB_CTRL_FREEZE.h h) = 1) ∧
    (∃ s : State, ∃ m : Hdr, s.get (Fld.LNK_FLOWf_CFG_EN.i m.flow) = 0) :=
  ⟨
    ⟨((((fun (s : State) => (cell0 s : State)) ((fun (s : State) => (s.put (Fld.LNK_FLOWf_CFG_EN.i (⟨8, 1, 0, 20, 0x80⟩ : Hdr).flow) (1 - 0) : State)) State.reset)).put (Fld.LNK_FLOWf_CFG_CLASS.i 8) 1) : State), (⟨8, 1, 0, 20, 0x80⟩ : Hdr), (0x10000000 : Word), (8 : Word), (0x4000 : Word), (0 : Word), (0 : Nat), _, rfl, _, rfl, by decide +kernel⟩,
    ⟨(((((fun (s : State) => (cell0 s : State)) ((fun (s : State) => (s.put (Fld.LNK_FLOWf_CFG_EN.i (⟨8, 1, 0, 268, 0x80⟩ : Hdr).flow) (1 - 0) : State)) State.reset)).put (Fld.LNK_FLOWf_CFG_CLASS.i 8) 1).put Fld.LNK_WCFG_EN 1) : State), (⟨8, 1, 0, 268, 0x80⟩ : Hdr), (0x10000040 : Word), (0 : Word), (List.replicate 64 0 : List Word), (0 : Nat), by decide +kernel⟩,
    ⟨(((fun (s : State) => (served (0 : Fin 8) s : State)) ((((fun (s : State) => (cell0 s : State)) (((fun (s : State) => (s.put (Fld.LNK_FLOWf_CFG_EN.i (⟨8, 1, 0, 268, 0x80⟩ : Hdr).flow) (1 - 0) : State)) State.reset).put (Fld.ARB_CTRL_FREEZE.h (0 : Fin 8)) (1))).put (Fld.LNK_FLOWf_CFG_CLASS.i 8) 1).put Fld.LNK_WCFG_EN 1)) : State), (⟨8, 1, 0, 268, 0x80⟩ : Hdr), (0x10000040 : Word), (0 : Word), (List.replicate 64 0 : List Word), (0 : Nat), (0 : Fin 8), _, rfl, by decide +kernel⟩,
    ⟨(((fun (s : State) => (s.put (Fld.LNK_FLOWf_CFG_EN.i (default : Hdr).flow) (0) : State)) State.reset) : State), (default : Hdr), by decide +kernel⟩⟩

theorem wit_WeightBanks :
    (∃ s : State, ∃ b : Fin 2, ∃ t0 : Nat, s.bankFree b = some t0) ∧
    (∃ s : State, ∃ b : Fin 2, s.bankFree b = none) ∧
    (∃ s : State, ∃ d : Nat, s.refcarDue = some d) :=
  ⟨
    ⟨(((fun (s : State) => (cell0 s : State)) State.reset) : State), (0 : Fin 2), (((((fun (s : State) => (cell0 s : State)) State.reset) : State).bankFree (0 : Fin 2)).getD 7 : Nat), by decide +kernel⟩,
    ⟨(State.reset : State), (0 : Fin 2), by decide +kernel⟩,
    ⟨(((fun (s : State) => ({ s with refcarDue := some (0 : Nat) } : State)) State.reset) : State), (0 : Nat), by decide +kernel⟩⟩

theorem wit_BeamCommit :
    (∃ s : State, ∃ r : Req, ∃ h : Fin 8, ∃ v : Word, Takes s r (hamletBase h + Reg.BFM_COMMIT_CTRL) ∧ getBits Fld.BFM_COMMIT_CTRL_GO v = 1 ∧ getBits Fld.BFM_COMMIT_CTRL_WHEN v ≠ 3 ∧ s.get (Fld.BFM_COMMIT_STAT_PEND.h h) = 0 ∧ s.get (Fld.BFM_COMMIT_STAT_BUSY.h h) = 0 ∧ s.get (Fld.BFM_COMMIT_RANGE_COUNT.h h) ≠ 0 ∧ s.get (Fld.BFM_COMMIT_RANGE_FIRST.h h) + s.get (Fld.BFM_COMMIT_RANGE_COUNT.h h) ≤ 8192) ∧
    (∃ s : State, ∃ h : Fin 8, ∃ p : BfmPend, ∃ d : Nat, s.bfm[h].pend = some p ∧ p.due = some d) ∧
    (∃ s : State, ∃ h : Fin 8, ∃ p : BfmPend, s.bfm[h].copying = some p ∧ s.bfm[h].stalled = [] ∧ s.stalled = [] ∧ s.copyWaits h = false) ∧
    (∃ s : State, ∃ h : Fin 8, s.get (Fld.ARB_CTRL_FREEZE.h h) = 1) ∧
    (∃ s : State, ∃ h : Fin 8, ∃ d : Nat, s.bfm[h].basesDue = some d) :=
  ⟨
    ⟨(((State.reset.put (Fld.PWR_HSTATE_STATE.sub ((0 : Fin 8))) 3).put (Fld.BFM_COMMIT_RANGE_COUNT.h (0 : Fin 8)) (1 - 0)) : State), (⟨16, 2⟩ : Req), (0 : Fin 8), ((setBits Fld.BFM_COMMIT_CTRL_WHEN (setBits Fld.BFM_COMMIT_CTRL_GO (0 : Word) (1)) (1 - (3))) : Word), by decide +kernel⟩,
    ⟨(((fun (s : State) => ({ s with bfm := (s.bfm.set ((0 : Fin 8)) ({ s.bfm[(0 : Fin 8)] with pend := some ({ (default : BfmPend) with due := some (0 : Nat) } : BfmPend) })) } : State)) State.reset) : State), (0 : Fin 8), ({ (default : BfmPend) with due := some (0 : Nat) } : BfmPend), (0 : Nat), by decide +kernel⟩,
    ⟨(((fun (s : State) => ({ s with bfm := (s.bfm.set ((0 : Fin 8)) ({ s.bfm[(0 : Fin 8)] with copying := some (default : BfmPend) })) } : State)) State.reset) : State), (0 : Fin 8), (default : BfmPend), by decide +kernel⟩,
    ⟨((State.reset.put (Fld.ARB_CTRL_FREEZE.h (0 : Fin 8)) (1)) : State), (0 : Fin 8), by decide +kernel⟩,
    ⟨(((fun (s : State) => ({ s with bfm := (s.bfm.set ((0 : Fin 8)) ({ s.bfm[(0 : Fin 8)] with basesDue := some (0 : Nat) })) } : State)) State.reset) : State), (0 : Fin 8), (0 : Nat), by decide +kernel⟩⟩

theorem wit_HamletMask :
    (∃ s : State, ∃ r : Req, ∃ v : Word, ∃ h : Fin 8, Takes s r Reg.LNK_ULC_CFG ∧ ((∀ k : Fin 8, s.flt.isoStep[k] = 0 ∨ 5 ≤ s.flt.isoStep[k])) ∧ bitOf (getBits Fld.LNK_ULC_CFG_HMASK v) h = true ∧ bitOf (s.get Fld.LNK_ULC_CFG_HMASK) h = false ∧ s.rejoin[h] = none) ∧
    (∃ s : State, ∃ h : Fin 8, ∃ d : Nat, s.rejoin[h] = some d ∧ d < notActive / 2) :=
  ⟨
    ⟨(((fun (s : State) => ({ s with rejoin := s.rejoin.set (0 : Fin 8) none } : State)) State.reset) : State), (⟨16, 2⟩ : Req), (setBits Fld.LNK_ULC_CFG_HMASK 0 1 : Word), (0 : Fin 8), by decide +kernel⟩,
    ⟨(((fun (s : State) => ({ s with rejoin := (s.rejoin.set ((0 : Fin 8)) (some (0 : Nat))) } : State)) State.reset) : State), (0 : Fin 8), (0 : Nat), by decide +kernel⟩⟩

theorem wit_SlotTable :
    (∃ s : State, ∃ r : Req, ∃ h : Fin 8, ∃ v : Word, Takes s r (hamletBase h + Reg.SLT_CTRL) ∧ getBits Fld.SLT_CTRL_COMMIT v = 1 ∧ s.get (Fld.SLT_STAT_PEND.h h) = 0 ∧ s.get (Fld.SLT_STAT_CHECKING.h h) = 0) ∧
    (∃ s : State, ∃ h : Fin 8, s.slt[h].checking = true ∧ s.get (Fld.ARB_CTRL_FREEZE.h h) = 0 ∧ (slotCheck s h s.slt[h].cfgTaken).2 = none) ∧
    (∃ s : State, ∃ h : Fin 8, ∃ x : Nat × Nat, s.slt[h].checking = true ∧ s.get (Fld.ARB_CTRL_FREEZE.h h) = 0 ∧ (slotCheck s h s.slt[h].cfgTaken).2 = some x) ∧
    (∃ s : State, ∃ h : Fin 8, ∃ d : Nat, s.slt[h].swapDue = some d) ∧
    (∃ s : State, ∃ h : Fin 8, ∃ d : Nat, ∃ v : Bool, ∃ l : List (Nat × Bool), s.slt[h].enables = (d, v) :: l) ∧
    (∃ s : State, ∃ h : Fin 8, s.get (Fld.ARB_CTRL_FREEZE.h h) = 1) :=
  ⟨
    ⟨((State.reset.put (Fld.PWR_HSTATE_STATE.sub ((0 : Fin 8))) 3) : State), (⟨16, 2⟩ : Req), (0 : Fin 8), ((setBits Fld.SLT_CTRL_COMMIT (0 : Word) (1)) : Word), by decide +kernel⟩,
    ⟨((((((((fun (s : State) => ((s.eput (Fld.ORX_RING_BASE.h (0 : Fin 8)) 0x2F).eput (Fld.ORX_RING_LEN.h (0 : Fin 8)) 0 : State)) ((fun (s : State) => ({ s with slt := s.slt.set (0 : Fin 8) { s.slt[(0 : Fin 8)] with cfgTaken := setBits Fld.SLT_CFG_BASE_B (setBits Fld.SLT_CFG_BASE_A 0 0x20) 0x21 } } : State)) (((fun (s : State) => ({ s with slt := (s.slt.set ((0 : Fin 8)) ({ s.slt[(0 : Fin 8)] with checking := true })) } : State)) State.reset).put (Fld.SLT_CFG_BASE_A.h (0 : Fin 8)) 0))).eput (Fld.BFM_BASES_SLICE.h (0 : Fin 8)) 0).eput (Fld.BFM_BASES_SHADOW.h (0 : Fin 8)) 4).eput (Fld.BFM_BASES_WBANK0.h (0 : Fin 8)) 8).eput (Fld.BFM_BASES_WBANK1.h (0 : Fin 8)) 0xE).put (Fld.ORX_RING_BASE.h (0 : Fin 8)) 0x2F) : State), (0 : Fin 8), by decide +kernel⟩,
    ⟨(((fun (s : State) => ({ s with slt := (s.slt.set ((0 : Fin 8)) ({ s.slt[(0 : Fin 8)] with checking := true })) } : State)) State.reset) : State), (0 : Fin 8), ((0, 8) : Nat × Nat), by decide +kernel⟩,
    ⟨(((fun (s : State) => ({ s with slt := (s.slt.set ((0 : Fin 8)) ({ s.slt[(0 : Fin 8)] with swapDue := some (0 : Nat) })) } : State)) State.reset) : State), (0 : Fin 8), (0 : Nat), by decide +kernel⟩,
    ⟨(((fun (s : State) => ({ s with slt := (s.slt.set ((0 : Fin 8)) ({ s.slt[(0 : Fin 8)] with enables := ((0 : Nat), (false : Bool)) :: ([] : List (Nat × Bool)) })) } : State)) State.reset) : State), (0 : Fin 8), (0 : Nat), (false : Bool), ([] : List (Nat × Bool)), by decide +kernel⟩,
    ⟨((State.reset.put (Fld.ARB_CTRL_FREEZE.h (0 : Fin 8)) (1)) : State), (0 : Fin 8), by decide +kernel⟩⟩

theorem wit_SlotLatch :
    (∃ s : State, ∃ h : Fin 8, s.seqRuns h (s.nextSlotAt h) = true) :=
  ⟨((State.reset.eput (Fld.SLT_CTRL_ENABLE.h (0 : Fin 8)) 1) : State), (0 : Fin 8), by decide +kernel⟩

theorem wit_SlotActions :
    (∃ s : State, ∃ h : Fin 8, ∃ l : Latched, ∃ i : Nat, ∃ x : Action, s.firstDue s.slt[h].latched = some (l, i, x) ∧ x.type = 1) ∧
    (∃ s : State, ∃ h : Fin 8, ∃ l : Latched, ∃ i : Nat, ∃ x : Action, s.firstDue s.slt[h].latched = some (l, i, x) ∧ x.type = 2) ∧
    (∃ s : State, ∃ h : Fin 8, ∃ l : Latched, ∃ i : Nat, ∃ x : Action, s.firstDue s.slt[h].latched = some (l, i, x) ∧ x.type = 3 ∧ s.evq[h].length < 32) ∧
    (∃ s : State, ∃ h : Fin 8, ∃ l : Latched, firstGain (fun l => symsOf (s.refEcp l.num)) s.slt[h].latched = some l) :=
  ⟨
    ⟨(((fun (s : State) => ({ s with slt := s.slt.set (0 : Fin 8) { s.slt[(0 : Fin 8)] with latched := [(⟨1000000, 0, 0, [0x10000000#32, 0#32, BitVec.ofNat 32 (1 <<< 28), 0#32], 0, 0, 0, 0, 0⟩ : Latched)] } } : State)) State.reset) : State), (0 : Fin 8), (⟨1000000, 0, 0, [0x10000000#32, 0#32, BitVec.ofNat 32 (1 <<< 28), 0#32], 0, 0, 0, 0, 0⟩ : Latched), (0 : Nat), (⟨1, 0, 0, 0, 0, 0⟩ : Action), by decide +kernel⟩,
    ⟨(((fun (s : State) => ({ s with slt := s.slt.set (0 : Fin 8) { s.slt[(0 : Fin 8)] with latched := [(⟨1000000, 0, 0, [0x10000000#32, 0#32, BitVec.ofNat 32 (2 <<< 28), 0#32], 0, 0, 0, 0, 0⟩ : Latched)] } } : State)) State.reset) : State), (0 : Fin 8), (⟨1000000, 0, 0, [0x10000000#32, 0#32, BitVec.ofNat 32 (2 <<< 28), 0#32], 0, 0, 0, 0, 0⟩ : Latched), (0 : Nat), (⟨2, 0, 0, 0, 0, 0⟩ : Action), by decide +kernel⟩,
    ⟨(((fun (s : State) => ({ s with slt := s.slt.set (0 : Fin 8) { s.slt[(0 : Fin 8)] with latched := [(⟨1000000, 0, 0, [0x10000000#32, 0#32, BitVec.ofNat 32 (3 <<< 28), 0#32], 0, 0, 0, 0, 0⟩ : Latched)] } } : State)) State.reset) : State), (0 : Fin 8), (⟨1000000, 0, 0, [0x10000000#32, 0#32, BitVec.ofNat 32 (3 <<< 28), 0#32], 0, 0, 0, 0, 0⟩ : Latched), (0 : Nat), (⟨3, 0, 0, 0, 0, 0⟩ : Action), by decide +kernel⟩,
    ⟨(((fun (s : State) => ({ s with slt := s.slt.set (0 : Fin 8) { s.slt[(0 : Fin 8)] with latched := [(⟨1000000, 0, 0, [0#32], 0, 0, 0, 0, 0⟩ : Latched)] } } : State)) State.reset) : State), (0 : Fin 8), (⟨1000000, 0, 0, [0#32], 0, 0, 0, 0, 0⟩ : Latched), by decide +kernel⟩⟩

theorem wit_SlotEdit :
    (∃ s : State, ∃ r : Req, ∃ h : Fin 8, ∃ v : Word, Takes s r (hamletBase h + Reg.SLT_EDIT) ∧ getBits Fld.SLT_EDIT_GO v = 1 ∧ s.get (Fld.SLT_EDIT_BUSY.h h) = 0 ∧ getBits Fld.SLT_EDIT_IDX v ≤ 639 ∧ getBits Fld.SLT_EDIT_IDX v < patternLen (s.erd (hamletBase h + Reg.SLT_CFG))) ∧
    (∃ s : State, ∃ h : Fin 8, ∃ idx : Nat, s.slt[h].edit = some idx ∧ s.get (Fld.ARB_CTRL_FREEZE.h h) = 0 ∧ s.rowBusy (bufferBase h (s.erd (hamletBase h + Reg.SLT_CFG)) (s.get (Fld.SLT_STAT_ACTIVE.h h)) + 96 * idx) 96 = false) ∧
    (∃ s : State, ∃ h : Fin 8, s.get (Fld.ARB_CTRL_FREEZE.h h) = 1) :=
  ⟨
    ⟨((State.reset.put (Fld.PWR_HSTATE_STATE.sub ((0 : Fin 8))) 3) : State), (⟨16, 2⟩ : Req), (0 : Fin 8), ((setBits Fld.SLT_EDIT_GO (0 : Word) (1)) : Word), by decide +kernel⟩,
    ⟨(((fun (s : State) => ({ s with slt := (s.slt.set ((0 : Fin 8)) ({ s.slt[(0 : Fin 8)] with edit := some (0 : Nat) })) } : State)) State.reset) : State), (0 : Fin 8), (0 : Nat), by decide +kernel⟩,
    ⟨((State.reset.put (Fld.ARB_CTRL_FREEZE.h (0 : Fin 8)) (1)) : State), (0 : Fin 8), by decide +kernel⟩⟩

theorem wit_PinLevels :
    (∃ j : Nat, j < 12) :=
  ⟨(0 : Nat), by decide +kernel⟩

theorem wit_FrontEndPins :
    (∃ s : State, ∃ r : Req, ∃ h : Fin 8, ∃ v : Word, ∃ j : Nat, Takes s r (hamletBase h + Reg.FEP_CLAIM) ∧ 1 ≤ getBits Fld.FEP_CLAIM_OWNER v ∧ getBits Fld.FEP_CLAIM_OWNER v ≤ 4 ∧ getBits Fld.FEP_CLAIM_RELEASE v = 0 ∧ j < 12) ∧
    (∃ s : State, ∃ r : Req, ∃ h : Fin 8, ∃ v : Word, ∃ j : Nat, Takes s r (hamletBase h + Reg.FEP_CLAIM) ∧ 1 ≤ getBits Fld.FEP_CLAIM_OWNER v ∧ getBits Fld.FEP_CLAIM_OWNER v ≤ 4 ∧ j < 12) ∧
    (∃ s : State, ∃ r : Req, ∃ h : Fin 8, Takes s r (hamletBase h + Reg.FEP_SAFE) ∧ s.locked (hamletBase h + Reg.FEP_SAFE) = false) ∧
    (∃ s : State, ∃ r : Req, ∃ h : Fin 8, Takes s r (hamletBase h + Reg.FEP_GPIO)) :=
  ⟨
    ⟨((State.reset.put (Fld.PWR_HSTATE_STATE.sub ((0 : Fin 8))) 3) : State), (⟨16, 2⟩ : Req), (0 : Fin 8), ((setBits Fld.FEP_CLAIM_RELEASE (setBits Fld.FEP_CLAIM_OWNER (0 : Word) (1)) (0)) : Word), (0 : Nat), by decide +kernel⟩,
    ⟨((State.reset.put (Fld.PWR_HSTATE_STATE.sub ((0 : Fin 8))) 3) : State), (⟨16, 2⟩ : Req), (0 : Fin 8), ((setBits Fld.FEP_CLAIM_OWNER (0 : Word) (1)) : Word), (0 : Nat), by decide +kernel⟩,
    ⟨((State.reset.put (Fld.PWR_HSTATE_STATE.sub ((0 : Fin 8))) 3) : State), (⟨16, 2⟩ : Req), (0 : Fin 8), by decide +kernel⟩,
    ⟨((State.reset.put (Fld.PWR_HSTATE_STATE.sub ((0 : Fin 8))) 3) : State), (⟨16, 2⟩ : Req), (0 : Fin 8), by decide +kernel⟩⟩

theorem wit_DownlinkData :
    (∃ s : State, ∃ m : Hdr, ∃ ws : List Word, ∃ t0 : Nat, s.get (Fld.LNK_FLOWf_CFG_EN.i m.flow) ≠ 0 ∧ s.hdrOk m 0 (4 + 4 * ws.length) = true ∧ dlFate ((State.takeSeq { s.at t0 with port := { s.port with inbox := dropFlow m.flow s.port.inbox } } m).arrive m.flow) ws = 0) ∧
    (∃ s : State, ∃ car : Fin 8, s.carDefined car 0 = true) :=
  ⟨
    ⟨(((fun (s : State) => (served 0 s : State)) ((fun (s : State) => (latch1 0 [0x5555555#32] 0 s : State)) (((((((fun (s : State) => (cell0 s : State)) ((fun (s : State) => (s.put (Fld.LNK_FLOWf_CFG_EN.i (⟨16, 1, 0, 40, 0x80⟩ : Hdr).flow) (1 - 0) : State)) State.reset)).put (Fld.LNK_FLOWf_CFG_CLASS.i 16) 2).put Fld.LNK_DL_CFG_EARLY 250).put (Fld.LNK_PARTn_SIZE.i 0) 1).put Fld.LNK_ULC_CFG_HMASK 1).put (Fld.PWR_HSTATE_STATE.sub 0) 3))) : State), (⟨16, 1, 0, 40, 0x80⟩ : Hdr), ([0x10000000#32, 0x4000#32] ++ List.replicate 7 0 : List Word), (0 : Nat), by decide +kernel⟩,
    ⟨(((fun (s : State) => (cell0 s : State)) State.reset) : State), (0 : Fin 8), by decide +kernel⟩⟩

theorem wit_FilterBanks :
    (∃ s : State, ∃ r : Req, ∃ h : Fin 8, ∃ n : Fin 8, ∃ v : Word, Takes s r (hamletBase h + Reg.TXC_FSWAP) ∧ getBits Fld.TXC_FSWAP_WHEN v ≠ 3 ∧ bitOf (getBits Fld.TXC_FSWAP_CARMASK v) n = true) ∧
    (∃ s : State, ∃ r : Req, ∃ h : Fin 8, ∃ n : Fin 8, ∃ v : Word, Takes s r (hamletBase h + Reg.RXC_FSWAP) ∧ getBits Fld.TXC_FSWAP_WHEN v ≠ 3 ∧ bitOf (getBits Fld.TXC_FSWAP_CARMASK v) n = true) ∧
    (∃ s : State, ∃ h : Fin 8, ∃ n : Fin 8, ∃ q : SwapReq, ∃ t0 : Nat, ∃ late : Bool, s.txSwap[idx64 h n] = some q ∧ s.swapAt h 0 q late = some t0 ∧ s.clockStops h = false) ∧
    (∃ s : State, ∃ h : Fin 8, ∃ n : Fin 8, ∃ q : SwapReq, ∃ t0 : Nat, ∃ late : Bool, s.rxSwap[idx64 h n] = some q ∧ s.swapAt h 1 q late = some t0 ∧ s.clockStops h = false) ∧
    (∃ s : State, ∃ h : Fin 8, s.clockStops h = true) :=
  ⟨
    ⟨((State.reset.put (Fld.PWR_HSTATE_STATE.sub ((0 : Fin 8))) 3) : State), (⟨16, 2⟩ : Req), (0 : Fin 8), (0 : Fin 8), ((setBits Fld.TXC_FSWAP_CARMASK (setBits Fld.TXC_FSWAP_WHEN (0 : Word) (1 - (3))) (2 ^ (0 : Fin 8).val)) : Word), by decide +kernel⟩,
    ⟨((State.reset.put (Fld.PWR_HSTATE_STATE.sub ((0 : Fin 8))) 3) : State), (⟨16, 2⟩ : Req), (0 : Fin 8), (0 : Fin 8), ((setBits Fld.TXC_FSWAP_CARMASK (setBits Fld.TXC_FSWAP_WHEN (0 : Word) (1 - (3))) (2 ^ (0 : Fin 8).val)) : Word), by decide +kernel⟩,
    ⟨((((fun (s : State) => ({ s with txSwap := (s.txSwap.set (idx64 (0 : Fin 8) (0 : Fin 8)) (some (default : SwapReq))) } : State)) State.reset).put (Fld.PLL_STAT_ALIGNED.h (0 : Fin 8)) 1) : State), (0 : Fin 8), (0 : Fin 8), (default : SwapReq), (0 : Nat), (false : Bool), by decide +kernel⟩,
    ⟨((((fun (s : State) => ({ s with rxSwap := (s.rxSwap.set (idx64 (0 : Fin 8) (0 : Fin 8)) (some (default : SwapReq))) } : State)) State.reset).put (Fld.PLL_STAT_ALIGNED.h (0 : Fin 8)) 1) : State), (0 : Fin 8), (0 : Fin 8), (default : SwapReq), (0 : Nat), (false : Bool), by decide +kernel⟩,
    ⟨(State.reset : State), (0 : Fin 8), by decide +kernel⟩⟩

theorem wit_PulseAndPredistorter :
    (∃ s : State, ∃ r : Req, ∃ h : Fin 8, ∃ v : Word, Takes s r (hamletBase h + Reg.TXC_CFR_SWAP) ∧ getBits Fld.TXC_CFR_SWAP_GO v = 1 ∧ getBits Fld.TXC_CFR_SWAP_WHEN v ≠ 3) ∧
    (∃ s : State, ∃ h : Fin 8, ∃ q : SwapReq, ∃ t0 : Nat, ∃ late : Bool, s.tx[h].cfr = some q ∧ s.swapAt h 0 q late = some t0 ∧ s.clockStops h = false) ∧
    (∃ s : State, ∃ r : Req, ∃ h : Fin 8, ∃ k : Fin 8, ∃ v : Word, Takes s r (hamletBase h + Reg.DPD_SWAPk + 4 * k) ∧ getBits Fld.DPD_SWAPk_WHEN v ≠ 3) ∧
    (∃ s : State, ∃ h : Fin 8, ∃ k : Fin 8, ∃ q : SwapReq, ∃ t0 : Nat, ∃ late : Bool, s.dpd[idx64 h k].pend = some q ∧ s.swapAt h 0 q late = some t0 ∧ s.clockStops h = false ∧ q.xf ≠ 0) ∧
    (∃ s : State, ∃ h : Fin 8, ∃ k : Fin 8, ∃ d : Nat, s.dpd[idx64 h k].fadeEnd = some d ∧ s.dpd[idx64 h k].held = none ∧ s.evq[h].length < 32) ∧
    (∃ s : State, ∃ h : Fin 8, ∃ k : Fin 8, ∃ q : SwapReq, ∃ t0 : Nat, ∃ late : Bool, s.dpd[idx64 h k].pend = some q ∧ s.swapAt h 0 q late = some t0 ∧ s.clockStops h = false ∧ q.xf = 0 ∧ s.evq[h].length < 32) ∧
    (∃ s : State, ∃ h : Fin 8, s.clockStops h = true) :=
  ⟨
    ⟨((State.reset.put (Fld.PWR_HSTATE_STATE.sub ((0 : Fin 8))) 3) : State), (⟨16, 2⟩ : Req), (0 : Fin 8), ((setBits Fld.TXC_CFR_SWAP_WHEN (setBits Fld.TXC_CFR_SWAP_GO (0 : Word) (1)) (1 - (3))) : Word), by decide +kernel⟩,
    ⟨((((fun (s : State) => ({ s with tx := (s.tx.set ((0 : Fin 8)) ({ s.tx[(0 : Fin 8)] with cfr := some (default : SwapReq) })) } : State)) State.reset).put (Fld.PLL_STAT_ALIGNED.h (0 : Fin 8)) 1) : State), (0 : Fin 8), (default : SwapReq), (0 : Nat), (false : Bool), by decide +kernel⟩,
    ⟨((State.reset.put (Fld.PWR_HSTATE_STATE.sub ((0 : Fin 8))) 3) : State), (⟨16, 2⟩ : Req), (0 : Fin 8), (0 : Fin 8), ((setBits Fld.DPD_SWAPk_WHEN (0 : Word) (1 - (3))) : Word), by decide +kernel⟩,
    ⟨((((fun (s : State) => ({ s with dpd := (s.dpd.set (idx64 (0 : Fin 8) (0 : Fin 8)) ({ s.dpd[idx64 (0 : Fin 8) (0 : Fin 8)] with pend := some ({ (default : SwapReq) with xf := 1 } : SwapReq) })) } : State)) State.reset).put (Fld.PLL_STAT_ALIGNED.h (0 : Fin 8)) 1) : State), (0 : Fin 8), (0 : Fin 8), ({ (default : SwapReq) with xf := 1 } : SwapReq), (0 : Nat), (false : Bool), by decide +kernel⟩,
    ⟨(((fun (s : State) => ({ s with dpd := (s.dpd.set (idx64 (0 : Fin 8) (0 : Fin 8)) ({ s.dpd[idx64 (0 : Fin 8) (0 : Fin 8)] with fadeEnd := some (0 : Nat) })) } : State)) State.reset) : State), (0 : Fin 8), (0 : Fin 8), (0 : Nat), by decide +kernel⟩,
    ⟨((((fun (s : State) => ({ s with dpd := (s.dpd.set (idx64 (0 : Fin 8) (0 : Fin 8)) ({ s.dpd[idx64 (0 : Fin 8) (0 : Fin 8)] with pend := some ({ (default : SwapReq) with xf := 0 } : SwapReq) })) } : State)) State.reset).put (Fld.PLL_STAT_ALIGNED.h (0 : Fin 8)) 1) : State), (0 : Fin 8), (0 : Fin 8), ({ (default : SwapReq) with xf := 0 } : SwapReq), (0 : Nat), (false : Bool), by decide +kernel⟩,
    ⟨(State.reset : State), (0 : Fin 8), by decide +kernel⟩⟩

theorem wit_SettingsAndMute :
    (∃ s : State, ∃ h : Fin 8, ∃ x : Nat, ∃ l : List Nat, s.clockStops h = false ∧ (s.tx[h].sets.map fun y => y.due) ++ (s.thm.boDue[h].map fun x => x.1) ++ (s.cal.next.filter fun c => c.2.1 / 256 == h.val).map (fun c => c.1) = x :: l) ∧
    (∃ s : State, ∃ h : Fin 8, ∃ k : Fin 8, ∃ d : Nat, ∃ v : Bool, ∃ l : List (Nat × Bool), s.mute[idx64 h k].pend = (d, v) :: l ∧ s.clockStops h = false ∧ s.get ((Fld.TXC_PATHk_RAMP.i k).h h) ≠ 0) ∧
    (∃ s : State, ∃ h : Fin 8, ∃ k : Fin 8, s.mute[idx64 h k].ramping = true ∧ s.tx[h].rampEnd = none) ∧
    (∃ s : State, ∃ h : Fin 8, 2 ≤ s.hstate h) ∧
    (∃ s : State, ∃ h : Fin 8, ∃ d : Nat, s.tx[h].rampEnd = some d) ∧
    (∃ s : State, ∃ h : Fin 8, s.clockStops h = true) :=
  ⟨
    ⟨(((fun (s : State) => ({ s with tx := s.tx.set (0 : Fin 8) { s.tx[(0 : Fin 8)] with sets := [⟨5, Reg.LNK_CAR_COMMIT, 0⟩] } } : State)) (State.reset.put (Fld.PLL_STAT_ALIGNED.h (0 : Fin 8)) 1)) : State), (0 : Fin 8), (5 : Nat), ([] : List Nat), by decide +kernel⟩,
    ⟨(((fun (s : State) => (s.put ((Fld.TXC_PATHk_RAMP.i (0 : Fin 8)).h (0 : Fin 8)) (1 - 0) : State)) (((fun (s : State) => ({ s with mute := (s.mute.set (idx64 (0 : Fin 8) (0 : Fin 8)) ({ s.mute[idx64 (0 : Fin 8) (0 : Fin 8)] with pend := ((0 : Nat), (false : Bool)) :: ([] : List (Nat × Bool)) })) } : State)) State.reset).put (Fld.PLL_STAT_ALIGNED.h (0 : Fin 8)) 1)) : State), (0 : Fin 8), (0 : Fin 8), (0 : Nat), (false : Bool), ([] : List (Nat × Bool)), by decide +kernel⟩,
    ⟨(((fun (s : State) => ({ s with mute := (s.mute.set (idx64 (0 : Fin 8) (0 : Fin 8)) ({ s.mute[idx64 (0 : Fin 8) (0 : Fin 8)] with ramping := true })) } : State)) State.reset) : State), (0 : Fin 8), (0 : Fin 8), by decide +kernel⟩,
    ⟨((State.reset.put (Fld.PWR_HSTATE_STATE.sub ((0 : Fin 8))) 3) : State), (0 : Fin 8), by decide +kernel⟩,
    ⟨(((fun (s : State) => ({ s with tx := (s.tx.set ((0 : Fin 8)) ({ s.tx[(0 : Fin 8)] with rampEnd := some (0 : Nat) })) } : State)) State.reset) : State), (0 : Fin 8), (0 : Nat), by decide +kernel⟩,
    ⟨(State.reset : State), (0 : Fin 8), by decide +kernel⟩⟩

theorem wit_UnlockRecovery :
    (∃ s : State, ∃ h : Fin 8, s.tx[h].forced = true ∧ s.tx[h].dacGated = false ∧ s.tx[h].resumeDue = none) ∧
    (∃ s : State, ∃ h : Fin 8, ∃ d : Nat, s.tx[h].resumeDue = some d) ∧
    (∃ s : State, ∃ h : Fin 8, ∃ d : Nat, s.rx[h].resumeDue = some d) :=
  ⟨
    ⟨(((fun (s : State) => ({ s with tx := (s.tx.set ((0 : Fin 8)) ({ s.tx[(0 : Fin 8)] with forced := true })) } : State)) State.reset) : State), (0 : Fin 8), by decide +kernel⟩,
    ⟨(((fun (s : State) => ({ s with tx := (s.tx.set ((0 : Fin 8)) ({ s.tx[(0 : Fin 8)] with resumeDue := some (0 : Nat) })) } : State)) State.reset) : State), (0 : Fin 8), (0 : Nat), by decide +kernel⟩,
    ⟨(((fun (s : State) => ({ s with rx := (s.rx.set ((0 : Fin 8)) ({ s.rx[(0 : Fin 8)] with resumeDue := some (0 : Nat) })) } : State)) State.reset) : State), (0 : Fin 8), (0 : Nat), by decide +kernel⟩⟩

theorem wit_Reception :
    (∃ n : Nat, n ≠ 0) ∧
    (∃ s : State, ∃ car : Fin 8, ∃ y : SymId, (s.symView car y).carDefined car 1 = true) ∧
    (∃ s : State, ∃ car : Fin 8, ∃ y : SymId, (s.symView car y).carDefined car 1 = false) :=
  ⟨
    ⟨(1 : Nat), by decide +kernel⟩,
    ⟨(((fun (s : State) => (cell0 s : State)) State.reset) : State), (0 : Fin 8), (default : SymId), by decide +kernel⟩,
    ⟨(State.reset : State), (0 : Fin 8), (default : SymId), by decide +kernel⟩⟩

theorem wit_Prach :
    (∃ s : State, ∃ j : Fin 16, ∃ frame : Nat, s.praNamed j frame = true ∧ s.praDropped (s.praExt j) (s.praOccasion j frame) = false) ∧
    (∃ s : State, ∃ j : Fin 16, ∃ frame : Nat, s.praNamed j frame = true ∧ s.praDropped (s.praExt j) (s.praOccasion j frame) = true) ∧
    (∃ s : State, ∃ x : Fin 4, ∃ o : Occasion, s.prach[x] = some o ∧ s.prachOld[x] = [] ∧ o.len ≤ 768 * (o.sent + 1)) ∧
    (∃ s : State, ∃ x : Fin 4, ∃ o : Occasion, s.prach[x] = some o ∧ s.prachOld[x] = [] ∧ 768 * (o.sent + 1) < o.len) ∧
    (∃ s : State, ∃ p : SetPend, ∃ l : List SetPend, s.praSets = p :: l) ∧
    (∃ s : State, ∃ x : Fin 4, ∃ o : Occasion, ∃ l : List Occasion, s.prachOld[x] = o :: l) ∧
    (∃ s : State, ∃ j : Fin 16, ∃ frame : Nat, s.praNamed j frame = false) :=
  ⟨
    ⟨(((((((fun (s : State) => (cell0 s : State)) State.reset).ewr Reg.LNK_PRA_OCCj (setBits Fld.LNK_PRA_OCCj_EN 0 1)).ewr Reg.LNK_PRA_CFGm (setBits Fld.LNK_PRA_CFGm_EN 0 1)).ewr Reg.LNK_PRA_BEAMm_i (setBits Fld.LNK_PRA_BEAMm_i_ENA 0 1)).eput (Fld.LNK_PRA_LENm_LEN.i 0) 100) : State), (0 : Fin 16), (0 : Nat), by decide +kernel⟩,
    ⟨(((((fun (s : State) => (cell0 s : State)) State.reset).ewr Reg.LNK_PRA_OCCj (setBits Fld.LNK_PRA_OCCj_EN 0 1)).ewr Reg.LNK_PRA_CFGm (setBits Fld.LNK_PRA_CFGm_EN 0 1)) : State), (0 : Fin 16), (0 : Nat), by decide +kernel⟩,
    ⟨(((fun (s : State) => ({ s with prachOld := (s.prachOld.set ((0 : Fin 4)) ([])) } : State)) ((fun (s : State) => ({ s with prach := (s.prach.set ((0 : Fin 4)) (some (default : Occasion))) } : State)) State.reset)) : State), (0 : Fin 4), (default : Occasion), by decide +kernel⟩,
    ⟨(((fun (s : State) => ({ s with prachOld := (s.prachOld.set ((0 : Fin 4)) ([])) } : State)) ((fun (s : State) => ({ s with prach := (s.prach.set ((0 : Fin 4)) (some ({ (default : Occasion) with len := 2000 } : Occasion))) } : State)) State.reset)) : State), (0 : Fin 4), ({ (default : Occasion) with len := 2000 } : Occasion), by decide +kernel⟩,
    ⟨(((fun (s : State) => ({ s with praSets := (default : SetPend) :: ([] : List SetPend) } : State)) State.reset) : State), (default : SetPend), ([] : List SetPend), by decide +kernel⟩,
    ⟨(((fun (s : State) => ({ s with prachOld := (s.prachOld.set ((0 : Fin 4)) ((default : Occasion) :: ([] : List Occasion))) } : State)) State.reset) : State), (0 : Fin 4), (default : Occasion), ([] : List Occasion), by decide +kernel⟩,
    ⟨(State.reset : State), (0 : Fin 16), (0 : Nat), by decide +kernel⟩⟩

theorem wit_OrxOwnership :
    (∃ s : State, ∃ r : Req, ∃ h : Fin 8, ∃ v : Word, Takes s r (hamletBase h + Reg.ORX_CLAIM) ∧ s.calOnOrx h = false ∧ ((getBits Fld.ORX_CLAIM_OWNER v = 2 ∨ getBits Fld.ORX_CLAIM_OWNER v = 3 ∧ r.id = 16)) ∧ getBits Fld.ORX_CLAIM_RELEASE v = 0 ∧ s.get (Fld.ORX_STAT_OWNER.h h) = 0 ∧ ((∀ j < 12, bitOf (s.get (Fld.ORX_SW_PINMASK.h h)) j = true → s.pinOwner h j = 0))) ∧
    (∃ s : State, ∃ r : Req, ∃ h : Fin 8, ∃ v : Word, Takes s r (hamletBase h + Reg.ORX_CLAIM) ∧ s.calOnOrx h = false ∧ ((getBits Fld.ORX_CLAIM_OWNER v = 2 ∨ getBits Fld.ORX_CLAIM_OWNER v = 3 ∧ r.id = 16)) ∧ s.get (Fld.ORX_STAT_OWNER.h h) = getBits Fld.ORX_CLAIM_OWNER v) ∧
    (∃ s : State, ∃ h : Fin 8, s.get (Fld.ORX_STAT_OWNER.h h) ≠ 0) ∧
    (∃ s : State, ∃ r : Req, ∃ h : Fin 8, ∃ v : Word, Takes s r (hamletBase h + Reg.ORX_NCO_FREQ) ∧ 600000 ≤ getBits Fld.ORX_NCO_FREQ_FREQ v ∧ getBits Fld.ORX_NCO_FREQ_FREQ v ≤ 8400000 ∧ (¬(s.get (Fld.ORX_STAT_OWNER.h h) = 3 ∧ r.id = h.val))) :=
  ⟨
    ⟨((State.reset.put (Fld.PWR_HSTATE_STATE.sub ((0 : Fin 8))) 3) : State), (⟨16, 2⟩ : Req), (0 : Fin 8), (setBits Fld.ORX_CLAIM_OWNER 0 2 : Word), by decide +kernel⟩,
    ⟨(((State.reset.put (Fld.PWR_HSTATE_STATE.sub ((0 : Fin 8))) 3).put (Fld.ORX_STAT_OWNER.h (0 : Fin 8)) (getBits Fld.ORX_CLAIM_OWNER (setBits Fld.ORX_CLAIM_OWNER 0 2 : Word))) : State), (⟨16, 2⟩ : Req), (0 : Fin 8), (setBits Fld.ORX_CLAIM_OWNER 0 2 : Word), by decide +kernel⟩,
    ⟨((State.reset.put (Fld.ORX_STAT_OWNER.h (0 : Fin 8)) (1 - 0)) : State), (0 : Fin 8), by decide +kernel⟩,
    ⟨((State.reset.put (Fld.PWR_HSTATE_STATE.sub ((0 : Fin 8))) 3) : State), (⟨16, 2⟩ : Req), (0 : Fin 8), (600000 : Word), by decide +kernel⟩⟩

theorem wit_OrxTriggers :
    (∃ s : State, ∃ r : Req, ∃ h : Fin 8, Takes s r (hamletBase h + Reg.ORX_TRIG)) ∧
    (∃ s : State, ∃ r : Req, ∃ h : Fin 8, ∃ c : Capture, Takes s r (hamletBase h + Reg.ORX_TRIG) ∧ s.orx[h].cap = some c ∧ c.ending = none) ∧
    (∃ s : State, ∃ h : Fin 8, ∃ t0 : Nat, ∃ n : Nat, ∃ rest : List (Nat × Nat), ∃ u, u = (State.at (s.setOrx h { s.orx[h] with trigs := rest }) t0) ∧ popTrig s.orx[h].trigs = some ((t0, n), rest) ∧ u.trigReason h n = 0) ∧
    (∃ s : State, ∃ h : Fin 8, ∃ t0 : Nat, ∃ n : Nat, ∃ rest : List (Nat × Nat), ∃ u, u = (State.at (s.setOrx h { s.orx[h] with trigs := rest }) t0) ∧ popTrig s.orx[h].trigs = some ((t0, n), rest) ∧ u.trigReason h n ≠ 0) ∧
    (∃ s : State, ∃ h : Fin 8, ∃ c : Capture, ∃ t0 : Nat, s.orx[h].cap = some c ∧ c.settle = some t0) :=
  ⟨
    ⟨((State.reset.put (Fld.PWR_HSTATE_STATE.sub ((0 : Fin 8))) 3) : State), (⟨16, 2⟩ : Req), (0 : Fin 8), by decide +kernel⟩,
    ⟨(((fun (s : State) => ({ s with orx := (s.orx.set ((0 : Fin 8)) ({ s.orx[(0 : Fin 8)] with cap := some ({ (default : Capture) with ending := none } : Capture) })) } : State)) (State.reset.put (Fld.PWR_HSTATE_STATE.sub ((0 : Fin 8))) 3)) : State), (⟨16, 2⟩ : Req), (0 : Fin 8), ({ (default : Capture) with ending := none } : Capture), by decide +kernel⟩,
    ⟨((((fun (s : State) => (s.put ((Fld.ORX_CSETn_MODE.i (0 : Nat)).h (0 : Fin 8)) 0 : State)) ((fun (s : State) => (s.put ((Fld.ORX_CSETn_LEN.i (0 : Nat)).h (0 : Fin 8)) 8 : State)) ((((((fun (s : State) => ({ s with orx := s.orx.set (0 : Fin 8) { s.orx[(0 : Fin 8)] with trigs := [(1000, 0)] } } : State)) State.reset).put (Fld.ORX_STAT_OWNER.h (0 : Fin 8)) 2).put (Fld.PLL_STAT_LOCK.h (0 : Fin 8)) 1).put (Fld.PLL_STAT_ALIGNED.h (0 : Fin 8)) 1).put (Fld.ORX_STAT_READY.h (0 : Fin 8)) 1))).eput (Fld.ORX_RING_LEN.h (0 : Fin 8)) 100) : State), (0 : Fin 8), (1000 : Nat), (0 : Nat), ([] : List (Nat × Nat)), _, rfl, by decide +kernel⟩,
    ⟨(((fun (s : State) => ({ s with orx := s.orx.set (0 : Fin 8) { s.orx[(0 : Fin 8)] with trigs := [(1000, 0)] } } : State)) State.reset) : State), (0 : Fin 8), (1000 : Nat), (0 : Nat), ([] : List (Nat × Nat)), _, rfl, by decide +kernel⟩,
    ⟨(((fun (s : State) => ({ s with orx := (s.orx.set ((0 : Fin 8)) ({ s.orx[(0 : Fin 8)] with cap := some ({ (default : Capture) with settle := some (0 : Nat) } : Capture) })) } : State)) State.reset) : State), (0 : Fin 8), ({ (default : Capture) with settle := some (0 : Nat) } : Capture), (0 : Nat), by decide +kernel⟩⟩

theorem wit_CaptureGroups :
    (∃ s : State, ∃ h : Fin 8, ∃ c : Capture, s.orx[h].cap = some c ∧ c.takes = true ∧ s.ringFull h c = false ∧ s.orx[h].fifo = [] ∧ s.get (Fld.ARB_CTRL_FREEZE.h h) = 0 ∧ ((∀ k : Fin 10, s.sto[k].copy = none)) ∧ 2 ≤ s.eget (Fld.ORX_RING_LEN.h h)) ∧
    (∃ s : State, ∃ h : Fin 8, ∃ c : Capture, s.orx[h].cap = some c ∧ c.takes = true ∧ s.ringFull h c = false ∧ s.fifoFull h c = false ∧ s.get (Fld.ARB_CTRL_FREEZE.h h) = 1 ∧ 2 ≤ s.eget (Fld.ORX_RING_LEN.h h)) ∧
    (∃ s : State, ∃ h : Fin 8, ∃ c : Capture, s.orx[h].cap = some c ∧ c.takes = true ∧ c.ending = none ∧ s.fifoFull h c = true) :=
  ⟨
    ⟨((((fun (s : State) => ({ s with orx := (s.orx.set ((0 : Fin 8)) ({ s.orx[(0 : Fin 8)] with cap := some ({ (default : Capture) with len := 100 } : Capture) })) } : State)) State.reset).eput (Fld.ORX_RING_LEN.h (0 : Fin 8)) 100) : State), (0 : Fin 8), ({ (default : Capture) with len := 100 } : Capture), by decide +kernel⟩,
    ⟨(((((fun (s : State) => ({ s with orx := (s.orx.set ((0 : Fin 8)) ({ s.orx[(0 : Fin 8)] with cap := some ({ (default : Capture) with len := 100 } : Capture) })) } : State)) State.reset).put (Fld.ARB_CTRL_FREEZE.h (0 : Fin 8)) (1)).eput (Fld.ORX_RING_LEN.h (0 : Fin 8)) 100) : State), (0 : Fin 8), ({ (default : Capture) with len := 100 } : Capture), by decide +kernel⟩,
    ⟨(((fun (s : State) => ({ s with orx := s.orx.set (0 : Fin 8) { s.orx[(0 : Fin 8)] with fifo := List.replicate 256 default } } : State)) ((fun (s : State) => ({ s with orx := (s.orx.set ((0 : Fin 8)) ({ s.orx[(0 : Fin 8)] with cap := some ({ (default : Capture) with len := 100 } : Capture) })) } : State)) State.reset)) : State), (0 : Fin 8), ({ (default : Capture) with len := 100 } : Capture), by decide +kernel⟩⟩

theorem wit_CaptureEnds :
    (∃ s : State, ∃ h : Fin 8, ∃ c : Capture, ∃ code : Nat, s.orx[h].cap = some c ∧ c.ending = some code) ∧
    (∃ s : State, ∃ h : Fin 8, ∃ c : Capture, s.orx[h].cap = some c ∧ c.ending = none ∧ c.done = true) ∧
    (∃ s : State, ∃ r : Req, ∃ h : Fin 8, Takes s r (hamletBase h + Reg.ORX_CREC_NEXT)) ∧
    (∃ s : State, ∃ h : Fin 8, ∃ n : Nat, n ≠ 0 ∧ s.get (Fld.ORX_STAT_OVR.h h) = 1) ∧
    (∃ s : State, ∃ h : Fin 8, ∃ n : Nat, n ≠ 0 ∧ s.get (Fld.ORX_STAT_OVR.h h) = 0) ∧
    (∃ s : State, ∃ h : Fin 8, ∃ d : DeepItem, ∃ l : List DeepItem, s.orx[h].items = d :: l ∧ d.kind ≠ 0 ∧ (sendDeep h d d.arg false [] s).isSome = true) ∧
    (∃ s : State, ∃ h : Fin 8, ∃ c : Capture, ∃ p : Nat, s.orx[h].cap = some c ∧ c.paused = some p ∧ c.ending = none ∧ s.get (Fld.ORX_DFSTAT_UNSENT.h h) + max 64 (s.get (Fld.ORX_DF_RESUME.h h)) ≤ s.eget (Fld.ORX_RING_LEN.h h)) ∧
    (∃ s : State, ∃ h : Fin 8, ∃ c : Capture, s.orx[h].cap = some c ∧ c.ending = none ∧ c.done = false ∧ c.settle = none ∧ s.fifoFull h c = true) ∧
    (∃ s : State, ∃ h : Fin 8, ∃ d : DeepItem, ∃ l : List DeepItem, ∃ run, run = (d :: runOfData 63 l) ∧ s.orx[h].items = d :: l ∧ d.kind = 0 ∧ s.orx[h].lost = 0 ∧ s.get (Fld.ARB_CTRL_FREEZE.h h) = 0 ∧ (s.orx[h].fifo.any fun g => g.stream) = false ∧ (sendDeep h d run.length (run.any fun x => x.ovr) (run.flatMap ((readItems h run s).itemWords h)) (readItems h run s)).isSome = true) :=
  ⟨
    ⟨(((fun (s : State) => ({ s with orx := (s.orx.set ((0 : Fin 8)) ({ s.orx[(0 : Fin 8)] with cap := some ({ (default : Capture) with ending := some (0 : Nat) } : Capture) })) } : State)) State.reset) : State), (0 : Fin 8), ({ (default : Capture) with ending := some (0 : Nat) } : Capture), (0 : Nat), by decide +kernel⟩,
    ⟨(((fun (s : State) => ({ s with orx := (s.orx.set ((0 : Fin 8)) ({ s.orx[(0 : Fin 8)] with cap := some ({ (default : Capture) with oneShot := true, len := 1, count := 1 } : Capture) })) } : State)) State.reset) : State), (0 : Fin 8), ({ (default : Capture) with oneShot := true, len := 1, count := 1 } : Capture), by decide +kernel⟩,
    ⟨((State.reset.put (Fld.PWR_HSTATE_STATE.sub ((0 : Fin 8))) 3) : State), (⟨16, 2⟩ : Req), (0 : Fin 8), by decide +kernel⟩,
    ⟨((State.reset.put (Fld.ORX_STAT_OVR.h (0 : Fin 8)) (1)) : State), (0 : Fin 8), (1 : Nat), by decide +kernel⟩,
    ⟨(State.reset : State), (0 : Fin 8), (1 : Nat), by decide +kernel⟩,
    ⟨((((((fun (s : State) => ({ s with orx := (s.orx.set ((0 : Fin 8)) ({ s.orx[(0 : Fin 8)] with items := ({ (default : DeepItem) with kind := 1 } : DeepItem) :: ([] : List DeepItem) })) } : State)) State.reset).put Fld.LNK_STAT_STATE 2).put (Fld.ORX_DF_FLOW.h (0 : Fin 8)) 16).put (Fld.LNK_FLOWf_STAT_CREDIT.i 16) 100) : State), (0 : Fin 8), ({ (default : DeepItem) with kind := 1 } : DeepItem), ([] : List DeepItem), by decide +kernel⟩,
    ⟨(((fun (s : State) => ({ s with orx := (s.orx.set ((0 : Fin 8)) ({ s.orx[(0 : Fin 8)] with cap := some ({ (default : Capture) with paused := some (0 : Nat), ending := none } : Capture) })) } : State)) State.reset) : State), (0 : Fin 8), ({ (default : Capture) with paused := some (0 : Nat), ending := none } : Capture), (0 : Nat), by decide +kernel⟩,
    ⟨(((fun (s : State) => ({ s with orx := s.orx.set (0 : Fin 8) { s.orx[(0 : Fin 8)] with fifo := List.replicate 256 default } } : State)) ((fun (s : State) => ({ s with orx := (s.orx.set ((0 : Fin 8)) ({ s.orx[(0 : Fin 8)] with cap := some ({ (default : Capture) with ending := none, settle := none } : Capture) })) } : State)) State.reset)) : State), (0 : Fin 8), ({ (default : Capture) with ending := none, settle := none } : Capture), by decide +kernel⟩,
    ⟨((((((fun (s : State) => ({ s with orx := (s.orx.set ((0 : Fin 8)) ({ s.orx[(0 : Fin 8)] with items := ({ (default : DeepItem) with kind := 0 } : DeepItem) :: ([] : List DeepItem) })) } : State)) State.reset).put Fld.LNK_STAT_STATE 2).put (Fld.ORX_DF_FLOW.h (0 : Fin 8)) 16).put (Fld.LNK_FLOWf_STAT_CREDIT.i 16) 100) : State), (0 : Fin 8), ({ (default : DeepItem) with kind := 0 } : DeepItem), ([] : List DeepItem), _, rfl, by decide +kernel⟩⟩

theorem wit_LinkTraining :
    (∃ s : State, ∃ r : Req, ∃ v : Word, Takes s r Reg.LNK_CTRL ∧ getBits Fld.LNK_CTRL_EN v = 1 ∧ s.get Fld.LNK_CTRL_EN = 0) ∧
    (∃ s : State, ∃ r : Req, ∃ v : Word, Takes s r Reg.LNK_CTRL ∧ getBits Fld.LNK_CTRL_EN v = 1 ∧ s.get Fld.LNK_CTRL_EN = 1 ∧ getBits Fld.LNK_CTRL_PWRREQ v = s.get Fld.LNK_CTRL_PWRREQ) ∧
    (∃ s : State, ∃ c : Word, ∃ st : Word, s.get Fld.LNK_STAT_STATE = 1 ∧ c.toNat / 2 ^ 28 = 5 ∧ st.toNat / 2 ^ 28 = 10 ∧ bitOf c.toNat 20 = false) ∧
    (∃ s : State, ∃ c : Word, ∃ st : Word, s.get Fld.LNK_STAT_STATE = 1 ∧ c.toNat / 2 ^ 28 = 5 ∧ st.toNat / 2 ^ 28 = 10 ∧ bitOf c.toNat 20 = true) ∧
    (∃ s : State, ∃ tx : Bool, ∃ code : Fin 8, ∃ t0 : Nat, s.get Fld.LNK_STAT_STATE = 1 ∧ s.lnk.overran tx code (max s.now t0) = true) ∧
    (∃ s : State, s.get Fld.LNK_STAT_STATE = 1 ∧ s.lnk.tx.up = false ∧ s.lnk.tx.phase = 5 ∧ 64 ≤ s.lnk.tx.fec ∧ s.get Fld.CLK_LPLL_LOCK = 1 ∧ s.get Fld.LNK_CTRL_PWRREQ ≠ 2 ∧ 7 ≤ ((List.finRange 9).filter fun (n : Fin 9) => n.val != s.get Fld.LNK_AUXMAP_CLK_TX && s.lnk.farReady[n]).length) ∧
    (∃ s : State, ∃ skew : Nat, s.get Fld.LNK_STAT_STATE = 1 ∧ s.lnk.rx.up = false ∧ s.lnk.rx.phase = 5 ∧ 64 ≤ s.lnk.rx.fec ∧ skew ≤ 192 ∧ s.get Fld.LNK_CTRL_PWRREQ ≠ 2 ∧ 7 ≤ ((List.finRange 9).filter fun (n : Fin 9) => n.val != s.get Fld.LNK_AUXMAP_CLK_RX && s.lnk.nearReady[n]).length) ∧
    (∃ s : State, ∃ skew : Nat, s.get Fld.LNK_STAT_STATE = 1 ∧ s.lnk.rx.up = false ∧ 4 ≤ s.lnk.rx.phase ∧ 192 < skew) ∧
    (∃ s : State, ∃ d : Nat, s.lnk.retryDue = some d ∧ s.get Fld.LNK_CTRL_EN = 1) ∧
    (∃ s : State, ∃ tx : Bool, ∃ skew : Nat, s.get Fld.LNK_STAT_STATE = 1 ∧ (if tx then s.lnk.tx else s.lnk.rx).up = false ∧ 4 ≤ (if tx then s.lnk.tx else s.lnk.rx).phase ∧ skew ≤ 192 ∧ (s.usable tx).length < 7) :=
  ⟨
    ⟨(State.reset : State), (⟨16, 2⟩ : Req), ((setBits Fld.LNK_CTRL_EN (0 : Word) (1)) : Word), by decide +kernel⟩,
    ⟨((State.reset.put Fld.LNK_CTRL_EN 1) : State), (⟨16, 2⟩ : Req), (setBits Fld.LNK_CTRL_EN 0 1 : Word), by decide +kernel⟩,
    ⟨((State.reset.put Fld.LNK_STAT_STATE (1)) : State), (0x50000000 : Word), (0xA0000000 : Word), by decide +kernel⟩,
    ⟨((State.reset.put Fld.LNK_STAT_STATE (1)) : State), (0x50100000 : Word), (0xA0000000 : Word), by decide +kernel⟩,
    ⟨(((fun (s : State) => ({ s with lnk := { s.lnk with tx := { s.lnk.tx with phase := 2, up := false, since := 0 }, rx := { s.lnk.rx with phase := 2, up := false, since := 0 } } } : State)) (State.reset.put Fld.LNK_STAT_STATE (1))) : State), (false : Bool), (2 : Fin 8), (secU : Nat), by decide +kernel⟩,
    ⟨(((fun (s : State) => ({ s with lnk := { s.lnk with farReady := Vector.replicate 9 true } } : State)) ((((((fun (s : State) => ({ s with lnk := { s.lnk with tx := { s.lnk.tx with up := false, phase := 5, fec := 64 }, farReady := Vector.replicate 9 true } } : State)) State.reset).put Fld.LNK_STAT_STATE 1).put Fld.CLK_LPLL_LOCK 1).put Fld.LNK_CTRL_PWRREQ 1).put Fld.LNK_AUXMAP_CLK_TX 9)) : State), by decide +kernel⟩,
    ⟨(((fun (s : State) => ({ s with lnk := { s.lnk with nearReady := Vector.replicate 9 true } } : State)) (((((fun (s : State) => ({ s with lnk := { s.lnk with rx := { s.lnk.rx with up := false, phase := 5, fec := 64 }, nearReady := Vector.replicate 9 true } } : State)) State.reset).put Fld.LNK_STAT_STATE 1).put Fld.LNK_CTRL_PWRREQ 1).put Fld.LNK_AUXMAP_CLK_RX 9)) : State), (0 : Nat), by decide +kernel⟩,
    ⟨((((fun (s : State) => ({ s with lnk := { s.lnk with rx := { s.lnk.rx with up := false, phase := 5 } } } : State)) State.reset).put Fld.LNK_STAT_STATE 1) : State), (192 + 1 : Nat), by decide +kernel⟩,
    ⟨((((fun (s : State) => ({ s with lnk := { s.lnk with retryDue := some (0 : Nat) } } : State)) State.reset).put Fld.LNK_CTRL_EN (1)) : State), (0 : Nat), by decide +kernel⟩,
    ⟨((((fun (s : State) => ({ s with lnk := { s.lnk with tx := { s.lnk.tx with up := false, phase := 5 } } } : State)) State.reset).put Fld.LNK_STAT_STATE 1) : State), (true : Bool), (0 : Nat), by decide +kernel⟩⟩

theorem wit_Codewords :
    (∃ s : State, s.lnk.rx.up = true ∧ s.get Fld.LNK_STAT_STATE ≠ 3) ∧
    (∃ s : State, s.lnk.unacked ≠ []) ∧
    (∃ s : State, s.lnk.tx.up = true ∧ s.get Fld.LNK_STAT_STATE ≠ 3 ∧ s.lnk.l1 ≠ some s.lnk.tx.cseq) ∧
    (∃ s : State, s.lnk.tx.up = false ∧ s.get Fld.LNK_STAT_STATE = 1 ∧ 4 ≤ s.lnk.tx.phase ∧ s.get Fld.CLK_LPLL_LOCK = 1) :=
  ⟨
    ⟨((((fun (s : State) => ({ s with lnk := { s.lnk with rx := { s.lnk.rx with up := true } } } : State)) State.reset).put Fld.LNK_STAT_STATE (1 - 3)) : State), by decide +kernel⟩,
    ⟨(((fun (s : State) => ({ s with lnk := { s.lnk with unacked := s.lnk.unacked ++ [default] } } : State)) State.reset) : State), by decide +kernel⟩,
    ⟨((((fun (s : State) => ({ s with lnk := { s.lnk with tx := { s.lnk.tx with up := true } } } : State)) State.reset).put Fld.LNK_STAT_STATE (1 - 3)) : State), by decide +kernel⟩,
    ⟨(((((fun (s : State) => ({ s with lnk := { s.lnk with tx := { s.lnk.tx with up := false, phase := 4 } } } : State)) State.reset).put Fld.LNK_STAT_STATE 1).put Fld.CLK_LPLL_LOCK 1) : State), by decide +kernel⟩⟩

theorem wit_LinkLanes :
    (∃ s : State, ∃ arg : Nat, ∃ tgt : Nat, s.lnk.tx.up = true ∧ 64 ≤ (tgt + 65536 - s.lnk.tx.cseq) % 65536 ∧ (tgt + 65536 - s.lnk.tx.cseq) % 65536 < 32768 ∧ usesPos (s.rd Reg.LNK_LANEMAP_TX).toNat (arg / 16 % 16) = true ∧ arg % 16 = s.get Fld.LNK_AUXMAP_SPARE_TX ∧ arg % 16 ≠ 15) ∧
    (∃ s : State, ∃ arg : Nat, ∃ u : Subst, s.lnk.subTx = some u ∧ u.moved = true ∧ u.failed = arg / 16 % 16) ∧
    (∃ s : State, ∃ arg : Nat, s.lnk.tx.up = true ∧ arg % 16 ≤ 9 ∧ s.get Fld.LNK_AUXMAP_CLK_TX ≠ arg % 16) ∧
    (∃ s : State, s.lnk.tx.up = true) ∧
    (∃ s : State, ∃ p : Fin 9, s.lnk.rx.up = true ∧ s.lnk.tx.up = true ∧ s.get Fld.LNK_AUXMAP_SPARE_RX ≠ p.val ∧ s.get Fld.LNK_AUXMAP_SPARE_RX ≠ 15 ∧ usesPos (s.rd Reg.LNK_LANEMAP_RX).toNat p = true ∧ s.lnk.subRx = none ∧ s.lnk.failedAt = []) ∧
    (∃ s : State, ∃ p : Fin 9, s.lnk.rx.up = true ∧ s.get Fld.LNK_AUXMAP_SPARE_RX = 15 ∧ usesPos (s.rd Reg.LNK_LANEMAP_RX).toNat p = true) ∧
    (∃ s : State, s.lnk.rx.up = true ∧ s.get Fld.LNK_AUXMAP_SPARE_RX ≠ 15) ∧
    (∃ s : State, ∃ u : Subst, s.lnk.subTx = some u ∧ u.moved = false ∧ u.tgt = s.lnk.tx.cseq) ∧
    (∃ s : State, ∃ u : Subst, s.lnk.subRx = some u ∧ u.moved = false ∧ u.tgt = s.lnk.rx.cseq) ∧
    (∃ s : State, ∃ u : Subst, s.lnk.subRx = some u) ∧
    (∃ s : State, s.get Fld.LNK_STAT_STATE = 2) :=
  ⟨
    ⟨((((fun (s : State) => ({ s with lnk := { s.lnk with tx := { s.lnk.tx with up := true } } } : State)) State.reset).put Fld.LNK_AUXMAP_SPARE_TX 7) : State), (7 + 16 * 2 : Nat), (100 : Nat), by decide +kernel⟩,
    ⟨(((fun (s : State) => ({ s with lnk := { s.lnk with subTx := some ({ (default : Subst) with failed := 0, spare := 7, moved := true } : Subst) } } : State)) State.reset) : State), (0 : Nat), ({ (default : Subst) with failed := 0, spare := 7, moved := true } : Subst), by decide +kernel⟩,
    ⟨((((fun (s : State) => ({ s with lnk := { s.lnk with tx := { s.lnk.tx with up := true } } } : State)) State.reset).put Fld.LNK_AUXMAP_CLK_TX (1 - (0 : Nat) % 16)) : State), (0 : Nat), by decide +kernel⟩,
    ⟨(((fun (s : State) => ({ s with lnk := { s.lnk with tx := { s.lnk.tx with up := true } } } : State)) State.reset) : State), by decide +kernel⟩,
    ⟨(((((fun (s : State) => (s.put Fld.LNK_AUXMAP_SPARE_RX (1 - (0 : Fin 9).val) : State)) ((fun (s : State) => ({ s with lnk := { s.lnk with tx := { s.lnk.tx with up := true } } } : State)) ((fun (s : State) => ({ s with lnk := { s.lnk with rx := { s.lnk.rx with up := true } } } : State)) State.reset))).put Fld.LNK_AUXMAP_SPARE_RX (1 - 15)).put Fld.LNK_AUXMAP_SPARE_RX 7) : State), (0 : Fin 9), by decide +kernel⟩,
    ⟨((((fun (s : State) => ({ s with lnk := { s.lnk with rx := { s.lnk.rx with up := true } } } : State)) State.reset).put Fld.LNK_AUXMAP_SPARE_RX (15)) : State), (0 : Fin 9), by decide +kernel⟩,
    ⟨((((fun (s : State) => ({ s with lnk := { s.lnk with rx := { s.lnk.rx with up := true } } } : State)) State.reset).put Fld.LNK_AUXMAP_SPARE_RX (1 - 15)) : State), by decide +kernel⟩,
    ⟨(((fun (s : State) => ({ s with lnk := { s.lnk with subTx := some ({ (default : Subst) with failed := 0, spare := 7, moved := false } : Subst) } } : State)) State.reset) : State), ({ (default : Subst) with failed := 0, spare := 7, moved := false } : Subst), by decide +kernel⟩,
    ⟨(((fun (s : State) => ({ s with lnk := { s.lnk with subRx := some ({ (default : Subst) with failed := 0, spare := 7, moved := false } : Subst) } } : State)) State.reset) : State), ({ (default : Subst) with failed := 0, spare := 7, moved := false } : Subst), by decide +kernel⟩,
    ⟨(((fun (s : State) => ({ s with lnk := { s.lnk with subRx := some ({ (default : Subst) with failed := 0, spare := 7, moved := true } : Subst) } } : State)) State.reset) : State), ({ (default : Subst) with failed := 0, spare := 7, moved := true } : Subst), by decide +kernel⟩,
    ⟨((State.reset.put Fld.LNK_STAT_STATE (2)) : State), by decide +kernel⟩⟩

theorem wit_LinkPower :
    (∃ s : State, ∃ tgt : Nat, s.linkUp = true ∧ s.lnk.l1Seen ≠ some tgt ∧ s.port.staged = [] ∧ s.lnk.unacked = [] ∧ ((List.range 256).any fun f => s.flag (Fld.LNK_FLOWf_CFG_EN.i f) && s.get (Fld.LNK_FLOWf_CFG_CLASS.i f) == 2) = false) ∧
    (∃ s : State, ∃ tgt : Nat, s.linkUp = true ∧ s.lnk.l1Seen ≠ some tgt ∧ ((s.port.staged ≠ [] ∨ s.lnk.unacked ≠ []))) ∧
    (∃ s : State, s.linkUp = true ∧ s.get Fld.LNK_CTRL_PWRREQ = 1) ∧
    (∃ s : State, s.linkUp = true ∧ s.lnk.l1 = some s.lnk.tx.cseq) ∧
    (∃ s : State, s.get Fld.LNK_STAT_STATE = 3) ∧
    (∃ s : State, s.get Fld.LNK_STAT_STATE = 4) ∧
    (∃ s : State, s.get Fld.CLK_LPLL_LOCK = 1) ∧
    (∃ s : State, s.pow.refOff = false) :=
  ⟨
    ⟨(((fun (s : State) => ((List.range 64).foldl (fun (s : State) f => s.put (Fld.LNK_FLOWf_CFG_CLASS.i f) 1) s : State)) (State.reset.put Fld.LNK_STAT_STATE 2)) : State), (0 : Nat), by decide +kernel⟩,
    ⟨(((fun (s : State) => ({ s with lnk := { s.lnk with unacked := s.lnk.unacked ++ [default] } } : State)) (State.reset.put Fld.LNK_STAT_STATE 2)) : State), (0 : Nat), by decide +kernel⟩,
    ⟨(((State.reset.put Fld.LNK_STAT_STATE 2).put Fld.LNK_CTRL_PWRREQ (1)) : State), by decide +kernel⟩,
    ⟨(((fun (s : State) => ({ s with lnk := { s.lnk with l1 := some s.lnk.tx.cseq } } : State)) (State.reset.put Fld.LNK_STAT_STATE 2)) : State), by decide +kernel⟩,
    ⟨((State.reset.put Fld.LNK_STAT_STATE (3)) : State), by decide +kernel⟩,
    ⟨((State.reset.put Fld.LNK_STAT_STATE (4)) : State), by decide +kernel⟩,
    ⟨((State.reset.put Fld.CLK_LPLL_LOCK (1)) : State), by decide +kernel⟩,
    ⟨(State.reset : State), by decide +kernel⟩⟩

theorem wit_LinkMessages :
    (∃ s : State, ∃ m : Hdr, ∃ p : List Nat, s.get (Fld.LNK_FLOWf_CFG_EN.i m.flow) ≠ 0 ∧ s.hdrOk m 3 (4 + p.length) = true) ∧
    (∃ s : State, ∃ m : Hdr, ∃ vendor : List Nat, s.get (Fld.LNK_FLOWf_CFG_EN.i m.flow) ≠ 0 ∧ s.hdrOk m 6 (3 + vendor.length) = true ∧ vendor.length = 4 ∧ beNat vendor = 0 ∧ s.get Fld.LNK_CTRL_RRST = 1) ∧
    (∃ s : State, ∃ m : Hdr, s.get (Fld.LNK_FLOWf_CFG_EN.i m.flow) ≠ 0 ∧ s.hdrOk m 7 4 = true) ∧
    (∃ s : State, ∃ i : IndSent, firstDueInd s.port.unacked = some i) :=
  ⟨
    ⟨(((fun (s : State) => (s.put (Fld.LNK_FLOWf_CFG_EN.i (⟨4, 1, 0, 4, 0x80⟩ : Hdr).flow) (1 - 0) : State)) State.reset) : State), (⟨4, 1, 0, 4, 0x80⟩ : Hdr), ([] : List Nat), by decide +kernel⟩,
    ⟨((((fun (s : State) => (s.put (Fld.LNK_FLOWf_CFG_EN.i (⟨2, 1, 0, 7, 0x80⟩ : Hdr).flow) (1 - 0) : State)) State.reset).put Fld.LNK_CTRL_RRST (1)) : State), (⟨2, 1, 0, 7, 0x80⟩ : Hdr), ([0,0,0,0] : List Nat), by decide +kernel⟩,
    ⟨(((fun (s : State) => (s.put (Fld.LNK_FLOWf_CFG_EN.i (⟨2, 1, 0, 4, 0x80⟩ : Hdr).flow) (1 - 0) : State)) State.reset) : State), (⟨2, 1, 0, 4, 0x80⟩ : Hdr), by decide +kernel⟩,
    ⟨(((fun (s : State) => ({ s with port := { s.port with unacked := [(⟨1, [], 0, 5⟩ : IndSent)] } } : State)) State.reset) : State), (⟨1, [], 0, 5⟩ : IndSent), by decide +kernel⟩⟩

theorem wit_TimeReading :
    (∃ s : State, ∃ r : Req, s.check r Reg.TIM_NOW_NS 2 false = .ok) ∧
    (∃ s : State, ∃ d : Nat, s.tim.fnoffDue = some d) ∧
    (∃ s : State, ∃ r : Req, Takes s r Reg.TIM_UTC) ∧
    (∃ s : State, s.get Fld.TIM_UTC_PEND = 1) :=
  ⟨
    ⟨(State.reset : State), (⟨16, 2⟩ : Req), by decide +kernel⟩,
    ⟨(((fun (s : State) => ({ s with tim := { s.tim with fnoffDue := some (0 : Nat) } } : State)) State.reset) : State), (0 : Nat), by decide +kernel⟩,
    ⟨(State.reset : State), (⟨16, 2⟩ : Req), by decide +kernel⟩,
    ⟨((State.reset.put Fld.TIM_UTC_PEND (1)) : State), by decide +kernel⟩⟩

theorem wit_TimingMessages :
    (∃ s : State, ∃ bytes : List Nat, ∃ n, n = (s.ringUnits l0Rx) ∧ ∃ k, k = ((16 + bytes.length + 63) / 64) ∧ ∃ hw, hw = (s.get Fld.TIM_L0RXP_HW % n) ∧ (hw + n - s.get Fld.TIM_L0RXP_SW % n) % n + k < n) ∧
    (∃ s : State, ∃ bytes : List Nat, ∃ n, n = (s.ringUnits l0Rx) ∧ ∃ k, k = ((16 + bytes.length + 63) / 64) ∧ ∃ hw, hw = (s.get Fld.TIM_L0RXP_HW % n) ∧ n ≤ (hw + n - s.get Fld.TIM_L0RXP_SW % n) % n + k) ∧
    (∃ s : State, ∃ u : Nat, ∃ b : List Nat, s.linkUp = true ∧ ringNext s l0Tx = some (u, b)) ∧
    (∃ s : State, ∃ m : Hdr, s.get (Fld.LNK_FLOWf_CFG_EN.i m.flow) ≠ 0 ∧ s.hdrOk m 5 20 = true) ∧
    (∃ s : State, ∃ header : List Nat, ∃ body : List Nat, ∃ crc : List Nat, s.get Fld.MGP_CFG_EN = 1 ∧ ((header ++ body).length < 60 ∨ 1518 < (header ++ body).length ∨ crc ≠ fcs (header ++ body))) ∧
    (∃ s : State, ∃ header : List Nat, ∃ body : List Nat, ∃ bytes, bytes = (header ++ body) ∧ ∃ n, n = (s.ringUnits mgpRx) ∧ ∃ k, k = ((16 + bytes.length + 63) / 64) ∧ ∃ hw, hw = (s.get Fld.MGP_RXPTR_HW % n) ∧ s.get Fld.MGP_CFG_EN = 1 ∧ 60 ≤ (header ++ body).length ∧ (header ++ body).length ≤ 1518 ∧ s.ptpOffset (header ++ body) = none ∧ (hw + n - s.get Fld.MGP_RXPTR_SW % n) % n + k < n) ∧
    (∃ s : State, ∃ header : List Nat, ∃ body : List Nat, ∃ bytes, bytes = (header ++ body) ∧ ∃ n, n = (s.ringUnits mgpRx) ∧ ∃ k, k = ((16 + bytes.length + 63) / 64) ∧ ∃ hw, hw = (s.get Fld.MGP_RXPTR_HW % n) ∧ s.get Fld.MGP_CFG_EN = 1 ∧ 60 ≤ (header ++ body).length ∧ (header ++ body).length ≤ 1518 ∧ s.ptpOffset (header ++ body) = none ∧ n ≤ (hw + n - s.get Fld.MGP_RXPTR_SW % n) % n + k) ∧
    (∃ s : State, ∃ u : Nat, ∃ b : List Nat, s.get Fld.MGP_CFG_EN = 1 ∧ s.get Fld.MGP_STAT_LINK = 1 ∧ ringNext s mgpTx = some (u, b)) :=
  ⟨
    ⟨(State.reset : State), ([] : List Nat), _, rfl, _, rfl, _, rfl, by decide +kernel⟩,
    ⟨((State.reset.put Fld.TIM_L0RXP_HW 63) : State), ([] : List Nat), _, rfl, _, rfl, _, rfl, by decide +kernel⟩,
    ⟨((((State.reset.put Fld.LNK_STAT_STATE 2).put Fld.TIM_L0TXP_HW 0).put Fld.TIM_L0TXP_SW 1) : State), (0 : Nat), (ringGet State.reset l0Tx 0 16 0 : List Nat), by decide +kernel⟩,
    ⟨(((fun (s : State) => (s.put (Fld.LNK_FLOWf_CFG_EN.i (default : Hdr).flow) (1 - 0) : State)) State.reset) : State), (default : Hdr), by decide +kernel⟩,
    ⟨((State.reset.put Fld.MGP_CFG_EN (1)) : State), ([] : List Nat), ([] : List Nat), ([] : List Nat), by decide +kernel⟩,
    ⟨((State.reset.put Fld.MGP_CFG_EN (1)) : State), (List.replicate 14 0 : List Nat), (List.replicate 46 0 : List Nat), _, rfl, _, rfl, _, rfl, _, rfl, by decide +kernel⟩,
    ⟨(((State.reset.put Fld.MGP_CFG_EN (1)).put Fld.MGP_RXPTR_HW 63) : State), (List.replicate 14 0 : List Nat), (List.replicate 46 0 : List Nat), _, rfl, _, rfl, _, rfl, _, rfl, by decide +kernel⟩,
    ⟨((((State.reset.put Fld.MGP_CFG_EN (1)).put Fld.MGP_STAT_LINK (1)).put Fld.MGP_TXPTR_SW 1) : State), (0 : Nat), (ringGet State.reset mgpTx 0 16 0 : List Nat), by decide +kernel⟩⟩

theorem wit_TimeSources :
    (∃ s : State, ∃ n : Fin 5, s.get (Fld.TIM_SRCSTAT_STALE.sub n) = 0 ∧ s.get Fld.TIM_CFG_SEL ≠ n.val) ∧
    (∃ s : State, ∃ r : Req, ∃ v : Word, ∃ src, src = (getBits Fld.TIM_MEAS_CTRL_SRC v) ∧ Takes s r Reg.TIM_MEAS_CTRL ∧ src < 3 ∧ s.bit Fld.TIM_CFG_SRCEN src = false) ∧
    (∃ s : State, ∃ r : Req, ∃ v : Word, ∃ src, src = (getBits Fld.TIM_MEAS_CTRL_SRC v) ∧ ∃ off : Int, off = ((signed 32 (s.get Fld.TIM_MEAS_SEC_SEC) * 1000000000 + signed 32 (s.get Fld.TIM_MEAS_NS_NS)) * nsU) ∧ Takes s r Reg.TIM_MEAS_CTRL ∧ src < 3 ∧ s.bit Fld.TIM_CFG_SRCEN src = true ∧ getBits Fld.TIM_MEAS_CTRL_STEP v = 0 ∧ getBits Fld.TIM_MEAS_CTRL_INIT v = 0 ∧ s.get (Fld.TIM_SRCSTAT_SUSPECT.sub src) = 0 ∧ off.natAbs ≤ s.thresh) ∧
    (∃ s : State, ∃ r : Req, ∃ v : Word, ∃ src, src = (getBits Fld.TIM_MEAS_CTRL_SRC v) ∧ ∃ off : Int, off = ((signed 32 (s.get Fld.TIM_MEAS_SEC_SEC) * 1000000000 + signed 32 (s.get Fld.TIM_MEAS_NS_NS)) * nsU) ∧ Takes s r Reg.TIM_MEAS_CTRL ∧ src < 3 ∧ s.bit Fld.TIM_CFG_SRCEN src = true ∧ getBits Fld.TIM_MEAS_CTRL_STEP v = 0 ∧ s.get (Fld.TIM_SRCSTAT_SUSPECT.sub src) = 0 ∧ s.get Fld.TIM_STAT_STEPPED = 1 ∧ s.thresh < off.natAbs) ∧
    (∃ s : State, ∃ r : Req, ∃ v : Word, ∃ src, src = (getBits Fld.TIM_MEAS_CTRL_SRC v) ∧ Takes s r Reg.TIM_MEAS_CTRL ∧ src < 3 ∧ s.bit Fld.TIM_CFG_SRCEN src = true ∧ getBits Fld.TIM_MEAS_CTRL_STEP v = 1 ∧ s.get Fld.TIM_STAT_PEND = 0 ∧ ((s.get Fld.TIM_STAT_STEPPED = 0 ∨ s.get Fld.TIM_STEPCTL_AUTH = 1))) ∧
    (∃ s : State, ∃ t0 : Nat, ∃ off : Int, ∃ load : Bool, s.tim.step = some (t0, off, load)) :=
  ⟨
    ⟨(((fun (s : State) => (s.put Fld.TIM_CFG_SEL (1 - (0 : Fin 5).val) : State)) (State.reset.put (Fld.TIM_SRCSTAT_STALE.sub (0 : Fin 5)) (0))) : State), (0 : Fin 5), by decide +kernel⟩,
    ⟨(State.reset : State), (⟨16, 2⟩ : Req), (0 : Word), _, rfl, by decide +kernel⟩,
    ⟨((State.reset.setBit Fld.TIM_CFG_SRCEN (getBits Fld.TIM_MEAS_CTRL_SRC ((setBits Fld.TIM_MEAS_CTRL_INIT (setBits Fld.TIM_MEAS_CTRL_STEP (0 : Word) (0)) (0)) : Word))) : State), (⟨16, 2⟩ : Req), ((setBits Fld.TIM_MEAS_CTRL_INIT (setBits Fld.TIM_MEAS_CTRL_STEP (0 : Word) (0)) (0)) : Word), _, rfl, _, rfl, by decide +kernel⟩,
    ⟨((((State.reset.setBit Fld.TIM_CFG_SRCEN (getBits Fld.TIM_MEAS_CTRL_SRC ((setBits Fld.TIM_MEAS_CTRL_STEP (0 : Word) (0)) : Word))).put Fld.TIM_STAT_STEPPED (1)).put Fld.TIM_MEAS_NS_NS 5000) : State), (⟨16, 2⟩ : Req), ((setBits Fld.TIM_MEAS_CTRL_STEP (0 : Word) (0)) : Word), _, rfl, _, rfl, by decide +kernel⟩,
    ⟨((State.reset.setBit Fld.TIM_CFG_SRCEN (getBits Fld.TIM_MEAS_CTRL_SRC ((setBits Fld.TIM_MEAS_CTRL_STEP (0 : Word) (1)) : Word))) : State), (⟨16, 2⟩ : Req), ((setBits Fld.TIM_MEAS_CTRL_STEP (0 : Word) (1)) : Word), _, rfl, by decide +kernel⟩,
    ⟨(((fun (s : State) => ({ s with tim := { s.tim with step := some ((0 : Nat), (0 : Int), (false : Bool)) } } : State)) State.reset) : State), (0 : Nat), (0 : Int), (false : Bool), by decide +kernel⟩⟩

theorem wit_EventUnit :
    (∃ s : State, ∃ h : Fin 8, ∃ ra : Nat, ∃ rb : Nat, ∃ arg : Nat, ∃ kind, kind = (rb / 2 ^ 24 % 8) ∧ ∃ t0, t0 = (namedInstant s.now (rb / 2 ^ 29 % 8) ra (rb / 4096 % 4096)) ∧ s.evu[h].cross = some (ra, rb, arg) ∧ s.evu[h].q.length < 64 ∧ 1 ≤ kind ∧ kind ≤ 4 ∧ ra ≤ 491519999 ∧ ((kind = 3 → arg % 65536 < 0xFFF0)) ∧ ((s.now + 100 * nsU : Nat) : Int) ≤ t0) ∧
    (∃ s : State, ∃ h : Fin 8, ∃ ra : Nat, ∃ rb : Nat, ∃ arg : Nat, ∃ t0, t0 = (namedInstant s.now (rb / 2 ^ 29 % 8) ra (rb / 4096 % 4096)) ∧ s.evu[h].cross = some (ra, rb, arg) ∧ s.evu[h].q.length < 64 ∧ t0 < ((s.now + 100 * nsU : Nat) : Int)) ∧
    (∃ s : State, ∃ h : Fin 8, ∃ a : EvAct, firstAct s.evu[h].q = some a ∧ a.kind = 1) ∧
    (∃ s : State, ∃ h : Fin 8, ∃ a : EvAct, firstAct s.evu[h].q = some a ∧ a.kind = 2) ∧
    (∃ s : State, ∃ h : Fin 8, ∃ a : EvAct, firstAct s.evu[h].q = some a ∧ a.kind = 3 ∧ s.evq[h].length < 32) ∧
    (∃ s : State, ∃ h : Fin 8, ∃ a : EvAct, firstAct s.evu[h].q = some a ∧ a.kind = 4) ∧
    (∃ s : State, ∃ r : Req, ∃ h : Fin 8, ∃ n : Fin 4, ∃ v : Word, Takes s r (hamletBase h + Reg.EVT_TMRn_CFG + 8 * n) ∧ ((r.id = h.val ∨ r.id = 16)) ∧ s.get ((Fld.EVT_TMRn_CFG_OWNER.i n).h h) = 0 ∧ getBits Fld.EVT_TMRn_CFG_EN v = 1) ∧
    (∃ s : State, ∃ h : Fin 8, ∃ n : Fin 4, s.get ((Fld.EVT_TMRn_CFG_EN.i n).h h) = 1) ∧
    (∃ s : State, ∃ r : Req, ∃ h : Fin 8, ∃ c : Nat, ∃ l : List Nat, s.check r (hamletBase h + Reg.ENG_EVQ) 2 false = .ok ∧ s.evq[h] = c :: l) ∧
    (∃ s : State, ∃ r : Req, ∃ c : Nat, ∃ l : List Nat, s.check r Reg.SYS_EVQ 2 false = .ok ∧ s.flt.evq = c :: l) :=
  ⟨
    ⟨(((fun (s : State) => ({ s with evu := (s.evu.set ((0 : Fin 8)) ({ s.evu[(0 : Fin 8)] with cross := some ((1000 : Nat), (2 ^ 24 : Nat), (0 : Nat)) })) } : State)) State.reset) : State), (0 : Fin 8), (1000 : Nat), (2 ^ 24 : Nat), (0 : Nat), _, rfl, _, rfl, by decide +kernel⟩,
    ⟨(((fun (s : State) => ({ s with evu := (s.evu.set ((0 : Fin 8)) ({ s.evu[(0 : Fin 8)] with cross := some ((0 : Nat), (0 : Nat), (0 : Nat)) })) } : State)) State.reset) : State), (0 : Fin 8), (0 : Nat), (0 : Nat), (0 : Nat), _, rfl, by decide +kernel⟩,
    ⟨(((fun (s : State) => ({ s with evu := s.evu.set (0 : Fin 8) { s.evu[(0 : Fin 8)] with q := [(⟨1000, 1, 0⟩ : EvAct)] } } : State)) State.reset) : State), (0 : Fin 8), (⟨1000, 1, 0⟩ : EvAct), by decide +kernel⟩,
    ⟨(((fun (s : State) => ({ s with evu := s.evu.set (0 : Fin 8) { s.evu[(0 : Fin 8)] with q := [(⟨1000, 2, 0⟩ : EvAct)] } } : State)) State.reset) : State), (0 : Fin 8), (⟨1000, 2, 0⟩ : EvAct), by decide +kernel⟩,
    ⟨(((fun (s : State) => ({ s with evu := s.evu.set (0 : Fin 8) { s.evu[(0 : Fin 8)] with q := [(⟨1000, 3, 0⟩ : EvAct)] } } : State)) State.reset) : State), (0 : Fin 8), (⟨1000, 3, 0⟩ : EvAct), by decide +kernel⟩,
    ⟨(((fun (s : State) => ({ s with evu := s.evu.set (0 : Fin 8) { s.evu[(0 : Fin 8)] with q := [(⟨1000, 4, 0⟩ : EvAct)] } } : State)) State.reset) : State), (0 : Fin 8), (⟨1000, 4, 0⟩ : EvAct), by decide +kernel⟩,
    ⟨(((fun (s : State) => (s.put ((Fld.EVT_TMRn_CFG_OWNER.i (0 : Fin 4)).h (0 : Fin 8)) (0) : State)) (State.reset.put (Fld.PWR_HSTATE_STATE.sub ((0 : Fin 8))) 3)) : State), (⟨16, 2⟩ : Req), (0 : Fin 8), (0 : Fin 4), ((setBits Fld.EVT_TMRn_CFG_EN (0 : Word) (1)) : Word), by decide +kernel⟩,
    ⟨(((fun (s : State) => (s.put ((Fld.EVT_TMRn_CFG_EN.i (0 : Fin 4)).h (0 : Fin 8)) (1) : State)) State.reset) : State), (0 : Fin 8), (0 : Fin 4), by decide +kernel⟩,
    ⟨(((fun (s : State) => ({ s with evq := (s.evq.set ((0 : Fin 8)) ((0 : Nat) :: ([] : List Nat))) } : State)) (State.reset.put (Fld.PWR_HSTATE_STATE.sub (0 : Fin 8)) 3)) : State), (⟨16, 2⟩ : Req), (0 : Fin 8), (0 : Nat), ([] : List Nat), by decide +kernel⟩,
    ⟨(((fun (s : State) => ({ s with flt := { s.flt with evq := (0 : Nat) :: ([] : List Nat) } } : State)) State.reset) : State), (⟨16, 2⟩ : Req), (0 : Nat), ([] : List Nat), by decide +kernel⟩⟩

theorem wit_TallyHops :
    (∃ s : State, ∃ body : List Nat, s.get Fld.TLY_CFG_EN = 1 ∧ body.length = 2 + body.getD 1 0 ∧ body.getD 1 0 ≤ 39) ∧
    (∃ s : State, ∃ body : List Nat, ∃ crc : Nat, s.get Fld.TLY_CFG_EN = 1 ∧ (crc16 body ≠ crc ∨ body.length ≠ 2 + body.getD 1 0 ∨ 39 < body.getD 1 0)) ∧
    (∃ s : State, s.tly.good.1 = 15 ∧ s.get Fld.TLY_STAT_UPLINK = 0) ∧
    (∃ s : State, s.tly.good.1 ≠ 15) ∧
    (∃ s : State, s.tly.good.2 ≠ 15) ∧
    (∃ s : State, s.get Fld.TLY_CFG_EN = 1 ∧ s.tly.bad.1 = 7 ∧ s.get Fld.TLY_STAT_UPLINK = 1) ∧
    (∃ s : State, s.get Fld.TLY_CFG_EN = 1 ∧ s.tly.bad.1 ≠ 7) ∧
    (∃ s : State, s.get Fld.TLY_CFG_EN = 1 ∧ s.tly.bad.2 = 7 ∧ s.get Fld.TLY_STAT_DNLINK = 1) ∧
    (∃ s : State, ∃ trips : List Nat, s.get Fld.TLY_STAT_UPLINK = 1 ∧ trips.length = 256) ∧
    (∃ s : State, s.get Fld.TLY_CFG_EN = 1 ∧ s.get Fld.TLY_STAT_HEAD = 1 ∧ s.get Fld.TIM_STAT_STEPPED = 1) ∧
    (∃ s : State, s.tly.time = none) ∧
    (∃ s : State, s.follower = true) ∧
    (∃ s : State, fineU ≤ s.tim.slew) :=
  ⟨
    ⟨((State.reset.put Fld.TLY_CFG_EN (1)) : State), ([0, 0] : List Nat), by decide +kernel⟩,
    ⟨((State.reset.put Fld.TLY_CFG_EN (1)) : State), ([] : List Nat), (0 : Nat), by decide +kernel⟩,
    ⟨(((fun (s : State) => ({ s with tly := { s.tly with good := { s.tly.good with 1 := 15 } } } : State)) State.reset) : State), by decide +kernel⟩,
    ⟨(State.reset : State), by decide +kernel⟩,
    ⟨(State.reset : State), by decide +kernel⟩,
    ⟨((((fun (s : State) => ({ s with tly := { s.tly with bad := { s.tly.bad with 1 := 7 } } } : State)) (State.reset.put Fld.TLY_CFG_EN (1))).put Fld.TLY_STAT_UPLINK (1)) : State), by decide +kernel⟩,
    ⟨((State.reset.put Fld.TLY_CFG_EN (1)) : State), by decide +kernel⟩,
    ⟨((((fun (s : State) => ({ s with tly := { s.tly with bad := { s.tly.bad with 2 := 7 } } } : State)) (State.reset.put Fld.TLY_CFG_EN (1))).put Fld.TLY_STAT_DNLINK (1)) : State), by decide +kernel⟩,
    ⟨((State.reset.put Fld.TLY_STAT_UPLINK (1)) : State), (List.replicate 256 0 : List Nat), by decide +kernel⟩,
    ⟨((((State.reset.put Fld.TLY_CFG_EN (1)).put Fld.TLY_STAT_HEAD (1)).put Fld.TIM_STAT_STEPPED (1)) : State), by decide +kernel⟩,
    ⟨(State.reset : State), by decide +kernel⟩,
    ⟨(((fun (s : State) => ((s.put Fld.TLY_CFG_EN 1).put Fld.TLY_STAT_HEAD 0 : State)) State.reset) : State), by decide +kernel⟩,
    ⟨(((fun (s : State) => ({ s with tim := { s.tim with slew := 1000000 } } : State)) State.reset) : State), by decide +kernel⟩⟩

theorem wit_Enumeration :
    (∃ s : State, ∃ r : Req, Takes s r Reg.TLY_CMD ∧ s.get Fld.TLY_CFG_EN = 1 ∧ s.get Fld.TLY_STAT_HEAD = 1) ∧
    (∃ s : State, ∃ n : Nat, s.get Fld.TLY_CFG_EN = 1 ∧ n < 255) ∧
    (∃ s : State, ∃ n : Nat, s.get Fld.TLY_CFG_EN = 1 ∧ 255 ≤ n) ∧
    (∃ s : State, ∃ n : Nat, ∃ due : Nat, ∃ f : Bool, s.tly.token = some (n, f, due) ∧ s.get Fld.TLY_STAT_DNLINK = 0) ∧
    (∃ s : State, s.get Fld.TLY_CFG_EN = 1 ∧ s.get Fld.TLY_STAT_ADDR ≠ 255) :=
  ⟨
    ⟨(((State.reset.put Fld.TLY_CFG_EN (1)).put Fld.TLY_STAT_HEAD (1)) : State), (⟨16, 2⟩ : Req), by decide +kernel⟩,
    ⟨((State.reset.put Fld.TLY_CFG_EN (1)) : State), (0 : Nat), by decide +kernel⟩,
    ⟨((State.reset.put Fld.TLY_CFG_EN (1)) : State), (255 : Nat), by decide +kernel⟩,
    ⟨(((fun (s : State) => ({ s with tly := { s.tly with token := some ((0 : Nat), (false : Bool), (0 : Nat)) } } : State)) State.reset) : State), (0 : Nat), (0 : Nat), (false : Bool), by decide +kernel⟩,
    ⟨(((State.reset.put Fld.TLY_CFG_EN (1)).put Fld.TLY_STAT_ADDR 1) : State), by decide +kernel⟩⟩

theorem wit_TallyCommands :
    (∃ s : State, ∃ r : Req, ∃ t0 : Nat, Takes s r Reg.TLY_CMD ∧ originTarget s.now (s.get Fld.TLY_CMD_SEC_SEC) (s.get Fld.TLY_CMD_NS_NS) = some t0 ∧ s.get Fld.TLY_CFG_EN = 1) ∧
    (∃ s : State, ∃ r : Req, ∃ c : Instr, Takes s r Reg.TLY_CMD ∧ originTarget s.now (s.get Fld.TLY_CMD_SEC_SEC) (s.get Fld.TLY_CMD_NS_NS) = none ∧ (c = .tlyMute r ∨ c = .tlyCommit r ∨ c = .tlyStepauth r)) ∧
    (∃ s : State, ∃ op : Nat, ∃ sec : Nat, ∃ ns : Nat, s.get Fld.TLY_CFG_EN = 1 ∧ 3 ≤ op ∧ op ≤ 5 ∧ (s.now : Int) ≤ nearestTarget s.now sec ns) ∧
    (∃ s : State, ∃ op : Nat, ∃ sec : Nat, ∃ ns : Nat, s.get Fld.TLY_CFG_EN = 1 ∧ 3 ≤ op ∧ op ≤ 5 ∧ nearestTarget s.now sec ns < s.now) ∧
    (∃ s : State, ∃ t0 : Nat, ∃ op : Nat, ∃ rest : List (Nat × Nat), popTrig (s.tly.cmds.map fun p => (p.2, p.1)) = some ((t0, op), rest)) ∧
    (∃ s : State, s.get Fld.TLY_CFG_EN = 1) :=
  ⟨
    ⟨(((State.reset.put Fld.TLY_CFG_EN (1)).put Fld.TLY_CMD_NS_NS 1000000) : State), (⟨16, 2⟩ : Req), (1000000 * nsU : Nat), by decide +kernel⟩,
    ⟨(State.reset : State), (⟨16, 2⟩ : Req), (.tlyMute (⟨16, 2⟩ : Req) : Instr), by decide +kernel⟩,
    ⟨((State.reset.put Fld.TLY_CFG_EN (1)) : State), (3 : Nat), (0 : Nat), (0 : Nat), by decide +kernel⟩,
    ⟨(((fun (s : State) => ({ s with now := secU * 2 } : State)) (State.reset.put Fld.TLY_CFG_EN (1))) : State), (3 : Nat), (1 : Nat), (0 : Nat), by decide +kernel⟩,
    ⟨(((fun (s : State) => ({ s with tly := { s.tly with cmds := [(2, 7)] } } : State)) State.reset) : State), (7 : Nat), (2 : Nat), ([] : List (Nat × Nat)), by decide +kernel⟩,
    ⟨((State.reset.put Fld.TLY_CFG_EN (1)) : State), by decide +kernel⟩⟩

theorem wit_ScrubAndRepair :
    (∃ s : State, ∃ k : Fin 10, s.get (Fld.STO_CFG_SCRUB.st k) = 1 ∧ s.storeRuns k = true ∧ s.ecc = [] ∧ s.sto[k].pos ≠ 0 ∧ s.granuleWaits k ((storeSpan k).1 + 64 * s.sto[k].pos) = false ∧ 64 * (s.sto[k].pos + 1) < (storeSpan k).2) ∧
    (∃ s : State, ∃ k : Fin 10, s.get (Fld.STO_CFG_SCRUB.st k) = 1 ∧ s.storeRuns k = true ∧ s.ecc = [] ∧ s.sto[k].pos ≠ 0 ∧ s.granuleWaits k ((storeSpan k).1 + 64 * s.sto[k].pos) = false ∧ (storeSpan k).2 ≤ 64 * (s.sto[k].pos + 1)) ∧
    (∃ s : State, ∃ k : Fin 10, ∃ bank : Nat, ∃ row : Nat, ∃ n : Nat, ∃ rest : List (Nat × Nat), s.sto[k].cands = (bank, row) :: rest ∧ s.sto[k].copy = none ∧ s.storeRuns k = true ∧ s.freeSpare k bank = some n ∧ s.ecc = []) ∧
    (∃ s : State, ∃ k : Fin 10, ∃ bank : Nat, ∃ row : Nat, ∃ rest : List (Nat × Nat), s.sto[k].cands = (bank, row) :: rest ∧ s.sto[k].copy = none ∧ s.storeRuns k = true ∧ s.freeSpare k bank = none) ∧
    (∃ s : State, ∃ k : Fin 10, ∃ c : RowCopy, s.sto[k].copy = some c ∧ c.bad = [] ∧ c.bank < 32 ∧ c.spare < 8 ∧ c.row < 1024 ∧ s.rtc.held = [] ∧ s.stalled = [] ∧ ((∀ h : Fin 8, s.bfm[h].stalled = [] ∧ s.orx[h].fifo = []))) ∧
    (∃ s : State, ∃ r : Req, ∃ k : Fin 10, ∃ n : Fin 256, ∃ a, a = (((Fld.STO_REPAIRn_VALID.i n).st k).reg) ∧ Takes s r ((Fld.STO_REPAIRn_VALID.i n).st k).reg ∧ r.id = 16 ∧ ((∀ h : Fin 8, h.val = k.val → (s.eng[hEng h].state = 0 ∨ s.eng[hEng h].state = 3) ∧ s.get (Fld.ARB_STAT_DRAINED.h h) = 1)) ∧ s.locked a = false) ∧
    (∃ s : State, ∃ r : Req, ∃ k : Fin 10, ∃ n : Fin 256, Takes s r ((Fld.STO_REPAIRn_VALID.i n).st k).reg ∧ r.id ≠ 16) ∧
    (∃ s : State, ∃ r : Req, ∃ k : Fin 10, Takes s r (Fld.STO_INJ_ARM.st k).reg ∧ r.id = 16) ∧
    (∃ s : State, ∃ k : Fin 10, ∃ t0 : Nat, s.get (Fld.STO_CFG_SCRUB.st k) = 1 ∧ s.storeRuns k = true ∧ s.ecc = [] ∧ s.sto[k].pos = 0 ∧ s.sto[k].scrubAt = none ∧ s.sto[k].passAt = some t0 ∧ s.granuleWaits k (storeSpan k).1 = false) ∧
    (∃ s : State, ∃ k : Fin 10, s.get (Fld.STO_CFG_SCRUB.st k) = 1 ∧ s.storeRuns k = true ∧ s.sto[k].pos ≠ 0 ∧ s.granuleWaits k ((storeSpan k).1 + 64 * s.sto[k].pos) = true ∧ s.sto[k].scrubAt = none) :=
  ⟨
    ⟨(((fun (s : State) => ({ s with sto := s.sto.set (0 : Fin 10) { s.sto[(0 : Fin 10)] with pos := 5 } } : State)) ((fun (s : State) => ({ s with sto := (s.sto.set ((0 : Fin 10)) ({ s.sto[(0 : Fin 10)] with pos := 1 })) } : State)) ((fun (s : State) => ((if (0 : Fin 10).val < 8 then s.put (Fld.PWR_HSTATE_STATE.sub (0 : Fin 10)) 3 else s) : State)) (State.reset.put (Fld.STO_CFG_SCRUB.st (0 : Fin 10)) (1))))) : State), (0 : Fin 10), by decide +kernel⟩,
    ⟨(((fun (s : State) => ({ s with sto := s.sto.set (0 : Fin 10) { s.sto[(0 : Fin 10)] with pos := 0x1FFFF } } : State)) ((fun (s : State) => ({ s with sto := (s.sto.set ((0 : Fin 10)) ({ s.sto[(0 : Fin 10)] with pos := 1 })) } : State)) ((fun (s : State) => ((if (0 : Fin 10).val < 8 then s.put (Fld.PWR_HSTATE_STATE.sub (0 : Fin 10)) 3 else s) : State)) (State.reset.put (Fld.STO_CFG_SCRUB.st (0 : Fin 10)) (1))))) : State), (0 : Fin 10), by decide +kernel⟩,
    ⟨(((fun (s : State) => ((if (0 : Fin 10).val < 8 then s.put (Fld.PWR_HSTATE_STATE.sub (0 : Fin 10)) 3 else s) : State)) ((fun (s : State) => ({ s with sto := (s.sto.set ((0 : Fin 10)) ({ s.sto[(0 : Fin 10)] with cands := ((0 : Nat), (0 : Nat)) :: ([] : List (Nat × Nat)) })) } : State)) State.reset)) : State), (0 : Fin 10), (0 : Nat), (0 : Nat), (0 : Nat), ([] : List (Nat × Nat)), by decide +kernel⟩,
    ⟨(((fun (s : State) => ((List.range 8).foldl (fun (s : State) n => s.put ((Fld.STO_REPAIRn_VALID.i n).st (0 : Fin 10)) 1) s : State)) ((fun (s : State) => ((if (0 : Fin 10).val < 8 then s.put (Fld.PWR_HSTATE_STATE.sub (0 : Fin 10)) 3 else s) : State)) ((fun (s : State) => ({ s with sto := (s.sto.set ((0 : Fin 10)) ({ s.sto[(0 : Fin 10)] with cands := ((0 : Nat), (0 : Nat)) :: ([] : List (Nat × Nat)) })) } : State)) State.reset))) : State), (0 : Fin 10), (0 : Nat), (0 : Nat), ([] : List (Nat × Nat)), by decide +kernel⟩,
    ⟨(((fun (s : State) => ({ s with sto := (s.sto.set ((0 : Fin 10)) ({ s.sto[(0 : Fin 10)] with copy := some ({ (default : RowCopy) with bad := [] } : RowCopy) })) } : State)) State.reset) : State), (0 : Fin 10), ({ (default : RowCopy) with bad := [] } : RowCopy), by decide +kernel⟩,
    ⟨(State.reset : State), (⟨16, 2⟩ : Req), (8 : Fin 10), (0 : Fin 256), _, rfl, by decide +kernel⟩,
    ⟨(((fun (s : State) => ((if (0 : Fin 10).val < 8 then s.put (Fld.PWR_HSTATE_STATE.sub (0 : Fin 10)) 3 else s) : State)) State.reset) : State), (⟨0, 1⟩ : Req), (0 : Fin 10), (0 : Fin 256), by decide +kernel⟩,
    ⟨(((fun (s : State) => ((if (0 : Fin 10).val < 8 then s.put (Fld.PWR_HSTATE_STATE.sub (0 : Fin 10)) 3 else s) : State)) State.reset) : State), (⟨16, 2⟩ : Req), (0 : Fin 10), by decide +kernel⟩,
    ⟨(((fun (s : State) => ({ s with sto := (s.sto.set ((0 : Fin 10)) ({ s.sto[(0 : Fin 10)] with passAt := some (0 : Nat) })) } : State)) ((fun (s : State) => ({ s with sto := (s.sto.set ((0 : Fin 10)) ({ s.sto[(0 : Fin 10)] with pos := 0 })) } : State)) ((fun (s : State) => ((if (0 : Fin 10).val < 8 then s.put (Fld.PWR_HSTATE_STATE.sub (0 : Fin 10)) 3 else s) : State)) (State.reset.put (Fld.STO_CFG_SCRUB.st (0 : Fin 10)) (1))))) : State), (0 : Fin 10), (0 : Nat), by decide +kernel⟩,
    ⟨(((fun (s : State) => ({ s with sto := s.sto.set (0 : Fin 10) { s.sto[(0 : Fin 10)] with pos := 5, banks := (List.range 32).map fun b => (b, { waiting := [3] }) } } : State)) ((fun (s : State) => ({ s with sto := (s.sto.set ((0 : Fin 10)) ({ s.sto[(0 : Fin 10)] with pos := 1 })) } : State)) ((fun (s : State) => ((if (0 : Fin 10).val < 8 then s.put (Fld.PWR_HSTATE_STATE.sub (0 : Fin 10)) 3 else s) : State)) (State.reset.put (Fld.STO_CFG_SCRUB.st (0 : Fin 10)) (1))))) : State), (0 : Fin 10), by decide +kernel⟩⟩

theorem wit_Arbiter :
    (∃ s : State, ∃ r : Req, ∃ h : Fin 8, Takes s r (hamletBase h + Reg.ARB_CTRL) ∧ r.id = 16) ∧
    (∃ s : State, ∃ h : Fin 8, s.get (Fld.ARB_CTRL_FREEZE.h h) = 1) ∧
    (∃ s : State, ∃ h : Fin 8, s.get (Fld.ARB_CFG_FORCEFB.h h) = 1) ∧
    (∃ s : State, ∃ h : Fin 8, ∃ t0 : Nat, s.hpow[h].low = true ∧ s.get (Fld.ARB_CFG_FORCEFB.h h) = 0 ∧ 700000 < s.railUv h (max s.now t0) ∧ 700000 < s.railUv h (max s.now t0 - 10 * usU)) :=
  ⟨
    ⟨((State.reset.put (Fld.PWR_HSTATE_STATE.sub ((0 : Fin 8))) 3) : State), (⟨16, 2⟩ : Req), (0 : Fin 8), by decide +kernel⟩,
    ⟨((State.reset.put (Fld.ARB_CTRL_FREEZE.h (0 : Fin 8)) (1)) : State), (0 : Fin 8), by decide +kernel⟩,
    ⟨((State.reset.put (Fld.ARB_CFG_FORCEFB.h (0 : Fin 8)) (1)) : State), (0 : Fin 8), by decide +kernel⟩,
    ⟨(((fun (s : State) => ({ s with now := secU, hpow := s.hpow.set (0 : Fin 8) { s.hpow[(0 : Fin 8)] with rampMv := 800 } } : State)) ((((fun (s : State) => ({ s with hpow := (s.hpow.set ((0 : Fin 8)) ({ s.hpow[(0 : Fin 8)] with low := true })) } : State)) State.reset).put (Fld.PWR_HLDOh_VSET.i (0 : Fin 8)) 20).put (Fld.PWR_HSTATE_STATE.sub (0 : Fin 8)) 3)) : State), (0 : Fin 8), (secU : Nat), by decide +kernel⟩⟩

theorem wit_Locks :
    (∃ s : State, ∃ r : Req, ∃ h : Fin 8, ∃ n : Fin 32, s.check r (hamletBase h + Reg.LCK_n + 4 * n) 2 false = .ok ∧ s.get ((Fld.LCK_n_OWNER.i n).h h) = 0) ∧
    (∃ s : State, ∃ r : Req, ∃ h : Fin 8, ∃ n : Fin 32, s.check r (hamletBase h + Reg.LCK_n + 4 * n) 2 false = .ok ∧ s.get ((Fld.LCK_n_OWNER.i n).h h) ≠ 0) ∧
    (∃ s : State, ∃ r : Req, ∃ h : Fin 8, ∃ n : Fin 32, ∃ v : Word, Takes s r (hamletBase h + Reg.LCK_n + 4 * n) ∧ getBits Fld.LCK_n_RELEASE v = 1 ∧ s.get ((Fld.LCK_n_OWNER.i n).h h) = s.lockOwner r h) ∧
    (∃ s : State, ∃ r : Req, ∃ h : Fin 8, ∃ n : Fin 32, ∃ v : Word, Takes s r (hamletBase h + Reg.LCK_n + 4 * n) ∧ getBits Fld.LCK_n_RELEASE v = 1 ∧ s.get ((Fld.LCK_n_OWNER.i n).h h) ≠ s.lockOwner r h) ∧
    (∃ s : State, ∃ r : Req, ∃ h : Fin 8, ∃ n : Fin 32, Takes s r (hamletBase h + Reg.LCK_FREE) ∧ r.id = 16 ∧ s.get ((Fld.LCK_n_OWNER.i n).h h) ≠ 0) :=
  ⟨
    ⟨(((fun (s : State) => (s.put ((Fld.LCK_n_OWNER.i (0 : Fin 32)).h (0 : Fin 8)) (0) : State)) (State.reset.put (Fld.PWR_HSTATE_STATE.sub (0 : Fin 8)) 3)) : State), (⟨16, 2⟩ : Req), (0 : Fin 8), (0 : Fin 32), by decide +kernel⟩,
    ⟨(((fun (s : State) => (s.put ((Fld.LCK_n_OWNER.i (0 : Fin 32)).h (0 : Fin 8)) (1 - 0) : State)) (State.reset.put (Fld.PWR_HSTATE_STATE.sub (0 : Fin 8)) 3)) : State), (⟨16, 2⟩ : Req), (0 : Fin 8), (0 : Fin 32), by decide +kernel⟩,
    ⟨(((fun (s : State) => (s.put ((Fld.LCK_n_OWNER.i (0 : Fin 32)).h (0 : Fin 8)) (s.lockOwner (⟨16, 2⟩ : Req) (0 : Fin 8)) : State)) (State.reset.put (Fld.PWR_HSTATE_STATE.sub ((0 : Fin 8))) 3)) : State), (⟨16, 2⟩ : Req), (0 : Fin 8), (0 : Fin 32), ((setBits Fld.LCK_n_RELEASE (0 : Word) (1)) : Word), by decide +kernel⟩,
    ⟨(((fun (s : State) => (s.put ((Fld.LCK_n_OWNER.i (0 : Fin 32)).h (0 : Fin 8)) (1 - s.lockOwner (⟨16, 2⟩ : Req) (0 : Fin 8)) : State)) (State.reset.put (Fld.PWR_HSTATE_STATE.sub ((0 : Fin 8))) 3)) : State), (⟨16, 2⟩ : Req), (0 : Fin 8), (0 : Fin 32), ((setBits Fld.LCK_n_RELEASE (0 : Word) (1)) : Word), by decide +kernel⟩,
    ⟨(((fun (s : State) => (s.put ((Fld.LCK_n_OWNER.i (0 : Fin 32)).h (0 : Fin 8)) (1 - 0) : State)) (State.reset.put (Fld.PWR_HSTATE_STATE.sub ((0 : Fin 8))) 3)) : State), (⟨16, 2⟩ : Req), (0 : Fin 8), (0 : Fin 32), by decide +kernel⟩⟩

theorem wit_ReferenceClocks :
    (∃ s : State, s.get Fld.CLK_REF_PRESENT = 1) ∧
    (∃ s : State, s.get Fld.CLK_REF_PRESENT = 0 ∧ s.pow.refOff = false) ∧
    (∃ s : State, ∃ r : Req, ∃ n : Fin 4, ∃ v : Word, ∃ u, u = (s.ok.storeReg r (Reg.CLK_OUTn_CFG + 16 * n) v) ∧ Takes s r (Reg.CLK_OUTn_CFG + 16 * n) ∧ clkOutAllowed (u.rd (Reg.CLK_OUTn_CFG + 16 * n)) (u.rd (Reg.CLK_OUTn_DIV + 16 * n)) = true) ∧
    (∃ s : State, ∃ r : Req, ∃ n : Fin 4, ∃ v : Word, ∃ u, u = (s.ok.storeReg r (Reg.CLK_OUTn_CFG + 16 * n) v) ∧ Takes s r (Reg.CLK_OUTn_CFG + 16 * n) ∧ clkOutAllowed (u.rd (Reg.CLK_OUTn_CFG + 16 * n)) (u.rd (Reg.CLK_OUTn_DIV + 16 * n)) = false) ∧
    (∃ s : State, ∃ n : Fin 4, ∃ d : Nat, s.clkOut[n].restart = some d) ∧
    (∃ s : State, s.get Fld.STL_STAT_STATE = 5 ∧ s.get Fld.STL_STAT_LATCHED = 0 ∧ s.bel.answer = none) ∧
    (∃ s : State, s.bel.answer ≠ none ∧ s.pow.down ≠ 0) :=
  ⟨
    ⟨((State.reset.put Fld.CLK_REF_PRESENT (1)) : State), by decide +kernel⟩,
    ⟨(State.reset : State), by decide +kernel⟩,
    ⟨(State.reset : State), (⟨16, 2⟩ : Req), (0 : Fin 4), (0 : Word), _, rfl, by decide +kernel⟩,
    ⟨((State.reset.put (Fld.CLK_OUTn_DIV_DIVI.i (0 : Fin 4)) 1) : State), (⟨16, 2⟩ : Req), (0 : Fin 4), (0xFFFFFFFF : Word), _, rfl, by decide +kernel⟩,
    ⟨(((fun (s : State) => ({ s with clkOut := (s.clkOut.set ((0 : Fin 4)) ({ s.clkOut[(0 : Fin 4)] with restart := some (0 : Nat) })) } : State)) State.reset) : State), (0 : Fin 4), (0 : Nat), by decide +kernel⟩,
    ⟨((State.reset.put Fld.STL_STAT_STATE (5)) : State), by decide +kernel⟩,
    ⟨(((fun (s : State) => ({ s with bel := { s.bel with answer := some 5 }, pow := { s.pow with down := 1 } } : State)) ((fun (s : State) => ({ s with pow := { s.pow with down := 1 } } : State)) State.reset)) : State), by decide +kernel⟩⟩

theorem wit_ConverterPlls :
    (∃ s : State, ∃ r : Req, ∃ h : Fin 8, ∃ v : Word, ∃ n : Nat, Takes s r (hamletBase h + Reg.PLL_CTRL) ∧ v.getLsbD 31 = true ∧ getBits Fld.PLL_CTRL_EN v = 1 ∧ s.pll[h].forced = false ∧ s.get (Fld.PLL_STAT_LOCK.h h) = 0 ∧ s.get (Fld.PLL_FORCE_EN.h h) = 0 ∧ s.nearestBand h (bandIndex (signed 12 (s.get (Fld.THM_SENSn_EFF.i (10 * h.val + 8))))) = some n) ∧
    (∃ s : State, ∃ r : Req, ∃ h : Fin 8, ∃ v : Word, Takes s r (hamletBase h + Reg.PLL_CTRL) ∧ v.getLsbD 31 = false ∧ getBits Fld.PLL_CTRL_EN v = 0 ∧ s.get (Fld.PLL_CTRL_EN.h h) = 1) ∧
    (∃ s : State, ∃ h : Fin 8, ∃ d : Nat, s.pll[h].acqDue = some d ∧ s.pow.refOff = false) ∧
    (∃ s : State, ∃ h : Fin 8, ∃ d : Nat, ∃ n : Nat, s.pll[h].acqDue = some d ∧ s.pll[h].tries < 2 ∧ s.get (Fld.PLL_FORCE_EN.h h) = 0 ∧ s.nearestBand h (bandIndex (signed 12 (s.get (Fld.THM_SENSn_EFF.i (10 * h.val + 8))))) = some n) ∧
    (∃ s : State, ∃ h : Fin 8, ∃ d : Nat, s.pll[h].acqDue = some d ∧ 2 ≤ s.pll[h].tries) ∧
    (∃ s : State, ∃ h : Fin 8, s.get (Fld.PLL_STAT_LOCK.h h) = 1) ∧
    (∃ s : State, ∃ h : Fin 8, s.get (Fld.PLL_STAT_LOCK.h h) = 1) ∧
    (∃ s : State, ∃ h : Fin 8, ∃ mv : Nat, (s.get (Fld.PLL_STAT_LOCK.h h) = 0 ∨ (150 ≤ mv ∧ mv ≤ 850))) ∧
    (∃ s : State, ∃ h : Fin 8, ∃ mv : Nat, s.get (Fld.PLL_STAT_LOCK.h h) = 1 ∧ (mv < 150 ∨ 850 < mv)) ∧
    (∃ s : State, ∃ h : Fin 8, ∃ d : Nat, s.pll[h].alignDue = some d) :=
  ⟨
    ⟨(((fun (s : State) => (s.put ((Fld.PLL_BANDn_VALID.i 5).h (0 : Fin 8)) 1 : State)) (State.reset.put (Fld.PWR_HSTATE_STATE.sub ((0 : Fin 8))) 3)) : State), (⟨16, 2⟩ : Req), (0 : Fin 8), ((setBits Fld.PLL_CTRL_EN ((0 : Word) ||| (1#32 <<< 31)) (1)) : Word), (5 : Nat), by decide +kernel⟩,
    ⟨(((State.reset.put (Fld.PWR_HSTATE_STATE.sub ((0 : Fin 8))) 3).put (Fld.PLL_CTRL_EN.h (0 : Fin 8)) (1)) : State), (⟨16, 2⟩ : Req), (0 : Fin 8), ((setBits Fld.PLL_CTRL_EN (0 : Word) (0)) : Word), by decide +kernel⟩,
    ⟨(((fun (s : State) => ({ s with pll := (s.pll.set ((0 : Fin 8)) ({ s.pll[(0 : Fin 8)] with acqDue := some (0 : Nat) })) } : State)) State.reset) : State), (0 : Fin 8), (0 : Nat), by decide +kernel⟩,
    ⟨(((fun (s : State) => (s.put ((Fld.PLL_BANDn_VALID.i 5).h (0 : Fin 8)) 1 : State)) ((fun (s : State) => ({ s with pll := (s.pll.set ((0 : Fin 8)) ({ s.pll[(0 : Fin 8)] with acqDue := some (0 : Nat) })) } : State)) State.reset)) : State), (0 : Fin 8), (0 : Nat), (5 : Nat), by decide +kernel⟩,
    ⟨(((fun (s : State) => ({ s with pll := (s.pll.set ((0 : Fin 8)) ({ s.pll[(0 : Fin 8)] with tries := 2 })) } : State)) ((fun (s : State) => ({ s with pll := (s.pll.set ((0 : Fin 8)) ({ s.pll[(0 : Fin 8)] with acqDue := some (0 : Nat) })) } : State)) State.reset)) : State), (0 : Fin 8), (0 : Nat), by decide +kernel⟩,
    ⟨((State.reset.put (Fld.PLL_STAT_LOCK.h (0 : Fin 8)) (1)) : State), (0 : Fin 8), by decide +kernel⟩,
    ⟨((State.reset.put (Fld.PLL_STAT_LOCK.h (0 : Fin 8)) (1)) : State), (0 : Fin 8), by decide +kernel⟩,
    ⟨(State.reset : State), (0 : Fin 8), (0 : Nat), by decide +kernel⟩,
    ⟨((State.reset.put (Fld.PLL_STAT_LOCK.h (0 : Fin 8)) (1)) : State), (0 : Fin 8), (0 : Nat), by decide +kernel⟩,
    ⟨(((fun (s : State) => ({ s with pll := (s.pll.set ((0 : Fin 8)) ({ s.pll[(0 : Fin 8)] with alignDue := some (0 : Nat) })) } : State)) State.reset) : State), (0 : Fin 8), (0 : Nat), by decide +kernel⟩⟩

theorem wit_BiasCodes :
    (∃ s : State, ∃ r : Req, ∃ c : Fin 32, Takes s r (Reg.BDA_CHc_CODE + 32 * c) ∧ s.get Fld.BDA_CTRL_CLRPIN = 0 ∧ 2 ≤ s.hstate (c / 4) ∧ s.get (Fld.BDA_CHc_STAT_OWNER.i c) = 0 ∧ s.get (Fld.BDA_CHc_STAT_SINEWAIT.i c) = 0 ∧ s.bias[c].sine = none ∧ s.calOnBias c = false ∧ s.get (Fld.BDA_CHc_CFG_SLEN.i c) = 0) ∧
    (∃ s : State, ∃ r : Req, ∃ c : Fin 32, ∃ v : Word, ∃ n, n = (getBits Fld.BDA_CHc_CODE_CODE v) ∧ Takes s r (Reg.BDA_CHc_CODE + 32 * c) ∧ s.get Fld.BDA_CTRL_CLRPIN = 0 ∧ 2 ≤ s.hstate (c / 4) ∧ s.get (Fld.BDA_CHc_STAT_OWNER.i c) = 0 ∧ s.get (Fld.BDA_CHc_STAT_SINEWAIT.i c) = 0 ∧ s.bias[c].sine = none ∧ s.calOnBias c = false ∧ s.get (Fld.BDA_CHc_CFG_SLEN.i c) = 1 ∧ s.get (Fld.BDA_CHc_STAT_OUT.i c) ≠ n) ∧
    (∃ s : State, ∃ r : Req, ∃ c : Fin 32, Takes s r (Reg.BDA_CHc_CODE + 32 * c) ∧ s.get Fld.BDA_CTRL_CLRPIN = 1 ∧ s.get (Fld.BDA_CHc_STAT_SINEWAIT.i c) = 0) ∧
    (∃ s : State, ∃ r : Req, ∃ c : Fin 32, Takes s r (Reg.BDA_CHc_CFG + 32 * c) ∧ s.get (Fld.BDA_CHc_STAT_SINEWAIT.i c) = 0 ∧ s.bias[c].sine = none ∧ s.calOnBias c = false ∧ s.get (Fld.BDA_CHc_STAT_OUT.i c) = s.get (Fld.BDA_CHc_CLR_CODE.i c) ∧ s.get (Fld.BDA_CHc_STAT_OWNER.i c) = 0) ∧
    (∃ s : State, ∃ r : Req, ∃ c : Fin 32, ∃ v : Word, Takes s r (Reg.BDA_CHc_CFG + 32 * c) ∧ s.get (Fld.BDA_CHc_STAT_SINEWAIT.i c) = 0 ∧ s.bias[c].sine = none ∧ s.get (Fld.BDA_CHc_STAT_OUT.i c) ≠ s.get (Fld.BDA_CHc_CLR_CODE.i c) ∧ getBits Fld.BDA_CHc_CFG_MODE v ≠ s.get (Fld.BDA_CHc_CFG_MODE.i c)) ∧
    (∃ s : State, ∃ c : Fin 32, ∃ t0 : Nat, ∃ out, out = (s.get (Fld.BDA_CHc_STAT_OUT.i c)) ∧ ∃ n, n = (s.get (Fld.BDA_CHc_CFG_STEPM1.i c) + 1) ∧ ∃ next, next = (if out < s.bias[c].goal then min s.bias[c].goal (out + n) else max s.bias[c].goal (out - n)) ∧ s.bias[c].step = some t0 ∧ s.get (Fld.BDA_CHc_STAT_SINEWAIT.i c) = 0 ∧ s.bias[c].start = false ∧ s.bias[c].goal < 2 ^ 14 ∧ next ≠ s.bias[c].goal) ∧
    (∃ s : State, ∃ c : Fin 32, ∃ t0 : Nat, ∃ out, out = (s.get (Fld.BDA_CHc_STAT_OUT.i c)) ∧ ∃ n, n = (s.get (Fld.BDA_CHc_CFG_STEPM1.i c) + 1) ∧ ∃ next, next = (if out < s.bias[c].goal then min s.bias[c].goal (out + n) else max s.bias[c].goal (out - n)) ∧ s.bias[c].step = some t0 ∧ s.get (Fld.BDA_CHc_STAT_SINEWAIT.i c) = 0 ∧ s.bias[c].start = false ∧ s.bias[c].goal < 2 ^ 14 ∧ next = s.bias[c].goal) :=
  ⟨
    ⟨((State.reset.put (Fld.PWR_HSTATE_STATE.sub (((0 : Fin 32) / 4))) 3) : State), (⟨16, 2⟩ : Req), (0 : Fin 32), by decide +kernel⟩,
    ⟨((((State.reset.put (Fld.PWR_HSTATE_STATE.sub (((0 : Fin 32) / 4))) 3).put (Fld.BDA_CHc_CFG_SLEN.i (0 : Fin 32)) (1)).put (Fld.BDA_CHc_STAT_OUT.i (0 : Fin 32)) (1 - (getBits Fld.BDA_CHc_CODE_CODE (0 : Word)))) : State), (⟨16, 2⟩ : Req), (0 : Fin 32), (0 : Word), _, rfl, by decide +kernel⟩,
    ⟨((State.reset.put Fld.BDA_CTRL_CLRPIN (1)) : State), (⟨16, 2⟩ : Req), (0 : Fin 32), by decide +kernel⟩,
    ⟨(((fun (s : State) => (s.put (Fld.BDA_CHc_STAT_OUT.i (0 : Fin 32)) (s.get (Fld.BDA_CHc_CLR_CODE.i (0 : Fin 32))) : State)) State.reset) : State), (⟨16, 2⟩ : Req), (0 : Fin 32), by decide +kernel⟩,
    ⟨((State.reset.put (Fld.BDA_CHc_STAT_OUT.i (0 : Fin 32)) 5) : State), (⟨16, 2⟩ : Req), (0 : Fin 32), (setBits Fld.BDA_CHc_CFG_MODE 0 1 : Word), by decide +kernel⟩,
    ⟨(((fun (s : State) => ({ s with bias := s.bias.set (0 : Fin 32) { s.bias[(0 : Fin 32)] with goal := 100 } } : State)) ((fun (s : State) => ({ s with bias := (s.bias.set ((0 : Fin 32)) ({ s.bias[(0 : Fin 32)] with step := some (0 : Nat) })) } : State)) State.reset)) : State), (0 : Fin 32), (0 : Nat), _, rfl, _, rfl, _, rfl, by decide +kernel⟩,
    ⟨(((fun (s : State) => ({ s with bias := (s.bias.set ((0 : Fin 32)) ({ s.bias[(0 : Fin 32)] with step := some (0 : Nat) })) } : State)) State.reset) : State), (0 : Fin 32), (0 : Nat), _, rfl, _, rfl, _, rfl, by decide +kernel⟩⟩

theorem wit_BiasSine :
    (∃ s : State, ∃ r : Req, ∃ c : Fin 32, Takes s r (Reg.BDA_CHc_SINE + 32 * c) ∧ s.get Fld.BDA_CTRL_CLRPIN = 0 ∧ 2 ≤ s.hstate (c / 4) ∧ s.get (Fld.BDA_CHc_STAT_OWNER.i c) = 0 ∧ s.get (Fld.BDA_CHc_STAT_SINEWAIT.i c) = 0 ∧ s.bias[c].sine = none ∧ s.calOnBias c = false ∧ s.get (Fld.BDA_CHc_SINE_EN.i c) = 0 ∧ s.get (Fld.BDA_CHc_CFG_SLEN.i c) = 0 ∧ s.get (Fld.BDA_CHc_STAT_CLRD.i c) = 0) ∧
    (∃ s : State, ∃ c : Fin 32, ∃ t0 : Nat, s.get (Fld.BDA_CHc_STAT_SINEWAIT.i c) = 1 ∧ s.bias[c].start = true ∧ s.get (Fld.BDA_CHc_STAT_OUT.i c) = s.bias[c].goal ∧ s.bias[c].step = some t0) ∧
    (∃ s : State, ∃ r : Req, ∃ c : Fin 32, Takes s r (Reg.BDA_CHc_SINE + 32 * c) ∧ s.get Fld.BDA_CTRL_CLRPIN = 0 ∧ 2 ≤ s.hstate (c / 4) ∧ s.calOnBias c = false ∧ s.get (Fld.BDA_CHc_SINE_EN.i c) = 1 ∧ s.sineArrived c = none ∧ s.bias[c].sine ≠ none) ∧
    (∃ s : State, ∃ r : Req, ∃ c : Fin 32, Takes s r (Reg.BDA_CHc_SINE + 32 * c) ∧ s.get Fld.BDA_CTRL_CLRPIN = 0 ∧ 2 ≤ s.hstate (c / 4) ∧ s.calOnBias c = false ∧ s.get (Fld.BDA_CHc_SINE_EN.i c) = 1 ∧ s.sineArrived c = none ∧ s.bias[c].sine = none) ∧
    (∃ s : State, ∃ c : Fin 32, ∃ x : Sine, ∃ t0 : Nat, s.bias[c].sine = some x ∧ x.stop = some t0) ∧
    (∃ s : State, ∃ r : Req, ∃ v : Word, ∃ c : Fin 32, c = (Fin.ofNat 32 (getBits Fld.TIM_VCXO_CH v)) ∧ Takes s r Reg.TIM_VCXO ∧ v.getLsbD 31 = true ∧ ((s.get Fld.TLY_CFG_EN = 0 ∨ s.get Fld.TLY_STAT_HEAD = 1)) ∧ s.get Fld.TIM_VCXO_EN = 0 ∧ s.get (Fld.BDA_CHc_STAT_OWNER.i c) = 0 ∧ s.get (Fld.BDA_CHc_STAT_SINEWAIT.i c) = 0) ∧
    (∃ s : State, ∃ r : Req, ∃ v : Word, Takes s r Reg.TIM_VCXO ∧ v.getLsbD 31 = true ∧ s.get Fld.TLY_CFG_EN = 1 ∧ s.get Fld.TLY_STAT_HEAD = 0) ∧
    (∃ s : State, ∃ r : Req, ∃ c : Fin 32, Takes s r (Reg.BDA_CHc_SINE + 32 * c) ∧ s.get Fld.BDA_CTRL_CLRPIN = 0 ∧ 2 ≤ s.hstate (c / 4) ∧ s.get (Fld.BDA_CHc_STAT_OWNER.i c) = 0 ∧ s.get (Fld.BDA_CHc_STAT_SINEWAIT.i c) = 0 ∧ s.bias[c].sine = none ∧ s.calOnBias c = false ∧ s.get (Fld.BDA_CHc_SINE_EN.i c) = 0 ∧ s.get (Fld.BDA_CHc_STAT_CLRD.i c) = 1) :=
  ⟨
    ⟨(((State.reset.put (Fld.PWR_HSTATE_STATE.sub (((0 : Fin 32) / 4))) 3).put (Fld.BDA_CHc_STAT_CLRD.i (0 : Fin 32)) (0)) : State), (⟨16, 2⟩ : Req), (0 : Fin 32), by decide +kernel⟩,
    ⟨(((fun (s : State) => ({ s with bias := (s.bias.set ((0 : Fin 32)) ({ s.bias[(0 : Fin 32)] with step := some (0 : Nat) })) } : State)) ((fun (s : State) => (s.put (Fld.BDA_CHc_STAT_OUT.i (0 : Fin 32)) (s.bias[(0 : Fin 32)].goal) : State)) ((fun (s : State) => ({ s with bias := (s.bias.set ((0 : Fin 32)) ({ s.bias[(0 : Fin 32)] with start := true })) } : State)) (State.reset.put (Fld.BDA_CHc_STAT_SINEWAIT.i (0 : Fin 32)) (1))))) : State), (0 : Fin 32), (0 : Nat), by decide +kernel⟩,
    ⟨(((fun (s : State) => ({ s with bias := s.bias.set (0 : Fin 32) { s.bias[(0 : Fin 32)] with sine := some default } } : State)) ((State.reset.put (Fld.PWR_HSTATE_STATE.sub (((0 : Fin 32) / 4))) 3).put (Fld.BDA_CHc_SINE_EN.i (0 : Fin 32)) (1))) : State), (⟨16, 2⟩ : Req), (0 : Fin 32), by decide +kernel⟩,
    ⟨(((State.reset.put (Fld.PWR_HSTATE_STATE.sub (((0 : Fin 32) / 4))) 3).put (Fld.BDA_CHc_SINE_EN.i (0 : Fin 32)) (1)) : State), (⟨16, 2⟩ : Req), (0 : Fin 32), by decide +kernel⟩,
    ⟨(((fun (s : State) => ({ s with bias := (s.bias.set ((0 : Fin 32)) ({ s.bias[(0 : Fin 32)] with sine := some ({ (default : Sine) with stop := some (0 : Nat) } : Sine) })) } : State)) State.reset) : State), (0 : Fin 32), ({ (default : Sine) with stop := some (0 : Nat) } : Sine), (0 : Nat), by decide +kernel⟩,
    ⟨(State.reset : State), (⟨16, 2⟩ : Req), (((0 : Word) ||| (1#32 <<< 31)) : Word), _, rfl, by decide +kernel⟩,
    ⟨(((State.reset.put Fld.TLY_CFG_EN (1)).put Fld.TLY_STAT_HEAD (0)) : State), (⟨16, 2⟩ : Req), (((0 : Word) ||| (1#32 <<< 31)) : Word), by decide +kernel⟩,
    ⟨(((State.reset.put (Fld.PWR_HSTATE_STATE.sub (((0 : Fin 32) / 4))) 3).put (Fld.BDA_CHc_STAT_CLRD.i (0 : Fin 32)) (1)) : State), (⟨16, 2⟩ : Req), (0 : Fin 32), by decide +kernel⟩⟩

theorem wit_HamletDomains :
    (∃ s : State, ∃ r : Req, ∃ h : Fin 8, ∃ v : Word, Takes s r (Reg.PWR_HLDOh + 4 * h) ∧ 5 ≤ getBits Fld.PWR_HLDOh_VSET v ∧ getBits Fld.PWR_HLDOh_VSET v ≤ 20) ∧
    (∃ s : State, ∃ r : Req, ∃ h : Fin 8, ∃ v : Word, Takes s r (Reg.PWR_HLDOh + 4 * h) ∧ (getBits Fld.PWR_HLDOh_VSET v < 5 ∨ 20 < getBits Fld.PWR_HLDOh_VSET v)) ∧
    (∃ s : State, ∃ r : Req, ∃ h : Fin 8, Takes s r Reg.PWR_HCTRL ∧ ((s.eng[hEng h].state = 0 ∨ s.eng[hEng h].state = 3)) ∧ s.htgt h ≠ 0 ∧ 2 ≤ s.hstate h ∧ s.get (Fld.PWR_HSTATE_BUSY.sub h) = 0 ∧ s.hamletVote h (s.htgt h == 2) = none) ∧
    (∃ s : State, ∃ r : Req, ∃ h : Fin 8, ∃ id : Nat, Takes s r Reg.PWR_HCTRL ∧ ((s.eng[hEng h].state = 0 ∨ s.eng[hEng h].state = 3)) ∧ s.htgt h ≠ 0 ∧ 2 ≤ s.hstate h ∧ s.get (Fld.PWR_HSTATE_BUSY.sub h) = 0 ∧ s.hamletVote h (s.htgt h == 2) = some id ∧ id ≠ 9) ∧
    (∃ s : State, ∃ r : Req, ∃ h : Fin 8, Takes s r Reg.PWR_HCTRL ∧ s.hstate h < 2 ∧ s.hpow[h].entry = none ∧ s.hpow[h].wakeAt = none ∧ s.get (Fld.PWR_HSTATE_WFAIL.sub h) = 0 ∧ s.get Fld.THM_STAT_SDLATCH = 0) ∧
    (∃ s : State, ∃ h : Fin 8, ∃ e : Entry, s.hpow[h].entry = some e ∧ e.held = false ∧ e.target = 1) ∧
    (∃ s : State, ∃ h : Fin 8, ∃ e : Entry, s.hpow[h].entry = some e ∧ e.held = false ∧ e.target ≠ 1) ∧
    (∃ s : State, ∃ h : Fin 8, ∃ w : Nat, s.hpow[h].wakeAt = some w) :=
  ⟨
    ⟨(State.reset : State), (⟨16, 2⟩ : Req), (0 : Fin 8), ((setBits Fld.PWR_HLDOh_VSET (0 : Word) (5)) : Word), by decide +kernel⟩,
    ⟨(State.reset : State), (⟨16, 2⟩ : Req), (0 : Fin 8), (0 : Word), by decide +kernel⟩,
    ⟨(((State.reset.put (Fld.PWR_MODE_HTGT.sub (0 : Fin 8)) 1).put (Fld.PWR_HSTATE_STATE.sub ((0 : Fin 8))) 3) : State), (⟨16, 2⟩ : Req), (0 : Fin 8), by decide +kernel⟩,
    ⟨((((State.reset.put (Fld.PWR_MODE_HTGT.sub (0 : Fin 8)) 1).put (Fld.PWR_HSTATE_STATE.sub ((0 : Fin 8))) 3).put (Fld.SLT_CTRL_ENABLE.h (0 : Fin 8)) 1) : State), (⟨16, 2⟩ : Req), (0 : Fin 8), (1 : Nat), by decide +kernel⟩,
    ⟨(State.reset : State), (⟨16, 2⟩ : Req), (0 : Fin 8), by decide +kernel⟩,
    ⟨(((fun (s : State) => ({ s with hpow := (s.hpow.set ((0 : Fin 8)) ({ s.hpow[(0 : Fin 8)] with entry := some ({ (default : Entry) with held := false, target := 1 } : Entry) })) } : State)) State.reset) : State), (0 : Fin 8), ({ (default : Entry) with held := false, target := 1 } : Entry), by decide +kernel⟩,
    ⟨(((fun (s : State) => ({ s with hpow := (s.hpow.set ((0 : Fin 8)) ({ s.hpow[(0 : Fin 8)] with entry := some ({ (default : Entry) with target := 2 } : Entry) })) } : State)) State.reset) : State), (0 : Fin 8), ({ (default : Entry) with target := 2 } : Entry), by decide +kernel⟩,
    ⟨(((fun (s : State) => ({ s with hpow := (s.hpow.set ((0 : Fin 8)) ({ s.hpow[(0 : Fin 8)] with wakeAt := some (0 : Nat) })) } : State)) State.reset) : State), (0 : Fin 8), (0 : Nat), by decide +kernel⟩⟩

theorem wit_Calendar :
    (∃ s : State, s.calen.runs = false) ∧
    (∃ s : State, s.calen.runs = true) ∧
    (∃ s : State, ∃ r : Req, ∃ v : Word, Takes s r Reg.HTH_CAL_CTRL ∧ v.getLsbD 0 = true ∧ s.get Fld.TIM_STAT_STEPPED = 1) ∧
    (∃ s : State, ∃ r : Req, ∃ v : Word, Takes s r Reg.HTH_CAL_CTRL ∧ v.getLsbD 0 = true ∧ s.get Fld.TIM_STAT_STEPPED = 0) ∧
    (∃ s : State, ∃ d : Nat, s.calen.syncAt = some d) ∧
    (∃ s : State, (s.pow.down = 0 ∨ s.pow.hearth = false)) ∧
    (∃ s : State, s.pow.down ≠ 0 ∧ s.pow.hearth = true) ∧
    (∃ s : State, ∃ t0 : Nat, s.pow.down ≠ 0 ∧ s.get Fld.HTH_WAKECFG_ALARM_EN = 1 ∧ s.get Fld.HTH_CAL_CTRL_VALID = 1 ∧ (s.at t0).calSec % 2 ^ 32 = s.get Fld.HTH_ALARM_SEC ∧ max s.now t0 < s.pow.outAt + 10 * msU) ∧
    (∃ s : State, ∃ t0 : Nat, s.pow.down ≠ 0 ∧ s.get Fld.HTH_WAKECFG_ALARM_EN = 1 ∧ s.get Fld.HTH_CAL_CTRL_VALID = 1 ∧ (s.at t0).calSec % 2 ^ 32 = s.get Fld.HTH_ALARM_SEC ∧ s.pow.outAt + 10 * msU ≤ max s.now t0) ∧
    (∃ s : State, s.pow.held = true) :=
  ⟨
    ⟨(((fun (s : State) => ({ s with calen := { s.calen with runs := false } } : State)) State.reset) : State), by decide +kernel⟩,
    ⟨(State.reset : State), by decide +kernel⟩,
    ⟨((State.reset.put Fld.TIM_STAT_STEPPED (1)) : State), (⟨16, 2⟩ : Req), (((0 : Word) ||| (1#32 <<< 0)) : Word), by decide +kernel⟩,
    ⟨(State.reset : State), (⟨16, 2⟩ : Req), (((0 : Word) ||| (1#32 <<< 0)) : Word), by decide +kernel⟩,
    ⟨(((fun (s : State) => ({ s with calen := { s.calen with syncAt := some (0 : Nat) } } : State)) State.reset) : State), (0 : Nat), by decide +kernel⟩,
    ⟨(State.reset : State), by decide +kernel⟩,
    ⟨(((fun (s : State) => ({ s with pow := { s.pow with hearth := true } } : State)) ((fun (s : State) => ({ s with pow := { s.pow with down := 1 } } : State)) State.reset)) : State), by decide +kernel⟩,
    ⟨(((((fun (s : State) => ({ s with pow := { s.pow with down := 1 } } : State)) State.reset).put Fld.HTH_WAKECFG_ALARM_EN (1)).put Fld.HTH_CAL_CTRL_VALID (1)) : State), (0 : Nat), by decide +kernel⟩,
    ⟨(((fun (s : State) => (s.put Fld.HTH_ALARM_SEC (id ((s.at secU).calSec % 2 ^ 32) : Nat) : State)) ((fun (s : State) => ({ s with calen := { s.calen with runs := false } } : State)) ((((fun (s : State) => ({ s with pow := { s.pow with down := 1 } } : State)) State.reset).put Fld.HTH_WAKECFG_ALARM_EN (1)).put Fld.HTH_CAL_CTRL_VALID (1)))) : State), (secU : Nat), by decide +kernel⟩,
    ⟨(((fun (s : State) => ({ s with pow := { s.pow with held := true } } : State)) State.reset) : State), by decide +kernel⟩⟩

theorem wit_ThermalActions :
    (∃ s : State, ∃ x : Nat × Nat, ∃ l : List (Nat × Nat), s.thm.shedDue = x :: l) ∧
    (∃ s : State, ∃ h : Fin 8, ∃ x : Rot, s.thm.rot[h] = some x) ∧
    (∃ s : State, ∃ t0 : Nat, s.thm.stopAt = some t0 ∧ s.thm.steps = 0) ∧
    (∃ s : State, ∃ t0 : Nat, s.thm.stopAt = some t0 ∧ s.thm.steps ≠ 0) ∧
    (∃ s : State, s.thm.stopAt ≠ none ∧ ((∀ h : Fin 8, s.hstate h = 0))) ∧
    (∃ s : State, (s.thm.hard = true ∨ s.thm.stopAt ≠ none)) ∧
    (∃ s : State, ∃ r : Req, Takes s r Reg.THM_CTRL ∧ ((∀ z : Fin 9, s.thm.zone[z].on[2] = false))) ∧
    (∃ s : State, ∃ r : Req, Takes s r Reg.THM_CTRL ∧ ((∃ z : Fin 9, s.thm.zone[z].on[2] = true))) ∧
    (∃ s : State, ∃ r : Req, Takes s r Reg.THM_CTRL) :=
  ⟨
    ⟨(((fun (s : State) => ({ s with thm := { s.thm with shedDue := (default : Nat × Nat) :: ([] : List (Nat × Nat)) } } : State)) State.reset) : State), (default : Nat × Nat), ([] : List (Nat × Nat)), by decide +kernel⟩,
    ⟨(((fun (s : State) => ({ s with thm := { s.thm with rot := (s.thm.rot.set ((0 : Fin 8)) (some (default : Rot))) } } : State)) State.reset) : State), (0 : Fin 8), (default : Rot), by decide +kernel⟩,
    ⟨(((fun (s : State) => ({ s with thm := { s.thm with stopAt := some (0 : Nat) } } : State)) State.reset) : State), (0 : Nat), by decide +kernel⟩,
    ⟨(((fun (s : State) => ({ s with thm := { s.thm with steps := 1 } } : State)) ((fun (s : State) => ({ s with thm := { s.thm with stopAt := some (0 : Nat) } } : State)) State.reset)) : State), (0 : Nat), by decide +kernel⟩,
    ⟨(((fun (s : State) => ({ s with thm := { s.thm with stopAt := some 0 } } : State)) State.reset) : State), by decide +kernel⟩,
    ⟨(((fun (s : State) => ({ s with thm := { s.thm with hard := true } } : State)) State.reset) : State), by decide +kernel⟩,
    ⟨(State.reset : State), (⟨16, 2⟩ : Req), by decide +kernel⟩,
    ⟨(((fun (s : State) => ({ s with thm := { s.thm with zone := s.thm.zone.set 0 { s.thm.zone[0] with on := s.thm.zone[0].on.set 2 true } } } : State)) State.reset) : State), (⟨16, 2⟩ : Req), by decide +kernel⟩,
    ⟨(State.reset : State), (⟨16, 2⟩ : Req), by decide +kernel⟩⟩

theorem wit_HousekeepingRounds :
    (∃ s : State, s.running = true ∧ (s.hk.inRound = true ∨ s.hk.waiting = true)) ∧
    (∃ s : State, s.running = true ∧ s.hk.inRound = false ∧ s.hk.waiting = false ∧ s.hk.conv ≠ none) ∧
    (∃ s : State, s.running = true ∧ s.hk.inRound = false ∧ s.hk.waiting = false ∧ s.hk.conv = none) ∧
    (∃ s : State, ∃ c : HkConv, s.hk.conv = some c ∧ c.wait = false ∧ c.unav = false ∧ c.fixed = true ∧ 0x40 ≤ c.ch ∧ s.hk.waiting = false) ∧
    (∃ s : State, s.hk.inRound = true ∧ s.hk.conv = none ∧ s.hk.round = []) ∧
    (∃ s : State, s.hk.recov = true ∧ s.hk.conv = none) ∧
    (∃ s : State, s.hk.extAt ≠ none) ∧
    (∃ s : State, ∃ c : HkConv, s.hk.conv = some c ∧ c.wait = true ∧ c.n < 32) ∧
    (∃ s : State, ∃ a : Nat, s.hk.extAt = some a ∧ s.hk.conv = none) :=
  ⟨
    ⟨(((fun (s : State) => ({ s with hk := { s.hk with inRound := true } } : State)) ((fun (s : State) => ({ s with pow := { s.pow with step := 0, down := 0 } } : State)) State.reset)) : State), by decide +kernel⟩,
    ⟨(((fun (s : State) => ({ s with hk := { s.hk with conv := some default } } : State)) ((fun (s : State) => ({ s with pow := { s.pow with step := 0, down := 0 } } : State)) State.reset)) : State), by decide +kernel⟩,
    ⟨(((fun (s : State) => ({ s with pow := { s.pow with step := 0, down := 0 } } : State)) State.reset) : State), by decide +kernel⟩,
    ⟨(((fun (s : State) => ({ s with hk := { s.hk with conv := some ({ (default : HkConv) with wait := false, unav := false, fixed := true, ch := 0x40 } : HkConv) } } : State)) State.reset) : State), ({ (default : HkConv) with wait := false, unav := false, fixed := true, ch := 0x40 } : HkConv), by decide +kernel⟩,
    ⟨(((fun (s : State) => ({ s with hk := { s.hk with inRound := true } } : State)) State.reset) : State), by decide +kernel⟩,
    ⟨(((fun (s : State) => ({ s with hk := { s.hk with recov := true } } : State)) State.reset) : State), by decide +kernel⟩,
    ⟨(((fun (s : State) => ({ s with hk := { s.hk with extAt := some 0 } } : State)) State.reset) : State), by decide +kernel⟩,
    ⟨(((fun (s : State) => ({ s with hk := { s.hk with conv := some ({ (default : HkConv) with wait := true } : HkConv) } } : State)) State.reset) : State), ({ (default : HkConv) with wait := true } : HkConv), by decide +kernel⟩,
    ⟨(((fun (s : State) => ({ s with hk := { s.hk with extAt := some (0 : Nat) } } : State)) State.reset) : State), (0 : Nat), by decide +kernel⟩⟩

theorem wit_HousekeepingSequence :
    (∃ s : State, ∃ c : HkConv, ∃ v : Nat, s.hk.conv = some c ∧ c.wait = false ∧ c.unav = false ∧ c.fixed = false ∧ v < 2 ^ 16 ∧ c.n < 32) ∧
    (∃ s : State, ∃ c : HkConv, s.hk.conv = some c ∧ c.wait = false ∧ c.unav = false ∧ c.fixed = false ∧ c.n < 32) ∧
    (∃ s : State, ∃ r : Req, ∃ v : Word, Takes s r Reg.HKA_SEQCTL ∧ v.getLsbD 31 = true ∧ v.getLsbD 30 = false ∧ s.get Fld.HKA_STAT_SEQRUN = 1) ∧
    (∃ s : State, ∃ r : Req, ∃ v : Word, Takes s r Reg.HKA_SEQCTL ∧ v.getLsbD 31 = true ∧ v.getLsbD 30 = false ∧ s.get Fld.HKA_STAT_SEQRUN = 0 ∧ getBits Fld.HKA_SEQCTL_MODE v ≠ 2 ∧ (s.hk.conv ≠ none ∨ s.hk.inRound = true)) ∧
    (∃ s : State, ∃ r : Req, ∃ v : Word, Takes s r Reg.HKA_SEQCTL ∧ v.getLsbD 31 = true ∧ v.getLsbD 30 = false ∧ s.get Fld.HKA_STAT_SEQRUN = 0 ∧ getBits Fld.HKA_SEQCTL_MODE v = 2) ∧
    (∃ s : State, ∃ r : Req, ∃ v : Word, ∃ c : HkConv, Takes s r Reg.HKA_SEQCTL ∧ v.getLsbD 31 = false ∧ v.getLsbD 30 = true ∧ s.get Fld.HKA_STAT_SEQRUN = 1 ∧ s.hk.conv = some c ∧ c.fixed = false) ∧
    (∃ s : State, ∃ r : Req, ∃ v : Word, Takes s r Reg.HKA_SEQCTL ∧ v.getLsbD 31 = false ∧ v.getLsbD 30 = true ∧ s.get Fld.HKA_STAT_SEQRUN = 1 ∧ s.hk.conv = none ∧ 33 ≤ s.hk.pos) ∧
    (∃ s : State, s.get Fld.HKA_STAT_SEQRUN = 1 ∧ s.get Fld.HKA_SEQCTL_MODE = 2 ∧ s.hk.pos < 33) ∧
    (∃ s : State, s.get Fld.HKA_STAT_SEQRUN = 1 ∧ s.get Fld.HKA_SEQCTL_MODE = 2 ∧ 33 ≤ s.hk.pos ∧ s.hk.conv ≠ none) ∧
    (∃ s : State, ∃ r : Req, ∃ n : Fin 32, s.check r (Reg.HKA_RESn + 8 * n) 2 false = .ok) :=
  ⟨
    ⟨(((fun (s : State) => ({ s with hk := { s.hk with conv := some ({ (default : HkConv) with wait := false, unav := false, fixed := false } : HkConv) } } : State)) State.reset) : State), ({ (default : HkConv) with wait := false, unav := false, fixed := false } : HkConv), (0 : Nat), by decide +kernel⟩,
    ⟨(((fun (s : State) => ({ s with hk := { s.hk with conv := some ({ (default : HkConv) with wait := false, unav := false, fixed := false } : HkConv) } } : State)) State.reset) : State), ({ (default : HkConv) with wait := false, unav := false, fixed := false } : HkConv), by decide +kernel⟩,
    ⟨((State.reset.put Fld.HKA_STAT_SEQRUN (1)) : State), (⟨16, 2⟩ : Req), (((0 : Word) ||| (1#32 <<< 31)) : Word), by decide +kernel⟩,
    ⟨(((fun (s : State) => ({ s with hk := { s.hk with inRound := true } } : State)) State.reset) : State), (⟨16, 2⟩ : Req), ((setBits Fld.HKA_SEQCTL_MODE ((0 : Word) ||| (1#32 <<< 31)) (1 - (2))) : Word), by decide +kernel⟩,
    ⟨(State.reset : State), (⟨16, 2⟩ : Req), ((setBits Fld.HKA_SEQCTL_MODE ((0 : Word) ||| (1#32 <<< 31)) (2)) : Word), by decide +kernel⟩,
    ⟨(((fun (s : State) => ({ s with hk := { s.hk with conv := some ({ (default : HkConv) with fixed := false } : HkConv) } } : State)) (State.reset.put Fld.HKA_STAT_SEQRUN (1))) : State), (⟨16, 2⟩ : Req), (0x40000000 : Word), ({ (default : HkConv) with fixed := false } : HkConv), by decide +kernel⟩,
    ⟨(((fun (s : State) => ({ s with hk := { s.hk with pos := 33 } } : State)) (State.reset.put Fld.HKA_STAT_SEQRUN (1))) : State), (⟨16, 2⟩ : Req), (((0 : Word) ||| (1#32 <<< 30)) : Word), by decide +kernel⟩,
    ⟨(((fun (s : State) => ({ s with hk := { s.hk with pos := 0 } } : State)) ((State.reset.put Fld.HKA_STAT_SEQRUN (1)).put Fld.HKA_SEQCTL_MODE (2))) : State), by decide +kernel⟩,
    ⟨(((fun (s : State) => ({ s with hk := { s.hk with conv := some default } } : State)) ((fun (s : State) => ({ s with hk := { s.hk with pos := 33 } } : State)) ((State.reset.put Fld.HKA_STAT_SEQRUN (1)).put Fld.HKA_SEQCTL_MODE (2)))) : State), by decide +kernel⟩,
    ⟨(State.reset : State), (⟨16, 2⟩ : Req), (0 : Fin 32), by decide +kernel⟩⟩

theorem wit_CalibrationRequests :
    (∃ s : State, ∃ r : Req, ∃ n : Fin 9, ∃ v : Word, Takes s r (Reg.CAL_REQs + 32 * n) ∧ v.getLsbD 30 = false ∧ s.calReq n ≠ none) ∧
    (∃ s : State, ∃ r : Req, ∃ n : Fin 9, ∃ v : Word, ∃ kind, kind = (getBits Fld.CAL_REQs_KIND v) ∧ ∃ mode, mode = (getBits Fld.CAL_REQs_MODE v) ∧ ∃ mask, mask = (getBits Fld.CAL_REQs_MASK v) ∧ Takes s r (Reg.CAL_REQs + 32 * n) ∧ v.getLsbD 30 = false ∧ s.calReq n = none ∧ ((calAllowed n kind mode = false ∨ mask = 0))) ∧
    (∃ s : State, ∃ r : Req, ∃ n : Fin 9, ∃ v : Word, ∃ kind, kind = (getBits Fld.CAL_REQs_KIND v) ∧ ∃ mode, mode = (getBits Fld.CAL_REQs_MODE v) ∧ ∃ mask, mask = (getBits Fld.CAL_REQs_MASK v) ∧ Takes s r (Reg.CAL_REQs + 32 * n) ∧ v.getLsbD 30 = false ∧ s.calReq n = none ∧ calAllowed n kind mode = true ∧ mask ≠ 0 ∧ ((n.val < 8 → s.bist.target ≠ some n.val ∧ s.calRuns (calHamlet n) kind mode mask = true)) ∧ ((kind = 1 ∨ s.cal.ended = true))) ∧
    (∃ s : State, ∃ r : Req, ∃ n : Fin 9, ∃ v : Word, ∃ q : CalReq, Takes s r (Reg.CAL_REQs + 32 * n) ∧ v.getLsbD 31 = false ∧ s.calReq n = some q ∧ s.calLost n q = false ∧ q.mode = 2 ∧ q.any = true) ∧
    (∃ s : State, ∃ r : Req, ∃ n : Fin 9, ∃ v : Word, ∃ q : CalReq, Takes s r (Reg.CAL_REQs + 32 * n) ∧ v.getLsbD 31 = false ∧ s.calReq n = some q ∧ s.calLost n q = false ∧ (q.mode ≠ 2 ∨ q.any = false)) ∧
    (∃ s : State, ∃ h : Fin 8, ∃ q : CalReq, ∃ t0 : Nat, s.calReq ⟨h.val, by omega⟩ = some q ∧ q.mode = 1 ∧ s.offWindow h (max t0 s.now) (max t0 s.now + 4 * usU) = true) ∧
    (∃ s : State, ∃ n : Fin 9, ∃ q : CalReq, ∃ t0 : Nat, s.calReq n = some q ∧ q.mode = 0 ∧ q.vals = none ∧ q.code = 0 ∧ s.calLost n q = false ∧ max s.now t0 ≤ q.go + max 1 (s.get (Fld.CAL_PARs_TMO.i n)) * msU) ∧
    (∃ s : State, ∃ n : Fin 9, ∃ q : CalReq, ∃ t0 : Nat, s.calReq n = some q ∧ q.mode = 0 ∧ q.vals = none ∧ q.code = 0 ∧ s.calLost n q = false ∧ q.check ≠ 2 ∧ q.go + max 1 (s.get (Fld.CAL_PARs_TMO.i n)) * msU < max s.now t0) ∧
    (∃ s : State, ∃ n : Fin 9, ∃ q : CalReq, s.calReq n = some q ∧ s.calLost n q = false ∧ q.code ≠ 0 ∧ q.code < 8) ∧
    (∃ s : State, ∃ n : Fin 9, ∃ q : CalReq, ∃ vals : List Int, s.calReq n = some q ∧ s.calLost n q = false ∧ q.code = 0 ∧ q.vals = some vals ∧ q.kind = 6 ∧ q.mode = 0 ∧ q.worn = []) ∧
    (∃ s : State, ∃ n : Fin 9, ∃ q : CalReq, ∃ v : Int, ∃ l : List Int, s.calReq n = some q ∧ s.calLost n q = false ∧ q.code = 0 ∧ q.vals = some (v :: l) ∧ q.kind = 1 ∧ (v - (if s.get Fld.CAL_CFG_SRC = 1 then 25000 else 40000)).natAbs * 50 ≤ (if s.get Fld.CAL_CFG_SRC = 1 then 25000 else 40000)) ∧
    (∃ s : State, ∃ h : Fin 8, ∃ q : CalReq, s.calReq ⟨h.val, by omega⟩ = some q ∧ q.mode = 2 ∧ q.check < 2 ∧ s.calLost ⟨h.val, by omega⟩ q = false) ∧
    (∃ s : State, ∃ n : Fin 9, ∃ q : CalReq, s.calReq n = some q ∧ q.check ≠ 2 ∧ s.calLost n q = false ∧ q.mode ≠ 2) ∧
    (∃ s : State, ∃ n : Fin 9, ∃ q : CalReq, s.calReq n = some q ∧ q.check ≠ 2 ∧ s.calLost n q = false ∧ q.mode = 2) ∧
    (∃ s : State, ∃ n : Fin 9, ∃ q : CalReq, s.calReq n = some q ∧ s.calLost n q = true) ∧
    (∃ s : State, ∃ h : Fin 8, ∃ x : CalSub, ∃ t0 : Nat, (s.cal.subs.find? fun y => y.slot == h.val) = some x ∧ s.silentAfter h (if x.kind = 4 then 0 else 1) x.at0 = some t0) :=
  ⟨
    ⟨((State.reset.setReq (0 : Fin 9) (some default)) : State), (⟨16, 2⟩ : Req), (0 : Fin 9), (0 : Word), by decide +kernel⟩,
    ⟨(State.reset : State), (⟨16, 2⟩ : Req), (0 : Fin 9), (0 : Word), _, rfl, _, rfl, _, rfl, by decide +kernel⟩,
    ⟨(((fun (s : State) => ({ s with cal := { s.cal with ended := true } } : State)) ((State.reset.put (Fld.PWR_HSTATE_STATE.sub 0) 3).put (Fld.PLL_STAT_LOCK.h 0) 1)) : State), (⟨16, 2⟩ : Req), (0 : Fin 9), (setBits Fld.CAL_REQs_MASK (setBits Fld.CAL_REQs_MODE (setBits Fld.CAL_REQs_KIND 0 4) 1) 1 : Word), _, rfl, _, rfl, _, rfl, by decide +kernel⟩,
    ⟨(((fun (s : State) => ((List.finRange 8).foldl (fun (s : State) (g : Fin 8) => (served g s).put (Fld.PLL_STAT_LOCK.h g) 1) s : State)) (State.reset.setReq ((0 : Fin 9)) (some ({ (default : CalReq) with mode := 2, any := true } : CalReq)))) : State), (⟨16, 2⟩ : Req), (0 : Fin 9), (0 : Word), ({ (default : CalReq) with mode := 2, any := true } : CalReq), by decide +kernel⟩,
    ⟨(((fun (s : State) => ((List.finRange 8).foldl (fun (s : State) (g : Fin 8) => (served g s).put (Fld.PLL_STAT_LOCK.h g) 1) s : State)) (State.reset.setReq ((0 : Fin 9)) (some ({ (default : CalReq) with mode := 1 } : CalReq)))) : State), (⟨16, 2⟩ : Req), (0 : Fin 9), (0 : Word), ({ (default : CalReq) with mode := 1 } : CalReq), by decide +kernel⟩,
    ⟨(((fun (s : State) => (latch1 (0 : Fin 8) [0] 0 s : State)) ((fun (s : State) => (s.setReq (⟨(0 : Fin 8).val, by omega⟩) (some ({ (default : CalReq) with mode := 1 } : CalReq)) : State)) State.reset)) : State), (0 : Fin 8), ({ (default : CalReq) with mode := 1 } : CalReq), (3 * usU : Nat), by decide +kernel⟩,
    ⟨(((fun (s : State) => ((List.finRange 8).foldl (fun (s : State) (g : Fin 8) => (served g s).put (Fld.PLL_STAT_LOCK.h g) 1) s : State)) (State.reset.setReq ((8 : Fin 9)) (some ({ (default : CalReq) with mode := 0, vals := none, code := 0 } : CalReq)))) : State), (8 : Fin 9), ({ (default : CalReq) with mode := 0, vals := none, code := 0 } : CalReq), (0 : Nat), by decide +kernel⟩,
    ⟨(((fun (s : State) => ((List.finRange 8).foldl (fun (s : State) (g : Fin 8) => (served g s).put (Fld.PLL_STAT_LOCK.h g) 1) s : State)) (State.reset.setReq ((8 : Fin 9)) (some ({ (default : CalReq) with mode := 0, vals := none, code := 0, check := 1 } : CalReq)))) : State), (8 : Fin 9), ({ (default : CalReq) with mode := 0, vals := none, code := 0, check := 1 } : CalReq), (secU : Nat), by decide +kernel⟩,
    ⟨(((fun (s : State) => ((List.finRange 8).foldl (fun (s : State) (g : Fin 8) => (served g s).put (Fld.PLL_STAT_LOCK.h g) 1) s : State)) (State.reset.setReq ((8 : Fin 9)) (some ({ (default : CalReq) with code := 1 } : CalReq)))) : State), (8 : Fin 9), ({ (default : CalReq) with code := 1 } : CalReq), by decide +kernel⟩,
    ⟨(((fun (s : State) => ((List.finRange 8).foldl (fun (s : State) (g : Fin 8) => (served g s).put (Fld.PLL_STAT_LOCK.h g) 1) s : State)) (State.reset.setReq ((8 : Fin 9)) (some ({ (default : CalReq) with code := 0, vals := some ([] : List Int), kind := 6, mode := 0, worn := [] } : CalReq)))) : State), (8 : Fin 9), ({ (default : CalReq) with code := 0, vals := some ([] : List Int), kind := 6, mode := 0, worn := [] } : CalReq), ([] : List Int), by decide +kernel⟩,
    ⟨(((fun (s : State) => ((List.finRange 8).foldl (fun (s : State) (g : Fin 8) => (served g s).put (Fld.PLL_STAT_LOCK.h g) 1) s : State)) (State.reset.setReq ((0 : Fin 9)) (some ({ (default : CalReq) with code := 0, vals := some ((40000 : Int) :: ([] : List Int)), kind := 1 } : CalReq)))) : State), (0 : Fin 9), ({ (default : CalReq) with code := 0, vals := some ((40000 : Int) :: ([] : List Int)), kind := 1 } : CalReq), (40000 : Int), ([] : List Int), by decide +kernel⟩,
    ⟨(((fun (s : State) => ((List.finRange 8).foldl (fun (s : State) (g : Fin 8) => (served g s).put (Fld.PLL_STAT_LOCK.h g) 1) s : State)) ((fun (s : State) => (s.setReq (⟨(0 : Fin 8).val, by omega⟩) (some ({ (default : CalReq) with mode := 2 } : CalReq)) : State)) State.reset)) : State), (0 : Fin 8), ({ (default : CalReq) with mode := 2 } : CalReq), by decide +kernel⟩,
    ⟨(((fun (s : State) => ((List.finRange 8).foldl (fun (s : State) (g : Fin 8) => (served g s).put (Fld.PLL_STAT_LOCK.h g) 1) s : State)) (State.reset.setReq ((8 : Fin 9)) (some ({ (default : CalReq) with check := 1, mode := 1 } : CalReq)))) : State), (8 : Fin 9), ({ (default : CalReq) with check := 1, mode := 1 } : CalReq), by decide +kernel⟩,
    ⟨(((fun (s : State) => ((List.finRange 8).foldl (fun (s : State) (g : Fin 8) => (served g s).put (Fld.PLL_STAT_LOCK.h g) 1) s : State)) (State.reset.setReq ((0 : Fin 9)) (some ({ (default : CalReq) with check := 1, mode := 2 } : CalReq)))) : State), (0 : Fin 9), ({ (default : CalReq) with check := 1, mode := 2 } : CalReq), by decide +kernel⟩,
    ⟨(((fun (s : State) => ((List.finRange 8).foldl (fun (s : State) (g : Fin 8) => (served g s).put (Fld.PLL_STAT_LOCK.h g) 0) s : State)) (State.reset.setReq ((0 : Fin 9)) (some ({ (default : CalReq) with lost := true } : CalReq)))) : State), (0 : Fin 9), ({ (default : CalReq) with lost := true } : CalReq), by decide +kernel⟩,
    ⟨(((fun (s : State) => (latch1 (0 : Fin 8) [0] 1 s : State)) ((fun (s : State) => ({ s with cal := { s.cal with subs := [(⟨(0 : Fin 8).val, 0, 0, 0⟩ : CalSub)] } } : State)) State.reset)) : State), (0 : Fin 8), (⟨(0 : Fin 8).val, 0, 0, 0⟩ : CalSub), (1 : Nat), by decide +kernel⟩⟩

theorem wit_SelfTest :
    (∃ s : State, ∃ r : Req, ∃ h : Fin 8, ∃ v : Word, Takes s r Reg.BIST_CMD ∧ v.getLsbD 30 = false ∧ getBits Fld.BIST_CMD_TARGET v = h.val ∧ s.get Fld.BIST_STAT_BUSY = 0 ∧ getBits Fld.BIST_CMD_KIND v ≠ 3 ∧ s.bistReady h = true) ∧
    (∃ s : State, ∃ r : Req, ∃ h : Fin 8, ∃ v : Word, Takes s r Reg.BIST_CMD ∧ v.getLsbD 30 = false ∧ getBits Fld.BIST_CMD_TARGET v = h.val ∧ s.get Fld.BIST_STAT_BUSY = 0 ∧ (getBits Fld.BIST_CMD_KIND v = 3 ∨ s.bistReady h = false)) ∧
    (∃ s : State, s.get Fld.BIST_STAT_PHASE = 1) ∧
    (∃ s : State, ∃ rows : List (Nat × Nat), ∃ spares : List (Nat × Nat), ((s.get Fld.BIST_STAT_PHASE = 3 ∨ s.get Fld.BIST_STAT_PHASE = 2 ∧ rows = [] ∧ spares = []))) ∧
    (∃ s : State, s.get Fld.BIST_STAT_PHASE = 4 ∧ s.bist.target = none) ∧
    (∃ s : State, ∃ k : Nat, s.get Fld.BIST_STAT_PHASE = 4 ∧ s.bist.target = some k ∧ k < 8 ∧ s.bistBad = false) ∧
    (∃ s : State, ∃ r : Req, s.check r Reg.BIST_STAT 2 false = .ok) :=
  ⟨
    ⟨((((State.reset.put (Fld.PWR_HSTATE_STATE.sub (0 : Fin 8)) 3).put (Fld.DMA_CTRL_ALLSTOP.h (0 : Fin 8)) 1).put (Fld.ARB_STAT_DRAINED.h (0 : Fin 8)) 1) : State), (⟨16, 2⟩ : Req), (0 : Fin 8), ((setBits Fld.BIST_CMD_KIND (setBits Fld.BIST_CMD_TARGET (0 : Word) ((0 : Fin 8).val)) (1 - (3))) : Word), by decide +kernel⟩,
    ⟨(State.reset : State), (⟨16, 2⟩ : Req), (0 : Fin 8), ((setBits Fld.BIST_CMD_KIND (setBits Fld.BIST_CMD_TARGET (0 : Word) ((0 : Fin 8).val)) (3)) : Word), by decide +kernel⟩,
    ⟨((State.reset.put Fld.BIST_STAT_PHASE (1)) : State), by decide +kernel⟩,
    ⟨((State.reset.put Fld.BIST_STAT_PHASE 3) : State), ([] : List (Nat × Nat)), ([] : List (Nat × Nat)), by decide +kernel⟩,
    ⟨((State.reset.put Fld.BIST_STAT_PHASE (4)) : State), by decide +kernel⟩,
    ⟨(((fun (s : State) => ({ s with bist := { s.bist with target := some (0 : Nat) } } : State)) (State.reset.put Fld.BIST_STAT_PHASE (4))) : State), (0 : Nat), by decide +kernel⟩,
    ⟨(State.reset : State), (⟨16, 2⟩ : Req), by decide +kernel⟩⟩

theorem wit_RegisterBridge :
    (∃ s : State, ∃ r : Req, ∃ a : Nat, ∃ d : RegDesc, Takes s r a ∧ ((a / 0x10000 = 0x411 ∧ a ≠ Reg.BIST_CMD ∨ a / 0x10000 = 0x40B)) ∧ a % 0x10000 ≠ 0 ∧ a % 0x10000 ≠ 0xFFFC ∧ descOf a = some d ∧ s.locked a = false) ∧
    (∃ r : Req, ∃ a : Nat, inReach r a true = false) ∧
    (∃ s : State, ∃ r : Req, ∃ a : Nat, ∃ h : Fin 8, inReach r a true = true ∧ r.id ≠ 17 ∧ hamletOf a = some h ∧ s.bist.target ≠ some h.val ∧ s.get (Fld.PWR_HSTATE_WFAIL.sub h) = 0 ∧ s.get Fld.THM_STAT_SDLATCH = 0 ∧ s.hstate h < 2 ∧ s.hpow[h].entry = none ∧ s.hpow[h].wakeAt = none) ∧
    (∃ s : State, ∃ r : Req, Takes s r Reg.THM_HYST ∧ s.locked Reg.THM_HYST = true) ∧
    (∃ s : State, ∃ r : Req, ∃ k : Fin 6, s.check r (Reg.TIM_CNTn + 4 * k) 2 false = .ok) ∧
    (∃ s : State, ∃ r : Req, ∃ a : Nat, Takes s r (a / 0x10000 * 0x10000 + 0xFFFC) ∧ r.id = 16 ∧ ((r.priv = 1 ∨ r.priv = 2))) :=
  ⟨
    ⟨(State.reset : State), (⟨16, 2⟩ : Req), (Reg.BIST_PATS : Nat), ((descOf (Reg.BIST_PATS : Nat)).getD default : RegDesc), by decide +kernel⟩,
    ⟨(⟨0, 1⟩ : Req), (0x11000000 : Nat), by decide +kernel⟩,
    ⟨(State.reset : State), (⟨16, 2⟩ : Req), (0x10000100 : Nat), (0 : Fin 8), by decide +kernel⟩,
    ⟨((State.reset.wr (Reg.THM_HYST / 0x10000 * 0x10000 + 0xFFFC) 1) : State), (⟨16, 2⟩ : Req), by decide +kernel⟩,
    ⟨(State.reset : State), (⟨16, 2⟩ : Req), (0 : Fin 6), by decide +kernel⟩,
    ⟨(State.reset : State), (⟨16, 2⟩ : Req), (Reg.THM_HYST : Nat), by decide +kernel⟩⟩

theorem wit_HamletWake :
    (∃ s : State, ∃ h : Fin 8, ∃ w : Nat, s.hpow[h].wakeAt = some w ∧ s.hstate h = 1 ∧ ((∀ x ∈ s.stalled, inHamlet h x.addr = false))) ∧
    (∃ s : State, ∃ h : Fin 8, ∃ w : Nat, ∃ t0 : Nat, ∃ u, u = (wakeRestore h (s.at (min t0 (w + 2 * msU)))) ∧ s.hpow[h].wakeAt = some w ∧ s.hstate h ≠ 1 ∧ u.pll[h].acqDue = none) ∧
    (∃ s : State, ∃ h : Fin 8, ∃ w : Nat, ∃ t0 : Nat, ∃ u, u = (wakeRestore h (s.at (min t0 (w + 2 * msU)))) ∧ s.hpow[h].wakeAt = some w ∧ s.hstate h ≠ 1 ∧ u.pll[h].acqDue ≠ none ∧ ((∀ x ∈ u.stalled, inHamlet h x.addr = false))) :=
  ⟨
    ⟨((((fun (s : State) => ({ s with hpow := (s.hpow.set ((0 : Fin 8)) ({ s.hpow[(0 : Fin 8)] with wakeAt := some (0 : Nat) })) } : State)) State.reset).put (Fld.PWR_HSTATE_STATE.sub ((0 : Fin 8))) 1) : State), (0 : Fin 8), (0 : Nat), by decide +kernel⟩,
    ⟨((((fun (s : State) => ({ s with hpow := (s.hpow.set ((0 : Fin 8)) ({ s.hpow[(0 : Fin 8)] with wakeAt := some (0 : Nat) })) } : State)) State.reset).put (Fld.PWR_HSTATE_STATE.sub ((0 : Fin 8))) 3) : State), (0 : Fin 8), (0 : Nat), (0 : Nat), _, rfl, by decide +kernel⟩,
    ⟨(((fun (s : State) => (s.put ((Fld.PLL_BANDn_VALID.i 5).h (0 : Fin 8)) 1 : State)) (((fun (s : State) => ({ s with hpow := (s.hpow.set ((0 : Fin 8)) ({ s.hpow[(0 : Fin 8)] with wakeAt := some (0 : Nat) })) } : State)) State.reset).put (Fld.PWR_HSTATE_STATE.sub ((0 : Fin 8))) 3)) : State), (0 : Fin 8), (0 : Nat), (0 : Nat), _, rfl, by decide +kernel⟩⟩

theorem wit_GatewayRequests :
    (∃ s : State, ∃ m : Hdr, ∃ data : List Nat, s.get (Fld.LNK_FLOWf_CFG_EN.i m.flow) ≠ 0 ∧ s.hdrOk m 4 (12 + data.length) = true ∧ s.rmaBusy = true) ∧
    (∃ s : State, ∃ m : Hdr, ∃ op : Nat, ∃ addr : Nat, ∃ len : Nat, ∃ data : List Nat, s.get (Fld.LNK_FLOWf_CFG_EN.i m.flow) ≠ 0 ∧ s.hdrOk m 4 (12 + data.length) = true ∧ s.rmaBusy = false ∧ s.rmaHeld (op != 0) addr len = true) ∧
    (∃ s : State, ∃ m : Hdr, ∃ op : Nat, ∃ low : Nat, ∃ addr : Nat, ∃ len : Nat, ∃ data : List Nat, s.get (Fld.LNK_FLOWf_CFG_EN.i m.flow) ≠ 0 ∧ s.hdrOk m 4 (12 + data.length) = true ∧ s.rmaBusy = false ∧ s.rmaHeld (op != 0) addr len = false ∧ len = 0 ∧ low = 0) ∧
    (∃ s : State, ∃ m : Hdr, ∃ op : Nat, ∃ low : Nat, ∃ addr : Nat, ∃ len : Nat, ∃ data : List Nat, s.get (Fld.LNK_FLOWf_CFG_EN.i m.flow) ≠ 0 ∧ s.hdrOk m 4 (12 + data.length) = true ∧ s.rmaBusy = false ∧ s.rmaHeld (op != 0) addr len = false ∧ op ≤ 2 ∧ low = 0 ∧ addr < 2 ^ 32 ∧ 4096 < len) ∧
    (∃ s : State, ∃ m : Hdr, ∃ op : Nat, ∃ low : Nat, ∃ addr : Nat, ∃ len : Nat, ∃ data : List Nat, ∃ u, u = ({ s with port := { s.port with inbox := dropFlow m.flow s.port.inbox } }) ∧ ∃ l, l = (splitSpan (len + 1) addr len) ∧ s.get (Fld.LNK_FLOWf_CFG_EN.i m.flow) ≠ 0 ∧ s.hdrOk m 4 (12 + data.length) = true ∧ s.rmaBusy = false ∧ s.rmaHeld (op != 0) addr len = false ∧ op = 0 ∧ low = 0 ∧ addr < 2 ^ 32 ∧ 1 ≤ len ∧ len ≤ 4096 ∧ u.rmaRefusal false l addr len = none ∧ u.rmaSleeps false l = none) ∧
    (∃ s : State, ∃ m : Hdr, ∃ op : Nat, ∃ low : Nat, ∃ addr : Nat, ∃ len : Nat, ∃ data : List Nat, ∃ u, u = ({ s with port := { s.port with inbox := dropFlow m.flow s.port.inbox } }) ∧ ∃ l, l = (splitSpan (len + 1) addr len) ∧ s.get (Fld.LNK_FLOWf_CFG_EN.i m.flow) ≠ 0 ∧ s.hdrOk m 4 (12 + data.length) = true ∧ s.rmaBusy = false ∧ s.rmaHeld (op != 0) addr len = false ∧ op = 1 ∧ low = 0 ∧ addr < 2 ^ 32 ∧ 1 ≤ len ∧ len ≤ 4096 ∧ data.length = len ∧ u.rmaRefusal true l addr len = none ∧ u.rmaSleeps true l = none) :=
  ⟨
    ⟨(((fun (s : State) => ({ s with port := { s.port with rma := [⟨0, 0, 0, 0, 0, []⟩] } } : State)) ((fun (s : State) => (s.put (Fld.LNK_FLOWf_CFG_EN.i (⟨1, 1, 0, 12, 0x80⟩ : Hdr).flow) (1 - 0) : State)) State.reset)) : State), (⟨1, 1, 0, 12, 0x80⟩ : Hdr), ([] : List Nat), by decide +kernel⟩,
    ⟨((((fun (s : State) => (s.put (Fld.LNK_FLOWf_CFG_EN.i (⟨1, 1, 0, 12, 0x80⟩ : Hdr).flow) (1 - 0) : State)) State.reset).put (Fld.ARB_CTRL_FREEZE.h 0) 1) : State), (⟨1, 1, 0, 12, 0x80⟩ : Hdr), (0 : Nat), (0x10000000 : Nat), (4 : Nat), ([] : List Nat), by decide +kernel⟩,
    ⟨(((fun (s : State) => (s.put (Fld.LNK_FLOWf_CFG_EN.i (⟨1, 1, 0, 12, 0x80⟩ : Hdr).flow) (1 - 0) : State)) State.reset) : State), (⟨1, 1, 0, 12, 0x80⟩ : Hdr), (0 : Nat), (0 : Nat), (0 : Nat), (0 : Nat), ([] : List Nat), by decide +kernel⟩,
    ⟨(((fun (s : State) => (s.put (Fld.LNK_FLOWf_CFG_EN.i (⟨1, 1, 0, 12, 0x80⟩ : Hdr).flow) (1 - 0) : State)) State.reset) : State), (⟨1, 1, 0, 12, 0x80⟩ : Hdr), (0 : Nat), (0 : Nat), (0 : Nat), (4097 : Nat), ([] : List Nat), by decide +kernel⟩,
    ⟨(((fun (s : State) => ((((s.put (Fld.LNK_GWn_CTRL_EN.i 0) 1).put (Fld.LNK_GWn_CTRL_RD.i 0) 1).put (Fld.LNK_GWn_CTRL_WR.i 0) 1).put (Fld.LNK_GWn_LIM_PAGE.i 0) 0xFFFFF : State)) ((fun (s : State) => (s.put (Fld.LNK_FLOWf_CFG_EN.i (⟨1, 1, 0, 12, 0x80⟩ : Hdr).flow) (1 - 0) : State)) State.reset)) : State), (⟨1, 1, 0, 12, 0x80⟩ : Hdr), (0 : Nat), (0 : Nat), (0x08000000 : Nat), (4 : Nat), ([] : List Nat), _, rfl, _, rfl, by decide +kernel⟩,
    ⟨(((fun (s : State) => ((((s.put (Fld.LNK_GWn_CTRL_EN.i 0) 1).put (Fld.LNK_GWn_CTRL_RD.i 0) 1).put (Fld.LNK_GWn_CTRL_WR.i 0) 1).put (Fld.LNK_GWn_LIM_PAGE.i 0) 0xFFFFF : State)) ((fun (s : State) => (s.put (Fld.LNK_FLOWf_CFG_EN.i (⟨1, 1, 0, 16, 0x80⟩ : Hdr).flow) (1 - 0) : State)) State.reset)) : State), (⟨1, 1, 0, 16, 0x80⟩ : Hdr), (1 : Nat), (0 : Nat), (0x08000000 : Nat), (4 : Nat), ([0,0,0,0] : List Nat), _, rfl, _, rfl, by decide +kernel⟩⟩

theorem wit_StartUp :
    (∃ s : State, ∃ t0 : Nat, s.boot.inReset = false ∧ max s.now t0 ≤ s.stepLimit ∧ s.pow.step = 1 ∧ s.railsOk = true) ∧
    (∃ s : State, ∃ t0 : Nat, s.boot.inReset = false ∧ max s.now t0 ≤ s.stepLimit ∧ s.pow.step = 2 ∧ s.get Fld.CLK_REF_PRESENT = 1) ∧
    (∃ s : State, ∃ t0 : Nat, s.boot.inReset = false ∧ max s.now t0 ≤ s.stepLimit ∧ s.pow.step = 3) ∧
    (∃ s : State, ∃ t0 : Nat, s.boot.inReset = false ∧ s.pow.step ≠ 0 ∧ s.stepLimit ≤ max s.now t0 ∧ s.pow.try_ < 3) ∧
    (∃ s : State, ∃ t0 : Nat, s.boot.inReset = false ∧ s.pow.step ≠ 0 ∧ s.stepLimit ≤ max s.now t0 ∧ s.pow.try_ = 3 ∧ s.pow.step < 16) ∧
    (∃ s : State, ∃ r : Req, Takes s r Reg.HTH_WAKEREC ∧ s.boot.booting = false ∧ s.boot.rom = false) ∧
    (∃ s : State, ∃ rail : Fin 9, bitOf s.pow.rails rail = true ∧ (s.pow.hearth = false ∨ Nat.land (s.pow.rails - 2 ^ rail.val) 0x180 ≠ 0x180) ∧ ((s.pow.down ≠ 0 ∨ s.boot.inReset = true ∨ s.pow.step = 1 ∨ Nat.land (s.pow.rails - 2 ^ rail.val) 0x6D = 0))) ∧
    (∃ s : State, ∃ rail : Fin 9, (s.pow.hearth = false ∨ Nat.land (Nat.lor s.pow.rails (2 ^ rail.val)) 0x180 ≠ 0x180) ∧ s.pow.down = 0 ∧ s.boot.inReset = false ∧ s.pow.step ≠ 1 ∧ Nat.land (Nat.lor s.pow.rails (2 ^ rail.val)) 0x6D ≠ 0) ∧
    (∃ s : State, ∃ x : BitVec 8, s.boot.inReset = true ∧ s.pow.hearth = true ∧ x.toNat % 4 ≠ 3 ∧ x.toNat / 64 ≠ 3) ∧
    (∃ s : State, (s.pow.hearth = true ∨ Nat.land s.pow.rails 0x180 = 0x180)) ∧
    (∃ s : State, s.pow.hearth = false ∧ (bitOf s.pow.rails 7 = false ∨ bitOf s.pow.rails 8 = false)) :=
  ⟨
    ⟨(((fun (s : State) => ({ s with pow := { s.pow with step := 1 } } : State)) State.reset) : State), (0 : Nat), by decide +kernel⟩,
    ⟨((((fun (s : State) => ({ s with pow := { s.pow with step := 2 } } : State)) State.reset).put Fld.CLK_REF_PRESENT (1)) : State), (0 : Nat), by decide +kernel⟩,
    ⟨(((fun (s : State) => ({ s with pow := { s.pow with step := 3 } } : State)) State.reset) : State), (0 : Nat), by decide +kernel⟩,
    ⟨(((fun (s : State) => ({ s with pow := { s.pow with step := 1 } } : State)) State.reset) : State), (secU : Nat), by decide +kernel⟩,
    ⟨(((fun (s : State) => ({ s with pow := { s.pow with try_ := 3 } } : State)) ((fun (s : State) => ({ s with pow := { s.pow with step := 1 } } : State)) State.reset)) : State), (secU : Nat), by decide +kernel⟩,
    ⟨(State.reset : State), (⟨16, 2⟩ : Req), by decide +kernel⟩,
    ⟨(((fun (s : State) => ({ s with pow := { s.pow with rails := 511 } } : State)) ((fun (s : State) => ({ s with pow := { s.pow with down := 1 } } : State)) ((fun (s : State) => ({ s with pow := { s.pow with hearth := false } } : State)) State.reset))) : State), (0 : Fin 9), by decide +kernel⟩,
    ⟨(((fun (s : State) => ({ s with pow := { s.pow with step := 2 } } : State)) ((fun (s : State) => ({ s with pow := { s.pow with hearth := false } } : State)) State.reset)) : State), (0 : Fin 9), by decide +kernel⟩,
    ⟨(((fun (s : State) => ({ s with pow := { s.pow with hearth := true } } : State)) ((fun (s : State) => ({ s with boot := { s.boot with inReset := true } } : State)) State.reset)) : State), (0 : BitVec 8), by decide +kernel⟩,
    ⟨(((fun (s : State) => ({ s with pow := { s.pow with hearth := true } } : State)) State.reset) : State), by decide +kernel⟩,
    ⟨(((fun (s : State) => ({ s with pow := { s.pow with hearth := false } } : State)) State.reset) : State), by decide +kernel⟩⟩

theorem wit_Boot :
    (∃ s : State, ∃ r : Req, ∃ v : Word, Takes s r Reg.SYS_RST ∧ r.id = 16 ∧ r.priv = 2 ∧ v.getLsbD 1 = false) ∧
    (∃ s : State, ∃ r : Req, ∃ v : Word, Takes s r Reg.SYS_RST ∧ r.id = 16 ∧ r.priv = 2 ∧ v.getLsbD 0 = false) ∧
    (∃ s : State, ∃ d : Nat, s.boot.devDue = some d) ∧
    (∃ s : State, ∃ g : Nat, ∃ d : Nat, ∃ rest : List (Nat × Nat), s.lnk.resets = (g, d) :: rest ∧ 8 ≤ g) ∧
    (∃ s : State, ∃ g : Nat, ∃ d : Nat, ∃ rest : List (Nat × Nat), ∃ h : Fin 8, s.lnk.resets = (g, d) :: rest ∧ g = h.val ∧ 2 ≤ s.hstate h) ∧
    (∃ s : State, ∃ g : Nat, ∃ d : Nat, ∃ rest : List (Nat × Nat), s.lnk.resets = (g, d) :: rest ∧ g < 8 ∧ s.hstate g < 2) ∧
    (∃ s : State, ∃ slot : Fin 3, s.boot.booting = true ∧ slot.val < 2 ∧ s.bootNext = some slot.val) ∧
    (∃ s : State, s.boot.booting = true) ∧
    (∃ s : State, ∃ d : Nat, s.boot.retry = some d) ∧
    (∃ s : State, ∃ t0 : Nat, s.boot.booting = true ∧ s.linkUp = true ∧ s.bootNext = some 2 ∧ s.boot.upAt + 10 * secU ≤ max s.now t0 ∧ ((∀ m ∈ s.lnk.toReeve, m.flow ≠ 4))) ∧
    (∃ s : State, ∃ r : Req, ∃ v : Word, Takes s r bootRec ∧ r.id = 16 ∧ r.priv = 2 ∧ v.getLsbD 7 = true) ∧
    (∃ s : State, ∃ r : Req, ∃ v : Word, Takes s r bootRec ∧ r.id = 16 ∧ r.priv = 2 ∧ v.getLsbD 7 = false ∧ bitOf (s.rd bootRec).toNat 7 = true) :=
  ⟨
    ⟨(State.reset : State), (⟨16, 2⟩ : Req), (0 : Word), by decide +kernel⟩,
    ⟨(State.reset : State), (⟨16, 2⟩ : Req), (0 : Word), by decide +kernel⟩,
    ⟨(((fun (s : State) => ({ s with boot := { s.boot with devDue := some (0 : Nat) } } : State)) State.reset) : State), (0 : Nat), by decide +kernel⟩,
    ⟨(((fun (s : State) => ({ s with lnk := { s.lnk with resets := ((8 : Nat), (0 : Nat)) :: ([] : List (Nat × Nat)) } } : State)) State.reset) : State), (8 : Nat), (0 : Nat), ([] : List (Nat × Nat)), by decide +kernel⟩,
    ⟨((((fun (s : State) => ({ s with lnk := { s.lnk with resets := ((0 : Nat), (0 : Nat)) :: ([] : List (Nat × Nat)) } } : State)) State.reset).put (Fld.PWR_HSTATE_STATE.sub ((0 : Fin 8))) 3) : State), (0 : Nat), (0 : Nat), ([] : List (Nat × Nat)), (0 : Fin 8), by decide +kernel⟩,
    ⟨(((fun (s : State) => ({ s with lnk := { s.lnk with resets := ((0 : Nat), (0 : Nat)) :: ([] : List (Nat × Nat)) } } : State)) State.reset) : State), (0 : Nat), (0 : Nat), ([] : List (Nat × Nat)), by decide +kernel⟩,
    ⟨(((fun (s : State) => ({ s with boot := { s.boot with booting := true } } : State)) State.reset) : State), (0 : Fin 3), by decide +kernel⟩,
    ⟨(((fun (s : State) => ({ s with boot := { s.boot with booting := true } } : State)) State.reset) : State), by decide +kernel⟩,
    ⟨(((fun (s : State) => ({ s with boot := { s.boot with retry := some (0 : Nat) } } : State)) State.reset) : State), (0 : Nat), by decide +kernel⟩,
    ⟨(((fun (s : State) => ({ s with boot := { s.boot with straps := 64 } } : State)) (((fun (s : State) => ({ s with boot := { s.boot with booting := true } } : State)) State.reset).put Fld.LNK_STAT_STATE 2)) : State), (20 * secU : Nat), by decide +kernel⟩,
    ⟨(((fun (s : State) => ({ s with boot := { s.boot with straps := 64 } } : State)) State.reset) : State), (⟨16, 2⟩ : Req), (((0 : Word) ||| (1#32 <<< 7)) : Word), by decide +kernel⟩,
    ⟨((State.reset.wr bootRec 0x80) : State), (⟨16, 2⟩ : Req), (0 : Word), by decide +kernel⟩⟩

theorem wit_FaultManager :
    (∃ s : State, ∃ r : Req, ∃ x : BitVec 8, ∃ n : Fin 32, Takes s r Reg.FLT_CTRL ∧ x.toNat = n.val ∧ s.get (Fld.FLT_LOGn_W0_ACTIVE.i n) = 1 ∧ s.flt.sent[n] = false) ∧
    (∃ s : State, ∃ r : Req, ∃ x : BitVec 8, ∃ n : Fin 32, Takes s r Reg.FLT_CTRL ∧ x.toNat = n.val ∧ s.get (Fld.FLT_LOGn_W0_ACTIVE.i n) = 0) ∧
    (∃ s : State, ∃ r : Req, ∃ x : BitVec 8, Takes s r Reg.FLT_CTRL ∧ 32 ≤ x.toNat) ∧
    (∃ s : State, ∃ r : Req, Takes s r Reg.FLT_CTRL ∧ s.get Fld.FLT_RCV_BUSY = 1 ∧ s.flt.queue = []) ∧
    (∃ s : State, ∃ r : Req, ∃ n : Nat, ∃ l : List Nat, Takes s r Reg.FLT_CTRL ∧ s.get Fld.FLT_RCV_BUSY = 1 ∧ s.flt.queue = n :: l ∧ n < 32) ∧
    (∃ s : State, ∃ r : Req, ∃ x : BitVec 8, ∃ h : Fin 8, Takes s r Reg.FLT_CTRL ∧ x.toNat = h.val ∧ bitOf (s.get Fld.FLT_STAT_ISO) h = false ∧ ((s.flt.isoStep[h] = 0 ∨ s.flt.isoStep[h] = 5)) ∧ 2 ≤ s.hstate h) ∧
    (∃ s : State, ∃ r : Req, ∃ x : BitVec 8, ∃ h : Fin 8, Takes s r Reg.FLT_CTRL ∧ x.toNat = h.val ∧ 2 ≤ s.hstate h ∧ s.flt.isoStep[h] = 0) ∧
    (∃ s : State, ∃ r : Req, Takes s r Reg.FLT_CTRL ∧ 0xE00 ≤ s.get Fld.FLT_SWF_NUM) ∧
    (∃ s : State, ∃ r : Req, Takes s r Reg.FLT_CTRL ∧ s.get Fld.FLT_SWF_NUM < 0xE00) ∧
    (∃ s : State, ∃ r : Req, ∃ x : BitVec 8, ∃ h : Fin 8, Takes s r Reg.FLT_CTRL ∧ x.toNat = h.val ∧ s.isolated h = false ∧ s.hstate h ≠ 0 ∧ s.tx[h].rampEnd = none ∧ s.flt.isoStep[h] = 0) ∧
    (∃ s : State, ∃ r : Req, ∃ x : BitVec 8, ∃ h : Fin 8, Takes s r Reg.FLT_CTRL ∧ x.toNat = h.val ∧ s.isolated h = false ∧ (s.tx[h].rampEnd ≠ none ∨ s.flt.isoStep[h] ≠ 0)) ∧
    (∃ s : State, ∃ i : Indic, s.flt.waiting = [i] ∧ s.linkUp = true) ∧
    (∃ s : State, ∃ i : Indic, s.flt.waiting = [i] ∧ s.linkUp = false) :=
  ⟨
    ⟨(((fun (s : State) => ({ s with flt := { s.flt with sent := (s.flt.sent.set ((0 : Fin 32)) (false)) } } : State)) (State.reset.put (Fld.FLT_LOGn_W0_ACTIVE.i (0 : Fin 32)) (1))) : State), (⟨16, 2⟩ : Req), (0 : BitVec 8), (0 : Fin 32), by decide +kernel⟩,
    ⟨(State.reset : State), (⟨16, 2⟩ : Req), (0 : BitVec 8), (0 : Fin 32), by decide +kernel⟩,
    ⟨(State.reset : State), (⟨16, 2⟩ : Req), (32 : BitVec 8), by decide +kernel⟩,
    ⟨((State.reset.put Fld.FLT_RCV_BUSY (1)) : State), (⟨16, 2⟩ : Req), by decide +kernel⟩,
    ⟨(((fun (s : State) => ({ s with flt := { s.flt with queue := (0 : Nat) :: ([] : List Nat) } } : State)) (State.reset.put Fld.FLT_RCV_BUSY (1))) : State), (⟨16, 2⟩ : Req), (0 : Nat), ([] : List Nat), by decide +kernel⟩,
    ⟨((((fun (s : State) => ({ s with flt := { s.flt with isoStep := (s.flt.isoStep.set ((0 : Fin 8)) (0)) } } : State)) State.reset).put (Fld.PWR_HSTATE_STATE.sub ((0 : Fin 8))) 3) : State), (⟨16, 2⟩ : Req), (0 : BitVec 8), (0 : Fin 8), by decide +kernel⟩,
    ⟨(((fun (s : State) => ({ s with flt := { s.flt with isoStep := (s.flt.isoStep.set ((0 : Fin 8)) (0)) } } : State)) (State.reset.put (Fld.PWR_HSTATE_STATE.sub ((0 : Fin 8))) 3)) : State), (⟨16, 2⟩ : Req), (0 : BitVec 8), (0 : Fin 8), by decide +kernel⟩,
    ⟨(State.reset : State), (⟨16, 2⟩ : Req), by decide +kernel⟩,
    ⟨((State.reset.put Fld.FLT_SWF_NUM 1) : State), (⟨16, 2⟩ : Req), by decide +kernel⟩,
    ⟨(((fun (s : State) => ({ s with flt := { s.flt with isoStep := (s.flt.isoStep.set ((0 : Fin 8)) (0)) } } : State)) (State.reset.put (Fld.PWR_HSTATE_STATE.sub ((0 : Fin 8))) 3)) : State), (⟨16, 2⟩ : Req), (0 : BitVec 8), (0 : Fin 8), by decide +kernel⟩,
    ⟨(((fun (s : State) => ({ s with tx := s.tx.set (0 : Fin 8) { s.tx[(0 : Fin 8)] with rampEnd := some 5 } } : State)) State.reset) : State), (⟨16, 2⟩ : Req), (0 : BitVec 8), (0 : Fin 8), by decide +kernel⟩,
    ⟨((((fun (s : State) => ({ s with flt := { s.flt with waiting := [(default : Indic)] } } : State)) State.reset).put Fld.LNK_STAT_STATE 2) : State), (default : Indic), by decide +kernel⟩,
    ⟨(((fun (s : State) => ({ s with flt := { s.flt with waiting := [(default : Indic)] } } : State)) State.reset) : State), (default : Indic), by decide +kernel⟩⟩

theorem wit_Isolation :
    (∃ s : State, ∃ h : Fin 8, s.flt.isoStep[h] = 1) ∧
    (∃ s : State, ∃ h : Fin 8, ((s.flt.isoStep[h] = 2 ∨ s.flt.isoStep[h] = 5)) ∧ s.tx[h].rampEnd = none) ∧
    (∃ s : State, ∃ h : Fin 8, s.flt.isoStep[h] = 3) :=
  ⟨
    ⟨(((fun (s : State) => ({ s with flt := { s.flt with isoStep := (s.flt.isoStep.set ((0 : Fin 8)) (1)) } } : State)) State.reset) : State), (0 : Fin 8), by decide +kernel⟩,
    ⟨(((fun (s : State) => ({ s with flt := { s.flt with isoStep := (s.flt.isoStep.set ((0 : Fin 8)) (2)) } } : State)) State.reset) : State), (0 : Fin 8), by decide +kernel⟩,
    ⟨(((fun (s : State) => ({ s with flt := { s.flt with isoStep := (s.flt.isoStep.set ((0 : Fin 8)) (3)) } } : State)) State.reset) : State), (0 : Fin 8), by decide +kernel⟩⟩

theorem wit_TestPort :
    (∃ s : State, Nat.land s.pow.rails 0x29 ≠ 0) ∧
    (∃ s : State, Nat.land s.pow.rails 0x29 = 0) :=
  ⟨
    ⟨(((fun (s : State) => ({ s with pow := { s.pow with rails := 511 } } : State)) State.reset) : State), by decide +kernel⟩,
    ⟨(State.reset : State), by decide +kernel⟩⟩

theorem wit_AgateCommands :
    (∃ s : State, ∃ r : Req, ∃ x : BitVec 8, ∃ c : Instr, ∃ op : Nat, Takes s r Reg.AGT_CMD ∧ (c, op) ∈ [(Instr.agtVerify r x, 1), (.agtRelease r x, 2), (.agtAdvance r x, 3), (.agtBurn r x, 4), (.agtRevoke r x, 5), (.agtProgkey r x, 6), (.agtLcsadv r x, 7), (.agtAttest r x, 8), (.agtIdkey r x, 9), (.agtCert r x, 10), (.agtSopen r x, 11), (.agtSrecv r x, 12), (.agtSsend r x, 13), (.agtSclose r x, 14)] ∧ r.id = 16 ∧ r.priv = 2 ∧ s.get Fld.AGT_STAT_BUSY = 0) ∧
    (∃ s : State, ∃ r : Req, ∃ x : BitVec 8, ∃ c : Instr, ∃ op : Nat, Takes s r Reg.AGT_CMD ∧ (c, op) ∈ [(Instr.agtVerify r x, 1), (.agtRelease r x, 2), (.agtAdvance r x, 3), (.agtBurn r x, 4), (.agtRevoke r x, 5), (.agtProgkey r x, 6), (.agtLcsadv r x, 7), (.agtAttest r x, 8), (.agtIdkey r x, 9), (.agtCert r x, 10), (.agtSopen r x, 11), (.agtSrecv r x, 12), (.agtSsend r x, 13), (.agtSclose r x, 14)] ∧ (r.id ≠ 16 ∨ r.priv ≠ 2 ∨ s.get Fld.AGT_STAT_BUSY = 1)) :=
  ⟨
    ⟨(State.reset : State), (⟨16, 2⟩ : Req), (0 : BitVec 8), (.agtVerify (⟨16, 2⟩ : Req) (0 : BitVec 8) : Instr), (1 : Nat), by decide +kernel⟩,
    ⟨(State.reset : State), (⟨16, 1⟩ : Req), (0 : BitVec 8), (.agtVerify (⟨16, 1⟩ : Req) (0 : BitVec 8) : Instr), (1 : Nat), by decide +kernel⟩⟩

theorem wit_AgateCompletion :
    (∃ s : State, ∃ c : AgtCmd, s.agt.cmd = some c ∧ s.agtStalled c = false) ∧
    (∃ s : State, ∃ c : AgtCmd, ∃ h : Fin 8, s.agt.cmd = some c ∧ c.op = 2 ∧ c.arg = h.val ∧ s.engHalted h = true) ∧
    (∃ s : State, ∃ c : AgtCmd, s.agt.cmd = some c ∧ c.op = 3 ∧ s.get Fld.AGT_ARB_HEARTH < c.arg ∧ c.arg ≤ 64) ∧
    (∃ s : State, ∃ c : AgtCmd, s.agt.cmd = some c ∧ c.op = 3 ∧ (c.arg ≤ s.get Fld.AGT_ARB_HEARTH ∨ 64 < c.arg)) ∧
    (∃ s : State, ∃ c : AgtCmd, ((∀ k < 4, k ≠ c.arg → s.slotProg k = true → s.slotRevoked k = true)) ∧ s.agt.cmd = some c ∧ c.op = 5 ∧ c.arg < 4) ∧
    (∃ s : State, ∃ x : Sess, s.agt.sess = some x) :=
  ⟨
    ⟨(((fun (s : State) => ({ s with agt := { s.agt with cmd := some (default : AgtCmd) } } : State)) State.reset) : State), (default : AgtCmd), by decide +kernel⟩,
    ⟨(((fun (s : State) => ({ s with agt := { s.agt with cmd := some ({ (default : AgtCmd) with op := 2, arg := (0 : Fin 8).val } : AgtCmd) } } : State)) State.reset) : State), ({ (default : AgtCmd) with op := 2, arg := (0 : Fin 8).val } : AgtCmd), (0 : Fin 8), by decide +kernel⟩,
    ⟨(((fun (s : State) => ({ s with agt := { s.agt with cmd := some ({ (default : AgtCmd) with op := 3, arg := 5 } : AgtCmd) } } : State)) State.reset) : State), ({ (default : AgtCmd) with op := 3, arg := 5 } : AgtCmd), by decide +kernel⟩,
    ⟨(((fun (s : State) => ({ s with agt := { s.agt with cmd := some ({ (default : AgtCmd) with op := 3 } : AgtCmd) } } : State)) State.reset) : State), ({ (default : AgtCmd) with op := 3 } : AgtCmd), by decide +kernel⟩,
    ⟨(((fun (s : State) => ({ s with agt := { s.agt with revoked := [0, 1, 2, 3] } } : State)) ((fun (s : State) => ({ s with agt := { s.agt with cmd := some ({ (default : AgtCmd) with op := 5 } : AgtCmd) } } : State)) State.reset)) : State), ({ (default : AgtCmd) with op := 5 } : AgtCmd), fun k hk _ _ => (Bool.or_eq_true _ _).mpr (Or.inr ((show ∀ j < 4, List.contains [0, 1, 2, 3] j = true from by decide) k hk)), by decide +kernel⟩,
    ⟨(((fun (s : State) => ({ s with agt := { s.agt with sess := some (default : Sess) } } : State)) State.reset) : State), (default : Sess), by decide +kernel⟩⟩

theorem wit_EnginePipeline :
    (∃ n : Fin 32, n ≠ 0) ∧
    (∃ n : Fin 32, ∃ m : Fin 32, n ≠ 0 ∧ m ≠ n) ∧
    (∃ x : Eng, ∃ l : Fin 3, l ≠ x.lvl) ∧
    (∃ n : Fin 32, n.val < 16) ∧
    (∃ x : Eng, ∃ new : List (Nat × EngWrite), ((∀ w ∈ x.writes ++ new, w.1 ≠ 0))) ∧
    (∃ n : Fin 32, n ≠ 0) ∧
    (∃ x : Eng, ∃ n : Fin 32, ∃ v : Word, n ≠ 0 ∧ x.writes = [(0, .g n v)]) ∧
    (∃ n : Fin 32, n ≠ 0) ∧
    (∃ e : Fin 9, ∃ u : State, ∃ n : Fin 32, n ≠ 0 ∧ u.eng[e].slot = none) ∧
    (∃ e : Fin 9, ∃ u : State, ∃ n : Fin 32, ∃ b : Slot, n ≠ 0 ∧ u.eng[e].slot = some b) ∧
    (∃ e : Fin 9, ∃ u : State, ∃ n : Fin 32, ∃ m : Fin 32, n ≠ 0 ∧ u.eng[e].writes = [] ∧ m ≠ n) :=
  ⟨
    ⟨(3 : Fin 32), by decide +kernel⟩,
    ⟨(3 : Fin 32), (4 : Fin 32), by decide +kernel⟩,
    ⟨(default : Eng), (1 : Fin 3), by decide +kernel⟩,
    ⟨(3 : Fin 32), by decide +kernel⟩,
    ⟨(default : Eng), ([] : List (Nat × EngWrite)), by decide +kernel⟩,
    ⟨(3 : Fin 32), by decide +kernel⟩,
    ⟨({ (default : Eng) with writes := [(0, .g (3 : Fin 32) (0 : Word))] } : Eng), (3 : Fin 32), (0 : Word), by decide +kernel⟩,
    ⟨(3 : Fin 32), by decide +kernel⟩,
    ⟨(0 : Fin 9), (State.reset : State), (3 : Fin 32), by decide +kernel⟩,
    ⟨(0 : Fin 9), ({ State.reset with eng := State.reset.eng.set (0 : Fin 9) { State.reset.eng[(0 : Fin 9)] with slot := some (default : Slot) } } : State), (3 : Fin 32), (default : Slot), by decide +kernel⟩,
    ⟨(0 : Fin 9), (State.reset : State), (3 : Fin 32), (4 : Fin 32), by decide +kernel⟩⟩

theorem wit_IntegerInstructions :
    (∃ e : Fin 9, ∃ s : State, ∃ u : State, Executes e s u) ∧
    (∃ e : Fin 9, ∃ s : State, ∃ u : State, ∃ ra : Fin 32, Executes e s u ∧ ra = 0) :=
  ⟨
    ⟨(0 : Fin 9), ((State.reset.engReady (0 : Fin 9)) : State), ((engFetch (0 : Fin 9) ((State.reset.engReady (0 : Fin 9)) : State)).2 : State), executes_nop (by decide +kernel)⟩,
    ⟨(0 : Fin 9), ((State.reset.engReady (0 : Fin 9)) : State), ((engFetch (0 : Fin 9) ((State.reset.engReady (0 : Fin 9)) : State)).2 : State), (0 : Fin 32), executes_nop (by decide +kernel), by decide +kernel⟩⟩

theorem wit_BranchesAndJumps :
    (∃ e : Fin 9, ∃ s : State, ∃ u : State, Executes e s u ∧ u.eng[e].slot = none) ∧
    (∃ e : Fin 9, ∃ s : State, ∃ u : State, ∃ rd : Fin 32, ∃ ra : Fin 32, Executes e s u ∧ u.eng[e].slot = none ∧ ra ≠ rd) :=
  ⟨
    ⟨(0 : Fin 9), ((State.reset.engReady (0 : Fin 9)) : State), ((engFetch (0 : Fin 9) ((State.reset.engReady (0 : Fin 9)) : State)).2 : State), executes_nop (by decide +kernel), by decide +kernel⟩,
    ⟨(0 : Fin 9), ((State.reset.engReady (0 : Fin 9)) : State), ((engFetch (0 : Fin 9) ((State.reset.engReady (0 : Fin 9)) : State)).2 : State), (2 : Fin 32), (1 : Fin 32), executes_nop (by decide +kernel), by decide +kernel⟩⟩

theorem wit_LoadsAndStores :
    (∃ e : Fin 9, ∃ s : State, ∃ u : State, ∃ rt : Fin 32, ∃ an : Fin 8, ∃ am : Fin 4, ∃ sz : Fin 4, ∃ imm : BitVec 14, ∃ va : Nat, ∃ x, x = (u.eng[e]) ∧ ∃ n : Nat, n = (2 ^ sz.val) ∧ ∃ r, r = (engReq e x.status) ∧ ∃ v : Nat, Executes e s u ∧ Plain u r va sz.val false ∧ Holds u.mem va n v ∧ ((u.eng[e].te = false ∨ u.eng[e].priv = 2)) ∧ u.storesWait e = false ∧ ((am = 0 → (va : Int) = ((x.getA an).toNat + imm.toInt * (n : Int)) % 2 ^ 32)) ∧ ((am = 1 → imm.toNat % 512 = 0 ∧ va = ((x.getA an).toNat + (x.getG (Fin.ofNat 32 (imm.toNat / 512))).toNat * n) % 2 ^ 32)) ∧ ((2 ≤ am.val → va = (x.getA an).toNat)) ∧ va % n = 0 ∧ ((sz = 3 → rt.val % 2 = 0)) ∧ sz = 0) ∧
    (∃ e : Fin 9, ∃ s : State, ∃ u : State, ∃ rt : Fin 32, ∃ an : Fin 8, ∃ am : Fin 4, ∃ sz : Fin 4, ∃ imm : BitVec 14, ∃ va : Nat, ∃ x, x = (u.eng[e]) ∧ ∃ n : Nat, n = (2 ^ sz.val) ∧ ∃ r, r = (engReq e x.status) ∧ ∃ v : Nat, Executes e s u ∧ Plain u r va sz.val false ∧ Holds u.mem va n v ∧ ((u.eng[e].te = false ∨ u.eng[e].priv = 2)) ∧ u.storesWait e = false ∧ ((am = 0 → (va : Int) = ((x.getA an).toNat + imm.toInt * (n : Int)) % 2 ^ 32)) ∧ ((am = 1 → imm.toNat % 512 = 0 ∧ va = ((x.getA an).toNat + (x.getG (Fin.ofNat 32 (imm.toNat / 512))).toNat * n) % 2 ^ 32)) ∧ ((2 ≤ am.val → va = (x.getA an).toNat)) ∧ va % n = 0 ∧ ((sz = 3 → rt.val % 2 = 0)) ∧ sz = 1) ∧
    (∃ e : Fin 9, ∃ s : State, ∃ u : State, ∃ rt : Fin 32, ∃ an : Fin 8, ∃ am : Fin 4, ∃ sz : Fin 4, ∃ imm : BitVec 14, ∃ va : Nat, ∃ x, x = (u.eng[e]) ∧ ∃ n : Nat, n = (2 ^ sz.val) ∧ ∃ r, r = (engReq e x.status) ∧ ∃ v : Nat, Executes e s u ∧ Plain u r va sz.val false ∧ Holds u.mem va n v ∧ ((u.eng[e].te = false ∨ u.eng[e].priv = 2)) ∧ u.storesWait e = false ∧ ((am = 0 → (va : Int) = ((x.getA an).toNat + imm.toInt * (n : Int)) % 2 ^ 32)) ∧ ((am = 1 → imm.toNat % 512 = 0 ∧ va = ((x.getA an).toNat + (x.getG (Fin.ofNat 32 (imm.toNat / 512))).toNat * n) % 2 ^ 32)) ∧ ((2 ≤ am.val → va = (x.getA an).toNat)) ∧ va % n = 0 ∧ ((sz = 3 → rt.val % 2 = 0)) ∧ sz = 2) ∧
    (∃ e : Fin 9, ∃ s : State, ∃ u : State, ∃ rt : Fin 32, ∃ an : Fin 8, ∃ am : Fin 4, ∃ sz : Fin 4, ∃ imm : BitVec 14, ∃ va : Nat, ∃ x, x = (u.eng[e]) ∧ ∃ n : Nat, n = (2 ^ sz.val) ∧ ∃ r, r = (engReq e x.status) ∧ ∃ v : Nat, Executes e s u ∧ Plain u r va sz.val false ∧ Holds u.mem va n v ∧ ((u.eng[e].te = false ∨ u.eng[e].priv = 2)) ∧ u.storesWait e = false ∧ ((am = 0 → (va : Int) = ((x.getA an).toNat + imm.toInt * (n : Int)) % 2 ^ 32)) ∧ ((am = 1 → imm.toNat % 512 = 0 ∧ va = ((x.getA an).toNat + (x.getG (Fin.ofNat 32 (imm.toNat / 512))).toNat * n) % 2 ^ 32)) ∧ ((2 ≤ am.val → va = (x.getA an).toNat)) ∧ va % n = 0 ∧ ((sz = 3 → rt.val % 2 = 0)) ∧ sz = 3) ∧
    (∃ e : Fin 9, ∃ s : State, ∃ u : State, ∃ rt : Fin 32, ∃ an : Fin 8, ∃ am : Fin 4, ∃ sz : Fin 4, ∃ imm : BitVec 14, ∃ va : Nat, ∃ x, x = (u.eng[e]) ∧ ∃ n : Nat, n = (2 ^ sz.val) ∧ ∃ r, r = (engReq e x.status) ∧ Executes e s u ∧ Plain u r va sz.val true ∧ ((u.eng[e].te = false ∨ u.eng[e].priv = 2)) ∧ u.storesWait e = false ∧ ((am = 0 → (va : Int) = ((x.getA an).toNat + imm.toInt * (n : Int)) % 2 ^ 32)) ∧ ((am = 1 → imm.toNat % 512 = 0 ∧ va = ((x.getA an).toNat + (x.getG (Fin.ofNat 32 (imm.toNat / 512))).toNat * n) % 2 ^ 32)) ∧ ((2 ≤ am.val → va = (x.getA an).toNat)) ∧ va % n = 0 ∧ ((sz = 3 → rt.val % 2 = 0)) ∧ u.protectedAt va n = false ∧ u.writeWaits va n = false) ∧
    (∃ e : Fin 9, ∃ s : State, ∃ u : State, ∃ sel : Fin 4, ∃ k : Fin 3, Executes e s u ∧ ((u.eng[e].te = false ∨ u.eng[e].priv = 2)) ∧ u.storesWait e = false ∧ sel.val = k.val) :=
  ⟨
    ⟨(8 : Fin 9), (((fun (s : State) => ({ s with eng := s.eng.set (8 : Fin 9) { s.eng[(8 : Fin 9)] with a := Vector.replicate 4 0x00100100#32 } } : State)) (State.reset.engReady (8 : Fin 9))) : State), ((engFetch (8 : Fin 9) (((fun (s : State) => ({ s with eng := s.eng.set (8 : Fin 9) { s.eng[(8 : Fin 9)] with a := Vector.replicate 4 0x00100100#32 } } : State)) (State.reset.engReady (8 : Fin 9))) : State)).2 : State), (2 : Fin 32), (0 : Fin 8), (0 : Fin 4), (0 : Fin 4), (0 : BitVec 14), (0x00100100 : Nat), _, rfl, _, rfl, _, rfl, (0 : Nat), executes_nop (by decide +kernel), (plain_iff ..).mpr (by decide +kernel), (holds_iff ..).mpr (by decide +kernel), by decide +kernel⟩,
    ⟨(8 : Fin 9), (((fun (s : State) => ({ s with eng := s.eng.set (8 : Fin 9) { s.eng[(8 : Fin 9)] with a := Vector.replicate 4 0x00100100#32 } } : State)) (State.reset.engReady (8 : Fin 9))) : State), ((engFetch (8 : Fin 9) (((fun (s : State) => ({ s with eng := s.eng.set (8 : Fin 9) { s.eng[(8 : Fin 9)] with a := Vector.replicate 4 0x00100100#32 } } : State)) (State.reset.engReady (8 : Fin 9))) : State)).2 : State), (2 : Fin 32), (0 : Fin 8), (0 : Fin 4), (1 : Fin 4), (0 : BitVec 14), (0x00100100 : Nat), _, rfl, _, rfl, _, rfl, (0 : Nat), executes_nop (by decide +kernel), (plain_iff ..).mpr (by decide +kernel), (holds_iff ..).mpr (by decide +kernel), by decide +kernel⟩,
    ⟨(8 : Fin 9), (((fun (s : State) => ({ s with eng := s.eng.set (8 : Fin 9) { s.eng[(8 : Fin 9)] with a := Vector.replicate 4 0x00100100#32 } } : State)) (State.reset.engReady (8 : Fin 9))) : State), ((engFetch (8 : Fin 9) (((fun (s : State) => ({ s with eng := s.eng.set (8 : Fin 9) { s.eng[(8 : Fin 9)] with a := Vector.replicate 4 0x00100100#32 } } : State)) (State.reset.engReady (8 : Fin 9))) : State)).2 : State), (2 : Fin 32), (0 : Fin 8), (0 : Fin 4), (2 : Fin 4), (0 : BitVec 14), (0x00100100 : Nat), _, rfl, _, rfl, _, rfl, (0 : Nat), executes_nop (by decide +kernel), (plain_iff ..).mpr (by decide +kernel), (holds_iff ..).mpr (by decide +kernel), by decide +kernel⟩,
    ⟨(8 : Fin 9), (((fun (s : State) => ({ s with eng := s.eng.set (8 : Fin 9) { s.eng[(8 : Fin 9)] with a := Vector.replicate 4 0x00100100#32 } } : State)) (State.reset.engReady (8 : Fin 9))) : State), ((engFetch (8 : Fin 9) (((fun (s : State) => ({ s with eng := s.eng.set (8 : Fin 9) { s.eng[(8 : Fin 9)] with a := Vector.replicate 4 0x00100100#32 } } : State)) (State.reset.engReady (8 : Fin 9))) : State)).2 : State), (2 : Fin 32), (0 : Fin 8), (0 : Fin 4), (3 : Fin 4), (0 : BitVec 14), (0x00100100 : Nat), _, rfl, _, rfl, _, rfl, (0 : Nat), executes_nop (by decide +kernel), (plain_iff ..).mpr (by decide +kernel), (holds_iff ..).mpr (by decide +kernel), by decide +kernel⟩,
    ⟨(8 : Fin 9), (((fun (s : State) => ({ s with eng := s.eng.set (8 : Fin 9) { s.eng[(8 : Fin 9)] with a := Vector.replicate 4 0x00100100#32 } } : State)) (State.reset.engReady (8 : Fin 9))) : State), ((engFetch (8 : Fin 9) (((fun (s : State) => ({ s with eng := s.eng.set (8 : Fin 9) { s.eng[(8 : Fin 9)] with a := Vector.replicate 4 0x00100100#32 } } : State)) (State.reset.engReady (8 : Fin 9))) : State)).2 : State), (2 : Fin 32), (0 : Fin 8), (0 : Fin 4), (0 : Fin 4), (0 : BitVec 14), (0x00100100 : Nat), _, rfl, _, rfl, _, rfl, executes_nop (by decide +kernel), (plain_iff ..).mpr (by decide +kernel), by decide +kernel⟩,
    ⟨(8 : Fin 9), (((fun (s : State) => ({ s with eng := s.eng.set (8 : Fin 9) { s.eng[(8 : Fin 9)] with a := Vector.replicate 4 0x00100100#32 } } : State)) (State.reset.engReady (8 : Fin 9))) : State), ((engFetch (8 : Fin 9) (((fun (s : State) => ({ s with eng := s.eng.set (8 : Fin 9) { s.eng[(8 : Fin 9)] with a := Vector.replicate 4 0x00100100#32 } } : State)) (State.reset.engReady (8 : Fin 9))) : State)).2 : State), (0 : Fin 4), (0 : Fin 3), executes_nop (by decide +kernel), by decide +kernel⟩⟩

theorem wit_ComplexArithmetic :
    (∃ e : Fin 9, ∃ s : State, ∃ u : State, Executes e s u) ∧
    (∃ e : Fin 9, ∃ s : State, ∃ u : State, ∃ part : Fin 32, Executes e s u ∧ part = 0) ∧
    (∃ e : Fin 9, ∃ s : State, ∃ u : State, ∃ part : Fin 32, Executes e s u ∧ part = 1) ∧
    (∃ e : Fin 9, ∃ s : State, ∃ u : State, ∃ part : Fin 32, Executes e s u ∧ part = 2) ∧
    (∃ e : Fin 9, ∃ s : State, ∃ u : State, ∃ part : Fin 32, Executes e s u ∧ part.val ≤ 2) ∧
    (∃ A : Acc, ∃ p : Nat, p ≤ 2 ∧ -(2 ^ 39) ≤ A.re ∧ A.re < 2 ^ 39 ∧ -(2 ^ 39) ≤ A.im ∧ A.im < 2 ^ 39) ∧
    (∃ A : Acc, ∃ p : Nat, ∃ q : Nat, p ≤ 2 ∧ -(2 ^ 39) ≤ A.re ∧ A.re < 2 ^ 39 ∧ -(2 ^ 39) ≤ A.im ∧ A.im < 2 ^ 39 ∧ q ≤ 2 ∧ q ≠ p) :=
  ⟨
    ⟨(0 : Fin 9), ((State.reset.engReady (0 : Fin 9)) : State), ((engFetch (0 : Fin 9) ((State.reset.engReady (0 : Fin 9)) : State)).2 : State), executes_nop (by decide +kernel)⟩,
    ⟨(0 : Fin 9), ((State.reset.engReady (0 : Fin 9)) : State), ((engFetch (0 : Fin 9) ((State.reset.engReady (0 : Fin 9)) : State)).2 : State), (0 : Fin 32), executes_nop (by decide +kernel), by decide +kernel⟩,
    ⟨(0 : Fin 9), ((State.reset.engReady (0 : Fin 9)) : State), ((engFetch (0 : Fin 9) ((State.reset.engReady (0 : Fin 9)) : State)).2 : State), (1 : Fin 32), executes_nop (by decide +kernel), by decide +kernel⟩,
    ⟨(0 : Fin 9), ((State.reset.engReady (0 : Fin 9)) : State), ((engFetch (0 : Fin 9) ((State.reset.engReady (0 : Fin 9)) : State)).2 : State), (2 : Fin 32), executes_nop (by decide +kernel), by decide +kernel⟩,
    ⟨(0 : Fin 9), ((State.reset.engReady (0 : Fin 9)) : State), ((engFetch (0 : Fin 9) ((State.reset.engReady (0 : Fin 9)) : State)).2 : State), (0 : Fin 32), executes_nop (by decide +kernel), by decide +kernel⟩,
    ⟨(default : Acc), (0 : Nat), by decide +kernel⟩,
    ⟨(default : Acc), (0 : Nat), (1 : Nat), by decide +kernel⟩⟩

theorem wit_Streaming :
    (∃ e : Fin 9, ∃ s : State, ∃ u : State, ∃ rc : Fin 32, ∃ rd : Fin 32, ∃ mode : Fin 16, Executes e s u ∧ ((u.eng[e].te = false ∨ u.eng[e].priv = 2)) ∧ u.storesWait e = false ∧ u.mayCut e = false ∧ u.eng[e].rsmNow.msb = false ∧ u.eng[e].getG rc = 0 ∧ rd.val % 2 = 0 ∧ mode.val ≤ 1) ∧
    (∃ e : Fin 9, ∃ s : State, ∃ u : State, ∃ ax : Fin 8, ∃ ay : Fin 8, ∃ rc : Fin 32, ∃ N : Nat, ∃ X : Nat → Word, ∃ Y : Nat → Word, Executes e s u ∧ ((∀ j < N, ∀ n : Fin 8, n = ax ∨ n = ay → Plain u (engReq e u.eng[e].status) ((u.eng[e].getA n).toNat + 4 * j) 2 false ∧ Holds u.mem ((u.eng[e].getA n).toNat + 4 * j) 4 (if n = ax then X j else Y j).toNat)) ∧ ((u.eng[e].te = false ∨ u.eng[e].priv = 2)) ∧ u.storesWait e = false ∧ u.mayCut e = false ∧ u.eng[e].rsmNow.msb = false ∧ N = (u.eng[e].getG rc).toNat ∧ 0 < N ∧ N < 2 ^ 24 ∧ ax ≠ ay ∧ ((∀ n : Fin 8, n = ax ∨ n = ay → u.eng[e].getM n = 4 ∧ u.eng[e].getL n = 0 ∧ (u.eng[e].getA n).toNat % 4 = 0 ∧ (u.eng[e].getA n).toNat + 4 * N < 2 ^ 32))) ∧
    (∃ e : Fin 9, ∃ s : State, ∃ u : State, ∃ rd : Fin 32, ∃ rc : Fin 32, ∃ ax : Fin 8, ∃ N : Nat, ∃ X : Nat → Word, ∃ mode : Fin 16, Executes e s u ∧ ((∀ j < N, Plain u (engReq e u.eng[e].status) ((u.eng[e].getA ax).toNat + 4 * j) 2 false ∧ Holds u.mem ((u.eng[e].getA ax).toNat + 4 * j) 4 (X j).toNat)) ∧ ((u.eng[e].te = false ∨ u.eng[e].priv = 2)) ∧ u.storesWait e = false ∧ u.mayCut e = false ∧ u.eng[e].rsmNow.msb = false ∧ N = (u.eng[e].getG rc).toNat ∧ 0 < N ∧ N < 2 ^ 24 ∧ rd.val % 2 = 0 ∧ u.eng[e].getM ax = 4 ∧ u.eng[e].getL ax = 0 ∧ (u.eng[e].getA ax).toNat % 4 = 0 ∧ (u.eng[e].getA ax).toNat + 4 * N < 2 ^ 32 ∧ mode.val ≤ 1) :=
  ⟨
    ⟨(0 : Fin 9), ((State.reset.engReady (0 : Fin 9)) : State), ((engFetch (0 : Fin 9) ((State.reset.engReady (0 : Fin 9)) : State)).2 : State), (0 : Fin 32), (0 : Fin 32), (0 : Fin 16), executes_nop (by decide +kernel), by decide +kernel⟩,
    ⟨(0 : Fin 9), (((fun (s : State) => ({ s with mem := [(0x10000100, 4#8), (0x10000200, 2#8), (0x10000202, 1#8)] } : State)) ((fun (s : State) => ({ s with eng := s.eng.set (0 : Fin 9) { (s.eng[(0 : Fin 9)].setG 17 1#32) with a := #v[0x10000200#32, 0x10000200#32, 0#32, 0#32], m := #v[4#32, 4#32, 0#32, 0#32] } } : State)) (State.reset.engReady (0 : Fin 9)))) : State), ((engFetch (0 : Fin 9) (((fun (s : State) => ({ s with mem := [(0x10000100, 4#8), (0x10000200, 2#8), (0x10000202, 1#8)] } : State)) ((fun (s : State) => ({ s with eng := s.eng.set (0 : Fin 9) { (s.eng[(0 : Fin 9)].setG 17 1#32) with a := #v[0x10000200#32, 0x10000200#32, 0#32, 0#32], m := #v[4#32, 4#32, 0#32, 0#32] } } : State)) (State.reset.engReady (0 : Fin 9)))) : State)).2 : State), (0 : Fin 8), (1 : Fin 8), (17 : Fin 32), (1 : Nat), (fun _ => 0x00010002#32 : Nat → Word), (fun _ => 0x00010002#32 : Nat → Word), executes_nop (by decide +kernel), by simp only [plain_iff, holds_iff]; decide +kernel, by decide +kernel⟩,
    ⟨(0 : Fin 9), (((fun (s : State) => ({ s with mem := [(0x10000100, 4#8), (0x10000200, 2#8), (0x10000202, 1#8)] } : State)) ((fun (s : State) => ({ s with eng := s.eng.set (0 : Fin 9) { (s.eng[(0 : Fin 9)].setG 17 1#32) with a := #v[0x10000200#32, 0x10000200#32, 0#32, 0#32], m := #v[4#32, 4#32, 0#32, 0#32] } } : State)) (State.reset.engReady (0 : Fin 9)))) : State), ((engFetch (0 : Fin 9) (((fun (s : State) => ({ s with mem := [(0x10000100, 4#8), (0x10000200, 2#8), (0x10000202, 1#8)] } : State)) ((fun (s : State) => ({ s with eng := s.eng.set (0 : Fin 9) { (s.eng[(0 : Fin 9)].setG 17 1#32) with a := #v[0x10000200#32, 0x10000200#32, 0#32, 0#32], m := #v[4#32, 4#32, 0#32, 0#32] } } : State)) (State.reset.engReady (0 : Fin 9)))) : State)).2 : State), (0 : Fin 32), (17 : Fin 32), (0 : Fin 8), (1 : Nat), (fun _ => 0x00010002#32 : Nat → Word), (0 : Fin 16), executes_nop (by decide +kernel), by simp only [plain_iff, holds_iff]; decide +kernel, by decide +kernel⟩⟩

theorem wit_EngineExceptions :
    (∃ e : Fin 9, ∃ s : State, ∃ u : State, Executes e s u ∧ AtBase e u ∧ u.eng[e].vbase.toNat % 4096 = 0 ∧ u.eng[e].priv ≠ 2) ∧
    (∃ e : Fin 9, ∃ s : State, ∃ u : State, Executes e s u ∧ AtBase e u ∧ u.eng[e].vbase.toNat % 4096 = 0 ∧ u.eng[e].priv ≠ 2) ∧
    (∃ e : Fin 9, ∃ s : State, ∃ u : State, Executes e s u ∧ AtBase e u ∧ u.eng[e].vbase.toNat % 4096 = 0 ∧ u.eng[e].priv ≠ 2 ∧ e.val < 8) ∧
    (∃ e : Fin 9, ∃ s : State, ∃ u : State, ∃ rd : Fin 32, ∃ ra : Fin 32, Executes e s u ∧ AtBase e u ∧ u.eng[e].vbase.toNat % 4096 = 0 ∧ u.eng[e].priv ≠ 2 ∧ (rd ≠ 0 ∨ ra ≠ 0)) ∧
    (∃ e : Fin 9, ∃ s : State, ∃ u : State, ∃ ra : Fin 32, Executes e s u ∧ AtBase e u ∧ u.eng[e].vbase.toNat % 4096 = 0 ∧ u.eng[e].priv ≠ 2 ∧ ra ≠ 0) ∧
    (∃ e : Fin 9, ∃ s : State, ∃ u : State, Executes e s u ∧ AtBase e u ∧ u.eng[e].vbase.toNat % 4096 = 0 ∧ u.eng[e].priv ≠ 2) ∧
    (∃ e : Fin 9, ∃ s : State, ∃ u : State, Executes e s u ∧ AtBase e u ∧ u.eng[e].vbase.toNat % 4096 = 0 ∧ u.eng[e].priv ≠ 2) ∧
    (∃ e : Fin 9, ∃ s : State, ∃ u : State, ∃ imm : BitVec 16, Executes e s u ∧ AtBase e u ∧ u.eng[e].vbase.toNat % 4096 = 0 ∧ u.eng[e].priv ≠ 2 ∧ imm ≠ 0) ∧
    (∃ e : Fin 9, ∃ s : State, ∃ u : State, ∃ ra : Fin 32, Executes e s u ∧ AtBase e u ∧ u.eng[e].vbase.toNat % 4096 = 0 ∧ u.eng[e].priv ≠ 2 ∧ ra ≠ 0) ∧
    (∃ e : Fin 9, ∃ s : State, ∃ u : State, ∃ rt : Fin 32, Executes e s u ∧ AtBase e u ∧ u.eng[e].vbase.toNat % 4096 = 0 ∧ u.eng[e].priv ≠ 2 ∧ rt.val % 2 = 1) ∧
    (∃ e : Fin 9, ∃ s : State, ∃ u : State, ∃ imm : BitVec 14, Executes e s u ∧ AtBase e u ∧ u.eng[e].vbase.toNat % 4096 = 0 ∧ u.eng[e].priv ≠ 2 ∧ imm.toNat % 512 ≠ 0) ∧
    (∃ e : Fin 9, ∃ s : State, ∃ u : State, ∃ part : Fin 32, Executes e s u ∧ AtBase e u ∧ u.eng[e].vbase.toNat % 4096 = 0 ∧ u.eng[e].priv ≠ 2 ∧ 2 < part.val) ∧
    (∃ e : Fin 9, ∃ s : State, ∃ u : State, ∃ rd : Fin 32, ∃ ay : Fin 8, ∃ mode : Fin 16, Executes e s u ∧ AtBase e u ∧ u.eng[e].vbase.toNat % 4096 = 0 ∧ u.eng[e].priv ≠ 2 ∧ (rd.val % 2 = 1 ∨ ay ≠ 0 ∨ 1 < mode.val)) ∧
    (∃ e : Fin 9, ∃ s : State, ∃ u : State, ∃ rd : Fin 32, Executes e s u ∧ AtBase e u ∧ u.eng[e].vbase.toNat % 4096 = 0 ∧ u.eng[e].priv ≠ 2 ∧ rd.val % 2 = 1) ∧
    (∃ e : Fin 9, ∃ s : State, ∃ u : State, Executes e s u ∧ AtBase e u ∧ u.eng[e].vbase.toNat % 4096 = 0 ∧ u.eng[e].priv ≠ 2 ∧ 8 ≤ e.val) ∧
    (∃ e : Fin 9, ∃ s : State, ∃ u : State, ∃ x, x = (u.eng[e]) ∧ Executes e s u ∧ AtBase e u ∧ u.eng[e].vbase.toNat % 4096 = 0 ∧ u.eng[e].priv ≠ 2 ∧ x.priv = 0) ∧
    (∃ s : State, ∃ u : State, Executes 8 s u ∧ AtBase 8 u ∧ u.eng[8].vbase.toNat % 4096 = 0 ∧ u.eng[8].vbase.toNat + 0x300 < 2 ^ 32) ∧
    (∃ h : Fin 8, ∃ s : State, ∃ u : State, Executes (hEng h) s u ∧ u.eng[hEng h].slot = none ∧ ((u.eng[hEng h].exc = true ∨ u.eng[hEng h].lvl ≠ 0))) ∧
    (∃ h : Fin 8, ∃ s : State, ∃ u : State, ∃ k : Fin 9, Executes (hEng h) s u ∧ u.eng[hEng h].slot = none ∧ ((u.eng[hEng h].exc = true ∨ u.eng[hEng h].lvl ≠ 0)) ∧ k ≠ hEng h) ∧
    (∃ e : Fin 9, ∃ s : State, ∃ u : State, ∃ w : Nat, AtBase e u ∧ s.eng[e].runs = true ∧ engFetch e s = (.ok w, u) ∧ wimakoWord e w = false ∧ ((∀ h : Fin 8, hEng h = e → u.get (Fld.ENG_CTRL_HALT.h h) = 0)) ∧ u.eng[e].vbase.toNat % 4096 = 0 ∧ u.eng[e].priv ≠ 2) ∧
    (∃ e : Fin 9, ∃ s : State, ∃ u : State, ∃ w : Nat, AtBase e u ∧ s.eng[e].runs = true ∧ engFetch e s = (.ok w, u) ∧ wimakoWord e w = false ∧ ((∀ h : Fin 8, hEng h = e → u.get (Fld.ENG_CTRL_HALT.h h) = 0)) ∧ u.eng[e].vbase.toNat % 4096 = 0 ∧ u.eng[e].priv ≠ 2) ∧
    (∃ e : Fin 9, ∃ s : State, ∃ u : State, ∃ w : Nat, AtBase e u ∧ s.eng[e].runs = true ∧ engFetch e s = (.ok w, u) ∧ wimakoWord e w = false ∧ ((∀ h : Fin 8, hEng h = e → u.get (Fld.ENG_CTRL_HALT.h h) = 0)) ∧ u.eng[e].vbase.toNat % 4096 = 0 ∧ u.eng[e].priv ≠ 2) ∧
    (∃ e : Fin 9, ∃ s : State, ∃ u : State, ∃ w : Nat, AtBase e u ∧ s.eng[e].runs = true ∧ engFetch e s = (.ok w, u) ∧ wimakoWord e w = false ∧ ((∀ h : Fin 8, hEng h = e → u.get (Fld.ENG_CTRL_HALT.h h) = 0)) ∧ u.eng[e].vbase.toNat % 4096 = 0 ∧ u.eng[e].priv ≠ 2) ∧
    (∃ e : Fin 9, ∃ s : State, ∃ u : State, ∃ w : Nat, AtBase e u ∧ s.eng[e].runs = true ∧ engFetch e s = (.ok w, u) ∧ wimakoWord e w = false ∧ ((∀ h : Fin 8, hEng h = e → u.get (Fld.ENG_CTRL_HALT.h h) = 0)) ∧ u.eng[e].vbase.toNat % 4096 = 0 ∧ u.eng[e].priv ≠ 2) :=
  ⟨
    ⟨(0 : Fin 9), ((State.reset.engReady (0 : Fin 9)) : State), ((engFetch (0 : Fin 9) ((State.reset.engReady (0 : Fin 9)) : State)).2 : State), executes_nop (by decide +kernel), atBase_iff.mpr (by decide +kernel), by decide +kernel⟩,
    ⟨(0 : Fin 9), ((State.reset.engReady (0 : Fin 9)) : State), ((engFetch (0 : Fin 9) ((State.reset.engReady (0 : Fin 9)) : State)).2 : State), executes_nop (by decide +kernel), atBase_iff.mpr (by decide +kernel), by decide +kernel⟩,
    ⟨(0 : Fin 9), ((State.reset.engReady (0 : Fin 9)) : State), ((engFetch (0 : Fin 9) ((State.reset.engReady (0 : Fin 9)) : State)).2 : State), executes_nop (by decide +kernel), atBase_iff.mpr (by decide +kernel), by decide +kernel⟩,
    ⟨(0 : Fin 9), ((State.reset.engReady (0 : Fin 9)) : State), ((engFetch (0 : Fin 9) ((State.reset.engReady (0 : Fin 9)) : State)).2 : State), (1 : Fin 32), (0 : Fin 32), executes_nop (by decide +kernel), atBase_iff.mpr (by decide +kernel), by decide +kernel⟩,
    ⟨(0 : Fin 9), ((State.reset.engReady (0 : Fin 9)) : State), ((engFetch (0 : Fin 9) ((State.reset.engReady (0 : Fin 9)) : State)).2 : State), (1 : Fin 32), executes_nop (by decide +kernel), atBase_iff.mpr (by decide +kernel), by decide +kernel⟩,
    ⟨(0 : Fin 9), ((State.reset.engReady (0 : Fin 9)) : State), ((engFetch (0 : Fin 9) ((State.reset.engReady (0 : Fin 9)) : State)).2 : State), executes_nop (by decide +kernel), atBase_iff.mpr (by decide +kernel), by decide +kernel⟩,
    ⟨(0 : Fin 9), ((State.reset.engReady (0 : Fin 9)) : State), ((engFetch (0 : Fin 9) ((State.reset.engReady (0 : Fin 9)) : State)).2 : State), executes_nop (by decide +kernel), atBase_iff.mpr (by decide +kernel), by decide +kernel⟩,
    ⟨(0 : Fin 9), ((State.reset.engReady (0 : Fin 9)) : State), ((engFetch (0 : Fin 9) ((State.reset.engReady (0 : Fin 9)) : State)).2 : State), (1 : BitVec 16), executes_nop (by decide +kernel), atBase_iff.mpr (by decide +kernel), by decide +kernel⟩,
    ⟨(0 : Fin 9), ((State.reset.engReady (0 : Fin 9)) : State), ((engFetch (0 : Fin 9) ((State.reset.engReady (0 : Fin 9)) : State)).2 : State), (1 : Fin 32), executes_nop (by decide +kernel), atBase_iff.mpr (by decide +kernel), by decide +kernel⟩,
    ⟨(0 : Fin 9), ((State.reset.engReady (0 : Fin 9)) : State), ((engFetch (0 : Fin 9) ((State.reset.engReady (0 : Fin 9)) : State)).2 : State), (1 : Fin 32), executes_nop (by decide +kernel), atBase_iff.mpr (by decide +kernel), by decide +kernel⟩,
    ⟨(0 : Fin 9), ((State.reset.engReady (0 : Fin 9)) : State), ((engFetch (0 : Fin 9) ((State.reset.engReady (0 : Fin 9)) : State)).2 : State), (1 : BitVec 14), executes_nop (by decide +kernel), atBase_iff.mpr (by decide +kernel), by decide +kernel⟩,
    ⟨(0 : Fin 9), ((State.reset.engReady (0 : Fin 9)) : State), ((engFetch (0 : Fin 9) ((State.reset.engReady (0 : Fin 9)) : State)).2 : State), (2 + 1 : Fin 32), executes_nop (by decide +kernel), atBase_iff.mpr (by decide +kernel), by decide +kernel⟩,
    ⟨(0 : Fin 9), ((State.reset.engReady (0 : Fin 9)) : State), ((engFetch (0 : Fin 9) ((State.reset.engReady (0 : Fin 9)) : State)).2 : State), (1 : Fin 32), (0 : Fin 8), (0 : Fin 16), executes_nop (by decide +kernel), atBase_iff.mpr (by decide +kernel), by decide +kernel⟩,
    ⟨(0 : Fin 9), ((State.reset.engReady (0 : Fin 9)) : State), ((engFetch (0 : Fin 9) ((State.reset.engReady (0 : Fin 9)) : State)).2 : State), (1 : Fin 32), executes_nop (by decide +kernel), atBase_iff.mpr (by decide +kernel), by decide +kernel⟩,
    ⟨(8 : Fin 9), ((State.reset.engReady (8 : Fin 9)) : State), ((engFetch (8 : Fin 9) ((State.reset.engReady (8 : Fin 9)) : State)).2 : State), executes_nop (by decide +kernel), atBase_iff.mpr (by decide +kernel), by decide +kernel⟩,
    ⟨(0 : Fin 9), (((fun (s : State) => ({ s with eng := s.eng.set (0 : Fin 9) { s.eng[(0 : Fin 9)] with priv := 0 } } : State)) ((fun (s : State) => ({ s with eng := s.eng.set (0 : Fin 9) { s.eng[(0 : Fin 9)] with priv := 0 } } : State)) (State.reset.engReady (0 : Fin 9)))) : State), ((engFetch (0 : Fin 9) (((fun (s : State) => ({ s with eng := s.eng.set (0 : Fin 9) { s.eng[(0 : Fin 9)] with priv := 0 } } : State)) ((fun (s : State) => ({ s with eng := s.eng.set (0 : Fin 9) { s.eng[(0 : Fin 9)] with priv := 0 } } : State)) (State.reset.engReady (0 : Fin 9)))) : State)).2 : State), _, rfl, executes_nop (by decide +kernel), atBase_iff.mpr (by decide +kernel), by decide +kernel⟩,
    ⟨((State.reset.engReady 8) : State), ((engFetch 8 ((State.reset.engReady 8) : State)).2 : State), executes_nop (by decide +kernel), atBase_iff.mpr (by decide +kernel), by decide +kernel⟩,
    ⟨(0 : Fin 8), (((fun (s : State) => ({ s with eng := s.eng.set (hEng (0 : Fin 8)) { s.eng[hEng (0 : Fin 8)] with exc := true } } : State)) (State.reset.engReady (hEng (0 : Fin 8)))) : State), ((engFetch (hEng (0 : Fin 8)) (((fun (s : State) => ({ s with eng := s.eng.set (hEng (0 : Fin 8)) { s.eng[hEng (0 : Fin 8)] with exc := true } } : State)) (State.reset.engReady (hEng (0 : Fin 8)))) : State)).2 : State), executes_nop (by decide +kernel), by decide +kernel⟩,
    ⟨(0 : Fin 8), (((fun (s : State) => ({ s with eng := s.eng.set (hEng (0 : Fin 8)) { s.eng[hEng (0 : Fin 8)] with exc := true } } : State)) (State.reset.engReady (hEng (0 : Fin 8)))) : State), ((engFetch (hEng (0 : Fin 8)) (((fun (s : State) => ({ s with eng := s.eng.set (hEng (0 : Fin 8)) { s.eng[hEng (0 : Fin 8)] with exc := true } } : State)) (State.reset.engReady (hEng (0 : Fin 8)))) : State)).2 : State), (8 : Fin 9), executes_nop (by decide +kernel), by decide +kernel⟩,
    ⟨(0 : Fin 9), (((fun (s : State) => ({ s with eng := s.eng.set (0 : Fin 9) { s.eng[(0 : Fin 9)] with state := 1, pc := 0x10000100 } } : State)) (State.reset.put (Fld.PWR_HSTATE_STATE.sub (0 : Fin 9)) 3)) : State), ((engFetch (0 : Fin 9) (((fun (s : State) => ({ s with eng := s.eng.set (0 : Fin 9) { s.eng[(0 : Fin 9)] with state := 1, pc := 0x10000100 } } : State)) (State.reset.put (Fld.PWR_HSTATE_STATE.sub (0 : Fin 9)) 3)) : State)).2 : State), (0 : Nat), atBase_iff.mpr (by decide +kernel), by decide +kernel⟩,
    ⟨(0 : Fin 9), (((fun (s : State) => ({ s with eng := s.eng.set (0 : Fin 9) { s.eng[(0 : Fin 9)] with state := 1, pc := 0x10000100 } } : State)) (State.reset.put (Fld.PWR_HSTATE_STATE.sub (0 : Fin 9)) 3)) : State), ((engFetch (0 : Fin 9) (((fun (s : State) => ({ s with eng := s.eng.set (0 : Fin 9) { s.eng[(0 : Fin 9)] with state := 1, pc := 0x10000100 } } : State)) (State.reset.put (Fld.PWR_HSTATE_STATE.sub (0 : Fin 9)) 3)) : State)).2 : State), (0 : Nat), atBase_iff.mpr (by decide +kernel), by decide +kernel⟩,
    ⟨(0 : Fin 9), (((fun (s : State) => ({ s with eng := s.eng.set (0 : Fin 9) { s.eng[(0 : Fin 9)] with state := 1, pc := 0x10000100 } } : State)) (State.reset.put (Fld.PWR_HSTATE_STATE.sub (0 : Fin 9)) 3)) : State), ((engFetch (0 : Fin 9) (((fun (s : State) => ({ s with eng := s.eng.set (0 : Fin 9) { s.eng[(0 : Fin 9)] with state := 1, pc := 0x10000100 } } : State)) (State.reset.put (Fld.PWR_HSTATE_STATE.sub (0 : Fin 9)) 3)) : State)).2 : State), (0 : Nat), atBase_iff.mpr (by decide +kernel), by decide +kernel⟩,
    ⟨(0 : Fin 9), (((fun (s : State) => ({ s with eng := s.eng.set (0 : Fin 9) { s.eng[(0 : Fin 9)] with state := 1, pc := 0x10000100 } } : State)) (State.reset.put (Fld.PWR_HSTATE_STATE.sub (0 : Fin 9)) 3)) : State), ((engFetch (0 : Fin 9) (((fun (s : State) => ({ s with eng := s.eng.set (0 : Fin 9) { s.eng[(0 : Fin 9)] with state := 1, pc := 0x10000100 } } : State)) (State.reset.put (Fld.PWR_HSTATE_STATE.sub (0 : Fin 9)) 3)) : State)).2 : State), (0 : Nat), atBase_iff.mpr (by decide +kernel), by decide +kernel⟩,
    ⟨(0 : Fin 9), (((fun (s : State) => ({ s with eng := s.eng.set (0 : Fin 9) { s.eng[(0 : Fin 9)] with state := 1, pc := 0x10000100 } } : State)) (State.reset.put (Fld.PWR_HSTATE_STATE.sub (0 : Fin 9)) 3)) : State), ((engFetch (0 : Fin 9) (((fun (s : State) => ({ s with eng := s.eng.set (0 : Fin 9) { s.eng[(0 : Fin 9)] with state := 1, pc := 0x10000100 } } : State)) (State.reset.put (Fld.PWR_HSTATE_STATE.sub (0 : Fin 9)) 3)) : State)).2 : State), (0 : Nat), atBase_iff.mpr (by decide +kernel), by decide +kernel⟩⟩

theorem wit_EngineTimeAndFences :
    (∃ e : Fin 9, ∃ s : State, ∃ u : State, ∃ rd : Fin 32, Executes e s u ∧ rd.val % 2 = 0) ∧
    (∃ e : Fin 9, ∃ s : State, ∃ u : State, ∃ ra : Fin 32, ∃ x, x = (u.eng[e]) ∧ Executes e s u ∧ 491520000 ≤ (x.getG ra).toNat) ∧
    (∃ e : Fin 9, ∃ s : State, ∃ u : State, ∃ ra : Fin 32, ∃ rb : Fin 32, ∃ x, x = (u.eng[e]) ∧ ∃ T, T = (namedInstant u.now ((x.getG rb).toNat / 2 ^ 29) (x.getG ra).toNat 0) ∧ Executes e s u ∧ (x.getG ra).toNat < 491520000 ∧ T ≤ u.now) ∧
    (∃ e : Fin 9, ∃ s : State, ∃ u : State, ∃ ra : Fin 32, ∃ rb : Fin 32, ∃ x, x = (u.eng[e]) ∧ ∃ T, T = (namedInstant u.now ((x.getG rb).toNat / 2 ^ 29) (x.getG ra).toNat 0) ∧ Executes e s u ∧ (x.getG ra).toNat < 491520000 ∧ (u.now : Int) < T ∧ x.pc % 4 = 0) ∧
    (∃ e : Fin 9, ∃ s : State, ∃ u : State, ∃ x, x = (u.eng[e]) ∧ Executes e s u ∧ x.priv ≠ 0 ∧ 8 ≤ e.val) ∧
    (∃ e : Fin 9, ∃ s : State, ∃ u : State, ∃ x, x = (u.eng[e]) ∧ ∃ h : Fin 8, Executes e s u ∧ x.priv ≠ 0 ∧ hEng h = e ∧ u.evu[h].q.length < 64 ∧ u.evu[h].cross = none) ∧
    (∃ e : Fin 9, ∃ s : State, ∃ u : State, Executes e s u) ∧
    (∃ e : Fin 9, ∃ s : State, ∃ u : State, ∃ x, x = (u.eng[e]) ∧ Executes e s u ∧ u.storesWait e = false ∧ x.bad = []) ∧
    (∃ e : Fin 9, ∃ s : State, ∃ u : State, ∃ x, x = (u.eng[e]) ∧ Executes e s u ∧ u.storesWait e = false ∧ x.bad = [] ∧ e.val < 8) ∧
    (∃ e : Fin 9, ∃ s : State, ∃ u : State, ∃ x, x = (u.eng[e]) ∧ ∃ b : Nat, ∃ l : List Nat, ∃ i : Instr, Executes e s u ∧ AtBase e u ∧ u.storesWait e = false ∧ x.bad = b :: l ∧ x.vbase.toNat % 4096 = 0 ∧ x.priv ≠ 2 ∧ i ∈ [Instr.fenceW e, .fenceRw e, .fenceIo e]) ∧
    (∃ e : Fin 9, ∃ s : State, ∃ u : State, ∃ x, x = (u.eng[e]) ∧ ∃ h : Fin 8, Executes e s u ∧ x.priv ≠ 0 ∧ hEng h = e ∧ u.htgt h = 0) ∧
    (∃ e : Fin 9, ∃ s : State, ∃ u : State, ∃ x, x = (u.eng[e]) ∧ ∃ h : Fin 8, Executes e s u ∧ x.priv ≠ 0 ∧ hEng h = e ∧ u.htgt h ≠ 0 ∧ u.hamletVote h (u.htgt h == 2) = none) ∧
    (∃ e : Fin 9, ∃ s : State, ∃ u : State, ∃ x, x = (u.eng[e]) ∧ ∃ h : Fin 8, ∃ id_ : Nat, Executes e s u ∧ x.priv ≠ 0 ∧ hEng h = e ∧ u.htgt h ≠ 0 ∧ u.hamletVote h (u.htgt h == 2) = some id_ ∧ id_ ≠ 9) ∧
    (∃ e : Fin 9, ∃ s : State, ∃ u : State, ∃ x, x = (u.eng[e]) ∧ Executes e s u ∧ x.priv ≠ 0 ∧ 8 ≤ e.val ∧ u.get Fld.PWR_MODE_DEV = 0) ∧
    (∃ e : Fin 9, ∃ s : State, ∃ due : Nat, ∃ rd : Fin 32, s.eng[e].wait = some (.time due rd) ∧ s.eng[e].state = 1 ∧ s.eng[e].step1.pc % 4 = 0 ∧ ((∀ h : Fin 8, hEng h = e → s.get (Fld.ENG_CTRL_HALT.h h) = 0))) ∧
    (∃ e : Fin 9, ∃ s : State, ∃ b : Nat, ∃ l : List Nat, AtBase e s ∧ s.eng[e].bad = b :: l ∧ s.eng[e].atBoundary = true ∧ s.eng[e].vbase.toNat % 4096 = 0 ∧ s.eng[e].priv ≠ 2 ∧ ((∀ h : Fin 8, hEng h = e → s.get (Fld.ENG_CTRL_HALT.h h) = 0))) ∧
    (∃ e : Fin 9, ∃ s : State, ∃ u : State, Executes e s u ∧ u.storesWait e = true ∧ u.eng[e].pc % 4 = 0) :=
  ⟨
    ⟨(0 : Fin 9), ((State.reset.engReady (0 : Fin 9)) : State), ((engFetch (0 : Fin 9) ((State.reset.engReady (0 : Fin 9)) : State)).2 : State), (0 : Fin 32), executes_nop (by decide +kernel), by decide +kernel⟩,
    ⟨(0 : Fin 9), (((fun (s : State) => ({ s with eng := s.eng.set (0 : Fin 9) (s.eng[(0 : Fin 9)].setG 17 0xFFFFFFFF#32) } : State)) (State.reset.engReady (0 : Fin 9))) : State), ((engFetch (0 : Fin 9) (((fun (s : State) => ({ s with eng := s.eng.set (0 : Fin 9) (s.eng[(0 : Fin 9)].setG 17 0xFFFFFFFF#32) } : State)) (State.reset.engReady (0 : Fin 9))) : State)).2 : State), (17 : Fin 32), _, rfl, executes_nop (by decide +kernel), by decide +kernel⟩,
    ⟨(0 : Fin 9), ((State.reset.engReady (0 : Fin 9)) : State), ((engFetch (0 : Fin 9) ((State.reset.engReady (0 : Fin 9)) : State)).2 : State), (0 : Fin 32), (0 : Fin 32), _, rfl, _, rfl, executes_nop (by decide +kernel), by decide +kernel⟩,
    ⟨(0 : Fin 9), (((fun (s : State) => ({ s with eng := s.eng.set (0 : Fin 9) (s.eng[(0 : Fin 9)].setG 17 1000#32) } : State)) (State.reset.engReady (0 : Fin 9))) : State), ((engFetch (0 : Fin 9) (((fun (s : State) => ({ s with eng := s.eng.set (0 : Fin 9) (s.eng[(0 : Fin 9)].setG 17 1000#32) } : State)) (State.reset.engReady (0 : Fin 9))) : State)).2 : State), (17 : Fin 32), (0 : Fin 32), _, rfl, _, rfl, executes_nop (by decide +kernel), by decide +kernel⟩,
    ⟨(8 : Fin 9), ((State.reset.engReady (8 : Fin 9)) : State), ((engFetch (8 : Fin 9) ((State.reset.engReady (8 : Fin 9)) : State)).2 : State), _, rfl, executes_nop (by decide +kernel), by decide +kernel⟩,
    ⟨(0 : Fin 9), ((State.reset.engReady (0 : Fin 9)) : State), ((engFetch (0 : Fin 9) ((State.reset.engReady (0 : Fin 9)) : State)).2 : State), _, rfl, (0 : Fin 8), executes_nop (by decide +kernel), by decide +kernel⟩,
    ⟨(0 : Fin 9), ((State.reset.engReady (0 : Fin 9)) : State), ((engFetch (0 : Fin 9) ((State.reset.engReady (0 : Fin 9)) : State)).2 : State), executes_nop (by decide +kernel)⟩,
    ⟨(0 : Fin 9), ((State.reset.engReady (0 : Fin 9)) : State), ((engFetch (0 : Fin 9) ((State.reset.engReady (0 : Fin 9)) : State)).2 : State), _, rfl, executes_nop (by decide +kernel), by decide +kernel⟩,
    ⟨(0 : Fin 9), ((State.reset.engReady (0 : Fin 9)) : State), ((engFetch (0 : Fin 9) ((State.reset.engReady (0 : Fin 9)) : State)).2 : State), _, rfl, executes_nop (by decide +kernel), by decide +kernel⟩,
    ⟨(0 : Fin 9), (((fun (s : State) => ({ s with eng := s.eng.set (0 : Fin 9) { s.eng[(0 : Fin 9)] with bad := (5 : Nat) :: ([] : List Nat) } } : State)) ((fun (s : State) => ({ s with eng := s.eng.set (0 : Fin 9) { s.eng[(0 : Fin 9)] with bad := (5 : Nat) :: ([] : List Nat) } } : State)) (State.reset.engReady (0 : Fin 9)))) : State), ((engFetch (0 : Fin 9) (((fun (s : State) => ({ s with eng := s.eng.set (0 : Fin 9) { s.eng[(0 : Fin 9)] with bad := (5 : Nat) :: ([] : List Nat) } } : State)) ((fun (s : State) => ({ s with eng := s.eng.set (0 : Fin 9) { s.eng[(0 : Fin 9)] with bad := (5 : Nat) :: ([] : List Nat) } } : State)) (State.reset.engReady (0 : Fin 9)))) : State)).2 : State), _, rfl, (5 : Nat), ([] : List Nat), (.fenceW (0 : Fin 9) : Instr), executes_nop (by decide +kernel), atBase_iff.mpr (by decide +kernel), by decide +kernel⟩,
    ⟨(0 : Fin 9), ((State.reset.engReady (0 : Fin 9)) : State), ((engFetch (0 : Fin 9) ((State.reset.engReady (0 : Fin 9)) : State)).2 : State), _, rfl, (0 : Fin 8), executes_nop (by decide +kernel), by decide +kernel⟩,
    ⟨(0 : Fin 9), (((State.reset.engReady (0 : Fin 9)).put (Fld.PWR_MODE_HTGT.sub (0 : Fin 8)) 1) : State), ((engFetch (0 : Fin 9) (((State.reset.engReady (0 : Fin 9)).put (Fld.PWR_MODE_HTGT.sub (0 : Fin 8)) 1) : State)).2 : State), _, rfl, (0 : Fin 8), executes_nop (by decide +kernel), by decide +kernel⟩,
    ⟨(0 : Fin 9), ((((State.reset.engReady (0 : Fin 9)).put (Fld.PWR_MODE_HTGT.sub (0 : Fin 8)) 1).put (Fld.SLT_CTRL_ENABLE.h (0 : Fin 8)) 1) : State), ((engFetch (0 : Fin 9) ((((State.reset.engReady (0 : Fin 9)).put (Fld.PWR_MODE_HTGT.sub (0 : Fin 8)) 1).put (Fld.SLT_CTRL_ENABLE.h (0 : Fin 8)) 1) : State)).2 : State), _, rfl, (0 : Fin 8), (1 : Nat), executes_nop (by decide +kernel), by decide +kernel⟩,
    ⟨(8 : Fin 9), ((State.reset.engReady (8 : Fin 9)) : State), ((engFetch (8 : Fin 9) ((State.reset.engReady (8 : Fin 9)) : State)).2 : State), _, rfl, executes_nop (by decide +kernel), by decide +kernel⟩,
    ⟨(0 : Fin 9), (((fun (s : State) => ({ s with eng := (s.eng.set ((0 : Fin 9)) ({ s.eng[(0 : Fin 9)] with state := 1 })) } : State)) ((fun (s : State) => ({ s with eng := (s.eng.set ((0 : Fin 9)) ({ s.eng[(0 : Fin 9)] with wait := some (.time (0 : Nat) (0 : Fin 32)) })) } : State)) State.reset)) : State), (0 : Nat), (0 : Fin 32), by decide +kernel⟩,
    ⟨(0 : Fin 9), (((fun (s : State) => ({ s with eng := s.eng.set (0 : Fin 9) { s.eng[(0 : Fin 9)] with state := 1 } } : State)) ((fun (s : State) => ({ s with eng := (s.eng.set ((0 : Fin 9)) ({ s.eng[(0 : Fin 9)] with bad := (0 : Nat) :: ([] : List Nat) })) } : State)) State.reset)) : State), (0 : Nat), ([] : List Nat), atBase_iff.mpr (by decide +kernel), by decide +kernel⟩,
    ⟨(0 : Fin 9), (((fun (s : State) => ({ s with stalled := [⟨⟨(0 : Fin 9).val, 1⟩, 0x10000100, 2, true, 5, 0x10000100⟩] } : State)) (State.reset.engReady (0 : Fin 9))) : State), ((engFetch (0 : Fin 9) (((fun (s : State) => ({ s with stalled := [⟨⟨(0 : Fin 9).val, 1⟩, 0x10000100, 2, true, 5, 0x10000100⟩] } : State)) (State.reset.engReady (0 : Fin 9))) : State)).2 : State), executes_nop (by decide +kernel), by decide +kernel⟩⟩

theorem wit_EngineControl :
    (∃ e : Fin 9, ∃ s : State, ∃ u : State, ∃ csr : BitVec 10, ∃ x, x = (u.eng[e]) ∧ ∃ p : Nat, Executes e s u ∧ csrPriv e csr.toNat = some p ∧ p ≤ x.priv) ∧
    (∃ e : Fin 9, ∃ s : State, ∃ u : State, ∃ csr : BitVec 10, ∃ x, x = (u.eng[e]) ∧ Executes e s u ∧ AtBase e u ∧ x.vbase.toNat % 4096 = 0 ∧ x.priv ≠ 2 ∧ csrPriv e csr.toNat = none) ∧
    (∃ e : Fin 9, ∃ s : State, ∃ u : State, ∃ csr : BitVec 10, ∃ x, x = (u.eng[e]) ∧ ∃ p : Nat, Executes e s u ∧ AtBase e u ∧ x.vbase.toNat % 4096 = 0 ∧ x.priv ≠ 2 ∧ csrPriv e csr.toNat = some p ∧ x.priv < p) ∧
    (∃ e : Fin 9, ∃ s : State, ∃ u : State, ∃ x, x = (u.eng[e]) ∧ Executes e s u ∧ x.priv ≠ 0) ∧
    (∃ e : Fin 9, ∃ s : State, ∃ u : State, ∃ x, x = (u.eng[e]) ∧ Executes e s u ∧ x.slot = none ∧ x.priv = 1 ∧ x.lvl = 0 ∧ x.ppriv ≤ 1) ∧
    (∃ e : Fin 9, ∃ s : State, ∃ u : State, ∃ x, x = (u.eng[e]) ∧ ∃ l : Fin 2, Executes e s u ∧ x.slot = none ∧ x.priv = 1 ∧ x.lvl.val = l.val + 1 ∧ x.sstat[l].toNat / 2 ^ 12 % 4 ≤ 1 ∧ x.sstat[l].toNat / 2 ^ 8 % 4 ≤ 2) ∧
    (∃ n : Nat, n ∈ [4, 5, 6, 7, 8, 0xB, 0xC, 0xD, 0x10, 0x11, 0x12, 0x13, 0x20, 0x21]) ∧
    (∃ n : Nat, n ∈ [2, 3, 0xE]) ∧
    (∃ e : Fin 9, ∃ s : State, ∃ urgent : Bool, s.irqTaken e (if urgent then 2 else 1) = true ∧ s.eng[e].vbase.toNat % 4096 = 0 ∧ ((∀ h : Fin 8, hEng h = e → s.get (Fld.ENG_CTRL_HALT.h h) = 0))) ∧
    (∃ s : State, ∃ r : Req, ∃ h : Fin 8, ∃ e, e = (hEng h) ∧ ∃ entry, entry = (4 * s.get (Fld.ENG_ENTRY_PC.h h)) ∧ Takes s r (hamletBase h + Reg.ENG_CTRL) ∧ r.id = 16 ∧ s.eng[e].state = 0 ∧ s.entryAccepted h entry = true) ∧
    (∃ s : State, ∃ r : Req, ∃ h : Fin 8, ∃ e, e = (hEng h) ∧ ∃ entry, entry = (4 * s.get (Fld.ENG_ENTRY_PC.h h)) ∧ Takes s r (hamletBase h + Reg.ENG_CTRL) ∧ r.id = 16 ∧ s.eng[e].state = 0 ∧ s.entryAccepted h entry = false) ∧
    (∃ s : State, ∃ r : Req, ∃ h : Fin 8, ∃ e, e = (hEng h) ∧ Takes s r (hamletBase h + Reg.ENG_CTRL) ∧ r.id = 16 ∧ s.eng[e].state = 1 ∧ s.eng[e].quiet = false) ∧
    (∃ s : State, ∃ r : Req, ∃ h : Fin 8, ∃ e, e = (hEng h) ∧ Takes s r (hamletBase h + Reg.ENG_CTRL) ∧ r.id = 16 ∧ s.eng[e].state = 1 ∧ s.eng[e].quiet = true) :=
  ⟨
    ⟨(0 : Fin 9), ((State.reset.engReady (0 : Fin 9)) : State), ((engFetch (0 : Fin 9) ((State.reset.engReady (0 : Fin 9)) : State)).2 : State), (0 : BitVec 10), _, rfl, (0 : Nat), executes_nop (by decide +kernel), by decide +kernel⟩,
    ⟨(0 : Fin 9), ((State.reset.engReady (0 : Fin 9)) : State), ((engFetch (0 : Fin 9) ((State.reset.engReady (0 : Fin 9)) : State)).2 : State), (0x3FF : BitVec 10), _, rfl, executes_nop (by decide +kernel), atBase_iff.mpr (by decide +kernel), by decide +kernel⟩,
    ⟨(0 : Fin 9), (((fun (s : State) => ({ s with eng := s.eng.set (0 : Fin 9) { s.eng[(0 : Fin 9)] with priv := 0 } } : State)) (State.reset.engReady (0 : Fin 9))) : State), ((engFetch (0 : Fin 9) (((fun (s : State) => ({ s with eng := s.eng.set (0 : Fin 9) { s.eng[(0 : Fin 9)] with priv := 0 } } : State)) (State.reset.engReady (0 : Fin 9))) : State)).2 : State), (1 : BitVec 10), _, rfl, (1 : Nat), executes_nop (by decide +kernel), atBase_iff.mpr (by decide +kernel), by decide +kernel⟩,
    ⟨(0 : Fin 9), ((State.reset.engReady (0 : Fin 9)) : State), ((engFetch (0 : Fin 9) ((State.reset.engReady (0 : Fin 9)) : State)).2 : State), _, rfl, executes_nop (by decide +kernel), by decide +kernel⟩,
    ⟨(0 : Fin 9), (((fun (s : State) => ({ s with eng := s.eng.set (0 : Fin 9) { s.eng[(0 : Fin 9)] with priv := 1 } } : State)) (State.reset.engReady (0 : Fin 9))) : State), ((engFetch (0 : Fin 9) (((fun (s : State) => ({ s with eng := s.eng.set (0 : Fin 9) { s.eng[(0 : Fin 9)] with priv := 1 } } : State)) (State.reset.engReady (0 : Fin 9))) : State)).2 : State), _, rfl, executes_nop (by decide +kernel), by decide +kernel⟩,
    ⟨(0 : Fin 9), (((fun (s : State) => ({ s with eng := s.eng.set (0 : Fin 9) { s.eng[(0 : Fin 9)] with lvl := 1, priv := 1 } } : State)) ((fun (s : State) => ({ s with eng := s.eng.set (0 : Fin 9) { s.eng[(0 : Fin 9)] with priv := 1 } } : State)) (State.reset.engReady (0 : Fin 9)))) : State), ((engFetch (0 : Fin 9) (((fun (s : State) => ({ s with eng := s.eng.set (0 : Fin 9) { s.eng[(0 : Fin 9)] with lvl := 1, priv := 1 } } : State)) ((fun (s : State) => ({ s with eng := s.eng.set (0 : Fin 9) { s.eng[(0 : Fin 9)] with priv := 1 } } : State)) (State.reset.engReady (0 : Fin 9)))) : State)).2 : State), _, rfl, (0 : Fin 2), executes_nop (by decide +kernel), by decide +kernel⟩,
    ⟨(4 : Nat), by decide +kernel⟩,
    ⟨(2 : Nat), by decide +kernel⟩,
    ⟨(0 : Fin 9), ((((fun (s : State) => (s.put ((Fld.ENG_IRQCFG_LVL.sub 2).h 0) 1 : State)) ((fun (s : State) => ({ s with eng := s.eng.set (0 : Fin 9) { s.eng[(0 : Fin 9)] with state := 1, ie1 := true } } : State)) State.reset)).put (Fld.ENG_SWI_DOOR.h 0) 1) : State), (false : Bool), by decide +kernel⟩,
    ⟨((((fun (s : State) => ({ s with agt := { s.agt with prot := s.agt.prot.set (0 : Fin 8).val (some ⟨0, 100, 0, []⟩) } } : State)) (State.reset.put (Fld.PWR_HSTATE_STATE.sub ((0 : Fin 8))) 3)).put (Fld.AGT_HIMGh_VALID.i (0 : Fin 8)) 1) : State), (⟨16, 2⟩ : Req), (0 : Fin 8), _, rfl, _, rfl, by decide +kernel⟩,
    ⟨((State.reset.put (Fld.PWR_HSTATE_STATE.sub ((0 : Fin 8))) 3) : State), (⟨16, 2⟩ : Req), (0 : Fin 8), _, rfl, _, rfl, by decide +kernel⟩,
    ⟨(((fun (s : State) => ({ s with eng := s.eng.set (hEng (0 : Fin 8)) { s.eng[hEng (0 : Fin 8)] with state := 1, writes := [(1, .g 3 0)] } } : State)) ((fun (s : State) => ({ s with eng := (s.eng.set ((hEng (0 : Fin 8))) ({ s.eng[(hEng (0 : Fin 8))] with state := 1 })) } : State)) (State.reset.put (Fld.PWR_HSTATE_STATE.sub ((0 : Fin 8))) 3))) : State), (⟨16, 2⟩ : Req), (0 : Fin 8), _, rfl, by decide +kernel⟩,
    ⟨(((fun (s : State) => ({ s with eng := (s.eng.set ((hEng (0 : Fin 8))) ({ s.eng[(hEng (0 : Fin 8))] with state := 1 })) } : State)) (State.reset.put (Fld.PWR_HSTATE_STATE.sub ((0 : Fin 8))) 3)) : State), (⟨16, 2⟩ : Req), (0 : Fin 8), _, rfl, by decide +kernel⟩⟩

theorem wit_DmaCommands :
    (∃ s : State, ∃ r : Req, ∃ h : Fin 8, ∃ c : Fin 8, ∃ v : Word, Takes s r (dmaCtrlAddr h c) ∧ ((r.id = 16 ∨ (r.id = h.val ∧ r.priv = 1))) ∧ v.toNat < 2 ^ 28 ∧ s.dmaSt h c = 0 ∧ s.get (Fld.DMA_CTRL_STOPALL.h h) = 0) ∧
    (∃ s : State, ∃ r : Req, ∃ h : Fin 8, ∃ c : Fin 8, ∃ v : Word, Takes s r (dmaCtrlAddr h c) ∧ ((r.id = 16 ∨ (r.id = h.val ∧ r.priv = 1))) ∧ v.toNat < 2 ^ 28 ∧ (s.dmaSt h c ≠ 0 ∨ s.get (Fld.DMA_CTRL_STOPALL.h h) = 1)) ∧
    (∃ s : State, ∃ r : Req, ∃ h : Fin 8, ∃ c : Fin 8, ∃ v : Word, Takes s r (dmaCtrlAddr h c) ∧ ((r.id = 16 ∨ (r.id = h.val ∧ r.priv = 1))) ∧ v.toNat < 2 ^ 28 ∧ s.dmaSt h c ≠ 0 ∧ (s.dmaCh h c).failed = none) ∧
    (∃ s : State, ∃ r : Req, ∃ h : Fin 8, ∃ c : Fin 8, ∃ v : Word, Takes s r (dmaCtrlAddr h c) ∧ ((r.id = 16 ∨ (r.id = h.val ∧ r.priv = 1))) ∧ v.toNat < 2 ^ 28 ∧ s.dmaSt h c = 0) ∧
    (∃ s : State, ∃ r : Req, ∃ h : Fin 8, ∃ c : Fin 8, ∃ v : Word, Takes s r (dmaCtrlAddr h c) ∧ ((r.id = 16 ∨ (r.id = h.val ∧ r.priv = 1))) ∧ v.toNat < 2 ^ 28 ∧ (s.dmaSt h c = 3 ∨ s.dmaSt h c = 4)) ∧
    (∃ s : State, ∃ r : Req, ∃ h : Fin 8, ∃ c : Fin 8, ∃ v : Word, Takes s r (dmaCtrlAddr h c) ∧ ((r.id = 16 ∨ (r.id = h.val ∧ r.priv = 1))) ∧ v.toNat < 2 ^ 28 ∧ s.dmaSt h c < 3) ∧
    (∃ s : State, ∃ r : Req, ∃ h : Fin 8, ∃ c : Fin 8, ∃ v : Word, Takes s r (dmaCtrlAddr h c) ∧ ((r.id = 16 ∨ (r.id = h.val ∧ r.priv = 1))) ∧ v.toNat < 2 ^ 28 ∧ edgePaced (s.get (dmaF Fld.DMA_CHn_CFG_TRIG h c)) = true ∧ s.dmaSt h c ≠ 0 ∧ s.dmaSt h c ≠ 2 ∧ s.get (dmaF Fld.DMA_CHn_STAT_PENDTRG h c) < 255) ∧
    (∃ s : State, ∃ r : Req, ∃ h : Fin 8, ∃ c : Fin 8, ∃ v : Word, Takes s r (dmaCtrlAddr h c) ∧ ((r.id = 16 ∨ (r.id = h.val ∧ r.priv = 1))) ∧ v.toNat < 2 ^ 28 ∧ edgePaced (s.get (dmaF Fld.DMA_CHn_CFG_TRIG h c)) = false) ∧
    (∃ s : State, ∃ r : Req, ∃ h : Fin 8, Takes s r (hamletBase h + Reg.DMA_CTRL) ∧ r.id = 16 ∧ ((∀ c : Fin 8, (s.dmaCh h c).failed = none))) ∧
    (∃ s : State, ∃ r : Req, ∃ h : Fin 8, Takes s r (hamletBase h + Reg.DMA_CTRL) ∧ r.id ≠ 16) :=
  ⟨
    ⟨(((State.reset.put (Fld.PWR_HSTATE_STATE.sub ((0 : Fin 8))) 3).setDmaSt (0 : Fin 8) (0 : Fin 8) 0) : State), (⟨16, 2⟩ : Req), (0 : Fin 8), (0 : Fin 8), (0 : Word), by decide +kernel⟩,
    ⟨(((State.reset.put (Fld.PWR_HSTATE_STATE.sub ((0 : Fin 8))) 3).setDmaSt (0 : Fin 8) (0 : Fin 8) 1) : State), (⟨16, 2⟩ : Req), (0 : Fin 8), (0 : Fin 8), (0 : Word), by decide +kernel⟩,
    ⟨(((State.reset.put (Fld.PWR_HSTATE_STATE.sub ((0 : Fin 8))) 3).setDmaSt (0 : Fin 8) (0 : Fin 8) 1) : State), (⟨16, 2⟩ : Req), (0 : Fin 8), (0 : Fin 8), (0 : Word), by decide +kernel⟩,
    ⟨(((State.reset.put (Fld.PWR_HSTATE_STATE.sub ((0 : Fin 8))) 3).setDmaSt (0 : Fin 8) (0 : Fin 8) 0) : State), (⟨16, 2⟩ : Req), (0 : Fin 8), (0 : Fin 8), (0 : Word), by decide +kernel⟩,
    ⟨(((State.reset.put (Fld.PWR_HSTATE_STATE.sub ((0 : Fin 8))) 3).setDmaSt (0 : Fin 8) (0 : Fin 8) 3) : State), (⟨16, 2⟩ : Req), (0 : Fin 8), (0 : Fin 8), (0 : Word), by decide +kernel⟩,
    ⟨((State.reset.put (Fld.PWR_HSTATE_STATE.sub ((0 : Fin 8))) 3) : State), (⟨16, 2⟩ : Req), (0 : Fin 8), (0 : Fin 8), (0 : Word), by decide +kernel⟩,
    ⟨(((((State.reset.put (Fld.PWR_HSTATE_STATE.sub ((0 : Fin 8))) 3).setDmaSt (0 : Fin 8) (0 : Fin 8) 1).setDmaSt (0 : Fin 8) (0 : Fin 8) 1).put (dmaF Fld.DMA_CHn_CFG_TRIG (0 : Fin 8) (0 : Fin 8)) 1) : State), (⟨16, 2⟩ : Req), (0 : Fin 8), (0 : Fin 8), (0 : Word), by decide +kernel⟩,
    ⟨((State.reset.put (Fld.PWR_HSTATE_STATE.sub ((0 : Fin 8))) 3) : State), (⟨16, 2⟩ : Req), (0 : Fin 8), (0 : Fin 8), (0 : Word), by decide +kernel⟩,
    ⟨((State.reset.put (Fld.PWR_HSTATE_STATE.sub ((0 : Fin 8))) 3) : State), (⟨16, 2⟩ : Req), (0 : Fin 8), by decide +kernel⟩,
    ⟨((State.reset.put (Fld.PWR_HSTATE_STATE.sub ((0 : Fin 8))) 3) : State), (⟨0, 0⟩ : Req), (0 : Fin 8), by decide +kernel⟩⟩

theorem wit_DmaTransfers :
    (∃ s : State, ∃ h : Fin 8, ∃ c : Fin 8, ∃ x, x = (s.dmaCh h c) ∧ ∃ r, r = (dmaReq h) ∧ ∃ W : List Word, ((∀ k < 4, Plain s r (x.next + 8 * k) 3 false)) ∧ ((∀ k < 8, Holds s.mem (x.next + 4 * k) 4 (W.getD k 0).toNat)) ∧ s.dmaSt h c = 1 ∧ s.dmaHeld h = false ∧ s.dmaTurn h false = some c ∧ x.desc = [] ∧ s.get (dmaF Fld.DMA_CHn_CFG_TE h c) = 0 ∧ W.length = 8 ∧ x.next % 32 = 0 ∧ x.next < 2 ^ 32 ∧ descError W (s.get (dmaF Fld.DMA_CHn_RLEN_LEN h c)) = false ∧ s.get (dmaF Fld.DMA_CHn_CFG_TRIG h c) = 0) ∧
    (∃ s : State, ∃ h : Fin 8, ∃ c : Fin 8, ∃ x, x = (s.dmaCh h c) ∧ ∃ info : Nat, ∃ u : State, s.dmaSt h c = 1 ∧ s.dmaHeld h = false ∧ s.dmaTurn h false = some c ∧ x.desc = [] ∧ dmaXlat h c false x.next s = (.page info, u) ∧ u.regs = s.regs ∧ info < 4 ∧ x.next % 32 = 0 ∧ x.next < 2 ^ 32) ∧
    (∃ s : State, ∃ h : Fin 8, ∃ c : Fin 8, ∃ x, x = (s.dmaCh h c) ∧ ∃ r, r = (dmaReq h) ∧ ∃ size : Nat, ∃ b, b = (s.dmaByte h c false x.rp) ∧ ∃ n, n = (min b.2 (s.dmaLimit h c - x.rp)) ∧ Plain s r b.1 size false ∧ s.dmaSt h c = 1 ∧ s.dmaHeld h = false ∧ s.dmaTurn h false = some c ∧ x.desc ≠ [] ∧ x.failed = none ∧ x.wp < dTotal x.desc ∧ s.get (dmaF Fld.DMA_CHn_CFG_TE h c) = 0 ∧ s.get (dmaF Fld.DMA_CHn_CFG_TRIG h c) ≠ 3 ∧ x.regs = false ∧ 0 < n ∧ transferOf b.1 n = [(b.1, size)]) ∧
    (∃ s : State, ∃ h : Fin 8, ∃ c : Fin 8, ∃ x, x = (s.dmaCh h c) ∧ ∃ r, r = (dmaReq h) ∧ ∃ size : Nat, ∃ b, b = (s.dmaByte h c true x.wp) ∧ Plain s r b.1 size true ∧ s.dmaSt h c = 1 ∧ s.dmaHeld h = false ∧ s.dmaTurn h true = some c ∧ x.desc ≠ [] ∧ x.failed = none ∧ x.wp < dTotal x.desc ∧ s.get (dmaF Fld.DMA_CHn_CFG_TE h c) = 0 ∧ s.get (dmaF Fld.DMA_CHn_CFG_TRIG h c) ≠ 3 ∧ x.wp < x.unitEnd ∧ s.dmaReady h c b.1 = [(x.wp, b.1, size)] ∧ s.protectedAt b.1 (2 ^ size) = false ∧ s.writeWaits b.1 (2 ^ size) = false) ∧
    (∃ s : State, ∃ h : Fin 8, ∃ c : Fin 8, ∃ x, x = (s.dmaCh h c) ∧ ∃ w7, w7 = (x.desc.getD 7 0) ∧ s.dmaSt h c = 1 ∧ x.desc ≠ [] ∧ x.failed = none ∧ x.wp = dTotal x.desc ∧ w7.getLsbD 3 = true) ∧
    (∃ s : State, ∃ h : Fin 8, ∃ c : Fin 8, ∃ x, x = (s.dmaCh h c) ∧ ∃ w7, w7 = (x.desc.getD 7 0) ∧ s.dmaSt h c = 1 ∧ x.desc ≠ [] ∧ x.failed = none ∧ x.wp = dTotal x.desc ∧ w7.getLsbD 3 = false ∧ ((x.ring = true ∨ x.fetched < max 1 (s.get (dmaF Fld.DMA_CHn_CFG_FLIMIT h c))))) ∧
    (∃ s : State, s.edges = []) ∧
    (∃ s : State, ∃ h : Fin 8, ∃ c : Fin 8, ∃ arg : Nat, ∃ l : List (Nat × Nat × Nat), s.edges = (2, h.val, arg) :: l ∧ s.get (dmaF Fld.DMA_CHn_CFG_TRIG h c) = 2 ∧ s.get (dmaF Fld.DMA_CHn_CFG_TARG h c) = arg ∧ s.dmaSt h c = 1 ∧ s.get (dmaF Fld.DMA_CHn_STAT_PENDTRG h c) < 255) ∧
    (∃ s : State, ∃ h : Fin 8, ∃ c : Fin 8, s.get (dmaF Fld.DMA_CHn_CFG_TRIG h c) = 3 ∧ (s.dmaCh h c).desc ≠ [] ∧ s.ringFill h c ≤ s.get (dmaF Fld.DMA_CHn_RLEN_LEN h c) ∧ s.dmaSt h c = 2 ∧ s.ringRequest h c = true) ∧
    (∃ s : State, ∃ h : Fin 8, ∃ c : Fin 8, s.get (dmaF Fld.DMA_CHn_CFG_TRIG h c) = 3 ∧ (s.dmaCh h c).desc ≠ [] ∧ s.ringFill h c ≤ s.get (dmaF Fld.DMA_CHn_RLEN_LEN h c) ∧ s.dmaSt h c = 1 ∧ s.ringRequest h c = false ∧ (s.dmaCh h c).wp < dTotal (s.dmaCh h c).desc) ∧
    (∃ s : State, ∃ h : Fin 8, ∃ c : Fin 8, (s.dmaCh h c).failed = none) ∧
    (∃ s : State, ∃ h : Fin 8, ∃ c : Fin 8, ∃ f : Nat × Nat, (s.dmaCh h c).failed = some f ∧ (s.dmaCh h c).ending = 0) ∧
    (∃ s : State, ∃ h : Fin 8, ∃ c : Fin 8, ∃ f : Nat × Nat, (s.dmaCh h c).failed = some f ∧ (s.dmaCh h c).ending ≠ 0 ∧ (s.dmaCh h c).ending < 4) :=
  ⟨
    ⟨(((fun (s : State) => (s.setDma (0 : Fin 8) (0 : Fin 8) { s.dmaCh (0 : Fin 8) (0 : Fin 8) with desc := [], next := 0x10000100 } : State)) ((((State.reset.setDmaSt (0 : Fin 8) (0 : Fin 8) 1).put (Fld.PWR_HSTATE_STATE.sub (0 : Fin 8)) 3).put (dmaF Fld.DMA_CHn_CFG_TE (0 : Fin 8) (0 : Fin 8)) (0)).put (dmaF Fld.DMA_CHn_CFG_TRIG (0 : Fin 8) (0 : Fin 8)) (0))) : State), (0 : Fin 8), (0 : Fin 8), _, rfl, _, rfl, (List.replicate 8 0 : List Word), by simp only [plain_iff]; decide +kernel, by unfold Holds; decide +kernel, by decide +kernel⟩,
    ⟨((((State.reset.setDmaSt (0 : Fin 8) (0 : Fin 8) 1).put (Fld.PWR_HSTATE_STATE.sub (0 : Fin 8)) 3).put (dmaF Fld.DMA_CHn_CFG_TE (0 : Fin 8) (0 : Fin 8)) 1) : State), (0 : Fin 8), (0 : Fin 8), _, rfl, ((match (dmaXlat (0 : Fin 8) (0 : Fin 8) false (((((State.reset.setDmaSt (0 : Fin 8) (0 : Fin 8) 1).put (Fld.PWR_HSTATE_STATE.sub (0 : Fin 8)) 3).put (dmaF Fld.DMA_CHn_CFG_TE (0 : Fin 8) (0 : Fin 8)) 1) : State).dmaCh (0 : Fin 8) (0 : Fin 8)).next ((((State.reset.setDmaSt (0 : Fin 8) (0 : Fin 8) 1).put (Fld.PWR_HSTATE_STATE.sub (0 : Fin 8)) 3).put (dmaF Fld.DMA_CHn_CFG_TE (0 : Fin 8) (0 : Fin 8)) 1) : State)).1 with | .page i => i | _ => 0) : Nat), ((dmaXlat (0 : Fin 8) (0 : Fin 8) false (((((State.reset.setDmaSt (0 : Fin 8) (0 : Fin 8) 1).put (Fld.PWR_HSTATE_STATE.sub (0 : Fin 8)) 3).put (dmaF Fld.DMA_CHn_CFG_TE (0 : Fin 8) (0 : Fin 8)) 1) : State).dmaCh (0 : Fin 8) (0 : Fin 8)).next ((((State.reset.setDmaSt (0 : Fin 8) (0 : Fin 8) 1).put (Fld.PWR_HSTATE_STATE.sub (0 : Fin 8)) 3).put (dmaF Fld.DMA_CHn_CFG_TE (0 : Fin 8) (0 : Fin 8)) 1) : State)).2 : State), by decide +kernel⟩,
    ⟨(((fun (s : State) => (s.setDma (0 : Fin 8) (0 : Fin 8) { s.dmaCh (0 : Fin 8) (0 : Fin 8) with desc := [0x10000100#32, 0x10000200#32, 0#32, 0#32, 0#32, 0#32, 0#32, 0#32], unitEnd := 1 } : State)) ((((State.reset.setDmaSt (0 : Fin 8) (0 : Fin 8) 1).put (Fld.PWR_HSTATE_STATE.sub (0 : Fin 8)) 3).put (dmaF Fld.DMA_CHn_CFG_TE (0 : Fin 8) (0 : Fin 8)) (0)).put (dmaF Fld.DMA_CHn_CFG_TRIG (0 : Fin 8) (0 : Fin 8)) (1 - 3))) : State), (0 : Fin 8), (0 : Fin 8), _, rfl, _, rfl, (0 : Nat), _, rfl, _, rfl, (plain_iff ..).mpr (by decide +kernel), by decide +kernel⟩,
    ⟨(((fun (s : State) => (s.setDma (0 : Fin 8) (0 : Fin 8) { s.dmaCh (0 : Fin 8) (0 : Fin 8) with desc := [0x10000100#32, 0x10000200#32, 0#32, 0#32, 0#32, 0#32, 0#32, 0#32], unitEnd := 1, rp := 1, buf := [7] } : State)) ((((State.reset.setDmaSt (0 : Fin 8) (0 : Fin 8) 1).put (Fld.PWR_HSTATE_STATE.sub (0 : Fin 8)) 3).put (dmaF Fld.DMA_CHn_CFG_TE (0 : Fin 8) (0 : Fin 8)) (0)).put (dmaF Fld.DMA_CHn_CFG_TRIG (0 : Fin 8) (0 : Fin 8)) (1 - 3))) : State), (0 : Fin 8), (0 : Fin 8), _, rfl, _, rfl, (0 : Nat), _, rfl, (plain_iff ..).mpr (by decide +kernel), by decide +kernel⟩,
    ⟨(((fun (s : State) => (s.setDma (0 : Fin 8) (0 : Fin 8) { s.dmaCh (0 : Fin 8) (0 : Fin 8) with desc := [0#32, 0#32, 0#32, 0#32, 0#32, 0#32, 0#32, 8#32], wp := 1 } : State)) (State.reset.setDmaSt (0 : Fin 8) (0 : Fin 8) 1)) : State), (0 : Fin 8), (0 : Fin 8), _, rfl, _, rfl, by decide +kernel⟩,
    ⟨(((fun (s : State) => (s.setDma (0 : Fin 8) (0 : Fin 8) { s.dmaCh (0 : Fin 8) (0 : Fin 8) with desc := [0#32, 0#32, 0#32, 0#32, 0#32, 0#32, 0#32, 0#32], wp := 1 } : State)) (State.reset.setDmaSt (0 : Fin 8) (0 : Fin 8) 1)) : State), (0 : Fin 8), (0 : Fin 8), _, rfl, _, rfl, by decide +kernel⟩,
    ⟨(State.reset : State), by decide +kernel⟩,
    ⟨((((((fun (s : State) => ({ s with edges := (2, (0 : Fin 8).val, (0 : Nat)) :: ([] : List (Nat × Nat × Nat)) } : State)) State.reset).put (dmaF Fld.DMA_CHn_CFG_TRIG (0 : Fin 8) (0 : Fin 8)) (2)).put (dmaF Fld.DMA_CHn_CFG_TARG (0 : Fin 8) (0 : Fin 8)) ((0 : Nat))).setDmaSt (0 : Fin 8) (0 : Fin 8) 1) : State), (0 : Fin 8), (0 : Fin 8), (0 : Nat), ([] : List (Nat × Nat × Nat)), by decide +kernel⟩,
    ⟨((((fun (s : State) => (s.setDma (0 : Fin 8) (0 : Fin 8) { s.dmaCh (0 : Fin 8) (0 : Fin 8) with desc := [0#32, 0#32, 0#32, 0#32, 0#32, 0#32, 0#32, 0#32], taken := -5 } : State)) ((State.reset.put (dmaF Fld.DMA_CHn_CFG_TRIG (0 : Fin 8) (0 : Fin 8)) (3)).setDmaSt (0 : Fin 8) (0 : Fin 8) 2)).put (dmaF Fld.DMA_CHn_RLEN_LEN (0 : Fin 8) (0 : Fin 8)) 10) : State), (0 : Fin 8), (0 : Fin 8), by decide +kernel⟩,
    ⟨(((fun (s : State) => (s.setDma (0 : Fin 8) (0 : Fin 8) { s.dmaCh (0 : Fin 8) (0 : Fin 8) with desc := [0#32, 0#32, 0#32, 0#32, 0#32, 0#32, 0#32, 0#32] } : State)) ((State.reset.put (dmaF Fld.DMA_CHn_CFG_TRIG (0 : Fin 8) (0 : Fin 8)) (3)).setDmaSt (0 : Fin 8) (0 : Fin 8) 1)) : State), (0 : Fin 8), (0 : Fin 8), by decide +kernel⟩,
    ⟨(State.reset : State), (0 : Fin 8), (0 : Fin 8), by decide +kernel⟩,
    ⟨(((fun (s : State) => (s.setDma (0 : Fin 8) (0 : Fin 8) { s.dmaCh (0 : Fin 8) (0 : Fin 8) with failed := some (default : Nat × Nat) } : State)) State.reset) : State), (0 : Fin 8), (0 : Fin 8), (default : Nat × Nat), by decide +kernel⟩,
    ⟨(((fun (s : State) => (s.setDma (0 : Fin 8) (0 : Fin 8) { s.dmaCh (0 : Fin 8) (0 : Fin 8) with ending := 2 } : State)) ((fun (s : State) => (s.setDma (0 : Fin 8) (0 : Fin 8) { s.dmaCh (0 : Fin 8) (0 : Fin 8) with failed := some (default : Nat × Nat) } : State)) State.reset)) : State), (0 : Fin 8), (0 : Fin 8), (default : Nat × Nat), by decide +kernel⟩⟩

theorem wit_StileCommands :
    (∃ s : State, ∃ r : Req, Takes s r Reg.STL_CMD ∧ s.bel.answer = none) ∧
    (∃ s : State, ∃ r : Req, Takes s r Reg.STL_CMD ∧ s.bel.answer = none ∧ s.get Fld.STL_STAT_STATE ≠ 0 ∧ s.get Fld.STL_STAT_STATE ≠ 5) ∧
    (∃ s : State, ∃ r : Req, Takes s r Reg.STL_CMD ∧ s.bel.answer = none ∧ s.get Fld.STL_STAT_STATE = 0 ∧ s.get Fld.STL_STAT_LATCHED = 0) ∧
    (∃ s : State, ∃ r : Req, Takes s r Reg.STL_CMD ∧ s.bel.answer = none ∧ s.get Fld.STL_STAT_STATE = 1) ∧
    (∃ s : State, ∃ r : Req, Takes s r Reg.STL_CMD ∧ s.bel.answer = none ∧ s.get Fld.STL_STAT_STATE = 2 ∧ s.get Fld.STL_STAT_LATCHED = 0 ∧ s.stl.lock = true ∧ s.stl.goal ≠ 4) ∧
    (∃ s : State, ∃ r : Req, Takes s r Reg.STL_CMD ∧ s.bel.answer = none ∧ s.get Fld.STL_STAT_LATCHED = 1) ∧
    (∃ s : State, ∃ r : Req, Takes s r Reg.STL_CMD ∧ s.bel.answer = none ∧ s.stlSending = true) ∧
    (∃ s : State, ∃ r : Req, Takes s r Reg.STL_CMD ∧ s.bel.answer = none ∧ s.get Fld.STL_STAT_LATCHED = 0 ∧ s.stlSending = false ∧ s.get Fld.STL_STAT_SYNCD = 1) ∧
    (∃ s : State, ∃ r : Req, Takes s r Reg.STL_CMD ∧ s.bel.answer = none ∧ s.get Fld.STL_STAT_STATE = 1 ∧ s.get Fld.STL_STAT_LATCHED = 0 ∧ s.get Fld.STL_STAT_SYNCD = 0) ∧
    (∃ s : State, ∃ r : Req, ∃ i : Instr, Takes s r Reg.STL_CMD ∧ s.bel.answer ≠ none ∧ i ∈ [Instr.stileSleep r, .stileStandby r, .stileSynth r, .stileRx r, .stileTx r]) ∧
    (∃ s : State, s.get Fld.STL_STAT_STATE = 5 ∧ s.stl.goal < 2) ∧
    (∃ s : State, s.get Fld.STL_STAT_STATE = 2 ∧ s.stl.lock = true ∧ s.stl.goal = 3) ∧
    (∃ s : State, s.get Fld.STL_STAT_STATE = 2 ∧ s.stl.lock = false ∧ s.get Fld.STL_STAT_LATCHED = 0) ∧
    (∃ s : State, s.get Fld.STL_STAT_STATE = 2 ∧ s.stl.lock = false ∧ s.get Fld.STL_STAT_LATCHED = 1) ∧
    (∃ s : State, ∃ d : Nat, s.stl.entered = some d ∧ s.get Fld.STL_STAT_LATCHED = 1) ∧
    (∃ s : State, s.get Fld.STL_STAT_STATE = 4 ∧ s.stl.goal = 4) :=
  ⟨
    ⟨(State.reset : State), (⟨16, 2⟩ : Req), by decide +kernel⟩,
    ⟨((((State.reset.put Fld.STL_STAT_STATE (1 - 0)).put Fld.STL_STAT_STATE (1 - 5)).put Fld.STL_STAT_STATE 1) : State), (⟨16, 2⟩ : Req), by decide +kernel⟩,
    ⟨(State.reset : State), (⟨16, 2⟩ : Req), by decide +kernel⟩,
    ⟨((State.reset.put Fld.STL_STAT_STATE (1)) : State), (⟨16, 2⟩ : Req), by decide +kernel⟩,
    ⟨(((fun (s : State) => ({ s with stl := { s.stl with lock := true } } : State)) (State.reset.put Fld.STL_STAT_STATE (2))) : State), (⟨16, 2⟩ : Req), by decide +kernel⟩,
    ⟨((State.reset.put Fld.STL_STAT_LATCHED (1)) : State), (⟨16, 2⟩ : Req), by decide +kernel⟩,
    ⟨((State.reset.put Fld.STL_STAT_STATE 4) : State), (⟨16, 2⟩ : Req), by decide +kernel⟩,
    ⟨((State.reset.put Fld.STL_STAT_SYNCD (1)) : State), (⟨16, 2⟩ : Req), by decide +kernel⟩,
    ⟨((State.reset.put Fld.STL_STAT_STATE (1)) : State), (⟨16, 2⟩ : Req), by decide +kernel⟩,
    ⟨(((fun (s : State) => ({ s with bel := { s.bel with answer := some 0 } } : State)) State.reset) : State), (⟨16, 2⟩ : Req), (.stileSleep (⟨16, 2⟩ : Req) : Instr), by decide +kernel⟩,
    ⟨((State.reset.put Fld.STL_STAT_STATE (5)) : State), by decide +kernel⟩,
    ⟨(((fun (s : State) => ({ s with stl := { s.stl with goal := 3 } } : State)) ((fun (s : State) => ({ s with stl := { s.stl with lock := true } } : State)) (State.reset.put Fld.STL_STAT_STATE (2)))) : State), by decide +kernel⟩,
    ⟨((State.reset.put Fld.STL_STAT_STATE (2)) : State), by decide +kernel⟩,
    ⟨(((State.reset.put Fld.STL_STAT_STATE (2)).put Fld.STL_STAT_LATCHED (1)) : State), by decide +kernel⟩,
    ⟨((((fun (s : State) => ({ s with stl := { s.stl with entered := some (0 : Nat) } } : State)) State.reset).put Fld.STL_STAT_LATCHED (1)) : State), (0 : Nat), by decide +kernel⟩,
    ⟨(((fun (s : State) => ({ s with stl := { s.stl with goal := 4 } } : State)) (State.reset.put Fld.STL_STAT_STATE (4))) : State), by decide +kernel⟩⟩

theorem wit_StileReceptionAndBell :
    (∃ s : State, s.get Fld.STL_STAT_STATE = 3 ∧ s.get Fld.STL_STAT_SYNCD = 0) ∧
    (∃ s : State, ∃ off : Int, s.get Fld.STL_STAT_STATE = 3 ∧ s.get Fld.STL_STAT_SYNCD = 0 ∧ off.natAbs ≤ min (5 * getBits Fld.STL_CFG_SRATE s.stl.cfg) 6000) ∧
    (∃ s : State, ∃ off : Int, s.get Fld.STL_STAT_STATE = 3 ∧ s.get Fld.STL_STAT_SYNCD = 0 ∧ min (5 * getBits Fld.STL_CFG_SRATE s.stl.cfg) 6000 < off.natAbs) ∧
    (∃ s : State, ∃ body : List Nat, ∃ b : Fin 2, s.get Fld.STL_STAT_STATE = 3 ∧ s.get Fld.STL_STAT_SYNCD = 1 ∧ getBits Fld.STL_CFG_WHITEN s.stl.cfg = 0 ∧ body.length = 4 + body.getD 3 0 ∧ body.getD 3 0 < 256 ∧ s.stl.buf = b.val ∧ s.boot.rom = false ∧ ((body.getD 0 0 = s.get Fld.TLY_STAT_ADDR ∨ body.getD 0 0 = 0xFF)) ∧ ((∀ x ∈ body, x < 256)) ∧ s.get (Fld.STL_RXb_INFO_FULL.i b) = 0) ∧
    (∃ s : State, ∃ body : List Nat, ∃ b : Fin 2, s.get Fld.STL_STAT_STATE = 3 ∧ s.get Fld.STL_STAT_SYNCD = 1 ∧ getBits Fld.STL_CFG_WHITEN s.stl.cfg = 0 ∧ body.length = 4 + body.getD 3 0 ∧ body.getD 3 0 < 256 ∧ s.stl.buf = b.val ∧ s.boot.rom = false ∧ ((body.getD 0 0 = s.get Fld.TLY_STAT_ADDR ∨ body.getD 0 0 = 0xFF)) ∧ ((∀ x ∈ body, x < 256)) ∧ s.get (Fld.STL_RXb_INFO_FULL.i b) = 1 ∧ s.stl.late = false) ∧
    (∃ s : State, s.get Fld.STL_STAT_STATE = 3 ∧ s.get Fld.STL_SEQ_RXTO ≠ 0 ∧ s.get Fld.STL_STAT_SYNCD = 0) ∧
    (∃ s : State, s.get Fld.STL_STAT_STATE = 3 ∧ s.get Fld.STL_SEQ_RXTO ≠ 0 ∧ s.get Fld.STL_STAT_SYNCD = 1) ∧
    (∃ s : State, s.pow.down = 2 ∧ s.bel.on = true ∧ s.bel.since = none ∧ s.calen.runs = true ∧ s.pow.hearth = true) ∧
    (∃ s : State, ∃ d : Nat, s.bel.since = some d) ∧
    (∃ s : State, ∃ d : Nat, ∃ code : BitVec 16, ∃ chk : BitVec 16, s.bel.since = some d ∧ s.pow.down ≠ 0 ∧ chk ≠ ~~~code) ∧
    (∃ s : State, ∃ d : Nat, ∃ code : BitVec 16, ∃ chk : BitVec 16, s.bel.since = some d ∧ s.pow.down ≠ 0 ∧ chk = ~~~code ∧ s.bellMatch code.toNat = none) ∧
    (∃ s : State, ∃ d : Nat, ∃ code : BitVec 16, ∃ chk : BitVec 16, ∃ t0 : Nat, ∃ src : Nat, s.bel.since = some d ∧ s.pow.down ≠ 0 ∧ chk = ~~~code ∧ s.bellMatch code.toNat = some src ∧ max s.now t0 < s.pow.outAt + 10 * msU) ∧
    (∃ s : State, ∃ d : Nat, ∃ code : BitVec 16, ∃ chk : BitVec 16, ∃ t0 : Nat, ∃ src : Nat, s.bel.since = some d ∧ s.pow.down ≠ 0 ∧ chk = ~~~code ∧ s.bellMatch code.toNat = some src ∧ s.pow.outAt + 10 * msU ≤ max s.now t0) ∧
    (∃ s : State, ∃ d : Nat, s.bel.answer = some d) :=
  ⟨
    ⟨((State.reset.put Fld.STL_STAT_STATE (3)) : State), by decide +kernel⟩,
    ⟨((State.reset.put Fld.STL_STAT_STATE (3)) : State), (0 : Int), by decide +kernel⟩,
    ⟨((State.reset.put Fld.STL_STAT_STATE (3)) : State), (20000 : Int), by decide +kernel⟩,
    ⟨(((fun (s : State) => ({ s with stl := { s.stl with buf := (0 : Fin 2).val } } : State)) ((State.reset.put Fld.STL_STAT_STATE (3)).put Fld.STL_STAT_SYNCD (1))) : State), ([255, 0, 0, 0] : List Nat), (0 : Fin 2), by decide +kernel⟩,
    ⟨((((fun (s : State) => ({ s with stl := { s.stl with buf := (0 : Fin 2).val } } : State)) ((State.reset.put Fld.STL_STAT_STATE (3)).put Fld.STL_STAT_SYNCD (1))).put (Fld.STL_RXb_INFO_FULL.i (0 : Fin 2)) (1)) : State), ([255, 0, 0, 0] : List Nat), (0 : Fin 2), by decide +kernel⟩,
    ⟨(((State.reset.put Fld.STL_STAT_STATE (3)).put Fld.STL_SEQ_RXTO (1 - 0)) : State), by decide +kernel⟩,
    ⟨((((State.reset.put Fld.STL_STAT_STATE (3)).put Fld.STL_SEQ_RXTO (1 - 0)).put Fld.STL_STAT_SYNCD (1)) : State), by decide +kernel⟩,
    ⟨(((fun (s : State) => ({ s with pow := { s.pow with hearth := true } } : State)) ((fun (s : State) => ({ s with bel := { s.bel with on := true } } : State)) ((fun (s : State) => ({ s with pow := { s.pow with down := 2 } } : State)) State.reset))) : State), by decide +kernel⟩,
    ⟨(((fun (s : State) => ({ s with bel := { s.bel with since := some (0 : Nat) } } : State)) State.reset) : State), (0 : Nat), by decide +kernel⟩,
    ⟨(((fun (s : State) => ({ s with pow := { s.pow with down := 1 } } : State)) ((fun (s : State) => ({ s with bel := { s.bel with since := some (0 : Nat) } } : State)) State.reset)) : State), (0 : Nat), (0 : BitVec 16), (0 : BitVec 16), by decide +kernel⟩,
    ⟨(((fun (s : State) => ({ s with pow := { s.pow with down := 1 } } : State)) ((fun (s : State) => ({ s with bel := { s.bel with since := some (0 : Nat) } } : State)) State.reset)) : State), (0 : Nat), (0 : BitVec 16), (~~~(0 : BitVec 16) : BitVec 16), by decide +kernel⟩,
    ⟨(((fun (s : State) => ((s.put (Fld.BEL_GRPn_EN.i 0) 1).put (Fld.BEL_GRPn_CODE.i 0) (0 : BitVec 16).toNat : State)) ((fun (s : State) => ({ s with pow := { s.pow with down := 1 } } : State)) ((fun (s : State) => ({ s with bel := { s.bel with since := some (0 : Nat) } } : State)) State.reset))) : State), (0 : Nat), (0 : BitVec 16), (~~~(0 : BitVec 16) : BitVec 16), (0 : Nat), (4 : Nat), by decide +kernel⟩,
    ⟨(((fun (s : State) => ((s.put (Fld.BEL_GRPn_EN.i 0) 1).put (Fld.BEL_GRPn_CODE.i 0) (0 : BitVec 16).toNat : State)) ((fun (s : State) => ({ s with pow := { s.pow with down := 1 } } : State)) ((fun (s : State) => ({ s with bel := { s.bel with since := some (0 : Nat) } } : State)) State.reset))) : State), (0 : Nat), (0 : BitVec 16), (~~~(0 : BitVec 16) : BitVec 16), (secU : Nat), (4 : Nat), by decide +kernel⟩,
    ⟨(((fun (s : State) => ({ s with bel := { s.bel with answer := some (0 : Nat) } } : State)) State.reset) : State), (0 : Nat), by decide +kernel⟩⟩

theorem wit_WatchReceiver :
    (∃ s : State, ∃ r : Req, ∃ v : Word, Takes s r Reg.WCH_CTRL ∧ s.locked Reg.WCH_CTRL = false ∧ s.get Fld.WCH_CTRL_EN = 1 ∧ getBits Fld.WCH_CTRL_EN v = 0 ∧ s.get Fld.WCH_SW_STAT_BUSY = 0 ∧ getBits Fld.WCH_CTRL_DMOD v = s.get Fld.WCH_CTRL_DMOD ∧ s.get Fld.WCH_DIG_STAT_AFTRY = 0) ∧
    (∃ s : State, ∃ r : Req, ∃ v : Word, Takes s r Reg.WCH_CTRL ∧ s.locked Reg.WCH_CTRL = false ∧ s.get Fld.WCH_CTRL_EN = 0 ∧ getBits Fld.WCH_CTRL_DMOD v = s.get Fld.WCH_CTRL_DMOD ∧ s.get Fld.WCH_DIG_STAT_AFTRY = 0) ∧
    (∃ s : State, ∃ r : Req, ∃ v : Word, Takes s r Reg.WCH_CTRL ∧ s.locked Reg.WCH_CTRL = false ∧ s.get Fld.WCH_CTRL_EN = getBits Fld.WCH_CTRL_EN v ∧ (getBits Fld.WCH_CTRL_DMOD v ≠ s.get Fld.WCH_CTRL_DMOD ∨ s.get Fld.WCH_DIG_STAT_AFTRY = 1)) ∧
    (∃ s : State, ∃ r : Req, ∃ v : Word, Takes s r Reg.WCH_DIG_FREQ ∧ inBands (getBits Fld.WCH_DIG_FREQ_FREQ v) = false) ∧
    (∃ s : State, ∃ r : Req, ∃ v : Word, Takes s r Reg.WCH_DIG_FREQ ∧ s.locked Reg.WCH_DIG_FREQ = false ∧ inBands (getBits Fld.WCH_DIG_FREQ_FREQ v) = true) ∧
    (∃ s : State, ∃ r : Req, ∃ n : Fin 2, ∃ v : Word, ∃ f, f = (getBits Fld.WCH_FMn_FREQ_FREQ v) ∧ Takes s r (Reg.WCH_FMn_FREQ + 32 * n) ∧ s.locked (Reg.WCH_FMn_FREQ + 32 * n) = false ∧ 6500 ≤ f ∧ f ≤ 10800) ∧
    (∃ s : State, ∃ r : Req, ∃ n : Fin 2, ∃ v : Word, ∃ f, f = (getBits Fld.WCH_FMn_FREQ_FREQ v) ∧ Takes s r (Reg.WCH_FMn_FREQ + 32 * n) ∧ s.locked (Reg.WCH_FMn_FREQ + 32 * n) = false ∧ (f < 6500 ∨ 10800 < f)) ∧
    (∃ s : State, s.get Fld.WCH_CTRL_EN = 1 ∧ s.dark = false) ∧
    (∃ s : State, ∃ up : Bool, ∃ t0 : Nat, s.watchRuns = true ∧ ((up = true → s.get Fld.WCH_STAT_GAIN < 30)) ∧ ((up = false → 0 < s.get Fld.WCH_STAT_GAIN)) ∧ max s.now t0 < s.wch.agcAt) ∧
    (∃ s : State, ∃ up : Bool, ∃ t0 : Nat, s.watchRuns = true ∧ ((up = true → s.get Fld.WCH_STAT_GAIN < 30)) ∧ ((up = false → 0 < s.get Fld.WCH_STAT_GAIN)) ∧ s.wch.agcAt ≤ max s.now t0 ∧ (s.get Fld.WCH_SW_STAT_BUSY = 0 ∨ s.get Fld.WCH_SW_CFG_SRC = 1)) ∧
    (∃ s : State, ∃ up : Bool, ∃ t0 : Nat, s.watchRuns = true ∧ ((up = true → s.get Fld.WCH_STAT_GAIN < 30)) ∧ ((up = false → 0 < s.get Fld.WCH_STAT_GAIN)) ∧ s.wch.agcAt ≤ max s.now t0 ∧ s.get Fld.WCH_SW_STAT_BUSY = 1 ∧ s.get Fld.WCH_SW_CFG_SRC = 0 ∧ s.wch.agc = 0) ∧
    (∃ s : State, ∃ n : Nat, n ≠ 0 ∧ s.watchRuns = true ∧ s.get Fld.WCH_STAT_OVR = 1) ∧
    (∃ s : State, ∃ n : Fin 2, s.get (Fld.WCH_FMn_CFG_EN.i n) = 1 ∧ s.get Fld.WCH_STAT_READY = 1) ∧
    (∃ s : State, s.get Fld.WCH_CTRL_DMOD ≠ 0 ∧ s.get Fld.WCH_STAT_READY = 1) ∧
    (∃ s : State, ∃ n : Fin 2, s.get (Fld.WCH_FMn_CFG_EN.i n) = 1 ∧ s.get (Fld.WCH_FMn_STAT_SYNC.i n) = 1 ∧ s.get (Fld.WCH_FMn_STAT_AFTRY.i n) = 1) ∧
    (∃ s : State, ∃ n : Fin 2, ∃ pi : Nat, ∃ b : Nat, ∃ x, x = (s.wch.chan[n.castSucc]) ∧ s.get (Fld.WCH_FMn_CFG_EN.i n) = 1 ∧ s.get (Fld.WCH_FMn_STAT_SYNC.i n) = 1 ∧ s.get (Fld.WCH_FMn_STAT_AFTRY.i n) = 0 ∧ b / 4096 % 16 ≠ 0 ∧ pi < 65536 ∧ s.get (Fld.WCH_FMn_CFG_GMASK.i n) = 0 ∧ s.get (Fld.WCH_FMn_PI_PI.i n) ≠ pi ∧ x.piRun = 3 ∧ x.piNew = pi) ∧
    (∃ s : State, ∃ n : Fin 2, ∃ pi : Nat, ∃ b : Nat, ∃ c : Nat, ∃ d : Nat, ∃ corr : Nat, ∃ t0 : Nat, ∃ record, record = (recordBytes n t0 (10 * s.get (Fld.WCH_FMn_FREQ_FREQ.i n)) (beBytes 2 pi ++ beBytes 2 b ++ beBytes 2 c ++ beBytes 2 d ++ [corr % 16, 0, 0, 0])) ∧ s.get (Fld.WCH_FMn_CFG_EN.i n) = 1 ∧ s.get (Fld.WCH_FMn_STAT_SYNC.i n) = 1 ∧ s.get (Fld.WCH_FMn_STAT_AFTRY.i n) = 0 ∧ b / 4096 % 16 ≠ 0 ∧ pi < 65536 ∧ b / 2048 % 32 = 8 ∧ bitOf (s.get (Fld.WCH_FMn_CFG_GMASK.i n)) 2 = true ∧ 4 ≤ s.get Fld.WCH_CTRL_FLOW ∧ s.get Fld.WCH_CTRL_FLOW ≤ 7 ∧ (s.wch.queue.map List.length).sum + record.length ≤ 32768) ∧
    (∃ s : State, ∃ sel : Fin 6, ∃ bytes : List Nat, ∃ t0 : Nat, ∃ src, src = (if s.get Fld.WCH_CTRL_DMOD = 1 then 2 else 3) ∧ ∃ record, record = (recordBytes src t0 (s.get Fld.WCH_DIG_FREQ_FREQ) bytes) ∧ s.get Fld.WCH_DIG_STAT_LOCK = 1 ∧ s.get Fld.WCH_DIG_STAT_AFTRY = 0 ∧ s.bit Fld.WCH_DIG_CFG_MASK sel = true ∧ 4 ≤ s.get Fld.WCH_CTRL_FLOW ∧ s.get Fld.WCH_CTRL_FLOW ≤ 7 ∧ (s.wch.queue.map List.length).sum + record.length ≤ 32768 ∧ s.get Fld.WCH_CTRL_DMOD = 1) ∧
    (∃ s : State, ∃ sel : Fin 6, ∃ bytes : List Nat, ∃ t0 : Nat, ∃ src, src = (if s.get Fld.WCH_CTRL_DMOD = 1 then 2 else 3) ∧ ∃ record, record = (recordBytes src t0 (s.get Fld.WCH_DIG_FREQ_FREQ) bytes) ∧ s.get Fld.WCH_DIG_STAT_LOCK = 1 ∧ s.get Fld.WCH_DIG_STAT_AFTRY = 0 ∧ s.bit Fld.WCH_DIG_CFG_MASK sel = true ∧ 4 ≤ s.get Fld.WCH_CTRL_FLOW ∧ s.get Fld.WCH_CTRL_FLOW ≤ 7 ∧ (s.wch.queue.map List.length).sum + record.length ≤ 32768 ∧ 2 ≤ s.get Fld.WCH_CTRL_DMOD) ∧
    (∃ s : State, ∃ sel : Fin 6, ∃ bytes : List Nat, ∃ t0 : Nat, ∃ src, src = (if s.get Fld.WCH_CTRL_DMOD = 1 then 2 else 3) ∧ ∃ record, record = (recordBytes src t0 (s.get Fld.WCH_DIG_FREQ_FREQ) bytes) ∧ s.get Fld.WCH_DIG_STAT_LOCK = 1 ∧ s.get Fld.WCH_DIG_STAT_AFTRY = 0 ∧ s.bit Fld.WCH_DIG_CFG_MASK sel = true ∧ 4 ≤ s.get Fld.WCH_CTRL_FLOW ∧ s.get Fld.WCH_CTRL_FLOW ≤ 7 ∧ (s.wch.queue.map List.length).sum + record.length ≤ 32768) ∧
    (∃ s : State, ∃ b : List Nat, ∃ l : List (List Nat), ∃ f, f = (s.get Fld.WCH_CTRL_FLOW) ∧ s.wch.queue = b :: l ∧ 4 ≤ f ∧ f ≤ 7 ∧ s.get (Fld.LNK_FLOWf_CFG_EN.i f) = 1 ∧ s.linkUp = true ∧ s.creditFor f (8 + b.length) = true) ∧
    (∃ s : State, ∃ b : List Nat, ∃ l : List (List Nat), s.wch.queue = b :: l ∧ s.linkUp = false) :=
  ⟨
    ⟨((State.reset.put Fld.WCH_CTRL_EN 1) : State), (⟨16, 2⟩ : Req), (0 : Word), by decide +kernel⟩,
    ⟨(State.reset : State), (⟨16, 2⟩ : Req), (0 : Word), by decide +kernel⟩,
    ⟨(State.reset : State), (⟨16, 2⟩ : Req), (setBits Fld.WCH_CTRL_DMOD 0 1 : Word), by decide +kernel⟩,
    ⟨(State.reset : State), (⟨16, 2⟩ : Req), (0 : Word), by decide +kernel⟩,
    ⟨(State.reset : State), (⟨16, 2⟩ : Req), (70000 : Word), by decide +kernel⟩,
    ⟨(State.reset : State), (⟨16, 2⟩ : Req), (0 : Fin 2), (7000 : Word), _, rfl, by decide +kernel⟩,
    ⟨(State.reset : State), (⟨16, 2⟩ : Req), (0 : Fin 2), (0 : Word), _, rfl, by decide +kernel⟩,
    ⟨((State.reset.put Fld.WCH_CTRL_EN (1)) : State), by decide +kernel⟩,
    ⟨(((fun (s : State) => ({ s with wch := { s.wch with agcAt := secU } } : State)) ((fun (s : State) => ({ s.put Fld.WCH_STAT_READY 1 with boot := { s.boot with inReset := false }, pow := { s.pow with down := 0, step := 0, refOff := false } } : State)) State.reset)) : State), (true : Bool), (0 : Nat), by decide +kernel⟩,
    ⟨(((fun (s : State) => ({ s.put Fld.WCH_STAT_READY 1 with boot := { s.boot with inReset := false }, pow := { s.pow with down := 0, step := 0, refOff := false } } : State)) State.reset) : State), (true : Bool), (0 : Nat), by decide +kernel⟩,
    ⟨((((fun (s : State) => ({ s.put Fld.WCH_STAT_READY 1 with boot := { s.boot with inReset := false }, pow := { s.pow with down := 0, step := 0, refOff := false } } : State)) State.reset).put Fld.WCH_SW_STAT_BUSY (1)) : State), (true : Bool), (0 : Nat), by decide +kernel⟩,
    ⟨((((fun (s : State) => ({ s.put Fld.WCH_STAT_READY 1 with boot := { s.boot with inReset := false }, pow := { s.pow with down := 0, step := 0, refOff := false } } : State)) State.reset).put Fld.WCH_STAT_OVR (1)) : State), (1 : Nat), by decide +kernel⟩,
    ⟨(((State.reset.put (Fld.WCH_FMn_CFG_EN.i (0 : Fin 2)) (1)).put Fld.WCH_STAT_READY (1)) : State), (0 : Fin 2), by decide +kernel⟩,
    ⟨(((State.reset.put Fld.WCH_CTRL_DMOD (1 - 0)).put Fld.WCH_STAT_READY (1)) : State), by decide +kernel⟩,
    ⟨((((State.reset.put (Fld.WCH_FMn_CFG_EN.i (0 : Fin 2)) (1)).put (Fld.WCH_FMn_STAT_SYNC.i (0 : Fin 2)) (1)).put (Fld.WCH_FMn_STAT_AFTRY.i (0 : Fin 2)) (1)) : State), (0 : Fin 2), by decide +kernel⟩,
    ⟨(((fun (s : State) => ({ s with wch := { s.wch with chan := s.wch.chan.set (0 : Fin 2).castSucc { s.wch.chan[(0 : Fin 2).castSucc] with piRun := 3, piNew := 5 } } } : State)) (((State.reset.put (Fld.WCH_FMn_CFG_EN.i (0 : Fin 2)) (1)).put (Fld.WCH_FMn_STAT_SYNC.i (0 : Fin 2)) (1)).put (Fld.WCH_FMn_PI_PI.i (0 : Fin 2)) (1 - (5 : Nat)))) : State), (0 : Fin 2), (5 : Nat), (0x1000 : Nat), _, rfl, by decide +kernel⟩,
    ⟨(((((State.reset.put (Fld.WCH_FMn_CFG_EN.i (0 : Fin 2)) (1)).put (Fld.WCH_FMn_STAT_SYNC.i (0 : Fin 2)) (1)).put Fld.WCH_CTRL_FLOW 4).put (Fld.WCH_FMn_CFG_GMASK.i (0 : Fin 2)) 4) : State), (0 : Fin 2), (0 : Nat), (0x4000 : Nat), (0 : Nat), (0 : Nat), (0 : Nat), (0 : Nat), _, rfl, by decide +kernel⟩,
    ⟨(((((State.reset.put Fld.WCH_DIG_STAT_LOCK (1)).setBit Fld.WCH_DIG_CFG_MASK (0 : Fin 6)).put Fld.WCH_CTRL_FLOW 4).put Fld.WCH_CTRL_DMOD (1)) : State), (0 : Fin 6), ([] : List Nat), (0 : Nat), _, rfl, _, rfl, by decide +kernel⟩,
    ⟨(((((State.reset.put Fld.WCH_DIG_STAT_LOCK (1)).setBit Fld.WCH_DIG_CFG_MASK (0 : Fin 6)).put Fld.WCH_CTRL_FLOW 4).put Fld.WCH_CTRL_DMOD 2) : State), (0 : Fin 6), ([] : List Nat), (0 : Nat), _, rfl, _, rfl, by decide +kernel⟩,
    ⟨((((State.reset.put Fld.WCH_DIG_STAT_LOCK (1)).setBit Fld.WCH_DIG_CFG_MASK (0 : Fin 6)).put Fld.WCH_CTRL_FLOW 4) : State), (0 : Fin 6), ([] : List Nat), (0 : Nat), _, rfl, _, rfl, by decide +kernel⟩,
    ⟨(((fun (s : State) => ({ s with wch := { s.wch with queue := ([] : List Nat) :: ([] : List (List Nat)) } } : State)) ((((State.reset.put Fld.WCH_CTRL_FLOW 4).put (Fld.LNK_FLOWf_CFG_EN.i 4) 1).put Fld.LNK_STAT_STATE 2).put (Fld.LNK_FLOWf_STAT_CREDIT.i 4) 100)) : State), ([] : List Nat), ([] : List (List Nat)), _, rfl, by decide +kernel⟩,
    ⟨(((fun (s : State) => ({ s with wch := { s.wch with queue := ([] : List Nat) :: ([] : List (List Nat)) } } : State)) State.reset) : State), ([] : List Nat), ([] : List (List Nat)), by decide +kernel⟩⟩

theorem wit_WatchSearch :
    (∃ s : State, ∃ n : Fin 3, ∃ f, f = (afRegs n) ∧ n ≠ 2 ∧ s.watchRuns = true ∧ s.get (Fld.WCH_FMn_CFG_EN.i n) = 1 ∧ s.get f.afen = 1 ∧ s.get f.try_ = 0 ∧ s.get f.qth ≤ s.get f.q) ∧
    (∃ s : State, ∃ n : Fin 3, ∃ f, f = (afRegs n) ∧ n ≠ 2 ∧ s.watchRuns = true ∧ s.get (Fld.WCH_FMn_CFG_EN.i n) = 1 ∧ s.get f.afen = 1 ∧ s.get f.try_ = 0 ∧ s.get f.q < s.get f.qth ∧ s.wch.chan[n].low + 1 < max 1 (s.get f.dwell)) ∧
    (∃ s : State, ∃ n : Fin 3, ∃ f, f = (afRegs n) ∧ n ≠ 2 ∧ s.watchRuns = true ∧ s.get (Fld.WCH_FMn_CFG_EN.i n) = 1 ∧ s.get f.afen = 1 ∧ s.get f.try_ = 0 ∧ s.get f.q < s.get f.qth ∧ max 1 (s.get f.dwell) ≤ s.wch.chan[n].low + 1 ∧ s.candidates n ≠ []) ∧
    (∃ s : State, ∃ n : Fin 3, ∃ f, f = (afRegs n) ∧ n ≠ 2 ∧ s.watchRuns = true ∧ s.get (Fld.WCH_FMn_CFG_EN.i n) = 1 ∧ s.get f.afen = 1 ∧ s.get f.try_ = 0 ∧ s.get f.q < s.get f.qth ∧ max 1 (s.get f.dwell) ≤ s.wch.chan[n].low + 1 ∧ s.candidates n = []) ∧
    (∃ s : State, ∃ n : Fin 3, ∃ sync : Bool, ∃ ident : Nat, ∃ q : Nat, ∃ x : Nat, ∃ l : List Nat, ∃ f, f = (afRegs n) ∧ ∃ me, me = (if n = 2 then s.get Fld.WCH_DIG_ID_ID else s.get (Fld.WCH_FMn_PI_PI.i n)) ∧ s.wch.chan[n].tries = x :: l ∧ sync = true ∧ ident = me ∧ s.get f.qth ≤ q ∧ s.get Fld.WCH_CTRL_FLOW < 4) ∧
    (∃ s : State, ∃ n : Fin 3, ∃ sync : Bool, ∃ ident : Nat, ∃ q : Nat, ∃ x : Nat, ∃ l : List Nat, ∃ f, f = (afRegs n) ∧ ∃ me, me = (if n = 2 then s.get Fld.WCH_DIG_ID_ID else s.get (Fld.WCH_FMn_PI_PI.i n)) ∧ s.wch.chan[n].tries = x :: l ∧ (sync = false ∨ ident ≠ me ∨ q < s.get f.qth) ∧ l ≠ []) ∧
    (∃ s : State, ∃ n : Fin 3, ∃ sync : Bool, ∃ ident : Nat, ∃ q : Nat, ∃ x : Nat, ∃ l : List Nat, ∃ f, f = (afRegs n) ∧ ∃ me, me = (if n = 2 then s.get Fld.WCH_DIG_ID_ID else s.get (Fld.WCH_FMn_PI_PI.i n)) ∧ s.wch.chan[n].tries = x :: l ∧ (sync = false ∨ ident ≠ me ∨ q < s.get f.qth) ∧ l = []) ∧
    (∃ s : State, ∃ src : Fin 4, s.get Fld.WCH_BT_CFG_TSRC = src.val ∧ s.get (Fld.WCH_FMn_STAT_AFTRY.i 0) = 0 ∧ s.get (Fld.WCH_FMn_STAT_AFTRY.i 1) = 0 ∧ s.get Fld.WCH_DIG_STAT_AFTRY = 0 ∧ s.get Fld.WCH_CTRL_BTREC = 0 ∧ s.btRuns src = true) ∧
    (∃ s : State, ∃ r : Req, s.check r Reg.WCH_BT_UTC 2 false = .ok) ∧
    (∃ s : State, ∃ r : Req, ∃ v : Word, Takes s r Reg.WCH_SW_CFG ∧ s.locked Reg.WCH_SW_CFG = false ∧ s.get Fld.WCH_CTRL_EN = 1 ∧ s.get Fld.WCH_SW_STAT_BUSY = 0 ∧ getBits Fld.WCH_SW_CFG_GO v = 1 ∧ getBits Fld.WCH_SW_CFG_STOP v = 0 ∧ getBits Fld.WCH_SW_CFG_SRC v = 0 ∧ inBands (s.get (Fld.WCH_SWn_FREQ_FREQ.i 0)) = true ∧ s.get (Fld.WCH_SWn_CFG_KIND.i 0) < 2 ∧ 1 ≤ s.get (Fld.WCH_SWn_CFG_BW.i 0) ∧ s.get (Fld.WCH_SWn_CFG_BW.i 0) ≤ 800) ∧
    (∃ s : State, ∃ r : Req, ∃ v : Word, Takes s r Reg.WCH_SW_CFG ∧ s.locked Reg.WCH_SW_CFG = false ∧ s.get Fld.WCH_SW_STAT_BUSY = 1 ∧ getBits Fld.WCH_SW_CFG_GO v = 1 ∧ getBits Fld.WCH_SW_CFG_STOP v = 0) ∧
    (∃ s : State, ∃ r : Req, ∃ v : Word, Takes s r Reg.WCH_SW_CFG ∧ s.locked Reg.WCH_SW_CFG = false ∧ s.get Fld.WCH_SW_STAT_BUSY = 1 ∧ s.get Fld.WCH_CTRL_SWREC = 0 ∧ s.get (Fld.WCH_SWn_THR_EN.i (s.get Fld.WCH_SW_STAT_ENTRY)) = 0 ∧ getBits Fld.WCH_SW_CFG_GO v = 0) ∧
    (∃ s : State, ∃ level : Nat, ∃ t0 : Nat, ∃ n, n = (s.get Fld.WCH_SW_STAT_ENTRY) ∧ level < 2 ^ 16 ∧ s.get Fld.WCH_SW_STAT_BUSY = 1 ∧ s.get Fld.WCH_CTRL_SWREC = 0 ∧ s.get Fld.WCH_SW_CFG_REPEAT = 0 ∧ s.get (Fld.WCH_SWn_THR_EN.i n) = 0 ∧ n = s.get Fld.WCH_SW_CFG_LENM1 ∧ s.dwellOf ≤ s.gathered (max s.now t0)) ∧
    (∃ s : State, ∃ level : Nat, ∃ n, n = (s.get Fld.WCH_SW_STAT_ENTRY) ∧ level < 2 ^ 16 ∧ s.get Fld.WCH_SW_STAT_BUSY = 1 ∧ s.get Fld.WCH_CTRL_SWREC = 0 ∧ s.get Fld.WCH_SW_CFG_REPEAT = 0 ∧ s.get (Fld.WCH_SWn_THR_EN.i n) = 0 ∧ n = s.get Fld.WCH_SW_CFG_LENM1 ∧ 0 < s.gathered (s.wch.start + 10 * s.dwellOf) ∧ s.gathered (s.wch.start + 10 * s.dwellOf) < s.dwellOf) :=
  ⟨
    ⟨((((fun (s : State) => (s.put (afRegs (0 : Fin 3)).try_ (0) : State)) ((fun (s : State) => (s.put (afRegs (0 : Fin 3)).afen (1) : State)) (((fun (s : State) => ({ s.put Fld.WCH_STAT_READY 1 with boot := { s.boot with inReset := false }, pow := { s.pow with down := 0, step := 0, refOff := false } } : State)) State.reset).put (Fld.WCH_FMn_CFG_EN.i (0 : Fin 3)) (1)))).put (Fld.WCH_FMn_STAT_Q.i 0) 100) : State), (0 : Fin 3), _, rfl, by decide +kernel⟩,
    ⟨(((fun (s : State) => (s.put (afRegs (0 : Fin 3)).try_ (0) : State)) ((fun (s : State) => (s.put (afRegs (0 : Fin 3)).afen (1) : State)) (((fun (s : State) => ({ s.put Fld.WCH_STAT_READY 1 with boot := { s.boot with inReset := false }, pow := { s.pow with down := 0, step := 0, refOff := false } } : State)) State.reset).put (Fld.WCH_FMn_CFG_EN.i (0 : Fin 3)) (1)))) : State), (0 : Fin 3), _, rfl, by decide +kernel⟩,
    ⟨(((fun (s : State) => ({ s with wch := { s.wch with chan := s.wch.chan.set (0 : Fin 3) { s.wch.chan[(0 : Fin 3)] with low := 200, afs := [9000] } } } : State)) ((fun (s : State) => (s.put (afRegs (0 : Fin 3)).try_ (0) : State)) ((fun (s : State) => (s.put (afRegs (0 : Fin 3)).afen (1) : State)) (((fun (s : State) => ({ s.put Fld.WCH_STAT_READY 1 with boot := { s.boot with inReset := false }, pow := { s.pow with down := 0, step := 0, refOff := false } } : State)) State.reset).put (Fld.WCH_FMn_CFG_EN.i (0 : Fin 3)) (1))))) : State), (0 : Fin 3), _, rfl, by decide +kernel⟩,
    ⟨(((fun (s : State) => ({ s with wch := { s.wch with chan := s.wch.chan.set (0 : Fin 3) { s.wch.chan[(0 : Fin 3)] with low := 200 } } } : State)) ((fun (s : State) => (s.put (afRegs (0 : Fin 3)).try_ (0) : State)) ((fun (s : State) => (s.put (afRegs (0 : Fin 3)).afen (1) : State)) (((fun (s : State) => ({ s.put Fld.WCH_STAT_READY 1 with boot := { s.boot with inReset := false }, pow := { s.pow with down := 0, step := 0, refOff := false } } : State)) State.reset).put (Fld.WCH_FMn_CFG_EN.i (0 : Fin 3)) (1))))) : State), (0 : Fin 3), _, rfl, by decide +kernel⟩,
    ⟨((((fun (s : State) => ({ s with wch := { s.wch with chan := (s.wch.chan.set ((0 : Fin 3)) ({ s.wch.chan[(0 : Fin 3)] with tries := (0 : Nat) :: ([] : List Nat) })) } } : State)) State.reset).put Fld.WCH_CTRL_FLOW 0) : State), (0 : Fin 3), (true : Bool), (0 : Nat), (100 : Nat), (0 : Nat), ([] : List Nat), _, rfl, _, rfl, by decide +kernel⟩,
    ⟨(((fun (s : State) => ({ s with wch := { s.wch with chan := (s.wch.chan.set ((0 : Fin 3)) ({ s.wch.chan[(0 : Fin 3)] with tries := (0 : Nat) :: ([9000] : List Nat) })) } } : State)) State.reset) : State), (0 : Fin 3), (false : Bool), (0 : Nat), (0 : Nat), (0 : Nat), ([9000] : List Nat), _, rfl, _, rfl, by decide +kernel⟩,
    ⟨(((fun (s : State) => ({ s with wch := { s.wch with chan := (s.wch.chan.set ((0 : Fin 3)) ({ s.wch.chan[(0 : Fin 3)] with tries := (0 : Nat) :: ([] : List Nat) })) } } : State)) State.reset) : State), (0 : Fin 3), (false : Bool), (0 : Nat), (0 : Nat), (0 : Nat), ([] : List Nat), _, rfl, _, rfl, by decide +kernel⟩,
    ⟨(((((fun (s : State) => (s.put Fld.WCH_BT_CFG_TSRC ((0 : Fin 4).val) : State)) State.reset).put (Fld.WCH_FMn_CFG_EN.i 0) 1).put (Fld.WCH_FMn_STAT_SYNC.i 0) 1) : State), (0 : Fin 4), by decide +kernel⟩,
    ⟨(State.reset : State), (⟨16, 2⟩ : Req), by decide +kernel⟩,
    ⟨((((State.reset.put Fld.WCH_CTRL_EN (1)).put (Fld.WCH_SWn_CFG_BW.i 0) 1).put (Fld.WCH_SWn_FREQ_FREQ.i 0) 70000) : State), (⟨16, 2⟩ : Req), ((setBits Fld.WCH_SW_CFG_SRC (setBits Fld.WCH_SW_CFG_STOP (setBits Fld.WCH_SW_CFG_GO (0 : Word) (1)) (0)) (0)) : Word), by decide +kernel⟩,
    ⟨((State.reset.put Fld.WCH_SW_STAT_BUSY (1)) : State), (⟨16, 2⟩ : Req), ((setBits Fld.WCH_SW_CFG_STOP (setBits Fld.WCH_SW_CFG_GO (0 : Word) (1)) (0)) : Word), by decide +kernel⟩,
    ⟨(((State.reset.put Fld.WCH_SW_STAT_BUSY (1)).put Fld.WCH_CTRL_SWREC (0)) : State), (⟨16, 2⟩ : Req), ((setBits Fld.WCH_SW_CFG_GO (0 : Word) (0)) : Word), by decide +kernel⟩,
    ⟨(((State.reset.put Fld.WCH_SW_STAT_BUSY 1).put Fld.WCH_CTRL_SWREC 0) : State), (0 : Nat), (secU : Nat), _, rfl, by decide +kernel⟩,
    ⟨(((fun (s : State) => ({ s with wch := { s.wch with dwell := 9500 * usU } } : State)) ((State.reset.put Fld.WCH_SW_STAT_BUSY 1).put Fld.WCH_CTRL_SWREC 0)) : State), (0 : Nat), _, rfl, by decide +kernel⟩⟩

theorem wit_IdleTick :
    (∃ s : State, s.pending = []) :=
  ⟨(State.reset : State), by decide +kernel⟩

theorem wit_KeepsCanonical :
    (∃ s : State, ∃ t : State, s.canonical ∧ step s = .next t) :=
  ⟨(State.reset : State), (State.reset.idle : State), ⟨rfWf_nil, rfWf_nil, fun _ e => (nomatch e), memory_wf_nil⟩, rfl⟩

theorem wit_AddressMap :
    (∃ o : Nat, o < 0x1000000) ∧
    (∃ o : Nat, o < 0x1000000 ∧ o < 0x300000) ∧
    (∃ o : Nat, o < 0x1000000 ∧ 0x800000 ≤ o ∧ o < 0x8F0000) ∧
    (∃ o : Nat, o < 0x1000000 ∧ 0x800000 ≤ o ∧ o < 0x8F0000 ∧ o % 0x10000 = 0) ∧
    (∃ o : Nat, o < 0x1000000 ∧ 0x300000 ≤ o ∧ o < 0x800000) ∧
    (∃ o : Nat, o < 0x1000000 ∧ 0x8F0000 ≤ o) :=
  ⟨
    ⟨(0 : Nat), by decide +kernel⟩,
    ⟨(0 : Nat), by decide +kernel⟩,
    ⟨(0x800000 : Nat), by decide +kernel⟩,
    ⟨(0x800000 : Nat), by decide +kernel⟩,
    ⟨(0x300000 : Nat), by decide +kernel⟩,
    ⟨(0x8F0000 : Nat), by decide +kernel⟩⟩

theorem wit_DmaWriters :
    (∃ s : State, ∃ r : Req, ∃ h : Fin 8, ∃ o : Nat, o < 0x10000 ∧ Takes s r (hamletBase h + 0x820000 + o) ∧ r.id ≠ 16 ∧ ((r.id ≠ h.val ∨ r.priv ≠ 1 ∨ o = 0x10)) ∧ s.get Fld.SYS_BADACC_INFO_VALID = 1) ∧
    (∃ s : State, ∃ r : Req, ∃ h : Fin 8, ∃ o : Nat, o < 0x10000 ∧ Takes s r (hamletBase h + 0x820000 + o) ∧ r.id ≠ 16 ∧ ((r.id ≠ h.val ∨ r.priv ≠ 1 ∨ o = 0x10)) ∧ s.get Fld.SYS_BADACC_INFO_VALID = 0) ∧
    (∃ s : State, ∃ r : Req, ∃ h : Fin 8, ∃ v : Word, Takes s r (hamletBase h + Reg.DMA_CTRL) ∧ r.id = 16 ∧ s.get (Fld.DMA_CTRL_STOPALL.h h) = 1 ∧ v.getLsbD 0 = false) :=
  ⟨
    ⟨(((State.reset.put (Fld.PWR_HSTATE_STATE.sub ((0 : Fin 8))) 3).put Fld.SYS_BADACC_INFO_VALID (1)) : State), (⟨0, 0⟩ : Req), (0 : Fin 8), (0 : Nat), by decide +kernel⟩,
    ⟨((State.reset.put (Fld.PWR_HSTATE_STATE.sub ((0 : Fin 8))) 3) : State), (⟨0, 0⟩ : Req), (0 : Fin 8), (0 : Nat), by decide +kernel⟩,
    ⟨(((State.reset.put (Fld.PWR_HSTATE_STATE.sub ((0 : Fin 8))) 3).put (Fld.DMA_CTRL_STOPALL.h (0 : Fin 8)) (1)) : State), (⟨16, 2⟩ : Req), (0 : Fin 8), (0 : Word), by decide +kernel⟩⟩

theorem wit_FmQuality :
    (∃ s : State, ∃ n : Fin 2, s.get (Fld.WCH_FMn_CFG_EN.i n) = 1 ∧ s.get (Fld.WCH_FMn_STAT_SYNC.i n) = 1 ∧ s.get (Fld.WCH_FMn_CFG_RBDS.i n) = 1 ∧ s.get (Fld.WCH_FMn_STAT_AFTRY.i n) = 1 ∧ s.wch.chan[n.castSucc].blocks.length = 64) ∧
    (∃ s : State, ∃ n : Fin 2, s.get (Fld.WCH_FMn_STAT_SYNC.i n) = 0) :=
  ⟨
    ⟨(((fun (s : State) => ({ s with wch := { s.wch with chan := s.wch.chan.set (0 : Fin 2).castSucc { s.wch.chan[(0 : Fin 2).castSucc] with blocks := List.replicate 64 true } } } : State)) ((((State.reset.put (Fld.WCH_FMn_CFG_EN.i (0 : Fin 2)) (1)).put (Fld.WCH_FMn_STAT_SYNC.i (0 : Fin 2)) (1)).put (Fld.WCH_FMn_CFG_RBDS.i (0 : Fin 2)) (1)).put (Fld.WCH_FMn_STAT_AFTRY.i (0 : Fin 2)) (1))) : State), (0 : Fin 2), by decide +kernel⟩,
    ⟨(State.reset : State), (0 : Fin 2), by decide +kernel⟩⟩

end Sys2Proof.Machine
end

section
/-!
PROOFS. The hamlet window (R36): where an address of the window lies, by its offset from the window's base.
-/

namespace Sys2Proof.Machine

/-- The offset in a hamlet's window, from its address (R35). -/
theorem hamletBase_add_mod (h : Nat) {o : Nat} (ho : o < 0x1000000) : (hamletBase h + o) % 0x1000000 = o := by
  unfold hamletBase
  omega

/-- The eight windows fill 0x10000000 to 0x17FFFFFF (R35). -/
theorem hamletBase_add_bounds (h : Fin 8) {o : Nat} (ho : o < 0x1000000) :
    0x10000000 ≤ hamletBase h + o ∧ hamletBase h + o < 0x18000000 := by
  unfold hamletBase
  omega

/-- An address of a hamlet's window belongs to that hamlet (R35). -/
theorem hamletOf_hamletBase_add (h : Fin 8) {o : Nat} (ho : o < 0x1000000) : hamletOf (hamletBase h + o) = some h := by
  have index : (hamletBase h + o - 0x10000000) / 0x1000000 = h := by
    unfold hamletBase
    omega
  rw [hamletOf, if_pos (hamletBase_add_bounds h ho), index, Fin.ofNat_val_eq_self]

/-- An address of hamlet `h`'s window that lies in a store lies in store `h` (R277). -/
theorem storeOf_hamletBase_add (h : Fin 8) {o : Nat} (ho : o < 0x1000000) : storeOf (hamletBase h + o) = h := by
  rw [storeOf, hamletOf_hamletBase_add h ho]

/-- The store of a hamlet is the first 3 MiB of its window (R36). -/
theorem inStore_hamletBase_add_iff (h : Fin 8) {o : Nat} (ho : o < 0x1000000) :
    inStore (hamletBase h + o) = true ↔ o < 0x300000 := by
  have bounds := hamletBase_add_bounds h ho
  simp only [inStore, hamletBase_add_mod h ho, Bool.or_eq_true, Bool.and_eq_true, decide_eq_true_eq]
  omega

/-- The register blocks of a hamlet lie at offsets 0x800000 to 0x8EFFFF of its window (R36). -/
theorem inRegs_hamletBase_add_iff (h : Fin 8) {o : Nat} (ho : o < 0x1000000) :
    inRegs (hamletBase h + o) = true ↔ 0x800000 ≤ o ∧ o < 0x8F0000 := by
  have bounds := hamletBase_add_bounds h ho
  simp only [inRegs, hamletBase_add_mod h ho, Bool.or_eq_true, Bool.and_eq_true, decide_eq_true_eq]
  omega

/-- Outside register space an address of a hamlet's window is reserved unless it lies in the store (R36). -/
theorem reserved_hamletBase_add_of_not_inRegs (h : Fin 8) (o : Nat) (regs : inRegs (hamletBase h + o) = false) :
    reserved (hamletBase h + o) = !inStore (hamletBase h + o) := by
  have above : ¬ hamletBase h + o < 0x00040000 := by
    unfold hamletBase
    omega
  simp [reserved, regs, above]

/-- The first register of a block, its identity register, is never reserved (R48). -/
theorem reserved_eq_false_of_block_start {a : Nat} (regs : inRegs a = true) (start : a % 0x10000 = 0) : reserved a = false := by
  simp [reserved, regs, start]

/-- An offset outside the store and the register blocks of a hamlet's window is reserved (R36). -/
theorem reserved_gap_of_hamletBase_add (h : Fin 8) {o : Nat} (ho : o < 0x1000000) (store : 0x300000 ≤ o)
    (regs : ¬ (0x800000 ≤ o ∧ o < 0x8F0000)) :
    inRegs (hamletBase h + o) = false ∧ inStore (hamletBase h + o) = false ∧ reserved (hamletBase h + o) = true := by
  have notRegs : inRegs (hamletBase h + o) = false := by
    rwa [← Bool.not_eq_true, inRegs_hamletBase_add_iff h ho]
  have notStore : inStore (hamletBase h + o) = false := by
    rwa [← Bool.not_eq_true, inStore_hamletBase_add_iff h ho, Nat.not_lt]
  exact ⟨notRegs, notStore, by rw [reserved_hamletBase_add_of_not_inRegs h o notRegs, notStore]; rfl⟩

/-- Settles O6, region by region: the store, the register blocks, and the reserved offsets between and after them. -/
theorem addressMap : Obligations.AddressMap := by
  intro h o ho
  have base : 0x10000000 + 0x1000000 * h.val = hamletBase h := by rw [hamletBase, Nat.mul_comm]
  simp only [base]
  have storeIff := inStore_hamletBase_add_iff h ho
  have regsIff := inRegs_hamletBase_add_iff h ho
  refine ⟨hamletOf_hamletBase_add h ho, fun store => ?_, fun low high => ?_, fun low high => ?_, fun low => ?_⟩
  · have inSt := storeIff.2 store
    have notRegs : inRegs (hamletBase h + o) = false := by
      rw [← Bool.not_eq_true, regsIff]
      omega
    refine ⟨inSt, storeOf_hamletBase_add h ho, notRegs, ?_⟩
    rw [reserved_hamletBase_add_of_not_inRegs h o notRegs, inSt]
    rfl
  · have regs := regsIff.2 ⟨low, high⟩
    have notStore : inStore (hamletBase h + o) = false := by
      rw [← Bool.not_eq_true, storeIff]
      omega
    refine ⟨regs, notStore, fun start => reserved_eq_false_of_block_start regs ?_⟩
    unfold hamletBase
    omega
  · exact reserved_gap_of_hamletBase_add h ho low (by omega)
  · exact reserved_gap_of_hamletBase_add h ho (by omega) (by omega)

end Sys2Proof.Machine
end

section
/-!
PROOFS. Operations that change registers and no other field of the state, whatever the register.
-/

namespace Sys2Proof.Machine

/-- `t` is `s` but for the registers as shown. -/
def RegsOnly (s t : State) : Prop := ∃ regs, t = { s with regs := regs }

theorem RegsOnly.refl (s : State) : RegsOnly s s := ⟨s.regs, rfl⟩

theorem RegsOnly.wr {s t : State} (same : RegsOnly s t) (a : Nat) (v : Word) : RegsOnly s (t.wr a v) := by
  obtain ⟨regs, rfl⟩ := same
  exact ⟨rfWrite regs a v, rfl⟩

theorem RegsOnly.put {s t : State} (same : RegsOnly s t) (f : Field) (v : Nat) : RegsOnly s (t.put f v) := same.wr f.reg _

theorem RegsOnly.inc {s t : State} (same : RegsOnly s t) (f : Field) : RegsOnly s (t.inc f) := same.put f _

/-- An access that changes registers alone and then answers. -/
theorem RegsOnly.ok_eq {s t : State} (same : RegsOnly s t) : t.ok = { s with resp := { err := false, data := 0 }, regs := t.ok.regs } := by
  obtain ⟨regs, rfl⟩ := same
  rfl

/-- An access that answers and then changes registers alone. -/
theorem RegsOnly.eq_of_ok {s t : State} (same : RegsOnly s.ok t) : t = { s with resp := { err := false, data := 0 }, regs := t.regs } := by
  obtain ⟨regs, rfl⟩ := same
  rfl

end Sys2Proof.Machine
end

section
/-!
PROOFS. The record of a bad access (R47): what it changes while the capture register is taken and while it is free.
-/

namespace Sys2Proof.Machine

/-- The word that a captured bad access leaves in `SYS_BADACC_INFO` (R47). -/
def badAccessInfo (r : Req) (size : Nat) (write : Bool) (reason : Nat) : Nat :=
  2 ^ 31 + reason * 2 ^ 13 + b2n write * 2 ^ 12 + size * 2 ^ 10 + r.priv % 4 * 2 ^ 8 + r.id % 32

/-- The state with a bad access at `a` counted and captured, before its notice is raised (R47). -/
def State.captureBadAccess (s : State) (a info : Nat) : State :=
  ((s.inc Fld.SYS_BADACC_CNT_COUNT).wr Reg.SYS_BADACC_ADDR (BitVec.ofNat 32 a)).wr Reg.SYS_BADACC_INFO (BitVec.ofNat 32 info)

/-- Capturing a bad access changes registers alone. -/
theorem State.regsOnly_captureBadAccess (s : State) (a info : Nat) : RegsOnly s (s.captureBadAccess a info) :=
  (((RegsOnly.refl s).inc _).wr _ _).wr _ _

/-- Counting a bad access leaves VALID as it was. -/
theorem State.flag_badAccessValid_inc (s : State) :
    (s.inc Fld.SYS_BADACC_CNT_COUNT).flag Fld.SYS_BADACC_INFO_VALID = s.flag Fld.SYS_BADACC_INFO_VALID := by
  have other : (s.inc Fld.SYS_BADACC_CNT_COUNT).get Fld.SYS_BADACC_INFO_VALID = s.get Fld.SYS_BADACC_INFO_VALID :=
    State.get_put_reg s _ (by decide)
  rw [State.flag, State.flag, other]

/-- While the capture register is taken a bad access is only counted (R47). -/
theorem State.badAccess_of_valid {s : State} (valid : s.get Fld.SYS_BADACC_INFO_VALID = 1) (r : Req) (a size : Nat) (write : Bool) (reason : Nat) :
    s.badAccess r a size write reason = s.inc Fld.SYS_BADACC_CNT_COUNT := by
  have taken : (s.inc Fld.SYS_BADACC_CNT_COUNT).flag Fld.SYS_BADACC_INFO_VALID = true := by
    rw [State.flag_badAccessValid_inc, State.flag, valid]
    rfl
  exact if_pos taken

/-- While the capture register is free a bad access is captured and its notice raised (R47). -/
theorem State.badAccess_of_free {s : State} (free : s.get Fld.SYS_BADACC_INFO_VALID = 0) (r : Req) (a size : Nat) (write : Bool) (reason : Nat) :
    s.badAccess r a size write reason
      = (s.captureBadAccess a (badAccessInfo r size write reason)).raise 0x400 0xFF (badAccessInfo r size write reason) := by
  have notTaken : ¬ (s.inc Fld.SYS_BADACC_CNT_COUNT).flag Fld.SYS_BADACC_INFO_VALID = true := by
    rw [State.flag_badAccessValid_inc, State.flag, free]
    decide
  exact if_neg notTaken

/-- The counter of bad accesses goes up by one and stays at its largest value (R8, R47). -/
theorem State.get_badAccessCount_inc (s : State) :
    (s.inc Fld.SYS_BADACC_CNT_COUNT).get Fld.SYS_BADACC_CNT_COUNT = min (s.get Fld.SYS_BADACC_CNT_COUNT + 1) (2 ^ 32 - 1) := by
  have put : (s.inc Fld.SYS_BADACC_CNT_COUNT).get Fld.SYS_BADACC_CNT_COUNT
      = min (s.get Fld.SYS_BADACC_CNT_COUNT + 1) (2 ^ 32 - 1) % 2 ^ 32 := State.get_put_same s _ _ (by decide)
  rw [put, Nat.mod_eq_of_lt (by omega)]

/-- Counting a bad access writes no register but the counter. -/
theorem State.sameRegs_badAccessCount_inc (s : State) : SameRegs [Reg.SYS_BADACC_CNT] s (s.inc Fld.SYS_BADACC_CNT_COUNT) :=
  fun _ other => State.rd_put_ne s _ fun e => other (e ▸ List.mem_singleton_self _)

section
variable (s : State) (a info : Nat)

theorem State.rd_captureBadAccess_info : (s.captureBadAccess a info).rd Reg.SYS_BADACC_INFO = BitVec.ofNat 32 info :=
  State.rd_wr_same _ _ _

theorem State.rd_captureBadAccess_addr : (s.captureBadAccess a info).rd Reg.SYS_BADACC_ADDR = BitVec.ofNat 32 a :=
  (State.rd_wr_ne _ _ (by decide)).trans (State.rd_wr_same _ _ _)

theorem State.rd_captureBadAccess_cnt :
    (s.captureBadAccess a info).rd Reg.SYS_BADACC_CNT = (s.inc Fld.SYS_BADACC_CNT_COUNT).rd Reg.SYS_BADACC_CNT :=
  (State.rd_wr_ne _ _ (by decide)).trans (State.rd_wr_ne _ _ (by decide))

end

/-- The fields VALID, REASON and WRITE of the record of a write of a word (R47). -/
theorem getBits_badAccessInfo_write (r : Req) {reason : Nat} (small : reason < 8) :
    getBits Fld.SYS_BADACC_INFO_VALID (BitVec.ofNat 32 (badAccessInfo r 2 true reason)) = 1
      ∧ getBits Fld.SYS_BADACC_INFO_REASON (BitVec.ofNat 32 (badAccessInfo r 2 true reason)) = reason
      ∧ getBits Fld.SYS_BADACC_INFO_WRITE (BitVec.ofNat 32 (badAccessInfo r 2 true reason)) = 1 := by
  simp only [getBits, badAccessInfo, b2n, BitVec.toNat_ofNat, Fld.SYS_BADACC_INFO_VALID, Fld.SYS_BADACC_INFO_REASON,
    Fld.SYS_BADACC_INFO_WRITE, if_true]
  omega

/-- A refused write while the capture register is taken: the counter of bad accesses goes up, and nothing else changes (R47). -/
theorem State.refuse4_of_valid {s : State} (valid : s.get Fld.SYS_BADACC_INFO_VALID = 1) (r : Req) (a : Nat) :
    s.refuse4 r a = { s with resp := { err := false, data := 0 }, regs := (s.refuse4 r a).regs }
      ∧ SameRegs [Reg.SYS_BADACC_CNT] s (s.refuse4 r a)
      ∧ (s.refuse4 r a).get Fld.SYS_BADACC_CNT_COUNT = min (s.get Fld.SYS_BADACC_CNT_COUNT + 1) (2 ^ 32 - 1) := by
  have counted : s.refuse4 r a = (s.inc Fld.SYS_BADACC_CNT_COUNT).ok := by rw [State.refuse4, State.badAccess_of_valid valid]
  rw [counted, State.get_ok]
  refine ⟨((RegsOnly.refl s).inc _).ok_eq, fun b other => ?_, s.get_badAccessCount_inc⟩
  rw [State.rd_ok, s.sameRegs_badAccessCount_inc b other]

/-- A refused write while the capture register is free changes registers, what the notice can reach, and nothing else (R47, R474). -/
theorem State.refuse4_frame_of_free {s : State} (free : s.get Fld.SYS_BADACC_INFO_VALID = 0) (r : Req) (a : Nat) :
    s.refuse4 r a = { s with
      resp := { err := false, data := 0 }, regs := (s.refuse4 r a).regs, out := (s.refuse4 r a).out,
      flt := (s.refuse4 r a).flt, port := (s.refuse4 r a).port, lnk := (s.refuse4 r a).lnk } := by
  obtain ⟨_, _, _, _, _, notice⟩ :=
    (s.captureBadAccess a (badAccessInfo r 2 true 4)).raise_low 0x400 0xFF (badAccessInfo r 2 true 4) (by decide)
  obtain ⟨_, captured⟩ := s.regsOnly_captureBadAccess a (badAccessInfo r 2 true 4)
  rw [State.refuse4, State.badAccess_of_free free, notice, captured]
  rfl

/-- A refused write while the capture register is free: a register that the notice cannot write holds what the capture left in it. -/
theorem State.rd_refuse4_of_free {s : State} (free : s.get Fld.SYS_BADACC_INFO_VALID = 0) (r : Req) (a : Nat) {b : Nat}
    (quiet : raiseTouches b = false) : (s.refuse4 r a).rd b = (s.captureBadAccess a (badAccessInfo r 2 true 4)).rd b := by
  rw [State.refuse4, State.badAccess_of_free free, State.rd_ok, State.raise_rd _ _ _ _ quiet]

/-- A refused write while the capture register is free is counted and captured with reason 4 (R47). -/
theorem State.get_refuse4_of_free {s : State} (free : s.get Fld.SYS_BADACC_INFO_VALID = 0) (r : Req) {a : Nat} (word : a < 2 ^ 32) :
    (s.refuse4 r a).get Fld.SYS_BADACC_CNT_COUNT = min (s.get Fld.SYS_BADACC_CNT_COUNT + 1) (2 ^ 32 - 1)
      ∧ (s.refuse4 r a).get Fld.SYS_BADACC_INFO_VALID = 1 ∧ (s.refuse4 r a).get Fld.SYS_BADACC_INFO_REASON = 4
      ∧ (s.refuse4 r a).get Fld.SYS_BADACC_INFO_WRITE = 1 ∧ (s.refuse4 r a).get Fld.SYS_BADACC_ADDR_ADDR = a := by
  have cnt := (State.rd_refuse4_of_free free r a (b := Reg.SYS_BADACC_CNT) (by decide)).trans (State.rd_captureBadAccess_cnt s a _)
  have info := (State.rd_refuse4_of_free free r a (b := Reg.SYS_BADACC_INFO) (by decide)).trans (State.rd_captureBadAccess_info s a _)
  have addr := (State.rd_refuse4_of_free free r a (b := Reg.SYS_BADACC_ADDR) (by decide)).trans (State.rd_captureBadAccess_addr s a _)
  obtain ⟨valid, reason, write⟩ := getBits_badAccessInfo_write r (reason := 4) (by decide)
  refine ⟨?_, (congrArg _ info).trans valid, (congrArg _ info).trans reason, (congrArg _ info).trans write, ?_⟩
  · exact (congrArg (getBits Fld.SYS_BADACC_CNT_COUNT) cnt).trans s.get_badAccessCount_inc
  · refine (congrArg (getBits Fld.SYS_BADACC_ADDR_ADDR) addr).trans ?_
    simp only [getBits, Fld.SYS_BADACC_ADDR_ADDR, BitVec.toNat_ofNat]
    omega

end Sys2Proof.Machine
end

section
/-!
PROOFS. Writes to the DMA block (R306): from the register bridge to the block's own rule, and what that rule refuses.
-/

namespace Sys2Proof.Machine

/-- An address of a hamlet's window as the register map names it (R36). -/
theorem localAddr_hamletBase_add (h : Fin 8) {l : Nat} (window : l < 0x1000000) : localAddr (hamletBase h + l) = l := by
  rw [localAddr, if_pos (hamletBase_add_bounds h window).1, hamletBase_add_mod h window]

/-- REGISTER_WRITE that passes its checks has the register's own effect, and away from `ARB_CTRL` no other. -/
theorem exec_registerWrite_taken {s : State} {r : Req} {a : Nat} (taken : Takes s r a) (other : localAddr a ≠ Reg.ARB_CTRL) (v : Word) :
    exec (.registerWrite r a v) s = .next (regWrite r a v s.ok) := by
  have thawedSelf (t : State) : thawed a t = t := by
    unfold thawed
    split
    · exact if_neg fun atArb => other atArb.1
    · rfl
  have effect : exec (.registerWrite r a v) s = .next (regCmd r a v (fun s => thawed a (regWrite r a v s)) s) := rfl
  rw [effect, regCmd_ok taken, thawedSelf]

section
variable (h : Fin 8) {l : Nat} (block : l / 0x10000 = 0x82)
include block

/-- An access to the DMA block brings no count up to date. -/
theorem upToDate_dma (s : State) : upToDate h l s = s := by
  have counts : l ≠ Reg.TXC_UNLOCK_CNT ∧ l ≠ Reg.RXC_UNLOCK_CNT ∧ l ≠ Reg.TXC_STAT ∧ l ≠ Reg.TXC_SATSRC := by
    simp only [Reg.TXC_UNLOCK_CNT, Reg.RXC_UNLOCK_CNT, Reg.TXC_STAT, Reg.TXC_SATSRC]
    omega
  have spans : inSpan l Reg.TXC_SATk 32 = false ∧ inSpan l Reg.TXC_CLIPk 32 = false := by
    simp only [inSpan, Reg.TXC_SATk, Reg.TXC_CLIPk, Bool.and_eq_false_iff, decide_eq_false_iff_not]
    omega
  simp [upToDate, counts, spans]

/-- A write to a register of the DMA block, other than its identity and LOCK registers, has the block's own effect. -/
theorem regWrite_dma (own : l % 0x10000 ≠ 0 ∧ l % 0x10000 ≠ 0xFFFC) (r : Req) (v : Word) (s : State) :
    regWrite r (hamletBase h + l) v s = dmaWrite r h (hamletBase h + l) v s := by
  have window : l < 0x1000000 := by omega
  have offset : (hamletBase h + l) % 0x10000 = l % 0x10000 := by
    unfold hamletBase
    omega
  rw [regWrite, offset, if_neg own.2, if_neg own.1, hamletOf_hamletBase_add h window, localAddr_hamletBase_add h window]
  simp only [hamletWrite, upToDate_dma h block, block]

/-- A requester that may not write the DMA block is refused at its identity register too (R306). -/
theorem regWrite_dmaId_refused (identity : l % 0x10000 = 0) {r : Req} (stranger : dmaWriter r h = false) (v : Word) (s : State) :
    regWrite r (hamletBase h + l) v s = s.refuse4 r (hamletBase h + l) := by
  have window : l < 0x1000000 := by omega
  have offset : (hamletBase h + l) % 0x10000 = 0 := by
    unfold hamletBase
    omega
  rw [regWrite, offset, if_neg (by decide), if_pos rfl, hamletOf_hamletBase_add h window, localAddr_hamletBase_add h window]
  simp [block, stranger]

/-- A requester that may not write the DMA block is refused at its LOCK register too (R49, R306). -/
theorem regWrite_dmaLock_refused (lock : l % 0x10000 = 0xFFFC) {r : Req} (stranger : dmaWriter r h = false) (v : Word) (s : State) :
    regWrite r (hamletBase h + l) v s = s.refuse4 r (hamletBase h + l) := by
  have offset : (hamletBase h + l) % 0x10000 = 0xFFFC := by
    unfold hamletBase
    omega
  obtain ⟨notReeve, notEngine⟩ := Bool.or_eq_false_iff.1 stranger
  rw [regWrite, offset, if_pos rfl, lockRegWrite, hamletOf_hamletBase_add h (by omega)]
  simp [notReeve, notEngine]

/-- A requester that may not write the DMA block is refused everywhere in it (R306). -/
theorem regWrite_dma_refused {r : Req} (stranger : dmaWriter r h = false) (v : Word) (s : State) :
    regWrite r (hamletBase h + l) v s = s.refuse4 r (hamletBase h + l) := by
  by_cases identity : l % 0x10000 = 0
  · exact regWrite_dmaId_refused h block identity stranger v s
  by_cases lock : l % 0x10000 = 0xFFFC
  · exact regWrite_dmaLock_refused h block lock stranger v s
  rw [regWrite_dma h block ⟨identity, lock⟩, dmaWrite, stranger]
  rfl

end

/-- A write of `DMA_CTRL` by a requester that may write the block has the effect of STOPALL alone (R306, R324). -/
theorem regWrite_dmaCtrl (h : Fin 8) {r : Req} (writer : dmaWriter r h = true) (v : Word) (s : State) :
    regWrite r (hamletBase h + Reg.DMA_CTRL) v s = dmaStopallWrite r h v s := by
  have offset : localAddr (hamletBase h + Reg.DMA_CTRL) = Reg.DMA_CTRL := localAddr_hamletBase_add h (by decide)
  rw [regWrite_dma h (by decide) (by decide), dmaWrite, offset]
  simp [writer]

/-- STOPALL is refused to every requester but the Reeve (R306). -/
theorem regWrite_dmaCtrl_refused (h : Fin 8) {r : Req} (notReeve : r.id ≠ 16) (v : Word) (s : State) :
    regWrite r (hamletBase h + Reg.DMA_CTRL) v s = s.refuse4 r (hamletBase h + Reg.DMA_CTRL) := by
  cases writer : dmaWriter r h with
  | false => exact regWrite_dma_refused h (by decide) writer v s
  | true => rw [regWrite_dmaCtrl h writer, dmaStopallWrite, if_pos notReeve]

/-- The Reeve clears STOPALL (R306, R324). -/
theorem regWrite_dmaCtrl_clear (h : Fin 8) {r : Req} (reeve : r.id = 16) {v : Word} (clear : v.getLsbD 0 = false) (s : State) :
    regWrite r (hamletBase h + Reg.DMA_CTRL) v s = s.put (Fld.DMA_CTRL_STOPALL.h h) 0 := by
  have writer : dmaWriter r h = true := by simp [dmaWriter, reeve]
  rw [regWrite_dmaCtrl h writer, dmaStopallWrite, if_neg (not_not.2 reeve), clear]
  rfl

/-- A write to the DMA block that R306 does not allow is refused: the requester is neither the engine at kernel level nor the Reeve, or the register is `DMA_CTRL`
and the requester not the Reeve. -/
theorem regWrite_dma_barred (h : Fin 8) {o : Nat} (inside : o < 0x10000) {r : Req} (notReeve : r.id ≠ 16)
    (barred : r.id ≠ h.val ∨ r.priv ≠ 1 ∨ o = 0x10) (v : Word) (s : State) :
    regWrite r (hamletBase h + (0x820000 + o)) v s = s.refuse4 r (hamletBase h + (0x820000 + o)) := by
  by_cases stopall : o = 0x10
  · subst stopall
    exact regWrite_dmaCtrl_refused h notReeve v s
  · have stranger : dmaWriter r h = false := by
      simp only [dmaWriter, Bool.or_eq_false_iff, Bool.and_eq_false_iff, beq_eq_false_iff_ne]
      tauto
    exact regWrite_dma_refused h (by omega) stranger v s

/-- Settles O7: the refused write is one `refuse4`, whose record is that of a bad access; the Reeve's write of STOPALL is one field put. -/
theorem dmaWriters : Obligations.DmaWriters := by
  refine ⟨fun s r h o v inside taken notReeve barred => ?_, fun s r h v taken reeve _ clear => ?_⟩
  · rw [Nat.add_assoc] at taken ⊢
    have window : 0x820000 + o < 0x1000000 := by omega
    have notArb : localAddr (hamletBase h + (0x820000 + o)) ≠ Reg.ARB_CTRL := by
      rw [localAddr_hamletBase_add h window, Reg.ARB_CTRL]
      omega
    have refused := exec_registerWrite_taken taken notArb v
    rw [regWrite_dma_barred h inside notReeve barred] at refused
    have word : hamletBase h + (0x820000 + o) < 2 ^ 32 := (hamletBase_add_bounds h window).2.trans (by decide)
    refine ⟨fun valid => Gives.of_eq refused ?_, fun free => Gives.of_eq refused ?_⟩
    · exact State.refuse4_of_valid (s := s.ok) valid r _
    · exact ⟨State.refuse4_frame_of_free (s := s.ok) free r _, State.get_refuse4_of_free (s := s.ok) free r word⟩
  · have notArb : localAddr (hamletBase h + Reg.DMA_CTRL) ≠ Reg.ARB_CTRL := by
      rw [localAddr_hamletBase_add h (by decide)]
      decide
    have cleared := exec_registerWrite_taken taken notArb v
    rw [regWrite_dmaCtrl_clear h reeve clear] at cleared
    refine Gives.of_eq cleared ⟨?_, ((RegsOnly.refl s.ok).put _ 0).eq_of_ok, fun _ other => ?_⟩
    · have fits : Fld.DMA_CTRL_STOPALL.lo + Fld.DMA_CTRL_STOPALL.width ≤ 32 := by decide
      exact (State.get_put_same s.ok (Fld.DMA_CTRL_STOPALL.h h) 0 fits).trans (Nat.zero_mod _)
    · exact State.rd_put_ne s.ok 0 fun e => other (e ▸ List.mem_singleton_self _)

end Sys2Proof.Machine
end

section
/-!
PROOFS. What holds of every command and of every step: it completes, it keeps what every closed predicate says, and so the files stay canonical.
-/

namespace Sys2Proof.Machine

/-- Settles O1: the step looks at the front of the queue alone. -/
theorem stepRunsFront : Obligations.StepRunsFront := fun _ _ _ => rfl

/-- With nothing in the queue the step is the idle tick. -/
theorem step_of_pending_nil {s : State} (empty : s.pending = []) : step s = .next s.idle := by
  unfold step
  rw [empty]

/-- A step with a command in the queue is that command, run with the queue's rest. -/
theorem step_of_pending_cons {s : State} {c : Instr} {rest : List Instr} (queue : s.pending = c :: rest) :
    step s = exec c { s with pending := rest } := by
  unfold step
  rw [queue]

/-- Settles O2: the idle tick is the empty queue's step. -/
theorem idleTick : Obligations.IdleTick := fun _ => step_of_pending_nil

/-- Every arm of the dispatch answers a next state. -/
theorem exec_completes (c : Instr) (s : State) : ∃ t, exec c s = .next t := by
  cases c <;> exact ⟨_, rfl⟩

/-- Settles O3: a command that answers keeps every closed predicate, and the queue, the record of what has left the part and the count of drawn values are such. -/
theorem commandsComplete : Obligations.CommandsComplete := by
  intro c s
  obtain ⟨t, answers⟩ := exec_completes c s
  exact ⟨t, answers, keeps_exec (closed_pending _) c s t rfl answers, keeps_exec (closed_out _) c s t ⟨[], rfl⟩ answers,
    keeps_exec (closed_free _) c s t (Nat.le_refl _) answers⟩

/-- The canonical form says nothing of the queue. -/
theorem State.canonical.with_pending {s : State} (wf : s.canonical) (q : List Instr) : State.canonical { s with pending := q } :=
  ⟨wf.regs, wf.eff, wf.held, wf.mem⟩

/-- Settles O4: the idle tick changes no file, and a command keeps the canonical form as it keeps every closed predicate. -/
theorem keepsCanonical : Obligations.KeepsCanonical := by
  intro s t wf stepped
  cases queue : s.pending with
  | nil =>
    rw [step_of_pending_nil queue] at stepped
    cases stepped
    exact ⟨wf.regs, wf.eff, wf.held, wf.mem⟩
  | cons c rest =>
    rw [step_of_pending_cons queue] at stepped
    exact keeps_exec closed_canonical c _ t (wf.with_pending rest) stepped

/-- The files are empty at reset, which is canonical. -/
theorem canonical_reset : State.reset.canonical := ⟨rfWf_nil, rfWf_nil, fun _ e => (nomatch e), memory_wf_nil⟩

/-- Settles O5: the state after reset is closed data; each register is looked up in its table. -/
theorem resetState : Obligations.ResetState := by
  refine ⟨canonical_reset, rfl, rfl, fun _ => rfl, ?_, ?_, ?_⟩
  · decide +kernel
  · decide +kernel
  · decide +kernel

end Sys2Proof.Machine
end

section
/-!
PROOFS. Registers after a field is put, at the level of register files: which fields keep their value, and which registers.
-/

namespace Sys2Proof

/-- Two fields share no bit: they lie in different registers or beside each other. -/
def Field.apart (f g : Field) : Bool := g.reg != f.reg || Nat.ble (g.lo + g.width) f.lo || Nat.ble (f.lo + f.width) g.lo

/-- A field lies within its word. -/
def Field.fits (f : Field) : Bool := Nat.ble (f.lo + f.width) 32

section
variable {f g : Field}

theorem Field.apart_h (f g : Field) (h : Nat) : (f.h h).apart (g.h h) = f.apart g := by
  have window : ((g.h h).reg != (f.h h).reg) = (g.reg != f.reg) := by
    simp [Field.h, bne]
  simp only [Field.apart, window]
  rfl

theorem Field.apart_i (n : Nat) (dims : f.dims = g.dims) : (f.i n).apart (g.i n) = f.apart g := by
  have register : ((g.i n).reg != (f.i n).reg) = (g.reg != f.reg) := by
    simp [Field.i, bne, dims]
  simp only [Field.apart, register]
  rfl

/-- Fields of one register of an indexed set. -/
theorem Field.reg_i (n : Nat) (reg : f.reg = g.reg) (dims : f.dims = g.dims) : (f.i n).reg = (g.i n).reg := by
  rw [Field.i, Field.i, reg, dims]

/-- Fields of one register of a hamlet's window. -/
theorem Field.reg_h (h : Nat) (reg : f.reg = g.reg) : (f.h h).reg = (g.h h).reg := by
  rw [Field.h, Field.h, reg]

/-- A field of a hamlet's window lies in the register that the map names. -/
theorem Field.reg_h_eq (h : Nat) {a : Nat} (reg : f.reg = a) : (f.h h).reg = hamletBase h + a := by
  rw [Field.h, reg]

end

end Sys2Proof

namespace Sys2Proof.Machine

/-- A field's value in a register file. -/
def rfGet (l : RegFile) (f : Field) : Nat := getBits f (rfRead l f.reg)

/-- A register file with one field put. -/
def rfPut (l : RegFile) (f : Field) (v : Nat) : RegFile := rfWrite l f.reg (setBits f (rfRead l f.reg) v)

/-! The proofs below are rewrites and not `rfl`, so that a use of them in `simp` is a proof step and the kernel compares no two register files by evaluation. -/

theorem State.get_eq_rfGet (s : State) (f : Field) : s.get f = rfGet s.regs f := by rw [State.get, State.rd, rfGet]
theorem State.flag_eq_rfGet (s : State) (f : Field) : s.flag f = (rfGet s.regs f != 0) := by rw [State.flag, State.get_eq_rfGet]
theorem State.eget_eq_rfGet (s : State) (f : Field) : s.eget f = rfGet s.eff f := by rw [State.eget, State.erd, rfGet]
theorem State.rd_eq_rfRead (s : State) (a : Nat) : s.rd a = rfRead s.regs a := by rw [State.rd]
theorem State.erd_eq_rfRead (s : State) (a : Nat) : s.erd a = rfRead s.eff a := by rw [State.erd]
@[simp] theorem State.wr_regs (s : State) (a : Nat) (v : Word) : (s.wr a v).regs = rfWrite s.regs a v := by rw [State.wr]
@[simp] theorem State.put_regs (s : State) (f : Field) (v : Nat) : (s.put f v).regs = rfPut s.regs f v := by rw [State.put, State.wr_regs, State.rd, rfPut]
@[simp] theorem State.ewr_eff (s : State) (a : Nat) (v : Word) : (s.ewr a v).eff = rfWrite s.eff a v := by rw [State.ewr]
@[simp] theorem State.eput_eff (s : State) (f : Field) (v : Nat) : (s.eput f v).eff = rfPut s.eff f v := by rw [State.eput, State.ewr_eff, State.erd, rfPut]

section
variable (l : RegFile) (v : Nat) {f g : Field}

/-- A field reads what was put into it, cut to its width. -/
theorem rfGet_rfPut_self (fits : f.fits = true) : rfGet (rfPut l f v) f = v % 2 ^ f.width := by
  rw [rfGet, rfPut, rfRead_write_same, getBits_setBits_same f _ v (Nat.le_of_ble_eq_true fits)]

/-- A field put leaves every field apart from it alone. -/
theorem rfGet_rfPut_apart (fits : f.fits = true) (apart : f.apart g = true) : rfGet (rfPut l f v) g = rfGet l g := by
  rw [rfGet, rfPut, rfGet]
  by_cases same : g.reg = f.reg
  · have beside : g.lo + g.width ≤ f.lo ∨ f.lo + f.width ≤ g.lo := by
      simpa [Field.apart, same] using apart
    rw [same, rfRead_write_same, getBits_setBits_ne f g _ v (Nat.le_of_ble_eq_true fits) beside]
  · rw [rfRead_write_ne _ _ same]

theorem rfRead_rfPut_ne {a : Nat} (other : a ≠ f.reg) : rfRead (rfPut l f v) a = rfRead l a := rfRead_write_ne _ _ other

theorem rfRead_rfPut_same : rfRead (rfPut l f v) f.reg = setBits f (rfRead l f.reg) v := rfRead_write_same _ _ _

/-- A word written leaves the fields of other registers alone. -/
theorem rfGet_rfWrite_ne {a : Nat} (w : Word) (other : (g.reg != a) = true) : rfGet (rfWrite l a w) g = rfGet l g := by
  rw [rfGet, rfGet, rfRead_write_ne _ _ (bne_iff_ne.1 other)]

/-- A field of a register written reads its part of the word. -/
theorem rfGet_rfWrite_same {a : Nat} (w : Word) (at_ : g.reg = a) : rfGet (rfWrite l a w) g = getBits g w := by
  rw [rfGet, ← at_, rfRead_write_same]

theorem rfGet_lt : rfGet l f < 2 ^ f.width := Nat.mod_lt _ (Nat.two_pow_pos _)

end

/-! ### Fields of a hamlet's window, and of a register with an index -/

section
variable (l : RegFile) (v : Nat) {f g : Field}

/-- Fields of one hamlet's window keep apart as their templates do. -/
theorem rfGet_rfPut_h (h : Nat) (fits : f.fits = true) (apart : f.apart g = true) : rfGet (rfPut l (f.h h) v) (g.h h) = rfGet l (g.h h) :=
  rfGet_rfPut_apart l v fits ((Field.apart_h f g h).trans apart)

theorem rfGet_rfPut_self_h (h : Nat) (fits : f.fits = true) : rfGet (rfPut l (f.h h) v) (f.h h) = v % 2 ^ f.width := rfGet_rfPut_self l v fits

theorem rfGet_rfPut_self_i (n : Nat) (fits : f.fits = true) : rfGet (rfPut l (f.i n) v) (f.i n) = v % 2 ^ f.width := rfGet_rfPut_self l v fits

theorem rfGet_rfPut_self_ih (n h : Nat) (fits : f.fits = true) : rfGet (rfPut l ((f.i n).h h) v) ((f.i n).h h) = v % 2 ^ f.width :=
  rfGet_rfPut_self l v fits

/-- Fields of one register of an indexed set keep apart as their templates do. -/
theorem rfGet_rfPut_i (n : Nat) (fits : f.fits = true) (dims : f.dims = g.dims) (apart : f.apart g = true) :
    rfGet (rfPut l (f.i n) v) (g.i n) = rfGet l (g.i n) :=
  rfGet_rfPut_apart l v fits ((Field.apart_i n dims).trans apart)

/-- Fields of one register of an indexed set in one hamlet's window keep apart as their templates do. -/
theorem rfGet_rfPut_ih (n h : Nat) (fits : f.fits = true) (dims : f.dims = g.dims) (apart : f.apart g = true) :
    rfGet (rfPut l ((f.i n).h h) v) ((g.i n).h h) = rfGet l ((g.i n).h h) :=
  rfGet_rfPut_apart l v fits ((Field.apart_h _ _ h).trans ((Field.apart_i n dims).trans apart))

end

/-! ### Registers that no operation of a command writes -/

theorem SameRegs.refl (l : List Nat) (s : State) : SameRegs l s s := fun _ _ => rfl

theorem SameRegs.ok (l : List Nat) (s : State) : SameRegs l s s.ok := fun _ _ => rfl

theorem SameRegs.at (l : List Nat) (s : State) (t0 : Nat) : SameRegs l s (s.at t0) := fun _ _ => rfl

/-- Registers alone decide which registers read as before. -/
theorem SameRegs.congr {l : List Nat} {s t u : State} (same : SameRegs l s t) (regs : u.regs = t.regs) : SameRegs l s u :=
  fun a other => (State.rd_congr regs a).trans (same a other)

theorem SameRegs.wr {l : List Nat} {s t : State} (same : SameRegs l s t) {a : Nat} (listed : a ∈ l) (v : Word) : SameRegs l s (t.wr a v) :=
  fun b other => (State.rd_wr_ne t v fun (e : b = a) => other (e ▸ listed)).trans (same b other)

theorem SameRegs.put {l : List Nat} {s t : State} (same : SameRegs l s t) {f : Field} (listed : f.reg ∈ l) (v : Nat) : SameRegs l s (t.put f v) :=
  same.wr listed _

end Sys2Proof.Machine
end

section
/-!
PROOFS. Quality of an FM channel (R420).
-/

namespace Sys2Proof.Machine

theorem State.setChan_regs (s : State) (i : Fin 3) (c : FmChan) : (s.setChan i c).regs = s.regs := by rw [State.setChan]

theorem State.setChan_get (s : State) (i : Fin 3) (c : FmChan) : (s.setChan i c).wch.chan[i] = c := by
  simp [State.setChan]

/-- Q of 64 blocks is a percentage, which its field holds. -/
theorem qualityOf_lt {l : List Bool} (full : l.length = 64) : qualityOf l < 2 ^ Fld.WCH_FMn_STAT_Q.width := by
  have most : (l.filter id).length ≤ 64 := full ▸ List.length_filter_le id l
  simp only [qualityOf, Fld.WCH_FMn_STAT_Q]
  omega

theorem qualityOf_eq_count (l : List Bool) : qualityOf l = 100 * l.count true / 64 := by
  have good : (l.filter id).length = l.count true := by
    rw [List.count, List.countP_eq_length_filter]
    congr 2
    funext b
    cases b <;> rfl
  rw [qualityOf, good, Nat.mul_comm]

theorem bitOf_eq_testBit (v n : Nat) : bitOf v n = v.testBit n := by
  rw [bitOf, Nat.testBit_eq_decide_div_mod_eq]

/-- The blocks kept after a group with the flags `good`. -/
def pushBlocks (blocks : List Bool) (good : Nat) : List Bool :=
  let next := blocks ++ (List.range 4).map fun j => bitOf good j
  next.drop (next.length - 64)

/-- A group pushes the oldest four of 64 blocks out. -/
theorem pushBlocks_of_full {blocks : List Bool} (full : blocks.length = 64) (good : Nat) :
    pushBlocks blocks good = blocks.drop 4 ++ [good.testBit 0, good.testBit 1, good.testBit 2, good.testBit 3] := by
  simp [pushBlocks, full, List.range_succ, bitOf_eq_testBit, List.drop_append, -Nat.testBit_zero]

/-- A group of a synchronised RBDS channel that tries a candidate moves its blocks and Q, and nothing else (R420, R423). -/
theorem execRdsGroup_trying {s : State} {n : Fin 2} (bl : List Nat) (good corr offE t0 : Nat) (af : Option (List Nat))
    (en : s.get (Fld.WCH_FMn_CFG_EN.i n) = 1) (sync : s.get (Fld.WCH_FMn_STAT_SYNC.i n) = 1)
    (rbds : s.get (Fld.WCH_FMn_CFG_RBDS.i n) = 1) (aftry : s.get (Fld.WCH_FMn_STAT_AFTRY.i n) = 1) :
    execRdsGroup n bl good corr offE af t0 s = .next (State.setChan
      ((s.at t0).put (Fld.WCH_FMn_STAT_Q.i n) (qualityOf (pushBlocks s.wch.chan[n.castSucc].blocks good))) n.castSucc
      { s.wch.chan[n.castSucc] with blocks := pushBlocks s.wch.chan[n.castSucc].blocks good }) := by
  rw [State.get_eq_rfGet] at en sync rbds aftry
  simp (disch := decide) [execRdsGroup, State.flag_eq_rfGet, State.setChan_regs, rfGet_rfPut_i, en, sync, rbds, aftry, pushBlocks]

/-- Settles O8: the group's four flags push the oldest four blocks out, and Q is put from what is left. -/
theorem fmQuality : Obligations.FmQuality := by
  refine ⟨fun s n bl good corr offE t0 en sync rbds aftry full => ?_, fun s n bl good corr offE t0 af sync => ?_, fun s n => ?_⟩
  · refine Gives.of_eq (execRdsGroup_trying bl good corr offE t0 none en sync rbds aftry) ?_
    rw [pushBlocks_of_full full]
    refine ⟨?_, by rw [State.setChan_get]⟩
    rw [State.get_eq_rfGet, State.setChan_regs, State.put_regs, rfGet_rfPut_self_i _ _ _ (by decide), qualityOf_eq_count, Nat.mod_eq_of_lt]
    exact qualityOf_eq_count _ ▸ qualityOf_lt (by rw [List.length_append, List.length_drop, full]; rfl)
  · have off : s.flag (Fld.WCH_FMn_STAT_SYNC.i n) = false := by simp [State.flag, sync]
    exact congrArg Host.Outcome.next (if_neg (by rw [off, Bool.and_false]; decide))
  · refine Gives.of_eq (t := State.setChan ((s.put (Fld.WCH_FMn_STAT_SYNC.i n) 0).put (Fld.WCH_FMn_STAT_Q.i n) 0) _ _) rfl ⟨?_, ?_, ?_, ?_⟩
    · simp (disch := decide) only [State.get_eq_rfGet, State.setChan_regs, State.put_regs, rfGet_rfPut_i, rfGet_rfPut_self_i, Nat.zero_mod]
    · simp (disch := decide) only [State.get_eq_rfGet, State.setChan_regs, State.put_regs, rfGet_rfPut_self_i, Nat.zero_mod]
    · exact congrArg FmChan.blocks (State.setChan_get _ _ _)
    · refine SameRegs.congr (.put (.put (.refl _ s) (List.mem_singleton_self _) _) ?_ _) (State.setChan_regs _ _ _)
      exact List.mem_singleton.2 (Field.reg_i n rfl rfl)

end Sys2Proof.Machine
end

section
/-!
PROOFS. Two frames that most operations stay within: registers and what a notice reaches, and registers and what any fault reaches (R474 to R487).
-/

namespace Sys2Proof.Machine

/-- `t` is `s` but for the registers as shown and what a notice reaches: the fault log, the host port, a link in L1, what has left the part (R474). -/
def NoticeOnly (s t : State) : Prop :=
  ∃ regs out flt port lnk, t = { s with regs := regs, out := out, flt := flt, port := port, lnk := lnk }

/-- `t` is `s` but for the registers as shown and what a fault of any severity reaches (R474 to R487). -/
def FaultOnly (s t : State) : Prop :=
  ∃ regs out flt port lnk tly mute tx txSwap rxSwap dpd bfm slt cal, t = { s with
    regs := regs, out := out, flt := flt, port := port, lnk := lnk, tly := tly, mute := mute, tx := tx, txSwap := txSwap, rxSwap := rxSwap,
    dpd := dpd, bfm := bfm, slt := slt, cal := cal }

section
variable {s t u : State}

theorem NoticeOnly.refl (s : State) : NoticeOnly s s := ⟨_, _, _, _, _, rfl⟩

theorem NoticeOnly.of_regsOnly (same : RegsOnly s t) : NoticeOnly s t := by
  obtain ⟨_, rfl⟩ := same
  exact ⟨_, _, _, _, _, rfl⟩

theorem NoticeOnly.trans (first : NoticeOnly s t) (second : NoticeOnly t u) : NoticeOnly s u := by
  obtain ⟨_, _, _, _, _, rfl⟩ := first
  obtain ⟨_, _, _, _, _, rfl⟩ := second
  exact ⟨_, _, _, _, _, rfl⟩

theorem NoticeOnly.wr (same : NoticeOnly s t) (a : Nat) (v : Word) : NoticeOnly s (t.wr a v) :=
  same.trans (.of_regsOnly ((RegsOnly.refl t).wr a v))

theorem NoticeOnly.put (same : NoticeOnly s t) (f : Field) (v : Nat) : NoticeOnly s (t.put f v) := same.wr f.reg _

theorem NoticeOnly.raise (same : NoticeOnly s t) {num : Nat} (low : severityOf num ≤ 1) (elem info : Nat) :
    NoticeOnly s (t.raise num elem info) := by
  obtain ⟨_, _, _, _, _, raised⟩ := t.raise_low num elem info low
  exact same.trans ⟨_, _, _, _, _, raised⟩

theorem NoticeOnly.ite (c : Prop) [Decidable c] (yes : NoticeOnly s t) (no : NoticeOnly s u) : NoticeOnly s (if c then t else u) := by
  split
  · exact yes
  · exact no

theorem NoticeOnly.foldl {β : Type} {f : State → β → State} (each : ∀ t b, NoticeOnly t (f t b)) (same : NoticeOnly s t) (l : List β) :
    NoticeOnly s (l.foldl f t) := by
  induction l generalizing t with
  | nil => exact same
  | cons b l ih => exact ih (same.trans (each t b))

theorem NoticeOnly.eq (same : NoticeOnly s t) : t = { s with regs := t.regs, out := t.out, flt := t.flt, port := t.port, lnk := t.lnk } := by
  obtain ⟨_, _, _, _, _, rfl⟩ := same
  rfl

theorem FaultOnly.refl (s : State) : FaultOnly s s := ⟨_, _, _, _, _, _, _, _, _, _, _, _, _, _, rfl⟩

theorem FaultOnly.of_noticeOnly (same : NoticeOnly s t) : FaultOnly s t := by
  obtain ⟨_, _, _, _, _, rfl⟩ := same
  exact ⟨_, _, _, _, _, _, _, _, _, _, _, _, _, _, rfl⟩

theorem FaultOnly.trans (first : FaultOnly s t) (second : FaultOnly t u) : FaultOnly s u := by
  obtain ⟨_, _, _, _, _, _, _, _, _, _, _, _, _, _, rfl⟩ := first
  obtain ⟨_, _, _, _, _, _, _, _, _, _, _, _, _, _, rfl⟩ := second
  exact ⟨_, _, _, _, _, _, _, _, _, _, _, _, _, _, rfl⟩

theorem FaultOnly.put (same : FaultOnly s t) (f : Field) (v : Nat) : FaultOnly s (t.put f v) :=
  same.trans (.of_noticeOnly ((NoticeOnly.refl t).put f v))

theorem FaultOnly.raise (same : FaultOnly s t) (num elem info : Nat) : FaultOnly s (t.raise num elem info) := by
  obtain ⟨_, _, _, _, _, _, _, _, _, _, _, _, _, _, raised⟩ := t.raise_frame num elem info
  exact same.trans ⟨_, _, _, _, _, _, _, _, _, _, _, _, _, _, raised⟩

end

end Sys2Proof.Machine
end

section
/-!
PROOFS. Counting of saturated transmit samples (R107, R115), and what it leaves alone.
-/

namespace Sys2Proof.Machine

/-- `t` is `s` but for the downlink store, the registers as shown and what a fault reaches. -/
def TransmitOnly (s t : State) : Prop := ∃ dl, FaultOnly { s with dl := dl } t

section
variable {s t u : State}

theorem TransmitOnly.of_faultOnly (same : FaultOnly s t) : TransmitOnly s t := ⟨s.dl, same⟩

theorem TransmitOnly.refl (s : State) : TransmitOnly s s := .of_faultOnly (.refl s)

theorem TransmitOnly.trans (first : TransmitOnly s t) (second : TransmitOnly t u) : TransmitOnly s u := by
  obtain ⟨_, _, _, _, _, _, _, _, _, _, _, _, _, _, _, rfl⟩ := first
  obtain ⟨_, _, _, _, _, _, _, _, _, _, _, _, _, _, _, rfl⟩ := second
  exact ⟨_, _, _, _, _, _, _, _, _, _, _, _, _, _, _, rfl⟩

theorem TransmitOnly.put (same : TransmitOnly s t) (f : Field) (v : Nat) : TransmitOnly s (t.put f v) :=
  same.trans (.of_faultOnly ((FaultOnly.refl t).put f v))

theorem TransmitOnly.wr (same : TransmitOnly s t) (a : Nat) (v : Word) : TransmitOnly s (t.wr a v) :=
  same.trans (.of_faultOnly (.of_noticeOnly ((NoticeOnly.refl t).wr a v)))

theorem TransmitOnly.raise (same : TransmitOnly s t) (num elem info : Nat) : TransmitOnly s (t.raise num elem info) :=
  same.trans (.of_faultOnly ((FaultOnly.refl t).raise num elem info))

theorem TransmitOnly.dl (same : TransmitOnly s t) (dl : Dl) : TransmitOnly s { t with dl := dl } :=
  same.trans ⟨dl, .refl _⟩

theorem TransmitOnly.tx (same : TransmitOnly s t) (tx : Vector Tx 8) : TransmitOnly s { t with tx := tx } :=
  same.trans ⟨t.dl, _, _, _, _, _, _, _, tx, _, _, _, _, _, _, rfl⟩

theorem TransmitOnly.foldl {β : Type} {f : State → β → State} (each : ∀ t b, TransmitOnly t (f t b)) (same : TransmitOnly s t) (l : List β) :
    TransmitOnly s (l.foldl f t) := by
  induction l generalizing t with
  | nil => exact same
  | cons b l ih => exact ih (same.trans (each t b))

theorem TransmitOnly.ite (c : Prop) [Decidable c] (yes : TransmitOnly s t) (no : TransmitOnly s u) : TransmitOnly s (if c then t else u) := by
  split
  · exact yes
  · exact no

end

theorem transmitOnly_txSaturated (h : Fin 8) (k stage n : Nat) (s : State) : TransmitOnly s (txSaturated h k stage n s) := by
  unfold txSaturated
  refine .ite _ (.refl s) ?_
  exact .ite _ (.raise (.put (.put (.put (.refl s) _ _) _ _) _ _) _ _ _) (.put (.put (.put (.refl s) _ _) _ _) _ _)

theorem transmitOnly_countSymbols (s : State) : TransmitOnly s (countSymbols s) :=
  .foldl (fun t _ => .foldl (fun t _ => transmitOnly_txSaturated _ _ _ _ t)
    (.foldl (fun t _ => transmitOnly_txSaturated _ _ _ _ t) (.refl t) _) _) ((TransmitOnly.refl s).dl _) _

/-- Bringing the counts of saturated samples up to date changes counts, notices and the downlink store's own books alone. -/
theorem transmitOnly_txRun (s : State) : TransmitOnly s s.txRun := by
  have counted : TransmitOnly s (countSymbols { s with dl := { s.dl with done := max s.dl.done s.now } }) :=
    ((TransmitOnly.refl s).dl _).trans (transmitOnly_countSymbols _)
  refine .ite _ counted (.foldl (fun t h => .foldl (fun t k => ?_) (.refl t) _) counted _)
  exact .put (.foldl (fun t _ => transmitOnly_txSaturated _ _ _ _ t) (.refl t) _) _ _

end Sys2Proof.Machine
end

section
/-!
PROOFS. Carrier commits (R53, R55).
-/

namespace Sys2Proof.Machine

section
variable {s : State} {r : Req} {v : Word}

/-- GO is judged on the definitions held, with REFUSED left as it is where it is not written 1. -/
theorem carrierCommit_go (go : getBits Fld.LNK_CAR_COMMIT_GO v = 1) (refused : getBits Fld.LNK_CAR_COMMIT_REFUSED v = 0)
    (free : s.get Fld.LNK_CAR_COMMIT_GO = 0) :
    carrierCommit r v s = if carriersAllowed ((List.range 8).map s.carHeld) then
        { s.put Fld.LNK_CAR_COMMIT_GO 1 with carPend := some ⟨frameAfter100 s.now, s.regs.filter (fun c => carrierReg c.1), []⟩ }
      else (s.put Fld.LNK_CAR_COMMIT_REFUSED 1).raise 0x417 0xFF 0 := by
  simp [carrierCommit, go, refused, State.flag, free]

end

theorem transmitOnly_clearNcoPend (h : Fin 8) (dirty : List Nat) (s : State) : TransmitOnly s (clearNcoPend h dirty s) :=
  .foldl (fun t _ => .ite _ (.refl t) ((TransmitOnly.refl t).wr _ _)) (.refl s) _

theorem transmitOnly_commitLnk (n dir : Nat) (s : State) : TransmitOnly s (commitLnk n dir s) :=
  .ite _ ((TransmitOnly.refl s).raise _ _ _) (.refl s)

theorem transmitOnly_commitHamlet (h : Fin 8) (s : State) : TransmitOnly s (commitHamlet h s) := by
  unfold commitHamlet
  extract_lets tx rx keep kept shown txErr rxErr
  have keptOnly : TransmitOnly s kept := .tx (.tx (.refl s) _) _
  have shownOnly : TransmitOnly s shown := ((keptOnly.put _ _).put _ _).put _ _
  have txOnly : TransmitOnly s txErr := .ite _ shownOnly (shownOnly.put _ _)
  have rxOnly : TransmitOnly s rxErr := .ite _ txOnly (txOnly.put _ _)
  exact .ite _ rxOnly (rxOnly.raise _ _ _)

/-- At the commit's instant the held values are merged into the settings in force; the checks that follow change neither settings nor stores. -/
theorem carriersTakeEffect_frame (p : CarPend) (s : State) : ∃ u was, TransmitOnly (s.at p.due) u ∧ TransmitOnly
    { u with eff := rfMerge carrierReg p.vals u.eff, carPend := none, carWas := was } (carriersTakeEffect p s) := by
  unfold carriersTakeEffect
  extract_lets counted was merged cleared defined judged
  refine ⟨counted, was, transmitOnly_txRun _, ?_⟩
  have clearedOnly : TransmitOnly merged cleared := .foldl (fun t h => transmitOnly_clearNcoPend h p.dirty t) (.refl _) _
  have definedOnly : TransmitOnly merged defined := clearedOnly.dl _
  have judgedOnly : TransmitOnly merged judged :=
    .foldl (fun t n => (transmitOnly_commitLnk n 0 t).trans (transmitOnly_commitLnk n 1 _)) definedOnly _
  exact ((TransmitOnly.refl _).put _ _).trans (.foldl (fun t h => transmitOnly_commitHamlet h t) judgedOnly _)

/-- Settles O9: GO is one judgement of the held definitions; at the boundary they are merged into the settings in force. -/
theorem carrierCommits : Obligations.CarrierCommit := by
  refine ⟨fun s r v taken go refused free allowed => ?_, fun s r v taken go refused free barred => ?_, fun s p held => ?_⟩
  · have judged := (regCmd_ok (v := v) taken).trans (carrierCommit_go (s := s.ok) (r := r) go refused free)
    refine Gives.of_eq (congrArg Host.Outcome.next (judged.trans (if_pos allowed))) ⟨?_, ?_, ?_⟩
    · exact State.get_put_same s.ok _ 1 (by decide)
    · rfl
    · exact .congr (t := s.ok.put Fld.LNK_CAR_COMMIT_GO 1) (.put (f := Fld.LNK_CAR_COMMIT_GO) (.ok _ s) (List.mem_singleton_self _) _) rfl
  · have judged := (regCmd_ok (v := v) taken).trans (carrierCommit_go (s := s.ok) (r := r) go refused free)
    refine Gives.of_eq (congrArg Host.Outcome.next (judged.trans (if_neg (Bool.eq_false_iff.1 barred)))) ?_
    exact ⟨State.raise_carPend _ _ _ _, State.raise_eff _ _ _ _, State.raise_mem _ _ _ _⟩
  · obtain ⟨u, was, counted, taken⟩ := carriersTakeEffect_frame p s
    have effect : execCarrierCommitTakeEffect s = .next (carriersTakeEffect p s) := by rw [execCarrierCommitTakeEffect, held]
    refine Gives.of_eq effect ?_
    obtain ⟨_, _, _, _, _, _, _, _, _, _, _, _, _, _, _, rfl⟩ := counted
    obtain ⟨_, _, _, _, _, _, _, _, _, _, _, _, _, _, _, settled⟩ := taken
    rw [settled]
    exact ⟨rfl, rfl, rfl, rfl⟩

end Sys2Proof.Machine
end

section
/-!
PROOFS. What an access leaves behind at the arbiters (R288 to R291), and what a write to a store changes (R279, R286).
-/

namespace Sys2Proof.Machine

theorem BanksOnly.refl (s : State) : BanksOnly s s := ⟨rfl, fun _ => rfl, fun _ _ => rfl⟩

theorem BanksOnly.trans {s t u : State} (first : BanksOnly s t) (second : BanksOnly t u) : BanksOnly s u where
  rest := by
    rw [second.rest, first.rest]
  banks k := by
    rw [second.banks k, first.banks k]
  regs a other := (second.regs a other).trans (first.regs a other)

theorem BanksOnly.foldl {β : Type} {f : State → β → State} (each : ∀ t b, BanksOnly t (f t b)) (s : State) (l : List β) :
    BanksOnly s (l.foldl f s) := by
  induction l generalizing s with
  | nil => exact .refl s
  | cons b l ih => exact (each s b).trans (ih _)

theorem banksOnly_setBank (s : State) (k : Fin 10) (b : Nat) (x : Bank) : BanksOnly s (s.setBank k b x) where
  rest := rfl
  banks j := by
    by_cases same : j = k
    · subst same
      simp [State.setBank]
    · have other : k.val ≠ j.val := fun e => same (Fin.ext e.symm)
      simp [State.setBank, other]
  regs _ _ := rfl

/-- A window that reached its quota is counted, in the one counter that BanksOnly leaves out (R289). -/
theorem banksOnly_countQuota (s : State) (k : Fin 8) : BanksOnly s (s.inc ((Fld.ARB_CNTn_COUNT.i 0).h k)) := by
  obtain ⟨_, counted⟩ := (RegsOnly.refl s).inc ((Fld.ARB_CNTn_COUNT.i 0).h k)
  refine ⟨?_, fun _ => ?_, fun _ other => State.rd_put_ne s _ (other k)⟩
  · rw [counted]
  · rw [counted]

theorem banksOnly_request (s : State) (k : Fin 10) (b i : Nat) : BanksOnly s (s.request k b i) := by
  unfold State.request
  extract_lets x
  split
  · exact .refl s
  · exact banksOnly_setBank s k b _

theorem banksOnly_decideAt (s : State) (k : Fin 10) (b : Nat) : BanksOnly s (s.decideAt k b) := by
  unfold State.decideAt
  extract_lets quota
  split
  · exact .refl s
  · rename_i x reached decided
    by_cases counts : reached = true
    · have hamlet : k.val < 8 := by
        by_contra notHamlet
        simp only [quota, if_neg notHamlet, Bank.decide, Option.map_eq_some_iff] at decided
        obtain ⟨_, _, pair⟩ := decided
        simp_all
      simp only [counts, if_true]
      exact (banksOnly_setBank s k b x).trans (banksOnly_countQuota _ ⟨k.val, hamlet⟩)
    · simp only [counts]
      exact banksOnly_setBank s k b x

theorem banksOnly_arbitrate (k : Fin 10) (b i n : Nat) (s : State) : BanksOnly s (State.arbitrate k b i n s) := by
  induction n generalizing s with
  | zero => exact .refl s
  | succ n ih =>
    unfold State.arbitrate
    split
    · exact .refl s
    · exact (banksOnly_decideAt s k b).trans (ih _)

theorem banksOnly_useGrant (s : State) (k : Fin 10) (b i : Nat) : BanksOnly s (s.useGrant k b i) := by
  unfold State.useGrant
  extract_lets x used
  have usedOnly : BanksOnly s used := banksOnly_setBank s k b _
  split
  · exact usedOnly.trans (banksOnly_decideAt used k b)
  · exact usedOnly

theorem banksOnly_reach (s : State) (k : Fin 10) (i a n : Nat) (grant : Bool) : BanksOnly s (s.reach k i a n grant) := by
  refine .foldl (fun t b => ?_) s _
  extract_lets asked
  have askedOnly : BanksOnly t asked := banksOnly_request t k b i
  split
  · exact askedOnly.trans ((banksOnly_arbitrate k b i _ asked).trans (banksOnly_useGrant _ k b i))
  · exact askedOnly

/-- An access changes the banks' own state and the count of quota windows, and nothing else. -/
theorem banksOnly_access (s : State) (req : Nat) (fetch : Bool) (a n : Nat) (grant : Bool) : BanksOnly s (s.access req fetch a n grant) := by
  unfold State.access
  split
  · exact .refl s
  · exact banksOnly_reach s _ _ a n grant

/-- A field outside the counters of quota windows reads as before an access. -/
theorem BanksOnly.get {s t : State} (only : BanksOnly s t) (f : Field) (other : ∀ h : Fin 8, f.reg ≠ ((Fld.ARB_CNTn_COUNT.i 0).h h).reg) :
    t.get f = s.get f := by
  rw [State.get, State.get, only.regs _ other]

theorem BanksOnly.eq_field {α : Type} {s t : State} (only : BanksOnly s t) (field : State → α)
    (untouched : ∀ sto regs, field { s with sto := sto, regs := regs } = field s) : field t = field s := by
  rw [only.rest]
  exact untouched _ _

/-- The registers of the injectors (R286), in which a write to a store can clear ARM. -/
def injRegs : List Nat := (List.range 10).map fun k => (Fld.STO_INJ_ARM.st k).reg

theorem storeOf_lt (a : Nat) : storeOf a < 10 := by
  unfold storeOf
  split
  · omega
  · split <;> decide

/-- A write to a store changes its bytes, the errors of its words, and ARM of an injector that it meets. -/
structure StoreWrite (s t : State) : Prop where
  rest : t = { s with mem := t.mem, ecc := t.ecc, regs := t.regs }
  regs : SameRegs injRegs s t

theorem StoreWrite.refl (s : State) : StoreWrite s s := ⟨rfl, .refl _ s⟩

theorem storeWrite_putLE (s : State) (a n v : Nat) : StoreWrite s (s.putLE a n v) := by
  unfold State.putLE
  extract_lets inj written
  have plain : StoreWrite s written := ⟨rfl, .congr (.refl _ s) rfl⟩
  clear_value inj
  cases inj with
  | none => exact plain
  | some e =>
    refine ⟨rfl, .congr (t := written.put (Fld.STO_INJ_ARM.st (storeOf a)) 0) (.put plain.regs ?_ 0) rfl⟩
    exact List.mem_map.2 ⟨storeOf a, List.mem_range.2 (storeOf_lt a), rfl⟩

end Sys2Proof.Machine
end

section
/-!
PROOFS. Messages of the host port up to their own effect (R180, R183, R187, R190): what their arrival changes.
-/

namespace Sys2Proof.Machine

/-- The state in which a message of flow `m.flow` is acted on: taken from the inbox, its sequence number kept, its arrival posted. -/
def State.arrived (s : State) (m : Hdr) : State :=
  (State.takeSeq { s with port := { s.port with inbox := dropFlow m.flow s.port.inbox } } m).arrive m.flow

/-- A message on a disabled flow is dropped and counted in its cells (R183). -/
theorem takeMsg_of_disabled {s : State} {m : Hdr} (off : s.get (Fld.LNK_FLOWf_CFG_EN.i m.flow) = 0) (type n : Nat) (act : State → State) :
    takeMsg m type n act s
      = { s with port := { s.port with inbox := dropFlow m.flow s.port.inbox } }.add (Fld.LNK_CNTn_COUNT.i 5) ((n + 67) / 64) := by
  have disabled : State.flag { s with port := { s.port with inbox := dropFlow m.flow s.port.inbox } } (Fld.LNK_FLOWf_CFG_EN.i m.flow) = false :=
    bne_eq_false_iff_eq.2 off
  rw [takeMsg, disabled]
  rfl

/-- A message of type 2 with a well-formed header on an enabled flow is acted on. -/
theorem takeMsg_rtc {s : State} {m : Hdr} (on : s.get (Fld.LNK_FLOWf_CFG_EN.i m.flow) ≠ 0) {n : Nat} (ok : s.hdrOk m 2 n = true) (act : State → State) :
    takeMsg m 2 n act s = act (s.arrived m) := by
  have enabled : State.flag { s with port := { s.port with inbox := dropFlow m.flow s.port.inbox } } (Fld.LNK_FLOWf_CFG_EN.i m.flow) = true :=
    bne_iff_ne.2 on
  have formed : State.hdrOk { s with port := { s.port with inbox := dropFlow m.flow s.port.inbox } } m 2 n = true := ok
  rw [takeMsg, enabled, formed]
  rfl

/-- `t` is `s` but for the host port, posted edges and the registers in `l`. -/
structure ArrivalOnly (l : List Nat) (s t : State) : Prop where
  rest : t = { s with port := t.port, edges := t.edges, regs := t.regs }
  regs : SameRegs l s t

/-- The counter of sequence breaks (R188). -/
abbrev seqCount : Nat := (Fld.LNK_CNTn_COUNT.i 10).reg

theorem arrivalOnly_takeSeq (s : State) (m : Hdr) : ArrivalOnly [seqCount] s (s.takeSeq m) := by
  unfold State.takeSeq
  extract_lets want counted
  have same : RegsOnly s counted ∧ SameRegs [seqCount] s counted := by
    simp only [counted]
    split
    · exact ⟨.inc (.refl s) _, .put (.refl _ s) (List.mem_singleton_self _) _⟩
    · exact ⟨.refl s, .refl _ s⟩
  obtain ⟨⟨_, only⟩, regs⟩ := same
  refine ⟨?_, .congr regs rfl⟩
  rw [only]

theorem arrivalOnly_arrived (s : State) (m : Hdr) : ArrivalOnly [seqCount] s (s.arrived m) := by
  have taken := arrivalOnly_takeSeq { s with port := { s.port with inbox := dropFlow m.flow s.port.inbox } } m
  unfold State.arrived State.arrive
  split
  · exact ⟨by rw [State.postEdge, taken.rest], .congr taken.regs rfl⟩
  · exact ⟨by rw [taken.rest], .congr taken.regs rfl⟩

theorem ArrivalOnly.get {l : List Nat} {s t : State} (only : ArrivalOnly l s t) {f : Field} (other : f.reg ∉ l) : t.get f = s.get f := by
  rw [State.get, State.get, only.regs _ other]

end Sys2Proof.Machine
end

section
/-!
PROOFS. Explicit weights behind a frozen arbiter (R69, R190, R292): a body whose length does not match its header is counted and holds no vector back.
-/

namespace Sys2Proof.Machine

/-! Each evaluation of a concrete state waits for the kernel: one at a time, as in the tests. -/
set_option Elab.async false

/-- A KIND 1 body whose length does not match its header is counted as malformed (R190). -/
theorem rtcMessage_miscounted {w b : Word} {ws : List Word} (kind : w.toNat / 64 % 4 = 1) (count : ws.length ≠ 64 * (b.toNat / 4096 % 64 + 1))
    (s : State) : rtcMessage (w :: b :: ws) s = s.inc (Fld.LNK_CNTn_COUNT.i 6) := by
  have length : ¬(b :: ws).length = 1 + 64 * (((b :: ws).headD 0#32).toNat / 4096 % 64 + 1) := by
    simp only [List.length_cons, List.headD_cons]
    omega
  rw [rtcMessage, if_neg (by omega), if_pos kind, if_neg length]

/-- The header of an empty KIND 1 message on flow 8. -/
def emptyWeightsHdr : Hdr := ⟨8, 1, 0, 12, 0x80⟩

/-- Hamlet 0 in service with its arbiter frozen, carrier 0 the reference, flow 8 enabled for control messages. -/
def frozenCell : State :=
  served 0 (((cell0 ((State.reset.put (Fld.LNK_FLOWf_CFG_EN.i 8) 1).put (Fld.ARB_CTRL_FREEZE.h 0) 1)).put (Fld.LNK_FLOWf_CFG_CLASS.i 8) 1).put Fld.LNK_WCFG_EN 1)

/-- A message whose body holds no weight leaves no vector waiting, whatever its count says. -/
theorem execExplicitWeightMessage_empty :
    execExplicitWeightMessage emptyWeightsHdr [0x10000040, 0] 0 frozenCell
      = .next (((frozenCell.at 0).arrived emptyWeightsHdr).inc (Fld.LNK_CNTn_COUNT.i 6)) := by
  have taken := takeMsg_rtc (s := frozenCell.at 0) (m := emptyWeightsHdr) (n := 12) (by decide +kernel) (by decide +kernel) (rtcMessage [0x10000040, 0])
  exact congrArg Host.Outcome.next (taken.trans (rtcMessage_miscounted (by decide) (by decide) _))

/-- Refutes O10: its third clause does not ask that the body has the 64 words per vector that the header counts. A KIND 1 message with one vector counted and no
weights meets every condition, is counted as malformed, and no vector waits. -/
theorem not_controlMessages : ¬ Obligations.ControlMessages := by
  rintro ⟨_, _, held, _⟩
  obtain ⟨t, ran, length, _⟩ := held frozenCell emptyWeightsHdr 0x10000040 0 [] 0 0 (by decide +kernel) (by decide +kernel) (by decide)
    (by decide +kernel) (by decide +kernel) (by decide +kernel) (by decide +kernel)
  have state : (((frozenCell.at 0).arrived emptyWeightsHdr).inc (Fld.LNK_CNTn_COUNT.i 6)) = t :=
    Host.Outcome.next.inj (execExplicitWeightMessage_empty.symm.trans ran)
  have none : t.rtc.held = [] := by
    rw [← state, State.inc_rtc, (arrivalOnly_arrived (frozenCell.at 0) emptyWeightsHdr).rest]
    rfl
  rw [none] at length
  exact absurd length (by decide)

end Sys2Proof.Machine
end

section
/-!
PROOFS. Re-admission of a hamlet whose pins are forced (R73, R106, R484): its safety state ends, and its pins are its owners' again.
-/

namespace Sys2Proof.Machine

/-! Each evaluation of a concrete state waits for the kernel: one at a time, as in the tests. -/
set_option Elab.async false

/-- Hamlet 0 out of service, its pins forced by its safety state. -/
def pinsForced : State := { State.reset with flt := { State.reset.flt with pinSafe := State.reset.flt.pinSafe.set 0 true }, rejoin := State.reset.rejoin.set 0 none }

theorem pinsForced_pinSafe : pinsForced.flt.pinSafe[0] = true := by decide +kernel

/-- Setting HMASK's bit ends the safety state, which frees the pins. -/
theorem hmaskWrite_frees_pins : (regCmd ⟨16, 2⟩ Reg.LNK_ULC_CFG 1 (hmaskWrite ⟨16, 2⟩ 1) pinsForced).flt.pinSafe[0] = false := by decide +kernel

/-- Refutes O11: its clause on HMASK says that the write changes registers and the rejoin instants alone, and the end of a safety state also frees the hamlet's
forced pins. -/
theorem not_beamControl : ¬ Obligations.BeamControl := by
  rintro ⟨_, _, readmit, _⟩
  obtain ⟨t, ran, _, _, frame⟩ := readmit pinsForced ⟨16, 2⟩ 1 0 (by decide +kernel) (by decide +kernel) (by decide +kernel) (by decide +kernel)
    (by decide +kernel)
  have state : regCmd ⟨16, 2⟩ Reg.LNK_ULC_CFG 1 (hmaskWrite ⟨16, 2⟩ 1) pinsForced = t := Host.Outcome.next.inj ran
  have freed : t.flt.pinSafe[0] = false := state ▸ hmaskWrite_frees_pins
  have kept : t.flt = pinsForced.flt := by rw [frame]
  rw [kept, pinsForced_pinSafe] at freed
  exact absurd freed (by decide)

end Sys2Proof.Machine
end

section
/-!
PROOFS. The slot-table edit over a word with an uncorrectable error that only half lies in the entry (R81, R279, R284).
-/

namespace Sys2Proof.Machine

/-! Each evaluation of a concrete state waits for the kernel: one at a time, as in the tests. -/
set_option Elab.async false

/-- Where entry 0 of hamlet 0's active buffer begins after reset. -/
def entry0 : Nat := bufferBase 0 (State.reset.erd (hamletBase 0 + Reg.SLT_CFG)) (State.reset.get (Fld.SLT_STAT_ACTIVE.h 0)) + 96 * 0

/-- Hamlet 0 with an edit of entry 0 waiting, 1 in its first staged word, a poisoned word of the store that begins 4 bytes before the entry, and an
uncorrectable error captured already. -/
def editOverPoison : State :=
  { (State.reset.put ((Fld.SLT_STAGEn_WORD.i 0).h 0) 1).put (Fld.STO_UE_INFO_VALID.st 0) 1 with
    slt := State.reset.slt.set 0 { State.reset.slt[0] with edit := some 0 }, ecc := [⟨entry0 - 4, [0, 1, 2], true⟩] }

/-- Only a word that lies in the entry whole is written afresh: the copy finds the half-covered word lost and writes nothing. -/
theorem editOverPoison_copies_nothing (t : State) (ran : exec (.sltEditCopy 0) editOverPoison = .next t) : memRead t.mem entry0 = 0#8 := by
  rw [← Host.Outcome.next.inj ran]
  decide +kernel

/-- Refutes O13: the edit's copy does not write the staged words where the entry's edge cuts a word with an uncorrectable error in two. -/
theorem not_slotActions : ¬ Obligations.SlotActions := by
  rintro ⟨_, _, copy, _⟩
  obtain ⟨t, ran, _, _, written, _⟩ := copy editOverPoison 0 0 (by decide +kernel) (by decide +kernel) (by decide +kernel)
  have staged : memRead t.mem entry0 = 1#8 := (written 0 (by decide) 0 (by decide)).trans (by decide +kernel)
  rw [editOverPoison_copies_nothing t ran] at staged
  exact absurd staged (by decide)

end Sys2Proof.Machine
end

section
/-!
PROOFS. A write of FEP_SAFE while the hamlet's pins are forced (R85, R409).
-/

namespace Sys2Proof.Machine

/-! Each evaluation of a concrete state waits for the kernel: one at a time, as in the tests. -/
set_option Elab.async false

/-- Hamlet 0 in service, its pins forced to its safe pattern, which is 0. -/
def safeForced : State :=
  { State.reset.put (Fld.PWR_HSTATE_STATE.sub 0) 3 with flt := { State.reset.flt with pinSafe := State.reset.flt.pinSafe.set 0 true } }

/-- The forced pins follow the pattern just written. -/
theorem safeForced_follows_new (t : State) (ran : exec (.fepSafeWrite ⟨16, 2⟩ 0 1) safeForced = .next t) :
    t.get (Fld.FEP_LEVEL_LEVEL.h 0) = 1 := by
  rw [← Host.Outcome.next.inj ran]
  decide +kernel

/-- Driving the pins of the state before the write gives them the old pattern. -/
theorem safeForced_drives_old : (safeForced.drivePins 0 (if safeForced.flt.pinSafe[(0 : Fin 8)] then 0xFFF else safeForced.pinsOf 0 0)
    (getBits Fld.FEP_SAFE_SAFE 1)).get (Fld.FEP_LEVEL_LEVEL.h 0) = 0 := by decide +kernel

/-- Refutes O14: its clause on FEP_SAFE takes the levels from the pins as the state before the write drives them, and forced pins then show the old pattern, where the
write's own pattern is at the pins at once. -/
theorem not_frontEndPins : ¬ Obligations.FrontEndPins := by
  rintro ⟨_, _, _, safe, _⟩
  obtain ⟨t, ran, _, level, _⟩ := safe safeForced ⟨16, 2⟩ 0 1 (by decide +kernel) (by decide +kernel)
  exact absurd ((safeForced_follows_new t ran).symm.trans (level.trans safeForced_drives_old)) (by decide)

end Sys2Proof.Machine
end

section
/-!
PROOFS. The combine of a symbol whose subframe number lies far beyond a frame (R127).
-/

namespace Sys2Proof.Machine

/-! Each evaluation of a concrete state waits for the kernel: one at a time, as in the tests. -/
set_option Elab.async false

/-- Carrier 0 with no PRB, hamlet 0 in service, and an all-uplink entry of the slot table latched for the instant 2 s. -/
def farUplink : State := latch1 0 [0xAAAAAAAA#32] (2000 * msU) (served 0 (cell 0 (2 ^ 31) State.reset))

/-- Subframe 2000 of frame 0 begins at 2 s; seen from 2 s on, frame 0 is the next of that number. -/
def farSymbol : SymId := ⟨0, 2000, 0, 0⟩

/-- No sample reaches the path. -/
def noSamples : RxSamples := ⟨0, []⟩

/-- The combine takes the symbol's air start anew at its own instant, finds no uplink there, and counts no hamlet. -/
theorem farUplink_counts_none (t : State) (ran : exec (.ulCombine 0 farSymbol ⟨noSamples, 0⟩) farUplink = .next t) :
    t.get (Fld.LNK_UL_CNTn_COUNT.i 4) = 0 := by
  rw [← Host.Outcome.next.inj ran]
  decide +kernel

/-- Refutes O19: its clause on the combine takes the symbol's air start as seen before the combine, where the combine takes it as seen at its own instant. -/
theorem not_reception : ¬ Obligations.Reception := by
  rintro ⟨⟨_, _, combine, _⟩, _⟩
  obtain ⟨t, ran, _, _, _, counts⟩ := combine farUplink 0 farSymbol noSamples 0 (by decide +kernel)
  have counted := (farUplink_counts_none t ran).symm.trans (counts (by decide +kernel))
  exact absurd counted (by decide +kernel)

end Sys2Proof.Machine
end

section
/-!
PROOFS. A captured group with its reference, at the end of a ring whose new length is 0 (R156, R292).
-/

namespace Sys2Proof.Machine

/-! Each evaluation of a concrete state waits for the kernel: one at a time, as in the tests. -/
set_option Elab.async false

/-- A running capture of path 0 with a reference. -/
def refCapture : Capture := { set := 0, path := 0, refsel := 1, oneShot := true, len := 8, pos := 0, first := 0 }

/-- Hamlet 0 under FREEZE captures at the last position of its ring of 2 groups, whose new length of 0 waits for the wrap. -/
def shrinkingRing : State :=
  (({ State.reset with orx := State.reset.orx.set 0 { State.reset.orx[0] with cap := some refCapture, wpos := 1 } }.eput (Fld.ORX_RING_LEN.h 0) 2).put
    (Fld.ORX_RING_LEN.h 0) 0).put (Fld.ORX_RING_PEND.h 0) 1 |>.put (Fld.ARB_CTRL_FREEZE.h 0) 1

/-- The observed group takes the ring's last position, the length becomes 0, and the reference group has no place. -/
theorem shrinkingRing_takes_one (t : State) (ran : exec (.captureGroup 0 0 []) shrinkingRing = .next t) : t.orx[0].fifo.length = 1 := by
  rw [← Host.Outcome.next.inj ran]
  decide +kernel

/-- Refutes O21: under FREEZE a group and its reference make the capture FIFO one group longer, and not two, where the ring wraps to a length of 0 between them. -/
theorem not_captures : ¬ Obligations.Captures := by
  rintro ⟨⟨_, frozen, _⟩, _⟩
  obtain ⟨t, ran, longer, _⟩ := frozen shrinkingRing 0 0 [] refCapture (by decide +kernel) (by decide +kernel) (by decide +kernel) (by decide +kernel)
    (by decide +kernel) (by decide +kernel)
  have two := (shrinkingRing_takes_one t ran).symm.trans longer
  exact absurd two (by decide +kernel)

end Sys2Proof.Machine
end

section
/-!
PROOFS. A trigger of a capture set beyond the sixteenth, whose register is the deep flow's (R154, R163).
-/

namespace Sys2Proof.Machine

/-! Each evaluation of a concrete state waits for the kernel: one at a time, as in the tests. -/
set_option Elab.async false

/-- The number whose place in the array of capture sets is that of ORX_DFSTAT. -/
def setOfDeepStat : Nat := 33

/-- Hamlet 0's receiver is owned by the servo and ready, 65,549 groups are shown as unsent (as a set's word: path 5, LEN 1), and a trigger of the set in ORX_DFSTAT's place waits. -/
def strayTrigger : State :=
  { (((State.reset.put (Fld.ORX_STAT_OWNER.h 0) 2).put (Fld.ORX_STAT_READY.h 0) 1).put (Fld.PLL_STAT_LOCK.h 0) 1).put (Fld.PLL_STAT_ALIGNED.h 0) 1
      |>.put (Fld.ORX_DFSTAT_UNSENT.h 0) 0x1000D with
    orx := State.reset.orx.set 0 { State.reset.orx[0] with trigs := [(0, setOfDeepStat)] } }

/-- At the start DEEP_EN = 0 clears the count of unsent groups, and the capture takes path 0 from it. -/
theorem strayTrigger_takes_path0 (t : State) (ran : exec (.captureTrigger 0) strayTrigger = .next t) (c : Capture) (runs : t.orx[0].cap = some c) :
    c.path = 0 := by
  have path : t.orx[0].cap.map Capture.path = some 0 := by
    rw [← Host.Outcome.next.inj ran]
    decide +kernel
  rw [runs] at path
  exact Option.some.inj path

/-- Refutes O20: the clause on a trigger holds for the sixteen capture sets and is stated for every number; for the set that ORX_DFSTAT's place would be, the path is
read after the start has cleared it. -/
theorem not_orxOwnership : ¬ Obligations.OrxOwnership := by
  rintro ⟨_, _, _, trigger, _⟩
  obtain ⟨t, ran, ⟨c, runs, _, path, _⟩, _⟩ := (trigger strayTrigger 0 0 setOfDeepStat [] (by decide +kernel)).1 (by decide +kernel)
  exact absurd ((strayTrigger_takes_path0 t ran c runs).symm.trans path) (by decide +kernel)

end Sys2Proof.Machine
end

section
/-!
PROOFS. A census at a device that has counted its own place (R236, R237).
-/

namespace Sys2Proof.Machine

/-! Each evaluation of a concrete state waits for the kernel: one at a time, as in the tests. -/
set_option Elab.async false

/-- An enabled device with address 5 that has counted itself as the fourth of its chain. -/
def fourthOfChain : State :=
  { (State.reset.put Fld.TLY_CFG_EN 1).put Fld.TLY_STAT_ADDR 5 with tly := { State.reset.tly with place := some 3 } }

/-- The place that the device counted goes before its place in the census. -/
theorem fourthOfChain_keeps_place (t : State) (ran : exec (.census [5]) fourthOfChain = .next t) : t.get Fld.TLY_STAT_POS = 3 := by
  rw [← Host.Outcome.next.inj ran]
  decide +kernel

/-- Refutes O31: its clause on the census takes POS from the own address's place in the list, also where the device has counted its place, which then governs. -/
theorem not_tallyCommands : ¬ Obligations.TallyCommands := by
  rintro ⟨⟨_, _, _, _, census⟩, _⟩
  obtain ⟨t, ran, _, place, _⟩ := census fourthOfChain [5] (by decide +kernel) (by decide +kernel)
  have first := place 0 (by decide) (by decide +kernel)
  exact absurd ((fourthOfChain_keeps_place t ran).symm.trans first) (by decide)

end Sys2Proof.Machine
end

section
/-!
PROOFS. An acquisition of a converter PLL while a calibration that needs it runs (R333, R402).
-/

namespace Sys2Proof.Machine

/-! Each evaluation of a concrete state waits for the kernel: one at a time, as in the tests. -/
set_option Elab.async false

/-- A calibration of kind 3, of the converters. -/
def converterCal : CalReq := { (default : CalReq) with kind := 3 }

/-- Hamlet 0 in service, its PLL with a valid band and no lock, and a calibration of kind 3 running. -/
def calDuringAcq : State :=
  { (State.reset.put (Fld.PWR_HSTATE_STATE.sub 0) 3).put ((Fld.PLL_BANDn_VALID.i 0).h 0) 1 with
    cal := { State.reset.cal with req := State.reset.cal.req.set 0 (some converterCal) } }

theorem calDuringAcq_runs : calDuringAcq.cal.req[0] = some converterCal := by decide +kernel

/-- The acquisition takes the calibration's precondition away. -/
theorem acq_loses_cal (t : State) (ran : exec (.pllAcq ⟨16, 2⟩ 0 0x80000001#32) calDuringAcq = .next t) : t.cal.req[0] ≠ some converterCal := by
  rw [← Host.Outcome.next.inj ran]
  decide +kernel

/-- Refutes O34: its clause on ACQ says that registers and the PLL's state alone change, and an acquisition also ends the precondition of a calibration of kind 3. -/
theorem not_clocksAndPlls : ¬ Obligations.ClocksAndPlls := by
  rintro ⟨_, acquire, _⟩
  obtain ⟨t, ran, _, _, _, _, _, frame, _⟩ := acquire calDuringAcq ⟨16, 2⟩ 0 0x80000001#32 0 (by decide +kernel) (by decide +kernel) (by decide +kernel)
    (by decide +kernel) (by decide +kernel) (by decide +kernel) (by decide +kernel)
  have kept : t.cal = calDuringAcq.cal := by rw [frame]
  exact acq_loses_cal t ran (kept ▸ calDuringAcq_runs)

end Sys2Proof.Machine
end

section
/-!
PROOFS. Memory BIST of a store that keeps the data of a replaced row aside (R411).
-/

namespace Sys2Proof.Machine

/-! Each evaluation of a concrete state waits for the kernel: one at a time, as in the tests. -/
set_option Elab.async false

/-- The last pass of memory BIST runs on the store of hamlet 0, where row 5 of bank 0 is served by a spare and its own cells hold data apart. -/
def maskedRowUnderBist : State :=
  (State.reset.setSto 0 { hidden := [⟨0, 5, 5, [], []⟩] }).put Fld.BIST_STAT_PHASE 3

/-- The pass zeroes the cells behind a replaced row too: nothing is kept apart after it. -/
theorem bistPass_clears_masked_rows (t : State) (ran : exec (.bistMemoryPassEnd [] [] 0 0) maskedRowUnderBist = .next t) :
    (t.sto.map fun x => x.hidden.length) = Vector.replicate _ 0 := by
  rw [← Host.Outcome.next.inj ran]
  decide +kernel

/-- Refutes O42: its clause on a pass of memory BIST keeps everything but the time, the registers, the memory and its check bits, where the pass zeroes the cells behind a replaced row too. -/
theorem not_deviceTests : ¬ Obligations.DeviceTests := by
  rintro ⟨⟨_, _, pass, _⟩, _⟩
  obtain ⟨t, ran, _, _, _, _, frame, _⟩ := pass maskedRowUnderBist 0 [] [] 0 (.inl (by decide +kernel))
  have kept : t.sto = maskedRowUnderBist.sto := by rw [frame]
  have cleared := bistPass_clears_masked_rows t ran
  rw [kept] at cleared
  exact absurd cleared (by decide +kernel)

end Sys2Proof.Machine
end

section
/-!
PROOFS. The step of a safety clear after its ramp while an orderly stop runs (R371, R391, R485).
-/

namespace Sys2Proof.Machine

/-! Each evaluation of a concrete state waits for the kernel: one at a time, as in the tests. -/
set_option Elab.async false

/-- The safety clear of hamlet 0 waits after its ramp, an orderly stop runs, and channel 0 puts out code 5, away from its clear code 0. -/
def clearDuringStop : State :=
  { (State.reset.put Fld.THM_STAT_STOPPING 1).put (Fld.BDA_CHc_STAT_OUT.i 0) 5 with
    flt := { State.reset.flt with isoStep := State.reset.flt.isoStep.set 0 5 } }

/-- In an orderly stop the channel stands where it was: the stop's own steps move it. -/
theorem clearDuringStop_keeps_code (t : State) (ran : exec (.isolationAfterRamp 0) clearDuringStop = .next t) :
    t.get (Fld.BDA_CHc_STAT_OUT.i 0) = 5 := by
  rw [← Host.Outcome.next.inj ran]
  decide +kernel

/-- Refutes O48: its clause on the work after the ramp puts every bias channel at its clear code, where in a safety clear of an orderly stop the channels move by the stop's steps instead. -/
theorem not_isolation : ¬ Obligations.Isolation := by
  rintro ⟨_, afterRamp, _⟩
  obtain ⟨t, ran, _, channels, _⟩ := afterRamp clearDuringStop 0 (.inr (by decide +kernel)) (by decide +kernel)
  exact absurd ((clearDuringStop_keeps_code t ran).symm.trans (channels 0 (by decide)).1) (by decide +kernel)

end Sys2Proof.Machine
end

section
/-!
PROOFS. A 64-bit store to the word for which an error injection is armed (R286).
-/

namespace Sys2Proof.Machine

/-! Each evaluation of a concrete state waits for the kernel: one at a time, as in the tests. -/
set_option Elab.async false

/-- The Reeve, in machine mode at the start of its SRAM, where the words of ANDI stand; a0 points at 0x00100100. -/
def reeveAtStart : Eng := { state := 1, priv := 2, pc := 0x00100000, a := (Vector.replicate 4 0).set 0 0x00100100#32 }

/-- The Reeve is about to execute an instruction, and an error injection is armed for the word at 0x00100100. -/
def armedStore : State :=
  { ((State.reset.put (Fld.STO_INJ_ADDR_ADDR.st 8) (0x00100100 / 8)).put (Fld.STO_INJ_ARM.st 8) 1).setEng 8 reeveAtStart with
    mem := [(0x00100003, 0x08#8)] }

/-- The state after the fetch. -/
def armedFetched : State := (engFetch 8 armedStore).2

theorem armedStore_executes : Executes 8 armedStore armedFetched where
  runs := by decide +kernel
  fetch := ⟨0x08000000, Prod.ext (by decide +kernel) rfl, by decide +kernel⟩
  next := by decide +kernel
  calm := by decide +kernel

theorem armedFetched_takes_store : Plain armedFetched (engReq 8 armedFetched.eng[8].status) 0x00100100 3 true where
  taken := by decide +kernel
  store := by decide
  free := by decide +kernel
  clean := by decide +kernel

/-- The write disarms the injection. -/
theorem armedStore_disarms (t : State) (ran : exec (.st 8 0 0 0 3 0) armedStore = .next t) :
    t.rd (Fld.STO_INJ_ARM.st 8).reg ≠ armedFetched.rd (Fld.STO_INJ_ARM.st 8).reg := by
  rw [← Host.Outcome.next.inj ran]
  decide +kernel

/-- Refutes O53: its clause on stores keeps every register but the arbiters' quota counts, and a store to the word of an armed error injection disarms it. -/
theorem not_loadsAndStores : ¬ Obligations.LoadsAndStores := by
  intro holds
  obtain ⟨access, _⟩ := holds 8 armedStore armedFetched armedStore_executes (.inl (by decide +kernel)) (by decide +kernel)
  obtain ⟨_, store⟩ := access 0 0 0 3 0 0x00100100 (fun _ => by decide +kernel) (by decide) (by decide) (by decide) (fun _ => rfl)
  obtain ⟨t, ran, _, _, _, only⟩ := store armedFetched_takes_store (by decide +kernel) (by decide +kernel)
  exact armedStore_disarms t ran (only.regs _ (by decide))

end Sys2Proof.Machine
end

section
/-!
PROOFS. A TLB invalidation while a store of its engine waits (R273, R354).
-/

namespace Sys2Proof.Machine

/-! Each evaluation of a concrete state waits for the kernel: one at a time, as in the tests. -/
set_option Elab.async false

/-- The Reeve stands before an instruction, and a store of its waits for hamlet 0. -/
def storeWaiting : State :=
  { State.reset.setEng 8 reeveAtStart with
    mem := [(0x00100003, 0x08#8)]
    stalled := [⟨⟨16, 2⟩, 0x10000000, 2, true, 0, 0x10000000⟩] }

/-- The state after the fetch. -/
def storeWaitingFetched : State := (engFetch 8 storeWaiting).2

theorem storeWaiting_executes : Executes 8 storeWaiting storeWaitingFetched where
  runs := by decide +kernel
  fetch := ⟨0x08000000, Prod.ext (by decide +kernel) rfl, by decide +kernel⟩
  next := by decide +kernel
  calm := by decide +kernel

/-- The invalidation waits for the store: the PC stays. -/
theorem storeWaiting_holds_tlbiall (t : State) (ran : exec (.tlbiall 8) storeWaiting = .next t) : t.eng[8].pc = 0x00100000 := by
  rw [← Host.Outcome.next.inj ran]
  decide +kernel

/-- Refutes O56: its clause on TLB invalidations says that they retire from every state, and they wait while a store of their engine does. -/
theorem not_engineControl : ¬ Obligations.EngineControl := by
  rintro ⟨_, control, _⟩
  obtain ⟨_, _, invalidations, _⟩ := control 8 storeWaiting storeWaitingFetched storeWaiting_executes 0 0 0 0
  obtain ⟨⟨t, ran, _, pc, _⟩, _⟩ := invalidations (by decide +kernel)
  exact absurd ((storeWaiting_holds_tlbiall t ran).symm.trans pc) (by decide +kernel)

end Sys2Proof.Machine
end

section
/-!
PROOFS. ABORT of a stopped DMA channel with triggers pending (R321).
-/

namespace Sys2Proof.Machine

/-! Each evaluation of a concrete state waits for the kernel: one at a time, as in the tests. -/
set_option Elab.async false

/-- Hamlet 0 in service; channel 0 of its DMA block is stopped and shows five pending triggers. -/
def stoppedWithTriggers : State := (State.reset.put (Fld.PWR_HSTATE_STATE.sub 0) 3).put (dmaF Fld.DMA_CHn_STAT_PENDTRG 0 0) 5

/-- The abort clears them. -/
theorem abort_clears_triggers (t : State) (ran : exec (.dmaAbort ⟨16, 2⟩ 0 0 0) stoppedWithTriggers = .next t) :
    t.get (dmaF Fld.DMA_CHn_STAT_PENDTRG 0 0) = 0 := by
  rw [← Host.Outcome.next.inj ran]
  decide +kernel

theorem stoppedWithTriggers_takes : Takes stoppedWithTriggers ⟨16, 2⟩ (dmaCtrlAddr 0 0) := by decide +kernel

/-- Refutes O57: its clause on ABORT at a stopped channel says that nothing changes, and the pending triggers clear. -/
theorem not_dmaController : ¬ Obligations.DmaController := by
  rintro ⟨⟨commands, _⟩, _⟩
  obtain ⟨_, _, _, stopped, _⟩ := commands stoppedWithTriggers ⟨16, 2⟩ 0 0 0 stoppedWithTriggers_takes (.inl rfl) (by decide)
  have ran := stopped (by decide +kernel)
  exact absurd (abort_clears_triggers _ ran) (by decide +kernel)

end Sys2Proof.Machine
end

section
/-!
PROOFS. A Watch record on a reliable flow while the link is down (R186, R429).
-/

namespace Sys2Proof.Machine

/-! Each evaluation of a concrete state waits for the kernel: one at a time, as in the tests. -/
set_option Elab.async false

/-- The link is not UP; a record waits, and its flow 7 holds four credits. -/
def recordWithoutLink : State := { State.reset.put (Fld.LNK_FLOWf_STAT_CREDIT.i 7) 4 with wch := { State.reset.wch with queue := [[0]] } }

/-- Flow 7 is reliable: the record is staged on it whatever the link does. -/
theorem recordWithoutLink_leaves (t : State) (ran : exec .watchRecordSend recordWithoutLink = .next t) : t.wch.queue = [] := by
  rw [← Host.Outcome.next.inj ran]
  decide +kernel

/-- Refutes O59: its last clause says that a record waits while the link is not UP, and it leaves the queue where its flow is reliable and holds credits. -/
theorem not_watchReceiver : ¬ Obligations.WatchReceiver := by
  rintro ⟨_, _, _, _, _, _, _, _, _, _, _, _, send⟩
  obtain ⟨_, down⟩ := send recordWithoutLink [0] [] rfl
  have ran := down (by decide +kernel)
  exact absurd (recordWithoutLink_leaves _ ran) (by decide +kernel)

end Sys2Proof.Machine
end

section
/-!
PROOFS. The engine's registers and its exposed pipeline (R241, R252 to R254).
-/

namespace Sys2Proof.Machine

section
variable (x : Eng) (n m : Fin 32) (v : Word)

theorem Eng.bk_setBk (b : EngBank) : (x.setBk b).bk = b := by
  rw [Eng.bk, Eng.setBk]
  exact Vector.getElem_set_self _

theorem Eng.getG_zero : x.getG 0 = 0 := rfl

theorem Eng.setG_zero : x.setG 0 v = x := rfl

theorem Eng.getG_setG_same {n : Fin 32} (other : n ≠ 0) : (x.setG n v).getG n = v := by
  have pos : n.val ≠ 0 := fun z => other (Fin.ext z)
  rw [Eng.getG, if_neg pos]
  split
  next low => simp [Eng.setG, pos, low]
  next high => simp [Eng.setG, pos, high, Eng.bk_setBk]

theorem Eng.getG_setG_ne {n m : Fin 32} (other : m ≠ n) : (x.setG n v).getG m = x.getG m := by
  have apart : m.val ≠ n.val := fun e => other (Fin.ext e)
  by_cases zero : n.val = 0
  · simp [Eng.setG, zero]
  by_cases low : n.val < 16
  · by_cases mlow : m.val < 16
    · simp [Eng.getG, Eng.setG, zero, low, mlow, Vector.getElem_set_ne (h := apart.symm)]
    · simp [Eng.getG, Eng.setG, zero, low, mlow, Eng.bk]
  · by_cases mlow : m.val < 16
    · simp [Eng.getG, Eng.setG, zero, low, mlow, Eng.setBk]
    · have cells : n.val - 16 ≠ m.val - 16 := by omega
      simp [Eng.getG, Eng.setG, zero, low, mlow, Eng.bk_setBk, Vector.getElem_set_ne (h := cells)]

theorem Eng.setBk_bank_ne (b : EngBank) {l : Fin 3} (other : l ≠ x.lvl) : (x.setBk b).bank[l] = x.bank[l] := by
  have apart : x.lvl.val ≠ l.val := fun e => other (Fin.ext e.symm)
  simp [Eng.setBk, Vector.getElem_set_ne (h := apart)]

theorem Eng.setG_bank_ne {l : Fin 3} (other : l ≠ x.lvl) : (x.setG n v).bank[l] = x.bank[l] := by
  rw [Eng.setG]
  split
  · rfl
  split
  · rfl
  · exact Eng.setBk_bank_ne x _ other

theorem Eng.getG_of_low {n : Fin 32} (low : n.val < 16) (l : Fin 3) : ({ x with lvl := l } : Eng).getG n = x.getG n := by
  simp [Eng.getG, low]

theorem Eng.getG_congr {x y : Eng} (g : y.g = x.g) (bank : y.bank = x.bank) (lvl : y.lvl = x.lvl) (n : Fin 32) : y.getG n = x.getG n := by
  simp [Eng.getG, Eng.bk, g, bank, lvl]

/-- Only registers of the engine's files differ: no state, no status, no write that waits and no branch. -/
def Eng.FilesOnly (x y : Eng) : Prop :=
  ∃ g a m l lin lw acc bank, y = { x with g := g, a := a, m := m, l := l, lin := lin, lw := lw, acc := acc, bank := bank }

theorem Eng.FilesOnly.refl : x.FilesOnly x := ⟨_, _, _, _, _, _, _, _, rfl⟩

theorem Eng.FilesOnly.trans {x y z : Eng} (first : x.FilesOnly y) (second : y.FilesOnly z) : x.FilesOnly z := by
  obtain ⟨_, _, _, _, _, _, _, _, rfl⟩ := first
  obtain ⟨_, _, _, _, _, _, _, _, rfl⟩ := second
  exact ⟨_, _, _, _, _, _, _, _, rfl⟩

theorem Eng.filesOnly_setBk (b : EngBank) : x.FilesOnly (x.setBk b) := ⟨_, _, _, _, _, _, _, _, rfl⟩

theorem Eng.filesOnly_setG : x.FilesOnly (x.setG n v) := by
  rw [Eng.setG]
  split
  · exact .refl x
  split
  · exact ⟨_, _, _, _, _, _, _, _, rfl⟩
  · exact Eng.filesOnly_setBk x _

theorem Eng.filesOnly_setLw (k : Fin 8) (b : Bool) : x.FilesOnly (x.setLw k b) := by
  rw [Eng.setLw]
  split
  · exact ⟨_, _, _, _, _, _, _, _, rfl⟩
  · exact Eng.filesOnly_setBk x _

theorem Eng.filesOnly_setX (sel : Fin 3) (k : Fin 8) : x.FilesOnly (x.setX sel k v) := by
  unfold Eng.setX
  split
  · rw [Eng.setA]
    split
    · exact ⟨_, _, _, _, _, _, _, _, rfl⟩
    · exact Eng.filesOnly_setBk x _
  · rw [Eng.setM]
    split
    · exact ⟨_, _, _, _, _, _, _, _, rfl⟩
    · exact Eng.filesOnly_setBk x _
  · rw [Eng.setL]
    refine .trans ?_ (Eng.filesOnly_setLw _ k true)
    split
    · exact ⟨_, _, _, _, _, _, _, _, rfl⟩
    · exact Eng.filesOnly_setBk x _

theorem Eng.filesOnly_setAcc (k : Fin 4) (a : Acc) : x.FilesOnly (x.setAcc k a) := by
  rw [Eng.setAcc]
  split
  · exact ⟨_, _, _, _, _, _, _, _, rfl⟩
  · exact Eng.filesOnly_setBk x _

theorem Eng.filesOnly_land (w : EngWrite) : x.FilesOnly (x.land w) := by
  cases w with
  | g n v => exact Eng.filesOnly_setG x n v
  | x sel n v => exact Eng.filesOnly_setX x v sel n
  | acc n a => exact Eng.filesOnly_setAcc x n a
  | part n p v => exact Eng.filesOnly_setAcc x n _

theorem Eng.filesOnly_lands (l : List (Nat × EngWrite)) : x.FilesOnly (l.foldl (fun x w => x.land w.2) x) := by
  induction l generalizing x with
  | nil => exact .refl x
  | cons w l ih => exact (Eng.filesOnly_land x w.2).trans (ih _)

/-- The writes that land as an instruction with the writes `new` retires, and those that come nearer (R252). -/
theorem Eng.tick_eq (new : List (Nat × EngWrite)) : ∃ y : Eng, y.FilesOnly (x.tick new) ∧ y =
    { x with writes := ((x.writes ++ new).filter fun w => w.1 != 0).map fun w => (w.1 - 1, w.2) } :=
  ⟨_, Eng.filesOnly_lands _ _, rfl⟩

theorem Eng.tick_pc (new : List (Nat × EngWrite)) : (x.tick new).pc = x.pc := by
  obtain ⟨_, ⟨_, _, _, _, _, _, _, _, files⟩, rfl⟩ := x.tick_eq new
  rw [files]

theorem Eng.tick_slot (new : List (Nat × EngWrite)) : (x.tick new).slot = x.slot := by
  obtain ⟨_, ⟨_, _, _, _, _, _, _, _, files⟩, rfl⟩ := x.tick_eq new
  rw [files]

theorem Eng.tick_of_none_due (new : List (Nat × EngWrite)) (later : ∀ w ∈ x.writes ++ new, w.1 ≠ 0) :
    x.tick new = { x with writes := (x.writes ++ new).map fun w => (w.1 - 1, w.2) } := by
  have none_due : ((x.writes ++ new).filter fun w => w.1 == 0) = [] :=
    List.filter_eq_nil_iff.2 fun w listed => by simp [later w listed]
  have all_later : ((x.writes ++ new).filter fun w => w.1 != 0) = x.writes ++ new :=
    List.filter_eq_self.2 fun w listed => by simp [later w listed]
  rw [Eng.tick, none_due, all_later]
  rfl

theorem Eng.getG_tick_last {n : Fin 32} (other : n ≠ 0) : (x.tick [(0, .g n v)]).getG n = v := by
  simp only [Eng.tick, List.filter_append, List.foldl_append]
  exact Eng.getG_setG_same _ v other

theorem Eng.getG_tick_only {n : Fin 32} (other : m ≠ n) (empty : x.writes = []) : (x.tick [(0, .g n v)]).getG m = x.getG m := by
  simp only [Eng.tick, empty]
  refine (Eng.getG_setG_ne _ v other).trans ?_
  exact Eng.getG_congr rfl rfl rfl m

theorem Eng.getG_step1 : x.step1.getG n = x.getG n := by
  rw [Eng.step1]
  split <;> exact Eng.getG_congr rfl rfl rfl n

end

theorem onlyEngine_setEng (e : Fin 9) (u : State) (x : Eng) : OnlyEngine e u (u.setEng e x) :=
  ⟨rfl, fun _ other => State.setEng_get_ne u x other⟩

theorem State.setEng_eng_same (s : State) (e : Fin 9) (x : Eng) : (s.setEng e x).eng[e] = x := by
  rw [State.setEng]
  exact Vector.getElem_set_self _

theorem retire_eng (e : Fin 9) (ws : List (Nat × EngWrite)) (act : Eng → Eng) (u : State) :
    (retire e ws act u).eng[e] = ((act u.eng[e]).tick ws).step1 := State.setEng_eng_same _ _ _

/-- Settles O50, by the rules of the register file and of the write queue. -/
theorem enginePipeline : Obligations.EnginePipeline := by
  refine ⟨fun x v => ⟨x.getG_zero, x.setG_zero v⟩, fun x n m v other => ⟨x.getG_setG_same v other, x.getG_setG_ne v⟩,
    fun x n v l => x.setG_bank_ne n v, fun x n low l => x.getG_of_low low l, fun x new later => x.tick_of_none_due new later,
    fun x n v other => x.getG_tick_last v other, fun x n v other due => ?_, fun e u ws act => onlyEngine_setEng e u _,
    fun e u n v other => ⟨?_, fun none => ?_, fun b some => ?_, fun empty m ne => ?_⟩⟩
  · simp only [Eng.tick, due]
    refine ⟨Eng.getG_setG_same _ v other, ?_⟩
    obtain ⟨_, _, _, _, _, _, _, _, files⟩ := Eng.filesOnly_setG { x with writes := [] } n v
    exact congrArg Eng.writes files
  · rw [retire_eng, Eng.getG_step1]
    exact Eng.getG_tick_last _ v other
  · rw [retire_eng, Eng.step1, Eng.tick_slot, id, none]
    exact congrArg (fun k => (k + 4) % 2 ^ 32) (Eng.tick_pc _ _)
  · rw [retire_eng, Eng.step1, Eng.tick_slot, id, some]
    exact ⟨rfl, rfl⟩
  · rw [retire_eng, Eng.getG_step1]
    exact Eng.getG_tick_only _ m v ne empty

end Sys2Proof.Machine
end

section
/-!
PROOFS. One instruction of a running engine: the step it makes, what its flags say (R244, R247, R256).
-/

namespace Sys2Proof.Machine

section
variable (x : Eng) (v : Word)

theorem Eng.flg_setBk (b : EngBank) : (x.setBk b).flg = b.flg := congrArg EngBank.flg (x.bk_setBk b)

theorem Eng.flg_setG (n : Fin 32) : (x.setG n v).flg = x.flg := by
  rw [Eng.setG]
  split
  · rfl
  split
  · rfl
  · exact Eng.flg_setBk x _

theorem Eng.flg_setLw (k : Fin 8) (b : Bool) : (x.setLw k b).flg = x.flg := by
  rw [Eng.setLw]
  split
  · rfl
  · exact Eng.flg_setBk x _

theorem Eng.flg_setX (sel : Fin 3) (k : Fin 8) : (x.setX sel k v).flg = x.flg := by
  unfold Eng.setX
  split
  · rw [Eng.setA]
    split
    · rfl
    · exact Eng.flg_setBk x _
  · rw [Eng.setM]
    split
    · rfl
    · exact Eng.flg_setBk x _
  · rw [Eng.setL, Eng.flg_setLw]
    split
    · rfl
    · exact Eng.flg_setBk x _

theorem Eng.flg_setAcc (k : Fin 4) (a : Acc) : (x.setAcc k a).flg = x.flg := by
  rw [Eng.setAcc]
  split
  · rfl
  · exact Eng.flg_setBk x _

theorem Eng.flg_land (w : EngWrite) : (x.land w).flg = x.flg := by
  cases w with
  | g n v => exact Eng.flg_setG x v n
  | x sel n v => exact Eng.flg_setX x v sel n
  | acc n a => exact Eng.flg_setAcc x n a
  | part n p v => exact Eng.flg_setAcc x n _

theorem Eng.flg_lands (l : List (Nat × EngWrite)) : (l.foldl (fun x w => x.land w.2) x).flg = x.flg := by
  induction l generalizing x with
  | nil => rfl
  | cons w l ih => exact (ih _).trans (Eng.flg_land x w.2)

theorem Eng.flg_tick (new : List (Nat × EngWrite)) : (x.tick new).flg = x.flg := Eng.flg_lands _ _

theorem Eng.status_tick (new : List (Nat × EngWrite)) : (x.tick new).status = x.status := by
  obtain ⟨_, ⟨_, _, _, _, _, _, _, _, files⟩, rfl⟩ := x.tick_eq new
  rw [files]
  rfl

theorem Eng.status_setG (n : Fin 32) : (x.setG n v).status = x.status := by
  obtain ⟨_, _, _, _, _, _, _, _, files⟩ := x.filesOnly_setG n v
  rw [files]
  rfl

theorem Eng.setFlg_self : x.setFlg x.flg = x := by
  have same : x.bank.set x.lvl.val x.bank[x.lvl.val] = x.bank := Vector.set_getElem_self _
  exact congrArg (fun b => { x with bank := b }) same

theorem Eng.pc_step1_congr {x y : Eng} (pc : y.pc = x.pc) (slot : y.slot = x.slot) : y.step1.pc = x.step1.pc := by
  rw [Eng.step1, Eng.step1, slot, pc]
  split <;> rfl

theorem Eng.pc_setFlg (f : BitVec 16) : (x.setFlg f).pc = x.pc := rfl

theorem Eng.slot_setFlg (f : BitVec 16) : (x.setFlg f).slot = x.slot := rfl

end

theorem settle_of_aligned {e : Fin 9} {s : State} (aligned : s.eng[e].pc % 4 = 0)
    (calm : ∀ h : Fin 8, hEng h = e → s.get (Fld.ENG_CTRL_HALT.h h) = 0) : settle e s = s := by
  simp only [settle, aligned, ne_eq, not_true_eq_false, if_false]
  split
  next low =>
    have idle : s.flag (Fld.ENG_CTRL_HALT.h (⟨e.val, low⟩ : Fin 8)) = false := by
      have zero := calm ⟨e.val, low⟩ rfl
      rw [State.flag, zero]
      rfl
    rw [haltIfQuiet, idle]
    rfl
  next => rfl

section
variable {e : Fin 9} {s u : State} (ex : Executes e s u)
include ex

/-- An executing instruction whose next PC is aligned and that leaves the registers alone is its own action (R241, R254). -/
theorem Executes.step {act : State → State} (aligned : (act u).eng[e].pc % 4 = 0) (regs : (act u).regs = u.regs) :
    engStep e act s = act u := by
  obtain ⟨w, fetched, known⟩ := ex.fetch
  have calm : ∀ h : Fin 8, hEng h = e → (act u).get (Fld.ENG_CTRL_HALT.h h) = 0 := fun h at_ => by
    rw [State.get_eq_rfGet, regs, ← State.get_eq_rfGet]
    exact ex.calm h at_
  simp only [engStep, ex.runs, fetched, known, Bool.not_true, Bool.false_eq_true, if_false, if_true]
  exact settle_of_aligned aligned calm

/-- An instruction that only retires with its writes. -/
theorem Executes.retires {ws : List (Nat × EngWrite)} {act : Eng → Eng} {run : State → State} (eq : run u = retire e ws act u)
    (pc : (act u.eng[e]).pc = u.eng[e].pc) (slot : (act u.eng[e]).slot = u.eng[e].slot) : engStep e run s = retire e ws act u := by
  rw [ex.step (act := run) (by
    rw [eq, retire_eng, Eng.pc_step1_congr (x := u.eng[e]) ((Eng.tick_pc _ _).trans pc) ((Eng.tick_slot _ _).trans slot)]
    exact ex.next) (by rw [eq]; rfl), eq]

theorem Executes.aluOp (rd : Fin 32) (f : Eng → Word × BitVec 16) :
    aluOp e rd f s = retire e [(0, .g rd (f u.eng[e]).1)] (fun x => x.setFlg (f u.eng[e]).2) u := ex.retires rfl rfl rfl

theorem Executes.aluKeep (rd : Fin 32) (f : Eng → Word) : aluKeep e rd f s = retire e [(0, .g rd (f u.eng[e]))] id u := by
  rw [Machine.aluKeep, ex.aluOp]
  exact congrArg (fun y => u.setEng e ((y.tick [(0, .g rd (f u.eng[e]))]).step1)) (Eng.setFlg_self u.eng[e])

end

theorem getLsbD_flgPut (f : BitVec 16) {n : Nat} (inside : n < 16) (b : Bool) (k : Nat) :
    (flgPut f n b).getLsbD k = if k = n then b else f.getLsbD k := by
  have bit : (1#16 <<< n).getLsbD k = decide (k = n) := by
    rw [BitVec.getLsbD_shiftLeft, BitVec.getLsbD_one]
    by_cases at_ : k = n <;> simp [at_] <;> omega
  have beyond : ¬k < 16 → f.getLsbD k = false := fun high => BitVec.getLsbD_of_ge f k (Nat.le_of_not_lt high)
  cases b <;> simp only [flgPut, Bool.false_eq_true, if_true, if_false, BitVec.getLsbD_or, BitVec.getLsbD_and, BitVec.getLsbD_not, bit]
  · by_cases at_ : k = n
    · simp [at_]
    · by_cases low : k < 16
      · simp [at_, low]
      · simp [at_, beyond low]
  · by_cases at_ : k = n <;> simp [at_]

theorem flagsZN_flgZN (f : BitVec 16) (v : Word) : FlagsZN f (flgZN f v) v := by
  refine ⟨?_, ?_, fun k high => ?_⟩ <;> simp only [flgZN, getLsbD_flgPut _ (show 1 < 16 by decide), getLsbD_flgPut _ (show 0 < 16 by decide)]
  · simp
  · simp
  · rw [if_neg (by omega), if_neg (by omega)]

theorem flagsZNCV_flgZNCV (f : BitVec 16) (v : Word) {c o : Bool} {p q : Prop} (carry : c = true ↔ p) (overflow : o = true ↔ q) :
    FlagsZNCV f (flgZNCV f v c o) v p q := by
  refine ⟨?_, ?_, ?_, ?_, fun k high => ?_⟩ <;>
    simp only [flgZNCV, flgZN, getLsbD_flgPut _ (show 3 < 16 by decide), getLsbD_flgPut _ (show 2 < 16 by decide),
      getLsbD_flgPut _ (show 1 < 16 by decide), getLsbD_flgPut _ (show 0 < 16 by decide)]
  · simp
  · simp
  · simpa using carry
  · simpa using overflow
  · rw [if_neg (by omega), if_neg (by omega), if_neg (by omega), if_neg (by omega)]

section
variable (a b : Word) (c : Bool)

theorem b2n_le : b2n c ≤ 1 := by cases c <;> decide

theorem addc_toNat : (a + b + BitVec.ofNat 32 (b2n c)).toNat = (a.toNat + b.toNat + b2n c) % 2 ^ 32 := by
  have := b2n_le c
  simp [BitVec.toNat_add]

theorem toInt_eq_msb (w : Word) : w.toInt = (w.toNat : Int) - (if w.msb then 2 ^ 32 else 0) := by
  rw [BitVec.toInt_eq_msb_cond]
  split <;> simp

/-- The sum of two words and a carry overflows as its signs say (R256). -/
theorem addc_overflow : (addc a b c).2.2 = true ↔ (a + b + BitVec.ofNat 32 (b2n c)).toInt ≠ a.toInt + b.toInt + b2n c := by
  have sum := addc_toNat a b c
  have small := b2n_le c
  have ha := a.isLt
  have hb := b.isLt
  simp only [addc, toInt_eq_msb, BitVec.msb_eq_decide, sum]
  generalize a.toNat = a at *
  generalize b.toNat = b at *
  generalize b2n c = c at *
  by_cases h1 : 2 ^ 31 ≤ a <;> by_cases h2 : 2 ^ 31 ≤ b <;> by_cases h3 : 2 ^ 31 ≤ (a + b + c) % 2 ^ 32 <;>
    simp only [h1, h2, h3, decide_true, decide_false, if_true, if_false, Bool.false_eq_true] <;> simp <;> omega

theorem toInt_not (b : Word) : (~~~b).toInt = -1 - b.toInt := by
  have hb := b.isLt
  simp only [toInt_eq_msb, BitVec.msb_eq_decide, BitVec.toNat_not, decide_eq_true_eq]
  split <;> split <;> omega

theorem flagsZNCV_addc (f : BitVec 16) : FlagsZNCV f (flgZNCV f (addc a b c).1 (addc a b c).2.1 (addc a b c).2.2) (a + b + BitVec.ofNat 32 (b2n c))
    (2 ^ 32 ≤ a.toNat + b.toNat + b2n c) ((a + b + BitVec.ofNat 32 (b2n c)).toInt ≠ a.toInt + b.toInt + b2n c) :=
  flagsZNCV_flgZNCV f _ decide_eq_true_iff (addc_overflow a b c)

theorem sub_eq_addc_not : (addc a (~~~b) true).1 = a - b := by
  rw [BitVec.sub_eq_add_neg, BitVec.neg_eq_not_add, ← BitVec.add_assoc]
  rfl

theorem flagsZNCV_subc (f : BitVec 16) : FlagsZNCV f (flgZNCV f (subc a b true).1 (subc a b true).2.1 (subc a b true).2.2) (a - b)
    (b.toNat ≤ a.toNat) ((a - b).toInt ≠ a.toInt - b.toInt) := by
  rw [subc, sub_eq_addc_not]
  refine flagsZNCV_flgZNCV f _ (decide_eq_true_iff.trans ?_) ((addc_overflow a _ true).trans ?_)
  · rw [BitVec.toNat_not, show b2n true = 1 from rfl]
    have := b.isLt
    omega
  · rw [show a + ~~~b + BitVec.ofNat 32 (b2n true) = a - b from sub_eq_addc_not a b, toInt_not, show b2n true = 1 from rfl]
    refine not_congr ?_
    omega

theorem flagsZNCV_subcFlag (f : BitVec 16) : FlagsZNCV f (flgZNCV f (subcFlag a b c).1 (subcFlag a b c).2.1 (subcFlag a b c).2.2)
    (a - b - BitVec.ofNat 32 (b2n c)) (b.toNat + b2n c ≤ a.toNat) ((a - b - BitVec.ofNat 32 (b2n c)).toInt ≠ a.toInt - b.toInt - b2n c) :=
  flagsZNCV_flgZNCV f _ decide_eq_true_iff decide_eq_true_iff

end

/-- The number of zeros above the highest one (R256). -/
theorem clz_spec (a : Word) : clz a ≤ 32 ∧ (∀ k, 32 - clz a ≤ k → a.getLsbD k = false) ∧ (clz a < 32 → a.getLsbD (31 - clz a) = true) := by
  rw [clz]
  cases found : (List.range 32).find? fun k => a.getLsbD (31 - k) with
  | none =>
    have zeros := List.find?_eq_none.1 found
    refine ⟨Nat.le_refl 32, fun k _ => ?_, fun more => absurd more (Nat.lt_irrefl 32)⟩
    by_cases low : k < 32
    · simpa [show 31 - (31 - k) = k by omega] using zeros (31 - k) (List.mem_range.2 (by omega))
    · exact BitVec.getLsbD_of_ge a k (Nat.le_of_not_lt low)
  | some n =>
    obtain ⟨one, listed, zeros⟩ := List.find?_range_eq_some.1 found
    have small := List.mem_range.1 listed
    refine ⟨Nat.le_of_lt small, fun k above => ?_, fun _ => one⟩
    by_cases low : k < 32
    · have above : 32 - n ≤ k := above
      simpa [show 31 - (31 - k) = k by omega] using zeros (31 - k) (by omega)
    · exact BitVec.getLsbD_of_ge a k (Nat.le_of_not_lt low)

theorem toInt_absSat (a : Word) : (absSat a).toInt = min (2 ^ 31 - 1) |a.toInt| := by
  have small := a.isLt
  rw [absSat]
  split
  next least => rw [least]; decide
  next other =>
    have other : a.toNat ≠ 2 ^ 31 := fun e => other (BitVec.eq_of_toNat_eq e)
    by_cases high : 2 ^ 31 ≤ a.toNat
    · have neg : a.toInt = a.toNat - 2 ^ 32 := by rw [toInt_eq_msb, BitVec.msb_eq_decide, decide_eq_true high, if_pos rfl]
      have back : (-a).toInt = 2 ^ 32 - a.toNat := by
        rw [BitVec.toInt_neg, neg, Int.bmod_eq_of_le (by omega) (by omega)]
        omega
      rw [BitVec.msb_eq_decide, decide_eq_true high, if_pos rfl, back, neg, abs_of_neg (by omega), min_eq_right (by omega)]
      omega
    · have pos : a.toInt = a.toNat := by rw [toInt_eq_msb, BitVec.msb_eq_decide, decide_eq_false high, if_neg Bool.false_ne_true, sub_zero]
      rw [BitVec.msb_eq_decide, decide_eq_false high, if_neg (by decide), pos, abs_of_nonneg (by omega), min_eq_right (by omega)]

theorem boolWord_decide (p : Prop) [Decidable p] : (p → boolWord (decide p) = 1#32) ∧ (¬p → boolWord (decide p) = 0#32) :=
  ⟨fun h => by rw [decide_eq_true h]; rfl, fun h => by rw [decide_eq_false h]; rfl⟩

theorem toInt_min_slt (a b : Word) : (if b.slt a then b else a).toInt = min a.toInt b.toInt := by
  simp only [BitVec.slt_iff_toInt_lt]
  split
  next less => exact (min_eq_right (Int.le_of_lt less)).symm
  next le => exact (min_eq_left (Int.not_lt.1 le)).symm

theorem toInt_max_slt (a b : Word) : (if a.slt b then b else a).toInt = max a.toInt b.toInt := by
  simp only [BitVec.slt_iff_toInt_lt]
  split
  next less => exact (max_eq_right (Int.le_of_lt less)).symm
  next le => exact (max_eq_left (Int.not_lt.1 le)).symm

theorem mulHigh_natCast (n : Nat) : mulHigh n = BitVec.ofNat 32 (n / 2 ^ 32) := BitVec.ofInt_natCast 32 (n / 2 ^ 32)

section
variable {e : Fin 9} {s u : State} (ex : Executes e s u) {i : Instr} {rd : Fin 32}
include ex

theorem Executes.zn {f : Eng → Word} {v : Word} (run : exec i s = .next (aluZN e rd f s)) (value : f u.eng[e] = v) :
    ∃ g, FlagsZN u.eng[e].flg g v ∧ exec i s = .next (retire e [(0, .g rd v)] (fun x => x.setFlg g) u) := by
  subst value
  exact ⟨_, flagsZN_flgZN _ _, run.trans (congrArg Host.Outcome.next (ex.aluOp rd _))⟩

theorem Executes.zncv {f : Eng → Word × Bool × Bool} {v : Word} {p : BitVec 16 → Prop} (run : exec i s = .next (aluZNCV e rd f s))
    (value : (f u.eng[e]).1 = v) (flags : p (flgZNCV u.eng[e].flg (f u.eng[e]).1 (f u.eng[e]).2.1 (f u.eng[e]).2.2)) :
    ∃ g, p g ∧ exec i s = .next (retire e [(0, .g rd v)] (fun x => x.setFlg g) u) := by
  subst value
  exact ⟨_, flags, run.trans (congrArg Host.Outcome.next (ex.aluOp rd _))⟩

theorem Executes.keep {f : Eng → Word} {v : Word} (run : exec i s = .next (Machine.aluKeep e rd f s)) (value : f u.eng[e] = v) :
    exec i s = .next (retire e [(0, .g rd v)] id u) := by
  subst value
  exact run.trans (congrArg Host.Outcome.next (ex.aluKeep rd f))

end

/-- Settles O51: each instruction is its row of the list, retired. -/
theorem integerInstructions : Obligations.IntegerInstructions := by
  intro e s u ex rd ra rb imm
  have imm_toInt : (imm.signExtend 32).toInt = imm.toInt := BitVec.toInt_signExtend_of_le (by decide)
  refine ⟨ex.zncv rfl (BitVec.add_zero _) ?add, ex.zncv rfl (sub_eq_addc_not _ _) (flagsZNCV_subc _ _ _), ex.zncv rfl rfl (flagsZNCV_addc _ _ _ _),
    ex.zncv rfl rfl (flagsZNCV_subcFlag _ _ _ _), ex.zncv rfl (BitVec.add_zero _) ?addi, ex.zn rfl rfl, ex.zn rfl rfl, ex.zn rfl rfl, ex.zn rfl rfl, ex.zn rfl rfl, ex.zn rfl rfl,
    ex.zn rfl rfl, ex.zn rfl rfl, ex.zn rfl rfl, ex.zn rfl rfl, ex.zn rfl rfl, ex.zn rfl rfl, ex.zn rfl rfl, ex.zn rfl rfl, ex.zn rfl (mulHigh_natCast _),
    ⟨_, toInt_absSat _, ex.zn rfl rfl⟩, ⟨_, ?clz, ex.zn rfl rfl⟩, ⟨_, ex.keep rfl rfl, boolWord_decide _⟩, ⟨_, ex.keep rfl rfl, boolWord_decide _⟩,
    ⟨_, ex.keep rfl rfl, ?slti⟩, ⟨_, ex.keep rfl rfl, toInt_min_slt _ _⟩, ⟨_, ex.keep rfl rfl, toInt_max_slt _ _⟩, fun zero => ?lui⟩
  case add => simpa [b2n] using flagsZNCV_addc (u.eng[e].getG ra) (u.eng[e].getG rb) false u.eng[e].flg
  case addi => simpa [b2n, imm_toInt] using flagsZNCV_addc (u.eng[e].getG ra) (imm.signExtend 32) false u.eng[e].flg
  case clz =>
    have bound := (clz_spec (u.eng[e].getG ra)).1
    have count : (BitVec.ofNat 32 (clz (u.eng[e].getG ra))).toNat = clz (u.eng[e].getG ra) := by
      rw [BitVec.toNat_ofNat, Nat.mod_eq_of_lt (by omega)]
    simpa only [count] using clz_spec (u.eng[e].getG ra)
  case slti =>
    rw [← imm_toInt]
    exact boolWord_decide _
  case lui =>
    subst zero
    exact ex.keep rfl rfl

end Sys2Proof.Machine
end

section
/-!
PROOFS. Branches and jumps (R247, R254, R256).
-/

namespace Sys2Proof.Machine

/-- What a branch or jump of engine `e` leaves: its delay slot next, then the target; the link register, the status and FLG as R254 says. -/
def Branched (e : Fin 9) (u : State) (to_ : Nat → Prop) (link : Option (Fin 32)) (t : State) : Prop :=
  OnlyEngine e u t ∧ t.eng[e].pc = (u.eng[e].pc + 4) % 2 ^ 32
    ∧ (∃ q, t.eng[e].slot = some q ∧ q.addr = u.eng[e].pc ∧ to_ q.target ∧ q.undo = none) ∧ t.eng[e].flg = u.eng[e].flg
    ∧ t.eng[e].status = u.eng[e].status
    ∧ (∀ l, link = some l → l ≠ 0 → t.eng[e].getG l = BitVec.ofNat 32 (u.eng[e].pc + 8))
    ∧ (u.eng[e].writes = [] → ∀ r, link ≠ some r → t.eng[e].getG r = u.eng[e].getG r)

/-- The registers after a branch: the writes that were due, then the link register. -/
def Eng.linked (x : Eng) (link : Option (Fin 32)) : Eng :=
  match link with
  | some rd => (x.tick []).setG rd (BitVec.ofNat 32 (x.pc + 8))
  | none => x.tick []

theorem Eng.flg_linked (x : Eng) (link : Option (Fin 32)) : (x.linked link).flg = x.flg := by
  cases link with
  | none => exact x.flg_tick []
  | some rd => exact (Eng.flg_setG _ _ rd).trans (x.flg_tick [])

theorem Eng.status_linked (x : Eng) (link : Option (Fin 32)) : (x.linked link).status = x.status := by
  cases link with
  | none => exact x.status_tick []
  | some rd => exact (Eng.status_setG _ _ rd).trans (x.status_tick [])

theorem Eng.getG_tick_nil (x : Eng) (empty : x.writes = []) (r : Fin 32) : (x.tick []).getG r = x.getG r := by
  simp only [Eng.tick, empty]
  exact Eng.getG_congr rfl rfl rfl r

theorem Eng.getG_linked_ne (x : Eng) {link : Option (Fin 32)} (empty : x.writes = []) {r : Fin 32} (other : link ≠ some r) :
    (x.linked link).getG r = x.getG r := by
  cases link with
  | none => exact x.getG_tick_nil empty r
  | some rd => exact (Eng.getG_setG_ne _ _ fun same => other (congrArg some same.symm)).trans (x.getG_tick_nil empty r)

theorem branchTo_outside_slot {e : Fin 9} {u : State} (target : Nat) (link : Option (Fin 32)) (outside : u.eng[e].slot = none) :
    branchTo e target link u = u.setEng e { u.eng[e].linked link with
      slot := some ⟨u.eng[e].pc, target % 2 ^ 32, link.map fun rd => (rd, (u.eng[e].tick []).getG rd), none⟩
      pc := (u.eng[e].pc + 4) % 2 ^ 32 } := by
  rw [branchTo, outside]
  cases link <;> rfl

theorem branched_branchTo {e : Fin 9} {u : State} {target : Nat} {link : Option (Fin 32)} {to_ : Nat → Prop} (outside : u.eng[e].slot = none)
    (at_ : to_ (target % 2 ^ 32)) : Branched e u to_ link (branchTo e target link u) := by
  rw [branchTo_outside_slot target link outside]
  refine ⟨onlyEngine_setEng e u _, ?_⟩
  rw [State.setEng_eng_same]
  refine ⟨rfl, ⟨_, rfl, rfl, at_, rfl⟩, u.eng[e].flg_linked link, u.eng[e].status_linked link, fun l named other => ?_, fun empty r other => ?_⟩
  · subst named
    exact (Eng.getG_congr rfl rfl rfl l).trans (Eng.getG_setG_same _ _ other)
  · exact (Eng.getG_congr rfl rfl rfl r).trans (Eng.getG_linked_ne _ empty other)

theorem relTarget_spec (pc : Nat) (off : Int) :
    relTarget pc off % 2 ^ 32 < 2 ^ 32 ∧ ((relTarget pc off % 2 ^ 32 : Nat) : Int) = ((pc : Int) + 4 + 4 * off) % 2 ^ 32 := by
  rw [relTarget]
  omega

section
variable {e : Fin 9} {s u : State} (ex : Executes e s u) (outside : u.eng[e].slot = none)
include ex outside

theorem Executes.branches {target : State → Nat} {link : Option (Fin 32)} {i : Instr} {to_ : Nat → Prop}
    (run : exec i s = .next (engStep e (fun s => branchTo e (target s) link s) s)) (at_ : to_ (target u % 2 ^ 32)) :
    Gives i s (Branched e u to_ link) := by
  have branch := branchTo_outside_slot (target u) link outside
  refine ⟨_, run.trans (congrArg Host.Outcome.next (ex.step ?_ ?_)), branched_branchTo outside at_⟩
  · have aligned := ex.next
    rw [Eng.step1, outside] at aligned
    rw [branch, State.setEng_eng_same]
    exact aligned
  · rw [branch]
    rfl

theorem Executes.jumps {off : Int} {link : Option (Fin 32)} {i : Instr}
    (run : exec i s = .next (engStep e (fun s => branchTo e (relTarget s.eng[e].pc off) link s) s)) :
    Gives i s (Branched e u (fun t => t < 2 ^ 32 ∧ (t : Int) = ((u.eng[e].pc : Int) + 4 + 4 * off) % 2 ^ 32) link) :=
  ex.branches outside run (relTarget_spec _ _)

theorem Executes.jumpsTo {r : Fin 32} {link : Option (Fin 32)} {i : Instr}
    (run : exec i s = .next (engStep e (fun s => branchTo e (s.eng[e].getG r).toNat link s) s)) :
    Gives i s (Branched e u (fun t => t = (u.eng[e].getG r).toNat) link) :=
  ex.branches outside run (Nat.mod_eq_of_lt (u.eng[e].getG r).isLt)

theorem Executes.condBranch {off : BitVec 16} {c : Eng → Bool} {p : Prop} {i : Instr} (run : exec i s = .next (condBranch e off c s))
    (holds : c u.eng[e] = true ↔ p) :
    Gives i s (Branched e u (fun t => (p → t < 2 ^ 32 ∧ (t : Int) = ((u.eng[e].pc : Int) + 4 + 4 * off.toInt) % 2 ^ 32)
      ∧ (¬p → t < 2 ^ 32 ∧ (t : Int) = ((u.eng[e].pc : Int) + 4 + 4 * 1) % 2 ^ 32)) none) := by
  refine ex.branches outside run ⟨fun taken => ?_, fun past => ?_⟩
  · rw [if_pos (holds.2 taken)]
    exact relTarget_spec _ _
  · rw [if_neg fun taken => past (holds.1 taken)]
    exact relTarget_spec _ _

end

/-- Settles O52: outside a delay slot every branch and jump is `branchTo` with its own target. -/
theorem branchesAndJumps : Obligations.BranchesAndJumps := by
  intro e s u ex outside rd ra rb off far
  have link_run (other : ra ≠ rd) : exec (.jalr e rd ra) s = .next (engStep e (fun s => branchTo e (s.eng[e].getG ra).toNat (some rd) s) s) := by
    have apart : ¬rd = ra := fun same => other same.symm
    show execJalr e rd ra s = _
    simp only [execJalr, if_neg apart]
  refine ⟨ex.condBranch outside rfl beq_iff_eq, ex.condBranch outside rfl bne_iff_ne, ex.condBranch outside rfl BitVec.slt_iff_toInt_lt,
    ex.condBranch outside rfl ?bge, ex.condBranch outside rfl BitVec.ult_iff_toNat_lt, ex.condBranch outside rfl ?bgeu,
    ex.jumps outside rfl, ex.jumps outside rfl, ex.jumpsTo outside rfl, fun other => ex.jumpsTo outside (link_run other)⟩
  case bge => rw [Bool.not_eq_true', ← Bool.not_eq_true, BitVec.slt_iff_toInt_lt, Int.not_lt]
  case bgeu => rw [Bool.not_eq_true', ← Bool.not_eq_true, BitVec.ult_iff_toNat_lt, Nat.not_lt]

end Sys2Proof.Machine
end

section
/-!
PROOFS. Broken locks stay within what a notice reaches (R292), and a double fault halts its engine (R265).
-/

namespace Sys2Proof.Machine

section
variable {s t : State}

theorem NoticeOnly.inc (same : NoticeOnly s t) (f : Field) : NoticeOnly s (t.inc f) := by
  rw [State.inc]
  exact same.put f _

theorem NoticeOnly.notifyReeve (same : NoticeOnly s t) (code : Nat) : NoticeOnly s (t.notifyReeve code) := by
  rw [State.notifyReeve]
  split
  · exact same.trans ⟨_, _, _, _, _, rfl⟩
  · exact same.inc _

theorem noticeOnly_breakLock (s : State) (h : Fin 8) (n : Nat) : NoticeOnly s (s.breakLock h n) :=
  ((((((NoticeOnly.refl s).put _ _).put _ _).put _ _).put _ _).raise (by decide) _ _).notifyReeve _

theorem noticeOnly_breakLocks (s : State) (h : Fin 8) (owners : List Nat) : NoticeOnly s (s.breakLocks h owners) :=
  .foldl (fun _ n => .ite _ (noticeOnly_breakLock _ h n) (.refl _)) (.refl s) _

theorem FaultOnly.eng (same : FaultOnly s t) : t.eng = s.eng := by
  obtain ⟨_, _, _, _, _, _, _, _, _, _, _, _, _, _, rfl⟩ := same
  rfl

theorem FaultOnly.mem (same : FaultOnly s t) : t.mem = s.mem := by
  obtain ⟨_, _, _, _, _, _, _, _, _, _, _, _, _, _, rfl⟩ := same
  rfl

end

/-- A double fault of a hamlet engine is its halt and a fault (R265). -/
theorem faultOnly_doubleFault (h : Fin 8) (pc : Nat) (s : State) : FaultOnly (s.haltEng (hEng h) 3 pc) (doubleFault (hEng h) pc s) := by
  have hamlet : (hEng h).val < 8 := h.isLt
  rw [doubleFault, dif_pos hamlet]
  exact ((FaultOnly.refl _).raise _ _ _).trans (.of_noticeOnly (noticeOnly_breakLocks _ _ _))

/-! ### Entry of an exception (R263, R265) -/

theorem Eng.filesOnly_drain (x : Eng) : ({ x with writes := [] } : Eng).FilesOnly x.drain := by
  rw [Eng.drain]
  generalize hy : ({ x with writes := [] } : Eng) = y
  suffices each : ∀ (l : List Nat) (z : Eng), z.FilesOnly (l.foldl (fun y k => (x.writes.filter fun w => w.1 == k).foldl (fun y w => y.land w.2) y) z) from
    each _ y
  intro l
  induction l with
  | nil => exact fun z => .refl z
  | cons k l ih => exact fun z => (Eng.filesOnly_lands z _).trans (ih _)

theorem Eng.undoSlot_of_none {x : Eng} (outside : x.slot = none) : x.undoSlot = x := by rw [Eng.undoSlot, outside]

theorem State.setEng_self (s : State) (e : Fin 9) : s.setEng e s.eng[e] = s := by
  have same : s.eng.set e.val s.eng[e.val] = s.eng := Vector.set_getElem_self _
  exact congrArg (fun v => { s with eng := v }) same

theorem AtBase.enters {e : Fin 9} {u : State} (base : AtBase e u) (code info : Nat) (badva : Option Nat) (pc : Nat) :
    takeExc e code info badva pc false u = u.setEng e (u.eng[e].enterExc code pc (causeWord false false code info) badva) := by
  obtain ⟨exc, mexc, lvl, outside⟩ := base
  simp only [takeExc, outside, Eng.undoSlot_of_none outside, State.setEng_self, exc, mexc, lvl]
  rfl

theorem causeWord_eq {code info : Nat} (small : code < 32) (half : info < 2 ^ 16) :
    causeWord false false code info = BitVec.ofNat 32 (code * 65536 + info) := by
  rw [causeWord, Nat.mod_eq_of_lt small, Nat.mod_eq_of_lt (show info < 65536 from half)]
  simp [b2n]

section
variable {e : Fin 9} {u : State} (base : AtBase e u) (user : u.eng[e].priv ≠ 2)
include base user

/-- An exception at base level below machine level enters the handler at VBASE (R263). -/
theorem AtBase.taken {code info pc : Nat} (small : code < 12) (half : info < 2 ^ 16) :
    Taken e code info pc u (takeExc e code info none pc false u) := by
  have machine : ¬(code = 12 ∨ u.eng[e].status.priv = 2) := fun q => q.elim (fun eq => by omega) user
  have entered := base.enters code info none pc
  obtain ⟨_, _, _, _, _, _, _, _, drained⟩ := u.eng[e].filesOnly_drain
  rw [Eng.enterExc] at entered
  simp only [if_neg machine, drained] at entered
  rw [entered]
  refine ⟨?_, ?_, ?_, ?_, ?_, ?_, ?_, ?_, onlyEngine_setEng e u _⟩ <;> rw [State.setEng_eng_same]
  · simp
  · rfl
  · exact causeWord_eq (by omega) half

end

/-- MTRAP enters machine mode at VBASE + 0x300 (R265). -/
theorem AtBase.machineEntry {e : Fin 9} {u : State} (base : AtBase e u) (info pc : Nat) : ∃ x : Eng,
    takeExc e 12 info none pc false u = u.setEng e x ∧ x.pc = (u.eng[e].vbase.toNat + 0x300) % 2 ^ 32 ∧ x.epcm = BitVec.ofNat 32 pc
      ∧ x.sstatm = u.eng[e].status.word ∧ x.priv = 2 ∧ x.exc = true ∧ x.epc = u.eng[e].epc ∧ x.cause = causeWord false false 12 info := by
  obtain ⟨_, _, _, _, _, _, _, _, drained⟩ := u.eng[e].filesOnly_drain
  refine ⟨_, base.enters 12 info none pc, ?_⟩
  rw [Eng.enterExc]
  simp only [true_or, if_true, drained]
  exact ⟨trivial, trivial, trivial, trivial, trivial, trivial, trivial⟩

/-- The engine's step with any instruction is settled from the state after the fetch (R248). -/
theorem engStep_of_fetched {e : Fin 9} {s u : State} {w : Nat} (runs : s.eng[e].runs = true) (fetched : engFetch e s = (.ok w, u)) (act : State → State) :
    engStep e act s = settle e (if wimakoWord e w then act u else illegal e u) := by
  simp only [engStep, runs, fetched, Bool.not_true, Bool.false_eq_true, if_false]

section
variable {e : Fin 9} {s u : State} (base : AtBase e u) (page : u.eng[e].vbase.toNat % 4096 = 0) (user : u.eng[e].priv ≠ 2)
  (calm : ∀ h : Fin 8, hEng h = e → u.get (Fld.ENG_CTRL_HALT.h h) = 0)
include base page user calm

theorem AtBase.gives_taken {i : Instr} {code info pc : Nat} (small : code < 12) (half : info < 2 ^ 16)
    (run : exec i s = .next (settle e (takeExc e code info none pc false u))) : Gives i s (Taken e code info pc u) := by
  have taken := base.taken user (pc := pc) small half
  refine ⟨_, run.trans (congrArg Host.Outcome.next (settle_of_aligned ?_ ?_)), taken⟩
  · rw [taken.entry]
    omega
  · rw [base.enters]
    exact calm

end

section
variable {e : Fin 9} {s u : State} (ex : Executes e s u) (base : AtBase e u) (page : u.eng[e].vbase.toNat % 4096 = 0)
include ex

theorem Executes.settles (act : State → State) : engStep e act s = settle e (act u) := by
  obtain ⟨w, fetched, known⟩ := ex.fetch
  rw [engStep_of_fetched ex.runs fetched, known]
  rfl

include base page

theorem Executes.takes (user : u.eng[e].priv ≠ 2) {i : Instr} {act : State → State} {code info pc : Nat} (run : exec i s = .next (engStep e act s))
    (small : code < 12) (half : info < 2 ^ 16) (eq : act u = takeExc e code info none pc false u) : Gives i s (Taken e code info pc u) :=
  base.gives_taken page user ex.calm small half (run.trans (congrArg Host.Outcome.next ((ex.settles act).trans (congrArg _ eq))))

/-- The fields of an instruction that must be 0 or even, and are not (R248). -/
theorem Executes.takesIllegal (user : u.eng[e].priv ≠ 2) {i : Instr} {act : State → State} (run : exec i s = .next (engStep e act s))
    (eq : act u = illegal e u) : Gives i s (Taken e 1 0 u.eng[e].pc u) :=
  ex.takes base page user run (by decide) (by decide) eq

theorem Executes.takesPrivileged (task : u.eng[e].priv = 0) {i : Instr} {act : State → State} (run : exec i s = .next (engStep e (kernelOnly e act) s)) :
    Gives i s (Taken e 2 0 u.eng[e].pc u) :=
  ex.takes base page (by rw [task]; decide) run (by decide) (by decide) (if_pos task)

end

theorem memIllegal_odd (x : Eng) {rt : Fin 32} (an : Fin 8) (am : Fin 4) (imm : BitVec 14) (odd : rt.val % 2 = 1) : memIllegal x rt an am 3 imm = true := by
  simp [memIllegal, odd]

theorem memIllegal_index (x : Eng) (rt : Fin 32) (an : Fin 8) (sz : Fin 4) {imm : BitVec 14} (rest : imm.toNat % 512 ≠ 0) :
    memIllegal x rt an 1 sz imm = true := by
  simp [memIllegal, Eng.memAddr, rest]

section
variable {e : Fin 9} {u : State} {rt : Fin 32} {an : Fin 8} {am sz : Fin 4} {imm : BitVec 14} (bad : memIllegal u.eng[e] rt an am sz imm = true)
include bad

theorem loadOp_illegal (sext : Bool) : loadOp e rt an am sz imm sext u = illegal e u := by
  simp only [loadOp, bad, if_true]

theorem storeOp_illegal : storeOp e rt an am sz imm u = illegal e u := by
  simp only [storeOp, bad, if_true]

end

theorem engineExceptions_base (e : Fin 9) (s u : State) (ex : Executes e s u) (base : AtBase e u) (page : u.eng[e].vbase.toNat % 4096 = 0)
    (user : u.eng[e].priv ≠ 2) :
    let x := u.eng[e]
    let takes (i : Instr) (code info pc : Nat) : Prop := Gives i s fun t => Taken e code info pc u t
    (∀ imm, takes (.trap e 0 0 imm) 10 imm.toNat ((x.pc + 4) % 2 ^ 32)) ∧ takes (.brk e) 11 0 x.pc ∧ (e.val < 8 → takes (.mtrap e) 2 0 x.pc)
    ∧ (∀ rd ra imm, rd ≠ 0 ∨ ra ≠ 0 → takes (.trap e rd ra imm) 1 0 x.pc) ∧ (∀ rd ra imm, ra ≠ 0 → takes (.lui e rd ra imm) 1 0 x.pc)
    ∧ (∀ r, takes (.jalr e r r) 1 0 x.pc) ∧ (∀ an ra imm, takes (.seta e an 3 ra imm) 1 0 x.pc)
    ∧ (∀ an sel rd imm, imm ≠ 0 → takes (.geta e an sel rd imm) 1 0 x.pc) ∧ (∀ an sel ra imm, ra ≠ 0 → takes (.adda e an sel ra imm) 1 0 x.pc) := by
  have nonzero {r : Fin 32} (other : r ≠ 0) : r.val ≠ 0 := fun z => other (Fin.ext z)
  refine ⟨fun imm => ?trap, ?brk, fun hamlet => ?mtrap, fun rd ra imm other => ?fields, fun rd ra imm other => ?lui, fun r => ?jalr, fun an ra imm => ?seta,
    fun an sel rd imm other => ?geta, fun an sel ra imm other => ?adda⟩
  case trap => exact ex.takes base page user rfl (by decide) imm.isLt (if_neg (by decide))
  case brk => exact ex.takes base page user rfl (by decide) (by decide) rfl
  case mtrap => exact ex.takes base page user rfl (by decide) (by decide) (if_pos hamlet)
  case fields => exact ex.takesIllegal base page user rfl (if_pos (other.imp nonzero nonzero))
  case lui => exact ex.takesIllegal base page user (congrArg Host.Outcome.next (if_pos (nonzero other))) rfl
  case jalr => exact ex.takesIllegal base page user rfl (if_pos rfl)
  case seta => exact ex.takesIllegal base page user rfl rfl
  case geta =>
    refine ex.takesIllegal base page user rfl ?_
    split
    · rfl
    · exact if_pos other
  case adda =>
    refine ex.takesIllegal base page user rfl ?_
    split
    · rfl
    · exact if_pos (nonzero other)

theorem engineExceptions_memory (e : Fin 9) (s u : State) (ex : Executes e s u) (base : AtBase e u) (page : u.eng[e].vbase.toNat % 4096 = 0)
    (user : u.eng[e].priv ≠ 2) {rt : Fin 32} {an : Fin 8} {am sz : Fin 4} {imm : BitVec 14} (bad : memIllegal u.eng[e] rt an am sz imm = true) :
    Gives (.ld e rt an am sz imm) s (Taken e 1 0 u.eng[e].pc u) ∧ Gives (.ldu e rt an am sz imm) s (Taken e 1 0 u.eng[e].pc u)
      ∧ Gives (.st e rt an am sz imm) s (Taken e 1 0 u.eng[e].pc u) :=
  ⟨ex.takesIllegal base page user rfl (loadOp_illegal bad true), ex.takesIllegal base page user rfl (loadOp_illegal bad false),
    ex.takesIllegal base page user rfl (storeOp_illegal bad)⟩

/-- MTRAP of the Reeve at base level (R265). -/
theorem reeve_mtrap (s u : State) (ex : Executes 8 s u) (base : AtBase 8 u) (page : u.eng[8].vbase.toNat % 4096 = 0)
    (inside : u.eng[8].vbase.toNat + 0x300 < 2 ^ 32) :
    Gives (.mtrap 8) s fun t => t.eng[8].pc = u.eng[8].vbase.toNat + 0x300 ∧ t.eng[8].epcm = BitVec.ofNat 32 (u.eng[8].pc + 4)
      ∧ t.eng[8].sstatm = u.eng[8].status.word ∧ t.eng[8].priv = 2 ∧ t.eng[8].exc = true ∧ t.eng[8].epc = u.eng[8].epc
      ∧ t.eng[8].cause.toNat / 65536 = 12 ∧ t.mem = u.mem ∧ (∀ k : Fin 9, k ≠ 8 → t.eng[k] = u.eng[k]) := by
  have drawn : AtBase 8 u.drawn.2 := ⟨base.exc, base.mexc, base.lvl, base.slot⟩
  obtain ⟨x, entered, pc, epcm, sstatm, priv, exc, epc, cause⟩ := drawn.machineEntry u.drawn.1 ((u.eng[8].pc + 4) % 2 ^ 32)
  have eng8 : (u.drawn.2.setEng 8 x).eng[(8 : Fin 9)] = x := State.setEng_eng_same u.drawn.2 8 x
  have run := ex.settles fun s => if (8 : Fin 9).val < 8 then takeExc 8 2 0 none s.eng[(8 : Fin 9)].pc false s
    else takeExc 8 12 s.drawn.1 none ((s.eng[(8 : Fin 9)].pc + 4) % 2 ^ 32) false s.drawn.2
  have vbase : u.drawn.2.eng[(8 : Fin 9)].vbase = u.eng[8].vbase := rfl
  rw [vbase] at pc
  have settled : settle 8 (u.drawn.2.setEng 8 x) = u.drawn.2.setEng 8 x := settle_of_aligned (by rw [eng8, pc]; omega) ex.calm
  have ran : exec (.mtrap 8) s = .next (u.drawn.2.setEng 8 x) :=
    congrArg Host.Outcome.next (run.trans ((congrArg (settle 8) (show _ = u.drawn.2.setEng 8 x from entered)).trans settled))
  refine ⟨_, ran, (congrArg Eng.pc eng8).trans (pc.trans (Nat.mod_eq_of_lt inside)), (congrArg Eng.epcm eng8).trans (epcm.trans ?_),
    (congrArg Eng.sstatm eng8).trans sstatm, (congrArg Eng.priv eng8).trans priv, (congrArg Eng.exc eng8).trans exc, (congrArg Eng.epc eng8).trans epc,
    ?_, rfl, fun k other => State.setEng_get_ne u.drawn.2 x other⟩
  · exact BitVec.eq_of_toNat_eq (by simp)
  · rw [show (u.drawn.2.setEng 8 x).eng[8] = x from eng8, cause, causeWord]
    simp [b2n]
    omega

/-- BRK inside a handler or an interrupt level is a double fault (R265). -/
theorem nested_brk (h : Fin 8) (s u : State) (ex : Executes (hEng h) s u) (outside : u.eng[hEng h].slot = none)
    (nested : u.eng[hEng h].exc = true ∨ u.eng[hEng h].lvl ≠ 0) :
    let t := doubleFault (hEng h) u.eng[hEng h].pc u
    exec (.brk (hEng h)) s = .next (settle (hEng h) t) ∧ t.eng[hEng h].state = 3 ∧ t.eng[hEng h].halted = u.eng[hEng h].pc ∧ t.mem = u.mem
      ∧ (∀ k : Fin 9, k ≠ hEng h → t.eng[k] = u.eng[k]) := by
  have twice : (u.eng[hEng h].exc || decide (0 < u.eng[hEng h].lvl.val) || u.eng[hEng h].mexc) = true := by
    obtain exc | lvl := nested
    · rw [exc, Bool.true_or, Bool.true_or]
    · have pos : 0 < u.eng[hEng h].lvl.val := Nat.pos_of_ne_zero fun z => lvl (Fin.ext z)
      rw [decide_eq_true pos, Bool.or_true, Bool.true_or]
  have fault : takeExc (hEng h) 11 0 none u.eng[hEng h].pc false u = doubleFault (hEng h) u.eng[hEng h].pc u := by
    simp only [takeExc, outside, Eng.undoSlot_of_none outside, State.setEng_self, twice, if_true]
  have only := faultOnly_doubleFault h u.eng[hEng h].pc u
  have halted := State.setEng_eng_same u (hEng h) { u.eng[hEng h] with state := 3, halted := u.eng[hEng h].pc, pc := u.eng[hEng h].pc, wait := none }
  refine ⟨congrArg Host.Outcome.next ((ex.settles _).trans (congrArg _ fault)), ?_, ?_, only.mem, fun k other => ?_⟩ <;> rw [only.eng]
  · exact congrArg Eng.state halted
  · exact congrArg Eng.halted halted
  · exact State.setEng_get_ne u _ other

/-- Settles O55, by the entry of one exception at base level, of MTRAP and of a double fault. -/
theorem engineExceptions : Obligations.EngineExceptions := by
  refine ⟨fun e s u ex base page user => ?_, reeve_mtrap, nested_brk, fun e s u w runs fetched unknown calm base page user => ?_⟩
  · obtain ⟨trap, brk, mtrap, fields, lui, jalr, seta, geta, adda⟩ := engineExceptions_base e s u ex base page user
    have memory {rt an am sz imm} := engineExceptions_memory (rt := rt) (an := an) (am := am) (sz := sz) (imm := imm) e s u ex base page user
    refine ⟨trap, brk, mtrap, fields, lui, jalr, seta, geta, adda, fun rt an am imm odd => memory (memIllegal_odd _ an am imm odd),
      fun rt an sz imm rest => memory (memIllegal_index _ rt an sz rest), fun acc part r high => ⟨?_, ?_⟩, fun rd ax ay rc mode cut bad => ?_,
      fun rd odd => ex.takesIllegal base page user rfl (if_pos odd), fun reeve => ex.takesIllegal base page user rfl (if_neg (Nat.not_lt.2 reeve)),
      fun task rd ra rb => ⟨ex.takesPrivileged base page task rfl, ex.takesPrivileged base page task rfl, ex.takesPrivileged base page task rfl,
        ex.takesPrivileged base page task rfl, ex.takesPrivileged base page task rfl, ex.takesPrivileged base page task rfl⟩⟩
    · exact ex.takesIllegal base page user rfl (if_pos high)
    · exact ex.takesIllegal base page user rfl (if_pos high)
    · have wrong : rd.val % 2 = 1 ∨ ay.val ≠ 0 ∨ 1 < mode.val := bad.imp_right (Or.imp_left fun other z => other (Fin.ext z))
      exact ⟨ex.takesIllegal base page user rfl (if_pos wrong), ex.takesIllegal base page user rfl (if_pos wrong)⟩
  · have unlisted (act : State → State) : engStep e act s = settle e (takeExc e 1 0 none u.eng[e].pc false u) := by
      rw [engStep_of_fetched runs fetched, unknown]
      rfl
    have takes {i : Instr} {act : State → State} (run : exec i s = .next (engStep e act s)) : Gives i s (Taken e 1 0 u.eng[e].pc u) :=
      base.gives_taken page user calm (by decide) (by decide) (run.trans (congrArg Host.Outcome.next (unlisted act)))
    exact ⟨fun _ _ _ => takes rfl, fun _ _ _ _ _ => takes rfl, fun _ _ _ => takes rfl, fun _ => takes rfl, takes rfl, takes rfl⟩

end Sys2Proof.Machine
end

section
/-!
PROOFS. What a command's own register reads after its write (R7, R8, R45), and counters.
-/

namespace Sys2Proof

/-- The fields and copies of a register's table, in the order in which a write goes through them. -/
def RegDesc.pieces (d : RegDesc) : List Field := d.fields.flatMap fun f => (List.range f.cnt).map f.sub

/-- `p` is the plain field `g`. -/
def Field.plainAs (p g : Field) : Bool := p.lo == g.lo && p.width == g.width && (p.acc == .rw || p.acc == .rwl)

/-- `p` and `g` share no bit of one register. -/
def Field.beside (p g : Field) : Bool := Nat.ble (g.lo + g.width) p.lo || Nat.ble (p.lo + p.width) g.lo

/-- A write never changes `p`. -/
def Field.readOnly (p : Field) : Bool := p.acc == .ro || p.acc == .wo || p.acc == .rc

/-- Every piece of the register is the plain field `g` itself, or leaves it alone. -/
def RegDesc.clean (d : RegDesc) (g : Field) : Bool := d.pieces.all fun p => p.fits && (p.plainAs g || p.beside g || p.readOnly)

/-- The plain field `g` is a piece of the register. -/
def RegDesc.has (d : RegDesc) (g : Field) : Bool := d.pieces.any fun p => p.plainAs g

/-- `p` is the single bit `g`, which a 1 written sets (R7). -/
def Field.setAs (p g : Field) : Bool := p.lo == g.lo && p.width == 1 && g.width == 1 && p.acc == .w1s

/-- Every piece of the register is the bit `g` itself, set by a 1, or leaves it alone. -/
def RegDesc.cleanSet (d : RegDesc) (g : Field) : Bool := d.pieces.all fun p => p.fits && (p.setAs g || p.beside g || p.readOnly)

/-- The bit `g`, set by a 1, is a piece of the register. -/
def RegDesc.hasSet (d : RegDesc) (g : Field) : Bool := d.pieces.any fun p => p.setAs g

end Sys2Proof

namespace Sys2Proof.Machine

theorem wordWrite_eq_pieces (d : RegDesc) (new old : Word) :
    wordWrite false d new old = d.pieces.foldl (fun w p => fieldWrite false p new w) old := by
  simp only [wordWrite, RegDesc.pieces, List.foldl_flatMap, List.foldl_map]

section
variable {p g : Field}

theorem fieldWrite_readOnly (locked : Bool) (fixed : p.readOnly = true) (new old : Word) : fieldWrite locked p new old = old := by
  rw [fieldWrite]
  cases kind : p.acc <;> simp [Field.readOnly, kind] at fixed ⊢

theorem getBits_fieldWrite_beside (fits : p.fits = true) (beside : p.beside g = true) (new old : Word) :
    getBits g (fieldWrite false p new old) = getBits g old := by
  have apart : g.lo + g.width ≤ p.lo ∨ p.lo + p.width ≤ g.lo := by simpa [Field.beside] using beside
  have put (v : Nat) : getBits g (setBits p old v) = getBits g old := getBits_setBits_ne p g old v (Nat.le_of_ble_eq_true fits) apart
  rw [fieldWrite]
  cases p.acc <;> simp [put]

theorem getBits_fieldWrite_plain (fits : p.fits = true) (plain : p.plainAs g = true) (new old : Word) :
    getBits g (fieldWrite false p new old) = getBits g new := by
  simp only [Field.plainAs, Bool.and_eq_true, Bool.or_eq_true, beq_iff_eq] at plain
  obtain ⟨⟨lo, width⟩, kind⟩ := plain
  have like (w : Word) : getBits g w = getBits p w := by simp only [getBits, lo, width]
  have put : getBits p (setBits p old (getBits p new)) = getBits p new := by
    rw [getBits_setBits_same p old _ (Nat.le_of_ble_eq_true fits)]
    exact Nat.mod_eq_of_lt (Nat.mod_lt _ (Nat.two_pow_pos _))
  rw [like, like, fieldWrite]
  obtain kind | kind := kind <;> simp [kind, put]

theorem getBits_fieldWrites {l : List Field} (clean : (l.all fun p => p.fits && (p.plainAs g || p.beside g || p.readOnly)) = true) (new old : Word) :
    getBits g (l.foldl (fun w p => fieldWrite false p new w) old) = if (l.any fun p => p.plainAs g) = true then getBits g new else getBits g old := by
  induction l generalizing old with
  | nil => rfl
  | cons p l ih =>
    rw [List.all_cons, Bool.and_eq_true] at clean
    obtain ⟨here, rest⟩ := clean
    rw [Bool.and_eq_true] at here
    obtain ⟨fits, kind⟩ := here
    rw [List.foldl_cons, ih rest, List.any_cons]
    by_cases plain : p.plainAs g = true
    · simp [plain, getBits_fieldWrite_plain fits plain]
    · rw [Bool.not_eq_true] at plain
      rw [plain, Bool.false_or] at kind
      have kept : getBits g (fieldWrite false p new old) = getBits g old := by
        obtain beside | fixed := Bool.or_eq_true_iff.1 kind
        · exact getBits_fieldWrite_beside fits beside new old
        · rw [fieldWrite_readOnly false fixed]
      rw [kept, plain, Bool.false_or]

end

section
variable {p g : Field}

theorem getBits_fieldWrite_set (set_ : p.setAs g = true) {new : Word} (one : getBits g new = 1) (old : Word) (fits : p.fits = true) :
    getBits g (fieldWrite false p new old) = 1 := by
  simp only [Field.setAs, Bool.and_eq_true, beq_iff_eq] at set_
  obtain ⟨⟨⟨lo, width⟩, gwidth⟩, kind⟩ := set_
  have like (w : Word) : getBits g w = getBits p w := by simp only [getBits, lo, width, gwidth]
  rw [like] at one
  have put : getBits p (setBits p old (getBits p old ||| 1)) = (getBits p old ||| 1) % 2 ^ p.width :=
    getBits_setBits_same p old _ (Nat.le_of_ble_eq_true fits)
  have bit : getBits p old < 2 ^ p.width := Nat.mod_lt _ (Nat.two_pow_pos _)
  rw [like, fieldWrite, kind]
  dsimp only
  rw [one, put]
  rw [width] at bit ⊢
  generalize getBits p old = x at bit ⊢
  match x with
  | 0 | 1 => rfl

theorem getBits_fieldWrites_set {l : List Field} (clean : (l.all fun p => p.fits && (p.setAs g || p.beside g || p.readOnly)) = true) {new : Word}
    (one : getBits g new = 1) (old : Word) :
    getBits g (l.foldl (fun w p => fieldWrite false p new w) old) = if (l.any fun p => p.setAs g) = true then 1 else getBits g old := by
  induction l generalizing old with
  | nil => rfl
  | cons p l ih =>
    rw [List.all_cons, Bool.and_eq_true] at clean
    obtain ⟨here, rest⟩ := clean
    rw [Bool.and_eq_true] at here
    obtain ⟨fits, kind⟩ := here
    rw [List.foldl_cons, ih rest, List.any_cons]
    by_cases set_ : p.setAs g = true
    · simp [set_, getBits_fieldWrite_set set_ one old fits]
    · rw [Bool.not_eq_true] at set_
      rw [set_, Bool.false_or] at kind
      have kept : getBits g (fieldWrite false p new old) = getBits g old := by
        obtain beside | fixed := Bool.or_eq_true_iff.1 kind
        · exact getBits_fieldWrite_beside fits beside new old
        · rw [fieldWrite_readOnly false fixed]
      rw [kept, set_, Bool.false_or]

end

section
variable {d : RegDesc} {g : Field}

/-- A bit that a 1 sets is set by a 1 (R7). -/
theorem getBits_wordWrite_set (clean : d.cleanSet g = true) (has : d.hasSet g = true) {new : Word} (one : getBits g new = 1) (old : Word) :
    getBits g (wordWrite false d new old) = 1 := by
  rw [wordWrite_eq_pieces, getBits_fieldWrites_set clean one]
  exact if_pos has

theorem getBits_wordWrite_plain (clean : d.clean g = true) (has : d.has g = true) (new old : Word) :
    getBits g (wordWrite false d new old) = getBits g new := by
  rw [wordWrite_eq_pieces, getBits_fieldWrites clean]
  exact if_pos has

theorem getBits_wordWrite_kept (clean : d.clean g = true) (none : d.has g = false) (new old : Word) :
    getBits g (wordWrite false d new old) = getBits g old := by
  rw [wordWrite_eq_pieces, getBits_fieldWrites clean]
  exact if_neg (by rw [show (d.pieces.any fun p => p.plainAs g) = false from none]; decide)

end

section
variable {s : State} {a : Nat} {d : RegDesc} (desc : descOf a = some d) (free : s.locked a = false) (r : Req) (v : Word)
include desc free

theorem State.storeReg_regsOnly : RegsOnly s (s.storeReg r a v) := by
  rw [State.storeReg_open desc free]
  exact (RegsOnly.refl s).wr a _

theorem State.storeReg_regs : (s.storeReg r a v).regs = rfWrite s.regs a (wordWrite false d v (rfRead s.regs a)) := by
  rw [State.storeReg_open desc free, State.wr_regs, State.rd]

theorem State.storeReg_get_ne {g : Field} (other : (g.reg != a) = true) : (s.storeReg r a v).get g = s.get g := by
  rw [State.get_eq_rfGet, State.storeReg_regs desc free, rfGet_rfWrite_ne _ _ other, State.get_eq_rfGet]

theorem State.storeReg_get_plain {g : Field} (at_ : g.reg = a) (clean : d.clean g = true) (has : d.has g = true) :
    (s.storeReg r a v).get g = getBits g v := by
  rw [State.get_eq_rfGet, State.storeReg_regs desc free, rfGet_rfWrite_same _ _ at_, getBits_wordWrite_plain clean has]

theorem State.storeReg_get_kept {g : Field} (at_ : g.reg = a) (clean : d.clean g = true) (none : d.has g = false) :
    (s.storeReg r a v).get g = s.get g := by
  rw [State.get_eq_rfGet, State.storeReg_regs desc free, rfGet_rfWrite_same _ _ at_, getBits_wordWrite_kept clean none, State.get_eq_rfGet, rfGet, at_]

theorem State.storeReg_sameRegs : SameRegs [a] s (s.storeReg r a v) := by
  rw [State.storeReg_open desc free]
  exact (SameRegs.refl _ s).wr (List.mem_singleton_self a) _

end

/-! ### A register that no lock guards (R45) -/

theorem fieldWrite_locked {p : Field} (open_ : p.acc ≠ .rwl) (locked : Bool) (new old : Word) : fieldWrite locked p new old = fieldWrite false p new old := by
  rw [fieldWrite, fieldWrite]
  cases kind : p.acc <;> simp [kind] at open_ ⊢

theorem wordWrite_locked {d : RegDesc} (open_ : lockRefused d = false) (locked : Bool) (new old : Word) :
    wordWrite locked d new old = wordWrite false d new old := by
  have each : ∀ f ∈ d.fields, f.acc ≠ .rwl := fun f listed kind => by
    have some_ : lockRefused d = true := List.any_eq_true.2 ⟨f, listed, decide_eq_true kind⟩
    rw [open_] at some_
    cases some_
  rw [wordWrite, wordWrite]
  generalize d.fields = l at each
  induction l generalizing old with
  | nil => rfl
  | cons f l ih =>
    have piece (w : Word) (j : Nat) : fieldWrite locked (f.sub j) new w = fieldWrite false (f.sub j) new w :=
      fieldWrite_locked (p := f.sub j) (each f (List.mem_cons_self ..)) locked new w
    rw [List.foldl_cons, List.foldl_cons]
    simp only [piece]
    exact ih _ fun g listed => each g (List.mem_cons_of_mem _ listed)

/-- A register with no lockable field takes its write, locked or not. -/
theorem State.storeReg_unguarded {s : State} {a : Nat} {d : RegDesc} (desc : descOf a = some d) (open_ : lockRefused d = false) (r : Req) (v : Word) :
    s.storeReg r a v = s.wr a (wordWrite false d v (s.rd a)) := by
  rw [State.storeReg, desc]
  simp only [open_, Bool.and_false, Bool.false_eq_true, if_false, wordWrite_locked open_]

/-! ### Counters -/

theorem State.inc_regs (s : State) (f : Field) : (s.inc f).regs = rfPut s.regs f (min (rfGet s.regs f + 1) (2 ^ f.width - 1)) := by
  rw [State.inc, State.add, State.put_regs, State.get_eq_rfGet]

/-- A counter goes up by one and stays at its largest value (R8). -/
theorem State.get_inc_same (s : State) {f : Field} (fits : f.fits = true) : (s.inc f).get f = min (s.get f + 1) (2 ^ f.width - 1) := by
  rw [State.get_eq_rfGet, State.inc_regs, rfGet_rfPut_self _ _ fits, State.get_eq_rfGet, Nat.mod_eq_of_lt]
  have := Nat.two_pow_pos f.width
  omega

theorem SameRegs.inc {l : List Nat} {s t : State} (same : SameRegs l s t) {f : Field} (listed : f.reg ∈ l) : SameRegs l s (t.inc f) :=
  same.put listed _

theorem SameRegs.get {l : List Nat} {s t : State} (same : SameRegs l s t) {f : Field} (other : f.reg ∉ l) : t.get f = s.get f := by
  rw [State.get, State.get, same f.reg other]

theorem SameRegs.trans {l : List Nat} {s t u : State} (first : SameRegs l s t) (second : SameRegs l t u) : SameRegs l s u :=
  fun a other => (second a other).trans (first a other)

theorem SameRegs.mono {l m : List Nat} {s t : State} (same : SameRegs l s t) (more : ∀ a ∈ l, a ∈ m) : SameRegs m s t :=
  fun a other => same a fun listed => other (more a listed)

/-! ### A bad access (R47) -/

section
variable (s : State) (r : Req) (a size : Nat) (write : Bool) (reason : Nat)

theorem noticeOnly_badAccess : NoticeOnly s (s.badAccess r a size write reason) :=
  have counted := (NoticeOnly.refl s).inc Fld.SYS_BADACC_CNT_COUNT
  .ite _ counted (((counted.wr _ _).wr _ _).raise (by decide) _ _)

/-- A bad access leaves a register alone that neither its capture nor a notice writes. -/
theorem State.rd_badAccess {b : Nat} (quiet : raiseTouches b = false) (other : b ∉ [Reg.SYS_BADACC_CNT, Reg.SYS_BADACC_ADDR, Reg.SYS_BADACC_INFO]) :
    (s.badAccess r a size write reason).rd b = s.rd b := by
  have counted : SameRegs [Reg.SYS_BADACC_CNT, Reg.SYS_BADACC_ADDR, Reg.SYS_BADACC_INFO] s (s.inc Fld.SYS_BADACC_CNT_COUNT) :=
    (SameRegs.refl _ s).inc (by decide)
  rw [State.badAccess]
  split
  · exact counted b other
  · exact (State.raise_rd _ _ _ _ quiet).trans (((counted.wr (by decide) _).wr (by decide) _) b other)

theorem State.get_badAccess {f : Field} (quiet : raiseTouches f.reg = false)
    (other : f.reg ∉ [Reg.SYS_BADACC_CNT, Reg.SYS_BADACC_ADDR, Reg.SYS_BADACC_INFO]) : (s.badAccess r a size write reason).get f = s.get f := by
  rw [State.get, State.get, State.rd_badAccess s r a size write reason quiet other]

theorem State.get_badAccess_count :
    (s.badAccess r a size write reason).get Fld.SYS_BADACC_CNT_COUNT = min (s.get Fld.SYS_BADACC_CNT_COUNT + 1) (2 ^ 32 - 1) := by
  rw [State.badAccess]
  split
  · exact s.get_badAccessCount_inc
  · refine (State.raise_get _ _ _ _ (by decide)).trans (Eq.trans ?_ s.get_badAccessCount_inc)
    rw [State.get, State.rd_wr_ne _ _ (by decide), State.rd_wr_ne _ _ (by decide), ← State.get]

/-- A refused write is a bad access with reason 4 and an answer without error (R46, R47). -/
theorem noticeOnly_refuse4 : ∃ t, NoticeOnly s t ∧ s.refuse4 r a = t.ok := ⟨_, noticeOnly_badAccess s r a 2 true 4, by rw [State.refuse4]⟩

theorem State.get_refuse4 {f : Field} (quiet : raiseTouches f.reg = false)
    (other : f.reg ∉ [Reg.SYS_BADACC_CNT, Reg.SYS_BADACC_ADDR, Reg.SYS_BADACC_INFO]) : (s.refuse4 r a).get f = s.get f := by
  rw [State.refuse4, State.get_ok, State.get_badAccess s r a 2 true 4 quiet other]

theorem State.get_refuse4_count : (s.refuse4 r a).get Fld.SYS_BADACC_CNT_COUNT = min (s.get Fld.SYS_BADACC_CNT_COUNT + 1) (2 ^ 32 - 1) := by
  rw [State.refuse4, State.get_ok, State.get_badAccess_count]

end

/-! ### Single bits, and a list of registers written 0 -/

theorem getBits_of_width_one {f : Field} (one : f.width = 1) (w : Word) : getBits f w = (w.getLsbD f.lo).toNat := by
  rw [getBits, one, BitVec.getLsbD, Nat.testBit_eq_decide_div_mod_eq]
  have bit := Nat.mod_two_eq_zero_or_one (w.toNat / 2 ^ f.lo)
  obtain zero | set := bit
  · simp [zero]
  · simp [set]

theorem SameRegs.foldl {β : Type} {f : State → β → State} {l : List Nat} (each : ∀ t b, SameRegs l t (f t b)) {s t : State} (same : SameRegs l s t)
    (m : List β) : SameRegs l s (m.foldl f t) := by
  induction m generalizing t with
  | nil => exact same
  | cons b m ih => exact ih (same.trans (each t b))

theorem RegsOnly.trans {s t u : State} (first : RegsOnly s t) (second : RegsOnly t u) : RegsOnly s u := by
  obtain ⟨_, rfl⟩ := first
  obtain ⟨_, rfl⟩ := second
  exact ⟨_, rfl⟩

theorem RegsOnly.foldl {β : Type} {f : State → β → State} (each : ∀ t b, RegsOnly t (f t b)) {s t : State} (same : RegsOnly s t) (m : List β) :
    RegsOnly s (m.foldl f t) := by
  induction m generalizing t with
  | nil => exact same
  | cons b m ih => exact ih (same.trans (each t b))

end Sys2Proof.Machine
end

section
/-!
PROOFS. Alternative frequencies, broadcast time and the sweep of the Watch receiver (R423, R425 to R428, R431).
-/

namespace Sys2Proof.Machine

section
variable (s : State) (n : Fin 3) (c : FmChan)

@[simp] theorem State.get_setChan (f : Field) : (s.setChan n c).get f = s.get f := State.get_congr rfl f

end

/-- Registers and the receiver's own state are all that changes (R423). -/
theorem RegsOnly.setChan_eq {s u : State} (same : RegsOnly s u) (n : Fin 3) (c : FmChan) :
    u.setChan n c = { s with regs := (u.setChan n c).regs, wch := (u.setChan n c).wch } := by
  obtain ⟨_, rfl⟩ := same
  rfl

theorem afRegs_of_fm {n : Fin 3} (fm : n ≠ 2) : afRegs n = ⟨Fld.WCH_FMn_CFG_AFEN.i n, Fld.WCH_FMn_CFG_QTH.i n, Fld.WCH_FMn_CFG_DWELL.i n,
    Fld.WCH_FMn_STAT_AFTRY.i n, Fld.WCH_FMn_STAT_AFFAIL.i n, Fld.WCH_FMn_STAT_AFSW.i n, Fld.WCH_FMn_STAT_Q.i n, Fld.WCH_FMn_STAT_RSSI.i n⟩ := if_neg fm

theorem afRegs_two : afRegs 2 = ⟨Fld.WCH_DIG_CFG_AFEN, Fld.WCH_DIG_CFG_QTH, Fld.WCH_DIG_CFG_DWELL, Fld.WCH_DIG_STAT_AFTRY, Fld.WCH_DIG_STAT_AFFAIL,
    Fld.WCH_DIG_STAT_AFSW, Fld.WCH_DIG_STAT_Q, Fld.WCH_DIG_STAT_RSSI⟩ := rfl

/-- A register of an indexed set that is none of those written keeps its fields. -/
theorem SameRegs.get_i {s t : State} {f g : Field} {n : Nat} (same : SameRegs [(f.i n).reg] s t) (dims : f.dims = g.dims) (other : g.reg ≠ f.reg) :
    t.get (g.i n) = s.get (g.i n) :=
  same.get fun listed => other (by
    have eq := List.mem_singleton.1 listed
    simp only [Field.i, dims] at eq
    omega)

/-! ### The quality check of an FM channel (R423) -/

/-- The candidates of an FM channel do not rest on its status register. -/
theorem State.candidates_congr {s t : State} {n : Fin 3} (fm : n ≠ 2) (wch : t.wch = s.wch) (regs : SameRegs [(Fld.WCH_FMn_STAT_RSSI.i n).reg] s t) :
    t.candidates n = s.candidates n := by
  have kept {f : Field} (dims : f.dims = [32]) (other : f.reg ≠ 0x40C0108) : t.get (f.i n) = s.get (f.i n) := regs.get_i dims.symm other
  simp only [State.candidates, State.chanFreq, State.flag, if_neg fm, wch, kept (f := Fld.WCH_FMn_CFG_USERAF) rfl (by decide),
    kept (f := Fld.WCH_FMn_UAF0_AFA) rfl (by decide), kept (f := Fld.WCH_FMn_UAF0_AFB) rfl (by decide), kept (f := Fld.WCH_FMn_UAF1_AFA) rfl (by decide),
    kept (f := Fld.WCH_FMn_UAF1_AFB) rfl (by decide), kept (f := Fld.WCH_FMn_FREQ_FREQ) rfl (by decide)]
  rfl

section
variable {s : State} {n : Fin 3} (fm : n ≠ 2) (runs : s.watchRuns = true) (en : s.get (Fld.WCH_FMn_CFG_EN.i n) = 1)
  (afen : s.get (afRegs n).afen = 1) (idle : s.get (afRegs n).try_ = 0) (q rssi mer : Nat)
include fm runs en afen idle

/-- The check of a channel that follows alternative frequencies and tries none (R423). -/
theorem execAfQualityCheck_idle : execAfQualityCheck n q rssi mer s = .next (let u := s.put (afRegs n).rssi rssi
    if s.get (afRegs n).qth ≤ s.get (afRegs n).q then u.setChan n { s.wch.chan[n] with low := 0 }
    else if s.wch.chan[n].low + 1 < max 1 (s.get (afRegs n).dwell) then u.setChan n { s.wch.chan[n] with low := s.wch.chan[n].low + 1 }
    else match s.candidates n with
      | [] => afFailed n u
      | l => State.setChan (u.put (afRegs n).try_ 1) n { s.wch.chan[n] with tries := l, low := 0 }) := by
  have other : (n == 2) = false := beq_eq_false_iff_ne.2 fm
  rw [afRegs_of_fm fm] at afen idle ⊢
  rw [State.get_eq_rfGet] at en afen idle
  dsimp only at afen idle ⊢
  have cands : (s.put (Fld.WCH_FMn_STAT_RSSI.i n) rssi).candidates n = s.candidates n :=
    State.candidates_congr fm (State.put_wch s _ _) ((SameRegs.refl _ s).put (List.mem_singleton_self _) rssi)
  have wch : (s.put (Fld.WCH_FMn_STAT_RSSI.i n) rssi).wch = s.wch := State.put_wch _ _ _
  simp (disch := decide) only [execAfQualityCheck, runs, State.flag_eq_rfGet, State.get_eq_rfGet, State.put_regs, rfGet_rfPut_i, en, afen, idle, other,
    if_neg fm, afRegs_of_fm fm, cands, wch, Bool.not_true, Bool.or_false, Bool.and_false, Bool.false_and, bne_self_eq_false,
    show (1 != 0) = true from rfl, Bool.false_eq_true, if_false] <;> rfl

end

/-- The counters lie apart from the channels' registers. -/
theorem afRegs_apart_count : ∀ n : Fin 3, (afRegs n).rssi.apart (Fld.WCH_CNTn_COUNT.i 4) = true ∧ (afRegs n).try_.apart (Fld.WCH_CNTn_COUNT.i 4) = true
    ∧ (afRegs n).fail.apart (Fld.WCH_CNTn_COUNT.i 4) = true ∧ (Fld.WCH_CNTn_COUNT.i 4).apart (afRegs n).try_ = true
    ∧ (Fld.WCH_CNTn_COUNT.i 4).apart (afRegs n).fail = true := by decide

/-- The check of an FM channel: a low Q is counted, and candidates are tried or there are none (R423). -/
theorem afQualityCheck_fm {s : State} {n : Fin 3} {q rssi mer : Nat} (fm : n ≠ 2) (runs : s.watchRuns = true)
    (en : s.get (Fld.WCH_FMn_CFG_EN.i n) = 1) (afen : s.get (afRegs n).afen = 1) (idle : s.get (afRegs n).try_ = 0) :
    let f := afRegs n
    (s.get f.qth ≤ s.get f.q → Gives (.afQualityCheck n q rssi mer) s fun t => t.wch.chan[n].low = 0 ∧ t.wch.chan[n].tries = s.wch.chan[n].tries
      ∧ t.get f.try_ = 0 ∧ t = { s with regs := t.regs, wch := t.wch } ∧ SameRegs [f.rssi.reg] s t)
    ∧ (s.get f.q < s.get f.qth → s.wch.chan[n].low + 1 < max 1 (s.get f.dwell) → Gives (.afQualityCheck n q rssi mer) s fun t =>
      t.wch.chan[n].low = s.wch.chan[n].low + 1 ∧ t.get f.try_ = 0 ∧ t = { s with regs := t.regs, wch := t.wch } ∧ SameRegs [f.rssi.reg] s t)
    ∧ (s.get f.q < s.get f.qth → max 1 (s.get f.dwell) ≤ s.wch.chan[n].low + 1 → s.candidates n ≠ [] → Gives (.afQualityCheck n q rssi mer) s fun t =>
      t.wch.chan[n].tries = s.candidates n ∧ t.wch.chan[n].low = 0 ∧ t.get f.try_ = 1 ∧ t = { s with regs := t.regs, wch := t.wch } ∧ SameRegs [f.rssi.reg] s t)
    ∧ (s.get f.q < s.get f.qth → max 1 (s.get f.dwell) ≤ s.wch.chan[n].low + 1 → s.candidates n = [] → Gives (.afQualityCheck n q rssi mer) s fun t =>
      t.get f.fail = 1 ∧ t.get f.try_ = 0 ∧ t.wch.chan[n].low = 0 ∧ t.get (Fld.WCH_CNTn_COUNT.i 4) = min (s.get (Fld.WCH_CNTn_COUNT.i 4) + 1) (2 ^ 32 - 1)) := by
  have ran := execAfQualityCheck_idle fm runs en afen idle q rssi mer
  have counted := afRegs_apart_count n
  rw [afRegs_of_fm fm] at *
  dsimp only at *
  obtain ⟨rssi_cnt, try_cnt, fail_cnt, cnt_try, cnt_fail⟩ := counted
  have untried {v : Nat} : (s.put (Fld.WCH_FMn_STAT_RSSI.i n) v).get (Fld.WCH_FMn_STAT_AFTRY.i n) = 0 := by
    rw [State.get_eq_rfGet] at idle ⊢
    simp (disch := decide) only [State.put_regs, rfGet_rfPut_i, idle]
  have same {v : Nat} : SameRegs [(Fld.WCH_FMn_STAT_RSSI.i n).reg] s (s.put (Fld.WCH_FMn_STAT_RSSI.i n) v) :=
    (SameRegs.refl _ s).put (List.mem_singleton_self _) v
  refine ⟨fun good => ?_, fun low early => ?_, fun low long some => ?_, fun low long none => ?_⟩
  · rw [if_pos good] at ran
    refine Gives.of_eq ran ⟨congrArg FmChan.low (State.setChan_get _ _ _), (congrArg FmChan.tries (State.setChan_get _ _ _)).trans rfl, (State.get_setChan _ _ _ _).trans untried, ((RegsOnly.refl s).put _ _).setChan_eq _ _, same.congr (State.setChan_regs _ _ _)⟩
  · rw [if_neg (Nat.not_le.2 low), if_pos early] at ran
    exact Gives.of_eq ran ⟨congrArg FmChan.low (State.setChan_get _ _ _), (State.get_setChan _ _ _ _).trans untried, ((RegsOnly.refl s).put _ _).setChan_eq _ _, same.congr (State.setChan_regs _ _ _)⟩
  · rw [if_neg (Nat.not_le.2 low), if_neg (Nat.not_lt.2 long)] at ran
    obtain ⟨x, l, cands⟩ := List.exists_cons_of_ne_nil some
    rw [cands] at ran ⊢
    refine Gives.of_eq ran ⟨congrArg FmChan.tries (State.setChan_get _ _ _), congrArg FmChan.low (State.setChan_get _ _ _), ?_, (((RegsOnly.refl s).put _ _).put _ _).setChan_eq _ _,
      (same.put (f := Fld.WCH_FMn_STAT_AFTRY.i n) (List.mem_singleton.2 (Field.reg_i n rfl rfl)) 1).congr (State.setChan_regs _ _ _)⟩
    simp (disch := decide) only [State.get_eq_rfGet, State.setChan_regs, State.put_regs, rfGet_rfPut_self_i]
    rfl
  · rw [if_neg (Nat.not_le.2 low), if_neg (Nat.not_lt.2 long), none] at ran
    refine Gives.of_eq ran ⟨?_, ?_, ?_, ?_⟩
    all_goals simp only [afFailed, afRegs_of_fm fm]
    · rw [State.get_eq_rfGet, State.setChan_regs, State.inc_regs, rfGet_rfPut_apart _ _ (by decide) cnt_fail]
      simp (disch := decide) only [State.put_regs, rfGet_rfPut_self_i]
      rfl
    · rw [State.get_eq_rfGet, State.setChan_regs, State.inc_regs, rfGet_rfPut_apart _ _ (by decide) cnt_try]
      simp (disch := decide) only [State.put_regs, rfGet_rfPut_i, rfGet_rfPut_self_i, Nat.zero_mod]
    · exact congrArg FmChan.low (State.setChan_get _ _ _)
    · rw [State.get_setChan, State.get_inc_same _ (by decide), State.get_eq_rfGet, State.put_regs, rfGet_rfPut_apart _ _ rfl fail_cnt,
        State.put_regs, rfGet_rfPut_apart _ _ rfl try_cnt, State.put_regs, rfGet_rfPut_apart _ _ rfl rssi_cnt, ← State.get_eq_rfGet]
      rfl

end Sys2Proof.Machine
end

section
/-!
PROOFS. A candidate frequency's result, broadcast time and the sweep (R423, R425 to R428, R431).
-/

namespace Sys2Proof.Machine

/-! ### A candidate's result (R423) -/

/-- The frequency field of a channel of the Watch receiver. -/
def freqField (n : Fin 3) : Field := if n = 2 then Fld.WCH_DIG_FREQ_FREQ else Fld.WCH_FMn_FREQ_FREQ.i n

theorem State.chanFreq_eq (s : State) (n : Fin 3) : s.chanFreq n = s.get (freqField n) := by
  rw [State.chanFreq, freqField]
  split <;> rfl

/-- The channel's registers once the candidate `x` of quality `q` is taken. -/
def candidateTaken (n : Fin 3) (x q : Nat) (s : State) : State :=
  (((((s.put (freqField n) x).put (afRegs n).sw 1).put (afRegs n).try_ 0).put (afRegs n).q (min q 100)).inc (Fld.WCH_CNTn_COUNT.i 3))

theorem put_freqField (n : Fin 3) (x : Nat) (s : State) :
    (if n = 2 then s.put Fld.WCH_DIG_FREQ_FREQ x else s.put (Fld.WCH_FMn_FREQ_FREQ.i n) x) = s.put (freqField n) x := by
  rw [freqField]
  split <;> rfl

section
variable (n : Fin 3) (x q : Nat) (s : State)

theorem regsOnly_candidateTaken : RegsOnly s (candidateTaken n x q s) := (((((RegsOnly.refl s).put _ _).put _ _).put _ _).put _ _).inc _

theorem candidateTaken_regs : (candidateTaken n x q s).regs = rfPut (rfPut (rfPut (rfPut (rfPut s.regs (freqField n) x) (afRegs n).sw 1) (afRegs n).try_ 0)
    (afRegs n).q (min q 100)) (Fld.WCH_CNTn_COUNT.i 3) (min (rfGet (rfPut (rfPut (rfPut (rfPut s.regs (freqField n) x) (afRegs n).sw 1) (afRegs n).try_ 0)
      (afRegs n).q (min q 100)) (Fld.WCH_CNTn_COUNT.i 3) + 1) (2 ^ 32 - 1)) := by
  rw [candidateTaken, State.inc_regs]
  simp only [State.put_regs]
  rfl

/-- What the channel shows once a candidate is taken. -/
theorem candidateTaken_get : (candidateTaken n x q s).chanFreq n = x % (if n = 2 then 2 ^ 24 else 2 ^ 14) ∧ (candidateTaken n x q s).get (afRegs n).sw = 1
    ∧ (candidateTaken n x q s).get (afRegs n).try_ = 0 ∧ (candidateTaken n x q s).get (afRegs n).q = min q 100
    ∧ (candidateTaken n x q s).get (Fld.WCH_CNTn_COUNT.i 3) = min (s.get (Fld.WCH_CNTn_COUNT.i 3) + 1) (2 ^ 32 - 1)
    ∧ (candidateTaken n x q s).get Fld.WCH_CTRL_FLOW = s.get Fld.WCH_CTRL_FLOW := by
  have quality : min q 100 % 2 ^ 8 = min q 100 := by omega
  simp only [State.chanFreq_eq, State.get_eq_rfGet, candidateTaken_regs]
  match n with
  | 0 | 1 | 2 =>
    simp (disch := decide) only [rfGet_rfPut_apart, rfGet_rfPut_self]
    refine ⟨rfl, rfl, rfl, quality, ?_, trivial⟩
    exact Nat.mod_eq_of_lt (show _ < 2 ^ 32 by omega)

end

/-- Records go to flows 4 to 7 alone (R429). -/
theorem queueRecord_of_no_flow {s : State} (off : s.get Fld.WCH_CTRL_FLOW < 4) (src t freq : Nat) (body : List Nat) : queueRecord src t freq body s = s :=
  if_pos (.inl off)

/-- The identity that a candidate must show: PI, or the ensemble's or multiplex's own (R423). -/
def identityOf (n : Fin 3) (s : State) : Nat := if n = 2 then s.get Fld.WCH_DIG_ID_ID else s.get (Fld.WCH_FMn_PI_PI.i n)

section
variable {s : State} {n : Fin 3} {x : Nat} {l : List Nat} (tries : s.wch.chan[n].tries = x :: l) {sync : Bool} {ident q : Nat}
include tries

theorem execAfCandidateResult_taken (good : sync = true) (same : ident = identityOf n s) (high : s.get (afRegs n).qth ≤ q) (off : s.get Fld.WCH_CTRL_FLOW < 4) :
    execAfCandidateResult n sync ident q s =
      .next ((candidateTaken n x q s).setChan n { s.wch.chan[n] with tries := [], low := 0, blocks := blocksOf q }) := by
  obtain ⟨_, _, _, _, _, flow⟩ := candidateTaken_get n x q s
  obtain ⟨_, only⟩ := regsOnly_candidateTaken n x q s
  have wch : (candidateTaken n x q s).wch = s.wch := by rw [only]
  have quiet : ((candidateTaken n x q s).setChan n { s.wch.chan[n] with tries := [], low := 0, blocks := blocksOf q }).get Fld.WCH_CTRL_FLOW < 4 := by
    rw [State.get_setChan, flow]
    exact off
  have pass : (sync && ident == identityOf n s && decide (s.get (afRegs n).qth ≤ q)) = true := by simp [good, same, high]
  simp only [identityOf] at pass
  simp only [execAfCandidateResult, tries, pass, if_true, put_freqField]
  rw [← queueRecord_of_no_flow quiet, ← wch]
  rfl

theorem execAfCandidateResult_refused (bad : sync = false ∨ ident ≠ identityOf n s ∨ q < s.get (afRegs n).qth) :
    execAfCandidateResult n sync ident q s = .next (if l.isEmpty then afFailed n s else s.setChan n { s.wch.chan[n] with tries := l }) := by
  have fail : (sync && ident == identityOf n s && decide (s.get (afRegs n).qth ≤ q)) = false := by
    obtain off | other | low := bad
    · simp [off]
    · simp [other]
    · simp [low]
  simp only [identityOf] at fail
  simp only [execAfCandidateResult, tries, fail, Bool.false_eq_true, if_false]

end

/-- The channel returns when no candidate passes (R423). -/
theorem afFailed_gives (n : Fin 3) (s : State) : (afFailed n s).chanFreq n = s.chanFreq n ∧ (afFailed n s).get (afRegs n).fail = 1
    ∧ (afFailed n s).get (afRegs n).try_ = 0 ∧ (afFailed n s).wch.chan[n].tries = []
    ∧ afFailed n s = { s with regs := (afFailed n s).regs, wch := (afFailed n s).wch } := by
  refine ⟨?_, ?_, ?_, congrArg FmChan.tries (State.setChan_get _ _ _), ((((RegsOnly.refl s).put _ _).put _ _).inc _).setChan_eq _ _⟩
  all_goals simp only [State.chanFreq_eq, State.get_eq_rfGet, afFailed, State.setChan_regs, State.inc_regs, State.put_regs]
  · match n with
    | 0 | 1 | 2 => simp (disch := decide) only [rfGet_rfPut_apart]
  · match n with
    | 0 | 1 | 2 =>
      simp (disch := decide) only [rfGet_rfPut_apart, rfGet_rfPut_self]
      rfl
  · match n with
    | 0 | 1 | 2 => simp (disch := decide) only [rfGet_rfPut_apart, rfGet_rfPut_self, Nat.zero_mod]

/-- A candidate that passes is taken; one that fails gives way to the next, and the channel returns when none is left (R423). -/
theorem afCandidateResult (s : State) (n : Fin 3) (sync : Bool) (ident q x : Nat) (l : List Nat) (tries : s.wch.chan[n].tries = x :: l) :
    let f := afRegs n
    let me := if n = 2 then s.get Fld.WCH_DIG_ID_ID else s.get (Fld.WCH_FMn_PI_PI.i n)
    (sync = true → ident = me → s.get f.qth ≤ q → s.get Fld.WCH_CTRL_FLOW < 4 → Gives (.afCandidateResult n sync ident q) s fun t =>
      t.chanFreq n = x % (if n = 2 then 2 ^ 24 else 2 ^ 14) ∧ t.get f.sw = 1 ∧ t.get f.try_ = 0 ∧ t.get f.q = min q 100
      ∧ t.wch.chan[n] = { s.wch.chan[n] with tries := [], low := 0, blocks := blocksOf q }
      ∧ t.get (Fld.WCH_CNTn_COUNT.i 3) = min (s.get (Fld.WCH_CNTn_COUNT.i 3) + 1) (2 ^ 32 - 1) ∧ t = { s with regs := t.regs, wch := t.wch })
    ∧ (sync = false ∨ ident ≠ me ∨ q < s.get f.qth → l ≠ [] → exec (.afCandidateResult n sync ident q) s =
      .next { s with wch := { s.wch with chan := s.wch.chan.set n { s.wch.chan[n] with tries := l } } })
    ∧ (sync = false ∨ ident ≠ me ∨ q < s.get f.qth → l = [] → Gives (.afCandidateResult n sync ident q) s fun t => t.chanFreq n = s.chanFreq n
      ∧ t.get f.fail = 1 ∧ t.get f.try_ = 0 ∧ t.wch.chan[n].tries = [] ∧ t = { s with regs := t.regs, wch := t.wch }) := by
  refine ⟨fun good same high off => ?_, fun bad more => ?_, fun bad last => ?_⟩
  · obtain ⟨freq, sw, try_, quality, count, _⟩ := candidateTaken_get n x q s
    refine Gives.of_eq (execAfCandidateResult_taken tries good same high off) ⟨?_, ?_, ?_, ?_, State.setChan_get _ _ _, ?_,
      (regsOnly_candidateTaken n x q s).setChan_eq _ _⟩
    · rw [State.chanFreq_eq, State.get_setChan, ← State.chanFreq_eq, freq]
    all_goals rw [State.get_setChan]
    · exact sw
    · exact try_
    · exact quality
    · exact count
  · refine (execAfCandidateResult_refused tries bad).trans ?_
    rw [if_neg (by simpa using more)]
    rfl
  · exact Gives.of_eq ((execAfCandidateResult_refused tries bad).trans (by rw [last]; rfl)) (afFailed_gives n s)

@[simp] theorem State.get_postEdge (s : State) (trig h arg : Nat) (f : Field) : (s.postEdge trig h arg).get f = s.get f := State.get_congr rfl f

/-! ### Broadcast time (R425, R426) -/

theorem broadcastTimeItem (s : State) (src : Fin 4) (utc ms lto t0 : Nat) (source : s.get Fld.WCH_BT_CFG_TSRC = src.val)
    (idle0 : s.get (Fld.WCH_FMn_STAT_AFTRY.i 0) = 0) (idle1 : s.get (Fld.WCH_FMn_STAT_AFTRY.i 1) = 0) (idle2 : s.get Fld.WCH_DIG_STAT_AFTRY = 0)
    (norec : s.get Fld.WCH_CTRL_BTREC = 0) (runs : s.btRuns src = true) : Gives (.broadcastTimeItem src utc ms lto t0) s fun t =>
      t.get Fld.WCH_BT_UTC_UTC = utc % 2 ^ 32 ∧ t.get Fld.WCH_BT_MS_BTNEW = 1 ∧ t.get Fld.WCH_BT_MS_VALID = 1
      ∧ t.wch.bt = ⟨src, utc % 2 ^ 32, if src = 2 then ms else 0, if src = 2 then 0 else lto, t0⟩ ∧ t.edges = s.edges ++ [(5, 8, 3)]
      ∧ t = { s with now := max s.now t0, regs := t.regs, wch := t.wch, edges := t.edges } ∧ SameRegs [Reg.WCH_BT_UTC, Reg.WCH_BT_MS] s t := by
  have trying : (if src.val < 2 then s.flag (Fld.WCH_FMn_STAT_AFTRY.i src) else s.flag Fld.WCH_DIG_STAT_AFTRY) = false := by
    simp only [State.flag]
    match src with
    | 0 => simp [idle0]
    | 1 => simp [idle1]
    | 2 | 3 => simp [idle2]
  have pass : ¬(s.get Fld.WCH_BT_CFG_TSRC ≠ src.val ∨ (if src.val < 2 then s.flag (Fld.WCH_FMn_STAT_AFTRY.i src) else s.flag Fld.WCH_DIG_STAT_AFTRY) = true
      ∨ (!s.btRuns src) = true) := by
    rw [trying]
    simp [source, runs]
  generalize hu : ({ s.at t0 with wch := { s.wch with bt := ⟨src, utc % 2 ^ 32, if src = 2 then ms else 0, if src = 2 then 0 else lto, t0⟩ } } : State) = u
  have regs : u.regs = s.regs := by rw [← hu]; rfl
  have quiet : (((u.put Fld.WCH_BT_MS_BTNEW 1).put Fld.WCH_BT_MS_VALID 1).put Fld.WCH_BT_UTC_UTC utc).get Fld.WCH_CTRL_BTREC = 0 := by
    rw [State.get_eq_rfGet] at norec ⊢
    simp (disch := decide) only [State.put_regs, rfGet_rfPut_apart, regs, norec]
  have ran : exec (.broadcastTimeItem src utc ms lto t0) s =
      .next ((((u.put Fld.WCH_BT_MS_BTNEW 1).put Fld.WCH_BT_MS_VALID 1).put Fld.WCH_BT_UTC_UTC utc).postEdge 5 8 3) := by
    refine (congrArg Host.Outcome.next (if_neg pass)).trans ?_
    dsimp only
    rw [hu]
    exact congrArg Host.Outcome.next (if_neg (by
      rw [State.flag, State.get_postEdge, quiet]
      decide))
  have only : RegsOnly u (((u.put Fld.WCH_BT_MS_BTNEW 1).put Fld.WCH_BT_MS_VALID 1).put Fld.WCH_BT_UTC_UTC utc) := (((RegsOnly.refl u).put _ _).put _ _).put _ _
  have same : SameRegs [Reg.WCH_BT_UTC, Reg.WCH_BT_MS] s (((u.put Fld.WCH_BT_MS_BTNEW 1).put Fld.WCH_BT_MS_VALID 1).put Fld.WCH_BT_UTC_UTC utc) :=
    ((((SameRegs.refl _ s).congr regs).put (by decide) _).put (by decide) _).put (by decide) _
  refine Gives.of_eq ran ⟨?_, ?_, ?_, ?_, ?_, ?_, same.congr (State.postEdge_regs _ _ _ _)⟩
  · rw [State.get_postEdge, State.get_eq_rfGet, State.put_regs, rfGet_rfPut_self _ _ (by decide)]
    rfl
  · rw [State.get_postEdge, State.get_eq_rfGet]
    simp (disch := decide) only [State.put_regs, rfGet_rfPut_apart, rfGet_rfPut_self]
    rfl
  · rw [State.get_postEdge, State.get_eq_rfGet]
    simp (disch := decide) only [State.put_regs, rfGet_rfPut_apart, rfGet_rfPut_self]
    rfl
  all_goals
    obtain ⟨_, only⟩ := only
    rw [only, ← hu]
    rfl

/-- The word of WCH_BT_MS keeps VALID, clears BTNEW and shows the milliseconds latched (R426). -/
theorem getBits_btMs_word (v : Nat) (b : BtItem) :
    getBits Fld.WCH_BT_MS_BTNEW (BitVec.ofNat 32 (v * 2 ^ 31 + btMs b % 2 ^ 30)) = 0
      ∧ getBits Fld.WCH_BT_MS_MS (BitVec.ofNat 32 (v * 2 ^ 31 + btMs b % 2 ^ 30)) = b.ms % 1024 := by
  simp only [getBits, Fld.WCH_BT_MS_BTNEW, Fld.WCH_BT_MS_MS, BitVec.toNat_ofNat, btMs]
  omega

theorem btUtcRead_gives (s : State) (r : Req) (readable : s.check r Reg.WCH_BT_UTC 2 false = .ok) : Gives (.btUtcRead r) s fun t =>
    t.resp = { err := false, data := (s.rd Reg.WCH_BT_UTC).toNat } ∧ t.get Fld.WCH_BT_MS_BTNEW = 0 ∧ t.get Fld.WCH_BT_MS_MS = s.wch.bt.ms % 1024
    ∧ t.get Fld.WCH_BT_NS_VAL = nsOf s.wch.bt.t % 2 ^ 32 ∧ t.get Fld.WCH_BT_SEC_VAL = secOf s.wch.bt.t % 2 ^ 32
    ∧ t = { s with resp := t.resp, regs := t.regs } ∧ SameRegs [Reg.WCH_BT_MS, Reg.WCH_BT_NS, Reg.WCH_BT_SEC] s t := by
  have ran : exec (.btUtcRead r) s = .next { btUtcRead s with resp := { err := false, data := (s.rd Reg.WCH_BT_UTC).toNat } } := by
    show execBtUtcRead r s = _
    rw [execBtUtcRead, readable]
  obtain ⟨news, millis⟩ := getBits_btMs_word (s.get Fld.WCH_BT_MS_VALID) s.wch.bt
  have regs : (btUtcRead s).regs = rfPut (rfPut (rfWrite s.regs Reg.WCH_BT_MS (BitVec.ofNat 32 (s.get Fld.WCH_BT_MS_VALID * 2 ^ 31 + btMs s.wch.bt % 2 ^ 30)))
      Fld.WCH_BT_NS_VAL (nsOf s.wch.bt.t)) Fld.WCH_BT_SEC_VAL (secOf s.wch.bt.t) := by
    simp only [btUtcRead, State.put_regs, State.wr_regs]
  have only : RegsOnly s (btUtcRead s) := (((RegsOnly.refl s).wr _ _).put _ _).put _ _
  have same : SameRegs [Reg.WCH_BT_MS, Reg.WCH_BT_NS, Reg.WCH_BT_SEC] s (btUtcRead s) :=
    (((SameRegs.refl _ s).wr (by decide) _).put (by decide) _).put (by decide) _
  have shown (f : Field) : ({ btUtcRead s with resp := { err := false, data := (s.rd Reg.WCH_BT_UTC).toNat } } : State).get f = rfGet (btUtcRead s).regs f :=
    State.get_eq_rfGet _ f
  refine Gives.of_eq ran ⟨rfl, ?_, ?_, ?_, ?_, ?_, same.congr rfl⟩
  · rw [shown, regs, rfGet_rfPut_apart _ _ (by decide) (by decide), rfGet_rfPut_apart _ _ (by decide) (by decide)]
    exact (rfGet_rfWrite_same _ _ rfl).trans news
  · rw [shown, regs, rfGet_rfPut_apart _ _ (by decide) (by decide), rfGet_rfPut_apart _ _ (by decide) (by decide)]
    exact (rfGet_rfWrite_same _ _ rfl).trans millis
  · rw [shown, regs, rfGet_rfPut_apart _ _ (by decide) (by decide), rfGet_rfPut_self _ _ (by decide)]
    rfl
  · rw [shown, regs, rfGet_rfPut_self _ _ (by decide)]
    rfl
  · obtain ⟨_, only⟩ := only
    rw [only]

end Sys2Proof.Machine
end

section
/-!
PROOFS. The sweep of the Watch receiver (R427, R428, R431).
-/

namespace Sys2Proof.Machine

/-- The registers that a sweep writes as it goes: its status and the results. -/
def sweepRegs : List Nat := Fld.WCH_SW_STAT_BUSY.reg :: (List.range 64).map fun n => Reg.WCH_SWn_RES + 16 * n

theorem result_mem_sweepRegs {n : Nat} (entry : n < 64) : Reg.WCH_SWn_RES + 16 * n ∈ sweepRegs :=
  List.mem_cons_of_mem _ (List.mem_map.2 ⟨n, List.mem_range.2 entry, rfl⟩)

/-- Every result cleared (R427). -/
def clearResults (k : Nat) (s : State) : State := (List.range k).foldl (fun s n => s.wr (Reg.WCH_SWn_RES + 16 * n) 0) s

theorem clearResults_succ (k : Nat) (s : State) : clearResults (k + 1) s = (clearResults k s).wr (Reg.WCH_SWn_RES + 16 * k) 0 := by
  rw [clearResults, List.range_succ, List.foldl_append]
  rfl

theorem rd_clearResults {k n : Nat} (cleared : n < k) (s : State) : (clearResults k s).rd (Reg.WCH_SWn_RES + 16 * n) = 0 := by
  induction k with
  | zero => exact absurd cleared (Nat.not_lt_zero n)
  | succ k ih =>
    rw [clearResults_succ]
    by_cases last : n = k
    · rw [last, State.rd_wr_same]
    · rw [State.rd_wr_ne _ _ (by omega)]
      exact ih (by omega)

theorem sameRegs_clearResults {k : Nat} (most : k ≤ 64) (s : State) : SameRegs sweepRegs s (clearResults k s) := by
  induction k with
  | zero => exact .refl _ s
  | succ k ih =>
    rw [clearResults_succ]
    exact (ih (Nat.le_of_succ_le most)).wr (result_mem_sweepRegs most) 0

theorem regsOnly_clearResults (k : Nat) (s : State) : RegsOnly s (clearResults k s) := .foldl (fun t _ => (RegsOnly.refl t).wr _ _) (.refl s) _

/-- The state with the results cleared, BUSY set and the first entry named (R427). -/
def sweepArmed (s : State) : State := ((clearResults 64 s).put Fld.WCH_SW_STAT_BUSY 1).put Fld.WCH_SW_STAT_ENTRY 0

section
variable (s : State)

theorem regsOnly_sweepArmed : RegsOnly s (sweepArmed s) := ((regsOnly_clearResults 64 s).put _ _).put _ _

theorem sameRegs_sweepArmed : SameRegs sweepRegs s (sweepArmed s) :=
  ((sameRegs_clearResults (Nat.le_refl 64) s).put (f := Fld.WCH_SW_STAT_BUSY) (List.mem_cons_self ..) 1).put (f := Fld.WCH_SW_STAT_ENTRY) (List.mem_cons_self ..) 0

theorem sweepArmed_get {f : Field} (other : f.reg ∉ sweepRegs) : (sweepArmed s).get f = s.get f := (sameRegs_sweepArmed s).get other

theorem sweepArmed_busy : (sweepArmed s).get Fld.WCH_SW_STAT_BUSY = 1 := by
  rw [State.get_eq_rfGet, sweepArmed]
  simp (disch := decide) only [State.put_regs, rfGet_rfPut_apart, rfGet_rfPut_self]
  rfl

end

section
variable {s : State} (on : s.get Fld.WCH_CTRL_EN = 1) (source : s.get Fld.WCH_SW_CFG_SRC = 0) (band : inBands (s.get (Fld.WCH_SWn_FREQ_FREQ.i 0)) = true)
  (kind : s.get (Fld.WCH_SWn_CFG_KIND.i 0) < 2) (least : 1 ≤ s.get (Fld.WCH_SWn_CFG_BW.i 0)) (most : s.get (Fld.WCH_SWn_CFG_BW.i 0) ≤ 800)
include source band kind least most

/-- An entry within the Watch's bands, of a defined kind and width, is not skipped (R427). -/
theorem skips_first : (sweepArmed s).skips 0 = false := by
  simp only [State.skips, sweepArmed_get s (f := Fld.WCH_SWn_FREQ_FREQ.i 0) (by decide), sweepArmed_get s (f := Fld.WCH_SWn_CFG_KIND.i 0) (by decide),
    sweepArmed_get s (f := Fld.WCH_SWn_CFG_BW.i 0) (by decide), State.flag, sweepArmed_get s (f := Fld.WCH_SW_CFG_SRC) (by decide), source, band]
  simp
  omega

include on

/-- A sweep from within the Watch starts with its first entry (R427). -/
theorem startSweep_watch : startSweep s =
    { (sweepArmed s).put Fld.WCH_SW_STAT_ENTRY 0 with wch := { s.wch with start := s.now, dwell := s.now, agc := 0, clip := false } } := by
  have en : (sweepArmed s).flag Fld.WCH_CTRL_EN = true := by rw [State.flag, sweepArmed_get s (by decide), on]; rfl
  have src : (sweepArmed s).flag Fld.WCH_SW_CFG_SRC = false := by rw [State.flag, sweepArmed_get s (by decide), source]; rfl
  have start : startSweep s = advanceSweep (129 + 1) 0 (sweepArmed s) := by
    have unfolded : startSweep s = if !(sweepArmed s).flag Fld.WCH_CTRL_EN then endSweep 1 (sweepArmed s)
        else if (sweepArmed s).flag Fld.WCH_SW_CFG_SRC && (sweepArmed s).get (Fld.ORX_STAT_OWNER.h (Fin.ofNat 8 ((sweepArmed s).get Fld.WCH_SW_CFG_HAM))) != 3
          then endSweep 3 (sweepArmed s) else advanceSweep 130 0 (sweepArmed s) := by
      rw [startSweep, sweepArmed, clearResults]
    rw [unfolded, en, src, Bool.not_true, if_neg Bool.false_ne_true, Bool.false_and, if_neg Bool.false_ne_true]
  obtain ⟨_, only⟩ := regsOnly_sweepArmed s
  have wch : (sweepArmed s).wch = s.wch := by rw [only]
  have now : (sweepArmed s).now = s.now := by rw [only]
  rw [start, advanceSweep, if_neg (Nat.not_lt_zero _), skips_first source band kind least most, if_neg Bool.false_ne_true, ← wch, ← now]

end

end Sys2Proof.Machine
end

section
/-!
PROOFS. The end of a sweep's entry, of the sweep, and its control register (R427, R428, R431).
-/

namespace Sys2Proof.Machine

/-! ### The end of a sweep -/

/-- The registers that the end of a sweep writes. -/
def sweepEndRegs : List Nat := [Fld.WCH_SW_STAT_BUSY.reg, Reg.WCH_SW_CFG]

section
variable (code : Nat) (s : State)

theorem endSweep_frame : endSweep code s = { s with regs := (endSweep code s).regs, edges := s.edges ++ [(5, 8, 0)] } := by
  obtain ⟨_, only⟩ := ((((RegsOnly.refl s).put Fld.WCH_SW_STAT_END code).put Fld.WCH_SW_STAT_DONE 1).put Fld.WCH_SW_STAT_BUSY 0).put Fld.WCH_SW_CFG_GO 0
  rw [endSweep, only]
  rfl

theorem endSweep_regs : (endSweep code s).regs = rfPut (rfPut (rfPut (rfPut s.regs Fld.WCH_SW_STAT_END code) Fld.WCH_SW_STAT_DONE 1) Fld.WCH_SW_STAT_BUSY 0)
    Fld.WCH_SW_CFG_GO 0 := by
  rw [endSweep, State.postEdge_regs, State.put_regs, State.put_regs, State.put_regs, State.put_regs]

theorem endSweep_get : (endSweep code s).get Fld.WCH_SW_STAT_BUSY = 0 ∧ (endSweep code s).get Fld.WCH_SW_STAT_DONE = 1
    ∧ (endSweep code s).get Fld.WCH_SW_STAT_END = code % 8 ∧ (endSweep code s).get Fld.WCH_SW_CFG_REPEAT = s.get Fld.WCH_SW_CFG_REPEAT := by
  simp only [State.get_eq_rfGet, endSweep_regs]
  simp (disch := decide) only [rfGet_rfPut_apart, rfGet_rfPut_self]
  exact ⟨rfl, rfl, rfl, trivial⟩

theorem sameRegs_endSweep : SameRegs sweepEndRegs s (endSweep code s) := by
  have puts : SameRegs sweepEndRegs s ((((s.put Fld.WCH_SW_STAT_END code).put Fld.WCH_SW_STAT_DONE 1).put Fld.WCH_SW_STAT_BUSY 0).put Fld.WCH_SW_CFG_GO 0) :=
    ((((SameRegs.refl _ s).put (by decide) _).put (by decide) _).put (by decide) _).put (by decide) _
  refine puts.congr ?_
  rw [endSweep, State.postEdge_regs]

end

/-! ### The result of an entry -/

/-- The word of a result that is no hit (R427). -/
def resultWord (flags : Nat) (clip : Bool) (level : Option Nat) : Word := BitVec.ofNat 32 (2 ^ 31 + flags + b2n clip * 2 ^ 27 + (level.getD 0x8000) % 65536)

/-- The parts of a result: PART is bit 29, OVR the clipping, LEVEL the level (R427, R428). -/
theorem getBits_resultWord {part : Nat} (bit : part ≤ 1) (clip : Bool) (level : Option Nat) :
    getBits Fld.WCH_SWn_RES_VALID (resultWord (part * 2 ^ 29) clip level) = 1 ∧ getBits Fld.WCH_SWn_RES_PART (resultWord (part * 2 ^ 29) clip level) = part
      ∧ getBits Fld.WCH_SWn_RES_OVR (resultWord (part * 2 ^ 29) clip level) = (if clip then 1 else 0)
      ∧ getBits Fld.WCH_SWn_RES_LEVEL (resultWord (part * 2 ^ 29) clip level) = level.getD 0x8000 % 65536 := by
  have small : b2n clip ≤ 1 := b2n_le clip
  simp only [getBits, resultWord, Fld.WCH_SWn_RES_VALID, Fld.WCH_SWn_RES_PART, Fld.WCH_SWn_RES_OVR, Fld.WCH_SWn_RES_LEVEL, BitVec.toNat_ofNat]
  rw [show (if clip = true then 1 else 0) = b2n clip by cases clip <;> rfl]
  omega

/-- The result of entry `n` written, and counted where it is a part. -/
def resultWritten (part n : Nat) (level : Option Nat) (s : State) : State :=
  if part = 1 then (s.wr (Reg.WCH_SWn_RES + 16 * n) (resultWord (part * 2 ^ 29) s.wch.clip level)).inc (Fld.WCH_CNTn_COUNT.i 2)
  else s.wr (Reg.WCH_SWn_RES + 16 * n) (resultWord (part * 2 ^ 29) s.wch.clip level)

section
variable {part : Nat} (bit : part ≤ 1) (n : Nat) (level : Option Nat) (s : State)

theorem regsOnly_resultWritten : RegsOnly s (resultWritten part n level s) := by
  rw [resultWritten]
  split
  · exact ((RegsOnly.refl s).wr _ _).inc _
  · exact (RegsOnly.refl s).wr _ _

theorem sameRegs_resultWritten : SameRegs [Reg.WCH_SWn_RES + 16 * n, (Fld.WCH_CNTn_COUNT.i 2).reg] s (resultWritten part n level s) := by
  rw [resultWritten]
  split
  · exact ((SameRegs.refl _ s).wr (List.mem_cons_self ..) _).inc (List.mem_cons_of_mem _ (List.mem_singleton_self _))
  · exact (SameRegs.refl _ s).wr (List.mem_cons_self ..) _

theorem rd_resultWritten : (resultWritten part n level s).rd (Reg.WCH_SWn_RES + 16 * n) = resultWord (part * 2 ^ 29) s.wch.clip level := by
  rw [resultWritten]
  split
  · refine (State.rd_put_ne _ _ ?_).trans (State.rd_wr_same _ _ _)
    simp [Reg.WCH_SWn_RES, Field.i, Fld.WCH_CNTn_COUNT]
    omega
  · exact State.rd_wr_same _ _ _

theorem resultWritten_count (whole : part = 1) :
    (resultWritten part n level s).get (Fld.WCH_CNTn_COUNT.i 2) = min (s.get (Fld.WCH_CNTn_COUNT.i 2) + 1) (2 ^ 32 - 1) := by
  rw [resultWritten, if_pos whole, State.get_inc_same _ (by decide), State.get, State.rd_wr_ne, ← State.get]
  · rfl
  · simp [Reg.WCH_SWn_RES, Field.i, Fld.WCH_CNTn_COUNT]
    omega

include bit

/-- An entry with no threshold and no record ends with its result alone (R427). -/
theorem writeEntry_plain (plain : s.get (Fld.WCH_SWn_THR_EN.i (s.get Fld.WCH_SW_STAT_ENTRY)) = 0) (norec : s.get Fld.WCH_CTRL_SWREC = 0) :
    writeEntry (part * 2 ^ 29) level s = resultWritten part (s.get Fld.WCH_SW_STAT_ENTRY) level s := by
  have nohit : (level.isSome && s.flag (Fld.WCH_SWn_THR_EN.i (s.get Fld.WCH_SW_STAT_ENTRY))
      && decide (signed 16 (s.get (Fld.WCH_SWn_THR_THR.i (s.get Fld.WCH_SW_STAT_ENTRY))) < signed 16 (level.getD 0x8000 % 65536))) = false := by
    rw [State.flag, plain]
    simp
  have quiet : (resultWritten part (s.get Fld.WCH_SW_STAT_ENTRY) level s).flag Fld.WCH_CTRL_SWREC = false := by
    rw [State.flag, (sameRegs_resultWritten _ level s).get, norec]
    · rfl
    · simp [Reg.WCH_SWn_RES, Field.i, Fld.WCH_CNTn_COUNT, Fld.WCH_CTRL_SWREC]
      omega
  have flagBit : bitOf (part * 2 ^ 29) 29 = decide (part = 1) := by
    rw [bitOf]
    rcases Nat.le_one_iff_eq_zero_or_eq_one.1 bit with rfl | rfl <;> rfl
  have counted : (if bitOf (part * 2 ^ 29) 29 = true then (s.wr (Reg.WCH_SWn_RES + 16 * s.get Fld.WCH_SW_STAT_ENTRY)
        (resultWord (part * 2 ^ 29) s.wch.clip level)).inc (Fld.WCH_CNTn_COUNT.i 2)
      else s.wr (Reg.WCH_SWn_RES + 16 * s.get Fld.WCH_SW_STAT_ENTRY) (resultWord (part * 2 ^ 29) s.wch.clip level))
      = resultWritten part (s.get Fld.WCH_SW_STAT_ENTRY) level s := by
    simp only [flagBit, resultWritten, decide_eq_true_eq]
  simp only [writeEntry, nohit, b2n, Bool.false_eq_true, if_false, Nat.zero_mul, Nat.add_zero]
  simp only [resultWord, b2n] at counted
  rw [counted, quiet, if_neg Bool.false_ne_true]

end

end Sys2Proof.Machine
end

section
/-!
PROOFS. Commands of the sweep, and what the Watch receiver's search keeps (R423, R425 to R428, R431).
-/

namespace Sys2Proof.Machine

/-- A result's field is its part of the word written. -/
theorem get_result {t : State} {f : Field} (at_ : f.reg = Reg.WCH_SWn_RES) (dims : f.dims = [16]) (n : Nat) :
    t.get (f.i n) = getBits f (t.rd (Reg.WCH_SWn_RES + 16 * n)) := by
  rw [State.get, show (f.i n).reg = Reg.WCH_SWn_RES + 16 * n by rw [Field.i, at_, dims, Nat.mul_comm n]; rfl]
  rfl

section
variable {part n : Nat} (bit : part ≤ 1) (level : Option Nat) (s : State)
include bit

/-- The end of a sweep after its last entry's result (R427, R428). -/
theorem endSweep_resultWritten (code : Nat) :
    let t := endSweep code (resultWritten part n level s)
    t.get (Fld.WCH_SWn_RES_LEVEL.i n) = level.getD 0x8000 % 65536 ∧ t.get (Fld.WCH_SWn_RES_VALID.i n) = 1 ∧ t.get (Fld.WCH_SWn_RES_PART.i n) = part
      ∧ t.get (Fld.WCH_SWn_RES_OVR.i n) = (if s.wch.clip then 1 else 0) := by
  have kept : (endSweep code (resultWritten part n level s)).rd (Reg.WCH_SWn_RES + 16 * n) = resultWord (part * 2 ^ 29) s.wch.clip level := by
    rw [sameRegs_endSweep code _ _ (by simp [sweepEndRegs, Fld.WCH_SW_STAT_BUSY, Reg.WCH_SW_CFG, Reg.WCH_SWn_RES]; omega), rd_resultWritten]
  obtain ⟨valid, partial_, over_, lvl⟩ := getBits_resultWord bit s.wch.clip level
  dsimp only
  rw [get_result rfl rfl, get_result rfl rfl, get_result rfl rfl, get_result rfl rfl, kept]
  exact ⟨lvl, valid, partial_, over_⟩

end

/-! ### An entry ends (R427, R428) -/

section
variable {s : State} (last : s.get Fld.WCH_SW_STAT_ENTRY = s.get Fld.WCH_SW_CFG_LENM1) (once : s.get Fld.WCH_SW_CFG_REPEAT = 0)
  (plain : s.get (Fld.WCH_SWn_THR_EN.i (s.get Fld.WCH_SW_STAT_ENTRY)) = 0) (norec : s.get Fld.WCH_CTRL_SWREC = 0)
include last once plain norec

theorem completeEntry_last {part : Nat} (bit : part ≤ 1) (level : Option Nat) :
    completeEntry (part * 2 ^ 29) level s = endSweep 0 (resultWritten part (s.get Fld.WCH_SW_STAT_ENTRY) level s) := by
  have kept {f : Field} (below : f.reg < Reg.WCH_SWn_RES) (other : f.reg ≠ (Fld.WCH_CNTn_COUNT.i 2).reg) :
      (resultWritten part (s.get Fld.WCH_SW_STAT_ENTRY) level s).get f = s.get f :=
    (sameRegs_resultWritten _ level s).get (by
      simp only [List.mem_cons, List.not_mem_nil, or_false, not_or]
      exact ⟨by omega, other⟩)
  have done : (resultWritten part (s.get Fld.WCH_SW_STAT_ENTRY) level s).get Fld.WCH_SW_CFG_LENM1
      < (resultWritten part (s.get Fld.WCH_SW_STAT_ENTRY) level s).get Fld.WCH_SW_STAT_ENTRY + 1 := by
    rw [kept (f := Fld.WCH_SW_CFG_LENM1) (by decide) (by decide), kept (f := Fld.WCH_SW_STAT_ENTRY) (by decide) (by decide), last]
    exact Nat.lt_succ_self _
  have ends : (endSweep 0 (resultWritten part (s.get Fld.WCH_SW_STAT_ENTRY) level s)).flag Fld.WCH_SW_CFG_REPEAT = false := by
    obtain ⟨_, _, _, again⟩ := endSweep_get 0 (resultWritten part (s.get Fld.WCH_SW_STAT_ENTRY) level s)
    rw [State.flag, again, kept (f := Fld.WCH_SW_CFG_REPEAT) (by decide) (by decide), once]
    rfl
  rw [completeEntry, writeEntry_plain bit level s plain norec]
  show advanceSweep (129 + 1) _ _ = _
  rw [advanceSweep, if_pos done]
  simp only [ends, Bool.false_eq_true, if_false]

end

/-- What the end of the last entry leaves: its result, and the sweep over with END 0 (R427, R428). -/
theorem sweepEntry_ends {s : State} {t0 part level : Nat} (bit : part ≤ 1) (small : level < 2 ^ 16)
    (last : s.get Fld.WCH_SW_STAT_ENTRY = s.get Fld.WCH_SW_CFG_LENM1) (once : s.get Fld.WCH_SW_CFG_REPEAT = 0)
    (plain : s.get (Fld.WCH_SWn_THR_EN.i (s.get Fld.WCH_SW_STAT_ENTRY)) = 0) (norec : s.get Fld.WCH_CTRL_SWREC = 0) :
    let n := s.get Fld.WCH_SW_STAT_ENTRY
    let t := completeEntry (part * 2 ^ 29) (some level) (s.at t0)
    t.get (Fld.WCH_SWn_RES_LEVEL.i n) = level ∧ t.get (Fld.WCH_SWn_RES_VALID.i n) = 1 ∧ t.get (Fld.WCH_SWn_RES_PART.i n) = part
      ∧ t.get (Fld.WCH_SWn_RES_OVR.i n) = (if s.wch.clip then 1 else 0) ∧ t.get Fld.WCH_SW_STAT_BUSY = 0 ∧ t.get Fld.WCH_SW_STAT_DONE = 1
      ∧ t.get Fld.WCH_SW_STAT_END = 0 ∧ t.edges = s.edges ++ [(5, 8, 0)] ∧ t = { s with now := max s.now t0, regs := t.regs, edges := t.edges }
      ∧ (part = 1 → t.get (Fld.WCH_CNTn_COUNT.i 2) = min (s.get (Fld.WCH_CNTn_COUNT.i 2) + 1) (2 ^ 32 - 1)) := by
  have same (f : Field) : (s.at t0).get f = s.get f := State.get_congr rfl f
  rw [← same Fld.WCH_SW_STAT_ENTRY, ← same] at plain
  rw [← same Fld.WCH_SW_STAT_ENTRY, ← same] at last
  rw [← same] at once norec
  intro n
  have eq : completeEntry (part * 2 ^ 29) (some level) (s.at t0) = endSweep 0 (resultWritten part n (some level) (s.at t0)) :=
    completeEntry_last last once plain norec bit (some level)
  intro t
  have ended : t = endSweep 0 (resultWritten part n (some level) (s.at t0)) := eq
  clear_value t
  subst ended
  obtain ⟨lvl, valid, partial_, over_⟩ := endSweep_resultWritten (n := n) bit (some level) (s.at t0) 0
  obtain ⟨busy, done, code, _⟩ := endSweep_get 0 (resultWritten part n (some level) (s.at t0))
  have frame := endSweep_frame 0 (resultWritten part n (some level) (s.at t0))
  obtain ⟨_, only⟩ := regsOnly_resultWritten n (some level) (part := part) (s.at t0)
  have edges : (resultWritten part n (some level) (s.at t0)).edges = s.edges := by rw [only]; rfl
  refine ⟨lvl.trans (Nat.mod_eq_of_lt small), valid, partial_, over_, busy, done, code, ?_, ?_, fun whole => ?_⟩
  · rw [frame, edges]
  · rw [frame, edges, only]
    rfl
  · rw [(sameRegs_endSweep 0 _).get (by decide), resultWritten_count n (some level) _ whole, same]

/-! ### The control register of the sweep (R427) -/

/-- The table of WCH_SW_CFG. -/
def swCfgDesc : RegDesc := ⟨Reg.WCH_SW_CFG, [], [Fld.WCH_SW_CFG_GO, Fld.WCH_SW_CFG_STOP, Fld.WCH_SW_CFG_SRC, Fld.WCH_SW_CFG_GATE, Fld.WCH_SW_CFG_REPEAT,
  Fld.WCH_SW_CFG_HAM, Fld.WCH_SW_CFG_LENM1]⟩

theorem descOf_swCfg : descOf Reg.WCH_SW_CFG = some swCfgDesc := by decide +kernel

/-- The state after a write of WCH_SW_CFG, GO apart. -/
def sweepStored (r : Req) (v : Word) (s : State) : State := s.ok.storeReg r Reg.WCH_SW_CFG (v &&& 0x7FFFFFFF#32)

section
variable {s : State} {r : Req} {v : Word} (free : s.locked Reg.WCH_SW_CFG = false)
include free

theorem regsOnly_sweepStored : RegsOnly s.ok (sweepStored r v s) := State.storeReg_regsOnly (s := s.ok) descOf_swCfg free r _

theorem sameRegs_sweepStored : SameRegs [Reg.WCH_SW_CFG] s (sweepStored r v s) := State.storeReg_sameRegs (s := s.ok) descOf_swCfg free r _

theorem sweepStored_get {f : Field} (other : f.reg ≠ Reg.WCH_SW_CFG) : (sweepStored r v s).get f = s.get f :=
  (sameRegs_sweepStored free).get fun listed => other (List.mem_singleton.1 listed)

theorem sweepStored_source : (sweepStored r v s).get Fld.WCH_SW_CFG_SRC = getBits Fld.WCH_SW_CFG_SRC v := by
  rw [sweepStored, State.storeReg_get_plain (s := s.ok) descOf_swCfg free r _ rfl (by decide) (by decide), getBits_of_width_one rfl, getBits_of_width_one rfl,
    BitVec.getLsbD_and]
  rw [show (0x7FFFFFFF#32).getLsbD Fld.WCH_SW_CFG_SRC.lo = true by decide, Bool.and_true]

end

/-- The write of GO or STOP as its bits say (R427). -/
theorem sweepWrite_ok (r : Req) (v : Word) (s : State) : sweepWrite r v s.ok =
    let u := if getBits Fld.WCH_SW_CFG_STOP v = 1 then cutSweep 0 1 (sweepStored r v s) else sweepStored r v s
    if !decide (getBits Fld.WCH_SW_CFG_GO v = 1) then u else if s.flag Fld.WCH_SW_STAT_BUSY then u.refuse4 r Reg.WCH_SW_CFG else startSweep u := by
  rw [sweepWrite, sweepStored]
  rfl

/-- What the start of a sweep leaves (R427). -/
theorem startSweep_gives {s u : State} (only : RegsOnly s.ok u) (on : u.get Fld.WCH_CTRL_EN = 1) (source : u.get Fld.WCH_SW_CFG_SRC = 0)
    (band : inBands (u.get (Fld.WCH_SWn_FREQ_FREQ.i 0)) = true) (kind : u.get (Fld.WCH_SWn_CFG_KIND.i 0) < 2)
    (least : 1 ≤ u.get (Fld.WCH_SWn_CFG_BW.i 0)) (most : u.get (Fld.WCH_SWn_CFG_BW.i 0) ≤ 800) :
    (startSweep u).get Fld.WCH_SW_STAT_BUSY = 1 ∧ (startSweep u).get Fld.WCH_SW_STAT_ENTRY = 0
      ∧ (∀ n : Fin 64, (startSweep u).rd (Reg.WCH_SWn_RES + 16 * n) = 0)
      ∧ (startSweep u).wch = { s.wch with start := s.now, dwell := s.now, agc := 0, clip := false }
      ∧ startSweep u = { s with resp := { err := false, data := 0 }, regs := (startSweep u).regs, wch := (startSweep u).wch } := by
  have started := startSweep_watch on source band kind least most
  have regs : (startSweep u).regs = ((sweepArmed u).put Fld.WCH_SW_STAT_ENTRY 0).regs := by rw [started]
  obtain ⟨_, whole⟩ := (only.trans (regsOnly_sweepArmed u)).put Fld.WCH_SW_STAT_ENTRY 0
  have wch : u.wch = s.wch := by
    obtain ⟨_, rfl⟩ := only
    rfl
  have now : u.now = s.now := by
    obtain ⟨_, rfl⟩ := only
    rfl
  refine ⟨?_, ?_, fun n => ?_, ?_, ?_⟩
  · rw [State.get_congr regs, State.get_eq_rfGet, State.put_regs, rfGet_rfPut_apart _ _ (by decide) (by decide), ← State.get_eq_rfGet, sweepArmed_busy]
  · rw [State.get_congr regs, State.get_eq_rfGet, State.put_regs, rfGet_rfPut_self _ _ (by decide), Nat.zero_mod]
  · have apart : Reg.WCH_SWn_RES + 16 * n.val ≠ 0x40C0404 := by simp only [Reg.WCH_SWn_RES]; omega
    rw [State.rd_congr regs, State.rd_put_ne _ _ apart, sweepArmed, State.rd_put_ne _ _ apart, State.rd_put_ne _ _ apart, rd_clearResults n.isLt]
  · rw [started, wch, now]
  · rw [started, whole]
    rfl

section
variable {s : State} {r : Req} {v : Word} (taken : Takes s r Reg.WCH_SW_CFG)
include taken

theorem exec_sweepGo (go : getBits Fld.WCH_SW_CFG_GO v = 1) (nostop : getBits Fld.WCH_SW_CFG_STOP v = 0) : exec (.sweepGo r v) s =
    .next (if s.flag Fld.WCH_SW_STAT_BUSY then (sweepStored r v s).refuse4 r Reg.WCH_SW_CFG else startSweep (sweepStored r v s)) := by
  refine congrArg Host.Outcome.next ((regCmd_ok taken).trans ?_)
  simp only [sweepWrite_ok, go, nostop, Nat.zero_ne_one, decide_true, Bool.not_true, Bool.false_eq_true, if_false]

variable (free : s.locked Reg.WCH_SW_CFG = false)
include free

theorem sweepGo_starts (on : s.get Fld.WCH_CTRL_EN = 1) (idle : s.get Fld.WCH_SW_STAT_BUSY = 0) (go : getBits Fld.WCH_SW_CFG_GO v = 1)
    (nostop : getBits Fld.WCH_SW_CFG_STOP v = 0) (source : getBits Fld.WCH_SW_CFG_SRC v = 0) (band : inBands (s.get (Fld.WCH_SWn_FREQ_FREQ.i 0)) = true)
    (kind : s.get (Fld.WCH_SWn_CFG_KIND.i 0) < 2) (least : 1 ≤ s.get (Fld.WCH_SWn_CFG_BW.i 0)) (most : s.get (Fld.WCH_SWn_CFG_BW.i 0) ≤ 800) :
    Gives (.sweepGo r v) s fun t => t.get Fld.WCH_SW_STAT_BUSY = 1 ∧ t.get Fld.WCH_SW_STAT_ENTRY = 0 ∧ (∀ n : Fin 64, t.rd (Reg.WCH_SWn_RES + 16 * n) = 0)
      ∧ t.wch = { s.wch with start := s.now, dwell := s.now, agc := 0, clip := false }
      ∧ t = { s with resp := { err := false, data := 0 }, regs := t.regs, wch := t.wch } := by
  have busy : s.flag Fld.WCH_SW_STAT_BUSY = false := by rw [State.flag, idle]; rfl
  have ran := exec_sweepGo taken go nostop
  rw [busy, if_neg Bool.false_ne_true] at ran
  have freq : (sweepStored r v s).get (Fld.WCH_SWn_FREQ_FREQ.i 0) = _ := sweepStored_get free (by decide)
  have shape : (sweepStored r v s).get (Fld.WCH_SWn_CFG_KIND.i 0) = _ := sweepStored_get free (by decide)
  have width : (sweepStored r v s).get (Fld.WCH_SWn_CFG_BW.i 0) = _ := sweepStored_get free (by decide)
  exact Gives.of_eq ran (startSweep_gives (regsOnly_sweepStored free) ((sweepStored_get free (by decide)).trans on) ((sweepStored_source free).trans source)
    (freq ▸ band) (shape ▸ kind) (width ▸ least) (width ▸ most))

/-- GO during a sweep is refused (R427). -/
theorem sweepGo_refused (busy : s.get Fld.WCH_SW_STAT_BUSY = 1) (go : getBits Fld.WCH_SW_CFG_GO v = 1) (nostop : getBits Fld.WCH_SW_CFG_STOP v = 0) :
    Gives (.sweepGo r v) s fun t => t.wch = s.wch ∧ t.get Fld.WCH_SW_STAT_BUSY = 1
      ∧ t.get Fld.SYS_BADACC_CNT_COUNT = min (s.get Fld.SYS_BADACC_CNT_COUNT + 1) (2 ^ 32 - 1) := by
  have running : s.flag Fld.WCH_SW_STAT_BUSY = true := by rw [State.flag, busy]; rfl
  have ran := exec_sweepGo taken go nostop
  rw [running, if_pos rfl] at ran
  refine Gives.of_eq ran ⟨?_, ?_, ?_⟩
  · obtain ⟨_, ⟨_, _, _, _, _, notice⟩, refused⟩ := noticeOnly_refuse4 (sweepStored r v s) r Reg.WCH_SW_CFG
    obtain ⟨_, only⟩ := regsOnly_sweepStored (r := r) (v := v) free
    rw [refused, notice, only]
    rfl
  · rw [State.get_refuse4 _ r _ (by decide) (by decide), sweepStored_get free (by decide), busy]
  · rw [State.get_refuse4_count, sweepStored_get free (by decide)]

end

/-- STOP set with the other bits of a word (R427). -/
theorem getBits_stop_word (v : Word) : getBits Fld.WCH_SW_CFG_STOP (v ||| 0x40000000#32) = 1
    ∧ getBits Fld.WCH_SW_CFG_GO (v ||| 0x40000000#32) = getBits Fld.WCH_SW_CFG_GO v := by
  simp only [getBits_of_width_one (f := Fld.WCH_SW_CFG_STOP) rfl, getBits_of_width_one (f := Fld.WCH_SW_CFG_GO) rfl, BitVec.getLsbD_or]
  rw [show (0x40000000#32).getLsbD Fld.WCH_SW_CFG_STOP.lo = true by decide, show (0x40000000#32).getLsbD Fld.WCH_SW_CFG_GO.lo = false by decide,
    Bool.or_true, Bool.or_false]
  exact ⟨rfl, rfl⟩

/-- STOP cuts the entry in progress and ends the sweep with END 1 (R427). -/
theorem cutSweep_stops {u : State} (busy : u.get Fld.WCH_SW_STAT_BUSY = 1) (norec : u.get Fld.WCH_CTRL_SWREC = 0)
    (plain : u.get (Fld.WCH_SWn_THR_EN.i (u.get Fld.WCH_SW_STAT_ENTRY)) = 0) :
    (cutSweep 0 1 u).get Fld.WCH_SW_STAT_BUSY = 0 ∧ (cutSweep 0 1 u).get Fld.WCH_SW_STAT_DONE = 1 ∧ (cutSweep 0 1 u).get Fld.WCH_SW_STAT_END = 1
      ∧ (cutSweep 0 1 u).get (Fld.WCH_SWn_RES_PART.i (u.get Fld.WCH_SW_STAT_ENTRY)) = 1
      ∧ (cutSweep 0 1 u).get (Fld.WCH_SWn_RES_VALID.i (u.get Fld.WCH_SW_STAT_ENTRY)) = 1
      ∧ (cutSweep 0 1 u).edges = u.edges ++ [(5, 8, 0)] ∧ (cutSweep 0 1 u).wch = u.wch := by
  have running : u.flag Fld.WCH_SW_STAT_BUSY = true := by rw [State.flag, busy]; rfl
  have same (f : Field) : u.drawn.2.get f = u.get f := State.get_congr rfl f
  have entry := writeEntry_plain (Nat.le_refl 1) (if u.gathered u.now = 0 then none else some u.drawn.1) u.drawn.2
    (by rw [same, same, plain]) (by rw [same, norec])
  rw [same] at entry
  have cut : cutSweep 0 1 u = endSweep 1 (resultWritten 1 (u.get Fld.WCH_SW_STAT_ENTRY) (if u.gathered u.now = 0 then none else some u.drawn.1) u.drawn.2) := by
    rw [← entry, cutSweep, if_pos running, Nat.one_mul]
    dsimp only [Nat.add_zero]
  rw [cut]
  generalize (if u.gathered u.now = 0 then none else some u.drawn.1) = level
  obtain ⟨_, valid, partial_, _⟩ := endSweep_resultWritten (n := u.get Fld.WCH_SW_STAT_ENTRY) (Nat.le_refl 1) level u.drawn.2 1
  obtain ⟨stopped, done, code, _⟩ := endSweep_get 1 (resultWritten 1 (u.get Fld.WCH_SW_STAT_ENTRY) level u.drawn.2)
  obtain ⟨_, only⟩ := regsOnly_resultWritten (u.get Fld.WCH_SW_STAT_ENTRY) level (part := 1) u.drawn.2
  refine ⟨stopped, done, code, partial_, valid, ?_, ?_⟩
  all_goals
    rw [endSweep_frame, only]
    rfl

theorem sweepStop_gives {s : State} {r : Req} {v : Word} (taken : Takes s r Reg.WCH_SW_CFG) (free : s.locked Reg.WCH_SW_CFG = false)
    (busy : s.get Fld.WCH_SW_STAT_BUSY = 1) (norec : s.get Fld.WCH_CTRL_SWREC = 0)
    (plain : s.get (Fld.WCH_SWn_THR_EN.i (s.get Fld.WCH_SW_STAT_ENTRY)) = 0) (nogo : getBits Fld.WCH_SW_CFG_GO v = 0) :
    Gives (.sweepStop r v) s fun t => t.get Fld.WCH_SW_STAT_BUSY = 0 ∧ t.get Fld.WCH_SW_STAT_DONE = 1 ∧ t.get Fld.WCH_SW_STAT_END = 1
        ∧ t.get (Fld.WCH_SWn_RES_PART.i (s.get Fld.WCH_SW_STAT_ENTRY)) = 1 ∧ t.get (Fld.WCH_SWn_RES_VALID.i (s.get Fld.WCH_SW_STAT_ENTRY)) = 1
        ∧ t.edges = s.edges ++ [(5, 8, 0)] ∧ t.wch = s.wch := by
  obtain ⟨stop, same_go⟩ := getBits_stop_word v
  have ran : exec (.sweepStop r v) s = .next (cutSweep 0 1 (sweepStored r (v ||| 0x40000000#32) s)) := by
    refine congrArg Host.Outcome.next ((regCmd_ok taken).trans ?_)
    simp only [sweepWrite_ok, stop, same_go, nogo, Nat.zero_ne_one, decide_false, Bool.not_false, if_true]
  have entry : (sweepStored r (v ||| 0x40000000#32) s).get Fld.WCH_SW_STAT_ENTRY = s.get Fld.WCH_SW_STAT_ENTRY := sweepStored_get free (by decide)
  have thr : (sweepStored r (v ||| 0x40000000#32) s).get (Fld.WCH_SWn_THR_EN.i (s.get Fld.WCH_SW_STAT_ENTRY)) = _ :=
    sweepStored_get free (by simp [Field.i, Fld.WCH_SWn_THR_EN, Reg.WCH_SW_CFG]; omega)
  have stops := cutSweep_stops ((sweepStored_get free (by decide)).trans busy) ((sweepStored_get free (by decide)).trans norec) (by rw [entry, thr, plain])
  obtain ⟨_, only⟩ := regsOnly_sweepStored (r := r) (v := v ||| 0x40000000#32) free
  have edges : (sweepStored r (v ||| 0x40000000#32) s).edges = s.edges := by rw [only]; rfl
  have wch : (sweepStored r (v ||| 0x40000000#32) s).wch = s.wch := by rw [only]; rfl
  rw [entry, edges, wch] at stops
  exact Gives.of_eq ran stops

/-- Settles O60, command by command. -/
theorem watchSearch : Obligations.WatchSearch := by
  refine ⟨fun s n q rssi mer fm runs en afen idle => afQualityCheck_fm fm runs en afen idle, afCandidateResult, broadcastTimeItem, btUtcRead_gives,
    fun s r v taken free => ⟨fun on idle go nostop source band kind least most => sweepGo_starts taken free on idle go nostop source band kind least most,
      fun busy go nostop => sweepGo_refused taken free busy go nostop, fun busy norec plain nogo => sweepStop_gives taken free busy norec plain nogo⟩,
    fun s level t0 small busy norec once plain last => ?_⟩
  have running : s.flag Fld.WCH_SW_STAT_BUSY = true := by rw [State.flag, busy]; rfl
  refine ⟨fun full => ?_, fun some_ few => ?_⟩
  · have ran : exec (.sweepEntryEnd level t0) s = .next (completeEntry (0 * 2 ^ 29) (some level) (s.at t0)) :=
      congrArg Host.Outcome.next (if_pos (by rw [running, decide_eq_true full]; rfl))
    obtain ⟨lvl, valid, partial_, over_, stopped, done, code, edges, frame, _⟩ := sweepEntry_ends (t0 := t0) (Nat.zero_le 1) small last once plain norec
    exact Gives.of_eq ran ⟨lvl, valid, partial_, over_, stopped, done, code, edges, frame⟩
  · have ran : exec (.sweepEntryTimeout (some level)) s = .next (completeEntry (1 * 2 ^ 29) (some level) (s.at (s.wch.start + 10 * s.dwellOf))) := by
      refine congrArg Host.Outcome.next ((if_pos (by rw [running, decide_eq_true few]; rfl)).trans ?_)
      rw [if_neg (Nat.ne_of_gt some_), Nat.one_mul]
    obtain ⟨lvl, _, partial_, _, _, _, code, _, frame, count⟩ :=
      sweepEntry_ends (t0 := s.wch.start + 10 * s.dwellOf) (Nat.le_refl 1) small last once plain norec
    exact Gives.of_eq ran ⟨lvl, partial_, code, congrArg State.now frame, count rfl⟩

end Sys2Proof.Machine
end

section
/-!
PROOFS. Agate's commands and their ends (R462 to R468).
-/

namespace Sys2Proof.Machine

@[simp] theorem State.putBytes_now (s : State) (a : Nat) (l : List Nat) : (s.putBytes a l).now = s.now := by rw [State.putBytes]

@[simp] theorem State.setAgt_now (s : State) (x : Agt) : (s.setAgt x).now = s.now := by rw [State.setAgt]

theorem protectImage_now (h : Fin 9) (l : List Nat) (base : Nat) (s : State) : (protectImage h l base s).now = s.now := by
  rw [protectImage, State.setAgt_now, State.wr_now]

theorem spoil_now (a n : Nat) (s : State) : (spoil a n s).now = s.now := by
  rw [spoil, State.putBytes_now]
  rfl

/-! ### The result of an action, and device time through it -/

/-- An action's result is a code of four bits, and device time stands still through it. -/
def AgtActed (s : State) (x : State × Nat) : Prop := x.1.now = s.now ∧ x.2 < 16

section
variable {s : State}

theorem AgtActed.mk' {t : State} {k : Nat} (now : t.now = s.now) (code : k < 16) : AgtActed s (t, k) := ⟨now, code⟩

theorem AgtActed.same {k : Nat} (code : k < 16) : AgtActed s (s, k) := ⟨rfl, code⟩

theorem AgtActed.ite (c : Prop) [Decidable c] {x y : State × Nat} (yes : AgtActed s x) (no : AgtActed s y) : AgtActed s (if c then x else y) := by
  split
  · exact yes
  · exact no

theorem imgHeader_lt (l : List Nat) (h : Nat) : s.imgHeader l h < 16 := by
  unfold State.imgHeader
  dsimp only
  split_ifs <;> decide

theorem imgCheck_lt (l payload : List Nat) (type h : Nat) : (s.imgCheck l payload type h).1 < 16 := by
  unfold State.imgCheck
  split
  · decide
  · split
    next =>
      split
      · decide
      · split
        · exact (by decide : 0 < 16)
        · exact (by decide : 6 < 16)
    next n _ => exact imgHeader_lt l h

theorem fuseFailed_acted (c : AgtCmd) {t : State} (now : t.now = s.now) : AgtActed s (fuseFailed c t) := by
  refine .mk' ?_ (by decide)
  obtain ⟨_, _, _, _, _, _, _, _, _, _, _, _, _, _, only⟩ := t.raise_frame 0x470 0xFF c.op
  rw [only]
  exact now

end

theorem agtVerify_acted (c : AgtCmd) (s : State) : AgtActed s (agtVerify c s) := by
  unfold agtVerify
  dsimp only
  refine .ite _ (.same (by decide)) (.ite _ (.same (by decide)) (.ite _ (.same (by decide)) (.ite _ (.ite _ (.same (by decide)) (.ite _ ?_ ?_))
    (.ite _ (.same (by decide)) (.ite _ ?_ ?_)))))
  · exact .mk' ((protectImage_now ..).trans (State.putBytes_now ..)) (by decide)
  · exact .mk' (spoil_now ..) (imgCheck_lt ..)
  · exact .mk' (State.putBytes_now ..) (by decide)
  · exact .mk' (spoil_now ..) (imgCheck_lt ..)

theorem agtReturn_acted (c : AgtCmd) (s : State) : AgtActed s (agtReturn c s) := by
  unfold agtReturn
  dsimp only
  refine .ite _ (.same (by decide)) (.ite _ (.same (imgCheck_lt ..)) (.ite _ (.same (by decide)) (.mk' rfl (by decide))))

theorem agtBurnt_acted (c : AgtCmd) (n : Nat) {s t : State} (now : t.now = s.now) :
    AgtActed s (if n = 0 then fuseFailed c t else (t.setAgt { t.agt with steps := t.agt.steps + 1 }, 0)) :=
  .ite _ (fuseFailed_acted c now) (.mk' ((State.setAgt_now ..).trans now) (by decide))

theorem agtAdvance_acted (c : AgtCmd) (n : Nat) (s : State) : AgtActed s (agtAdvance c n s) := by
  unfold agtAdvance
  dsimp only
  refine .ite _ (.same (by decide)) ?_
  split
  · exact .ite _ (agtBurnt_acted c n rfl) (.same (by decide))
  · exact agtBurnt_acted c n rfl
  · exact .ite _ (agtBurnt_acted c n (agtReturn_acted c s).1) (agtReturn_acted c s)
  · exact .same (by decide)

theorem closeSession_now (s : State) : (closeSession s).now = s.now := by rw [closeSession, State.setAgt_now, State.wr_now]

theorem refuseRecord_now (s : State) : (refuseRecord s).now = s.now := by
  rw [refuseRecord]
  split
  · exact closeSession_now s
  · exact State.put_now ..

theorem sessOpen_acted (c : AgtCmd) (s : State) : AgtActed s (sessOpen c s) := by
  unfold sessOpen
  dsimp only
  refine .ite _ (.same (by decide)) (.ite _ (.same (by decide)) (.mk' ?_ (by decide)))
  rw [State.setAgt_now, State.wr_now, State.wr_now, State.putBytes_now]
  rfl

theorem sessRecv_acted (c : AgtCmd) (s : State) : AgtActed s (sessRecv c s) := by
  unfold sessRecv
  split
  · exact .same (by decide)
  · dsimp only
    split
    · exact .mk' (refuseRecord_now s) (by decide)
    · refine .ite _ (.ite _ (.mk' (closeSession_now s) (by decide)) (.mk' (refuseRecord_now s) (by decide)))
        (.ite _ (.ite _ (.mk' ?_ (by decide)) (.mk' (refuseRecord_now s) (by decide))) (.ite _ (.mk' ?_ (by decide)) (.mk' ?_ (by decide))))
      · rw [State.put_now, State.setAgt_now, State.put_now, State.wr_now, State.putBytes_now]
      · rw [State.setAgt_now, State.put_now, State.wr_now, State.putBytes_now]
      · rw [State.setAgt_now, State.put_now, State.wr_now]

theorem sessSend_acted (c : AgtCmd) (s : State) : AgtActed s (sessSend c s) := by
  unfold sessSend
  split
  · exact .same (by decide)
  · dsimp only
    refine .ite _ (.ite _ (.mk' ?_ (by decide)) (.same (by decide))) (.ite _ (.same (by decide)) (.mk' ?_ (by decide)))
    · rw [State.put_now, State.put_now]
    · rw [State.setAgt_now, State.wr_now, State.putBytes_now]

theorem agtAct_acted (c : AgtCmd) (n : Nat) (s : State) : AgtActed s (agtAct c n s) := by
  unfold agtAct
  dsimp only
  split
  case h_1 => exact agtVerify_acted c s
  case h_2 => exact .ite _ (.same (by decide)) (.ite _ (.mk' rfl (by decide)) (.same (by decide)))
  case h_3 => exact .ite _ (.mk' (State.put_now ..) (by decide)) (.same (by decide))
  case h_4 => exact .ite _ (.ite _ (fuseFailed_acted c (State.setAgt_now ..)) (.mk' (State.setAgt_now ..) (by decide))) (.same (by decide))
  case h_5 => exact .ite _ (.same (by decide)) (.ite _ (.same (by decide)) (.ite _ (fuseFailed_acted c rfl) (.mk' (State.setAgt_now ..) (by decide))))
  case h_6 =>
    exact .ite _ (.same (by decide)) (.ite _ (.same (by decide)) (.ite _ (.same (by decide)) (.ite _ (fuseFailed_acted c rfl)
      (.mk' (State.setAgt_now ..) (by decide)))))
  case h_7 => exact agtAdvance_acted c _ s
  case h_8 => exact .ite _ (.same (by decide)) (.ite _ (.same (by decide)) (.mk' ((State.putBytes_now ..).trans rfl) (by decide)))
  case h_9 => exact .ite _ (.same (by decide)) (.ite _ (.same (by decide)) (.mk' (State.putBytes_now ..) (by decide)))
  case h_10 =>
    exact .ite _ (.same (by decide)) (.ite _ (.same (by decide)) (.mk' ((State.wr_now ..).trans (State.putBytes_now ..)) (by decide)))
  case h_11 => exact .ite _ (.same (by decide)) (sessOpen_acted c s)
  case h_12 => exact .ite _ (.same (by decide)) (sessRecv_acted c s)
  case h_13 => exact .ite _ (.same (by decide)) (sessSend_acted c s)
  case h_14 => exact .ite _ (.mk' (closeSession_now s) (by decide)) (.same (by decide))
  case h_15 => exact .same (by decide)

end Sys2Proof.Machine
end

section
/-!
PROOFS. Agate: a command taken, a command's end, a session's end (R462 to R465, R468).
-/

namespace Sys2Proof.Machine

theorem State.rd_refuse4 (s : State) (r : Req) (a : Nat) {b : Nat} (quiet : raiseTouches b = false)
    (other : b ∉ [Reg.SYS_BADACC_CNT, Reg.SYS_BADACC_ADDR, Reg.SYS_BADACC_INFO]) : (s.refuse4 r a).rd b = s.rd b := by
  rw [State.refuse4, State.rd_ok, State.rd_badAccess s r a 2 true 4 quiet other]

/-! ### A command is taken or refused (R462) -/

/-- The table of AGT_CMD. -/
def agtCmdDesc : RegDesc := ⟨Reg.AGT_CMD, [], [Fld.AGT_CMD_GO, Fld.AGT_CMD_ARG, Fld.AGT_CMD_OP]⟩

theorem descOf_agtCmd : descOf Reg.AGT_CMD = some agtCmdDesc := by decide +kernel

/-- The word of a command: GO, the argument, the code. -/
def agtWord (op : Nat) (arg : BitVec 8) : Word := BitVec.ofNat 32 (2 ^ 31 + arg.toNat * 65536 + op)

theorem agtWord_fields {op : Nat} (small : op < 256) (arg : BitVec 8) : getBits Fld.AGT_CMD_GO (agtWord op arg) = 1
    ∧ getBits Fld.AGT_CMD_OP (agtWord op arg) = op ∧ getBits Fld.AGT_CMD_ARG (agtWord op arg) = arg.toNat ∧ (agtWord op arg).getLsbD 31 = true := by
  have byte := arg.isLt
  have go : getBits Fld.AGT_CMD_GO (agtWord op arg) = 1 := by
    simp only [getBits, Fld.AGT_CMD_GO, agtWord, BitVec.toNat_ofNat]
    omega
  refine ⟨go, ?_, ?_, ?_⟩
  · simp only [getBits, Fld.AGT_CMD_OP, agtWord, BitVec.toNat_ofNat]
    omega
  · simp only [getBits, Fld.AGT_CMD_ARG, agtWord, BitVec.toNat_ofNat]
    omega
  · rw [getBits_of_width_one rfl, Bool.toNat_eq_one] at go
    exact go

/-- The write that takes a command. -/
def agtTaken (op : Nat) (arg : BitVec 8) (s : State) : State :=
  let u := s.wr Reg.AGT_CMD (wordWrite false agtCmdDesc (agtWord op arg) (s.rd Reg.AGT_CMD))
  ((u.put Fld.AGT_STAT_BUSY 1).put Fld.AGT_STAT_OP op).setAgt
    { s.agt with cmd := some ⟨op, arg.toNat, s.get Fld.AGT_SRC_ADDR, s.get Fld.AGT_DST_ADDR, s.get Fld.AGT_LEN_LEN⟩ }

section
variable {op : Nat} (small : op < 256) (arg : BitVec 8) (s : State)

theorem agtTaken_regs : (agtTaken op arg s).regs = rfPut (rfPut (rfWrite s.regs Reg.AGT_CMD (wordWrite false agtCmdDesc (agtWord op arg) (s.rd Reg.AGT_CMD)))
    Fld.AGT_STAT_BUSY 1) Fld.AGT_STAT_OP op := by
  rw [agtTaken, State.setAgt]
  simp only [State.put_regs, State.wr_regs]

include small

theorem agtTaken_get : (agtTaken op arg s).get Fld.AGT_STAT_BUSY = 1 ∧ (agtTaken op arg s).get Fld.AGT_STAT_OP = op
    ∧ (agtTaken op arg s).get Fld.AGT_CMD_GO = 1 ∧ (agtTaken op arg s).get Fld.AGT_CMD_OP = op ∧ (agtTaken op arg s).get Fld.AGT_CMD_ARG = arg.toNat := by
  obtain ⟨go, code, argument, _⟩ := agtWord_fields small arg
  have word {f : Field} (at_ : f.reg = Reg.AGT_CMD) : (agtTaken op arg s).get f = getBits f (wordWrite false agtCmdDesc (agtWord op arg) (s.rd Reg.AGT_CMD)) := by
    have stat : f.reg ≠ Fld.AGT_STAT_BUSY.reg := by rw [at_]; decide
    rw [State.get, State.rd, agtTaken_regs, rfRead_rfPut_ne (f := Fld.AGT_STAT_OP) _ _ stat, rfRead_rfPut_ne _ _ stat, at_, rfRead_write_same]
  refine ⟨?_, ?_, ?_, ?_, ?_⟩
  · rw [State.get_eq_rfGet, agtTaken_regs, rfGet_rfPut_apart _ _ (by decide) (by decide), rfGet_rfPut_self _ _ (by decide)]
    rfl
  · rw [State.get_eq_rfGet, agtTaken_regs, rfGet_rfPut_self _ _ (by decide)]
    exact Nat.mod_eq_of_lt small
  · rw [word rfl, getBits_wordWrite_set (by decide) (by decide) go]
  · rw [word rfl, getBits_wordWrite_plain (by decide) (by decide), code]
  · rw [word rfl, getBits_wordWrite_plain (by decide) (by decide), argument]

end

theorem agtCmdWrite_taken {op : Nat} (small : op < 256) (arg : BitVec 8) (s : State) {r : Req} (reeve : r.id = 16) (machine : r.priv = 2)
    (idle : s.get Fld.AGT_STAT_BUSY = 0) : agtCmdWrite r (agtWord op arg) s = agtTaken op arg s := by
  obtain ⟨_, code, argument, go⟩ := agtWord_fields small arg
  have busy : s.flag Fld.AGT_STAT_BUSY = false := by
    rw [State.flag, idle]
    rfl
  have stored := State.storeReg_unguarded (s := s) descOf_agtCmd (by decide) r (agtWord op arg)
  have other {f : Field} (apart : f.reg ≠ Reg.AGT_CMD) (w : Word) : (s.wr Reg.AGT_CMD w).get f = s.get f := by
    rw [State.get, State.rd_wr_ne _ _ apart, ← State.get]
  rw [agtCmdWrite, agtWrite, if_pos ⟨reeve, machine⟩, if_neg (by rw [busy]; decide)]
  simp only [stored, go, code, argument, Bool.not_true, Bool.false_eq_true, if_false]
  rw [other (f := Fld.AGT_SRC_ADDR) (by decide), other (f := Fld.AGT_DST_ADDR) (by decide), other (f := Fld.AGT_LEN_LEN) (by decide), State.wr_agt, agtTaken]

section
variable {s : State} {r : Req} {op : Nat} (small : op < 256) {arg : BitVec 8} (taken : Takes s r Reg.AGT_CMD)
include taken

theorem agtCommand_refused (refused : r.id ≠ 16 ∨ r.priv ≠ 2 ∨ s.get Fld.AGT_STAT_BUSY = 1) :
    agtCommand r op arg s = .next (s.ok.refuse4 r Reg.AGT_CMD) := by
  refine congrArg Host.Outcome.next ((regCmd_ok taken).trans ?_)
  rw [agtCmdWrite, agtWrite]
  split
  next reeve =>
    have busy : s.ok.flag Fld.AGT_STAT_BUSY = true := by
      rw [State.flag, State.get_ok, (refused.resolve_left (not_not.2 reeve.1)).resolve_left (not_not.2 reeve.2)]
      rfl
    rw [if_pos busy]
  next => rfl

include small

theorem agtCommand_taken (reeve : r.id = 16) (machine : r.priv = 2) (idle : s.get Fld.AGT_STAT_BUSY = 0) :
    agtCommand r op arg s = .next (agtTaken op arg s.ok) :=
  congrArg Host.Outcome.next ((regCmd_ok taken).trans (agtCmdWrite_taken small arg s.ok reeve machine ((State.get_ok ..).trans idle)))

end

theorem agtTaken_frame (op : Nat) (arg : BitVec 8) (s : State) :
    agtTaken op arg s = { s with regs := (agtTaken op arg s).regs, agt := (agtTaken op arg s).agt } := by
  obtain ⟨_, only⟩ := (((RegsOnly.refl s).wr Reg.AGT_CMD (wordWrite false agtCmdDesc (agtWord op arg) (s.rd Reg.AGT_CMD))).put Fld.AGT_STAT_BUSY 1).put
    Fld.AGT_STAT_OP op
  rw [agtTaken, only]
  rfl

theorem sameRegs_agtTaken (op : Nat) (arg : BitVec 8) (s : State) : SameRegs [Reg.AGT_CMD, Reg.AGT_STAT] s (agtTaken op arg s) := by
  have puts := (((SameRegs.refl [Reg.AGT_CMD, Reg.AGT_STAT] s).wr (a := Reg.AGT_CMD) (by decide)
    (wordWrite false agtCmdDesc (agtWord op arg) (s.rd Reg.AGT_CMD))).put (f := Fld.AGT_STAT_BUSY) (by decide) 1).put (f := Fld.AGT_STAT_OP) (by decide) op
  exact puts.congr (by rw [agtTaken, State.setAgt])

/-- The commands of Agate and their codes (R462). -/
theorem exec_agate {r : Req} {x : BitVec 8} {c : Instr} {op : Nat} (listed : (c, op) ∈ [(Instr.agtVerify r x, 1), (.agtRelease r x, 2), (.agtAdvance r x, 3),
      (.agtBurn r x, 4), (.agtRevoke r x, 5), (.agtProgkey r x, 6), (.agtLcsadv r x, 7), (.agtAttest r x, 8), (.agtIdkey r x, 9), (.agtCert r x, 10),
      (.agtSopen r x, 11), (.agtSrecv r x, 12), (.agtSsend r x, 13), (.agtSclose r x, 14)]) (s : State) : exec c s = agtCommand r op x s ∧ op < 256 := by
  simp only [List.mem_cons, Prod.mk.injEq, List.not_mem_nil, or_false] at listed
  obtain ⟨rfl, rfl⟩ | ⟨rfl, rfl⟩ | ⟨rfl, rfl⟩ | ⟨rfl, rfl⟩ | ⟨rfl, rfl⟩ | ⟨rfl, rfl⟩ | ⟨rfl, rfl⟩ | ⟨rfl, rfl⟩ | ⟨rfl, rfl⟩ | ⟨rfl, rfl⟩ | ⟨rfl, rfl⟩
    | ⟨rfl, rfl⟩ | ⟨rfl, rfl⟩ | ⟨rfl, rfl⟩ := listed
  all_goals exact ⟨rfl, by decide⟩

/-! ### A command ends (R462) -/

/-- The end of a command whose action left `x`. -/
def agtEnded (x : State × Nat) : State :=
  ((((x.1.setAgt { x.1.agt with cmd := none }).put Fld.AGT_STAT_BUSY 0).put Fld.AGT_CMD_GO 0).put Fld.AGT_STAT_DONE 1).put Fld.AGT_STAT_RESULT x.2

theorem agtEnded_regs (x : State × Nat) : (agtEnded x).regs =
    rfPut (rfPut (rfPut (rfPut x.1.regs Fld.AGT_STAT_BUSY 0) Fld.AGT_CMD_GO 0) Fld.AGT_STAT_DONE 1) Fld.AGT_STAT_RESULT x.2 := by
  simp only [agtEnded, State.put_regs]
  rw [State.setAgt]

theorem agtEnded_frame (x : State × Nat) : agtEnded x = { x.1 with regs := (agtEnded x).regs, agt := { x.1.agt with cmd := none } } := by
  obtain ⟨_, only⟩ := ((((RegsOnly.refl (x.1.setAgt { x.1.agt with cmd := none })).put Fld.AGT_STAT_BUSY 0).put Fld.AGT_CMD_GO 0).put
    Fld.AGT_STAT_DONE 1).put Fld.AGT_STAT_RESULT x.2
  rw [agtEnded, only]
  rfl

theorem sameRegs_agtEnded (x : State × Nat) : SameRegs [Reg.AGT_CMD, Reg.AGT_STAT] x.1 (agtEnded x) := by
  have puts := ((((SameRegs.refl [Reg.AGT_CMD, Reg.AGT_STAT] x.1).put (f := Fld.AGT_STAT_BUSY) (by decide) 0).put (f := Fld.AGT_CMD_GO) (by decide) 0).put
    (f := Fld.AGT_STAT_DONE) (by decide) 1).put (f := Fld.AGT_STAT_RESULT) (by decide) x.2
  exact puts.congr (by rw [agtEnded_regs]; simp only [State.put_regs])

theorem agtEnded_get (x : State × Nat) : (agtEnded x).get Fld.AGT_STAT_BUSY = 0 ∧ (agtEnded x).get Fld.AGT_STAT_DONE = 1
    ∧ (agtEnded x).get Fld.AGT_CMD_GO = 0 ∧ (agtEnded x).get Fld.AGT_STAT_RESULT = x.2 % 16 := by
  simp only [State.get_eq_rfGet, agtEnded_regs]
  simp (disch := decide) only [rfGet_rfPut_apart, rfGet_rfPut_self]
  exact ⟨rfl, rfl, rfl, rfl⟩

theorem agtEnded_result (x : State × Nat) : (agtEnded x).get Fld.AGT_STAT_RESULT = x.2 % 16 := by
  obtain ⟨_, _, _, result⟩ := agtEnded_get x
  exact result

theorem exec_agateCommandEnd {s : State} {c : AgtCmd} {n t0 : Nat} (cmd : s.agt.cmd = some c) (runs : s.agtStalled c = false) :
    exec (.agateCommandEnd n t0) s = .next (agtEnded (agtAct c n (s.at t0))) := by
  show execAgateCommandEnd n t0 s = _
  simp only [execAgateCommandEnd, cmd, runs, Bool.false_eq_true, if_false]
  rfl

/-- Only a VERIFY of a hamlet's image waits for the arbiter (R292). -/
theorem agtStalled_of_other {c : AgtCmd} (other : c.op ≠ 1) (s : State) : s.agtStalled c = false := by
  rw [State.agtStalled, beq_eq_false_iff_ne.2 other, Bool.false_and, Bool.false_and, Bool.false_and]

section
variable {s : State} {c : AgtCmd} (cmd : s.agt.cmd = some c) (n t0 : Nat)

/-- RELEASE of a halted hamlet's image (R462). -/
theorem agtAct_release {h : Fin 8} (op : c.op = 2) (arg : c.arg = h.val) (halted : s.engHalted h = true) :
    agtAct c n s = (unprotect ⟨h.val, by omega⟩ s, 0) := by
  have same : Fin.ofNat 8 c.arg = h := by
    rw [arg]
    exact Fin.ext (Nat.mod_eq_of_lt h.isLt)
  unfold agtAct
  simp only [op, same, halted, if_true]
  rw [if_neg (by omega)]

include cmd

theorem agateRelease {h : Fin 8} (op : c.op = 2) (arg : c.arg = h.val) (halted : s.engHalted h = true) :
    Gives (.agateCommandEnd n t0) s fun t => t.get Fld.AGT_STAT_RESULT = 0 ∧ t.agt.prot[h.val] = none ∧ t.rd (Reg.AGT_HIMGh + 4 * h) = 0#32
      ∧ t = { s with now := max s.now t0, regs := t.regs, agt := t.agt } ∧ SameRegs [Reg.AGT_HIMGh + 4 * h, Reg.AGT_CMD, Reg.AGT_STAT] s t := by
  have ran := exec_agateCommandEnd (n := n) (t0 := t0) cmd (agtStalled_of_other (by rw [op]; decide) s)
  rw [agtAct_release n op arg (s := s.at t0) halted] at ran
  generalize hx : (unprotect ⟨h.val, by omega⟩ (s.at t0), 0) = x at ran
  have wrote : RegsOnly (s.at t0) ((s.at t0).wr (Reg.AGT_HIMGh + 4 * h.val) 0#32) := (RegsOnly.refl _).wr _ _
  have released : x.1 = { (s.at t0).wr (Reg.AGT_HIMGh + 4 * h.val) 0#32 with agt := { s.agt with prot := s.agt.prot.set h.val none } } := by
    rw [← hx]
    rfl
  obtain ⟨_, _, _, result⟩ := agtEnded_get x
  have kept := sameRegs_agtEnded x
  refine Gives.of_eq ran ⟨?_, ?_, ?_, ?_, ?_⟩
  · rw [result, ← hx]
    rfl
  · rw [agtEnded_frame, released]
    exact Vector.getElem_set_self _
  · have apart : Reg.AGT_HIMGh + 4 * h.val ∉ [Reg.AGT_CMD, Reg.AGT_STAT] := by simp [Reg.AGT_HIMGh, Reg.AGT_CMD, Reg.AGT_STAT]; omega
    rw [kept _ apart, released]
    exact (State.rd_congr (s := (s.at t0).wr (Reg.AGT_HIMGh + 4 * h.val) 0#32) rfl _).trans (State.rd_wr_same _ _ _)
  · obtain ⟨_, wrote⟩ := wrote
    rw [agtEnded_frame, released, wrote]
    rfl
  · refine SameRegs.trans ?_ (kept.mono fun a listed => List.mem_cons_of_mem _ listed)
    rw [released]
    exact ((SameRegs.at _ s t0).wr (List.mem_cons_self ..) 0#32).congr rfl

/-- ADVANCE raises the Hearth counter, or is refused (R464). -/
theorem agateAdvance (op : c.op = 3) :
    (s.get Fld.AGT_ARB_HEARTH < c.arg → c.arg ≤ 64 → Gives (.agateCommandEnd n t0) s fun t => t.get Fld.AGT_STAT_RESULT = 0 ∧ t.get Fld.AGT_ARB_HEARTH = c.arg
      ∧ t = { s with now := max s.now t0, regs := t.regs, agt := { s.agt with cmd := none } })
    ∧ (c.arg ≤ s.get Fld.AGT_ARB_HEARTH ∨ 64 < c.arg → Gives (.agateCommandEnd n t0) s fun t => t.get Fld.AGT_STAT_RESULT = 8
      ∧ t.get Fld.AGT_ARB_HEARTH = s.get Fld.AGT_ARB_HEARTH ∧ t = { s with now := max s.now t0, regs := t.regs, agt := { s.agt with cmd := none } }) := by
  have ran := exec_agateCommandEnd (n := n) (t0 := t0) cmd (agtStalled_of_other (by rw [op]; decide) s)
  have act : agtAct c n (s.at t0) = if s.get Fld.AGT_ARB_HEARTH < c.arg ∧ c.arg ≤ 64 then ((s.at t0).put Fld.AGT_ARB_HEARTH c.arg, 0) else (s.at t0, 8) := by
    unfold agtAct
    simp only [op]
    rw [State.get_congr (t := s.at t0) (s := s) rfl]
  rw [act] at ran
  have hearth (x : State × Nat) : (agtEnded x).get Fld.AGT_ARB_HEARTH = x.1.get Fld.AGT_ARB_HEARTH := (sameRegs_agtEnded x).get (by decide)
  refine ⟨fun above most => ?_, fun refused => ?_⟩
  · rw [if_pos ⟨above, most⟩] at ran
    refine Gives.of_eq ran ⟨agtEnded_result _, ?_, ?_⟩
    · rw [hearth, State.get_eq_rfGet, State.put_regs, rfGet_rfPut_self _ _ (by decide)]
      exact Nat.mod_eq_of_lt (show c.arg < 2 ^ 7 by omega)
    · obtain ⟨_, wrote⟩ := (RegsOnly.refl (s.at t0)).put Fld.AGT_ARB_HEARTH c.arg
      rw [agtEnded_frame, wrote]
      rfl
  · rw [if_neg (by omega)] at ran
    refine Gives.of_eq ran ⟨agtEnded_result _, (hearth _).trans (State.get_congr rfl _), ?_⟩
    rw [agtEnded_frame]
    rfl

/-- REVOKE needs another key that is left (R462). -/
theorem agateRevoke_last (op : c.op = 5) (arg : c.arg < 4) (last : ∀ k < 4, k ≠ c.arg → s.slotProg k = true → s.slotRevoked k = true) :
    Gives (.agateCommandEnd n t0) s fun t => t.get Fld.AGT_STAT_RESULT = 8 ∧ t.agt.revoked = s.agt.revoked := by
  have ran := exec_agateCommandEnd (n := n) (t0 := t0) cmd (agtStalled_of_other (by rw [op]; decide) s)
  have none_left : ((List.range 4).any fun k => k != c.arg && (s.at t0).slotProg k && !(s.at t0).slotRevoked k) = false := by
    refine List.any_eq_false.2 fun k listed => ?_
    by_cases own : k = c.arg
    · simp [own]
    by_cases prog : s.slotProg k = true
    · have revoked : (s.at t0).slotRevoked k = true := last k (List.mem_range.1 listed) own prog
      simp [revoked]
    · have empty : (s.at t0).slotProg k = false := (Bool.not_eq_true _).mp prog
      simp [empty]
  have act : agtAct c n (s.at t0) = (s.at t0, 8) := by
    unfold agtAct
    simp only [op]
    rw [if_neg (by omega), if_pos (by rw [none_left]; rfl)]
  rw [act] at ran
  refine Gives.of_eq ran ⟨agtEnded_result _, ?_⟩
  rw [agtEnded_frame]
  rfl

end

/-- A session ends 60 s after its last accepted record (R468). -/
theorem sessionTimeout_gives (s : State) (x : Sess) (sess : s.agt.sess = some x) : Gives .sessionTimeout s fun t => t.agt.sess = none
    ∧ t.rd Reg.AGT_SESS = 0#32 ∧ t = { s with now := max s.now (x.at0 + 60 * secU), regs := t.regs, agt := { s.agt with sess := none } }
    ∧ SameRegs [Reg.AGT_SESS] s t := by
  have ran : exec .sessionTimeout s = .next (closeSession (s.at (x.at0 + 60 * secU))) := by
    show execSessionTimeout s = _
    rw [execSessionTimeout, sess]
  have regs (u : State) : (closeSession u).regs = (u.wr Reg.AGT_SESS 0#32).regs := by rw [closeSession, State.setAgt]
  refine Gives.of_eq ran ⟨?_, ?_, ?_, ?_⟩
  · rw [closeSession, State.setAgt]
  · rw [State.rd_congr (regs _), State.rd_wr_same]
  · obtain ⟨_, wrote⟩ := (RegsOnly.refl (s.at (x.at0 + 60 * secU))).wr Reg.AGT_SESS 0#32
    rw [closeSession, wrote]
    rfl
  · exact ((SameRegs.at _ s _).wr (List.mem_singleton_self _) 0#32).congr (regs _)

/-- Settles O49, from the rules of a command taken and of a command's end. -/
theorem agateServices : Obligations.AgateServices := by
  refine ⟨fun s r x c op taken listed => ⟨fun reeve machine idle => ?_, fun refused => ?_⟩, fun s c n t0 cmd runs => ?_,
    fun s c n t0 h cmd op arg halted => agateRelease cmd n t0 op arg halted, fun s c n t0 cmd op => agateAdvance cmd n t0 op,
    fun s c n t0 cmd op arg last => agateRevoke_last cmd n t0 op arg last, sessionTimeout_gives⟩
  · obtain ⟨ran, small⟩ := exec_agate listed s
    rw [agtCommand_taken small taken reeve machine idle] at ran
    obtain ⟨busy, opShown, go, code, argument⟩ := agtTaken_get small x s.ok
    have frame := agtTaken_frame op x s.ok
    refine Gives.of_eq ran ⟨busy, opShown, go, code, argument, ?_, frame, (SameRegs.ok _ s).trans (sameRegs_agtTaken op x s.ok)⟩
    rw [agtTaken, State.setAgt]
    rfl
  · obtain ⟨ran, small⟩ := exec_agate listed s
    rw [agtCommand_refused taken refused] at ran
    obtain ⟨_, ⟨_, _, _, _, _, notice⟩, eq⟩ := noticeOnly_refuse4 s.ok r Reg.AGT_CMD
    refine Gives.of_eq ran ⟨?_, State.rd_refuse4 _ r _ (by decide) (by decide), State.rd_refuse4 _ r _ (by decide) (by decide), ?_, ?_⟩
    · rw [eq, notice]
      rfl
    · rw [eq, notice]
      rfl
    · exact State.get_refuse4_count s.ok r Reg.AGT_CMD
  · obtain ⟨busy, done, go, result⟩ := agtEnded_get (agtAct c n (s.at t0))
    obtain ⟨now, code⟩ := agtAct_acted c n (s.at t0)
    refine Gives.of_eq (exec_agateCommandEnd cmd runs) ⟨busy, done, go, ?_, result.trans (Nat.mod_eq_of_lt code), ?_⟩
    · rw [agtEnded_frame]
    · rw [agtEnded_frame]
      exact now

end Sys2Proof.Machine
end

section
/-!
PROOFS. An event indication while flow 2 still has a message to take (R187, R475).
-/

namespace Sys2Proof.Machine

/-! Each evaluation of a concrete state waits for the kernel: one at a time, as in the tests. -/
set_option Elab.async false

/-- The link is UP; an indication waits, and so does an earlier message of flow 2 that its credits did not take. -/
def indicationBehindMessage : State :=
  let s := State.reset.put Fld.LNK_STAT_STATE 2
  { s with port := { s.port with waiting := [⟨2, [0]⟩] }, flt := { s.flt with waiting := [⟨true, 0, 0, 0, 0⟩] } }

/-- The indication keeps waiting: an indication is staged only where flow 2 has no message that waits. -/
theorem indicationBehindMessage_waits (t : State) (ran : exec .eventIndicationFlush indicationBehindMessage = .next t) : t.flt.waiting.length = 1 := by
  rw [← Host.Outcome.next.inj ran]
  decide +kernel

/-- Refutes O47: its flush clause sends the waiting indication whenever the link is UP, and the indication waits on behind a message of flow 2. -/
theorem not_faultManager : ¬ Obligations.FaultManager := by
  rintro ⟨_, flush⟩
  obtain ⟨up, _⟩ := flush indicationBehindMessage ⟨true, 0, 0, 0, 0⟩ rfl
  have ran := up (by decide +kernel)
  exact absurd (indicationBehindMessage_waits _ ran) (by decide +kernel)

end Sys2Proof.Machine
end

section
/-!
PROOFS. Register operations as record updates: a command's next state in the form `{ s with regs := …, … }`, from which its frame is read off.
-/

namespace Sys2Proof.Machine

theorem State.wr_eq (s : State) (a : Nat) (v : Word) : s.wr a v = { s with regs := rfWrite s.regs a v } := by rw [State.wr]

theorem State.put_eq (s : State) (f : Field) (v : Nat) : s.put f v = { s with regs := rfPut s.regs f v } := by
  rw [State.put, State.wr_eq, State.rd, rfPut]

theorem State.add_eq (s : State) (f : Field) (n : Nat) : s.add f n = { s with regs := rfPut s.regs f (min (rfGet s.regs f + n) (2 ^ f.width - 1)) } := by
  rw [State.add, State.put_eq, State.get_eq_rfGet]

theorem State.inc_eq (s : State) (f : Field) : s.inc f = { s with regs := rfPut s.regs f (min (rfGet s.regs f + 1) (2 ^ f.width - 1)) } := by
  rw [State.inc, State.add_eq]

/-- Register files that agree outside the registers of a list. -/
def RfSame (l : List Nat) (r u : RegFile) : Prop := ∀ a, a ∉ l → rfRead u a = rfRead r a

section
variable {l : List Nat} {r u : RegFile}

@[simp] theorem RfSame.refl (l : List Nat) (r : RegFile) : RfSame l r r := fun _ _ => rfl

theorem RfSame.write {a : Nat} (same : RfSame l r u) (listed : a ∈ l) (v : Word) : RfSame l r (rfWrite u a v) :=
  fun b other => (rfRead_write_ne _ _ fun (e : b = a) => other (e ▸ listed)).trans (same b other)

theorem RfSame.put {f : Field} (same : RfSame l r u) (listed : f.reg ∈ l) (v : Nat) : RfSame l r (rfPut u f v) := same.write listed _

/-- Two states whose register files agree outside a list. -/
theorem RfSame.sameRegs {s t : State} (same : RfSame l s.regs t.regs) : SameRegs l s t := same

end

end Sys2Proof.Machine
end

section
/-!
PROOFS. The Stile radio: what its operations leave (R437 to R444).
-/

namespace Sys2Proof.Machine

/-- STL_STAT once the radio has gone down to state `n`. -/
def stlDownRegs (n : Nat) (r : RegFile) : RegFile :=
  rfPut (rfPut (rfPut (rfPut (rfPut r Fld.STL_STAT_STATE n) Fld.STL_STAT_LATCHED 0) Fld.STL_STAT_SYNCD 0) Fld.STL_STAT_EXCH 0) Fld.STL_STAT_FOFF 0

theorem stlDown_eq (n : Nat) (s : State) : stlDown n s =
    { s with regs := stlDownRegs n s.regs, stl := { s.stl with goal := n, entered := none, lock := false, late := false } } := by
  simp -implicitDefEqProofs only [stlDown, endExchange, stlState, State.setStl, State.put_eq, stlDownRegs]

theorem enterSynth_eq (s : State) : enterSynth s = { s with
    regs := rfPut (rfPut s.regs Fld.STL_STAT_STATE 2) Fld.STL_FREQ_PEND 0
    stl := { s.stl with entered := some s.now, lock := false, freq := s.get Fld.STL_FREQ_FREQ, cfg := s.rd Reg.STL_CFG } } := by
  simp -implicitDefEqProofs (disch := decide) only [enterSynth, stlState, State.setStl, State.put_eq, State.get_eq_rfGet, State.rd_eq_rfRead,
    rfGet_rfPut_apart, rfRead_rfPut_ne]

theorem enterRx_eq (s : State) : enterRx s =
    { s with regs := rfPut s.regs Fld.STL_STAT_STATE 3, stl := { s.stl with rxAt := s.now, late := false, goal := 3 } } := by
  simp -implicitDefEqProofs only [enterRx, stlState, State.setStl, State.put_eq]

theorem fromSynth_eq (goal : Nat) (s : State) : fromSynth goal s =
    { s with regs := rfPut (rfPut s.regs Fld.STL_STAT_STATE 2) Fld.STL_STAT_SYNCD 0, stl := { s.stl with goal := goal } } := by
  simp -implicitDefEqProofs only [fromSynth, stlState, State.setStl, State.put_eq]

theorem startTx_eq (s : State) : startTx s = { s with
    regs := rfPut (rfPut s.regs Fld.STL_STAT_STATE 4) Fld.STL_STAT_LATCHED 0
    stl := { s.stl with goal := 4, packet := (startTx s).stl.packet } } := by
  simp -implicitDefEqProofs only [startTx, stlState, State.setStl, State.put_eq]

theorem stlRes_eq (n : Nat) (s : State) : stlRes n s = { s with regs := rfPut s.regs Fld.STL_STAT_LASTRES n } := by
  rw [stlRes, State.put_eq]

/-- A refusal: LASTRES and the count of refused commands. -/
def stlRefuseRegs (n : Nat) (r : RegFile) : RegFile :=
  rfPut (rfPut r Fld.STL_STAT_LASTRES n) (Fld.STL_CNTn_COUNT.i 5) (min (rfGet r (Fld.STL_CNTn_COUNT.i 5) + 1) (2 ^ 32 - 1))

theorem stlRefuse_eq (n : Nat) (s : State) : stlRefuse n s = { s with regs := stlRefuseRegs n s.regs } := by
  simp -implicitDefEqProofs (disch := decide) only [stlRefuse, stlRes_eq, State.inc_eq, rfGet_rfPut_apart, stlRefuseRegs]
  rfl

section
variable (l : RegFile) (n : Nat)

theorem stlDownRegs_get : rfGet (stlDownRegs n l) Fld.STL_STAT_STATE = n % 8 ∧ rfGet (stlDownRegs n l) Fld.STL_STAT_LATCHED = 0
    ∧ rfGet (stlDownRegs n l) Fld.STL_STAT_SYNCD = 0 ∧ rfGet (stlDownRegs n l) Fld.STL_STAT_EXCH = 0 ∧ rfGet (stlDownRegs n l) Fld.STL_STAT_FOFF = 0 := by
  simp (disch := decide) only [stlDownRegs, rfGet_rfPut_self, rfGet_rfPut_apart]
  exact ⟨rfl, rfl, rfl, rfl, rfl⟩

theorem rfSame_stlDownRegs : RfSame [Reg.STL_STAT] l (stlDownRegs n l) :=
  (((((RfSame.refl _ l).put (by decide) n).put (by decide) 0).put (by decide) 0).put (by decide) 0).put (by decide) 0

theorem stlRefuseRegs_get : rfGet (stlRefuseRegs n l) Fld.STL_STAT_LASTRES = n % 16
    ∧ rfGet (stlRefuseRegs n l) Fld.STL_STAT_STATE = rfGet l Fld.STL_STAT_STATE
    ∧ rfGet (stlRefuseRegs n l) (Fld.STL_CNTn_COUNT.i 5) = min (rfGet l (Fld.STL_CNTn_COUNT.i 5) + 1) (2 ^ 32 - 1) := by
  simp (disch := decide) only [stlRefuseRegs, rfGet_rfPut_self, rfGet_rfPut_apart]
  refine ⟨rfl, trivial, Nat.mod_eq_of_lt ?_⟩
  show min _ (2 ^ 32 - 1) < 2 ^ 32
  omega

theorem rfSame_stlRefuseRegs : RfSame [Reg.STL_STAT, (Fld.STL_CNTn_COUNT.i 5).reg] l (stlRefuseRegs n l) :=
  ((RfSame.refl _ l).put (by decide) n).put (by decide) _

end

end Sys2Proof.Machine
end

section
/-!
PROOFS. Stile's commands (R437, R438).
-/

namespace Sys2Proof.Machine

/-- Whether a command cuts a transmission short. -/
def State.stlCut (s : State) : Bool := s.flag Fld.STL_STAT_LATCHED || s.stlSending

section
variable {s : State}

theorem State.flag_of_get_one {f : Field} (one : s.get f = 1) : s.flag f = true := by
  rw [State.flag, one]
  rfl

theorem State.flag_of_get_zero {f : Field} (zero : s.get f = 0) : s.flag f = false := by
  rw [State.flag, zero]
  rfl

theorem stlCommand_ok {r : Req} (taken : Takes s r Reg.STL_CMD) (n : Nat) :
    stlCommand r n s = .next (stlCmdWrite (BitVec.ofNat 32 n) s.ok) := congrArg Host.Outcome.next (regCmd_ok taken)

theorem stlCmdWrite_answering (answer : s.bel.answer ≠ none) (v : Word) : stlCmdWrite v s = stlRefuse 6 s := by
  rw [stlCmdWrite, if_pos (Option.isSome_iff_ne_none.2 answer)]

variable (free : s.bel.answer = none)
include free

theorem stlCmdWrite_sleep : stlCmdWrite (BitVec.ofNat 32 1) s = stlRes (if s.stlCut then 5 else 0) (stlDown 0 s) := by
  have code : getBits Fld.STL_CMD_CMD (BitVec.ofNat 32 1) = 1 := by decide
  simp only [stlCmdWrite, free, code, State.stlCut, Option.isSome_none, Bool.false_eq_true, if_false, if_true, Nat.sub_self]
  rfl

theorem stlCmdWrite_standby (up : s.get Fld.STL_STAT_STATE ≠ 0) (settled : s.get Fld.STL_STAT_STATE ≠ 5) :
    stlCmdWrite (BitVec.ofNat 32 2) s = stlRes (if s.stlCut then 5 else 0) (stlDown 1 s) := by
  have code : getBits Fld.STL_CMD_CMD (BitVec.ofNat 32 2) = 2 := by decide
  have runs : ¬ (s.get Fld.STL_STAT_STATE = 0 ∨ s.get Fld.STL_STAT_STATE = 5) := by omega
  simp only [stlCmdWrite, free, code, State.stlCut, runs, Option.isSome_none, Bool.false_eq_true, if_false]
  rfl

theorem stlCmdWrite_wake (asleep : s.get Fld.STL_STAT_STATE = 0) (unlatched : s.get Fld.STL_STAT_LATCHED = 0) :
    stlCmdWrite (BitVec.ofNat 32 2) s = stlRes 0 (((stlState 5 s).put Fld.STL_STAT_LATCHED 0).setStl { s.stl with goal := 1 }) := by
  have code : getBits Fld.STL_CMD_CMD (BitVec.ofNat 32 2) = 2 := by decide
  have sending : s.stlSending = false := by
    simp [State.stlSending, asleep]
  simp only [stlCmdWrite, free, code, asleep, State.flag_of_get_zero unlatched, sending, Option.isSome_none, Bool.false_eq_true, if_false, Bool.or_false,
    true_or, if_true]
  rfl

theorem stlCmdWrite_synth : stlCmdWrite (BitVec.ofNat 32 3) s = stlRes 0 (stlMove 2 s) := by
  have code : getBits Fld.STL_CMD_CMD (BitVec.ofNat 32 3) = 3 := by decide
  simp only [stlCmdWrite, free, code, Option.isSome_none, Bool.false_eq_true, if_false]

theorem stlCmdWrite_rx : stlCmdWrite (BitVec.ofNat 32 4) s = if s.flag Fld.STL_STAT_LATCHED then stlRefuse 1 s else stlRes 0 (stlMove 3 s) := by
  have code : getBits Fld.STL_CMD_CMD (BitVec.ofNat 32 4) = 4 := by decide
  simp only [stlCmdWrite, free, code, Option.isSome_none, Bool.false_eq_true, if_false]

theorem stlCmdWrite_tx : stlCmdWrite (BitVec.ofNat 32 5) s =
    if s.stlCut then stlRefuse 1 s else if s.flag Fld.STL_STAT_SYNCD then stlRefuse 3 s else stlRes 0 (stlMove 4 s) := by
  have code : getBits Fld.STL_CMD_CMD (BitVec.ofNat 32 5) = 5 := by decide
  simp only [stlCmdWrite, free, code, State.stlCut, Option.isSome_none, Bool.false_eq_true, if_false]
  rfl

end

/-- From Standby the radio enters Synth with its new goal. -/
theorem stlMove_standby {s : State} (goal : Nat) (standby : s.get Fld.STL_STAT_STATE = 1) : stlMove goal s =
    if goal = 4 then (enterSynth (s.setStl { s.stl with goal := goal })).put Fld.STL_STAT_LATCHED 1 else enterSynth (s.setStl { s.stl with goal := goal }) := by
  simp only [stlMove, standby]

/-- From a locked Synth that does not transmit the goal changes alone. -/
theorem stlMove_locked {s : State} (goal : Nat) (synth : s.get Fld.STL_STAT_STATE = 2) (unlatched : s.get Fld.STL_STAT_LATCHED = 0)
    (lock : s.stl.lock = true) (quiet : s.stl.goal ≠ 4) : stlMove goal s = s.setStl { s.stl with goal := goal } := by
  simp only [stlMove, synth, State.flag_of_get_zero unlatched, lock, quiet, Bool.false_eq_true, if_false, if_true]

/-- LASTRES and the state of the radio once a command has been refused. -/
theorem stlRefuse_refused {s : State} {n : Nat} (small : n < 16) : (stlRefuse n s.ok).get Fld.STL_STAT_LASTRES = n
    ∧ (stlRefuse n s.ok).get Fld.STL_STAT_STATE = s.get Fld.STL_STAT_STATE
    ∧ (stlRefuse n s.ok).get (Fld.STL_CNTn_COUNT.i 5) = min (s.get (Fld.STL_CNTn_COUNT.i 5) + 1) (2 ^ 32 - 1)
    ∧ stlRefuse n s.ok = { s with resp := { err := false, data := 0 }, regs := (stlRefuse n s.ok).regs }
    ∧ SameRegs [Reg.STL_STAT, (Fld.STL_CNTn_COUNT.i 5).reg] s (stlRefuse n s.ok) := by
  obtain ⟨res, state, count⟩ := stlRefuseRegs_get s.regs n
  rw [stlRefuse_eq, State.ok]
  simp only [State.get_eq_rfGet]
  exact ⟨res.trans (Nat.mod_eq_of_lt small), state, count, trivial, (rfSame_stlRefuseRegs s.regs n).sameRegs⟩

section
variable {s : State} (l : RegFile) (n k : Nat)

/-- STL_STAT once the radio has gone down with a result. -/
theorem stlDownRes_get : rfGet (rfPut (stlDownRegs n l) Fld.STL_STAT_LASTRES k) Fld.STL_STAT_STATE = n % 8
    ∧ rfGet (rfPut (stlDownRegs n l) Fld.STL_STAT_LASTRES k) Fld.STL_STAT_LATCHED = 0
    ∧ rfGet (rfPut (stlDownRegs n l) Fld.STL_STAT_LASTRES k) Fld.STL_STAT_SYNCD = 0
    ∧ rfGet (rfPut (stlDownRegs n l) Fld.STL_STAT_LASTRES k) Fld.STL_STAT_EXCH = 0
    ∧ rfGet (rfPut (stlDownRegs n l) Fld.STL_STAT_LASTRES k) Fld.STL_STAT_FOFF = 0
    ∧ rfGet (rfPut (stlDownRegs n l) Fld.STL_STAT_LASTRES k) Fld.STL_STAT_LASTRES = k % 16 := by
  obtain ⟨state, latched, syncd, exch, foff⟩ := stlDownRegs_get l n
  simp (disch := decide) only [rfGet_rfPut_self, rfGet_rfPut_apart, state, latched, syncd, exch, foff]
  exact ⟨trivial, trivial, trivial, trivial, trivial, rfl⟩

end

theorem stlCut_result (s : State) : (if s.ok.stlCut then 5 else 0) % 16 = if s.get Fld.STL_STAT_LATCHED = 1 ∨ s.stlSending = true then 5 else 0 := by
  have same : s.ok.stlCut = true ↔ s.get Fld.STL_STAT_LATCHED = 1 ∨ s.stlSending = true := by
    have bit : s.get Fld.STL_STAT_LATCHED < 2 ^ Fld.STL_STAT_LATCHED.width := State.get_lt ..
    have flag : s.flag Fld.STL_STAT_LATCHED = true ↔ s.get Fld.STL_STAT_LATCHED = 1 := by
      simp only [State.flag, bne_iff_ne]
      exact ⟨fun h => by change _ < 2 at bit; omega, fun h => by omega⟩
    rw [← flag, ← Bool.or_eq_true]
    exact Iff.rfl
  simp only [same]
  split <;> rfl

section
variable {s : State} {r : Req} (taken : Takes s r Reg.STL_CMD) (free : s.bel.answer = none)
include taken free

theorem exec_stileSleep : exec (.stileSleep r) s = .next { s with
    resp := { err := false, data := 0 }
    regs := rfPut (stlDownRegs 0 s.regs) Fld.STL_STAT_LASTRES (if s.ok.stlCut then 5 else 0)
    stl := { s.stl with goal := 0, entered := none, lock := false, late := false } } := by
  show stlCommand r 1 s = _
  rw [stlCommand_ok taken, stlCmdWrite_sleep (s := s.ok) free, stlRes_eq, stlDown_eq]
  generalize (if s.ok.stlCut then 5 else 0) = k
  simp -implicitDefEqProofs only [State.ok]

theorem exec_stileStandby_down (up : s.get Fld.STL_STAT_STATE ≠ 0) (settled : s.get Fld.STL_STAT_STATE ≠ 5) : exec (.stileStandby r) s = .next { s with
    resp := { err := false, data := 0 }
    regs := rfPut (stlDownRegs 1 s.regs) Fld.STL_STAT_LASTRES (if s.ok.stlCut then 5 else 0)
    stl := { s.stl with goal := 1, entered := none, lock := false, late := false } } := by
  show stlCommand r 2 s = _
  rw [stlCommand_ok taken, stlCmdWrite_standby (s := s.ok) free up settled, stlRes_eq, stlDown_eq]
  generalize (if s.ok.stlCut then 5 else 0) = k
  simp -implicitDefEqProofs only [State.ok]

theorem exec_stileStandby_wake (asleep : s.get Fld.STL_STAT_STATE = 0) (unlatched : s.get Fld.STL_STAT_LATCHED = 0) : exec (.stileStandby r) s = .next { s with
    resp := { err := false, data := 0 }
    regs := rfPut (rfPut (rfPut s.regs Fld.STL_STAT_STATE 5) Fld.STL_STAT_LATCHED 0) Fld.STL_STAT_LASTRES 0
    stl := { s.stl with goal := 1 } } := by
  show stlCommand r 2 s = _
  rw [stlCommand_ok taken, stlCmdWrite_wake (s := s.ok) free asleep unlatched, stlRes_eq]
  simp -implicitDefEqProofs only [State.ok, State.setStl, State.put_eq, stlState]

theorem exec_stileSynth_standby (standby : s.get Fld.STL_STAT_STATE = 1) : exec (.stileSynth r) s = .next { s with
    resp := { err := false, data := 0 }
    regs := rfPut (rfPut (rfPut s.regs Fld.STL_STAT_STATE 2) Fld.STL_FREQ_PEND 0) Fld.STL_STAT_LASTRES 0
    stl := { s.stl with goal := 2, entered := some s.now, lock := false, freq := s.get Fld.STL_FREQ_FREQ, cfg := s.rd Reg.STL_CFG } } := by
  show stlCommand r 3 s = _
  rw [stlCommand_ok taken, stlCmdWrite_synth (s := s.ok) free, stlMove_standby (s := s.ok) 2 standby, if_neg (by decide), stlRes_eq, enterSynth_eq]
  simp -implicitDefEqProofs only [State.ok, State.setStl, State.get_eq_rfGet, State.rd_eq_rfRead]

theorem exec_stileRx_locked (synth : s.get Fld.STL_STAT_STATE = 2) (unlatched : s.get Fld.STL_STAT_LATCHED = 0)
    (lock : s.stl.lock = true) (quiet : s.stl.goal ≠ 4) : exec (.stileRx r) s = .next { s with
    resp := { err := false, data := 0 }
    regs := rfPut s.regs Fld.STL_STAT_LASTRES 0
    stl := { s.stl with goal := 3 } } := by
  show stlCommand r 4 s = _
  have latched : s.ok.flag Fld.STL_STAT_LATCHED = false := State.flag_of_get_zero (s := s.ok) unlatched
  rw [stlCommand_ok taken, stlCmdWrite_rx (s := s.ok) free, latched, if_neg Bool.false_ne_true, stlMove_locked (s := s.ok) 3 synth unlatched lock quiet, stlRes_eq]
  simp -implicitDefEqProofs only [State.ok, State.setStl]

theorem exec_stileRx_latched (latched : s.get Fld.STL_STAT_LATCHED = 1) : exec (.stileRx r) s = .next (stlRefuse 1 s.ok) := by
  show stlCommand r 4 s = _
  rw [stlCommand_ok taken, stlCmdWrite_rx (s := s.ok) free, if_pos (State.flag_of_get_one (s := s.ok) latched)]

theorem exec_stileTx_cut (cut : s.ok.stlCut = true) : exec (.stileTx r) s = .next (stlRefuse 1 s.ok) := by
  show stlCommand r 5 s = _
  rw [stlCommand_ok taken, stlCmdWrite_tx (s := s.ok) free, if_pos cut]

theorem exec_stileTx_synced (cut : s.ok.stlCut = false) (syncd : s.get Fld.STL_STAT_SYNCD = 1) : exec (.stileTx r) s = .next (stlRefuse 3 s.ok) := by
  show stlCommand r 5 s = _
  rw [stlCommand_ok taken, stlCmdWrite_tx (s := s.ok) free, cut, if_neg Bool.false_ne_true, if_pos (State.flag_of_get_one (s := s.ok) syncd)]

theorem exec_stileTx_standby (cut : s.ok.stlCut = false) (syncd : s.get Fld.STL_STAT_SYNCD = 0) (standby : s.get Fld.STL_STAT_STATE = 1) :
    exec (.stileTx r) s = .next { s with
      resp := { err := false, data := 0 }
      regs := rfPut (rfPut (rfPut (rfPut s.regs Fld.STL_STAT_STATE 2) Fld.STL_FREQ_PEND 0) Fld.STL_STAT_LATCHED 1) Fld.STL_STAT_LASTRES 0
      stl := { s.stl with goal := 4, entered := some s.now, lock := false, freq := s.get Fld.STL_FREQ_FREQ, cfg := s.rd Reg.STL_CFG } } := by
  show stlCommand r 5 s = _
  have quiet : s.ok.flag Fld.STL_STAT_SYNCD = false := State.flag_of_get_zero (s := s.ok) syncd
  rw [stlCommand_ok taken, stlCmdWrite_tx (s := s.ok) free, cut, if_neg Bool.false_ne_true, quiet, if_neg Bool.false_ne_true,
    stlMove_standby (s := s.ok) 4 standby, if_pos rfl, stlRes_eq, State.put_eq, enterSynth_eq]
  simp -implicitDefEqProofs only [State.ok, State.setStl, State.get_eq_rfGet, State.rd_eq_rfRead]

end

end Sys2Proof.Machine
end

section
/-!
PROOFS. Stile's commands and states, assembled (R437 to R440, R449).
-/

namespace Sys2Proof.Machine

section
variable {s : State} {r : Req} (taken : Takes s r Reg.STL_CMD) (free : s.bel.answer = none)
include taken free

theorem stileSleep_gives : Gives (.stileSleep r) s fun t => t.get Fld.STL_STAT_STATE = 0 ∧ t.get Fld.STL_STAT_LATCHED = 0 ∧ t.get Fld.STL_STAT_SYNCD = 0
    ∧ t.get Fld.STL_STAT_EXCH = 0 ∧ t.get Fld.STL_STAT_FOFF = 0 ∧ t.stl.lock = false
    ∧ t.get Fld.STL_STAT_LASTRES = (if s.get Fld.STL_STAT_LATCHED = 1 ∨ s.stlSending = true then 5 else 0)
    ∧ t = { s with resp := { err := false, data := 0 }, regs := t.regs, stl := t.stl } ∧ SameRegs [Reg.STL_STAT] s t := by
  obtain ⟨state, latched, syncd, exch, foff, res⟩ := stlDownRes_get s.regs 0 (if s.ok.stlCut then 5 else 0)
  refine Gives.of_eq (exec_stileSleep taken free) ⟨?_, ?_, ?_, ?_, ?_, rfl, ?_, rfl, ((rfSame_stlDownRegs s.regs 0).put (by decide) _).sameRegs⟩
  all_goals rw [State.get_eq_rfGet]
  · exact state
  · exact latched
  · exact syncd
  · exact exch
  · exact foff
  · exact res.trans (stlCut_result s)

theorem stileStandby_gives (up : s.get Fld.STL_STAT_STATE ≠ 0) (settled : s.get Fld.STL_STAT_STATE ≠ 5) :
    Gives (.stileStandby r) s fun t => t.get Fld.STL_STAT_STATE = 1 ∧ t.stl.lock = false
      ∧ t.get Fld.STL_STAT_LASTRES = (if s.get Fld.STL_STAT_LATCHED = 1 ∨ s.stlSending = true then 5 else 0)
      ∧ t = { s with resp := { err := false, data := 0 }, regs := t.regs, stl := t.stl } ∧ SameRegs [Reg.STL_STAT] s t := by
  obtain ⟨state, _, _, _, _, res⟩ := stlDownRes_get s.regs 1 (if s.ok.stlCut then 5 else 0)
  refine Gives.of_eq (exec_stileStandby_down taken free up settled) ⟨?_, rfl, ?_, rfl, ((rfSame_stlDownRegs s.regs 1).put (by decide) _).sameRegs⟩
  all_goals rw [State.get_eq_rfGet]
  · exact state
  · exact res.trans (stlCut_result s)

theorem stileStandby_wakes (asleep : s.get Fld.STL_STAT_STATE = 0) (unlatched : s.get Fld.STL_STAT_LATCHED = 0) :
    Gives (.stileStandby r) s fun t => t.get Fld.STL_STAT_STATE = 5 ∧ t.stl = { s.stl with goal := 1 } ∧ t.get Fld.STL_STAT_LASTRES = 0
      ∧ t = { s with resp := { err := false, data := 0 }, regs := t.regs, stl := t.stl } ∧ SameRegs [Reg.STL_STAT] s t := by
  refine Gives.of_eq (exec_stileStandby_wake taken free asleep unlatched)
    ⟨?_, rfl, ?_, rfl, ((((RfSame.refl _ _).put (by decide) _).put (by decide) _).put (by decide) _).sameRegs⟩
  all_goals simp (disch := decide) only [State.get_eq_rfGet, rfGet_rfPut_self, rfGet_rfPut_apart]
  · rfl
  · rfl

theorem stileSynth_gives (standby : s.get Fld.STL_STAT_STATE = 1) : Gives (.stileSynth r) s fun t => t.get Fld.STL_STAT_STATE = 2 ∧ t.get Fld.STL_FREQ_PEND = 0
    ∧ t.stl = { s.stl with goal := 2, entered := some s.now, lock := false, freq := s.get Fld.STL_FREQ_FREQ, cfg := s.rd Reg.STL_CFG }
    ∧ t.get Fld.STL_STAT_LASTRES = 0
    ∧ t = { s with resp := { err := false, data := 0 }, regs := t.regs, stl := t.stl } ∧ SameRegs [Reg.STL_STAT, Reg.STL_FREQ] s t := by
  refine Gives.of_eq (exec_stileSynth_standby taken free standby)
    ⟨?_, ?_, rfl, ?_, rfl, ((((RfSame.refl _ _).put (by decide) _).put (by decide) _).put (by decide) _).sameRegs⟩
  all_goals simp (disch := decide) only [State.get_eq_rfGet, rfGet_rfPut_self, rfGet_rfPut_apart]
  · rfl
  · rfl
  · rfl

theorem stileRx_gives (synth : s.get Fld.STL_STAT_STATE = 2) (unlatched : s.get Fld.STL_STAT_LATCHED = 0) (lock : s.stl.lock = true) (quiet : s.stl.goal ≠ 4) :
    Gives (.stileRx r) s fun t => t.get Fld.STL_STAT_STATE = 2 ∧ t.stl = { s.stl with goal := 3 } ∧ t.get Fld.STL_STAT_LASTRES = 0
      ∧ t = { s with resp := { err := false, data := 0 }, regs := t.regs, stl := t.stl } ∧ SameRegs [Reg.STL_STAT] s t := by
  refine Gives.of_eq (exec_stileRx_locked taken free synth unlatched lock quiet) ⟨?_, rfl, ?_, rfl, ((RfSame.refl _ _).put (by decide) _).sameRegs⟩
  all_goals rw [State.get_eq_rfGet] at *
  · rw [rfGet_rfPut_apart _ _ (by decide) (by decide)]
    exact synth
  · exact rfGet_rfPut_self _ _ (by decide)

theorem stileTx_gives (standby : s.get Fld.STL_STAT_STATE = 1) (unlatched : s.get Fld.STL_STAT_LATCHED = 0) (quiet : s.get Fld.STL_STAT_SYNCD = 0) :
    Gives (.stileTx r) s fun t => t.get Fld.STL_STAT_STATE = 2 ∧ t.get Fld.STL_STAT_LATCHED = 1 ∧ t.stl.goal = 4 ∧ t.stl.lock = false
      ∧ t.stl.entered = some s.now ∧ t.get Fld.STL_STAT_LASTRES = 0
      ∧ t = { s with resp := { err := false, data := 0 }, regs := t.regs, stl := t.stl } ∧ SameRegs [Reg.STL_STAT, Reg.STL_FREQ] s t := by
  have cut : s.ok.stlCut = false := by
    have latched : s.flag Fld.STL_STAT_LATCHED = false := State.flag_of_get_zero unlatched
    have sending : s.stlSending = false := by simp [State.stlSending, standby]
    show (s.flag Fld.STL_STAT_LATCHED || s.stlSending) = false
    rw [latched, sending, Bool.or_self]
  refine Gives.of_eq (exec_stileTx_standby taken free cut quiet standby) ⟨?_, ?_, rfl, rfl, rfl, ?_, rfl,
    (((((RfSame.refl _ _).put (by decide) _).put (by decide) _).put (by decide) _).put (by decide) _).sameRegs⟩
  all_goals simp (disch := decide) only [State.get_eq_rfGet, rfGet_rfPut_self, rfGet_rfPut_apart]
  · rfl
  · rfl
  · rfl

end

theorem stlCut_of_latched {s : State} (latched : s.get Fld.STL_STAT_LATCHED = 1) : s.ok.stlCut = true := by
  show (s.flag Fld.STL_STAT_LATCHED || s.stlSending) = true
  rw [State.flag_of_get_one latched, Bool.true_or]

theorem stlCut_of_sending {s : State} (sending : s.stlSending = true) : s.ok.stlCut = true := by
  show (s.flag Fld.STL_STAT_LATCHED || s.stlSending) = true
  rw [sending, Bool.or_true]

theorem stlCut_of_idle {s : State} (unlatched : s.get Fld.STL_STAT_LATCHED = 0) (idle : s.stlSending = false) : s.ok.stlCut = false := by
  show (s.flag Fld.STL_STAT_LATCHED || s.stlSending) = false
  rw [State.flag_of_get_zero unlatched, idle, Bool.or_self]

/-- While a Hearth answer is on the air every command is refused with 6 (R449). -/
theorem stile_answering {s : State} {r : Req} (taken : Takes s r Reg.STL_CMD) (answer : s.bel.answer ≠ none) {i : Instr}
    (listed : i ∈ [Instr.stileSleep r, .stileStandby r, .stileSynth r, .stileRx r, .stileTx r]) :
    Gives i s fun t => t.get Fld.STL_STAT_LASTRES = 6 ∧ t.stl = s.stl := by
  have refused (n : Nat) : stlCommand r n s = .next (stlRefuse 6 s.ok) := by rw [stlCommand_ok taken, stlCmdWrite_answering (s := s.ok) answer]
  have ran : exec i s = .next (stlRefuse 6 s.ok) := by
    simp only [List.mem_cons, List.not_mem_nil, or_false] at listed
    obtain rfl | rfl | rfl | rfl | rfl := listed
    · exact refused 1
    · exact refused 2
    · exact refused 3
    · exact refused 4
    · exact refused 5
  obtain ⟨res, _, _, frame, _⟩ := stlRefuse_refused (s := s) (n := 6) (by decide)
  exact Gives.of_eq ran ⟨res, by rw [frame]⟩

/-! ### States reached (R438, R439) -/

section
variable {s : State} (t0 : Nat)

theorem exec_stileStateReached_standby (calibrates : s.get Fld.STL_STAT_STATE = 5) (down : s.stl.goal < 2) :
    exec (.stileStateReached t0) s = .next { s with now := max s.now t0, regs := rfPut s.regs Fld.STL_STAT_STATE 1 } := by
  show execStileStateReached t0 s = _
  have goal : ¬ 2 ≤ s.stl.goal := by omega
  rw [State.get_eq_rfGet] at calibrates
  simp -implicitDefEqProofs only [execStileStateReached, State.get_eq_rfGet, State.at, calibrates, stlState, State.put_eq, goal, if_false]

theorem exec_stileStateReached_rx (synth : s.get Fld.STL_STAT_STATE = 2) (lock : s.stl.lock = true) (goal : s.stl.goal = 3) :
    exec (.stileStateReached t0) s = .next { s with
      now := max s.now t0, regs := rfPut s.regs Fld.STL_STAT_STATE 3, stl := { s.stl with rxAt := max s.now t0, late := false } } := by
  show execStileStateReached t0 s = _
  rw [State.get_eq_rfGet] at synth
  simp -implicitDefEqProofs only [execStileStateReached, State.get_eq_rfGet, State.at, synth, lock, goal, enterRx_eq, Bool.not_true, Bool.false_eq_true,
    if_false, if_true]

variable (synth : s.get Fld.STL_STAT_STATE = 2) (lock : s.stl.lock = false)
include synth lock

theorem exec_stileStateReached_lock : exec (.stileStateReached t0) s = .next (stlLock (s.at t0)) := by
  show execStileStateReached t0 s = _
  simp only [execStileStateReached, State.get_at, State.at_stl, synth, lock, Bool.not_false, if_true]

theorem exec_stileSynthLock : exec (.stileSynthLock t0) s = .next (stlLock (s.at t0)) := by
  show execStileSynthLock t0 s = _
  rw [execStileSynthLock, if_pos ⟨synth, by rw [lock]; rfl⟩]

end

theorem stlLock_of_unlatched {s : State} (t0 : Nat) (unlatched : s.get Fld.STL_STAT_LATCHED = 0) :
    stlLock (s.at t0) = { s with now := max s.now t0, stl := { s.stl with lock := true, entered := none } } := by
  have latched : ((s.at t0).setStl { (s.at t0).stl with lock := true, entered := none }).flag Fld.STL_STAT_LATCHED = false := State.flag_of_get_zero unlatched
  rw [stlLock]
  simp -implicitDefEqProofs only [latched, Bool.false_eq_true, if_false]
  simp -implicitDefEqProofs only [State.setStl, State.at]

theorem stlLock_of_latched {s : State} (t0 : Nat) (latched : s.get Fld.STL_STAT_LATCHED = 1) : ∃ packet,
    stlLock (s.at t0) = { s with
      now := max s.now t0
      regs := rfPut (rfPut s.regs Fld.STL_STAT_STATE 4) Fld.STL_STAT_LATCHED 0
      stl := { s.stl with lock := true, entered := none, goal := 4, packet := packet } } := by
  have flag : ((s.at t0).setStl { (s.at t0).stl with lock := true, entered := none }).flag Fld.STL_STAT_LATCHED = true := State.flag_of_get_one latched
  refine ⟨(startTx ((s.at t0).setStl { (s.at t0).stl with lock := true, entered := none })).stl.packet, ?_⟩
  rw [stlLock]
  simp -implicitDefEqProofs only [flag, if_true]
  rw [startTx_eq]
  generalize (startTx _).stl.packet = packet
  simp -implicitDefEqProofs only [State.setStl, State.at]

end Sys2Proof.Machine
end

section
/-!
PROOFS. Stile's transmissions and its reception up to the sync word (R439, R440, R443).
-/

namespace Sys2Proof.Machine

theorem State.radiate_eq (s : State) (args : List Int) (bytes : List Nat) :
    s.radiate args bytes = { s with out := .stile args bytes (stileSymbols args bytes) :: s.out } := by
  rw [State.radiate, State.emit]

/-- The count of refused commands goes on by one, up to its maximum. -/
theorem rfGet_inc (l : RegFile) {f : Field} {w : Nat} (fits : f.fits = true) (width : f.width = w) :
    rfGet (rfPut l f (min (rfGet l f + 1) (2 ^ w - 1))) f = min (rfGet l f + 1) (2 ^ w - 1) := by
  subst width
  rw [rfGet_rfPut_self l _ fits]
  have room := Nat.two_pow_pos f.width
  exact Nat.mod_eq_of_lt (by omega)

section
variable {s : State}

theorem exec_stileTxWaitTimeout {d : Nat} (entered : s.stl.entered = some d) (latched : s.get Fld.STL_STAT_LATCHED = 1) :
    exec .stileTxWaitTimeout s = .next { s with
      now := max s.now (d + max 20 (min 1000 (s.get Fld.STL_SEQ_TXWAIT)) * usU)
      regs := stlRefuseRegs 2 (stlDownRegs 1 s.regs)
      stl := { s.stl with goal := 1, entered := none, lock := false, late := false } } := by
  show execStileTxWaitTimeout s = _
  simp only [execStileTxWaitTimeout, entered, State.flag_of_get_one latched, Bool.not_true, Bool.false_eq_true, if_false]
  rw [stlRefuse_eq, stlDown_eq]
  simp -implicitDefEqProofs only [State.at]

theorem stileTxWaitTimeout_gives {d : Nat} (entered : s.stl.entered = some d) (latched : s.get Fld.STL_STAT_LATCHED = 1) :
    Gives .stileTxWaitTimeout s fun t => t.get Fld.STL_STAT_STATE = 1
      ∧ t.get Fld.STL_STAT_LATCHED = 0 ∧ t.get Fld.STL_STAT_LASTRES = 2 ∧ t.now = max s.now (d + max 20 (min 1000 (s.get Fld.STL_SEQ_TXWAIT)) * usU)
      ∧ t.get (Fld.STL_CNTn_COUNT.i 5) = min (s.get (Fld.STL_CNTn_COUNT.i 5) + 1) (2 ^ 32 - 1) ∧ t = { s with now := t.now, regs := t.regs, stl := t.stl } := by
  obtain ⟨state, latch, _, _, _⟩ := stlDownRegs_get s.regs 1
  obtain ⟨res, same, count⟩ := stlRefuseRegs_get (stlDownRegs 1 s.regs) 2
  refine Gives.of_eq (exec_stileTxWaitTimeout entered latched) ⟨?_, ?_, ?_, rfl, ?_, rfl⟩
  all_goals rw [State.get_eq_rfGet]
  · exact same.trans state
  · refine Eq.trans ?_ latch
    simp (disch := decide) only [stlRefuseRegs, rfGet_rfPut_apart]
  · exact res
  · refine count.trans ?_
    have kept : rfGet (stlDownRegs 1 s.regs) (Fld.STL_CNTn_COUNT.i 5) = rfGet s.regs (Fld.STL_CNTn_COUNT.i 5) := by
      simp (disch := decide) only [stlDownRegs, rfGet_rfPut_apart]
    rw [kept, State.get_eq_rfGet]

/-- The packet has left and is counted. -/
def stileSent (t0 : Nat) (s : State) : State := ((s.at t0).radiate s.stl.packet.1 s.stl.packet.2).inc (Fld.STL_CNTn_COUNT.i 0)

theorem stileSent_eq (t0 : Nat) (s : State) : stileSent t0 s = { s with
    now := max s.now t0
    out := .stile s.stl.packet.1 s.stl.packet.2 (stileSymbols s.stl.packet.1 s.stl.packet.2) :: s.out
    regs := rfPut s.regs (Fld.STL_CNTn_COUNT.i 0) (min (rfGet s.regs (Fld.STL_CNTn_COUNT.i 0) + 1) (2 ^ 32 - 1)) } := by
  simp -implicitDefEqProofs only [stileSent, State.radiate_eq, State.inc_eq, State.at]
  rfl

theorem exec_stilePacketSent (t0 : Nat) (sends : s.get Fld.STL_STAT_STATE = 4) (goal : s.stl.goal = 4) :
    exec (.stilePacketSent t0) s = .next (stlNext (s.get Fld.STL_SEQ_TXNEXT) (stileSent t0 s)) := by
  have next : (stileSent t0 s).get Fld.STL_SEQ_TXNEXT = s.get Fld.STL_SEQ_TXNEXT := by
    rw [stileSent_eq]
    simp (disch := decide) only [State.get_eq_rfGet, rfGet_rfPut_apart]
  have kept : (stileSent t0 s).stl = s.stl := by rw [stileSent_eq]
  show execStilePacketSent t0 s = _
  rw [← next, execStilePacketSent, if_neg (not_not.2 sends)]
  have stile : (((s.at t0).radiate s.stl.packet.1 s.stl.packet.2).inc (Fld.STL_CNTn_COUNT.i 0)).stl.goal = 4 := by
    rw [← stileSent, kept, goal]
  simp only [stile]
  rfl

theorem stlNext_one : stlNext 1 s = fromSynth 2 s := rfl

theorem stlNext_two_rx (rx : s.get Fld.STL_STAT_STATE = 3) : stlNext 2 s = enterRx s := if_pos rx

theorem stlNext_two_synth (other : s.get Fld.STL_STAT_STATE ≠ 3) : stlNext 2 s = fromSynth 3 s := if_neg other

theorem stlNext_down {n : Nat} (one : n ≠ 1) (two : n ≠ 2) : stlNext n s = stlDown 1 s := by
  unfold stlNext
  split
  · exact absurd rfl one
  · exact absurd rfl two
  · rfl

/-- What follows a packet (R439): only STL_STAT and the radio's own state change. -/
theorem stlNext_frame (n : Nat) (s : State) : stlNext n s = { s with regs := (stlNext n s).regs, stl := (stlNext n s).stl }
    ∧ RfSame [Reg.STL_STAT] s.regs (stlNext n s).regs := by
  have down : stlDown 1 s = { s with regs := (stlDown 1 s).regs, stl := (stlDown 1 s).stl } ∧ RfSame [Reg.STL_STAT] s.regs (stlDown 1 s).regs := by
    rw [stlDown_eq]
    exact ⟨rfl, rfSame_stlDownRegs _ _⟩
  have synth (goal : Nat) : fromSynth goal s = { s with regs := (fromSynth goal s).regs, stl := (fromSynth goal s).stl }
      ∧ RfSame [Reg.STL_STAT] s.regs (fromSynth goal s).regs := by
    rw [fromSynth_eq]
    exact ⟨rfl, ((RfSame.refl _ _).put (by decide) _).put (by decide) _⟩
  have rx : enterRx s = { s with regs := (enterRx s).regs, stl := (enterRx s).stl } ∧ RfSame [Reg.STL_STAT] s.regs (enterRx s).regs := by
    rw [enterRx_eq]
    exact ⟨rfl, (RfSame.refl _ _).put (by decide) _⟩
  by_cases one : n = 1
  · rw [one, stlNext_one]
    exact synth 2
  · by_cases two : n = 2
    · rw [two]
      by_cases state : s.get Fld.STL_STAT_STATE = 3
      · rw [stlNext_two_rx state]
        exact rx
      · rw [stlNext_two_synth state]
        exact synth 3
    · rw [stlNext_down one two]
      exact down

theorem stilePacketSent_gives (t0 : Nat) (sends : s.get Fld.STL_STAT_STATE = 4) (goal : s.stl.goal = 4) : Gives (.stilePacketSent t0) s fun t =>
    t.out = .stile s.stl.packet.1 s.stl.packet.2 (stileSymbols s.stl.packet.1 s.stl.packet.2) :: s.out
    ∧ t.get (Fld.STL_CNTn_COUNT.i 0) = min (s.get (Fld.STL_CNTn_COUNT.i 0) + 1) (2 ^ 32 - 1)
    ∧ (s.get Fld.STL_SEQ_TXNEXT = 0 → t.get Fld.STL_STAT_STATE = 1) ∧ (s.get Fld.STL_SEQ_TXNEXT = 1 → t.get Fld.STL_STAT_STATE = 2 ∧ t.stl.goal = 2)
    ∧ (s.get Fld.STL_SEQ_TXNEXT = 2 → t.get Fld.STL_STAT_STATE = 2 ∧ t.stl.goal = 3)
    ∧ t = { s with now := max s.now t0, out := t.out, regs := t.regs, stl := t.stl } := by
  have sent := stileSent_eq t0 s
  have state : (stileSent t0 s).get Fld.STL_STAT_STATE = 4 := by
    rw [← sends, sent]
    simp (disch := decide) only [State.get_eq_rfGet, rfGet_rfPut_apart]
  have count : (stileSent t0 s).get (Fld.STL_CNTn_COUNT.i 0) = min (s.get (Fld.STL_CNTn_COUNT.i 0) + 1) (2 ^ 32 - 1) := by
    rw [sent]
    simp only [State.get_eq_rfGet]
    exact rfGet_inc _ (by decide) rfl
  obtain ⟨frame, same⟩ := stlNext_frame (s.get Fld.STL_SEQ_TXNEXT) (stileSent t0 s)
  refine Gives.of_eq (exec_stilePacketSent t0 sends goal) ⟨?_, ?_, fun next => ?_, fun next => ?_, fun next => ?_, ?_⟩
  · rw [frame, sent]
  · exact ((same.sameRegs).get (by decide)).trans count
  · obtain ⟨down, _⟩ := stlDownRegs_get (stileSent t0 s).regs 1
    rw [next, stlNext_down (by decide) (by decide), stlDown_eq, State.get_eq_rfGet]
    exact down
  · rw [next, stlNext_one, fromSynth_eq]
    simp (disch := decide) only [State.get_eq_rfGet, rfGet_rfPut_self, rfGet_rfPut_apart]
    exact ⟨rfl, trivial⟩
  · rw [next, stlNext_two_synth (by rw [state]; decide), fromSynth_eq]
    simp (disch := decide) only [State.get_eq_rfGet, rfGet_rfPut_self, rfGet_rfPut_apart]
    exact ⟨rfl, trivial⟩
  · generalize stlNext (s.get Fld.STL_SEQ_TXNEXT) (stileSent t0 s) = t at frame
    rw [frame, sent]

theorem signed_unsigned {v : Int} (low : -(2 ^ 15) ≤ v) (high : v < 2 ^ 15) : signed 16 (unsigned 16 (clampS 16 v) % 2 ^ 16) = v := by
  have clamped : clampS 16 v = v := by
    simp only [clampS]
    omega
  rw [clamped, signed, unsigned]
  by_cases below : (v % ((2 ^ 16 : Nat) : Int)).toNat % 2 ^ 16 % 2 ^ 16 < 2 ^ (16 - 1)
  · rw [if_pos below]
    omega
  · rw [if_neg below]
    omega

/-! ### Preamble, sync word, the end of a reception (R440, R443) -/

section
variable (state : s.get Fld.STL_STAT_STATE = 3)
include state

theorem exec_stilePreambleDetect (a b : Int) (t0 : Nat) (quiet : s.get Fld.STL_STAT_SYNCD = 0) :
    let ant := if getBits Fld.STL_CFG_DIV s.stl.cfg = 1 then (if a < b then 1 else 0) else s.get Fld.STL_PKT_RXANT
    exec (.stilePreambleDetect a b t0) s = .next { s with now := max s.now t0, stl := { s.stl with sel := ant, rssi := if ant = 1 then b else a } } := by
  have flag := State.flag_of_get_zero quiet
  intro ant
  show execStilePreambleDetect a b t0 s = _
  rw [execStilePreambleDetect, if_neg (by rw [flag]; simp [state])]
  rfl

omit state in
theorem exec_stileSyncDetect_far (off rssi : Int) (t0 : Nat) (far : min (5 * getBits Fld.STL_CFG_SRATE s.stl.cfg) 6000 < off.natAbs) :
    exec (.stileSyncDetect off rssi t0) s = .next s := by
  show execStileSyncDetect off rssi t0 s = _
  simp only [execStileSyncDetect, far, or_true, if_true]

theorem exec_stileSyncDetect (off rssi : Int) (t0 : Nat) (quiet : s.get Fld.STL_STAT_SYNCD = 0)
    (near : off.natAbs ≤ min (5 * getBits Fld.STL_CFG_SRATE s.stl.cfg) 6000) : exec (.stileSyncDetect off rssi t0) s = .next { s with
      now := max s.now t0
      regs := rfPut (rfPut s.regs Fld.STL_STAT_SYNCD 1) Fld.STL_STAT_FOFF (unsigned 16 (clampS 16 (signed 16 (s.get Fld.STL_STAT_FOFF) + off)))
      stl := { s.stl with held := signed 16 (s.get Fld.STL_STAT_FOFF), est := off, rssi := rssi, rxAt := max s.now t0 } } := by
  have flag := State.flag_of_get_zero quiet
  have old : ((s.at t0).put Fld.STL_STAT_SYNCD 1).get Fld.STL_STAT_FOFF = s.get Fld.STL_STAT_FOFF := by
    simp (disch := decide) only [State.get_eq_rfGet, State.put_regs, State.at_regs, rfGet_rfPut_apart]
  show execStileSyncDetect off rssi t0 s = _
  simp only [execStileSyncDetect]
  rw [if_neg (by rw [flag]; simp only [state, not_true_eq_false, ne_eq, Bool.false_eq_true, false_or]; omega)]
  rw [old, State.put_eq]
  simp -implicitDefEqProofs only [State.setStl, State.put_eq, State.at]

theorem stileSyncDetect_gives (off rssi : Int) (t0 : Nat) (quiet : s.get Fld.STL_STAT_SYNCD = 0)
    (near : off.natAbs ≤ min (5 * getBits Fld.STL_CFG_SRATE s.stl.cfg) 6000) : Gives (.stileSyncDetect off rssi t0) s fun t => t.get Fld.STL_STAT_SYNCD = 1
      ∧ (-(2 ^ 15) ≤ signed 16 (s.get Fld.STL_STAT_FOFF) + off → signed 16 (s.get Fld.STL_STAT_FOFF) + off < 2 ^ 15 →
        signed 16 (t.get Fld.STL_STAT_FOFF) = signed 16 (s.get Fld.STL_STAT_FOFF) + off)
      ∧ t.stl = { s.stl with held := signed 16 (s.get Fld.STL_STAT_FOFF), est := off, rssi := rssi, rxAt := max s.now t0 }
      ∧ t = { s with now := max s.now t0, regs := t.regs, stl := t.stl } ∧ SameRegs [Reg.STL_STAT] s t := by
  refine Gives.of_eq (exec_stileSyncDetect state off rssi t0 quiet near)
    ⟨?_, fun low high => ?_, rfl, rfl, (((RfSame.refl _ _).put (by decide) _).put (by decide) _).sameRegs⟩
  · simp (disch := decide) only [State.get_eq_rfGet, rfGet_rfPut_self, rfGet_rfPut_apart]
    rfl
  · rw [State.get_eq_rfGet _ Fld.STL_STAT_FOFF]
    simp (disch := decide) only [rfGet_rfPut_self]
    exact signed_unsigned low high

theorem stileRxTimeout_quiet (window : s.get Fld.STL_SEQ_RXTO ≠ 0) (quiet : s.get Fld.STL_STAT_SYNCD = 0) : Gives .stileRxTimeout s fun t =>
    t.get Fld.STL_STAT_STATE = 1 ∧ t.now = max s.now (s.stl.rxAt + s.get Fld.STL_SEQ_RXTO * msU)
      ∧ t = { s with now := t.now, regs := t.regs, stl := t.stl } ∧ SameRegs [Reg.STL_STAT] s t := by
  have flag : (s.at (s.stl.rxAt + s.get Fld.STL_SEQ_RXTO * msU)).flag Fld.STL_STAT_SYNCD = false := State.flag_of_get_zero quiet
  have ran : exec .stileRxTimeout s = .next (stlDown 1 (s.at (s.stl.rxAt + s.get Fld.STL_SEQ_RXTO * msU))) := by
    show execStileRxTimeout s = _
    simp only [execStileRxTimeout]
    rw [if_neg (by simp [state, window]), flag, if_neg Bool.false_ne_true]
  rw [stlDown_eq] at ran
  obtain ⟨down, _⟩ := stlDownRegs_get s.regs 1
  refine Gives.of_eq ran ⟨?_, rfl, rfl, (rfSame_stlDownRegs s.regs 1).sameRegs⟩
  rw [State.get_eq_rfGet]
  exact down

theorem exec_stileRxTimeout_synced (window : s.get Fld.STL_SEQ_RXTO ≠ 0) (syncd : s.get Fld.STL_STAT_SYNCD = 1) :
    exec .stileRxTimeout s = .next { s with now := max s.now (s.stl.rxAt + s.get Fld.STL_SEQ_RXTO * msU), stl := { s.stl with late := true } } := by
  have flag : (s.at (s.stl.rxAt + s.get Fld.STL_SEQ_RXTO * msU)).flag Fld.STL_STAT_SYNCD = true := State.flag_of_get_one syncd
  show execStileRxTimeout s = _
  simp only [execStileRxTimeout]
  rw [if_neg (by simp [state, window]), flag, if_pos rfl]
  rfl

end

end

end Sys2Proof.Machine
end

section
/-!
PROOFS. Stile's reception of a packet: the words of a buffer, the packet delivered (R441, R442).
-/

namespace Sys2Proof.Machine

/-! ### Consecutive registers written -/

/-- A register file with consecutive words written. -/
def rfWriteAll (l : RegFile) (a : Nat) : List Word → RegFile
  | [] => l
  | w :: t => rfWriteAll (rfWrite l a w) (a + 4) t

theorem State.wrAll_eq (s : State) (a : Nat) (l : List Word) : s.wrAll a l = { s with regs := rfWriteAll s.regs a l } := by
  induction l generalizing s a with
  | nil => rw [State.wrAll, rfWriteAll]
  | cons w t ih => rw [State.wrAll, rfWriteAll, ih, State.wr_eq]

theorem rfRead_rfWriteAll_ne (l : RegFile) {a b : Nat} {words : List Word} (other : ∀ i < words.length, b ≠ a + 4 * i) :
    rfRead (rfWriteAll l a words) b = rfRead l b := by
  induction words generalizing l a with
  | nil => rfl
  | cons w t ih =>
    have first : b ≠ a := other 0 (Nat.succ_pos _)
    rw [rfWriteAll, ih _ fun i inside => ?_, rfRead_write_ne _ _ first]
    have next := other (i + 1) (Nat.succ_lt_succ inside)
    omega

theorem rfRead_rfWriteAll (l : RegFile) {a : Nat} {words : List Word} {i : Nat} (inside : i < words.length) :
    rfRead (rfWriteAll l a words) (a + 4 * i) = words[i] := by
  induction words generalizing l a i with
  | nil => exact absurd inside (Nat.not_lt_zero _)
  | cons w t ih =>
    rw [rfWriteAll]
    match i, inside with
    | 0, _ => rw [rfRead_rfWriteAll_ne _ fun i _ => by omega, Nat.mul_zero, Nat.add_zero, rfRead_write_same, List.getElem_cons_zero]
    | i + 1, inside => rw [show a + 4 * (i + 1) = a + 4 + 4 * i by omega, ih _ (Nat.lt_of_succ_lt_succ inside), List.getElem_cons_succ]

/-! ### Bytes and words -/

/-- A byte of a big-endian word of four bytes. -/
theorem beNat_byte {l : List Nat} (four : l.length = 4) (bytes : ∀ x ∈ l, x < 256) {j : Nat} (inside : j < 4) :
    (BitVec.ofNat 32 (beNat l)).toNat / 256 ^ (3 - j) % 256 = l.getD j 0 := by
  match l, four with
  | [a, b, c, d], _ =>
    simp only [List.mem_cons, List.not_mem_nil, or_false, forall_eq_or_imp, forall_eq] at bytes
    obtain ⟨ha, hb, hc, hd⟩ := bytes
    have word : (BitVec.ofNat 32 (beNat [a, b, c, d])).toNat = a * 16777216 + b * 65536 + c * 256 + d := by
      simp only [beNat, List.foldl_cons, List.foldl_nil, BitVec.toNat_ofNat]
      omega
    rw [word]
    match j, inside with
    | 0, _ => simp only [List.getD_cons_zero, Nat.sub_zero, Nat.reducePow]; omega
    | 1, _ => simp only [List.getD_cons_succ, List.getD_cons_zero, Nat.reduceSub, Nat.reducePow]; omega
    | 2, _ => simp only [List.getD_cons_succ, List.getD_cons_zero, Nat.reduceSub, Nat.reducePow]; omega
    | 3, _ => simp only [List.getD_cons_succ, List.getD_cons_zero, Nat.reduceSub, Nat.reducePow]; omega

theorem packWords_length (l : List Nat) : (packWords l).length = (l.length + 3) / 4 := by
  rw [packWords, List.length_map, List.length_range]

/-- A byte of the words that a packet fills. -/
theorem packWords_byte {l : List Nat} (bytes : ∀ x ∈ l, x < 256) {i : Nat} (inside : i < l.length) (word : i / 4 < (packWords l).length) :
    (packWords l)[i / 4].toNat / 256 ^ (3 - i % 4) % 256 = l.getD i 0 := by
  have part : ((l.drop (4 * (i / 4))).take 4).length = min 4 (l.length - 4 * (i / 4)) := by rw [List.length_take, List.length_drop]
  have four : (((l.drop (4 * (i / 4))).take 4) ++ List.replicate (4 - ((l.drop (4 * (i / 4))).take 4).length) 0).length = 4 := by
    rw [List.length_append, List.length_replicate, part]
    omega
  have small : ∀ x ∈ ((l.drop (4 * (i / 4))).take 4) ++ List.replicate (4 - ((l.drop (4 * (i / 4))).take 4).length) 0, x < 256 := fun x listed => by
    rcases List.mem_append.1 listed with from_ | zero
    · exact bytes x (List.mem_of_mem_drop (List.mem_of_mem_take from_))
    · rw [List.eq_of_mem_replicate zero]
      decide
  have entry : (packWords l)[i / 4] =
      BitVec.ofNat 32 (beNat (((l.drop (4 * (i / 4))).take 4) ++ List.replicate (4 - ((l.drop (4 * (i / 4))).take 4).length) 0)) := by
    simp only [packWords, List.getElem_map, List.getElem_range]
  rw [entry, beNat_byte four small (Nat.mod_lt i (by decide)), List.getD_eq_getElem?_getD, List.getElem?_append_left (by rw [part]; omega),
    List.getElem?_take_of_lt (Nat.mod_lt i (by decide)), List.getElem?_drop, Nat.div_add_mod, List.getD_eq_getElem?_getD]

/-- A bound that each step of a fold keeps. -/
theorem foldl_lt {β : Type} {f : Nat → β → Nat} {n : Nat} (each : ∀ c b, c < n → f c b < n) (l : List β) {c : Nat} (small : c < n) : l.foldl f c < n := by
  induction l generalizing c with
  | nil => exact small
  | cons b rest ih => exact ih (each c b small)

/-- A checksum has 16 bits. -/
theorem crc16_lt (l : List Nat) : crc16 l < 2 ^ 16 := by
  rw [crc16]
  refine foldl_lt (fun c b small => foldl_lt (fun c i small => ?_) _ small) l (by decide)
  have shifted : c * 2 % 65536 < 2 ^ 16 := Nat.mod_lt _ (by decide)
  dsimp only
  split
  · exact Nat.xor_lt_two_pow shifted (by decide)
  · exact shifted

theorem beNat_beBytes_two {c : Nat} (small : c < 2 ^ 16) : beNat (beBytes 2 c) = c := by
  have bytes : beBytes 2 c = [c / 256 % 256, c % 256] := by
    simp [beBytes, List.range_succ]
  rw [bytes]
  simp only [beNat, List.foldl_cons, List.foldl_nil]
  omega

end Sys2Proof.Machine
end

section
/-!
PROOFS. Stile's reception of a packet, assembled (R441, R442).
-/

namespace Sys2Proof.Machine

/-- The radio once a good packet has come in: the correction of its exchange is kept or dropped. -/
def stileGood (t0 : Nat) (s : State) : State :=
  let s := (s.at t0).put Fld.STL_STAT_SYNCD 0
  let s := s.setStl { s.stl with rxAt := s.now }
  if getBits Fld.STL_CFG_FOFB s.stl.cfg = 1 then s.put Fld.STL_STAT_EXCH 1 else s.put Fld.STL_STAT_FOFF (unsigned 16 s.stl.held)

section
variable {s : State}

theorem stileGood_eq (t0 : Nat) : ∃ regs, stileGood t0 s = { s with now := max s.now t0, regs := regs, stl := { s.stl with rxAt := max s.now t0 } }
    ∧ RfSame [Reg.STL_STAT] s.regs regs ∧ rfGet regs Fld.STL_STAT_SYNCD = 0 ∧ rfGet regs Fld.STL_STAT_STATE = s.get Fld.STL_STAT_STATE := by
  rw [stileGood, State.get_eq_rfGet]
  split
  · refine ⟨rfPut (rfPut s.regs Fld.STL_STAT_SYNCD 0) Fld.STL_STAT_EXCH 1, ?_, ((RfSame.refl _ _).put (by decide) _).put (by decide) _, ?_⟩
    · simp -implicitDefEqProofs only [State.put_eq, State.setStl, State.at]
    · simp (disch := decide) only [rfGet_rfPut_self, rfGet_rfPut_apart]
      exact ⟨rfl, trivial⟩
  · refine ⟨rfPut (rfPut s.regs Fld.STL_STAT_SYNCD 0) Fld.STL_STAT_FOFF (unsigned 16 s.stl.held), ?_,
      ((RfSame.refl _ _).put (by decide) _).put (by decide) _, ?_⟩
    · simp -implicitDefEqProofs only [State.put_eq, State.setStl, State.at]
    · simp (disch := decide) only [rfGet_rfPut_self, rfGet_rfPut_apart]
      exact ⟨rfl, trivial⟩

/-- What a packet received is followed by (R442). -/
def rxNext (n : Nat) : Nat := match n with | 1 => 0 | 2 => 1 | _ => 2

/-- A buffer that holds a packet drops the next (R442). -/
theorem stlDeliver_full {body : List Nat} {q evm : Nat} (full : s.get (Fld.STL_RXb_INFO_FULL.i s.stl.buf) = 1) :
    stlDeliver body q evm s = (s.inc (Fld.STL_CNTn_COUNT.i 4), false) := by
  rw [stlDeliver, if_pos (State.flag_of_get_one full)]

/-- The word of STL_RXb_INFO: FULL, the aerial, the level, the estimate. -/
def State.rxInfo (s : State) : Nat := 2 ^ 31 + s.stl.sel % 2 * 2 ^ 30 + unsigned 8 s.stl.rssi * 65536 + unsigned 16 s.stl.est

/-- The registers once a packet is in buffer `b`. -/
def rxDelivered (b : Nat) (body : List Nat) (info : Nat) (qual : Nat) (r : RegFile) : RegFile :=
  let u := rfWrite (rfWrite (rfWriteAll r (Reg.STL_RXBUF + 512 * b) (packWords body)) (Reg.STL_RXb_INFO + 8 * b) (BitVec.ofNat 32 info))
    (Reg.STL_RXb_QUAL + 8 * b) (BitVec.ofNat 32 qual)
  rfPut u (Fld.STL_CNTn_COUNT.i 1) (min (rfGet u (Fld.STL_CNTn_COUNT.i 1) + 1) (2 ^ 32 - 1))

theorem stlDeliver_free {body : List Nat} {q evm : Nat} (free : s.get (Fld.STL_RXb_INFO_FULL.i s.stl.buf) = 0) : stlDeliver body q evm s = ({ s with
    regs := rxDelivered s.stl.buf body s.rxInfo (q % 256 * 2 ^ 24 + evm % 65536) s.regs
    stl := { s.stl with buf := 1 - s.stl.buf, ant := s.stl.sel } }, true) := by
  have flag := State.flag_of_get_zero free
  rw [stlDeliver]
  simp only [flag, Bool.false_eq_true, if_false]
  simp -implicitDefEqProofs only [State.wrAll_eq, State.wr_eq, State.inc_eq, State.setStl, rxDelivered, State.rxInfo,
    show (Fld.STL_CNTn_COUNT.i 1).width = 32 from rfl]

/-- A packet for this device with a right checksum goes to the buffer. -/
theorem exec_stilePacketRx {body : List Nat} {lqi evm t0 : Nat} (state : s.get Fld.STL_STAT_STATE = 3) (syncd : s.get Fld.STL_STAT_SYNCD = 1)
    (plain : getBits Fld.STL_CFG_WHITEN s.stl.cfg = 0) (length : body.length = 4 + body.getD 3 0) (rom : s.boot.rom = false)
    (address : body.getD 0 0 = s.get Fld.TLY_STAT_ADDR ∨ body.getD 0 0 = 0xFF) :
    let total := (body.length + 2) * (if getBits Fld.STL_CFG_MOD s.stl.cfg = 1 then 4 else 8)
    let q := 255 * min lqi total / total
    exec (.stilePacketRx (body ++ beBytes 2 (crc16 body)) lqi evm t0) s = .next (
      let x := stlDeliver body q evm (stileGood t0 s)
      if x.2 then stlNext (rxNext (x.1.get Fld.STL_SEQ_RXNEXT)) x.1 else if x.1.stl.late then stlDown 1 x.1 else x.1) := by
  intro total q
  have four : 4 ≤ body.length := by omega
  obtain ⟨regs, good, same, _, _⟩ := stileGood_eq (s := s) t0
  have flag := State.flag_of_get_one syncd
  have header : (body ++ beBytes 2 (crc16 body)).getD 3 0 = body.getD 3 0 := by
    rw [List.getD_eq_getElem?_getD, List.getElem?_append_left (by omega), List.getD_eq_getElem?_getD]
  have two : (beBytes 2 (crc16 body)).length = 2 := rfl
  have taken : (body ++ beBytes 2 (crc16 body)).take (4 + body.getD 3 0) = body := by rw [← length, List.take_left]
  have check : beNat (((body ++ beBytes 2 (crc16 body)).drop body.length).take 2) = crc16 body := by
    rw [List.drop_left, List.take_of_length_le (by rw [two]), beNat_beBytes_two (crc16_lt body)]
  have fits : body.length + 2 ≤ (body ++ beBytes 2 (crc16 body)).length := by rw [List.length_append, two]
  have addr : (stileGood t0 s).get Fld.TLY_STAT_ADDR = s.get Fld.TLY_STAT_ADDR := by
    rw [good]
    exact same.sameRegs.get (s := s) (t := { s with regs := regs }) (by decide)
  have accept : (body.getD 0 0 == 0xFF || ((stileGood t0 s).get Fld.TLY_STAT_ADDR != 0xFF
      && (body.getD 0 0 == (stileGood t0 s).get Fld.TLY_STAT_ADDR || getBits Fld.STL_CFG_PROMISC (stileGood t0 s).stl.cfg == 1))) = true := by
    rw [addr]
    rcases address with own | all
    · rw [own]
      by_cases none : s.get Fld.TLY_STAT_ADDR = 0xFF
      · rw [none]
        rfl
      · simp [none]
    · rw [all]
      rfl
  have goodCfg : (stileGood t0 s).stl.cfg = s.stl.cfg := by rw [good]
  rw [goodCfg] at accept
  have boot : (stileGood t0 s).boot.rom = false := by
    rw [good]
    exact rom
  obtain ⟨u, taking⟩ : ∃ u, u = ((s.at t0).put Fld.STL_STAT_SYNCD 0).setStl
    { ((s.at t0).put Fld.STL_STAT_SYNCD 0).stl with rxAt := ((s.at t0).put Fld.STL_STAT_SYNCD 0).now } := ⟨_, rfl⟩
  have cfg : u.stl.cfg = s.stl.cfg := by
    rw [taking]
    simp -implicitDefEqProofs only [State.put_eq, State.setStl, State.at]
  have fold : stileGood t0 s = if getBits Fld.STL_CFG_FOFB s.stl.cfg = 1 then u.put Fld.STL_STAT_EXCH 1 else u.put Fld.STL_STAT_FOFF (unsigned 16 u.stl.held) := by
    rw [stileGood, ← cfg, taking]
  show execStilePacketRx _ lqi evm t0 s = _
  rw [execStilePacketRx, if_neg (by simp [state, flag])]
  simp only [← taking, cfg, plain, whiten]
  simp only [show ((0 : Nat) == 1) = false from rfl, Bool.false_eq_true, if_false, header, taken, check, fits, four, beq_self_eq_true, decide_true,
    Bool.and_self, ← fold, goodCfg, accept, Bool.not_true]
  generalize stlDeliver body q evm (stileGood t0 s) = x
  obtain ⟨v, stored⟩ := x
  cases stored
  case false => rfl
  case true =>
    simp only [boot, Bool.false_and, Bool.false_eq_true, if_false, Bool.not_true, if_true]
    rfl

end

end Sys2Proof.Machine
end

section
/-!
PROOFS. Stile's buffers once a packet is delivered; Bell's sniff, frames and the Hearth answer (R441 to R449).
-/

namespace Sys2Proof.Machine

theorem unsigned_lt (n : Nat) (v : Int) : unsigned n v < 2 ^ n := by
  have positive : (0 : Int) < ((2 ^ n : Nat) : Int) := Int.natCast_pos.2 (Nat.two_pow_pos n)
  have low := Int.emod_nonneg v (Int.ne_of_gt positive)
  have high := Int.emod_lt_of_pos v positive
  rw [unsigned]
  omega

theorem State.rxInfo_full (s : State) : s.rxInfo / 2 ^ 31 % 2 = 1 ∧ s.rxInfo < 2 ^ 32 := by
  have level := unsigned_lt 8 s.stl.rssi
  have estimate := unsigned_lt 16 s.stl.est
  rw [State.rxInfo]
  omega

section
variable (b : Fin 2) (body : List Nat) {info : Nat} (qual : Nat) (r : RegFile)

theorem rfRead_rxDelivered_low {a : Nat} (low : a < Reg.STL_RXb_INFO) : rfRead (rxDelivered b body info qual r) a = rfRead r a := by
  have low' : a < 0x40D0040 := low
  have count : (Fld.STL_CNTn_COUNT.i 1).reg = 0x40D0064 := by decide
  rw [rxDelivered, rfRead_rfPut_ne _ _ (by rw [count]; omega), rfRead_write_ne _ _ (show a ≠ 0x40D0044 + 8 * b.val by omega),
    rfRead_write_ne _ _ (show a ≠ 0x40D0040 + 8 * b.val by omega), rfRead_rfWriteAll_ne _ fun i _ => show a ≠ 0x40D0400 + 512 * b.val + 4 * i by omega]

theorem rfGet_rxDelivered_low {f : Field} (low : f.reg < Reg.STL_RXb_INFO) : rfGet (rxDelivered b body info qual r) f = rfGet r f := by
  rw [rfGet, rfRead_rxDelivered_low b body qual r low, rfGet]

theorem rfGet_rxDelivered_full (full : info / 2 ^ 31 % 2 = 1) (small : info < 2 ^ 32) :
    rfGet (rxDelivered b body info qual r) (Fld.STL_RXb_INFO_FULL.i b) = 1 := by
  have apart : ∀ b : Fin 2, (Fld.STL_CNTn_COUNT.i 1).apart (Fld.STL_RXb_INFO_FULL.i b) = true := by decide
  have quality : ∀ b : Fin 2, ((Fld.STL_RXb_INFO_FULL.i b).reg != Reg.STL_RXb_QUAL + 8 * b.val) = true := by decide
  have register : ∀ b : Fin 2, (Fld.STL_RXb_INFO_FULL.i b).reg = Reg.STL_RXb_INFO + 8 * b.val := by decide
  rw [rxDelivered, rfGet_rfPut_apart _ _ (by decide) (apart b), rfGet_rfWrite_ne _ _ (quality b), rfGet_rfWrite_same _ _ (register b)]
  show (BitVec.ofNat 32 info).toNat / 2 ^ 31 % 2 ^ 1 = 1
  rw [BitVec.toNat_ofNat, Nat.mod_eq_of_lt small]
  exact full

theorem rfGet_rxDelivered_count : rfGet (rxDelivered b body info qual r) (Fld.STL_CNTn_COUNT.i 1) = min (rfGet r (Fld.STL_CNTn_COUNT.i 1) + 1) (2 ^ 32 - 1) := by
  have count : (Fld.STL_CNTn_COUNT.i 1).reg = 0x40D0064 := by decide
  have kept : rfGet (rfWrite (rfWrite (rfWriteAll r (Reg.STL_RXBUF + 512 * b) (packWords body)) (Reg.STL_RXb_INFO + 8 * b) (BitVec.ofNat 32 info))
      (Reg.STL_RXb_QUAL + 8 * b) (BitVec.ofNat 32 qual)) (Fld.STL_CNTn_COUNT.i 1) = rfGet r (Fld.STL_CNTn_COUNT.i 1) := by
    rw [rfGet, count, rfRead_write_ne _ _ (show 0x40D0064 ≠ 0x40D0044 + 8 * b.val by omega),
      rfRead_write_ne _ _ (show 0x40D0064 ≠ 0x40D0040 + 8 * b.val by omega),
      rfRead_rfWriteAll_ne _ fun i _ => show 0x40D0064 ≠ 0x40D0400 + 512 * b.val + 4 * i by omega, rfGet, count]
  rw [rxDelivered]
  refine (rfGet_inc _ (by decide) rfl).trans ?_
  rw [kept]
  rfl

theorem rfRead_rxDelivered_buffer {i : Nat} (inside : i < (packWords body).length) :
    rfRead (rxDelivered b body info qual r) (Reg.STL_RXBUF + 512 * b + 4 * i) = (packWords body)[i] := by
  have count : (Fld.STL_CNTn_COUNT.i 1).reg = 0x40D0064 := by decide
  rw [rxDelivered, rfRead_rfPut_ne _ _ (by rw [count]; show 0x40D0400 + 512 * b.val + 4 * i ≠ _; omega),
    rfRead_write_ne _ _ (show 0x40D0400 + 512 * b.val + 4 * i ≠ 0x40D0044 + 8 * b.val by omega),
    rfRead_write_ne _ _ (show 0x40D0400 + 512 * b.val + 4 * i ≠ 0x40D0040 + 8 * b.val by omega), rfRead_rfWriteAll _ inside]

end

theorem stlNext_buf (n : Nat) (s : State) : (stlNext n s).stl.buf = s.stl.buf := by
  by_cases one : n = 1
  · rw [one, stlNext_one, fromSynth_eq]
  · by_cases two : n = 2
    · rw [two]
      by_cases state : s.get Fld.STL_STAT_STATE = 3
      · rw [stlNext_two_rx state, enterRx_eq]
      · rw [stlNext_two_synth state, fromSynth_eq]
    · rw [stlNext_down one two, stlDown_eq]

theorem stlNext_quiet (n : Nat) {s : State} (quiet : s.get Fld.STL_STAT_SYNCD = 0) : (stlNext n s).get Fld.STL_STAT_SYNCD = 0 := by
  have synth (goal : Nat) : (fromSynth goal s).get Fld.STL_STAT_SYNCD = 0 := by
    rw [fromSynth_eq, State.get_eq_rfGet]
    exact rfGet_rfPut_self _ _ (by decide)
  by_cases one : n = 1
  · rw [one, stlNext_one, synth]
  · by_cases two : n = 2
    · rw [two]
      by_cases state : s.get Fld.STL_STAT_STATE = 3
      · rw [stlNext_two_rx state, enterRx_eq, State.get_eq_rfGet, rfGet_rfPut_apart _ _ (by decide) (by decide), ← State.get_eq_rfGet, quiet]
      · rw [stlNext_two_synth state, synth]
    · obtain ⟨_, _, syncd, _⟩ := stlDownRegs_get s.regs 1
      rw [stlNext_down one two, stlDown_eq, State.get_eq_rfGet, syncd]

theorem sameRegs_stileGood (t0 : Nat) (s : State) : SameRegs [Reg.STL_STAT] s (stileGood t0 s) := by
  obtain ⟨regs, good, same, _, _⟩ := stileGood_eq (s := s) t0
  rw [good]
  exact same.sameRegs

section
variable {s : State} {body : List Nat} {lqi evm t0 : Nat} {b : Fin 2} (state : s.get Fld.STL_STAT_STATE = 3) (syncd : s.get Fld.STL_STAT_SYNCD = 1)
  (plain : getBits Fld.STL_CFG_WHITEN s.stl.cfg = 0) (length : body.length = 4 + body.getD 3 0) (buf : s.stl.buf = b.val) (rom : s.boot.rom = false)
  (address : body.getD 0 0 = s.get Fld.TLY_STAT_ADDR ∨ body.getD 0 0 = 0xFF)
include state syncd plain length buf rom address

theorem stilePacketRx_delivers (bytes : ∀ x ∈ body, x < 256) (free : s.get (Fld.STL_RXb_INFO_FULL.i b) = 0) :
    Gives (.stilePacketRx (body ++ beBytes 2 (crc16 body)) lqi evm t0) s fun t => t.get (Fld.STL_RXb_INFO_FULL.i b) = 1
      ∧ t.stl.buf = 1 - b.val ∧ t.get (Fld.STL_CNTn_COUNT.i 1) = min (s.get (Fld.STL_CNTn_COUNT.i 1) + 1) (2 ^ 32 - 1)
      ∧ (∀ i, i < body.length → (t.rd (Reg.STL_RXBUF + 512 * b + 4 * (i / 4))).toNat / 256 ^ (3 - i % 4) % 256 = body.getD i 0)
      ∧ t.get Fld.STL_STAT_SYNCD = 0 ∧ (s.get Fld.STL_SEQ_RXNEXT = 0 → t.get Fld.STL_STAT_STATE = 3) ∧ (s.get Fld.STL_SEQ_RXNEXT = 1 → t.get Fld.STL_STAT_STATE = 1)
      ∧ t = { s with now := max s.now t0, regs := t.regs, stl := t.stl } := by
  have ran := exec_stilePacketRx (lqi := lqi) (evm := evm) (t0 := t0) state syncd plain length rom address
  dsimp only at ran
  generalize 255 * min lqi ((body.length + 2) * if getBits Fld.STL_CFG_MOD s.stl.cfg = 1 then 4 else 8)
    / ((body.length + 2) * if getBits Fld.STL_CFG_MOD s.stl.cfg = 1 then 4 else 8) = q at ran
  obtain ⟨regs, good, same, quiet, rx⟩ := stileGood_eq (s := s) t0
  have freeU : (stileGood t0 s).get (Fld.STL_RXb_INFO_FULL.i (stileGood t0 s).stl.buf) = 0 := by
    have bufU : (stileGood t0 s).stl.buf = b.val := by rw [good, buf]
    have other : ∀ b : Fin 2, (Fld.STL_RXb_INFO_FULL.i b).reg ∉ [Reg.STL_STAT] := by decide
    rw [bufU, (sameRegs_stileGood t0 s).get (other b), free]
  generalize stileGood t0 s = u at ran good freeU
  have uregs : u.regs = regs := by rw [good]
  have ubuf : u.stl.buf = b.val := by rw [good, buf]
  obtain ⟨full, small⟩ := u.rxInfo_full
  have delivered := stlDeliver_free (body := body) (q := q) (evm := evm) freeU
  rw [uregs, ubuf] at delivered
  generalize u.rxInfo = info at delivered full small
  generalize q % 256 * 2 ^ 24 + evm % 65536 = qual at delivered
  have kept {f : Field} (low : f.reg < Reg.STL_RXb_INFO) : rfGet (rxDelivered b body info qual regs) f = rfGet regs f := rfGet_rxDelivered_low b body qual regs low
  have count : rfGet (rxDelivered b body info qual regs) (Fld.STL_CNTn_COUNT.i 1) = min (s.get (Fld.STL_CNTn_COUNT.i 1) + 1) (2 ^ 32 - 1) := by
    rw [rfGet_rxDelivered_count, State.get_eq_rfGet, rfGet, same _ (by decide), ← rfGet]
  have next : rfGet regs Fld.STL_SEQ_RXNEXT = s.get Fld.STL_SEQ_RXNEXT := by
    rw [State.get_eq_rfGet, rfGet, same _ (by decide), ← rfGet]
  obtain ⟨v, before⟩ : ∃ v : State, v = { u with
      regs := rxDelivered b body info qual regs, stl := { u.stl with buf := 1 - b.val, ant := u.stl.sel } } := ⟨_, rfl⟩
  rw [← before] at delivered
  rw [delivered, if_pos rfl] at ran
  have vregs : v.regs = rxDelivered b body info qual regs := by rw [before]
  have vlow {f : Field} (low : f.reg < Reg.STL_RXb_INFO) : v.get f = rfGet regs f := by rw [State.get_eq_rfGet, vregs, kept low]
  have vnext : v.get Fld.STL_SEQ_RXNEXT = s.get Fld.STL_SEQ_RXNEXT := (vlow (by decide)).trans next
  have vstate : v.get Fld.STL_STAT_STATE = 3 := (vlow (by decide)).trans (rx.trans state)
  have vsyncd : v.get Fld.STL_STAT_SYNCD = 0 := (vlow (by decide)).trans quiet
  obtain ⟨frame, after⟩ := stlNext_frame (rxNext (v.get Fld.STL_SEQ_RXNEXT)) v
  have others := after.sameRegs
  refine Gives.of_eq ran ⟨?_, ?_, ?_, fun i inside => ?_, stlNext_quiet _ vsyncd, fun stays => ?_, fun leaves => ?_, ?_⟩
  · have other : ∀ b : Fin 2, (Fld.STL_RXb_INFO_FULL.i b).reg ∉ [Reg.STL_STAT] := by decide
    rw [others.get (other b), State.get_eq_rfGet, vregs, rfGet_rxDelivered_full b body qual regs full small]
  · rw [stlNext_buf, before]
  · rw [others.get (by decide), State.get_eq_rfGet, vregs, count]
  · have word : i / 4 < (packWords body).length := by
      rw [packWords_length]
      omega
    have apart : Reg.STL_RXBUF + 512 * b.val + 4 * (i / 4) ∉ [Reg.STL_STAT] := by
      rw [List.mem_singleton]
      show ¬ 0x40D0400 + 512 * b.val + 4 * (i / 4) = 0x40D0028
      omega
    rw [others _ apart, State.rd_eq_rfRead, vregs, rfRead_rxDelivered_buffer b body qual regs word, packWords_byte bytes inside word]
  · rw [vnext, stays, show rxNext 0 = 2 from rfl, stlNext_two_rx vstate, enterRx_eq]
    simp (disch := decide) only [State.get_eq_rfGet, rfGet_rfPut_self]
    rfl
  · obtain ⟨down, _⟩ := stlDownRegs_get v.regs 1
    rw [vnext, leaves, show rxNext 1 = 0 from rfl, stlNext_down (by decide) (by decide), stlDown_eq, State.get_eq_rfGet]
    exact down
  · generalize stlNext (rxNext (v.get Fld.STL_SEQ_RXNEXT)) v = t at frame
    rw [frame, before, good]

theorem stilePacketRx_full (prompt : s.stl.late = false) (full : s.get (Fld.STL_RXb_INFO_FULL.i b) = 1) :
    Gives (.stilePacketRx (body ++ beBytes 2 (crc16 body)) lqi evm t0) s fun t => t.stl.buf = b.val
      ∧ t.get (Fld.STL_CNTn_COUNT.i 4) = min (s.get (Fld.STL_CNTn_COUNT.i 4) + 1) (2 ^ 32 - 1)
      ∧ (∀ i < 65, t.rd (Reg.STL_RXBUF + 512 * b + 4 * i) = s.rd (Reg.STL_RXBUF + 512 * b + 4 * i)) := by
  have ran := exec_stilePacketRx (lqi := lqi) (evm := evm) (t0 := t0) state syncd plain length rom address
  dsimp only at ran
  generalize 255 * min lqi ((body.length + 2) * if getBits Fld.STL_CFG_MOD s.stl.cfg = 1 then 4 else 8)
    / ((body.length + 2) * if getBits Fld.STL_CFG_MOD s.stl.cfg = 1 then 4 else 8) = q at ran
  obtain ⟨regs, good, same, _, _⟩ := stileGood_eq (s := s) t0
  have bufU : (stileGood t0 s).stl.buf = b.val := by rw [good, buf]
  have fullU : (stileGood t0 s).get (Fld.STL_RXb_INFO_FULL.i (stileGood t0 s).stl.buf) = 1 := by
    have other : ∀ b : Fin 2, (Fld.STL_RXb_INFO_FULL.i b).reg ∉ [Reg.STL_STAT] := by decide
    rw [bufU, (sameRegs_stileGood t0 s).get (other b), full]
  have late : ((stileGood t0 s).inc (Fld.STL_CNTn_COUNT.i 4)).stl.late = false := by
    rw [State.inc_stl, good, prompt]
  rw [stlDeliver_full fullU, if_neg Bool.false_ne_true, late, if_neg Bool.false_ne_true] at ran
  refine Gives.of_eq ran ⟨?_, ?_, fun i inside => ?_⟩
  · rw [State.inc_stl, bufU]
  · rw [State.get_inc_same _ (by decide), (sameRegs_stileGood t0 s).get (by decide)]
    rfl
  · have count : (Fld.STL_CNTn_COUNT.i 4).reg = 0x40D0070 := by decide
    have apart : Reg.STL_RXBUF + 512 * b.val + 4 * i ∉ [Reg.STL_STAT, (Fld.STL_CNTn_COUNT.i 4).reg] := by
      rw [count]
      simp only [List.mem_cons, List.not_mem_nil, or_false]
      show ¬ (0x40D0400 + 512 * b.val + 4 * i = 0x40D0028 ∨ 0x40D0400 + 512 * b.val + 4 * i = 0x40D0070)
      omega
    exact (((sameRegs_stileGood t0 s).mono (by simp)).inc (f := Fld.STL_CNTn_COUNT.i 4) (by simp)) _ apart

end

end Sys2Proof.Machine
end

section
/-!
PROOFS. What a device reset and a wake keep and leave (R453, R455, R359).
-/

namespace Sys2Proof.Machine

/-- The registers that a device reset keeps read as before. -/
theorem rfRead_filter_hearth (l : RegFile) {a : Nat} (hearth : hearthReg a = true) : rfRead (l.filter fun p => hearthReg p.1) a = rfRead l a := by
  have same : (fun p : Nat × Word => decide (hearthReg p.1 = true ∧ (p.1 == a) = true)) = fun p => p.1 == a := by
    funext p
    by_cases at_ : p.1 = a
    · simp [at_, hearth]
    · simp [at_]
  rw [rfRead, rfRead, List.find?_filter, same]

theorem rfGet_filter_hearth (l : RegFile) {f : Field} (hearth : hearthReg f.reg = true) : rfGet (l.filter fun p => hearthReg p.1) f = rfGet l f := by
  rw [rfGet, rfRead_filter_hearth l hearth, rfGet]

section
variable (s : State)

/-- The registers right after a device reset. -/
def resetRegs (s : State) : RegFile :=
  rfPut (rfPut (s.regs.filter fun p => hearthReg p.1) Fld.AGT_ARB_HEARTH (s.get Fld.AGT_ARB_HEARTH)) Fld.TLY_STAT_ADDR ((s.rd 0x04100200).toNat % 256)

theorem deviceReset_regs : (deviceReset s).regs = resetRegs s := by
  simp -implicitDefEqProofs only [deviceReset, zeroTime, State.put_eq, resetRegs]

theorem deviceReset_mem : (deviceReset s).mem = [] := by
  simp -implicitDefEqProofs only [deviceReset, zeroTime, State.put_eq]
  rfl

theorem deviceReset_pow : (deviceReset s).pow = { s.pow with outAt := s.pow.outAt - s.now, stepAt := s.pow.stepAt - s.now } := by
  simp -implicitDefEqProofs only [deviceReset, zeroTime, State.put_eq]

theorem deviceReset_boot : (deviceReset s).boot = { s.boot with
    devDue := none, booting := false, failed := [], retry := none, rom := false, upAt := s.boot.upAt - s.now } := by
  simp -implicitDefEqProofs only [deviceReset, zeroTime, State.put_eq]

theorem deviceReset_now : (deviceReset s).now = 0 := by
  simp -implicitDefEqProofs only [deviceReset, zeroTime, State.put_eq]

/-- The strap registers. -/
def strapRegs (x : Nat) (r : RegFile) : RegFile :=
  rfPut (rfPut (rfPut r Fld.CLK_REF_MULT (x % 4)) Fld.TLY_STAT_HEAD (x / 4 % 2)) Fld.TLY_STAT_BASE (x / 8 % 8)

theorem sampleStraps_eq : sampleStraps s = { s with
    regs := strapRegs s.boot.straps s.regs
    flt := { s.flt with badStrap := s.boot.straps % 4 == 3 || s.boot.straps / 64 % 4 == 3 }
    boot := { s.boot with inReset := s.boot.straps % 4 == 3 || s.boot.straps / 64 % 4 == 3 } } := by
  simp -implicitDefEqProofs only [sampleStraps, State.put_eq, strapRegs]

theorem wakeNow_eq : wakeNow s = { sampleStraps (deviceReset (s.put Fld.SYS_RSTCAUSE_WAKE 1)) with
    pow := { (deviceReset (s.put Fld.SYS_RSTCAUSE_WAKE 1)).pow with
      left := s.pow.down, down := 0, wakeOut := true, held := false, step := 1, try_ := 1, stepAt := 0, refOff := false }
    bel := { (deviceReset (s.put Fld.SYS_RSTCAUSE_WAKE 1)).bel with on := false, since := none } } := by
  have down : (deviceReset (s.put Fld.SYS_RSTCAUSE_WAKE 1)).pow.down = s.pow.down := by rw [deviceReset_pow, State.put_pow]
  have now := deviceReset_now (s.put Fld.SYS_RSTCAUSE_WAKE 1)
  rw [wakeNow, sampleStraps_eq]
  simp -implicitDefEqProofs only [down, now]

theorem wakeNow_pow : (wakeNow s).pow.wakeOut = true ∧ (wakeNow s).pow.down = 0 ∧ (wakeNow s).pow.held = false ∧ (wakeNow s).pow.step = 1 := by
  rw [wakeNow_eq]
  exact ⟨rfl, rfl, rfl, rfl⟩

theorem wakeNow_mem : (wakeNow s).mem = [] := by
  have mem := deviceReset_mem (s.put Fld.SYS_RSTCAUSE_WAKE 1)
  rw [wakeNow_eq]
  generalize deviceReset (s.put Fld.SYS_RSTCAUSE_WAKE 1) = z at mem
  rw [sampleStraps_eq, mem]

theorem wakeNow_regs : (wakeNow s).regs = strapRegs s.boot.straps (resetRegs (s.put Fld.SYS_RSTCAUSE_WAKE 1)) := by
  have straps : (deviceReset (s.put Fld.SYS_RSTCAUSE_WAKE 1)).boot.straps = s.boot.straps := by rw [deviceReset_boot, State.put_boot]
  have regs := deviceReset_regs (s.put Fld.SYS_RSTCAUSE_WAKE 1)
  rw [wakeNow_eq]
  generalize deviceReset (s.put Fld.SYS_RSTCAUSE_WAKE 1) = z at straps regs
  rw [sampleStraps_eq, straps, regs]

/-- A field of the Hearth domain that neither the straps nor the address register hold keeps its value over a wake. -/
theorem wakeNow_get {f : Field} (hearth : hearthReg f.reg = true)
    (other : f.reg ≠ Reg.SYS_RSTCAUSE ∧ f.reg ≠ Fld.AGT_ARB_HEARTH.reg ∧ f.reg ≠ Fld.TLY_STAT_ADDR.reg ∧ f.reg ≠ Fld.CLK_REF_MULT.reg) :
    (wakeNow s).get f = s.get f := by
  obtain ⟨cause, count, status, ref⟩ := other
  rw [State.get_eq_rfGet, wakeNow_regs, strapRegs, resetRegs, rfGet, rfRead_rfPut_ne (f := Fld.TLY_STAT_BASE) _ _ status,
    rfRead_rfPut_ne (f := Fld.TLY_STAT_HEAD) _ _ status, rfRead_rfPut_ne _ _ ref, rfRead_rfPut_ne _ _ status, rfRead_rfPut_ne _ _ count,
    rfRead_filter_hearth _ hearth, State.put_regs, rfRead_rfPut_ne (f := Fld.SYS_RSTCAUSE_WAKE) _ _ cause, ← rfGet, ← State.get_eq_rfGet]

theorem wakeNow_cause : (wakeNow s).get Fld.SYS_RSTCAUSE_WAKE = 1 := by
  rw [State.get_eq_rfGet, wakeNow_regs]
  simp (disch := decide) only [strapRegs, resetRegs, rfGet_rfPut_apart, rfGet_filter_hearth, State.put_regs, rfGet_rfPut_self]
  rfl

end

end Sys2Proof.Machine
end

section
/-!
PROOFS. Bell's sniff, its frames and the Hearth answer (R444 to R449).
-/

namespace Sys2Proof.Machine

section
variable {s : State} {t0 : Nat}

theorem exec_bellSniff (down : s.pow.down = 2) (on : s.bel.on = true) (idle : s.bel.since = none) (runs : s.calen.runs = true)
    (hearth : s.pow.hearth = true) :
    exec (.bellSniff true t0) s = .next { s with now := max s.now t0, bel := { s.bel with since := some (max s.now t0) } }
      ∧ exec (.bellSniff false t0) s = .next { s with now := max s.now t0 } := by
  have listens : s.pow.down = 2 ∧ s.pow.hearth ∧ s.bel.on ∧ s.bel.since = none ∧ s.calen.runs := ⟨down, hearth, on, idle, runs⟩
  constructor
  · show execBellSniff true t0 s = _
    rw [execBellSniff, if_pos listens]
    rfl
  · show execBellSniff false t0 s = _
    rw [execBellSniff, if_pos listens]
    rfl

/-- A count of Bell goes on by one once the frame has ended. -/
theorem bellCounted (n : Nat) (since : Option Nat) : ((s.setBel { s.bel with since := since }).inc (Fld.BEL_CNTn_COUNT.i n)) =
    { s with regs := rfPut s.regs (Fld.BEL_CNTn_COUNT.i n) (min (rfGet s.regs (Fld.BEL_CNTn_COUNT.i n) + 1) (2 ^ 32 - 1)), bel := { s.bel with since := since } } := by
  simp -implicitDefEqProofs only [State.setBel, State.inc_eq, show (Fld.BEL_CNTn_COUNT.i n).width = 32 from rfl]

theorem bellCount_get (n : Nat) (l : RegFile) : rfGet (rfPut l (Fld.BEL_CNTn_COUNT.i n) (min (rfGet l (Fld.BEL_CNTn_COUNT.i n) + 1) (2 ^ 32 - 1)))
    (Fld.BEL_CNTn_COUNT.i n) = min (rfGet l (Fld.BEL_CNTn_COUNT.i n) + 1) (2 ^ 32 - 1) :=
  rfGet_inc l (show (Fld.BEL_CNTn_COUNT.i n).fits = true from rfl) rfl

variable {d : Nat} (since : s.bel.since = some d)
include since

theorem bellStartTimeout_gives : Gives .bellStartTimeout s fun t => t.bel = { s.bel with since := none }
    ∧ t.now = max s.now (d + s.sniffU + 30 * msU) ∧ t.get (Fld.BEL_CNTn_COUNT.i 0) = min (s.get (Fld.BEL_CNTn_COUNT.i 0) + 1) (2 ^ 32 - 1)
    ∧ t = { s with now := t.now, regs := t.regs, bel := t.bel } := by
  have ran : exec .bellStartTimeout s = .next { s with
      now := max s.now (d + s.sniffU + 30 * msU)
      regs := rfPut s.regs (Fld.BEL_CNTn_COUNT.i 0) (min (rfGet s.regs (Fld.BEL_CNTn_COUNT.i 0) + 1) (2 ^ 32 - 1))
      bel := { s.bel with since := none } } := by
    show execBellStartTimeout s = _
    simp only [execBellStartTimeout, since]
    refine congrArg Host.Outcome.next ((bellCounted (s := s.at (d + s.sniffU + 30 * msU)) 0 none).trans ?_)
    simp -implicitDefEqProofs only [State.at]
  refine Gives.of_eq ran ⟨rfl, rfl, ?_, rfl⟩
  rw [State.get_eq_rfGet]
  exact bellCount_get 0 s.regs

theorem exec_bellFrame_bad {code chk : BitVec 16} (bad : chk ≠ ~~~code) :
    exec (.bellFrame code chk t0) s = .next (((s.at t0).setBel { (s.at t0).bel with since := none }).inc (Fld.BEL_CNTn_COUNT.i 1)) := by
  show execBellFrame code chk t0 s = _
  simp only [execBellFrame, since]
  rw [if_pos bad]

theorem exec_bellFrame_other {code chk : BitVec 16} (good : chk = ~~~code) (other : s.bellMatch code.toNat = none) :
    exec (.bellFrame code chk t0) s = .next (((s.at t0).setBel { (s.at t0).bel with since := none }).inc (Fld.BEL_CNTn_COUNT.i 2)) := by
  have same : ((s.at t0).setBel { (s.at t0).bel with since := none }).bellMatch code.toNat = none := other
  show execBellFrame code chk t0 s = _
  simp only [execBellFrame, since]
  rw [if_neg (not_not.2 good), same]

theorem bellFrame_bad {code chk : BitVec 16} (bad : chk ≠ ~~~code) : Gives (.bellFrame code chk t0) s fun t => t.bel = { s.bel with since := none }
    ∧ t.pow = s.pow ∧ t.get (Fld.BEL_CNTn_COUNT.i 1) = min (s.get (Fld.BEL_CNTn_COUNT.i 1) + 1) (2 ^ 32 - 1) := by
  refine Gives.of_eq ((exec_bellFrame_bad since bad).trans (congrArg Host.Outcome.next (bellCounted 1 none))) ⟨rfl, rfl, ?_⟩
  rw [State.get_eq_rfGet]
  exact bellCount_get 1 s.regs

theorem bellFrame_other {code chk : BitVec 16} (good : chk = ~~~code) (other : s.bellMatch code.toNat = none) :
    Gives (.bellFrame code chk t0) s fun t => t.bel = { s.bel with since := none } ∧ t.pow = s.pow
      ∧ t.get (Fld.BEL_CNTn_COUNT.i 2) = min (s.get (Fld.BEL_CNTn_COUNT.i 2) + 1) (2 ^ 32 - 1) := by
  refine Gives.of_eq ((exec_bellFrame_other since good other).trans (congrArg Host.Outcome.next (bellCounted 2 none))) ⟨rfl, rfl, ?_⟩
  rw [State.get_eq_rfGet]
  exact bellCount_get 2 s.regs

/-- BEL_STAT once a wake code has matched, as far as the answer goes. -/
def bellMatched (src code : Nat) (answers : Bool) (r : RegFile) : RegFile :=
  let r := rfPut (rfPut (rfPut r Fld.BEL_STAT_MATCH 1) Fld.BEL_STAT_SRC src) Fld.BEL_STAT_CODE code
  if answers then r else rfPut r Fld.BEL_STAT_NOANS 1

omit since in
theorem rfGet_bellMatched {src code : Nat} (source : src < 8) (word : code < 65536) (answers : Bool) (r : RegFile) :
    rfGet (bellMatched src code answers r) Fld.BEL_STAT_MATCH = 1 ∧ rfGet (bellMatched src code answers r) Fld.BEL_STAT_CODE = code
      ∧ rfGet (bellMatched src code answers r) Fld.BEL_STAT_SRC = src := by
  have src8 : src % 2 ^ Fld.BEL_STAT_SRC.width = src := Nat.mod_eq_of_lt source
  have code16 : code % 2 ^ Fld.BEL_STAT_CODE.width = code := Nat.mod_eq_of_lt word
  cases answers
  all_goals simp (disch := decide) only [bellMatched, Bool.false_eq_true, if_false, if_true, rfGet_rfPut_self, rfGet_rfPut_apart, src8, code16]
  · exact ⟨rfl, trivial, trivial⟩
  · exact ⟨rfl, trivial, trivial⟩

omit since in
theorem bellMatch_lt {code src : Nat} (found : s.bellMatch code = some src) : src < 8 := by
  rw [State.bellMatch] at found
  split at found
  · obtain rfl := Option.some.inj found
    decide
  · obtain ⟨n, among, rfl⟩ := Option.map_eq_some_iff.1 found
    have small := List.mem_range.1 (List.mem_of_find?_eq_some among)
    omega

theorem exec_bellFrame_match {code chk : BitVec 16} {src : Nat} (good : chk = ~~~code)
    (found : s.bellMatch code.toNat = some src) : ∃ answer, (s.get Fld.BEL_CFG_ANS = 1 → bitOf s.pow.rails 7 = false → answer = some (max s.now t0))
      ∧ exec (.bellFrame code chk t0) s = .next (wakeDevice { s with
        now := max s.now t0
        regs := bellMatched src code.toNat (!bitOf s.pow.rails 7) s.regs
        bel := { s.bel with since := none, on := false, answer := answer } }) := by
  have same : ((s.at t0).setBel { (s.at t0).bel with since := none }).bellMatch code.toNat = some src := found
  have ans {v : Nat} : rfGet (rfPut (rfPut (rfPut s.regs Fld.BEL_STAT_MATCH 1) Fld.BEL_STAT_SRC src) Fld.BEL_STAT_CODE v) Fld.BEL_CFG_ANS = s.get Fld.BEL_CFG_ANS := by
    simp (disch := decide) only [rfGet_rfPut_apart, State.get_eq_rfGet]
  refine ⟨if !bitOf s.pow.rails 7 && s.flag Fld.BEL_CFG_ANS then some (max s.now t0) else none, fun asked standby => ?_, ?_⟩
  · rw [standby, State.flag_of_get_one asked]
    rfl
  · show execBellFrame code chk t0 s = _
    simp only [execBellFrame, since]
    rw [if_neg (not_not.2 good), same]
    cases rails : bitOf s.pow.rails 7
    case false =>
      simp -implicitDefEqProofs only [State.setBel, State.at, State.put_eq, rails, Bool.not_false, if_true, Bool.true_and, State.flag_eq_rfGet, ans,
        bellMatched]
      rw [State.get_eq_rfGet]
    case true =>
      simp -implicitDefEqProofs only [State.setBel, State.at, State.put_eq, rails, Bool.not_true, Bool.false_eq_true, if_false, Bool.false_and, bellMatched]

end

/-- A wake within 10 ms of the fall of WAKE_OUT is held; a later one takes place (R359). -/
theorem wakeDevice_held {s : State} (down : s.pow.down ≠ 0) (early : s.now < s.pow.outAt + 10 * msU) :
    wakeDevice s = { s with pow := { s.pow with held := true } } := by
  rw [wakeDevice, if_neg down, if_pos early]

theorem wakeDevice_now {s : State} (down : s.pow.down ≠ 0) (late : s.pow.outAt + 10 * msU ≤ s.now) : wakeDevice s = wakeNow s := by
  rw [wakeDevice, if_neg down, if_neg (by omega)]

section
variable {s : State} {t0 d src : Nat} {code chk : BitVec 16} (since : s.bel.since = some d) (down : s.pow.down ≠ 0) (good : chk = ~~~code)
  (found : s.bellMatch code.toNat = some src)
include since down good found

theorem bellFrame_held (early : max s.now t0 < s.pow.outAt + 10 * msU) : Gives (.bellFrame code chk t0) s fun t => t.pow.held = true
    ∧ t.bel.on = false ∧ t.bel.since = none ∧ t.get Fld.BEL_STAT_MATCH = 1 ∧ t.get Fld.BEL_STAT_CODE = code.toNat ∧ t.get Fld.BEL_STAT_SRC = src
    ∧ (s.get Fld.BEL_CFG_ANS = 1 → bitOf s.pow.rails 7 = false → t.bel.answer = some (max s.now t0)) := by
  obtain ⟨answer, answers, ran⟩ := exec_bellFrame_match (t0 := t0) since good found
  obtain ⟨hit, word, source⟩ := rfGet_bellMatched (bellMatch_lt found) code.isLt (!bitOf s.pow.rails 7) s.regs
  refine Gives.of_eq (ran.trans (congrArg Host.Outcome.next (wakeDevice_held ?_ ?_))) ⟨rfl, rfl, rfl, ?_, ?_, ?_, answers⟩
  · exact down
  · exact early
  all_goals rw [State.get_eq_rfGet]
  · exact hit
  · exact word
  · exact source

theorem bellFrame_wakes (late : s.pow.outAt + 10 * msU ≤ max s.now t0) : Gives (.bellFrame code chk t0) s fun t =>
    t.pow.wakeOut = true ∧ t.pow.down = 0 ∧ t.pow.step = 1 ∧ t.get Fld.SYS_RSTCAUSE_WAKE = 1 ∧ t.mem = [] := by
  obtain ⟨answer, _, ran⟩ := exec_bellFrame_match (t0 := t0) since good found
  obtain ⟨out, up, _, step⟩ := wakeNow_pow { s with
    now := max s.now t0
    regs := bellMatched src code.toNat (!bitOf s.pow.rails 7) s.regs
    bel := { s.bel with since := none, on := false, answer := answer } }
  refine Gives.of_eq (ran.trans (congrArg Host.Outcome.next (wakeDevice_now ?_ ?_))) ⟨out, up, step, wakeNow_cause _, wakeNow_mem _⟩
  · exact down
  · exact late

end

theorem hearthAnswerEnd_gives {s : State} {d t0 : Nat} (answer : s.bel.answer = some d) : Gives (.hearthAnswerEnd t0) s fun t =>
    t.get Fld.BEL_STAT_ANSWERED = 1 ∧ t.bel = { s.bel with answer := none }
    ∧ t.now = max s.now (min t0 (d + 10 * msU)) ∧ (∃ args bytes, t.out = .stile args bytes (stileSymbols args bytes) :: s.out)
    ∧ t = { s with now := t.now, out := t.out, regs := t.regs, bel := t.bel } ∧ SameRegs [Reg.BEL_STAT] s t := by
  have ran : ∃ args bytes, exec (.hearthAnswerEnd t0) s = .next { s with
      now := max s.now (min t0 (d + 10 * msU))
      out := .stile args bytes (stileSymbols args bytes) :: s.out
      regs := rfPut s.regs Fld.BEL_STAT_ANSWERED 1
      bel := { s.bel with answer := none } } := by
    have same : exec (.hearthAnswerEnd t0) s = execHearthAnswerEnd t0 s := rfl
    rw [same]
    simp -implicitDefEqProofs only [execHearthAnswerEnd, answer, State.radiate_eq, State.put_eq, State.setBel, State.at]
    exact ⟨_, _, rfl⟩
  obtain ⟨args, bytes, ran⟩ := ran
  refine Gives.of_eq ran ⟨?_, rfl, rfl, ⟨args, bytes, rfl⟩, rfl, ((RfSame.refl _ _).put (by decide) _).sameRegs⟩
  rw [State.get_eq_rfGet]
  exact rfGet_rfPut_self _ _ (by decide)

end Sys2Proof.Machine
end

section
/-!
PROOFS. Stile and Bell, assembled.
-/

namespace Sys2Proof.Machine

section
variable {s : State} (t0 : Nat)

theorem stileStateReached_standby (calibrates : s.get Fld.STL_STAT_STATE = 5) (down : s.stl.goal < 2) :
    Gives (.stileStateReached t0) s fun t => t.get Fld.STL_STAT_STATE = 1 ∧ t.stl = s.stl
      ∧ t = { s with now := max s.now t0, regs := t.regs, stl := t.stl } ∧ SameRegs [Reg.STL_STAT] s t := by
  refine Gives.of_eq (exec_stileStateReached_standby t0 calibrates down) ⟨?_, rfl, rfl, ((RfSame.refl _ _).put (by decide) _).sameRegs⟩
  rw [State.get_eq_rfGet]
  exact rfGet_rfPut_self _ _ (by decide)

theorem stileStateReached_rx (synth : s.get Fld.STL_STAT_STATE = 2) (lock : s.stl.lock = true) (goal : s.stl.goal = 3) :
    Gives (.stileStateReached t0) s fun t => t.get Fld.STL_STAT_STATE = 3 ∧ t.stl = { s.stl with rxAt := max s.now t0, late := false }
      ∧ t = { s with now := max s.now t0, regs := t.regs, stl := t.stl } ∧ SameRegs [Reg.STL_STAT] s t := by
  refine Gives.of_eq (exec_stileStateReached_rx t0 synth lock goal) ⟨?_, rfl, rfl, ((RfSame.refl _ _).put (by decide) _).sameRegs⟩
  rw [State.get_eq_rfGet]
  exact rfGet_rfPut_self _ _ (by decide)

theorem stileLock_unlatched (unlatched : s.get Fld.STL_STAT_LATCHED = 0) {i : Instr} (ran : exec i s = .next (stlLock (s.at t0))) :
    Gives i s fun t => t.stl = { s.stl with lock := true, entered := none }
      ∧ t = { s with now := max s.now t0, regs := t.regs, stl := t.stl } ∧ SameRegs [Reg.STL_STAT] s t := by
  rw [stlLock_of_unlatched t0 unlatched] at ran
  exact Gives.of_eq ran ⟨rfl, rfl, (RfSame.refl _ _).sameRegs⟩

variable (synth : s.get Fld.STL_STAT_STATE = 2) (lock : s.stl.lock = false)
include synth lock

theorem stileSynthLock_latched (latched : s.get Fld.STL_STAT_LATCHED = 1) : Gives (.stileSynthLock t0) s fun t => t.get Fld.STL_STAT_STATE = 4
    ∧ t.get Fld.STL_STAT_LATCHED = 0 ∧ t.stl.lock = true
    ∧ t = { s with now := max s.now t0, regs := t.regs, stl := t.stl } ∧ SameRegs [Reg.STL_STAT] s t := by
  obtain ⟨packet, started⟩ := stlLock_of_latched t0 latched
  have ran := exec_stileSynthLock t0 synth lock
  rw [started] at ran
  refine Gives.of_eq ran ⟨?_, ?_, rfl, rfl, (((RfSame.refl _ _).put (by decide) _).put (by decide) _).sameRegs⟩
  all_goals simp (disch := decide) only [State.get_eq_rfGet, rfGet_rfPut_self, rfGet_rfPut_apart]
  · rfl
  · rfl

end

/-- Settles O58: each command, state and frame by its lemma. -/
theorem stileAndBell : Obligations.StileAndBell := by
  refine ⟨⟨fun s r taken free => ?_, fun s r taken answer i listed => stile_answering taken answer listed, fun s t0 => ?_,
      fun s d entered latched => stileTxWaitTimeout_gives entered latched, fun s t0 sends goal => stilePacketSent_gives t0 sends goal⟩,
    fun s a b t0 state quiet => exec_stilePreambleDetect state a b t0 quiet, fun s off rssi t0 state quiet => ?_,
    fun s body lqi evm t0 b state syncd plain length _ buf rom address bytes => ?_, fun s state window => ?_,
    fun s t0 down on idle runs hearth => exec_bellSniff down on idle runs hearth, fun s d since => bellStartTimeout_gives since,
    fun s d code chk t0 since down => ?_, fun s d t0 answer => hearthAnswerEnd_gives answer⟩
  · refine ⟨stileSleep_gives taken free, stileStandby_gives taken free, stileStandby_wakes taken free, stileSynth_gives taken free,
      stileRx_gives taken free, fun latched => ⟨?_, ?_⟩, fun sending => ?_, fun unlatched idle syncd => ?_, stileTx_gives taken free⟩
    · exact Gives.of_eq (exec_stileRx_latched taken free latched) (stlRefuse_refused (by decide))
    · exact Gives.of_eq (exec_stileTx_cut taken free (stlCut_of_latched latched)) (stlRefuse_refused (by decide))
    · exact Gives.of_eq (exec_stileTx_cut taken free (stlCut_of_sending sending)) (stlRefuse_refused (by decide))
    · exact Gives.of_eq (exec_stileTx_synced taken free (stlCut_of_idle unlatched idle) syncd) (stlRefuse_refused (by decide))
  · refine ⟨stileStateReached_standby t0, stileStateReached_rx t0, fun synth lock unlatched => ⟨?_, ?_⟩, stileSynthLock_latched t0⟩
    · exact stileLock_unlatched t0 unlatched (exec_stileSynthLock t0 synth lock)
    · exact stileLock_unlatched t0 unlatched (exec_stileStateReached_lock t0 synth lock)
  · exact ⟨stileSyncDetect_gives state off rssi t0 quiet, exec_stileSyncDetect_far off rssi t0⟩
  · exact ⟨stilePacketRx_delivers state syncd plain length buf rom address bytes,
      fun full prompt => stilePacketRx_full state syncd plain length buf rom address prompt full⟩
  · exact ⟨stileRxTimeout_quiet state window, exec_stileRxTimeout_synced state window⟩
  · exact ⟨bellFrame_bad since, bellFrame_other since, fun src good found early => bellFrame_held since down good found early,
      fun src good found late => bellFrame_wakes since down good found late⟩

end Sys2Proof.Machine
end

section
/-!
PROOFS. The calendar and the wakes of the Hearth domain (R228, R229, R359, R386).
-/

namespace Sys2Proof.Machine

section
variable {s : State} (t0 : Nat)

theorem exec_calendarCompensation_stopped (stopped : s.calen.runs = false) : exec (.calendarCompensation t0) s = .next (s.at t0) := by
  show execCalendarCompensation t0 s = _
  simp only [execCalendarCompensation, State.at_calen, stopped, Bool.not_false, if_true]

/-- Whole cycles of the oscillator, counted up to now. -/
theorem rebase_runs (s : State) (runs : s.calen.runs = true) : (s.calen.rebase s.now s.now).count = s.calendar
    ∧ (s.calen.rebase s.now s.now).rest = s.calen.rest ∧ (s.calen.rebase s.now s.now).at0 = s.now := by
  rw [State.calendar, if_pos runs, Calendar.rebase, if_pos runs]
  exact ⟨rfl, rfl, rfl⟩

theorem calendarCompensation_gives (runs : s.calen.runs = true) :
    let u := s.at t0
    let d := u.calTemp - 8 * signed 8 (s.get Fld.HTH_XCOMP_T0)
    let sum := s.calen.rest + 4096 * (2560 * signed 16 (s.get Fld.HTH_XCOMP_OFFS) - (s.get Fld.HTH_XCOMP_K : Int) * d * d)
    Gives (.calendarCompensation t0) s fun t => t.calen.count = ((u.calendar : Int) - sum.tdiv 1000000000).toNat
      ∧ t.calen.rest = sum - sum.tdiv 1000000000 * 1000000000 ∧ t.calen.at0 = max s.now t0 ∧ t = { s with now := max s.now t0, calen := t.calen } := by
  intro u d sum
  obtain ⟨count, _, at0⟩ := rebase_runs u runs
  have ran : exec (.calendarCompensation t0) s = .next (u.setCalen { u.calen.rebase u.now u.now with
      count := (((u.calen.rebase u.now u.now).count : Int) - sum.tdiv 1000000000).toNat, rest := sum - sum.tdiv 1000000000 * 1000000000 }) := by
    have runs' : u.calen.runs = true := runs
    show execCalendarCompensation t0 s = _
    simp only [execCalendarCompensation]
    rw [if_neg (show ¬ (!u.calen.runs) = true by rw [runs']; decide)]
    rfl
  rw [State.setCalen] at ran
  refine Gives.of_eq ran ⟨?_, rfl, at0, rfl⟩
  rw [count]

/-- HTH_CAL_CTRL once the oscillator has failed. -/
theorem exec_calendarOscFail : exec (.calendarOscFail t0) s = .next { s with
    now := max s.now t0
    regs := rfPut (rfPut s.regs Fld.HTH_CAL_CTRL_VALID 0) Fld.HTH_CAL_CTRL_OSCFAIL 1
    calen := { s.calen with count := (s.at t0).calendar, at0 := max s.now t0, part := 0, runs := false }
    bel := { s.bel with since := none } } := by
  show execCalendarOscFail t0 s = _
  simp -implicitDefEqProofs only [execCalendarOscFail, State.setCalen, State.put_eq, State.at]

theorem exec_calendarLoad {d : Nat} (due : s.calen.syncAt = some d) : exec .calendarLoad s = .next { s with
    now := max s.now d
    regs := rfPut (rfPut (rfPut (rfPut s.regs Fld.HTH_CAL_CTRL_VALID 1) Fld.HTH_CAL_CTRL_OSCFAIL 0) Fld.HTH_CAL_CTRL_SYNCPEND 0) Fld.HTH_CAL_CTRL_SYNC 0
    calen := { s.calen with count := secOf (max s.now d) * 32768, at0 := max s.now d, part := 0, runs := true, syncAt := none } } := by
  show execCalendarLoad s = _
  simp -implicitDefEqProofs only [execCalendarLoad, due, State.setCalen, State.put_eq, State.at]

theorem exec_calendarAlarm (down : s.pow.down ≠ 0) (enabled : s.get Fld.HTH_WAKECFG_ALARM_EN = 1) (valid : s.get Fld.HTH_CAL_CTRL_VALID = 1)
    (hit : (s.at t0).calSec % 2 ^ 32 = s.get Fld.HTH_ALARM_SEC) :
    exec (.calendarAlarm t0) s = .next (wakeDevice { s with now := max s.now t0, regs := rfPut s.regs Fld.HTH_WAKECFG_ALARM_HIT 1 }) := by
  have asked : ((s.at t0).pow.down != 0 && (s.at t0).flag Fld.HTH_WAKECFG_ALARM_EN && (s.at t0).flag Fld.HTH_CAL_CTRL_VALID
      && (s.at t0).calSec % 2 ^ 32 == (s.at t0).get Fld.HTH_ALARM_SEC) = true := by
    have en : (s.at t0).flag Fld.HTH_WAKECFG_ALARM_EN = true := State.flag_of_get_one (s := s.at t0) enabled
    have ok : (s.at t0).flag Fld.HTH_CAL_CTRL_VALID = true := State.flag_of_get_one (s := s.at t0) valid
    have off : ((s.at t0).pow.down != 0) = true := bne_iff_ne.2 down
    rw [en, ok, off, hit, State.get_at, beq_self_eq_true]
    rfl
  show execCalendarAlarm t0 s = _
  simp only [execCalendarAlarm]
  rw [if_pos asked, State.put_eq, State.at]

end

section
variable {s : State} {r : Req} {v : Word} (taken : Takes s r Reg.HTH_CAL_CTRL) (sync : v.getLsbD 0 = true)

/-- The table of HTH_CAL_CTRL. -/
def calCtrlDesc : RegDesc := ⟨Reg.HTH_CAL_CTRL, [], [Fld.HTH_CAL_CTRL_VALID, Fld.HTH_CAL_CTRL_OSCFAIL, Fld.HTH_CAL_CTRL_SYNCPEND, Fld.HTH_CAL_CTRL_SYNC]⟩

theorem descOf_calCtrl : descOf Reg.HTH_CAL_CTRL = some calCtrlDesc := by decide +kernel

/-- The register as the write stores it, SYNC aside. -/
def calCtrlStored (s : State) (v : Word) : State := s.wr Reg.HTH_CAL_CTRL (wordWrite false calCtrlDesc (v &&& 0xFFFFFFFE#32) (s.rd Reg.HTH_CAL_CTRL))

include taken sync

theorem exec_calendarSyncWrite_stepped (stepped : s.get Fld.TIM_STAT_STEPPED = 1) : ∃ w, exec (.calendarSyncWrite r v) s = .next { s with
    resp := { err := false, data := 0 }
    regs := rfPut (rfPut (rfWrite s.regs Reg.HTH_CAL_CTRL w) Fld.HTH_CAL_CTRL_SYNC 1) Fld.HTH_CAL_CTRL_SYNCPEND 1
    calen := { s.calen with syncAt := some (nextMult (s.now + msU) secU) } } := by
  have stored := State.storeReg_unguarded (s := s.ok) descOf_calCtrl (by decide) r (v &&& 0xFFFFFFFE#32)
  have flag : (calCtrlStored s.ok v).flag Fld.TIM_STAT_STEPPED = true := by
    refine State.flag_of_get_one (Eq.trans ?_ stepped)
    rw [calCtrlStored, State.get, State.rd_wr_ne _ _ (by decide)]
    rfl
  refine ⟨wordWrite false calCtrlDesc (v &&& 0xFFFFFFFE#32) (s.rd Reg.HTH_CAL_CTRL), ?_⟩
  refine congrArg Host.Outcome.next ((regCmd_ok taken).trans ?_)
  rw [calCtrlWrite, stored, ← calCtrlStored]
  simp only [sync, flag, Bool.not_true, Bool.false_eq_true, if_false]
  rw [calCtrlStored, State.rd_ok]
  generalize wordWrite _ _ _ _ = w
  simp -implicitDefEqProofs only [State.setCalen, State.put_eq, State.wr_eq, State.ok]

theorem exec_calendarSyncWrite_refused (unstepped : s.get Fld.TIM_STAT_STEPPED = 0) :
    exec (.calendarSyncWrite r v) s = .next ((calCtrlStored s.ok v).refuse4 r Reg.HTH_CAL_CTRL) := by
  have stored := State.storeReg_unguarded (s := s.ok) descOf_calCtrl (by decide) r (v &&& 0xFFFFFFFE#32)
  have flag : (calCtrlStored s.ok v).flag Fld.TIM_STAT_STEPPED = false := by
    refine State.flag_of_get_zero (Eq.trans ?_ unstepped)
    rw [calCtrlStored, State.get, State.rd_wr_ne _ _ (by decide)]
    rfl
  refine congrArg Host.Outcome.next ((regCmd_ok taken).trans ?_)
  rw [calCtrlWrite, stored, ← calCtrlStored]
  simp only [sync, flag, Bool.not_true, Bool.not_false, Bool.false_eq_true, if_false, if_true]

end

section
variable {s : State} {t0 : Nat}

theorem calendarOscFail_gives : Gives (.calendarOscFail t0) s fun t => t.get Fld.HTH_CAL_CTRL_VALID = 0 ∧ t.get Fld.HTH_CAL_CTRL_OSCFAIL = 1
    ∧ t.calen.runs = false ∧ t.calen.count = (s.at t0).calendar
    ∧ t = { s with now := max s.now t0, regs := t.regs, calen := t.calen, bel := { s.bel with since := none } } ∧ SameRegs [Reg.HTH_CAL_CTRL] s t := by
  refine Gives.of_eq (exec_calendarOscFail t0) ⟨?_, ?_, rfl, rfl, rfl, (((RfSame.refl _ _).put (by decide) _).put (by decide) _).sameRegs⟩
  all_goals simp (disch := decide) only [State.get_eq_rfGet, rfGet_rfPut_self, rfGet_rfPut_apart]
  · rfl
  · rfl

theorem calendarLoad_gives {d : Nat} (due : s.calen.syncAt = some d) : Gives .calendarLoad s fun t => t.calen.count = secOf (max s.now d) * 32768
    ∧ t.calen.runs = true ∧ t.calen.syncAt = none ∧ t.get Fld.HTH_CAL_CTRL_VALID = 1
    ∧ t.get Fld.HTH_CAL_CTRL_SYNC = 0 ∧ t.get Fld.HTH_CAL_CTRL_SYNCPEND = 0 ∧ t = { s with now := max s.now d, regs := t.regs, calen := t.calen }
    ∧ SameRegs [Reg.HTH_CAL_CTRL] s t := by
  refine Gives.of_eq (exec_calendarLoad due) ⟨rfl, rfl, rfl, ?_, ?_, ?_, rfl,
    (((((RfSame.refl _ _).put (by decide) _).put (by decide) _).put (by decide) _).put (by decide) _).sameRegs⟩
  all_goals simp (disch := decide) only [State.get_eq_rfGet, rfGet_rfPut_self, rfGet_rfPut_apart]
  · rfl
  · rfl
  · rfl

theorem calendarSyncWrite_gives {r : Req} {v : Word} (taken : Takes s r Reg.HTH_CAL_CTRL) (sync : v.getLsbD 0 = true)
    (stepped : s.get Fld.TIM_STAT_STEPPED = 1) : Gives (.calendarSyncWrite r v) s fun t => t.get Fld.HTH_CAL_CTRL_SYNC = 1
      ∧ t.get Fld.HTH_CAL_CTRL_SYNCPEND = 1 ∧ t.calen = { s.calen with syncAt := some (nextMult (s.now + msU) secU) }
      ∧ t = { s with resp := { err := false, data := 0 }, regs := t.regs, calen := t.calen } ∧ SameRegs [Reg.HTH_CAL_CTRL] s t := by
  obtain ⟨w, ran⟩ := exec_calendarSyncWrite_stepped taken sync stepped
  refine Gives.of_eq ran ⟨?_, ?_, rfl, rfl, ((((RfSame.refl _ _).write (by decide) _).put (by decide) _).put (by decide) _).sameRegs⟩
  all_goals simp (disch := decide) only [State.get_eq_rfGet, rfGet_rfPut_self, rfGet_rfPut_apart]
  · rfl
  · rfl

theorem calendarSyncWrite_refused {r : Req} {v : Word} (taken : Takes s r Reg.HTH_CAL_CTRL) (sync : v.getLsbD 0 = true)
    (unstepped : s.get Fld.TIM_STAT_STEPPED = 0) : Gives (.calendarSyncWrite r v) s fun t =>
      t.get Fld.HTH_CAL_CTRL_SYNCPEND = s.get Fld.HTH_CAL_CTRL_SYNCPEND ∧ t.calen = s.calen := by
  obtain ⟨u, notice, refused⟩ := noticeOnly_refuse4 (calCtrlStored s.ok v) r Reg.HTH_CAL_CTRL
  refine Gives.of_eq (exec_calendarSyncWrite_refused taken sync unstepped) ⟨?_, ?_⟩
  · rw [State.get_refuse4 _ _ _ (by decide) (by decide), State.get_eq_rfGet, calCtrlStored, State.wr_regs, rfGet_rfWrite_same _ _ (by decide),
      getBits_wordWrite_kept (by decide) (by decide)]
    rfl
  · rw [refused, notice.eq, calCtrlStored, State.wr_eq]
    rfl

theorem exec_hearthMonitor_off {mv : Nat} {temp : Int} (off : s.pow.down = 0 ∨ s.pow.hearth = false) :
    exec (.hearthMonitorConversion mv temp t0) s = .next s := by
  show execHearthMonitorConversion mv temp t0 s = _
  rw [execHearthMonitorConversion, if_pos (off.imp_right fun h => by rw [h]; decide)]

theorem hearthMonitor_gives {mv : Nat} {temp : Int} (down : s.pow.down ≠ 0) (hearth : s.pow.hearth = true) :
    Gives (.hearthMonitorConversion mv temp t0) s fun t => t.get Fld.HTH_MON_VAL_TEMP = unsigned 12 temp ∧ t.now = max s.now t0 ∧ t.mem = s.mem := by
  have ran : exec (.hearthMonitorConversion mv temp t0) s = .next (noteVbat mv ((s.at t0).put Fld.HTH_MON_VAL_TEMP (unsigned 12 temp))) := by
    show execHearthMonitorConversion mv temp t0 s = _
    rw [execHearthMonitorConversion, if_neg (by simp [down, hearth])]
  have noted : ∃ regs, noteVbat mv ((s.at t0).put Fld.HTH_MON_VAL_TEMP (unsigned 12 temp)) = { s with now := max s.now t0, regs := regs }
      ∧ rfGet regs Fld.HTH_MON_VAL_TEMP = unsigned 12 temp % 2 ^ 12 := by
    rw [noteVbat]
    split
    · refine ⟨rfPut (rfPut (rfPut s.regs Fld.HTH_MON_VAL_TEMP (unsigned 12 temp)) Fld.HTH_MON_VAL_VBAT mv) Fld.HTH_MON_CFG_VBLOW 1, ?_, ?_⟩
      · simp -implicitDefEqProofs only [State.put_eq, State.at]
      · simp (disch := decide) only [rfGet_rfPut_self, rfGet_rfPut_apart]
        rfl
    · refine ⟨rfPut (rfPut s.regs Fld.HTH_MON_VAL_TEMP (unsigned 12 temp)) Fld.HTH_MON_VAL_VBAT mv, ?_, ?_⟩
      · simp -implicitDefEqProofs only [State.put_eq, State.at]
      · simp (disch := decide) only [rfGet_rfPut_self, rfGet_rfPut_apart]
        rfl
  obtain ⟨regs, noted, reading⟩ := noted
  rw [noted] at ran
  refine Gives.of_eq ran ⟨?_, rfl, rfl⟩
  rw [State.get_eq_rfGet]
  exact reading.trans (Nat.mod_eq_of_lt (unsigned_lt 12 temp))

section
variable (down : s.pow.down ≠ 0) (enabled : s.get Fld.HTH_WAKECFG_ALARM_EN = 1) (valid : s.get Fld.HTH_CAL_CTRL_VALID = 1)
  (hit : (s.at t0).calSec % 2 ^ 32 = s.get Fld.HTH_ALARM_SEC)
include down enabled valid hit

theorem calendarAlarm_held (early : max s.now t0 < s.pow.outAt + 10 * msU) : Gives (.calendarAlarm t0) s fun t => t.pow.held = true
    ∧ t.get Fld.HTH_WAKECFG_ALARM_HIT = 1
    ∧ t = { s with now := max s.now t0, regs := t.regs, pow := { s.pow with held := true } } ∧ SameRegs [Reg.HTH_WAKECFG] s t := by
  refine Gives.of_eq ((exec_calendarAlarm t0 down enabled valid hit).trans (congrArg Host.Outcome.next (wakeDevice_held ?_ ?_)))
    ⟨rfl, ?_, rfl, ((RfSame.refl _ _).put (by decide) _).sameRegs⟩
  · exact down
  · exact early
  · rw [State.get_eq_rfGet]
    exact rfGet_rfPut_self _ _ (by decide)

theorem calendarAlarm_wakes (late : s.pow.outAt + 10 * msU ≤ max s.now t0) : Gives (.calendarAlarm t0) s fun t => t.pow.wakeOut = true
    ∧ t.pow.down = 0 ∧ t.pow.step = 1 ∧ t.get Fld.HTH_WAKECFG_ALARM_HIT = 1 ∧ t.get Fld.SYS_RSTCAUSE_WAKE = 1 ∧ t.mem = [] := by
  obtain ⟨v, before⟩ : ∃ v : State, v = { s with now := max s.now t0, regs := rfPut s.regs Fld.HTH_WAKECFG_ALARM_HIT 1 } := ⟨_, rfl⟩
  have ran := exec_calendarAlarm t0 down enabled valid hit
  rw [← before, wakeDevice_now (by rw [before]; exact down) (by rw [before]; exact late)] at ran
  obtain ⟨out, up, _, step⟩ := wakeNow_pow v
  refine Gives.of_eq ran ⟨out, up, step, ?_, wakeNow_cause v, wakeNow_mem v⟩
  rw [wakeNow_get v (by decide) (by decide), before, State.get_eq_rfGet]
  exact rfGet_rfPut_self _ _ (by decide)

end

theorem wakeHoldExpiry_gives (held : s.pow.held = true) : Gives .wakeHoldExpiry s fun t => t.pow.wakeOut = true ∧ t.pow.down = 0 ∧ t.pow.held = false
    ∧ t.pow.step = 1 ∧ t.get Fld.SYS_RSTCAUSE_WAKE = 1 ∧ t.mem = [] := by
  have ran : ∃ u, exec .wakeHoldExpiry s = .next (wakeNow u) := by
    have same : exec .wakeHoldExpiry s = execWakeHoldExpiry s := rfl
    rw [same, execWakeHoldExpiry, if_neg (by rw [held]; decide)]
    exact ⟨_, rfl⟩
  obtain ⟨u, ran⟩ := ran
  obtain ⟨out, up, quiet, step⟩ := wakeNow_pow u
  exact Gives.of_eq ran ⟨out, up, quiet, step, wakeNow_cause u, wakeNow_mem u⟩

end

/-- Settles O38: each command by its lemma; the wakes go through the registers that a device reset keeps. -/
theorem calendar : Obligations.Calendar := by
  refine ⟨fun s t0 => ⟨exec_calendarCompensation_stopped t0, calendarCompensation_gives t0⟩, fun s t0 => calendarOscFail_gives,
    fun s r v taken sync => ⟨calendarSyncWrite_gives taken sync, calendarSyncWrite_refused taken sync⟩, fun s d due => calendarLoad_gives due,
    fun s mv t0 temp => ⟨exec_hearthMonitor_off, hearthMonitor_gives⟩, fun s t0 down enabled valid hit => ⟨?_, ?_⟩, fun s held => wakeHoldExpiry_gives held⟩
  · exact calendarAlarm_held down enabled valid hit
  · exact calendarAlarm_wakes down enabled valid hit

end Sys2Proof.Machine
end

section
/-!
PROOFS. What a raise leaves of the link: its state, its capacities and its working data (R177, R186, R475).
-/

namespace Sys2Proof.Machine

/-- The link's state, its capacities and its working data are as before. -/
def LinkSame (s t : State) : Prop := t.rd Reg.LNK_STAT = s.rd Reg.LNK_STAT ∧ t.rd Reg.LNK_CAP = s.rd Reg.LNK_CAP ∧ t.lnk = s.lnk

section
variable {s t u : State}

theorem LinkSame.refl (s : State) : LinkSame s s := ⟨rfl, rfl, rfl⟩

theorem LinkSame.trans (first : LinkSame s t) (second : LinkSame t u) : LinkSame s u := by
  obtain ⟨stat, cap, lnk⟩ := first
  obtain ⟨stat', cap', lnk'⟩ := second
  exact ⟨stat'.trans stat, cap'.trans cap, lnk'.trans lnk⟩

/-- Registers and the link's working data alone decide. -/
theorem LinkSame.congr (same : LinkSame s t) (regs : u.regs = t.regs) (lnk : u.lnk = t.lnk) : LinkSame s u := by
  obtain ⟨stat, cap, working⟩ := same
  exact ⟨(State.rd_congr regs _).trans stat, (State.rd_congr regs _).trans cap, lnk.trans working⟩

theorem LinkSame.flt (same : LinkSame s t) (flt : Flt) : LinkSame s { t with flt := flt } := same.congr rfl rfl

theorem LinkSame.wr (same : LinkSame s t) {a : Nat} (v : Word) (other : a ≠ Reg.LNK_STAT ∧ a ≠ Reg.LNK_CAP) : LinkSame s (t.wr a v) := by
  obtain ⟨stat, cap, lnk⟩ := same
  obtain ⟨h1, h2⟩ := other
  exact ⟨(State.rd_wr_ne _ _ h1.symm).trans stat, (State.rd_wr_ne _ _ h2.symm).trans cap, (State.wr_lnk _ _ _).trans lnk⟩

theorem LinkSame.put (same : LinkSame s t) {f : Field} (v : Nat) (other : f.reg ≠ Reg.LNK_STAT ∧ f.reg ≠ Reg.LNK_CAP) : LinkSame s (t.put f v) :=
  same.wr _ other

theorem LinkSame.inc (same : LinkSame s t) {f : Field} (other : f.reg ≠ Reg.LNK_STAT ∧ f.reg ≠ Reg.LNK_CAP) : LinkSame s (t.inc f) := same.put _ other

theorem LinkSame.ite {c : Prop} [Decidable c] (yes : c → LinkSame s t) (no : ¬ c → LinkSame s u) : LinkSame s (if c then t else u) := by
  split
  · exact yes ‹_›
  · exact no ‹_›

theorem LinkSame.foldl {β : Type} {f : State → β → State} {l : List β} (each : ∀ t, ∀ b ∈ l, LinkSame t (f t b)) (same : LinkSame s t) :
    LinkSame s (l.foldl f t) := by
  induction l generalizing t with
  | nil => exact same
  | cons b rest ih =>
    exact ih (fun t b listed => each t b (List.mem_cons_of_mem _ listed)) (same.trans (each t b (List.mem_cons_self ..)))

theorem LinkSame.wrAll (same : LinkSame s t) {a : Nat} {l : List Word}
    (other : ∀ i < l.length, a + 4 * i ≠ Reg.LNK_STAT ∧ a + 4 * i ≠ Reg.LNK_CAP) : LinkSame s (t.wrAll a l) := by
  obtain ⟨stat, cap, lnk⟩ := same
  rw [State.wrAll_eq]
  refine ⟨?_, ?_, lnk⟩
  · rw [State.rd_eq_rfRead]
    exact (rfRead_rfWriteAll_ne _ fun i inside => (other i inside).1.symm).trans stat
  · rw [State.rd_eq_rfRead]
    exact (rfRead_rfWriteAll_ne _ fun i inside => (other i inside).2.symm).trans cap

/-- A field of the link's state or of its capacities reads as before. -/
theorem LinkSame.get (same : LinkSame s t) {f : Field} (at_ : f.reg = Reg.LNK_STAT ∨ f.reg = Reg.LNK_CAP) : t.get f = s.get f := by
  obtain ⟨stat, cap, _⟩ := same
  rcases at_ with e | e
  · rw [State.get, State.get, e, stat]
  · rw [State.get, State.get, e, cap]

end

/-! ### A message staged while the link is UP -/

/-- A register of the fault manager is none of the link's. -/
theorem apart_of_low {a : Nat} (low : a < 0x40A0014) : a ≠ Reg.LNK_STAT ∧ a ≠ Reg.LNK_CAP := by
  have low' : a < Reg.LNK_STAT := low
  constructor
  · exact Nat.ne_of_lt low'
  · exact Nat.ne_of_lt (Nat.lt_trans low' (by decide))

theorem apart_of_high {a : Nat} (high : 0x40A0018 < a) : a ≠ Reg.LNK_STAT ∧ a ≠ Reg.LNK_CAP := by
  have high' : Reg.LNK_CAP < a := high
  constructor
  · exact Nat.ne_of_gt (Nat.lt_trans (by decide) high')
  · exact Nat.ne_of_gt high'

section
variable {s : State}

theorem leaveL1_of_other (other : s.get Fld.LNK_STAT_STATE ≠ 3) : s.leaveL1 = s := by rw [State.leaveL1, if_neg other]

theorem linkSame_stage_two {b : List Nat} (other : s.get Fld.LNK_STAT_STATE ≠ 3) : LinkSame s (s.stage 2 b) := by
  have count : LinkSame s (s.inc (Fld.LNK_CNTn_COUNT.i 8)) := (LinkSame.refl s).inc (by decide)
  rw [State.stage]
  refine LinkSame.ite (fun _ => count) fun _ => LinkSame.ite (fun _ => .refl s) fun _ => LinkSame.ite (fun _ => ?_) fun _ =>
    LinkSame.ite (fun _ => count) fun _ => (LinkSame.refl s).congr rfl rfl
  rw [State.stageNow, leaveL1_of_other other]
  exact LinkSame.put ((LinkSame.refl s).congr rfl rfl) _ (by decide)

theorem State.linkUp_iff (s : State) : s.linkUp = true ↔ s.get Fld.LNK_STAT_STATE = 2 := by rw [State.linkUp, beq_iff_eq]

theorem linkSame_indicate (i : Indic) : LinkSame s (s.indicate i) := by
  rw [State.indicate]
  refine LinkSame.ite (fun sends => ?_) fun _ => (LinkSame.refl s).congr rfl rfl
  have up : s.get Fld.LNK_STAT_STATE = 2 := by
    rw [Bool.and_eq_true, Bool.and_eq_true] at sends
    obtain ⟨⟨up, _⟩, _⟩ := sends
    exact s.linkUp_iff.1 up
  rw [State.sendInd]
  refine LinkSame.trans ((LinkSame.refl s).congr rfl rfl) (linkSame_stage_two ?_)
  intro three
  exact absurd (up.symm.trans three) (by decide)

theorem linkSame_breadcrumb (n : Fin 32) : LinkSame s (s.breadcrumb n) := by
  rw [State.breadcrumb]
  refine LinkSame.foldl (fun t k listed => (LinkSame.refl t).wr _ (apart_of_high ?_)) (.refl s)
  dsimp only
  omega

theorem linkSame_setCurrent (n sev elem : Nat) : LinkSame s (s.setCurrent n sev elem) :=
  (((((LinkSame.refl s).put _ (by decide)).put _ (by decide)).put _ (by decide)).put _ (by decide)).put _ (by decide)

theorem linkSame_trimQueue : LinkSame s s.trimQueue := by
  rw [State.trimQueue]
  refine LinkSame.ite (fun _ => .refl s) fun _ => LinkSame.inc ((LinkSame.refl s).congr rfl rfl) (by decide)

/-- An event that no hamlet owns asks for no isolation. -/
theorem linkSame_askRecovery (n : Fin 32) (num sev : Nat) {elem : Nat} (outside : 8 ≤ elem) : LinkSame s (s.askRecovery n num sev elem) := by
  rw [State.askRecovery]
  refine LinkSame.ite (fun _ => linkSame_setCurrent _ _ _) fun _ => ?_
  rw [if_neg (by omega)]
  refine LinkSame.ite (fun _ => ?_) fun _ => ?_
  · refine LinkSame.put (LinkSame.trans (LinkSame.trans ?_ linkSame_trimQueue) (linkSame_setCurrent _ _ _)) _ (by decide)
    exact (LinkSame.refl s).congr rfl rfl
  · exact LinkSame.trans ((LinkSame.refl s).congr rfl rfl) linkSame_trimQueue

theorem linkSame_newFault (num sev elem info : Nat) (ind : Bool) (mild : sev ≤ 1) (outside : 8 ≤ elem ∨ sev = 0) :
    LinkSame s (s.newFault num sev elem info ind) := by
  have entry (n : Fin 32) {t : State} (same : LinkSame s t) (send : Bool) : LinkSame s (t.takeEntry n num sev elem info send) := by
    rw [State.takeEntry]
    refine LinkSame.flt (same.wrAll fun i inside => apart_of_low ?_) _
    have six : i < 6 := by
      simpa only [State.entryWords, List.length_cons, List.length_nil, Nat.zero_add, Nat.reduceAdd] using inside
    have base : Reg.FLT_LOGn_W0 = 0x4070400 := rfl
    omega
  rw [State.newFault]
  rw [State.faultAction_low _ _ _ _ mild]
  have counted : LinkSame s (if s.newEntry.2 then s.inc (Fld.FLT_CNTn_COUNT.i 1) else s) :=
    LinkSame.ite (fun _ => (LinkSame.refl s).inc (by decide)) fun _ => .refl s
  generalize (decide (1 ≤ sev) || ind || State.flag (if s.newEntry.2 then s.inc (Fld.FLT_CNTn_COUNT.i 1) else s) Fld.FLT_CFG_NOTEI) = send
  have taken := entry s.newEntry.1 counted send
  have crumb := LinkSame.ite (c := 1 ≤ sev) (fun _ => taken.trans (linkSame_breadcrumb s.newEntry.1)) fun _ => taken
  have told := LinkSame.ite (c := send = true) (fun _ => crumb.trans (linkSame_indicate ⟨true, num, elem, info, s.newEntry.1⟩)) fun _ => crumb
  refine LinkSame.ite (fun severe => told.trans (linkSame_askRecovery _ _ _ ?_)) fun _ => told
  omega

/-- An event of severity 0 or 1 that asks for no isolation leaves the link as it was. -/
theorem linkSame_raiseSev (num sev elem info : Nat) (ind : Bool) (mild : sev ≤ 1) (outside : 8 ≤ elem ∨ sev = 0) :
    LinkSame s (s.raiseSev num sev elem info ind) := by
  have counted : LinkSame s (s.inc (Fld.FLT_CNTn_COUNT.i 0)) := (LinkSame.refl s).inc (by decide)
  rw [State.raiseSev]
  refine counted.trans ?_
  generalize s.inc (Fld.FLT_CNTn_COUNT.i 0) = t
  cases t.activeEntry num elem with
  | none => exact linkSame_newFault num sev elem info ind mild outside
  | some n => exact (LinkSame.refl t).inc (apart_of_low (show 0x4070410 + n.val * 0x20 < _ by omega))

theorem linkSame_raise (num elem info : Nat) (mild : severityOf num ≤ 1) (outside : 8 ≤ elem ∨ severityOf num = 0) :
    LinkSame s (s.raise num elem info) := linkSame_raiseSev num _ elem info false mild outside

theorem linkSame_raiseSend (num elem info : Nat) (mild : severityOf num ≤ 1) (outside : 8 ≤ elem ∨ severityOf num = 0) :
    LinkSame s (s.raiseSend num elem info) := by
  rw [State.raiseSend]
  split
  next n _ => exact (linkSame_raise num elem info mild outside).trans (linkSame_indicate _)
  next => exact linkSame_raiseSev num _ elem info true mild outside

end

end Sys2Proof.Machine
end

section
/-!
PROOFS. What the training of a direction changes (R174, R205): registers of the link, of its flows and of the time unit, and the link's working data.
-/

namespace Sys2Proof.Machine

/-- The registers that a training's start can write. -/
def trainTouches (a : Nat) : Bool :=
  raiseTouches a || a == Reg.LNK_CTRL || (decide (Reg.LNK_PLANEn ≤ a) && decide (a < Reg.LNK_PLANEn + 40)) || a == Reg.TIM_STAT || a == Reg.TIM_SRCSTAT
    || (decide (Reg.TIM_CNTn ≤ a) && decide (a < Reg.TIM_CNTn + 32)) || (decide (Reg.LNK_FLOWf_STAT ≤ a) && a % 8 == 4)

/-- What a training's start can change. -/
structure TrainOnly (s t : State) : Prop where
  frame : ∃ tim, NoticeOnly { s with tim := tim } t
  regs : ∀ a, trainTouches a = false → t.rd a = s.rd a

theorem raiseQuiet_of_trainQuiet {a : Nat} (quiet : trainTouches a = false) : raiseTouches a = false := by
  simp only [trainTouches, Bool.or_eq_false_iff] at quiet
  obtain ⟨⟨⟨⟨⟨⟨raises, _⟩, _⟩, _⟩, _⟩, _⟩, _⟩ := quiet
  exact raises

section
variable {s t u : State}

theorem TrainOnly.refl (s : State) : TrainOnly s s := ⟨⟨s.tim, .refl s⟩, fun _ _ => rfl⟩

theorem TrainOnly.trans (first : TrainOnly s t) (second : TrainOnly t u) : TrainOnly s u where
  frame := by
    obtain ⟨_, _, _, _, _, _, rfl⟩ := first.frame
    obtain ⟨_, _, _, _, _, _, rfl⟩ := second.frame
    exact ⟨_, _, _, _, _, _, rfl⟩
  regs a quiet := (second.regs a quiet).trans (first.regs a quiet)

theorem TrainOnly.put (same : TrainOnly s t) {f : Field} (v : Nat) (touched : trainTouches f.reg = true) : TrainOnly s (t.put f v) where
  frame := by
    obtain ⟨tim, notice⟩ := same.frame
    exact ⟨tim, notice.put f v⟩
  regs a quiet := by
    have other : a ≠ f.reg := fun e => by rw [e, touched] at quiet; exact absurd quiet (by decide)
    rw [State.rd_put_ne _ _ other, same.regs a quiet]

theorem TrainOnly.inc (same : TrainOnly s t) {f : Field} (touched : trainTouches f.reg = true) : TrainOnly s (t.inc f) := same.put _ touched

theorem TrainOnly.raise (same : TrainOnly s t) {num : Nat} (low : severityOf num ≤ 1) (elem info : Nat) : TrainOnly s (t.raise num elem info) where
  frame := by
    obtain ⟨tim, notice⟩ := same.frame
    exact ⟨tim, notice.raise low elem info⟩
  regs a quiet := by rw [State.raise_rd _ _ _ _ (raiseQuiet_of_trainQuiet quiet), same.regs a quiet]

/-- Output, the port, the fault manager's and the link's working data, and the time unit's. -/
theorem TrainOnly.data (same : TrainOnly s t) (out : List Out) (flt : Flt) (port : Port) (lnk : Lnk) (tim : Tim) :
    TrainOnly s { t with out := out, flt := flt, port := port, lnk := lnk, tim := tim } where
  frame := by
    obtain ⟨_, _, _, _, _, _, rfl⟩ := same.frame
    exact ⟨_, _, _, _, _, _, rfl⟩
  regs a quiet := same.regs a quiet

theorem TrainOnly.lnk (same : TrainOnly s t) (lnk : Lnk) : TrainOnly s (t.setLnk lnk) := same.data t.out t.flt t.port lnk t.tim

theorem TrainOnly.ite {c : Prop} [Decidable c] (yes : TrainOnly s t) (no : TrainOnly s u) : TrainOnly s (if c then t else u) := by
  split
  · exact yes
  · exact no

theorem TrainOnly.foldl {β : Type} {f : State → β → State} {l : List β} (each : ∀ t, ∀ b ∈ l, TrainOnly t (f t b)) (same : TrainOnly s t) :
    TrainOnly s (l.foldl f t) := by
  induction l generalizing t with
  | nil => exact same
  | cons b rest ih => exact ih (fun t b listed => each t b (List.mem_cons_of_mem _ listed)) (same.trans (each t b (List.mem_cons_self ..)))

theorem TrainOnly.eq (same : TrainOnly s t) : t = { s with regs := t.regs, out := t.out, flt := t.flt, port := t.port, lnk := t.lnk, tim := t.tim } := by
  obtain ⟨_, _, _, _, _, _, rfl⟩ := same.frame
  rfl

theorem TrainOnly.get (same : TrainOnly s t) {f : Field} (quiet : trainTouches f.reg = false) : t.get f = s.get f := by
  rw [State.get, State.get, same.regs _ quiet]

end

/-- A hamlet's window lies where a raise writes too. -/
theorem trainTouches_h (f : Field) (h : Fin 8) : trainTouches (f.h h).reg = true := by
  have window : 0x10000000 ≤ (f.h h).reg := by
    show 0x10000000 ≤ hamletBase h + f.reg
    unfold hamletBase
    omega
  rw [trainTouches, raiseTouches, decide_eq_true window]
  simp only [Bool.or_true, Bool.true_or]

section
variable {s : State}

theorem trainOnly_breakLock (h : Fin 8) (n : Nat) : TrainOnly s (s.breakLock h n) := by
  have marked : TrainOnly s ((((s.put ((Fld.LCK_n_OWNER.i n).h h) 0).put ((Fld.LCK_n_BROKEN.i n).h h) 1).clrBit (Fld.LCK_HELD_HELD.h h) n).setBit
      (Fld.LCK_BROKEN_BROKEN.h h) n) :=
    ((((TrainOnly.refl s).put _ (trainTouches_h _ h)).put _ (trainTouches_h _ h)).put _ (trainTouches_h _ h)).put _ (trainTouches_h _ h)
  rw [State.breakLock, State.notifyReeve]
  dsimp only
  refine TrainOnly.ite ?_ ?_
  · exact (marked.raise (by decide) _ _).data _ _ _ _ _
  · exact (marked.raise (by decide) _ _).inc (by decide)

theorem trainOnly_breakAllLocks (owners : List Nat) : TrainOnly s (s.breakAllLocks owners) := by
  rw [State.breakAllLocks]
  refine TrainOnly.foldl (fun t h _ => ?_) (.refl s)
  rw [State.breakLocks]
  exact TrainOnly.foldl (fun t n _ => TrainOnly.ite (trainOnly_breakLock h n) (.refl t)) (.refl t)

/-- A flow's state word, whatever the flow. -/
theorem trainTouches_flow (f : Nat) : trainTouches (Fld.LNK_FLOWf_STAT_CREDIT.i f).reg = true := by
  have high : Reg.LNK_FLOWf_STAT ≤ (Fld.LNK_FLOWf_STAT_CREDIT.i f).reg := Nat.le_add_right _ _
  have word : ((Fld.LNK_FLOWf_STAT_CREDIT.i f).reg % 8 == 4) = true := by
    rw [beq_iff_eq]
    show (0x40A2004 + f * 8) % 8 = 4
    omega
  rw [trainTouches, decide_eq_true high, word, Bool.and_self, Bool.or_true]

theorem trainOnly_clearCredits : TrainOnly s (clearCredits s) := by
  rw [clearCredits]
  exact TrainOnly.foldl (fun t f _ => TrainOnly.ite ((TrainOnly.refl t).put _ (trainTouches_flow f)) (.refl t))
    ((TrainOnly.refl s).lnk _)

theorem trainOnly_sourceStale : TrainOnly s (s.sourceStale 0) := by
  have stale : TrainOnly s ((s.put (Fld.TIM_SRCSTAT_STALE.sub 0) 1).inc (Fld.TIM_CNTn_COUNT.i 5)) :=
    ((TrainOnly.refl s).put _ (by decide)).inc (by decide)
  rw [State.sourceStale]
  refine TrainOnly.ite (.refl s) ?_
  generalize (s.put (Fld.TIM_SRCSTAT_STALE.sub 0) 1).inc (Fld.TIM_CNTn_COUNT.i 5) = t at stale
  refine TrainOnly.ite ?_ stale
  rw [State.enterHold]
  have held : TrainOnly s ((t.put Fld.TIM_STAT_STATE 2).inc (Fld.TIM_CNTn_COUNT.i 4)) := (stale.put _ (by decide)).inc (by decide)
  generalize (t.put Fld.TIM_STAT_STATE 2).inc (Fld.TIM_CNTn_COUNT.i 4) = v at held
  exact TrainOnly.ite stale ((held.data v.out v.flt v.port v.lnk { v.tim with holdAt := v.now }).raise (by decide) _ _)

theorem trainOnly_setLink (v : Nat) : TrainOnly s (setLink v s) := by
  have put : TrainOnly s (s.put Fld.LNK_STAT_STATE v) := (TrainOnly.refl s).put _ (by decide)
  rw [setLink]
  exact TrainOnly.ite put (put.trans trainOnly_sourceStale)

/-! ### A direction goes down -/

theorem trainOnly_dropPartials : TrainOnly s (dropPartials s) := ((TrainOnly.refl s).lnk _).put _ (by decide)

/-- A cell that leaves the staging area is taken off its flow's count. -/
theorem trainOnly_dropStaged : TrainOnly s (dropStaged s) := by
  rw [dropStaged]
  exact TrainOnly.foldl (fun t c _ => (TrainOnly.refl t).put _ (trainTouches_flow c.flow)) ((TrainOnly.refl s).data _ _ _ _ _)

theorem trainOnly_txDown : TrainOnly s (txDown s) := by
  have dropped : TrainOnly s (dropStaged (s.put Fld.LNK_CAP_CAP_TX 0)) := ((TrainOnly.refl s).put _ (by decide)).trans trainOnly_dropStaged
  exact dropped.lnk _

theorem trainTouches_plane {n : Nat} (small : n < 10) : trainTouches (Fld.LNK_PLANEn_CDR.i n).reg = true := by
  have high : Reg.LNK_PLANEn ≤ (Fld.LNK_PLANEn_CDR.i n).reg := Nat.le_add_right _ _
  have low : (Fld.LNK_PLANEn_CDR.i n).reg < Reg.LNK_PLANEn + 40 := by
    show 0x40A0040 + n * 4 < 0x40A0040 + 40
    omega
  rw [trainTouches, decide_eq_true high, decide_eq_true low]
  simp only [Bool.and_self, Bool.or_true, Bool.true_or]

/-- The marks of the lanes cleared. -/
def planesClear (s : State) : State := (List.range 10).foldl (fun s n => (s.put (Fld.LNK_PLANEn_CDR.i n) 0).put (Fld.LNK_PLANEn_MARK.i n) 0) s

theorem trainOnly_planesClear : TrainOnly s (planesClear s) := by
  rw [planesClear]
  refine TrainOnly.foldl (fun t n listed => ?_) (.refl s)
  have touched := trainTouches_plane (List.mem_range.1 listed)
  exact ((TrainOnly.refl t).put _ touched).put _ touched

/-- The link's working data once the receive direction is down. -/
def Lnk.rxDowned (l : Lnk) : Lnk :=
  { l with
    rx := { l.rx with up := false }, subRx := none, failedAt := [], precAck := Vector.replicate 9 false
    nak := if l.rx.up then (if l.lossRun then l.nak else some (l.rx.cseq, 64)) else l.nak
    hold := if l.rx.up then some ((l.hold.map Prod.fst).getD ((l.rx.cseq + 65535) % 65536), 64) else l.hold
    lossRun := l.rx.up || l.lossRun }

/-- The receive direction's partial messages dropped, and the locks of the link broken if it was up. -/
def rxLeft (s : State) : State :=
  let s := dropPartials (s.put Fld.LNK_CAP_CAP_RX 0)
  if s.lnk.rx.up then s.breakAllLocks [5] else s

theorem rxDown_eq (s : State) : rxDown s = planesClear ((rxLeft s).setLnk (rxLeft s).lnk.rxDowned) := by
  rw [rxDown, planesClear, rxLeft, Lnk.rxDowned]

theorem trainOnly_rxLeft : TrainOnly s (rxLeft s) := by
  have dropped : TrainOnly s (dropPartials (s.put Fld.LNK_CAP_CAP_RX 0)) := ((TrainOnly.refl s).put _ (by decide)).trans trainOnly_dropPartials
  rw [rxLeft]
  exact TrainOnly.ite (dropped.trans (trainOnly_breakAllLocks _)) dropped

theorem trainOnly_rxDown : TrainOnly s (rxDown s) := by
  rw [rxDown_eq]
  exact (trainOnly_rxLeft.lnk _).trans trainOnly_planesClear

theorem trainOnly_sendFrames (asks : Fin 9 → Word) : TrainOnly s (sendFrames asks s) := by
  rw [sendFrames]
  refine TrainOnly.ite (.refl s) (TrainOnly.foldl (fun t q _ => ?_) (.refl s))
  exact (TrainOnly.refl t).data (_ :: t.out) t.flt t.port t.lnk t.tim

/-- The directions that train go down. -/
def trainDown (tx rx : Bool) (s : State) : State :=
  let s := if tx then txDown s else s
  if rx then rxDown s else s

theorem trainOnly_trainDown (tx rx : Bool) : TrainOnly s (trainDown tx rx s) := by
  have down : TrainOnly s (if tx then txDown s else s) := TrainOnly.ite trainOnly_txDown (.refl s)
  rw [trainDown]
  exact TrainOnly.ite (down.trans trainOnly_rxDown) down

/-- The link's working data at a training's start. -/
def Lnk.trains (l : Lnk) (tx rx : Bool) (now : Nat) : Lnk :=
  { l with
    retryDue := none
    l1 := none
    trainAt := now
    frameAt := now
    heard := Vector.replicate 9 false
    nearReady := Vector.replicate 9 false
    tx := if tx then { l.tx with phase := 1, since := now } else l.tx
    rx := if rx then { l.rx with phase := 1, since := now } else l.rx }

/-- The state in which a training's first frames leave. -/
def trainStart (tx rx : Bool) (s : State) : State :=
  let s := clearCredits ((setLink 1 (trainDown tx rx s)).put Fld.LNK_CTRL_RETRAIN 0)
  s.setLnk (s.lnk.trains tx rx s.now)

theorem startTraining_eq (tx rx : Bool) (s : State) :
    startTraining tx rx s = if tx then sendFrames (trainStart tx rx s).asksOf (trainStart tx rx s) else trainStart tx rx s := by
  rw [startTraining, trainStart, trainDown, Lnk.trains]

theorem trainOnly_trainStart (tx rx : Bool) : TrainOnly s (trainStart tx rx s) := by
  have linked : TrainOnly s ((setLink 1 (trainDown tx rx s)).put Fld.LNK_CTRL_RETRAIN 0) :=
    ((trainOnly_trainDown tx rx).trans (trainOnly_setLink 1)).put _ (by decide)
  exact (linked.trans trainOnly_clearCredits).lnk _

theorem trainOnly_startTraining (tx rx : Bool) : TrainOnly s (startTraining tx rx s) := by
  rw [startTraining_eq]
  exact TrainOnly.ite ((trainOnly_trainStart tx rx).trans (trainOnly_sendFrames _)) (trainOnly_trainStart tx rx)

theorem trainOnly_retrain (tx rx : Bool) : TrainOnly s (retrain tx rx s) := by
  rw [retrain, laneReport]
  exact ((trainOnly_startTraining tx rx).inc (by decide)).raise (by decide) _ _

end

end Sys2Proof.Machine
end

section
/-!
PROOFS. The link once a training has started: its state, its directions, what it keeps (R174, R205).
-/

namespace Sys2Proof.Machine

section
variable {s : State}

theorem apart_h (f : Field) (h : Fin 8) : (f.h h).reg ≠ Reg.LNK_STAT ∧ (f.h h).reg ≠ Reg.LNK_CAP := by
  refine apart_of_high ?_
  show 0x40A0018 < hamletBase h + f.reg
  unfold hamletBase
  omega

theorem linkSame_breakLock (h : Fin 8) (n : Nat) : LinkSame s (s.breakLock h n) := by
  have marked : LinkSame s ((((s.put ((Fld.LCK_n_OWNER.i n).h h) 0).put ((Fld.LCK_n_BROKEN.i n).h h) 1).clrBit (Fld.LCK_HELD_HELD.h h) n).setBit
      (Fld.LCK_BROKEN_BROKEN.h h) n) :=
    ((((LinkSame.refl s).put _ (apart_h _ h)).put _ (apart_h _ h)).put _ (apart_h _ h)).put _ (apart_h _ h)
  rw [State.breakLock, State.notifyReeve]
  dsimp only
  refine LinkSame.ite (fun _ => ?_) fun _ => ?_
  · exact (marked.trans (linkSame_raise _ _ _ (by decide) (.inr rfl))).flt _
  · exact (marked.trans (linkSame_raise _ _ _ (by decide) (.inr rfl))).inc (by decide)

theorem linkSame_breakAllLocks (owners : List Nat) : LinkSame s (s.breakAllLocks owners) := by
  rw [State.breakAllLocks]
  refine LinkSame.foldl (fun t h _ => ?_) (.refl s)
  rw [State.breakLocks]
  exact LinkSame.foldl (fun t n _ => LinkSame.ite (fun _ => linkSame_breakLock h n) fun _ => .refl t) (.refl t)

theorem apart_flow (f : Nat) : (Fld.LNK_FLOWf_STAT_CREDIT.i f).reg ≠ Reg.LNK_STAT ∧ (Fld.LNK_FLOWf_STAT_CREDIT.i f).reg ≠ Reg.LNK_CAP :=
  apart_of_high (show 0x40A0018 < 0x40A2004 + f * 8 by omega)

theorem linkSame_clearCredits : LinkSame (s.setLnk { s.lnk with grants := [] }) (clearCredits s) := by
  rw [clearCredits]
  exact LinkSame.foldl (fun t f _ => LinkSame.ite (fun _ => (LinkSame.refl t).put _ (apart_flow f)) fun _ => .refl t) (.refl _)

theorem linkSame_sourceStale : LinkSame s (s.sourceStale 0) := by
  have stale : LinkSame s ((s.put (Fld.TIM_SRCSTAT_STALE.sub 0) 1).inc (Fld.TIM_CNTn_COUNT.i 5)) :=
    ((LinkSame.refl s).put _ (by decide)).inc (by decide)
  rw [State.sourceStale]
  refine LinkSame.ite (fun _ => .refl s) fun _ => ?_
  generalize (s.put (Fld.TIM_SRCSTAT_STALE.sub 0) 1).inc (Fld.TIM_CNTn_COUNT.i 5) = t at stale
  refine LinkSame.ite (fun _ => ?_) fun _ => stale
  rw [State.enterHold]
  have held : LinkSame s ((t.put Fld.TIM_STAT_STATE 2).inc (Fld.TIM_CNTn_COUNT.i 4)) := (stale.put _ (by decide)).inc (by decide)
  generalize (t.put Fld.TIM_STAT_STATE 2).inc (Fld.TIM_CNTn_COUNT.i 4) = v at held
  refine LinkSame.ite (fun _ => stale) fun _ => ?_
  exact (held.congr (u := { v with tim := { v.tim with holdAt := v.now } }) rfl rfl).trans (linkSame_raise _ _ _ (by decide) (.inr rfl))

theorem State.setLnk_lnk (s : State) (l : Lnk) : (s.setLnk l).lnk = l := by rw [State.setLnk]

theorem State.get_setLnk (s : State) (l : Lnk) (f : Field) : (s.setLnk l).get f = s.get f := by
  rw [State.setLnk]
  exact State.get_congr rfl f

/-- The link's state is put; the rest of the link stays. -/
theorem setLink_link (v : Nat) : LinkSame (s.put Fld.LNK_STAT_STATE v) (setLink v s) := by
  rw [setLink]
  exact LinkSame.ite (fun _ => .refl _) fun _ => linkSame_sourceStale

theorem setLink_state {v : Nat} (small : v < 16) : (setLink v s).get Fld.LNK_STAT_STATE = v := by
  rw [(setLink_link v).get (.inl rfl), State.get_eq_rfGet, State.put_regs, rfGet_rfPut_self _ _ (by decide)]
  exact Nat.mod_eq_of_lt small

theorem setLink_lnk (v : Nat) : (setLink v s).lnk = s.lnk := by
  obtain ⟨_, _, lnk⟩ := setLink_link (s := s) v
  rw [lnk, State.put_lnk]

theorem dropStaged_lnk : (dropStaged s).lnk = s.lnk := by
  have same : LinkSame { s with port := { s.port with staged := s.port.staged.filter fun c => s.flag (Fld.LNK_FLOWf_CFG_REL.i c.flow) } } (dropStaged s) := by
    rw [dropStaged]
    exact LinkSame.foldl (fun t c _ => (LinkSame.refl t).put _ (apart_flow c.flow)) (.refl _)
  obtain ⟨_, _, lnk⟩ := same
  exact lnk

theorem txDown_lnk : (txDown s).lnk = { s.lnk with
    tx := { s.lnk.tx with up := false }, subTx := none, lm := [], timing := false, farReady := Vector.replicate 9 false, prec := Vector.replicate 9 false } := by
  have dropped := dropStaged_lnk (s := s.put Fld.LNK_CAP_CAP_TX 0)
  rw [txDown, State.setLnk_lnk, dropped, State.put_lnk]

theorem planesClear_lnk : (planesClear s).lnk = s.lnk := by
  have same : LinkSame s (planesClear s) := by
    rw [planesClear]
    refine LinkSame.foldl (fun t n _ => ?_) (.refl s)
    have apart : (Fld.LNK_PLANEn_CDR.i n).reg ≠ Reg.LNK_STAT ∧ (Fld.LNK_PLANEn_CDR.i n).reg ≠ Reg.LNK_CAP :=
      apart_of_high (show 0x40A0018 < 0x40A0040 + n * 4 by omega)
    exact ((LinkSame.refl t).put _ apart).put _ apart
  obtain ⟨_, _, lnk⟩ := same
  exact lnk

theorem rxLeft_lnk : (rxLeft s).lnk = { s.lnk with partials := (rxLeft s).lnk.partials } := by
  have dropped : (dropPartials (s.put Fld.LNK_CAP_CAP_RX 0)).lnk = { s.lnk with partials := (dropPartials (s.put Fld.LNK_CAP_CAP_RX 0)).lnk.partials } := by
    simp -implicitDefEqProofs only [dropPartials, State.add_eq, State.setLnk, State.put_eq]
  rw [rxLeft]
  generalize dropPartials (s.put Fld.LNK_CAP_CAP_RX 0) = t at dropped
  split
  · obtain ⟨_, _, lnk⟩ := linkSame_breakAllLocks (s := t) [5]
    rw [lnk, dropped]
  · rw [dropped]

theorem rxDown_lnk : (rxDown s).lnk = ({ s.lnk with partials := (rxLeft s).lnk.partials } : Lnk).rxDowned := by
  rw [rxDown_eq, planesClear_lnk, State.setLnk_lnk, ← rxLeft_lnk]

/-- Which directions a training takes down. -/
theorem trainDown_lnk (tx rx : Bool) : (trainDown tx rx s).lnk.tx.up = (!tx && s.lnk.tx.up) ∧ (trainDown tx rx s).lnk.rx.up = (!rx && s.lnk.rx.up)
    ∧ (trainDown tx rx s).lnk.resets = s.lnk.resets ∧ (trainDown tx rx s).lnk.toReeve = s.lnk.toReeve := by
  have first : (if tx then txDown s else s).lnk.tx.up = (!tx && s.lnk.tx.up) ∧ (if tx then txDown s else s).lnk.rx.up = s.lnk.rx.up
      ∧ (if tx then txDown s else s).lnk.resets = s.lnk.resets ∧ (if tx then txDown s else s).lnk.toReeve = s.lnk.toReeve := by
    cases tx
    · exact ⟨rfl, rfl, rfl, rfl⟩
    · rw [if_pos rfl, txDown_lnk]
      exact ⟨rfl, rfl, rfl, rfl⟩
  rw [trainDown]
  generalize (if tx then txDown s else s) = t at first
  obtain ⟨txUp, rxUp, resets, reeve⟩ := first
  cases rx
  · rw [if_neg Bool.false_ne_true]
    exact ⟨txUp, rxUp, resets, reeve⟩
  · rw [if_pos rfl, rxDown_lnk]
    exact ⟨txUp, rfl, resets, reeve⟩

theorem trainStart_lnk (tx rx : Bool) : (trainStart tx rx s).lnk =
    (({ (trainDown tx rx s).lnk with grants := [] } : Lnk).trains tx rx (clearCredits ((setLink 1 (trainDown tx rx s)).put Fld.LNK_CTRL_RETRAIN 0)).now) := by
  obtain ⟨_, _, cleared⟩ := linkSame_clearCredits (s := (setLink 1 (trainDown tx rx s)).put Fld.LNK_CTRL_RETRAIN 0)
  rw [State.setLnk_lnk, State.put_lnk, setLink_lnk] at cleared
  rw [trainStart, State.setLnk_lnk, cleared]

theorem linkSame_sendFrames (asks : Fin 9 → Word) : LinkSame s (sendFrames asks s) := by
  rw [sendFrames]
  exact LinkSame.ite (fun _ => .refl s) fun _ => LinkSame.foldl (fun t q _ => (LinkSame.refl t).congr rfl rfl) (.refl s)

theorem linkSame_startTraining (tx rx : Bool) : LinkSame (trainStart tx rx s) (startTraining tx rx s) := by
  rw [startTraining_eq]
  exact LinkSame.ite (fun _ => linkSame_sendFrames _) fun _ => .refl _

/-- The link trains; a direction that trains is down, the other as it was. -/
theorem startTraining_link (tx rx : Bool) (s : State) : (startTraining tx rx s).get Fld.LNK_STAT_STATE = 1
    ∧ (startTraining tx rx s).lnk.tx.up = (!tx && s.lnk.tx.up) ∧ (startTraining tx rx s).lnk.rx.up = (!rx && s.lnk.rx.up)
    ∧ (startTraining tx rx s).lnk.retryDue = none ∧ (startTraining tx rx s).lnk.resets = s.lnk.resets
    ∧ (startTraining tx rx s).lnk.toReeve = s.lnk.toReeve := by
  have started := linkSame_startTraining (s := s) tx rx
  obtain ⟨txUp, rxUp, resets, reeve⟩ := trainDown_lnk (s := s) tx rx
  obtain ⟨_, _, lnk⟩ := started
  refine ⟨?_, ?_⟩
  · rw [(linkSame_startTraining tx rx).get (.inl rfl), trainStart, State.get_setLnk]
    have cleared := linkSame_clearCredits (s := (setLink 1 (trainDown tx rx s)).put Fld.LNK_CTRL_RETRAIN 0)
    have put : ((setLink 1 (trainDown tx rx s)).put Fld.LNK_CTRL_RETRAIN 0).get Fld.LNK_STAT_STATE = 1 := by
      rw [State.get_eq_rfGet, State.put_regs, rfGet_rfPut_apart _ _ (by decide) (by decide), ← State.get_eq_rfGet, setLink_state (by decide)]
    rw [cleared.get (.inl rfl), State.get_setLnk, put]
  · rw [lnk, trainStart_lnk]
    generalize (trainDown tx rx s).lnk = l at txUp rxUp resets reeve
    refine ⟨?_, ?_, rfl, resets, reeve⟩
    · rw [← txUp]
      cases tx <;> rfl
    · rw [← rxUp]
      cases rx <;> rfl

end

end Sys2Proof.Machine
end

section
/-!
PROOFS. The start of the Reeve's boot: what it changes (R455, R459 to R461).
-/

namespace Sys2Proof.Machine

/-- The registers that the boot's start can write: those of a training, of the self-test, the boot's count and record. -/
def bootTouches (a : Nat) : Bool :=
  trainTouches a || a == 0x04100204 || a == bootRec || (decide (0x04110000 ≤ a) && decide (a < 0x04120000))

/-- What the boot's start can change. -/
structure BootOnly (s t : State) : Prop where
  frame : ∃ regs out flt port lnk tim boot bist, t = { s with regs := regs, out := out, flt := flt, port := port, lnk := lnk, tim := tim, boot := boot, bist := bist }
  regs : ∀ a, bootTouches a = false → t.rd a = s.rd a

theorem trainQuiet_of_bootQuiet {a : Nat} (quiet : bootTouches a = false) : trainTouches a = false := by
  simp only [bootTouches, Bool.or_eq_false_iff] at quiet
  obtain ⟨⟨⟨trains, _⟩, _⟩, _⟩ := quiet
  exact trains

section
variable {s t u : State}

theorem BootOnly.refl (s : State) : BootOnly s s := ⟨⟨_, _, _, _, _, _, _, _, rfl⟩, fun _ _ => rfl⟩

theorem BootOnly.trans (first : BootOnly s t) (second : BootOnly t u) : BootOnly s u where
  frame := by
    obtain ⟨_, _, _, _, _, _, _, _, rfl⟩ := first.frame
    obtain ⟨_, _, _, _, _, _, _, _, rfl⟩ := second.frame
    exact ⟨_, _, _, _, _, _, _, _, rfl⟩
  regs a quiet := (second.regs a quiet).trans (first.regs a quiet)

theorem BootOnly.of_trainOnly (same : TrainOnly s t) : BootOnly s t where
  frame := ⟨_, _, _, _, _, _, s.boot, s.bist, same.eq⟩
  regs a quiet := same.regs a (trainQuiet_of_bootQuiet quiet)

theorem BootOnly.wr (same : BootOnly s t) {a : Nat} (v : Word) (touched : bootTouches a = true) : BootOnly s (t.wr a v) where
  frame := by
    obtain ⟨_, _, _, _, _, _, _, _, rfl⟩ := same.frame
    exact ⟨_, _, _, _, _, _, _, _, State.wr_eq ..⟩
  regs b quiet := by
    have other : b ≠ a := fun e => by rw [e, touched] at quiet; exact absurd quiet (by decide)
    rw [State.rd_wr_ne _ _ other, same.regs b quiet]

theorem BootOnly.put (same : BootOnly s t) {f : Field} (v : Nat) (touched : bootTouches f.reg = true) : BootOnly s (t.put f v) := same.wr _ touched

theorem BootOnly.boot (same : BootOnly s t) (boot : Boot) : BootOnly s (t.setBoot boot) where
  frame := by
    obtain ⟨_, _, _, _, _, _, _, _, rfl⟩ := same.frame
    exact ⟨_, _, _, _, _, _, _, _, by rw [State.setBoot]⟩
  regs a quiet := by
    rw [State.setBoot]
    exact same.regs a quiet

theorem BootOnly.bist (same : BootOnly s t) (bist : Bist) : BootOnly s (t.setBist bist) where
  frame := by
    obtain ⟨_, _, _, _, _, _, _, _, rfl⟩ := same.frame
    exact ⟨_, _, _, _, _, _, _, _, by rw [State.setBist]⟩
  regs a quiet := by
    rw [State.setBist]
    exact same.regs a quiet

theorem BootOnly.ite {c : Prop} [Decidable c] (yes : BootOnly s t) (no : BootOnly s u) : BootOnly s (if c then t else u) := by
  split
  · exact yes
  · exact no

theorem BootOnly.foldl {β : Type} {f : State → β → State} {l : List β} (each : ∀ t, ∀ b ∈ l, BootOnly t (f t b)) (same : BootOnly s t) :
    BootOnly s (l.foldl f t) := by
  induction l generalizing t with
  | nil => exact same
  | cons b rest ih => exact ih (fun t b listed => each t b (List.mem_cons_of_mem _ listed)) (same.trans (each t b (List.mem_cons_self ..)))

theorem BootOnly.get (same : BootOnly s t) {f : Field} (quiet : bootTouches f.reg = false) : t.get f = s.get f := by
  rw [State.get, State.get, same.regs _ quiet]

theorem BootOnly.pow (same : BootOnly s t) : t.pow = s.pow := by
  obtain ⟨_, _, _, _, _, _, _, _, rfl⟩ := same.frame
  rfl

theorem BootOnly.now (same : BootOnly s t) : t.now = s.now := by
  obtain ⟨_, _, _, _, _, _, _, _, rfl⟩ := same.frame
  rfl

theorem BootOnly.mem (same : BootOnly s t) : t.mem = s.mem := by
  obtain ⟨_, _, _, _, _, _, _, _, rfl⟩ := same.frame
  rfl

theorem BootOnly.eng (same : BootOnly s t) : t.eng = s.eng := by
  obtain ⟨_, _, _, _, _, _, _, _, rfl⟩ := same.frame
  rfl

theorem BootOnly.agt (same : BootOnly s t) : t.agt = s.agt := by
  obtain ⟨_, _, _, _, _, _, _, _, rfl⟩ := same.frame
  rfl

end

section
variable {s : State}

/-- A register of the self-test block. -/
theorem bootTouches_bist {a : Nat} (high : 0x04110000 ≤ a) (low : a < 0x04120000) : bootTouches a = true := by
  rw [bootTouches, decide_eq_true high, decide_eq_true low]
  simp only [Bool.and_self, Bool.or_true]

theorem bootOnly_bootLink : BootOnly s (bootLink s) := by
  have opened : BootOnly s (s.setBoot { s.boot with upAt := s.now }) := (BootOnly.refl s).boot _
  rw [bootLink]
  exact BootOnly.ite opened ((opened.put _ (by decide)).trans (.of_trainOnly (trainOnly_startTraining true true)))

theorem bootOnly_startLoad : BootOnly s (startLoad s) := by
  have opened : BootOnly s (s.setBoot { s.boot with booting := true, failed := [], retry := none, upAt := s.now }) := (BootOnly.refl s).boot _
  rw [startLoad]
  exact BootOnly.ite (opened.trans bootOnly_bootLink) opened

theorem bootOnly_bootCount : BootOnly s (bootCount s) := by
  have counted (w : Word) : BootOnly s (s.wr 0x04100204 w) := (BootOnly.refl s).wr w (by decide)
  rw [bootCount]
  refine BootOnly.trans (BootOnly.ite (counted _) (BootOnly.ite ?_ ?_)) bootOnly_startLoad
  · exact (counted _).wr _ (by decide)
  · exact (counted _).wr _ (by decide)

theorem bootOnly_bistStart (target kind : Nat) (repair : Bool) : BootOnly s (bistStart target kind repair s) := by
  have flags : BootOnly s (bistFlagsClear s) :=
    ((((((BootOnly.refl s).put _ (by decide)).put _ (by decide)).put _ (by decide)).put _ (by decide)).put _ (by decide)).put _ (by decide)
  rw [bistStart]
  have cleared : BootOnly s ((List.range 16).foldl (fun s n => s.wr (Reg.BIST_FAILn + 4 * n) 0#32) (bistFlagsClear s)) := by
    refine BootOnly.foldl (fun t n listed => (BootOnly.refl t).wr _ ?_) flags
    have small := List.mem_range.1 listed
    exact bootTouches_bist (show 0x04110000 ≤ 0x4110080 + 4 * n by omega) (show 0x4110080 + 4 * n < 0x04120000 by omega)
  exact (((((cleared.put _ (by decide)).put _ (by decide)).put _ (by decide))).put _ (by decide)).bist _

theorem bootOnly_bootStart : BootOnly s (bootStart s) := by
  rw [bootStart]
  refine BootOnly.ite bootOnly_bootCount ?_
  have kept : BootOnly s (bistKept.zipIdx.foldl (fun s p => s.wr p.1 (s.rd (bistRet + 4 * p.2))) s) := by
    refine BootOnly.foldl (fun t p listed => (BootOnly.refl t).wr _ ?_) (.refl s)
    have all : ∀ p ∈ bistKept.zipIdx, bootTouches p.1 = true := by decide
    exact all p listed
  exact (kept.wr _ (by decide)).trans (bootOnly_bistStart _ _ _)

/-- The boot's working data once a load has started. -/
theorem bootLink_boot : (bootLink s).boot = { s.boot with upAt := s.now } := by
  rw [bootLink]
  dsimp only
  split
  · rw [State.setBoot]
  · rw [(trainOnly_startTraining true true).eq, State.put_boot, State.setBoot]

theorem startLoad_boot : (startLoad s).boot = { s.boot with booting := true, failed := [], retry := none, upAt := s.now } := by
  rw [startLoad]
  dsimp only
  split
  · rw [bootLink_boot, State.setBoot]
  · rw [State.setBoot]

end

end Sys2Proof.Machine
end

section
/-!
PROOFS. The wake sequencer: its steps and their timeouts (R345, R360, R361).
-/

namespace Sys2Proof.Machine

section
variable {s : State} {t0 : Nat} (runs : s.boot.inReset = false)
include runs

theorem wakeStepPass_open (inTime : max s.now t0 ≤ s.stepLimit) : (s.boot.inReset || decide (s.stepLimit < max s.now t0)) = false := by
  rw [runs, Bool.false_or, decide_eq_false_iff_not]
  omega

theorem exec_wakeStepPass_rails (inTime : max s.now t0 ≤ s.stepLimit) (step : s.pow.step = 1) (rails : s.railsOk = true) : exec (.wakeStepPass t0) s =
    .next { s with now := max s.now t0, pow := { s.pow with step := 2, try_ := 1, stepAt := max s.now t0 } } := by
  show execWakeStepPass t0 s = _
  rw [execWakeStepPass, wakeStepPass_open runs inTime, if_neg Bool.false_ne_true, step]
  simp only [rails, if_true]
  simp -implicitDefEqProofs only [State.setPow, State.at]

theorem exec_wakeStepPass_refin (inTime : max s.now t0 ≤ s.stepLimit) (step : s.pow.step = 2) (present : s.get Fld.CLK_REF_PRESENT = 1) :
    exec (.wakeStepPass t0) s =
      .next { s with now := max s.now t0, pow := { s.pow with step := 3, try_ := 1, stepAt := max s.now t0 } } := by
  show execWakeStepPass t0 s = _
  rw [execWakeStepPass, wakeStepPass_open runs inTime, if_neg Bool.false_ne_true, step]
  simp only [State.flag_of_get_one present, if_true]
  simp -implicitDefEqProofs only [State.setPow, State.at]

/-- The last step passed, before the boot starts: the hard cut of the last run is put down. -/
def wakePassed (t0 : Nat) (s : State) : State :=
  let u := ((s.at t0).put Fld.CLK_UPLL_LOCK 1).setPow { s.pow with step := 0, try_ := 0, unpassed := false, refOff := false }
  if u.flag Fld.HTH_THMREC_VALID && u.flag Fld.HTH_THMREC_HARD then (u.put Fld.SYS_RSTCAUSE_HARDCUT 1).put Fld.THM_STAT_SDLATCH 1 else u

theorem exec_wakeStepPass_last (inTime : max s.now t0 ≤ s.stepLimit) (step : s.pow.step = 3) :
    exec (.wakeStepPass t0) s = .next (bootStart (wakePassed t0 s)) := by
  show execWakeStepPass t0 s = _
  rw [execWakeStepPass, wakeStepPass_open runs inTime, if_neg Bool.false_ne_true, step]
  simp only [wakePassed]

omit runs in
theorem wakePassed_eq : ∃ regs, wakePassed t0 s = { s with
      now := max s.now t0, regs := regs, pow := { s.pow with step := 0, try_ := 0, unpassed := false, refOff := false } }
    ∧ rfGet regs Fld.CLK_UPLL_LOCK = 1
    ∧ (s.get Fld.HTH_THMREC_VALID = 1 → s.get Fld.HTH_THMREC_HARD = 1 → rfGet regs Fld.SYS_RSTCAUSE_HARDCUT = 1 ∧ rfGet regs Fld.THM_STAT_SDLATCH = 1) := by
  have flag {f : Field} (other : Fld.CLK_UPLL_LOCK.apart f = true) :
      (((s.at t0).put Fld.CLK_UPLL_LOCK 1).setPow { s.pow with step := 0, try_ := 0, unpassed := false, refOff := false }).flag f = s.flag f := by
    rw [State.flag_eq_rfGet, State.flag_eq_rfGet, State.setPow, State.put_eq]
    simp only [rfGet_rfPut_apart _ _ (show Fld.CLK_UPLL_LOCK.fits = true by decide) other, State.at_regs]
  rw [wakePassed]
  simp only [flag (f := Fld.HTH_THMREC_VALID) (by decide), flag (f := Fld.HTH_THMREC_HARD) (by decide)]
  split
  next hard =>
    refine ⟨rfPut (rfPut (rfPut s.regs Fld.CLK_UPLL_LOCK 1) Fld.SYS_RSTCAUSE_HARDCUT 1) Fld.THM_STAT_SDLATCH 1, ?_, ?_, fun _ _ => ?_⟩
    · simp -implicitDefEqProofs only [State.setPow, State.put_eq, State.at]
    · simp (disch := decide) only [rfGet_rfPut_self, rfGet_rfPut_apart]
      rfl
    · simp (disch := decide) only [rfGet_rfPut_self, rfGet_rfPut_apart]
      exact ⟨rfl, rfl⟩
  next soft =>
    refine ⟨rfPut s.regs Fld.CLK_UPLL_LOCK 1, ?_, ?_, fun valid hard => ?_⟩
    · simp -implicitDefEqProofs only [State.setPow, State.put_eq, State.at]
    · exact rfGet_rfPut_self _ _ (by decide)
    · rw [State.flag_of_get_one valid, State.flag_of_get_one hard] at soft
      exact absurd rfl soft

theorem wakeStepPass_last (inTime : max s.now t0 ≤ s.stepLimit) (step : s.pow.step = 3) : Gives (.wakeStepPass t0) s fun t =>
    t.pow = { s.pow with step := 0, try_ := 0, unpassed := false, refOff := false } ∧ t.get Fld.CLK_UPLL_LOCK = 1 ∧ t.now = max s.now t0
      ∧ (s.get Fld.HTH_THMREC_VALID = 1 → s.get Fld.HTH_THMREC_HARD = 1 → t.get Fld.SYS_RSTCAUSE_HARDCUT = 1 ∧ t.get Fld.THM_STAT_SDLATCH = 1) := by
  obtain ⟨regs, passed, lock, cut⟩ := wakePassed_eq (s := s) (t0 := t0)
  have boots := bootOnly_bootStart (s := wakePassed t0 s)
  have get {f : Field} (quiet : bootTouches f.reg = false) : (bootStart (wakePassed t0 s)).get f = rfGet regs f := by
    rw [boots.get quiet, passed, State.get_eq_rfGet]
  refine Gives.of_eq (exec_wakeStepPass_last runs inTime step) ⟨?_, ?_, ?_, fun valid hard => ?_⟩
  · rw [boots.pow, passed]
  · rw [get (by decide), lock]
  · rw [boots.now, passed]
  · obtain ⟨cause, latch⟩ := cut valid hard
    rw [get (by decide), get (by decide), cause, latch]
    exact ⟨rfl, rfl⟩

variable (active : s.pow.step ≠ 0) (expired : s.stepLimit ≤ max s.now t0)
include active expired

theorem wakeStepTimeout_open : (s.boot.inReset || s.pow.step == 0 || decide (max s.now t0 < s.stepLimit)) = false := by
  rw [runs, Bool.false_or, beq_eq_false_iff_ne.2 active, Bool.false_or, decide_eq_false_iff_not]
  omega

theorem exec_wakeStepTimeout_again (again : s.pow.try_ < 3) : exec (.wakeStepTimeout t0) s =
    .next { s with now := max s.now s.stepLimit, pow := { s.pow with try_ := s.pow.try_ + 1, stepAt := max s.now s.stepLimit } } := by
  show execWakeStepTimeout t0 s = _
  rw [execWakeStepTimeout, wakeStepTimeout_open runs active expired, if_neg Bool.false_ne_true]
  simp only [State.at_pow, again, if_true]
  simp -implicitDefEqProofs only [State.setPow, State.at]

/-- The record of a third timeout. -/
def wakeRecord (fell : Nat) (s : State) : State :=
  let s := s.wr Reg.HTH_WAKEREC (BitVec.ofNat 32 (2 ^ 31 + fell * 256 + s.pow.try_ * 16 + s.pow.step))
  s.setPow { s.pow with unpassed := true }

theorem exec_wakeStepTimeout_boot (third : s.pow.try_ = 3) (late : 2 ≤ s.pow.step) : exec (.wakeStepTimeout t0) s =
    .next ({ wakeRecord 2 (s.at s.stepLimit) with
      pow := { s.pow with unpassed := true, step := 0, try_ := 0, refOff := true }, boot := { s.boot with rom := true } }) := by
  show execWakeStepTimeout t0 s = _
  rw [execWakeStepTimeout, wakeStepTimeout_open runs active expired, if_neg Bool.false_ne_true]
  have last : ¬ s.pow.try_ < 3 := by omega
  simp only [State.at_pow, last, late, if_false, if_true]
  simp -implicitDefEqProofs only [wakeRecord, State.setPow, State.setBoot, State.wr_eq, State.at]

theorem exec_wakeStepTimeout_dark (third : s.pow.try_ = 3) (first : s.pow.step = 1) : ∃ fell, fell < 2 ∧ exec (.wakeStepTimeout t0) s =
    .next (goDark (fell + 1) (wakeRecord fell (s.at s.stepLimit))) := by
  have last : ¬ s.pow.try_ < 3 := by omega
  have early : ¬ 2 ≤ s.pow.step := by omega
  have same : exec (.wakeStepTimeout t0) s = execWakeStepTimeout t0 s := rfl
  rw [same, execWakeStepTimeout, wakeStepTimeout_open runs active expired, if_neg Bool.false_ne_true]
  by_cases left : s.pow.left = 2
  · refine ⟨1, by decide, ?_⟩
    simp only [State.at_pow, last, early, left, if_false, if_true, show ¬ (1 : Nat) = 2 by decide, wakeRecord]
  · refine ⟨0, by decide, ?_⟩
    simp only [State.at_pow, last, early, left, if_false, show ¬ (0 : Nat) = 2 by decide, wakeRecord]

end

theorem wakeRecord_regs (fell : Nat) (s : State) : (wakeRecord fell s).regs =
    rfWrite s.regs Reg.HTH_WAKEREC (BitVec.ofNat 32 (2 ^ 31 + fell * 256 + s.pow.try_ * 16 + s.pow.step)) := by
  simp -implicitDefEqProofs only [wakeRecord, State.setPow, State.wr_eq]

/-- The fields of the record. -/
theorem wakeRecord_get {fell : Nat} {s : State} (small : fell < 4) (third : s.pow.try_ = 3) (step : s.pow.step < 16) :
    rfGet (wakeRecord fell s).regs Fld.HTH_WAKEREC_VALID = 1 ∧ rfGet (wakeRecord fell s).regs Fld.HTH_WAKEREC_STEP = s.pow.step
      ∧ rfGet (wakeRecord fell s).regs Fld.HTH_WAKEREC_TRY = 3 := by
  rw [wakeRecord_regs, rfGet_rfWrite_same (a := Reg.HTH_WAKEREC) (g := Fld.HTH_WAKEREC_VALID) _ _ rfl, rfGet_rfWrite_same (a := Reg.HTH_WAKEREC) (g := Fld.HTH_WAKEREC_STEP) _ _ rfl,
    rfGet_rfWrite_same (a := Reg.HTH_WAKEREC) (g := Fld.HTH_WAKEREC_TRY) _ _ rfl]
  simp only [getBits, Fld.HTH_WAKEREC_VALID, Fld.HTH_WAKEREC_STEP, Fld.HTH_WAKEREC_TRY, BitVec.toNat_ofNat, third]
  omega

/-- The registers of a device that has gone dark: those of a device reset. -/
theorem goDark_regs (down : Nat) (s : State) : (goDark down s).regs = resetRegs s ∧ (goDark down s).mem = [] ∧ (goDark down s).pow.wakeOut = false := by
  have regs := deviceReset_regs s
  have mem := deviceReset_mem s
  rw [goDark]
  generalize deviceReset s = z at regs mem
  exact ⟨regs, mem, rfl⟩

/-- A field of the Hearth domain that a device reset does not rewrite. -/
theorem rfGet_resetRegs {f : Field} (hearth : hearthReg f.reg = true) (other : f.reg ≠ Fld.AGT_ARB_HEARTH.reg ∧ f.reg ≠ Fld.TLY_STAT_ADDR.reg) (s : State) :
    rfGet (resetRegs s) f = s.get f := by
  obtain ⟨count, status⟩ := other
  rw [resetRegs, rfGet, rfRead_rfPut_ne _ _ status, rfRead_rfPut_ne _ _ count, rfRead_filter_hearth _ hearth, ← rfGet, ← State.get_eq_rfGet]

theorem wakeStepTimeout_third {s : State} {t0 : Nat} (runs : s.boot.inReset = false) (active : s.pow.step ≠ 0) (expired : s.stepLimit ≤ max s.now t0)
    (third : s.pow.try_ = 3) (step : s.pow.step < 16) : Gives (.wakeStepTimeout t0) s fun t => t.get Fld.HTH_WAKEREC_VALID = 1
      ∧ t.get Fld.HTH_WAKEREC_STEP = s.pow.step ∧ t.get Fld.HTH_WAKEREC_TRY = 3 ∧ (s.pow.step = 1 → t.pow.wakeOut = false ∧ t.mem = [])
      ∧ (2 ≤ s.pow.step → t.boot.rom = true ∧ t.pow.step = 0 ∧ t.mem = s.mem) := by
  by_cases late : 2 ≤ s.pow.step
  · obtain ⟨valid, at_, tries⟩ := wakeRecord_get (fell := 2) (s := s.at s.stepLimit) (by decide) third step
    refine Gives.of_eq (exec_wakeStepTimeout_boot runs active expired third late) ⟨?_, ?_, ?_, fun one => by omega, fun _ => ⟨rfl, rfl, ?_⟩⟩
    · rw [State.get_eq_rfGet]
      exact valid
    · rw [State.get_eq_rfGet]
      exact at_
    · rw [State.get_eq_rfGet]
      exact tries
    · simp -implicitDefEqProofs only [wakeRecord, State.setPow, State.wr_eq, State.at]
  · obtain ⟨fell, small, ran⟩ := exec_wakeStepTimeout_dark runs active expired third (by omega)
    obtain ⟨valid, at_, tries⟩ := wakeRecord_get (s := s.at s.stepLimit) (show fell < 4 by omega) third step
    obtain ⟨regs, mem, out⟩ := goDark_regs (fell + 1) (wakeRecord fell (s.at s.stepLimit))
    have get {f : Field} (hearth : hearthReg f.reg = true) (other : f.reg ≠ Fld.AGT_ARB_HEARTH.reg ∧ f.reg ≠ Fld.TLY_STAT_ADDR.reg) :
        (goDark (fell + 1) (wakeRecord fell (s.at s.stepLimit))).get f = rfGet (wakeRecord fell (s.at s.stepLimit)).regs f := by
      rw [State.get_eq_rfGet, regs, rfGet_resetRegs hearth other, State.get_eq_rfGet]
    refine Gives.of_eq ran ⟨?_, ?_, ?_, fun _ => ⟨out, mem⟩, fun two => absurd two late⟩
    · rw [get (by decide) (by decide), valid]
    · rw [get (by decide) (by decide), at_, State.at_pow]
    · rw [get (by decide) (by decide), tries]

end Sys2Proof.Machine
end

section
/-!
PROOFS. A bit that a 1 clears (R7), after a write of the whole word.
-/

namespace Sys2Proof

/-- Piece `p` is field `g`, and a 1 clears it. -/
def Field.clearAs (p g : Field) : Bool := p.lo == g.lo && p.width == 1 && g.width == 1 && p.acc == .w1c

/-- No piece but those that clear `g` can change it. -/
def RegDesc.cleanClear (d : RegDesc) (g : Field) : Bool := d.pieces.all fun p => p.fits && (p.clearAs g || p.beside g || p.readOnly)

/-- The register has a piece that clears `g`. -/
def RegDesc.hasClear (d : RegDesc) (g : Field) : Bool := d.pieces.any fun p => p.clearAs g

end Sys2Proof

namespace Sys2Proof.Machine

section
variable {g : Field} {new : Word}

/-- A field that every piece either brings to one value or leaves alone. -/
theorem getBits_fieldWrites_const {sel : Field → Bool} {v : Nat} {l : List Field}
    (clean : (l.all fun p => p.fits && (sel p || p.beside g || p.readOnly)) = true)
    (each : ∀ p ∈ l, sel p = true → p.fits = true → ∀ old, getBits g (fieldWrite false p new old) = v) (old : Word) :
    getBits g (l.foldl (fun w p => fieldWrite false p new w) old) = if l.any sel = true then v else getBits g old := by
  induction l generalizing old with
  | nil => rfl
  | cons p l ih =>
    rw [List.all_cons, Bool.and_eq_true] at clean
    obtain ⟨here, rest⟩ := clean
    rw [Bool.and_eq_true] at here
    obtain ⟨fits, kind⟩ := here
    rw [List.foldl_cons, ih rest (fun q listed => each q (List.mem_cons_of_mem _ listed)), List.any_cons]
    by_cases chosen : sel p = true
    · simp [chosen, each p (List.mem_cons_self ..) chosen fits old]
    · rw [Bool.not_eq_true] at chosen
      rw [chosen, Bool.false_or] at kind
      have kept : getBits g (fieldWrite false p new old) = getBits g old := by
        obtain beside | fixed := Bool.or_eq_true_iff.1 kind
        · exact getBits_fieldWrite_beside fits beside new old
        · rw [fieldWrite_readOnly false fixed]
      rw [kept, chosen, Bool.false_or]

theorem getBits_fieldWrite_clear {p : Field} (clear : p.clearAs g = true) (one : getBits g new = 1) (fits : p.fits = true) (old : Word) :
    getBits g (fieldWrite false p new old) = 0 := by
  simp only [Field.clearAs, Bool.and_eq_true, beq_iff_eq] at clear
  obtain ⟨⟨⟨lo, width⟩, gwidth⟩, kind⟩ := clear
  have like (w : Word) : getBits g w = getBits p w := by simp only [getBits, lo, width, gwidth]
  rw [like] at one
  rw [like, fieldWrite, kind]
  dsimp only
  rw [getBits_setBits_same p old _ (Nat.le_of_ble_eq_true fits), one, width]
  exact congrArg (· % 2 ^ 1) (Nat.and_zero _)

/-- A bit that a 1 clears is 0 after a 1 (R7). -/
theorem getBits_wordWrite_clear {d : RegDesc} (clean : d.cleanClear g = true) (has : d.hasClear g = true) (one : getBits g new = 1) (old : Word) :
    getBits g (wordWrite false d new old) = 0 := by
  rw [wordWrite_eq_pieces, getBits_fieldWrites_const clean fun p _ clear fits => getBits_fieldWrite_clear clear one fits]
  exact if_pos has

end

end Sys2Proof.Machine
end

section
/-!
PROOFS. The record of a wake cleared, the supplies, RESET_L and the Hearth domain's power-up (R360, R361, R452 to R455).
-/

namespace Sys2Proof.Machine

/-- The table of HTH_WAKEREC. -/
def wakerecDesc : RegDesc := ⟨Reg.HTH_WAKEREC, [], [Fld.HTH_WAKEREC_VALID, Fld.HTH_WAKEREC_FELL, Fld.HTH_WAKEREC_TRY, Fld.HTH_WAKEREC_STEP]⟩

theorem descOf_wakerec : descOf Reg.HTH_WAKEREC = some wakerecDesc := by decide +kernel

theorem wakerecClear_gives {s : State} {r : Req} {v : Word} (taken : Takes s r Reg.HTH_WAKEREC) (booted : s.boot.booting = false) (ram : s.boot.rom = false) :
    Gives (.wakerecClear r v) s fun t => t.get Fld.HTH_WAKEREC_VALID = 0 ∧ t.flt = { s.flt with bootFail := false }
      ∧ t = { s with resp := { err := false, data := 0 }, regs := t.regs, flt := t.flt } ∧ SameRegs [Reg.HTH_WAKEREC] s t := by
  obtain ⟨w, written⟩ : ∃ w, w = v ||| 0x80000000#32 := ⟨_, rfl⟩
  have bit : w.getLsbD 31 = true := by
    rw [written, BitVec.getLsbD_or, show (0x80000000#32).getLsbD 31 = true by decide, Bool.or_true]
  have one : getBits Fld.HTH_WAKEREC_VALID w = 1 := by
    rw [getBits_of_width_one rfl]
    exact congrArg Bool.toNat bit
  have stored := State.storeReg_unguarded (s := s.ok) descOf_wakerec (by decide) r w
  have ran : exec (.wakerecClear r v) s = .next { s with
      resp := { err := false, data := 0 }
      regs := rfWrite s.regs Reg.HTH_WAKEREC (wordWrite false wakerecDesc w (s.rd Reg.HTH_WAKEREC))
      flt := { s.flt with bootFail := false } } := by
    refine congrArg Host.Outcome.next ((regCmd_ok taken).trans ?_)
    rw [← written, wakerecWrite, stored, State.rd_ok]
    generalize wordWrite _ _ _ _ = x
    simp -implicitDefEqProofs only [State.wr_eq, State.ok, bit, booted, ram, Bool.not_false, Bool.and_self, if_true]
  refine Gives.of_eq ran ⟨?_, rfl, rfl, ((RfSame.refl _ _).write (by decide) _).sameRegs⟩
  rw [State.get_eq_rfGet]
  exact (rfGet_rfWrite_same _ _ rfl).trans (getBits_wordWrite_clear (by decide) (by decide) one _)

/-! ### Supplies (R452, R453) -/

/-- Both rails of the Hearth domain are out of range. -/
theorem bothRails_iff (n : Nat) : (bitOf n 7 && bitOf n 8) = true ↔ Nat.land n 0x180 = 0x180 := by
  rw [bitOf_eq_testBit, bitOf_eq_testBit, Bool.and_eq_true]
  constructor
  · rintro ⟨seven, eight⟩
    refine Nat.eq_of_testBit_eq fun i => ?_
    show (n &&& 0x180).testBit i = _
    rw [Nat.testBit_and]
    by_cases at7 : i = 7
    · rw [at7, seven, Bool.true_and]
    by_cases at8 : i = 8
    · rw [at8, eight, Bool.true_and]
    have clear : (0x180 : Nat).testBit i = false := by
      rw [Nat.testBit_eq_decide_div_mod_eq, decide_eq_false_iff_not]
      by_cases low : i < 9
      · interval_cases i <;> omega
      · have zero : (0x180 : Nat) / 2 ^ i = 0 := Nat.div_eq_of_lt (Nat.lt_of_lt_of_le (by decide) (Nat.pow_le_pow_right (by decide) (Nat.le_of_not_lt low)))
        rw [zero]
        decide
    rw [clear, Bool.and_false]
  · intro both
    have bit (i : Nat) (inside : (0x180 : Nat).testBit i = true) : n.testBit i = true := by
      have same : (n &&& 0x180).testBit i = (0x180 : Nat).testBit i := congrArg (fun x : Nat => x.testBit i) both
      rw [Nat.testBit_and, inside, Bool.and_true] at same
      exact same
    exact ⟨bit 7 (by decide), bit 8 (by decide)⟩

section
variable {s : State} (rail : Fin 9) (t0 : Nat)

/-- A rail's change as far as the rails themselves go. -/
def railsAt (rails : Nat) (t0 : Nat) (s : State) : State := { s with now := max s.now t0, pow := { s.pow with rails := rails } }

/-- A change of the rails that leaves the Hearth domain's alone: the device is reset where its own rails went out of range while it ran. -/
theorem supplyChange_kept {rails : Nat} (hearth : s.pow.hearth = false ∨ Nat.land rails 0x180 ≠ 0x180) :
    (bitOf (railsAt rails t0 s).pow.rails 7 && bitOf (railsAt rails t0 s).pow.rails 8 && (railsAt rails t0 s).pow.hearth) = false := by
  show (bitOf rails 7 && bitOf rails 8 && s.pow.hearth) = false
  rcases hearth with off | one
  · rw [off, Bool.and_false]
  · have not_both : (bitOf rails 7 && bitOf rails 8) = false := by rw [← Bool.not_eq_true, bothRails_iff]; exact one
    rw [not_both, Bool.false_and]

/-- The rails after a change of one. -/
def railsAfter (ok : Bool) (rail : Fin 9) (rails : Nat) : Nat :=
  if ok then (if bitOf rails rail then rails - 2 ^ rail.val else rails) else Nat.lor rails (2 ^ rail.val)

theorem exec_supplyChange {ok : Bool} {rails : Nat} (new : railsAfter ok rail s.pow.rails = rails)
    (hearth : s.pow.hearth = false ∨ Nat.land rails 0x180 ≠ 0x180) : exec (.supplyChange rail ok t0) s = .next (
      if (railsAt rails t0 s).pow.down = 0 && !(railsAt rails t0 s).boot.inReset && !(railsAt rails t0 s).railsOk && (railsAt rails t0 s).pow.step != 1 then
        (sampleStraps (deviceReset (railsAt rails t0 s))).setPow { (sampleStraps (deviceReset (railsAt rails t0 s))).pow with
          step := 1, try_ := 1, stepAt := (sampleStraps (deviceReset (railsAt rails t0 s))).now, wakeOut := true, left := 0 }
      else railsAt rails t0 s) := by
  have kept := supplyChange_kept t0 hearth
  have start : (s.at t0).setPow { (s.at t0).pow with rails := railsAfter ok rail (s.at t0).pow.rails } = railsAt rails t0 s := by
    rw [State.at_pow, new, State.setPow, railsAt, State.at]
  show Host.Outcome.next (
    let s := (s.at t0).setPow { (s.at t0).pow with rails := railsAfter ok rail (s.at t0).pow.rails }
    let s := if bitOf s.pow.rails 7 && bitOf s.pow.rails 8 && s.pow.hearth then loseHearth s else s
    if s.pow.down = 0 && !s.boot.inReset && !s.railsOk && s.pow.step != 1 then
      let s := sampleStraps (deviceReset s)
      s.setPow { s.pow with step := 1, try_ := 1, stepAt := s.now, wakeOut := true, left := 0 }
    else s) = _
  simp only [start, kept, Bool.false_eq_true, if_false]

theorem supplyChange_restored (had : bitOf s.pow.rails rail = true) (hearth : s.pow.hearth = false ∨ Nat.land (s.pow.rails - 2 ^ rail.val) 0x180 ≠ 0x180)
    (calm : s.pow.down ≠ 0 ∨ s.boot.inReset = true ∨ s.pow.step = 1 ∨ Nat.land (s.pow.rails - 2 ^ rail.val) 0x6D = 0) :
    exec (.supplyChange rail true t0) s = .next { s with now := max s.now t0, pow := { s.pow with rails := s.pow.rails - 2 ^ rail.val } } := by
  rw [exec_supplyChange rail t0 (by rw [railsAfter, if_pos rfl, if_pos had]) hearth]
  refine congrArg Host.Outcome.next (if_neg ?_)
  show ¬ ((decide (s.pow.down = 0) && !s.boot.inReset && !(Nat.land (s.pow.rails - 2 ^ rail.val) 0x6D == 0) && s.pow.step != 1) = true)
  rcases calm with down | held | waits | inRange
  · simp [down]
  · simp [held]
  · simp [waits]
  · simp [show (s.pow.rails - 2 ^ rail.val) &&& 0x6D = 0 from inRange]

/-- The engines after a device reset. -/
theorem deviceReset_eng (s : State) : (deviceReset s).eng = State.reset.eng := by
  simp -implicitDefEqProofs only [deviceReset, zeroTime, State.put_eq]

theorem reset_eng (e : Fin 9) : State.reset.eng[e] = {} := Vector.getElem_replicate _

theorem supplyChange_lost (hearth : s.pow.hearth = false ∨ Nat.land (Nat.lor s.pow.rails (2 ^ rail.val)) 0x180 ≠ 0x180) (down : s.pow.down = 0)
    (runs : s.boot.inReset = false) (step : s.pow.step ≠ 1) (fallen : Nat.land (Nat.lor s.pow.rails (2 ^ rail.val)) 0x6D ≠ 0) :
    Gives (.supplyChange rail false t0) s fun t => t.pow.step = 1 ∧ t.pow.try_ = 1 ∧ t.mem = [] ∧ (∀ e : Fin 9, t.eng[e] = {}) ∧ t.now = 0 := by
  have ran := exec_supplyChange (s := s) (ok := false) (rails := Nat.lor s.pow.rails (2 ^ rail.val)) rail t0 rfl hearth
  have falls : (decide ((railsAt (Nat.lor s.pow.rails (2 ^ rail.val)) t0 s).pow.down = 0) && !(railsAt (Nat.lor s.pow.rails (2 ^ rail.val)) t0 s).boot.inReset
      && !(railsAt (Nat.lor s.pow.rails (2 ^ rail.val)) t0 s).railsOk && (railsAt (Nat.lor s.pow.rails (2 ^ rail.val)) t0 s).pow.step != 1) = true := by
    show (decide (s.pow.down = 0) && !s.boot.inReset && !(Nat.land (Nat.lor s.pow.rails (2 ^ rail.val)) 0x6D == 0) && s.pow.step != 1) = true
    have out : ¬ (s.pow.rails ||| 2 ^ rail.val) &&& 0x6D = 0 := fallen
    simp [down, runs, step, out]
  rw [if_pos falls] at ran
  generalize railsAt (Nat.lor s.pow.rails (2 ^ rail.val)) t0 s = u at ran
  have mem := deviceReset_mem u
  have eng := deviceReset_eng u
  have now := deviceReset_now u
  generalize deviceReset u = z at ran mem eng now
  rw [sampleStraps_eq, State.setPow] at ran
  exact Gives.of_eq ran ⟨rfl, rfl, mem, fun e => (congrArg (·[e]) eng).trans (reset_eng e), now⟩

end

end Sys2Proof.Machine
end

section
/-!
PROOFS. RESET_L, its end, the Hearth domain's power-up; the start-up assembled (R452 to R455).
-/

namespace Sys2Proof.Machine

section
variable {s : State} (t0 : Nat)

/-- A register outside the Hearth domain, once the rest of the file is gone, holds its reset value. -/
theorem rfRead_filter_other (l : RegFile) {a : Nat} (other : hearthReg a = false) : rfRead (l.filter fun p => hearthReg p.1) a = regReset a := by
  have none : (l.filter fun p => hearthReg p.1).find? (fun p => p.1 == a) = none := by
    rw [List.find?_eq_none]
    intro p listed at_
    rw [List.mem_filter] at listed
    rw [beq_iff_eq.1 at_] at listed
    exact absurd (listed.2.symm.trans other) (by decide)
  rw [rfRead, none]

theorem deviceReset_eff (s : State) : (deviceReset s).eff = [] := by
  simp -implicitDefEqProofs only [deviceReset, zeroTime, State.put_eq]
  rfl

/-- The part held in reset with a cause. -/
theorem holdReset_eq {cause : Field} {s z : State} (reset : deviceReset (s.put cause 1) = z) : holdReset cause s = { z with
    boot := { z.boot with inReset := true }, pow := { z.pow with down := 0, held := false, step := 0, try_ := 0, refOff := false } } := by
  rw [holdReset, reset, State.setBoot, State.setPow]

/-- What the part held in reset holds: no store, no engine's work, device time 0, the cause. -/
theorem holdReset_held {cause : Field} (fits : cause.fits = true) (bit : cause.width = 1) (at_ : cause.reg = Reg.SYS_RSTCAUSE) (s : State) :
    (holdReset cause s).boot.inReset = true ∧ (holdReset cause s).boot.devDue = none ∧ (holdReset cause s).get cause = 1
      ∧ (holdReset cause s).mem = [] ∧ (holdReset cause s).eff = [] ∧ (∀ e : Fin 9, (holdReset cause s).eng[e] = {}) ∧ (holdReset cause s).now = 0
      ∧ (holdReset cause s).regs = resetRegs (s.put cause 1) := by
  have regs := deviceReset_regs (s.put cause 1)
  have mem := deviceReset_mem (s.put cause 1)
  have eff := deviceReset_eff (s.put cause 1)
  have eng := deviceReset_eng (s.put cause 1)
  have now := deviceReset_now (s.put cause 1)
  have due : (deviceReset (s.put cause 1)).boot.devDue = none := by rw [deviceReset_boot]
  have flag : rfGet (resetRegs (s.put cause 1)) cause = 1 := by
    rw [rfGet_resetRegs (by rw [at_]; decide) (by rw [at_]; decide), State.get_eq_rfGet, State.put_regs, rfGet_rfPut_self _ _ fits, bit]
    rfl
  obtain ⟨z, reset⟩ : ∃ z, deviceReset (s.put cause 1) = z := ⟨_, rfl⟩
  rw [reset] at regs mem eff eng now due
  rw [holdReset_eq reset]
  refine ⟨rfl, due, ?_, mem, eff, fun e => (congrArg (·[e]) eng).trans (reset_eng e), now, regs⟩
  rw [State.get_eq_rfGet]
  exact (congrArg (rfGet · cause) regs).trans flag

theorem resetLAssert_gives : Gives (.resetLAssert t0) s fun t => t.boot.inReset = true ∧ t.boot.resetL = false ∧ t.get Fld.SYS_RSTCAUSE_PIN = 1 ∧ t.mem = []
    ∧ t.eff = [] ∧ (∀ e : Fin 9, t.eng[e] = {})
    ∧ (∀ a, hearthReg a = false → a ≠ Reg.AGT_ARB → a ≠ Reg.TLY_STAT → t.rd a = regReset a) ∧ t.now = 0
    ∧ (∀ a, hearthReg a = true → a ≠ Reg.SYS_RSTCAUSE → t.rd a = s.rd a) := by
  obtain ⟨held, _, pin, mem, eff, eng, now, regs⟩ := holdReset_held (cause := Fld.SYS_RSTCAUSE_PIN) (by decide) rfl rfl (s.at t0)
  have ran : execResetLAssert t0 s = .next ((holdReset Fld.SYS_RSTCAUSE_PIN (s.at t0)).setBoot
      { (holdReset Fld.SYS_RSTCAUSE_PIN (s.at t0)).boot with resetL := false }) := by
    rw [execResetLAssert]
  obtain ⟨z, reset⟩ : ∃ z, holdReset Fld.SYS_RSTCAUSE_PIN (s.at t0) = z := ⟨_, rfl⟩
  rw [reset] at held pin mem eff eng now regs ran
  rw [State.setBoot] at ran
  have file : ({ z with boot := { z.boot with resetL := false } } : State).regs = resetRegs ((s.at t0).put Fld.SYS_RSTCAUSE_PIN 1) := regs
  refine Gives.of_eq ran ⟨held, rfl, pin, mem, eff, eng, fun a outside arb stat => ?_, now, fun a inside cause => ?_⟩
  · have count : a ≠ Fld.AGT_ARB_HEARTH.reg := arb
    have status : a ≠ Fld.TLY_STAT_ADDR.reg := stat
    rw [State.rd_eq_rfRead, file, resetRegs, rfRead_rfPut_ne _ _ status, rfRead_rfPut_ne _ _ count, rfRead_filter_other _ outside]
  · have count : a ≠ Fld.AGT_ARB_HEARTH.reg := fun e => by rw [e] at inside; exact absurd inside (by decide)
    have status : a ≠ Fld.TLY_STAT_ADDR.reg := fun e => by rw [e] at inside; exact absurd inside (by decide)
    rw [State.rd_eq_rfRead, file, resetRegs, rfRead_rfPut_ne _ _ status, rfRead_rfPut_ne _ _ count, rfRead_filter_hearth _ inside, State.put_regs,
      rfRead_rfPut_ne _ _ cause, State.at_regs, ← State.rd_eq_rfRead]

theorem resetEnd_gives (x : BitVec 8) (held : s.boot.inReset = true) (hearth : s.pow.hearth = true) (ref : x.toNat % 4 ≠ 3) (src : x.toNat / 64 ≠ 3) :
    Gives (.resetEnd x t0) s fun t => t.boot.inReset = false ∧ t.boot.straps = x.toNat ∧ t.pow.wakeOut = true ∧ t.pow.step = 1 ∧ t.pow.try_ = 1
      ∧ t.get Fld.CLK_REF_MULT = x.toNat % 4 ∧ t.get Fld.TLY_STAT_HEAD = x.toNat / 4 % 2 ∧ t.get Fld.TLY_STAT_BASE = x.toNat / 8 % 8
      ∧ t = { s with now := 0, regs := t.regs, flt := t.flt, boot := t.boot, pow := t.pow, calen := t.calen, bel := t.bel }
      ∧ SameRegs [Reg.CLK_REF, Reg.TLY_STAT] s t := by
  have byte := x.isLt
  have good : (x.toNat % 4 == 3 || x.toNat / 64 % 4 == 3) = false := by
    rw [Bool.or_eq_false_iff, beq_eq_false_iff_ne, beq_eq_false_iff_ne]
    omega
  have ran : ∃ flt boot pow calen bel, exec (.resetEnd x t0) s = .next { s with
      now := 0, regs := strapRegs x.toNat s.regs, flt := flt, boot := boot, pow := pow, calen := calen, bel := bel }
      ∧ boot.inReset = false ∧ boot.straps = x.toNat ∧ pow.wakeOut = true ∧ pow.step = 1 ∧ pow.try_ = 1 := by
    have same : exec (.resetEnd x t0) s = execResetEnd x t0 s := rfl
    have opens : ((!s.boot.inReset || !s.pow.hearth) = true) = False := by simp [held, hearth]
    rw [same]
    simp -implicitDefEqProofs only [execResetEnd, opens, if_false, sampleStraps_eq, good, zeroTime, State.setBoot, State.setPow, State.at, Bool.false_eq_true]
    exact ⟨_, _, _, _, _, rfl, rfl, rfl, rfl, rfl, rfl⟩
  obtain ⟨flt, boot, pow, calen, bel, ran, on, straps, out, step, tries⟩ := ran
  refine Gives.of_eq ran ⟨on, straps, out, step, tries, ?_, ?_, ?_, rfl, ?_⟩
  · simp (disch := decide) only [State.get_eq_rfGet, strapRegs, rfGet_rfPut_self, rfGet_rfPut_apart]
    exact Nat.mod_eq_of_lt (show x.toNat % 4 < 4 by omega)
  · simp (disch := decide) only [State.get_eq_rfGet, strapRegs, rfGet_rfPut_self, rfGet_rfPut_apart]
    exact Nat.mod_eq_of_lt (show x.toNat / 4 % 2 < 2 by omega)
  · simp (disch := decide) only [State.get_eq_rfGet, strapRegs, rfGet_rfPut_self]
    exact Nat.mod_eq_of_lt (show x.toNat / 8 % 8 < 8 by omega)
  · exact ((((RfSame.refl _ _).put (by decide) _).put (by decide) _).put (by decide) _).sameRegs

theorem exec_hearthPowerUp_none (none : s.pow.hearth = true ∨ Nat.land s.pow.rails 0x180 = 0x180) : exec (.hearthPowerUp t0) s = .next s := by
  have stays : (s.pow.hearth || (bitOf s.pow.rails 7 && bitOf s.pow.rails 8)) = true := by
    rcases none with up | out
    · rw [up, Bool.true_or]
    · rw [(bothRails_iff _).2 out, Bool.or_true]
  show execHearthPowerUp t0 s = _
  rw [execHearthPowerUp, if_pos stays]

theorem hearthPowerUp_gives (off : s.pow.hearth = false) (rail : bitOf s.pow.rails 7 = false ∨ bitOf s.pow.rails 8 = false) :
    Gives (.hearthPowerUp t0) s fun t => t.boot.inReset = true ∧ t.get Fld.SYS_RSTCAUSE_POR = 1 ∧ t.mem = [] ∧ t.eff = []
      ∧ (∀ a, a ≠ Reg.SYS_RSTCAUSE → t.rd a = regReset a) ∧ t.agt.revoked = s.agt.revoked ∧ t.agt.keys = s.agt.keys ∧ t.agt.burnt = s.agt.burnt := by
  have starts : (s.pow.hearth || (bitOf s.pow.rails 7 && bitOf s.pow.rails 8)) = false := by
    rcases rail with seven | eight
    · rw [off, seven, Bool.false_and, Bool.or_self]
    · rw [off, eight, Bool.and_false, Bool.or_self]
  have ran : ∃ z : State, exec (.hearthPowerUp t0) s = .next (z.put Fld.SYS_RSTCAUSE_POR 1) ∧ z.boot.inReset = true ∧ z.regs = [] ∧ z.mem = [] ∧ z.eff = []
      ∧ z.agt.revoked = s.agt.revoked ∧ z.agt.keys = s.agt.keys ∧ z.agt.burnt = s.agt.burnt := by
    have same : exec (.hearthPowerUp t0) s = execHearthPowerUp t0 s := rfl
    rw [same, execHearthPowerUp, starts, if_neg Bool.false_ne_true]
    dsimp only
    exact ⟨_, rfl, rfl, rfl, rfl, rfl, rfl, rfl, rfl⟩
  obtain ⟨z, ran, held, regs, mem, eff, revoked, keys, burnt⟩ := ran
  rw [State.put_eq] at ran
  refine Gives.of_eq ran ⟨held, ?_, mem, eff, fun a other => ?_, revoked, keys, burnt⟩
  · rw [State.get_eq_rfGet]
    exact rfGet_rfPut_self _ _ (by decide)
  · rw [State.rd_eq_rfRead]
    refine (rfRead_rfPut_ne _ _ other).trans ?_
    rw [regs]
    rfl

end

/-- Settles O45: the sequencer's steps by their lemmas, the resets through the registers that a device reset leaves. -/
theorem startUp : Obligations.StartUp := by
  refine ⟨fun s t0 runs inTime => ⟨exec_wakeStepPass_rails runs inTime, exec_wakeStepPass_refin runs inTime, wakeStepPass_last runs inTime⟩,
    fun s t0 runs active expired => ⟨exec_wakeStepTimeout_again runs active expired, wakeStepTimeout_third runs active expired⟩,
    fun s r v taken booted ram => wakerecClear_gives taken booted ram, fun s rail t0 had hearth calm => supplyChange_restored rail t0 had hearth calm,
    fun s rail t0 hearth down runs step fallen => supplyChange_lost rail t0 hearth down runs step fallen, fun s t0 => resetLAssert_gives t0,
    fun s x t0 held hearth ref src => resetEnd_gives t0 x held hearth ref src, fun s t0 => ⟨exec_hearthPowerUp_none t0, hearthPowerUp_gives t0⟩⟩

end Sys2Proof.Machine
end

section
/-!
PROOFS. Resets by software (R196, R453, R469 to R471).
-/

namespace Sys2Proof.Machine

section
variable {s : State}

theorem exec_sysRstDev {r : Req} {v : Word} (taken : Takes s r Reg.SYS_RST) (reeve : r.id = 16) (machine : r.priv = 2) (one : v.getLsbD 1 = false) :
    exec (.sysRstDev r v) s =
      .next { s with resp := { err := false, data := 0 }, boot := { s.boot with devDue := some (s.now + 10 * usU) } } := by
  have zero : (v ||| 1#32).getLsbD 0 = true := by rw [BitVec.getLsbD_or, show (1#32).getLsbD 0 = true by decide, Bool.or_true]
  have rest : (v ||| 1#32).getLsbD 1 = false := by rw [BitVec.getLsbD_or, one, show (1#32).getLsbD 1 = false by decide, Bool.or_self]
  refine congrArg Host.Outcome.next ((regCmd_ok taken).trans ?_)
  rw [sysRstWrite, if_pos ⟨reeve, machine⟩]
  simp only [zero, rest, if_true, Bool.false_eq_true, if_false]
  rw [State.setBoot, State.ok]

theorem exec_reeveRestart {r : Req} {v : Word} (taken : Takes s r Reg.SYS_RST) (reeve : r.id = 16) (machine : r.priv = 2) (zero : v.getLsbD 0 = false) :
    exec (.reeveRestart r v) s = .next (reeveRestart s.ok) := by
  have one : (v ||| 2#32).getLsbD 1 = true := by rw [BitVec.getLsbD_or, show (2#32).getLsbD 1 = true by decide, Bool.or_true]
  have rest : (v ||| 2#32).getLsbD 0 = false := by rw [BitVec.getLsbD_or, zero, show (2#32).getLsbD 0 = false by decide, Bool.or_self]
  refine congrArg Host.Outcome.next ((regCmd_ok taken).trans ?_)
  rw [sysRstWrite, if_pos ⟨reeve, machine⟩]
  simp only [one, rest, if_true, Bool.false_eq_true, if_false]

/-! ### The Reeve starts again (R469) -/

/-- What a masked requester changes: stores' requests and their counts. -/
theorem maskRequesters_frame (k : Fin 10) (is : List Nat) : ∃ regs sto, s.maskRequesters k is = { s with regs := regs, sto := sto }
    ∧ ∀ a, a < 0x10000000 → rfRead regs a = rfRead s.regs a := by
  rw [State.maskRequesters]
  dsimp only
  split
  next small =>
    have window (f : Field) (a : Nat) (low : a < 0x10000000) : a ≠ (f.h k.val).reg := by
      show a ≠ hamletBase k.val + f.reg
      unfold hamletBase
      omega
    rw [State.add_eq, State.add_eq]
    refine ⟨_, _, rfl, fun a low => ?_⟩
    rw [rfRead_rfPut_ne _ _ (window (Fld.ARB_CNTn_COUNT.i 3) a low), rfRead_rfPut_ne _ _ (window (Fld.ARB_CNTn_COUNT.i 1) a low)]
  next => exact ⟨s.regs, _, rfl, fun a _ => rfl⟩

/-- The Reeve's requests masked at every store. -/
theorem maskReeve_frame (s : State) : ∃ regs sto, s.maskReeve = { s with regs := regs, sto := sto } ∧ ∀ a, a < 0x10000000 → rfRead regs a = rfRead s.regs a := by
  have all (l : List (Fin 10)) (t : State) : ∃ regs sto, l.foldl (fun s k => s.maskRequesters k [6]) t = { t with regs := regs, sto := sto }
      ∧ ∀ a, a < 0x10000000 → rfRead regs a = rfRead t.regs a := by
    induction l generalizing t with
    | nil => exact ⟨_, _, rfl, fun _ _ => rfl⟩
    | cons k rest ih =>
      obtain ⟨regs, sto, first, low⟩ := maskRequesters_frame (s := t) k [6]
      obtain ⟨regs', sto', next, low'⟩ := ih (t.maskRequesters k [6])
      rw [List.foldl_cons, next, first]
      refine ⟨regs', sto', rfl, fun a inside => (low' a inside).trans ?_⟩
      rw [first]
      exact low a inside
  exact all _ s

/-- The Reeve halted, unprotected, without a session; its locks broken. -/
def reeveCleared (s : State) : State := (((closeSession (unprotect 8 (s.put Fld.SYS_RSTCAUSE_REEVE 1))).setEng 8 {}).maskReeve).breakAllLocks [4]

theorem reeveCleared_eq : ∃ t, TrainOnly { s with
      regs := t, agt := { s.agt with prot := s.agt.prot.set 8 none, sess := none }, eng := s.eng.set 8 {}, sto := (reeveCleared s).sto } (reeveCleared s)
    ∧ rfGet t Fld.SYS_RSTCAUSE_REEVE = 1 := by
  have start : (closeSession (unprotect 8 (s.put Fld.SYS_RSTCAUSE_REEVE 1))).setEng 8 {} = { s with
      regs := rfWrite (rfWrite (rfPut s.regs Fld.SYS_RSTCAUSE_REEVE 1) (Reg.AGT_HIMGh + 4 * (8 : Fin 9).val) 0#32) Reg.AGT_SESS 0#32
      agt := { s.agt with prot := s.agt.prot.set 8 none, sess := none }, eng := s.eng.set 8 {} } := by
    simp -implicitDefEqProofs only [closeSession, unprotect, State.setEng, State.setAgt, State.put_eq, State.wr_eq]
    rfl
  have cause : rfGet (rfWrite (rfWrite (rfPut s.regs Fld.SYS_RSTCAUSE_REEVE 1) (Reg.AGT_HIMGh + 4 * (8 : Fin 9).val) 0#32) Reg.AGT_SESS 0#32)
      Fld.SYS_RSTCAUSE_REEVE = 1 := by
    rw [rfGet_rfWrite_ne _ _ (by decide), rfGet_rfWrite_ne _ _ (by decide), rfGet_rfPut_self _ _ (by decide)]
    rfl
  generalize rfWrite (rfWrite (rfPut s.regs Fld.SYS_RSTCAUSE_REEVE 1) (Reg.AGT_HIMGh + 4 * (8 : Fin 9).val) 0#32) Reg.AGT_SESS 0#32 = r at start cause
  obtain ⟨regs, sto, masked, low⟩ := maskReeve_frame ((closeSession (unprotect 8 (s.put Fld.SYS_RSTCAUSE_REEVE 1))).setEng 8 {})
  have broken := trainOnly_breakAllLocks (s := ((closeSession (unprotect 8 (s.put Fld.SYS_RSTCAUSE_REEVE 1))).setEng 8 {}).maskReeve) [4]
  rw [← reeveCleared, masked, start] at broken
  have kept : (reeveCleared s).sto = sto := by rw [broken.eq]
  rw [start] at low
  refine ⟨regs, ?_, ?_⟩
  · rw [kept]
    exact broken
  · rw [rfGet, low _ (by decide)]
    exact cause

theorem reeveRestart_eq (s : State) : reeveRestart s = startLoad (reeveCleared s) := by rw [reeveRestart, reeveCleared]

theorem reeveRestart_gives {r : Req} {v : Word} (taken : Takes s r Reg.SYS_RST) (reeve : r.id = 16) (machine : r.priv = 2) (zero : v.getLsbD 0 = false) :
    Gives (.reeveRestart r v) s fun t => t.get Fld.SYS_RSTCAUSE_REEVE = 1 ∧ t.eng[8] = {} ∧ t.agt.prot[8] = none ∧ t.agt.sess = none
      ∧ t.boot.booting = true ∧ t.boot.upAt = s.now ∧ t.mem = s.mem := by
  obtain ⟨regs, cleared, cause⟩ := reeveCleared_eq (s := s.ok)
  have loads := bootOnly_startLoad (s := reeveCleared s.ok)
  have boot := startLoad_boot (s := reeveCleared s.ok)
  have get := cleared.get (f := Fld.SYS_RSTCAUSE_REEVE) (by decide)
  have eq := cleared.eq
  refine Gives.of_eq (exec_reeveRestart taken reeve machine zero) ?_
  rw [reeveRestart_eq]
  generalize startLoad (reeveCleared s.ok) = t at loads boot
  generalize reeveCleared s.ok = u at loads boot eq get
  refine ⟨?_, ?_, ?_, ?_, ?_, ?_, ?_⟩
  · rw [loads.get (by decide), get, State.get_eq_rfGet]
    exact cause
  · rw [loads.eng, eq]
    exact Vector.getElem_set_self _
  · rw [loads.agt, eq]
    exact Vector.getElem_set_self _
  · rw [loads.agt, eq]
  · rw [boot]
  · rw [boot, eq]
    rfl
  · rw [loads.mem, eq]
    rfl

theorem deviceReset_gives {d : Nat} (due : s.boot.devDue = some d) : Gives .deviceReset s fun t => t.boot.inReset = true ∧ t.boot.devDue = none
    ∧ t.get Fld.SYS_RSTCAUSE_SOFT = 1 ∧ t.mem = [] ∧ t.now = 0 := by
  have ran : exec .deviceReset s = .next (holdReset Fld.SYS_RSTCAUSE_SOFT (s.at d)) := by
    show execDeviceReset s = _
    simp only [execDeviceReset, due]
  obtain ⟨held, none, soft, mem, _, _, now, _⟩ := holdReset_held (cause := Fld.SYS_RSTCAUSE_SOFT) (by decide) rfl rfl (s.at d)
  exact Gives.of_eq ran ⟨held, none, soft, mem, now⟩

end

end Sys2Proof.Machine
end

section
/-!
PROOFS. The remote resets (R196).
-/

namespace Sys2Proof.Machine

/-- The link's data, the engines, the stores and device time are the same. -/
structure CoreSame (s t : State) : Prop where
  lnk : t.lnk = s.lnk
  eng : t.eng = s.eng
  mem : t.mem = s.mem
  now : t.now = s.now

section
variable {s t u : State}

theorem CoreSame.refl (s : State) : CoreSame s s := ⟨rfl, rfl, rfl, rfl⟩

theorem CoreSame.trans (first : CoreSame s t) (second : CoreSame t u) : CoreSame s u :=
  ⟨second.lnk.trans first.lnk, second.eng.trans first.eng, second.mem.trans first.mem, second.now.trans first.now⟩

theorem CoreSame.put (same : CoreSame s t) (f : Field) (v : Nat) : CoreSame s (t.put f v) := same.trans ⟨rfl, rfl, rfl, rfl⟩

theorem CoreSame.wr (same : CoreSame s t) (a : Nat) (v : Word) : CoreSame s (t.wr a v) := same.trans ⟨rfl, rfl, rfl, rfl⟩

theorem CoreSame.tx (same : CoreSame s t) (x : Vector Tx 8) : CoreSame s { t with tx := x } := ⟨same.lnk, same.eng, same.mem, same.now⟩

theorem CoreSame.rx (same : CoreSame s t) (x : Vector Rx 8) : CoreSame s { t with rx := x } := ⟨same.lnk, same.eng, same.mem, same.now⟩

theorem CoreSame.flt (same : CoreSame s t) (x : Flt) : CoreSame s { t with flt := x } := ⟨same.lnk, same.eng, same.mem, same.now⟩

theorem CoreSame.foldl {β : Type} {f : State → β → State} {l : List β} (each : ∀ t, ∀ b ∈ l, CoreSame t (f t b)) (same : CoreSame s t) :
    CoreSame s (l.foldl f t) := by
  induction l generalizing t with
  | nil => exact same
  | cons b rest ih => exact ih (fun t b listed => each t b (List.mem_cons_of_mem _ listed)) (same.trans (each t b (List.mem_cons_self ..)))

end

section
variable {s : State}

theorem coreSame_breakLocks (h : Fin 8) (owners : List Nat) : CoreSame s (s.breakLocks h owners) := by
  have one (t : State) (n : Nat) : CoreSame t (t.breakLock h n) := by
    have train := (trainOnly_breakLock (s := t) h n).eq
    obtain ⟨_, _, link⟩ := linkSame_breakLock (s := t) h n
    exact ⟨link, by rw [train], by rw [train], by rw [train]⟩
  rw [State.breakLocks]
  refine CoreSame.foldl (fun t n _ => ?_) (.refl s)
  split
  · exact one t n
  · exact .refl t

theorem coreSame_maskRequesters (k : Fin 10) (is : List Nat) : CoreSame s (s.maskRequesters k is) := by
  obtain ⟨_, _, masked, _⟩ := maskRequesters_frame (s := s) k is
  rw [masked]
  exact ⟨rfl, rfl, rfl, rfl⟩

theorem coreSame_countTx (h : Fin 8) (until_ : Nat) : CoreSame s (s.countTx h until_) := by
  rw [State.countTx]
  dsimp only
  split
  · rw [State.add_eq]
    exact ⟨rfl, rfl, rfl, rfl⟩
  · exact .refl s

theorem coreSame_countRx (h : Fin 8) (until_ : Nat) : CoreSame s (s.countRx h until_) := by
  rw [State.countRx]
  dsimp only
  split
  · rw [State.add_eq]
    exact ⟨rfl, rfl, rfl, rfl⟩
  · exact .refl s

theorem coreSame_forceZero (h : Fin 8) (quiet : Bool) : CoreSame s (s.forceZero h quiet) := by
  have tx : CoreSame s (s.forceTx h quiet) := by
    rw [State.forceTx]
    exact (((coreSame_countTx h s.now).put _ _).tx _).trans (coreSame_countTx h _)
  have rx {s : State} : CoreSame s (s.forceRx h quiet) := by
    rw [State.forceRx]
    exact (((coreSame_countRx h s.now).put _ _).rx _).trans (coreSame_countRx h _)
  exact tx.trans rx

theorem coreSame_darkHamlet (h : Fin 8) : CoreSame s (darkHamlet h s) := by
  rw [darkHamlet]
  exact (((coreSame_forceZero h true).put _ _).put _ _).flt _

theorem coreSame_unprotect (h : Fin 9) : CoreSame s (unprotect h s) := by
  rw [unprotect, State.wr_eq]
  exact ⟨rfl, rfl, rfl, rfl⟩

/-- The hamlet's registers and working data cleared: its engine alone counts here. -/
theorem coreSame_clearHamlet (h : Fin 8) : CoreSame (s.setEng (hEng h) {}) (clearHamlet h s) := by
  rw [clearHamlet, State.setEng]
  exact ⟨rfl, rfl, rfl, rfl⟩

/-- A frozen hamlet goes on in READY, its image unprotected, its signals dark. -/
theorem coreSame_settled (h : Fin 8) : CoreSame s (darkHamlet h (unprotect ⟨h.val, by omega⟩ (if s.hstate h = 3 then s.setHstate h 2 else s))) := by
  refine (CoreSame.trans ?_ (coreSame_unprotect _)).trans (coreSame_darkHamlet h)
  split
  · exact (CoreSame.refl s).put _ _
  · exact .refl s

/-- The locks that the reset broke stay shown. -/
theorem coreSame_brokenShown (h : Fin 8) (w : Word) :
    CoreSame s ((List.range 32).foldl (fun s n => if w.getLsbD n then s.put ((Fld.LCK_n_BROKEN.i n).h h) 1 else s) s) := by
  refine CoreSame.foldl (fun t n _ => ?_) (.refl s)
  split
  · exact (CoreSame.refl t).put _ _
  · exact .refl t

/-- A reset of a hamlet halts its engine and leaves the others, the link's data and the stores. -/
theorem coreSame_hamletReset (h : Fin 8) : CoreSame (s.setEng (hEng h) {}) (hamletReset h s) := by
  have masked : CoreSame s ((s.breakLocks h [1, 2, 3, 4, 5]).maskRequesters ⟨h.val, by omega⟩ [0, 1, 2, 3, 4]) :=
    (coreSame_breakLocks h _).trans (coreSame_maskRequesters _ _)
  have cleared (p : Nat → Bool) : CoreSame (s.setEng (hEng h) {})
      (clearHamlet h (((s.breakLocks h [1, 2, 3, 4, 5]).maskRequesters ⟨h.val, by omega⟩ [0, 1, 2, 3, 4]).resetRegs p)) := by
    refine CoreSame.trans ?_ (coreSame_clearHamlet h)
    obtain ⟨lnk, eng, mem, now⟩ := masked
    exact ⟨lnk, congrArg (fun e => e.set (hEng h) {}) eng, mem, now⟩
  rw [hamletReset]
  exact (((cleared _).wr _ _).trans (coreSame_brokenShown h _)).trans (coreSame_settled h)

end

/-! ### The command (R196) -/

section
variable {s : State} {g d : Nat} {rest : List (Nat × Nat)}

theorem exec_remoteResetExecute (due : s.lnk.resets = (g, d) :: rest) : exec .remoteResetExecute s =
    .next (if g < 8 then (if 2 ≤ s.hstate g then hamletReset (Fin.ofNat 8 g) ((s.at d).setLnk { s.lnk with resets := rest })
      else (s.at d).setLnk { s.lnk with resets := rest }) else holdReset Fld.SYS_RSTCAUSE_REMOTE ((s.at d).setLnk { s.lnk with resets := rest })) := by
  show execRemoteResetExecute s = _
  rw [execRemoteResetExecute, due]
  rfl

theorem remoteResetExecute_device (due : s.lnk.resets = (g, d) :: rest) (device : 8 ≤ g) : Gives .remoteResetExecute s fun t => t.boot.inReset = true
    ∧ t.get Fld.SYS_RSTCAUSE_REMOTE = 1 ∧ t.mem = [] ∧ t.now = 0 := by
  have ran := exec_remoteResetExecute due
  rw [if_neg (by omega)] at ran
  obtain ⟨held, _, cause, mem, _, _, now, _⟩ := holdReset_held (cause := Fld.SYS_RSTCAUSE_REMOTE) (by decide) rfl rfl ((s.at d).setLnk { s.lnk with resets := rest })
  exact Gives.of_eq ran ⟨held, cause, mem, now⟩

theorem remoteResetExecute_hamlet {h : Fin 8} (due : s.lnk.resets = (g, d) :: rest) (hamlet : g = h.val) (on : 2 ≤ s.hstate h) :
    Gives .remoteResetExecute s fun t => t.lnk.resets = rest ∧ t.eng[hEng h] = {} ∧ t.mem = s.mem ∧ t.now = max s.now d := by
  subst hamlet
  have ran := exec_remoteResetExecute due
  rw [if_pos h.isLt, if_pos on, show Fin.ofNat 8 h.val = h by simp] at ran
  obtain ⟨lnk, eng, mem, now⟩ := coreSame_hamletReset (s := (s.at d).setLnk { s.lnk with resets := rest }) h
  refine Gives.of_eq ran ⟨?_, ?_, mem, now⟩
  · rw [lnk]
    rfl
  · rw [eng]
    exact Vector.getElem_set_self _

theorem exec_remoteResetExecute_off (due : s.lnk.resets = (g, d) :: rest) (hamlet : g < 8) (off : s.hstate g < 2) : exec .remoteResetExecute s =
    .next { s with now := max s.now d, lnk := { s.lnk with resets := rest } } := by
  rw [exec_remoteResetExecute due, if_pos hamlet, if_neg (by omega)]
  rfl

end

end Sys2Proof.Machine
end

section
/-!
PROOFS. The boot of the Reeve: an image, a failure, its retry, the boot record (R455, R459 to R461); the settlement of O46.
-/

namespace Sys2Proof.Machine

section
variable {s : State} {slot : Fin 3} {img : List Nat} {t0 : Nat}

/-! ### An image taken or refused (R459 to R461) -/

theorem exec_bootImageAccepted (boots : s.boot.booting = true) (stored : slot.val < 2) (next : s.bootNext = some slot.val)
    {x : Nat × List Nat} (checked : (s.at t0).imgCheck (img.take 512) ((img.drop 512).take (imgLen (img.take 512))) 1 0 = x) :
    exec (.bootImageAccepted slot img t0) s = .next (if x.1 ≠ 0 then
        bootTryFailed slot ((s.at t0).wr bootRec (BitVec.ofNat 32 ((s.rd bootRec).toNat / 8 * 8 + x.1 % 8)))
      else startReeve (imgEntry (img.take 512)) (((protectImage 8 (img.take 512) 0 ((s.at t0).putBytes (imgLoad (img.take 512)) x.2)).wr bootRec
          (BitVec.ofNat 32 (2 ^ 31 + (s.rd bootRec).toNat / 16 % 2 ^ 27 * 16 + slot.val % 2 * 8 + (s.rd bootRec).toNat % 8))).setBoot
        { s.boot with booting := false, rom := false, retry := none })) := by
  have local_ : slot ≠ 2 := fun e => by rw [e] at stored; exact absurd stored (by decide)
  have open_ : (!s.boot.booting || s.bootNext != some slot.val) = false := by rw [boots, next]; simp
  show execBootImageAccepted slot img t0 s = _
  rw [execBootImageAccepted, open_, if_neg Bool.false_ne_true]
  dsimp only
  rw [if_neg local_, if_neg local_, checked]
  rfl

theorem bootImageAccepted_taken (boots : s.boot.booting = true) (stored : slot.val < 2) (next : s.bootNext = some slot.val)
    {x : Nat × List Nat} (checked : (s.at t0).imgCheck (img.take 512) ((img.drop 512).take (imgLen (img.take 512))) 1 0 = x) (good : x.1 = 0) :
    Gives (.bootImageAccepted slot img t0) s fun t => t.eng[8] = { state := 1, pc := imgEntry (img.take 512), priv := 2 } ∧ t.boot.booting = false
      ∧ (∃ p, t.agt.prot[8] = some p ∧ p.lo = imgLoad (img.take 512) ∧ p.len = imgLen (img.take 512)) ∧ t.now = max s.now t0 := by
  have ran := exec_bootImageAccepted boots stored next checked
  rw [if_neg (fun bad => bad good), startReeve, State.setEng, State.setBoot, protectImage, State.setAgt] at ran
  exact Gives.of_eq ran ⟨Vector.getElem_set_self _, rfl, ⟨_, Vector.getElem_set_self _, Nat.zero_add _, rfl⟩, rfl⟩

/-- Once a stored source is the last that the straps name, the link is never tried. -/
theorem bootNext_of_src_zero {u : State} (stored : u.bootSrc = 0) : u.bootNext ≠ some 2 := by
  have pref := Nat.mod_lt ((u.rd bootRec).toNat / 256) (show 0 < 2 by decide)
  rw [State.bootNext, stored]
  generalize (u.rd bootRec).toNat / 256 % 2 = pref at *
  intro next
  have listed := List.mem_of_getElem? next
  simp only [Nat.zero_ne_one, if_false, if_true, List.append_nil, List.mem_cons, List.not_mem_nil, or_false] at listed
  omega

theorem bootTryFailed_gives (n : Nat) (s : State) : (bootTryFailed n s).boot.failed = s.boot.failed ++ [n] ∧ (bootTryFailed n s).rd bootRec = s.rd bootRec
    ∧ (bootTryFailed n s).eng = s.eng ∧ (bootTryFailed n s).mem = s.mem ∧ (s.bootSrc = 0 → (bootTryFailed n s).regs = s.regs) := by
  rw [bootTryFailed, State.setBoot]
  dsimp only
  generalize untried : ({ s with boot := { s.boot with failed := s.boot.failed ++ [n] } } : State) = u
  have same : u.boot.failed = s.boot.failed ++ [n] ∧ u.rd bootRec = s.rd bootRec ∧ u.eng = s.eng ∧ u.mem = s.mem ∧ u.regs = s.regs ∧ u.bootSrc = s.bootSrc := by
    subst untried
    exact ⟨rfl, rfl, rfl, rfl, rfl, rfl⟩
  obtain ⟨failed, record, eng, mem, regs, src⟩ := same
  split
  next link =>
    refine ⟨?_, ?_, (bootOnly_bootLink).eng.trans eng, (bootOnly_bootLink).mem.trans mem, fun stored => absurd link (bootNext_of_src_zero (src.trans stored))⟩
    · rw [bootLink_boot]
      exact failed
    · have opened : (u.setBoot { u.boot with upAt := u.now }).rd bootRec = u.rd bootRec := by rw [State.setBoot]; rfl
      rw [bootLink, ← record, ← opened]
      dsimp only
      generalize u.setBoot { u.boot with upAt := u.now } = w
      split
      · rfl
      · rw [(trainOnly_startTraining true true).regs _ (by decide), State.rd_put_ne _ _ (by decide)]
  next => exact ⟨failed, record, eng, mem, fun _ => regs⟩

theorem bootImageAccepted_refused (boots : s.boot.booting = true) (stored : slot.val < 2) (next : s.bootNext = some slot.val)
    {x : Nat × List Nat} (checked : (s.at t0).imgCheck (img.take 512) ((img.drop 512).take (imgLen (img.take 512))) 1 0 = x) (bad : x.1 ≠ 0) :
    Gives (.bootImageAccepted slot img t0) s fun t => t.boot.failed = s.boot.failed ++ [slot.val] ∧ (t.rd bootRec).toNat % 8 = x.1 % 8 ∧ t.eng = s.eng ∧ t.mem = s.mem
      ∧ (s.bootSrc = 0 → SameRegs [bootRec] s t) := by
  have ran := exec_bootImageAccepted boots stored next checked
  rw [if_pos bad] at ran
  have tried := bootTryFailed_gives slot ((s.at t0).wr bootRec (BitVec.ofNat 32 ((s.rd bootRec).toNat / 8 * 8 + x.1 % 8)))
  refine Gives.of_eq ran ?_
  generalize bootTryFailed slot ((s.at t0).wr bootRec (BitVec.ofNat 32 ((s.rd bootRec).toNat / 8 * 8 + x.1 % 8))) = t at tried
  obtain ⟨failed, record, eng, mem, regs⟩ := tried
  refine ⟨failed, ?_, eng, mem, fun src => ?_⟩
  · rw [record, State.rd_wr_same, BitVec.toNat_ofNat, Nat.mod_mod_of_dvd _ (by decide)]
    omega
  · have same : SameRegs [bootRec] s ((s.at t0).wr bootRec (BitVec.ofNat 32 ((s.rd bootRec).toNat / 8 * 8 + x.1 % 8))) := by
      intro a other
      rw [State.rd_wr_ne _ _ (fun e => other (List.mem_singleton.2 e)), State.rd_at]
    intro a other
    rw [← same a other]
    exact State.rd_congr (regs src) a

theorem linkSame_laneReport : LinkSame s (laneReport s) :=
  ((LinkSame.refl s).inc (by decide)).trans (linkSame_raise 0x410 0xFF _ (by decide) (.inl (by decide)))

/-! ### A failure, its retry, the link's timeout (R459, R461) -/

theorem bootFailure_gives (res : Fin 8) (boots : s.boot.booting = true) : Gives (.bootFailure res t0) s fun t => t.boot.retry = some (max s.now t0 + 60 * secU)
    ∧ t.boot.booting = false ∧ t.boot.rom = true ∧ t.flt.bootFail = true
    ∧ (t.rd bootRec).toNat % 8 = (if s.boot.failed = [] then res.val else (s.rd bootRec).toNat % 8)
    ∧ t = { s with now := max s.now t0, regs := t.regs, boot := t.boot, flt := t.flt } ∧ SameRegs [bootRec] s t := by
  have ran : exec (.bootFailure res t0) s = .next { s with
      now := max s.now t0
      regs := rfWrite s.regs bootRec (BitVec.ofNat 32 (2 ^ 31 + (s.rd bootRec).toNat / 8 % 2 ^ 28 * 8 + (if s.boot.failed.isEmpty then res.val else (s.rd bootRec).toNat % 8)))
      boot := { s.boot with booting := false, rom := true, retry := some (max s.now t0 + 60 * secU) }
      flt := { s.flt with bootFail := true } } := by
    show execBootFailure res t0 s = _
    rw [execBootFailure, boots, if_neg (by decide)]
    rfl
  refine Gives.of_eq ran ⟨rfl, rfl, rfl, rfl, ?_, rfl, ((RfSame.refl _ _).write (by decide) _).sameRegs⟩
  have empty : (if s.boot.failed.isEmpty = true then res.val else (s.rd bootRec).toNat % 8) = if s.boot.failed = [] then res.val else (s.rd bootRec).toNat % 8 := by
    simp only [List.isEmpty_iff]
  have small : (if s.boot.failed = [] then res.val else (s.rd bootRec).toNat % 8) < 8 := by
    split
    · exact res.isLt
    · exact Nat.mod_lt _ (by decide)
  rw [empty]
  generalize (if s.boot.failed = [] then res.val else (s.rd bootRec).toNat % 8) = v at small
  rw [State.rd_eq_rfRead, rfRead_write_same, BitVec.toNat_ofNat]
  omega

theorem bootRetry_gives {d : Nat} (due : s.boot.retry = some d) : Gives .bootRetry s fun t => t.boot.booting = true ∧ t.boot.failed = [] ∧ t.boot.retry = none
    ∧ t.now = max s.now d ∧ t.mem = s.mem := by
  have ran : exec .bootRetry s = .next (startLoad (s.at d)) := by
    show execBootRetry s = _
    rw [execBootRetry, due]
  have boot := startLoad_boot (s := s.at d)
  exact Gives.of_eq ran ⟨by rw [boot], by rw [boot], by rw [boot], bootOnly_startLoad.now, bootOnly_startLoad.mem⟩

theorem bootLinkTimeout_gives (boots : s.boot.booting = true) (up : s.linkUp = true) (next : s.bootNext = some 2) (due : s.boot.upAt + 10 * secU ≤ max s.now t0)
    (none : ∀ m ∈ s.lnk.toReeve, m.flow ≠ 4) : Gives (.bootLinkTimeout t0) s fun t => t.get Fld.LNK_STAT_STATE = 1 ∧ t.lnk.tx.up = false ∧ t.lnk.rx.up = false
      ∧ t.now = max s.now (s.boot.upAt + 10 * secU) ∧ t.mem = s.mem := by
  have silent : (s.lnk.toReeve.any fun m => m.flow == 4) = false := by
    rw [List.any_eq_false]
    exact fun m listed => by rw [beq_iff_eq]; exact none m listed
  have ran : exec (.bootLinkTimeout t0) s = .next (retrain true true (s.at (s.boot.upAt + 10 * secU))) := by
    show execBootLinkTimeout t0 s = _
    rw [execBootLinkTimeout]
    dsimp only
    simp only [boots, up, next, silent, decide_eq_true due, Bool.not_false, Bool.and_self, beq_self_eq_true, if_true]
  obtain ⟨state, tx, rx, _⟩ := startTraining_link true true (s.at (s.boot.upAt + 10 * secU))
  have frame := (trainOnly_retrain (s := s.at (s.boot.upAt + 10 * secU)) true true).eq
  have same : LinkSame (startTraining true true (s.at (s.boot.upAt + 10 * secU))) (retrain true true (s.at (s.boot.upAt + 10 * secU))) :=
    linkSame_laneReport
  obtain ⟨_, _, lnk⟩ := id same
  have get := (same.get (.inl rfl)).trans state
  have now := congrArg State.now frame
  have mem := congrArg State.mem frame
  generalize retrain true true (s.at (s.boot.upAt + 10 * secU)) = t at *
  exact Gives.of_eq ran ⟨get, (congrArg (fun l => l.tx.up) lnk).trans tx, (congrArg (fun l => l.rx.up) lnk).trans rx, now, mem⟩

end

/-! ### The boot record (R455) -/

section
variable {s : State} {r : Req} {v : Word}

theorem exec_bootRecordWrite {w : Word} (taken : Takes s r bootRec) (wrote : retentionWrite r bootRec v s.ok = s.ok.wr bootRec w) :
    exec (.bootRecordWrite r v) s = .next { s with resp := { err := false, data := 0 }, regs := rfWrite s.regs bootRec w } := by
  refine congrArg Host.Outcome.next ((regCmd_ok taken).trans ?_)
  rw [wrote, State.wr_eq, State.ok]

theorem bootRecordWrite_trial (taken : Takes s r bootRec) (reeve : r.id = 16) (machine : r.priv = 2) (trial : v.getLsbD 7 = true) :
    Gives (.bootRecordWrite r v) s fun t => bitOf (t.rd bootRec).toNat 7 = true ∧ bitOf (t.rd bootRec).toNat 8 = v.getLsbD 8
      ∧ t = { s with resp := { err := false, data := 0 }, regs := t.regs } ∧ SameRegs [bootRec] s t := by
  have other : v ≠ 0#32 := fun zero => by rw [zero] at trial; exact absurd trial (by decide)
  have wrote : retentionWrite r bootRec v s.ok = s.ok.wr bootRec
      (BitVec.ofNat 32 ((s.rd bootRec).toNat / 512 * 512 + v.toNat / 256 % 2 * 256 + 128 + (s.rd bootRec).toNat % 16)) := by
    rw [retentionWrite, State.rd_ok, if_neg (by decide), if_pos ⟨rfl, reeve, machine⟩, if_neg (fun zero => other zero.1), if_pos trial]
  have word : (s.rd bootRec).toNat < 2 ^ 32 := (s.rd bootRec).isLt
  have bits : (v.toNat / 256 % 2 = 1) = (v.getLsbD 8 = true) := by
    rw [← BitVec.testBit_toNat, Nat.testBit_eq_decide_div_mod_eq, decide_eq_true_eq]
  refine Gives.of_eq (exec_bootRecordWrite taken wrote) ⟨?_, ?_, rfl, ((RfSame.refl _ _).write (by decide) _).sameRegs⟩
  · rw [State.rd_eq_rfRead, rfRead_write_same, BitVec.toNat_ofNat, Nat.mod_eq_of_lt (by omega), bitOf, decide_eq_true_eq]
    omega
  · rw [State.rd_eq_rfRead, rfRead_write_same, BitVec.toNat_ofNat, Nat.mod_eq_of_lt (by omega), Bool.eq_iff_iff, ← bits, bitOf, decide_eq_true_eq]
    omega

theorem bootRecordWrite_end (taken : Takes s r bootRec) (reeve : r.id = 16) (machine : r.priv = 2) (clear : v.getLsbD 7 = false)
    (trial : bitOf (s.rd bootRec).toNat 7 = true) :
    Gives (.bootRecordWrite r v) s fun t => bitOf (t.rd bootRec).toNat 7 = false ∧ (t.rd bootRec).toNat / 256 = (s.rd bootRec).toNat / 256
      ∧ t = { s with resp := { err := false, data := 0 }, regs := t.regs } ∧ SameRegs [bootRec] s t := by
  have wrote : retentionWrite r bootRec v s.ok = s.ok.wr bootRec (BitVec.ofNat 32 ((s.rd bootRec).toNat / 256 * 256 + (s.rd bootRec).toNat % 16)) := by
    rw [retentionWrite, State.rd_ok, if_neg (by decide), if_pos ⟨rfl, reeve, machine⟩]
    dsimp only
    rw [trial, if_neg (fun zero => absurd zero.2 (by decide)), clear, if_neg Bool.false_ne_true, if_pos rfl]
  have word : (s.rd bootRec).toNat < 2 ^ 32 := (s.rd bootRec).isLt
  refine Gives.of_eq (exec_bootRecordWrite taken wrote) ⟨?_, ?_, rfl, ((RfSame.refl _ _).write (by decide) _).sameRegs⟩
  · rw [State.rd_eq_rfRead, rfRead_write_same, BitVec.toNat_ofNat, Nat.mod_eq_of_lt (by omega), bitOf, decide_eq_false_iff_not]
    omega
  · rw [State.rd_eq_rfRead, rfRead_write_same, BitVec.toNat_ofNat, Nat.mod_eq_of_lt (by omega)]
    omega

end

/-- Settles O46: each reset is its effect on the state that its frame lemma names; a refused image moves on to the next source; the boot record is arithmetic on its word. -/
theorem softwareResetsAndBoot : Obligations.SoftwareResetsAndBoot := by
  refine ⟨fun s r v taken reeve machine => ⟨exec_sysRstDev taken reeve machine, reeveRestart_gives taken reeve machine⟩, fun s d => deviceReset_gives,
    fun s g d rest due => ⟨remoteResetExecute_device due, fun h => remoteResetExecute_hamlet due, exec_remoteResetExecute_off due⟩, ?_,
    fun s res t0 boots => bootFailure_gives res boots, fun s d => bootRetry_gives, fun s t0 => bootLinkTimeout_gives,
    fun s r v taken reeve machine => ⟨bootRecordWrite_trial taken reeve machine, bootRecordWrite_end taken reeve machine⟩⟩
  intro s slot img t0 boots stored next x
  by_cases good : x.1 = 0
  · simp only [if_pos good]
    exact bootImageAccepted_taken boots stored next rfl good
  · simp only [if_neg good]
    exact bootImageAccepted_refused boots stored next rfl good

end Sys2Proof.Machine
end

section
/-!
PROOFS. Calibration requests (R399 to R404).
-/

namespace Sys2Proof.Machine

section
variable {s : State} {n : Fin 9} {kind code : Nat}

theorem State.setReq_eq (q : Option CalReq) : s.setReq n q = { s with cal := { s.cal with req := s.cal.req.set n q } } := by rw [State.setReq, State.setCal]

theorem State.calReq_eq : s.calReq n = s.cal.req[n] := by rw [State.calReq]

/-! ### The end of a request (R404) -/

/-- The registers once a request has ended with a code. -/
def calEnded (n : Fin 9) (code : Nat) (l : RegFile) : RegFile :=
  rfPut (rfPut (rfPut l (Fld.CAL_STATs_BUSY.i n) 0) (Fld.CAL_REQs_GO.i n) 0) (Fld.CAL_STATs_CODE.i n) code

/-- The slot is free; a reference measurement that ends has once ended. -/
def Cal.freed (c : Cal) (n : Fin 9) (kind : Nat) : Cal := { c with req := c.req.set n none, ended := c.ended || (kind == 1 && (c.req[n]).isSome) }

theorem endCal_zero : endCal n kind 0 s = { s with
    regs := rfPut (rfPut (calEnded n 0 s.regs) (Fld.CAL_STATs_DONE.i n) 1) (Fld.CAL_CNTn_COUNT.i 0)
      (min (rfGet (rfPut (calEnded n 0 s.regs) (Fld.CAL_STATs_DONE.i n) 1) (Fld.CAL_CNTn_COUNT.i 0) + 1) (2 ^ 32 - 1))
    cal := s.cal.freed n kind } := by
  simp -implicitDefEqProofs only [endCal, if_true, State.setReq_eq, State.setCal, State.calReq_eq, State.inc_eq, State.put_eq, calEnded, Cal.freed]
  rfl

theorem endCal_code (failed : code ≠ 0) : endCal n kind code s = State.raise { s with
    regs := rfPut (rfPut (calEnded n code s.regs) (Fld.CAL_STATs_FAIL.i n) 1) (Fld.CAL_CNTn_COUNT.i 1)
      (min (rfGet (rfPut (calEnded n code s.regs) (Fld.CAL_STATs_FAIL.i n) 1) (Fld.CAL_CNTn_COUNT.i 1) + 1) (2 ^ 32 - 1))
    cal := s.cal.freed n kind } 0x460 0xFF (rfRead (rfPut (rfPut (calEnded n code s.regs) (Fld.CAL_STATs_FAIL.i n) 1) (Fld.CAL_CNTn_COUNT.i 1)
      (min (rfGet (rfPut (calEnded n code s.regs) (Fld.CAL_STATs_FAIL.i n) 1) (Fld.CAL_CNTn_COUNT.i 1) + 1) (2 ^ 32 - 1))) (Reg.CAL_STATs + 32 * n)).toNat := by
  simp -implicitDefEqProofs only [endCal, if_neg failed, State.setReq_eq, State.setCal, State.calReq_eq, State.inc_eq, State.put_eq, State.rd_eq_rfRead, calEnded, Cal.freed]
  rfl

theorem calCount_apart {m : Nat} (small : m < 2) (n : Fin 9) : (Fld.CAL_CNTn_COUNT.i m).apart (Fld.CAL_STATs_CODE.i n) = true
    ∧ (Fld.CAL_CNTn_COUNT.i m).apart (Fld.CAL_STATs_FAIL.i n) = true ∧ (Fld.CAL_CNTn_COUNT.i m).apart (Fld.CAL_STATs_BUSY.i n) = true
    ∧ (Fld.CAL_CNTn_COUNT.i m).apart (Fld.CAL_STATs_DONE.i n) = true := by
  have each : ∀ m < 2, ∀ n : Fin 9, (Fld.CAL_CNTn_COUNT.i m).apart (Fld.CAL_STATs_CODE.i n) = true
      ∧ (Fld.CAL_CNTn_COUNT.i m).apart (Fld.CAL_STATs_FAIL.i n) = true ∧ (Fld.CAL_CNTn_COUNT.i m).apart (Fld.CAL_STATs_BUSY.i n) = true
      ∧ (Fld.CAL_CNTn_COUNT.i m).apart (Fld.CAL_STATs_DONE.i n) = true := by decide
  exact each m small n

theorem calStats_quiet (n : Fin 9) : raiseTouches (Fld.CAL_STATs_CODE.i n).reg = false := by
  revert n
  decide

/-- The registers that the end of a request writes. -/
theorem calEnd_listed (n : Fin 9) : (Fld.CAL_REQs_GO.i n).reg ∈ [Reg.CAL_REQs + 32 * n.val, Reg.CAL_STATs + 32 * n.val, Reg.CAL_CNTn]
    ∧ (Fld.CAL_STATs_CODE.i n).reg ∈ [Reg.CAL_REQs + 32 * n.val, Reg.CAL_STATs + 32 * n.val, Reg.CAL_CNTn]
    ∧ (Fld.CAL_CNTn_COUNT.i 0).reg ∈ [Reg.CAL_REQs + 32 * n.val, Reg.CAL_STATs + 32 * n.val, Reg.CAL_CNTn] := by
  revert n
  decide

/-- A request that fails ends with its code, is no longer busy, and leaves the stores and device time alone. -/
theorem endCal_failed (failed : code ≠ 0) (small : code < 8) : (endCal n kind code s).get (Fld.CAL_STATs_CODE.i n) = code
    ∧ (endCal n kind code s).get (Fld.CAL_STATs_FAIL.i n) = 1 ∧ (endCal n kind code s).get (Fld.CAL_STATs_BUSY.i n) = 0
    ∧ (endCal n kind code s).cal = s.cal.freed n kind ∧ (endCal n kind code s).mem = s.mem ∧ (endCal n kind code s).now = s.now := by
  rw [endCal_code failed]
  obtain ⟨counted, fails, busy, _⟩ := calCount_apart (show 1 < 2 by decide) n
  generalize (min (rfGet (rfPut (calEnded n code s.regs) (Fld.CAL_STATs_FAIL.i n) 1) (Fld.CAL_CNTn_COUNT.i 1) + 1) (2 ^ 32 - 1)) = count
  generalize values : (rfPut (rfPut (calEnded n code s.regs) (Fld.CAL_STATs_FAIL.i n) 1) (Fld.CAL_CNTn_COUNT.i 1) count) = l
  have code_ : rfGet l (Fld.CAL_STATs_CODE.i n) = code := by
    rw [← values, rfGet_rfPut_apart _ _ (by decide) counted, calEnded]
    simp (disch := decide) only [rfGet_rfPut_i, rfGet_rfPut_self_i]
    exact Nat.mod_eq_of_lt small
  have fail_ : rfGet l (Fld.CAL_STATs_FAIL.i n) = 1 := by
    rw [← values, rfGet_rfPut_apart _ _ (by decide) fails, rfGet_rfPut_self_i _ _ _ (by decide)]
    rfl
  have busy_ : rfGet l (Fld.CAL_STATs_BUSY.i n) = 0 := by
    rw [← values, rfGet_rfPut_apart _ _ (by decide) busy, calEnded]
    simp (disch := decide) only [rfGet_rfPut_i, rfGet_rfPut_self_i]
    rfl
  generalize (rfRead l (Reg.CAL_STATs + 32 * n)).toNat = info
  have notice : NoticeOnly { s with regs := l, cal := s.cal.freed n kind } (State.raise { s with regs := l, cal := s.cal.freed n kind } 0x460 0xFF info) :=
    (NoticeOnly.refl _).raise (by decide) _ _
  have quiet := calStats_quiet n
  refine ⟨?_, ?_, ?_, by rw [notice.eq], by rw [notice.eq], by rw [notice.eq]⟩
  · rw [State.raise_get _ _ _ _ quiet, State.get_eq_rfGet, code_]
  · rw [State.raise_get _ _ _ _ ((Field.reg_i n rfl rfl).symm ▸ quiet), State.get_eq_rfGet, fail_]
  · rw [State.raise_get _ _ _ _ ((Field.reg_i n rfl rfl).symm ▸ quiet), State.get_eq_rfGet, busy_]

/-- A request that ends well is done with code 0; only its own registers and the count of ended requests change. -/
theorem endCal_done : (endCal n kind 0 s).get (Fld.CAL_STATs_DONE.i n) = 1 ∧ (endCal n kind 0 s).get (Fld.CAL_STATs_CODE.i n) = 0
    ∧ (endCal n kind 0 s).get (Fld.CAL_STATs_BUSY.i n) = 0 ∧ RfSame [Reg.CAL_REQs + 32 * n, Reg.CAL_STATs + 32 * n, Reg.CAL_CNTn] s.regs (endCal n kind 0 s).regs := by
  obtain ⟨counted, _, busy, done⟩ := calCount_apart (show 0 < 2 by decide) n
  rw [State.get_eq_rfGet, State.get_eq_rfGet, State.get_eq_rfGet, endCal_zero]
  dsimp only
  generalize (min (rfGet (rfPut (calEnded n 0 s.regs) (Fld.CAL_STATs_DONE.i n) 1) (Fld.CAL_CNTn_COUNT.i 0) + 1) (2 ^ 32 - 1)) = count
  refine ⟨?_, ?_, ?_, ?_⟩
  · rw [rfGet_rfPut_apart _ _ (by decide) done, rfGet_rfPut_self_i _ _ _ (by decide)]
    rfl
  · rw [rfGet_rfPut_apart _ _ (by decide) counted, calEnded]
    simp (disch := decide) only [rfGet_rfPut_i, rfGet_rfPut_self_i]
    rfl
  · rw [rfGet_rfPut_apart _ _ (by decide) busy, calEnded]
    simp (disch := decide) only [rfGet_rfPut_i, rfGet_rfPut_self_i]
    rfl
  · obtain ⟨reqs, stats, fails⟩ := calEnd_listed n
    have ended : RfSame [Reg.CAL_REQs + 32 * n, Reg.CAL_STATs + 32 * n, Reg.CAL_CNTn] s.regs (calEnded n 0 s.regs) :=
      (((RfSame.refl _ s.regs).put (f := Fld.CAL_STATs_BUSY.i n) stats _).put reqs _).put (f := Fld.CAL_STATs_CODE.i n) stats _
    exact (ended.put (f := Fld.CAL_STATs_DONE.i n) stats 1).put fails count

/-- The slot that a request leaves is free. -/
theorem Cal.freed_req (c : Cal) : (c.freed n kind).req[n] = none := Vector.getElem_set_self _

end

end Sys2Proof.Machine
end

section
/-!
PROOFS. Calibration requests: GO and STOP (R399 to R401, R404).
-/

namespace Sys2Proof.Machine

section
variable {s : State} {r : Req} {n : Fin 9} {v : Word}

/-! ### What a request needs is outside the calibration block (R400, R401) -/

/-- Registers outside the calibration block read the same. -/
def OutsideCal (l l' : RegFile) : Prop := ∀ a, a < 0x4060000 ∨ 0x4070000 ≤ a → rfRead l' a = rfRead l a

theorem OutsideCal.get {l l' : RegFile} (same : OutsideCal l l') {f : Field} (outside : f.reg < 0x4060000 ∨ 0x4070000 ≤ f.reg) : rfGet l' f = rfGet l f := by
  rw [rfGet, rfGet, same _ outside]

theorem outsideCal_window (f : Field) (h : Nat) : (f.h h).reg < 0x4060000 ∨ 0x4070000 ≤ (f.h h).reg := by
  right
  show 0x4070000 ≤ hamletBase h + f.reg
  unfold hamletBase
  omega

theorem calPre_congr {l : RegFile} {resp : Resp} (same : OutsideCal s.regs l) (h : Fin 8) (kind mask : Nat) :
    State.calPre { s with regs := l, resp := resp } h kind mask = s.calPre h kind mask := by
  have window (f : Field) : rfGet l (f.h h) = rfGet s.regs (f.h h) := same.get (outsideCal_window f h)
  have out (c : Fin 32) : rfGet l (Fld.BDA_CHc_STAT_OUT.i c) = rfGet s.regs (Fld.BDA_CHc_STAT_OUT.i c) := same.get (by revert c; decide)
  have owner (c : Fin 32) : rfGet l (Fld.BDA_CHc_STAT_OWNER.i c) = rfGet s.regs (Fld.BDA_CHc_STAT_OWNER.i c) := same.get (by revert c; decide)
  have clear (c : Fin 32) : rfGet l (Fld.BDA_CHc_CLR_CODE.i c) = rfGet s.regs (Fld.BDA_CHc_CLR_CODE.i c) := same.get (by revert c; decide)
  simp only [State.calPre, State.flag_eq_rfGet, State.bit, State.biasOut, State.biasOwner, State.get_eq_rfGet, window, out, owner, clear]

theorem calRuns_congr {l : RegFile} {resp : Resp} (same : OutsideCal s.regs l) (h : Fin 8) (kind mode mask : Nat) :
    State.calRuns { s with regs := l, resp := resp } h kind mode mask = s.calRuns h kind mode mask := by
  have window (f : Field) : rfGet l (f.h h) = rfGet s.regs (f.h h) := same.get (outsideCal_window f h)
  have state : rfGet l (Fld.PWR_HSTATE_STATE.sub h) = rfGet s.regs (Fld.PWR_HSTATE_STATE.sub h) := same.get (f := Fld.PWR_HSTATE_STATE.sub h) (.inl (show 0x401001C < _ by decide))
  have busy : rfGet l (Fld.PWR_HSTATE_BUSY.sub h) = rfGet s.regs (Fld.PWR_HSTATE_BUSY.sub h) := same.get (f := Fld.PWR_HSTATE_BUSY.sub h) (.inl (show 0x401001C < _ by decide))
  simp only [State.calRuns, State.hstate, State.flag_eq_rfGet, State.get_eq_rfGet, window, state, busy, calPre_congr same]

theorem calLost_congr {l : RegFile} {resp : Resp} (same : OutsideCal s.regs l) (q : CalReq) : State.calLost { s with regs := l, resp := resp } n q = s.calLost n q := by
  rw [State.calLost, State.calLost, calRuns_congr same]

/-! ### The word stored -/

def calReqDesc : RegDesc := ⟨Reg.CAL_REQs, [(32, 9)], [Fld.CAL_REQs_GO, Fld.CAL_REQs_STOP, Fld.CAL_REQs_MODE, Fld.CAL_REQs_CHECK, Fld.CAL_REQs_MASK, Fld.CAL_REQs_KIND]⟩

theorem descOf_calReq (n : Fin 9) : descOf (Reg.CAL_REQs + 32 * n) = some calReqDesc := by
  revert n
  decide +kernel

theorem getBits_congr {f : Field} {v w : Word} (same : ∀ i < f.width, v.getLsbD (f.lo + i) = w.getLsbD (f.lo + i)) : getBits f v = getBits f w := by
  refine Nat.eq_of_testBit_eq fun i => ?_
  rw [getBits, getBits, Nat.testBit_mod_two_pow, Nat.testBit_mod_two_pow, Nat.testBit_div_two_pow, Nat.testBit_div_two_pow]
  by_cases small : i < f.width
  · have bit := same i small
    rw [← BitVec.testBit_toNat, ← BitVec.testBit_toNat] at bit
    rw [Nat.add_comm i f.lo, bit]
  · rw [decide_eq_false small, Bool.false_and, Bool.false_and]

/-- The command bit that is forced, and GO's own bit, lie above the fields of a request. -/
theorem getBits_calWord {f : Field} (low : f.lo + f.width ≤ 30) {m : Word} (top : m = 0x80000000#32 ∨ m = 0x40000000#32) (v : Word) :
    getBits f ((v ||| m) &&& 0x7FFFFFFF#32) = getBits f v := by
  refine getBits_congr fun i small => ?_
  have kept : ∀ j < 30, (0x7FFFFFFF#32).getLsbD j = true ∧ (0x80000000#32).getLsbD j = false ∧ (0x40000000#32).getLsbD j = false := by decide
  obtain ⟨keep, clear, clear'⟩ := kept (f.lo + i) (by omega)
  have none : m.getLsbD (f.lo + i) = false := by
    rcases top with rfl | rfl
    · exact clear
    · exact clear'
  rw [BitVec.getLsbD_and, BitVec.getLsbD_or, keep, none, Bool.or_false, Bool.and_true]

/-- The registers once the request word is stored. -/
def calStored (n : Fin 9) (v : Word) (l : RegFile) : RegFile :=
  rfWrite l (Reg.CAL_REQs + 32 * n) (wordWrite false calReqDesc (v &&& 0x7FFFFFFF#32) (rfRead l (Reg.CAL_REQs + 32 * n)))

theorem calStored_eq (r : Req) (n : Fin 9) (v : Word) (s : State) :
    s.ok.storeReg r (Reg.CAL_REQs + 32 * n) (v &&& 0x7FFFFFFF#32) = { s with resp := { err := false, data := 0 }, regs := calStored n v s.regs } := by
  rw [State.storeReg_unguarded (descOf_calReq n) (by decide) r _, State.wr_eq, State.rd_ok, State.rd_eq_rfRead, calStored, State.ok]

theorem calStored_outside (l : RegFile) : OutsideCal l (calStored n v l) := by
  intro a outside
  have other : a ≠ Reg.CAL_REQs + 32 * n := by
    have small := n.isLt
    show a ≠ 0x4060100 + 32 * n.val
    omega
  rw [calStored, rfRead_write_ne _ _ other]

/-- A field of the request reads what the word asks for. -/
theorem rfGet_calStored {f : Field} (at_ : f.reg = 0x4060100 ∧ f.dims = [32]) (clean : calReqDesc.clean f = true) (has : calReqDesc.has f = true)
    (low : f.lo + f.width ≤ 30) {m : Word} (top : m = 0x80000000#32 ∨ m = 0x40000000#32) (l : RegFile) :
    rfGet (calStored n (v ||| m) l) (f.i n) = getBits f v := by
  have reg : (f.i n).reg = Reg.CAL_REQs + 32 * n.val := by
    rw [Field.i, at_.1, at_.2, Nat.mul_comm]
    rfl
  have word : getBits (f.i n) = getBits f := rfl
  rw [calStored, rfGet_rfWrite_same _ _ reg, word, getBits_wordWrite_plain clean has, getBits_calWord low top]

/-! ### GO (R399 to R401) -/

/-- The state once the request word is stored. -/
def State.calStored (s : State) (n : Fin 9) (v : Word) : State := { s with resp := { err := false, data := 0 }, regs := Machine.calStored n v s.regs }

theorem exec_calGo (taken : Takes s r (Reg.CAL_REQs + 32 * n)) (stop : v.getLsbD 30 = false) : exec (.calGo r n v) s =
    .next (if (s.calReq n).isSome then (s.calStored n (v ||| 0x80000000#32)).put (Fld.CAL_STATs_REFUSED.i n) 1 else calGo n (s.calStored n (v ||| 0x80000000#32))) := by
  have go : (v ||| 0x80000000#32).getLsbD 31 = true := by rw [BitVec.getLsbD_or, show (0x80000000#32).getLsbD 31 = true by decide, Bool.or_true]
  have none : (v ||| 0x80000000#32).getLsbD 30 = false := by rw [BitVec.getLsbD_or, stop, show (0x80000000#32).getLsbD 30 = false by decide, Bool.or_self]
  refine congrArg Host.Outcome.next ((regCmd_ok taken).trans ?_)
  rw [calReqWrite, calStored_eq, ← State.calStored]
  rw [go, none, if_neg Bool.false_ne_true, if_neg (by decide)]
  rfl

theorem exec_calStop (taken : Takes s r (Reg.CAL_REQs + 32 * n)) (nogo : v.getLsbD 31 = false) : exec (.calStop r n v) s =
    .next (calStop n (s.calStored n (v ||| 0x40000000#32))) := by
  have none : (v ||| 0x40000000#32).getLsbD 31 = false := by rw [BitVec.getLsbD_or, nogo, show (0x40000000#32).getLsbD 31 = false by decide, Bool.or_self]
  have stop : (v ||| 0x40000000#32).getLsbD 30 = true := by rw [BitVec.getLsbD_or, show (0x40000000#32).getLsbD 30 = true by decide, Bool.or_true]
  refine congrArg Host.Outcome.next ((regCmd_ok taken).trans ?_)
  rw [calReqWrite, calStored_eq, ← State.calStored]
  rw [none, stop, if_pos rfl, if_pos Bool.not_false]

theorem calSlot_listed (n : Fin 9) : (Fld.CAL_REQs_GO.i n).reg ∈ [Reg.CAL_REQs + 32 * n.val, Reg.CAL_STATs + 32 * n.val]
    ∧ (Fld.CAL_STATs_CODE.i n).reg ∈ [Reg.CAL_REQs + 32 * n.val, Reg.CAL_STATs + 32 * n.val] := by
  revert n
  decide

theorem calGo_refused (taken : Takes s r (Reg.CAL_REQs + 32 * n)) (stop : v.getLsbD 30 = false) (busy : s.calReq n ≠ none) :
    Gives (.calGo r n v) s fun t => t.get (Fld.CAL_STATs_REFUSED.i n) = 1 ∧ t.cal = s.cal
      ∧ t = { s with resp := { err := false, data := 0 }, regs := t.regs } ∧ SameRegs [Reg.CAL_REQs + 32 * n, Reg.CAL_STATs + 32 * n] s t := by
  have ran := exec_calGo taken stop
  obtain ⟨_, stats⟩ := calSlot_listed n
  rw [if_pos (Option.isSome_iff_ne_none.2 busy), State.put_eq, State.calStored] at ran
  refine Gives.of_eq ran ⟨?_, rfl, rfl, (((RfSame.refl _ s.regs).write (List.mem_cons_self ..) _).put (f := Fld.CAL_STATs_REFUSED.i n) stats 1).sameRegs⟩
  rw [State.get_eq_rfGet, rfGet_rfPut_self_i _ _ _ (by decide)]
  rfl

/-- A request as GO starts it. -/
def calRequest (kind mode check mask now : Nat) : CalReq := { kind := kind, mode := mode, check := check, mask := mask, go := now, last := now, estAt := now }

theorem calGo_eq {u : State} {kind mode mask : Nat} (kind_ : u.get (Fld.CAL_REQs_KIND.i n) = kind) (mode_ : u.get (Fld.CAL_REQs_MODE.i n) = mode)
    (mask_ : u.get (Fld.CAL_REQs_MASK.i n) = mask) {z : State} (kept : (u.put (Fld.CAL_STATs_KIND.i n) kind).put (Fld.CAL_STATs_RUNS.i n) 0 = z) : calGo n u =
    if !calAllowed n kind mode || mask == 0 || (n.val < 8 && (z.bist.target == some n.val || !z.calRuns (calHamlet n) kind mode mask)) then endCal n kind 3 z
    else if kind != 1 && !z.cal.ended then endCal n kind 6 z
    else ((z.setReq n (some (calRequest kind mode (z.get (Fld.CAL_REQs_CHECK.i n)) mask z.now))).put
      (Fld.CAL_STATs_BUSY.i n) 1).put (Fld.CAL_REQs_GO.i n) 1 := by
  rw [calGo]
  dsimp only
  rw [kind_, mode_, mask_, kept]
  rfl

theorem calStats_inside (n : Fin 9) : (Fld.CAL_STATs_KIND.i n).reg < 0x4070000 ∧ 0x4060000 ≤ (Fld.CAL_STATs_KIND.i n).reg := by
  revert n
  decide

theorem calGo_stored (s : State) (n : Fin 9) (v : Word) {z : State}
    (kept : ((s.calStored n (v ||| 0x80000000#32)).put (Fld.CAL_STATs_KIND.i n) (getBits Fld.CAL_REQs_KIND v)).put (Fld.CAL_STATs_RUNS.i n) 0 = z) :
    calGo n (s.calStored n (v ||| 0x80000000#32)) =
    if !calAllowed n (getBits Fld.CAL_REQs_KIND v) (getBits Fld.CAL_REQs_MODE v) || getBits Fld.CAL_REQs_MASK v == 0
        || (n.val < 8 && (s.bist.target == some n.val
          || !s.calRuns (calHamlet n) (getBits Fld.CAL_REQs_KIND v) (getBits Fld.CAL_REQs_MODE v) (getBits Fld.CAL_REQs_MASK v))) then
      endCal n (getBits Fld.CAL_REQs_KIND v) 3 z
    else if getBits Fld.CAL_REQs_KIND v != 1 && !s.cal.ended then endCal n (getBits Fld.CAL_REQs_KIND v) 6 z
    else ((z.setReq n (some (calRequest (getBits Fld.CAL_REQs_KIND v) (getBits Fld.CAL_REQs_MODE v) (z.get (Fld.CAL_REQs_CHECK.i n))
        (getBits Fld.CAL_REQs_MASK v) s.now))).put (Fld.CAL_STATs_BUSY.i n) 1).put (Fld.CAL_REQs_GO.i n) 1 := by
  have outside : OutsideCal s.regs z.regs := by
    have stats := calStats_inside n
    intro a out
    have other : a ≠ (Fld.CAL_STATs_KIND.i n).reg := by omega
    rw [← kept, State.put_regs, State.put_regs, rfRead_rfPut_ne (f := Fld.CAL_STATs_RUNS.i n) _ _ other, rfRead_rfPut_ne (f := Fld.CAL_STATs_KIND.i n) _ _ other,
      State.calStored, calStored_outside _ a out]
  have form : z = { s with resp := { err := false, data := 0 }, regs := z.regs } := by
    rw [← kept, State.put_eq, State.put_eq, State.calStored]
  have kind : (s.calStored n (v ||| 0x80000000#32)).get (Fld.CAL_REQs_KIND.i n) = getBits Fld.CAL_REQs_KIND v := by
    rw [State.get_eq_rfGet, State.calStored]
    exact rfGet_calStored ⟨rfl, rfl⟩ (by decide) (by decide) (by decide) (.inl rfl) _
  have mode : (s.calStored n (v ||| 0x80000000#32)).get (Fld.CAL_REQs_MODE.i n) = getBits Fld.CAL_REQs_MODE v := by
    rw [State.get_eq_rfGet, State.calStored]
    exact rfGet_calStored ⟨rfl, rfl⟩ (by decide) (by decide) (by decide) (.inl rfl) _
  have mask : (s.calStored n (v ||| 0x80000000#32)).get (Fld.CAL_REQs_MASK.i n) = getBits Fld.CAL_REQs_MASK v := by
    rw [State.get_eq_rfGet, State.calStored]
    exact rfGet_calStored ⟨rfl, rfl⟩ (by decide) (by decide) (by decide) (.inl rfl) _
  have bist : z.bist = s.bist := by rw [form]
  have cal : z.cal = s.cal := by rw [form]
  have now : z.now = s.now := by rw [form]
  have runs (h : Fin 8) (kind mode mask : Nat) : z.calRuns h kind mode mask = s.calRuns h kind mode mask := by
    rw [form]
    exact calRuns_congr outside h kind mode mask
  rw [calGo_eq kind mode mask kept, bist, cal, now, runs]

theorem calGo_ends (taken : Takes s r (Reg.CAL_REQs + 32 * n)) (stop : v.getLsbD 30 = false) (idle : s.calReq n = none)
    (bad : calAllowed n (getBits Fld.CAL_REQs_KIND v) (getBits Fld.CAL_REQs_MODE v) = false ∨ getBits Fld.CAL_REQs_MASK v = 0) :
    Gives (.calGo r n v) s fun t => t.get (Fld.CAL_STATs_CODE.i n) = 3 ∧ t.get (Fld.CAL_STATs_FAIL.i n) = 1 ∧ t.get (Fld.CAL_STATs_BUSY.i n) = 0
      ∧ t.mem = s.mem ∧ t.now = s.now := by
  have ran := exec_calGo taken stop
  obtain ⟨z, kept⟩ : ∃ z, ((s.calStored n (v ||| 0x80000000#32)).put (Fld.CAL_STATs_KIND.i n) (getBits Fld.CAL_REQs_KIND v)).put (Fld.CAL_STATs_RUNS.i n) 0 = z := ⟨_, rfl⟩
  have ends : (!calAllowed n (getBits Fld.CAL_REQs_KIND v) (getBits Fld.CAL_REQs_MODE v) || getBits Fld.CAL_REQs_MASK v == 0) = true := by
    rcases bad with bad | bad <;> simp [bad]
  rw [idle, Option.isSome_none, if_neg Bool.false_ne_true, calGo_stored s n v kept, ends, Bool.true_or, if_pos rfl] at ran
  obtain ⟨code, fail, busy, _, mem, now⟩ := endCal_failed (s := z) (n := n) (kind := getBits Fld.CAL_REQs_KIND v) (show 3 ≠ 0 by decide) (by decide)
  rw [← kept, State.put_eq, State.put_eq, State.calStored] at mem now
  rw [← kept, State.put_eq, State.put_eq, State.calStored] at ran code fail busy
  exact Gives.of_eq ran ⟨code, fail, busy, mem, now⟩

theorem calGo_starts (taken : Takes s r (Reg.CAL_REQs + 32 * n)) (stop : v.getLsbD 30 = false) (idle : s.calReq n = none)
    (allowed : calAllowed n (getBits Fld.CAL_REQs_KIND v) (getBits Fld.CAL_REQs_MODE v) = true) (paths : getBits Fld.CAL_REQs_MASK v ≠ 0)
    (up : n.val < 8 → s.bist.target ≠ some n.val
      ∧ s.calRuns (calHamlet n) (getBits Fld.CAL_REQs_KIND v) (getBits Fld.CAL_REQs_MODE v) (getBits Fld.CAL_REQs_MASK v) = true)
    (reference : getBits Fld.CAL_REQs_KIND v = 1 ∨ s.cal.ended = true) :
    Gives (.calGo r n v) s fun t => t.get (Fld.CAL_STATs_BUSY.i n) = 1 ∧ t.get (Fld.CAL_STATs_KIND.i n) = getBits Fld.CAL_REQs_KIND v
        ∧ t.get (Fld.CAL_STATs_RUNS.i n) = 0 ∧ (∃ q, t.calReq n = some q ∧ q.kind = getBits Fld.CAL_REQs_KIND v ∧ q.mode = getBits Fld.CAL_REQs_MODE v
          ∧ q.mask = getBits Fld.CAL_REQs_MASK v ∧ q.go = s.now ∧ q.runs = [])
        ∧ t = { s with resp := { err := false, data := 0 }, regs := t.regs, cal := t.cal } ∧ SameRegs [Reg.CAL_REQs + 32 * n, Reg.CAL_STATs + 32 * n] s t := by
  have ran := exec_calGo taken stop
  have first : (!calAllowed n (getBits Fld.CAL_REQs_KIND v) (getBits Fld.CAL_REQs_MODE v) || getBits Fld.CAL_REQs_MASK v == 0
      || (n.val < 8 && (s.bist.target == some n.val
        || !s.calRuns (calHamlet n) (getBits Fld.CAL_REQs_KIND v) (getBits Fld.CAL_REQs_MODE v) (getBits Fld.CAL_REQs_MASK v)))) = false := by
    by_cases hamlet : n.val < 8
    · obtain ⟨other, runs⟩ := up hamlet
      simp [allowed, paths, other, runs]
    · simp [allowed, paths, hamlet]
  have second : (getBits Fld.CAL_REQs_KIND v != 1 && !s.cal.ended) = false := by
    rcases reference with reference | reference <;> simp [reference]
  rw [idle, Option.isSome_none, if_neg Bool.false_ne_true, calGo_stored s n v rfl, first, second, if_neg Bool.false_ne_true, if_neg Bool.false_ne_true] at ran
  generalize State.get _ (Fld.CAL_REQs_CHECK.i n) = check at ran
  simp -implicitDefEqProofs only [State.put_eq, State.setReq_eq, State.calStored] at ran
  have small : getBits Fld.CAL_REQs_KIND v < 256 := Nat.mod_lt _ (by decide)
  obtain ⟨reqs, stats⟩ := calSlot_listed n
  refine Gives.of_eq ran ⟨?_, ?_, ?_, ⟨calRequest _ _ check _ s.now, Vector.getElem_set_self _, rfl, rfl, rfl, rfl, rfl⟩, rfl, ?_⟩
  · simp (disch := decide) only [State.get_eq_rfGet, rfGet_rfPut_i, rfGet_rfPut_self_i]
    rfl
  · simp (disch := decide) only [State.get_eq_rfGet, rfGet_rfPut_i, rfGet_rfPut_self_i]
    exact Nat.mod_eq_of_lt small
  · simp (disch := decide) only [State.get_eq_rfGet, rfGet_rfPut_i, rfGet_rfPut_self_i]
    rfl
  · refine RfSame.sameRegs ?_
    have stored : RfSame [Reg.CAL_REQs + 32 * n.val, Reg.CAL_STATs + 32 * n.val] s.regs (calStored n (v ||| 0x80000000#32) s.regs) :=
      (RfSame.refl _ s.regs).write (List.mem_cons_self ..) _
    exact (((stored.put (f := Fld.CAL_STATs_KIND.i n) stats _).put (f := Fld.CAL_STATs_RUNS.i n) stats _).put (f := Fld.CAL_STATs_BUSY.i n) stats _).put reqs _

/-! ### STOP (R401, R404) -/

theorem calStop_kept {u : State} {q : CalReq} (busy : u.calReq n = some q) (kept : u.calLost n q = false) :
    calStop n u = endCal n q.kind (if q.mode = 2 ∧ q.any then 0 else 7) u := by
  rw [calStop, busy]
  dsimp only
  rw [kept, if_neg Bool.false_ne_true]

theorem calStop_gives {q : CalReq} (taken : Takes s r (Reg.CAL_REQs + 32 * n)) (nogo : v.getLsbD 31 = false) (busy : s.calReq n = some q) (kept : s.calLost n q = false) :
    (q.mode = 2 → q.any = true → Gives (.calStop r n v) s fun t => t.get (Fld.CAL_STATs_DONE.i n) = 1 ∧ t.get (Fld.CAL_STATs_BUSY.i n) = 0 ∧ t.calReq n = none)
    ∧ (q.mode ≠ 2 ∨ q.any = false → Gives (.calStop r n v) s fun t => t.get (Fld.CAL_STATs_CODE.i n) = 7 ∧ t.get (Fld.CAL_STATs_FAIL.i n) = 1
      ∧ t.get (Fld.CAL_STATs_BUSY.i n) = 0 ∧ t.mem = s.mem) := by
  have ran := exec_calStop taken nogo
  have held : (s.calStored n (v ||| 0x40000000#32)).calReq n = some q := by
    rw [← busy, State.calReq_eq, State.calReq_eq, State.calStored]
  have lost : (s.calStored n (v ||| 0x40000000#32)).calLost n q = false := by
    rw [State.calStored, calLost_congr (calStored_outside _), kept]
  rw [calStop_kept held lost] at ran
  have mem : (s.calStored n (v ||| 0x40000000#32)).mem = s.mem := by rw [State.calStored]
  generalize s.calStored n (v ||| 0x40000000#32) = u at ran mem
  refine ⟨fun long applied => ?_, fun short => ?_⟩
  · rw [if_pos ⟨long, applied⟩] at ran
    obtain ⟨done, _, busy, _⟩ := endCal_done (s := u) (n := n) (kind := q.kind)
    refine Gives.of_eq ran ⟨done, busy, ?_⟩
    rw [State.calReq_eq, endCal_zero]
    exact Cal.freed_req _
  · rw [if_neg (fun both => by rcases short with short | short <;> simp [both] at short)] at ran
    obtain ⟨code, fail, busy, _, same, _⟩ := endCal_failed (s := u) (n := n) (kind := q.kind) (show 7 ≠ 0 by decide) (by decide)
    exact Gives.of_eq ran ⟨code, fail, busy, same.trans mem⟩

end

end Sys2Proof.Machine
end

section
/-!
PROOFS. Calibration requests: runs, ends, estimates (R401 to R404); the settlement of O41.
-/

namespace Sys2Proof.Machine

section
variable {s : State} {n : Fin 9} {h : Fin 8} {q : CalReq} {vals : List Int} {worn : List (Nat × Nat)} {t0 : Nat}

theorem exec_calGuardStep (held : s.calReq ⟨h.val, by omega⟩ = some q) (guard : q.mode = 1)
    (open_ : s.offWindow h (max t0 s.now) (max t0 s.now + 4 * usU) = true) : exec (.calGuardStep h t0) s =
    .next ((s.at (max t0 s.now + 4 * usU)).setReq ⟨h.val, by omega⟩ (some { q with steps := q.steps + 1 })) := by
  show execCalGuardStep h t0 s = _
  rw [execCalGuardStep]
  dsimp only
  rw [held]
  dsimp only
  rw [if_pos ⟨guard, open_⟩]

/-! ### A run's end (R401, R402) -/

theorem exec_calRunEnd (held : s.calReq n = some q) (once : q.mode = 0) (pending : q.vals = none) (open_ : q.code = 0) (kept : s.calLost n q = false) :
    exec (.calRunEnd n vals worn t0) s = .next (if q.check ≠ 2 ∧ q.go + max 1 (s.get (Fld.CAL_PARs_TMO.i n)) * msU < max s.now t0 then
        endCal n q.kind 1 (s.at (q.go + max 1 (s.get (Fld.CAL_PARs_TMO.i n)) * msU))
      else ((s.at t0).inc (Fld.CAL_STATs_RUNS.i n)).setReq n (some { q with
        runs := vals :: q.runs, worn := worn, steps := 0
        vals := (calJudge q.check (((s.at t0).inc (Fld.CAL_STATs_RUNS.i n)).get (Fld.CAL_PARs_TOL.i n)) (vals :: q.runs)).1
        code := (calJudge q.check (((s.at t0).inc (Fld.CAL_STATs_RUNS.i n)).get (Fld.CAL_PARs_TOL.i n)) (vals :: q.runs)).2 })) := by
  have runs : ¬ (q.mode = 2 ∨ q.vals.isSome ∨ q.code ≠ 0 ∨ (q.mode = 1 ∧ q.steps < guardNeed q)) := by
    simp [once, pending, open_]
  show execCalRunEnd n vals worn t0 s = _
  rw [execCalRunEnd, held]
  dsimp only
  rw [kept, if_neg Bool.false_ne_true, if_neg runs]

/-- One run is enough where CHECK asks for no comparison. -/
theorem calJudge_single {check tol : Nat} {runs : List (List Int)} (single : check < 2) : (calJudge check tol (vals :: runs)).1 = some vals := by
  have two : ¬ 2 ≤ check := by omega
  match runs with
  | [] => rw [calJudge, if_neg two]
  | [a] => rw [calJudge, if_pos single]
  | b :: a :: l => rw [calJudge, if_pos single]

theorem calRunEnd_kept (held : s.calReq n = some q) (once : q.mode = 0) (pending : q.vals = none) (open_ : q.code = 0) (kept : s.calLost n q = false)
    (inTime : max s.now t0 ≤ q.go + max 1 (s.get (Fld.CAL_PARs_TMO.i n)) * msU) :
    Gives (.calRunEnd n vals worn t0) s fun t => t.get (Fld.CAL_STATs_RUNS.i n) = min (s.get (Fld.CAL_STATs_RUNS.i n) + 1) 15
      ∧ (∃ x, t.calReq n = some x ∧ x.runs = vals :: q.runs ∧ (q.check < 2 → x.vals = some vals)) ∧ t = { s with now := max s.now t0, regs := t.regs, cal := t.cal }
      ∧ SameRegs [Reg.CAL_STATs + 32 * n] s t := by
  have ran := exec_calRunEnd (vals := vals) (worn := worn) (t0 := t0) held once pending open_ kept
  rw [if_neg (fun late => absurd late.2 (by omega))] at ran
  have single := fun small => calJudge_single (vals := vals) (tol := ((s.at t0).inc (Fld.CAL_STATs_RUNS.i n)).get (Fld.CAL_PARs_TOL.i n)) (runs := q.runs) (check := q.check) small
  generalize calJudge q.check (((s.at t0).inc (Fld.CAL_STATs_RUNS.i n)).get (Fld.CAL_PARs_TOL.i n)) (vals :: q.runs) = judged at ran single
  simp -implicitDefEqProofs only [State.inc_eq, State.setReq_eq, State.at] at ran
  refine Gives.of_eq ran ⟨?_, ⟨_, Vector.getElem_set_self _, rfl, single⟩, rfl, ?_⟩
  · rw [State.get_eq_rfGet, State.get_eq_rfGet, rfGet_rfPut_self_i _ _ _ (by decide), Nat.mod_eq_of_lt]
    · rfl
    · exact Nat.lt_of_le_of_lt (Nat.min_le_right _ _) (show 15 < 16 by decide)
  · have stats : (Fld.CAL_STATs_RUNS.i n).reg ∈ [Reg.CAL_STATs + 32 * n.val] := by
      rw [List.mem_singleton, Nat.mul_comm 32]
      rfl
    exact ((RfSame.refl _ s.regs).put stats _).sameRegs

theorem calRunEnd_late (held : s.calReq n = some q) (once : q.mode = 0) (pending : q.vals = none) (open_ : q.code = 0) (kept : s.calLost n q = false)
    (other : q.check ≠ 2) (late : q.go + max 1 (s.get (Fld.CAL_PARs_TMO.i n)) * msU < max s.now t0) :
    Gives (.calRunEnd n vals worn t0) s fun t => t.get (Fld.CAL_STATs_CODE.i n) = 1 ∧ t.get (Fld.CAL_STATs_BUSY.i n) = 0 ∧ t.mem = s.mem := by
  have ran := exec_calRunEnd (vals := vals) (worn := worn) (t0 := t0) held once pending open_ kept
  rw [if_pos ⟨other, late⟩] at ran
  obtain ⟨code, _, busy, _, mem, _⟩ := endCal_failed (s := s.at (q.go + max 1 (s.get (Fld.CAL_PARs_TMO.i n)) * msU)) (n := n) (kind := q.kind)
    (show 1 ≠ 0 by decide) (by decide)
  exact Gives.of_eq ran ⟨code, busy, mem⟩

/-! ### The end of a request (R403, R404) -/

theorem calRequestEnd_code (held : s.calReq n = some q) (kept : s.calLost n q = false) (failed : q.code ≠ 0) (small : q.code < 8) :
    Gives (.calRequestEnd n) s fun t => t.get (Fld.CAL_STATs_CODE.i n) = q.code ∧ t.get (Fld.CAL_STATs_BUSY.i n) = 0 ∧ t.mem = s.mem := by
  have ran : exec (.calRequestEnd n) s = .next (endCal n q.kind q.code s) := by
    show execCalRequestEnd n s = _
    rw [execCalRequestEnd, held]
    dsimp only
    rw [kept, if_neg Bool.false_ne_true, if_pos failed]
  obtain ⟨code, _, busy, _, mem, _⟩ := endCal_failed (s := s) (n := n) (kind := q.kind) failed small
  exact Gives.of_eq ran ⟨code, busy, mem⟩

theorem calRequestEnd_applies (held : s.calReq n = some q) (kept : s.calLost n q = false) (open_ : q.code = 0) (judged : q.vals = some vals) (six : q.kind = 6)
    (once : q.mode = 0) (fresh : q.worn = []) : Gives (.calRequestEnd n) s fun t => t.get (Fld.CAL_STATs_DONE.i n) = 1
      ∧ t.get (Fld.CAL_STATs_CODE.i n) = 0 ∧ t.calReq n = none ∧ (256 * n.val + 6, vals) ∈ t.cal.trims ∧ t = { s with regs := t.regs, cal := t.cal }
      ∧ SameRegs [Reg.CAL_REQs + 32 * n, Reg.CAL_STATs + 32 * n, Reg.CAL_CNTn] s t := by
  have ran : exec (.calRequestEnd n) s = .next (endCal n 6 0
      { s with cal := { s.cal with trims := (256 * n.val + 6, vals) :: s.cal.trims.filter fun x => x.1 != 256 * n.val + 6 } }) := by
    show execCalRequestEnd n s = _
    rw [execCalRequestEnd, held]
    dsimp only
    rw [kept, if_neg Bool.false_ne_true, if_neg (by simp [open_]), judged]
    dsimp only
    rw [six, if_neg (by decide), fresh, List.foldl_nil, ite_self, if_neg Bool.false_ne_true, if_neg (by decide), calApply, if_pos once, State.setCal, six]
  obtain ⟨done, code, _, same⟩ := endCal_done (n := n) (kind := 6)
    (s := { s with cal := { s.cal with trims := (256 * n.val + 6, vals) :: s.cal.trims.filter fun x => x.1 != 256 * n.val + 6 } })
  refine Gives.of_eq ran ⟨done, code, ?_, ?_, ?_, same.sameRegs⟩
  · rw [State.calReq_eq, endCal_zero]
    exact Cal.freed_req _
  · rw [endCal_zero]
    exact List.mem_cons_self ..
  · rw [endCal_zero]

/-- A measurement of the reference within 2 % is taken. -/
theorem calReference_good {v : Int} (good : (v - (if s.get Fld.CAL_CFG_SRC = 1 then 25000 else 40000)).natAbs * 50 ≤ (if s.get Fld.CAL_CFG_SRC = 1 then 25000 else 40000)) :
    ∃ cal, (calReference v s).1 = { s with
      regs := rfPut (rfPut (rfPut s.regs Fld.CAL_REFSTAT_VALID 1) Fld.CAL_REFSTAT_NOREF 0) Fld.CAL_REFSTAT_VAL v.toNat, cal := cal } ∧ (calReference v s).2 = 0
      ∧ cal.req = s.cal.req := by
  have bit : s.flag Fld.CAL_CFG_SRC = decide (s.get Fld.CAL_CFG_SRC = 1) := by
    have small : s.get Fld.CAL_CFG_SRC < 2 := rfGet_lt _
    rw [State.flag, Bool.eq_iff_iff, bne_iff_ne, decide_eq_true_eq]
    omega
  have within : (v - (if s.flag Fld.CAL_CFG_SRC = true then (25000 : Int) else 40000)).natAbs * 50 ≤ (if s.flag Fld.CAL_CFG_SRC = true then (25000 : Int) else 40000).toNat := by
    simp only [bit, decide_eq_true_eq]
    split at good
    next src =>
      rw [if_pos src]
      exact good
    next src =>
      rw [if_neg src]
      exact good
  rw [calReference]
  dsimp only
  rw [if_pos within]
  generalize (if s.flag Fld.CAL_CFG_SRC = true then (25000 : Int) else 40000) = nom
  generalize valued : ((s.put Fld.CAL_REFSTAT_VALID 1).put Fld.CAL_REFSTAT_NOREF 0).put Fld.CAL_REFSTAT_VAL v.toNat = u
  have form (c : Cal) : u.setCal c = { s with
      regs := rfPut (rfPut (rfPut s.regs Fld.CAL_REFSTAT_VALID 1) Fld.CAL_REFSTAT_NOREF 0) Fld.CAL_REFSTAT_VAL v.toNat, cal := c } := by
    rw [← valued, State.put_eq, State.put_eq, State.put_eq, State.setCal]
  have req : u.cal.req = s.cal.req := by rw [← valued, State.put_cal, State.put_cal, State.put_cal]
  have again (c c' : Cal) : (u.setCal c).setCal c' = u.setCal c' := by rw [State.setCal, State.setCal, State.setCal]
  have cal (c : Cal) : (u.setCal c).cal = c := by rw [State.setCal]
  split
  · rw [again, form, cal]
    exact ⟨_, rfl, rfl, req⟩
  · rw [form]
    exact ⟨_, rfl, rfl, req⟩

theorem calRefstat_outside (n : Fin 9) : Fld.CAL_REFSTAT_VALID.reg ∉ [Reg.CAL_REQs + 32 * n.val, Reg.CAL_STATs + 32 * n.val, Reg.CAL_CNTn] := by
  revert n
  decide

theorem calRequestEnd_reference {v : Int} {l : List Int} (held : s.calReq n = some q) (kept : s.calLost n q = false) (open_ : q.code = 0)
    (judged : q.vals = some (v :: l)) (one : q.kind = 1)
    (good : (v - (if s.get Fld.CAL_CFG_SRC = 1 then 25000 else 40000)).natAbs * 50 ≤ (if s.get Fld.CAL_CFG_SRC = 1 then 25000 else 40000)) :
    Gives (.calRequestEnd n) s fun t => t.get Fld.CAL_REFSTAT_VALID = 1 ∧ t.get Fld.CAL_REFSTAT_NOREF = 0 ∧ (t.get Fld.CAL_REFSTAT_VAL : Int) = v
        ∧ t.get (Fld.CAL_STATs_DONE.i n) = 1 ∧ t.cal.ended = true ∧ t = { s with regs := t.regs, cal := t.cal } := by
  obtain ⟨cal, taken, ends, req⟩ := calReference_good good
  have ran : exec (.calRequestEnd n) s = .next (endCal n 1 0 (calReference v s).1) := by
    show execCalRequestEnd n s = _
    rw [execCalRequestEnd, held]
    dsimp only
    rw [kept, if_neg Bool.false_ne_true, if_neg (by simp [open_]), judged]
    dsimp only
    rw [if_pos one, List.getD_cons_zero, ends]
  rw [taken] at ran
  have range : 0 ≤ v ∧ v < 65536 := by
    split at good <;> omega
  have values (f : Field) (outside : f.reg ∉ [Reg.CAL_REQs + 32 * n.val, Reg.CAL_STATs + 32 * n.val, Reg.CAL_CNTn]) (u : State) :
      (endCal n 1 0 u).get f = u.get f := by
    obtain ⟨_, _, _, same⟩ := endCal_done (s := u) (n := n) (kind := 1)
    rw [State.get_eq_rfGet, State.get_eq_rfGet, rfGet, rfGet, same _ outside]
  have status := calRefstat_outside n
  refine Gives.of_eq ran ⟨?_, ?_, ?_, endCal_done.1, ?_, ?_⟩
  · rw [values Fld.CAL_REFSTAT_VALID status]
    simp (disch := decide) only [State.get_eq_rfGet, rfGet_rfPut_self, rfGet_rfPut_apart]
    rfl
  · rw [values Fld.CAL_REFSTAT_NOREF status]
    simp (disch := decide) only [State.get_eq_rfGet, rfGet_rfPut_self, rfGet_rfPut_apart]
    rfl
  · rw [values Fld.CAL_REFSTAT_VAL status]
    simp (disch := decide) only [State.get_eq_rfGet, rfGet_rfPut_self]
    show ((v.toNat % 65536 : Nat) : Int) = v
    omega
  · rw [endCal_zero]
    show (cal.ended || (1 == 1 && (cal.req[n]).isSome)) = true
    rw [req, ← State.calReq_eq, held]
    exact Bool.or_true _
  · rw [endCal_zero]

/-! ### Live estimates, the time limit, a lost precondition (R402 to R404) -/

/-- The calibration's data once a live estimate has been accepted. -/
def Cal.estimated (c : Cal) (h : Fin 8) (q : CalReq) (vals : List Int) (at_ : Nat) : Cal := { c with
  req := c.req.set (hEng h) (some { q with estAt := at_, est := some vals, last := at_, any := true })
  next := c.next ++ [(halfAfter2 at_, 256 * h.val + q.kind, vals)] }

theorem calLiveEstimate_gives (held : s.calReq ⟨h.val, by omega⟩ = some q) (long : q.mode = 2) (single : q.check < 2) (kept : s.calLost ⟨h.val, by omega⟩ q = false) :
    Gives (.calLiveEstimate h vals [] true t0) s fun t =>
      (∃ x, t.calReq ⟨h.val, by omega⟩ = some x ∧ x.any = true ∧ x.last = max s.now (max t0 (q.estAt + 50 * msU)) ∧ x.estAt = max s.now (max t0 (q.estAt + 50 * msU))
        ∧ x.est = some vals) ∧ t.get (Fld.CAL_STATs_RUNS.i h) = min (s.get (Fld.CAL_STATs_RUNS.i h) + 1) 15
      ∧ t = { s with now := max s.now (max t0 (q.estAt + 50 * msU)), regs := t.regs, cal := t.cal } := by
  have ran : exec (.calLiveEstimate h vals [] true t0) s = .next { s with
      now := max s.now (max t0 (q.estAt + 50 * msU))
      regs := rfPut s.regs (Fld.CAL_STATs_RUNS.i h) (min (rfGet s.regs (Fld.CAL_STATs_RUNS.i h) + 1) (2 ^ (Fld.CAL_STATs_RUNS.i h).width - 1))
      cal := s.cal.estimated h q vals (max s.now (max t0 (q.estAt + 50 * msU))) } := by
    show execCalLiveEstimate h vals [] true t0 s = _
    rw [execCalLiveEstimate]
    dsimp only
    rw [held]
    dsimp only
    rw [kept, if_neg Bool.false_ne_true, if_neg (by simp [long]), decide_eq_true single, Bool.true_or, if_pos rfl, List.foldl_nil, calApply,
      if_neg (by simp [long])]
    simp -implicitDefEqProofs only [State.inc_eq, State.setReq_eq, State.setCal, State.at]
    rfl
  refine Gives.of_eq ran ⟨⟨_, Vector.getElem_set_self _, rfl, rfl, rfl, rfl⟩, ?_, rfl⟩
  rw [State.get_eq_rfGet, State.get_eq_rfGet, rfGet_rfPut_self_i _ _ _ (by decide), Nat.mod_eq_of_lt]
  · rfl
  · exact Nat.lt_of_le_of_lt (Nat.min_le_right _ _) (show 15 < 16 by decide)

theorem calTimeout_once (held : s.calReq n = some q) (kept : s.calLost n q = false) (other : q.check ≠ 2) (short : q.mode ≠ 2) :
    Gives (.calTimeout n) s fun t => t.get (Fld.CAL_STATs_CODE.i n) = 1 ∧ t.get (Fld.CAL_STATs_FAIL.i n) = 1 ∧ t.get (Fld.CAL_STATs_BUSY.i n) = 0
      ∧ t.now = max s.now (q.go + max 1 (s.get (Fld.CAL_PARs_TMO.i n)) * msU) ∧ t.mem = s.mem := by
  have ran : exec (.calTimeout n) s = .next (endCal n q.kind 1 (s.at (q.go + max 1 (s.get (Fld.CAL_PARs_TMO.i n)) * msU))) := by
    show execCalTimeout n s = _
    rw [execCalTimeout, held]
    dsimp only
    rw [kept, if_neg Bool.false_ne_true, if_neg other, if_neg short]
  obtain ⟨code, fail, busy, _, mem, now⟩ := endCal_failed (s := s.at (q.go + max 1 (s.get (Fld.CAL_PARs_TMO.i n)) * msU)) (n := n) (kind := q.kind)
    (show 1 ≠ 0 by decide) (by decide)
  exact Gives.of_eq ran ⟨code, fail, busy, now, mem⟩

theorem calTimeout_live (held : s.calReq n = some q) (kept : s.calLost n q = false) (other : q.check ≠ 2) (long : q.mode = 2) :
    Gives (.calTimeout n) s fun t => t.get (Fld.CAL_STATs_CODE.i n) = 1 ∧ t.get (Fld.CAL_STATs_FAIL.i n) = 1
      ∧ t.get (Fld.CAL_STATs_BUSY.i n) = s.get (Fld.CAL_STATs_BUSY.i n)
      ∧ t.calReq n = some { q with last := max s.now (q.last + max 1 (s.get (Fld.CAL_PARs_TMO.i n)) * msU) }
      ∧ t = { s with now := max s.now (q.last + max 1 (s.get (Fld.CAL_PARs_TMO.i n)) * msU), regs := t.regs, cal := t.cal } ∧ SameRegs [Reg.CAL_STATs + 32 * n] s t := by
  have ran : exec (.calTimeout n) s = .next { s with
      now := max s.now (q.last + max 1 (s.get (Fld.CAL_PARs_TMO.i n)) * msU)
      regs := rfPut (rfPut s.regs (Fld.CAL_STATs_FAIL.i n) 1) (Fld.CAL_STATs_CODE.i n) 1
      cal := { s.cal with req := s.cal.req.set n (some { q with last := max s.now (q.last + max 1 (s.get (Fld.CAL_PARs_TMO.i n)) * msU) }) } } := by
    show execCalTimeout n s = _
    rw [execCalTimeout, held]
    dsimp only
    rw [kept, if_neg Bool.false_ne_true, if_neg other, if_pos long]
    simp -implicitDefEqProofs only [State.put_eq, State.setReq_eq, State.at]
  have stats : (Fld.CAL_STATs_RUNS.i n).reg ∈ [Reg.CAL_STATs + 32 * n.val] := by
    rw [List.mem_singleton, Nat.mul_comm 32]
    rfl
  refine Gives.of_eq ran ⟨?_, ?_, ?_, Vector.getElem_set_self _, rfl,
    (((RfSame.refl _ s.regs).put (f := Fld.CAL_STATs_FAIL.i n) stats _).put (f := Fld.CAL_STATs_CODE.i n) stats _).sameRegs⟩
  · simp (disch := decide) only [State.get_eq_rfGet, rfGet_rfPut_self_i]
    rfl
  · simp (disch := decide) only [State.get_eq_rfGet, rfGet_rfPut_i, rfGet_rfPut_self_i]
    rfl
  · simp (disch := decide) only [State.get_eq_rfGet, rfGet_rfPut_i]

theorem calPreconditionLost_gives (held : s.calReq n = some q) (lost : s.calLost n q = true) :
    Gives (.calPreconditionLost n) s fun t => t.get (Fld.CAL_STATs_CODE.i n) = 4 ∧ t.get (Fld.CAL_STATs_BUSY.i n) = 0 ∧ t.mem = s.mem ∧ t.now = s.now := by
  have ran : exec (.calPreconditionLost n) s = .next (endCal n q.kind 4 s) := by
    show execCalPreconditionLost n s = _
    rw [execCalPreconditionLost, held]
    dsimp only
    rw [lost, if_pos rfl]
  obtain ⟨code, _, busy, _, mem, now⟩ := endCal_failed (s := s) (n := n) (kind := q.kind) (show 4 ≠ 0 by decide) (by decide)
  exact Gives.of_eq ran ⟨code, busy, mem, now⟩

theorem calRequestEnd_lost (held : s.calReq n = some q) (lost : s.calLost n q = true) :
    Gives (.calRequestEnd n) s fun t => t.get (Fld.CAL_STATs_CODE.i n) = 4 ∧ t.get (Fld.CAL_STATs_BUSY.i n) = 0 ∧ t.cal.trims = s.cal.trims ∧ t.mem = s.mem := by
  have ran : exec (.calRequestEnd n) s = .next (endCal n q.kind 4 s) := by
    show execCalRequestEnd n s = _
    rw [execCalRequestEnd, held]
    dsimp only
    rw [lost, if_pos rfl]
  obtain ⟨code, _, busy, cal, mem, _⟩ := endCal_failed (s := s) (n := n) (kind := q.kind) (show 4 ≠ 0 by decide) (by decide)
  exact Gives.of_eq ran ⟨code, busy, by rw [cal, Cal.freed], mem⟩

theorem exec_calSubstitution {x : CalSub} (first : (s.cal.subs.find? fun y => y.slot == h.val) = some x)
    (silent : s.silentAfter h (if x.kind = 4 then 0 else 1) x.at0 = some t0) : exec (.calSubstitution h) s =
    .next (calSwitch ⟨h.val, by omega⟩ x.kind x.bit (State.at (s.setCal { s.cal with subs := s.cal.subs.erase x }) t0)) := by
  have same : (s.setCal { s.cal with subs := s.cal.subs.erase x }).silentAfter h (if x.kind = 4 then 0 else 1) x.at0 = some t0 := by
    rw [← silent, State.setCal]
    rfl
  show execCalSubstitution h s = _
  rw [execCalSubstitution]
  dsimp only
  rw [first]
  dsimp only
  rw [same]

end

/-- Settles O41: a request is followed from its word through its runs to the end that its code names; the reads of its preconditions lie outside the calibration block. -/
theorem calibrationRequests : Obligations.CalibrationRequests := by
  refine ⟨fun s r n v taken stop => ⟨calGo_refused taken stop, calGo_ends taken stop, calGo_starts taken stop⟩,
    fun s r n v q taken nogo held kept => calStop_gives taken nogo held kept, fun s h q t0 held guard open_ => exec_calGuardStep held guard open_,
    fun s n q vals worn t0 held once pending open_ kept inTime => calRunEnd_kept held once pending open_ kept inTime,
    fun s n q vals worn t0 held once pending open_ kept other late => calRunEnd_late held once pending open_ kept other late,
    fun s n q held kept => ⟨calRequestEnd_code held kept, fun vals open_ judged six once fresh => calRequestEnd_applies held kept open_ judged six once fresh,
      fun v l open_ judged one good => calRequestEnd_reference held kept open_ judged one good⟩,
    fun s h q vals t0 held long single kept => calLiveEstimate_gives held long single kept,
    fun s n q held other kept => ⟨calTimeout_once held kept other, calTimeout_live held kept other⟩,
    fun s n q held lost => ⟨calPreconditionLost_gives held lost, calRequestEnd_lost held lost⟩,
    fun s h x t0 first silent => exec_calSubstitution first silent⟩

end Sys2Proof.Machine
end

section
/-!
PROOFS. Device time as registers show it, and its numbering (R209 to R212); the settlement of O26.
-/

namespace Sys2Proof.Machine

section
variable {s : State} {r : Req} {v : Word} {t0 : Nat}

theorem timNowRead_gives (open_ : s.check r Reg.TIM_NOW_NS 2 false = .ok) : Gives (.timNowRead r) s fun t => t.resp = { err := false, data := nsOf (shown s.now) }
    ∧ t.rd Reg.TIM_NOW_SLO = (secWords (shown s.now)).1 ∧ t.rd Reg.TIM_NOW_SHI = (secWords (shown s.now)).2 ∧ t = { s with resp := t.resp, regs := t.regs }
    ∧ SameRegs [Reg.TIM_NOW_SLO, Reg.TIM_NOW_SHI, Reg.TIM_NOW_NS] s t := by
  have ran : exec (.timNowRead r) s = .next { s with
      resp := { err := false, data := nsOf (shown s.now) }
      regs := rfWrite (rfWrite (rfWrite s.regs Reg.TIM_NOW_SLO (secWords (shown s.now)).1) Reg.TIM_NOW_SHI (secWords (shown s.now)).2) Reg.TIM_NOW_NS
        (BitVec.ofNat 32 (nsOf (shown s.now))) } := by
    show execTimNowRead r s = _
    rw [execTimNowRead, readCmd, open_]
    simp -implicitDefEqProofs only [nowRead, State.wr_eq]
  refine Gives.of_eq ran ⟨rfl, ?_, ?_, rfl, ((((RfSame.refl _ s.regs).write (by decide) _).write (by decide) _).write (by decide) _).sameRegs⟩
  · rw [State.rd_eq_rfRead, rfRead_write_ne _ _ (by decide), rfRead_write_ne _ _ (by decide), rfRead_write_same]
  · rw [State.rd_eq_rfRead, rfRead_write_ne _ _ (by decide), rfRead_write_same]

theorem fnoffTakeEffect_gives {d : Nat} (due : s.tim.fnoffDue = some d) : Gives .fnoffTakeEffect s fun t => t.erd Reg.TIM_FRAME = s.rd Reg.TIM_FRAME
    ∧ (∀ a, a ≠ Reg.TIM_FRAME → t.erd a = s.erd a) ∧ t = { s with now := max s.now d, eff := t.eff, tim := { s.tim with fnoffDue := none } } := by
  have ran : exec .fnoffTakeEffect s = .next { s with
      now := max s.now d, eff := rfWrite s.eff Reg.TIM_FRAME (s.rd Reg.TIM_FRAME), tim := { s.tim with fnoffDue := none } } := by
    show execFnoffTakeEffect s = _
    simp -implicitDefEqProofs only [execFnoffTakeEffect, due, State.take, State.setTim, State.at, State.ewr, State.rd_eq_rfRead]
  exact Gives.of_eq ran ⟨rfRead_write_same _ _ _, fun a other => rfRead_write_ne _ _ other, rfl⟩

/-- The register of the UTC offsets. -/
def timUtcDesc : RegDesc := ⟨Reg.TIM_UTC, [], [Fld.TIM_UTC_PEND, Fld.TIM_UTC_NEXT, Fld.TIM_UTC_CUR]⟩

theorem descOf_timUtc : descOf Reg.TIM_UTC = some timUtcDesc := by decide +kernel

theorem timUtcWrite_gives (taken : Takes s r Reg.TIM_UTC) : Gives (.timUtcWrite r v) s fun t => t.get Fld.TIM_UTC_NEXT = getBits Fld.TIM_UTC_NEXT v
    ∧ t.get Fld.TIM_UTC_CUR = getBits Fld.TIM_UTC_CUR v ∧ t.get Fld.TIM_UTC_PEND = b2n (getBits Fld.TIM_UTC_NEXT v != getBits Fld.TIM_UTC_CUR v)
    ∧ t = { s with resp := { err := false, data := 0 }, regs := t.regs } ∧ SameRegs [Reg.TIM_UTC] s t := by
  obtain ⟨w, stored, word⟩ : ∃ w, s.ok.storeReg r Reg.TIM_UTC v = { s with resp := { err := false, data := 0 }, regs := rfWrite s.regs Reg.TIM_UTC w }
      ∧ w = wordWrite false timUtcDesc v (rfRead s.regs Reg.TIM_UTC) :=
    ⟨_, by rw [State.storeReg_unguarded descOf_timUtc (by decide), State.wr_eq, State.ok, State.rd_eq_rfRead], rfl⟩
  have next : getBits Fld.TIM_UTC_NEXT w = getBits Fld.TIM_UTC_NEXT v := by rw [word, getBits_wordWrite_plain (by decide) (by decide)]
  have cur : getBits Fld.TIM_UTC_CUR w = getBits Fld.TIM_UTC_CUR v := by rw [word, getBits_wordWrite_plain (by decide) (by decide)]
  have ran : exec (.timUtcWrite r v) s = .next { s with
      resp := { err := false, data := 0 }
      regs := rfPut (rfWrite s.regs Reg.TIM_UTC w) Fld.TIM_UTC_PEND (b2n (getBits Fld.TIM_UTC_NEXT v != getBits Fld.TIM_UTC_CUR v)) } := by
    refine congrArg Host.Outcome.next ((regCmd_ok taken).trans ?_)
    rw [timUtcWrite, stored, State.put_eq, State.get_eq_rfGet, State.get_eq_rfGet, rfGet_rfWrite_same (g := Fld.TIM_UTC_NEXT) (a := Reg.TIM_UTC) _ _ rfl,
      rfGet_rfWrite_same (g := Fld.TIM_UTC_CUR) (a := Reg.TIM_UTC) _ _ rfl, next, cur]
  refine Gives.of_eq ran ⟨?_, ?_, ?_, rfl, (((RfSame.refl _ s.regs).write (by decide) _).put (by decide) _).sameRegs⟩
  · rw [State.get_eq_rfGet, rfGet_rfPut_apart _ _ (by decide) (by decide), rfGet_rfWrite_same (g := Fld.TIM_UTC_NEXT) (a := Reg.TIM_UTC) _ _ rfl, next]
  · rw [State.get_eq_rfGet, rfGet_rfPut_apart _ _ (by decide) (by decide), rfGet_rfWrite_same (g := Fld.TIM_UTC_CUR) (a := Reg.TIM_UTC) _ _ rfl, cur]
  · rw [State.get_eq_rfGet, rfGet_rfPut_self _ _ (by decide)]
    cases getBits Fld.TIM_UTC_NEXT v != getBits Fld.TIM_UTC_CUR v <;> rfl

theorem utcOffsetChange_gives (pending : s.get Fld.TIM_UTC_PEND = 1) : Gives .utcOffsetChange s fun t => t.get Fld.TIM_UTC_CUR = s.get Fld.TIM_UTC_NEXT
    ∧ t.get Fld.TIM_UTC_NEXT = s.get Fld.TIM_UTC_NEXT ∧ t.get Fld.TIM_UTC_PEND = 0
    ∧ t = { s with now := max s.now (utcSecond s.now (s.get Fld.TIM_UTC_AT_AT) * secU), regs := t.regs } ∧ SameRegs [Reg.TIM_UTC] s t := by
  have ran : exec .utcOffsetChange s = .next { s with
      now := max s.now (utcSecond s.now (s.get Fld.TIM_UTC_AT_AT) * secU)
      regs := rfPut (rfPut s.regs Fld.TIM_UTC_CUR (rfGet s.regs Fld.TIM_UTC_NEXT)) Fld.TIM_UTC_PEND 0 } := by
    show execUtcOffsetChange s = _
    simp -implicitDefEqProofs only [execUtcOffsetChange, State.flag_of_get_one pending, if_true, State.put_eq, State.get_eq_rfGet, State.at]
  have small : rfGet s.regs Fld.TIM_UTC_NEXT < 256 := rfGet_lt _
  refine Gives.of_eq ran ⟨?_, ?_, ?_, rfl, (((RfSame.refl _ s.regs).put (by decide) _).put (by decide) _).sameRegs⟩
  all_goals simp (disch := decide) only [State.get_eq_rfGet, rfGet_rfPut_self, rfGet_rfPut_apart]
  · exact Nat.mod_eq_of_lt small
  · rfl

theorem nsOf_lt (t : Nat) : nsOf t < 1000000000 := by
  rw [nsOf, Nat.div_lt_iff_lt_mul (by decide)]
  exact Nat.mod_lt _ (by decide)

theorem ppsEdge_gives : Gives (.ppsEdge t0) s fun t => t.tim.caps[0] = s.stamp 2 t0 ∧ t.get (Fld.TIM_CAPq_NS_NS.i 0) = nsOf (s.stamp 2 t0)
    ∧ t.get Fld.TIM_STAT_PPSNEW = 1 ∧ t = { s with now := max s.now t0, regs := t.regs, tim := { s.tim with caps := s.tim.caps.set 0 (s.stamp 2 t0) } }
    ∧ SameRegs [Reg.TIM_CAPq_NS, Reg.TIM_STAT] s t := by
  have ran : exec (.ppsEdge t0) s = .next { s with
      now := max s.now t0
      regs := rfPut (rfPut s.regs (Fld.TIM_CAPq_NS_NS.i 0) (nsOf (s.stamp 2 t0))) Fld.TIM_STAT_PPSNEW 1
      tim := { s.tim with caps := s.tim.caps.set 0 (s.stamp 2 t0) } } := by
    show execPpsEdge t0 s = _
    simp -implicitDefEqProofs only [execPpsEdge, takeCap, State.setTim, State.put_eq, State.at]
    rfl
  refine Gives.of_eq ran ⟨Vector.getElem_set_self _, ?_, ?_, rfl, (((RfSame.refl _ s.regs).put (by decide) _).put (by decide) _).sameRegs⟩
  all_goals simp (disch := decide) only [State.get_eq_rfGet, rfGet_rfPut_self, rfGet_rfPut_apart]
  · exact Nat.mod_eq_of_lt (Nat.lt_trans (nsOf_lt _) (by decide))
  · rfl

end

/-- Settles O26: each command is the record that its lemma names. -/
theorem timeReading : Obligations.TimeReading := by
  exact ⟨fun s r open_ => timNowRead_gives open_, fun s d due => fnoffTakeEffect_gives due, fun s r v taken => timUtcWrite_gives taken,
    fun s pending => utcOffsetChange_gives pending, fun s t0 => ppsEdge_gives⟩

end Sys2Proof.Machine
end

section
/-!
PROOFS. The front-end pins as a number of twelve bits (R84, R85), and the event unit's queue (R224 to R226).
-/

namespace Sys2Proof.Machine

/-- A number written bit by bit. -/
def bitsSum (n : Nat) (p : Nat → Bool) : Nat := (List.range n).foldl (fun m j => m + b2n (p j) * 2 ^ j) 0

theorem bitsSum_succ (n : Nat) (p : Nat → Bool) : bitsSum (n + 1) p = bitsSum n p + b2n (p n) * 2 ^ n := by
  rw [bitsSum, List.range_succ, List.foldl_append, List.foldl_cons, List.foldl_nil, bitsSum]

theorem bitsSum_lt (n : Nat) (p : Nat → Bool) : bitsSum n p < 2 ^ n := by
  induction n with
  | zero => exact Nat.one_pos
  | succ n ih =>
    rw [bitsSum_succ, Nat.pow_succ]
    cases p n <;> simp only [b2n, if_true, Bool.false_eq_true, if_false] <;> omega

theorem testBit_bitsSum (n : Nat) (p : Nat → Bool) (i : Nat) : (bitsSum n p).testBit i = (decide (i < n) && p i) := by
  induction n with
  | zero => exact Nat.zero_testBit i
  | succ n ih =>
    have low := bitsSum_lt n p
    rw [bitsSum_succ, Nat.add_comm, Nat.mul_comm, Nat.testBit_two_pow_mul_add _ low, ih]
    rcases Nat.lt_trichotomy i n with below | same | above
    · rw [if_pos below, decide_eq_true below, decide_eq_true (Nat.lt_succ_of_lt below)]
    · subst same
      rw [if_neg (Nat.lt_irrefl i), Nat.sub_self, decide_eq_true (Nat.lt_succ_self i), Bool.true_and]
      cases p i <;> rfl
    · rw [if_neg (Nat.lt_asymm above), decide_eq_false (show ¬ i < n + 1 by omega), Bool.false_and]
      have high : i - n ≠ 0 := by omega
      cases p n
      · exact Nat.zero_testBit _
      · show Nat.testBit 1 (i - n) = false
        obtain ⟨k, at_⟩ := Nat.exists_eq_succ_of_ne_zero high
        rw [at_, Nat.testBit_succ]
        exact Nat.zero_testBit k

section
variable {s : State} {h : Fin 8}

/-- The levels that driving pins leaves. -/
def drivenLevels (s : State) (h : Fin 8) (mask v : Nat) : Nat := bitsSum 12 fun j =>
  if bitOf (if s.bist.target = some h.val then 0 else mask) j then bitOf (if s.flt.pinSafe[h] then s.get (Fld.FEP_SAFE_SAFE.h h) else v) j
  else bitOf (s.get (Fld.FEP_LEVEL_LEVEL.h h)) j

theorem drivePins_eq (s : State) (h : Fin 8) (mask v : Nat) : s.drivePins h mask v = { s with
    regs := rfPut s.regs (Fld.FEP_LEVEL_LEVEL.h h) (drivenLevels s h mask v) } := by
  have each (c : Prop) [Decidable c] (x y : Bool) : b2n (if c then x else y) = if c then b2n x else b2n y := by split <;> rfl
  rw [State.drivePins, State.put_eq, drivenLevels, bitsSum]
  simp only [each]

theorem rfGet_drivenLevels (mask v : Nat) {j : Nat} (pin : j < 12) :
    bitOf (rfGet (rfPut s.regs (Fld.FEP_LEVEL_LEVEL.h h) (drivenLevels s h mask v)) (Fld.FEP_LEVEL_LEVEL.h h)) j
      = if bitOf (if s.bist.target = some h.val then 0 else mask) j then bitOf (if s.flt.pinSafe[h] then s.get (Fld.FEP_SAFE_SAFE.h h) else v) j
        else bitOf (s.get (Fld.FEP_LEVEL_LEVEL.h h)) j := by
  rw [rfGet_rfPut_self_h _ _ _ (by decide), drivenLevels]
  show bitOf (bitsSum 12 _ % 2 ^ 12) j = _
  rw [Nat.mod_eq_of_lt (bitsSum_lt 12 _), bitOf_eq_testBit, testBit_bitsSum, decide_eq_true pin, Bool.true_and]

/-- The mask of the pins of an owner. -/
theorem testBit_pinsOf (o : Nat) {j : Nat} (pin : j < 12) : (s.pinsOf h o).testBit j = decide (s.pinOwner h j = o) := by
  have sum : s.pinsOf h o = bitsSum 12 fun j => decide (s.pinOwner h j = o) := by
    rw [State.pinsOf, bitsSum]
    congr 1
    funext m j
    by_cases own : s.pinOwner h j = o
    · rw [if_pos own, decide_eq_true own, b2n, if_pos rfl, Nat.one_mul]
    · rw [if_neg own, decide_eq_false own, b2n, if_neg Bool.false_ne_true, Nat.zero_mul, Nat.add_zero]
  rw [sum, testBit_bitsSum, decide_eq_true pin, Bool.true_and]

end

end Sys2Proof.Machine
end

section
/-!
PROOFS. The event unit: actions, timers, notification queues (R224 to R227, R261, R275, R488); the settlement of O29.
-/

namespace Sys2Proof.Machine

/-- The action that crosses has left the crossing. -/
def Evu.crossed (x : Evu) : Evu := { x with cross := none }

/-- An action has joined the queue. -/
def Evu.queued (x : Evu) (a : EvAct) : Evu := { x with q := x.q ++ [a] }

/-- An action has left the queue. -/
def Evu.ran (x : Evu) (a : EvAct) : Evu := { x with q := eraseFirst (fun y => y == a) x.q }

/-- A timer's phase and last firing. -/
def Evu.timed (x : Evu) (n : Fin 4) (v : Nat × Nat) : Evu := { x with tmr := x.tmr.set n v }

section
variable {s : State} {h : Fin 8}

theorem State.setEvu_eq (x : Evu) : s.setEvu h x = { s with regs := rfPut s.regs (Fld.EVT_STAT_DEPTH.h h) x.q.length, evu := s.evu.set h x } := by
  rw [State.setEvu, State.put_eq]

theorem depth_listed (h : Fin 8) : (Fld.EVT_STAT_DEPTH.h h).reg ∈ [hamletBase h + Reg.EVT_STAT] := List.mem_singleton_self _

theorem put_frame (s : State) (l : RegFile) (f : Field) (v : Nat) :
    ∃ regs, State.put { s with regs := l } f v = { s with regs := regs } ∧ regs = rfPut l f v := ⟨_, State.put_eq .., rfl⟩

theorem inc_frame (s : State) (l : RegFile) (f : Field) : ∃ regs, State.inc { s with regs := l } f = { s with regs := regs } ∧ ∃ v, regs = rfPut l f v :=
  ⟨_, State.inc_eq .., _, rfl⟩

/-- What a change of the event unit writes: its data, and the queue's depth shown. The register file is named: a field of a hamlet's window is not to be evaluated. -/
theorem setEvu_frame (s : State) (h : Fin 8) (x : Evu) : ∃ regs, s.setEvu h x = { s with regs := regs, evu := s.evu.set h x }
    ∧ RfSame [hamletBase h + Reg.EVT_STAT] s.regs regs ∧ rfGet regs (Fld.EVT_STAT_DEPTH.h h) = x.q.length % 128 :=
  ⟨_, State.setEvu_eq x, (RfSame.refl _ s.regs).put (f := Fld.EVT_STAT_DEPTH.h h) (depth_listed h) _, rfGet_rfPut_self_h _ _ _ (by decide)⟩

theorem RfSame.trans {l : List Nat} {r u w : RegFile} (first : RfSame l r u) (second : RfSame l u w) : RfSame l r w :=
  fun a other => (second a other).trans (first a other)

/-! ### An action joins the queue (R225) -/

section
variable {ra rb arg : Nat}

theorem exec_schedActionQueued (crosses : s.evu[h].cross = some (ra, rb, arg)) (room : s.evu[h].q.length < 64) :
    exec (.schedActionQueued h) s = .next (crossAction h ra rb arg (s.setEvu h s.evu[h].crossed)) := by
  show execSchedActionQueued h s = _
  rw [execSchedActionQueued, crosses]
  dsimp only
  rw [if_neg (by omega)]
  rfl

theorem evuCrossed : (s.setEvu h s.evu[h].crossed).evu[h] = s.evu[h].crossed := by
  rw [State.setEvu_eq]
  exact Vector.getElem_set_self _

theorem schedActionQueued_joins (crosses : s.evu[h].cross = some (ra, rb, arg)) (room : s.evu[h].q.length < 64)
    (low : 1 ≤ rb / 2 ^ 24 % 8) (high : rb / 2 ^ 24 % 8 ≤ 4) (tick : ra ≤ 491519999) (code : rb / 2 ^ 24 % 8 = 3 → arg % 65536 < 0xFFF0)
    (inTime : ((s.now + 100 * nsU : Nat) : Int) ≤ namedInstant s.now (rb / 2 ^ 29 % 8) ra (rb / 4096 % 4096)) :
    Gives (.schedActionQueued h) s fun t =>
      t.evu[h].q = s.evu[h].q ++ [⟨(namedInstant s.now (rb / 2 ^ 29 % 8) ra (rb / 4096 % 4096)).toNat, rb / 2 ^ 24 % 8, arg⟩] ∧ t.evu[h].cross = none
        ∧ t.get (Fld.EVT_STAT_DEPTH.h h) = s.evu[h].q.length + 1 ∧ t = { s with regs := t.regs, evu := t.evu } ∧ SameRegs [hamletBase h + Reg.EVT_STAT] s t := by
  have ran := exec_schedActionQueued crosses room
  have now : (s.setEvu h s.evu[h].crossed).now = s.now := by rw [State.setEvu_eq]
  rw [crossAction, now, evuCrossed] at ran
  dsimp only at ran
  generalize namedInstant s.now (rb / 2 ^ 29 % 8) ra (rb / 4096 % 4096) = at_ at ran inTime
  rw [if_neg (by omega), show ({ s.evu[h].crossed with q := s.evu[h].crossed.q ++ [⟨at_.toNat, rb / 2 ^ 24 % 8, arg⟩] } : Evu)
    = s.evu[h].crossed.queued ⟨at_.toNat, rb / 2 ^ 24 % 8, arg⟩ from rfl] at ran
  obtain ⟨regs, form, same, _⟩ := setEvu_frame s h s.evu[h].crossed
  rw [form] at ran
  obtain ⟨regs', form', same', depth⟩ := setEvu_frame { s with regs := regs, evu := s.evu.set h s.evu[h].crossed } h
    (s.evu[h].crossed.queued ⟨at_.toNat, rb / 2 ^ 24 % 8, arg⟩)
  rw [form'] at ran
  refine Gives.of_eq ran ⟨congrArg Evu.q (Vector.getElem_set_self _), congrArg Evu.cross (Vector.getElem_set_self _), ?_, rfl, (same.trans same').sameRegs⟩
  rw [State.get_eq_rfGet, depth, Evu.queued, List.length_append, List.length_singleton, Evu.crossed]
  show (s.evu[h].q.length + 1) % 128 = s.evu[h].q.length + 1
  omega

theorem rfGet_lateCounted (l : RegFile) (h : Fin 8) (v : Nat) (shown : rfGet l (Fld.EVT_STAT_LATE.h h) = 1) :
    rfGet (rfPut (rfPut l (Fld.EVT_STAT_NOTIFLOST.h h) 1) ((Fld.EVT_CNTn_COUNT.i 1).h h) v) (Fld.EVT_STAT_LATE.h h) = 1 := by
  rw [rfGet_rfPut_h (f := Fld.EVT_CNTn_COUNT.i 1) _ _ _ (by decide) (by decide), rfGet_rfPut_h _ _ _ (by decide) (by decide), shown]

theorem rfGet_lateShown (l : RegFile) (h : Fin 8) : rfGet (rfPut l (Fld.EVT_STAT_LATE.h h) 1) (Fld.EVT_STAT_LATE.h h) = 1 := by
  rw [rfGet_rfPut_self_h _ _ _ (by decide)]
  rfl

/-- A late action is counted and told to the engine. -/
theorem lateAction_eq (s : State) (h : Fin 8) : ∃ regs evq, lateAction h s = { s with regs := regs, evq := evq } ∧ rfGet regs (Fld.EVT_STAT_LATE.h h) = 1 := by
  obtain ⟨counted, count, _⟩ := inc_frame s s.regs ((Fld.EVT_CNTn_COUNT.i 0).h h)
  obtain ⟨told, tell, word⟩ := put_frame s counted (Fld.EVT_STAT_LATE.h h) 1
  have shown : rfGet told (Fld.EVT_STAT_LATE.h h) = 1 := by rw [word, rfGet_lateShown]
  rw [lateAction, count, tell, State.notify]
  split
  · exact ⟨_, _, rfl, shown⟩
  · obtain ⟨full, fill, lost⟩ := put_frame s told (Fld.EVT_STAT_NOTIFLOST.h h) 1
    obtain ⟨all, add, v, last⟩ := inc_frame s full ((Fld.EVT_CNTn_COUNT.i 1).h h)
    rw [fill, add]
    exact ⟨all, s.evq, rfl, by rw [last, lost, rfGet_lateCounted _ _ _ shown]⟩

theorem schedActionQueued_late (crosses : s.evu[h].cross = some (ra, rb, arg)) (room : s.evu[h].q.length < 64)
    (late : namedInstant s.now (rb / 2 ^ 29 % 8) ra (rb / 4096 % 4096) < ((s.now + 100 * nsU : Nat) : Int)) :
    Gives (.schedActionQueued h) s fun t => t.evu[h].q = s.evu[h].q ∧ t.evu[h].cross = none ∧ t.get (Fld.EVT_STAT_LATE.h h) = 1
      ∧ t = { s with regs := t.regs, evu := t.evu, evq := t.evq } := by
  have ran := exec_schedActionQueued crosses room
  have now : (s.setEvu h s.evu[h].crossed).now = s.now := by rw [State.setEvu_eq]
  rw [crossAction, now, evuCrossed] at ran
  dsimp only at ran
  rw [if_pos (.inr (.inr (.inr (.inr late))))] at ran
  obtain ⟨regs, evq, form, shown⟩ := lateAction_eq (s.setEvu h s.evu[h].crossed) h
  obtain ⟨_, crossed, _⟩ := setEvu_frame s h s.evu[h].crossed
  rw [form, crossed] at ran
  have evu : (s.evu.set h s.evu[h].crossed)[h] = s.evu[h].crossed := Vector.getElem_set_self _
  refine Gives.of_eq ran ⟨?_, ?_, shown, rfl⟩
  · show (s.evu.set h s.evu[h].crossed)[h].q = s.evu[h].q
    rw [evu, Evu.crossed]
  · show (s.evu.set h s.evu[h].crossed)[h].cross = none
    rw [evu, Evu.crossed]

end

/-! ### An action at its instant (R226) -/

section
variable {a : EvAct}

theorem runEvent_eq (first : firstAct s.evu[h].q = some a) {kind : Nat} (right : a.kind = kind) (act : Nat → State → State) : ∃ regs, runEvent h kind act s = act a.arg { s with now := max s.now a.at0, regs := regs, evu := s.evu.set h (s.evu[h].ran a) }
      ∧ RfSame [hamletBase h + Reg.EVT_STAT] s.regs regs := by
  obtain ⟨regs, form, same, _⟩ := setEvu_frame s h (s.evu[h].ran a)
  refine ⟨regs, ?_, same⟩
  rw [runEvent, first]
  dsimp only
  rw [if_pos right, show ({ s.evu[h] with q := eraseFirst (fun x => x == a) s.evu[h].q } : Evu) = s.evu[h].ran a from rfl, form, State.at]

theorem eventActionOrxTrigger_gives (first : firstAct s.evu[h].q = some a) (kind : a.kind = 2) :
    Gives (.eventActionOrxTrigger h) s fun t => t.orx[h].trigs = s.orx[h].trigs ++ [(max s.now a.at0, a.arg % 16)]
      ∧ t = { s with now := max s.now a.at0, regs := t.regs, evu := t.evu, orx := t.orx } ∧ SameRegs [hamletBase h + Reg.EVT_STAT] s t := by
  obtain ⟨regs, taken, same⟩ := runEvent_eq first kind _
  have ran : exec (.eventActionOrxTrigger h) s = .next _ := congrArg Host.Outcome.next taken
  simp -implicitDefEqProofs only [State.setOrx] at ran
  exact Gives.of_eq ran ⟨congrArg Orx.trigs (Vector.getElem_set_self _), rfl, same.sameRegs⟩

theorem eventActionEngineEvent_gives (first : firstAct s.evu[h].q = some a) (kind : a.kind = 3) (room : s.evq[h].length < 32) :
    Gives (.eventActionEngineEvent h) s fun t => t.evq[h] = s.evq[h] ++ [a.arg % 65536]
      ∧ t = { s with now := max s.now a.at0, regs := t.regs, evu := t.evu, evq := t.evq } ∧ SameRegs [hamletBase h + Reg.EVT_STAT] s t := by
  obtain ⟨regs, taken, same⟩ := runEvent_eq first kind _
  have ran : exec (.eventActionEngineEvent h) s = .next _ := congrArg Host.Outcome.next taken
  simp -implicitDefEqProofs only [State.notify, if_pos room] at ran
  exact Gives.of_eq ran ⟨Vector.getElem_set_self _, rfl, same.sameRegs⟩

theorem eventActionDmaTrigger_gives (first : firstAct s.evu[h].q = some a) (kind : a.kind = 4) :
    Gives (.eventActionDmaTrigger h) s fun t => t.edges = s.edges ++ [(1, h.val, a.arg % 8)]
      ∧ t = { s with now := max s.now a.at0, regs := t.regs, evu := t.evu, edges := t.edges } ∧ SameRegs [hamletBase h + Reg.EVT_STAT] s t := by
  obtain ⟨regs, taken, same⟩ := runEvent_eq first kind _
  have ran : exec (.eventActionDmaTrigger h) s = .next _ := congrArg Host.Outcome.next taken
  simp -implicitDefEqProofs only [State.postEdge] at ran
  exact Gives.of_eq ran ⟨rfl, rfl, same.sameRegs⟩

theorem eventActionPins_gives (first : firstAct s.evu[h].q = some a) (kind : a.kind = 1) :
    Gives (.eventActionPins h) s fun t => (∀ j < 12, bitOf (t.get (Fld.FEP_LEVEL_LEVEL.h h)) j =
        if s.pinOwner h j = 4 ∧ bitOf (a.arg / 65536) j = true ∧ s.bist.target ≠ some h.val
          then bitOf (if s.flt.pinSafe[h] = true then s.get (Fld.FEP_SAFE_SAFE.h h) else a.arg) j else bitOf (s.get (Fld.FEP_LEVEL_LEVEL.h h)) j)
      ∧ t.evu[h].q = eraseFirst (fun x => x == a) s.evu[h].q ∧ t = { s with now := max s.now a.at0, regs := t.regs, evu := t.evu }
      ∧ SameRegs [hamletBase h + Reg.FEP_LEVEL, hamletBase h + Reg.EVT_STAT] s t := by
  obtain ⟨regs, runs, same⟩ := runEvent_eq first kind _
  have ran : exec (.eventActionPins h) s = .next _ := congrArg Host.Outcome.next runs
  obtain ⟨u, taken⟩ : ∃ u : State, u = { s with now := max s.now a.at0, regs := regs, evu := s.evu.set h (s.evu[h].ran a) } := ⟨_, rfl⟩
  rw [← taken, drivePins_eq] at ran
  have kept {f : Field} (other : f.reg ≠ Reg.EVT_STAT) : u.get (f.h h) = s.get (f.h h) := by
    have apart : (f.h h).reg ∉ [hamletBase h + Reg.EVT_STAT] := by
      rw [List.mem_singleton, Field.h]
      exact fun e => other (Nat.add_left_cancel e)
    rw [taken, State.get_eq_rfGet, State.get_eq_rfGet, rfGet, rfGet, same _ apart]
  have level : u.get (Fld.FEP_LEVEL_LEVEL.h h) = s.get (Fld.FEP_LEVEL_LEVEL.h h) := kept (by decide)
  have safe : u.get (Fld.FEP_SAFE_SAFE.h h) = s.get (Fld.FEP_SAFE_SAFE.h h) := kept (by decide)
  have owner {j : Nat} (pin : j < 12) : u.pinOwner h j = s.pinOwner h j := by
    have own : ∀ j < 12, ((Fld.FEP_OWNn_OWN.i (j / 8)).sub (j % 8)).reg ≠ Reg.EVT_STAT := by decide
    exact kept (own j pin)
  have bist : u.bist = s.bist := by rw [taken]
  have flt : u.flt = s.flt := by rw [taken]
  have wide : RfSame [hamletBase h + Reg.FEP_LEVEL, hamletBase h + Reg.EVT_STAT] s.regs u.regs := by
    rw [taken]
    exact fun b other => same b fun e => other (List.mem_cons_of_mem _ e)
  have written := wide.put (f := Fld.FEP_LEVEL_LEVEL.h h) (List.mem_cons_self ..) (drivenLevels u h (u.pinsOf h 4 &&& (a.arg / 65536 % 4096)) (a.arg % 4096))
  have pins {j : Nat} (pin : j < 12) := rfGet_drivenLevels (s := u) (h := h) (u.pinsOf h 4 &&& (a.arg / 65536 % 4096)) (a.arg % 4096) pin
  generalize rfPut u.regs (Fld.FEP_LEVEL_LEVEL.h h) (drivenLevels u h (u.pinsOf h 4 &&& (a.arg / 65536 % 4096)) (a.arg % 4096)) = levels at ran written pins
  rw [taken] at ran
  refine Gives.of_eq ran ⟨fun j pin => ?_, congrArg Evu.q (Vector.getElem_set_self _), rfl, written.sameRegs⟩
  · rw [State.get_eq_rfGet, pins pin, level, safe, bist, flt]
    have mask : bitOf (u.pinsOf h 4 &&& (a.arg / 65536 % 4096)) j = (decide (s.pinOwner h j = 4) && bitOf (a.arg / 65536) j) := by
      rw [bitOf_eq_testBit, bitOf_eq_testBit, Nat.testBit_and, testBit_pinsOf _ pin, owner pin, show 4096 = 2 ^ 12 from rfl, Nat.testBit_mod_two_pow, decide_eq_true pin,
        Bool.true_and]
    have value : bitOf (a.arg % 4096) j = bitOf a.arg j := by
      rw [bitOf_eq_testBit, bitOf_eq_testBit, show 4096 = 2 ^ 12 from rfl, Nat.testBit_mod_two_pow, decide_eq_true pin, Bool.true_and]
    by_cases tested : s.bist.target = some h.val
    · have none : bitOf 0 j = false := by rw [bitOf_eq_testBit, Nat.zero_testBit]
      rw [if_pos tested, none, if_neg Bool.false_ne_true, if_neg fun driven => driven.2.2 tested]
    · rw [if_neg tested, mask]
      simp only [Bool.and_eq_true, decide_eq_true_eq, tested, ne_eq, not_false_eq_true, and_true]
      split
      · split
        · rfl
        · exact value
      · rfl

end

end

end Sys2Proof.Machine
end

section
/-!
PROOFS. The event unit's timers and the notification queues (R227, R275, R488); the settlement of O29.
-/

namespace Sys2Proof.Machine

section
variable {s : State} {h : Fin 8} {r : Req} {n : Fin 4} {v : Word}

/-! ### Timers (R227) -/

/-- The configuration register of a timer. -/
def timerDesc : RegDesc := ⟨Reg.EVT_TMRn_CFG, [(8, 4)], [Fld.EVT_TMRn_CFG_EN, Fld.EVT_TMRn_CFG_OWNER, Fld.EVT_TMRn_CFG_KIND, Fld.EVT_TMRn_CFG_ARG]⟩

theorem descOf_timer (h : Fin 8) (n : Fin 4) : descOf (hamletBase h + Reg.EVT_TMRn_CFG + 8 * n) = some timerDesc := by
  revert h n
  decide +kernel

/-- A field of a timer's configuration lies in its register. -/
theorem timer_reg {f : Field} (at_ : f.reg = 0x8B0040 ∧ f.dims = [8]) (h : Fin 8) (n : Fin 4) : ((f.i n).h h).reg = hamletBase h + Reg.EVT_TMRn_CFG + 8 * n := by
  rw [Field.h, Field.i, at_.1, at_.2, Nat.add_assoc, Nat.mul_comm]
  rfl

/-- A free timer takes the owner that enables it: its configuration, its owner and its first instant. -/
theorem evtTimerWrite_gives (taken : Takes s r (hamletBase h + Reg.EVT_TMRn_CFG + 8 * n)) (role : r.id = h.val ∨ r.id = 16)
    (free : s.get ((Fld.EVT_TMRn_CFG_OWNER.i n).h h) = 0) (enables : getBits Fld.EVT_TMRn_CFG_EN v = 1) :
    Gives (.evtTimerWrite r h n false v) s fun t => t.get ((Fld.EVT_TMRn_CFG_OWNER.i n).h h) = (if r.id = h.val then 1 else 2)
      ∧ t.get ((Fld.EVT_TMRn_CFG_EN.i n).h h) = 1 ∧ t.get ((Fld.EVT_TMRn_CFG_KIND.i n).h h) = getBits Fld.EVT_TMRn_CFG_KIND v
      ∧ t.get ((Fld.EVT_TMRn_CFG_ARG.i n).h h) = getBits Fld.EVT_TMRn_CFG_ARG v ∧ t.evu[h].tmr[n] = (nextAfter s.now msU, 0)
      ∧ t = { s with resp := { err := false, data := 0 }, regs := t.regs, evu := t.evu } := by
  obtain ⟨me, role_, role_lt⟩ : ∃ me, timerRole r h = me ∧ me ≠ 0 ∧ me < 4 ∧ me = if r.id = h.val then 1 else 2 := by
    refine ⟨_, rfl, ?_⟩
    have hamlet := h.isLt
    rw [timerRole]
    rcases role with own | reeve
    · rw [if_pos own, if_pos own]
      decide
    · rw [if_neg (by omega), if_pos reeve, if_neg (by omega)]
      decide
  obtain ⟨some_, small, is⟩ := role_lt
  have stored : ∃ regs, s.ok.storeReg r (hamletBase h + Reg.EVT_TMRn_CFG + 8 * n) v = { s with resp := { err := false, data := 0 }, regs := regs }
      ∧ regs = rfWrite s.regs (hamletBase h + Reg.EVT_TMRn_CFG + 8 * n) (wordWrite false timerDesc v (rfRead s.regs (hamletBase h + Reg.EVT_TMRn_CFG + 8 * n))) :=
    ⟨_, by rw [State.storeReg_unguarded (descOf_timer h n) (by decide), State.wr_eq, State.ok, State.rd_eq_rfRead], rfl⟩
  obtain ⟨regs, stored, word⟩ := stored
  have plain {f : Field} (at_ : f.reg = 0x8B0040 ∧ f.dims = [8]) (clean : timerDesc.clean f = true) (has : timerDesc.has f = true) :
      rfGet regs ((f.i n).h h) = getBits f v := by
    have bits : getBits ((f.i n).h h) = getBits f := rfl
    rw [word, rfGet_rfWrite_same _ _ (timer_reg at_ h n), bits, getBits_wordWrite_plain clean has]
  have en : rfGet regs ((Fld.EVT_TMRn_CFG_EN.i n).h h) = 1 := (plain ⟨rfl, rfl⟩ (by decide) (by decide)).trans enables
  have kind := plain (f := Fld.EVT_TMRn_CFG_KIND) ⟨rfl, rfl⟩ (by decide) (by decide)
  have arg := plain (f := Fld.EVT_TMRn_CFG_ARG) ⟨rfl, rfl⟩ (by decide) (by decide)
  obtain ⟨owned, own, ownWord⟩ := put_frame { s with resp := { err := false, data := 0 } } regs ((Fld.EVT_TMRn_CFG_OWNER.i n).h h) me
  have keeps {f : Field} (dims : Fld.EVT_TMRn_CFG_OWNER.dims = f.dims) (apart : Fld.EVT_TMRn_CFG_OWNER.apart f = true) :
      rfGet owned ((f.i n).h h) = rfGet regs ((f.i n).h h) := by
    rw [ownWord, rfGet_rfPut_ih _ _ _ _ (by decide) dims apart]
  have owner : rfGet owned ((Fld.EVT_TMRn_CFG_OWNER.i n).h h) = me := by
    rw [ownWord, rfGet_rfPut_self_ih _ _ _ _ (by decide)]
    exact Nat.mod_eq_of_lt small
  obtain ⟨last, form, same, _⟩ := setEvu_frame { s with resp := { err := false, data := 0 }, regs := owned } h (s.evu[h].timed n (nextAfter s.now msU, 0))
  have final {f : Field} (at_ : f.reg = 0x8B0040 ∧ f.dims = [8]) : rfGet last ((f.i n).h h) = rfGet owned ((f.i n).h h) := by
    have other : ((f.i n).h h).reg ∉ [hamletBase h + Reg.EVT_STAT] := by
      rw [timer_reg at_, List.mem_singleton]
      show ¬ (hamletBase h + 0x8B0040 + 8 * n.val = hamletBase h + 0x8B0014)
      omega
    rw [rfGet, rfGet, same _ other]
  have ran : exec (.evtTimerWrite r h n false v) s = .next { s with
      resp := { err := false, data := 0 }, regs := last, evu := s.evu.set h (s.evu[h].timed n (nextAfter s.now msU, 0)) } := by
    refine congrArg Host.Outcome.next ((regCmd_ok taken).trans ?_)
    rw [timerWrite]
    dsimp only
    rw [role_, show s.ok.get ((Fld.EVT_TMRn_CFG_OWNER.i n).h h) = 0 from free, if_neg (by simp [some_]), if_neg Bool.false_ne_true, if_neg Bool.false_ne_true, stored,
      State.flag_eq_rfGet, en]
    rw [if_pos (by decide), own]
    exact form
  refine Gives.of_eq ran ⟨?_, ?_, ?_, ?_, ?_, rfl⟩
  · rw [State.get_eq_rfGet, final ⟨rfl, rfl⟩, owner, is]
  · rw [State.get_eq_rfGet, final ⟨rfl, rfl⟩, keeps (f := Fld.EVT_TMRn_CFG_EN) rfl (by decide), en]
  · rw [State.get_eq_rfGet, final ⟨rfl, rfl⟩, keeps (f := Fld.EVT_TMRn_CFG_KIND) rfl (by decide), kind]
  · rw [State.get_eq_rfGet, final ⟨rfl, rfl⟩, keeps (f := Fld.EVT_TMRn_CFG_ARG) rfl (by decide), arg]
  · show (s.evu.set h (s.evu[h].timed n (nextAfter s.now msU, 0)))[h].tmr[n] = _
    rw [show (s.evu.set h (s.evu[h].timed n (nextAfter s.now msU, 0)))[h] = s.evu[h].timed n (nextAfter s.now msU, 0) from Vector.getElem_set_self _]
    exact Vector.getElem_set_self _

/-- Notifying a hamlet's engine leaves the stores, device time, the event unit and the edges alone. -/
theorem notify_frame (s : State) (h : Fin 8) (code : Nat) : ∃ regs evq, s.notify h code = { s with regs := regs, evq := evq } := by
  rw [State.notify]
  split
  · exact ⟨_, _, rfl⟩
  · rw [State.inc_eq, State.put_eq]
    exact ⟨_, _, rfl⟩

theorem eventTimerFire_gives (on : s.get ((Fld.EVT_TMRn_CFG_EN.i n).h h) = 1) :
    Gives (.eventTimerFire h n) s fun t => t.now = max s.now (nextFire s.evu[h].tmr[n].1 s.evu[h].tmr[n].2 (s.timerPeriod h n))
      ∧ t.evu[h].tmr[n] = (s.evu[h].tmr[n].1, nextFire s.evu[h].tmr[n].1 s.evu[h].tmr[n].2 (s.timerPeriod h n)) ∧ t.mem = s.mem
      ∧ (s.get ((Fld.EVT_TMRn_CFG_KIND.i n).h h) = 4 → t.edges = s.edges ++ [(1, h.val, s.get ((Fld.EVT_TMRn_CFG_ARG.i n).h h) % 8)] ∧ t.evq = s.evq)
      ∧ (s.get ((Fld.EVT_TMRn_CFG_KIND.i n).h h) ≠ 4 → s.evq[h].length < 32 → t.evq[h] = s.evq[h] ++ [0xFE00 + s.get ((Fld.EVT_TMRn_CFG_ARG.i n).h h)]
        ∧ t.edges = s.edges) := by
  generalize fires : (s.evu[h].tmr[n].1, nextFire s.evu[h].tmr[n].1 s.evu[h].tmr[n].2 (s.timerPeriod h n)) = phase
  have instant : nextFire s.evu[h].tmr[n].1 s.evu[h].tmr[n].2 (s.timerPeriod h n) = phase.2 := by rw [← fires]
  obtain ⟨regs, form, same, _⟩ := setEvu_frame (s.at phase.2) h (s.evu[h].timed n phase)
  have kind : rfGet regs ((Fld.EVT_TMRn_CFG_KIND.i n).h h) = s.get ((Fld.EVT_TMRn_CFG_KIND.i n).h h) := by
    have other : ((Fld.EVT_TMRn_CFG_KIND.i n).h h).reg ∉ [hamletBase h + Reg.EVT_STAT] := by
      rw [timer_reg ⟨rfl, rfl⟩, List.mem_singleton]
      show ¬ (hamletBase h + 0x8B0040 + 8 * n.val = hamletBase h + 0x8B0014)
      omega
    rw [State.get_eq_rfGet, rfGet, rfGet, same _ other, State.at]
  obtain ⟨u, made⟩ : ∃ u : State, u = { s with now := max s.now phase.2, regs := regs, evu := s.evu.set h (s.evu[h].timed n phase) } := ⟨_, rfl⟩
  have ran : exec (.eventTimerFire h n) s = .next (if s.get ((Fld.EVT_TMRn_CFG_KIND.i n).h h) = 4 then u.postEdge 1 h (s.get ((Fld.EVT_TMRn_CFG_ARG.i n).h h) % 8)
      else u.notify h (0xFE00 + s.get ((Fld.EVT_TMRn_CFG_ARG.i n).h h))) := by
    show execEventTimerFire h n s = _
    rw [execEventTimerFire, State.flag_of_get_one on, if_pos rfl]
    dsimp only
    rw [instant, show (s.evu[h].tmr[n].1, phase.2) = phase by rw [← fires]]
    show Host.Outcome.next (if ((s.at phase.2).setEvu h (s.evu[h].timed n phase)).get ((Fld.EVT_TMRn_CFG_KIND.i n).h h) = 4 then
        ((s.at phase.2).setEvu h (s.evu[h].timed n phase)).postEdge 1 h (s.get ((Fld.EVT_TMRn_CFG_ARG.i n).h h) % 8)
      else ((s.at phase.2).setEvu h (s.evu[h].timed n phase)).notify h (0xFE00 + s.get ((Fld.EVT_TMRn_CFG_ARG.i n).h h))) = _
    rw [form.trans made.symm, State.get_eq_rfGet, show u.regs = regs by rw [made], kind]
  have evu : u.evu[h].tmr[n] = phase := by
    rw [made]
    show (s.evu.set h (s.evu[h].timed n phase))[h].tmr[n] = _
    rw [show (s.evu.set h (s.evu[h].timed n phase))[h] = s.evu[h].timed n phase from Vector.getElem_set_self _]
    exact Vector.getElem_set_self _
  have now : u.now = max s.now phase.2 := by rw [made]
  have mem : u.mem = s.mem := by rw [made]
  have edges : u.edges = s.edges := by rw [made]
  have evq : u.evq = s.evq := by rw [made]
  rw [instant]
  refine Gives.of_eq ran ?_
  by_cases four : s.get ((Fld.EVT_TMRn_CFG_KIND.i n).h h) = 4
  · rw [if_pos four, State.postEdge]
    exact ⟨now, evu, mem, fun _ => ⟨by rw [edges], evq⟩, fun other => absurd four other⟩
  · rw [if_neg four]
    obtain ⟨regs', evq', told⟩ := notify_frame u h (0xFE00 + s.get ((Fld.EVT_TMRn_CFG_ARG.i n).h h))
    refine ⟨?_, ?_, ?_, fun same => absurd same four, fun _ room => ?_⟩
    · rw [told]
      exact now
    · rw [told]
      exact evu
    · rw [told]
      exact mem
    · rw [State.notify, if_pos (by rw [evq]; exact room)]
      exact ⟨by rw [← evq]; exact Vector.getElem_set_self _, edges⟩

/-! ### Reads of the notification queues (R275, R488) -/

theorem exec_engEvqRead {c : Nat} {l : List Nat} (open_ : s.check r (hamletBase h + Reg.ENG_EVQ) 2 false = .ok) (waits : s.evq[h] = c :: l) :
    exec (.engEvqRead r h) s = .next { s with evq := s.evq.set h l, resp := { err := false, data := 2 ^ 31 + c % 65536 } } := by
  show execEngEvqRead r h s = _
  rw [execEngEvqRead, readCmd, open_]
  dsimp only
  rw [evqRead, waits]

theorem exec_sysEvqRead {c : Nat} {l : List Nat} (open_ : s.check r Reg.SYS_EVQ 2 false = .ok) (waits : s.flt.evq = c :: l) :
    exec (.sysEvqRead r) s = .next { s with flt := { s.flt with evq := l }, resp := { err := false, data := 2 ^ 31 + c % 65536 } } := by
  show execSysEvqRead r s = _
  rw [execSysEvqRead, readCmd, open_]
  dsimp only
  rw [sysEvqRead, waits]

end

/-- Settles O29: an action crosses into its queue or is late; at its instant it leaves the queue and acts; a timer's write and its firing keep the rest of the event unit. -/
theorem eventUnit : Obligations.EventUnit := by
  refine ⟨fun s h ra rb arg crosses room => ⟨fun low high tick code inTime => schedActionQueued_joins crosses room low high tick code inTime,
      fun late => schedActionQueued_late crosses room late⟩,
    fun s h a first kind => eventActionPins_gives first kind, fun s h a first kind => eventActionOrxTrigger_gives first kind,
    fun s h a first kind room => eventActionEngineEvent_gives first kind room, fun s h a first kind => eventActionDmaTrigger_gives first kind,
    fun s r h n v taken role free enables => evtTimerWrite_gives taken role free enables, fun s h n on => eventTimerFire_gives on,
    fun s r h c l open_ waits => exec_engEvqRead open_ waits, fun s r c l open_ waits => exec_sysEvqRead open_ waits⟩

end Sys2Proof.Machine
end

section
/-!
PROOFS. Measurements of device time: what judging one leaves alone (R219 to R223).
-/

namespace Sys2Proof.Machine

section
variable {s t u : State}

/-- An event of severity 0 or 1, told to the Reeve's indications or not, stays within the notice's frame. -/
theorem noticeOnly_raiseSev (num elem info : Nat) (ind : Bool) (low : severityOf num ≤ 1) : NoticeOnly s (s.raiseSev num (severityOf num) elem info ind) := by
  have H : QuietLow (fun t => NoticeOnly s t) := by
    rintro t regs1 out1 flt1 port1 lnk1 ⟨_, _, _, _, _, rfl⟩
    exact ⟨_, _, _, _, _, rfl⟩
  rw [State.raiseSev]
  exact quietLow_State_enterFault H (s.inc (Fld.FLT_CNTn_COUNT.i 0)) _ num (severityOf num) elem info ind low ((NoticeOnly.refl s).put _ _)

theorem State.raiseSev_rd (num sev elem info : Nat) (ind : Bool) {a : Nat} (quiet : raiseTouches a = false) : (s.raiseSev num sev elem info ind).rd a = s.rd a := by
  have H : RaiseKeeps (fun t => ∀ a, raiseTouches a = false → t.rd a = s.rd a) := by
    refine ⟨fun e kept a outside => (State.rd_congr e a).trans (kept a outside), fun t b v touched kept a outside => ?_⟩
    rw [State.rd_wr_ne t v (fun e => by rw [e, touched] at outside; cases outside)]
    exact kept a outside
  exact raiseKeeps_State_raiseSev H s num sev elem info ind (fun _ _ => rfl) a quiet

theorem State.raiseSev_get (num sev elem info : Nat) (ind : Bool) {f : Field} (quiet : raiseTouches f.reg = false) : (s.raiseSev num sev elem info ind).get f = s.get f := by
  rw [State.get, State.raiseSev_rd num sev elem info ind quiet, State.get]

/-- A measurement judged leaves the stamps taken and the mark of a new SYNC edge alone, and changes nothing outside the notice's frame but the clock's own data. -/
structure TimKept (s t : State) : Prop where
  frame : ∃ tim, NoticeOnly { s with tim := tim } t
  caps : t.tim.caps = s.tim.caps
  syncAt : t.tim.syncAt = s.tim.syncAt
  syncNew : t.get Fld.TIM_STAT_SYNCNEW = s.get Fld.TIM_STAT_SYNCNEW

theorem TimKept.refl (s : State) : TimKept s s := ⟨⟨s.tim, .refl s⟩, rfl, rfl, rfl⟩

theorem TimKept.trans (first : TimKept s t) (second : TimKept t u) : TimKept s u where
  frame := by
    obtain ⟨_, _, _, _, _, _, rfl⟩ := first.frame
    obtain ⟨_, _, _, _, _, _, rfl⟩ := second.frame
    exact ⟨_, _, _, _, _, _, rfl⟩
  caps := second.caps.trans first.caps
  syncAt := second.syncAt.trans first.syncAt
  syncNew := second.syncNew.trans first.syncNew

theorem TimKept.put (same : TimKept s t) {f : Field} (v : Nat) (fits : f.fits = true) (apart : f.apart Fld.TIM_STAT_SYNCNEW = true) : TimKept s (t.put f v) := by
  refine same.trans ⟨⟨t.tim, (NoticeOnly.refl t).put f v⟩, ?_, ?_, ?_⟩
  · rw [State.put_tim]
  · rw [State.put_tim]
  · rw [State.get_eq_rfGet, State.put_regs, rfGet_rfPut_apart _ _ fits apart, State.get_eq_rfGet]

/-- A register other than TIM_STAT. -/
theorem TimKept.putOther (same : TimKept s t) {f : Field} (v : Nat) (other : f.reg ≠ Reg.TIM_STAT) : TimKept s (t.put f v) := by
  refine same.trans ⟨⟨t.tim, (NoticeOnly.refl t).put f v⟩, ?_, ?_, ?_⟩
  · rw [State.put_tim]
  · rw [State.put_tim]
  · rw [State.get, State.rd_put_ne (b := Fld.TIM_STAT_SYNCNEW.reg) _ _ (Ne.symm other), State.get]

theorem TimKept.inc (same : TimKept s t) {f : Field} (other : f.reg ≠ Reg.TIM_STAT) : TimKept s (t.inc f) := same.putOther _ other

theorem TimKept.raiseSev (same : TimKept s t) {num : Nat} (low : severityOf num ≤ 1) (elem info : Nat) (ind : Bool) :
    TimKept s (t.raiseSev num (severityOf num) elem info ind) := by
  have notice := noticeOnly_raiseSev (s := t) num elem info ind low
  exact same.trans ⟨⟨t.tim, notice⟩, by rw [notice.eq], by rw [notice.eq], State.raiseSev_get num _ elem info ind (by decide)⟩

theorem TimKept.tim (same : TimKept s t) {tim : Tim} (caps : tim.caps = t.tim.caps) (syncAt : tim.syncAt = t.tim.syncAt) : TimKept s (t.setTim tim) := by
  rw [State.setTim]
  exact same.trans ⟨⟨tim, .refl _⟩, caps, syncAt, rfl⟩

theorem TimKept.ite {c : Prop} [Decidable c] (yes : TimKept s t) (no : TimKept s u) : TimKept s (if c then t else u) := by
  split
  · exact yes
  · exact no

theorem TimKept.eq (same : TimKept s t) : t = { s with regs := t.regs, out := t.out, flt := t.flt, port := t.port, lnk := t.lnk, tim := t.tim } := by
  obtain ⟨_, _, _, _, _, _, rfl⟩ := same.frame
  rfl

end

section
variable {s t : State}

theorem TimKept.setSuspect (same : TimKept s t) (n : Nat) (sus : Bool) (good : Nat) : TimKept s (setSuspect n sus good t) := by
  rw [Machine.setSuspect]
  refine TimKept.ite ?_ ?_
  · exact (same.putOther _ (show 0x4080054 ≠ _ by decide)).putOther _ (show 0x4080054 ≠ _ by decide)
  · exact same.tim rfl rfl

theorem TimKept.enterHold (same : TimKept s t) : TimKept s t.enterHold := by
  rw [State.enterHold]
  have counted : TimKept s ((t.put Fld.TIM_STAT_STATE 2).inc (Fld.TIM_CNTn_COUNT.i 4)) := (same.put _ (by decide) (by decide)).inc (by decide)
  generalize (t.put Fld.TIM_STAT_STATE 2).inc (Fld.TIM_CNTn_COUNT.i 4) = u at counted
  exact TimKept.ite same ((counted.tim (tim := { u.tim with holdAt := u.now }) rfl rfl).raiseSev (num := 0x442) (by decide) 0xFF _ false)

theorem TimKept.acceptMeas (same : TimKept s t) (src : Nat) (off : Int) : TimKept s (acceptMeas src off t) := by
  have shown : TimKept s ((t.put Fld.TIM_OFFS_OFFS (unsigned 32 (clampS 32 (off.tdiv nsU)))).put Fld.TIM_STAT_LASTRES 0) :=
    (same.putOther _ (by decide)).put _ (by decide) (by decide)
  rw [Machine.acceptMeas]
  generalize (t.put Fld.TIM_OFFS_OFFS (unsigned 32 (clampS 32 (off.tdiv nsU)))).put Fld.TIM_STAT_LASTRES 0 = u at shown
  have fresh : TimKept s (if src < 5 ∧ u.portUp src = true then u.put (Fld.TIM_SRCSTAT_STALE.sub src) 0 else u) :=
    TimKept.ite (shown.putOther _ (show 0x4080054 ≠ _ by decide)) shown
  exact TimKept.ite (fresh.put _ (by decide) (by decide)) fresh

theorem TimKept.refuseJump (same : TimKept s t) (src : Nat) : TimKept s (refuseJump src t) := by
  rw [Machine.refuseJump]
  have told := ((((same.put (f := Fld.TIM_STAT_JUMPREF) 1 (by decide) (by decide)).inc (f := Fld.TIM_CNTn_COUNT.i 0) (by decide)).put (f := Fld.TIM_STAT_LASTRES) 2
    (by decide) (by decide)).setSuspect src true 0).raiseSev (num := 0x441) (by decide) 0xFF src true
  exact TimKept.ite told.enterHold told

theorem TimKept.judgeRest (same : TimKept s t) (src : Nat) (off : Int) (step init : Bool) : TimKept s (judgeRest src off step init t) := by
  rw [Machine.judgeRest]
  exact TimKept.ite (same.refuseJump src) (TimKept.ite ((same.inc (by decide)).put _ (by decide) (by decide)) (same.acceptMeas src off))

theorem TimKept.judgeWatch (same : TimKept s t) (off : Int) : TimKept s (judgeWatch off t) := by
  have insane := ((same.put (f := Fld.TIM_STAT_INSANE) 1 (by decide) (by decide)).inc (f := Fld.TIM_CNTn_COUNT.i 2) (by decide)).put (f := Fld.TIM_STAT_LASTRES) 5
    (by decide) (by decide)
  rw [Machine.judgeWatch]
  refine TimKept.ite (same.put _ (by decide) (by decide)) ?_
  exact insane.raiseSev (by split <;> decide) 0xFF _ true

theorem TimKept.scheduleStep (same : TimKept s t) (src : Nat) (off : Int) (load : Bool) : TimKept s (scheduleStep src off load t) := by
  rw [Machine.scheduleStep]
  exact (((same.put _ (by decide) (by decide)).put _ (by decide) (by decide)).setSuspect src false _).tim rfl rfl

theorem TimKept.judge (same : TimKept s t) (src : Nat) (off : Int) (step init : Bool) : TimKept s (judge src off step init t) := by
  rw [Machine.judge]
  have measured : TimKept s (if h : src < 4 then t.setTim { t.tim with meas := t.tim.meas.set src t.now } else t) := by
    split
    · exact same.tim rfl rfl
    · exact same
  generalize (if h : src < 4 then t.setTim { t.tim with meas := t.tim.meas.set src t.now } else t) = u at measured
  dsimp only
  refine TimKept.ite (measured.put _ (by decide) (by decide)) (TimKept.ite (measured.judgeWatch off) (TimKept.ite ?_ (TimKept.ite (measured.scheduleStep src off _)
    (TimKept.ite (TimKept.ite (TimKept.ite ((measured.setSuspect _ _ _).acceptMeas src off) ?_) ?_) (measured.judgeRest src off step init)))))
  · exact (measured.inc (by decide)).put _ (by decide) (by decide)
  · exact (measured.setSuspect _ _ _).put _ (by decide) (by decide)
  · exact (measured.setSuspect _ _ _).put _ (by decide) (by decide)

end

end Sys2Proof.Machine
end

section
/-!
PROOFS. The Tally hops (R231 to R234); the settlement of O30.
-/

namespace Sys2Proof.Machine

section
variable {s : State} {up : Bool} {body : List Nat}

/-! ### Windows (R231, R232) -/

theorem exec_tallyWindow_good (on : s.get Fld.TLY_CFG_EN = 1) (length : body.length = 2 + body.getD 1 0) (fits : body.getD 1 0 ≤ 39) :
    exec (.tallyWindow up body (crc16 body)) s = .next (takeTally up body (goodWindow up (sendWindow up s))) := by
  show execTallyWindow up body (crc16 body) s = _
  rw [execTallyWindow, State.flag_of_get_one on, if_neg (by decide)]
  dsimp only
  rw [if_pos ⟨rfl, fits, length⟩]

theorem exec_tallyWindow_bad {crc : Nat} (on : s.get Fld.TLY_CFG_EN = 1) (bad : crc16 body ≠ crc ∨ body.length ≠ 2 + body.getD 1 0 ∨ 39 < body.getD 1 0) :
    exec (.tallyWindow up body crc) s = .next (badWindow up ((sendWindow up s).inc (Fld.TLY_CNTn_COUNT.i 0))) := by
  have refused : ¬ (crc16 body = crc ∧ body.getD 1 0 ≤ 39 ∧ body.length = 2 + body.getD 1 0) := by
    rintro ⟨checks, fits, length⟩
    rcases bad with bad | bad | bad
    · exact bad checks
    · exact bad length
    · omega
  show execTallyWindow up body crc s = _
  rw [execTallyWindow, State.flag_of_get_one on, if_neg (by decide)]
  dsimp only
  rw [if_neg refused]

theorem goodWindow_counts (other : (if up then s.tly.good.1 else s.tly.good.2) ≠ 15) : goodWindow up s =
    s.setTly (if up then { s.tly with good := ((if up then s.tly.good.1 else s.tly.good.2) + 1, s.tly.good.2), bad := (0, s.tly.bad.2) }
      else { s.tly with good := (s.tly.good.1, (if up then s.tly.good.1 else s.tly.good.2) + 1), bad := (s.tly.bad.1, 0) }) := by
  rw [goodWindow]
  dsimp only
  rw [if_neg]
  intro both
  rw [Bool.and_eq_true, decide_eq_true_eq] at both
  obtain ⟨sixteen, _⟩ := both
  exact other (Nat.succ.inj sixteen)

theorem goodWindow_up (fifteen : s.tly.good.1 = 15) (down : s.get Fld.TLY_STAT_UPLINK = 0) : goodWindow true s = { s with
    regs := rfPut s.regs Fld.TLY_STAT_UPLINK 1, tly := { s.tly with good := (16, s.tly.good.2), bad := (0, s.tly.bad.2), running := false } } := by
  have off : s.flag Fld.TLY_STAT_UPLINK = false := State.flag_of_get_zero down
  have kept (tly : Tly) : (s.setTly tly).flag Fld.TLY_STAT_UPLINK = s.flag Fld.TLY_STAT_UPLINK := by
    rw [State.setTly, State.flag_eq_rfGet, State.flag_eq_rfGet]
  rw [goodWindow]
  dsimp only
  simp -implicitDefEqProofs only [if_true, fifteen, kept, off, Bool.not_false, Bool.and_true, decide_true]
  simp -implicitDefEqProofs only [hopUp, State.setTly, State.put_eq, if_true]

theorem goodWindow_up_gives (fifteen : s.tly.good.1 = 15) (down : s.get Fld.TLY_STAT_UPLINK = 0) : let t := goodWindow true s
    t.get Fld.TLY_STAT_UPLINK = 1 ∧ t.tly.good.1 = 16 ∧ t.tly.bad.1 = 0 ∧ t = { s with regs := t.regs, tly := t.tly } ∧ SameRegs [Reg.TLY_STAT] s t := by
  rw [goodWindow_up fifteen down]
  refine ⟨?_, rfl, rfl, rfl, ((RfSame.refl _ s.regs).put (by decide) _).sameRegs⟩
  rw [State.get_eq_rfGet, rfGet_rfPut_self _ _ (by decide)]
  rfl

theorem badWindow_counts (other : (if up then s.tly.bad.1 else s.tly.bad.2) ≠ 7) : badWindow up s =
    s.setTly (if up then { s.tly with good := (0, s.tly.good.2), bad := ((if up then s.tly.bad.1 else s.tly.bad.2) + 1, s.tly.bad.2) }
      else { s.tly with good := (s.tly.good.1, 0), bad := (s.tly.bad.1, (if up then s.tly.bad.1 else s.tly.bad.2) + 1) }) := by
  rw [badWindow]
  dsimp only
  rw [if_neg]
  intro both
  rw [Bool.and_eq_true, decide_eq_true_eq] at both
  obtain ⟨eight, _⟩ := both
  exact other (Nat.succ.inj eight)

theorem exec_tallyWindowMissed_up (on : s.get Fld.TLY_CFG_EN = 1) : exec (.tallyWindowMissed true) s = .next (badWindow true s) := by
  show execTallyWindowMissed true s = _
  rw [execTallyWindowMissed, State.flag_of_get_one on, if_pos rfl, if_pos rfl]

/-- The count of hops lost, one more. -/
def hopsLost (l : RegFile) : Nat := min (rfGet l (Fld.TLY_CNTn_COUNT.i 1) + 1) (2 ^ (Fld.TLY_CNTn_COUNT.i 1).width - 1)

/-- The registers when the upstream hop is lost. -/
def upLost (l : RegFile) (count : Nat) : RegFile :=
  rfPut (rfPut (rfPut (rfPut l (Fld.TLY_CNTn_COUNT.i 1) count) Fld.TLY_STAT_UPLINK 0) Fld.TLY_HOP_VALID 0) Fld.TLY_STAT_ALIGNED 0

theorem badWindow_upLost (seven : s.tly.bad.1 = 7) (was : s.get Fld.TLY_STAT_UPLINK = 1) : ∃ count aligned, badWindow true s = { s with
    regs := upLost s.regs count
    tly := { s.tly with good := (0, s.tly.good.2), bad := (8, s.tly.bad.2), running := aligned }
    tim := { s.tim with near := 0, slew := 0 } } := by
  refine ⟨(hopsLost s.regs), rfGet (rfPut s.regs (Fld.TLY_CNTn_COUNT.i 1) (hopsLost s.regs)) Fld.TLY_STAT_ALIGNED != 0, ?_⟩
  rw [badWindow]
  dsimp only
  simp -implicitDefEqProofs only [if_true, seven, State.flag_of_get_one was, Bool.and_true, decide_true]
  simp -implicitDefEqProofs only [hopDown, State.setTly, State.setTim, State.put_eq, State.inc_eq, if_true, State.flag_eq_rfGet]
  rfl

theorem tallyWindowMissed_upLost (on : s.get Fld.TLY_CFG_EN = 1) (seven : s.tly.bad.1 = 7) (was : s.get Fld.TLY_STAT_UPLINK = 1) :
    Gives (.tallyWindowMissed true) s fun t => t.get Fld.TLY_STAT_UPLINK = 0 ∧ t.get Fld.TLY_HOP_VALID = 0
      ∧ t.get Fld.TLY_STAT_ALIGNED = 0 ∧ t.tly.good.1 = 0 ∧ t.tly.bad.1 = 8 ∧ t = { s with regs := t.regs, tly := t.tly, tim := t.tim }
      ∧ SameRegs [Reg.TLY_STAT, Reg.TLY_HOP, (Fld.TLY_CNTn_COUNT.i 1).reg] s t := by
  obtain ⟨count, aligned, lost⟩ := badWindow_upLost seven was
  have ran := exec_tallyWindowMissed_up on
  rw [lost] at ran
  refine Gives.of_eq ran ⟨?_, ?_, ?_, rfl, rfl, rfl,
    (((((RfSame.refl _ s.regs).put (by decide) _).put (by decide) _).put (by decide) _).put (by decide) _).sameRegs⟩
  all_goals
    simp (disch := decide) only [State.get_eq_rfGet, upLost, rfGet_rfPut_self, rfGet_rfPut_apart]
    rfl

/-- The window that leaves downstream: the message that waits, or an idle one. -/
theorem sendWindow_down (s : State) : ∃ l q, sendWindow false s = { s with tly := { s.tly with outDn := q }, out := .window false l :: s.out } := by
  rw [sendWindow]
  simp only [Bool.false_eq_true, if_false]
  split
  · exact ⟨_, s.tly.outDn, by rw [State.emit]⟩
  · exact ⟨_, _, by rw [State.emit, State.setTly]⟩

theorem tallyWindowMissed_downLost (on : s.get Fld.TLY_CFG_EN = 1) (seven : s.tly.bad.2 = 7) (was : s.get Fld.TLY_STAT_DNLINK = 1) :
    Gives (.tallyWindowMissed false) s fun t => t.get Fld.TLY_STAT_DNLINK = 0
      ∧ t.get Fld.TLY_STAT_UPLINK = s.get Fld.TLY_STAT_UPLINK ∧ (∃ l, t.out = .window false l :: s.out) ∧ t = { s with regs := t.regs, tly := t.tly, out := t.out } := by
  obtain ⟨l, q, sent⟩ := sendWindow_down s
  obtain ⟨count, ran⟩ : ∃ count, exec (.tallyWindowMissed false) s = .next { s with
      regs := rfPut (rfPut s.regs (Fld.TLY_CNTn_COUNT.i 1) count) Fld.TLY_STAT_DNLINK 0
      tly := { s.tly with outDn := q, good := (s.tly.good.1, 0), bad := (s.tly.bad.1, 8) }, out := .window false l :: s.out } := by
    refine ⟨(hopsLost s.regs), ?_⟩
    have down : rfGet s.regs Fld.TLY_STAT_DNLINK = 1 := was
    show execTallyWindowMissed false s = _
    rw [execTallyWindowMissed, State.flag_of_get_one on, if_pos rfl, if_neg Bool.false_ne_true, sent, badWindow]
    simp -implicitDefEqProofs only [Bool.false_eq_true, if_false, seven, State.flag_eq_rfGet, down, hopDown, State.setTly, State.put_eq, State.inc_eq]
    rfl
  refine Gives.of_eq ran ⟨?_, ?_, ⟨_, rfl⟩, rfl⟩
  · simp (disch := decide) only [State.get_eq_rfGet, rfGet_rfPut_self]
    rfl
  · simp (disch := decide) only [State.get_eq_rfGet, rfGet_rfPut_apart]

/-! ### The hop's delay, the pulse, the edge, the slew (R233, R234) -/

theorem hopDelayAverage_gives {trips : List Nat} (linked : s.get Fld.TLY_STAT_UPLINK = 1) (full : trips.length = 256) :
    Gives (.hopDelayAverage trips) s fun t => t.get Fld.TLY_HOP_DELAY = hopDelay trips % 2 ^ Fld.TLY_HOP_DELAY.width ∧ t.get Fld.TLY_HOP_VALID = 1
      ∧ t = { s with regs := t.regs } ∧ SameRegs [Reg.TLY_HOP] s t := by
  have ran : exec (.hopDelayAverage trips) s = .next { s with regs := rfPut (rfPut s.regs Fld.TLY_HOP_DELAY (hopDelay trips)) Fld.TLY_HOP_VALID 1 } := by
    show execHopDelayAverage trips s = _
    rw [execHopDelayAverage, State.flag_of_get_one linked, full, if_pos (by decide), State.put_eq, State.put_eq]
  refine Gives.of_eq ran ⟨?_, ?_, rfl, (((RfSame.refl _ s.regs).put (by decide) _).put (by decide) _).sameRegs⟩
  · simp (disch := decide) only [State.get_eq_rfGet, rfGet_rfPut_self, rfGet_rfPut_apart]
  · simp (disch := decide) only [State.get_eq_rfGet, rfGet_rfPut_self]
    rfl

theorem exec_syncoutPulse (on : s.get Fld.TLY_CFG_EN = 1) (head : s.get Fld.TLY_STAT_HEAD = 1) (stepped : s.get Fld.TIM_STAT_STEPPED = 1) {t0 : Nat}
    (next : nextMult (max s.now (s.tly.pulse + 1)) frameU = t0) : exec .syncoutPulse s = .next { s with
      now := max s.now t0
      tly := { s.tly with pulse := t0 }
      out := .syncout t0 :: .window false (windowChars 9 [secOf t0 % 2 ^ 48, nsOf t0, b2n (s.get Fld.TIM_STAT_STATE == 2)])
        :: .tally 9 [secOf t0 % 2 ^ 48, nsOf t0, b2n (s.get Fld.TIM_STAT_STATE == 2)] :: s.out } := by
  show execSyncoutPulse s = _
  rw [execSyncoutPulse, State.flag_of_get_one on, State.flag_of_get_one head, State.flag_of_get_one stepped, next]
  simp -implicitDefEqProofs only [if_true, Bool.and_self, State.emit, State.setTly, State.at, Bool.not_true, Bool.false_and, Bool.or_false]

/-- What a SYNC edge leaves before any TIME message is judged. -/
def State.edgeStamped (s : State) (t0 : Nat) : State := { s with
  now := max s.now t0
  regs := rfPut (rfPut s.regs (Fld.TIM_CAPq_NS_NS.i 1) (nsOf (s.stamp 3 t0))) Fld.TIM_STAT_SYNCNEW 1
  tim := { s.tim with caps := s.tim.caps.set 1 (s.stamp 3 t0) }
  tly := { s.tly with time := none } }

/-- No TIME message waits. -/
def State.untimed (u : State) : State := u.setTly { u.tly with time := none }

/-- A follower judges the edge with its TIME message. -/
def edgeFollowed (stamp sec ns : Nat) (u : State) : State :=
  if !u.follower then u
  else
    followOffset (((sec * secU + ns * nsU + u.get Fld.TLY_HOP_DELAY * fineU : Nat) : Int) - stamp)
      (judge 4 (((sec * secU + ns * nsU + u.get Fld.TLY_HOP_DELAY * fineU : Nat) : Int) - stamp)
        (!(u.setTim { u.tim with syncAt := stamp }).flag Fld.TIM_STAT_STEPPED || (u.setTim { u.tim with syncAt := stamp }).flag Fld.TIM_STEPCTL_AUTH) false
        (u.setTim { u.tim with syncAt := stamp }))

theorem edge_stamp (s : State) (t0 : Nat) : (s.at t0).stamp 3 t0 = s.stamp 3 t0 := by
  rw [State.stamp, State.stamp, State.get_eq_rfGet, State.get_eq_rfGet, State.at]

theorem edgeStamped_eq (s : State) (t0 : Nat) : ((takeCap 1 (s.stamp 3 t0) (s.at t0)).put Fld.TIM_STAT_SYNCNEW 1).untimed = s.edgeStamped t0 := by
  simp -implicitDefEqProofs only [takeCap, State.setTim, State.untimed, State.setTly, State.put_eq, State.at, State.edgeStamped]
  rfl

theorem exec_tallySyncEdge_none {t0 : Nat} (silent : s.tly.time = none) : exec (.tallySyncEdge t0 none) s = .next (s.edgeStamped t0) := by
  have said : (s.at t0).tly.time = none := silent
  show execTallySyncEdge t0 none s = _
  rw [execTallySyncEdge]
  dsimp only
  rw [said, edge_stamp]
  exact congrArg Host.Outcome.next (edgeStamped_eq s t0)

theorem exec_tallySyncEdge_some {t0 sec ns : Nat} : exec (.tallySyncEdge t0 (some (sec, ns))) s = .next (edgeFollowed (s.stamp 3 t0) sec ns (s.edgeStamped t0)) := by
  show execTallySyncEdge t0 (some (sec, ns)) s = _
  rw [execTallySyncEdge]
  dsimp only
  rw [edge_stamp]
  exact congrArg Host.Outcome.next (congrArg (edgeFollowed (s.stamp 3 t0) sec ns) (edgeStamped_eq s t0))

theorem edgeStamped_new (s : State) (t0 : Nat) : (s.edgeStamped t0).get Fld.TIM_STAT_SYNCNEW = 1 := by
  rw [State.get_eq_rfGet, State.edgeStamped, rfGet_rfPut_self _ _ (by decide)]
  rfl

theorem tallySyncEdge_alone {t0 : Nat} (silent : s.tly.time = none) : Gives (.tallySyncEdge t0 none) s fun t => t.tim.caps[1] = s.stamp 3 t0
    ∧ t.get (Fld.TIM_CAPq_NS_NS.i 1) = nsOf (s.stamp 3 t0) ∧ t.get Fld.TIM_STAT_SYNCNEW = 1 ∧ t = { s with now := max s.now t0, regs := t.regs, tim := t.tim } := by
  have ran := exec_tallySyncEdge_none (t0 := t0) silent
  have same : ({ s.tly with time := none } : Tly) = s.tly := by
    rw [← silent]
  refine Gives.of_eq ran ⟨Vector.getElem_set_self _, ?_, edgeStamped_new s t0, ?_⟩
  · rw [State.get_eq_rfGet, State.edgeStamped]
    simp (disch := decide) only [rfGet_rfPut_self, rfGet_rfPut_apart]
    exact Nat.mod_eq_of_lt (Nat.lt_trans (nsOf_lt _) (by decide))
  · rw [State.edgeStamped, same]

theorem tallySyncEdge_judged {t0 sec ns : Nat} (follows : s.follower = true) : Gives (.tallySyncEdge t0 (some (sec, ns))) s fun t => t.tim.caps[1] = s.stamp 3 t0
    ∧ t.tim.syncAt = s.stamp 3 t0 ∧ t.get Fld.TIM_STAT_SYNCNEW = 1 ∧ t.now = max s.now t0 ∧ t.mem = s.mem ∧ t.eff = s.eff := by
  have still : (s.edgeStamped t0).follower = true := by
    rw [← follows, State.follower, State.follower, State.flag_eq_rfGet, State.flag_eq_rfGet, State.flag_eq_rfGet, State.flag_eq_rfGet, State.edgeStamped]
    simp (disch := decide) only [rfGet_rfPut_apart]
  have ran := exec_tallySyncEdge_some (s := s) (t0 := t0) (sec := sec) (ns := ns)
  rw [edgeFollowed, still, if_neg (by decide)] at ran
  generalize (((sec * secU + ns * nsU + (s.edgeStamped t0).get Fld.TLY_HOP_DELAY * fineU : Nat) : Int) - s.stamp 3 t0) = off at ran
  have set_ : ((s.edgeStamped t0).setTim { (s.edgeStamped t0).tim with syncAt := s.stamp 3 t0 }).get Fld.TIM_STAT_SYNCNEW = 1 := edgeStamped_new s t0
  have caps : ((s.edgeStamped t0).setTim { (s.edgeStamped t0).tim with syncAt := s.stamp 3 t0 }).tim.caps[1] = s.stamp 3 t0 := Vector.getElem_set_self _
  have syncAt : ((s.edgeStamped t0).setTim { (s.edgeStamped t0).tim with syncAt := s.stamp 3 t0 }).tim.syncAt = s.stamp 3 t0 := by rw [State.setTim]
  have form : ∃ regs tim tly, (s.edgeStamped t0).setTim { (s.edgeStamped t0).tim with syncAt := s.stamp 3 t0 } = { s with now := max s.now t0, regs := regs, tim := tim, tly := tly } :=
    ⟨_, _, _, by rw [State.setTim, State.edgeStamped]⟩
  generalize (s.edgeStamped t0).setTim { (s.edgeStamped t0).tim with syncAt := s.stamp 3 t0 } = u at ran set_ caps syncAt form
  generalize (!u.flag Fld.TIM_STAT_STEPPED || u.flag Fld.TIM_STEPCTL_AUTH) = step at ran
  have followed (v : State) (same : TimKept u v) : TimKept u (followOffset off v) := by
    rw [followOffset]
    dsimp only
    generalize (if off.natAbs ≤ nsU / 20 then v.tim.near + 1 else 0) = near
    exact TimKept.ite (TimKept.putOther (same.tim (by rfl) (by rfl)) _ (by decide)) (same.tim (by rfl) (by rfl))
  have kept := followed _ ((TimKept.refl u).judge 4 off step false)
  generalize followOffset off (judge 4 off step false u) = t at ran kept
  obtain ⟨regs, tim, tly, form⟩ := form
  refine Gives.of_eq ran ⟨?_, kept.syncAt.trans syncAt, kept.syncNew.trans set_, ?_, ?_, ?_⟩
  · rw [kept.caps]
    exact caps
  · rw [kept.eq, form]
  · rw [kept.eq, form]
  · rw [kept.eq, form]

theorem followerSlew_gives (due : (fineU : Int) ≤ s.tim.slew) : Gives .followerSlew s fun t => t.tim.slew = s.tim.slew - fineU
    ∧ t.now = max s.now (s.tim.slewAt + 250 * usU) + fineU ∧ t.get Fld.CLK_PHADJ_PHASE = unsigned 12 (signed 12 (s.get Fld.CLK_PHADJ_PHASE) + 1)
    ∧ t = { s with now := t.now, regs := t.regs, tim := t.tim } ∧ SameRegs [Reg.CLK_PHADJ] s t := by
  have ran : exec .followerSlew s = .next { s with
      now := max s.now (s.tim.slewAt + 250 * usU) + fineU
      regs := rfPut s.regs Fld.CLK_PHADJ_PHASE (unsigned 12 (signed 12 (rfGet s.regs Fld.CLK_PHADJ_PHASE) + 1))
      tim := { s.tim with slew := s.tim.slew - fineU, slewAt := max s.now (s.tim.slewAt + 250 * usU) } } := by
    have open_ : ¬ s.tim.slew.natAbs < fineU := by omega
    have sign : (0 : Int) < s.tim.slew := by
      have positive : (0 : Int) < fineU := by decide
      omega
    have shift (n : Nat) : shiftBy (fineU : Int) n = n + fineU := by
      rw [shiftBy]
      omega
    show execFollowerSlew s = _
    rw [execFollowerSlew, if_neg open_]
    simp -implicitDefEqProofs only [if_pos sign, movePhase, State.at, State.put_eq, State.setTim, State.get_eq_rfGet, shift, Int.one_mul]
  refine Gives.of_eq ran ⟨rfl, rfl, ?_, rfl, ((RfSame.refl _ s.regs).put (by decide) _).sameRegs⟩
  rw [State.get_eq_rfGet, State.get_eq_rfGet, rfGet_rfPut_self _ _ (by decide)]
  exact Nat.mod_eq_of_lt (unsigned_lt 12 _)

end

/-- Settles O30: the counts of good and bad windows move a hop up and down; an edge's stamp stands whatever the judgement of its measurement does. -/
theorem tallyHops : Obligations.TallyHops := by
  refine ⟨fun s up body on length fits => exec_tallyWindow_good on length fits, fun s up body crc on bad => exec_tallyWindow_bad on bad,
    fun s => ⟨goodWindow_up_gives, fun other => goodWindow_counts (up := true) other, fun other => goodWindow_counts (up := false) other⟩,
    fun s on => ⟨tallyWindowMissed_upLost on, fun other => ?_, tallyWindowMissed_downLost on⟩,
    fun s trips linked full => hopDelayAverage_gives linked full, fun s on head stepped => exec_syncoutPulse on head stepped rfl,
    fun s t0 silent => tallySyncEdge_alone silent, fun s t0 sec ns follows => tallySyncEdge_judged follows, fun s due => followerSlew_gives due⟩
  rw [exec_tallyWindowMissed_up on]
  exact congrArg Host.Outcome.next (badWindow_counts (up := true) other)

end Sys2Proof.Machine
end

section
/-!
PROOFS. Bias channels: codes, modes, the slew limiter (R389 to R393).
-/

namespace Sys2Proof.Machine

/-! ### The registers of a channel -/

def biasCodeDesc : RegDesc := ⟨Reg.BDA_CHc_CODE, [(32, 32)], [Fld.BDA_CHc_CODE_CODE]⟩

def biasCfgDesc : RegDesc := ⟨Reg.BDA_CHc_CFG, [(32, 32)], [Fld.BDA_CHc_CFG_MODE, Fld.BDA_CHc_CFG_SLEN, Fld.BDA_CHc_CFG_STEPM1, Fld.BDA_CHc_CFG_INTV]⟩

def biasSineDesc : RegDesc := ⟨Reg.BDA_CHc_SINE, [(32, 32)], [Fld.BDA_CHc_SINE_EN, Fld.BDA_CHc_SINE_FTW]⟩

theorem descOf_bias (c : Fin 32) : descOf (Reg.BDA_CHc_CODE + 32 * c) = some biasCodeDesc ∧ descOf (Reg.BDA_CHc_CFG + 32 * c) = some biasCfgDesc
    ∧ descOf (Reg.BDA_CHc_SINE + 32 * c) = some biasSineDesc := by
  revert c
  decide +kernel

/-- A field of a channel lies in the channel's register. -/
theorem bias_reg {f : Field} (dims : f.dims = [32]) (c : Fin 32) : (f.i c).reg = f.reg + 32 * c := by
  rw [Field.i, dims, Nat.mul_comm]
  rfl

section
variable {s : State} {r : Req} {c : Fin 32} {v : Word}

/-- A write of a channel's register. -/
theorem biasStored {a : Nat} {d : RegDesc} (desc : descOf a = some d) (open_ : lockRefused d = false) (r : Req) (v : Word) (s : State) :
    s.ok.storeReg r a v = { s with resp := { err := false, data := 0 }, regs := rfWrite s.regs a (wordWrite false d v (rfRead s.regs a)) } := by
  rw [State.storeReg_unguarded desc open_, State.wr_eq, State.ok, State.rd_eq_rfRead]

/-- A field of the word written reads what the word says. -/
theorem rfGet_biasStored {f : Field} {a : Nat} {d : RegDesc} (dims : f.dims = [32]) (at_ : f.reg + 32 * c.val = a) (clean : d.clean f = true) (has : d.has f = true) (l : RegFile) :
    rfGet (rfWrite l a (wordWrite false d v (rfRead l a))) (f.i c) = getBits f v := by
  have bits : getBits (f.i c) = getBits f := rfl
  rw [rfGet_rfWrite_same _ _ ((bias_reg dims c).trans at_), bits, getBits_wordWrite_plain clean has]

/-- A field of another register of a channel. -/
theorem rfGet_biasOther {f : Field} {b : Nat} (w : Word) (dims : f.dims = [32]) (other : f.reg ≠ b) (l : RegFile) :
    rfGet (rfWrite l (b + 32 * c.val) w) (f.i c) = rfGet l (f.i c) := by
  refine rfGet_rfWrite_ne _ _ (bne_iff_ne.2 ?_)
  rw [bias_reg dims]
  omega

/-- With no sine that waits nothing settles. -/
theorem settleSine_idle (none : s.get (Fld.BDA_CHc_STAT_SINEWAIT.i c) = 0) : settleSine c s = s := by
  rw [settleSine, State.sineArrived, State.flag_of_get_zero none]
  rfl

theorem biasShut_open (pin : s.get Fld.BDA_CTRL_CLRPIN = 0) (up : 2 ≤ s.hstate (c / 4)) : s.biasShut c = false := by
  rw [State.biasShut, State.flag_of_get_zero pin, State.biasUp, decide_eq_true up]
  rfl

/-! ### A write of CODE (R390, R391, R393) -/

/-- The registers when a code is written: the word, and the mark of a forced clear gone. -/
def biasCoded (c : Fin 32) (v : Word) (l : RegFile) : RegFile :=
  rfPut (rfWrite l (Reg.BDA_CHc_CODE + 32 * c) (wordWrite false biasCodeDesc v (rfRead l (Reg.BDA_CHc_CODE + 32 * c)))) (Fld.BDA_CHc_STAT_CLRD.i c) 0

theorem rfGet_biasCoded_stat {f : Field} (dims : f.dims = [32]) (at_ : f.reg = Reg.BDA_CHc_STAT) (apart : Fld.BDA_CHc_STAT_CLRD.apart f = true) (l : RegFile) :
    rfGet (biasCoded c v l) (f.i c) = rfGet l (f.i c) := by
  rw [biasCoded, rfGet_rfPut_i _ _ _ (by decide) (by rw [dims]; rfl) apart, rfGet_biasOther _ dims (by rw [at_]; decide)]

theorem rfGet_biasCoded_other {f : Field} (dims : f.dims = [32]) (other : f.reg ≠ Reg.BDA_CHc_CODE) (apart : Fld.BDA_CHc_STAT_CLRD.apart f = true) (l : RegFile) :
    rfGet (biasCoded c v l) (f.i c) = rfGet l (f.i c) := by
  rw [biasCoded, rfGet_rfPut_i _ _ _ (by decide) (by rw [dims]; rfl) apart, rfGet_biasOther _ dims other]

theorem rfGet_biasCoded_code (l : RegFile) : rfGet (biasCoded c v l) (Fld.BDA_CHc_CODE_CODE.i c) = getBits Fld.BDA_CHc_CODE_CODE v := by
  rw [biasCoded, rfGet_rfPut_i _ _ _ (by decide) (by decide) (by decide)]
  exact rfGet_biasStored (f := Fld.BDA_CHc_CODE_CODE) rfl rfl (by decide) (by decide) l

theorem biasCoded_same (l : RegFile) : RfSame [Reg.BDA_CHc_CODE + 32 * c, Reg.BDA_CHc_STAT + 32 * c] l (biasCoded c v l) :=
  ((RfSame.refl _ l).write (List.mem_cons_self ..) _).put (by rw [bias_reg rfl]; exact List.mem_cons_of_mem _ (List.mem_singleton_self _)) _

/-- The state once the code is stored. -/
def State.biasCoded (s : State) (c : Fin 32) (v : Word) : State := { s with resp := { err := false, data := 0 }, regs := Machine.biasCoded c v s.regs }

theorem exec_biasCodeWrite (taken : Takes s r (Reg.BDA_CHc_CODE + 32 * c)) (pin : s.get Fld.BDA_CTRL_CLRPIN = 0) (up : 2 ≤ s.hstate (c / 4))
    (free : s.get (Fld.BDA_CHc_STAT_OWNER.i c) = 0) (still : s.get (Fld.BDA_CHc_STAT_SINEWAIT.i c) = 0) (quiet : s.bias[c].sine = none)
    (nocal : s.calOnBias c = false) : exec (.biasCodeWrite r c v) s =
      .next (moveTo c (getBits Fld.BDA_CHc_CODE_CODE v) (s.flag (Fld.BDA_CHc_CFG_SLEN.i c)) (s.biasCoded c v)) := by
  obtain ⟨desc, _⟩ := descOf_bias c
  have stored : (s.ok.storeReg r (Reg.BDA_CHc_CODE + 32 * c) v).put (Fld.BDA_CHc_STAT_CLRD.i c) 0 = s.biasCoded c v := by
    rw [biasStored desc (by decide), State.put_eq, State.biasCoded, Machine.biasCoded]
  have slen : (s.biasCoded c v).flag (Fld.BDA_CHc_CFG_SLEN.i c) = s.flag (Fld.BDA_CHc_CFG_SLEN.i c) := by
    rw [State.flag_eq_rfGet, State.biasCoded, rfGet_biasCoded_other rfl (by decide) (by decide), State.flag_eq_rfGet]
  have sine : (s.biasCoded c v).bias[c].sine = none := by
    rw [State.biasCoded]
    exact quiet
  have wait : (s.biasCoded c v).get (Fld.BDA_CHc_STAT_SINEWAIT.i c) = 0 := by
    rw [State.get_eq_rfGet, State.biasCoded, rfGet_biasCoded_stat rfl rfl (by decide), ← State.get_eq_rfGet, still]
  have kept (g : Nat) (m : Bool) : (moveTo c g m (s.biasCoded c v)).flag (Fld.BDA_CHc_STAT_SINEWAIT.i c) = false := by
    refine State.flag_of_get_zero ?_
    rw [State.get_eq_rfGet] at wait
    rw [moveTo]
    split
    · rw [setOwner, State.get_eq_rfGet, State.put_regs, State.setBias, rfGet_rfPut_i _ _ _ (by decide) (by decide) (by decide), wait]
    · rw [setOwner, State.get_eq_rfGet, State.put_regs, State.setBias, rfGet_rfPut_i _ _ _ (by decide) (by decide) (by decide), State.put_regs,
        rfGet_rfPut_i _ _ _ (by decide) (by decide) (by decide), wait]
  refine congrArg Host.Outcome.next ((regCmd_ok taken).trans ?_)
  rw [biasCodeWrite, settleSine_idle (s := s.ok) still]
  dsimp only
  rw [biasShut_open (s := s.ok) pin up, if_neg Bool.false_ne_true, State.biasOwner, show s.ok.get (Fld.BDA_CHc_STAT_OWNER.i c) = 0 from free,
    show s.ok.calOnBias c = false from nocal, if_neg (by decide), biasReg, stored, stopSine, sine]
  dsimp only
  rw [slen, decide_eq_false (by decide), Bool.false_or, kept, Bool.false_and, if_neg Bool.false_ne_true]

/-- The output at once, or a ramp towards the code. -/
def biasJumped (c : Fin 32) (g : Nat) (l : RegFile) : RegFile := rfPut (rfPut l (Fld.BDA_CHc_STAT_OUT.i c) g) (Fld.BDA_CHc_STAT_OWNER.i c) 0

theorem moveTo_jump (g : Nat) (s : State) : moveTo c g false s =
    { s with regs := biasJumped c g s.regs, bias := s.bias.set c { s.bias[c] with goal := g, step := none, start := false, sine := none } } := by
  rw [moveTo, Bool.false_and, if_neg Bool.false_ne_true, setOwner, State.put_eq, State.setBias, State.put_eq, biasJumped]

theorem moveTo_ramp {g : Nat} {s : State} (away : s.get (Fld.BDA_CHc_STAT_OUT.i c) ≠ g) : moveTo c g true s =
    { s with regs := rfPut s.regs (Fld.BDA_CHc_STAT_OWNER.i c) 1,
             bias := s.bias.set c { s.bias[c] with goal := g, step := some (s.now + s.biasIntv c), start := false, sine := none } } := by
  rw [moveTo, Bool.true_and, bne_iff_ne.2 away, if_pos rfl, setOwner, State.put_eq, State.setBias]

theorem getBits_code_lt (v : Word) : getBits Fld.BDA_CHc_CODE_CODE v < 2 ^ 14 := by
  exact Nat.mod_lt _ (Nat.two_pow_pos _)

/-- What the stored code leaves, its register file named. -/
theorem biasCoded_frame (s : State) (c : Fin 32) (v : Word) : ∃ l, s.biasCoded c v = { s with resp := { err := false, data := 0 }, regs := l }
    ∧ rfGet l (Fld.BDA_CHc_CODE_CODE.i c) = getBits Fld.BDA_CHc_CODE_CODE v ∧ rfGet l (Fld.BDA_CHc_STAT_CLRD.i c) = 0
    ∧ rfGet l (Fld.BDA_CHc_STAT_OUT.i c) = s.get (Fld.BDA_CHc_STAT_OUT.i c) ∧ rfGet l (Fld.BDA_CHc_CFG_INTV.i c) = s.get (Fld.BDA_CHc_CFG_INTV.i c)
    ∧ RfSame [Reg.BDA_CHc_CODE + 32 * c, Reg.BDA_CHc_STAT + 32 * c] s.regs l :=
  ⟨Machine.biasCoded c v s.regs, rfl, rfGet_biasCoded_code s.regs, rfGet_rfPut_self_i _ _ _ (by decide),
    (rfGet_biasCoded_stat rfl rfl (by decide) s.regs).trans (s.get_eq_rfGet _).symm,
    (rfGet_biasCoded_other rfl (by decide) (by decide) s.regs).trans (s.get_eq_rfGet _).symm, biasCoded_same s.regs⟩

theorem bias_listed {f : Field} (dims : f.dims = [32]) (c : Fin 32) {l : List Nat} (listed : f.reg + 32 * c ∈ l) : (f.i c).reg ∈ l := by
  rw [bias_reg dims]
  exact listed

theorem gives_code_jump (taken : Takes s r (Reg.BDA_CHc_CODE + 32 * c)) (pin : s.get Fld.BDA_CTRL_CLRPIN = 0) (up : 2 ≤ s.hstate (c / 4))
    (free : s.get (Fld.BDA_CHc_STAT_OWNER.i c) = 0) (still : s.get (Fld.BDA_CHc_STAT_SINEWAIT.i c) = 0) (quiet : s.bias[c].sine = none)
    (nocal : s.calOnBias c = false) (slen : s.get (Fld.BDA_CHc_CFG_SLEN.i c) = 0) :
    let n := getBits Fld.BDA_CHc_CODE_CODE v
    Gives (.biasCodeWrite r c v) s fun t => t.get (Fld.BDA_CHc_STAT_OUT.i c) = n ∧ t.get (Fld.BDA_CHc_CODE_CODE.i c) = n
      ∧ t.get (Fld.BDA_CHc_STAT_OWNER.i c) = 0 ∧ t.get (Fld.BDA_CHc_STAT_CLRD.i c) = 0 ∧ t = { s with resp := { err := false, data := 0 }, regs := t.regs, bias := t.bias }
      ∧ SameRegs [Reg.BDA_CHc_CODE + 32 * c, Reg.BDA_CHc_STAT + 32 * c] s t := by
  have ran := exec_biasCodeWrite (v := v) taken pin up free still quiet nocal
  obtain ⟨l, coded, code, clrd, _, _, same⟩ := biasCoded_frame s c v
  rw [State.flag_of_get_zero slen, moveTo_jump, coded] at ran
  have listed {f : Field} (dims : f.dims = [32]) (at_ : f.reg = Reg.BDA_CHc_STAT) : (f.i c).reg ∈ [Reg.BDA_CHc_CODE + 32 * c, Reg.BDA_CHc_STAT + 32 * c] :=
    bias_listed dims c (by rw [at_]; exact List.mem_cons_of_mem _ (List.mem_singleton_self _))
  refine Gives.of_eq ran ⟨?_, ?_, ?_, ?_, rfl, RfSame.sameRegs ((same.put (listed rfl rfl) _).put (listed rfl rfl) _)⟩
  all_goals rw [State.get_eq_rfGet]
  · refine (rfGet_rfPut_i _ _ _ (by decide) (by decide) (by decide)).trans ((rfGet_rfPut_self_i _ _ _ (by decide)).trans ?_)
    exact Nat.mod_eq_of_lt (getBits_code_lt v)
  · exact (rfGet_rfPut_i _ _ _ (by decide) (by decide) (by decide)).trans ((rfGet_rfPut_i _ _ _ (by decide) (by decide) (by decide)).trans code)
  · exact rfGet_rfPut_self_i _ _ _ (by decide)
  · exact (rfGet_rfPut_i _ _ _ (by decide) (by decide) (by decide)).trans ((rfGet_rfPut_i _ _ _ (by decide) (by decide) (by decide)).trans clrd)

theorem gives_code_ramp (taken : Takes s r (Reg.BDA_CHc_CODE + 32 * c)) (pin : s.get Fld.BDA_CTRL_CLRPIN = 0) (up : 2 ≤ s.hstate (c / 4))
    (free : s.get (Fld.BDA_CHc_STAT_OWNER.i c) = 0) (still : s.get (Fld.BDA_CHc_STAT_SINEWAIT.i c) = 0) (quiet : s.bias[c].sine = none)
    (nocal : s.calOnBias c = false) (slen : s.get (Fld.BDA_CHc_CFG_SLEN.i c) = 1) (away : s.get (Fld.BDA_CHc_STAT_OUT.i c) ≠ getBits Fld.BDA_CHc_CODE_CODE v) :
    let n := getBits Fld.BDA_CHc_CODE_CODE v
    Gives (.biasCodeWrite r c v) s fun t =>
      t.get (Fld.BDA_CHc_STAT_OUT.i c) = s.get (Fld.BDA_CHc_STAT_OUT.i c) ∧ t.get (Fld.BDA_CHc_CODE_CODE.i c) = n ∧ t.get (Fld.BDA_CHc_STAT_OWNER.i c) = 1
      ∧ t.bias[c].goal = n ∧ t.bias[c].step = some (s.now + max 1 (min 1000 (s.get (Fld.BDA_CHc_CFG_INTV.i c))) * usU)
      ∧ t = { s with resp := { err := false, data := 0 }, regs := t.regs, bias := t.bias } := by
  have ran := exec_biasCodeWrite (v := v) taken pin up free still quiet nocal
  obtain ⟨l, coded, code, _, out, intv, _⟩ := biasCoded_frame s c v
  have shown : (s.biasCoded c v).get (Fld.BDA_CHc_STAT_OUT.i c) = s.get (Fld.BDA_CHc_STAT_OUT.i c) := by rw [State.get_eq_rfGet, coded, out]
  have pace : (s.biasCoded c v).biasIntv c = max 1 (min 1000 (s.get (Fld.BDA_CHc_CFG_INTV.i c))) * usU := by
    rw [State.biasIntv, State.get_eq_rfGet, coded, intv]
  rw [State.flag_of_get_one slen, moveTo_ramp (shown.trans_ne away), pace, coded] at ran
  refine Gives.of_eq ran ⟨?_, ?_, ?_, ?_, ?_, rfl⟩
  · rw [State.get_eq_rfGet]
    exact (rfGet_rfPut_i _ _ _ (by decide) (by decide) (by decide)).trans out
  · rw [State.get_eq_rfGet]
    exact (rfGet_rfPut_i _ _ _ (by decide) (by decide) (by decide)).trans code
  · rw [State.get_eq_rfGet]
    exact rfGet_rfPut_self_i _ _ _ (by decide)
  · exact congrArg Bias.goal (Vector.getElem_set_self _)
  · exact congrArg Bias.step (Vector.getElem_set_self _)

theorem bias_quiet (c : Fin 32) : raiseTouches (Reg.BDA_CHc_CODE + 32 * c) = false ∧ raiseTouches (Reg.BDA_CHc_STAT + 32 * c) = false
    ∧ Reg.BDA_CHc_CODE + 32 * c ∉ [Reg.SYS_BADACC_CNT, Reg.SYS_BADACC_ADDR, Reg.SYS_BADACC_INFO]
    ∧ Reg.BDA_CHc_STAT + 32 * c ∉ [Reg.SYS_BADACC_CNT, Reg.SYS_BADACC_ADDR, Reg.SYS_BADACC_INFO] := by
  revert c
  decide

theorem biasCfg_quiet (c : Fin 32) : raiseTouches (Reg.BDA_CHc_CFG + 32 * c) = false
    ∧ Reg.BDA_CHc_CFG + 32 * c ∉ [Reg.SYS_BADACC_CNT, Reg.SYS_BADACC_ADDR, Reg.SYS_BADACC_INFO] := by
  revert c
  decide

theorem bias_refuse4 (s : State) (r : Req) (a : Nat) : (s.refuse4 r a).bias = s.bias := by
  obtain ⟨u, notice, refused⟩ := noticeOnly_refuse4 s r a
  rw [refused, notice.eq]
  rfl

/-- BIAS_CLR_L holds every write of CODE off (R391). -/
theorem gives_code_shut (taken : Takes s r (Reg.BDA_CHc_CODE + 32 * c)) (pin : s.get Fld.BDA_CTRL_CLRPIN = 1) (still : s.get (Fld.BDA_CHc_STAT_SINEWAIT.i c) = 0) :
    Gives (.biasCodeWrite r c v) s fun t => t.rd (Reg.BDA_CHc_CODE + 32 * c) = s.rd (Reg.BDA_CHc_CODE + 32 * c)
      ∧ t.rd (Reg.BDA_CHc_STAT + 32 * c) = s.rd (Reg.BDA_CHc_STAT + 32 * c) ∧ t.bias = s.bias := by
  obtain ⟨quietCode, quietStat, otherCode, otherStat⟩ := bias_quiet c
  have ran : exec (.biasCodeWrite r c v) s = .next (s.ok.refuse4 r (Reg.BDA_CHc_CODE + 32 * c)) := by
    refine congrArg Host.Outcome.next ((regCmd_ok taken).trans ?_)
    rw [biasCodeWrite, settleSine_idle (s := s.ok) still, if_pos (by rw [State.biasShut, show s.ok.flag Fld.BDA_CTRL_CLRPIN = true from State.flag_of_get_one pin, Bool.true_or]), biasReg]
  refine Gives.of_eq ran ⟨State.rd_refuse4 _ _ _ quietCode otherCode, State.rd_refuse4 _ _ _ quietStat otherStat, ?_⟩
  exact bias_refuse4 ..

/-! ### A write of CFG (R389) -/

theorem biasOut_quiet (quiet : s.bias[c].sine = none) : s.biasOut c = s.get (Fld.BDA_CHc_STAT_OUT.i c) := by
  rw [State.biasOut, quiet]

theorem exec_biasModeWrite_taken (taken : Takes s r (Reg.BDA_CHc_CFG + 32 * c)) (still : s.get (Fld.BDA_CHc_STAT_SINEWAIT.i c) = 0) (quiet : s.bias[c].sine = none)
    (nocal : s.calOnBias c = false) (clear : s.get (Fld.BDA_CHc_STAT_OUT.i c) = s.get (Fld.BDA_CHc_CLR_CODE.i c)) (free : s.get (Fld.BDA_CHc_STAT_OWNER.i c) = 0) :
    exec (.biasModeWrite r c v) s = .next (s.ok.storeReg r (Reg.BDA_CHc_CFG + 32 * c) v) := by
  refine congrArg Host.Outcome.next ((regCmd_ok taken).trans ?_)
  rw [biasCfgWrite, settleSine_idle (s := s.ok) still]
  split
  · rw [biasReg]
  · rw [if_pos ⟨(biasOut_quiet (s := s.ok) quiet).trans clear, free, by rw [show s.ok.calOnBias c = false from nocal]; rfl⟩, biasReg]

theorem gives_mode_taken (taken : Takes s r (Reg.BDA_CHc_CFG + 32 * c)) (still : s.get (Fld.BDA_CHc_STAT_SINEWAIT.i c) = 0) (quiet : s.bias[c].sine = none)
    (nocal : s.calOnBias c = false) (clear : s.get (Fld.BDA_CHc_STAT_OUT.i c) = s.get (Fld.BDA_CHc_CLR_CODE.i c)) (free : s.get (Fld.BDA_CHc_STAT_OWNER.i c) = 0) :
    Gives (.biasModeWrite r c v) s fun t => t.get (Fld.BDA_CHc_CFG_MODE.i c) = getBits Fld.BDA_CHc_CFG_MODE v
      ∧ t.get (Fld.BDA_CHc_CFG_SLEN.i c) = getBits Fld.BDA_CHc_CFG_SLEN v ∧ t = { s with resp := { err := false, data := 0 }, regs := t.regs }
      ∧ SameRegs [Reg.BDA_CHc_CFG + 32 * c] s t := by
  obtain ⟨_, desc, _⟩ := descOf_bias c
  have ran := exec_biasModeWrite_taken (v := v) taken still quiet nocal clear free
  rw [biasStored desc (by decide)] at ran
  refine Gives.of_eq ran ⟨?_, ?_, rfl, ((RfSame.refl _ s.regs).write (List.mem_singleton_self _) _).sameRegs⟩
  · exact rfGet_biasStored (f := Fld.BDA_CHc_CFG_MODE) rfl rfl (by decide) (by decide) s.regs
  · exact rfGet_biasStored (f := Fld.BDA_CHc_CFG_SLEN) rfl rfl (by decide) (by decide) s.regs

/-- Away from the clear code MODE keeps its value, and the write counts as busy. -/
theorem gives_mode_refused (taken : Takes s r (Reg.BDA_CHc_CFG + 32 * c)) (still : s.get (Fld.BDA_CHc_STAT_SINEWAIT.i c) = 0) (quiet : s.bias[c].sine = none)
    (away : s.get (Fld.BDA_CHc_STAT_OUT.i c) ≠ s.get (Fld.BDA_CHc_CLR_CODE.i c)) (new : getBits Fld.BDA_CHc_CFG_MODE v ≠ s.get (Fld.BDA_CHc_CFG_MODE.i c)) :
    Gives (.biasModeWrite r c v) s fun t => t.get (Fld.BDA_CHc_CFG_MODE.i c) = s.get (Fld.BDA_CHc_CFG_MODE.i c) ∧ t.get (Fld.BDA_CHc_STAT_BUSY.i c) = 1
      ∧ t.bias = s.bias := by
  obtain ⟨_, desc, _⟩ := descOf_bias c
  obtain ⟨quietCfg, otherCfg⟩ := biasCfg_quiet c
  have ran : exec (.biasModeWrite r c v) s = .next (biasRefused r (Reg.BDA_CHc_CFG + 32 * c) c
      ((s.ok.storeReg r (Reg.BDA_CHc_CFG + 32 * c) v).put (Fld.BDA_CHc_CFG_MODE.i c) (s.get (Fld.BDA_CHc_CFG_MODE.i c)))) := by
    refine congrArg Host.Outcome.next ((regCmd_ok taken).trans ?_)
    rw [biasCfgWrite, settleSine_idle (s := s.ok) still, if_neg (show ¬getBits Fld.BDA_CHc_CFG_MODE v = s.ok.get (Fld.BDA_CHc_CFG_MODE.i c) from new),
      if_neg (fun all => away ((biasOut_quiet (s := s.ok) quiet).symm.trans all.1)), biasReg]
    rfl
  rw [biasStored desc (by decide)] at ran
  refine Gives.of_eq ran ⟨?_, ?_, ?_⟩
  · rw [biasRefused, State.get_eq_rfGet, State.put_regs, rfGet_rfPut_i _ _ _ (by decide) (by decide) (by decide), ← State.get_eq_rfGet, State.get_refuse4 _ _ _ (by rw [bias_reg rfl]; exact quietCfg) (by rw [bias_reg rfl]; exact otherCfg),
      State.get_eq_rfGet, State.put_regs, rfGet_rfPut_self_i _ _ _ (by decide)]
    exact Nat.mod_eq_of_lt (s.get_lt (Fld.BDA_CHc_CFG_MODE.i c))
  · rw [biasRefused, State.get_eq_rfGet, State.put_regs, rfGet_rfPut_self_i _ _ _ (by decide)]
    rfl
  · rw [biasRefused, State.put_bias, bias_refuse4, State.put_bias]

/-! ### The slew limiter (R393) -/

variable {t0 : Nat}

/-- The code after one step of the limiter. -/
def slewNext (s : State) (c : Fin 32) : Nat :=
  if s.get (Fld.BDA_CHc_STAT_OUT.i c) < s.bias[c].goal then min s.bias[c].goal (s.get (Fld.BDA_CHc_STAT_OUT.i c) + (s.get (Fld.BDA_CHc_CFG_STEPM1.i c) + 1))
  else max s.bias[c].goal (s.get (Fld.BDA_CHc_STAT_OUT.i c) - (s.get (Fld.BDA_CHc_CFG_STEPM1.i c) + 1))

theorem slewNext_lt (low : s.bias[c].goal < 2 ^ 14) : slewNext s c < 2 ^ 14 := by
  have out : s.get (Fld.BDA_CHc_STAT_OUT.i c) < 2 ^ 14 := s.get_lt (Fld.BDA_CHc_STAT_OUT.i c)
  rw [slewNext]
  split <;> omega

/-- The channel's own data with another instant of its next step. -/
def Bias.paced (x : Bias) (next : Option Nat) : Bias := { x with step := next }

/-- The state after a step of the limiter: the output's code, and the instant of the next step. -/
def State.slewed (s : State) (c : Fin 32) (t0 : Nat) (next : Option Nat) : State :=
  { s with now := max s.now t0, regs := rfPut s.regs (Fld.BDA_CHc_STAT_OUT.i c) (slewNext s c), bias := s.bias.set c (s.bias[c].paced next) }

theorem State.slewed_frame (s : State) (c : Fin 32) (t0 : Nat) (next : Option Nat) (low : s.bias[c].goal < 2 ^ 14) : ∃ l,
    s.slewed c t0 next = { s with now := max s.now t0, regs := l, bias := s.bias.set c (s.bias[c].paced next) }
    ∧ rfGet l (Fld.BDA_CHc_STAT_OUT.i c) = slewNext s c ∧ rfGet l (Fld.BDA_CHc_STAT_OWNER.i c) = s.get (Fld.BDA_CHc_STAT_OWNER.i c)
    ∧ rfGet l (Fld.BDA_CHc_STAT_SINEWAIT.i c) = s.get (Fld.BDA_CHc_STAT_SINEWAIT.i c) ∧ RfSame [Reg.BDA_CHc_STAT + 32 * c] s.regs l :=
  ⟨_, rfl, (rfGet_rfPut_self_i _ _ _ (by decide)).trans (Nat.mod_eq_of_lt (slewNext_lt low)),
    (rfGet_rfPut_i _ _ _ (by decide) (by decide) (by decide)).trans (s.get_eq_rfGet _).symm,
    (rfGet_rfPut_i _ _ _ (by decide) (by decide) (by decide)).trans (s.get_eq_rfGet _).symm,
    (RfSame.refl _ s.regs).put (f := Fld.BDA_CHc_STAT_OUT.i c) (bias_listed (f := Fld.BDA_CHc_STAT_OUT) rfl c (List.mem_singleton_self _)) _⟩

theorem sineArrived_still (still : s.get (Fld.BDA_CHc_STAT_SINEWAIT.i c) = 0) : s.sineArrived c = none := by
  rw [State.sineArrived, State.flag_of_get_zero still]
  rfl

theorem biasIntv_put (s : State) (c : Fin 32) (v : Nat) : (s.put (Fld.BDA_CHc_STAT_OUT.i c) v).biasIntv c = s.biasIntv c := by
  rw [State.biasIntv, State.biasIntv, State.get, State.rd_put_ne _ _ (by rw [bias_reg rfl, bias_reg rfl]; simp [Fld.BDA_CHc_CFG_INTV, Fld.BDA_CHc_STAT_OUT]), State.get]

/-- The end of a step at `t`, the output moved already: on towards the target, or a waiting sine's arrival, or the ramp's end. -/
def slewEnd (c : Fin 32) (t goal next : Nat) (u : State) : State :=
  if next ≠ goal then u.setBias c (u.bias[c].paced (some (t + u.biasIntv c)))
  else if u.bias[c].start then u.setBias c (u.bias[c].paced (some t))
  else
    let u := u.setBias c (u.bias[c].paced none)
    let u := if u.biasOwner c = 1 then setOwner c 0 u else u
    if u.flag (Fld.BDA_CHc_STAT_SINEWAIT.i c) then toOffset c u else u

theorem exec_biasSlewStep (due : s.bias[c].step = some t0) (still : s.get (Fld.BDA_CHc_STAT_SINEWAIT.i c) = 0) :
    exec (.biasSlewStep c) s = .next (slewEnd c t0 s.bias[c].goal (slewNext s c) ((s.at t0).put (Fld.BDA_CHc_STAT_OUT.i c) (slewNext s c))) := by
  show execBiasSlewStep c s = _
  rw [execBiasSlewStep, due]
  dsimp only
  rw [sineArrived_still still, Option.isSome_none, if_neg Bool.false_ne_true, slewEnd, slewNext]
  rfl

theorem slewed_eq (next : Option Nat) : State.setBias ((s.at t0).put (Fld.BDA_CHc_STAT_OUT.i c) (slewNext s c)) c (s.bias[c].paced next) = s.slewed c t0 next := by
  rw [State.setBias, State.put_eq, State.slewed, State.at]

theorem gives_slew_further (due : s.bias[c].step = some t0) (still : s.get (Fld.BDA_CHc_STAT_SINEWAIT.i c) = 0) (low : s.bias[c].goal < 2 ^ 14)
    (further : slewNext s c ≠ s.bias[c].goal) : Gives (.biasSlewStep c) s fun t => t.get (Fld.BDA_CHc_STAT_OUT.i c) = slewNext s c
      ∧ t.bias[c].step = some (t0 + max 1 (min 1000 (s.get (Fld.BDA_CHc_CFG_INTV.i c))) * usU) ∧ t.get (Fld.BDA_CHc_STAT_OWNER.i c) = s.get (Fld.BDA_CHc_STAT_OWNER.i c)
      ∧ t = { s with now := max s.now t0, regs := t.regs, bias := t.bias } ∧ SameRegs [Reg.BDA_CHc_STAT + 32 * c] s t := by
  have ran := exec_biasSlewStep due still
  obtain ⟨l, slewed, out, owner, _, same⟩ := s.slewed_frame c t0 (some (t0 + s.biasIntv c)) low
  rw [slewEnd, if_pos further, biasIntv_put, State.put_bias, show (s.at t0).biasIntv c = s.biasIntv c from rfl, show (s.at t0).bias = s.bias from rfl, slewed_eq, slewed] at ran
  refine Gives.of_eq ran ⟨?_, congrArg Bias.step (Vector.getElem_set_self _), ?_, rfl, RfSame.sameRegs same⟩
  · rw [State.get_eq_rfGet, out]
  · rw [State.get_eq_rfGet, owner]

theorem gives_slew_there (due : s.bias[c].step = some t0) (still : s.get (Fld.BDA_CHc_STAT_SINEWAIT.i c) = 0) (alone : s.bias[c].start = false)
    (low : s.bias[c].goal < 2 ^ 14) (there : slewNext s c = s.bias[c].goal) : Gives (.biasSlewStep c) s fun t => t.get (Fld.BDA_CHc_STAT_OUT.i c) = s.bias[c].goal
      ∧ t.bias[c].step = none ∧ (s.get (Fld.BDA_CHc_STAT_OWNER.i c) = 1 → t.get (Fld.BDA_CHc_STAT_OWNER.i c) = 0)
      ∧ t = { s with now := max s.now t0, regs := t.regs, bias := t.bias } ∧ SameRegs [Reg.BDA_CHc_STAT + 32 * c] s t := by
  have ran := exec_biasSlewStep due still
  obtain ⟨l, slewed, out, owner, wait, same⟩ := s.slewed_frame c t0 none low
  have free : ∀ v, ({ s with now := max s.now t0, regs := rfPut l (Fld.BDA_CHc_STAT_OWNER.i c) v, bias := s.bias.set c (s.bias[c].paced none) } : State).flag (Fld.BDA_CHc_STAT_SINEWAIT.i c) = false :=
    fun v => State.flag_of_get_zero (by rw [State.get_eq_rfGet]; exact (rfGet_rfPut_i _ _ _ (by decide) (by decide) (by decide)).trans (wait.trans still))
  have kept : ({ s with now := max s.now t0, regs := l, bias := s.bias.set c (s.bias[c].paced none) } : State).flag (Fld.BDA_CHc_STAT_SINEWAIT.i c) = false :=
    State.flag_of_get_zero (by rw [State.get_eq_rfGet]; exact wait.trans still)
  rw [slewEnd, if_neg (fun ne => ne there), State.put_bias, show (s.at t0).bias = s.bias from rfl, alone, if_neg Bool.false_ne_true, slewed_eq, slewed] at ran
  dsimp only at ran
  have owned : ({ s with now := max s.now t0, regs := l, bias := s.bias.set c (s.bias[c].paced none) } : State).biasOwner c = s.get (Fld.BDA_CHc_STAT_OWNER.i c) := by
    rw [State.biasOwner, State.get_eq_rfGet]
    exact owner
  rw [owned] at ran
  by_cases own : s.get (Fld.BDA_CHc_STAT_OWNER.i c) = 1
  · rw [if_pos own, setOwner, State.put_eq, free, if_neg Bool.false_ne_true] at ran
    refine Gives.of_eq ran ⟨?_, congrArg Bias.step (Vector.getElem_set_self _), fun _ => ?_, rfl, RfSame.sameRegs (same.put (bias_listed (f := Fld.BDA_CHc_STAT_OWNER) rfl c (List.mem_singleton_self _)) _)⟩
    · rw [State.get_eq_rfGet]
      exact (rfGet_rfPut_i _ _ _ (by decide) (by decide) (by decide)).trans (out.trans there)
    · rw [State.get_eq_rfGet]
      exact rfGet_rfPut_self_i _ _ _ (by decide)
  · rw [if_neg own, kept, if_neg Bool.false_ne_true] at ran
    refine Gives.of_eq ran ⟨?_, congrArg Bias.step (Vector.getElem_set_self _), fun one => absurd one own, rfl, RfSame.sameRegs same⟩
    rw [State.get_eq_rfGet]
    exact out.trans there

end

/-! ### A forced clear (R391) -/

section
variable {s t : State} {c : Fin 32}

/-- The registers of the channel after the clear. -/
def biasCleared (c : Fin 32) (clr : Nat) (l : RegFile) : RegFile :=
  rfPut (rfPut (rfPut (rfPut (rfPut l (Fld.BDA_CHc_STAT_OUT.i c) clr) (Fld.BDA_CHc_SINE_EN.i c) 0) (Fld.BDA_CHc_STAT_SINEWAIT.i c) 0) (Fld.BDA_CHc_STAT_OWNER.i c) 0)
    (Fld.BDA_CHc_STAT_CLRD.i c) 1

/-- What a cleared channel shows. -/
structure ClearedAt (clr : Nat) (c : Fin 32) (t : State) : Prop where
  out : t.get (Fld.BDA_CHc_STAT_OUT.i c) = clr
  clrd : t.get (Fld.BDA_CHc_STAT_CLRD.i c) = 1
  owner : t.get (Fld.BDA_CHc_STAT_OWNER.i c) = 0
  en : t.get (Fld.BDA_CHc_SINE_EN.i c) = 0
  sine : t.bias[c].sine = none

/-- The samples up to now change SAT and the channel's own data. -/
theorem foldSine_frame (c : Fin 32) (s : State) : ∃ l x, foldSine c s = { s with regs := l, bias := s.bias.set c x } ∧ RfSame [Reg.BDA_CHc_STAT + 32 * c] s.regs l := by
  rw [foldSine]
  split
  · exact ⟨s.regs, s.bias[c], by rw [Fin.getElem_fin, Vector.set_getElem_self], .refl _ _⟩
  next x _ =>
    dsimp only
    split
    · exact ⟨_, _, by rw [State.setBias, State.put_eq], (RfSame.refl _ s.regs).put (f := Fld.BDA_CHc_STAT_SAT.i c) (bias_listed (f := Fld.BDA_CHc_STAT_SAT) rfl c (List.mem_singleton_self _)) _⟩
    · exact ⟨s.regs, _, by rw [State.setBias], .refl _ _⟩

theorem clr_unlisted (c : Fin 32) : (Fld.BDA_CHc_CLR_CODE.i c).reg ∉ [Reg.BDA_CHc_STAT + 32 * c, Reg.TIM_VCXO] := by
  revert c
  decide

theorem forceClear_frame (s : State) (c : Fin 32) : ∃ l x, forceClear s c = { s with regs := biasCleared c (s.get (Fld.BDA_CHc_CLR_CODE.i c)) l, bias := s.bias.set c x }
    ∧ x.sine = none ∧ RfSame [Reg.BDA_CHc_STAT + 32 * c, Reg.TIM_VCXO] s.regs l := by
  obtain ⟨l, x, folded, same⟩ := foldSine_frame c s
  have clear (m : RegFile) (other : RfSame [Reg.BDA_CHc_STAT + 32 * c, Reg.TIM_VCXO] s.regs m) : rfGet m (Fld.BDA_CHc_CLR_CODE.i c) = s.get (Fld.BDA_CHc_CLR_CODE.i c) := by
    rw [State.get_eq_rfGet, rfGet, rfGet, other _ (clr_unlisted c)]
  have wide : RfSame [Reg.BDA_CHc_STAT + 32 * c, Reg.TIM_VCXO] s.regs l := fun a other => same a fun listed => other (List.mem_cons.2 (.inl (List.mem_singleton.1 listed)))
  have finish (m : RegFile) (other : RfSame [Reg.BDA_CHc_STAT + 32 * c, Reg.TIM_VCXO] s.regs m) (u : State) (is : u = { s with regs := m, bias := s.bias.set c x }) :
      (setOwner c 0 ((((u.put (Fld.BDA_CHc_STAT_OUT.i c) (u.get (Fld.BDA_CHc_CLR_CODE.i c))).put (Fld.BDA_CHc_SINE_EN.i c) 0).put (Fld.BDA_CHc_STAT_SINEWAIT.i c) 0).setBias c
        ⟨u.get (Fld.BDA_CHc_CLR_CODE.i c), none, false, none⟩)).put (Fld.BDA_CHc_STAT_CLRD.i c) 1 =
      { s with regs := biasCleared c (s.get (Fld.BDA_CHc_CLR_CODE.i c)) m, bias := s.bias.set c ⟨s.get (Fld.BDA_CHc_CLR_CODE.i c), none, false, none⟩ } := by
    have code : u.get (Fld.BDA_CHc_CLR_CODE.i c) = s.get (Fld.BDA_CHc_CLR_CODE.i c) := by
      rw [is, State.get_eq_rfGet]
      exact clear m other
    rw [code, is]
    simp -implicitDefEqProofs only [setOwner, State.setBias, State.put_eq, Vector.set_set, biasCleared]
  rw [forceClear, folded]
  split
  · exact ⟨_, _, finish (rfPut l Fld.TIM_VCXO_EN 0) (wide.put (List.mem_cons_of_mem _ (List.mem_singleton_self _)) 0) _ (State.put_eq ..), rfl,
      wide.put (List.mem_cons_of_mem _ (List.mem_singleton_self _)) 0⟩
  · exact ⟨l, _, finish l wide _ rfl, rfl, wide⟩


/-- The registers that a forced clear of a channel writes. -/
def clearRegs (c : Fin 32) : List Nat := [Reg.BDA_CHc_STAT + 32 * c, Reg.BDA_CHc_SINE + 32 * c, Reg.TIM_VCXO]

theorem unlisted_clearRegs (c d : Fin 32) : Reg.BDA_CTRL ∉ clearRegs d ∧ (Fld.BDA_CHc_CLR_CODE.i c).reg ∉ clearRegs d
    ∧ (c ≠ d → Reg.BDA_CHc_STAT + 32 * c.val ∉ clearRegs d ∧ Reg.BDA_CHc_SINE + 32 * c.val ∉ clearRegs d) := by
  revert c d
  decide +kernel

theorem biasCleared_same {clr : Nat} {l r : RegFile} (same : RfSame [Reg.BDA_CHc_STAT + 32 * c, Reg.TIM_VCXO] r l) : RfSame (clearRegs c) r (biasCleared c clr l) := by
  have wide : RfSame (clearRegs c) r l := fun a other => same a fun listed => other (by
    rw [clearRegs]
    rcases List.mem_cons.1 listed with at_ | at_
    · exact List.mem_cons.2 (.inl at_)
    · exact List.mem_cons_of_mem _ (List.mem_cons_of_mem _ at_))
  have stat {f : Field} (dims : f.dims = [32]) (at_ : f.reg = Reg.BDA_CHc_STAT) : (f.i c).reg ∈ clearRegs c := bias_listed dims c (by rw [at_]; exact List.mem_cons_self ..)
  have sine : (Fld.BDA_CHc_SINE_EN.i c).reg ∈ clearRegs c := bias_listed rfl c (List.mem_cons_of_mem _ (List.mem_cons_self ..))
  exact ((((wide.put (stat rfl rfl) _).put sine _).put (stat rfl rfl) _).put (stat rfl rfl) _).put (stat rfl rfl) _

/-- What clearing any channels keeps. -/
structure Clearing (s t : State) : Prop where
  now : t.now = s.now
  mem : t.mem = s.mem
  pin : t.get Fld.BDA_CTRL_CLRPIN = s.get Fld.BDA_CTRL_CLRPIN
  code : ∀ c : Fin 32, t.get (Fld.BDA_CHc_CLR_CODE.i c) = s.get (Fld.BDA_CHc_CLR_CODE.i c)

theorem clearing_forceClear (s : State) (d : Fin 32) : Clearing s (forceClear s d) := by
  obtain ⟨l, x, cleared, _, same⟩ := forceClear_frame s d
  have all : SameRegs (clearRegs d) s (forceClear s d) := by
    rw [cleared]
    exact RfSame.sameRegs (biasCleared_same same)
  refine ⟨?_, ?_, all.get (unlisted_clearRegs d d).1, fun c => all.get (unlisted_clearRegs c d).2.1⟩
  · rw [cleared]
  · rw [cleared]

theorem clearedAt_forceClear_self (s : State) (c : Fin 32) : ClearedAt (s.get (Fld.BDA_CHc_CLR_CODE.i c)) c (forceClear s c) := by
  obtain ⟨l, x, cleared, silent, _⟩ := forceClear_frame s c
  have low : s.get (Fld.BDA_CHc_CLR_CODE.i c) < 2 ^ 14 := s.get_lt (Fld.BDA_CHc_CLR_CODE.i c)
  rw [cleared]
  refine ⟨?_, ?_, ?_, ?_, ?_⟩
  · rw [State.get_eq_rfGet]
    dsimp only
    rw [biasCleared, rfGet_rfPut_i _ _ _ (by decide) (by decide) (by decide), rfGet_rfPut_i _ _ _ (by decide) (by decide) (by decide),
      rfGet_rfPut_i _ _ _ (by decide) (by decide) (by decide), rfGet_rfPut_i _ _ _ (by decide) (by decide) (by decide), rfGet_rfPut_self_i _ _ _ (by decide)]
    exact Nat.mod_eq_of_lt low
  · exact rfGet_rfPut_self_i _ _ _ (by decide)
  · exact (rfGet_rfPut_i _ _ _ (by decide) (by decide) (by decide)).trans (rfGet_rfPut_self_i _ _ _ (by decide))
  · rw [State.get_eq_rfGet]
    dsimp only
    rw [biasCleared, rfGet_rfPut_i _ _ _ (by decide) (by decide) (by decide), rfGet_rfPut_i _ _ _ (by decide) (by decide) (by decide),
      rfGet_rfPut_i _ _ _ (by decide) (by decide) (by decide), rfGet_rfPut_self_i _ _ _ (by decide)]
    rfl
  · exact (congrArg Bias.sine (Vector.getElem_set_self _)).trans silent

theorem ClearedAt.forceClear {clr : Nat} (at_ : ClearedAt clr c s) (code : s.get (Fld.BDA_CHc_CLR_CODE.i c) = clr) (d : Fin 32) : ClearedAt clr c (forceClear s d) := by
  by_cases same : c = d
  · rw [← same, ← code]
    exact clearedAt_forceClear_self s c
  · obtain ⟨l, x, cleared, _, kept⟩ := forceClear_frame s d
    obtain ⟨stat, sine⟩ := (unlisted_clearRegs c d).2.2 same
    have all : SameRegs (clearRegs d) s (Machine.forceClear s d) := by
      rw [cleared]
      exact RfSame.sameRegs (biasCleared_same kept)
    refine ⟨?_, ?_, ?_, ?_, ?_⟩
    · exact (all.get (by rw [bias_reg rfl]; exact stat)).trans at_.out
    · exact (all.get (by rw [bias_reg rfl]; exact stat)).trans at_.clrd
    · exact (all.get (by rw [bias_reg rfl]; exact stat)).trans at_.owner
    · exact (all.get (by rw [bias_reg rfl]; exact sine)).trans at_.en
    · rw [cleared]
      refine (congrArg Bias.sine ?_).trans at_.sine
      exact Vector.getElem_set_ne d.isLt c.isLt (fun e => same (Fin.ext e.symm))

/-- Clearing a list of channels one after another. -/
theorem foldl_forceClear (l : List (Fin 32)) (s : State) : Clearing s (l.foldl forceClear s)
    ∧ (∀ c : Fin 32, ClearedAt (s.get (Fld.BDA_CHc_CLR_CODE.i c)) c s ∨ c ∈ l → ClearedAt (s.get (Fld.BDA_CHc_CLR_CODE.i c)) c (l.foldl forceClear s)) := by
  induction l generalizing s with
  | nil => exact ⟨⟨rfl, rfl, rfl, fun _ => rfl⟩, fun c done => done.resolve_right List.not_mem_nil⟩
  | cons d l ih =>
    have first := clearing_forceClear s d
    obtain ⟨rest, each⟩ := ih (forceClear s d)
    refine ⟨⟨rest.now.trans first.now, rest.mem.trans first.mem, rest.pin.trans first.pin, fun c => (rest.code c).trans (first.code c)⟩, fun c done => ?_⟩
    rw [List.foldl_cons, ← first.code c]
    refine each c ?_
    rw [first.code c]
    rcases done with already | listed
    · exact .inl (already.forceClear rfl d)
    · rcases List.mem_cons.1 listed with rfl | later
      · exact .inl (clearedAt_forceClear_self s c)
      · exact .inr later

theorem gives_clrAssert (s : State) (t0 : Nat) : Gives (.biasClrAssert t0) s fun t => t.get Fld.BDA_CTRL_CLRPIN = 1 ∧ t.now = max s.now t0 ∧ t.mem = s.mem
      ∧ (∀ c : Fin 32, t.get (Fld.BDA_CHc_STAT_OUT.i c) = s.get (Fld.BDA_CHc_CLR_CODE.i c) ∧ t.get (Fld.BDA_CHc_STAT_CLRD.i c) = 1
        ∧ t.get (Fld.BDA_CHc_STAT_OWNER.i c) = 0 ∧ t.get (Fld.BDA_CHc_SINE_EN.i c) = 0 ∧ t.bias[c].sine = none) := by
  obtain ⟨kept, each⟩ := foldl_forceClear (List.finRange 32) ((s.at t0).put Fld.BDA_CTRL_CLRPIN 1)
  refine Gives.of_eq (t := clearAllBias ((s.at t0).put Fld.BDA_CTRL_CLRPIN 1)) rfl ⟨kept.pin.trans ?_, kept.now.trans rfl, kept.mem.trans rfl, fun c => ?_⟩
  · rw [State.get_eq_rfGet, State.put_regs, rfGet_rfPut_self _ _ (by decide)]
    rfl
  · obtain ⟨out, clrd, owner, en, sine⟩ := each c (.inr (List.mem_finRange c))
    refine ⟨out.trans ?_, clrd, owner, en, sine⟩
    rw [State.get, State.rd_put_ne _ _ (by rw [bias_reg rfl]; simp [Fld.BDA_CHc_CLR_CODE, Fld.BDA_CTRL_CLRPIN]; omega)]
    rfl

end

/-- Settles O35. -/
theorem biasCodes : Obligations.BiasCodes := by
  unfold Obligations.BiasCodes
  refine ⟨fun s r c v taken pin up free still quiet nocal => ⟨fun slen => gives_code_jump taken pin up free still quiet nocal slen,
      fun slen away => gives_code_ramp taken pin up free still quiet nocal slen away⟩,
    fun s r c v taken pin still => gives_code_shut taken pin still,
    fun s r c v taken still quiet nocal clear free => gives_mode_taken taken still quiet nocal clear free,
    fun s r c v taken still quiet away new => gives_mode_refused taken still quiet away new,
    fun s c t0 due still alone low => ⟨fun further => gives_slew_further due still low further, fun there => gives_slew_there due still alone low there⟩,
    gives_clrAssert, fun s t0 => rfl⟩

end Sys2Proof.Machine
end

section
/-!
PROOFS. The sine generator of a bias channel and the servo's claim (R222, R394, R395).
-/

namespace Sys2Proof.Machine

section
variable {s : State} {r : Req} {c : Fin 32} {v : Word} {t0 : Nat}

theorem RfSame.get {l : List Nat} {r u : RegFile} (same : RfSame l r u) {f : Field} (other : f.reg ∉ l) : rfGet u f = rfGet r f := by
  rw [rfGet, rfGet, same _ other]

/-- The registers of a channel that its sine's commands write. -/
def sineRegs (c : Fin 32) : List Nat := [Reg.BDA_CHc_SINE + 32 * c, Reg.BDA_CHc_STAT + 32 * c]

theorem stat_sineRegs {f : Field} (dims : f.dims = [32]) (at_ : f.reg = Reg.BDA_CHc_STAT) (c : Fin 32) : (f.i c).reg ∈ sineRegs c :=
  bias_listed dims c (by rw [at_]; exact List.mem_cons_of_mem _ (List.mem_singleton_self _))

theorem bias_unlisted {f : Field} {a : Nat} (dims : f.dims = [32]) (other : f.reg ≠ a) (c : Fin 32) : (f.i c).reg ∉ [a + 32 * c.val] := by
  rw [bias_reg dims, List.mem_singleton]
  omega

/-- A write of a channel's sine register, the register file named. -/
theorem sineStored_frame (s : State) (r : Req) (c : Fin 32) (w : Word) : ∃ l, s.ok.storeReg r (Reg.BDA_CHc_SINE + 32 * c) w = { s with resp := { err := false, data := 0 }, regs := l }
    ∧ rfGet l (Fld.BDA_CHc_SINE_EN.i c) = getBits Fld.BDA_CHc_SINE_EN w ∧ rfGet l (Fld.BDA_CHc_SINE_FTW.i c) = getBits Fld.BDA_CHc_SINE_FTW w
    ∧ RfSame [Reg.BDA_CHc_SINE + 32 * c] s.regs l := by
  obtain ⟨_, _, desc⟩ := descOf_bias c
  exact ⟨_, biasStored desc (by decide) r w s, rfGet_biasStored (f := Fld.BDA_CHc_SINE_EN) rfl rfl (by decide) (by decide) s.regs,
    rfGet_biasStored (f := Fld.BDA_CHc_SINE_FTW) rfl rfl (by decide) (by decide) s.regs, (RfSame.refl _ s.regs).write (List.mem_singleton_self _) _⟩

theorem settleSine_none (none : s.sineArrived c = none) : settleSine c s = s := by rw [settleSine, none]

/-! ### EN is set (R395) -/

theorem getLsbD_enable (v : Word) : (v ||| 0x80000000#32).getLsbD 31 = true := by
  rw [BitVec.getLsbD_or, show (0x80000000#32).getLsbD 31 = true from by decide, Bool.or_true]

theorem getBits_enable (v : Word) : getBits Fld.BDA_CHc_SINE_EN (v ||| 0x80000000#32) = 1 := by
  rw [getBits_of_width_one rfl]
  exact congrArg Bool.toNat (getLsbD_enable v)

theorem getBits_enable_ftw (v : Word) : getBits Fld.BDA_CHc_SINE_FTW (v ||| 0x80000000#32) = getBits Fld.BDA_CHc_SINE_FTW v := by
  have high : ∀ j < 19, (0x80000000#32).getLsbD (0 + j) = false := by decide
  refine getBits_congr fun j small => ?_
  rw [BitVec.getLsbD_or, show (0x80000000#32).getLsbD (Fld.BDA_CHc_SINE_FTW.lo + j) = false from high j small, Bool.or_false]

/-- EN set on a channel that is free: the word is stored and the sine waits for OFFSET. -/
theorem exec_biasSineEnable {l : RegFile} (taken : Takes s r (Reg.BDA_CHc_SINE + 32 * c)) (pin : s.get Fld.BDA_CTRL_CLRPIN = 0) (up : 2 ≤ s.hstate (c / 4))
    (free : s.get (Fld.BDA_CHc_STAT_OWNER.i c) = 0) (still : s.get (Fld.BDA_CHc_STAT_SINEWAIT.i c) = 0) (quiet : s.bias[c].sine = none) (nocal : s.calOnBias c = false)
    (off : s.get (Fld.BDA_CHc_SINE_EN.i c) = 0)
    (stored : s.ok.storeReg r (Reg.BDA_CHc_SINE + 32 * c) (v ||| 0x80000000#32) = { s with resp := { err := false, data := 0 }, regs := l })
    (same : RfSame [Reg.BDA_CHc_SINE + 32 * c] s.regs l) :
    exec (.biasSineEnable r c v) s = .next (toOffset c { s with resp := { err := false, data := 0 }, regs := rfPut l (Fld.BDA_CHc_STAT_SINEWAIT.i c) 1 }) := by
  have owner : State.biasOwner { s with resp := { err := false, data := 0 }, regs := rfPut l (Fld.BDA_CHc_STAT_SINEWAIT.i c) 1 } c = 0 := by
    rw [State.biasOwner, State.get_eq_rfGet]
    refine (rfGet_rfPut_i _ _ _ (by decide) (by decide) (by decide)).trans ((same.get (bias_unlisted rfl (by decide) c)).trans ?_)
    rw [← State.get_eq_rfGet, free]
  refine congrArg Host.Outcome.next ((regCmd_ok taken).trans ?_)
  rw [biasSineWrite, settleSine_idle (s := s.ok) still]
  dsimp only
  rw [getLsbD_enable, show s.ok.flag (Fld.BDA_CHc_SINE_EN.i c) = false from State.flag_of_get_zero off, biasShut_open (s := s.ok) pin up, Bool.and_false, if_neg Bool.false_ne_true,
    show s.ok.calOnBias c = false from nocal, State.biasOwner, show s.ok.get (Fld.BDA_CHc_STAT_OWNER.i c) = 0 from free, if_neg (by decide), if_neg (by decide), if_pos rfl, biasReg,
    stored, retuneSine]
  dsimp only
  rw [quiet]
  dsimp only
  rw [sineOn, show ({ s with resp := { err := false, data := 0 }, regs := l } : State).bias[c].sine = none from quiet]
  dsimp only
  rw [State.put_eq, owner, if_neg (by decide)]

theorem sineRegs_of_stored {l : RegFile} (same : RfSame [Reg.BDA_CHc_SINE + 32 * c] s.regs l) : RfSame (sineRegs c) s.regs l :=
  fun a other => same a fun listed => other (List.mem_cons.2 (.inl (List.mem_singleton.1 listed)))

/-- What a channel holds once its waiting sine has moved it to OFFSET at `t`. -/
def Bias.offset (x : Bias) (off t : Nat) : Bias := { x with goal := off, step := some t, start := true }

theorem gives_sineEnable (taken : Takes s r (Reg.BDA_CHc_SINE + 32 * c)) (pin : s.get Fld.BDA_CTRL_CLRPIN = 0) (up : 2 ≤ s.hstate (c / 4))
    (free : s.get (Fld.BDA_CHc_STAT_OWNER.i c) = 0) (still : s.get (Fld.BDA_CHc_STAT_SINEWAIT.i c) = 0) (quiet : s.bias[c].sine = none) (nocal : s.calOnBias c = false)
    (off : s.get (Fld.BDA_CHc_SINE_EN.i c) = 0) (slen : s.get (Fld.BDA_CHc_CFG_SLEN.i c) = 0) (clrd : s.get (Fld.BDA_CHc_STAT_CLRD.i c) = 0) :
    Gives (.biasSineEnable r c v) s fun t => t.get (Fld.BDA_CHc_SINE_EN.i c) = 1 ∧ t.get (Fld.BDA_CHc_SINE_FTW.i c) = getBits Fld.BDA_CHc_SINE_FTW v
      ∧ t.get (Fld.BDA_CHc_STAT_SINEWAIT.i c) = 1 ∧ t.get (Fld.BDA_CHc_STAT_OUT.i c) = s.get (Fld.BDA_CHc_SAMP_OFFSET.i c) ∧ t.bias[c].start = true
      ∧ t.bias[c].step = some s.now ∧ t = { s with resp := { err := false, data := 0 }, regs := t.regs, bias := t.bias }
      ∧ SameRegs [Reg.BDA_CHc_SINE + 32 * c, Reg.BDA_CHc_STAT + 32 * c] s t := by
  obtain ⟨l, stored, en, ftw, same⟩ := sineStored_frame s r c (v ||| 0x80000000#32)
  have low : s.get (Fld.BDA_CHc_SAMP_OFFSET.i c) < 2 ^ 14 := s.get_lt (Fld.BDA_CHc_SAMP_OFFSET.i c)
  have waiting {f : Field} (dims : f.dims = [32]) (other : f.reg ≠ Reg.BDA_CHc_SINE) (apart : Fld.BDA_CHc_STAT_SINEWAIT.apart f = true) :
      State.get { s with resp := { err := false, data := 0 }, regs := rfPut l (Fld.BDA_CHc_STAT_SINEWAIT.i c) 1 } (f.i c) = s.get (f.i c) := by
    rw [State.get_eq_rfGet, State.get_eq_rfGet]
    exact (rfGet_rfPut_i _ _ _ (by decide) (by rw [dims]; rfl) apart).trans (same.get (bias_unlisted dims other c))
  have ran := exec_biasSineEnable taken pin up free still quiet nocal off stored same
  rw [toOffset, State.flag_of_get_zero ((waiting rfl (by decide) (by decide)).trans clrd), if_neg Bool.false_ne_true,
    State.flag_of_get_zero ((waiting rfl (by decide) (by decide)).trans slen), Bool.false_and, if_neg Bool.false_ne_true,
    waiting (f := Fld.BDA_CHc_SAMP_OFFSET) rfl (by decide) (by decide), State.put_eq, State.setBias] at ran
  have kept {f : Field} (dims : f.dims = [32]) (out : Fld.BDA_CHc_STAT_OUT.apart f = true) (wait : Fld.BDA_CHc_STAT_SINEWAIT.apart f = true) (n : Nat) :
      rfGet (rfPut (rfPut l (Fld.BDA_CHc_STAT_SINEWAIT.i c) 1) (Fld.BDA_CHc_STAT_OUT.i c) n) (f.i c) = rfGet l (f.i c) :=
    (rfGet_rfPut_i _ _ _ (by decide) (by rw [dims]; rfl) out).trans (rfGet_rfPut_i _ _ _ (by decide) (by rw [dims]; rfl) wait)
  obtain ⟨m, is, enM, ftwM, waitM, outM, sameM⟩ : ∃ m, rfPut (rfPut l (Fld.BDA_CHc_STAT_SINEWAIT.i c) 1) (Fld.BDA_CHc_STAT_OUT.i c) (s.get (Fld.BDA_CHc_SAMP_OFFSET.i c)) = m
      ∧ rfGet m (Fld.BDA_CHc_SINE_EN.i c) = 1 ∧ rfGet m (Fld.BDA_CHc_SINE_FTW.i c) = getBits Fld.BDA_CHc_SINE_FTW v
      ∧ rfGet m (Fld.BDA_CHc_STAT_SINEWAIT.i c) = 1 ∧ rfGet m (Fld.BDA_CHc_STAT_OUT.i c) = s.get (Fld.BDA_CHc_SAMP_OFFSET.i c) ∧ RfSame (sineRegs c) s.regs m :=
    ⟨_, rfl, (kept rfl (by decide) (by decide) _).trans (en.trans (getBits_enable v)), (kept rfl (by decide) (by decide) _).trans (ftw.trans (getBits_enable_ftw v)),
      (rfGet_rfPut_i _ _ _ (by decide) (by decide) (by decide)).trans (rfGet_rfPut_self_i _ _ _ (by decide)),
      (rfGet_rfPut_self_i _ _ _ (by decide)).trans (Nat.mod_eq_of_lt low),
      ((sineRegs_of_stored same).put (stat_sineRegs rfl rfl c) _).put (stat_sineRegs rfl rfl c) _⟩
  rw [is] at ran
  refine Gives.of_eq ran ⟨?_, ?_, ?_, ?_, congrArg Bias.start (Vector.getElem_set_self _), congrArg Bias.step (Vector.getElem_set_self _), rfl, RfSame.sameRegs sameM⟩
  all_goals rw [State.get_eq_rfGet]
  · exact enM
  · exact ftwM
  · exact waitM
  · exact outM

/-- A channel forced to its clear code stays there (R391). -/
theorem gives_sineEnable_cleared (taken : Takes s r (Reg.BDA_CHc_SINE + 32 * c)) (pin : s.get Fld.BDA_CTRL_CLRPIN = 0) (up : 2 ≤ s.hstate (c / 4))
    (free : s.get (Fld.BDA_CHc_STAT_OWNER.i c) = 0) (still : s.get (Fld.BDA_CHc_STAT_SINEWAIT.i c) = 0) (quiet : s.bias[c].sine = none) (nocal : s.calOnBias c = false)
    (off : s.get (Fld.BDA_CHc_SINE_EN.i c) = 0) (clrd : s.get (Fld.BDA_CHc_STAT_CLRD.i c) = 1) :
    Gives (.biasSineEnable r c v) s fun t => t.get (Fld.BDA_CHc_STAT_OUT.i c) = s.get (Fld.BDA_CHc_STAT_OUT.i c) ∧ t.get (Fld.BDA_CHc_STAT_SINEWAIT.i c) = 1
      ∧ t.get (Fld.BDA_CHc_STAT_CLRD.i c) = 1 ∧ t = { s with resp := { err := false, data := 0 }, regs := t.regs } := by
  obtain ⟨l, stored, _, _, same⟩ := sineStored_frame s r c (v ||| 0x80000000#32)
  have waiting {f : Field} (dims : f.dims = [32]) (other : f.reg ≠ Reg.BDA_CHc_SINE) (apart : Fld.BDA_CHc_STAT_SINEWAIT.apart f = true) :
      State.get { s with resp := { err := false, data := 0 }, regs := rfPut l (Fld.BDA_CHc_STAT_SINEWAIT.i c) 1 } (f.i c) = s.get (f.i c) := by
    rw [State.get_eq_rfGet, State.get_eq_rfGet]
    exact (rfGet_rfPut_i _ _ _ (by decide) (by rw [dims]; rfl) apart).trans (same.get (bias_unlisted dims other c))
  have ran := exec_biasSineEnable taken pin up free still quiet nocal off stored same
  rw [toOffset, State.flag_of_get_one ((waiting rfl (by decide) (by decide)).trans clrd), if_pos rfl] at ran
  refine Gives.of_eq ran ⟨waiting rfl (by decide) (by decide), ?_, (waiting rfl (by decide) (by decide)).trans clrd, rfl⟩
  rw [State.get_eq_rfGet]
  exact rfGet_rfPut_self_i _ _ _ (by decide)

/-! ### The sine starts (R395) -/

theorem gives_sineStart (waits : s.get (Fld.BDA_CHc_STAT_SINEWAIT.i c) = 1) (start : s.bias[c].start = true)
    (there : s.get (Fld.BDA_CHc_STAT_OUT.i c) = s.bias[c].goal) (due : s.bias[c].step = some t0) :
    Gives (.biasSineStart c) s fun t => t.get (Fld.BDA_CHc_STAT_OWNER.i c) = 2 ∧ t.get (Fld.BDA_CHc_STAT_SINEWAIT.i c) = 0
      ∧ t.bias[c].sine = some ⟨t0, 0, s.biasFtw c, s.get (Fld.BDA_CHc_SAMP_AMP.i c), s.get (Fld.BDA_CHc_SAMP_OFFSET.i c), none, none⟩
      ∧ t = { s with now := max s.now t0, regs := t.regs, bias := t.bias } ∧ SameRegs [Reg.BDA_CHc_STAT + 32 * c] s t := by
  have stat {f : Field} (dims : f.dims = [32]) (at_ : f.reg = Reg.BDA_CHc_STAT) : (f.i c).reg ∈ [Reg.BDA_CHc_STAT + 32 * c] :=
    bias_listed dims c (by rw [at_]; exact List.mem_singleton_self _)
  have arrived : s.sineArrived c = some t0 := by
    rw [State.sineArrived, State.flag_of_get_one waits, start, there, if_pos (by simp), due]
  have ran : exec (.biasSineStart c) s = .next (startSine c t0 (s.at t0)) := by
    show execBiasSineStart c s = _
    rw [execBiasSineStart, arrived]
  rw [startSine] at ran
  dsimp only at ran
  rw [setOwner, State.put_eq, State.put_eq, State.setBias] at ran
  split at ran
  · rw [State.put_eq] at ran
    refine Gives.of_eq ran ⟨?_, ?_, congrArg Bias.sine (Vector.getElem_set_self _), rfl,
      RfSame.sameRegs ((((RfSame.refl _ s.regs).put (stat rfl rfl) _).put (stat rfl rfl) _).put (stat rfl rfl) _)⟩
    all_goals rw [State.get_eq_rfGet]
    · exact (rfGet_rfPut_i _ _ _ (by decide) (by decide) (by decide)).trans (rfGet_rfPut_self_i _ _ _ (by decide))
    · exact (rfGet_rfPut_i _ _ _ (by decide) (by decide) (by decide)).trans ((rfGet_rfPut_i _ _ _ (by decide) (by decide) (by decide)).trans (rfGet_rfPut_self_i _ _ _ (by decide)))
  · refine Gives.of_eq ran ⟨?_, ?_, congrArg Bias.sine (Vector.getElem_set_self _), rfl,
      RfSame.sameRegs (((RfSame.refl _ s.regs).put (stat rfl rfl) _).put (stat rfl rfl) _)⟩
    all_goals rw [State.get_eq_rfGet]
    · exact rfGet_rfPut_self_i _ _ _ (by decide)
    · exact (rfGet_rfPut_i _ _ _ (by decide) (by decide) (by decide)).trans (rfGet_rfPut_self_i _ _ _ (by decide))

/-! ### The half-cycle ends (R395) -/

/-- The registers when a half-cycle ends: OFFSET at the ball and in CODE, the owner gone. -/
def halfEnded (c : Fin 32) (off : Nat) (l : RegFile) : RegFile :=
  rfPut (rfPut (rfPut l (Fld.BDA_CHc_STAT_OUT.i c) off) (Fld.BDA_CHc_CODE_CODE.i c) off) (Fld.BDA_CHc_STAT_OWNER.i c) 0

/-- The channel without its sine, at OFFSET. -/
def Bias.silent (x : Bias) (off : Nat) : Bias := { x with goal := off, sine := none }

theorem gives_halfCycleEnd {x : Sine} (runs : s.bias[c].sine = some x) (stops : x.stop = some t0) :
    Gives (.biasSineHalfCycleEnd c) s fun t => t.get (Fld.BDA_CHc_STAT_OUT.i c) = s.get (Fld.BDA_CHc_SAMP_OFFSET.i c)
      ∧ t.get (Fld.BDA_CHc_CODE_CODE.i c) = s.get (Fld.BDA_CHc_SAMP_OFFSET.i c) ∧ t.get (Fld.BDA_CHc_STAT_OWNER.i c) = 0 ∧ t.bias[c].sine = none
      ∧ t = { s with now := max s.now t0, regs := t.regs, bias := t.bias } ∧ SameRegs [Reg.BDA_CHc_CODE + 32 * c, Reg.BDA_CHc_STAT + 32 * c] s t := by
  have stat {f : Field} (dims : f.dims = [32]) (at_ : f.reg = Reg.BDA_CHc_STAT) : (f.i c).reg ∈ [Reg.BDA_CHc_CODE + 32 * c, Reg.BDA_CHc_STAT + 32 * c] :=
    bias_listed dims c (by rw [at_]; exact List.mem_cons_of_mem _ (List.mem_singleton_self _))
  have code : (Fld.BDA_CHc_CODE_CODE.i c).reg ∈ [Reg.BDA_CHc_CODE + 32 * c, Reg.BDA_CHc_STAT + 32 * c] := bias_listed rfl c (List.mem_cons_self ..)
  have low : s.get (Fld.BDA_CHc_SAMP_OFFSET.i c) < 2 ^ 14 := s.get_lt (Fld.BDA_CHc_SAMP_OFFSET.i c)
  obtain ⟨l, marked, same⟩ : ∃ l, (if x.clamped (t0 - sineU) then (s.at t0).put (Fld.BDA_CHc_STAT_SAT.i c) 1 else s.at t0) = { s with now := max s.now t0, regs := l }
      ∧ RfSame [Reg.BDA_CHc_STAT + 32 * c] s.regs l := by
    split
    · exact ⟨_, State.put_eq .., (RfSame.refl _ s.regs).put (f := Fld.BDA_CHc_STAT_SAT.i c) (bias_listed (f := Fld.BDA_CHc_STAT_SAT) rfl c (List.mem_singleton_self _)) _⟩
    · exact ⟨_, rfl, .refl _ _⟩
  have wide : RfSame [Reg.BDA_CHc_CODE + 32 * c, Reg.BDA_CHc_STAT + 32 * c] s.regs l := fun a other => same a fun listed => other (List.mem_cons_of_mem _ listed)
  have off : State.get { s with now := max s.now t0, regs := l } (Fld.BDA_CHc_SAMP_OFFSET.i c) = s.get (Fld.BDA_CHc_SAMP_OFFSET.i c) := by
    rw [State.get_eq_rfGet, State.get_eq_rfGet]
    exact same.get (bias_unlisted rfl (by decide) c)
  have ran : exec (.biasSineHalfCycleEnd c) s = .next { s with now := max s.now t0, regs := halfEnded c (s.get (Fld.BDA_CHc_SAMP_OFFSET.i c)) l,
                                                                  bias := s.bias.set c (s.bias[c].silent (s.get (Fld.BDA_CHc_SAMP_OFFSET.i c))) } := by
    show execBiasSineHalfCycleEnd c s = _
    rw [execBiasSineHalfCycleEnd, runs]
    dsimp only
    rw [stops]
    dsimp only
    rw [marked, off]
    simp -implicitDefEqProofs only [setOwner, State.put_eq, State.setBias, halfEnded, Bias.silent]
  have offset : rfGet (halfEnded c (s.get (Fld.BDA_CHc_SAMP_OFFSET.i c)) l) (Fld.BDA_CHc_STAT_OUT.i c) = s.get (Fld.BDA_CHc_SAMP_OFFSET.i c) :=
    (rfGet_rfPut_i _ _ _ (by decide) (by decide) (by decide)).trans ((rfGet_rfPut_i _ _ _ (by decide) (by decide) (by decide)).trans
      ((rfGet_rfPut_self_i _ _ _ (by decide)).trans (Nat.mod_eq_of_lt low)))
  have coded : rfGet (halfEnded c (s.get (Fld.BDA_CHc_SAMP_OFFSET.i c)) l) (Fld.BDA_CHc_CODE_CODE.i c) = s.get (Fld.BDA_CHc_SAMP_OFFSET.i c) :=
    (rfGet_rfPut_i _ _ _ (by decide) (by decide) (by decide)).trans ((rfGet_rfPut_self_i _ _ _ (by decide)).trans (Nat.mod_eq_of_lt low))
  have freed : rfGet (halfEnded c (s.get (Fld.BDA_CHc_SAMP_OFFSET.i c)) l) (Fld.BDA_CHc_STAT_OWNER.i c) = 0 := rfGet_rfPut_self_i _ _ _ (by decide)
  have sameM : RfSame [Reg.BDA_CHc_CODE + 32 * c, Reg.BDA_CHc_STAT + 32 * c] s.regs (halfEnded c (s.get (Fld.BDA_CHc_SAMP_OFFSET.i c)) l) :=
    ((wide.put (stat rfl rfl) _).put code _).put (stat rfl rfl) _
  generalize halfEnded c (s.get (Fld.BDA_CHc_SAMP_OFFSET.i c)) l = m at ran offset coded freed sameM
  refine Gives.of_eq ran ⟨?_, ?_, ?_, congrArg Bias.sine (Vector.getElem_set_self _), rfl, RfSame.sameRegs sameM⟩
  all_goals rw [State.get_eq_rfGet]
  · exact offset
  · exact coded
  · exact freed

/-! ### EN is cleared (R395) -/

theorem getLsbD_disable (v : Word) : (v &&& 0x7FFFFFFF#32).getLsbD 31 = false := by
  rw [BitVec.getLsbD_and, show (0x7FFFFFFF#32).getLsbD 31 = false from by decide, Bool.and_false]

theorem getBits_disable (v : Word) : getBits Fld.BDA_CHc_SINE_EN (v &&& 0x7FFFFFFF#32) = 0 := by
  rw [getBits_of_width_one rfl]
  exact congrArg Bool.toNat (getLsbD_disable v)

theorem exec_biasSineDisable {l : RegFile} (taken : Takes s r (Reg.BDA_CHc_SINE + 32 * c)) (pin : s.get Fld.BDA_CTRL_CLRPIN = 0) (up : 2 ≤ s.hstate (c / 4))
    (nocal : s.calOnBias c = false) (on : s.get (Fld.BDA_CHc_SINE_EN.i c) = 1) (none : s.sineArrived c = none)
    (stored : s.ok.storeReg r (Reg.BDA_CHc_SINE + 32 * c) (v &&& 0x7FFFFFFF#32) = { s with resp := { err := false, data := 0 }, regs := l }) :
    exec (.biasSineDisable r c v) s = .next (sineOff c (retuneSine c { s with resp := { err := false, data := 0 }, regs := l })) := by
  refine congrArg Host.Outcome.next ((regCmd_ok taken).trans ?_)
  rw [biasSineWrite, settleSine_none (s := s.ok) none]
  dsimp only
  rw [getLsbD_disable, show s.ok.flag (Fld.BDA_CHc_SINE_EN.i c) = true from State.flag_of_get_one on, biasShut_open (s := s.ok) pin up, Bool.and_false, if_neg Bool.false_ne_true,
    show s.ok.calOnBias c = false from nocal, Bool.false_and, Bool.or_false, Bool.and_false, if_neg Bool.false_ne_true, if_neg Bool.false_ne_true, if_neg Bool.false_ne_true, biasReg, stored]

theorem setBias_self (s : State) (c : Fin 32) (x : Bias) : (s.setBias c x).bias[c] = x := Vector.getElem_set_self _

/-- A running sine retuned: SAT, and its own data. -/
theorem retuneSine_frame {x : Sine} (runs : s.bias[c].sine = some x) : ∃ l b y, retuneSine c s = { s with regs := l, bias := s.bias.set c b } ∧ b.sine = some y
    ∧ RfSame [Reg.BDA_CHc_STAT + 32 * c] s.regs l := by
  have folded : (foldSine c s).bias[c].sine = some (x.norm s.now) := by
    rw [foldSine, runs]
    dsimp only
    rw [setBias_self]
    dsimp only
    rw [apply_ite State.now, State.put_now, ite_self]
  obtain ⟨l, b, eq, same⟩ := foldSine_frame c s
  rw [retuneSine, runs]
  dsimp only
  rw [folded, eq]
  dsimp only
  rw [State.setBias]
  dsimp only
  rw [Vector.set_set]
  exact ⟨l, _, _, rfl, rfl, same⟩

theorem gives_sineDisable_runs (taken : Takes s r (Reg.BDA_CHc_SINE + 32 * c)) (pin : s.get Fld.BDA_CTRL_CLRPIN = 0) (up : 2 ≤ s.hstate (c / 4))
    (nocal : s.calOnBias c = false) (on : s.get (Fld.BDA_CHc_SINE_EN.i c) = 1) (none : s.sineArrived c = none) {x : Sine} (runs : s.bias[c].sine = some x) :
    Gives (.biasSineDisable r c v) s fun t => t.get (Fld.BDA_CHc_SINE_EN.i c) = 0 ∧ (∃ x, t.bias[c].sine = some x ∧ x.stop.isSome = true)
      ∧ t = { s with resp := { err := false, data := 0 }, regs := t.regs, bias := t.bias } ∧ SameRegs [Reg.BDA_CHc_SINE + 32 * c, Reg.BDA_CHc_STAT + 32 * c] s t := by
  obtain ⟨l, stored, en, _, same⟩ := sineStored_frame s r c (v &&& 0x7FFFFFFF#32)
  have ran := exec_biasSineDisable taken pin up nocal on none stored
  obtain ⟨m, b, y, retuned, sine, sat⟩ := retuneSine_frame (s := { s with resp := { err := false, data := 0 }, regs := l }) (c := c) runs
  rw [retuned, sineOff, show ({ s with resp := { err := false, data := 0 }, regs := m, bias := s.bias.set c b } : State).bias[c] = b from Vector.getElem_set_self _, sine] at ran
  dsimp only at ran
  rw [State.setBias] at ran
  dsimp only at ran
  rw [Vector.set_set] at ran
  refine Gives.of_eq ran ⟨?_, ⟨_, congrArg Bias.sine (Vector.getElem_set_self _), rfl⟩, rfl, RfSame.sameRegs ?_⟩
  · rw [State.get_eq_rfGet]
    exact (sat.get (bias_unlisted rfl (by decide) c)).trans (en.trans (getBits_disable v))
  · exact (sineRegs_of_stored same).trans fun a other => sat a fun listed => other (List.mem_cons_of_mem _ listed)

theorem gives_sineDisable_waits (taken : Takes s r (Reg.BDA_CHc_SINE + 32 * c)) (pin : s.get Fld.BDA_CTRL_CLRPIN = 0) (up : 2 ≤ s.hstate (c / 4))
    (nocal : s.calOnBias c = false) (on : s.get (Fld.BDA_CHc_SINE_EN.i c) = 1) (none : s.sineArrived c = none) (waits : s.bias[c].sine = .none) :
    Gives (.biasSineDisable r c v) s fun t => t.get (Fld.BDA_CHc_SINE_EN.i c) = 0 ∧ t.get (Fld.BDA_CHc_STAT_SINEWAIT.i c) = 0
      ∧ t.bias[c].start = false ∧ t.bias[c].sine = .none ∧ t = { s with resp := { err := false, data := 0 }, regs := t.regs, bias := t.bias }
      ∧ SameRegs [Reg.BDA_CHc_SINE + 32 * c, Reg.BDA_CHc_STAT + 32 * c] s t := by
  obtain ⟨l, stored, en, _, same⟩ := sineStored_frame s r c (v &&& 0x7FFFFFFF#32)
  have ran := exec_biasSineDisable taken pin up nocal on none stored
  rw [retuneSine, show ({ s with resp := { err := false, data := 0 }, regs := l } : State).bias[c].sine = .none from waits] at ran
  dsimp only at ran
  rw [sineOff, show ({ s with resp := { err := false, data := 0 }, regs := l } : State).bias[c].sine = .none from waits] at ran
  dsimp only at ran
  rw [State.put_eq, State.setBias] at ran
  refine Gives.of_eq ran ⟨?_, ?_, congrArg Bias.start (Vector.getElem_set_self _), (congrArg Bias.sine (Vector.getElem_set_self _)).trans waits, rfl,
    RfSame.sameRegs ((sineRegs_of_stored same).put (stat_sineRegs rfl rfl c) _)⟩
  all_goals rw [State.get_eq_rfGet]
  · exact (rfGet_rfPut_i _ _ _ (by decide) (by decide) (by decide)).trans (en.trans (getBits_disable v))
  · exact rfGet_rfPut_self_i _ _ _ (by decide)

/-! ### The servo's claim (R222, R395) -/

def vcxoDesc : RegDesc := ⟨Reg.TIM_VCXO, [], [Fld.TIM_VCXO_EN, Fld.TIM_VCXO_TSRC, Fld.TIM_VCXO_CH]⟩

theorem descOf_vcxo : descOf Reg.TIM_VCXO = some vcxoDesc := by decide +kernel

theorem loseUnit_frame (s : State) (h : Fin 8) (kind k : Nat) : ∃ cal, s.loseUnit h kind k = { s with cal := cal } := by
  rw [State.loseUnit]
  split
  · split
    · exact ⟨_, rfl⟩
    · exact ⟨s.cal, rfl⟩
  · exact ⟨s.cal, rfl⟩

theorem vcxo_apart (c : Fin 32) : Reg.TIM_VCXO ≠ Reg.BDA_CHc_STAT + 32 * c := by
  revert c
  decide

/-- The word stored, the register file named. -/
theorem vcxoStored_frame (s : State) (r : Req) (v : Word) : ∃ l, s.ok.storeReg r Reg.TIM_VCXO v = { s with resp := { err := false, data := 0 }, regs := l }
    ∧ rfGet l Fld.TIM_VCXO_EN = getBits Fld.TIM_VCXO_EN v ∧ rfGet l Fld.TIM_VCXO_CH = getBits Fld.TIM_VCXO_CH v ∧ RfSame [Reg.TIM_VCXO] s.regs l := by
  refine ⟨_, biasStored descOf_vcxo (by decide) r v s, ?_, ?_, (RfSame.refl _ s.regs).write (List.mem_singleton_self _) _⟩
  · rw [rfGet_rfWrite_same (a := Reg.TIM_VCXO) (g := Fld.TIM_VCXO_EN) _ _ rfl, getBits_wordWrite_plain (by decide) (by decide)]
  · rw [rfGet_rfWrite_same (a := Reg.TIM_VCXO) (g := Fld.TIM_VCXO_CH) _ _ rfl, getBits_wordWrite_plain (by decide) (by decide)]

theorem gives_vcxo_claims (taken : Takes s r Reg.TIM_VCXO) (en : v.getLsbD 31 = true) (is : c = Fin.ofNat 32 (getBits Fld.TIM_VCXO_CH v))
    (head : s.get Fld.TLY_CFG_EN = 0 ∨ s.get Fld.TLY_STAT_HEAD = 1) (off : s.get Fld.TIM_VCXO_EN = 0) (free : s.get (Fld.BDA_CHc_STAT_OWNER.i c) = 0)
    (still : s.get (Fld.BDA_CHc_STAT_SINEWAIT.i c) = 0) : Gives (.vcxoEnable r v) s fun t => t.get (Fld.BDA_CHc_STAT_OWNER.i c) = 3 ∧ t.get Fld.TIM_VCXO_EN = 1
        ∧ t.get Fld.TIM_VCXO_CH = c.val ∧ t = { s with resp := { err := false, data := 0 }, regs := t.regs, cal := t.cal } ∧ SameRegs [Reg.TIM_VCXO, Reg.BDA_CHc_STAT + 32 * c] s t := by
  obtain ⟨l, stored, storedEn, storedCh, same⟩ := vcxoStored_frame s r v
  have notFollower : (s.ok.flag Fld.TLY_CFG_EN && !s.ok.flag Fld.TLY_STAT_HEAD) = false := by
    rcases head with e | e
    · rw [show s.ok.flag Fld.TLY_CFG_EN = false from State.flag_of_get_zero e, Bool.false_and]
    · rw [show s.ok.flag Fld.TLY_STAT_HEAD = true from State.flag_of_get_one e, Bool.not_true, Bool.and_false]
  have channel : getBits Fld.TIM_VCXO_CH v = c.val := by
    have small : getBits Fld.TIM_VCXO_CH v < 32 := Nat.mod_lt _ (by decide)
    rw [is, Fin.val_ofNat, Nat.mod_eq_of_lt small]
  have on : getBits Fld.TIM_VCXO_EN v = 1 := by
    rw [getBits_of_width_one rfl]
    exact congrArg Bool.toNat en
  have ran : exec (.vcxoEnable r v) s = .next (State.loseUnit { s with resp := { err := false, data := 0 }, regs := rfPut l (Fld.BDA_CHc_STAT_OWNER.i c) 3 } (biasHamlet c) 8 (c.val % 4)) := by
    refine congrArg Host.Outcome.next ((regCmd_ok taken).trans ?_)
    rw [vcxoWrite]
    dsimp only
    rw [en, ← is, show s.ok.flag Fld.TIM_VCXO_EN = false from State.flag_of_get_zero off, Bool.true_and, notFollower, if_neg Bool.false_ne_true, Bool.and_false,
      if_neg (by simp), if_neg (by decide), settleSine_idle (s := s.ok) still, State.biasOwner, show s.ok.get (Fld.BDA_CHc_STAT_OWNER.i c) = 0 from free,
      show s.ok.flag (Fld.BDA_CHc_STAT_SINEWAIT.i c) = false from State.flag_of_get_zero still, if_pos (by decide), if_neg Bool.false_ne_true, stored, setOwner, State.put_eq]
  obtain ⟨cal, lost⟩ := loseUnit_frame { s with resp := { err := false, data := 0 }, regs := rfPut l (Fld.BDA_CHc_STAT_OWNER.i c) 3 } (biasHamlet c) 8 (c.val % 4)
  rw [lost] at ran
  have apart {f : Field} (at_ : f.reg = Reg.TIM_VCXO) : rfGet (rfPut l (Fld.BDA_CHc_STAT_OWNER.i c) 3) f = rfGet l f :=
    rfGet_rfWrite_ne _ _ (bne_iff_ne.2 (by rw [at_, bias_reg rfl]; exact vcxo_apart c))
  refine Gives.of_eq ran ⟨?_, ?_, ?_, rfl, RfSame.sameRegs (RfSame.put (fun a other => same a fun listed => other (List.mem_cons.2 (.inl (List.mem_singleton.1 listed))))
    (bias_listed (f := Fld.BDA_CHc_STAT_OWNER) rfl c (List.mem_cons_of_mem _ (List.mem_singleton_self _))) _)⟩
  all_goals rw [State.get_eq_rfGet]
  · exact rfGet_rfPut_self_i _ _ _ (by decide)
  · exact (apart rfl).trans (storedEn.trans on)
  · exact (apart rfl).trans (storedCh.trans channel)

theorem gives_vcxo_follower (taken : Takes s r Reg.TIM_VCXO) (en : v.getLsbD 31 = true) (tally : s.get Fld.TLY_CFG_EN = 1) (notHead : s.get Fld.TLY_STAT_HEAD = 0) :
    Gives (.vcxoEnable r v) s fun t => t.rd Reg.TIM_VCXO = s.rd Reg.TIM_VCXO ∧ t.bias = s.bias := by
  have ran : exec (.vcxoEnable r v) s = .next (s.ok.refuse4 r Reg.TIM_VCXO) := by
    refine congrArg Host.Outcome.next ((regCmd_ok taken).trans ?_)
    rw [vcxoWrite, en, show s.ok.flag Fld.TLY_CFG_EN = true from State.flag_of_get_one tally, show s.ok.flag Fld.TLY_STAT_HEAD = false from State.flag_of_get_zero notHead]
    exact if_pos rfl
  exact Gives.of_eq ran ⟨State.rd_refuse4 _ _ _ (by decide) (by decide), bias_refuse4 ..⟩

end

/-- Settles O36. -/
theorem biasSine : Obligations.BiasSine := by
  unfold Obligations.BiasSine
  refine ⟨fun s r c v taken pin up free still quiet nocal off slen clrd => gives_sineEnable taken pin up free still quiet nocal off slen clrd,
    fun s c t0 waits start there due => gives_sineStart waits start there due,
    fun s r c v taken pin up nocal on none => ⟨fun runs => ?_, fun waits => gives_sineDisable_waits taken pin up nocal on none waits⟩,
    fun s c x t0 runs stops => gives_halfCycleEnd runs stops,
    fun s r v taken en => ⟨fun head off free still => gives_vcxo_claims taken en rfl head off free still, fun tally notHead => gives_vcxo_follower taken en tally notHead⟩,
    fun s r c v taken pin up free still quiet nocal off clrd => gives_sineEnable_cleared taken pin up free still quiet nocal off clrd⟩
  obtain ⟨x, is⟩ := Option.ne_none_iff_exists'.1 runs
  exact gives_sineDisable_runs taken pin up nocal on none is

end Sys2Proof.Machine
end

section
/-!
PROOFS. A step of device time (R221): what the datapath's and the event units' part of it leaves alone.
-/

namespace Sys2Proof.Machine

/-- Device time, the clock's own data and its marks, the host port's descriptors and the downlink store are the same. -/
structure StepKept (s t : State) : Prop where
  now : t.now = s.now
  rtc : t.rtc = s.rtc
  dl : t.dl = s.dl
  tim : t.tim = s.tim
  stat : t.rd Reg.TIM_STAT = s.rd Reg.TIM_STAT
  ctl : t.rd Reg.TIM_STEPCTL = s.rd Reg.TIM_STEPCTL

section
variable {s t u : State}

theorem StepKept.refl (s : State) : StepKept s s := ⟨rfl, rfl, rfl, rfl, rfl, rfl⟩

theorem StepKept.trans (first : StepKept s t) (second : StepKept t u) : StepKept s u :=
  ⟨second.now.trans first.now, second.rtc.trans first.rtc, second.dl.trans first.dl, second.tim.trans first.tim, second.stat.trans first.stat, second.ctl.trans first.ctl⟩

theorem StepKept.wr (same : StepKept s t) {a : Nat} (v : Word) (other : a ≠ Reg.TIM_STAT ∧ a ≠ Reg.TIM_STEPCTL) : StepKept s (t.wr a v) :=
  same.trans ⟨rfl, rfl, rfl, rfl, State.rd_wr_ne t v (Ne.symm other.1), State.rd_wr_ne t v (Ne.symm other.2)⟩

theorem StepKept.put (same : StepKept s t) {f : Field} (v : Nat) (other : f.reg ≠ Reg.TIM_STAT ∧ f.reg ≠ Reg.TIM_STEPCTL) : StepKept s (t.put f v) :=
  same.wr _ other

/-- The registers of a hamlet's window lie above the clock's. -/
theorem hamletWindow_ne (h a : Nat) : hamletBase h + a ≠ Reg.TIM_STAT ∧ hamletBase h + a ≠ Reg.TIM_STEPCTL := by
  rw [hamletBase, Reg.TIM_STAT, Reg.TIM_STEPCTL]
  omega

theorem StepKept.wrH (same : StepKept s t) (h a : Nat) (v : Word) : StepKept s (t.wr (hamletBase h + a) v) := same.wr v (hamletWindow_ne h a)

theorem StepKept.putH (same : StepKept s t) (f : Field) (h v : Nat) : StepKept s (t.put (f.h h) v) := by
  refine same.put v ?_
  rw [Field.reg_h_eq h rfl]
  exact hamletWindow_ne h f.reg

theorem StepKept.addH (same : StepKept s t) (f : Field) (h n : Nat) : StepKept s (t.add (f.h h) n) := same.putH f h _

theorem StepKept.incH (same : StepKept s t) (f : Field) (h : Nat) : StepKept s (t.inc (f.h h)) := same.addH f h 1

theorem StepKept.foldl {β : Type} {f : State → β → State} (each : ∀ t b, StepKept t (f t b)) (same : StepKept s t) (l : List β) : StepKept s (l.foldl f t) := by
  induction l generalizing t with
  | nil => exact same
  | cons b l ih => exact ih (same.trans (each t b))

theorem StepKept.tx (same : StepKept s t) (x : Vector Tx 8) : StepKept s { t with tx := x } := ⟨same.now, same.rtc, same.dl, same.tim, same.stat, same.ctl⟩

theorem StepKept.rx (same : StepKept s t) (x : Vector Rx 8) : StepKept s { t with rx := x } := ⟨same.now, same.rtc, same.dl, same.tim, same.stat, same.ctl⟩

theorem StepKept.orx (same : StepKept s t) (x : Vector Orx 8) : StepKept s { t with orx := x } := ⟨same.now, same.rtc, same.dl, same.tim, same.stat, same.ctl⟩

theorem StepKept.pll (same : StepKept s t) (x : Vector Pll 8) : StepKept s { t with pll := x } := ⟨same.now, same.rtc, same.dl, same.tim, same.stat, same.ctl⟩

theorem StepKept.slt (same : StepKept s t) (x : Vector Slt 8) : StepKept s { t with slt := x } := ⟨same.now, same.rtc, same.dl, same.tim, same.stat, same.ctl⟩

theorem StepKept.evu (same : StepKept s t) (x : Vector Evu 8) : StepKept s { t with evu := x } := ⟨same.now, same.rtc, same.dl, same.tim, same.stat, same.ctl⟩

theorem StepKept.evq (same : StepKept s t) (x : Vector (List Nat) 8) : StepKept s { t with evq := x } := ⟨same.now, same.rtc, same.dl, same.tim, same.stat, same.ctl⟩

end

section
variable {s t : State} (h : Fin 8)

theorem stepKept_notify (code : Nat) : StepKept s (s.notify h code) := by
  rw [State.notify]
  split
  · exact (StepKept.refl s).evq _
  · exact ((StepKept.refl s).putH _ _ _).incH _ _

theorem stepKept_lateAction : StepKept s (lateAction h s) := (((StepKept.refl s).incH _ _).putH _ _ _).trans (stepKept_notify h 0xFFFE)

theorem stepKept_stepEvents : StepKept s (stepEvents s h) := by
  rw [stepEvents]
  exact StepKept.foldl (fun t _ => stepKept_lateAction h) (((StepKept.refl s).evu _).putH _ _ _) _

theorem stepKept_countTx (until_ : Nat) : StepKept s (s.countTx h until_) := by
  rw [State.countTx]
  dsimp only
  split
  · exact ((StepKept.refl s).addH _ _ _).tx _
  · exact .refl s

theorem stepKept_countRx (until_ : Nat) : StepKept s (s.countRx h until_) := by
  rw [State.countRx]
  dsimp only
  split
  · exact ((StepKept.refl s).addH _ _ _).rx _
  · exact .refl s

theorem stepKept_forceZero (quiet : Bool) : StepKept s (s.forceZero h quiet) := by
  have tx : StepKept s (s.forceTx h quiet) := by
    rw [State.forceTx]
    exact (((stepKept_countTx h s.now).putH _ _ _).tx _).trans (stepKept_countTx h _)
  have rx {s : State} : StepKept s (s.forceRx h quiet) := by
    rw [State.forceRx]
    exact (((stepKept_countRx h s.now).putH _ _ _).rx _).trans (stepKept_countRx h _)
  exact tx.trans rx

theorem stepKept_realign : StepKept s (realign h s) := by
  have idle {t : State} : StepKept t (if t.hstate h = 3 then t.setHstate h 2 else t) := by
    split
    · exact (StepKept.refl t).put (f := Fld.PWR_HSTATE_STATE.sub h) 2 (show 0x401001C ≠ _ ∧ 0x401001C ≠ _ by decide)
    · exact .refl t
  rw [realign]
  split
  · exact .refl s
  · exact ((((StepKept.refl s).putH _ _ _).trans (stepKept_forceZero h false)).trans idle).pll _

/-- Bytes written to the capture's ring: the clock and the host port's data stay. -/
theorem stepKept_putLE (a n v : Nat) : StepKept s (s.putLE a n v) := by
  obtain ⟨rest, regs⟩ := storeWrite_putLE s a n v
  exact ⟨by rw [rest], by rw [rest], by rw [rest], by rw [rest], regs _ (by decide), regs _ (by decide)⟩

theorem stepKept_access (req : Nat) (fetch : Bool) (a n : Nat) (grant : Bool) : StepKept s (s.access req fetch a n grant) := by
  have only := banksOnly_access s req fetch a n grant
  have clear (h : Fin 8) : Reg.TIM_STAT ≠ ((Fld.ARB_CNTn_COUNT.i 0).h h).reg ∧ Reg.TIM_STEPCTL ≠ ((Fld.ARB_CNTn_COUNT.i 0).h h).reg := by
    rw [Field.reg_h_eq h rfl]
    exact ⟨(hamletWindow_ne h _).1.symm, (hamletWindow_ne h _).2.symm⟩
  exact ⟨only.eq_field State.now fun _ _ => rfl, only.eq_field State.rtc fun _ _ => rfl, only.eq_field State.dl fun _ _ => rfl, only.eq_field State.tim fun _ _ => rfl,
    only.regs _ fun h => (clear h).1, only.regs _ fun h => (clear h).2⟩

theorem stepKept_closeGroups : StepKept s (closeGroups h s) := by
  rw [closeGroups]
  split
  · exact (StepKept.refl s).orx _
  · rw [closeHalf]
    split
    · exact (stepKept_access ..).trans (stepKept_putLE ..)
    · exact .refl s

theorem stepKept_queueCapRec (r : CapRec) : StepKept s (queueCapRec h r s) := by
  have shown {t : State} : StepKept t (showRecord h t) := by
    rw [showRecord]
    exact ((((StepKept.refl t).wrH _ _ _).wrH _ _ _).wrH _ _ _).wrH _ _ _
  rw [queueCapRec]
  refine StepKept.trans (StepKept.orx ?_ _) shown
  split
  · exact ((StepKept.refl s).putH _ _ _).incH _ _
  · exact .refl s

theorem StepKept.ewr (same : StepKept s t) (a : Nat) (v : Word) : StepKept s (t.ewr a v) := ⟨same.now, same.rtc, same.dl, same.tim, same.stat, same.ctl⟩

/-- The end of a capture with END code 2 (R159). -/
theorem stepKept_finishCapture (c : Capture) : StepKept s (finishCapture h c 2 s) := by
  have closed : StepKept s (((closeGroups h s).put (Fld.ORX_STAT_RUN.h h) 0).put (Fld.ORX_STAT_SETTLING.h h) 0) :=
    ((stepKept_closeGroups h).putH _ _ _).putH _ _ _
  have counted {t : State} : StepKept t (match c.paused with
      | some p => (t.add ((Fld.ORX_CNTn_COUNT.i 3).h h) ((t.now - p) / orxU)).put (Fld.ORX_DFSTAT_PAUSED.h h) 0
      | none => t) := by
    split
    · exact ((StepKept.refl t).addH _ _ _).putH _ _ _
    · exact .refl t
  rw [finishCapture]
  dsimp only
  refine StepKept.trans (StepKept.trans ?_ (stepKept_queueCapRec h _)) (stepKept_notify h _)
  rw [if_neg (show ¬2 = 5 by decide), if_pos rfl, if_pos (show 2 ≤ 2 by decide)]
  refine ((StepKept.putH ?_ _ _ _).putH _ _ _).putH _ _ _
  exact ((closed.trans counted).orx _).ewr _ _

theorem stepKept_stepHamlet : StepKept s (stepHamlet s h) := by
  rw [stepHamlet]
  refine StepKept.slt (StepKept.trans (stepKept_realign h) ?_) _
  split
  · exact stepKept_finishCapture h _
  · exact .refl _

end

end Sys2Proof.Machine
end

section
/-!
PROOFS. A scheduled step of device time at its instant (R221).
-/

namespace Sys2Proof.Machine

section
variable {s t : State} {t0 : Nat} {off : Int} {load : Bool}

theorem stepKept_stage_two (bytes : List Nat) : StepKept s (s.stage 2 bytes) := by
  have quiet : QuietLow (fun t => NoticeOnly s t) := by
    rintro t regs1 out1 flt1 port1 lnk1 ⟨_, _, _, _, _, rfl⟩
    exact ⟨_, _, _, _, _, rfl⟩
  have notice : NoticeOnly s (s.stage 2 bytes) := quietLow_State_stage quiet s 2 bytes (.refl s)
  have keeps : RaiseKeeps (fun t => ∀ a, raiseTouches a = false → t.rd a = s.rd a) := by
    refine ⟨fun e kept a outside => (State.rd_congr e a).trans (kept a outside), fun t b v touched kept a outside => ?_⟩
    rw [State.rd_wr_ne t v (fun e => by rw [e, touched] at outside; cases outside)]
    exact kept a outside
  have regs := raiseKeeps_State_stage keeps s 2 bytes (fun _ _ => rfl) (by decide)
  exact ⟨by rw [notice.eq], by rw [notice.eq], by rw [notice.eq], by rw [notice.eq], regs _ (by decide), regs _ (by decide)⟩

theorem stepKept_notifyLink (num elem info : Nat) : StepKept s (s.notifyLink num elem info) := by
  rw [State.notifyLink]
  split
  · exact StepKept.trans (t := { s with port := { s.port with eventId := (s.port.eventId + 1) % 256 } }) ⟨rfl, rfl, rfl, rfl, rfl, rfl⟩ (stepKept_stage_two _)
  · exact .refl s

/-! ### What a step discards -/

/-- The air start of a symbol looks at device time and the frame numbering alone. -/
theorem airStart_clearBank (b : Fin 2) (c : Car) (y : SymId) : (clearBank b s).airStart c y = s.airStart c y := rfl

theorem stepDiscard_valid : (stepDiscard s).rtc.valid = [] := rfl

theorem stepDiscard_cells : ∀ d ∈ (stepDiscard s).dl.cells, s.airStart (s.car d.car) d.sym < s.now := by
  intro d kept
  rw [stepDiscard] at kept
  dsimp only at kept
  split at kept
  · exact of_decide_eq_true (List.mem_filter.1 kept).2
  · exact of_decide_eq_true (List.mem_filter.1 kept).2

/-! ### The marks of a step -/

/-- The marks that a step leaves in the registers. -/
def stepMarks (load : Bool) (s : State) : State :=
  let s := if load then s else s.put Fld.TIM_STAT_STEPPED 1
  let s := if s.get Fld.TIM_STAT_STATE = 2 then s else s.put Fld.TIM_STAT_STATE (s.get Fld.TIM_STAT_STEPPED)
  let s := ((s.put Fld.TIM_STEPCTL_AUTH 0).put Fld.TIM_STAT_PEND 0).inc (Fld.TIM_CNTn_COUNT.i 3)
  (s.put Fld.TLY_STAT_ALIGNED 0).put Fld.WCH_BT_MS_VALID 0

theorem stepMarks_regsOnly (load : Bool) (s : State) : RegsOnly s (stepMarks load s) := by
  have first : RegsOnly s (if load then s else s.put Fld.TIM_STAT_STEPPED 1) := by
    split
    · exact .refl s
    · exact (RegsOnly.refl s).put _ _
  rw [stepMarks]
  refine RegsOnly.put (RegsOnly.put (RegsOnly.inc (RegsOnly.put (RegsOnly.put ?_ _ _) _ _) _) _ _) _ _
  generalize (if load then s else s.put Fld.TIM_STAT_STEPPED 1) = a at first
  split
  · exact first
  · exact first.put _ _

theorem stepMarks_get (load : Bool) (s : State) : (stepMarks load s).get Fld.TIM_STAT_PEND = 0 ∧ (stepMarks load s).get Fld.TIM_STEPCTL_AUTH = 0
    ∧ (load = false → (stepMarks load s).get Fld.TIM_STAT_STEPPED = 1) := by
  have first (plain : load = false) : (if load then s else s.put Fld.TIM_STAT_STEPPED 1).get Fld.TIM_STAT_STEPPED = 1 := by
    rw [plain, if_neg Bool.false_ne_true, State.get_eq_rfGet, State.put_regs, rfGet_rfPut_self _ _ (by decide)]
    rfl
  rw [stepMarks]
  generalize (if load then s else s.put Fld.TIM_STAT_STEPPED 1) = a at first
  have second (plain : load = false) : (if a.get Fld.TIM_STAT_STATE = 2 then a else a.put Fld.TIM_STAT_STATE (a.get Fld.TIM_STAT_STEPPED)).get Fld.TIM_STAT_STEPPED = 1 := by
    split
    · exact first plain
    · rw [State.get_eq_rfGet, State.put_regs, rfGet_rfPut_apart _ _ (by decide) (by decide), ← State.get_eq_rfGet, first plain]
  generalize (if a.get Fld.TIM_STAT_STATE = 2 then a else a.put Fld.TIM_STAT_STATE (a.get Fld.TIM_STAT_STEPPED)) = b at second
  rw [State.inc_eq]
  simp (disch := decide) only [State.get_eq_rfGet, State.put_regs, rfGet_rfPut_self, rfGet_rfPut_apart] at second ⊢
  exact ⟨rfl, rfl, second⟩

/-- Device time reads `n`, the step is over, and the numbering's own instants follow. -/
def stepTimed (load : Bool) (n : Nat) (s : State) : State :=
  let s := stepMarks load { s with now := n }
  let s := { s with tly := { s.tly with pulse := if s.tly.pulse = 0 then 0 else s.now, running := false } }
  s.setTim { s.tim with
    step := none
    near := 0
    slew := 0
    fnoffDue := s.tim.fnoffDue.map fun t => if t < s.now then nextMult s.now secU else t }

theorem stepTimed_facts (load : Bool) (n : Nat) (s : State) : (stepTimed load n s).now = n ∧ (stepTimed load n s).rtc = s.rtc ∧ (stepTimed load n s).dl = s.dl
    ∧ (stepTimed load n s).tim.step = none ∧ (stepTimed load n s).get Fld.TIM_STAT_PEND = 0 ∧ (stepTimed load n s).get Fld.TIM_STEPCTL_AUTH = 0
    ∧ (load = false → (stepTimed load n s).get Fld.TIM_STAT_STEPPED = 1) := by
  obtain ⟨pend, auth, stepped⟩ := stepMarks_get load { s with now := n }
  obtain ⟨regs, marked⟩ := stepMarks_regsOnly load { s with now := n }
  rw [stepTimed, State.setTim]
  rw [marked] at pend auth stepped ⊢
  exact ⟨rfl, rfl, rfl, rfl, pend, auth, stepped⟩

/-- What the datapath is left with before device time moves. -/
def stepPhased (d fine : Int) (s : State) : State := movePhase fine (shiftIntervals d (stepDiscard s))

theorem stepDiscard_now : (stepDiscard s).now = s.now := by
  rw [stepDiscard]
  split <;> rfl

theorem stepPhased_facts (d fine : Int) (s : State) : (stepPhased d fine s).now = s.now ∧ (stepPhased d fine s).rtc.valid = [] ∧ (stepPhased d fine s).dl.cells = (stepDiscard s).dl.cells := by
  rw [stepPhased, movePhase, State.put_now, State.put_rtc, State.put_dl]
  exact ⟨stepDiscard_now, rfl, rfl⟩

/-- A step's whole ticks, and the fine steps of the remainder. -/
def stepTicks (off : Int) : Int := (off + tickU / 2).fdiv tickU

def stepFine (off : Int) : Int := (off - stepTicks off * tickU + fineU / 2).fdiv fineU

/-- The state once the clocks have moved, before the hamlets take their part. -/
def stepMoved (off : Int) (load : Bool) (s : State) : State :=
  stepTimed load (shiftBy (stepTicks off * tickU + stepFine off * fineU) (stepPhased (stepTicks off * tickU + stepFine off * fineU) (stepFine off) s).now)
    (stepPhased (stepTicks off * tickU + stepFine off * fineU) (stepFine off) s)

theorem applyStep_eq (off : Int) (load : Bool) (s : State) :
    applyStep off load s = (List.finRange 8).foldl stepEvents ((List.finRange 8).foldl stepHamlet ((stepMoved off load s).notifyLink Config.stepNumber 0xFF 0)) := rfl

theorem stepKept_hamlets (s : State) : StepKept s ((List.finRange 8).foldl stepEvents ((List.finRange 8).foldl stepHamlet (s.notifyLink Config.stepNumber 0xFF 0))) :=
  StepKept.foldl (fun _ h => stepKept_stepEvents h) (StepKept.foldl (fun _ h => stepKept_stepHamlet h) (stepKept_notifyLink ..) _) _

theorem gives_timeStep (due : s.tim.step = some (t0, off, load)) :
    Gives .timeStep s fun t => (t.now : Int) = max 0 (max s.now t0 + (stepTicks off * tickU + stepFine off * fineU)) ∧ t.tim.step = none ∧ t.get Fld.TIM_STAT_PEND = 0
      ∧ t.get Fld.TIM_STEPCTL_AUTH = 0 ∧ (load = false → t.get Fld.TIM_STAT_STEPPED = 1) ∧ t.rtc.valid = []
      ∧ ∀ d ∈ t.dl.cells, (s.at t0).airStart (s.car d.car) d.sym < max s.now t0 := by
  have ran : exec .timeStep s = .next (applyStep off load (s.at t0)) := by
    show execTimeStep s = _
    rw [execTimeStep, due]
  obtain ⟨now, valid, cells⟩ := stepPhased_facts (stepTicks off * tickU + stepFine off * fineU) (stepFine off) (s.at t0)
  obtain ⟨moved, rtc, dl, step, pend, auth, stepped⟩ := stepTimed_facts load
    (shiftBy (stepTicks off * tickU + stepFine off * fineU) (stepPhased (stepTicks off * tickU + stepFine off * fineU) (stepFine off) (s.at t0)).now)
    (stepPhased (stepTicks off * tickU + stepFine off * fineU) (stepFine off) (s.at t0))
  have kept := stepKept_hamlets (stepMoved off load (s.at t0))
  rw [← applyStep_eq] at kept
  refine Gives.of_eq ran ⟨?_, ?_, ?_, ?_, fun plain => ?_, ?_, fun d listed => ?_⟩
  · rw [kept.now, show (stepMoved off load (s.at t0)).now = shiftBy _ (s.at t0).now from moved.trans (congrArg (shiftBy _) now), shiftBy, Int.toNat_eq_max, Int.max_comm]
    rfl
  · rw [kept.tim, show (stepMoved off load (s.at t0)).tim.step = none from step]
  · exact (congrArg (getBits Fld.TIM_STAT_PEND) kept.stat).trans pend
  · exact (congrArg (getBits Fld.TIM_STEPCTL_AUTH) kept.ctl).trans auth
  · exact (congrArg (getBits Fld.TIM_STAT_STEPPED) kept.stat).trans (stepped plain)
  · rw [kept.rtc, show (stepMoved off load (s.at t0)).rtc = _ from rtc, valid]
  · rw [kept.dl, show (stepMoved off load (s.at t0)).dl = _ from dl, cells] at listed
    exact stepDiscard_cells d listed

end

end Sys2Proof.Machine
end

section
/-!
PROOFS. Time sources: stale marks and judged measurements (R218 to R223); the settlement of O28.
-/

namespace Sys2Proof.Machine

section
variable {s t : State} {r : Req} {v : Word}

/-! ### A source turns stale (R218) -/

theorem srcstat_fits (n : Fin 5) : (Fld.TIM_SRCSTAT_STALE.sub n).fits = true ∧ (Fld.TIM_SRCSTAT_SUSPECT.sub n).fits = true ∧ (Fld.TIM_SRCSTAT_GOOD.sub n).fits = true := by
  revert n
  decide

theorem srcstat_apart (n : Fin 5) : (Fld.TIM_SRCSTAT_GOOD.sub n).apart (Fld.TIM_SRCSTAT_SUSPECT.sub n) = true := by
  revert n
  decide

/-- Holdover begins at the present instant, with its notice. -/
def holdBegun (u : State) : State := State.raise { u with tim := { u.tim with holdAt := u.now } } 0x442 0xFF (u.get Fld.TIM_CFG_SEL)

theorem enterHold_eq (s : State) : s.enterHold = if s.get Fld.TIM_STAT_STATE = 2 then s else holdBegun ((s.put Fld.TIM_STAT_STATE 2).inc (Fld.TIM_CNTn_COUNT.i 4)) := by
  rw [State.enterHold, holdBegun]

theorem holdBegun_rd {a : Nat} (quiet : raiseTouches a = false) (u : State) : (holdBegun u).rd a = u.rd a := by
  rw [holdBegun, State.raise_rd _ _ _ _ quiet]
  exact State.rd_congr rfl a

/-- Entering holdover writes TIM_STAT, its count, and what raising the notice writes. -/
theorem enterHold_rd {a : Nat} (quiet : raiseTouches a = false) (stat : a ≠ Reg.TIM_STAT) (count : a ≠ (Fld.TIM_CNTn_COUNT.i 4).reg) : s.enterHold.rd a = s.rd a := by
  rw [enterHold_eq]
  split
  · rfl
  · rw [holdBegun_rd quiet, State.inc, State.add, State.rd_put_ne _ _ count, State.rd_put_ne _ _ stat]

theorem gives_linkUp (refok : Bool) : Gives (.mgpLinkChange true refok) s fun t => t.get Fld.MGP_STAT_LINK = 1 ∧ t.get Fld.MGP_STAT_REFOK = b2n refok
    ∧ t = { s with regs := t.regs } ∧ SameRegs [Reg.MGP_STAT] s t := by
  have ran : exec (.mgpLinkChange true refok) s = .next { s with regs := rfPut (rfPut s.regs Fld.MGP_STAT_LINK (b2n true)) Fld.MGP_STAT_REFOK (b2n refok) } := by
    show execMgpLinkChange true refok s = _
    rw [execMgpLinkChange, State.put_eq, State.put_eq]
    rfl
  refine Gives.of_eq ran ⟨?_, ?_, rfl, (((RfSame.refl _ s.regs).put (by decide) _).put (by decide) _).sameRegs⟩
  all_goals simp (disch := decide) only [State.get_eq_rfGet, rfGet_rfPut_self, rfGet_rfPut_apart]
  · rfl
  · cases refok <;> rfl

/-- A source that was fresh is stale, and counted. -/
theorem sourceStale_fresh (n : Fin 5) (fresh : s.get (Fld.TIM_SRCSTAT_STALE.sub n) = 0) : ∃ regs,
    s.sourceStale n = (if s.get Fld.TIM_CFG_SEL = n.val then State.enterHold { s with regs := regs } else { s with regs := regs })
    ∧ rfGet regs (Fld.TIM_SRCSTAT_STALE.sub n) = 1 ∧ rfGet regs (Fld.TIM_CNTn_COUNT.i 5) = min (s.get (Fld.TIM_CNTn_COUNT.i 5) + 1) (2 ^ 32 - 1)
    ∧ RfSame [Reg.TIM_SRCSTAT, (Fld.TIM_CNTn_COUNT.i 5).reg] s.regs regs := by
  have stale : (Fld.TIM_SRCSTAT_STALE.sub n).reg = Reg.TIM_SRCSTAT := rfl
  obtain ⟨m, put_, is⟩ := put_frame s s.regs (Fld.TIM_SRCSTAT_STALE.sub n) 1
  have marked : rfGet m (Fld.TIM_SRCSTAT_STALE.sub n) = 1 := by rw [is, rfGet_rfPut_self _ _ (srcstat_fits n).1]; rfl
  have only : RfSame [Reg.TIM_SRCSTAT] s.regs m := by
    rw [is]
    exact (RfSame.refl _ s.regs).put (f := Fld.TIM_SRCSTAT_STALE.sub n) (List.mem_singleton_self _) 1
  clear is
  have count : rfGet m (Fld.TIM_CNTn_COUNT.i 5) = s.get (Fld.TIM_CNTn_COUNT.i 5) := by
    rw [State.get_eq_rfGet]
    exact only.get (by decide)
  have wide : RfSame [Reg.TIM_SRCSTAT, (Fld.TIM_CNTn_COUNT.i 5).reg] s.regs m := fun a other => only a fun listed => other (List.mem_cons.2 (.inl (List.mem_singleton.1 listed)))
  obtain ⟨l, inc_, is⟩ : ∃ l, State.inc { s with regs := m } (Fld.TIM_CNTn_COUNT.i 5) = { s with regs := l }
      ∧ l = rfPut m (Fld.TIM_CNTn_COUNT.i 5) (min (s.get (Fld.TIM_CNTn_COUNT.i 5) + 1) (2 ^ 32 - 1)) := by
    refine ⟨_, ?_, rfl⟩
    rw [State.inc_eq]
    dsimp only
    rw [count]
    rfl
  have counted : rfGet l (Fld.TIM_CNTn_COUNT.i 5) = min (s.get (Fld.TIM_CNTn_COUNT.i 5) + 1) (2 ^ 32 - 1) := by
    rw [is, rfGet_rfPut_self_i _ _ _ (by decide)]
    exact Nat.mod_eq_of_lt (show _ < 2 ^ 32 by omega)
  have still : rfGet l (Fld.TIM_SRCSTAT_STALE.sub n) = 1 := by
    rw [is]
    exact (rfGet_rfWrite_ne _ _ (by rw [stale]; decide)).trans marked
  have all : RfSame [Reg.TIM_SRCSTAT, (Fld.TIM_CNTn_COUNT.i 5).reg] s.regs l := by
    rw [is]
    exact wide.put (f := Fld.TIM_CNTn_COUNT.i 5) (List.mem_cons_of_mem _ (List.mem_singleton_self _)) _
  have sel : State.get { s with regs := l } Fld.TIM_CFG_SEL = s.get Fld.TIM_CFG_SEL := by
    rw [State.get_eq_rfGet, State.get_eq_rfGet]
    exact all.get (by decide)
  refine ⟨l, ?_, still, counted, all⟩
  rw [State.sourceStale, State.flag_of_get_zero fresh, if_neg Bool.false_ne_true, put_, inc_]
  dsimp only
  rw [sel]

theorem sourceStale_marks (s : State) (n : Fin 5) : (s.sourceStale n).get (Fld.TIM_SRCSTAT_STALE.sub n) = 1 ∧ (s.sourceStale n).rd Reg.MGP_STAT = s.rd Reg.MGP_STAT
    ∧ (s.sourceStale n).mem = s.mem := by
  by_cases fresh : s.get (Fld.TIM_SRCSTAT_STALE.sub n) = 0
  · obtain ⟨regs, is, shown, _, same⟩ := sourceStale_fresh n fresh
    have link : rfRead regs Reg.MGP_STAT = s.rd Reg.MGP_STAT := (same _ (by decide)).trans (s.rd_eq_rfRead _).symm
    rw [is]
    split
    · refine ⟨?_, ?_, ?_⟩
      · rw [State.get, show (Fld.TIM_SRCSTAT_STALE.sub n).reg = Reg.TIM_SRCSTAT from rfl, enterHold_rd (by decide) (by decide) (by decide)]
        exact shown
      · rw [enterHold_rd (by decide) (by decide) (by decide), State.rd_eq_rfRead]
        exact link
      · rw [((TimKept.refl { s with regs := regs }).enterHold).eq]
    · exact ⟨shown, (State.rd_eq_rfRead _ _).trans link, rfl⟩
  · have one : s.get (Fld.TIM_SRCSTAT_STALE.sub n) = 1 := by
      have bit : s.get (Fld.TIM_SRCSTAT_STALE.sub n) < 2 ^ 1 := s.get_lt (Fld.TIM_SRCSTAT_STALE.sub n)
      omega
    rw [State.sourceStale, State.flag_of_get_one one, if_pos rfl]
    exact ⟨one, rfl, rfl⟩

theorem gives_linkDown (refok : Bool) : Gives (.mgpLinkChange false refok) s fun t => t.get Fld.MGP_STAT_LINK = 0 ∧ t.get (Fld.TIM_SRCSTAT_STALE.sub 1) = 1
    ∧ t.mem = s.mem := by
  obtain ⟨stale, link, mem⟩ := sourceStale_marks ((s.put Fld.MGP_STAT_LINK (b2n false)).put Fld.MGP_STAT_REFOK (b2n refok)) 1
  have ran : exec (.mgpLinkChange false refok) s = .next (((s.put Fld.MGP_STAT_LINK (b2n false)).put Fld.MGP_STAT_REFOK (b2n refok)).sourceStale 1) := by
    show execMgpLinkChange false refok s = _
    rw [execMgpLinkChange]
    dsimp only
    rw [if_neg Bool.false_ne_true]
  refine Gives.of_eq ran ⟨?_, stale, mem.trans (by rw [State.put_mem, State.put_mem])⟩
  refine (congrArg (getBits Fld.MGP_STAT_LINK) link).trans (show State.get _ _ = _ from ?_)
  simp (disch := decide) only [State.get_eq_rfGet, State.put_regs, rfGet_rfPut_self, rfGet_rfPut_apart]
  rfl

theorem gives_sourceStale (n : Fin 5) (fresh : s.get (Fld.TIM_SRCSTAT_STALE.sub n) = 0) (other : s.get Fld.TIM_CFG_SEL ≠ n.val) :
    Gives (.sourceStale n) s fun t => t.get (Fld.TIM_SRCSTAT_STALE.sub n) = 1
      ∧ t.get (Fld.TIM_CNTn_COUNT.i 5) = min (s.get (Fld.TIM_CNTn_COUNT.i 5) + 1) (2 ^ 32 - 1) ∧ t = { s with now := t.now, regs := t.regs }
      ∧ SameRegs [Reg.TIM_SRCSTAT, (Fld.TIM_CNTn_COUNT.i 5).reg] s t := by
  obtain ⟨t0, ran⟩ : ∃ t0, exec (.sourceStale n) s = .next ((s.at t0).sourceStale n) := by
    show ∃ t0, execSourceStale n s = _
    rw [execSourceStale, State.flag_of_get_zero fresh, if_neg Bool.false_ne_true]
    split
    · exact ⟨_, rfl⟩
    · exact ⟨_, rfl⟩
  obtain ⟨regs, is, shown, count, same⟩ := sourceStale_fresh (s := s.at t0) n fresh
  rw [is, if_neg (show ¬(s.at t0).get Fld.TIM_CFG_SEL = n.val from other)] at ran
  exact Gives.of_eq ran ⟨shown, count, rfl, same⟩

/-! ### Judging a measurement (R219, R220) -/

/-- The offset that a commit names. -/
def measOff (s : State) : Int := (signed 32 (s.get Fld.TIM_MEAS_SEC_SEC) * 1000000000 + signed 32 (s.get Fld.TIM_MEAS_NS_NS)) * nsU

/-- The judgement once the instant of the measurement is noted. -/
def judgeNoted (src : Nat) (off : Int) (step init : Bool) (s : State) : State :=
  let open_ := !s.flag Fld.TIM_STAT_STEPPED || s.flag Fld.TIM_STEPCTL_AUTH
  if src < 5 ∧ ¬ s.bit Fld.TIM_CFG_SRCEN src then s.put Fld.TIM_STAT_LASTRES 6
  else if src = 3 then judgeWatch off s
  else if step && open_ && s.flag Fld.TIM_STAT_PEND then (s.inc (Fld.TIM_CNTn_COUNT.i 1)).put Fld.TIM_STAT_LASTRES 3
  else if step && open_ then scheduleStep src off (init && !s.flag Fld.TIM_STAT_STEPPED) s
  else if s.suspect src then
    (if off.natAbs ≤ s.thresh then
      let g := s.goodCount src
      if g = 3 then acceptMeas src off (setSuspect src false 0 s)
      else (setSuspect src true (g + 1) s).put Fld.TIM_STAT_LASTRES 7
    else (setSuspect src true 0 s).put Fld.TIM_STAT_LASTRES 2)
  else judgeRest src off step init s

/-- The instant of a measurement is noted in the clock's own data alone. -/
theorem exec_measurementCommit {src : Nat} (taken : Takes s r Reg.TIM_MEAS_CTRL) (is : getBits Fld.TIM_MEAS_CTRL_SRC v = src) (low : src < 3) : ∃ tim,
    exec (.measurementCommit r v) s = .next (judgeNoted src (measOff s) (getBits Fld.TIM_MEAS_CTRL_STEP v = 1) (getBits Fld.TIM_MEAS_CTRL_INIT v = 1)
      { s with resp := { err := false, data := 0 }, tim := tim }) := by
  refine ⟨{ s.tim with meas := s.tim.meas.set src s.now }, congrArg Host.Outcome.next ((regCmd_ok taken).trans ?_)⟩
  rw [measWrite, is]
  dsimp only
  rw [if_neg (by omega), judge, dif_pos (show src < 4 by omega)]
  rfl

section
variable {src : Nat} {off : Int} {step init : Bool}

theorem judgeNoted_off (low : src < 3) (off_ : s.bit Fld.TIM_CFG_SRCEN src = false) : judgeNoted src off step init s = s.put Fld.TIM_STAT_LASTRES 6 := by
  rw [judgeNoted, if_pos ⟨by omega, by rw [off_]; decide⟩]

theorem judgeNoted_step (low : src < 3) (on : s.bit Fld.TIM_CFG_SRCEN src = true) (idle : s.get Fld.TIM_STAT_PEND = 0)
    (allowed : s.get Fld.TIM_STAT_STEPPED = 0 ∨ s.get Fld.TIM_STEPCTL_AUTH = 1) :
    judgeNoted src off true init s = scheduleStep src off (init && !s.flag Fld.TIM_STAT_STEPPED) s := by
  have open_ : (!s.flag Fld.TIM_STAT_STEPPED || s.flag Fld.TIM_STEPCTL_AUTH) = true := by
    rcases allowed with e | e
    · rw [State.flag_of_get_zero e]
      rfl
    · rw [State.flag_of_get_one e, Bool.or_true]
  rw [judgeNoted, if_neg (by rw [on]; simp), if_neg (by omega), State.flag_of_get_zero idle, Bool.and_false, if_neg Bool.false_ne_true]
  dsimp only
  rw [open_, if_pos (by decide)]

theorem judgeNoted_rest (low : src < 3) (on : s.bit Fld.TIM_CFG_SRCEN src = true) (trusted : s.get (Fld.TIM_SRCSTAT_SUSPECT.sub src) = 0) :
    judgeNoted src off false init s = judgeRest src off false init s := by
  have clear : s.suspect src = false := by rw [State.suspect, if_pos (by omega), State.flag_of_get_zero trusted]
  rw [judgeNoted, if_neg (by rw [on]; simp), if_neg (by omega), Bool.false_and, Bool.false_and, if_neg Bool.false_ne_true, if_neg Bool.false_ne_true, clear,
    if_neg Bool.false_ne_true]

theorem State.get_setTim (s : State) (x : Tim) (f : Field) : (s.setTim x).get f = s.get f := rfl

theorem State.rd_setTim (s : State) (x : Tim) (a : Nat) : (s.setTim x).rd a = s.rd a := rfl

/-- A step accepted: its marks in TIM_STAT, the source no longer suspect, its instant 2 ms on at a multiple of 10 ms. -/
theorem scheduleStep_facts (load : Bool) (s : State) (low : src < 3) :
    (scheduleStep src off load s).get Fld.TIM_STAT_LASTRES = 1 ∧ (scheduleStep src off load s).get Fld.TIM_STAT_PEND = 1
    ∧ (scheduleStep src off load s).tim.step = some (nextMult (s.now + 2 * msU) (10 * msU), off, load)
    ∧ SameRegs [Reg.TIM_STAT, Reg.TIM_SRCSTAT] s (scheduleStep src off load s) := by
  have sus : (Fld.TIM_SRCSTAT_SUSPECT.sub src).reg = Reg.TIM_SRCSTAT := rfl
  have good : (Fld.TIM_SRCSTAT_GOOD.sub src).reg = Reg.TIM_SRCSTAT := rfl
  have marked : ((s.put Fld.TIM_STAT_PEND 1).put Fld.TIM_STAT_LASTRES 1).get Fld.TIM_STAT_LASTRES = 1 ∧ ((s.put Fld.TIM_STAT_PEND 1).put Fld.TIM_STAT_LASTRES 1).get Fld.TIM_STAT_PEND = 1 := by
    simp (disch := decide) only [State.get_eq_rfGet, State.put_regs, rfGet_rfPut_self, rfGet_rfPut_apart]
    exact ⟨rfl, rfl⟩
  have only : SameRegs [Reg.TIM_STAT, Reg.TIM_SRCSTAT] s ((s.put Fld.TIM_STAT_PEND 1).put Fld.TIM_STAT_LASTRES 1) :=
    ((SameRegs.refl _ s).put (by decide) _).put (by decide) _
  have now : ((s.put Fld.TIM_STAT_PEND 1).put Fld.TIM_STAT_LASTRES 1).now = s.now := by rw [State.put_now, State.put_now]
  rw [scheduleStep]
  generalize (s.put Fld.TIM_STAT_PEND 1).put Fld.TIM_STAT_LASTRES 1 = u at marked only now
  dsimp only
  rw [setSuspect, if_pos (by omega)]
  generalize named : (u.put (Fld.TIM_SRCSTAT_SUSPECT.sub src) (b2n false)).put (Fld.TIM_SRCSTAT_GOOD.sub src) (u.goodCount src) = w
  have past {f : Field} (other : f.reg ≠ Reg.TIM_SRCSTAT) : w.get f = u.get f := by
    rw [← named, State.get_put_reg _ _ (by rw [good]; exact other), State.get_put_reg _ _ (by rw [sus]; exact other)]
  have all : SameRegs [Reg.TIM_STAT, Reg.TIM_SRCSTAT] s w := by
    rw [← named]
    exact (only.put (f := Fld.TIM_SRCSTAT_SUSPECT.sub src) (by rw [sus]; decide) _).put (f := Fld.TIM_SRCSTAT_GOOD.sub src) (by rw [good]; decide) _
  have clock : w.now = s.now := by rw [← named, State.put_now, State.put_now, now]
  clear named
  rw [clock]
  exact ⟨(State.get_setTim ..).trans ((past (by decide)).trans marked.1), (State.get_setTim ..).trans ((past (by decide)).trans marked.2), rfl, fun a other => (State.rd_setTim ..).trans (all a other)⟩

theorem gives_meas_step (taken : Takes s r Reg.TIM_MEAS_CTRL) (is : getBits Fld.TIM_MEAS_CTRL_SRC v = src) (low : src < 3) (on : s.bit Fld.TIM_CFG_SRCEN src = true)
    (asks : getBits Fld.TIM_MEAS_CTRL_STEP v = 1) (idle : s.get Fld.TIM_STAT_PEND = 0) (allowed : s.get Fld.TIM_STAT_STEPPED = 0 ∨ s.get Fld.TIM_STEPCTL_AUTH = 1) :
    Gives (.measurementCommit r v) s fun t => t.get Fld.TIM_STAT_LASTRES = 1
        ∧ t.get Fld.TIM_STAT_PEND = 1 ∧ (∃ l, t.tim.step = some (nextMult (s.now + 2 * msU) (10 * msU), measOff s, l)) ∧ t.mem = s.mem
        ∧ SameRegs [Reg.TIM_STAT, Reg.TIM_SRCSTAT] s t := by
  obtain ⟨tim, ran⟩ := exec_measurementCommit taken is low
  have kept := (TimKept.refl { s with resp := { err := false, data := 0 }, tim := tim }).scheduleStep src (measOff s)
    (decide (getBits Fld.TIM_MEAS_CTRL_INIT v = 1) && !State.flag { s with resp := { err := false, data := 0 }, tim := tim } Fld.TIM_STAT_STEPPED)
  rw [decide_eq_true asks, judgeNoted_step (s := { s with resp := _, tim := tim }) low on idle allowed] at ran
  obtain ⟨res, pend, step, same⟩ := scheduleStep_facts (off := measOff s)
    (decide (getBits Fld.TIM_MEAS_CTRL_INIT v = 1) && !State.flag { s with resp := { err := false, data := 0 }, tim := tim } Fld.TIM_STAT_STEPPED)
    { s with resp := { err := false, data := 0 }, tim := tim } low
  exact Gives.of_eq ran ⟨res, pend, ⟨_, step⟩, by rw [kept.eq], same⟩

/-! ### A measurement accepted or refused (R220) -/

theorem acceptMeas_facts (s : State) (low : src < 3) :
    (acceptMeas src off s).get Fld.TIM_STAT_LASTRES = 0 ∧ (acceptMeas src off s).get Fld.TIM_OFFS_OFFS = unsigned 32 (clampS 32 (off.tdiv nsU))
    ∧ (acceptMeas src off s).get (Fld.TIM_SRCSTAT_STALE.sub src) = (if s.portUp src = true then 0 else s.get (Fld.TIM_SRCSTAT_STALE.sub src))
    ∧ SameRegs [Reg.TIM_STAT, Reg.TIM_OFFS, Reg.TIM_SRCSTAT] s (acceptMeas src off s) := by
  have stale : (Fld.TIM_SRCSTAT_STALE.sub src).reg = Reg.TIM_SRCSTAT := rfl
  have fits : (Fld.TIM_SRCSTAT_STALE.sub src).fits = true := (srcstat_fits ⟨src, by omega⟩).1
  obtain ⟨u, is, res, offs, port, old, only⟩ : ∃ u, (s.put Fld.TIM_OFFS_OFFS (unsigned 32 (clampS 32 (off.tdiv nsU)))).put Fld.TIM_STAT_LASTRES 0 = u
      ∧ u.get Fld.TIM_STAT_LASTRES = 0 ∧ u.get Fld.TIM_OFFS_OFFS = unsigned 32 (clampS 32 (off.tdiv nsU)) ∧ u.portUp src = s.portUp src
      ∧ u.get (Fld.TIM_SRCSTAT_STALE.sub src) = s.get (Fld.TIM_SRCSTAT_STALE.sub src) ∧ SameRegs [Reg.TIM_STAT, Reg.TIM_OFFS] s u := by
    refine ⟨_, rfl, ?_, ?_, ?_, ?_, ((SameRegs.refl _ s).put (by decide) _).put (by decide) _⟩
    · rw [State.get_put_same _ _ _ (by decide)]
      rfl
    · rw [State.get_put_reg _ _ (by decide), State.get_put_same _ _ _ (by decide)]
      exact Nat.mod_eq_of_lt (unsigned_lt 32 _)
    · rw [State.portUp, State.portUp, State.linkUp, State.linkUp, State.flag, State.flag]
      simp (disch := decide) only [State.get_put_reg]
    · rw [State.get_put_reg _ _ (by rw [stale]; decide), State.get_put_reg _ _ (by rw [stale]; decide)]
  rw [acceptMeas, is]
  obtain ⟨w, fresh, resW, offsW, staleW, onlyW⟩ : ∃ w, (if src < 5 ∧ u.portUp src = true then u.put (Fld.TIM_SRCSTAT_STALE.sub src) 0 else u) = w
      ∧ w.get Fld.TIM_STAT_LASTRES = 0 ∧ w.get Fld.TIM_OFFS_OFFS = unsigned 32 (clampS 32 (off.tdiv nsU))
      ∧ w.get (Fld.TIM_SRCSTAT_STALE.sub src) = (if s.portUp src = true then 0 else s.get (Fld.TIM_SRCSTAT_STALE.sub src))
      ∧ SameRegs [Reg.TIM_STAT, Reg.TIM_OFFS, Reg.TIM_SRCSTAT] s w := by
    have wide : SameRegs [Reg.TIM_STAT, Reg.TIM_OFFS, Reg.TIM_SRCSTAT] s u := only.mono (by decide)
    by_cases up : s.portUp src = true
    · rw [if_pos ⟨by omega, port.trans up⟩, if_pos up]
      refine ⟨_, rfl, ?_, ?_, ?_, wide.put (by rw [stale]; decide) _⟩
      · rw [State.get_put_reg _ _ (by rw [stale]; decide), res]
      · rw [State.get_put_reg _ _ (by rw [stale]; decide), offs]
      · rw [State.get_eq_rfGet, State.put_regs, rfGet_rfPut_self _ _ fits]
        rfl
    · rw [if_neg (fun both => up (port.symm.trans both.2)), if_neg up]
      exact ⟨u, rfl, res, offs, old, wide⟩
  rw [fresh]
  split
  · refine ⟨?_, ?_, ?_, onlyW.put (by decide) _⟩
    · rw [State.get_put_ne _ _ (by decide) (by decide), resW]
    · rw [State.get_put_reg _ _ (by decide), offsW]
    · rw [State.get_put_reg _ _ (by rw [stale]; decide), staleW]
  · exact ⟨resW, offsW, staleW, onlyW⟩

theorem gives_meas_accepted (taken : Takes s r Reg.TIM_MEAS_CTRL) (is : getBits Fld.TIM_MEAS_CTRL_SRC v = src) (low : src < 3) (on : s.bit Fld.TIM_CFG_SRCEN src = true)
    (noStep : getBits Fld.TIM_MEAS_CTRL_STEP v = 0) (noInit : getBits Fld.TIM_MEAS_CTRL_INIT v = 0) (trusted : s.get (Fld.TIM_SRCSTAT_SUSPECT.sub src) = 0)
    (near : (measOff s).natAbs ≤ s.thresh) : Gives (.measurementCommit r v) s fun t => t.get Fld.TIM_STAT_LASTRES = 0
        ∧ t.get Fld.TIM_OFFS_OFFS = unsigned 32 (clampS 32 ((measOff s).tdiv nsU))
        ∧ t.get (Fld.TIM_SRCSTAT_STALE.sub src) = (if s.portUp src = true then 0 else s.get (Fld.TIM_SRCSTAT_STALE.sub src))
        ∧ t.mem = s.mem ∧ SameRegs [Reg.TIM_STAT, Reg.TIM_OFFS, Reg.TIM_SRCSTAT] s t := by
  obtain ⟨tim, ran⟩ := exec_measurementCommit taken is low
  have kept := (TimKept.refl { s with resp := { err := false, data := 0 }, tim := tim }).acceptMeas src (measOff s)
  obtain ⟨res, offs, stale, same⟩ := acceptMeas_facts (off := measOff s) { s with resp := { err := false, data := 0 }, tim := tim } low
  rw [decide_eq_false (by omega), decide_eq_false (by omega), judgeNoted_rest (s := { s with resp := _, tim := tim }) low on trusted, judgeRest,
    decide_eq_false (show ¬State.thresh { s with resp := { err := false, data := 0 }, tim := tim } < (measOff s).natAbs from Nat.not_lt.2 near), Bool.and_false,
    if_neg Bool.false_ne_true, if_neg (by decide)] at ran
  exact Gives.of_eq ran ⟨res, offs, stale, by rw [kept.eq], same⟩

/-- The marks of a jump refused, before its notice. -/
def jumpMarked (src : Nat) (s : State) : State :=
  setSuspect src true 0 (((s.put Fld.TIM_STAT_JUMPREF 1).inc (Fld.TIM_CNTn_COUNT.i 0)).put Fld.TIM_STAT_LASTRES 2)

theorem refuseJump_eq (src : Nat) (s : State) : refuseJump src s =
    if ((jumpMarked src s).raiseSev 0x441 (severityOf 0x441) 0xFF src true).get Fld.TIM_CFG_SEL = src then ((jumpMarked src s).raiseSev 0x441 (severityOf 0x441) 0xFF src true).enterHold
    else (jumpMarked src s).raiseSev 0x441 (severityOf 0x441) 0xFF src true := rfl

theorem jumpMarked_facts (s : State) (low : src < 3) : (jumpMarked src s).get Fld.TIM_STAT_LASTRES = 2 ∧ (jumpMarked src s).get Fld.TIM_STAT_JUMPREF = 1
    ∧ (jumpMarked src s).get (Fld.TIM_SRCSTAT_SUSPECT.sub src) = 1 ∧ (jumpMarked src s).rd Reg.TIM_OFFS = s.rd Reg.TIM_OFFS := by
  have sus : (Fld.TIM_SRCSTAT_SUSPECT.sub src).reg = Reg.TIM_SRCSTAT := rfl
  have good : (Fld.TIM_SRCSTAT_GOOD.sub src).reg = Reg.TIM_SRCSTAT := rfl
  have fits := srcstat_fits ⟨src, by omega⟩
  have apart := srcstat_apart ⟨src, by omega⟩
  rw [jumpMarked, setSuspect, if_pos (by omega), State.inc, State.add]
  refine ⟨?_, ?_, ?_, ?_⟩
  · rw [State.get_put_reg _ _ (by rw [good]; decide), State.get_put_reg _ _ (by rw [sus]; decide), State.get_put_same _ _ _ (by decide)]
    rfl
  · rw [State.get_put_reg _ _ (by rw [good]; decide), State.get_put_reg _ _ (by rw [sus]; decide), State.get_put_ne _ _ (by decide) (by decide), State.get_put_reg _ _ (by decide),
      State.get_put_same _ _ _ (by decide)]
    rfl
  · rw [State.get_eq_rfGet, State.put_regs, rfGet_rfPut_apart _ _ fits.2.2 apart, State.put_regs, rfGet_rfPut_self _ _ fits.2.1]
    rfl
  · rw [State.rd_put_ne _ _ (by rw [good]; decide), State.rd_put_ne _ _ (by rw [sus]; decide), State.rd_put_ne _ _ (by decide), State.rd_put_ne _ _ (by decide),
      State.rd_put_ne _ _ (by decide)]

/-- A field of TIM_STAT beside the state. -/
theorem enterHold_get (s : State) {f : Field} (stat : f.reg = Reg.TIM_STAT) (apart : Fld.TIM_STAT_STATE.apart f = true) : s.enterHold.get f = s.get f := by
  rw [enterHold_eq]
  split
  · rfl
  · rw [State.get, holdBegun_rd (by rw [stat]; decide), State.inc, State.add, State.rd_put_ne _ _ (by rw [stat]; decide), ← State.get, State.get_eq_rfGet, State.put_regs,
      rfGet_rfPut_apart _ _ (by decide) apart, State.get_eq_rfGet]

theorem refuseJump_facts (s : State) (low : src < 3) : (refuseJump src s).get Fld.TIM_STAT_LASTRES = 2 ∧ (refuseJump src s).get Fld.TIM_STAT_JUMPREF = 1
    ∧ (refuseJump src s).get (Fld.TIM_SRCSTAT_SUSPECT.sub src) = 1 ∧ (refuseJump src s).rd Reg.TIM_OFFS = s.rd Reg.TIM_OFFS := by
  obtain ⟨res, jump, sus, offs⟩ := jumpMarked_facts s low
  have told {f : Field} (quiet : raiseTouches f.reg = false) : ((jumpMarked src s).raiseSev 0x441 (severityOf 0x441) 0xFF src true).get f = (jumpMarked src s).get f :=
    State.raiseSev_get _ _ _ _ _ quiet
  have tellOffs : ((jumpMarked src s).raiseSev 0x441 (severityOf 0x441) 0xFF src true).rd Reg.TIM_OFFS = s.rd Reg.TIM_OFFS :=
    (State.raiseSev_rd _ _ _ _ _ (by decide)).trans offs
  have suspect : (Fld.TIM_SRCSTAT_SUSPECT.sub src).reg = Reg.TIM_SRCSTAT := rfl
  rw [refuseJump_eq]
  split
  · refine ⟨?_, ?_, ?_, ?_⟩
    · rw [enterHold_get _ rfl (by decide), told (by decide), res]
    · rw [enterHold_get _ rfl (by decide), told (by decide), jump]
    · rw [State.get, suspect, enterHold_rd (by decide) (by decide) (by decide), ← suspect, ← State.get, told (by rw [suspect]; decide), sus]
    · rw [enterHold_rd (by decide) (by decide) (by decide), tellOffs]
  · exact ⟨(told (by decide)).trans res, (told (by decide)).trans jump, (told (by rw [suspect]; decide)).trans sus, tellOffs⟩

theorem gives_meas_jump (taken : Takes s r Reg.TIM_MEAS_CTRL) (is : getBits Fld.TIM_MEAS_CTRL_SRC v = src) (low : src < 3) (on : s.bit Fld.TIM_CFG_SRCEN src = true)
    (noStep : getBits Fld.TIM_MEAS_CTRL_STEP v = 0) (trusted : s.get (Fld.TIM_SRCSTAT_SUSPECT.sub src) = 0) (stepped : s.get Fld.TIM_STAT_STEPPED = 1)
    (far : s.thresh < (measOff s).natAbs) : Gives (.measurementCommit r v) s fun t => t.get Fld.TIM_STAT_LASTRES = 2
        ∧ t.get Fld.TIM_STAT_JUMPREF = 1 ∧ t.get (Fld.TIM_SRCSTAT_SUSPECT.sub src) = 1 ∧ t.rd Reg.TIM_OFFS = s.rd Reg.TIM_OFFS ∧ t.mem = s.mem := by
  obtain ⟨tim, ran⟩ := exec_measurementCommit taken is low
  have kept := (TimKept.refl { s with resp := { err := false, data := 0 }, tim := tim }).refuseJump src
  obtain ⟨res, jump, sus, offs⟩ := refuseJump_facts { s with resp := { err := false, data := 0 }, tim := tim } low
  rw [decide_eq_false (by omega), judgeNoted_rest (s := { s with resp := _, tim := tim }) low on trusted, judgeRest,
    decide_eq_true (show State.thresh { s with resp := { err := false, data := 0 }, tim := tim } < (measOff s).natAbs from far),
    show State.flag { s with resp := { err := false, data := 0 }, tim := tim } Fld.TIM_STAT_STEPPED = true from State.flag_of_get_one stepped, if_pos (by decide)] at ran
  exact Gives.of_eq ran ⟨res, jump, sus, offs, by rw [kept.eq]⟩

theorem gives_meas_off (taken : Takes s r Reg.TIM_MEAS_CTRL) (is : getBits Fld.TIM_MEAS_CTRL_SRC v = src) (low : src < 3) (off_ : s.bit Fld.TIM_CFG_SRCEN src = false) :
    Gives (.measurementCommit r v) s fun t => t.get Fld.TIM_STAT_LASTRES = 6 ∧ t.mem = s.mem ∧ SameRegs [Reg.TIM_STAT] s t := by
  obtain ⟨tim, ran⟩ := exec_measurementCommit taken is low
  rw [judgeNoted_off (s := { s with resp := _, tim := tim }) low off_, State.put_eq] at ran
  refine Gives.of_eq ran ⟨?_, rfl, ((RfSame.refl _ s.regs).put (by decide) _).sameRegs⟩
  rw [State.get_eq_rfGet]
  exact rfGet_rfPut_self _ _ (by decide)

end

end

/-- Settles O28. -/
theorem timeSources : Obligations.TimeSources := by
  unfold Obligations.TimeSources
  exact ⟨fun s refok => gives_linkUp refok, fun s refok => gives_linkDown refok, fun s n fresh other => gives_sourceStale n fresh other,
    fun s r v taken => ⟨fun low off => gives_meas_off taken rfl low off,
      fun low on noStep noInit trusted near => gives_meas_accepted taken rfl low on noStep noInit trusted near,
      fun low on noStep trusted stepped far => gives_meas_jump taken rfl low on noStep trusted stepped far,
      fun low on asks idle allowed => gives_meas_step taken rfl low on asks idle allowed⟩,
    fun s t0 off load due => gives_timeStep due⟩

end Sys2Proof.Machine
end

section
/-!
PROOFS. The filter banks (R102, R103, R131); the settlement of O16.
-/

namespace Sys2Proof.Machine

/-! ### Bits of a field -/

section
variable {l : RegFile} {f g : Field} {n m : Nat}

/-- A register file with one bit of a field set. -/
def rfSetBit (f : Field) (n : Nat) (l : RegFile) : RegFile := rfPut l f (rfGet l f ||| 2 ^ n)

/-- A register file with one bit of a field cleared. -/
def rfClrBit (f : Field) (n : Nat) (l : RegFile) : RegFile := rfPut l f (if bitOf (rfGet l f) n then rfGet l f - 2 ^ n else rfGet l f)

theorem State.setBit_eq (s : State) (f : Field) (n : Nat) : s.setBit f n = { s with regs := rfSetBit f n s.regs } := by
  rw [State.setBit, State.orF, State.put_eq, State.get_eq_rfGet, rfSetBit]

theorem State.clrBit_eq (s : State) (f : Field) (n : Nat) : s.clrBit f n = { s with regs := rfClrBit f n s.regs } := by
  rw [State.clrBit, State.put_eq, State.get_eq_rfGet, rfClrBit]

theorem bitOf_rfSetBit (fits : f.fits = true) (inside : n < f.width) : bitOf (rfGet (rfSetBit f n l) f) m = (bitOf (rfGet l f) m || decide (m = n)) := by
  have small : rfGet l f ||| 2 ^ n < 2 ^ f.width := Nat.or_lt_two_pow (rfGet_lt l) (Nat.pow_lt_pow_right (by decide) inside)
  rw [rfSetBit, rfGet_rfPut_self _ _ fits, Nat.mod_eq_of_lt small, bitOf_eq_testBit, bitOf_eq_testBit, Nat.testBit_or, Nat.testBit_two_pow]
  simp [eq_comm]

theorem bitOf_rfClrBit (fits : f.fits = true) : bitOf (rfGet (rfClrBit f n l) f) n = false := by
  have small : rfGet l f < 2 ^ f.width := rfGet_lt l
  rw [rfClrBit, rfGet_rfPut_self _ _ fits]
  by_cases on : bitOf (rfGet l f) n = true
  · have odd : rfGet l f / 2 ^ n % 2 = 1 := of_decide_eq_true on
    have down : (rfGet l f - 2 ^ n) / 2 ^ n = rfGet l f / 2 ^ n - 1 := by
      have less := Nat.sub_mul_div (rfGet l f) (2 ^ n) 1
      rwa [Nat.mul_one] at less
    rw [if_pos on, Nat.mod_eq_of_lt (Nat.lt_of_le_of_lt (Nat.sub_le _ _) small), bitOf, down]
    exact decide_eq_false (by omega)
  · rw [if_neg on, Nat.mod_eq_of_lt small]
    exact Bool.eq_false_iff.2 on

theorem rfGet_rfSetBit_apart (fits : f.fits = true) (apart : f.apart g = true) : rfGet (rfSetBit f n l) g = rfGet l g := rfGet_rfPut_apart _ _ fits apart

theorem rfGet_rfClrBit_apart (fits : f.fits = true) (apart : f.apart g = true) : rfGet (rfClrBit f n l) g = rfGet l g := rfGet_rfPut_apart _ _ fits apart

end

/-! ### Requests (R102, R131) -/

/-- The registers after a request for one carrier: COLLAPSED where one is pending already, and PEND. -/
def requestedBit (p c : Field) (l : RegFile) (n : Nat) : RegFile := rfSetBit p n (if bitOf (rfGet l p) n then rfSetBit c n l else l)

/-- The registers after the requests for the carriers of a mask. -/
def requestedBits (p c : Field) (mask : Nat) (ns : List Nat) (l : RegFile) : RegFile := ns.foldl (fun l n => if bitOf mask n then requestedBit p c l n else l) l

/-- The requests held after those for the carriers of a mask. -/
def requestedSwaps (h : Fin 8) (mask : Nat) (q : SwapReq) (ns : List Nat) (x : Vector (Option SwapReq) 64) : Vector (Option SwapReq) 64 :=
  ns.foldl (fun x n => if bitOf mask n then x.set (idx64 h n) (some q) else x) x

section
variable {l : RegFile} {p c : Field} {mask n m : Nat}

theorem requestedBit_state (p c : Field) (s : State) (n : Nat) : (if s.bit p n then s.setBit c n else s).setBit p n = { s with regs := requestedBit p c s.regs n } := by
  rw [State.setBit_eq, requestedBit, State.bit, State.get_eq_rfGet]
  split
  · rw [State.setBit_eq]
  · rfl

theorem requestedBit_bit (fits : p.fits = true ∧ c.fits = true) (apart : c.apart p = true) (inside : n < p.width) :
    bitOf (rfGet (requestedBit p c l n) p) m = (bitOf (rfGet l p) m || decide (m = n)) := by
  rw [requestedBit, bitOf_rfSetBit fits.1 inside]
  split
  · rw [rfGet_rfSetBit_apart fits.2 apart]
  · rfl

theorem requestedBit_same (together : c.reg = p.reg) : RfSame [p.reg] l (requestedBit p c l n) := by
  rw [requestedBit]
  refine RfSame.put ?_ (List.mem_singleton_self _) _
  split
  · exact (RfSame.refl _ l).put (by rw [together]; exact List.mem_singleton_self _) _
  · exact .refl _ l

theorem requestedBits_bit (fits : p.fits = true ∧ c.fits = true) (apart : c.apart p = true) {ns : List Nat} (inside : ∀ n ∈ ns, n < p.width) (l : RegFile) :
    bitOf (rfGet (requestedBits p c mask ns l) p) m = (bitOf (rfGet l p) m || (decide (m ∈ ns) && bitOf mask m)) := by
  induction ns generalizing l with
  | nil => simp [requestedBits]
  | cons n ns ih =>
    rw [requestedBits, List.foldl_cons, ← requestedBits, ih fun k listed => inside k (List.mem_cons_of_mem _ listed)]
    by_cases named : bitOf mask n = true
    · rw [if_pos named, requestedBit_bit fits apart (inside n (List.mem_cons_self ..))]
      by_cases same : m = n
      · subst same
        simp [named]
      · simp [same]
    · rw [if_neg named]
      by_cases same : m = n
      · subst same
        simp [named]
      · simp [same]

theorem requestedBits_same (together : c.reg = p.reg) (ns : List Nat) (l : RegFile) : RfSame [p.reg] l (requestedBits p c mask ns l) := by
  induction ns generalizing l with
  | nil => exact .refl _ l
  | cons n ns ih =>
    refine RfSame.trans ?_ (ih _)
    dsimp only
    split
    · exact requestedBit_same together
    · exact .refl _ l

theorem requestedSwaps_named {h : Fin 8} {q : SwapReq} {ns : List Nat} (x : Vector (Option SwapReq) 64) (named : bitOf mask n = true)
    (listed : n ∈ ns ∨ x[idx64 h n] = some q) : (requestedSwaps h mask q ns x)[idx64 h n] = some q := by
  induction ns generalizing x with
  | nil => exact listed.resolve_left List.not_mem_nil
  | cons m ns ih =>
    refine ih _ ?_
    dsimp only
    rcases listed with there | held
    · rcases List.mem_cons.1 there with rfl | later
      · rw [if_pos named]
        exact .inr (Vector.getElem_set_self _)
      · exact .inl later
    · right
      split
      · rw [Fin.getElem_fin, Vector.getElem_set]
        split
        · rfl
        · exact held
      · exact held

end

/-- The write's choice of a direction's requests. -/
def State.withRequest (rx : Bool) (s : State) (h : Fin 8) (n : Nat) (q : SwapReq) : State :=
  if rx then { s with rxSwap := s.rxSwap.set (idx64 h n) (some q) } else { s with txSwap := s.txSwap.set (idx64 h n) (some q) }

/-- One carrier's request, as the write makes it. -/
def requestStep (rx : Bool) (p c : Field) (h : Fin 8) (wc mask : Nat) (s : State) (n : Nat) : State :=
  if bitOf mask n then
    let s := (if s.bit p n then s.setBit c n else s).setBit p n
    s.withRequest rx h n (s.swapReq wc 0)
  else s

theorem fswapWrite_tx (h : Fin 8) (v : Word) (s : State) (taken : getBits Fld.TXC_FSWAP_WHEN v ≠ 3) : fswapWrite false h v s =
    (List.range 8).foldl (requestStep false (Fld.TXC_FSTAT_PEND.h h) (Fld.TXC_FSTAT_COLLAPSED.h h) h (getBits Fld.TXC_FSWAP_WHEN v) (getBits Fld.TXC_FSWAP_CARMASK v)) s := by
  rw [fswapWrite]
  dsimp only
  rw [if_neg taken]
  rfl

theorem fswapWrite_rx (h : Fin 8) (v : Word) (s : State) (taken : getBits Fld.TXC_FSWAP_WHEN v ≠ 3) : fswapWrite true h v s =
    (List.range 8).foldl (requestStep true (Fld.RXC_FSTAT_PEND.h h) (Fld.RXC_FSTAT_COLLAPSED.h h) h (getBits Fld.TXC_FSWAP_WHEN v) (getBits Fld.TXC_FSWAP_CARMASK v)) s := by
  rw [fswapWrite]
  dsimp only
  rw [if_neg taken]
  rfl

/-- The requests for the transmit carriers of a mask. -/
theorem txRequests_eq (p c : Field) (h : Fin 8) (wc mask : Nat) (ns : List Nat) (s : State) : ns.foldl (requestStep false p c h wc mask) s
      = { s with regs := requestedBits p c mask ns s.regs, txSwap := requestedSwaps h mask (s.swapReq wc 0) ns s.txSwap } := by
  induction ns generalizing s with
  | nil => rfl
  | cons n ns ih =>
    rw [List.foldl_cons, ih, requestStep]
    dsimp only
    rw [requestedBit_state, State.withRequest, if_neg Bool.false_ne_true, requestedBits, requestedBits, requestedSwaps, requestedSwaps, List.foldl_cons, List.foldl_cons]
    by_cases named : bitOf mask n = true
    · rw [if_pos named, if_pos named, if_pos named]
      rfl
    · rw [if_neg named, if_neg named, if_neg named]

/-- The requests for the receive carriers of a mask. -/
theorem rxRequests_eq (p c : Field) (h : Fin 8) (wc mask : Nat) (ns : List Nat) (s : State) : ns.foldl (requestStep true p c h wc mask) s
      = { s with regs := requestedBits p c mask ns s.regs, rxSwap := requestedSwaps h mask (s.swapReq wc 0) ns s.rxSwap } := by
  induction ns generalizing s with
  | nil => rfl
  | cons n ns ih =>
    rw [List.foldl_cons, ih, requestStep]
    dsimp only
    rw [requestedBit_state, State.withRequest, if_pos rfl, requestedBits, requestedBits, requestedSwaps, requestedSwaps, List.foldl_cons, List.foldl_cons]
    by_cases named : bitOf mask n = true
    · rw [if_pos named, if_pos named, if_pos named]
      rfl
    · rw [if_neg named, if_neg named, if_neg named]

theorem fits_window (f : Field) (h : Nat) : (f.h h).fits = f.fits := rfl

theorem State.swapReq_congr {s t : State} (now : t.now = s.now) (wc xf : Nat) : t.swapReq wc xf = s.swapReq wc xf := by
  rw [State.swapReq, State.swapReq, now]

theorem swapReq_ok (s : State) (wc xf : Nat) : s.ok.swapReq wc xf = s.swapReq wc xf := State.swapReq_congr rfl wc xf

section
variable {s : State} {r : Req} {h n : Fin 8} {v : Word}

/-- What the requests of a mask leave in a hamlet's status register, the register file named. -/
theorem requestedBits_named {p c : Field} (fits : p.fits = true ∧ c.fits = true) (apart : c.apart p = true) (together : c.reg = p.reg) (wide : p.width = 8) {mask : Nat}
    (named : bitOf mask n = true) (l : RegFile) : bitOf (rfGet (requestedBits p c mask (List.range 8) l) p) n = true
      ∧ RfSame [p.reg] l (requestedBits p c mask (List.range 8) l) := by
  refine ⟨?_, requestedBits_same together _ l⟩
  rw [requestedBits_bit fits apart (fun k listed => wide ▸ List.mem_range.1 listed), named, decide_eq_true (List.mem_range.2 n.isLt)]
  simp

theorem gives_txRequest (taken : Takes s r (hamletBase h + Reg.TXC_FSWAP)) (code : getBits Fld.TXC_FSWAP_WHEN v ≠ 3) (named : bitOf (getBits Fld.TXC_FSWAP_CARMASK v) n = true) :
    Gives (.txFilterSwapRequest r h v) s fun t => t.txSwap[idx64 h n] = some (s.swapReq (getBits Fld.TXC_FSWAP_WHEN v) 0)
      ∧ t.bit (Fld.TXC_FSTAT_PEND.h h) n = true ∧ t = { s with resp := { err := false, data := 0 }, regs := t.regs, txSwap := t.txSwap }
      ∧ SameRegs [hamletBase h + Reg.TXC_FSTAT] s t := by
  have ran : exec (.txFilterSwapRequest r h v) s = .next (fswapWrite false h v s.ok) := by
    show execTxFilterSwapRequest r h v s = _
    rw [execTxFilterSwapRequest, regCmd_ok taken]
  rw [fswapWrite_tx h v s.ok code] at ran
  have fits : (Fld.TXC_FSTAT_PEND.h h).fits = true ∧ (Fld.TXC_FSTAT_COLLAPSED.h h).fits = true :=
    ⟨(fits_window _ h).trans (by decide), (fits_window _ h).trans (by decide)⟩
  have apart : (Fld.TXC_FSTAT_COLLAPSED.h h).apart (Fld.TXC_FSTAT_PEND.h h) = true := (Field.apart_h _ _ h).trans (by decide)
  have reg : (Fld.TXC_FSTAT_PEND.h h).reg = hamletBase h + Reg.TXC_FSTAT := Field.reg_h_eq h rfl
  have together : (Fld.TXC_FSTAT_COLLAPSED.h h).reg = (Fld.TXC_FSTAT_PEND.h h).reg := Field.reg_h h rfl
  have wide : (Fld.TXC_FSTAT_PEND.h h).width = 8 := rfl
  generalize Fld.TXC_FSTAT_PEND.h h = p at *
  generalize Fld.TXC_FSTAT_COLLAPSED.h h = c at *
  obtain ⟨bit, same⟩ := requestedBits_named fits apart together wide named s.regs
  have held := requestedSwaps_named (h := h) (q := s.swapReq (getBits Fld.TXC_FSWAP_WHEN v) 0) s.txSwap named (.inl (List.mem_range.2 n.isLt))
  rw [txRequests_eq, swapReq_ok, State.ok] at ran
  dsimp only at ran
  rw [reg] at same
  generalize requestedBits p c (getBits Fld.TXC_FSWAP_CARMASK v) (List.range 8) s.regs = regs at ran bit same
  generalize requestedSwaps h (getBits Fld.TXC_FSWAP_CARMASK v) (s.swapReq (getBits Fld.TXC_FSWAP_WHEN v) 0) (List.range 8) s.txSwap = swaps at ran held
  refine Gives.of_eq ran ⟨held, ?_, rfl, RfSame.sameRegs same⟩
  rw [State.bit, State.get_eq_rfGet]
  exact bit

theorem gives_rxRequest (taken : Takes s r (hamletBase h + Reg.RXC_FSWAP)) (code : getBits Fld.TXC_FSWAP_WHEN v ≠ 3) (named : bitOf (getBits Fld.TXC_FSWAP_CARMASK v) n = true) :
    Gives (.rxFilterSwapRequest r h v) s fun t => t.rxSwap[idx64 h n] = some (s.swapReq (getBits Fld.TXC_FSWAP_WHEN v) 0)
      ∧ t.bit (Fld.RXC_FSTAT_PEND.h h) n = true ∧ t = { s with resp := { err := false, data := 0 }, regs := t.regs, rxSwap := t.rxSwap }
      ∧ SameRegs [hamletBase h + Reg.RXC_FSTAT] s t := by
  have ran : exec (.rxFilterSwapRequest r h v) s = .next (fswapWrite true h v s.ok) := by
    show execRxFilterSwapRequest r h v s = _
    rw [execRxFilterSwapRequest, regCmd_ok taken]
  rw [fswapWrite_rx h v s.ok code] at ran
  have fits : (Fld.RXC_FSTAT_PEND.h h).fits = true ∧ (Fld.RXC_FSTAT_COLLAPSED.h h).fits = true :=
    ⟨(fits_window _ h).trans (by decide), (fits_window _ h).trans (by decide)⟩
  have apart : (Fld.RXC_FSTAT_COLLAPSED.h h).apart (Fld.RXC_FSTAT_PEND.h h) = true := (Field.apart_h _ _ h).trans (by decide)
  have reg : (Fld.RXC_FSTAT_PEND.h h).reg = hamletBase h + Reg.RXC_FSTAT := Field.reg_h_eq h rfl
  have together : (Fld.RXC_FSTAT_COLLAPSED.h h).reg = (Fld.RXC_FSTAT_PEND.h h).reg := Field.reg_h h rfl
  have wide : (Fld.RXC_FSTAT_PEND.h h).width = 8 := rfl
  generalize Fld.RXC_FSTAT_PEND.h h = p at *
  generalize Fld.RXC_FSTAT_COLLAPSED.h h = c at *
  obtain ⟨bit, same⟩ := requestedBits_named fits apart together wide named s.regs
  have held := requestedSwaps_named (h := h) (q := s.swapReq (getBits Fld.TXC_FSWAP_WHEN v) 0) s.rxSwap named (.inl (List.mem_range.2 n.isLt))
  rw [rxRequests_eq, swapReq_ok, State.ok] at ran
  dsimp only at ran
  rw [reg] at same
  generalize requestedBits p c (getBits Fld.TXC_FSWAP_CARMASK v) (List.range 8) s.regs = regs at ran bit same
  generalize requestedSwaps h (getBits Fld.TXC_FSWAP_CARMASK v) (s.swapReq (getBits Fld.TXC_FSWAP_WHEN v) 0) (List.range 8) s.rxSwap = swaps at ran held
  refine Gives.of_eq ran ⟨held, ?_, rfl, RfSame.sameRegs same⟩
  rw [State.bit, State.get_eq_rfGet]
  exact bit

/-! ### The swap (R102, R343) -/

/-- The registers after a swap: PEND clear, the active bank changed, LATE at the fall-back. -/
def swappedBits (p a lf : Field) (late : Bool) (n : Nat) (l : RegFile) : RegFile :=
  let l := rfClrBit p n l
  let l := if bitOf (rfGet l a) n then rfClrBit a n l else rfSetBit a n l
  if late then rfPut l lf 1 else l

theorem swappedBits_facts {p a lf : Field} {late : Bool} {n : Nat} (fits : p.fits = true ∧ a.fits = true ∧ lf.fits = true)
    (apart : p.apart a = true ∧ a.apart p = true ∧ lf.apart a = true ∧ lf.apart p = true) (together : a.reg = p.reg ∧ lf.reg = p.reg) (inside : n < a.width) (l : RegFile) :
    bitOf (rfGet (swappedBits p a lf late n l) a) n = !bitOf (rfGet l a) n ∧ bitOf (rfGet (swappedBits p a lf late n l) p) n = false
    ∧ RfSame [p.reg] l (swappedBits p a lf late n l) := by
  obtain ⟨fitsP, fitsA, fitsL⟩ := fits
  obtain ⟨pa, ap, la, lp⟩ := apart
  obtain ⟨m, is, act, pend, same⟩ : ∃ m, (if bitOf (rfGet (rfClrBit p n l) a) n then rfClrBit a n (rfClrBit p n l) else rfSetBit a n (rfClrBit p n l)) = m
      ∧ bitOf (rfGet m a) n = !bitOf (rfGet l a) n ∧ bitOf (rfGet m p) n = false ∧ RfSame [p.reg] l m := by
    have cleared : RfSame [p.reg] l (rfClrBit p n l) := (RfSame.refl _ l).put (List.mem_singleton_self _) _
    have listed : a.reg ∈ [p.reg] := by rw [together.1]; exact List.mem_singleton_self _
    rw [rfGet_rfClrBit_apart fitsP pa]
    by_cases on : bitOf (rfGet l a) n = true
    · rw [if_pos on]
      refine ⟨_, rfl, ?_, ?_, cleared.put listed _⟩
      · rw [bitOf_rfClrBit fitsA, on]
        rfl
      · rw [rfGet_rfClrBit_apart fitsA ap, bitOf_rfClrBit fitsP]
    · rw [if_neg on]
      refine ⟨_, rfl, ?_, ?_, cleared.put listed _⟩
      · rw [bitOf_rfSetBit fitsA inside, Bool.eq_false_iff.2 on, decide_eq_true rfl, Bool.or_true]
        rfl
      · rw [rfGet_rfSetBit_apart fitsA ap, bitOf_rfClrBit fitsP]
  rw [swappedBits, is]
  split
  · refine ⟨?_, ?_, same.put (by rw [together.2]; exact List.mem_singleton_self _) _⟩
    · rw [rfGet_rfPut_apart _ _ fitsL la, act]
    · rw [rfGet_rfPut_apart _ _ fitsL lp, pend]
  · exact ⟨act, pend, same⟩

/-- A setting kept for the symbols before it, in the hamlet's own data. -/
theorem State.keepWas_eq (s : State) (h : Fin 8) (a : Nat) (w : Word) (d : Nat) : ∃ was, s.keepWas h a w d = { s with tx := s.tx.set h { s.tx[h] with was := was } } := ⟨_, rfl⟩

/-- What a hamlet's data keeps of a setting reads as it was kept. -/
theorem txKept (tx : Vector Tx 8) (h : Fin 8) (was : List SetPend) :
    tx.set h { tx[h] with was := was } = tx.set h { tx[h] with was := (tx.set h { tx[h] with was := was })[h].was } := by
  have kept : (tx.set h { tx[h] with was := was })[h].was = was := congrArg Tx.was (Vector.getElem_set_self _)
  rw [kept]

/-- The swap of one direction at `t`, over the fields of its status register. -/
def swapNow (p a lf : Field) (late : Bool) (h : Fin 8) (n t : Nat) (s : State) : State :=
  let s := ((s.at t).keepWas h a.reg (s.rd a.reg) t).clrBit p n
  let s := if s.bit a n then s.clrBit a n else s.setBit a n
  if late then s.put lf 1 else s

theorem swapNow_eq (p a lf : Field) (late : Bool) (h : Fin 8) (n t : Nat) (s : State) : ∃ was, swapNow p a lf late h n t s =
    { s with now := max s.now t, regs := swappedBits p a lf late n s.regs, tx := s.tx.set h { s.tx[h] with was := was } } := by
  obtain ⟨was, kept⟩ := (s.at t).keepWas_eq h a.reg (s.rd a.reg) t
  refine ⟨was, ?_⟩
  have turned (u : State) : (if u.bit a n then u.clrBit a n else u.setBit a n) = { u with regs := if bitOf (rfGet u.regs a) n then rfClrBit a n u.regs else rfSetBit a n u.regs } := by
    rw [State.bit, State.get_eq_rfGet, State.clrBit_eq, State.setBit_eq]
    split <;> rfl
  have marked (u : State) : (if late then u.put lf 1 else u) = { u with regs := if late then rfPut u.regs lf 1 else u.regs } := by
    rw [State.put_eq]
    split <;> rfl
  rw [swapNow, kept, State.clrBit_eq]
  dsimp only
  rw [turned, marked, State.at]
  rfl

theorem filterSwap_stands (rx : Bool) (late : Bool) (stands : s.clockStops h = true) : filterSwap rx h n late s = s := by rw [filterSwap, if_pos stands]

theorem filterSwap_tx {q : SwapReq} {t0 : Nat} {late : Bool} (waits : s.txSwap[idx64 h n] = some q) (due : s.swapAt h 0 q late = some t0) (runs : s.clockStops h = false) :
    filterSwap false h n late s = { swapNow (Fld.TXC_FSTAT_PEND.h h) (Fld.TXC_FSTAT_ACTIVE.h h) (Fld.TXC_FSTAT_LATE.h h) late h n t0 s with
      txSwap := (swapNow (Fld.TXC_FSTAT_PEND.h h) (Fld.TXC_FSTAT_ACTIVE.h h) (Fld.TXC_FSTAT_LATE.h h) late h n t0 s).txSwap.set (idx64 h n) none } := by
  rw [filterSwap, runs, if_neg Bool.false_ne_true, if_neg Bool.false_ne_true, waits]
  dsimp only
  rw [show b2n false = 0 from rfl, due]
  dsimp only
  rw [if_neg Bool.false_ne_true]
  rfl

theorem filterSwap_rx {q : SwapReq} {t0 : Nat} {late : Bool} (waits : s.rxSwap[idx64 h n] = some q) (due : s.swapAt h 1 q late = some t0) (runs : s.clockStops h = false) :
    filterSwap true h n late s = { swapNow (Fld.RXC_FSTAT_PEND.h h) (Fld.RXC_FSTAT_ACTIVE.h h) (Fld.RXC_FSTAT_LATE.h h) late h n t0 s with
      rxSwap := (swapNow (Fld.RXC_FSTAT_PEND.h h) (Fld.RXC_FSTAT_ACTIVE.h h) (Fld.RXC_FSTAT_LATE.h h) late h n t0 s).rxSwap.set (idx64 h n) none } := by
  rw [filterSwap, runs, if_neg Bool.false_ne_true, if_pos rfl, waits]
  dsimp only
  rw [show b2n true = 1 from rfl, due]
  dsimp only
  rw [if_pos rfl]
  rfl

/-- The command of a swap at its instant, or at the fall-back. -/
theorem exec_filterSwap (rx late : Bool) (h n : Fin 8) (s : State) :
    exec (if late then .filterSwapFallback rx h n else .filterSwap rx h n) s = .next (filterSwap rx h n late s) := by
  cases late <;> rfl

theorem gives_txSwap {q : SwapReq} {t0 : Nat} {late : Bool} (waits : s.txSwap[idx64 h n] = some q) (due : s.swapAt h 0 q late = some t0) (runs : s.clockStops h = false) :
    Gives (if late then .filterSwapFallback false h n else .filterSwap false h n) s fun t =>
      t.bit (Fld.TXC_FSTAT_ACTIVE.h h) n = !s.bit (Fld.TXC_FSTAT_ACTIVE.h h) n ∧ t.bit (Fld.TXC_FSTAT_PEND.h h) n = false
      ∧ t = { s with now := max s.now t0, regs := t.regs, txSwap := s.txSwap.set (idx64 h n) none, tx := s.tx.set h { s.tx[h] with was := t.tx[h].was } }
      ∧ SameRegs [hamletBase h + Reg.TXC_FSTAT] s t := by
  have ran := exec_filterSwap false late h n s
  rw [filterSwap_tx waits due runs] at ran
  have fits : (Fld.TXC_FSTAT_PEND.h h).fits = true ∧ (Fld.TXC_FSTAT_ACTIVE.h h).fits = true ∧ (Fld.TXC_FSTAT_LATE.h h).fits = true :=
    ⟨(fits_window _ h).trans (by decide), (fits_window _ h).trans (by decide), (fits_window _ h).trans (by decide)⟩
  have apart : (Fld.TXC_FSTAT_PEND.h h).apart (Fld.TXC_FSTAT_ACTIVE.h h) = true ∧ (Fld.TXC_FSTAT_ACTIVE.h h).apart (Fld.TXC_FSTAT_PEND.h h) = true
      ∧ (Fld.TXC_FSTAT_LATE.h h).apart (Fld.TXC_FSTAT_ACTIVE.h h) = true ∧ (Fld.TXC_FSTAT_LATE.h h).apart (Fld.TXC_FSTAT_PEND.h h) = true :=
    ⟨(Field.apart_h _ _ h).trans (by decide), (Field.apart_h _ _ h).trans (by decide), (Field.apart_h _ _ h).trans (by decide), (Field.apart_h _ _ h).trans (by decide)⟩
  have reg : (Fld.TXC_FSTAT_PEND.h h).reg = hamletBase h + Reg.TXC_FSTAT := Field.reg_h_eq h rfl
  have together : (Fld.TXC_FSTAT_ACTIVE.h h).reg = (Fld.TXC_FSTAT_PEND.h h).reg ∧ (Fld.TXC_FSTAT_LATE.h h).reg = (Fld.TXC_FSTAT_PEND.h h).reg :=
    ⟨Field.reg_h h rfl, Field.reg_h h rfl⟩
  have wide : (Fld.TXC_FSTAT_ACTIVE.h h).width = 8 := rfl
  generalize Fld.TXC_FSTAT_PEND.h h = p at *
  generalize Fld.TXC_FSTAT_ACTIVE.h h = a at *
  generalize Fld.TXC_FSTAT_LATE.h h = lf at *
  obtain ⟨act, pend, same⟩ := swappedBits_facts (late := late) (n := n.val) fits apart together (by rw [wide]; exact n.isLt) s.regs
  obtain ⟨was, now⟩ := swapNow_eq p a lf late h n t0 s
  rw [now] at ran
  rw [reg] at same
  generalize swappedBits p a lf late n s.regs = regs at ran act pend same
  refine Gives.of_eq ran ⟨?_, ?_, ?_, RfSame.sameRegs same⟩
  · rw [State.bit, State.bit, State.get_eq_rfGet, State.get_eq_rfGet]
    exact act
  · rw [State.bit, State.get_eq_rfGet]
    exact pend
  · exact congrArg (fun x => ({ s with now := max s.now t0, regs := regs, txSwap := s.txSwap.set (idx64 h n) none, tx := x } : State)) (txKept s.tx h was)

theorem gives_rxSwap {q : SwapReq} {t0 : Nat} {late : Bool} (waits : s.rxSwap[idx64 h n] = some q) (due : s.swapAt h 1 q late = some t0) (runs : s.clockStops h = false) :
    Gives (if late then .filterSwapFallback true h n else .filterSwap true h n) s fun t =>
      t.bit (Fld.RXC_FSTAT_ACTIVE.h h) n = !s.bit (Fld.RXC_FSTAT_ACTIVE.h h) n ∧ t.bit (Fld.RXC_FSTAT_PEND.h h) n = false
      ∧ t = { s with now := max s.now t0, regs := t.regs, rxSwap := s.rxSwap.set (idx64 h n) none, tx := s.tx.set h { s.tx[h] with was := t.tx[h].was } }
      ∧ SameRegs [hamletBase h + Reg.RXC_FSTAT] s t := by
  have ran := exec_filterSwap true late h n s
  rw [filterSwap_rx waits due runs] at ran
  have fits : (Fld.RXC_FSTAT_PEND.h h).fits = true ∧ (Fld.RXC_FSTAT_ACTIVE.h h).fits = true ∧ (Fld.RXC_FSTAT_LATE.h h).fits = true :=
    ⟨(fits_window _ h).trans (by decide), (fits_window _ h).trans (by decide), (fits_window _ h).trans (by decide)⟩
  have apart : (Fld.RXC_FSTAT_PEND.h h).apart (Fld.RXC_FSTAT_ACTIVE.h h) = true ∧ (Fld.RXC_FSTAT_ACTIVE.h h).apart (Fld.RXC_FSTAT_PEND.h h) = true
      ∧ (Fld.RXC_FSTAT_LATE.h h).apart (Fld.RXC_FSTAT_ACTIVE.h h) = true ∧ (Fld.RXC_FSTAT_LATE.h h).apart (Fld.RXC_FSTAT_PEND.h h) = true :=
    ⟨(Field.apart_h _ _ h).trans (by decide), (Field.apart_h _ _ h).trans (by decide), (Field.apart_h _ _ h).trans (by decide), (Field.apart_h _ _ h).trans (by decide)⟩
  have reg : (Fld.RXC_FSTAT_PEND.h h).reg = hamletBase h + Reg.RXC_FSTAT := Field.reg_h_eq h rfl
  have together : (Fld.RXC_FSTAT_ACTIVE.h h).reg = (Fld.RXC_FSTAT_PEND.h h).reg ∧ (Fld.RXC_FSTAT_LATE.h h).reg = (Fld.RXC_FSTAT_PEND.h h).reg :=
    ⟨Field.reg_h h rfl, Field.reg_h h rfl⟩
  have wide : (Fld.RXC_FSTAT_ACTIVE.h h).width = 8 := rfl
  generalize Fld.RXC_FSTAT_PEND.h h = p at *
  generalize Fld.RXC_FSTAT_ACTIVE.h h = a at *
  generalize Fld.RXC_FSTAT_LATE.h h = lf at *
  obtain ⟨act, pend, same⟩ := swappedBits_facts (late := late) (n := n.val) fits apart together (by rw [wide]; exact n.isLt) s.regs
  obtain ⟨was, now⟩ := swapNow_eq p a lf late h n t0 s
  rw [now] at ran
  rw [reg] at same
  generalize swappedBits p a lf late n s.regs = regs at ran act pend same
  refine Gives.of_eq ran ⟨?_, ?_, ?_, RfSame.sameRegs same⟩
  · rw [State.bit, State.bit, State.get_eq_rfGet, State.get_eq_rfGet]
    exact act
  · rw [State.bit, State.get_eq_rfGet]
    exact pend
  · exact congrArg (fun x => ({ s with now := max s.now t0, regs := regs, rxSwap := s.rxSwap.set (idx64 h n) none, tx := x } : State)) (txKept s.tx h was)

end

/-- Settles O16. -/
theorem filterBanks : Obligations.FilterBanks := by
  unfold Obligations.FilterBanks
  refine ⟨fun s r h n v taken code named => gives_txRequest taken code named, fun s r h n v taken code named => gives_rxRequest taken code named,
    fun s h n q t0 late waits due runs => gives_txSwap waits due runs, fun s h n q t0 late waits due runs => gives_rxSwap waits due runs,
    fun s rx h n stands => ⟨?_, ?_⟩⟩
  · exact congrArg Host.Outcome.next (filterSwap_stands rx false stands)
  · exact congrArg Host.Outcome.next (filterSwap_stands rx true stands)

end Sys2Proof.Machine
end

section
/-!
PROOFS. The pulse bank and the predistorter (R108, R110, R111); the settlement of O17.
-/

namespace Sys2Proof.Machine

/-! ### The pulse bank (R108) -/

section
variable {s : State} {r : Req} {h k : Fin 8} {v : Word} {q : SwapReq} {t0 : Nat} {late : Bool}

/-- The hamlet's transmit data with another request for the pulse bank. -/
def Tx.pulse (x : Tx) (q : Option SwapReq) : Tx := { x with cfr := q }

/-- A request pends; one that pends already makes it collapse. -/
theorem collapse_frame (s : State) (p c : Field) (fits : p.fits = true) (one : p.width = 1) : ∃ regs,
    (if s.flag p then s.put c 1 else s).put p 1 = { s with regs := regs } ∧ rfGet regs p = 1 ∧ (c.reg = p.reg → RfSame [p.reg] s.regs regs) := by
  refine ⟨rfPut (if s.flag p then rfPut s.regs c 1 else s.regs) p 1, ?_, ?_, fun together => ?_⟩
  · rw [State.put_eq, State.put_eq]
    split <;> rfl
  · rw [rfGet_rfPut_self _ _ fits, one]
    rfl
  · refine RfSame.put ?_ (List.mem_singleton_self _) _
    split
    · exact (RfSame.refl _ s.regs).put (by rw [together]; exact List.mem_singleton_self _) _
    · exact .refl _ _

theorem gives_cfrRequest (taken : Takes s r (hamletBase h + Reg.TXC_CFR_SWAP)) (go : getBits Fld.TXC_CFR_SWAP_GO v = 1) (code : getBits Fld.TXC_CFR_SWAP_WHEN v ≠ 3) :
    Gives (.cfrSwapRequest r h v) s fun t => t.get (Fld.TXC_CFR_STAT_PEND.h h) = 1 ∧ t.tx[h].cfr = some (s.swapReq (getBits Fld.TXC_CFR_SWAP_WHEN v) 0)
      ∧ t = { s with resp := { err := false, data := 0 }, regs := t.regs, tx := t.tx } := by
  obtain ⟨regs, shown, pend, _⟩ := collapse_frame s.ok (Fld.TXC_CFR_STAT_PEND.h h) (Fld.TXC_CFR_STAT_COLLAPSED.h h) ((fits_window _ h).trans (by decide)) rfl
  have ran : exec (.cfrSwapRequest r h v) s = .next (cfrSwapWrite h v s.ok) := by
    show execCfrSwapRequest r h v s = _
    rw [execCfrSwapRequest, regCmd_ok taken]
  rw [cfrSwapWrite, if_neg (by omega)] at ran
  dsimp only at ran
  rw [shown] at ran
  dsimp only at ran
  refine Gives.of_eq ran ⟨?_, (congrArg Tx.cfr (Vector.getElem_set_self _)).trans ?_, rfl⟩
  · rw [State.get_eq_rfGet]
    exact pend
  · exact congrArg some (State.swapReq_congr rfl _ _)

/-- The registers after the pulse bank's swap to bank `b`. -/
def pulseSwapped (h : Fin 8) (late : Bool) (b : Nat) (l : RegFile) : RegFile :=
  if late then rfPut (rfPut (rfPut l (Fld.TXC_CFR_STAT_PEND.h h) 0) (Fld.TXC_CFR_STAT_ACTIVE.h h) b) (Fld.TXC_CFR_STAT_LATE.h h) 1
  else rfPut (rfPut l (Fld.TXC_CFR_STAT_PEND.h h) 0) (Fld.TXC_CFR_STAT_ACTIVE.h h) b

theorem pulseSwapped_facts (h : Fin 8) (late : Bool) {b : Nat} (bank : b < 2) (l : RegFile) :
    rfGet (pulseSwapped h late b l) (Fld.TXC_CFR_STAT_ACTIVE.h h) = b ∧ rfGet (pulseSwapped h late b l) (Fld.TXC_CFR_STAT_PEND.h h) = 0 := by
  obtain ⟨m, is, act, pend⟩ : ∃ m, rfPut (rfPut l (Fld.TXC_CFR_STAT_PEND.h h) 0) (Fld.TXC_CFR_STAT_ACTIVE.h h) b = m
      ∧ rfGet m (Fld.TXC_CFR_STAT_ACTIVE.h h) = b ∧ rfGet m (Fld.TXC_CFR_STAT_PEND.h h) = 0 := by
    refine ⟨_, rfl, ?_, ?_⟩
    · rw [rfGet_rfPut_self_h _ _ _ (by decide)]
      exact Nat.mod_eq_of_lt (show b < 2 ^ 1 from bank)
    · rw [rfGet_rfPut_h _ _ _ (by decide) (by decide), rfGet_rfPut_self_h _ _ _ (by decide)]
      rfl
  rw [pulseSwapped, is]
  split
  · rw [rfGet_rfPut_h _ _ _ (by decide) (by decide), rfGet_rfPut_h _ _ _ (by decide) (by decide)]
    exact ⟨act, pend⟩
  · exact ⟨act, pend⟩

theorem put_if (u : State) (c : Bool) (f : Field) (v : Nat) : (if c then u.put f v else u) = { u with regs := if c then rfPut u.regs f v else u.regs } := by
  rw [State.put_eq]
  split <;> rfl

theorem exec_cfrPulseSwap (waits : s.tx[h].cfr = some q) (due : s.swapAt h 0 q late = some t0) (runs : s.clockStops h = false) : ∃ x : Tx,
    exec (.cfrPulseSwap h late) s = .next { s with now := max s.now t0, regs := pulseSwapped h late (1 - s.get (Fld.TXC_CFR_STAT_ACTIVE.h h)) s.regs, tx := s.tx.set h (x.pulse none) } := by
  obtain ⟨was, kept⟩ := (s.at t0).keepWas_eq h (Fld.TXC_CFR_STAT_ACTIVE.h h).reg (s.rd (Fld.TXC_CFR_STAT_ACTIVE.h h).reg) t0
  refine ⟨{ s.tx[h] with was := was }, ?_⟩
  show execCfrPulseSwap h late s = _
  rw [execCfrPulseSwap, runs, if_neg Bool.false_ne_true, waits]
  dsimp only
  rw [due]
  dsimp only
  rw [kept, State.at, pulseSwapped]
  generalize Fld.TXC_CFR_STAT_PEND.h h = p
  generalize Fld.TXC_CFR_STAT_ACTIVE.h h = a
  generalize Fld.TXC_CFR_STAT_LATE.h h = lf
  rw [put_if, State.put_eq, State.put_eq]
  dsimp only
  rw [Vector.set_set, Fin.getElem_fin, Vector.getElem_set_self]
  rfl

theorem gives_cfrPulseSwap (waits : s.tx[h].cfr = some q) (due : s.swapAt h 0 q late = some t0) (runs : s.clockStops h = false) :
    Gives (.cfrPulseSwap h late) s fun t => t.get (Fld.TXC_CFR_STAT_ACTIVE.h h) = 1 - s.get (Fld.TXC_CFR_STAT_ACTIVE.h h)
      ∧ t.get (Fld.TXC_CFR_STAT_PEND.h h) = 0 ∧ t.tx[h].cfr = none ∧ t = { s with now := max s.now t0, regs := t.regs, tx := t.tx } := by
  obtain ⟨x, ran⟩ := exec_cfrPulseSwap waits due runs
  obtain ⟨act, pend⟩ := pulseSwapped_facts h late (b := 1 - s.get (Fld.TXC_CFR_STAT_ACTIVE.h h)) (by omega) s.regs
  generalize pulseSwapped h late (1 - s.get (Fld.TXC_CFR_STAT_ACTIVE.h h)) s.regs = regs at ran act pend
  refine Gives.of_eq ran ⟨?_, ?_, congrArg Tx.cfr (Vector.getElem_set_self _), rfl⟩
  · rw [State.get_eq_rfGet]
    exact act
  · rw [State.get_eq_rfGet]
    exact pend

/-! ### Requests for the predistorter (R111) -/

theorem fits_indexed (f : Field) (k h : Nat) : ((f.i k).h h).fits = f.fits := rfl

/-- A path's data with a request, with a request held, with a fade. -/
def Dpd.asked (x : Dpd) (q : Option SwapReq) : Dpd := { x with pend := q }

def Dpd.holding (x : Dpd) (q : Option SwapReq) : Dpd := { x with held := q }

def Dpd.fading (x : Dpd) (e : Option Nat) (fades : List (Nat × Nat × Nat)) : Dpd := { x with pend := none, fadeEnd := e, fades := fades }

def Dpd.faded (x : Dpd) : Dpd := { x with fadeEnd := none }

theorem dpd_reg {f : Field} (at_ : f.reg = Reg.DPD_STATk ∧ f.step = 0 ∧ f.dims = [4]) (h k : Fin 8) : ((f.i k).h h).reg = hamletBase h + Reg.DPD_STATk + 4 * k := by
  rw [Field.h, Field.i, at_.1, at_.2.2, Nat.add_assoc, Nat.mul_comm]
  rfl

theorem gives_dpdRequest (taken : Takes s r (hamletBase h + Reg.DPD_SWAPk + 4 * k)) (code : getBits Fld.DPD_SWAPk_WHEN v ≠ 3) :
    Gives (.dpdSwapRequest r h k v) s fun t =>
      (s.get ((Fld.DPD_STATk_XF.i k).h h) = 0 → t.get ((Fld.DPD_STATk_PEND.i k).h h) = 1
        ∧ t.dpd[idx64 h k].pend = some (s.swapReq (getBits Fld.DPD_SWAPk_WHEN v) (getBits Fld.DPD_SWAPk_XF v)))
      ∧ (s.get ((Fld.DPD_STATk_XF.i k).h h) ≠ 0 → t.get ((Fld.DPD_STATk_HELD.i k).h h) = 1
        ∧ t.dpd[idx64 h k].held = some (s.swapReq (getBits Fld.DPD_SWAPk_WHEN v) (getBits Fld.DPD_SWAPk_XF v)))
      ∧ t = { s with resp := { err := false, data := 0 }, regs := t.regs, dpd := t.dpd } ∧ SameRegs [hamletBase h + Reg.DPD_STATk + 4 * k] s t := by
  have ran : exec (.dpdSwapRequest r h k v) s = .next (dpdSwapWrite h k v s.ok) := by
    show execDpdSwapRequest r h k v s = _
    rw [execDpdSwapRequest, regCmd_ok taken]
  obtain ⟨held, heldEq, heldShown, heldSame⟩ := collapse_frame s.ok ((Fld.DPD_STATk_HELD.i k).h h) ((Fld.DPD_STATk_COLLAPSED.i k).h h) ((fits_indexed _ k h).trans (by decide)) rfl
  obtain ⟨pend, pendEq, pendShown, pendSame⟩ := collapse_frame s.ok ((Fld.DPD_STATk_PEND.i k).h h) ((Fld.DPD_STATk_COLLAPSED.i k).h h) ((fits_indexed _ k h).trans (by decide)) rfl
  have coll := dpd_reg (f := Fld.DPD_STATk_COLLAPSED) ⟨rfl, rfl, rfl⟩ h k
  have heldReg := dpd_reg (f := Fld.DPD_STATk_HELD) ⟨rfl, rfl, rfl⟩ h k
  have pendReg := dpd_reg (f := Fld.DPD_STATk_PEND) ⟨rfl, rfl, rfl⟩ h k
  have heldSame := heldSame (coll.trans heldReg.symm)
  have pendSame := pendSame (coll.trans pendReg.symm)
  rw [heldReg] at heldSame
  rw [pendReg] at pendSame
  have asked : s.ok.swapReq (getBits Fld.DPD_SWAPk_WHEN v) (getBits Fld.DPD_SWAPk_XF v) = s.swapReq (getBits Fld.DPD_SWAPk_WHEN v) (getBits Fld.DPD_SWAPk_XF v) := swapReq_ok ..
  rw [dpdSwapWrite] at ran
  dsimp only at ran
  rw [if_neg code, heldEq, pendEq, asked] at ran
  by_cases idle : s.get ((Fld.DPD_STATk_XF.i k).h h) = 0
  · rw [show s.ok.flag ((Fld.DPD_STATk_XF.i k).h h) = false from State.flag_of_get_zero idle, if_neg Bool.false_ne_true] at ran
    refine Gives.of_eq ran ⟨fun _ => ⟨?_, congrArg Dpd.pend (Vector.getElem_set_self _)⟩, fun busy => absurd idle busy, rfl, RfSame.sameRegs pendSame⟩
    rw [State.get_eq_rfGet]
    exact pendShown
  · have bit : s.get ((Fld.DPD_STATk_XF.i k).h h) < 2 ^ 1 := s.get_lt ((Fld.DPD_STATk_XF.i k).h h)
    have one : s.get ((Fld.DPD_STATk_XF.i k).h h) = 1 := by omega
    rw [show s.ok.flag ((Fld.DPD_STATk_XF.i k).h h) = true from State.flag_of_get_one one, if_pos rfl] at ran
    refine Gives.of_eq ran ⟨fun free => absurd free idle, fun _ => ⟨?_, congrArg Dpd.held (Vector.getElem_set_self _)⟩, rfl, RfSame.sameRegs heldSame⟩
    rw [State.get_eq_rfGet]
    exact heldShown

/-! ### Fades (R110) -/

/-- The registers when the incoming bank `b` takes over. -/
def bankTaken (p a lf : Field) (late : Bool) (b : Nat) (l : RegFile) : RegFile :=
  if late then rfPut (rfPut (rfPut l a b) p 0) lf 1 else rfPut (rfPut l a b) p 0

/-- A field of a path's predistorter. -/
def dpdField (f : Field) (h k : Fin 8) : Field := (f.i k).h h

theorem dpd_fits (f : Field) (h k : Fin 8) : (dpdField f h k).fits = f.fits := rfl

theorem dpd_apart {f g : Field} (h k : Fin 8) (dims : f.dims = g.dims) (apart : f.apart g = true) : (dpdField f h k).apart (dpdField g h k) = true :=
  (Field.apart_h _ _ h).trans ((Field.apart_i k dims).trans apart)

theorem rfGet_dpd_put {f g : Field} (h k : Fin 8) (v : Nat) (fits : f.fits = true) (dims : f.dims = g.dims) (apart : f.apart g = true) (l : RegFile) :
    rfGet (rfPut l (dpdField f h k) v) (dpdField g h k) = rfGet l (dpdField g h k) := rfGet_rfPut_apart _ _ fits (dpd_apart h k dims apart)

theorem bankTaken_facts (h k : Fin 8) (late : Bool) {b : Nat} (bank : b < 2) (l : RegFile) : ∃ m,
    bankTaken (dpdField Fld.DPD_STATk_PEND h k) (dpdField Fld.DPD_STATk_ACTIVE h k) (dpdField Fld.DPD_STATk_LATE h k) late b l = m
    ∧ rfGet m (dpdField Fld.DPD_STATk_ACTIVE h k) = b ∧ rfGet m (dpdField Fld.DPD_STATk_PEND h k) = 0
    ∧ rfGet m (dpdField Fld.DPD_STATk_XF h k) = rfGet l (dpdField Fld.DPD_STATk_XF h k)
    ∧ RfSame [hamletBase h + Reg.DPD_STATk + 4 * k] l m := by
  have listed {f : Field} (at_ : f.reg = Reg.DPD_STATk ∧ f.step = 0 ∧ f.dims = [4]) : (dpdField f h k).reg ∈ [hamletBase h + Reg.DPD_STATk + 4 * k] := by
    rw [dpdField, dpd_reg at_]
    exact List.mem_singleton_self _
  obtain ⟨m, is, act, pend, fade, same⟩ : ∃ m, rfPut (rfPut l (dpdField Fld.DPD_STATk_ACTIVE h k) b) (dpdField Fld.DPD_STATk_PEND h k) 0 = m
      ∧ rfGet m (dpdField Fld.DPD_STATk_ACTIVE h k) = b ∧ rfGet m (dpdField Fld.DPD_STATk_PEND h k) = 0
      ∧ rfGet m (dpdField Fld.DPD_STATk_XF h k) = rfGet l (dpdField Fld.DPD_STATk_XF h k) ∧ RfSame [hamletBase h + Reg.DPD_STATk + 4 * k] l m := by
    refine ⟨_, rfl, ?_, ?_, ?_, ((RfSame.refl _ l).put (listed ⟨rfl, rfl, rfl⟩) _).put (listed ⟨rfl, rfl, rfl⟩) _⟩
    · rw [rfGet_dpd_put h k 0 (by decide) (by decide) (by decide), rfGet_rfPut_self _ _ ((dpd_fits _ h k).trans (by decide))]
      exact Nat.mod_eq_of_lt (show b < 2 ^ 1 from bank)
    · exact rfGet_rfPut_self _ _ ((dpd_fits _ h k).trans (by decide))
    · rw [rfGet_dpd_put h k 0 (by decide) (by decide) (by decide), rfGet_dpd_put h k b (by decide) (by decide) (by decide)]
  rw [bankTaken, is]
  split
  · refine ⟨_, rfl, ?_, ?_, ?_, same.put (listed ⟨rfl, rfl, rfl⟩) _⟩
    · rw [rfGet_dpd_put h k 1 (by decide) (by decide) (by decide), act]
    · rw [rfGet_dpd_put h k 1 (by decide) (by decide) (by decide), pend]
    · rw [rfGet_dpd_put h k 1 (by decide) (by decide) (by decide), fade]
  · exact ⟨m, rfl, act, pend, fade, same⟩

/-- The start of a fade, over the fields of the path's status register. -/
def fadeOn (p a lf x d : Field) (h : Fin 8) (i : Fin 64) (xf : Nat) (late : Bool) (s : State) : State :=
  let s := (s.put a (1 - s.get a)).put p 0
  let s := if late then s.put lf 1 else s
  let fades := (s.now, fadeLen xf, s.get a) :: s.dpd[i].fades.filter fun f => decide (s.now < f.1 + 5 * msU)
  if xf = 0 then ({ s with dpd := s.dpd.set i { s.dpd[i] with pend := none, fades := fades } }.put d 1).notify h 0xFFF4
  else { s.put x 1 with dpd := s.dpd.set i { s.dpd[i] with pend := none, fadeEnd := some (s.now + fadeLen xf), fades := fades } }

theorem fadeStart_eq (h k : Fin 8) (xf : Nat) (late : Bool) (s : State) : fadeStart h k xf late s =
    fadeOn (dpdField Fld.DPD_STATk_PEND h k) (dpdField Fld.DPD_STATk_ACTIVE h k) (dpdField Fld.DPD_STATk_LATE h k) (dpdField Fld.DPD_STATk_XF h k)
      (dpdField Fld.DPD_STATk_DONE h k) h (idx64 h k) xf late s := rfl

section
variable (p a lf x d : Field) (i : Fin 64) {xf : Nat} (s : State)

theorem bankTaken_state (late : Bool) (b : Nat) : (if late then ((s.put a b).put p 0).put lf 1 else (s.put a b).put p 0) = { s with regs := bankTaken p a lf late b s.regs } := by
  rw [bankTaken, State.put_eq s]
  split
  · rw [State.put_eq, State.put_eq]
  · rw [State.put_eq]

/-- A fade of some length begins. -/
theorem fadeOn_long (h : Fin 8) (late : Bool) (long : xf ≠ 0) : ∃ fades, fadeOn p a lf x d h i xf late s =
    { s with regs := rfPut (bankTaken p a lf late (1 - s.get a) s.regs) x 1, dpd := s.dpd.set i (s.dpd[i].fading (some (s.now + fadeLen xf)) fades) } := by
  rw [fadeOn]
  dsimp only
  rw [if_neg long, bankTaken_state]
  exact ⟨_, by rw [State.put_eq]; rfl⟩

/-- With XF = 0 the banks change between two samples: the fade is over at once (log 40). -/
theorem fadeOn_none (h : Fin 8) (late : Bool) (room : s.evq[h].length < 32) : ∃ fades, fadeOn p a lf x d h i 0 late s =
    { s with regs := rfPut (bankTaken p a lf late (1 - s.get a) s.regs) d 1, dpd := s.dpd.set i (s.dpd[i].fading s.dpd[i].fadeEnd fades),
             evq := s.evq.set h (s.evq[h] ++ [0xFFF4]) } := by
  rw [fadeOn]
  dsimp only
  rw [if_pos rfl, bankTaken_state]
  rw [State.put_eq, State.notify, if_pos room]
  exact ⟨_, rfl⟩

end

theorem exec_dpdFadeStart (waits : s.dpd[idx64 h k].pend = some q) (due : s.swapAt h 0 q late = some t0) (runs : s.clockStops h = false) :
    exec (.dpdFadeStart h k late) s = .next (fadeStart h k q.xf late (s.at t0)) := by
  show execDpdFadeStart h k late s = _
  rw [execDpdFadeStart, runs, if_neg Bool.false_ne_true, waits]
  dsimp only
  rw [due]

theorem gives_fade_long (waits : s.dpd[idx64 h k].pend = some q) (due : s.swapAt h 0 q late = some t0) (runs : s.clockStops h = false) (long : q.xf ≠ 0) :
    Gives (.dpdFadeStart h k late) s fun t => t.get ((Fld.DPD_STATk_ACTIVE.i k).h h) = 1 - s.get ((Fld.DPD_STATk_ACTIVE.i k).h h)
      ∧ t.get ((Fld.DPD_STATk_XF.i k).h h) = 1 ∧ t.get ((Fld.DPD_STATk_PEND.i k).h h) = 0
      ∧ t.dpd[idx64 h k].pend = none ∧ t.dpd[idx64 h k].fadeEnd = some (max s.now t0 + fadeLen q.xf)
      ∧ t = { s with now := max s.now t0, regs := t.regs, dpd := t.dpd } ∧ SameRegs [hamletBase h + Reg.DPD_STATk + 4 * k] s t := by
  have ran := exec_dpdFadeStart waits due runs
  obtain ⟨fades, is⟩ := fadeOn_long (dpdField Fld.DPD_STATk_PEND h k) (dpdField Fld.DPD_STATk_ACTIVE h k) (dpdField Fld.DPD_STATk_LATE h k) (dpdField Fld.DPD_STATk_XF h k)
    (dpdField Fld.DPD_STATk_DONE h k) (idx64 h k) (s.at t0) h late long
  rw [fadeStart_eq, is, State.get_at, State.at] at ran
  dsimp only at ran
  obtain ⟨m, taken, act, pend, _, same⟩ := bankTaken_facts h k late (b := 1 - s.get (dpdField Fld.DPD_STATk_ACTIVE h k)) (by omega) s.regs
  rw [taken] at ran
  obtain ⟨l, is, actL, pendL, fadeL, sameL⟩ : ∃ l, rfPut m (dpdField Fld.DPD_STATk_XF h k) 1 = l ∧ rfGet l (dpdField Fld.DPD_STATk_ACTIVE h k) = 1 - s.get (dpdField Fld.DPD_STATk_ACTIVE h k)
      ∧ rfGet l (dpdField Fld.DPD_STATk_PEND h k) = 0 ∧ rfGet l (dpdField Fld.DPD_STATk_XF h k) = 1 ∧ RfSame [hamletBase h + Reg.DPD_STATk + 4 * k] s.regs l := by
    refine ⟨_, rfl, ?_, ?_, rfGet_rfPut_self _ _ ((dpd_fits _ h k).trans (by decide)), same.put (by rw [dpdField, dpd_reg ⟨rfl, rfl, rfl⟩]; exact List.mem_singleton_self _) _⟩
    · rw [rfGet_dpd_put h k 1 (by decide) (by decide) (by decide), act]
    · rw [rfGet_dpd_put h k 1 (by decide) (by decide) (by decide), pend]
  rw [is] at ran
  refine Gives.of_eq ran ⟨?_, ?_, ?_, congrArg Dpd.pend (Vector.getElem_set_self _), congrArg Dpd.fadeEnd (Vector.getElem_set_self _), rfl, RfSame.sameRegs sameL⟩
  all_goals rw [State.get_eq_rfGet]
  · exact actL
  · exact fadeL
  · exact pendL

theorem gives_fade_none (waits : s.dpd[idx64 h k].pend = some q) (due : s.swapAt h 0 q late = some t0) (runs : s.clockStops h = false) (none_ : q.xf = 0)
    (room : s.evq[h].length < 32) :
    Gives (.dpdFadeStart h k late) s fun t => t.get ((Fld.DPD_STATk_ACTIVE.i k).h h) = 1 - s.get ((Fld.DPD_STATk_ACTIVE.i k).h h)
      ∧ t.get ((Fld.DPD_STATk_XF.i k).h h) = s.get ((Fld.DPD_STATk_XF.i k).h h) ∧ t.get ((Fld.DPD_STATk_DONE.i k).h h) = 1 ∧ t.dpd[idx64 h k].pend = none
      ∧ t.evq[h] = s.evq[h] ++ [0xFFF4] ∧ t = { s with now := max s.now t0, regs := t.regs, dpd := t.dpd, evq := t.evq } := by
  have ran := exec_dpdFadeStart waits due runs
  obtain ⟨fades, is⟩ := fadeOn_none (dpdField Fld.DPD_STATk_PEND h k) (dpdField Fld.DPD_STATk_ACTIVE h k) (dpdField Fld.DPD_STATk_LATE h k) (dpdField Fld.DPD_STATk_XF h k)
    (dpdField Fld.DPD_STATk_DONE h k) (idx64 h k) (s.at t0) h late room
  rw [none_, fadeStart_eq, is, State.get_at, State.at] at ran
  dsimp only at ran
  obtain ⟨m, taken, act, _, fade, _⟩ := bankTaken_facts h k late (b := 1 - s.get (dpdField Fld.DPD_STATk_ACTIVE h k)) (by omega) s.regs
  rw [taken] at ran
  obtain ⟨l, is, actL, fadeL, doneL⟩ : ∃ l, rfPut m (dpdField Fld.DPD_STATk_DONE h k) 1 = l ∧ rfGet l (dpdField Fld.DPD_STATk_ACTIVE h k) = 1 - s.get (dpdField Fld.DPD_STATk_ACTIVE h k)
      ∧ rfGet l (dpdField Fld.DPD_STATk_XF h k) = s.get (dpdField Fld.DPD_STATk_XF h k) ∧ rfGet l (dpdField Fld.DPD_STATk_DONE h k) = 1 := by
    refine ⟨_, rfl, ?_, ?_, rfGet_rfPut_self _ _ ((dpd_fits _ h k).trans (by decide))⟩
    · rw [rfGet_dpd_put h k 1 (by decide) (by decide) (by decide), act]
    · rw [rfGet_dpd_put h k 1 (by decide) (by decide) (by decide), fade, State.get_eq_rfGet]
  rw [is] at ran
  refine Gives.of_eq ran ⟨?_, ?_, ?_, congrArg Dpd.pend (Vector.getElem_set_self _), Vector.getElem_set_self _, rfl⟩
  · rw [State.get_eq_rfGet]
    exact actL
  · rw [State.get_eq_rfGet]
    exact fadeL
  · rw [State.get_eq_rfGet]
    exact doneL

/-! ### The end of a fade (R110, R111) -/

theorem exec_dpdFadeEnd {d : Nat} (ends : s.dpd[idx64 h k].fadeEnd = some d) (free : s.dpd[idx64 h k].held = none) (room : s.evq[h].length < 32) :
    exec (.dpdFadeEnd h k) s = .next { s with now := max s.now d, regs := rfPut (rfPut s.regs (dpdField Fld.DPD_STATk_XF h k) 0) (dpdField Fld.DPD_STATk_DONE h k) 1,
                                              dpd := s.dpd.set (idx64 h k) s.dpd[idx64 h k].faded, evq := s.evq.set h (s.evq[h] ++ [0xFFF4]) } := by
  show execDpdFadeEnd h k s = _
  rw [execDpdFadeEnd, ends]
  dsimp only
  rw [← dpdField, ← dpdField]
  generalize dpdField Fld.DPD_STATk_XF h k = x
  generalize dpdField Fld.DPD_STATk_DONE h k = e
  rw [State.put_eq (s.at d), State.put_eq, State.at, State.notify, if_pos room, releaseHeld]
  dsimp only
  rw [show (s.dpd.set (idx64 h k) { s.dpd[idx64 h k] with fadeEnd := none })[idx64 h k].held = none from (congrArg Dpd.held (Vector.getElem_set_self _)).trans free]
  rfl

theorem gives_fadeEnd {d : Nat} (ends : s.dpd[idx64 h k].fadeEnd = some d) (free : s.dpd[idx64 h k].held = none) (room : s.evq[h].length < 32) :
    Gives (.dpdFadeEnd h k) s fun t => t.get ((Fld.DPD_STATk_XF.i k).h h) = 0 ∧ t.get ((Fld.DPD_STATk_DONE.i k).h h) = 1
      ∧ t.dpd[idx64 h k].fadeEnd = none ∧ t.evq[h] = s.evq[h] ++ [0xFFF4]
      ∧ t = { s with now := max s.now d, regs := t.regs, dpd := t.dpd, evq := t.evq } ∧ SameRegs [hamletBase h + Reg.DPD_STATk + 4 * k] s t := by
  have ran := exec_dpdFadeEnd ends free room
  have listed {f : Field} (at_ : f.reg = Reg.DPD_STATk ∧ f.step = 0 ∧ f.dims = [4]) : (dpdField f h k).reg ∈ [hamletBase h + Reg.DPD_STATk + 4 * k] := by
    rw [dpdField, dpd_reg at_]
    exact List.mem_singleton_self _
  obtain ⟨l, is, fade, done, same⟩ : ∃ l, rfPut (rfPut s.regs (dpdField Fld.DPD_STATk_XF h k) 0) (dpdField Fld.DPD_STATk_DONE h k) 1 = l ∧ rfGet l (dpdField Fld.DPD_STATk_XF h k) = 0
      ∧ rfGet l (dpdField Fld.DPD_STATk_DONE h k) = 1 ∧ RfSame [hamletBase h + Reg.DPD_STATk + 4 * k] s.regs l := by
    refine ⟨_, rfl, ?_, rfGet_rfPut_self _ _ ((dpd_fits _ h k).trans (by decide)), ((RfSame.refl _ _).put (listed ⟨rfl, rfl, rfl⟩) _).put (listed ⟨rfl, rfl, rfl⟩) _⟩
    rw [rfGet_dpd_put h k 1 (by decide) (by decide) (by decide)]
    exact rfGet_rfPut_self _ _ ((dpd_fits _ h k).trans (by decide))
  rw [is] at ran
  refine Gives.of_eq ran ⟨?_, ?_, congrArg Dpd.fadeEnd (Vector.getElem_set_self _), Vector.getElem_set_self _, rfl, RfSame.sameRegs same⟩
  · rw [State.get_eq_rfGet]
    exact fade
  · rw [State.get_eq_rfGet]
    exact done

end

/-- Settles O17. -/
theorem pulseAndPredistorter : Obligations.PulseAndPredistorter := by
  unfold Obligations.PulseAndPredistorter
  refine ⟨fun s r h v taken go code => gives_cfrRequest taken go code, fun s h q t0 late waits due runs => gives_cfrPulseSwap waits due runs,
    fun s r h k v taken code => gives_dpdRequest taken code, fun s h k q t0 late waits due runs long => gives_fade_long waits due runs long,
    fun s h k d ends free room => gives_fadeEnd ends free room, fun s h k q t0 late waits due runs none_ room => gives_fade_none waits due runs none_ room,
    fun s h k late stands => ⟨?_, ?_⟩⟩
  · show execCfrPulseSwap h late s = _
    rw [execCfrPulseSwap, if_pos stands]
  · show execDpdFadeStart h k late s = _
    rw [execDpdFadeStart, if_pos stands]

end Sys2Proof.Machine
end

section
/-!
PROOFS. Messages of flows 2 to 7 (R191, R195, R196); the settlement of O25.
-/

namespace Sys2Proof.Machine

section
variable {s t : State} {b : List Nat}

/-! ### A message staged on flow 2 -/

theorem noticeOnly_stage (f : Nat) (b : List Nat) (s : State) : NoticeOnly s (s.stage f b) := by
  have quiet : QuietLow (fun t => NoticeOnly s t) := by
    rintro t regs1 out1 flt1 port1 lnk1 ⟨_, _, _, _, _, rfl⟩
    exact ⟨_, _, _, _, _, rfl⟩
  exact quietLow_State_stage quiet s f b (.refl s)

/-- The registers that staging on a flow writes. -/
def stageRegs (f : Nat) : List Nat := [(Fld.LNK_CNTn_COUNT.i 8).reg, Reg.LNK_CAP, Reg.LNK_STAT, (Fld.LNK_FLOWf_STAT_STAGED.i f).reg]

theorem stageRegs_all (f : Nat) : (Fld.LNK_CNTn_COUNT.i 8).reg ∈ stageRegs f ∧ Reg.LNK_CAP ∈ stageRegs f ∧ Reg.LNK_STAT ∈ stageRegs f ∧ (Fld.LNK_FLOWf_STAT_STAGED.i f).reg ∈ stageRegs f :=
  ⟨.head _, .tail _ (.head _), .tail _ (.tail _ (.head _)), .tail _ (.tail _ (.tail _ (.head _)))⟩

theorem SameRegs.lnk {l : List Nat} (same : SameRegs l s t) (x : Lnk) : SameRegs l s { t with lnk := x } := same.congr rfl

/-- The link's working data while a link in L1 is left: the resets that wait stay. -/
theorem leaveL1_kept (f : Nat) (s : State) : s.leaveL1.lnk.resets = s.lnk.resets ∧ SameRegs (stageRegs f) s s.leaveL1 ∧ s.leaveL1.port.unacked = s.port.unacked := by
  obtain ⟨_, cap, stat, _⟩ := stageRegs_all f
  rw [State.leaveL1]
  split
  · have caps : SameRegs (stageRegs f) s ((s.put Fld.LNK_CAP_CAP_TX s.lnk.tx.cap).put Fld.LNK_CAP_CAP_RX s.lnk.rx.cap) :=
      ((SameRegs.refl _ s).put (f := Fld.LNK_CAP_CAP_TX) cap _).put (f := Fld.LNK_CAP_CAP_RX) cap _
    have port : ((s.put Fld.LNK_CAP_CAP_TX s.lnk.tx.cap).put Fld.LNK_CAP_CAP_RX s.lnk.rx.cap).port = s.port := by rw [State.put_port, State.put_port]
    dsimp only
    generalize (s.put Fld.LNK_CAP_CAP_TX s.lnk.tx.cap).put Fld.LNK_CAP_CAP_RX s.lnk.rx.cap = u at caps port
    rw [State.put_lnk, State.put_port]
    exact ⟨rfl, (caps.lnk _).put (f := Fld.LNK_STAT_STATE) stat _, congrArg Port.unacked port⟩
  · exact ⟨rfl, .refl _ s, rfl⟩

theorem stage_kept (s : State) (f : Nat) (b : List Nat) : (s.stage f b).lnk.resets = s.lnk.resets ∧ SameRegs (stageRegs f) s (s.stage f b)
    ∧ (s.stage f b).port.unacked = s.port.unacked := by
  obtain ⟨count, _, _, staged⟩ := stageRegs_all f
  have counted : (s.inc (Fld.LNK_CNTn_COUNT.i 8)).lnk.resets = s.lnk.resets ∧ SameRegs (stageRegs f) s (s.inc (Fld.LNK_CNTn_COUNT.i 8))
      ∧ (s.inc (Fld.LNK_CNTn_COUNT.i 8)).port.unacked = s.port.unacked := by
    rw [State.inc, State.add, State.put_lnk, State.put_port]
    exact ⟨rfl, (SameRegs.refl _ s).put count _, rfl⟩
  rw [State.stage]
  split
  · exact counted
  · split
    · exact ⟨rfl, .refl _ s, rfl⟩
    · split
      · obtain ⟨resets, regs, unacked⟩ := leaveL1_kept f s
        rw [State.stageNow]
        generalize s.leaveL1 = u at resets regs unacked
        dsimp only
        rw [State.put_lnk, State.put_port]
        exact ⟨resets, SameRegs.put (SameRegs.congr regs rfl) staged _, unacked⟩
      · split
        · exact counted
        · exact ⟨rfl, .refl _ s, rfl⟩

/-! ### A message taken from the port (R183) -/

/-- A message taken leaves the port's inbox. -/
def State.unboxed (s : State) (m : Hdr) : State := { s with port := { s.port with inbox := dropFlow m.flow s.port.inbox } }

theorem takeMsg_taken {m : Hdr} {type n : Nat} (act : State → State) (on : s.get (Fld.LNK_FLOWf_CFG_EN.i m.flow) ≠ 0) (good : s.hdrOk m type n = true)
    (other : type ≠ 0 ∧ type ≠ 2) : takeMsg m type n act s = act ((s.unboxed m).arrive m.flow) := by
  have bit : s.get (Fld.LNK_FLOWf_CFG_EN.i m.flow) < 2 ^ 1 := s.get_lt (Fld.LNK_FLOWf_CFG_EN.i m.flow)
  have one : s.get (Fld.LNK_FLOWf_CFG_EN.i m.flow) = 1 := by omega
  rw [takeMsg, ← State.unboxed]
  rw [show (s.unboxed m).flag (Fld.LNK_FLOWf_CFG_EN.i m.flow) = true from State.flag_of_get_one one, show (s.unboxed m).hdrOk m type n = true from good,
    if_neg (by decide), if_neg (by decide), decide_eq_false other.1, decide_eq_false other.2]
  rfl

/-- Messages of types 6 and 7 come on flow 2, and post no arrival signal. -/
theorem hdrOk_flow_two {m : Hdr} {type n : Nat} (good : s.hdrOk m type n = true) (kind : type = 6 ∨ type = 7) : m.flow = 2 := by
  rw [State.hdrOk] at good
  simp only [Bool.and_eq_true] at good
  obtain ⟨⟨_, on⟩, _⟩ := good
  rw [State.typeOnFlow] at on
  rcases kind with rfl | rfl
  · simpa using on
  · simpa using on

theorem arrive_flow_two : s.arrive 2 = s := by rw [State.arrive, if_neg (by decide)]

theorem gives_generic {m : Hdr} {p : List Nat} (on : s.get (Fld.LNK_FLOWf_CFG_EN.i m.flow) ≠ 0) (good : s.hdrOk m 3 (4 + p.length) = true) :
    Gives (.genericDataMessage m p) s fun t => t.lnk.toReeve = s.lnk.toReeve ++ [⟨m.flow, p⟩] ∧ t.mem = s.mem ∧ t.regs = s.regs ∧ t.eff = s.eff := by
  have ran : exec (.genericDataMessage m p) s = .next (((s.unboxed m).arrive m.flow).setLnk
      { ((s.unboxed m).arrive m.flow).lnk with toReeve := ((s.unboxed m).arrive m.flow).lnk.toReeve ++ [⟨m.flow, p⟩] }) := by
    show execGenericDataMessage m p s = _
    rw [execGenericDataMessage, takeMsg_taken _ on good (by decide)]
  refine Gives.of_eq ran ?_
  rw [State.arrive]
  split
  · exact ⟨rfl, rfl, rfl, rfl⟩
  · exact ⟨rfl, rfl, rfl, rfl⟩

theorem gives_remoteReset {m : Hdr} {id : Nat} {vendor : List Nat} (on : s.get (Fld.LNK_FLOWf_CFG_EN.i m.flow) ≠ 0) (good : s.hdrOk m 6 (3 + vendor.length) = true)
    (four : vendor.length = 4) (zero : beNat vendor = 0) (allowed : s.get Fld.LNK_CTRL_RRST = 1) :
    Gives (.remoteResetRequest m id 1 vendor) s fun t => t.lnk.resets = s.lnk.resets ++ [(8, s.now + 100 * usU)] ∧ t.mem = s.mem ∧ t.eff = s.eff := by
  have flow := hdrOk_flow_two good (.inl rfl)
  obtain ⟨u, is⟩ : ∃ u, u = (s.unboxed m).setLnk { s.lnk with resets := s.lnk.resets ++ [(8, s.now + 100 * usU)] } := ⟨_, rfl⟩
  have ran : exec (.remoteResetRequest m id 1 vendor) s = .next (u.stage 2 (ecpri 6 (beBytes 2 id ++ [2]))) := by
    show execRemoteResetRequest m id 1 vendor s = _
    rw [execRemoteResetRequest, takeMsg_taken _ on good (by decide), flow, arrive_flow_two, takeReset, zero]
    dsimp only
    rw [if_neg (by decide), if_pos rfl]
    dsimp only
    rw [if_pos ⟨show (s.unboxed m).flag Fld.LNK_CTRL_RRST = true from State.flag_of_get_one allowed, four⟩, is]
    rfl
  obtain ⟨resets, _, _⟩ := stage_kept u 2 (ecpri 6 (beBytes 2 id ++ [2]))
  have notice := noticeOnly_stage 2 (ecpri 6 (beBytes 2 id ++ [2])) u
  refine Gives.of_eq ran ⟨?_, ?_, ?_⟩
  · rw [resets, is]
    rfl
  · rw [notice.eq, is]
    rfl
  · rw [notice.eq, is]
    rfl

theorem gives_eventAck {m : Hdr} {id : Nat} (on : s.get (Fld.LNK_FLOWf_CFG_EN.i m.flow) ≠ 0) (good : s.hdrOk m 7 4 = true) :
    Gives (.eventAck m id) s fun t => t.port.unacked = (s.port.unacked.filter fun x => x.id != id) ∧ t.mem = s.mem ∧ t.regs = s.regs := by
  have flow := hdrOk_flow_two good (.inr rfl)
  have ran : exec (.eventAck m id) s = .next { s.unboxed m with port := { (s.unboxed m).port with unacked := (s.unboxed m).port.unacked.filter fun (x : IndSent) => x.id != id } } := by
    show execEventAck m id s = _
    rw [execEventAck, takeMsg_taken _ on good (by decide), flow, arrive_flow_two]
  exact Gives.of_eq ran ⟨rfl, rfl, rfl⟩

/-- An indication sent again, or for the last time. -/
theorem gives_resend {i : IndSent} (due : firstDueInd s.port.unacked = some i) :
    Gives .eventIndicationResend s fun t => t.now = max s.now i.due ∧ t.port.unacked = (s.port.unacked.filter fun x => x != i)
        ++ (if i.tries + 1 < 3 then [{ i with tries := i.tries + 1, due := i.due + 10 * msU }] else []) ∧ t.mem = s.mem ∧ (s.get Fld.LNK_STAT_STATE ≠ 3 → t.lnk = s.lnk) := by
  obtain ⟨u, is⟩ : ∃ u : State, u = { s.at i.due with port := { s.port with unacked := if i.tries + 1 < 3 then
      (s.port.unacked.filter fun x => x != i) ++ [{ i with tries := i.tries + 1, due := i.due + 10 * msU }] else s.port.unacked.filter fun x => x != i } } := ⟨_, rfl⟩
  have ran : exec .eventIndicationResend s = .next (u.stage 2 i.bytes) := by
    show execEventIndicationResend s = _
    rw [execEventIndicationResend, due, is]
    rfl
  obtain ⟨_, _, unacked⟩ := stage_kept u 2 i.bytes
  have notice := noticeOnly_stage 2 i.bytes u
  refine Gives.of_eq ran ⟨?_, ?_, ?_, fun other => ?_⟩
  · rw [notice.eq, is]
    rfl
  · rw [unacked, is]
    dsimp only
    split
    · rfl
    · rw [List.append_nil]
  · rw [notice.eq, is]
    rfl
  · have still : u.get Fld.LNK_STAT_STATE ≠ 3 := by
      rw [is]
      exact other
    rw [(linkSame_stage_two still).2.2, is]
    rfl

/-! ### The synchronisation request (R195) -/

/-- The active faults told, each as an indication. -/
def tellActive (s : State) (n : Nat) : State :=
  if s.flag (Fld.FLT_LOGn_W0_ACTIVE.i n) then
    s.sendInd ⟨true, s.get (Fld.FLT_LOGn_W0_NUM.i n), s.get (Fld.FLT_LOGn_W0_ELEM.i n), (s.rd (Reg.FLT_LOGn_W0 + 0x20 * n + 4)).toNat, n⟩ else s

theorem noticeOnly_tellActive (s : State) (n : Nat) : NoticeOnly s (tellActive s n) := by
  rw [tellActive, State.sendInd]
  split
  · exact NoticeOnly.trans ⟨_, _, _, _, _, rfl⟩ (noticeOnly_stage 2 _ _)
  · exact .refl s

theorem linkSame_tellActive (other : s.get Fld.LNK_STAT_STATE ≠ 3) (n : Nat) : LinkSame s (tellActive s n) := by
  rw [tellActive, State.sendInd]
  split
  · exact LinkSame.trans ((LinkSame.refl s).congr rfl rfl) (linkSame_stage_two other)
  · exact .refl s

theorem linkSame_tellAll (l : List Nat) (other : s.get Fld.LNK_STAT_STATE ≠ 3) : LinkSame s (l.foldl tellActive s) := by
  induction l generalizing s with
  | nil => exact .refl s
  | cons n l ih =>
    have first := linkSame_tellActive other n
    exact first.trans (ih (by rw [first.get (.inl rfl)]; exact other))

theorem tellAll_none (l : List Nat) (none : ∀ n ∈ l, s.flag (Fld.FLT_LOGn_W0_ACTIVE.i n) = false) : l.foldl tellActive s = s := by
  induction l with
  | nil => rfl
  | cons n l ih =>
    rw [List.foldl_cons, tellActive, none n (List.mem_cons_self ..), if_neg Bool.false_ne_true]
    exact ih fun k listed => none k (List.mem_cons_of_mem _ listed)

theorem logActive_unlisted (n : Fin 32) : (Fld.FLT_LOGn_W0_ACTIVE.i n).reg ∉ stageRegs 2 := by
  revert n
  decide

theorem gives_eventSync {m : Hdr} {id : Nat} (on : s.get (Fld.LNK_FLOWf_CFG_EN.i m.flow) ≠ 0) (good : s.hdrOk m 7 4 = true) :
    Gives (.eventSyncRequest m id) s fun t => t.mem = s.mem ∧ t.eff = s.eff ∧ t.now = s.now ∧ (s.get Fld.LNK_STAT_STATE ≠ 3 → t.lnk = s.lnk)
      ∧ ((∀ n, n < 32 → s.flag (Fld.FLT_LOGn_W0_ACTIVE.i n) = false) →
        t = (({ s with port := { s.port with inbox := dropFlow m.flow s.port.inbox } } : State).stage 2 (ecpri 7 (eventBytes id 4 []))).stage 2 (ecpri 7 (eventBytes id 5 []))) := by
  have flow := hdrOk_flow_two good (.inr rfl)
  have ran : exec (.eventSyncRequest m id) s = .next (((List.range 32).foldl tellActive ((s.unboxed m).stage 2 (ecpri 7 (eventBytes id 4 [])))).stage 2 (ecpri 7 (eventBytes id 5 []))) := by
    show execEventSyncRequest m id s = _
    rw [execEventSyncRequest, takeMsg_taken _ on good (by decide), flow, arrive_flow_two]
    rfl
  have opened := noticeOnly_stage 2 (ecpri 7 (eventBytes id 4 [])) (s.unboxed m)
  have told := opened.trans (NoticeOnly.foldl noticeOnly_tellActive (.refl _) (List.range 32))
  have all := told.trans (noticeOnly_stage 2 (ecpri 7 (eventBytes id 5 [])) _)
  refine Gives.of_eq ran ⟨?_, ?_, ?_, fun other => ?_, fun none => ?_⟩
  · rw [all.eq]
    rfl
  · rw [all.eq]
    rfl
  · rw [all.eq]
    rfl
  · have first : LinkSame (s.unboxed m) ((s.unboxed m).stage 2 (ecpri 7 (eventBytes id 4 []))) := linkSame_stage_two other
    have second := linkSame_tellAll (List.range 32) (by rw [first.get (.inl rfl)]; exact other)
    have both := first.trans second
    have third := both.trans (linkSame_stage_two (b := ecpri 7 (eventBytes id 5 [])) (by rw [both.get (.inl rfl)]; exact other))
    rw [third.2.2]
    rfl
  · obtain ⟨_, regs, _⟩ := stage_kept (s.unboxed m) 2 (ecpri 7 (eventBytes id 4 []))
    rw [tellAll_none (List.range 32) fun n listed => ?_]
    · rfl
    · rw [State.flag, regs.get (logActive_unlisted ⟨n, List.mem_range.1 listed⟩)]
      exact none n (List.mem_range.1 listed)

end

/-- Settles O25. -/
theorem linkMessages : Obligations.LinkMessages := by
  unfold Obligations.LinkMessages
  exact ⟨fun s m p on good => gives_generic on good, fun s m id vendor on good four zero allowed => gives_remoteReset on good four zero allowed,
    fun s m id on good => gives_eventAck on good, fun s m id on good => gives_eventSync on good, fun s i due => gives_resend due⟩

end Sys2Proof.Machine
end

section
/-!
PROOFS. Settings of the half-subframe boundary, the mute ramps, and data while and after the converter PLL is unlocked (R104 to R106, R114, R142); the settlement of O18.
-/

namespace Sys2Proof.Machine

section
variable {s : State} {h k : Fin 8} {d : Nat}

/-! ### The half-subframe boundary (R104, R343) -/

/-- The settings in force after those of a boundary. -/
def boundaryEff (d : Nat) (ys : List SetPend) (e : RegFile) : RegFile := ys.foldl (fun e y => if y.due = d then rfWrite e y.addr y.word else e) e

theorem boundary_frame (h : Fin 8) (d : Nat) (ys : List SetPend) (s : State) : ∃ x : Tx,
    ys.foldl (fun s y => if y.due = d then (s.keepWas h y.addr (s.erd y.addr) d).ewr y.addr y.word else s) s
      = { s with eff := boundaryEff d ys s.eff, tx := s.tx.set h x } := by
  induction ys generalizing s with
  | nil =>
    refine ⟨s.tx[h], ?_⟩
    rw [Fin.getElem_fin, Vector.set_getElem_self]
    rfl
  | cons y ys ih =>
    rw [List.foldl_cons]
    obtain ⟨x, rest⟩ := ih (if y.due = d then (s.keepWas h y.addr (s.erd y.addr) d).ewr y.addr y.word else s)
    refine ⟨x, rest.trans ?_⟩
    rw [boundaryEff, boundaryEff, List.foldl_cons]
    by_cases due : y.due = d
    · rw [if_pos due, if_pos due, State.keepWas, State.ewr]
      dsimp only
      rw [Vector.set_set]
    · rw [if_neg due, if_neg due]

/-- The backoff steps of a boundary leave the settings that wait. -/
theorem takeBackoff_frame (h : Fin 8) (d : Nat) (s : State) : ∃ tx thm, takeBackoff h d s = { s with tx := tx, thm := thm } ∧ tx[h].sets = s.tx[h].sets := by
  rw [takeBackoff]
  split
  · exact ⟨s.tx, s.thm, rfl, rfl⟩
  · exact ⟨_, _, rfl, by rw [Fin.getElem_fin, Vector.getElem_set_self, Fin.getElem_fin]⟩

theorem takeCal_frame (h : Fin 8) (d : Nat) (s : State) : ∃ cal, takeCal h d s = { s with cal := cal } := ⟨_, rfl⟩

theorem gives_halfSubframe {x : Nat} {l : List Nat} (runs : s.clockStops h = false) (waits : (s.tx[h].sets.map fun y => y.due) ++ (s.thm.boDue[h].map fun x => x.1)
      ++ (s.cal.next.filter fun c => c.2.1 / 256 == h.val).map (fun c => c.1) = x :: l) :
    Gives (.halfSubframeSettings h) s fun t => t.now = max s.now (l.foldl min x) ∧ t.tx[h].sets = (s.tx[h].sets.filter fun y => y.due != l.foldl min x)
      ∧ t.eff = s.tx[h].sets.foldl (fun e y => if y.due = l.foldl min x then rfWrite e y.addr y.word else e) s.eff
      ∧ t = { s with now := t.now, eff := t.eff, tx := t.tx, cal := t.cal, thm := t.thm } := by
  obtain ⟨y, taken⟩ := boundary_frame h (l.foldl min x) s.tx[h].sets (s.at (l.foldl min x))
  have got : (s.tx.set h y)[h] = y := Vector.getElem_set_self _
  have ran : exec (.halfSubframeSettings h) s = .next (takeBackoff h (l.foldl min x) (takeCal h (l.foldl min x)
      { s with now := max s.now (l.foldl min x), eff := boundaryEff (l.foldl min x) s.tx[h].sets s.eff, tx := s.tx.set h { y with sets := s.tx[h].sets.filter fun y => y.due != l.foldl min x } })) := by
    show execHalfSubframeSettings h s = _
    rw [execHalfSubframeSettings, if_neg (Bool.eq_false_iff.1 runs), waits]
    dsimp only
    rw [taken, State.at]
    dsimp only
    rw [Vector.set_set, got]
  obtain ⟨cal, cals⟩ := takeCal_frame h (l.foldl min x)
      { s with now := max s.now (l.foldl min x), eff := boundaryEff (l.foldl min x) s.tx[h].sets s.eff, tx := s.tx.set h { y with sets := s.tx[h].sets.filter fun y => y.due != l.foldl min x } }
  rw [cals] at ran
  obtain ⟨tx, thm, backoff, sets⟩ := takeBackoff_frame h (l.foldl min x)
      { s with now := max s.now (l.foldl min x), eff := boundaryEff (l.foldl min x) s.tx[h].sets s.eff, cal := cal, tx := s.tx.set h { y with sets := s.tx[h].sets.filter fun y => y.due != l.foldl min x } }
  rw [backoff] at ran
  exact Gives.of_eq ran ⟨rfl, sets.trans (congrArg Tx.sets (Vector.getElem_set_self _)), rfl, rfl⟩

/-! ### The mute ramps (R105) -/

/-- A path's mute gain at its target. -/
def Mute.reached (m : Mute) : Mute := { m with gain := m.target, ramping := false }

/-- The registers where a path's mute gain has reached a target. -/
def reachedBit (p : Field) (k target : Nat) (l : RegFile) : RegFile := if target = 0 then rfSetBit p k l else rfClrBit p k l

theorem muteReached_frame (h k : Fin 8) (s : State) : ∃ cal, muteReached h k s
    = { s with regs := reachedBit (Fld.TXC_STAT_MUTED.h h) k s.mute[idx64 h k].target s.regs, mute := s.mute.set (idx64 h k) s.mute[idx64 h k].reached, cal := cal } := by
  rw [muteReached, reachedBit]
  generalize Fld.TXC_STAT_MUTED.h h = p
  by_cases zero : s.mute[idx64 h k].target = 0
  · rw [if_pos zero, if_pos zero, State.setBit_eq]
    exact ⟨s.cal, rfl⟩
  · rw [if_neg zero, if_neg zero, State.clrBit_eq]
    obtain ⟨cal, lost⟩ := loseUnit_frame { s with regs := rfClrBit p k s.regs, mute := s.mute.set (idx64 h k) s.mute[idx64 h k].reached } h 4 k
    exact ⟨cal, lost⟩

theorem reachedBit_facts {p : Field} {target : Nat} (fits : p.fits = true) (inside : k < p.width) (l : RegFile) :
    bitOf (rfGet (reachedBit p k target l) p) k = decide (target = 0) ∧ RfSame [p.reg] l (reachedBit p k target l) := by
  rw [reachedBit]
  by_cases zero : target = 0
  · rw [if_pos zero, bitOf_rfSetBit fits inside, decide_eq_true zero, decide_eq_true rfl, Bool.or_true]
    exact ⟨rfl, (RfSame.refl _ l).put (List.mem_singleton_self _) _⟩
  · rw [if_neg zero, bitOf_rfClrBit fits, decide_eq_false zero]
    exact ⟨rfl, (RfSame.refl _ l).put (List.mem_singleton_self _) _⟩

theorem muted_fits (h : Fin 8) : (Fld.TXC_STAT_MUTED.h h).fits = true := (fits_window _ h).trans (by decide)

theorem muted_width (h : Fin 8) : (Fld.TXC_STAT_MUTED.h h).width = 8 := rfl

theorem gives_muteRampEnd (ramps : s.mute[idx64 h k].ramping = true) (calm : s.tx[h].rampEnd = none) :
    Gives (.muteRampEnd h k) s fun t => t.mute[idx64 h k].gain = s.mute[idx64 h k].target ∧ t.mute[idx64 h k].ramping = false
      ∧ t.bit (Fld.TXC_STAT_MUTED.h h) k = decide (s.mute[idx64 h k].target = 0)
      ∧ t = { s with now := max s.now (s.mute[idx64 h k].start + s.mute[idx64 h k].len), regs := t.regs, mute := t.mute, cal := t.cal } := by
  obtain ⟨cal, reached⟩ := muteReached_frame h k (s.at (s.mute[idx64 h k].start + s.mute[idx64 h k].len))
  have ran : exec (.muteRampEnd h k) s = .next (muteReached h k (s.at (s.mute[idx64 h k].start + s.mute[idx64 h k].len))) := by
    show execMuteRampEnd h k s = _
    rw [execMuteRampEnd]
    dsimp only
    rw [ramps, calm]
    rfl
  rw [reached, State.at] at ran
  dsimp only at ran
  obtain ⟨bit, -⟩ := reachedBit_facts (target := s.mute[idx64 h k].target) (muted_fits h) (by rw [muted_width]; exact k.isLt) s.regs
  generalize reachedBit (Fld.TXC_STAT_MUTED.h h) k s.mute[idx64 h k].target s.regs = regs at ran bit
  refine Gives.of_eq ran ⟨congrArg Mute.gain (Vector.getElem_set_self _), congrArg Mute.ramping (Vector.getElem_set_self _), ?_, rfl⟩
  rw [State.bit, State.get_eq_rfGet]
  exact bit

/-- A path's mute gain on its way. -/
def Mute.ramp (m : Mute) (d target len : Nat) : Mute := { m with gain := m.gainAt d, target := target, start := d, len := len, ramping := true }

/-- The registers at the start of a ramp: MUTED falls unless the gain is 0 and stays 0. -/
def rampBit (p : Field) (k : Nat) (still : Bool) (l : RegFile) : RegFile := if still then l else rfClrBit p k l

theorem rampBit_facts {p : Field} (fits : p.fits = true) (n : Nat) (still : Bool) (l : RegFile) :
    bitOf (rfGet (rampBit p n still l) p) n = (bitOf (rfGet l p) n && still) ∧ RfSame [p.reg] l (rampBit p n still l) := by
  rw [rampBit]
  cases still
  · rw [if_neg Bool.false_ne_true, bitOf_rfClrBit fits, Bool.and_false]
    exact ⟨rfl, (RfSame.refl _ l).put (List.mem_singleton_self _) _⟩
  · rw [if_pos rfl, Bool.and_true]
    exact ⟨rfl, .refl _ l⟩

/-- The gain that a ramp of a path goes to. -/
def rampTarget (muted rot : Bool) : Nat := if muted || rot then 0 else 65536

theorem rampNow_frame (h k : Fin 8) (d : Nat) (s : State) (long : s.get ((Fld.TXC_PATHk_RAMP.i k).h h) ≠ 0) : ∃ cal, rampNow h k d s
    = { s with regs := rampBit (Fld.TXC_STAT_MUTED.h h) k (decide (s.mute[idx64 h k].gainAt d = 0 ∧ rampTarget s.mute[idx64 h k].muted (s.rotMuted h k) = 0)) s.regs, mute := s.mute.set (idx64 h k) (s.mute[idx64 h k].ramp d (rampTarget s.mute[idx64 h k].muted (s.rotMuted h k)) (min (s.get ((Fld.TXC_PATHk_RAMP.i k).h h)) 100 * usU)), cal := cal } := by
  have takes : min (s.get ((Fld.TXC_PATHk_RAMP.i k).h h)) 100 * usU ≠ 0 := Nat.mul_ne_zero (by omega) (by decide)
  rw [rampNow, rampBit, ← rampTarget]
  rw [if_neg takes]
  generalize Fld.TXC_STAT_MUTED.h h = p
  by_cases still : s.mute[idx64 h k].gainAt d = 0 ∧ rampTarget s.mute[idx64 h k].muted (s.rotMuted h k) = 0
  · rw [if_pos still, if_pos (decide_eq_true still)]
    exact ⟨s.cal, rfl⟩
  · rw [if_neg still, if_neg (by rw [decide_eq_false still]; exact Bool.false_ne_true), State.clrBit_eq]
    exact loseUnit_frame _ h 4 k

theorem gives_muteRampStart {v : Bool} {l : List (Nat × Bool)} (waits : s.mute[idx64 h k].pend = (d, v) :: l) (runs : s.clockStops h = false)
    (long : s.get ((Fld.TXC_PATHk_RAMP.i k).h h) ≠ 0) : Gives (.muteRampStart h k) s fun t =>
      t.mute[idx64 h k] = ⟨s.mute[idx64 h k].gainAt d, if v || s.rotMuted h k then 0 else 65536, d, min (s.get ((Fld.TXC_PATHk_RAMP.i k).h h)) 100 * usU, true, v, l⟩
      ∧ t.bit (Fld.TXC_STAT_MUTED.h h) k = (s.bit (Fld.TXC_STAT_MUTED.h h) k && decide (s.mute[idx64 h k].gainAt d = 0 ∧ (if v || s.rotMuted h k then 0 else 65536) = 0))
      ∧ t = { s with now := max s.now d, regs := t.regs, mute := t.mute, cal := t.cal } ∧ SameRegs [hamletBase h + Reg.TXC_STAT] s t := by
  have ran : exec (.muteRampStart h k) s
      = .next (rampNow h k d { s with now := max s.now d, mute := s.mute.set (idx64 h k) { s.mute[idx64 h k] with muted := v, pend := l } }) := by
    show execMuteRampStart h k s = _
    rw [execMuteRampStart, if_neg (Bool.eq_false_iff.1 runs), waits]
    rfl
  obtain ⟨cal, ramped⟩ := rampNow_frame h k d { s with now := max s.now d, mute := s.mute.set (idx64 h k) { s.mute[idx64 h k] with muted := v, pend := l } } long
  rw [ramped] at ran
  dsimp only at ran
  have got : (s.mute.set (idx64 h k) { s.mute[idx64 h k] with muted := v, pend := l })[idx64 h k] = { s.mute[idx64 h k] with muted := v, pend := l } := Vector.getElem_set_self _
  rw [Vector.set_set, got] at ran
  obtain ⟨bit, same⟩ := rampBit_facts (muted_fits h) k (decide (s.mute[idx64 h k].gainAt d = 0 ∧ rampTarget v (s.rotMuted h k) = 0)) s.regs
  rw [Field.reg_h_eq h (a := Reg.TXC_STAT) rfl] at same
  have ran' : exec (.muteRampStart h k) s = .next { s with now := max s.now d, regs := rampBit (Fld.TXC_STAT_MUTED.h h) k (decide (s.mute[idx64 h k].gainAt d = 0 ∧ rampTarget v (s.rotMuted h k) = 0)) s.regs, mute := s.mute.set (idx64 h k) ⟨s.mute[idx64 h k].gainAt d, rampTarget v (s.rotMuted h k), d, min (s.get ((Fld.TXC_PATHk_RAMP.i k).h h)) 100 * usU, true, v, l⟩, cal := cal } := ran
  generalize rampBit (Fld.TXC_STAT_MUTED.h h) k (decide (s.mute[idx64 h k].gainAt d = 0 ∧ rampTarget v (s.rotMuted h k) = 0)) s.regs = regs at ran' bit same
  refine Gives.of_eq ran' ⟨Vector.getElem_set_self _, ?_, rfl, RfSame.sameRegs same⟩
  rw [State.bit, State.bit, State.get_eq_rfGet, State.get_eq_rfGet]
  exact bit

/-! ### The safety ramp (R106) -/

/-- The registers with one field put to 1 in each register of an indexed set. -/
def allSet (f : Nat → Field) (ns : List Nat) (l : RegFile) : RegFile := ns.foldl (fun l n => rfPut l (f n) 1) l

theorem allSet_state (f : Nat → Field) (ns : List Nat) (s : State) : ns.foldl (fun s n => s.put (f n) 1) s = { s with regs := allSet f ns s.regs } := by
  induction ns generalizing s with
  | nil => rfl
  | cons n ns ih =>
    rw [List.foldl_cons, ih, State.put_eq, allSet, allSet, List.foldl_cons]

theorem allSet_apart {f : Nat → Field} {g : Field} (fits : ∀ n, (f n).fits = true) (apart : ∀ n, (f n).apart g = true) (ns : List Nat) (l : RegFile) :
    rfGet (allSet f ns l) g = rfGet l g := by
  induction ns generalizing l with
  | nil => rfl
  | cons n ns ih => exact (ih _).trans (rfGet_rfPut_apart _ _ (fits n) (apart n))

theorem allSet_listed {f : Nat → Field} (fits : ∀ n, (f n).fits = true) (wide : ∀ n, (f n).width = 1) {m : Nat} (apart : ∀ n, n ≠ m → (f n).apart (f m) = true) (ns : List Nat)
    (l : RegFile) (listed : m ∈ ns ∨ rfGet l (f m) = 1) : rfGet (allSet f ns l) (f m) = 1 := by
  induction ns generalizing l with
  | nil => exact listed.resolve_left List.not_mem_nil
  | cons n ns ih =>
    refine ih _ ?_
    by_cases same : n = m
    · right
      rw [same, rfGet_rfPut_self _ _ (fits m), wide m]
      rfl
    · rcases listed with there | held
      · exact (List.mem_cons.1 there).elim (fun e => absurd e.symm same) .inl
      · right
        rw [rfGet_rfPut_apart _ _ (fits n) (apart n same)]
        exact held

theorem paths_apart {n m : Nat} (h : Fin 8) (ne : n ≠ m) : ((Fld.TXC_PATHk_MUTE.i n).h h).apart ((Fld.TXC_PATHk_MUTE.i m).h h) = true := by
  rw [Field.apart_h]
  have regs : (Fld.TXC_PATHk_MUTE.i m).reg ≠ (Fld.TXC_PATHk_MUTE.i n).reg := by
    show Reg.TXC_PATHk + m * 4 ≠ Reg.TXC_PATHk + n * 4
    omega
  rw [Field.apart, bne_iff_ne.2 regs]
  rfl

theorem path_apart_stat (n : Nat) (h : Fin 8) {g : Field} (at_ : g.reg = Reg.TXC_STAT ∧ (g.lo + g.width ≤ 31)) : ((Fld.TXC_PATHk_MUTE.i n).h h).apart (g.h h) = true := by
  rw [Field.apart_h]
  have beside : Nat.ble (g.lo + g.width) (Fld.TXC_PATHk_MUTE.i n).lo = true := by rw [Nat.ble_eq]; exact at_.2
  rw [Field.apart, beside, Bool.or_true, Bool.true_or]

/-- The mute gains of a hamlet's paths on their way to 0. -/
def safetyMutes (h : Fin 8) (now : Nat) (x : Vector Mute 64) : Vector Mute 64 :=
  x.mapFinIdx fun i m _ => if i / 8 = h.val then ⟨m.gainAt now, 0, now, 100 * usU, true, true, []⟩ else m

theorem idx64_val (h k : Fin 8) : (idx64 h k).val = 8 * h.val + k.val := by
  show (8 * h.val + k.val % 8) % 64 = _
  omega

theorem safetyMutes_own (h k : Fin 8) (now : Nat) (x : Vector Mute 64) : (safetyMutes h now x)[idx64 h k] = ⟨x[idx64 h k].gainAt now, 0, now, 100 * usU, true, true, []⟩ := by
  have row : (idx64 h k).val / 8 = h.val := by rw [idx64_val]; omega
  rw [safetyMutes, Fin.getElem_fin, Vector.getElem_mapFinIdx, if_pos row]
  rfl

theorem safetyMutes_other {h g : Fin 8} (ne : g ≠ h) (k : Fin 8) (now : Nat) (x : Vector Mute 64) : (safetyMutes h now x)[idx64 g k] = x[idx64 g k] := by
  have row : (idx64 g k).val / 8 ≠ h.val := by
    rw [idx64_val]
    have apart : g.val ≠ h.val := fun e => ne (Fin.ext e)
    omega
  rw [safetyMutes, Fin.getElem_fin, Vector.getElem_mapFinIdx, if_neg row]
  rfl

theorem safetyRamp_eq (s : State) (h : Fin 8) : s.safetyRamp h = { s with regs := allSet (fun n => (Fld.TXC_PATHk_MUTE.i n).h h) (List.range 8) s.regs, mute := safetyMutes h s.now s.mute, tx := s.tx.set h { s.tx[h] with rampEnd := some (s.now + 100 * usU) } } := by
  rw [State.safetyRamp, allSet_state fun n => (Fld.TXC_PATHk_MUTE.i n).h h, safetyMutes]

theorem gives_safetyRamp {t0 : Nat} (on : 2 ≤ s.hstate h) : Gives (.safetyRamp h t0) s fun t => t.get (Fld.TXC_STAT_SAFE.h h) = s.get (Fld.TXC_STAT_SAFE.h h)
      ∧ (∀ k : Fin 8, t.get ((Fld.TXC_PATHk_MUTE.i k).h h) = 1)
      ∧ (∀ k : Fin 8, t.mute[idx64 h k] = ⟨s.mute[idx64 h k].gainAt (max s.now t0), 0, max s.now t0, 100 * usU, true, true, []⟩)
      ∧ (∀ g k : Fin 8, g ≠ h → t.mute[idx64 g k] = s.mute[idx64 g k]) ∧ t.tx[h].rampEnd = some (max s.now t0 + 100 * usU)
      ∧ t = { s with now := max s.now t0, regs := t.regs, mute := t.mute, tx := t.tx } := by
  have ran : exec (.safetyRamp h t0) s = .next ((s.at t0).safetyRamp h) := by
    show execSafetyRamp h t0 s = _
    rw [execSafetyRamp, if_pos on]
  rw [safetyRamp_eq, State.at] at ran
  dsimp only at ran
  have fits (n : Nat) : ((Fld.TXC_PATHk_MUTE.i n).h h).fits = true := (fits_indexed _ n h).trans (by decide)
  have safe := allSet_apart fits (g := Fld.TXC_STAT_SAFE.h h) (fun n => path_apart_stat n h (by decide)) (List.range 8) s.regs
  have muted (k : Fin 8) := allSet_listed fits (fun _ => rfl) (m := k.val) (fun n ne => paths_apart h ne) (List.range 8) s.regs (.inl (List.mem_range.2 k.isLt))
  generalize allSet (fun n => (Fld.TXC_PATHk_MUTE.i n).h h) (List.range 8) s.regs = regs at ran safe muted
  refine Gives.of_eq ran ⟨?_, fun k => ?_, fun k => safetyMutes_own h k _ _, fun g k ne => safetyMutes_other ne k _ _, congrArg Tx.rampEnd (Vector.getElem_set_self _), rfl⟩
  · rw [State.get_eq_rfGet, State.get_eq_rfGet]
    exact safe
  · rw [State.get_eq_rfGet]
    exact muted k

/-- The mute gains after those of listed paths of a hamlet have reached their targets. -/
def reachedMutes (h : Fin 8) (ks : List (Fin 8)) (x : Vector Mute 64) : Vector Mute 64 := ks.foldl (fun x k => x.set (idx64 h k) x[idx64 h k].reached) x

theorem reachedBit_apart {p g : Field} {n target : Nat} (fits : p.fits = true) (apart : p.apart g = true) (l : RegFile) : rfGet (reachedBit p n target l) g = rfGet l g := by
  rw [reachedBit]
  split
  · exact rfGet_rfSetBit_apart fits apart
  · exact rfGet_rfClrBit_apart fits apart

theorem reachAll_frame (h : Fin 8) (ks : List (Fin 8)) (s : State) : ∃ regs cal, ks.foldl (fun s k => muteReached h k s) s
      = { s with regs := regs, mute := reachedMutes h ks s.mute, cal := cal } ∧ rfGet regs (Fld.TXC_STAT_SAFE.h h) = rfGet s.regs (Fld.TXC_STAT_SAFE.h h) := by
  induction ks generalizing s with
  | nil => exact ⟨s.regs, s.cal, rfl, rfl⟩
  | cons k ks ih =>
    obtain ⟨cal, first⟩ := muteReached_frame h k s
    have kept := reachedBit_apart (n := k.val) (target := s.mute[idx64 h k].target) (muted_fits h) ((Field.apart_h Fld.TXC_STAT_MUTED Fld.TXC_STAT_SAFE h).trans (by decide)) s.regs
    generalize reachedBit (Fld.TXC_STAT_MUTED.h h) k s.mute[idx64 h k].target s.regs = mid at first kept
    rw [List.foldl_cons, first]
    obtain ⟨regs, cal', rest, safe⟩ := ih { s with regs := mid, mute := s.mute.set (idx64 h k) s.mute[idx64 h k].reached, cal := cal }
    exact ⟨regs, cal', rest, safe.trans kept⟩

/-- A path is at its target after its hamlet's listed paths have reached theirs, and no target has changed. -/
theorem reachedMutes_at (h : Fin 8) (ks : List (Fin 8)) (k : Fin 8) (x : Vector Mute 64) (target : Nat) (same : x[idx64 h k].target = target)
    (listed : k ∈ ks ∨ x[idx64 h k].gain = target ∧ x[idx64 h k].ramping = false) :
    (reachedMutes h ks x)[idx64 h k].gain = target ∧ (reachedMutes h ks x)[idx64 h k].ramping = false := by
  induction ks generalizing x with
  | nil => exact listed.resolve_left List.not_mem_nil
  | cons j ks ih =>
    by_cases is : j = k
    · have got : (x.set (idx64 h j) x[idx64 h j].reached)[idx64 h k] = x[idx64 h k].reached := by
        rw [is]
        exact Vector.getElem_set_self _
      refine ih (x.set (idx64 h j) x[idx64 h j].reached) ?_ (.inr ?_)
      · rw [got]
        exact same
      · rw [got]
        exact ⟨same, rfl⟩
    · have got : (x.set (idx64 h j) x[idx64 h j].reached)[idx64 h k] = x[idx64 h k] := by
        refine Vector.getElem_set_ne _ _ fun e => is (Fin.ext ?_)
        have apart : 8 * h.val + j.val = 8 * h.val + k.val := by rw [← idx64_val, ← idx64_val, e]
        omega
      refine ih (x.set (idx64 h j) x[idx64 h j].reached) ?_ (listed.imp (fun there => (List.mem_cons.1 there).resolve_left fun e => is e.symm) ?_)
      · rw [got]
        exact same
      · rw [got]
        exact id

theorem gives_safetyRampEnd (ramps : s.tx[h].rampEnd = some d) :
    Gives (.safetyRampEnd h) s fun t => t.get (Fld.TXC_STAT_SAFE.h h) = 1 ∧ (∀ k : Fin 8, t.mute[idx64 h k].gain = s.mute[idx64 h k].target ∧ t.mute[idx64 h k].ramping = false)
      ∧ t.tx[h].rampEnd = none ∧ t = { s with now := max s.now d, regs := t.regs, mute := t.mute, tx := t.tx, cal := t.cal } := by
  obtain ⟨regs, cal, all, safe⟩ := reachAll_frame h (List.finRange 8) ((s.at d).put (Fld.TXC_STAT_SAFE.h h) 1)
  rw [State.put_eq] at all safe
  dsimp only at safe
  rw [rfGet_rfPut_self_h (f := Fld.TXC_STAT_SAFE) _ _ _ (by decide), show 1 % 2 ^ Fld.TXC_STAT_SAFE.width = 1 from rfl] at safe
  have ran : exec (.safetyRampEnd h) s = .next { s with now := max s.now d, regs := regs, mute := reachedMutes h (List.finRange 8) s.mute, cal := cal, tx := s.tx.set h { s.tx[h] with rampEnd := none } } := by
    show execSafetyRampEnd h s = _
    rw [execSafetyRampEnd, ramps]
    dsimp only
    rw [State.put_eq, all]
    rfl
  refine Gives.of_eq ran ⟨?_, fun k => reachedMutes_at h _ k s.mute _ rfl (.inl (List.mem_finRange k)), congrArg Tx.rampEnd (Vector.getElem_set_self _), rfl⟩
  rw [State.get_eq_rfGet]
  exact safe

/-! ### While and after the converter PLL is unlocked (R114, R142) -/

theorem exec_dacClockGate (forced : s.tx[h].forced = true) (open_ : s.tx[h].dacGated = false) (out : s.tx[h].resumeDue = none) :
    exec (.dacClockGate h) s = .next { s with now := max s.now (s.tx[h].forcedAt + 64 * 3200000), tx := s.tx.set h { s.tx[h] with dacGated := true } } := by
  show execDacClockGate h s = _
  rw [execDacClockGate, forced, open_, out]
  rfl

/-- With no symbol formed, only the mark of the counting moves. -/
theorem txRun_none (none_ : s.dl.syms = []) : s.txRun = { s with dl := { s.dl with done := max s.dl.done s.now } } := by
  rw [State.txRun, countSymbols]
  dsimp only
  rw [none_]
  rfl

theorem countTx_frame (s : State) (h : Fin 8) (t : Nat) : ∃ regs tx, s.countTx h t = { s with regs := regs, tx := tx } ∧ RfSame [hamletBase h + Reg.TXC_UNLOCK_CNT] s.regs regs := by
  rw [State.countTx]
  dsimp only
  have reg : (Fld.TXC_UNLOCK_CNT_COUNT.h h).reg = hamletBase h + Reg.TXC_UNLOCK_CNT := Field.reg_h_eq h rfl
  generalize Fld.TXC_UNLOCK_CNT_COUNT.h h = f at *
  split
  · rw [State.add_eq]
    exact ⟨_, _, rfl, (RfSame.refl _ _).put (by rw [reg]; exact List.mem_singleton_self _) _⟩
  · exact ⟨s.regs, s.tx, rfl, .refl _ _⟩

theorem countRx_frame (s : State) (h : Fin 8) (t : Nat) : ∃ regs rx, s.countRx h t = { s with regs := regs, rx := rx } ∧ RfSame [hamletBase h + Reg.RXC_UNLOCK_CNT] s.regs regs
    ∧ rx[h].zeroFrom = s.rx[h].zeroFrom := by
  rw [State.countRx]
  dsimp only
  have reg : (Fld.RXC_UNLOCK_CNT_COUNT.h h).reg = hamletBase h + Reg.RXC_UNLOCK_CNT := Field.reg_h_eq h rfl
  generalize Fld.RXC_UNLOCK_CNT_COUNT.h h = f at *
  split
  · rw [State.add_eq]
    exact ⟨_, _, rfl, (RfSame.refl _ _).put (by rw [reg]; exact List.mem_singleton_self _) _, by rw [Fin.getElem_fin, Vector.getElem_set_self, Fin.getElem_fin]⟩
  · exact ⟨s.regs, s.rx, rfl, .refl _ _, rfl⟩

/-- A register file with a status field put after a count, named. -/
theorem counted_put {f : Field} {a b : Nat} {l m : RegFile} (reg : f.reg = a) (fits : f.fits = true) (same : RfSame [b] l m) :
    ∃ n, rfPut m f 0 = n ∧ rfGet n f = 0 ∧ RfSame [a, b] l n := by
  refine ⟨_, rfl, (rfGet_rfPut_self _ _ fits).trans (Nat.zero_mod _), RfSame.put (fun c out => same c fun there => out (List.mem_cons_of_mem _ there)) ?_ _⟩
  rw [reg]
  exact List.mem_cons_self ..

theorem gives_txDataResume (waits : s.tx[h].resumeDue = some d) :
    Gives (.txDataResume h) s fun t => t.get (Fld.TXC_STAT_UNLOCKED.h h) = 0 ∧ t.tx[h].forced = false ∧ t.tx[h].dacGated = false ∧ t.tx[h].resumeDue = none
      ∧ (s.dl.syms = [] → t = { s with now := max s.now d, regs := t.regs, tx := t.tx, dl := { s.dl with done := max s.dl.done (max s.now d) } }
        ∧ SameRegs [hamletBase h + Reg.TXC_STAT, hamletBase h + Reg.TXC_UNLOCK_CNT] s t) := by
  obtain ⟨regs, tx, counted, same⟩ := countTx_frame (s.at d).txRun h (d - 1)
  obtain ⟨l, put, unlocked, both⟩ := counted_put (f := Fld.TXC_STAT_UNLOCKED.h h) (Field.reg_h_eq h rfl) ((fits_window _ h).trans (by decide)) same
  have ran : exec (.txDataResume h) s = .next { (s.at d).txRun with regs := l, tx := tx.set h { tx[h] with forced := false, quiet := false, dacGated := false, resumeDue := none } } := by
    show execTxDataResume h s = _
    rw [execTxDataResume, waits]
    dsimp only
    rw [counted, State.put_eq, put]
  refine Gives.of_eq ran ⟨?_, congrArg Tx.forced (Vector.getElem_set_self _), congrArg Tx.dacGated (Vector.getElem_set_self _), congrArg Tx.resumeDue (Vector.getElem_set_self _), fun none_ => ?_⟩
  · rw [State.get_eq_rfGet]
    exact unlocked
  · rw [txRun_none (s := s.at d) none_] at both ⊢
    exact ⟨rfl, RfSame.sameRegs both⟩

theorem gives_rxContributionResume (waits : s.rx[h].resumeDue = some d) :
    Gives (.rxContributionResume h) s fun t => t.get (Fld.RXC_STAT_UNLOCKED.h h) = 0 ∧ t.rx[h].forced = false
      ∧ (s.rx[h].zeroFrom, d) ∈ t.rx[h].zeros ∧ t.rx[h].resumeDue = none
      ∧ t = { s with now := max s.now d, regs := t.regs, rx := t.rx } ∧ SameRegs [hamletBase h + Reg.RXC_STAT, hamletBase h + Reg.RXC_UNLOCK_CNT] s t := by
  obtain ⟨regs, rx, counted, same, from_⟩ := countRx_frame (s.at d) h (d - 1)
  obtain ⟨l, put, unlocked, both⟩ := counted_put (f := Fld.RXC_STAT_UNLOCKED.h h) (Field.reg_h_eq h rfl) ((fits_window _ h).trans (by decide)) same
  have ran : exec (.rxContributionResume h) s = .next { s with now := max s.now d, regs := l, rx := rx.set h { rx[h] with forced := false, zeros := (rx[h].zeroFrom, d) :: rx[h].zeros.filter fun z => decide (max s.now d < z.2 + 50 * msU), quiet := false, resumeDue := none } } := by
    show execRxContributionResume h s = _
    rw [execRxContributionResume, waits]
    dsimp only
    rw [counted, State.put_eq, put]
    rfl
  refine Gives.of_eq ran ⟨?_, congrArg Rx.forced (Vector.getElem_set_self _), ?_, congrArg Rx.resumeDue (Vector.getElem_set_self _), rfl, RfSame.sameRegs both⟩
  · rw [State.get_eq_rfGet]
    exact unlocked
  · have zeros : ((rx.set h { rx[h] with forced := false, zeros := (rx[h].zeroFrom, d) :: rx[h].zeros.filter fun z => decide (max s.now d < z.2 + 50 * msU), quiet := false, resumeDue := none })[h]).zeros
        = (rx[h].zeroFrom, d) :: rx[h].zeros.filter fun z => decide (max s.now d < z.2 + 50 * msU) := congrArg Rx.zeros (Vector.getElem_set_self _)
    rw [zeros, from_]
    exact List.mem_cons_self ..

end

/-- Settles O18: the settings of a boundary change the file in force, the data of the hamlet and what waits for the same boundary; a ramp, its end and the safety ramp change the
mute gains and the registers of their hamlet, and an end of the converter's outage the data of the direction. -/
theorem settingsAndMute : Obligations.SettingsAndMute :=
  ⟨⟨fun _ _ _ _ runs waits => gives_halfSubframe runs waits, fun _ _ _ _ _ _ waits runs long => gives_muteRampStart waits runs long,
    fun _ _ _ ramps calm => gives_muteRampEnd ramps calm, fun _ _ _ on => gives_safetyRamp on, fun _ _ _ ramps => gives_safetyRampEnd ramps,
    fun _ _ _ stops => ⟨congrArg Host.Outcome.next (if_pos stops), congrArg Host.Outcome.next (if_pos stops)⟩⟩,
   fun _ _ forced open_ out => exec_dacClockGate forced open_ out, fun _ _ _ waits => gives_txDataResume waits, fun _ _ _ waits => gives_rxContributionResume waits⟩

end Sys2Proof.Machine
end

section
/-!
PROOFS. What the thermal supervisor's work on a round (R366 to R374) leaves alone of the housekeeping ADC.
-/

namespace Sys2Proof.Machine

/-- Device time, the ADC's own data and every register of its block are the same. -/
structure HkKept (s t : State) : Prop where
  now : t.now = s.now
  hk : t.hk = s.hk
  regs : ∀ a, 0x4040000 ≤ a ∧ a < 0x4050000 → t.rd a = s.rd a

section
variable {s t u : State}

theorem HkKept.refl (s : State) : HkKept s s := ⟨rfl, rfl, fun _ _ => rfl⟩

theorem HkKept.trans (first : HkKept s t) (second : HkKept t u) : HkKept s u :=
  ⟨second.now.trans first.now, second.hk.trans first.hk, fun a inside => (second.regs a inside).trans (first.regs a inside)⟩

/-- A change of data of another block. -/
theorem HkKept.congr (same : HkKept s t) (regs : u.regs = t.regs) (now : u.now = t.now) (hk : u.hk = t.hk) : HkKept s u :=
  same.trans ⟨now, hk, fun a _ => State.rd_congr regs a⟩

theorem HkKept.put (same : HkKept s t) {f : Field} (v : Nat) (outside : f.reg < 0x4040000 ∨ 0x4050000 ≤ f.reg) : HkKept s (t.put f v) :=
  same.trans ⟨rfl, rfl, fun a inside => State.rd_wr_ne t _ (by omega)⟩

theorem HkKept.inc (same : HkKept s t) {f : Field} (outside : f.reg < 0x4040000 ∨ 0x4050000 ≤ f.reg) : HkKept s (t.inc f) := same.put _ outside

theorem HkKept.setBit (same : HkKept s t) {f : Field} (n : Nat) (outside : f.reg < 0x4040000 ∨ 0x4050000 ≤ f.reg) : HkKept s (t.setBit f n) := same.put _ outside

theorem HkKept.clrBit (same : HkKept s t) {f : Field} (n : Nat) (outside : f.reg < 0x4040000 ∨ 0x4050000 ≤ f.reg) : HkKept s (t.clrBit f n) := same.put _ outside

/-- Registers of a hamlet's window lie above the ADC's. -/
theorem HkKept.putH (same : HkKept s t) (f : Field) (h v : Nat) : HkKept s (t.put (f.h h) v) := by
  refine same.put v (.inr ?_)
  rw [Field.reg_h_eq h rfl, hamletBase]
  omega

theorem HkKept.thm (same : HkKept s t) (x : Thm) : HkKept s (t.setThm x) := same.congr rfl rfl rfl

theorem HkKept.zone (same : HkKept s t) (z : Fin 9) (x : ThmZone) : HkKept s (t.setZone z x) := same.thm _

theorem HkKept.foldl {β : Type} {f : State → β → State} (each : ∀ t b, HkKept t (f t b)) (same : HkKept s t) (l : List β) : HkKept s (l.foldl f t) := by
  induction l generalizing t with
  | nil => exact same
  | cons b l ih => exact ih (same.trans (each t b))

theorem HkKept.ite (c : Prop) [Decidable c] (yes : HkKept s t) (no : HkKept s u) : HkKept s (if c then t else u) := by
  split
  · exact yes
  · exact no

theorem HkKept.foldl_mem {β : Type} {f : State → β → State} {l : List β} (each : ∀ t, ∀ b ∈ l, HkKept t (f t b)) (same : HkKept s t) : HkKept s (l.foldl f t) := by
  induction l generalizing t with
  | nil => exact same
  | cons b l ih => exact ih (fun t c there => each t c (List.mem_cons_of_mem _ there)) (same.trans (each t b (List.mem_cons_self ..)))

theorem HkKept.bias (same : HkKept s t) (c : Fin 32) (x : Bias) : HkKept s (t.setBias c x) := same.congr rfl rfl rfl

theorem HkKept.dma (same : HkKept s t) (h c : Fin 8) (x : DmaCh) : HkKept s (t.setDma h c x) := same.congr rfl rfl rfl

/-! ### Faults and messages -/

theorem hkKept_quiet (s : State) : Quiet fun t => t.now = s.now ∧ t.hk = s.hk := fun _ _ _ _ _ _ _ _ _ _ _ _ _ _ _ same => same

theorem hkKept_raiseKeeps (s : State) : RaiseKeeps fun t => ∀ a, 0x4040000 ≤ a ∧ a < 0x4050000 → t.rd a = s.rd a where
  congr same kept a inside := (State.rd_congr same a).trans (kept a inside)
  wr t b v touched kept a inside := by
    rw [State.rd_wr_ne t v]
    · exact kept a inside
    · intro same
      rw [← same] at touched
      have outside : raiseTouches a = false := by
        simp only [raiseTouches, Reg.LNK_CNTn, Reg.LNK_FLOWf_STAT, Reg.LNK_ULC_CFG, Reg.LNK_STAT, Reg.LNK_CAP, Bool.or_eq_false_iff, Bool.and_eq_false_iff, decide_eq_false_iff_not,
          beq_eq_false_iff_ne]
        omega
      rw [outside] at touched
      cases touched

theorem HkKept.of_laws (quiet : t.now = s.now ∧ t.hk = s.hk) (regs : ∀ a, 0x4040000 ≤ a ∧ a < 0x4050000 → t.rd a = s.rd a) : HkKept s t := ⟨quiet.1, quiet.2, regs⟩

theorem hkKept_raise (num elem info : Nat) : HkKept s (s.raise num elem info) :=
  .of_laws (quiet_State_raise (hkKept_quiet s) s num elem info ⟨rfl, rfl⟩) (raiseKeeps_State_raise (hkKept_raiseKeeps s) s num elem info fun _ _ => rfl)

theorem hkKept_raiseSev (num sev elem info : Nat) (ind : Bool) : HkKept s (s.raiseSev num sev elem info ind) :=
  .of_laws (quiet_State_raiseSev (hkKept_quiet s) s num sev elem info ind ⟨rfl, rfl⟩) (raiseKeeps_State_raiseSev (hkKept_raiseKeeps s) s num sev elem info ind fun _ _ => rfl)

theorem hkKept_faultAction (num sev elem : Nat) : HkKept s (s.faultAction num sev elem) :=
  .of_laws (quiet_State_faultAction (hkKept_quiet s) s num sev elem ⟨rfl, rfl⟩) (raiseKeeps_State_faultAction (hkKept_raiseKeeps s) s num sev elem fun _ _ => rfl)

theorem hkKept_indicate (i : Indic) : HkKept s (s.indicate i) :=
  .of_laws (quiet_State_indicate (hkKept_quiet s) s i ⟨rfl, rfl⟩) (raiseKeeps_State_indicate (hkKept_raiseKeeps s) s i fun _ _ => rfl)

theorem hkKept_stage (b : List Nat) : HkKept s (s.stage 2 b) :=
  .of_laws (quiet_State_stage (hkKept_quiet s) s 2 b ⟨rfl, rfl⟩) (raiseKeeps_State_stage (hkKept_raiseKeeps s) s 2 b (fun _ _ => rfl) (by decide))

theorem hkKept_notifyLink (num elem info : Nat) : HkKept s (s.notifyLink num elem info) := by
  rw [State.notifyLink]
  dsimp only
  split
  · refine HkKept.trans (t := { s with port := { s.port with eventId := (s.port.eventId + 1) % 256 } }) ?_ (hkKept_stage _)
    exact (HkKept.refl s).congr rfl rfl rfl
  · exact .refl s

theorem hkKept_raiseSend (num elem info : Nat) : HkKept s (s.raiseSend num elem info) := by
  rw [State.raiseSend]
  split
  · exact (hkKept_raise num elem info).trans (hkKept_indicate _)
  · exact hkKept_raiseSev ..

/-! ### The sensors and the zones (R366 to R368) -/

theorem sensor_low (f : Field) (at_ : f.reg = Reg.THM_SENSn ∧ f.dims = [4]) (n : Fin 84) : (f.i n).reg < 0x4040000 ∨ 0x4050000 ≤ (f.i n).reg := by
  rw [Field.i, at_.1, at_.2]
  have small : n.val < 84 := n.isLt
  show 0x4030100 + n.val * 4 < 0x4040000 ∨ _
  omega

theorem zone_low (f : Field) (at_ : f.reg = Reg.THM_ZONEz ∧ f.dims = [4]) (z : Fin 9) : (f.i z).reg < 0x4040000 ∨ 0x4050000 ≤ (f.i z).reg := by
  rw [Field.i, at_.1, at_.2]
  have small : z.val < 9 := z.isLt
  show 0x4030040 + z.val * 4 < 0x4040000 ∨ _
  omega

theorem hkKept_stepReading (temps : List (Nat × Nat × Bool)) (n : Fin 84) : HkKept s (stepReading temps s n) := by
  rw [stepReading]
  split
  · exact (HkKept.refl s).put _ (sensor_low _ ⟨rfl, rfl⟩ n)
  · next r _ =>
    have read := ((HkKept.refl s).put (f := Fld.THM_SENSn_ABSENT.i n) 0 (sensor_low _ ⟨rfl, rfl⟩ n)).put (f := Fld.THM_SENSn_RAW.i n) r.2.1 (sensor_low _ ⟨rfl, rfl⟩ n)
    refine HkKept.thm ?_ _
    split
    · exact read.put _ (sensor_low _ ⟨rfl, rfl⟩ n)
    · exact read

theorem hkKept_stepNeighbour (n : Fin 84) (fails : Bool) (els : List Int) : HkKept s (stepNeighbour s n fails els) := by
  have kept (x : Thm) : HkKept s (s.setThm x) := (HkKept.refl s).thm x
  have low (f : Field) (at_ : f.reg = Reg.THM_SENSn ∧ f.dims = [4]) (t : State) (v : Nat) (same : HkKept s t) : HkKept s (t.put (f.i n) v) := same.put v (sensor_low f at_ n)
  rw [stepNeighbour]
  refine .ite _ (.refl s) (.ite _ ?_ ?_)
  · exact .ite _ (low Fld.THM_SENSn_SUSPECT ⟨rfl, rfl⟩ _ _ (kept _)) (kept _)
  · have near (x : Thm) (c : Prop) [Decidable c] : HkKept s (if c then (s.setThm x).put (Fld.THM_SENSn_SUSPECT.i n) 0 else s.setThm x) :=
      .ite _ (low Fld.THM_SENSn_SUSPECT ⟨rfl, rfl⟩ _ _ (kept _)) (kept _)
    exact .ite _ (low Fld.THM_SENSn_FAILED ⟨rfl, rfl⟩ _ _ (near _ _)) (near _ _)

theorem hkKept_judgeSensors (temps : List (Nat × Nat × Bool)) : HkKept s (judgeSensors temps s).1 := by
  rw [judgeSensors]
  refine HkKept.foldl_mem (fun t n there => ?_) (HkKept.foldl (fun t n => hkKept_stepNeighbour n _ _) (HkKept.foldl (fun t n => hkKept_stepReading temps n) (.refl s) _) _)
  have small : n < 84 := by
    obtain ⟨m, -, listed⟩ := List.mem_flatMap.1 there
    rw [List.mem_singleton.1 listed]
    exact m.isLt
  split
  · exact (HkKept.refl t).put _ (sensor_low Fld.THM_SENSn_EFF ⟨rfl, rfl⟩ ⟨n, small⟩)
  · exact .refl t

theorem hkKept_hardCheck : HkKept s (hardCheck s) := by
  rw [hardCheck]
  dsimp only
  split
  · exact .refl s
  · exact (HkKept.refl s).thm _

theorem hkKept_pinZone (turned : List Nat) (z : Fin 9) : HkKept s (pinZone turned z s) := by
  rw [pinZone]
  exact ((HkKept.refl s).zone z _).put _ (.inl (by decide))

theorem hkKept_judgeZone (turned : List Nat) (z : Fin 9) : HkKept s (judgeZone turned z s).1 := by
  have shown {t : State} (c : Bool) {f : Field} (low : f.reg < 0x4040000 ∨ 0x4050000 ≤ f.reg) : HkKept t (if c then t.setBit f z else t.clrBit f z) := by
    split
    · exact (HkKept.refl t).setBit z low
    · exact (HkKept.refl t).clrBit z low
  rw [judgeZone]
  split
  · exact hkKept_pinZone turned z
  · next m _ =>
    have top := ((HkKept.refl s).put (f := Fld.THM_ZONEz_MAX.i z) (unsigned 12 m.1) (zone_low _ ⟨rfl, rfl⟩ z)).put (f := Fld.THM_ZONEz_HOT.i z) m.2 (zone_low _ ⟨rfl, rfl⟩ z)
    exact ((((top.trans (hkKept_pinZone turned z)).zone z _).trans (shown _ (.inl (by decide)))).trans (shown _ (.inl (by decide))))

/-! ### What a round reports (R369 to R371) -/

theorem hkKept_changeActs (z : Fin 9) (acts : Word) : HkKept s (changeActs z acts s) := by
  have rails : HkKept s ((zoneHamlets z).foldl (fun s h => reramp h (fun s => s) s) s) :=
    HkKept.foldl (f := fun s h => reramp h (fun s => s) s) (fun t h => (HkKept.refl t).congr rfl rfl rfl) (.refl s) _
  have boundaries (t : State) (w : Word) (h : Fin 8) : HkKept t (
      let s := if getBits Fld.THM_ACTz_BO w = 1 then t.setThm { t.thm with boDue := t.thm.boDue.set h (t.thm.boDue[h] ++ [(halfAfter2 t.now, t.boSteps h)]) } else t
      match s.rotWord h, s.thm.rot[h] with
      | some a, none => s.setThm { s.thm with rot := s.thm.rot.set h (some ⟨8, rotSize a, nextAfter s.now halfU, false⟩) }
      | none, some r => s.setThm { s.thm with rot := s.thm.rot.set h (some { r with due := nextAfter s.now halfU, stop := true }) }
      | _, _ => s) := by
    have backoff : HkKept t (if getBits Fld.THM_ACTz_BO w = 1 then t.setThm { t.thm with boDue := t.thm.boDue.set h (t.thm.boDue[h] ++ [(halfAfter2 t.now, t.boSteps h)]) } else t) := by
      split
      · exact (HkKept.refl t).thm _
      · exact .refl t
    dsimp only
    split
    · exact backoff.thm _
    · exact backoff.thm _
    · exact backoff
  have shed (t : State) (c : Prop) [Decidable c] (x : Thm) : HkKept t (if c then t.setThm x else t) := by
    split
    · exact (HkKept.refl t).thm x
    · exact .refl t
  have told (t : State) (c : Prop) [Decidable c] (num elem info : Nat) : HkKept t (if c then t else t.notifyLink num elem info) := by
    split
    · exact .refl t
    · exact hkKept_notifyLink ..
  rw [changeActs]
  exact (((rails.zone z _).trans (.foldl (fun t h => boundaries t _ h) (.refl _) _)).trans (shed ..)).trans (told ..)

theorem hkKept_stopDma (h c : Fin 8) (code : Nat) : HkKept s (s.stopDma h c code) := by
  rw [State.stopDma]
  exact ((((HkKept.refl s).putH (Fld.DMA_CHn_STAT_STATE.i c) h 0).putH (Fld.DMA_CHn_STAT_CODE.i c) h code).dma h c _).putH Fld.DMA_CTRL_ALLSTOP h _

theorem hkKept_stopAllDma (h : Fin 8) : HkKept s (s.stopAllDma h) := by
  rw [State.stopAllDma]
  refine .foldl (fun t c => ?_) ((HkKept.refl s).putH Fld.DMA_CTRL_STOPALL h 1) _
  have cleared : HkKept t (t.put ((Fld.DMA_CHn_STAT_PENDTRG.i c).h h) 0) := (HkKept.refl t).putH (Fld.DMA_CHn_STAT_PENDTRG.i c) h 0
  rw [State.endDma]
  dsimp only
  refine .ite _ (.ite _ cleared (.refl t)) ?_
  generalize t.put ((Fld.DMA_CHn_STAT_PENDTRG.i c).h h) 0 = u at cleared ⊢
  exact .ite _ (cleared.dma h c _) (cleared.trans (hkKept_stopDma h c 3))

theorem hkKept_stopBist : HkKept s (stopBist s) := by
  have shown : HkKept s ((s.put Fld.BIST_STAT_ABORT 1).put Fld.BIST_STAT_PHASE 4) := ((HkKept.refl s).put _ (.inr (by decide))).put _ (.inr (by decide))
  rw [stopBist]
  split
  · generalize (s.put Fld.BIST_STAT_ABORT 1).put Fld.BIST_STAT_PHASE 4 = u at shown ⊢
    exact shown.congr rfl rfl rfl
  · exact .refl s

theorem hkKept_beginStop (cause : Nat × Nat) : HkKept s (beginStop cause s) := by
  rw [beginStop]
  dsimp only
  split
  · exact hkKept_raise ..
  · have begun (x : Thm) := (((HkKept.refl s).put (f := Fld.THM_STAT_STOPPING) 1 (.inl (by decide))).thm x).trans (hkKept_raise 0x452 0xFF (thmRec false cause))
    refine HkKept.trans (HkKept.foldl (fun t h => hkKept_stopAllDma h) ?_ _) hkKept_stopBist
    split
    · exact (begun _).trans (hkKept_faultAction ..)
    · exact begun _

theorem hkKept_reportRound (ch : List (Fin 9 × Nat × Bool)) (turned : List Nat) : HkKept s (reportRound ch turned s) := by
  have throttled (t : State) (z : Fin 9) : HkKept t (applyActs z ((t.raiseSend 0x451 0xFF z.val).inc (Fld.THM_CNTn_COUNT.i 1))) :=
    ((hkKept_raiseSend ..).inc (.inl (by decide))).trans (hkKept_changeActs z _)
  have bad (t : State) (n : Nat) : HkKept t ((t.raise 0x453 0xFF n).inc (Fld.THM_CNTn_COUNT.i 0)) := (hkKept_raise ..).inc (.inl (by decide))
  have calm (t : State) (z : Fin 9) : HkKept t (ceaseZone 0x451 z.val (changeActs z 0#32 t)) := (hkKept_changeActs z _).trans (hkKept_indicate _)
  rw [reportRound]
  exact HkKept.foldl (fun _ _ => hkKept_indicate _) (.foldl (fun t z => calm t z) (.foldl (fun t n => bad t n) (.foldl (fun _ _ => hkKept_raiseSend ..)
    (.foldl (fun t z => throttled t z) (.foldl (fun _ _ => hkKept_beginStop _) (.refl s) _) _) _) _) _) _

theorem hkKept_judgeZones (turned : List Nat) (zs : List (Fin 9)) (p : State × List (Fin 9 × Nat × Bool)) : HkKept p.1 (zs.foldl (fun p z =>
    let y := judgeZone turned z p.1
    (y.1, p.2 ++ y.2.map fun c => (z, c.1, c.2))) p).1 := by
  induction zs generalizing p with
  | nil => exact .refl _
  | cons z zs ih => exact HkKept.trans (hkKept_judgeZone turned z) (ih ((judgeZone turned z p.1).1, _))

theorem hkKept_thermalRound (temps : List (Nat × Nat × Bool)) : HkKept s (thermalRound temps s) := by
  rw [thermalRound]
  exact (((hkKept_judgeSensors temps).trans hkKept_hardCheck).trans (hkKept_judgeZones _ _ (_, []))).trans (hkKept_reportRound _ _)

theorem hkKept_trimStep : HkKept s (trimStep s) := (HkKept.refl s).congr rfl rfl rfl

theorem hkKept_noteVbat (mv : Nat) : HkKept s (noteVbat mv s) := by
  have kept : HkKept s (s.put Fld.HTH_MON_VAL_VBAT mv) := (HkKept.refl s).put mv (.inr (by decide))
  rw [noteVbat]
  exact .ite _ (kept.put _ (.inr (by decide))) kept

theorem hkKept_vcxoRenew (t : Int) : HkKept s (vcxoRenew t s) := by
  have drawn (c : Prop) [Decidable c] : HkKept s (if c then s.drawn.2 else s) := by
    split
    · exact (HkKept.refl s).congr rfl rfl rfl
    · exact .refl s
  rw [vcxoRenew]
  dsimp only
  exact .ite _ (.refl s) (.ite _ ((drawn _).bias _ _) ((drawn _).bias _ _))

end

end Sys2Proof.Machine
end

section
/-!
PROOFS. The housekeeping ADC's converter (R377 to R385): what the sequencer changes when it goes on, and the fixed round.
-/

namespace Sys2Proof.Machine

/-! ### The converter goes on -/

/-- The sequencer has gone on: the status register and the ADC's own data may differ, but not the round's flag, its readings, its next start or the recovery window. -/
structure WentOn (s t : State) : Prop where
  frame : ∃ regs hk, t = { s with regs := regs, hk := hk }
  regs : RfSame [Reg.HKA_STAT] s.regs t.regs
  round : t.get Fld.HKA_STAT_ROUND = s.get Fld.HKA_STAT_ROUND
  temps : t.hk.temps = s.hk.temps
  inRound : t.hk.inRound = s.hk.inRound
  recov : t.hk.recov = s.hk.recov
  next : t.hk.next = s.hk.next

section
variable {s t u : State}

theorem WentOn.refl (s : State) : WentOn s s := ⟨⟨s.regs, s.hk, rfl⟩, .refl _ _, rfl, rfl, rfl, rfl, rfl⟩

theorem WentOn.trans (first : WentOn s t) (second : WentOn t u) : WentOn s u := by
  obtain ⟨frame1, regs1, round1, temps1, in1, recov1, next1⟩ := first
  obtain ⟨frame2, regs2, round2, temps2, in2, recov2, next2⟩ := second
  refine ⟨?_, regs1.trans regs2, round2.trans round1, temps2.trans temps1, in2.trans in1, recov2.trans recov1, next2.trans next1⟩
  obtain ⟨_, _, rfl⟩ := frame1
  obtain ⟨_, _, rfl⟩ := frame2
  exact ⟨_, _, rfl⟩

theorem WentOn.put (same : WentOn s t) {f : Field} (v : Nat) (at_ : f.reg = Reg.HKA_STAT) (fits : f.fits = true) (apart : f.apart Fld.HKA_STAT_ROUND = true) : WentOn s (t.put f v) := by
  refine same.trans ⟨⟨_, t.hk, State.put_eq ..⟩, ?_, ?_, rfl, rfl, rfl, rfl⟩
  · rw [State.put_eq]
    exact (RfSame.refl _ _).put (by rw [at_]; exact List.mem_singleton_self _) v
  · rw [State.put_eq, State.get_eq_rfGet, State.get_eq_rfGet]
    exact rfGet_rfPut_apart _ _ fits apart

theorem WentOn.setHk (same : WentOn s t) {x : Hk} (temps : x.temps = t.hk.temps) (inRound : x.inRound = t.hk.inRound) (recov : x.recov = t.hk.recov) (next : x.next = t.hk.next) :
    WentOn s (t.setHk x) := same.trans ⟨⟨t.regs, x, rfl⟩, .refl _ _, rfl, temps, inRound, recov, next⟩

theorem WentOn.ite (c : Prop) [Decidable c] (yes : WentOn s t) (no : WentOn s u) : WentOn s (if c then t else u) := by
  split
  · exact yes
  · exact no

theorem wentOn_beginEntry (fixed : Bool) (n ch osr settle : Nat) (ext : Bool) : WentOn s (beginEntry fixed n ch osr settle ext s) := by
  rw [beginEntry]
  exact (WentOn.refl s).setHk rfl rfl rfl rfl

theorem wentOn_beginUser (n : Nat) : WentOn s (beginUser n s) := by
  rw [beginUser]
  refine WentOn.trans ?_ (wentOn_beginEntry ..)
  exact ((WentOn.refl s).put (f := Fld.HKA_STAT_ENTRY) n rfl (by decide) (by decide)).setHk rfl rfl rfl rfl

theorem wentOn_endPass (stopped : Bool) : WentOn s (endPass stopped s) := by
  have ends (u : State) (same : WentOn s u) : WentOn s (if stopped || u.seqMode = 0 then u.put Fld.HKA_STAT_SEQRUN 0
      else if u.seqMode = 1 then u.setHk { u.hk with pos := 0 } else u) :=
    .ite _ (same.put 0 rfl (by decide) (by decide)) (.ite _ (same.setHk rfl rfl rfl rfl) same)
  rw [endPass]
  exact ends _ (((WentOn.refl s).put (f := Fld.HKA_STAT_SEQDONE) 1 rfl (by decide) (by decide)).setHk rfl rfl rfl rfl)

theorem wentOn_takeUser : WentOn s (takeUser s) := by
  have begun (t : State) (o : Option Nat) : WentOn t (match o with | some n => beginUser n t | none => t) := by
    cases o with
    | some n => exact wentOn_beginUser n
    | none => exact .refl t
  rw [takeUser]
  refine .ite _ (.refl s) ?_
  cases s.nextUser s.hk.pos with
  | some n => exact wentOn_beginUser n
  | none => exact (wentOn_endPass false).trans (.ite _ (.refl _) (begun _ _))

theorem wentOn_nextEntry : WentOn s (nextEntry s) := by
  have free : WentOn s (s.setHk { s.hk with conv := none }) := (WentOn.refl s).setHk rfl rfl rfl rfl
  rw [nextEntry]
  refine .ite _ ?_ (free.trans wentOn_takeUser)
  split
  · exact free.setHk rfl rfl rfl rfl
  · refine WentOn.trans ?_ (wentOn_beginEntry ..)
    exact free.setHk rfl rfl rfl rfl

/-! ### The fixed round (R381, R382) -/

/-- The registers as a round is shown to run. -/
theorem roundShown (l : RegFile) : RfSame [Reg.HKA_STAT] l (rfPut l Fld.HKA_STAT_ROUND 1) ∧ rfGet (rfPut l Fld.HKA_STAT_ROUND 1) Fld.HKA_STAT_ROUND = 1
    ∧ rfRead (rfPut l Fld.HKA_STAT_ROUND 1) Reg.HKA_ROUND = rfRead l Reg.HKA_ROUND := by
  have shown : RfSame [Reg.HKA_STAT] l (rfPut l Fld.HKA_STAT_ROUND 1) := (RfSame.refl _ _).put (by decide) 1
  exact ⟨shown, rfGet_rfPut_self _ _ (by decide), shown _ (by decide)⟩

/-- The ADC's own data at the start of a round. -/
def Hk.begun (x : Hk) (chans : List Nat) : Hk := { x with inRound := true, waiting := false, round := chans, temps := [], tsrc := none }

/-- A round has begun. -/
theorem beginRound_frame (s : State) : ∃ regs eff hk, beginRound s = { s with regs := regs, eff := eff, hk := hk } ∧ RfSame [Reg.HKA_STAT] s.regs regs ∧ rfGet regs Fld.HKA_STAT_ROUND = 1
    ∧ rfRead eff Reg.HKA_ROUND = s.rd Reg.HKA_ROUND ∧ hk.temps = [] ∧ hk.inRound = true ∧ hk.recov = s.hk.recov ∧ hk.next = s.hk.next := by
  obtain ⟨shown, set1, read⟩ := roundShown s.regs
  have begun : ∃ l e chans, beginRound s = nextEntry { s with regs := l, eff := e, hk := s.hk.begun chans } ∧ RfSame [Reg.HKA_STAT] s.regs l ∧ rfGet l Fld.HKA_STAT_ROUND = 1
      ∧ rfRead e Reg.HKA_ROUND = s.rd Reg.HKA_ROUND := by
    have chans : ∃ chans, beginRound s = nextEntry { s with regs := rfPut s.regs Fld.HKA_STAT_ROUND 1, eff := rfWrite s.eff Reg.HKA_ROUND (rfRead s.regs Reg.HKA_ROUND), hk := s.hk.begun chans } := by
      rw [beginRound, State.put_eq, State.take, State.ewr, State.rd_eq_rfRead]
      dsimp only
      rw [read]
      exact ⟨_, rfl⟩
    obtain ⟨chans, begun⟩ := chans
    exact ⟨_, _, chans, begun, shown, set1, rfRead_write_same ..⟩
  obtain ⟨l, e, chans, begun, shown, set1, inForce⟩ := begun
  obtain ⟨⟨regs, hk, frame⟩, same, round, temps, inRound, recov, next⟩ := wentOn_nextEntry (s := { s with regs := l, eff := e, hk := s.hk.begun chans })
  rw [frame] at begun same round temps inRound recov next
  rw [State.get_eq_rfGet, State.get_eq_rfGet] at round
  exact ⟨regs, e, hk, begun, shown.trans same, round.trans set1, inForce, temps, inRound, recov, next⟩

/-- When the next round starts (R382). -/
def State.roundDue (s : State) : Nat := nextMult (max s.now (s.hk.next + 1)) (max 1 (s.eget Fld.HKA_ROUND_PERIOD) * msU)

/-- What the instant of a round's start does with the converter as it stands. -/
def roundGoes (s : State) : State :=
  if s.hk.inRound || s.hk.waiting then (s.inc (Fld.HKA_CNTn_COUNT.i 1)).put Fld.HKA_STAT_OVERRUN 1
  else if s.hk.conv.isSome then s.setHk { s.hk with waiting := true }
  else beginRound s

/-- The ADC's own data once a round's start is passed. -/
def Hk.nextAt (x : Hk) (d : Nat) : Hk := { x with next := d }

theorem exec_hkRoundStart (runs : s.running = true) : exec .hkRoundStart s = .next (roundGoes { s with now := max s.now s.roundDue, hk := s.hk.nextAt s.roundDue }) := by
  have passed (d : Nat) : (s.at d).setHk (s.hk.nextAt d) = { s with now := max s.now d, hk := s.hk.nextAt d } := rfl
  rw [← passed]
  show execHkRoundStart s = _
  rw [execHkRoundStart, runs, if_neg (by decide)]
  dsimp only
  rw [← State.roundDue]
  generalize s.roundDue = d
  rw [roundGoes, Hk.nextAt]

theorem roundGoes_busy (busy : s.hk.inRound = true ∨ s.hk.waiting = true) : roundGoes s = (s.inc (Fld.HKA_CNTn_COUNT.i 1)).put Fld.HKA_STAT_OVERRUN 1 := by
  rw [roundGoes, if_pos (by simpa using busy)]

theorem roundGoes_waits (out : s.hk.inRound = false) (fresh : s.hk.waiting = false) (busy : s.hk.conv ≠ none) : roundGoes s = { s with hk := { s.hk with waiting := true } } := by
  rw [roundGoes, if_neg (by simp [out, fresh]), if_pos (Option.isSome_iff_ne_none.2 busy), State.setHk]

theorem roundGoes_begins (out : s.hk.inRound = false) (fresh : s.hk.waiting = false) (free : s.hk.conv = none) : roundGoes s = beginRound s := by
  rw [roundGoes, if_neg (by simp [out, fresh]), if_neg (by simp [free])]

/-- A count of the ADC one up. -/
theorem hkCounted (l : RegFile) (n : Nat) :
    rfGet (rfPut l (Fld.HKA_CNTn_COUNT.i n) (min (rfGet l (Fld.HKA_CNTn_COUNT.i n) + 1) (2 ^ 32 - 1))) (Fld.HKA_CNTn_COUNT.i n) = min (rfGet l (Fld.HKA_CNTn_COUNT.i n) + 1) (2 ^ 32 - 1) := by
  rw [rfGet_rfPut_self_i _ _ _ (by decide)]
  exact Nat.mod_eq_of_lt (Nat.lt_of_le_of_lt (Nat.min_le_right _ _) (by decide))

theorem gives_round_skipped (runs : s.running = true) (busy : s.hk.inRound = true ∨ s.hk.waiting = true) : Gives .hkRoundStart s fun t => t.get Fld.HKA_STAT_OVERRUN = 1
      ∧ t.get (Fld.HKA_CNTn_COUNT.i 1) = min (s.get (Fld.HKA_CNTn_COUNT.i 1) + 1) (2 ^ 32 - 1)
      ∧ t = { s with now := max s.now s.roundDue, regs := t.regs, hk := { s.hk with next := s.roundDue } } ∧ SameRegs [(Fld.HKA_CNTn_COUNT.i 1).reg, Reg.HKA_STAT] s t := by
  have ran := exec_hkRoundStart runs
  obtain ⟨d, is⟩ : ∃ d, s.roundDue = d := ⟨_, rfl⟩
  rw [is] at ran ⊢
  rw [roundGoes_busy (s := { s with now := max s.now d, hk := s.hk.nextAt d }) busy, State.inc_eq, State.put_eq] at ran
  have counted := hkCounted s.regs 1
  have same : RfSame [(Fld.HKA_CNTn_COUNT.i 1).reg, Reg.HKA_STAT] s.regs (rfPut (rfPut s.regs (Fld.HKA_CNTn_COUNT.i 1) (min (rfGet s.regs (Fld.HKA_CNTn_COUNT.i 1) + 1) (2 ^ 32 - 1))) Fld.HKA_STAT_OVERRUN 1) :=
    ((RfSame.refl _ s.regs).put (f := Fld.HKA_CNTn_COUNT.i 1) (List.mem_cons_self ..) _).put (f := Fld.HKA_STAT_OVERRUN) (List.mem_cons_of_mem _ (List.mem_singleton_self _)) _
  refine Gives.of_eq ran ⟨?_, ?_, rfl, RfSame.sameRegs same⟩
  all_goals rw [State.get_eq_rfGet]
  · exact rfGet_rfPut_self _ _ (by decide)
  · rw [State.get_eq_rfGet]
    exact (rfGet_rfPut_apart _ _ (by decide) (by decide)).trans counted

theorem exec_round_waits (runs : s.running = true) (out : s.hk.inRound = false) (fresh : s.hk.waiting = false) (busy : s.hk.conv ≠ none) :
    exec .hkRoundStart s = .next { s with now := max s.now s.roundDue, hk := { s.hk with next := s.roundDue, waiting := true } } := by
  have ran := exec_hkRoundStart runs
  obtain ⟨d, is⟩ : ∃ d, s.roundDue = d := ⟨_, rfl⟩
  rw [is] at ran ⊢
  rw [roundGoes_waits (s := { s with now := max s.now d, hk := s.hk.nextAt d }) out fresh busy] at ran
  exact ran

theorem gives_round_begins (runs : s.running = true) (out : s.hk.inRound = false) (fresh : s.hk.waiting = false) (free : s.hk.conv = none) :
    Gives .hkRoundStart s fun t => t.get Fld.HKA_STAT_ROUND = 1 ∧ t.hk.inRound = true
      ∧ t.hk.temps = [] ∧ t.hk.next = s.roundDue ∧ t.erd Reg.HKA_ROUND = s.rd Reg.HKA_ROUND ∧ t = { s with now := max s.now s.roundDue, regs := t.regs, eff := t.eff, hk := t.hk }
      ∧ SameRegs [Reg.HKA_STAT] s t := by
  have ran := exec_hkRoundStart runs
  obtain ⟨d, is⟩ : ∃ d, s.roundDue = d := ⟨_, rfl⟩
  rw [is] at ran ⊢
  rw [roundGoes_begins (s := { s with now := max s.now d, hk := s.hk.nextAt d }) out fresh free] at ran
  obtain ⟨regs, eff, hk, begun, same, round, inForce, temps, inRound, -, next⟩ := beginRound_frame { s with now := max s.now d, hk := s.hk.nextAt d }
  refine Gives.of_eq (ran.trans (congrArg Host.Outcome.next begun)) ⟨?_, inRound, temps, next, ?_, rfl, RfSame.sameRegs same⟩
  · rw [State.get_eq_rfGet]
    exact round
  · rw [State.erd]
    exact inForce

/-- The ADC's own data with one more reading of a temperature sensor, and the converter free. -/
def Hk.read (x : Hk) (y : Nat × Nat × Bool) : Hk := { x with temps := x.temps ++ [y], conv := none }

theorem gives_temperature {c : HkConv} {v : Nat} (conv : s.hk.conv = some c) (settled : c.wait = false) (there : c.unav = false) (fixed : c.fixed = true) (temp : 0x40 ≤ c.ch)
    (fresh : s.hk.waiting = false) : Gives (.hkConversionEnd v none) s fun t => t.hk.temps = s.hk.temps ++ [(c.ch - 0x40, v % 4096, false)]
      ∧ t.now = max s.now (c.start + 26 * hkD c.osr * modU) ∧ t = { s with now := t.now, regs := t.regs, hk := t.hk } := by
  have ran : exec (.hkConversionEnd v none) s = .next (nextEntry { s with now := max s.now (c.start + 26 * hkD c.osr * modU), hk := s.hk.read (c.ch - 0x40, v % 4096, false) }) := by
    show execHkConversionEnd v none s = _
    rw [execHkConversionEnd, conv]
    dsimp only
    rw [settled, there, fixed, if_neg Bool.false_ne_true, if_neg Bool.false_ne_true, fixedResult, if_pos rfl, if_pos temp, entryDone]
    show Host.Outcome.next (if s.hk.waiting then _ else _) = _
    rw [fresh]
    rfl
  obtain ⟨⟨regs, hk, frame⟩, -, -, temps, -, -, -⟩ := wentOn_nextEntry (s := { s with now := max s.now (c.start + 26 * hkD c.osr * modU), hk := s.hk.read (c.ch - 0x40, v % 4096, false) })
  rw [frame] at ran temps
  exact Gives.of_eq ran ⟨temps, rfl, rfl⟩

/-- The round's end is shown and counted, and device time stands still. -/
structure RoundServed (s t : State) : Prop where
  now : t.now = s.now
  out : t.hk.inRound = false
  shut : t.get Fld.HKA_STAT_ROUND = 0
  counted : t.get (Fld.HKA_CNTn_COUNT.i 0) = min (s.get (Fld.HKA_CNTn_COUNT.i 0) + 1) (2 ^ 32 - 1)

theorem HkKept.get (same : HkKept s t) {f : Field} (inside : 0x4040000 ≤ f.reg ∧ f.reg < 0x4050000) : t.get f = s.get f := by
  rw [State.get, same.regs _ inside, State.get]

theorem RoundServed.kept (same : RoundServed s t) (kept : HkKept t u) : RoundServed s u :=
  ⟨kept.now.trans same.now, (congrArg Hk.inRound kept.hk).trans same.out, (kept.get (by decide)).trans same.shut, (kept.get (by decide)).trans same.counted⟩

theorem RoundServed.put (same : RoundServed s t) (f : Field) (v : Nat) (apart : f.reg ≠ Reg.HKA_STAT ∧ f.reg ≠ Reg.HKA_CNTn) : RoundServed s (t.put f v) := by
  have kept : RfSame [f.reg] t.regs (t.put f v).regs := by
    rw [State.put_eq]
    exact (RfSame.refl _ _).put (List.mem_singleton_self _) v
  refine ⟨same.now, same.out, ?_, ?_⟩
  · rw [← same.shut, State.get_eq_rfGet, State.get_eq_rfGet]
    exact kept.get fun there => apart.1 (List.mem_singleton.1 there).symm
  · rw [← same.counted, State.get_eq_rfGet, State.get_eq_rfGet]
    exact kept.get fun there => apart.2 (List.mem_singleton.1 there).symm

theorem gives_hkRoundEnd (inRound : s.hk.inRound = true) (free : s.hk.conv = none) (last : s.hk.round = []) :
    Gives .hkRoundEnd s fun t => t.get Fld.HKA_STAT_ROUND = 0 ∧ t.hk.inRound = false
      ∧ t.get (Fld.HKA_CNTn_COUNT.i 0) = min (s.get (Fld.HKA_CNTn_COUNT.i 0) + 1) (2 ^ 32 - 1) ∧ t.now = s.now := by
  have shown : ∃ l, (s.put Fld.HKA_STAT_ROUND 0).inc (Fld.HKA_CNTn_COUNT.i 0) = { s with regs := l } ∧ rfGet l Fld.HKA_STAT_ROUND = 0
      ∧ rfGet l (Fld.HKA_CNTn_COUNT.i 0) = min (s.get (Fld.HKA_CNTn_COUNT.i 0) + 1) (2 ^ 32 - 1) := by
    refine ⟨_, by rw [State.put_eq, State.inc_eq], ?_, ?_⟩
    · exact (rfGet_rfPut_apart _ _ (by decide) (by decide)).trans (rfGet_rfPut_self _ _ (by decide))
    · rw [rfGet_rfPut_self_i _ _ _ (by decide), State.get_eq_rfGet]
      have kept : rfGet (rfPut s.regs Fld.HKA_STAT_ROUND 0) (Fld.HKA_CNTn_COUNT.i 0) = rfGet s.regs (Fld.HKA_CNTn_COUNT.i 0) := rfGet_rfPut_apart _ _ (by decide) (by decide)
      dsimp only
      rw [kept]
      exact Nat.mod_eq_of_lt (Nat.lt_of_le_of_lt (Nat.min_le_right _ _) (by decide))
  obtain ⟨l, regs, round, count⟩ := shown
  have served (u : State) (kept : HkKept (State.setHk { s with regs := l } { s.hk with inRound := false, temps := [] }) u) : RoundServed s u :=
    ⟨kept.now, (congrArg Hk.inRound kept.hk), (kept.get (by decide)).trans ((State.get_eq_rfGet _ _).trans round), (kept.get (by decide)).trans ((State.get_eq_rfGet _ _).trans count)⟩
  obtain ⟨t, ran, same⟩ : ∃ t, exec .hkRoundEnd s = .next (takeUser t) ∧ RoundServed s t := by
    show ∃ t, execHkRoundEnd s = .next (takeUser t) ∧ _
    rw [execHkRoundEnd, inRound, free, last, if_neg (by decide)]
    dsimp only
    rw [regs]
    have kept := ((hkKept_noteVbat (s := State.setHk { s with regs := l } { s.hk with inRound := false, temps := [] }) (State.get { s with regs := l } (Fld.HKA_SUPn_VAL.i 8))).trans
      ((hkKept_thermalRound s.hk.temps).trans hkKept_trimStep))
    refine ⟨_, rfl, ?_⟩
    generalize trimStep _ = u at kept ⊢
    cases u.tsrcReading with
    | none => exact served u kept
    | some x => exact ((served u kept).put (Fld.HKA_SUPn_OVR.i 17) _ (by decide)).put (Fld.HKA_SUPn_VAL.i 17) _ (by decide) |>.kept (hkKept_vcxoRenew x.1)
  obtain ⟨now, out, shut, counted⟩ := same
  have went := wentOn_takeUser (s := t)
  obtain ⟨_, _, frame⟩ := went.frame
  refine Gives.of_eq ran ⟨went.round.trans shut, went.inRound.trans out, ?_, ?_⟩
  · rw [← counted, State.get_eq_rfGet, State.get_eq_rfGet]
    exact went.regs.get (by decide)
  · rw [frame]
    exact now

end

end Sys2Proof.Machine
end

section
/-!
PROOFS. The external reference and the user sequence of the housekeeping ADC (R377, R380, R383 to R385); the settlement of O40.
-/

namespace Sys2Proof.Machine

section
variable {s : State} {c : HkConv} {v : Nat}

/-! ### The recovery window and the external reference (R380, R385) -/

theorem exec_hkRecoveryClose (t0 : Nat) (free : s.hk.conv = none) :
    exec (.hkRecoveryClose t0) s = .next { s with now := max s.now t0, hk := { s.hk with recov := false } } := by
  have shut (x : Hk) (free : x.conv = none) (touched : Bool) : ({ x with recov := false, conv := x.conv.map fun c => { c with mark := c.mark || touched } } : Hk) = { x with recov := false } := by
    rw [free]
    rfl
  show execHkRecoveryClose t0 s = _
  rw [execHkRecoveryClose, State.at, State.setHk]
  exact congrArg (fun y => Host.Outcome.next { s with now := max s.now t0, hk := y }) (shut s.hk free _)

/-- The entry that waits for the reference begins its settling time. -/
def HkConv.begins (now : Nat) (c : HkConv) : HkConv := if c.wait then { c with wait := false, start := now + (c.start - c.begun) } else c

theorem exec_hkRefReady {t0 : Nat} (selected : s.hk.extAt ≠ none) : exec (.hkRefReady t0) s
    = .next { s with now := max s.now t0, regs := rfPut s.regs Fld.HKA_STAT_REFRDY (rfGet s.regs Fld.HKA_STAT_REFRDY ||| 2), hk := { s.hk with conv := s.hk.conv.map (HkConv.begins (max s.now t0)) } } := by
  have some_ : ¬s.hk.extAt.isNone = true := by simpa using selected
  show execHkRefReady t0 s = _
  rw [execHkRefReady, if_neg some_, State.put_eq, State.get_eq_rfGet]
  rfl

theorem gives_hkRefReady {t0 : Nat} (selected : s.hk.extAt ≠ none) : Gives (.hkRefReady t0) s fun t => bitOf (t.get Fld.HKA_STAT_REFRDY) 1 = true
      ∧ (∀ c, s.hk.conv = some c → c.wait = true → t.hk.conv = some { c with wait := false, start := max s.now t0 + (c.start - c.begun) })
      ∧ t = { s with now := max s.now t0, regs := t.regs, hk := { s.hk with conv := t.hk.conv } } ∧ SameRegs [Reg.HKA_STAT] s t := by
  have same : RfSame [Reg.HKA_STAT] s.regs (rfPut s.regs Fld.HKA_STAT_REFRDY (rfGet s.regs Fld.HKA_STAT_REFRDY ||| 2)) := (RfSame.refl _ _).put (by decide) _
  have ready : bitOf (rfGet (rfPut s.regs Fld.HKA_STAT_REFRDY (rfGet s.regs Fld.HKA_STAT_REFRDY ||| 2)) Fld.HKA_STAT_REFRDY) 1 = true := by
    have set_ := bitOf_rfSetBit (l := s.regs) (f := Fld.HKA_STAT_REFRDY) (n := 1) (m := 1) (by decide) (by decide)
    rw [rfSetBit, decide_eq_true rfl, Bool.or_true] at set_
    exact set_
  refine Gives.of_eq (exec_hkRefReady selected) ⟨?_, fun c conv waits => ?_, rfl, RfSame.sameRegs same⟩
  · rw [State.get_eq_rfGet]
    exact ready
  · show s.hk.conv.map (HkConv.begins (max s.now t0)) = _
    rw [conv, Option.map_some, HkConv.begins, if_pos waits]

theorem gives_hkRefPowerdown {a : Nat} (selected : s.hk.extAt = some a) (free : s.hk.conv = none) :
    Gives .hkRefPowerdown s fun t => bitOf (t.get Fld.HKA_STAT_REFRDY) 1 = false ∧ t = { s with now := max s.now (a + msU), regs := t.regs, hk := { s.hk with extAt := none } }
      ∧ SameRegs [Reg.HKA_STAT] s t := by
  have ran : exec .hkRefPowerdown s = .next { s with now := max s.now (a + msU), regs := rfPut s.regs Fld.HKA_STAT_REFRDY (rfGet s.regs Fld.HKA_STAT_REFRDY &&& 5), hk := { s.hk with extAt := none } } := by
    show execHkRefPowerdown s = _
    rw [execHkRefPowerdown, selected, free]
    dsimp only
    rw [if_neg Bool.false_ne_true, State.put_eq, State.get_eq_rfGet, State.at, State.setHk]
  have same : RfSame [Reg.HKA_STAT] s.regs (rfPut s.regs Fld.HKA_STAT_REFRDY (rfGet s.regs Fld.HKA_STAT_REFRDY &&& 5)) := (RfSame.refl _ _).put (by decide) _
  have off : bitOf (rfGet (rfPut s.regs Fld.HKA_STAT_REFRDY (rfGet s.regs Fld.HKA_STAT_REFRDY &&& 5)) Fld.HKA_STAT_REFRDY) 1 = false := by
    have small : rfGet s.regs Fld.HKA_STAT_REFRDY &&& 5 < 2 ^ Fld.HKA_STAT_REFRDY.width := Nat.lt_of_le_of_lt Nat.and_le_right (by decide)
    rw [rfGet_rfPut_self _ _ (by decide), Nat.mod_eq_of_lt small, bitOf_eq_testBit, Nat.testBit_and, show Nat.testBit 5 1 = false by decide, Bool.and_false]
  refine Gives.of_eq ran ⟨?_, rfl, RfSame.sameRegs same⟩
  rw [State.get_eq_rfGet]
  exact off

/-! ### A result of a user entry (R384) -/

/-- The address of a result, and of its status. -/
theorem res_reg {f : Field} (at_ : f.reg = Reg.HKA_RESn ∧ f.dims = [8]) (n : Nat) : (f.i n).reg = Reg.HKA_RESn + 8 * n := by
  rw [Field.i, at_.1, at_.2, Nat.mul_comm]
  rfl

theorem rst_reg {f : Field} (at_ : f.reg = Reg.HKA_RSTn ∧ f.dims = [8]) (n : Nat) : (f.i n).reg = Reg.HKA_RSTn + 8 * n := by
  rw [Field.i, at_.1, at_.2, Nat.mul_comm]
  rfl

/-- The status word of a result. -/
def rstWord (pass : Nat) (ovr mark unav referr : Bool) : Word :=
  BitVec.ofNat 32 (2 ^ 31 + b2n ovr * 2 ^ 30 + b2n mark * 2 ^ 29 + b2n unav * 2 ^ 28 + b2n referr * 2 ^ 27 + pass % 256 * 65536)

theorem rstWord_fields (pass : Nat) (ovr mark unav referr : Bool) (n : Nat) : getBits (Fld.HKA_RSTn_NEW.i n) (rstWord pass ovr mark unav referr) = 1
    ∧ getBits (Fld.HKA_RSTn_OVR.i n) (rstWord pass ovr mark unav referr) = b2n ovr ∧ getBits (Fld.HKA_RSTn_REFERR.i n) (rstWord pass ovr mark unav referr) = b2n referr := by
  have bits (b : Bool) : b2n b ≤ 1 := by cases b <;> decide
  have h1 := bits ovr
  have h2 := bits mark
  have h3 := bits unav
  have h4 := bits referr
  have whole : (rstWord pass ovr mark unav referr).toNat = 2 ^ 31 + b2n ovr * 2 ^ 30 + b2n mark * 2 ^ 29 + b2n unav * 2 ^ 28 + b2n referr * 2 ^ 27 + pass % 256 * 65536 := by
    rw [rstWord, BitVec.toNat_ofNat]
    exact Nat.mod_eq_of_lt (by omega)
  refine ⟨?_, ?_, ?_⟩
  · show (rstWord pass ovr mark unav referr).toNat / 2 ^ 31 % 2 ^ 1 = _
    omega
  · show (rstWord pass ovr mark unav referr).toNat / 2 ^ 30 % 2 ^ 1 = _
    omega
  · show (rstWord pass ovr mark unav referr).toNat / 2 ^ 27 % 2 ^ 1 = _
    omega

/-- The registers with a result. -/
def resultRegs (n v : Nat) (drop : Bool) (w : Word) (l : RegFile) : RegFile :=
  rfWrite (rfPut (if drop then rfPut l (Fld.HKA_RESn_COARSE.i n) 0 else l) (Fld.HKA_RESn_FINE.i n) v) (Reg.HKA_RSTn + 8 * n) w

theorem userResult_eq (ovr mark unav referr : Bool) (s : State) : userResult c v ovr mark unav referr s
    = { s with regs := resultRegs c.n v (unav || referr) (rstWord s.hk.pass ovr mark unav referr) s.regs, hk := { s.hk with pos := c.n + 1 } } := by
  rw [userResult, resultRegs, rstWord]
  generalize Fld.HKA_RESn_COARSE.i c.n = f
  generalize Fld.HKA_RESn_FINE.i c.n = g
  generalize Reg.HKA_RSTn + 8 * c.n = a
  rw [put_if]
  dsimp only
  rw [State.put_eq, State.wr_eq, State.setHk]

theorem resultRegs_facts (n v : Nat) (drop : Bool) (w : Word) (l : RegFile) : rfGet (resultRegs n v drop w l) (Fld.HKA_RESn_FINE.i n) = v % 2 ^ 16
    ∧ (∀ f : Field, (f.i n).reg = Reg.HKA_RSTn + 8 * n → rfGet (resultRegs n v drop w l) (f.i n) = getBits (f.i n) w)
    ∧ RfSame [Reg.HKA_RESn + 8 * n, Reg.HKA_RSTn + 8 * n] l (resultRegs n v drop w l) := by
  have fine : (Fld.HKA_RESn_FINE.i n).reg = Reg.HKA_RESn + 8 * n := res_reg ⟨rfl, rfl⟩ n
  have coarse : (Fld.HKA_RESn_COARSE.i n).reg = Reg.HKA_RESn + 8 * n := res_reg ⟨rfl, rfl⟩ n
  have fits : (Fld.HKA_RESn_FINE.i n).fits = true := rfl
  have wide : (Fld.HKA_RESn_FINE.i n).width = 16 := rfl
  have apart : ((Fld.HKA_RESn_FINE.i n).reg != Reg.HKA_RSTn + 8 * n) = true := by
    rw [fine, Reg.HKA_RESn, Reg.HKA_RSTn, bne_iff_ne]
    omega
  rw [resultRegs]
  generalize Fld.HKA_RESn_FINE.i n = f at *
  generalize Fld.HKA_RESn_COARSE.i n = g at *
  refine ⟨?_, fun k at_ => rfGet_rfWrite_same _ _ at_, RfSame.write (RfSame.put ?_ (by rw [fine]; exact List.mem_cons_self ..) v) (List.mem_cons_of_mem _ (List.mem_singleton_self _)) w⟩
  · rw [rfGet_rfWrite_ne _ _ apart, rfGet_rfPut_self _ _ fits, wide]
  · split
    · exact (RfSame.refl _ l).put (by rw [coarse]; exact List.mem_cons_self ..) 0
    · exact .refl _ l

/-- What the end of an entry changes, its result apart. -/
structure EntryEnded (s t : State) : Prop where
  frame : ∃ regs eff hk, t = { s with regs := regs, eff := eff, hk := hk }
  regs : RfSame [Reg.HKA_STAT] s.regs t.regs
  recov : t.hk.recov = s.hk.recov

theorem EntryEnded.of_wentOn {t : State} (went : WentOn s t) : EntryEnded s t := by
  obtain ⟨frame, regs, -, -, -, recov, -⟩ := went
  obtain ⟨l, hk, frame⟩ := frame
  exact ⟨⟨l, s.eff, hk, frame⟩, regs, recov⟩

theorem EntryEnded.trans {t u : State} (first : EntryEnded s t) (second : EntryEnded t u) : EntryEnded s u := by
  obtain ⟨frame1, regs1, recov1⟩ := first
  obtain ⟨frame2, regs2, recov2⟩ := second
  refine ⟨?_, regs1.trans regs2, recov2.trans recov1⟩
  obtain ⟨_, _, _, rfl⟩ := frame1
  obtain ⟨_, _, _, rfl⟩ := frame2
  exact ⟨_, _, _, rfl⟩

theorem entryEnded_beginRound : EntryEnded s (beginRound s) := by
  obtain ⟨regs, eff, hk, frame, same, -, -, -, -, recov, -⟩ := beginRound_frame s
  rw [frame]
  exact ⟨⟨regs, eff, hk, rfl⟩, same, recov⟩

theorem entryEnded_entryDone (user : Bool) : EntryEnded s (entryDone user s) := by
  have goes (t : State) (wait : Bool) : EntryEnded t (if wait then beginRound t else nextEntry t) := by
    split
    · exact entryEnded_beginRound
    · exact .of_wentOn wentOn_nextEntry
  rw [entryDone]
  refine EntryEnded.trans (.of_wentOn ?_) (goes _ _)
  have passes (u : State) (same : WentOn s u) : WentOn s (if user && u.hk.stop then endPass true u else if user && (u.nextUser u.hk.pos).isNone then endPass false u else u) :=
    .ite _ (same.trans (wentOn_endPass true)) (.ite _ (same.trans (wentOn_endPass false)) same)
  exact passes _ ((WentOn.refl s).setHk rfl rfl rfl rfl)

/-- A user entry's result stands in its registers when the converter has gone on. -/
theorem entryDone_result {t : State} (ovr mark unav referr : Bool) (same : t = entryDone true (userResult c v ovr mark unav referr s)) :
    rfGet t.regs (Fld.HKA_RESn_FINE.i c.n) = v % 2 ^ 16 ∧ rfGet t.regs (Fld.HKA_RSTn_NEW.i c.n) = 1 ∧ rfGet t.regs (Fld.HKA_RSTn_OVR.i c.n) = b2n ovr
    ∧ rfGet t.regs (Fld.HKA_RSTn_REFERR.i c.n) = b2n referr ∧ (∀ n < 5, rfGet t.regs (Fld.HKA_CNTn_COUNT.i n) = rfGet s.regs (Fld.HKA_CNTn_COUNT.i n))
    ∧ t.now = s.now ∧ t.mem = s.mem ∧ t.hk.recov = s.hk.recov := by
  obtain ⟨new, over_, err⟩ := rstWord_fields s.hk.pass ovr mark unav referr c.n
  obtain ⟨fine, status, kept⟩ := resultRegs_facts c.n v (unav || referr) (rstWord s.hk.pass ovr mark unav referr) s.regs
  obtain ⟨frame, regs, recov⟩ := entryEnded_entryDone (s := userResult c v ovr mark unav referr s) true
  rw [← same] at frame regs recov
  rw [userResult_eq] at frame regs recov
  have res : (Fld.HKA_RESn_FINE.i c.n).reg = Reg.HKA_RESn + 8 * c.n := res_reg ⟨rfl, rfl⟩ c.n
  have outRes : Reg.HKA_RESn + 8 * c.n ∉ [Reg.HKA_STAT] := by
    rw [List.mem_singleton, Reg.HKA_RESn, Reg.HKA_STAT]
    omega
  have outRst : Reg.HKA_RSTn + 8 * c.n ∉ [Reg.HKA_STAT] := by
    rw [List.mem_singleton, Reg.HKA_RSTn, Reg.HKA_STAT]
    omega
  have read (f : Field) (at_ : f.reg = Reg.HKA_RSTn ∧ f.dims = [8]) : rfGet t.regs (f.i c.n) = getBits (f.i c.n) (rstWord s.hk.pass ovr mark unav referr) := by
    rw [regs.get (by rw [rst_reg at_]; exact outRst)]
    exact status f (rst_reg at_ c.n)
  refine ⟨?_, (read _ ⟨rfl, rfl⟩).trans new, (read _ ⟨rfl, rfl⟩).trans over_, (read _ ⟨rfl, rfl⟩).trans err, fun n small => ?_, ?_, ?_, recov⟩
  · rw [regs.get (by rw [res]; exact outRes)]
    exact fine
  · have at_ : (Fld.HKA_CNTn_COUNT.i n).reg = 0x4040040 + n * 4 := rfl
    rw [regs.get (by rw [at_, List.mem_singleton, Reg.HKA_STAT]; omega)]
    refine kept.get ?_
    rw [at_, List.mem_cons, List.mem_singleton, Reg.HKA_RESn, Reg.HKA_RSTn]
    omega
  · obtain ⟨_, _, _, frame⟩ := frame
    rw [frame]
  · obtain ⟨_, _, _, frame⟩ := frame
    rw [frame]

end

end Sys2Proof.Machine
end

section
/-!
PROOFS. The entries and the commands of the user sequence (R377, R383 to R385); the settlement of O40.
-/

namespace Sys2Proof.Machine

section
variable {s : State} {c : HkConv} {v : Nat}

/-! ### Results (R377, R380, R384, R385) -/

theorem gives_hkCoarseReady (conv : s.hk.conv = some c) (settled : c.wait = false) (there : c.unav = false) (user : c.fixed = false) (small : v < 2 ^ 16) :
    Gives (.hkCoarseReady v) s fun t => t.get (Fld.HKA_RESn_COARSE.i c.n) = v ∧ t.now = max s.now (c.start + 64 * modU)
      ∧ t = { s with now := t.now, regs := t.regs, hk := t.hk } ∧ SameRegs [(Fld.HKA_RESn_COARSE.i c.n).reg] s t := by
  have width : (Fld.HKA_RESn_COARSE.i c.n).width = 16 := rfl
  have fits : (Fld.HKA_RESn_COARSE.i c.n).fits = true := rfl
  have least : min 65535 v = v := by omega
  have ran : ∃ hk, exec (.hkCoarseReady v) s = .next { s with now := max s.now (c.start + 64 * modU), regs := rfPut s.regs (Fld.HKA_RESn_COARSE.i c.n) v, hk := hk } := by
    show ∃ hk, execHkCoarseReady v s = _
    rw [execHkCoarseReady, conv]
    dsimp only
    rw [settled, there, user, if_neg (by decide), if_neg (by decide), least, State.at]
    generalize Fld.HKA_RESn_COARSE.i c.n = f
    rw [State.put_eq]
    split
    · exact ⟨_, rfl⟩
    · exact ⟨s.hk, rfl⟩
  obtain ⟨hk, ran⟩ := ran
  generalize Fld.HKA_RESn_COARSE.i c.n = f at *
  refine Gives.of_eq ran ⟨?_, rfl, rfl, RfSame.sameRegs ((RfSame.refl _ s.regs).put (List.mem_singleton_self _) v)⟩
  rw [State.get_eq_rfGet, rfGet_rfPut_self _ _ fits, width, Nat.mod_eq_of_lt small]

theorem gives_fine (conv : s.hk.conv = some c) (settled : c.wait = false) (there : c.unav = false) (user : c.fixed = false) (small : v < 2 ^ 16) :
    Gives (.hkConversionEnd v none) s fun t => t.get (Fld.HKA_RESn_FINE.i c.n) = v ∧ t.get (Fld.HKA_RSTn_NEW.i c.n) = 1 ∧ t.get (Fld.HKA_RSTn_OVR.i c.n) = 0
      ∧ t.now = max s.now (c.start + 26 * hkD c.osr * modU) ∧ t.mem = s.mem := by
  have ran : exec (.hkConversionEnd v none) s = .next (entryDone true (userResult c v false (c.mark || s.hk.recov) false false (s.at (c.start + 26 * hkD c.osr * modU)))) := by
    show execHkConversionEnd v none s = _
    rw [execHkConversionEnd, conv]
    dsimp only
    rw [settled, there, user]
    rfl
  obtain ⟨fine, new, over_, -, -, now, mem, -⟩ := entryDone_result false (c.mark || s.hk.recov) false false (s := s.at (c.start + 26 * hkD c.osr * modU)) rfl
  refine Gives.of_eq ran ⟨?_, ?_, ?_, now, mem⟩
  · rw [State.get_eq_rfGet, fine, Nat.mod_eq_of_lt small]
  · rw [State.get_eq_rfGet, new]
  · rw [State.get_eq_rfGet, over_]
    rfl

/-- The ADC's own data after an overrange. -/
def Hk.overrun (x : Hk) : Hk := { x with ovr := true, recov := true }

theorem gives_overrange {up : Bool} (conv : s.hk.conv = some c) (settled : c.wait = false) (there : c.unav = false) (user : c.fixed = false) :
    Gives (.hkConversionEnd v (some up)) s fun t => t.get (Fld.HKA_RESn_FINE.i c.n) = (if up then 0xFFFF else 0) ∧ t.get (Fld.HKA_RSTn_NEW.i c.n) = 1
      ∧ t.get (Fld.HKA_RSTn_OVR.i c.n) = 1 ∧ t.hk.recov = true ∧ t.get (Fld.HKA_CNTn_COUNT.i 2) = min (s.get (Fld.HKA_CNTn_COUNT.i 2) + 1) (2 ^ 32 - 1) ∧ t.mem = s.mem := by
  have code : (match some up with | none => v | some true => 0xFFFF | some false => 0) = if up then 0xFFFF else 0 := by cases up <;> rfl
  have counted := hkCounted s.regs 2
  have ran : ∃ l, exec (.hkConversionEnd v (some up)) s = .next (entryDone true (userResult c (if up then 0xFFFF else 0) true (c.mark || s.hk.recov) false false
        { s with now := max s.now (c.start + 26 * hkD c.osr * modU), regs := l, hk := s.hk.overrun }))
      ∧ rfGet l (Fld.HKA_CNTn_COUNT.i 2) = min (rfGet s.regs (Fld.HKA_CNTn_COUNT.i 2) + 1) (2 ^ 32 - 1) := by
    refine ⟨_, ?_, counted⟩
    show execHkConversionEnd v (some up) s = _
    unfold execHkConversionEnd
    rw [conv]
    dsimp only
    rw [settled, there, user, if_neg Bool.false_ne_true, if_neg Bool.false_ne_true, if_neg Bool.false_ne_true, if_pos (show (some up).isSome = true from rfl), State.inc_eq, State.at, State.setHk]
    dsimp only
    cases up <;> rfl
  obtain ⟨l, ran, count⟩ := ran
  obtain ⟨fine, new, over_, -, counts, -, mem, recov⟩ := entryDone_result (v := if up then 0xFFFF else 0) (c := c) true (c.mark || s.hk.recov) false false
    (s := { s with now := max s.now (c.start + 26 * hkD c.osr * modU), regs := l, hk := s.hk.overrun }) rfl
  have small : (if up then 0xFFFF else 0) < 2 ^ 16 := by cases up <;> decide
  refine Gives.of_eq ran ⟨?_, ?_, ?_, recov, ?_, mem⟩
  · rw [State.get_eq_rfGet, fine, Nat.mod_eq_of_lt small]
  · rw [State.get_eq_rfGet, new]
  · rw [State.get_eq_rfGet, over_]
    rfl
  · rw [State.get_eq_rfGet, State.get_eq_rfGet, counts 2 (by decide)]
    exact count

theorem gives_hkRefTimeout (conv : s.hk.conv = some c) (waits : c.wait = true) :
    Gives .hkRefTimeout s fun t => t.get (Fld.HKA_CNTn_COUNT.i 3) = min (s.get (Fld.HKA_CNTn_COUNT.i 3) + 1) (2 ^ 32 - 1)
      ∧ t.get (Fld.HKA_RSTn_REFERR.i c.n) = 1 ∧ t.get (Fld.HKA_RESn_FINE.i c.n) = 0 ∧ t.now = max s.now (c.begun + 200 * usU) ∧ t.mem = s.mem := by
  obtain ⟨l, counted, count⟩ : ∃ l, (s.at (c.begun + 200 * usU)).inc (Fld.HKA_CNTn_COUNT.i 3) = { s with now := max s.now (c.begun + 200 * usU), regs := l }
      ∧ rfGet l (Fld.HKA_CNTn_COUNT.i 3) = min (rfGet s.regs (Fld.HKA_CNTn_COUNT.i 3) + 1) (2 ^ 32 - 1) :=
    ⟨_, State.inc_eq .., hkCounted s.regs 3⟩
  obtain ⟨u, ran, now, mem, kept⟩ : ∃ u, exec .hkRefTimeout s = .next (entryDone true (userResult c 0 false false false true u)) ∧ u.now = max s.now (c.begun + 200 * usU) ∧ u.mem = s.mem
      ∧ u.get (Fld.HKA_CNTn_COUNT.i 3) = rfGet l (Fld.HKA_CNTn_COUNT.i 3) := by
    show ∃ u, execHkRefTimeout s = _ ∧ _
    rw [execHkRefTimeout, conv]
    dsimp only
    rw [waits, if_neg (by decide), counted]
    refine ⟨_, rfl, ?_⟩
    split
    · exact ⟨rfl, rfl, State.get_eq_rfGet _ _⟩
    · have raised := hkKept_raise (s := { s with now := max s.now (c.begun + 200 * usU), regs := l }) 0x472 0xFF c.n
      have notice := (NoticeOnly.refl { s with now := max s.now (c.begun + 200 * usU), regs := l }).raise (num := 0x472) (by decide) 0xFF c.n
      exact ⟨raised.now, by rw [notice.eq], (raised.get (by decide)).trans (State.get_eq_rfGet _ _)⟩
  obtain ⟨fine, -, -, err, counts, now', mem', -⟩ := entryDone_result (v := 0) (c := c) false false false true (s := u) rfl
  refine Gives.of_eq ran ⟨?_, ?_, ?_, now'.trans now, mem'.trans mem⟩
  · rw [State.get_eq_rfGet, counts 3 (by decide), ← State.get_eq_rfGet, kept, count, State.get_eq_rfGet]
  · rw [State.get_eq_rfGet, err]
    rfl
  · rw [State.get_eq_rfGet, fine, Nat.zero_mod]

/-! ### The commands of the user sequence (R383, R384) -/

section
variable {r : Req} {w : Word}

def seqctlDesc : RegDesc := ⟨Reg.HKA_SEQCTL, [], [Fld.HKA_SEQCTL_GO, Fld.HKA_SEQCTL_STOP, Fld.HKA_SEQCTL_MODE, Fld.HKA_SEQCTL_SPER, Fld.HKA_SEQCTL_LEN]⟩

theorem descOf_seqctl : descOf Reg.HKA_SEQCTL = some seqctlDesc := by decide +kernel

/-- The word stored, the register file named. -/
theorem seqctlStored_frame (s : State) (r : Req) (w : Word) : ∃ l, s.ok.storeReg r Reg.HKA_SEQCTL w = { s with resp := { err := false, data := 0 }, regs := l }
    ∧ rfGet l Fld.HKA_SEQCTL_LEN = getBits Fld.HKA_SEQCTL_LEN w ∧ rfGet l Fld.HKA_SEQCTL_MODE = getBits Fld.HKA_SEQCTL_MODE w
    ∧ rfGet l Fld.HKA_STAT_SEQRUN = s.get Fld.HKA_STAT_SEQRUN ∧ RfSame [Reg.HKA_SEQCTL] s.regs l := by
  have same : RfSame [Reg.HKA_SEQCTL] s.regs (rfWrite s.regs Reg.HKA_SEQCTL (wordWrite false seqctlDesc w (rfRead s.regs Reg.HKA_SEQCTL))) :=
    (RfSame.refl _ s.regs).write (List.mem_singleton_self _) _
  refine ⟨_, biasStored descOf_seqctl (by decide) r w s, ?_, ?_, ?_, same⟩
  · rw [rfGet_rfWrite_same (a := Reg.HKA_SEQCTL) (g := Fld.HKA_SEQCTL_LEN) _ _ rfl, getBits_wordWrite_plain (by decide) (by decide)]
  · rw [rfGet_rfWrite_same (a := Reg.HKA_SEQCTL) (g := Fld.HKA_SEQCTL_MODE) _ _ rfl, getBits_wordWrite_plain (by decide) (by decide)]
  · rw [State.get_eq_rfGet]
    exact same.get (by decide)

/-- What GO does once the word is stored. -/
def seqGoes (s : State) : State :=
  if s.flag Fld.HKA_STAT_SEQRUN then s.put Fld.HKA_STAT_GOREF 1
  else
    let s := s.put Fld.HKA_STAT_SEQRUN 1
    if s.seqMode = 2 then s.setHk { s.hk with perDue := s.now }
    else
      let s := s.setHk { s.hk with pos := 0 }
      if s.hk.conv.isSome || s.hk.inRound then s else takeUser s

/-- What STOP does once the word is stored, where the sequence runs. -/
def seqStops (s : State) : State :=
  let user := match s.hk.conv with | some c => !c.fixed | none => false
  if user then s.setHk { s.hk with stop := true }
  else if s.hk.pos < 33 then endPass true s
  else s.put Fld.HKA_STAT_SEQRUN 0

theorem exec_hkSeqGo (taken : Takes s r Reg.HKA_SEQCTL) (go : w.getLsbD 31 = true) (stay : w.getLsbD 30 = false) : exec (.hkSeqGo r w) s = .next (seqGoes (s.ok.storeReg r Reg.HKA_SEQCTL w)) := by
  show execHkSeqGo r w s = _
  rw [execHkSeqGo, regCmd_ok taken, seqctlWrite]
  generalize s.ok.storeReg r Reg.HKA_SEQCTL w = u
  simp only [go, stay, Bool.not_false, Bool.not_true, Bool.true_or, Bool.false_eq_true, if_true, if_false]
  rw [seqGoes]

theorem exec_hkSeqStop (taken : Takes s r Reg.HKA_SEQCTL) (still : w.getLsbD 31 = false) (stop : w.getLsbD 30 = true) (runs : (s.ok.storeReg r Reg.HKA_SEQCTL w).flag Fld.HKA_STAT_SEQRUN = true) :
    exec (.hkSeqStop r w) s = .next (seqStops (s.ok.storeReg r Reg.HKA_SEQCTL w)) := by
  show execHkSeqStop r w s = _
  rw [execHkSeqStop, regCmd_ok taken, seqctlWrite]
  generalize s.ok.storeReg r Reg.HKA_SEQCTL w = u at runs ⊢
  simp only [still, stop, runs, Bool.not_false, Bool.not_true, Bool.false_or, Bool.false_eq_true, if_true, if_false]
  dsimp only [seqStops] <;> cases u.hk.conv <;> rfl

theorem gives_go_refused (taken : Takes s r Reg.HKA_SEQCTL) (go : w.getLsbD 31 = true) (stay : w.getLsbD 30 = false) (runs : s.get Fld.HKA_STAT_SEQRUN = 1) :
    Gives (.hkSeqGo r w) s fun t => t.get Fld.HKA_STAT_GOREF = 1 ∧ t.get Fld.HKA_STAT_SEQRUN = 1
      ∧ t.get Fld.HKA_SEQCTL_LEN = getBits Fld.HKA_SEQCTL_LEN w ∧ t = { s with resp := { err := false, data := 0 }, regs := t.regs }
      ∧ SameRegs [Reg.HKA_SEQCTL, Reg.HKA_STAT] s t := by
  have ran := exec_hkSeqGo taken go stay
  obtain ⟨l, stored, len, -, run, same⟩ := seqctlStored_frame s r w
  rw [stored, seqGoes, if_pos (State.flag_of_get_one ((State.get_eq_rfGet _ _).trans (run.trans runs))), State.put_eq] at ran
  have both : RfSame [Reg.HKA_SEQCTL, Reg.HKA_STAT] s.regs (rfPut l Fld.HKA_STAT_GOREF 1) :=
    RfSame.put (fun a out => same a fun there => out (List.mem_cons.2 (.inl (List.mem_singleton.1 there)))) (by decide) 1
  refine Gives.of_eq ran ⟨?_, ?_, ?_, rfl, RfSame.sameRegs both⟩
  all_goals rw [State.get_eq_rfGet]
  · exact rfGet_rfPut_self _ _ (by decide)
  · exact (rfGet_rfPut_apart _ _ (by decide) (by decide)).trans (run.trans runs)
  · exact (rfGet_rfPut_apart _ _ (by decide) (by decide)).trans len

/-- The registers once the sequence is shown to run. -/
theorem seqRuns_frame (l : RegFile) : ∃ m, rfPut l Fld.HKA_STAT_SEQRUN 1 = m ∧ rfGet m Fld.HKA_STAT_SEQRUN = 1 ∧ rfGet m Fld.HKA_SEQCTL_LEN = rfGet l Fld.HKA_SEQCTL_LEN
    ∧ rfGet m Fld.HKA_SEQCTL_MODE = rfGet l Fld.HKA_SEQCTL_MODE ∧ RfSame [Reg.HKA_STAT] l m :=
  ⟨_, rfl, rfGet_rfPut_self _ _ (by decide), rfGet_rfPut_apart _ _ (by decide) (by decide), rfGet_rfPut_apart _ _ (by decide) (by decide), (RfSame.refl _ l).put (by decide) 1⟩

theorem seqGoes_idle (idle : s.get Fld.HKA_STAT_SEQRUN = 0) : ∃ m, RfSame [Reg.HKA_STAT] s.regs m ∧ rfGet m Fld.HKA_STAT_SEQRUN = 1 ∧ rfGet m Fld.HKA_SEQCTL_LEN = s.get Fld.HKA_SEQCTL_LEN
    ∧ (s.get Fld.HKA_SEQCTL_MODE = 2 → seqGoes s = { s with regs := m, hk := { s.hk with perDue := s.now } })
    ∧ (s.get Fld.HKA_SEQCTL_MODE ≠ 2 → s.hk.conv ≠ none ∨ s.hk.inRound = true → seqGoes s = { s with regs := m, hk := { s.hk with pos := 0 } }) := by
  obtain ⟨m, is, run, len, mode, same⟩ := seqRuns_frame s.regs
  have small : rfGet s.regs Fld.HKA_SEQCTL_MODE < 4 := rfGet_lt _
  have code : State.seqMode { s with regs := m } = s.get Fld.HKA_SEQCTL_MODE % 3 := by
    rw [State.seqMode, State.get_eq_rfGet, mode, ← State.get_eq_rfGet]
  refine ⟨m, same, run, len.trans (State.get_eq_rfGet _ _).symm, fun two => ?_, fun other busy => ?_⟩
  · rw [seqGoes, State.flag_of_get_zero idle, if_neg Bool.false_ne_true, State.put_eq, is]
    dsimp only
    rw [if_pos (code.trans (by rw [two])), State.setHk]
  · rw [seqGoes, State.flag_of_get_zero idle, if_neg Bool.false_ne_true, State.put_eq, is]
    dsimp only
    have notTwo : State.seqMode { s with regs := m } ≠ 2 := by
      rw [code, State.get_eq_rfGet]
      rw [State.get_eq_rfGet] at other
      omega
    have waits : (s.hk.conv.isSome || s.hk.inRound) = true := by
      rcases busy with held | round
      · rw [Option.isSome_iff_ne_none.2 held, Bool.true_or]
      · rw [round, Bool.or_true]
    rw [if_neg notTwo]
    exact if_pos waits

theorem gives_go_starts (taken : Takes s r Reg.HKA_SEQCTL) (go : w.getLsbD 31 = true) (stay : w.getLsbD 30 = false) (idle : s.get Fld.HKA_STAT_SEQRUN = 0)
    (other : getBits Fld.HKA_SEQCTL_MODE w ≠ 2) (busy : s.hk.conv ≠ none ∨ s.hk.inRound = true) : Gives (.hkSeqGo r w) s fun t =>
      t.get Fld.HKA_STAT_SEQRUN = 1 ∧ t.hk = { s.hk with pos := 0 } ∧ t.get Fld.HKA_SEQCTL_LEN = getBits Fld.HKA_SEQCTL_LEN w
      ∧ t = { s with resp := { err := false, data := 0 }, regs := t.regs, hk := t.hk } ∧ SameRegs [Reg.HKA_SEQCTL, Reg.HKA_STAT] s t := by
  have ran := exec_hkSeqGo taken go stay
  obtain ⟨l, stored, len, mode, run, same⟩ := seqctlStored_frame s r w
  rw [stored] at ran
  obtain ⟨m, put, runs, length, -, goes⟩ := seqGoes_idle (s := { s with resp := { err := false, data := 0 }, regs := l }) ((State.get_eq_rfGet _ _).trans (run.trans idle))
  rw [goes (fun e => other (mode.symm.trans ((State.get_eq_rfGet _ _).symm.trans e))) busy] at ran
  have both : RfSame [Reg.HKA_SEQCTL, Reg.HKA_STAT] s.regs m := fun a out =>
    (put a fun there => out (List.mem_cons_of_mem _ there)).trans (same a fun there => out (List.mem_cons.2 (.inl (List.mem_singleton.1 there))))
  refine Gives.of_eq ran ⟨?_, rfl, ?_, rfl, RfSame.sameRegs both⟩
  all_goals rw [State.get_eq_rfGet]
  · exact runs
  · exact length.trans ((State.get_eq_rfGet _ _).trans len)

theorem gives_go_periodic (taken : Takes s r Reg.HKA_SEQCTL) (go : w.getLsbD 31 = true) (stay : w.getLsbD 30 = false) (idle : s.get Fld.HKA_STAT_SEQRUN = 0)
    (two : getBits Fld.HKA_SEQCTL_MODE w = 2) : Gives (.hkSeqGo r w) s fun t =>
      t.get Fld.HKA_STAT_SEQRUN = 1 ∧ t.hk = { s.hk with perDue := s.now } ∧ t = { s with resp := { err := false, data := 0 }, regs := t.regs, hk := t.hk } := by
  have ran := exec_hkSeqGo taken go stay
  obtain ⟨l, stored, len, mode, run, same⟩ := seqctlStored_frame s r w
  rw [stored] at ran
  obtain ⟨m, -, runs, -, goes, -⟩ := seqGoes_idle (s := { s with resp := { err := false, data := 0 }, regs := l }) ((State.get_eq_rfGet _ _).trans (run.trans idle))
  rw [goes ((State.get_eq_rfGet _ _).trans (mode.trans two))] at ran
  refine Gives.of_eq ran ⟨?_, rfl, rfl⟩
  rw [State.get_eq_rfGet]
  exact runs

theorem gives_stop_user (taken : Takes s r Reg.HKA_SEQCTL) (still : w.getLsbD 31 = false) (stop : w.getLsbD 30 = true) (runs : s.get Fld.HKA_STAT_SEQRUN = 1) (conv : s.hk.conv = some c)
    (user : c.fixed = false) : Gives (.hkSeqStop r w) s fun t => t.hk = { s.hk with stop := true }
      ∧ t = { s with resp := { err := false, data := 0 }, regs := t.regs, hk := t.hk } ∧ SameRegs [Reg.HKA_SEQCTL] s t := by
  obtain ⟨l, stored, -, -, run, same⟩ := seqctlStored_frame s r w
  have ran := exec_hkSeqStop taken still stop (by rw [stored]; exact State.flag_of_get_one ((State.get_eq_rfGet _ _).trans (run.trans runs)))
  rw [stored, seqStops] at ran
  dsimp only at ran
  rw [conv] at ran
  dsimp only at ran
  rw [if_pos (show (!c.fixed) = true by rw [user]; rfl), State.setHk, ← conv] at ran
  exact Gives.of_eq ran ⟨rfl, rfl, RfSame.sameRegs same⟩

theorem gives_stop_idle (taken : Takes s r Reg.HKA_SEQCTL) (still : w.getLsbD 31 = false) (stop : w.getLsbD 30 = true) (runs : s.get Fld.HKA_STAT_SEQRUN = 1) (free : s.hk.conv = none)
    (between : 33 ≤ s.hk.pos) : Gives (.hkSeqStop r w) s fun t => t.get Fld.HKA_STAT_SEQRUN = 0 ∧ t.hk = s.hk
      ∧ t = { s with resp := { err := false, data := 0 }, regs := t.regs } ∧ SameRegs [Reg.HKA_SEQCTL, Reg.HKA_STAT] s t := by
  obtain ⟨l, stored, -, -, run, same⟩ := seqctlStored_frame s r w
  have ran := exec_hkSeqStop taken still stop (by rw [stored]; exact State.flag_of_get_one ((State.get_eq_rfGet _ _).trans (run.trans runs)))
  have out : ¬s.hk.pos < 33 := Nat.not_lt.2 between
  rw [stored, seqStops] at ran
  dsimp only at ran
  rw [free] at ran
  dsimp only at ran
  rw [if_neg (by decide), if_neg out, State.put_eq] at ran
  have both : RfSame [Reg.HKA_SEQCTL, Reg.HKA_STAT] s.regs (rfPut l Fld.HKA_STAT_SEQRUN 0) :=
    RfSame.put (fun a out => same a fun there => out (List.mem_cons.2 (.inl (List.mem_singleton.1 there)))) (by decide) 0
  refine Gives.of_eq ran ⟨?_, rfl, rfl, RfSame.sameRegs both⟩
  rw [State.get_eq_rfGet]
  exact rfGet_rfPut_self _ _ (by decide)

/-- When the next periodic pass starts (R383). -/
def State.passDue (s : State) : Nat := nextMult (max s.now (s.hk.perDue + 1)) (max 1 (s.get Fld.HKA_SEQCTL_SPER) * msU)

/-- What the instant of a periodic start does with the sequence as it stands. -/
def passGoes (s : State) : State :=
  if s.hk.pos < 33 then s.inc (Fld.HKA_CNTn_COUNT.i 4)
  else
    let s := s.setHk { s.hk with pos := 0 }
    if s.hk.conv.isSome || s.hk.inRound then s else takeUser s

/-- The ADC's own data once a periodic start is passed. -/
def Hk.passAt (x : Hk) (d : Nat) : Hk := { x with perDue := d }

theorem exec_hkSeqPeriodicStart (runs : s.get Fld.HKA_STAT_SEQRUN = 1) (two : s.get Fld.HKA_SEQCTL_MODE = 2) :
    exec .hkSeqPeriodicStart s = .next (passGoes { s with now := max s.now s.passDue, hk := s.hk.passAt s.passDue }) := by
  have passed (d : Nat) : (s.at d).setHk (s.hk.passAt d) = { s with now := max s.now d, hk := s.hk.passAt d } := rfl
  have mode : s.seqMode = 2 := by rw [State.seqMode, two]
  rw [← passed]
  show execHkSeqPeriodicStart s = _
  rw [execHkSeqPeriodicStart, State.flag_of_get_one runs, mode, if_neg (by decide)]
  dsimp only
  rw [← State.passDue]
  generalize s.passDue = d
  rw [passGoes, Hk.passAt]

theorem gives_pass_skipped (runs : s.get Fld.HKA_STAT_SEQRUN = 1) (two : s.get Fld.HKA_SEQCTL_MODE = 2) (busy : s.hk.pos < 33) :
    Gives .hkSeqPeriodicStart s fun t => t.get (Fld.HKA_CNTn_COUNT.i 4) = min (s.get (Fld.HKA_CNTn_COUNT.i 4) + 1) (2 ^ 32 - 1)
      ∧ t = { s with now := max s.now s.passDue, regs := t.regs, hk := { s.hk with perDue := s.passDue } } ∧ SameRegs [(Fld.HKA_CNTn_COUNT.i 4).reg] s t := by
  have ran := exec_hkSeqPeriodicStart runs two
  obtain ⟨d, is⟩ : ∃ d, s.passDue = d := ⟨_, rfl⟩
  rw [is] at ran ⊢
  have counts : passGoes { s with now := max s.now d, hk := s.hk.passAt d } = State.inc { s with now := max s.now d, hk := s.hk.passAt d } (Fld.HKA_CNTn_COUNT.i 4) := if_pos busy
  have counted := hkCounted s.regs 4
  rw [counts, State.inc_eq] at ran
  refine Gives.of_eq ran ⟨?_, rfl, RfSame.sameRegs ((RfSame.refl _ s.regs).put (f := Fld.HKA_CNTn_COUNT.i 4) (List.mem_singleton_self _) _)⟩
  rw [State.get_eq_rfGet, State.get_eq_rfGet]
  exact counted

theorem exec_pass_starts (runs : s.get Fld.HKA_STAT_SEQRUN = 1) (two : s.get Fld.HKA_SEQCTL_MODE = 2) (between : 33 ≤ s.hk.pos) (busy : s.hk.conv ≠ none) :
    exec .hkSeqPeriodicStart s = .next { s with now := max s.now s.passDue, hk := { s.hk with perDue := s.passDue, pos := 0 } } := by
  have ran := exec_hkSeqPeriodicStart runs two
  obtain ⟨d, is⟩ : ∃ d, s.passDue = d := ⟨_, rfl⟩
  rw [is] at ran ⊢
  have starts (u : State) (out : ¬u.hk.pos < 33) (held : u.hk.conv ≠ none) : passGoes u = { u with hk := { u.hk with pos := 0 } } := by
    have waits : (u.hk.conv.isSome || u.hk.inRound) = true := by rw [Option.isSome_iff_ne_none.2 held, Bool.true_or]
    rw [passGoes, if_neg out]
    exact if_pos waits
  rw [starts { s with now := max s.now d, hk := s.hk.passAt d } (Nat.not_lt.2 between) busy] at ran
  exact ran

theorem exec_hkResRead {n : Fin 32} (taken : s.check r (Reg.HKA_RESn + 8 * n) 2 false = .ok) : exec (.hkResRead r n) s
    = .next { s with resp := { err := false, data := (s.rd (Reg.HKA_RESn + 8 * n)).toNat }, hk := { s.hk with latch := (n.val, s.rd (Reg.HKA_RSTn + 8 * n)) :: s.hk.latch.filter fun l => l.1 != n.val } } := by
  show execHkResRead r n s = _
  rw [execHkResRead, readCmd_ok taken, resRead, State.setHk]

end

end

/-- Settles O40: the converter's own data, the status register and the counts are all that the sequencer changes when it goes on, and the supervisor's work at the end of a round
leaves the ADC alone. -/
theorem housekeeping : Obligations.Housekeeping :=
  ⟨⟨fun _ runs => ⟨fun busy => gives_round_skipped runs busy, fun out fresh busy => exec_round_waits runs out fresh busy, fun out fresh free => gives_round_begins runs out fresh free⟩,
    fun _ _ _ conv settled there fixed temp fresh => gives_temperature conv settled there fixed temp fresh, fun _ inRound free last => gives_hkRoundEnd inRound free last,
    fun _ t0 _ free => exec_hkRecoveryClose t0 free, fun _ _ selected => gives_hkRefReady selected, fun _ _ conv waits _ => gives_hkRefTimeout conv waits,
    fun _ _ selected free => gives_hkRefPowerdown selected free⟩,
   fun _ _ _ conv settled there user small _ => gives_hkCoarseReady conv settled there user small,
   fun _ _ _ conv settled there user small _ => gives_fine conv settled there user small,
   fun _ _ _ _ conv settled there user _ => gives_overrange conv settled there user,
   fun _ _ _ taken go stay => ⟨gives_go_refused taken go stay, gives_go_starts taken go stay, gives_go_periodic taken go stay⟩,
   fun _ _ _ taken still stop runs => ⟨fun _ conv user => gives_stop_user taken still stop runs conv user, gives_stop_idle taken still stop runs⟩,
   fun _ runs two => ⟨gives_pass_skipped runs two, exec_pass_starts runs two⟩,
   fun _ _ _ taken => exec_hkResRead taken⟩

end Sys2Proof.Machine
end

section
/-!
PROOFS. Complex arithmetic of the engines (R243, R257): products, rounding, parts of an accumulator.
-/

namespace Sys2Proof.Machine

/-! ### Halves and rounding -/

theorem signed_half (w : Word) (k : Nat) : signed 16 (w.toNat / 2 ^ k) = (w.extractLsb' k 16).toInt := by
  rw [BitVec.toInt_eq_toNat_cond, BitVec.extractLsb'_toNat, Nat.shiftRight_eq_div_pow, signed]
  have half : (2 : Nat) * (w.toNat / 2 ^ k % 2 ^ 16) < 2 ^ 16 ↔ w.toNat / 2 ^ k % 2 ^ 16 < 2 ^ (16 - 1) := by omega
  by_cases low : w.toNat / 2 ^ k % 2 ^ 16 < 2 ^ (16 - 1)
  · rw [if_pos low, if_pos (half.2 low)]
  · rw [if_neg low, if_neg (fun h => low (half.1 h))]

/-- The halves of a complex word, as the instruction list names them. -/
theorem cword_eq (w : Word) : cword w = ((w.extractLsb' 0 16).toInt, (w.extractLsb' 16 16).toInt) := by
  rw [cword, ← signed_half w 0, ← signed_half w 16, Nat.pow_zero, Nat.div_one, show (2 : Nat) ^ 16 = 65536 by norm_num]

theorem clampS_eq (n : Nat) (v : Int) : clampS n v = max (-(2 ^ (n - 1))) (min (2 ^ (n - 1) - 1) v) := by
  rw [clampS, Nat.cast_pow, Nat.cast_ofNat]

/-- Convergent rounding is the nearest multiple, the even one of two. -/
theorem roundEven_spec (v : Int) {d : Nat} (positive : 0 < d) : |2 * (roundEven v d * d - v)| ≤ d ∧ (|2 * (roundEven v d * d - v)| = d → roundEven v d % 2 = 0) := by
  have pos : (0 : Int) < d := by exact_mod_cast positive
  have low : 0 ≤ v % (d : Int) := Int.emod_nonneg _ (ne_of_gt pos)
  have high : v % (d : Int) < d := Int.emod_lt_of_pos _ pos
  have parts : v / (d : Int) * d + v % (d : Int) = v := Int.ediv_mul_add_emod v d
  have down : 2 * (v / (d : Int) * d - v) = -(2 * (v % (d : Int))) := by linarith
  have up : 2 * ((v / (d : Int) + 1) * d - v) = 2 * d - 2 * (v % (d : Int)) := by linarith
  rw [roundEven]
  split
  next near =>
    rw [down, abs_neg, abs_of_nonneg (by omega)]
    exact ⟨by omega, fun e => absurd e (by omega)⟩
  next far =>
    split
    next beyond =>
      rw [up, abs_of_nonneg (by omega)]
      exact ⟨by omega, fun e => absurd e (by omega)⟩
    next middle =>
      split
      next even =>
        rw [down, abs_neg, abs_of_nonneg (by omega)]
        exact ⟨by omega, fun _ => even⟩
      next odd =>
        rw [up, abs_of_nonneg (by omega)]
        exact ⟨by omega, fun _ => by omega⟩

theorem flagStick_flgStick (f : BitVec 16) {n : Nat} (inside : n < 16) {b : Bool} {p : Prop} (means : b = true ↔ p) : FlagStick f (flgStick f n b) n p := by
  refine ⟨?_, fun k other => ?_⟩
  · rw [flgStick]
    split
    next set_ => rw [getLsbD_flgPut f inside, if_pos rfl]; simp [← means, set_]
    next clear => simp [← means, clear]
  · rw [flgStick]
    split
    · rw [getLsbD_flgPut f inside, if_neg other]
    · rfl

/-! ### The parts of an accumulator (R257) -/

/-- A number modulo 2^n, as a word and as a natural number. -/
theorem unsigned_eq (n : Nat) (v : Int) : (unsigned n v : Int) = v % 2 ^ n := by
  rw [unsigned, Int.toNat_of_nonneg (Int.emod_nonneg _ (by positivity)), Nat.cast_pow, Nat.cast_ofNat]

theorem unsigned_signed {n v : Nat} (small : v < 2 ^ n) : unsigned n (signed n v) = v := by
  have whole : (unsigned n (signed n v) : Int) = v := by
    rw [unsigned_eq, signed, Nat.mod_eq_of_lt small]
    have fits : (v : Int) < 2 ^ n := by exact_mod_cast small
    split
    · exact Int.emod_eq_of_lt (by omega) fits
    · rw [Nat.cast_pow, Nat.cast_ofNat, Int.sub_emod_right]
      exact Int.emod_eq_of_lt (by omega) fits
  exact_mod_cast whole

theorem unsigned40_lt (v : Int) : unsigned 40 v < 2 ^ 40 := unsigned_lt 40 v

theorem ofNat_unsigned40 (v : Int) : BitVec.ofNat 32 (unsigned 40 v) = BitVec.ofInt 32 v := by
  have whole := unsigned_eq 40 v
  refine BitVec.eq_of_toInt_eq ?_
  rw [BitVec.toInt_ofInt, ← BitVec.ofInt_natCast, BitVec.toInt_ofInt, whole, Int.bmod_def, Int.bmod_def]
  have drop : v % 2 ^ 40 % ((2 ^ 32 : Nat) : Int) = v % ((2 ^ 32 : Nat) : Int) := Int.emod_emod_of_dvd v (by norm_num)
  rw [drop]

/-- The upper byte of a 40-bit half. -/
theorem toNat_topByte (v : Int) : (BitVec.ofInt 8 (v / 2 ^ 32)).toNat = unsigned 40 v / 2 ^ 32 := by
  have whole := unsigned_eq 40 v
  rw [BitVec.toNat_ofInt]
  omega

theorem part_zero (a : Acc) : a.part 0 = BitVec.ofNat 32 (unsigned 40 a.re) := by rw [Acc.part, if_pos rfl]

theorem part_one (a : Acc) : a.part 1 = BitVec.ofNat 32 (unsigned 40 a.im) := by rw [Acc.part, if_neg one_ne_zero, if_pos rfl]

theorem part_two (a : Acc) : a.part 2 = BitVec.ofNat 32 (unsigned 40 a.re / 2 ^ 32 + unsigned 40 a.im / 2 ^ 32 * 256) := by
  rw [Acc.part, if_neg (OfNat.ofNat_ne_zero 2), if_neg (OfNat.ofNat_ne_one 2)]

theorem topBytes (a : Acc) : a.part 2 = (BitVec.ofInt 8 (a.im / 2 ^ 32) ++ BitVec.ofInt 8 (a.re / 2 ^ 32)).setWidth 32 := by
  have re := unsigned40_lt a.re
  have im := unsigned40_lt a.im
  refine BitVec.eq_of_toNat_eq ?_
  rw [part_two, BitVec.toNat_setWidth, BitVec.toNat_append, toNat_topByte, toNat_topByte, BitVec.toNat_ofNat, Nat.shiftLeft_eq, Nat.mul_comm (unsigned 40 a.im / 2 ^ 32) (2 ^ 8),
    ← Nat.two_pow_add_eq_or_of_lt (show unsigned 40 a.re / 2 ^ 32 < 2 ^ 8 by omega)]
  omega

section
variable (a : Acc) (v : Word)

theorem setPart_zero : unsigned 40 (a.setPart 0 v).re = unsigned 40 a.re / 2 ^ 32 * 2 ^ 32 + v.toNat ∧ (a.setPart 0 v).im = a.im := by
  have re := unsigned40_lt a.re
  have word : v.toNat < 2 ^ 32 := v.isLt
  rw [Acc.setPart, if_pos rfl]
  exact ⟨unsigned_signed (by omega), rfl⟩

theorem setPart_one : unsigned 40 (a.setPart 1 v).im = unsigned 40 a.im / 2 ^ 32 * 2 ^ 32 + v.toNat ∧ (a.setPart 1 v).re = a.re := by
  have im := unsigned40_lt a.im
  have word : v.toNat < 2 ^ 32 := v.isLt
  rw [Acc.setPart, if_neg one_ne_zero, if_pos rfl]
  exact ⟨unsigned_signed (by omega), rfl⟩

theorem setPart_two : unsigned 40 (a.setPart 2 v).re = unsigned 40 a.re % 2 ^ 32 + v.toNat % 256 * 2 ^ 32
    ∧ unsigned 40 (a.setPart 2 v).im = unsigned 40 a.im % 2 ^ 32 + v.toNat / 256 % 256 * 2 ^ 32 := by
  rw [Acc.setPart, if_neg (OfNat.ofNat_ne_zero 2), if_neg (OfNat.ofNat_ne_one 2)]
  exact ⟨unsigned_signed (by omega), unsigned_signed (by omega)⟩

theorem toNat_lowHalf : (v &&& 0xFFFF#32).toNat = v.toNat % 2 ^ 16 := by
  rw [BitVec.toNat_and]
  exact Nat.and_two_pow_sub_one_eq_mod v.toNat 16

/-- A part that is set reads back, and the others are as before. -/
theorem part_setPart {p : Nat} (low : p ≤ 2) :
    (a.setPart p v).part p = (if p = 2 then v &&& 0xFFFF#32 else v) ∧ (∀ q ≤ 2, q ≠ p → (a.setPart p v).part q = a.part q) := by
  have re := unsigned40_lt a.re
  have im := unsigned40_lt a.im
  have word : v.toNat < 2 ^ 32 := v.isLt
  have mask := toNat_lowHalf v
  obtain rfl | rfl | rfl : p = 0 ∨ p = 1 ∨ p = 2 := by omega
  · obtain ⟨set_, kept⟩ := setPart_zero a v
    rw [if_neg (by decide : ¬0 = 2)]
    refine ⟨BitVec.eq_of_toNat_eq ?_, fun q small other => ?_⟩
    · rw [part_zero, set_, BitVec.toNat_ofNat]
      omega
    · obtain rfl | rfl : q = 1 ∨ q = 2 := by omega
      · rw [part_one, part_one, kept]
      · rw [part_two, part_two, kept]
        refine congrArg (BitVec.ofNat 32) ?_
        omega
  · obtain ⟨set_, kept⟩ := setPart_one a v
    rw [if_neg (by decide : ¬1 = 2)]
    refine ⟨BitVec.eq_of_toNat_eq ?_, fun q small other => ?_⟩
    · rw [part_one, set_, BitVec.toNat_ofNat]
      omega
    · obtain rfl | rfl : q = 0 ∨ q = 2 := by omega
      · rw [part_zero, part_zero, kept]
      · rw [part_two, part_two, kept]
        refine congrArg (BitVec.ofNat 32) ?_
        omega
  · obtain ⟨setRe, setIm⟩ := setPart_two a v
    rw [if_pos (rfl : 2 = 2)]
    refine ⟨BitVec.eq_of_toNat_eq ?_, fun q small other => BitVec.eq_of_toNat_eq ?_⟩
    · refine Eq.trans ?_ mask.symm
      rw [part_two, setRe, setIm, BitVec.toNat_ofNat]
      omega
    · obtain rfl | rfl : q = 0 ∨ q = 1 := by omega
      · rw [part_zero, part_zero, setRe, BitVec.toNat_ofNat, BitVec.toNat_ofNat]
        omega
      · rw [part_one, part_one, setIm, BitVec.toNat_ofNat, BitVec.toNat_ofNat]
        omega

end

/-! ### The instructions -/

section
variable {e : Fin 9} {s u : State} (ex : Executes e s u) (acc : Fin 4) (ra rb rd sh part : Fin 32)
include ex

/-- An accumulating instruction adds its product and sets AOV where a half saturates. -/
theorem Executes.adds {i : Instr} {p : Eng → Int × Int} (run : exec i s = .next (accOp e acc p s)) {re im : Int} (product : p u.eng[e] = (re, im)) :
    ∃ g, FlagStick u.eng[e].flg g 5 (max (-(2 ^ (40 - 1))) (min (2 ^ (40 - 1) - 1) ((u.eng[e].getAcc acc).re + re)) ≠ (u.eng[e].getAcc acc).re + re
        ∨ max (-(2 ^ (40 - 1))) (min (2 ^ (40 - 1) - 1) ((u.eng[e].getAcc acc).im + im)) ≠ (u.eng[e].getAcc acc).im + im)
      ∧ exec i s = .next (retire e [(3, .acc acc ⟨max (-(2 ^ (40 - 1))) (min (2 ^ (40 - 1) - 1) ((u.eng[e].getAcc acc).re + re)),
          max (-(2 ^ (40 - 1))) (min (2 ^ (40 - 1) - 1) ((u.eng[e].getAcc acc).im + im))⟩)] (fun x => x.setFlg g) u) := by
  rw [← clampS_eq 40, ← clampS_eq 40]
  have sat : (clampS 40 ((u.eng[e].getAcc acc).re + re) != (u.eng[e].getAcc acc).re + re || clampS 40 ((u.eng[e].getAcc acc).im + im) != (u.eng[e].getAcc acc).im + im) = true
      ↔ clampS 40 ((u.eng[e].getAcc acc).re + re) ≠ (u.eng[e].getAcc acc).re + re ∨ clampS 40 ((u.eng[e].getAcc acc).im + im) ≠ (u.eng[e].getAcc acc).im + im := by
    rw [Bool.or_eq_true, bne_iff_ne, bne_iff_ne]
  refine ⟨_, flagStick_flgStick u.eng[e].flg (by decide) sat, run.trans (congrArg Host.Outcome.next ?_)⟩
  rw [accOp]
  refine ex.retires ?_ rfl rfl
  dsimp only
  rw [product]
  rfl

/-- The least and the greatest number of a field bound a value. -/
def satTo (w : Nat) (n : Int) : Int := max (-(2 ^ (w - 1))) (min (2 ^ (w - 1) - 1) n)

/-- A value is rounded convergently to a multiple of 2^sh. -/
def Rounded (sh : Nat) (v n : Int) : Prop := |2 * (n * 2 ^ sh - v)| ≤ 2 ^ sh ∧ (|2 * (n * 2 ^ sh - v)| = 2 ^ sh → n % 2 = 0)

omit ex in
theorem rounded_roundEven (sh : Nat) (v : Int) : Rounded sh v (roundEven v (2 ^ sh)) := by
  have spec := roundEven_spec v (Nat.two_pow_pos sh)
  rwa [Nat.cast_pow, Nat.cast_ofNat] at spec

omit ex in
theorem pairWord (i q : Int) : BitVec.ofNat 32 (unsigned 16 i + unsigned 16 q * 65536) = BitVec.ofInt 16 q ++ BitVec.ofInt 16 i := by
  have bits (v : Int) : (BitVec.ofInt 16 v).toNat = unsigned 16 v := by
    have whole := unsigned_eq 16 v
    rw [BitVec.toNat_ofInt]
    omega
  have low := unsigned_lt 16 i
  have high := unsigned_lt 16 q
  refine BitVec.eq_of_toNat_eq ?_
  rw [BitVec.toNat_append, bits, bits, BitVec.toNat_ofNat, Nat.shiftLeft_eq, Nat.mul_comm (unsigned 16 q) (2 ^ 16), ← Nat.two_pow_add_eq_or_of_lt low]
  omega

theorem Executes.extracts : ∃ (i q : Int) (g : BitVec 16), Rounded sh (u.eng[e].getAcc acc).re i ∧ Rounded sh (u.eng[e].getAcc acc).im q
    ∧ FlagStick u.eng[e].flg g 4 (satTo 16 i ≠ i ∨ satTo 16 q ≠ q)
    ∧ exec (.ext e acc sh rd) s = .next (retire e [(0, .g rd (BitVec.ofInt 16 (satTo 16 q) ++ BitVec.ofInt 16 (satTo 16 i)))] (fun x => x.setFlg g) u) := by
  refine ⟨_, _, _, rounded_roundEven sh _, rounded_roundEven sh _, flagStick_flgStick _ (by decide) (b := ((u.eng[e].getAcc acc).ext sh).2) ?_, ?_⟩
  · rw [Acc.ext, roundSat, roundSat, Bool.or_eq_true, bne_iff_ne, bne_iff_ne, clampS_eq, clampS_eq, satTo, satTo]
  · show execExt e acc sh rd s = _
    rw [execExt, extOp, ex.retires (run := fun s => retire e [(0, .g rd ((s.eng[e].getAcc acc).ext sh).1)] (fun x => x.setFlg (flgStick x.flg 4 ((s.eng[e].getAcc acc).ext sh).2)) s) rfl rfl rfl]
    rw [← pairWord, satTo, satTo, ← clampS_eq, ← clampS_eq]
    rfl

theorem Executes.extractsReal : ∃ (i : Int) (g : BitVec 16), Rounded sh (u.eng[e].getAcc acc).re i ∧ FlagStick u.eng[e].flg g 4 (satTo 32 i ≠ i)
    ∧ exec (.extr e acc sh rd) s = .next (retire e [(0, .g rd (BitVec.ofInt 32 (satTo 32 i)))] (fun x => x.setFlg g) u) := by
  refine ⟨_, _, rounded_roundEven sh _, flagStick_flgStick _ (by decide) (b := ((u.eng[e].getAcc acc).extr sh).2) ?_, ?_⟩
  · rw [Acc.extr, roundSat, bne_iff_ne, clampS_eq, satTo]
  · show execExtr e acc sh rd s = _
    rw [execExtr, extOp, ex.retires (run := fun s => retire e [(0, .g rd ((s.eng[e].getAcc acc).extr sh).1)] (fun x => x.setFlg (flgStick x.flg 4 ((s.eng[e].getAcc acc).extr sh).2)) s) rfl rfl rfl]
    rw [satTo, ← clampS_eq]
    rfl

/-- MFACC reads a part, MTACC sets one. -/
theorem Executes.readsPart (low : part.val ≤ 2) : exec (.mfacc e acc part rd) s = .next (retire e [(2, .g rd ((u.eng[e].getAcc acc).part part.val))] id u) := by
  show execMfacc e acc part rd s = _
  rw [execMfacc, ex.retires (ws := [(2, .g rd ((u.eng[e].getAcc acc).part part.val))]) (act := id) (if_neg (Nat.not_lt.2 low)) rfl rfl]

theorem Executes.setsPart (low : part.val ≤ 2) : exec (.mtacc e acc part ra) s = .next (retire e [(3, .part acc part.val (u.eng[e].getG ra))] id u) := by
  show execMtacc e acc part ra s = _
  rw [execMtacc, ex.retires (ws := [(3, .part acc part.val (u.eng[e].getG ra))]) (act := id) (if_neg (Nat.not_lt.2 low)) rfl rfl]

theorem Executes.multiplies : exec (.cmul e acc ra rb) s = .next (retire e [(3, .acc acc ⟨(cmul (cword (u.eng[e].getG ra)) (cword (u.eng[e].getG rb))).1, (cmul (cword (u.eng[e].getG ra)) (cword (u.eng[e].getG rb))).2⟩)] id u) := by
  show execCmul e acc ra rb s = _
  exact congrArg Host.Outcome.next (ex.retires (act := id) rfl rfl rfl)

theorem Executes.clears : exec (.clracc e acc) s = .next (retire e [(3, .acc acc ⟨0, 0⟩)] id u) := by
  show execClracc e acc s = _
  rw [execClracc, ex.retires (act := id) (ws := [(3, .acc acc ⟨0, 0⟩)]) rfl rfl rfl]

end

end Sys2Proof.Machine
end

section
/-!
PROOFS. Reads of a stream over plain memory (R258): what a read finds does not depend on the accesses and the address registers before it.
-/

namespace Sys2Proof.Machine

/-- What a read looks at is the same: the registers but for the counts of quota windows, the stores, and what closes a block or holds a write back. -/
structure ReadSame (s t : State) : Prop where
  regs : ∀ a, (∀ h : Fin 8, a ≠ ((Fld.ARB_CNTn_COUNT.i 0).h h).reg) → t.rd a = s.rd a
  bist : t.bist = s.bist
  pow : t.pow = s.pow
  boot : t.boot = s.boot
  mem : t.mem = s.mem
  ecc : t.ecc = s.ecc
  stalled : t.stalled = s.stalled
  bfm : t.bfm = s.bfm

section
variable {s t u : State}

theorem BanksOnly.readSame (only : BanksOnly s t) : ReadSame s t :=
  ⟨only.regs, only.eq_field State.bist fun _ _ => rfl, only.eq_field State.pow fun _ _ => rfl, only.eq_field State.boot fun _ _ => rfl, only.eq_field State.mem fun _ _ => rfl,
    only.eq_field State.ecc fun _ _ => rfl, only.eq_field State.stalled fun _ _ => rfl, only.eq_field State.bfm fun _ _ => rfl⟩

theorem readSame_setEng (s : State) (e : Fin 9) (x : Eng) : ReadSame s (s.setEng e x) := ⟨fun _ _ => rfl, rfl, rfl, rfl, rfl, rfl, rfl, rfl⟩

theorem ReadSame.trans (first : ReadSame s t) (second : ReadSame t u) : ReadSame s u :=
  ⟨fun a other => (second.regs a other).trans (first.regs a other), second.bist.trans first.bist, second.pow.trans first.pow, second.boot.trans first.boot, second.mem.trans first.mem,
    second.ecc.trans first.ecc, second.stalled.trans first.stalled, second.bfm.trans first.bfm⟩

theorem quotaCount_reg (h : Fin 8) : ((Fld.ARB_CNTn_COUNT.i 0).h h).reg = hamletBase h + 0x830020 := Field.reg_h_eq h rfl

/-- A register below the hamlets' windows reads the same. -/
theorem ReadSame.get (same : ReadSame s t) {f : Field} (low : f.reg < 0x10000000) : t.get f = s.get f := by
  rw [State.get, State.get, same.regs]
  intro h e
  rw [quotaCount_reg, hamletBase] at e
  omega

theorem ReadSame.flag (same : ReadSame s t) {f : Field} (low : f.reg < 0x10000000) : t.flag f = s.flag f := by rw [State.flag, State.flag, same.get low]

theorem ReadSame.inWindow (same : ReadSame s t) (a : Nat) (write : Bool) : t.inWindow a write = s.inWindow a write := by
  have windows (n : Nat) (f : Field) (at_ : f.reg ≤ 0x40A0608 ∧ f.dims = [16]) (listed : n ∈ List.range 8) : (f.i n).reg < 0x10000000 := by
    have small := List.mem_range.1 listed
    rw [Field.i, at_.2]
    show f.reg + n * 16 < _
    omega
  rw [State.inWindow, State.inWindow]
  rw [Bool.eq_iff_iff, List.any_eq_true, List.any_eq_true]
  refine exists_congr fun n => and_congr_right fun listed => ?_
  rw [same.flag (windows n Fld.LNK_GWn_CTRL_EN ⟨by decide, rfl⟩ listed), same.flag (windows n Fld.LNK_GWn_CTRL_WR ⟨by decide, rfl⟩ listed), same.flag (windows n Fld.LNK_GWn_CTRL_RD ⟨by decide, rfl⟩ listed),
    same.get (windows n Fld.LNK_GWn_BASE_PAGE ⟨by decide, rfl⟩ listed), same.get (windows n Fld.LNK_GWn_LIM_PAGE ⟨by decide, rfl⟩ listed)]

theorem ReadSame.check (same : ReadSame s t) (r : Req) (a size : Nat) (write : Bool) : t.check r a size write = s.check r a size write := by
  have dark : t.blockDown a = s.blockDown a := by
    rw [State.blockDown, State.blockDown, State.dark, State.dark, State.railsOk, State.railsOk, same.boot, same.pow]
  have window := same.inWindow a write
  have hstate (h : Fin 8) : t.hstate h = s.hstate h := same.get (f := Fld.PWR_HSTATE_STATE.sub h) (show 0x401001C < 0x10000000 by decide)
  have fail (h : Fin 8) : t.flag (Fld.PWR_HSTATE_WFAIL.sub h) = s.flag (Fld.PWR_HSTATE_WFAIL.sub h) := same.flag (show 0x401001C < 0x10000000 by decide)
  have busy (h : Fin 8) : t.flag (Fld.PWR_HSTATE_BUSY.sub h) = s.flag (Fld.PWR_HSTATE_BUSY.sub h) := same.flag (show 0x401001C < 0x10000000 by decide)
  have latch : t.flag Fld.THM_STAT_SDLATCH = s.flag Fld.THM_STAT_SDLATCH := same.flag (by decide)
  rw [State.check, State.check, window, dark, same.bist, latch]
  cases hamletOf a with
  | none => rfl
  | some h =>
    dsimp only
    rw [hstate, fail, busy]

theorem ReadSame.frozen (same : ReadSame s t) (a : Nat) : t.frozen a = s.frozen a := by
  rw [State.frozen, State.frozen]
  cases hamletOf a with
  | none => rfl
  | some h =>
    dsimp only
    rw [State.flag, State.flag, State.get, State.get, same.regs]
    intro k e
    rw [quotaCount_reg, Field.reg_h_eq h (a := 0x830014) rfl, hamletBase, hamletBase] at e
    omega

theorem ReadSame.plain (same : ReadSame s t) {r : Req} {a size : Nat} {write : Bool} (plain : Plain s r a size write) : Plain t r a size write :=
  ⟨(same.check r a size write).trans plain.taken, plain.store, (same.frozen a).trans plain.free, same.ecc.trans plain.clean⟩

/-- Bytes that hold a number read as it, the least first. -/
theorem memLE_of_holds {a n v : Nat} (holds : Holds s.mem a n v) : s.memLE a n = v := by
  have digits (k : Nat) (small : k ≤ n) : (List.range' (n - k) k).foldr (fun i acc => acc * 256 + (memRead s.mem (a + i)).toNat) 0 = v / 256 ^ (n - k) := by
    induction k with
    | zero =>
      rw [Nat.sub_zero, Nat.div_eq_of_lt holds.1]
      rfl
    | succ k ih =>
      have next : n - (k + 1) + 1 = n - k := by omega
      rw [List.range'_succ, List.foldr_cons, next, ih (by omega), holds.2 (n - (k + 1)) (by omega), ← next, Nat.pow_succ, ← Nat.div_div_eq_div_mul]
      omega
  have all := digits n (le_refl n)
  rwa [Nat.sub_self, Nat.pow_zero, Nat.div_one, ← List.range_eq_range'] at all

/-- A read of plain memory gives what it holds, and only the banks have moved. -/
theorem Plain.busRead {r : Req} {a size v : Nat} (plain : Plain s r a size false) (holds : Holds s.mem a (2 ^ size) v) : ∃ t, busRead r false a size s = (.data v, t) ∧ BanksOnly s t := by
  have only := banksOnly_access s r.id false a (2 ^ size) true
  have clean : (s.access r.id false a (2 ^ size) true).ecc = [] := (only.eq_field State.ecc fun _ _ => rfl).trans plain.clean
  have mem : (s.access r.id false a (2 ^ size) true).mem = s.mem := only.eq_field State.mem fun _ _ => rfl
  have value : (s.access r.id false a (2 ^ size) true).memLE a (2 ^ size) = v := memLE_of_holds (by rw [mem]; exact holds)
  refine ⟨s.access r.id false a (2 ^ size) true, ?_, only⟩
  have whole : s.splits r a size false = false := by rw [State.splits, plain.store.1, Bool.false_and, Bool.false_and]
  have read : s.checkRead r.id false a (2 ^ size) = (s.access r.id false a (2 ^ size) true, false) := by
    rw [State.checkRead, State.errsIn, State.uncorrected, clean]
    rfl
  rw [Machine.busRead, whole, if_neg Bool.false_ne_true, readOne, plain.taken]
  dsimp only
  rw [plain.store.1, if_neg Bool.false_ne_true, if_neg (Nat.not_lt.2 plain.store.2), plain.free, if_neg Bool.false_ne_true, read]
  dsimp only
  rw [if_neg Bool.false_ne_true, value]

/-- The locks lie in register space. -/
theorem isLock_of_store {a : Nat} (store : inRegs a = false) : isLock a = false := by
  rw [isLock, hamletOf]
  split
  next window =>
    have local_ : localAddr a = a % 0x1000000 := if_pos window.1
    have outside : ¬(0x800000 ≤ a % 0x1000000 ∧ a % 0x1000000 < 0x8F0000) := by
      intro inside
      rw [inRegs, decide_eq_true window.1, decide_eq_true window.2, decide_eq_true inside.1, decide_eq_true inside.2, Bool.and_true, Bool.and_true, Bool.and_true, Bool.or_true] at store
      cases store
    rw [local_, Reg.LCK_n, Option.isSome_some, Bool.true_and, Bool.and_eq_false_iff, decide_eq_false_iff_not, decide_eq_false_iff_not]
    omega
  next => rfl

/-- A load of an engine's data from plain memory, where no translation applies and no store of its own waits. -/
theorem engRead_plain {e : Fin 9} {a v : Nat} (physical : s.eng[e].te = false ∨ s.eng[e].priv = 2) (quiet : s.storesWait e = false) (aligned : a % 4 = 0)
    (plain : Plain s (engReq e s.eng[e].status) a 2 false) (holds : Holds s.mem a 4 v) : ∃ t, engRead e s.eng[e].status 1 a 2 s = (.ok v, t) ∧ BanksOnly s t := by
  obtain ⟨t, read, only⟩ := plain.busRead holds
  refine ⟨t, ?_, only⟩
  have bare : (!s.eng[e].status.te || s.eng[e].status.priv == 2) = true := by
    rcases physical with off | machine
    · rw [show s.eng[e].status.te = false from off, Bool.not_false, Bool.true_or]
    · rw [show s.eng[e].status.priv = 2 from machine, Bool.or_eq_true]
      exact .inr rfl
  have held : engHold e a s = none := by
    rw [engHold, quiet, isLock_of_store plain.store.1, if_neg Bool.false_ne_true, Bool.false_and, if_neg Bool.false_ne_true]
  rw [engRead, if_neg (by omega), engXlat, if_pos bare]
  dsimp only [Xlat.got]
  rw [if_neg (by decide), held]
  dsimp only
  rw [show ((1 : Nat) == 0) = false from rfl, read]

end

end Sys2Proof.Machine
end

section
/-!
PROOFS. The address registers of a stream (R249, R258): what the post-modification of one leaves of the engine.
-/

namespace Sys2Proof.Machine

/-- A write to address register `n` on its way. -/
def addrWrite (n : Fin 8) (w : Nat × EngWrite) : Bool := w.1 == 0 && (match w.2 with | .x sel m _ => sel == 0 && m == n | _ => false)

/-- Address register `n` stands at `v`, its linear length noted as 0, and no write to it is on its way. -/
def Eng.goTo (x : Eng) (n : Fin 8) (v : Word) : Eng := (((x.setA n v).setLin n 0).setLw n false).governA n

/-- A bank with its address register `n` at `v`. -/
def EngBank.goTo (b : EngBank) (n : Fin 4) (v : Word) : EngBank := { b with a := b.a.set n v, lin := b.lin.set n 0, lw := b.lw.set n false }

/-- The place of an upper address register in its bank. -/
def highOf (n : Fin 8) : Fin 4 := ⟨n.val - 4, by omega⟩

/-- The shared address register `n` at `v`. -/
def Eng.goLow (x : Eng) (n : Fin 8) (low : n.val < 4) (v : Word) : Eng :=
  { x with a := x.a.set n.val v, lin := x.lin.set n.val 0, lw := x.lw.set n.val false, writes := x.writes.filter fun w => !addrWrite n w }

/-- The banked address register `n` at `v`. -/
def Eng.goHigh (x : Eng) (n : Fin 8) (v : Word) : Eng :=
  { x with bank := x.bank.set x.lvl (x.bank[x.lvl].goTo (highOf n) v), writes := x.writes.filter fun w => !addrWrite n w }

section
variable (x : Eng) {n m : Fin 8} (v w : Word)

theorem Eng.goTo_low (low : n.val < 4) : x.goTo n v = x.goLow n low v := by
  rw [Eng.goTo, Eng.setA, dif_pos low, Eng.setLin, dif_pos low, Eng.setLw, dif_pos low, Eng.governA]
  rfl

theorem Eng.setBk_setBk (b c : EngBank) : (x.setBk b).setBk c = x.setBk c := by
  rw [Eng.setBk, Eng.setBk, Eng.setBk]
  exact congrArg (fun y => ({ x with bank := y } : Eng)) (Vector.set_set ..)

theorem Eng.goTo_high (high : ¬n.val < 4) : x.goTo n v = x.goHigh n v := by
  rw [Eng.goTo, Eng.setA, dif_neg high, Eng.setLin, dif_neg high, Eng.setLw, dif_neg high, Eng.governA]
  simp only [Eng.bk_setBk, Eng.setBk_setBk]
  rfl

theorem filter_twice {α : Type} (p q : α → Bool) (l : List α) : (l.filter p).filter q = (l.filter q).filter p := by
  rw [List.filter_filter, List.filter_filter]
  exact List.filter_congr fun _ _ => Bool.and_comm _ _

theorem filter_again {α : Type} (p : α → Bool) (l : List α) : (l.filter p).filter p = l.filter p := by
  rw [List.filter_filter]
  exact List.filter_congr fun _ _ => Bool.and_self _

theorem EngBank.goTo_again (b : EngBank) (n : Fin 4) : (b.goTo n v).goTo n w = b.goTo n w := by
  simp only [EngBank.goTo, Vector.set_set]

theorem EngBank.goTo_comm (b : EngBank) {n m : Fin 4} (other : n ≠ m) : (b.goTo n v).goTo m w = (b.goTo m w).goTo n v := by
  have apart : n.val ≠ m.val := fun e => other (Fin.ext e)
  simp only [EngBank.goTo, EngBank.mk.injEq, true_and, and_true]
  exact ⟨Vector.set_comm _ _ apart, Vector.set_comm _ _ apart, Vector.set_comm _ _ apart⟩

/-- The last of two stands governs. -/
theorem Eng.goTo_again : (x.goTo n v).goTo n w = x.goTo n w := by
  by_cases low : n.val < 4
  · rw [Eng.goTo_low _ _ low, Eng.goTo_low _ _ low, Eng.goTo_low _ _ low]
    simp only [Eng.goLow, Vector.set_set, filter_again]
  · rw [Eng.goTo_high _ _ low, Eng.goTo_high _ _ low, Eng.goTo_high _ _ low]
    simp only [Eng.goHigh, Fin.getElem_fin, Vector.getElem_set_self, Vector.set_set, filter_again, EngBank.goTo_again]

/-- Two address registers move on their own. -/
theorem Eng.goTo_comm (other : n ≠ m) : (x.goTo n v).goTo m w = (x.goTo m w).goTo n v := by
  have apart : n.val ≠ m.val := fun e => other (Fin.ext e)
  by_cases low : n.val < 4
  · by_cases low' : m.val < 4
    · rw [Eng.goTo_low _ _ low, Eng.goTo_low _ _ low', Eng.goTo_low _ _ low', Eng.goTo_low _ _ low]
      simp only [Eng.goLow]
      rw [Vector.set_comm _ _ apart, Vector.set_comm _ _ apart, Vector.set_comm _ _ apart, filter_twice]
    · rw [Eng.goTo_low _ _ low, Eng.goTo_high _ _ low', Eng.goTo_high _ _ low', Eng.goTo_low _ _ low]
      simp only [Eng.goLow, Eng.goHigh]
      rw [filter_twice]
  · by_cases low' : m.val < 4
    · rw [Eng.goTo_high _ _ low, Eng.goTo_low _ _ low', Eng.goTo_low _ _ low', Eng.goTo_high _ _ low]
      simp only [Eng.goLow, Eng.goHigh]
      rw [filter_twice]
    · have places : highOf n ≠ highOf m := by
        intro e
        have same : n.val - 4 = m.val - 4 := congrArg Fin.val e
        omega
      rw [Eng.goTo_high _ _ low, Eng.goTo_high _ _ low', Eng.goTo_high _ _ low', Eng.goTo_high _ _ low]
      simp only [Eng.goHigh, Fin.getElem_fin, Vector.getElem_set_self, Vector.set_set]
      rw [EngBank.goTo_comm _ _ _ places, filter_twice]

theorem Eng.getA_goTo : (x.goTo n v).getA n = v := by
  by_cases low : n.val < 4
  · rw [Eng.goTo_low _ _ low, Eng.getA, dif_pos low, Eng.goLow]
    exact Vector.getElem_set_self _
  · rw [Eng.goTo_high _ _ low, Eng.getA, dif_neg low, Eng.bk, Eng.goHigh]
    simp [EngBank.goTo, highOf]

theorem Eng.getA_goTo_ne (other : n ≠ m) : (x.goTo n v).getA m = x.getA m := by
  have apart : n.val ≠ m.val := fun e => other (Fin.ext e)
  by_cases low : n.val < 4
  · rw [Eng.goTo_low _ _ low, Eng.getA, Eng.getA]
    split
    · exact Vector.getElem_set_ne low _ apart
    · rfl
  · rw [Eng.goTo_high _ _ low, Eng.getA, Eng.getA]
    split
    · rfl
    next high =>
      have places : n.val - 4 ≠ m.val - 4 := by omega
      simp [Eng.bk, Eng.goHigh, EngBank.goTo, highOf, places]

/-- What a stream leaves of the engine but its address registers. -/
structure Eng.Streams (x y : Eng) : Prop where
  m : ∀ n, y.getM n = x.getM n
  l : ∀ n, y.getL n = x.getL n
  flg : y.flg = x.flg
  status : y.status = x.status
  pc : y.pc = x.pc
  slot : y.slot = x.slot

theorem Eng.Streams.trans {x y z : Eng} (first : x.Streams y) (second : y.Streams z) : x.Streams z :=
  ⟨fun n => (second.m n).trans (first.m n), fun n => (second.l n).trans (first.l n), second.flg.trans first.flg, second.status.trans first.status, second.pc.trans first.pc,
    second.slot.trans first.slot⟩

theorem Eng.streams_goTo : x.Streams (x.goTo n v) := by
  by_cases low : n.val < 4
  · rw [Eng.goTo_low _ _ low]
    exact ⟨fun _ => rfl, fun _ => rfl, rfl, rfl, rfl, rfl⟩
  · rw [Eng.goTo_high _ _ low]
    have bk : (x.goHigh n v).bk = x.bk.goTo (highOf n) v := Vector.getElem_set_self _
    refine ⟨fun k => ?_, fun k => ?_, ?_, rfl, rfl, rfl⟩
    · rw [Eng.getM, Eng.getM, bk]
      rfl
    · rw [Eng.getL, Eng.getL, bk]
      rfl
    · rw [Eng.flg, bk]
      rfl

/-- With a stride of one word and no length, a post-modification moves one word on. -/
theorem Eng.postMod_word (stride : x.getM n = 4) (linear : x.getL n = 0) : x.postMod n true = x.goTo n (x.getA n + 4) := by
  rw [Eng.postMod, linear, stride]
  rfl

end

end Sys2Proof.Machine
end

section
/-!
PROOFS. Streaming instructions over plain memory (R258, R259); the settlement of O54.
-/

namespace Sys2Proof.Machine

/-! ### The elements of a run -/

section
variable {e : Fin 9} {u s : State} {ax ay : Fin 8}

theorem State.setEng_setEng (u : State) (e : Fin 9) (x y : Eng) : (u.setEng e x).setEng e y = u.setEng e y := by
  rw [State.setEng, State.setEng, State.setEng]
  exact congrArg (fun z => ({ u with eng := z } : State)) (Vector.set_set ..)

theorem BanksOnly.setEng (only : BanksOnly u s) (e : Fin 9) (x : Eng) : BanksOnly (u.setEng e x) (s.setEng e x) where
  rest := by
    have rest := only.rest
    rw [State.setEng, rest]
    rfl
  banks := only.banks
  regs := only.regs

theorem BanksOnly.eng (only : BanksOnly (u.setEng e x) s) : s.eng[e] = x := by
  rw [only.eq_field (fun t => t.eng[e]) fun _ _ => rfl, State.setEng_eng_same]

/-- What a read of a stream needs: no translation, no store of the engine's own that waits. -/
structure Streamable (u : State) (e : Fin 9) (y : Eng) : Prop where
  physical : y.te = false ∨ y.priv = 2
  quiet : u.storesWait e = false

/-- A word that a stream reads at an address. -/
structure WordAt (u : State) (e : Fin 9) (y : Eng) (a : Nat) (v : Word) : Prop where
  aligned : a % 4 = 0
  plain : Plain u (engReq e y.status) a 2 false
  holds : Holds u.mem a 4 v.toNat

theorem streamRead_plain {n : Fin 8} {y : Eng} {v : Word} (at_ : BanksOnly (u.setEng e y) s) (can : Streamable u e y) (word : WordAt u e y (y.getA n).toNat v) :
    ∃ t, streamRead e n s = (.ok v.toNat, t) ∧ BanksOnly (u.setEng e (y.postMod n true)) t := by
  have eng : s.eng[e] = y := at_.eng
  have same : ReadSame u s := (readSame_setEng u e y).trans at_.readSame
  have quiet : s.storesWait e = false := by
    rw [← can.quiet, State.storesWait, State.storesWait, same.stalled, same.bfm]
  obtain ⟨t, read, only⟩ := engRead_plain (s := s) (e := e) (by rw [eng]; exact can.physical) quiet word.aligned (by rw [eng]; exact same.plain word.plain) (by rw [same.mem]; exact word.holds)
  refine ⟨t.setEng e (y.postMod n true), ?_, ?_⟩
  · rw [streamRead, eng]
    rw [eng] at read
    rw [read]
    dsimp only
    rw [(at_.trans only).eng]
  · have moved := (at_.trans only).setEng e (y.postMod n true)
    rwa [State.setEng_setEng] at moved

theorem streamElem_one {y : Eng} {v : Word} (at_ : BanksOnly (u.setEng e y) s) (can : Streamable u e y) (word : WordAt u e y (y.getA ax).toNat v) :
    ∃ t, streamElem e ax none s = (.ok v.toNat, 0, t) ∧ BanksOnly (u.setEng e (y.postMod ax true)) t := by
  obtain ⟨t, read, only⟩ := streamRead_plain at_ can word
  refine ⟨t, ?_, only⟩
  unfold streamElem
  rw [read]

theorem streamElem_two {y : Eng} {v w : Word} (at_ : BanksOnly (u.setEng e y) s) (can : Streamable u e y) (first : WordAt u e y (y.getA ax).toNat v)
    (can' : Streamable u e (y.postMod ax true)) (second : WordAt u e (y.postMod ax true) ((y.postMod ax true).getA ay).toNat w) :
    ∃ t, streamElem e ax (some ay) s = (.ok v.toNat, w.toNat, t) ∧ BanksOnly (u.setEng e ((y.postMod ax true).postMod ay true)) t := by
  obtain ⟨t, read, only⟩ := streamRead_plain at_ can first
  obtain ⟨t', read', only'⟩ := streamRead_plain only can' second
  refine ⟨t', ?_, only'⟩
  unfold streamElem
  rw [read]
  dsimp only
  rw [read']

/-- A run whose elements all succeed gathers them in turn; `z` says how the engine stands after each. -/
theorem streamRun_all {α : Type} {o : Option (Fin 8)} (f : Nat → Nat → Nat → α → α) (X Y : Nat → Nat) (z : Nat → Eng) (n j : Nat) (a : α) (s : State)
    (at_ : BanksOnly (u.setEng e (z j)) s) (each : ∀ i, j ≤ i → i < j + n → ∀ s, BanksOnly (u.setEng e (z i)) s →
      ∃ t, streamElem e ax o s = (.ok (X i), Y i, t) ∧ BanksOnly (u.setEng e (z (i + 1))) t) :
    ∃ t, streamRun e ax o f n j a s = (j + n, (List.range' j n).foldl (fun a i => f i (X i) (Y i) a) a, .done, t) ∧ BanksOnly (u.setEng e (z (j + n))) t := by
  induction n generalizing j a s with
  | zero => exact ⟨s, rfl, at_⟩
  | succ n ih =>
    obtain ⟨t, elem, only⟩ := each j (le_refl j) (by omega) s at_
    obtain ⟨t', run, only'⟩ := ih (j + 1) (f j (X j) (Y j) a) t only fun i low high => each i (by omega) (by omega)
    refine ⟨t', ?_, ?_⟩
    · rw [streamRun, elem]
      dsimp only
      rw [run, List.range'_succ, List.foldl_cons, show j + 1 + n = j + (n + 1) by omega]
    · rwa [show j + 1 + n = j + (n + 1) by omega] at only'

/-- A streaming instruction that nothing can cut retires with what its run gathered. -/
theorem streamOp_whole {α : Type} {o : Option (Fin 8)} {rc : Fin 32} {cut N : Nat} {init : Eng → Nat → α} {f : Nat → Nat → Nat → α → α} {none_ : List (Nat × EngWrite)}
    {fin : α → List (Nat × EngWrite)} {flags keep : α → Eng → Eng} {a : α} {t : State} (uncut : u.mayCut e = false) (fresh : u.eng[e].rsmNow.msb = false)
    (count : (u.eng[e].getG rc).toNat = N) (short : N < 2 ^ 24) (run : streamRun e ax o f N 0 (init u.eng[e] 0) u = (N, a, .done, t)) :
    streamOp e ax o rc cut init f none_ fin flags keep u = retire e (if 0 < N then fin a else none_) (fun x => (flags a x).setRsm 0#32) t := by
  have counted : u.eng[e].streamCount rc = N := by
    rw [Eng.streamCount, count]
    omega
  have start : u.eng[e].streamFrom = 0 := by
    have low : u.eng[e].rsmNow.toNat < 2 ^ 31 := by
      have bit := (BitVec.msb_eq_false_iff_two_mul_lt).1 fresh
      omega
    rw [Eng.streamFrom, if_neg fun h => absurd h.1 (Nat.not_le.2 low)]
  rw [streamOp]
  dsimp only
  rw [counted, start, uncut, if_neg Bool.false_ne_true, Nat.sub_zero, run]
  dsimp only
  rw [if_pos (le_refl N)]
  by_cases some_ : 0 < N
  · rw [if_pos some_, if_pos some_]
  · rw [if_neg some_, if_neg some_, if_pos (by omega)]

/-- The retirement after a run, as one of the state before it. -/
theorem banksOnly_retire {z : Eng} {ws : List (Nat × EngWrite)} {act move : Eng → Eng} (only : BanksOnly (u.setEng e z) s) (same : move u.eng[e] = act z) :
    BanksOnly (retire e ws move u) (retire e ws act s) := by
  rw [retire, retire, only.eng, same]
  have moved := only.setEng e (((act z).tick ws).step1)
  rwa [State.setEng_setEng] at moved

/-- An instruction that retires after reads of memory is its own action. -/
theorem Executes.streams {s u t : State} (ex : Executes e s u) {i : Instr} {act : State → State} {ws : List (Nat × EngWrite)} {move : Eng → Eng} (run : exec i s = .next (engStep e act s))
    (is : act u = t) (only : BanksOnly (retire e ws move u) t) (pc : (move u.eng[e]).pc = u.eng[e].pc) (slot : (move u.eng[e]).slot = u.eng[e].slot) :
    Gives i s (BanksOnly (retire e ws move u)) := by
  have eng : t.eng[e] = (((move u.eng[e]).tick ws).step1) := by
    rw [retire] at only
    exact only.eng
  have aligned : t.eng[e].pc % 4 = 0 := by
    rw [eng, Eng.pc_step1_congr (x := u.eng[e]) ((Eng.tick_pc _ _).trans pc) ((Eng.tick_slot _ _).trans slot)]
    exact ex.next
  have calm (h : Fin 8) (at_ : hEng h = e) : t.get (Fld.ENG_CTRL_HALT.h h) = 0 := by
    rw [← ex.calm h at_]
    refine only.get _ fun k e => ?_
    rw [quotaCount_reg, Field.reg_h_eq h (a := 0x800010) rfl, hamletBase, hamletBase] at e
    omega
  refine Gives.of_eq (run.trans (congrArg Host.Outcome.next ?_)) only
  rw [ex.settles, is, settle_of_aligned aligned calm]

end

end Sys2Proof.Machine
end

section
/-!
PROOFS. The streaming multiply-accumulates and searches (R258, R259); the settlement of O54.
-/

namespace Sys2Proof.Machine

/-! ### The address registers along a stream -/

/-- The engine after `j` elements of one stream. -/
def Eng.along (x : Eng) (ax : Fin 8) (j : Nat) : Eng := if j = 0 then x else x.goTo ax (x.getA ax + BitVec.ofNat 32 (4 * j))

/-- The engine after `j` elements of two streams. -/
def Eng.alongBoth (x : Eng) (ax ay : Fin 8) (j : Nat) : Eng :=
  if j = 0 then x else (x.goTo ax (x.getA ax + BitVec.ofNat 32 (4 * j))).goTo ay (x.getA ay + BitVec.ofNat 32 (4 * j))

/-- A stream moves one word at a time, without a length. -/
def Eng.WordWise (x : Eng) (n : Fin 8) : Prop := x.getM n = 4 ∧ x.getL n = 0

theorem word_on (a : Word) (j : Nat) : a + BitVec.ofNat 32 (4 * j) + 4 = a + BitVec.ofNat 32 (4 * (j + 1)) := by
  rw [BitVec.add_assoc, show (4 : Word) = BitVec.ofNat 32 4 from rfl, ← BitVec.ofNat_add, Nat.mul_succ]

theorem toNat_word_on {a : Word} {j N : Nat} (inside : j < N) (room : a.toNat + 4 * N < 2 ^ 32) : (a + BitVec.ofNat 32 (4 * j)).toNat = a.toNat + 4 * j := by
  rw [BitVec.toNat_add, BitVec.toNat_ofNat]
  omega

section
variable {x : Eng} {ax ay : Fin 8}

theorem Eng.streams_along (j : Nat) : x.Streams (x.along ax j) := by
  rw [Eng.along]
  split
  · exact ⟨fun _ => rfl, fun _ => rfl, rfl, rfl, rfl, rfl⟩
  · exact Eng.streams_goTo ..

theorem Eng.streams_alongBoth (j : Nat) : x.Streams (x.alongBoth ax ay j) := by
  rw [Eng.alongBoth]
  split
  · exact ⟨fun _ => rfl, fun _ => rfl, rfl, rfl, rfl, rfl⟩
  · exact (Eng.streams_goTo ..).trans (Eng.streams_goTo ..)

theorem Eng.getA_along (j : Nat) : (x.along ax j).getA ax = x.getA ax + BitVec.ofNat 32 (4 * j) := by
  rw [Eng.along]
  split
  next zero =>
    subst zero
    exact (BitVec.add_zero _).symm
  · exact Eng.getA_goTo ..

theorem Eng.getA_alongBoth (apart : ax ≠ ay) (j : Nat) : (x.alongBoth ax ay j).getA ax = x.getA ax + BitVec.ofNat 32 (4 * j)
    ∧ (x.alongBoth ax ay j).getA ay = x.getA ay + BitVec.ofNat 32 (4 * j) := by
  rw [Eng.alongBoth]
  split
  next zero =>
    subst zero
    exact ⟨(BitVec.add_zero _).symm, (BitVec.add_zero _).symm⟩
  · exact ⟨(Eng.getA_goTo_ne _ _ apart.symm).trans (Eng.getA_goTo ..), Eng.getA_goTo ..⟩

theorem Eng.postMod_along (words : x.WordWise ax) (j : Nat) : (x.along ax j).postMod ax true = x.along ax (j + 1) := by
  have same := Eng.streams_along (x := x) (ax := ax) j
  rw [Eng.postMod_word _ ((same.m ax).trans words.1) ((same.l ax).trans words.2), Eng.getA_along, word_on, Eng.along, Eng.along, if_neg (Nat.succ_ne_zero j)]
  split
  · rfl
  · exact Eng.goTo_again ..

/-- The first stream's move of an element of two. -/
theorem Eng.postMod_alongBoth_first (apart : ax ≠ ay) (words : x.WordWise ax ∧ x.WordWise ay) (j : Nat) : x.Streams ((x.alongBoth ax ay j).postMod ax true)
    ∧ ((x.alongBoth ax ay j).postMod ax true).getA ay = x.getA ay + BitVec.ofNat 32 (4 * j)
    ∧ ((x.alongBoth ax ay j).postMod ax true).postMod ay true = x.alongBoth ax ay (j + 1) := by
  have same := Eng.streams_alongBoth (x := x) (ax := ax) (ay := ay) j
  obtain ⟨atX, atY⟩ := Eng.getA_alongBoth (x := x) apart j
  have first : (x.alongBoth ax ay j).postMod ax true = (x.alongBoth ax ay j).goTo ax (x.getA ax + BitVec.ofNat 32 (4 * (j + 1))) := by
    rw [Eng.postMod_word _ ((same.m ax).trans words.1.1) ((same.l ax).trans words.1.2), atX, word_on]
  have moved : x.Streams ((x.alongBoth ax ay j).postMod ax true) := by
    rw [first]
    exact same.trans (Eng.streams_goTo ..)
  have second : ((x.alongBoth ax ay j).postMod ax true).getA ay = x.getA ay + BitVec.ofNat 32 (4 * j) := by
    rw [first, Eng.getA_goTo_ne _ _ apart, atY]
  refine ⟨moved, second, ?_⟩
  rw [Eng.postMod_word _ ((moved.m ay).trans words.2.1) ((moved.l ay).trans words.2.2), second, word_on, first, Eng.alongBoth, Eng.alongBoth, if_neg (Nat.succ_ne_zero j)]
  split
  · rfl
  · rw [Eng.goTo_comm _ _ _ apart.symm, Eng.goTo_again, Eng.goTo_again]

end

/-! ### What a run gathers -/

/-- An accumulator after one product, the conjugate's where `cj`. -/
def macStep (cj : Bool) (a : Acc) (v w : Word) : Acc := (a.addSat (cmul (cword v) ((if cj then conj else id) (cword w)))).1

/-- A multiply-accumulate's element: the accumulator and whether it has saturated. -/
def macElem (cj : Bool) (_ x y : Nat) (a : Acc × Bool) : Acc × Bool :=
  let r := a.1.addSat (cmul (cword (BitVec.ofNat 32 x)) ((if cj then conj else id) (cword (BitVec.ofNat 32 y))))
  (r.1, a.2 || r.2)

theorem macElem_fst (cj : Bool) (j : Nat) (v w : Word) (a : Acc × Bool) : (macElem cj j v.toNat w.toNat a).1 = macStep cj a.1 v w := by
  rw [macElem, BitVec.ofNat_toNat, BitVec.ofNat_toNat, BitVec.setWidth_eq, BitVec.setWidth_eq]
  rfl

theorem macs_fst (cj : Bool) (X Y : Nat → Word) (l : List Nat) (p : Acc × Bool) :
    (l.foldl (fun a j => macElem cj j (X j).toNat (Y j).toNat a) p).1 = l.foldl (fun a j => macStep cj a (X j) (Y j)) p.1 := by
  induction l generalizing p with
  | nil => rfl
  | cons j l ih => rw [List.foldl_cons, List.foldl_cons, ih, macElem_fst]

/-- A search over the first elements keeps the first of the best, by a key. -/
theorem search_best {key : Int → Int} {better : Int → Int → Bool} (means : ∀ v b, better v b = true ↔ key b < key v) (w : Nat → Int) (n : Nat) :
    ∃ k < n + 1, (List.range' 0 (n + 1)).foldl (fun a j => if j = 0 then (w j, 0) else if better (w j) a.1 then (w j, j) else a) ((0, 0) : Int × Nat) = (w k, k)
      ∧ (∀ j < n + 1, key (w j) ≤ key (w k)) ∧ ∀ j < k, key (w j) < key (w k) := by
  induction n with
  | zero =>
    refine ⟨0, by decide, rfl, fun j small => ?_, fun j small => absurd small (Nat.not_lt_zero j)⟩
    rw [Nat.lt_one_iff.1 small]
  | succ n ih =>
    obtain ⟨k, inside, fold, top, first⟩ := ih
    rw [List.range'_concat, List.foldl_append, fold]
    simp only [List.foldl_cons, List.foldl_nil, Nat.zero_add, Nat.one_mul, Nat.succ_ne_zero, if_false]
    by_cases wins : better (w (n + 1)) (w k) = true
    · have above := (means _ _).1 wins
      refine ⟨n + 1, by omega, by rw [if_pos wins], fun j small => ?_, fun j small => lt_of_le_of_lt (top j small) above⟩
      obtain rfl | low : j = n + 1 ∨ j < n + 1 := by omega
      · exact le_refl _
      · exact le_of_lt (lt_of_le_of_lt (top j low) above)
    · have below := not_lt.1 fun h => wins ((means _ _).2 h)
      refine ⟨k, by omega, by rw [if_neg wins], fun j small => ?_, first⟩
      obtain rfl | low : j = n + 1 ∨ j < n + 1 := by omega
      · exact below
      · exact top j low

theorem searchVal_eq (mode : Fin 16) (w : Word) : searchVal mode.val w.toNat = if mode = 0 then (w.extractLsb' 0 16).toInt ^ 2 + (w.extractLsb' 16 16).toInt ^ 2 else w.toInt := by
  have whole : signed 32 w.toNat = w.toInt := by
    rw [BitVec.toInt_eq_toNat_cond, signed, Nat.mod_eq_of_lt w.isLt]
    by_cases low : w.toNat < 2 ^ (32 - 1)
    · rw [if_pos low, if_pos (by omega)]
    · rw [if_neg low, if_neg (by omega)]
  by_cases zero : mode = 0
  · rw [if_pos zero, searchVal, if_pos (by rw [zero]; rfl), BitVec.ofNat_toNat, BitVec.setWidth_eq, cword_eq]
    dsimp only
    rw [sq, sq]
  · have other : ¬mode.val = 0 := fun h => zero (Fin.ext h)
    rw [if_neg zero, searchVal, if_neg other, whole]

theorem macStep_eq (cj : Bool) (a : Acc) (v w : Word) : macStep cj a v w =
    ⟨max (-(2 ^ 39)) (min (2 ^ 39 - 1) (a.re + ((v.extractLsb' 0 16).toInt * (w.extractLsb' 0 16).toInt - (if cj then -1 else 1) * ((v.extractLsb' 16 16).toInt * (w.extractLsb' 16 16).toInt)))),
      max (-(2 ^ 39)) (min (2 ^ 39 - 1) (a.im + ((if cj then -1 else 1) * ((v.extractLsb' 0 16).toInt * (w.extractLsb' 16 16).toInt) + (v.extractLsb' 16 16).toInt * (w.extractLsb' 0 16).toInt)))⟩ := by
  rw [macStep, Acc.addSat]
  dsimp only
  rw [clampS_eq, clampS_eq, cword_eq, cword_eq, Acc.mk.injEq]
  cases cj
  · exact ⟨by simp only [cmul, Bool.false_eq_true, if_false, id, one_mul, Nat.reduceSub], by simp only [cmul, Bool.false_eq_true, if_false, id, one_mul, Nat.reduceSub]⟩
  · exact ⟨by simp only [cmul, conj, if_true]; norm_num, by simp only [cmul, conj, if_true]; norm_num⟩

theorem flgStick_kept (f : BitVec 16) (b : Bool) {k : Nat} (other : k ≠ 5) : (flgStick f 5 b).getLsbD k = f.getLsbD k := by
  rw [flgStick]
  split
  · rw [getLsbD_flgPut f (by decide), if_neg other]
  · rfl

/-! ### The instructions -/

/-- An engine whose streaming instruction starts afresh and that nothing cuts (R258). -/
structure Uncut (u : State) (e : Fin 9) : Prop where
  streamable : Streamable u e u.eng[e]
  uncut : u.mayCut e = false
  fresh : u.eng[e].rsmNow.msb = false

theorem Streamable.of {y z : Eng} (can : Streamable u e y) (same : y.Streams z) : Streamable u e z :=
  ⟨can.physical.imp (fun off => (congrArg Status.te same.status).trans off) fun machine => (congrArg Status.priv same.status).trans machine, can.quiet⟩

/-- The words of a stream, in the engine's requests. -/
structure WordsFrom (u : State) (e : Fin 9) (n : Fin 8) (X : Nat → Word) (N : Nat) : Prop where
  aligned : (u.eng[e].getA n).toNat % 4 = 0
  room : (u.eng[e].getA n).toNat + 4 * N < 2 ^ 32
  words : u.eng[e].WordWise n
  plain : ∀ j < N, Plain u (engReq e u.eng[e].status) ((u.eng[e].getA n).toNat + 4 * j) 2 false
  holds : ∀ j < N, Holds u.mem ((u.eng[e].getA n).toNat + 4 * j) 4 (X j).toNat

theorem WordsFrom.at {X : Nat → Word} {y : Eng} {j N : Nat} (ws : WordsFrom u e n X N) (inside : j < N) (same : u.eng[e].Streams y)
    (stands : y.getA n = u.eng[e].getA n + BitVec.ofNat 32 (4 * j)) : WordAt u e y (y.getA n).toNat (X j) := by
  have address : (y.getA n).toNat = (u.eng[e].getA n).toNat + 4 * j := by rw [stands, toNat_word_on inside ws.room]
  rw [address]
  refine ⟨?_, ?_, ws.holds j inside⟩
  · have aligned := ws.aligned
    omega
  · rw [same.status]
    exact ws.plain j inside

section
variable {e : Fin 9} {s u : State}

/-- The engine after a stream, with its resume register clear and its flags. -/
def Eng.after (x : Eng) (ax : Fin 8) (N : Nat) : Eng := x.goTo ax (x.getA ax + BitVec.ofNat 32 (4 * N))

theorem Eng.finish_comm (x : Eng) (g : BitVec 16) : (x.setRsm 0#32).setFlg g = (x.setFlg g).setRsm 0#32 := rfl

theorem Eng.finish_pc (x : Eng) (g : BitVec 16) : ((x.setRsm 0#32).setFlg g).pc = x.pc ∧ ((x.setRsm 0#32).setFlg g).slot = x.slot := ⟨rfl, rfl⟩

theorem Eng.alongBoth_after {x : Eng} {ax ay : Fin 8} (apart : ax ≠ ay) {N : Nat} (some_ : 0 < N) : x.alongBoth ax ay N = (x.after ax N).after ay N := by
  rw [Eng.alongBoth, if_neg (Nat.ne_of_gt some_), Eng.after, Eng.after, Eng.getA_goTo_ne _ _ apart]

/-- An uninterrupted multiply-accumulate adds its products in turn. -/
theorem Executes.accumulates (ex : Executes e s u) (free : Uncut u e) {acc : Fin 4} {ax ay : Fin 8} {rc : Fin 32} {cut N : Nat} {X Y : Nat → Word} {cj : Bool} {i : Instr}
    (run : exec i s = .next (engStep e (smacOp e acc ax ay rc cj cut) s)) (count : N = (u.eng[e].getG rc).toNat) (some_ : 0 < N) (short : N < 2 ^ 24) (apart : ax ≠ ay)
    (first : WordsFrom u e ax X N) (second : WordsFrom u e ay Y N) :
    ∃ g, (∀ k, k ≠ 5 → g.getLsbD k = u.eng[e].flg.getLsbD k) ∧
      Gives i s (BanksOnly (retire e [(3, .acc acc ((List.range N).foldl (fun A j => macStep cj A (X j) (Y j)) (u.eng[e].getAcc acc)))]
        (fun x => (((x.after ax N).after ay N).setRsm 0#32).setFlg g) u)) := by
  have start : BanksOnly (u.setEng e (u.eng[e].alongBoth ax ay 0)) u := by
    rw [Eng.alongBoth, if_pos rfl, State.setEng_self]
    exact BanksOnly.refl u
  obtain ⟨t, ran, only⟩ := streamRun_all (ax := ax) (o := some ay) (macElem cj) (fun j => (X j).toNat) (fun j => (Y j).toNat) (fun j => u.eng[e].alongBoth ax ay j) N 0
    (u.eng[e].getAcc acc, false) u start
    fun j _ inside v at_ => by
      have inside : j < N := by omega
      have same := Eng.streams_alongBoth (x := u.eng[e]) (ax := ax) (ay := ay) j
      obtain ⟨atX, _⟩ := Eng.getA_alongBoth (x := u.eng[e]) apart j
      obtain ⟨same', atY, next⟩ := Eng.postMod_alongBoth_first apart ⟨first.words, second.words⟩ j
      obtain ⟨t, elem, only⟩ := streamElem_two at_ (free.streamable.of same) (first.at inside same atX) (free.streamable.of same') (second.at inside same' atY)
      exact ⟨t, elem, by rwa [next] at only⟩
  rw [Nat.zero_add] at ran only
  have sum := macs_fst cj X Y (List.range' 0 N) (u.eng[e].getAcc acc, false)
  rw [← List.range_eq_range'] at ran sum
  generalize (List.range N).foldl (fun a j => macElem cj j (X j).toNat (Y j).toNat a) (u.eng[e].getAcc acc, false) = p at ran sum
  have whole := streamOp_whole (none_ := []) (fin := fun a => [(3, .acc acc a.1)]) (flags := fun a x => x.setFlg (flgStick x.flg 5 a.2)) (keep := fun a x => x.setAcc acc a.1)
    (init := fun x _ => ((x.getAcc acc, false) : Acc × Bool)) (cut := cut) free.uncut free.fresh count.symm short ran
  refine ⟨flgStick u.eng[e].flg 5 p.2, fun k other => flgStick_kept _ _ other, ex.streams run whole ?_ ?_ ?_⟩
  · rw [if_pos some_, ← sum]
    refine banksOnly_retire only ?_
    have flags := (Eng.streams_alongBoth (x := u.eng[e]) (ax := ax) (ay := ay) N).flg
    rw [flags, Eng.alongBoth_after apart some_]
    exact Eng.finish_comm _ _
  · exact (Eng.finish_pc _ _).1.trans ((Eng.streams_goTo ..).trans (Eng.streams_goTo ..)).pc
  · exact (Eng.finish_pc _ _).2.trans ((Eng.streams_goTo ..).trans (Eng.streams_goTo ..)).slot

/-- A search's element: the best so far and its index. -/
def bestElem (mode : Nat) (better : Int → Int → Bool) (j x _ : Nat) (a : Int × Nat) : Int × Nat :=
  if j = 0 then (searchVal mode x, 0) else if better (searchVal mode x) a.1 then (searchVal mode x, j) else a

/-- The value that a search compares (R259). -/
def wordVal (mode : Fin 16) (w : Word) : Int := if mode = 0 then (w.extractLsb' 0 16).toInt ^ 2 + (w.extractLsb' 16 16).toInt ^ 2 else w.toInt

theorem Eng.along_after {x : Eng} {ax : Fin 8} {N : Nat} (some_ : 0 < N) : x.along ax N = x.after ax N := by
  rw [Eng.along, if_neg (Nat.ne_of_gt some_), Eng.after]

/-- What a search writes. -/
def found (rd : Fin 32) (v : Int) (k : Nat) : List (Nat × EngWrite) := [(2, .g rd (BitVec.ofInt 32 v)), (2, .g (Fin.ofNat 32 (rd.val + 1)) (BitVec.ofNat 32 k))]

/-- A search of a legal form is a stream. -/
theorem searchOp_legal {rd : Fin 32} {ax : Fin 8} {rc : Fin 32} {mode : Fin 16} {better : Int → Int → Bool} {cut : Nat} (even : rd.val % 2 = 0) (plain : mode.val ≤ 1) :
    searchOp e rd ax 0 rc mode better cut u = streamOp e ax none rc cut
      (fun x j => ((if j = 0 then (0, 0) else
        ((if mode.val = 0 then ((x.getG rd).toNat : Int) else (x.getG rd).toInt), (x.getG (Fin.ofNat 32 (rd.val + 1))).toNat)) : Int × Nat))
      (bestElem mode.val better) [(2, .g rd 0#32), (2, .g (Fin.ofNat 32 (rd.val + 1)) 0xFFFFFFFF#32)] (fun a => found rd a.1 a.2) (fun _ x => x)
      (fun a x => (x.setG rd (BitVec.ofInt 32 a.1)).setG (Fin.ofNat 32 (rd.val + 1)) (BitVec.ofNat 32 a.2)) u := by
  rw [searchOp, if_neg (by
    rintro (h | h | h)
    · omega
    · exact h rfl
    · omega)]
  rfl

/-- An uninterrupted search gives the first of the best elements, by a key. -/
theorem Executes.searches (ex : Executes e s u) (free : Uncut u e) {rd rc : Fin 32} {ax : Fin 8} {cut N : Nat} {X : Nat → Word} {mode : Fin 16} {key : Int → Int}
    {better : Int → Int → Bool} (means : ∀ v b, better v b = true ↔ key b < key v) {i : Instr} (run : exec i s = .next (engStep e (searchOp e rd ax 0 rc mode better cut) s))
    (count : N = (u.eng[e].getG rc).toNat) (some_ : 0 < N) (short : N < 2 ^ 24) (even : rd.val % 2 = 0) (words : WordsFrom u e ax X N) (plain : mode.val ≤ 1) :
    ∃ k < N, (∀ j < N, key (wordVal mode (X j)) ≤ key (wordVal mode (X k))) ∧ (∀ j < k, key (wordVal mode (X j)) < key (wordVal mode (X k))) ∧
      Gives i s (BanksOnly (retire e (found rd (wordVal mode (X k)) k) (fun x => (x.after ax N).setRsm 0#32) u)) := by
  have start : BanksOnly (u.setEng e (u.eng[e].along ax 0)) u := by
    rw [Eng.along, if_pos rfl, State.setEng_self]
    exact BanksOnly.refl u
  obtain ⟨t, ran, only⟩ := streamRun_all (ax := ax) (o := none) (bestElem mode.val better) (fun j => (X j).toNat) (fun _ => 0) (fun j => u.eng[e].along ax j) N 0 (0, 0) u start
    fun j _ inside v at_ => by
      have inside : j < N := by omega
      have same := Eng.streams_along (x := u.eng[e]) (ax := ax) j
      obtain ⟨t, elem, only⟩ := streamElem_one at_ (free.streamable.of same) (words.at inside same (Eng.getA_along j))
      exact ⟨t, elem, by rwa [Eng.postMod_along words.words j] at only⟩
  rw [Nat.zero_add] at ran only
  obtain ⟨n, rfl⟩ : ∃ n, N = n + 1 := ⟨N - 1, by omega⟩
  obtain ⟨k, inside, best, top, first⟩ := search_best means (fun j => wordVal mode (X j)) n
  have fold : (List.range' 0 (n + 1)).foldl (fun a j => bestElem mode.val better j (X j).toNat 0 a) (0, 0) = (wordVal mode (X k), k) := by
    rw [← best]
    refine congrArg (fun f => (List.range' 0 (n + 1)).foldl f (0, 0)) (funext fun a => funext fun j => ?_)
    rw [bestElem, searchVal_eq, wordVal]
  rw [fold] at ran
  have whole := streamOp_whole (none_ := [(2, .g rd 0#32), (2, .g (Fin.ofNat 32 (rd.val + 1)) 0xFFFFFFFF#32)]) (fin := fun a => found rd a.1 a.2) (flags := fun _ x => x)
    (keep := fun a x => (x.setG rd (BitVec.ofInt 32 a.1)).setG (Fin.ofNat 32 (rd.val + 1)) (BitVec.ofNat 32 a.2))
    (init := fun x j => ((if j = 0 then (0, 0) else
        ((if mode.val = 0 then ((x.getG rd).toNat : Int) else (x.getG rd).toInt), (x.getG (Fin.ofNat 32 (rd.val + 1))).toNat)) : Int × Nat)) (cut := cut) free.uncut free.fresh count.symm short ran
  refine ⟨k, inside, top, first, ex.streams run ((searchOp_legal even plain).trans whole) ?_ ?_ ?_⟩
  · rw [if_pos some_]
    refine banksOnly_retire only ?_
    rw [Eng.along_after some_]
  · exact (Eng.streams_goTo ..).pc
  · exact (Eng.streams_goTo ..).slot

/-- A streaming instruction with a count of 0 performs no element. -/
theorem Executes.idles {α : Type} (ex : Executes e s u) (free : Uncut u e) {ax : Fin 8} {o : Option (Fin 8)} {rc : Fin 32} {cut : Nat} {init : Eng → Nat → α}
    {f : Nat → Nat → Nat → α → α} {none_ : List (Nat × EngWrite)} {fin : α → List (Nat × EngWrite)} {flags keep : α → Eng → Eng} {i : Instr} {act : State → State}
    (run : exec i s = .next (engStep e act s)) (is : act u = streamOp e ax o rc cut init f none_ fin flags keep u) (zero : u.eng[e].getG rc = 0)
    (kept : flags (init u.eng[e] 0) u.eng[e] = u.eng[e]) : exec i s = .next (retire e none_ (fun x => x.setRsm 0#32) u) := by
  have count : (u.eng[e].getG rc).toNat = 0 := by
    rw [zero]
    rfl
  have whole : act u = retire e none_ (fun x => (flags (init u.eng[e] 0) x).setRsm 0#32) u := is.trans (streamOp_whole free.uncut free.fresh count (by decide) rfl)
  rw [run]
  refine congrArg Host.Outcome.next (ex.retires (whole.trans ?_) rfl rfl)
  rw [retire, retire, kept]

end

/-- Settles O54: the accumulating instructions by `Executes.adds`, the streams by `streamRun_all`, whose elements `streamElem_one` and `streamElem_two` read over plain memory. -/
theorem complexArithmetic : Obligations.ComplexArithmetic := by
  unfold Obligations.ComplexArithmetic
  refine ⟨⟨?_, fun A p v low _ _ _ _ => part_setPart A v low⟩, ?_⟩
  · intro e s u ex acc ra rb rd sh part x half aI aQ bI bQ A sat adds even
    have halves (r : Fin 32) : cword (x.getG r) = (half (x.getG r) 0, half (x.getG r) 16) := cword_eq _
    have conjugate : cmul (aI, aQ) (conj (bI, bQ)) = (aI * bI + aQ * bQ, aQ * bI - aI * bQ) := by
      simp only [cmul, conj, Prod.mk.injEq]
      exact ⟨by ring, by ring⟩
    refine ⟨ex.adds acc rfl (by rw [halves, halves]; rfl), ex.adds acc rfl (by rw [halves, halves]; exact conjugate), ex.adds acc rfl (by rw [halves, halves]), ?_, ex.clears acc,
      ex.extracts acc rd sh, ex.extractsReal acc rd sh, fun is => ?_, fun is => ?_, fun is => ?_, ex.setsPart acc ra part⟩
    · rw [ex.multiplies, halves, halves]
      rfl
    · subst is
      rw [ex.readsPart acc rd 0 (by decide)]
      exact congrArg (fun w => Host.Outcome.next (retire e [(2, .g rd w)] id u)) ((part_zero A).trans (ofNat_unsigned40 A.re))
    · subst is
      rw [ex.readsPart acc rd 1 (by decide)]
      exact congrArg (fun w => Host.Outcome.next (retire e [(2, .g rd w)] id u)) ((part_one A).trans (ofNat_unsigned40 A.im))
    · subst is
      rw [ex.readsPart acc rd 2 (by decide)]
      exact congrArg (fun w => Host.Outcome.next (retire e [(2, .g rd w)] id u)) (topBytes A)
  · intro e s u ex physical quiet uncut fresh
    have free : Uncut u e := ⟨⟨physical, quiet⟩, uncut, fresh⟩
    refine ⟨?_, ?_, ?_⟩
    · intro acc ax ay rc rd mode cut zero even plain
      exact ⟨ex.idles free rfl rfl zero (Eng.setFlg_self _), ex.idles free rfl rfl zero (Eng.setFlg_self _), ex.idles free rfl (searchOp_legal even plain) zero rfl,
        ex.idles free rfl (searchOp_legal even plain) zero rfl⟩
    · intro acc ax ay rc cut N X Y count some_ short apart words memory sat half sum go moved
      have first : WordsFrom u e ax X N := by
        obtain ⟨stride, linear, aligned, room⟩ := words ax (.inl rfl)
        exact ⟨aligned, room, ⟨stride, linear⟩, fun j inside => (memory j inside ax (.inl rfl)).1, fun j inside => by simpa using (memory j inside ax (.inl rfl)).2⟩
      have second : WordsFrom u e ay Y N := by
        obtain ⟨stride, linear, aligned, room⟩ := words ay (.inr rfl)
        exact ⟨aligned, room, ⟨stride, linear⟩, fun j inside => (memory j inside ay (.inr rfl)).1, fun j inside => by simpa [apart.symm] using (memory j inside ay (.inr rfl)).2⟩
      have plain := ex.accumulates free (acc := acc) (i := .smac e acc ax ay rc cut) rfl count some_ short apart first second
      have conjugate := ex.accumulates free (acc := acc) (i := .smacc e acc ax ay rc cut) rfl count some_ short apart first second
      simp only [macStep_eq, if_true, Bool.false_eq_true, if_false] at plain conjugate
      exact ⟨plain, conjugate⟩
    · intro rd rc ax cut N X count some_ short even stride linear aligned room memory half val moved ws mode plain
      have words : WordsFrom u e ax X N := ⟨aligned, room, ⟨stride, linear⟩, fun j inside => (memory j inside).1, fun j inside => (memory j inside).2⟩
      refine ⟨ex.searches free (key := id) (fun v b => decide_eq_true_iff) rfl count some_ short even words plain, ?_⟩
      obtain ⟨k, inside, top, first, gives⟩ := ex.searches free (key := Neg.neg) (fun v b => decide_eq_true_iff.trans neg_lt_neg_iff.symm) (i := .smin e rd ax 0 rc mode cut) rfl count some_ short even words plain
      exact ⟨k, inside, fun j small => neg_le_neg_iff.1 (top j small), fun j small => neg_lt_neg_iff.1 (first j small), gives⟩

end Sys2Proof.Machine
end

section
/-!
PROOFS. The timing messages and their rings (R194, R212 to R216); the settlement of O27.
-/

namespace Sys2Proof.Machine

/-! ### Bytes of a ring -/

section
variable {s : State} {g : RingRegs}

/-- A single byte meets no injector and ends no error of a word. -/
theorem State.putLE_byte (s : State) (a b : Nat) : s.putLE a 1 b = { s with mem := memWrite s.mem a (BitVec.ofNat 8 b) } := by
  have short (w : Nat) : (decide (a ≤ w) && decide (w + 8 ≤ a + 1)) = false := by
    rw [Bool.and_eq_false_iff, decide_eq_false_iff_not, decide_eq_false_iff_not]
    omega
  have unarmed : s.injectBits a 1 = none := by
    rw [State.injectBits]
    rw [Bool.and_assoc, short, Bool.and_false, if_neg Bool.false_ne_true]
  have kept : s.ecc.filter (fun e => !(decide (a ≤ e.word) && decide (e.word + 8 ≤ a + 1))) = s.ecc :=
    List.filter_eq_self.2 fun e _ => by rw [short, Bool.not_false]
  rw [State.putLE, unarmed, kept]
  dsimp only
  rw [show List.range 1 = [0] from rfl, List.foldl_cons, List.foldl_nil, Nat.pow_zero, Nat.div_one, Nat.add_zero]

/-- A memory that differs in the ring alone. -/
def RingOnly (s : State) (g : RingRegs) (m : List Host.Cell) : Prop :=
  ∀ b, b < s.get g.base * 4096 ∨ s.get g.base * 4096 + s.ringUnits g * 64 ≤ b → memRead m b = memRead s.mem b

theorem ringUnits_pos (s : State) (g : RingRegs) : 0 < s.ringUnits g := Nat.mul_pos (by decide) (Nat.two_pow_pos _)

theorem ringUnits_le (s : State) (g : RingRegs) : s.ringUnits g ≤ 16384 := by
  have most : 2 ^ min (s.get g.size) 8 ≤ 2 ^ 8 := Nat.pow_le_pow_right (by decide) (Nat.min_le_right ..)
  rw [State.ringUnits]
  omega

/-- A ring's bytes lie in the ring. -/
theorem ringAddr_inside {u i a : Nat} (at_ : s.ringAddr g u i = some a) : s.get g.base * 4096 ≤ a ∧ a < s.get g.base * 4096 + s.ringUnits g * 64 := by
  rw [State.ringAddr] at at_
  split at at_
  · have place := Option.some.inj at_
    have wrap : (u * 64 + i) % (s.ringUnits g * 64) < s.ringUnits g * 64 := Nat.mod_lt _ (Nat.mul_pos (ringUnits_pos s g) (by decide))
    omega
  · exact absurd at_ (by simp)

/-- Bytes written into a ring change the memory of the ring alone. -/
theorem ringPut_eq (g : RingRegs) (u i : Nat) (l : List Nat) (s : State) : ∃ m, ringPut g u i l s = { s with mem := m } ∧ RingOnly s g m := by
  induction l generalizing i s with
  | nil => exact ⟨s.mem, rfl, fun _ _ => rfl⟩
  | cons b l ih =>
    rw [ringPut]
    rcases place : s.ringAddr g u i with _ | a
    · exact ih (i + 1) s
    · obtain ⟨m, put, only⟩ := ih (i + 1) { s with mem := memWrite s.mem a (BitVec.ofNat 8 b) }
      refine ⟨m, ?_, fun c outside => ?_⟩
      · dsimp only
        rw [State.putLE_byte, put]
      · obtain ⟨low, high⟩ := ringAddr_inside place
        exact (only c outside).trans (memRead_write_ne _ _ (by omega))

/-- The position after a record of `len` bytes at unit `u`. -/
def State.ringOn (s : State) (g : RingRegs) (u len : Nat) : Nat := (u + (16 + len + 63) / 64) % s.ringUnits g

theorem ringOn_lt (s : State) (g : RingRegs) (u len : Nat) : s.ringOn g u len < 2 ^ 16 :=
  Nat.lt_of_lt_of_le (Nat.mod_lt _ (ringUnits_pos s g)) (Nat.le_trans (ringUnits_le s g) (by decide))

theorem ringRecord_room {bytes : List Nat} {t : Nat} {stamped : Bool}
    (room : (s.get g.hw % s.ringUnits g + s.ringUnits g - s.get g.sw % s.ringUnits g) % s.ringUnits g + (16 + bytes.length + 63) / 64 < s.ringUnits g) :
    ∃ m, ringRecord g bytes t stamped s = (true, { s with mem := m, regs := rfPut s.regs g.hw (s.ringOn g (s.get g.hw % s.ringUnits g) bytes.length) }) ∧ RingOnly s g m := by
  rw [ringRecord]
  rw [if_pos room]
  obtain ⟨m, put, only⟩ := ringPut_eq g (s.get g.hw % s.ringUnits g) 0
    (leBytes 4 bytes.length ++ stampBytes t stamped ++ bytes ++ List.replicate (64 * ((16 + bytes.length + 63) / 64) - 16 - bytes.length) 0) s
  refine ⟨m, ?_, only⟩
  rw [put, State.put_eq, State.ringOn]

theorem ringRecord_full {bytes : List Nat} {t : Nat} {stamped : Bool}
    (full : s.ringUnits g ≤ (s.get g.hw % s.ringUnits g + s.ringUnits g - s.get g.sw % s.ringUnits g) % s.ringUnits g + (16 + bytes.length + 63) / 64) :
    ringRecord g bytes t stamped s = (false, s) := by
  rw [ringRecord]
  rw [if_neg (Nat.not_lt.2 full)]

theorem ringSent_eq (u len t : Nat) (s : State) : ∃ m, ringSent g u len t s = { s with mem := m, regs := rfPut s.regs g.hw (s.ringOn g u len) } ∧ RingOnly s g m := by
  obtain ⟨m, put, only⟩ := ringPut_eq g u 4 (stampBytes t true) s
  refine ⟨m, ?_, only⟩
  rw [ringSent, put, State.put_eq, State.ringOn]

/-- A write position reads back. -/
theorem ringHw_put (l : RegFile) {f : Field} (fits : f.fits = true) (wide : f.width = 16) (u len : Nat) : rfGet (rfPut l f (s.ringOn g u len)) f = s.ringOn g u len := by
  rw [rfGet_rfPut_self _ _ fits, wide, Nat.mod_eq_of_lt (ringOn_lt s g u len)]

end

/-! ### Messages of flow 0 -/

section
variable {s : State}

/-- A message of a flow leaves the port's inbox. -/
def State.fetched (s : State) (f : Nat) : State := { s with port := { s.port with inbox := dropFlow f s.port.inbox } }

/-- A message in its receive ring, or counted where it finds no room. -/
def ptpKept (bytes : List Nat) (t : Nat) (s : State) : State :=
  if (ringRecord l0Rx bytes (s.stamp 0 t) (ptpEvent bytes) s).1 then (ringRecord l0Rx bytes (s.stamp 0 t) (ptpEvent bytes) s).2 else s.inc (Fld.LNK_CNTn_COUNT.i 7)

theorem exec_ptpMessageRx (bytes : List Nat) (t0 : Nat) : exec (.ptpMessageRx bytes t0) s = .next (ptpKept bytes t0 ((s.at t0).fetched 0)) := rfl

theorem gives_ptp_taken {bytes : List Nat} {t0 : Nat}
    (room : (s.get Fld.TIM_L0RXP_HW % s.ringUnits l0Rx + s.ringUnits l0Rx - s.get Fld.TIM_L0RXP_SW % s.ringUnits l0Rx) % s.ringUnits l0Rx + (16 + bytes.length + 63) / 64 < s.ringUnits l0Rx) :
    Gives (.ptpMessageRx bytes t0) s fun t => t.get Fld.TIM_L0RXP_HW = s.ringOn l0Rx (s.get Fld.TIM_L0RXP_HW % s.ringUnits l0Rx) bytes.length
      ∧ t.now = max s.now t0 ∧ t.eff = s.eff ∧ RingOnly s l0Rx t.mem := by
  obtain ⟨u, is⟩ : ∃ u, (s.at t0).fetched 0 = u := ⟨_, rfl⟩
  have ring : u.get Fld.TIM_L0RXP_HW = s.get Fld.TIM_L0RXP_HW ∧ u.get Fld.TIM_L0RXP_SW = s.get Fld.TIM_L0RXP_SW ∧ u.ringUnits l0Rx = s.ringUnits l0Rx := by
    subst is
    exact ⟨rfl, rfl, rfl⟩
  obtain ⟨hw, sw, units⟩ := ring
  obtain ⟨m, wrote, only⟩ := ringRecord_room (s := u) (g := l0Rx) (bytes := bytes) (t := u.stamp 0 t0) (stamped := ptpEvent bytes) (by
    show (u.get Fld.TIM_L0RXP_HW % _ + _ - u.get Fld.TIM_L0RXP_SW % _) % _ + _ < _
    rw [hw, sw, units]
    exact room)
  have ran := exec_ptpMessageRx (s := s) bytes t0
  rw [is, ptpKept, wrote, if_pos rfl] at ran
  refine Gives.of_eq ran ⟨?_, ?_, ?_, ?_⟩
  · rw [State.get_eq_rfGet]
    refine (ringHw_put _ (by decide) rfl _ _).trans ?_
    show u.ringOn l0Rx (u.get Fld.TIM_L0RXP_HW % _) _ = _
    rw [State.ringOn, State.ringOn, hw, units]
  · subst is
    rfl
  · subst is
    rfl
  · subst is
    exact only

theorem gives_ptp_lost {bytes : List Nat} {t0 : Nat}
    (full : s.ringUnits l0Rx ≤ (s.get Fld.TIM_L0RXP_HW % s.ringUnits l0Rx + s.ringUnits l0Rx - s.get Fld.TIM_L0RXP_SW % s.ringUnits l0Rx) % s.ringUnits l0Rx + (16 + bytes.length + 63) / 64) :
    Gives (.ptpMessageRx bytes t0) s fun t => SameMem s t ∧ t.now = max s.now t0
      ∧ t.get (Fld.LNK_CNTn_COUNT.i 7) = min (s.get (Fld.LNK_CNTn_COUNT.i 7) + 1) (2 ^ Fld.LNK_CNTn_COUNT.width - 1)
      ∧ SameRegs [(Fld.LNK_CNTn_COUNT.i 7).reg] s t := by
  have wrote := ringRecord_full (s := (s.at t0).fetched 0) (g := l0Rx) (t := ((s.at t0).fetched 0).stamp 0 t0) (stamped := ptpEvent bytes) full
  have ran := exec_ptpMessageRx (s := s) bytes t0
  rw [ptpKept, wrote, if_neg Bool.false_ne_true, State.inc_eq] at ran
  refine Gives.of_eq ran ⟨fun _ => rfl, rfl, ?_, ((RfSame.refl _ _).put (f := Fld.LNK_CNTn_COUNT.i 7) (.head _) _).sameRegs⟩
  rw [State.get_eq_rfGet, State.get_eq_rfGet]
  exact (rfGet_rfPut_self _ _ (by decide)).trans (Nat.mod_eq_of_lt (Nat.lt_of_le_of_lt (Nat.min_le_right ..) (by decide)))

/-- The registers of the transmit ring are none that staging on flow 0 writes. -/
theorem l0Tx_unlisted : Fld.TIM_L0TX_BASE.reg ∉ stageRegs 0 ∧ Fld.TIM_L0TXP_HW.reg ∉ stageRegs 0 := by decide

theorem gives_l0Message {u : Nat} {b : List Nat} (up : s.linkUp = true) (waits : ringNext s l0Tx = some (u, b)) :
    Gives .l0MessageTx s fun t => t.get Fld.TIM_L0TXP_HW = s.ringOn l0Tx u b.length ∧ t.now = s.now ∧ t.eff = s.eff ∧ RingOnly s l0Tx t.mem := by
  obtain ⟨v, is⟩ : ∃ v, s.stage 0 (beBytes 4 (0xF0000000 + b.length % 65536) ++ ptpPatch s.egressAt b) = v := ⟨_, rfl⟩
  have ran : exec .l0MessageTx s = .next (ringSent l0Tx u b.length s.egressAt v) := by
    show execL0MessageTx s = _
    rw [← is, execL0MessageTx, up, Bool.not_true, if_neg Bool.false_ne_true, waits]
  have only : NoticeOnly s v := is ▸ noticeOnly_stage _ _ _
  have regs : SameRegs (stageRegs 0) s v := is ▸ (stage_kept s 0 _).2.1
  have base : v.get Fld.TIM_L0TX_BASE = s.get Fld.TIM_L0TX_BASE := regs.get (f := Fld.TIM_L0TX_BASE) l0Tx_unlisted.1
  have units : v.ringUnits l0Tx = s.ringUnits l0Tx := congrArg (fun n => 64 * 2 ^ min n 8) (regs.get (f := Fld.TIM_L0TX_SIZE) l0Tx_unlisted.1)
  obtain ⟨m, sent, ring⟩ := ringSent_eq (g := l0Tx) u b.length s.egressAt v
  rw [sent] at ran
  obtain ⟨_, _, _, _, _, same⟩ := only
  refine Gives.of_eq ran ⟨?_, ?_, ?_, fun c outside => ?_⟩
  · rw [State.get_eq_rfGet]
    refine (ringHw_put _ (by decide) rfl _ _).trans ?_
    rw [State.ringOn, State.ringOn, units]
  · exact (congrArg State.now same).trans rfl
  · exact (congrArg State.eff same).trans rfl
  · refine (ring c ?_).trans ((congrArg (fun x : State => memRead x.mem c) same).trans rfl)
    show c < v.get Fld.TIM_L0TX_BASE * 4096 ∨ v.get Fld.TIM_L0TX_BASE * 4096 + _ ≤ c
    rw [base, units]
    exact outside

/-- What a one-way delay message asks of the part (R194). -/
def owdTaken (id action t : Nat) (s : State) : State :=
  if action = 0 then s.stage 0 (owdBytes id 2 (s.stamp 0 t))
  else if action = 1 then s.setTim { s.tim with owd := aset s.tim.owd id (s.stamp 0 t) }
  else if action = 5 then
    (if s.tim.owd.any (fun p => p.1 == id) then
      State.stage (s.setTim { s.tim with owd := s.tim.owd.filter fun p => p.1 != id }) 0 (owdBytes id 2 (aget s.tim.owd id))
    else s)
  else if action = 3 ∨ action = 4 then s.stage 0 (owdBytes id 0 s.egressAt)
  else s

theorem exec_oneWayDelay {m : Hdr} {t0 : Nat} (id action : Nat) (on : s.get (Fld.LNK_FLOWf_CFG_EN.i m.flow) ≠ 0) (good : s.hdrOk m 5 20 = true) :
    exec (.oneWayDelayMessage m id action t0) s = .next (owdTaken (id % 256) action t0 (((s.at t0).unboxed m).arrive m.flow)) := by
  show execOneWayDelayMessage m id action t0 s = _
  rw [execOneWayDelayMessage]
  exact congrArg Host.Outcome.next (takeMsg_taken (s := s.at t0) (owdTaken (id % 256) action t0) on good (by decide))

/-- An arrival changes the edges that the part holds alone. -/
theorem arrive_eq (u : State) (f : Nat) : ∃ edges, u.arrive f = { u with edges := edges } := by
  rw [State.arrive]
  split
  · exact ⟨_, rfl⟩
  · exact ⟨u.edges, rfl⟩

theorem exec_oneWayDelay_answers {m : Hdr} {t0 : Nat} (id : Nat) (on : s.get (Fld.LNK_FLOWf_CFG_EN.i m.flow) ≠ 0) (good : s.hdrOk m 5 20 = true) :
    exec (.oneWayDelayMessage m id 0 t0) s = .next (State.stage (((s.at t0).unboxed m).arrive m.flow) 0 (owdBytes (id % 256) 2 (s.stamp 0 t0)))
    ∧ exec (.oneWayDelayMessage m id 1 t0) s = .next ((((s.at t0).unboxed m).arrive m.flow).setTim { s.tim with owd := aset s.tim.owd (id % 256) (s.stamp 0 t0) })
    ∧ exec (.oneWayDelayMessage m id 3 t0) s = .next (State.stage (((s.at t0).unboxed m).arrive m.flow) 0 (owdBytes (id % 256) 0 s.egressAt)) := by
  have ran (action : Nat) := exec_oneWayDelay (t0 := t0) id action on good
  obtain ⟨edges, is⟩ := arrive_eq ((s.at t0).unboxed m) m.flow
  rw [is] at ran ⊢
  exact ⟨ran 0, ran 1, ran 3⟩

end

/-! ### Frames of the management port -/

section
variable {s : State}

/-- A good frame without a recognised message: into the ring and counted, or dropped and counted. -/
def frameKept (bytes : List Nat) (t : Nat) (s : State) : State :=
  if (ringRecord mgpRx bytes (s.stamp 1 t) false s).1 then (ringRecord mgpRx bytes (s.stamp 1 t) false s).2.inc (Fld.MGP_CNTn_COUNT.i 0) else s.inc (Fld.MGP_CNTn_COUNT.i 2)

theorem exec_mgpFrameRx_bad {header body crc : List Nat} {t0 : Nat} (on : s.get Fld.MGP_CFG_EN = 1)
    (bad : (header ++ body).length < 60 ∨ 1518 < (header ++ body).length ∨ crc ≠ fcs (header ++ body)) :
    exec (.mgpFrameRx header body crc t0) s = .next ((s.at t0).inc (Fld.MGP_CNTn_COUNT.i 1)) := by
  have fails : (decide ((header ++ body).length < 60) || decide (1518 < (header ++ body).length) || crc != fcs (header ++ body)) = true := by
    rw [Bool.or_eq_true, Bool.or_eq_true, decide_eq_true_iff, decide_eq_true_iff, bne_iff_ne]
    exact or_assoc.2 bad
  show execMgpFrameRx header body crc t0 s = _
  rw [execMgpFrameRx, State.flag_of_get_one on, Bool.not_true, if_neg Bool.false_ne_true]
  refine congrArg Host.Outcome.next ?_
  dsimp only
  rw [if_pos fails]

theorem exec_mgpFrameRx_good {header body : List Nat} {t0 : Nat} (on : s.get Fld.MGP_CFG_EN = 1) (long : 60 ≤ (header ++ body).length) (short : (header ++ body).length ≤ 1518)
    (other : s.ptpOffset (header ++ body) = none) : exec (.mgpFrameRx header body (fcs (header ++ body)) t0) s = .next (frameKept (header ++ body) t0 (s.at t0)) := by
  have passes : ¬(decide ((header ++ body).length < 60) || decide (1518 < (header ++ body).length) || fcs (header ++ body) != fcs (header ++ body)) = true := by
    rw [Bool.or_eq_true, Bool.or_eq_true, decide_eq_true_iff, decide_eq_true_iff, bne_iff_ne]
    rintro ((h | h) | h)
    · omega
    · omega
    · exact h rfl
  have other : (s.at t0).ptpOffset (header ++ body) = none := other
  show execMgpFrameRx header body (fcs (header ++ body)) t0 s = _
  rw [execMgpFrameRx, State.flag_of_get_one on, Bool.not_true, if_neg Bool.false_ne_true]
  refine congrArg Host.Outcome.next ?_
  dsimp only
  rw [if_neg passes, other]
  rfl

theorem gives_frame_taken {header body : List Nat} {t0 : Nat} (on : s.get Fld.MGP_CFG_EN = 1) (long : 60 ≤ (header ++ body).length) (short : (header ++ body).length ≤ 1518)
    (other : s.ptpOffset (header ++ body) = none)
    (room : (s.get Fld.MGP_RXPTR_HW % s.ringUnits mgpRx + s.ringUnits mgpRx - s.get Fld.MGP_RXPTR_SW % s.ringUnits mgpRx) % s.ringUnits mgpRx
      + (16 + (header ++ body).length + 63) / 64 < s.ringUnits mgpRx) :
    Gives (.mgpFrameRx header body (fcs (header ++ body)) t0) s fun t => t.get Fld.MGP_RXPTR_HW = s.ringOn mgpRx (s.get Fld.MGP_RXPTR_HW % s.ringUnits mgpRx) (header ++ body).length
      ∧ t.get (Fld.MGP_CNTn_COUNT.i 0) = min (s.get (Fld.MGP_CNTn_COUNT.i 0) + 1) (2 ^ 32 - 1) ∧ t.now = max s.now t0 ∧ t.eff = s.eff ∧ RingOnly s mgpRx t.mem := by
  obtain ⟨m, wrote, only⟩ := ringRecord_room (s := s.at t0) (g := mgpRx) (t := (s.at t0).stamp 1 t0) (stamped := false) room
  have ran := exec_mgpFrameRx_good (t0 := t0) on long short other
  rw [frameKept, wrote, if_pos rfl, State.inc_eq] at ran
  refine Gives.of_eq ran ⟨?_, ?_, rfl, rfl, only⟩
  · rw [State.get_eq_rfGet]
    exact (rfGet_rfPut_apart _ _ (by decide) (by decide)).trans (ringHw_put _ (by decide) rfl _ _)
  · rw [State.get_eq_rfGet, State.get_eq_rfGet]
    refine (rfGet_rfPut_self _ _ (by decide)).trans ?_
    refine (Nat.mod_eq_of_lt (Nat.lt_of_le_of_lt (Nat.min_le_right ..) (by decide))).trans ?_
    exact congrArg (fun n => min (n + 1) (2 ^ 32 - 1)) (rfGet_rfPut_apart _ _ (by decide) (by decide))

theorem exec_mgpFrameRx_dropped {header body : List Nat} {t0 : Nat} (on : s.get Fld.MGP_CFG_EN = 1) (long : 60 ≤ (header ++ body).length) (short : (header ++ body).length ≤ 1518)
    (other : s.ptpOffset (header ++ body) = none)
    (full : s.ringUnits mgpRx ≤ (s.get Fld.MGP_RXPTR_HW % s.ringUnits mgpRx + s.ringUnits mgpRx - s.get Fld.MGP_RXPTR_SW % s.ringUnits mgpRx) % s.ringUnits mgpRx
      + (16 + (header ++ body).length + 63) / 64) :
    exec (.mgpFrameRx header body (fcs (header ++ body)) t0) s = .next ((s.at t0).inc (Fld.MGP_CNTn_COUNT.i 2)) := by
  have wrote := ringRecord_full (s := s.at t0) (g := mgpRx) (t := (s.at t0).stamp 1 t0) (stamped := false) full
  have ran := exec_mgpFrameRx_good (t0 := t0) on long short other
  rwa [frameKept, wrote, if_neg Bool.false_ne_true] at ran

/-- A frame as it leaves: a recognised message with its egress instant. -/
def State.sentFrame (s : State) (t : Nat) (b : List Nat) : List Nat :=
  match (s.at t).ptpOffset b with
  | some o => b.take o ++ ptpPatch t (b.drop o)
  | none => b

theorem gives_frame_sent {u t0 : Nat} {b : List Nat} (on : s.get Fld.MGP_CFG_EN = 1) (link : s.get Fld.MGP_STAT_LINK = 1) (waits : ringNext s mgpTx = some (u, b)) :
    Gives (.mgpFrameTx t0) s fun t => t.get Fld.MGP_TXPTR_HW = s.ringOn mgpTx u b.length ∧ t.now = max s.now t0 ∧ t.eff = s.eff
      ∧ t.get (Fld.MGP_CNTn_COUNT.i 3) = min (s.get (Fld.MGP_CNTn_COUNT.i 3) + 1) (2 ^ 32 - 1) ∧ (∃ f, t.out = .frame f :: s.out) ∧ RingOnly s mgpTx t.mem := by
  obtain ⟨f, ran⟩ : ∃ f, exec (.mgpFrameTx t0) s = .next (ringSent mgpTx u b.length t0 (((s.at t0).emit (.frame f)).inc (Fld.MGP_CNTn_COUNT.i 3))) := by
    refine ⟨s.sentFrame t0 b ++ fcs (s.sentFrame t0 b), ?_⟩
    show execMgpFrameTx t0 s = _
    rw [execMgpFrameTx, State.flag_of_get_one on, State.flag_of_get_one link, Bool.and_self, if_pos rfl, waits] <;> rfl
  obtain ⟨v, is⟩ : ∃ v, ((s.at t0).emit (.frame f)).inc (Fld.MGP_CNTn_COUNT.i 3) = v := ⟨_, rfl⟩
  have counted : rfGet v.regs (Fld.MGP_CNTn_COUNT.i 3) = min (s.get (Fld.MGP_CNTn_COUNT.i 3) + 1) (2 ^ 32 - 1) := by
    rw [← is, State.inc_eq]
    refine (rfGet_rfPut_self _ _ (by decide)).trans (Nat.mod_eq_of_lt (Nat.lt_of_le_of_lt (Nat.min_le_right ..) (by decide)))
  have same {g : Field} (apart : (Fld.MGP_CNTn_COUNT.i 3).apart g = true) : v.get g = s.get g := by
    rw [← is, State.inc_eq]
    exact (State.get_eq_rfGet _ _).trans ((rfGet_rfPut_apart _ _ (by decide) apart).trans (State.get_eq_rfGet s g).symm)
  have units : v.ringUnits mgpTx = s.ringUnits mgpTx := congrArg (fun n => 64 * 2 ^ min n 8) (same (g := Fld.MGP_TXRING_SIZE) (by decide))
  have base : v.get Fld.MGP_TXRING_BASE = s.get Fld.MGP_TXRING_BASE := same (by decide)
  have frame : v.now = max s.now t0 ∧ v.eff = s.eff ∧ v.out = .frame f :: s.out ∧ v.mem = s.mem := by
    rw [← is, State.inc_eq]
    exact ⟨rfl, rfl, rfl, rfl⟩
  obtain ⟨now, eff, out, mem⟩ := frame
  rw [is] at ran
  obtain ⟨m, sent, ring⟩ := ringSent_eq (g := mgpTx) u b.length t0 v
  rw [sent] at ran
  refine Gives.of_eq ran ⟨?_, now, eff, ?_, ⟨f, out⟩, fun c outside => ?_⟩
  · rw [State.get_eq_rfGet]
    refine (ringHw_put _ (by decide) rfl _ _).trans ?_
    rw [State.ringOn, State.ringOn, units]
  · rw [State.get_eq_rfGet]
    exact (rfGet_rfPut_apart _ _ (by decide) (by decide)).trans counted
  · refine (ring c ?_).trans (congrArg (fun x => memRead x c) mem)
    show c < v.get Fld.MGP_TXRING_BASE * 4096 ∨ v.get Fld.MGP_TXRING_BASE * 4096 + _ ≤ c
    rw [base, units]
    exact outside

end

/-- Settles O27: each message by its own lemma; what a ring's bytes leave alone is `ringPut_eq`. -/
theorem timingMessages : Obligations.TimingMessages := by
  unfold Obligations.TimingMessages
  exact ⟨fun s bytes t0 => ⟨gives_ptp_taken, gives_ptp_lost⟩, fun s u b up waits => gives_l0Message up waits, fun s m id t0 on good => exec_oneWayDelay_answers id on good,
    fun s header body crc t0 on bad => exec_mgpFrameRx_bad on bad,
    fun s header body t0 on long short other => ⟨gives_frame_taken on long short other, exec_mgpFrameRx_dropped on long short other⟩,
    fun s u t0 b on link waits => gives_frame_sent on link waits⟩

end Sys2Proof.Machine
end

section
/-!
PROOFS. Downlink data and its deadline (R89 to R91, R192); the settlement of O15.
-/

namespace Sys2Proof.Machine

/-! ### What forming a symbol leaves of the downlink store -/

/-- The data held, the settings in force and device time stand. -/
structure DataKept (s t : State) : Prop where
  cells : t.dl.cells = s.dl.cells
  eff : t.eff = s.eff
  now : t.now = s.now

/-- The data held stands, and so do the stores where no word of them has an error. -/
structure FormKept (s t : State) : Prop where
  data : DataKept s t
  clean : s.ecc = [] → t.mem = s.mem ∧ t.ecc = []

section
variable {s t u : State}

theorem DataKept.refl (s : State) : DataKept s s := ⟨rfl, rfl, rfl⟩

theorem DataKept.trans (first : DataKept s t) (second : DataKept t u) : DataKept s u :=
  ⟨second.cells.trans first.cells, second.eff.trans first.eff, second.now.trans first.now⟩

theorem DataKept.foldl {β : Type} {f : State → β → State} (each : ∀ t b, DataKept t (f t b)) (l : List β) (s : State) : DataKept s (l.foldl f s) := by
  induction l generalizing s with
  | nil => exact .refl s
  | cons b l ih => exact (each s b).trans (ih _)

theorem DataKept.of_faultOnly (same : FaultOnly s t) : DataKept s t := by
  obtain ⟨_, _, _, _, _, _, _, _, _, _, _, _, _, _, rfl⟩ := same
  exact ⟨rfl, rfl, rfl⟩

theorem DataKept.put (same : DataKept s t) (f : Field) (v : Nat) : DataKept s (t.put f v) := same.trans (.of_faultOnly ((FaultOnly.refl t).put f v))

theorem DataKept.ite (c : Prop) [Decidable c] (yes : DataKept s t) (no : DataKept s u) : DataKept s (if c then t else u) := by
  split
  · exact yes
  · exact no

theorem FormKept.refl (s : State) : FormKept s s := ⟨.refl s, fun clean => ⟨rfl, clean⟩⟩

theorem FormKept.trans (first : FormKept s t) (second : FormKept t u) : FormKept s u := by
  refine ⟨first.data.trans second.data, fun clean => ?_⟩
  obtain ⟨mem, ecc⟩ := first.clean clean
  obtain ⟨mem', ecc'⟩ := second.clean ecc
  exact ⟨mem'.trans mem, ecc'⟩

theorem FormKept.foldl {β : Type} {f : State → β → State} (each : ∀ t b, FormKept t (f t b)) (l : List β) (s : State) : FormKept s (l.foldl f s) := by
  induction l generalizing s with
  | nil => exact .refl s
  | cons b l ih => exact (each s b).trans (ih _)

theorem FormKept.of_faultOnly (same : FaultOnly s t) : FormKept s t := by
  refine ⟨.of_faultOnly same, fun clean => ?_⟩
  obtain ⟨_, _, _, _, _, _, _, _, _, _, _, _, _, _, rfl⟩ := same
  exact ⟨rfl, clean⟩

theorem FormKept.put (same : FormKept s t) (f : Field) (v : Nat) : FormKept s (t.put f v) := same.trans (.of_faultOnly ((FaultOnly.refl t).put f v))

theorem FormKept.raise (same : FormKept s t) (num elem info : Nat) : FormKept s (t.raise num elem info) :=
  same.trans (.of_faultOnly ((FaultOnly.refl t).raise num elem info))

theorem FormKept.ite (c : Prop) [Decidable c] (yes : FormKept s t) (no : FormKept s u) : FormKept s (if c then t else u) := by
  split
  · exact yes
  · exact no

end

/-! ### Reads of a store -/

theorem dataKept_captureErr (s : State) (k : Nat) (ue : Bool) (req cls : Nat) (fetch : Bool) (e : EccErr) : DataKept s (s.captureErr k ue req cls fetch e) := by
  unfold State.captureErr
  extract_lets valid addr info written
  have plain : FaultOnly s written := .of_noticeOnly (((NoticeOnly.refl s).wr _ _).wr _ _)
  exact .ite _ (.refl s) (.ite _ (.of_faultOnly (plain.raise _ _ _)) (.of_faultOnly plain))

theorem dataKept_candidate (s : State) (k : Nat) (r : Nat × Nat) : DataKept s (s.candidate k r) := .ite _ (.refl s) ⟨rfl, rfl, rfl⟩

theorem dataKept_noteSingle (s : State) (k : Nat) (r : Nat × Nat) : DataKept s (s.noteSingle k r) := by
  have moved (x : Sto) : DataKept s (s.setSto k x) := ⟨rfl, rfl, rfl⟩
  unfold State.noteSingle
  extract_lets x key
  split
  · exact .ite _ (.refl s) ((moved _).trans (dataKept_candidate _ k r))
  · exact .ite _ (moved _) ((moved _).put _ _)

theorem dataKept_putLE (s : State) (a n v : Nat) : DataKept s (s.putLE a n v) := by
  have rest := (storeWrite_putLE s a n v).rest
  rw [rest]
  exact ⟨rfl, rfl, rfl⟩

theorem dataKept_readErr (s : State) (req : Nat) (fetch : Bool) (e : EccErr) : DataKept s (s.readErr req fetch e) := by
  unfold State.readErr
  extract_lets k r fixed
  have mended (t : State) : DataKept t (fixed t) := by
    refine .ite _ ⟨rfl, rfl, rfl⟩ (DataKept.trans ?_ (dataKept_putLE ..))
    exact ⟨rfl, rfl, rfl⟩
  split
  · exact .refl s
  · exact (((mended s).put _ _).trans (dataKept_captureErr ..)).trans (dataKept_noteSingle ..)
  · exact (((mended s).put _ _).trans (dataKept_captureErr ..)).trans (dataKept_candidate ..)
  · exact ((DataKept.refl s).put _ _).trans (dataKept_captureErr ..)
  · exact ((DataKept.refl s).put _ _).trans (dataKept_captureErr ..)

theorem formKept_banksOnly {s t : State} (only : BanksOnly s t) : FormKept s t :=
  ⟨⟨only.eq_field (fun t => t.dl.cells) fun _ _ => rfl, only.eq_field State.eff fun _ _ => rfl, only.eq_field State.now fun _ _ => rfl⟩,
    fun clean => ⟨only.eq_field State.mem fun _ _ => rfl, (only.eq_field State.ecc fun _ _ => rfl).trans clean⟩⟩

theorem formKept_checkRead (s : State) (req : Nat) (fetch : Bool) (a n : Nat) : FormKept s (s.checkRead req fetch a n).1 := by
  have reached := formKept_banksOnly (banksOnly_access s req fetch a n true)
  rw [State.checkRead]
  refine reached.trans ⟨.foldl (fun t e => dataKept_readErr t req fetch e) _ _, fun clean => ?_⟩
  rw [State.errsIn, clean]
  exact ⟨rfl, clean⟩

/-! ### Counts of a symbol -/

theorem faultOnly_ite {s t u : State} (c : Prop) [Decidable c] (yes : FaultOnly s t) (no : FaultOnly s u) : FaultOnly s (if c then t else u) := by
  split
  · exact yes
  · exact no

theorem formKept_txSaturated (h : Fin 8) (k stage n : Nat) (s : State) : FormKept s (txSaturated h k stage n s) := by
  unfold txSaturated
  exact .ite _ (.refl s) (.ite _ (.raise (.put (.put (.put (.refl s) _ _) _ _) _ _) _ _ _) (.put (.put (.put (.refl s) _ _) _ _) _ _))

/-- The books of the symbols alone change. -/
theorem formKept_syms (s : State) (l : List TxSymbol) : FormKept s { s with dl := { s.dl with syms := l } } := ⟨⟨rfl, rfl, rfl⟩, fun clean => ⟨rfl, clean⟩⟩

theorem formKept_countSymbols (s : State) : FormKept s (countSymbols s) := by
  unfold countSymbols
  exact (formKept_syms s _).trans (.foldl (fun t x => (FormKept.foldl (fun t _ => formKept_txSaturated ..) _ t).trans (.foldl (fun t _ => formKept_txSaturated ..) _ _)) _ _)

theorem formKept_txRun (s : State) : FormKept s s.txRun := by
  have done : FormKept s { s with dl := { s.dl with done := max s.dl.done s.now } } := ⟨⟨rfl, rfl, rfl⟩, fun clean => ⟨rfl, clean⟩⟩
  have counted := done.trans (formKept_countSymbols _)
  refine .ite _ counted (counted.trans (.foldl (fun t h => .foldl (fun t k => ?_) _ t) _ _))
  exact .put (.foldl (fun t _ => formKept_txSaturated ..) _ _) _ _

theorem formKept_noteWeights (hs : List (Fin 8)) (ds : List (Desc × Nat)) (num : Nat) (y : SymId) (air : Nat) (s : State) : FormKept s (noteWeights hs ds num y air s) :=
  .put (.foldl (fun t a => formKept_checkRead t 18 false a 32) _ _) _ _

/-- The descriptors alone change. -/
theorem formKept_rtc (s : State) (x : Rtc) : FormKept s { s with rtc := x } := ⟨⟨rfl, rfl, rfl⟩, fun clean => ⟨rfl, clean⟩⟩

theorem formKept_wrongDir (car dir : Nat) (y : SymId) (air : Nat) (s : State) : FormKept s (wrongDir car dir y air s) := by
  unfold wrongDir
  have counted := (FormKept.refl s).put (Fld.LNK_RTC_CNTn_COUNT.i 2)
  exact (counted _).trans (formKept_rtc _ _)

theorem formKept_formSymbol (car : Nat) (c : Car) (y : SymId) (air t1 : Nat) (cells : List (DlCell × Desc)) (s : State) : FormKept s (formSymbol car c y air t1 cells s) := by
  unfold formSymbol
  extract_lets n hs dry ys frozen noted bad field ncp rate sym
  clear_value sym field rate ncp
  have noted_ : FormKept s noted := .ite _ (.put (.refl s) _ _) (formKept_noteWeights ..)
  clear_value noted
  have bad_ : FormKept s bad := noted_.put (Fld.LNK_RTC_CNTn_COUNT.i 6) _
  exact bad_.trans (formKept_syms bad _)

/-! ### The deadline -/

/-- What becomes of a symbol once its data has left the store. -/
def dlFormed (car : Nat) (c : Car) (y : SymId) (air t1 top : Nat) (mine : List DlCell) (s : State) : State :=
  if !s.isDownlink air t1 then wrongDir car 0 y air (s.add (Fld.LNK_DL_CNTn_COUNT.i 4) mine.length)
  else
    let missing := (top + 1) * c.nrb - (mine.filter fun d => d.layer ≤ top).length
    let late := s.get Fld.LNK_DL_STAT_LATE
    let s := s.add (Fld.LNK_DL_CNTn_COUNT.i 0) missing
    let s := if missing = 0 ∨ bitOf late car then s
      else let s := s.setBit Fld.LNK_DL_STAT_LATE car
        s.raise 0x418 0xFF (s.rd Reg.LNK_DL_STAT).toNat
    let gov := mine.map fun d => (d, s.governing car 0 d.layer y air d.prb)
    let s := s.add (Fld.LNK_RTC_CNTn_COUNT.i 3) (gov.filter fun x => x.2.isNone).length
    let cells : List (DlCell × Desc) := gov.filterMap fun x => match x.2 with | some d => some (x.1, d) | none => none
    formSymbol car c y air t1 cells s

theorem formKept_dlFormed (car : Nat) (c : Car) (y : SymId) (air t1 top : Nat) (mine : List DlCell) (s : State) : FormKept s (dlFormed car c y air t1 top mine s) := by
  unfold dlFormed
  refine .ite _ (((FormKept.refl s).put _ _).trans (formKept_wrongDir ..)) ?_
  extract_lets missing late counted flagged noticed gov bare cells
  clear_value cells
  have counted_ : FormKept s counted := (FormKept.refl s).put _ _
  have noticed_ : FormKept s noticed := .ite _ counted_ (.raise (.put counted_ Fld.LNK_DL_STAT_LATE _ : FormKept s flagged) _ _ _)
  have bare_ : FormKept s bare := noticed_.put _ _
  exact bare_.trans (formKept_formSymbol ..)

/-- A symbol's data leaves the store. -/
def State.dropSym (s : State) (car : Nat) (y : SymId) : State := { s with dl := { s.dl with cells := s.dl.cells.filter fun d => !(d.car == car && d.sym == y) } }

theorem dlDeadline_eq (car : Nat) (y : SymId) (s : State) : ∃ top mine, dlDeadline car y s =
    dlFormed car (s.car car) y (s.airStart (s.car car) y) (s.airStart (s.car car) y + (s.car car).symLen y) top mine
      (((s.at (s.airStart (s.car car) y - s.tDlOf car)).txRun).dropSym car y) := ⟨_, _, rfl⟩

theorem gives_dlDeadline {s : State} {car : Fin 8} {y : SymId} (defined : s.carDefined car 0 = true) :
    Gives (.dlDataDeadline car y.slotId y.sym) s fun t => t.dl.cells = (s.dl.cells.filter fun d => !(d.car == car.val && d.sym == y))
      ∧ t.now = max s.now (s.airStart (s.car car) y - s.tDlOf car) ∧ (s.ecc = [] → t.mem = s.mem) ∧ t.eff = s.eff := by
  have ran : exec (.dlDataDeadline car y.slotId y.sym) s = .next (dlDeadline car y s) := by
    show execDlDataDeadline car y.slotId y.sym s = _
    rw [execDlDataDeadline, if_pos defined]
    rfl
  obtain ⟨top, mine, is⟩ := dlDeadline_eq car y s
  rw [is] at ran
  have run := formKept_txRun (s.at (s.airStart (s.car car) y - s.tDlOf car))
  generalize (s.at (s.airStart (s.car car) y - s.tDlOf car)).txRun = u at run ran
  have formed := formKept_dlFormed car (s.car car) y (s.airStart (s.car car) y) (s.airStart (s.car car) y + (s.car car).symLen y) top mine (u.dropSym car y)
  refine Gives.of_eq ran ⟨?_, ?_, fun clean => ?_, ?_⟩
  · rw [formed.data.cells, State.dropSym, run.data.cells]
    rfl
  · exact formed.data.now.trans run.data.now
  · obtain ⟨mem, ecc⟩ := run.clean clean
    exact (formed.clean ecc).1.trans mem
  · exact formed.data.eff.trans run.data.eff

/-! ### A message -/

/-- PRBs in place of what was held for them. -/
def State.hold (s : State) (cells : List DlCell) : State :=
  { s with dl := { s.dl with
    cells := (s.dl.cells.filter fun d => !cells.any fun e => d.car == e.car && d.layer == e.layer && d.sym == e.sym && d.prb == e.prb) ++ cells } }

theorem mem_hold (s : State) (cells : List DlCell) (d : DlCell) : d ∈ (s.hold cells).dl.cells ↔
    d ∈ cells ∨ d ∈ s.dl.cells ∧ ∀ e ∈ cells, ¬(d.car = e.car ∧ d.layer = e.layer ∧ d.sym = e.sym ∧ d.prb = e.prb) := by
  rw [State.hold]
  simp only [List.mem_append, List.mem_filter, Bool.not_eq_true', List.any_eq_false, Bool.and_eq_true, beq_iff_eq, and_assoc]
  exact or_comm

theorem dlIqMessage_held {ws : List Word} {s : State} (fate : dlFate s ws = 0) : dlIqMessage ws s = s.hold (dlCells s ws) := by
  unfold dlIqMessage
  rw [fate]
  rfl

theorem takeSeq_kept (s : State) (m : Hdr) : ∃ regs port, s.takeSeq m = { s with regs := regs, port := port } := by
  rw [State.takeSeq]
  split
  · rw [State.inc_eq]
    exact ⟨_, _, rfl⟩
  · exact ⟨s.regs, _, rfl⟩

theorem takeMsg_data {s : State} {m : Hdr} {n : Nat} (act : State → State) (on : s.get (Fld.LNK_FLOWf_CFG_EN.i m.flow) ≠ 0) (good : s.hdrOk m 0 n = true) :
    takeMsg m 0 n act s = act (((s.unboxed m).takeSeq m).arrive m.flow) := by
  have bit : s.get (Fld.LNK_FLOWf_CFG_EN.i m.flow) < 2 ^ 1 := s.get_lt (Fld.LNK_FLOWf_CFG_EN.i m.flow)
  have one : s.get (Fld.LNK_FLOWf_CFG_EN.i m.flow) = 1 := by omega
  rw [takeMsg, ← State.unboxed]
  rw [show (s.unboxed m).flag (Fld.LNK_FLOWf_CFG_EN.i m.flow) = true from State.flag_of_get_one one, show (s.unboxed m).hdrOk m 0 n = true from good,
    if_neg (by decide), if_neg (by decide)]
  rfl

/-- Settles O15: a message that no cause discards is `State.hold`; the deadline forms a symbol, which leaves the store as `FormKept` says. -/
theorem downlinkData : Obligations.DownlinkData := by
  refine ⟨fun s m ws t0 on good fate => ?_, fun s car y defined => gives_dlDeadline defined⟩
  have ran : exec (.dlIqMessage m ws t0) s = .next (dlIqMessage ws ((((s.at t0).unboxed m).takeSeq m).arrive m.flow)) := by
    show execDlIqMessage m ws t0 s = _
    rw [execDlIqMessage]
    exact congrArg Host.Outcome.next (takeMsg_data (s := s.at t0) _ on good)
  obtain ⟨u, is⟩ : ∃ u, (((s.at t0).unboxed m).takeSeq m).arrive m.flow = u := ⟨_, rfl⟩
  have fate : dlFate u ws = 0 := is ▸ fate
  have frame : u.dl = s.dl ∧ u.mem = s.mem ∧ u.eff = s.eff ∧ u.now = max s.now t0 := by
    obtain ⟨regs, port, seq⟩ := takeSeq_kept ((s.at t0).unboxed m) m
    obtain ⟨edges, came⟩ := arrive_eq (((s.at t0).unboxed m).takeSeq m) m.flow
    rw [← is, came, seq]
    exact ⟨rfl, rfl, rfl, rfl⟩
  obtain ⟨dl, mem, eff, now⟩ := frame
  have same : dlCells u ws = dlCells s ws := by
    rw [dlCells, dlCells]
    simp only [State.eget, State.erd, eff]
  rw [is, dlIqMessage_held fate, same] at ran
  have held (d : DlCell) := mem_hold u (dlCells s ws) d
  rw [dl] at held
  exact Gives.of_eq ran ⟨fun d listed => (held d).2 (.inl listed), held, mem, eff, now⟩

end Sys2Proof.Machine
end

section
/-!
PROOFS. Writes that start a training: a register with a locked field (R45), EN and RETRAIN of the link (R174, R206).
-/

namespace Sys2Proof

/-- The register's fields that a lock leaves open. -/
def RegDesc.unlocked (d : RegDesc) : RegDesc := { d with fields := d.fields.filter fun f => f.acc != .rwl }

end Sys2Proof

namespace Sys2Proof.Machine

/-! ### A register with a locked field -/

theorem wordWrite_true (d : RegDesc) (new old : Word) : wordWrite true d new old = wordWrite false d.unlocked new old := by
  rw [wordWrite, wordWrite, RegDesc.unlocked, List.foldl_filter]
  refine congrArg (fun f => d.fields.foldl f old) (funext fun w => funext fun f => ?_)
  by_cases guarded : f.acc = .rwl
  · have stays (l : List Nat) : l.foldl (fun w j => fieldWrite true (f.sub j) new w) w = w := by
      induction l with
      | nil => rfl
      | cons j l ih =>
        rw [List.foldl_cons, fieldWrite, show (f.sub j).acc = .rwl from guarded]
        exact ih
    rw [stays, if_neg (by rw [guarded]; decide)]
  · rw [if_pos (bne_iff_ne.2 guarded)]
    exact congrArg (fun g => (List.range f.cnt).foldl g w) (funext fun w => funext fun j => fieldWrite_locked (p := f.sub j) guarded true new w)

section
variable {s : State} {a : Nat} {d : RegDesc}

/-- A write of a register, its fields open or not: the word it stores, on a state that a refusal can have changed. -/
theorem State.storeReg_eq (desc : descOf a = some d) (quiet : raiseTouches a = false) (other : a ∉ [Reg.SYS_BADACC_CNT, Reg.SYS_BADACC_ADDR, Reg.SYS_BADACC_INFO]) (r : Req) (v : Word) :
    ∃ t e, NoticeOnly s t ∧ (e = d ∨ e = d.unlocked) ∧ s.storeReg r a v = t.wr a (wordWrite false e v (s.rd a)) := by
  have refused (c : Prop) [Decidable c] : NoticeOnly s (if c then s.badAccess r a 2 true 4 else s) ∧ (if c then s.badAccess r a 2 true 4 else s).rd a = s.rd a := by
    split
    · exact ⟨noticeOnly_badAccess .., State.rd_badAccess _ _ _ _ _ _ quiet other⟩
    · exact ⟨.refl s, rfl⟩
  rw [State.storeReg, desc]
  dsimp only
  obtain ⟨only, word⟩ := refused ((s.locked a && lockRefused d) = true)
  rw [word]
  generalize (if (s.locked a && lockRefused d) = true then s.badAccess r a 2 true 4 else s) = t at only
  cases s.locked a
  · exact ⟨t, d, only, .inl rfl, rfl⟩
  · exact ⟨t, d.unlocked, only, .inr rfl, by rw [wordWrite_true]⟩

end

/-! ### The link's control register -/

/-- LNK_CTRL (R174, R206). -/
def lnkCtrlDesc : RegDesc :=
  ⟨Reg.LNK_CTRL, [], [Fld.LNK_CTRL_RRST, Fld.LNK_CTRL_REPLAY_TO, Fld.LNK_CTRL_PWRREQ, Fld.LNK_CTRL_PREC_ALLOW, Fld.LNK_CTRL_RETRAIN, Fld.LNK_CTRL_EN]⟩

theorem descOf_lnkCtrl : descOf Reg.LNK_CTRL = some lnkCtrlDesc := by decide +kernel

section
variable {s : State} (r : Req) (v : Word)

/-- The control register as it stands once a write has stored its word. -/
theorem lnkCtrl_stored (s : State) : NoticeOnly s (s.storeReg r Reg.LNK_CTRL v) ∧ (s.storeReg r Reg.LNK_CTRL v).get Fld.LNK_CTRL_EN = getBits Fld.LNK_CTRL_EN v
    ∧ (getBits Fld.LNK_CTRL_RETRAIN v = 1 → (s.storeReg r Reg.LNK_CTRL v).get Fld.LNK_CTRL_RETRAIN = 1) := by
  obtain ⟨t, e, only, form, is⟩ := State.storeReg_eq (s := s) descOf_lnkCtrl (by decide) (by decide) r v
  have clean : e.clean Fld.LNK_CTRL_EN = true ∧ e.has Fld.LNK_CTRL_EN = true ∧ e.cleanSet Fld.LNK_CTRL_RETRAIN = true ∧ e.hasSet Fld.LNK_CTRL_RETRAIN = true := by
    rcases form with rfl | rfl <;> decide
  obtain ⟨enClean, enHas, setClean, setHas⟩ := clean
  have reads {f : Field} (at_ : f.reg = Reg.LNK_CTRL) : (t.wr Reg.LNK_CTRL (wordWrite false e v (s.rd Reg.LNK_CTRL))).get f = getBits f (wordWrite false e v (s.rd Reg.LNK_CTRL)) := by
    rw [State.get_eq_rfGet, State.wr_regs, rfGet_rfWrite_same _ _ at_]
  rw [is]
  refine ⟨only.wr _ _, ?_, fun one => ?_⟩
  · rw [reads rfl, getBits_wordWrite_plain enClean enHas]
  · rw [reads rfl, getBits_wordWrite_set setClean setHas one]

/-- While the link trains, a power state is asked for by nothing (R206). -/
theorem powerRequest_training {t : State} (training : t.get Fld.LNK_STAT_STATE = 1) : powerRequest t = t := by
  rw [powerRequest, training]
  dsimp only
  rw [if_neg (fun h => absurd h.2 (by decide)), if_neg (fun h => h.2.elim (fun e => absurd e (by decide)) fun e => absurd e (by decide)),
    if_neg (fun h => absurd h.2 (by decide)), if_neg (fun h => absurd h.2 (by decide))]

/-- A training of both directions has begun. -/
structure Trains (s t : State) : Prop where
  state : t.get Fld.LNK_STAT_STATE = 1
  tx : t.lnk.tx.up = false
  rx : t.lnk.rx.up = false
  only : TrainOnly s t

theorem trains_startTraining (s : State) : Trains s (startTraining true true s) := by
  obtain ⟨state, tx, rx, _⟩ := startTraining_link true true s
  exact ⟨state, tx, rx, trainOnly_startTraining true true⟩

theorem trains_retrain (s : State) : Trains s (retrain true true s) := by
  have started := trains_startTraining s
  have same := linkSame_laneReport (s := startTraining true true s)
  have lnk := same.2.2
  refine ⟨(same.get (.inl rfl)).trans started.state, ?_, ?_, trainOnly_retrain true true⟩
  · rw [retrain, lnk, started.tx]
  · rw [retrain, lnk, started.rx]

theorem lnkCtrlWrite_trains {t : State} (on : getBits Fld.LNK_CTRL_EN v = 1)
    (begins : getBits Fld.LNK_CTRL_EN (s.rd Reg.LNK_CTRL) = 0 ∧ t = startTraining true true (s.storeReg r Reg.LNK_CTRL v)
      ∨ getBits Fld.LNK_CTRL_EN (s.rd Reg.LNK_CTRL) = 1 ∧ getBits Fld.LNK_CTRL_RETRAIN v = 1 ∧ t = retrain true true (s.storeReg r Reg.LNK_CTRL v)) :
    lnkCtrlWrite r v s = t ∧ Trains (s.storeReg r Reg.LNK_CTRL v) t := by
  obtain ⟨_, en, set_⟩ := lnkCtrl_stored r v s
  rw [lnkCtrlWrite]
  rw [State.flag_of_get_one (en.trans on), Bool.not_true, if_neg Bool.false_ne_true, Bool.true_and]
  generalize s.storeReg r Reg.LNK_CTRL v = u at begins set_
  have trains : Trains u t := by
    rcases begins with ⟨_, is⟩ | ⟨_, _, is⟩
    · exact is ▸ trains_startTraining u
    · exact is ▸ trains_retrain u
  have begun : (if getBits Fld.LNK_CTRL_EN (s.rd Reg.LNK_CTRL) = 0 then startTraining true true u else if u.flag Fld.LNK_CTRL_RETRAIN = true then retrain true true u else u) = t := by
    rcases begins with ⟨off, is⟩ | ⟨was, asked, is⟩
    · rw [if_pos off, is]
    · rw [if_neg (by rw [was]; decide), if_pos (State.flag_of_get_one (set_ asked)), is]
  rw [begun, powerRequest_training trains.state, ite_self]
  exact ⟨rfl, trains⟩

theorem Trains.frame {u t : State} (trains : Trains u t) : t.mem = u.mem ∧ t.eff = u.eff ∧ t.now = u.now := by
  have is := trains.only.eq
  rw [is]
  exact ⟨rfl, rfl, rfl⟩

theorem gives_trains {c : Instr} {t u : State} (ran : exec c s = .next t) (stored : NoticeOnly s.ok u) (trains : Trains u t) :
    Gives c s fun t => t.get Fld.LNK_STAT_STATE = 1 ∧ t.lnk.tx.up = false ∧ t.lnk.rx.up = false ∧ t.mem = s.mem ∧ t.eff = s.eff := by
  obtain ⟨mem, eff, _⟩ := trains.frame
  have is := stored.eq
  have kept : u.mem = s.mem ∧ u.eff = s.eff := by
    rw [is]
    exact ⟨rfl, rfl⟩
  exact Gives.of_eq ran ⟨trains.state, trains.tx, trains.rx, mem.trans kept.1, eff.trans kept.2⟩

theorem gives_linkEnable (taken : Takes s r Reg.LNK_CTRL) (on : getBits Fld.LNK_CTRL_EN v = 1) (off : s.get Fld.LNK_CTRL_EN = 0) :
    Gives (.linkEnable r v) s fun t => t.get Fld.LNK_STAT_STATE = 1 ∧ t.lnk.tx.up = false ∧ t.lnk.rx.up = false ∧ t.mem = s.mem ∧ t.eff = s.eff := by
  obtain ⟨is, trains⟩ := lnkCtrlWrite_trains (s := s.ok) r v on (.inl ⟨off, rfl⟩)
  have ran : exec (.linkEnable r v) s = .next (startTraining true true (s.ok.storeReg r Reg.LNK_CTRL v)) := by
    show execLinkEnable r v s = _
    rw [execLinkEnable, regCmd_ok taken, is]
  exact gives_trains ran (lnkCtrl_stored r v s.ok).1 trains

theorem gives_linkRetrain (taken : Takes s r Reg.LNK_CTRL) (on : getBits Fld.LNK_CTRL_EN v = 1) (was : s.get Fld.LNK_CTRL_EN = 1) :
    Gives (.linkRetrain r v) s fun t => t.get Fld.LNK_STAT_STATE = 1 ∧ t.lnk.tx.up = false ∧ t.lnk.rx.up = false ∧ t.mem = s.mem ∧ t.eff = s.eff := by
  have en : getBits Fld.LNK_CTRL_EN (v ||| 2#32) = 1 := by
    rw [getBits_of_width_one rfl, BitVec.getLsbD_or, show (2#32).getLsbD Fld.LNK_CTRL_EN.lo = false from by decide, Bool.or_false, ← getBits_of_width_one rfl, on]
  have asked : getBits Fld.LNK_CTRL_RETRAIN (v ||| 2#32) = 1 := by
    rw [getBits_of_width_one rfl, BitVec.getLsbD_or, show (2#32).getLsbD Fld.LNK_CTRL_RETRAIN.lo = true from by decide, Bool.or_true]
    rfl
  obtain ⟨is, trains⟩ := lnkCtrlWrite_trains (s := s.ok) r (v ||| 2#32) en (.inr ⟨was, asked, rfl⟩)
  have ran : exec (.linkRetrain r v) s = .next (retrain true true (s.ok.storeReg r Reg.LNK_CTRL (v ||| 2#32))) := by
    show execLinkRetrain r v s = _
    rw [execLinkRetrain, regCmd_ok taken, is]
  exact gives_trains ran (lnkCtrl_stored r (v ||| 2#32) s.ok).1 trains

end

end Sys2Proof.Machine
end

section
/-!
PROOFS. The end of a training, up or failed (R174, R203, R205).
-/

namespace Sys2Proof.Machine

/-! ### An event that is indicated each time -/

/-- What a notice of severity 0 or 1 changes. -/
structure RaiseOnly (s t : State) : Prop where
  frame : NoticeOnly s t
  regs : ∀ a, raiseTouches a = false → t.rd a = s.rd a

section
variable {s t : State}

theorem raiseOnly_raiseSend {num : Nat} (low : severityOf num ≤ 1) (elem info : Nat) : RaiseOnly s (s.raiseSend num elem info) := by
  have keeps : RaiseKeeps fun t => ∀ a, raiseTouches a = false → t.rd a = s.rd a :=
    ⟨fun same kept a quiet => (State.rd_congr same a).trans (kept a quiet), fun t b v touched kept a quiet => by
      rw [State.rd_wr_ne t v fun e => by rw [e, touched] at quiet; cases quiet]
      exact kept a quiet⟩
  have quiet : QuietLow fun t => NoticeOnly s t := by
    rintro t regs1 out1 flt1 port1 lnk1 ⟨_, _, _, _, _, rfl⟩
    exact ⟨_, _, _, _, _, rfl⟩
  rw [State.raiseSend]
  split
  · exact ⟨quietLow_State_indicate quiet _ _ ((NoticeOnly.refl s).raise low _ _), raiseKeeps_State_indicate keeps _ _ fun a quiet => State.raise_rd _ _ _ _ quiet⟩
  · exact ⟨noticeOnly_raiseSev _ _ _ _ low, fun a quiet => State.raiseSev_rd _ _ _ _ _ quiet⟩

/-! ### Training fails -/

/-- What a failed training leaves. -/
structure TrainFails (code : Nat) (s t : State) : Prop where
  state : t.get Fld.LNK_STAT_STATE = 5
  failcode : t.get Fld.LNK_STAT_FAILCODE = code
  retry : t.lnk.retryDue = some (s.now + 100 * msU)
  only : TrainOnly s t

theorem trainFails_trainingFailed {code : Nat} (small : code < 8) (s : State) : TrainFails code s (trainingFailed code s) := by
  have down : TrainOnly s (setLink 5 (rxDown (txDown s))) := (trainOnly_txDown.trans trainOnly_rxDown).trans (trainOnly_setLink 5)
  have state : (setLink 5 (rxDown (txDown s))).get Fld.LNK_STAT_STATE = 5 := setLink_state (by decide)
  rw [trainingFailed]
  generalize setLink 5 (rxDown (txDown s)) = u at down state
  have now : (u.put Fld.LNK_STAT_FAILCODE code).now = s.now := by
    rw [State.put_now]
    exact (congrArg State.now down.eq).trans rfl
  have coded : (u.put Fld.LNK_STAT_FAILCODE code).get Fld.LNK_STAT_FAILCODE = code ∧ (u.put Fld.LNK_STAT_FAILCODE code).get Fld.LNK_STAT_STATE = 5 := by
    rw [State.get_eq_rfGet, State.get_eq_rfGet, State.put_regs, rfGet_rfPut_self _ _ (by decide), rfGet_rfPut_apart _ _ (by decide) (by decide), ← State.get_eq_rfGet]
    exact ⟨Nat.mod_eq_of_lt (Nat.lt_trans small (by decide)), state⟩
  have put : TrainOnly s (u.put Fld.LNK_STAT_FAILCODE code) := down.put _ (by decide)
  dsimp only
  generalize u.put Fld.LNK_STAT_FAILCODE code = v at put coded now
  rw [now]
  have raised := linkSame_raise (s := v.setLnk { v.lnk with retryDue := some (s.now + 100 * msU), repair := false }) 0x412 0xFF code (by decide) (.inl (by decide))
  refine ⟨?_, ?_, ?_, (put.lnk _).raise (by decide) _ _⟩
  · rw [raised.get (.inl rfl), State.get_setLnk, coded.2]
  · rw [raised.get (.inl rfl), State.get_setLnk, coded.1]
  · rw [raised.2.2, State.setLnk_lnk]

/-! ### A direction comes up -/

/-- What the link's working data, capacities and control word keep while a direction's end is settled. -/
structure UpKept (s t : State) : Prop where
  tx : t.lnk.tx.up = s.lnk.tx.up
  rx : t.lnk.rx.up = s.lnk.rx.up
  cap : t.rd Reg.LNK_CAP = s.rd Reg.LNK_CAP
  now : t.now = s.now
  mem : t.mem = s.mem

/-- A change of capacity told, and the power state asked for once both directions are up. -/
def settleUp (old cap : Nat) (s : State) : State :=
  let both := s.lnk.tx.up && s.lnk.rx.up
  let s := if both then State.put (s.setLnk { s.lnk with ackAt := s.now, lastDecode := s.now }) Fld.LNK_STAT_STATE 2 else s
  let s := if old ≠ cap then s.raiseSend 0x411 0xFF (s.rd Reg.LNK_CAP).toNat else s
  if both then powerRequest { s with boot := { s.boot with upAt := s.now } } else s

/-- With the link UP, PWRREQ asks for L1 by a lane-management message or for nothing (R206). -/
theorem powerRequest_up (up : t.get Fld.LNK_STAT_STATE = 2) (awake : t.get Fld.LNK_CTRL_PWRREQ ≠ 2) :
    ∃ free lm, powerRequest t = { t with free := free, lnk := { t.lnk with lm := lm } } := by
  rw [powerRequest, up]
  dsimp only
  by_cases sleep : t.get Fld.LNK_CTRL_PWRREQ = 1
  · rw [if_pos ⟨sleep, rfl⟩]
    exact ⟨_, _, rfl⟩
  · rw [if_neg fun h => sleep h.1, if_neg fun h => awake h.1, if_neg fun h => absurd h.2 (by decide), if_neg fun h => absurd h.2 (by decide)]
    exact ⟨t.free, t.lnk.lm, rfl⟩

theorem settleUp_kept (old cap : Nat) (awake : s.get Fld.LNK_CTRL_PWRREQ ≠ 2) :
    UpKept s (settleUp old cap s) ∧ (s.lnk.tx.up = true → s.lnk.rx.up = true → (settleUp old cap s).get Fld.LNK_STAT_STATE = 2) := by
  have told (u : State) : LinkSame u (if old ≠ cap then u.raiseSend 0x411 0xFF (u.rd Reg.LNK_CAP).toNat else u)
      ∧ RaiseOnly u (if old ≠ cap then u.raiseSend 0x411 0xFF (u.rd Reg.LNK_CAP).toNat else u) := by
    split
    · exact ⟨linkSame_raiseSend _ _ _ (by decide) (.inl (by decide)), raiseOnly_raiseSend (by decide) _ _⟩
    · exact ⟨.refl u, .refl u, fun _ _ => rfl⟩
  rw [settleUp]
  by_cases both : (s.lnk.tx.up && s.lnk.rx.up) = true
  · rw [both, if_pos rfl, if_pos rfl]
    obtain ⟨u, is⟩ : ∃ u, State.put (s.setLnk { s.lnk with ackAt := s.now, lastDecode := s.now }) Fld.LNK_STAT_STATE 2 = u := ⟨_, rfl⟩
    have first : UpKept s u ∧ u.get Fld.LNK_STAT_STATE = 2 ∧ u.get Fld.LNK_CTRL_PWRREQ = s.get Fld.LNK_CTRL_PWRREQ := by
      subst is
      refine ⟨⟨?_, ?_, State.rd_put_ne _ _ (by decide), ?_, ?_⟩, ?_, ?_⟩
      · rw [State.put_lnk, State.setLnk_lnk]
      · rw [State.put_lnk, State.setLnk_lnk]
      · rw [State.put_now, State.setLnk]
      · rw [State.put_mem, State.setLnk]
      · rw [State.get_eq_rfGet, State.put_regs, rfGet_rfPut_self _ _ (by decide)]
        rfl
      · rw [State.get_eq_rfGet, State.put_regs, rfGet_rfPut_apart _ _ (by decide) (by decide), ← State.get_eq_rfGet, State.get_setLnk]
    obtain ⟨kept, state, power⟩ := first
    rw [is]
    obtain ⟨⟨stat, cap', lnk⟩, raised⟩ := told u
    dsimp only
    generalize (if old ≠ cap then u.raiseSend 0x411 0xFF (u.rd Reg.LNK_CAP).toNat else u) = v at stat cap' lnk raised
    have upV : v.get Fld.LNK_STAT_STATE = 2 := by rw [State.get, show Fld.LNK_STAT_STATE.reg = Reg.LNK_STAT from rfl, stat, ← state]; rfl
    have powerV : v.get Fld.LNK_CTRL_PWRREQ ≠ 2 := by
      rw [State.get, raised.regs _ (by decide), ← State.get, power]
      exact awake
    have frame := raised.frame.eq
    obtain ⟨free, lm, is'⟩ := powerRequest_up (t := { v with boot := { v.boot with upAt := v.now } }) upV powerV
    rw [is']
    refine ⟨⟨?_, ?_, cap'.trans kept.cap, ?_, ?_⟩, fun _ _ => upV⟩
    · exact (congrArg (fun l : Lnk => l.tx.up) lnk).trans kept.tx
    · exact (congrArg (fun l : Lnk => l.rx.up) lnk).trans kept.rx
    · exact ((congrArg State.now frame).trans rfl).trans kept.now
    · exact ((congrArg State.mem frame).trans rfl).trans kept.mem
  · rw [Bool.eq_false_iff.2 both, if_neg Bool.false_ne_true, if_neg Bool.false_ne_true]
    obtain ⟨⟨_, cap', lnk⟩, raised⟩ := told s
    generalize (if old ≠ cap then s.raiseSend 0x411 0xFF (s.rd Reg.LNK_CAP).toNat else s) = v at cap' lnk raised
    have frame := raised.frame.eq
    refine ⟨⟨by rw [lnk], by rw [lnk], cap', (congrArg State.now frame).trans rfl, (congrArg State.mem frame).trans rfl⟩, fun tx rx => absurd ?_ both⟩
    rw [tx, rx]
    rfl

/-! ### The lanes of a direction -/

/-- Registers, and no control word or capacity, while lanes are assigned. -/
structure LanesOnly (s t : State) : Prop where
  regs : ∃ l, t = { s with regs := l }
  power : t.get Fld.LNK_CTRL_PWRREQ = s.get Fld.LNK_CTRL_PWRREQ

theorem LanesOnly.refl (s : State) : LanesOnly s s := ⟨⟨s.regs, rfl⟩, rfl⟩

theorem LanesOnly.wr (same : LanesOnly s t) {a : Nat} (v : Word) (other : Fld.LNK_CTRL_PWRREQ.reg ≠ a) : LanesOnly s (t.wr a v) := by
  obtain ⟨⟨l, is⟩, power⟩ := same
  refine ⟨⟨_, by rw [State.wr_eq, is]⟩, ?_⟩
  rw [State.get, State.rd_wr_ne _ _ other, ← State.get, power]

theorem LanesOnly.put (same : LanesOnly s t) {f : Field} (v : Nat) (other : Fld.LNK_CTRL_PWRREQ.reg ≠ f.reg) : LanesOnly s (t.put f v) := same.wr _ other

theorem lanesOnly_assignLanes (tx : Bool) (s : State) : LanesOnly s (assignLanes tx s) := by
  rw [assignLanes]
  cases tx
  · exact (((LanesOnly.refl s).put _ (by decide)).put _ (by decide)).put _ (by decide) |>.wr _ (by decide)
  · exact (((LanesOnly.refl s).put _ (by decide)).put _ (by decide)).put _ (by decide) |>.wr _ (by decide)

/-- The capacity that a direction's positions give (R203). -/
def capOf (n : Nat) : Nat := if n = 7 then 3493 else 3997

theorem capOf_lt (n : Nat) : capOf n < 2 ^ 16 := by
  rw [capOf]
  split <;> decide

/-- The last capacity of a direction, that of nine lanes before its first. -/
def lastCap (cap : Nat) : Nat := if cap = 0 then 3997 else cap

/-- A direction is marked UP, with its positions shown where it is the receive direction. -/
def dirMarked (tx : Bool) (pos : List Nat) (cap : Nat) (s : State) : State :=
  let l := s.lnk
  if tx then (s.put Fld.LNK_CAP_CAP_TX cap).setLnk { l with tx := { l.tx with up := true, cap := cap, phase := 0 } }
  else
    let s := (s.put Fld.LNK_CAP_CAP_RX cap).setLnk
      { l with rx := { l.rx with up := true, cap := cap, phase := 0 }, lastDecode := s.now, runLost := 0, lmSeen := none,
               repair := false, badMarks := Vector.replicate 9 0, markErr := Vector.replicate 9 0 }
    let clk := s.get Fld.LNK_AUXMAP_CLK_RX
    (List.range 9).foldl (fun s n => ((s.put (Fld.LNK_PLANEn_FAILED.i n) (b2n (!(pos.contains n) && n != clk))).put
      (Fld.LNK_PLANEn_CDR.i n) (b2n (pos.contains n))).put (Fld.LNK_PLANEn_MARK.i n) (b2n (pos.contains n))) s

theorem directionUp_eq (tx : Bool) (s : State) : directionUp tx s =
    settleUp (lastCap (if tx then (assignLanes tx s).lnk.tx.cap else (assignLanes tx s).lnk.rx.cap)) (capOf (s.usable tx).length)
      (dirMarked tx (s.usable tx) (capOf (s.usable tx).length) (assignLanes tx s)) := by
  rw [directionUp, settleUp, dirMarked, capOf, lastCap]

/-- The transmit direction is marked UP. -/
def txMarked (cap : Nat) (s : State) : State := (s.put Fld.LNK_CAP_CAP_TX cap).setLnk { s.lnk with tx := { s.lnk.tx with up := true, cap := cap, phase := 0 } }

/-- The working data of the link as its receive direction comes up. -/
def Lnk.rxUp (l : Lnk) (cap now : Nat) : Lnk :=
  { l with rx := { l.rx with up := true, cap := cap, phase := 0 }, lastDecode := now, runLost := 0, lmSeen := none, repair := false, badMarks := Vector.replicate 9 0, markErr := Vector.replicate 9 0 }

/-- A receive position shown. -/
def planeShown (pos : List Nat) (clk : Nat) (s : State) (n : Nat) : State :=
  ((s.put (Fld.LNK_PLANEn_FAILED.i n) (b2n (!(pos.contains n) && n != clk))).put (Fld.LNK_PLANEn_CDR.i n) (b2n (pos.contains n))).put (Fld.LNK_PLANEn_MARK.i n) (b2n (pos.contains n))

/-- The receive positions shown. -/
def planesShown (pos : List Nat) (clk : Nat) (s : State) : State := (List.range 9).foldl (planeShown pos clk) s

/-- The receive direction is marked UP. -/
def rxMarked (cap : Nat) (s : State) : State := (s.put Fld.LNK_CAP_CAP_RX cap).setLnk (s.lnk.rxUp cap s.now)

theorem dirMarked_rx (pos : List Nat) (cap : Nat) (s : State) : ∃ clk, dirMarked false pos cap s = planesShown pos clk (rxMarked cap s) :=
  ⟨(rxMarked cap s).get Fld.LNK_AUXMAP_CLK_RX, rfl⟩

/-- The receive positions lie in registers of their own. -/
theorem planesShown_kept (pos : List Nat) (clk : Nat) (s : State) : LanesOnly s (planesShown pos clk s) ∧ LinkSame s (planesShown pos clk s) := by
  have plane {f : Field} (reg : f.reg = Reg.LNK_PLANEn) (dims : f.dims = [4]) (n : Nat) : Fld.LNK_CTRL_PWRREQ.reg ≠ (f.i n).reg := by
    rw [Field.i, reg, dims]
    show 0x40A0010 ≠ 0x40A0040 + n * 4
    omega
  have apart {f : Field} (reg : f.reg = Reg.LNK_PLANEn) (dims : f.dims = [4]) (n : Nat) : (f.i n).reg ≠ Reg.LNK_STAT ∧ (f.i n).reg ≠ Reg.LNK_CAP := by
    rw [Field.i, reg, dims]
    exact apart_of_high (show 0x40A0018 < 0x40A0040 + n * 4 by omega)
  have one (t : State) (n : Nat) (same : LanesOnly s t) : LanesOnly s (planeShown pos clk t n) := by
    rw [planeShown]
    exact ((same.put _ (plane rfl rfl n)).put _ (plane rfl rfl n)).put _ (plane rfl rfl n)
  have lanes (l : List Nat) (t : State) (same : LanesOnly s t) : LanesOnly s (l.foldl (planeShown pos clk) t) := by
    induction l generalizing t with
    | nil => exact same
    | cons n l ih => exact ih _ (one t n same)
  refine ⟨lanes _ s (.refl s), LinkSame.foldl (fun t n _ => ?_) (.refl s)⟩
  rw [planeShown]
  exact (((LinkSame.refl t).put _ (apart rfl rfl n)).put _ (apart rfl rfl n)).put _ (apart rfl rfl n)

theorem gives_txUp (awake : s.get Fld.LNK_CTRL_PWRREQ ≠ 2) : (directionUp true s).lnk.tx.up = true ∧ (directionUp true s).get Fld.LNK_CAP_CAP_TX = capOf (s.usable true).length
    ∧ (s.lnk.rx.up = true → (directionUp true s).get Fld.LNK_STAT_STATE = 2) ∧ (directionUp true s).now = s.now ∧ (directionUp true s).mem = s.mem := by
  have is := directionUp_eq true s
  have small := capOf_lt (s.usable true).length
  obtain ⟨⟨l, assigned⟩, power⟩ := lanesOnly_assignLanes true s
  rw [is]
  generalize lastCap _ = old
  generalize capOf (s.usable true).length = cap at small ⊢
  generalize assignLanes true s = u at assigned power
  rw [dirMarked, if_pos rfl, ← txMarked]
  have marked : (txMarked cap u).lnk.tx.up = true ∧ (txMarked cap u).lnk.rx.up = s.lnk.rx.up ∧ (txMarked cap u).get Fld.LNK_CAP_CAP_TX = cap
      ∧ (txMarked cap u).get Fld.LNK_CTRL_PWRREQ = s.get Fld.LNK_CTRL_PWRREQ ∧ (txMarked cap u).now = s.now ∧ (txMarked cap u).mem = s.mem := by
    rw [txMarked]
    refine ⟨by rw [State.setLnk_lnk], by rw [State.setLnk_lnk, assigned], ?_, ?_, ?_, ?_⟩
    · rw [State.get_setLnk, State.get_eq_rfGet, State.put_regs, rfGet_rfPut_self _ _ (by decide)]
      exact Nat.mod_eq_of_lt small
    · rw [State.get_setLnk, State.get_eq_rfGet, State.put_regs, rfGet_rfPut_apart _ _ (by decide) (by decide), ← State.get_eq_rfGet, power]
    · rw [State.put_eq, assigned]
      rfl
    · rw [State.put_eq, assigned]
      rfl
  obtain ⟨tx, rx, capTx, power', now, mem⟩ := marked
  generalize txMarked cap u = v at tx rx capTx power' now mem
  obtain ⟨kept, up⟩ := settleUp_kept (s := v) old cap (by rw [power']; exact awake)
  refine ⟨kept.tx.trans tx, ?_, fun h => up tx (rx.trans h), kept.now.trans now, kept.mem.trans mem⟩
  rw [State.get, show Fld.LNK_CAP_CAP_TX.reg = Reg.LNK_CAP from rfl, kept.cap, ← capTx]
  rfl

theorem gives_rxUp (awake : s.get Fld.LNK_CTRL_PWRREQ ≠ 2) : (directionUp false s).lnk.rx.up = true ∧ (directionUp false s).get Fld.LNK_CAP_CAP_RX = capOf (s.usable false).length
    ∧ (s.lnk.tx.up = true → (directionUp false s).get Fld.LNK_STAT_STATE = 2) ∧ (directionUp false s).now = s.now ∧ (directionUp false s).mem = s.mem := by
  have is := directionUp_eq false s
  have small := capOf_lt (s.usable false).length
  obtain ⟨⟨l, assigned⟩, power⟩ := lanesOnly_assignLanes false s
  rw [is]
  generalize lastCap _ = old
  generalize s.usable false = pos at small ⊢
  generalize capOf pos.length = cap at small ⊢
  generalize assignLanes false s = u at assigned power
  obtain ⟨clk, shown⟩ := dirMarked_rx pos cap u
  rw [shown]
  have marked : (rxMarked cap u).lnk.rx.up = true ∧ (rxMarked cap u).lnk.tx.up = s.lnk.tx.up ∧ (rxMarked cap u).get Fld.LNK_CAP_CAP_RX = cap
      ∧ (rxMarked cap u).get Fld.LNK_CTRL_PWRREQ = s.get Fld.LNK_CTRL_PWRREQ ∧ (rxMarked cap u).now = s.now ∧ (rxMarked cap u).mem = s.mem := by
    have up : (u.lnk.rxUp cap u.now).rx.up = true ∧ (u.lnk.rxUp cap u.now).tx.up = s.lnk.tx.up := by
      rw [assigned]
      exact ⟨rfl, rfl⟩
    rw [rxMarked]
    generalize u.lnk.rxUp cap u.now = x at up
    refine ⟨by rw [State.setLnk_lnk, up.1], by rw [State.setLnk_lnk, up.2], ?_, ?_, ?_, ?_⟩
    · rw [State.get_setLnk, State.get_eq_rfGet, State.put_regs, rfGet_rfPut_self _ _ (by decide)]
      exact Nat.mod_eq_of_lt small
    · rw [State.get_setLnk, State.get_eq_rfGet, State.put_regs, rfGet_rfPut_apart _ _ (by decide) (by decide), ← State.get_eq_rfGet, power]
    · rw [State.setLnk, State.put_now, assigned]
    · rw [State.setLnk, State.put_mem, assigned]
  obtain ⟨rx, tx, capRx, power', now, mem⟩ := marked
  generalize rxMarked cap u = v at tx rx capRx power' now mem
  obtain ⟨⟨⟨l', shown⟩, power''⟩, ⟨_, cap', lnk⟩⟩ := planesShown_kept pos clk v
  have now' : (planesShown pos clk v).now = v.now := by rw [shown]
  have mem' : (planesShown pos clk v).mem = v.mem := by rw [shown]
  clear shown
  generalize planesShown pos clk v = w at power'' cap' lnk now' mem'
  obtain ⟨kept, up⟩ := settleUp_kept (s := w) old cap (by rw [power'', power']; exact awake)
  rw [lnk] at up
  refine ⟨kept.rx.trans (by rw [lnk, rx]), ?_, fun h => up (tx.trans h) rx, kept.now.trans (now'.trans now), kept.mem.trans (mem'.trans mem)⟩
  rw [State.get, show Fld.LNK_CAP_CAP_RX.reg = Reg.LNK_CAP from rfl, kept.cap, cap', ← capRx]
  rfl

end

end Sys2Proof.Machine
end

section
/-!
PROOFS. Training frames (R174, R175); the settlement of O22.
-/

namespace Sys2Proof.Machine

section
variable {s : State}

/-! ### The part's own frames -/

/-- The part's next frames, one on every data position that trains. -/
theorem sendFrames_eq (asks : Fin 9 → Word) (s : State) : ∃ o, sendFrames asks s = { s with out := o ++ s.out }
    ∧ (s.lnk.tx.up = false → s.lnk.tx.phase < 4 → s.get Fld.CLK_LPLL_LOCK = 1 → ∀ q : Fin 9, q.val ≠ s.get Fld.LNK_AUXMAP_CLK_TX → ∃ lv, .training q lv ∈ o) := by
  have fold (l : List (Fin 9)) (t : State) : ∃ o, l.foldl (fun (s : State) (q : Fin 9) => s.emit (.training q (s.frameOf q (asks q)))) t = { t with out := o ++ t.out }
      ∧ ∀ q ∈ l, ∃ lv, .training q lv ∈ o := by
    induction l generalizing t with
    | nil => exact ⟨[], rfl, fun q listed => nomatch listed⟩
    | cons q l ih =>
      obtain ⟨o, sent, each⟩ := ih (t.emit (.training q (t.frameOf q (asks q))))
      refine ⟨o ++ [.training q (t.frameOf q (asks q))], ?_, fun k listed => ?_⟩
      · rw [List.foldl_cons, sent, State.emit, List.append_assoc]
        rfl
      · rcases List.mem_cons.1 listed with rfl | rest
        · exact ⟨_, List.mem_append_right _ (List.mem_singleton_self _)⟩
        · obtain ⟨lv, sent⟩ := each k rest
          exact ⟨lv, List.mem_append_left _ sent⟩
  rw [sendFrames]
  split
  next silent =>
    refine ⟨[], rfl, fun down early lock => ?_⟩
    rw [down, State.flag_of_get_one lock, decide_eq_false (Nat.not_le.2 early)] at silent
    exact absurd silent (by decide)
  next =>
    obtain ⟨o, sent, each⟩ := fold ((List.finRange 9).filter fun (q : Fin 9) => q.val != s.get Fld.LNK_AUXMAP_CLK_TX) s
    exact ⟨o, sent, fun _ _ _ q other => each q (List.mem_filter.2 ⟨List.mem_finRange q, bne_iff_ne.2 other⟩)⟩

/-! ### The directions -/

/-- Only registers and the two directions' data change, not their phases. -/
structure SidesOnly (s t : State) : Prop where
  frame : ∃ regs tx rx, t = { s with regs := regs, lnk := { s.lnk with tx := tx, rx := rx } }
  tx : t.lnk.tx.phase = s.lnk.tx.phase
  rx : t.lnk.rx.phase = s.lnk.rx.phase

theorem SidesOnly.refl (s : State) : SidesOnly s s := ⟨⟨s.regs, s.lnk.tx, s.lnk.rx, rfl⟩, rfl, rfl⟩

theorem SidesOnly.trans {t u : State} (first : SidesOnly s t) (second : SidesOnly t u) : SidesOnly s u := by
  refine ⟨?_, second.tx.trans first.tx, second.rx.trans first.rx⟩
  obtain ⟨_, _, _, rfl⟩ := first.frame
  obtain ⟨_, _, _, rfl⟩ := second.frame
  exact ⟨_, _, _, rfl⟩

theorem sidesOnly_startCodewords (tx : Bool) (s : State) : SidesOnly s (startCodewords tx s) := by
  obtain ⟨⟨l, assigned⟩, _⟩ := lanesOnly_assignLanes tx s
  rw [startCodewords, assigned]
  cases tx
  · exact ⟨⟨l, s.lnk.tx, _, rfl⟩, rfl, rfl⟩
  · exact ⟨⟨l, _, s.lnk.rx, rfl⟩, rfl, rfl⟩

theorem framed_locked {d : LinkDir} (down : d.up = false) (first : d.phase = 1) (all : Nat) (heard ready : Vector Bool 9) (t : Nat) : 2 ≤ (d.framed all heard ready t).phase := by
  rw [LinkDir.framed, down, first]
  dsimp only
  rw [if_neg (by decide), if_pos rfl]
  have either (c : Prop) [Decidable c] {x y : LinkDir} (hx : 2 ≤ x.phase) (hy : 2 ≤ y.phase) : 2 ≤ (if c then x else y).phase := by
    split
    · exact hx
    · exact hy
  exact either _ (show 2 ≤ 4 by decide) (either _ (show 2 ≤ 3 by decide) (either _ (show 2 ≤ 3 by decide) (le_refl 2)))

/-! ### A frame received -/

/-- The link's data with a frame on a position taken. -/
def Lnk.heardOn (l : Lnk) (p : Fin 9) (f : TrainFields) (res : (Int × Int × Int) × (Nat × Nat × Nat)) (now : Nat) : Lnk :=
  { l with
    taps := l.taps.set p res.1
    tapStat := l.tapStat.set p res.2
    prec := l.prec.set p (bitOf f.control.toNat 21)
    precAck := l.precAck.set p (bitOf f.status.toNat 21)
    heard := l.heard.set p true
    farReady := l.farReady.set p (bitOf f.control.toNat 19)
    nearReady := l.nearReady.set p (bitOf f.eq.toNat 19)
    frameAt := now }

/-- What a frame does once its taps are known. -/
def frameTaken (p : Fin 9) (f : TrainFields) (res : (Int × Int × Int) × (Nat × Nat × Nat)) (s : State) : State :=
  let l := s.lnk
  let x : LinkDir := if s.flag Fld.CLK_LPLL_LOCK then l.tx.framed (s.dataPositions true) (l.heard.set p true) (l.farReady.set p (bitOf f.control.toNat 19)) s.now else l.tx
  let y := l.rx.framed (s.dataPositions false) (l.heard.set p true) (l.nearReady.set p (bitOf f.eq.toNat 19)) s.now
  let s := s.setLnk (l.heardOn p f res s.now)
  let s := sendFrames (fun q => if q = p then f.eq else s.asksOf q) s
  let s := s.setLnk { s.lnk with tx := x, rx := y }
  let s := if l.tx.phase < 4 ∧ x.phase = 4 then startCodewords true s else s
  if l.rx.phase < 4 ∧ y.phase = 4 then startCodewords false s else s

/-- What a frame leaves. -/
structure FrameTaken (p : Fin 9) (f : TrainFields) (res : (Int × Int × Int) × (Nat × Nat × Nat)) (s t : State) : Prop where
  frame : ∃ regs out tx rx, t = { s with regs := regs, out := out ++ s.out, lnk := { s.lnk.heardOn p f res s.now with tx := tx, rx := rx } }
    ∧ (s.lnk.tx.up = false → s.lnk.tx.phase < 4 → s.get Fld.CLK_LPLL_LOCK = 1 → p.val ≠ s.get Fld.LNK_AUXMAP_CLK_TX → ∃ lv, .training p lv ∈ out)
  rx : s.lnk.rx.up = false → s.lnk.rx.phase = 1 → 2 ≤ t.lnk.rx.phase

theorem frameTaken_leaves (p : Fin 9) (f : TrainFields) (res : (Int × Int × Int) × (Nat × Nat × Nat)) (s : State) : FrameTaken p f res s (frameTaken p f res s) := by
  rw [frameTaken]
  dsimp only
  have locked := fun down first => framed_locked (d := s.lnk.rx) down first (s.dataPositions false) (s.lnk.heard.set p true) (s.lnk.nearReady.set p (bitOf f.eq.toNat 19)) s.now
  generalize s.lnk.rx.framed (s.dataPositions false) (s.lnk.heard.set p true) (s.lnk.nearReady.set p (bitOf f.eq.toNat 19)) s.now = y at locked
  generalize (if s.flag Fld.CLK_LPLL_LOCK then s.lnk.tx.framed (s.dataPositions true) (s.lnk.heard.set p true) (s.lnk.farReady.set p (bitOf f.control.toNat 19)) s.now else s.lnk.tx) = x
  obtain ⟨o, sent, each⟩ := sendFrames_eq (fun q => if q = p then f.eq else (s.setLnk (s.lnk.heardOn p f res s.now)).asksOf q) (s.setLnk (s.lnk.heardOn p f res s.now))
  rw [sent]
  obtain ⟨u, is⟩ : ∃ u : State, u = { s with out := o ++ s.out, lnk := { s.lnk.heardOn p f res s.now with tx := x, rx := y } } := ⟨_, rfl⟩
  have sides (c : Prop) [Decidable c] (b : Bool) (v : State) : SidesOnly v (if c then startCodewords b v else v) := by
    split
    · exact sidesOnly_startCodewords b v
    · exact .refl v
  have both : SidesOnly u (if s.lnk.rx.phase < 4 ∧ y.phase = 4 then startCodewords false (if s.lnk.tx.phase < 4 ∧ x.phase = 4 then startCodewords true u else u)
      else (if s.lnk.tx.phase < 4 ∧ x.phase = 4 then startCodewords true u else u)) := (sides _ true u).trans (sides _ false _)
  obtain ⟨⟨regs, tx, rx, frame⟩, _, phase⟩ := both
  refine ⟨⟨regs, o, tx, rx, ?_, fun down early lock other => each down early lock p other⟩, fun down first => ?_⟩
  · rw [is] at frame
    exact frame
  · rw [is] at phase
    exact (locked down first).trans (le_of_eq phase.symm)

section
variable {p : Fin 9} {c st eq : Word} {t0 : Nat}

theorem exec_trainingFrame (trains : s.get Fld.LNK_STAT_STATE = 1) (control : c.toNat / 2 ^ 28 = 5) (status : st.toNat / 2 ^ 28 = 10) (hold : bitOf c.toNat 20 = false) :
    exec (.trainingFrame p ⟨c, st, eq⟩ t0) s = .next (frameTaken p ⟨c, st, eq⟩ (tapsAfter c.toNat s.lnk.taps[p]) (s.at t0)) := by
  show execTrainingFrame p ⟨c, st, eq⟩ t0 s = _
  rw [execTrainingFrame]
  dsimp only
  rw [if_neg (by rw [trains, control, status]; decide), hold, frameTaken]
  rfl

theorem exec_trainingFrame_init (trains : s.get Fld.LNK_STAT_STATE = 1) (control : c.toNat / 2 ^ 28 = 5) (status : st.toNat / 2 ^ 28 = 10) (init : bitOf c.toNat 20 = true) :
    ∃ taps, exec (.trainingFrame p ⟨c, st, eq⟩ t0) s = .next (frameTaken p ⟨c, st, eq⟩ (taps, (1, 1, 1)) (s.at t0).drawn.2) := by
  refine ⟨(0, ((20 + (s.at t0).drawn.1 % 17 : Nat) : Int), -4), ?_⟩
  show execTrainingFrame p ⟨c, st, eq⟩ t0 s = _
  rw [execTrainingFrame]
  dsimp only
  rw [if_neg (by rw [trains, control, status]; decide), init, frameTaken]
  rfl

theorem gives_trainingFrame (trains : s.get Fld.LNK_STAT_STATE = 1) (control : c.toNat / 2 ^ 28 = 5) (status : st.toNat / 2 ^ 28 = 10) (hold : bitOf c.toNat 20 = false) :
    Gives (.trainingFrame p ⟨c, st, eq⟩ t0) s fun t => t.lnk.taps[p] = (tapsAfter c.toNat s.lnk.taps[p]).1 ∧ t.lnk.prec[p] = bitOf c.toNat 21
      ∧ t.lnk.farReady[p] = bitOf c.toNat 19 ∧ t.lnk.nearReady[p] = bitOf eq.toNat 19 ∧ (∀ q : Fin 9, q ≠ p → t.lnk.taps[q] = s.lnk.taps[q])
      ∧ (s.lnk.tx.up = false → s.lnk.tx.phase < 4 → s.get Fld.CLK_LPLL_LOCK = 1 → p.val ≠ s.get Fld.LNK_AUXMAP_CLK_TX → ∃ lv, .training p lv ∈ t.out)
      ∧ (s.lnk.rx.up = false → s.lnk.rx.phase = 1 → 2 ≤ t.lnk.rx.phase) ∧ (∃ l, t.out = l ++ s.out)
      ∧ t = { s with now := max s.now t0, regs := t.regs, out := t.out, lnk := t.lnk } := by
  have ran := exec_trainingFrame (t0 := t0) (p := p) (eq := eq) trains control status hold
  obtain ⟨⟨regs, out, tx, rx, frame, sent⟩, locked⟩ := frameTaken_leaves p ⟨c, st, eq⟩ (tapsAfter c.toNat s.lnk.taps[p]) (s.at t0)
  rw [frame] at ran locked
  refine Gives.of_eq ran ⟨Vector.getElem_set_self _, Vector.getElem_set_self _, Vector.getElem_set_self _, Vector.getElem_set_self _,
    fun q other => Vector.getElem_set_ne p.isLt _ fun e => other (Fin.ext e.symm), fun down early lock free => ?_, locked, ⟨out, rfl⟩, rfl⟩
  obtain ⟨lv, listed⟩ := sent down early lock free
  exact ⟨lv, List.mem_append_left _ listed⟩

theorem gives_trainingFrame_init (trains : s.get Fld.LNK_STAT_STATE = 1) (control : c.toNat / 2 ^ 28 = 5) (status : st.toNat / 2 ^ 28 = 10) (init : bitOf c.toNat 20 = true) :
    Gives (.trainingFrame p ⟨c, st, eq⟩ t0) s fun t => t.lnk.prec[p] = bitOf c.toNat 21 ∧ t.lnk.farReady[p] = bitOf c.toNat 19 ∧ t.lnk.nearReady[p] = bitOf eq.toNat 19
      ∧ t.lnk.tapStat[p] = (1, 1, 1)
      ∧ (s.lnk.tx.up = false → s.lnk.tx.phase < 4 → s.get Fld.CLK_LPLL_LOCK = 1 → p.val ≠ s.get Fld.LNK_AUXMAP_CLK_TX → ∃ lv, .training p lv ∈ t.out)
      ∧ (∃ l, t.out = l ++ s.out) ∧ t = { s with now := max s.now t0, regs := t.regs, out := t.out, free := s.free + 1, lnk := t.lnk } := by
  obtain ⟨taps, ran⟩ := exec_trainingFrame_init (t0 := t0) (p := p) (eq := eq) trains control status init
  obtain ⟨⟨regs, out, tx, rx, frame, sent⟩, _⟩ := frameTaken_leaves p ⟨c, st, eq⟩ (taps, (1, 1, 1)) (s.at t0).drawn.2
  rw [frame] at ran
  refine Gives.of_eq ran ⟨Vector.getElem_set_self _, Vector.getElem_set_self _, Vector.getElem_set_self _, Vector.getElem_set_self _, fun down early lock free => ?_, ⟨out, rfl⟩, rfl⟩
  obtain ⟨lv, listed⟩ := sent down early lock free
  exact ⟨lv, List.mem_append_left _ listed⟩

end

/-! ### Failures, ends and retries of a training -/

theorem gives_trainFails {i : Instr} {code t0 : Nat} (small : code < 8) (ran : exec i s = .next (trainingFailed code (s.at t0))) :
    Gives i s fun t => t.get Fld.LNK_STAT_STATE = 5 ∧ t.get Fld.LNK_STAT_FAILCODE = code ∧ t.lnk.retryDue = some (max s.now t0 + 100 * msU) ∧ t.now = max s.now t0 ∧ t.mem = s.mem := by
  obtain ⟨state, failcode, retry, only⟩ := trainFails_trainingFailed small (s.at t0)
  have frame := only.eq
  refine Gives.of_eq ran ⟨state, failcode, retry, ?_, ?_⟩
  · rw [frame]
    rfl
  · rw [frame]
    rfl

/-- The data of the direction that completes. -/
def Lnk.side (l : Lnk) (tx : Bool) : LinkDir := if tx then l.tx else l.rx

section
variable {tx : Bool} {skew t0 : Nat}

theorem exec_trainingComplete (trains : s.get Fld.LNK_STAT_STATE = 1) (down : (s.lnk.side tx).up = false) (late : 4 ≤ (s.lnk.side tx).phase) :
    exec (.trainingComplete tx skew t0) s = .next (if !tx && decide (192 < skew) then trainingFailed 4 (s.at t0)
      else if (s.usable tx).length < 7 then trainingFailed 6 (s.at t0)
      else if (s.lnk.side tx).phase = 5 ∧ 64 ≤ (s.lnk.side tx).fec ∧ (tx = true → s.flag Fld.CLK_LPLL_LOCK = true) then directionUp tx (s.at t0)
      else s) := by
  show execTrainingComplete tx skew t0 s = _
  rw [execTrainingComplete, ← Lnk.side]
  dsimp only
  rw [if_neg]
  rintro (other | up | early)
  · exact other trains
  · rw [down] at up
    cases up
  · omega

theorem exec_trainingComplete_skewed (trains : s.get Fld.LNK_STAT_STATE = 1) (down : s.lnk.rx.up = false) (late : 4 ≤ s.lnk.rx.phase) (apart : 192 < skew) :
    exec (.trainingComplete false skew t0) s = .next (trainingFailed 4 (s.at t0)) := by
  rw [exec_trainingComplete (tx := false) trains down late, decide_eq_true apart, if_pos (by decide)]

theorem exec_trainingComplete_few (trains : s.get Fld.LNK_STAT_STATE = 1) (down : (s.lnk.side tx).up = false) (late : 4 ≤ (s.lnk.side tx).phase) (close : skew ≤ 192)
    (few : (s.usable tx).length < 7) : exec (.trainingComplete tx skew t0) s = .next (trainingFailed 6 (s.at t0)) := by
  rw [exec_trainingComplete trains down late, decide_eq_false (Nat.not_lt.2 close), Bool.and_false, if_neg Bool.false_ne_true, if_pos few]

theorem exec_trainingComplete_up (trains : s.get Fld.LNK_STAT_STATE = 1) (down : (s.lnk.side tx).up = false) (phase : (s.lnk.side tx).phase = 5) (fec : 64 ≤ (s.lnk.side tx).fec)
    (lock : tx = true → s.flag Fld.CLK_LPLL_LOCK = true) (close : (!tx && decide (192 < skew)) = false) (enough : 7 ≤ (s.usable tx).length) :
    exec (.trainingComplete tx skew t0) s = .next (directionUp tx (s.at t0)) := by
  rw [exec_trainingComplete trains down (by omega), close, if_neg Bool.false_ne_true, if_neg (Nat.not_lt.2 enough), if_pos ⟨phase, fec, lock⟩]

end

/-- The positions that a direction uses are counted as its registers and frames say. -/
theorem usable_length (s : State) : (s.usable true).length = ((List.finRange 9).filter fun (n : Fin 9) => n.val != s.get Fld.LNK_AUXMAP_CLK_TX && s.lnk.farReady[n]).length
    ∧ (s.usable false).length = ((List.finRange 9).filter fun (n : Fin 9) => n.val != s.get Fld.LNK_AUXMAP_CLK_RX && s.lnk.nearReady[n]).length := by
  rw [State.usable, State.usable]
  simp only [if_true, Bool.false_eq_true, if_false, List.length_map, and_self]

theorem gives_trainingRetry {d : Nat} (due : s.lnk.retryDue = some d) (on : s.get Fld.LNK_CTRL_EN = 1) :
    Gives .trainingRetry s fun t => t.get Fld.LNK_STAT_STATE = 1 ∧ t.lnk.retryDue = none ∧ t.now = max s.now d ∧ t.mem = s.mem := by
  have ran : exec .trainingRetry s = .next (startTraining true true (s.at d)) := by
    show execTrainingRetry s = _
    rw [execTrainingRetry, due]
    dsimp only
    rw [if_pos (State.flag_of_get_one on)]
  obtain ⟨state, _, _, retry, _⟩ := startTraining_link true true (s.at d)
  obtain ⟨mem, _, now⟩ := (trains_startTraining (s.at d)).frame
  exact Gives.of_eq ran ⟨state, retry, now, mem⟩

end

/-- Settles O22: the control register's writes by `lnkCtrlWrite_trains`, a frame by `frameTaken_leaves`, failures by `trainFails_trainingFailed`, a direction's end by `settleUp_kept`. -/
theorem linkTraining : Obligations.LinkTraining := by
  unfold Obligations.LinkTraining
  refine ⟨fun s r v => gives_linkEnable r v, fun s r v taken on was _ => gives_linkRetrain r v taken on was, fun s p c st eq t0 => gives_trainingFrame,
    fun s p c st eq t0 => gives_trainingFrame_init, fun s tx code t0 trains overran => ?_, fun s skew t0 trains down phase fec lock awake enough => ?_,
    fun s skew t0 trains down phase fec close awake enough => ?_, fun s skew t0 trains down late apart => ?_, fun s d => gives_trainingRetry,
    fun s tx skew t0 trains down late close few => ?_⟩
  · have ran : exec (.trainingPhaseTimeout ⟨tx, code⟩ t0) s = .next (trainingFailed code (s.at t0)) := by
      show execTrainingPhaseTimeout ⟨tx, code⟩ t0 s = _
      rw [execTrainingPhaseTimeout, if_pos ⟨trains, overran⟩]
    exact gives_trainFails code.isLt ran
  · rw [← (usable_length s).1] at enough ⊢
    obtain ⟨up, cap, both, now, mem⟩ := gives_txUp (s := s.at t0) awake
    exact Gives.of_eq (exec_trainingComplete_up (tx := true) trains down phase fec (fun _ => State.flag_of_get_one lock) rfl enough) ⟨up, cap, both, now, mem⟩
  · rw [← (usable_length s).2] at enough ⊢
    obtain ⟨up, cap, both, now, mem⟩ := gives_rxUp (s := s.at t0) awake
    exact Gives.of_eq (exec_trainingComplete_up (tx := false) trains down phase fec (fun e => nomatch e) (by rw [decide_eq_false (Nat.not_lt.2 close), Bool.and_false]) enough) ⟨up, cap, both, now, mem⟩
  · obtain ⟨t, is, state, failcode, retry, _, mem⟩ := gives_trainFails (code := 4) (by decide) (exec_trainingComplete_skewed (t0 := t0) trains down late apart)
    exact ⟨t, is, state, failcode, retry, mem⟩
  · obtain ⟨t, is, state, failcode, retry, _, mem⟩ := gives_trainFails (code := 6) (by decide) (exec_trainingComplete_few (t0 := t0) trains down late close few)
    exact ⟨t, is, state, failcode, retry, mem⟩

end Sys2Proof.Machine
end

section
/-!
PROOFS. Codewords received (R177, R179, R186): what losing or decoding one leaves.
-/

namespace Sys2Proof.Machine

/-! ### Frames -/

/-- Registers, the link's data and the port's alone. -/
structure CellOnly (s t : State) : Prop where
  frame : ∃ regs lnk port, t = { s with regs := regs, lnk := lnk, port := port }
  loss : t.lnk.lossRun = s.lnk.lossRun
  decode : t.lnk.lastDecode = s.lnk.lastDecode

/-- What a training of the transmit direction leaves too. -/
structure HearKept (s t : State) : Prop where
  frame : ∃ tim, NoticeOnly { s with tim := tim } t
  loss : t.lnk.lossRun = s.lnk.lossRun
  decode : t.lnk.lastDecode = s.lnk.lastDecode

/-- Only what a training can change, the registers aside. -/
def TrainData (s t : State) : Prop := ∃ tim, NoticeOnly { s with tim := tim } t

section
variable {s t u : State}

theorem TrainData.refl (s : State) : TrainData s s := ⟨s.tim, .refl s⟩

theorem TrainData.trans (first : TrainData s t) (second : TrainData t u) : TrainData s u := by
  obtain ⟨_, _, _, _, _, _, rfl⟩ := first
  obtain ⟨_, _, _, _, _, _, rfl⟩ := second
  exact ⟨_, _, _, _, _, _, rfl⟩

theorem TrainData.put (same : TrainData s t) (f : Field) (v : Nat) : TrainData s (t.put f v) := by
  obtain ⟨tim, only⟩ := same
  exact ⟨tim, only.put f v⟩

theorem TrainData.lnk (same : TrainData s t) (l : Lnk) : TrainData s (t.setLnk l) := by
  obtain ⟨_, _, _, _, _, _, rfl⟩ := same
  exact ⟨_, _, _, _, _, _, rfl⟩

theorem TrainData.ite (c : Prop) [Decidable c] (yes : TrainData s t) (no : TrainData s u) : TrainData s (if c then t else u) := by
  split
  · exact yes
  · exact no

theorem TrainData.kept (same : TrainData s t) : t.mem = s.mem ∧ t.eff = s.eff ∧ t.now = s.now := by
  obtain ⟨_, _, _, _, _, _, rfl⟩ := same
  exact ⟨rfl, rfl, rfl⟩

theorem CellOnly.refl (s : State) : CellOnly s s := ⟨⟨s.regs, s.lnk, s.port, rfl⟩, rfl, rfl⟩

theorem CellOnly.trans (first : CellOnly s t) (second : CellOnly t u) : CellOnly s u := by
  refine ⟨?_, second.loss.trans first.loss, second.decode.trans first.decode⟩
  obtain ⟨_, _, _, rfl⟩ := first.frame
  obtain ⟨_, _, _, rfl⟩ := second.frame
  exact ⟨_, _, _, rfl⟩

theorem CellOnly.put (same : CellOnly s t) (f : Field) (v : Nat) : CellOnly s (t.put f v) := by
  refine same.trans ?_
  rw [State.put_eq]
  exact ⟨⟨_, _, _, rfl⟩, rfl, rfl⟩

theorem CellOnly.lnk (same : CellOnly s t) {l : Lnk} (loss : l.lossRun = t.lnk.lossRun) (decode : l.lastDecode = t.lnk.lastDecode) : CellOnly s (t.setLnk l) :=
  same.trans ⟨⟨t.regs, l, t.port, rfl⟩, loss, decode⟩

theorem CellOnly.ite (c : Prop) [Decidable c] (yes : CellOnly s t) (no : CellOnly s u) : CellOnly s (if c then t else u) := by
  split
  · exact yes
  · exact no

theorem CellOnly.foldl {β : Type} {f : State → β → State} (each : ∀ t b, CellOnly t (f t b)) (l : List β) (s : State) : CellOnly s (l.foldl f s) := by
  induction l generalizing s with
  | nil => exact .refl s
  | cons b l ih => exact (each s b).trans (ih _)

theorem CellOnly.hearKept (same : CellOnly s t) : HearKept s t := by
  refine ⟨?_, same.loss, same.decode⟩
  obtain ⟨_, _, _, rfl⟩ := same.frame
  exact ⟨s.tim, _, _, _, _, _, rfl⟩

theorem HearKept.trans (first : HearKept s t) (second : HearKept t u) : HearKept s u :=
  ⟨TrainData.trans first.frame second.frame, second.loss.trans first.loss, second.decode.trans first.decode⟩

theorem HearKept.ite (c : Prop) [Decidable c] (yes : HearKept s t) (no : HearKept s u) : HearKept s (if c then t else u) := by
  split
  · exact yes
  · exact no

/-! ### Cells in (R180, R183, R185, R187) -/

theorem cellOnly_setPartial (f : Nat) (p : Option Partial) (s : State) : CellOnly s (s.setPartial f p) := .lnk (.refl s) rfl rfl

theorem cellOnly_inbox (s : State) (l : List FlowMsg) : CellOnly s { s with port := { s.port with inbox := l } } := ⟨⟨_, _, _, rfl⟩, rfl, rfl⟩

theorem cellOnly_endMessage (p : Partial) (s : State) : CellOnly s (endMessage p s) := by
  rw [endMessage]
  have left := cellOnly_setPartial p.flow none s
  refine .ite _ left (.ite _ (left.put _ _) (.ite _ (left.trans (cellOnly_inbox _ _)) (left.put _ _)))

theorem cellOnly_joinCell (c : Cell) (credit : Bool) (s : State) : CellOnly s (joinCell c credit s) := by
  have made (p : Partial) (t : State) : CellOnly t (if c.eom = true then endMessage p t else t.setPartial c.flow (some p)) :=
    .ite _ (cellOnly_endMessage p t) (cellOnly_setPartial _ _ t)
  have counted (b : Prop) [Decidable b] (f : Field) (t : State) : CellOnly t (if b then t else t.inc f) := .ite _ (.refl t) (.put (.refl t) _ _)
  rw [joinCell]
  dsimp only
  rcases s.partialOf c.flow with _ | p
  · refine .ite _ ((counted _ _ s).trans (made _ _)) ?_
    exact CellOnly.trans (.put (.refl s) (Fld.LNK_CNTn_COUNT.i 6) _) (made _ _)
  · refine .ite _ (((counted _ (Fld.LNK_CNTn_COUNT.i 6) s).trans (counted _ _ _)).trans (made _ _)) ?_
    exact (counted _ _ s).trans (made _ _)

theorem cellOnly_receiveCell (s : State) (c : Cell) : CellOnly s (receiveCell s c) := by
  rw [receiveCell]
  refine .ite _ (.put (.refl s) _ _) (.ite _ (.put (.refl s) _ _) ?_)
  have sequenced : CellOnly s (if s.flag (Fld.LNK_FLOWf_CFG_REL.i c.flow) then s.setLnk { s.lnk with rseqRx := aset s.lnk.rseqRx c.flow ((aget s.lnk.rseqRx c.flow + 1) % 64) } else s) :=
    .ite _ (.lnk (.refl s) rfl rfl) (.refl s)
  refine sequenced.trans (CellOnly.trans ?_ (cellOnly_joinCell _ _ _))
  exact .ite _ (.lnk (.refl _) rfl rfl) (.refl _)

/-! ### The link-control field (R181, R185, R186) -/

theorem cellOnly_takeAck (ack : Nat) (s : State) : CellOnly s (takeAck ack s) := .lnk (.refl s) rfl rfl

theorem cellOnly_startReplay (sel : Nat × Cell → Bool) (s : State) : CellOnly s (startReplay sel s) := by
  have again (l : List (Nat × Cell)) : CellOnly s (s.setLnk { s.lnk with replay := l }) := .lnk (.refl s) rfl rfl
  exact .put (again _) (Fld.LNK_CNTn_COUNT.i 3) _

theorem cellOnly_takeNak (nak : Option Nat) (s : State) : CellOnly s (takeNak nak s) := by
  rw [takeNak]
  refine .ite _ (.refl s) ?_
  have noted : CellOnly s (s.setLnk { s.lnk with lastNak := nak }) := .lnk (.refl s) rfl rfl
  cases nak with
  | none => exact noted
  | some k => exact noted.trans (cellOnly_startReplay _ _)

theorem cellOnly_takeCredits (lc : List Nat) (s : State) : CellOnly s (takeCredits lc s) :=
  .ite _ (.refl s) (.foldl (fun t _ => .ite _ (.refl t) (.put (.refl t) _ _)) _ s)

/-- The transmit direction's retraining leaves what the receive direction has heard. -/
theorem hearKept_retrain (s : State) : HearKept s (retrain true false s) := by
  have started := linkSame_startTraining (s := s) true false
  have reported := linkSame_laneReport (s := startTraining true false s)
  have lnk : (retrain true false s).lnk = (trainStart true false s).lnk := reported.2.2.trans started.2.2
  have down : (trainDown true false s).lnk = (txDown s).lnk := rfl
  rw [trainStart_lnk, down, txDown_lnk] at lnk
  exact ⟨(trainOnly_retrain true false).frame, by rw [lnk]; rfl, by rw [lnk]; rfl⟩

theorem cellOnly_sendLm (op arg tgt : Nat) (s : State) : CellOnly s (sendLm op arg tgt s) := .lnk (.refl s) rfl rfl

theorem cellOnly_lmSubstitute (arg tgt : Nat) (s : State) : CellOnly s (lmSubstitute arg tgt s) := by
  rw [lmSubstitute]
  refine .ite _ (.lnk (.refl s) rfl rfl) ?_
  split
  · exact .ite _ (.lnk (.refl s) rfl rfl) (.refl s)
  · exact .refl s

theorem cellOnly_lmDone (arg : Nat) (s : State) : CellOnly s (lmDone arg s) := by
  rw [lmDone]
  split
  · exact .ite _ (.lnk (.refl s) rfl rfl) (.refl s)
  · exact .refl s

theorem hearKept_lmClock (arg : Nat) (s : State) : HearKept s (lmClock arg s) := by
  rw [lmClock]
  refine .ite _ (CellOnly.refl s).hearKept (HearKept.trans ?_ (hearKept_retrain _))
  have moved : CellOnly s (s.put Fld.LNK_AUXMAP_CLK_TX (arg % 16)) := .put (.refl s) _ _
  exact (CellOnly.ite _ (moved.put _ _) moved).hearKept

theorem hearKept_lmRetrain (s : State) : HearKept s (lmRetrain s) := .ite _ (hearKept_retrain s) (CellOnly.refl s).hearKept

theorem cellOnly_lmL1 (tgt : Nat) (s : State) : CellOnly s (lmL1 tgt s) := by
  rw [lmL1]
  have seen : CellOnly s (s.setLnk { s.lnk with l1Seen := some tgt }) := .lnk (.refl s) rfl rfl
  have agreed (t : State) : CellOnly t (t.setLnk { t.lnk with l1 := some tgt }) := .lnk (.refl t) rfl rfl
  exact .ite _ (.refl s) (.ite _ (seen.trans (cellOnly_sendLm ..)) ((seen.trans (agreed _)).trans (cellOnly_sendLm ..)))

theorem cellOnly_lmAccept (tgt : Nat) (s : State) : CellOnly s (lmAccept tgt s) := .ite _ (.lnk (.refl s) rfl rfl) (.refl s)

theorem cellOnly_lmRefuse (s : State) : CellOnly s (lmRefuse s) := .lnk (.refl s) rfl rfl

theorem hearKept_doLm (op arg tgt : Nat) (s : State) : HearKept s (doLm op arg tgt s) := by
  rw [doLm]
  exact .ite _ (cellOnly_lmSubstitute ..).hearKept (.ite _ (cellOnly_lmDone ..).hearKept (.ite _ (hearKept_lmClock ..) (.ite _ (hearKept_lmRetrain s)
    (.ite _ (cellOnly_lmL1 ..).hearKept (.ite _ (cellOnly_lmAccept ..).hearKept (.ite _ (cellOnly_lmRefuse s).hearKept (CellOnly.refl s).hearKept))))))

theorem hearKept_takeLmBytes (lc : List Nat) (s : State) : HearKept s (takeLmBytes lc s) := by
  have noted (x : Option (List Nat)) : CellOnly s (s.setLnk { s.lnk with lmSeen := x }) := .lnk (.refl s) rfl rfl
  exact .ite _ (noted _).hearKept (.ite _ (CellOnly.refl s).hearKept ((noted _).hearKept.trans (hearKept_doLm ..)))

/-- Without a lane-management message the link-control field reaches the link's data alone. -/
theorem cellOnly_takeLmBytes {lc : List Nat} (none : lc.getD 0 0 % 16 = 0) (s : State) : CellOnly s (takeLmBytes lc s) := by
  rw [takeLmBytes]
  dsimp only
  rw [if_pos (.inr (by omega))]
  exact .lnk (.refl s) rfl rfl

theorem takeControl_kept (lc : List Nat) (s : State) : HearKept s (takeControl lc s) ∧ (lc.getD 0 0 % 16 = 0 → CellOnly s (takeControl lc s)) := by
  rw [takeControl]
  have acked : CellOnly s (if bitOf (lc.getD 10 0) 6 then takeAck (beNat ((lc.drop 6).take 2)) s else s) := .ite _ (cellOnly_takeAck ..) (.refl s)
  have before := (acked.trans (cellOnly_takeNak (if bitOf (lc.getD 10 0) 7 then some (beNat ((lc.drop 8).take 2)) else none) _)).trans (cellOnly_takeCredits lc _)
  exact ⟨before.hearKept.trans (hearKept_takeLmBytes ..), fun none => before.trans (cellOnly_takeLmBytes none _)⟩

end

end Sys2Proof.Machine
end

section
/-!
PROOFS. A codeword lost or decoded, and the replay timeout (R177, R179, R186, R200).
-/

namespace Sys2Proof.Machine

section
variable {s t u : State}

/-! ### Lane failures found by the markers (R200) -/

theorem trainData_retrain (tx rx : Bool) (s : State) : TrainData s (retrain tx rx s) := (trainOnly_retrain tx rx).frame

theorem trainData_moveLost (s : State) : TrainData s (moveLost s) := .lnk (.put (.put (.refl s) (Fld.LNK_CNTn_COUNT.i 1) _) (Fld.LNK_CNTn_COUNT.i 2) _) _

theorem trainData_sendLm (op arg tgt : Nat) (s : State) : TrainData s (sendLm op arg tgt s) := .lnk (.refl s) _

theorem trainData_rxRetrain (arg : Nat) (s : State) : TrainData s (rxRetrain arg s) := by
  rw [rxRetrain]
  have trained := (trainData_retrain false true s).lnk { (retrain false true s).lnk with repair := true }
  exact .ite _ (trained.trans (trainData_sendLm ..)) trained

theorem trainData_failLane (p : Fin 9) (s : State) : TrainData s (failLane p s) := by
  have shown : TrainData s (((s.put (Fld.LNK_PLANEn_FAILED.i p) 1).put (Fld.LNK_PLANEn_CDR.i p) 0).put (Fld.LNK_PLANEn_MARK.i p) 0) := .put (.put (.put (.refl s) _ _) _ _) _ _
  rw [failLane]
  generalize ((s.put (Fld.LNK_PLANEn_FAILED.i p) 1).put (Fld.LNK_PLANEn_CDR.i p) 0).put (Fld.LNK_PLANEn_MARK.i p) 0 = u at shown
  refine .ite _ shown (.ite _ shown ?_)
  have failed : TrainData s (u.setLnk { u.lnk with failedAt := [u.now] }) := shown.lnk _
  dsimp only
  generalize u.setLnk { u.lnk with failedAt := [u.now] } = v at failed
  have moved := failed.trans (trainData_moveLost v)
  refine .ite _ (moved.trans (trainData_rxRetrain ..)) (.ite _ (failed.put _ _) (.ite _ (moved.trans (trainData_rxRetrain ..)) ?_))
  exact (moved.lnk _).trans (trainData_sendLm ..)

theorem trainData_checkMarkers (second : Bool) (lanes : List (List Nat)) (s : State) : TrainData s (checkMarkers second lanes s) := by
  have fold (l : List (Fin 9)) (t : State) : TrainData t (l.foldl (fun s p => failLane p s) t) := by
    induction l generalizing t with
    | nil => exact .refl t
    | cons p l ih => exact (trainData_failLane p t).trans (ih _)
  rw [checkMarkers]
  exact .ite _ (.lnk (.refl s) _) (TrainData.trans (.lnk (.refl s) _) (fold _ _))

/-! ### A codeword's place in the stream (R177, R178, R201) -/

/-- The receive direction's data stands but for the substitution that a codeword's number starts. -/
structure Switched (s u : State) : Prop where
  data : TrainData s u
  rx : u.lnk.rx = s.lnk.rx
  tx : u.lnk.tx = s.lnk.tx
  stat : u.rd Reg.LNK_STAT = s.rd Reg.LNK_STAT

/-- A lane's stream moved to the spare, in the lane map `m` and the spare's field `f`. -/
def laneMoved (tx : Bool) (m : Nat) (f : Field) (u : Subst) (s : State) : State :=
  let s := (s.wr m (BitVec.ofNat 32 (replacePos (s.rd m).toNat u.failed u.spare))).put f 15
  let u' := { u with moved := true, counted := true }
  s.setLnk (if tx then { s.lnk with subTx := some u' } else { s.lnk with subRx := some u' })

theorem switched_laneMoved (tx : Bool) {m : Nat} {f : Field} (map : m ≠ Reg.LNK_STAT) (spare : f.reg ≠ Reg.LNK_STAT) (u : Subst) (s : State) : Switched s (laneMoved tx m f u s) := by
  have written : Switched s ((s.wr m (BitVec.ofNat 32 (replacePos (s.rd m).toNat u.failed u.spare))).put f 15) := by
    refine ⟨⟨s.tim, ((NoticeOnly.refl s).wr _ _).put _ _⟩, ?_, ?_, ?_⟩
    · rw [State.put_lnk, State.wr_lnk]
    · rw [State.put_lnk, State.wr_lnk]
    · rw [State.rd_put_ne _ _ spare.symm, State.rd_wr_ne _ _ map.symm]
  rw [laneMoved]
  generalize (s.wr m (BitVec.ofNat 32 (replacePos (s.rd m).toNat u.failed u.spare))).put f 15 = v at written
  refine ⟨written.data.lnk _, ?_, ?_, (State.rd_congr (by rw [State.setLnk]) _).trans written.stat⟩
  · rw [State.setLnk_lnk, ← written.rx]
    cases tx <;> rfl
  · rw [State.setLnk_lnk, ← written.tx]
    cases tx <;> rfl

theorem switched_laneReport (s : State) : Switched s (laneReport s) := by
  obtain ⟨stat, _, lnk⟩ := linkSame_laneReport (s := s)
  exact ⟨⟨s.tim, ((NoticeOnly.refl s).put (Fld.LNK_CNTn_COUNT.i 11) _).raise (by decide) _ _⟩, by rw [lnk], by rw [lnk], stat⟩

theorem Switched.refl (s : State) : Switched s s := ⟨.refl s, rfl, rfl, rfl⟩

theorem Switched.trans (first : Switched s t) (second : Switched t u) : Switched s u :=
  ⟨first.data.trans second.data, second.rx.trans first.rx, second.tx.trans first.tx, second.stat.trans first.stat⟩

theorem switchLane_cases (tx : Bool) (n : Nat) (s : State) : switchLane tx n s = s ∨ ∃ m f u, m ≠ Reg.LNK_STAT ∧ f.reg ≠ Reg.LNK_STAT
    ∧ (switchLane tx n s = laneMoved tx m f u s ∨ switchLane tx n s = laneReport (laneMoved tx m f u s)) := by
  have map : (if tx then Reg.LNK_LANEMAP_TX else Reg.LNK_LANEMAP_RX) ≠ Reg.LNK_STAT := by cases tx <;> decide
  have spare : (if tx then Fld.LNK_AUXMAP_SPARE_TX else Fld.LNK_AUXMAP_SPARE_RX).reg ≠ Reg.LNK_STAT := by cases tx <;> decide
  rw [switchLane]
  rcases (if tx then s.lnk.subTx else s.lnk.subRx) with _ | u
  · exact .inl rfl
  · dsimp only
    rw [← laneMoved]
    split
    · exact .inl rfl
    · refine .inr ⟨_, _, u, map, spare, ?_⟩
      split
      · exact .inl rfl
      · exact .inr rfl

theorem switched_switchLane (tx : Bool) (n : Nat) (s : State) : Switched s (switchLane tx n s) := by
  rcases switchLane_cases tx n s with is | ⟨m, f, u, map, spare, is | is⟩
  · rw [is]
    exact .refl s
  · rw [is]
    exact switched_laneMoved tx map spare u s
  · rw [is]
    exact (switched_laneMoved tx map spare u s).trans (switched_laneReport _)

/-- The state in which a codeword is taken: its markers judged and its symbols counted. -/
def rxCounted (lanes : List (List Nat)) (u : State) : State :=
  let s' := match inPair (cwSyms (u.flag Fld.LNK_STAT_SEVEN_RX)) u.lnk.rx.syms with
    | some second => checkMarkers second lanes u
    | none => u
  if s'.lnk.rx.up then pastCodeword lanes s' else s'

theorem trainData_rxCounted (lanes : List (List Nat)) (u : State) : TrainData u (rxCounted lanes u) := by
  have judged : TrainData u (match inPair (cwSyms (u.flag Fld.LNK_STAT_SEVEN_RX)) u.lnk.rx.syms with
      | some second => checkMarkers second lanes u
      | none => u) := by
    split
    · exact trainData_checkMarkers ..
    · exact .refl u
  rw [rxCounted]
  exact .ite _ (judged.lnk _) judged

/-- Outside a marker pair a codeword is counted and nothing else. -/
theorem rxCounted_plain {lanes : List (List Nat)} (plain : inPair (cwSyms (u.flag Fld.LNK_STAT_SEVEN_RX)) u.lnk.rx.syms = none) (up : u.lnk.rx.up = true) :
    rxCounted lanes u = pastCodeword lanes u := by
  rw [rxCounted, plain]
  dsimp only
  rw [if_pos up]

/-! ### A lost codeword -/

/-- The link's data once a codeword is lost. -/
def Lnk.losing (l : Lnk) (n : Nat) : Lnk :=
  { l with runLost := if l.subRx.isSome then 0 else l.runLost + 1, nak := if l.lossRun && l.nak.isSome then l.nak else some (n, 64),
           hold := some ((l.hold.map Prod.fst).getD ((n + 65535) % 65536), 64), lossRun := true }

theorem breakPartials_leaves (s : State) : ∃ regs partials, breakPartials s = { s with regs := regs, lnk := { s.lnk with partials := partials } } := by
  rw [breakPartials, State.add_eq]
  exact ⟨_, _, rfl⟩

/-- A substitution whose target was lost is asked for again (R201). -/
def askAgain (n : Nat) (o : Option Subst) (s : State) : State :=
  match o with
  | some u => if u.tgt = n then
      let u' := { u with tgt := (n + 1024) % 65536, moved := false }
      s.setLnk { s.lnk with subRx := some u', lm := s.lnk.lm ++ [⟨1, u.failed * 16 + u.spare, u'.tgt, 16⟩] }
    else s
  | none => s

theorem loseCodeword_eq (n : Nat) (s : State) : loseCodeword n s = askAgain n (breakPartials s).lnk.subRx
    (((breakPartials s).inc (Fld.LNK_CNTn_COUNT.i (if (breakPartials s).lnk.subRx.isSome then 2 else 1))).setLnk ((breakPartials s).lnk.losing n)) := by
  unfold loseCodeword askAgain Lnk.losing
  rfl

theorem askAgain_leaves (n : Nat) (o : Option Subst) (s : State) : ∃ subRx lm, askAgain n o s = s.setLnk { s.lnk with subRx := subRx, lm := lm } := by
  have same : s = s.setLnk { s.lnk with subRx := s.lnk.subRx, lm := s.lnk.lm } := rfl
  rcases o with _ | u
  · exact ⟨_, _, same⟩
  · rw [askAgain]
    split
    · exact ⟨_, _, rfl⟩
    · exact ⟨_, _, same⟩

theorem loseCodeword_leaves (n : Nat) (s : State) : ∃ regs lnk, loseCodeword n s = { s with regs := regs, lnk := lnk } ∧ lnk.lossRun = true ∧ lnk.rx = s.lnk.rx := by
  obtain ⟨regs, partials, broken⟩ := breakPartials_leaves s
  have is := loseCodeword_eq n s
  obtain ⟨b, named⟩ : ∃ b, breakPartials s = b := ⟨_, rfl⟩
  rw [named] at is broken
  have rx : b.lnk.rx = s.lnk.rx := by rw [broken]
  have frame (r : RegFile) (x : Lnk) : ({ b with regs := r, lnk := x } : State) = { s with regs := r, lnk := x } := by rw [broken]
  have losing : (b.lnk.losing n).lossRun = true ∧ (b.lnk.losing n).rx = s.lnk.rx := ⟨rfl, rx⟩
  obtain ⟨l, lost⟩ : ∃ l, b.lnk.losing n = l := ⟨_, rfl⟩
  obtain ⟨r, counted⟩ : ∃ r, b.inc (Fld.LNK_CNTn_COUNT.i (if b.lnk.subRx.isSome then 2 else 1)) = { b with regs := r } := ⟨_, State.inc_eq ..⟩
  rw [counted, lost] at is
  rw [lost] at losing
  obtain ⟨subRx, lm, asked⟩ := askAgain_leaves n b.lnk.subRx (({ b with regs := r } : State).setLnk l)
  rw [asked] at is
  exact ⟨r, { l with subRx := subRx, lm := lm }, is.trans (frame r _), losing.1, losing.2⟩

/-! ### A decoded codeword -/

/-- A count of codewords left, one down. -/
def lessOne (x : Option (Nat × Nat)) : Option (Nat × Nat) := x.bind fun p => if p.2 ≤ 1 then none else some (p.1, p.2 - 1)

/-- The link's data once codeword `n` is decoded. -/
def Lnk.decoding (l : Lnk) (n now : Nat) : Lnk :=
  { l with nak := lessOne l.nak, hold := lessOne l.hold, lossRun := false, runLost := 0, lastOk := n, lastDecode := now, rx := { l.rx with cseq := (n + 1) % 65536 } }

/-- A substitution that has taken place is told to the partner (R201). -/
def tellDone (o : Option Subst) (s : State) : State :=
  match o with
  | some u => if u.moved then
      s.setLnk { s.lnk with subRx := none, lm := s.lnk.lm ++ [⟨2, u.failed * 16 + u.spare, u.tgt, 1⟩] } else s
  | none => s

theorem cellOnly_tellDone (o : Option Subst) (s : State) : CellOnly s (tellDone o s) := by
  rcases o with _ | u
  · exact .refl s
  · exact .ite _ (.lnk (.refl s) rfl rfl) (.refl s)

/-- Corrected symbol errors counted for the codeword and for its positions (R179). -/
def corrected (corr : List Nat) (map : Nat) (s : State) : State :=
  (List.range 8).foldl (fun s j => s.add (Fld.LNK_PLANEn_SERR.i (map / 16 ^ j % 16 % 9)) (corr.getD j 0)) s

theorem regs_corrected (corr : List Nat) (map : Nat) (s : State) : ∃ l, corrected corr map s = { s with regs := l } := by
  have fold (l : List Nat) (t : State) : ∃ r, l.foldl (fun s j => s.add (Fld.LNK_PLANEn_SERR.i (map / 16 ^ j % 16 % 9)) (corr.getD j 0)) t = { t with regs := r } := by
    induction l generalizing t with
    | nil => exact ⟨t.regs, rfl⟩
    | cons j l ih =>
      obtain ⟨r, is⟩ := ih (t.add (Fld.LNK_PLANEn_SERR.i (map / 16 ^ j % 16 % 9)) (corr.getD j 0))
      rw [List.foldl_cons, is, State.add_eq]
      exact ⟨r, rfl⟩
  exact fold _ s

/-- A decoded codeword before its link-control field and its cells. -/
def decodeNoted (n : Nat) (corr : List Nat) (s : State) : State :=
  let s := if corr.sum = 0 then s else s.inc (Fld.LNK_CNTn_COUNT.i 0)
  let s := corrected corr (s.rd Reg.LNK_LANEMAP_RX).toNat s
  let s := s.setLnk (s.lnk.decoding n s.now)
  tellDone s.lnk.subRx s

theorem decodeCodeword_eq (n : Nat) (marker : Bool) (b corr : List Nat) (s : State) : ∃ k, decodeCodeword n marker b corr s =
    ((List.range 9).filterMap fun i => cellOf ((b.drop (66 * i)).take 66)).foldl receiveCell
      (if marker then decodeNoted k corr s else takeControl (b.drop 594) (decodeNoted k corr s)) := by
  refine ⟨if marker then n else beNat (((b.drop 594).drop 4).take 2), ?_⟩
  unfold decodeCodeword decodeNoted corrected Lnk.decoding tellDone lessOne
  rfl

/-- What a decoded codeword leaves before its link-control field. -/
theorem decodeNoted_leaves (k : Nat) (corr : List Nat) (s : State) : (decodeNoted k corr s).lnk.lossRun = false ∧ (decodeNoted k corr s).lnk.lastDecode = s.now
    ∧ ∃ regs lnk port, decodeNoted k corr s = { s with regs := regs, lnk := lnk, port := port } := by
  obtain ⟨a, first⟩ : ∃ a, (if corr.sum = 0 then s else s.inc (Fld.LNK_CNTn_COUNT.i 0)) = { s with regs := a } := by
    split
    · exact ⟨s.regs, rfl⟩
    · exact ⟨_, State.inc_eq ..⟩
  obtain ⟨r, second⟩ := regs_corrected corr (({ s with regs := a } : State).rd Reg.LNK_LANEMAP_RX).toNat { s with regs := a }
  have is : decodeNoted k corr s = tellDone (s.lnk.decoding k s.now).subRx (({ s with regs := r } : State).setLnk (s.lnk.decoding k s.now)) := by
    rw [decodeNoted, first, second]
    rfl
  have told := cellOnly_tellDone (s.lnk.decoding k s.now).subRx (({ s with regs := r } : State).setLnk (s.lnk.decoding k s.now))
  rw [← is] at told
  refine ⟨told.loss.trans rfl, told.decode.trans rfl, ?_⟩
  obtain ⟨regs, lnk, port, frame⟩ := told.frame
  exact ⟨regs, lnk, port, frame.trans rfl⟩

/-- A decoded codeword ends a run of lost ones and is the last that was decoded. -/
theorem decodeCodeword_leaves (n : Nat) (marker : Bool) (b corr : List Nat) (s : State) : (decodeCodeword n marker b corr s).lnk.lossRun = false
    ∧ (decodeCodeword n marker b corr s).lnk.lastDecode = s.now ∧ TrainData s (decodeCodeword n marker b corr s)
    ∧ (marker = false → (b.drop 594).getD 0 0 % 16 = 0 → ∃ regs lnk port, decodeCodeword n marker b corr s = { s with regs := regs, lnk := lnk, port := port }) := by
  obtain ⟨k, is⟩ := decodeCodeword_eq n marker b corr s
  obtain ⟨loss, decode, regs, lnk, port, frame⟩ := decodeNoted_leaves k corr s
  have noted : TrainData s (decodeNoted k corr s) := by
    rw [frame]
    exact ⟨s.tim, _, _, _, _, _, rfl⟩
  rw [is]
  have cells (t : State) := CellOnly.foldl cellOnly_receiveCell ((List.range 9).filterMap fun i => cellOf ((b.drop (66 * i)).take 66)) t
  obtain ⟨heard, plain⟩ := takeControl_kept (b.drop 594) (decodeNoted k corr s)
  cases marker
  · rw [if_neg Bool.false_ne_true]
    have all := heard.trans (cells _).hearKept
    refine ⟨all.loss.trans loss, all.decode.trans decode, noted.trans all.frame, fun _ none => ?_⟩
    obtain ⟨regs', lnk', port', same⟩ := ((plain none).trans (cells _)).frame
    rw [same, frame]
    exact ⟨_, _, _, rfl⟩
  · rw [if_pos rfl]
    have all := (cells (decodeNoted k corr s)).hearKept
    exact ⟨all.loss.trans loss, all.decode.trans decode, noted.trans all.frame, fun e => nomatch e⟩

end

end Sys2Proof.Machine
end

section
/-!
PROOFS. Codewords transmitted (R177, R184, R188); the settlement of O23.
-/

namespace Sys2Proof.Machine

section
variable {s t u : State}

/-! ### A received codeword -/

section
variable {low : List (List Nat)} {d8 : List Nat} {t0 : Nat}

theorem exec_codewordReceived_lost (up : s.lnk.rx.up = true) (awake : s.get Fld.LNK_STAT_STATE ≠ 3) (lost : (switchLane false s.lnk.rx.cseq (s.at t0)).rxDecode (positions low d8) = none) :
    exec (.codewordReceived low d8 t0) s = .next (loseCodeword s.lnk.rx.cseq (rxCounted (positions low d8) (switchLane false s.lnk.rx.cseq (s.at t0)))) := by
  show execCodewordReceived low d8 t0 s = _
  rw [execCodewordReceived]
  dsimp only
  rw [if_neg awake, if_pos up, lost, rxCounted] <;> rfl

theorem exec_codewordReceived_decoded (up : s.lnk.rx.up = true) (awake : s.get Fld.LNK_STAT_STATE ≠ 3) {b : List Nat × List Nat}
    (decoded : (switchLane false s.lnk.rx.cseq (s.at t0)).rxDecode (positions low d8) = some b) :
    exec (.codewordReceived low d8 t0) s = .next (decodeCodeword s.lnk.rx.cseq
      (inPair (cwSyms ((switchLane false s.lnk.rx.cseq (s.at t0)).flag Fld.LNK_STAT_SEVEN_RX)) (switchLane false s.lnk.rx.cseq (s.at t0)).lnk.rx.syms).isSome b.1 b.2
      (rxCounted (positions low d8) (switchLane false s.lnk.rx.cseq (s.at t0)))) := by
  show execCodewordReceived low d8 t0 s = _
  rw [execCodewordReceived]
  dsimp only
  rw [if_neg awake, if_pos up, decoded, rxCounted] <;> rfl

/-- What a lost codeword leaves. -/
theorem lost_leaves (lanes : List (List Nat)) (up : s.lnk.rx.up = true) (switched : Switched (s.at t0) u) {t : State} (is : t = loseCodeword s.lnk.rx.cseq (rxCounted lanes u)) :
    t.lnk.lossRun = true ∧ t.mem = s.mem ∧ t.eff = s.eff ∧ (inPair (cwSyms (u.flag Fld.LNK_STAT_SEVEN_RX)) u.lnk.rx.syms = none →
      t.lnk.rx.cseq = (s.lnk.rx.cseq + 1) % 65536 ∧ t = { u with regs := t.regs, lnk := t.lnk }) := by
  obtain ⟨regs, lnk, frame, loss, rx⟩ := loseCodeword_leaves s.lnk.rx.cseq (rxCounted lanes u)
  obtain ⟨mem, eff, _⟩ := (switched.data.trans (trainData_rxCounted lanes u)).kept
  rw [frame] at is
  rw [is]
  refine ⟨loss, mem, eff, fun plain => ?_⟩
  have past := rxCounted_plain (lanes := lanes) plain (by rw [switched.rx]; exact up)
  rw [past] at rx
  refine ⟨?_, ?_⟩
  · show lnk.rx.cseq = _
    rw [rx, pastCodeword, State.setLnk_lnk]
    dsimp only
    rw [switched.rx]
    rfl
  · rw [past]
    rfl

/-- What a decoded codeword leaves. -/
theorem decoded_leaves (lanes : List (List Nat)) (up : s.lnk.rx.up = true) (switched : Switched (s.at t0) u) {b : List Nat × List Nat} {t : State}
    (is : t = decodeCodeword s.lnk.rx.cseq (inPair (cwSyms (u.flag Fld.LNK_STAT_SEVEN_RX)) u.lnk.rx.syms).isSome b.1 b.2 (rxCounted lanes u)) :
    t.lnk.lossRun = false ∧ t.lnk.lastDecode = max s.now t0 ∧ t.mem = s.mem ∧ t.eff = s.eff ∧ (inPair (cwSyms (u.flag Fld.LNK_STAT_SEVEN_RX)) u.lnk.rx.syms = none →
      b.1.getD 594 0 % 16 = 0 → t = { u with regs := t.regs, lnk := t.lnk, port := t.port }) := by
  obtain ⟨loss, decode, data, plainly⟩ := decodeCodeword_leaves s.lnk.rx.cseq (inPair (cwSyms (u.flag Fld.LNK_STAT_SEVEN_RX)) u.lnk.rx.syms).isSome b.1 b.2 (rxCounted lanes u)
  have before := switched.data.trans (trainData_rxCounted lanes u)
  obtain ⟨mem, eff, _⟩ := (before.trans data).kept
  rw [← is] at loss decode mem eff plainly
  refine ⟨loss, decode.trans before.kept.2.2, mem, eff, fun plain none => ?_⟩
  have past := rxCounted_plain (lanes := lanes) plain (by rw [switched.rx]; exact up)
  have first : (b.1.drop 594).getD 0 0 = b.1.getD 594 0 := by
    rw [List.getD_eq_getElem?_getD, List.getD_eq_getElem?_getD, List.getElem?_drop]
  obtain ⟨regs, lnk, port, frame⟩ := plainly (by rw [plain]; rfl) (by rw [first]; exact none)
  rw [frame, past]
  rfl

end

/-! ### The replay timeout -/

/-- A replay of everything: the count changes the registers alone. -/
theorem replay_counted (s : State) : ∃ regs, startReplay (fun _ => true) s =
    { s.setLnk { s.lnk with replay := s.lnk.unacked.filter (fun p => true || s.lnk.replay.contains p) } with regs := regs } := by
  rw [startReplay, State.add_eq]
  exact ⟨_, rfl⟩

theorem gives_replayTimeout (waits : s.lnk.unacked ≠ []) : Gives .replayTimeout s fun t => t.lnk.replay = s.lnk.unacked
    ∧ t.now = max s.now (s.lnk.ackAt + 10 * max 1 (s.get Fld.LNK_CTRL_REPLAY_TO) * usU) ∧ t.lnk.ackAt = t.now ∧ t = { s with now := t.now, regs := t.regs, lnk := t.lnk } := by
  obtain ⟨due, is⟩ : ∃ due, s.lnk.ackAt + 10 * max 1 (s.get Fld.LNK_CTRL_REPLAY_TO) * usU = due := ⟨_, rfl⟩
  have ran : exec .replayTimeout s = .next (startReplay (fun _ => true) ((s.at due).setLnk { s.lnk with ackAt := max s.now due })) := by
    show execReplayTimeout s = _
    rw [execReplayTimeout, is, if_neg (by rwa [List.isEmpty_iff])]
    rfl
  obtain ⟨regs, replayed⟩ : ∃ regs, startReplay (fun _ => true) ((s.at due).setLnk { s.lnk with ackAt := max s.now due }) =
      { s with now := max s.now due, regs := regs, lnk := { s.lnk with ackAt := max s.now due, replay := s.lnk.unacked } } := by
    have all : s.lnk.unacked.filter (fun p => true || s.lnk.replay.contains p) = s.lnk.unacked := List.filter_eq_self.2 fun _ _ => rfl
    obtain ⟨regs, counted⟩ := replay_counted ((s.at due).setLnk { s.lnk with ackAt := max s.now due })
    refine ⟨regs, counted.trans ?_⟩
    rw [State.setLnk, State.setLnk]
    dsimp only
    rw [all]
    rfl
  rw [replayed] at ran
  rw [is]
  exact Gives.of_eq ran ⟨rfl, rfl, rfl, rfl⟩

/-! ### Cells out (R184, R188) -/

/-- What filling a codeword leaves of the link: the transmit direction, its state word, time, stores and what has left the part. -/
structure SendKept (s t : State) : Prop where
  tx : t.lnk.tx = s.lnk.tx
  stat : t.rd Reg.LNK_STAT = s.rd Reg.LNK_STAT
  now : t.now = s.now
  mem : t.mem = s.mem
  out : t.out = s.out

theorem SendKept.refl (s : State) : SendKept s s := ⟨rfl, rfl, rfl, rfl, rfl⟩

theorem SendKept.trans (first : SendKept s t) (second : SendKept t u) : SendKept s u :=
  ⟨second.tx.trans first.tx, second.stat.trans first.stat, second.now.trans first.now, second.mem.trans first.mem, second.out.trans first.out⟩

theorem SendKept.put (same : SendKept s t) {f : Field} (v : Nat) (other : Reg.LNK_STAT ≠ f.reg) : SendKept s (t.put f v) :=
  ⟨by rw [State.put_lnk, same.tx], by rw [State.rd_put_ne _ _ other, same.stat], by rw [State.put_now, same.now], by rw [State.put_mem, same.mem], by rw [State.put_out, same.out]⟩

theorem SendKept.lnk (same : SendKept s t) {l : Lnk} (tx : l.tx = t.lnk.tx) : SendKept s (t.setLnk l) := ⟨tx.trans same.tx, same.stat, same.now, same.mem, same.out⟩

theorem SendKept.port (same : SendKept s t) (p : Port) : SendKept s { t with port := p } := ⟨same.tx, same.stat, same.now, same.mem, same.out⟩

theorem SendKept.ite (c : Prop) [Decidable c] (yes : SendKept s t) (no : SendKept s u) : SendKept s (if c then t else u) := by
  split
  · exact yes
  · exact no

theorem flowStat_apart (f : Nat) : Reg.LNK_STAT ≠ (Fld.LNK_FLOWf_STAT_CREDIT.i f).reg := by
  show 0x40A0014 ≠ 0x40A2004 + f * 8
  omega

theorem sendKept_sendNew (n f : Nat) (s : State) : SendKept s (sendNew n f s).2 := by
  rw [sendNew]
  split
  · exact .refl s
  · dsimp only
    refine SendKept.lnk ?_ rfl
    have staged : SendKept s (({ s with port := { s.port with staged := eraseFirst (fun (x : Cell) => x.flow == f) s.port.staged } } : State).put (Fld.LNK_FLOWf_STAT_STAGED.i f)
        (({ s with port := { s.port with staged := eraseFirst (fun (x : Cell) => x.flow == f) s.port.staged } } : State).get (Fld.LNK_FLOWf_STAT_STAGED.i f) - 1)) :=
      .put (.port (.refl s) _) _ (flowStat_apart f)
    exact .ite _ (.put staged _ (flowStat_apart f)) staged

theorem sendKept_sendAgain (n : Nat) (p : Nat × Cell) (s : State) : SendKept s (sendAgain n p s).2 := .lnk (.refl s) rfl

theorem sendKept_fillSlot (n : Nat) (s : State) : SendKept s (fillSlot n s).2 := by
  unfold fillSlot
  extract_lets flows pick
  have picked (r : Nat) (a : List Nat × State) (some_ : pick r = some a) : SendKept s a.2 := by
    dsimp only [pick] at some_
    split at some_
    · rw [← Option.some.inj some_]
      exact sendKept_sendAgain ..
    · obtain ⟨f, _, is⟩ := Option.map_eq_some_iff.1 some_
      rw [← is]
      exact sendKept_sendNew ..
  clear_value pick
  rcases found : (List.range 5).findSome? pick with _ | a
  · exact .refl s
  · obtain ⟨r, _, is⟩ := List.exists_of_findSome?_eq_some found
    exact picked r a is

theorem sendKept_fillSlots (n k : Nat) (s : State) : SendKept s (fillSlots n k s).2 := by
  induction k generalizing s with
  | zero => exact .refl s
  | succ k ih => exact (sendKept_fillSlot n s).trans (ih _)

theorem sendKept_grantCredits (s : State) : SendKept s (grantCredits s).2 := by
  rw [grantCredits]
  split
  · exact .refl s
  · exact .lnk (.refl s) rfl

theorem sendKept_controlBytes (n : Nat) (s : State) : SendKept s (controlBytes n s).2 := by
  have taken (l : List LmReq) : SendKept s (s.setLnk { s.lnk with lm := l }) := .lnk (.refl s) rfl
  exact (taken _).trans (sendKept_grantCredits _)

/-- A message staged while the link is not in L1. -/
theorem sendKept_stageNow (f : Nat) (b : List Nat) (awake : s.get Fld.LNK_STAT_STATE ≠ 3) : SendKept s (s.stageNow f b) := by
  rw [State.stageNow, leaveL1_of_other awake]
  exact .put (.port (.refl s) _) _ (flowStat_apart f)

theorem sendKept_stageWaiting (awake : s.get Fld.LNK_STAT_STATE ≠ 3) : SendKept s (stageWaiting s) := by
  have state {t : State} (kept : SendKept s t) : t.get Fld.LNK_STAT_STATE ≠ 3 := by
    have same : t.get Fld.LNK_STAT_STATE = s.get Fld.LNK_STAT_STATE := congrArg (getBits Fld.LNK_STAT_STATE) kept.stat
    rwa [same]
  have fold (l : List FlowMsg) (t : State) (kept : SendKept s t) : SendKept s (l.foldl (fun s m =>
      if s.port.waiting.any (fun x => x.flow == m.flow) && s.room m.flow ((m.bytes.length + 63) / 64)
          && (s.port.waiting.find? fun x => x.flow == m.flow) == some m then
        State.stageNow { s with port := { s.port with waiting := eraseFirst (fun x => x == m) s.port.waiting } } m.flow m.bytes
      else s) t) := by
    induction l generalizing t with
    | nil => exact kept
    | cons m l ih =>
      have left : SendKept s { t with port := { t.port with waiting := eraseFirst (fun x => x == m) t.port.waiting } } := kept.port _
      exact ih _ (.ite _ (left.trans (sendKept_stageNow _ _ (state left))) kept)
  exact fold _ s (.refl s)

/-! ### A transmitted codeword -/

/-- The cells of a codeword: nine slots, idle while the direction trains. -/
def cellsOut (n : Nat) (s : State) : List (List Nat) × State := if s.lnk.tx.up then fillSlots n 9 s else (List.replicate 9 idleBytes, s)

/-- The last bytes of a codeword: a marker, or the link control. -/
def controlOut (n : Nat) (len : Nat) (d : LinkDir) (seven : Bool) (s : State) : List Nat × State :=
  match inPair len d.syms with
  | some second => (markerBytes seven second, s)
  | none => controlBytes n s

/-- The transmit direction past a codeword. -/
def pastSent (n len : Nat) (old d : LinkDir) (pre : List Nat) : LinkDir :=
  { d with
    syms := old.syms + len
    cseq := (n + 1) % 65536
    next := old.next + len * symbolU
    pre := pre
    phase := if old.up then 0 else 5
    fec := if old.up then 0 else old.fec + 1 }

/-- The codeword `n` sent from `s`, with the cells `c` and the last bytes `lc`. -/
def codewordSent (n : Nat) (old : LinkDir) (len : Nat) (lanes : List (Nat × List Nat) × List Nat) (c : List (List Nat)) (lc : List Nat) (s : State) : State :=
  (s.setLnk { s.lnk with tx := pastSent n len old s.lnk.tx lanes.2 }).emit (.codeword c lc (inPair len old.syms).isSome lanes.1)

/-- The state past a codeword sent from `s`. -/
def codewordOut (n : Nat) (s : State) : State :=
  let len := cwSyms (s.flag Fld.LNK_STAT_SEVEN_TX)
  let cells := cellsOut n s
  let lc := controlOut n len s.lnk.tx (s.flag Fld.LNK_STAT_SEVEN_TX) cells.2
  stageWaiting (codewordSent n s.lnk.tx len (s.txLanes (cells.1.flatten ++ lc.1)) cells.1 lc.1 lc.2)

theorem exec_codewordTransmit (sends : s.sendsCodewords = true) :
    exec .codewordTransmit s = .next (codewordOut s.lnk.tx.cseq (switchLane true s.lnk.tx.cseq (s.at s.lnk.tx.next))) := by
  show execCodewordTransmit s = _
  rw [execCodewordTransmit, sends]
  rfl

theorem sendKept_cellsOut (n : Nat) (s : State) : SendKept s (cellsOut n s).2 := by
  rw [cellsOut]
  split
  · exact sendKept_fillSlots n 9 s
  · exact .refl s

theorem cellsOut_training (n : Nat) (training : s.lnk.tx.up = false) : (cellsOut n s).1 = List.replicate 9 idleBytes := by
  rw [cellsOut, if_neg (by rw [training]; exact Bool.false_ne_true)]

theorem sendKept_controlOut (n len : Nat) (d : LinkDir) (seven : Bool) (s : State) : SendKept s (controlOut n len d seven s).2 := by
  rw [controlOut]
  split
  · exact .refl s
  · exact sendKept_controlBytes n s

/-- What the codeword `n` sent from `s` leaves: its cells stand in what has left the part, its direction is past it, time and stores are kept. -/
theorem codewordOut_leaves (n : Nat) (awake : s.get Fld.LNK_STAT_STATE ≠ 3) :
    ∃ lc lanes pre, .codeword (cellsOut n s).1 lc (inPair (cwSyms (s.flag Fld.LNK_STAT_SEVEN_TX)) s.lnk.tx.syms).isSome lanes ∈ (codewordOut n s).out
      ∧ (codewordOut n s).lnk.tx = pastSent n (cwSyms (s.flag Fld.LNK_STAT_SEVEN_TX)) s.lnk.tx s.lnk.tx pre
      ∧ (codewordOut n s).now = s.now ∧ (codewordOut n s).mem = s.mem := by
  rw [codewordOut]
  obtain ⟨len, isLen⟩ : ∃ len, cwSyms (s.flag Fld.LNK_STAT_SEVEN_TX) = len := ⟨_, rfl⟩
  rw [isLen]
  have kept := (sendKept_cellsOut n s).trans (sendKept_controlOut n len s.lnk.tx (s.flag Fld.LNK_STAT_SEVEN_TX) _)
  obtain ⟨lc, isLc⟩ : ∃ lc, controlOut n len s.lnk.tx (s.flag Fld.LNK_STAT_SEVEN_TX) (cellsOut n s).2 = lc := ⟨_, rfl⟩
  rw [isLc] at kept ⊢
  obtain ⟨lanes, isLanes⟩ : ∃ lanes, s.txLanes ((cellsOut n s).1.flatten ++ lc.1) = lanes := ⟨_, rfl⟩
  rw [isLanes]
  obtain ⟨v, isV⟩ : ∃ v, codewordSent n s.lnk.tx len lanes (cellsOut n s).1 lc.1 lc.2 = v := ⟨_, rfl⟩
  have tx : v.lnk.tx = pastSent n len s.lnk.tx s.lnk.tx lanes.2 := by
    rw [← isV, codewordSent]
    show pastSent n len s.lnk.tx lc.2.lnk.tx lanes.2 = _
    rw [kept.tx]
  have state : v.get Fld.LNK_STAT_STATE = s.get Fld.LNK_STAT_STATE := by
    have same : v.rd Reg.LNK_STAT = s.rd Reg.LNK_STAT := by
      rw [← isV]
      exact kept.stat
    exact congrArg (getBits Fld.LNK_STAT_STATE) same
  have left : Out.codeword (cellsOut n s).1 lc.1 (inPair len s.lnk.tx.syms).isSome lanes.1 ∈ v.out := by
    rw [← isV]
    exact List.mem_cons_self
  have now : v.now = s.now := by
    rw [← isV]
    exact kept.now
  have mem : v.mem = s.mem := by
    rw [← isV]
    exact kept.mem
  have staged := sendKept_stageWaiting (s := v) (by rwa [state])
  rw [isV]
  exact ⟨lc.1, lanes.1, lanes.2, by rwa [staged.out], staged.tx.trans tx, staged.now.trans now, staged.mem.trans mem⟩

/-- A codeword sent: what its next state keeps and what it moves on. -/
theorem gives_codewordTransmit (sends : s.sendsCodewords = true) (awake : s.get Fld.LNK_STAT_STATE ≠ 3) :
    Gives .codewordTransmit s fun t => ∃ c lc mk lanes pre, .codeword c lc mk lanes ∈ t.out ∧ (s.lnk.tx.up = false → c = List.replicate 9 idleBytes)
      ∧ t.lnk.tx = pastSent s.lnk.tx.cseq (cwSyms (s.flag Fld.LNK_STAT_SEVEN_TX)) s.lnk.tx s.lnk.tx pre ∧ t.now = max s.now s.lnk.tx.next ∧ t.mem = s.mem := by
  refine ⟨_, exec_codewordTransmit sends, ?_⟩
  have switched := switched_switchLane true s.lnk.tx.cseq (s.at s.lnk.tx.next)
  obtain ⟨u, isU⟩ : ∃ u, switchLane true s.lnk.tx.cseq (s.at s.lnk.tx.next) = u := ⟨_, rfl⟩
  rw [isU] at switched ⊢
  obtain ⟨memU, _, nowU⟩ := switched.data.kept
  have tx : u.lnk.tx = s.lnk.tx := switched.tx
  have state : u.get Fld.LNK_STAT_STATE = s.get Fld.LNK_STAT_STATE := congrArg (getBits Fld.LNK_STAT_STATE) switched.stat
  have seven : u.flag Fld.LNK_STAT_SEVEN_TX = s.flag Fld.LNK_STAT_SEVEN_TX := by
    rw [State.flag, State.flag, show u.get Fld.LNK_STAT_SEVEN_TX = s.get Fld.LNK_STAT_SEVEN_TX from congrArg (getBits Fld.LNK_STAT_SEVEN_TX) switched.stat]
  obtain ⟨lc, lanes, pre, left, past, now, mem⟩ := codewordOut_leaves (s := u) s.lnk.tx.cseq (by rwa [state])
  rw [tx, seven] at past
  exact ⟨_, lc, _, lanes, pre, left, fun training => cellsOut_training _ (by rw [tx]; exact training), past, now.trans nowU, mem.trans memU⟩

/-! ### The settlement -/

/-- Settles O23, by what the switch of a lane, the count of a codeword, its decoding and the filling of the next one each leave of the link. -/
theorem codewords : Obligations.Codewords := by
  refine ⟨?_, ?_, ?_, ?_⟩
  · intro s low d8 t0 up awake
    dsimp only
    have switched := switched_switchLane false s.lnk.rx.cseq (s.at t0)
    rcases decoded : (switchLane false s.lnk.rx.cseq (s.at t0)).rxDecode (positions low d8) with _ | b
    · exact ⟨_, exec_codewordReceived_lost up awake decoded, fun _ => lost_leaves (positions low d8) up switched rfl, fun _ none => nomatch none⟩
    · refine ⟨_, exec_codewordReceived_decoded up awake decoded, nofun, fun a is => ?_⟩
      rw [← Option.some.inj is]
      exact decoded_leaves (positions low d8) up switched rfl
  · exact fun s waits => gives_replayTimeout waits
  · intro s up awake free
    have sends : s.sendsCodewords = true := by
      rw [State.sendsCodewords, if_pos up, Bool.and_eq_true, bne_iff_ne, bne_iff_ne]
      exact ⟨awake, free⟩
    obtain ⟨t, ran, c, lc, mk, lanes, pre, left, _, past, now, mem⟩ := gives_codewordTransmit sends awake
    exact ⟨t, ran, by rw [past]; rfl, now, by rw [past]; rfl, ⟨c, lc, mk, lanes, left⟩, mem⟩
  · intro s training state phase lock
    have sends : s.sendsCodewords = true := by
      rw [State.sendsCodewords, if_neg (by rw [training]; exact Bool.false_ne_true), State.flag, state, lock, decide_eq_true phase]
      rfl
    obtain ⟨t, ran, c, lc, mk, lanes, pre, left, idle, past, now, mem⟩ := gives_codewordTransmit sends (by rw [state]; decide)
    rw [idle training] at left
    refine ⟨t, ran, ?_, ?_, by rw [past]; rfl, now, ⟨lc, mk, lanes, left⟩, mem⟩
    · rw [past, pastSent, training]
      rfl
    · rw [past, pastSent, training]
      rfl

end

end Sys2Proof.Machine
end

section
/-!
PROOFS. Lane management and lane failures (R200 to R205).
-/

namespace Sys2Proof.Machine

section
variable {s t u : State}

/-! ### A direction trained afresh -/

/-- What a training of the directions `tx` and `rx` leaves. -/
structure Retrained (tx rx : Bool) (s t : State) : Prop where
  state : t.get Fld.LNK_STAT_STATE = 1
  txUp : t.lnk.tx.up = (!tx && s.lnk.tx.up)
  rxUp : t.lnk.rx.up = (!rx && s.lnk.rx.up)
  only : TrainOnly s t

theorem retrained_startTraining (tx rx : Bool) (s : State) : Retrained tx rx s (startTraining tx rx s) := by
  obtain ⟨state, txUp, rxUp, _⟩ := startTraining_link tx rx s
  exact ⟨state, txUp, rxUp, trainOnly_startTraining tx rx⟩

theorem retrained_retrain (tx rx : Bool) (s : State) : Retrained tx rx s (retrain tx rx s) := by
  obtain ⟨state, txUp, rxUp, _⟩ := retrained_startTraining tx rx s
  have reported : LinkSame (startTraining tx rx s) (retrain tx rx s) := linkSame_laneReport
  obtain ⟨_, _, lnk⟩ := id reported
  exact ⟨(reported.get (.inl rfl)).trans state, by rw [lnk, txUp], by rw [lnk, rxUp], trainOnly_retrain tx rx⟩

theorem Retrained.lnk {tx rx : Bool} (trained : Retrained tx rx s t) {l : Lnk} (txUp : l.tx.up = t.lnk.tx.up) (rxUp : l.rx.up = t.lnk.rx.up) : Retrained tx rx s (t.setLnk l) :=
  ⟨by rw [State.get_setLnk, trained.state], txUp.trans trained.txUp, rxUp.trans trained.rxUp, trained.only.lnk l⟩

theorem retrained_rxRetrain (arg : Nat) (s : State) : Retrained false true s (rxRetrain arg s) := by
  have trained := retrained_retrain false true s
  rw [rxRetrain]
  obtain ⟨v, isV⟩ : ∃ v, retrain false true s = v := ⟨_, rfl⟩
  rw [isV] at trained ⊢
  have repaired := trained.lnk (l := { v.lnk with repair := true }) rfl rfl
  dsimp only
  split
  · exact repaired.lnk rfl rfl
  · exact repaired

theorem Retrained.frame {tx rx : Bool} (trained : Retrained tx rx s t) : t.now = s.now ∧ t.mem = s.mem := by
  obtain ⟨_, _, _, _, _, _, rfl⟩ := trained.only.frame
  exact ⟨rfl, rfl⟩

/-! ### Registers and the link's data alone -/

/-- Registers of the list and the link's working data. -/
structure LinkOnly (l : List Nat) (s t : State) : Prop where
  frame : ∃ regs lnk, t = { s with regs := regs, lnk := lnk }
  regs : SameRegs l s t

theorem LinkOnly.refl (l : List Nat) (s : State) : LinkOnly l s s := ⟨⟨s.regs, s.lnk, rfl⟩, .refl l s⟩

theorem LinkOnly.trans {l : List Nat} (first : LinkOnly l s t) (second : LinkOnly l t u) : LinkOnly l s u := by
  refine ⟨?_, first.regs.trans second.regs⟩
  obtain ⟨_, _, rfl⟩ := first.frame
  obtain ⟨_, _, rfl⟩ := second.frame
  exact ⟨_, _, rfl⟩

theorem LinkOnly.mono {l m : List Nat} (same : LinkOnly l s t) (more : ∀ a ∈ l, a ∈ m) : LinkOnly m s t := ⟨same.frame, same.regs.mono more⟩

theorem LinkOnly.put {l : List Nat} (same : LinkOnly l s t) {f : Field} (listed : f.reg ∈ l) (v : Nat) : LinkOnly l s (t.put f v) := by
  refine same.trans ⟨?_, (SameRegs.refl l t).put listed v⟩
  rw [State.put_eq]
  exact ⟨_, _, rfl⟩

theorem LinkOnly.lnk {l : List Nat} (same : LinkOnly l s t) (x : Lnk) : LinkOnly l s (t.setLnk x) := same.trans ⟨⟨t.regs, x, rfl⟩, .refl l t⟩

theorem LinkOnly.kept {l : List Nat} (same : LinkOnly l s t) : t.now = s.now ∧ t.mem = s.mem := by
  obtain ⟨_, _, rfl⟩ := same.frame
  exact ⟨rfl, rfl⟩

theorem LinkOnly.eq {l : List Nat} (same : LinkOnly l s t) : t = { s with regs := t.regs, lnk := t.lnk } := by
  obtain ⟨_, _, rfl⟩ := same.frame
  rfl

/-! ### A lane that fails (R200, R201) -/

section
variable {p : Fin 9}

/-- The lane `p` shown as failed. -/
def laneShown (p : Fin 9) (s : State) : State := ((s.put (Fld.LNK_PLANEn_FAILED.i p) 1).put (Fld.LNK_PLANEn_CDR.i p) 0).put (Fld.LNK_PLANEn_MARK.i p) 0

theorem laneShown_kept (p : Fin 9) (s : State) : LinkOnly [(Fld.LNK_PLANEn_FAILED.i p).reg] s (laneShown p s) ∧ (laneShown p s).lnk = s.lnk
    ∧ (laneShown p s).get (Fld.LNK_PLANEn_FAILED.i p) = 1 := by
  have failed : (Fld.LNK_PLANEn_FAILED.i p).reg ∈ [(Fld.LNK_PLANEn_FAILED.i p).reg] := .head _
  have cdr : (Fld.LNK_PLANEn_CDR.i p).reg ∈ [(Fld.LNK_PLANEn_FAILED.i p).reg] := List.mem_singleton.2 (Field.reg_i _ rfl rfl)
  have mark : (Fld.LNK_PLANEn_MARK.i p).reg ∈ [(Fld.LNK_PLANEn_FAILED.i p).reg] := List.mem_singleton.2 (Field.reg_i _ rfl rfl)
  rw [laneShown]
  refine ⟨.put (.put (.put (.refl _ s) failed 1) cdr 0) mark 0, ?_, ?_⟩
  · rw [State.put_lnk, State.put_lnk, State.put_lnk]
  · rw [State.get_put_ne _ _ (by exact (by decide : 29 + 1 ≤ 32)) (.inr (by exact (by decide : 29 + 1 ≤ 31))), State.get_put_ne _ _ (by exact (by decide : 30 + 1 ≤ 32)) (.inr (by exact (by decide : 30 + 1 ≤ 31))),
      State.get_put_same _ _ _ (by exact (by decide : 31 + 1 ≤ 32))]
    rfl

theorem plane_apart (p : Fin 9) {a : Nat} (low : a < 0x40A0040 ∨ 0x40A0068 ≤ a) : a ∉ [(Fld.LNK_PLANEn_FAILED.i p).reg] := by
  have at_ : (Fld.LNK_PLANEn_FAILED.i p).reg = 0x40A0040 + p.val * 4 := rfl
  rw [List.mem_singleton, at_]
  have := p.isLt
  omega

theorem moveLost_kept (s : State) : LinkOnly [Reg.LNK_CNTn + 4, Reg.LNK_CNTn + 8] s (moveLost s) ∧ (moveLost s).lnk = { s.lnk with runLost := 0 } ∧ (moveLost s).now = s.now := by
  have one : (Fld.LNK_CNTn_COUNT.i 1).reg ∈ [Reg.LNK_CNTn + 4, Reg.LNK_CNTn + 8] := .head _
  have two : (Fld.LNK_CNTn_COUNT.i 2).reg ∈ [Reg.LNK_CNTn + 4, Reg.LNK_CNTn + 8] := .tail _ (.head _)
  have counted (v w : Nat) : ((s.put (Fld.LNK_CNTn_COUNT.i 1) v).put (Fld.LNK_CNTn_COUNT.i 2) w).lnk = s.lnk := by rw [State.put_lnk, State.put_lnk]
  have only : LinkOnly [Reg.LNK_CNTn + 4, Reg.LNK_CNTn + 8] s (moveLost s) := .lnk (.put (.put (.refl _ s) one _) two _) _
  refine ⟨only, ?_, only.kept.1⟩
  rw [moveLost, State.add, State.setLnk_lnk, counted]

/-- The partner asked to move the lane `p` to the spare. -/
def substitutionAsked (p spare : Nat) (s : State) : State :=
  sendLm 1 (p * 16 + spare) ((s.lnk.lastOk + 1024) % 65536) (s.setLnk { s.lnk with subRx := some ⟨p, spare, (s.lnk.lastOk + 1024) % 65536, s.now, false, false⟩ })

/-- The failure noted for the next one (R203). -/
def failureNoted (p : Fin 9) (s : State) : State := (laneShown p s).setLnk { (laneShown p s).lnk with failedAt := [(laneShown p s).now] }

theorem laneShown_rx (p : Fin 9) (s : State) : (laneShown p s).get Fld.LNK_AUXMAP_SPARE_RX = s.get Fld.LNK_AUXMAP_SPARE_RX ∧ (laneShown p s).rd Reg.LNK_LANEMAP_RX = s.rd Reg.LNK_LANEMAP_RX :=
  have shown := (laneShown_kept p s).1.regs
  ⟨shown.get (plane_apart p (.inl (by decide))), shown _ (plane_apart p (.inl (by decide)))⟩

theorem failLane_substitutes (up : s.lnk.rx.up = true) (txUp : s.lnk.tx.up = true) (other : s.get Fld.LNK_AUXMAP_SPARE_RX ≠ p.val) (free : s.get Fld.LNK_AUXMAP_SPARE_RX ≠ 15)
    (uses : usesPos (s.rd Reg.LNK_LANEMAP_RX).toNat p = true) (none : s.lnk.subRx = none) (first : s.lnk.failedAt = []) :
    failLane p s = substitutionAsked p (s.get Fld.LNK_AUXMAP_SPARE_RX) (moveLost (failureNoted p s)) := by
  obtain ⟨_, lnk, _⟩ := laneShown_kept p s
  obtain ⟨spare, map⟩ := laneShown_rx p s
  rw [failLane, failureNoted]
  rw [show ((s.put (Fld.LNK_PLANEn_FAILED.i p) 1).put (Fld.LNK_PLANEn_CDR.i p) 0).put (Fld.LNK_PLANEn_MARK.i p) 0 = laneShown p s from rfl]
  obtain ⟨v, named⟩ : ∃ v, laneShown p s = v := ⟨_, rfl⟩
  rw [named] at lnk spare map ⊢
  dsimp only
  rw [spare, map, uses, lnk, up, none, first, if_neg (by decide), if_neg (by simp), if_neg (by simp), if_neg other, if_neg (by simp [State.setLnk_lnk, txUp, free])]
  rfl

/-- With no spare left a failed data lane trains the receive direction afresh. -/
theorem failLane_retrains (up : s.lnk.rx.up = true) (noSpare : s.get Fld.LNK_AUXMAP_SPARE_RX = 15) (uses : usesPos (s.rd Reg.LNK_LANEMAP_RX).toNat p = true) :
    failLane p s = rxRetrain (p * 16) (moveLost (failureNoted p s)) := by
  obtain ⟨_, lnk, _⟩ := laneShown_kept p s
  obtain ⟨spare, map⟩ := laneShown_rx p s
  have other : 15 ≠ p.val := by have := p.isLt; omega
  rw [failLane, failureNoted]
  rw [show ((s.put (Fld.LNK_PLANEn_FAILED.i p) 1).put (Fld.LNK_PLANEn_CDR.i p) 0).put (Fld.LNK_PLANEn_MARK.i p) 0 = laneShown p s from rfl]
  obtain ⟨v, named⟩ : ∃ v, laneShown p s = v := ⟨_, rfl⟩
  rw [named] at lnk spare map ⊢
  dsimp only
  rw [spare, map, uses, lnk, up, noSpare, if_neg (by decide), if_neg (by simp), if_neg other, if_pos (Or.inl rfl), ite_self]

theorem failureNoted_kept (p : Fin 9) (s : State) : LinkOnly [(Fld.LNK_PLANEn_FAILED.i p).reg] s (failureNoted p s) ∧ (failureNoted p s).get (Fld.LNK_PLANEn_FAILED.i p) = 1
    ∧ (failureNoted p s).lnk.lastOk = s.lnk.lastOk ∧ (failureNoted p s).now = s.now ∧ (failureNoted p s).mem = s.mem := by
  obtain ⟨shown, lnk, failed⟩ := laneShown_kept p s
  rw [failureNoted]
  obtain ⟨v, isV⟩ : ∃ v, laneShown p s = v := ⟨_, rfl⟩
  rw [isV] at shown lnk failed ⊢
  refine ⟨shown.lnk _, (State.get_setLnk v _ _).trans failed, ?_, shown.kept.1, shown.kept.2⟩
  rw [State.setLnk_lnk, lnk]

theorem gives_laneSubstituted {t0 : Nat} (up : s.lnk.rx.up = true) (txUp : s.lnk.tx.up = true) (other : s.get Fld.LNK_AUXMAP_SPARE_RX ≠ p.val) (free : s.get Fld.LNK_AUXMAP_SPARE_RX ≠ 15)
    (uses : usesPos (s.rd Reg.LNK_LANEMAP_RX).toNat p = true) (none : s.lnk.subRx = none) (first : s.lnk.failedAt = []) :
    Gives (.laneFailure p t0) s fun t => t.get (Fld.LNK_PLANEn_FAILED.i p) = 1
      ∧ t.lnk.subRx = some ⟨p.val, s.get Fld.LNK_AUXMAP_SPARE_RX, (s.lnk.lastOk + 1024) % 65536, max s.now t0, false, false⟩
      ∧ t = { s with now := max s.now t0, regs := t.regs, lnk := t.lnk } ∧ SameRegs [(Fld.LNK_PLANEn_FAILED.i p).reg, Reg.LNK_CNTn + 4, Reg.LNK_CNTn + 8] s t := by
  refine ⟨_, congrArg Host.Outcome.next (failLane_substitutes (s := s.at t0) up txUp other free uses none first), ?_⟩
  obtain ⟨noted, failed, ok, now, _⟩ := failureNoted_kept p (s.at t0)
  obtain ⟨v, named⟩ : ∃ v, failureNoted p (s.at t0) = v := ⟨_, rfl⟩
  rw [named] at noted failed ok now ⊢
  obtain ⟨moved, lnk, same⟩ := moveLost_kept v
  have stillFailed : (moveLost v).get (Fld.LNK_PLANEn_FAILED.i p) = 1 := by
    refine (moved.regs.get ?_).trans failed
    show 0x40A0040 + p.val * 4 ∉ [0x40A0104, 0x40A0108]
    have := p.isLt
    simp only [List.mem_cons, List.not_mem_nil, or_false, not_or]
    omega
  have both := (noted.mono fun _ listed => List.mem_of_mem_head? (l := [(Fld.LNK_PLANEn_FAILED.i p).reg, Reg.LNK_CNTn + 4, Reg.LNK_CNTn + 8]) (by rw [List.mem_singleton.1 listed]; rfl)).trans
    (moved.mono fun _ listed => List.mem_cons_of_mem _ listed)
  obtain ⟨w, isW⟩ : ∃ w, moveLost v = w := ⟨_, rfl⟩
  rw [isW] at lnk same stillFailed both ⊢
  have last : w.lnk.lastOk = s.lnk.lastOk := by
    rw [lnk]
    exact ok
  have asked : LinkOnly [(Fld.LNK_PLANEn_FAILED.i p).reg, Reg.LNK_CNTn + 4, Reg.LNK_CNTn + 8] (s.at t0) (substitutionAsked p (s.get Fld.LNK_AUXMAP_SPARE_RX) w) := (both.lnk _).lnk _
  refine ⟨stillFailed, ?_, asked.eq, asked.regs⟩
  show some (⟨p.val, s.get Fld.LNK_AUXMAP_SPARE_RX, (w.lnk.lastOk + 1024) % 65536, w.now, false, false⟩ : Subst) = _
  rw [last, same, now]
  rfl

theorem gives_laneLost {t0 : Nat} (up : s.lnk.rx.up = true) (noSpare : s.get Fld.LNK_AUXMAP_SPARE_RX = 15) (uses : usesPos (s.rd Reg.LNK_LANEMAP_RX).toNat p = true) :
    Gives (.laneFailure p t0) s fun t => t.get Fld.LNK_STAT_STATE = 1 ∧ t.lnk.rx.up = false ∧ t.now = max s.now t0 ∧ t.mem = s.mem := by
  refine ⟨_, congrArg Host.Outcome.next (failLane_retrains (s := s.at t0) up noSpare uses), ?_⟩
  obtain ⟨_, _, _, now, mem⟩ := failureNoted_kept p (s.at t0)
  obtain ⟨moved, moved'⟩ := (moveLost_kept (failureNoted p (s.at t0))).1.kept
  have trained := retrained_rxRetrain (p * 16) (moveLost (failureNoted p (s.at t0)))
  obtain ⟨now', mem'⟩ := trained.frame
  exact ⟨trained.state, trained.rxUp, (now'.trans moved).trans now, (mem'.trans moved').trans mem⟩

end

/-! ### The clock lane (R202, R204) -/

theorem gives_lmClock {arg : Nat} (up : s.lnk.tx.up = true) (low : arg % 16 ≤ 9) (other : s.get Fld.LNK_AUXMAP_CLK_TX ≠ arg % 16) :
    Gives (.lmSubstituteClockLane arg) s fun t => t.get Fld.LNK_AUXMAP_CLK_TX = arg % 16 ∧ t.get Fld.LNK_STAT_STATE = 1 ∧ t.lnk.tx.up = false ∧ t.mem = s.mem := by
  refine ⟨lmClock arg s, rfl, ?_⟩
  have moved : (s.put Fld.LNK_AUXMAP_CLK_TX (arg % 16)).get Fld.LNK_AUXMAP_CLK_TX = arg % 16 := by
    rw [State.get_put_same _ _ _ (by decide)]
    exact Nat.mod_eq_of_lt (Nat.lt_of_le_of_lt low (by decide))
  have kept : LinkOnly [Reg.LNK_AUXMAP] s (s.put Fld.LNK_AUXMAP_CLK_TX (arg % 16)) := .put (.refl _ s) (show Fld.LNK_AUXMAP_CLK_TX.reg ∈ [Reg.LNK_AUXMAP] from .head _) _
  rw [lmClock]
  dsimp only
  rw [if_neg (by rw [up]; simpa [other] using low)]
  obtain ⟨v, isV⟩ : ∃ v, s.put Fld.LNK_AUXMAP_CLK_TX (arg % 16) = v := ⟨_, rfl⟩
  rw [isV] at moved kept ⊢
  have settled : (if v.get Fld.LNK_AUXMAP_SPARE_TX = arg % 16 then v.put Fld.LNK_AUXMAP_SPARE_TX 15 else v).get Fld.LNK_AUXMAP_CLK_TX = arg % 16
      ∧ (if v.get Fld.LNK_AUXMAP_SPARE_TX = arg % 16 then v.put Fld.LNK_AUXMAP_SPARE_TX 15 else v).mem = s.mem := by
    split
    · exact ⟨(State.get_put_ne _ _ (by decide) (.inl (by decide))).trans moved, by rw [State.put_mem]; exact kept.kept.2⟩
    · exact ⟨moved, kept.kept.2⟩
  have trained := retrained_retrain true false (if v.get Fld.LNK_AUXMAP_SPARE_TX = arg % 16 then v.put Fld.LNK_AUXMAP_SPARE_TX 15 else v)
  exact ⟨(trained.only.get (by decide)).trans settled.1, trained.state, trained.txUp, trained.frame.2.trans settled.2⟩

/-- The clock moved to the position `new`, the receive direction trained afresh and the partner told. -/
def clockMoved (up : Bool) (clk new : Nat) (s : State) : State :=
  let s := retrain false true ((s.put Fld.LNK_AUXMAP_CLK_RX new).put Fld.LNK_AUXMAP_SPARE_RX 15)
  let s := s.setLnk { s.lnk with repair := true }
  if up then sendLm 3 (clk * 16 + new) 0 s else s

theorem retrained_clockMoved (up : Bool) (clk new : Nat) (s : State) : Retrained false true ((s.put Fld.LNK_AUXMAP_CLK_RX new).put Fld.LNK_AUXMAP_SPARE_RX 15) (clockMoved up clk new s) := by
  have trained := retrained_retrain false true ((s.put Fld.LNK_AUXMAP_CLK_RX new).put Fld.LNK_AUXMAP_SPARE_RX 15)
  rw [clockMoved]
  obtain ⟨v, isV⟩ : ∃ v, retrain false true ((s.put Fld.LNK_AUXMAP_CLK_RX new).put Fld.LNK_AUXMAP_SPARE_RX 15) = v := ⟨_, rfl⟩
  rw [isV] at trained ⊢
  dsimp only
  split
  · exact (trained.lnk rfl rfl).lnk rfl rfl
  · exact trained.lnk rfl rfl

theorem exec_clockLaneFailure {t0 : Nat} (up : s.lnk.rx.up = true) (free : s.get Fld.LNK_AUXMAP_SPARE_RX ≠ 15) :
    ∃ w, LinkOnly [(Fld.LNK_PLANEn_FAILED.i (s.get Fld.LNK_AUXMAP_CLK_RX)).reg, Reg.LNK_CNTn + 4, Reg.LNK_CNTn + 8] (s.at t0) w
      ∧ exec (.clockLaneFailure t0) s = .next (clockMoved w.lnk.tx.up (s.get Fld.LNK_AUXMAP_CLK_RX) (s.get Fld.LNK_AUXMAP_SPARE_RX) w) := by
  obtain ⟨clk, isClk⟩ : ∃ clk, s.get Fld.LNK_AUXMAP_CLK_RX = clk := ⟨_, rfl⟩
  have shown : LinkOnly [(Fld.LNK_PLANEn_FAILED.i clk).reg, Reg.LNK_CNTn + 4, Reg.LNK_CNTn + 8] (s.at t0) ((s.at t0).put (Fld.LNK_PLANEn_FAILED.i clk) 1) :=
    .put (.refl _ _) (.head _) 1
  have lnk : ((s.at t0).put (Fld.LNK_PLANEn_FAILED.i clk) 1).lnk = s.lnk := by
    rw [State.put_lnk]
    rfl
  have ran : exec (.clockLaneFailure t0) s = execClockLaneFailure t0 s := rfl
  rw [ran, execClockLaneFailure]
  dsimp only
  rw [show (s.at t0).get Fld.LNK_AUXMAP_CLK_RX = clk from isClk, isClk]
  obtain ⟨v, isV⟩ : ∃ v, (s.at t0).put (Fld.LNK_PLANEn_FAILED.i clk) 1 = v := ⟨_, rfl⟩
  rw [isV] at shown lnk ⊢
  obtain ⟨moved, _, _⟩ := moveLost_kept v
  have both := shown.trans (moved.mono fun _ listed => List.mem_cons_of_mem _ listed)
  have spare : (moveLost v).get Fld.LNK_AUXMAP_SPARE_RX = s.get Fld.LNK_AUXMAP_SPARE_RX := by
    refine (both.regs.get ?_).trans rfl
    show 0x40A0028 ∉ [0x40A0040 + clk * 4, 0x40A0104, 0x40A0108]
    simp only [List.mem_cons, List.not_mem_nil, or_false, not_or]
    omega
  refine ⟨moveLost v, both, ?_⟩
  rw [lnk, up, spare, if_neg (by decide), if_neg free, clockMoved]

theorem gives_clockLaneFailure {t0 : Nat} (up : s.lnk.rx.up = true) (free : s.get Fld.LNK_AUXMAP_SPARE_RX ≠ 15) :
    Gives (.clockLaneFailure t0) s fun t => t.get Fld.LNK_AUXMAP_CLK_RX = s.get Fld.LNK_AUXMAP_SPARE_RX ∧ t.get Fld.LNK_STAT_STATE = 1
      ∧ t.lnk.rx.up = false ∧ t.now = max s.now t0 ∧ t.mem = s.mem := by
  obtain ⟨w, only, ran⟩ := exec_clockLaneFailure (t0 := t0) up free
  refine ⟨_, ran, ?_⟩
  have trained := retrained_clockMoved w.lnk.tx.up (s.get Fld.LNK_AUXMAP_CLK_RX) (s.get Fld.LNK_AUXMAP_SPARE_RX) w
  obtain ⟨now, mem⟩ := trained.frame
  rw [State.put_now, State.put_now] at now
  rw [State.put_mem, State.put_mem] at mem
  refine ⟨?_, trained.state, trained.rxUp, now.trans (only.kept.1), mem.trans (only.kept.2)⟩
  have small : s.get Fld.LNK_AUXMAP_SPARE_RX < 2 ^ 4 := State.get_lt s Fld.LNK_AUXMAP_SPARE_RX
  rw [trained.only.get (by decide), State.get_put_ne _ _ (by decide) (.inl (by decide)), State.get_put_same _ _ _ (by decide)]
  exact Nat.mod_eq_of_lt small

/-! ### The switch of a lane (R201) -/

theorem switchLane_tx {u : Subst} (sub : s.lnk.subTx = some u) (waits : u.moved = false) (due : u.tgt = s.lnk.tx.cseq) :
    switchLane true s.lnk.tx.cseq s = if u.counted then laneMoved true Reg.LNK_LANEMAP_TX Fld.LNK_AUXMAP_SPARE_TX u s else laneReport (laneMoved true Reg.LNK_LANEMAP_TX Fld.LNK_AUXMAP_SPARE_TX u s) := by
  rw [switchLane, if_pos rfl, sub]
  dsimp only
  rw [if_neg (by rw [waits, due]; simp)]
  rfl

theorem switchLane_rx {u : Subst} (sub : s.lnk.subRx = some u) (waits : u.moved = false) (due : u.tgt = s.lnk.rx.cseq) :
    switchLane false s.lnk.rx.cseq s = if u.counted then laneMoved false Reg.LNK_LANEMAP_RX Fld.LNK_AUXMAP_SPARE_RX u s else laneReport (laneMoved false Reg.LNK_LANEMAP_RX Fld.LNK_AUXMAP_SPARE_RX u s) := by
  rw [switchLane, if_neg Bool.false_ne_true, sub]
  dsimp only
  rw [if_neg (by rw [waits, due]; simp)]
  rfl

/-- The lane map, the spare and the link's data once a lane has moved. -/
theorem laneMoved_gives (tx : Bool) {m : Nat} {f : Field} (u : Subst) (fits : f.lo + f.width ≤ 32) (four : f.width = 4) (apart : m ≠ f.reg) (s : State) :
    (laneMoved tx m f u s).rd m = BitVec.ofNat 32 (replacePos (s.rd m).toNat u.failed u.spare) ∧ (laneMoved tx m f u s).get f = 15 ∧ (laneMoved tx m f u s).mem = s.mem := by
  have written : ((s.wr m (BitVec.ofNat 32 (replacePos (s.rd m).toNat u.failed u.spare))).put f 15).rd m = BitVec.ofNat 32 (replacePos (s.rd m).toNat u.failed u.spare) := by
    rw [State.rd_put_ne _ _ apart, State.rd_wr_same]
  have spare : ((s.wr m (BitVec.ofNat 32 (replacePos (s.rd m).toNat u.failed u.spare))).put f 15).get f = 15 := by
    rw [State.get_put_same _ _ _ fits, four]
    rfl
  have mem : ((s.wr m (BitVec.ofNat 32 (replacePos (s.rd m).toNat u.failed u.spare))).put f 15).mem = s.mem := by
    rw [State.put_mem, State.wr_mem]
  rw [laneMoved]
  obtain ⟨v, isV⟩ : ∃ v, (s.wr m (BitVec.ofNat 32 (replacePos (s.rd m).toNat u.failed u.spare))).put f 15 = v := ⟨_, rfl⟩
  rw [isV] at written spare mem ⊢
  exact ⟨(State.rd_congr (by rw [State.setLnk]) _).trans written, (State.get_setLnk v _ _).trans spare, mem⟩

theorem laneMoved_tx_lnk (m : Nat) (f : Field) (u : Subst) (s : State) : (laneMoved true m f u s).lnk.subTx = some { u with moved := true, counted := true } := rfl

theorem laneMoved_rx_lnk (m : Nat) (f : Field) (u : Subst) (s : State) : (laneMoved false m f u s).lnk.subRx = some { u with moved := true, counted := true } := rfl

/-- A lane report leaves the lane maps and the link's data. -/
theorem laneReport_kept (s : State) : TrainOnly s (laneReport s) ∧ (laneReport s).lnk = s.lnk :=
  ⟨((TrainOnly.refl s).inc (by decide)).raise (by decide) _ _, linkSame_laneReport.2.2⟩

theorem laneSwitched {tx : Bool} {m : Nat} {f : Field} {u : Subst} (fits : f.lo + f.width ≤ 32) (four : f.width = 4) (apart : m ≠ f.reg) (map : trainTouches m = false)
    (aux : trainTouches f.reg = false) (s : State) {t : State} (is : t = if u.counted then laneMoved tx m f u s else laneReport (laneMoved tx m f u s)) :
    t.rd m = BitVec.ofNat 32 (replacePos (s.rd m).toNat u.failed u.spare) ∧ t.get f = 15 ∧ t.mem = s.mem ∧ t.lnk = (laneMoved tx m f u s).lnk := by
  obtain ⟨written, spare, mem⟩ := laneMoved_gives tx u fits four apart s
  rw [is]
  split
  · exact ⟨written, spare, mem, rfl⟩
  · obtain ⟨only, lnk⟩ := laneReport_kept (laneMoved tx m f u s)
    exact ⟨(only.regs m map).trans written, (only.get aux).trans spare, (congrArg State.mem only.eq).trans mem, lnk⟩

end

end Sys2Proof.Machine
end

section
/-!
PROOFS. Link power states and the Lanied PLL (R206, R336); the settlement of O24.
-/

namespace Sys2Proof.Machine

section
variable {s t u : State}

/-! ### Entering L1 -/

/-- The link without its credits' capacities and without an agreed L1. -/
def l1Left (s : State) : State := ((s.put Fld.LNK_CAP_CAP_TX 0).put Fld.LNK_CAP_CAP_RX 0).setLnk { s.lnk with l1 := none }

theorem setBits_caps (w : Word) : setBits Fld.LNK_CAP_CAP_RX (setBits Fld.LNK_CAP_CAP_TX w 0) 0 = 0#32 := by
  have bound := w.isLt
  have tx := setBits_toNat Fld.LNK_CAP_CAP_TX w 0 (by decide)
  have rx := setBits_toNat Fld.LNK_CAP_CAP_RX (setBits Fld.LNK_CAP_CAP_TX w 0) 0 (by decide)
  rw [tx] at rx
  simp only [Fld.LNK_CAP_CAP_TX, Fld.LNK_CAP_CAP_RX] at rx
  refine BitVec.eq_of_toNat_eq (rx.trans ?_)
  show _ = 0
  omega

theorem l1Left_cap (s : State) : (l1Left s).rd Reg.LNK_CAP = 0#32 := by
  have rx := State.rd_put_same (s.put Fld.LNK_CAP_CAP_TX 0) Fld.LNK_CAP_CAP_RX 0
  have tx := State.rd_put_same s Fld.LNK_CAP_CAP_TX 0
  have same : (l1Left s).rd Reg.LNK_CAP = ((s.put Fld.LNK_CAP_CAP_TX 0).put Fld.LNK_CAP_CAP_RX 0).rd Reg.LNK_CAP := State.rd_congr (by rw [l1Left, State.setLnk]) _
  exact (same.trans rx).trans ((congrArg (fun w => setBits Fld.LNK_CAP_CAP_RX w 0) tx).trans (setBits_caps _))

theorem l1Left_only (s : State) : TrainOnly s (l1Left s) := (((TrainOnly.refl s).put 0 (by decide)).put 0 (by decide)).lnk _

theorem exec_l1Entry (up : s.linkUp = true) (due : s.lnk.l1 = some s.lnk.tx.cseq) :
    exec .l1Entry s = .next (((setLink 3 (l1Left s)).breakAllLocks [5]).emit (.forwarded (((setLink 3 (l1Left s)).breakAllLocks [5]).get Fld.LNK_AUXMAP_CLK_TX))) := by
  show execL1Entry s = _
  rw [execL1Entry, up, due, if_pos (by simp), l1Left]

theorem gives_l1Entry (up : s.linkUp = true) (due : s.lnk.l1 = some s.lnk.tx.cseq) :
    Gives .l1Entry s fun t => t.get Fld.LNK_STAT_STATE = 3 ∧ t.rd Reg.LNK_CAP = 0#32 ∧ t.lnk.l1 = none ∧ t.mem = s.mem ∧ t.now = s.now := by
  refine ⟨_, exec_l1Entry up due, ?_⟩
  have left := l1Left_only s
  have cap := l1Left_cap s
  have none : (l1Left s).lnk.l1 = none := rfl
  obtain ⟨v, isV⟩ : ∃ v, l1Left s = v := ⟨_, rfl⟩
  rw [isV] at left cap none ⊢
  have put : (v.put Fld.LNK_STAT_STATE 3).rd Reg.LNK_CAP = v.rd Reg.LNK_CAP := State.rd_put_ne _ _ (by decide)
  have link : LinkSame (v.put Fld.LNK_STAT_STATE 3) ((setLink 3 v).breakAllLocks [5]) := (setLink_link 3).trans (linkSame_breakAllLocks [5])
  have state : ((setLink 3 v).breakAllLocks [5]).get Fld.LNK_STAT_STATE = 3 := (link.get (.inl rfl)).trans (State.get_put_same _ _ _ (by decide))
  have only : TrainOnly s ((setLink 3 v).breakAllLocks [5]) := (left.trans (trainOnly_setLink 3)).trans (trainOnly_breakAllLocks [5])
  obtain ⟨_, sameCap, lnk⟩ := link
  obtain ⟨w, isW⟩ : ∃ w, (setLink 3 v).breakAllLocks [5] = w := ⟨_, rfl⟩
  rw [isW] at state only sameCap lnk ⊢
  have mem : w.mem = s.mem := (congrArg State.mem only.eq).trans rfl
  have now : w.now = s.now := (congrArg State.now only.eq).trans rfl
  refine ⟨state, (sameCap.trans put).trans cap, ?_, mem, now⟩
  show w.lnk.l1 = _
  rw [lnk, State.put_lnk, none]

/-! ### Leaving L1 -/

/-- The link's data once it has left L1. -/
def Lnk.l1Over (l : Lnk) (now : Nat) : Lnk :=
  { l with
    tx := { l.tx with syms := 0, next := now }
    rx := { l.rx with syms := 0 }
    lastDecode := now
    l1Seen := none }

theorem leaveL1_eq (state : s.get Fld.LNK_STAT_STATE = 3) : s.leaveL1 =
    (((s.put Fld.LNK_CAP_CAP_TX s.lnk.tx.cap).put Fld.LNK_CAP_CAP_RX s.lnk.rx.cap).setLnk (s.lnk.l1Over ((s.put Fld.LNK_CAP_CAP_TX s.lnk.tx.cap).put Fld.LNK_CAP_CAP_RX s.lnk.rx.cap).now)).put Fld.LNK_STAT_STATE 2 := by
  rw [State.leaveL1, if_pos state]
  rfl

theorem gives_l1Exit {t0 : Nat} (state : s.get Fld.LNK_STAT_STATE = 3) :
    Gives (.l1Exit t0) s fun t => t.get Fld.LNK_STAT_STATE = 2 ∧ t.lnk.tx.syms = 0 ∧ t.lnk.rx.syms = 0
      ∧ t = { s with now := max s.now t0, regs := t.regs, lnk := t.lnk } ∧ SameRegs [Reg.LNK_STAT, Reg.LNK_CAP] s t := by
  have ran : exec (.l1Exit t0) s = .next (s.at t0).leaveL1 := by
    show execL1Exit t0 s = _
    rw [execL1Exit, if_pos state]
  refine ⟨_, ran, ?_⟩
  rw [leaveL1_eq (s := s.at t0) state]
  have cap : Fld.LNK_CAP_CAP_TX.reg ∈ [Reg.LNK_STAT, Reg.LNK_CAP] := .tail _ (.head _)
  have caps : LinkOnly [Reg.LNK_STAT, Reg.LNK_CAP] (s.at t0) (((s.at t0).put Fld.LNK_CAP_CAP_TX (s.at t0).lnk.tx.cap).put Fld.LNK_CAP_CAP_RX (s.at t0).lnk.rx.cap) :=
    .put (.put (.refl _ _) cap _) (show Fld.LNK_CAP_CAP_RX.reg ∈ [Reg.LNK_STAT, Reg.LNK_CAP] from cap) _
  obtain ⟨v, isV⟩ : ∃ v, ((s.at t0).put Fld.LNK_CAP_CAP_TX (s.at t0).lnk.tx.cap).put Fld.LNK_CAP_CAP_RX (s.at t0).lnk.rx.cap = v := ⟨_, rfl⟩
  rw [isV] at caps ⊢
  have past := (caps.lnk ((s.at t0).lnk.l1Over v.now)).put (f := Fld.LNK_STAT_STATE) (.head _) 2
  refine ⟨State.get_put_same _ _ _ (by decide), ?_, ?_, past.eq, past.regs⟩
  · rw [State.put_lnk, State.setLnk_lnk, Lnk.l1Over]
  · rw [State.put_lnk, State.setLnk_lnk, Lnk.l1Over]

theorem gives_l2ClockDetect {t0 : Nat} (state : s.get Fld.LNK_STAT_STATE = 4) :
    Gives (.l2ClockDetect t0) s fun t => t.get Fld.LNK_STAT_STATE = 1 ∧ t.now = max s.now t0 ∧ t.mem = s.mem := by
  have ran : exec (.l2ClockDetect t0) s = .next (startTraining true true (s.at t0)) := by
    show execL2ClockDetect t0 s = _
    rw [execL2ClockDetect, if_pos state]
  have trained := retrained_startTraining true true (s.at t0)
  obtain ⟨now, mem⟩ := trained.frame
  exact ⟨_, ran, trained.state, now, mem⟩

/-! ### The Lanied PLL (R336) -/

/-- The loss of lock shown and notified. -/
def lockLost (s : State) : State := ((s.put Fld.CLK_LPLL_LOCK 0).put Fld.CLK_LPLL_LOL 1).raise 0x413 0xFF 0

theorem lockLost_kept (s : State) : (lockLost s).get Fld.CLK_LPLL_LOCK = 0 ∧ (lockLost s).get Fld.CLK_LPLL_LOL = 1 ∧ (lockLost s).lnk = s.lnk ∧ (lockLost s).mem = s.mem := by
  have lock : ((s.put Fld.CLK_LPLL_LOCK 0).put Fld.CLK_LPLL_LOL 1).get Fld.CLK_LPLL_LOCK = 0 := by
    rw [State.get_put_ne _ _ (by decide) (.inr (by decide)), State.get_put_same _ _ _ (by decide)]
    rfl
  have lol : ((s.put Fld.CLK_LPLL_LOCK 0).put Fld.CLK_LPLL_LOL 1).get Fld.CLK_LPLL_LOL = 1 := State.get_put_same _ _ _ (by decide)
  have lnk : ((s.put Fld.CLK_LPLL_LOCK 0).put Fld.CLK_LPLL_LOL 1).lnk = s.lnk := by rw [State.put_lnk, State.put_lnk]
  have mem : ((s.put Fld.CLK_LPLL_LOCK 0).put Fld.CLK_LPLL_LOL 1).mem = s.mem := by rw [State.put_mem, State.put_mem]
  rw [lockLost]
  obtain ⟨v, isV⟩ : ∃ v, (s.put Fld.CLK_LPLL_LOCK 0).put Fld.CLK_LPLL_LOL 1 = v := ⟨_, rfl⟩
  rw [isV] at lock lol lnk mem ⊢
  have raised := (TrainOnly.refl v).raise (num := 0x413) (by decide) 0xFF 0
  exact ⟨(raised.get (by decide)).trans lock, (raised.get (by decide)).trans lol,
    (linkSame_raise 0x413 0xFF 0 (by decide) (.inl (by decide))).2.2.trans lnk, (congrArg State.mem raised.eq).trans mem⟩

theorem gives_laniedPllLossOfLock (locked : s.get Fld.CLK_LPLL_LOCK = 1) :
    Gives .laniedPllLossOfLock s fun t => t.get Fld.CLK_LPLL_LOCK = 0 ∧ t.get Fld.CLK_LPLL_LOL = 1 ∧ t.lnk.tx.up = false ∧ t.mem = s.mem := by
  refine ⟨lpllLost s, rfl, ?_⟩
  obtain ⟨lock, lol, lnk, mem⟩ := lockLost_kept s
  have is : lpllLost s = if (lockLost s).lnk.tx.up || (lockLost s).get Fld.LNK_STAT_STATE == 1 then startTraining true false (lockLost s) else lockLost s := by
    rw [lpllLost, State.flag, locked, if_neg (by decide), ← lockLost]
  rw [is]
  obtain ⟨v, isV⟩ : ∃ v, lockLost s = v := ⟨_, rfl⟩
  rw [isV] at lock lol mem ⊢
  split
  · have trained := retrained_startTraining true false v
    exact ⟨(trained.only.get (by decide)).trans lock, (trained.only.get (by decide)).trans lol, trained.txUp, trained.frame.2.trans mem⟩
  · rename_i down
    rw [Bool.or_eq_true, not_or, Bool.not_eq_true] at down
    exact ⟨lock, lol, down.1, mem⟩

theorem gives_laniedPllLock {t0 : Nat} (on : s.pow.refOff = false) :
    Gives (.laniedPllLock t0) s fun t => t.get Fld.CLK_LPLL_LOCK = 1 ∧ t.now = max s.now t0 ∧ t.mem = s.mem := by
  have ran : exec (.laniedPllLock t0) s = .next (lpllLocked (s.at t0)) := by
    show execLaniedPllLock t0 s = _
    rw [execLaniedPllLock, on, if_neg Bool.false_ne_true]
  refine ⟨_, ran, ?_⟩
  have lock : ((s.at t0).put Fld.CLK_LPLL_LOCK 1).get Fld.CLK_LPLL_LOCK = 1 := State.get_put_same _ _ _ (by decide)
  have now : ((s.at t0).put Fld.CLK_LPLL_LOCK 1).now = max s.now t0 := by
    rw [State.put_now]
    rfl
  have mem : ((s.at t0).put Fld.CLK_LPLL_LOCK 1).mem = s.mem := by
    rw [State.put_mem]
    rfl
  rw [lpllLocked]
  obtain ⟨v, isV⟩ : ∃ v, (s.at t0).put Fld.CLK_LPLL_LOCK 1 = v := ⟨_, rfl⟩
  rw [isV] at lock now mem ⊢
  dsimp only
  split
  · have trained := retrained_retrain true true v
    exact ⟨(trained.only.get (by decide)).trans lock, trained.frame.1.trans now, trained.frame.2.trans mem⟩
  · exact ⟨lock, now, mem⟩

/-! ### Lane management (R200, R201, R206) -/

theorem exec_lmSubstituteDataLane {arg tgt : Nat} (up : s.lnk.tx.up = true) (ahead : 64 ≤ (tgt + 65536 - s.lnk.tx.cseq) % 65536)
    (near : (tgt + 65536 - s.lnk.tx.cseq) % 65536 < 32768) (uses : usesPos (s.rd Reg.LNK_LANEMAP_TX).toNat (arg / 16 % 16) = true)
    (spare : arg % 16 = s.get Fld.LNK_AUXMAP_SPARE_TX) (free : arg % 16 ≠ 15) :
    exec (.lmSubstituteDataLane arg tgt) s = .next (s.setLnk { s.lnk with subTx := some ⟨arg / 16 % 16, arg % 16, tgt % 65536, s.now, false, false⟩ }) := by
  show Host.Outcome.next (lmSubstitute arg tgt s) = _
  rw [lmSubstitute, up, uses, decide_eq_true ahead, decide_eq_true near, beq_iff_eq.2 spare, bne_iff_ne.2 free]
  rfl

theorem exec_lmSubstitutionDone {arg : Nat} {u : Subst} (sub : s.lnk.subTx = some u) (moved : u.moved = true) (is : u.failed = arg / 16 % 16) :
    exec (.lmSubstitutionDone arg) s = .next (s.setLnk { s.lnk with subTx := none }) := by
  show Host.Outcome.next (lmDone arg s) = _
  rw [lmDone, sub]
  dsimp only
  rw [moved, is, beq_self_eq_true]
  rfl

theorem gives_lmRetrain (up : s.lnk.tx.up = true) :
    Gives .lmRetrain s fun t => t.get Fld.LNK_STAT_STATE = 1 ∧ t.lnk.tx.up = false ∧ t.lnk.rx.up = s.lnk.rx.up ∧ t.mem = s.mem := by
  have ran : exec .lmRetrain s = .next (retrain true false s) := by
    show Host.Outcome.next (lmRetrain s) = _
    rw [lmRetrain, if_pos up]
  have trained := retrained_retrain true false s
  exact ⟨_, ran, trained.state, trained.txUp, trained.rxUp, trained.frame.2⟩

theorem gives_substitutionTimeout {u : Subst} (sub : s.lnk.subRx = some u) :
    Gives .substitutionTimeout s fun t => t.get Fld.LNK_STAT_STATE = 1 ∧ t.lnk.rx.up = false ∧ t.now = max s.now (u.at0 + 25 * usU) ∧ t.mem = s.mem := by
  have ran : exec .substitutionTimeout s = .next (rxRetrain (u.failed * 16) (s.at (u.at0 + 25 * usU))) := by
    show execSubstitutionTimeout s = _
    rw [execSubstitutionTimeout, sub]
  have trained := retrained_rxRetrain (u.failed * 16) (s.at (u.at0 + 25 * usU))
  obtain ⟨now, mem⟩ := trained.frame
  exact ⟨_, ran, trained.state, trained.rxUp, now, mem⟩

theorem gives_linkSilenceTimeout (up : s.get Fld.LNK_STAT_STATE = 2) :
    Gives .linkSilenceTimeout s fun t => t.get Fld.LNK_STAT_STATE = 1 ∧ t.lnk.tx.up = false ∧ t.lnk.rx.up = false
      ∧ t.now = max s.now (s.lnk.lastDecode + 100 * usU) ∧ t.mem = s.mem := by
  have ran : exec .linkSilenceTimeout s = .next (retrain true true (s.at (s.lnk.lastDecode + 100 * usU))) := by
    show execLinkSilenceTimeout s = _
    rw [execLinkSilenceTimeout, if_pos up]
  have trained := retrained_retrain true true (s.at (s.lnk.lastDecode + 100 * usU))
  obtain ⟨now, mem⟩ := trained.frame
  exact ⟨_, ran, trained.state, trained.txUp, trained.rxUp, now, mem⟩

theorem exec_lmL1Request {tgt : Nat} (up : s.linkUp = true) (new : s.lnk.l1Seen ≠ some tgt) : exec (.lmL1Request tgt) s = .next
    (if !s.port.staged.isEmpty || !s.lnk.unacked.isEmpty || (List.range 256).any (fun f => s.flag (Fld.LNK_FLOWf_CFG_EN.i f) && s.get (Fld.LNK_FLOWf_CFG_CLASS.i f) == 2)
      then sendLm 7 0 tgt (s.setLnk { s.lnk with l1Seen := some tgt })
      else sendLm 6 0 tgt (s.setLnk { s.lnk with l1Seen := some tgt, l1 := some tgt })) := by
  show Host.Outcome.next (lmL1 tgt s) = _
  rw [lmL1, up, if_neg (by simpa using new)]
  rfl

theorem gives_l1Granted {tgt : Nat} (up : s.linkUp = true) (new : s.lnk.l1Seen ≠ some tgt) (staged : s.port.staged = []) (acked : s.lnk.unacked = [])
    (quiet : ((List.range 256).any fun f => s.flag (Fld.LNK_FLOWf_CFG_EN.i f) && s.get (Fld.LNK_FLOWf_CFG_CLASS.i f) == 2) = false) :
    Gives (.lmL1Request tgt) s fun t => t.lnk.l1 = some tgt ∧ t.lnk.l1Seen = some tgt ∧ t = { s with lnk := t.lnk } := by
  have ran := exec_lmL1Request up new
  rw [staged, acked, quiet] at ran
  exact ⟨_, ran, rfl, rfl, rfl⟩

theorem gives_l1Denied {tgt : Nat} (up : s.linkUp = true) (new : s.lnk.l1Seen ≠ some tgt) (waits : s.port.staged ≠ [] ∨ s.lnk.unacked ≠ []) :
    Gives (.lmL1Request tgt) s fun t => t.lnk.l1 = s.lnk.l1 ∧ t.lnk.l1Seen = some tgt ∧ t = { s with lnk := t.lnk } := by
  have ran := exec_lmL1Request up new
  have busy : (!s.port.staged.isEmpty || !s.lnk.unacked.isEmpty) = true := by
    rw [Bool.or_eq_true, Bool.not_eq_true', Bool.not_eq_true', List.isEmpty_eq_false_iff, List.isEmpty_eq_false_iff]
    exact waits
  rw [busy, Bool.true_or, if_pos rfl] at ran
  exact ⟨_, ran, rfl, rfl, rfl⟩

theorem exec_lmL1Accept {tgt : Nat} (up : s.linkUp = true) (asked : s.get Fld.LNK_CTRL_PWRREQ = 1) :
    exec (.lmL1Accept tgt) s = .next (s.setLnk { s.lnk with l1 := some tgt }) := by
  show Host.Outcome.next (lmAccept tgt s) = _
  rw [lmAccept, up, asked]
  rfl

theorem gives_lmL1Refuse : Gives .lmL1Refuse s fun t => (∀ q ∈ t.lnk.lm, q.op ≠ 5) ∧ t.lnk.l1 = s.lnk.l1 ∧ t = { s with lnk := t.lnk } :=
  ⟨lmRefuse s, rfl, fun _ listed => bne_iff_ne.1 (List.mem_filter.1 listed).2, rfl, rfl⟩

end

/-! ### The settlement -/

/-- Settles O24, by what the training of a direction, the switch of a lane and the link's states each leave. -/
theorem linkLanesAndPower : Obligations.LinkLanesAndPower := by
  refine ⟨⟨?_, ?_, ?_, ?_, ?_, ?_, ?_, ?_, ?_, ?_, ?_⟩, ?_, ?_, ?_, ?_, ?_, ?_, ?_, ?_, ?_⟩
  · exact fun s arg tgt up ahead near uses spare free => exec_lmSubstituteDataLane up ahead near uses spare free
  · exact fun s arg u sub moved is => exec_lmSubstitutionDone sub moved is
  · exact fun s arg up low other => gives_lmClock up low other
  · exact fun s up => gives_lmRetrain up
  · exact fun s p t0 up txUp other free uses none first => gives_laneSubstituted up txUp other free uses none first
  · exact fun s p t0 up noSpare uses => gives_laneLost up noSpare uses
  · exact fun s t0 up free => gives_clockLaneFailure up free
  · intro s u sub waits due
    obtain ⟨map, spare, mem, lnk⟩ := laneSwitched (tx := true) (m := Reg.LNK_LANEMAP_TX) (f := Fld.LNK_AUXMAP_SPARE_TX) (by decide) rfl (by decide) (by decide) (by decide) s (switchLane_tx sub waits due)
    exact ⟨_, rfl, map, spare, by rw [show (if true = true then s.lnk.tx.cseq else s.lnk.rx.cseq) = s.lnk.tx.cseq from rfl, lnk, laneMoved_tx_lnk], mem⟩
  · intro s u sub waits due
    obtain ⟨map, spare, mem, lnk⟩ := laneSwitched (tx := false) (m := Reg.LNK_LANEMAP_RX) (f := Fld.LNK_AUXMAP_SPARE_RX) (by decide) rfl (by decide) (by decide) (by decide) s (switchLane_rx sub waits due)
    exact ⟨_, rfl, map, spare, by rw [show (if false = true then s.lnk.tx.cseq else s.lnk.rx.cseq) = s.lnk.rx.cseq from rfl, lnk, laneMoved_rx_lnk], mem⟩
  · exact fun s u sub => gives_substitutionTimeout sub
  · exact fun s up => gives_linkSilenceTimeout up
  · exact fun s tgt up new staged acked quiet => gives_l1Granted up new staged acked quiet
  · exact fun s tgt up new waits => gives_l1Denied up new waits
  · exact fun s tgt up asked => exec_lmL1Accept up asked
  · exact fun s => gives_lmL1Refuse
  · exact fun s up due => gives_l1Entry up due
  · exact fun s t0 state => gives_l1Exit state
  · exact fun s t0 state => gives_l2ClockDetect state
  · exact fun s locked => gives_laniedPllLossOfLock locked
  · exact fun s t0 on => gives_laniedPllLock on

end Sys2Proof.Machine
end

section
/-!
PROOFS. Reads of a store as the slot table makes them (R79, R80, R279 to R281).
-/

namespace Sys2Proof.Machine

section
variable {s t u : State}

/-! ### What a read of a store can change -/

/-- Registers, a notice's data, the stores with their repair data: all that a read of a store can change. -/
def ReadOnly (s t : State) : Prop :=
  ∃ regs out flt port lnk sto mem ecc, t = { s with regs := regs, out := out, flt := flt, port := port, lnk := lnk, sto := sto, mem := mem, ecc := ecc }

theorem ReadOnly.refl (s : State) : ReadOnly s s := ⟨_, _, _, _, _, _, _, _, rfl⟩

theorem ReadOnly.trans (first : ReadOnly s t) (second : ReadOnly t u) : ReadOnly s u := by
  obtain ⟨_, _, _, _, _, _, _, _, rfl⟩ := first
  obtain ⟨_, _, _, _, _, _, _, _, rfl⟩ := second
  exact ⟨_, _, _, _, _, _, _, _, rfl⟩

theorem ReadOnly.of_noticeOnly (same : NoticeOnly s t) : ReadOnly s t := by
  obtain ⟨_, _, _, _, _, rfl⟩ := same
  exact ⟨_, _, _, _, _, _, _, _, rfl⟩

theorem ReadOnly.put (same : ReadOnly s t) (f : Field) (v : Nat) : ReadOnly s (t.put f v) := same.trans (.of_noticeOnly ((NoticeOnly.refl t).put f v))

theorem ReadOnly.ite (c : Prop) [Decidable c] (yes : ReadOnly s t) (no : ReadOnly s u) : ReadOnly s (if c then t else u) := by
  split
  · exact yes
  · exact no

theorem ReadOnly.foldl {β : Type} {f : State → β → State} (each : ∀ t b, ReadOnly t (f t b)) (l : List β) (s : State) : ReadOnly s (l.foldl f s) := by
  induction l generalizing s with
  | nil => exact .refl s
  | cons b l ih => exact (each s b).trans (ih _)

theorem ReadOnly.kept (same : ReadOnly s t) : t.slt = s.slt ∧ t.eff = s.eff ∧ t.now = s.now := by
  obtain ⟨_, _, _, _, _, _, _, _, rfl⟩ := same
  exact ⟨rfl, rfl, rfl⟩

theorem readOnly_captureErr (s : State) (k : Nat) (ue : Bool) (req cls : Nat) (fetch : Bool) (e : EccErr) : ReadOnly s (s.captureErr k ue req cls fetch e) := by
  unfold State.captureErr
  extract_lets valid addr info written
  have plain : NoticeOnly s written := ((NoticeOnly.refl s).wr _ _).wr _ _
  exact .ite _ (.refl s) (.ite _ (.of_noticeOnly (plain.raise (by decide) _ _)) (.of_noticeOnly plain))

theorem readOnly_candidate (s : State) (k : Nat) (r : Nat × Nat) : ReadOnly s (s.candidate k r) := .ite _ (.refl s) ⟨_, _, _, _, _, _, _, _, rfl⟩

theorem readOnly_noteSingle (s : State) (k : Nat) (r : Nat × Nat) : ReadOnly s (s.noteSingle k r) := by
  have moved (x : Sto) : ReadOnly s (s.setSto k x) := ⟨_, _, _, _, _, _, _, _, rfl⟩
  unfold State.noteSingle
  extract_lets x key
  split
  · exact .ite _ (.refl s) ((moved _).trans (readOnly_candidate _ k r))
  · exact .ite _ (moved _) ((moved _).put _ _)

theorem readOnly_putLE (s : State) (a n v : Nat) : ReadOnly s (s.putLE a n v) := ⟨_, _, _, _, _, _, _, _, (storeWrite_putLE s a n v).rest⟩

/-- The word `e` written back corrected, or as the model's own decoder takes it. -/
def wordFixed (e : EccErr) (s : State) : State :=
  let s := { s with ecc := s.ecc.filter fun x => x.word != e.word }
  if e.bits.length ≤ 2 then s else s.putLE e.word 8 (Config.beyondWord e.word e.bits)

theorem readOnly_wordFixed (e : EccErr) (s : State) : ReadOnly s (wordFixed e s) := by
  have left : ReadOnly s { s with ecc := s.ecc.filter fun x => x.word != e.word } := ⟨_, _, _, _, _, _, _, _, rfl⟩
  exact .ite _ left (left.trans (readOnly_putLE ..))

theorem readErr_cases (s : State) (req : Nat) (fetch : Bool) (e : EccErr) : s.readErr req fetch e = s
    ∨ s.readErr req fetch e = (((wordFixed e s).inc ((Fld.STO_CNTn_COUNT.i 0).st (storeOf e.word))).captureErr (storeOf e.word) false req 1 fetch e).noteSingle (storeOf e.word) (bankRow e.word)
    ∨ s.readErr req fetch e = (((wordFixed e s).inc ((Fld.STO_CNTn_COUNT.i 1).st (storeOf e.word))).captureErr (storeOf e.word) false req 2 fetch e).candidate (storeOf e.word) (bankRow e.word)
    ∨ (e.lost = true ∧ ∃ n cls, s.readErr req fetch e = (s.inc ((Fld.STO_CNTn_COUNT.i n).st (storeOf e.word))).captureErr (storeOf e.word) true req cls fetch e) := by
  rw [State.readErr, EccErr.lost]
  rcases e.cls with _ | _ | _ | _ | _ | n
  · exact .inl rfl
  · exact .inr (.inl rfl)
  · exact .inr (.inr (.inl rfl))
  · exact .inr (.inr (.inr ⟨rfl, _, _, rfl⟩))
  · exact .inr (.inr (.inr ⟨rfl, _, _, rfl⟩))
  · exact .inr (.inr (.inr ⟨decide_eq_true (by omega), _, _, rfl⟩))

theorem readOnly_readErr (s : State) (req : Nat) (fetch : Bool) (e : EccErr) : ReadOnly s (s.readErr req fetch e) := by
  rcases readErr_cases s req fetch e with is | is | is | ⟨_, n, cls, is⟩
  · rw [is]
    exact .refl s
  · rw [is]
    exact (((readOnly_wordFixed e s).put _ _).trans (readOnly_captureErr ..)).trans (readOnly_noteSingle ..)
  · rw [is]
    exact (((readOnly_wordFixed e s).put _ _).trans (readOnly_captureErr ..)).trans (readOnly_candidate ..)
  · rw [is]
    exact ((ReadOnly.refl s).put _ _).trans (readOnly_captureErr ..)

theorem readOnly_access (s : State) (req : Nat) (fetch : Bool) (a n : Nat) (grant : Bool) : ReadOnly s (s.access req fetch a n grant) :=
  ⟨_, _, _, _, _, _, _, _, (banksOnly_access s req fetch a n grant).rest⟩

theorem readOnly_checkRead (s : State) (req : Nat) (fetch : Bool) (a n : Nat) : ReadOnly s (s.checkRead req fetch a n).1 := by
  rw [State.checkRead]
  exact (readOnly_access s req fetch a n true).trans (.foldl (fun t e => readOnly_readErr t req fetch e) _ _)

/-! ### A register of the slot table while sound words are read -/

/-- A register below the stores' own, in a hamlet's window. -/
structure BelowStores (a : Nat) : Prop where
  at_ : ∃ h : Fin 8, ∃ x, a = hamletBase h + x ∧ x < 0x8E0000
  arb : ∀ h : Fin 8, a ≠ ((Fld.ARB_CNTn_COUNT.i 0).h h).reg

theorem Field.st_reg (f : Field) (k : Nat) : (f.st k).reg = if k < 8 then hamletBase k + f.reg else if k = 8 then f.reg - 0x8E0000 + 0x04000800 else f.reg - 0x8E0000 + 0x040A0800 := by
  rw [Field.st]
  split
  · rfl
  · split <;> rfl

/-- The stores' own registers lie apart from it. -/
theorem BelowStores.apart {a : Nat} (below : BelowStores a) {f : Field} (low : 0x8E0000 ≤ f.reg) (high : f.reg < 0x8F0000) (k : Nat) : a ≠ (f.st k).reg := by
  obtain ⟨h, x, is, small⟩ := below.at_
  have eighth := h.isLt
  rw [is, Field.st_reg]
  simp only [hamletBase]
  split
  · omega
  · split <;> omega

theorem BelowStores.wr {a : Nat} (below : BelowStores a) {f : Field} (low : 0x8E0000 ≤ f.reg) (high : f.reg < 0x8F0000) (k : Nat) (v : Word) (s : State) :
    (s.wr (f.st k).reg v).rd a = s.rd a := State.rd_wr_ne _ _ (below.apart low high k)

theorem BelowStores.put {a : Nat} (below : BelowStores a) {f : Field} (low : 0x8E0000 ≤ f.reg) (high : f.reg < 0x8F0000) (k v : Nat) (s : State) :
    (s.put (f.st k) v).rd a = s.rd a := State.rd_put_ne _ _ (below.apart low high k)

theorem BelowStores.inc {a : Nat} (below : BelowStores a) {n : Nat} (few : n < 8) (k : Nat) (s : State) : (s.inc ((Fld.STO_CNTn_COUNT.i n).st k)).rd a = s.rd a := by
  have at_ : (Fld.STO_CNTn_COUNT.i n).reg = 0x8E0040 + n * 4 := rfl
  exact below.put (by omega) (by omega) k _ s

theorem BelowStores.wordFixed {a : Nat} (below : BelowStores a) (e : EccErr) (s : State) : (wordFixed e s).rd a = s.rd a := by
  have outside : a ∉ injRegs := fun listed => by
    obtain ⟨k, _, is⟩ := List.mem_map.1 listed
    exact below.apart (f := Fld.STO_INJ_ARM) (by decide) (by decide) k is.symm
  rw [Machine.wordFixed]
  split
  · rfl
  · exact (storeWrite_putLE _ e.word 8 _).regs a outside

theorem BelowStores.captureErr {a : Nat} (below : BelowStores a) (k req cls : Nat) (fetch : Bool) (e : EccErr) (s : State) : (s.captureErr k false req cls fetch e).rd a = s.rd a := by
  rw [State.captureErr]
  dsimp only
  rw [if_neg Bool.false_ne_true, if_neg Bool.false_ne_true]
  split
  · rfl
  · exact (below.wr (f := Fld.STO_CE_INFO_VALID) (by decide) (by decide) k _ _).trans (below.wr (f := Fld.STO_CE_ADDR_ADDR) (by decide) (by decide) k _ _)

theorem rd_candidate (a k : Nat) (r : Nat × Nat) (s : State) : (s.candidate k r).rd a = s.rd a := by
  unfold State.candidate
  extract_lets x busy
  split
  · rfl
  · rfl

theorem BelowStores.noteSingle {a : Nat} (below : BelowStores a) (k : Nat) (r : Nat × Nat) (s : State) : (s.noteSingle k r).rd a = s.rd a := by
  have moved (x : Sto) : (s.setSto k x).rd a = s.rd a := rfl
  unfold State.noteSingle
  extract_lets x key
  split
  · split
    · rfl
    · exact (rd_candidate a k r _).trans (moved _)
  · split
    · exact moved _
    · exact (below.put (f := Fld.STO_STAT_TABFULL) (by decide) (by decide) k 1 _).trans (moved _)

/-- A word that is not lost is read without a fault: the register stands. -/
theorem BelowStores.readErr {a : Nat} (below : BelowStores a) {e : EccErr} (sound : e.lost = false) (req : Nat) (fetch : Bool) (s : State) : (s.readErr req fetch e).rd a = s.rd a := by
  rcases readErr_cases s req fetch e with is | is | is | ⟨lost, _⟩
  · rw [is]
  · rw [is, below.noteSingle, below.captureErr, below.inc (by decide), below.wordFixed]
  · rw [is, rd_candidate, below.captureErr, below.inc (by decide), below.wordFixed]
  · rw [sound] at lost
    cases lost

theorem mem_eccInsert {e x : EccErr} {l : List EccErr} (listed : e ∈ eccInsert x l) : e = x ∨ e ∈ l := by
  induction l with
  | nil => exact .inl (List.mem_singleton.1 listed)
  | cons y l ih =>
    rw [eccInsert] at listed
    split at listed
    · exact (List.mem_cons.1 listed)
    · rcases List.mem_cons.1 listed with is | further
      · exact .inr (List.mem_cons.2 (.inl is))
      · rcases ih further with is | among
        · exact .inl is
        · exact .inr (List.mem_cons_of_mem _ among)

theorem mem_foldr_eccInsert {e : EccErr} {l : List EccErr} (listed : e ∈ l.foldr eccInsert []) : e ∈ l := by
  induction l with
  | nil => exact listed
  | cons x l ih =>
    rcases mem_eccInsert listed with is | further
    · exact List.mem_cons.2 (.inl is)
    · exact List.mem_cons_of_mem _ (ih further)

/-- No word of a read that succeeds is lost. -/
theorem sound_of_corrected {a n : Nat} (corrected : s.uncorrected a n = false) {e : EccErr} (listed : e ∈ s.errsIn a n) : e.lost = false := by
  obtain ⟨among, near⟩ := List.mem_filter.1 (mem_foldr_eccInsert listed)
  rw [State.uncorrected, List.any_eq_false] at corrected
  have not := corrected e among
  rw [Bool.and_assoc, near, Bool.and_true] at not
  exact Bool.eq_false_iff.2 not

theorem BelowStores.checkRead {a : Nat} (below : BelowStores a) {req b n : Nat} {fetch : Bool} (good : (s.checkRead req fetch b n).2 = false) : (s.checkRead req fetch b n).1.rd a = s.rd a := by
  have reached := (banksOnly_access s req fetch b n true).regs a below.arb
  rw [State.checkRead] at good ⊢
  refine Eq.trans ?_ reached
  obtain ⟨v, isV⟩ : ∃ v, s.access req fetch b n true = v := ⟨_, rfl⟩
  rw [isV] at good ⊢
  have fold (l : List EccErr) (sound : ∀ e ∈ l, e.lost = false) (w : State) : (l.foldl (fun s e => s.readErr req fetch e) w).rd a = w.rd a := by
    induction l generalizing w with
    | nil => rfl
    | cons e l ih => exact (ih (fun e listed => sound e (List.mem_cons_of_mem _ listed)) _).trans (below.readErr (sound e (List.mem_cons_self ..)) req fetch w)
  exact fold _ (fun e listed => sound_of_corrected good listed) v

/-! ### The check of a buffer (R80) -/

/-- One entry of the free buffer checked. -/
def entryChecked (base n num : Nat) (ecp : Bool) (pm : Nat) (dup : Option Bool) (acc : State × Option (Nat × Nat)) (e : Nat) : State × Option (Nat × Nat) :=
  match acc.2 with
  | some _ => acc
  | none =>
    let x := acc.1.checkRead 18 false (base + 96 * e) 96
    if x.2 then (x.1, some (e, 10))
    else
      let c := entryError (x.1.entryWordsAt base e) (x.1.entryWordsAt base ((e + 1) % n)) num ecp (e % slotsPerSub num) ((e + 1) % slotsPerSub num) pm dup
      (x.1, if c = 0 then none else some (e, c))

/-- What the check of an entry leaves: a read's frame, and a low register where no error is found. -/
structure Checked (acc res : State × Option (Nat × Nat)) : Prop where
  only : ReadOnly acc.1 res.1
  none_of : res.2 = none → acc.2 = none
  kept : res.2 = none → ∀ a, BelowStores a → res.1.rd a = acc.1.rd a

theorem checked_entry (base n num : Nat) (ecp : Bool) (pm : Nat) (dup : Option Bool) (acc : State × Option (Nat × Nat)) (e : Nat) :
    Checked acc (entryChecked base n num ecp pm dup acc e) := by
  obtain ⟨v, found⟩ := acc
  rcases found with _ | x
  · have read := readOnly_checkRead v 18 false (base + 96 * e) 96
    have keeps := fun (good : (v.checkRead 18 false (base + 96 * e) 96).2 = false) (a : Nat) (below : BelowStores a) => below.checkRead good
    rw [entryChecked]
    dsimp only
    split
    · exact ⟨read, nofun, nofun⟩
    · rename_i good
      exact ⟨read, fun _ => rfl, fun _ => keeps (Bool.eq_false_iff.2 good)⟩
  · exact ⟨.refl v, id, fun _ _ _ => rfl⟩

theorem checked_entries (base n num : Nat) (ecp : Bool) (pm : Nat) (dup : Option Bool) (l : List Nat) (acc : State × Option (Nat × Nat)) :
    Checked acc (l.foldl (entryChecked base n num ecp pm dup) acc) := by
  induction l generalizing acc with
  | nil => exact ⟨.refl _, id, fun _ _ _ => rfl⟩
  | cons e l ih =>
    have first := checked_entry base n num ecp pm dup acc e
    have rest := ih (entryChecked base n num ecp pm dup acc e)
    exact ⟨first.only.trans rest.only, fun none => first.none_of (rest.none_of none), fun none a below => (rest.kept none a below).trans (first.kept (rest.none_of none) a below)⟩

theorem checked_slotCheck (s : State) (h : Fin 8) (cfg : Word) : Checked (s, none) (slotCheck s h cfg) := by
  have same (x : Option (Nat × Nat)) : Checked (s, none) (s, x) := ⟨.refl s, fun _ => rfl, fun _ _ _ => rfl⟩
  unfold slotCheck
  extract_lets num ecp n free t dup pm
  split
  · exact same _
  · split
    · exact same _
    · exact checked_entries free n num ecp pm dup (List.range n) (s, none)

end

end Sys2Proof.Machine
end

section
/-!
PROOFS. The slot table (R79, R80, R82, R292); the settlement of O12.
-/

namespace Sys2Proof.Machine

section
variable {s t : State} {h : Fin 8}

/-! ### COMMIT (R80) -/

section
variable {r : Req} {v : Word}

/-- The slot table's control register. -/
def sltCtrlDesc : RegDesc := ⟨Reg.SLT_CTRL, [], [Fld.SLT_CTRL_CHAIN, Fld.SLT_CTRL_COMMIT, Fld.SLT_CTRL_ENABLE]⟩

theorem descOf_sltCtrl (h : Fin 8) : descOf (hamletBase h + Reg.SLT_CTRL) = some sltCtrlDesc := by
  revert h
  decide +kernel

/-- The change of ENABLE that a write asks for waits for its frame boundary. -/
def enableAsked (h : Fin 8) (old : Nat) (s : State) : State :=
  if s.get (Fld.SLT_CTRL_ENABLE.h h) = old then s
  else { s with slt := s.slt.set h { s.slt[h] with enables := s.slt[h].enables ++ [(frameAfter100 s.now, s.flag (Fld.SLT_CTRL_ENABLE.h h))] } }

theorem enableAsked_eq (h : Fin 8) (old : Nat) (s : State) : ∃ slt, enableAsked h old s = { s with slt := slt } := by
  rw [enableAsked]
  split
  · exact ⟨s.slt, rfl⟩
  · exact ⟨_, rfl⟩

/-- The check of the free buffer begun. -/
def checkBegun (h : Fin 8) (s : State) : State :=
  let s := s.put (Fld.SLT_STAT_CHECKING.h h) 1
  { s with slt := s.slt.set h { s.slt[h] with checking := true, cfgTaken := s.rd (hamletBase h + Reg.SLT_CFG) } }

theorem sltCtrlWrite_commits (commit : getBits Fld.SLT_CTRL_COMMIT v = 1) {u : State}
    (is : enableAsked h (s.get (Fld.SLT_CTRL_ENABLE.h h)) (s.storeReg r (hamletBase h + Reg.SLT_CTRL) (v &&& 0xFFFFFFFD#32)) = u)
    (pend : u.get (Fld.SLT_STAT_PEND.h h) = 0) (checking : u.get (Fld.SLT_STAT_CHECKING.h h) = 0) : sltCtrlWrite r h v s = checkBegun h u := by
  have go : ¬(decide (getBits Fld.SLT_CTRL_COMMIT v = 0) || u.flag (Fld.SLT_STAT_PEND.h h) || u.flag (Fld.SLT_STAT_CHECKING.h h)) = true := by
    rw [commit, State.flag, State.flag, pend, checking]
    decide
  rw [sltCtrlWrite]
  dsimp only
  rw [← enableAsked, is, if_neg go, checkBegun]

theorem slt_regs_apart (h : Fin 8) : hamletBase h + Reg.SLT_CFG ≠ hamletBase h + Reg.SLT_CTRL ∧ hamletBase h + Reg.SLT_STAT ≠ hamletBase h + Reg.SLT_CTRL
    ∧ hamletBase h + Reg.SLT_CFG ≠ hamletBase h + Reg.SLT_STAT := by
  obtain ⟨b, _⟩ : ∃ b, hamletBase h = b := ⟨_, rfl⟩
  refine ⟨fun e => ?_, fun e => ?_, fun e => ?_⟩ <;> exact absurd (Nat.add_left_cancel e) (by decide)

theorem slt_stat_reg {f : Field} (reg : f.reg = Reg.SLT_STAT) (h : Fin 8) : (f.h h).reg = hamletBase h + Reg.SLT_STAT := Field.reg_h_eq h reg

/-- The state in which the check begins: the write stored, a change of ENABLE noted. -/
theorem sltStored_frame (s : State) (h : Fin 8) (r : Req) (w : Word) (old : Nat) : ∃ l slt, enableAsked h old (s.ok.storeReg r (hamletBase h + Reg.SLT_CTRL) w) =
    { s with resp := { err := false, data := 0 }, regs := l, slt := slt } ∧ RfSame [hamletBase h + Reg.SLT_CTRL] s.regs l := by
  rw [State.storeReg_unguarded (descOf_sltCtrl h) (by decide) r w, State.wr_eq]
  obtain ⟨x, isX⟩ : ∃ x, wordWrite false sltCtrlDesc w (s.ok.rd (hamletBase h + Reg.SLT_CTRL)) = x := ⟨_, rfl⟩
  obtain ⟨a, isA⟩ : ∃ a, hamletBase h + Reg.SLT_CTRL = a := ⟨_, rfl⟩
  rw [isX, isA]
  have same : RfSame [a] s.regs (rfWrite s.ok.regs a x) := (RfSame.refl _ s.regs).write (List.mem_singleton_self _) _
  obtain ⟨l, isL⟩ : ∃ l, rfWrite s.ok.regs a x = l := ⟨_, rfl⟩
  rw [isL] at same ⊢
  obtain ⟨slt, asked⟩ := enableAsked_eq h old { s.ok with regs := l }
  exact ⟨l, slt, asked, same⟩

theorem checkBegun_eq (h : Fin 8) (s : State) : checkBegun h s = { s with
    regs := rfPut s.regs (Fld.SLT_STAT_CHECKING.h h) 1,
    slt := s.slt.set h { s.slt[h] with checking := true, cfgTaken := rfRead (rfPut s.regs (Fld.SLT_STAT_CHECKING.h h) 1) (hamletBase h + Reg.SLT_CFG) } } := by
  obtain ⟨c, isC⟩ : ∃ c, hamletBase h + Reg.SLT_CFG = c := ⟨_, rfl⟩
  obtain ⟨f, isF⟩ : ∃ f, Fld.SLT_STAT_CHECKING.h h = f := ⟨_, rfl⟩
  rw [checkBegun, State.put_eq, isC, isF]
  rfl

theorem gives_slotTableCommit (taken : Takes s r (hamletBase h + Reg.SLT_CTRL)) (commit : getBits Fld.SLT_CTRL_COMMIT v = 1)
    (pend : s.get (Fld.SLT_STAT_PEND.h h) = 0) (checking : s.get (Fld.SLT_STAT_CHECKING.h h) = 0) :
    Gives (.slotTableCommit r h v) s fun t => t.get (Fld.SLT_STAT_CHECKING.h h) = 1 ∧ t.slt[h].checking = true
      ∧ t.slt[h].cfgTaken = s.rd (hamletBase h + Reg.SLT_CFG) ∧ t = { s with resp := { err := false, data := 0 }, regs := t.regs, slt := t.slt } := by
  obtain ⟨cfg, stat, cfgStat⟩ := slt_regs_apart h
  have pendReg := slt_stat_reg (f := Fld.SLT_STAT_PEND) rfl h
  have checkReg := slt_stat_reg (f := Fld.SLT_STAT_CHECKING) rfl h
  have ran : exec (.slotTableCommit r h v) s = .next (sltCtrlWrite r h v s.ok) := by
    show execSlotTableCommit r h v s = _
    rw [execSlotTableCommit, regCmd_ok taken]
  obtain ⟨l, slt, stored, same⟩ := sltStored_frame s h r (v &&& 0xFFFFFFFD#32) (s.ok.get (Fld.SLT_CTRL_ENABLE.h h))
  have pend' : rfGet l (Fld.SLT_STAT_PEND.h h) = 0 := (same.get (by rw [pendReg, List.mem_singleton]; exact stat)).trans pend
  have checking' : rfGet l (Fld.SLT_STAT_CHECKING.h h) = 0 := (same.get (by rw [checkReg, List.mem_singleton]; exact stat)).trans checking
  rw [sltCtrlWrite_commits (s := s.ok) commit stored (by rw [State.get_eq_rfGet]; exact pend') (by rw [State.get_eq_rfGet]; exact checking'), checkBegun_eq] at ran
  dsimp only at ran
  have put : rfRead (rfPut l (Fld.SLT_STAT_CHECKING.h h) 1) (hamletBase h + Reg.SLT_CFG) = s.rd (hamletBase h + Reg.SLT_CFG) := by
    rw [rfPut, rfRead_write_ne _ _ (by rw [checkReg]; exact cfgStat), same _ (by rw [List.mem_singleton]; exact cfg), State.rd]
  have shown : rfGet (rfPut l (Fld.SLT_STAT_CHECKING.h h) 1) (Fld.SLT_STAT_CHECKING.h h) = 1 := rfGet_rfPut_self_h _ _ _ (by decide)
  rw [put] at ran
  obtain ⟨w, isW⟩ : ∃ w, s.rd (hamletBase h + Reg.SLT_CFG) = w := ⟨_, rfl⟩
  obtain ⟨m, isM⟩ : ∃ m, rfPut l (Fld.SLT_STAT_CHECKING.h h) 1 = m := ⟨_, rfl⟩
  rw [isW, isM] at ran
  rw [isM] at shown
  rw [isW]
  refine Gives.of_eq ran ⟨?_, congrArg Slt.checking (Vector.getElem_set_self _), congrArg Slt.cfgTaken (Vector.getElem_set_self _), rfl⟩
  rw [State.get_eq_rfGet]
  exact shown

end

/-! ### The check's end (R80, R292) -/

/-- The state of a check that passes in `s`. -/
def checkPassed (h : Fin 8) (s : State) : State :=
  let s := s.put (Fld.SLT_STAT_CHECKING.h h) 0
  let s := { s with slt := s.slt.set h { s.slt[h] with checking := false, checkEnd := s.now } }
  let s := s.put (Fld.SLT_STAT_PEND.h h) 1
  if s.flag (Fld.SLT_CTRL_CHAIN.h h) then s
  else { s with slt := s.slt.set h { s.slt[h] with swapDue := some (frameAfter100 s.now) } }

/-- The state of a check that fails in `s`, at the entry and with the code of `x`. -/
def checkFailed (h : Fin 8) (x : Nat × Nat) (s : State) : State :=
  let s := s.put (Fld.SLT_STAT_CHECKING.h h) 0
  let s := { s with slt := s.slt.set h { s.slt[h] with checking := false, checkEnd := s.now } }
  slotFail h x.1 x.2 (s.put (Fld.SLT_STAT_ERR.h h) 1)

theorem exec_slotTableCheckEnd (checks : s.slt[h].checking = true) (runs : s.get (Fld.ARB_CTRL_FREEZE.h h) = 0) : exec (.slotTableCheckEnd h) s =
    .next (match (slotCheck s h s.slt[h].cfgTaken).2 with
      | some x => checkFailed h x (slotCheck s h s.slt[h].cfgTaken).1
      | none => checkPassed h (slotCheck s h s.slt[h].cfgTaken).1) := by
  have free : s.flag (Fld.ARB_CTRL_FREEZE.h h) = false := by
    rw [State.flag, runs]
    rfl
  show execSlotTableCheckEnd h s = _
  rw [execSlotTableCheckEnd, checks, free, if_neg (by decide)]
  obtain ⟨res, isRes⟩ : ∃ res, slotCheck s h s.slt[h].cfgTaken = res := ⟨_, rfl⟩
  rw [isRes]
  obtain ⟨u, _ | ⟨e, c⟩⟩ := res
  · rfl
  · rfl

/-- The registers of a check that has passed. -/
def passedRegs (h : Fin 8) (l : RegFile) : RegFile := rfPut (rfPut l (Fld.SLT_STAT_CHECKING.h h) 0) (Fld.SLT_STAT_PEND.h h) 1

theorem passedRegs_facts (h : Fin 8) (l : RegFile) : rfGet (passedRegs h l) (Fld.SLT_STAT_CHECKING.h h) = 0 ∧ rfGet (passedRegs h l) (Fld.SLT_STAT_PEND.h h) = 1
    ∧ rfGet (passedRegs h l) (Fld.SLT_CTRL_CHAIN.h h) = rfGet l (Fld.SLT_CTRL_CHAIN.h h) := by
  rw [passedRegs]
  refine ⟨?_, rfGet_rfPut_self_h _ _ _ (by decide), ?_⟩
  · rw [rfGet_rfPut_h _ _ _ (by decide) (by decide), rfGet_rfPut_self_h _ _ _ (by decide)]
    exact Nat.zero_mod _
  · rw [rfGet_rfPut_h _ _ _ (by decide) (by decide), rfGet_rfPut_h _ _ _ (by decide) (by decide)]

theorem checkPassed_eq (h : Fin 8) (s : State) : ∃ slt, checkPassed h s = { s with regs := passedRegs h s.regs, slt := slt } ∧ slt[h].checking = false
    ∧ (s.get (Fld.SLT_CTRL_CHAIN.h h) = 0 → slt[h].swapDue = some (frameAfter100 s.now)) := by
  obtain ⟨_, _, chain⟩ := passedRegs_facts h s.regs
  rw [checkPassed, State.put_eq]
  dsimp only
  rw [State.put_eq]
  dsimp only
  rw [← passedRegs]
  obtain ⟨m, isM⟩ : ∃ m, passedRegs h s.regs = m := ⟨_, rfl⟩
  rw [isM] at chain ⊢
  have flag (slt : Vector Slt 8) : ({ s with regs := m, slt := slt } : State).flag (Fld.SLT_CTRL_CHAIN.h h) = s.flag (Fld.SLT_CTRL_CHAIN.h h) := by
    rw [State.flag, State.flag, State.get_eq_rfGet, State.get_eq_rfGet, chain]
  rw [flag]
  split
  · rename_i chained
    refine ⟨_, rfl, congrArg Slt.checking (Vector.getElem_set_self _), fun zero => ?_⟩
    rw [State.flag, zero] at chained
    cases chained
  · refine ⟨_, rfl, ?_, fun _ => congrArg Slt.swapDue (Vector.getElem_set_self _)⟩
    exact (congrArg Slt.checking (Vector.getElem_set_self _)).trans (congrArg Slt.checking (Vector.getElem_set_self _))

theorem noticeOnly_slotFail (h : Fin 8) (e c : Nat) (s : State) : NoticeOnly s (slotFail h e c s) :=
  (((NoticeOnly.refl s).put (Fld.SLT_STAT_ERR_ENTRY.h h) e).put (Fld.SLT_STAT_ERR_CODE.h h) c).raise (by decide) _ _

theorem checkFailed_eq (h : Fin 8) (x : Nat × Nat) (s : State) : NoticeOnly { s with slt := s.slt.set h { s.slt[h] with checking := false, checkEnd := s.now } } (checkFailed h x s) := by
  rw [checkFailed, State.put_eq s]
  dsimp only
  obtain ⟨l, isL⟩ : ∃ l, rfPut s.regs (Fld.SLT_STAT_CHECKING.h h) 0 = l := ⟨_, rfl⟩
  rw [isL]
  obtain ⟨slt, isSlt⟩ : ∃ slt, s.slt.set h { s.slt[h] with checking := false, checkEnd := s.now } = slt := ⟨_, rfl⟩
  rw [isSlt]
  have shown : NoticeOnly { s with slt := slt } { s with regs := l, slt := slt } := ⟨_, _, _, _, _, rfl⟩
  exact (shown.put _ 1).trans (noticeOnly_slotFail h x.1 x.2 _)

theorem belowStores_sltCtrl (h : Fin 8) : BelowStores (hamletBase h + Reg.SLT_CTRL) := by
  refine ⟨⟨h, Reg.SLT_CTRL, rfl, by decide⟩, fun g => ?_⟩
  show 0x10000000 + h.val * 0x1000000 + 0x860014 ≠ 0x10000000 + g.val * 0x1000000 + 0x830020
  omega

theorem slotCheck_chain {cfg : Word} (passes : (slotCheck s h cfg).2 = none) : (slotCheck s h cfg).1.get (Fld.SLT_CTRL_CHAIN.h h) = s.get (Fld.SLT_CTRL_CHAIN.h h) := by
  have reg : (Fld.SLT_CTRL_CHAIN.h h).reg = hamletBase h + Reg.SLT_CTRL := Field.reg_h_eq h rfl
  have kept := (checked_slotCheck s h cfg).kept passes _ (belowStores_sltCtrl h)
  rw [State.get, State.get, reg, kept]

theorem gives_checkPassed (checks : s.slt[h].checking = true) (runs : s.get (Fld.ARB_CTRL_FREEZE.h h) = 0) (passes : (slotCheck s h s.slt[h].cfgTaken).2 = none) :
    Gives (.slotTableCheckEnd h) s fun t => t.get (Fld.SLT_STAT_CHECKING.h h) = 0 ∧ t.get (Fld.SLT_STAT_PEND.h h) = 1 ∧ t.slt[h].checking = false
      ∧ (s.get (Fld.SLT_CTRL_CHAIN.h h) = 0 → t.slt[h].swapDue = some (frameAfter100 s.now))
      ∧ t = { (slotCheck s h s.slt[h].cfgTaken).1 with regs := t.regs, slt := t.slt } ∧ t.now = s.now ∧ t.eff = s.eff := by
  have ran := exec_slotTableCheckEnd checks runs
  obtain ⟨_, eff, now⟩ := (checked_slotCheck s h s.slt[h].cfgTaken).only.kept
  have chain := slotCheck_chain passes
  rw [passes] at ran
  dsimp only at eff now
  obtain ⟨u, isU⟩ : ∃ u, (slotCheck s h s.slt[h].cfgTaken).1 = u := ⟨_, rfl⟩
  rw [isU] at ran eff now chain ⊢
  obtain ⟨slt, passed, checking, due⟩ := checkPassed_eq h u
  obtain ⟨check, pend, _⟩ := passedRegs_facts h u.regs
  obtain ⟨l, isL⟩ : ∃ l, passedRegs h u.regs = l := ⟨_, rfl⟩
  rw [isL] at passed check pend
  rw [chain, now] at due
  have ran : exec (.slotTableCheckEnd h) s = .next { u with regs := l, slt := slt } := ran.trans (congrArg _ passed)
  exact Gives.of_eq ran ⟨by rw [State.get_eq_rfGet]; exact check, by rw [State.get_eq_rfGet]; exact pend, checking, due, rfl, now, eff⟩

theorem gives_checkFailed {x : Nat × Nat} (checks : s.slt[h].checking = true) (runs : s.get (Fld.ARB_CTRL_FREEZE.h h) = 0) (fails : (slotCheck s h s.slt[h].cfgTaken).2 = some x) :
    Gives (.slotTableCheckEnd h) s fun t => t.slt[h].checking = false ∧ t.slt[h].swapDue = s.slt[h].swapDue
      ∧ t.mem = (slotCheck s h s.slt[h].cfgTaken).1.mem ∧ t.eff = s.eff := by
  have ran := exec_slotTableCheckEnd checks runs
  obtain ⟨slt, eff, _⟩ := (checked_slotCheck s h s.slt[h].cfgTaken).only.kept
  rw [fails] at ran
  dsimp only at slt eff
  obtain ⟨u, isU⟩ : ∃ u, (slotCheck s h s.slt[h].cfgTaken).1 = u := ⟨_, rfl⟩
  rw [isU] at ran slt eff ⊢
  have failed := checkFailed_eq h x u
  refine ⟨_, ran, ?_⟩
  dsimp only
  obtain ⟨v, isV⟩ : ∃ v, checkFailed h x u = v := ⟨_, rfl⟩
  rw [isV] at failed ⊢
  obtain ⟨_, _, _, _, _, rfl⟩ := failed
  exact ⟨congrArg Slt.checking (Vector.getElem_set_self _), (congrArg Slt.swapDue (Vector.getElem_set_self _)).trans (by rw [slt]), rfl, eff⟩

/-! ### The swap and ENABLE (R82) -/

/-- The registers of a swap at its frame boundary. -/
def tableSwapped (h : Fin 8) (b : Nat) (l : RegFile) : RegFile := rfPut (rfPut l (Fld.SLT_STAT_ACTIVE.h h) b) (Fld.SLT_STAT_PEND.h h) 0

theorem tableSwapped_facts (h : Fin 8) {b : Nat} (bank : b < 2) (l : RegFile) : rfGet (tableSwapped h b l) (Fld.SLT_STAT_ACTIVE.h h) = b ∧ rfGet (tableSwapped h b l) (Fld.SLT_STAT_PEND.h h) = 0 := by
  rw [tableSwapped]
  refine ⟨?_, rfGet_rfPut_self_h _ _ _ (by decide)⟩
  rw [rfGet_rfPut_h _ _ _ (by decide) (by decide), rfGet_rfPut_self_h _ _ _ (by decide)]
  exact Nat.mod_eq_of_lt (show b < 2 ^ 1 from bank)

/-- The buffers of `s` swapped, with the configuration `cfg` in force. -/
def tableSwap (h : Fin 8) (cfg : Word) (s : State) : State :=
  let s := s.ewr (hamletBase h + Reg.SLT_CFG) cfg
  let s := (s.put (Fld.SLT_STAT_ACTIVE.h h) (1 - s.get (Fld.SLT_STAT_ACTIVE.h h))).put (Fld.SLT_STAT_PEND.h h) 0
  { s with slt := s.slt.set h { s.slt[h] with swapDue := none } }

theorem tableShown_eq (h : Fin 8) (s : State) : (s.put (Fld.SLT_STAT_ACTIVE.h h) (1 - s.get (Fld.SLT_STAT_ACTIVE.h h))).put (Fld.SLT_STAT_PEND.h h) 0 =
    { s with regs := tableSwapped h (1 - rfGet s.regs (Fld.SLT_STAT_ACTIVE.h h)) s.regs } := by
  rw [tableSwapped]
  obtain ⟨f, isF⟩ : ∃ f, Fld.SLT_STAT_ACTIVE.h h = f := ⟨_, rfl⟩
  obtain ⟨g, isG⟩ : ∃ g, Fld.SLT_STAT_PEND.h h = g := ⟨_, rfl⟩
  rw [isF, isG, State.put_eq, State.put_eq, State.get_eq_rfGet]

theorem tableSwap_eq (h : Fin 8) (cfg : Word) (s : State) : ∃ e slt, tableSwap h cfg s = { s with regs := tableSwapped h (1 - rfGet s.regs (Fld.SLT_STAT_ACTIVE.h h)) s.regs, eff := e, slt := slt }
    ∧ rfRead e (hamletBase h + Reg.SLT_CFG) = cfg ∧ slt[h].swapDue = none := by
  obtain ⟨a, isA⟩ : ∃ a, hamletBase h + Reg.SLT_CFG = a := ⟨_, rfl⟩
  have taken : rfRead (rfWrite s.eff a cfg) a = cfg := rfRead_write_same _ _ _
  have gone : (s.slt.set h { s.slt[h] with swapDue := none })[h].swapDue = none := congrArg Slt.swapDue (Vector.getElem_set_self _)
  rw [tableSwap, isA, State.ewr, tableShown_eq]
  obtain ⟨l, isL⟩ : ∃ l, tableSwapped h (1 - rfGet s.regs (Fld.SLT_STAT_ACTIVE.h h)) s.regs = l := ⟨_, rfl⟩
  obtain ⟨e, isE⟩ : ∃ e, rfWrite s.eff a cfg = e := ⟨_, rfl⟩
  obtain ⟨slt, isSlt⟩ : ∃ slt, s.slt.set h { s.slt[h] with swapDue := none } = slt := ⟨_, rfl⟩
  rw [isE] at taken ⊢
  rw [isSlt] at gone
  dsimp only
  rw [isL, isSlt]
  exact ⟨e, slt, rfl, taken, gone⟩

theorem exec_slotTableSwap {d : Nat} (due : s.slt[h].swapDue = some d) :
    exec (.slotTableSwap h) s = .next (tableSwap h s.slt[h].cfgTaken (((s.at d).countTx h (d - 1)).countRx h (d - 1))) := by
  show execSlotTableSwap h s = _
  rw [execSlotTableSwap, due]
  rfl

/-- What the count of muted symbols leaves of the slot table's status. -/
theorem counted_frame (s : State) (h : Fin 8) (d : Nat) : ∃ l tx rx, ((s.at d).countTx h (d - 1)).countRx h (d - 1) = { s with now := max s.now d, regs := l, tx := tx, rx := rx }
    ∧ rfGet l (Fld.SLT_STAT_ACTIVE.h h) = s.get (Fld.SLT_STAT_ACTIVE.h h) := by
  obtain ⟨l, tx, sent, same⟩ := countTx_frame (s.at d) h (d - 1)
  rw [sent]
  obtain ⟨m, rx, received, same', _⟩ := countRx_frame ({ s.at d with regs := l, tx := tx } : State) h (d - 1)
  rw [received]
  have reg : (Fld.SLT_STAT_ACTIVE.h h).reg = hamletBase h + Reg.SLT_STAT := slt_stat_reg rfl h
  have apart : hamletBase h + Reg.SLT_STAT ≠ hamletBase h + Reg.TXC_UNLOCK_CNT ∧ hamletBase h + Reg.SLT_STAT ≠ hamletBase h + Reg.RXC_UNLOCK_CNT :=
    ⟨fun e => absurd (Nat.add_left_cancel e) (by decide), fun e => absurd (Nat.add_left_cancel e) (by decide)⟩
  have received' := same'.get (f := Fld.SLT_STAT_ACTIVE.h h) (by rw [reg, List.mem_singleton]; exact apart.2)
  have sent' := same.get (f := Fld.SLT_STAT_ACTIVE.h h) (by rw [reg, List.mem_singleton]; exact apart.1)
  exact ⟨m, tx, rx, rfl, received'.trans sent'⟩

theorem gives_slotTableSwap {d : Nat} (due : s.slt[h].swapDue = some d) :
    Gives (.slotTableSwap h) s fun t => t.erd (hamletBase h + Reg.SLT_CFG) = s.slt[h].cfgTaken
      ∧ t.get (Fld.SLT_STAT_ACTIVE.h h) = 1 - s.get (Fld.SLT_STAT_ACTIVE.h h) ∧ t.get (Fld.SLT_STAT_PEND.h h) = 0 ∧ t.slt[h].swapDue = none
      ∧ t = { s with now := max s.now d, regs := t.regs, eff := t.eff, slt := t.slt, tx := t.tx, rx := t.rx } := by
  have ran := exec_slotTableSwap due
  obtain ⟨l, tx, rx, counted, active⟩ := counted_frame s h d
  rw [counted] at ran
  obtain ⟨e, slt, swapped, taken, gone⟩ := tableSwap_eq h s.slt[h].cfgTaken ({ s with now := max s.now d, regs := l, tx := tx, rx := rx } : State)
  rw [swapped] at ran
  dsimp only at ran
  rw [active] at ran
  obtain ⟨act, pend⟩ := tableSwapped_facts h (show 1 - s.get (Fld.SLT_STAT_ACTIVE.h h) < 2 by omega) l
  obtain ⟨m, isM⟩ : ∃ m, tableSwapped h (1 - s.get (Fld.SLT_STAT_ACTIVE.h h)) l = m := ⟨_, rfl⟩
  rw [isM] at ran act pend
  exact Gives.of_eq ran ⟨by rw [State.erd]; exact taken, by rw [State.get_eq_rfGet]; exact act, by rw [State.get_eq_rfGet]; exact pend, gone, rfl⟩

/-- The entries latched that stand when ENABLE becomes `v` at `d`. -/
def enableKeeps (v : Bool) (d : Nat) (l : List Latched) : List Latched := if v then l else l.filter fun l => decide (l.slotAt < d)

theorem gives_sltEnable {d : Nat} {v : Bool} {l : List (Nat × Bool)} (due : s.slt[h].enables = (d, v) :: l) :
    Gives (.sltEnableTakeEffect h) s fun t => t.eget (Fld.SLT_CTRL_ENABLE.h h) = b2n v ∧ t.slt[h].enables = l
      ∧ (v = false → ∀ e ∈ t.slt[h].latched, e.slotAt < d) ∧ t = { s with now := max s.now d, eff := t.eff, slt := t.slt } := by
  have ran : exec (.sltEnableTakeEffect h) s = .next { s.at d with
      eff := ((s.at d).eput (Fld.SLT_CTRL_ENABLE.h h) (b2n v)).eff, slt := s.slt.set h { s.slt[h] with enables := l, latched := enableKeeps v d s.slt[h].latched } } := by
    show execSltEnableTakeEffect h s = _
    rw [execSltEnableTakeEffect, due]
    rfl
  have shown : rfGet ((s.at d).eput (Fld.SLT_CTRL_ENABLE.h h) (b2n v)).eff (Fld.SLT_CTRL_ENABLE.h h) = b2n v := by
    rw [State.eput_eff, rfGet_rfPut_self_h _ _ _ (by decide)]
    cases v <;> rfl
  have enables : (s.slt.set h { s.slt[h] with enables := l, latched := enableKeeps v d s.slt[h].latched })[h].enables = l := congrArg Slt.enables (Vector.getElem_set_self _)
  have latched : (s.slt.set h { s.slt[h] with enables := l, latched := enableKeeps v d s.slt[h].latched })[h].latched = enableKeeps v d s.slt[h].latched :=
    congrArg Slt.latched (Vector.getElem_set_self _)
  obtain ⟨e, isE⟩ : ∃ e, ((s.at d).eput (Fld.SLT_CTRL_ENABLE.h h) (b2n v)).eff = e := ⟨_, rfl⟩
  obtain ⟨slt, isSlt⟩ : ∃ slt, s.slt.set h { s.slt[h] with enables := l, latched := enableKeeps v d s.slt[h].latched } = slt := ⟨_, rfl⟩
  rw [isE, isSlt] at ran
  rw [isE] at shown
  rw [isSlt] at enables latched
  refine Gives.of_eq ran ⟨shown, enables, fun off x listed => ?_, rfl⟩
  have among : x ∈ slt[h].latched := listed
  rw [latched, off, enableKeeps, if_neg Bool.false_ne_true] at among
  exact of_decide_eq_true (List.mem_filter.1 among).2

/-! ### The latch of an entry (R79) -/

/-- The entry `l` last among those that `keep` leaves. -/
def entryLatched (h : Fin 8) (l : Latched) (s : State) : State :=
  { s with slt := s.slt.set h { s.slt[h] with latched := (s.slt[h].latched.filter fun x => decide (s.now < x.slotAt + 50 * msU) || s.gateNeeds h x.slotAt) ++ [l] } }

/-- What latching the slot `at_` leaves. -/
structure Latches (h : Fin 8) (at_ : Nat) (s t : State) : Prop where
  listed : ∃ l ∈ t.slt[h].latched, l.slotAt = at_
  now : t.now = s.now
  mem : s.ecc = [] → t.mem = s.mem
  eff : t.eff = s.eff

theorem latches_entryLatched {l : Latched} {at_ : Nat} (is : l.slotAt = at_) (s : State) : Latches h at_ s (entryLatched h l s) := by
  refine ⟨⟨l, ?_, is⟩, rfl, fun _ => rfl, rfl⟩
  have latched : (entryLatched h l s).slt[h].latched = (s.slt[h].latched.filter fun x => decide (s.now < x.slotAt + 50 * msU) || s.gateNeeds h x.slotAt) ++ [l] :=
    congrArg Slt.latched (Vector.getElem_set_self _)
  rw [latched]
  exact List.mem_append_right _ (List.mem_singleton_self l)

theorem Latches.noticed {at_ : Nat} {u : State} (latches : Latches h at_ s t) (only : NoticeOnly t u) : Latches h at_ s u := by
  obtain ⟨_, _, _, _, _, rfl⟩ := only
  exact ⟨latches.listed, latches.now, latches.mem, latches.eff⟩

/-- The entry as it is latched, with its checks: read in time, or late. -/
def latchTail (h : Fin 8) (e code : Nat) (l : Latched) (s : State) : State :=
  if code = 0 then entryLatched h l s else slotFail h e code (((entryLatched h l s).inc (Fld.SLT_CNT_COUNT.h h)).put (Fld.SLT_STAT_BADLATCH.h h) 1)

theorem latches_latchTail (e code : Nat) {l : Latched} {at_ : Nat} (is : l.slotAt = at_) (s : State) : Latches h at_ s (latchTail h e code l s) := by
  have latched := latches_entryLatched (h := h) is s
  rw [latchTail]
  split
  · exact latched
  · exact latched.noticed ((((NoticeOnly.refl _).inc _).put _ _).trans (noticeOnly_slotFail h e code _))

/-- The read of an entry in time, or none when late. -/
def latchRead (late : Bool) (a : Nat) (s : State) : State × Bool := if late then (s, false) else s.checkRead 18 false a 96

theorem latchRead_kept (late : Bool) (a : Nat) (s : State) : (latchRead late a s).1.now = s.now ∧ (latchRead late a s).1.eff = s.eff ∧ (s.ecc = [] → (latchRead late a s).1.mem = s.mem ∧ (latchRead late a s).1.ecc = []) := by
  rw [latchRead]
  split
  · exact ⟨rfl, rfl, fun clean => ⟨rfl, clean⟩⟩
  · have form := formKept_checkRead s 18 false a 96
    exact ⟨form.data.now, form.data.eff, form.clean⟩

theorem latchSlot_eq (h : Fin 8) (late : Bool) (s : State) (runs : s.seqRuns h (s.nextSlotAt h) = true) :
    ∃ a e code l, l.slotAt = s.nextSlotAt h ∧ latchSlot h late s = latchTail h e code l (latchRead late a (s.at (s.nextSlotAt h - 100 * usU))).1 := by
  have runs' : (s.at (s.nextSlotAt h - 100 * usU)).seqRuns h (s.nextSlotAt h) = true := runs
  rw [latchSlot]
  dsimp only
  rw [runs', if_neg (by decide)]
  exact ⟨_, _, _, _, by exact rfl, rfl⟩

theorem gives_slotEntryLatch {late : Bool} (runs : s.seqRuns h (s.nextSlotAt h) = true) :
    Gives (.slotEntryLatch h late) s fun t => (∃ l ∈ t.slt[h].latched, l.slotAt = s.nextSlotAt h) ∧ t.now = max s.now (s.nextSlotAt h - 100 * usU)
      ∧ (s.ecc = [] → t.mem = s.mem) ∧ t.eff = s.eff := by
  obtain ⟨a, e, code, l, is, latched⟩ := latchSlot_eq h late s runs
  obtain ⟨now, eff, mem⟩ := latchRead_kept late a (s.at (s.nextSlotAt h - 100 * usU))
  refine ⟨latchSlot h late s, rfl, ?_⟩
  rw [latched]
  obtain ⟨v, isV⟩ : ∃ v, (latchRead late a (s.at (s.nextSlotAt h - 100 * usU))).1 = v := ⟨_, rfl⟩
  rw [isV] at now eff mem ⊢
  have latches := latches_latchTail (h := h) e code is v
  exact ⟨latches.listed, latches.now.trans now, fun clean => (latches.mem (mem clean).2).trans (mem clean).1, latches.eff.trans eff⟩

end

/-! ### The settlement -/

/-- Settles O12, by what a read of a store leaves and the rules of the table's own registers. -/
theorem slotTable : Obligations.SlotTable := by
  refine ⟨⟨?_, ?_, ?_, ?_, ?_, ?_⟩, ?_⟩
  · exact fun s r h v taken commit pend checking => gives_slotTableCommit taken commit pend checking
  · exact fun s h checks runs passes => gives_checkPassed checks runs passes
  · exact fun s h x checks runs fails => gives_checkFailed checks runs fails
  · exact fun s h d due => gives_slotTableSwap due
  · exact fun s h d v l due => gives_sltEnable due
  · intro s h frozen
    show execSlotTableCheckEnd h s = _
    have waits : s.flag (Fld.ARB_CTRL_FREEZE.h h) = true := by
      rw [State.flag, frozen]
      rfl
    rw [execSlotTableCheckEnd, waits, Bool.or_true, if_pos rfl]
  · exact fun s h late runs => gives_slotEntryLatch runs

end Sys2Proof.Machine
end

section
/-!
PROOFS. Thermal actions, the latch and the hard cut (R368, R370, R372, R373).
-/

namespace Sys2Proof.Machine

section
variable {s t : State}

/-! ### Shedding (R370) -/

/-- The level that the last of the changes for the boundary of `x` asks for. -/
def shedLevel (x : Nat × Nat) (l : List (Nat × Nat)) : Nat := ((l.filter fun y => y.1 == x.1).getLast?.getD x).2

theorem shedLevel_alone {x : Nat × Nat} {l : List (Nat × Nat)} (alone : ∀ y ∈ l, y.1 ≠ x.1) : shedLevel x l = x.2 := by
  have none : (l.filter fun y => y.1 == x.1) = [] := List.filter_eq_nil_iff.2 fun y listed => by
    rw [beq_iff_eq]
    exact alone y listed
  rw [shedLevel, none]
  rfl

theorem shedLevel_last {x y : Nat × Nat} {m n : List (Nat × Nat)} (at_ : y.1 = x.1) (last : ∀ z ∈ n, z.1 ≠ x.1) : shedLevel x (m ++ y :: n) = y.2 := by
  have none : (n.filter fun y => y.1 == x.1) = [] := List.filter_eq_nil_iff.2 fun z listed => by
    rw [beq_iff_eq]
    exact last z listed
  rw [shedLevel, List.filter_append, List.filter_cons_of_pos (by rw [beq_iff_eq]; exact at_), none, List.getLast?_append]
  rfl

theorem gives_shedTakeEffect {x : Nat × Nat} {l : List (Nat × Nat)} (due : s.thm.shedDue = x :: l) : Gives .shedTakeEffect s fun t =>
    t = { s with now := max s.now x.1, thm := { s.thm with shedWas := (x.1, s.thm.shed), shed := t.thm.shed, shedDue := l.filter fun y => y.1 != x.1 } }
      ∧ ((∀ y ∈ l, y.1 ≠ x.1) → t.thm.shed = x.2) ∧ (∀ m y n, l = m ++ y :: n → y.1 = x.1 → (∀ z ∈ n, z.1 ≠ x.1) → t.thm.shed = y.2) := by
  have ran : exec .shedTakeEffect s = .next { s with
      now := max s.now x.1, thm := { s.thm with shedWas := (x.1, s.thm.shed), shed := shedLevel x l, shedDue := l.filter fun y => y.1 != x.1 } } := by
    show execShedTakeEffect s = _
    rw [execShedTakeEffect, due]
    rfl
  exact Gives.of_eq ran ⟨rfl, shedLevel_alone, fun m y n is at_ last => by rw [is]; exact shedLevel_last at_ last⟩

/-! ### Rotation (R370) -/

section
variable {h : Fin 8}

/-- The period of a rotation. -/
def rotPeriod (w : Option Word) : Nat := match w with | some a => max 1 (getBits Fld.THM_ACTz_ROTP a) * msU | none => msU

/-- The group of a rotation's next boundary. -/
def rotNext (x : Rot) (w : Option Word) : Option Rot :=
  if x.stop then w.map fun a => ⟨0, rotSize a, x.due + rotPeriod w, false⟩
  else some { x with first := if x.first = 8 then 0 else (x.first + x.size) % 8, due := x.due + rotPeriod w }

/-- Ramps change the paths' gains with their registers, and what a calibration loses. -/
theorem rampNow_kept (h k : Fin 8) (d : Nat) (s : State) : ∃ regs mute cal, rampNow h k d s = { s with regs := regs, mute := mute, cal := cal } := by
  by_cases long : s.get ((Fld.TXC_PATHk_RAMP.i k).h h) = 0
  · rw [rampNow, long, Nat.zero_min, Nat.zero_mul]
    obtain ⟨cal, reached⟩ := muteReached_frame h k { s with mute := s.mute.set (idx64 h k) (s.mute[idx64 h k].ramp d (rampTarget s.mute[idx64 h k].muted (s.rotMuted h k)) 0) }
    exact ⟨_, _, _, reached⟩
  · obtain ⟨cal, ramped⟩ := rampNow_frame h k d s long
    exact ⟨_, _, _, ramped⟩

theorem rampAll_kept (h : Fin 8) (ks : List (Fin 8)) (d : Nat) (s : State) : ∃ regs mute cal, ks.foldl (fun s k => rampNow h k d s) s = { s with regs := regs, mute := mute, cal := cal } := by
  induction ks generalizing s with
  | nil => exact ⟨_, _, _, rfl⟩
  | cons k ks ih =>
    obtain ⟨regs, mute, cal, ramped⟩ := rampNow_kept h k d s
    rw [List.foldl_cons, ramped]
    exact ih _

theorem exec_rotationStep {x : Rot} (turns : s.thm.rot[h] = some x) : ∃ ks : List (Fin 8), exec (.rotationStep h) s = .next
    (if s.hstate h < 2 || s.inSafety h then { s with now := max s.now x.due, thm := { s.thm with rot := s.thm.rot.set h (rotNext x (s.rotWord h)) } }
      else ks.foldl (fun s k => rampNow h k x.due s) { s with now := max s.now x.due, thm := { s.thm with rot := s.thm.rot.set h (rotNext x (s.rotWord h)) } }) := by
  refine ⟨(List.finRange 8).filter fun (k : Fin 8) =>
    s.rotMuted h k != (match rotNext x (s.rotWord h) with | some y => decide (y.first ≤ k.val) && decide (k.val < y.first + y.size) | none => false), ?_⟩
  show execRotationStep h s = _
  rw [execRotationStep, turns]
  rfl

theorem gives_rotationStep {x : Rot} (turns : s.thm.rot[h] = some x) : Gives (.rotationStep h) s fun t => t.thm.rot[h] = rotNext x (s.rotWord h)
    ∧ t.now = max s.now x.due ∧ t.mem = s.mem ∧ t.eff = s.eff ∧ (s.get (Fld.TXC_STAT_SAFE.h h) = 1 → t = { s with now := t.now, thm := t.thm }) := by
  obtain ⟨ks, ran⟩ := exec_rotationStep turns
  have next : (s.thm.rot.set h (rotNext x (s.rotWord h)))[h] = rotNext x (s.rotWord h) := Vector.getElem_set_self _
  obtain ⟨rot, isRot⟩ : ∃ rot, s.thm.rot.set h (rotNext x (s.rotWord h)) = rot := ⟨_, rfl⟩
  rw [isRot] at ran next
  by_cases still : (s.hstate h < 2 || s.inSafety h) = true
  · rw [if_pos still] at ran
    exact Gives.of_eq ran ⟨next, rfl, rfl, rfl, fun _ => rfl⟩
  · rw [if_neg still] at ran
    obtain ⟨regs, mute, cal, ramped⟩ := rampAll_kept h ks x.due { s with now := max s.now x.due, thm := { s.thm with rot := rot } }
    rw [ramped] at ran
    refine Gives.of_eq ran ⟨next, rfl, rfl, rfl, fun safe => absurd ?_ still⟩
    rw [State.inSafety, State.flag, safe]
    exact Bool.or_true _

end

/-! ### The hard cut (R372) -/

theorem thmRec_hard (cause : Nat × Nat) : getBits Fld.HTH_THMREC_HARD (BitVec.ofNat 32 (thmRec true cause)) = 1 ∧ getBits Fld.HTH_THMREC_VALID (BitVec.ofNat 32 (thmRec true cause)) = 1 := by
  have one : b2n true = 1 := rfl
  simp only [getBits, thmRec, one, Fld.HTH_THMREC_HARD, Fld.HTH_THMREC_VALID, BitVec.toNat_ofNat]
  omega

theorem goDark_down (down : Nat) (s : State) : (goDark down s).pow.down = down ∧ (goDark down s).eng = State.reset.eng := by
  have eng := deviceReset_eng s
  rw [goDark]
  obtain ⟨z, isZ⟩ : ∃ z, deviceReset s = z := ⟨_, rfl⟩
  rw [isZ] at eng ⊢
  exact ⟨rfl, eng⟩

/-- The device cut hard, its decision recorded. -/
def hardDone (s : State) : State := goDark 1 (s.wr Reg.HTH_THMREC (BitVec.ofNat 32 (thmRec true s.thm.cause)))

theorem hardDone_gives (s : State) : (hardDone s).pow.down = 1 ∧ (hardDone s).pow.wakeOut = false ∧ (hardDone s).get Fld.HTH_THMREC_HARD = 1 ∧ (hardDone s).get Fld.HTH_THMREC_VALID = 1
    ∧ (hardDone s).mem = [] ∧ (∀ e : Fin 9, (hardDone s).eng[e] = {}) := by
  obtain ⟨hard, valid⟩ := thmRec_hard s.thm.cause
  rw [hardDone]
  obtain ⟨w, isW⟩ : ∃ w, BitVec.ofNat 32 (thmRec true s.thm.cause) = w := ⟨_, rfl⟩
  rw [isW] at hard valid ⊢
  have record : (s.wr Reg.HTH_THMREC w).rd Reg.HTH_THMREC = w := State.rd_wr_same _ _ _
  obtain ⟨u, isU⟩ : ∃ u, s.wr Reg.HTH_THMREC w = u := ⟨_, rfl⟩
  rw [isU] at record ⊢
  obtain ⟨regs, mem, out⟩ := goDark_regs 1 u
  obtain ⟨down, eng⟩ := goDark_down 1 u
  refine ⟨down, out, ?_, ?_, mem, fun e => (congrArg (·[e]) eng).trans (reset_eng e)⟩
  · rw [State.get_eq_rfGet, regs, rfGet_resetRegs (by decide) (by decide)]
    exact (congrArg (getBits Fld.HTH_THMREC_HARD) record).trans hard
  · rw [State.get_eq_rfGet, regs, rfGet_resetRegs (by decide) (by decide)]
    exact (congrArg (getBits Fld.HTH_THMREC_VALID) record).trans valid

theorem gives_hardCut (cuts : s.thm.hard = true ∨ s.thm.stopAt ≠ none) : Gives .hardCut s fun t => t.pow.down = 1 ∧ t.pow.wakeOut = false
    ∧ t.get Fld.HTH_THMREC_HARD = 1 ∧ t.get Fld.HTH_THMREC_VALID = 1 ∧ t.mem = [] ∧ (∀ e : Fin 9, t.eng[e] = {}) := by
  have run (u : State) (ran : exec .hardCut s = .next (hardDone u)) : Gives .hardCut s fun t => t.pow.down = 1 ∧ t.pow.wakeOut = false
      ∧ t.get Fld.HTH_THMREC_HARD = 1 ∧ t.get Fld.HTH_THMREC_VALID = 1 ∧ t.mem = [] ∧ (∀ e : Fin 9, t.eng[e] = {}) := ⟨_, ran, hardDone_gives u⟩
  by_cases hard : s.thm.hard = true
  · refine run s ?_
    show execHardCut s = _
    rw [execHardCut]
    dsimp only
    rw [if_pos hard, hardDone]
  · obtain ⟨t0, stops⟩ := Option.ne_none_iff_exists'.1 (cuts.resolve_left hard)
    refine run (s.at (t0 + msU)) ?_
    show execHardCut s = _
    rw [execHardCut]
    dsimp only
    rw [if_neg hard, stops, hardDone]

/-! ### REARM and UNPIN (R368, R373) -/

section
variable {r : Req}

/-- The zones of `v` unpinned. -/
def zonesUnpinned (v : Word) (zs : List (Fin 9)) (s : State) : State :=
  zs.foldl (fun s (z : Fin 9) => if v.getLsbD z.val then (s.setZone z (unpinned s.thm.zone[z])).clrBit Fld.THM_STAT_PINNED z else s) s

theorem zonesUnpinned_none {v : Word} {zs : List (Fin 9)} (none : ∀ z ∈ zs, v.getLsbD z.val = false) (s : State) : zonesUnpinned v zs s = s := by
  induction zs with
  | nil => rfl
  | cons z zs ih =>
    rw [zonesUnpinned, List.foldl_cons, none z (List.mem_cons_self ..)]
    exact ih fun y listed => none y (List.mem_cons_of_mem _ listed)

theorem exec_thmCtrl {v : Word} (taken : Takes s r Reg.THM_CTRL) (c : Instr) (is : exec c s = .next (regCmd r Reg.THM_CTRL v (thmCtrlWrite r v) s)) :
    exec c s = .next (if !v.getLsbD 31 then zonesUnpinned v (List.finRange 9) s.ok
      else if (List.finRange 9).any fun z => (zonesUnpinned v (List.finRange 9) s.ok).thm.zone[z].on[2] then (zonesUnpinned v (List.finRange 9) s.ok).refuse4 r Reg.THM_CTRL
      else ((zonesUnpinned v (List.finRange 9) s.ok).put Fld.THM_STAT_SDLATCH 0).put Fld.HTH_THMREC_VALID 0) := by
  rw [is, regCmd_ok taken, thmCtrlWrite]
  rfl

theorem rearm_unpins (s : State) : zonesUnpinned 0x80000000#32 (List.finRange 9) s = s := zonesUnpinned_none (by decide) s

theorem gives_thmRearm (taken : Takes s r Reg.THM_CTRL) (cool : ∀ z : Fin 9, s.thm.zone[z].on[2] = false) : Gives (.thmRearm r 0x80000000#32) s fun t =>
    t.get Fld.THM_STAT_SDLATCH = 0 ∧ t.get Fld.HTH_THMREC_VALID = 0
      ∧ t = { s with resp := { err := false, data := 0 }, regs := t.regs } ∧ SameRegs [Reg.THM_STAT, Reg.HTH_THMREC] s t := by
  have ran := exec_thmCtrl (v := 0x80000000#32) taken (.thmRearm r 0x80000000#32) rfl
  have none : ((List.finRange 9).any fun z => s.ok.thm.zone[z].on[2]) = false := List.any_eq_false.2 fun z _ => Bool.eq_false_iff.1 (cool z)
  rw [rearm_unpins, none, if_neg (by decide), if_neg Bool.false_ne_true] at ran
  have latch : ((s.ok.put Fld.THM_STAT_SDLATCH 0).put Fld.HTH_THMREC_VALID 0).get Fld.THM_STAT_SDLATCH = 0 := by
    rw [State.get_put_reg _ _ (by decide), State.get_put_same _ _ _ (by decide)]
    rfl
  have valid : ((s.ok.put Fld.THM_STAT_SDLATCH 0).put Fld.HTH_THMREC_VALID 0).get Fld.HTH_THMREC_VALID = 0 := State.get_put_same _ _ _ (by decide)
  have regs : SameRegs [Reg.THM_STAT, Reg.HTH_THMREC] s ((s.ok.put Fld.THM_STAT_SDLATCH 0).put Fld.HTH_THMREC_VALID 0) :=
    ((SameRegs.ok _ s).put (f := Fld.THM_STAT_SDLATCH) (.head _) 0).put (f := Fld.HTH_THMREC_VALID) (.tail _ (.head _)) 0
  refine ⟨_, ran, latch, valid, ?_, regs⟩
  rw [State.put_eq, State.put_eq]
  rfl

theorem gives_thmRearm_refused (taken : Takes s r Reg.THM_CTRL) (hot : ∃ z : Fin 9, s.thm.zone[z].on[2] = true) : Gives (.thmRearm r 0x80000000#32) s fun t =>
    t.get Fld.THM_STAT_SDLATCH = s.get Fld.THM_STAT_SDLATCH ∧ t.get Fld.HTH_THMREC_VALID = s.get Fld.HTH_THMREC_VALID ∧ t.thm = s.thm := by
  have ran := exec_thmCtrl (v := 0x80000000#32) taken (.thmRearm r 0x80000000#32) rfl
  have some_ : ((List.finRange 9).any fun z => s.ok.thm.zone[z].on[2]) = true := by
    obtain ⟨z, on⟩ := hot
    exact List.any_eq_true.2 ⟨z, List.mem_finRange z, on⟩
  rw [rearm_unpins, some_, if_neg (by decide), if_pos rfl] at ran
  have latch : (s.ok.refuse4 r Reg.THM_CTRL).get Fld.THM_STAT_SDLATCH = s.ok.get Fld.THM_STAT_SDLATCH := State.get_refuse4 _ _ _ (by decide) (by decide)
  have valid : (s.ok.refuse4 r Reg.THM_CTRL).get Fld.HTH_THMREC_VALID = s.ok.get Fld.HTH_THMREC_VALID := State.get_refuse4 _ _ _ (by decide) (by decide)
  have thm : (s.ok.refuse4 r Reg.THM_CTRL).thm = s.thm := by
    obtain ⟨u, ⟨_, _, _, _, _, rfl⟩, refused⟩ := noticeOnly_refuse4 s.ok r Reg.THM_CTRL
    rw [refused]
    rfl
  exact ⟨_, ran, latch, valid, thm⟩

theorem zonesUnpinned_one {v : Word} {z : Fin 9} (one : ∀ y : Fin 9, v.getLsbD y.val = decide (y = z)) {zs : List (Fin 9)} (nodup : zs.Nodup) (listed : z ∈ zs) (s : State) :
    zonesUnpinned v zs s = (s.setZone z (unpinned s.thm.zone[z])).clrBit Fld.THM_STAT_PINNED z := by
  induction zs with
  | nil => cases listed
  | cons y zs ih =>
    obtain ⟨fresh, nodup⟩ := List.nodup_cons.1 nodup
    rw [zonesUnpinned, List.foldl_cons, one y]
    by_cases is : y = z
    · rw [is, decide_eq_true rfl, if_pos rfl]
      rw [is] at fresh
      exact zonesUnpinned_none (fun x among => by rw [one x, decide_eq_false fun e : x = z => fresh (e ▸ among)]) _
    · rw [decide_eq_false is, if_neg Bool.false_ne_true]
      exact ih nodup ((List.mem_cons.1 listed).resolve_left fun e => is e.symm)

theorem bit_of_zone (z y : Fin 9) : (BitVec.ofNat 32 (2 ^ z.val)).getLsbD y.val = decide (y = z) := by
  revert z y
  decide +kernel

theorem zone_below (z : Fin 9) : (BitVec.ofNat 32 (2 ^ z.val)).getLsbD 31 = false := by
  revert z
  decide +kernel

theorem gives_thmUnpin {z : Fin 9} (taken : Takes s r Reg.THM_CTRL) : Gives (.thmUnpin r (BitVec.ofNat 32 (2 ^ z.val))) s fun t =>
    bitOf (t.get Fld.THM_STAT_PINNED) z = false ∧ t.thm.zone[z].pins = Vector.replicate 3 [] ∧ (∀ y : Fin 9, y ≠ z → t.thm.zone[y] = s.thm.zone[y])
      ∧ t = { s with resp := { err := false, data := 0 }, regs := t.regs, thm := t.thm } ∧ SameRegs [Reg.THM_STAT] s t := by
  have ran := exec_thmCtrl (v := BitVec.ofNat 32 (2 ^ z.val)) taken (.thmUnpin r (BitVec.ofNat 32 (2 ^ z.val))) rfl
  rw [zone_below, if_pos (by decide), zonesUnpinned_one (bit_of_zone z) (List.nodup_finRange 9) (List.mem_finRange z), State.setZone, State.setThm, State.clrBit_eq] at ran
  have cleared : bitOf (rfGet (rfClrBit Fld.THM_STAT_PINNED z s.regs) Fld.THM_STAT_PINNED) z = false := bitOf_rfClrBit (show Fld.THM_STAT_PINNED.fits = true by decide)
  have regs : RfSame [Reg.THM_STAT] s.regs (rfClrBit Fld.THM_STAT_PINNED z s.regs) := (RfSame.refl _ s.regs).put (show Fld.THM_STAT_PINNED.reg ∈ [Reg.THM_STAT] from .head _) _
  have pins : (s.thm.zone.set z (unpinned s.thm.zone[z]))[z].pins = Vector.replicate 3 [] := congrArg ThmZone.pins (Vector.getElem_set_self _)
  have others (y : Fin 9) (other : y ≠ z) : (s.thm.zone.set z (unpinned s.thm.zone[z]))[y] = s.thm.zone[y] := Vector.getElem_set_ne z.isLt y.isLt fun e => other (Fin.ext e.symm)
  have ran : exec (.thmUnpin r (BitVec.ofNat 32 (2 ^ z.val))) s = .next { s with
      resp := { err := false, data := 0 }, regs := rfClrBit Fld.THM_STAT_PINNED z s.regs, thm := { s.thm with zone := s.thm.zone.set z (unpinned s.thm.zone[z]) } } := ran
  obtain ⟨zone, isZone⟩ : ∃ zone, s.thm.zone.set z (unpinned s.thm.zone[z]) = zone := ⟨_, rfl⟩
  obtain ⟨l, isL⟩ : ∃ l, rfClrBit Fld.THM_STAT_PINNED z s.regs = l := ⟨_, rfl⟩
  rw [isZone, isL] at ran
  rw [isL] at cleared regs
  rw [isZone] at pins
  simp only [isZone] at others
  exact Gives.of_eq ran ⟨by rw [State.get_eq_rfGet]; exact cleared, pins, others, rfl, regs⟩

end

end

end Sys2Proof.Machine
end

section
/-!
PROOFS. The bias channels in an orderly stop, and the loss of a hamlet (R371).
-/

namespace Sys2Proof.Machine

section
variable {s t u : State} {c : Fin 32}

/-! ### A channel that an operation leaves alone -/

/-- The registers and the data of the channel `c` stand. -/
structure BiasKept (c : Fin 32) (s t : State) : Prop where
  regs : ∀ a, 0x4050100 + 32 * c.val ≤ a → a < 0x4050120 + 32 * c.val → t.rd a = s.rd a
  bias : t.bias[c] = s.bias[c]

/-- A field of a channel's registers. -/
def chanField (f : Field) : Bool := decide (0x4050100 ≤ f.reg) && decide (f.reg < 0x4050120) && decide (f.dims = [32])

theorem chanField_reg {f : Field} (of : chanField f = true) (n : Nat) : 0x4050100 + 32 * n ≤ (f.i n).reg ∧ (f.i n).reg < 0x4050120 + 32 * n := by
  rw [chanField, Bool.and_eq_true, Bool.and_eq_true, decide_eq_true_iff, decide_eq_true_iff, decide_eq_true_iff] at of
  obtain ⟨⟨low, high⟩, dims⟩ := of
  have reg : (f.i n).reg = f.reg + n * 32 := by
    rw [Field.i, dims]
    rfl
  omega

theorem BiasKept.refl (c : Fin 32) (s : State) : BiasKept c s s := ⟨fun _ _ _ => rfl, rfl⟩

theorem BiasKept.trans (first : BiasKept c s t) (second : BiasKept c t u) : BiasKept c s u :=
  ⟨fun a low high => (second.regs a low high).trans (first.regs a low high), second.bias.trans first.bias⟩

theorem BiasKept.get (kept : BiasKept c s t) {f : Field} (of : chanField f = true) : t.get (f.i c) = s.get (f.i c) := by
  obtain ⟨low, high⟩ := chanField_reg of c.val
  rw [State.get, State.get, kept.regs _ low high]

theorem BiasKept.congr (kept : BiasKept c s t) (regs : u.regs = t.regs) (bias : u.bias = t.bias) : BiasKept c s u :=
  ⟨fun a low high => (State.rd_congr regs a).trans (kept.regs a low high), by rw [bias, kept.bias]⟩

theorem BiasKept.wr (kept : BiasKept c s t) {a : Nat} (v : Word) (far : a < 0x4050100 ∨ 0x4050500 ≤ a) : BiasKept c s (t.wr a v) := by
  refine ⟨fun b low high => (State.rd_wr_ne _ _ ?_).trans (kept.regs b low high), kept.bias⟩
  have := c.isLt
  omega

theorem BiasKept.put (kept : BiasKept c s t) {f : Field} (v : Nat) (far : f.reg < 0x4050100 ∨ 0x4050500 ≤ f.reg) : BiasKept c s (t.put f v) := kept.wr _ far

theorem BiasKept.ite (p : Prop) [Decidable p] (yes : BiasKept c s t) (no : BiasKept c s u) : BiasKept c s (if p then t else u) := by
  split
  · exact yes
  · exact no

theorem BiasKept.foldl {β : Type} {f : State → β → State} {l : List β} (each : ∀ t, ∀ b ∈ l, BiasKept c t (f t b)) (s : State) : BiasKept c s (l.foldl f s) := by
  induction l generalizing s with
  | nil => exact .refl c s
  | cons b l ih => exact (each s b (List.mem_cons_self ..)).trans (ih (fun t b listed => each t b (List.mem_cons_of_mem _ listed)) _)

/-- Time, the supervisor's data and the hamlets' states stand. -/
structure StopKept (s t : State) : Prop where
  now : t.now = s.now
  thm : t.thm = s.thm
  states : t.rd Reg.PWR_HSTATE = s.rd Reg.PWR_HSTATE

theorem StopKept.refl (s : State) : StopKept s s := ⟨rfl, rfl, rfl⟩

theorem StopKept.trans (first : StopKept s t) (second : StopKept t u) : StopKept s u :=
  ⟨second.now.trans first.now, second.thm.trans first.thm, second.states.trans first.states⟩

theorem StopKept.hstate (kept : StopKept s t) (h : Nat) : t.hstate h = s.hstate h := congrArg (getBits (Fld.PWR_HSTATE_STATE.sub h)) kept.states

theorem StopKept.foldl {β : Type} {f : State → β → State} (each : ∀ t b, StopKept t (f t b)) (l : List β) (s : State) : StopKept s (l.foldl f s) := by
  induction l generalizing s with
  | nil => exact .refl s
  | cons b l ih => exact (each s b).trans (ih _)

/-- Only the channel `c` changes, and the servo's enable. -/
structure ChanOnly (c : Fin 32) (s t : State) : Prop where
  others : ∀ d : Fin 32, d ≠ c → BiasKept d s t
  stop : StopKept s t

theorem ChanOnly.refl (c : Fin 32) (s : State) : ChanOnly c s s := ⟨fun d _ => .refl d s, .refl s⟩

theorem ChanOnly.trans (first : ChanOnly c s t) (second : ChanOnly c t u) : ChanOnly c s u :=
  ⟨fun d other => (first.others d other).trans (second.others d other), first.stop.trans second.stop⟩

theorem ChanOnly.put (only : ChanOnly c s t) {f : Field} (of : chanField f = true) (v : Nat) : ChanOnly c s (t.put (f.i c) v) := by
  obtain ⟨low, high⟩ := chanField_reg of c.val
  refine only.trans ⟨fun d other => ⟨fun b lowB highB => State.rd_put_ne _ _ ?_, by rw [State.put_bias]⟩, State.put_now _ _ _, State.put_thm _ _ _, State.rd_put_ne _ _ ?_⟩
  · have : d.val ≠ c.val := fun e => other (Fin.ext e)
    omega
  · have state : Reg.PWR_HSTATE < 0x4050100 := by decide
    omega

theorem ChanOnly.servo (only : ChanOnly c s t) (v : Nat) : ChanOnly c s (t.put Fld.TIM_VCXO_EN v) :=
  only.trans ⟨fun d _ => (BiasKept.refl d t).put v (.inr (by decide)), State.put_now _ _ _, State.put_thm _ _ _, State.rd_put_ne _ _ (by decide)⟩

theorem ChanOnly.setBias (only : ChanOnly c s t) (x : Bias) : ChanOnly c s (t.setBias c x) := by
  refine only.trans ⟨fun d other => ⟨fun _ _ _ => rfl, ?_⟩, rfl, rfl, rfl⟩
  exact Vector.getElem_set_ne c.isLt d.isLt fun e => other (Fin.ext e.symm)

theorem ChanOnly.ite (p : Prop) [Decidable p] (yes : ChanOnly c s t) (no : ChanOnly c s u) : ChanOnly c s (if p then t else u) := by
  split
  · exact yes
  · exact no

/-! ### The operations on one channel -/

theorem chanOnly_startSine (c : Fin 32) (t0 : Nat) (s : State) : ChanOnly c s (startSine c t0 s) := by
  have started : ChanOnly c s (setOwner c 2 (s.put (Fld.BDA_CHc_STAT_SINEWAIT.i c) 0)) := ((ChanOnly.refl c s).put (f := Fld.BDA_CHc_STAT_SINEWAIT) (by decide) 0).put (f := Fld.BDA_CHc_STAT_OWNER) (by decide) 2
  rw [startSine]
  exact .ite _ ((started.setBias _).put (f := Fld.BDA_CHc_STAT_SAT) (by decide) 1) (started.setBias _)

theorem chanOnly_settleSine (c : Fin 32) (s : State) : ChanOnly c s (settleSine c s) := by
  rw [settleSine]
  split
  · exact chanOnly_startSine c _ s
  · exact .refl c s

theorem chanOnly_foldSine (c : Fin 32) (s : State) : ChanOnly c s (foldSine c s) := by
  rw [foldSine]
  split
  · exact .refl c s
  · have shown (x : Sine) : ChanOnly c s (if x.clamped s.now then s.put (Fld.BDA_CHc_STAT_SAT.i c) 1 else s) := .ite _ ((ChanOnly.refl c s).put (f := Fld.BDA_CHc_STAT_SAT) (by decide) 1) (.refl c s)
    exact (shown _).setBias _

theorem chanOnly_stopSine (c : Fin 32) (s : State) : ChanOnly c s (stopSine c s) := by
  rw [stopSine]
  split
  · exact .refl c s
  · have left : ChanOnly c s (((foldSine c s).put (Fld.BDA_CHc_STAT_OUT.i c) ((foldSine c s).biasOut c)).put (Fld.BDA_CHc_SINE_EN.i c) 0) :=
      ((chanOnly_foldSine c s).put (f := Fld.BDA_CHc_STAT_OUT) (by decide) _).put (f := Fld.BDA_CHc_SINE_EN) (by decide) 0
    exact (left.setBias _).put (f := Fld.BDA_CHc_STAT_OWNER) (by decide) 0

/-- A channel that no slew, sine or servo owns. -/
structure Freed (c : Fin 32) (t : State) : Prop where
  owner : t.get (Fld.BDA_CHc_STAT_OWNER.i c) = 0
  off : t.get (Fld.BDA_CHc_SINE_EN.i c) = 0
  sine : t.bias[c].sine = none

theorem Freed.kept (freed : Freed c s) (kept : BiasKept c s t) : Freed c t :=
  ⟨(kept.get (f := Fld.BDA_CHc_STAT_OWNER) (by decide)).trans freed.owner, (kept.get (f := Fld.BDA_CHc_SINE_EN) (by decide)).trans freed.off, by rw [kept.bias, freed.sine]⟩

/-- The sine's enable lies apart from the state word. -/
theorem sineEn_apart (c : Fin 32) {f : Field} (stat : f.reg = 0x4050114 ∧ f.dims = [32]) : (Fld.BDA_CHc_SINE_EN.i c).reg ≠ (f.i c).reg := by
  have reg : (f.i c).reg = 0x4050114 + c.val * 32 := by
    rw [Field.i, stat.1, stat.2]
    rfl
  rw [reg]
  show 0x405010C + c.val * 32 ≠ _
  omega

/-- The owner left: the channel's own state after the fields are put. -/
theorem freed_left (c : Fin 32) (s : State) (x : Bias) (none_ : x.sine = none) :
    Freed c (setOwner c 0 (((s.put (Fld.BDA_CHc_SINE_EN.i c) 0).put (Fld.BDA_CHc_STAT_SINEWAIT.i c) 0).setBias c x)) := by
  have off : ((s.put (Fld.BDA_CHc_SINE_EN.i c) 0).put (Fld.BDA_CHc_STAT_SINEWAIT.i c) 0).get (Fld.BDA_CHc_SINE_EN.i c) = 0 := by
    rw [State.get_put_reg _ _ (sineEn_apart c ⟨rfl, rfl⟩), State.get_put_same _ _ _ (show 31 + 1 ≤ 32 by decide)]
    exact Nat.zero_mod _
  obtain ⟨v, isV⟩ : ∃ v, (s.put (Fld.BDA_CHc_SINE_EN.i c) 0).put (Fld.BDA_CHc_STAT_SINEWAIT.i c) 0 = v := ⟨_, rfl⟩
  rw [isV] at off ⊢
  have off' : (v.setBias c x).get (Fld.BDA_CHc_SINE_EN.i c) = 0 := (State.get_congr rfl _).trans off
  refine ⟨(State.get_put_same _ _ _ (show 30 + 2 ≤ 32 by decide)).trans (Nat.zero_mod _), ?_, ?_⟩
  · rw [setOwner, State.get_put_reg _ _ (sineEn_apart c ⟨rfl, rfl⟩), off']
  · rw [setOwner, State.put_bias, setBias_self, none_]

/-- One channel leaves its owner (R371 step 2). -/
def ownerLeft (s : State) (c : Fin 32) : State :=
  let s := stopSine c (settleSine c s)
  let s := if s.biasOwner c = 3 then s.put Fld.TIM_VCXO_EN 0 else s
  setOwner c 0 (((s.put (Fld.BDA_CHc_SINE_EN.i c) 0).put (Fld.BDA_CHc_STAT_SINEWAIT.i c) 0).setBias c { s.bias[c] with step := none, start := false, sine := none })

theorem ownerLeft_gives (c : Fin 32) (s : State) : ChanOnly c s (ownerLeft s c) ∧ Freed c (ownerLeft s c) := by
  have ended : ChanOnly c s (stopSine c (settleSine c s)) := (chanOnly_settleSine c s).trans (chanOnly_stopSine c _)
  rw [ownerLeft]
  obtain ⟨v, isV⟩ : ∃ v, stopSine c (settleSine c s) = v := ⟨_, rfl⟩
  rw [isV] at ended ⊢
  have parted : ChanOnly c s (if v.biasOwner c = 3 then v.put Fld.TIM_VCXO_EN 0 else v) := .ite _ (ended.servo 0) ended
  dsimp only
  obtain ⟨w, isW⟩ : ∃ w, (if v.biasOwner c = 3 then v.put Fld.TIM_VCXO_EN 0 else v) = w := ⟨_, rfl⟩
  rw [isW] at parted ⊢
  have put : ChanOnly c s ((w.put (Fld.BDA_CHc_SINE_EN.i c) 0).put (Fld.BDA_CHc_STAT_SINEWAIT.i c) 0) := (parted.put (f := Fld.BDA_CHc_SINE_EN) (by decide) 0).put (f := Fld.BDA_CHc_STAT_SINEWAIT) (by decide) 0
  exact ⟨(put.setBias _).put (f := Fld.BDA_CHc_STAT_OWNER) (by decide) 0, freed_left c w _ rfl⟩

theorem freedAll_ownerLeft (l : List (Fin 32)) (s : State) (done : Fin 32 → Prop) (before : ∀ c, done c → Freed c s) :
    (∀ c, done c ∨ c ∈ l → Freed c (l.foldl ownerLeft s)) ∧ StopKept s (l.foldl ownerLeft s) := by
  induction l generalizing s done with
  | nil => exact ⟨fun c among => before c (among.resolve_right List.not_mem_nil), .refl s⟩
  | cons d l ih =>
    obtain ⟨only, freed⟩ := ownerLeft_gives d s
    obtain ⟨all, stop⟩ := ih (ownerLeft s d) (fun c => done c ∨ c = d) fun c among => by
      by_cases is : c = d
      · rw [is]
        exact freed
      · exact (before c (among.resolve_right is)).kept (only.others c is)
    exact ⟨fun c among => all c (by rcases among with at_ | at_; exacts [.inl (.inl at_), (List.mem_cons.1 at_).imp .inr id]), only.stop.trans stop⟩

theorem leaveOwners_gives (s : State) : (∀ c, Freed c (leaveOwners s)) ∧ StopKept s (leaveOwners s) := by
  obtain ⟨all, stop⟩ := freedAll_ownerLeft (List.finRange 32) s (fun _ => False) fun _ => False.elim
  exact ⟨fun c => all c (.inr (List.mem_finRange c)), stop⟩

/-! ### A domain's channels forced to their clear codes -/

/-- A channel forced to its clear code, its domain off. -/
def forcedOff (s : State) (c : Fin 32) : State := (forceClear s c).put (Fld.BDA_CHc_STAT_FLOAT.i c) 1

theorem freed_shown (freed : Freed c s) : Freed c (s.put (Fld.BDA_CHc_STAT_CLRD.i c) 1) ∧ Freed c (s.put (Fld.BDA_CHc_STAT_FLOAT.i c) 1) := by
  obtain ⟨owner, off, sine⟩ := freed
  refine ⟨⟨?_, ?_, by rw [State.put_bias, sine]⟩, ⟨?_, ?_, by rw [State.put_bias, sine]⟩⟩
  · rw [State.get_put_ne _ _ (show 28 + 1 ≤ 32 by decide) (.inr (show 28 + 1 ≤ 30 by decide)), owner]
  · rw [State.get_put_reg _ _ (sineEn_apart c ⟨rfl, rfl⟩), off]
  · rw [State.get_put_ne _ _ (show 29 + 1 ≤ 32 by decide) (.inr (show 29 + 1 ≤ 30 by decide)), owner]
  · rw [State.get_put_reg _ _ (sineEn_apart c ⟨rfl, rfl⟩), off]

theorem forcedOff_gives (c : Fin 32) (s : State) : ChanOnly c s (forcedOff s c) ∧ Freed c (forcedOff s c) := by
  have folded := chanOnly_foldSine c s
  rw [forcedOff, forceClear]
  obtain ⟨v, isV⟩ : ∃ v, foldSine c s = v := ⟨_, rfl⟩
  rw [isV] at folded ⊢
  have parted : ChanOnly c s (if v.biasOwner c = 3 then v.put Fld.TIM_VCXO_EN 0 else v) := .ite _ (folded.servo 0) folded
  obtain ⟨w, isW⟩ : ∃ w, (if v.biasOwner c = 3 then v.put Fld.TIM_VCXO_EN 0 else v) = w := ⟨_, rfl⟩
  rw [isW] at parted ⊢
  have out : ChanOnly c s (w.put (Fld.BDA_CHc_STAT_OUT.i c) (w.get (Fld.BDA_CHc_CLR_CODE.i c))) := parted.put (f := Fld.BDA_CHc_STAT_OUT) (by decide) _
  obtain ⟨x, isX⟩ : ∃ x, w.put (Fld.BDA_CHc_STAT_OUT.i c) (w.get (Fld.BDA_CHc_CLR_CODE.i c)) = x := ⟨_, rfl⟩
  rw [isX] at out ⊢
  have put : ChanOnly c s ((x.put (Fld.BDA_CHc_SINE_EN.i c) 0).put (Fld.BDA_CHc_STAT_SINEWAIT.i c) 0) := (out.put (f := Fld.BDA_CHc_SINE_EN) (by decide) 0).put (f := Fld.BDA_CHc_STAT_SINEWAIT) (by decide) 0
  refine ⟨(((put.setBias _).put (f := Fld.BDA_CHc_STAT_OWNER) (by decide) 0).put (f := Fld.BDA_CHc_STAT_CLRD) (by decide) 1).put (f := Fld.BDA_CHc_STAT_FLOAT) (by decide) 1, ?_⟩
  exact (freed_shown (freed_shown (freed_left c x _ rfl)).1).2

theorem biasDomain_off (h : Fin 8) (s : State) : biasDomain h false s = (biasOf h).foldl forcedOff s := rfl

theorem mem_biasOf {h : Fin 8} : c ∈ biasOf h ↔ c.val / 4 = h.val := by
  rw [biasOf, List.mem_filter, beq_iff_eq]
  exact ⟨fun listed => listed.2, fun is => ⟨List.mem_finRange c, is⟩⟩

theorem freed_forcedOff (l : List (Fin 32)) (s : State) (freed : Freed c s) : Freed c (l.foldl forcedOff s) := by
  induction l generalizing s with
  | nil => exact freed
  | cons d l ih =>
    obtain ⟨only, now⟩ := forcedOff_gives d s
    refine ih _ ?_
    by_cases is : c = d
    · rw [is]
      exact now
    · exact freed.kept (only.others c is)

theorem kept_forcedOff {l : List (Fin 32)} (outside : c ∉ l) (s : State) : BiasKept c s (l.foldl forcedOff s) :=
  .foldl (fun t d listed => (forcedOff_gives d t).1.others c fun e => outside (e ▸ listed)) s

theorem stop_forcedOff (l : List (Fin 32)) (s : State) : StopKept s (l.foldl forcedOff s) := .foldl (fun t d => (forcedOff_gives d t).1.stop) l s

end

end Sys2Proof.Machine
end

section
/-!
PROOFS. The orderly stop (R371, R373); the settlement of O39.
-/

namespace Sys2Proof.Machine

section
variable {s t u : State} {c : Fin 32} {h : Fin 8}

/-! ### A hamlet lost -/

theorem rfRead_filter_keep (l : RegFile) (p : Nat → Bool) {a : Nat} (keep : p a = true) : rfRead (l.filter fun x => p x.1) a = rfRead l a := by
  have same : (fun x : Nat × Word => decide (p x.1 = true ∧ (x.1 == a) = true)) = fun x => x.1 == a := by
    funext x
    by_cases at_ : x.1 = a
    · simp [at_, keep]
    · simp [at_]
  rw [rfRead, rfRead, List.find?_filter, same]

/-- The registers below the hamlets' windows stand when a hamlet's are reset. -/
theorem rd_resetHamlet (h : Fin 8) (s : State) {a : Nat} (low : a < 0x10000000) : (s.resetRegs (inHamlet h)).rd a = s.rd a := by
  have outside : (!inHamlet h a) = true := by
    rw [inHamlet, hamletOf, if_neg (by omega)]
    rfl
  exact rfRead_filter_keep s.regs (fun x => !inHamlet h x) outside

/-- What the loss of the hamlet `h` leaves: time, the supervisor's data, the other hamlets' states. -/
structure LoseKept (h : Fin 8) (s t : State) : Prop where
  now : t.now = s.now
  thm : t.thm = s.thm
  states : ∀ g : Fin 8, g ≠ h → t.hstate g = s.hstate g

theorem LoseKept.trans (first : LoseKept h s t) (second : LoseKept h t u) : LoseKept h s u :=
  ⟨second.now.trans first.now, second.thm.trans first.thm, fun g other => (second.states g other).trans (first.states g other)⟩

theorem StopKept.lose (kept : StopKept s t) (h : Fin 8) : LoseKept h s t := ⟨kept.now, kept.thm, fun g _ => kept.hstate g⟩

theorem bias_quietTrain {a : Nat} (low : 0x4050100 + 32 * c.val ≤ a) (high : a < 0x4050120 + 32 * c.val) : trainTouches a = false := by
  have := c.isLt
  simp only [trainTouches, raiseTouches, Reg.LNK_CTRL, Reg.LNK_PLANEn, Reg.TIM_STAT, Reg.TIM_SRCSTAT, Reg.TIM_CNTn, Reg.LNK_FLOWf_STAT, Reg.LNK_CNTn, Reg.LNK_ULC_CFG, Reg.LNK_STAT, Reg.LNK_CAP,
    Bool.or_eq_false_iff, Bool.and_eq_false_iff, decide_eq_false_iff_not, beq_eq_false_iff_ne]
  omega

theorem trainOnly_breakLocks (h : Fin 8) (owners : List Nat) (s : State) : TrainOnly s (s.breakLocks h owners) := by
  rw [State.breakLocks]
  exact TrainOnly.foldl (fun t n _ => TrainOnly.ite (trainOnly_breakLock h n) (.refl t)) (.refl s)

theorem TrainOnly.biasKept (only : TrainOnly s t) (c : Fin 32) : BiasKept c s t := by
  refine ⟨fun a low high => only.regs a (bias_quietTrain low high), ?_⟩
  obtain ⟨_, _, _, _, _, _, rfl⟩ := only.frame
  rfl

theorem TrainOnly.stopKept (only : TrainOnly s t) : StopKept s t := by
  have states := only.regs Reg.PWR_HSTATE (by decide)
  obtain ⟨_, _, _, _, _, _, rfl⟩ := only.frame
  exact ⟨rfl, rfl, states⟩

theorem loseCal_eq (s : State) (h : Fin 8) (kinds : Nat → Bool) : ∃ cal, s.loseCal h kinds = { s with cal := cal } := by
  rw [State.loseCal]
  split
  · split
    · exact ⟨_, rfl⟩
    · exact ⟨s.cal, rfl⟩
  · exact ⟨s.cal, rfl⟩

/-- The hamlet's own blocks cleared: its registers, stores, engine and units. -/
def hamletGone (h : Fin 8) (s : State) : State :=
  let s := clearHamlet h ((s.resetRegs (inHamlet h)).clearMem (inHamlet h))
  { s with
    ecc := s.ecc.filter fun e => !inHamlet h e.word
    sto := s.sto.set h.val {} (by omega)
    hpow := s.hpow.set h {}
    rejoin := s.rejoin.set h (some notActive) }

theorem hamletGone_kept (h : Fin 8) (s : State) : (∀ c, BiasKept c s (hamletGone h s)) ∧ StopKept s (hamletGone h s) := by
  have regs (a : Nat) (low : a < 0x10000000) : (hamletGone h s).rd a = s.rd a := rd_resetHamlet h s low
  refine ⟨fun c => ⟨fun a _ high => regs a ?_, rfl⟩, rfl, rfl, regs _ (by decide)⟩
  have := c.isLt
  omega

/-- The hamlet `h` in OFF, its image no longer protected. -/
def hamletOff (h : Fin 8) (s : State) : State := unprotect ⟨h.val, by omega⟩ ((s.put (Fld.PWR_HSTATE_BUSY.sub h) 0).setHstate h 0)

theorem loseHamlet_eq (h : Fin 8) (s : State) : loseHamlet h s = (biasOf h).foldl forcedOff (hamletOff h (hamletGone h ((s.breakLocks h [1, 2, 3, 4, 5]).loseCal h fun _ => true))) := rfl

theorem state_fits (h : Fin 8) : (Fld.PWR_HSTATE_STATE.sub h).lo + (Fld.PWR_HSTATE_STATE.sub h).width ≤ 32 ∧ (Fld.PWR_HSTATE_BUSY.sub h).lo + (Fld.PWR_HSTATE_BUSY.sub h).width ≤ 32 := by
  revert h
  decide

theorem state_apart {g h : Fin 8} (other : g ≠ h) : (Fld.PWR_HSTATE_STATE.sub g).lo + (Fld.PWR_HSTATE_STATE.sub g).width ≤ (Fld.PWR_HSTATE_STATE.sub h).lo
    ∨ (Fld.PWR_HSTATE_STATE.sub h).lo + (Fld.PWR_HSTATE_STATE.sub h).width ≤ (Fld.PWR_HSTATE_STATE.sub g).lo := by
  revert g h
  decide

theorem busy_apart (g h : Fin 8) : (Fld.PWR_HSTATE_STATE.sub g).lo + (Fld.PWR_HSTATE_STATE.sub g).width ≤ (Fld.PWR_HSTATE_BUSY.sub h).lo
    ∨ (Fld.PWR_HSTATE_BUSY.sub h).lo + (Fld.PWR_HSTATE_BUSY.sub h).width ≤ (Fld.PWR_HSTATE_STATE.sub g).lo := by
  revert g h
  decide

theorem hamletOff_kept (h : Fin 8) (s : State) : (∀ c, BiasKept c s (hamletOff h s)) ∧ LoseKept h s (hamletOff h s) := by
  have image : 0x4050500 ≤ Reg.AGT_HIMGh + 4 * h.val := Nat.le_trans (by decide : 0x4050500 ≤ Reg.AGT_HIMGh) (Nat.le_add_right _ _)
  have low : (Fld.PWR_HSTATE_BUSY.sub h).reg < 0x4050100 := (by decide : Reg.PWR_HSTATE < 0x4050100)
  have low' : (Fld.PWR_HSTATE_STATE.sub h).reg < 0x4050100 := (by decide : Reg.PWR_HSTATE < 0x4050100)
  refine ⟨fun c => ?_, ?_, ?_, fun g other => ?_⟩
  · exact ((((BiasKept.refl c s).put 0 (.inl low)).put 0 (.inl low')).wr 0#32 (.inr image)).congr rfl rfl
  · show ((s.put (Fld.PWR_HSTATE_BUSY.sub h) 0).put (Fld.PWR_HSTATE_STATE.sub h) 0).now = _
    rw [State.put_now, State.put_now]
  · show ((s.put (Fld.PWR_HSTATE_BUSY.sub h) 0).put (Fld.PWR_HSTATE_STATE.sub h) 0).thm = _
    rw [State.put_thm, State.put_thm]
  · have apart : (Fld.PWR_HSTATE_STATE.sub g).reg ≠ Reg.AGT_HIMGh + 4 * h.val := by
      have state : (Fld.PWR_HSTATE_STATE.sub g).reg < 0x4050100 := (by decide : Reg.PWR_HSTATE < 0x4050100)
      omega
    have wr : (hamletOff h s).hstate g = ((s.put (Fld.PWR_HSTATE_BUSY.sub h) 0).put (Fld.PWR_HSTATE_STATE.sub h) 0).hstate g :=
      congrArg (getBits (Fld.PWR_HSTATE_STATE.sub g)) (State.rd_wr_ne _ 0#32 apart)
    rw [wr, State.hstate, State.hstate, State.get_put_ne _ _ (state_fits h).1 (state_apart other), State.get_put_ne _ _ (state_fits h).2 (busy_apart g h)]

/-- The hamlet `h` before its bias domain goes off: every channel stands. -/
theorem hamletLost_kept (h : Fin 8) (s : State) : (∀ c, BiasKept c s (hamletOff h (hamletGone h ((s.breakLocks h [1, 2, 3, 4, 5]).loseCal h fun _ => true))))
    ∧ LoseKept h s (hamletOff h (hamletGone h ((s.breakLocks h [1, 2, 3, 4, 5]).loseCal h fun _ => true))) := by
  have broken := trainOnly_breakLocks h [1, 2, 3, 4, 5] s
  obtain ⟨cal, lost⟩ := loseCal_eq (s.breakLocks h [1, 2, 3, 4, 5]) h fun _ => true
  rw [lost]
  obtain ⟨v, isV⟩ : ∃ v, s.breakLocks h [1, 2, 3, 4, 5] = v := ⟨_, rfl⟩
  rw [isV] at broken ⊢
  have data : (∀ c, BiasKept c v { v with cal := cal }) ∧ StopKept v { v with cal := cal } := ⟨fun c => ⟨fun _ _ _ => rfl, rfl⟩, rfl, rfl, rfl⟩
  obtain ⟨w, isW⟩ : ∃ w, ({ v with cal := cal } : State) = w := ⟨_, rfl⟩
  rw [isW] at data ⊢
  obtain ⟨goneBias, gone⟩ := hamletGone_kept h w
  obtain ⟨offBias, off⟩ := hamletOff_kept h (hamletGone h w)
  exact ⟨fun c => (((broken.biasKept c).trans (data.1 c)).trans (goneBias c)).trans (offBias c), (((broken.stopKept.trans data.2).trans gone).lose h).trans off⟩

theorem loseHamlet_freed (h : Fin 8) (freed : Freed c s) : Freed c (loseHamlet h s) := by
  rw [loseHamlet_eq]
  exact freed_forcedOff _ _ (freed.kept ((hamletLost_kept h s).1 c))

theorem loseHamlet_kept (h : Fin 8) (s : State) : LoseKept h s (loseHamlet h s) := by
  rw [loseHamlet_eq]
  exact (hamletLost_kept h s).2.trans ((stop_forcedOff _ _).lose h)

theorem loseHamlet_others (h : Fin 8) (other : c.val / 4 ≠ h.val) (s : State) : BiasKept c s (loseHamlet h s) := by
  rw [loseHamlet_eq]
  exact ((hamletLost_kept h s).1 c).trans (kept_forcedOff (fun listed => other (mem_biasOf.1 listed)) _)

/-! ### A step of the orderly stop (R371) -/

/-- A hamlet goes to OFF once its channels have arrived. -/
def hamletStopped (s : State) (h : Fin 8) : State := if s.hstate h = 0 || (2 ≤ s.hstate h && (biasOf h).any s.biasBusy) then s else loseHamlet h s

theorem exec_orderlyStopBias {t0 : Nat} (stops : s.thm.stopAt = some t0) : exec .orderlyStopBias s = .next ((List.finRange 8).foldl hamletStopped
    (let u := if s.thm.steps = 0 then leaveOwners (s.at (t0 + (100 + s.thm.steps) * usU)) else stepClear (s.at (t0 + (100 + s.thm.steps) * usU))
     u.setThm { u.thm with steps := s.thm.steps + 1 })) := by
  show execOrderlyStopBias s = _
  rw [execOrderlyStopBias, stops]
  rfl

/-- Time and the supervisor's data stand while hamlets are stopped. -/
theorem hamletsStopped_kept (l : List (Fin 8)) (s : State) : (l.foldl hamletStopped s).now = s.now ∧ (l.foldl hamletStopped s).thm = s.thm := by
  induction l generalizing s with
  | nil => exact ⟨rfl, rfl⟩
  | cons h l ih =>
    obtain ⟨now, thm⟩ := ih (hamletStopped s h)
    have one : (hamletStopped s h).now = s.now ∧ (hamletStopped s h).thm = s.thm := by
      rw [hamletStopped]
      split
      · exact ⟨rfl, rfl⟩
      · exact ⟨(loseHamlet_kept h s).now, (loseHamlet_kept h s).thm⟩
    exact ⟨now.trans one.1, thm.trans one.2⟩

theorem hamletsStopped_freed (l : List (Fin 8)) (freed : Freed c s) : Freed c (l.foldl hamletStopped s) := by
  induction l generalizing s with
  | nil => exact freed
  | cons h l ih =>
    refine ih ?_
    rw [hamletStopped]
    split
    · exact freed
    · exact loseHamlet_freed h freed

theorem gives_ownersLeft {t0 : Nat} (stops : s.thm.stopAt = some t0) (first : s.thm.steps = 0) : Gives .orderlyStopBias s fun t => t.now = max s.now (t0 + 100 * usU) ∧ t.thm.steps = 1
    ∧ (∀ c : Fin 32, t.get (Fld.BDA_CHc_STAT_OWNER.i c) = 0 ∧ t.get (Fld.BDA_CHc_SINE_EN.i c) = 0 ∧ t.bias[c].sine = none) := by
  have ran := exec_orderlyStopBias stops
  rw [first] at ran
  obtain ⟨freed, stop⟩ := leaveOwners_gives (s.at (t0 + (100 + 0) * usU))
  refine ⟨_, ran, ?_⟩
  rw [if_pos rfl]
  obtain ⟨v, isV⟩ : ∃ v, leaveOwners (s.at (t0 + (100 + 0) * usU)) = v := ⟨_, rfl⟩
  rw [isV] at freed stop ⊢
  dsimp only
  obtain ⟨now, thm⟩ := hamletsStopped_kept (List.finRange 8) (v.setThm { v.thm with steps := 0 + 1 })
  refine ⟨now.trans stop.now, by rw [thm]; rfl, fun c => ?_⟩
  obtain ⟨owner, off, sine⟩ := freed c
  have freed' : Freed c (v.setThm { v.thm with steps := 0 + 1 }) := ⟨owner, off, sine⟩
  obtain ⟨owner, off, sine⟩ := hamletsStopped_freed (List.finRange 8) freed'
  exact ⟨owner, off, sine⟩

/-! ### The step towards the clear codes -/

/-- The next code of a channel on its way to its clear code. -/
def clearNext (out clr n : Nat) : Nat := if out < clr then min clr (out + n) else max clr (out - n)

/-- One step of one channel. -/
def channelStepped (n : Nat) (s : State) (c : Fin 32) : State :=
  if s.biasUp c then s.put (Fld.BDA_CHc_STAT_OUT.i c) (clearNext (s.get (Fld.BDA_CHc_STAT_OUT.i c)) (s.get (Fld.BDA_CHc_CLR_CODE.i c)) n) else s

theorem stepClear_eq (s : State) : stepClear s = (List.finRange 32).foldl (channelStepped (max 1 (s.get Fld.THM_SDCFG_SDSTEP))) s := rfl

theorem chanOnly_stepped (n : Nat) (s : State) (c : Fin 32) : ChanOnly c s (channelStepped n s c) := .ite _ ((ChanOnly.refl c s).put (f := Fld.BDA_CHc_STAT_OUT) (by decide) _) (.refl c s)

theorem stepped_kept (n : Nat) {l : List (Fin 32)} (outside : c ∉ l) (s : State) : BiasKept c s (l.foldl (channelStepped n) s) :=
  .foldl (fun t d listed => (chanOnly_stepped n t d).others c fun e => outside (e ▸ listed)) s

theorem stop_stepped (n : Nat) (l : List (Fin 32)) (s : State) : StopKept s (l.foldl (channelStepped n) s) := .foldl (fun t d => (chanOnly_stepped n t d).stop) l s

/-- A channel that is up, on its way: its code, its clear code, no sine. -/
structure OnWay (c : Fin 32) (out clr : Nat) (t : State) : Prop where
  up : t.biasUp c = true
  out : t.get (Fld.BDA_CHc_STAT_OUT.i c) = out
  clr : t.get (Fld.BDA_CHc_CLR_CODE.i c) = clr
  still : t.bias[c].sine = none

theorem OnWay.kept {out clr : Nat} (way : OnWay c out clr s) (kept : BiasKept c s t) (states : t.hstate (c.val / 4) = s.hstate (c.val / 4)) : OnWay c out clr t :=
  ⟨by rw [State.biasUp, states]; exact way.up, (kept.get (f := Fld.BDA_CHc_STAT_OUT) (by decide)).trans way.out, (kept.get (f := Fld.BDA_CHc_CLR_CODE) (by decide)).trans way.clr,
    by rw [kept.bias, way.still]⟩

theorem clearNext_lt {out clr n : Nat} (small : out < 2 ^ 14) (small' : clr < 2 ^ 14) : clearNext out clr n < 2 ^ 14 := by
  rw [clearNext]
  split <;> omega

theorem onWay_stepped {out clr n : Nat} (way : OnWay c out clr s) : OnWay c (clearNext out clr n) clr (channelStepped n s c) := by
  have small : out < 2 ^ 14 := by rw [← way.out]; exact State.get_lt s (Fld.BDA_CHc_STAT_OUT.i c)
  have small' : clr < 2 ^ 14 := by rw [← way.clr]; exact State.get_lt s (Fld.BDA_CHc_CLR_CODE.i c)
  have apart : (Fld.BDA_CHc_CLR_CODE.i c).reg ≠ (Fld.BDA_CHc_STAT_OUT.i c).reg := by
    show 0x4050108 + c.val * 32 ≠ 0x4050114 + c.val * 32
    omega
  have only := chanOnly_stepped n s c
  have states := only.stop.hstate (c.val / 4)
  rw [channelStepped, way.up, if_pos rfl, way.out, way.clr] at states ⊢
  refine ⟨by rw [State.biasUp, states]; exact way.up, ?_, ?_, by rw [State.put_bias, way.still]⟩
  · rw [State.get_put_same _ _ _ (show 0 + 14 ≤ 32 by decide)]
    exact Nat.mod_eq_of_lt (clearNext_lt small small')
  · rw [State.get_put_reg _ _ apart, way.clr]

theorem onWay_stepClear {out clr : Nat} (way : OnWay c out clr s) : OnWay c (clearNext out clr (max 1 (s.get Fld.THM_SDCFG_SDSTEP))) clr (stepClear s) := by
  obtain ⟨n, isN⟩ : ∃ n, max 1 (s.get Fld.THM_SDCFG_SDSTEP) = n := ⟨_, rfl⟩
  rw [stepClear_eq, isN]
  obtain ⟨m, l, split⟩ := List.append_of_mem (List.mem_finRange c)
  have nodup := List.nodup_finRange 32
  rw [split] at nodup ⊢
  obtain ⟨_, tail, apart⟩ := List.nodup_append.1 nodup
  have before : c ∉ m := fun listed => apart c listed c (List.mem_cons_self ..) rfl
  have after : c ∉ l := (List.nodup_cons.1 tail).1
  rw [List.foldl_append, List.foldl_cons]
  have first := way.kept (stepped_kept n before s) ((stop_stepped n m s).hstate _)
  exact (onWay_stepped first).kept (stepped_kept n after _) ((stop_stepped n l _).hstate _)

theorem onWay_stopped {out clr : Nat} (away : out ≠ clr) (l : List (Fin 8)) (way : OnWay c out clr s) : OnWay c out clr (l.foldl hamletStopped s) := by
  induction l generalizing s with
  | nil => exact way
  | cons h l ih =>
    refine ih ?_
    rw [hamletStopped]
    split
    · exact way
    · rename_i goes
      by_cases own : c.val / 4 = h.val
      · have busy : s.biasBusy c = true := by
          rw [State.biasBusy, State.biasOut, way.still]
          dsimp only
          rw [way.out, way.clr, bne_iff_ne.2 away]
          rfl
        have up : 2 ≤ s.hstate h := by
          have up := way.up
          rw [State.biasUp, decide_eq_true_iff] at up
          rwa [own] at up
        refine absurd ?_ goes
        rw [Bool.or_eq_true, Bool.and_eq_true, decide_eq_true_iff]
        exact .inr ⟨decide_eq_true up, List.any_eq_true.2 ⟨c, mem_biasOf.2 own, busy⟩⟩
      · have eighth : c.val / 4 < 8 := by
          have := c.isLt
          omega
        exact way.kept (loseHamlet_others h own s) ((loseHamlet_kept h s).states ⟨c.val / 4, eighth⟩ fun e => own (congrArg Fin.val e))

theorem gives_stepped {t0 : Nat} (stops : s.thm.stopAt = some t0) (later : s.thm.steps ≠ 0) : Gives .orderlyStopBias s fun t =>
    t.now = max s.now (t0 + (100 + s.thm.steps) * usU) ∧ t.thm.steps = s.thm.steps + 1
      ∧ (∀ c : Fin 32, s.biasUp c = true → s.bias[c].sine = none →
        clearNext (s.get (Fld.BDA_CHc_STAT_OUT.i c)) (s.get (Fld.BDA_CHc_CLR_CODE.i c)) (max 1 (s.get Fld.THM_SDCFG_SDSTEP)) ≠ s.get (Fld.BDA_CHc_CLR_CODE.i c) →
        t.get (Fld.BDA_CHc_STAT_OUT.i c) = clearNext (s.get (Fld.BDA_CHc_STAT_OUT.i c)) (s.get (Fld.BDA_CHc_CLR_CODE.i c)) (max 1 (s.get Fld.THM_SDCFG_SDSTEP))) := by
  have ran := exec_orderlyStopBias stops
  rw [if_neg later] at ran
  have stop := stop_stepped (max 1 ((s.at (t0 + (100 + s.thm.steps) * usU)).get Fld.THM_SDCFG_SDSTEP)) (List.finRange 32) (s.at (t0 + (100 + s.thm.steps) * usU))
  rw [← stepClear_eq] at stop
  have ways (c : Fin 32) (up : s.biasUp c = true) (still : s.bias[c].sine = none) := onWay_stepClear (s := s.at (t0 + (100 + s.thm.steps) * usU)) (c := c) ⟨up, rfl, rfl, still⟩
  refine ⟨_, ran, ?_⟩
  obtain ⟨v, isV⟩ : ∃ v, stepClear (s.at (t0 + (100 + s.thm.steps) * usU)) = v := ⟨_, rfl⟩
  rw [isV] at stop ⊢
  simp only [isV] at ways
  dsimp only
  obtain ⟨now, thm⟩ := hamletsStopped_kept (List.finRange 8) (v.setThm { v.thm with steps := s.thm.steps + 1 })
  refine ⟨now.trans stop.now, by rw [thm]; rfl, fun c up still away => ?_⟩
  obtain ⟨up', out, clr, still'⟩ := ways c up still
  have way : OnWay c _ _ (v.setThm { v.thm with steps := s.thm.steps + 1 }) := ⟨up', out, clr, still'⟩
  exact (onWay_stopped away (List.finRange 8) way).out

end

end Sys2Proof.Machine
end

section
/-!
PROOFS. The end of the orderly stop (R371, R373); the settlement of O39.
-/

namespace Sys2Proof.Machine

section
variable {s t u : State}

/-! ### Accesses that waited for a hamlet are failed -/

/-- The registers that a failed access writes. -/
def failRegs : List Nat := (Fld.LNK_CNTn_COUNT.i 9).reg :: stageRegs 1

/-- What the failed accesses leave: registers outside the list, the supervisor's data, the stores, time. -/
structure AnswerKept (s t : State) : Prop where
  regs : SameRegs failRegs s t
  thm : t.thm = s.thm
  mem : t.mem = s.mem
  now : t.now = s.now

theorem AnswerKept.refl (s : State) : AnswerKept s s := ⟨.refl _ s, rfl, rfl, rfl⟩

theorem AnswerKept.trans (first : AnswerKept s t) (second : AnswerKept t u) : AnswerKept s u :=
  ⟨first.regs.trans second.regs, second.thm.trans first.thm, second.mem.trans first.mem, second.now.trans first.now⟩

theorem answerKept_stage (b : List Nat) (s : State) : AnswerKept s (s.stage 1 b) := by
  obtain ⟨_, regs, _⟩ := stage_kept s 1 b
  obtain ⟨_, _, _, _, _, staged⟩ := noticeOnly_stage 1 b s
  exact ⟨regs.mono fun a listed => List.mem_cons_of_mem _ listed, by rw [staged], by rw [staged], by rw [staged]⟩

theorem answerKept_drawn (s : State) : AnswerKept s s.drawn.2 := by
  rw [State.drawn]
  exact ⟨.refl _ _, rfl, rfl, rfl⟩

theorem answerKept_rmaFail (q : RmaReq) (reason : Nat) (s : State) : AnswerKept s (rmaFail q reason s) := by
  have counted : AnswerKept s (s.inc (Fld.LNK_CNTn_COUNT.i 9)) := by
    refine ⟨(SameRegs.refl _ s).inc (.head _), ?_, ?_, ?_⟩
    · rw [State.inc_eq]
    · rw [State.inc_eq]
    · rw [State.inc_eq]
  rw [rmaFail]
  dsimp only
  split
  · exact counted
  · exact (counted.trans (answerKept_drawn _)).trans (answerKept_stage _ _)

theorem answerKept_failRma (a : Nat) (s : State) : AnswerKept s (failRma a s) := by
  rw [failRma]
  split
  · exact .refl s
  · next q _ =>
    have dropped : AnswerKept s { s with port := { s.port with rma := dropRma a s.port.rma } } := ⟨.refl _ s, rfl, rfl, rfl⟩
    exact dropped.trans (answerKept_rmaFail q 10 _)

theorem answerKept_failStalled (s : State) (x : Stalled) : AnswerKept s (failStalled s x) := by
  have noted (e : Fin 9) (y : Eng) : AnswerKept s (if x.write then s.setEng e y else s).err := by
    split <;> exact ⟨.refl _ s, rfl, rfl, rfl⟩
  rw [failStalled]
  split
  · exact noted _ _
  · split
    · exact noted _ _
    · split
      · exact answerKept_failRma _ s
      · exact ⟨.refl _ s, rfl, rfl, rfl⟩

theorem answerKept_failAll (l : List Stalled) (s : State) : AnswerKept s (l.foldl failStalled s) := by
  induction l generalizing s with
  | nil => exact .refl s
  | cons x l ih => exact (answerKept_failStalled s x).trans (ih _)

/-! ### ORDERLY_STOP_COMPLETE -/

/-- A wake of the hamlet `h` that is under way is refused. -/
def wakeRefused (s : State) (h : Fin 8) : State :=
  let x := splitStalled h s
  let s := x.1.foldl failStalled x.2
  (s.put (Fld.PWR_HSTATE_BUSY.sub h) 0).setHpow h {}

/-- The end of the stop shown, counted, recorded and latched. -/
def stopShown (s : State) : State :=
  (((s.put Fld.THM_STAT_STOPPING 0).inc (Fld.THM_CNTn_COUNT.i 2)).wr Reg.HTH_THMREC (BitVec.ofNat 32 (thmRec false s.thm.cause))).put Fld.THM_STAT_SDLATCH 1

theorem exec_orderlyStopComplete (stops : s.thm.stopAt ≠ none) (dark : ∀ h : Fin 8, s.hstate h = 0) : exec .orderlyStopComplete s =
    .next ((List.finRange 8).foldl wakeRefused ((stopShown s).setThm { (stopShown s).thm with stopAt := none, steps := 0 })) := by
  have all : ((List.finRange 8).all fun (h : Fin 8) => s.hstate h == 0) = true := List.all_eq_true.2 fun h _ => beq_iff_eq.2 (dark h)
  have thm : ((s.put Fld.THM_STAT_STOPPING 0).inc (Fld.THM_CNTn_COUNT.i 2)).thm = s.thm := by rw [State.inc, State.add, State.put_thm, State.put_thm]
  show execOrderlyStopComplete s = _
  rw [execOrderlyStopComplete, all, Option.isSome_iff_ne_none.2 stops, if_pos (by decide)]
  dsimp only
  rw [thm, ← stopShown]
  obtain ⟨v, isV⟩ : ∃ v, stopShown s = v := ⟨_, rfl⟩
  rw [isV]
  rfl

/-- What refusing the wakes leaves: registers but for the hamlets' states and the link's, the supervisor's data, the stores, time. -/
structure RefuseKept (s t : State) : Prop where
  regs : SameRegs (Reg.PWR_HSTATE :: failRegs) s t
  thm : t.thm = s.thm
  mem : t.mem = s.mem
  now : t.now = s.now

theorem RefuseKept.refl (s : State) : RefuseKept s s := ⟨.refl _ s, rfl, rfl, rfl⟩

theorem RefuseKept.trans (first : RefuseKept s t) (second : RefuseKept t u) : RefuseKept s u :=
  ⟨first.regs.trans second.regs, second.thm.trans first.thm, second.mem.trans first.mem, second.now.trans first.now⟩

theorem busy_fits (h : Fin 8) : (Fld.PWR_HSTATE_BUSY.sub h).lo + (Fld.PWR_HSTATE_BUSY.sub h).width ≤ 32 := (state_fits h).2

theorem busies_apart {g h : Fin 8} (other : g ≠ h) : (Fld.PWR_HSTATE_BUSY.sub g).lo + (Fld.PWR_HSTATE_BUSY.sub g).width ≤ (Fld.PWR_HSTATE_BUSY.sub h).lo
    ∨ (Fld.PWR_HSTATE_BUSY.sub h).lo + (Fld.PWR_HSTATE_BUSY.sub h).width ≤ (Fld.PWR_HSTATE_BUSY.sub g).lo := by
  revert g h
  decide

theorem states_unlisted : Reg.PWR_HSTATE ∉ failRegs := by decide

theorem wakeRefused_gives (h : Fin 8) (s : State) : RefuseKept s (wakeRefused s h) ∧ (wakeRefused s h).get (Fld.PWR_HSTATE_BUSY.sub h) = 0
    ∧ (∀ g : Fin 8, s.get (Fld.PWR_HSTATE_BUSY.sub g) = 0 → (wakeRefused s h).get (Fld.PWR_HSTATE_BUSY.sub g) = 0) := by
  have split : AnswerKept s (splitStalled h s).2 := ⟨.refl _ s, rfl, rfl, rfl⟩
  have failed := split.trans (answerKept_failAll (splitStalled h s).1 (splitStalled h s).2)
  rw [wakeRefused]
  obtain ⟨v, isV⟩ : ∃ v, (splitStalled h s).1.foldl failStalled (splitStalled h s).2 = v := ⟨_, rfl⟩
  rw [isV] at failed ⊢
  have regs : SameRegs (Reg.PWR_HSTATE :: failRegs) s (v.put (Fld.PWR_HSTATE_BUSY.sub h) 0) :=
    (failed.regs.mono fun a listed => List.mem_cons_of_mem _ listed).put (show (Fld.PWR_HSTATE_BUSY.sub h).reg ∈ Reg.PWR_HSTATE :: failRegs from .head _) 0
  have zero : (v.put (Fld.PWR_HSTATE_BUSY.sub h) 0).get (Fld.PWR_HSTATE_BUSY.sub h) = 0 := (State.get_put_same _ _ _ (busy_fits h)).trans (Nat.zero_mod _)
  have hpow (f : Field) : ((v.put (Fld.PWR_HSTATE_BUSY.sub h) 0).setHpow h {}).get f = (v.put (Fld.PWR_HSTATE_BUSY.sub h) 0).get f := State.get_congr rfl f
  refine ⟨⟨regs, ?_, ?_, ?_⟩, by rw [hpow, zero], fun g was => ?_⟩
  · show (v.put (Fld.PWR_HSTATE_BUSY.sub h) 0).thm = _
    rw [State.put_thm, failed.thm]
  · show (v.put (Fld.PWR_HSTATE_BUSY.sub h) 0).mem = _
    rw [State.put_mem, failed.mem]
  · show (v.put (Fld.PWR_HSTATE_BUSY.sub h) 0).now = _
    rw [State.put_now, failed.now]
  · rw [hpow]
    by_cases is : g = h
    · rw [is, zero]
    · have same : v.get (Fld.PWR_HSTATE_BUSY.sub g) = s.get (Fld.PWR_HSTATE_BUSY.sub g) := failed.regs.get states_unlisted
      rw [State.get_put_ne _ _ (busy_fits h) (busies_apart is), same, was]

theorem wakesRefused_gives (l : List (Fin 8)) (s : State) : RefuseKept s (l.foldl wakeRefused s)
    ∧ (∀ g : Fin 8, g ∈ l ∨ s.get (Fld.PWR_HSTATE_BUSY.sub g) = 0 → (l.foldl wakeRefused s).get (Fld.PWR_HSTATE_BUSY.sub g) = 0) := by
  induction l generalizing s with
  | nil => exact ⟨.refl s, fun g free => free.resolve_left List.not_mem_nil⟩
  | cons h l ih =>
    obtain ⟨kept, zero, stays⟩ := wakeRefused_gives h s
    obtain ⟨rest, free⟩ := ih (wakeRefused s h)
    refine ⟨kept.trans rest, fun g among => free g ?_⟩
    rcases among with listed | was
    · rcases List.mem_cons.1 listed with is | further
      · rw [is]
        exact .inr zero
      · exact .inl further
    · exact .inr (stays g was)

theorem stopShown_gives (s : State) : (stopShown s).get Fld.THM_STAT_STOPPING = 0 ∧ (stopShown s).get Fld.THM_STAT_SDLATCH = 1
    ∧ (stopShown s).rd Reg.HTH_THMREC = BitVec.ofNat 32 (thmRec false s.thm.cause)
    ∧ (stopShown s).get (Fld.THM_CNTn_COUNT.i 2) = min (s.get (Fld.THM_CNTn_COUNT.i 2) + 1) (2 ^ 32 - 1)
    ∧ (stopShown s).thm = s.thm ∧ (stopShown s).mem = s.mem ∧ (stopShown s).now = s.now := by
  have zero : (s.put Fld.THM_STAT_STOPPING 0).get Fld.THM_STAT_STOPPING = 0 := (State.get_put_same _ _ _ (by decide)).trans (Nat.zero_mod _)
  have count : (s.put Fld.THM_STAT_STOPPING 0).get (Fld.THM_CNTn_COUNT.i 2) = s.get (Fld.THM_CNTn_COUNT.i 2) := State.get_put_reg _ _ (by decide)
  have thm : (s.put Fld.THM_STAT_STOPPING 0).thm = s.thm := State.put_thm _ _ _
  have mem : (s.put Fld.THM_STAT_STOPPING 0).mem = s.mem := State.put_mem _ _ _
  have now : (s.put Fld.THM_STAT_STOPPING 0).now = s.now := State.put_now _ _ _
  rw [stopShown]
  obtain ⟨w, isW⟩ : ∃ w, BitVec.ofNat 32 (thmRec false s.thm.cause) = w := ⟨_, rfl⟩
  obtain ⟨v, isV⟩ : ∃ v, s.put Fld.THM_STAT_STOPPING 0 = v := ⟨_, rfl⟩
  rw [isV] at zero count thm mem now
  rw [isW, isV]
  have other {f : Field} (stat : f.reg ≠ Fld.THM_STAT_SDLATCH.reg) (rec : f.reg ≠ Reg.HTH_THMREC) : (((v.inc (Fld.THM_CNTn_COUNT.i 2)).wr Reg.HTH_THMREC w).put Fld.THM_STAT_SDLATCH 1).get f = (v.inc (Fld.THM_CNTn_COUNT.i 2)).get f := by
    rw [State.get_put_reg _ _ stat, State.get, State.get, State.rd_wr_ne _ _ rec]
  refine ⟨?_, (State.get_put_same _ _ _ (by decide)).trans rfl, ?_, ?_, ?_, ?_, ?_⟩
  · have record : ((v.inc (Fld.THM_CNTn_COUNT.i 2)).wr Reg.HTH_THMREC w).get Fld.THM_STAT_STOPPING = (v.inc (Fld.THM_CNTn_COUNT.i 2)).get Fld.THM_STAT_STOPPING := by
      rw [State.get, State.get, State.rd_wr_ne _ _ (by decide)]
    rw [State.get_put_ne _ _ (by decide) (.inl (by decide)), record, State.inc, State.add, State.get_put_reg _ _ (by decide), zero]
  · rw [State.rd_put_ne _ _ (by decide), State.rd_wr_same]
  · rw [other (by decide) (by decide), State.inc, State.add, State.get_put_same _ _ _ (by decide), count]
    exact Nat.mod_eq_of_lt (Nat.lt_of_le_of_lt (Nat.min_le_right ..) (by decide))
  · rw [State.put_thm, State.wr_thm, State.inc_eq, thm]
  · rw [State.put_mem, State.wr_mem, State.inc_eq, mem]
  · rw [State.put_now, State.wr_now, State.inc_eq, now]

theorem gives_orderlyStopComplete (stops : s.thm.stopAt ≠ none) (dark : ∀ h : Fin 8, s.hstate h = 0) : Gives .orderlyStopComplete s fun t =>
    t.get Fld.THM_STAT_STOPPING = 0 ∧ t.get Fld.THM_STAT_SDLATCH = 1 ∧ t.thm.stopAt = none
      ∧ t.rd Reg.HTH_THMREC = BitVec.ofNat 32 (thmRec false s.thm.cause) ∧ (∀ h : Fin 8, t.get (Fld.PWR_HSTATE_BUSY.sub h) = 0)
      ∧ t.get (Fld.THM_CNTn_COUNT.i 2) = min (s.get (Fld.THM_CNTn_COUNT.i 2) + 1) (2 ^ 32 - 1) ∧ t.mem = s.mem ∧ t.now = s.now := by
  refine ⟨_, exec_orderlyStopComplete stops dark, ?_⟩
  obtain ⟨stopping, latch, record, count, thm, mem, now⟩ := stopShown_gives s
  obtain ⟨v, isV⟩ : ∃ v, stopShown s = v := ⟨_, rfl⟩
  rw [isV] at stopping latch record count thm mem now ⊢
  obtain ⟨⟨regs, thm', mem', now'⟩, free⟩ := wakesRefused_gives (List.finRange 8) (v.setThm { v.thm with stopAt := none, steps := 0 })
  obtain ⟨t, isT⟩ : ∃ t, (List.finRange 8).foldl wakeRefused (v.setThm { v.thm with stopAt := none, steps := 0 }) = t := ⟨_, rfl⟩
  rw [isT] at regs thm' mem' now' free ⊢
  have same (f : Field) (other : f.reg ∉ Reg.PWR_HSTATE :: failRegs) : t.get f = v.get f := (regs.get other).trans (State.get_congr rfl f)
  refine ⟨(same _ (by decide)).trans stopping, (same _ (by decide)).trans latch, by rw [thm']; rfl, (regs _ (by decide)).trans record, fun h => free h (.inl (List.mem_finRange h)),
    (same _ (by decide)).trans count, mem'.trans mem, now'.trans now⟩

end

/-! ### The settlement -/

/-- Settles O39: each action's own registers and data, and what the loss of a hamlet leaves of the bias channels of the others. -/
theorem thermalActions : Obligations.ThermalActions := by
  refine ⟨?_, ?_, ?_, ?_, ?_, ?_, ?_⟩
  · exact fun s x l due => gives_shedTakeEffect due
  · intro s h x turns per
    obtain ⟨t, ran, rot, now, mem, eff, safe⟩ := gives_rotationStep turns
    have period : per = rotPeriod (s.rotWord h) := rfl
    refine ⟨t, ran, fun runs => ?_, fun stops gone => ?_, fun a stops again => ?_, now, mem, eff, safe⟩
    · rw [rot, rotNext, runs, period]
      rfl
    · rw [rot, rotNext, stops, gone]
      rfl
    · rw [rot, rotNext, stops, period, again]
      rfl
  · exact fun s t0 stops => ⟨fun first => gives_ownersLeft stops first, fun later => gives_stepped stops later⟩
  · exact fun s stops dark => gives_orderlyStopComplete stops dark
  · exact fun s cuts => gives_hardCut cuts
  · exact fun s r taken => ⟨fun cool => gives_thmRearm taken cool, fun hot => gives_thmRearm_refused taken hot⟩
  · exact fun s r z taken => gives_thmUnpin taken

end Sys2Proof.Machine
end
